-- ==== Sys2Proof/Syntax.lean ====
section
/-! DEFINITION. The instructions: one constructor for every row of spec/opcode_table.json.
A row with a word has as arguments the fields of that word, by the names the table gives them (R55, R56): every bit of the
word is either fixed by the row or in one of its fields, so the word can be rebuilt from the constructor.
A row without a word is a step of an engine, the dispatcher, the host, a link or the board. Which of the things its rule
speaks of takes part (which slot, which queue, which value the host writes, which choice the hardware makes) stands in the
operand record of the step's turn (Machine/State.lean, EvArg). No instruction word decodes to such a row; ILLEGAL_INSTR and
FETCH_FAULT are what the fetch itself meets.

The order is: the words with operands, then the words without, then the steps without a word. Lean's compiled code has no tag
above 243 for a constructor with operands, and there are 246 of them. -/

namespace Sys2Proof

/-- One step of the machine: a decoded instruction word, or a step of another agent. -/
inductive Instr where
  /-- ADD (R75): Writes the 64-bit sum of xA and xB to xD. -/
  | add (d : BitVec 5) (a : BitVec 5) (b : BitVec 5)
  /-- SUB (R75): Writes xA minus xB to xD. -/
  | sub (d : BitVec 5) (a : BitVec 5) (b : BitVec 5)
  /-- AND (R75): Writes the bitwise AND of xA and xB to xD. -/
  | and (d : BitVec 5) (a : BitVec 5) (b : BitVec 5)
  /-- OR (R75): Writes the bitwise OR of xA and xB to xD. -/
  | or (d : BitVec 5) (a : BitVec 5) (b : BitVec 5)
  /-- XOR (R75): Writes the bitwise XOR of xA and xB to xD. -/
  | xor (d : BitVec 5) (a : BitVec 5) (b : BitVec 5)
  /-- SLL (R75): Shifts xA left by xB[5:0] into xD. -/
  | sll (d : BitVec 5) (a : BitVec 5) (b : BitVec 5)
  /-- SRL (R75): Shifts xA right logically by xB[5:0] into xD. -/
  | srl (d : BitVec 5) (a : BitVec 5) (b : BitVec 5)
  /-- SRA (R75): Shifts xA right arithmetically by xB[5:0] into xD. -/
  | sra (d : BitVec 5) (a : BitVec 5) (b : BitVec 5)
  /-- SLT (R75): Writes 1 to xD when xA is signed-less than xB, else 0. -/
  | slt (d : BitVec 5) (a : BitVec 5) (b : BitVec 5)
  /-- SLTU (R75): Writes 1 to xD when xA is unsigned-less than xB, else 0. -/
  | sltu (d : BitVec 5) (a : BitVec 5) (b : BitVec 5)
  /-- MIN (R75): Writes the signed minimum of xA and xB to xD. -/
  | min (d : BitVec 5) (a : BitVec 5) (b : BitVec 5)
  /-- MAX (R75): Writes the signed maximum of xA and xB to xD. -/
  | max (d : BitVec 5) (a : BitVec 5) (b : BitVec 5)
  /-- MINU (R75): Writes the unsigned minimum of xA and xB to xD. -/
  | minu (d : BitVec 5) (a : BitVec 5) (b : BitVec 5)
  /-- MAXU (R75): Writes the unsigned maximum of xA and xB to xD. -/
  | maxu (d : BitVec 5) (a : BitVec 5) (b : BitVec 5)
  /-- CLZ (R75): Writes the count of leading zero bits of xA to xD. -/
  | clz (d : BitVec 5) (a : BitVec 5)
  /-- CTZ (R75): Writes the count of trailing zero bits of xA to xD. -/
  | ctz (d : BitVec 5) (a : BitVec 5)
  /-- POPC (R75): Writes the number of one bits of xA to xD. -/
  | popc (d : BitVec 5) (a : BitVec 5)
  /-- SEXTB (R75): Sign-extends xA[7:0] into xD. -/
  | sextb (d : BitVec 5) (a : BitVec 5)
  /-- SEXTH (R75): Sign-extends xA[15:0] into xD. -/
  | sexth (d : BitVec 5) (a : BitVec 5)
  /-- SEXTW (R75): Sign-extends xA[31:0] into xD. -/
  | sextw (d : BitVec 5) (a : BitVec 5)
  /-- MUL (R80): Writes the low 64 bits of xA times xB to xD. -/
  | mul (d : BitVec 5) (a : BitVec 5) (b : BitVec 5)
  /-- MULHS (R80): Writes the high 64 bits of the signed product to xD. -/
  | mulhs (d : BitVec 5) (a : BitVec 5) (b : BitVec 5)
  /-- MULHU (R80): Writes the high 64 bits of the unsigned product to xD. -/
  | mulhu (d : BitVec 5) (a : BitVec 5) (b : BitVec 5)
  /-- MULHX (R80): Writes the high 64 bits of signed xA times unsigned xB to xD. -/
  | mulhx (d : BitVec 5) (a : BitVec 5) (b : BitVec 5)
  /-- DIV (R81): Writes the signed quotient of xA by xB to xD, saturating and never trapping. -/
  | div (d : BitVec 5) (a : BitVec 5) (b : BitVec 5)
  /-- DIVU (R81): Writes the unsigned quotient of xA by xB to xD, saturating on zero divisor. -/
  | divu (d : BitVec 5) (a : BitVec 5) (b : BitVec 5)
  /-- REM (R81): Writes the signed remainder of xA by xB to xD. -/
  | rem (d : BitVec 5) (a : BitVec 5) (b : BitVec 5)
  /-- REMU (R81): Writes the unsigned remainder of xA by xB to xD. -/
  | remu (d : BitVec 5) (a : BitVec 5) (b : BitVec 5)
  /-- FADD (R83): Scalar floating add in the format of field FMT. -/
  | fadd (d : BitVec 5) (a : BitVec 5) (b : BitVec 5) (f : BitVec 2)
  /-- FSUB (R83): Scalar floating subtract. -/
  | fsub (d : BitVec 5) (a : BitVec 5) (b : BitVec 5) (f : BitVec 2)
  /-- FMUL (R83): Scalar floating multiply. -/
  | fmul (d : BitVec 5) (a : BitVec 5) (b : BitVec 5) (f : BitVec 2)
  /-- FDIV (R83): Scalar floating divide. -/
  | fdiv (d : BitVec 5) (a : BitVec 5) (b : BitVec 5) (f : BitVec 2)
  /-- FSQRT (R83): Scalar floating square root. -/
  | fsqrt (d : BitVec 5) (a : BitVec 5) (f : BitVec 2)
  /-- FMAD (R83): Scalar fused multiply-add xD + xA × xB with one rounding. -/
  | fmad (d : BitVec 5) (a : BitVec 5) (b : BitVec 5) (f : BitVec 2)
  /-- FEQ (R84): Writes 1 when the two floats are equal. -/
  | feq (d : BitVec 5) (a : BitVec 5) (b : BitVec 5) (f : BitVec 2)
  /-- FLT (R84): Writes 1 when a < b. -/
  | flt (d : BitVec 5) (a : BitVec 5) (b : BitVec 5) (f : BitVec 2)
  /-- FLE (R84): Writes 1 when a ≤ b. -/
  | fle (d : BitVec 5) (a : BitVec 5) (b : BitVec 5) (f : BitVec 2)
  /-- FUN (R84): Writes 1 when either operand is NaN. -/
  | funo (d : BitVec 5) (a : BitVec 5) (b : BitVec 5) (f : BitVec 2)
  /-- FTOI (R85): Converts a float to INT64. -/
  | ftoi (d : BitVec 5) (a : BitVec 5) (f : BitVec 2)
  /-- FTOU (R85): Converts a float to UINT64. -/
  | ftou (d : BitVec 5) (a : BitVec 5) (f : BitVec 2)
  /-- ITOF (R85): Converts INT64 to a float. -/
  | itof (d : BitVec 5) (a : BitVec 5) (f : BitVec 2)
  /-- UTOF (R85): Converts UINT64 to a float. -/
  | utof (d : BitVec 5) (a : BitVec 5) (f : BitVec 2)
  /-- FCVS (R85): Converts a float to FP32. -/
  | fcvs (d : BitVec 5) (a : BitVec 5) (f : BitVec 2)
  /-- FCVH (R85): Converts a float to FP16. -/
  | fcvh (d : BitVec 5) (a : BitVec 5) (f : BitVec 2)
  /-- FCVB (R85): Converts a float to BF16. -/
  | fcvb (d : BitVec 5) (a : BitVec 5) (f : BitVec 2)
  /-- ADDI (R76): Adds the sign-extended immediate to xA into xD. -/
  | addi (d : BitVec 5) (a : BitVec 5) (i : BitVec 16)
  /-- ANDI (R76): ANDs xA with the zero-extended immediate into xD. -/
  | andi (d : BitVec 5) (a : BitVec 5) (i : BitVec 16)
  /-- ORI (R76): ORs xA with the zero-extended immediate into xD. -/
  | ori (d : BitVec 5) (a : BitVec 5) (i : BitVec 16)
  /-- XORI (R76): XORs xA with the zero-extended immediate into xD. -/
  | xori (d : BitVec 5) (a : BitVec 5) (i : BitVec 16)
  /-- SLTI (R76): Signed compare of xA with the sign-extended immediate. -/
  | slti (d : BitVec 5) (a : BitVec 5) (i : BitVec 16)
  /-- SLTIU (R76): Unsigned compare of xA with the sign-extended immediate. -/
  | sltiu (d : BitVec 5) (a : BitVec 5) (i : BitVec 16)
  /-- LIM (R77): Replaces one 16-bit chunk of xD with the immediate. -/
  | lim (d : BitVec 5) (c : BitVec 2) (i : BitVec 16)
  /-- PCADD (R78): Writes the PC-relative instruction address to xD. -/
  | pcadd (d : BitVec 5) (i : BitVec 16)
  /-- SLLI (R79): Shifts xA left by an immediate amount. -/
  | slli (d : BitVec 5) (a : BitVec 5) (s : BitVec 6)
  /-- SRLI (R79): Shifts xA right logically by an immediate amount. -/
  | srli (d : BitVec 5) (a : BitVec 5) (s : BitVec 6)
  /-- SRAI (R79): Shifts xA right arithmetically by an immediate amount. -/
  | srai (d : BitVec 5) (a : BitVec 5) (s : BitVec 6)
  /-- RORI (R79): Rotates xA right by an immediate amount. -/
  | rori (d : BitVec 5) (a : BitVec 5) (s : BitVec 6)
  /-- LDB (R90): Loads a sign-extended byte. -/
  | ldb (d : BitVec 5) (a : BitVec 5) (c : BitVec 4) (o : BitVec 12)
  /-- LDBU (R90): Loads a zero-extended byte. -/
  | ldbu (d : BitVec 5) (a : BitVec 5) (c : BitVec 4) (o : BitVec 12)
  /-- LDH (R90): Loads a sign-extended halfword. -/
  | ldh (d : BitVec 5) (a : BitVec 5) (c : BitVec 4) (o : BitVec 12)
  /-- LDHU (R90): Loads a zero-extended halfword. -/
  | ldhu (d : BitVec 5) (a : BitVec 5) (c : BitVec 4) (o : BitVec 12)
  /-- LDW (R90): Loads a sign-extended word. -/
  | ldw (d : BitVec 5) (a : BitVec 5) (c : BitVec 4) (o : BitVec 12)
  /-- LDWU (R90): Loads a zero-extended word. -/
  | ldwu (d : BitVec 5) (a : BitVec 5) (c : BitVec 4) (o : BitVec 12)
  /-- LDD (R90): Loads a doubleword. -/
  | ldd (d : BitVec 5) (a : BitVec 5) (c : BitVec 4) (o : BitVec 12)
  /-- STB (R90): Stores the low byte of xD. -/
  | stb (d : BitVec 5) (a : BitVec 5) (c : BitVec 4) (o : BitVec 12)
  /-- STH (R90): Stores the low halfword of xD. -/
  | sth (d : BitVec 5) (a : BitVec 5) (c : BitVec 4) (o : BitVec 12)
  /-- STW (R90): Stores the low word of xD. -/
  | stw (d : BitVec 5) (a : BitVec 5) (c : BitVec 4) (o : BitVec 12)
  /-- STD (R90): Stores the doubleword xD. -/
  | std (d : BitVec 5) (a : BitVec 5) (c : BitVec 4) (o : BitVec 12)
  /-- AADD (R258): Atomic add at the home, returning the old value. -/
  | aadd (d : BitVec 5) (a : BitVec 5) (b : BitVec 5) (s : BitVec 3) (c : BitVec 4) (w : BitVec 1)
  /-- AMIN (R258): Atomic signed minimum at the home. -/
  | amin (d : BitVec 5) (a : BitVec 5) (b : BitVec 5) (s : BitVec 3) (c : BitVec 4) (w : BitVec 1)
  /-- AMAX (R258): Atomic signed maximum at the home. -/
  | amax (d : BitVec 5) (a : BitVec 5) (b : BitVec 5) (s : BitVec 3) (c : BitVec 4) (w : BitVec 1)
  /-- AAND (R258): Atomic AND at the home. -/
  | aand (d : BitVec 5) (a : BitVec 5) (b : BitVec 5) (s : BitVec 3) (c : BitVec 4) (w : BitVec 1)
  /-- AOR (R258): Atomic OR at the home. -/
  | aor (d : BitVec 5) (a : BitVec 5) (b : BitVec 5) (s : BitVec 3) (c : BitVec 4) (w : BitVec 1)
  /-- AXOR (R258): Atomic XOR at the home. -/
  | axor (d : BitVec 5) (a : BitVec 5) (b : BitVec 5) (s : BitVec 3) (c : BitVec 4) (w : BitVec 1)
  /-- ASWAP (R258): Atomic swap at the home. -/
  | aswap (d : BitVec 5) (a : BitVec 5) (b : BitVec 5) (s : BitVec 3) (c : BitVec 4) (w : BitVec 1)
  /-- ACAS (R258): Atomic compare-and-swap at the home. -/
  | acas (d : BitVec 5) (a : BitVec 5) (b : BitVec 5) (s : BitVec 3) (c : BitVec 4) (w : BitVec 1)
  /-- AFADD (R259): Atomic floating add in FP32 or BF16 at the home. -/
  | afadd (d : BitVec 5) (a : BitVec 5) (b : BitVec 5) (s : BitVec 3) (c : BitVec 4) (f : BitVec 1)
  /-- FENCE (R255): Orders the selected classes' accesses both ways at a scope. -/
  | fence (m : BitVec 8) (s : BitVec 4) (n : BitVec 8)
  /-- FENCE_Q (R257): Places a marker in each selected engine queue. -/
  | fenceQ (q : BitVec 5)
  /-- FENCE_ARR (R214): Arrives at the next phase of group g once earlier stores are visible at scope. -/
  | fenceArr (s : BitVec 4) (g : BitVec 8)
  /-- WPOLL (R256): Waits until a doubleword differs from xD or a time limit passes. -/
  | wpoll (d : BitVec 5) (a : BitVec 5) (s : BitVec 4)
  /-- FENCE_ACQ (R255): Acquire fence over the selected classes. -/
  | fenceAcq (m : BitVec 8) (s : BitVec 4) (n : BitVec 8)
  /-- FENCE_REL (R255): Release fence over the selected classes. -/
  | fenceRel (m : BitVec 8) (s : BitVec 4) (n : BitVec 8)
  /-- BEQ (R87): Branches when xA equals xB. -/
  | beq (a : BitVec 5) (b : BitVec 5) (o : BitVec 16)
  /-- BNE (R87): Branches when xA differs from xB. -/
  | bne (a : BitVec 5) (b : BitVec 5) (o : BitVec 16)
  /-- BLT (R87): Branches when xA is signed-less than xB. -/
  | blt (a : BitVec 5) (b : BitVec 5) (o : BitVec 16)
  /-- BGE (R87): Branches when xA is signed-greater-or-equal to xB. -/
  | bge (a : BitVec 5) (b : BitVec 5) (o : BitVec 16)
  /-- BLTU (R87): Branches when xA is unsigned-less than xB. -/
  | bltu (a : BitVec 5) (b : BitVec 5) (o : BitVec 16)
  /-- BGEU (R87): Branches when xA is unsigned-greater-or-equal to xB. -/
  | bgeu (a : BitVec 5) (b : BitVec 5) (o : BitVec 16)
  /-- JMP (R87): Jumps to a PC-relative target. -/
  | jmp (o : BitVec 26)
  /-- CALL (R88): Pushes lk on the return stack, links and jumps. -/
  | call (o : BitVec 26)
  /-- JR (R88): Jumps to the address in xA. -/
  | jr (a : BitVec 5)
  /-- CALLR (R88): Pushes lk, links and jumps to the address in xA. -/
  | callr (a : BitVec 5)
  /-- SBR (R100): Subtracts VLVALID from the count, steps address registers and branches while count remains. -/
  | sbr (n : BitVec 5) (m : BitVec 4) (s : BitVec 8) (o : BitVec 9)
  /-- VBR (R130): Splits the active elements by a mask, pushes a fragment entry and runs the true path first. -/
  | vbr (a : BitVec 3) (o : BitVec 16)
  /-- VJOIN (R130): Switches to the pending false path or restores the outer mask and pops. -/
  | vjoin (o : BitVec 16)
  /-- VBANY (R130): Branches when any active element's mask bit is set. -/
  | vbany (a : BitVec 3) (o : BitVec 16)
  /-- VBALL (R130): Branches when every active element's mask bit is set. -/
  | vball (a : BitVec 3) (o : BitVec 16)
  /-- VLOOP (R111): Runs the following body of len words once per strip of a stream. -/
  | vloop (s : BitVec 3) (l : BitVec 4)
  /-- SETVL (R97): Grants a vector length under an immediate VTYPE. -/
  | setvl (d : BitVec 5) (a : BitVec 5) (t : BitVec 12)
  /-- SETVLR (R97): Grants a vector length under the VTYPE held in xB. -/
  | setvlr (d : BitVec 5) (a : BitVec 5) (b : BitVec 5)
  /-- CBLD (R99): Loads the 16 BF16 entries of a codebook register. -/
  | cbld (a : BitVec 5) (c : BitVec 4) (n : BitVec 2)
  /-- VLD (R103): Unit-stride vector load, with a bit offset for sub-byte elements. -/
  | vld (d : BitVec 5) (a : BitVec 5) (b : BitVec 5) (k : BitVec 3) (c : BitVec 4)
  /-- VLDS (R103): Strided vector load. -/
  | vlds (d : BitVec 5) (a : BitVec 5) (b : BitVec 5) (k : BitVec 3) (c : BitVec 4)
  /-- VLDX (R103): Indexed vector gather. -/
  | vldx (d : BitVec 5) (a : BitVec 5) (b : BitVec 5) (k : BitVec 3) (c : BitVec 4)
  /-- VLDMX (R107): Loads MX element codes and their block scales into the companion. -/
  | vldmx (d : BitVec 5) (a : BitVec 5) (b : BitVec 5) (k : BitVec 3) (c : BitVec 4)
  /-- VSLD (R110): Loads the next strip of a stream register. -/
  | vsld (d : BitVec 5) (s : BitVec 3) (k : BitVec 3) (c : BitVec 4)
  /-- SDLD (R109): Loads a 64-byte stream descriptor into a stream register. -/
  | sdld (s : BitVec 3) (a : BitVec 5)
  /-- VST (R103): Unit-stride vector store. -/
  | vst (d : BitVec 5) (a : BitVec 5) (b : BitVec 5) (k : BitVec 3) (c : BitVec 4)
  /-- VSTS (R103): Strided vector store. -/
  | vsts (d : BitVec 5) (a : BitVec 5) (b : BitVec 5) (k : BitVec 3) (c : BitVec 4)
  /-- VSTX (R105): Indexed vector scatter. -/
  | vstx (d : BitVec 5) (a : BitVec 5) (b : BitVec 5) (k : BitVec 3) (c : BitVec 4)
  /-- VSTMX (R107): Stores MX element codes and block scales. -/
  | vstmx (d : BitVec 5) (a : BitVec 5) (b : BitVec 5) (k : BitVec 3) (c : BitVec 4)
  /-- VSST (R110): Stores the next strip of a stream register. -/
  | vsst (d : BitVec 5) (s : BitVec 3) (k : BitVec 3) (c : BitVec 4)
  /-- VSCATADD_DEV (R112): Combining scatter-add, atomic at device scope. -/
  | vscataddDev (d : BitVec 5) (a : BitVec 5) (b : BitVec 5) (k : BitVec 3) (c : BitVec 4)
  /-- VSCATADD_HOST (R112): Combining scatter-add, atomic at host scope. -/
  | vscataddHost (d : BitVec 5) (a : BitVec 5) (b : BitVec 5) (k : BitVec 3) (c : BitVec 4)
  /-- VSCATADD_SYS (R112): Combining scatter-add, atomic at system scope. -/
  | vscataddSys (d : BitVec 5) (a : BitVec 5) (b : BitVec 5) (k : BitVec 3) (c : BitVec 4)
  /-- VADD (R117): Vector integer add, vector or scalar second operand. -/
  | vadd (x : BitVec 1) (d : BitVec 5) (a : BitVec 5) (b : BitVec 5) (k : BitVec 3) (h : BitVec 2)
  /-- VSUB (R117): Vector integer subtract. -/
  | vsub (x : BitVec 1) (d : BitVec 5) (a : BitVec 5) (b : BitVec 5) (k : BitVec 3) (h : BitVec 2)
  /-- VSUBR (R117): Vector integer reverse subtract. -/
  | vsubr (x : BitVec 1) (d : BitVec 5) (a : BitVec 5) (b : BitVec 5) (k : BitVec 3) (h : BitVec 2)
  /-- VMUL (R117): Vector integer multiply, low bits. -/
  | vmul (x : BitVec 1) (d : BitVec 5) (a : BitVec 5) (b : BitVec 5) (k : BitVec 3) (h : BitVec 2)
  /-- VMULHI (R117): Vector integer multiply, high bits. -/
  | vmulhi (x : BitVec 1) (d : BitVec 5) (a : BitVec 5) (b : BitVec 5) (k : BitVec 3) (h : BitVec 2)
  /-- VDIV (R117): Vector integer divide with saturating edge cases. -/
  | vdiv (x : BitVec 1) (d : BitVec 5) (a : BitVec 5) (b : BitVec 5) (k : BitVec 3) (h : BitVec 2)
  /-- VREM (R117): Vector integer remainder. -/
  | vrem (x : BitVec 1) (d : BitVec 5) (a : BitVec 5) (b : BitVec 5) (k : BitVec 3) (h : BitVec 2)
  /-- VMIN (R117): Vector integer minimum. -/
  | vmin (x : BitVec 1) (d : BitVec 5) (a : BitVec 5) (b : BitVec 5) (k : BitVec 3) (h : BitVec 2)
  /-- VMAX (R117): Vector integer maximum. -/
  | vmax (x : BitVec 1) (d : BitVec 5) (a : BitVec 5) (b : BitVec 5) (k : BitVec 3) (h : BitVec 2)
  /-- VAND (R117): Vector bitwise AND. -/
  | vand (x : BitVec 1) (d : BitVec 5) (a : BitVec 5) (b : BitVec 5) (k : BitVec 3) (h : BitVec 2)
  /-- VOR (R117): Vector bitwise OR. -/
  | vor (x : BitVec 1) (d : BitVec 5) (a : BitVec 5) (b : BitVec 5) (k : BitVec 3) (h : BitVec 2)
  /-- VXOR (R117): Vector bitwise XOR. -/
  | vxor (x : BitVec 1) (d : BitVec 5) (a : BitVec 5) (b : BitVec 5) (k : BitVec 3) (h : BitVec 2)
  /-- VSHL (R117): Vector shift left. -/
  | vshl (x : BitVec 1) (d : BitVec 5) (a : BitVec 5) (b : BitVec 5) (k : BitVec 3) (h : BitVec 2)
  /-- VSHR (R117): Vector shift right by format signedness. -/
  | vshr (x : BitVec 1) (d : BitVec 5) (a : BitVec 5) (b : BitVec 5) (k : BitVec 3) (h : BitVec 2)
  /-- VADDSAT (R117): Vector saturating add. -/
  | vaddsat (x : BitVec 1) (d : BitVec 5) (a : BitVec 5) (b : BitVec 5) (k : BitVec 3) (h : BitVec 2)
  /-- VSUBSAT (R117): Vector saturating subtract. -/
  | vsubsat (x : BitVec 1) (d : BitVec 5) (a : BitVec 5) (b : BitVec 5) (k : BitVec 3) (h : BitVec 2)
  /-- VMAD (R117): Vector integer multiply-add into the destination. -/
  | vmad (x : BitVec 1) (d : BitVec 5) (a : BitVec 5) (b : BitVec 5) (k : BitVec 3) (h : BitVec 2)
  /-- VCOPY (R117): Vector integer copy of the second operand. -/
  | vcopy (x : BitVec 1) (d : BitVec 5) (b : BitVec 5) (k : BitVec 3) (h : BitVec 2)
  /-- VFADD (R118): Vector floating add. -/
  | vfadd (x : BitVec 1) (d : BitVec 5) (a : BitVec 5) (b : BitVec 5) (k : BitVec 3) (h : BitVec 2)
  /-- VFSUB (R118): Vector floating subtract. -/
  | vfsub (x : BitVec 1) (d : BitVec 5) (a : BitVec 5) (b : BitVec 5) (k : BitVec 3) (h : BitVec 2)
  /-- VFSUBR (R118): Vector floating reverse subtract. -/
  | vfsubr (x : BitVec 1) (d : BitVec 5) (a : BitVec 5) (b : BitVec 5) (k : BitVec 3) (h : BitVec 2)
  /-- VFMUL (R118): Vector floating multiply. -/
  | vfmul (x : BitVec 1) (d : BitVec 5) (a : BitVec 5) (b : BitVec 5) (k : BitVec 3) (h : BitVec 2)
  /-- VFDIV (R118): Vector floating divide. -/
  | vfdiv (x : BitVec 1) (d : BitVec 5) (a : BitVec 5) (b : BitVec 5) (k : BitVec 3) (h : BitVec 2)
  /-- VFSQRT (R118): Vector floating square root. -/
  | vfsqrt (d : BitVec 5) (a : BitVec 5) (k : BitVec 3) (h : BitVec 2)
  /-- VFMIN (R118): Vector IEEE minimumNumber. -/
  | vfmin (x : BitVec 1) (d : BitVec 5) (a : BitVec 5) (b : BitVec 5) (k : BitVec 3) (h : BitVec 2)
  /-- VFMAX (R118): Vector IEEE maximumNumber. -/
  | vfmax (x : BitVec 1) (d : BitVec 5) (a : BitVec 5) (b : BitVec 5) (k : BitVec 3) (h : BitVec 2)
  /-- VFMAD (R118): Vector fused multiply-add d + a × b. -/
  | vfmad (x : BitVec 1) (d : BitVec 5) (a : BitVec 5) (b : BitVec 5) (k : BitVec 3) (h : BitVec 2)
  /-- VFMSB (R118): Vector fused multiply-subtract d − a × b. -/
  | vfmsb (x : BitVec 1) (d : BitVec 5) (a : BitVec 5) (b : BitVec 5) (k : BitVec 3) (h : BitVec 2)
  /-- VFABS (R118): Clears the sign bit of each element. -/
  | vfabs (d : BitVec 5) (a : BitVec 5) (k : BitVec 3) (h : BitVec 2)
  /-- VFNEG (R118): Inverts the sign bit of each element. -/
  | vfneg (d : BitVec 5) (a : BitVec 5) (k : BitVec 3) (h : BitVec 2)
  /-- VFCSGN (R118): Gives each element the sign of the second operand. -/
  | vfcsgn (x : BitVec 1) (d : BitVec 5) (a : BitVec 5) (b : BitVec 5) (k : BitVec 3) (h : BitVec 2)
  /-- VFCOPY (R118): Copies the second operand bit for bit. -/
  | vfcopy (x : BitVec 1) (d : BitVec 5) (b : BitVec 5) (k : BitVec 3) (h : BitVec 2)
  /-- VCMPEQ (R119): Writes mask bits where elements are equal. -/
  | vcmpeq (d : BitVec 3) (a : BitVec 5) (b : BitVec 5) (k : BitVec 3) (h : BitVec 2) (x : BitVec 1)
  /-- VCMPNE (R119): Writes mask bits where elements differ. -/
  | vcmpne (d : BitVec 3) (a : BitVec 5) (b : BitVec 5) (k : BitVec 3) (h : BitVec 2) (x : BitVec 1)
  /-- VCMPLT (R119): Writes mask bits where a < b. -/
  | vcmplt (d : BitVec 3) (a : BitVec 5) (b : BitVec 5) (k : BitVec 3) (h : BitVec 2) (x : BitVec 1)
  /-- VCMPLE (R119): Writes mask bits where a ≤ b. -/
  | vcmple (d : BitVec 3) (a : BitVec 5) (b : BitVec 5) (k : BitVec 3) (h : BitVec 2) (x : BitVec 1)
  /-- VCMPGT (R119): Writes mask bits where a > b. -/
  | vcmpgt (d : BitVec 3) (a : BitVec 5) (b : BitVec 5) (k : BitVec 3) (h : BitVec 2) (x : BitVec 1)
  /-- VCMPGE (R119): Writes mask bits where a ≥ b. -/
  | vcmpge (d : BitVec 3) (a : BitVec 5) (b : BitVec 5) (k : BitVec 3) (h : BitVec 2) (x : BitVec 1)
  /-- KBOTH (R119): Mask AND under EXM. -/
  | kboth (d : BitVec 3) (a : BitVec 3) (b : BitVec 3) (h : BitVec 2)
  /-- KEITHER (R119): Mask OR under EXM. -/
  | keither (d : BitVec 3) (a : BitVec 3) (b : BitVec 3) (h : BitVec 2)
  /-- KDIFFER (R119): Mask XOR under EXM. -/
  | kdiffer (d : BitVec 3) (a : BitVec 3) (b : BitVec 3) (h : BitVec 2)
  /-- KBUT (R119): Mask AND NOT under EXM. -/
  | kbut (d : BitVec 3) (a : BitVec 3) (b : BitVec 3) (h : BitVec 2)
  /-- KFLIP (R119): Mask NOT under EXM. -/
  | kflip (d : BitVec 3) (a : BitVec 3) (h : BitVec 2)
  /-- KFILL (R119): Sets mask bits below VLVALID under EXM. -/
  | kfill (d : BitVec 3) (h : BitVec 2)
  /-- KCOUNT (R119): Counts set active mask bits into xD. -/
  | kcount (d : BitVec 5) (a : BitVec 3) (k : BitVec 3) (h : BitVec 2)
  /-- KLOWEST (R119): Writes the lowest active set mask bit index to xD. -/
  | klowest (d : BitVec 5) (a : BitVec 3) (k : BitVec 3) (h : BitVec 2)
  /-- VSEL (R120): Selects per element between A and B by a mask. -/
  | vsel (d : BitVec 5) (a : BitVec 5) (b : BitVec 5) (k : BitVec 3) (h : BitVec 2)
  /-- VINDEX (R120): Writes each element's index. -/
  | vindex (d : BitVec 5) (k : BitVec 3) (h : BitVec 2)
  /-- VSHUP (R120): Shifts elements up by a scalar count. -/
  | vshup (d : BitVec 5) (a : BitVec 5) (b : BitVec 5) (k : BitVec 3) (h : BitVec 2)
  /-- VSHDN (R120): Shifts elements down by a scalar count. -/
  | vshdn (d : BitVec 5) (a : BitVec 5) (b : BitVec 5) (k : BitVec 3) (h : BitVec 2)
  /-- VPERM (R120): Permutes elements by an index vector modulo vl. -/
  | vperm (d : BitVec 5) (a : BitVec 5) (b : BitVec 5) (k : BitVec 3) (h : BitVec 2)
  /-- VPACK (R120): Packs active elements to the front. -/
  | vpack (d : BitVec 5) (a : BitVec 5) (k : BitVec 3) (h : BitVec 2)
  /-- VUNIQ (R121): Marks the first occurrence of each distinct active value. -/
  | vuniq (d : BitVec 3) (a : BitVec 5) (k : BitVec 3) (h : BitVec 2)
  /-- VGET (R120): Reads one element into a scalar register. -/
  | vget (d : BitVec 5) (a : BitVec 5) (b : BitVec 5) (h : BitVec 2)
  /-- VPUT (R120): Writes a scalar into one element. -/
  | vput (d : BitVec 5) (a : BitVec 5) (b : BitVec 5) (h : BitVec 2)
  /-- VREDSUM (R122): Integer sum reduction to a vector or scalar destination. -/
  | vredsum (d : BitVec 5) (a : BitVec 5) (k : BitVec 3) (h : BitVec 2) (t : BitVec 1)
  /-- VREDMIN (R122): Integer minimum reduction. -/
  | vredmin (d : BitVec 5) (a : BitVec 5) (k : BitVec 3) (h : BitVec 2) (t : BitVec 1)
  /-- VREDMAX (R122): Integer maximum reduction. -/
  | vredmax (d : BitVec 5) (a : BitVec 5) (k : BitVec 3) (h : BitVec 2) (t : BitVec 1)
  /-- VREDAND (R122): Integer AND reduction. -/
  | vredand (d : BitVec 5) (a : BitVec 5) (k : BitVec 3) (h : BitVec 2) (t : BitVec 1)
  /-- VREDOR (R122): Integer OR reduction. -/
  | vredor (d : BitVec 5) (a : BitVec 5) (k : BitVec 3) (h : BitVec 2) (t : BitVec 1)
  /-- VREDXOR (R122): Integer XOR reduction. -/
  | vredxor (d : BitVec 5) (a : BitVec 5) (k : BitVec 3) (h : BitVec 2) (t : BitVec 1)
  /-- VFREDSUM (R49): Floating sum reduction by the fixed pairwise tree. -/
  | vfredsum (d : BitVec 5) (a : BitVec 5) (k : BitVec 3) (h : BitVec 2) (t : BitVec 1)
  /-- VFREDSUMW (R122): Widening floating sum reduction into FP32. -/
  | vfredsumw (d : BitVec 5) (a : BitVec 5) (k : BitVec 3) (h : BitVec 2) (t : BitVec 1)
  /-- VFREDMIN (R122): Floating minimum reduction by the tree. -/
  | vfredmin (d : BitVec 5) (a : BitVec 5) (k : BitVec 3) (h : BitVec 2) (t : BitVec 1)
  /-- VFREDMAX (R122): Floating maximum reduction by the tree. -/
  | vfredmax (d : BitVec 5) (a : BitVec 5) (k : BitVec 3) (h : BitVec 2) (t : BitVec 1)
  /-- VFEXP2 (R52): Vector 2^x. -/
  | vfexp2 (d : BitVec 5) (a : BitVec 5) (k : BitVec 3) (h : BitVec 2)
  /-- VFLOG2 (R52): Vector log2 x. -/
  | vflog2 (d : BitVec 5) (a : BitVec 5) (k : BitVec 3) (h : BitVec 2)
  /-- VFRECIP (R52): Vector reciprocal. -/
  | vfrecip (d : BitVec 5) (a : BitVec 5) (k : BitVec 3) (h : BitVec 2)
  /-- VFRSQRT (R52): Vector reciprocal square root. -/
  | vfrsqrt (d : BitVec 5) (a : BitVec 5) (k : BitVec 3) (h : BitVec 2)
  /-- VFTANH (R52): Vector tanh. -/
  | vftanh (d : BitVec 5) (a : BitVec 5) (k : BitVec 3) (h : BitVec 2)
  /-- VFSIG (R52): Vector logistic sigmoid. -/
  | vfsig (d : BitVec 5) (a : BitVec 5) (k : BitVec 3) (h : BitVec 2)
  /-- VCVTSR (R126): Converts with stochastic rounding to the narrow format the FN field selects. -/
  | vcvtsr (d : BitVec 5) (a : BitVec 5) (b : BitVec 5) (k : BitVec 3) (h : BitVec 2) (f : BitVec 3)
  /-- VCVTMX (R127): Converts to MX blocks, choosing a scale per block. -/
  | vcvtmx (d : BitVec 5) (a : BitVec 5) (s : BitVec 1) (k : BitVec 3) (h : BitVec 2) (f : BitVec 3)
  /-- VCVT (R125): Converts each element to the format code in FN[4:0]. -/
  | vcvt (d : BitVec 5) (a : BitVec 5) (k : BitVec 3) (h : BitVec 2) (f : BitVec 5)
  /-- MMA (R136): Checks and enqueues a matrix multiply-accumulate into a tile. -/
  | mma (z : BitVec 4) (a : BitVec 5) (w : BitVec 2) (k : BitVec 7)
  /-- MMAMO (R137): Checks and enqueues a moment matrix multiply into a tile pair. -/
  | mmamo (z : BitVec 4) (a : BitVec 3) (w : BitVec 2) (k : BitVec 7)
  /-- ZCLR (R138): Enqueues clearing of a tile. -/
  | zclr (z : BitVec 4)
  /-- ZLD (R138): Enqueues a load of a tile image from memory. -/
  | zld (z : BitVec 4) (a : BitVec 5) (c : BitVec 4)
  /-- ZST (R138): Enqueues a store of a tile image to memory. -/
  | zst (z : BitVec 4) (a : BitVec 5) (c : BitVec 4)
  /-- ZMV (R138): Moves a tile row into a vector group with rounding. -/
  | zmv (z : BitVec 4) (a : BitVec 5) (w : BitVec 2) (r : BitVec 3)
  /-- ZMVT (R138): Writes a vector group into a tile row, widened exactly. -/
  | zmvt (z : BitVec 4) (a : BitVec 5) (w : BitVec 2) (r : BitVec 3)
  /-- WBLD (R140): Reads a weight descriptor and enqueues the fill of a weight slot. -/
  | wbld (a : BitVec 5) (w : BitVec 2)
  /-- MCOMMIT (R143): Enqueues an arrival on a barrier after all earlier MXQ entries. -/
  | mcommit (a : BitVec 5)
  /-- MOADD (R155): Moment add under the captured correlation. -/
  | moadd (d : BitVec 3) (a : BitVec 3) (b : BitVec 3) (k : BitVec 3) (h : BitVec 2)
  /-- MOSUB (R155): Moment subtract. -/
  | mosub (d : BitVec 3) (a : BitVec 3) (b : BitVec 3) (k : BitVec 3) (h : BitVec 2)
  /-- MOMUL (R155): Moment multiply. -/
  | momul (d : BitVec 3) (a : BitVec 3) (b : BitVec 3) (k : BitVec 3) (h : BitVec 2)
  /-- MOFMA (R155): Moment multiply then add into D. -/
  | mofma (d : BitVec 3) (a : BitVec 3) (b : BitVec 3) (k : BitVec 3) (h : BitVec 2)
  /-- MOSC (R155): Scales moments by a vector operand. -/
  | mosc (d : BitVec 3) (a : BitVec 3) (b : BitVec 5) (k : BitVec 3) (h : BitVec 2)
  /-- MOSC_X (R155): Scales moments by a scalar operand. -/
  | moscX (d : BitVec 3) (a : BitVec 3) (b : BitVec 5) (k : BitVec 3) (h : BitVec 2)
  /-- MOEXP (R156): Propagates moments through e^x. -/
  | moexp (d : BitVec 3) (a : BitVec 3) (k : BitVec 3) (h : BitVec 2)
  /-- MORELU (R157): Propagates moments through a rectifier. -/
  | morelu (d : BitVec 3) (a : BitVec 3) (k : BitVec 3) (h : BitVec 2)
  /-- MOSIG (R158): Propagates moments through the sigmoid by the probit rule. -/
  | mosig (d : BitVec 3) (a : BitVec 3) (k : BitVec 3) (h : BitVec 2)
  /-- MOTANH (R158): Propagates moments through tanh. -/
  | motanh (d : BitVec 3) (a : BitVec 3) (k : BitVec 3) (h : BitVec 2)
  /-- MOFROM (R159): Builds moment pairs from a mean group and a variance group. -/
  | mofrom (d : BitVec 3) (a : BitVec 5) (b : BitVec 5) (k : BitVec 3) (h : BitVec 2)
  /-- MOCOL_MEAN (R160): Collapses moments to their means. -/
  | mocolMean (d : BitVec 5) (a : BitVec 3) (k : BitVec 3) (h : BitVec 2)
  /-- MOCOL_VAR (R160): Collapses moments to their variances. -/
  | mocolVar (d : BitVec 5) (a : BitVec 3) (k : BitVec 3) (h : BitVec 2)
  /-- MOCOL_STD (R160): Collapses moments to their standard deviations. -/
  | mocolStd (d : BitVec 5) (a : BitVec 3) (k : BitVec 3) (h : BitVec 2)
  /-- MOCOL_UPPER (R160): Writes μ + kσ. -/
  | mocolUpper (d : BitVec 5) (a : BitVec 3) (b : BitVec 5) (k : BitVec 3) (h : BitVec 2)
  /-- MOCOL_LOWER (R160): Writes μ − kσ. -/
  | mocolLower (d : BitVec 5) (a : BitVec 3) (b : BitVec 5) (k : BitVec 3) (h : BitVec 2)
  /-- MOCOL_SAMPLE (R160): Writes μ + σz with z from a vector. -/
  | mocolSample (d : BitVec 5) (a : BitVec 3) (b : BitVec 5) (k : BitVec 3) (h : BitVec 2)
  /-- MOMV (R161): Copies moment pairs bit for bit. -/
  | momv (d : BitVec 3) (a : BitVec 3) (k : BitVec 3) (h : BitVec 2)
  /-- MOLD (R162): Loads moment pairs from memory. -/
  | mold (d : BitVec 3) (a : BitVec 5) (c : BitVec 4) (k : BitVec 3) (h : BitVec 2)
  /-- MOST (R162): Stores moment pairs to memory. -/
  | most (d : BitVec 3) (a : BitVec 5) (c : BitVec 4) (k : BitVec 3) (h : BitVec 2)
  /-- TGET (R227): Takes the slot's next READY task and loads its arguments. -/
  | tget (d : BitVec 5)
  /-- TLAUNCH (R230): Offers a TCB to the pending-launch pool, returning FULL if none is free. -/
  | tlaunch (d : BitVec 5) (a : BitVec 5)
  /-- TLAUNCH_W (R230): Offers a TCB, pre-empting the slot into a waiter cutting when the pool is full. -/
  | tlaunchW (d : BitVec 5) (a : BitVec 5)
  /-- GWAIT (R215): Waits until the thread's pending group arrival has completed. -/
  | gwait (g : BitVec 8)
  /-- GTEST (R215): Writes whether the group phase has completed. -/
  | gtest (d : BitVec 5) (g : BitVec 8)
  /-- RSTAT (R211): Returns the occupancy of a ring or queue port. -/
  | rstat (d : BitVec 5) (t : BitVec 1) (p : BitVec 2)
  /-- CPY (R270): Enqueues a stream copy in CPQ. -/
  | cpy (a : BitVec 5) (b : BitVec 5) (n : BitVec 1)
  /-- RGATH (R272): Enqueues a gather from listed addresses in GSQ. -/
  | rgath (a : BitVec 5) (b : BitVec 5) (n : BitVec 1)
  /-- RSCAT (R273): Enqueues a remote scatter in GSQ. -/
  | rscat (a : BitVec 5) (b : BitVec 5) (n : BitVec 1)
  /-- COLL (R275): Enqueues a collective in CLQ. -/
  | coll (a : BitVec 5) (b : BitVec 5) (n : BitVec 1)
  /-- PFXH (R308): Enqueues chained hashing of token blocks in PXQ. -/
  | pfxh (a : BitVec 5) (b : BitVec 5) (n : BitVec 1)
  /-- PFXLK (R309): Enqueues a longest-prefix lookup in PXQ. -/
  | pfxlk (a : BitVec 5) (b : BitVec 5) (n : BitVec 1)
  /-- PFXINS (R310): Enqueues a prefix-table insertion in PXQ. -/
  | pfxins (a : BitVec 5) (b : BitVec 5) (n : BitVec 1)
  /-- PFXUNPIN (R311): Enqueues pin decrements in PXQ. -/
  | pfxunpin (a : BitVec 5) (b : BitVec 5) (n : BitVec 1)
  /-- BINIT (R281): Initialises a stage barrier with an arrival count. -/
  | binit (a : BitVec 5) (b : BitVec 5)
  /-- BEXPECT (R281): Adds expected bytes to a barrier. -/
  | bexpect (a : BitVec 5) (b : BitVec 5)
  /-- BARRIVE (R281): Issues an arrival on a barrier. -/
  | barrive (a : BitVec 5)
  /-- BEXPARR (R281): Adds expected bytes and arrives as one update. -/
  | bexparr (a : BitVec 5) (b : BitVec 5)
  /-- BWAIT (R283): Waits until a barrier phase is done and returns its status. -/
  | bwait (d : BitVec 5) (a : BitVec 5) (b : BitVec 5)
  /-- BTEST (R283): Returns a barrier's status without waiting. -/
  | btest (d : BitVec 5) (a : BitVec 5) (b : BitVec 5)
  /-- SUSP (R338): Joins a collective suspension of group g into a cutting. -/
  | susp (d : BitVec 5) (a : BitVec 5) (b : BitVec 5) (g : BitVec 8)
  /-- MFS (R93): Reads a state register into xD. -/
  | mfs (d : BitVec 5) (s : BitVec 12)
  /-- MTS (R93): Writes xA to a state register. -/
  | mts (a : BitVec 5) (s : BitVec 12)
  /-- SYS (R325): Raises SYSCALL with the given code. -/
  | sys (c : BitVec 12)
  /-- BRK (R325): Raises BREAKPOINT. -/
  | brk (c : BitVec 12)
  /-- RESM (R347): Checks and claims a sealed cutting and admits a resumed launch. -/
  | resm (d : BitVec 5) (a : BitVec 5) (b : BitVec 5)
  /-- CDISC (R349): Marks a sealed or incomplete cutting DISCARDED. -/
  | cdisc (d : BitVec 5) (a : BitVec 5)
  /-- RET (R88): Jumps to lk and pops the return stack into lk. -/
  | ret
  /-- TDONE (R228): Finishes the thread's task and leaves the launch. -/
  | tdone
  /-- TDONE_C (R228): Finishes the thread's task and continues. -/
  | tdoneC
  /-- ERET (R326): Returns from a handler to TPC and clears TSTAT.INH. -/
  | eret
  /-- YIELD (R327): Makes the role not ready for 16 cycles. -/
  | yield
  /-- NOP (R94): Changes nothing but PC. -/
  | nop
  /-- YIELD_WAIT_END (R327): The 16-cycle not-ready period after a yield ends. -/
  | yieldWaitEnd
  /-- STORE_PERFORM (R263): A store, atomic write or scatter-add update is performed at its home. -/
  | storePerform
  /-- WPOLL_TIMEOUT (R256): A wpoll reaches its 2^20-cycle limit and returns the unchanged value. -/
  | wpollTimeout
  /-- WPOLL_REMOTE_REREAD (R377): A wpoll on a remote address re-reads the doubleword every microsecond. -/
  | wpollRemoteReread
  /-- FENCE_ARR_ARRIVAL (R214): A group arrival takes effect once earlier stores are visible at its scope. -/
  | fenceArrArrival
  /-- BARRIVE_EFFECT (R281): A barrive or bexparr takes effect once earlier stores are performed at slot scope. -/
  | barriveEffect
  /-- MMA_EXECUTE (R136): The array performs a queued mma with checksum checking. -/
  | mmaExecute
  /-- MMAMO_EXECUTE (R137): The array performs a queued moment matrix multiply. -/
  | mmamoExecute
  /-- ZCLR_EXECUTE (R138): A queued zclr clears a tile and its poison mark. -/
  | zclrExecute
  /-- ZLD_EXECUTE (R138): A queued zld loads a tile image. -/
  | zldExecute
  /-- ZST_EXECUTE (R138): A queued zst stores a tile image. -/
  | zstExecute
  /-- WB_FILL (R140): A queued weight-slot fill reads the block and arrives on its barrier. -/
  | wbFill
  /-- MCOMMIT_ARRIVAL (R143): After earlier MXQ entries finish, mcommit arrives on its barrier with any error. -/
  | mcommitArrival
  /-- CPY_EXECUTE (R270): The copy engine runs a queued copy. -/
  | cpyExecute
  /-- RGATH_EXECUTE (R272): The gather engine runs a queued gather. -/
  | rgathExecute
  /-- RSCAT_EXECUTE (R273): The engine translates and sends scatter trains. -/
  | rscatExecute
  /-- COLL_EXECUTE (R277): The collective engine performs a queued collective with its members. -/
  | collExecute
  /-- PFXH_EXECUTE (R308): The prefix engine hashes token blocks. -/
  | pfxhExecute
  /-- PFXLK_EXECUTE (R309): The prefix engine looks up and pins the longest matching run. -/
  | pfxlkExecute
  /-- PFXINS_EXECUTE (R310): The prefix engine inserts keys, evicting unpinned entries. -/
  | pfxinsExecute
  /-- PFXUNPIN_EXECUTE (R311): The prefix engine decrements pins. -/
  | pfxunpinExecute
  /-- ENGINE_ENTRY_COMPLETE (R269): An engine entry's writes are performed and its barrier is updated. -/
  | engineEntryComplete
  /-- REMOTE_TIMEOUT (R274): A GSQ or CLQ entry waits 2^28 cycles and stops with REMOTE_TIMEOUT. -/
  | remoteTimeout
  /-- VECTOR_REPLAY (R358): An uncorrectable error consumed in the vector unit squashes and reissues unretired words. -/
  | vectorReplay
  /-- SCRUB_PASS (R360): The scrubber reads pool and weight-buffer words, correcting or poisoning. -/
  | scrubPass
  /-- FRAME_RETIRE_START (R367): A frame at THRESH takes a spare and enters COPYING. -/
  | frameRetireStart
  /-- COPY_PASS_END (R367): A retirement copy pass ends, starting another pass or SWITCH. -/
  | copyPassEnd
  /-- RETIRE_SWITCH_DONE (R367): The remap is installed and held accesses are released to the new frame. -/
  | retireSwitchDone
  /-- QCFG_WRITE (R217): Host write of QCFG; enabling resets the queue's indices and error. -/
  | qcfgWrite
  /-- QNOTIFY_WRITE (R220): Host write of the notify index that makes packets consumable. -/
  | qnotifyWrite
  /-- PACKET_CONSUME (R220): The dispatcher reads, checks and consumes the next valid packet. -/
  | packetConsume
  /-- PACKET_START (R219): A KERNEL or GRAPH packet starts and creates its launches. -/
  | packetStart
  /-- BARRIER_PACKET_COMPLETE (R219): A BARRIER packet completes once earlier packets and its signal condition are met. -/
  | barrierPacketComplete
  /-- SIGNAL_PACKET (R219): A SIGNAL packet subtracts from a signal and completes. -/
  | signalPacket
  /-- LAUNCH_ADMIT (R224): The dispatcher admits and checks a launch. -/
  | launchAdmit
  /-- PLACE_LAUNCH (R232): The dispatcher places a READY launch on free slots and starts its threads. -/
  | placeLaunch
  /-- TASK_FINISH (R228): A tdone or tdone.c takes effect once earlier stores and commands are visible. -/
  | taskFinish
  /-- DEADLINE_MISS (R234): DEVTIME reaches a launch's deadline; it is marked MISSED and demoted or aborted. -/
  | deadlineMiss
  /-- TLBI_PAGE (R249): Invalidates the data translation of one page. -/
  | tlbiPage
  /-- TLBI_DATA_CTX (R249): Invalidates all data translations of a context. -/
  | tlbiDataCtx
  /-- TLBI_INSTR_CTX (R249): Invalidates instruction translations and L1I lines of a context. -/
  | tlbiInstrCtx
  /-- TLBI_ALL (R249): Invalidates everything of every context. -/
  | tlbiAll
  /-- TLBI_ACK (R249): An invalidation command is acknowledged and BUSY clears. -/
  | tlbiAck
  /-- LPART_WRITE (R201): Host write of a core's lane mode, effective only when no thread is held. -/
  | lpartWrite
  /-- MAXVL_WRITE (R394): Host write of a slot's MAXVL, rounded to a power of two and applied at the next setvl. -/
  | maxvlWrite
  /-- SLOT_RESUME (R322): RESUME makes a stopped or stalled slot with a posted record run again. -/
  | slotResume
  /-- SLOT_PREEMPT (R351): PREEMPT starts saving a slot as a system cutting. -/
  | slotPreempt
  /-- SLOT_END (R322): END stops and ends the launch holding the slot. -/
  | slotEnd
  /-- PREEMPT_SAVE (R351): After draining, the save sequencer writes and seals a system cutting. -/
  | preemptSave
  /-- SAVE_ABANDON (R354): A stalled or faulting save is abandoned and the context reported LOST. -/
  | saveAbandon
  /-- SYSTEM_CUTTING_RESUME (R353): The dispatcher claims and re-places a system cutting when its condition is met. -/
  | systemCuttingResume
  /-- SUSP_SECTION_WRITE (R338): A drained member slot writes its section of the cutting. -/
  | suspSectionWrite
  /-- WATCHDOG_EXPIRE (R336): A slot with no retirement for 2^LOG cycles is pre-empted with a WATCHDOG record. -/
  | watchdogExpire
  /-- DBG_HALT_WRITE (R334): Host write of DBGCTL.HALT halting or releasing one thread. -/
  | dbgHaltWrite
  /-- THREAD_HALTED (R334): A halting thread's queued entries complete and HALTED becomes 1. -/
  | threadHalted
  /-- DBGDATA_READ (R333): Host read of the selected register through the debug window. -/
  | dbgdataRead
  /-- DBGDATA_WRITE (R333): Host write of the selected register through the debug window. -/
  | dbgdataWrite
  /-- FQCFG_WRITE (R319): Host write of FQCFG; enabling resets the fault-queue indices. -/
  | fqcfgWrite
  /-- FAULT_RECORD_POST (R321): A slot posts its held fault record when the ring has room. -/
  | faultRecordPost
  /-- MEXT_GO (R393): Extends a measurement register with a digest. -/
  | mextGo
  /-- REGISTER_WRITE (R391): Host write of any MMIO register without a row of its own. -/
  | registerWrite
  /-- CXL_MEM_READ (R390): A host CXL.mem read of device memory, performed at the home slice. -/
  | cxlMemRead
  /-- CXL_MEM_WRITE (R390): A host CXL.mem write of device memory, performed at the home slice. -/
  | cxlMemWrite
  /-- LINK_MODULE_FAIL (R389): A UCIe module fails training and the link runs on one module. -/
  | linkModuleFail
  /-- FLIT_RECEIVE (R375): A link flit arrives; a CRC failure is resent up to eight times. -/
  | flitReceive
  /-- REMOTE_REQUEST_RECEIVE (R380): A home receives a remote request and applies it at most once. -/
  | remoteRequestReceive
  /-- TRAIN_SEGMENT_RECEIVE (R380): A receiver applies a scatter train segment once and in order. -/
  | trainSegmentReceive
  /-- REMOTE_ACK_RECEIVE (R378): A source receives an acknowledgement or response to a remote request. -/
  | remoteAckReceive
  /-- REMOTE_RETRY_TIMEOUT (R379): A request unacknowledged after FAB_RTO is resent or its plane reported suspect. -/
  | remoteRetryTimeout
  /-- RESPONSE_CACHE_EXPIRE (R380): A cached atomic response is released after acknowledgement and 64 ms. -/
  | responseCacheExpire
  /-- SWITCH_FATAL_ERROR (R385): A plane switch reports a fatal error and the plane is declared dead. -/
  | switchFatalError
  /-- PLANE_PROBE_RESULT (R385): The fabric manager's probe of a suspect plane ends. -/
  | planeProbeResult
  /-- QUIESCE (R386): An agent receives QUIESCE and stops sending covered requests. -/
  | quiesce
  /-- DRAINED (R386): An agent's fence markers return on every surviving plane and it reports DRAINED. -/
  | drained
  /-- PMAP_INSTALL (R386): A device installs a new plane map generation. -/
  | pmapInstall
  /-- RELEASE (R386): An agent receives RELEASE and sends held requests under the new map. -/
  | release
  /-- REHASH_DRAIN_TIMEOUT (R387): An agent fails to report DRAINED within 12 ms and is declared dead. -/
  | rehashDrainTimeout
  /-- FM_STANDBY_TAKEOVER (R387): The standby fabric manager repeats a stopped rehash. -/
  | fmStandbyTakeover
  /-- DEVICE_START (R397): A cold, warm or recovery start measures and configures the device. -/
  | deviceStart
  /-- START_TIMEOUT (R398): A start without READY within 30 s counts a failure and resets. -/
  | startTimeout
  /-- CURRENT_TRIP (R401): Package current above the trip limit drops every island to 1.5 GHz. -/
  | currentTrip
  /-- THERMAL_THROTTLE (R401): A junction at 105 °C lowers its island's clock. -/
  | thermalThrottle
  /-- THERMAL_SHUTDOWN (R401): 115 °C or lost coolant stops every slot and powers down the cores. -/
  | thermalShutdown
  /-- GET_VERSION (R399): SPDM request answered with supported versions. -/
  | getVersion
  /-- GET_CAPABILITIES (R399): SPDM request answered with capabilities. -/
  | getCapabilities
  /-- NEGOTIATE_ALGORITHMS (R399): SPDM algorithm negotiation. -/
  | negotiateAlgorithms
  /-- GET_DIGESTS (R399): SPDM request for certificate chain digests. -/
  | getDigests
  /-- GET_CERTIFICATE (R399): SPDM request for the certificate chain. -/
  | getCertificate
  /-- CHALLENGE (R399): SPDM challenge signed with the identity key. -/
  | challenge
  /-- GET_MEASUREMENTS (R399): SPDM request for signed measurement blocks. -/
  | getMeasurements
  /-- MCTP_CONTROL (R400): An MCTP control message on the management port. -/
  | mctpControl
  /-- VENDOR_STATUS_READ (R400): The vendor message reading BOOT_STAT, temperatures and power. -/
  | vendorStatusRead
  /-- VECTOR_WORD_COMPLETE (R132): A queued vector, moment or zmv word starts in its pipe, after the scalar side has run ahead, and completes, merging flags, taking its traps and committing ring slots. -/
  | vectorWordComplete
  /-- ILLEGAL_INSTR (R58): A fetched word whose major is reserved, or whose FN, MOP, SEL or unused fields are not assigned, traps ILLEGAL_INSTR. -/
  | illegalInstr
  /-- FETCH_FAULT (R248): An instruction fetch fails with FETCH_TRANSLATION or FETCH_BOUND before any word is decoded. -/
  | fetchFault
  /-- SOFT_ERROR (R360): A soft error flips a stored bit in SRAM, a cache, a register store or device memory. -/
  | softError
  /-- PORT_UP (R375): A plane port completes lane training and PORT.UP becomes 1, which raises the fabric interrupt. -/
  | portUp
  /-- ISLAND_CLOCK_CHANGE (R401): An island changes its voltage and clock from its activity and hottest sensor, raising it again after a current trip or once it cools below 100 °C. -/
  | islandClockChange
  /-- CXL_CACHE_SNOOP (R246): The host sends a CXL.cache request on a host-window line that the device holds coherently, for a host write to that line. -/
  | cxlCacheSnoop
deriving DecidableEq, Repr

end Sys2Proof
end

