-- ==== Sys2Proof/WellFormed.lean ====
section
/-! DEFINITION. The operand values an encoding does not assign (R59, R82, R123, R254, R258): a word whose function field or
operand field holds one of them traps ILLEGAL_INSTR, so no well-formed instruction carries it. Steps without a word are not
encodings and carry no such limit. -/

namespace Sys2Proof

/-- The instruction holds only operand values that its encoding assigns. -/
def Instr.wf : Instr → Bool
  | .fadd _ _ _ f => f != 3
  | .fsub _ _ _ f => f != 3
  | .fmul _ _ _ f => f != 3
  | .fdiv _ _ _ f => f != 3
  | .fsqrt _ _ f => f != 3
  | .fmad _ _ _ f => f != 3
  | .feq _ _ _ f => f != 3
  | .flt _ _ _ f => f != 3
  | .fle _ _ _ f => f != 3
  | .funo _ _ _ f => f != 3
  | .ftoi _ _ f => f != 3
  | .ftou _ _ f => f != 3
  | .itof _ _ f => f != 3
  | .utof _ _ f => f != 3
  | .fcvs _ _ f => f != 3
  | .fcvh _ _ f => f != 3
  | .fcvb _ _ f => f != 3
  | .aadd _ _ _ s _ _ => s != 7
  | .amin _ _ _ s _ _ => s != 7
  | .amax _ _ _ s _ _ => s != 7
  | .aand _ _ _ s _ _ => s != 7
  | .aor _ _ _ s _ _ => s != 7
  | .axor _ _ _ s _ _ => s != 7
  | .aswap _ _ _ s _ _ => s != 7
  | .acas _ _ _ s _ _ => s != 7
  | .afadd _ _ _ s _ _ => s != 7
  | .fence _ s _ => decide (s.toNat ≤ 9)
  | .fenceQ q => q != 0
  | .fenceArr s _ => decide (s.toNat ≤ 8)
  | .wpoll _ _ s => decide (s.toNat ≤ 8)
  | .fenceAcq _ s _ => decide (s.toNat ≤ 9)
  | .fenceRel _ s _ => decide (s.toNat ≤ 9)
  | .vcvtsr _ _ _ _ _ f => f != 7
  | .vcvtmx _ _ _ _ _ f => decide (f.toNat ≤ 5)
  | .vcvt _ _ _ _ f => decide (1 ≤ f.toNat) && decide (f.toNat ≤ 19)
  | _ => true

/-- The row has an instruction word; the others are steps of an engine, the dispatcher, the host, a link or the board. -/
def Instr.hasWord : Instr → Bool
  | .yieldWaitEnd => false
  | .storePerform => false
  | .wpollTimeout => false
  | .wpollRemoteReread => false
  | .fenceArrArrival => false
  | .barriveEffect => false
  | .mmaExecute => false
  | .mmamoExecute => false
  | .zclrExecute => false
  | .zldExecute => false
  | .zstExecute => false
  | .wbFill => false
  | .mcommitArrival => false
  | .cpyExecute => false
  | .rgathExecute => false
  | .rscatExecute => false
  | .collExecute => false
  | .pfxhExecute => false
  | .pfxlkExecute => false
  | .pfxinsExecute => false
  | .pfxunpinExecute => false
  | .engineEntryComplete => false
  | .remoteTimeout => false
  | .vectorReplay => false
  | .scrubPass => false
  | .frameRetireStart => false
  | .copyPassEnd => false
  | .retireSwitchDone => false
  | .qcfgWrite => false
  | .qnotifyWrite => false
  | .packetConsume => false
  | .packetStart => false
  | .barrierPacketComplete => false
  | .signalPacket => false
  | .launchAdmit => false
  | .placeLaunch => false
  | .taskFinish => false
  | .deadlineMiss => false
  | .tlbiPage => false
  | .tlbiDataCtx => false
  | .tlbiInstrCtx => false
  | .tlbiAll => false
  | .tlbiAck => false
  | .lpartWrite => false
  | .maxvlWrite => false
  | .slotResume => false
  | .slotPreempt => false
  | .slotEnd => false
  | .preemptSave => false
  | .saveAbandon => false
  | .systemCuttingResume => false
  | .suspSectionWrite => false
  | .watchdogExpire => false
  | .dbgHaltWrite => false
  | .threadHalted => false
  | .dbgdataRead => false
  | .dbgdataWrite => false
  | .fqcfgWrite => false
  | .faultRecordPost => false
  | .mextGo => false
  | .registerWrite => false
  | .cxlMemRead => false
  | .cxlMemWrite => false
  | .linkModuleFail => false
  | .flitReceive => false
  | .remoteRequestReceive => false
  | .trainSegmentReceive => false
  | .remoteAckReceive => false
  | .remoteRetryTimeout => false
  | .responseCacheExpire => false
  | .switchFatalError => false
  | .planeProbeResult => false
  | .quiesce => false
  | .drained => false
  | .pmapInstall => false
  | .release => false
  | .rehashDrainTimeout => false
  | .fmStandbyTakeover => false
  | .deviceStart => false
  | .startTimeout => false
  | .currentTrip => false
  | .thermalThrottle => false
  | .thermalShutdown => false
  | .getVersion => false
  | .getCapabilities => false
  | .negotiateAlgorithms => false
  | .getDigests => false
  | .getCertificate => false
  | .challenge => false
  | .getMeasurements => false
  | .mctpControl => false
  | .vendorStatusRead => false
  | .vectorWordComplete => false
  | .illegalInstr => false
  | .fetchFault => false
  | .softError => false
  | .portUp => false
  | .islandClockChange => false
  | .cxlCacheSnoop => false
  | _ => true

end Sys2Proof
end

