-- ==== Sys2Proof/Decode.lean ====
section
/-! DEFINITION. From a 32-bit word to an instruction and back (R54 to R63). The major opcode in bits [31:26] chooses a list of
patterns; a pattern fixes every bit of the word that is not an operand (R59: every bit is decoded and none is ignored), so a
reserved bit that is 1 fits no pattern. A word that fits none is rejected by name, and a word that fits one with an operand
value the encoding does not assign is rejected too.

The decoder is marked noncomputable for one reason only: Lean's compiled code has no tag for the last two constructors with operands
(Syntax.lean). It is a plain definition that the kernel evaluates. -/

namespace Sys2Proof

/-- Why a word is no instruction. -/
inductive Reject where
  /-- The major is 0x00, 0x0D to 0x0F, 0x17, 0x1F, 0x2F or 0x3F (R58). -/
  | reservedMajor
  /-- No function of the major has this word: an unassigned FN, MOP or SEL, or a reserved or unused bit that is 1 (R59). -/
  | unassigned
  /-- An operand field holds a value the encoding does not assign (R59). -/
  | badOperand
  /-- Fewer than four bytes were given. -/
  | tooShort
deriving DecidableEq, Repr

/-- Bits [lo+n-1 : lo] of a word. -/
def fld (w : BitVec 32) (lo n : Nat) : BitVec n := w.extractLsb' lo n

/-- A field put at bit lo of a word. -/
def put {n : Nat} (x : BitVec n) (lo : Nat) : BitVec 32 := (x.setWidth 32) <<< lo

/-- The word agrees with the fixed bits of a pattern. -/
def fits (w mask pat : BitVec 32) : Bool := w &&& mask == pat

/-- The instructions of major 0x01. -/
def decode01 (w : BitVec 32) : Option Instr :=
  if fits w 0xFC0007FF 0x04000000 then some (.add (fld w 21 5) (fld w 16 5) (fld w 11 5)) else
  if fits w 0xFC0007FF 0x04000001 then some (.sub (fld w 21 5) (fld w 16 5) (fld w 11 5)) else
  if fits w 0xFC0007FF 0x04000002 then some (.and (fld w 21 5) (fld w 16 5) (fld w 11 5)) else
  if fits w 0xFC0007FF 0x04000003 then some (.or (fld w 21 5) (fld w 16 5) (fld w 11 5)) else
  if fits w 0xFC0007FF 0x04000004 then some (.xor (fld w 21 5) (fld w 16 5) (fld w 11 5)) else
  if fits w 0xFC0007FF 0x04000005 then some (.sll (fld w 21 5) (fld w 16 5) (fld w 11 5)) else
  if fits w 0xFC0007FF 0x04000006 then some (.srl (fld w 21 5) (fld w 16 5) (fld w 11 5)) else
  if fits w 0xFC0007FF 0x04000007 then some (.sra (fld w 21 5) (fld w 16 5) (fld w 11 5)) else
  if fits w 0xFC0007FF 0x04000008 then some (.slt (fld w 21 5) (fld w 16 5) (fld w 11 5)) else
  if fits w 0xFC0007FF 0x04000009 then some (.sltu (fld w 21 5) (fld w 16 5) (fld w 11 5)) else
  if fits w 0xFC0007FF 0x0400000A then some (.min (fld w 21 5) (fld w 16 5) (fld w 11 5)) else
  if fits w 0xFC0007FF 0x0400000B then some (.max (fld w 21 5) (fld w 16 5) (fld w 11 5)) else
  if fits w 0xFC0007FF 0x0400000C then some (.minu (fld w 21 5) (fld w 16 5) (fld w 11 5)) else
  if fits w 0xFC0007FF 0x0400000D then some (.maxu (fld w 21 5) (fld w 16 5) (fld w 11 5)) else
  if fits w 0xFC00FFFF 0x0400000E then some (.clz (fld w 21 5) (fld w 16 5)) else
  if fits w 0xFC00FFFF 0x0400000F then some (.ctz (fld w 21 5) (fld w 16 5)) else
  if fits w 0xFC00FFFF 0x04000010 then some (.popc (fld w 21 5) (fld w 16 5)) else
  if fits w 0xFC00FFFF 0x04000011 then some (.sextb (fld w 21 5) (fld w 16 5)) else
  if fits w 0xFC00FFFF 0x04000012 then some (.sexth (fld w 21 5) (fld w 16 5)) else
  if fits w 0xFC00FFFF 0x04000013 then some (.sextw (fld w 21 5) (fld w 16 5)) else
  none

/-- The instructions of major 0x02. -/
def decode02 (w : BitVec 32) : Option Instr :=
  if fits w 0xFC0007FF 0x08000000 then some (.mul (fld w 21 5) (fld w 16 5) (fld w 11 5)) else
  if fits w 0xFC0007FF 0x08000001 then some (.mulhs (fld w 21 5) (fld w 16 5) (fld w 11 5)) else
  if fits w 0xFC0007FF 0x08000002 then some (.mulhu (fld w 21 5) (fld w 16 5) (fld w 11 5)) else
  if fits w 0xFC0007FF 0x08000003 then some (.mulhx (fld w 21 5) (fld w 16 5) (fld w 11 5)) else
  if fits w 0xFC0007FF 0x08000004 then some (.div (fld w 21 5) (fld w 16 5) (fld w 11 5)) else
  if fits w 0xFC0007FF 0x08000005 then some (.divu (fld w 21 5) (fld w 16 5) (fld w 11 5)) else
  if fits w 0xFC0007FF 0x08000006 then some (.rem (fld w 21 5) (fld w 16 5) (fld w 11 5)) else
  if fits w 0xFC0007FF 0x08000007 then some (.remu (fld w 21 5) (fld w 16 5) (fld w 11 5)) else
  none

/-- The instructions of major 0x03. -/
def decode03 (w : BitVec 32) : Option Instr :=
  if fits w 0xFC0007CF 0x0C000000 then some (.fadd (fld w 21 5) (fld w 16 5) (fld w 11 5) (fld w 4 2)) else
  if fits w 0xFC0007CF 0x0C000001 then some (.fsub (fld w 21 5) (fld w 16 5) (fld w 11 5) (fld w 4 2)) else
  if fits w 0xFC0007CF 0x0C000002 then some (.fmul (fld w 21 5) (fld w 16 5) (fld w 11 5) (fld w 4 2)) else
  if fits w 0xFC0007CF 0x0C000003 then some (.fdiv (fld w 21 5) (fld w 16 5) (fld w 11 5) (fld w 4 2)) else
  if fits w 0xFC00FFCF 0x0C000004 then some (.fsqrt (fld w 21 5) (fld w 16 5) (fld w 4 2)) else
  if fits w 0xFC0007CF 0x0C000005 then some (.fmad (fld w 21 5) (fld w 16 5) (fld w 11 5) (fld w 4 2)) else
  if fits w 0xFC0007CF 0x0C000006 then some (.feq (fld w 21 5) (fld w 16 5) (fld w 11 5) (fld w 4 2)) else
  if fits w 0xFC0007CF 0x0C000046 then some (.flt (fld w 21 5) (fld w 16 5) (fld w 11 5) (fld w 4 2)) else
  if fits w 0xFC0007CF 0x0C000086 then some (.fle (fld w 21 5) (fld w 16 5) (fld w 11 5) (fld w 4 2)) else
  if fits w 0xFC0007CF 0x0C0000C6 then some (.funo (fld w 21 5) (fld w 16 5) (fld w 11 5) (fld w 4 2)) else
  if fits w 0xFC00FFCF 0x0C000007 then some (.ftoi (fld w 21 5) (fld w 16 5) (fld w 4 2)) else
  if fits w 0xFC00FFCF 0x0C000047 then some (.ftou (fld w 21 5) (fld w 16 5) (fld w 4 2)) else
  if fits w 0xFC00FFCF 0x0C000087 then some (.itof (fld w 21 5) (fld w 16 5) (fld w 4 2)) else
  if fits w 0xFC00FFCF 0x0C0000C7 then some (.utof (fld w 21 5) (fld w 16 5) (fld w 4 2)) else
  if fits w 0xFC00FFCF 0x0C000107 then some (.fcvs (fld w 21 5) (fld w 16 5) (fld w 4 2)) else
  if fits w 0xFC00FFCF 0x0C000147 then some (.fcvh (fld w 21 5) (fld w 16 5) (fld w 4 2)) else
  if fits w 0xFC00FFCF 0x0C000187 then some (.fcvb (fld w 21 5) (fld w 16 5) (fld w 4 2)) else
  none

/-- The instructions of major 0x04. -/
def decode04 (w : BitVec 32) : Option Instr :=
  if fits w 0xFC000000 0x10000000 then some (.addi (fld w 21 5) (fld w 16 5) (fld w 0 16)) else
  none

/-- The instructions of major 0x05. -/
def decode05 (w : BitVec 32) : Option Instr :=
  if fits w 0xFC000000 0x14000000 then some (.andi (fld w 21 5) (fld w 16 5) (fld w 0 16)) else
  none

/-- The instructions of major 0x06. -/
def decode06 (w : BitVec 32) : Option Instr :=
  if fits w 0xFC000000 0x18000000 then some (.ori (fld w 21 5) (fld w 16 5) (fld w 0 16)) else
  none

/-- The instructions of major 0x07. -/
def decode07 (w : BitVec 32) : Option Instr :=
  if fits w 0xFC000000 0x1C000000 then some (.xori (fld w 21 5) (fld w 16 5) (fld w 0 16)) else
  none

/-- The instructions of major 0x08. -/
def decode08 (w : BitVec 32) : Option Instr :=
  if fits w 0xFC000000 0x20000000 then some (.slti (fld w 21 5) (fld w 16 5) (fld w 0 16)) else
  none

/-- The instructions of major 0x09. -/
def decode09 (w : BitVec 32) : Option Instr :=
  if fits w 0xFC000000 0x24000000 then some (.sltiu (fld w 21 5) (fld w 16 5) (fld w 0 16)) else
  none

/-- The instructions of major 0x0A. -/
def decode0A (w : BitVec 32) : Option Instr :=
  if fits w 0xFC1C0000 0x28000000 then some (.lim (fld w 21 5) (fld w 16 2) (fld w 0 16)) else
  none

/-- The instructions of major 0x0B. -/
def decode0B (w : BitVec 32) : Option Instr :=
  if fits w 0xFC1F0000 0x2C000000 then some (.pcadd (fld w 21 5) (fld w 0 16)) else
  none

/-- The instructions of major 0x0C. -/
def decode0C (w : BitVec 32) : Option Instr :=
  if fits w 0xFC00FFC0 0x30000000 then some (.slli (fld w 21 5) (fld w 16 5) (fld w 0 6)) else
  if fits w 0xFC00FFC0 0x30000100 then some (.srli (fld w 21 5) (fld w 16 5) (fld w 0 6)) else
  if fits w 0xFC00FFC0 0x30000200 then some (.srai (fld w 21 5) (fld w 16 5) (fld w 0 6)) else
  if fits w 0xFC00FFC0 0x30000300 then some (.rori (fld w 21 5) (fld w 16 5) (fld w 0 6)) else
  none

/-- The instructions of major 0x10. -/
def decode10 (w : BitVec 32) : Option Instr :=
  if fits w 0xFC000000 0x40000000 then some (.ldb (fld w 21 5) (fld w 16 5) (fld w 12 4) (fld w 0 12)) else
  none

/-- The instructions of major 0x11. -/
def decode11 (w : BitVec 32) : Option Instr :=
  if fits w 0xFC000000 0x44000000 then some (.ldbu (fld w 21 5) (fld w 16 5) (fld w 12 4) (fld w 0 12)) else
  none

/-- The instructions of major 0x12. -/
def decode12 (w : BitVec 32) : Option Instr :=
  if fits w 0xFC000000 0x48000000 then some (.ldh (fld w 21 5) (fld w 16 5) (fld w 12 4) (fld w 0 12)) else
  none

/-- The instructions of major 0x13. -/
def decode13 (w : BitVec 32) : Option Instr :=
  if fits w 0xFC000000 0x4C000000 then some (.ldhu (fld w 21 5) (fld w 16 5) (fld w 12 4) (fld w 0 12)) else
  none

/-- The instructions of major 0x14. -/
def decode14 (w : BitVec 32) : Option Instr :=
  if fits w 0xFC000000 0x50000000 then some (.ldw (fld w 21 5) (fld w 16 5) (fld w 12 4) (fld w 0 12)) else
  none

/-- The instructions of major 0x15. -/
def decode15 (w : BitVec 32) : Option Instr :=
  if fits w 0xFC000000 0x54000000 then some (.ldwu (fld w 21 5) (fld w 16 5) (fld w 12 4) (fld w 0 12)) else
  none

/-- The instructions of major 0x16. -/
def decode16 (w : BitVec 32) : Option Instr :=
  if fits w 0xFC000000 0x58000000 then some (.ldd (fld w 21 5) (fld w 16 5) (fld w 12 4) (fld w 0 12)) else
  none

/-- The instructions of major 0x18. -/
def decode18 (w : BitVec 32) : Option Instr :=
  if fits w 0xFC000000 0x60000000 then some (.stb (fld w 21 5) (fld w 16 5) (fld w 12 4) (fld w 0 12)) else
  none

/-- The instructions of major 0x19. -/
def decode19 (w : BitVec 32) : Option Instr :=
  if fits w 0xFC000000 0x64000000 then some (.sth (fld w 21 5) (fld w 16 5) (fld w 12 4) (fld w 0 12)) else
  none

/-- The instructions of major 0x1A. -/
def decode1A (w : BitVec 32) : Option Instr :=
  if fits w 0xFC000000 0x68000000 then some (.stw (fld w 21 5) (fld w 16 5) (fld w 12 4) (fld w 0 12)) else
  none

/-- The instructions of major 0x1B. -/
def decode1B (w : BitVec 32) : Option Instr :=
  if fits w 0xFC000000 0x6C000000 then some (.std (fld w 21 5) (fld w 16 5) (fld w 12 4) (fld w 0 12)) else
  none

/-- The instructions of major 0x1C. -/
def decode1C (w : BitVec 32) : Option Instr :=
  if fits w 0xFC000007 0x70000000 then some (.aadd (fld w 21 5) (fld w 16 5) (fld w 11 5) (fld w 8 3) (fld w 4 4) (fld w 3 1)) else
  if fits w 0xFC000007 0x70000001 then some (.amin (fld w 21 5) (fld w 16 5) (fld w 11 5) (fld w 8 3) (fld w 4 4) (fld w 3 1)) else
  if fits w 0xFC000007 0x70000002 then some (.amax (fld w 21 5) (fld w 16 5) (fld w 11 5) (fld w 8 3) (fld w 4 4) (fld w 3 1)) else
  if fits w 0xFC000007 0x70000003 then some (.aand (fld w 21 5) (fld w 16 5) (fld w 11 5) (fld w 8 3) (fld w 4 4) (fld w 3 1)) else
  if fits w 0xFC000007 0x70000004 then some (.aor (fld w 21 5) (fld w 16 5) (fld w 11 5) (fld w 8 3) (fld w 4 4) (fld w 3 1)) else
  if fits w 0xFC000007 0x70000005 then some (.axor (fld w 21 5) (fld w 16 5) (fld w 11 5) (fld w 8 3) (fld w 4 4) (fld w 3 1)) else
  if fits w 0xFC000007 0x70000006 then some (.aswap (fld w 21 5) (fld w 16 5) (fld w 11 5) (fld w 8 3) (fld w 4 4) (fld w 3 1)) else
  if fits w 0xFC000007 0x70000007 then some (.acas (fld w 21 5) (fld w 16 5) (fld w 11 5) (fld w 8 3) (fld w 4 4) (fld w 3 1)) else
  none

/-- The instructions of major 0x1D. -/
def decode1D (w : BitVec 32) : Option Instr :=
  if fits w 0xFC00000E 0x74000000 then some (.afadd (fld w 21 5) (fld w 16 5) (fld w 11 5) (fld w 8 3) (fld w 4 4) (fld w 0 1)) else
  none

/-- The instructions of major 0x1E. -/
def decode1E (w : BitVec 32) : Option Instr :=
  if fits w 0xFF00F000 0x78000000 then some (.fence (fld w 16 8) (fld w 8 4) (fld w 0 8)) else
  if fits w 0xFFFFFFE0 0x78001000 then some (.fenceQ (fld w 0 5)) else
  if fits w 0xFFFFF000 0x78002000 then some (.fenceArr (fld w 8 4) (fld w 0 8)) else
  if fits w 0xFC00F0FF 0x78003000 then some (.wpoll (fld w 21 5) (fld w 16 5) (fld w 8 4)) else
  if fits w 0xFF00F000 0x78004000 then some (.fenceAcq (fld w 16 8) (fld w 8 4) (fld w 0 8)) else
  if fits w 0xFF00F000 0x78005000 then some (.fenceRel (fld w 16 8) (fld w 8 4) (fld w 0 8)) else
  none

/-- The instructions of major 0x20. -/
def decode20 (w : BitVec 32) : Option Instr :=
  if fits w 0xFC000000 0x80000000 then some (.beq (fld w 21 5) (fld w 16 5) (fld w 0 16)) else
  none

/-- The instructions of major 0x21. -/
def decode21 (w : BitVec 32) : Option Instr :=
  if fits w 0xFC000000 0x84000000 then some (.bne (fld w 21 5) (fld w 16 5) (fld w 0 16)) else
  none

/-- The instructions of major 0x22. -/
def decode22 (w : BitVec 32) : Option Instr :=
  if fits w 0xFC000000 0x88000000 then some (.blt (fld w 21 5) (fld w 16 5) (fld w 0 16)) else
  none

/-- The instructions of major 0x23. -/
def decode23 (w : BitVec 32) : Option Instr :=
  if fits w 0xFC000000 0x8C000000 then some (.bge (fld w 21 5) (fld w 16 5) (fld w 0 16)) else
  none

/-- The instructions of major 0x24. -/
def decode24 (w : BitVec 32) : Option Instr :=
  if fits w 0xFC000000 0x90000000 then some (.bltu (fld w 21 5) (fld w 16 5) (fld w 0 16)) else
  none

/-- The instructions of major 0x25. -/
def decode25 (w : BitVec 32) : Option Instr :=
  if fits w 0xFC000000 0x94000000 then some (.bgeu (fld w 21 5) (fld w 16 5) (fld w 0 16)) else
  none

/-- The instructions of major 0x26. -/
def decode26 (w : BitVec 32) : Option Instr :=
  if fits w 0xFC000000 0x98000000 then some (.jmp (fld w 0 26)) else
  none

/-- The instructions of major 0x27. -/
def decode27 (w : BitVec 32) : Option Instr :=
  if fits w 0xFC000000 0x9C000000 then some (.call (fld w 0 26)) else
  none

/-- The instructions of major 0x28. -/
def decode28 (w : BitVec 32) : Option Instr :=
  if fits w 0xFFE0FFFF 0xA0000000 then some (.jr (fld w 16 5)) else
  if fits w 0xFFE0FFFF 0xA0000001 then some (.callr (fld w 16 5)) else
  if fits w 0xFFFFFFFF 0xA0000002 then some (.ret) else
  none

/-- The instructions of major 0x29. -/
def decode29 (w : BitVec 32) : Option Instr :=
  if fits w 0xFC000000 0xA4000000 then some (.sbr (fld w 21 5) (fld w 17 4) (fld w 9 8) (fld w 0 9)) else
  none

/-- The instructions of major 0x2A. -/
def decode2A (w : BitVec 32) : Option Instr :=
  if fits w 0xFF1F0000 0xA8000000 then some (.vbr (fld w 21 3) (fld w 0 16)) else
  if fits w 0xFFFF0000 0xA8010000 then some (.vjoin (fld w 0 16)) else
  if fits w 0xFF1F0000 0xA8020000 then some (.vbany (fld w 21 3) (fld w 0 16)) else
  if fits w 0xFF1F0000 0xA8030000 then some (.vball (fld w 21 3) (fld w 0 16)) else
  none

/-- The instructions of major 0x2B. -/
def decode2B (w : BitVec 32) : Option Instr :=
  if fits w 0xFFF8FFF0 0xAC000000 then some (.vloop (fld w 16 3) (fld w 0 4)) else
  none

/-- The instructions of major 0x2C. -/
def decode2C (w : BitVec 32) : Option Instr :=
  if fits w 0xFC00F000 0xB0000000 then some (.setvl (fld w 21 5) (fld w 16 5) (fld w 0 12)) else
  if fits w 0xFC00FFE0 0xB0001000 then some (.setvlr (fld w 21 5) (fld w 16 5) (fld w 0 5)) else
  if fits w 0xFFE0F0FC 0xB0002000 then some (.cbld (fld w 16 5) (fld w 8 4) (fld w 0 2)) else
  none

/-- The instructions of major 0x2D. -/
def decode2D (w : BitVec 32) : Option Instr :=
  if fits w 0xFC00000F 0xB4000000 then some (.vld (fld w 21 5) (fld w 16 5) (fld w 11 5) (fld w 8 3) (fld w 4 4)) else
  if fits w 0xFC00000F 0xB4000002 then some (.vlds (fld w 21 5) (fld w 16 5) (fld w 11 5) (fld w 8 3) (fld w 4 4)) else
  if fits w 0xFC00000F 0xB4000004 then some (.vldx (fld w 21 5) (fld w 16 5) (fld w 11 5) (fld w 8 3) (fld w 4 4)) else
  if fits w 0xFC00000F 0xB4000006 then some (.vldmx (fld w 21 5) (fld w 16 5) (fld w 11 5) (fld w 8 3) (fld w 4 4)) else
  if fits w 0xFC18F80F 0xB4000008 then some (.vsld (fld w 21 5) (fld w 16 3) (fld w 8 3) (fld w 4 4)) else
  if fits w 0xFF00FFFF 0xB400000A then some (.sdld (fld w 21 3) (fld w 16 5)) else
  none

/-- The instructions of major 0x2E. -/
def decode2E (w : BitVec 32) : Option Instr :=
  if fits w 0xFC00000F 0xB8000000 then some (.vst (fld w 21 5) (fld w 16 5) (fld w 11 5) (fld w 8 3) (fld w 4 4)) else
  if fits w 0xFC00000F 0xB8000002 then some (.vsts (fld w 21 5) (fld w 16 5) (fld w 11 5) (fld w 8 3) (fld w 4 4)) else
  if fits w 0xFC00000F 0xB8000004 then some (.vstx (fld w 21 5) (fld w 16 5) (fld w 11 5) (fld w 8 3) (fld w 4 4)) else
  if fits w 0xFC00000F 0xB8000006 then some (.vstmx (fld w 21 5) (fld w 16 5) (fld w 11 5) (fld w 8 3) (fld w 4 4)) else
  if fits w 0xFC18F80F 0xB8000008 then some (.vsst (fld w 21 5) (fld w 16 3) (fld w 8 3) (fld w 4 4)) else
  if fits w 0xFC00000F 0xB800000A then some (.vscataddDev (fld w 21 5) (fld w 16 5) (fld w 11 5) (fld w 8 3) (fld w 4 4)) else
  if fits w 0xFC00000F 0xB800000C then some (.vscataddHost (fld w 21 5) (fld w 16 5) (fld w 11 5) (fld w 8 3) (fld w 4 4)) else
  if fits w 0xFC00000F 0xB800000E then some (.vscataddSys (fld w 21 5) (fld w 16 5) (fld w 11 5) (fld w 8 3) (fld w 4 4)) else
  none

/-- The instructions of major 0x30 and 0x31. -/
def decode30 (w : BitVec 32) : Option Instr :=
  if fits w 0xF800003F 0xC0000000 then some (.vadd (fld w 26 1) (fld w 21 5) (fld w 16 5) (fld w 11 5) (fld w 8 3) (fld w 6 2)) else
  if fits w 0xF800003F 0xC0000001 then some (.vsub (fld w 26 1) (fld w 21 5) (fld w 16 5) (fld w 11 5) (fld w 8 3) (fld w 6 2)) else
  if fits w 0xF800003F 0xC0000002 then some (.vsubr (fld w 26 1) (fld w 21 5) (fld w 16 5) (fld w 11 5) (fld w 8 3) (fld w 6 2)) else
  if fits w 0xF800003F 0xC0000003 then some (.vmul (fld w 26 1) (fld w 21 5) (fld w 16 5) (fld w 11 5) (fld w 8 3) (fld w 6 2)) else
  if fits w 0xF800003F 0xC0000004 then some (.vmulhi (fld w 26 1) (fld w 21 5) (fld w 16 5) (fld w 11 5) (fld w 8 3) (fld w 6 2)) else
  if fits w 0xF800003F 0xC0000005 then some (.vdiv (fld w 26 1) (fld w 21 5) (fld w 16 5) (fld w 11 5) (fld w 8 3) (fld w 6 2)) else
  if fits w 0xF800003F 0xC0000006 then some (.vrem (fld w 26 1) (fld w 21 5) (fld w 16 5) (fld w 11 5) (fld w 8 3) (fld w 6 2)) else
  if fits w 0xF800003F 0xC0000007 then some (.vmin (fld w 26 1) (fld w 21 5) (fld w 16 5) (fld w 11 5) (fld w 8 3) (fld w 6 2)) else
  if fits w 0xF800003F 0xC0000008 then some (.vmax (fld w 26 1) (fld w 21 5) (fld w 16 5) (fld w 11 5) (fld w 8 3) (fld w 6 2)) else
  if fits w 0xF800003F 0xC0000009 then some (.vand (fld w 26 1) (fld w 21 5) (fld w 16 5) (fld w 11 5) (fld w 8 3) (fld w 6 2)) else
  if fits w 0xF800003F 0xC000000A then some (.vor (fld w 26 1) (fld w 21 5) (fld w 16 5) (fld w 11 5) (fld w 8 3) (fld w 6 2)) else
  if fits w 0xF800003F 0xC000000B then some (.vxor (fld w 26 1) (fld w 21 5) (fld w 16 5) (fld w 11 5) (fld w 8 3) (fld w 6 2)) else
  if fits w 0xF800003F 0xC000000C then some (.vshl (fld w 26 1) (fld w 21 5) (fld w 16 5) (fld w 11 5) (fld w 8 3) (fld w 6 2)) else
  if fits w 0xF800003F 0xC000000D then some (.vshr (fld w 26 1) (fld w 21 5) (fld w 16 5) (fld w 11 5) (fld w 8 3) (fld w 6 2)) else
  if fits w 0xF800003F 0xC000000E then some (.vaddsat (fld w 26 1) (fld w 21 5) (fld w 16 5) (fld w 11 5) (fld w 8 3) (fld w 6 2)) else
  if fits w 0xF800003F 0xC000000F then some (.vsubsat (fld w 26 1) (fld w 21 5) (fld w 16 5) (fld w 11 5) (fld w 8 3) (fld w 6 2)) else
  if fits w 0xF800003F 0xC0000010 then some (.vmad (fld w 26 1) (fld w 21 5) (fld w 16 5) (fld w 11 5) (fld w 8 3) (fld w 6 2)) else
  if fits w 0xF81F003F 0xC0000011 then some (.vcopy (fld w 26 1) (fld w 21 5) (fld w 11 5) (fld w 8 3) (fld w 6 2)) else
  none

/-- The instructions of major 0x32 and 0x33. -/
def decode32 (w : BitVec 32) : Option Instr :=
  if fits w 0xF800003F 0xC8000000 then some (.vfadd (fld w 26 1) (fld w 21 5) (fld w 16 5) (fld w 11 5) (fld w 8 3) (fld w 6 2)) else
  if fits w 0xF800003F 0xC8000001 then some (.vfsub (fld w 26 1) (fld w 21 5) (fld w 16 5) (fld w 11 5) (fld w 8 3) (fld w 6 2)) else
  if fits w 0xF800003F 0xC8000002 then some (.vfsubr (fld w 26 1) (fld w 21 5) (fld w 16 5) (fld w 11 5) (fld w 8 3) (fld w 6 2)) else
  if fits w 0xF800003F 0xC8000003 then some (.vfmul (fld w 26 1) (fld w 21 5) (fld w 16 5) (fld w 11 5) (fld w 8 3) (fld w 6 2)) else
  if fits w 0xF800003F 0xC8000004 then some (.vfdiv (fld w 26 1) (fld w 21 5) (fld w 16 5) (fld w 11 5) (fld w 8 3) (fld w 6 2)) else
  if fits w 0xFC00F83F 0xC8000005 then some (.vfsqrt (fld w 21 5) (fld w 16 5) (fld w 8 3) (fld w 6 2)) else
  if fits w 0xF800003F 0xC8000006 then some (.vfmin (fld w 26 1) (fld w 21 5) (fld w 16 5) (fld w 11 5) (fld w 8 3) (fld w 6 2)) else
  if fits w 0xF800003F 0xC8000007 then some (.vfmax (fld w 26 1) (fld w 21 5) (fld w 16 5) (fld w 11 5) (fld w 8 3) (fld w 6 2)) else
  if fits w 0xF800003F 0xC8000008 then some (.vfmad (fld w 26 1) (fld w 21 5) (fld w 16 5) (fld w 11 5) (fld w 8 3) (fld w 6 2)) else
  if fits w 0xF800003F 0xC8000009 then some (.vfmsb (fld w 26 1) (fld w 21 5) (fld w 16 5) (fld w 11 5) (fld w 8 3) (fld w 6 2)) else
  if fits w 0xFC00F83F 0xC800000A then some (.vfabs (fld w 21 5) (fld w 16 5) (fld w 8 3) (fld w 6 2)) else
  if fits w 0xFC00F83F 0xC800000B then some (.vfneg (fld w 21 5) (fld w 16 5) (fld w 8 3) (fld w 6 2)) else
  if fits w 0xF800003F 0xC800000C then some (.vfcsgn (fld w 26 1) (fld w 21 5) (fld w 16 5) (fld w 11 5) (fld w 8 3) (fld w 6 2)) else
  if fits w 0xF81F003F 0xC800000D then some (.vfcopy (fld w 26 1) (fld w 21 5) (fld w 11 5) (fld w 8 3) (fld w 6 2)) else
  none

/-- The instructions of major 0x34. -/
def decode34 (w : BitVec 32) : Option Instr :=
  if fits w 0xFF000037 0xD0000000 then some (.vcmpeq (fld w 21 3) (fld w 16 5) (fld w 11 5) (fld w 8 3) (fld w 6 2) (fld w 3 1)) else
  if fits w 0xFF000037 0xD0000001 then some (.vcmpne (fld w 21 3) (fld w 16 5) (fld w 11 5) (fld w 8 3) (fld w 6 2) (fld w 3 1)) else
  if fits w 0xFF000037 0xD0000002 then some (.vcmplt (fld w 21 3) (fld w 16 5) (fld w 11 5) (fld w 8 3) (fld w 6 2) (fld w 3 1)) else
  if fits w 0xFF000037 0xD0000003 then some (.vcmple (fld w 21 3) (fld w 16 5) (fld w 11 5) (fld w 8 3) (fld w 6 2) (fld w 3 1)) else
  if fits w 0xFF000037 0xD0000004 then some (.vcmpgt (fld w 21 3) (fld w 16 5) (fld w 11 5) (fld w 8 3) (fld w 6 2) (fld w 3 1)) else
  if fits w 0xFF000037 0xD0000005 then some (.vcmpge (fld w 21 3) (fld w 16 5) (fld w 11 5) (fld w 8 3) (fld w 6 2) (fld w 3 1)) else
  if fits w 0xFF18C73F 0xD0000010 then some (.kboth (fld w 21 3) (fld w 16 3) (fld w 11 3) (fld w 6 2)) else
  if fits w 0xFF18C73F 0xD0000011 then some (.keither (fld w 21 3) (fld w 16 3) (fld w 11 3) (fld w 6 2)) else
  if fits w 0xFF18C73F 0xD0000012 then some (.kdiffer (fld w 21 3) (fld w 16 3) (fld w 11 3) (fld w 6 2)) else
  if fits w 0xFF18C73F 0xD0000013 then some (.kbut (fld w 21 3) (fld w 16 3) (fld w 11 3) (fld w 6 2)) else
  if fits w 0xFF18FF3F 0xD0000014 then some (.kflip (fld w 21 3) (fld w 16 3) (fld w 6 2)) else
  if fits w 0xFF1FFF3F 0xD0000015 then some (.kfill (fld w 21 3) (fld w 6 2)) else
  if fits w 0xFC18F83F 0xD0000018 then some (.kcount (fld w 21 5) (fld w 16 3) (fld w 8 3) (fld w 6 2)) else
  if fits w 0xFC18F83F 0xD0000019 then some (.klowest (fld w 21 5) (fld w 16 3) (fld w 8 3) (fld w 6 2)) else
  none

/-- The instructions of major 0x35. -/
def decode35 (w : BitVec 32) : Option Instr :=
  if fits w 0xFC00003F 0xD4000000 then some (.vsel (fld w 21 5) (fld w 16 5) (fld w 11 5) (fld w 8 3) (fld w 6 2)) else
  if fits w 0xFC1FF83F 0xD4000001 then some (.vindex (fld w 21 5) (fld w 8 3) (fld w 6 2)) else
  if fits w 0xFC00003F 0xD4000002 then some (.vshup (fld w 21 5) (fld w 16 5) (fld w 11 5) (fld w 8 3) (fld w 6 2)) else
  if fits w 0xFC00003F 0xD4000003 then some (.vshdn (fld w 21 5) (fld w 16 5) (fld w 11 5) (fld w 8 3) (fld w 6 2)) else
  if fits w 0xFC00003F 0xD4000004 then some (.vperm (fld w 21 5) (fld w 16 5) (fld w 11 5) (fld w 8 3) (fld w 6 2)) else
  if fits w 0xFC00F83F 0xD4000005 then some (.vpack (fld w 21 5) (fld w 16 5) (fld w 8 3) (fld w 6 2)) else
  if fits w 0xFF00F83F 0xD4000006 then some (.vuniq (fld w 21 3) (fld w 16 5) (fld w 8 3) (fld w 6 2)) else
  if fits w 0xFC00073F 0xD4000007 then some (.vget (fld w 21 5) (fld w 16 5) (fld w 11 5) (fld w 6 2)) else
  if fits w 0xFC00073F 0xD4000008 then some (.vput (fld w 21 5) (fld w 16 5) (fld w 11 5) (fld w 6 2)) else
  none

/-- The instructions of major 0x36. -/
def decode36 (w : BitVec 32) : Option Instr :=
  if fits w 0xFC00F81F 0xD8000000 then some (.vredsum (fld w 21 5) (fld w 16 5) (fld w 8 3) (fld w 6 2) (fld w 5 1)) else
  if fits w 0xFC00F81F 0xD8000001 then some (.vredmin (fld w 21 5) (fld w 16 5) (fld w 8 3) (fld w 6 2) (fld w 5 1)) else
  if fits w 0xFC00F81F 0xD8000002 then some (.vredmax (fld w 21 5) (fld w 16 5) (fld w 8 3) (fld w 6 2) (fld w 5 1)) else
  if fits w 0xFC00F81F 0xD8000003 then some (.vredand (fld w 21 5) (fld w 16 5) (fld w 8 3) (fld w 6 2) (fld w 5 1)) else
  if fits w 0xFC00F81F 0xD8000004 then some (.vredor (fld w 21 5) (fld w 16 5) (fld w 8 3) (fld w 6 2) (fld w 5 1)) else
  if fits w 0xFC00F81F 0xD8000005 then some (.vredxor (fld w 21 5) (fld w 16 5) (fld w 8 3) (fld w 6 2) (fld w 5 1)) else
  if fits w 0xFC00F81F 0xD8000008 then some (.vfredsum (fld w 21 5) (fld w 16 5) (fld w 8 3) (fld w 6 2) (fld w 5 1)) else
  if fits w 0xFC00F81F 0xD8000009 then some (.vfredsumw (fld w 21 5) (fld w 16 5) (fld w 8 3) (fld w 6 2) (fld w 5 1)) else
  if fits w 0xFC00F81F 0xD800000A then some (.vfredmin (fld w 21 5) (fld w 16 5) (fld w 8 3) (fld w 6 2) (fld w 5 1)) else
  if fits w 0xFC00F81F 0xD800000B then some (.vfredmax (fld w 21 5) (fld w 16 5) (fld w 8 3) (fld w 6 2) (fld w 5 1)) else
  none

/-- The instructions of major 0x37. -/
def decode37 (w : BitVec 32) : Option Instr :=
  if fits w 0xFC00F83F 0xDC000000 then some (.vfexp2 (fld w 21 5) (fld w 16 5) (fld w 8 3) (fld w 6 2)) else
  if fits w 0xFC00F83F 0xDC000001 then some (.vflog2 (fld w 21 5) (fld w 16 5) (fld w 8 3) (fld w 6 2)) else
  if fits w 0xFC00F83F 0xDC000002 then some (.vfrecip (fld w 21 5) (fld w 16 5) (fld w 8 3) (fld w 6 2)) else
  if fits w 0xFC00F83F 0xDC000003 then some (.vfrsqrt (fld w 21 5) (fld w 16 5) (fld w 8 3) (fld w 6 2)) else
  if fits w 0xFC00F83F 0xDC000004 then some (.vftanh (fld w 21 5) (fld w 16 5) (fld w 8 3) (fld w 6 2)) else
  if fits w 0xFC00F83F 0xDC000005 then some (.vfsig (fld w 21 5) (fld w 16 5) (fld w 8 3) (fld w 6 2)) else
  if fits w 0xFC000038 0xDC000010 then some (.vcvtsr (fld w 21 5) (fld w 16 5) (fld w 11 5) (fld w 8 3) (fld w 6 2) (fld w 0 3)) else
  if fits w 0xFC00F038 0xDC000018 then some (.vcvtmx (fld w 21 5) (fld w 16 5) (fld w 11 1) (fld w 8 3) (fld w 6 2) (fld w 0 3)) else
  if fits w 0xFC00F820 0xDC000020 then some (.vcvt (fld w 21 5) (fld w 16 5) (fld w 8 3) (fld w 6 2) (fld w 0 5)) else
  none

/-- The instructions of major 0x38. -/
def decode38 (w : BitVec 32) : Option Instr :=
  if fits w 0xFC0000FF 0xE0000000 then some (.mma (fld w 22 4) (fld w 17 5) (fld w 15 2) (fld w 8 7)) else
  if fits w 0xFC3000FF 0xE0000001 then some (.mmamo (fld w 22 4) (fld w 17 3) (fld w 15 2) (fld w 8 7)) else
  if fits w 0xFC3FFFFF 0xE0000008 then some (.zclr (fld w 22 4)) else
  if fits w 0xFC01F0FF 0xE0000009 then some (.zld (fld w 22 4) (fld w 17 5) (fld w 8 4)) else
  if fits w 0xFC01F0FF 0xE000000A then some (.zst (fld w 22 4) (fld w 17 5) (fld w 8 4)) else
  if fits w 0xFC0078FF 0xE000000B then some (.zmv (fld w 22 4) (fld w 17 5) (fld w 15 2) (fld w 8 3)) else
  if fits w 0xFC0078FF 0xE000000C then some (.zmvt (fld w 22 4) (fld w 17 5) (fld w 15 2) (fld w 8 3)) else
  if fits w 0xFFC07FFF 0xE0000010 then some (.wbld (fld w 17 5) (fld w 15 2)) else
  if fits w 0xFFC1FFFF 0xE0000018 then some (.mcommit (fld w 17 5)) else
  none

/-- The instructions of major 0x39. -/
def decode39 (w : BitVec 32) : Option Instr :=
  if fits w 0xFF18C03F 0xE4000000 then some (.moadd (fld w 21 3) (fld w 16 3) (fld w 11 3) (fld w 8 3) (fld w 6 2)) else
  if fits w 0xFF18C03F 0xE4000001 then some (.mosub (fld w 21 3) (fld w 16 3) (fld w 11 3) (fld w 8 3) (fld w 6 2)) else
  if fits w 0xFF18C03F 0xE4000002 then some (.momul (fld w 21 3) (fld w 16 3) (fld w 11 3) (fld w 8 3) (fld w 6 2)) else
  if fits w 0xFF18C03F 0xE4000003 then some (.mofma (fld w 21 3) (fld w 16 3) (fld w 11 3) (fld w 8 3) (fld w 6 2)) else
  if fits w 0xFF18003F 0xE4000004 then some (.mosc (fld w 21 3) (fld w 16 3) (fld w 11 5) (fld w 8 3) (fld w 6 2)) else
  if fits w 0xFF18003F 0xE4000005 then some (.moscX (fld w 21 3) (fld w 16 3) (fld w 11 5) (fld w 8 3) (fld w 6 2)) else
  if fits w 0xFF18F83F 0xE4000008 then some (.moexp (fld w 21 3) (fld w 16 3) (fld w 8 3) (fld w 6 2)) else
  if fits w 0xFF18F83F 0xE4000009 then some (.morelu (fld w 21 3) (fld w 16 3) (fld w 8 3) (fld w 6 2)) else
  if fits w 0xFF18F83F 0xE400000A then some (.mosig (fld w 21 3) (fld w 16 3) (fld w 8 3) (fld w 6 2)) else
  if fits w 0xFF18F83F 0xE400000B then some (.motanh (fld w 21 3) (fld w 16 3) (fld w 8 3) (fld w 6 2)) else
  if fits w 0xFF00003F 0xE4000010 then some (.mofrom (fld w 21 3) (fld w 16 5) (fld w 11 5) (fld w 8 3) (fld w 6 2)) else
  if fits w 0xFC18F83F 0xE4000011 then some (.mocolMean (fld w 21 5) (fld w 16 3) (fld w 8 3) (fld w 6 2)) else
  if fits w 0xFC18F83F 0xE4000012 then some (.mocolVar (fld w 21 5) (fld w 16 3) (fld w 8 3) (fld w 6 2)) else
  if fits w 0xFC18F83F 0xE4000013 then some (.mocolStd (fld w 21 5) (fld w 16 3) (fld w 8 3) (fld w 6 2)) else
  if fits w 0xFC18003F 0xE4000014 then some (.mocolUpper (fld w 21 5) (fld w 16 3) (fld w 11 5) (fld w 8 3) (fld w 6 2)) else
  if fits w 0xFC18003F 0xE4000015 then some (.mocolLower (fld w 21 5) (fld w 16 3) (fld w 11 5) (fld w 8 3) (fld w 6 2)) else
  if fits w 0xFC18003F 0xE4000016 then some (.mocolSample (fld w 21 5) (fld w 16 3) (fld w 11 5) (fld w 8 3) (fld w 6 2)) else
  if fits w 0xFF18F83F 0xE4000018 then some (.momv (fld w 21 3) (fld w 16 3) (fld w 8 3) (fld w 6 2)) else
  if fits w 0xFF00803F 0xE400001C then some (.mold (fld w 21 3) (fld w 16 5) (fld w 11 4) (fld w 8 3) (fld w 6 2)) else
  if fits w 0xFF00803F 0xE400001D then some (.most (fld w 21 3) (fld w 16 5) (fld w 11 4) (fld w 8 3) (fld w 6 2)) else
  none

/-- The instructions of major 0x3A. -/
def decode3A (w : BitVec 32) : Option Instr :=
  if fits w 0xFC1FFFFF 0xE8000000 then some (.tget (fld w 21 5)) else
  if fits w 0xFC00FFFF 0xE8002000 then some (.tlaunch (fld w 21 5) (fld w 16 5)) else
  if fits w 0xFC00FFFF 0xE8003000 then some (.tlaunchW (fld w 21 5) (fld w 16 5)) else
  if fits w 0xFFFFFF00 0xE8008000 then some (.gwait (fld w 0 8)) else
  if fits w 0xFC1FFF00 0xE8009000 then some (.gtest (fld w 21 5) (fld w 0 8)) else
  if fits w 0xFC1FFFF8 0xE800A000 then some (.rstat (fld w 21 5) (fld w 2 1) (fld w 0 2)) else
  if fits w 0xFFFFFFFF 0xE8001000 then some (.tdone) else
  if fits w 0xFFFFFFFF 0xE8004000 then some (.tdoneC) else
  none

/-- The instructions of major 0x3B. -/
def decode3B (w : BitVec 32) : Option Instr :=
  if fits w 0xFFE007EF 0xEC000000 then some (.cpy (fld w 16 5) (fld w 11 5) (fld w 4 1)) else
  if fits w 0xFFE007EF 0xEC000001 then some (.rgath (fld w 16 5) (fld w 11 5) (fld w 4 1)) else
  if fits w 0xFFE007EF 0xEC000002 then some (.rscat (fld w 16 5) (fld w 11 5) (fld w 4 1)) else
  if fits w 0xFFE007EF 0xEC000003 then some (.coll (fld w 16 5) (fld w 11 5) (fld w 4 1)) else
  if fits w 0xFFE007EF 0xEC000004 then some (.pfxh (fld w 16 5) (fld w 11 5) (fld w 4 1)) else
  if fits w 0xFFE007EF 0xEC000005 then some (.pfxlk (fld w 16 5) (fld w 11 5) (fld w 4 1)) else
  if fits w 0xFFE007EF 0xEC000006 then some (.pfxins (fld w 16 5) (fld w 11 5) (fld w 4 1)) else
  if fits w 0xFFE007EF 0xEC000007 then some (.pfxunpin (fld w 16 5) (fld w 11 5) (fld w 4 1)) else
  none

/-- The instructions of major 0x3C. -/
def decode3C (w : BitVec 32) : Option Instr :=
  if fits w 0xFFE007FF 0xF0000000 then some (.binit (fld w 16 5) (fld w 11 5)) else
  if fits w 0xFFE007FF 0xF0000001 then some (.bexpect (fld w 16 5) (fld w 11 5)) else
  if fits w 0xFFE0FFFF 0xF0000002 then some (.barrive (fld w 16 5)) else
  if fits w 0xFFE007FF 0xF0000003 then some (.bexparr (fld w 16 5) (fld w 11 5)) else
  if fits w 0xFC0007FF 0xF0000004 then some (.bwait (fld w 21 5) (fld w 16 5) (fld w 11 5)) else
  if fits w 0xFC0007FF 0xF0000005 then some (.btest (fld w 21 5) (fld w 16 5) (fld w 11 5)) else
  none

/-- The word of `resm` or of `cdisc`. -/
def isResmOrCdisc (w : BitVec 32) : Bool := fits w 0xFC0007FF 0xF4000001 || fits w 0xFC00FFFF 0xF4000002

/-- The instructions of major 0x3D but `resm` and `cdisc`. -/
def decodeSusp (w : BitVec 32) : Option Instr :=
  if fits w 0xFC000007 0xF4000000 then some (.susp (fld w 21 5) (fld w 16 5) (fld w 11 5) (fld w 3 8)) else
  none

/-- The instructions of major 0x3D. -/
noncomputable def decode3D (w : BitVec 32) : Option Instr :=
  if fits w 0xFC000007 0xF4000000 then some (.susp (fld w 21 5) (fld w 16 5) (fld w 11 5) (fld w 3 8)) else
  if fits w 0xFC0007FF 0xF4000001 then some (.resm (fld w 21 5) (fld w 16 5) (fld w 11 5)) else
  if fits w 0xFC00FFFF 0xF4000002 then some (.cdisc (fld w 21 5) (fld w 16 5)) else
  none

/-- The instructions of major 0x3E. -/
def decode3E (w : BitVec 32) : Option Instr :=
  if fits w 0xFC1FF000 0xF8000000 then some (.mfs (fld w 21 5) (fld w 0 12)) else
  if fits w 0xFFE0F000 0xF8001000 then some (.mts (fld w 16 5) (fld w 0 12)) else
  if fits w 0xFFFFF000 0xF8002000 then some (.sys (fld w 0 12)) else
  if fits w 0xFFFFF000 0xF8003000 then some (.brk (fld w 0 12)) else
  if fits w 0xFFFFFFFF 0xF8004000 then some (.eret) else
  if fits w 0xFFFFFFFF 0xF8005000 then some (.yield) else
  if fits w 0xFFFFFFFF 0xF800F000 then some (.nop) else
  none

/-- The instruction of a word before its operand values are looked at, major 0x3D being read by a function given. -/
def decodeBy (f : BitVec 32 → Option Instr) (w : BitVec 32) : Except Reject Instr :=
  let pick (o : Option Instr) : Except Reject Instr := match o with
    | some i => .ok i
    | none => .error .unassigned
  match (fld w 26 6).toNat with
  | 1 => pick (decode01 w)
  | 2 => pick (decode02 w)
  | 3 => pick (decode03 w)
  | 4 => pick (decode04 w)
  | 5 => pick (decode05 w)
  | 6 => pick (decode06 w)
  | 7 => pick (decode07 w)
  | 8 => pick (decode08 w)
  | 9 => pick (decode09 w)
  | 10 => pick (decode0A w)
  | 11 => pick (decode0B w)
  | 12 => pick (decode0C w)
  | 16 => pick (decode10 w)
  | 17 => pick (decode11 w)
  | 18 => pick (decode12 w)
  | 19 => pick (decode13 w)
  | 20 => pick (decode14 w)
  | 21 => pick (decode15 w)
  | 22 => pick (decode16 w)
  | 24 => pick (decode18 w)
  | 25 => pick (decode19 w)
  | 26 => pick (decode1A w)
  | 27 => pick (decode1B w)
  | 28 => pick (decode1C w)
  | 29 => pick (decode1D w)
  | 30 => pick (decode1E w)
  | 32 => pick (decode20 w)
  | 33 => pick (decode21 w)
  | 34 => pick (decode22 w)
  | 35 => pick (decode23 w)
  | 36 => pick (decode24 w)
  | 37 => pick (decode25 w)
  | 38 => pick (decode26 w)
  | 39 => pick (decode27 w)
  | 40 => pick (decode28 w)
  | 41 => pick (decode29 w)
  | 42 => pick (decode2A w)
  | 43 => pick (decode2B w)
  | 44 => pick (decode2C w)
  | 45 => pick (decode2D w)
  | 46 => pick (decode2E w)
  | 48 => pick (decode30 w)
  | 49 => pick (decode30 w)
  | 50 => pick (decode32 w)
  | 51 => pick (decode32 w)
  | 52 => pick (decode34 w)
  | 53 => pick (decode35 w)
  | 54 => pick (decode36 w)
  | 55 => pick (decode37 w)
  | 56 => pick (decode38 w)
  | 57 => pick (decode39 w)
  | 58 => pick (decode3A w)
  | 59 => pick (decode3B w)
  | 60 => pick (decode3C w)
  | 61 => pick (f w)
  | 62 => pick (decode3E w)
  | _ => .error .reservedMajor

/-- The instruction of a word before its operand values are looked at. (DESIGN CHOICE, log 20) -/
noncomputable def decodeRaw (w : BitVec 32) : Except Reject Instr := decodeBy decode3D w

/-- The word is that of some instruction: `decode` answers one (shown in Laws/Decode.lean). -/
def isInstr (w : BitVec 32) : Bool :=
  isResmOrCdisc w || match decodeBy decodeSusp w with
    | .ok i => i.wf
    | .error _ => false

/-- The instruction of a word, or the name of what is wrong with it. -/
noncomputable def decode (w : BitVec 32) : Except Reject Instr :=
  match decodeRaw w with
  | .ok i => if i.wf then .ok i else .error .badOperand
  | .error e => .error e

/-- The little-endian word of four bytes (R54). -/
def wordOfBytes (b0 b1 b2 b3 : BitVec 8) : BitVec 32 := b3 ++ b2 ++ b1 ++ b0

/-- Decoding a list of bytes: the instruction and the bytes after it. Total on any list. -/
noncomputable def decodeBytes : List (BitVec 8) → Except Reject (Instr × List (BitVec 8))
  | b0 :: b1 :: b2 :: b3 :: rest =>
    match decode (wordOfBytes b0 b1 b2 b3) with
    | .ok i => .ok (i, rest)
    | .error e => .error e
  | _ => .error .tooShort

/-- The bytes of a word in ascending address order (R54). -/
def bytesOfWord (w : BitVec 32) : List (BitVec 8) := [fld w 0 8, fld w 8 8, fld w 16 8, fld w 24 8]

/-- The word of `resm d, a, b` (R55, R347). -/
def encodeResm (d a b : BitVec 5) : BitVec 32 := 0xF4000001 ||| put d 21 ||| put a 16 ||| put b 11

/-- The word of `cdisc d, a` (R55, R349). -/
def encodeCdisc (d a : BitVec 5) : BitVec 32 := 0xF4000002 ||| put d 21 ||| put a 16

/-- The word of an instruction, from the formats of R55 and the function values of the family chapters. A step without a word
has none; 0, which is no instruction's word (R58), stands for that. -/
def encode : Instr → BitVec 32
  | .add d a b => 0x04000000 ||| put d 21 ||| put a 16 ||| put b 11
  | .sub d a b => 0x04000001 ||| put d 21 ||| put a 16 ||| put b 11
  | .and d a b => 0x04000002 ||| put d 21 ||| put a 16 ||| put b 11
  | .or d a b => 0x04000003 ||| put d 21 ||| put a 16 ||| put b 11
  | .xor d a b => 0x04000004 ||| put d 21 ||| put a 16 ||| put b 11
  | .sll d a b => 0x04000005 ||| put d 21 ||| put a 16 ||| put b 11
  | .srl d a b => 0x04000006 ||| put d 21 ||| put a 16 ||| put b 11
  | .sra d a b => 0x04000007 ||| put d 21 ||| put a 16 ||| put b 11
  | .slt d a b => 0x04000008 ||| put d 21 ||| put a 16 ||| put b 11
  | .sltu d a b => 0x04000009 ||| put d 21 ||| put a 16 ||| put b 11
  | .min d a b => 0x0400000A ||| put d 21 ||| put a 16 ||| put b 11
  | .max d a b => 0x0400000B ||| put d 21 ||| put a 16 ||| put b 11
  | .minu d a b => 0x0400000C ||| put d 21 ||| put a 16 ||| put b 11
  | .maxu d a b => 0x0400000D ||| put d 21 ||| put a 16 ||| put b 11
  | .clz d a => 0x0400000E ||| put d 21 ||| put a 16
  | .ctz d a => 0x0400000F ||| put d 21 ||| put a 16
  | .popc d a => 0x04000010 ||| put d 21 ||| put a 16
  | .sextb d a => 0x04000011 ||| put d 21 ||| put a 16
  | .sexth d a => 0x04000012 ||| put d 21 ||| put a 16
  | .sextw d a => 0x04000013 ||| put d 21 ||| put a 16
  | .mul d a b => 0x08000000 ||| put d 21 ||| put a 16 ||| put b 11
  | .mulhs d a b => 0x08000001 ||| put d 21 ||| put a 16 ||| put b 11
  | .mulhu d a b => 0x08000002 ||| put d 21 ||| put a 16 ||| put b 11
  | .mulhx d a b => 0x08000003 ||| put d 21 ||| put a 16 ||| put b 11
  | .div d a b => 0x08000004 ||| put d 21 ||| put a 16 ||| put b 11
  | .divu d a b => 0x08000005 ||| put d 21 ||| put a 16 ||| put b 11
  | .rem d a b => 0x08000006 ||| put d 21 ||| put a 16 ||| put b 11
  | .remu d a b => 0x08000007 ||| put d 21 ||| put a 16 ||| put b 11
  | .fadd d a b f => 0x0C000000 ||| put d 21 ||| put a 16 ||| put b 11 ||| put f 4
  | .fsub d a b f => 0x0C000001 ||| put d 21 ||| put a 16 ||| put b 11 ||| put f 4
  | .fmul d a b f => 0x0C000002 ||| put d 21 ||| put a 16 ||| put b 11 ||| put f 4
  | .fdiv d a b f => 0x0C000003 ||| put d 21 ||| put a 16 ||| put b 11 ||| put f 4
  | .fsqrt d a f => 0x0C000004 ||| put d 21 ||| put a 16 ||| put f 4
  | .fmad d a b f => 0x0C000005 ||| put d 21 ||| put a 16 ||| put b 11 ||| put f 4
  | .feq d a b f => 0x0C000006 ||| put d 21 ||| put a 16 ||| put b 11 ||| put f 4
  | .flt d a b f => 0x0C000046 ||| put d 21 ||| put a 16 ||| put b 11 ||| put f 4
  | .fle d a b f => 0x0C000086 ||| put d 21 ||| put a 16 ||| put b 11 ||| put f 4
  | .funo d a b f => 0x0C0000C6 ||| put d 21 ||| put a 16 ||| put b 11 ||| put f 4
  | .ftoi d a f => 0x0C000007 ||| put d 21 ||| put a 16 ||| put f 4
  | .ftou d a f => 0x0C000047 ||| put d 21 ||| put a 16 ||| put f 4
  | .itof d a f => 0x0C000087 ||| put d 21 ||| put a 16 ||| put f 4
  | .utof d a f => 0x0C0000C7 ||| put d 21 ||| put a 16 ||| put f 4
  | .fcvs d a f => 0x0C000107 ||| put d 21 ||| put a 16 ||| put f 4
  | .fcvh d a f => 0x0C000147 ||| put d 21 ||| put a 16 ||| put f 4
  | .fcvb d a f => 0x0C000187 ||| put d 21 ||| put a 16 ||| put f 4
  | .addi d a i => 0x10000000 ||| put d 21 ||| put a 16 ||| put i 0
  | .andi d a i => 0x14000000 ||| put d 21 ||| put a 16 ||| put i 0
  | .ori d a i => 0x18000000 ||| put d 21 ||| put a 16 ||| put i 0
  | .xori d a i => 0x1C000000 ||| put d 21 ||| put a 16 ||| put i 0
  | .slti d a i => 0x20000000 ||| put d 21 ||| put a 16 ||| put i 0
  | .sltiu d a i => 0x24000000 ||| put d 21 ||| put a 16 ||| put i 0
  | .lim d c i => 0x28000000 ||| put d 21 ||| put c 16 ||| put i 0
  | .pcadd d i => 0x2C000000 ||| put d 21 ||| put i 0
  | .slli d a s => 0x30000000 ||| put d 21 ||| put a 16 ||| put s 0
  | .srli d a s => 0x30000100 ||| put d 21 ||| put a 16 ||| put s 0
  | .srai d a s => 0x30000200 ||| put d 21 ||| put a 16 ||| put s 0
  | .rori d a s => 0x30000300 ||| put d 21 ||| put a 16 ||| put s 0
  | .ldb d a c o => 0x40000000 ||| put d 21 ||| put a 16 ||| put c 12 ||| put o 0
  | .ldbu d a c o => 0x44000000 ||| put d 21 ||| put a 16 ||| put c 12 ||| put o 0
  | .ldh d a c o => 0x48000000 ||| put d 21 ||| put a 16 ||| put c 12 ||| put o 0
  | .ldhu d a c o => 0x4C000000 ||| put d 21 ||| put a 16 ||| put c 12 ||| put o 0
  | .ldw d a c o => 0x50000000 ||| put d 21 ||| put a 16 ||| put c 12 ||| put o 0
  | .ldwu d a c o => 0x54000000 ||| put d 21 ||| put a 16 ||| put c 12 ||| put o 0
  | .ldd d a c o => 0x58000000 ||| put d 21 ||| put a 16 ||| put c 12 ||| put o 0
  | .stb d a c o => 0x60000000 ||| put d 21 ||| put a 16 ||| put c 12 ||| put o 0
  | .sth d a c o => 0x64000000 ||| put d 21 ||| put a 16 ||| put c 12 ||| put o 0
  | .stw d a c o => 0x68000000 ||| put d 21 ||| put a 16 ||| put c 12 ||| put o 0
  | .std d a c o => 0x6C000000 ||| put d 21 ||| put a 16 ||| put c 12 ||| put o 0
  | .aadd d a b s c w => 0x70000000 ||| put d 21 ||| put a 16 ||| put b 11 ||| put s 8 ||| put c 4 ||| put w 3
  | .amin d a b s c w => 0x70000001 ||| put d 21 ||| put a 16 ||| put b 11 ||| put s 8 ||| put c 4 ||| put w 3
  | .amax d a b s c w => 0x70000002 ||| put d 21 ||| put a 16 ||| put b 11 ||| put s 8 ||| put c 4 ||| put w 3
  | .aand d a b s c w => 0x70000003 ||| put d 21 ||| put a 16 ||| put b 11 ||| put s 8 ||| put c 4 ||| put w 3
  | .aor d a b s c w => 0x70000004 ||| put d 21 ||| put a 16 ||| put b 11 ||| put s 8 ||| put c 4 ||| put w 3
  | .axor d a b s c w => 0x70000005 ||| put d 21 ||| put a 16 ||| put b 11 ||| put s 8 ||| put c 4 ||| put w 3
  | .aswap d a b s c w => 0x70000006 ||| put d 21 ||| put a 16 ||| put b 11 ||| put s 8 ||| put c 4 ||| put w 3
  | .acas d a b s c w => 0x70000007 ||| put d 21 ||| put a 16 ||| put b 11 ||| put s 8 ||| put c 4 ||| put w 3
  | .afadd d a b s c f => 0x74000000 ||| put d 21 ||| put a 16 ||| put b 11 ||| put s 8 ||| put c 4 ||| put f 0
  | .fence m s n => 0x78000000 ||| put m 16 ||| put s 8 ||| put n 0
  | .fenceQ q => 0x78001000 ||| put q 0
  | .fenceArr s g => 0x78002000 ||| put s 8 ||| put g 0
  | .wpoll d a s => 0x78003000 ||| put d 21 ||| put a 16 ||| put s 8
  | .fenceAcq m s n => 0x78004000 ||| put m 16 ||| put s 8 ||| put n 0
  | .fenceRel m s n => 0x78005000 ||| put m 16 ||| put s 8 ||| put n 0
  | .beq a b o => 0x80000000 ||| put a 21 ||| put b 16 ||| put o 0
  | .bne a b o => 0x84000000 ||| put a 21 ||| put b 16 ||| put o 0
  | .blt a b o => 0x88000000 ||| put a 21 ||| put b 16 ||| put o 0
  | .bge a b o => 0x8C000000 ||| put a 21 ||| put b 16 ||| put o 0
  | .bltu a b o => 0x90000000 ||| put a 21 ||| put b 16 ||| put o 0
  | .bgeu a b o => 0x94000000 ||| put a 21 ||| put b 16 ||| put o 0
  | .jmp o => 0x98000000 ||| put o 0
  | .call o => 0x9C000000 ||| put o 0
  | .jr a => 0xA0000000 ||| put a 16
  | .callr a => 0xA0000001 ||| put a 16
  | .sbr n m s o => 0xA4000000 ||| put n 21 ||| put m 17 ||| put s 9 ||| put o 0
  | .vbr a o => 0xA8000000 ||| put a 21 ||| put o 0
  | .vjoin o => 0xA8010000 ||| put o 0
  | .vbany a o => 0xA8020000 ||| put a 21 ||| put o 0
  | .vball a o => 0xA8030000 ||| put a 21 ||| put o 0
  | .vloop s l => 0xAC000000 ||| put s 16 ||| put l 0
  | .setvl d a t => 0xB0000000 ||| put d 21 ||| put a 16 ||| put t 0
  | .setvlr d a b => 0xB0001000 ||| put d 21 ||| put a 16 ||| put b 0
  | .cbld a c n => 0xB0002000 ||| put a 16 ||| put c 8 ||| put n 0
  | .vld d a b k c => 0xB4000000 ||| put d 21 ||| put a 16 ||| put b 11 ||| put k 8 ||| put c 4
  | .vlds d a b k c => 0xB4000002 ||| put d 21 ||| put a 16 ||| put b 11 ||| put k 8 ||| put c 4
  | .vldx d a b k c => 0xB4000004 ||| put d 21 ||| put a 16 ||| put b 11 ||| put k 8 ||| put c 4
  | .vldmx d a b k c => 0xB4000006 ||| put d 21 ||| put a 16 ||| put b 11 ||| put k 8 ||| put c 4
  | .vsld d s k c => 0xB4000008 ||| put d 21 ||| put s 16 ||| put k 8 ||| put c 4
  | .sdld s a => 0xB400000A ||| put s 21 ||| put a 16
  | .vst d a b k c => 0xB8000000 ||| put d 21 ||| put a 16 ||| put b 11 ||| put k 8 ||| put c 4
  | .vsts d a b k c => 0xB8000002 ||| put d 21 ||| put a 16 ||| put b 11 ||| put k 8 ||| put c 4
  | .vstx d a b k c => 0xB8000004 ||| put d 21 ||| put a 16 ||| put b 11 ||| put k 8 ||| put c 4
  | .vstmx d a b k c => 0xB8000006 ||| put d 21 ||| put a 16 ||| put b 11 ||| put k 8 ||| put c 4
  | .vsst d s k c => 0xB8000008 ||| put d 21 ||| put s 16 ||| put k 8 ||| put c 4
  | .vscataddDev d a b k c => 0xB800000A ||| put d 21 ||| put a 16 ||| put b 11 ||| put k 8 ||| put c 4
  | .vscataddHost d a b k c => 0xB800000C ||| put d 21 ||| put a 16 ||| put b 11 ||| put k 8 ||| put c 4
  | .vscataddSys d a b k c => 0xB800000E ||| put d 21 ||| put a 16 ||| put b 11 ||| put k 8 ||| put c 4
  | .vadd x d a b k h => 0xC0000000 ||| put x 26 ||| put d 21 ||| put a 16 ||| put b 11 ||| put k 8 ||| put h 6
  | .vsub x d a b k h => 0xC0000001 ||| put x 26 ||| put d 21 ||| put a 16 ||| put b 11 ||| put k 8 ||| put h 6
  | .vsubr x d a b k h => 0xC0000002 ||| put x 26 ||| put d 21 ||| put a 16 ||| put b 11 ||| put k 8 ||| put h 6
  | .vmul x d a b k h => 0xC0000003 ||| put x 26 ||| put d 21 ||| put a 16 ||| put b 11 ||| put k 8 ||| put h 6
  | .vmulhi x d a b k h => 0xC0000004 ||| put x 26 ||| put d 21 ||| put a 16 ||| put b 11 ||| put k 8 ||| put h 6
  | .vdiv x d a b k h => 0xC0000005 ||| put x 26 ||| put d 21 ||| put a 16 ||| put b 11 ||| put k 8 ||| put h 6
  | .vrem x d a b k h => 0xC0000006 ||| put x 26 ||| put d 21 ||| put a 16 ||| put b 11 ||| put k 8 ||| put h 6
  | .vmin x d a b k h => 0xC0000007 ||| put x 26 ||| put d 21 ||| put a 16 ||| put b 11 ||| put k 8 ||| put h 6
  | .vmax x d a b k h => 0xC0000008 ||| put x 26 ||| put d 21 ||| put a 16 ||| put b 11 ||| put k 8 ||| put h 6
  | .vand x d a b k h => 0xC0000009 ||| put x 26 ||| put d 21 ||| put a 16 ||| put b 11 ||| put k 8 ||| put h 6
  | .vor x d a b k h => 0xC000000A ||| put x 26 ||| put d 21 ||| put a 16 ||| put b 11 ||| put k 8 ||| put h 6
  | .vxor x d a b k h => 0xC000000B ||| put x 26 ||| put d 21 ||| put a 16 ||| put b 11 ||| put k 8 ||| put h 6
  | .vshl x d a b k h => 0xC000000C ||| put x 26 ||| put d 21 ||| put a 16 ||| put b 11 ||| put k 8 ||| put h 6
  | .vshr x d a b k h => 0xC000000D ||| put x 26 ||| put d 21 ||| put a 16 ||| put b 11 ||| put k 8 ||| put h 6
  | .vaddsat x d a b k h => 0xC000000E ||| put x 26 ||| put d 21 ||| put a 16 ||| put b 11 ||| put k 8 ||| put h 6
  | .vsubsat x d a b k h => 0xC000000F ||| put x 26 ||| put d 21 ||| put a 16 ||| put b 11 ||| put k 8 ||| put h 6
  | .vmad x d a b k h => 0xC0000010 ||| put x 26 ||| put d 21 ||| put a 16 ||| put b 11 ||| put k 8 ||| put h 6
  | .vcopy x d b k h => 0xC0000011 ||| put x 26 ||| put d 21 ||| put b 11 ||| put k 8 ||| put h 6
  | .vfadd x d a b k h => 0xC8000000 ||| put x 26 ||| put d 21 ||| put a 16 ||| put b 11 ||| put k 8 ||| put h 6
  | .vfsub x d a b k h => 0xC8000001 ||| put x 26 ||| put d 21 ||| put a 16 ||| put b 11 ||| put k 8 ||| put h 6
  | .vfsubr x d a b k h => 0xC8000002 ||| put x 26 ||| put d 21 ||| put a 16 ||| put b 11 ||| put k 8 ||| put h 6
  | .vfmul x d a b k h => 0xC8000003 ||| put x 26 ||| put d 21 ||| put a 16 ||| put b 11 ||| put k 8 ||| put h 6
  | .vfdiv x d a b k h => 0xC8000004 ||| put x 26 ||| put d 21 ||| put a 16 ||| put b 11 ||| put k 8 ||| put h 6
  | .vfsqrt d a k h => 0xC8000005 ||| put d 21 ||| put a 16 ||| put k 8 ||| put h 6
  | .vfmin x d a b k h => 0xC8000006 ||| put x 26 ||| put d 21 ||| put a 16 ||| put b 11 ||| put k 8 ||| put h 6
  | .vfmax x d a b k h => 0xC8000007 ||| put x 26 ||| put d 21 ||| put a 16 ||| put b 11 ||| put k 8 ||| put h 6
  | .vfmad x d a b k h => 0xC8000008 ||| put x 26 ||| put d 21 ||| put a 16 ||| put b 11 ||| put k 8 ||| put h 6
  | .vfmsb x d a b k h => 0xC8000009 ||| put x 26 ||| put d 21 ||| put a 16 ||| put b 11 ||| put k 8 ||| put h 6
  | .vfabs d a k h => 0xC800000A ||| put d 21 ||| put a 16 ||| put k 8 ||| put h 6
  | .vfneg d a k h => 0xC800000B ||| put d 21 ||| put a 16 ||| put k 8 ||| put h 6
  | .vfcsgn x d a b k h => 0xC800000C ||| put x 26 ||| put d 21 ||| put a 16 ||| put b 11 ||| put k 8 ||| put h 6
  | .vfcopy x d b k h => 0xC800000D ||| put x 26 ||| put d 21 ||| put b 11 ||| put k 8 ||| put h 6
  | .vcmpeq d a b k h x => 0xD0000000 ||| put d 21 ||| put a 16 ||| put b 11 ||| put k 8 ||| put h 6 ||| put x 3
  | .vcmpne d a b k h x => 0xD0000001 ||| put d 21 ||| put a 16 ||| put b 11 ||| put k 8 ||| put h 6 ||| put x 3
  | .vcmplt d a b k h x => 0xD0000002 ||| put d 21 ||| put a 16 ||| put b 11 ||| put k 8 ||| put h 6 ||| put x 3
  | .vcmple d a b k h x => 0xD0000003 ||| put d 21 ||| put a 16 ||| put b 11 ||| put k 8 ||| put h 6 ||| put x 3
  | .vcmpgt d a b k h x => 0xD0000004 ||| put d 21 ||| put a 16 ||| put b 11 ||| put k 8 ||| put h 6 ||| put x 3
  | .vcmpge d a b k h x => 0xD0000005 ||| put d 21 ||| put a 16 ||| put b 11 ||| put k 8 ||| put h 6 ||| put x 3
  | .kboth d a b h => 0xD0000010 ||| put d 21 ||| put a 16 ||| put b 11 ||| put h 6
  | .keither d a b h => 0xD0000011 ||| put d 21 ||| put a 16 ||| put b 11 ||| put h 6
  | .kdiffer d a b h => 0xD0000012 ||| put d 21 ||| put a 16 ||| put b 11 ||| put h 6
  | .kbut d a b h => 0xD0000013 ||| put d 21 ||| put a 16 ||| put b 11 ||| put h 6
  | .kflip d a h => 0xD0000014 ||| put d 21 ||| put a 16 ||| put h 6
  | .kfill d h => 0xD0000015 ||| put d 21 ||| put h 6
  | .kcount d a k h => 0xD0000018 ||| put d 21 ||| put a 16 ||| put k 8 ||| put h 6
  | .klowest d a k h => 0xD0000019 ||| put d 21 ||| put a 16 ||| put k 8 ||| put h 6
  | .vsel d a b k h => 0xD4000000 ||| put d 21 ||| put a 16 ||| put b 11 ||| put k 8 ||| put h 6
  | .vindex d k h => 0xD4000001 ||| put d 21 ||| put k 8 ||| put h 6
  | .vshup d a b k h => 0xD4000002 ||| put d 21 ||| put a 16 ||| put b 11 ||| put k 8 ||| put h 6
  | .vshdn d a b k h => 0xD4000003 ||| put d 21 ||| put a 16 ||| put b 11 ||| put k 8 ||| put h 6
  | .vperm d a b k h => 0xD4000004 ||| put d 21 ||| put a 16 ||| put b 11 ||| put k 8 ||| put h 6
  | .vpack d a k h => 0xD4000005 ||| put d 21 ||| put a 16 ||| put k 8 ||| put h 6
  | .vuniq d a k h => 0xD4000006 ||| put d 21 ||| put a 16 ||| put k 8 ||| put h 6
  | .vget d a b h => 0xD4000007 ||| put d 21 ||| put a 16 ||| put b 11 ||| put h 6
  | .vput d a b h => 0xD4000008 ||| put d 21 ||| put a 16 ||| put b 11 ||| put h 6
  | .vredsum d a k h t => 0xD8000000 ||| put d 21 ||| put a 16 ||| put k 8 ||| put h 6 ||| put t 5
  | .vredmin d a k h t => 0xD8000001 ||| put d 21 ||| put a 16 ||| put k 8 ||| put h 6 ||| put t 5
  | .vredmax d a k h t => 0xD8000002 ||| put d 21 ||| put a 16 ||| put k 8 ||| put h 6 ||| put t 5
  | .vredand d a k h t => 0xD8000003 ||| put d 21 ||| put a 16 ||| put k 8 ||| put h 6 ||| put t 5
  | .vredor d a k h t => 0xD8000004 ||| put d 21 ||| put a 16 ||| put k 8 ||| put h 6 ||| put t 5
  | .vredxor d a k h t => 0xD8000005 ||| put d 21 ||| put a 16 ||| put k 8 ||| put h 6 ||| put t 5
  | .vfredsum d a k h t => 0xD8000008 ||| put d 21 ||| put a 16 ||| put k 8 ||| put h 6 ||| put t 5
  | .vfredsumw d a k h t => 0xD8000009 ||| put d 21 ||| put a 16 ||| put k 8 ||| put h 6 ||| put t 5
  | .vfredmin d a k h t => 0xD800000A ||| put d 21 ||| put a 16 ||| put k 8 ||| put h 6 ||| put t 5
  | .vfredmax d a k h t => 0xD800000B ||| put d 21 ||| put a 16 ||| put k 8 ||| put h 6 ||| put t 5
  | .vfexp2 d a k h => 0xDC000000 ||| put d 21 ||| put a 16 ||| put k 8 ||| put h 6
  | .vflog2 d a k h => 0xDC000001 ||| put d 21 ||| put a 16 ||| put k 8 ||| put h 6
  | .vfrecip d a k h => 0xDC000002 ||| put d 21 ||| put a 16 ||| put k 8 ||| put h 6
  | .vfrsqrt d a k h => 0xDC000003 ||| put d 21 ||| put a 16 ||| put k 8 ||| put h 6
  | .vftanh d a k h => 0xDC000004 ||| put d 21 ||| put a 16 ||| put k 8 ||| put h 6
  | .vfsig d a k h => 0xDC000005 ||| put d 21 ||| put a 16 ||| put k 8 ||| put h 6
  | .vcvtsr d a b k h f => 0xDC000010 ||| put d 21 ||| put a 16 ||| put b 11 ||| put k 8 ||| put h 6 ||| put f 0
  | .vcvtmx d a s k h f => 0xDC000018 ||| put d 21 ||| put a 16 ||| put s 11 ||| put k 8 ||| put h 6 ||| put f 0
  | .vcvt d a k h f => 0xDC000020 ||| put d 21 ||| put a 16 ||| put k 8 ||| put h 6 ||| put f 0
  | .mma z a w k => 0xE0000000 ||| put z 22 ||| put a 17 ||| put w 15 ||| put k 8
  | .mmamo z a w k => 0xE0000001 ||| put z 22 ||| put a 17 ||| put w 15 ||| put k 8
  | .zclr z => 0xE0000008 ||| put z 22
  | .zld z a c => 0xE0000009 ||| put z 22 ||| put a 17 ||| put c 8
  | .zst z a c => 0xE000000A ||| put z 22 ||| put a 17 ||| put c 8
  | .zmv z a w r => 0xE000000B ||| put z 22 ||| put a 17 ||| put w 15 ||| put r 8
  | .zmvt z a w r => 0xE000000C ||| put z 22 ||| put a 17 ||| put w 15 ||| put r 8
  | .wbld a w => 0xE0000010 ||| put a 17 ||| put w 15
  | .mcommit a => 0xE0000018 ||| put a 17
  | .moadd d a b k h => 0xE4000000 ||| put d 21 ||| put a 16 ||| put b 11 ||| put k 8 ||| put h 6
  | .mosub d a b k h => 0xE4000001 ||| put d 21 ||| put a 16 ||| put b 11 ||| put k 8 ||| put h 6
  | .momul d a b k h => 0xE4000002 ||| put d 21 ||| put a 16 ||| put b 11 ||| put k 8 ||| put h 6
  | .mofma d a b k h => 0xE4000003 ||| put d 21 ||| put a 16 ||| put b 11 ||| put k 8 ||| put h 6
  | .mosc d a b k h => 0xE4000004 ||| put d 21 ||| put a 16 ||| put b 11 ||| put k 8 ||| put h 6
  | .moscX d a b k h => 0xE4000005 ||| put d 21 ||| put a 16 ||| put b 11 ||| put k 8 ||| put h 6
  | .moexp d a k h => 0xE4000008 ||| put d 21 ||| put a 16 ||| put k 8 ||| put h 6
  | .morelu d a k h => 0xE4000009 ||| put d 21 ||| put a 16 ||| put k 8 ||| put h 6
  | .mosig d a k h => 0xE400000A ||| put d 21 ||| put a 16 ||| put k 8 ||| put h 6
  | .motanh d a k h => 0xE400000B ||| put d 21 ||| put a 16 ||| put k 8 ||| put h 6
  | .mofrom d a b k h => 0xE4000010 ||| put d 21 ||| put a 16 ||| put b 11 ||| put k 8 ||| put h 6
  | .mocolMean d a k h => 0xE4000011 ||| put d 21 ||| put a 16 ||| put k 8 ||| put h 6
  | .mocolVar d a k h => 0xE4000012 ||| put d 21 ||| put a 16 ||| put k 8 ||| put h 6
  | .mocolStd d a k h => 0xE4000013 ||| put d 21 ||| put a 16 ||| put k 8 ||| put h 6
  | .mocolUpper d a b k h => 0xE4000014 ||| put d 21 ||| put a 16 ||| put b 11 ||| put k 8 ||| put h 6
  | .mocolLower d a b k h => 0xE4000015 ||| put d 21 ||| put a 16 ||| put b 11 ||| put k 8 ||| put h 6
  | .mocolSample d a b k h => 0xE4000016 ||| put d 21 ||| put a 16 ||| put b 11 ||| put k 8 ||| put h 6
  | .momv d a k h => 0xE4000018 ||| put d 21 ||| put a 16 ||| put k 8 ||| put h 6
  | .mold d a c k h => 0xE400001C ||| put d 21 ||| put a 16 ||| put c 11 ||| put k 8 ||| put h 6
  | .most d a c k h => 0xE400001D ||| put d 21 ||| put a 16 ||| put c 11 ||| put k 8 ||| put h 6
  | .tget d => 0xE8000000 ||| put d 21
  | .tlaunch d a => 0xE8002000 ||| put d 21 ||| put a 16
  | .tlaunchW d a => 0xE8003000 ||| put d 21 ||| put a 16
  | .gwait g => 0xE8008000 ||| put g 0
  | .gtest d g => 0xE8009000 ||| put d 21 ||| put g 0
  | .rstat d t p => 0xE800A000 ||| put d 21 ||| put t 2 ||| put p 0
  | .cpy a b n => 0xEC000000 ||| put a 16 ||| put b 11 ||| put n 4
  | .rgath a b n => 0xEC000001 ||| put a 16 ||| put b 11 ||| put n 4
  | .rscat a b n => 0xEC000002 ||| put a 16 ||| put b 11 ||| put n 4
  | .coll a b n => 0xEC000003 ||| put a 16 ||| put b 11 ||| put n 4
  | .pfxh a b n => 0xEC000004 ||| put a 16 ||| put b 11 ||| put n 4
  | .pfxlk a b n => 0xEC000005 ||| put a 16 ||| put b 11 ||| put n 4
  | .pfxins a b n => 0xEC000006 ||| put a 16 ||| put b 11 ||| put n 4
  | .pfxunpin a b n => 0xEC000007 ||| put a 16 ||| put b 11 ||| put n 4
  | .binit a b => 0xF0000000 ||| put a 16 ||| put b 11
  | .bexpect a b => 0xF0000001 ||| put a 16 ||| put b 11
  | .barrive a => 0xF0000002 ||| put a 16
  | .bexparr a b => 0xF0000003 ||| put a 16 ||| put b 11
  | .bwait d a b => 0xF0000004 ||| put d 21 ||| put a 16 ||| put b 11
  | .btest d a b => 0xF0000005 ||| put d 21 ||| put a 16 ||| put b 11
  | .susp d a b g => 0xF4000000 ||| put d 21 ||| put a 16 ||| put b 11 ||| put g 3
  | .mfs d s => 0xF8000000 ||| put d 21 ||| put s 0
  | .mts a s => 0xF8001000 ||| put a 16 ||| put s 0
  | .sys c => 0xF8002000 ||| put c 0
  | .brk c => 0xF8003000 ||| put c 0
  | .resm d a b => encodeResm d a b
  | .cdisc d a => encodeCdisc d a
  | .ret => 0xA0000002
  | .tdone => 0xE8001000
  | .tdoneC => 0xE8004000
  | .eret => 0xF8004000
  | .yield => 0xF8005000
  | .nop => 0xF800F000
  | .yieldWaitEnd => 0
  | .storePerform => 0
  | .wpollTimeout => 0
  | .wpollRemoteReread => 0
  | .fenceArrArrival => 0
  | .barriveEffect => 0
  | .mmaExecute => 0
  | .mmamoExecute => 0
  | .zclrExecute => 0
  | .zldExecute => 0
  | .zstExecute => 0
  | .wbFill => 0
  | .mcommitArrival => 0
  | .cpyExecute => 0
  | .rgathExecute => 0
  | .rscatExecute => 0
  | .collExecute => 0
  | .pfxhExecute => 0
  | .pfxlkExecute => 0
  | .pfxinsExecute => 0
  | .pfxunpinExecute => 0
  | .engineEntryComplete => 0
  | .remoteTimeout => 0
  | .vectorReplay => 0
  | .scrubPass => 0
  | .frameRetireStart => 0
  | .copyPassEnd => 0
  | .retireSwitchDone => 0
  | .qcfgWrite => 0
  | .qnotifyWrite => 0
  | .packetConsume => 0
  | .packetStart => 0
  | .barrierPacketComplete => 0
  | .signalPacket => 0
  | .launchAdmit => 0
  | .placeLaunch => 0
  | .taskFinish => 0
  | .deadlineMiss => 0
  | .tlbiPage => 0
  | .tlbiDataCtx => 0
  | .tlbiInstrCtx => 0
  | .tlbiAll => 0
  | .tlbiAck => 0
  | .lpartWrite => 0
  | .maxvlWrite => 0
  | .slotResume => 0
  | .slotPreempt => 0
  | .slotEnd => 0
  | .preemptSave => 0
  | .saveAbandon => 0
  | .systemCuttingResume => 0
  | .suspSectionWrite => 0
  | .watchdogExpire => 0
  | .dbgHaltWrite => 0
  | .threadHalted => 0
  | .dbgdataRead => 0
  | .dbgdataWrite => 0
  | .fqcfgWrite => 0
  | .faultRecordPost => 0
  | .mextGo => 0
  | .registerWrite => 0
  | .cxlMemRead => 0
  | .cxlMemWrite => 0
  | .linkModuleFail => 0
  | .flitReceive => 0
  | .remoteRequestReceive => 0
  | .trainSegmentReceive => 0
  | .remoteAckReceive => 0
  | .remoteRetryTimeout => 0
  | .responseCacheExpire => 0
  | .switchFatalError => 0
  | .planeProbeResult => 0
  | .quiesce => 0
  | .drained => 0
  | .pmapInstall => 0
  | .release => 0
  | .rehashDrainTimeout => 0
  | .fmStandbyTakeover => 0
  | .deviceStart => 0
  | .startTimeout => 0
  | .currentTrip => 0
  | .thermalThrottle => 0
  | .thermalShutdown => 0
  | .getVersion => 0
  | .getCapabilities => 0
  | .negotiateAlgorithms => 0
  | .getDigests => 0
  | .getCertificate => 0
  | .challenge => 0
  | .getMeasurements => 0
  | .mctpControl => 0
  | .vendorStatusRead => 0
  | .vectorWordComplete => 0
  | .illegalInstr => 0
  | .fetchFault => 0
  | .softError => 0
  | .portUp => 0
  | .islandClockChange => 0
  | .cxlCacheSnoop => 0

/-- The instruction the decoder reads from a word of spec/opcode_table.json, whose bit 0 is bit 0 of the word. A row that has
no word gives no bits. -/
noncomputable def decodeTableWord (nbits w : Nat) : Option Instr :=
  if nbits = 0 then none else
  match decodeBytes (bytesOfWord (BitVec.ofNat 32 w)) with
  | .ok (i, _) => some i
  | .error _ => none

end Sys2Proof
end

