-- ==== Sys2Proof/Word.lean ====
section
/-! DEFINITION. The word types and their plainest readings. -/

namespace Sys2Proof

/-- A scalar register or state register (R7, R11). -/
abbrev Word := BitVec 64

/-- A byte of memory. -/
abbrev Byte := BitVec 8

/-- A vector register at the largest VLEN, 16,384 bits (R2, R7). -/
abbrev VReg := BitVec 16384

/-- A mask register, two bits for each bit of VLEN (R7); a moment register, VLEN/32 pairs of FP32 (R7, R147); and a tile of
8 rows of 128 FP32 elements (R7) have the same size. -/
abbrev KReg := BitVec 32768

/-- A sparse table: key and value pairs, keys strictly rising, no pair holding the value an unlisted key reads as. -/
abbrev SMap (α : Type) := List (Nat × α)

/-- One or zero as a word. -/
def boolWord (b : Bool) : Word := if b then 1 else 0

end Sys2Proof
end

