-- ==== Sys2Proof/Config.lean ====
section
/-! DEFINITION. What an implementation fixes, and the free values: constants without a body, of which nothing can be proved but
what holds of every value. -/

namespace Sys2Proof.Config

/-- The choice among the codes inside the bound of a transcendental function (R52, R156, R157): function number, format code and
operand code. The KV-880 returns one value for each input and format, and the manual does not give it. (DESIGN CHOICE, log 8) -/
opaque transcendental : Nat → Nat → Nat → Nat

/-- The bytes of a signature, certificate chain or other answer whose contents no rule gives (R396, R399): request number. (DESIGN CHOICE, log 80) -/
opaque answer : Nat → Nat

/-- The certificate chain of the identity key, which flash holds (R396, R399). (DESIGN CHOICE, log 80) -/
opaque certificates : List (BitVec 8)

/-- The bits that a double-bit error or an uncorrectable mismatch leaves in the damaged place (R145, R360): counter of the
machine. (DESIGN CHOICE, log 80) -/
opaque damaged : Nat → Nat

/-- The island temperatures and power figures that a vendor status read returns (R400, R401): counter of the machine. (DESIGN CHOICE, log 80) -/
opaque sensor : Nat → Nat

/-- The digest the boot ROM, the firmware and the manifests have at a start (R397): which of them, and the start's number. (DESIGN CHOICE, log 80) -/
opaque digest : Nat → Nat → BitVec 256

/-- The pointer that the dispatcher writes into LINK of a TCB that waits (R222, R225): counter of the machine. (DESIGN CHOICE, log 30) -/
opaque link : Nat → Nat

/-- The microjoules that the activity model charges to an account for a stretch of time (R235): account and counter of the
machine. (DESIGN CHOICE, log 94) -/
opaque energy : Nat → Nat → Nat

/-- Device memory and the SRAM pool have no stated content after a start (R397); the model's unlisted byte is zero (DESIGN CHOICE, log 10). -/
def unlistedByte : Byte := 0

end Sys2Proof.Config
end

