-- ==== Sys2Proof/Machine/SMap.lean ====
section
/-! DEFINITION. Sparse tables: lookup, update and the canonical form. Registers, memory and the blocks of host registers are all
held this way, so that equal contents are equal data. -/

namespace Sys2Proof

variable {α : Type}

/-- The value at a key; an unlisted key reads as d. -/
def SMap.get (d : α) : SMap α → Nat → α
  | [], _ => d
  | (j, v) :: r, k => if j = k then v else SMap.get d r k

/-- The table without a key. -/
def SMap.erase : SMap α → Nat → SMap α
  | [], _ => []
  | (j, v) :: r, k => if j = k then SMap.erase r k else (j, v) :: SMap.erase r k

/-- The table with a pair put in front of the first larger key. -/
def SMap.insert : SMap α → Nat → α → SMap α
  | [], k, v => [(k, v)]
  | (j, u) :: r, k, v => if k < j then (k, v) :: (j, u) :: r else (j, u) :: SMap.insert r k v

/-- The table with a key set to a value. Setting the value an unlisted key reads as removes the key. -/
def SMap.set [DecidableEq α] (d : α) (m : SMap α) (k : Nat) (v : α) : SMap α :=
  if v = d then SMap.erase m k else SMap.insert (SMap.erase m k) k v

/-- Lookup without a default. -/
def SMap.find : SMap α → Nat → Option α
  | [], _ => none
  | (j, v) :: r, k => if j = k then some v else SMap.find r k

/-- Setting a key of a table in which every listed key counts. -/
def SMap.put (m : SMap α) (k : Nat) (v : α) : SMap α := SMap.insert (SMap.erase m k) k v

/-- Keys strictly rising. -/
def SMap.rising : SMap α → Bool
  | [] => true
  | (k, _) :: r => (match r with | [] => true | (j, _) :: _ => decide (k < j)) && SMap.rising r

/-- The canonical form: keys strictly rising and no pair holding the default. -/
def SMap.wf [DecidableEq α] (d : α) (m : SMap α) : Bool := SMap.rising m && m.all (fun p => decide (p.2 ≠ d))

/-- The listed keys. -/
def SMap.keys (m : SMap α) : List Nat := m.map Prod.fst

end Sys2Proof
end

