-- ==== Sys2Proof/Machine/State.lean ====
section
/-! DEFINITION. The state of the device: everything the manual gives the machine, as plain data. INVENTORY.md lists each field with
its rule. Fields marked MODEL are the model's own, not the manual's. -/

namespace Sys2Proof.Machine

/-- A stop of the step that is not a trap of the machine. -/
inductive Fault where
  /-- Raised by the step when the tape names an instruction word as a step of another agent. Safe: no such schedule exists. -/
  | turnIsNoEvent
  /-- Raised by the step when the tape hands the turn to a slot or role outside the device (R2). Safe: no such thread exists. -/
  | noSuchThread
deriving DecidableEq, Repr

/-- An instruction the model gives no meaning. -/
inductive Refusal where
  /-- Raised by the dispatch for an instruction that has no meaning in the model yet. Safe: nothing can be proved of its effect. -/
  | notModelled (mnemonic : String)
deriving DecidableEq, Repr

/-! ## A thread -/

/-- A stream register with its iterator (R108 to R110). `bound` says which bindings of a grafted chain it is bound to: bit 0 that to the
next kernel, bit 1 that to the one before (R290). -/
structure Stream where
  loaded : Bool
  desc : BitVec 512
  t : Nat
  bound : Nat
deriving DecidableEq, Repr

/-- A stream register no `sdld` has loaded (R109). -/
def Stream.empty : Stream := ⟨false, 0, 0, 0⟩

/-- An entry of the pending-fragment buffer (R130, R131). -/
structure Frag where
  outer : KReg
  fls : KReg
  pc : Word
  pend : Bool
deriving DecidableEq, Repr

/-- The state registers of one thread (R11, R14, R15, R40, R41, R149 to R151, R328, R329). CTXID, ACCT, SLOTCFG, PART and GROUPS
stand with the slot, ROLE is the thread's place, DEVTIME is the device's, MAXVL, CHKMODE and LPART are host registers. -/
structure SReg where
  vl : Word
  vtype : BitVec 16
  vstart : Word
  vlvalid : Word
  vlmax : Word
  fpctl : Word
  fpflags : Word
  mctl : Word
  mrho : Word
  mflags : Word
  tcause : Word
  tpc : Word
  tval : Word
  tval2 : Word
  torigin : Word
  tvec : Word
  tstat : Word
  taskid : Word
  instret : Word
  watch : SMap Word
  wstat : Word
deriving DecidableEq, Repr

/-- A damaged place of a register: class, number and pair of bits (R359). (DESIGN CHOICE, log 25) -/
structure Damage where
  cls : Nat
  num : Nat
  unit : Nat
deriving DecidableEq, Repr

/-- The stores of a thread that have no architectural name (R10, R100, R111, R129, R213, R345). `arr` holds the arrival count of a
group and, under 512 + group, the scope of its last arrival; `task` is the task the thread holds and `tpos` how many of the slot's
tasks it has taken (R227). -/
structure Hidden where
  srecAddr : Option Word
  srecStall : Nat
  lstart : Word
  lend : Word
  lcount : Nat
  lstream : Nat
  active : Bool
  rstack : List Word
  nspilled : Nat
  rsbase : Word
  frags : List Frag
  fspilled : Nat
  fsbase : Word
  exm : KReg
  arr : SMap Nat
  units : SMap Nat
  task : Option Nat
  tpos : Nat
  damaged : List Damage
deriving DecidableEq, Repr

/-- A store on its way to its home, or a class fence standing among the stores (R250, R255, R263). `bytes` holds location, mask
and data of each byte and `va` the virtual address of the first; `fence` is the class mask of a fence, `kind` 1 a `fence.rel` and 2 a
`fence.acq`; `sent` is the remote request it travels in: destination and number (R378). `upd` is the format of a scatter-add's update,
whose bytes are added at the home, and 0 for a store (R112, R377). (DEDUCED, log 6) -/
structure PStore where
  ser : Nat
  cls : Nat
  fence : BitVec 16
  kind : Nat
  upd : Nat
  bytes : List (Nat × Byte × Byte)
  task : Word
  va : Nat
  sent : Option (Nat × Nat)
deriving DecidableEq, Repr

/-- A barrier update of `barrive` or `bexparr` that waits for earlier stores (R281). -/
structure BarArr where
  bar : Nat
  exp : BitVec 32
  upto : Nat
deriving DecidableEq, Repr

/-- An arrival of `fence.arr` that waits for earlier stores (R214). -/
structure GroupArr where
  group : Nat
  upto : Nat
deriving DecidableEq, Repr

/-- A `tdone` or `tdone.c` that waits for earlier stores and commands (R228). -/
structure Finish where
  task : Option Nat
  leave : Bool
  upto : Nat
  pc : Word
deriving DecidableEq, Repr

/-- A thread that has executed `susp` and is draining (R338). -/
structure Suspend where
  addr : Nat
  mask : Word
  group : Nat
  dest : Nat
  pc : Word
deriving DecidableEq, Repr

/-- A vector, moment or `zmv` word in the replay queue with what it captured (R358). -/
structure Replay where
  word : BitVec 32
  vl : Word
  vtype : BitVec 16
  fpctl : Word
  mctl : Word
  mrho : Word
  exm : KReg
  chk : Bool
  task : Word
deriving DecidableEq, Repr

/-- What of a thread's work is still on its way. `whole` are the poisoned units that one vector store writes whole, by its `ser` and the
unit's first location (R363). `blocked` (MODEL) marks a thread whose last turn could do nothing but wait. -/
structure Pending where
  stores : List PStore
  whole : List (Nat × Nat)
  barArrs : List BarArr
  groupArrs : List GroupArr
  finishes : List Finish
  susp : Option Suspend
  replay : List Replay
  l1dMin : Nat
  wpollSince : Option Nat
  readyAt : Nat
  blocked : Bool
deriving DecidableEq, Repr

/-- One role thread, or the SOLO thread, of a slot (R7, R200). `live` is false once it has left the launch or before one is
placed; `halted` says that its issue is stopped by HALT (R334). -/
structure Thread where
  live : Bool
  halted : Bool
  pc : Word
  x : SMap Word
  v : SMap VReg
  k : SMap KReg
  m : SMap KReg
  cb : SMap (BitVec 256)
  s : SMap Stream
  sr : SReg
  hid : Hidden
  pnd : Pending
deriving DecidableEq, Repr

/-! ## A slot -/

/-- A slot of a ring with its tag (R206, R207). -/
structure RingSlot where
  data : VReg
  vl : Nat
  vtype : BitVec 16
  units : Nat
  committed : Bool
deriving DecidableEq, Repr

/-- A weight-buffer slot: the source record of R140, the bits it was filled with, and its poison mark. -/
structure WbSlot where
  issued : Bool
  desc : BitVec 256
  book : BitVec 256
  n : Nat
  elems : List Byte
  side : List Byte
  poison : Bool
deriving DecidableEq, Repr

/-- A weight-buffer slot that no `wbld` has named (R16). -/
def WbSlot.empty : WbSlot := ⟨false, 0, 0, 0, [], [], false⟩

/-- The outcome of an engine entry that has been performed: bytes written, and the error with its origin (R269, R279). -/
structure EntryDone where
  n : Nat
  cause : Nat
  origin : Nat
deriving DecidableEq, Repr

/-- What an entry of an engine queue does. -/
inductive EngOp where
  | cpy | rgath | rscat | coll | pfxh | pfxlk | pfxins | pfxunpin
  | mma | mmamo | zclr | zld | zst | wbfill | mcommit
  | marker
deriving DecidableEq, Repr

/-- A segment of a scatter's train: its elements as addresses and bytes, whether it is the last, and the counter of a TAIL (R273). -/
structure Segment where
  train : Nat
  num : Nat
  elems : List (Nat × List Byte)
  last : Bool
  tail : Option Nat
deriving DecidableEq, Repr

/-- An entry of an engine queue with what it captured at issue (R136, R142, R257, R268). A marker of `fence.q` has its QMASK in
`koff` and its number in `seq`. `start` is the cycle at which it came to the head of its queue, `prog` how many of its elements,
segments or keys have been done and `acc` the bytes or counts of them. `plan` are the segments a scatter sends, once it has translated
all its addresses (R273). `idle` (MODEL) says that its last step could only wait. -/
structure Entry where
  op : EngOp
  nr : Bool
  bar : Nat
  block : BitVec 1024
  role : Nat
  task : Word
  acct : Nat
  seq : Nat
  done : Option EntryDone
  z : Nat
  wb : Nat
  koff : Nat
  cls : Nat
  fmt : Nat
  vl : Nat
  vlvalid : Nat
  ftz : Bool
  rows : List KReg
  list : List Byte
  since : Nat
  start : Option Nat
  prog : Nat
  acc : Nat
  plan : List Segment
  idle : Bool
deriving DecidableEq, Repr

/-- The first failed MXQ event since the last `mcommit` (R143). -/
structure MxErr where
  cause : Nat
  origin : Nat
  seq : Nat
deriving DecidableEq, Repr

/-- SCTL.STATE (R322). -/
inductive SlotState where
  | free | running | stopped | stalled | saving
deriving DecidableEq, Repr

/-- A fault record before it is posted (R320). -/
structure FaultRec where
  cause : Nat
  rflags : Nat
  role : Nat
  word : BitVec 32
  tpc : Word
  tval : Word
  tval2 : Word
  torigin : Word
  vstart : Word
  devtime : Word
  acct : Nat
deriving DecidableEq, Repr

/-- Why a slot is saved: a host's PREEMPT, its watchdog, a `tlaunch.w` that waits, or an ungrafted chain (R351). -/
inductive SaveKind where
  | preempt | watchdog | waiter | ungraft
deriving DecidableEq, Repr

/-- What the roles of a slot share. `ths` holds the threads of the slot that are not in focus. `bound` is the launch and launch slot
its tasks are bound to (R227, R339), `taken` the tasks its load role or SOLO thread has taken (R227), `save` a save in progress,
`pending` the trap an ungrafted last kernel takes later (R294), and `postFault` says that the record waits for a host write to the
fault-queue block (R321). -/
structure Slot where
  st : SlotState
  cfg : Nat
  ctx : Nat
  acct : Nat
  part : BitVec 32
  groups : List Nat
  launch : Nat
  lslot : Nat
  bound : Option (Nat × Nat)
  taken : List Nat
  droot : Word
  iroot : Word
  cbase : Word
  cbound : Word
  chain : Option Nat
  ths : SMap Thread
  rings : SMap (List RingSlot)
  qports : SMap (List Word)
  z : SMap KReg
  zdirty : BitVec 16
  zpoison : BitVec 16
  wb : SMap WbSlot
  cpq : List Entry
  gsq : List Entry
  clq : List Entry
  mxq : List Entry
  pxq : List Entry
  seqs : SMap Nat
  out : SMap Nat
  mxerr : Option MxErr
  held : Option FaultRec
  posted : Bool
  postFault : Bool
  lastRole : Nat
  wdog : Nat
  save : Option SaveKind
  pending : Option FaultRec
  placedAt : Nat
  placedNs : Word
deriving DecidableEq, Repr

/-! ## The dispatcher -/

/-- A user-mode queue's registers (R216, R217), whether a VALID of 0 has stopped consumption until the next notify (R220), and the
number of its first packet since the last enable. -/
structure UQueue where
  qbase : Word
  qcfg : Word
  qrd : Word
  qnotify : Word
  qstat : Word
  qchg : Word
  wait : Bool
  first : Nat
deriving DecidableEq, Repr

/-- A queue after reset: WEIGHT reads 1 (R217). -/
def UQueue.reset : UQueue := ⟨0, 0x100, 0, 0, 0, 0, false, 0⟩

/-- A consumed launch packet (R218, R219). `phase`: 0 not started, 1 started, 2 complete, 3 failed. -/
structure Packet where
  queue : Nat
  index : Nat
  typ : Nat
  flags : Nat
  acct : Nat
  deadline : Word
  sig : Nat
  tcbs : List Nat
  arg0 : Nat
  arg1 : Word
  phase : Nat
  launches : List Nat
  status : Nat
  code : Nat
deriving DecidableEq, Repr

/-- A cutting that a `susp` is making (R338): its address, the members counted and those still outstanding, the sections written
(launch slot, offset, length, roles), the next free offset, and what the header gathers. -/
structure Cut where
  addr : Nat
  group : Nat
  members : List Nat
  left : List Nat
  written : List (Nat × Nat × Nat × Nat)
  next : Nat
  exportable : Bool
  vldep : Bool
deriving DecidableEq, Repr

/-- A launch (R222 to R225, R230, R234, R339, R348). `phase`: 0 offered, 1 admitted, 2 placed, 3 complete. `block` is the captured TCB
of a pool launch. `slots` are the slots it holds by launch slot, 1024 where that one is in a system cutting. `done` are the completed
phases and `arrived` the arrivals of each group; `gone` the threads (3 × launch slot + role) that have left. `cutting` is the cutting
a resumed launch is placed from, with OWNER's context or not, `orig` the launch its tasks are recorded in, `children` the launches
resumed from its own cuttings. `after` is the re-run that must complete first and `counted` says that a re-run is not reported again
(R294). `cause` is that of its first posted record, `ending` says that its threads have been stopped to end it (R322), and `takenOf` and
`posOf` keep the tasks its suspended slots took and how far each of their threads (3 × launch slot + role) had come in them. `translated`, `mode1`,
`minvl`, `maxvl` and `scrmin` are what the driver's notes say of its kernel (R173, R191, R193, R237), `admitted` its place in the order
of admission (R232). -/
structure Launch where
  phase : Nat
  ctx : Nat
  queue : Nat
  packet : Option Nat
  fromPool : Bool
  order : Nat
  acct : Nat
  dead : Bool
  deadline : Word
  abort : Bool
  missed : Bool
  cfg : Nat
  part : BitVec 32
  nslot : Nat
  cscope : Nat
  kdesc : BitVec 512
  argp : Word
  sig : Nat
  nograft : Bool
  tcbs : List Nat
  block : BitVec 1024
  tasks : List Nat
  slots : List Nat
  gtab : SMap (List Nat)
  done : SMap Nat
  arrived : SMap (List Nat)
  gone : List Nat
  status : Nat
  code : Nat
  cutting : Option Nat
  owner : Bool
  translated : Bool
  mode1 : Bool
  minvl : Nat
  maxvl : Nat
  scrmin : Nat
  admitted : Nat
  lmode : Nat
  vldep : Bool
  vlen : Nat
  ncol : Nat
  group : Nat
  orig : Option Nat
  children : List Nat
  suspN : SMap Nat
  cuts : SMap Cut
  collN : SMap Nat
  after : Option Nat
  counted : Bool
  cause : Nat
  ending : Bool
  takenOf : SMap (List Nat)
  posOf : SMap Nat
deriving DecidableEq, Repr

/-- A task: its TCB and its progress (R222, R225). `st` is the STATE code, `took` and `fin` the launch slots that took and finished it,
`finThr` the threads that finished it. `counted` says that a re-run has decremented its successors already (R294). -/
structure Task where
  launch : Nat
  tcb : Nat
  idx : Nat
  nsucc : Nat
  succ : Nat
  args : List Word
  count : Word
  mapnote : Nat
  st : Nat
  took : List Nat
  fin : List Nat
  finThr : List Nat
  counted : Bool
deriving DecidableEq, Repr

/-- A binding of a grafted chain: capacity, the elements placed and not yet consumed by their bit offset in T, each with its code and its
producer's TASKID, and how far the producer's and the consumer's words in progress have come, in stream positions (R290). `hurt` are the
places of elements whose storage is damaged (R360). -/
structure Binding where
  cap : Nat
  elided : Bool
  fmt : Nat
  items : SMap (Nat × Word)
  next : Nat
  taken : Nat
  prodReg : Nat
  consReg : Nat
  hurt : List Nat
deriving DecidableEq, Repr

/-- A grafted chain: its launches in chain order, the task of each that is grafted, and its bindings (R284, R289 to R296). -/
structure Chain where
  launches : List Nat
  tasks : List Nat
  binds : List Binding
deriving DecidableEq, Repr

/-- A sealed system cutting that waits to be placed again (R351, R353): the launch and launch slot it belongs to, its frame and address
and why it was made. `waits` are the re-runs it waits for and `pending` the trap taken on resume (R294). `rest` is what the dispatcher
keeps of the slot beside the cutting: its place in its launch, bindings, the engine entries put into the in-flight table, and each role's
place in the tasks and its finishes still waiting. (DESIGN CHOICE, log 37) -/
structure SysCut where
  launch : Nat
  lslot : Nat
  ctx : Nat
  frame : Nat
  addr : Nat
  kind : SaveKind
  order : Nat
  waits : List Nat
  pending : Option FaultRec
  rest : Slot
deriving DecidableEq, Repr

/-! ## Blocks of host registers -/

/-- The blocks the host has for a context: R249, R302, R319, R352. -/
structure CtxBlk where
  droot : Word
  iroot : Word
  cbase : Word
  cbound : Word
  pfx : SMap Word
  fqbase : Word
  fqcfg : Word
  fqwr : Word
  fqrd : Word
  savebase : Word
  savecfg : Word
  frames : List Nat
deriving DecidableEq, Repr

/-- A context block after reset. -/
def CtxBlk.reset : CtxBlk := ⟨0, 0, 0, 0, [], 0, 0, 0, 0, 0, 0, []⟩

/-- A thread's debug block (R333). `halted` is DBGSTAT.HALTED. -/
structure DbgBlk where
  halt : Bool
  sstep : Bool
  bkstop : Bool
  halted : Bool
  err : Bool
  sel : Word
  data : Word
deriving DecidableEq, Repr

/-- A debug block after reset. -/
def DbgBlk.reset : DbgBlk := ⟨false, false, false, false, false, 0, 0⟩

/-- A memory watch (R331). -/
structure MemWatch where
  addr : Word
  cfg : Word
  hits : Word
deriving DecidableEq, Repr

/-- A memory watch after reset: LOGLEN is 7. -/
def MemWatch.reset : MemWatch := ⟨0, 0x38, 0⟩

/-- A controller's retirement block (R366) and its frames' counts and remaps (R364, R367). `spare` keeps bits [63:16]. -/
structure Retire where
  cfg : Word
  spare : Word
  used : Nat
  st : Nat
  nospare : Bool
  frame : Nat
  ue : Word
  counts : SMap Nat
  waiting : List Nat
  marked : List Nat
  passes : Nat
  retired : List (Nat × Nat)
deriving DecidableEq, Repr

/-- A retirement block after reset: THRESH is 16. -/
def Retire.reset : Retire := ⟨16, 0, 0, 0, false, 0, 0, [], [], [], 0, []⟩

/-- What a home keeps of one source device's requests (R380): the window, cached old values with the time of the response, how many
segments and elements of each train are applied, and segments that came early. -/
structure Window where
  low : Nat
  marks : List Nat
  cache : SMap (Word × Nat)
  segs : SMap (Nat × Nat)
  early : List Segment
deriving DecidableEq, Repr

/-- A window before any request. -/
def Window.empty : Window := ⟨0, [], [], [], []⟩

/-- A remote request of this device that is not acknowledged, in the order of their issue; `sentAt` is the DEVTIME of the last
sending (R378, R379). `own` is 0 for a store and otherwise says which thread reads, `plane`, `port` and `gen` are the way it leaves by
and the generation of the map it leaves under (R374, R376), `len` its bytes from `pa`. -/
structure RemReq where
  dst : Nat
  seq : Nat
  plane : Nat
  port : Nat
  pa : Nat
  len : Nat
  own : Nat
  gen : Nat
  tries : Nat
  held : Bool
  sentAt : Nat
deriving DecidableEq, Repr

/-- The rehash of a pod: the dead planes, the generation, when its QUIESCE came, the devices that have reported DRAINED as far as this
one knows, itself included, and whether the new map is installed (R386, R387). -/
structure Rehash where
  planes : List Nat
  gen : Nat
  since : Nat
  drained : List Nat
  installed : Bool
deriving DecidableEq, Repr

/-- The fabric block (R374, R384) and the state of R378 to R388. `declared` are the planes this device's fabric manager has declared
dead (pod, plane), `deadPods` the pods with no surviving plane, and `reply` the last answer to a remote request. `manager` and
`second` are the devices that the system manifest names as fabric manager and standby, and `standby` says that the second one acts. -/
structure Fabric where
  live : BitVec 8
  rto : Word
  ports : SMap Word
  pmaps : SMap (BitVec 256)
  gens : SMap Nat
  rehash : SMap Rehash
  nextSeq : SMap Nat
  reqs : List RemReq
  windows : SMap Window
  suspects : List (Nat × Nat)
  deadDevs : List Nat
  deadPods : List Nat
  declared : List (Nat × Nat)
  crcFails : SMap Nat
  manager : Nat
  second : Nat
  standby : Bool
  reply : List Byte
deriving DecidableEq, Repr

/-- The identity and boot area (R393) and the state of the starts (R397, R398). `mextTo` and `mextLatch` are what an extend under way
works on; `powered` is false after a thermal power-down until the next start (R401). -/
structure Boot where
  devnum : Nat
  pod : Nat
  maxdev : Nat
  kind : Nat
  ready : Bool
  badacc : Bool
  fails : Nat
  rollback : Word
  prune : SMap Nat
  mreg : SMap (BitVec 256)
  mextIdx : Nat
  mextBusy : Bool
  mextData : BitVec 256
  mextTo : Nat
  mextLatch : BitVec 256
  powered : Bool
  starts : Nat
  pods : SMap Nat
deriving DecidableEq, Repr

/-- The management responder: what each port has negotiated, and the last answer given (R399, R400). -/
structure Mgmt where
  state : SMap Nat
  answer : List Byte
  eid : SMap Nat
deriving DecidableEq, Repr

/-- A translation held in a TLB: `core` is the core that holds it, or 256 + the die whose second-level TLB does (R243, R244). -/
structure TlbEntry where
  core : Nat
  ctx : Nat
  instr : Bool
  va : Nat
  size : Nat
  pa : Nat
  w : Bool
  uc : Bool
deriving DecidableEq, Repr

/-- A line of an L1 cache: its number, its bytes and the moment it was filled (R245, R247). -/
structure Line where
  core : Nat
  ctx : Nat
  line : Nat
  data : BitVec 512
  ser : Nat
deriving DecidableEq, Repr

/-! ## The schedule -/

/-- The operands of a step without a word, supplied with its turn. Each step reads the ones its docstring in Machine/ names.
(DESIGN CHOICE, log 13) -/
structure EvArg where
  slot : Nat
  role : Nat
  idx : Nat
  num : Nat
  len : Nat
  ok : Bool
  ok2 : Bool
  val : Word
  val2 : Word
  big : BitVec 256
  nats : List Nat
  pairs : List (Nat × Nat)
  bytes : List Byte
  parts : List (Nat × List Byte)
deriving DecidableEq, Repr

/-- Operands that are all zero. -/
def EvArg.zero : EvArg := ⟨0, 0, 0, 0, 0, false, false, 0, 0, 0, [], [], [], []⟩

/-- One turn of the machine's agents and of its environment (MODEL, DESIGN CHOICE, log 1). -/
inductive Turn where
  /-- The thread of a role of a slot takes its next instruction. -/
  | thread (slot role : Nat)
  /-- A step without a word takes place. -/
  | event (i : Instr) (a : EvArg)
  /-- A core keeps a translation it has walked (R244). -/
  | tlbFill (slot : Nat) (instr : Bool) (va : Nat)
  /-- A kept translation is dropped. -/
  | tlbDrop (idx : Nat)
  /-- A core fills an L1D line (R245). -/
  | l1dFill (core line : Nat)
  /-- A core drops an L1D line. -/
  | l1dDrop (core line : Nat)
  /-- A core fills an L1I line for a context (R247). -/
  | l1iFill (core ctx line : Nat)
  /-- A core drops an L1I line. -/
  | l1iDrop (core ctx line : Nat)
  /-- Time passes: picoseconds. -/
  | elapse (ps : Nat)
deriving DecidableEq, Repr

/-! ## The device -/

/-- The clock of an island (R401): its frequency in MHz since a moment in picoseconds, and the millionths of a cycle counted before. -/
structure Island where
  mhz : Nat
  acc : Nat
  since : Nat
deriving DecidableEq, Repr

/-- An island after reset. -/
def Island.reset : Island := ⟨3000, 0, 0⟩

/-- What the whole device holds. `psec` are the picoseconds beyond DEVTIME. `tlbiFor` is what the invalidation under way covers: address
and context (R249). `served` is by core and queue (8 × core + queue) 1 + the slot whose entry the engine made a step of last (R266). -/
structure Device where
  mem : List Host.Cell
  poison : SMap Bool
  l1d : List Line
  l1i : List Line
  tlb : List TlbEntry
  ser : Nat
  devtime : Word
  psec : Nat
  slots : SMap Slot
  queues : SMap UQueue
  packets : SMap Packet
  launches : SMap Launch
  tasks : SMap Task
  nextId : Nat
  chains : SMap Chain
  sysCuts : SMap SysCut
  graftEn : Bool
  graftCnt : SMap Word
  acnt : SMap Word
  ctxs : SMap CtxBlk
  tlbiVa : Word
  tlbiCtx : Word
  tlbiKind : Nat
  tlbiBusy : Bool
  tlbiDone : Bool
  tlbiFor : Nat × Nat
  swdog : SMap Nat
  dbg : SMap DbgBlk
  mwatch : SMap MemWatch
  ras : SMap Word
  retire : SMap Retire
  maxvl : SMap Word
  chk : SMap Bool
  lpart : SMap Nat
  fab : Fabric
  boot : Boot
  mgmt : Mgmt
  msix : SMap Bool
  islands : SMap Island
  linkMods : Nat
  hostData : List Byte
  collN : SMap Nat
  served : SMap Nat
  arg : EvArg
  fresh : Nat
  sched : List Turn
deriving DecidableEq, Repr

/-- The machine. The thread whose turn it is stands unpacked in `thr`, its slot in `slot`; `cur` says which they are
(slot number 2 × core + slot, role). (DESIGN CHOICE, log 81) -/
structure State where
  cur : Nat × Nat
  thr : Thread
  slot : Slot
  dev : Device
deriving DecidableEq, Repr

/-! ## Start states -/

/-- All ones. -/
def allOnes : KReg := BitVec.allOnes 32768

/-- The state registers at the start of a thread (R11, R16). -/
def SReg.start : SReg :=
  { vl := 0, vtype := 0, vstart := 0, vlvalid := 0, vlmax := 0, fpctl := 0, fpflags := 0, mctl := 0, mrho := 0, mflags := 0,
    tcause := 0, tpc := 0, tval := 0, tval2 := 0, torigin := 0, tvec := 0, tstat := 0, taskid := 0, instret := 0,
    watch := [], wstat := 0 }

/-- The hidden stores at the start of a thread (R88, R100, R111, R129, R213). -/
def Hidden.start : Hidden :=
  { srecAddr := none, srecStall := 0, lstart := 0, lend := 0, lcount := 0, lstream := 0, active := false, rstack := [],
    nspilled := 0, rsbase := 0, frags := [], fspilled := 0, fsbase := 0, exm := allOnes, arr := [], units := [], task := none,
    tpos := 0, damaged := [] }

/-- Nothing on its way. -/
def Pending.none : Pending :=
  { stores := [], whole := [], barArrs := [], groupArrs := [], finishes := [], susp := .none, replay := [], l1dMin := 0,
    wpollSince := .none, readyAt := 0, blocked := false }

/-- A thread that is not there. -/
def Thread.absent : Thread :=
  { live := false, halted := false, pc := 0, x := [], v := [], k := [], m := [], cb := [], s := [], sr := SReg.start,
    hid := Hidden.start, pnd := Pending.none }

/-- A slot that holds no thread. -/
def Slot.free : Slot :=
  { st := .free, cfg := 0, ctx := 0, acct := 0, part := 0, groups := [], launch := 0, lslot := 0, bound := none, taken := [], droot := 0, iroot := 0,
    cbase := 0, cbound := 0, chain := none, ths := [], rings := [], qports := [], z := [], zdirty := 0, zpoison := 0, wb := [],
    cpq := [], gsq := [], clq := [], mxq := [], pxq := [], seqs := [], out := [], mxerr := none, held := none, posted := false, postFault := false,
    lastRole := 2, wdog := 0, save := none, pending := none, placedAt := 0, placedNs := 0 }

/-- The fabric after reset: every plane alive, FAB_RTO 16 µs and 3 attempts, ports down, default maps (R374, R384). -/
def Fabric.reset : Fabric :=
  { live := 0xFF, rto := 0x30010, ports := [], pmaps := [], gens := [], rehash := [], nextSeq := [], reqs := [], windows := [],
    suspects := [], deadDevs := [], deadPods := [], declared := [], crcFails := [], manager := 0, second := 0, standby := false, reply := [] }

/-- The identity and boot area right after reset (R393, R397). The manifest's values are named in DESIGN CHOICE, log 12. -/
def Boot.reset : Boot :=
  { devnum := 0, pod := 0, maxdev := 0, kind := 0, ready := false, badacc := false, fails := 0, rollback := 0, prune := [],
    mreg := [], mextIdx := 0, mextBusy := false, mextData := 0, mextTo := 0, mextLatch := 0, powered := true, starts := 0, pods := [] }

/-- The device right after reset. -/
def Device.reset : Device :=
  { mem := [], poison := [], l1d := [], l1i := [], tlb := [], ser := 0, devtime := 0, psec := 0, slots := [], queues := [],
    packets := [], launches := [], tasks := [], nextId := 1, chains := [], sysCuts := [], graftEn := true, graftCnt := [], acnt := [], ctxs := [],
    tlbiVa := 0, tlbiCtx := 0, tlbiKind := 0, tlbiBusy := false, tlbiDone := false, tlbiFor := (0, 0), swdog := [], dbg := [], mwatch := [],
    ras := [], retire := [], maxvl := [], chk := [], lpart := [], fab := Fabric.reset, boot := Boot.reset, mgmt := ⟨[], [], []⟩,
    msix := [], islands := [], linkMods := 2, hostData := [], collN := [], served := [], arg := EvArg.zero, fresh := 0, sched := [] }

/-- The machine right after reset: no thread is placed on any slot (R16: a thread's state begins at its launch). (DESIGN CHOICE, log 9) -/
def State.reset : State :=
  { cur := (0, 1), thr := Thread.absent, slot := Slot.free, dev := Device.reset }

end Sys2Proof.Machine
end

