-- ==== Sys2Proof/Machine/Bits.lean ====
section
/-! DEFINITION. Bit fields, sign extension, byte order (R4, R34) and elements of registers (R34). -/

namespace Sys2Proof.Machine

/-- Bits [lo+len-1 : lo] of a number. -/
def bits (n lo len : Nat) : Nat := (n >>> lo) % 2 ^ len

/-- One bit of a number. -/
def bit (n i : Nat) : Bool := n.testBit i

/-- A number with bits [lo+len-1 : lo] replaced. -/
def setBits (n lo len v : Nat) : Nat := n - (bits n lo len <<< lo) + ((v % 2 ^ len) <<< lo)

/-- A number of w bits read in two's complement. -/
def toSigned (w n : Nat) : Int := if 2 * n < 2 ^ w then n else (n : Int) - 2 ^ w

/-- The low w bits of an integer. -/
def ofSigned (w : Nat) (i : Int) : Nat := (i % (2 ^ w : Int)).toNat

/-- A number of w bits sign-extended to a word. -/
def sextWord (w n : Nat) : Word := BitVec.ofInt 64 (toSigned w n)

/-- Rounded up to a multiple. -/
def roundUp (n m : Nat) : Nat := if m = 0 then n else (n + m - 1) / m * m

/-- Rounded-up quotient. -/
def ceilDiv (n m : Nat) : Nat := if m = 0 then 0 else (n + m - 1) / m

/-- The smallest power of two that is at least n and at least 1, for n up to 2 ^ 16. -/
def pow2AtLeast (n : Nat) : Nat := if n ≤ 1 then 1 else 2 ^ (Nat.log2 (n - 1) + 1)

/-- The largest power of two that is at most n; 0 for 0. -/
def pow2AtMost (n : Nat) : Nat := if n = 0 then 0 else 2 ^ Nat.log2 n

/-- The little-endian number of a list of bytes (R4). -/
def leNat : List Byte → Nat
  | [] => 0
  | b :: r => b.toNat + 256 * leNat r

/-- The n little-endian bytes of a number (R4). -/
def leBytes : Nat → Nat → List Byte
  | 0, _ => []
  | n + 1, v => BitVec.ofNat 8 v :: leBytes n (v / 256)

/-- Field of a little-endian block: n bytes from byte lo. -/
def bfield (blk : Nat) (lo n : Nat) : Nat := bits blk (8 * lo) (8 * n)

/-- Element i of width ew of a bit string (R34). -/
def elemOf (r : Nat) (ew i : Nat) : Nat := bits r (ew * i) ew

/-- Folding over 0 .. n-1. -/
def loop {α : Type} (f : Nat → α → α) : Nat → α → α
  | 0, a => a
  | n + 1, a => f n (loop f n a)

/-- The list lo, lo+1, .., lo+n-1. -/
def upFrom : Nat → Nat → List Nat
  | _, 0 => []
  | lo, n + 1 => lo :: upFrom (lo + 1) n

/-- A word from a number. -/
def w64 (n : Nat) : Word := BitVec.ofNat 64 n

/-- Addition that stops at 2 ^ 64 - 1 (R217, R235, R365). -/
def satAdd (a : Word) (n : Nat) : Word := w64 (min (a.toNat + n) (2 ^ 64 - 1))

end Sys2Proof.Machine
end

