-- ==== Sys2Proof/Machine/Memory.lean ====
section
/-! DEFINITION. Memory below the instructions: locations, the page walk, translation, the L1 caches, poison, and the home of a
byte (R19, R238 to R250, R363, R391 to R393). -/

namespace Sys2Proof.Machine

/-! ## Trap causes by their codes (R26) -/

/-- LOAD_TRANSLATION. -/
abbrev cLoad : Nat := 0x0A
/-- STORE_TRANSLATION. -/
abbrev cStore : Nat := 0x0B
/-- ALIGNMENT. -/
abbrev cAlign : Nat := 0x0C
/-- ACCESS_RIGHTS. -/
abbrev cRights : Nat := 0x0D
/-- DATA_LOSS. -/
abbrev cLoss : Nat := 0x30

/-! ## Bytes at their homes -/

/-- Base of the scratchpad window (R238). -/
def scrBase : Nat := 0x000FF00000000000

/-- The location of a byte of a slot's scratchpad. Locations below 2 ^ 63 are global physical addresses (R240). -/
def scratchKey (slot off : Nat) : Nat := 2 ^ 63 + slot * 2 ^ 32 + off

/-- The location is in a scratchpad. -/
def isScratch (key : Nat) : Bool := decide (2 ^ 63 ≤ key)

/-- Where a controller's remaps send an access to a retired frame, in the order they were installed; a spare may be retired too
(R367). Frames are given by their first address. -/
def remapFrame : List (Nat × Nat) → Nat → Nat
  | [], k => k
  | (f, sp) :: r, k => remapFrame r (if k / 65536 = f / 65536 then sp + k % 65536 else k)

/-- The place that holds a location now. -/
def homeKey (d : Device) (key : Nat) : Nat :=
  d.retire.foldl (fun k p => remapFrame p.2.retired k) key

/-- One byte at its home. -/
def readByte (d : Device) (key : Nat) : Byte := SMap.get Config.unlistedByte d.mem (homeKey d key)

/-- A write to a frame that is being retired marks its line of 128 bytes (R367). (DEDUCED, log 67) -/
def markLine (base key : Nat) (r : Retire) : Retire :=
  let ln := key % 65536 / 128
  if r.st = 0 || key / 65536 != base / 65536 + r.frame || r.marked.contains ln then r else { r with marked := ln :: r.marked }

/-- One byte written at its home. The place the write reaches, after the remaps, is the one whose line is marked (R367, R368). -/
def writeByte (d : Device) (key : Nat) (b : Byte) : Device :=
  { d with
    mem := SMap.set Config.unlistedByte d.mem (homeKey d key) b
    retire := d.retire.map (fun p => (p.1, markLine (d.boot.devnum * 2 ^ 48) (homeKey d key) p.2)) }

/-- Bytes from a location upward. -/
def readBytes (d : Device) (key n : Nat) : List Byte := (upFrom key n).map (readByte d)

/-- A little-endian number from a location. -/
def readNat (d : Device) (key n : Nat) : Nat := leNat (readBytes d key n)

/-- A list of bytes written from a location upward. -/
def writeBytes : Device → Nat → List Byte → Device
  | d, _, [] => d
  | d, key, b :: r => writeBytes (writeByte d key b) (key + 1) r

/-- The unit of a location that a poison mark covers: a 64-byte granule of device memory (R363), 64 data bits of a scratchpad
(R360). -/
def poisonSize (key : Nat) : Nat := if isScratch key then 8 else 64

/-- The number of that unit at its home. -/
def poisonUnit (d : Device) (key : Nat) : Nat := homeKey d key / poisonSize key

/-- The location's unit is poisoned. -/
def poisoned (d : Device) (key : Nat) : Bool := SMap.get false d.poison (poisonUnit d key)

/-- The units that have all their bytes among the given keys lose their mark (R363: a store that writes every byte of the
granule clears it). -/
def clearPoison (d : Device) (keys : List Nat) : Device :=
  if d.poison.isEmpty then d else
  keys.foldl (fun d k =>
    if k % poisonSize k = 0 ∧ (upFrom k (poisonSize k)).all (fun j => keys.contains j) then
      { d with poison := SMap.set false d.poison (poisonUnit d k) false } else d) d

/-! ## Physical addresses -/

/-- What a global physical address names (R240). -/
inductive PaKind where
  | devMem | hostMem | mmio | remote | never
deriving DecidableEq, Repr

/-- The device number of a physical address. -/
def paDev (pa : Nat) : Nat := bits pa 48 15

/-- The local address of a physical address. -/
def paLocal (pa : Nat) : Nat := bits pa 0 48

/-- R240, seen from this device. -/
def paKind (d : Device) (pa : Nat) : PaKind :=
  let dn := paDev pa
  let l := paLocal pa
  if d.boot.maxdev < dn then .never
  else if l < 2 ^ 40 then (if dn = d.boot.devnum then .devMem else .remote)
  else if dn ≠ d.boot.devnum then .never
  else if 0x800000000000 ≤ l ∧ l < 0xC00000000000 then .hostMem
  else if 0xF00000000000 ≤ l ∧ l < 0xF00100000000 then .mmio
  else .never

/-- A physical address in this device's own memory. -/
def isLocalDev (d : Device) (pa : Nat) : Bool := paKind d pa = .devMem

/-! ## Walks and translation -/

/-- A translation: physical address of the byte, page size, W, and memory type (R241). -/
structure Trans where
  pa : Nat
  size : Nat
  w : Bool
  mt : Nat
deriving DecidableEq, Repr

/-- The page size of a leaf at a level (R241). -/
def pageSize (level : Nat) : Nat := 2 ^ (16 + 9 * level)

/-- Why a walk gives no translation: an entry lies in a poisoned granule (R363), or step 1 of R242. -/
inductive WalkEnd where
  | poisoned | invalid
deriving DecidableEq, Repr

/-- One level of the walk of R241 and its failures of step 1 of R242; level 0 is the last. -/
def walkFrom (d : Device) (va : Nat) : Nat → Nat → Except WalkEnd Trans
  | level, table =>
    let ea := table + 8 * bits va (16 + 9 * level) 9
    let e := readNat d ea 8
    let pa := bits e 12 51 * 4096
    if !isLocalDev d table then .error .invalid
    else if poisoned d ea then .error .poisoned
    else if !bit e 0 || bits e 5 7 ≠ 0 || bit e 63 then .error .invalid
    else if bit e 1 then
      if level = 3 || pa % pageSize level ≠ 0 then .error .invalid
      else .ok ⟨pa + va % pageSize level, pageSize level, bit e 2, bits e 3 2⟩
    else match level with
      | 0 => .error .invalid
      | n + 1 => walkFrom d va n pa

/-- The data walk from a root (R241). -/
def walkData (d : Device) (root : Word) (va : Nat) : Except WalkEnd Trans := walkFrom d va 3 (bits root.toNat 12 51 * 4096)

/-- The instruction walk: a leaf must lie at level 1, with W = 0, MT = 0 and a local frame (R248). -/
def walkInstr (d : Device) (root : Word) (va : Nat) : Option Trans :=
  match walkFrom d va 3 (bits root.toNat 12 51 * 4096) with
  | .ok t => if t.size = pageSize 1 ∧ t.w = false ∧ t.mt = 0 ∧ isLocalDev d t.pa then some t else none
  | .error _ => none

/-- The second-level TLB of a core's die, among the holders of translations (R1, R244). -/
def dieTlb (core : Nat) : Nat := 256 + core / 32

/-- A translation a holder has for a context. -/
def tlbIn (d : Device) (holder ctx : Nat) (instr : Bool) (va : Nat) : Option Trans :=
  match d.tlb.find? (fun e => e.core = holder ∧ e.ctx = ctx ∧ e.instr = instr ∧ e.va ≤ va ∧ va < e.va + e.size) with
  | some e => some ⟨e.pa + (va - e.va), e.size, e.w, if e.uc then 1 else 0⟩
  | none => none

/-- A translation held for a core: in its own TLB, or in the second-level one of its die (R244). -/
def tlbFind (d : Device) (core ctx : Nat) (instr : Bool) (va : Nat) : Option Trans :=
  (tlbIn d core ctx instr va).or (tlbIn d (dieTlb core) ctx instr va)

/-- Who makes an access: a thread, an engine of the slot, or the dispatcher, save sequencer and fault queue in a context. -/
inductive Who where
  | thread | engine | system
deriving DecidableEq, Repr

/-- Where a translated byte lies. -/
structure Loc where
  key : Nat
  kind : PaKind
  cached : Bool
deriving DecidableEq, Repr

/-- Steps 1 to 3 of R242 for one byte, and R392 for device registers: the location, or the cause. A poisoned entry is
LOAD_TRANSLATION for a store too (R363). -/
def checkPa (d : Device) (who : Who) (store : Bool) : Except WalkEnd Trans → Except Nat Loc
  | .error .poisoned => .error cLoad
  | .error .invalid => .error (if store then cStore else cLoad)
  | .ok t =>
    if store && !t.w then .error cRights
    else if t.mt ≥ 2 then .error cRights
    else match paKind d t.pa with
      | .never => .error cRights
      | .mmio =>
        if t.mt = 1 ∧ who = .thread ∧ store = false ∧ t.pa % 2 ^ 32 < 0x10000 then .ok ⟨t.pa, .mmio, false⟩ else .error cRights
      | k => .ok ⟨t.pa, k, t.mt = 0⟩

/-- The data address check and translation of one byte for a slot (R19, R238, R242). `scru` is the granted scratchpad in units
of 64 KiB; it is 0 for an access in a context alone, for which every address of the window is past the grant and is not walked. -/
def xlate (d : Device) (who : Who) (slot ctx : Nat) (droot : Word) (scru : Nat) (store : Bool) (va : Nat) : Except Nat Loc :=
  if 2 ^ 52 ≤ va then .error (if store then cStore else cLoad)
  else if scrBase ≤ va ∧ va < scrBase + 2 ^ 24 then
    if va - scrBase < scru * 65536 then .ok ⟨scratchKey slot (va - scrBase), .devMem, false⟩ else .error cRights
  else checkPa d who store
    (match tlbFind d (slot / 2) ctx false va with
     | some t => .ok t
     | none => walkData d droot va)

/-- Each byte of a range translated in ascending order; the first failure with its cause and address. -/
def xlateAll (f : Nat → Except Nat Loc) : Nat → Nat → Except (Nat × Nat) (List Loc)
  | _, 0 => .ok []
  | va, n + 1 =>
    match f va with
    | .error c => .error (c, va)
    | .ok l =>
      match xlateAll f (va + 1) n with
      | .error e => .error e
      | .ok r => .ok (l :: r)

/-- Which check of R91 a byte fails: 1 the address check, 2 translation, 3 rights. -/
def failStep (c va : Nat) : Nat := if 2 ^ 52 ≤ va then 1 else if c = cLoad || c = cStore then 2 else 3

/-- The failure an access reports among those of its bytes: the earliest check of R91 that a byte fails, at the lowest byte that fails
it (R91, R104). -/
def firstFailure (f : Nat → Except Nat Loc) (va n : Nat) : Option (Nat × Nat) :=
  let bad := (upFrom va n).filterMap (fun a => match f a with | .error c => some (c, a) | .ok _ => none)
  [1, 2, 3].findSome? (fun k => bad.find? (fun e => failStep e.1 e.2 = k))

/-- The bytes of a range translated with the checks in the order of R91: all of them, or the failure reported. -/
def xlateBytes (f : Nat → Except Nat Loc) (va n : Nat) : Except (Nat × Nat) (List Loc) :=
  match xlateAll f va n with
  | .ok l => .ok l
  | .error e => .error ((firstFailure f va n).getD e)

/-! ## The identity and boot area as device code and the host read it (R392, R393) -/

/-- The doubleword at an offset of the identity and boot area. -/
def identRead (b : Boot) (off : Nat) : Nat :=
  if off = 0 then b.devnum + b.pod * 2 ^ 15 + b.maxdev * 2 ^ 23
  else if off = 8 then b.kind + (if b.ready then 4 else 0) + (if b.badacc then 8 else 0) + b.fails * 16
  else if off = 0x10 then b.rollback.toNat
  else if 0x100 ≤ off ∧ off < 0x500 then
    let c := (off - 0x100) / 4
    SMap.get 15 b.prune c + SMap.get 15 b.prune (c + 1) * 2 ^ 32
  else if 0x1000 ≤ off ∧ off < 0x1200 then
    bits (SMap.get 0 b.mreg ((off - 0x1000) / 32)).toNat (8 * ((off - 0x1000) % 32)) 64
  else if off = 0x1200 then b.mextIdx + (if b.mextBusy then 16 else 0)
  else if 0x1220 ≤ off ∧ off < 0x1240 then bits b.mextData.toNat (8 * (off - 0x1220)) 64
  else 0

/-- A byte of the identity and boot area. -/
def identByte (b : Boot) (off : Nat) : Byte := BitVec.ofNat 8 (bits (identRead b (off / 8 * 8)) (8 * (off % 8)) 8)

/-! ## L1 data cache (R245) -/

/-- The line of a core that holds a location and was filled at or after a moment. -/
def l1dFind (d : Device) (core key since : Nat) : Option Line :=
  d.l1d.find? (fun l => l.core = core ∧ l.line = key / 64 ∧ since ≤ l.ser)

/-- A byte of a line. -/
def lineByte (l : Line) (key : Nat) : Byte := BitVec.ofNat 8 (bits l.data.toNat (8 * (key % 64)) 8)

/-- A store updates the line a core holds of its location and allocates none (R245). -/
def l1dUpdate (d : Device) (core key : Nat) (mask data : Byte) : Device :=
  { d with l1d := d.l1d.map (fun l =>
      if l.core = core ∧ l.line = key / 64 then
        let old := lineByte l key
        { l with data := BitVec.ofNat 512 (setBits l.data.toNat (8 * (key % 64)) 8 ((old &&& ~~~mask) ||| (data &&& mask)).toNat) }
      else l) }

/-- Every line of a core dropped (R245). -/
def l1dDropAll (d : Device) (core : Nat) : Device := { d with l1d := d.l1d.filter (fun l => l.core ≠ core) }

end Sys2Proof.Machine
end

