-- ==== Sys2Proof/Machine/Ops.lean ====
section
/-! DEFINITION. The operations that instructions share: which thread is in focus, reading and writing registers and ports, taking
a trap and returning from one, retiring an instruction, waiting, and the checks on every word (R7 to R26, R58 to R61, R74,
R204 to R209, R317, R318). -/

namespace Sys2Proof.Machine

/-! ## Focus -/

/-- The device with the thread and slot in focus put back among the others. -/
def park (s : State) : Device :=
  let sl := { s.slot with ths := SMap.set Thread.absent s.slot.ths s.cur.2 s.thr }
  { s.dev with slots := SMap.set Slot.free s.dev.slots s.cur.1 sl }

/-- The thread of a role of a slot taken out of a parked device. -/
def unpark (d : Device) (slot role : Nat) : State :=
  let sl := SMap.get Slot.free d.slots slot
  { cur := (slot, role)
    thr := SMap.get Thread.absent sl.ths role
    slot := { sl with ths := SMap.erase sl.ths role }
    dev := { d with slots := SMap.erase d.slots slot } }

/-- The same machine with another thread in focus. -/
def focus (s : State) (slot role : Nat) : State :=
  if s.cur = (slot, role) then s else unpark (park s) slot role

/-- A change made with another thread in focus. -/
def within (slot role : Nat) (f : State → State) (s : State) : State := focus (f (focus s slot role)) s.cur.1 s.cur.2

/-- A slot, wherever it stands, with all its threads. -/
def slotAt (s : State) (n : Nat) : Slot := SMap.get Slot.free (park s).slots n

/-- The threads of the slot in focus, by role. -/
def threadAt (s : State) (role : Nat) : Thread := if role = s.cur.2 then s.thr else SMap.get Thread.absent s.slot.ths role

/-- The core of the slot in focus. -/
def coreOf (s : State) : Nat := s.cur.1 / 2

/-! ## Clocks (R11, R401) -/

/-- The time in picoseconds. -/
def nowPs (d : Device) : Nat := d.devtime.toNat * 1000 + d.psec

/-- The island of a core pair. -/
def islandAt (d : Device) (i : Nat) : Island := SMap.get Island.reset d.islands i

/-- The cycles that an island's clock has counted, in millionths. -/
def tickCount (d : Device) (i : Nat) : Nat := (islandAt d i).acc + (nowPs d - (islandAt d i).since) * (islandAt d i).mhz

/-- The cycles that the clock of a slot's island has counted. -/
def cyclesAt (d : Device) (slot : Nat) : Nat := tickCount d (slot / 4) / 1000000

/-- The cycles of the thread in focus. -/
def cycNow (s : State) : Nat := cyclesAt s.dev s.cur.1

/-! ## Geometry of a core (R2, R133, R201, R202, R394) -/

/-- The core has a pruned lane group (R393). -/
def isPruned (d : Device) (core : Nat) : Bool := SMap.get 15 d.boot.prune core != 15

/-- LPART.MODE of a core (R201). -/
def laneMode (d : Device) (core : Nat) : Nat := SMap.get 0 d.lpart core

/-- Hardware maximum VLEN (R202). -/
def hwMaxVl (d : Device) (core : Nat) : Nat := if isPruned d core then 8192 else 16384

/-- Output columns N of a slot (R133). -/
def columns (d : Device) (core : Nat) : Nat := if isPruned d core || laneMode d core = 1 then 64 else 128

/-- MAXVL in force for a slot (R394). -/
def maxVlInForce (d : Device) (slot : Nat) : Nat := pow2AtMost (max (SMap.get 16384 d.maxvl slot).toNat 512)

/-- VLEN chosen by a partition word (R236). -/
def partVlen (part : Nat) : Nat := 512 * 2 ^ bits part 0 3

/-- Configured tiles of a partition word (R236). -/
def partTiles (part : Nat) : Nat := 4 * 2 ^ bits part 3 2

/-- Staging bytes of a partition word (R236). -/
def partStaging (part : Nat) : Nat := match bits part 5 2 with | 0 => 0 | 1 => 16384 | 2 => 65536 | _ => 262144

/-- A slot's VLMAX as R237 gives it, against the MAXVL in force. -/
def slotVlmax (d : Device) (slot part : Nat) : Nat := min (partVlen part) (min (maxVlInForce d slot) (hwMaxVl d (slot / 2)))

/-- Granted scratchpad of the slot in focus, in units of 64 KiB (R236). -/
def scru (s : State) : Nat := bits s.slot.part.toNat 16 16

/-! ## VTYPE (R27, R95) -/

/-- Element width of a format code; 0 for a code that names no format (R27). -/
def fmtEw (f : Nat) : Nat :=
  if f = 1 ∨ f = 2 ∨ f = 12 ∨ f = 13 then 8
  else if f = 3 ∨ f = 4 ∨ f = 10 ∨ f = 11 then 16
  else if f = 5 ∨ f = 6 ∨ f = 9 then 32
  else if f = 7 ∨ f = 8 then 64
  else if f = 14 ∨ f = 15 then 6
  else if f = 16 ∨ f = 17 ∨ f = 18 ∨ f = 19 then 4
  else 0

/-- The format is an integer format with a sign (R32). -/
def fmtSigned (f : Nat) : Bool := f = 1 || f = 3 || f = 5 || f = 7 || f = 17

/-- The format is an integer format (R27). -/
def fmtInt (f : Nat) : Bool := (1 ≤ f && f ≤ 8) || f = 17 || f = 18

/-- The format is FP32, BF16 or FP16. -/
def fmtFloat (f : Nat) : Bool := f = 9 || f = 10 || f = 11

/-- VTYPE.FMT. -/
def vtFmt (t : BitVec 16) : Nat := bits t.toNat 0 5
/-- The group factor VTYPE.GRP names. -/
def vtGrp (t : BitVec 16) : Nat := 2 ^ bits t.toNat 5 2
/-- The block length VTYPE.BLK names; 0 for none. -/
def vtBlk (t : BitVec 16) : Nat := match bits t.toNat 7 2 with | 1 => 16 | 2 => 32 | _ => 0
/-- VTYPE.CB. -/
def vtCb (t : BitVec 16) : Nat := bits t.toNat 9 2
/-- VTYPE.SAT. -/
def vtSat (t : BitVec 16) : Bool := bit t.toNat 11

/-- The formats a block length may go with (R95). -/
def blkFmt (f : Nat) : Bool := f = 1 || (12 ≤ f && f ≤ 16)

/-- A legal requested VTYPE (R95). -/
def vtLegal (t : Nat) : Bool :=
  let f := bits t 0 5
  let b := bits t 7 2
  1 ≤ f && f ≤ 19 && (b = 0 || (b ≤ 2 && blkFmt f)) && t < 4096

/-- Elements of one register at an element width (R97). -/
def perReg (vlmax ew : Nat) : Nat := if ew = 0 then 0 else vlmax / ew

/-- vl, VLVALID, VSTART and VLMAX as numbers. -/
def vlN (s : State) : Nat := s.thr.sr.vl.toNat
/-- VLVALID as a number. -/
def vvN (s : State) : Nat := s.thr.sr.vlvalid.toNat
/-- VSTART as a number. -/
def vsN (s : State) : Nat := s.thr.sr.vstart.toNat
/-- VLMAX as a number. -/
def vmN (s : State) : Nat := s.thr.sr.vlmax.toNat
/-- The format in force. -/
def fmtN (s : State) : Nat := vtFmt s.thr.sr.vtype
/-- The group factor in force. -/
def grpN (s : State) : Nat := vtGrp s.thr.sr.vtype
/-- The element width in force. -/
def ewN (s : State) : Nat := fmtEw (fmtN s)

/-! ## Ports and rings (R206, R209) -/

/-- The slot runs three roles (R200). -/
def isTrio (s : State) : Bool := s.slot.cfg = 1

/-- Writer and reader of a queue port (R209). -/
def qWriter : Nat → Nat | 0 => 0 | 1 => 1 | 2 => 2 | _ => 1
/-- Reader of a queue port (R209). -/
def qReader : Nat → Nat | 0 => 1 | 1 => 2 | 2 => 0 | _ => 0
/-- Writer of a ring (R206). -/
def ringWriter : Nat → Nat | 0 => 0 | 1 => 0 | _ => 1
/-- Reader of a ring (R206). -/
def ringReader : Nat → Nat | 0 => 1 | 1 => 1 | _ => 2

/-- The entries of a queue port, head first. -/
def qport (s : State) (p : Nat) : List Word := SMap.get [] s.slot.qports p

/-- The slots of a ring, head first. -/
def ring (s : State) (p : Nat) : List RingSlot := SMap.get [] s.slot.rings p

/-- The slot's queue port set. -/
def setQport (p : Nat) (l : List Word) (s : State) : State := { s with slot.qports := SMap.set [] s.slot.qports p l }

/-- The slot's ring set. -/
def setRing (p : Nat) (l : List RingSlot) (s : State) : State := { s with slot.rings := SMap.set [] s.slot.rings p l }

/-! ## Scalar registers (R8, R74, R209) -/

/-- Register x: x0 reads 0, and in TRIO x28 to x31 read the head entry of their port. -/
def rx (s : State) (n : Nat) : Word :=
  if n = 0 then 0
  else if isTrio s && 28 ≤ n then (qport s (n - 28)).headD 0
  else SMap.get 0 s.thr.x n

/-- Register x written: a write to x0 is discarded, and in TRIO a write to x28 to x31 pushes on its port. -/
def wx (n : Nat) (v : Word) (s : State) : State :=
  if n = 0 then s
  else if isTrio s && 28 ≤ n then setQport (n - 28) (qport s (n - 28) ++ [v]) s
  else { s with thr.x := SMap.set 0 s.thr.x n v, thr.hid.damaged := s.thr.hid.damaged.filter (fun d => !(d.cls = 6 && d.num = n)) }

/-! ## Vector, mask and moment registers (R7, R34, R206, R345) -/

/-- The tail slot of a ring when it is reserved and not committed (R207). -/
def openSlot (l : List RingSlot) : Option RingSlot :=
  match l.getLast? with
  | some r => if r.committed then none else some r
  | none => none

/-- Register v: in TRIO v28 to v31 read the head slot of the ring in its reader and the reserved slot in its writer. -/
def rv (s : State) (n : Nat) : VReg :=
  if isTrio s && 28 ≤ n then
    if ringWriter (n - 28) = s.cur.2 then
      match openSlot (ring s (n - 28)) with
      | some r => r.data
      | none => 0
    else match (ring s (n - 28)).head? with
      | some r => r.data
      | none => 0
  else SMap.get 0 s.thr.v n

/-- A UNITS tag raised to cover a number of bytes (R345). Keys: v 0 to 31, m 32 to 39, k 40 to 47. -/
def raiseUnits (key bytes : Nat) (s : State) : State :=
  { s with thr.hid.units := SMap.set 0 s.thr.hid.units key (max (SMap.get 0 s.thr.hid.units key) (ceilDiv bytes 64)) }

/-- Register v written, of which bytes up to `top` were written. In TRIO a write to a ring port writes the reserved slot. -/
def wv (n : Nat) (v : VReg) (top : Nat) (s : State) : State :=
  if isTrio s && 28 ≤ n then
    let l := ring s (n - 28)
    match openSlot l with
    | some r => setRing (n - 28) (l.dropLast ++ [{ r with data := v, units := max r.units (ceilDiv top 64) }]) s
    | none => s
  else raiseUnits n top { s with thr.v := SMap.set 0 s.thr.v n v }

/-- Register k. (DEDUCED, log 15) -/
def rk (s : State) (n : Nat) : KReg := SMap.get 0 s.thr.k n

/-- The damaged bit pairs of a register in a range of bits are overwritten (R359). -/
def mendBits (cls num lo len : Nat) (s : State) : State :=
  if s.thr.hid.damaged.isEmpty then s
  else { s with thr.hid.damaged := s.thr.hid.damaged.filter (fun d => !(d.cls = cls && d.num = num && lo ≤ 2 * d.unit && 2 * d.unit < lo + len)) }

/-- Register k written; k0 is a sink (R115). -/
def wk (n : Nat) (v : KReg) (topBits : Nat) (s : State) : State :=
  if n = 0 then s else raiseUnits (40 + n) (ceilDiv topBits 8) { mendBits 2 n 0 32768 s with thr.k := SMap.set 0 s.thr.k n v }

/-- Register m. -/
def rm (s : State) (n : Nat) : KReg := SMap.get 0 s.thr.m n

/-- Register m written. -/
def wm (n : Nat) (v : KReg) (top : Nat) (s : State) : State :=
  raiseUnits (32 + n) top { s with thr.m := SMap.set 0 s.thr.m n v }

/-- Element i, of width ew, of the group at a register: registers hold ⌊VLMAX ÷ EW⌋ elements each (R34, R97, DEDUCED, log 16). -/
def elemV (s : State) (base ew i : Nat) : Nat :=
  let p := perReg (vmN s) ew
  if p = 0 then 0 else elemOf (rv s (base + i / p)).toNat ew (i % p)

/-- Element i of a group written. -/
def setElemV (base ew i val : Nat) (s : State) : State :=
  let p := perReg (vmN s) ew
  if p = 0 then s else
  let n := base + i / p
  let j := i % p
  mendBits 1 n (ew * j) ew (wv n (BitVec.ofNat 16384 (setBits (rv s n).toNat (ew * j) ew val)) (ceilDiv (ew * (j + 1)) 8) s)

/-- Pair i of a moment group: mean and variance codes (R147). -/
def pairM (s : State) (base i : Nat) : Nat × Nat :=
  let p := vmN s / 32
  if p = 0 then (0, 0) else
  let e := elemOf (rm s (base + i / p)).toNat 64 (i % p)
  (bits e 0 32, bits e 32 32)

/-- Pair i of a moment group written. -/
def setPairM (base i : Nat) (pr : Nat × Nat) (s : State) : State :=
  let p := vmN s / 32
  if p = 0 then s else
  let n := base + i / p
  let j := i % p
  mendBits 3 n (64 * j) 64 (wm n (BitVec.ofNat 32768 (setBits (rm s n).toNat (64 * j) 64 (pr.1 % 2 ^ 32 + pr.2 * 2 ^ 32))) (8 * (j + 1)) s)

/-- The governing mask bit i: that of KM, or 1 for k0, and that of EXM (R98, R129). -/
def maskBit (s : State) (km i : Nat) : Bool := (km = 0 || bit (rk s km).toNat i) && bit s.thr.hid.exm.toNat i

/-- Active(i) (R5, R129). -/
def activeAt (s : State) (km i : Nat) : Bool := i < vvN s && maskBit s km i

/-! ## Ungrafting (R293) -/

/-- The chain of the slot in focus stops, to be dissolved once its queues have drained (PREEMPT_SAVE). A trap of the last kernel is
kept until that kernel resumes; a producer's is not reported from the grafted run (R294, R295). (DESIGN CHOICE, log 17) -/
def ungraft (trap : Option FaultRec) (s : State) : State :=
  match s.slot.chain with
  | none => s
  | some c =>
    let last := match SMap.find s.dev.chains c with | some ch => ch.launches.length - 1 | none => 0
    { s with slot.st := .saving, slot.save := some .ungraft, slot.pending := if s.cur.2 = last then trap else none }

/-! ## Traps (R14, R23 to R26, R318, R325) -/

/-- The cause is a program cause (R26). -/
def programCause (c : Nat) : Bool :=
  c = 0x06 || c = 0x10 || c = 0x12 || c = 0x14 || c = 0x18 || c = 0x1C || (0x20 ≤ c && c ≤ 0x24)

/-- The cause leaves the slot stalled (R318). -/
def stallCause (c : Nat) : Bool := c = 0x08 || c = 0x0A || c = 0x0B || c = 0x0E

/-- The major opcode of a word. -/
def majorOf (w : BitVec 32) : Nat := bits w.toNat 26 6

/-- A word whose trap sets TSTAT.VEC (R14). -/
def vecWord (w : BitVec 32) : Bool :=
  let m := majorOf w
  m = 0x2D || m = 0x2E || (0x30 ≤ m && m ≤ 0x39) || (m = 0x2C && bits w.toNat 12 4 = 2)

/-- The record of a trap (R320). -/
def faultRec (s : State) (w : BitVec 32) (cause : Nat) (tpc val val2 : Word) : FaultRec :=
  let inh := bit s.thr.sr.tstat.toNat 0
  { cause := cause
    rflags := (if vecWord w then 1 else 0) + (if stallCause cause then 2 else 0) + (if inh then 4 else 0)
              + (if programCause cause && s.thr.sr.tvec = 0 then 8 else 0)
    role := s.cur.2
    word := if cause = 0x08 ∨ cause = 0x09 ∨ cause = 0x1C ∨ cause = 0x1A ∨ cause = 0x38 then 0 else w
    tpc := tpc, tval := val, tval2 := val2, torigin := s.thr.sr.taskid, vstart := s.thr.sr.vstart
    devtime := s.dev.devtime, acct := s.slot.acct }

/-- WSTAT.SKIP cleared, when an instruction retires or traps (R329). -/
def clearSkip (s : State) : State := { s with thr.sr.wstat := s.thr.sr.wstat &&& ~~~0x10 }

/-- The slot stopped with a record to post (R318). -/
def stopSlot (r : FaultRec) (s : State) : State :=
  { s with thr.pc := r.tpc, slot.st := if stallCause r.cause then .stalled else .stopped, slot.held := some r, slot.posted := false }

/-- The debug block of the thread in focus (R333). -/
def dbgOf (s : State) : DbgBlk := SMap.get DbgBlk.reset s.dev.dbg (3 * s.cur.1 + s.cur.2)

/-- The handler entered (R25). -/
def enterHandler (w : BitVec 32) (cause : Nat) (tpc val val2 : Word) (s : State) : State :=
  { s with thr.pc := s.thr.sr.tvec
           thr.sr.tcause := w64 cause
           thr.sr.tpc := tpc
           thr.sr.tval := val
           thr.sr.tval2 := val2
           thr.sr.torigin := s.thr.sr.taskid
           thr.sr.tstat := if vecWord w then 3 else 1 }

/-- A RAS counter of a core raised (R365). -/
def addRas (core k n : Nat) (d : Device) : Device :=
  { d with ras := SMap.set 0 d.ras (8 * core + k) (satAdd (SMap.get 0 d.ras (8 * core + k)) n) }

/-- Where a trap goes (R25): the handler of the thread for a program cause, otherwise a stopped slot. In a grafted chain any trap
ungrafts (R293). With SSTEP, entry into the handler counts as one step (R335). -/
def deliver (w : BitVec 32) (cause : Nat) (tpc val val2 : Word) (s : State) : State :=
  let r := faultRec s w cause tpc val val2
  if s.slot.chain.isSome then ungraft (some r) s
  else if programCause cause && s.thr.sr.tvec != 0 && !bit s.thr.sr.tstat.toNat 0 && !(cause = 0x18 && (dbgOf s).bkstop) then
    let t := enterHandler w cause tpc val val2 s
    if (dbgOf s).sstep && !(dbgOf s).halt then stopSlot (faultRec t w 0x1A t.thr.pc 0 0) t else t
  else stopSlot r s

/-- RAS_UE rises by an error that no replay repaired (R359, R365). -/
def countLoss (cause : Nat) (s : State) : State :=
  if cause = 0x30 ∨ cause = 0x31 then { s with dev := addRas (coreOf s) 4 1 s.dev } else s

/-- Taking a trap that an instruction raises (R25, R329, R365). -/
def takeTrap (w : BitVec 32) (cause : Nat) (tpc val val2 : Word) (s : State) : State :=
  deliver w cause tpc val val2 (countLoss cause (clearSkip s))

/-! ## Retiring (R26, R74, R111, R209, R329, R335, R336) -/

/-- The thread is inside the body of its `vloop`: the loop is active, no handler runs, and the pc lies in the body (R111). -/
def inBody (s : State) : Bool :=
  s.thr.hid.active && !bit s.thr.sr.tstat.toNat 0 && s.thr.hid.lstart.toNat ≤ s.thr.pc.toNat && s.thr.pc.toNat < s.thr.hid.lend.toNat

/-- A rise of VLMAX zeroes what lay at or beyond the old one and lowers the UNITS tags (R18, R345). -/
def raiseVlmax (old new : Nat) (t : Thread) : Thread :=
  if new ≤ old then t else
  let cutV (r : SMap VReg) : SMap VReg := (r.map (fun p => (p.1, p.2 &&& BitVec.ofNat 16384 (2 ^ old - 1)))).filter (fun p => p.2 != 0)
  let cutK (r : SMap KReg) : SMap KReg := (r.map (fun p => (p.1, p.2 &&& BitVec.ofNat 32768 (2 ^ (2 * old) - 1)))).filter (fun p => p.2 != 0)
  let cutU (r : SMap Nat) : SMap Nat := (r.map (fun p => (p.1, min p.2 (ceilDiv old (if p.1 < 32 then 512 else 256))))).filter (fun p => p.2 != 0)
  { t with v := cutV t.v, k := cutK t.k, m := cutK t.m, hid.units := cutU t.hid.units }

/-- VLMAX recomputed against the MAXVL in force (R18, R97). -/
def refreshVlmax (s : State) : State :=
  let new := slotVlmax s.dev s.cur.1 s.slot.part.toNat
  let t := raiseVlmax (vmN s) new s.thr
  { s with thr := { t with sr.vlmax := w64 new } }

/-- The registers zeroed by the first grant (R17). -/
def zeroRegs (s : State) : State :=
  let s := { s with
    thr.v := []
    thr.k := []
    thr.m := []
    thr.hid.units := []
    thr.hid.damaged := s.thr.hid.damaged.filter (fun d => d.cls != 1 && d.cls != 2 && d.cls != 3) }
  if s.cur.2 = 1 then { s with slot.z := [], slot.zdirty := 0 } else s

/-- The length granted for an avl under a requested VTYPE (R97). -/
def grantVl (vlmax req avl : Nat) : Nat :=
  let ew := fmtEw (bits req 0 5)
  let g := 2 ^ bits req 5 2
  let b := match bits req 7 2 with | 1 => 16 | 2 => 32 | _ => 0
  let vlmaxg := perReg vlmax ew * g
  let vl := if b = 0 then min avl vlmaxg else min (roundUp avl b) (vlmaxg / b * b)
  if vl < avl ∧ ew = 4 then vl / 2 * 2 else if vl < avl ∧ ew = 6 then vl / 4 * 4 else vl

/-- The grant of R97 once the request is legal: VLMAX recomputed, registers zeroed at the first grant, VL, VTYPE and VLVALID set. -/
def grant (req avl : Nat) (s : State) : State :=
  let s := refreshVlmax s
  let s := if fmtN s = 0 then zeroRegs s else s
  let vl := grantVl (vmN s) req avl
  { s with thr.sr.vl := w64 vl, thr.sr.vtype := BitVec.ofNat 16 req, thr.sr.vlvalid := w64 (min avl vl) }

/-- The VTYPE of a `vloop` pass: the current one with FMT and BLK of the stream (R111). -/
def loopVtype (s : State) (st : Stream) : Nat :=
  let d := st.desc.toNat
  let b := match bfield d 9 1 with | 16 => 1 | 32 => 2 | _ => 0
  setBits (setBits s.thr.sr.vtype.toNat 0 5 (bits d 64 5)) 7 2 b

/-- The end of a pass of a `vloop` body (R111). -/
def endPass (s : State) : State :=
  let left := s.thr.hid.lcount - vvN s
  if left = 0 then { s with thr.hid.lcount := 0, thr.hid.active := false }
  else
    let st := SMap.get Stream.empty s.thr.s s.thr.hid.lstream
    let s := grant (loopVtype s st) left { s with thr.hid.lcount := left }
    { s with thr.pc := s.thr.hid.lstart }

/-- A thread that reaches the end of its active body ends the pass: by the body's last word, or by an `eret` or a RESUME there after a
`sys` that was the last word (R111, DEDUCED, log 14). -/
def closePass (s : State) : State :=
  if s.thr.hid.active && !bit s.thr.sr.tstat.toNat 0 && s.thr.pc = s.thr.hid.lend then endPass s else s

/-- The word is an `mts` to WSTAT, whose SKIP acts on the instruction after it (R329). -/
def writesWstat (w : BitVec 32) : Bool := majorOf w = 0x3E && bits w.toNat 0 16 = 0x104C

/-- The instruction retires and the thread goes on at npc. A SKIP that it set itself acts on the next one, so the single step that
follows it leaves SKIP (R329, R335). -/
def retire (w : BitVec 32) (npc : Word) (s : State) : State :=
  let s := { s with thr.pc := npc, thr.sr.instret := s.thr.sr.instret + 1, slot.wdog := 0, slot.lastRole := s.cur.2, thr.pnd.blocked := false, thr.pnd.wpollSince := none }
  let s := if writesWstat w then s else clearSkip s
  let s := closePass s
  if (dbgOf s).sstep && !(dbgOf s).halt && s.thr.live then deliver w 0x1A s.thr.pc 0 0 s else s

/-- The thread can do nothing now; its instruction is tried again at its next turn (R205, DEDUCED, log 3). -/
def waitHere (s : State) : State := { s with thr.pnd.blocked := true }

/-! ## The checks on every word (R58 to R61, R204, R317) -/

/-- What a word needs: its sources and destinations by class, and its own format, role and register rules. Groups are given as
first register and factor. -/
structure Need where
  word : BitVec 32
  xr : List Nat := []
  xw : List Nat := []
  /-- a legal VTYPE is needed (R16) -/
  vt : Bool := false
  /-- the role may issue the word (R204) -/
  roleOk : Bool := true
  /-- the VTYPE is one the word accepts (R62), and the TVAL2 of the trap when it is not -/
  fmtOk : Bool := true
  fmtVal2 : Word := 0
  /-- the word's own register rules hold (R9, R113, R124) -/
  regOk : Bool := true
  /-- the word is `vloop`, which may not stand inside an active one (R111) -/
  nested : Bool := false
  vr : List (Nat × Nat) := []
  vw : List (Nat × Nat) := []
  mr : List (Nat × Nat) := []
  mw : List (Nat × Nat) := []
  kr : List Nat := []
  /-- the mask register that governs its elements -/
  km : Nat := 0
  /-- the register that holds its blocks' scales (R107) -/
  comp : Option Nat := none
  /-- the stream registers it reads -/
  st : List Nat := []
  /-- the word goes through the vector queue and its replay queue (R358) -/
  queued : Bool := false
  /-- the word's traps leave VSTART 0 (R99, R135) -/
  vs0 : Bool := false
  /-- the word waits until the thread's vector queue has drained -/
  drain : Bool := false

/-- What a meaning answers before it retires. -/
inductive Res where
  /-- it retires and the thread goes on at the next word -/
  | done (s : State)
  /-- it retires and the thread goes on at an address -/
  | jump (pc : Word) (s : State)
  /-- it traps at itself -/
  | trap (cause : Nat) (val val2 : Word) (s : State)
  /-- it traps with another TPC -/
  | trapAt (cause : Nat) (tpc val val2 : Word) (s : State)
  /-- it waits; the state holds what waiting itself changes -/
  | wait (s : State)
  /-- its thread does not go on by itself: the state is final -/
  | final (s : State)

/-- The majors that a `vloop` body may not hold (R111). -/
def bodyBans (w : BitVec 32) : Bool := (0x20 ≤ majorOf w && majorOf w ≤ 0x2C) || majorOf w = 0x3D

/-- A scalar port word against the table of R209. -/
def xPortBad (s : State) (n : Need) : Bool :=
  isTrio s && (n.xr.any (fun r => 28 ≤ r && qReader (r - 28) != s.cur.2) || n.xw.any (fun r => 28 ≤ r && qWriter (r - 28) != s.cur.2)
    || n.xw.any (fun r => 28 ≤ r && n.xr.contains r))

/-- A vector group against R9 and, in TRIO, R206: it starts at a multiple of its factor, does not pass v31, and names a port only
alone, in its writer or reader, and under GRP 1. -/
def groupBad (s : State) (write : Bool) (g : Nat × Nat) : Bool :=
  g.1 % g.2 != 0 || 32 < g.1 + g.2 ||
  (isTrio s && 28 < g.1 + g.2 && (g.1 < 28 || g.2 != 1 || grpN s != 1 ||
    (if write then ringWriter (g.1 - 28) else ringReader (g.1 - 28)) != s.cur.2))

/-- A moment group against R9: held by the execute role and SOLO only, aligned, within m7. -/
def mGroupBad (s : State) (g : Nat × Nat) : Bool := s.cur.2 != 1 || g.1 % g.2 != 0 || 8 < g.1 + g.2

/-- A word's register rules broken (R9, R206, R209). -/
def regsBad (s : State) (n : Need) : Bool :=
  !n.regOk || xPortBad s n || n.vr.any (groupBad s false) || n.vw.any (groupBad s true)
    || n.mr.any (mGroupBad s) || n.mw.any (mGroupBad s)
    || (isTrio s && n.vr.any (fun g => 28 ≤ g.1 && n.vw.any (fun h => h.1 = g.1)))

/-- A grafted thread's word that ungrafts its chain: it names register 28 to 31, the companion of a block group included, it names a
moment register in a role that has none, or it is of major 0x3D (R289, R293). -/
def graftBreak (s : State) (n : Need) : Bool :=
  s.slot.chain.isSome && (n.xr.any (28 ≤ ·) || n.xw.any (28 ≤ ·) || n.vr.any (fun g => 28 < g.1 + g.2) || n.vw.any (fun g => 28 < g.1 + g.2)
    || n.comp.any (28 ≤ ·) || (s.cur.2 != 1 && !(n.mr.isEmpty && n.mw.isEmpty)) || majorOf n.word = 0x3D)

/-- The port registers among a list, by port number. -/
def portsOf (s : State) (l : List Nat) : List Nat := if isTrio s then ((l.filter (28 ≤ ·)).map (· - 28)).eraseDups else []

/-- Words of the thread in its vector queue that have not started because their ring is full (R200, R205, R207). Such a word is
carried out when it is queued and its slot stands behind the ring's 4 until there is room. (DEDUCED, log 82) -/
def queuedAhead (s : State) : Nat :=
  (portsOf s [28, 29, 30, 31]).foldl (fun n p => if ringWriter p = s.cur.2 then n + ((ring s p).length - 4) else n) 0

/-- The word may stand in the vector queue behind a full ring: vector arithmetic that waits for nothing else, while one of the
64 entries is free (R200). A thread that is single-stepped does not run ahead of it (R335). -/
def mayQueue (s : State) (n : Need) : Bool :=
  n.queued && !(dbgOf s).sstep && 0x30 ≤ majorOf n.word && majorOf n.word ≤ 0x37 && n.xw.isEmpty && (portsOf s (n.vr.map Prod.fst)).isEmpty
    && queuedAhead s < 64

/-- A port or ring is empty where the word reads it, or full where it writes it (R205, R207 to R209), a queue is full (R200, R358), or
words before it have not started that it must follow. -/
def mustWait (s : State) (n : Need) : Bool :=
  (portsOf s n.xr).any (fun p => (qport s p).isEmpty) || (portsOf s n.xw).any (fun p => 8 ≤ (qport s p).length)
    || (portsOf s (n.vr.map Prod.fst)).any (fun p => match (ring s p).head? with | some r => !r.committed | none => true)
    || (portsOf s (n.vw.map Prod.fst)).any (fun p => (openSlot (ring s p)).isNone && 4 ≤ (ring s p).length && !mayQueue s n)
    || (n.queued && 128 ≤ s.thr.pnd.replay.length)
    || ((n.queued || n.drain) && queuedAhead s != 0 && !mayQueue s n)

/-- The first ring the word reads whose head carries another length (R208). -/
def shapeBad (s : State) (n : Need) : Option (Nat × Nat) :=
  (portsOf s (n.vr.map Prod.fst)).findSome? (fun p => match (ring s p).head? with
    | some r => if r.vl = vlN s then none else some (r.vl, p)
    | none => none)

/-- The first register of the group among those read that a register lies in. -/
def groupOf (l : List (Nat × Nat)) (num : Nat) : Option Nat := (l.find? (fun g => g.1 ≤ num && num < g.1 + g.2)).map Prod.fst

/-- The element of a word at which it reads a damaged bit pair, if it reads that place (R359). Class 7 is a stream register (number
0 to 7) or a codebook (8 to 11); classes 4 and 5 are an entry of a ring and of a queue port: port + 4 × its place from the head. -/
def damageElem (s : State) (n : Need) (d : Damage) : Option Nat :=
  let el (per bit ew : Nat) := if ew = 0 then 0 else per + bit / ew
  match d.cls with
  | 1 => (groupOf n.vr d.num).map (fun b => el ((d.num - b) * perReg (vmN s) (ewN s)) (2 * d.unit) (ewN s))
  | 2 => if n.kr.contains d.num then some (2 * d.unit) else none
  | 3 => (groupOf n.mr d.num).map (fun b => el ((d.num - b) * (vmN s / 32)) (2 * d.unit) 64)
  | 4 => if isTrio s && n.vr.any (fun g => g.1 = 28 + d.num) then some (el 0 (2 * d.unit) (ewN s)) else none
  | 5 => if isTrio s && n.xr.contains (28 + d.num) then some 0 else none
  | 6 => if n.xr.contains d.num && d.num != 0 then some 0 else none
  | 7 => if n.st.contains d.num || (8 ≤ d.num && fmtN s = 19 && d.num = 8 + vtCb s.thr.sr.vtype && !n.vr.isEmpty) then some (vsN s) else none
  | _ => none

/-- The element counts: a scalar word is one element, and a vector word reads its active elements from VSTART up (R317). -/
def elemCounts (s : State) (n : Need) (e : Nat) : Bool :=
  if n.queued then vsN s ≤ e && e < vlN s && maskBit s n.km e else true

/-- The damaged place that a word reads at its lowest element, and that element (R317, R359). -/
def damageRead (s : State) (n : Need) : Option (Damage × Nat) :=
  s.thr.hid.damaged.foldl (fun best d =>
    match damageElem s n d with
    | none => best
    | some e => if !elemCounts s n e then best else match best with
      | some b => if e < b.2 then some (d, e) else best
      | none => some (d, e)) none

/-- Place 9 (MODEL) heads the list while a word that reads damage is carried out: `num` is 256 × class + number of the place and `unit`
the element. -/
def markHurt (h : Damage × Nat) (s : State) : State :=
  { s with thr.hid.damaged := ⟨9, h.1.cls * 256 + h.1.num, h.2⟩ :: s.thr.hid.damaged }

/-- The mark of the word being carried out. -/
def hurtMark (s : State) : Option Damage :=
  match s.thr.hid.damaged with
  | d :: _ => if d.cls = 9 then some d else none
  | [] => none

/-- The mark taken away. -/
def clearHurt (s : State) : State := { s with thr.hid.damaged := s.thr.hid.damaged.filter (fun d => d.cls != 9) }

/-- Causes that R317 ranks after DATA_LOSS. -/
def afterLoss (c : Nat) : Bool := c = 0x10 || c = 0x12 || c = 0x14 || c = 0x18 || c = 0x1C || (0x20 ≤ c && c ≤ 0x24)

/-- A reserved slot at the tail of each ring the word writes (R207). A word that starts at VSTART 0 starts its slot afresh, also one
that another word left open; a word that starts at another VSTART with none open gets one of zeros. (DESIGN CHOICE, log 83) -/
def reserve (s : State) (n : Need) : State :=
  (portsOf s (n.vw.map Prod.fst)).foldl (fun t p =>
    let fresh : RingSlot := ⟨0, vlN t, t.thr.sr.vtype, 0, false⟩
    if (openSlot (ring t p)).isSome then (if vsN t = 0 then setRing p ((ring t p).dropLast ++ [fresh]) t else t)
    else setRing p (ring t p ++ [fresh]) t) s

/-- The word in the replay queue with what it captured (R358). -/
def enqueueReplay (n : Need) (s : State) : State :=
  if n.queued then
    { s with thr.pnd.replay := s.thr.pnd.replay ++ [⟨n.word, s.thr.sr.vl, s.thr.sr.vtype, s.thr.sr.fpctl, s.thr.sr.mctl,
        s.thr.sr.mrho, s.thr.hid.exm, SMap.get false s.dev.chk s.cur.1, s.thr.sr.taskid⟩] }
  else s

/-- A word's trap at itself. -/
def trapWord (n : Need) (cause : Nat) (val val2 : Word) (s : State) : State :=
  takeTrap n.word cause s.thr.pc val val2 (if n.vs0 then { s with thr.sr.vstart := 0 } else s)

/-- The checks of R61 before any effect, in their order: what the checks themselves lead to, or the state in which the word
starts. -/
def gate (n : Need) (s : State) : Except State State :=
  let w := n.word.setWidth 64
  if inBody s && bodyBans n.word then .error (trapWord n 0x01 w 0 { s with thr.hid.active := false })
  else if n.nested && s.thr.hid.active then .error (trapWord n 0x01 w 0 s)
  else if graftBreak s n then .error (ungraft none s)
  else if !n.roleOk then .error (if s.slot.chain.isSome then ungraft none s else trapWord n 0x02 w 0 s)
  else if n.vt && fmtN s = 0 then .error (trapWord n 0x03 w 0 s)
  else if !n.fmtOk then .error (trapWord n 0x03 w n.fmtVal2 s)
  else if regsBad s n then .error (trapWord n 0x04 w 0 s)
  else if mustWait s n then .error (waitHere s)
  else match shapeBad s n with
    | some (len, p) => .error (trapWord n 0x06 (w64 len) (w64 p) { s with thr.sr.vstart := 0 })
    | none => .ok (reserve s n)

/-- Damaged entries of a ring (class 4) or queue port (class 5) after its head is popped. -/
def popDamage (cls p : Nat) (s : State) : State :=
  if s.thr.hid.damaged.isEmpty then s
  else { s with thr.hid.damaged := s.thr.hid.damaged.filterMap (fun d =>
    if d.cls = cls && d.num % 4 = p then (if d.num < 4 then none else some { d with num := d.num - 4 }) else some d) }

/-- Ports and rings moved on when a word retires: heads popped, the reserved slot committed (R207 to R209). -/
def settle (n : Need) (s : State) : State :=
  let s := (portsOf s n.xr).foldl (fun t p => popDamage 5 p (setQport p (qport t p).tail t)) s
  let s := (portsOf s (n.vr.map Prod.fst)).foldl (fun t p => popDamage 4 p (setRing p (ring t p).tail t)) s
  (portsOf s (n.vw.map Prod.fst)).foldl (fun t p =>
    match openSlot (ring t p) with
    | some r => setRing p ((ring t p).dropLast ++ [{ r with committed := true }]) t
    | none => t) s

/-- The end of a word. -/
def finish (n : Need) : Res → State
  | .done t => retire n.word (t.thr.pc + 4) (enqueueReplay n (settle n t))
  | .jump pc t => retire n.word pc (enqueueReplay n (settle n t))
  | .trap c v v2 t => trapWord n c v v2 t
  | .trapAt c p v v2 t => takeTrap n.word c p v v2 t
  | .wait t => waitHere t
  | .final t => t

/-- The end of a word that read damage: DATA_LOSS with nothing done, unless it waits or raised a cause that R317 ranks before. A sweep over
elements has taken the mark away where it has decided already. -/
def hurtEnd (h : Damage × Nat) (s : State) : Res → Res
  | .wait t => .wait (clearHurt t)
  | .trap c v v2 t =>
    if (hurtMark t).isSome && afterLoss c then .trap cLoss (w64 (h.1.cls * 256 + h.1.num)) (w64 (2 ^ 63 + h.2)) s else .trap c v v2 (clearHurt t)
  | _ => .trap cLoss (w64 (h.1.cls * 256 + h.1.num)) (w64 (2 ^ 63 + h.2)) s

/-- A word that traps waits instead while it stands in the vector queue, or words before it do, which must complete first (R23). -/
def behindQueue (s t : State) (r : Res) : Res :=
  if queuedAhead t = 0 then r else match r with
    | .trap _ _ _ _ => .wait s
    | .trapAt _ _ _ _ _ => .wait s
    | r => r

/-- What an instruction that does not start leads to, once the words before it in the vector queue have completed (R23). -/
def inOrder (s t : State) : State := if queuedAhead s = 0 then t else waitHere s

/-- A word carried out: the checks, then its body, then its end. -/
def run (n : Need) (s : State) (body : State → Res) : State :=
  match gate n s with
  | .error t => inOrder s t
  | .ok t => match damageRead t n with
    | none => finish n (behindQueue s t (body t))
    | some h => finish n (behindQueue s t (hurtEnd h t (body (markHurt h t))))

/-- A scalar word that only computes: reads and writes x registers and cannot trap after its checks. -/
def scalar (w : BitVec 32) (xr xw : List Nat) (s : State) (body : State → State) : State :=
  run { word := w, xr := xr, xw := xw } s (fun t => .done (body t))

end Sys2Proof.Machine
end

