-- ==== Sys2Proof/Machine/Planes.lean ====
section
/-! DEFINITION. Which way a request to another device takes: pods, the plane hash and its maps, the egress port, which devices can be
reached, and the requests that are not acknowledged (R372 to R382, R386). -/

namespace Sys2Proof.Machine

/-! ## The plane of an address (R372 to R374) -/

/-- A map of 64 hash values to planes, 4 bits each (R374, R384). -/
abbrev PlaneMap := BitVec 256

/-- Entry i names plane i mod 8 (R374). -/
def defaultMap : PlaneMap := BitVec.ofNat 256 ((upFrom 0 64).foldl (fun m i => m + (i % 8) * 2 ^ (4 * i)) 0)

/-- The map of a pod. -/
def mapOf (d : Device) (pod : Nat) : PlaneMap := SMap.get defaultMap d.fab.pmaps pod

/-- Entry i of a map. -/
def mapEntry (m : PlaneMap) (i : Nat) : Nat := bits m.toNat (4 * i) 3

/-- H of a physical address (R373). -/
def planeHash (pa : Nat) : Nat := (upFrom 0 9).foldl (fun h k => h ^^^ bits pa (8 + 6 * k) 6) 0 ^^^ bits pa 62 1

/-- The pod of a device (R372). -/
def podOf (d : Device) (dn : Nat) : Nat := if dn = d.boot.devnum then d.boot.pod else SMap.get 0 d.boot.pods dn

/-- The plane of an access under the current map of its pod (R373). -/
def planeOf (d : Device) (pa : Nat) : Nat := mapEntry (mapOf d (podOf d (paDev pa))) (planeHash pa)

/-- PORT.UP of port q of plane p. -/
def portUp (f : Fabric) (p q : Nat) : Bool := bit (SMap.get 0 f.ports (4 * p + q)).toNat 0

/-- The port by which a request leaves: (H + d) mod 4 of its plane, or the next one up, counting upward mod 4 (R376). -/
def egress (d : Device) (pa : Nat) : Option Nat :=
  let q := planeHash pa + paDev pa
  ([q % 4, (q + 1) % 4, (q + 2) % 4, (q + 3) % 4]).find? (portUp d.fab (planeOf d pa))

/-! ## What can be reached (R382, R386) -/

/-- A quiesce covers requests to a device (R386). -/
def quiesced (d : Device) (dn : Nat) : Bool := d.fab.rehash.any (fun p => p.1 = d.boot.pod || p.1 = podOf d dn)

/-- Some plane that is alive in this device's pod carries traffic to a pod. -/
def planeAlive (d : Device) (pod : Nat) : Bool :=
  (upFrom 0 8).any (fun p => bit d.fab.live.toNat p && (upFrom 0 64).any (fun i => mapEntry (mapOf d pod) i = p))

/-- A device to which no request succeeds any more: it is declared dead, or no plane remains alive to it (R382). -/
def unreachable (d : Device) (dn : Nat) : Bool :=
  d.fab.deadDevs.contains dn || d.fab.deadPods.contains (podOf d dn) || !planeAlive d (podOf d dn)

/-! ## Requests (R378, R379) -/

/-- Requests to a device that are not acknowledged. -/
def unacked (d : Device) (dn : Nat) : List RemReq := d.fab.reqs.filter (fun r => r.dst = dn)

/-- Two requests share a byte. -/
def RemReq.meets (r : RemReq) (pa n : Nat) : Bool := r.pa < pa + n && pa < r.pa + r.len

/-- A request for n bytes may leave by the way of an address: its pod is not quiesced, the destination has fewer than 4,096
unacknowledged requests, none that waits for a verdict has its address, and a port of its plane is up (R376, R378, R379, R386). -/
def mayLeaveBy (d : Device) (way pa n : Nat) : Bool :=
  !quiesced d (paDev pa) && (unacked d (paDev pa)).length < 4096 && !(unacked d (paDev pa)).any (fun r => r.held && r.meets pa n)
    && (egress d way).isSome

/-- A request that goes by its own address may leave. -/
def mayLeave (d : Device) (pa n : Nat) : Bool := mayLeaveBy d pa pa n

/-- The requests to a device fill its limit and are all one owner's, none of them held: the earlier ones have been answered. -/
def ownFill (d : Device) (own pa : Nat) : Bool :=
  !quiesced d (paDev pa) && 4096 ≤ (unacked d (paDev pa)).length && (unacked d (paDev pa)).all (fun r => r.own = own && !r.held)

/-- The number the next request to a device carries, of 32 bits (R378). -/
def reqNumber (d : Device) (dn : Nat) : Nat := SMap.get 0 d.fab.nextSeq dn

/-- A request of an owner leaves by the way of an address for the device that its own names, with the next number (R378). -/
def sendReqBy (own way pa n : Nat) (d : Device) : Device :=
  let dn := paDev pa
  let r : RemReq := { dst := dn, seq := reqNumber d dn, plane := planeOf d way, port := (egress d way).getD 0, pa := pa, len := n,
                      own := own, gen := SMap.get 0 d.fab.gens (podOf d dn), tries := 0, held := false, sentAt := d.devtime.toNat }
  { d with
    fab.nextSeq := SMap.set 0 d.fab.nextSeq dn ((reqNumber d dn + 1) % 2 ^ 32)
    fab.reqs := d.fab.reqs ++ [r] }

/-- A request that goes by its own address leaves. -/
def sendReq (own pa n : Nat) (d : Device) : Device := sendReqBy own pa pa n d

/-- The owner of a read or atomic of a thread: 0 owns the stores. -/
def readOwner (slot role : Nat) : Nat := 1 + 3 * slot + role

/-- The unacknowledged read or atomic of an owner at an address. -/
def readReq (d : Device) (own pa : Nat) : Option RemReq := d.fab.reqs.find? (fun r => r.own = own && r.pa = pa)

/-- The reads and atomics of an owner acknowledged by their responses. -/
def ackReads (own : Nat) (d : Device) : Device := { d with fab.reqs := d.fab.reqs.filter (fun r => r.own != own) }

end Sys2Proof.Machine
end

