-- ==== Sys2Proof/Machine/Access.lean ====
section
/-! DEFINITION. A thread's data accesses: checks in their order, what a load returns, the stores on their way, performing a store
at its home with what a home does then (memory watches, poison marks, accounting), and posting a record to a fault queue
(R19, R20, R35, R91, R104, R235, R245, R250 to R252, R255, R263, R321, R328 to R332, R363, R377, R382). -/

namespace Sys2Proof.Machine

/-! ## Interrupts and context registers (R321, R395) -/

/-- An MSI-X vector raised; one raised again before it is serviced is delivered once (R395). -/
def raiseVector (v : Nat) (d : Device) : Device := { d with msix := SMap.set false d.msix v true }

/-- The fault interrupt of a context (R395). -/
def faultVector (c : Nat) : Nat := 8 + c % 2040

/-- The registers of a context. -/
def ctxOf (d : Device) (c : Nat) : CtxBlk := SMap.get CtxBlk.reset d.ctxs c

/-- The registers of a context set. -/
def setCtx (d : Device) (c : Nat) (b : CtxBlk) : Device := { d with ctxs := SMap.set CtxBlk.reset d.ctxs c b }

/-- A byte of a context's data space translated for the dispatcher, the save sequencer or the fault queue. -/
def xlateCtx (d : Device) (c : Nat) (store : Bool) (va : Nat) : Except Nat Loc :=
  xlate d .system 1024 c (ctxOf d c).droot 0 store va

/-- Each byte translated; consecutive bytes of one 64 KiB page need one translation. -/
def xlateRange (f : Nat → Except Nat Loc) (va n : Nat) : Except (Nat × Nat) (List Loc) :=
  if n = 0 then .ok []
  else if va / 65536 = (va + n - 1) / 65536 then
    match f va with
    | .error c => .error (c, va)
    | .ok l => .ok ((upFrom 0 n).map (fun i => { l with key := l.key + i }))
  else xlateBytes f va n

/-! ## Homes (R246, R331, R332) -/

/-- The home slice of a local line (R246). -/
def homeSlice (pa : Nat) : Nat :=
  bits pa 7 7 ^^^ bits pa 14 7 ^^^ bits pa 21 7 ^^^ bits pa 28 7 ^^^ bits pa 35 7 ^^^ bits pa 42 6

/-- Who wrote, for a memory-watch record (R332): WKIND, context, role, core, slot letter, device and task. -/
structure Writer where
  kind : Nat
  ctx : Nat := 0xFFFF
  role : Nat := 0xFF
  core : Nat := 0xFFFF
  slot : Nat := 0xFF
  dev : Nat
  task : Word := 0

/-- The thread or engine of the slot in focus as a writer. -/
def writerOf (s : State) (kind : Nat) (task : Word) : Writer :=
  { kind := kind, ctx := s.slot.ctx, role := if kind = 0 then s.cur.2 else 0xFF, core := coreOf s, slot := s.cur.1 % 2,
    dev := s.dev.boot.devnum, task := task }

/-- A memory-watch record (R332). -/
def watchRecord (d : Device) (wr : Writer) (w op len pa : Nat) : List Byte :=
  [1, 0x19, 0x20, BitVec.ofNat 8 wr.kind] ++ leBytes 2 wr.ctx ++ [BitVec.ofNat 8 wr.role, BitVec.ofNat 8 w] ++ leBytes 2 wr.core
    ++ [BitVec.ofNat 8 wr.slot, BitVec.ofNat 8 op] ++ leBytes 4 len ++ leBytes 8 pa ++ leBytes 8 wr.dev ++ leBytes 8 wr.task.toNat
    ++ leBytes 16 0 ++ leBytes 8 d.devtime.toNat

/-- The watches that match a write of `len` bytes at `pa`, all in one line, with their contexts. op: 0 store, 1 atomic, 2 scatter-add
(R331, R332). -/
def watchesOf (op pa : Nat) (d : Device) : List (Nat × MemWatch) :=
  d.mwatch.filter (fun p =>
    let cfg := p.2.cfg.toNat
    let log := bits cfg 3 5
    bit cfg 0 && 7 ≤ log && log ≤ 20 && (if op = 0 then bit cfg 1 else bit cfg 2)
      && paKind d pa = .devMem && (bits p.2.addr.toNat 7 41 * 128) / 2 ^ log = paLocal pa / 2 ^ log && homeSlice (paLocal pa) / 16 = p.1 / 4)

/-- MW_HITS of the watches that match a write raised, and the records to post, by their contexts. -/
def countHits (wr : Writer) (op pa len : Nat) (d : Device) : Device × List (Nat × List Byte) :=
  let ws := watchesOf op pa d
  (ws.foldl (fun d p => { d with mwatch := SMap.set MemWatch.reset d.mwatch p.1 { p.2 with hits := satAdd p.2.hits 1 } }) d,
   ws.map (fun p => (bits p.2.cfg.toNat 8 12, watchRecord d wr p.1 op len pa)))

/-- An accounting counter raised (R235). -/
def addAcnt (a k n : Nat) (d : Device) : Device :=
  { d with acnt := SMap.set 0 d.acnt (8 * a + k) (satAdd (SMap.get 0 d.acnt (8 * a + k)) n) }

/-- Masked bytes written at their homes, without what follows a write. -/
def applyBytes (d : Device) (bs : List (Nat × Byte × Byte)) : Device :=
  bs.foldl (fun d p => writeByte d p.1 ((readByte d p.1 &&& ~~~p.2.1) ||| (p.2.2 &&& p.2.1))) d

/-- The writes of one kind to the lines among masked bytes: for each line its first written byte and how many bytes are written. -/
def linesWritten (bs : List (Nat × Byte × Byte)) : List (Nat × Nat) :=
  let out := bs.filter (fun p => !isScratch p.1 && p.2.1 != 0)
  ((out.map (fun p => p.1 / 128)).eraseDups).filterMap (fun ln =>
    match out.filter (fun p => p.1 / 128 = ln) with
    | [] => none
    | p :: r => some (p.1, ((p :: r).map (·.1)).eraseDups.length))

/-- Writes performed at their homes without accounting and without the records of memory watches: bytes, poison marks cleared by whole
granules, MW_HITS line by line; the records that are due come with the device. -/
def performLines (wr : Writer) (op : Nat) (bs : List (Nat × Byte × Byte)) (d : Device) : Device × List (Nat × List Byte) :=
  let d := applyBytes (clearPoison d ((bs.filter (fun p => p.2.1 = 0xFF)).map (·.1))) bs
  if d.mwatch.isEmpty then (d, []) else
  (linesWritten bs).foldl (fun r l => let h := countHits wr op l.1 l.2 r.1; (h.1, r.2 ++ h.2)) (d, [])

/-- Whole bytes from a location upward, as masked bytes. -/
def wholeBytes (keys : List Nat) (bs : List Byte) : List (Nat × Byte × Byte) :=
  (keys.zip bs).map (fun p => (p.1, 0xFF, p.2))

/-! ## Posting records (R321, R332) -/

/-- Outcome of a post (R321). -/
inductive Posted where
  | posted (d : Device)
  | noSpace
  | faulted (d : Device)

/-- A record of 64 bytes posted to the fault queue of a context (R321): bytes, FQWR and the fault interrupt. A ring whose bytes do
not translate, or lie in a page with W = 0 or MT ≠ 0, sets FQFAULT and raises the interrupt. -/
def postQuiet (d : Device) (c : Nat) (rec : List Byte) : Posted × List (Nat × List Byte) :=
  let b := ctxOf d c
  let log := bits b.fqcfg.toNat 0 4
  if !bit b.fqcfg.toNat 4 || 2 ^ log ≤ b.fqwr.toNat - b.fqrd.toNat then (.noSpace, [])
  else
    let va := bits b.fqbase.toNat 6 46 * 64 + 64 * (b.fqwr.toNat % 2 ^ log)
    match xlateRange (xlateCtx d c true) va 64 with
    | .ok (l :: _) =>
      if l.cached then
        let r := performLines { kind := 6, dev := d.boot.devnum } 0 (wholeBytes (upFrom l.key 64) rec) d
        (.posted (raiseVector (faultVector c) (setCtx r.1 c { b with fqwr := b.fqwr + 1 })), r.2)
      else (.faulted (raiseVector (faultVector c) (setCtx d c { b with fqcfg := b.fqcfg ||| 0x80 })), [])
    | _ => (.faulted (raiseVector (faultVector c) (setCtx d c { b with fqcfg := b.fqcfg ||| 0x80 })), [])

/-- A dispatcher or memory-watch record, which is dropped where it cannot be posted; `lost` is the FQCFG bit set then. -/
def dropQuiet (d : Device) (c : Nat) (lost : Word) (rec : List Byte) : Device × List (Nat × List Byte) :=
  match postQuiet d c rec with
  | (.posted d, r) => (d, r)
  | (.noSpace, r) => let b := ctxOf d c; (setCtx d c { b with fqcfg := b.fqcfg ||| lost }, r)
  | (.faulted d, r) => let b := ctxOf d c; (setCtx d c { b with fqcfg := b.fqcfg ||| lost }, r)

/-- The records of memory watches posted, and those that their own writes call for, n records in all: a watch on its own
queue ends where the queue is full (R332). What posts counts as the dispatcher. (DESIGN CHOICE, log 84) -/
def postWatches : Nat → List (Nat × List Byte) → Device → Device
  | 0, _, d => d
  | _, [], d => d
  | n + 1, (c, rec) :: r, d => let o := dropQuiet d c 0x20 rec; postWatches n (r ++ o.2) o.1

/-- The most records that one write can lead to: 4,096 queues of 4,096 records. -/
def watchFuel : Nat := 2 ^ 25

/-- A record posted, with the watches on its own bytes. -/
def postRecord (d : Device) (c : Nat) (rec : List Byte) : Posted :=
  match postQuiet d c rec with
  | (.posted d, r) => .posted (postWatches watchFuel r d)
  | (.noSpace, _) => .noSpace
  | (.faulted d, _) => .faulted d

/-- A dispatcher record, which is dropped where it cannot be posted; `lost` is the FQCFG bit set then. -/
def postOrDrop (d : Device) (c : Nat) (lost : Word) (rec : List Byte) : Device :=
  let r := dropQuiet d c lost rec
  postWatches watchFuel r.2 r.1

/-- The memory watches after a write of `len` bytes at `pa`, all in one line. op: 0 store, 1 atomic, 2 scatter-add (R331, R332). -/
def memoryWatch (wr : Writer) (op pa len : Nat) (d : Device) : Device :=
  let h := countHits wr op pa len d
  postWatches watchFuel h.2 h.1

/-- Writes performed at their homes without accounting: bytes, poison marks cleared by whole granules, memory watches line by line. -/
def performHome (wr : Writer) (op : Nat) (bs : List (Nat × Byte × Byte)) (d : Device) : Device :=
  let r := performLines wr op bs d
  postWatches watchFuel r.2 r.1

/-- The writes of one access performed at their homes: bytes, poison marks cleared by whole granules, accounting, memory watches
line by line. (DEDUCED, log 32) -/
def performBytes (wr : Writer) (acct op : Nat) (bs : List (Nat × Byte × Byte)) (d : Device) : Device :=
  let out := bs.filter (fun p => !isScratch p.1)
  let d := if out.isEmpty then d else addAcnt acct 3 out.length d
  let rem := out.filter (fun p => paDev p.1 ≠ d.boot.devnum)
  performHome wr op bs (if rem.isEmpty then d else addAcnt acct 4 rem.length d)

/-! ## Watchpoints (R328 to R330) -/

/-- The watchpoint w covers a byte for a kind of access. -/
def watchCovers (s : State) (store : Bool) (w va : Nat) : Bool :=
  let r := (SMap.get 0 s.thr.sr.watch w).toNat
  let mode := bits r 58 2
  let log := bits r 60 4
  (if store then bit mode 0 else bit mode 1) && bits r 0 52 / 2 ^ log = va / 2 ^ log

/-- The lowest watched byte an access touches, and the HIT bits of the watchpoints it matches. -/
def watchHit (s : State) (store : Bool) (va n : Nat) : Option (Nat × Nat) :=
  if s.thr.sr.watch.isEmpty || bit s.thr.sr.wstat.toNat 4 then none else
  match (upFrom va n).find? (fun a => (upFrom 0 4).any (fun w => watchCovers s store w a)) with
  | none => none
  | some a => some (a, ((upFrom 0 4).filter (fun w => (upFrom va n).any (fun b => watchCovers s store w b))).foldl (fun m w => m + 2 ^ w) 0)

/-! ## Checks of one access (R91, R104, R317) -/

/-- Outcome of checking an access. A trap carries cause, TVAL, and HIT bits for WATCHPOINT. -/
inductive Chk where
  | ok (locs : List Loc)
  | trap (cause val hit : Nat)

/-- A byte of a thread's data space translated. -/
def xlateThr (s : State) (store : Bool) (va : Nat) : Except Nat Loc :=
  xlate s.dev .thread s.cur.1 s.slot.ctx s.slot.droot (scru s) store va

/-- What an access of n bytes may reach: the identity and boot area only with loads of 1, 2, 4 or 8 aligned bytes (R392), and with
`near` no other device (R377). -/
def permitted (near : Bool) (va n : Nat) (l : Loc) : Bool :=
  (l.kind != .mmio || ((n = 1 || n = 2 || n = 4 || n = 8) && va % n = 0)) && !(near && l.kind = .remote)

/-- A byte of an access of n bytes at `va` translated, with its rights. -/
def xlateAcc (s : State) (store near : Bool) (va n a : Nat) : Except Nat Loc :=
  match xlateThr s store a with
  | .error c => .error c
  | .ok l => if permitted near va n l then .ok l else .error cRights

/-- Alignment, address, translation and rights of one access of n bytes, in the order of R91: its places, or cause and TVAL. -/
def checkRange (s : State) (store near : Bool) (align va n : Nat) : Except (Nat × Nat) (List Loc) :=
  if va % align ≠ 0 then .error (cAlign, va) else xlateRange (xlateAcc s store near va n) va n

/-- The checks of one access of n bytes: those of R91, then watchpoints (R317). -/
def checkAs (s : State) (store near : Bool) (align va n : Nat) : Chk :=
  match checkRange s store near align va n with
  | .error (c, a) => .trap c a 0
  | .ok locs => match watchHit s store va n with
    | some (a, h) => .trap 0x19 a h
    | none => .ok locs

/-- The checks of an access that may be remote. -/
def checkAccess (s : State) (store : Bool) (align va n : Nat) : Chk := checkAs s store false align va n

/-- HIT bits set in WSTAT (R329). -/
def setHits (h : Nat) (s : State) : State := { s with thr.sr.wstat := s.thr.sr.wstat ||| w64 h }

/-! ## What holds an access back (R251, R252, R255, R262, R386) -/

/-- An MXQ entry of the slot that the thread in focus queued, a `zld` or `zst` of one of the classes of a mask, issued before a moment. -/
def tileAccess (s : State) (mask : BitVec 16) (before : Nat) : Bool :=
  s.slot.mxq.any (fun e => (e.op = .zld || e.op = .zst) && e.role = s.cur.2 && bit mask.toNat e.cls && e.since < before)

/-- A pending store or fence orders an access of a class behind it; `reads` says that the access is a load (R251, R252, R255). -/
def holdsBack (cls : Nat) (reads : Bool) (p : PStore) : Bool :=
  if p.fence != 0 then (bit p.fence.toNat cls && !(reads && p.kind = 1)) || cls = 15
  else p.cls = cls || p.cls = 15 || cls = 15

/-- A load or atomic of the class must wait for the thread's own earlier accesses. -/
def loadWaits (s : State) (cls : Nat) : Bool :=
  s.thr.pnd.stores.any (holdsBack cls true) || (cls = 15 && tileAccess s 0xFFFF s.dev.ser)

/-- An atomic or scatter-add waits also for a fence.rel (R255). -/
def atomicWaits (s : State) (cls : Nat) : Bool :=
  s.thr.pnd.stores.any (holdsBack cls false) || (cls = 15 && tileAccess s 0xFFFF s.dev.ser)

/-- The location of a store's first byte. -/
def storeKey (p : PStore) : Nat := match p.bytes with | b :: _ => b.1 | [] => 0

/-- An earlier store is under way on the plane that an access to `pa` takes, which then need not wait for it before it leaves
(R262). -/
def sameTrack (d : Device) (e : PStore) (cls pa : Nat) : Bool :=
  e.sent.isSome && e.cls != 15 && cls != 15 && planeOf d (storeKey e) = planeOf d pa

/-- A remote load, atomic or scatter-add at `pa` may not leave yet: an access that it follows has not left on the same plane. -/
def heldFrom (s : State) (cls pa : Nat) (reads : Bool) : Bool :=
  s.thr.pnd.stores.any (fun e => !sameTrack s.dev e cls pa && holdsBack cls reads e) || (cls = 15 && tileAccess s 0xFFFF s.dev.ser)

/-- An access meets a pending store of its own thread that must reach the home first: used for atomics, whose read is made at the
home. -/
def overlapsPending (s : State) (keys : List Nat) : Bool :=
  s.thr.pnd.stores.any (fun p => p.bytes.any (fun b => keys.contains b.1))

/-- A load meets an update of its own thread that is still on its way to another device, whose result only the home knows (R20). -/
def overlapsUpdate (s : State) (locs : List Loc) : Bool :=
  s.thr.pnd.stores.any (fun p => p.upd != 0 && p.bytes.any (fun b => locs.any (fun l => l.key = b.1)))

/-! ## Reads and atomics of other devices (R262, R376 to R379, R382) -/

/-- What a remote read or atomic may do now: it failed, it waits, with a request for n bytes at a place that leaves now or none, or its
response comes. -/
inductive Far where
  | lost (dev : Nat)
  | wait (ask : Option (Nat × Nat))
  | ready

/-- The read or atomic of the thread in focus at the places given. Its request leaves in one turn and its response comes in a later one;
`stay` says that earlier accesses of the thread must be performed first. A thread whose own requests fill the limit has had the earlier
ones answered. (DESIGN CHOICE, log 85) -/
def farAccess (s : State) (cls : Nat) (reads stay : Bool) (locs : List Loc) : Far :=
  match locs with
  | [] => .ready
  | l :: _ =>
    let dn := paDev l.key
    let own := readOwner s.cur.1 s.cur.2
    if unreachable s.dev dn then .lost dn
    else match readReq s.dev own l.key with
      | some r => if r.held || stay then .wait none else .ready
      | none =>
        if heldFrom s cls l.key reads then .wait none
        else if mayLeave s.dev l.key locs.length then .wait (some (l.key, locs.length))
        else if !stay && ownFill s.dev own l.key then .ready
        else .wait none

/-- A request of the thread in focus leaves. -/
def askFor (q : Option (Nat × Nat)) (s : State) : State :=
  match q with
  | none => s
  | some (pa, n) => { s with dev := sendReq (readOwner s.cur.1 s.cur.2) pa n s.dev }

/-- The responses to the thread's reads and atomics have come: those of one instruction are on their way at a time. -/
def allAnswered (s : State) : State :=
  if s.dev.fab.reqs.isEmpty then s else { s with dev := ackReads (readOwner s.cur.1 s.cur.2) s.dev }

/-- The responses have come where the places given lie in another device. -/
def answered (locs : List Loc) (s : State) : State := if locs.any (fun l => l.kind = .remote) then allAnswered s else s

/-! ## Loads -/

/-- A byte as the thread sees it: the latest earlier store of its own that is still on its way, over the L1D line where the load
may use one, over the home (R20, R245). -/
def viewByte (s : State) (plain : Bool) (l : Loc) : Byte :=
  let base := if l.kind = .mmio then identByte s.dev.boot (l.key % 2 ^ 32)
    else if plain && l.cached then
      match l1dFind s.dev (coreOf s) l.key s.thr.pnd.l1dMin with
      | some ln => lineByte ln l.key
      | none => readByte s.dev l.key
    else readByte s.dev l.key
  s.thr.pnd.stores.foldl (fun b p => p.bytes.foldl (fun b q => if q.1 = l.key then (b &&& ~~~q.2.1) ||| (q.2.2 &&& q.2.1) else b) b) base

/-- The load comes from an L1D line. -/
def fromLine (s : State) (plain : Bool) (l : Loc) : Bool :=
  plain && l.cached && (l1dFind s.dev (coreOf s) l.key s.thr.pnd.l1dMin).isSome

/-- The first location among those read whose granule is poisoned (R363). -/
def poisonAt (s : State) (plain : Bool) (locs : List Loc) : Option Nat :=
  if s.dev.poison.isEmpty then none
  else locs.findIdx? (fun l => l.kind != .mmio && !fromLine s plain l && poisoned s.dev l.key)

/-- Outcome of a load. A wait carries the request that leaves meanwhile, a trap cause, TVAL and TVAL2 where it names a device. -/
inductive Got where
  | ok (bytes : List Byte) (locs : List Loc)
  | wait (ask : Option (Nat × Nat))
  | trap (cause val : Nat) (val2 : Option Nat) (hit : Nat)

/-- The bytes of a load that may be made now, or the first poisoned one. -/
def takeBytes (s : State) (plain : Bool) (va : Nat) (locs : List Loc) : Got :=
  match poisonAt s plain locs with
  | some i => .trap cLoss (va + i) none 0
  | none => .ok (locs.map (viewByte s plain)) locs

/-- A load of n bytes in a class whose checks have been made (R91, R92, R363, R382). -/
def loadChecked (s : State) (cls va : Nat) (locs : List Loc) : Got :=
  match locs.find? (fun l => l.kind = .remote) with
  | some l =>
    match farAccess s cls true (loadWaits s cls || overlapsUpdate s locs) (locs.filter (fun k => k.kind = .remote && paDev k.key = paDev l.key)) with
    | .lost dn => .trap cLoss va (some (2 ^ 62 + dn)) 0
    | .wait q => .wait q
    | .ready => takeBytes s (cls != 15) va locs
  | none => if loadWaits s cls then .wait none else takeBytes s (cls != 15) va locs

/-- A load of n bytes in a class. -/
def loadAs (s : State) (near : Bool) (cls align va n : Nat) : Got :=
  match checkAs s false near align va n with
  | .trap c a h => .trap c a none h
  | .ok locs => loadChecked s cls va locs

/-- A load that may be remote. -/
def loadBytes (s : State) (cls align va n : Nat) : Got := loadAs s false cls align va n

/-- What a load counts and orders: the counters (R235), and a sync load wider than core keeps later loads off older lines (R252). -/
def countLoad (cls : Nat) (locs : List Loc) (s : State) : State :=
  let home := locs.filter (fun l => !isScratch l.key && l.kind != .mmio && !fromLine s (cls != 15) l)
  let s := if home.isEmpty then s else { s with dev := addAcnt s.slot.acct 2 home.length s.dev }
  if cls = 15 && locs.any (fun l => !isScratch l.key) then { s with thr.pnd.l1dMin := s.dev.ser + 1, dev.ser := s.dev.ser + 1 } else s

/-- What a load leaves when its response has come. -/
def afterLoad (cls : Nat) (locs : List Loc) (s : State) : State := answered locs (countLoad cls locs s)

/-! ## Stores -/

/-- A store put among those on their way. It updates a present L1D line when it is performed (R245, R250). (DESIGN CHOICE, log 18) -/
def pushStore (cls va : Nat) (bs : List (Nat × Byte × Byte)) (s : State) : State :=
  let st : PStore := ⟨s.dev.ser + 1, cls, 0, 0, 0, bs, s.thr.sr.taskid, va, none⟩
  { s with thr.pnd.stores := s.thr.pnd.stores ++ [st], dev.ser := s.dev.ser + 1 }

/-- One element of a vector or moment store put among the stores, or with `upd` a scatter-add's update of another device; the elements
of one word share the `ser` the word began with (R105, R251). -/
def pushElem (cls va upd : Nat) (bs : List (Nat × Byte × Byte)) (s : State) : State :=
  { s with thr.pnd.stores := s.thr.pnd.stores ++ [⟨s.dev.ser, cls, 0, 0, upd, bs, s.thr.sr.taskid, va, none⟩] }

/-- A new serial number, for a word whose elements are stores. -/
def newSer (s : State) : State := { s with dev.ser := s.dev.ser + 1 }

/-- A class fence put among the stores: `kind` 0 `fence`, 1 `fence.rel`, 2 `fence.acq` (R255). -/
def pushFence (mask : BitVec 16) (kind : Nat) (s : State) : State :=
  if mask = 0 then s else
  { s with thr.pnd.stores := s.thr.pnd.stores ++ [⟨s.dev.ser + 1, 0, mask, kind, 0, [], s.thr.sr.taskid, 0, none⟩],
           dev.ser := s.dev.ser + 1 }

/-- The store or fence at a place of the list may be performed: nothing that R251, R252, R255 or R20 orders before it is left (R263).
Elements of one vector or moment word carry one `ser` and are unordered but where they share a byte (R105). A `fence.acq` waits for
`zld` and `zst` only, since loads and the reads of atomics are performed at their issue. -/
def eligible (s : State) (i : Nat) : Bool :=
  match s.thr.pnd.stores[i]? with
  | none => false
  | some p =>
    let earlier := s.thr.pnd.stores.take i
    if p.fence != 0 then
      !(p.kind != 2 && earlier.any (fun e => e.fence = 0 && bit p.fence.toNat e.cls)) && !tileAccess s p.fence p.ser
    else
      !earlier.any (fun e => (e.ser != p.ser && holdsBack p.cls false e) || e.bytes.any (fun b => p.bytes.any (fun c => c.1 = b.1)))
        && !(p.cls = 15 && tileAccess s 0xFFFF p.ser)

/-- The poisoned units that the vector store just issued writes whole, noted until the last of its elements there is performed
(R363). -/
def noteWhole (s : State) : State :=
  if s.dev.poison.isEmpty then s else
  let keys := (s.thr.pnd.stores.filter (fun p => p.ser = s.dev.ser && p.fence = 0 && p.upd = 0)).flatMap (fun p =>
    (p.bytes.filter (fun b => b.2.1 = 0xFF)).map (·.1))
  let units := keys.filter (fun k => k % poisonSize k = 0 && (upFrom k (poisonSize k)).all keys.contains)
  { s with thr.pnd.whole := (s.thr.pnd.whole ++ units.map (fun k => (s.dev.ser, k))).eraseDups }

/-- The element shares a byte with a unit. -/
def PStore.inUnit (p : PStore) (k : Nat) : Bool := p.bytes.any (fun b => k ≤ b.1 && b.1 < k + poisonSize k)

/-- Marks cleared by a vector store whose last element in a unit has just been performed. -/
def clearWhole (p : PStore) (s : State) : State :=
  if s.thr.pnd.whole.isEmpty then s else
  let now := s.thr.pnd.whole.filter (fun x => x.1 = p.ser && p.inUnit x.2
    && !s.thr.pnd.stores.any (fun q => q.ser = p.ser && q.inUnit x.2))
  { s with thr.pnd.whole := s.thr.pnd.whole.filter (fun x => !now.contains x)
           dev := now.foldl (fun d x => clearPoison d (upFrom x.2 (poisonSize x.2))) s.dev }

/-- Masked bytes put into the lines that a core holds of them (R245). -/
def updateLines (core : Nat) (bs : List (Nat × Byte × Byte)) (d : Device) : Device :=
  if d.l1d.isEmpty then d else bs.foldl (fun d p => l1dUpdate d core p.1 p.2.1 p.2.2) d

/-- The thread's later loads use no L1D line filled before now (R252, R255). -/
def newLines (s : State) : State := { s with thr.pnd.l1dMin := s.dev.ser + 1, dev.ser := s.dev.ser + 1 }

/-- The bytes that a store writes: its own, or for an update the sum with what the home holds (R112, R259). `add` is the sum of two
elements of a format. -/
def homeBytes (add : Nat → Nat → Nat → Nat) (d : Device) (p : PStore) : List (Nat × Byte × Byte) :=
  if p.upd = 0 then p.bytes
  else
    let keys := p.bytes.map (·.1)
    wholeBytes keys (leBytes keys.length (add p.upd (leNat (keys.map (readByte d))) (leNat (p.bytes.map (·.2.2)))))

/-- The store or fence at a place of the list performed at its home, and in the lines its core holds, and taken off the list. -/
def performWith (add : Nat → Nat → Nat → Nat) (i : Nat) (s : State) : State :=
  match s.thr.pnd.stores[i]? with
  | none => s
  | some p =>
    let s := { s with thr.pnd.stores := s.thr.pnd.stores.eraseIdx i }
    if p.fence != 0 then (if p.kind = 1 then s else newLines s)
    else
      let bs := homeBytes add s.dev p
      let s := if bs.isEmpty then s
        else { s with dev := updateLines (coreOf s) bs (performBytes (writerOf s 0 p.task) s.slot.acct (if p.upd = 0 then 0 else 2) bs s.dev) }
      let s := clearWhole p (if p.upd = 0 || bs.isEmpty then s else { s with dev := addAcnt s.slot.acct 2 bs.length s.dev })
      if p.cls = 15 && bs.any (fun b => !isScratch b.1) then newLines s else s

/-- A read-modify-write of n bytes at its home, with no other access between (R258, R260): `f` gives the new value, or none where
no store is made. Answers the old value. The lines the core holds follow (R20). -/
def atomicAt (locs : List Loc) (op : Nat) (f : Nat → Option Nat) (s : State) : Nat × State :=
  let keys := locs.map (·.key)
  let old := leNat (keys.map (readByte s.dev))
  let out := locs.filter (fun l => !isScratch l.key)
  let s := answered locs (if out.isEmpty then s else { s with dev := addAcnt s.slot.acct 2 out.length s.dev })
  match f old with
  | none => (old, s)
  | some new =>
    let bs := wholeBytes keys (leBytes keys.length new)
    (old, { s with dev := updateLines (coreOf s) bs (performBytes (writerOf s 0 s.thr.sr.taskid) s.slot.acct op bs s.dev) })

end Sys2Proof.Machine
end

