-- ==== Sys2Proof/Machine/Flags.lean ====
section
/-! DEFINITION. Number formats, exact values, RoundTo and the flags it raises, and the arithmetic of floats (R27 to R33, R36 to R45,
R83 to R85, R118). A value is an exact dyadic number; a quotient or root carries a sticky mark for what lies below its last bit. -/

namespace Sys2Proof.Machine

/-! ## Flags (R41) -/

/-- NX. -/
abbrev fNX : Nat := 1
/-- UF. -/
abbrev fUF : Nat := 2
/-- OF. -/
abbrev fOF : Nat := 4
/-- DZ. -/
abbrev fDZ : Nat := 8
/-- NV. -/
abbrev fNV : Nat := 16

/-- Rounding modes of FPCTL.RM (R40). -/
inductive RM where
  | rne | rtz | rdn | rup
deriving DecidableEq, Repr

/-- The rounding mode of a code. -/
def rmOf : Nat → RM
  | 0 => .rne
  | 1 => .rtz
  | 2 => .rdn
  | _ => .rup

/-! ## Formats -/

/-- A float format: exponent bits, fraction bits, bias, and which special codes it has (R28, R30). -/
structure FFmt where
  eb : Nat
  mb : Nat
  bias : Nat
  hasInf : Bool
  hasNan : Bool
deriving DecidableEq, Repr

/-- The float format of a code of R27; FP32 for a code that names none. -/
def ffmt (f : Nat) : FFmt :=
  match f with
  | 10 => ⟨8, 7, 127, true, true⟩
  | 11 => ⟨5, 10, 15, true, true⟩
  | 12 => ⟨4, 3, 7, false, true⟩
  | 13 => ⟨5, 2, 15, true, true⟩
  | 14 => ⟨3, 2, 3, false, false⟩
  | 15 => ⟨2, 3, 1, false, false⟩
  | 16 => ⟨2, 1, 1, false, false⟩
  | _ => ⟨8, 23, 127, true, true⟩

/-- FPCTL.FTZ applies to the format (R31, R45). -/
def ftzFmt (f : Nat) : Bool := fmtFloat f

/-- The sign bit of a format's codes. -/
def signBit (f : FFmt) : Nat := 2 ^ (f.eb + f.mb)

/-- The code of an infinity of a format that has one (R28, R30). -/
def infCode (f : FFmt) (neg : Bool) : Nat := (2 ^ f.eb - 1) * 2 ^ f.mb + (if neg then signBit f else 0)

/-- The canonical NaN (R28 to R30): 0x7F in E4M3. -/
def nanCode (f : FFmt) : Nat :=
  if f.hasInf then (2 ^ f.eb - 1) * 2 ^ f.mb + 2 ^ (f.mb - 1) else signBit f - 1

/-- The largest finite code without its sign: E4M3 stops one below its NaN (R30). -/
def maxCode (f : FFmt) : Nat :=
  if f.hasInf then (2 ^ f.eb - 1) * 2 ^ f.mb - 1 else if f.hasNan then signBit f - 2 else signBit f - 1

/-! ## Values -/

/-- A value: NaN, an infinity, or (-1)^neg · m · 2^e, with `sticky` when the exact magnitude lies strictly between m and m + 1
units. -/
inductive FV where
  | nan (sig : Bool)
  | inf (neg : Bool)
  | fin (neg : Bool) (m : Nat) (e : Int) (sticky : Bool)
deriving DecidableEq, Repr

/-- The value of a code (R28, R30). -/
def fval (f : FFmt) (c : Nat) : FV :=
  let s := bit c (f.eb + f.mb)
  let e := bits c f.mb f.eb
  let m := bits c 0 f.mb
  if f.hasInf && e = 2 ^ f.eb - 1 then (if m = 0 then .inf s else .nan (!bit m (f.mb - 1)))
  else if f.hasNan && !f.hasInf && e = 2 ^ f.eb - 1 && m = 2 ^ f.mb - 1 then .nan false
  else if e = 0 then .fin s m (1 - (f.bias : Int) - f.mb) false
  else .fin s (m + 2 ^ f.mb) ((e : Int) - f.bias - f.mb) false

/-- The value of an operand: with FTZ a subnormal of FP32, BF16 or FP16 is a zero of its sign (R45). (DEDUCED, log 60) -/
def foperand (fmt : Nat) (ftz : Bool) (c : Nat) : FV :=
  let f := ffmt fmt
  if ftz && ftzFmt fmt && bits c f.mb f.eb = 0 then .fin (bit c (f.eb + f.mb)) 0 0 false else fval f c

/-- An integer as a value. -/
def intVal (i : Int) : FV := .fin (i < 0) i.natAbs 0 false

/-- The value is a NaN. -/
def FV.isNan : FV → Bool
  | .nan _ => true
  | _ => false

/-- The value is a signalling NaN. -/
def FV.isSig : FV → Bool
  | .nan s => s
  | _ => false

/-- The value is a zero. -/
def FV.isZero : FV → Bool
  | .fin _ m _ st => m = 0 && !st
  | _ => false

/-- The value is an infinity. -/
def FV.isInf : FV → Bool
  | .inf _ => true
  | _ => false

/-- The sign of a value that is no NaN. -/
def FV.neg : FV → Bool
  | .nan _ => false
  | .inf n => n
  | .fin n _ _ _ => n

/-- The negated value. -/
def FV.negate : FV → FV
  | .nan s => .nan s
  | .inf n => .inf (!n)
  | .fin n m e st => .fin (!n) m e st

/-- NV for each signalling NaN among operands (R29). -/
def sigNV (l : List FV) : Nat := if l.any FV.isSig then fNV else 0

/-! ## RoundTo (R42 to R44) -/

/-- Bit length. -/
def bitLen (n : Nat) : Nat := if n = 0 then 0 else Nat.log2 n + 1

/-- Whether the magnitude n + rem/2^sh (rem below 2^sh, plus a sticky mark) rounds up (R42 step 2). -/
def roundsUp (mode : RM) (neg : Bool) (n rem sh : Nat) (sticky : Bool) : Bool :=
  match mode with
  | .rne => if 2 * rem = 2 ^ sh then sticky || n % 2 = 1 else 2 ^ sh < 2 * rem
  | .rtz => false
  | .rdn => neg && (rem != 0 || sticky)
  | .rup => !neg && (rem != 0 || sticky)

/-- A magnitude m · 2^e in units of 2^q, rounded: the whole units and whether anything was lost. -/
def roundUnits (mode : RM) (neg : Bool) (m : Nat) (e q : Int) (sticky : Bool) : Nat × Bool :=
  if q ≤ e then (m * 2 ^ (e - q).toNat, sticky)
  else
    let sh := (q - e).toNat
    let n := m / 2 ^ sh
    let rem := m % 2 ^ sh
    (if roundsUp mode neg n rem sh sticky then n + 1 else n, rem != 0 || sticky)

/-- The code of n · 2^q, n below 2^(mb+1) + 1 units, without its sign; it may exceed the largest finite code. -/
def packMag (f : FFmt) (n : Nat) (q : Int) : Nat :=
  if n < 2 ^ f.mb then n
  else if n = 2 ^ (f.mb + 1) then ((q + f.mb + 1 + f.bias).toNat) * 2 ^ f.mb
  else ((q + f.mb + f.bias).toNat) * 2 ^ f.mb + (n - 2 ^ f.mb)

/-- The result of a finite overflow (R44). -/
def overflowCode (f : FFmt) (mode : RM) (sat neg : Bool) : Nat :=
  let s := if neg then signBit f else 0
  if sat || !f.hasNan then maxCode f + s
  else if !f.hasInf then nanCode f
  else match mode, neg with
    | .rne, _ => infCode f neg
    | .rtz, _ => maxCode f + s
    | .rdn, false => maxCode f
    | .rdn, true => infCode f true
    | .rup, false => infCode f false
    | .rup, true => maxCode f + s

/-- The unit in which a magnitude m · 2^e is rounded: that of its own binade, not finer than the subnormal spacing (R42 step 2). -/
def unitOf (f : FFmt) (m : Nat) (e : Int) : Int :=
  max ((bitLen m : Int) + e - (f.mb + 1)) (1 - (f.bias : Int) - f.mb)

/-- RoundTo of a finite magnitude (R42, R44, R45): code and flags. (DEDUCED, log 19) -/
def roundFin (fmt : Nat) (mode : RM) (sat ftz neg : Bool) (m : Nat) (e : Int) (sticky : Bool) : Nat × Nat :=
  let f := ffmt fmt
  let s := if neg then signBit f else 0
  let q := unitOf f m e
  let r := roundUnits mode neg m e q sticky
  let mag := packMag f r.1 q
  let nx := if r.2 then fNX else 0
  if maxCode f < mag then (overflowCode f mode sat neg, fOF + fNX)
  else if mag != 0 && mag < 2 ^ f.mb then
    if ftz && ftzFmt fmt then (s, fUF + fNX) else (mag + s, nx + (if r.2 then fUF else 0))
  else (mag + s, nx)

/-- RoundTo with the special values of R44: code and flags. -/
def roundTo (fmt : Nat) (mode : RM) (sat ftz : Bool) : FV → Nat × Nat
  | .nan _ => if (ffmt fmt).hasNan then (nanCode (ffmt fmt), 0) else (0, fNV)
  | .inf n =>
    let f := ffmt fmt
    let s := if n then signBit f else 0
    if f.hasInf then (infCode f n, 0)
    else if f.hasNan && !sat then (nanCode f, fNV)
    else (maxCode f + s, fNV)
  | .fin n m e st => roundFin fmt mode sat ftz n m e st

/-- Stochastic rounding (R43) under RNE's overflow cell, with steps 3 to 5 of R42. -/
def roundStoch (fmt : Nat) (sat ftz : Bool) (r : Nat) : FV → Nat × Nat
  | .fin n m e _ =>
    let f := ffmt fmt
    let s := if n then signBit f else 0
    let q := unitOf f m e
    let t := roundUnits .rtz n m e q false
    let d := if q ≤ e then 0 else (m % 2 ^ (q - e).toNat) * 65536 / 2 ^ (q - e).toNat
    let k := if t.2 && r < d then t.1 + 1 else t.1
    let mag := packMag f k q
    let nx := if t.2 then fNX else 0
    if maxCode f < mag then (overflowCode f .rne sat n, fOF + fNX)
    else if mag != 0 && mag < 2 ^ f.mb then
      if ftz && ftzFmt fmt then (s, fUF + fNX) else (mag + s, nx + (if t.2 then fUF else 0))
    else (mag + s, nx)
  | x => roundTo fmt .rne sat ftz x

/-- A float rounded to an integer (R42 step 2 for integer formats), before its range is looked at: the integer and whether it
was rounded. -/
def roundInt (mode : RM) (neg : Bool) (m : Nat) (e : Int) (sticky : Bool) : Int × Bool :=
  let r := roundUnits mode neg m e 0 sticky
  (if neg then -(r.1 : Int) else r.1, r.2)

/-- The integer row of R44: result as an integer in [lo, hi], and flags. -/
def floatToInt (mode : RM) (lo hi : Int) : FV → Int × Nat
  | .nan _ => (0, fNV)
  | .inf n => (if n then lo else hi, fNV)
  | .fin n m e st =>
    let r := roundInt mode n m e st
    if r.1 < lo then (lo, fNV) else if hi < r.1 then (hi, fNV) else (r.1, if r.2 then fNX else 0)

/-! ## Exact arithmetic -/

/-- The sum of two finite values as sign, magnitude and exponent. An exact zero is +0, or -0 under RDN, and a sum of two zeros of
one sign keeps it (R42). -/
def addFin (mode : RM) (n1 : Bool) (m1 : Nat) (e1 : Int) (n2 : Bool) (m2 : Nat) (e2 : Int) : FV :=
  let e := if m1 = 0 then e2 else if m2 = 0 then e1 else min e1 e2
  let a : Int := if m1 = 0 then 0 else (if n1 then -1 else 1) * (m1 * 2 ^ (e1 - e).toNat : Nat)
  let b : Int := if m2 = 0 then 0 else (if n2 then -1 else 1) * (m2 * 2 ^ (e2 - e).toNat : Nat)
  let t := a + b
  if t = 0 then .fin (if m1 = 0 ∧ m2 = 0 ∧ n1 = n2 then n1 else mode = .rdn) 0 0 false
  else .fin (t < 0) t.natAbs e false

/-- a + b with its flags before rounding (R83, R118). -/
def fvAdd (mode : RM) (a b : FV) : FV × Nat :=
  match a, b with
  | .nan s, b => (.nan false, if s || b.isSig then fNV else 0)
  | _, .nan s => (.nan false, if s then fNV else 0)
  | .inf x, .inf y => if x = y then (.inf x, 0) else (.nan false, fNV)
  | .inf x, _ => (.inf x, 0)
  | _, .inf y => (.inf y, 0)
  | .fin n1 m1 e1 _, .fin n2 m2 e2 _ => (addFin mode n1 m1 e1 n2 m2 e2, 0)

/-- a × b with its flags before rounding. -/
def fvMul (a b : FV) : FV × Nat :=
  match a, b with
  | .nan s, b => (.nan false, if s || b.isSig then fNV else 0)
  | _, .nan s => (.nan false, if s then fNV else 0)
  | .inf x, b => if b.isZero then (.nan false, fNV) else (.inf (x != b.neg), 0)
  | a, .inf y => if a.isZero then (.nan false, fNV) else (.inf (a.neg != y), 0)
  | .fin n1 m1 e1 _, .fin n2 m2 e2 _ => (.fin (n1 != n2) (m1 * m2) (e1 + e2) false, 0)

/-- d + a × b, exact before its one rounding; ∞ × 0 raises NV even when d is a quiet NaN (R83, R118). -/
def fvFma (mode : RM) (d a b : FV) : FV × Nat :=
  let p := fvMul a b
  let r := fvAdd mode d p.1
  (r.1, p.2 ||| r.2 ||| sigNV [d, a, b])

/-- a ÷ b with its flags before rounding. -/
def fvDiv (a b : FV) : FV × Nat :=
  match a, b with
  | .nan s, b => (.nan false, if s || b.isSig then fNV else 0)
  | _, .nan s => (.nan false, if s then fNV else 0)
  | .inf _, .inf _ => (.nan false, fNV)
  | .inf x, b => (.inf (x != b.neg), 0)
  | a, .inf y => (.fin (a.neg != y) 0 0 false, 0)
  | .fin n1 m1 e1 _, .fin n2 m2 e2 _ =>
    if m2 = 0 then (if m1 = 0 then (.nan false, fNV) else (.inf (n1 != n2), fDZ))
    else
      let k := bitLen m2 + 80
      let q := m1 * 2 ^ k / m2
      (.fin (n1 != n2) q (e1 - e2 - k) (m1 * 2 ^ k % m2 != 0), 0)

/-- Integer square root by bits: the largest r below 2^n with r² ≤ v, found from the top bit down. -/
def isqrtBits (v : Nat) : Nat → Nat → Nat
  | 0, r => r
  | n + 1, r => isqrtBits v n (if (r + 2 ^ n) * (r + 2 ^ n) ≤ v then r + 2 ^ n else r)

/-- Integer square root. -/
def isqrt (v : Nat) : Nat := isqrtBits v (bitLen v / 2 + 1) 0

/-- √a with its flags before rounding; √-0 = -0 and a < 0 gives NaN with NV. -/
def fvSqrt : FV → FV × Nat
  | .nan s => (.nan false, if s then fNV else 0)
  | .inf n => if n then (.nan false, fNV) else (.inf false, 0)
  | .fin n m e _ =>
    if m = 0 then (.fin n 0 0 false, 0)
    else if n then (.nan false, fNV)
    else
      let k : Nat := 80 + (if (e - 80) % 2 = 0 then 0 else 1)
      let v := m * 2 ^ k
      let r := isqrt v
      (.fin false r ((e - k) / 2) (r * r != v), 0)

/-- The order of two values that are no NaN: -1, 0 or 1; +0 equals -0. -/
def fvCmp (a b : FV) : Int :=
  match a, b with
  | .inf x, .inf y => if x = y then 0 else if x then -1 else 1
  | .inf x, _ => if x then -1 else 1
  | _, .inf y => if y then 1 else -1
  | .fin n1 m1 e1 _, .fin n2 m2 e2 _ =>
    let e := min e1 e2
    let p : Int := (if n1 then -1 else 1) * (m1 * 2 ^ (e1 - e).toNat : Nat)
    let q : Int := (if n2 then -1 else 1) * (m2 * 2 ^ (e2 - e).toNat : Nat)
    if p < q then -1 else if p = q then 0 else 1
  | _, _ => 0

/-- minimumNumber and maximumNumber (R118): the other operand for one NaN, NaN for two, -0 below +0. -/
def fvMinMax (isMax : Bool) (a b : FV) : FV × Nat :=
  let fl := sigNV [a, b]
  match a, b with
  | .nan _, .nan _ => (.nan false, fl)
  | .nan _, b => (b, fl)
  | a, .nan _ => (a, fl)
  | a, b =>
    let c := fvCmp a b
    let aFirst := if c = 0 then a.neg else c = -1
    (if aFirst != isMax then a else b, fl)

/-- The predicates of a float compare: 0 =, 1 ≠, 2 <, 3 ≤, 4 >, 5 ≥ (R84, R119): truth and flags. `quiet` compares raise NV for a
signalling NaN only. -/
def fvCompare (pred : Nat) (a b : FV) : Bool × Nat :=
  if a.isNan || b.isNan then (pred = 1, if pred ≤ 1 then sigNV [a, b] else fNV)
  else
    let c := fvCmp a b
    (match pred with
     | 0 => c = 0
     | 1 => c ≠ 0
     | 2 => c < 0
     | 3 => c ≤ 0
     | 4 => c > 0
     | _ => c ≥ 0, 0)

/-! ## FPCTL, FPFLAGS and the traps (R40, R41, R47, R86) -/

/-- FPCTL.RM. -/
def rmN (s : State) : RM := rmOf (bits s.thr.sr.fpctl.toNat 0 2)
/-- FPCTL.FTZ. -/
def ftzN (s : State) : Bool := bit s.thr.sr.fpctl.toNat 2
/-- Those of the raised flags whose trap FPCTL.TEN enables. -/
def enabledFlags (s : State) (fl : Nat) : Nat := fl &&& bits s.thr.sr.fpctl.toNat 8 5
/-- Flags merged into FPFLAGS (R46, R86). -/
def mergeFlags (fl : Nat) (s : State) : State := { s with thr.sr.fpflags := s.thr.sr.fpflags ||| w64 (fl % 32) }
/-- Flags merged into MFLAGS (R151). -/
def mergeMflags (fl : Nat) (s : State) : State := { s with thr.sr.mflags := s.thr.sr.mflags ||| w64 (fl % 8) }

/-- The end of a scalar float instruction (R86): FP_EXCEPTION with nothing merged and nothing written, or the flags merged and the
result written. -/
def finishScalarFloat (d : Nat) (val : Word) (fl : Nat) (s : State) : Res :=
  if enabledFlags s fl != 0 then .trap 0x10 (w64 (enabledFlags s fl)) 0 s else .done (wx d val (mergeFlags fl s))

end Sys2Proof.Machine
end

