-- ==== Sys2Proof/Machine/Operands.lean ====
section
/-! DEFINITION. The operand forms: register numbers of a word's fields, immediates, branch targets, effective addresses, scalar float
operands, and elements of vector and moment groups under their formats and blocks (R31, R33, R37, R38, R56, R70, R76, R83, R90,
R114). -/

namespace Sys2Proof.Machine

/-- The value of a 5-bit scalar register field (R56). -/
abbrev xr (s : State) (f : BitVec 5) : Word := rx s f.toNat

/-- A sign-extended immediate (R76). -/
def simm {n : Nat} (i : BitVec n) : Word := i.signExtend 64

/-- A zero-extended immediate (R76). -/
def zimm {n : Nat} (i : BitVec n) : Word := i.setWidth 64

/-- The target of a branch: its address plus four times the signed offset (R56). -/
def target {n : Nat} (pc : Word) (o : BitVec n) : Word := pc + simm o * 4

/-- The effective address of an XM word (R90). -/
def effAddr (s : State) (a : BitVec 5) (o : BitVec 12) : Word := xr s a + simm o

/-- The format code of a scalar float word's FMT field (R82). -/
def sfmt (f : BitVec 2) : Nat := match f.toNat with | 0 => 9 | 1 => 11 | _ => 10

/-- A scalar float operand: the low bits of the register, with FTZ (R45, R83). -/
def sfOperand (s : State) (f : BitVec 2) (r : BitVec 5) : FV :=
  foperand (sfmt f) (ftzN s) (bits (xr s r).toNat 0 (fmtEw (sfmt f)))

/-- An integer element read by its format (R32). -/
def intElem (fmt c : Nat) : Int := if fmtSigned fmt then toSigned (fmtEw fmt) c else c

/-- The smallest and largest integers of a format (R32). -/
def intRange (fmt : Nat) : Int × Int :=
  if fmtSigned fmt then (-(2 ^ (fmtEw fmt - 1) : Int), 2 ^ (fmtEw fmt - 1) - 1) else (0, 2 ^ fmtEw fmt - 1)

/-- An integer clamped to a format's range. -/
def clampTo (fmt : Nat) (i : Int) : Int := max (intRange fmt).1 (min (intRange fmt).2 i)

/-- The element of a vector-scalar operand: the low EW bits of the register (R114). -/
def xElem (s : State) (b : BitVec 5) (ew : Nat) : Nat := bits (xr s b).toNat 0 ew

/-- Entry c of a codebook register: a BF16 code (R33). -/
def bookEntry (book : BitVec 256) (c : Nat) : Nat := bits book.toNat (16 * c) 16

/-- A value multiplied by 2^k. -/
def scaleVal (k : Int) : FV → FV
  | .fin n m e st => .fin n m (e + k) st
  | x => x

/-- The value of an element of a block-scaled stream: NaN when the scale is 0xFF, otherwise the element times 2^(scale - 127)
(R36 to R38). -/
def blockVal (fmt scale c : Nat) : FV :=
  if scale = 0xFF then .nan true
  else scaleVal ((scale : Int) - 127) (if fmt = 1 then scaleVal (-6) (intVal (toSigned 8 c)) else fval (ffmt fmt) c)

/-- The value of element code c of the format in force outside blocks: integers, floats with FTZ, codebook values as stored
(R31 to R33, R45). -/
def elemVal (s : State) (fmt c : Nat) : FV :=
  if fmtInt fmt then intVal (intElem fmt c)
  else if fmt = 19 then fval (ffmt 10) (bookEntry (SMap.get 0 s.thr.cb (vtCb s.thr.sr.vtype)) c)
  else foperand fmt (ftzN s) c

end Sys2Proof.Machine
end

