-- ==== Sys2Proof/Machine/LoadStore.lean ====
section
/-! DEFINITION. Scalar loads and stores, atomics, fences and `wpoll` (R90 to R92, R251 to R262). -/

namespace Sys2Proof.Machine

/-! ## Loads and stores (R90 to R92) -/

/-- The end of a load that trapped: HIT bits for WATCHPOINT, TVAL2 where it names a device. -/
def loadTrap (c v : Nat) (v2 : Option Nat) (h : Nat) (elem : Nat) (s : State) : Res :=
  .trap c (w64 v) (w64 (match v2 with | some x => x | none => elem)) (setHits h s)

/-- A scalar load of n bytes; `ext` makes the register's value of them (R90). A load with D = 0 performs its access. -/
def scalarLoad (w : BitVec 32) (d a : BitVec 5) (c : BitVec 4) (o : BitVec 12) (n : Nat) (ext : Nat → Word) (s : State) : State :=
  run { word := w, xr := [a.toNat], xw := [d.toNat] } s (fun s =>
    match loadBytes s c.toNat n (effAddr s a o).toNat n with
    | .trap cause v v2 h => loadTrap cause v v2 h 0 s
    | .wait q => .wait (askFor q s)
    | .ok bs locs => .done (wx d.toNat (ext (leNat bs)) (afterLoad c.toNat locs s)))

/-- A scalar store of the low n bytes of xD (R90). -/
def scalarStore (w : BitVec 32) (d a : BitVec 5) (c : BitVec 4) (o : BitVec 12) (n : Nat) (s : State) : State :=
  run { word := w, xr := [d.toNat, a.toNat] } s (fun s =>
    match checkAccess s true n (effAddr s a o).toNat n with
    | .trap cause v h => .trap cause (w64 v) 0 (setHits h s)
    | .ok locs => .done (pushStore c.toNat (effAddr s a o).toNat (wholeBytes (locs.map (·.key)) (leBytes n (xr s d).toNat)) s))

/-- LDB (R90). -/
def execLdb (d a : BitVec 5) (c : BitVec 4) (o : BitVec 12) (s : State) : Host.Outcome State Fault Refusal :=
  .next (scalarLoad (encode (.ldb d a c o)) d a c o 1 (sextWord 8) s)

/-- LDBU (R90). -/
def execLdbu (d a : BitVec 5) (c : BitVec 4) (o : BitVec 12) (s : State) : Host.Outcome State Fault Refusal :=
  .next (scalarLoad (encode (.ldbu d a c o)) d a c o 1 w64 s)

/-- LDH (R90). -/
def execLdh (d a : BitVec 5) (c : BitVec 4) (o : BitVec 12) (s : State) : Host.Outcome State Fault Refusal :=
  .next (scalarLoad (encode (.ldh d a c o)) d a c o 2 (sextWord 16) s)

/-- LDHU (R90). -/
def execLdhu (d a : BitVec 5) (c : BitVec 4) (o : BitVec 12) (s : State) : Host.Outcome State Fault Refusal :=
  .next (scalarLoad (encode (.ldhu d a c o)) d a c o 2 w64 s)

/-- LDW (R90). -/
def execLdw (d a : BitVec 5) (c : BitVec 4) (o : BitVec 12) (s : State) : Host.Outcome State Fault Refusal :=
  .next (scalarLoad (encode (.ldw d a c o)) d a c o 4 (sextWord 32) s)

/-- LDWU (R90). -/
def execLdwu (d a : BitVec 5) (c : BitVec 4) (o : BitVec 12) (s : State) : Host.Outcome State Fault Refusal :=
  .next (scalarLoad (encode (.ldwu d a c o)) d a c o 4 w64 s)

/-- LDD (R90). -/
def execLdd (d a : BitVec 5) (c : BitVec 4) (o : BitVec 12) (s : State) : Host.Outcome State Fault Refusal :=
  .next (scalarLoad (encode (.ldd d a c o)) d a c o 8 w64 s)

/-- STB (R90). -/
def execStb (d a : BitVec 5) (c : BitVec 4) (o : BitVec 12) (s : State) : Host.Outcome State Fault Refusal :=
  .next (scalarStore (encode (.stb d a c o)) d a c o 1 s)

/-- STH (R90). -/
def execSth (d a : BitVec 5) (c : BitVec 4) (o : BitVec 12) (s : State) : Host.Outcome State Fault Refusal :=
  .next (scalarStore (encode (.sth d a c o)) d a c o 2 s)

/-- STW (R90). -/
def execStw (d a : BitVec 5) (c : BitVec 4) (o : BitVec 12) (s : State) : Host.Outcome State Fault Refusal :=
  .next (scalarStore (encode (.stw d a c o)) d a c o 4 s)

/-- STD (R90). -/
def execStd (d a : BitVec 5) (c : BitVec 4) (o : BitVec 12) (s : State) : Host.Outcome State Fault Refusal :=
  .next (scalarStore (encode (.std d a c o)) d a c o 8 s)

/-! ## Atomics (R258 to R260) -/

/-- The scope code of an ASC field is wider than core (R253, R258). -/
def ascWide (sc : BitVec 3) : Bool := sc != 0

/-- A sync atomic wider than core keeps later loads off older L1D lines (R252, R260). -/
def syncAcquire (cls : Nat) (wide : Bool) (s : State) : State :=
  if cls = 15 && wide then newLines s else s

/-- Checks of an atomic of n bytes (R258): a store for translation and rights; a watchpoint of either kind matches, and the lowest byte
that any of them covers is TVAL (R330); device registers trap ACCESS_RIGHTS. -/
def checkAtomic (s : State) (ea n : Nat) : Chk :=
  match checkRange s true false n ea n with
  | .error (c, v) => .trap c v 0
  | .ok locs => match watchHit s true ea n, watchHit s false ea n with
    | none, none => .ok locs
    | some x, none => .trap 0x19 x.1 x.2
    | none, some y => .trap 0x19 y.1 y.2
    | some x, some y => .trap 0x19 (min x.1 y.1) (x.2 ||| y.2)

/-- An atomic at the address in xA: `f` is applied to the old value, `ext` makes xD's value of it. -/
def atomic (w : BitVec 32) (reads : List Nat) (d a : BitVec 5) (sc : BitVec 3) (c : BitVec 4) (n : Nat)
    (f : State → Nat → Option Nat) (ext : Nat → Word) (s : State) : State :=
  run { word := w, xr := reads, xw := [d.toNat] } s (fun s =>
    let ea := (xr s a).toNat
    let go := fun (locs : List Loc) => match poisonAt s false locs with
      | some i => .trap cLoss (w64 (ea + i)) 0 s
      | none => let r := atomicAt locs 1 (f s) s; .done (wx d.toNat (ext r.1) (syncAcquire c.toNat (ascWide sc) r.2))
    match checkAtomic s ea n with
    | .trap cause v h => .trap cause (w64 v) 0 (setHits h s)
    | .ok locs =>
      let stay := atomicWaits s c.toNat || overlapsPending s (locs.map (·.key))
      if locs.any (fun l => l.kind = .remote) then
        match farAccess s c.toNat false stay locs with
        | .lost dn => .trap cLoss (w64 ea) (w64 (2 ^ 62 + dn)) s
        | .wait q => .wait (askFor q s)
        | .ready => go locs
      else if stay then .wait s else go locs)

/-- Bytes of an integer atomic's W field (R258). -/
def wBytes (w : BitVec 1) : Nat := if w = 0 then 8 else 4

/-- The old value in xD: sign-extended from 32 bits when W = 1 (R258). -/
def wExt (w : BitVec 1) (v : Nat) : Word := if w = 0 then w64 v else sextWord 32 v

/-- The low n bytes of a register. -/
def lowBytes (x : Word) (n : Nat) : Nat := bits x.toNat 0 (8 * n)

/-- An integer atomic that reads xB only (R258): `f` gets the width in bits, the old value and b. -/
def intAtomic (word : BitVec 32) (d a b : BitVec 5) (sc : BitVec 3) (c : BitVec 4) (w : BitVec 1) (f : Nat → Nat → Nat → Nat)
    (s : State) : State :=
  atomic word [a.toNat, b.toNat] d a sc c (wBytes w) (fun s old => some (f (8 * wBytes w) old (lowBytes (xr s b) (wBytes w)))) (wExt w) s

/-- AADD (R258). -/
def execAadd (d a b : BitVec 5) (sc : BitVec 3) (c : BitVec 4) (w : BitVec 1) (s : State) : Host.Outcome State Fault Refusal :=
  .next (intAtomic (encode (.aadd d a b sc c w)) d a b sc c w (fun n old x => (old + x) % 2 ^ n) s)

/-- AMIN (R258). -/
def execAmin (d a b : BitVec 5) (sc : BitVec 3) (c : BitVec 4) (w : BitVec 1) (s : State) : Host.Outcome State Fault Refusal :=
  .next (intAtomic (encode (.amin d a b sc c w)) d a b sc c w (fun n old x => if toSigned n old ≤ toSigned n x then old else x) s)

/-- AMAX (R258). -/
def execAmax (d a b : BitVec 5) (sc : BitVec 3) (c : BitVec 4) (w : BitVec 1) (s : State) : Host.Outcome State Fault Refusal :=
  .next (intAtomic (encode (.amax d a b sc c w)) d a b sc c w (fun n old x => if toSigned n old ≤ toSigned n x then x else old) s)

/-- AAND (R258). -/
def execAand (d a b : BitVec 5) (sc : BitVec 3) (c : BitVec 4) (w : BitVec 1) (s : State) : Host.Outcome State Fault Refusal :=
  .next (intAtomic (encode (.aand d a b sc c w)) d a b sc c w (fun _ old x => old &&& x) s)

/-- AOR (R258). -/
def execAor (d a b : BitVec 5) (sc : BitVec 3) (c : BitVec 4) (w : BitVec 1) (s : State) : Host.Outcome State Fault Refusal :=
  .next (intAtomic (encode (.aor d a b sc c w)) d a b sc c w (fun _ old x => old ||| x) s)

/-- AXOR (R258). -/
def execAxor (d a b : BitVec 5) (sc : BitVec 3) (c : BitVec 4) (w : BitVec 1) (s : State) : Host.Outcome State Fault Refusal :=
  .next (intAtomic (encode (.axor d a b sc c w)) d a b sc c w (fun _ old x => old ^^^ x) s)

/-- ASWAP (R258). -/
def execAswap (d a b : BitVec 5) (sc : BitVec 3) (c : BitVec 4) (w : BitVec 1) (s : State) : Host.Outcome State Fault Refusal :=
  .next (intAtomic (encode (.aswap d a b sc c w)) d a b sc c w (fun _ _ x => x) s)

/-- ACAS (R258): it reads xD; where the old value differs no store is made. -/
def execAcas (d a b : BitVec 5) (sc : BitVec 3) (c : BitVec 4) (w : BitVec 1) (s : State) : Host.Outcome State Fault Refusal :=
  .next (atomic (encode (.acas d a b sc c w)) [d.toNat, a.toNat, b.toNat] d a sc c (wBytes w)
    (fun s old => if old = lowBytes (xr s d) (wBytes w) then some (lowBytes (xr s b) (wBytes w)) else none) (wExt w) s)

/-- A float sum at a home: RNE, no flush, no flag, canonical NaN (R112, R259, R277). -/
def homeAdd (fmt old x : Nat) : Nat :=
  (roundTo fmt .rne false false (fvAdd .rne (fval (ffmt fmt) old) (fval (ffmt fmt) x)).1).1

/-- The sum of two elements of a format: integers wrap, floats as at a home (R112). -/
def scatAdd (fmt x y : Nat) : Nat := if fmtInt fmt then (x + y) % 2 ^ fmtEw fmt else homeAdd fmt x y

/-- The store, update or fence at a place of the thread's list performed (R250). -/
def performAt (i : Nat) (s : State) : State := performWith scatAdd i s

/-- AFADD (R259): FP32 for f = 0, BF16 for f = 1. -/
def execAfadd (d a b : BitVec 5) (sc : BitVec 3) (c : BitVec 4) (f : BitVec 1) (s : State) : Host.Outcome State Fault Refusal :=
  .next (atomic (encode (.afadd d a b sc c f)) [a.toNat, b.toNat] d a sc c (if f = 0 then 4 else 2)
    (fun s old => some (homeAdd (if f = 0 then 9 else 10) old (lowBytes (xr s b) (if f = 0 then 4 else 2)))) w64 s)

/-! ## Fences and polling (R254 to R257) -/

/-- A class mask from its two fields (R254). -/
def cmask (m n : BitVec 8) : BitVec 16 := m ++ n

/-- A scope code wider than core (R253). -/
def scopeWide (sc : BitVec 4) : Bool := 2 < sc.toNat

/-- With a scope wider than core, later loads of the thread use no L1D line filled before now (R252, R255). -/
def dropOldLines (wide : Bool) (s : State) : State := if wide then newLines s else s

/-- FENCE (R255); a class mask of 0 makes it a `nop` (R254). -/
def execFence (m : BitVec 8) (sc : BitVec 4) (n : BitVec 8) (s : State) : Host.Outcome State Fault Refusal :=
  .next (scalar (encode (.fence m sc n)) [] [] s (fun s =>
    if cmask m n = 0 then s else dropOldLines (scopeWide sc) (pushFence (cmask m n) 0 s)))

/-- FENCE.ACQ (R255): every load and atomic read before it has been performed when it issues (DESIGN CHOICE, log 4), but `zld` and `zst`
that it selects may still be queued, and later selected accesses wait for them. -/
def execFenceAcq (m : BitVec 8) (sc : BitVec 4) (n : BitVec 8) (s : State) : Host.Outcome State Fault Refusal :=
  .next (scalar (encode (.fenceAcq m sc n)) [] [] s (fun s =>
    if cmask m n = 0 then s else dropOldLines (scopeWide sc) (pushFence (cmask m n) 2 s)))

/-- FENCE.REL (R255). -/
def execFenceRel (m : BitVec 8) (sc : BitVec 4) (n : BitVec 8) (s : State) : Host.Outcome State Fault Refusal :=
  .next (scalar (encode (.fenceRel m sc n)) [] [] s (fun s => pushFence (cmask m n) 1 s))

/-- A `wpoll` (R256): the value read, when it differs from xD or the limit of 2^20 cycles has passed; otherwise the thread sleeps. -/
def pollWord (d a : BitVec 5) (sc : BitVec 4) (s : State) : State :=
  run { word := encode (.wpoll d a sc), xr := [a.toNat, d.toNat], xw := [d.toNat] } s (fun s =>
    let since := match s.thr.pnd.wpollSince with | some t => t | none => cycNow s
    let asleep := { s with thr.pnd.wpollSince := some since }
    let late := decide (2 ^ 20 ≤ cycNow s - since)
    match loadBytes s 15 8 (xr s a).toNat 8 with
    | .trap cause v v2 h => loadTrap cause v v2 h 0 s
    | .wait q => if late then .done (wx d.toNat (xr s d) s) else .wait (askFor q asleep)
    | .ok bs locs =>
      if w64 (leNat bs) != xr s d || late then
        .done (wx d.toNat (w64 (leNat bs)) (dropOldLines (scopeWide sc) (afterLoad 0 (locs.map (fun l => { l with cached := false })) s)))
      else .wait (answered locs asleep))

/-- WPOLL (R256). -/
def execWpoll (d a : BitVec 5) (sc : BitVec 4) (s : State) : Host.Outcome State Fault Refusal := .next (pollWord d a sc s)

end Sys2Proof.Machine
end

