-- ==== Sys2Proof/Machine/Vector.lean ====
section
/-! DEFINITION. What vector, moment and `zmv` words share: the sweep over elements from VSTART with its traps, the share charge, and
the elementwise float end (R24, R46, R47, R98, R104, R233). -/

namespace Sys2Proof.Machine

/-- How one element of a word ends. A wait carries the remote request that leaves meanwhile, a trap cause, TVAL, TVAL2 where it is not the
element index, and HIT bits. -/
inductive El where
  | ok (s : State)
  | wait (ask : Option (Nat × Nat))
  | trap (cause val : Nat) (v2 : Option Nat) (hit : Nat)

/-- How a sweep ends: in every case with the state the elements before its end have left. -/
inductive Swept where
  | all (s : State)
  | wait (ask : Option (Nat × Nat)) (s : State)
  | stop (i cause val : Nat) (v2 : Option Nat) (hit : Nat) (s : State)

/-- The damaged place that element i reads, when the word reads one there (R317, R359). -/
def hurtAt (s : State) (i : Nat) : Option Nat :=
  match hurtMark s with
  | some d => if d.unit = i then some d.num else none
  | none => none

/-- Elements i, i+1, .. carried out, n of them, up to the first that traps or waits (R24, R317). -/
def sweep (f : Nat → State → El) : Nat → Nat → State → Swept
  | 0, _, s => .all s
  | n + 1, i, s =>
    match hurtAt s i, f i s with
    | none, .ok t => sweep f n (i + 1) t
    | some p, .ok _ => .stop i cLoss p (some (2 ^ 63 + i)) 0 (clearHurt s)
    | _, .wait q => .wait q s
    | none, .trap c v v2 h => .stop i c v v2 h (clearHurt s)
    | some p, .trap c v v2 h => if afterLoss c then .stop i cLoss p (some (2 ^ 63 + i)) 0 (clearHurt s) else .stop i c v v2 h (clearHurt s)

/-- The end of a word (R24): VSTART is 0 when it completes and the trapping element when it traps. A word that must wait has done
nothing but send a request. -/
def finishSweep (before : State) : Swept → Res
  | .all t => .done { t with thr.sr.vstart := 0 }
  | .wait q _ => .wait (askFor q before)
  | .stop i c v v2 h t => .trap c (w64 v) (w64 (v2.getD i)) (setHits h { t with thr.sr.vstart := w64 i })

/-! ## Share charge (R229, R233) -/

/-- The launch of the task that TASKID names, which an instruction captures at its issue (R227, R229). -/
def launchOf (s : State) : Option Launch :=
  match SMap.find s.dev.tasks (s.thr.sr.taskid.toNat % 2 ^ 48) with
  | none => none
  | some tk => SMap.find s.dev.launches tk.launch

/-- The account charged: that of the thread's task in a grafted chain, otherwise ACCT. -/
def acctOf (s : State) : Nat :=
  if s.slot.chain.isSome then (match launchOf s with | some l => l.acct | none => s.slot.acct) else s.slot.acct

/-- Lane-beats charged to the queue and the account of the captured task (R233). -/
def chargeBeats (n : Nat) (s : State) : State :=
  let d := addAcnt (acctOf s) 0 n s.dev
  match launchOf s with
  | none => { s with dev := d }
  | some l =>
    let q := SMap.get UQueue.reset d.queues l.queue
    { s with dev := { d with queues := SMap.set UQueue.reset d.queues l.queue { q with qchg := satAdd q.qchg n } } }

/-- The charge of a word that starts now, at an element width (R233). -/
def chargeWord (ew : Nat) (s : State) : State :=
  let n := grpN s * ceilDiv ((vlN s - vsN s) * ew) 64
  if n = 0 then s else chargeBeats n s

/-- A word over the elements from VSTART to vl, charged when it starts. -/
def stripWord (ew : Nat) (f : Nat → State → El) (s : State) : Res :=
  finishSweep s (sweep f (vlN s - vsN s) (vsN s) (chargeWord ew s))

/-- The end of a load word: its requests to other devices have been answered. -/
def loadEnd : Res → Res
  | .done t => .done (allAnswered t)
  | .trap c v v2 t => .trap c v v2 (allAnswered t)
  | r => r

/-- A load word over the elements from VSTART to vl. -/
def loadStrip (ew : Nat) (f : Nat → State → El) (s : State) : Res := loadEnd (stripWord ew f s)

/-- The end of a store word: the poisoned units that its elements write whole are noted (R363). -/
def storeEnd : Res → Res
  | .done t => .done (noteWhole t)
  | .trap c v v2 t => .trap c v v2 (noteWhole t)
  | r => r

/-- A store word over the elements from VSTART to vl. -/
def storeStrip (ew : Nat) (f : Nat → State → El) (s : State) : Res := storeEnd (stripWord ew f (newSer s))

/-! ## Roles (R204) -/

/-- In TRIO the role may issue vector loads. A grafted thread's stream words are legal in every role (R289). -/
def mayLoad (s : State) (stream : Bool) : Bool := !isTrio s || s.cur.2 != 2 || (stream && s.slot.chain.isSome)

/-- In TRIO the role may issue vector stores and scatter-adds. -/
def mayStore (s : State) (stream : Bool) : Bool := !isTrio s || s.cur.2 != 0 || (stream && s.slot.chain.isSome)

/-- Words of the execute role and SOLO only: the matrix words. -/
def mayMatrix (s : State) : Bool := s.cur.2 = 1

/-! ## Elements that compute (R46, R47) -/

/-- An element that raised flags: FP_EXCEPTION when one of them is enabled, otherwise the flags merged and `put` done. -/
def floatEl (fl : Nat) (put : State → State) (s : State) : El :=
  if enabledFlags s fl != 0 then .trap 0x10 (enabledFlags s fl) (some 0) 0 else .ok (put (mergeFlags fl s))

/-- The mask register a word reads, if any. -/
def kmRead (k : BitVec 3) : List Nat := if k = 0 then [] else [k.toNat]

end Sys2Proof.Machine
end

