-- ==== Sys2Proof/Machine/Transcendental.lean ====
section
/-! DEFINITION. The transcendental functions: values to 2^-100 of the exact ones in fixed point, the codes within an instruction's
bound, the choice among them by Config, and the exact points and special inputs (R52, R53, R156 to R158). -/

namespace Sys2Proof.Machine

/-! ## Fixed point -/

/-- Bits after the point. -/
abbrev fixF : Nat := 640

/-- One. -/
def fixOne : Nat := 2 ^ fixF

/-- Terms of a power series: term k is made from term k - 1, and the sum collected. -/
def series (next : Nat → Nat → Nat) (part : Nat → Nat → Nat) : Nat → Nat → Nat → Nat → Nat
  | 0, _, _, sum => sum
  | n + 1, k, term, sum => series next part n (k + 1) (next k term) (sum + part k term)

/-- atanh z = Σ z^(2k+1) / (2k+1). -/
def fixAtanh (z : Nat) (terms : Nat) : Nat :=
  series (fun _ t => t * z / fixOne * z / fixOne) (fun k t => t / (2 * k + 1)) terms 0 z 0

/-- ln 2 = 2 atanh (1/3). -/
def fixLn2 : Nat := 2 * fixAtanh (fixOne / 3) 210

/-- atan (1/n), its positive and its negative terms. -/
def fixAtanInv (n : Nat) (terms : Nat) : Nat :=
  series (fun _ t => t / (n * n * n * n)) (fun k t => t / (4 * k + 1)) terms 0 (fixOne / n) 0
    - series (fun _ t => t / (n * n * n * n)) (fun k t => t / (4 * k + 3)) terms 0 (fixOne / (n * n * n)) 0

/-- π by Machin's formula. -/
def fixPi : Nat := 16 * fixAtanInv 5 80 - 4 * fixAtanInv 239 30

/-- e^r for r in [0, 1). -/
def fixExpFrac (r : Nat) : Nat := series (fun k t => t * r / fixOne / (k + 1)) (fun _ t => t) 140 0 fixOne 0

/-- e^x of a fixed-point x: a mantissa in [1, 2) and the binary exponent. -/
def fixExp (x : Int) : Nat × Int :=
  let n := x / fixLn2
  (fixExpFrac (x - n * fixLn2).toNat, n)

/-- A dyadic value in fixed point. -/
def toFix (neg : Bool) (m : Nat) (e : Int) : Int :=
  let a := if 0 ≤ e + fixF then m * 2 ^ (e + fixF).toNat else m / 2 ^ (-(e + fixF)).toNat
  if neg then -(a : Int) else a

/-- A fixed-point mantissa moved by a binary exponent. -/
def fixShift (m : Nat) (n : Int) : Nat := if 0 ≤ n then m * 2 ^ n.toNat else m / 2 ^ (-n).toNat

/-! ## The functions, off their exact points -/

/-- The functions (R52, R156, R157). -/
inductive TFun where
  | exp2 | log2 | recip | rsqrt | tanh | sig | exp | cdf | pdf
deriving DecidableEq, Repr

/-- The number Config knows a function by. -/
def TFun.code : TFun → Nat
  | .exp2 => 0 | .log2 => 1 | .recip => 2 | .rsqrt => 3 | .tanh => 4 | .sig => 5 | .exp => 6 | .cdf => 7 | .pdf => 8

/-- The bound in ulps (R52, R156, R157). -/
def TFun.bound : TFun → Nat
  | .tanh | .sig | .cdf | .pdf => 2
  | _ => 1

/-- A magnitude as a value. -/
structure Mag where
  neg : Bool
  m : Nat
  e : Int
deriving DecidableEq, Repr

/-- A value below every format. -/
def magTiny : Mag := ⟨false, 1, -2000⟩
/-- A value above every format. -/
def magHuge : Mag := ⟨false, 1, 2000⟩
/-- A value just below one. -/
def magNearOne : Mag := ⟨false, fixOne - 1, -(fixF : Int)⟩

/-- The operand's magnitude is at least 2^10. -/
def far (m : Nat) (e : Int) : Bool := decide (11 ≤ (bitLen m : Int) + e)

/-- e^x for |x| below 2^10 given in fixed point. -/
def magExp (x : Int) : Mag := let r := fixExp x; ⟨false, r.1, r.2 - fixF⟩

/-- 1 / √(2π). -/
def fixInvSqrt2Pi : Nat := fixOne * fixOne / isqrt (2 * fixPi * fixOne)

/-- The normal density at |x| below 2^10. -/
def magPdf (m : Nat) (e : Int) : Mag :=
  let r := fixExp (-(toFix false (m * m) (2 * e - 1)))
  ⟨false, r.1 * fixInvSqrt2Pi / fixOne, r.2 - fixF⟩

/-- Φ(a) - 1/2 for a ≥ 0 in fixed point: φ(a) · Σ a^(2k+1) / (1·3·…·(2k+1)). -/
def fixHalfCdf (a : Nat) (pdf : Nat) : Nat :=
  pdf * series (fun k t => t * (a * a / fixOne) / fixOne / (2 * k + 3)) (fun _ t => t) 1000 0 a 0 / fixOne

/-- The normal distribution function; beyond 16 it is tiny or nearly one. -/
def magCdf (neg : Bool) (m : Nat) (e : Int) : Mag :=
  if 5 ≤ (bitLen m : Int) + e then (if neg then magTiny else magNearOne)
  else
    let p := magPdf m e
    let h := fixHalfCdf (toFix false m e).toNat (fixShift p.m (p.e + fixF))
    ⟨false, if neg then fixOne / 2 - h else fixOne / 2 + h, -(fixF : Int)⟩

/-- log2 of a positive dyadic value. -/
def magLog2 (m : Nat) (e : Int) : Mag :=
  let l := bitLen m - 1
  let z := (m - 2 ^ l) * fixOne / (m + 2 ^ l)
  let v : Int := (e + l) * fixOne + (2 * fixAtanh z 210 * fixOne / fixLn2 : Nat)
  ⟨v < 0, v.natAbs, -(fixF : Int)⟩

/-- tanh of a positive value below 2^10. -/
def magTanh (m : Nat) (e : Int) : Mag :=
  let r := fixExp (toFix false m (e + 1))
  let x := fixShift r.1 r.2
  ⟨false, (x - fixOne) * fixOne / (x + fixOne), -(fixF : Int)⟩

/-- The logistic function of a value below 2^10 in magnitude. -/
def magSig (neg : Bool) (m : Nat) (e : Int) : Mag :=
  let r := fixExp (toFix true m e)
  let den := fixOne + fixShift r.1 r.2
  if neg then ⟨false, r.1 * fixOne / den, r.2 - fixF⟩ else ⟨false, fixOne * fixOne / den, -(fixF : Int)⟩

/-- The function at a finite nonzero operand, to 2^-100 of its value. -/
def magOf (f : TFun) (neg : Bool) (m : Nat) (e : Int) : Mag :=
  match f with
  | .exp2 =>
    if far m e then (if neg then magTiny else magHuge)
    else
      let x := toFix neg m e
      let n := x / fixOne
      ⟨false, fixExpFrac ((x - n * fixOne).toNat * fixLn2 / fixOne), n - fixF⟩
  | .exp => if far m e then (if neg then magTiny else magHuge) else magExp (toFix neg m e)
  | .log2 => magLog2 m e
  | .recip => ⟨neg, 2 ^ (bitLen m + 200) / m, -e - (bitLen m + 200)⟩
  | .rsqrt =>
    let k : Nat := if e % 2 = 0 then 0 else 1
    let v := m * 2 ^ k
    ⟨false, isqrt (2 ^ (2 * (bitLen v + 200)) / v), -(e - k) / 2 - (bitLen v + 200)⟩
  | .tanh => if far m e then { magNearOne with neg := neg } else { magTanh m e with neg := neg }
  | .sig => if far m e then (if neg then magTiny else magNearOne) else magSig neg m e
  | .cdf => magCdf neg m e
  | .pdf => if far m e then magTiny else magPdf m e

/-! ## Codes within the bound -/

/-- The magnitude of a code without its sign, continued beyond the largest finite one. -/
def magOfCode (f : FFmt) (k : Nat) : Nat × Int :=
  let q : Int := 1 - (f.bias : Int) - f.mb
  if k < 2 ^ f.mb then (k, q) else (2 ^ f.mb + k % 2 ^ f.mb, q + (k / 2 ^ f.mb : Nat) - 1)

/-- A code's magnitude lies within b units of 2^q of m · 2^e. -/
def codeWithin (f : FFmt) (m : Nat) (e q : Int) (b k : Nat) : Bool :=
  let c := magOfCode f k
  let lo := min e (min c.2 q)
  let x : Int := (c.1 * 2 ^ (c.2 - lo).toNat : Nat)
  let y : Int := (m * 2 ^ (e - lo).toNat : Nat)
  (x - y).natAbs ≤ b * 2 ^ (q - lo).toNat

/-- The codes, without sign, within the bound of a magnitude. A code above the largest finite one is among them only when the
magnitude itself is above the largest finite value. -/
def codesWithin (fmt b m : Nat) (e : Int) : List Nat :=
  let f := ffmt fmt
  let q := unitOf f m e
  let base := packMag f (fixShift m (e - q)) q
  let above := base ≥ maxCode f
  (upFrom (base - (2 * b + 1)) (3 * b + 4)).filter (fun k => codeWithin f m e q b k && (k ≤ maxCode f || above))

/-- The result for a magnitude off the exact points: one of the codes within the bound, with its flags (R52). -/
def pickCode (f : TFun) (fmt code : Nat) (ftz : Bool) (v : Mag) : Nat × Nat :=
  let ff := ffmt fmt
  let s := if v.neg then signBit ff else 0
  if 300 < (bitLen v.m : Int) + v.e then (infCode ff v.neg, fOF + fNX)
  else
    let v := if (bitLen v.m : Int) + v.e < -300 then { v with m := 1, e := -300 } else v
    let l := codesWithin fmt f.bound v.m v.e
    let mag := l.getD (Config.transcendental f.code fmt code % l.length) 0
    if maxCode ff < mag then (infCode ff v.neg, fOF + fNX)
    else if mag != 0 && mag < 2 ^ ff.mb then (if ftz then (s, fUF + fNX) else (mag + s, fUF + fNX))
    else (mag + s, fNX)

/-- The magnitude lies within half an ulp of one, from below (R53). -/
def nearOne (fmt m : Nat) (e : Int) : Bool :=
  let f := ffmt fmt
  let k : Nat := (-e).toNat
  decide (e ≤ 0) && decide (m ≤ 2 ^ k) && decide ((2 ^ k - m) * 2 ^ (f.mb + 2) ≤ 2 ^ k)

/-- The magnitude lies within half an ulp of zero. -/
def nearZero (fmt m : Nat) (e : Int) : Bool :=
  let f := ffmt fmt
  decide ((bitLen m : Int) + e ≤ 1 - (f.bias : Int) - f.mb - 1)

/-! ## The instructions' functions (R52, R53, R156 to R158) -/

/-- A power of two: its exponent. -/
def pow2Exp (m : Nat) (e : Int) : Option Int := if m != 0 && m = 2 ^ Nat.log2 m then some (e + Nat.log2 m) else none

/-- The integer a dyadic value is, if it is one. -/
def intOf (neg : Bool) (m : Nat) (e : Int) : Option Int :=
  let a := if 0 ≤ e then some (m * 2 ^ e.toNat) else if m % 2 ^ (-e).toNat = 0 then some (m / 2 ^ (-e).toNat) else none
  a.map (fun n => if neg then -(n : Int) else n)

/-- The exact value at an exact point of R52, if the operand is one. -/
def exactPoint (f : TFun) (neg : Bool) (m : Nat) (e : Int) : Option FV :=
  match f with
  | .exp2 => if far m e then none else (intOf neg m e).map (fun n => .fin false 1 n false)
  | .log2 => (pow2Exp m e).map intVal
  | .recip => (pow2Exp m e).map (fun k => .fin neg 1 (-k) false)
  | .rsqrt => match pow2Exp m e with
    | some k => if k % 2 = 0 then some (.fin false 1 (-(k / 2)) false) else none
    | none => none
  | _ => none

/-- One as a value. -/
def fvOne : FV := .fin false 1 0 false
/-- A half as a value. -/
def fvHalf : FV := .fin false 1 (-1) false
/-- A zero as a value. -/
def fvZero (neg : Bool) : FV := .fin neg 0 0 false

/-- The special inputs: zeros (R53, R156, R157). -/
def atZero (f : TFun) (neg : Bool) : Option (FV × Nat) :=
  match f with
  | .exp2 | .exp => some (fvOne, 0)
  | .log2 => some (.inf true, fDZ)
  | .recip | .rsqrt => some (.inf neg, fDZ)
  | .tanh => some (fvZero neg, 0)
  | .sig | .cdf => some (fvHalf, 0)
  | .pdf => none

/-- The special inputs: infinities. -/
def atInf (f : TFun) (neg : Bool) : FV × Nat :=
  match f with
  | .exp2 | .exp => (if neg then fvZero false else .inf false, 0)
  | .log2 => if neg then (.nan false, fNV) else (.inf false, 0)
  | .recip => (fvZero neg, 0)
  | .rsqrt => if neg then (.nan false, fNV) else (fvZero false, 0)
  | .tanh => (.fin neg 1 0 false, 0)
  | .sig | .cdf => (if neg then fvZero false else fvOne, 0)
  | .pdf => (fvZero false, 0)

/-- An exact result: a value the format holds, rounded as R42 has it, so that a subnormal one under FTZ gives a zero with UF and NX. A
power of two that the format cannot hold is no exact point, and is picked within the bound. -/
def exactOr (f : TFun) (fmt code : Nat) (ftz : Bool) (x : FV) : Nat × Nat :=
  match x with
  | .fin neg m e _ =>
    if (roundTo fmt .rne false false x).2 = 0 then roundTo fmt .rne false ftz x
    else pickCode f fmt code ftz ⟨neg, m * 2 ^ 400, e - 400⟩
  | _ => roundTo fmt .rne false ftz x

/-- A transcendental of an operand code: the result's code and its flags. (DESIGN CHOICE, log 8) -/
def transcend (f : TFun) (fmt : Nat) (ftz : Bool) (code : Nat) : Nat × Nat :=
  let out := fun (r : FV × Nat) => ((roundTo fmt .rne false ftz r.1).1, r.2)
  match foperand fmt ftz code with
  | .nan sig => (nanCode (ffmt fmt), if sig then fNV else 0)
  | .inf neg => out (atInf f neg)
  | .fin neg m e _ =>
    if m = 0 then
      match atZero f neg with
      | some r => out r
      | none => pickCode f fmt code ftz (magPdf 0 0)
    else if neg && (f = .log2 || f = .rsqrt) then (nanCode (ffmt fmt), fNV)
    else match exactPoint f neg m e with
      | some x => exactOr f fmt code ftz x
      | none =>
        let v := magOf f neg m e
        if (f = .tanh || f = .sig) && nearOne fmt v.m v.e then ((roundTo fmt .rne false ftz (.fin v.neg 1 0 false)).1, fNX)
        else if f = .sig && nearZero fmt v.m v.e then (0, fNX)
        else pickCode f fmt code ftz v

/-- A word of R123's transcendentals. -/
def transWord (w : BitVec 32) (f : TFun) (d a : BitVec 5) (k : BitVec 3) (s : State) : State :=
  let fmt := fmtN s
  run { word := w, vt := true, fmtOk := fmtFloat fmt && vtBlk s.thr.sr.vtype = 0, vr := [(a.toNat, grpN s)], vw := [(d.toNat, grpN s)]
        kr := kmRead k, km := k.toNat, queued := true } s (fun s =>
    let ew := ewN s
    stripWord ew (fun i t =>
      if activeAt s k.toNat i then
        let r := transcend f (fmtN s) (ftzN s) (elemV s a.toNat ew i)
        floatEl r.2 (setElemV d.toNat ew i r.1) t
      else .ok t) s)

/-- VFEXP2 (R52, R53, R123). -/
def execVfexp2 (d a : BitVec 5) (k : BitVec 3) (h : BitVec 2) (s : State) : Host.Outcome State Fault Refusal :=
  .next (transWord (encode (.vfexp2 d a k h)) .exp2 d a k s)

/-- VFLOG2 (R52, R53, R123). -/
def execVflog2 (d a : BitVec 5) (k : BitVec 3) (h : BitVec 2) (s : State) : Host.Outcome State Fault Refusal :=
  .next (transWord (encode (.vflog2 d a k h)) .log2 d a k s)

/-- VFRECIP (R52, R53, R123). -/
def execVfrecip (d a : BitVec 5) (k : BitVec 3) (h : BitVec 2) (s : State) : Host.Outcome State Fault Refusal :=
  .next (transWord (encode (.vfrecip d a k h)) .recip d a k s)

/-- VFRSQRT (R52, R53, R123). -/
def execVfrsqrt (d a : BitVec 5) (k : BitVec 3) (h : BitVec 2) (s : State) : Host.Outcome State Fault Refusal :=
  .next (transWord (encode (.vfrsqrt d a k h)) .rsqrt d a k s)

/-- VFTANH (R52, R53, R123). -/
def execVftanh (d a : BitVec 5) (k : BitVec 3) (h : BitVec 2) (s : State) : Host.Outcome State Fault Refusal :=
  .next (transWord (encode (.vftanh d a k h)) .tanh d a k s)

/-- VFSIG (R52, R53, R123). -/
def execVfsig (d a : BitVec 5) (k : BitVec 3) (h : BitVec 2) (s : State) : Host.Outcome State Fault Refusal :=
  .next (transWord (encode (.vfsig d a k h)) .sig d a k s)

end Sys2Proof.Machine
end

