-- ==== Sys2Proof/Machine/VecArith.lean ====
section
/-! DEFINITION. Vector integer and float arithmetic, compares, mask logic, permutes and reductions (R113 to R122, R128, R129). -/

namespace Sys2Proof.Machine

/-! ## Shared forms -/

/-- The group at a register under the factor in force. -/
def grp (s : State) (r : BitVec 5) : Nat × Nat := (r.toNat, grpN s)

/-- No block length is in force (R116). -/
def noBlk (s : State) : Bool := vtBlk s.thr.sr.vtype = 0
/-- The format in force is an integer format without blocks (R116, R117). -/
def intOk (s : State) : Bool := fmtInt (fmtN s) && noBlk s
/-- The format in force is FP32, BF16 or FP16 (R118); none of them goes with blocks. -/
def floatOk (s : State) : Bool := fmtFloat (fmtN s) && noBlk s
/-- Integer formats, FP32, BF16 and FP16, without blocks (R119). -/
def cmpOk (s : State) : Bool := (fmtInt (fmtN s) || fmtFloat (fmtN s)) && noBlk s

/-- The scalar register or the group that field B names (R114). -/
def bRegs (x : BitVec 1) (b : BitVec 5) : List Nat := if x = 1 then [b.toNat] else []
/-- The group that field B names in a vector-vector word. -/
def bGroup (s : State) (x : BitVec 1) (b : BitVec 5) : List (Nat × Nat) := if x = 1 then [] else [grp s b]
/-- Element i of operand B (R114). -/
def bElem (s : State) (x : BitVec 1) (b : BitVec 5) (ew i : Nat) : Nat := if x = 1 then xElem s b ew else elemV s b.toNat ew i

/-- The active elements of a word, each left as it is or changed by `f` (R98, R113). -/
def activeWord (km : BitVec 3) (f : Nat → State → El) (s : State) : Res :=
  stripWord (ewN s) (fun i t => if activeAt s km.toNat i then f i t else .ok t) s

/-- An elementwise word that writes codes and raises no flag: `f` gets element i of A, B and D. -/
def codeWord (w : BitVec 32) (fmtOk : State → Bool) (x : BitVec 1) (d a b : BitVec 5) (k : BitVec 3) (useA useB useD : Bool)
    (f : State → Nat → Nat → Nat → Nat) (s : State) : State :=
  run { word := w, xr := if useB then bRegs x b else [], vt := true, fmtOk := fmtOk s
        vr := (if useA then [grp s a] else []) ++ (if useB then bGroup s x b else []) ++ (if useD then [grp s d] else [])
        vw := [grp s d], kr := kmRead k, km := k.toNat, queued := true } s (fun s =>
    let ew := ewN s
    activeWord k (fun i t =>
      .ok (setElemV d.toNat ew i (f s (elemV s a.toNat ew i) (if useB then bElem s x b ew i else 0) (elemV s d.toNat ew i)) t)) s)

/-- An elementwise integer word (R117): `f` gets format, width and the codes of A, B and D. -/
def intWord (w : BitVec 32) (x : BitVec 1) (d a b : BitVec 5) (k : BitVec 3) (useA useD : Bool) (f : Nat → Nat → Nat → Nat → Nat → Nat)
    (s : State) : State :=
  codeWord w intOk x d a b k useA true useD (fun s a b d => f (fmtN s) (ewN s) a b d) s

/-- An elementwise float word (R118): `f` gets the rounding mode and the values of A, B and D and gives the exact value and the
flags before rounding. -/
def floatWord (w : BitVec 32) (x : BitVec 1) (d a b : BitVec 5) (k : BitVec 3) (useB useD : Bool) (f : RM → FV → FV → FV → FV × Nat)
    (s : State) : State :=
  run { word := w, xr := if useB then bRegs x b else [], vt := true, fmtOk := floatOk s
        vr := grp s a :: ((if useB then bGroup s x b else []) ++ (if useD then [grp s d] else []))
        vw := [grp s d], kr := kmRead k, km := k.toNat, queued := true } s (fun s =>
    let ew := ewN s
    let fmt := fmtN s
    let v := fun c => foperand fmt (ftzN s) c
    activeWord k (fun i t =>
      let r := f (rmN s) (v (elemV s a.toNat ew i)) (if useB then v (bElem s x b ew i) else .nan false) (v (elemV s d.toNat ew i))
      let c := roundTo fmt (rmN s) false (ftzN s) r.1
      floatEl (r.2 ||| c.2) (setElemV d.toNat ew i c.1) t) s)

/-- Bit i of a mask register written; k0 discards it (R115). -/
def setMaskBit (n i : Nat) (v : Bool) (s : State) : State :=
  wk n (BitVec.ofNat 32768 (setBits (rk s n).toNat i 1 (if v then 1 else 0))) (i + 1) s

/-- A bit of a mask result by its class (R98): computed, undisturbed, or 0 for padding. -/
def maskClass (d km i : Nat) (f : State → El) (s0 s : State) : El :=
  if i < vvN s0 then (if maskBit s0 km i then f s else .ok s) else .ok (setMaskBit d i false s)

/-! ## Vector integer, majors 0x30 and 0x31 (R117) -/

/-- An integer result of the two integer readings, kept modulo 2^EW. -/
def onInts (f : Int → Int → Int) (fmt ew a b : Nat) : Nat := ofSigned ew (f (intElem fmt a) (intElem fmt b))

/-- Integer division (R117): truncated, and clamped to the format; a zero divisor gives the end of the format on a's side. -/
def divInt (fmt : Nat) (a b : Int) : Int :=
  if b = 0 then (if 0 ≤ a then (intRange fmt).2 else (intRange fmt).1) else clampTo fmt (a.tdiv b)

/-- Integer remainder with the sign of a; a zero divisor gives a. -/
def remInt (a b : Int) : Int := if b = 0 then a else a.tmod b

/-- VADD (R117). -/
def execVadd (x : BitVec 1) (d a b : BitVec 5) (k : BitVec 3) (h : BitVec 2) (s : State) : Host.Outcome State Fault Refusal :=
  .next (intWord (encode (.vadd x d a b k h)) x d a b k true false (fun fmt ew a b _ => onInts (fun a b => a + b) fmt ew a b) s)

/-- VSUB (R117). -/
def execVsub (x : BitVec 1) (d a b : BitVec 5) (k : BitVec 3) (h : BitVec 2) (s : State) : Host.Outcome State Fault Refusal :=
  .next (intWord (encode (.vsub x d a b k h)) x d a b k true false (fun fmt ew a b _ => onInts (fun a b => a - b) fmt ew a b) s)

/-- VSUBR (R117). -/
def execVsubr (x : BitVec 1) (d a b : BitVec 5) (k : BitVec 3) (h : BitVec 2) (s : State) : Host.Outcome State Fault Refusal :=
  .next (intWord (encode (.vsubr x d a b k h)) x d a b k true false (fun fmt ew a b _ => onInts (fun a b => b - a) fmt ew a b) s)

/-- VMUL (R117). -/
def execVmul (x : BitVec 1) (d a b : BitVec 5) (k : BitVec 3) (h : BitVec 2) (s : State) : Host.Outcome State Fault Refusal :=
  .next (intWord (encode (.vmul x d a b k h)) x d a b k true false (fun fmt ew a b _ => onInts (fun a b => a * b) fmt ew a b) s)

/-- VMULHI (R117). -/
def execVmulhi (x : BitVec 1) (d a b : BitVec 5) (k : BitVec 3) (h : BitVec 2) (s : State) : Host.Outcome State Fault Refusal :=
  .next (intWord (encode (.vmulhi x d a b k h)) x d a b k true false (fun fmt ew a b _ => onInts (fun a b => a * b / 2 ^ ew) fmt ew a b) s)

/-- VDIV (R117). -/
def execVdiv (x : BitVec 1) (d a b : BitVec 5) (k : BitVec 3) (h : BitVec 2) (s : State) : Host.Outcome State Fault Refusal :=
  .next (intWord (encode (.vdiv x d a b k h)) x d a b k true false (fun fmt ew a b _ => onInts (divInt fmt) fmt ew a b) s)

/-- VREM (R117). -/
def execVrem (x : BitVec 1) (d a b : BitVec 5) (k : BitVec 3) (h : BitVec 2) (s : State) : Host.Outcome State Fault Refusal :=
  .next (intWord (encode (.vrem x d a b k h)) x d a b k true false (fun fmt ew a b _ => onInts remInt fmt ew a b) s)

/-- VMIN (R117). -/
def execVmin (x : BitVec 1) (d a b : BitVec 5) (k : BitVec 3) (h : BitVec 2) (s : State) : Host.Outcome State Fault Refusal :=
  .next (intWord (encode (.vmin x d a b k h)) x d a b k true false (fun fmt ew a b _ => onInts min fmt ew a b) s)

/-- VMAX (R117). -/
def execVmax (x : BitVec 1) (d a b : BitVec 5) (k : BitVec 3) (h : BitVec 2) (s : State) : Host.Outcome State Fault Refusal :=
  .next (intWord (encode (.vmax x d a b k h)) x d a b k true false (fun fmt ew a b _ => onInts max fmt ew a b) s)

/-- VAND (R117). -/
def execVand (x : BitVec 1) (d a b : BitVec 5) (k : BitVec 3) (h : BitVec 2) (s : State) : Host.Outcome State Fault Refusal :=
  .next (intWord (encode (.vand x d a b k h)) x d a b k true false (fun _ _ a b _ => a &&& b) s)

/-- VOR (R117). -/
def execVor (x : BitVec 1) (d a b : BitVec 5) (k : BitVec 3) (h : BitVec 2) (s : State) : Host.Outcome State Fault Refusal :=
  .next (intWord (encode (.vor x d a b k h)) x d a b k true false (fun _ _ a b _ => a ||| b) s)

/-- VXOR (R117). -/
def execVxor (x : BitVec 1) (d a b : BitVec 5) (k : BitVec 3) (h : BitVec 2) (s : State) : Host.Outcome State Fault Refusal :=
  .next (intWord (encode (.vxor x d a b k h)) x d a b k true false (fun _ _ a b _ => a ^^^ b) s)

/-- VSHL (R117). -/
def execVshl (x : BitVec 1) (d a b : BitVec 5) (k : BitVec 3) (h : BitVec 2) (s : State) : Host.Outcome State Fault Refusal :=
  .next (intWord (encode (.vshl x d a b k h)) x d a b k true false (fun _ ew a b _ => (a <<< (b % ew)) % 2 ^ ew) s)

/-- VSHR (R117). -/
def execVshr (x : BitVec 1) (d a b : BitVec 5) (k : BitVec 3) (h : BitVec 2) (s : State) : Host.Outcome State Fault Refusal :=
  .next (intWord (encode (.vshr x d a b k h)) x d a b k true false (fun fmt ew a b _ => ofSigned ew (intElem fmt a / 2 ^ (b % ew))) s)

/-- VADDSAT (R117). -/
def execVaddsat (x : BitVec 1) (d a b : BitVec 5) (k : BitVec 3) (h : BitVec 2) (s : State) : Host.Outcome State Fault Refusal :=
  .next (intWord (encode (.vaddsat x d a b k h)) x d a b k true false (fun fmt ew a b _ => onInts (fun a b => clampTo fmt (a + b)) fmt ew a b) s)

/-- VSUBSAT (R117). -/
def execVsubsat (x : BitVec 1) (d a b : BitVec 5) (k : BitVec 3) (h : BitVec 2) (s : State) : Host.Outcome State Fault Refusal :=
  .next (intWord (encode (.vsubsat x d a b k h)) x d a b k true false (fun fmt ew a b _ => onInts (fun a b => clampTo fmt (a - b)) fmt ew a b) s)

/-- VMAD (R117). -/
def execVmad (x : BitVec 1) (d a b : BitVec 5) (k : BitVec 3) (h : BitVec 2) (s : State) : Host.Outcome State Fault Refusal :=
  .next (intWord (encode (.vmad x d a b k h)) x d a b k true true (fun fmt ew a b d => ofSigned ew (intElem fmt d + intElem fmt a * intElem fmt b)) s)

/-- VCOPY (R117). -/
def execVcopy (x : BitVec 1) (d b : BitVec 5) (k : BitVec 3) (h : BitVec 2) (s : State) : Host.Outcome State Fault Refusal :=
  .next (intWord (encode (.vcopy x d b k h)) x d 0 b k false false (fun _ _ _ b _ => b) s)

/-! ## Vector floating point, majors 0x32 and 0x33 (R118) -/

/-- VFADD (R118). -/
def execVfadd (x : BitVec 1) (d a b : BitVec 5) (k : BitVec 3) (h : BitVec 2) (s : State) : Host.Outcome State Fault Refusal :=
  .next (floatWord (encode (.vfadd x d a b k h)) x d a b k true false (fun rm a b _ => fvAdd rm a b) s)

/-- VFSUB (R118). -/
def execVfsub (x : BitVec 1) (d a b : BitVec 5) (k : BitVec 3) (h : BitVec 2) (s : State) : Host.Outcome State Fault Refusal :=
  .next (floatWord (encode (.vfsub x d a b k h)) x d a b k true false (fun rm a b _ => fvAdd rm a b.negate) s)

/-- VFSUBR (R118). -/
def execVfsubr (x : BitVec 1) (d a b : BitVec 5) (k : BitVec 3) (h : BitVec 2) (s : State) : Host.Outcome State Fault Refusal :=
  .next (floatWord (encode (.vfsubr x d a b k h)) x d a b k true false (fun rm a b _ => fvAdd rm b a.negate) s)

/-- VFMUL (R118). -/
def execVfmul (x : BitVec 1) (d a b : BitVec 5) (k : BitVec 3) (h : BitVec 2) (s : State) : Host.Outcome State Fault Refusal :=
  .next (floatWord (encode (.vfmul x d a b k h)) x d a b k true false (fun _ a b _ => fvMul a b) s)

/-- VFDIV (R118). -/
def execVfdiv (x : BitVec 1) (d a b : BitVec 5) (k : BitVec 3) (h : BitVec 2) (s : State) : Host.Outcome State Fault Refusal :=
  .next (floatWord (encode (.vfdiv x d a b k h)) x d a b k true false (fun _ a b _ => fvDiv a b) s)

/-- VFMIN (R118). -/
def execVfmin (x : BitVec 1) (d a b : BitVec 5) (k : BitVec 3) (h : BitVec 2) (s : State) : Host.Outcome State Fault Refusal :=
  .next (floatWord (encode (.vfmin x d a b k h)) x d a b k true false (fun _ a b _ => fvMinMax false a b) s)

/-- VFMAX (R118). -/
def execVfmax (x : BitVec 1) (d a b : BitVec 5) (k : BitVec 3) (h : BitVec 2) (s : State) : Host.Outcome State Fault Refusal :=
  .next (floatWord (encode (.vfmax x d a b k h)) x d a b k true false (fun _ a b _ => fvMinMax true a b) s)

/-- VFMAD (R118). -/
def execVfmad (x : BitVec 1) (d a b : BitVec 5) (k : BitVec 3) (h : BitVec 2) (s : State) : Host.Outcome State Fault Refusal :=
  .next (floatWord (encode (.vfmad x d a b k h)) x d a b k true true (fun rm a b d => fvFma rm d a b) s)

/-- VFMSB (R118). -/
def execVfmsb (x : BitVec 1) (d a b : BitVec 5) (k : BitVec 3) (h : BitVec 2) (s : State) : Host.Outcome State Fault Refusal :=
  .next (floatWord (encode (.vfmsb x d a b k h)) x d a b k true true (fun rm a b d => fvFma rm d a.negate b) s)

/-- VFSQRT (R118). -/
def execVfsqrt (d a : BitVec 5) (k : BitVec 3) (h : BitVec 2) (s : State) : Host.Outcome State Fault Refusal :=
  .next (floatWord (encode (.vfsqrt d a k h)) 0 d a 0 k false false (fun _ a _ _ => fvSqrt a) s)

/-- The sign bit of the element width in force. -/
def topBit (s : State) : Nat := 2 ^ (ewN s - 1)

/-- VFABS (R118): a bit operation. -/
def execVfabs (d a : BitVec 5) (k : BitVec 3) (h : BitVec 2) (s : State) : Host.Outcome State Fault Refusal :=
  .next (codeWord (encode (.vfabs d a k h)) floatOk 0 d a 0 k true false false (fun s a _ _ => a % topBit s) s)

/-- VFNEG (R118). -/
def execVfneg (d a : BitVec 5) (k : BitVec 3) (h : BitVec 2) (s : State) : Host.Outcome State Fault Refusal :=
  .next (codeWord (encode (.vfneg d a k h)) floatOk 0 d a 0 k true false false (fun s a _ _ => a ^^^ topBit s) s)

/-- VFCSGN (R118). -/
def execVfcsgn (x : BitVec 1) (d a b : BitVec 5) (k : BitVec 3) (h : BitVec 2) (s : State) : Host.Outcome State Fault Refusal :=
  .next (codeWord (encode (.vfcsgn x d a b k h)) floatOk x d a b k true true false
    (fun s a b _ => a % topBit s + b / topBit s * topBit s) s)

/-- VFCOPY (R118). -/
def execVfcopy (x : BitVec 1) (d b : BitVec 5) (k : BitVec 3) (h : BitVec 2) (s : State) : Host.Outcome State Fault Refusal :=
  .next (codeWord (encode (.vfcopy x d b k h)) floatOk x d 0 b k false true false (fun _ _ b _ => b) s)

/-! ## Compares and masks, major 0x34 (R119) -/

/-- The truth of a compare predicate on two integers. -/
def intPred (pred : Nat) (a b : Int) : Bool :=
  match pred with
  | 0 => a = b
  | 1 => a ≠ b
  | 2 => a < b
  | 3 => a ≤ b
  | 4 => b < a
  | _ => b ≤ a

/-- A compare of two element codes: truth and flags (R45, R119). -/
def elemCompare (s : State) (pred a b : Nat) : Bool × Nat :=
  if fmtInt (fmtN s) then (intPred pred (intElem (fmtN s) a) (intElem (fmtN s) b), 0)
  else fvCompare pred (foperand (fmtN s) (ftzN s) a) (foperand (fmtN s) (ftzN s) b)

/-- A compare word. -/
def compareWord (w : BitVec 32) (pred : Nat) (d : BitVec 3) (a b : BitVec 5) (k : BitVec 3) (x : BitVec 1) (s : State) : State :=
  run { word := w, xr := bRegs x b, vt := true, fmtOk := cmpOk s, vr := grp s a :: bGroup s x b, kr := kmRead k, km := k.toNat, queued := true } s (fun s =>
    let ew := ewN s
    stripWord ew (fun i t => maskClass d.toNat k.toNat i (fun t =>
      let r := elemCompare s pred (elemV s a.toNat ew i) (bElem s x b ew i)
      floatEl r.2 (setMaskBit d.toNat i r.1) t) s t) s)

/-- VCMPEQ (R119). -/
def execVcmpeq (d : BitVec 3) (a b : BitVec 5) (k : BitVec 3) (h : BitVec 2) (x : BitVec 1) (s : State) : Host.Outcome State Fault Refusal :=
  .next (compareWord (encode (.vcmpeq d a b k h x)) 0 d a b k x s)

/-- VCMPNE (R119). -/
def execVcmpne (d : BitVec 3) (a b : BitVec 5) (k : BitVec 3) (h : BitVec 2) (x : BitVec 1) (s : State) : Host.Outcome State Fault Refusal :=
  .next (compareWord (encode (.vcmpne d a b k h x)) 1 d a b k x s)

/-- VCMPLT (R119). -/
def execVcmplt (d : BitVec 3) (a b : BitVec 5) (k : BitVec 3) (h : BitVec 2) (x : BitVec 1) (s : State) : Host.Outcome State Fault Refusal :=
  .next (compareWord (encode (.vcmplt d a b k h x)) 2 d a b k x s)

/-- VCMPLE (R119). -/
def execVcmple (d : BitVec 3) (a b : BitVec 5) (k : BitVec 3) (h : BitVec 2) (x : BitVec 1) (s : State) : Host.Outcome State Fault Refusal :=
  .next (compareWord (encode (.vcmple d a b k h x)) 3 d a b k x s)

/-- VCMPGT (R119). -/
def execVcmpgt (d : BitVec 3) (a b : BitVec 5) (k : BitVec 3) (h : BitVec 2) (x : BitVec 1) (s : State) : Host.Outcome State Fault Refusal :=
  .next (compareWord (encode (.vcmpgt d a b k h x)) 4 d a b k x s)

/-- VCMPGE (R119). -/
def execVcmpge (d : BitVec 3) (a b : BitVec 5) (k : BitVec 3) (h : BitVec 2) (x : BitVec 1) (s : State) : Host.Outcome State Fault Refusal :=
  .next (compareWord (encode (.vcmpge d a b k h x)) 5 d a b k x s)

/-- A mask-logic word (R119): EXM governs it, and `f` gets the bits of A and B. -/
def maskWord (w : BitVec 32) (d : BitVec 3) (srcs : List (BitVec 3)) (f : Nat → Bool) (s : State) : State :=
  run { word := w, vt := true, kr := srcs.map (·.toNat), queued := true } s (fun s =>
    stripWord (ewN s) (fun i t => maskClass d.toNat 0 i (fun t => .ok (setMaskBit d.toNat i (f i) t)) s t) s)

/-- Bit i of a mask register. -/
def kBit (s : State) (n : BitVec 3) (i : Nat) : Bool := bit (rk s n.toNat).toNat i

/-- KBOTH (R119). -/
def execKboth (d a b : BitVec 3) (h : BitVec 2) (s : State) : Host.Outcome State Fault Refusal :=
  .next (maskWord (encode (.kboth d a b h)) d [a, b] (fun i => kBit s a i && kBit s b i) s)

/-- KEITHER (R119). -/
def execKeither (d a b : BitVec 3) (h : BitVec 2) (s : State) : Host.Outcome State Fault Refusal :=
  .next (maskWord (encode (.keither d a b h)) d [a, b] (fun i => kBit s a i || kBit s b i) s)

/-- KDIFFER (R119). -/
def execKdiffer (d a b : BitVec 3) (h : BitVec 2) (s : State) : Host.Outcome State Fault Refusal :=
  .next (maskWord (encode (.kdiffer d a b h)) d [a, b] (fun i => kBit s a i != kBit s b i) s)

/-- KBUT (R119). -/
def execKbut (d a b : BitVec 3) (h : BitVec 2) (s : State) : Host.Outcome State Fault Refusal :=
  .next (maskWord (encode (.kbut d a b h)) d [a, b] (fun i => kBit s a i && !kBit s b i) s)

/-- KFLIP (R119). -/
def execKflip (d a : BitVec 3) (h : BitVec 2) (s : State) : Host.Outcome State Fault Refusal :=
  .next (maskWord (encode (.kflip d a h)) d [a] (fun i => !kBit s a i) s)

/-- KFILL (R119). -/
def execKfill (d : BitVec 3) (h : BitVec 2) (s : State) : Host.Outcome State Fault Refusal :=
  .next (maskWord (encode (.kfill d h)) d [] (fun _ => true) s)

/-- A word that writes xD from mask A and the active elements from VSTART up (R24, R119, R128). It writes xD also where VSTART leaves it no
element. (DEDUCED, log 86) -/
def maskCount (w : BitVec 32) (d : BitVec 5) (a k : BitVec 3) (f : List Nat → Word) (s : State) : State :=
  run { word := w, xw := [d.toNat], vt := true, kr := a.toNat :: kmRead k, km := k.toNat, queued := true } s (fun s =>
    let hits := (upFrom (vsN s) (vvN s - vsN s)).filter (fun i => activeAt s k.toNat i && kBit s a i)
    .done (wx d.toNat (f hits) { chargeWord (ewN s) s with thr.sr.vstart := 0 }))

/-- KCOUNT (R119). -/
def execKcount (d : BitVec 5) (a k : BitVec 3) (h : BitVec 2) (s : State) : Host.Outcome State Fault Refusal :=
  .next (maskCount (encode (.kcount d a k h)) d a k (fun l => w64 l.length) s)

/-- KLOWEST (R119). -/
def execKlowest (d : BitVec 5) (a k : BitVec 3) (h : BitVec 2) (s : State) : Host.Outcome State Fault Refusal :=
  .next (maskCount (encode (.klowest d a k h)) d a k (fun l => match l with | i :: _ => w64 i | [] => w64 (2 ^ 64 - 1)) s)

/-! ## Permutes, major 0x35 (R120, R121) -/

/-- Two groups of the factor in force share a register. -/
def overlap (s : State) (a b : BitVec 5) : Bool := a.toNat < b.toNat + grpN s && b.toNat < a.toNat + grpN s

/-- VSEL (R120): governed by the execution mask alone; KM chooses. -/
def execVsel (d a b : BitVec 5) (k : BitVec 3) (h : BitVec 2) (s : State) : Host.Outcome State Fault Refusal :=
  .next (run { word := encode (.vsel d a b k h), vt := true, vr := [grp s a, grp s b], vw := [grp s d], kr := kmRead k, queued := true } s (fun s =>
    let ew := ewN s
    stripWord ew (fun i t => if activeAt s 0 i then
      .ok (setElemV d.toNat ew i (if k = 0 || kBit s k i then elemV s a.toNat ew i else elemV s b.toNat ew i) t) else .ok t) s))

/-- VINDEX (R120): integer formats only. -/
def execVindex (d : BitVec 5) (k : BitVec 3) (h : BitVec 2) (s : State) : Host.Outcome State Fault Refusal :=
  .next (run { word := encode (.vindex d k h), vt := true, fmtOk := fmtInt (fmtN s), vw := [grp s d], kr := kmRead k, km := k.toNat, queued := true } s (fun s =>
    activeWord k (fun i t => .ok (setElemV d.toNat (ewN s) i (i % 2 ^ ewN s) t)) s))

/-- A shift by x[B] elements. -/
def shiftWord (w : BitVec 32) (d a b : BitVec 5) (k : BitVec 3) (src : Nat → Nat → Nat → Option Nat) (s : State) : State :=
  run { word := w, xr := [b.toNat], vt := true, regOk := !overlap s d a, vr := [grp s a], vw := [grp s d], kr := kmRead k, queued := true } s (fun s =>
    let ew := ewN s
    activeWord k (fun i t => .ok (setElemV d.toNat ew i (match src i (xr s b).toNat (vlN s) with
      | some j => elemV s a.toNat ew j
      | none => 0) t)) s)

/-- VSHUP (R120). -/
def execVshup (d a b : BitVec 5) (k : BitVec 3) (h : BitVec 2) (s : State) : Host.Outcome State Fault Refusal :=
  .next (shiftWord (encode (.vshup d a b k h)) d a b k (fun i n _ => if n ≤ i then some (i - n) else none) s)

/-- VSHDN (R120). -/
def execVshdn (d a b : BitVec 5) (k : BitVec 3) (h : BitVec 2) (s : State) : Host.Outcome State Fault Refusal :=
  .next (shiftWord (encode (.vshdn d a b k h)) d a b k (fun i n vl => if i + n < vl then some (i + n) else none) s)

/-- VPERM (R120). -/
def execVperm (d a b : BitVec 5) (k : BitVec 3) (h : BitVec 2) (s : State) : Host.Outcome State Fault Refusal :=
  .next (run { word := encode (.vperm d a b k h), vt := true, regOk := !overlap s d a && !overlap s d b, vr := [grp s a, grp s b], vw := [grp s d], kr := kmRead k, queued := true } s (fun s =>
    let ew := ewN s
    activeWord k (fun i t => .ok (setElemV d.toNat ew i (elemV s a.toNat ew (elemV s b.toNat ew i % vlN s)) t)) s))

/-- Elements placed from a position up; positions below the first written one are left. -/
def placeFrom (d ew first : Nat) : Nat → List Nat → State → State
  | _, [], s => s
  | j, c :: r, s => placeFrom d ew first (j + 1) r (if first ≤ j then setElemV d ew j c s else s)

/-- VPACK (R120): computed from the whole source, written from position VSTART up. -/
def execVpack (d a : BitVec 5) (k : BitVec 3) (h : BitVec 2) (s : State) : Host.Outcome State Fault Refusal :=
  .next (run { word := encode (.vpack d a k h), vt := true, regOk := !overlap s d a, vr := [grp s a], vw := [grp s d], kr := kmRead k, queued := true } s (fun s =>
    let ew := ewN s
    let codes := ((upFrom 0 (vvN s)).filter (fun i => activeAt s k.toNat i)).map (fun i => elemV s a.toNat ew i)
    .done { placeFrom d.toNat ew (vsN s) 0 codes (chargeWord ew s) with thr.sr.vstart := 0 }))

/-- An active element below i holds the same code (R121). -/
def seenBefore (s : State) (a : BitVec 5) (k : BitVec 3) (ew i : Nat) : Bool :=
  (upFrom 0 i).any (fun j => activeAt s k.toNat j && elemV s a.toNat ew j = elemV s a.toNat ew i)

/-- VUNIQ (R121). -/
def execVuniq (d : BitVec 3) (a : BitVec 5) (k : BitVec 3) (h : BitVec 2) (s : State) : Host.Outcome State Fault Refusal :=
  .next (run { word := encode (.vuniq d a k h), vt := true, fmtOk := fmtInt (fmtN s), vr := [grp s a], kr := kmRead k, queued := true } s (fun s =>
    let ew := ewN s
    stripWord ew (fun i t => .ok (setMaskBit d.toNat i (activeAt s k.toNat i && !seenBefore s a k ew i) t)) s))

/-- An element code extended to a word by its format (R120, R122). -/
def extendElem (fmt c : Nat) : Word := if fmtSigned fmt then sextWord (fmtEw fmt) c else w64 c

/-- VGET (R120). It reads one element: where that element lies below VSTART, or VSTART is not below vl, it changes nothing (R24).
(DEDUCED, log 86) -/
def execVget (d a b : BitVec 5) (h : BitVec 2) (s : State) : Host.Outcome State Fault Refusal :=
  .next (run { word := encode (.vget d a b h), xr := [b.toNat], xw := [d.toNat], vt := true, vr := [grp s a], queued := true } s (fun s =>
    let i := (xr s b).toNat
    let v := if i < vlN s then extendElem (fmtN s) (elemV s a.toNat (ewN s) i) else 0
    let t := { chargeWord (ewN s) s with thr.sr.vstart := 0 }
    .done (if vsN s < vlN s && vsN s ≤ i || vsN s = 0 then wx d.toNat v t else t)))

/-- VPUT (R120). -/
def execVput (d a b : BitVec 5) (h : BitVec 2) (s : State) : Host.Outcome State Fault Refusal :=
  .next (run { word := encode (.vput d a b h), xr := [a.toNat, b.toNat], vt := true, vw := [grp s d], queued := true } s (fun s =>
    let ew := ewN s
    let j := (xr s b).toNat
    let t := chargeWord ew s
    .done { (if vsN s ≤ j && activeAt s 0 j then setElemV d.toNat ew j (xElem s a ew) t else t) with thr.sr.vstart := 0 }))

/-! ## Reductions, major 0x36 (R49, R122) -/

/-- The codes of the active elements of a group. -/
def activeCodes (s : State) (a : BitVec 5) (k : BitVec 3) : List Nat :=
  ((upFrom 0 (vlN s)).filter (fun i => activeAt s k.toNat i)).map (fun i => elemV s a.toNat (ewN s) i)

/-- The result of a reduction put in place (R122): xD gets a word, vD the low EW bits of element 0. -/
def putReduction (t : BitVec 1) (d : BitVec 5) (ew : Nat) (v : Word) (s : State) : State :=
  if t = 1 then wx d.toNat v s
  else wv d.toNat (BitVec.ofNat 16384 (setBits (rv s d.toNat).toNat 0 ew v.toNat)) (ceilDiv ew 8) s

/-- What a reduction needs. -/
def redNeed (s : State) (w : BitVec 32) (ok : Bool) (d a : BitVec 5) (k : BitVec 3) (t : BitVec 1) : Need :=
  { word := w, xw := if t = 1 then [d.toNat] else [], vt := true, fmtOk := ok, vr := [grp s a], vw := if t = 1 then [] else [(d.toNat, 1)],
    kr := kmRead k, km := k.toNat, queued := true }

/-- The charge of a reduction: its full vl whenever it starts (R233). -/
def chargeReduction (s : State) : State :=
  let n := grpN s * ceilDiv (vlN s * ewN s) 64
  if n = 0 then s else chargeBeats n s

/-- A reduction of integers: `f` makes the 64-bit result from format and values. -/
def intReduction (w : BitVec 32) (d a : BitVec 5) (k : BitVec 3) (t : BitVec 1) (f : Nat → List Int → Word) (s : State) : State :=
  run (redNeed s w (intOk s) d a k t) s (fun s =>
    if vlN s ≤ vsN s then .done { s with thr.sr.vstart := 0 }
    else .done (putReduction t d (ewN s) (f (fmtN s) ((activeCodes s a k).map (intElem (fmtN s)))) { chargeReduction s with thr.sr.vstart := 0 }))

/-- An EW-bit value extended to a word by the element format (R122). -/
def extendInt (fmt : Nat) (i : Int) : Word := extendElem fmt (ofSigned (fmtEw fmt) i)

/-- VREDSUM (R122): modulo 2^64. -/
def execVredsum (d a : BitVec 5) (k : BitVec 3) (h : BitVec 2) (t : BitVec 1) (s : State) : Host.Outcome State Fault Refusal :=
  .next (intReduction (encode (.vredsum d a k h t)) d a k t (fun _ l => BitVec.ofInt 64 (l.foldl (· + ·) 0)) s)

/-- VREDMIN (R122). -/
def execVredmin (d a : BitVec 5) (k : BitVec 3) (h : BitVec 2) (t : BitVec 1) (s : State) : Host.Outcome State Fault Refusal :=
  .next (intReduction (encode (.vredmin d a k h t)) d a k t (fun fmt l => extendInt fmt (l.foldl min (intRange fmt).2)) s)

/-- VREDMAX (R122). -/
def execVredmax (d a : BitVec 5) (k : BitVec 3) (h : BitVec 2) (t : BitVec 1) (s : State) : Host.Outcome State Fault Refusal :=
  .next (intReduction (encode (.vredmax d a k h t)) d a k t (fun fmt l => extendInt fmt (l.foldl max (intRange fmt).1)) s)

/-- A bitwise reduction: the bits of the element width. -/
def bitReduction (f : Nat → Nat → Nat) (z : Nat → Nat) (fmt : Nat) (l : List Int) : Word :=
  extendElem fmt (l.foldl (fun acc i => f acc (ofSigned (fmtEw fmt) i)) (z (fmtEw fmt)))

/-- VREDAND (R122). -/
def execVredand (d a : BitVec 5) (k : BitVec 3) (h : BitVec 2) (t : BitVec 1) (s : State) : Host.Outcome State Fault Refusal :=
  .next (intReduction (encode (.vredand d a k h t)) d a k t (bitReduction (· &&& ·) (fun ew => 2 ^ ew - 1)) s)

/-- VREDOR (R122). -/
def execVredor (d a : BitVec 5) (k : BitVec 3) (h : BitVec 2) (t : BitVec 1) (s : State) : Host.Outcome State Fault Refusal :=
  .next (intReduction (encode (.vredor d a k h t)) d a k t (bitReduction (· ||| ·) (fun _ => 0)) s)

/-- VREDXOR (R122). -/
def execVredxor (d a : BitVec 5) (k : BitVec 3) (h : BitVec 2) (t : BitVec 1) (s : State) : Host.Outcome State Fault Refusal :=
  .next (intReduction (encode (.vredxor d a k h t)) d a k t (bitReduction (· ^^^ ·) (fun _ => 0)) s)

/-! ### The tree of R49 -/

/-- One level of the tree: pairs joined by `f`, which gives a code and flags; an absent position passes the other through. -/
def treeLevel (f : Nat → Nat → Nat × Nat) : List (Option Nat) → List (Option Nat) × Nat
  | some a :: some b :: r =>
    let x := f a b
    let y := treeLevel f r
    (some x.1 :: y.1, x.2 ||| y.2)
  | some a :: none :: r => let y := treeLevel f r; (some a :: y.1, y.2)
  | none :: b :: r => let y := treeLevel f r; (b :: y.1, y.2)
  | l => (l, 0)

/-- The tree over a list, level by level: code, if any position was present, and flags. The list need not be filled up to a power of
two: what is missing at the end is absent. -/
def treeSum (f : Nat → Nat → Nat × Nat) : Nat → List (Option Nat) → Option Nat × Nat
  | 0, l => (l.headD none, 0)
  | n + 1, l =>
    let x := treeLevel f l
    let y := treeSum f n x.1
    (y.1, x.2 ||| y.2)

/-- The element codes with absent ones where an element is not active. -/
def treeLeaves (s : State) (a : BitVec 5) (k : BitVec 3) : List (Option Nat) :=
  (upFrom 0 (vlN s)).map (fun i => if activeAt s k.toNat i then some (elemV s a.toNat (ewN s) i) else none)

/-- A reduction of floats (R48, R49, R122): `widen` brings element codes to the accumulation format, `f` joins two of them. A lone active
element passes unchanged, a NaN too. (DEDUCED, log 87) -/
def floatReduction (w : BitVec 32) (ok : State → Bool) (acc : Nat → Nat) (widen : State → Nat → Nat) (d a : BitVec 5) (k : BitVec 3) (t : BitVec 1)
    (f : RM → FV → FV → FV × Nat) (s : State) : State :=
  run (redNeed s w (ok s) d a k t) s (fun s =>
    if vlN s ≤ vsN s then .done { s with thr.sr.vstart := 0 }
    else
      let fmt := acc (fmtN s)
      let join := fun x y =>
        let r := f (rmN s) (foperand fmt (ftzN s) x) (foperand fmt (ftzN s) y)
        let c := roundTo fmt (rmN s) false (ftzN s) r.1
        (c.1, r.2 ||| c.2)
      let r := treeSum join 13 ((treeLeaves s a k).map (Option.map (widen s)))
      let s1 := { chargeReduction s with thr.sr.vstart := 0 }
      if enabledFlags s r.2 != 0 then .trap 0x10 (w64 (enabledFlags s r.2)) 0 s1
      else .done (putReduction t d (fmtEw fmt) (w64 (r.1.getD (signBit (ffmt fmt)))) (mergeFlags r.2 s1)))

/-- VFREDSUM (R49, R122). -/
def execVfredsum (d a : BitVec 5) (k : BitVec 3) (h : BitVec 2) (t : BitVec 1) (s : State) : Host.Outcome State Fault Refusal :=
  .next (floatReduction (encode (.vfredsum d a k h t)) floatOk id (fun _ c => c) d a k t fvAdd s)

/-- BF16 or FP16. -/
def halfOk (s : State) : Bool := (fmtN s = 10 || fmtN s = 11) && noBlk s

/-- A BF16 or FP16 code as an FP32 code of the same value; a NaN keeps its bits, and a subnormal its value: FTZ acts on the FP32 operands
of the additions. (DEDUCED, log 87) -/
def widenHalf (s : State) (c : Nat) : Nat :=
  match fval (ffmt (fmtN s)) c with
  | .nan _ => if fmtN s = 10 then c * 2 ^ 16 else bits c 15 1 * 2 ^ 31 + 0x7F800000 + bits c 0 10 * 2 ^ 13
  | v => (roundTo 9 .rne false false v).1

/-- VFREDSUMW (R49, R122): accumulated in FP32. -/
def execVfredsumw (d a : BitVec 5) (k : BitVec 3) (h : BitVec 2) (t : BitVec 1) (s : State) : Host.Outcome State Fault Refusal :=
  .next (floatReduction (encode (.vfredsumw d a k h t)) halfOk (fun _ => 9) widenHalf d a k t fvAdd s)

/-- VFREDMIN (R49, R122). -/
def execVfredmin (d a : BitVec 5) (k : BitVec 3) (h : BitVec 2) (t : BitVec 1) (s : State) : Host.Outcome State Fault Refusal :=
  .next (floatReduction (encode (.vfredmin d a k h t)) floatOk id (fun _ c => c) d a k t (fun _ => fvMinMax false) s)

/-- VFREDMAX (R49, R122). -/
def execVfredmax (d a : BitVec 5) (k : BitVec 3) (h : BitVec 2) (t : BitVec 1) (s : State) : Host.Outcome State Fault Refusal :=
  .next (floatReduction (encode (.vfredmax d a k h t)) floatOk id (fun _ c => c) d a k t (fun _ => fvMinMax true) s)

end Sys2Proof.Machine
end

