-- ==== Sys2Proof/Machine/VecConv.lean ====
section
/-! DEFINITION. Conversions of vector elements: `vcvt`, `vcvtsr`, `vcvtmx` (R37 to R39, R43, R44, R123 to R127). -/

namespace Sys2Proof.Machine

/-- The smallest power of two that is at least G × EWd ÷ EWs (R124). -/
def convFactor (g ewd ews : Nat) : Nat := pow2AtLeast (ceilDiv (g * ewd) ews)

/-- Two register ranges share a register. -/
def meets (a b : Nat × Nat) : Bool := a.1 < b.1 + b.2 && b.1 < a.1 + a.2

/-- The register rules of R124 for a destination, a source, further groups and companions. -/
def convRegs (s : State) (d a : Nat × Nat) (others companions : List (Nat × Nat)) : Bool :=
  (!meets d a || (d.1 = a.1 && d.2 = a.2)) && others.all (fun o => !meets o d)
    && companions.all (fun c => c.1 + c.2 ≤ (if isTrio s then 28 else 32) && (d :: a :: others).all (fun g => !meets c g))

/-- SAT of the VTYPE in force. -/
def satN (s : State) : Bool := vtSat s.thr.sr.vtype

/-- The value of source element i of a conversion (R125). -/
def convSource (s : State) (a : BitVec 5) (i : Nat) : FV :=
  let c := elemV s a.toNat (ewN s) i
  let b := vtBlk s.thr.sr.vtype
  if b != 0 then blockVal (fmtN s) (elemV s (a.toNat + grpN s) 8 (i / b)) c else elemVal s (fmtN s) c

/-- An integer kept, wrapped or clamped in another integer format (R44). -/
def convInt (s : State) (dst : Nat) (v : Int) : Nat :=
  if (intRange dst).1 ≤ v && v ≤ (intRange dst).2 then ofSigned (fmtEw dst) v
  else if satN s then ofSigned (fmtEw dst) (clampTo dst v) else ofSigned (fmtEw dst) v

/-- The result of a conversion to a format (R44, R125): code and flags. -/
def convTo (s : State) (dst : Nat) (a : BitVec 5) (i : Nat) : Nat × Nat :=
  let c := elemV s a.toNat (ewN s) i
  if fmtInt dst then
    if fmtInt (fmtN s) && noBlk s then (convInt s dst (intElem (fmtN s) c), 0)
    else
      let r := floatToInt (rmN s) (intRange dst).1 (intRange dst).2 (convSource s a i)
      (ofSigned (fmtEw dst) r.1, r.2)
  else
    let v := convSource s a i
    let r := roundTo dst (rmN s) (satN s) (ftzN s) v
    (r.1, r.2 ||| sigNV [v])

/-- The companion of a block-formatted source. -/
def srcCompanion (s : State) (a : BitVec 5) : List (Nat × Nat) := if noBlk s then [] else [(a.toNat + grpN s, 1)]

/-- VCVT (R125): CB4 as a destination traps VTYPE_ILLEGAL (R33), as does a destination factor above 8. -/
def execVcvt (d a : BitVec 5) (k : BitVec 3) (h : BitVec 2) (f : BitVec 5) (s : State) : Host.Outcome State Fault Refusal :=
  let dst := f.toNat
  let gd := convFactor (grpN s) (fmtEw dst) (ewN s)
  .next (run { word := encode (.vcvt d a k h f), vt := true, fmtOk := dst != 19 && gd ≤ 8
               regOk := convRegs s (d.toNat, gd) (grp s a) [] (srcCompanion s a)
               vr := grp s a :: srcCompanion s a, vw := [(d.toNat, gd)], kr := kmRead k, km := k.toNat, queued := true } s (fun s =>
    stripWord (ewN s) (fun i t =>
      if activeAt s k.toNat i then
        let r := convTo s dst a i
        floatEl r.2 (setElemV d.toNat (fmtEw dst) i r.1) t
      else .ok t) s))

/-- The destination formats of `vcvtsr` and, from E4M3 on, of `vcvtmx` (R123). -/
def srFormat (f : Nat) : Nat := 10 + f
/-- The destination formats of `vcvtmx` (R123). -/
def mxFormat (f : Nat) : Nat := if f = 5 then 1 else 12 + f

/-- VCVTSR (R43, R126). -/
def execVcvtsr (d a b : BitVec 5) (k : BitVec 3) (h : BitVec 2) (f : BitVec 3) (s : State) : Host.Outcome State Fault Refusal :=
  let dst := srFormat f.toNat
  let gd := convFactor (grpN s) (fmtEw dst) (ewN s)
  let gr := convFactor (grpN s) 16 (ewN s)
  .next (run { word := encode (.vcvtsr d a b k h f), vt := true, fmtOk := floatOk s
               regOk := convRegs s (d.toNat, gd) (grp s a) [(b.toNat, gr)] []
               vr := [grp s a, (b.toNat, gr)], vw := [(d.toNat, gd)], kr := kmRead k, km := k.toNat, queued := true } s (fun s =>
    stripWord (ewN s) (fun i t =>
      if activeAt s k.toNat i then
        let v := convSource s a i
        let r := roundStoch dst (satN s) (ftzN s) (elemV s b.toNat 16 i) v
        floatEl (r.2 ||| sigNV [v]) (setElemV d.toNat (fmtEw dst) i r.1) t
      else .ok t) s))

/-! ## MX blocks (R39, R127) -/

/-- The exponent of the largest finite value of an MX element format (R39). -/
def mxEmax (f : Nat) : Int := match f with | 12 => 8 | 13 => 15 | 14 => 4 | 15 => 2 | 16 => 2 | _ => 0

/-- ⌊log2⌋ of the largest magnitude among values; none for zeros only. -/
def maxLog (l : List FV) : Option Int :=
  l.foldl (fun acc v => match v with
    | .fin _ m e _ => if m = 0 then acc else
      let x := (bitLen m : Int) - 1 + e
      match acc with
      | some y => some (max x y)
      | none => some x
    | _ => acc) none

/-- The scale byte of a block (R39). -/
def mxScale (dst : Nat) (l : List FV) : Nat :=
  if l.any (fun v => v.isNan || v.isInf) then 0xFF
  else match maxLog l with
    | none => 0
    | some x => (max (-127) (min 127 (x - mxEmax dst)) + 127).toNat

/-- The code of an element under a scale, and its flags (R39). -/
def mxCode (dst scale : Nat) (mode : RM) (v : FV) : Nat × Nat :=
  if scale = 0xFF then (0, if v.isNan || v.isInf then fNV else 0)
  else
    let x := scaleVal (127 - (scale : Int)) v
    if dst = 1 then
      match scaleVal 6 x with
      | .fin n m e st =>
        let r := roundInt mode n m e st
        let c := max (-128) (min 127 r.1)
        (ofSigned 8 c, if r.2 || c != r.1 then fNX else 0)
      | _ => (0, 0)
    else
      let r := roundTo dst mode true false x
      (r.1, r.2 &&& (fNX ||| fUF))

/-- One block written: its scale, and the codes of its active elements at or above VSTART. -/
def mxBlock (s : State) (dst gd blk km : Nat) (a d : BitVec 5) (j : Nat) (t : State) : El :=
  let idx := (upFrom (j * blk) (min blk (vlN s - j * blk))).filter (fun i => activeAt s km i)
  let vals := idx.map (fun i => (i, convSource s a i))
  let scale := mxScale dst (vals.map Prod.snd)
  let codes := vals.map (fun p => (p.1, mxCode dst scale (rmN s) p.2))
  let fl := codes.foldl (fun m p => m ||| p.2.2) 0
  floatEl fl (fun t => (codes.filter (fun p => vsN s ≤ p.1)).foldl (fun t p => setElemV d.toNat (fmtEw dst) p.1 p.2.1 t)
    (setElemV (d.toNat + gd) 8 j scale t)) t

/-- VCVTMX (R39, R127): a trap's VSTART is the first element of the block, its TVAL the enabled flags raised in the block. (DEDUCED, log 22) -/
def execVcvtmx (d a : BitVec 5) (sf : BitVec 1) (k : BitVec 3) (h : BitVec 2) (f : BitVec 3) (s : State) : Host.Outcome State Fault Refusal :=
  let dst := mxFormat f.toNat
  let gd := convFactor (grpN s) (fmtEw dst) (ewN s)
  let blk := if sf = 1 then 16 else 32
  .next (run { word := encode (.vcvtmx d a sf k h f), vt := true, fmtOk := floatOk s
               regOk := convRegs s (d.toNat, gd) (grp s a) [] [(d.toNat + gd, 1)]
               vr := [grp s a], vw := [(d.toNat, gd)], kr := kmRead k, km := k.toNat, queued := true } s (fun s =>
    if vlN s ≤ vsN s then .done { s with thr.sr.vstart := 0 }
    else
      let first := vsN s / blk
      match sweep (mxBlock s dst gd blk k.toNat a d) (ceilDiv (vlN s) blk - first) first (chargeWord (ewN s) s) with
      | .stop j c v v2 h t => finishSweep s (.stop (j * blk) c v v2 h t)
      | r => finishSweep s r))

end Sys2Proof.Machine
end

