-- ==== Sys2Proof/Machine/Scalar.lean ====
section
/-! DEFINITION. Scalar instructions: integer ALU, immediates, multiply and divide, scalar float, branches, jumps, calls and returns
(R74 to R89, R94). -/

namespace Sys2Proof.Machine

/-! ## Shared forms -/

/-- A word that reads two x registers and writes one (R75, R80). -/
def aluXR (w : BitVec 32) (d a b : BitVec 5) (f : Word → Word → Word) (s : State) : State :=
  scalar w [a.toNat, b.toNat] [d.toNat] s (fun s => wx d.toNat (f (xr s a) (xr s b)) s)

/-- A word that reads one x register and writes one (R75, R76, R79). -/
def aluX (w : BitVec 32) (d a : BitVec 5) (f : Word → Word) (s : State) : State :=
  scalar w [a.toNat] [d.toNat] s (fun s => wx d.toNat (f (xr s a)) s)

/-- Leading zero bits of a word; 64 for 0 (R75). -/
def clz64 (a : Word) : Nat := if a = 0 then 64 else 63 - Nat.log2 a.toNat

/-- Trailing zero bits among the lowest n bits of a number. -/
def ctzBits (a : Nat) : Nat → Nat
  | 0 => 0
  | n + 1 => if a % 2 = 1 then 0 else 1 + ctzBits (a / 2) n

/-- One bits among the lowest n bits of a number. -/
def popBits (a : Nat) : Nat → Nat
  | 0 => 0
  | n + 1 => a % 2 + popBits (a / 2) n

/-- Signed division with the edge cases of R81. -/
def divS (a b : Word) : Word :=
  if b = 0 then (if a.toInt < 0 then w64 (2 ^ 63) else w64 (2 ^ 63 - 1))
  else if a = w64 (2 ^ 63) ∧ b = w64 (2 ^ 64 - 1) then w64 (2 ^ 63 - 1)
  else BitVec.ofInt 64 (a.toInt.tdiv b.toInt)

/-- Signed remainder with the sign of the dividend and the edge cases of R81. -/
def remS (a b : Word) : Word :=
  if b = 0 then a else BitVec.ofInt 64 (a.toInt.tmod b.toInt)

/-- Unsigned division; a zero divisor gives 2^64 - 1 (R81). -/
def divU (a b : Word) : Word := if b = 0 then w64 (2 ^ 64 - 1) else w64 (a.toNat / b.toNat)

/-- Unsigned remainder; a zero divisor gives the dividend (R81). -/
def remU (a b : Word) : Word := if b = 0 then a else w64 (a.toNat % b.toNat)

/-- The upper half of the product of two integers. -/
def mulHigh (a b : Int) : Word := BitVec.ofInt 64 (a * b / 2 ^ 64)

/-! ## Integer ALU, major 0x01 (R75) -/

/-- ADD (R75). -/
def execAdd (d a b : BitVec 5) (s : State) : Host.Outcome State Fault Refusal :=
  .next (aluXR (encode (.add d a b)) d a b (fun a b => a + b) s)

/-- SUB (R75). -/
def execSub (d a b : BitVec 5) (s : State) : Host.Outcome State Fault Refusal :=
  .next (aluXR (encode (.sub d a b)) d a b (fun a b => a - b) s)

/-- AND (R75). -/
def execAnd (d a b : BitVec 5) (s : State) : Host.Outcome State Fault Refusal :=
  .next (aluXR (encode (.and d a b)) d a b (fun a b => a &&& b) s)

/-- OR (R75). -/
def execOr (d a b : BitVec 5) (s : State) : Host.Outcome State Fault Refusal :=
  .next (aluXR (encode (.or d a b)) d a b (fun a b => a ||| b) s)

/-- XOR (R75). -/
def execXor (d a b : BitVec 5) (s : State) : Host.Outcome State Fault Refusal :=
  .next (aluXR (encode (.xor d a b)) d a b (fun a b => a ^^^ b) s)

/-- SLL (R75). -/
def execSll (d a b : BitVec 5) (s : State) : Host.Outcome State Fault Refusal :=
  .next (aluXR (encode (.sll d a b)) d a b (fun a b => a <<< bits b.toNat 0 6) s)

/-- SRL (R75). -/
def execSrl (d a b : BitVec 5) (s : State) : Host.Outcome State Fault Refusal :=
  .next (aluXR (encode (.srl d a b)) d a b (fun a b => a >>> bits b.toNat 0 6) s)

/-- SRA (R75). -/
def execSra (d a b : BitVec 5) (s : State) : Host.Outcome State Fault Refusal :=
  .next (aluXR (encode (.sra d a b)) d a b (fun a b => a.sshiftRight (bits b.toNat 0 6)) s)

/-- SLT (R75). -/
def execSlt (d a b : BitVec 5) (s : State) : Host.Outcome State Fault Refusal :=
  .next (aluXR (encode (.slt d a b)) d a b (fun a b => boolWord (a.toInt < b.toInt)) s)

/-- SLTU (R75). -/
def execSltu (d a b : BitVec 5) (s : State) : Host.Outcome State Fault Refusal :=
  .next (aluXR (encode (.sltu d a b)) d a b (fun a b => boolWord (a.toNat < b.toNat)) s)

/-- MIN (R75). -/
def execMin (d a b : BitVec 5) (s : State) : Host.Outcome State Fault Refusal :=
  .next (aluXR (encode (.min d a b)) d a b (fun a b => if a.toInt < b.toInt then a else b) s)

/-- MAX (R75). -/
def execMax (d a b : BitVec 5) (s : State) : Host.Outcome State Fault Refusal :=
  .next (aluXR (encode (.max d a b)) d a b (fun a b => if a.toInt < b.toInt then b else a) s)

/-- MINU (R75). -/
def execMinu (d a b : BitVec 5) (s : State) : Host.Outcome State Fault Refusal :=
  .next (aluXR (encode (.minu d a b)) d a b (fun a b => if a.toNat < b.toNat then a else b) s)

/-- MAXU (R75). -/
def execMaxu (d a b : BitVec 5) (s : State) : Host.Outcome State Fault Refusal :=
  .next (aluXR (encode (.maxu d a b)) d a b (fun a b => if a.toNat < b.toNat then b else a) s)

/-- CLZ (R75). -/
def execClz (d a : BitVec 5) (s : State) : Host.Outcome State Fault Refusal :=
  .next (aluX (encode (.clz d a)) d a (fun a => w64 (clz64 a)) s)

/-- CTZ (R75). -/
def execCtz (d a : BitVec 5) (s : State) : Host.Outcome State Fault Refusal :=
  .next (aluX (encode (.ctz d a)) d a (fun a => w64 (ctzBits a.toNat 64)) s)

/-- POPC (R75). -/
def execPopc (d a : BitVec 5) (s : State) : Host.Outcome State Fault Refusal :=
  .next (aluX (encode (.popc d a)) d a (fun a => w64 (popBits a.toNat 64)) s)

/-- SEXTB (R75). -/
def execSextb (d a : BitVec 5) (s : State) : Host.Outcome State Fault Refusal :=
  .next (aluX (encode (.sextb d a)) d a (fun a => sextWord 8 (bits a.toNat 0 8)) s)

/-- SEXTH (R75). -/
def execSexth (d a : BitVec 5) (s : State) : Host.Outcome State Fault Refusal :=
  .next (aluX (encode (.sexth d a)) d a (fun a => sextWord 16 (bits a.toNat 0 16)) s)

/-- SEXTW (R75). -/
def execSextw (d a : BitVec 5) (s : State) : Host.Outcome State Fault Refusal :=
  .next (aluX (encode (.sextw d a)) d a (fun a => sextWord 32 (bits a.toNat 0 32)) s)

/-! ## Immediate forms, majors 0x04 to 0x0C (R76 to R79) -/

/-- ADDI (R76). -/
def execAddi (d a : BitVec 5) (i : BitVec 16) (s : State) : Host.Outcome State Fault Refusal :=
  .next (aluX (encode (.addi d a i)) d a (fun a => a + simm i) s)

/-- ANDI (R76). -/
def execAndi (d a : BitVec 5) (i : BitVec 16) (s : State) : Host.Outcome State Fault Refusal :=
  .next (aluX (encode (.andi d a i)) d a (fun a => a &&& zimm i) s)

/-- ORI (R76). -/
def execOri (d a : BitVec 5) (i : BitVec 16) (s : State) : Host.Outcome State Fault Refusal :=
  .next (aluX (encode (.ori d a i)) d a (fun a => a ||| zimm i) s)

/-- XORI (R76). -/
def execXori (d a : BitVec 5) (i : BitVec 16) (s : State) : Host.Outcome State Fault Refusal :=
  .next (aluX (encode (.xori d a i)) d a (fun a => a ^^^ zimm i) s)

/-- SLTI (R76). -/
def execSlti (d a : BitVec 5) (i : BitVec 16) (s : State) : Host.Outcome State Fault Refusal :=
  .next (aluX (encode (.slti d a i)) d a (fun a => boolWord (a.toInt < (simm i).toInt)) s)

/-- SLTIU (R76). -/
def execSltiu (d a : BitVec 5) (i : BitVec 16) (s : State) : Host.Outcome State Fault Refusal :=
  .next (aluX (encode (.sltiu d a i)) d a (fun a => boolWord (a.toNat < (simm i).toNat)) s)

/-- LIM: one 16-bit chunk of xD replaced (R77); it reads xD before it writes it. -/
def execLim (d : BitVec 5) (c : BitVec 2) (i : BitVec 16) (s : State) : Host.Outcome State Fault Refusal :=
  .next (aluX (encode (.lim d c i)) d d (fun x => (x &&& ~~~((0xFFFF : Word) <<< (16 * c.toNat))) ||| (zimm i <<< (16 * c.toNat))) s)

/-- PCADD (R78). -/
def execPcadd (d : BitVec 5) (i : BitVec 16) (s : State) : Host.Outcome State Fault Refusal :=
  .next (scalar (encode (.pcadd d i)) [] [d.toNat] s (fun s => wx d.toNat (target s.thr.pc i) s))

/-- SLLI (R79). -/
def execSlli (d a : BitVec 5) (sh : BitVec 6) (s : State) : Host.Outcome State Fault Refusal :=
  .next (aluX (encode (.slli d a sh)) d a (fun x => x <<< sh.toNat) s)

/-- SRLI (R79). -/
def execSrli (d a : BitVec 5) (sh : BitVec 6) (s : State) : Host.Outcome State Fault Refusal :=
  .next (aluX (encode (.srli d a sh)) d a (fun x => x >>> sh.toNat) s)

/-- SRAI (R79). -/
def execSrai (d a : BitVec 5) (sh : BitVec 6) (s : State) : Host.Outcome State Fault Refusal :=
  .next (aluX (encode (.srai d a sh)) d a (fun x => x.sshiftRight sh.toNat) s)

/-- RORI (R79). -/
def execRori (d a : BitVec 5) (sh : BitVec 6) (s : State) : Host.Outcome State Fault Refusal :=
  .next (aluX (encode (.rori d a sh)) d a (fun x => x.rotateRight sh.toNat) s)

/-! ## Multiply and divide, major 0x02 (R80, R81) -/

/-- MUL (R80). -/
def execMul (d a b : BitVec 5) (s : State) : Host.Outcome State Fault Refusal :=
  .next (aluXR (encode (.mul d a b)) d a b (fun a b => a * b) s)

/-- MULHS (R80). -/
def execMulhs (d a b : BitVec 5) (s : State) : Host.Outcome State Fault Refusal :=
  .next (aluXR (encode (.mulhs d a b)) d a b (fun a b => mulHigh a.toInt b.toInt) s)

/-- MULHU (R80). -/
def execMulhu (d a b : BitVec 5) (s : State) : Host.Outcome State Fault Refusal :=
  .next (aluXR (encode (.mulhu d a b)) d a b (fun a b => mulHigh a.toNat b.toNat) s)

/-- MULHX (R80). -/
def execMulhx (d a b : BitVec 5) (s : State) : Host.Outcome State Fault Refusal :=
  .next (aluXR (encode (.mulhx d a b)) d a b (fun a b => mulHigh a.toInt b.toNat) s)

/-- DIV (R80, R81). -/
def execDiv (d a b : BitVec 5) (s : State) : Host.Outcome State Fault Refusal :=
  .next (aluXR (encode (.div d a b)) d a b (divS) s)

/-- DIVU (R80, R81). -/
def execDivu (d a b : BitVec 5) (s : State) : Host.Outcome State Fault Refusal :=
  .next (aluXR (encode (.divu d a b)) d a b (divU) s)

/-- REM (R80, R81). -/
def execRem (d a b : BitVec 5) (s : State) : Host.Outcome State Fault Refusal :=
  .next (aluXR (encode (.rem d a b)) d a b (remS) s)

/-- REMU (R80, R81). -/
def execRemu (d a b : BitVec 5) (s : State) : Host.Outcome State Fault Refusal :=
  .next (aluXR (encode (.remu d a b)) d a b (remU) s)

/-! ## Scalar floating point, major 0x03 (R82 to R86) -/

/-- A scalar float result rounded to its format under FPCTL and written with the upper bits zero (R83). -/
def sfRound (f : BitVec 2) (d : BitVec 5) (r : FV × Nat) (s : State) : Res :=
  let c := roundTo (sfmt f) (rmN s) false (ftzN s) r.1
  finishScalarFloat d.toNat (w64 c.1) (r.2 ||| c.2) s

/-- A scalar float word of two sources (R83). -/
def sfBin (w : BitVec 32) (d a b : BitVec 5) (f : BitVec 2) (op : RM → FV → FV → FV × Nat) (s : State) : State :=
  run { word := w, xr := [a.toNat, b.toNat], xw := [d.toNat] } s
    (fun s => sfRound f d (op (rmN s) (sfOperand s f a) (sfOperand s f b)) s)

/-- A scalar float compare (R84). -/
def sfCmp (w : BitVec 32) (d a b : BitVec 5) (f : BitVec 2) (p : FV → FV → Bool × Nat) (s : State) : State :=
  run { word := w, xr := [a.toNat, b.toNat], xw := [d.toNat] } s
    (fun s => let r := p (sfOperand s f a) (sfOperand s f b); finishScalarFloat d.toNat (boolWord r.1) r.2 s)

/-- A scalar float converted to an integer of 64 bits in [lo, hi] (R85). -/
def sfToInt (w : BitVec 32) (d a : BitVec 5) (f : BitVec 2) (lo hi : Int) (s : State) : State :=
  run { word := w, xr := [a.toNat], xw := [d.toNat] } s
    (fun s => let r := floatToInt (rmN s) lo hi (sfOperand s f a); finishScalarFloat d.toNat (BitVec.ofInt 64 r.1) r.2 s)

/-- An integer of 64 bits converted to a scalar float (R85). -/
def sfFromInt (w : BitVec 32) (d a : BitVec 5) (f : BitVec 2) (val : Word → Int) (s : State) : State :=
  run { word := w, xr := [a.toNat], xw := [d.toNat] } s (fun s => sfRound f d (intVal (val (xr s a)), 0) s)

/-- A scalar float converted to another float format (R85): NV for a signalling NaN. -/
def sfConvert (w : BitVec 32) (d a : BitVec 5) (f : BitVec 2) (dest : BitVec 2) (s : State) : State :=
  run { word := w, xr := [a.toNat], xw := [d.toNat] } s
    (fun s => let x := sfOperand s f a; sfRound dest d (x, sigNV [x]) s)

/-- FADD (R83). -/
def execFadd (d a b : BitVec 5) (f : BitVec 2) (s : State) : Host.Outcome State Fault Refusal :=
  .next (sfBin (encode (.fadd d a b f)) d a b f (fvAdd) s)

/-- FSUB (R83). -/
def execFsub (d a b : BitVec 5) (f : BitVec 2) (s : State) : Host.Outcome State Fault Refusal :=
  .next (sfBin (encode (.fsub d a b f)) d a b f (fun m a b => fvAdd m a b.negate) s)

/-- FMUL (R83). -/
def execFmul (d a b : BitVec 5) (f : BitVec 2) (s : State) : Host.Outcome State Fault Refusal :=
  .next (sfBin (encode (.fmul d a b f)) d a b f (fun _ a b => fvMul a b) s)

/-- FDIV (R83). -/
def execFdiv (d a b : BitVec 5) (f : BitVec 2) (s : State) : Host.Outcome State Fault Refusal :=
  .next (sfBin (encode (.fdiv d a b f)) d a b f (fun _ a b => fvDiv a b) s)

/-- FMAD: d + a × b, exact before one rounding (R83); it reads xD. -/
def execFmad (d a b : BitVec 5) (f : BitVec 2) (s : State) : Host.Outcome State Fault Refusal :=
  .next (run { word := encode (.fmad d a b f), xr := [d.toNat, a.toNat, b.toNat], xw := [d.toNat] } s
    (fun s => sfRound f d (fvFma (rmN s) (sfOperand s f d) (sfOperand s f a) (sfOperand s f b)) s))

/-- FEQ (R84). -/
def execFeq (d a b : BitVec 5) (f : BitVec 2) (s : State) : Host.Outcome State Fault Refusal :=
  .next (sfCmp (encode (.feq d a b f)) d a b f (fun x y => fvCompare 0 x y) s)

/-- FLT (R84). -/
def execFlt (d a b : BitVec 5) (f : BitVec 2) (s : State) : Host.Outcome State Fault Refusal :=
  .next (sfCmp (encode (.flt d a b f)) d a b f (fun x y => fvCompare 2 x y) s)

/-- FLE (R84). -/
def execFle (d a b : BitVec 5) (f : BitVec 2) (s : State) : Host.Outcome State Fault Refusal :=
  .next (sfCmp (encode (.fle d a b f)) d a b f (fun x y => fvCompare 3 x y) s)

/-- FUN: true when a or b is NaN (R84). -/
def execFuno (d a b : BitVec 5) (f : BitVec 2) (s : State) : Host.Outcome State Fault Refusal :=
  .next (sfCmp (encode (.funo d a b f)) d a b f (fun x y => (x.isNan || y.isNan, sigNV [x, y])) s)

/-- FSQRT (R83). -/
def execFsqrt (d a : BitVec 5) (f : BitVec 2) (s : State) : Host.Outcome State Fault Refusal :=
  .next (run { word := encode (.fsqrt d a f), xr := [a.toNat], xw := [d.toNat] } s
    (fun s => sfRound f d (fvSqrt (sfOperand s f a)) s))

/-- FTOI (R85). -/
def execFtoi (d a : BitVec 5) (f : BitVec 2) (s : State) : Host.Outcome State Fault Refusal :=
  .next (sfToInt (encode (.ftoi d a f)) d a f (-(2 ^ 63)) (2 ^ 63 - 1) s)

/-- FTOU (R85). -/
def execFtou (d a : BitVec 5) (f : BitVec 2) (s : State) : Host.Outcome State Fault Refusal :=
  .next (sfToInt (encode (.ftou d a f)) d a f 0 (2 ^ 64 - 1) s)

/-- ITOF (R85). -/
def execItof (d a : BitVec 5) (f : BitVec 2) (s : State) : Host.Outcome State Fault Refusal :=
  .next (sfFromInt (encode (.itof d a f)) d a f (fun x => x.toInt) s)

/-- UTOF (R85). -/
def execUtof (d a : BitVec 5) (f : BitVec 2) (s : State) : Host.Outcome State Fault Refusal :=
  .next (sfFromInt (encode (.utof d a f)) d a f (fun x => (x.toNat : Int)) s)

/-- FCVS: to FP32 (R85). -/
def execFcvs (d a : BitVec 5) (f : BitVec 2) (s : State) : Host.Outcome State Fault Refusal :=
  .next (sfConvert (encode (.fcvs d a f)) d a f 0 s)

/-- FCVH: to FP16 (R85). -/
def execFcvh (d a : BitVec 5) (f : BitVec 2) (s : State) : Host.Outcome State Fault Refusal :=
  .next (sfConvert (encode (.fcvh d a f)) d a f 1 s)

/-- FCVB: to BF16 (R85). -/
def execFcvb (d a : BitVec 5) (f : BitVec 2) (s : State) : Host.Outcome State Fault Refusal :=
  .next (sfConvert (encode (.fcvb d a f)) d a f 2 s)

/-! ## Branches, jumps, calls and returns (R87 to R89) -/

/-- A compare-branch (R87). -/
def branch (w : BitVec 32) (a b : BitVec 5) (o : BitVec 16) (p : Word → Word → Bool) (s : State) : State :=
  run { word := w, xr := [a.toNat, b.toNat] } s
    (fun s => if p (xr s a) (xr s b) then .jump (target s.thr.pc o) s else .done s)

/-- Bytes written to the thread's spill area in the sync class (R88): the state, or the first byte that failed. Watchpoints never match
(R330). -/
def spillWrite (addr : Nat) (bs : List Byte) (s : State) : Except Nat State :=
  match xlateRange (xlateAcc s true false addr bs.length) addr bs.length with
  | .error (_, a) => .error a
  | .ok locs => .ok (pushStore 15 addr (wholeBytes (locs.map (·.key)) bs) s)

/-- Bytes read back from the spill area, a load of the sync class (R88, R363): a fault of its checks is STACK_SPILL at the first byte that
failed. -/
def spillRead (addr n : Nat) (s : State) : Got :=
  match xlateRange (xlateAcc s false false addr n) addr n with
  | .error (_, a) => .trap 0x0E a none 0
  | .ok locs => loadChecked s 15 addr locs

/-- push_lk of R88: lk on the return stack, the oldest entry spilled when 16 are on chip. -/
def pushLk (s : State) : Except Nat State :=
  let lk := SMap.get 0 s.thr.x 1
  if s.thr.hid.rstack.length < 16 then .ok { s with thr.hid.rstack := s.thr.hid.rstack ++ [lk] }
  else
    let addr := s.thr.hid.rsbase.toNat + 8 * s.thr.hid.nspilled
    match spillWrite addr (leBytes 8 (s.thr.hid.rstack.headD 0).toNat) s with
    | .error _ => .error addr
    | .ok t => .ok { t with thr.hid.nspilled := s.thr.hid.nspilled + 1, thr.hid.rstack := s.thr.hid.rstack.tail ++ [lk] }

/-- A call to an address (R88). -/
def callTo (t : Word) (s : State) : Res :=
  match pushLk s with
  | .error a => .trap 0x0E (w64 a) 0 s
  | .ok u => .jump t (wx 1 (s.thr.pc + 4) u)

/-- The check of a register target (R88). -/
def checked (t : Word) (s : State) (k : Res) : Res := if bits t.toNat 0 2 ≠ 0 then .trap cAlign t 0 s else k

/-- A return to the address in lk, with lk refilled from the return stack (R88). -/
def retTo (s : State) : Res :=
  let t := SMap.get 0 s.thr.x 1
  match s.thr.hid.rstack.getLast? with
  | some top => .jump t (wx 1 top { s with thr.hid.rstack := s.thr.hid.rstack.dropLast })
  | none =>
    if s.thr.hid.nspilled = 0 then .jump t (wx 1 0 s)
    else
      let addr := s.thr.hid.rsbase.toNat + 8 * (s.thr.hid.nspilled - 1)
      match spillRead addr 8 s with
      | .trap c v v2 _ => .trap c (w64 (if c = 0x0E then addr else v)) (w64 (v2.getD 0)) s
      | .wait q => .wait (askFor q s)
      | .ok bs locs => .jump t (wx 1 (w64 (leNat bs)) (afterLoad 15 locs { s with thr.hid.nspilled := s.thr.hid.nspilled - 1 }))

/-- BEQ (R87). -/
def execBeq (a b : BitVec 5) (o : BitVec 16) (s : State) : Host.Outcome State Fault Refusal :=
  .next (branch (encode (.beq a b o)) a b o (fun a b => a == b) s)

/-- BNE (R87). -/
def execBne (a b : BitVec 5) (o : BitVec 16) (s : State) : Host.Outcome State Fault Refusal :=
  .next (branch (encode (.bne a b o)) a b o (fun a b => a != b) s)

/-- BLT (R87). -/
def execBlt (a b : BitVec 5) (o : BitVec 16) (s : State) : Host.Outcome State Fault Refusal :=
  .next (branch (encode (.blt a b o)) a b o (fun a b => a.toInt < b.toInt) s)

/-- BGE (R87). -/
def execBge (a b : BitVec 5) (o : BitVec 16) (s : State) : Host.Outcome State Fault Refusal :=
  .next (branch (encode (.bge a b o)) a b o (fun a b => b.toInt ≤ a.toInt) s)

/-- BLTU (R87). -/
def execBltu (a b : BitVec 5) (o : BitVec 16) (s : State) : Host.Outcome State Fault Refusal :=
  .next (branch (encode (.bltu a b o)) a b o (fun a b => a.toNat < b.toNat) s)

/-- BGEU (R87). -/
def execBgeu (a b : BitVec 5) (o : BitVec 16) (s : State) : Host.Outcome State Fault Refusal :=
  .next (branch (encode (.bgeu a b o)) a b o (fun a b => b.toNat ≤ a.toNat) s)

/-- JMP (R87). -/
def execJmp (o : BitVec 26) (s : State) : Host.Outcome State Fault Refusal :=
  .next (run { word := encode (.jmp o) } s (fun s => .jump (target s.thr.pc o) s))

/-- CALL (R88). -/
def execCall (o : BitVec 26) (s : State) : Host.Outcome State Fault Refusal :=
  .next (run { word := encode (.call o), xr := [1] } s (fun s => callTo (target s.thr.pc o) s))

/-- JR (R88). -/
def execJr (a : BitVec 5) (s : State) : Host.Outcome State Fault Refusal :=
  .next (run { word := encode (.jr a), xr := [a.toNat] } s (fun s => checked (xr s a) s (.jump (xr s a) s)))

/-- CALLR (R88). -/
def execCallr (a : BitVec 5) (s : State) : Host.Outcome State Fault Refusal :=
  .next (run { word := encode (.callr a), xr := [a.toNat, 1] } s (fun s => checked (xr s a) s (callTo (xr s a) s)))

/-- RET (R88). -/
def execRet (s : State) : Host.Outcome State Fault Refusal :=
  .next (run { word := encode .ret, xr := [1] } s (fun s => checked (SMap.get 0 s.thr.x 1) s (retTo s)))

/-- NOP (R94). -/
def execNop (s : State) : Host.Outcome State Fault Refusal :=
  .next (scalar (encode .nop) [] [] s (fun s => s))

end Sys2Proof.Machine
end

