-- ==== Sys2Proof/Machine/System.lean ====
section
/-! DEFINITION. State moves and system words: `mfs`, `mts`, `sys`, `brk`, `eret`, `yield` (R11 to R15, R40, R41, R93, R149 to R151,
R324 to R329, R355). -/

namespace Sys2Proof.Machine

/-- The ROLE register: SOLO reads 1 (R11). -/
def roleReg (s : State) : Nat := if s.slot.chain.isSome then 1 else s.cur.2

/-- The GROUPS register: four group IDs in ascending order (R11, R212). -/
def groupsReg (l : List Nat) : Nat := ((l.take 4).foldr (fun g n => g + 256 * n) 0)

/-- A state register's value, or none for a number R11 does not list (R12, R13). -/
def readSreg (s : State) (sel : Nat) : Option Word :=
  let r := s.thr.sr
  match sel with
  | 0x0000 => some r.vl
  | 0x0001 => some (r.vtype.setWidth 64)
  | 0x0002 => some r.vstart
  | 0x0003 => some r.vlvalid
  | 0x0004 => some r.vlmax
  | 0x0005 => some (w64 (maxVlInForce s.dev s.cur.1))
  | 0x0010 => some r.fpctl
  | 0x0011 => some r.fpflags
  | 0x0018 => some r.mctl
  | 0x0019 => some r.mrho
  | 0x001A => some r.mflags
  | 0x0020 => some r.tcause
  | 0x0021 => some r.tpc
  | 0x0022 => some r.tval
  | 0x0023 => some r.tval2
  | 0x0024 => some r.torigin
  | 0x0025 => some r.tvec
  | 0x0026 => some r.tstat
  | 0x0030 => some (w64 s.slot.ctx)
  | 0x0031 => some (w64 s.slot.acct)
  | 0x0032 => some (w64 (roleReg s))
  | 0x0033 => some (w64 (if s.slot.chain.isSome then 0 else s.slot.cfg))
  | 0x0034 => some (s.slot.part.setWidth 64)
  | 0x0035 => some (w64 (groupsReg s.slot.groups))
  | 0x0036 => some r.taskid
  | 0x0038 => some s.dev.devtime
  | 0x0039 => some (w64 (cycNow s - s.slot.placedAt))
  | 0x003A => some r.instret
  | 0x0040 => some (boolWord (SMap.get false s.dev.chk s.cur.1))
  | 0x0041 => some (w64 (laneMode s.dev (coreOf s)))
  | 0x0048 => some (SMap.get 0 r.watch 0)
  | 0x0049 => some (SMap.get 0 r.watch 1)
  | 0x004A => some (SMap.get 0 r.watch 2)
  | 0x004B => some (SMap.get 0 r.watch 3)
  | 0x004C => some r.wstat
  | _ => none

/-- The register is privileged (R11). -/
def sregPrivileged (sel : Nat) : Bool := sel = 0x0005 || sel = 0x0040 || sel = 0x0041

/-- Device code may write the register (R11). -/
def sregWritable (sel : Nat) : Bool :=
  sel = 0x0002 || sel = 0x0010 || sel = 0x0011 || (0x0018 ≤ sel && sel ≤ 0x001A) || (0x0020 ≤ sel && sel ≤ 0x0026)
    || (0x0048 ≤ sel && sel ≤ 0x004C)

/-- A write of a writable state register: the RW and W1C fields take the value by their access code, the reserved fields keep
theirs (R6, R14, R15, R40, R41, R93, R149 to R151, R328, R329). -/
def writeSreg (sel : Nat) (v : Word) (s : State) : State :=
  match sel with
  | 0x0002 => { s with thr.sr.vstart := v }
  | 0x0010 => { s with thr.sr.fpctl := v &&& 0x1F07 }
  | 0x0011 => { s with thr.sr.fpflags := v &&& 0x1F }
  | 0x0018 => { s with thr.sr.mctl := v &&& 0x7 }
  | 0x0019 => { s with thr.sr.mrho := v &&& 0xFFFFFFFF }
  | 0x001A => { s with thr.sr.mflags := v &&& 0x7 }
  | 0x0020 => { s with thr.sr.tcause := v &&& 0xFF }
  | 0x0021 => { s with thr.sr.tpc := v }
  | 0x0022 => { s with thr.sr.tval := v }
  | 0x0023 => { s with thr.sr.tval2 := v }
  | 0x0024 => { s with thr.sr.torigin := v }
  | 0x0025 => { s with thr.sr.tvec := v &&& 0x000FFFFFFFFFFFFC }
  | 0x0026 => { s with thr.sr.tstat := (s.thr.sr.tstat &&& ~~~1) ||| (v &&& 1) }
  | 0x0048 => { s with thr.sr.watch := SMap.set 0 s.thr.sr.watch 0 (v &&& 0xFC0FFFFFFFFFFFFF) }
  | 0x0049 => { s with thr.sr.watch := SMap.set 0 s.thr.sr.watch 1 (v &&& 0xFC0FFFFFFFFFFFFF) }
  | 0x004A => { s with thr.sr.watch := SMap.set 0 s.thr.sr.watch 2 (v &&& 0xFC0FFFFFFFFFFFFF) }
  | 0x004B => { s with thr.sr.watch := SMap.set 0 s.thr.sr.watch 3 (v &&& 0xFC0FFFFFFFFFFFFF) }
  | 0x004C => { s with thr.sr.wstat := (s.thr.sr.wstat &&& 0xF &&& ~~~v) ||| (v &&& 0x10) }
  | _ => s

/-- Registers whose read waits for every earlier vector, moment and matrix instruction (R13). -/
def sregWaits (sel : Nat) : Bool := sel = 0x0011 || sel = 0x001A || sel = 0x0002 || sel = 0x004C

/-- A matrix entry of the thread is in MXQ (DESIGN CHOICE, log 2: vector and moment words complete at issue). -/
def matrixBusy (s : State) : Bool := s.slot.mxq.any (fun e => e.op != .marker && e.role = s.cur.2)

/-- MFS (R12, R13, R93): a number that R11 does not list traps ILLEGAL_INSTR at step 2 of R61. -/
def execMfs (d : BitVec 5) (sel : BitVec 12) (s : State) : Host.Outcome State Fault Refusal :=
  .next (match readSreg s sel.toNat with
    | none => inOrder s (takeTrap (encode (.mfs d sel)) 0x01 s.thr.pc ((encode (.mfs d sel)).setWidth 64) 0 s)
    | some _ => run { word := encode (.mfs d sel), xw := [d.toNat], drain := sregWaits sel.toNat } s (fun s =>
      if sregWaits sel.toNat && matrixBusy s then .wait s else .done (wx d.toNat ((readSreg s sel.toNat).getD 0) s)))

/-- MTS (R12, R13, R93): PRIVILEGED for a privileged register, ILLEGAL_INSTR for another read-only or unlisted one; a write of a flag
register waits for the earlier matrix entries, whose flags are merged first. WSTAT.SKIP set
by the `mts` itself acts on the next instruction (R329). -/
def execMts (a : BitVec 5) (sel : BitVec 12) (s : State) : Host.Outcome State Fault Refusal :=
  let w := encode (.mts a sel)
  .next (if sregWritable sel.toNat then run { word := w, xr := [a.toNat], drain := sel = 0x0011 || sel = 0x001A } s (fun s =>
      if (sel = 0x0011 || sel = 0x001A) && matrixBusy s then .wait s else .done (writeSreg sel.toNat (xr s a) s))
    else inOrder s (takeTrap w (if sregPrivileged sel.toNat then 0x05 else 0x01) s.thr.pc (w.setWidth 64) 0 s))

/-- SYS (R325): SYSCALL with TPC at the next instruction and the code as TVAL. -/
def execSys (c : BitVec 12) (s : State) : Host.Outcome State Fault Refusal :=
  .next (run { word := encode (.sys c) } s (fun s => .trapAt 0x1C (s.thr.pc + 4) (zimm c) 0 s))

/-- BRK (R325): BREAKPOINT with the word as TVAL. -/
def execBrk (c : BitVec 12) (s : State) : Host.Outcome State Fault Refusal :=
  .next (run { word := encode (.brk c) } s (fun s => .trap 0x18 ((encode (.brk c)).setWidth 64) 0 s))

/-- The return from a trap (R326). -/
def returnFromTrap (w : BitVec 32) (s : State) : Res :=
  if !bit s.thr.sr.tstat.toNat 0 then .trap 0x01 (w.setWidth 64) 0 s
  else if bits s.thr.sr.tpc.toNat 0 2 ≠ 0 then .trap cAlign s.thr.sr.tpc 0 s
  else .jump s.thr.sr.tpc { s with thr.sr.tstat := s.thr.sr.tstat &&& ~~~1 }

/-- ERET (R326). -/
def execEret (s : State) : Host.Outcome State Fault Refusal :=
  .next (run { word := encode .eret } s (returnFromTrap (encode .eret)))

/-- YIELD (R327): nothing but the pc changes, and the role is not ready for the 16 cycles that follow. (DEDUCED, log 79) -/
def execYield (s : State) : Host.Outcome State Fault Refusal :=
  .next (scalar (encode .yield) [] [] s (fun s => { s with thr.pnd.readyAt := cycNow s + 16 }))

end Sys2Proof.Machine
end

