-- ==== Sys2Proof/Machine/Strips.lean ====
section
/-! DEFINITION. Lengths and strips: `setvl`, `setvlr`, `cbld`, `sbr`, `sdld`, `vloop`, and divergence: `vbr`, `vjoin`, `vbany`, `vball`
(R95 to R100, R108 to R111, R128 to R131). -/

namespace Sys2Proof.Machine

/-! ## Grants (R95 to R97) -/

/-- The grant of a requested VTYPE for field A (R97): VL, VTYPE, VLVALID and xD set. -/
def grantWord (d a : BitVec 5) (req : Nat) (s : State) : Res :=
    let vm := slotVlmax s.dev s.cur.1 s.slot.part.toNat
    let vlmaxg := perReg vm (fmtEw (bits req 0 5)) * 2 ^ bits req 5 2
    let avl := if a = 0 then vlmaxg else (xr s a).toNat
    let t := grant req avl s
    .done (wx d.toNat t.thr.sr.vl t)

/-- SETVL (R96, R97). -/
def execSetvl (d a : BitVec 5) (t : BitVec 12) (s : State) : Host.Outcome State Fault Refusal :=
  .next (run { word := encode (.setvl d a t), xr := if a = 0 then [] else [a.toNat], xw := [d.toNat], fmtOk := vtLegal t.toNat, fmtVal2 := zimm t } s
    (grantWord d a t.toNat))

/-- The request in xB is legal, as far as it is known: a port that this role may not read, or that is empty, has none (R209). -/
def requestOk (s : State) (b : BitVec 5) : Bool :=
  (isTrio s && 28 ≤ b.toNat && (qReader (b.toNat - 28) != s.cur.2 || (qport s (b.toNat - 28)).isEmpty)) || vtLegal (xr s b).toNat

/-- SETVLR (R96, R97): the whole of xB is the request, and its bits [63:16] must be zero. -/
def execSetvlr (d a b : BitVec 5) (s : State) : Host.Outcome State Fault Refusal :=
  .next (run { word := encode (.setvlr d a b), xr := if a = 0 then [b.toNat] else [a.toNat, b.toNat], xw := [d.toNat],
               fmtOk := requestOk s b, fmtVal2 := xr s b } s (fun s => grantWord d a (xr s b).toNat s))

/-! ## Codebooks and stream registers (R99, R108, R109) -/

/-- CBLD (R99): a trap sets VSTART to 0. -/
def execCbld (a : BitVec 5) (c : BitVec 4) (n : BitVec 2) (s : State) : Host.Outcome State Fault Refusal :=
  .next (run { word := encode (.cbld a c n), xr := [a.toNat], vs0 := true } s (fun s =>
    match loadAs s true c.toNat 32 (xr s a).toNat 32 with
    | .wait _ => .wait s
    | .trap cause v v2 h => loadTrap cause v v2 h 0 s
    | .ok bs locs =>
      .done (afterLoad c.toNat locs { mendBits 7 (8 + n.toNat) 0 256 s with thr.cb := SMap.set 0 s.thr.cb n.toNat (BitVec.ofNat 256 (leNat bs)) })))

/-- Fields of a stream descriptor (R108). -/
def dBase (d : Nat) : Nat := bfield d 0 8
/-- FMT of a descriptor. -/
def dFmt (d : Nat) : Nat := bfield d 8 1
/-- BLK of a descriptor. -/
def dBlk (d : Nat) : Nat := bfield d 9 1
/-- NDIM of a descriptor. -/
def dNdim (d : Nat) : Nat := bfield d 10 1
/-- FLAGS of a descriptor. -/
def dFlags (d : Nat) : Nat := bfield d 11 1
/-- BITOFF of a descriptor. -/
def dBitoff (d : Nat) : Nat := bits (dFlags d) 4 3
/-- EXTENT of dimension k. -/
def dExtent (d k : Nat) : Nat := bfield d (16 + 8 * k) 4
/-- STRIDE of dimension k, signed. -/
def dStride (d k : Nat) : Int := toSigned 32 (bfield d (20 + 8 * k) 4)
/-- SOFF, signed. -/
def dSoff (d : Nat) : Int := toSigned 32 (bfield d 12 4)

/-- Elements of a stream: the product of the extents below NDIM (R108). -/
def dCount (d : Nat) : Nat := (upFrom 0 (dNdim d)).foldl (fun n k => n * dExtent d k) 1

/-- The checks of a descriptor (R109). (DEDUCED, log 24) -/
def dLegal (d : Nat) : Bool :=
  1 ≤ dFmt d && dFmt d ≤ 19 && (dBlk d = 0 || ((dBlk d = 16 || dBlk d = 32) && blkFmt (dFmt d)))
    && 1 ≤ dNdim d && dNdim d ≤ 6 && !bit (dFlags d) 7

/-- Σ i_k · STRIDE_k of stream element t over the dimensions from k (R108). -/
def dOffset (d : Nat) : Nat → Nat → Nat → Int
  | 0, _, _ => 0
  | n + 1, k, t => (t % dExtent d k : Nat) * dStride d k + dOffset d n (k + 1) (t / dExtent d k)

/-- The bit at which stream element t begins (R108). -/
def dBit (d t : Nat) : Int := 8 * (dBase d : Int) + dBitoff d + fmtEw (dFmt d) * dOffset d (dNdim d) 0 t

/-- Stream register n of the thread. -/
def streamOf (s : State) (n : Nat) : Stream := SMap.get Stream.empty s.thr.s n

/-- A stream register set. -/
def setStream (n : Nat) (st : Stream) (s : State) : State := { mendBits 7 n 0 1024 s with thr.s := SMap.set Stream.empty s.thr.s n st }

/-- SDLD (R109). In a grafted chain an `sdld` into a bound register ungrafts (R290, R293). VSTART is 0 after it, whether it completes or
traps (R14, R24). (DEDUCED, log 86) -/
def execSdld (sd : BitVec 3) (a : BitVec 5) (s : State) : Host.Outcome State Fault Refusal :=
  let w := encode (.sdld sd a)
  .next (run { word := w, xr := [a.toNat], vs0 := true } s (fun s =>
    if s.slot.chain.isSome && (streamOf s sd.toNat).bound != 0 then .final (ungraft none s)
    else match loadAs s true 0 8 (xr s a).toNat 64 with
      | .wait _ => .wait s
      | .trap cause v v2 h => loadTrap cause v v2 h 0 s
      | .ok bs locs =>
        if !dLegal (leNat bs) then .trap 0x03 (xr s a) 0 s
        else .done (setStream sd.toNat ⟨true, BitVec.ofNat 512 (leNat bs), 0, 0⟩ { afterLoad 0 locs s with thr.sr.vstart := 0 })))

/-! ## The strip-mine branch (R100) -/

/-- The byte step of a scale code (R100). -/
def sbrStep (s : State) (code : Nat) : Word :=
  w64 (if code = 0 then vlN s * ewN s / 8 else if code = 1 then vlN s else if code = 2 then 2 * vlN s else 4 * vlN s)

/-- The address registers that AM selects, stepped. -/
def sbrAdvance (m : BitVec 4) (sc : BitVec 8) (s : State) : State :=
  (upFrom 0 4).foldl (fun t i =>
    if bit m.toNat i then wx (20 + i) (rx t (20 + i) + sbrStep s (bits sc.toNat (2 * i) 2)) t else t) s

/-- The address registers that AM selects. -/
def sbrRegs (m : BitVec 4) : List Nat := ((upFrom 0 4).filter (bit m.toNat)).map (20 + ·)

/-- SBR (R100). With N = 0 the count reads 0, nothing is written to it and the branch is not taken. -/
def execSbr (n : BitVec 5) (m : BitVec 4) (sc : BitVec 8) (o : BitVec 9) (s : State) : Host.Outcome State Fault Refusal :=
  .next (run { word := encode (.sbr n m sc o), xr := n.toNat :: sbrRegs m, xw := [n.toNat], vt := true } s (fun s =>
    let v := vvN s
    let left := xr s n - s.thr.sr.vlvalid
    let taken := n != 0 && decide ((v : Int) < (xr s n).toInt)
    let again := taken && v = 0
    let stall := if s.thr.hid.srecAddr = some s.thr.pc then s.thr.hid.srecStall + 1 else 1
    if again && stall = 2 then
      .trap 0x14 s.thr.pc s.thr.sr.vl { s with thr.hid.srecAddr := none, thr.hid.srecStall := 0 }
    else
      let s := { s with thr.hid.srecAddr := some s.thr.pc, thr.hid.srecStall := if again then stall else 0 }
      let s := sbrAdvance m sc (wx n.toNat left s)
      if taken then .jump (target s.thr.pc o) s else .done s))

/-! ## Zero-overhead loops (R111) -/

/-- VLOOP (R111). -/
def execVloop (sa : BitVec 3) (l : BitVec 4) (s : State) : Host.Outcome State Fault Refusal :=
  .next (run { word := encode (.vloop sa l), vt := true, regOk := (streamOf s sa.toNat).loaded, st := [sa.toNat], nested := true } s (fun s =>
      let st := streamOf s sa.toNat
      let count := dCount st.desc.toNat - st.t
      let stop := s.thr.pc + 4 + 4 * w64 (l.toNat + 1)
      if count = 0 then .jump stop s
      else .done (grant (loopVtype s st) count { s with
        thr.hid.lstart := s.thr.pc + 4
        thr.hid.lend := stop
        thr.hid.lcount := count
        thr.hid.lstream := sa.toNat
        thr.hid.active := true })))

/-! ## Divergence (R128 to R131) -/

/-- The mask of the indices below VLVALID that the execution mask selects. -/
def actMask (s : State) : Nat := s.thr.hid.exm.toNat % 2 ^ vvN s

/-- cond of a divergence word: the bits of kA, or every bit for k0 (R130). -/
def condMask (s : State) (a : BitVec 3) : Nat := if a = 0 then 2 ^ 32768 - 1 else (rk s a.toNat).toNat

/-- The bytes of a spilled fragment (R131). -/
def fragBytes (f : Frag) : List Byte :=
  leBytes 8 (f.pc.toNat + if f.pend then 1 else 0) ++ leBytes 8 0 ++ leBytes 4096 f.outer.toNat ++ leBytes 4096 f.fls.toNat

/-- A fragment read back (R131). -/
def fragOf (n : Nat) : Frag :=
  ⟨BitVec.ofNat 32768 (bits n 128 32768), BitVec.ofNat 32768 (bits n 32896 32768), w64 (bits n 2 62 * 4), bit n 0⟩

/-- A fragment pushed; the oldest of 8 is spilled first (R10, R131). -/
def pushFrag (f : Frag) (s : State) : Except Nat State :=
  if s.thr.hid.frags.length < 8 then .ok { s with thr.hid.frags := s.thr.hid.frags ++ [f] }
  else match s.thr.hid.frags with
    | [] => .ok s
    | old :: rest =>
      match spillWrite (s.thr.hid.fsbase.toNat + 8208 * s.thr.hid.fspilled) (fragBytes old) s with
      | .error a => .error a
      | .ok t => .ok { t with thr.hid.fspilled := s.thr.hid.fspilled + 1, thr.hid.frags := rest ++ [f] }

/-- VBR (R130). -/
def execVbr (a : BitVec 3) (o : BitVec 16) (s : State) : Host.Outcome State Fault Refusal :=
  .next (run { word := encode (.vbr a o), vt := true, kr := if a = 0 then [] else [a.toNat] } s (fun s =>
    let act := actMask s
    let t := act &&& condMask s a
    let f := act - t
    match pushFrag ⟨s.thr.hid.exm, BitVec.ofNat 32768 f, s.thr.pc + 4, t != 0 && f != 0⟩ s with
    | .error addr => .trap 0x0E (w64 addr) 0 s
    | .ok u => if t != 0 then .jump (target s.thr.pc o) { u with thr.hid.exm := BitVec.ofNat 32768 t } else .done u))

/-- What a `vjoin` does with the top entry (R130). -/
def joinTop (e : Frag) (rest : List Frag) (tgt : Word) (s : State) : Res :=
  if e.pend then .jump e.pc { s with thr.hid.frags := rest ++ [{ e with pend := false }], thr.hid.exm := e.fls }
  else .jump tgt { s with thr.hid.frags := rest, thr.hid.exm := e.outer }

/-- VJOIN (R130, R131): with no entry on chip the newest spilled one is refilled first. -/
def execVjoin (o : BitVec 16) (s : State) : Host.Outcome State Fault Refusal :=
  .next (run { word := encode (.vjoin o), vt := true } s (fun s =>
    let tgt := target s.thr.pc o
    match s.thr.hid.frags.getLast? with
    | some e => joinTop e s.thr.hid.frags.dropLast tgt s
    | none =>
      if s.thr.hid.fspilled = 0 then .jump tgt s
      else match spillRead (s.thr.hid.fsbase.toNat + 8208 * (s.thr.hid.fspilled - 1)) 8208 s with
        | .trap c v v2 _ => .trap c (w64 v) (w64 (v2.getD 0)) s
        | .wait q => .wait (askFor q s)
        | .ok bs locs => joinTop (fragOf (leNat bs)) [] tgt (afterLoad 15 locs { s with thr.hid.fspilled := s.thr.hid.fspilled - 1 })))

/-- VBANY (R130). -/
def execVbany (a : BitVec 3) (o : BitVec 16) (s : State) : Host.Outcome State Fault Refusal :=
  .next (run { word := encode (.vbany a o), vt := true, kr := if a = 0 then [] else [a.toNat] } s (fun s =>
    if actMask s &&& condMask s a != 0 then .jump (target s.thr.pc o) s else .done s))

/-- VBALL (R130): taken when no element is active. -/
def execVball (a : BitVec 3) (o : BitVec 16) (s : State) : Host.Outcome State Fault Refusal :=
  .next (run { word := encode (.vball a o), vt := true, kr := if a = 0 then [] else [a.toNat] } s (fun s =>
    if actMask s &&& condMask s a = actMask s then .jump (target s.thr.pc o) s else .done s))

end Sys2Proof.Machine
end

