-- ==== Sys2Proof/Machine/VecMem.lean ====
section
/-! DEFINITION. Vector loads and stores, stream strips and scatter-adds (R98, R101 to R107, R110, R112, R290 to R292, R295). -/

namespace Sys2Proof.Machine

/-! ## One element -/

/-- A load of n bytes for an element; `put` gets the little-endian number and places the element. -/
def loadEl (cls align va n : Nat) (put : Nat → State → State) (s : State) : El :=
  match loadBytes s cls align va n with
  | .trap c v v2 h => .trap c v v2 h
  | .wait q => .wait q
  | .ok bs locs => .ok (put (leNat bs) (countLoad cls locs s))

/-- A store of n bytes for an element, of which the bits of `mask` are written (R35). -/
def storeEl (cls align va n mask val : Nat) (s : State) : El :=
  match checkAccess s true align va n with
  | .trap c v h => .trap c v none h
  | .ok locs =>
    let bs := (locs.zip (upFrom 0 n)).map (fun p => (p.1.key, BitVec.ofNat 8 (bits mask (8 * p.2) 8), BitVec.ofNat 8 (bits val (8 * p.2) 8)))
    .ok (pushElem cls va 0 bs s)

/-- An address of 64 bits. -/
def wrap (a : Int) : Nat := (a % 2 ^ 64).toNat

/-- The bytes that hold ew bits from a bit: first byte, count, and the bit within the first (R35). (DEDUCED, log 23) -/
def bitSpan (bitAddr : Int) (ew : Nat) : Nat × Nat × Nat :=
  let p := (bitAddr % 8).toNat
  (wrap (bitAddr / 8), ceilDiv (p + ew) 8, p)

/-- An element of ew bits loaded from a bit address (R35, R103, R104). One of 8 bits or more that starts within a byte, where BITOFF of
a stream is not 0, is misaligned. -/
def loadBitsEl (cls : Nat) (bitAddr : Int) (ew : Nat) (put : Nat → State → State) (s : State) : El :=
  let b := bitSpan bitAddr ew
  if 8 ≤ ew && b.2.2 != 0 then .trap cAlign b.1 none 0
  else loadEl cls (if ew < 8 then 1 else ew / 8) b.1 b.2.1 (fun v => put (bits v b.2.2 ew)) s

/-- An element of ew bits stored at a bit address. -/
def storeBitsEl (cls : Nat) (bitAddr : Int) (ew val : Nat) (s : State) : El :=
  let b := bitSpan bitAddr ew
  if 8 ≤ ew && b.2.2 != 0 then .trap cAlign b.1 none 0
  else storeEl cls (if ew < 8 then 1 else ew / 8) b.1 b.2.1 ((2 ^ ew - 1) * 2 ^ b.2.2) (val % 2 ^ ew * 2 ^ b.2.2) s

/-- A load element by its class (R98): active ones access, padding is written with zero, the rest is undisturbed. -/
def loadClass (d km ew i : Nat) (access : State → El) (s : State) : El :=
  if i < vvN s then (if maskBit s km i then access s else .ok s) else .ok (setElemV d ew i 0 s)

/-- A store element by its class (R98). -/
def storeClass (km i : Nat) (access : State → El) (s : State) : El := if activeAt s km i then access s else .ok s

/-! ## Addresses (R103) -/

/-- The bit address of element i of a unit-stride pattern; for EW of 8 or more x[B] must be 0, below 8 at most 7. -/
def unitBit (s : State) (a b : BitVec 5) (ew i : Nat) : Option Int :=
  if 8 ≤ ew then (if xr s b = 0 then some (8 * (((xr s a).toNat + i * (ew / 8) : Nat) : Int)) else none)
  else if (xr s b).toNat ≤ 7 then some (8 * ((xr s a).toNat : Int) + (xr s b).toNat + i * ew) else none

/-- The address of element i of a strided pattern. -/
def strideAddr (s : State) (a b : BitVec 5) (i : Nat) : Nat := wrap ((xr s a).toNat + i * (xr s b).toInt)

/-- The address of element i of an indexed pattern. -/
def indexAddr (s : State) (a b : BitVec 5) (ew i : Nat) : Nat := wrap ((xr s a).toNat + elemV s b.toNat ew i * (ew / 8))

/-! ## Words -/

/-- The needs of a vector load: registers read and written, formats, and what R104 to R107 ask. -/
def loadNeed (s : State) (w : BitVec 32) (d k : Nat) (xs : List Nat) (vs : List (Nat × Nat)) (fmtOk regOk : Bool) : Need :=
  { word := w, xr := xs, vt := true, roleOk := mayLoad s false, fmtOk := fmtOk, regOk := regOk, vr := vs, vw := [(d, grpN s)],
    kr := if k = 0 then [] else [k], km := k, queued := true }

/-- The needs of a vector store. -/
def storeNeed (s : State) (w : BitVec 32) (d k : Nat) (xs : List Nat) (vs : List (Nat × Nat)) (fmtOk regOk : Bool) : Need :=
  { word := w, xr := xs, vt := true, roleOk := mayStore s false, fmtOk := fmtOk, regOk := regOk, vr := (d, grpN s) :: vs,
    kr := if k = 0 then [] else [k], km := k, queued := true }

/-- The element width is at least 8 bits (R102). -/
def wideFmt (s : State) : Bool := 8 ≤ ewN s

/-- The companion register of a group, and whether it may be named (R107). -/
def companion (s : State) (d : Nat) : Nat := d + grpN s
/-- The companion is a register of the thread that is no port. -/
def companionOk (s : State) (d : Nat) : Bool := companion s d ≤ (if isTrio s then 27 else 31)

/-- VLD (R103, R104). -/
def execVld (d a b : BitVec 5) (k : BitVec 3) (c : BitVec 4) (s : State) : Host.Outcome State Fault Refusal :=
  .next (run (loadNeed s (encode (.vld d a b k c)) d.toNat k.toNat [a.toNat, b.toNat] [] true true) s (fun s =>
    let ew := ewN s
    loadStrip ew (fun i t => loadClass d.toNat k.toNat ew i (fun t =>
      match unitBit s a b ew i with
      | none => .trap cAlign (xr s a).toNat none 0
      | some p => loadBitsEl c.toNat p ew (setElemV d.toNat ew i) t) t) s))

/-- VLDS (R103, R104). -/
def execVlds (d a b : BitVec 5) (k : BitVec 3) (c : BitVec 4) (s : State) : Host.Outcome State Fault Refusal :=
  .next (run (loadNeed s (encode (.vlds d a b k c)) d.toNat k.toNat [a.toNat, b.toNat] [] (wideFmt s) true) s (fun s =>
    let ew := ewN s
    loadStrip ew (fun i t => loadClass d.toNat k.toNat ew i
      (loadEl c.toNat (ew / 8) (strideAddr s a b i) (ew / 8) (setElemV d.toNat ew i)) t) s))

/-- VLDX (R103, R104). -/
def execVldx (d a b : BitVec 5) (k : BitVec 3) (c : BitVec 4) (s : State) : Host.Outcome State Fault Refusal :=
  .next (run (loadNeed s (encode (.vldx d a b k c)) d.toNat k.toNat [a.toNat] [(b.toNat, grpN s)] (wideFmt s) true) s (fun s =>
    let ew := ewN s
    loadStrip ew (fun i t => loadClass d.toNat k.toNat ew i
      (loadEl c.toNat (ew / 8) (indexAddr s a b ew i) (ew / 8) (setElemV d.toNat ew i)) t) s))

/-- VST (R103 to R105). -/
def execVst (d a b : BitVec 5) (k : BitVec 3) (c : BitVec 4) (s : State) : Host.Outcome State Fault Refusal :=
  .next (run (storeNeed s (encode (.vst d a b k c)) d.toNat k.toNat [a.toNat, b.toNat] [] true true) s (fun s =>
    let ew := ewN s
    storeStrip ew (fun i t => storeClass k.toNat i (fun t =>
      match unitBit s a b ew i with
      | none => .trap cAlign (xr s a).toNat none 0
      | some p => storeBitsEl c.toNat p ew (elemV s d.toNat ew i) t) t) s))

/-- VSTS (R103 to R105). -/
def execVsts (d a b : BitVec 5) (k : BitVec 3) (c : BitVec 4) (s : State) : Host.Outcome State Fault Refusal :=
  .next (run (storeNeed s (encode (.vsts d a b k c)) d.toNat k.toNat [a.toNat, b.toNat] [] (wideFmt s) true) s (fun s =>
    let ew := ewN s
    storeStrip ew (fun i t => storeClass k.toNat i
      (storeEl c.toNat (ew / 8) (strideAddr s a b i) (ew / 8) (2 ^ ew - 1) (elemV s d.toNat ew i)) t) s))

/-- VSTX (R103 to R105). -/
def execVstx (d a b : BitVec 5) (k : BitVec 3) (c : BitVec 4) (s : State) : Host.Outcome State Fault Refusal :=
  .next (run (storeNeed s (encode (.vstx d a b k c)) d.toNat k.toNat [a.toNat] [(b.toNat, grpN s)] (wideFmt s) true) s (fun s =>
    let ew := ewN s
    storeStrip ew (fun i t => storeClass k.toNat i
      (storeEl c.toNat (ew / 8) (indexAddr s a b ew i) (ew / 8) (2 ^ ew - 1) (elemV s d.toNat ew i)) t) s))

/-! ## Blocks (R106, R107, R363) -/

/-- The lowest active element at or above VSTART of the block that holds element i. -/
def blockFirst (s : State) (km blk i : Nat) : Nat :=
  ((upFrom (i / blk * blk) blk).find? (fun j => vsN s ≤ j && activeAt s km j)).getD i

/-- The location of a byte is poisoned, as a thread's plain load of it would find. -/
def bytePoisoned (s : State) (cls va : Nat) : Bool :=
  if s.dev.poison.isEmpty then false else
  match xlateThr s false va with
  | .ok l => (poisonAt s (cls != 15) [l]).isSome
  | .error _ => false

/-- The first poisoned byte a block's load would touch: among its active elements' bytes, then its scale byte (R363). -/
def blockPoison (s : State) (km blk i cls : Nat) (bitOf : Nat → Int) (scaleVa : Nat) : Option Nat :=
  if s.dev.poison.isEmpty then none else
  let es := (upFrom (i / blk * blk) blk).filter (fun j => vsN s ≤ j && activeAt s km j)
  let bytes := es.flatMap (fun j => let b := bitSpan (bitOf j) (ewN s); upFrom b.1 b.2.1)
  (bytes ++ [scaleVa]).find? (bytePoisoned s cls)

/-- The checks of an element of ew bits at a bit address. -/
def checkBits (s : State) (store : Bool) (bitAddr : Int) (ew : Nat) : Chk :=
  let b := bitSpan bitAddr ew
  if 8 ≤ ew && b.2.2 != 0 then .trap cAlign b.1 0 else checkAccess s store (if ew < 8 then 1 else ew / 8) b.1 b.2.1

/-- What the two accesses of one element raise, an element's and a scale byte's: a watchpoint gives way to a cause of R91 (R317). -/
def firstTrap (a b : Chk) : Option (Nat × Nat × Nat) :=
  match a, b with
  | .trap 0x19 v h, .trap c w g => some (if c = 0x19 then (0x19, v, h) else (c, w, g))
  | .trap c v h, _ => some (c, v, h)
  | .ok _, .trap c w g => some (c, w, g)
  | .ok _, .ok _ => none

/-- A block-formatted element loaded: at the first active element of its block the block's scale byte is loaded into the companion
too. With `whole` a poisoned block stops there with nothing of it written (R363). -/
def loadBlockEl (s0 : State) (whole : Bool) (d km blk cls i : Nat) (bitOf : Nat → Int) (scaleOf : Nat → Nat) (s : State) : El :=
  let ew := ewN s0
  if blockFirst s0 km blk i = i then
    match firstTrap (checkBits s false (bitOf i) ew) (checkAccess s false 1 (scaleOf (i / blk)) 1) with
    | some (c, v, h) => .trap c v none h
    | none =>
      if loadWaits s cls then .wait none
      else match if whole then blockPoison s0 km blk i cls bitOf (scaleOf (i / blk)) else none with
        | some a => .trap cLoss a none 0
        | none =>
          match loadBitsEl cls (bitOf i) ew (setElemV d ew i) s with
          | .ok t => loadEl cls 1 (scaleOf (i / blk)) 1 (setElemV (companion s0 d) 8 (i / blk)) t
          | e => e
  else loadBitsEl cls (bitOf i) ew (setElemV d ew i) s

/-- A block-formatted element stored, and at the first active element of its block the block's scale byte. -/
def storeBlockEl (s0 : State) (d km blk cls i : Nat) (bitOf : Nat → Int) (scaleOf : Nat → Nat) (s : State) : El :=
  let ew := ewN s0
  let first := blockFirst s0 km blk i = i
  match if first then firstTrap (checkBits s true (bitOf i) ew) (checkAccess s true 1 (scaleOf (i / blk)) 1) else none with
  | some (c, v, h) => .trap c v none h
  | none =>
    match storeBitsEl cls (bitOf i) ew (elemV s0 d ew i) s with
    | .ok t => if first then storeEl cls 1 (scaleOf (i / blk)) 1 0xFF (elemV s0 (companion s0 d) 8 (i / blk)) t else .ok t
    | e => e

/-- VLDMX (R106, R107). -/
def execVldmx (d a b : BitVec 5) (k : BitVec 3) (c : BitVec 4) (s : State) : Host.Outcome State Fault Refusal :=
  let n := { loadNeed s (encode (.vldmx d a b k c)) d.toNat k.toNat [a.toNat, b.toNat] [] (vtBlk s.thr.sr.vtype != 0) (companionOk s d.toNat) with
    comp := some (companion s d.toNat) }
  .next (run n s (fun s =>
    let ew := ewN s
    let blk := vtBlk s.thr.sr.vtype
    loadStrip ew (fun i t => loadClass d.toNat k.toNat ew i
      (loadBlockEl s true d.toNat k.toNat blk c.toNat i (fun j => 8 * ((xr s a).toNat : Int) + j * ew) (fun j => wrap ((xr s b).toNat + j))) t) s))

/-- VSTMX (R106, R107). -/
def execVstmx (d a b : BitVec 5) (k : BitVec 3) (c : BitVec 4) (s : State) : Host.Outcome State Fault Refusal :=
  let n := { storeNeed s (encode (.vstmx d a b k c)) d.toNat k.toNat [a.toNat, b.toNat]
      (if companionOk s d.toNat then [(companion s d.toNat, 1)] else []) (vtBlk s.thr.sr.vtype != 0) (companionOk s d.toNat) with
    comp := some (companion s d.toNat) }
  .next (run n s (fun s =>
    let ew := ewN s
    let blk := vtBlk s.thr.sr.vtype
    storeStrip ew (fun i t => storeClass k.toNat i
      (storeBlockEl s d.toNat k.toNat blk c.toNat i (fun j => 8 * ((xr s a).toNat : Int) + j * ew) (fun j => wrap ((xr s b).toNat + j))) t)
      s))

/-! ## Streams (R110) -/

/-- The VTYPE rule of R110: the stream's format and blocks are those in force. -/
def streamFmtOk (s : State) (st : Stream) : Bool := dFmt st.desc.toNat = fmtN s && dBlk st.desc.toNat = vtBlk s.thr.sr.vtype

/-- The register number of a stream field. -/
def streamNum (f : BitVec 3) : Nat := f.toNat

/-- The scale byte of stream element t's block (R108). -/
def dScale (d t : Nat) : Nat := wrap (dBase d + dSoff d + t / dBlk d)

/-- Stream elements of one strip: index i is one of the strip's elements (R110). -/
def inStream (s : State) (st : Stream) (i : Nat) : Bool := i < vvN s && decide (st.t + i < dCount st.desc.toNat)

/-- The iterator after a strip (R110). -/
def stepStream (n : Nat) (s : State) : State :=
  let st := streamOf s n
  setStream n { st with t := min (st.t + vvN s) (dCount st.desc.toNat) } s

/-- The thread runs a kernel that the driver has translated from a portable body (R191). -/
def isTranslated (s : State) : Bool := match launchOf s with | some l => l.translated | none => false

/-- The end of a stream word: the iterator advances on completion only. In a grafted chain and in a translated kernel a trap's TVAL2
is the flattened iterator (R192, R295). -/
def finishStream (n : Nat) (before : State) (r : Swept) : Res :=
  match r with
  | .all t => .done (stepStream n { t with thr.sr.vstart := 0 })
  | .wait q _ => .wait (askFor q before)
  | .stop i c v v2 h t =>
    let idx := if before.slot.chain.isSome || isTranslated before then (streamOf before n).t + i else i
    .trap c (w64 v) (w64 (v2.getD idx)) (setHits h { t with thr.sr.vstart := w64 i })

/-! ### Bound streams (R290, R291) -/

/-- The chain of the slot in focus. -/
def chainOf (s : State) : Option (Nat × Chain) :=
  match s.slot.chain with
  | none => none
  | some c => (SMap.find s.dev.chains c).map (fun ch => (c, ch))

/-- The binding that a stream register is bound to, with its number: `place` as the producer's OUT stream, otherwise as the consumer's IN
stream. A kernel in the middle of a chain may have one register bound both ways. -/
def bindOf (s : State) (place : Bool) (st : Stream) : Option (Nat × Binding) :=
  if !bit st.bound (if place then 0 else 1) then none else
  match chainOf s with
  | none => none
  | some (_, ch) =>
    let i := if place then s.cur.2 else s.cur.2 - 1
    (ch.binds[i]?).map (fun b => (i, b))

/-- A binding of the chain in focus changed. -/
def setBind (i : Nat) (b : Binding) (s : State) : State :=
  match chainOf s with
  | none => s
  | some (c, ch) => { s with dev.chains := SMap.put s.dev.chains c { ch with binds := ch.binds.set i b } }

/-- The place of stream element t in T: its bit offset from BASE (R288). -/
def tPlace (d t : Nat) : Nat := (dBit d t - 8 * (dBase d : Int)).toNat

/-- The producer places one element (R290): its code, or for a masked-off one what memory holds, a read that no byte counter counts
(R291). The element waits while no position is free. -/
def placeEl (cls km i d : Nat) (st : Stream) (bi : Nat) (s0 s : State) : El :=
  match bindOf s true st with
  | none => .ok s
  | some (_, b) =>
    let ds := st.desc.toNat
    let ew := ewN s0
    if !inStream s0 st i then .ok s
    else if st.t + i < b.next then .ok s
    else if b.cap ≤ b.items.length then .wait none
    else
      let put := fun code t => match bindOf t true st with
        | none => t
        | some (_, b) => setBind bi { b with items := SMap.put b.items (tPlace ds (st.t + i)) (code, t.thr.sr.taskid), next := st.t + i + 1 } t
      if maskBit s0 km i then
        let code := elemV s0 d ew i
        if b.elided then .ok (put code s)
        else match storeBitsEl cls (dBit ds (st.t + i)) ew code s with
          | .ok t => .ok (put code t)
          | e => e
      else match loadBitsEl cls (dBit ds (st.t + i)) ew put s with
        | .ok t => .ok { t with dev.acnt := s.dev.acnt }
        | e => e

/-- The event of R361, which is no cause of a trap: the bound word met an element whose storage is damaged. -/
abbrev cBinding : Nat := 0x100

/-- The consumer takes one element (R290): written when active, dropped when masked off. -/
def takeEl (km i d : Nat) (st : Stream) (bi : Nat) (s0 s : State) : El :=
  match bindOf s false st with
  | none => .ok s
  | some (_, b) =>
    let ds := st.desc.toNat
    let ew := ewN s0
    if !inStream s0 st i then .ok (setElemV d ew i 0 s)
    else if st.t + i < b.taken then .ok s
    else if b.hurt.contains (tPlace ds (st.t + i)) then .trap cBinding 0 none 0
    else match SMap.find b.items (tPlace ds (st.t + i)) with
      | none => .wait none
      | some code =>
        let t := setBind bi { b with items := SMap.erase b.items (tPlace ds (st.t + i)), taken := st.t + i + 1 } s
        .ok (if maskBit s0 km i then setElemV d ew i code.1 t else t)

/-- The end of a bound word: what has been placed or taken stays while it waits, and damage in the binding ungrafts with no change by
the word (R361). -/
def finishBound (n : Nat) (before : State) (r : Swept) : Res :=
  match r with
  | .wait q t => .wait (askFor q t)
  | .stop i c v v2 h t => if c = cBinding then .final (ungraft none before) else finishStream n before (.stop i c v v2 h t)
  | r => finishStream n before r

/-- How far a bound word has come in its binding. -/
def boundAt (place : Bool) (st : Stream) (s : State) : Nat :=
  match bindOf s place st with | some (_, b) => if place then b.next else b.taken | none => 0

/-- A bound word's sweep. It starts, and is charged, in the turn in which its first element moves or it ends (R233). -/
def boundWord (n : Nat) (place : Bool) (f : Nat → State → El) (s : State) : Res :=
  let st := streamOf s n
  let was := boundAt place st s
  let r := sweep f (vlN s - vsN s) (vsN s) s
  let starts := was ≤ st.t + vsN s && (match r with | .wait _ t => boundAt place st t != was | _ => true)
  let charge := fun t => if starts then chargeWord (ewN s) t else t
  finishBound n s (match r with
    | .all t => .all (charge t)
    | .wait q t => .wait q (charge t)
    | .stop i c v v2 h t => .stop i c v v2 h (charge t))

/-- VSLD (R110, R290). -/
def execVsld (d : BitVec 5) (sf : BitVec 3) (k : BitVec 3) (c : BitVec 4) (s : State) : Host.Outcome State Fault Refusal :=
  let st := streamOf s (streamNum sf)
  let blk := vtBlk s.thr.sr.vtype
  let n := { loadNeed s (encode (.vsld d sf k c)) d.toNat k.toNat [] [] (!st.loaded || streamFmtOk s st)
      (st.loaded && bit (dFlags st.desc.toNat) 0 && (blk = 0 || companionOk s d.toNat)) with
    roleOk := mayLoad s true
    st := [streamNum sf]
    comp := if blk = 0 then none else some (companion s d.toNat) }
  .next (run n s (fun s =>
    let ew := ewN s
    let ds := st.desc.toNat
    match bindOf s false st with
    | some (bi, _) => boundWord (streamNum sf) false (fun i t => takeEl k.toNat i d.toNat st bi s t) s
    | none =>
      loadEnd <| finishStream (streamNum sf) s (sweep (fun i t =>
        if inStream s st i then
          (if !maskBit s k.toNat i then .ok t
           else if blk = 0 then loadBitsEl c.toNat (dBit ds (st.t + i)) ew (setElemV d.toNat ew i) t
           else loadBlockEl s false d.toNat k.toNat blk c.toNat i (fun j => dBit ds (st.t + j)) (fun j => dScale ds (st.t + j * blk)) t)
        else .ok (setElemV d.toNat ew i 0 t)) (vlN s - vsN s) (vsN s) (chargeWord ew s))))

/-- VSST (R110, R290, R291). -/
def execVsst (d : BitVec 5) (sf : BitVec 3) (k : BitVec 3) (c : BitVec 4) (s : State) : Host.Outcome State Fault Refusal :=
  let st := streamOf s (streamNum sf)
  let blk := vtBlk s.thr.sr.vtype
  let n := { storeNeed s (encode (.vsst d sf k c)) d.toNat k.toNat [] (if blk != 0 && companionOk s d.toNat then [(companion s d.toNat, 1)] else [])
      (!st.loaded || streamFmtOk s st) (st.loaded && bit (dFlags st.desc.toNat) 1 && (blk = 0 || companionOk s d.toNat)) with
    roleOk := mayStore s true
    st := [streamNum sf]
    comp := if blk = 0 then none else some (companion s d.toNat) }
  .next (run n s (fun s =>
    let ew := ewN s
    let ds := st.desc.toNat
    storeEnd (match bindOf s true st with
    | some (bi, _) => loadEnd <| boundWord (streamNum sf) true (fun i t => placeEl c.toNat k.toNat i d.toNat st bi s t) (newSer s)
    | none =>
      finishStream (streamNum sf) s (sweep (fun i t =>
        if inStream s st i && maskBit s k.toNat i then
          (if blk = 0 then storeBitsEl c.toNat (dBit ds (st.t + i)) ew (elemV s d.toNat ew i) t
           else storeBlockEl s d.toNat k.toNat blk c.toNat i (fun j => dBit ds (st.t + j)) (fun j => dScale ds (st.t + j * blk)) t)
        else .ok t) (vlN s - vsN s) (vsN s) (chargeWord ew (newSer s))))))

/-! ## Combining scatter-add (R112, R261) -/

/-- One element of a scatter-add that passed its checks. -/
structure Scat where
  va : Nat
  locs : List Loc
  code : Nat

/-- The active elements from i on that pass the checks, and the first that traps. -/
def scatScan (s : State) (d a b : BitVec 5) (km ew : Nat) : Nat → Nat → List Scat × Option (Nat × Nat × Nat × Nat)
  | 0, _ => ([], none)
  | n + 1, i =>
    if activeAt s km i then
      match checkAccess s true (ew / 8) (indexAddr s a b ew i) (ew / 8) with
      | .trap c v h => ([], some (i, c, v, h))
      | .ok locs =>
        let r := scatScan s d a b km ew n (i + 1)
        (⟨indexAddr s a b ew i, locs, elemV s d.toNat ew i⟩ :: r.1, r.2)
    else scatScan s d a b km ew n (i + 1)

/-- The update of another device. -/
def Scat.far (e : Scat) : Bool := e.locs.any (fun l => l.kind = .remote)

/-- Each distinct address receives one atomic update with the sum of its elements in ascending order: at a local home now, at another
device's home when its request is acknowledged (R112, R261, R377, R378). -/
def scatApply (fmt cls : Nat) : Nat → List Scat → State → State
  | 0, _, s => s
  | _, [], s => s
  | n + 1, e :: r, s =>
    let sum := (r.filter (fun x => x.va = e.va)).foldl (fun acc x => scatAdd fmt acc x.code) e.code
    scatApply fmt cls n (r.filter (fun x => x.va ≠ e.va))
      (if e.far then pushElem cls e.va fmt (wholeBytes (e.locs.map (·.key)) (leBytes e.locs.length sum)) s
       else (atomicAt e.locs 2 (fun old => some (scatAdd fmt old sum)) s).2)

/-- The formats a scatter-add accepts (R102). -/
def scatFmt (f : Nat) : Bool := 5 ≤ f && f ≤ 10

/-- A scatter-add. Its scope is wider than core, as all three are. Updates of other devices are on their way when the word retires, as
stores are; one whose device cannot be reached any more is never applied (R382). -/
def scatterAdd (w : BitVec 32) (d a b : BitVec 5) (k : BitVec 3) (c : BitVec 4) (s : State) : State :=
  let n := storeNeed s w d.toNat k.toNat [a.toNat] [(b.toNat, grpN s)] (scatFmt (fmtN s)) true
  run n s (fun s =>
    let r := scatScan s d a b k.toNat (ewN s) (vlN s - vsN s) (vsN s)
    let here := r.1.filter (fun e => !e.far)
    if (!here.isEmpty && atomicWaits s c.toNat) || here.any (fun e => overlapsPending s (e.locs.map (·.key))) then .wait s
    else
      let t := syncAcquire c.toNat true (scatApply (fmtN s) c.toNat (vlN s) r.1 (chargeWord (ewN s) (newSer s)))
      match r.2 with
      | some (i, cause, v, h) => .trap cause (w64 v) (w64 i) (setHits h { t with thr.sr.vstart := w64 i })
      | none => .done { t with thr.sr.vstart := 0 })

/-- VSCATADD.DEV (R112). -/
def execVscataddDev (d a b : BitVec 5) (k : BitVec 3) (c : BitVec 4) (s : State) : Host.Outcome State Fault Refusal :=
  .next (scatterAdd (encode (.vscataddDev d a b k c)) d a b k c s)

/-- VSCATADD.HOST (R112). -/
def execVscataddHost (d a b : BitVec 5) (k : BitVec 3) (c : BitVec 4) (s : State) : Host.Outcome State Fault Refusal :=
  .next (scatterAdd (encode (.vscataddHost d a b k c)) d a b k c s)

/-- VSCATADD.SYS (R112). -/
def execVscataddSys (d a b : BitVec 5) (k : BitVec 3) (c : BitVec 4) (s : State) : Host.Outcome State Fault Refusal :=
  .next (scatterAdd (encode (.vscataddSys d a b k c)) d a b k c s)

end Sys2Proof.Machine
end

