-- ==== Sys2Proof/Machine/Moment.lean ====
section
/-! DEFINITION. Moment registers: the words of major 0x39 (R147 to R162). Codes are FP32 codes; a step is a code with the flags
raised so far. -/

namespace Sys2Proof.Machine

/-! ## Steps (R153) -/

/-- A code with the flags of the steps that made it. -/
abbrev Step32 := Nat × Nat

/-- NVAR. -/
abbrev mNVAR : Nat := 1
/-- RHOC. -/
abbrev mRHOC : Nat := 2
/-- MNAN. -/
abbrev mMNAN : Nat := 4

/-- The canonical NaN of FP32. -/
def nan32 : Nat := 0x7FC00000

/-- A code is a NaN. -/
def isNan32 (c : Nat) : Bool := (fval (ffmt 9) c).isNan

/-- A code is a zero as FTZ reads it. -/
def isZero32 (ftz : Bool) (c : Nat) : Bool := (foperand 9 ftz c).isZero

/-- A code read under FTZ (R45). -/
def flush32 (ftz : Bool) (c : Nat) : Nat := if ftz && bits c 23 8 = 0 then c / 2 ^ 31 * 2 ^ 31 else c

/-- A step of two operands: rounded by RNE, its flags added to those of its operands. -/
def step2 (op : FV → FV → FV × Nat) (ftz : Bool) (a b : Step32) : Step32 :=
  let r := op (foperand 9 ftz a.1) (foperand 9 ftz b.1)
  let c := roundTo 9 .rne false ftz r.1
  (c.1, a.2 ||| b.2 ||| r.2 ||| c.2)

/-- The product of R153: zero times infinity is a zero, without a flag. -/
def mulZ (a b : FV) : FV × Nat :=
  if (a.isZero && b.isInf) || (a.isInf && b.isZero) then (fvZero (a.neg != b.neg), 0) else fvMul a b

/-- ⊕ -/
def addS (ftz : Bool) : Step32 → Step32 → Step32 := step2 (fvAdd .rne) ftz
/-- ⊖ -/
def subS (ftz : Bool) : Step32 → Step32 → Step32 := step2 (fun a b => fvAdd .rne a b.negate) ftz
/-- ⊗ -/
def mulS (ftz : Bool) : Step32 → Step32 → Step32 := step2 mulZ ftz
/-- ÷ -/
def divS32 (ftz : Bool) : Step32 → Step32 → Step32 := step2 fvDiv ftz

/-- σ: the rounded square root. -/
def sigma (ftz : Bool) (v : Step32) : Step32 :=
  let r := fvSqrt (foperand 9 ftz v.1)
  let c := roundTo 9 .rne false ftz r.1
  (c.1, v.2 ||| r.2 ||| c.2)

/-- A transcendental step. -/
def transS (f : TFun) (ftz : Bool) (x : Step32) : Step32 := let r := transcend f 9 ftz x.1; (r.1, x.2 ||| r.2)

/-- A constant. -/
def constS (c : Nat) : Step32 := (c, 0)
/-- 1. -/
def oneS : Step32 := constS 0x3F800000
/-- 2. -/
def twoS : Step32 := constS 0x40000000
/-- 4. -/
def fourS : Step32 := constS 0x40800000
/-- 0.5. -/
def halfS : Step32 := constS 0x3F000000

/-! ## Results (R153, R154) -/

/-- The result of a rule at one element: the pair, FPFLAGS and MFLAGS bits, and the negative variance it traps with. -/
structure MoOut where
  mu : Nat
  v : Nat
  fl : Nat
  mfl : Nat
  neg : Option Nat
deriving DecidableEq, Repr

/-- The canonical NaN pair. -/
def nanPair (fl mfl : Nat) : MoOut := ⟨nan32, nan32, fl, mfl, none⟩

/-- A variance code below zero (R154). -/
def isNegative (v : Nat) : Bool := v / 2 ^ 31 = 1 && v % 2 ^ 31 != 0 && !isNan32 v

/-- The variance as kept: -0 is +0. -/
def plusZero (v : Nat) : Nat := if v = 2 ^ 31 then 0 else v

/-- A computed pair by R153 and R154; `fault` is NEG = FAULT. -/
def settlePair (fault : Bool) (mu v : Step32) : MoOut :=
  let fl := mu.2 ||| v.2
  if isNan32 mu.1 || isNan32 v.1 then nanPair fl mMNAN
  else if isNegative v.1 then (if fault then ⟨mu.1, v.1, fl, 0, some v.1⟩ else ⟨mu.1, 0, fl, mNVAR, none⟩)
  else ⟨mu.1, plusZero v.1, fl, 0, none⟩

/-- A pair that is NaN in either part. -/
def pairNan (p : Nat × Nat) : Bool := isNan32 p.1 || isNan32 p.2

/-- The NV of signalling NaNs among codes. -/
def sig32 (l : List Nat) : Nat := sigNV (l.map (fval (ffmt 9)))

/-- MCTL.NEG as captured. -/
def negFault (s : State) : Bool := bit s.thr.sr.mctl.toNat 2

/-- ρ as captured, and whether it was clamped or replaced (R149, R150). -/
def rho (s : State) : Nat × Bool :=
  match bits s.thr.sr.mctl.toNat 0 2 with
  | 0 => (0, false)
  | 1 => (0x3F800000, false)
  | 2 => (0xBF800000, false)
  | _ =>
    let c := bits s.thr.sr.mrho.toNat 0 32
    if isNan32 c then (0, true)
    else if c = 2 ^ 31 then (0, true)
    else if ftzN s && c % 2 ^ 31 != 0 && bits c 23 8 = 0 then (0, true)
    else if fvCmp (fval (ffmt 9) c) fvOne = 1 then (0x3F800000, true)
    else if fvCmp (fval (ffmt 9) c) fvOne.negate = -1 then (0xBF800000, true)
    else (c, false)

/-! ## Linear rules (R155) -/

/-- ρσaσb. -/
def covTerm (ftz : Bool) (r : Nat) (va vb : Step32) : Step32 := mulS ftz (mulS ftz (constS r) (sigma ftz va)) (sigma ftz vb)

/-- `moadd` or, with `minus`, `mosub`. -/
def addRule (minus ftz fault : Bool) (r : Nat) (a b : Nat × Nat) : MoOut :=
  if pairNan a || pairNan b then nanPair (sig32 [a.1, a.2, b.1, b.2]) 0
  else
    let t := covTerm ftz r (constS a.2) (constS b.2)
    let op := if minus then subS ftz else addS ftz
    settlePair fault (op (constS a.1) (constS b.1)) (op (addS ftz (constS a.2) (constS b.2)) (mulS ftz twoS t))

/-- `momul`. -/
def mulRule (ftz fault : Bool) (r : Nat) (a b : Nat × Nat) : MoOut :=
  if pairNan a || pairNan b then nanPair (sig32 [a.1, a.2, b.1, b.2]) 0
  else
    let m := mulS ftz
    let ad := addS ftz
    let ma := constS a.1
    let va := constS a.2
    let mb := constS b.1
    let vb := constS b.2
    let t := covTerm ftz r va vb
    let mu := ad (m ma mb) t
    let v := ad (ad (ad (m (m ma ma) vb) (m (m mb mb) va)) (m (m va vb) (ad oneS (m (constS r) (constS r))))) (m (m (m twoS t) ma) mb)
    settlePair fault mu v

/-- `mofma`: the product, and unless it decided the element, its sum with D. -/
def fmaRule (ftz fault : Bool) (r : Nat) (a b d : Nat × Nat) : MoOut :=
  if pairNan a || pairNan b || pairNan d then nanPair (sig32 [a.1, a.2, b.1, b.2, d.1, d.2]) 0
  else
    let p := mulRule ftz fault r a b
    if p.neg.isSome || isNan32 p.mu then p
    else
      let q := addRule false ftz fault r d (p.mu, p.v)
      { q with fl := p.fl ||| q.fl, mfl := p.mfl ||| q.mfl }

/-- `mosc` and `mosc.x`. -/
def scaleRule (ftz fault : Bool) (c : Nat) (a : Nat × Nat) : MoOut :=
  if pairNan a || isNan32 c then nanPair (sig32 [a.1, a.2, c]) 0
  else settlePair fault (mulS ftz (constS c) (constS a.1)) (mulS ftz (mulS ftz (constS c) (constS c)) (constS a.2))

/-! ## Non-linear rules (R156 to R158) -/

/-- E(v) for the variance rule of `moexp`: at least 1, as the function is at v ≥ 0, so that no negative variance arises from it (R154).
(DEDUCED, log 88) -/
def expOver (ftz : Bool) (v : Step32) : Step32 :=
  let r := transS .exp ftz v
  if v.1 < 2 ^ 31 && r.1 < 0x3F800000 then (0x3F800000, r.2) else r

/-- `moexp`. -/
def expRule (ftz fault : Bool) (a : Nat × Nat) : MoOut :=
  if pairNan a then nanPair (sig32 [a.1, a.2]) 0
  else
    let mu := constS a.1
    let v := constS a.2
    let e := transS .exp ftz
    settlePair fault (e (addS ftz mu (mulS ftz halfS v)))
      (mulS ftz (subS ftz (expOver ftz v) oneS) (e (addS ftz (mulS ftz twoS mu) v)))

/-- `morelu`. -/
def reluRule (ftz fault : Bool) (a : Nat × Nat) : MoOut :=
  if pairNan a then nanPair (sig32 [a.1, a.2]) 0
  else
    let mu := flush32 ftz a.1
    let v := flush32 ftz a.2
    let m := fval (ffmt 9) mu
    let positive := !m.neg && !m.isZero
    let vInf := (fval (ffmt 9) v).isInf
    if m.isInf && m.neg then (if vInf then nanPair fNV mMNAN else ⟨0, 0, 0, 0, none⟩)
    else if m.isInf then ⟨mu, v, 0, 0, none⟩
    else if vInf then ⟨v, v, 0, 0, none⟩
    else if isZero32 ftz v then (if positive then ⟨mu, 0, 0, 0, none⟩ else ⟨0, 0, 0, 0, none⟩)
    else
      let mul := mulS ftz
      let add := addS ftz
      let s := sigma ftz (constS v)
      let al := divS32 ftz (constS mu) s
      let pp := transS .cdf ftz al
      let p := transS .pdf ftz al
      let mu' := add (mul (constS mu) pp) (mul s p)
      let v' := subS ftz (add (mul (add (mul (constS mu) (constS mu)) (constS v)) pp) (mul (mul (constS mu) s) p)) (mul mu' mu')
      settlePair fault mu' v'

/-- 1/√q correctly rounded, for q at least 1 (R158). -/
def rsqrtRound (ftz : Bool) (q : Step32) : Step32 :=
  match fval (ffmt 9) q.1 with
  | .inf _ => (0, q.2)
  | .nan _ => (nan32, q.2)
  | .fin _ m e _ =>
    let k : Nat := if e % 2 = 0 then 0 else 1
    let w := m * 2 ^ k
    let p := bitLen w + 60
    let r := isqrt (2 ^ (2 * p) / w)
    let c := roundTo 9 .rne false ftz (.fin false r (-(e - k) / 2 - p) (r * r * w != 2 ^ (2 * p)))
    (c.1, q.2 ||| c.2)

/-- μ' and v' of `mosig` before R154. -/
def sigSteps (ftz : Bool) (mu v : Step32) : Step32 × Step32 :=
  let q := addS ftz oneS (mulS ftz (constS 0x3EC90FDB) v)
  let kappa := rsqrtRound ftz q
  let mu' := transS .sig ftz (mulS ftz kappa mu)
  (mu', mulS ftz (mulS ftz mu' (subS ftz oneS mu')) (subS ftz oneS kappa))

/-- `mosig`. -/
def sigRule (ftz fault : Bool) (a : Nat × Nat) : MoOut :=
  if pairNan a then nanPair (sig32 [a.1, a.2]) 0
  else let r := sigSteps ftz (constS a.1) (constS a.2); settlePair fault r.1 r.2

/-- `motanh`. -/
def tanhRule (ftz fault : Bool) (a : Nat × Nat) : MoOut :=
  if pairNan a then nanPair (sig32 [a.1, a.2]) 0
  else
    let r := sigSteps ftz (mulS ftz twoS (constS a.1)) (mulS ftz fourS (constS a.2))
    settlePair fault (subS ftz (mulS ftz twoS r.1) oneS) (mulS ftz fourS r.2)

/-! ## In and out (R159 to R162) -/

/-- A pair brought in: the NaN rule, -0 to +0, and R154. -/
def intoPair (fault : Bool) (mu v : Nat) : MoOut :=
  if isNan32 mu || isNan32 v then nanPair (sig32 [mu, v]) 0 else settlePair fault (constS mu) (constS v)

/-- μ ± k ⊗ σ(v), rounded once after σ (R160). A zero product is added as R42 adds zeros, so -0 with a +0 product is +0. (DEDUCED,
log 88) -/
def spread (ftz minus : Bool) (a : Nat × Nat) (k : Nat) : Nat × Nat :=
  if pairNan a || isNan32 k then (nan32, sig32 [a.1, a.2, k])
  else
    let s := sigma ftz (constS a.2)
    let prod := (mulZ (foperand 9 ftz k) (foperand 9 ftz s.1)).1
    let r := fvAdd .rne (foperand 9 ftz a.1) (if minus then prod.negate else prod)
    let c := roundTo 9 .rne false ftz r.1
    (c.1, s.2 ||| r.2 ||| c.2)

/-! ## Words -/

/-- Major 0x39 accepts FP32 without blocks (R148). -/
def moFmt (s : State) : Bool := fmtN s = 9 && noBlk s

/-- In TRIO a vector group of the major that reaches v28 traps (R148). -/
def moPorts (s : State) (n : Need) : Bool := !isTrio s || (n.vr ++ n.vw).all (fun g => g.1 + g.2 ≤ 28)

/-- A moment group. -/
def mgrp (s : State) (r : BitVec 3) : Nat × Nat := (r.toNat, grpN s)

/-- One element's result: FP_EXCEPTION first, then NEG_VARIANCE, else flags merged and the pair put (R153, R154). -/
def moEl (r : MoOut) (put : State → State) (s : State) : El :=
  if enabledFlags s r.fl != 0 then .trap 0x10 (enabledFlags s r.fl) (some 0) 0
  else match r.neg with
    | some v => .trap 0x12 v none 0
    | none => .ok (put (mergeMflags r.mfl (mergeFlags r.fl s)))

/-- A moment word over pairs: `f` gives element i's result from the state the word started in. (DEDUCED, log 21) -/
def momentWord (n : Need) (d : BitVec 3) (k : BitVec 3) (f : State → Nat → MoOut) (s : State) : State :=
  run { n with vt := true, fmtOk := moFmt s, regOk := moPorts s n, kr := kmRead k, km := k.toNat, queued := true, mw := [mgrp s d] } s (fun s =>
    stripWord 64 (fun i t =>
      if activeAt s k.toNat i then let r := f s i; moEl r (setPairM d.toNat i (r.mu, r.v)) t else .ok t) s)

/-- Pair i of a moment field. -/
def pairAt (s : State) (r : BitVec 3) (i : Nat) : Nat × Nat := pairM s r.toNat i

/-- A result with RHOC added where ρ was clamped or replaced. -/
def withRho (s : State) (r : MoOut) : MoOut := if (rho s).2 then { r with mfl := r.mfl ||| mRHOC } else r

/-- MOADD (R155). -/
def execMoadd (d a b : BitVec 3) (k : BitVec 3) (h : BitVec 2) (s : State) : Host.Outcome State Fault Refusal :=
  .next (momentWord { word := encode (.moadd d a b k h), mr := [mgrp s a, mgrp s b] } d k
    (fun s i => withRho s (addRule false (ftzN s) (negFault s) (rho s).1 (pairAt s a i) (pairAt s b i))) s)

/-- MOSUB (R155). -/
def execMosub (d a b : BitVec 3) (k : BitVec 3) (h : BitVec 2) (s : State) : Host.Outcome State Fault Refusal :=
  .next (momentWord { word := encode (.mosub d a b k h), mr := [mgrp s a, mgrp s b] } d k
    (fun s i => withRho s (addRule true (ftzN s) (negFault s) (rho s).1 (pairAt s a i) (pairAt s b i))) s)

/-- MOMUL (R155). -/
def execMomul (d a b : BitVec 3) (k : BitVec 3) (h : BitVec 2) (s : State) : Host.Outcome State Fault Refusal :=
  .next (momentWord { word := encode (.momul d a b k h), mr := [mgrp s a, mgrp s b] } d k
    (fun s i => withRho s (mulRule (ftzN s) (negFault s) (rho s).1 (pairAt s a i) (pairAt s b i))) s)

/-- MOFMA (R155). -/
def execMofma (d a b : BitVec 3) (k : BitVec 3) (h : BitVec 2) (s : State) : Host.Outcome State Fault Refusal :=
  .next (momentWord { word := encode (.mofma d a b k h), mr := [mgrp s a, mgrp s b, mgrp s d] } d k
    (fun s i => withRho s (fmaRule (ftzN s) (negFault s) (rho s).1 (pairAt s a i) (pairAt s b i) (pairAt s d i))) s)

/-- MOSC (R155). -/
def execMosc (d a : BitVec 3) (b : BitVec 5) (k : BitVec 3) (h : BitVec 2) (s : State) : Host.Outcome State Fault Refusal :=
  .next (momentWord { word := encode (.mosc d a b k h), mr := [mgrp s a], vr := [grp s b] } d k
    (fun s i => scaleRule (ftzN s) (negFault s) (elemV s b.toNat 32 i) (pairAt s a i)) s)

/-- MOSC.X (R155). -/
def execMoscX (d a : BitVec 3) (b : BitVec 5) (k : BitVec 3) (h : BitVec 2) (s : State) : Host.Outcome State Fault Refusal :=
  .next (momentWord { word := encode (.moscX d a b k h), mr := [mgrp s a], xr := [b.toNat] } d k
    (fun s i => scaleRule (ftzN s) (negFault s) (xElem s b 32) (pairAt s a i)) s)

/-- MOEXP (R156). -/
def execMoexp (d a : BitVec 3) (k : BitVec 3) (h : BitVec 2) (s : State) : Host.Outcome State Fault Refusal :=
  .next (momentWord { word := encode (.moexp d a k h), mr := [mgrp s a] } d k
    (fun s i => expRule (ftzN s) (negFault s) (pairAt s a i)) s)

/-- MORELU (R157). -/
def execMorelu (d a : BitVec 3) (k : BitVec 3) (h : BitVec 2) (s : State) : Host.Outcome State Fault Refusal :=
  .next (momentWord { word := encode (.morelu d a k h), mr := [mgrp s a] } d k
    (fun s i => reluRule (ftzN s) (negFault s) (pairAt s a i)) s)

/-- MOSIG (R158). -/
def execMosig (d a : BitVec 3) (k : BitVec 3) (h : BitVec 2) (s : State) : Host.Outcome State Fault Refusal :=
  .next (momentWord { word := encode (.mosig d a k h), mr := [mgrp s a] } d k
    (fun s i => sigRule (ftzN s) (negFault s) (pairAt s a i)) s)

/-- MOTANH (R158). -/
def execMotanh (d a : BitVec 3) (k : BitVec 3) (h : BitVec 2) (s : State) : Host.Outcome State Fault Refusal :=
  .next (momentWord { word := encode (.motanh d a k h), mr := [mgrp s a] } d k
    (fun s i => tanhRule (ftzN s) (negFault s) (pairAt s a i)) s)

/-- MOFROM (R159): FTZ on its inputs. -/
def execMofrom (d : BitVec 3) (a b : BitVec 5) (k : BitVec 3) (h : BitVec 2) (s : State) : Host.Outcome State Fault Refusal :=
  .next (momentWord { word := encode (.mofrom d a b k h), vr := [grp s a, grp s b] } d k
    (fun s i => intoPair (negFault s) (flush32 (ftzN s) (elemV s a.toNat 32 i)) (flush32 (ftzN s) (elemV s b.toNat 32 i))) s)

/-- A word that collapses pairs into FP32 elements (R160). -/
def collapseWord (n : Need) (d : BitVec 5) (a k : BitVec 3) (f : State → Nat → Nat × Nat → Nat × Nat) (s : State) : State :=
  run { n with vt := true, fmtOk := moFmt s, regOk := n.regOk && moPorts s { n with vw := [grp s d] }, kr := kmRead k, km := k.toNat, queued := true, mr := [mgrp s a], vw := [grp s d] } s (fun s =>
    stripWord 64 (fun i t =>
      if activeAt s k.toNat i then let r := f s i (pairAt s a i); floatEl r.2 (setElemV d.toNat 32 i r.1) t else .ok t) s)

/-- MOCOL.MEAN (R160). -/
def execMocolMean (d : BitVec 5) (a k : BitVec 3) (h : BitVec 2) (s : State) : Host.Outcome State Fault Refusal :=
  .next (collapseWord { word := encode (.mocolMean d a k h) } d a k (fun _ _ p => (p.1, 0)) s)

/-- MOCOL.VAR (R160). -/
def execMocolVar (d : BitVec 5) (a k : BitVec 3) (h : BitVec 2) (s : State) : Host.Outcome State Fault Refusal :=
  .next (collapseWord { word := encode (.mocolVar d a k h) } d a k (fun _ _ p => (p.2, 0)) s)

/-- MOCOL.STD (R160). -/
def execMocolStd (d : BitVec 5) (a k : BitVec 3) (h : BitVec 2) (s : State) : Host.Outcome State Fault Refusal :=
  .next (collapseWord { word := encode (.mocolStd d a k h) } d a k
    (fun s _ p => if pairNan p then (nan32, sig32 [p.1, p.2]) else sigma (ftzN s) (constS p.2)) s)

/-- MOCOL.UPPER (R160). -/
def execMocolUpper (d : BitVec 5) (a : BitVec 3) (b : BitVec 5) (k : BitVec 3) (h : BitVec 2) (s : State) : Host.Outcome State Fault Refusal :=
  .next (collapseWord { word := encode (.mocolUpper d a b k h), xr := [b.toNat] } d a k (fun s _ p => spread (ftzN s) false p (xElem s b 32)) s)

/-- MOCOL.LOWER (R160). -/
def execMocolLower (d : BitVec 5) (a : BitVec 3) (b : BitVec 5) (k : BitVec 3) (h : BitVec 2) (s : State) : Host.Outcome State Fault Refusal :=
  .next (collapseWord { word := encode (.mocolLower d a b k h), xr := [b.toNat] } d a k (fun s _ p => spread (ftzN s) true p (xElem s b 32)) s)

/-- MOCOL.SAMPLE (R160): the group at B may overlap D only when B = D. -/
def execMocolSample (d : BitVec 5) (a : BitVec 3) (b : BitVec 5) (k : BitVec 3) (h : BitVec 2) (s : State) : Host.Outcome State Fault Refusal :=
  .next (collapseWord { word := encode (.mocolSample d a b k h), vr := [grp s b], regOk := b = d || !meets (grp s b) (grp s d) } d a k
    (fun s i p => spread (ftzN s) false p (elemV s b.toNat 32 i)) s)

/-- MOMV (R161): bit for bit. -/
def execMomv (d a : BitVec 3) (k : BitVec 3) (h : BitVec 2) (s : State) : Host.Outcome State Fault Refusal :=
  .next (momentWord { word := encode (.momv d a k h), mr := [mgrp s a] } d k
    (fun s i => ⟨(pairAt s a i).1, (pairAt s a i).2, 0, 0, none⟩) s)

/-- The address of pair i; a base that is no multiple of 8 has none (R162). -/
def pairAddr (s : State) (a : BitVec 5) (i : Nat) : Option Nat :=
  if (xr s a).toNat % 8 = 0 then some (wrap ((xr s a).toNat + 8 * i)) else none

/-- One pair loaded (R162). -/
def moldEl (s0 : State) (cls : Nat) (d : BitVec 3) (a : BitVec 5) (i : Nat) (s : State) : El :=
  match pairAddr s0 a i with
  | none => .trap cAlign (xr s0 a).toNat none 0
  | some va => match loadBytes s cls 8 va 8 with
    | .trap c v v2 h => .trap c v v2 h
    | .wait q => .wait q
    | .ok bs locs =>
      let w := leNat bs
      let r := intoPair (negFault s0) (bits w 0 32) (bits w 32 32)
      moEl r (setPairM d.toNat i (r.mu, r.v)) (countLoad cls locs s)

/-- MOLD (R162). -/
def execMold (d : BitVec 3) (a : BitVec 5) (c : BitVec 4) (k : BitVec 3) (h : BitVec 2) (s : State) : Host.Outcome State Fault Refusal :=
  .next (run { word := encode (.mold d a c k h), xr := [a.toNat], vt := true, fmtOk := moFmt s, mw := [mgrp s d], kr := kmRead k, km := k.toNat, queued := true } s (fun s =>
    loadStrip 64 (fun i t =>
      if i < vvN s then (if maskBit s k.toNat i then moldEl s c.toNat d a i t else .ok t) else .ok (setPairM d.toNat i (0, 0) t)) s))

/-- MOST (R162): bit for bit. -/
def execMost (d : BitVec 3) (a : BitVec 5) (c : BitVec 4) (k : BitVec 3) (h : BitVec 2) (s : State) : Host.Outcome State Fault Refusal :=
  .next (run { word := encode (.most d a c k h), xr := [a.toNat], vt := true, fmtOk := moFmt s, mr := [mgrp s d], kr := kmRead k, km := k.toNat, queued := true } s (fun s =>
    storeStrip 64 (fun i t => storeClass k.toNat i (fun t =>
      match pairAddr s a i with
      | none => .trap cAlign (xr s a).toNat none 0
      | some va =>
        let p := pairAt s d i
        storeEl c.toNat 8 va 8 (2 ^ 64 - 1) (p.1 + p.2 * 2 ^ 32) t) t) s))

end Sys2Proof.Machine
end

