-- ==== Sys2Proof/Machine/Barrier.lean ====
section
/-! DEFINITION. Stage barriers and the engine queues: the barrier object and its decision, the words of major 0x3C, entering a queue,
markers, an engine's reads and writes, and the end of an entry (R252, R257, R266 to R269, R278 to R283, R360). -/

namespace Sys2Proof.Machine

/-! ## The barrier object (R278, R279) -/

/-- A stage barrier (R278). -/
structure Bar where
  exp : BitVec 32
  pend : Nat
  init : Nat
  ph : Bool
  e : Bool
  m : Bool
  held : Nat
  eng : Nat
  cause : Nat
  origin : Nat
  seq : Nat
deriving DecidableEq, Repr

/-- A barrier from its 16 bytes. -/
def barOf (n : Nat) : Bar :=
  { exp := BitVec.ofNat 32 n, pend := bits n 32 16, init := bits n 48 16, ph := bit n 64, e := bit n 65, m := bit n 66,
    held := bits n 67 5, eng := bits n 72 8, cause := bits n 80 8, origin := bits n 88 16, seq := bits n 104 24 }

/-- 1 for true. -/
def bitNat (b : Bool) : Nat := if b then 1 else 0

/-- The 16 bytes of a barrier. -/
def barBytes (b : Bar) : List Byte :=
  leBytes 4 b.exp.toNat ++ leBytes 2 b.pend ++ leBytes 2 b.init ++ leBytes 1 (bitNat b.ph + 2 * bitNat b.e + 4 * bitNat b.m + 8 * b.held)
    ++ leBytes 1 b.eng ++ leBytes 1 b.cause ++ leBytes 2 b.origin ++ leBytes 3 b.seq

/-- An error: it sets E, and the error fields where E was 0 (R279). -/
def barErr (eng cause origin seq : Nat) (b : Bar) : Bar :=
  if b.e then b else { b with e := true, eng := eng, cause := cause, origin := origin % 2 ^ 16, seq := seq % 2 ^ 24 }

/-- An arrival (R281): held while PEND is 0, and discarded with OVERRUN when 31 are held. -/
def barArrive (b : Bar) : Bar :=
  if b.pend = 0 then (if b.held = 31 then barErr 0 0x45 0 0 b else { b with held := b.held + 1 }) else { b with pend := b.pend - 1 }

/-- Bytes expected or, negated, delivered (R269, R281). -/
def barExpect (n : BitVec 32) (b : Bar) : Bar := { b with exp := b.exp + n }

/-- A phase completed (R282). -/
def barComplete (b : Bar) : Bar :=
  let h := min b.held b.init
  { b with ph := !b.ph, exp := 0, pend := b.init - h, held := b.held - h }

/-- The decision of R282, repeated while a new phase completes at once; `out` is OUT of the barrier. At most 31 arrivals are held, so
32 rounds are enough. -/
def barDecide (out : Nat) : Nat → Bar → Bar
  | 0, b => b
  | n + 1, b =>
    if b.init = 0 ∨ b.pend ≠ 0 then b
    else if b.exp = 0 then barDecide out n (barComplete b)
    else if b.exp.toInt < 0 then barDecide out n (barComplete { barErr 0 0x41 0 0 b with m := true })
    else if out ≠ 0 then b
    else barDecide out n (barComplete { barErr 0 0x40 0 0 b with m := true })

/-- The location of a barrier of the slot in focus. -/
def barKey (s : State) (off : Nat) : Nat := scratchKey s.cur.1 off

/-- The barrier's bytes are damaged (R360). -/
def barHurt (s : State) (off : Nat) : Bool := poisoned s.dev (barKey s off) || poisoned s.dev (barKey s off + 8)

/-- The barrier as an update or a read finds it: damaged bytes set E with CAUSE 0x30 and ENG 0 (R360). -/
def readBar (s : State) (off : Nat) : Bar :=
  let b := barOf (readNat s.dev (barKey s off) 16)
  if poisoned s.dev (barKey s off + 8) then { b with e := true, eng := 0, cause := cLoss, origin := 0, seq := 0 }
  else if poisoned s.dev (barKey s off) then barErr 0 cLoss 0 0 b
  else b

/-- The barrier's bytes written. -/
def writeBar (off : Nat) (b : Bar) (s : State) : State := { s with dev := writeBytes s.dev (barKey s off) (barBytes b) }

/-- OUT of a barrier (R268). -/
def outOf (s : State) (off : Nat) : Nat := SMap.get 0 s.slot.out off

/-- OUT of a barrier set. -/
def setOut (off n : Nat) (s : State) : State := { s with slot.out := SMap.set 0 s.slot.out off n }

/-- One update of a barrier, decided by R282. -/
def updateBar (off : Nat) (f : Bar → Bar) (s : State) : State :=
  writeBar off (barDecide (outOf s off) 34 (f (readBar s off))) s

/-! ## Barrier words (R280 to R283) -/

/-- The check of a barrier address (R268): its offset in the scratchpad, or the cause. -/
def barCheck (s : State) (bar : Nat) : Except Nat Nat :=
  if bar % 16 ≠ 0 then .error cAlign
  else if scrBase ≤ bar ∧ bar < scrBase + scru s * 65536 then .ok (bar - scrBase)
  else .error cRights

/-- A barrier word after the check of its address. -/
def barWord (n : Need) (a : BitVec 5) (body : Nat → State → Res) (s : State) : State :=
  run n s (fun s => match barCheck s (xr s a).toNat with
    | .error c => .trap c (xr s a) 0 s
    | .ok off => body off s)

/-- An update of the thread's waits to take effect. -/
def updatesPending (s : State) : Bool := !s.thr.pnd.barArrs.isEmpty

/-- BINIT (R281): it waits for the thread's earlier updates, and drops any damage with the bytes it replaces. -/
def execBinit (a b : BitVec 5) (s : State) : Host.Outcome State Fault Refusal :=
  .next (barWord { word := encode (.binit a b), xr := [a.toNat, b.toNat] } a (fun off s =>
    let n := (xr s b).toNat
    if n / 65536 ≠ 0 ∨ n % 65536 = 0 then .trap 0x01 ((encode (.binit a b)).setWidth 64) (xr s b) s
    else if updatesPending s then .wait s
    else
      let s := { s with dev := clearPoison s.dev (upFrom (barKey s off) 16) }
      .done (writeBar off ⟨0, n, n, false, false, false, 0, 0, 0, 0, 0⟩ s)) s)

/-- BEXPECT (R281). -/
def execBexpect (a b : BitVec 5) (s : State) : Host.Outcome State Fault Refusal :=
  .next (barWord { word := encode (.bexpect a b), xr := [a.toNat, b.toNat] } a (fun off s =>
    if updatesPending s then .wait s else .done (updateBar off (barExpect ((xr s b).setWidth 32)) s)) s)

/-- The oldest waiting update takes effect if every store before it is performed (R281). (DEDUCED, log 78) -/
def takeArrival (s : State) : State :=
  match s.thr.pnd.barArrs with
  | [] => s
  | x :: r =>
    if s.thr.pnd.stores.any (fun p => p.fence = 0 && p.ser ≤ x.upto) then s
    else updateBar x.bar (fun b => barArrive (barExpect x.exp b)) { s with thr.pnd.barArrs := r }

/-- An arrival of the thread: it takes effect at once when no earlier store or update stands before it, else it waits (R281). -/
def pushArrival (off : Nat) (n : BitVec 32) (s : State) : State :=
  let t := { s with thr.pnd.barArrs := s.thr.pnd.barArrs ++ [⟨off, n, s.dev.ser⟩] }
  if updatesPending s then t else takeArrival t

/-- BARRIVE (R281). -/
def execBarrive (a : BitVec 5) (s : State) : Host.Outcome State Fault Refusal :=
  .next (barWord { word := encode (.barrive a), xr := [a.toNat] } a (fun off s => .done (pushArrival off 0 s)) s)

/-- BEXPARR (R281). Its arrival stands beside those of entries without `.nr`. (DEDUCED, log 89) -/
def execBexparr (a b : BitVec 5) (s : State) : Host.Outcome State Fault Refusal :=
  .next (barWord { word := encode (.bexparr a b), xr := [a.toNat, b.toNat] } a
    (fun off s => .done (pushArrival off ((xr s b).setWidth 32) s)) s)

/-- The phase of a parity is done (R283). -/
def barDone (s : State) (off : Nat) (parity : Word) : Bool := (readBar s off).ph != bit parity.toNat 0

/-- The status word (R283). -/
def barStatus (b : Bar) (done : Bool) : Word :=
  w64 (bitNat b.ph + 2 * bitNat b.e + 4 * bitNat b.m + 8 * bitNat done + b.eng * 2 ^ 8 + b.cause * 2 ^ 16 + b.origin * 2 ^ 24 + b.seq * 2 ^ 40)

/-- BWAIT (R283): a damaged barrier ends the wait (R360). -/
def execBwait (d a b : BitVec 5) (s : State) : Host.Outcome State Fault Refusal :=
  .next (barWord { word := encode (.bwait d a b), xr := [a.toNat, b.toNat], xw := [d.toNat] } a (fun off s =>
    if barDone s off (xr s b) || barHurt s off then .done (wx d.toNat (barStatus (readBar s off) true) (dropOldLines true s))
    else .wait s) s)

/-- BTEST (R283). -/
def execBtest (d a b : BitVec 5) (s : State) : Host.Outcome State Fault Refusal :=
  .next (barWord { word := encode (.btest d a b), xr := [a.toNat, b.toNat], xw := [d.toNat] } a (fun off s =>
    let done := barDone s off (xr s b)
    .done (wx d.toNat (barStatus (readBar s off) done) (dropOldLines done s))) s)

/-- BARRIVE_EFFECT (R281): the oldest waiting update of the thread `slot`, `role`, once every store before it is performed. -/
def execBarriveEffect (s : State) : Host.Outcome State Fault Refusal :=
  .next (within s.dev.arg.slot s.dev.arg.role takeArrival s)

/-! ## Engine queues (R257, R266) -/

/-- The entries of a queue of the slot: 0 CPQ, 1 GSQ, 2 CLQ, 3 MXQ, 4 PXQ (R257). -/
def queueOf (sl : Slot) (q : Nat) : List Entry := match q with | 0 => sl.cpq | 1 => sl.gsq | 2 => sl.clq | 3 => sl.mxq | _ => sl.pxq

/-- The entries of a queue set. -/
def setQueue (q : Nat) (l : List Entry) (s : State) : State :=
  match q with
  | 0 => { s with slot.cpq := l }
  | 1 => { s with slot.gsq := l }
  | 2 => { s with slot.clq := l }
  | 3 => { s with slot.mxq := l }
  | _ => { s with slot.pxq := l }

/-- Entries per slot (R266). -/
def queueCap (q : Nat) : Nat := match q with | 0 => 32 | 1 => 16 | 2 => 8 | 3 => 32 | _ => 16

/-- The queue holds all the entries it can; markers are not entries. -/
def queueFull (s : State) (q : Nat) : Bool := queueCap q ≤ ((queueOf s.slot q).filter (fun e => e.op != .marker)).length

/-- The number of a queue as ENG and as a writer's kind (R278, R332). -/
def engNum (q : Nat) : Nat := q + 1

/-- A marker that stands at the head of every queue it was placed in is taken off (R257). -/
def dropMarker (s : State) (q : Nat) : State :=
  match queueOf s.slot q with
  | e :: _ =>
    let qs := (upFrom 0 5).filter (fun k => bit e.koff k)
    if e.op = .marker && qs.all (fun k => match (queueOf s.slot k).head? with | some x => x.op = .marker && x.seq = e.seq | none => false) then
      qs.foldl (fun s k => setQueue k (queueOf s.slot k).tail s) s
    else s
  | [] => s

/-- Markers taken off as long as some can be, n rounds; each queue's new head begins now. -/
def settleQueues : Nat → State → State
  | 0, s => (upFrom 0 5).foldl (fun s q => match queueOf s.slot q with
      | e :: r => if e.start.isNone then setQueue q ({ e with start := some (cycNow s) } :: r) s else s
      | [] => s) s
  | n + 1, s => settleQueues n ((upFrom 0 5).foldl dropMarker s)

/-- The longest run of markers in the queues. -/
def markerCount (sl : Slot) : Nat := ((upFrom 0 5).map (fun q => (queueOf sl q).length)).sum

/-- The queues put in order after a change. -/
def settleAll (s : State) : State := settleQueues (markerCount s.slot) s

/-- The number of the next entry of a queue (R278), or of the next `fence.q` under key 8. -/
def nextSeq (s : State) (q : Nat) : Nat := SMap.get 0 s.slot.seqs q

/-- An entry of the thread in focus, with nothing but what every entry has. -/
def newEntry (s : State) (op : EngOp) (q : Nat) : Entry :=
  { op := op, nr := false, bar := 0, block := 0, role := s.cur.2, task := s.thr.sr.taskid, acct := acctOf s, seq := nextSeq s q, done := none,
    z := 0, wb := 0, koff := 0, cls := 0, fmt := 0, vl := 0, vlvalid := 0, ftz := false, rows := [], list := [], since := s.dev.ser,
    start := none, prog := 0, acc := 0, plan := [], idle := false }

/-- An entry put into a queue; `counts` says that it adds 1 to OUT of its barrier. -/
def enterQueue (q : Nat) (e : Entry) (counts : Bool) (s : State) : State :=
  let s := { setQueue q (queueOf s.slot q ++ [e]) s with dev.ser := s.dev.ser + 1 }
  let s := { s with slot.seqs := SMap.set 0 s.slot.seqs q (nextSeq s q + 1) }
  settleAll (if counts then setOut e.bar (outOf s e.bar + 1) s else s)

/-- An engine command must wait to enter its queue: a fence of the thread is pending (R255), or an update of the barrier it names
(R281). -/
def engineWaits (s : State) (bar : Option Nat) : Bool :=
  s.thr.pnd.stores.any (fun p => p.fence != 0)
    || (match bar with | some b => s.thr.pnd.barArrs.any (fun x => x.bar = b) | none => false)

/-- FENCE.Q (R257): the scalar side never waits. -/
def execFenceQ (q : BitVec 5) (s : State) : Host.Outcome State Fault Refusal :=
  .next (scalar (encode (.fenceQ q)) [] [] s (fun s =>
    let m := { newEntry s .marker 8 with koff := q.toNat }
    let qs := (upFrom 0 5).filter (fun k => bit q.toNat k)
    let t := qs.foldl (fun s k => setQueue k (queueOf s.slot k ++ [m]) s) s
    settleAll { t with slot.seqs := SMap.set 0 t.slot.seqs 8 (nextSeq t 8 + 1) }))

/-! ## An engine's accesses (R269, R363, R382, R386) -/

/-- How an access of an engine ends. A wait names the device waited for and the request that leaves meanwhile, if one may:
its owner, its address and its length. -/
inductive Eng (α : Type) where
  | ok (a : α) (s : State)
  | err (cause origin : Nat)
  | wait (dev : Nat) (ask : Option (Nat × Nat × Nat))

/-- One after the other. -/
def Eng.bind {α β : Type} (x : Eng α) (f : α → State → Eng β) : Eng β :=
  match x with
  | .ok a s => f a s
  | .err c o => .err c o
  | .wait dn q => .wait dn q

/-- The queue of a kind of entry (R266). -/
def EngOp.queue : EngOp → Nat
  | .cpy => 0
  | .rgath | .rscat => 1
  | .coll => 2
  | .pfxh | .pfxlk | .pfxins | .pfxunpin => 4
  | _ => 3

/-- The owner of an engine's reads and, one above, of its writes among the requests of the device. -/
def engOwner (slot : Nat) (op : EngOp) : Nat := 2 ^ 20 + 16 * slot + 2 * op.queue

/-- The ORIGIN of an error at a location: the device of a GSQ or CLQ entry's access to another device, otherwise 0 (R278). -/
def engOrigin (e : Entry) (s : State) (key : Nat) : Nat :=
  if (e.op.queue = 1 || e.op.queue = 2) && !isScratch key && paDev key != s.dev.boot.devnum then paDev key else 0

/-- The bytes of a range translated for an engine of the slot. -/
def engXlate (store : Bool) (va n : Nat) (s : State) : Except Nat (List Loc) :=
  match xlateRange (xlate s.dev .engine s.cur.1 s.slot.ctx s.slot.droot (scru s) store) va n with
  | .error (c, _) => .error c
  | .ok locs => .ok locs

/-- The bytes of a range as an engine of the slot reaches them (R269, R378, R382, R386). A request to another device leaves in one turn and
its response or acknowledgement comes in a later one, one range of an entry at a time. (DESIGN CHOICE, log 85) (DESIGN CHOICE, log 26) -/
def engReach (e : Entry) (store : Bool) (va n : Nat) (s : State) : Eng (List Loc) :=
  match engXlate store va n s with
  | .error c => .err c 0
  | .ok locs =>
    match locs.find? (fun l => l.kind = .remote) with
    | none => .ok locs s
    | some l =>
      let dn := paDev l.key
      let len := (locs.filter (fun k => k.kind = .remote && paDev k.key = dn)).length
      let own := engOwner s.cur.1 e.op + (if store then 1 else 0)
      if unreachable s.dev dn then .err 0x43 dn
      else match readReq s.dev own l.key with
        | some r => if r.held then .wait dn none else .ok locs s
        | none =>
          if mayLeave s.dev l.key len then .wait dn (some (own, l.key, len))
          else if ownFill s.dev own l.key then .ok locs s
          else .wait dn none

/-- Every request of an engine's entry answered. -/
def engAnswered (e : Entry) (s : State) : State :=
  if s.dev.fab.reqs.isEmpty then s
  else { s with dev.fab.reqs := s.dev.fab.reqs.filter (fun r => r.own / 2 != engOwner s.cur.1 e.op / 2) }

/-- The places of a read of an engine: a poisoned granule stops it (R363). -/
def engPlaces (e : Entry) (va n : Nat) (s : State) : Eng (List Nat) :=
  (engReach e false va n s).bind (fun locs s =>
    match locs.find? (fun l => poisoned s.dev l.key) with
    | some l => .err cLoss (engOrigin e s l.key)
    | none => .ok (locs.map (·.key)) s)

/-- Bytes read counted on an entry's account (R235). -/
def countRead (e : Entry) (keys : List Nat) (s : State) : State :=
  let out := (keys.filter (fun k => !isScratch k)).length
  if out = 0 then s else { s with dev := addAcnt e.acct 2 out s.dev }

/-- A read of an engine. -/
def engRead (e : Entry) (va n : Nat) (s : State) : Eng (List Byte) :=
  (engPlaces e va n s).bind (fun keys s => .ok (keys.map (readByte s.dev)) (countRead e keys s))

/-- Masked bytes written by an engine. -/
def engPut (e : Entry) (op : Nat) (bs : List (Nat × Byte × Byte)) (s : State) : State :=
  if bs.isEmpty then s
  else { s with dev := performBytes { writerOf s (engNum e.op.queue) e.task with role := 0xFF } e.acct op bs s.dev }

/-- A masked write of an engine. -/
def engWriteMasked (e : Entry) (va : Nat) (bs : List (Byte × Byte)) (s : State) : Eng Unit :=
  (engReach e true va bs.length s).bind (fun locs s => .ok () (engPut e 0 ((locs.zip bs).map (fun p => (p.1.key, p.2.1, p.2.2))) s))

/-- A write of an engine. -/
def engWrite (e : Entry) (va : Nat) (bs : List Byte) (s : State) : Eng Unit := engWriteMasked e va (bs.map (fun b => (0xFF, b))) s

/-! ## The end of an entry (R13, R48, R143, R269) -/

/-- The head of a queue of the slot in focus, if it is of a kind and not done. -/
def headEntry (s : State) (q : Nat) (p : EngOp → Bool) : Option Entry :=
  match (queueOf s.slot q).head? with
  | some e => if p e.op && e.done.isNone then some e else none
  | none => none

/-- It is the other slot's turn at an engine that the two slots of a core share: this slot's entry was served last and the other's
head is ready for a step (R266). (DEDUCED, log 90) -/
def matesTurn (s : State) (n q : Nat) : Bool :=
  SMap.get 0 s.dev.served (8 * (n / 2) + q) = n + 1
    && (match (queueOf (slotAt s (if n % 2 = 0 then n + 1 else n - 1)) q).head? with
        | some e => e.op != .marker && e.done.isNone && !e.idle
        | none => false)

/-- The head of a queue replaced. -/
def setHead (q : Nat) (e : Entry) (s : State) : State := setQueue q (e :: (queueOf s.slot q).tail) s

/-- One step of the head entry of queue q of slot `slot`, if it is of a kind and the slot's turn: `g` answers none where the entry can only
wait (R266). -/
def engineStep (q : Nat) (p : EngOp → Bool) (g : Entry → State → Option State) (s : State) : State :=
  let n := s.dev.arg.slot
  within n 1 (fun t => match headEntry t q p with
    | none => t
    | some e =>
      if matesTurn t n q then t
      else match g { e with idle := false } t with
        | none => setHead q { e with idle := true } t
        | some u => { u with dev.served := SMap.set 0 u.dev.served (8 * (n / 2) + q) (n + 1) }) s

/-- An entry that goes no further now: a request of its leaves, or it stands at the head with what it has done, if that is something: its
`prog` is at least p. -/
def engineStop (q p : Nat) (e : Entry) (ask : Option (Nat × Nat × Nat)) (s : State) : Option State :=
  match ask with
  | some r => let t := setHead q e s; some { t with dev := sendReq r.1 r.2.1 r.2.2 t.dev }
  | none => if p ≤ e.prog then some (setHead q e s) else none

/-- The head of a queue has been performed. -/
def finishHead (q : Nat) (e : Entry) (n cause origin : Nat) (s : State) : State := setHead q { e with done := some ⟨n, cause, origin⟩ } s

/-- Flags merged into FPFLAGS of a role's thread of the slot (R48). -/
def mergeInto (role fl : Nat) (s : State) : State :=
  if fl = 0 then s
  else if role = s.cur.2 then mergeFlags fl s
  else
    let t := SMap.get Thread.absent s.slot.ths role
    { s with slot.ths := SMap.set Thread.absent s.slot.ths role { t with sr.fpflags := t.sr.fpflags ||| w64 (fl % 32) } }

/-- The barrier update of a completed entry (R269): it arrives unless it has `.nr`. (DEDUCED, log 89) -/
def completeOn (q : Nat) (e : Entry) (x : EntryDone) (s : State) : State :=
  let s := setOut e.bar (outOf s e.bar - 1) s
  updateBar e.bar (fun b =>
    let b := if x.cause = 0 then b else barErr (engNum q) x.cause x.origin e.seq b
    let b := barExpect (-(BitVec.ofNat 32 x.n)) b
    if e.nr then b else barArrive b) s

/-- The head of a queue taken off with what its completion does: the flags of a multiply are in `n`; other MXQ entries but a fill end
silently. -/
def completeHead (q : Nat) (s : State) : State :=
  match (queueOf s.slot q).head? with
  | none => s
  | some e => match e.done with
    | none => s
    | some x =>
      let s := setQueue q (queueOf s.slot q).tail s
      let s := match e.op with
        | .mma | .mmamo => mergeInto e.role x.n s
        | .zclr | .zld | .zst | .mcommit | .marker => s
        | _ => completeOn q e x s
      settleAll s

/-- ENGINE_ENTRY_COMPLETE (R269): the performed head of queue `idx` of slot `slot` completes. -/
def execEngineEntryComplete (s : State) : Host.Outcome State Fault Refusal :=
  .next (within s.dev.arg.slot 1 (completeHead s.dev.arg.idx) s)

end Sys2Proof.Machine
end

