-- ==== Sys2Proof/Machine/Fetch.lean ====
section
/-! DEFINITION. Fetching a word, which thread may take a turn, the turns of the caches, the translation buffers and of time, and
where a program is placed from outside (R205, R244, R245, R247, R248). -/

namespace Sys2Proof.Machine

/-! ## Fetch (R248) -/

/-- The physical address of a fetched byte, or the cause of the trap (R248). -/
def fetchAddr (s : State) (va : Nat) : Except Nat Nat :=
  if 2 ^ 52 ≤ va then .error 0x08
  else if va < s.slot.cbase.toNat || s.slot.cbound.toNat ≤ va then .error 0x09
  else match tlbFind s.dev (coreOf s) s.slot.ctx true va with
    | some t => .ok t.pa
    | none => match walkInstr s.dev s.slot.iroot va with
      | some t => .ok t.pa
      | none => .error 0x08

/-- An L1I line of the core for the context in focus (R247). -/
def l1iFind (s : State) (pa : Nat) : Option Line :=
  s.dev.l1i.find? (fun l => l.core = coreOf s && l.ctx = s.slot.ctx && l.line = pa / 64)

/-- A fetched byte: from the L1I line where the core holds one (R22, R247). -/
def fetchByte (s : State) (pa : Nat) : Byte :=
  match l1iFind s pa with
  | some l => lineByte l pa
  | none => readByte s.dev pa

/-- The word at the program counter, or the cause of the trap: a poisoned granule is FETCH_TRANSLATION (R363). -/
def fetchWord (s : State) : Except Nat (BitVec 32) :=
  match fetchAddr s s.thr.pc.toNat with
  | .error c => .error c
  | .ok pa => if (l1iFind s pa).isNone && poisoned s.dev pa then .error 0x08 else .ok (wordOfBytes (fetchByte s pa) (fetchByte s (pa + 1)) (fetchByte s (pa + 2)) (fetchByte s (pa + 3)))

/-! ## Turns (R205) -/

/-- The thread in focus can take a turn: it is in a launch, its slot runs, and no debug block holds it (R322, R334). -/
def canRun (s : State) : Bool := s.thr.live && !s.thr.halted && s.slot.st = .running && s.thr.pnd.susp.isNone

/-- Threads that only waited may try again. -/
def wake (t : Thread) : Thread := { t with pnd.blocked := false }

/-- Every thread of a slot may try again. -/
def wakeSlot (sl : Slot) : Slot := { sl with ths := sl.ths.map (fun p => (p.1, wake p.2)) }

/-- Every thread of the device may try again: some event has taken place. -/
def wakeAll (s : State) : State :=
  { s with thr := wake s.thr, slot := wakeSlot s.slot, dev.slots := s.dev.slots.map (fun p => (p.1, wakeSlot p.2)) }

/-- The other roles of the slot may try again when this one has done something. -/
def wakeMates (s : State) : State := if s.thr.pnd.blocked then s else { s with slot := wakeSlot s.slot }

/-- The thread of the slot may be tried by the default turn. -/
def ready (slotRuns : Bool) (now : Nat) (t : Thread) : Bool :=
  slotRuns && t.live && !t.halted && t.pnd.susp.isNone && !t.pnd.blocked && t.pnd.readyAt ≤ now

/-- The roles in cyclic order after the one that issued last (R205). -/
def rolesAfter (r : Nat) : List Nat := [(r + 1) % 3, (r + 2) % 3, r % 3]

/-- The next role of the slot in focus to issue (R205). -/
def nextRole (s : State) : Option Nat :=
  (rolesAfter s.slot.lastRole).find? (fun r => ready (s.slot.st = .running) (cycNow s) (threadAt s r))

/-- A slot other than the one in focus with a thread to run, and its role. -/
def nextSlot (s : State) : Option (Nat × Nat) :=
  s.dev.slots.findSome? (fun p =>
    ((rolesAfter p.2.lastRole).find? (fun r => ready (p.2.st = .running) (cyclesAt s.dev p.1) (SMap.get Thread.absent p.2.ths r))).map
      (fun r => (p.1, r)))

/-! ## Translation buffers and caches (R243 to R247) -/

/-- How many translations of a kind a holder has, and how many it can have: 128 for data and 32 for instructions in a core, 8,192 in the
second-level TLB of a die (R244, R248). -/
def tlbRoom (d : Device) (holder : Nat) (instr : Bool) : Bool :=
  (d.tlb.filter (fun e => e.core = holder && e.instr = instr)).length < (if 256 ≤ holder then 8192 else if instr then 32 else 128)

/-- A thread of the slot fetches from a page of 32 MiB (R248). -/
def fetchesFrom (sl : Slot) (va : Nat) : Bool :=
  sl.ths.any (fun p => p.2.live && p.2.pc.toNat / 2 ^ 25 = va / 2 ^ 25 && sl.cbase.toNat ≤ p.2.pc.toNat && p.2.pc.toNat < sl.cbound.toNat)

/-- A walk for a slot that its core's TLBs may keep: one that succeeded (R244). -/
def walkFor (d : Device) (sl : Slot) (instr : Bool) (va : Nat) : Option Trans :=
  if instr then walkInstr d sl.iroot va
  else match walkData d sl.droot va with
    | .ok t => if t.mt < 2 then some t else none
    | .error _ => none

/-- A translation that a slot with a thread walks and its core keeps, with the second-level TLB of its die for data, where each has room.
Only a walk that succeeded is kept (R244). (DESIGN CHOICE, log 5) -/
def tlbFillTurn (n : Nat) (instr : Bool) (va : Nat) (s : State) : State :=
  let sl := slotAt s n
  if sl.st = .free || 2 ^ 52 ≤ va || (instr && !fetchesFrom sl va) || (tlbFind s.dev (n / 2) sl.ctx instr va).isSome then s
  else match walkFor s.dev sl instr va with
    | none => s
    | some t =>
      let keep := fun (h : Nat) (d : Device) => if tlbRoom d h instr then
        { d with tlb := ⟨h, sl.ctx, instr, va / t.size * t.size, t.size, t.pa - va % t.size, t.w, t.mt = 1⟩ :: d.tlb } else d
      { s with dev := keep (n / 2) (if instr then s.dev else keep (dieTlb (n / 2)) s.dev) }

/-- A kept translation dropped. -/
def tlbDropTurn (i : Nat) (s : State) : State := { s with dev.tlb := s.dev.tlb.eraseIdx i }

/-- The 64 bytes of a line at their home. -/
def lineNow (d : Device) (line : Nat) : BitVec 512 := BitVec.ofNat 512 (leNat (readBytes d (line * 64) 64))

/-- The line may be held in an L1D: this device's memory or the host window, and no granule of it poisoned (R245, R377). -/
def cacheable (d : Device) (line : Nat) : Bool :=
  (paKind d (line * 64) = .devMem || paKind d (line * 64) = .hostMem) && !poisoned d (line * 64)

/-- Lines of a core's cache of 64 KiB (R245, R247). -/
def lineRoom (ls : List Line) (core : Nat) : Bool := (ls.filter (fun l => l.core = core)).length < 1024

/-- A core fills an L1D line from its home. -/
def l1dFillTurn (core line : Nat) (s : State) : State :=
  let ls := s.dev.l1d.filter (fun l => !(l.core = core && l.line = line))
  if cacheable s.dev line && lineRoom ls core then
    { s with dev.ser := s.dev.ser + 1, dev.l1d := ⟨core, 0, line, lineNow s.dev line, s.dev.ser + 1⟩ :: ls }
  else s

/-- A core drops an L1D line. -/
def l1dDropTurn (core line : Nat) (s : State) : State :=
  { s with dev.l1d := s.dev.l1d.filter (fun l => !(l.core = core && l.line = line)) }

/-- Addresses in the lines from the word at a pc to 512 bytes past it (R248). -/
def readAhead (pc : Nat) : List Nat := pc :: (upFrom 1 8).map (fun k => (pc / 64 + k) * 64)

/-- A slot's thread at a pc may read a line ahead: not past CBOUND, nor into a page of 32 MiB whose translation is not held (R248). -/
def readsLine (d : Device) (core : Nat) (sl : Slot) (line pc : Nat) : Bool :=
  (readAhead pc).any (fun va => va ≤ pc + 512 && sl.cbase.toNat ≤ va && va < sl.cbound.toNat
    && (match tlbFind d core sl.ctx true va with
        | some t => t.pa / 64 = line
        | none => va / 2 ^ 25 = pc / 2 ^ 25 && (match walkInstr d sl.iroot va with | some t => t.pa / 64 = line | none => false)))

/-- A thread of the core in a context reads a line of code or reads it ahead (R247, R248). -/
def wantsLine (s : State) (core ctx line : Nat) : Bool :=
  [2 * core, 2 * core + 1].any (fun n =>
    let sl := slotAt s n
    sl.ctx = ctx && sl.ths.any (fun p => p.2.live && readsLine s.dev core sl line p.2.pc.toNat))

/-- A core fills an L1I line for a context of one of its threads (R247, R248). -/
def l1iFillTurn (core ctx line : Nat) (s : State) : State :=
  let ls := s.dev.l1i.filter (fun l => !(l.core = core && l.ctx = ctx && l.line = line))
  if wantsLine s core ctx line && isLocalDev s.dev (line * 64) && !poisoned s.dev (line * 64) && lineRoom ls core then
    { s with dev.ser := s.dev.ser + 1, dev.l1i := ⟨core, ctx, line, lineNow s.dev line, s.dev.ser + 1⟩ :: ls }
  else s

/-- A core whose L1I is full drops a line to make room; otherwise only an invalidation discards lines (R247). -/
def l1iDropTurn (core ctx line : Nat) (s : State) : State :=
  if lineRoom s.dev.l1i core then s
  else { s with dev.l1i := s.dev.l1i.filter (fun l => !(l.core = core && l.ctx = ctx && l.line = line)) }

/-- The hang watchdog of a slot counts while the slot runs and no thread of it is halted, and counts the cycles of a save, but not while a
quiesce covers the device (R205, R336, R354, R388). A retirement sets it back. -/
def countCycles (quiet : Bool) (cycles : Nat) (ths : List Thread) (sl : Slot) : Slot :=
  if !quiet && ((sl.st = .running && !ths.any (fun t => t.live && t.halted)) || sl.st = .saving) then { sl with wdog := sl.wdog + cycles }
  else sl

/-- The accounts of the slots in use. -/
def activeAccounts (s : State) : List Nat :=
  (((s.slot :: s.dev.slots.map (·.2)).filter (fun sl => sl.st != .free)).map (·.acct)).eraseDups

/-- ACNT_ENERGY of every account with a slot in use rises by what the activity model estimates (R235). (DESIGN CHOICE, log 94) -/
def chargeEnergy (s : State) : State :=
  { s with dev := { (activeAccounts s).foldl (fun d a => addAcnt a 6 (Config.energy a s.dev.fresh) d) s.dev with fresh := s.dev.fresh + 1 } }

/-- DEVTIME moves on by picoseconds (R11). -/
def passTime (ps : Nat) (d : Device) : Device :=
  { d with devtime := d.devtime + w64 ((d.psec + ps) / 1000), psec := (d.psec + ps) % 1000 }

/-- Time passes: DEVTIME, the clock of each island, the watchdogs and the energy. (DESIGN CHOICE, log 7) (DEDUCED, log 73) -/
def elapseTurn (ps : Nat) (s : State) : State :=
  let quiet := !s.dev.fab.rehash.isEmpty
  let d := passTime ps s.dev
  let cycles := fun n => cyclesAt d n - cyclesAt s.dev n
  chargeEnergy { s with
    slot := countCycles quiet (cycles s.cur.1) (s.thr :: s.slot.ths.map (·.2)) s.slot
    dev := { d with slots := d.slots.map (fun p => (p.1, countCycles quiet (cycles p.1) (p.2.ths.map (·.2)) p.2)) } }

/-! ## A program placed from outside (DESIGN CHOICE, log 11) -/

/-- Where the placed program's page table lies in the device's own memory. -/
def placeTable (d : Device) : Nat := d.boot.devnum * 2 ^ 48 + 0x10000
/-- The frame of the placed program. -/
def placeFrame (d : Device) : Nat := d.boot.devnum * 2 ^ 48 + 0x2000000

/-- A page table of three levels that maps instruction address 0 to the frame (R241, R248). -/
def placeMap (d : Device) : Device :=
  let t := placeTable d
  let d := writeBytes d t (leBytes 8 (t + 0x1000 + 1))
  let d := writeBytes d (t + 0x1000) (leBytes 8 (t + 0x2000 + 1))
  writeBytes d (t + 0x2000) (leBytes 8 (placeFrame d + 3))

/-- A thread in focus that can run: the one there is, or one at instruction address 0 of a program just loaded. -/
def placeThread (s : State) : State :=
  if canRun s && (fetchAddr s s.thr.pc.toNat).isOk then s
  else
    let d := { s.dev with
      boot.maxdev := max s.dev.boot.maxdev s.dev.boot.devnum
      poison := []
      tlb := s.dev.tlb.filter (fun e => !e.instr)
      l1i := [] }
    { s with
      dev := placeMap d
      slot.st := .running
      slot.iroot := w64 (placeTable d)
      slot.cbase := 0
      slot.cbound := w64 0x2000000
      thr.live := true
      thr.halted := false
      thr.pc := 0
      thr.pnd.susp := none }

/-- The first word of an instruction whose lowest bits are w. -/
def placedWord (nbits w : Nat) : BitVec 32 := BitVec.ofNat 32 (w % 2 ^ nbits)

/-- The word stored where the thread in focus fetches next, with no older line of it held. -/
def placeWord (w : BitVec 32) (s : State) : State :=
  match fetchAddr s s.thr.pc.toNat with
  | .error _ => s
  | .ok pa => { s with dev := writeBytes { s.dev with l1i := s.dev.l1i.filter (fun l => l.line != pa / 64) } pa (bytesOfWord w) }

end Sys2Proof.Machine
end

