-- ==== Sys2Proof/Machine/Matrix.lean ====
section
/-! DEFINITION. The matrix unit and the weight buffer: the words of major 0x38 and the performing of MXQ's entries (R50, R51, R133 to
R145, R345, R360, R362). -/

namespace Sys2Proof.Machine

/-! ## Classes and geometry (R133, R134) -/

/-- The class of a format: 4, 8 or 16; 0 for none (R134). -/
def mxClass (f : Nat) : Nat :=
  if f = 16 ∨ f = 17 ∨ f = 18 then 4
  else if f = 12 ∨ f = 13 ∨ f = 14 ∨ f = 15 ∨ f = 1 ∨ f = 19 then 8
  else if f = 10 ∨ f = 11 then 16 else 0

/-- The chunk depth of a pairing (R134). -/
def mxDepth (fa fb : Nat) : Nat :=
  if mxClass fa = 4 ∧ mxClass fb = 4 then 128 else if mxClass fa = 16 ∨ mxClass fb = 16 then 32 else 64

/-- N of the slot in focus (R133). -/
def colsN (s : State) : Nat := columns s.dev (coreOf s)

/-- A tile of the slot. -/
def tileOf (s : State) (z : Nat) : KReg := SMap.get 0 s.slot.z z

/-- A tile written: it becomes DIRTY (R345). -/
def setTile (z : Nat) (v : KReg) (s : State) : State :=
  { s with slot.z := SMap.set 0 s.slot.z z v, slot.zdirty := s.slot.zdirty ||| BitVec.ofNat 16 (2 ^ z) }

/-- Element (r, c) of a tile: an FP32 code (R133). -/
def tileElem (n : Nat) (t : Nat) (r c : Nat) : Nat := elemOf t 32 (r * n + c)

/-- The tile exists on the slot (R9, R236). -/
def tileOk (s : State) (z : Nat) : Bool := z < partTiles s.slot.part.toNat

/-! ## Poison and errors (R138, R143, R145, R360, R362, R365) -/

/-- A tile is poisoned. -/
def tilePoisoned (s : State) (z : Nat) : Bool := bit s.slot.zpoison.toNat z

/-- A tile marked poisoned; RAS_UE counts it (R365). -/
def poisonTile (z : Nat) (s : State) : State :=
  if tilePoisoned s z then s
  else { s with slot.zpoison := s.slot.zpoison ||| BitVec.ofNat 16 (2 ^ z), dev := addRas (coreOf s) 4 1 s.dev }

/-- A tile's mark cleared. -/
def cleanTile (z : Nat) (s : State) : State := { s with slot.zpoison := s.slot.zpoison &&& ~~~(BitVec.ofNat 16 (2 ^ z)) }

/-- The first failed event since the last `mcommit` (R143). -/
def mxFail (cause origin seq : Nat) (s : State) : State :=
  if s.slot.mxerr.isSome then s else { s with slot.mxerr := some ⟨cause, origin, seq⟩ }

/-- A weight-buffer slot. -/
def wbOf (s : State) (n : Nat) : WbSlot := SMap.get WbSlot.empty s.slot.wb n

/-- A weight-buffer slot set. -/
def setWb (n : Nat) (w : WbSlot) (s : State) : State := { s with slot.wb := SMap.set WbSlot.empty s.slot.wb n w }

/-- A weight-buffer slot marked poisoned. -/
def poisonWb (n : Nat) (s : State) : State :=
  if (wbOf s n).poison then s else { setWb n { wbOf s n with poison := true } s with dev := addRas (coreOf s) 4 1 s.dev }

/-- A double-bit error lies unread in a tile (class 0) or a weight-buffer slot (class 8) of the slot (R360). It is kept with the
execute thread's damaged places. -/
def latent (s : State) (cls n : Nat) : Bool := (threadAt s 1).hid.damaged.any (fun d => d.cls = cls && d.num = n)

/-- The slot's latent error of a place dropped. -/
def dropLatent (cls n : Nat) (s : State) : State :=
  let cut := fun (t : Thread) => { t with hid.damaged := t.hid.damaged.filter (fun d => !(d.cls = cls && d.num = n)) }
  if s.cur.2 = 1 then { s with thr := cut s.thr }
  else { s with slot.ths := SMap.set Thread.absent s.slot.ths 1 (cut (SMap.get Thread.absent s.slot.ths 1)) }

/-- A tile met by an MXQ entry or a `zmv`: a latent error poisons it (R360), and is reported to the next `mcommit` (R143). A `zmv` has no
number in MXQ and reports SEQ 0. (DESIGN CHOICE, log 98) -/
def meetTile (z seq : Nat) (s : State) : State :=
  if latent s 0 z then mxFail cLoss z seq (poisonTile z (dropLatent 0 z s)) else s

/-- Contents that nothing constrains. -/
def damagedTile (s : State) : KReg := BitVec.ofNat 32768 (Config.damaged s.dev.fresh)

/-- A tile left poisoned with whatever the array produced (R145). (DEDUCED, log 59) -/
def spoilTile (z : Nat) (s : State) : State :=
  let t := setTile z (damagedTile s) s
  poisonTile z { t with dev.fresh := t.dev.fresh + 1 }

/-! ## Weights (R139 to R141) -/

/-- BASE of a weight descriptor. -/
def wBase (d : Nat) : Nat := bfield d 0 8
/-- SIDE. -/
def wSide (d : Nat) : Nat := bfield d 8 8
/-- FMT. -/
def wFmt (d : Nat) : Nat := bfield d 16 1
/-- FORM.KIND. -/
def wKind (d : Nat) : Nat := bits (bfield d 17 1) 0 2
/-- FORM.SP24. -/
def wSparse (d : Nat) : Bool := bit (bfield d 17 1) 2
/-- CBSEL. -/
def wBook (d : Nat) : Nat := bfield d 18 1
/-- KROWS. -/
def wRows (d : Nat) : Nat := bfield d 20 2
/-- BAR. -/
def wBar (d : Nat) : Nat := bfield d 24 8

/-- Kmax of a descriptor (R139). -/
def wMax (d : Nat) : Nat :=
  let k := if wKind d = 2 ∨ fmtEw (wFmt d) = 4 then 1024 else if fmtEw (wFmt d) = 16 then 256 else 512
  if wSparse d then 2 * k else k

/-- The descriptor keeps R139's table and its reserved fields are zero. KROWS of MX is 32 at the least. (DEDUCED, log 92) -/
def wLegal (d : Nat) : Bool :=
  let f := wFmt d
  let k := wRows d
  bfield d 17 1 < 8 && wBook d < 4 && bfield d 19 1 = 0 && bfield d 22 2 = 0 && 1 ≤ k && k ≤ wMax d && (!wSparse d || k % 4 = 0)
    && (match wKind d with
        | 0 => f != 19 && mxClass f != 0 && !(wSparse d && mxClass f = 16)
        | 1 => (f = 12 || f = 13 || f = 14 || f = 15 || f = 16 || f = 1) && !wSparse d && k % 32 = 0
        | 2 => f = 19
        | _ => false)

/-- The form uses SIDE (R139). -/
def wUsesSide (d : Nat) : Bool := wKind d = 1 || wSparse d

/-- Element bytes of a block of N columns. -/
def wElemBytes (d n : Nat) : Nat := ceilDiv ((if wSparse d then wRows d / 2 else wRows d) * n * fmtEw (wFmt d)) 8

/-- Side bytes of a block: scales of MX, indices of SP24 (R141). -/
def wSideBytes (d n : Nat) : Nat := if wKind d = 1 then wRows d / 32 * n else if wSparse d then ceilDiv (wRows d / 2 * n * 2) 8 else 0

/-- A loaded block: its descriptor, codebook, N, and its bytes as numbers. -/
structure Block where
  d : Nat
  book : BitVec 256
  n : Nat
  elems : Nat
  side : Nat

/-- The block of a weight-buffer slot. -/
def blockOf (w : WbSlot) : Block := ⟨w.desc.toNat, w.book, w.n, leNat w.elems, leNat w.side⟩

/-- The value of a stored element: an integer, a float, under FTZ for BF16 and FP16, or a codebook entry as stored (R31 to R33, R45,
R50). -/
def codeVal (ftz : Bool) (fmt : Nat) (book : BitVec 256) (c : Nat) : FV :=
  if fmt = 19 then fval (ffmt 10) (bookEntry book c)
  else if fmtInt fmt then intVal (intElem fmt c)
  else foperand fmt ftz c

/-- The weights that stand at dense row k of a column: one, or for SP24 up to two; zero where none is (R136, R141). -/
def weightsAt (ftz : Bool) (b : Block) (k col : Nat) : List FV :=
  let f := wFmt b.d
  let ew := fmtEw f
  if wRows b.d ≤ k then [fvZero false]
  else if wSparse b.d then
    let js := [k / 4 * 2, k / 4 * 2 + 1].filter (fun j => elemOf b.side 2 (j * b.n + col) = k % 4)
    if js.isEmpty then [fvZero false] else js.map (fun j => codeVal ftz f b.book (elemOf b.elems ew (j * b.n + col)))
  else if wKind b.d = 1 then [blockVal f (elemOf b.side 8 (k / 32 * b.n + col)) (elemOf b.elems ew (k * b.n + col))]
  else [codeVal ftz f b.book (elemOf b.elems ew (k * b.n + col))]

/-! ## Accumulation (R50, R51) -/

/-- The exact sum of products. A NaN among them, ∞ × 0 or infinities of both signs leave NaN. -/
def sumProducts (ps : List (FV × FV)) : FV := ps.foldl (fun s p => (fvAdd .rne s (fvMul p.1 p.2).1).1) (fvZero false)

/-- An accumulator element after one chunk, and the flags. -/
def chunkStep (ftz : Bool) (z : Nat) (s : FV) : Nat × Nat :=
  if s.isNan then (nan32, fNV)
  else if s.isZero then (z, 0)
  else
    let a := fvAdd .rne (foperand 9 ftz z) s
    let c := roundTo 9 .rne false ftz a.1
    (c.1, a.2 ||| c.2)

/-- The K positions of a chunk that contribute. -/
def chunkKs (depth vl vlvalid c : Nat) : List Nat := (upFrom (c * depth) (min ((c + 1) * depth) vl - c * depth)).filter (fun k => k < vlvalid)

/-- Exact amounts added to a value. -/
def addAll (l : List FV) (s : FV) : FV := l.foldl (fun s d => (fvAdd .rne s d).1) s

/-- An accumulator element over the chunks from c on, n of them: `prod k` gives the products of K position k, and `hurt c` what soft errors
add to the sum of chunk c. -/
def chunksFrom (ftz : Bool) (depth vl vlvalid : Nat) (prod : Nat → List (FV × FV)) (hurt : Nat → List FV) : Nat → Nat → Nat × Nat → Nat × Nat
  | 0, _, z => z
  | n + 1, c, z =>
    let r := chunkStep ftz z.1 (addAll (hurt c) (sumProducts ((chunkKs depth vl vlvalid c).flatMap prod)))
    chunksFrom ftz depth vl vlvalid prod hurt n (c + 1) (r.1, z.2 ||| r.2)

/-- What one multiply adds to a tile: the entry, its block, N, the value of the A operand at a row and K position, and the factor made of
a weight. -/
structure Product where
  e : Entry
  b : Block
  n : Nat
  aval : Nat → Nat → FV
  f : FV → FV

/-- The rows G. -/
def Product.rows (p : Product) : Nat := p.e.rows.length

/-- The chunk depth (R50). -/
def Product.depth (p : Product) : Nat := mxDepth p.e.fmt (wFmt p.b.d)

/-- The operands of the products at a row, column and K position. -/
def Product.at' (p : Product) (r col k : Nat) : List (FV × FV) :=
  (weightsAt p.e.ftz p.b (p.e.koff * p.depth + k) col).map (fun w => (p.aval r k, p.f w))

/-- A whole tile accumulated (R136), with what soft errors add at a row, column and chunk. -/
def accumulate (p : Product) (hurt : Nat → Nat → Nat → List FV) (tile : Nat) : Nat × Nat :=
  (upFrom 0 (p.rows * p.n)).foldl (fun (acc : Nat × Nat) i =>
    let r := i / p.n
    let col := i % p.n
    let x := chunksFrom p.e.ftz p.depth p.e.vl p.e.vlvalid (p.at' r col) (hurt r col) (ceilDiv p.e.vl p.depth) 0 (tileElem p.n tile r col, 0)
    (setBits acc.1 (32 * i) 32 x.1, acc.2 ||| x.2)) (tile, 0)

/-! ## The checker (R144, R145) -/

/-- A soft error in the array: what it adds to the sum of a chunk at a row and column. -/
structure Upset where
  chunk : Nat
  row : Nat
  col : Nat
  amount : FV
deriving DecidableEq, Repr

/-- The soft errors that a turn brings on tile `which` of an instruction: each has a number, 2^32 × which + 2^20 × chunk + 2^8 × row +
column, and an amount, a mantissa of 8 bytes and an exponent of 2, both signed. (DESIGN CHOICE, log 13) -/
def upsetsOf (which : Nat) (parts : List (Nat × List Byte)) : List Upset :=
  (parts.filter (fun p => p.1 / 2 ^ 32 = which)).map (fun p =>
    let m := toSigned 64 (leNat (p.2.take 8))
    ⟨bits p.1 20 12, bits p.1 8 12, bits p.1 0 8, .fin (m < 0) m.natAbs (toSigned 16 (leNat ((p.2.drop 8).take 2))) false⟩)

/-- What the errors add at a row, column and chunk. -/
def hurtOf (us : List Upset) (r col c : Nat) : List FV := (us.filter (fun u => u.row = r && u.col = col && u.chunk = c)).map Upset.amount

/-- The check path is exact: 4-bit and 8-bit classes without CB4 (R144). -/
def exactCheck (p : Product) : Bool := p.e.fmt != 19 && wFmt p.b.d != 19 && mxClass p.e.fmt != 16 && mxClass (wFmt p.b.d) != 16

/-- The magnitude of a value. -/
def FV.mag : FV → FV
  | .fin _ m e st => .fin false m e st
  | .inf _ => .inf false
  | .nan s => .nan s

/-- The largest magnitude among values. -/
def largest (l : List FV) : FV := l.foldl (fun m x => if (fvCompare 2 m x.mag).1 then x.mag else m) (fvZero false)

/-- C × M × 2^-46 (R144). -/
def tolerance (terms : Nat) (m : FV) : FV :=
  match (fvMul (intVal terms) m).1 with
  | .fin n x e st => .fin n x (e - 46) st
  | x => x

/-- A row or column of a chunk mismatches: `d` is how far its sum is off, `terms` the number C of terms compared and `ps` its products.
The sums are compared exactly, and one with a product that is no finite number is off by no number. (DEDUCED, log 97) -/
def mismatch (exact : Bool) (terms : Nat) (ps : List FV) (d : FV) : Bool :=
  !d.isZero && !ps.any (fun x => x.isNan || x.isInf) && (exact || (fvCompare 2 (tolerance terms (largest ps)) d.mag).1)

/-- The products of a row of a chunk, or of a column. -/
def lineProducts (p : Product) (rows cols : List Nat) (c : Nat) : List FV :=
  rows.flatMap (fun r => cols.flatMap (fun col => (chunkKs p.depth p.e.vl p.e.vlvalid c).flatMap (fun k => (p.at' r col k).map (fun x => (fvMul x.1 x.2).1))))

/-- The rows and the columns that mismatch in some chunk (R144, R145). -/
def mismatches (p : Product) (us : List Upset) : List Nat × List Nat :=
  if us.isEmpty then ([], []) else
  let rows := upFrom 0 p.rows
  let cols := upFrom 0 p.n
  let chunks := (upFrom 0 (ceilDiv p.e.vl p.depth)).filter (fun c => us.any (fun u => u.chunk = c))
  let off := fun (q : Upset → Bool) => addAll ((us.filter q).map Upset.amount) (fvZero false)
  (rows.filter (fun r => chunks.any (fun c =>
      mismatch (exactCheck p) (p.n * p.depth) (lineProducts p [r] cols c) (off (fun u => u.row = r && cols.contains u.col && u.chunk = c)))),
   cols.filter (fun k => chunks.any (fun c =>
      mismatch (exactCheck p) (p.rows * p.depth) (lineProducts p rows [k] c) (off (fun u => u.col = k && rows.contains u.row && u.chunk = c)))))

/-- Row r of the captured A operand. -/
def rowOf (e : Entry) (r : Nat) : Nat := ((e.rows[r]?).getD 0).toNat

/-- The value of element k of row r of an `mma`. Its block holds the codebook of a CB4 operand. -/
def mmaVal (e : Entry) (r k : Nat) : FV :=
  codeVal e.ftz e.fmt (e.block.setWidth 256) (elemOf (rowOf e r) (fmtEw e.fmt) k)

/-- μ̂ or v̂ of element k of row r of an `mmamo` (R137). -/
def momentVal (e : Entry) (var : Bool) (r k : Nat) : FV :=
  let p := elemOf (rowOf e r) 64 k
  let c := (roundTo e.fmt .rne true e.ftz (foperand 9 e.ftz (if var then bits p 32 32 else bits p 0 32))).1
  foperand e.fmt e.ftz c

/-- w². -/
def squared (w : FV) : FV := (fvMul w w).1

/-! ## Issue (R136 to R140, R142, R143) -/

/-- The checks and the entering of a word of MXQ. -/
def mxWord (n : Need) (s : State) (body : State → Res) : State :=
  run { n with vt := true, roleOk := mayMatrix s, vs0 := true } s body

/-- The first R registers of a moment or vector group. -/
def groupRows (read : Nat → Nat) (base g : Nat) : List KReg := (upFrom base g).map (fun r => BitVec.ofNat 32768 (read r))

/-- MMA (R136). -/
def execMma (z : BitVec 4) (a : BitVec 5) (w : BitVec 2) (k : BitVec 7) (s : State) : Host.Outcome State Fault Refusal :=
  let f := fmtN s
  let ok := mxClass f != 0 && vtBlk s.thr.sr.vtype = 0
  let long := decide (perReg (vmN s) (ewN s) < vlN s)
  .next (mxWord {
      word := encode (.mma z a w k)
      vr := [grp s a]
      fmtOk := ok && !long
      fmtVal2 := if ok then s.thr.sr.vl else 0
      regOk := tileOk s z.toNat && (wbOf s w.toNat).issued && (!isTrio s || a.toNat + grpN s ≤ 28) } s (fun s =>
    if queueFull s 3 || engineWaits s none then .wait s
    else
      let e := { newEntry s .mma 3 with
        z := z.toNat
        wb := w.toNat
        koff := k.toNat
        fmt := f
        vl := vlN s
        vlvalid := vvN s
        ftz := ftzN s
        block := (SMap.get 0 s.thr.cb (vtCb s.thr.sr.vtype)).setWidth 1024
        rows := groupRows (fun r => (rv s r).toNat) a.toNat (grpN s) }
      .done (enterQueue 3 e false s)))

/-- MMAMO (R137). -/
def execMmamo (z : BitVec 4) (a : BitVec 3) (w : BitVec 2) (k : BitVec 7) (s : State) : Host.Outcome State Fault Refusal :=
  let f := fmtN s
  let ok := mxClass f != 0 && !fmtInt f && f != 19 && vtBlk s.thr.sr.vtype = 0
  let long := decide (vmN s / 32 < vlN s)
  .next (mxWord {
      word := encode (.mmamo z a w k)
      mr := [mgrp s a]
      fmtOk := ok && !long
      fmtVal2 := if ok then s.thr.sr.vl else 0
      regOk := z.toNat % 2 = 0 && tileOk s (z.toNat + 1) && (wbOf s w.toNat).issued } s (fun s =>
    if queueFull s 3 || engineWaits s none then .wait s
    else
      let e := { newEntry s .mmamo 3 with
        z := z.toNat
        wb := w.toNat
        koff := k.toNat
        fmt := f
        vl := vlN s
        vlvalid := vvN s
        ftz := ftzN s
        rows := groupRows (fun r => (rm s r).toNat) a.toNat (grpN s) }
      .done (enterQueue 3 e false s)))

/-- ZCLR (R138). -/
def execZclr (z : BitVec 4) (s : State) : Host.Outcome State Fault Refusal :=
  .next (mxWord { word := encode (.zclr z), regOk := tileOk s z.toNat } s (fun s =>
    if queueFull s 3 || engineWaits s none then .wait s
    else .done (enterQueue 3 { newEntry s .zclr 3 with z := z.toNat } false s)))

/-- The entering of `zld` and `zst` (R138): a sync access, and every access behind a pending sync one, waits for the thread's earlier
stores (R251, R252). -/
def tileWord (w : BitVec 32) (op : EngOp) (z : BitVec 4) (a : BitVec 5) (c : BitVec 4) (cause : Nat) (s : State) : State :=
  mxWord { word := w, xr := [a.toNat], regOk := tileOk s z.toNat } s (fun s =>
    let ea := (xr s a).toNat
    if ea % (32 * colsN s) ≠ 0 then .trap cAlign (xr s a) 0 s
    else if 2 ^ 52 ≤ ea then .trap cause (xr s a) 0 s
    else if queueFull s 3 || engineWaits s none || s.thr.pnd.stores.any (fun p => c = 15 || p.cls = 15) then .wait s
    else .done (enterQueue 3 { newEntry s op 3 with z := z.toNat, block := (xr s a).setWidth 1024, cls := c.toNat } false s))

/-- ZLD (R138). -/
def execZld (z : BitVec 4) (a : BitVec 5) (c : BitVec 4) (s : State) : Host.Outcome State Fault Refusal :=
  .next (tileWord (encode (.zld z a c)) .zld z a c cLoad s)

/-- ZST (R138). -/
def execZst (z : BitVec 4) (a : BitVec 5) (c : BitVec 4) (s : State) : Host.Outcome State Fault Refusal :=
  .next (tileWord (encode (.zst z a c)) .zst z a c cStore s)

/-- An MXQ entry touches a tile (R142). -/
def touchesTile (z : Nat) (e : Entry) : Bool :=
  match e.op with
  | .mma | .zclr | .zld | .zst => e.z = z
  | .mmamo => e.z = z || e.z + 1 = z
  | _ => false

/-- ZMV (R138): it waits for earlier MXQ entries that touch its tile (R142). -/
def execZmv (z : BitVec 4) (a : BitVec 5) (w : BitVec 2) (r : BitVec 3) (s : State) : Host.Outcome State Fault Refusal :=
  let word := encode (.zmv z a w r)
  .next (run { word := word, vt := true, roleOk := mayMatrix s, fmtOk := floatOk s, regOk := tileOk s z.toNat, vw := [grp s a], queued := true } s (fun s =>
    let n := colsN s
    let off := 32 * w.toNat
    if s.slot.mxq.any (touchesTile z.toNat) then .wait s
    else
      let s := meetTile z.toNat 0 s
      if tilePoisoned s z.toNat then .trap cLoss (w64 z.toNat) (w64 (2 ^ 63 + r.toNat * n + off + vsN s)) s
      else
        let ew := ewN s
        let t := (tileOf s z.toNat).toNat
        stripWord ew (fun i u =>
          if vvN s ≤ i || n ≤ off + i then .ok (setElemV a.toNat ew i 0 u)
          else
            let v := foperand 9 (ftzN s) (tileElem n t r.toNat (off + i))
            let c := roundTo (fmtN s) (rmN s) (satN s) (ftzN s) v
            floatEl (c.2 ||| sigNV [v]) (setElemV a.toNat ew i c.1) u) s))

/-- An element as an FP32 code, bit for bit where it is FP32 (R138). -/
def widenExact (s : State) (c : Nat) : Nat :=
  if fmtN s = 9 then c
  else match fval (ffmt (fmtN s)) c with
    | .nan _ => if fmtN s = 10 then c * 2 ^ 16 else bits c 15 1 * 2 ^ 31 + 0x7F800000 + bits c 0 10 * 2 ^ 13
    | v => (roundTo 9 .rne false false v).1

/-- ZMVT (R138). -/
def execZmvt (z : BitVec 4) (a : BitVec 5) (w : BitVec 2) (r : BitVec 3) (s : State) : Host.Outcome State Fault Refusal :=
  .next (run { word := encode (.zmvt z a w r), vt := true, roleOk := mayMatrix s, fmtOk := floatOk s, regOk := tileOk s z.toNat, vr := [grp s a] } s (fun s =>
    let n := colsN s
    let off := 32 * w.toNat
    if s.slot.mxq.any (touchesTile z.toNat) then .wait s
    else
      let ew := ewN s
      stripWord ew (fun i u =>
        if i < vvN s && off + i < n then
          .ok (setTile z.toNat (BitVec.ofNat 32768 (setBits (tileOf u z.toNat).toNat (32 * (r.toNat * n + off + i)) 32
            (widenExact s (elemV s a.toNat ew i)))) u)
        else .ok u) s))

/-- WBLD (R140). It reads its descriptor in the sync class, as an engine command reads its block. (DEDUCED, log 92) -/
def execWbld (a : BitVec 5) (w : BitVec 2) (s : State) : Host.Outcome State Fault Refusal :=
  .next (mxWord { word := encode (.wbld a w), xr := [a.toNat] } s (fun s =>
    match loadBytes { s with thr.sr.watch := [] } 15 32 (xr s a).toNat 32 with
    | .trap c v v2 _ => .trap c (w64 v) (w64 (v2.getD 0)) s
    | .wait q => .wait (askFor q s)
    | .ok bs locs =>
      let d := leNat bs
      if !wLegal d then .trap 0x03 (xr s a) 0 s
      else if wBase d % 64 ≠ 0 then .trap cAlign (w64 (wBase d)) 0 s
      else if wUsesSide d && wSide d % 64 != 0 then .trap cAlign (w64 (wSide d)) 0 s
      else match barCheck s (wBar d) with
        | .error c => .trap c (w64 (wBar d)) 0 s
        | .ok off =>
          if wKind d = 2 && s.thr.hid.damaged.any (fun x => x.cls = 7 && x.num = 8 + wBook d) then
            .trap cLoss (w64 (0x708 + wBook d)) (w64 (2 ^ 63)) s
          else if queueFull s 3 || engineWaits s (some off) then .wait s
          else
            let book := if wKind d = 2 then SMap.get 0 s.thr.cb (wBook d) else 0
            let e := { newEntry s .wbfill 3 with
              wb := w.toNat
              bar := off
              vl := colsN s
              block := BitVec.ofNat 1024 (d + book.toNat * 2 ^ 256) }
            let s := setWb w.toNat { wbOf s w.toNat with issued := true } (afterLoad 15 locs s)
            .done (enterQueue 3 e true s)))

/-- MCOMMIT (R143). -/
def execMcommit (a : BitVec 5) (s : State) : Host.Outcome State Fault Refusal :=
  .next (mxWord { word := encode (.mcommit a), xr := [a.toNat] } s (fun s =>
    match barCheck s (xr s a).toNat with
    | .error c => .trap c (xr s a) 0 s
    | .ok off =>
      if queueFull s 3 || engineWaits s (some off) then .wait s
      else .done (enterQueue 3 { newEntry s .mcommit 3 with bar := off } true s)))

/-! ## Performing (R136 to R145) -/

/-- One multiply into a tile with its checks (R144, R145): the tile's state and the flags. Where exactly one row and one column mismatch,
their element is recomputed and counted; another pattern of mismatches is uncorrectable, and the tile is poisoned with what the array
produced; an error that makes none stays. -/
def multiplyTile (p : Product) (us : List Upset) (z : Nat) (s : State) : State × Nat :=
  let put := fun (hurt : Nat → Nat → Nat → List FV) => accumulate p hurt (tileOf s z).toNat
  let set := fun (r : Nat × Nat) => setTile z (BitVec.ofNat 32768 r.1) s
  match mismatches p us with
  | ([], []) => let r := put (hurtOf us); (set r, r.2)
  | ([i], [j]) =>
    let r := put (hurtOf (us.filter (fun u => !(u.row = i && u.col = j))))
    ({ set r with dev := addRas (coreOf s) 1 1 s.dev }, r.2)
  | _ => let r := put (hurtOf us); (mxFail 0x42 z p.e.seq (poisonTile z (set r)), r.2)

/-- A multiply meets its weight-buffer slot: a latent error poisons the slot (R360). -/
def meetWb (n : Nat) (s : State) : State := if latent s 8 n then poisonWb n (dropLatent 8 n s) else s

/-- An `mma`, or one of the two of an `mmamo`. -/
def multiply (e : Entry) (z : Nat) (us : List Upset) (aval : Nat → Nat → FV) (f : FV → FV) (s : State) : State × Nat :=
  multiplyTile ⟨e, blockOf (wbOf s e.wb), colsN s, aval, f⟩ us z (meetTile z e.seq s)

/-- A multiply at the head of MXQ performed: from a poisoned slot its tiles become poisoned, and no flag is merged (DESIGN CHOICE, log 98);
otherwise each tile accumulates. `ps` gives for each tile what to add: the A values and the factor; `parts` are the soft errors. -/
def performMultiply (parts : List (Nat × List Byte)) (e : Entry) (ps : List ((Nat → Nat → FV) × (FV → FV))) (s : State) : State :=
  let s := meetWb e.wb s
  let s := { s with dev := addAcnt e.acct 1 (ps.length * e.rows.length * colsN s * e.vl) s.dev }
  if (wbOf s e.wb).poison then
    let s := mxFail cLoss (0x100 + e.wb) e.seq s
    finishHead 3 e 0 0 0 ((upFrom e.z ps.length).foldl (fun s z => spoilTile z s) s)
  else
    let r := (upFrom 0 ps.length).foldl (fun (x : State × Nat) i =>
      match ps[i]? with
      | none => x
      | some p => let y := multiply e (e.z + i) (upsetsOf i parts) p.1 p.2 x.1; (y.1, x.2 ||| y.2)) (s, 0)
    finishHead 3 e r.2 0 0 r.1

/-- MMA_EXECUTE (R136, R144, R145): slot `slot`; `parts` are the soft errors that strike the array. -/
def execMmaExecute (s : State) : Host.Outcome State Fault Refusal :=
  .next (engineStep 3 (fun x => x = .mma) (fun e t => some (performMultiply s.dev.arg.parts e [(mmaVal e, id)] t)) s)

/-- MMAMO_EXECUTE (R137, R144, R145): slot `slot`; `parts` are the soft errors, of the mean tile and of the variance tile. -/
def execMmamoExecute (s : State) : Host.Outcome State Fault Refusal :=
  .next (engineStep 3 (fun x => x = .mmamo) (fun e t =>
    some (performMultiply s.dev.arg.parts e [(momentVal e false, id), (momentVal e true, squared)] t)) s)

/-- ZCLR_EXECUTE (R138, R345): slot `slot`. -/
def execZclrExecute (s : State) : Host.Outcome State Fault Refusal :=
  .next (engineStep 3 (fun x => x = .zclr) (fun e s =>
    let s := cleanTile e.z (dropLatent 0 e.z s)
    let s := { s with slot.z := SMap.set 0 s.slot.z e.z 0, slot.zdirty := s.slot.zdirty &&& ~~~(BitVec.ofNat 16 (2 ^ e.z)) }
    some (finishHead 3 e 0 0 0 s)) s)

/-- The ORIGIN of a failed MXQ access: the tile or weight slot (R143), or the device that cannot be reached (R382). -/
def mxOrigin (cause dn origin : Nat) : Nat := if cause = 0x43 then dn else origin

/-- ZLD_EXECUTE (R138): slot `slot`. A fault moves no byte, is reported to the next `mcommit` and poisons the tile. -/
def execZldExecute (s : State) : Host.Outcome State Fault Refusal :=
  .next (engineStep 3 (fun x => x = .zld) (fun e s => match engRead e e.block.toNat (32 * colsN s) s with
    | .wait _ q => engineStop 3 (e.prog + 1) e q s
    | .err c o => some (finishHead 3 e 0 0 0 (poisonTile e.z (mxFail c (mxOrigin c o e.z) e.seq (engAnswered e s))))
    | .ok bs t => some (finishHead 3 e 0 0 0 (setTile e.z (BitVec.ofNat 32768 (leNat bs)) (cleanTile e.z (dropLatent 0 e.z (engAnswered e t)))))) s)

/-- ZST_EXECUTE (R138): slot `slot`. -/
def execZstExecute (s : State) : Host.Outcome State Fault Refusal :=
  .next (engineStep 3 (fun x => x = .zst) (fun e s =>
    let t := meetTile e.z e.seq s
    if tilePoisoned t e.z then some (finishHead 3 e 0 0 0 (mxFail cLoss e.z e.seq t))
    else match engWrite e e.block.toNat (leBytes (32 * colsN s) (tileOf s e.z).toNat) s with
      | .wait _ q => engineStop 3 (e.prog + 1) e q s
      | .err c o => some (finishHead 3 e 0 0 0 (mxFail c (mxOrigin c o e.z) e.seq (engAnswered e s)))
      | .ok _ u => some (finishHead 3 e 0 0 0 (engAnswered e u))) s)

/-- How many bytes of a range an engine can read before the first that fails. -/
def goodPrefix (e : Entry) (va n : Nat) (s : State) : Nat :=
  ((upFrom 0 n).find? (fun i => match engRead e (va + i) 1 s with | .ok _ _ => false | _ => true)).getD n

/-- WB_FILL (R140): slot `slot`. Element bytes are read, then side bytes; a fault poisons the slot, sets E of the barrier and is
reported to the next `mcommit`. (DEDUCED, log 33) -/
def execWbFill (s : State) : Host.Outcome State Fault Refusal :=
  .next (engineStep 3 (fun x => x = .wbfill) (fun e s =>
    let d := bits e.block.toNat 0 256
    let n := e.vl
    let origin := 0x100 + e.wb
    let kept := fun u => setWb e.wb { wbOf u e.wb with desc := BitVec.ofNat 256 d, book := BitVec.ofNat 256 (bits e.block.toNat 256 256), n := n } u
    let fail := fun c o got =>
      let at' := mxOrigin c o origin
      finishHead 3 e got c at' (poisonWb e.wb (kept (mxFail c at' e.seq (engAnswered e s))))
    match engRead e (wBase d) (wElemBytes d n) s with
    | .wait _ q => engineStop 3 (e.prog + 1) e q s
    | .err c o => some (fail c o (goodPrefix e (wBase d) (wElemBytes d n) s))
    | .ok bs t => match engRead e (wSide d) (wSideBytes d n) t with
      | .wait _ q => engineStop 3 (e.prog + 1) e q s
      | .err c o => some (fail c o (bs.length + goodPrefix e (wSide d) (wSideBytes d n) t))
      | .ok side t =>
        some (finishHead 3 e (bs.length + side.length) 0 0 (setWb e.wb
          ⟨true, BitVec.ofNat 256 d, BitVec.ofNat 256 (bits e.block.toNat 256 256), n, bs, side, false⟩ (dropLatent 8 e.wb (engAnswered e t))))) s)

/-- MCOMMIT_ARRIVAL (R143): slot `slot`. -/
def execMcommitArrival (s : State) : Host.Outcome State Fault Refusal :=
  .next (engineStep 3 (fun x => x = .mcommit) (fun e s =>
    let x := s.slot.mxerr
    let s := { setQueue 3 s.slot.mxq.tail s with slot.mxerr := none }
    let s := setOut e.bar (outOf s e.bar - 1) s
    some (settleAll (updateBar e.bar (fun b =>
      barArrive (match x with | some r => barErr 4 r.cause r.origin r.seq b | none => b)) s))) s)

end Sys2Proof.Machine
end

