-- ==== Sys2Proof/Machine/Engines.lean ====
section
/-! DEFINITION. The copy, gather, scatter and collective engines: the command words of OP 0 to 3 of major 0x3B and the performing of
their entries (R266 to R277). -/

namespace Sys2Proof.Machine

/-! ## Issue (R267, R268) -/

/-- What the table checks of a command block lead to, after the block has been read. -/
inductive BlkCheck where
  | ok (list : List Byte) (seq : Nat) (s : State)
  | wait (ask : Option (Nat × Nat))
  | trap (cause : Nat) (val val2 : Word)

/-- The alignment checks made at issue: pairs of an address and whether it passes; the first that fails. -/
def firstMisaligned (l : List (Nat × Bool)) : Option Nat := (l.find? (fun p => !p.2)).map Prod.fst

/-- The check that an address is a multiple. -/
def multipleOf (a m : Nat) : Nat × Bool := (a, a % m = 0)

/-- An engine command word (R268): address checks, the block read in the sync class, its table, its alignments, room in the queue.
`seq` numbers a collective among those of its group or identifier. -/
def engineWord (w : BitVec 32) (op : EngOp) (q len : Nat) (nr : BitVec 1) (a b : BitVec 5) (table : Nat → State → BlkCheck)
    (aligned : Nat → List (Nat × Bool)) (s : State) : State :=
  run { word := w, xr := [a.toNat, b.toNat] } s (fun s =>
    let blk := (xr s a).toNat
    if blk % 64 ≠ 0 then .trap cAlign (xr s a) 0 s
    else match barCheck s (xr s b).toNat with
      | .error c => .trap c (xr s b) 0 s
      | .ok off => match loadBytes { s with thr.sr.watch := [] } 15 1 blk len with
        | .trap c v v2 _ => .trap c (w64 v) (w64 (v2.getD 0)) s
        | .wait q => .wait (askFor q s)
        | .ok bs locs => match table (leNat bs) (afterLoad 15 locs s) with
          | .trap c v v2 => .trap c v v2 s
          | .wait q => .wait (askFor q s)
          | .ok list k t => match firstMisaligned (aligned (leNat bs)) with
            | some x => .trap cAlign (w64 x) 0 s
            | none =>
              if queueFull s q || engineWaits s (some off) then .wait s
              else .done (enterQueue q { newEntry t op q with
                bar := off
                nr := nr = 1
                block := BitVec.ofNat 1024 (leNat bs)
                list := list
                koff := k } true t))

/-- A table without lists: kept or not. -/
def plainTable (a : BitVec 5) (legal : Nat → Bool) (b : Nat) (s : State) : BlkCheck :=
  if legal b then .ok [] 0 s else .trap 0x03 (xr s a) 0

/-! ## Copies (R270) -/

/-- The source descriptor of a copy block. -/
def cSrc (b : Nat) : Nat := bits b 0 512
/-- The destination descriptor. -/
def cDst (b : Nat) : Nat := bits b 512 512

/-- A legal copy block. FLAGS other than BITOFF are ignored. -/
def copyLegal (b : Nat) : Bool :=
  dLegal (cSrc b) && dLegal (cDst b) && dFmt (cSrc b) = dFmt (cDst b)
    && dBlk (cSrc b) = dBlk (cDst b) && dCount (cSrc b) = dCount (cDst b)

/-- The alignment checks of a copy block, for elements of 8 bits or more. -/
def copyAligned (b : Nat) : List (Nat × Bool) :=
  let ew := fmtEw (dFmt (cSrc b))
  let ok := fun d => ew < 8 || (dBase d % (ew / 8) = 0 && dBitoff d = 0)
  [(dBase (cSrc b), ok (cSrc b)), (dBase (cDst b), ok (cDst b))]

/-- CPY (R268, R270). -/
def execCpy (a b : BitVec 5) (n : BitVec 1) (s : State) : Host.Outcome State Fault Refusal :=
  let w := encode (.cpy a b n)
  .next (engineWord w .cpy 0 128 n a b (plainTable a copyLegal) copyAligned s)

/-- The bytes of an access that an engine has reached, with masks and data. -/
def placed (locs : List Loc) (bs : List (Byte × Byte)) : List (Nat × Byte × Byte) := (locs.zip bs).map (fun p => (p.1.key, p.2.1, p.2.2))

/-- One element of a copy, with its scale byte where a block begins: the places it reads and the bytes it writes. -/
def copyStep (e : Entry) (t : Nat) (s : State) : Eng (List Nat × List (Nat × Byte × Byte)) :=
  let src := cSrc e.block.toNat
  let dst := cDst e.block.toNat
  let ew := fmtEw (dFmt src)
  let blk := dBlk src
  let scaled : Eng (List Nat × List (Nat × Byte × Byte)) :=
    if blk ≠ 0 ∧ t % blk = 0 then
      (engPlaces e (dScale src t) 1 s).bind (fun ks s => (engReach e true (dScale dst t) 1 s).bind (fun locs s =>
        .ok (ks, placed locs (ks.map (fun k => (0xFF, readByte s.dev k)))) s))
    else .ok ([], []) s
  scaled.bind (fun sc s =>
    let x := bitSpan (dBit src t) ew
    let y := bitSpan (dBit dst t) ew
    (engPlaces e x.1 x.2.1 s).bind (fun ks s => (engReach e true y.1 y.2.1 s).bind (fun locs s =>
      let code := bits (leNat (ks.map (readByte s.dev))) x.2.2 ew
      let mask := (2 ^ ew - 1) * 2 ^ y.2.2
      .ok (sc.1 ++ ks, sc.2 ++ placed locs ((upFrom 0 y.2.1).map (fun i =>
        (BitVec.ofNat 8 (bits mask (8 * i) 8), BitVec.ofNat 8 (bits (code * 2 ^ y.2.2) (8 * i) 8))))) s)))

/-- The bytes of the first t elements and their scales. -/
def copyBytes (b t : Nat) : Nat :=
  let d := cSrc b
  ceilDiv (t * fmtEw (dFmt d)) 8 + (if dBlk d ≠ 0 then ceilDiv t (dBlk d) else 0)

/-- Masked bytes with each place once, later ones over earlier ones. -/
def mergeBytes (bs : List (Nat × Byte × Byte)) : List (Nat × Byte × Byte) :=
  bs.foldl (fun (m : SMap (Byte × Byte)) p =>
    let o := SMap.get (0, 0) m p.1
    SMap.set (0, 0) m p.1 (o.1 ||| p.2.1, (o.2 &&& ~~~p.2.1) ||| (p.2.2 &&& p.2.1))) []

/-- What a copy has carried out in one turn, written and counted: byte by byte, so that one record is posted for a line and a granule
written whole is clean. (DEDUCED, log 91) -/
def copyPut (e : Entry) (keys : List Nat) (bs : List (Nat × Byte × Byte)) (s : State) : State :=
  engAnswered e (engPut e 0 (mergeBytes bs) (countRead e keys.eraseDups s))

/-- The element begins another line of the destination than the one before it. -/
def newCopyLine (e : Entry) : Bool :=
  let dst := cDst e.block.toNat
  e.prog = 0 || dBit dst e.prog / 1024 != dBit dst (e.prog - 1) / 1024

/-- Elements carried out from `prog` on: `left` of them and on to the end of a line of the destination; the entry is done at the last
element or at a fault. `p` is the least `prog` that is progress. -/
def copyRun (p : Nat) : Nat → Nat → Entry → List Nat × List (Nat × Byte × Byte) → State → Option State
  | n, left, e, acc, s =>
    let count := dCount (cSrc e.block.toNat)
    let put := copyPut e acc.1 acc.2
    if count ≤ e.prog then some (finishHead 0 e (copyBytes e.block.toNat count) 0 0 (put s))
    else match n with
      | 0 => some (setHead 0 e (put s))
      | n + 1 =>
        if left = 0 && newCopyLine e then some (setHead 0 e (put s))
        else match copyStep e e.prog s with
        | .wait _ q => engineStop 0 p e q (if p ≤ e.prog then put s else s)
        | .err c o => some (finishHead 0 e (copyBytes e.block.toNat e.prog) c o (put s))
        | .ok x t => copyRun p n (left - 1) { e with prog := e.prog + 1 } (acc.1 ++ x.1, acc.2 ++ x.2) t

/-- The number of elements a turn asks for: all that are left when it names none. (DESIGN CHOICE, log 27) -/
def turnCount (n all : Nat) : Nat := if n = 0 then all else n

/-- CPY_EXECUTE (R270): slot `slot`; at least `num` elements, on to the end of a line, or all that are left when 0. -/
def execCpyExecute (s : State) : Host.Outcome State Fault Refusal :=
  .next (engineStep 0 (fun x => x = .cpy) (fun e t =>
    let all := dCount (cSrc e.block.toNat) + 1
    copyRun (e.prog + 1) all (turnCount s.dev.arg.num all) e ([], []) t) s)

/-! ## Gathers and scatters (R271 to R274) -/

/-- LIST of a gather or scatter block. -/
def gList (b : Nat) : Nat := bfield b 0 8
/-- LOCAL. -/
def gLocal (b : Nat) : Nat := bfield b 8 8
/-- COUNT. -/
def gCount (b : Nat) : Nat := bfield b 16 4
/-- The element size in bytes. -/
def gSize (b : Nat) : Nat := 2 ^ bfield b 20 1
/-- TAIL. -/
def gTail (b : Nat) : Nat := bfield b 24 8

/-- A legal gather or scatter block. -/
def gatherLegal (tail : Bool) (b : Nat) : Bool :=
  gCount b ≤ 2 ^ 24 && bfield b 20 1 ≤ 6 && bfield b 21 3 = 0 && (tail || gTail b = 0) && bfield b 32 32 = 0

/-- Its alignment checks. -/
def gatherAligned (b : Nat) : List (Nat × Bool) :=
  [multipleOf (gList b) 8, multipleOf (gTail b) 8, multipleOf (gLocal b) (gSize b)]

/-- RGATH (R268, R271, R272). -/
def execRgath (a b : BitVec 5) (n : BitVec 1) (s : State) : Host.Outcome State Fault Refusal :=
  let w := encode (.rgath a b n)
  .next (engineWord w .rgath 1 64 n a b (plainTable a (gatherLegal false)) gatherAligned s)

/-- RSCAT (R268, R271, R273). -/
def execRscat (a b : BitVec 5) (n : BitVec 1) (s : State) : Host.Outcome State Fault Refusal :=
  let w := encode (.rscat a b n)
  .next (engineWord w .rscat 1 64 n a b (plainTable a (gatherLegal true)) gatherAligned s)

/-- The address of list element k, which must be a multiple of the element size. -/
def listed (e : Entry) (k : Nat) (s : State) : Eng Nat :=
  (engRead e (wrap (gList e.block.toNat + 8 * k)) 8 s).bind (fun bs s =>
    if leNat bs % gSize e.block.toNat ≠ 0 then .err cAlign 0 else .ok (leNat bs) s)

/-- One element of a gather: it is read, then written. -/
def gatherStep (e : Entry) (k : Nat) (s : State) : Eng Unit :=
  let z := gSize e.block.toNat
  (listed e k s).bind (fun va s => (engRead e va z s).bind (fun bs s => engWrite e (wrap (gLocal e.block.toNat + k * z)) bs s))

/-- Elements of a gather from `prog` on, up to n of them. An element that fails is not written and the rest go on; the error of the
lowest is kept in `cls` and `z` (cause and origin), the bytes written in `acc`. -/
def gatherRun (p : Nat) : Nat → Entry → State → Option State
  | n, e, s =>
    if gCount e.block.toNat ≤ e.prog then some (finishHead 1 e e.acc e.cls e.z s)
    else match n with
      | 0 => some (setHead 1 e s)
      | n + 1 => match gatherStep e e.prog s with
        | .wait _ q => engineStop 1 p e q s
        | .err c o =>
          gatherRun p n (if e.cls = 0 then { e with prog := e.prog + 1, cls := c, z := o } else { e with prog := e.prog + 1 }) (engAnswered e s)
        | .ok _ t => gatherRun p n { e with prog := e.prog + 1, acc := e.acc + gSize e.block.toNat } (engAnswered e t)

/-- RGATH_EXECUTE (R272): slot `slot`; up to `num` elements, or all that are left when 0. -/
def execRgathExecute (s : State) : Host.Outcome State Fault Refusal :=
  .next (engineStep 1 (fun x => x = .rgath) (fun e t => gatherRun (e.prog + 1) (turnCount s.dev.arg.num (gCount e.block.toNat + 1)) e t) s)

/-- An element of a train: the places it goes to and its bytes. -/
abbrev Sent := Nat × List Byte

/-- Every listed address translated, and every local element read, from k on (R273). An element lies in one page, at rising places. -/
def scatterPlan (e : Entry) : Nat → Nat → State → Eng (List Sent)
  | 0, _, s => .ok [] s
  | n + 1, k, s =>
    let z := gSize e.block.toNat
    (listed e k s).bind (fun va s => match engXlate true va z s with
      | .error c => .err c 0
      | .ok locs => (engRead e (wrap (gLocal e.block.toNat + k * z)) z s).bind (fun bs s =>
        (scatterPlan e n (k + 1) s).bind (fun r s => .ok (((locs.map (·.key)).headD 0, bs) :: r) s)))

/-- The device an element goes to, seen from a device: its own for the scratchpad. -/
def sentDev (own : Nat) (x : Sent) : Nat := if isScratch x.1 then own else paDev x.1

/-- The local address of the tail counter, when TAIL is nonzero: it must translate to device memory with W = 1 (R273). -/
def tailAddr (e : Entry) (s : State) : Except Nat (Option Nat) :=
  let t := gTail e.block.toNat
  if t = 0 then .ok none
  else match engXlate true t 8 s with
    | .error c => .error c
    | .ok locs => match locs with
      | l :: _ => if (l.kind = .devMem || l.kind = .remote) && !isScratch l.key then .ok (some (paLocal l.key)) else .error cRights
      | [] => .ok none

/-- A list cut into pieces of n, numbered from i on. -/
def cutInto (n : Nat) : Nat → Nat → List Sent → List (Nat × List Sent)
  | 0, _, _ => []
  | fuel + 1, i, l => if l.length ≤ n then [(i, l)] else (i, l.take n) :: cutInto n fuel (i + 1) (l.drop n)

/-- The train of one device in segments of at most 4 KiB of elements (R273, R380). -/
def trainOf (own z : Nat) (tail : Option Nat) (dn : Nat) (xs : List Sent) : List Segment :=
  let mine := xs.filter (fun x => sentDev own x = dn)
  let cut := cutInto (4096 / z) mine.length 0 mine
  cut.map (fun p => ⟨dn, p.1, p.2, p.1 + 1 = cut.length, tail⟩)

/-- A scatter's segments: a train for each device in the order of its first element (R273). -/
def trainsOf (own : Nat) (e : Entry) (tail : Option Nat) (xs : List Sent) : List Segment :=
  ((xs.map (sentDev own)).eraseDups).flatMap (fun dn => trainOf own (gSize e.block.toNat) tail dn xs)

/-- The elements of a segment's train. -/
def trainLength (e : Entry) (g : Segment) : Nat := ((e.plan.filter (fun x => x.train = g.train)).map (fun x => x.elems.length)).sum

/-- Elements applied at their homes in order, each as a plain store (R273). -/
def applyElems (e : Entry) (xs : List Sent) (s : State) : State :=
  xs.foldl (fun s x => engPut e 0 (wholeBytes (upFrom x.1 x.2.length) x.2) s) s

/-- The counter add at the end of a train: the count of its elements to the doubleword at the same local address (R273). -/
def addTail (e : Entry) (g : Segment) (s : State) : State :=
  match g.tail with
  | none => s
  | some l =>
    let key := g.train * 2 ^ 48 + l
    engPut e 1 (wholeBytes (upFrom key 8) (leBytes 8 (readNat s.dev key 8 + trainLength e g))) s

/-- A segment applied at its device, with the counter add after the last one of its train. -/
def applySeg (e : Entry) (g : Segment) (s : State) : State :=
  let t := applyElems e g.elems s
  if g.last then addTail e g t else t

/-- A segment to another device waits for its acknowledgement: it leaves on the plane of its train's first element (R380) in one turn and is
applied in a later one. (DESIGN CHOICE, log 85) -/
def segWait (e : Entry) (g : Segment) (s : State) : Option (Nat × Option (Nat × Nat × Nat × Nat)) :=
  match g.elems with
  | [] => none
  | x :: _ =>
    let own := engOwner s.cur.1 e.op + 1
    let way := (((e.plan.find? (fun y => y.train = g.train)).map (fun y => (y.elems.map Prod.fst).headD 0))).getD x.1
    let len := (g.elems.map (fun y => y.2.length)).sum
    if g.train = s.dev.boot.devnum then none
    else match readReq s.dev own x.1 with
      | some r => if r.held then some (g.train, none) else none
      | none => some (g.train, if mayLeaveBy s.dev way x.1 len then some (own, way, x.1, len) else none)

/-- Segments sent from `prog` on, n of them; the bytes of whole trains are counted in `acc`. -/
def trainsRun (p : Nat) : Nat → Entry → State → Option State
  | n, e, s =>
    match e.plan[e.prog]? with
    | none => some (finishHead 1 e e.acc 0 0 s)
    | some g => match n with
      | 0 => some (setHead 1 e s)
      | n + 1 =>
        if g.train != s.dev.boot.devnum && unreachable s.dev g.train then some (finishHead 1 e e.acc 0x43 g.train (engAnswered e s))
        else match segWait e g s with
          | some (_, some r) => let t := setHead 1 e s; some { t with dev := sendReqBy r.1 r.2.1 r.2.2.1 r.2.2.2 t.dev }
          | some (_, none) => engineStop 1 p e none s
          | none =>
            let done := if g.last then trainLength e g * gSize e.block.toNat else 0
            trainsRun p n { e with prog := e.prog + 1, acc := e.acc + done } (engAnswered e (applySeg e g s))

/-- A scatter before its first segment: everything is translated and read, and a failure ends it with nothing sent. -/
def scatterBegin (e : Entry) (s : State) : Except (Option State) (Entry × State) :=
  if !e.plan.isEmpty then .ok (e, s)
  else match scatterPlan e (gCount e.block.toNat) 0 s with
    | .wait _ q => .error (engineStop 1 (e.prog + 1) e q s)
    | .err c o => .error (some (finishHead 1 e 0 c o (engAnswered e s)))
    | .ok xs t => match tailAddr e t with
      | .error c => .error (some (finishHead 1 e 0 c 0 (engAnswered e s)))
      | .ok tail => .ok ({ e with plan := trainsOf s.dev.boot.devnum e tail xs }, engAnswered e t)

/-- RSCAT_EXECUTE (R273): slot `slot`; up to `num` segments, or all that are left when 0. -/
def execRscatExecute (s : State) : Host.Outcome State Fault Refusal :=
  .next (engineStep 1 (fun x => x = .rscat) (fun e t => match scatterBegin e t with
    | .error u => u
    | .ok (e', u) => trainsRun (if e.plan.isEmpty then 0 else e.prog + 1) (turnCount s.dev.arg.num (e'.plan.length + 1)) e' u) s)

/-! ## Collectives (R275 to R277) -/

/-- SRC of a collective block. -/
def kSrc (b : Nat) : Nat := bfield b 0 8
/-- DST. -/
def kDst (b : Nat) : Nat := bfield b 8 8
/-- COUNT. -/
def kCount (b : Nat) : Nat := bfield b 16 4
/-- FMT. -/
def kFmt (b : Nat) : Nat := bfield b 20 1
/-- OP. -/
def kOp (b : Nat) : Nat := bfield b 21 1
/-- ROP. -/
def kRop (b : Nat) : Nat := bfield b 22 1
/-- KIND. -/
def kKind (b : Nat) : Nat := bfield b 23 1
/-- GROUP. -/
def kGroup (b : Nat) : Nat := bfield b 24 1
/-- ROOT. -/
def kRoot (b : Nat) : Nat := bfield b 26 2
/-- NMEM as the block has it. -/
def kNmem (b : Nat) : Nat := bfield b 28 2
/-- MLIST. -/
def kMlist (b : Nat) : Nat := bfield b 32 8
/-- COLLID. -/
def kId (b : Nat) : Nat := bfield b 40 8

/-- The slots of the launch of the slot in focus that are members of a group: slot numbers in ascending launch slot order (R212). -/
def memberSlots (s : State) (g : Nat) : List Nat :=
  match SMap.find s.dev.launches s.slot.launch with
  | none => [s.cur.1]
  | some l => if g = 0 then l.slots else
    let js := SMap.get [] l.gtab g
    ((upFrom 0 l.slots.length).zip l.slots).filterMap (fun p => if js.contains p.1 then some p.2 else none)

/-- The slot in focus is a member of a group (R212). -/
def isMember (s : State) (g : Nat) : Bool := g = 0 || s.slot.groups.contains g

/-- The fixed part of a collective block's table. -/
def collLegal (b : Nat) : Bool :=
  let red := kOp b = 0 || kOp b = 2
  let f := kFmt b
  kCount b ≤ 2 ^ 24 && kOp b ≤ 3 && kKind b ≤ 1
    && (if red then (5 ≤ f && f ≤ 11) && kRop b ≤ 2 else 8 ≤ fmtEw f && kRop b = 0)
    && (kOp b = 3 || kRoot b = 0)
    && (if kKind b = 0 then kNmem b = 0 && kMlist b = 0 && kId b = 0 else kGroup b = 0 && 1 ≤ kNmem b && kNmem b ≤ 32768)
    && bfield b 25 1 = 0 && bfield b 30 2 = 0 && bfield b 48 16 = 0

/-- The device numbers of a member list. -/
def listDevs : List Byte → List Nat
  | a :: b :: r => (a.toNat + 256 * b.toNat) :: listDevs r
  | _ => []

/-- The collectives of a group that the slot in focus has issued (R276). -/
def collCount (s : State) (g : Nat) : Nat :=
  match SMap.find s.dev.launches s.slot.launch with
  | some l => SMap.get 0 l.collN (s.slot.lslot * 256 + g)
  | none => 0

/-- The checks of a collective's block and member list. -/
def collTable (w : BitVec 32) (a : BitVec 5) (b : Nat) (s : State) : BlkCheck :=
  let bad := BlkCheck.trap 0x03 (xr s a) 0
  if !collLegal b then bad
  else if kKind b = 0 then
    if kOp b = 3 && (memberSlots s (kGroup b)).length ≤ kRoot b then bad
    else if !isMember s (kGroup b) then .trap 0x04 (w.setWidth 64) 0
    else .ok [] (collCount s (kGroup b)) s
  else if kOp b = 3 && kNmem b ≤ kRoot b then bad
  else match loadBytes { s with thr.sr.watch := [] } 15 1 (kMlist b) (2 * kNmem b) with
    | .trap c v v2 _ => .trap c (w64 v) (w64 (v2.getD 0))
    | .wait q => .wait q
    | .ok bs locs =>
      let dns := listDevs bs
      if dns.eraseDups.length ≠ dns.length || !dns.contains s.dev.boot.devnum then bad
      else .ok bs (SMap.get 0 s.dev.collN (s.slot.ctx * 2 ^ 64 + kId b)) (afterLoad 15 locs s)

/-- The alignment checks of a collective. -/
def collAligned (b : Nat) : List (Nat × Bool) :=
  [multipleOf (kSrc b) (fmtEw (kFmt b) / 8), multipleOf (kDst b) (fmtEw (kFmt b) / 8)]

/-- The collective just entered counted: the next one of its group or identifier joins the next collective. -/
def countColl (before after : State) : State :=
  if after.slot.clq.length ≤ before.slot.clq.length then after else
  match after.slot.clq.getLast? with
  | none => after
  | some e =>
    let b := e.block.toNat
    if kKind b = 0 then
      match SMap.find after.dev.launches after.slot.launch with
      | some l =>
        let l := { l with collN := SMap.set 0 l.collN (after.slot.lslot * 256 + kGroup b) (e.koff + 1) }
        { after with dev.launches := SMap.put after.dev.launches after.slot.launch l }
      | none => after
    else { after with dev.collN := SMap.set 0 after.dev.collN (after.slot.ctx * 2 ^ 64 + kId b) (e.koff + 1) }

/-- COLL (R268, R275, R276). -/
def execColl (a b : BitVec 5) (n : BitVec 1) (s : State) : Host.Outcome State Fault Refusal :=
  let w := encode (.coll a b n)
  .next (countColl s (engineWord w .coll 2 64 n a b (collTable w a) collAligned s))

/-- A reduction's step on two codes of the accumulator format (R277): integers wrap, floats round to nearest even, minima and maxima
as R118. -/
def reduceCode (rop fmt x y : Nat) : Nat :=
  if fmtInt fmt then
    (match rop with
     | 0 => (x + y) % 2 ^ fmtEw fmt
     | 1 => if intElem fmt x ≤ intElem fmt y then x else y
     | _ => if intElem fmt x ≤ intElem fmt y then y else x)
  else
    let v := fval (ffmt fmt) x
    let u := fval (ffmt fmt) y
    (roundTo fmt .rne false false (match rop with
      | 0 => (fvAdd .rne v u).1
      | 1 => (fvMinMax false v u).1
      | _ => (fvMinMax true v u).1)).1

/-- The accumulator format (R277). -/
def accFmt (f : Nat) : Nat := if f = 10 ∨ f = 11 then 9 else f

/-- A code of a format as a code of its accumulator format. -/
def toAcc (f c : Nat) : Nat := if accFmt f = f then c else (roundTo 9 .rne false false (fval (ffmt f) c)).1

/-- One element reduced over the members in index order. -/
def reduceElem (rop f : Nat) : List Nat → Nat
  | [] => 0
  | x :: r =>
    let a := r.foldl (fun acc y => reduceCode rop (accFmt f) acc (toAcc f y)) (toAcc f x)
    if fmtInt f then a else (roundTo f .rne false false (fval (ffmt (accFmt f)) a)).1

/-- The result bytes of a member: its index, the number of members and every member's SRC bytes. -/
def collResult (b idx nmem : Nat) (srcs : List (List Byte)) : List Byte :=
  let ew := fmtEw (kFmt b)
  let w := ew / 8
  let n := kCount b
  let nums := srcs.map leNat
  match kOp b with
  | 1 => (upFrom 0 nmem).flatMap (fun m => ((srcs[m]?).getD []).take (n * w))
  | 3 => ((srcs[kRoot b]?).getD []).take (n * w)
  | op =>
    let first := if op = 2 then idx * n else 0
    (upFrom first n).flatMap (fun i => leBytes w (reduceElem (kRop b) (kFmt b) (nums.map (fun x => elemOf x ew i))))

/-- The number of SRC bytes a member reads. -/
def collSrcBytes (b idx nmem : Nat) : Nat :=
  let w := fmtEw (kFmt b) / 8
  match kOp b with
  | 2 => nmem * kCount b * w
  | 3 => if idx = kRoot b then kCount b * w else 0
  | _ => kCount b * w

/-- A member slot's place in a collective of its launch: its CLQ head, if that is the collective's entry and not performed. -/
def collHead (s : State) (slot g k : Nat) : Option Entry :=
  match (slotAt s slot).clq.head? with
  | some e => if e.op = .coll && e.done.isNone && kKind e.block.toNat = 0 && kGroup e.block.toNat = g && e.koff = k then some e else none
  | none => none

/-- What members of one collective must agree on (R276). -/
def collKey (e : Entry) : Nat × Nat × Nat × Nat × Nat × Nat × Nat × List Byte :=
  let b := e.block.toNat
  (kOp b, kRop b, kFmt b, kCount b, kKind b, kNmem b, kRoot b, e.list)

/-- SRC bytes of a member on this device, read in its own slot. -/
def collRead (slot idx nmem : Nat) (e : Entry) (s : State) : State × Eng (List Byte) :=
  let t := focus s slot 1
  match engRead e (kSrc e.block.toNat) (collSrcBytes e.block.toNat idx nmem) t with
  | .ok bs u => (u, .ok bs u)
  | r => (t, r)

/-- What a member's DST still waits for. -/
def collReach (slot nmem : Nat) (e : Entry) (s : State) : Eng (List Loc) :=
  engReach e true (kDst e.block.toNat) (fmtEw (kFmt e.block.toNat) / 8 * kCount e.block.toNat * (if kOp e.block.toNat = 1 then nmem else 1)) (focus s slot 1)

/-- A member's result written in its own slot and its entry performed. -/
def collWrite (slot : Nat) (e : Entry) (bs : List Byte) (s : State) : State :=
  let t := focus s slot 1
  match engWrite e (kDst e.block.toNat) bs t with
  | .ok _ u => finishHead 2 e bs.length 0 0 (engAnswered e u)
  | .err c o => finishHead 2 e 0 c o (engAnswered e t)
  | .wait _ _ => t

/-- The first wait among outcomes: whether there is one, and its request. -/
def firstWait {α : Type} (l : List (Eng α)) : Option (Option (Nat × Nat × Nat)) :=
  let ws := l.filterMap (fun x => match x with | .wait _ q => some q | _ => none)
  if ws.isEmpty then none else some (ws.findSome? id)

/-- A request that leaves, if one may. -/
def sendAsk (q : Option (Nat × Nat × Nat)) (s : State) : Option State :=
  q.map (fun r => { s with dev := sendReq r.1 r.2.1 r.2.2 s.dev })

/-- A collective of member slots (R276, R277). A member whose SRC fails ends with its error; the others then wait (R274). (DEDUCED, log 31) -/
def collGroup (e : Entry) (s : State) : Option State :=
  let b := e.block.toNat
  let slots := memberSlots s (kGroup b)
  let heads := slots.map (fun n => collHead s n (kGroup b) e.koff)
  if heads.any Option.isNone then none
  else
    let es := heads.filterMap id
    let home := s.cur
    if es.any (fun x => collKey x != collKey e) then
      some (focus ((slots.zip es).foldl (fun s p => finishHead 2 p.2 0 0x44 0 (focus s p.1 1)) s) home.1 home.2)
    else
      let ms := (upFrom 0 slots.length).zip (slots.zip es)
      let r := ms.foldl (fun (x : State × List (Nat × Eng (List Byte))) m =>
        let y := collRead m.2.1 m.1 slots.length m.2.2 x.1; (y.1, x.2 ++ [(m.1, y.2)])) (s, [])
      let bad := r.2.filterMap (fun p => match p.2 with | .err c o => some (p.1, c, o) | _ => none)
      match firstWait (r.2.map Prod.snd) with
      | some q => sendAsk q s
      | none =>
        if !bad.isEmpty then
          some (focus (bad.foldl (fun s p => match slots[p.1]?, es[p.1]? with
            | some n, some x => let t := focus s n 1; finishHead 2 x 0 p.2.1 p.2.2 (engAnswered x t)
            | _, _ => s) s) home.1 home.2)
        else match firstWait (ms.map (fun m => collReach m.2.1 slots.length m.2.2 r.1)) with
          | some q => sendAsk q s
          | none =>
            let srcs := r.2.map (fun p => match p.2 with | .ok bs _ => bs | _ => [])
            some (focus (ms.foldl (fun s m => collWrite m.2.1 m.2.2 (collResult b m.1 slots.length srcs) s) r.1) home.1 home.2)

/-- A collective of devices: `parts` gives the SRC bytes of the members on other devices by member index, `ok` that their parameters
agree with this member's. -/
def collDevices (e : Entry) (ok : Bool) (parts : List (Nat × List Byte)) (s : State) : Option State :=
  let b := e.block.toNat
  let dns := listDevs e.list
  let idx := dns.idxOf s.dev.boot.devnum
  if !ok then some (finishHead 2 e 0 0x44 0 s)
  else if (upFrom 0 dns.length).any (fun i => i != idx && !(parts.any (fun p => p.1 = i))) then none
  else match engRead e (kSrc b) (collSrcBytes b idx dns.length) s with
    | .wait _ q => engineStop 2 (e.prog + 1) e q s
    | .err c o => some (finishHead 2 e 0 c o (engAnswered e s))
    | .ok mine t =>
      let srcs := (upFrom 0 dns.length).map (fun i => if i = idx then mine else ((parts.find? (fun p => p.1 = i)).map Prod.snd).getD [])
      let out := collResult b idx dns.length srcs
      let sent := collSrcBytes b idx dns.length
      match engWrite e (kDst b) out (if dns.length = 1 then t else { t with dev := addAcnt e.acct 4 sent t.dev }) with
      | .wait _ q => engineStop 2 (e.prog + 1) e q s
      | .err c o => some (finishHead 2 e 0 c o (engAnswered e s))
      | .ok _ u => some (finishHead 2 e out.length 0 0 (engAnswered e u))

/-- COLL_EXECUTE (R277): slot `slot`; for KIND 1 `parts` holds the other members' SRC bytes by member index and `ok` says that all
parameters agree. -/
def execCollExecute (s : State) : Host.Outcome State Fault Refusal :=
  .next (engineStep 2 (fun x => x = .coll) (fun e t =>
    if kKind e.block.toNat = 0 then collGroup e t else collDevices e s.dev.arg.ok s.dev.arg.parts t) s)

/-! ## Time limit (R274) -/

/-- DST bytes of a collective that times out: each position of `at` holds its result, where every member's SRC is known. -/
def collPartial (e : Entry) (at' : List Nat) (parts : List (Nat × List Byte)) (s : State) : State :=
  let b := e.block.toNat
  let dns := listDevs e.list
  let out := collResult b (dns.idxOf s.dev.boot.devnum) dns.length ((upFrom 0 dns.length).map (fun i => ((parts.find? (fun p => p.1 = i)).map Prod.snd).getD []))
  if kKind b = 0 || at'.isEmpty || parts.length < dns.length then s
  else match engWriteMasked e (kDst b) ((upFrom 0 out.length).map (fun i => (if at'.contains i then 0xFF else 0, out.getD i 0))) s with
    | .ok _ t => t
    | _ => s

/-- The elements of the unacknowledged train that were applied all the same, by their places in it, and its counter add, which takes
place only if every element was applied and `add` says so (R274). -/
def trainPartial (e : Entry) (at' : List Nat) (add : Bool) (s : State) : State :=
  match e.plan[e.prog]? with
  | none => s
  | some g =>
    let rest := ((e.plan.drop e.prog).filter (fun x => x.train = g.train)).flatMap (·.elems)
    let t := applyElems e (((upFrom 0 rest.length).zip rest).filterMap (fun p => if at'.contains p.1 then some p.2 else none)) s
    if add && (upFrom 0 rest.length).all at'.contains then addTail e g t else t

/-- The device that the head of a queue waits for: that of its unanswered request, that of an access it may not make yet, or for a collective
of devices the member `num` names (R274). -/
def waitsFor (e : Entry) (num : Nat) (s : State) : Option Nat :=
  match s.dev.fab.reqs.find? (fun r => r.own / 2 = engOwner s.cur.1 e.op / 2) with
  | some r => some r.dst
  | none => match e.op with
    | .coll =>
      if kKind e.block.toNat = 0 then some s.dev.boot.devnum
      else ((listDevs e.list)[num]?).bind (fun dn => if dn = s.dev.boot.devnum then none else some dn)
    | .rgath => match gatherStep e e.prog s with | .wait dn _ => some dn | _ => none
    | _ => match scatterPlan e (gCount e.block.toNat) 0 s with
      | .wait dn _ => some dn
      | _ => (e.plan[e.prog]?).bind (fun g => (segWait e g s).map Prod.fst)

/-- REMOTE_TIMEOUT (R274): the head of queue `idx` (1 GSQ, 2 CLQ) of slot `slot` has waited 2^28 cycles, a collective of devices for member
`num`. For a scatter `nats` are the elements of the unacknowledged train that were applied and `ok` says that its counter add took
place; for a collective `nats` are the DST bytes that already hold their result and `parts` every member's SRC. -/
def execRemoteTimeout (s : State) : Host.Outcome State Fault Refusal :=
  .next (within s.dev.arg.slot 1 (fun s =>
    let a := s.dev.arg
    let q := if a.idx = 2 then 2 else 1
    match headEntry s q (fun x => x = .rgath || x = .rscat || x = .coll) with
    | none => s
    | some e =>
      if cycNow s - e.start.getD (cycNow s) < 2 ^ 28 then s
      else match waitsFor e a.num s with
        | none => s
        | some dn =>
          let t := engAnswered e s
          match e.op with
          | .coll => finishHead q e 0 0x43 dn (collPartial e a.nats a.parts t)
          | .rgath => finishHead q e e.acc 0x43 dn t
          | _ => finishHead q e e.acc 0x43 dn (trainPartial e a.nats a.ok t)) s)

end Sys2Proof.Machine
end

