-- ==== Sys2Proof/Machine/Prefix.lean ====
section
/-! DEFINITION. The prefix engine: OP 4 to 7 of major 0x3B and the performing of PXQ's entries (R302 to R314). -/

namespace Sys2Proof.Machine

/-! ## Command blocks (R305, R306) -/

/-- KEYS of a prefix block. -/
def pKeys (b : Nat) : Nat := bfield b 0 8
/-- PAGES. -/
def pPages (b : Nat) : Nat := bfield b 8 8
/-- AUX: TOK or FREE. -/
def pAux (b : Nat) : Nat := bfield b 16 8
/-- OUT: CHAIN or RESULT. -/
def pOut (b : Nat) : Nat := bfield b 24 8
/-- N. -/
def pN (b : Nat) : Nat := bfield b 32 4
/-- BLEN. -/
def pBlen (b : Nat) : Nat := bfield b 36 2
/-- TABLE. -/
def pTable (b : Nat) : Nat := bfield b 38 1
/-- SEED. -/
def pSeed (b : Nat) : Nat := bfield b 40 8

/-- The rules of R305 that all four commands share; `blen` says that BLEN is used. -/
def pfxShared (blen : Bool) (b : Nat) : Bool :=
  1 ≤ pN b && pN b ≤ 4096 && (if blen then 1 ≤ pBlen b && pBlen b ≤ 4096 else pBlen b = 0) && pTable b ≤ 3 && bfield b 39 1 = 0
    && bfield b 48 16 = 0

/-- A legal `pfxh` block. -/
def pfxhLegal (b : Nat) : Bool := pfxShared true b && pPages b = 0 && pTable b = 0
/-- A legal `pfxlk` block. -/
def pfxlkLegal (b : Nat) : Bool := pfxShared true b && pAux b = 0 && pSeed b = 0
/-- A legal `pfxins` block. -/
def pfxinsLegal (b : Nat) : Bool := pfxShared true b && pSeed b = 0
/-- A legal `pfxunpin` block. -/
def pfxunpinLegal (b : Nat) : Bool := pfxShared false b && pPages b = 0 && pAux b = 0 && pSeed b = 0

/-- The alignment checks of a prefix block. -/
def pfxAligned (b : Nat) : List (Nat × Bool) :=
  [multipleOf (pKeys b) 8, multipleOf (pPages b) 4, multipleOf (pAux b) 4, multipleOf (pOut b) 8, multipleOf (pSeed b) 8]

/-- PFXH (R268, R305). -/
def execPfxh (a b : BitVec 5) (n : BitVec 1) (s : State) : Host.Outcome State Fault Refusal :=
  .next (engineWord (encode (.pfxh a b n)) .pfxh 4 64 n a b (plainTable a pfxhLegal) pfxAligned s)

/-- PFXLK (R268, R305). -/
def execPfxlk (a b : BitVec 5) (n : BitVec 1) (s : State) : Host.Outcome State Fault Refusal :=
  .next (engineWord (encode (.pfxlk a b n)) .pfxlk 4 64 n a b (plainTable a pfxlkLegal) pfxAligned s)

/-- PFXINS (R268, R305). -/
def execPfxins (a b : BitVec 5) (n : BitVec 1) (s : State) : Host.Outcome State Fault Refusal :=
  .next (engineWord (encode (.pfxins a b n)) .pfxins 4 64 n a b (plainTable a pfxinsLegal) pfxAligned s)

/-- PFXUNPIN (R268, R305). -/
def execPfxunpin (a b : BitVec 5) (n : BitVec 1) (s : State) : Host.Outcome State Fault Refusal :=
  .next (engineWord (encode (.pfxunpin a b n)) .pfxunpin 4 64 n a b (plainTable a pfxunpinLegal) pfxAligned s)

/-! ## Hashing (R304, R308) -/

/-- The chain value before block k: what block k - 1 left, the seed, or zeros. -/
def chainBefore (e : Entry) (s : State) : Eng (List Byte) :=
  if e.prog ≠ 0 then .ok e.list s
  else if pSeed e.block.toNat = 0 then .ok (List.replicate 32 0) s
  else engRead e (pSeed e.block.toNat) 32 s

/-- One block hashed: its chain value. Everything it writes is reached before it writes (R307). -/
def hashStep (e : Entry) (s : State) : Eng (List Byte) :=
  let b := e.block.toNat
  let k := e.prog
  let keys := wrap (pKeys b + 8 * k)
  let out := wrap (pOut b + 32 * k)
  (chainBefore e s).bind (fun c s => (engRead e (wrap (pAux b + 4 * pBlen b * k)) (4 * pBlen b) s).bind (fun toks s =>
    (engReach e true keys 8 s).bind (fun _ s => (if pOut b = 0 then .ok [] s else engReach e true out 32 s).bind (fun _ s =>
      let c := sha256 (c ++ toks)
      (engWrite e keys (c.take 8) s).bind (fun _ s =>
        if pOut b = 0 then .ok c s else (engWrite e out c s).bind (fun _ s => .ok c s))))))

/-- The bytes that k blocks write. -/
def hashBytes (b k : Nat) : Nat := 8 * k + (if pOut b = 0 then 0 else 32 * k)

/-- Blocks hashed from `prog` on, up to n of them. -/
def hashRun (p : Nat) : Nat → Entry → State → Option State
  | n, e, s =>
    let b := e.block.toNat
    if pN b ≤ e.prog then some (finishHead 4 e (hashBytes b (pN b)) 0 0 s)
    else match n with
      | 0 => some (setHead 4 e s)
      | n + 1 => match hashStep e s with
        | .wait _ q => engineStop 4 p e q s
        | .err c o => some (finishHead 4 e (hashBytes b e.prog) c o (engAnswered e s))
        | .ok c t => hashRun p n { e with prog := e.prog + 1, list := c } (engAnswered e t)

/-- PFXH_EXECUTE (R307, R308): slot `slot`; up to `num` blocks, or all that are left when 0. -/
def execPfxhExecute (s : State) : Host.Outcome State Fault Refusal :=
  .next (engineStep 4 (fun x => x = .pfxh) (fun e t => hashRun (e.prog + 1) (turnCount s.dev.arg.num (pN e.block.toNat + 1)) e t) s)

/-! ## Tables (R302, R303) -/

/-- A table entry: its address and its 32 bytes. -/
structure PEntry where
  va : Nat
  w : Nat

/-- KEY. -/
def PEntry.key (p : PEntry) : Nat := bfield p.w 0 8
/-- PAGE. -/
def PEntry.page (p : PEntry) : Nat := bfield p.w 8 4
/-- PIN. -/
def PEntry.pin (p : PEntry) : Nat := bfield p.w 12 2
/-- BLEN. -/
def PEntry.blen (p : PEntry) : Nat := bfield p.w 14 2
/-- STAMP. -/
def PEntry.stamp (p : PEntry) : Nat := bfield p.w 16 8
/-- VALID. -/
def PEntry.valid (p : PEntry) : Bool := bit (bfield p.w 24 8) 0
/-- DRAIN. -/
def PEntry.drain (p : PEntry) : Bool := bit (bfield p.w 24 8) 1

/-- The entry matches a key for a block length (R303). -/
def PEntry.hits (p : PEntry) (key blen : Nat) : Bool := p.valid && !p.drain && p.key = key && p.blen = blen

/-- The addresses of a key's probe window under a table register (R302, R303). -/
def window (reg key : Nat) : List Nat :=
  let log := bits reg 1 5
  let n := 2 ^ log
  let base := bits reg 12 40 * 4096
  (upFrom 0 (min 16 n)).map (fun p => base + 32 * ((key % n + p) % n))

/-- A table entry reached: its bytes must translate as a store to local device memory with MT 0 (R302); no other device is asked (R377). -/
def reachEntry (e : Entry) (va : Nat) (s : State) : Eng PEntry :=
  match engXlate true va 32 s with
  | .error c => .err c 0
  | .ok locs =>
    if locs.any (fun l => l.kind != .devMem || isScratch l.key || !l.cached) then .err cRights 0
    else if locs.any (fun l => poisoned s.dev l.key) then .err cLoss 0
    else .ok ⟨va, leNat (locs.map (fun l => readByte s.dev l.key))⟩ (countRead e (locs.map (·.key)) s)

/-- Every entry of a window, in probe order (R303). -/
def probeAll (e : Entry) : List Nat → State → Eng (List PEntry)
  | [], s => .ok [] s
  | va :: r, s => (reachEntry e va s).bind (fun x s => (probeAll e r s).bind (fun xs s => .ok (x :: xs) s))

/-- How a key step leaves its command: on to the next key, or stopped with a status after so many keys. -/
inductive KeyStep where
  | on
  | off (status : Nat)
deriving DecidableEq, Repr

/-- The key of step k. -/
def keyAt (e : Entry) (k : Nat) (s : State) : Eng Nat := (engRead e (wrap (pKeys e.block.toNat + 8 * k)) 8 s).bind (fun bs s => .ok (leNat bs) s)

/-- The doubleword of DEVTIME. -/
def stampNow (s : State) : List Byte := leBytes 8 s.dev.devtime.toNat

/-- A `pfxlk` step (R309). The table register stands in `vlvalid`. -/
def lookStep (e : Entry) (s : State) : Eng KeyStep :=
  let b := e.block.toNat
  let out := wrap (pPages b + 4 * e.prog)
  (keyAt e e.prog s).bind (fun key s => (engReach e true out 4 s).bind (fun _ s =>
    (probeAll e (window e.vlvalid key) s).bind (fun xs s => match xs.find? (fun x => x.hits key (pBlen b)) with
      | none => .ok (.off 0) s
      | some x =>
        if x.pin = 0xFFFF then .ok (.off 2) s
        else (engWrite e (x.va + 12) (leBytes 2 (x.pin + 1)) s).bind (fun _ s => (engWrite e (x.va + 16) (stampNow s) s).bind (fun _ s =>
          (engWrite e out (leBytes 4 x.page) s).bind (fun _ s => .ok .on s))))))

/-- The entry of least STAMP that may be replaced, the earliest on ties (R310). -/
def oldest : List PEntry → Option PEntry
  | [] => none
  | x :: r =>
    let y := oldest r
    if x.valid && x.pin = 0 && !x.drain then (match y with
      | none => some x
      | some z => if x.stamp ≤ z.stamp then some x else y)
    else y

/-- The slot a key is inserted into (R310). -/
def insertAt (xs : List PEntry) : Option PEntry :=
  match xs.find? (fun x => !x.valid) with
  | some x => some x
  | none => oldest xs

/-- The 32 bytes of an inserted entry. -/
def newEntryBytes (key page blen : Nat) (s : State) : List Byte :=
  leBytes 8 key ++ leBytes 4 page ++ leBytes 2 1 ++ leBytes 2 blen ++ stampNow s ++ leBytes 8 1

/-- A `pfxins` step (R310). -/
def insertStep (e : Entry) (s : State) : Eng KeyStep :=
  let b := e.block.toNat
  let out := wrap (pAux b + 4 * e.prog)
  (keyAt e e.prog s).bind (fun key s => (engRead e (wrap (pPages b + 4 * e.prog)) 4 s).bind (fun pg s =>
    (engReach e true out 4 s).bind (fun _ s => (probeAll e (window e.vlvalid key) s).bind (fun xs s =>
      let page := leNat pg
      if xs.any (fun x => x.hits key (pBlen b)) then (engWrite e out (leBytes 4 page) s).bind (fun _ s => .ok .on s)
      else match insertAt xs with
        | none => .ok (.off 1) s
        | some x =>
          let free := if x.valid then x.page else 0xFFFFFFFF
          (engWrite e x.va (newEntryBytes key page (pBlen b) s) s).bind (fun _ s =>
            (engWrite e out (leBytes 4 free) s).bind (fun _ s => .ok .on s))))))

/-- A `pfxunpin` step (R311): whether a pin was taken off. -/
def unpinStep (e : Entry) (s : State) : Eng Bool :=
  (keyAt e e.prog s).bind (fun key s =>
    (probeAll e (window e.vlvalid key) s).bind (fun xs s => match xs.find? (fun x => x.valid && x.key = key && x.pin != 0) with
      | none => .ok false s
      | some x => (engWrite e (x.va + 12) (leBytes 2 (x.pin - 1)) s).bind (fun _ s => .ok true s)))

/-- The command ends: RESULT is written with a count and a status, then the entry is performed with n bytes and any error. `p` is
the least `prog` that is progress. -/
def pfxEnd (p : Nat) (e : Entry) (count status n cause origin : Nat) (s : State) : Option State :=
  match engWrite e (pOut e.block.toNat) (leBytes 8 (count + status * 2 ^ 32)) s with
  | .wait _ q => engineStop 4 p e q s
  | .err c o => some (finishHead 4 e (n - 8) (if cause = 0 then c else cause) (if cause = 0 then o else origin) (engAnswered e s))
  | .ok _ t => some (finishHead 4 e n cause origin (engAnswered e t))

/-- The table register of the command's context (R302): EN reads 0 while LOGN is above 20. -/
def tableReg (s : State) (i : Nat) : Nat := (SMap.get 0 (ctxOf s.dev s.slot.ctx).pfx i).toNat

/-- A table command begins (R302, R307): RESULT must translate, and the table be enabled. The register read stays in `vlvalid`, with
`vl` 1 from then on. -/
def pfxBegin (e : Entry) (s : State) : Except (Option State) Entry :=
  if e.vl = 1 then .ok e
  else match engXlate true (pOut e.block.toNat) 8 s with
    | .error c => .error (some (finishHead 4 e 0 c 0 s))
    | .ok _ =>
      let r := tableReg s (pTable e.block.toNat)
      if bit r 0 && bits r 1 5 ≤ 20 then .ok { e with vl := 1, vlvalid := r } else .error (pfxEnd 0 e 0 3 8 cRights 0 s)

/-- Key steps of `pfxlk` and `pfxins` from `prog` on, up to n of them. -/
def keyRun (step : Entry → State → Eng KeyStep) (p : Nat) : Nat → Entry → State → Option State
  | n, e, s =>
    let k := e.prog
    if pN e.block.toNat ≤ k then pfxEnd p e k 0 (4 * k + 8) 0 0 s
    else match n with
      | 0 => some (setHead 4 e s)
      | n + 1 => match step e s with
        | .wait _ q => engineStop 4 p e q s
        | .err c o => pfxEnd p e k 3 (4 * k + 8) c o s
        | .ok (.off st) t => pfxEnd p e k st (4 * k + 8) 0 0 t
        | .ok .on t => keyRun step p n { e with prog := k + 1 } (engAnswered e t)

/-- Key steps of `pfxunpin`; the decrements are counted in `acc`. -/
def unpinRun (p : Nat) : Nat → Entry → State → Option State
  | n, e, s =>
    let k := e.prog
    if pN e.block.toNat ≤ k then pfxEnd p e e.acc 0 8 0 0 s
    else match n with
      | 0 => some (setHead 4 e s)
      | n + 1 => match unpinStep e s with
        | .wait _ q => engineStop 4 p e q s
        | .err c o => pfxEnd p e k 3 8 c o s
        | .ok d t => unpinRun p n { e with prog := k + 1, acc := if d then e.acc + 1 else e.acc } (engAnswered e t)

/-- A table command's turn. -/
def pfxTurn (op : EngOp) (go : Nat → Nat → Entry → State → Option State) (s : State) : State :=
  engineStep 4 (fun x => x = op) (fun e t => match pfxBegin e t with
    | .error u => u
    | .ok e' => go (if e.vl = 1 then e.prog + 1 else 0) (turnCount s.dev.arg.num (pN e.block.toNat + 1)) e' t) s

/-- PFXLK_EXECUTE (R309): slot `slot`; up to `num` key steps, or all that are left when 0. -/
def execPfxlkExecute (s : State) : Host.Outcome State Fault Refusal :=
  .next (pfxTurn .pfxlk (keyRun lookStep) s)

/-- PFXINS_EXECUTE (R310): slot `slot`; up to `num` key steps, or all that are left when 0. -/
def execPfxinsExecute (s : State) : Host.Outcome State Fault Refusal :=
  .next (pfxTurn .pfxins (keyRun insertStep) s)

/-- PFXUNPIN_EXECUTE (R311): slot `slot`; up to `num` key steps, or all that are left when 0. -/
def execPfxunpinExecute (s : State) : Host.Outcome State Fault Refusal :=
  .next (pfxTurn .pfxunpin unpinRun s)

end Sys2Proof.Machine
end

