-- ==== Sys2Proof/Machine/Tasks.lean ====
section
/-! DEFINITION. Groups and ports, tasks as a thread sees them, and what the dispatcher keeps of launches, tasks, signals and group
phases (R209 to R215, R221, R225 to R231, R285, R339). -/

namespace Sys2Proof.Machine

/-! ## The dispatcher's memory accesses -/

/-- A change of the device made with no thread in focus. -/
def onDevice (f : Device → Device) (s : State) : State := unpark (f (park s)) s.cur.1 s.cur.2

/-- The dispatcher as a writer (R332). -/
def dispatcher (d : Device) : Writer := { kind := 6, dev := d.boot.devnum }

/-- Bytes of a context's data space as the dispatcher reaches them; the first byte that fails. -/
def ctxReach (d : Device) (c : Nat) (store : Bool) (va n : Nat) : Except Nat (List Loc) :=
  match xlateRange (xlateCtx d c store) va n with
  | .error (_, a) => .error a
  | .ok locs => .ok locs

/-- A read of the dispatcher. -/
def ctxRead (d : Device) (c va n : Nat) : Except Nat (List Byte) :=
  match ctxReach d c false va n with
  | .error a => .error a
  | .ok locs => match locs.findIdx? (fun l => poisoned d l.key) with
    | some i => .error (va + i)
    | none => .ok (locs.map (fun l => readByte d l.key))

/-- A write of the dispatcher. op: 0 store, 1 atomic. -/
def ctxWrite (op c va : Nat) (bs : List Byte) (d : Device) : Except Nat Device :=
  match ctxReach d c true va bs.length with
  | .error a => .error a
  | .ok locs => .ok (performHome (dispatcher d) op (wholeBytes (locs.map (·.key)) bs) d)

/-- A write whose failure has no consequence that a rule gives. (DEDUCED, log 57) -/
def ctxWriteOr (op c va : Nat) (bs : List Byte) (d : Device) : Device :=
  match ctxWrite op c va bs d with
  | .ok d => d
  | .error _ => d

/-! ## Signals and packets (R219, R221) -/

/-- FAULT of a signal's STATUS. -/
def stFault : Nat := 1
/-- MISSED. -/
def stMissed : Nat := 2
/-- ABORTED. -/
def stAborted : Nat := 4
/-- REJECTED. -/
def stRejected : Nat := 8

/-- A completion reported to a signal: STATUS first, with CODE only where it is 0, then -1 added to VALUE. -/
def reportSignal (c addr status code : Nat) (d : Device) : Device :=
  if addr = 0 then d else
  let d := match ctxRead d c (addr + 8) 8 with
    | .ok bs =>
      let st := leNat bs
      let cd := if bits st 8 8 = 0 then code else bits st 8 8
      if status = 0 && code = 0 then d else ctxWriteOr 1 c (addr + 8) (leBytes 8 (setBits (st ||| status) 8 8 cd)) d
    | .error _ => d
  match ctxRead d c addr 8 with
  | .ok bs => ctxWriteOr 1 c addr (leBytes 8 (leNat bs + (2 ^ 64 - 1))) d
  | .error _ => d

/-- A queue's registers. -/
def queueAt (d : Device) (q : Nat) : UQueue := SMap.get UQueue.reset d.queues q

/-- A queue's registers set. -/
def setQueueRegs (q : Nat) (u : UQueue) (d : Device) : Device := { d with queues := SMap.set UQueue.reset d.queues q u }

/-- The context that owns a queue (R217). -/
def queueCtx (u : UQueue) : Nat := bits u.qcfg.toNat 16 12

/-- A packet completes and reports its own signal once (R219). -/
def completePacket (p : Nat) (d : Device) : Device :=
  match SMap.find d.packets p with
  | none => d
  | some pk =>
    if pk.phase = 2 then d
    else reportSignal (queueCtx (queueAt d pk.queue)) pk.sig pk.status pk.code { d with packets := SMap.put d.packets p { pk with phase := 2 } }

/-- A launch of a packet has reported: its bits join the packet's, and the last one completes it. A re-run that has reported already counts
as complete (R294, R296). -/
def notePacket (l : Launch) (status code : Nat) (d : Device) : Device :=
  match l.packet with
  | none => d
  | some p => match SMap.find d.packets p with
    | none => d
    | some pk =>
      let pk := { pk with status := pk.status ||| status, code := if pk.code = 0 then code else pk.code }
      let d := { d with packets := SMap.put d.packets p pk }
      if pk.phase = 1 && pk.launches.all (fun x => match SMap.find d.launches x with | some y => y.phase = 3 || y.counted | none => true) then
        completePacket p d
      else d

/-! ## Tasks (R222, R225) -/

/-- A launch set. -/
def setLaunch (id : Nat) (l : Launch) (d : Device) : Device := { d with launches := SMap.put d.launches id l }

/-- A launch changed. -/
def mapLaunch (id : Nat) (f : Launch → Launch) (d : Device) : Device :=
  match SMap.find d.launches id with
  | none => d
  | some l => setLaunch id (f l) d

/-- A task set. -/
def setTask (id : Nat) (t : Task) (d : Device) : Device := { d with tasks := SMap.put d.tasks id t }

/-- The context of a task's launch. -/
def taskCtx (d : Device) (t : Task) : Nat := match SMap.find d.launches t.launch with | some l => l.ctx | none => 0

/-- A task's STATE changed, in the dispatcher and in its TCB. -/
def setTaskState (id st : Nat) (d : Device) : Device :=
  match SMap.find d.tasks id with
  | none => d
  | some t => ctxWriteOr 0 (taskCtx d t) (t.tcb + 112) (leBytes 8 st) (setTask id { t with st := st } d)

/-- PRED of a TCB. -/
def predOf (d : Device) (c tcb : Nat) : Except Nat Nat :=
  match ctxRead d c tcb 4 with
  | .ok bs => .ok (leNat bs)
  | .error a => .error a

/-- The PRED of a task's TCB in memory is 0. -/
def predZero (d : Device) (t : Task) : Bool := match predOf d (taskCtx d t) t.tcb with | .ok n => n = 0 | .error _ => false

/-- Every admitted task that waits and whose PRED is 0 becomes READY, under whatever address and context its TCB was named when the PRED
fell (R225). -/
def releaseAll (d : Device) : Device :=
  d.tasks.foldl (fun d p => match SMap.find d.tasks p.1 with
    | some t => if t.st = 1 && predZero d t then setTaskState p.1 2 d else d
    | none => d) d

/-- One successor's PRED decremented at device scope. -/
def decrementPred (c tcb : Nat) (d : Device) : Device :=
  match predOf d c tcb with
  | .error _ => d
  | .ok n => releaseAll (ctxWriteOr 1 c tcb (leBytes 4 (n + (2 ^ 32 - 1))) d)

/-- A task completes: STATE, then each successor. A re-run that has been counted already releases nothing again (R294). -/
def completeTask (id : Nat) (d : Device) : Device :=
  match SMap.find d.tasks id with
  | none => d
  | some t =>
    let c := taskCtx d t
    let d := setTaskState id 4 d
    if t.counted then d else
    (upFrom 0 t.nsucc).foldl (fun d i => match ctxRead d c (t.succ + 8 * i) 8 with
      | .ok bs => decrementPred c (leNat bs) d
      | .error _ => d) d

/-- The threads of a launch slot: 3 × launch slot + role. -/
def slotKeys (cfg j : Nat) : List Nat := if cfg = 1 then [3 * j, 3 * j + 1, 3 * j + 2] else [3 * j + 1]

/-- A thread's `tdone` for a task takes effect (R225, R339): `cfg` is its slot's configuration, J its launch slot and `key` itself. -/
def finishTask (id cfg j key : Nat) (d : Device) : Device :=
  match SMap.find d.tasks id with
  | none => d
  | some t =>
    if t.st != 3 || t.fin.contains j then d
    else
      let thrs := if t.finThr.contains key then t.finThr else t.finThr ++ [key]
      let t := { t with finThr := thrs }
      if !(slotKeys cfg j).all thrs.contains then setTask id t d
      else
        let t := { t with fin := t.fin ++ [j] }
        let d := setTask id t d
        match SMap.find d.launches t.launch with
        | none => d
        | some l => if l.tasks.length != 1 || (upFrom 0 l.nslot).all t.fin.contains then completeTask id d else d

/-! ## Completing a launch (R221, R225, R235, R294, R339) -/

/-- Slots that a launch holds freed; that of a chain once all its kernels are over (R296). -/
def freeSlots (id : Nat) (d : Device) : Device :=
  let ended := fun (c : Nat) => match SMap.find d.chains c with
    | some ch => ch.launches.contains id && ch.launches.all (fun x => x = id || (match SMap.find d.launches x with | some y => y.phase = 3 | none => true))
    | none => false
  let drop := fun (sl : Slot) => sl.st != .free && (match sl.chain with | some c => ended c | none => sl.launch = id)
  { d with slots := d.slots.filter (fun p => !drop p.2), chains := d.chains.filter (fun p => !ended p.1) }

/-- A context's save frame given back (R352). -/
def freeFrame (c f : Nat) (d : Device) : Device :=
  let b := ctxOf d c
  setCtx d c { b with frames := b.frames.filter (· != f) }

/-- The system cuttings of a launch dropped with their frames, and no other cutting waiting for it any more. -/
def dropCuts (id : Nat) (d : Device) : Device :=
  let d := d.sysCuts.foldl (fun d p => if p.2.launch = id then freeFrame p.2.ctx p.2.frame d else d) d
  { d with sysCuts := (d.sysCuts.filter (fun p => p.2.launch != id)).map (fun p => (p.1, { p.2 with waits := p.2.waits.filter (· != id) })) }

/-- The deadline of a DEADLINE launch that has not completed is met (R234). -/
def isDue (d : Device) (l : Launch) : Bool :=
  l.phase != 0 && l.phase != 3 && l.dead && !l.missed && l.deadline.toNat ≤ d.devtime.toNat

/-- A launch whose deadline is met marked MISSED, once, and counted; without ABORT_ON_MISS it becomes SHARE (R234). -/
def markMissed (id : Nat) (d : Device) : Device :=
  match SMap.find d.launches id with
  | none => d
  | some l => if isDue d l then addAcnt l.acct 7 1 (setLaunch id { l with missed := true, dead := l.abort } d) else d

/-- A launch ends: its slots are free, its signal and its packet are reported. A re-run that was counted is not reported again. -/
def endLaunch (id status code : Nat) (d : Device) : Device :=
  let d := markMissed id d
  match SMap.find d.launches id with
  | none => d
  | some l =>
    let status := l.status ||| status ||| (if l.missed then stMissed else 0)
    let code := if l.code = 0 then code else l.code
    let d := dropCuts id (freeSlots id (setLaunch id { l with phase := 3, slots := [], status := status, code := code } d))
    if l.counted then d else notePacket l status code (reportSignal l.ctx l.sig status code d)

/-- Every thread of a launch has left. -/
def allGone (l : Launch) : Bool := (upFrom 0 l.nslot).all (fun j => (slotKeys l.cfg j).all l.gone.contains)

/-- A launch completes when its tasks are over and its threads, and those of the launches resumed from it, have left. -/
def checkLaunch (id : Nat) (d : Device) : Device :=
  match SMap.find d.launches id with
  | none => d
  | some l =>
    if l.phase = 2 && allGone l
        && l.tasks.all (fun t => match SMap.find d.tasks t with | some x => x.st = 4 || x.st = 5 | none => true)
        && l.children.all (fun c => match SMap.find d.launches c with | some x => x.phase = 3 | none => true) then
      endLaunch id 0 0 d
    else d

/-- A launch and the one it was resumed from. -/
def checkBoth (id : Nat) (d : Device) : Device :=
  let orig := (SMap.find d.launches id).bind Launch.orig
  let d := checkLaunch id d
  match orig with
  | some o => checkLaunch o d
  | none => d

/-! ## Group phases (R212, R213) -/

/-- The member launch slots of a group. -/
def groupMembers (l : Launch) (g : Nat) : List Nat := if g = 0 then upFrom 0 l.nslot else SMap.get [] l.gtab g

/-- A launch slot has arrived at the next phase of a group: its threads have, or they have all left. -/
def slotArrived (l : Launch) (g j : Nat) : Bool :=
  let ks := slotKeys l.cfg j
  ks.all (SMap.get [] l.arrived g).contains || ks.all l.gone.contains

/-- A phase of a group that everyone has arrived at completes. -/
def settleGroup (g : Nat) (l : Launch) : Launch :=
  if !(SMap.get [] l.arrived g).isEmpty && (groupMembers l g).all (slotArrived l g) then
    { l with done := SMap.set 0 l.done g (SMap.get 0 l.done g + 1), arrived := SMap.set [] l.arrived g [] }
  else l

/-- An arrival of a thread. -/
def arriveGroup (g key : Nat) (l : Launch) : Launch :=
  settleGroup g { l with arrived := SMap.set [] l.arrived g (SMap.get [] l.arrived g ++ [key]) }

/-- A thread leaves its launch. -/
def leaveGroups (key : Nat) (l : Launch) : Launch :=
  let l := { l with gone := if l.gone.contains key then l.gone else l.gone ++ [key] }
  (l.arrived.map Prod.fst).foldl (fun l g => settleGroup g l) l

/-! ## Who the thread in focus is -/

/-- The launch of the thread in focus: in a grafted chain that of its kernel. -/
def ownLaunch (s : State) : Nat :=
  match chainOf s with
  | some (_, ch) => (ch.launches[s.cur.2]?).getD 0
  | none => s.slot.launch

/-- The launch and launch slot its tasks are bound to (R227, R339). -/
def boundTo (s : State) : Option (Nat × Nat) := if s.slot.chain.isSome then some (ownLaunch s, 0) else s.slot.bound

/-- The thread's key in its own launch. -/
def ownKey (s : State) : Nat := if s.slot.chain.isSome then 1 else 3 * s.slot.lslot + s.cur.2

/-- The configuration its launch sees. -/
def ownCfg (s : State) : Nat := if s.slot.chain.isSome then 0 else s.slot.cfg

/-! ## Port status and groups (R209 to R215) -/

/-- RSTAT (R211): words that have not started have no slot of the ring yet. -/
def execRstat (d : BitVec 5) (t : BitVec 1) (p : BitVec 2) (s : State) : Host.Outcome State Fault Refusal :=
  let n := p.toNat
  let mine := if t = 0 then ringWriter n = s.cur.2 || ringReader n = s.cur.2 else qWriter n = s.cur.2 || qReader n = s.cur.2
  .next (run { word := encode (.rstat d t p), xw := [d.toNat], regOk := isTrio s && s.slot.chain.isNone && mine } s (fun s =>
    .done (wx d.toNat (w64 (if t = 0 then min 4 ((ring s n).filter (·.committed)).length else (qport s n).length)) s)))

/-- Completed phases P of a group of the thread's launch. -/
def phaseOf (s : State) (g : Nat) : Nat := match SMap.find s.dev.launches (ownLaunch s) with | some l => SMap.get 0 l.done g | none => 0

/-- Arrivals A of the thread at a group. -/
def arrivals (s : State) (g : Nat) : Nat := SMap.get 0 s.thr.hid.arr g

/-- FENCE.ARR (R214). -/
def execFenceArr (sc : BitVec 4) (g : BitVec 8) (s : State) : Host.Outcome State Fault Refusal :=
  .next (run { word := encode (.fenceArr sc g), regOk := isMember s g.toNat } s (fun s =>
    if arrivals s g.toNat != phaseOf s g.toNat then .wait s
    else
      let arr := SMap.set 0 (SMap.set 0 s.thr.hid.arr g.toNat (arrivals s g.toNat + 1)) (512 + g.toNat) sc.toNat
      .done { s with thr.hid.arr := arr, thr.pnd.groupArrs := s.thr.pnd.groupArrs ++ [⟨g.toNat, s.dev.ser⟩] }))

/-- GWAIT (R215). Later loads of the thread use no older L1D line, whatever the scopes of the arrivals. (DEDUCED, log 58) -/
def execGwait (g : BitVec 8) (s : State) : Host.Outcome State Fault Refusal :=
  .next (run { word := encode (.gwait g), regOk := isMember s g.toNat } s (fun s =>
    if arrivals s g.toNat ≤ phaseOf s g.toNat then .done (newLines s) else .wait s))

/-- GTEST (R215), with the same effect on later loads where the phase is complete. (DEDUCED, log 58) -/
def execGtest (d : BitVec 5) (g : BitVec 8) (s : State) : Host.Outcome State Fault Refusal :=
  .next (run { word := encode (.gtest d g), xw := [d.toNat], regOk := isMember s g.toNat } s (fun s =>
    if arrivals s g.toNat ≤ phaseOf s g.toNat then .done (wx d.toNat 1 (newLines s)) else .done (wx d.toNat 0 s)))

/-- FENCE_ARR_ARRIVAL (R214): the oldest waiting arrival of thread `slot`, `role`, once every store before it is visible, and every `zld`
and `zst` (R255). A store becomes visible at every scope in one step. (DESIGN CHOICE, log 18) (DEDUCED, log 95) -/
def execFenceArrArrival (s : State) : Host.Outcome State Fault Refusal :=
  .next (within s.dev.arg.slot s.dev.arg.role (fun s =>
    match s.thr.pnd.groupArrs with
    | [] => s
    | x :: r =>
      if s.thr.pnd.stores.any (fun p => p.fence = 0 && p.ser ≤ x.upto) || tileAccess s 0xFFFF (x.upto + 1) then s
      else { s with thr.pnd.groupArrs := r, dev := mapLaunch (ownLaunch s) (arriveGroup x.group (ownKey s)) s.dev }) s)

/-! ## TGET (R227, R285) -/

/-- A task can be taken by a launch slot. -/
def takeable (l : Launch) (j : Nat) (t : Task) : Bool :=
  if l.tasks.length = 1 then (t.st = 2 || t.st = 3) && !t.took.contains j else t.st = 2

/-- A task may still become READY for a launch slot. -/
def mayCome (l : Launch) (j : Nat) (t : Task) : Bool := if l.tasks.length = 1 then t.st ≤ 1 && !t.took.contains j else t.st ≤ 1

/-- What `tget` finds: a task, nothing ever again, or nothing yet. -/
inductive NextTask where
  | task (id : Nat)
  | never
  | wait

/-- The task that the thread's kernel is grafted for. -/
def ownTask (s : State) : Option Nat := match chainOf s with | some (_, ch) => ch.tasks[s.cur.2]? | none => none

/-- The next task of a SOLO thread or load role. A grafted thread takes its own task first (R289). -/
def chooseTask (s : State) : NextTask :=
  match if s.thr.hid.tpos = 0 then ownTask s else none with
  | some t => .task t
  | none =>
  match boundTo s with
  | none => .never
  | some (id, j) => match SMap.find s.dev.launches id with
    | none => .never
    | some l =>
      let ts := l.tasks.filterMap (fun t => (SMap.find s.dev.tasks t).map (fun x => (t, x)))
      match ts.find? (fun p => takeable l j p.2) with
      | some p => .task p.1
      | none => if ts.any (fun p => mayCome l j p.2) then .wait else .never

/-- The next task of the thread: execute and store roles follow the load role. -/
def nextTask (s : State) : NextTask :=
  if isTrio s && s.slot.chain.isNone && s.cur.2 != 1 - 1 then
    match s.slot.taken[s.thr.hid.tpos]? with
    | none => .wait
    | some 0 => .never
    | some t => .task t
  else chooseTask s

/-- An entry of a MAP payload: ROLE, SREG, BASESRC and the descriptor (R182). -/
structure MapEntry where
  role : Nat
  sreg : Nat
  base : Nat
  desc : Nat

/-- The entries of a MAP payload after its first 8 bytes. -/
def mapEntries (n payload : Nat) : List MapEntry :=
  (upFrom 0 n).map (fun i =>
    let e := bfield payload (72 * i) 72
    ⟨bfield e 0 1, bfield e 1 1 % 8, bfield e 2 1, bfield e 8 64⟩)

/-- A map entry's descriptor with its BASE taken from the task's arguments. -/
def mapDesc (args : List Word) (e : MapEntry) : Nat :=
  if 1 ≤ e.base && e.base ≤ 4 then setBits e.desc 0 64 (args.getD (e.base - 1) 0).toNat else e.desc

/-- The MAP payload read by a `tget` (R285). A payload in memory that breaks its table is read like this: at most 24 entries, SREG modulo 8,
BASE of the descriptor for a BASESRC above 4, and the last of two entries for one register. (DESIGN CHOICE, log 96) -/
def readMap (s : State) (va : Nat) : Got :=
  let q := { s with thr.sr.watch := [] }
  match loadBytes q 15 1 va 8 with
  | .ok bs locs => match loadBytes q 15 1 (va + 8) (72 * min 24 (bits (leNat bs) 32 32)) with
    | .ok bs' locs' => .ok bs' (locs ++ locs')
    | r => r
  | r => r

/-- The bindings that a stream register of the thread is bound to by its own task (R290): bit 0 to the next kernel, bit 1 to the one
before. -/
def bindingOf (s : State) (id sreg : Nat) : Nat :=
  match chainOf s with
  | none => 0
  | some (_, ch) =>
    if ch.tasks[s.cur.2]? != some id then 0
    else
      (match ch.binds[s.cur.2]? with | some b => (if b.prodReg = sreg then 1 else 0) | none => 0)
        + (match if s.cur.2 = 0 then none else ch.binds[s.cur.2 - 1]? with | some b => (if b.consReg = sreg then 2 else 0) | none => 0)

/-- The streams of the thread's role loaded from the MAP payload of a task. -/
def loadStreams (id : Nat) (args : List Word) (bs : List Byte) (s : State) : State :=
  let role := if s.slot.chain.isSome then 1 else s.cur.2
  (mapEntries (bs.length / 72) (leNat bs)).foldl (fun s e =>
    if e.role != role then s
    else
      let d := mapDesc args e
      setStream e.sreg (if dLegal d then ⟨true, BitVec.ofNat 512 d, 0, bindingOf s id e.sreg⟩ else Stream.empty) s) s

/-- A task taken: its place in the slot's order, its STATE, the arguments, the count and TASKID. The core's L1D is dropped (R245). -/
def takeTask (d : BitVec 5) (id : Nat) (s : State) : State :=
  match SMap.find s.dev.tasks id with
  | none => s
  | some t =>
    let j := match boundTo s with | some (_, j) => j | none => 0
    let first := !(isTrio s && s.slot.chain.isNone && s.cur.2 != 0)
    let dev := if first then setTaskState id 3 (setTask id { t with took := t.took ++ [j] } s.dev) else s.dev
    let s := { s with dev := l1dDropAll dev (coreOf s), slot.taken := if first then s.slot.taken ++ [id] else s.slot.taken }
    let s := { s with thr.hid.task := some id, thr.hid.tpos := s.thr.hid.tpos + 1, thr.sr.taskid := w64 (j * 2 ^ 48 + id % 2 ^ 48) }
    wx d.toNat t.count ((upFrom 0 4).foldl (fun s i => wx (20 + i) (t.args.getD i 0) s) s)

/-- TGET (R227, R285). -/
def execTget (d : BitVec 5) (s : State) : Host.Outcome State Fault Refusal :=
  let w := encode (.tget d)
  .next (run { word := w, xw := [d.toNat], drain := true } s (fun s =>
    if s.thr.hid.task.isSome then .trap 0x01 (w.setWidth 64) 0 s
    else match nextTask s with
      | .wait => .wait s
      | .never =>
        let first := !(isTrio s && s.slot.chain.isNone && s.cur.2 != 0)
        let s := { s with slot.taken := if first then s.slot.taken ++ [0] else s.slot.taken, thr.hid.tpos := s.thr.hid.tpos + 1 }
        .done (wx d.toNat (BitVec.allOnes 64) { s with thr.sr.taskid := 0 })
      | .task id => match SMap.find s.dev.tasks id with
        | none => .wait s
        | some t =>
          if t.mapnote = 0 then .done (takeTask d id s)
          else match readMap s t.mapnote with
            | .trap c v v2 _ => .trap c (w64 v) (w64 (v2.getD 0)) s
            | .wait q => .wait (askFor q s)
            | .ok bs locs => .done (loadStreams id t.args bs (takeTask d id (afterLoad 15 locs s)))))

/-! ## TDONE, TDONE.C (R228) -/

/-- The thread's finish put among those that wait for its stores and commands. -/
def pushFinish (leave : Bool) (s : State) : State :=
  { s with
    thr.pnd.finishes := s.thr.pnd.finishes ++ [⟨s.thr.hid.task, leave, s.dev.ser, s.thr.pc⟩]
    thr.hid.task := none
    thr.live := s.thr.live && !leave }

/-- TDONE (R228): the thread retires no further instruction. -/
def execTdone (s : State) : Host.Outcome State Fault Refusal :=
  .next (run { word := encode .tdone, drain := true } s (fun s => .done (pushFinish true s)))

/-- TDONE.C (R228). -/
def execTdoneC (s : State) : Host.Outcome State Fault Refusal :=
  .next (run { word := encode .tdoneC, drain := true } s (fun s => .done (pushFinish false s)))

/-! ## TLAUNCH, TLAUNCH.W (R230, R231) -/

/-- A launch not yet admitted. -/
def Launch.offered (ctx queue order acct : Nat) : Launch :=
  { phase := 0, ctx := ctx, queue := queue, packet := none, fromPool := false, order := order, acct := acct, dead := false, deadline := 0,
    abort := false, missed := false, cfg := 0, part := 0, nslot := 1, cscope := 5, kdesc := 0, argp := 0, sig := 0, nograft := false,
    tcbs := [], block := 0, tasks := [], slots := [], gtab := [], done := [], arrived := [], gone := [], status := 0, code := 0,
    cutting := none, owner := true, translated := false, mode1 := false, minvl := 0, maxvl := 0, scrmin := 0, admitted := 0, lmode := 0, vldep := false, vlen := 0, ncol := 0, group := 0, orig := none, children := [],
    suspN := [], cuts := [], collN := [], after := none, counted := false, cause := 0, ending := false, takenOf := [], posOf := [] }

/-- The queue of the thread's launch. -/
def ownQueue (s : State) : Nat := match SMap.find s.dev.launches (ownLaunch s) with | some l => l.queue | none => 0

/-- Entries of the pending-launch pool in use: an entry is freed when its launch is placed or rejected (R230). -/
def poolUsed (d : Device) : Nat := (d.launches.filter (fun p => p.2.fromPool && p.2.phase < 2)).length

/-- The pool is full. -/
def poolFull (d : Device) : Bool := 4096 ≤ poolUsed d

/-- The captured TCB offered to the pool. -/
def offerTcb (ea : Nat) (bs : List Byte) (s : State) : State :=
  let l := { Launch.offered s.slot.ctx (ownQueue s) s.dev.ser (acctOf s) with
    fromPool := true
    tcbs := [ea]
    block := BitVec.ofNat 1024 (leNat bs * 2 ^ 32) }
  { s with dev := { setLaunch s.dev.nextId l s.dev with nextId := s.dev.nextId + 1, ser := s.dev.ser + 1 } }

/-- `tlaunch` and `tlaunch.w` up to a full pool. -/
def launchWord (w : BitVec 32) (d a : BitVec 5) (full : State → Res) (s : State) : State :=
  run { word := w, xr := [a.toNat], xw := [d.toNat] } s (fun s =>
    let ea := (xr s a).toNat
    if ea % 128 ≠ 0 then .trap cAlign (xr s a) 0 s
    else match loadBytes { s with thr.sr.watch := [] } 15 1 (ea + 4) 124 with
      | .trap c v v2 _ => .trap c (w64 v) (w64 (v2.getD 0)) s
      | .wait q => .wait (askFor q s)
      | .ok bs locs =>
        if poolFull s.dev then full s
        else if s.thr.pnd.stores.any (fun p => p.fence = 0) then .wait s
        else .done (wx d.toNat 0 (offerTcb ea bs (afterLoad 15 locs s))))

/-- TLAUNCH (R230). -/
def execTlaunch (d a : BitVec 5) (s : State) : Host.Outcome State Fault Refusal :=
  .next (launchWord (encode (.tlaunch d a)) d a (fun s => .done (wx d.toNat 1 s)) s)

/-- The slots of a context that are being saved. -/
def savingSlots (s : State) (c : Nat) : Nat :=
  ((s.slot :: s.dev.slots.map (·.2)).filter (fun sl => sl.st = .saving && sl.save.isSome && sl.ctx = c)).length

/-- A save frame of the context is left for a save to start (R352). -/
def frameFree (s : State) (c : Nat) : Bool :=
  (ctxOf s.dev c).frames.length + savingSlots s c < bits (ctxOf s.dev c).savecfg.toNat 0 16

/-- A save of a slot may start: a frame is left, and while it runs no vector word of it stands behind a full ring (R351, R352).
(DEDUCED, log 82) -/
def saveReady (s : State) (sl : Slot) : Bool := frameFree s sl.ctx && (sl.st != .running || sl.rings.all (fun p => decide (p.2.length ≤ 4)))

/-- The slot in focus begins to be saved (R351): a chain is ungrafted instead (R293), for which it takes a frame all the same
(R294, R352). -/
def beginSave (k : SaveKind) (s : State) : State :=
  if s.slot.chain.isSome then ungraft none s
  else { s with slot.st := .saving, slot.save := some k, slot.wdog := 0 }

/-- TLAUNCH.W (R230): with the pool full its slot begins to be saved, as soon as a frame is free, and the word executes again when it
resumes. -/
def execTlaunchW (d a : BitVec 5) (s : State) : Host.Outcome State Fault Refusal :=
  .next (launchWord (encode (.tlaunchW d a)) d a (fun s =>
    if saveReady s s.slot then .final (beginSave .waiter s) else .wait s) s)

end Sys2Proof.Machine
end

