-- ==== Sys2Proof/Machine/Cutting.lean ====
section
/-! DEFINITION. Cuttings: their format, writing and sealing one, taking a slot back from one, and the words `susp`, `resm` and `cdisc`
(R237, R337 to R350). -/

namespace Sys2Proof.Machine

/-! ## Bytes -/

/-- A list of doublewords. -/
def dwords (l : List Nat) : List Byte := l.flatMap (leBytes 8)

/-- Zero bytes. -/
def zeros (n : Nat) : List Byte := List.replicate n 0

/-- Bytes padded with zeros to a multiple. -/
def padTo (n : Nat) (bs : List Byte) : List Byte := bs ++ zeros (roundUp bs.length n - bs.length)

/-- One bit of CRC-32C, reflected. -/
def crcBit (c : Nat) : Nat := if bit c 0 then (c / 2) ^^^ 0x82F63B78 else c / 2

/-- CRC-32C as RFC 3720 has it (R342). -/
def crc32c (bs : List Byte) : Nat :=
  bs.foldl (fun c b => loop (fun _ x => crcBit x) 8 (c ^^^ b.toNat)) 0xFFFFFFFF ^^^ 0xFFFFFFFF

/-- A cutting's bytes with STATE, GRANT and CRC read as zero (R342). -/
def crcBytes (bs : List Byte) : List Byte :=
  bs.take 8 ++ zeros (min 8 (bs.length - 8)) ++ ((bs.drop 16).take 8 ++ zeros (min 8 (bs.length - 24))) ++ ((bs.drop 32).take 12
    ++ zeros (min 4 (bs.length - 44))) ++ bs.drop 48

/-! ## Role blocks (R344, R345) -/

/-- The state registers of a role block in their order. -/
def savedRegs (r : SReg) : List Word :=
  [r.vstart, r.fpctl, r.fpflags, r.mctl, r.mrho, r.mflags, r.tcause, r.tpc, r.tval, r.tval2, r.torigin, r.tvec, r.tstat, r.taskid,
   SMap.get 0 r.watch 0, SMap.get 0 r.watch 1, SMap.get 0 r.watch 2, SMap.get 0 r.watch 3, r.wstat]

/-- The UNITS tag of a register: v 0 to 31, m 32 to 39, k 40 to 47. -/
def unitsOf (t : Thread) (key : Nat) : Nat := SMap.get 0 t.hid.units key

/-- The fixed part: TRIO or not, the role, the groups of the slot and the TCB of the task the thread holds. -/
def roleFixed (trio : Bool) (role : Nat) (groups : List Nat) (tcb : Nat) (t : Thread) : List Byte :=
  let r := t.sr
  let h := t.hid
  dwords [t.pc.toNat, r.vl.toNat, r.vlvalid.toNat] ++ leBytes 2 r.vtype.toNat ++ leBytes 1 role ++ leBytes 1 (fmtEw (vtFmt r.vtype))
    ++ leBytes 1 (vtGrp r.vtype) ++ zeros 3
    ++ dwords ((upFrom 0 32).map (fun n => if trio && 28 ≤ n then 0 else (SMap.get 0 t.x n).toNat))
    ++ dwords ((savedRegs r).map (·.toNat))
    ++ dwords [(h.srecAddr.getD (BitVec.allOnes 64)).toNat, h.srecStall]
    ++ dwords [h.lstart.toNat, h.lend.toNat, h.lcount, h.lstream, bitNat h.active]
    ++ dwords ((upFrom 0 16).map (fun i => (h.rstack.getD i 0).toNat)) ++ dwords [h.rstack.length, h.nspilled, h.rsbase.toNat]
    ++ dwords [h.fsbase.toNat, h.fspilled, h.frags.length]
    ++ ((upFrom 0 8).flatMap (fun i => leBytes 4 (match (0 :: groups.take 4)[i]? with | some g => SMap.get 0 h.arr g | none => 0)))
    ++ (upFrom 0 4).flatMap (fun i => leBytes 32 (SMap.get 0 t.cb i).toNat)
    ++ (upFrom 0 8).flatMap (fun i =>
        let st := SMap.get Stream.empty t.s i
        leBytes 64 st.desc.toNat ++ dwords [st.t, bitNat st.loaded])
    ++ (upFrom 0 48).flatMap (fun i => leBytes 2 (unitsOf t i))
    ++ dwords [tcb, 0, 0, 0]

/-- The v registers a cutting saves. -/
def savedV (trio : Bool) : List Nat := upFrom 0 (if trio then 28 else 32)

/-- The variable part: EXM, k registers, fragments, v registers, m registers. -/
def roleVar (trio : Bool) (vlen : Nat) (t : Thread) : List Byte :=
  leBytes (vlen / 4) t.hid.exm.toNat
    ++ (upFrom 0 8).flatMap (fun i => leBytes (64 * unitsOf t (40 + i)) (SMap.get 0 t.k i).toNat)
    ++ t.hid.frags.flatMap (fun f => fragBytes f ++ zeros 48)
    ++ (savedV trio).flatMap (fun i => leBytes (64 * unitsOf t i) (SMap.get 0 t.v i).toNat)
    ++ (upFrom 0 8).flatMap (fun i => leBytes (64 * unitsOf t (32 + i)) (SMap.get 0 t.m i).toNat)

/-- A role block. -/
def roleBlock (trio : Bool) (role : Nat) (groups : List Nat) (tcb vlen : Nat) (t : Thread) : List Byte :=
  padTo 64 (roleFixed trio role groups tcb t ++ roleVar trio vlen t)

/-! ## A slot's own parts (R346) -/

/-- The ring block. -/
def ringBlock (sl : Slot) : List Byte :=
  padTo 64 ((upFrom 0 4).flatMap (fun p =>
      let q := SMap.get [] sl.qports p
      dwords (q.length :: (upFrom 0 8).map (fun i => (q.getD i 0).toNat))))
    ++ (upFrom 0 4).flatMap (fun p =>
      let l := SMap.get [] sl.rings p
      padTo 64 (dwords [l.length]) ++ l.flatMap (fun r =>
        padTo 64 (dwords [r.vl] ++ leBytes 2 r.vtype.toNat ++ leBytes 2 r.units ++ leBytes 1 (bitNat r.committed))
          ++ leBytes (64 * r.units) r.data.toNat))

/-- A latent double-bit error of the slot in a tile (class 0) or weight-buffer slot (class 8), which the save finds (R360). -/
def slotLatent (sl : Slot) (cls n : Nat) : Bool :=
  (SMap.get Thread.absent sl.ths 1).hid.damaged.any (fun d => d.cls = cls && d.num = n)

/-- The tile block at N columns: marks, then the dirty configured tiles. -/
def tileBlock (n : Nat) (sl : Slot) : List Byte :=
  let zs := (upFrom 0 (partTiles sl.part.toNat)).filter (fun z => bit sl.zdirty.toNat z)
  let poison := (upFrom 0 16).foldl (fun m z => if bit sl.zpoison.toNat z || slotLatent sl 0 z then m + 2 ^ z else m) 0
  padTo 64 (leBytes 2 sl.zdirty.toNat ++ leBytes 2 poison ++ leBytes 2 n)
    ++ zs.flatMap (fun z => leBytes (32 * n) (SMap.get 0 sl.z z).toNat)

/-- The weight records. -/
def weightRecords (sl : Slot) : List Byte :=
  (upFrom 0 4).flatMap (fun i =>
    let w := SMap.get WbSlot.empty sl.wb i
    dwords [bitNat w.issued] ++ leBytes 32 w.desc.toNat ++ leBytes 32 w.book.toNat ++ dwords [bitNat (w.poison || slotLatent sl 8 i)])

/-- The units of a segment mask that the slot has. -/
def maskUnits (scru mask : Nat) : List Nat := (upFrom 0 (min scru 48)).filter (fun u => bit mask u)

/-- A slot to be saved: the roles with their number in the cutting, the TCB each holds and its thread. -/
structure Saved where
  slot : Nat
  sl : Slot
  trio : Bool
  roles : List (Nat × Nat × Thread)
  groups : List Nat
  vlen : Nat
  mask : Nat

/-- Offsets of parts laid one after the other. -/
def offsetsFrom : Nat → List (List Byte) → List Nat
  | o, [] => [o]
  | o, p :: r => o :: offsetsFrom (o + p.length) r

/-- A member section (R343): header, role blocks, ring block, tile block, weight records, scratchpad units. (DEDUCED, log 43) -/
def sectionBytes (d : Device) (v : Saved) : List Byte :=
  let us := maskUnits (bits v.sl.part.toNat 16 16) v.mask
  let blocks := v.roles.map (fun r => roleBlock v.trio r.1 v.groups r.2.1 v.vlen r.2.2)
  let k := blocks.length
  let parts := blocks ++ [if v.trio then ringBlock v.sl else [], tileBlock (columns d (v.slot / 2)) v.sl, weightRecords v.sl,
    us.flatMap (fun u => readBytes d (scratchKey v.slot (65536 * u)) 65536)]
  let offs := offsetsFrom 64 parts
  let roleOff := fun r => match (v.roles.map (·.1)).findIdx? (fun x => x = r) with | some i => offs.getD i 0 | none => 0
  dwords [us.foldl (fun m u => m + 2 ^ u) 0, offs.getD (k + 3) 0, if v.trio then offs.getD k 0 else 0, offs.getD (k + 1) 0,
      offs.getD (k + 2) 0, roleOff 0, roleOff 1, roleOff 2]
    ++ parts.flatten

/-- ROLES of a member (R343). -/
def rolesMask (v : Saved) : Nat := v.roles.foldl (fun m r => m + 2 ^ r.1) 0

/-- A member role holds a legal VTYPE (R194). -/
def holdsVtype (v : Saved) : Bool := v.roles.any (fun r => vtFmt r.2.2.sr.vtype != 0)

/-! ## The header (R340, R342) -/

/-- What a header says. -/
structure Head where
  flags : Nat
  owner : Nat
  nmem : Nat
  vlen : Nat
  cfg : Nat
  lmode : Nat
  group : Nat
  cscope : Nat
  part : Nat
  total : Nat
  infl : Nat
  ninfl : Nat
  ncol : Nat
  launch : Nat
  time : Nat
  dev : Nat

/-- A header's 256 bytes with STATE INCOMPLETE, GRANT 0 and CRC 0. -/
def headBytes (h : Head) : List Byte :=
  [0x43, 0x55, 0x54, 0x47, 1, 0, 0, 0] ++ dwords [1] ++ leBytes 4 h.flags ++ leBytes 2 h.owner ++ leBytes 2 h.nmem ++ dwords [0]
    ++ leBytes 4 h.vlen ++ leBytes 1 h.cfg ++ leBytes 1 h.lmode ++ leBytes 1 h.group ++ leBytes 1 h.cscope ++ leBytes 4 h.part ++ zeros 4
    ++ dwords [h.total, 256, h.infl] ++ leBytes 4 h.ninfl ++ leBytes 2 h.ncol ++ zeros 2 ++ dwords [h.launch, h.time, h.dev] ++ zeros 152

/-- The member table: entries in ascending launch slot order, then zeros up to the room it has (R338, R343). -/
def memberTable (room : Nat) (ms : List (Nat × Nat × Nat × Nat)) : List Byte :=
  let sorted := ms.foldl (fun m x => SMap.put m x.1 x.2) ([] : SMap (Nat × Nat × Nat))
  let bs := sorted.flatMap (fun x => dwords [x.2.1] ++ leBytes 4 x.2.2.1 ++ leBytes 2 x.1 ++ leBytes 1 x.2.2.2 ++ zeros 1)
  bs ++ zeros (room - bs.length)

/-- The room of a member table for C members (R338). -/
def tableRoom (c : Nat) : Nat := roundUp (256 + 16 * c) 64 - 256

/-! ## A thread and a slot from a section (R345, R346, R348) -/

/-- Registers of a kind read one after the other: number and units of each; where the next part begins. -/
def readUnits (sec : Nat) : Nat → List (Nat × Nat) → Nat × List (Nat × Nat)
  | p, [] => (p, [])
  | p, (n, u) :: r =>
    let x := readUnits sec (p + 64 * u) r
    (x.1, (n, bfield sec p (64 * u)) :: x.2)

/-- Fragments read one after the other. -/
def readFrags (sec : Nat) : Nat → Nat → List Frag
  | _, 0 => []
  | p, n + 1 => fragOf (bfield sec p 8208) :: readFrags sec (p + 8256) n

/-- The thread of a role block at an offset of a section, with the arrival counts of the listed groups. Its task and its place in the
tasks are set apart. The scope of an arrival is not saved; the widest is taken. (DEDUCED, log 40) -/
def threadFrom (sec off vlen : Nat) (trio : Bool) (groups : List Nat) : Thread :=
  let dw := fun o => bfield sec (off + o) 8
  let w := fun o => w64 (dw o)
  let units := (upFrom 0 48).foldl (fun m i => SMap.set 0 m i (bfield sec (off + 1472 + 2 * i) 2)) ([] : SMap Nat)
  let un := fun (base n : Nat) => (n, SMap.get 0 units (base + n))
  let p0 := off + 1600 + vlen / 4
  let ks := readUnits sec p0 ((upFrom 0 8).map (un 40))
  let nf := min (dw 664) 8
  let vs := readUnits sec (ks.1 + 8256 * nf) ((savedV trio).map (un 0))
  let ms := readUnits sec vs.1 ((upFrom 0 8).map (un 32))
  let exm := bfield sec (off + 1600) (vlen / 4)
  let regK := fun (l : List (Nat × Nat)) => l.foldl (fun m x => SMap.set 0 m x.1 (BitVec.ofNat 32768 x.2)) ([] : SMap KReg)
  { Thread.absent with
    live := true
    pc := w64 (dw 0 / 4 * 4)
    x := (upFrom 1 31).foldl (fun m i => SMap.set 0 m i (w (32 + 8 * i))) []
    v := vs.2.foldl (fun m x => SMap.set 0 m x.1 (BitVec.ofNat 16384 x.2)) []
    k := regK ks.2
    m := regK ms.2
    cb := (upFrom 0 4).foldl (fun m i => SMap.set 0 m i (BitVec.ofNat 256 (bfield sec (off + 704 + 32 * i) 32))) []
    s := (upFrom 0 8).foldl (fun m i =>
      let o := off + 832 + 80 * i
      if bit (bfield sec (o + 72) 8) 0 then
        SMap.set Stream.empty m i ⟨true, BitVec.ofNat 512 (bfield sec o 64), bfield sec (o + 64) 8, 0⟩
      else m) []
    sr := { SReg.start with
      vl := w 8
      vlvalid := w 16
      vtype := BitVec.ofNat 16 (bfield sec (off + 24) 2)
      vstart := w 288
      fpctl := w 296
      fpflags := w 304
      mctl := w 312
      mrho := w 320
      mflags := w 328
      tcause := w 336
      tpc := w 344
      tval := w 352
      tval2 := w 360
      torigin := w 368
      tvec := w 376
      tstat := w 384
      taskid := w 392
      watch := (upFrom 0 4).foldl (fun m i => SMap.set 0 m i (w (400 + 8 * i))) []
      wstat := w 432 }
    hid := { Hidden.start with
      srecAddr := if dw 440 = 2 ^ 64 - 1 then none else some (w 440)
      srecStall := dw 448
      lstart := w 456
      lend := w 464
      lcount := dw 472
      lstream := dw 480 % 8
      active := bit (dw 488) 0
      rstack := (upFrom 0 (min (dw 624) 16)).map (fun i => w (496 + 8 * i))
      nspilled := dw 632
      rsbase := w 640
      fsbase := w 648
      fspilled := dw 656
      frags := readFrags sec ks.1 nf
      exm := BitVec.ofNat 32768 exm ||| (allOnes <<< (2 * vlen))
      arr := ((upFrom 0 5).zip groups).foldl (fun m x =>
        let a := bfield sec (off + 672 + 4 * x.1) 4
        if a = 0 then m else SMap.set 0 (SMap.set 0 m x.2 a) (512 + x.2) 8) []
      units := units } }

/-- The queue ports of a ring block. -/
def portsFrom (sec off : Nat) : SMap (List Word) :=
  (upFrom 0 4).foldl (fun m p =>
    let o := off + 72 * p
    SMap.set [] m p ((upFrom 0 (min (bfield sec o 8) 8)).map (fun i => w64 (bfield sec (o + 8 + 8 * i) 8)))) []

/-- The slots of one ring, and where the next ring begins. -/
def ringFrom (sec : Nat) : Nat → Nat → Nat × List RingSlot
  | p, 0 => (p, [])
  | p, n + 1 =>
    let u := bfield sec (p + 10) 2
    let x := ringFrom sec (p + 64 + 64 * u) n
    (x.1, ⟨BitVec.ofNat 16384 (bfield sec (p + 64) (64 * u)), bfield sec p 8, BitVec.ofNat 16 (bfield sec (p + 8) 2), u,
      bit (bfield sec (p + 12) 1) 0⟩ :: x.2)

/-- The rings of a ring block: a slot that was stopped may have words behind a full one (log 82). -/
def ringsFrom (sec off : Nat) : SMap (List RingSlot) :=
  ((upFrom 0 4).foldl (fun (x : Nat × SMap (List RingSlot)) p =>
    let r := ringFrom sec (x.1 + 64) (min (bfield sec x.1 8) 68)
    (r.1, SMap.set [] x.2 p r.2)) (off + 320, [])).2

/-- The tiles of a tile block: those of the DIRTY mask, one after the other. -/
def tilesFrom (sec off : Nat) : SMap KReg :=
  let n := bfield sec (off + 4) 2
  ((upFrom 0 16).foldl (fun (x : Nat × SMap KReg) z =>
    if bit (bfield sec off 2) z then (x.1 + 32 * n, SMap.set 0 x.2 z (BitVec.ofNat 32768 (bfield sec x.1 (32 * n)))) else x)
    (off + 64, [])).2

/-- The weight records: a VALID one is issued and not yet filled again. -/
def weightsFrom (sec off : Nat) : SMap WbSlot :=
  (upFrom 0 4).foldl (fun m i =>
    let o := off + 80 * i
    if bit (bfield sec o 8) 0 then
      SMap.set WbSlot.empty m i ⟨true, BitVec.ofNat 256 (bfield sec (o + 8) 32), BitVec.ofNat 256 (bfield sec (o + 40) 32), 0, [], [],
        bit (bfield sec (o + 72) 8) 0⟩
    else m) []

/-- A slot's scratchpad set to zeros, its marks dropped (R239). -/
def zeroScratch (slot : Nat) (d : Device) : Device :=
  let lo := scratchKey slot 0
  { d with mem := d.mem.filter (fun c => !(lo ≤ c.1 && c.1 < lo + 2 ^ 24)), poison := d.poison.filter (fun c => !(lo / 8 ≤ c.1 && c.1 < (lo + 2 ^ 24) / 8)) }

/-- The saved units of a section put into a slot's scratchpad. -/
def scratchFrom (sec slot scru : Nat) (d : Device) : Device :=
  ((maskUnits 48 (bfield sec 0 8)).foldl (fun (x : Nat × Device) u =>
    (x.1 + 65536, if u < scru then writeBytes x.2 (scratchKey slot (65536 * u)) (leBytes 65536 (bfield sec x.1 65536)) else x.2))
    (bfield sec 8 8, d)).2

/-! ## Geometry that a grant depends on (R237, R348) -/

/-- SCRU that R237 grants a partition word on a slot, if it grants it. -/
def grantScru (d : Device) (n part : Nat) : Option Nat :=
  let core := n / 2
  let share := if laneMode d core = 0 then 3145728 else 1572864
  let used := 116 * partVlen part / 8 + partTiles part * 32 * columns d core + partStaging part
  if bits part 3 2 = 3 || hwMaxVl d core < partVlen part || share < used then none else some ((share - used) / 65536)

/-- The slot exists in its core's lane mode (R202). -/
def slotExists (d : Device) (n : Nat) : Bool := n < 512 && (laneMode d (n / 2) != 0 || n % 2 = 0)

/-- The slot can take a cutting (R347, R348). -/
def slotFits (d : Device) (lmode part : Nat) (dep : Bool) (vlen ncol n : Nat) : Bool :=
  slotExists d n && laneMode d (n / 2) = lmode && (grantScru d n part).isSome
    && (!dep || (slotVlmax d n part = vlen && columns d (n / 2) = ncol))

/-! ## Writing at a cutting's address -/

/-- Why an access to a cutting is not made: cause, TVAL, TVAL2; with cause 0 it waits for another device, and `ask` is the request that
leaves meanwhile: its owner, its address and its length. -/
structure Miss where
  cause : Nat
  val : Nat
  val2 : Nat
  ask : Option (Nat × Nat × Nat)

/-- The owner of the reads of a slot's save sequencer and, one above, of its writes among the requests of the device. -/
def cutOwner (slot : Nat) : Nat := 2 ^ 21 + 2 * slot

/-- Bytes of the data space of the thread in focus. Those of another device travel in requests of the save sequencer, all of which are
answered in the step that goes on. (DESIGN CHOICE, log 85) -/
def cutReach (s : State) (store : Bool) (va n : Nat) : Except Miss (List Loc) :=
  match xlateRange (xlateThr s store) va n with
  | .error (c, a) => .error ⟨c, a, 0, none⟩
  | .ok locs => match locs.filter (fun l => l.kind = .remote) with
    | [] => .ok locs
    | l :: r =>
      let own := cutOwner s.cur.1 + bitNat store
      if unreachable s.dev (paDev l.key) then .error ⟨cLoss, va, 2 ^ 62 + paDev l.key, none⟩
      else match readReq s.dev own l.key with
        | some q => if q.held then .error ⟨0, 0, 0, none⟩ else .ok locs
        | none =>
          if mayLeave s.dev l.key (r.length + 1) then .error ⟨0, 0, 0, some (own, l.key, r.length + 1)⟩
          else if ownFill s.dev own l.key then .ok locs
          else .error ⟨0, 0, 0, none⟩

/-- A request of the save sequencer leaves. -/
def askCut (m : Miss) (s : State) : State :=
  match m.ask with
  | some q => { s with dev := sendReq q.1 q.2.1 q.2.2 s.dev }
  | none => s

/-- Every request of a slot's save sequencer answered. -/
def cutAnswered (slot : Nat) (d : Device) : Device :=
  if d.fab.reqs.isEmpty then d else { d with fab.reqs := d.fab.reqs.filter (fun r => r.own / 2 != cutOwner slot / 2) }

/-- A write of the save sequencer for the slot in focus. op: 0 store, 1 atomic. (DEDUCED, log 41) (DEDUCED, log 44) -/
def cutWrite (op va : Nat) (bs : List Byte) (s : State) : Except Miss State :=
  match cutReach s true va bs.length with
  | .error m => .error m
  | .ok locs => .ok { s with dev := performHome (writerOf s 0 s.thr.sr.taskid) op (wholeBytes (locs.map (·.key)) bs) s.dev }

/-- A read of the save sequencer. -/
def cutRead (s : State) (va n : Nat) : Except Miss (List Byte) :=
  match cutReach s false va n with
  | .error m => .error m
  | .ok locs => match locs.findIdx? (fun l => poisoned s.dev l.key) with
    | some i => .error ⟨cLoss, va + i, 0, none⟩
    | none => .ok (locs.map (fun l => readByte s.dev l.key))

/-- The seal (R338, R341, R342): flags, NMEM, TOTAL, SAVETIME, the member table, the CRC, then STATE where it reads INCOMPLETE. -/
def sealCut (c : Cut) (owner : Nat) (s : State) : Except Miss State := do
  let flags := bitNat c.vldep + 4 * bitNat c.exportable
  let s ← cutWrite 0 (c.addr + 16) (leBytes 4 flags ++ leBytes 2 owner ++ leBytes 2 c.written.length) s
  let s ← cutWrite 0 (c.addr + 48) (dwords [c.next]) s
  let s ← cutWrite 0 (c.addr + 88) (dwords [s.dev.devtime.toNat]) s
  let s ← cutWrite 0 (c.addr + 256) (memberTable (tableRoom c.members.length) c.written) s
  let bs ← cutRead s c.addr c.next
  let s ← cutWrite 0 (c.addr + 44) (leBytes 4 (crc32c (crcBytes bs))) s
  let st ← cutRead s (c.addr + 8) 8
  if leNat st = 1 then cutWrite 1 (c.addr + 8) (dwords [2]) s else pure s

/-! ## SUSP (R338) -/

/-- The number under which a launch keeps the k-th cutting of a group. -/
def cutKey (g k : Nat) : Nat := 256 * k + g

/-- The cuttings of a group that a thread has joined. -/
def suspCount (l : Launch) (g key : Nat) : Nat := SMap.get 0 l.suspN (2048 * g + key)

/-- A thread's `susp` counted: the first of its cutting names the address and the members. -/
def countSusp (g key ea : Nat) (l : Launch) : Launch :=
  let k := suspCount l g key
  let l := { l with suspN := SMap.set 0 l.suspN (2048 * g + key) (k + 1) }
  match SMap.find l.cuts (cutKey g k) with
  | some _ => l
  | none =>
    let ms := (groupMembers l g).filter (fun j => (slotKeys l.cfg j).any (fun x => !l.gone.contains x))
    { l with cuts := SMap.put l.cuts (cutKey g k) ⟨ea, g, ms, ms, [], 256 + tableRoom ms.length, false, false⟩ }

/-- A thread's `susp` counted no longer. A cutting that nobody has joined any more is forgotten. -/
def uncountSusp (g key : Nat) (l : Launch) : Launch :=
  let k := suspCount l g key - 1
  let l := { l with suspN := SMap.set 0 l.suspN (2048 * g + key) k }
  match SMap.find l.cuts (cutKey g k) with
  | none => l
  | some c =>
    if c.written.isEmpty && c.members.all (fun j => (slotKeys l.cfg j).all (fun x => suspCount l g x ≤ k)) then
      { l with cuts := SMap.erase l.cuts (cutKey g k) }
    else l

/-- SUSP (R337, R338): the thread stops issuing at this word; SUSP_SECTION_WRITE does the rest. (DEDUCED, log 38) -/
def execSusp (d a b : BitVec 5) (g : BitVec 8) (s : State) : Host.Outcome State Fault Refusal :=
  let w := encode (.susp d a b g)
  .next (run { word := w, xr := [a.toNat, b.toNat], regOk := !(isTrio s && 28 ≤ d.toNat), drain := true } s (fun s =>
    let ea := (xr s a).toNat
    if ea % 256 ≠ 0 then .trap cAlign (xr s a) 0 s
    else if !isMember s g.toNat then .trap 0x04 (w.setWidth 64) 0 s
    else if bits (xr s b).toNat 48 15 ≠ 0 then .trap 0x01 (w.setWidth 64) (xr s b) s
    else .final { s with
      thr.pnd.susp := some ⟨ea, xr s b, g.toNat, d.toNat, s.thr.pc⟩
      thr.pnd.blocked := false
      dev := mapLaunch s.slot.launch (countSusp g.toNat (ownKey s) ea) s.dev }))

/-- Nothing of the thread is on its way. -/
def threadDrained (t : Thread) : Bool :=
  t.pnd.stores.isEmpty && t.pnd.barArrs.isEmpty && t.pnd.groupArrs.isEmpty && t.pnd.finishes.isEmpty

/-- The threads of a slot that hold its launch: role and thread. -/
def liveRoles (sl : Slot) : List (Nat × Thread) := sl.ths.filter (fun p => p.2.live)

/-- A slot all of whose threads have reached their `susp` and whose queues and stores are empty (R338). -/
def suspReady (sl : Slot) : Bool :=
  sl.st = .running && !(liveRoles sl).isEmpty && sl.ths.all (fun p => (!p.2.live || p.2.pnd.susp.isSome) && threadDrained p.2)
    && sl.cpq.isEmpty && sl.gsq.isEmpty && sl.clq.isEmpty && sl.mxq.isEmpty && sl.pxq.isEmpty

/-- The role whose `x`B and thread stand for the slot: the execute role or SOLO's, else the first that is left. -/
def chiefRole (sl : Slot) : Nat := if (SMap.get Thread.absent sl.ths 1).live then 1 else ((liveRoles sl).headD (1, Thread.absent)).1

/-- The TCB of the task a thread holds. -/
def tcbOf (d : Device) (t : Thread) : Nat :=
  match t.hid.task with | some id => (match SMap.find d.tasks id with | some x => x.tcb | none => 0) | none => 0

/-- A slot as a cutting saves it with a segment mask. -/
def savedSlot (d : Device) (n mask : Nat) (sl : Slot) : Saved :=
  { slot := n, sl := sl, trio := sl.cfg = 1, roles := (liveRoles sl).map (fun p => (p.1, tcbOf d p.2, p.2)), groups := sl.groups,
    vlen := (SMap.get Thread.absent sl.ths (chiefRole sl)).sr.vlmax.toNat, mask := mask }

/-- The header's fields for a slot. -/
def headOf (d : Device) (v : Saved) (flags group cscope launch : Nat) : Head :=
  { flags := flags, owner := v.sl.ctx, nmem := 0, vlen := v.vlen, cfg := bitNat v.trio, lmode := laneMode d (v.slot / 2), group := group,
    cscope := cscope, part := v.sl.part.toNat, total := 0, infl := 0, ninfl := 0, ncol := columns d (v.slot / 2), launch := launch, time := 0,
    dev := d.boot.devnum }

/-- A slot's nanoseconds counted when its last thread leaves it (R235). (DEDUCED, log 49) -/
def chargeSlot (sl : Slot) (d : Device) : Device := addAcnt sl.acct 5 (d.devtime - sl.placedNs).toNat d

/-- A slot given back; its debug blocks no longer read HALTED. -/
def dropSlot (n : Nat) (d : Device) : Device :=
  { d with
    slots := SMap.erase d.slots n
    dbg := (upFrom 0 3).foldl (fun m r =>
      let b := SMap.get DbgBlk.reset m (3 * n + r)
      SMap.set DbgBlk.reset m (3 * n + r) { b with halted := false }) d.dbg }

/-- Where a slot's tasks stand, kept with the launch they are recorded in for those who resume them. -/
def keepPlace (sl : Slot) (d : Device) : Device :=
  match sl.bound with
  | none => d
  | some (id, j) => mapLaunch id (fun l => { l with
      takenOf := SMap.set [] l.takenOf j sl.taken
      posOf := sl.ths.foldl (fun m p => SMap.set 0 m (3 * j + p.1) p.2.hid.tpos) l.posOf }) d

/-- The launch's list of slots without one. -/
def leaveList (j : Nat) (l : Launch) : Launch := { l with slots := l.slots.set j 1024 }

/-- The threads of a suspended slot leave their launch, and the slot is free (R338). -/
def leaveSlot (n : Nat) (d : Device) : Device :=
  let sl := SMap.get Slot.free d.slots n
  let d := dropSlot n (keepPlace sl (chargeSlot sl d))
  checkBoth sl.launch (mapLaunch sl.launch (fun l => (slotKeys l.cfg sl.lslot).foldl (fun l k => leaveGroups k l) (leaveList sl.lslot l)) d)

/-- The cutting and its key that the thread in focus is suspended for. -/
def cutOf (s : State) (l : Launch) (g : Nat) : Option (Nat × Cut) :=
  let k := cutKey g (suspCount l g (ownKey s) - 1)
  (SMap.find l.cuts k).map (fun c => (k, c))

/-- The member section, with the header for the first and the seal for the last (R338, R343). -/
def writeMember (u : Suspend) (l : Launch) (k : Nat) (c : Cut) (s : State) : Except Miss (State × Cut) := do
  let n := s.cur.1
  let sl := slotAt s n
  let v := savedSlot s.dev n u.mask.toNat sl
  let bound := sl.bound.getD (sl.launch, sl.lslot)
  let s ← if c.written.isEmpty then cutWrite 0 c.addr (headBytes (headOf s.dev v 0 c.group l.cscope bound.1)) s else pure s
  let bs := sectionBytes s.dev v
  let s ← cutWrite 0 (c.addr + c.next) bs s
  let c := { c with
    left := c.left.filter (· != sl.lslot)
    written := c.written ++ [(bound.2, c.next, bs.length, rolesMask v)]
    next := c.next + bs.length
    exportable := c.exportable || bit u.mask.toNat 63
    vldep := c.vldep || holdsVtype v }
  let s ← if c.left.isEmpty then sealCut c sl.ctx s else pure s
  pure ({ s with dev := mapLaunch sl.launch (fun l => { l with cuts := SMap.put l.cuts k c }) s.dev }, c)

/-- A thread of a slot whose section could not be written executes its `susp` again after RESUME. -/
def unsuspend (s : State) : State :=
  (liveRoles (slotAt s s.cur.1)).foldl (fun s p =>
    within s.cur.1 p.1 (fun s => match s.thr.pnd.susp with
      | none => s
      | some u => { s with thr.pnd.susp := none, dev := mapLaunch s.slot.launch (uncountSusp u.group (ownKey s)) s.dev }) s) s

/-- The section of the slot in focus written, or the slot stopped at its `susp`. -/
def suspendSlot (s : State) : State :=
  match s.thr.pnd.susp, SMap.find s.dev.launches s.slot.launch with
  | some u, some l => match cutOf s l u.group with
    | none => s
    | some (k, c) => match writeMember u l k c s with
      | .ok (t, _) => onDevice (fun d => leaveSlot s.cur.1 (cutAnswered s.cur.1 d)) t
      | .error m =>
        if m.cause = 0 then askCut m s
        else
          let w := match fetchWord s with | .ok w => w | .error _ => 0
          takeTrap w m.cause u.pc (w64 m.val) (w64 m.val2) (unsuspend s)
  | _, _ => s

/-- SUSP_SECTION_WRITE (R338, R343 to R346): slot `slot`, once every thread of it has reached its `susp` and all is drained. -/
def execSuspSectionWrite (s : State) : Host.Outcome State Fault Refusal :=
  let n := s.dev.arg.slot
  let sl := slotAt s n
  .next (if suspReady sl then within n (chiefRole sl) suspendSlot s else s)

/-! ## RESM (R347, R348) -/

/-- Why `resm` refuses a cutting: the cause and TVAL2, or its number of members where every check passes up to the CRC. -/
def checkCut (s : State) (h : Nat) (granted : List Nat) : Option (Nat × Nat) :=
  let st := bfield h 8 8
  let fl := bfield h 16 4
  let owner := bfield h 20 2
  let fits := ((upFrom 0 512).filter (slotFits s.dev (bfield h 37 1) (bfield h 40 4) (bit fl 0) (bfield h 32 4) (bfield h 76 2))).length
  if bfield h 0 4 ≠ 0x47545543 then some (0x24, 0)
  else if bfield h 4 1 ≠ 1 then some (0x20, 0)
  else if st = 3 ∨ st = 4 then some (0x21, 0)
  else if st ≠ 2 then some (0x24, 0)
  else if bit fl 1 || (s.slot.ctx != owner && !(bit fl 2 && granted.contains s.slot.ctx)) then some (0x22, 0)
  else if fits < bfield h 22 2 then some (0x23, bfield h 32 4)
  else none

/-- The resumed launch that a claimed cutting leads to (R348). (DEDUCED, log 51) -/
def resumedLaunch (s : State) (ea h sig : Nat) : Launch :=
  let own := s.slot.ctx = bfield h 20 2
  let n := bfield h 22 2
  let g := bfield h 38 1
  let rec0 := bfield h 80 8
  { Launch.offered s.slot.ctx (ownQueue s) s.dev.ser (acctOf s) with
    phase := 1
    admitted := s.dev.ser
    fromPool := true
    cfg := bfield h 36 1
    part := BitVec.ofNat 32 (bfield h 40 4 % 2 ^ 16)
    nslot := n
    cscope := bfield h 39 1
    sig := sig
    gtab := if g = 0 then [] else [(g, upFrom 0 n)]
    cutting := some ea
    owner := own
    lmode := bfield h 37 1
    vldep := bit (bfield h 16 4) 0
    vlen := bfield h 32 4
    ncol := bfield h 76 2
    group := g
    orig := if own && (SMap.find s.dev.launches rec0).isSome then some rec0 else none }

/-- The launch admitted into the pool; the launch its tasks are recorded in counts it among its own. -/
def admitResumed (ea h sig : Nat) (s : State) : State :=
  let l := resumedLaunch s ea h sig
  let id := s.dev.nextId
  let d := setLaunch id l s.dev
  let d := match l.orig with | some o => mapLaunch o (fun x => { x with children := x.children ++ [id] }) d | none => d
  { s with dev := { d with nextId := id + 1, ser := s.dev.ser + 1 } }

/-- A sync-class read of `resm` and `cdisc`: they match no watchpoint. -/
def cutLoad (s : State) (va n : Nat) : Got := loadBytes { s with thr.sr.watch := [] } 15 1 va n

/-- A Got that is no value, as the end of a word. -/
def gotRes (g : Got) (s : State) (f : List Byte → List Loc → Res) : Res :=
  match g with
  | .ok bs locs => f bs locs
  | .wait q => .wait (askFor q s)
  | .trap c v v2 _ => .trap c (w64 v) (w64 (v2.getD 0)) s

/-- STATE of a cutting changed at system scope (R341); the access must be a store that may be made. -/
def setCutState (ea st : Nat) (s : State) (f : State → Res) : Res :=
  match checkAccess { s with thr.sr.watch := [] } true 8 (ea + 8) 8 with
  | .trap c v _ => .trap c (w64 v) 0 s
  | .ok locs =>
    let put := fun (s : State) => f (answered locs
      { s with dev := performBytes (writerOf s 0 s.thr.sr.taskid) s.slot.acct 1 (wholeBytes (locs.map (·.key)) (leBytes 8 st)) s.dev })
    if locs.any (fun l => l.kind = .remote) then
      match farAccess s 15 false false locs with
      | .lost dn => .trap cLoss (w64 (ea + 8)) (w64 (2 ^ 62 + dn)) s
      | .wait q => .wait (askFor q s)
      | .ready => put s
    else put s

/-- The grant list of a header (R342). -/
def grantList (s : State) (h : Nat) (f : List Nat → List Loc → Res) : Res :=
  let a := bfield h 24 8
  if a = 0 then f [] []
  else gotRes (cutLoad s a 8) s (fun bs locs => gotRes (cutLoad s (a + 8) (2 * min 4096 (leNat (bs.take 4)))) s (fun cs more => f (listDevs cs) (locs ++ more)))

/-- RESM (R347, R348). -/
def execResm (d a b : BitVec 5) (s : State) : Host.Outcome State Fault Refusal :=
  .next (run { word := encodeResm d a b, xr := [a.toNat, b.toNat], xw := [d.toNat] } s (fun s =>
    let ea := (xr s a).toNat
    if ea % 256 ≠ 0 then .trap cAlign (xr s a) 0 s
    else gotRes (cutLoad s ea 256) s (fun hb l1 =>
      let h := leNat hb
      grantList s h (fun granted l2 =>
        gotRes (cutLoad s ea (bfield h 48 8)) s (fun bs l3 =>
          match checkCut s h granted with
          | some (c, v2) => .trap c (xr s a) (w64 v2) s
          | none =>
            if crc32c (crcBytes bs) ≠ bfield h 44 4 then .trap 0x24 (xr s a) 0 s
            else
              let sig := (xr s b).toNat
              let read := afterLoad 15 (l1 ++ l2 ++ l3)
              if poolFull s.dev then .done (wx d.toNat 1 (read s))
              else setCutState ea 3 s (fun s => .done (wx d.toNat 0 (admitResumed ea h sig (read s)))))))))

/-! ## CDISC (R349) -/

/-- CDISC (R349). -/
def execCdisc (d a : BitVec 5) (s : State) : Host.Outcome State Fault Refusal :=
  .next (run { word := encodeCdisc d a, xr := [a.toNat], xw := [d.toNat] } s (fun s =>
    let ea := (xr s a).toNat
    if ea % 256 ≠ 0 then .trap cAlign (xr s a) 0 s
    else gotRes (cutLoad s ea 256) s (fun hb locs =>
      let st := bfield (leNat hb) 8 8
      if st = 1 ∨ st = 2 then setCutState ea 4 s (fun s => .done (wx d.toNat (w64 st) (afterLoad 15 locs s)))
      else .done (wx d.toNat (w64 st) (afterLoad 15 locs s)))))

end Sys2Proof.Machine
end

