-- ==== Sys2Proof/Machine/Packets.lean ====
section
/-! DEFINITION. User-mode queues: the writes of their registers, consuming, starting and completing packets, and the admission of a
launch (R212, R216 to R224, R352, R402). -/

namespace Sys2Proof.Machine

/-! ## Dispatcher records (R402) -/

/-- The 64 bytes of a dispatcher record. -/
def dispRecord (d : Device) (c acct tval tval2 origin : Nat) : List Byte :=
  [1, 0, 0x10, 0xFF] ++ leBytes 2 c ++ leBytes 1 acct ++ [0] ++ leBytes 2 0xFFFF ++ [0xFF, 0] ++ zeros 4
    ++ dwords [0, tval, tval2, origin, 0, d.devtime.toNat]

/-- A dispatcher record posted, or dropped with DLOST. -/
def postDisp (c acct tval tval2 origin : Nat) (d : Device) : Device := postOrDrop d c 0x40 (dispRecord d c acct tval tval2 origin)

/-! ## Queue registers (R217, R220) -/

/-- QCFG.ENABLE. -/
def queueOn (u : UQueue) : Bool := bit u.qcfg.toNat 6

/-- Packets of the ring. -/
def ringSize (u : UQueue) : Nat := 2 ^ bits u.qcfg.toNat 0 5

/-- WEIGHT, with 0 taken as 1. -/
def weightOf (u : UQueue) : Nat := max 1 (bits u.qcfg.toNat 8 8)

/-- A write of QCFG. `next` numbers the first packet after an enable. -/
def writeQcfg (v : Word) (next : Nat) (u : UQueue) : UQueue :=
  if queueOn u then { u with qcfg := (u.qcfg &&& ~~~0x40) ||| (v &&& 0x40) }
  else
    let size := bits v.toNat 0 5
    let cfg := v &&& (if 6 ≤ size && size ≤ 16 then 0xFFFFFFF7F else 0xFFFFFFF3F)
    if bit cfg.toNat 6 then { u with qcfg := cfg, qrd := 0, qstat := 0, qnotify := 0, wait := false, first := next }
    else { u with qcfg := cfg }

/-- A write of QBASE. -/
def writeQbase (v : Word) (u : UQueue) : UQueue := if queueOn u then u else { u with qbase := v &&& 0x000FFFFFFFFFFFC0 }

/-- A write of the notify index: backward or beyond the ring it is ignored. -/
def writeNotify (v : Word) (u : UQueue) : UQueue :=
  if u.qnotify.toNat ≤ v.toNat && v.toNat ≤ u.qrd.toNat + ringSize u then { u with qnotify := v, wait := false } else u

/-- A queue changed. -/
def mapQueue (q : Nat) (f : UQueue → UQueue) (d : Device) : Device := if 1024 ≤ q then d else setQueueRegs q (f (queueAt d q)) d

/-- QCFG_WRITE (R217): queue `idx`, value `val`. -/
def execQcfgWrite (s : State) : Host.Outcome State Fault Refusal :=
  .next (onDevice (fun d => mapQueue d.arg.idx (writeQcfg d.arg.val d.nextId) d) s)

/-- QNOTIFY_WRITE (R220): queue `idx`, value `val`. -/
def execQnotifyWrite (s : State) : Host.Outcome State Fault Refusal :=
  .next (onDevice (fun d => mapQueue d.arg.idx (writeNotify d.arg.val) d) s)

/-! ## Consuming a packet (R218, R220) -/

/-- The queue stops with an error and a record. -/
def stopQueue (q err tval : Nat) (d : Device) : Device :=
  let u := queueAt d q
  postDisp (queueCtx u) (bits u.qcfg.toNat 28 8) tval err q (setQueueRegs q { u with qstat := w64 err } d)

/-- The address of the packet at QRD. -/
def packetAddr (u : UQueue) : Nat := u.qbase.toNat + 64 * (u.qrd.toNat % ringSize u)

/-- A packet breaks R218 for its queue. -/
def packetBad (u : UQueue) (b : Nat) : Bool :=
  let typ := bfield b 1 1
  let cls := bfield b 2 1
  let ntcb := bfield b 4 4
  bfield b 0 1 / 2 ≠ 0 || 3 < typ || cls / 4 ≠ 0 || bit cls 0 != bit u.qcfg.toNat 5 || bfield b 3 1 ≠ bits u.qcfg.toNat 28 8
    || (!bit cls 0 && bfield b 8 8 ≠ 0) || (if typ < 2 then ntcb = 0 else ntcb ≠ 0) || bfield b 48 16 ≠ 0
    || bfield b 16 8 % 16 ≠ 0 || bfield b 24 8 % 128 ≠ 0 || (ntcb = 0 && bfield b 24 8 ≠ 0) || (2 ≤ typ && bfield b 32 8 % 16 ≠ 0)

/-- The packet of a queue's ring, copied. -/
def packetOf (q : Nat) (u : UQueue) (b : Nat) : Packet :=
  { queue := q, index := u.qrd.toNat, typ := bfield b 1 1, flags := bfield b 2 1, acct := bfield b 3 1, deadline := w64 (bfield b 8 8),
    sig := bfield b 16 8, tcbs := (upFrom 0 (bfield b 4 4)).map (fun i => bfield b 24 8 + 128 * i), arg0 := bfield b 32 8,
    arg1 := w64 (bfield b 40 8), phase := 0, launches := [], status := 0, code := 0 }

/-- The first byte of a packet's TCB list that cannot be read. -/
def listMiss (d : Device) (c b : Nat) : Option Nat :=
  if 2 ≤ bfield b 1 1 then none
  else match ctxRead d c (bfield b 24 8) (128 * bfield b 4 4) with
    | .error a => some a
    | .ok _ => none

/-- The packet at QRD consumed, where the queue may consume one. -/
def consumePacket (q : Nat) (d : Device) : Device :=
  let u := queueAt d q
  let c := queueCtx u
  let va := packetAddr u
  if !queueOn u || u.qstat != 0 || u.wait || u.qnotify.toNat ≤ u.qrd.toNat then d
  else match ctxRead d c va 1 with
    | .error a => stopQueue q 2 a d
    | .ok b0 =>
      if !bit (leNat b0) 0 then setQueueRegs q { u with wait := true } d
      else match ctxRead d c va 64 with
        | .error a => stopQueue q 2 a d
        | .ok bs =>
          if packetBad u (leNat bs) then stopQueue q 1 va d
          else match listMiss d c (leNat bs) with
            | some a => stopQueue q 2 a d
            | none => match ctxWrite 0 c va [0] d with
              | .error a => stopQueue q 2 a d
              | .ok d =>
                let d := { d with packets := SMap.put d.packets d.nextId (packetOf q u (leNat bs)), nextId := d.nextId + 1 }
                setQueueRegs q { u with qrd := u.qrd + 1 } d

/-- PACKET_CONSUME (R220): queue `idx`. -/
def execPacketConsume (s : State) : Host.Outcome State Fault Refusal :=
  .next (onDevice (fun d => if d.arg.idx < 1024 then consumePacket d.arg.idx d else d) s)

/-! ## Starting and completing packets (R219) -/

/-- An earlier packet of the queue in force for a packet: those of before the last enable that never started count no more. -/
def earlier (d : Device) (p : Nat) (pk : Packet) : List Packet :=
  let first := (queueAt d pk.queue).first
  (d.packets.filter (fun x => x.1 < p && x.2.queue = pk.queue
    && (first ≤ x.1 || p < first || x.2.phase = 1 || x.2.phase = 2))).map (·.2)

/-- A packet may start: every earlier one has, and every earlier BARRIER is complete. -/
def mayStart (d : Device) (p : Nat) (pk : Packet) : Bool :=
  pk.phase = 0 && (earlier d p pk).all (fun x => x.phase = 1 || x.phase = 2)

/-- The launches of a packet that starts, offered for admission. -/
def offerAll (p : Nat) (pk : Packet) (lists : List (List Nat)) (d : Device) : Device :=
  let c := queueCtx (queueAt d pk.queue)
  let d := lists.foldl (fun d tcbs =>
    let l := { Launch.offered c pk.queue d.ser pk.acct with
      packet := some p
      dead := bit pk.flags 0
      abort := bit pk.flags 1
      deadline := pk.deadline
      tcbs := tcbs }
    { setLaunch d.nextId l d with nextId := d.nextId + 1, ser := d.ser + 1 }) { d with packets := SMap.put d.packets p { pk with phase := 1 } }
  { d with packets := SMap.put d.packets p { pk with phase := 1, launches := upFrom (d.nextId - lists.length) lists.length } }

/-- A KERNEL or GRAPH packet started. -/
def startPacket (p : Nat) (d : Device) : Device :=
  match SMap.find d.packets p with
  | none => d
  | some pk =>
    if pk.typ < 2 && mayStart d p pk then offerAll p pk (if pk.typ = 0 then [pk.tcbs] else pk.tcbs.map (fun t => [t])) d else d

/-- PACKET_START (R219): packet `idx`. -/
def execPacketStart (s : State) : Host.Outcome State Fault Refusal := .next (onDevice (fun d => startPacket d.arg.idx d) s)

/-- A packet that a fault stops: it never completes, and its queue stops. (DEDUCED, log 52) -/
def failPacket (p : Nat) (pk : Packet) (tval : Nat) (d : Device) : Device :=
  stopQueue pk.queue 2 tval { d with packets := SMap.put d.packets p { pk with phase := 3 } }

/-- A BARRIER completed once every earlier packet is and the signal's VALUE is at most ARG1. -/
def passBarrier (p : Nat) (d : Device) : Device :=
  match SMap.find d.packets p with
  | none => d
  | some pk =>
    if pk.typ = 2 && pk.phase = 0 && (earlier d p pk).all (fun x => x.phase = 2) then
      if pk.arg0 = 0 then completePacket p d
      else match ctxRead d (queueCtx (queueAt d pk.queue)) pk.arg0 8 with
        | .error a => failPacket p pk a d
        | .ok bs => if (w64 (leNat bs)).toInt ≤ pk.arg1.toInt then completePacket p d else d
    else d

/-- BARRIER_PACKET_COMPLETE (R219): packet `idx`. -/
def execBarrierPacketComplete (s : State) : Host.Outcome State Fault Refusal := .next (onDevice (fun d => passBarrier d.arg.idx d) s)

/-- A SIGNAL packet carried out. -/
def signalPacket (p : Nat) (d : Device) : Device :=
  match SMap.find d.packets p with
  | none => d
  | some pk =>
    let c := queueCtx (queueAt d pk.queue)
    if pk.typ = 3 && mayStart d p pk then
      match ctxRead d c pk.arg0 8 with
      | .error a => failPacket p pk a d
      | .ok bs => match ctxWrite 1 c pk.arg0 (leBytes 8 (w64 (leNat bs) - pk.arg1).toNat) d with
        | .error a => failPacket p pk a d
        | .ok d => completePacket p d
    else d

/-- SIGNAL_PACKET (R219): packet `idx`. -/
def execSignalPacket (s : State) : Host.Outcome State Fault Refusal := .next (onDevice (fun d => signalPacket d.arg.idx d) s)

/-! ## Admission (R212, R222 to R224, R352) -/

/-- The TCBs of a launch: blocks of 128 bytes. A pool launch has its captured block and reads PRED from memory. -/
def tcbBlocks (d : Device) (l : Launch) : Except Nat (List Nat) :=
  if l.fromPool then
    match predOf d l.ctx (l.tcbs.headD 0) with
    | .error a => .error a
    | .ok n => .ok [setBits l.block.toNat 0 32 n]
  else l.tcbs.mapM (fun t => match ctxRead d l.ctx t 128 with | .ok bs => .ok (leNat bs) | .error a => .error a)

/-- A partition word a TCB may not have (R236). -/
def partBad (p : Nat) : Bool := 5 < bits p 0 3 || bits p 3 2 = 3 || p / 128 ≠ 0

/-- The fields of the TCBs break R222 or R236. -/
def tcbsBad (bs : List Nat) : Bool :=
  let b := bs.headD 0
  bfield b 7 1 / 8 ≠ 0 || 1 < bfield b 6 1 || bfield b 68 2 = 0 || 512 < bfield b 68 2 || bfield b 70 1 < 5 || 8 < bfield b 70 1
    || partBad (bfield b 64 4) || bfield b 16 8 % 64 ≠ 0 || bfield b 80 8 % 64 ≠ 0 || bfield b 104 8 % 16 ≠ 0
    || bs.any (fun x => bfield x 8 8 % 8 ≠ 0)

/-- A kernel launch descriptor with an entry missing for the configuration, or a misaligned entry or handler (R223, R224). -/
def kdescBad (cfg k : Nat) : Bool :=
  (if cfg = 0 then [8] else [0, 8, 16]).any (fun o => bfield k o 8 % 4 ≠ 0) || bfield k 56 8 % 4 ≠ 0

/-- The groups of a group table without its entry 0: members in ascending order of each group that has any. -/
def groupsOf (nslot t : Nat) : SMap (List Nat) :=
  (upFrom 1 255).filterMap (fun g =>
    let ms := (upFrom 0 nslot).filter (fun j => bit (bfield t (64 * (g - 1)) 64) j)
    if ms.isEmpty then none else some (g, ms))

/-- A group table breaks R212. -/
def groupsBad (nslot t : Nat) : Bool :=
  (upFrom 0 255).any (fun i => bfield t (64 * i) 64 / 2 ^ nslot ≠ 0)
    || (upFrom 0 nslot).any (fun j => 4 < ((groupsOf nslot t).filter (fun p => p.2.contains j)).length)

/-- The largest VLSEL of a slot for a kernel of MODE 1, which must be at least MINVL, and the one its PART names lies in its range (R193). -/
def vlFits (d : Device) (l : Launch) (n : Nat) : Bool :=
  !l.mode1 || (l.minvl ≤ pow2AtMost (min l.maxvl (min (maxVlInForce d n) (hwMaxVl d (n / 2)))) && l.minvl ≤ partVlen l.part.toNat
    && partVlen l.part.toNat ≤ l.maxvl)

/-- R237 grants a launch its PART on a slot, with at least SCRMIN bytes of scratchpad, with LPART as it stands. -/
def grants (d : Device) (l : Launch) (n : Nat) : Bool :=
  match grantScru d n l.part.toNat with
  | none => false
  | some u => l.scrmin ≤ u * 65536 && vlFits d l n

/-- The slots that can be offered a launch. -/
def offerable (d : Device) (l : Launch) : List Nat := (upFrom 0 512).filter (fun n => slotExists d n && grants d l n)

/-- The largest cutting of one slot (R346) at N columns. (DEDUCED, log 47) -/
def largestCut (cfg part n : Nat) : Nat :=
  let v := partVlen part
  320 + 64 + 320 + 4 * (320 + v / 2) + 64 + 16 * 32 * n + 320 + 48 * 65536
    + (if cfg = 1 then 3 else 1) * (1600 + 9 * v / 4 + 8 * 8256 + 32 * v / 8 + 2 * v)

/-- LAUNCH_SHAPE (R224, R352). -/
def shapeRefused (d : Device) (l : Launch) : Bool :=
  let ns := offerable d l
  let save := (ctxOf d l.ctx).savecfg.toNat
  let cols := ns.foldl (fun m n => max m (columns d (n / 2))) 0
  ns.length < l.nslot || bits save 0 16 = 0 || bits save 16 24 * 4096 < largestCut l.cfg l.part.toNat cols

/-- A launch with the fields of its first TCB (R222). -/
def withTcb (b : Nat) (l : Launch) : Launch :=
  let fl := bfield b 7 1
  { l with
    cfg := bfield b 6 1
    part := BitVec.ofNat 32 (bfield b 64 4)
    nslot := bfield b 68 2
    cscope := bfield b 70 1
    argp := w64 (bfield b 96 8)
    nograft := bit fl 0
    dead := if l.fromPool then bit fl 2 else l.dead
    abort := if l.fromPool then bit fl 1 else l.abort
    deadline := if l.fromPool then w64 (bfield b 72 8) else l.deadline }

/-- The checks of R224 in the order in which they can be made: the code with the TVAL of its record, or the launch with its fields. -/
def checkLaunchTcbs (d : Device) (l : Launch) (bs : List Nat) : Except (Nat × Nat) Launch :=
  let b := bs.headD 0
  let first := l.tcbs.headD 0
  if tcbsBad bs then .error (1, first)
  else
    let l := withTcb b l
    match ctxRead d l.ctx (bfield b 16 8) 64 with
    | .error a => .error (4, a)
    | .ok kd =>
      if kdescBad l.cfg (leNat kd) then .error (1, first)
      else
        let l := { l with kdesc := BitVec.ofNat 512 (leNat kd) }
        let gt := bfield b 80 8
        match if gt = 0 then Except.ok [] else ctxRead d l.ctx (gt + 64) (255 * 64) with
        | .error a => .error (4, a)
        | .ok tab =>
          if gt ≠ 0 && groupsBad l.nslot (leNat tab) then .error (2, first)
          else if shapeRefused d l then .error (3, first)
          else .ok { l with gtab := if gt = 0 then [] else groupsOf l.nslot (leNat tab) }

/-- A task of a TCB (R222). -/
def taskOf (id tcb idx b : Nat) : Task :=
  { launch := id, tcb := tcb, idx := idx, nsucc := bfield b 4 2, succ := bfield b 8 8, args := (upFrom 0 4).map (fun i => w64 (bfield b (24 + 8 * i) 8)),
    count := w64 (bfield b 56 8), mapnote := bfield b 88 8, st := 0, took := [], fin := [], finThr := [], counted := false }

/-- A launch rejected (R224): its TCBs are FAILED, a record is posted, its own signal and its packet are told. (DEDUCED, log 48) -/
def rejectLaunch (id code tval sig : Nat) (l : Launch) (d : Device) : Device :=
  let d := l.tcbs.foldl (fun d t => ctxWriteOr 0 l.ctx (t + 112) (leBytes 8 5) d) d
  let d := postDisp l.ctx l.acct tval (0x100 + code) (if l.fromPool then 2 ^ 64 - 1 else l.queue) d
  endLaunch id stRejected code (setLaunch id { l with sig := if sig % 16 = 0 then sig else 0 } d)

/-- A TCB that waits linked to others in memory: LINK written with a pointer that no rule gives (R222, R225). (DESIGN CHOICE, log 30) -/
def chainTcb (c tcb : Nat) (d : Device) : Device :=
  ctxWriteOr 0 c (tcb + 120) (leBytes 8 (Config.link d.fresh)) { d with fresh := d.fresh + 1 }

/-- A task of a launch admitted with its TCB: READY, or WAITING and linked. -/
def admitTask (id t idx tcb b : Nat) (l : Launch) (d : Device) : Device :=
  let d := setTask t (taskOf id tcb idx b) d
  if bfield b 0 4 = 0 then setTaskState t 2 d else chainTcb l.ctx tcb (setTaskState t 1 d)

/-- A launch admitted: its tasks are numbered, and each is READY or WAITING (R225, R227, R232). -/
def admitLaunch (id : Nat) (l : Launch) (bs : List Nat) (d : Device) : Device :=
  let ts := upFrom d.nextId bs.length
  let d := setLaunch id { l with phase := 1, admitted := d.ser + 1, tasks := ts, sig := bfield (bs.headD 0) 104 8 }
    { d with nextId := d.nextId + bs.length, ser := d.ser + 1 }
  ((upFrom 0 bs.length).zip (l.tcbs.zip bs)).foldl (fun d x => admitTask id (ts.getD x.1 0) x.1 x.2.1 x.2.2 l d) d

/-- SIGADDR of a launch whose TCBs could not all be read, where that much of the first is known (R224). -/
def knownSignal (d : Device) (l : Launch) : Nat :=
  if l.fromPool then bfield l.block.toNat 104 8
  else match ctxRead d l.ctx (l.tcbs.headD 0 + 104) 8 with
    | .ok bs => leNat bs
    | .error _ => 0

/-- An offered launch admitted or rejected. -/
def decideLaunch (id : Nat) (d : Device) : Device :=
  match SMap.find d.launches id with
  | none => d
  | some l =>
    if l.phase != 0 then d
    else match tcbBlocks d l with
      | .error a => rejectLaunch id 4 a (knownSignal d l) l d
      | .ok bs => match checkLaunchTcbs d l bs with
        | .error (c, v) => rejectLaunch id c v (bfield (bs.headD 0) 104 8) l d
        | .ok l => admitLaunch id l bs d

/-- What the notes of its kernel say of an offered launch: `ok` that it is translated, `ok2` that VL_RANGE has MODE 1 with MINVL `num` and
MAXVL `len`, `val` SCRMIN (R173, R191, R193). (DESIGN CHOICE, log 34) -/
def noteLaunch (a : EvArg) (l : Launch) : Launch :=
  if l.phase = 0 then
    { l with translated := a.ok, mode1 := a.ok2, minvl := a.num, maxvl := a.len, scrmin := a.val.toNat }
  else l

/-- LAUNCH_ADMIT (R224): launch `idx`, with its kernel's notes. -/
def execLaunchAdmit (s : State) : Host.Outcome State Fault Refusal :=
  .next (onDevice (fun d => decideLaunch d.arg.idx (mapLaunch d.arg.idx (noteLaunch d.arg) d)) s)

end Sys2Proof.Machine
end

