-- ==== Sys2Proof/Machine/Graft.lean ====
section
/-! DEFINITION. The graft engine: MAP notes as the dispatcher reads them, footprints and displacement, and the conditions for a chain
(R284 to R288, R290, R291). -/

namespace Sys2Proof.Machine

/-! ## MAP notes (R284, R285, R287) -/

/-- A kernel as the graft engine sees it: a launch and the task of it that is grafted. -/
structure Kern where
  lid : Nat
  tid : Nat
  launch : Launch
  task : Task

/-- A kernel of a launch and one of its tasks. -/
def kernAt (d : Device) (id t : Nat) : Option Kern :=
  match SMap.find d.launches id, SMap.find d.tasks t with
  | some l, some x => if l.tasks.contains t then some ⟨id, t, l, x⟩ else none
  | _, _ => none

/-- The entries of a MAP note with their BASE from the arguments; none where there is no note or it cannot be read. -/
def noteEntries (d : Device) (c note : Nat) (args : List Word) : Option (List MapEntry) :=
  if note = 0 then none
  else match ctxRead d c note 8 with
    | .error _ => none
    | .ok h => match ctxRead d c (note + 8) (72 * min 24 (bits (leNat h) 32 32)) with
      | .error _ => none
      | .ok bs => some ((mapEntries (bs.length / 72) (leNat bs)).map (fun e => { e with desc := mapDesc args e }))

/-- The MAP note of a TCB in memory. -/
def tcbNote (d : Device) (c tcb : Nat) : Option (List MapEntry) :=
  match ctxRead d c tcb 128 with
  | .error _ => none
  | .ok bs =>
    let b := leNat bs
    noteEntries d c (bfield b 88 8) ((upFrom 0 4).map (fun i => w64 (bfield b (24 + 8 * i) 8)))

/-- The dimensions of a descriptor: extents and strides. -/
def dims (d : Nat) : List (Nat × Int) := (upFrom 0 (dNdim d)).map (fun k => (dExtent d k, dStride d k))

/-- The bytes from the lowest element byte to the highest; none for an empty stream. -/
def byteRange (d : Nat) : Option (Int × Int) :=
  if dCount d = 0 then none
  else
    let ew : Int := fmtEw (dFmt d)
    let b0 : Int := 8 * (dBase d : Int) + dBitoff d
    let lo := (dims d).foldl (fun x p => x + ew * min 0 (((p.1 : Int) - 1) * p.2)) b0
    let hi := (dims d).foldl (fun x p => x + ew * max 0 (((p.1 : Int) - 1) * p.2)) b0
    some (lo.fdiv 8, (hi + ew - 1).fdiv 8)

/-- A MAP note touches a tensor: a byte range of it meets the tensor's. A missing note touches everything (R287, R291). -/
def touches (onlyIn : Bool) (t : Nat) : Option (List MapEntry) → Bool
  | none => true
  | some es => es.any (fun e => (!onlyIn || bit (dFlags e.desc) 0) && (match byteRange e.desc, byteRange t with
      | some a, some b => a.1 ≤ b.2 && b.1 ≤ a.2
      | _, _ => false))

/-! ## Footprints (R288) -/

/-- The dimensions of more than one element. -/
def realDims (d : Nat) : List (Nat × Int) := (dims d).filter (fun p => p.1 != 1)

/-- Pairs put in order of their strides. -/
def byStride (l : List (Nat × Int)) : List (Nat × Int) :=
  l.foldr (fun p acc => acc.filter (fun q => q.2 < p.2) ++ [p] ++ acc.filter (fun q => p.2 ≤ q.2)) []

/-- Each next stride is the product of the one before and its extent; the first is 1. -/
def packed : Int → List (Nat × Int) → Bool
  | _, [] => true
  | want, p :: r => p.2 = want && packed (want * p.1) r

/-- A footprint that can be bound. -/
def footOk (d : Nat) : Bool :=
  dBlk d = 0 && (realDims d).all (fun p => 0 < p.2) && (realDims d).eraseDups.length = (realDims d).length && packed 1 (byStride (realDims d))

/-- Two descriptors have equal footprints. -/
def sameFoot (a b : Nat) : Bool :=
  footOk a && footOk b && dBase a = dBase b && dFmt a = dFmt b && dBitoff a = dBitoff b && dCount a = dCount b
    && byStride (realDims a) = byStride (realDims b)

/-- The positional weight of each pair in a descriptor's iteration: the product of the extents inside it. -/
def weights : Nat → List (Nat × Int) → List ((Nat × Int) × Nat)
  | _, [] => []
  | w, p :: r => (p, w) :: weights (w * p.1) r

/-- Δ_k of each pair, with its extent. -/
def deltas (p c : Nat) : List (Nat × Int) :=
  (weights 1 (realDims p)).map (fun x =>
    let w' := ((weights 1 (realDims c)).find? (fun y => y.1 = x.1)).elim 0 (·.2)
    (x.1.1, (w' : Int) - x.2))

/-- The displacement. -/
def displacement (p c : Nat) : Nat :=
  let side := fun (sgn : Int) => (deltas p c).foldl (fun s x => s + ((x.1 : Int) - 1) * max 0 (sgn * x.2)) 0
  (max (side 1) (side (-1))).toNat

/-- The map from producer to consumer positions is the identity. -/
def sameOrder (p c : Nat) : Bool := (deltas p c).all (fun x => x.2 = 0)

/-! ## The conditions (R284, R286, R287) -/

/-- A task may be grafted. -/
def graftable (k : Kern) : Bool :=
  let l := k.launch
  l.phase = 1 && !l.fromPool && l.packet.isSome && l.cfg = 0 && l.nslot = 1 && !l.nograft && !l.abort && k.task.mapnote != 0

/-- The descriptors of a kernel. -/
def kernNote (d : Device) (k : Kern) : Option (List MapEntry) := noteEntries d k.launch.ctx k.task.mapnote k.task.args

/-- Every descriptor has PURE. -/
def pureNote : Option (List MapEntry) → Bool
  | none => false
  | some es => es.all (fun e => bit (dFlags e.desc) 3)

/-- No packet between those of two launches has a TCB whose MAP note touches the tensor. -/
def clearBetween (d : Device) (a b : Launch) (t : Nat) : Bool :=
  match a.packet, b.packet with
  | some p, some q =>
    (d.packets.filter (fun x => p < x.1 && x.1 < q && x.2.queue = a.queue)).all (fun x =>
      x.2.tcbs.all (fun c => !touches false t (tcbNote d a.ctx c)))
  | _, _ => false

/-- The TCBs a task names as successors. -/
def successors (d : Device) (c : Nat) (t : Task) : List Nat :=
  match ctxRead d c t.succ (8 * t.nsucc) with
  | .error _ => []
  | .ok bs => (upFrom 0 t.nsucc).map (fun i => bfield (leNat bs) (8 * i) 8)

/-- A binding that conditions 1 to 4 and 6 allow: the producer's stream register and descriptor, the consumer's, and whether the
tensor is elided (R291). -/
structure Link where
  out : MapEntry
  inn : MapEntry
  elided : Bool

/-- Conditions 1 to 4 and 6 for a producer and a consumer. -/
def linkOf (d : Device) (pk ck : Kern) : Option Link :=
  let p := pk.launch
  let c := ck.launch
  let ct := ck.task
  match kernNote d pk, kernNote d ck with
  | some pn, some cn =>
    let succ := successors d p.ctx pk.task
    let pairs := (pn.filter (fun e => e.role = 1 && bit (dFlags e.desc) 1)).flatMap (fun e =>
      ((cn.filter (fun f => f.role = 1 && bit (dFlags f.desc) 0)).filter (fun f => sameFoot e.desc f.desc)).map (fun f => (e, f)))
    if !(graftable pk && graftable ck && pk.lid != ck.lid && p.ctx = c.ctx && p.queue = c.queue && p.dead = c.dead && p.part = c.part) then none
    else if !pureNote (some pn) then none
    else if ct.st != 1 || succ.filter (· = ct.tcb) != [ct.tcb] || (match predOf d c.ctx ct.tcb with | .ok n => n != 1 | .error _ => true) then none
    else match pairs with
      | [(e, f)] =>
        if !clearBetween d p c e.desc then none
        else some ⟨e, f, bit (dFlags e.desc) 2 && succ.all (fun s => s = ct.tcb || !touches true e.desc (tcbNote d p.ctx s))⟩
      | _ => none
  | _, _ => none

/-- W of a link (R290): ring storage for the identity map, otherwise staging, of which each of two takes half. -/
def linkCap (part : Nat) (half : Bool) (k : Link) : Nat :=
  let ew := fmtEw (dFmt k.out.desc)
  if sameOrder k.out.desc k.inn.desc then 4 * partVlen part / ew else partStaging part / (if half then 2 else 1) * 8 / ew

/-- Condition 5. -/
def capOk (part : Nat) (half : Bool) (k : Link) : Bool :=
  2 * displacement k.out.desc k.inn.desc + 1 ≤ linkCap part half k

/-- The links of consecutive kernels. -/
def linksOf (d : Device) : List Kern → Option (List Link)
  | a :: b :: r => match linkOf d a b, linksOf d (b :: r) with
    | some k, some ks => some (k :: ks)
    | _, _ => none
  | _ => some []

/-- The bindings of a chain of two or three kernels of distinct launches, the first of them READY, where every condition of R287
holds. (DEDUCED, log 29) -/
def chainBinds (d : Device) (ks : List Kern) : Option (List Binding) :=
  let part := (ks.head?.elim 0 (fun k => k.launch.part.toNat))
  match linksOf d ks with
  | none => none
  | some ls =>
    let half := 1 < (ls.filter (fun k => !sameOrder k.out.desc k.inn.desc)).length
    if d.graftEn && (ks.length = 2 || ks.length = 3) && (ks.map Kern.lid).eraseDups.length = ks.length && ks.head?.any (fun k => k.task.st = 2)
        && ls.all (capOk part half) then
      some (ls.map (fun k => { cap := linkCap part half k, elided := k.elided, fmt := dFmt k.out.desc, items := [], next := 0, taken := 0,
                               prodReg := k.out.sreg, consReg := k.inn.sreg, hurt := [] }))
    else none

/-! ## The graft window (R286) -/

/-- The packets of a queue that the dispatcher has consumed and not started, in order. -/
def unstarted (d : Device) (q : Nat) : List Nat :=
  (d.packets.filter (fun p => p.2.queue = q && p.2.phase = 0 && (queueAt d q).first ≤ p.1)).map (·.1)

/-- The next n packets of a queue that are not started, consumed and started in order; none where a BARRIER or SIGNAL stands among them or
they may not start. (DEDUCED, log 28) -/
def pullIn (q : Nat) : Nat → Device → Option (List Nat × Device)
  | 0, d => some ([], d)
  | n + 1, d =>
    let d := if (unstarted d q).isEmpty then consumePacket q d else d
    match unstarted d q with
    | [] => none
    | p :: _ =>
      let d := startPacket p d
      match SMap.find d.packets p with
      | some pk => if pk.phase = 1 then (pullIn q n d).map (fun r => (p :: r.1, r.2)) else none
      | none => none

/-- The notes of a kernel that the graft engine admits, in 13 bytes: bits 0 and 1 say that it is translated and has MODE 1, then MINVL,
MAXVL and SCRMIN. (DESIGN CHOICE, log 34) -/
def kernelNotes (bs : List Byte) : EvArg :=
  let n := leNat bs
  { EvArg.zero with ok := bit n 0, ok2 := bit n 1, num := bits n 8 32, len := bits n 40 32, val := w64 (bits n 72 32) }

/-- Kernel j of a started packet: the TCB j of its list, its launch admitted. -/
def joinKern (p j : Nat) (notes : List Byte) (d : Device) : Option ((Nat × Nat) × Device) :=
  match SMap.find d.packets p with
  | none => none
  | some pk => match pk.launches[if pk.typ = 1 then j else 0]? with
    | none => none
    | some id =>
      let d := decideLaunch id (mapLaunch id (noteLaunch (kernelNotes notes)) d)
      (SMap.find d.launches id).bind (fun l => (l.tasks[if pk.typ = 1 then 0 else j]?).map (fun t => ((id, t), d)))

/-- Kernels joined one after the other; packet 0 is the first kernel's own, the others those of the window. -/
def joinKerns (win : List Nat) (notes : List (List Byte)) : Nat → List (Nat × Nat) → Device → Option (List (Nat × Nat) × Device)
  | _, [], d => some ([], d)
  | i, (w, j) :: r, d =>
    match (win[w]?).bind (fun p => joinKern p j (notes.getD i []) d) with
    | none => none
    | some (k, d) => (joinKerns win notes (i + 1) r d).map (fun x => (k :: x.1, x.2))

/-- A chain formed from a launch and its task by the kernels that `pairs` names: for each the packet, 0 for the launch's own and 1 to 8 for
the next ones not started, and the TCB in its list (R286). The device has those packets started and the kernels admitted. -/
def formChain (id task : Nat) (pairs : List (Nat × Nat)) (notes : List (List Byte)) (d : Device) : Option (List Kern × List Binding × Device) := do
  let l ← SMap.find d.launches id
  let p ← l.packet
  let far := pairs.foldl (fun m x => max m x.1) 0
  if 8 < far then none
  else
    let (win, d) ← pullIn l.queue far d
    let (ids, d) ← joinKerns (p :: win) notes 0 pairs d
    let ks ← ((id, task) :: ids).mapM (fun x => kernAt d x.1 x.2)
    let binds ← chainBinds d ks
    pure (ks, binds, d)

end Sys2Proof.Machine
end

