-- ==== Sys2Proof/Machine/Place.lean ====
section
/-! DEFINITION. Placing launches, chains and cuttings on slots in the dispatcher's order, what `tdone` does when it takes effect,
deadlines, and the end of a launch by the host (R223, R225, R228, R232 to R234, R239, R289, R298, R322, R338, R339, R348). -/

namespace Sys2Proof.Machine

/-! ## The order of placement (R232) -/

/-- A change made with a thread in focus, on a parked device. -/
def inSlot (n r : Nat) (f : State → State) (d : Device) : Device := park (f (unpark d n r))

/-- The launches of a queue that run (R233). -/
def runs (d : Device) (q : Nat) : Bool := d.launches.any (fun p => p.2.phase = 2 && p.2.queue = q)

/-- V of a queue as a fraction: CHG and WEIGHT. -/
def shareOf (d : Device) (q : Nat) : Nat × Nat := let u := queueAt d q; (u.qchg.toNat, weightOf u)

/-- A fraction below another. -/
def fracLt (a b : Nat × Nat) : Bool := a.1 * b.2 < b.1 * a.2

/-- A launch of the same class comes before another. -/
def before (d : Device) (a b : Launch) : Bool :=
  let tie := a.queue < b.queue || (a.queue = b.queue && a.admitted < b.admitted)
  if a.dead then a.deadline.toNat < b.deadline.toNat || (a.deadline = b.deadline && tie)
  else
    let x := shareOf d a.queue
    let y := shareOf d b.queue
    fracLt x y || (!fracLt y x && tie)

/-- DROOT.EN of a context (R249). -/
def ctxOn (d : Device) (c : Nat) : Bool := bit (ctxOf d c).droot.toNat 0

/-- A launch waits for slots: one of its tasks is READY, or it is resumed from a cutting. A re-run waits for the re-run before it. -/
def waitsForSlots (d : Device) (l : Launch) : Bool :=
  l.phase = 1 && ctxOn d l.ctx
    && (match l.after with | some a => (match SMap.find d.launches a with | some x => x.phase = 3 | none => true) | none => true)
    && (l.cutting.isSome || l.tasks.any (fun t => match SMap.find d.tasks t with | some x => x.st = 2 | none => false))

/-- A system cutting's launch with what its header asks of a slot, while STATE reads SEALED (R341, R353). -/
def cutLaunch (d : Device) (c : SysCut) : Option Launch :=
  match SMap.find d.launches c.launch, ctxRead d c.ctx c.addr 256 with
  | some l, .ok hb =>
    let h := leNat hb
    if bfield h 8 8 = 2 then
      some { l with
        nslot := 1
        cutting := some c.addr
        part := BitVec.ofNat 32 (bfield h 40 4)
        lmode := bfield h 37 1
        vldep := bit (bfield h 16 4) 0
        vlen := bfield h 32 4
        ncol := bfield h 76 2 }
    else none
  | _, _ => none

/-- A system cutting may be placed again (R230, R294, R353). -/
def cutWaits (d : Device) (k : Nat) (c : SysCut) : Bool :=
  ctxOn d c.ctx && (match c.kind with
    | .waiter => !poolFull d && d.sysCuts.all (fun p => p.2.kind != .waiter || p.1 = k || c.order ≤ p.2.order)
    | .ungraft => c.waits.isEmpty
    | _ => true)

/-- Everything that waits to be placed: a cutting stands for its launch. -/
def waiting (d : Device) : List Launch :=
  (d.launches.filter (fun p => waitsForSlots d p.2)).map (·.2)
    ++ (d.sysCuts.filter (fun p => cutWaits d p.1 p.2)).filterMap (fun p => cutLaunch d p.2)

/-- A slot that a launch may be placed on. -/
def slotFree (d : Device) (n : Nat) : Bool :=
  let sl := SMap.get Slot.free d.slots n
  slotExists d n && d.boot.powered && sl.st = .free && sl.held.isNone

/-- A free slot fits a launch. -/
def fitsOn (d : Device) (l : Launch) (n : Nat) : Bool :=
  slotFree d n && (if l.cutting.isSome then slotFits d l.lmode l.part.toNat l.vldep l.vlen l.ncol n else grants d l n)

/-- Enough free slots fit a launch. -/
def placeable (d : Device) (l : Launch) : Bool := l.nslot ≤ ((upFrom 0 512).filter (fitsOn d l)).length

/-- No launch of the class waits before this one. -/
def firstOfClass (d : Device) (l : Launch) : Bool := (waiting d).all (fun x => x.dead != l.dead || !before d x l)

/-- A launch is the next to be placed: it is first of its class, and a SHARE launch has no DEADLINE launch before it that could be placed
now. -/
def isNext (d : Device) (l : Launch) : Bool :=
  firstOfClass d l && (l.dead || (waiting d).all (fun x => !(x.dead && firstOfClass d x && placeable d x)))

/-- Slot numbers in strictly ascending order. -/
def ascending : List Nat → Bool
  | a :: b :: r => a < b && ascending (b :: r)
  | _ => true

/-! ## A slot and its threads at the start (R16, R223, R237, R239, R245, R248) -/

/-- A slot of a launch without threads: the partition with SCRU filled in, the context's roots read. -/
def emptySlot (d : Device) (n j id : Nat) (l : Launch) : Slot :=
  let c := ctxOf d l.ctx
  let part := l.part.toNat % 2 ^ 16
  { Slot.free with
    st := .running
    cfg := l.cfg
    ctx := l.ctx
    acct := l.acct
    part := BitVec.ofNat 32 (part + (grantScru d n part).getD 0 * 2 ^ 16)
    groups := ((l.gtab.filter (fun p => p.2.contains j)).map (·.1)).filter (· != 0)
    launch := id
    lslot := j
    bound := some (id, j)
    droot := c.droot
    iroot := c.iroot
    cbase := c.cbase
    cbound := c.cbound
    placedAt := cyclesAt d n
    placedNs := d.devtime }

/-- A thread of a kernel at one of its entries (byte offset in KDESC): index i of R223. -/
def startThread (d : Device) (n : Nat) (sl : Slot) (l : Launch) (entry i : Nat) : Thread :=
  let k := l.kdesc.toNat
  let rs := w64 (bfield k 40 8) + w64 (i * bfield k 36 4)
  { Thread.absent with
    live := true
    pc := w64 (bfield k entry 8)
    x := SMap.set 0 (SMap.set 0 [] 2 (w64 (bfield k 24 8) + w64 ((i + 1) * bfield k 32 4))) 3 l.argp
    sr := { SReg.start with vlmax := w64 (slotVlmax d n sl.part.toNat), tvec := w64 (bfield k 56 8) &&& 0x000FFFFFFFFFFFFC }
    hid := { Hidden.start with rsbase := rs, fsbase := rs + w64 (8 * bfield k 48 4) } }

/-- The roles of a configuration with the offsets of their entries in KDESC. -/
def entriesOf (cfg : Nat) : List (Nat × Nat) := if cfg = 1 then [(0, 0), (1, 8), (2, 16)] else [(1, 8)]

/-- The threads of a slot held back by their debug blocks, which read HALTED where no MXQ entry of theirs is left (R334). -/
def heldBack (n : Nat) (sl : Slot) (d : Device) : Slot × Device :=
  let halt := fun r => (SMap.get DbgBlk.reset d.dbg (3 * n + r)).halt
  ({ sl with ths := sl.ths.map (fun p => (p.1, { p.2 with halted := halt p.1 })) },
   { d with dbg := sl.ths.foldl (fun m p =>
      let b := SMap.get DbgBlk.reset m (3 * n + p.1)
      SMap.set DbgBlk.reset m (3 * n + p.1) { b with halted := b.halt && !sl.mxq.any (fun e => e.op != .marker && e.role = p.1) }) d.dbg })

/-- The owner of a request is a thread, an engine or the save sequencer of a slot. -/
def ownedBy (n own : Nat) : Bool :=
  (readOwner n 0 ≤ own && own ≤ readOwner n 2) || (2 ^ 20 + 16 * n ≤ own && own < 2 ^ 20 + 16 * (n + 1)) || own / 2 = cutOwner n / 2

/-- Requests of those who held a slot before, whose responses nobody awaits any more. -/
def dropAsks (n : Nat) (d : Device) : Device :=
  if d.fab.reqs.isEmpty then d else { d with fab.reqs := d.fab.reqs.filter (fun r => !ownedBy n r.own) }

/-- A slot taken into use: L1D of the core and the scratchpad are cleared (R239, R245). -/
def installSlot (n : Nat) (sl : Slot) (d : Device) : Device :=
  let x := heldBack n sl (dropAsks n d)
  let d := l1dDropAll (zeroScratch n x.2) (n / 2)
  { d with slots := SMap.set Slot.free d.slots n x.1 }

/-- One slot of a launch placed. -/
def placeSlot (id : Nat) (l : Launch) (j n : Nat) (d : Device) : Device :=
  let sl := emptySlot d n j id l
  let ths := (entriesOf l.cfg).map (fun e => (e.1, startThread d n sl l e.2 (3 * j + e.1)))
  installSlot n { sl with ths := ths } d

/-- The least V among the queues with running launches. -/
def leastShare (d : Device) : Option (Nat × Nat) :=
  ((d.launches.filter (fun p => p.2.phase = 2)).map (fun p => shareOf d p.2.queue)).foldl (fun m x => match m with
    | none => some x
    | some y => if fracLt x y then some x else some y) none

/-- A queue gets its first running launch (R233). -/
def startQueue (q : Nat) (d : Device) : Device :=
  if runs d q then d
  else match leastShare d with
    | none => d
    | some v =>
      let u := queueAt d q
      setQueueRegs q { u with qchg := w64 (max u.qchg.toNat (min (ceilDiv (weightOf u * v.1) v.2) (2 ^ 64 - 1))) } d

/-! ## A launch resumed from a cutting (R345 to R348) -/

/-- A read of a repeated fill; bytes of another device are read in the same turn. (DESIGN CHOICE, log 85) -/
def refillRead (e : Entry) (va n : Nat) (s : State) : Eng (List Byte) :=
  match engXlate false va n s with
  | .error c => .err c 0
  | .ok locs => match locs.find? (fun l => l.kind = .remote && unreachable s.dev (paDev l.key)), locs.find? (fun l => poisoned s.dev l.key) with
    | some l, _ => .err 0x43 (paDev l.key)
    | none, some l => .err cLoss (engOrigin e s l.key)
    | none, none => .ok (locs.map (fun l => readByte s.dev l.key)) (countRead e (locs.map (·.key)) s)

/-- A VALID weight record's fill repeated; it makes no arrival (R140, R348). (DEDUCED, log 50) -/
def refillOne (i : Nat) (s : State) : State :=
  let w := wbOf s i
  if !w.issued then s
  else
    let d := w.desc.toNat
    let e := newEntry s .wbfill 3
    let n := colsN s
    match (refillRead e (wBase d) (wElemBytes d n) s).bind (fun a s => (refillRead e (wSide d) (wSideBytes d n) s).bind (fun b s => .ok (a, b) s)) with
    | .ok x t => setWb i { w with n := n, elems := x.1, side := x.2 } t
    | .err c o => poisonWb i (mxFail c (mxOrigin c o (0x100 + i)) 0 s)
    | .wait _ _ => poisonWb i s

/-- Every weight record filled again. -/
def refillAll (s : State) : State := (upFrom 0 4).foldl (fun s i => refillOne i s) s

/-- The parts of a slot that a section holds. -/
def partsFrom (sec : Nat) (sl : Slot) : Slot :=
  let ring := bfield sec 16 8
  let tile := bfield sec 24 8
  { sl with
    qports := if ring = 0 then [] else portsFrom sec ring
    rings := if ring = 0 then [] else ringsFrom sec ring
    z := tilesFrom sec tile
    zdirty := BitVec.ofNat 16 (bfield sec tile 2)
    zpoison := BitVec.ofNat 16 (bfield sec (tile + 2) 2)
    wb := weightsFrom sec (bfield sec 32 8) }

/-- The threads of a section by role, at VLMAX of the slot they now have. -/
def threadsFrom (d : Device) (n part sec vlen roles : Nat) (trio : Bool) (gs : List Nat) : SMap Thread :=
  ((upFrom 0 3).filter (fun r => bit roles r)).map (fun r =>
    let t := threadFrom sec (bfield sec (40 + 8 * r) 8) vlen trio gs
    (r, { t with sr.vlmax := w64 (slotVlmax d n part) }))

/-- `xD` of the `susp` at the thread's PC written, and the thread moved past it (R348). -/
def pastSusp (status : Nat) (s : State) : State :=
  let d := match fetchWord s with
    | .ok w => if majorOf w = 0x3D && bits w.toNat 0 3 = 0 then bits w.toNat 21 5 else 0
    | .error _ => 0
  let s := if d = 0 || (isTrio s && 28 ≤ d) then s else { s with thr.x := SMap.set 0 s.thr.x d (w64 status) }
  { s with thr.pc := s.thr.pc + 4 }

/-- The task a resumed thread holds: that of the recorded launch with the recorded TCB; one that is not there finishes nothing. -/
def recordedTask (d : Device) (orig : Option Nat) (tcb : Nat) : Option Nat :=
  if tcb = 0 then none
  else some (((orig.bind (SMap.find d.launches)).bind (fun l => l.tasks.find? (fun t => match SMap.find d.tasks t with
    | some x => x.tcb = tcb
    | none => false))).getD 0)

/-- Member m of a cutting placed: its table entry and its section. (DEDUCED, log 39) -/
def resumeMember (id : Nat) (l : Launch) (m n ent sec : Nat) (d : Device) : Device :=
  let j := bfield ent 12 2
  let sl := { emptySlot d n m id l with bound := if l.owner then l.orig.map (fun o => (o, j)) else none }
  let kept := l.orig.bind (SMap.find d.launches)
  let ths := (threadsFrom d n sl.part.toNat sec l.vlen (bfield ent 14 1) (l.cfg = 1) []).map (fun p =>
    let tcb := bfield sec (bfield sec (40 + 8 * p.1) 8 + 1568) 8
    (p.1, if l.owner then { p.2 with
        hid.task := recordedTask d l.orig tcb
        hid.tpos := match kept with | some o => SMap.get 0 o.posOf (3 * j + p.1) | none => 0 }
      else { p.2 with sr.taskid := 0 }))
  let taken := match kept with | some o => if l.owner then SMap.get [] o.takenOf j else [] | none => []
  let d := installSlot n { partsFrom sec sl with ths := ths, taken := taken } d
  let d := scratchFrom sec n (bits sl.part.toNat 16 16) d
  let d := ths.foldl (fun d p => inSlot n p.1 (pastSusp (if l.owner then 1 else 2)) d) d
  inSlot n 1 refillAll d

/-- The bytes of a cutting's member: its table entry and its section. -/
def memberBytes (d : Device) (c ea mtab m : Nat) : Except Nat (Nat × Nat) := do
  let ent ← ctxRead d c (ea + mtab + 16 * m) 16
  let sec ← ctxRead d c (ea + bfield (leNat ent) 0 8) (bfield (leNat ent) 8 4)
  pure (leNat ent, leNat sec)

/-- The roles of a resumed launch that no section holds have left it. -/
def absentKeys (ents : List Nat) (cfg : Nat) : List Nat :=
  ((upFrom 0 ents.length).zip ents).flatMap (fun p => (slotKeys cfg p.1).filter (fun k => !bit (bfield p.2 14 1) (k - 3 * p.1)))

/-- A resumed launch placed. Bytes that can no longer be read end it with FAULT. (DEDUCED, log 42) -/
def placeCutting (id : Nat) (l : Launch) (ea : Nat) (ns : List Nat) (d : Device) : Device :=
  match do
    let h ← ctxRead d l.ctx ea 256
    (upFrom 0 l.nslot).mapM (fun m => memberBytes d l.ctx ea (bfield (leNat h) 56 8) m) with
  | .error _ => endLaunch id stFault cLoad d
  | .ok ms =>
    let gone := absentKeys (ms.map (·.1)) l.cfg
    let d := setLaunch id { l with phase := 2, slots := ns, gone := gone } (startQueue l.queue d)
    ((upFrom 0 ms.length).zip (ns.zip ms)).foldl (fun d x => resumeMember id l x.1 x.2.1 x.2.2.1 x.2.2.2 d) d

/-! ## Chains (R289, R298) -/

/-- A graft counter raised: 1 FORMED, 2 ELIDED, 3 UNDONE. -/
def countGraft (k n : Nat) (d : Device) : Device := { d with graftCnt := SMap.set 0 d.graftCnt k (satAdd (SMap.get 0 d.graftCnt k) n) }

/-- The threads of a chain: kernel r in role r. -/
def chainThreads (d : Device) (n : Nat) (sl : Slot) (ls : List Launch) : SMap Thread :=
  ((upFrom 0 ls.length).zip ls).map (fun p => (p.1, startThread d n sl p.2 8 p.1))

/-- A chain placed on one slot: every kernel's own TCB becomes RUNNING. -/
def placeChain (ks : List Kern) (binds : List Binding) (n : Nat) (d : Device) : Device :=
  let ls := ks.map Kern.launch
  let l0 := ls.headD (Launch.offered 0 0 0 0)
  let cid := d.nextId
  let d := startQueue l0.queue d
  let sl := { emptySlot d n 0 0 l0 with cfg := 1, groups := [], bound := none, chain := some cid }
  let d := installSlot n { sl with ths := chainThreads d n sl ls } d
  let d := ks.foldl (fun d k => setTaskState k.tid 3 (setLaunch k.lid { k.launch with phase := 2, slots := [n] } d))
    { d with nextId := cid + 1, chains := SMap.put d.chains cid ⟨ks.map Kern.lid, ks.map Kern.tid, binds⟩ }
  countGraft 2 (binds.filter (·.elided)).length (countGraft 1 binds.length d)

/-! ## PLACE_LAUNCH -/

/-- The slots chosen for a launch fit it. -/
def slotsFit (d : Device) (l : Launch) (ns : List Nat) : Bool :=
  ns.length = l.nslot && ascending ns && ns.all (fitsOn d l)

/-- A launch placed alone on the slots chosen. -/
def placeAlone (id : Nat) (l : Launch) (ns : List Nat) (d : Device) : Device :=
  let d := setLaunch id { l with phase := 2, slots := ns } (startQueue l.queue d)
  ((upFrom 0 ns.length).zip ns).foldl (fun d p => placeSlot id l p.1 p.2 d) d

/-- A launch placed on the slots chosen: from its cutting, as the first kernel of the chain that `pairs` names where that may be formed,
or alone. -/
def placeLaunch (id : Nat) (ns : List Nat) (num : Nat) (pairs : List (Nat × Nat)) (notes : List (List Byte)) (d : Device) : Device :=
  match SMap.find d.launches id with
  | none => d
  | some l =>
    if !(waitsForSlots d l && isNext d l && slotsFit d l ns) then d
    else match l.cutting with
      | some ea => placeCutting id l ea ns d
      | none =>
        match if pairs.isEmpty then none else (l.tasks[num]?).bind (fun t => formChain id t pairs notes d) with
        | none => placeAlone id l ns d
        | some (ks, binds, e) =>
          if ks.all (fun k => grants e k.launch (ns.headD 0)) then placeChain ks binds (ns.headD 0) e else placeAlone id l ns d

/-- PLACE_LAUNCH (R223, R232, R289, R348): launch `idx` on the slots `nats`, which the device chooses; `pairs` names the further kernels
that the graft engine joins to its task `num`, each by packet and place in its list, and `parts` their notes. -/
def execPlaceLaunch (s : State) : Host.Outcome State Fault Refusal :=
  .next (onDevice (fun d => placeLaunch d.arg.idx d.arg.nats d.arg.num d.arg.pairs (d.arg.parts.map Prod.snd) d) s)

/-! ## TASK_FINISH (R225, R228, R296, R338, R339) -/

/-- Everything a `tdone` waits for has taken place. -/
def finishReady (s : State) (f : Finish) : Bool :=
  !s.thr.pnd.stores.any (fun p => p.fence = 0 && p.ser ≤ f.upto)
    && (upFrom 0 5).all (fun q => !(queueOf s.slot q).any (fun e => e.op != .marker && e.role = s.cur.2 && e.since < f.upto))

/-- The thread's part of a task finished. -/
def finishPart (f : Finish) (s : State) : State :=
  match f.task, boundTo s with
  | some id, some (_, j) => { s with dev := finishTask id (ownCfg s) j (3 * j + (if s.slot.chain.isSome then 1 else s.cur.2)) s.dev }
  | _, _ => s

/-- Every thread of the slot but the one in focus has left for good. -/
def lastOfSlot (s : State) : Bool := s.slot.ths.all (fun p => p.1 = s.cur.2 || (!p.2.live && p.2.pnd.finishes.isEmpty))

/-- The slot drops out of the cuttings it is outstanding in; one with nobody left outstanding is sealed. -/
def dropOut (s : State) : Except Miss State :=
  match SMap.find s.dev.launches s.slot.launch with
  | none => .ok s
  | some l =>
    (l.cuts.filter (fun p => p.2.left.contains s.slot.lslot)).foldlM (fun s p => do
      let c := { p.2 with left := p.2.left.filter (· != s.slot.lslot) }
      let s ← if c.left.isEmpty && !c.written.isEmpty then sealCut c s.slot.ctx s else pure s
      pure { s with dev := mapLaunch s.slot.launch (fun l => { l with cuts := SMap.put l.cuts p.1 c }) s.dev }) s

/-- The slot stalls at a `tdone` whose seal faults; the word executes again after RESUME. (DEDUCED, log 54) -/
def stallAt (f : Finish) (m : Miss) (s : State) : State :=
  let s := { s with
    thr.live := true
    thr.pc := f.pc
    thr.hid.task := f.task }
  let w := match fetchWord s with | .ok w => w | .error _ => 0
  let t := takeTrap w m.cause f.pc (w64 m.val) (w64 m.val2) s
  { t with slot.st := .stalled, slot.held := t.slot.held.map (fun r => { r with rflags := r.rflags ||| 2 }) }

/-- The thread has left its launch. (DEDUCED, log 35) -/
def leaveLaunch (s : State) : State :=
  let id := ownLaunch s
  let last := lastOfSlot s
  let s := { s with dev := mapLaunch id (leaveGroups (ownKey s)) s.dev }
  let s := if last then { s with dev := chargeSlot s.slot s.dev } else s
  onDevice (checkBoth id) s

/-- The oldest waiting finish of the thread in focus takes effect. -/
def takeFinish (s : State) : State :=
  match s.thr.pnd.finishes with
  | [] => s
  | f :: r =>
    if !finishReady s f then s
    else
      let t := { s with thr.pnd.finishes := r }
      if !f.leave then onDevice (checkBoth (ownLaunch s)) (finishPart f t)
      else if !lastOfSlot t then leaveLaunch (finishPart f t)
      else match dropOut t with
        | .ok u => leaveLaunch (finishPart f { u with dev := cutAnswered u.cur.1 u.dev })
        | .error m => if m.cause = 0 then askCut m s else stallAt f m t

/-- TASK_FINISH (R225, R228): the oldest `tdone` or `tdone.c` of thread `slot`, `role` that has not taken effect. -/
def execTaskFinish (s : State) : Host.Outcome State Fault Refusal :=
  .next (within s.dev.arg.slot s.dev.arg.role takeFinish s)

/-! ## The end of a launch before its time (R234, R294, R322, R401) -/

/-- An entry of an engine queue has begun. -/
def begun (e : Entry) : Bool := e.done.isSome || e.prog != 0 || e.vlvalid != 0

/-- Entries that have begun. A marker stays only while one of them stands before it. -/
def onlyBegun (l : List Entry) : List Entry := l.filter (fun e => e.op != .marker && begun e)

/-- The threads of a slot stop for good; entries that have not begun are dropped. -/
def cutShort (sl : Slot) : Slot :=
  { sl with st := .saving, save := none, cpq := onlyBegun sl.cpq, gsq := onlyBegun sl.gsq, clq := onlyBegun sl.clq, pxq := onlyBegun sl.pxq,
            mxq := sl.mxq.filter (fun e => e.op != .marker) }

/-- The slot belongs to a launch, alone or in a chain. -/
def holdsLaunch (d : Device) (id : Nat) (sl : Slot) : Bool :=
  sl.st != .free && (match sl.chain with
    | some c => (match SMap.find d.chains c with | some ch => ch.launches.contains id | none => false)
    | none => sl.launch = id)

/-- A launch begins to end: its threads stop. (DEDUCED, log 45) -/
def beginEnd (id status code : Nat) (d : Device) : Device :=
  match SMap.find d.launches id with
  | none => d
  | some l =>
    if l.phase = 3 || l.ending then d
    else
      let d := setLaunch id { l with ending := true, status := l.status ||| status, code := if l.code = 0 then code else l.code } d
      { d with slots := d.slots.map (fun p => (p.1, if holdsLaunch d id p.2 then cutShort p.2 else p.2)) }

/-- Stores and engines of a slot that ends are drained. -/
def slotDrained (sl : Slot) : Bool :=
  sl.ths.all (fun p => p.2.pnd.stores.isEmpty) && sl.mxq.isEmpty && sl.cpq.isEmpty && sl.gsq.isEmpty && sl.clq.isEmpty && sl.pxq.isEmpty

/-- The tasks of a launch that are not DONE become FAILED. -/
def failTasks (l : Launch) (d : Device) : Device :=
  l.tasks.foldl (fun d t => match SMap.find d.tasks t with
    | some x => if x.st = 4 then d else setTaskState t 5 d
    | none => d) d

/-- The nanoseconds of a launch's slots whose threads had not all left. -/
def chargeHeld (id : Nat) (d : Device) : Device :=
  d.slots.foldl (fun e p => if p.2.chain.isNone && p.2.launch = id && p.2.st != .free && (liveRoles p.2) != [] then chargeSlot p.2 e else e) d

/-- The last kernels that wait for a re-run that failed fail with it (R294): with their own pending cause, or the producer's. -/
def failWaiting (id cause : Nat) (d : Device) : Device :=
  (d.sysCuts.filter (fun p => p.2.kind = .ungraft && p.2.waits.contains id)).foldl (fun d p =>
    match SMap.find d.launches p.2.launch with
    | none => d
    | some l =>
      let c := match p.2.pending with | some r => r.cause | none => cause
      endLaunch p.2.launch stFault c (failTasks l d)) d

/-- A launch that is ending ends once its slots are drained. -/
def tryEnd (id : Nat) (d : Device) : Device :=
  match SMap.find d.launches id with
  | none => d
  | some l =>
    if l.ending && l.phase != 3 && (d.slots.filter (fun p => holdsLaunch d id p.2)).all (fun p => slotDrained p.2) then
      let d := chargeHeld id (failTasks l d)
      let d := mapLaunch id (fun l => { l with gone := (upFrom 0 l.nslot).flatMap (slotKeys l.cfg) }) d
      let d := failWaiting id l.cause d
      let d := endLaunch id 0 0 d
      match l.orig with | some o => checkLaunch o d | none => d
    else d

/-- The launches that hold a slot. (DEDUCED, log 55) -/
def launchesOf (d : Device) (sl : Slot) : List Nat :=
  if sl.st = .free then []
  else match sl.chain with
    | some c => (match SMap.find d.chains c with | some ch => ch.launches | none => [])
    | none => [sl.launch]

/-- END of a launch: FAULT with the cause of its first posted record, or ABORTED. -/
def endByHost (id : Nat) (d : Device) : Device :=
  match SMap.find d.launches id with
  | none => d
  | some l => tryEnd id (beginEnd id (if l.cause = 0 then stAborted else stFault) l.cause d)

/-- END of the launches that hold a slot. -/
def endSlot (n : Nat) (d : Device) : Device := (launchesOf d (SMap.get Slot.free d.slots n)).foldl (fun d id => endByHost id d) d

/-- SLOT_END (R322): the launch that holds slot `slot` ends. Its threads stop with the first turn; it completes with the first turn
that finds its slots drained. -/
def execSlotEnd (s : State) : Host.Outcome State Fault Refusal := .next (onDevice (fun d => endSlot d.arg.slot d) s)

/-- A deadline met by a DEADLINE launch that has not completed (R234). -/
def missDeadline (id : Nat) (d : Device) : Device :=
  match SMap.find d.launches id with
  | none => d
  | some l =>
    if !isDue d l then d
    else
      let d := markMissed id d
      if l.abort then tryEnd id (beginEnd id stAborted 0 d) else d

/-- Every deadline that is met taken notice of, at the first moment at which it is (R234). -/
def meetDeadlines (s : State) : State :=
  if s.dev.launches.any (fun p => isDue s.dev p.2) then onDevice (fun d => d.launches.foldl (fun d p => missDeadline p.1 d) d) s else s

/-- DEADLINE_MISS (R234): launch `idx`. -/
def execDeadlineMiss (s : State) : Host.Outcome State Fault Refusal := .next (onDevice (fun d => missDeadline d.arg.idx d) s)

end Sys2Proof.Machine
end

