-- ==== Sys2Proof/Machine/Slots.lean ====
section
/-! DEFINITION. The host's hold on slots: lane modes and limits, RESUME, PREEMPT, system cuttings and ungrafting, the watchdog, fault
records and the debug window (R201, R294, R318 to R322, R333 to R336, R351 to R354, R394). -/

namespace Sys2Proof.Machine

/-- A slot of the parked device. -/
def slotOf (d : Device) (n : Nat) : Slot := SMap.get Slot.free d.slots n

/-- A slot changed. -/
def mapSlot (n : Nat) (f : Slot → Slot) (d : Device) : Device := { d with slots := SMap.set Slot.free d.slots n (f (slotOf d n)) }

/-! ## Lane mode and MAXVL (R201, R394) -/

/-- A write of LPART: no effect while a slot of the core holds a thread, or for mode 3. -/
def writeLpart (c : Nat) (v : Word) (d : Device) : Device :=
  let m := bits v.toNat 0 2
  if 256 ≤ c || m = 3 || (slotOf d (2 * c)).st != .free || (slotOf d (2 * c + 1)).st != .free then d
  else { d with lpart := SMap.set 0 d.lpart c m }

/-- LPART_WRITE (R201): core `idx`, value `val`. -/
def execLpartWrite (s : State) : Host.Outcome State Fault Refusal := .next (onDevice (fun d => writeLpart d.arg.idx d.arg.val d) s)

/-- A write of MAXVL. -/
def writeMaxvl (n : Nat) (v : Word) (d : Device) : Device :=
  if 512 ≤ n then d else { d with maxvl := SMap.set 16384 d.maxvl n (v &&& 0x1FFFF) }

/-- MAXVL_WRITE (R394): slot `idx`, value `val`; a thread takes it at its next `setvl` (R18). -/
def execMaxvlWrite (s : State) : Host.Outcome State Fault Refusal := .next (onDevice (fun d => writeMaxvl d.arg.idx d.arg.val d) s)

/-! ## RESUME (R322) -/

/-- A stopped slot runs again. -/
def resumeSlot (n : Nat) (d : Device) : Device :=
  let sl := slotOf d n
  if (sl.st = .stopped || sl.st = .stalled) && sl.posted then
    let x := heldBack n { sl with st := .running, held := none, posted := false, wdog := 0 } d
    (upFrom 0 3).foldl (fun d r => inSlot n r closePass d) { x.2 with slots := SMap.set Slot.free x.2.slots n x.1 }
  else d

/-- SLOT_RESUME (R322): slot `slot`. -/
def execSlotResume (s : State) : Host.Outcome State Fault Refusal := .next (onDevice (fun d => resumeSlot d.arg.slot d) s)

/-! ## Fault records (R320, R321) -/

/-- A slot's record (R320). -/
def recordBytes (n : Nat) (sl : Slot) (r : FaultRec) : List Byte :=
  leBytes 1 1 ++ leBytes 1 r.cause ++ leBytes 1 r.rflags ++ leBytes 1 r.role ++ leBytes 2 sl.ctx ++ leBytes 1 r.acct ++ zeros 1
    ++ leBytes 2 (n / 2) ++ leBytes 1 (n % 2) ++ zeros 1 ++ leBytes 4 r.word.toNat
    ++ dwords [r.tpc.toNat, r.tval.toNat, r.tval2.toNat, r.torigin.toNat, r.vstart.toNat, r.devtime.toNat]

/-- A slot posts the record it holds; a launch keeps the cause of its first. -/
def postHeld (n : Nat) (d : Device) : Device :=
  let sl := slotOf d n
  match sl.held with
  | none => d
  | some r =>
    if sl.posted || sl.postFault then d
    else match postRecord d sl.ctx (recordBytes n sl r) with
      | .noSpace => d
      | .faulted d => mapSlot n (fun sl => { sl with postFault := true }) d
      | .posted d =>
        let d := mapLaunch sl.launch (fun l => if l.cause = 0 then { l with cause := r.cause } else l) d
        if sl.st = .free then { d with slots := SMap.erase d.slots n } else mapSlot n (fun sl => { sl with posted := true, postFault := false }) d

/-- FAULT_RECORD_POST (R321): slot `slot`. -/
def execFaultRecordPost (s : State) : Host.Outcome State Fault Refusal := .next (onDevice (fun d => postHeld d.arg.slot d) s)

/-- A write of FQCFG (R319). -/
def writeFqcfg (v : Word) (b : CtxBlk) : CtxBlk :=
  let size := bits v.toNat 0 4
  let cfg := (v &&& (if 4 ≤ size && size ≤ 12 then 0x1F else 0xF)) ||| (b.fqcfg &&& 0xE0 &&& ~~~v)
  if bit cfg.toNat 4 && !bit b.fqcfg.toNat 4 then { b with fqcfg := cfg, fqwr := 0, fqrd := 0 } else { b with fqcfg := cfg }

/-- A host write to the fault-queue block of a context; records that it could not post are tried again (R321). -/
def writeFq (c : Nat) (f : CtxBlk → CtxBlk) (d : Device) : Device :=
  if 4096 ≤ c then d
  else { setCtx d c (f (ctxOf d c)) with
    slots := d.slots.map (fun p => (p.1, if p.2.ctx = c then { p.2 with postFault := false } else p.2)) }

/-- FQCFG_WRITE (R319): context `idx`, value `val`. -/
def execFqcfgWrite (s : State) : Host.Outcome State Fault Refusal :=
  .next (onDevice (fun d => writeFq d.arg.idx (writeFqcfg d.arg.val) d) s)

/-! ## PREEMPT and the system cutting (R351, R352) -/

/-- PREEMPT of a slot. While no frame of its context is free the pre-emption waits and the slot goes on. -/
def preemptSlot (n : Nat) (s : State) : State :=
  within n 1 (fun s =>
    if s.slot.st = .running || s.slot.st = .stopped || s.slot.st = .stalled then
      (if saveReady s s.slot then beginSave .preempt s else { s with slot.save := some .preempt })
    else s) s

/-- SLOT_PREEMPT (R351): slot `slot`. -/
def execSlotPreempt (s : State) : Host.Outcome State Fault Refusal := .next (preemptSlot s.dev.arg.slot s)

/-- The queue entries and markers that have not begun, in the order of their issue: queue and entry, each marker once. -/
def inflight (sl : Slot) : List (Nat × Entry) :=
  let all := (upFrom 0 5).flatMap (fun q => (queueOf sl q).map (fun e => (q, e)))
  let ins := fun (acc : List (Nat × Entry)) (x : Nat × Entry) =>
    if x.2.op = .marker && acc.any (fun y => y.2.op = .marker && y.2.seq = x.2.seq) then acc
    else
      let first := fun (y : Nat × Entry) => y.2.since < x.2.since || (y.2.since = x.2.since && (y.2.op = .marker && (x.2.op != .marker || y.2.seq < x.2.seq)))
      acc.filter first ++ [x] ++ acc.filter (fun y => !first y)
  all.foldl ins []

/-- An in-flight entry of 192 bytes (R351). -/
def inflightBytes (x : Nat × Entry) : List Byte :=
  let e := x.2
  if e.op = .marker then leBytes 1 0xFF ++ leBytes 1 e.koff ++ zeros 2 ++ leBytes 1 e.role ++ zeros 187
  else leBytes 1 (engNum x.1) ++ leBytes 1 (bitNat e.nr) ++ zeros 2 ++ leBytes 1 e.role ++ zeros 3 ++ dwords [scrBase + e.bar, e.task.toNat]
    ++ leBytes 1 e.acct ++ zeros 39 ++ leBytes 128 e.block.toNat

/-- The queue entry that the bytes of the table and the dispatcher's own note of it give. -/
def inflightEntry (e : Entry) (b : Nat) : Entry :=
  if e.op = .marker then { e with koff := bfield b 1 1, role := bfield b 4 1, start := none }
  else { e with nr := bit (bfield b 1 1) 0, role := bfield b 4 1, bar := bfield b 8 8 - scrBase, task := w64 (bfield b 16 8), acct := bfield b 24 1,
                block := BitVec.ofNat 1024 (bfield b 64 128), start := none }

/-- Nothing of the slot is left to drain before a save. -/
def saveDrained (sl : Slot) : Bool :=
  sl.ths.all (fun p => p.2.pnd.stores.isEmpty && p.2.pnd.barArrs.isEmpty && p.2.pnd.groupArrs.isEmpty)
    && sl.mxq.all (fun e => e.op = .marker) && [sl.cpq, sl.gsq, sl.clq, sl.pxq].all (fun q => !q.any (fun e => e.op != .marker && begun e))

/-- The address of a save frame (R352). -/
def frameAddr (d : Device) (c f : Nat) : Nat :=
  let b := ctxOf d c
  b.savebase.toNat + f * bits b.savecfg.toNat 16 24 * 4096

/-- The frame a save takes: the one the device chooses, where it is free, else the lowest free one. (DESIGN CHOICE, log 46) -/
def pickFrame (d : Device) (c want : Nat) : Option Nat :=
  let b := ctxOf d c
  let n := bits b.savecfg.toNat 0 16
  if want < n && !b.frames.contains want then some want else (upFrom 0 n).find? (fun f => !b.frames.contains f)

/-- What the dispatcher keeps of a thread beside the cutting. -/
def keptThread (t : Thread) : Thread :=
  { Thread.absent with
    live := t.live
    halted := t.halted
    hid := { Hidden.start with task := t.hid.task, tpos := t.hid.tpos, arr := t.hid.arr }
    pnd := { Pending.none with finishes := t.pnd.finishes } }

/-- What the dispatcher keeps of a slot beside the cutting. -/
def keptSlot (sl : Slot) : Slot :=
  { sl with
    st := .free
    chain := none
    ths := sl.ths.map (fun p => (p.1, keptThread p.2))
    rings := []
    qports := []
    z := []
    wb := []
    out := []
    held := none
    save := none
    pending := none }

/-- Writes of the save sequencer up to the first that faults, and whether none did. -/
def writeUntil (c : Nat) : List (Nat × List Byte) → Device → Device × Bool
  | [], d => (d, true)
  | (a, bs) :: r, d => match ctxWrite 0 c a bs d with
    | .error _ => (d, false)
    | .ok d => writeUntil c r d

/-- A system cutting written and sealed at an address (R340 to R346, R351), and whether no write of it faulted: it is sealed last, so one
that stops on the way stays INCOMPLETE (R354). -/
def writeSystemCut (v : Saved) (cscope launch j addr : Nat) (d : Device) : Device × Bool :=
  let c := v.sl.ctx
  let sec := sectionBytes d v
  let inf := (inflight v.sl).flatMap inflightBytes
  let off := 320 + sec.length
  let h := { headOf d v (2 + bitNat (holdsVtype v)) 0 cscope launch with
    nmem := 1
    total := off + inf.length
    infl := if inf.isEmpty then 0 else off
    ninfl := inf.length / 192
    time := d.devtime.toNat }
  let x := writeUntil c [(addr, headBytes h), (addr + 256, memberTable 64 [(j, 320, sec.length, rolesMask v)]), (addr + 320, sec), (addr + off, inf)] d
  if !x.2 then x
  else match do
    let bs ← ctxRead x.1 c addr h.total
    let d ← ctxWrite 0 c (addr + 44) (leBytes 4 (crc32c (crcBytes bs))) x.1
    ctxWrite 1 c (addr + 8) (dwords [2]) d with
  | .ok d => (d, true)
  | .error _ => (x.1, false)

/-- A slot that becomes FREE; a record it has not posted stays with it until it is. -/
def releaseSlot (n : Nat) (d : Device) : Device :=
  let sl := slotOf d n
  let d := dropSlot n (chargeSlot sl d)
  if sl.held.isSome && !sl.posted then
    { d with slots := SMap.set Slot.free d.slots n { Slot.free with ctx := sl.ctx, acct := sl.acct, launch := sl.launch, held := sl.held } }
  else d

/-- A save abandoned (R354): the slot is reset, the launch ends with FAULT and CODE 0x38, and the context is reported LOST.
(DEDUCED, log 56) -/
def abandonSave (n id addr : Nat) (d : Device) : Device :=
  let sl := slotOf d n
  let s := unpark d n (chiefRole sl)
  let r := { faultRec s 0 0x38 s.thr.pc 1 (w64 addr) with acct := acctOf s }
  let d := dropSlot n (chargeSlot sl d)
  let d := { d with slots := SMap.set Slot.free d.slots n { Slot.free with ctx := sl.ctx, acct := sl.acct, held := some r } }
  tryEnd id (beginEnd id stFault 0x38 d)

/-- A slot saved into a frame. `v` is what is saved, `id` and `lslot` the launch and launch slot it stands for. -/
def saveInto (n f id lslot : Nat) (v : Saved) (waits : List Nat) (d : Device) : Device :=
  let sl := slotOf d n
  let c := sl.ctx
  let addr := frameAddr d c f
  let l := SMap.find d.launches id
  let bound := v.sl.bound.getD (id, lslot)
  match writeSystemCut v (match l with | some l => l.cscope | none => 0) bound.1 bound.2 addr d with
  | (d, false) => abandonSave n id addr d
  | (d, true) =>
    let cut : SysCut := ⟨id, lslot, c, f, addr, sl.save.getD .preempt, d.ser, waits, sl.pending, keptSlot v.sl⟩
    let b := ctxOf d c
    let d := releaseSlot n (setCtx d c { b with frames := f :: b.frames })
    mapLaunch id (leaveList lslot) { d with sysCuts := SMap.put d.sysCuts d.nextId cut, nextId := d.nextId + 1, ser := d.ser + 1 }

/-! ## Ungrafting (R294 to R296, R361) -/

/-- A kernel's part is complete: its thread has left (R296). -/
def partDone (d : Device) (id : Nat) : Bool := match SMap.find d.launches id with | some l => l.phase = 3 || l.gone.contains 1 | none => true

/-- A task of a producer that is re-run: its own one is READY again, and so is each other one that it has taken and not finished. One that
was DONE releases its successors no second time. -/
def rerunTask (own t : Nat) (d : Device) : Device :=
  match SMap.find d.tasks t with
  | none => d
  | some x =>
    if t = own || x.st = 3 then setTaskState t 2 (setTask t { x with took := [], fin := [], finThr := [], counted := x.counted || x.st = 4 } d) else d

/-- A producer to be re-run as a SOLO launch: its task is READY again. `prev` is the re-run it waits for. -/
def rerun (id own : Nat) (prev : Option Nat) (d : Device) : Device :=
  match SMap.find d.launches id with
  | none => d
  | some l =>
    let d := setLaunch id { l with phase := 1, slots := [], gone := [], done := [], arrived := [], nograft := true, status := 0, code := 0, cause := 0,
                                   ending := false, suspN := [], cuts := [], after := prev, counted := l.counted || l.phase = 3 } d
    l.tasks.foldl (fun d t => rerunTask own t d) d

/-- The producers of a chain that are re-run, with their tasks: those not complete, and those with an elided output. -/
def rerunList (d : Device) (ch : Chain) : List (Nat × Nat) :=
  ((upFrom 0 (ch.launches.length - 1)).zip (ch.launches.zip ch.tasks)).filterMap (fun p =>
    let elided := match ch.binds[p.1]? with | some b => b.elided | none => false
    if partDone d p.2.1 && !elided then none else some p.2)

/-- Every producer of the list re-run, in chain order. -/
def rerunAll : Option Nat → List (Nat × Nat) → Device → Device
  | _, [], d => d
  | prev, (id, own) :: r, d => rerunAll (some id) r (rerun id own prev d)

/-- The last kernel of a chain as a SOLO member (R294). -/
def lastKernel (d : Device) (n id role : Nat) (sl : Slot) : Saved :=
  let t := SMap.get Thread.absent sl.ths role
  let mine := fun (l : List Entry) => (l.filter (fun e => e.role = role)).map (fun e => { e with role := 1 })
  let sl := if role = 1 then sl else { sl with z := [], zdirty := 0, zpoison := 0, wb := [] }
  let sl := { sl with
    cfg := 0
    launch := id
    lslot := 0
    bound := some (id, 0)
    ths := [(1, t)]
    cpq := mine sl.cpq
    gsq := mine sl.gsq
    clq := mine sl.clq
    mxq := []
    pxq := mine sl.pxq }
  { slot := n, sl := sl, trio := false, roles := if t.live then [(1, tcbOf d t, t)] else [], groups := [], vlen := t.sr.vlmax.toNat, mask := 2 ^ 48 - 1 }

/-- A chain dissolved: the producers re-run, and its last kernel saved into a frame, where it has not completed. -/
def dissolve (n f c : Nat) (ch : Chain) (d : Device) : Device :=
  let sl := slotOf d n
  let role := ch.launches.length - 1
  let last := ch.launches.getD role 0
  let waits := rerunList d ch
  let ended := partDone d last
  let v := lastKernel d n last role sl
  let d := countGraft 3 1 (rerunAll none waits { d with chains := SMap.erase d.chains c })
  if ended then releaseSlot n d
  else saveInto n f last 0 v (waits.map Prod.fst) (mapSlot n (fun sl => { sl with chain := none }) d)

/-! ## PREEMPT_SAVE, SAVE_ABANDON (R351, R354) -/

/-- A slot whose save can begin or go on: the threads stop, and once all is drained the cutting is written. `want` is the frame the
device chooses. -/
def saveStep (n want : Nat) (s : State) : State :=
  let d := park s
  let sl := slotOf d n
  if sl.save.isNone then s
  else if sl.st != .saving then
    (if sl.st != .free && saveReady s sl then within n 1 (beginSave (sl.save.getD .preempt)) s else s)
  else if !saveDrained sl then s
  else match pickFrame d sl.ctx want with
    | none => s
    | some f =>
      let s := within n 1 unsuspend s
      onDevice (fun d => match sl.chain with
        | some c => (match SMap.find d.chains c with | some ch => dissolve n f c ch d | none => d)
        | none => saveInto n f sl.launch sl.lslot (savedSlot d n (2 ^ 48 - 1) (slotOf d n)) [] d) s

/-- PREEMPT_SAVE (R294, R351): slot `slot`; `idx` is the frame the device chooses (R352). -/
def execPreemptSave (s : State) : Host.Outcome State Fault Refusal := .next (saveStep s.dev.arg.slot s.dev.arg.idx s)

/-- SWDOG.LOG of a slot. -/
def watchLog (d : Device) (n : Nat) : Nat := SMap.get 24 d.swdog n

/-- The slot's watchdog has reached its limit. -/
def watchExpired (d : Device) (n : Nat) : Bool := watchLog d n != 0 && 2 ^ watchLog d n ≤ (slotOf d n).wdog

/-- The launch a save stands for. -/
def savedLaunch (d : Device) (sl : Slot) : Nat :=
  match sl.chain.bind (SMap.find d.chains) with
  | some ch => ch.launches.getLastD 0
  | none => sl.launch

/-- A save that has stalled for the watchdog's limit given up. -/
def abandonStalled (n f : Nat) (d : Device) : Device :=
  let sl := slotOf d n
  if !watchExpired d n then d
  else if sl.st = .saving && sl.save.isSome then
    let id := savedLaunch d sl
    let d := match sl.chain.bind (fun c => (SMap.find d.chains c).map (fun ch => (c, ch))) with
      | some (c, ch) => countGraft 3 1 (rerunAll none (rerunList d ch) (mapSlot n (fun sl => { sl with chain := none, launch := id }) { d with chains := SMap.erase d.chains c }))
      | none => d
    abandonSave n id (frameAddr d sl.ctx f) d
  else if suspReady sl then
    match (SMap.get Thread.absent sl.ths (chiefRole sl)).pnd.susp with
    | some u => abandonSave n sl.launch u.addr d
    | none => d
  else d

/-- SAVE_ABANDON (R354): slot `slot`, whose save into frame `idx`, or whose section under `susp`, writes no byte any more. -/
def execSaveAbandon (s : State) : Host.Outcome State Fault Refusal := .next (onDevice (fun d => abandonStalled d.arg.slot d.arg.idx d) s)

/-! ## WATCHDOG_EXPIRE (R336) -/

/-- The watchdog of a running slot expires; the record names execute or SOLO, else the first role present. A slot that all its threads
have left has none to name, and it waits for its launch (R225). With no frame free the pre-emption waits and the slot goes on (R352). -/
def expireWatch (n : Nat) (s : State) : State :=
  let d := park s
  let sl := slotOf d n
  if sl.st = .running && sl.ths.any (fun p => p.2.live) && watchExpired d n && sl.save.isNone then
    within n (chiefRole sl) (fun s =>
      let r := { faultRec s 0 0x38 s.thr.pc 0 0 with acct := acctOf s }
      let t := if saveReady s s.slot then beginSave .watchdog s else { s with slot.save := some .watchdog, slot.wdog := 0 }
      { t with slot.held := some r, slot.posted := false }) s
  else s

/-- WATCHDOG_EXPIRE (R336): slot `slot`. -/
def execWatchdogExpire (s : State) : Host.Outcome State Fault Refusal := .next (expireWatch s.dev.arg.slot s)

/-! ## SYSTEM_CUTTING_RESUME (R353) -/

/-- Entries of the in-flight table put back, in their order, each marker into every queue it selects. -/
def requeue (xs : List (Nat × Entry)) (s : State) : State :=
  settleAll (xs.foldl (fun s x =>
    if x.2.op = .marker then ((upFrom 0 5).filter (fun q => bit x.2.koff q)).foldl (fun s q => setQueue q (queueOf s.slot q ++ [x.2]) s) s
    else setOut x.2.bar (outOf s x.2.bar + 1) (setQueue x.1 (queueOf s.slot x.1 ++ [x.2]) s)) s)

/-- The kept trap of an ungrafted last kernel taken, with the TPC it had (R294, R295). -/
def pendingTrap (r : Option FaultRec) (s : State) : State :=
  match r with
  | none => s
  | some r => deliver r.word r.cause r.tpc r.tval r.tval2 s

/-- The slot of a system cutting as it is placed again. -/
def systemSlot (d : Device) (n : Nat) (c : SysCut) (l : Launch) (sec vlen roles : Nat) : Slot :=
  let k := c.rest
  let e := emptySlot d n c.lslot c.launch { l with cfg := k.cfg, part := k.part }
  let sl := partsFrom sec { e with groups := k.groups, bound := k.bound, taken := k.taken, acct := k.acct, seqs := k.seqs, mxerr := k.mxerr, lastRole := k.lastRole }
  let back := threadsFrom d n sl.part.toNat sec vlen roles (k.cfg = 1) (0 :: k.groups.take 4)
  let full := fun (p : Nat × Thread) => match SMap.find back p.1 with
    | some t => (p.1, { t with hid.task := p.2.hid.task, hid.tpos := p.2.hid.tpos, hid.arr := p.2.hid.arr, pnd.finishes := p.2.pnd.finishes })
    | none => p
  { sl with ths := k.ths.map full }

/-- The debug blocks of threads that were halted: they resume with HALT 0 (R351). -/
def unhalt (n : Nat) (k : Slot) (d : Device) : Device :=
  { d with dbg := k.ths.foldl (fun m p =>
      let b := SMap.get DbgBlk.reset m (3 * n + p.1)
      if p.2.halted then SMap.set DbgBlk.reset m (3 * n + p.1) { b with halt := false } else m) d.dbg }

/-- A system cutting claimed and placed on a slot. -/
def placeSystemCut (key n : Nat) (c : SysCut) (l : Launch) (d : Device) : Except Nat Device := do
  let h ← ctxRead d c.ctx c.addr 256
  let m ← memberBytes d c.ctx c.addr (bfield (leNat h) 56 8) 0
  let nin := bfield (leNat h) 72 4
  let inf ← ctxRead d c.ctx (c.addr + bfield (leNat h) 64 8) (192 * nin)
  let d ← ctxWrite 1 c.ctx (c.addr + 8) (dwords [3]) d
  let d := unhalt n c.rest d
  let sl := systemSlot d n c l m.2 (bfield (leNat h) 32 4) (bfield m.1 14 1)
  let d := scratchFrom m.2 n (bits sl.part.toNat 16 16) (installSlot n { sl with cpq := [], gsq := [], clq := [], mxq := [], pxq := [] } d)
  let xs := ((upFrom 0 nin).zip (inflight c.rest)).map (fun p => (p.2.1, inflightEntry p.2.2 (bfield (leNat inf) (192 * p.1) 192)))
  let d := inSlot n 1 (fun s => pendingTrap c.pending (requeue xs (refillAll s))) d
  let d := mapLaunch c.launch (fun l => { l with slots := l.slots.set c.lslot n }) d
  pure (freeFrame c.ctx c.frame { d with sysCuts := SMap.erase d.sysCuts key })

/-- A system cutting's claim, where it is SEALED, its condition holds, it is next, and the slot fits it. -/
def resumeCut (key n : Nat) (d : Device) : Device :=
  match SMap.find d.sysCuts key with
  | none => d
  | some c => match SMap.find d.launches c.launch, cutLaunch d c with
    | some l, some x =>
      if cutWaits d key c && isNext d x && fitsOn d x n then (match placeSystemCut key n c l d with | .ok d => d | .error _ => d) else d
    | _, _ => d

/-- SYSTEM_CUTTING_RESUME (R353): system cutting `idx` on slot `slot`, which the device chooses. -/
def execSystemCuttingResume (s : State) : Host.Outcome State Fault Refusal :=
  .next (onDevice (fun d => resumeCut d.arg.idx d.arg.slot d) s)

/-! ## Debug (R333 to R335) -/

/-- The debug block of a thread. -/
def dbgAt (d : Device) (n r : Nat) : DbgBlk := SMap.get DbgBlk.reset d.dbg (3 * n + r)

/-- The debug block of a thread changed. -/
def mapDbg (n r : Nat) (f : DbgBlk → DbgBlk) (d : Device) : Device :=
  { d with dbg := SMap.set DbgBlk.reset d.dbg (3 * n + r) (f (dbgAt d n r)) }

/-- A write of DBGCTL. HALT stops the thread's issue at once where its slot runs, else at the next RESUME. -/
def writeDbgctl (n r : Nat) (w : Word) (s : State) : State :=
  let v := w.toNat
  if 512 ≤ n || 3 ≤ r then s
    else within n r (fun s => { s with
      thr.halted := bit v 0 && (s.thr.halted || (s.slot.st = .running && s.thr.live))
      dev := mapDbg n r (fun b => { b with halt := bit v 0, sstep := bit v 1, bkstop := bit v 2, halted := b.halted && bit v 0 }) s.dev }) s

/-- DBG_HALT_WRITE (R333, R334): DBGCTL of thread `slot`, `role` written with `val`. -/
def execDbgHaltWrite (s : State) : Host.Outcome State Fault Refusal := .next (writeDbgctl s.dev.arg.slot s.dev.arg.role s.dev.arg.val s)

/-- THREAD_HALTED (R334): the thread `slot`, `role` is halted and its MXQ entries are complete. -/
def execThreadHalted (s : State) : Host.Outcome State Fault Refusal :=
  let n := s.dev.arg.slot
  let r := s.dev.arg.role
  .next (within n r (fun s =>
    if s.thr.halted && !s.slot.mxq.any (fun e => e.op != .marker && e.role = r) then
      { s with dev := mapDbg n r (fun b => { b with halted := true }) s.dev }
    else s) s)

/-- The debug window is open for the thread in focus. -/
def windowOpen (s : State) : Bool :=
  ((dbgOf s).halted && s.slot.st != .free) || s.slot.st = .stopped || s.slot.st = .stalled

/-- What DBGSEL selects: class, number, index. -/
def dbgSel (s : State) : Nat × Nat × Nat := let v := (dbgOf s).sel.toNat; (bits v 0 4, bits v 4 12, bits v 16 32)

/-- A register class, number and index that the thread in focus holds. -/
def selOk (s : State) : Bool :=
  let x := dbgSel s
  let port := isTrio s && s.slot.chain.isNone
  match x.1 with
  | 0 => x.2.1 = 0 && x.2.2 = 0
  | 1 => x.2.1 < 32 && x.2.2 = 0
  | 2 => (readSreg s x.2.1).isSome && x.2.2 = 0
  | 3 => x.2.1 < (if port then 28 else 32) && 64 * x.2.2 < vmN s
  | 4 => x.2.1 < 8 && 64 * x.2.2 < 2 * vmN s
  | 5 => s.cur.2 = 1 && x.2.1 < 8 && 32 * x.2.2 < vmN s
  | 6 => s.cur.2 = 1 && tileOk s x.2.1 && x.2.2 < 4 * colsN s
  | 7 => x.2.1 = 0 && 64 * x.2.2 < 2 * vmN s
  | _ => false

/-- The selected value: a queue port reads its head entry without a pop. -/
def dbgRead (s : State) : Word :=
  let x := dbgSel s
  match x.1 with
  | 0 => s.thr.pc
  | 1 => rx s x.2.1
  | 2 => (readSreg s x.2.1).getD 0
  | 3 => w64 (bits (SMap.get 0 s.thr.v x.2.1).toNat (64 * x.2.2) 64)
  | 4 => w64 (bits (rk s x.2.1).toNat (64 * x.2.2) 64)
  | 5 => w64 (bits (rm s x.2.1).toNat (64 * x.2.2) 64)
  | 6 => w64 (bits (tileOf s x.2.1).toNat (64 * x.2.2) 64)
  | _ => w64 (bits s.thr.hid.exm.toNat (64 * x.2.2) 64)

/-- The selection may be written: no port, and no state register that device code may not write. -/
def selWritable (s : State) : Bool :=
  let x := dbgSel s
  selOk s && !(x.1 = 1 && isTrio s && s.slot.chain.isNone && 28 ≤ x.2.1) && !(x.1 = 2 && !sregWritable x.2.1)

/-- A register x written past the ports. -/
def setX (n : Nat) (v : Word) (s : State) : State := if n = 0 then s else { s with thr.x := SMap.set 0 s.thr.x n v }

/-- The selected value written. -/
def dbgWrite (v : Word) (s : State) : State :=
  let x := dbgSel s
  let part := fun (old : Nat) => setBits old (64 * x.2.2) 64 v.toNat
  match x.1 with
  | 0 => { s with thr.pc := v &&& ~~~3 }
  | 1 => setX x.2.1 v s
  | 2 => writeSreg x.2.1 v s
  | 3 => raiseUnits x.2.1 (8 * (x.2.2 + 1)) { s with thr.v := SMap.set 0 s.thr.v x.2.1 (BitVec.ofNat 16384 (part (SMap.get 0 s.thr.v x.2.1).toNat)) }
  | 4 => wk x.2.1 (BitVec.ofNat 32768 (part (rk s x.2.1).toNat)) (64 * (x.2.2 + 1)) s
  | 5 => wm x.2.1 (BitVec.ofNat 32768 (part (rm s x.2.1).toNat)) (8 * (x.2.2 + 1)) s
  | 6 => setTile x.2.1 (BitVec.ofNat 32768 (part (tileOf s x.2.1).toNat)) s
  | _ => { s with thr.hid.exm := BitVec.ofNat 32768 (part s.thr.hid.exm.toNat) }

/-- A read of DBGDATA. -/
def readDbgdata (n r : Nat) (s : State) : State :=
  if 512 ≤ n || 3 ≤ r then s
    else within n r (fun s =>
      let ok := windowOpen s && selOk s
      let v := if ok then dbgRead s else 0
      let d := mapDbg n r (fun b => { b with err := b.err || !ok, data := v }) s.dev
      { s with dev := { d with hostData := leBytes 8 v.toNat } }) s

/-- DBGDATA_READ (R333): the host reads the window of thread `slot`, `role`. -/
def execDbgdataRead (s : State) : Host.Outcome State Fault Refusal := .next (readDbgdata s.dev.arg.slot s.dev.arg.role s)

/-- A write of DBGDATA. -/
def writeDbgdata (n r : Nat) (v : Word) (s : State) : State :=
  if 512 ≤ n || 3 ≤ r then s
    else within n r (fun s =>
      if windowOpen s && selWritable s then dbgWrite v s
      else { s with dev := mapDbg n r (fun b => { b with err := true }) s.dev }) s

/-- DBGDATA_WRITE (R333): the host writes `val` through the window of thread `slot`, `role`. -/
def execDbgdataWrite (s : State) : Host.Outcome State Fault Refusal := .next (writeDbgdata s.dev.arg.slot s.dev.arg.role s.dev.arg.val s)

end Sys2Proof.Machine
end

