-- ==== Sys2Proof/Machine/Mmio.lean ====
section
/-! DEFINITION. The register window as the host reads and writes it, invalidation commands, extends of measurement registers, and the
host's accesses to device memory and the host window (R216, R217, R235, R246, R249, R298, R302, R319, R322, R331, R333, R352, R365,
R366, R384, R390 to R394). -/

namespace Sys2Proof.Machine

/-! ## Invalidation (R249) -/

/-- A write of TLBI_CMD: it starts a command unless one is under way. (DEDUCED, log 53) -/
def startTlbi (kind : Nat) (d : Device) : Device :=
  if d.tlbiBusy then d
  else { d with tlbiBusy := true, tlbiKind := kind % 4, tlbiFor := (d.tlbiVa.toNat, d.tlbiCtx.toNat) }

/-- TLBI_PAGE (R249): kind 0, the data page of TLBI_VA in the context of TLBI_CTX. -/
def execTlbiPage (s : State) : Host.Outcome State Fault Refusal := .next (onDevice (startTlbi 0) s)

/-- TLBI_DATA_CTX (R249): kind 1. -/
def execTlbiDataCtx (s : State) : Host.Outcome State Fault Refusal := .next (onDevice (startTlbi 1) s)

/-- TLBI_INSTR_CTX (R249): kind 2. -/
def execTlbiInstrCtx (s : State) : Host.Outcome State Fault Refusal := .next (onDevice (startTlbi 2) s)

/-- TLBI_ALL (R249): kind 3. -/
def execTlbiAll (s : State) : Host.Outcome State Fault Refusal := .next (onDevice (startTlbi 3) s)

/-- The command under way covers a context. -/
def tlbiCovers (d : Device) (c : Nat) : Bool := d.tlbiKind = 3 || c = d.tlbiFor.2

/-- The command covers a kept translation. -/
def tlbiHits (d : Device) (e : TlbEntry) : Bool :=
  tlbiCovers d e.ctx && (match d.tlbiKind with
    | 0 => !e.instr && e.va ≤ d.tlbiFor.1 && d.tlbiFor.1 < e.va + e.size
    | 1 => !e.instr
    | 2 => e.instr
    | _ => true)

/-- Every access that used a translation the command covers is performed: no store of a covered context is on its way. Loads and
fetches are performed when they are made. -/
def tlbiQuiet (d : Device) : Bool :=
  d.tlbiKind = 2 || d.slots.all (fun p => !tlbiCovers d p.2.ctx || p.2.ths.all (fun t => t.2.pnd.stores.all (fun x => x.fence != 0)))

/-- The command acknowledged: what it covers is gone. -/
def ackTlbi (d : Device) : Device :=
  if !d.tlbiBusy || !tlbiQuiet d then d
  else { d with
    tlb := d.tlb.filter (fun e => !tlbiHits d e)
    l1i := if 2 ≤ d.tlbiKind then d.l1i.filter (fun l => !tlbiCovers d l.ctx) else d.l1i
    tlbiBusy := false
    tlbiDone := true }

/-- TLBI_ACK (R249): the command under way is acknowledged. -/
def execTlbiAck (s : State) : Host.Outcome State Fault Refusal := .next (onDevice ackTlbi s)

/-! ## Measurement registers (R393, R397) -/

/-- The 32 bytes of a 256-bit number. -/
def bytes32 (x : BitVec 256) : List Byte := leBytes 32 x.toNat

/-- M ← SHA-256(M ‖ digest). -/
def extend (m digest : BitVec 256) : BitVec 256 := BitVec.ofNat 256 (leNat (sha256 (bytes32 m ++ bytes32 digest)))

/-- Measurement register i extended. -/
def extendReg (i : Nat) (digest : BitVec 256) (b : Boot) : Boot :=
  { b with mreg := SMap.set 0 b.mreg i (extend (SMap.get 0 b.mreg i) digest) }

/-- A write of MEXT: INDEX, and with GO an extend started. A write with GO while one is under way or with an INDEX below 8 has no effect.
(DEDUCED, log 61) -/
def writeMext (v : Nat) (b : Boot) : Boot :=
  let i := bits v 0 4
  if !bit v 5 then { b with mextIdx := i }
  else if b.mextBusy || i < 8 then b
  else { b with mextIdx := i, mextBusy := true, mextTo := i, mextLatch := b.mextData }

/-- MEXT_GO (R393): the extend that a write of GO started is done. -/
def execMextGo (s : State) : Host.Outcome State Fault Refusal :=
  .next (if s.dev.boot.mextBusy then
      { s with dev.boot := { extendReg s.dev.boot.mextTo s.dev.boot.mextLatch s.dev.boot with mextBusy := false } }
    else s)

/-! ## Areas of the window (R391) -/

/-- The code of SCTL.STATE. -/
def stateCode : SlotState → Nat
  | .free => 0
  | .running => 1
  | .stopped => 2
  | .stalled => 3
  | .saving => 4

/-- A write of the identity and boot area. -/
def writeIdent (off : Nat) (v : Word) (b : Boot) : Boot :=
  if off = 8 then { b with badacc := b.badacc && !bit v.toNat 3 }
  else if off = 0x1200 then writeMext v.toNat b
  else if 0x1220 ≤ off && off < 0x1240 then { b with mextData := BitVec.ofNat 256 (setBits b.mextData.toNat (8 * (off - 0x1220)) 64 v.toNat) }
  else b

/-- A write of a queue's block. -/
def writeQueue (q r : Nat) (v : Word) (d : Device) : Device :=
  match r with
  | 0 => mapQueue q (writeQbase v) d
  | 8 => mapQueue q (writeQcfg v d.nextId) d
  | 0x18 => mapQueue q (writeNotify v) d
  | _ => d

/-- A write of a context's block. -/
def writeCtx (r : Nat) (v : Word) (b : CtxBlk) : CtxBlk :=
  match r with
  | 0 => { b with droot := v &&& 0x7FFFFFFFFFFFF001 }
  | 8 => { b with iroot := v &&& 0x7FFFFFFFFFFFF000 }
  | 0x10 => { b with cbase := v &&& 0x000FFFFFFFFFFFFC }
  | _ => { b with cbound := v &&& 0x000FFFFFFFFFFFFC }

/-- A write of a prefix-table register: EN reads 0 while LOGN is above 20 (R302). -/
def writePfx (i : Nat) (v : Word) (b : CtxBlk) : CtxBlk :=
  { b with pfx := SMap.set 0 b.pfx i (v &&& (if 20 < bits v.toNat 1 5 then 0x000FFFFFFFFFF03E else 0x000FFFFFFFFFF03F)) }

/-- A write of a fault-queue block. -/
def writeFqReg (r : Nat) (v : Word) (b : CtxBlk) : CtxBlk :=
  match r with
  | 0 => { b with fqbase := v &&& 0x000FFFFFFFFFFFC0 }
  | 8 => writeFqcfg v b
  | 0x18 => { b with fqrd := v }
  | _ => b

/-- A write of a save-frame block. -/
def writeSave (r : Nat) (v : Word) (b : CtxBlk) : CtxBlk :=
  if r = 0 then { b with savebase := v &&& 0x000FFFFFFFFFF000 } else { b with savecfg := v &&& 0xFFFFFFFFFF }

/-- A write of the translation control block. -/
def writeTlbi (r : Nat) (v : Word) (d : Device) : Device :=
  match r with
  | 0 => { d with tlbiVa := v &&& 0x000FFFFFFFFFFFFF }
  | 8 => { d with tlbiCtx := v &&& 0xFFF }
  | 0x10 => startTlbi (bits v.toNat 0 2) d
  | _ => { d with tlbiDone := d.tlbiDone && !bit v.toNat 1 }

/-- A write of the graft control block. -/
def writeGraft (r : Nat) (v : Word) (d : Device) : Device :=
  if r = 0 then { d with graftEn := bit v.toNat 0 } else { d with graftCnt := SMap.set 0 d.graftCnt (r / 8) v }

/-- A write of SWDOG.LOG. -/
def writeSwdog (n : Nat) (v : Word) (d : Device) : Device :=
  let l := bits v.toNat 0 6
  if l = 0 || (21 ≤ l && l ≤ 40) then { d with swdog := SMap.set 24 d.swdog n l } else d

/-- A write of SCTL (R322). -/
def writeSctl (n : Nat) (v : Word) (s : State) : State :=
  match bits v.toNat 0 3 with
  | 1 => onDevice (resumeSlot n) s
  | 2 => preemptSlot n s
  | 3 => onDevice (endSlot n) s
  | _ => s

/-- A write of a memory watch: EN reads 0 while LOGLEN is outside 7 to 20 (R331). -/
def writeMwatch (r : Nat) (v : Word) (m : MemWatch) : MemWatch :=
  match r with
  | 0 => { m with addr := v &&& 0x0000FFFFFFFFFF80 }
  | 8 => let l := bits v.toNat 3 5; { m with cfg := v &&& (if 7 ≤ l && l ≤ 20 then 0xFFFFF else 0xFFFFE) }
  | 0x10 => { m with hits := v }
  | _ => m

/-- A write of a retirement block (R366). -/
def writeRetire (r : Nat) (v : Word) (x : Retire) : Retire :=
  match r with
  | 0 => { x with cfg := v &&& 0xFFFF }
  | 8 => if x.st = 0 then { x with spare := v &&& 0xFFFFFFFFFFFF0000 } else x
  | 0x10 => { x with nospare := x.nospare && !bit v.toNat 18 }
  | 0x20 => { x with ue := v }
  | _ => x

/-- A write of the fabric area (R384). -/
def writeFabric (off : Nat) (v : Word) (f : Fabric) : Fabric :=
  if off = 8 then
    let us := bits v.toNat 0 16
    let re := bits v.toNat 16 4
    let x := f.rto.toNat
    let x := if 4 ≤ us && us ≤ 1000 then setBits x 0 16 us else x
    { f with rto := w64 (if 1 ≤ re then setBits x 16 4 re else x) }
  else if 0x100 ≤ off && off < 0x200 then
    let k := (off - 0x100) / 8
    { f with ports := SMap.set 0 f.ports k ((v &&& 0xFFFFFFFFFFFF0000) ||| (SMap.get 0 f.ports k &&& 1)) }
  else f

/-- A write of the slot privilege area (R394). -/
def writePriv (off : Nat) (v : Word) (d : Device) : Device :=
  if 0x4800 ≤ off then d
  else if 0x4000 ≤ off then writeLpart ((off - 0x4000) / 8) v d
  else match off % 32 with
    | 0 => writeMaxvl (off / 32) v d
    | 8 => { d with chk := SMap.set false d.chk (off / 32) (bit v.toNat 0) }
    | _ => d

/-- A write of a thread's debug block (R333). -/
def writeDebug (k r : Nat) (v : Word) (s : State) : State :=
  match r with
  | 0 => writeDbgctl (k / 3) (k % 3) v s
  | 8 => { s with dev := mapDbg (k / 3) (k % 3) (fun b => { b with err := b.err && !bit v.toNat 1 }) s.dev }
  | 0x10 => { s with dev := mapDbg (k / 3) (k % 3) (fun b => { b with sel := v &&& 0x0000FFFFFFFFFFFF }) s.dev }
  | _ => writeDbgdata (k / 3) (k % 3) v s

/-- An aligned write of 8 bytes at an offset of the window. Every other offset ignores it. -/
def writeReg (off : Nat) (v : Word) (s : State) : State :=
  let ctx := fun (base size : Nat) (f : Nat → CtxBlk → CtxBlk) => let o := off - base
    onDevice (fun d => setCtx d (o / size) (f (o % size) (ctxOf d (o / size)))) s
  if off < 0x10000 then { s with dev.boot := writeIdent off v s.dev.boot }
  else if off < 0x20000 then onDevice (writeQueue ((off - 0x10000) / 64) (off % 64) v) s
  else if off < 0x24000 then { s with dev.acnt := SMap.set 0 s.dev.acnt ((off - 0x20000) / 8) v }
  else if off < 0x30000 then s
  else if off < 0x50000 then ctx 0x30000 32 (fun r b => writeCtx r v b)
  else if off < 0x70000 then ctx 0x50000 32 (fun r b => writePfx (r / 8) v b)
  else if off < 0x90000 then onDevice (writeFq ((off - 0x70000) / 32) (writeFqReg (off % 32) v)) s
  else if off < 0xA0000 then ctx 0x90000 16 (fun r b => writeSave r v b)
  else if off < 0xA0020 then onDevice (writeTlbi (off - 0xA0000) v) s
  else if 0xA1000 ≤ off && off < 0xA1020 then onDevice (writeGraft (off - 0xA1000) v) s
  else if 0xB0000 ≤ off && off < 0xB2000 then
    (if off % 16 = 0 then writeSctl ((off - 0xB0000) / 16) v s else onDevice (writeSwdog ((off - 0xB0000) / 16) v) s)
  else if 0xC0000 ≤ off && off < 0xD0000 then onDevice (writePriv (off - 0xC0000) v) s
  else if 0xD0000 ≤ off && off < 0xDC000 then writeDebug ((off - 0xD0000) / 32) (off % 32) v s
  else if 0xE0000 ≤ off && off < 0xE0400 then
    let w := (off - 0xE0000) / 32
    { s with dev.mwatch := SMap.set MemWatch.reset s.dev.mwatch w (writeMwatch (off % 32) v (SMap.get MemWatch.reset s.dev.mwatch w)) }
  else if 0xE1000 ≤ off && off < 0xE5000 then
    (if off % 64 < 0x28 then { s with dev.ras := SMap.set 0 s.dev.ras ((off - 0xE1000) / 8) v } else s)
  else if 0xE8000 ≤ off && off < 0xE8400 then
    let c := (off - 0xE8000) / 64
    { s with dev.retire := SMap.set Retire.reset s.dev.retire c (writeRetire (off % 64) v (SMap.get Retire.reset s.dev.retire c)) }
  else if 0xF0000 ≤ off && off < 0x100000 then { s with dev.fab := writeFabric (off - 0xF0000) v s.dev.fab }
  else s

/-! ## Reads -/

/-- A queue's block as the host reads it. -/
def readQueue (r : Nat) (u : UQueue) : Word :=
  match r with
  | 0 => u.qbase
  | 8 => u.qcfg
  | 0x10 => u.qrd
  | 0x20 => u.qstat
  | 0x28 => u.qchg
  | _ => 0

/-- A context's, fault-queue and save-frame block. -/
def readCtx (area r : Nat) (b : CtxBlk) : Word :=
  match area, r with
  | 0, 0 => b.droot
  | 0, 8 => b.iroot
  | 0, 0x10 => b.cbase
  | 0, _ => b.cbound
  | 1, r => SMap.get 0 b.pfx (r / 8)
  | 2, 0 => b.fqbase
  | 2, 8 => b.fqcfg
  | 2, 0x10 => b.fqwr
  | 2, _ => b.fqrd
  | _, 0 => b.savebase
  | _, _ => b.savecfg

/-- A retirement block. -/
def readRetire (r : Nat) (x : Retire) : Word :=
  match r with
  | 0 => x.cfg
  | 8 => x.spare
  | 0x10 => w64 (x.used % 2 ^ 16 + x.st * 2 ^ 16 + (bitNat x.nospare) * 2 ^ 18)
  | 0x18 => w64 (x.frame * 65536)
  | 0x20 => x.ue
  | _ => 0

/-- The fabric area. -/
def readFabric (off : Nat) (d : Device) : Word :=
  if off = 0 then w64 (d.fab.live.toNat + bitNat (!d.fab.rehash.isEmpty) * 2 ^ 8 + (SMap.get 0 d.fab.gens d.boot.pod) % 2 ^ 16 * 2 ^ 16 + d.boot.pod * 2 ^ 32)
  else if off = 8 then d.fab.rto
  else if 0x100 ≤ off && off < 0x200 then SMap.get 0 d.fab.ports ((off - 0x100) / 8)
  else if 0x1000 ≤ off && off < 0x3000 then w64 (bits (mapOf d ((off - 0x1000) / 32)).toNat (8 * (off % 32)) 64)
  else 0

/-- A thread's debug block but DBGDATA, on a parked device. -/
def readDebug (k r : Nat) (d : Device) : Word :=
  let b := dbgAt d (k / 3) (k % 3)
  match r with
  | 0 => w64 (bitNat b.halt + 2 * bitNat b.sstep + 4 * bitNat b.bkstop)
  | 8 => w64 (bitNat (b.halted && (slotOf d (k / 3)).st != .free) + 2 * bitNat b.err)
  | _ => b.sel

/-- A register of the window but DBGDATA as the host reads it, on a parked device. Every other offset reads 0. -/
def readReg (off : Nat) (d : Device) : Word :=
  let ctx := fun (area base size : Nat) => readCtx area ((off - base) % size) (ctxOf d ((off - base) / size))
  if off < 0x10000 then w64 (identRead d.boot off)
  else if off < 0x20000 then readQueue (off % 64) (queueAt d ((off - 0x10000) / 64))
  else if off < 0x24000 then SMap.get 0 d.acnt ((off - 0x20000) / 8)
  else if off < 0x30000 then 0
  else if off < 0x50000 then ctx 0 0x30000 32
  else if off < 0x70000 then ctx 1 0x50000 32
  else if off < 0x90000 then ctx 2 0x70000 32
  else if off < 0xA0000 then ctx 3 0x90000 16
  else if off = 0xA0000 then d.tlbiVa
  else if off = 0xA0008 then d.tlbiCtx
  else if off = 0xA0018 then w64 (bitNat d.tlbiBusy + 2 * bitNat d.tlbiDone)
  else if off = 0xA1000 then w64 (bitNat d.graftEn)
  else if 0xA1000 < off && off < 0xA1020 then SMap.get 0 d.graftCnt ((off - 0xA1000) / 8)
  else if 0xB0000 ≤ off && off < 0xB2000 then
    let n := (off - 0xB0000) / 16
    (if off % 16 = 0 then w64 (stateCode (slotOf d n).st * 2 ^ 8) else w64 (watchLog d n))
  else if 0xC0000 ≤ off && off < 0xC4000 then
    (match off % 32 with
     | 0 => SMap.get 16384 d.maxvl ((off - 0xC0000) / 32)
     | 8 => w64 (bitNat (SMap.get false d.chk ((off - 0xC0000) / 32)))
     | _ => 0)
  else if 0xC4000 ≤ off && off < 0xC4800 then w64 (laneMode d ((off - 0xC4000) / 8))
  else if 0xD0000 ≤ off && off < 0xDC000 then readDebug ((off - 0xD0000) / 32) (off % 32) d
  else if 0xE0000 ≤ off && off < 0xE0400 then
    let m := SMap.get MemWatch.reset d.mwatch ((off - 0xE0000) / 32)
    (match off % 32 with | 0 => m.addr | 8 => m.cfg | 0x10 => m.hits | _ => 0)
  else if 0xE1000 ≤ off && off < 0xE5000 then (if off % 64 < 0x28 then SMap.get 0 d.ras ((off - 0xE1000) / 8) else 0)
  else if 0xE8000 ≤ off && off < 0xE8400 then readRetire (off % 64) (SMap.get Retire.reset d.retire ((off - 0xE8000) / 64))
  else if 0xF0000 ≤ off && off < 0x100000 then readFabric (off - 0xF0000) d
  else 0

/-- The offset is DBGDATA of a thread. -/
def isDbgdata (off : Nat) : Bool := 0xD0000 ≤ off && off < 0xDC000 && off % 32 = 0x18

/-- A host read of the window. -/
def hostRead (off : Nat) (s : State) : State :=
  if isDbgdata off then readDbgdata ((off - 0xD0000) / 32 / 3) ((off - 0xD0000) / 32 % 3) s
  else { s with dev.hostData := leBytes 8 (readReg off (park s)).toNat }

/-- A host access of the window: one that is no aligned doubleword reads 0, writes nothing and sets BADACC (R391). -/
def hostAccess (read : Bool) (off len : Nat) (v : Word) (s : State) : State :=
  if 2 ^ 32 ≤ off then s
  else if len != 8 || off % 8 != 0 then
    { s with dev.boot.badacc := true, dev.hostData := if read then zeros (min len 8) else s.dev.hostData }
  else if read then hostRead off s
  else writeReg off v s

/-- MSI-X vectors that the host has serviced: raised again, each is delivered again (R395). -/
def serviced (vs : List Nat) (s : State) : State :=
  if vs.isEmpty then s else { s with dev.msix := vs.foldl (fun m v => SMap.set false m v false) s.dev.msix }

/-- REGISTER_WRITE (R391, R395): the host accesses `len` bytes at offset `num` of the window: a write of `val`, or with `ok2` a read, after
it has serviced the vectors `nats`. -/
def execRegisterWrite (s : State) : Host.Outcome State Fault Refusal :=
  .next (hostAccess s.dev.arg.ok2 s.dev.arg.num s.dev.arg.len s.dev.arg.val (serviced s.dev.arg.nats s))

/-! ## CXL.mem and CXL.cache (R246, R332, R390) -/

/-- The location of local address l of this device. -/
def localKey (d : Device) (l : Nat) : Nat := d.boot.devnum * 2 ^ 48 + l

/-- CXL_MEM_READ (R390): the host reads `len` bytes of device memory at local address `val`. (DEDUCED, log 74) -/
def execCxlMemRead (s : State) : Host.Outcome State Fault Refusal :=
  let l := s.dev.arg.val.toNat
  .next (if l + s.dev.arg.len ≤ 2 ^ 40 then { s with dev.hostData := readBytes s.dev (localKey s.dev l) s.dev.arg.len } else s)

/-- Bytes of the host performed at their homes. -/
def hostWrite (l : Nat) (bs : List Byte) (d : Device) : Device :=
  performHome { kind := 7, dev := d.boot.devnum } 0 (wholeBytes (upFrom (localKey d l) bs.length) bs) d

/-- CXL_MEM_WRITE (R390): the host writes `bytes` to device memory at local address `val`. -/
def execCxlMemWrite (s : State) : Host.Outcome State Fault Refusal :=
  let l := s.dev.arg.val.toNat
  .next (if l + s.dev.arg.bytes.length ≤ 2 ^ 40 then { s with dev := hostWrite l s.dev.arg.bytes s.dev } else s)

/-- CXL_CACHE_SNOOP (R246): the host writes `bytes` to the host-window line at local address `val`; the device gives the line up, and
its L2 holds the written value from then on. -/
def execCxlCacheSnoop (s : State) : Host.Outcome State Fault Refusal :=
  let l := s.dev.arg.val.toNat
  .next (if 0x800000000000 ≤ l && l + s.dev.arg.bytes.length ≤ 0xC00000000000 then { s with dev := hostWrite l s.dev.arg.bytes s.dev } else s)

end Sys2Proof.Machine
end

