-- ==== Sys2Proof/Machine/Fabric.lean ====
section
/-! DEFINITION. Performing stores, and the planes: the plane of an address, requests to other devices, their retries and what a home
does with the requests of others, ports, and the rehash after a plane dies (R250, R262, R263, R273, R372 to R388). -/

namespace Sys2Proof.Machine

/-- The fabric interrupt (R384, R395). -/
def fabricInterrupt (d : Device) : Device := raiseVector 1 d

/-! ## Stores on their way (R250, R262, R263, R378, R382) -/

/-- The device a store goes to, when it is another. -/
def storeDest (d : Device) (p : PStore) : Option Nat :=
  match p.bytes with
  | [] => none
  | b :: _ => if isScratch b.1 || paDev b.1 = d.boot.devnum then none else some (paDev b.1)

/-- The remote store at a place of the list may leave. -/
def sendable (s : State) (i : Nat) : Bool :=
  match s.thr.pnd.stores[i]? with
  | none => false
  | some p =>
    !(s.thr.pnd.stores.take i).any (fun e => !sameTrack s.dev e p.cls (storeKey p)
        && ((e.ser != p.ser && holdsBack p.cls false e) || e.bytes.any (fun b => p.bytes.any (fun c => c.1 = b.1))))
      && !(p.cls = 15 && tileAccess s 0xFFFF p.ser)

/-- A store leaves for another device with the next number. -/
def sendStore (i dn : Nat) (p : PStore) (s : State) : State :=
  { s with
    thr.pnd.stores := s.thr.pnd.stores.set i { p with sent := some (dn, reqNumber s.dev dn) }
    dev := sendReq 0 (storeKey p) p.bytes.length s.dev }

/-- A store whose request failed: it is never applied, and its slot stops before its next instruction (R382). (DEDUCED, log 77) -/
def loseStore (i dn : Nat) (p : PStore) (s : State) : State :=
  if s.slot.st != .running && s.slot.st != .saving then s
  else
    let s := { s with
      thr.pnd.stores := s.thr.pnd.stores.eraseIdx i
      dev.fab.reqs := s.dev.fab.reqs.filter (fun r => some (r.dst, r.seq) != p.sent) }
    let r := { faultRec s 0 cLoss s.thr.pc (w64 p.va) (w64 (2 ^ 62 + dn)) with torigin := p.task }
    let s := { s with dev := addRas (coreOf s) 4 1 s.dev }
    if s.slot.chain.isSome then ungraft (some r) s
    else if s.slot.st = .saving then (if s.slot.held.isSome then s else { s with slot.held := some r, slot.posted := false })
    else stopSlot r s

/-- The store or fence at a place of the list of the thread in focus performed, or sent to its device. -/
def performStore (i : Nat) (s : State) : State :=
  match s.thr.pnd.stores[i]? with
  | none => s
  | some p => match storeDest s.dev p with
    | none => if eligible s i then performAt i s else s
    | some dn =>
      if unreachable s.dev dn then loseStore i dn p s
      else if p.sent.isSome || !sendable s i || !mayLeave s.dev (storeKey p) p.bytes.length then s
      else sendStore i dn p s

/-- STORE_PERFORM (R263, R378): the store at place `idx` of thread `slot`, `role` reaches its local home, or leaves for another
device. -/
def execStorePerform (s : State) : Host.Outcome State Fault Refusal :=
  .next (within s.dev.arg.slot s.dev.arg.role (performStore s.dev.arg.idx) s)

/-- The request is a store's, of a destination and number. -/
def RemReq.isStore (r : RemReq) (dn q : Nat) : Bool := r.own = 0 && r.dst = dn && r.seq = q

/-- The requests before one that meet its bytes. -/
def aheadOf (r : RemReq) (d : Device) : List RemReq :=
  (d.fab.reqs.takeWhile (fun e => e != r)).filter (fun e => e.dst = r.dst && e.meets r.pa r.len)

/-- The store that travels in a request, acknowledged by its home: stores to one address reach it in the order they left (R376). A read
that left before and has not been answered is taken back and leaves again. (DESIGN CHOICE, log 62) -/
def ackStore (dn q : Nat) (s : State) : State :=
  match s.thr.pnd.stores.findIdx? (fun p => p.sent = some (dn, q)), s.dev.fab.reqs.find? (fun r => r.isStore dn q) with
  | some i, some r =>
    let first := aheadOf r s.dev
    if eligible s i && !r.held && !unreachable s.dev dn && first.all (fun e => e.own != 0) then
      performAt i { s with dev.fab.reqs := s.dev.fab.reqs.filter (fun e => e != r && !first.contains e) }
    else s
  | _, _ => s

/-- REMOTE_ACK_RECEIVE (R378): request `idx` to device `num`, a store of thread `slot`, `role`, is acknowledged. -/
def execRemoteAckReceive (s : State) : Host.Outcome State Fault Refusal :=
  .next (within s.dev.arg.slot s.dev.arg.role (ackStore s.dev.arg.num s.dev.arg.idx) s)

/-! ## Retries and suspects (R379, R380, R385) -/

/-- FAB_RTO.US in nanoseconds. -/
def rtoNs (f : Fabric) : Nat := bits f.rto.toNat 0 16 * 1000

/-- FAB_RTO.RETRY. -/
def rtoTries (f : Fabric) : Nat := bits f.rto.toNat 16 4

/-- A request changed. -/
def mapReq (dn q : Nat) (g : RemReq → RemReq) (f : Fabric) : Fabric :=
  { f with reqs := f.reqs.map (fun r => if r.dst = dn && r.seq = q then g r else r) }

/-- The port by which a request leaves its plane again: the one it had, or the next one up (R376). -/
def portAgain (f : Fabric) (r : RemReq) : Nat :=
  (([r.port, (r.port + 1) % 4, (r.port + 2) % 4, (r.port + 3) % 4]).find? (portUp f r.plane)).getD r.port

/-- A request without an acknowledgement for FAB_RTO: sent again, or its plane reported suspect and the request held. -/
def retryReq (dn q : Nat) (busy : Bool) (now : Nat) (f : Fabric) : Fabric :=
  match f.reqs.find? (fun r => r.dst = dn && r.seq = q) with
  | none => f
  | some r =>
    let again := fun (r : RemReq) => { r with sentAt := now, port := portAgain f r }
    if r.held || now < r.sentAt + rtoNs f then f
    else if busy then mapReq dn q again f
    else if r.tries < rtoTries f then mapReq dn q (fun r => { again r with tries := r.tries + 1 }) f
    else { mapReq dn q (fun r => { r with held := true }) f with suspects := (r.plane, dn) :: f.suspects }

/-- REMOTE_RETRY_TIMEOUT (R379): request `idx` to device `num`; `ok` says that its home refused it with BUSY. -/
def execRemoteRetryTimeout (s : State) : Host.Outcome State Fault Refusal :=
  .next { s with dev.fab := retryReq s.dev.arg.num s.dev.arg.idx s.dev.arg.ok s.dev.devtime.toNat s.dev.fab }

/-- A destination declared dead: its requests fail (R382). -/
def killDevice (dn : Nat) (d : Device) : Device :=
  if dn = d.boot.devnum || d.fab.deadDevs.contains dn then d
  else { d with fab.deadDevs := dn :: d.fab.deadDevs, fab.reqs := d.fab.reqs.filter (fun r => r.dst != dn) }

/-- A request that a quiesce of a pod covers. -/
def covered (d : Device) (pod : Nat) (r : RemReq) : Bool := pod = d.boot.pod || podOf d r.dst = pod

/-- Covered requests that travel on dead planes and are not acknowledged taken back and held (R386). -/
def holdOn (pod : Nat) (planes : List Nat) (d : Device) : Device :=
  { d with fab.reqs := d.fab.reqs.map (fun x => if covered d pod x && planes.contains x.plane then { x with held := true } else x) }

/-- A plane declared dead for a pod (R385). It joins a rehash of that pod under way. -/
def declarePlane (pod p : Nat) (d : Device) : Device :=
  let d := if d.fab.declared.contains (pod, p) then d else { d with fab.declared := (pod, p) :: d.fab.declared }
  match SMap.find d.fab.rehash pod with
  | some r => if r.installed then d else holdOn pod [p] d
  | none => d

/-- The device that acts as fabric manager: the one the manifest names, or its standby (R385, R387). -/
def actingManager (f : Fabric) : Nat := if f.standby then f.second else f.manager

/-- The verdict on a suspect path of this device, or one that another device has reported to the manager here. (DEDUCED, log 64) -/
def probeResult (own : Bool) (p dn : Nat) (good answers : Bool) (d : Device) : Device :=
  if own && !d.fab.suspects.contains (p, dn) then d
  else if !own && actingManager d.fab != d.boot.devnum then d
  else
    let d := if own then { d with fab.suspects := d.fab.suspects.filter (· != (p, dn)) } else d
    if !good then declarePlane (podOf d dn) p d
    else if !answers then killDevice dn d
    else { d with fab.reqs := d.fab.reqs.map (fun r =>
      if own && r.dst = dn && r.plane = p then { r with held := false, tries := 0, sentAt := d.devtime.toNat } else r) }

/-- PLANE_PROBE_RESULT (R385): the probe of plane `idx` to device `num` ends: `ok` when it succeeded, `ok2` when the device answers on
some plane. `nats` names the device that reported it, where it is another one. -/
def execPlaneProbeResult (s : State) : Host.Outcome State Fault Refusal :=
  .next { s with dev := probeResult s.dev.arg.nats.isEmpty s.dev.arg.idx s.dev.arg.num s.dev.arg.ok s.dev.arg.ok2 s.dev }

/-- SWITCH_FATAL_ERROR (R385): a switch of plane `idx` of pod `num` reports a fatal error, or another device of the pod that no port of the
plane is up. -/
def execSwitchFatalError (s : State) : Host.Outcome State Fault Refusal :=
  .next (if 8 ≤ s.dev.arg.idx then s else { s with dev := declarePlane s.dev.arg.num s.dev.arg.idx s.dev })

/-! ## A home and the requests of other devices (R380) -/

/-- The window of a source. -/
def windowOf (d : Device) (src : Nat) : Window := SMap.get Window.empty d.fab.windows src

/-- The window of a source set. -/
def setWindow (src : Nat) (w : Window) (d : Device) : Device := { d with fab.windows := SMap.set Window.empty d.fab.windows src w }

/-- The window moved past numbers that are marked, n rounds. Numbers have 32 bits (R378). -/
def slide : Nat → Window → Window
  | 0, w => w
  | n + 1, w => if w.marks.contains w.low then slide n { w with low := (w.low + 1) % 2 ^ 32, marks := w.marks.filter (· != w.low) } else w

/-- A number marked as applied. -/
def markSeq (q : Nat) (w : Window) : Window := slide 4097 { w with marks := q :: w.marks }

/-- How far a number lies beyond the window's lowest; one of the lower half of the numbers lies below it. -/
def beyond (q : Nat) (w : Window) : Nat := (q + 2 ^ 32 - w.low) % 2 ^ 32

/-- A request of this number has been applied. -/
def applied (q : Nat) (w : Window) : Bool := 2 ^ 31 ≤ beyond q w || w.marks.contains q

/-- The answer to a request: a status byte, and data after a 0. -/
def reply (bs : List Byte) (d : Device) : Device := { d with fab.reply := bs }

/-- Another device as a writer. -/
def otherDevice (src : Nat) : Writer := { kind := 8, dev := src }

/-- The new value of an integer atomic: operation, width in bits, old value, operand, compared value (R258). -/
def atomicOp (op n old x c : Nat) : Option Nat :=
  match op with
  | 0 => some ((old + x) % 2 ^ n)
  | 1 => some (if toSigned n old ≤ toSigned n x then old else x)
  | 2 => some (if toSigned n old ≤ toSigned n x then x else old)
  | 3 => some (old &&& x)
  | 4 => some (old ||| x)
  | 5 => some (old ^^^ x)
  | 6 => some x
  | _ => if old = c then some x else none

/-- What the operands of a request to this home say. -/
def requestNew (a : EvArg) (old : Nat) : Option Nat :=
  let x := a.val2.toNat
  match a.len with
  | 2 => atomicOp a.role (8 * a.slot) old (x % 2 ^ (8 * a.slot)) (a.big.toNat % 2 ^ (8 * a.slot))
  | 3 => some (homeAdd (if a.slot = 4 then 9 else 10) old (x % 2 ^ (8 * a.slot)))
  | _ => some (scatAdd a.role old (x % 2 ^ fmtEw a.role))

/-- The answer to an atomic kept in the response cache: the old value, or under 2 ^ 32 above the number an error. -/
def keepAnswer (key : Nat) (v : Word) (now : Nat) (w : Window) : Window := { w with cache := SMap.put w.cache key (v, now) }

/-- An atomic that is answered with an error. -/
def refuseAtomic (a : EvArg) (code : Nat) (w : Window) (d : Device) : Device :=
  reply (leBytes 1 code) (setWindow a.num (if 2 ≤ a.len then keepAnswer (2 ^ 32 + a.idx) (w64 code) d.devtime.toNat w else w) d)

/-- A request applied at this home for the first time. -/
def applyRequest (a : EvArg) (d : Device) : Device :=
  let pa := a.val.toNat
  let n := if a.len = 0 then a.bytes.length else a.slot
  let keys := upFrom pa n
  let w := markSeq a.idx (windowOf d a.num)
  if !keys.all (isLocalDev d) then refuseAtomic a 0x0D w d
  else match a.len with
    | 0 =>
      let bs := ((upFrom 0 n).zip a.bytes).map (fun p => (pa + p.1, BitVec.ofNat 8 (a.nats.getD p.1 0xFF), p.2))
      reply [0] (setWindow a.num w (performHome (otherDevice a.num) 0 bs d))
    | 1 => if keys.any (poisoned d) then reply [0x30] (setWindow a.num w d) else reply (0 :: readBytes d pa n) (setWindow a.num w d)
    | k =>
      if k != 4 && keys.any (poisoned d) then refuseAtomic a 0x30 w d
      else
        let old := readNat d pa n
        let w := keepAnswer a.idx (w64 old) d.devtime.toNat w
        let d := match requestNew a old with
          | some v => performHome (otherDevice a.num) (if k = 4 then 2 else 1) (wholeBytes keys (leBytes n v)) d
          | none => d
        reply (0 :: leBytes n old) (setWindow a.num w d)

/-- A copy of a request that has been applied. (DEDUCED, log 63) -/
def repeatRequest (a : EvArg) (d : Device) : Device :=
  match SMap.find (windowOf d a.num).cache a.idx, SMap.find (windowOf d a.num).cache (2 ^ 32 + a.idx) with
  | some c, _ => reply (0 :: leBytes a.slot c.1.toNat) d
  | none, some c => reply (leBytes 1 c.1.toNat) d
  | none, none =>
    if a.len = 1 && (upFrom a.val.toNat a.slot).all (isLocalDev d) then
      (if (upFrom a.val.toNat a.slot).any (poisoned d) then reply [0x30] d else reply (0 :: readBytes d a.val.toNat a.slot) d)
    else reply [0] d

/-- A request of another device: applied at most once. -/
def receiveRequest (a : EvArg) (d : Device) : Device :=
  let w := windowOf d a.num
  if applied a.idx w then repeatRequest a d
  else if a.ok || 4096 ≤ beyond a.idx w then reply [0xFF] d
  else applyRequest a d

/-- REMOTE_REQUEST_RECEIVE (R380): request `idx` of device `num` at address `val`. `len` 0: a store of `bytes` under the masks `nats`;
1: a load of `slot` bytes; 2: an integer atomic of `slot` bytes, operation `role`, operand `val2`, compared value `big`; 3: a float
atomic of `slot` bytes; 4: a scatter-add update of `slot` bytes in format `role`. `ok` says that the home has no room. -/
def execRemoteRequestReceive (s : State) : Host.Outcome State Fault Refusal := .next { s with dev := receiveRequest s.dev.arg s.dev }

/-- A segment applied: its elements in their order, and after the last one the counter of the TAIL. -/
def applySegment (src : Nat) (g : Segment) (d : Device) : Device :=
  let w := windowOf d src
  let was := SMap.get (0, 0) w.segs g.train
  let total := was.2 + g.elems.length
  let d := g.elems.foldl (fun d x => performHome (otherDevice src) 0 (wholeBytes (upFrom x.1 x.2.length) x.2) d) d
  let d := match g.last, g.tail with
    | true, some l => performHome (otherDevice src) 1 (wholeBytes (upFrom (localKey d l) 8) (leBytes 8 (readNat d (localKey d l) 8 + total))) d
    | _, _ => d
  setWindow src { w with segs := SMap.set (0, 0) w.segs g.train (was.1 + 1, total) } d

/-- Segments held for a train applied as their turn comes, n rounds. -/
def applyEarly (src train : Nat) : Nat → Device → Device
  | 0, d => d
  | n + 1, d =>
    let w := windowOf d src
    match w.early.find? (fun g => g.train = train && g.num = (SMap.get (0, 0) w.segs train).1) with
    | none => d
    | some g => applyEarly src train n (applySegment src g (setWindow src { w with early := w.early.filter (· != g) } d))

/-- A segment received. -/
def receiveSegment (src : Nat) (g : Segment) (d : Device) : Device :=
  let w := windowOf d src
  let next := (SMap.get (0, 0) w.segs g.train).1
  if g.num < next then reply [0] d
  else if next < g.num then
    (if w.early.any (fun x => x.train = g.train && x.num = g.num) then d else setWindow src { w with early := w.early ++ [g] } d)
  else reply [0] (applyEarly src g.train w.early.length (applySegment src g d))

/-- TRAIN_SEGMENT_RECEIVE (R273, R380): segment `len` of train `idx` of device `num`: `parts` its elements by address, `ok` that it is
the last, and with `ok2` the TAIL counter at local address `val`. A segment has at most 4 KiB of elements. -/
def execTrainSegmentReceive (s : State) : Host.Outcome State Fault Refusal :=
  let a := s.dev.arg
  let g : Segment := ⟨a.idx, a.len, a.parts, a.ok, if a.ok2 then some a.val.toNat else none⟩
  .next (if (a.parts.map (fun x => x.2.length)).sum ≤ 4096 && a.parts.all (fun x => (upFrom x.1 x.2.length).all (isLocalDev s.dev)) then { s with dev := receiveSegment a.num g s.dev } else s)

/-- RESPONSE_CACHE_EXPIRE (R380): the cached value of request `idx` of device `num` released: `ok` says that the source has
acknowledged the response, and 64 ms have passed since it was sent. -/
def execResponseCacheExpire (s : State) : Host.Outcome State Fault Refusal :=
  let a := s.dev.arg
  let w := windowOf s.dev a.num
  .next (match (SMap.find w.cache a.idx).or (SMap.find w.cache (2 ^ 32 + a.idx)) with
    | some c =>
      if a.ok && c.2 + 64000000 ≤ s.dev.devtime.toNat then
        { s with dev := setWindow a.num { w with cache := SMap.erase (SMap.erase w.cache a.idx) (2 ^ 32 + a.idx) } s.dev }
      else s
    | none => s)

/-! ## Ports (R375, R384, R385) -/

/-- PORT of a port. -/
def portReg (f : Fabric) (k : Nat) : Nat := (SMap.get 0 f.ports k).toNat

/-- PORT of a port set. -/
def setPort (k v : Nat) (f : Fabric) : Fabric := { f with ports := SMap.set 0 f.ports k (w64 v) }

/-- A field of PORT raised by one, saturating. -/
def bumpField (v lo n : Nat) : Nat := setBits v lo n (min (bits v lo n + 1) (2 ^ n - 1))

/-- A port goes down; a plane with no port up is declared dead. -/
def portDown (k : Nat) (d : Device) : Device :=
  let f := setPort k (setBits (bumpField (portReg d.fab k) 48 16) 0 1 0) { d.fab with crcFails := SMap.set 0 d.fab.crcFails k 0 }
  let p := k / 4
  let dead := !(upFrom (4 * p) 4).any (fun j => bit (portReg f j) 0)
  fabricInterrupt (if dead then declarePlane d.boot.pod p { d with fab := f } else { d with fab := f })

/-- A flit at a port: one whose CRC fails is resent, and after eight failed resends the port goes down. (DEDUCED, log 65) -/
def receiveFlit (k : Nat) (good : Bool) (d : Device) : Device :=
  if 32 ≤ k || !bit (portReg d.fab k) 0 then d
  else if good then { d with fab.crcFails := SMap.set 0 d.fab.crcFails k 0 }
  else
    let n := SMap.get 0 d.fab.crcFails k
    if 8 ≤ n then portDown k d
    else { d with fab := setPort k (bumpField (portReg d.fab k) 16 32) { d.fab with crcFails := SMap.set 0 d.fab.crcFails k (n + 1) } }

/-- FLIT_RECEIVE (R375): a flit at port `idx` = 4 × plane + port; `ok` when its CRC is right. -/
def execFlitReceive (s : State) : Host.Outcome State Fault Refusal := .next { s with dev := receiveFlit s.dev.arg.idx s.dev.arg.ok s.dev }

/-- PORT_UP (R375, R384): port `idx` has trained its lanes. -/
def execPortUp (s : State) : Host.Outcome State Fault Refusal :=
  let k := s.dev.arg.idx
  .next (if 32 ≤ k || bit (portReg s.dev.fab k) 0 then s
    else { s with dev := fabricInterrupt { s.dev with fab := setPort k (portReg s.dev.fab k + 1) s.dev.fab } })

/-! ## The rehash (R386 to R388) -/

/-- QUIESCE received, with the generation after the current one: covered requests sent on the dead planes and not acknowledged are held.
One that repeats a step already taken changes nothing (R387). -/
def quiescePod (pod gen : Nat) (planes : List Nat) (d : Device) : Device :=
  match SMap.find d.fab.rehash pod with
  | some r =>
    if r.gen != gen || r.installed then d
    else holdOn pod planes { d with fab.rehash := SMap.put d.fab.rehash pod { r with planes := (r.planes ++ planes).eraseDups } }
  | none =>
    if gen != SMap.get 0 d.fab.gens pod + 1 then d
    else
      let e := holdOn pod planes { d with fab.rehash := SMap.put d.fab.rehash pod ⟨planes, gen, d.devtime.toNat, [], false⟩ }
      if d.fab.rehash.isEmpty then fabricInterrupt e else e

/-- QUIESCE (R386): for pod `idx`, generation `num`, dead planes `nats`. (DESIGN CHOICE, log 75) -/
def execQuiesce (s : State) : Host.Outcome State Fault Refusal :=
  .next { s with dev := quiescePod s.dev.arg.idx s.dev.arg.num s.dev.arg.nats s.dev }

/-- The rehash of a pod changed. -/
def mapRehash (pod : Nat) (g : Rehash → Rehash) (d : Device) : Device :=
  match SMap.find d.fab.rehash pod with
  | none => d
  | some r => { d with fab.rehash := SMap.put d.fab.rehash pod (g r) }

/-- An agent of a rehash reports DRAINED. This device does once its markers have come back: every covered request is performed or held. -/
def drainAgent (pod dn : Nat) (d : Device) : Device :=
  if dn = d.boot.devnum && d.fab.reqs.any (fun x => covered d pod x && !x.held) then d
  else mapRehash pod (fun r => if r.drained.contains dn then r else { r with drained := r.drained ++ [dn] }) d

/-- DRAINED (R386): device `num` reports it in the rehash of pod `idx`. -/
def execDrained (s : State) : Host.Outcome State Fault Refusal :=
  .next { s with dev := drainAgent s.dev.arg.idx s.dev.arg.num s.dev }

/-- Entries that name a dead plane given to the survivors in round robin; entries from i on, n of them, `k` given so far. -/
def rehashFrom (dead live : List Nat) : Nat → Nat → Nat → PlaneMap → PlaneMap
  | 0, _, _, m => m
  | n + 1, i, k, m =>
    if dead.contains (mapEntry m i) then
      rehashFrom dead live n (i + 1) (k + 1) (BitVec.ofNat 256 (setBits m.toNat (4 * i) 4 (live.getD (k % live.length) 0)))
    else rehashFrom dead live n (i + 1) k m

/-- The planes a map uses that are not dead, in ascending order. (DEDUCED, log 66) -/
def survivors (dead : List Nat) (m : PlaneMap) : List Nat :=
  (upFrom 0 8).filter (fun p => !dead.contains p && (upFrom 0 64).any (fun i => mapEntry m i = p))

/-- Requests to a pod that are held given their way under its current map (R374). -/
def replan (pod : Nat) (d : Device) : Device :=
  { d with fab.reqs := d.fab.reqs.map (fun x =>
      if x.held && podOf d x.dst = pod then
        { x with plane := planeOf d x.pa, port := (egress d x.pa).getD 0, gen := SMap.get 0 d.fab.gens pod }
      else x) }

/-- The new map of a pod installed, once this device has drained. A second dead plane is removed with the first. -/
def installMap (pod gen : Nat) (d : Device) : Device :=
  match SMap.find d.fab.rehash pod with
  | none => d
  | some r =>
    if r.gen != gen || !r.drained.contains d.boot.devnum || r.installed then d
    else
      let dead := (r.planes ++ (d.fab.declared.filter (fun x => x.1 = pod)).map (·.2)).eraseDups
      let m := mapOf d pod
      let live := survivors dead m
      let d := holdOn pod dead d
      let d := replan pod { d with
        fab.pmaps := if live.isEmpty then d.fab.pmaps else SMap.set defaultMap d.fab.pmaps pod (rehashFrom dead live 64 0 0 m)
        fab.gens := SMap.set 0 d.fab.gens pod gen
        fab.rehash := SMap.put d.fab.rehash pod { r with installed := true }
        fab.declared := d.fab.declared.filter (fun x => x.1 != pod)
        fab.deadPods := if live.isEmpty then pod :: d.fab.deadPods else d.fab.deadPods }
      if pod = d.boot.pod then
        let l := d.fab.live &&& ~~~(BitVec.ofNat 8 (dead.foldl (fun x p => x ||| 2 ^ p) 0))
        if l = d.fab.live then d else fabricInterrupt { d with fab.live := l }
      else d

/-- PMAP_INSTALL (R386): the map of pod `idx`, generation `num`. -/
def execPmapInstall (s : State) : Host.Outcome State Fault Refusal := .next { s with dev := installMap s.dev.arg.idx s.dev.arg.num s.dev }

/-- RELEASE received: held requests that no other quiesce covers leave under the new map in their first order. -/
def releasePod (pod gen : Nat) (d : Device) : Device :=
  match SMap.find d.fab.rehash pod with
  | none => d
  | some r =>
    if r.gen != gen || !r.installed then d
    else
      let rest := SMap.erase d.fab.rehash pod
      let e := { d with
        fab.rehash := rest
        fab.reqs := d.fab.reqs.map (fun x =>
          if covered d pod x && x.held && !rest.any (fun p => covered d p.1 x) then { x with held := false, tries := 0, sentAt := d.devtime.toNat } else x) }
      if rest.isEmpty then fabricInterrupt e else e

/-- RELEASE (R386): for pod `idx`, generation `num`. -/
def execRelease (s : State) : Host.Outcome State Fault Refusal := .next { s with dev := releasePod s.dev.arg.idx s.dev.arg.num s.dev }

/-- REHASH_DRAIN_TIMEOUT (R387): in the rehash of pod `idx`, device `num` has not reported DRAINED within 12 ms and is declared
dead. -/
def execRehashDrainTimeout (s : State) : Host.Outcome State Fault Refusal :=
  .next (match SMap.find s.dev.fab.rehash s.dev.arg.idx with
    | some r =>
      if !r.drained.contains s.dev.arg.num && r.since + 12000000 ≤ s.dev.devtime.toNat then { s with dev := killDevice s.dev.arg.num s.dev } else s
    | none => s)

/-- FM_STANDBY_TAKEOVER (R387): the standby fabric manager acts from now on. It repeats the rehash from QUIESCE; what this device has
done of it stands. -/
def execFmStandbyTakeover (s : State) : Host.Outcome State Fault Refusal := .next { s with dev.fab.standby := true }

end Sys2Proof.Machine
end

