-- ==== Sys2Proof/Machine/Errors.lean ====
section
/-! DEFINITION. Words that cannot be fetched or decoded, the ends of waits, the vector unit's retirement and replay, soft errors, the
scrubber and page retirement (R58, R61, R132, R248, R256, R314, R327, R355 to R368, R377). -/

namespace Sys2Proof.Machine

/-! ## Fetch and decode (R26, R58, R61, R248) -/

/-- FETCH_FAULT (R248): the fetch at the PC of the thread in focus fails. TVAL is the fetch address. -/
def execFetchFault (s : State) : Host.Outcome State Fault Refusal :=
  .next (if !canRun s then s else match fetchWord s with
    | .error c => inOrder s (takeTrap 0 c s.thr.pc s.thr.pc 0 s)
    | .ok _ => s)

/-- ILLEGAL_INSTR (R58, R59): the word at the PC of the thread in focus is no instruction. TVAL is the word. One of a major that a `vloop`
body may not hold ends the loop (R111). -/
def execIllegalInstr (s : State) : Host.Outcome State Fault Refusal :=
  .next (if !canRun s then s else match fetchWord s with
    | .error _ => s
    | .ok w => if isInstr w then s
      else inOrder s (takeTrap w 0x01 s.thr.pc (w.setWidth 64) 0 (if inBody s && bodyBans w then { s with thr.hid.active := false } else s)))

/-! ## The ends of waits (R256, R327, R377) -/

/-- YIELD_WAIT_END (R327): the 16 cycles after a `yield` of thread `slot`, `role` have passed. -/
def execYieldWaitEnd (s : State) : Host.Outcome State Fault Refusal :=
  .next (within s.dev.arg.slot s.dev.arg.role (fun s => if s.thr.pnd.readyAt ≤ cycNow s then { s with thr.pnd.readyAt := 0 } else s) s)

/-- The word at the PC of the thread in focus carried out again, if it is a `wpoll` that sleeps. -/
def pollAgain (s : State) : State :=
  if !canRun s || s.thr.pnd.wpollSince.isNone then s
  else match fetchWord s with
    | .ok w => if fits w 0xFC00F0FF 0x78003000 then pollWord (fld w 21 5) (fld w 16 5) (fld w 8 4) s else s
    | .error _ => s

/-- WPOLL_TIMEOUT (R256): the `wpoll` of thread `slot`, `role` has slept for 2^20 cycles and returns what it reads. -/
def execWpollTimeout (s : State) : Host.Outcome State Fault Refusal :=
  .next (within s.dev.arg.slot s.dev.arg.role (fun s => match s.thr.pnd.wpollSince with
    | some t => if 2 ^ 20 ≤ cycNow s - t then pollAgain s else s
    | none => s) s)

/-- WPOLL_REMOTE_REREAD (R377): the `wpoll` of thread `slot`, `role` reads its doubleword again. -/
def execWpollRemoteReread (s : State) : Host.Outcome State Fault Refusal :=
  .next (within s.dev.arg.slot s.dev.arg.role pollAgain s)

/-! ## The vector unit (R132, R356 to R359) -/

/-- The word is a `zmv`. -/
def isZmv (w : BitVec 32) : Bool := fits w 0xFC0078FF 0xE000000B

/-- The word computes in the vector pipes, so that it is run twice where checking is on: vector memory words, `mold`, `most` and `zmvt` do
not (R356). -/
def checkedWord (w : BitVec 32) : Bool :=
  (0x30 ≤ majorOf w && majorOf w ≤ 0x37) || (majorOf w = 0x39 && !fits w 0xFF00803E 0xE400001C) || isZmv w

/-- The lane slots of a queued word: its vl elements of the captured format, or pairs (R203). -/
def laneSlots (r : Replay) : Nat := if majorOf r.word = 0x39 then r.vl.toNat else ceilDiv (r.vl.toNat * fmtEw (vtFmt r.vtype)) 64

/-- VECTOR_WORD_COMPLETE (R132, R356, R358): the oldest queued word of thread `slot`, `role` retires. Its effects took place at its
issue (DESIGN CHOICE, log 2). `num` is how many lane slots of a checked word were corrected by the vote. -/
def execVectorWordComplete (s : State) : Host.Outcome State Fault Refusal :=
  .next (within s.dev.arg.slot s.dev.arg.role (fun s =>
    match s.thr.pnd.replay with
    | [] => s
    | r :: rest =>
      let s := { s with thr.pnd.replay := rest }
      let n := min s.dev.arg.num (laneSlots r)
      if r.chk && checkedWord r.word && n != 0 then { s with dev := addRas (coreOf s) 0 n s.dev } else s) s)

/-- The word stands in the replay queue: vector and moment words, and `zmv` (R358). -/
def pipeWord (w : BitVec 32) : Bool := (vecWord w && majorOf w != 0x38) || isZmv w

/-- A replay: it changes nothing but a counter, unless a reissued word consumes a second error. That word is the one at the PC: the
words before it have retired, and it has no effect. -/
def replayOnce (again : Bool) (elem : Nat) (s : State) : State :=
  let s := { s with dev := addRas (coreOf s) 3 1 s.dev }
  if !again || !canRun s then s
  else match fetchWord s with
    | .error _ => s
    | .ok w => if pipeWord w then takeTrap w 0x31 s.thr.pc (w.setWidth 64) (w64 elem) { s with thr.pnd.replay := [] } else s

/-- VECTOR_REPLAY (R358, R359): an uncorrectable error is consumed in the vector unit of thread `slot`, `role`. `ok2` says that a
reissued word, the one at the PC, meets a second one in the lane slot whose first element is `num`. -/
def execVectorReplay (s : State) : Host.Outcome State Fault Refusal :=
  .next (within s.dev.arg.slot s.dev.arg.role (fun s => replayOnce s.dev.arg.ok2 s.dev.arg.num s) s)

/-! ## Soft errors (R359 to R364) -/

/-- Bytes that nothing constrains put at a location. -/
def spoilBytes (key n : Nat) (d : Device) : Device :=
  let d := writeBytes d key (leBytes n (Config.damaged d.fresh))
  { d with fresh := d.fresh + 1 }

/-- The unit of a location poisoned, its bytes damaged. -/
def poisonAtKey (key : Nat) (d : Device) : Device :=
  let n := poisonSize key
  let lo := key / n * n
  let d := spoilBytes lo n d
  { d with poison := SMap.set false d.poison (poisonUnit d lo) true }

/-- A pair of bits of every pair in one 64-bit unit of a register marked damaged in the thread in focus. -/
def damageUnit (cls num unit : Nat) (s : State) : State :=
  { s with thr.hid.damaged := s.thr.hid.damaged ++ (upFrom (32 * unit) 32).map (fun u => ⟨cls, num, u⟩) }

/-- A single-bit error of an SRAM of a core is corrected on the read (R360). -/
def countSram (core n : Nat) (d : Device) : Device := addRas core 2 n d

/-- The local frame that holds a location of this device now: a retired frame's is its spare. -/
def frameOf (d : Device) (key : Nat) : Nat := (homeKey d key - localKey d 0) / 65536

/-- A controller's corrected error in a frame: a frame that reaches THRESH waits to be retired (R364, R366, R367). -/
def countCorrected (frame : Nat) (r : Retire) : Retire :=
  let n := min (SMap.get 0 r.counts frame + 1) (2 ^ 64 - 1)
  let r := { r with counts := SMap.set 0 r.counts frame n }
  let th := r.cfg.toNat
  if th = 0 || n < th || r.waiting.contains frame || (r.st != 0 && r.frame = frame) then r else { r with waiting := r.waiting ++ [frame] }

/-- A controller's block. -/
def retireAt (d : Device) (c : Nat) : Retire := SMap.get Retire.reset d.retire c

/-- A controller's block set. -/
def setRetire (c : Nat) (r : Retire) (d : Device) : Device := { d with retire := SMap.set Retire.reset d.retire c r }

/-- Damage in a binding's storage: it strikes an element that is there, and stays until a bound word meets it (R360, R361). -/
def damageBinding (num place : Nat) (s : State) : State :=
  match chainOf s with
  | none => s
  | some (c, ch) => match ch.binds[num]? with
    | none => s
    | some b =>
      if (SMap.find b.items place).isNone || b.hurt.contains place then s
      else { s with dev.chains := SMap.put s.dev.chains c { ch with binds := ch.binds.set num { b with hurt := b.hurt ++ [place] } } }

/-- A soft error in a thread's or slot's own stores. `place`: 0 tile, 1 to 6 a register, ring slot, queue port entry or `x` by its class
of R359, 7 a stream register or codebook, 8 weight-buffer slot, 9 the ring storage or staging of a grafted chain (binding `num`, offset
`unit` in T), 10 scratchpad (barriers included). -/
def softInSlot (place num unit : Nat) (s : State) : State :=
  if place = 9 then damageBinding num unit s
  else if place = 10 then { s with dev := poisonAtKey (scratchKey s.cur.1 unit) s.dev }
  else if place ≤ 8 then damageUnit place num unit s
  else s

/-- A soft error elsewhere. `place`: 11 L1D, 12 L1I, 13 an L2 slice, 14 device memory past every correction, 15 device memory
corrected; the location is `key`. -/
def softInMemory (place core ctrl key : Nat) (d : Device) : Device :=
  match place with
  | 11 => { d with l1d := d.l1d.filter (fun l => !(l.core = core && l.line = key / 64)) }
  | 12 => { d with l1i := d.l1i.filter (fun l => !(l.core = core && l.line = key / 64)) }
  | 13 => poisonAtKey (key / 128 * 128 + 64) (poisonAtKey (key / 128 * 128) d)
  | 14 => let r := retireAt d ctrl; poisonAtKey key (setRetire ctrl { r with ue := satAdd r.ue 1 } d)
  | 15 => setRetire ctrl (countCorrected (frameOf d key) (retireAt d ctrl)) d
  | _ => d

/-- SOFT_ERROR (R360 to R364). `len` is the place struck: 0 to 10 belong to thread `slot`, `role` (register `num`, 64-bit unit or offset
`idx`), 11 to 15 to core `slot` or controller `num` at location `val`. `ok` says that a single bit of an SRAM was struck, which the next
read corrects. (DESIGN CHOICE, log 68) (DEDUCED, log 76) -/
def execSoftError (s : State) : Host.Outcome State Fault Refusal :=
  let a := s.dev.arg
  .next (if a.ok && a.len ≤ 13 then { s with dev := countSram (if a.len ≤ 10 then a.slot / 2 else a.slot) 1 s.dev }
    else if a.len ≤ 10 then within a.slot a.role (softInSlot a.len a.num a.idx) s
    else if (isLocalDev s.dev a.val.toNat || (a.len ≤ 13 && paKind s.dev a.val.toNat = .hostMem)) && a.num < 16 then
      { s with dev := softInMemory a.len a.slot a.num a.val.toNat s.dev }
    else s)

/-- Latent errors of a slot's tiles and weight-buffer slots found, and those of a chain's bindings (R360, R361). A damaged scratchpad word
or barrier keeps its mark, which every reader and every waiting `bwait` finds. -/
def scrubSlot (s : State) : State :=
  let s := (upFrom 0 16).foldl (fun s z => meetTile z 0 s) s
  let s := (upFrom 0 4).foldl (fun s n => meetWb n s) s
  match chainOf s with
  | some (_, ch) => if s.slot.st = .running && ch.binds.any (fun b => !b.hurt.isEmpty) then ungraft none s else s
  | none => s

/-- SCRUB_PASS (R360): the scrubber of core `idx` has read every word of the pool and the weight buffer, correcting `num` of them. -/
def execScrubPass (s : State) : Host.Outcome State Fault Refusal :=
  let a := s.dev.arg
  .next (if 256 ≤ a.idx then s
    else
      let s := within (2 * a.idx + 1) 1 scrubSlot (within (2 * a.idx) 1 scrubSlot s)
      if a.num = 0 then s else { s with dev := countSram a.idx a.num s.dev })

/-! ## Page retirement (R366, R367) -/

/-- RT_SPARE.FRAME and COUNT. -/
def spareOf (r : Retire) : Nat × Nat := (bits r.spare.toNat 16 32, bits r.spare.toNat 48 16)

/-- The RAS interrupt (R366, R395). -/
def rasInterrupt (d : Device) : Device := raiseVector 0 d

/-- The first waiting frame of a controller takes a spare, or NOSPARE is set. -/
def startRetire (c : Nat) (d : Device) : Device :=
  let r := retireAt d c
  match r.waiting with
  | [] => d
  | f :: rest =>
    if r.st != 0 then d
    else if r.used < (spareOf r).2 then
      rasInterrupt (setRetire c { r with waiting := rest, used := r.used + 1, st := 1, frame := f, marked := [], passes := 0 } d)
    else rasInterrupt (setRetire c { r with waiting := rest, nospare := true } d)

/-- FRAME_RETIRE_START (R367): controller `idx`. -/
def execFrameRetireStart (s : State) : Host.Outcome State Fault Refusal :=
  .next (if 16 ≤ s.dev.arg.idx then s else { s with dev := startRetire s.dev.arg.idx s.dev })

/-- The spare frame of the retirement under way. -/
def spareFrame (r : Retire) : Nat := (spareOf r).1 + r.used - 1

/-- One line of 128 bytes copied from its home to the spare, with its poison marks. -/
def copyLine (r : Retire) (ln : Nat) (d : Device) : Device :=
  let a := homeKey d (localKey d (65536 * r.frame)) + 128 * ln
  let b := localKey d (65536 * spareFrame r) + 128 * ln
  let d := (upFrom 0 128).foldl (fun d i => { d with mem := SMap.set Config.unlistedByte d.mem (b + i) (SMap.get Config.unlistedByte d.mem (a + i)) }) d
  { d with poison := (upFrom 0 2).foldl (fun m i => SMap.set false m (b / 64 + i) (SMap.get false m (a / 64 + i))) d.poison }

/-- A pass ends. `again` are the marked lines that were written after this pass had copied them. -/
def endCopyPass (c : Nat) (again : List Nat) (d : Device) : Device :=
  let r := retireAt d c
  if r.st != 1 then d
  else
    let lines := if r.passes = 0 then upFrom 0 512 else r.marked
    let d := lines.foldl (fun d ln => copyLine r ln d) d
    let left := r.marked.filter again.contains
    let n := r.passes + 1
    setRetire c { r with marked := left, passes := n, st := if left.length ≤ 8 || 16 ≤ n then 2 else 1 } d

/-- COPY_PASS_END (R367): controller `idx`; `nats` are the lines written in the pass after it had copied them. -/
def execCopyPassEnd (s : State) : Host.Outcome State Fault Refusal :=
  .next (if 16 ≤ s.dev.arg.idx then s else { s with dev := endCopyPass s.dev.arg.idx s.dev.arg.nats s.dev })

/-- The marked lines copied and the remap installed. -/
def finishRetire (c : Nat) (d : Device) : Device :=
  let r := retireAt d c
  if r.st != 2 then d
  else
    let d := r.marked.foldl (fun d ln => copyLine r ln d) d
    setRetire c { r with st := 0, marked := [], retired := r.retired ++ [(homeKey d (localKey d (65536 * r.frame)), localKey d (65536 * spareFrame r))] } d

/-- RETIRE_SWITCH_DONE (R367, R368): controller `idx`. -/
def execRetireSwitchDone (s : State) : Host.Outcome State Fault Refusal :=
  .next (if 16 ≤ s.dev.arg.idx then s else { s with dev := finishRetire s.dev.arg.idx s.dev })

end Sys2Proof.Machine
end

