-- ==== Sys2Proof/Machine/Boot.lean ====
section
/-! DEFINITION. Starts and their measurements, the link's modules, power and clocks, and the management responder (R374, R389,
R396 to R401). -/

namespace Sys2Proof.Machine

/-! ## The host link (R389) -/

/-- LINK_MODULE_FAIL (R389): a module fails training; the link runs on those that are left. -/
def execLinkModuleFail (s : State) : Host.Outcome State Fault Refusal := .next { s with dev.linkMods := s.dev.linkMods - 1 }

/-! ## Starts (R374, R396 to R398) -/

/-- The kind of the next start: 0 cold, 1 warm, 2 recovery. -/
def startKind (warm : Bool) (b : Boot) : Nat :=
  if b.fails = 4 then 2 else if 2 ≤ b.fails || !b.powered then 0 else if warm then 1 else 0

/-- A controller's retained state after a warm start: remaps and corrected counts. (DEDUCED, log 69) -/
def retained (r : Retire) : Retire := { Retire.reset with counts := r.counts, retired := r.retired, used := r.retired.length }

/-- Memory at a reset: that of the device and the scratchpads are lost; the host window and the memory of other devices are not the
device's. -/
def outsideMem (d : Device) : List Host.Cell :=
  d.mem.filter (fun c => !isScratch c.1 && (paKind d c.1 = .hostMem || paDev c.1 != d.boot.devnum))

/-- The host window's bytes under the device's new number. -/
def rehome (old new : Nat) (mem : List Host.Cell) : List Host.Cell :=
  if old = new then mem
  else mem.foldl (fun m c => SMap.put m (if paDev c.1 = old && 2 ^ 47 ≤ c.1 % 2 ^ 48 then new * 2 ^ 48 + c.1 % 2 ^ 48 else c.1) c.2) []

/-- The device at a reset: what lies in flash, and on a warm start the retained state of the controllers, is left. The tape, the
counters of free values and the answers already given are no state of the device. -/
def resetDevice (warm : Bool) (d : Device) : Device :=
  { Device.reset with
    mem := rehome d.boot.devnum 0 (outsideMem d)
    retire := if warm then (d.retire.map (fun p => (p.1, retained p.2))).filter (fun p => p.2 != Retire.reset) else []
    boot := { Boot.reset with fails := d.boot.fails, rollback := d.boot.rollback, starts := d.boot.starts, powered := d.boot.powered }
    linkMods := d.linkMods
    mgmt := d.mgmt
    hostData := d.hostData
    arg := d.arg
    fresh := d.fresh
    sched := d.sched }

/-- Every thread is gone. (DEDUCED, log 71) -/
def resetState (warm : Bool) (s : State) : State := { cur := (0, 1), thr := Thread.absent, slot := Slot.free, dev := resetDevice warm (park s) }

/-- A start that failed: FAILS rises and the device is reset. -/
def failStart (warm : Bool) (s : State) : State :=
  let t := resetState warm s
  { t with dev.boot.fails := min (t.dev.boot.fails + 1) 4 }

/-- The measurement registers of a start: the digests of the ROM, the firmware, both manifests, the training results, and the pruning
and repair in force. (DEDUCED, log 70) -/
def measureAll (n : Nat) (b : Boot) : Boot := (upFrom 0 6).foldl (fun b i => extendReg i (Config.digest i n) b) b

/-- What the manifests say, as operands give it: device number, pod, highest device number, fabric manager and standby, then the pods by
device; pruned lane groups by core. -/
def withManifest (ids : List Nat) (prune : List (Nat × Nat)) (b : Boot) : Boot :=
  { b with
    devnum := ids.getD 0 0 % 2 ^ 15
    pod := ids.getD 1 0 % 2 ^ 8
    maxdev := ids.getD 2 0 % 2 ^ 15
    prune := (prune.filter (fun p => p.1 < 256 && p.2 < 8)).foldl (fun m p => SMap.set 15 m p.1 p.2) []
    pods := (upFrom 0 (ids.length - 5)).foldl (fun m i => SMap.set 0 m i (ids.getD (i + 5) 0 % 2 ^ 8)) [] }

/-- The device with what the manifests give it. -/
def configure (ids : List Nat) (b : Boot) (d : Device) : Device :=
  { d with
    mem := rehome d.boot.devnum b.devnum d.mem
    boot := b
    fab.manager := ids.getD 3 0 % 2 ^ 15
    fab.second := ids.getD 4 0 % 2 ^ 15 }

/-- A whole start: steps 1 to 7 of R397. A check that fails, or firmware below the rollback counter, fails it. -/
def startDevice (a : EvArg) (s : State) : State :=
  let kind := startKind a.ok2 s.dev.boot
  let s := { s with dev.boot := { s.dev.boot with starts := s.dev.boot.starts + 1, powered := true } }
  if !a.ok || a.num < s.dev.boot.rollback.toNat then failStart (kind = 1) s
  else
    let t := resetState (kind = 1) s
    let b := measureAll t.dev.boot.starts { withManifest a.nats a.pairs t.dev.boot with kind := kind, ready := true, fails := 0 }
    { t with dev := raiseVector 2 (configure a.nats b t.dev) }

/-- DEVICE_START (R374, R397): `ok` says that every check of R396 and R397 but the rollback check succeeds, `ok2` that the host asks for
a warm start, `num` is the firmware's version; `nats` and `pairs` are the contents of the manifests. -/
def execDeviceStart (s : State) : Host.Outcome State Fault Refusal := .next (startDevice s.dev.arg s)

/-- START_TIMEOUT (R398): 30 s have passed without READY. -/
def execStartTimeout (s : State) : Host.Outcome State Fault Refusal :=
  .next (if s.dev.boot.ready then s else failStart s.dev.arg.ok2 s)

/-! ## Clocks and power (R401) -/

/-- The clock of an island in MHz. -/
def clockOf (d : Device) (i : Nat) : Nat := (islandAt d i).mhz

/-- The clock of an island set, where there is such an island and such a clock; what it has counted stands. -/
def setClock (i mhz : Nat) (d : Device) : Device :=
  if i < 128 && 1200 ≤ mhz && mhz ≤ 3000 && mhz % 100 = 0 then
    { d with islands := SMap.set Island.reset d.islands i ⟨mhz, tickCount d i, nowPs d⟩ }
  else d

/-- CURRENT_TRIP (R401): every island drops to 1.5 GHz. (DEDUCED, log 72) -/
def execCurrentTrip (s : State) : Host.Outcome State Fault Refusal :=
  .next { s with dev := raiseVector 3 ((upFrom 0 128).foldl (fun d i => setClock i (min 1500 (clockOf d i)) d) s.dev) }

/-- THERMAL_THROTTLE (R401): island `idx` at 105 °C lowers its clock to `num` MHz. -/
def execThermalThrottle (s : State) : Host.Outcome State Fault Refusal :=
  let a := s.dev.arg
  .next { s with dev := raiseVector 3 (if a.num ≤ clockOf s.dev a.idx then setClock a.idx a.num s.dev else s.dev) }

/-- ISLAND_CLOCK_CHANGE (R401): island `idx` takes the clock `num` MHz. -/
def execIslandClockChange (s : State) : Host.Outcome State Fault Refusal :=
  .next { s with dev := setClock s.dev.arg.idx s.dev.arg.num s.dev }

/-- Every launch begins to end with CODE 0, and ends where its slots are drained. A kernel that waits ungrafted ends like the others, whatever
it waited for. -/
def endEverything (d : Device) : Device :=
  let d : Device := { d with sysCuts := d.sysCuts.map (fun p => (p.1, { p.2 with waits := [], pending := none })) }
  d.launches.foldl (fun d p => if p.2.phase = 3 then d
    else tryEnd p.1 (beginEnd p.1 (if p.2.cause = 0 then stAborted else stFault) 0 d)) d

/-- THERMAL_SHUTDOWN (R401): the device stops every slot, reports, and powers its cores down. A launch completes with the first such
turn that finds its slots drained. -/
def execThermalShutdown (s : State) : Host.Outcome State Fault Refusal :=
  .next (onDevice (fun d => endEverything (raiseVector 3 { d with boot.powered := false })) s)

/-! ## The management responder (R399, R400) -/

/-- How far a port's negotiation has come: 0 nothing, 1 version, 2 capabilities, 3 algorithms. Port 0 is the DOE mailbox, 1 the
management port. -/
def spdmState (d : Device) (port : Nat) : Nat := SMap.get 0 d.mgmt.state port

/-- The port can be reached: the DOE mailbox goes over the host link, the management port works always. -/
def portWorks (d : Device) (port : Nat) : Bool := port = 1 || (port = 0 && d.linkMods != 0 && d.boot.ready)

/-- An answer of the responder. -/
def answer (bs : List Byte) (d : Device) : Device := { d with mgmt.answer := bs }

/-- Contents that no rule gives, n bytes. -/
def openBytes (n : Nat) (d : Device) : List Byte := leBytes n (Config.answer d.fresh)

/-- A request that comes before the ones it needs is answered with an error. -/
def unexpected : List Byte := [0x7F]

/-- A negotiation step of SPDM: it needs state `need` and leads to `next`. (PRESUMED, log 36) -/
def negotiate (need next : Nat) (bs : Device → List Byte) (s : State) : State :=
  let p := s.dev.arg.idx
  if !portWorks s.dev p then s
  else if spdmState s.dev p < need then { s with dev := answer unexpected s.dev }
  else { s with dev := { answer (bs s.dev) s.dev with mgmt.state := SMap.set 0 s.dev.mgmt.state p next, fresh := s.dev.fresh + 1 } }

/-- A request of SPDM that leaves the negotiation where it is. -/
def request (bs : Device → List Byte) (s : State) : State := negotiate 3 3 bs s

/-- The bytes of a signature of SLH-DSA-SHA2-128s. -/
def signature (d : Device) : List Byte := openBytes 7856 d

/-- GET_VERSION (R399) at port `idx`: the answer names SPDM 1.3. -/
def execGetVersion (s : State) : Host.Outcome State Fault Refusal := .next (negotiate 0 1 (fun _ => [0x13]) s)

/-- GET_CAPABILITIES (R399) at port `idx`. -/
def execGetCapabilities (s : State) : Host.Outcome State Fault Refusal := .next (negotiate 1 2 (openBytes 4) s)

/-- The algorithms the responder offers: measurements in DMTF form, digests of SHA-256, no base asymmetric algorithm and one extended one,
SLH-DSA-SHA2-128s, under the registry entry of the vendor, whose four bytes no rule gives. (PRESUMED, log 36) -/
def algorithms (d : Device) : List Byte :=
  leBytes 2 40 ++ [1, 0] ++ leBytes 4 2 ++ leBytes 4 0 ++ leBytes 4 1 ++ zeros 12 ++ [1, 0] ++ zeros 2 ++ openBytes 4 d

/-- NEGOTIATE_ALGORITHMS (R399) at port `idx`. -/
def execNegotiateAlgorithms (s : State) : Host.Outcome State Fault Refusal := .next (negotiate 2 3 algorithms s)

/-- GET_DIGESTS (R399) at port `idx`: the SHA-256 digest of the certificate chain. -/
def execGetDigests (s : State) : Host.Outcome State Fault Refusal := .next (request (fun _ => sha256 Config.certificates) s)

/-- GET_CERTIFICATE (R399) at port `idx`: `len` bytes of the chain from offset `num`. -/
def execGetCertificate (s : State) : Host.Outcome State Fault Refusal :=
  .next (request (fun d => (Config.certificates.drop d.arg.num).take d.arg.len) s)

/-- CHALLENGE (R399) at port `idx`: an answer signed with the identity key. -/
def execChallenge (s : State) : Host.Outcome State Fault Refusal := .next (request signature s)

/-- The DMTF value type of a measurement register: ROM, firmware, hardware configuration, firmware configuration. (PRESUMED, log 36) -/
def valueType (k : Nat) : Nat := ([0, 1, 3, 3, 3, 2]).getD k 3

/-- A DMTF measurement block: index, specification 1, its size, then value type, size and the digest. (PRESUMED, log 36) -/
def measurementBlock (k : Nat) (d : Device) : List Byte :=
  leBytes 1 k ++ [1] ++ leBytes 2 35 ++ leBytes 1 (valueType (k - 1)) ++ leBytes 2 32 ++ bytes32 (SMap.get 0 d.boot.mreg (k - 1))

/-- The measurement blocks asked for: index 1 to 16, or all for 255. -/
def measurementBlocks (i : Nat) (d : Device) : List Byte :=
  ((upFrom 1 16).filter (fun k => k = i || i = 255)).flatMap (fun k => measurementBlock k d)

/-- GET_MEASUREMENTS (R399) at port `idx`: index `num`, with a signature. -/
def execGetMeasurements (s : State) : Host.Outcome State Fault Refusal :=
  .next (request (fun d => measurementBlocks s.dev.arg.num d ++ signature d) s)

/-- MCTP_CONTROL (R400): a control message to the management port: command `num`; 1 sets the endpoint ID to `idx`, 2 asks for it. -/
def execMctpControl (s : State) : Host.Outcome State Fault Refusal :=
  let a := s.dev.arg
  let d := if a.num = 1 then { s.dev with mgmt.eid := SMap.set 0 s.dev.mgmt.eid 1 (a.idx % 256) } else s.dev
  .next { s with dev := if a.num = 1 || a.num = 2 then answer (leBytes 1 (SMap.get 0 d.mgmt.eid 1)) d
                        else { answer (openBytes 1 d) d with fresh := d.fresh + 1 } }

/-- VENDOR_STATUS_READ (R400): BOOT_STAT, the temperatures of the 128 islands and the power figures. -/
def execVendorStatusRead (s : State) : Host.Outcome State Fault Refusal :=
  .next { s with dev := { answer (leBytes 8 (identRead s.dev.boot 8) ++ leBytes 264 (Config.sensor s.dev.fresh)) s.dev with fresh := s.dev.fresh + 1 } }

end Sys2Proof.Machine
end

