-- ==== Sys2Proof/Machine/Dispatch.lean ====
section
/-! DEFINITION. Which meaning each instruction has: one arm per constructor, each one call. -/

namespace Sys2Proof.Machine

/-- The effect of one instruction or step on the state. -/
def exec (i : Instr) (s : State) : Host.Outcome State Fault Refusal :=
  match i with
  | .add d a b => Sys2Proof.Machine.execAdd d a b s
  | .sub d a b => Sys2Proof.Machine.execSub d a b s
  | .and d a b => Sys2Proof.Machine.execAnd d a b s
  | .or d a b => Sys2Proof.Machine.execOr d a b s
  | .xor d a b => Sys2Proof.Machine.execXor d a b s
  | .sll d a b => Sys2Proof.Machine.execSll d a b s
  | .srl d a b => Sys2Proof.Machine.execSrl d a b s
  | .sra d a b => Sys2Proof.Machine.execSra d a b s
  | .slt d a b => Sys2Proof.Machine.execSlt d a b s
  | .sltu d a b => Sys2Proof.Machine.execSltu d a b s
  | .min d a b => Sys2Proof.Machine.execMin d a b s
  | .max d a b => Sys2Proof.Machine.execMax d a b s
  | .minu d a b => Sys2Proof.Machine.execMinu d a b s
  | .maxu d a b => Sys2Proof.Machine.execMaxu d a b s
  | .clz d a => Sys2Proof.Machine.execClz d a s
  | .ctz d a => Sys2Proof.Machine.execCtz d a s
  | .popc d a => Sys2Proof.Machine.execPopc d a s
  | .sextb d a => Sys2Proof.Machine.execSextb d a s
  | .sexth d a => Sys2Proof.Machine.execSexth d a s
  | .sextw d a => Sys2Proof.Machine.execSextw d a s
  | .mul d a b => Sys2Proof.Machine.execMul d a b s
  | .mulhs d a b => Sys2Proof.Machine.execMulhs d a b s
  | .mulhu d a b => Sys2Proof.Machine.execMulhu d a b s
  | .mulhx d a b => Sys2Proof.Machine.execMulhx d a b s
  | .div d a b => Sys2Proof.Machine.execDiv d a b s
  | .divu d a b => Sys2Proof.Machine.execDivu d a b s
  | .rem d a b => Sys2Proof.Machine.execRem d a b s
  | .remu d a b => Sys2Proof.Machine.execRemu d a b s
  | .fadd d a b f => Sys2Proof.Machine.execFadd d a b f s
  | .fsub d a b f => Sys2Proof.Machine.execFsub d a b f s
  | .fmul d a b f => Sys2Proof.Machine.execFmul d a b f s
  | .fdiv d a b f => Sys2Proof.Machine.execFdiv d a b f s
  | .fsqrt d a f => Sys2Proof.Machine.execFsqrt d a f s
  | .fmad d a b f => Sys2Proof.Machine.execFmad d a b f s
  | .feq d a b f => Sys2Proof.Machine.execFeq d a b f s
  | .flt d a b f => Sys2Proof.Machine.execFlt d a b f s
  | .fle d a b f => Sys2Proof.Machine.execFle d a b f s
  | .funo d a b f => Sys2Proof.Machine.execFuno d a b f s
  | .ftoi d a f => Sys2Proof.Machine.execFtoi d a f s
  | .ftou d a f => Sys2Proof.Machine.execFtou d a f s
  | .itof d a f => Sys2Proof.Machine.execItof d a f s
  | .utof d a f => Sys2Proof.Machine.execUtof d a f s
  | .fcvs d a f => Sys2Proof.Machine.execFcvs d a f s
  | .fcvh d a f => Sys2Proof.Machine.execFcvh d a f s
  | .fcvb d a f => Sys2Proof.Machine.execFcvb d a f s
  | .addi d a im => Sys2Proof.Machine.execAddi d a im s
  | .andi d a im => Sys2Proof.Machine.execAndi d a im s
  | .ori d a im => Sys2Proof.Machine.execOri d a im s
  | .xori d a im => Sys2Proof.Machine.execXori d a im s
  | .slti d a im => Sys2Proof.Machine.execSlti d a im s
  | .sltiu d a im => Sys2Proof.Machine.execSltiu d a im s
  | .lim d c im => Sys2Proof.Machine.execLim d c im s
  | .pcadd d im => Sys2Proof.Machine.execPcadd d im s
  | .slli d a sf => Sys2Proof.Machine.execSlli d a sf s
  | .srli d a sf => Sys2Proof.Machine.execSrli d a sf s
  | .srai d a sf => Sys2Proof.Machine.execSrai d a sf s
  | .rori d a sf => Sys2Proof.Machine.execRori d a sf s
  | .ldb d a c o => Sys2Proof.Machine.execLdb d a c o s
  | .ldbu d a c o => Sys2Proof.Machine.execLdbu d a c o s
  | .ldh d a c o => Sys2Proof.Machine.execLdh d a c o s
  | .ldhu d a c o => Sys2Proof.Machine.execLdhu d a c o s
  | .ldw d a c o => Sys2Proof.Machine.execLdw d a c o s
  | .ldwu d a c o => Sys2Proof.Machine.execLdwu d a c o s
  | .ldd d a c o => Sys2Proof.Machine.execLdd d a c o s
  | .stb d a c o => Sys2Proof.Machine.execStb d a c o s
  | .sth d a c o => Sys2Proof.Machine.execSth d a c o s
  | .stw d a c o => Sys2Proof.Machine.execStw d a c o s
  | .std d a c o => Sys2Proof.Machine.execStd d a c o s
  | .aadd d a b sf c w => Sys2Proof.Machine.execAadd d a b sf c w s
  | .amin d a b sf c w => Sys2Proof.Machine.execAmin d a b sf c w s
  | .amax d a b sf c w => Sys2Proof.Machine.execAmax d a b sf c w s
  | .aand d a b sf c w => Sys2Proof.Machine.execAand d a b sf c w s
  | .aor d a b sf c w => Sys2Proof.Machine.execAor d a b sf c w s
  | .axor d a b sf c w => Sys2Proof.Machine.execAxor d a b sf c w s
  | .aswap d a b sf c w => Sys2Proof.Machine.execAswap d a b sf c w s
  | .acas d a b sf c w => Sys2Proof.Machine.execAcas d a b sf c w s
  | .afadd d a b sf c f => Sys2Proof.Machine.execAfadd d a b sf c f s
  | .fence m sf n => Sys2Proof.Machine.execFence m sf n s
  | .fenceQ q => Sys2Proof.Machine.execFenceQ q s
  | .fenceArr sf g => Sys2Proof.Machine.execFenceArr sf g s
  | .wpoll d a sf => Sys2Proof.Machine.execWpoll d a sf s
  | .fenceAcq m sf n => Sys2Proof.Machine.execFenceAcq m sf n s
  | .fenceRel m sf n => Sys2Proof.Machine.execFenceRel m sf n s
  | .beq a b o => Sys2Proof.Machine.execBeq a b o s
  | .bne a b o => Sys2Proof.Machine.execBne a b o s
  | .blt a b o => Sys2Proof.Machine.execBlt a b o s
  | .bge a b o => Sys2Proof.Machine.execBge a b o s
  | .bltu a b o => Sys2Proof.Machine.execBltu a b o s
  | .bgeu a b o => Sys2Proof.Machine.execBgeu a b o s
  | .jmp o => Sys2Proof.Machine.execJmp o s
  | .call o => Sys2Proof.Machine.execCall o s
  | .jr a => Sys2Proof.Machine.execJr a s
  | .callr a => Sys2Proof.Machine.execCallr a s
  | .sbr n m sf o => Sys2Proof.Machine.execSbr n m sf o s
  | .vbr a o => Sys2Proof.Machine.execVbr a o s
  | .vjoin o => Sys2Proof.Machine.execVjoin o s
  | .vbany a o => Sys2Proof.Machine.execVbany a o s
  | .vball a o => Sys2Proof.Machine.execVball a o s
  | .vloop sf l => Sys2Proof.Machine.execVloop sf l s
  | .setvl d a t => Sys2Proof.Machine.execSetvl d a t s
  | .setvlr d a b => Sys2Proof.Machine.execSetvlr d a b s
  | .cbld a c n => Sys2Proof.Machine.execCbld a c n s
  | .vld d a b k c => Sys2Proof.Machine.execVld d a b k c s
  | .vlds d a b k c => Sys2Proof.Machine.execVlds d a b k c s
  | .vldx d a b k c => Sys2Proof.Machine.execVldx d a b k c s
  | .vldmx d a b k c => Sys2Proof.Machine.execVldmx d a b k c s
  | .vsld d sf k c => Sys2Proof.Machine.execVsld d sf k c s
  | .sdld sf a => Sys2Proof.Machine.execSdld sf a s
  | .vst d a b k c => Sys2Proof.Machine.execVst d a b k c s
  | .vsts d a b k c => Sys2Proof.Machine.execVsts d a b k c s
  | .vstx d a b k c => Sys2Proof.Machine.execVstx d a b k c s
  | .vstmx d a b k c => Sys2Proof.Machine.execVstmx d a b k c s
  | .vsst d sf k c => Sys2Proof.Machine.execVsst d sf k c s
  | .vscataddDev d a b k c => Sys2Proof.Machine.execVscataddDev d a b k c s
  | .vscataddHost d a b k c => Sys2Proof.Machine.execVscataddHost d a b k c s
  | .vscataddSys d a b k c => Sys2Proof.Machine.execVscataddSys d a b k c s
  | .vadd x d a b k h => Sys2Proof.Machine.execVadd x d a b k h s
  | .vsub x d a b k h => Sys2Proof.Machine.execVsub x d a b k h s
  | .vsubr x d a b k h => Sys2Proof.Machine.execVsubr x d a b k h s
  | .vmul x d a b k h => Sys2Proof.Machine.execVmul x d a b k h s
  | .vmulhi x d a b k h => Sys2Proof.Machine.execVmulhi x d a b k h s
  | .vdiv x d a b k h => Sys2Proof.Machine.execVdiv x d a b k h s
  | .vrem x d a b k h => Sys2Proof.Machine.execVrem x d a b k h s
  | .vmin x d a b k h => Sys2Proof.Machine.execVmin x d a b k h s
  | .vmax x d a b k h => Sys2Proof.Machine.execVmax x d a b k h s
  | .vand x d a b k h => Sys2Proof.Machine.execVand x d a b k h s
  | .vor x d a b k h => Sys2Proof.Machine.execVor x d a b k h s
  | .vxor x d a b k h => Sys2Proof.Machine.execVxor x d a b k h s
  | .vshl x d a b k h => Sys2Proof.Machine.execVshl x d a b k h s
  | .vshr x d a b k h => Sys2Proof.Machine.execVshr x d a b k h s
  | .vaddsat x d a b k h => Sys2Proof.Machine.execVaddsat x d a b k h s
  | .vsubsat x d a b k h => Sys2Proof.Machine.execVsubsat x d a b k h s
  | .vmad x d a b k h => Sys2Proof.Machine.execVmad x d a b k h s
  | .vcopy x d b k h => Sys2Proof.Machine.execVcopy x d b k h s
  | .vfadd x d a b k h => Sys2Proof.Machine.execVfadd x d a b k h s
  | .vfsub x d a b k h => Sys2Proof.Machine.execVfsub x d a b k h s
  | .vfsubr x d a b k h => Sys2Proof.Machine.execVfsubr x d a b k h s
  | .vfmul x d a b k h => Sys2Proof.Machine.execVfmul x d a b k h s
  | .vfdiv x d a b k h => Sys2Proof.Machine.execVfdiv x d a b k h s
  | .vfsqrt d a k h => Sys2Proof.Machine.execVfsqrt d a k h s
  | .vfmin x d a b k h => Sys2Proof.Machine.execVfmin x d a b k h s
  | .vfmax x d a b k h => Sys2Proof.Machine.execVfmax x d a b k h s
  | .vfmad x d a b k h => Sys2Proof.Machine.execVfmad x d a b k h s
  | .vfmsb x d a b k h => Sys2Proof.Machine.execVfmsb x d a b k h s
  | .vfabs d a k h => Sys2Proof.Machine.execVfabs d a k h s
  | .vfneg d a k h => Sys2Proof.Machine.execVfneg d a k h s
  | .vfcsgn x d a b k h => Sys2Proof.Machine.execVfcsgn x d a b k h s
  | .vfcopy x d b k h => Sys2Proof.Machine.execVfcopy x d b k h s
  | .vcmpeq d a b k h x => Sys2Proof.Machine.execVcmpeq d a b k h x s
  | .vcmpne d a b k h x => Sys2Proof.Machine.execVcmpne d a b k h x s
  | .vcmplt d a b k h x => Sys2Proof.Machine.execVcmplt d a b k h x s
  | .vcmple d a b k h x => Sys2Proof.Machine.execVcmple d a b k h x s
  | .vcmpgt d a b k h x => Sys2Proof.Machine.execVcmpgt d a b k h x s
  | .vcmpge d a b k h x => Sys2Proof.Machine.execVcmpge d a b k h x s
  | .kboth d a b h => Sys2Proof.Machine.execKboth d a b h s
  | .keither d a b h => Sys2Proof.Machine.execKeither d a b h s
  | .kdiffer d a b h => Sys2Proof.Machine.execKdiffer d a b h s
  | .kbut d a b h => Sys2Proof.Machine.execKbut d a b h s
  | .kflip d a h => Sys2Proof.Machine.execKflip d a h s
  | .kfill d h => Sys2Proof.Machine.execKfill d h s
  | .kcount d a k h => Sys2Proof.Machine.execKcount d a k h s
  | .klowest d a k h => Sys2Proof.Machine.execKlowest d a k h s
  | .vsel d a b k h => Sys2Proof.Machine.execVsel d a b k h s
  | .vindex d k h => Sys2Proof.Machine.execVindex d k h s
  | .vshup d a b k h => Sys2Proof.Machine.execVshup d a b k h s
  | .vshdn d a b k h => Sys2Proof.Machine.execVshdn d a b k h s
  | .vperm d a b k h => Sys2Proof.Machine.execVperm d a b k h s
  | .vpack d a k h => Sys2Proof.Machine.execVpack d a k h s
  | .vuniq d a k h => Sys2Proof.Machine.execVuniq d a k h s
  | .vget d a b h => Sys2Proof.Machine.execVget d a b h s
  | .vput d a b h => Sys2Proof.Machine.execVput d a b h s
  | .vredsum d a k h t => Sys2Proof.Machine.execVredsum d a k h t s
  | .vredmin d a k h t => Sys2Proof.Machine.execVredmin d a k h t s
  | .vredmax d a k h t => Sys2Proof.Machine.execVredmax d a k h t s
  | .vredand d a k h t => Sys2Proof.Machine.execVredand d a k h t s
  | .vredor d a k h t => Sys2Proof.Machine.execVredor d a k h t s
  | .vredxor d a k h t => Sys2Proof.Machine.execVredxor d a k h t s
  | .vfredsum d a k h t => Sys2Proof.Machine.execVfredsum d a k h t s
  | .vfredsumw d a k h t => Sys2Proof.Machine.execVfredsumw d a k h t s
  | .vfredmin d a k h t => Sys2Proof.Machine.execVfredmin d a k h t s
  | .vfredmax d a k h t => Sys2Proof.Machine.execVfredmax d a k h t s
  | .vfexp2 d a k h => Sys2Proof.Machine.execVfexp2 d a k h s
  | .vflog2 d a k h => Sys2Proof.Machine.execVflog2 d a k h s
  | .vfrecip d a k h => Sys2Proof.Machine.execVfrecip d a k h s
  | .vfrsqrt d a k h => Sys2Proof.Machine.execVfrsqrt d a k h s
  | .vftanh d a k h => Sys2Proof.Machine.execVftanh d a k h s
  | .vfsig d a k h => Sys2Proof.Machine.execVfsig d a k h s
  | .vcvtsr d a b k h f => Sys2Proof.Machine.execVcvtsr d a b k h f s
  | .vcvtmx d a sf k h f => Sys2Proof.Machine.execVcvtmx d a sf k h f s
  | .vcvt d a k h f => Sys2Proof.Machine.execVcvt d a k h f s
  | .mma z a w k => Sys2Proof.Machine.execMma z a w k s
  | .mmamo z a w k => Sys2Proof.Machine.execMmamo z a w k s
  | .zclr z => Sys2Proof.Machine.execZclr z s
  | .zld z a c => Sys2Proof.Machine.execZld z a c s
  | .zst z a c => Sys2Proof.Machine.execZst z a c s
  | .zmv z a w r => Sys2Proof.Machine.execZmv z a w r s
  | .zmvt z a w r => Sys2Proof.Machine.execZmvt z a w r s
  | .wbld a w => Sys2Proof.Machine.execWbld a w s
  | .mcommit a => Sys2Proof.Machine.execMcommit a s
  | .moadd d a b k h => Sys2Proof.Machine.execMoadd d a b k h s
  | .mosub d a b k h => Sys2Proof.Machine.execMosub d a b k h s
  | .momul d a b k h => Sys2Proof.Machine.execMomul d a b k h s
  | .mofma d a b k h => Sys2Proof.Machine.execMofma d a b k h s
  | .mosc d a b k h => Sys2Proof.Machine.execMosc d a b k h s
  | .moscX d a b k h => Sys2Proof.Machine.execMoscX d a b k h s
  | .moexp d a k h => Sys2Proof.Machine.execMoexp d a k h s
  | .morelu d a k h => Sys2Proof.Machine.execMorelu d a k h s
  | .mosig d a k h => Sys2Proof.Machine.execMosig d a k h s
  | .motanh d a k h => Sys2Proof.Machine.execMotanh d a k h s
  | .mofrom d a b k h => Sys2Proof.Machine.execMofrom d a b k h s
  | .mocolMean d a k h => Sys2Proof.Machine.execMocolMean d a k h s
  | .mocolVar d a k h => Sys2Proof.Machine.execMocolVar d a k h s
  | .mocolStd d a k h => Sys2Proof.Machine.execMocolStd d a k h s
  | .mocolUpper d a b k h => Sys2Proof.Machine.execMocolUpper d a b k h s
  | .mocolLower d a b k h => Sys2Proof.Machine.execMocolLower d a b k h s
  | .mocolSample d a b k h => Sys2Proof.Machine.execMocolSample d a b k h s
  | .momv d a k h => Sys2Proof.Machine.execMomv d a k h s
  | .mold d a c k h => Sys2Proof.Machine.execMold d a c k h s
  | .most d a c k h => Sys2Proof.Machine.execMost d a c k h s
  | .tget d => Sys2Proof.Machine.execTget d s
  | .tlaunch d a => Sys2Proof.Machine.execTlaunch d a s
  | .tlaunchW d a => Sys2Proof.Machine.execTlaunchW d a s
  | .gwait g => Sys2Proof.Machine.execGwait g s
  | .gtest d g => Sys2Proof.Machine.execGtest d g s
  | .rstat d t p => Sys2Proof.Machine.execRstat d t p s
  | .cpy a b n => Sys2Proof.Machine.execCpy a b n s
  | .rgath a b n => Sys2Proof.Machine.execRgath a b n s
  | .rscat a b n => Sys2Proof.Machine.execRscat a b n s
  | .coll a b n => Sys2Proof.Machine.execColl a b n s
  | .pfxh a b n => Sys2Proof.Machine.execPfxh a b n s
  | .pfxlk a b n => Sys2Proof.Machine.execPfxlk a b n s
  | .pfxins a b n => Sys2Proof.Machine.execPfxins a b n s
  | .pfxunpin a b n => Sys2Proof.Machine.execPfxunpin a b n s
  | .binit a b => Sys2Proof.Machine.execBinit a b s
  | .bexpect a b => Sys2Proof.Machine.execBexpect a b s
  | .barrive a => Sys2Proof.Machine.execBarrive a s
  | .bexparr a b => Sys2Proof.Machine.execBexparr a b s
  | .bwait d a b => Sys2Proof.Machine.execBwait d a b s
  | .btest d a b => Sys2Proof.Machine.execBtest d a b s
  | .susp d a b g => Sys2Proof.Machine.execSusp d a b g s
  | .mfs d sf => Sys2Proof.Machine.execMfs d sf s
  | .mts a sf => Sys2Proof.Machine.execMts a sf s
  | .sys c => Sys2Proof.Machine.execSys c s
  | .brk c => Sys2Proof.Machine.execBrk c s
  | .resm d a b => Sys2Proof.Machine.execResm d a b s
  | .cdisc d a => Sys2Proof.Machine.execCdisc d a s
  | .ret => Sys2Proof.Machine.execRet s
  | .tdone => Sys2Proof.Machine.execTdone s
  | .tdoneC => Sys2Proof.Machine.execTdoneC s
  | .eret => Sys2Proof.Machine.execEret s
  | .yield => Sys2Proof.Machine.execYield s
  | .nop => Sys2Proof.Machine.execNop s
  | .yieldWaitEnd => Sys2Proof.Machine.execYieldWaitEnd s
  | .storePerform => Sys2Proof.Machine.execStorePerform s
  | .wpollTimeout => Sys2Proof.Machine.execWpollTimeout s
  | .wpollRemoteReread => Sys2Proof.Machine.execWpollRemoteReread s
  | .fenceArrArrival => Sys2Proof.Machine.execFenceArrArrival s
  | .barriveEffect => Sys2Proof.Machine.execBarriveEffect s
  | .mmaExecute => Sys2Proof.Machine.execMmaExecute s
  | .mmamoExecute => Sys2Proof.Machine.execMmamoExecute s
  | .zclrExecute => Sys2Proof.Machine.execZclrExecute s
  | .zldExecute => Sys2Proof.Machine.execZldExecute s
  | .zstExecute => Sys2Proof.Machine.execZstExecute s
  | .wbFill => Sys2Proof.Machine.execWbFill s
  | .mcommitArrival => Sys2Proof.Machine.execMcommitArrival s
  | .cpyExecute => Sys2Proof.Machine.execCpyExecute s
  | .rgathExecute => Sys2Proof.Machine.execRgathExecute s
  | .rscatExecute => Sys2Proof.Machine.execRscatExecute s
  | .collExecute => Sys2Proof.Machine.execCollExecute s
  | .pfxhExecute => Sys2Proof.Machine.execPfxhExecute s
  | .pfxlkExecute => Sys2Proof.Machine.execPfxlkExecute s
  | .pfxinsExecute => Sys2Proof.Machine.execPfxinsExecute s
  | .pfxunpinExecute => Sys2Proof.Machine.execPfxunpinExecute s
  | .engineEntryComplete => Sys2Proof.Machine.execEngineEntryComplete s
  | .remoteTimeout => Sys2Proof.Machine.execRemoteTimeout s
  | .vectorReplay => Sys2Proof.Machine.execVectorReplay s
  | .scrubPass => Sys2Proof.Machine.execScrubPass s
  | .frameRetireStart => Sys2Proof.Machine.execFrameRetireStart s
  | .copyPassEnd => Sys2Proof.Machine.execCopyPassEnd s
  | .retireSwitchDone => Sys2Proof.Machine.execRetireSwitchDone s
  | .qcfgWrite => Sys2Proof.Machine.execQcfgWrite s
  | .qnotifyWrite => Sys2Proof.Machine.execQnotifyWrite s
  | .packetConsume => Sys2Proof.Machine.execPacketConsume s
  | .packetStart => Sys2Proof.Machine.execPacketStart s
  | .barrierPacketComplete => Sys2Proof.Machine.execBarrierPacketComplete s
  | .signalPacket => Sys2Proof.Machine.execSignalPacket s
  | .launchAdmit => Sys2Proof.Machine.execLaunchAdmit s
  | .placeLaunch => Sys2Proof.Machine.execPlaceLaunch s
  | .taskFinish => Sys2Proof.Machine.execTaskFinish s
  | .deadlineMiss => Sys2Proof.Machine.execDeadlineMiss s
  | .tlbiPage => Sys2Proof.Machine.execTlbiPage s
  | .tlbiDataCtx => Sys2Proof.Machine.execTlbiDataCtx s
  | .tlbiInstrCtx => Sys2Proof.Machine.execTlbiInstrCtx s
  | .tlbiAll => Sys2Proof.Machine.execTlbiAll s
  | .tlbiAck => Sys2Proof.Machine.execTlbiAck s
  | .lpartWrite => Sys2Proof.Machine.execLpartWrite s
  | .maxvlWrite => Sys2Proof.Machine.execMaxvlWrite s
  | .slotResume => Sys2Proof.Machine.execSlotResume s
  | .slotPreempt => Sys2Proof.Machine.execSlotPreempt s
  | .slotEnd => Sys2Proof.Machine.execSlotEnd s
  | .preemptSave => Sys2Proof.Machine.execPreemptSave s
  | .saveAbandon => Sys2Proof.Machine.execSaveAbandon s
  | .systemCuttingResume => Sys2Proof.Machine.execSystemCuttingResume s
  | .suspSectionWrite => Sys2Proof.Machine.execSuspSectionWrite s
  | .watchdogExpire => Sys2Proof.Machine.execWatchdogExpire s
  | .dbgHaltWrite => Sys2Proof.Machine.execDbgHaltWrite s
  | .threadHalted => Sys2Proof.Machine.execThreadHalted s
  | .dbgdataRead => Sys2Proof.Machine.execDbgdataRead s
  | .dbgdataWrite => Sys2Proof.Machine.execDbgdataWrite s
  | .fqcfgWrite => Sys2Proof.Machine.execFqcfgWrite s
  | .faultRecordPost => Sys2Proof.Machine.execFaultRecordPost s
  | .mextGo => Sys2Proof.Machine.execMextGo s
  | .registerWrite => Sys2Proof.Machine.execRegisterWrite s
  | .cxlMemRead => Sys2Proof.Machine.execCxlMemRead s
  | .cxlMemWrite => Sys2Proof.Machine.execCxlMemWrite s
  | .linkModuleFail => Sys2Proof.Machine.execLinkModuleFail s
  | .flitReceive => Sys2Proof.Machine.execFlitReceive s
  | .remoteRequestReceive => Sys2Proof.Machine.execRemoteRequestReceive s
  | .trainSegmentReceive => Sys2Proof.Machine.execTrainSegmentReceive s
  | .remoteAckReceive => Sys2Proof.Machine.execRemoteAckReceive s
  | .remoteRetryTimeout => Sys2Proof.Machine.execRemoteRetryTimeout s
  | .responseCacheExpire => Sys2Proof.Machine.execResponseCacheExpire s
  | .switchFatalError => Sys2Proof.Machine.execSwitchFatalError s
  | .planeProbeResult => Sys2Proof.Machine.execPlaneProbeResult s
  | .quiesce => Sys2Proof.Machine.execQuiesce s
  | .drained => Sys2Proof.Machine.execDrained s
  | .pmapInstall => Sys2Proof.Machine.execPmapInstall s
  | .release => Sys2Proof.Machine.execRelease s
  | .rehashDrainTimeout => Sys2Proof.Machine.execRehashDrainTimeout s
  | .fmStandbyTakeover => Sys2Proof.Machine.execFmStandbyTakeover s
  | .deviceStart => Sys2Proof.Machine.execDeviceStart s
  | .startTimeout => Sys2Proof.Machine.execStartTimeout s
  | .currentTrip => Sys2Proof.Machine.execCurrentTrip s
  | .thermalThrottle => Sys2Proof.Machine.execThermalThrottle s
  | .thermalShutdown => Sys2Proof.Machine.execThermalShutdown s
  | .getVersion => Sys2Proof.Machine.execGetVersion s
  | .getCapabilities => Sys2Proof.Machine.execGetCapabilities s
  | .negotiateAlgorithms => Sys2Proof.Machine.execNegotiateAlgorithms s
  | .getDigests => Sys2Proof.Machine.execGetDigests s
  | .getCertificate => Sys2Proof.Machine.execGetCertificate s
  | .challenge => Sys2Proof.Machine.execChallenge s
  | .getMeasurements => Sys2Proof.Machine.execGetMeasurements s
  | .mctpControl => Sys2Proof.Machine.execMctpControl s
  | .vendorStatusRead => Sys2Proof.Machine.execVendorStatusRead s
  | .vectorWordComplete => Sys2Proof.Machine.execVectorWordComplete s
  | .illegalInstr => Sys2Proof.Machine.execIllegalInstr s
  | .fetchFault => Sys2Proof.Machine.execFetchFault s
  | .softError => Sys2Proof.Machine.execSoftError s
  | .portUp => Sys2Proof.Machine.execPortUp s
  | .islandClockChange => Sys2Proof.Machine.execIslandClockChange s
  | .cxlCacheSnoop => Sys2Proof.Machine.execCxlCacheSnoop s

end Sys2Proof.Machine
end

