-- ==== Sys2Proof/Machine/Schedule.lean ====
section
/-! DEFINITION. The turns of a step, and the turn taken when the tape holds none (DESIGN CHOICE, log 1): the slot's next role by R205, then another
slot, then the first step of another agent that changes something, then time. A thread's turn fetches, decodes and executes one word;
an event's turn is one step without a word. -/

namespace Sys2Proof.Machine

/-- A step of another agent that may be taken. -/
abbrev Candidate := Instr × EvArg

/-- A step about a thread of a slot. -/
def onThread (i : Instr) (n r : Nat) : Candidate := (i, { EvArg.zero with slot := n, role := r })

/-- A step about a number. -/
def onIndex (i : Instr) (k : Nat) : Candidate := (i, { EvArg.zero with idx := k })

/-- Steps about what of a thread is on its way. -/
def threadSteps (n r : Nat) (t : Thread) : List Candidate :=
  (upFrom 0 t.pnd.stores.length).map (fun i => (.storePerform, { EvArg.zero with slot := n, role := r, idx := i }))
    ++ t.pnd.stores.filterMap (fun p => p.sent.map (fun x => (.remoteAckReceive, { EvArg.zero with slot := n, role := r, num := x.1, idx := x.2 })))
    ++ (if t.pnd.barArrs.isEmpty then [] else [onThread .barriveEffect n r])
    ++ (if t.pnd.groupArrs.isEmpty then [] else [onThread .fenceArrArrival n r])
    ++ (if t.pnd.finishes.isEmpty then [] else [onThread .taskFinish n r])
    ++ (if t.pnd.replay.isEmpty then [] else [onThread .vectorWordComplete n r])
    ++ (if t.pnd.readyAt = 0 then [] else [onThread .yieldWaitEnd n r])
    ++ (if t.pnd.wpollSince.isNone then [] else [onThread .wpollTimeout n r])
    ++ (if t.pnd.susp.isNone then [] else [onThread .suspSectionWrite n r])

/-- The step that performs an entry of an engine queue. -/
def performStep : EngOp → Instr
  | .cpy => .cpyExecute
  | .rgath => .rgathExecute
  | .rscat => .rscatExecute
  | .coll => .collExecute
  | .pfxh => .pfxhExecute
  | .pfxlk => .pfxlkExecute
  | .pfxins => .pfxinsExecute
  | .pfxunpin => .pfxunpinExecute
  | .mma => .mmaExecute
  | .mmamo => .mmamoExecute
  | .zclr => .zclrExecute
  | .zld => .zldExecute
  | .zst => .zstExecute
  | .wbfill => .wbFill
  | .mcommit => .mcommitArrival
  | .marker => .engineEntryComplete

/-- Steps about the head of an engine queue. -/
def queueSteps (n q : Nat) (l : List Entry) : List Candidate :=
  match l with
  | [] => []
  | e :: _ => [(if e.done.isSome then .engineEntryComplete else performStep e.op, { EvArg.zero with slot := n, idx := q })]

/-- Steps about a slot. -/
def slotSteps (n : Nat) (sl : Slot) : List Candidate :=
  sl.ths.flatMap (fun p => threadSteps n p.1 p.2)
    ++ (upFrom 0 5).flatMap (fun q => queueSteps n q (queueOf sl q))
    ++ (if sl.held.isSome && !sl.posted then [onThread .faultRecordPost n 0] else [])
    ++ (if sl.save.isSome then [onThread .preemptSave n 0] else [])
    ++ (if sl.st = .saving && sl.save.isNone then [onThread .slotEnd n 0] else [])
    ++ (if sl.st = .running then [onThread .watchdogExpire n 0] else [])

/-- The lowest free slots that fit a launch. -/
def slotsFor (d : Device) (l : Launch) : List Nat := ((upFrom 0 512).filter (fun n => slotsFit d { l with nslot := 1 } [n])).take l.nslot

/-- The kernels that a chain begun by a launch may name: the launch's own packet and the next 8 of its queue (R286). -/
def windowKernels (d : Device) (l : Launch) : List (Nat × Nat) :=
  match l.packet with
  | none => []
  | some own => (upFrom 0 9).flatMap (fun w => match pullIn l.queue w d with
    | none => []
    | some (win, e) => match ((own :: win)[w]?).bind (SMap.find e.packets) with
      | none => []
      | some pk => (upFrom 0 pk.tcbs.length).map (fun j => (w, j)))

/-- The chains that a launch can begin: the place of its task and the further kernels, the longest first (R286, R287). -/
def chainsOf (d : Device) (p : Nat × Launch) : List (Nat × List (Nat × Nat)) :=
  let ks := windowKernels d p.2
  ((upFrom 0 p.2.tasks.length).zip p.2.tasks).flatMap (fun t =>
    let next := fun (ps : List (Nat × Nat)) => (ks.map (fun k => ps ++ [k])).filter (fun qs => (formChain p.1 t.2 qs [] d).isSome)
    let two := next []
    (two.flatMap next ++ two).map (fun ps => (t.1, ps)))

/-- Steps that place a launch: as the first of a chain where it may be, or alone. -/
def placeSteps (d : Device) (p : Nat × Launch) : List Candidate :=
  (chainsOf d p ++ [(0, [])]).map (fun (c : Nat × List (Nat × Nat)) => (.placeLaunch, { EvArg.zero with
    idx := p.1, nats := slotsFor d p.2, num := c.1, pairs := c.2 }))

/-- Steps of the dispatcher. -/
def dispatcherSteps (d : Device) : List Candidate :=
  (d.queues.filter (fun p => queueOn p.2 && p.2.qrd.toNat < p.2.qnotify.toNat)).map (fun p => onIndex .packetConsume p.1)
    ++ (d.packets.filter (fun p => p.2.phase = 0)).map (fun p =>
      onIndex (if p.2.typ < 2 then .packetStart else if p.2.typ = 2 then .barrierPacketComplete else .signalPacket) p.1)
    ++ (d.launches.filter (fun p => p.2.phase = 0)).map (fun p => onIndex .launchAdmit p.1)
    ++ (d.launches.filter (fun p => p.2.phase = 1)).flatMap (placeSteps d)
    ++ (d.launches.filter (fun p => p.2.dead && !p.2.missed)).map (fun p => onIndex .deadlineMiss p.1)
    ++ d.sysCuts.flatMap (fun p => ((upFrom 0 512).filter (slotFree d)).map (fun n => (.systemCuttingResume, { EvArg.zero with idx := p.1, slot := n })))

/-- Steps of the controllers and the register block. -/
def otherSteps (d : Device) : List Candidate :=
  (if d.tlbiBusy then [onIndex .tlbiAck 0] else []) ++ (if d.boot.mextBusy then [onIndex .mextGo 0] else [])
    ++ d.retire.map (fun p => onIndex (if p.2.st = 0 then .frameRetireStart else if p.2.st = 1 then .copyPassEnd else .retireSwitchDone) p.1)

/-- Every step of another agent that may be taken. -/
def candidates (d : Device) : List Candidate := d.slots.flatMap (fun p => slotSteps p.1 p.2) ++ dispatcherSteps d ++ otherSteps d

/-- The step changes something. -/
def changes (s : State) (c : Candidate) : Bool :=
  let t := { s with dev.arg := c.2 }
  match exec c.1 t with
  | .next u => u != t
  | _ => false

/-- The first step of another agent that changes something. -/
def agentTurn (s : State) : Option Turn := ((candidates (park s)).find? (changes s)).map (fun c => .event c.1 c.2)

/-- The default turn. -/
def defaultTurn (s : State) : Turn :=
  match nextRole s with
  | some r => .thread s.cur.1 r
  | none => match nextSlot s with
    | some (n, r) => .thread n r
    | none => (agentTurn s).getD (.elapse 1000000)

/-! ## The vector sequencer in SHARED (R233) -/

/-- A launch goes before another at the sequencer: DEADLINE before SHARE, then the earlier deadline or the lesser V, then slot A. -/
def outranks (d : Device) (a b : Launch) (first : Bool) : Bool :=
  if a.dead != b.dead then a.dead
  else if a.dead then a.deadline.toNat < b.deadline.toNat || (a.deadline = b.deadline && first)
  else fracLt (shareOf d a.queue) (shareOf d b.queue) || (!fracLt (shareOf d b.queue) (shareOf d a.queue) && first)

/-- The launch of a thread in focus whose next instruction goes through the vector pipes, where it is ready. -/
def wantsPipe (s : State) : Option Launch :=
  if !canRun s || s.thr.pnd.blocked || cycNow s < s.thr.pnd.readyAt then none
  else match fetchWord s with
    | .ok w => if pipeWord w then launchOf s else none
    | .error _ => none

/-- In SHARED lane mode the vector word of the thread in focus must wait for a ready one of the core's other slot. (DESIGN CHOICE, log 93) -/
def sequenced (s : State) : Bool :=
  laneMode s.dev (coreOf s) = 2 && (match wantsPipe { s with thr.pnd.blocked := false } with
    | none => false
    | some l =>
      let m := s.cur.1 / 2 * 2 + (1 - s.cur.1 % 2)
      (upFrom 0 3).any (fun r => match wantsPipe (focus s m r) with | some x => outranks s.dev x l (m % 2 = 0) | none => false))

/-! ## Turns -/

/-- What follows a step that gave a next state. -/
def after (f : State → State) (o : Host.Outcome State Fault Refusal) : Host.Outcome State Fault Refusal :=
  match o with
  | .next t => .next (f t)
  | .fault e => .fault e
  | .refused e => .refused e

/-- The word at the program counter carried out (R61, R248). -/
noncomputable def runWord (s : State) : Host.Outcome State Fault Refusal :=
  match fetchWord s with
  | .error _ => exec .fetchFault s
  | .ok w => match decode w with
    | .ok i => exec i s
    | .error _ => exec .illegalInstr s

/-- A thread's turn. A thread that cannot run takes no step, and a vector word may have to wait for the sequencer. -/
noncomputable def threadTurn (n r : Nat) (s : State) : Host.Outcome State Fault Refusal :=
  if 512 ≤ n || 3 ≤ r then .fault .noSuchThread
  else if sequenced (focus s n r) then .next (waitHere (focus s n r))
  else if canRun (focus s n r) then after wakeMates (runWord (focus s n r))
  else .next (focus s n r)

/-- A turn. -/
noncomputable def doTurn (t : Turn) (s : State) : Host.Outcome State Fault Refusal :=
  match t with
  | .thread n r => threadTurn n r s
  | .event i a => if i.hasWord then .fault .turnIsNoEvent else after (fun t => meetDeadlines (wakeAll t)) (exec i { s with dev.arg := a })
  | .tlbFill n instr va => .next (tlbFillTurn n instr va s)
  | .tlbDrop i => .next (tlbDropTurn i s)
  | .l1dFill c l => .next (l1dFillTurn c l s)
  | .l1dDrop c l => .next (l1dDropTurn c l s)
  | .l1iFill c x l => .next (l1iFillTurn c x l s)
  | .l1iDrop c x l => .next (l1iDropTurn c x l s)
  | .elapse ps => .next (meetDeadlines (wakeAll (elapseTurn ps s)))

end Sys2Proof.Machine
end

