-- ==== Sys2Proof/Machine/Step.lean ====
section
/-! DEFINITION. One step: the next turn of the tape, or the default turn. -/

namespace Sys2Proof.Machine

/-- One step of the machine. -/
noncomputable def step (s : State) : Host.Outcome State Fault Refusal :=
  match s.dev.sched with
  | [] => doTurn (defaultTurn s) s
  | t :: r => doTurn t { s with dev.sched := r }

/-- The state with an instruction stored where the next step fetches, that step being the turn of the thread in focus (DESIGN CHOICE, log 11). -/
def State.withFetchWord (s : State) (nbits w : Nat) : State :=
  let t := placeWord (placedWord nbits w) (placeThread s)
  { t with dev.sched := .thread t.cur.1 t.cur.2 :: t.dev.sched }

end Sys2Proof.Machine
end

