-- ==== Sys2Proof/Safety.lean ====
section
/-! DEFINITION. What claims ask of a state: when the thread in focus runs undisturbed, when an instruction's registers are ones it may
name, what retiring leaves, and what every step keeps. -/

namespace Sys2Proof.Machine

/-- The canonical form of memory: addresses strictly rising and no entry equal to what an unlisted address reads as (DESIGN CHOICE, log 10). -/
abbrev Memory.wf (m : List Host.Cell) : Bool := SMap.wf Config.unlistedByte m

/-- The thread in focus is undisturbed: its slot runs no grafted chain (R289), it is in no `vloop` body (R111), none of its registers
holds a damaged place (R359), it is not single-stepped (R335), and none of its words stands behind a full ring (R205). -/
structure Calm (s : State) : Prop where
  chain : s.slot.chain = none
  idle : s.thr.hid.active = false
  whole : s.thr.hid.damaged = []
  nostep : (dbgOf s).sstep = false
  ahead : queuedAhead s = 0

/-- None of the registers is a port: the slot runs one thread, or the numbers are below 28 (R206, R209). -/
def NoPort (s : State) (l : List Nat) : Prop := isTrio s = false ∨ ∀ r ∈ l, r < 28

/-- A group of registers that a vector word may name (R9) and that holds no ring port (R206). -/
def GroupOk (s : State) (g : Nat × Nat) : Prop := g.1 % g.2 = 0 ∧ g.1 + g.2 ≤ (if isTrio s then 28 else 32)

/-- A group of moment registers that a word may name: in the execute role or a SOLO thread only (R9). -/
def MGroupOk (s : State) (g : Nat × Nat) : Prop := s.cur.2 = 1 ∧ g.1 % g.2 = 0 ∧ g.1 + g.2 ≤ 8

/-- The instruction meets every check of R61 and finds nothing to wait for: its role, VTYPE, format and register rules hold, no
register is a port, and the replay queue has room for a word that uses it (R358). -/
structure Ready (n : Need) (s : State) : Prop where
  role : n.roleOk = true
  vt : n.vt = true → fmtN s ≠ 0
  fmt : n.fmtOk = true
  own : n.regOk = true
  xs : NoPort s (n.xr ++ n.xw)
  vs : ∀ g ∈ n.vr ++ n.vw, 0 < g.2 ∧ GroupOk s g
  ms : ∀ g ∈ n.mr ++ n.mw, MGroupOk s g
  room : n.queued = true → s.thr.pnd.replay.length < 128

/-- The state after the instruction of a word has retired and its thread goes on at an address: one more instruction counted, the
watchdog's count begun again, WSTAT.SKIP cleared unless the instruction itself wrote it (R26, R329, R336). -/
def retired (w : BitVec 32) (npc : Word) (s : State) : State :=
  { s with
    thr.pc := npc
    thr.sr.instret := s.thr.sr.instret + 1
    thr.sr.wstat := if writesWstat w then s.thr.sr.wstat else s.thr.sr.wstat &&& ~~~0x10
    thr.pnd.blocked := false
    thr.pnd.wpollSince := none
    slot.wdog := 0
    slot.lastRole := s.cur.2 }

/-- The part of a state that decides how an instruction ends: which thread it is, its configuration, its loop, its address and the
debug blocks. -/
structure SameCourse (s t : State) : Prop where
  cur : t.cur = s.cur
  cfg : t.slot.cfg = s.slot.cfg
  active : t.thr.hid.active = s.thr.hid.active
  pc : t.thr.pc = s.thr.pc
  dbg : t.dev.dbg = s.dev.dbg

/-! ## Tables that claims about scalar instructions read (R75 to R85) -/

/-- What an integer instruction of majors 0x01, 0x02 and 0x04 to 0x0C writes: the register and its new value (R75 to R81). -/
def scalarResult (s : State) : Instr → Option (BitVec 5 × Word)
  | .add d a b => some (d, xr s a + xr s b)
  | .sub d a b => some (d, xr s a - xr s b)
  | .and d a b => some (d, xr s a &&& xr s b)
  | .or d a b => some (d, xr s a ||| xr s b)
  | .xor d a b => some (d, xr s a ^^^ xr s b)
  | .sll d a b => some (d, xr s a <<< ((xr s b).toNat % 64))
  | .srl d a b => some (d, xr s a >>> ((xr s b).toNat % 64))
  | .sra d a b => some (d, (xr s a).sshiftRight ((xr s b).toNat % 64))
  | .slt d a b => some (d, if (xr s a).toInt < (xr s b).toInt then 1 else 0)
  | .sltu d a b => some (d, if (xr s a).toNat < (xr s b).toNat then 1 else 0)
  | .min d a b => some (d, BitVec.ofInt 64 (min (xr s a).toInt (xr s b).toInt))
  | .max d a b => some (d, BitVec.ofInt 64 (max (xr s a).toInt (xr s b).toInt))
  | .minu d a b => some (d, BitVec.ofNat 64 (min (xr s a).toNat (xr s b).toNat))
  | .maxu d a b => some (d, BitVec.ofNat 64 (max (xr s a).toNat (xr s b).toNat))
  | .clz d a => some (d, w64 (clz64 (xr s a)))
  | .ctz d a => some (d, w64 (ctzBits (xr s a).toNat 64))
  | .popc d a => some (d, w64 (popBits (xr s a).toNat 64))
  | .sextb d a => some (d, ((xr s a).setWidth 8).signExtend 64)
  | .sexth d a => some (d, ((xr s a).setWidth 16).signExtend 64)
  | .sextw d a => some (d, ((xr s a).setWidth 32).signExtend 64)
  | .mul d a b => some (d, xr s a * xr s b)
  | .mulhs d a b => some (d, BitVec.ofInt 64 ((xr s a).toInt * (xr s b).toInt / 2 ^ 64))
  | .mulhu d a b => some (d, BitVec.ofNat 64 ((xr s a).toNat * (xr s b).toNat / 2 ^ 64))
  | .mulhx d a b => some (d, BitVec.ofInt 64 ((xr s a).toInt * ((xr s b).toNat : Int) / 2 ^ 64))
  | .div d a b => some (d,
      if xr s b = 0 then (if (xr s a).toInt < 0 then BitVec.intMin 64 else BitVec.intMax 64)
      else if (xr s a).toInt = -2 ^ 63 ∧ (xr s b).toInt = -1 then BitVec.intMax 64
      else BitVec.ofInt 64 ((xr s a).toInt.tdiv (xr s b).toInt))
  | .divu d a b => some (d, if xr s b = 0 then BitVec.allOnes 64 else BitVec.ofNat 64 ((xr s a).toNat / (xr s b).toNat))
  | .rem d a b => some (d, if xr s b = 0 then xr s a else BitVec.ofInt 64 ((xr s a).toInt.tmod (xr s b).toInt))
  | .remu d a b => some (d, if xr s b = 0 then xr s a else BitVec.ofNat 64 ((xr s a).toNat % (xr s b).toNat))
  | .addi d a i => some (d, xr s a + i.signExtend 64)
  | .andi d a i => some (d, xr s a &&& i.setWidth 64)
  | .ori d a i => some (d, xr s a ||| i.setWidth 64)
  | .xori d a i => some (d, xr s a ^^^ i.setWidth 64)
  | .slti d a i => some (d, if (xr s a).toInt < i.toInt then 1 else 0)
  | .sltiu d a i => some (d, if (xr s a).toNat < (i.signExtend 64).toNat then 1 else 0)
  | .lim d c i => some (d, (xr s d &&& ~~~((0xFFFF : Word) <<< (16 * c.toNat))) ||| (i.setWidth 64 <<< (16 * c.toNat)))
  | .pcadd d i => some (d, s.thr.pc + i.signExtend 64 * 4)
  | .slli d a sh => some (d, xr s a <<< sh.toNat)
  | .srli d a sh => some (d, xr s a >>> sh.toNat)
  | .srai d a sh => some (d, (xr s a).sshiftRight sh.toNat)
  | .rori d a sh => some (d, (xr s a >>> sh.toNat) ||| (xr s a <<< ((64 - sh.toNat) % 64)))
  | _ => none

/-- The x registers an instruction of that table names. -/
def scalarRegs : Instr → List (BitVec 5)
  | .add d a b | .sub d a b | .and d a b | .or d a b | .xor d a b | .sll d a b | .srl d a b | .sra d a b | .slt d a b | .sltu d a b
  | .min d a b | .max d a b | .minu d a b | .maxu d a b | .mul d a b | .mulhs d a b | .mulhu d a b | .mulhx d a b | .div d a b
  | .divu d a b | .rem d a b | .remu d a b => [d, a, b]
  | .clz d a | .ctz d a | .popc d a | .sextb d a | .sexth d a | .sextw d a => [d, a]
  | .addi d a _ | .andi d a _ | .ori d a _ | .xori d a _ | .slti d a _ | .sltiu d a _ => [d, a]
  | .slli d a _ | .srli d a _ | .srai d a _ | .rori d a _ => [d, a]
  | .lim d _ _ | .pcadd d _ => [d]
  | _ => []

/-- A result rounded once to the format of a scalar FMT field, with the flags of the operation and of the rounding (R42, R83). -/
def scalarRounded (s : State) (f : BitVec 2) (r : FV × Nat) : Word × Nat :=
  let c := roundTo (sfmt f) (rmN s) false (ftzN s) r.1
  (w64 c.1, r.2 ||| c.2)

/-- What a scalar float instruction computes (R83 to R85): the register it writes, the value and the flags it raises. -/
def scalarFloat (s : State) : Instr → Option (BitVec 5 × Word × Nat)
  | .fadd d a b f => some (d, scalarRounded s f (fvAdd (rmN s) (sfOperand s f a) (sfOperand s f b)))
  | .fsub d a b f => some (d, scalarRounded s f (fvAdd (rmN s) (sfOperand s f a) (sfOperand s f b).negate))
  | .fmul d a b f => some (d, scalarRounded s f (fvMul (sfOperand s f a) (sfOperand s f b)))
  | .fdiv d a b f => some (d, scalarRounded s f (fvDiv (sfOperand s f a) (sfOperand s f b)))
  | .fmad d a b f => some (d, scalarRounded s f (fvFma (rmN s) (sfOperand s f d) (sfOperand s f a) (sfOperand s f b)))
  | .fsqrt d a f => some (d, scalarRounded s f (fvSqrt (sfOperand s f a)))
  | .feq d a b f => let r := fvCompare 0 (sfOperand s f a) (sfOperand s f b); some (d, boolWord r.1, r.2)
  | .flt d a b f => let r := fvCompare 2 (sfOperand s f a) (sfOperand s f b); some (d, boolWord r.1, r.2)
  | .fle d a b f => let r := fvCompare 3 (sfOperand s f a) (sfOperand s f b); some (d, boolWord r.1, r.2)
  | .funo d a b f => some (d, boolWord ((sfOperand s f a).isNan || (sfOperand s f b).isNan), sigNV [sfOperand s f a, sfOperand s f b])
  | .ftoi d a f => let r := floatToInt (rmN s) (-(2 ^ 63)) (2 ^ 63 - 1) (sfOperand s f a); some (d, BitVec.ofInt 64 r.1, r.2)
  | .ftou d a f => let r := floatToInt (rmN s) 0 (2 ^ 64 - 1) (sfOperand s f a); some (d, BitVec.ofInt 64 r.1, r.2)
  | .itof d a f => some (d, scalarRounded s f (intVal (xr s a).toInt, 0))
  | .utof d a f => some (d, scalarRounded s f (intVal (xr s a).toNat, 0))
  | .fcvs d a f => some (d, scalarRounded s 0 (sfOperand s f a, sigNV [sfOperand s f a]))
  | .fcvh d a f => some (d, scalarRounded s 1 (sfOperand s f a, sigNV [sfOperand s f a]))
  | .fcvb d a f => some (d, scalarRounded s 2 (sfOperand s f a, sigNV [sfOperand s f a]))
  | _ => none

/-- The x registers an instruction of that table names. -/
def scalarFloatRegs : Instr → List (BitVec 5)
  | .fadd d a b _ | .fsub d a b _ | .fmul d a b _ | .fdiv d a b _ | .fmad d a b _ | .feq d a b _ | .flt d a b _ | .fle d a b _
  | .funo d a b _ => [d, a, b]
  | .fsqrt d a _ | .ftoi d a _ | .ftou d a _ | .itof d a _ | .utof d a _ | .fcvs d a _ | .fcvh d a _ | .fcvb d a _ => [d, a]
  | _ => []

/-- When a compare-branch is taken, and its offset (R87). -/
def branchTaken (s : State) : Instr → Option (Bool × BitVec 16)
  | .beq a b o => some (decide (xr s a = xr s b), o)
  | .bne a b o => some (decide (xr s a ≠ xr s b), o)
  | .blt a b o => some (decide ((xr s a).toInt < (xr s b).toInt), o)
  | .bge a b o => some (decide ((xr s b).toInt ≤ (xr s a).toInt), o)
  | .bltu a b o => some (decide ((xr s a).toNat < (xr s b).toNat), o)
  | .bgeu a b o => some (decide ((xr s b).toNat ≤ (xr s a).toNat), o)
  | _ => none

/-- The x registers a branch names. -/
def branchRegs : Instr → List (BitVec 5)
  | .beq a b _ | .bne a b _ | .blt a b _ | .bge a b _ | .bltu a b _ | .bgeu a b _ => [a, b]
  | _ => []

/-! ## Tables that claims about loads, stores and atomics read (R90, R258, R259) -/

/-- A scalar load: xD, xA, class, offset, bytes, and whether the value is sign-extended (R90). -/
def loadForm : Instr → Option (BitVec 5 × BitVec 5 × BitVec 4 × BitVec 12 × Nat × Bool)
  | .ldb d a c o => some (d, a, c, o, 1, true)
  | .ldbu d a c o => some (d, a, c, o, 1, false)
  | .ldh d a c o => some (d, a, c, o, 2, true)
  | .ldhu d a c o => some (d, a, c, o, 2, false)
  | .ldw d a c o => some (d, a, c, o, 4, true)
  | .ldwu d a c o => some (d, a, c, o, 4, false)
  | .ldd d a c o => some (d, a, c, o, 8, false)
  | _ => none

/-- A scalar store: xD, xA, class, offset and bytes (R90). -/
def storeForm : Instr → Option (BitVec 5 × BitVec 5 × BitVec 4 × BitVec 12 × Nat)
  | .stb d a c o => some (d, a, c, o, 1)
  | .sth d a c o => some (d, a, c, o, 2)
  | .stw d a c o => some (d, a, c, o, 4)
  | .std d a c o => some (d, a, c, o, 8)
  | _ => none

/-- An atomic: xD, xA, scope, class, bytes, the registers it reads, the value stored for an old value (none where no store is made),
and xD's value of the old one (R258, R259). -/
structure AtomicForm where
  d : BitVec 5
  a : BitVec 5
  sc : BitVec 3
  c : BitVec 4
  n : Nat
  reads : List (BitVec 5)
  new : Nat → Option Nat
  ext : Nat → Word

/-- The low w bits of a number in two's complement. -/
def signedLow (w n : Nat) : Int := (BitVec.ofNat w n).toInt

/-- The atomic of an instruction. -/
def atomicForm (s : State) : Instr → Option AtomicForm
  | .aadd d a b sc c w => some (int d a b sc c w [a, b] (fun n old x => some ((old + x) % 2 ^ n)))
  | .amin d a b sc c w => some (int d a b sc c w [a, b] (fun n old x => some (if signedLow n old ≤ signedLow n x then old else x)))
  | .amax d a b sc c w => some (int d a b sc c w [a, b] (fun n old x => some (if signedLow n old ≤ signedLow n x then x else old)))
  | .aand d a b sc c w => some (int d a b sc c w [a, b] (fun _ old x => some (old &&& x)))
  | .aor d a b sc c w => some (int d a b sc c w [a, b] (fun _ old x => some (old ||| x)))
  | .axor d a b sc c w => some (int d a b sc c w [a, b] (fun _ old x => some (old ^^^ x)))
  | .aswap d a b sc c w => some (int d a b sc c w [a, b] (fun _ _ x => some x))
  | .acas d a b sc c w => some (int d a b sc c w [d, a, b] (fun n old x => if old = (xr s d).toNat % 2 ^ n then some x else none))
  | .afadd d a b sc c f =>
    let n := if f = 0 then 4 else 2
    some ⟨d, a, sc, c, n, [a, b], fun old => some (homeAdd (if f = 0 then 9 else 10) old ((xr s b).toNat % 2 ^ (8 * n))), w64⟩
  | _ => none
where
  /-- An integer atomic: W chooses 64 or 32 bits, and an old value of 32 bits is sign-extended. -/
  int (d a b : BitVec 5) (sc : BitVec 3) (c : BitVec 4) (w : BitVec 1) (reads : List (BitVec 5)) (f : Nat → Nat → Nat → Option Nat) : AtomicForm :=
    let n := if w = 0 then 8 else 4
    ⟨d, a, sc, c, n, reads, fun old => f (8 * n) old ((xr s b).toNat % 2 ^ (8 * n)),
      fun v => if w = 0 then w64 v else (BitVec.ofNat 32 v).signExtend 64⟩

/-! ## What claims about vector words ask (R24, R98, R113 to R127) -/

/-- What a vector word captures when it issues (R358). -/
def captured (w : BitVec 32) (s : State) : Replay :=
  ⟨w, s.thr.sr.vl, s.thr.sr.vtype, s.thr.sr.fpctl, s.thr.sr.mctl, s.thr.sr.mrho, s.thr.hid.exm, SMap.get false s.dev.chk s.cur.1,
    s.thr.sr.taskid⟩

/-- The word behind the earlier ones in the replay queue (R358). -/
def capture (w : BitVec 32) (s : State) : State := { s with thr.pnd.replay := s.thr.pnd.replay ++ [captured w s] }

/-- Nothing of the machine differs but vector registers and their UNITS tags, FPFLAGS by the flags raised, VSTART, which is 0, the share
charge of the word, and its place in the replay queue (R24, R46, R233, R345, R358). -/
def OnlyVectors (w : BitVec 32) (fl : Nat) (s t : State) : Prop :=
  t = { chargeWord (ewN s) s with
    thr.v := t.thr.v
    thr.hid.units := t.thr.hid.units
    thr.sr.vstart := 0
    thr.sr.fpflags := s.thr.sr.fpflags ||| w64 (fl % 32)
    thr.pnd.replay := s.thr.pnd.replay ++ [captured w s] }

/-- The elements that a group of g registers holds (R97). -/
def groupLen (s : State) (ew g : Nat) : Nat := perReg (vmN s) ew * g

/-- Element i is written by the word: at or above VSTART, below vl, and active (R24, R98). -/
abbrev written (s : State) (k : BitVec 3) (i : Nat) : Prop := vsN s ≤ i ∧ i < vlN s ∧ activeAt s k.toNat i = true

/-- The thread is undisturbed, VLMAX fits the registers, and the replay queue has room for one more word (R97, R358). -/
structure VectorOk (s : State) : Prop where
  calm : Calm s
  vmax : vmN s ≤ 16384
  room : s.thr.pnd.replay.length < 128

/-- An elementwise word: its destination group, element width and mask, the groups and x registers it reads, whether it accepts the
format in force and its own register rules hold, and the code and flags of element i (R113 to R126). -/
structure VecForm where
  d : BitVec 5
  g : Nat
  ew : Nat
  k : BitVec 3
  vr : List (Nat × Nat)
  xs : List (BitVec 5)
  ok : Bool
  own : Bool
  val : Nat → Nat × Nat

/-- The flags that the elements a word writes raise (R46). -/
def raised (s : State) (F : VecForm) : Nat :=
  (upFrom (vsN s) (vlN s - vsN s)).foldl (fun m i => if activeAt s F.k.toNat i then m ||| (F.val i).2 else m) 0

/-- The scalar or vector operand B of an elementwise word (R114): element i. -/
def operandB (s : State) (x : BitVec 1) (b : BitVec 5) (i : Nat) : Nat :=
  if x = 1 then (xr s b).toNat % 2 ^ ewN s else elemV s b.toNat (ewN s) i

/-- A word whose destination is a group of the factor and width in force; A is a group, and B a group or, with X set, an x register
(R113, R114). -/
def plainForm (s : State) (ok : Bool) (d : BitVec 5) (k : BitVec 3) (srcs : List (BitVec 5)) (xs : List (BitVec 5)) (val : Nat → Nat × Nat) :
    VecForm :=
  { d := d, g := grpN s, ew := ewN s, k := k, vr := srcs.map (fun r => (r.toNat, grpN s)), xs := xs, ok := ok, own := true, val := val }

/-- An elementwise integer word (R117) from its result on the integer readings of A, B and D. -/
def intForm (s : State) (x : BitVec 1) (d a b : BitVec 5) (k : BitVec 3) (f : Int → Int → Int → Int) : VecForm :=
  plainForm s (intOk s) d k (if x = 1 then [a] else [a, b]) (if x = 1 then [b] else []) (fun i =>
    (ofSigned (ewN s) (f (intElem (fmtN s) (elemV s a.toNat (ewN s) i)) (intElem (fmtN s) (operandB s x b i))
      (intElem (fmtN s) (elemV s d.toNat (ewN s) i))), 0))

/-- An elementwise word that works on codes (R117, R118). -/
def codeForm (s : State) (ok : Bool) (x : BitVec 1) (d a b : BitVec 5) (k : BitVec 3) (f : Nat → Nat → Nat) : VecForm :=
  plainForm s ok d k (if x = 1 then [a] else [a, b]) (if x = 1 then [b] else []) (fun i =>
    (f (elemV s a.toNat (ewN s) i) (operandB s x b i), 0))

/-- An elementwise float word (R118): exact, rounded once to the format under FPCTL. -/
def floatForm (s : State) (x : BitVec 1) (d a b : BitVec 5) (k : BitVec 3) (f : FV → FV → FV → FV × Nat) : VecForm :=
  let v := fun c => foperand (fmtN s) (ftzN s) c
  plainForm s (floatOk s) d k (if x = 1 then [a] else [a, b]) (if x = 1 then [b] else []) (fun i =>
    let r := f (v (elemV s a.toNat (ewN s) i)) (v (operandB s x b i)) (v (elemV s d.toNat (ewN s) i))
    let c := roundTo (fmtN s) (rmN s) false (ftzN s) r.1
    (c.1, r.2 ||| c.2))

/-- A transcendental (R123): a function of the operand's code, under FTZ. -/
def transForm (s : State) (d a : BitVec 5) (k : BitVec 3) (f : TFun) : VecForm :=
  plainForm s (floatOk s) d k [a] [] (fun i => transcend f (fmtN s) (ftzN s) (elemV s a.toNat (ewN s) i))

/-- The elementwise words of majors 0x30 to 0x33 and 0x37, and those of 0x35 that write elements in place. -/
def vecForm (s : State) : Instr → Option VecForm
  | .vadd x d a b k _ => some (intForm s x d a b k (fun a b _ => a + b))
  | .vsub x d a b k _ => some (intForm s x d a b k (fun a b _ => a - b))
  | .vsubr x d a b k _ => some (intForm s x d a b k (fun a b _ => b - a))
  | .vmul x d a b k _ => some (intForm s x d a b k (fun a b _ => a * b))
  | .vmulhi x d a b k _ => some (intForm s x d a b k (fun a b _ => a * b / 2 ^ ewN s))
  | .vdiv x d a b k _ => some (intForm s x d a b k (fun a b _ =>
      if b = 0 then (if 0 ≤ a then (intRange (fmtN s)).2 else (intRange (fmtN s)).1)
      else max (intRange (fmtN s)).1 (min (intRange (fmtN s)).2 (a.tdiv b))))
  | .vrem x d a b k _ => some (intForm s x d a b k (fun a b _ => if b = 0 then a else a.tmod b))
  | .vmin x d a b k _ => some (intForm s x d a b k (fun a b _ => min a b))
  | .vmax x d a b k _ => some (intForm s x d a b k (fun a b _ => max a b))
  | .vand x d a b k _ => some (codeForm s (intOk s) x d a b k (fun a b => a &&& b))
  | .vor x d a b k _ => some (codeForm s (intOk s) x d a b k (fun a b => a ||| b))
  | .vxor x d a b k _ => some (codeForm s (intOk s) x d a b k (fun a b => a ^^^ b))
  | .vshl x d a b k _ => some (codeForm s (intOk s) x d a b k (fun a b => (a * 2 ^ (b % ewN s)) % 2 ^ ewN s))
  | .vshr x d a b k _ => some (codeForm s (intOk s) x d a b k (fun a b => ofSigned (ewN s) (intElem (fmtN s) a / 2 ^ (b % ewN s))))
  | .vaddsat x d a b k _ => some (intForm s x d a b k (fun a b _ => max (intRange (fmtN s)).1 (min (intRange (fmtN s)).2 (a + b))))
  | .vsubsat x d a b k _ => some (intForm s x d a b k (fun a b _ => max (intRange (fmtN s)).1 (min (intRange (fmtN s)).2 (a - b))))
  | .vmad x d a b k _ => some (intForm s x d a b k (fun a b d => d + a * b))
  | .vcopy x d b k _ => some { codeForm s (intOk s) x d b b k (fun _ b => b) with vr := if x = 1 then [] else [(b.toNat, grpN s)] }
  | .vfadd x d a b k _ => some (floatForm s x d a b k (fun a b _ => fvAdd (rmN s) a b))
  | .vfsub x d a b k _ => some (floatForm s x d a b k (fun a b _ => fvAdd (rmN s) a b.negate))
  | .vfsubr x d a b k _ => some (floatForm s x d a b k (fun a b _ => fvAdd (rmN s) b a.negate))
  | .vfmul x d a b k _ => some (floatForm s x d a b k (fun a b _ => fvMul a b))
  | .vfdiv x d a b k _ => some (floatForm s x d a b k (fun a b _ => fvDiv a b))
  | .vfmin x d a b k _ => some (floatForm s x d a b k (fun a b _ => fvMinMax false a b))
  | .vfmax x d a b k _ => some (floatForm s x d a b k (fun a b _ => fvMinMax true a b))
  | .vfmad x d a b k _ => some (floatForm s x d a b k (fun a b d => fvFma (rmN s) d a b))
  | .vfmsb x d a b k _ => some (floatForm s x d a b k (fun a b d => fvFma (rmN s) d a.negate b))
  | .vfsqrt d a k _ => some { floatForm s 0 d a a k (fun a _ _ => fvSqrt a) with vr := [(a.toNat, grpN s)] }
  | .vfabs d a k _ => some { codeForm s (floatOk s) 0 d a a k (fun a _ => a % 2 ^ (ewN s - 1)) with vr := [(a.toNat, grpN s)] }
  | .vfneg d a k _ => some { codeForm s (floatOk s) 0 d a a k (fun a _ => a ^^^ 2 ^ (ewN s - 1)) with vr := [(a.toNat, grpN s)] }
  | .vfcsgn x d a b k _ => some (codeForm s (floatOk s) x d a b k
      (fun a b => a % 2 ^ (ewN s - 1) + b / 2 ^ (ewN s - 1) * 2 ^ (ewN s - 1)))
  | .vfcopy x d b k _ => some { codeForm s (floatOk s) x d b b k (fun _ b => b) with vr := if x = 1 then [] else [(b.toNat, grpN s)] }
  | .vfexp2 d a k _ => some (transForm s d a k .exp2)
  | .vflog2 d a k _ => some (transForm s d a k .log2)
  | .vfrecip d a k _ => some (transForm s d a k .recip)
  | .vfrsqrt d a k _ => some (transForm s d a k .rsqrt)
  | .vftanh d a k _ => some (transForm s d a k .tanh)
  | .vfsig d a k _ => some (transForm s d a k .sig)
  | .vsel d a b k _ => some (plainForm s true d 0 [a, b] [] (fun i =>
      (elemV s (if k = 0 ∨ (rk s k.toNat).toNat.testBit i = true then a else b).toNat (ewN s) i, 0)))
  | .vindex d k _ => some (plainForm s (fmtInt (fmtN s)) d k [] [] (fun i => (i % 2 ^ ewN s, 0)))
  | .vshup d a b k _ => some { plainForm s true d k [a] [b] (fun i =>
      (if (xr s b).toNat ≤ i then elemV s a.toNat (ewN s) (i - (xr s b).toNat) else 0, 0)) with own := apart s d a }
  | .vshdn d a b k _ => some { plainForm s true d k [a] [b] (fun i =>
      (if i + (xr s b).toNat < vlN s then elemV s a.toNat (ewN s) (i + (xr s b).toNat) else 0, 0)) with own := apart s d a }
  | .vperm d a b k _ => some { plainForm s true d k [a, b] [] (fun i =>
      (elemV s a.toNat (ewN s) (elemV s b.toNat (ewN s) i % vlN s), 0)) with own := apart s d a && apart s d b }
  | .vcvt d a k _ f =>
    let g := convFactor (grpN s) (fmtEw f.toNat) (ewN s)
    let sc := if vtBlk s.thr.sr.vtype = 0 then [] else [(a.toNat + grpN s, 1)]
    some { d := d, g := g, ew := fmtEw f.toNat, k := k, vr := (a.toNat, grpN s) :: sc, xs := [], ok := f ≠ 19 ∧ g ≤ 8
           own := convRegs s (d.toNat, g) (a.toNat, grpN s) [] sc, val := convTo s f.toNat a }
  | .vcvtsr d a b k _ f =>
    let g := convFactor (grpN s) (fmtEw (srFormat f.toNat)) (ewN s)
    let gr := convFactor (grpN s) 16 (ewN s)
    some { d := d, g := g, ew := fmtEw (srFormat f.toNat), k := k, vr := [(a.toNat, grpN s), (b.toNat, gr)], xs := [], ok := floatOk s
           own := convRegs s (d.toNat, g) (a.toNat, grpN s) [(b.toNat, gr)] []
           val := fun i =>
             let v := convSource s a i
             let r := roundStoch (srFormat f.toNat) (vtSat s.thr.sr.vtype) (ftzN s) (elemV s b.toNat 16 i) v
             (r.1, r.2 ||| sigNV [v]) }
  | _ => none
where
  /-- Two groups of the factor in force share no register. -/
  apart (s : State) (a b : BitVec 5) : Bool := a.toNat + grpN s ≤ b.toNat || b.toNat + grpN s ≤ a.toNat

/-- What an elementwise word asks of a state that carries it out: a legal VTYPE, its format, its own register rules, groups and x
registers that it may name, and a vl that fits its destination, as every grant of R97 and the factor of R124 leave it. -/
structure VecReady (s : State) (F : VecForm) : Prop where
  ok : VectorOk s
  legal : fmtN s ≠ 0
  fmt : F.ok = true
  own : F.own = true
  factor : 0 < F.g
  fits : vlN s ≤ groupLen s F.ew F.g
  dst : GroupOk s (F.d.toNat, F.g)
  srcs : ∀ g ∈ F.vr, 0 < g.2 ∧ GroupOk s g
  xs : NoPort s (F.xs.map BitVec.toNat)

/-! ## What claims about mask words, reductions and words with an x result ask (R98, R119 to R122) -/

/-- A word that writes a mask register: its number, the groups, x and mask registers it reads, its format, and for each index below
vl the bit and flags it computes, or none where the bit stays (R98, R119, R121). -/
structure MaskForm where
  d : BitVec 3
  vr : List (BitVec 5)
  xs : List (BitVec 5)
  ok : Bool
  val : Nat → Option (Bool × Nat)

/-- A mask result by the class of its index (R98): computed where active, as it was where masked off, 0 from VLVALID on. -/
def byClass (s : State) (k : BitVec 3) (f : Nat → Bool × Nat) (i : Nat) : Option (Bool × Nat) :=
  if i < vvN s then (if maskBit s k.toNat i = true then some (f i) else none) else some (false, 0)

/-- A compare of elements: of the integers the codes stand for, or of the float values under FTZ, where an unordered pair makes only
≠ true (R119). -/
def compareForm (s : State) (d : BitVec 3) (a b : BitVec 5) (k : BitVec 3) (x : BitVec 1) (pi : Int → Int → Bool) (pf : Nat) : MaskForm :=
  { d := d, vr := if x = 1 then [a] else [a, b], xs := if x = 1 then [b] else [], ok := cmpOk s
    val := byClass s k (fun i =>
      let ca := elemV s a.toNat (ewN s) i
      let cb := operandB s x b i
      if fmtInt (fmtN s) then (pi (intElem (fmtN s) ca) (intElem (fmtN s) cb), 0)
      else fvCompare pf (foperand (fmtN s) (ftzN s) ca) (foperand (fmtN s) (ftzN s) cb)) }

/-- A mask-logic word (R119). -/
def logicForm (s : State) (d : BitVec 3) (f : Nat → Bool) : MaskForm :=
  { d := d, vr := [], xs := [], ok := true, val := byClass s 0 (fun i => (f i, 0)) }

/-- The words that write mask registers. -/
def maskForm (s : State) : Instr → Option MaskForm
  | .vcmpeq d a b k _ x => some (compareForm s d a b k x (fun a b => decide (a = b)) 0)
  | .vcmpne d a b k _ x => some (compareForm s d a b k x (fun a b => decide (a ≠ b)) 1)
  | .vcmplt d a b k _ x => some (compareForm s d a b k x (fun a b => decide (a < b)) 2)
  | .vcmple d a b k _ x => some (compareForm s d a b k x (fun a b => decide (a ≤ b)) 3)
  | .vcmpgt d a b k _ x => some (compareForm s d a b k x (fun a b => decide (b < a)) 4)
  | .vcmpge d a b k _ x => some (compareForm s d a b k x (fun a b => decide (b ≤ a)) 5)
  | .kboth d a b _ => some (logicForm s d (fun i => (rk s a.toNat).toNat.testBit i && (rk s b.toNat).toNat.testBit i))
  | .keither d a b _ => some (logicForm s d (fun i => (rk s a.toNat).toNat.testBit i || (rk s b.toNat).toNat.testBit i))
  | .kdiffer d a b _ => some (logicForm s d (fun i => xor ((rk s a.toNat).toNat.testBit i) ((rk s b.toNat).toNat.testBit i)))
  | .kbut d a b _ => some (logicForm s d (fun i => (rk s a.toNat).toNat.testBit i && !(rk s b.toNat).toNat.testBit i))
  | .kflip d a _ => some (logicForm s d (fun i => !(rk s a.toNat).toNat.testBit i))
  | .kfill d _ => some (logicForm s d (fun _ => true))
  | .vuniq d a k _ => some {
      d := d, vr := [a], xs := [], ok := fmtInt (fmtN s)
      val := fun i => some (activeAt s k.toNat i &&
        (upFrom 0 i).all (fun j => !(activeAt s k.toNat j && decide (elemV s a.toNat (ewN s) j = elemV s a.toNat (ewN s) i))), 0) }
  | _ => none

/-- What a word that writes a mask register asks of a state that carries it out. -/
structure MaskReady (s : State) (F : MaskForm) : Prop where
  ok : VectorOk s
  legal : fmtN s ≠ 0
  fmt : F.ok = true
  fits : vlN s ≤ 32768
  srcs : ∀ r ∈ F.vr, GroupOk s (r.toNat, grpN s)
  xs : NoPort s (F.xs.map BitVec.toNat)

/-- Nothing of the machine differs but mask registers and their UNITS tags, FPFLAGS by the flags raised, VSTART, which is 0, the share
charge of the word, and its place in the replay queue. -/
def OnlyMasks (w : BitVec 32) (fl : Nat) (s t : State) : Prop :=
  t = { chargeWord (ewN s) s with
    thr.k := t.thr.k
    thr.hid.units := t.thr.hid.units
    thr.sr.vstart := 0
    thr.sr.fpflags := s.thr.sr.fpflags ||| w64 (fl % 32)
    thr.pnd.replay := s.thr.pnd.replay ++ [captured w s] }

/-- A reduction: destination field and whether it is an x register, source group, format rule, and the result with its width and flags
(R49, R122). -/
structure RedForm where
  d : BitVec 5
  t : BitVec 1
  a : BitVec 5
  ok : Bool
  ew : Nat
  val : Word
  fl : Nat

/-- A reduction of integers to a word (R122). -/
def intRed (s : State) (d a : BitVec 5) (k : BitVec 3) (t : BitVec 1) (f : List Int → Word) : RedForm :=
  { d := d, t := t, a := a, ok := intOk s, ew := ewN s, val := f ((activeCodes s a k).map (intElem (fmtN s))), fl := 0 }

/-- A reduction of floats in a format along the tree of R49, with -0 where no element is active. -/
def floatRed (s : State) (d a : BitVec 5) (k : BitVec 3) (t : BitVec 1) (ok : Bool) (fmt : Nat) (widen : Nat → Nat) (f : FV → FV → FV × Nat) : RedForm :=
  let r := treeSum (fun x y =>
    let z := f (foperand fmt (ftzN s) x) (foperand fmt (ftzN s) y)
    let c := roundTo fmt (rmN s) false (ftzN s) z.1
    (c.1, z.2 ||| c.2)) 13 ((treeLeaves s a k).map (Option.map widen))
  { d := d, t := t, a := a, ok := ok, ew := fmtEw fmt, val := w64 (r.1.getD (signBit (ffmt fmt))), fl := r.2 }

/-- The reductions of major 0x36. -/
def redForm (s : State) : Instr → Option RedForm
  | .vredsum d a k _ t => some (intRed s d a k t (fun l => BitVec.ofInt 64 l.sum))
  | .vredmin d a k _ t => some (intRed s d a k t (fun l => extendInt (fmtN s) (l.foldl min (intRange (fmtN s)).2)))
  | .vredmax d a k _ t => some (intRed s d a k t (fun l => extendInt (fmtN s) (l.foldl max (intRange (fmtN s)).1)))
  | .vredand d a k _ t => some (intRed s d a k t (bitReduction (· &&& ·) (fun ew => 2 ^ ew - 1) (fmtN s)))
  | .vredor d a k _ t => some (intRed s d a k t (bitReduction (· ||| ·) (fun _ => 0) (fmtN s)))
  | .vredxor d a k _ t => some (intRed s d a k t (bitReduction (· ^^^ ·) (fun _ => 0) (fmtN s)))
  | .vfredsum d a k _ t => some (floatRed s d a k t (floatOk s) (fmtN s) id (fvAdd (rmN s)))
  | .vfredsumw d a k _ t => some (floatRed s d a k t (decide (fmtN s = 10 ∨ fmtN s = 11) && noBlk s) 9 (widenHalf s) (fvAdd (rmN s)))
  | .vfredmin d a k _ t => some (floatRed s d a k t (floatOk s) (fmtN s) id (fvMinMax false))
  | .vfredmax d a k _ t => some (floatRed s d a k t (floatOk s) (fmtN s) id (fvMinMax true))
  | _ => none

/-- A word that writes xD from masks or one element: destination, groups and x registers read, and the value, or none where the element
lies below VSTART (R119, R120; DEDUCED, log 86). -/
structure XForm where
  d : BitVec 5
  vr : List (BitVec 5)
  xs : List (BitVec 5)
  val : Option Word

/-- The words `kcount`, `klowest` and `vget`. -/
def xForm (s : State) : Instr → Option XForm
  | .kcount d a k _ => some ⟨d, [], [], some (w64 ((upFrom (vsN s) (vvN s - vsN s)).countP (fun i => activeAt s k.toNat i && (rk s a.toNat).toNat.testBit i)))⟩
  | .klowest d a k _ => some ⟨d, [], [],
      some (match (upFrom (vsN s) (vvN s - vsN s)).find? (fun i => activeAt s k.toNat i && (rk s a.toNat).toNat.testBit i) with
        | some i => w64 i
        | none => BitVec.allOnes 64)⟩
  | .vget d a b _ =>
    let i := (xr s b).toNat
    some ⟨d, [a], [b],
      if vsN s ≠ 0 ∧ (vlN s ≤ vsN s ∨ i < vsN s) then none
      else some (if vlN s ≤ i then 0 else if fmtSigned (fmtN s) then BitVec.ofInt 64 (intElem (fmtN s) (elemV s a.toNat (ewN s) i))
        else w64 (elemV s a.toNat (ewN s) i))⟩
  | _ => none

/-- A word that places elements: destination group, groups and x registers read, its register rule, and the code placed at each
position, if any (R120). -/
structure PlaceForm where
  d : BitVec 5
  vr : List (BitVec 5)
  xs : List (BitVec 5)
  own : Bool
  val : Nat → Option Nat

/-- The words `vput` and `vpack`. -/
def placeForm (s : State) : Instr → Option PlaceForm
  | .vput d a b _ => some ⟨d, [], [a, b], true, fun j =>
      if j = (xr s b).toNat ∧ vsN s ≤ j ∧ activeAt s 0 j = true then some ((xr s a).toNat % 2 ^ ewN s) else none⟩
  | .vpack d a k _ => some ⟨d, [a], [], vecForm.apart s d a, fun j =>
      if vsN s ≤ j then (((upFrom 0 (vvN s)).filter (fun i => activeAt s k.toNat i)).map (fun i => elemV s a.toNat (ewN s) i))[j]? else none⟩
  | _ => none

/-! ## What claims about vector loads and stores ask (R98, R101 to R110) -/

/-- A vector memory word: its register group and mask, its class, its own role, format, register and address-register rules, what else
it reads, which indices are elements, the bit address of each, the block length and the address of each block's scale byte, and the
stream register it steps. -/
structure MemWord where
  d : BitVec 5
  k : BitVec 3
  cls : BitVec 4
  role : Bool
  ok : Bool
  own : Bool
  unit : Bool
  vr : List (Nat × Nat)
  xs : List (BitVec 5)
  isElem : Nat → Bool
  bitAt : Nat → Int
  blk : Nat
  scaleAt : Nat → Nat
  stream : Option (BitVec 3)

/-- What the unit-stride, strided, indexed, block and stream patterns share. -/
def memWord (s : State) (d : BitVec 5) (k : BitVec 3) (c : BitVec 4) (role : Bool) (xs : List (BitVec 5)) (bitAt : Nat → Int) : MemWord :=
  { d := d, k := k, cls := c, role := role, ok := true, own := true, unit := true, vr := [], xs := xs
    isElem := fun i => decide (i < vvN s), bitAt := bitAt, blk := 0, scaleAt := fun _ => 0, stream := none }

/-- Unit stride: x[A], and for elements below 8 bits the bit that x[B] names (R103). -/
def unitWord (s : State) (d a b : BitVec 5) (k : BitVec 3) (c : BitVec 4) (role : Bool) : MemWord :=
  { memWord s d k c role [a, b] (fun i => 8 * ((xr s a).toNat : Int) + (xr s b).toNat + i * ewN s) with
    unit := if 8 ≤ ewN s then decide (xr s b = 0) else decide ((xr s b).toNat ≤ 7) }

/-- A stride of x[B] bytes (R103). -/
def strideWord (s : State) (d a b : BitVec 5) (k : BitVec 3) (c : BitVec 4) (role : Bool) : MemWord :=
  { memWord s d k c role [a, b] (fun i => 8 * ((xr s a).toNat + i * (xr s b).toInt)) with ok := decide (8 ≤ ewN s) }

/-- The elements of group B as indices (R103). -/
def indexWord (s : State) (d a b : BitVec 5) (k : BitVec 3) (c : BitVec 4) (role : Bool) : MemWord :=
  { memWord s d k c role [a] (fun i => 8 * (((xr s a).toNat + elemV s b.toNat (ewN s) i * (ewN s / 8) : Nat) : Int)) with
    ok := decide (8 ≤ ewN s), vr := [(b.toNat, grpN s)] }

/-- Blocks with their scale bytes at x[B] (R106, R107). -/
def blockWord (s : State) (d a b : BitVec 5) (k : BitVec 3) (c : BitVec 4) (role : Bool) : MemWord :=
  { memWord s d k c role [a, b] (fun i => 8 * ((xr s a).toNat : Int) + i * ewN s) with
    ok := decide (vtBlk s.thr.sr.vtype ≠ 0), own := companionOk s d.toNat, blk := vtBlk s.thr.sr.vtype
    scaleAt := fun q => wrap ((xr s b).toNat + q) }

/-- A strip of a stream register that is bound to no graft binding (R108, R110). -/
def streamWord (s : State) (d : BitVec 5) (n k : BitVec 3) (c : BitVec 4) (role : Bool) (flag : Nat) : MemWord :=
  let st := streamOf s n.toNat
  let ds := st.desc.toNat
  { memWord s d k c role [] (fun i => dBit ds (st.t + i)) with
    ok := !st.loaded || (decide (dFmt ds = fmtN s) && decide (dBlk ds = vtBlk s.thr.sr.vtype))
    own := st.loaded && (dFlags ds).testBit flag && (decide (vtBlk s.thr.sr.vtype = 0) || companionOk s d.toNat)
    isElem := fun i => decide (i < vvN s) && decide (st.t + i < dCount ds)
    blk := vtBlk s.thr.sr.vtype
    scaleAt := fun q => dScale ds (st.t + q * vtBlk s.thr.sr.vtype)
    stream := some n }

/-- The role may issue vector loads: SOLO, and in TRIO load and execute (R204). -/
def loadRole (s : State) : Bool := decide (isTrio s = false ∨ s.cur.2 ≠ 2)

/-- The role may issue vector stores: SOLO, and in TRIO execute and store (R204). -/
def storeRole (s : State) : Bool := decide (isTrio s = false ∨ s.cur.2 ≠ 0)

/-- The vector loads. -/
def vecLoad (s : State) : Instr → Option MemWord
  | .vld d a b k c => some (unitWord s d a b k c (loadRole s))
  | .vlds d a b k c => some (strideWord s d a b k c (loadRole s))
  | .vldx d a b k c => some (indexWord s d a b k c (loadRole s))
  | .vldmx d a b k c => some (blockWord s d a b k c (loadRole s))
  | .vsld d n k c => some (streamWord s d n k c (loadRole s) 0)
  | _ => none

/-- The vector stores. -/
def vecStore (s : State) : Instr → Option MemWord
  | .vst d a b k c => some (unitWord s d a b k c (storeRole s))
  | .vsts d a b k c => some (strideWord s d a b k c (storeRole s))
  | .vstx d a b k c => some (indexWord s d a b k c (storeRole s))
  | .vstmx d a b k c => some (blockWord s d a b k c (storeRole s))
  | .vsst d n k c => some (streamWord s d n k c (storeRole s) 1)
  | _ => none

/-- The index is accessed: from VSTART up, below vl, an element, and selected by the mask (R98, R110). -/
def accesses (s : State) (F : MemWord) (j : Nat) : Bool :=
  decide (vsN s ≤ j) && decide (j < vlN s) && F.isElem j && maskBit s F.k.toNat j

/-- The alignment that an element's address needs (R104). -/
def elemAlign (s : State) : Nat := if ewN s < 8 then 1 else ewN s / 8

/-- What a vector memory word asks of a state that carries it out (R9, R61, R97, R102 to R110, R204). -/
structure MemReady (s : State) (F : MemWord) : Prop where
  ok : VectorOk s
  legal : fmtN s ≠ 0
  role : F.role = true
  fmt : F.ok = true
  own : F.own = true
  unit : F.unit = true
  fits : vlN s ≤ groupLen s (ewN s) (grpN s)
  blocks : F.blk ≠ 0 → vlN s ≤ F.blk * perReg (vmN s) 8
  dst : GroupOk s (F.d.toNat, grpN s)
  srcs : ∀ g ∈ F.vr, 0 < g.2 ∧ GroupOk s g
  xs : NoPort s (F.xs.map BitVec.toNat)

/-- The registers that a stream register's step leaves (R110). -/
def streamsAfter (s : State) (F : MemWord) : SMap Stream :=
  match F.stream with
  | none => s.thr.s
  | some n =>
    let st := streamOf s n.toNat
    SMap.set Stream.empty s.thr.s n.toNat { st with t := min (st.t + vvN s) (dCount st.desc.toNat) }

/-- The rank of a cause that an access raises (R317): those of R91, then WATCHPOINT, then DATA_LOSS. -/
def causeRank (c : Nat) : Nat := if c = 0x19 then 1 else if c = 0x30 then 2 else 0

/-- What the two accesses of one index raise, its element's and at the first access of a block the scale byte's: the one that ranks
first, and of equal rank the element's (R104, R107, R317). -/
def firstOf (a b : Got) : Option (Nat × Nat × Option Nat × Nat) :=
  match a, b with
  | .trap c v v2 h, .trap c' v' v2' h' => some (if causeRank c ≤ causeRank c' then (c, v, v2, h) else (c', v', v2', h'))
  | .trap c v v2 h, _ => some (c, v, v2, h)
  | .ok _ _, .trap c v v2 h => some (c, v, v2, h)
  | _, _ => none

/-- What the accesses of index e raise: `load` gives what one access of so many bytes with an alignment comes to (R104, R107). -/
def indexTrap (s : State) (F : MemWord) (load : Nat → Nat → Nat → Got) (e : Nat) : Option (Nat × Nat × Option Nat × Nat) :=
  let b := bitSpan (F.bitAt e) (ewN s)
  let own := if 8 ≤ ewN s ∧ b.2.2 ≠ 0 then .trap 0x0C b.1 none 0 else load (elemAlign s) b.1 b.2.1
  if F.blk ≠ 0 ∧ blockFirst s F.k.toNat F.blk e = e then firstOf own (load 1 (F.scaleAt (e / F.blk)) 1) else firstOf own (.wait none)

/-- The index that TVAL2 names when index e of a memory word traps: in a translated kernel a stream word names the stream's element
(R104, R192). -/
def trapIndex (s : State) (F : MemWord) (e : Nat) : Nat :=
  match F.stream with
  | some n => if isTranslated s then (streamOf s n.toNat).t + e else e
  | none => e

/-- The checks of an access as the outcome of a load of nothing. -/
def asGot (c : Chk) : Got :=
  match c with
  | .ok locs => .ok [] locs
  | .trap c v h => .trap c v none h

/-- The bytes of an element at its locations: of a value shifted to its first bit, those bits that the element covers (R35). -/
def spanBytes (locs : List Loc) (mask v : Nat) : List (Nat × Byte × Byte) :=
  (locs.zip (upFrom 0 locs.length)).map (fun p => (p.1.key, BitVec.ofNat 8 (bits mask (8 * p.2) 8), BitVec.ofNat 8 (bits v (8 * p.2) 8)))

/-- The store of index j of a vector store, and behind the first access of a block that of its scale byte. They carry one serial number,
so nothing orders them (R105, R107). -/
def elemStores (s : State) (F : MemWord) (locs sl : Nat → List Loc) (j : Nat) : List PStore :=
  let b := bitSpan (F.bitAt j) (ewN s)
  let q := j / F.blk
  ⟨s.dev.ser + 1, F.cls.toNat, 0, 0, 0,
    spanBytes (locs j) ((2 ^ ewN s - 1) * 2 ^ b.2.2) (elemV s F.d.toNat (ewN s) j % 2 ^ ewN s * 2 ^ b.2.2), s.thr.sr.taskid, b.1, none⟩ ::
  (if F.blk ≠ 0 ∧ blockFirst s F.k.toNat F.blk j = j then
    [⟨s.dev.ser + 1, F.cls.toNat, 0, 0, 0, spanBytes (sl q) 0xFF (elemV s (F.d.toNat + grpN s) 8 q), s.thr.sr.taskid, F.scaleAt q, none⟩] else [])

/-- The stores of the indices below e that a vector store accesses, in order. -/
def vecStores (s : State) (F : MemWord) (locs sl : Nat → List Loc) (e : Nat) : List PStore :=
  ((upFrom (vsN s) (e - vsN s)).filter (accesses s F)).flatMap (elemStores s F locs sl)

/-- A scatter-add: the group of its elements, its base and index registers, mask and class (R112). -/
def scatForm : Instr → Option (BitVec 5 × BitVec 5 × BitVec 5 × BitVec 3 × BitVec 4)
  | .vscataddDev d a b k c => some (d, a, b, k, c)
  | .vscataddHost d a b k c => some (d, a, b, k, c)
  | .vscataddSys d a b k c => some (d, a, b, k, c)
  | _ => none

/-! ## What claims about moment words ask (R147 to R162) -/

/-- A word over pairs: destination and source moment groups, vector groups and x registers read, mask, and the result of pair i (R148,
R153 to R159). -/
structure MomentForm where
  d : BitVec 3
  k : BitVec 3
  mr : List (BitVec 3)
  vr : List (BitVec 5)
  xs : List (BitVec 5)
  val : Nat → MoOut

/-- The words over pairs: those of two moment groups by the rules of R155, `mosc` and `mosc.x`, those of one group by R156 to R158,
`mofrom` and `momv`. -/
def momentForm (s : State) : Instr → Option MomentForm
  | .moadd d a b k _ => some (two d a b k (addRule false))
  | .mosub d a b k _ => some (two d a b k (addRule true))
  | .momul d a b k _ => some (two d a b k mulRule)
  | .mofma d a b k _ => some ⟨d, k, [a, b, d], [], [], fun i =>
      withRho s (fmaRule (ftzN s) (negFault s) (rho s).1 (pairAt s a i) (pairAt s b i) (pairAt s d i))⟩
  | .mosc d a b k _ => some ⟨d, k, [a], [b], [], fun i => scaleRule (ftzN s) (negFault s) (elemV s b.toNat 32 i) (pairAt s a i)⟩
  | .moscX d a b k _ => some ⟨d, k, [a], [], [b], fun i => scaleRule (ftzN s) (negFault s) ((xr s b).toNat % 2 ^ 32) (pairAt s a i)⟩
  | .moexp d a k _ => some (one d a k expRule)
  | .morelu d a k _ => some (one d a k reluRule)
  | .mosig d a k _ => some (one d a k sigRule)
  | .motanh d a k _ => some (one d a k tanhRule)
  | .mofrom d a b k _ => some ⟨d, k, [], [a, b], [], fun i =>
      intoPair (negFault s) (flush32 (ftzN s) (elemV s a.toNat 32 i)) (flush32 (ftzN s) (elemV s b.toNat 32 i))⟩
  | .momv d a k _ => some ⟨d, k, [a], [], [], fun i => ⟨(pairAt s a i).1, (pairAt s a i).2, 0, 0, none⟩⟩
  | _ => none
where
  /-- Two groups and the correlation of MCTL. -/
  two (d a b k : BitVec 3) (f : Bool → Bool → Nat → Nat × Nat → Nat × Nat → MoOut) : MomentForm :=
    ⟨d, k, [a, b], [], [], fun i => withRho s (f (ftzN s) (negFault s) (rho s).1 (pairAt s a i) (pairAt s b i))⟩
  /-- One group. -/
  one (d a k : BitVec 3) (f : Bool → Bool → Nat × Nat → MoOut) : MomentForm :=
    ⟨d, k, [a], [], [], fun i => f (ftzN s) (negFault s) (pairAt s a i)⟩

/-- The pairs that a group of the factor in force holds (R97, R147). -/
def pairsLen (s : State) : Nat := vmN s / 32 * grpN s

/-- What a moment word asks of a state that carries it out: the execute role or SOLO, FP32 without blocks, groups and x registers that
it may name, and a vl that fits (R9, R97, R148). -/
structure MomentReady (s : State) (ms : List (BitVec 3)) (vs : List (BitVec 5)) (xs : List (BitVec 5)) : Prop where
  ok : VectorOk s
  execute : s.cur.2 = 1
  single : fmtN s = 9
  noBlocks : vtBlk s.thr.sr.vtype = 0
  fits : vlN s ≤ pairsLen s
  pairs : ∀ r ∈ ms, MGroupOk s (r.toNat, grpN s)
  groups : ∀ r ∈ vs, GroupOk s (r.toNat, grpN s)
  noPorts : NoPort s (xs.map BitVec.toNat)

/-- The flags or MFLAGS bits that the elements written below e raise. -/
def gathered (s : State) (k : BitVec 3) (e : Nat) (f : Nat → Nat) : Nat :=
  (upFrom (vsN s) (e - vsN s)).foldl (fun m i => if activeAt s k.toNat i then m ||| f i else m) 0

/-- A word that collapses pairs to FP32 elements (R160): destination, mask, source group, vector groups and x registers read, its own
register rule, and the code and flags of element i. -/
structure CollapseForm where
  d : BitVec 5
  k : BitVec 3
  a : BitVec 3
  vr : List (BitVec 5)
  xs : List (BitVec 5)
  own : Bool
  val : Nat → Nat × Nat

/-- The collapsing words. -/
def collapseForm (s : State) : Instr → Option CollapseForm
  | .mocolMean d a k _ => some ⟨d, k, a, [], [], true, fun i => ((pairAt s a i).1, 0)⟩
  | .mocolVar d a k _ => some ⟨d, k, a, [], [], true, fun i => ((pairAt s a i).2, 0)⟩
  | .mocolStd d a k _ => some ⟨d, k, a, [], [], true, fun i =>
      let p := pairAt s a i
      if pairNan p then (nan32, sig32 [p.1, p.2]) else sigma (ftzN s) (p.2, 0)⟩
  | .mocolUpper d a b k _ => some ⟨d, k, a, [], [b], true, fun i => spread (ftzN s) false (pairAt s a i) ((xr s b).toNat % 2 ^ 32)⟩
  | .mocolLower d a b k _ => some ⟨d, k, a, [], [b], true, fun i => spread (ftzN s) true (pairAt s a i) ((xr s b).toNat % 2 ^ 32)⟩
  | .mocolSample d a b k _ => some ⟨d, k, a, [b], [], b = d || vecForm.apart s b d, fun i => spread (ftzN s) false (pairAt s a i) (elemV s b.toNat 32 i)⟩
  | _ => none

/-! ## What claims about commands, barriers and tasks ask (R13, R136 to R143, R227, R266 to R283, R305) -/

/-- A word of MXQ that only enters its queue: x registers read, vector and moment groups read, its own format and register rules, the
address rule it has beside them, and the entry it makes with whether that counts in OUT (R136 to R138, R142, R143). -/
structure MatrixForm where
  xs : List (BitVec 5)
  vr : List (BitVec 5)
  mr : List (BitVec 3)
  ok : Bool
  own : Bool
  reach : Bool
  waits : Bool
  e : Entry
  counts : Bool

/-- The words `mma`, `mmamo`, `zclr`, `zld`, `zst` and `mcommit`. -/
def matrixForm (s : State) : Instr → Option MatrixForm
  | .mma z a w k => some {
      xs := [], vr := [a], mr := [], counts := false, reach := true, waits := engineWaits s none
      ok := decide (mxClass (fmtN s) ≠ 0 ∧ vtBlk s.thr.sr.vtype = 0 ∧ vlN s ≤ perReg (vmN s) (ewN s))
      own := tileOk s z.toNat && (wbOf s w.toNat).issued
      e := { operands s .mma z w k with
        block := (SMap.get 0 s.thr.cb (vtCb s.thr.sr.vtype)).setWidth 1024
        rows := (upFrom a.toNat (grpN s)).map (fun r => (rv s r).setWidth 32768) } }
  | .mmamo z a w k => some {
      xs := [], vr := [], mr := [a], counts := false, reach := true, waits := engineWaits s none
      ok := decide (mxClass (fmtN s) ≠ 0 ∧ fmtInt (fmtN s) = false ∧ fmtN s ≠ 19 ∧ vtBlk s.thr.sr.vtype = 0 ∧ vlN s ≤ vmN s / 32)
      own := decide (z.toNat % 2 = 0) && tileOk s (z.toNat + 1) && (wbOf s w.toNat).issued
      e := { operands s .mmamo z w k with rows := (upFrom a.toNat (grpN s)).map (fun r => rm s r) } }
  | .zclr z => some {
      xs := [], vr := [], mr := [], ok := true, own := tileOk s z.toNat, counts := false, reach := true, waits := engineWaits s none
      e := { newEntry s .zclr 3 with z := z.toNat } }
  | .zld z a c => some (tile s .zld z a c)
  | .zst z a c => some (tile s .zst z a c)
  | .mcommit a => some {
      xs := [a], vr := [], mr := [], ok := true, own := true, counts := true
      reach := decide ((xr s a).toNat % 16 = 0 ∧ scrBase ≤ (xr s a).toNat ∧ (xr s a).toNat < scrBase + scru s * 65536)
      waits := engineWaits s (some ((xr s a).toNat - scrBase))
      e := { newEntry s .mcommit 3 with bar := (xr s a).toNat - scrBase } }
  | _ => none
where
  /-- What a multiply captures. -/
  operands (s : State) (op : EngOp) (z : BitVec 4) (w : BitVec 2) (k : BitVec 7) : Entry :=
    { newEntry s op 3 with z := z.toNat, wb := w.toNat, koff := k.toNat, fmt := fmtN s, vl := vlN s, vlvalid := vvN s, ftz := ftzN s }
  /-- A tile load or store. -/
  tile (s : State) (op : EngOp) (z : BitVec 4) (a : BitVec 5) (c : BitVec 4) : MatrixForm :=
    { xs := [a], vr := [], mr := [], ok := true, own := tileOk s z.toNat, counts := false
      reach := decide ((xr s a).toNat % (32 * colsN s) = 0 ∧ (xr s a).toNat < 2 ^ 52)
      waits := engineWaits s none || s.thr.pnd.stores.any (fun p => c = 15 || p.cls = 15)
      e := { newEntry s op 3 with z := z.toNat, block := (xr s a).setWidth 1024, cls := c.toNat } }

/-- A command of OP 0, 1, 2 or 4 to 7 of major 0x3B but `coll`: what it does, its queue, the bytes of its block, NR, the x registers of
the block and the barrier, the rules of its block and its alignment checks (R267 to R271, R305). -/
structure CommandForm where
  op : EngOp
  q : Nat
  len : Nat
  nr : BitVec 1
  a : BitVec 5
  b : BitVec 5
  legal : Nat → Bool
  aligned : Nat → List (Nat × Bool)

/-- Those commands. -/
def commandForm : Instr → Option CommandForm
  | .cpy a b n => some ⟨.cpy, 0, 128, n, a, b, copyLegal, copyAligned⟩
  | .rgath a b n => some ⟨.rgath, 1, 64, n, a, b, gatherLegal false, gatherAligned⟩
  | .rscat a b n => some ⟨.rscat, 1, 64, n, a, b, gatherLegal true, gatherAligned⟩
  | .pfxh a b n => some ⟨.pfxh, 4, 64, n, a, b, pfxhLegal, pfxAligned⟩
  | .pfxlk a b n => some ⟨.pfxlk, 4, 64, n, a, b, pfxlkLegal, pfxAligned⟩
  | .pfxins a b n => some ⟨.pfxins, 4, 64, n, a, b, pfxinsLegal, pfxAligned⟩
  | .pfxunpin a b n => some ⟨.pfxunpin, 4, 64, n, a, b, pfxunpinLegal, pfxAligned⟩
  | _ => none

/-- Element (r, c) of a tile after a multiply, with its flags: the chunks of K accumulated over the weights of the slot's block, the A
value of row r and each weight's factor multiplied, and to a chunk's sum what soft errors add there (R50, R51, R136, R137, R144). -/
def accumAt (u : State) (e : Entry) (z : Nat) (aval : Nat → Nat → FV) (f : FV → FV) (us : List Upset) (r c : Nat) : Nat × Nat :=
  let b := blockOf (wbOf u e.wb)
  let depth := mxDepth e.fmt (wFmt b.d)
  chunksFrom e.ftz depth e.vl e.vlvalid (fun k => (weightsAt e.ftz b (e.koff * depth + k) c).map (fun w => (aval r k, f w))) (hurtOf us r c)
    (ceilDiv e.vl depth) 0 (tileElem (colsN u) (tileOf u z).toNat r c, 0)

/-- Elements t to t + m - 1 of a copy, one after the other: the places they read and the bytes they write (R270). -/
def copySpan (e : Entry) : Nat → Nat → State → Eng (List Nat × List (Nat × Byte × Byte))
  | 0, _, s => .ok ([], []) s
  | m + 1, t, s => (copyStep e t s).bind (fun x s => (copySpan e m (t + 1) s).bind (fun y s => .ok (x.1 ++ y.1, x.2 ++ y.2) s))

/-- The states that lead from one to another through the members of a list, each by a relation of its own. -/
def Through {α : Type} (R : Nat → α → State → State → Prop) : Nat → List α → State → State → Prop
  | _, [], s, t => t = s
  | i, x :: l, s, t => ∃ u, R i x s u ∧ Through R (i + 1) l u t

/-- A barrier whose fields fit their places (R278). -/
def BarFits (b : Bar) : Prop :=
  b.pend < 2 ^ 16 ∧ b.init < 2 ^ 16 ∧ b.held ≤ 31 ∧ b.eng < 2 ^ 8 ∧ b.cause < 2 ^ 8 ∧ b.origin < 2 ^ 16 ∧ b.seq < 2 ^ 24

/-! ## What claims about lengths and strips ask (R95 to R100, R108 to R111) -/

/-- The longest grant of a format and factor at a VLMAX (R97). -/
def longestVl (vlmax fmt g : Nat) : Nat := if fmtEw fmt = 0 then 0 else vlmax / fmtEw fmt * g

/-- The length that R97 grants for an avl: whole blocks where a block length is asked, and a non-final strip of 4-bit or 6-bit elements
ends on a whole byte. -/
def grantedVl (vlmax fmt g b avl : Nat) : Nat :=
  let most := longestVl vlmax fmt g
  let vl := if b = 0 then min avl most else min ((avl + b - 1) / b * b) (most / b * b)
  if vl < avl ∧ fmtEw fmt = 4 then vl / 2 * 2 else if vl < avl ∧ fmtEw fmt = 6 then vl / 4 * 4 else vl

/-- The grant of a legal VTYPE for an avl, field by field: VLMAX anew, VL, VTYPE and VLVALID set, and nothing else of the thread but the
register contents that R17 and R18 zero. The first grant zeroes the vector, mask and moment registers, and in the execute role or a SOLO
thread the tiles; a rise of VLMAX zeroes what of a register lies at or beyond the old one. -/
structure Granted (s : State) (req : BitVec 16) (avl : Nat) (u : State) : Prop where
  frame : u = { s with
    thr.sr.vl := u.thr.sr.vl, thr.sr.vtype := req, thr.sr.vlvalid := u.thr.sr.vlvalid, thr.sr.vlmax := w64 (slotVlmax s.dev s.cur.1 s.slot.part.toNat)
    thr.v := u.thr.v, thr.k := u.thr.k, thr.m := u.thr.m, thr.hid.units := u.thr.hid.units, slot.z := u.slot.z, slot.zdirty := u.slot.zdirty }
  vl : vlN u = grantedVl (vmN u) (vtFmt req) (vtGrp req) (vtBlk req) avl
  valid : vvN u = min avl (vlN u)
  first : fmtN s = 0 → (∀ r, SMap.get 0 u.thr.v r = 0 ∧ SMap.get 0 u.thr.k r = 0 ∧ SMap.get 0 u.thr.m r = 0) ∧
    (s.cur.2 = 1 → (∀ r, SMap.get 0 u.slot.z r = 0) ∧ u.slot.zdirty = 0)
  tiles : fmtN s ≠ 0 ∨ s.cur.2 ≠ 1 → u.slot.z = s.slot.z ∧ u.slot.zdirty = s.slot.zdirty
  later : fmtN s ≠ 0 → vmN u ≤ vmN s → u.thr.v = s.thr.v ∧ u.thr.k = s.thr.k ∧ u.thr.m = s.thr.m ∧ u.thr.hid.units = s.thr.hid.units
  risen : fmtN s ≠ 0 → vmN s < vmN u →
    (SMap.rising s.thr.v = true → ∀ r, (SMap.get 0 u.thr.v r).toNat = (SMap.get 0 s.thr.v r).toNat % 2 ^ vmN s) ∧
    (SMap.rising s.thr.k = true → ∀ r, (SMap.get 0 u.thr.k r).toNat = (SMap.get 0 s.thr.k r).toNat % 2 ^ (2 * vmN s)) ∧
    (SMap.rising s.thr.m = true → ∀ r, (SMap.get 0 u.thr.m r).toNat = (SMap.get 0 s.thr.m r).toNat % 2 ^ (2 * vmN s))

/-- The VTYPE of a `vloop` pass: the one in force with the format and block length of the stream's descriptor (R111). -/
structure LoopType (t : BitVec 16) (d : Nat) (r : BitVec 16) : Prop where
  fmt : vtFmt r = dFmt d % 32
  blk : vtBlk r = if dBlk d = 16 then 16 else if dBlk d = 32 then 32 else 0
  grp : vtGrp r = vtGrp t
  cb : vtCb r = vtCb t
  sat : vtSat r = vtSat t

/-- A legal descriptor of a stream register (R109). -/
def streamLegal (d : Nat) : Prop :=
  1 ≤ dFmt d ∧ dFmt d ≤ 19 ∧ (dBlk d = 0 ∨ ((dBlk d = 16 ∨ dBlk d = 32) ∧ blkFmt (dFmt d) = true)) ∧ 1 ≤ dNdim d ∧ dNdim d ≤ 6 ∧ (dFlags d).testBit 7 = false

/-! ## What every step keeps -/

/-- The memory keeps its canonical form (DESIGN CHOICE, log 10), and the thread in focus is one that the package has: one of three roles of one of
512 slots (R2, R3). -/
structure Inv (s : State) : Prop where
  mem : Memory.wf s.dev.mem = true
  slot : s.cur.1 < 512
  role : s.cur.2 < 3

/-! ## What claims about ports ask (R206 to R209) -/

/-- The x registers an instruction of the integer table reads (`scalarResult`): `lim` reads its own destination. -/
def scalarReads : Instr → List (BitVec 5)
  | .add _ a b | .sub _ a b | .and _ a b | .or _ a b | .xor _ a b | .sll _ a b | .srl _ a b | .sra _ a b | .slt _ a b | .sltu _ a b
  | .min _ a b | .max _ a b | .minu _ a b | .maxu _ a b | .mul _ a b | .mulhs _ a b | .mulhu _ a b | .mulhx _ a b | .div _ a b
  | .divu _ a b | .rem _ a b | .remu _ a b => [a, b]
  | .clz _ a | .ctz _ a | .popc _ a | .sextb _ a | .sexth _ a | .sextw _ a => [a]
  | .addi _ a _ | .andi _ a _ | .ori _ a _ | .xori _ a _ | .slti _ a _ | .sltiu _ a _ => [a]
  | .slli _ a _ | .srli _ a _ | .srai _ a _ | .rori _ a _ => [a]
  | .lim d _ _ => [d]
  | _ => []

/-- A register number is the port p of a TRIO slot. -/
def isPort (n : BitVec 5) (p : Nat) : Prop := n.toNat = 28 + p

/-- The ring slot at the head of port p, when it is committed. -/
def headSlot (s : State) (p : Nat) : Option RingSlot :=
  match ring s p with
  | [] => none
  | r :: _ => if r.committed then some r else none

end Sys2Proof.Machine
end

