-- ==== Sys2Proof/Certificates/Slice0/Obligations.lean ====
section
/-! DEFINITION. The statements for the provers. -/

open Sys2Proof Sys2Proof.Machine

/-- R54, R55, R57: decoding reads back what an instruction's word is built from, for every well-formed instruction that has a word and
every operand. -/
def Obligations.RoundTrip : Prop :=
 ∀ i : Instr, i.hasWord = true → i.wf = true → decode (encode i) = .ok i

/-- R59: every bit of a word counts. A word that decodes is the word of the instruction it decodes to, and of no other well-formed one;
a word that is turned away is the word of none; and the four bytes at the front of a list say the same as their word (R54). -/
def Obligations.EveryBitCounts : Prop :=
  ∀ w : BitVec 32,
    (match decode w with
     | .ok i => i.hasWord = true ∧ i.wf = true ∧ encode i = w ∧ ∀ j : Instr, j.hasWord = true → j.wf = true → encode j = w → j = i
     | .error _ => ∀ j : Instr, j.hasWord = true → j.wf = true → encode j ≠ w) ∧
    ∀ rest, decodeBytes (bytesOfWord w ++ rest) = (decode w).map (fun i => (i, rest))

/-- Words that the spec writes out decode to the instructions it gives them for: the worked encodings of the encoding, vector, matrix and
moment chapters. The words of unassigned majors are turned away (R58). -/
def Obligations.WorkedEncodings : Prop :=
  decode 0x10A6FFFF = .ok (.addi 5 6 0xFFFF) ∧ decode 0x58E20FF8 = .ok (.ldd 7 2 0 0xFF8) ∧ decode 0x58E2FFF8 = .ok (.ldd 7 2 15 0xFF8) ∧
  decode 0x84A0FFFD = .ok (.bne 5 0 0xFFFD) ∧ decode 0xF9200004 = .ok (.mfs 9 4) ∧ decode 0xF8001002 = .ok (.mts 0 2) ∧
  decode 0x30A60203 = .ok (.srai 5 6 3) ∧ decode 0x9C000010 = .ok (.call 16) ∧ decode 0xA0000002 = .ok .ret ∧ decode 0xF8005000 = .ok .yield ∧
  decode 0xF800F000 = .ok .nop ∧ decode 0xE0908300 = .ok (.mma 2 8 1 3) ∧ decode 0xE0000008 = .ok (.zclr 0) ∧
  decode 0xB0072001 = .ok (.cbld 7 0 1) ∧ decode 0xAC020004 = .ok (.vloop 2 4) ∧
  decode 0xE4400800 = .ok (.mofma 2 0 1 0 0) ∧ decode 0xE4611102 = .ok (.mocolStd 3 1 1 0) ∧ decode 0xE4042810 = .ok (.moscX 0 4 5 0 0) ∧
  decode 0xE4820013 = .ok (.mocolMean 4 2 0 0) ∧ decode 0xE42A181C = .ok (.mold 1 10 1 0 0) ∧
  ∀ w : BitVec 32, (w.toNat / 2 ^ 26 = 0x00 ∨ w.toNat / 2 ^ 26 = 0x0D ∨ w.toNat / 2 ^ 26 = 0x0E ∨ w.toNat / 2 ^ 26 = 0x0F ∨
    w.toNat / 2 ^ 26 = 0x17 ∨ w.toNat / 2 ^ 26 = 0x1F ∨ w.toNat / 2 ^ 26 = 0x2F ∨ w.toNat / 2 ^ 26 = 0x3F) → decode w = .error .reservedMajor

/-- A step runs the decoded instruction: at a turn of a thread that can run, whose word at the PC decodes, the step is that instruction's
effect on the machine with the thread in focus, after which the slot's other waiting roles may try again. A failed fetch and a word that
decodes to nothing trap (R58, R59, R248), a word of a banned major in a `vloop` body ending the loop (R111), once the words before it in
the vector queue have completed (R23). A thread that cannot run takes no step, and a vector word that the shared sequencer gives to the
other slot waits (R233). An event's turn is the event's effect with its operands in place, and then the deadlines that have passed. The
default turn is the same with no tape. A program's word placed from outside runs at the next step (log 11): after any word that decodes is
placed at reset, the step runs exactly its instruction, on a thread that starts at address 0. Choices and readings of the model's own that
it rests on: log 1, 82. -/
def Obligations.StepRunsInstruction : Prop :=
  (
  ∀ (s : State) (n r : Nat) (rest : List Turn), n < 512 → r < 3 →
    (s.dev.sched = .thread n r :: rest →
      let t := focus { s with dev.sched := rest } n r
      (sequenced t = true → step s = .next { t with thr.pnd.blocked := true }) ∧ (laneMode t.dev (n / 2) ≠ 2 → sequenced t = false) ∧
      (canRun t = true → sequenced t = false → ∀ w i, fetchWord t = .ok w → decode w = .ok i → step s = after wakeMates (exec i t)) ∧
      (canRun t = true → sequenced t = false → ∀ w e, fetchWord t = .ok w → decode w = .error e →
        step s = .next (wakeMates (inOrder t (takeTrap w 0x01 t.thr.pc (w.setWidth 64) 0
          (if inBody t && bodyBans w then { t with thr.hid.active := false } else t))))) ∧
      (canRun t = true → ∀ c, fetchWord t = .error c → step s = .next (wakeMates (inOrder t (takeTrap 0 c t.thr.pc t.thr.pc 0 t)))) ∧
      (canRun t = false → step s = .next t)) ∧
    (∀ i a, s.dev.sched = .event i a :: rest → i.hasWord = false →
      step s = after (fun t => meetDeadlines (wakeAll t)) (exec i { s with dev.sched := rest, dev.arg := a })) ∧
    (s.dev.sched = [] → defaultTurn s = .thread n r → step s = step { s with dev.sched := [.thread n r] })) ∧
  (
  ∀ (w : BitVec 32) (i : Instr), decode w = .ok i →
    ∃ t, t.thr.pc = 0 ∧ t.thr.live = true ∧ canRun t = true ∧ fetchWord t = .ok w ∧
      step (State.reset.withFetchWord 32 w.toNat) = after wakeMates (exec i t))

/-- The machine right after reset meets the invariant; no thread is in a launch and every slot is free; memory reads what unlisted bytes read
as (log 10); and the registers of the window read the reset values of R217, R235, R298, R366, R384 and R394, with every plane map naming
plane i mod 8 (R374). Choices and readings of the model's own that it rests on: log 9, 12. -/
def Obligations.ResetState : Prop :=
  Inv State.reset ∧ (∀ n r, (slotAt State.reset n).st = .free ∧ (threadAt State.reset r).live = false) ∧
  (∀ k, readByte State.reset.dev k = Config.unlistedByte) ∧
  (∀ q, q < 1024 → ∀ r ∈ [0x00, 0x08, 0x10, 0x20, 0x28], readReg (0x10000 + 64 * q + r) Device.reset = if r = 8 then 0x100 else 0) ∧
  (∀ k, k < 2048 → readReg (0x20000 + 8 * k) Device.reset = 0) ∧
  (readReg 0xA1000 Device.reset = 1 ∧ ∀ k ∈ [0xA1008, 0xA1010, 0xA1018], readReg k Device.reset = 0) ∧
  (∀ c, c < 16 → ∀ k, k < 8 → readReg (0xE8000 + 64 * c + 8 * k) Device.reset = if k = 0 then 16 else 0) ∧
  (∀ n, n < 512 → readReg (0xC0000 + 32 * n) Device.reset = 16384 ∧ readReg (0xC0000 + 32 * n + 8) Device.reset = 0) ∧
  (∀ c, c < 256 → readReg (0xC4000 + 8 * c) Device.reset = 0) ∧
  (readReg 0xF0000 Device.reset = 0xFF ∧ readReg 0xF0008 Device.reset = 16 + 3 * 65536 ∧ ∀ k, k < 32 → readReg (0xF0100 + 8 * k) Device.reset = 0) ∧
  ∀ p, p < 256 → ∀ i, i < 64 → bits (mapOf Device.reset p).toNat (4 * i) 4 = i % 8

/-- From every state that meets the invariant, a step that answers a next state gives one that meets it. -/
def Obligations.StepKeepsInvariant : Prop :=
 ∀ s t : State, Inv s → step s = .next t → Inv t

/-- Memory: a byte reads back what was last written at its home (R367 sends accesses to retired frames elsewhere), and every other byte
reads as before; a string of bytes reads back whole where no frame is retired; every write keeps the canonical form; and two memories in
canonical form that read alike are the same memory. -/
def Obligations.MemoryReadsBack : Prop :=
  (∀ (d : Device) k j b, readByte (writeByte d k b) j = if homeKey d j = homeKey d k then b else readByte d j) ∧
  (∀ (d : Device) k bs, d.retire = [] → readBytes (writeBytes d k bs) k bs.length = bs ∧
    ∀ j, j < k ∨ k + bs.length ≤ j → readByte (writeBytes d k bs) j = readByte d j) ∧
  (∀ (d : Device) k bs, Memory.wf d.mem = true → Memory.wf (writeBytes d k bs).mem = true) ∧
  ∀ m n : List Host.Cell, Memory.wf m = true → Memory.wf n = true →
    (∀ k, SMap.get Config.unlistedByte m k = SMap.get Config.unlistedByte n k) → m = n

/-- R81: division completes on every operand and raises no flag. With a nonzero divisor and a quotient that can be represented, quotient
and remainder make up the dividend, the remainder is smaller than the divisor and has the dividend's sign; a zero divisor and the one
signed overflow give the results of the table. -/
def Obligations.DivisionEdges : Prop :=
  ∀ (s : State) (d a b : BitVec 5), Calm s → NoPort s [d.toNat, a.toNat, b.toNat] →
    ∃ q r uq ur : Word,
      exec (.div d a b) s = .next (retired (encode (.div d a b)) (s.thr.pc + 4) (wx d.toNat q s)) ∧
      exec (.rem d a b) s = .next (retired (encode (.rem d a b)) (s.thr.pc + 4) (wx d.toNat r s)) ∧
      exec (.divu d a b) s = .next (retired (encode (.divu d a b)) (s.thr.pc + 4) (wx d.toNat uq s)) ∧
      exec (.remu d a b) s = .next (retired (encode (.remu d a b)) (s.thr.pc + 4) (wx d.toNat ur s)) ∧
      (∀ w v, (retired w (s.thr.pc + 4) (wx d.toNat v s)).thr.sr.fpflags = s.thr.sr.fpflags) ∧
      (xr s b = 0 → 0 ≤ (xr s a).toInt → q.toInt = 2 ^ 63 - 1) ∧ (xr s b = 0 → (xr s a).toInt < 0 → q.toInt = -2 ^ 63) ∧
      (xr s b = 0 → uq.toNat = 2 ^ 64 - 1 ∧ r = xr s a ∧ ur = xr s a) ∧
      ((xr s a).toInt = -2 ^ 63 → (xr s b).toInt = -1 → q.toInt = 2 ^ 63 - 1 ∧ r = 0) ∧
      (xr s b ≠ 0 → ¬ ((xr s a).toInt = -2 ^ 63 ∧ (xr s b).toInt = -1) →
        (xr s a).toInt = q.toInt * (xr s b).toInt + r.toInt ∧ r.toInt.natAbs < (xr s b).toInt.natAbs ∧ (r.toInt = 0 ∨ (r.toInt < 0 ↔ (xr s a).toInt < 0))) ∧
      (xr s b ≠ 0 → (xr s a).toNat = uq.toNat * (xr s b).toNat + ur.toNat ∧ ur.toNat < (xr s b).toNat)

/-- The frame of the scalar words that compute (R75 to R87): a word of the integer, float or branch tables that answers a next state
without trapping leaves every x, v, k, m and z register but its destination, every flag but those it raises, every other state register
but INSTRET and WSTAT.SKIP, and every byte of memory as they were. The float results and flags are the model's readings where R45 leaves
room: a subnormal result under FTZ (log 19), and compares, minima and maxima under FTZ (log 60). -/
def Obligations.ScalarFrame : Prop :=
  ∀ (s : State) (i : Instr), Calm s →
    (∀ d v, scalarResult s i = some (d, v) → NoPort s ((scalarRegs i).map BitVec.toNat) → ∃ t, exec i s = .next t ∧ t.thr.pc = s.thr.pc + 4 ∧
      (∀ r, r < 32 → r ≠ d.toNat → rx t r = rx s r) ∧ rx t d.toNat = (if d = 0 then 0 else v) ∧
      (∀ k, readByte t.dev k = readByte s.dev k) ∧ t.thr.sr = { s.thr.sr with instret := s.thr.sr.instret + 1, wstat := s.thr.sr.wstat &&& ~~~0x10 } ∧
      t.thr.v = s.thr.v ∧ t.thr.k = s.thr.k ∧ t.thr.m = s.thr.m ∧ t.slot.z = s.slot.z) ∧
    (∀ d v fl, scalarFloat s i = some (d, v, fl) → enabledFlags s fl = 0 → NoPort s ((scalarFloatRegs i).map BitVec.toNat) → ∃ t, exec i s = .next t ∧
      t.thr.pc = s.thr.pc + 4 ∧ (∀ r, r < 32 → r ≠ d.toNat → rx t r = rx s r) ∧ rx t d.toNat = (if d = 0 then 0 else v) ∧
      (∀ k, readByte t.dev k = readByte s.dev k) ∧
      t.thr.sr = { s.thr.sr with instret := s.thr.sr.instret + 1, wstat := s.thr.sr.wstat &&& ~~~0x10, fpflags := t.thr.sr.fpflags } ∧
      (∀ b, b < 5 → t.thr.sr.fpflags.getLsbD b = (s.thr.sr.fpflags.getLsbD b || fl.testBit b)) ∧
      t.thr.v = s.thr.v ∧ t.thr.k = s.thr.k ∧ t.thr.m = s.thr.m ∧ t.slot.z = s.slot.z) ∧
    (∀ taken o, branchTaken s i = some (taken, o) → NoPort s ((branchRegs i).map BitVec.toNat) → ∃ t, exec i s = .next t ∧
      (∀ r, r < 32 → rx t r = rx s r) ∧ (∀ k, readByte t.dev k = readByte s.dev k) ∧
      t.thr.sr = { s.thr.sr with instret := s.thr.sr.instret + 1, wstat := s.thr.sr.wstat &&& ~~~0x10 } ∧
      t.thr.v = s.thr.v ∧ t.thr.k = s.thr.k ∧ t.thr.m = s.thr.m ∧ t.slot.z = s.slot.z)

/-- R209: the scalar queue ports of a TRIO slot, for every integer word. A word that names a port against the table, or that reads and writes
one port, traps REG_ILLEGAL. Otherwise it waits while a queue it reads is empty or the one it writes is full; and when it runs it reads
the heads, pops each queue that it names once, and pushes its result behind the last entry. Choices and readings of the model's own that
it rests on: log 3. -/
def Obligations.ScalarPorts : Prop :=
  ∀ (s : State) (i : Instr) (d : BitVec 5) (v : Word), scalarResult s i = some (d, v) → Calm s → isTrio s = true →
    let reads := fun p => ∃ r ∈ scalarReads i, isPort r p
    let bad := (∃ p, reads p ∧ (qReader p ≠ s.cur.2 ∨ isPort d p)) ∨ ∃ p, isPort d p ∧ qWriter p ≠ s.cur.2
    let stuck := (∃ p, reads p ∧ qport s p = []) ∨ ∃ p, isPort d p ∧ 8 ≤ (qport s p).length
    (bad → exec i s = .next (takeTrap (encode i) 0x04 s.thr.pc ((encode i).setWidth 64) 0 s)) ∧
    (¬ bad → stuck → exec i s = .next { s with thr.pnd.blocked := true }) ∧
    (¬ bad → ¬ stuck → ∃ t, exec i s = .next (retired (encode i) (s.thr.pc + 4) t) ∧
      t = { s with thr.x := t.thr.x, slot.qports := t.slot.qports } ∧
      (∀ r, r < 28 → rx t r = if r = d.toNat ∧ r ≠ 0 then v else rx s r) ∧
      (∀ p, p < 4 → (isPort d p → qport t p = qport s p ++ [v]) ∧ (reads p → qport t p = (qport s p).tail) ∧
        (¬ isPort d p → ¬ reads p → qport t p = qport s p)))

/-- R206, R207, R208: the ring ports, shown for `vadd`. A word that names a ring against the table, or under another factor than 1, traps
REG_ILLEGAL; one that reads a ring waits for a committed head, and traps RING_SHAPE with the head's length and the port when that is not
vl, popping nothing. One that reads none and writes a full ring is queued, so that its role goes on, while fewer than 64 words of the role
stand there; else it waits for room, and so does one that reads a ring behind queued words. When it runs it reads the heads, pops each
ring that it names once, and commits one slot with its length, its VTYPE and its elements, 0 where it wrote none. Choices and readings of
the model's own that it rests on: log 2, 3, 82, 83. -/
def Obligations.RingTraffic : Prop :=
  ∀ (s : State) (x : BitVec 1) (d a b : BitVec 5) (k : BitVec 3) (h : BitVec 2), s.slot.chain = none → s.thr.hid.active = false →
    s.thr.hid.damaged = [] → (dbgOf s).sstep = false → vmN s ≤ 16384 → s.thr.pnd.replay.length < 128 → isTrio s = true → fmtN s ≠ 0 → intOk s = true →
    (x = 1 → NoPort s [b.toNat]) → (d.toNat < 28 → GroupOk s (d.toNat, grpN s)) → (a.toNat < 28 → GroupOk s (a.toNat, grpN s)) →
    (x ≠ 1 → b.toNat < 28 → GroupOk s (b.toNat, grpN s)) → vlN s ≤ groupLen s (ewN s) (grpN s) →
    let w := encode (.vadd x d a b k h)
    let reads := fun p => isPort a p ∨ (x ≠ 1 ∧ isPort b p)
    let bad := (∃ p, reads p ∧ (ringReader p ≠ s.cur.2 ∨ grpN s ≠ 1 ∨ isPort d p)) ∨ ∃ p, isPort d p ∧ (ringWriter p ≠ s.cur.2 ∨ grpN s ≠ 1)
    let ahead := queuedAhead s
    let queues := (∀ p, ¬ reads p) ∧ ahead < 64
    let stuck := (∃ p, reads p ∧ headSlot s p = none) ∨ (∃ p, isPort d p ∧ openSlot (ring s p) = none ∧ 4 ≤ (ring s p).length ∧ ¬ queues) ∨
      (ahead ≠ 0 ∧ ¬ queues)
    let odd := fun p => reads p ∧ ∃ r, headSlot s p = some r ∧ r.vl ≠ vlN s
    (bad → exec (.vadd x d a b k h) s = .next (if ahead = 0 then takeTrap w 0x04 s.thr.pc (w.setWidth 64) 0 s else { s with thr.pnd.blocked := true })) ∧
    (¬ bad → stuck → exec (.vadd x d a b k h) s = .next { s with thr.pnd.blocked := true }) ∧
    (¬ bad → ¬ stuck → ∀ p r, odd p → headSlot s p = some r → (isPort b p → x ≠ 1 → ∀ q, isPort a q → ¬ odd q ∨ q = p) →
      exec (.vadd x d a b k h) s = .next (takeTrap w 0x06 s.thr.pc (w64 r.vl) (w64 p) { s with thr.sr.vstart := 0 })) ∧
    (¬ bad → ¬ stuck → (∀ p, ¬ odd p) → vsN s = 0 →
      let sum := fun j => (elemV s a.toNat (ewN s) j + operandB s x b j) % 2 ^ ewN s
      ∃ t, exec (.vadd x d a b k h) s = .next (retired w (s.thr.pc + 4) t) ∧
        t = { chargeWord (ewN s) s with
          thr.v := t.thr.v, thr.hid.units := t.thr.hid.units, thr.sr.vstart := 0, thr.pnd.replay := s.thr.pnd.replay ++ [captured w s]
          slot.rings := t.slot.rings } ∧
        (∀ r, r < 28 → (d.toNat ≤ r ∧ r < d.toNat + grpN s) ∨ rv t r = rv s r) ∧
        (∀ p, p < 4 → (reads p → ring t p = (ring s p).tail) ∧ (¬ reads p → ¬ isPort d p → ring t p = ring s p) ∧
          (isPort d p → openSlot (ring s p) = none → ∃ r, ring t p = ring s p ++ [r] ∧ r.committed = true ∧ r.vl = vlN s ∧ r.vtype = s.thr.sr.vtype ∧
            ∀ j, j < groupLen s (ewN s) 1 →
              (written s k j → elemOf r.data.toNat (ewN s) j = sum j) ∧ (¬ written s k j → elemOf r.data.toNat (ewN s) j = 0))) ∧
        (d.toNat < 28 → ∀ j, j < groupLen s (ewN s) (grpN s) →
          (written s k j → elemV t d.toNat (ewN s) j = sum j) ∧
          (¬ written s k j → elemV t d.toNat (ewN s) j = elemV s d.toNat (ewN s) j)))

/-- R19, R90 to R92: a scalar load whose access passes its checks writes xD with the little-endian bytes read, extended as its row says, and
goes on; nothing else changes but what a load counts and orders. One that does not traps with the cause, TVAL and HIT bits of its checks,
and one that must wait leaves the thread where it is, with the request it has sent to another device, if any. Choices and readings of the
model's own that it rests on: log 3, 4, 85. -/
def Obligations.ScalarLoads : Prop :=
  ∀ (s : State) (i : Instr) (d a : BitVec 5) (c : BitVec 4) (o : BitVec 12) (n : Nat) (sg : Bool),
    loadForm i = some (d, a, c, o, n, sg) → Calm s → NoPort s [a.toNat, d.toNat] →
    let ea := (xr s a + o.signExtend 64).toNat
    (∀ bs locs, loadBytes s c.toNat n ea n = .ok bs locs →
      exec i s = .next (retired (encode i) (s.thr.pc + 4)
        (wx d.toNat (if sg then (BitVec.ofNat (8 * n) (leNat bs)).signExtend 64 else w64 (leNat bs)) (afterLoad c.toNat locs s)))) ∧
    (∀ cause v v2 h, loadBytes s c.toNat n ea n = .trap cause v v2 h →
      exec i s = .next (takeTrap (encode i) cause s.thr.pc (w64 v) (w64 (v2.getD 0)) (setHits h s))) ∧
    (∀ q, loadBytes s c.toNat n ea n = .wait q → exec i s = .next (waitHere (askFor q s)))

/-- R20, R91, R245, R392: an aligned access of n bytes that translates, in the identity area one of 1, 2, 4 or 8 bytes, and meets no
watchpoint, no earlier access it must wait for, no other device and no poison reads, byte by byte, the latest store of its own thread over
the L1D line or the home. R19, R91: a load or store whose address is not a multiple of its size traps ALIGNMENT with the address as TVAL;
an aligned one whose address has bits [63:52] not all zero traps LOAD_TRANSLATION or STORE_TRANSLATION with the address as TVAL. Choices
and readings of the model's own that it rests on: log 4, 18. -/
def Obligations.AccessChecks : Prop :=
  (
  ∀ (s : State) (cls n va : Nat) (locs : List Loc), va % n = 0 → xlateRange (xlateThr s false) va n = .ok locs →
    ((∃ l ∈ locs, l.kind = .mmio) → n = 1 ∨ n = 2 ∨ n = 4 ∨ n = 8) → s.thr.sr.watch = [] → loadWaits s cls = false → (∀ l ∈ locs, l.kind ≠ .remote) → s.dev.poison = [] →
    loadBytes s cls n va n = .ok (locs.map (viewByte s (cls != 15))) locs ∧
    (s.thr.pnd.stores = [] → s.dev.l1d = [] → (∀ l ∈ locs, l.kind ≠ .mmio) →
      loadBytes s cls n va n = .ok (locs.map (fun l => readByte s.dev l.key)) locs)) ∧
  (
  ∀ (s : State) (store : Bool) (n va : Nat), 0 < n → n ≤ 8 → va < 2 ^ 64 →
    (va % n ≠ 0 → checkAccess s store n va n = .trap 0x0C va 0) ∧
    (va % n = 0 → 2 ^ 52 ≤ va → n = 1 ∨ n = 2 ∨ n = 4 ∨ n = 8 → checkAccess s store n va n = .trap (if store then 0x0B else 0x0A) va 0))

/-- R90, R91, R250: a scalar store whose access passes its checks puts the low bytes of xD, with the locations they go to, behind the thread's
earlier stores; no byte of memory changes until STORE_PERFORM, and no register changes. Otherwise it traps as its checks say. R250, R263:
STORE_PERFORM, seen from the thread whose store it is, of a store to this device's memory or a scratchpad that nothing orders behind an
earlier one takes it off the list and writes its bytes at their homes: each byte it names takes the bits of its mask, and every other byte
of memory reads as before; no register changes. No frame is retired or watched here. Choices and readings of the model's own that it rests
on: log 6, 18, 62. -/
def Obligations.ScalarStores : Prop :=
  (
  ∀ (s : State) (i : Instr) (d a : BitVec 5) (c : BitVec 4) (o : BitVec 12) (n : Nat),
    storeForm i = some (d, a, c, o, n) → Calm s → NoPort s [d.toNat, a.toNat] →
    let ea := (xr s a + o.signExtend 64).toNat
    (∀ locs, checkAccess s true n ea n = .ok locs →
      ∃ t, exec i s = .next (retired (encode i) (s.thr.pc + 4) t) ∧
        t = pushStore c.toNat ea (wholeBytes (locs.map (·.key)) (leBytes n (xr s d).toNat)) s ∧
        t.thr.pnd.stores = s.thr.pnd.stores ++
          [⟨s.dev.ser + 1, c.toNat, 0, 0, 0, wholeBytes (locs.map (·.key)) (leBytes n (xr s d).toNat), s.thr.sr.taskid, ea, none⟩] ∧
        (∀ k, readByte t.dev k = readByte s.dev k) ∧ (∀ r, rx t r = rx s r)) ∧
    (∀ cause v h, checkAccess s true n ea n = .trap cause v h →
      exec i s = .next (takeTrap (encode i) cause s.thr.pc (w64 v) 0 (setHits h s)))) ∧
  (
  ∀ (s : State) (p : PStore), let u := focus s s.dev.arg.slot s.dev.arg.role
    eligible u s.dev.arg.idx = true → u.thr.pnd.stores[s.dev.arg.idx]? = some p → p.fence = 0 → p.upd = 0 → (p.bytes.map (·.1)).Nodup →
    s.dev.retire = [] → s.dev.mwatch = [] → (∀ b ∈ p.bytes, isScratch b.1 = true ∨ isLocalDev s.dev b.1 = true) →
    ∃ t, exec .storePerform s = .next (focus t s.cur.1 s.cur.2) ∧
      t.thr.pnd.stores = u.thr.pnd.stores.eraseIdx s.dev.arg.idx ∧
      (∀ b ∈ p.bytes, readByte t.dev b.1 = (readByte s.dev b.1 &&& ~~~b.2.1) ||| (b.2.2 &&& b.2.1)) ∧
      (∀ k, k ∉ p.bytes.map (·.1) → readByte t.dev k = readByte s.dev k) ∧ (∀ r, rx t r = rx u r))

/-- R258 to R260: an atomic that passes its checks, waits for nothing, and meets neither another device nor poison reads its bytes at their
home, stores the new value there at once where one is made, changing no other byte (where no frame is retired or watched), and writes the
old one to xD. Choices and readings of the model's own that it rests on: log 4, 18, 85. -/
def Obligations.Atomics : Prop :=
  ∀ (s : State) (i : Instr) (f : AtomicForm) (locs : List Loc), atomicForm s i = some f → Calm s →
    NoPort s (f.d.toNat :: f.reads.map BitVec.toNat) → checkAtomic s (xr s f.a).toNat f.n = .ok locs →
    atomicWaits s f.c.toNat = false → overlapsPending s (locs.map (·.key)) = false → (∀ l ∈ locs, l.kind ≠ .remote) →
    s.dev.poison = [] →
    let old := leNat (locs.map (fun l => readByte s.dev l.key))
    ∃ u, u = { s with dev := u.dev } ∧
      exec i s = .next (retired (encode i) (s.thr.pc + 4) (wx f.d.toNat (f.ext old)
        (if f.c = 15 ∧ f.sc ≠ 0 then { u with thr.pnd.l1dMin := u.dev.ser + 1, dev.ser := u.dev.ser + 1 } else u))) ∧
      u = (atomicAt locs 1 f.new s).2 ∧
      (f.new old = none → ∀ k, readByte u.dev k = readByte s.dev k) ∧
      ∀ v, f.new old = some v → s.dev.retire = [] → s.dev.mwatch = [] → (locs.map (·.key)).Nodup →
        (∀ j l, locs[j]? = some l → readByte u.dev l.key = BitVec.ofNat 8 (v / 256 ^ j)) ∧
        ∀ k, k ∉ locs.map (·.key) → readByte u.dev k = readByte s.dev k

/-- R254, R255: a fence whose class mask is 0 acts as a `nop`. Otherwise `fence` and `fence.rel` put a fence of their classes behind the
thread's earlier stores, `fence.acq` one that waits only for the `zld` and `zst` it selects, and a `fence` or `fence.acq` wider than core
keeps later loads off the L1D lines filled before it. Choices and readings of the model's own that it rests on: log 4, 95. -/
def Obligations.Fences : Prop :=
  ∀ (s : State) (m n : BitVec 8) (sc : BitVec 4), Calm s →
    let w := m ++ n
    let put := fun (kind : Nat) => { s with
      thr.pnd.stores := s.thr.pnd.stores ++ [⟨s.dev.ser + 1, 0, w, kind, 0, [], s.thr.sr.taskid, 0, none⟩], dev.ser := s.dev.ser + 1 }
    let drop := fun (t : State) => if 2 < sc.toNat then { t with thr.pnd.l1dMin := t.dev.ser + 1, dev.ser := t.dev.ser + 1 } else t
    exec (.fence m sc n) s = .next (retired (encode (.fence m sc n)) (s.thr.pc + 4) (if w = 0 then s else drop (put 0))) ∧
    exec (.fenceAcq m sc n) s = .next (retired (encode (.fenceAcq m sc n)) (s.thr.pc + 4) (if w = 0 then s else drop (put 2))) ∧
    exec (.fenceRel m sc n) s = .next (retired (encode (.fenceRel m sc n)) (s.thr.pc + 4) (if w = 0 then s else put 1))

/-- R256: `wpoll` writes the doubleword read when it differs from xD, or when 2^20 cycles have passed since it began to wait; until then it
waits, and remembers when it began. One whose read must wait returns xD unchanged at that limit. Choices and readings of the model's own
that it rests on: log 3, 85. -/
def Obligations.WpollWaitsForChange : Prop :=
  ∀ (s : State) (d a : BitVec 5) (sc : BitVec 4) (bs : List Byte) (locs : List Loc), Calm s → NoPort s [a.toNat, d.toNat] →
    let since := s.thr.pnd.wpollSince.getD (cycNow s)
    (loadBytes s 15 8 (xr s a).toNat 8 = .ok bs locs → w64 (leNat bs) ≠ xr s d ∨ 2 ^ 20 ≤ cycNow s - since →
      ∃ t, exec (.wpoll d a sc) s = .next t ∧ t.thr.pc = s.thr.pc + 4 ∧ t.thr.pnd.wpollSince = none ∧
        (d ≠ 0 → rx t d.toNat = w64 (leNat bs)) ∧ (∀ r, r ≠ d.toNat → rx t r = rx s r)) ∧
    (loadBytes s 15 8 (xr s a).toNat 8 = .ok bs locs → w64 (leNat bs) = xr s d → cycNow s - since < 2 ^ 20 →
      exec (.wpoll d a sc) s = .next (waitHere (answered locs { s with thr.pnd.wpollSince := some since }))) ∧
    (∀ q, loadBytes s 15 8 (xr s a).toNat 8 = .wait q →
      (cycNow s - since < 2 ^ 20 → exec (.wpoll d a sc) s = .next (waitHere (askFor q { s with thr.pnd.wpollSince := some since }))) ∧
      (2 ^ 20 ≤ cycNow s - since → exec (.wpoll d a sc) s = .next (retired (encode (.wpoll d a sc)) (s.thr.pc + 4) (wx d.toNat (xr s d) s)))) ∧
    ∀ cause v v2 h, loadBytes s 15 8 (xr s a).toNat 8 = .trap cause v v2 h →
      exec (.wpoll d a sc) s = .next (takeTrap (encode (.wpoll d a sc)) cause s.thr.pc (w64 v) (w64 (v2.getD 0)) (setHits h s))

/-- R75 to R81: an integer instruction that computes one register writes the value of the table and goes on at the next word; nothing
else of the machine changes but what retiring changes. A write to x0 leaves the registers as they are (`wx`). -/
def Obligations.ScalarIntegerResult : Prop :=
  ∀ (s : State) (i : Instr) (d : BitVec 5) (v : Word), scalarResult s i = some (d, v) → Calm s →
    NoPort s ((scalarRegs i).map BitVec.toNat) → exec i s = .next (retired (encode i) (s.thr.pc + 4) (wx d.toNat v s))

/-- R83 to R86: a scalar float instruction whose raised flags FPCTL enables none of merges them and writes its register; with one of them
enabled it traps FP_EXCEPTION at itself with those flags as TVAL, and neither merges nor writes. Choices and readings of the model's own
that it rests on: log 19, 60. -/
def Obligations.ScalarFloatResult : Prop :=
  ∀ (s : State) (i : Instr) (d : BitVec 5) (v : Word) (fl : Nat), scalarFloat s i = some (d, v, fl) → Calm s →
    NoPort s ((scalarFloatRegs i).map BitVec.toNat) →
    exec i s = .next (if enabledFlags s fl = 0 then retired (encode i) (s.thr.pc + 4) (wx d.toNat v (mergeFlags fl s))
      else takeTrap (encode i) 0x10 s.thr.pc (w64 (enabledFlags s fl)) 0 s)

/-- R87: a compare-branch that is taken goes on at its own address plus four times its signed offset, and one that is not at the next
word; no register changes. -/
def Obligations.BranchTargets : Prop :=
  ∀ (s : State) (i : Instr) (taken : Bool) (o : BitVec 16), branchTaken s i = some (taken, o) → Calm s →
    NoPort s ((branchRegs i).map BitVec.toNat) →
    exec i s = .next (retired (encode i) (if taken then s.thr.pc + 4 * o.signExtend 64 else s.thr.pc + 4) s)

/-- R95, R97: `setvl` and `setvlr` with a request that R95 does not allow (for `setvlr` also one with a bit above 15) trap VTYPE_ILLEGAL with
the word and the request, and change nothing. R17, R18, R97: `setvl` and `setvlr` of a legal request grant VL, VTYPE and VLVALID for x[A],
or for the longest length where field A is 0, write the length to xD, and change no register contents but by the zeroing of the first
grant and of a risen VLMAX (`Granted`). Choices and readings of the model's own that it rests on: log 16. -/
def Obligations.VectorLengths : Prop :=
  (
  ∀ s, Calm s → ∀ d a : BitVec 5,
    (∀ t, NoPort s (if a = 0 then [d.toNat] else [a.toNat, d.toNat]) → vtLegal t.toNat = false →
      exec (.setvl d a t) s = .next (takeTrap (encode (.setvl d a t)) 0x03 s.thr.pc ((encode (.setvl d a t)).setWidth 64) (t.setWidth 64) s)) ∧
    (∀ b, NoPort s (if a = 0 then [b.toNat, d.toNat] else [a.toNat, b.toNat, d.toNat]) → vtLegal (xr s b).toNat = false →
      exec (.setvlr d a b) s = .next (takeTrap (encode (.setvlr d a b)) 0x03 s.thr.pc ((encode (.setvlr d a b)).setWidth 64) (xr s b) s)) ∧
    ∀ n, vtLegal n = true ↔ (1 ≤ n % 32 ∧ n % 32 ≤ 19 ∧ n < 4096 ∧ (n / 128 % 4 = 0 ∨ ((n / 128 % 4 = 1 ∨ n / 128 % 4 = 2) ∧
      (n % 32 = 1 ∨ n % 32 = 12 ∨ n % 32 = 13 ∨ n % 32 = 14 ∨ n % 32 = 15 ∨ n % 32 = 16))))) ∧
  (
  ∀ s, Calm s → ∀ d a : BitVec 5,
    let most := fun (req : Nat) => longestVl (slotVlmax s.dev s.cur.1 s.slot.part.toNat) (vtFmt (BitVec.ofNat 16 req)) (vtGrp (BitVec.ofNat 16 req))
    let avl := fun req => if a = 0 then most req else (xr s a).toNat
    (∀ t, NoPort s (if a = 0 then [d.toNat] else [a.toNat, d.toNat]) → vtLegal t.toNat = true →
      ∃ u, exec (.setvl d a t) s = .next (retired (encode (.setvl d a t)) (s.thr.pc + 4) (wx d.toNat (w64 (vlN u)) u)) ∧
        Granted s (t.setWidth 16) (avl t.toNat) u) ∧
    (∀ b, NoPort s (if a = 0 then [b.toNat, d.toNat] else [a.toNat, b.toNat, d.toNat]) → vtLegal (xr s b).toNat = true →
      ∃ u, exec (.setvlr d a b) s = .next (retired (encode (.setvlr d a b)) (s.thr.pc + 4) (wx d.toNat (w64 (vlN u)) u)) ∧
        Granted s (BitVec.ofNat 16 (xr s b).toNat) (avl (xr s b).toNat) u))

/-- R99: `cbld` of 32 readable bytes fills codebook n with them in little-endian order; a load that its checks turn away traps as they say
with VSTART 0, another device's bytes with ACCESS_RIGHTS before any watchpoint or poison, and one that must wait leaves the thread where
it is. R108, R109: `sdld` of 64 readable bytes with a legal descriptor loads the stream register and sets its iterator to 0; an illegal
descriptor traps VTYPE_ILLEGAL with x[A], and a load that its checks turn away as they say, another device's bytes with ACCESS_RIGHTS
before any watchpoint or poison: then the register stays. VSTART is 0 after it (log 86). One that must wait leaves the thread where it is.
Choices and readings of the model's own that it rests on: log 4, 85, 86. -/
def Obligations.RegisterLoads : Prop :=
  (
  ∀ (s : State) (a : BitVec 5) (c : BitVec 4) (n : BitVec 2), Calm s → NoPort s [a.toNat] →
    (∀ bs locs, loadAs s true c.toNat 32 (xr s a).toNat 32 = .ok bs locs →
      exec (.cbld a c n) s = .next (retired (encode (.cbld a c n)) (s.thr.pc + 4)
        (afterLoad c.toNat locs { s with thr.cb := SMap.set 0 s.thr.cb n.toNat (BitVec.ofNat 256 (leNat bs)) }))) ∧
    (∀ l, (xr s a).toNat % 32 = 0 → xlateThr s false (xr s a).toNat = .ok l → l.kind = .remote →
      exec (.cbld a c n) s = .next (takeTrap (encode (.cbld a c n)) 0x0D s.thr.pc (xr s a) 0 { s with thr.sr.vstart := 0 })) ∧
    (∀ cause v v2 h, loadAs s true c.toNat 32 (xr s a).toNat 32 = .trap cause v v2 h →
      exec (.cbld a c n) s = .next (takeTrap (encode (.cbld a c n)) cause s.thr.pc (w64 v) (w64 (v2.getD 0))
        { setHits h s with thr.sr.vstart := 0 })) ∧
    ∀ q, loadAs s true c.toNat 32 (xr s a).toNat 32 = .wait q → exec (.cbld a c n) s = .next (waitHere s)) ∧
  (
  ∀ (s : State) (n : BitVec 3) (a : BitVec 5), Calm s → NoPort s [a.toNat] →
    (∀ bs locs, loadAs s true 0 8 (xr s a).toNat 64 = .ok bs locs →
      (streamLegal (leNat bs) →
        exec (.sdld n a) s = .next (retired (encode (.sdld n a)) (s.thr.pc + 4)
          { afterLoad 0 locs s with thr.sr.vstart := 0, thr.s := SMap.set Stream.empty s.thr.s n.toNat ⟨true, BitVec.ofNat 512 (leNat bs), 0, 0⟩ })) ∧
      (¬ streamLegal (leNat bs) →
        exec (.sdld n a) s = .next (takeTrap (encode (.sdld n a)) 0x03 s.thr.pc (xr s a) 0 { s with thr.sr.vstart := 0 }))) ∧
    (∀ l, (xr s a).toNat % 8 = 0 → (xr s a).toNat / 65536 = ((xr s a).toNat + 63) / 65536 → xlateThr s false (xr s a).toNat = .ok l →
      l.kind = .remote →
      exec (.sdld n a) s = .next (takeTrap (encode (.sdld n a)) 0x0D s.thr.pc (xr s a) 0 { s with thr.sr.vstart := 0 })) ∧
    (∀ cause v v2 h, loadAs s true 0 8 (xr s a).toNat 64 = .trap cause v v2 h →
      exec (.sdld n a) s = .next (takeTrap (encode (.sdld n a)) cause s.thr.pc (w64 v) (w64 (v2.getD 0)) { setHits h s with thr.sr.vstart := 0 })) ∧
    ∀ q, loadAs s true 0 8 (xr s a).toNat 64 = .wait q → exec (.sdld n a) s = .next (waitHere s))

/-- R100: `sbr` counts xN down by VLVALID, steps the selected address registers by the byte step of their scale codes and branches while
what is left is positive; with N = 0 it counts nothing and never branches. The second of two executions in a row at one address that
would branch with VLVALID 0 traps NO_PROGRESS with the PC and VL, and leaves registers and addresses as they are. -/
def Obligations.StripBranch : Prop :=
  ∀ (s : State) (n : BitVec 5) (m : BitVec 4) (sc : BitVec 8) (o : BitVec 9), Calm s → fmtN s ≠ 0 → NoPort s [n.toNat] →
    let v := vvN s
    let taken : Bool := decide (n ≠ 0) && decide ((v : Int) < (xr s n).toInt)
    let stall := if s.thr.hid.srecAddr = some s.thr.pc then s.thr.hid.srecStall + 1 else 1
    let step := fun (i : Nat) => let k := sc.toNat / 4 ^ i % 4; if k = 0 then vlN s * ewN s / 8 else vlN s * 2 ^ (k - 1)
    (taken = true → v = 0 → stall = 2 →
      exec (.sbr n m sc o) s = .next (takeTrap (encode (.sbr n m sc o)) 0x14 s.thr.pc s.thr.pc s.thr.sr.vl
        { s with thr.hid.srecAddr := none, thr.hid.srecStall := 0 })) ∧
    (¬ (taken = true ∧ v = 0 ∧ stall = 2) →
      ∃ u, exec (.sbr n m sc o) s = .next (retired (encode (.sbr n m sc o)) (if taken then s.thr.pc + 4 * o.signExtend 64 else s.thr.pc + 4) u) ∧
        u = { s with thr.x := u.thr.x, thr.hid.units := u.thr.hid.units, thr.hid.damaged := u.thr.hid.damaged
                     thr.hid.srecAddr := some s.thr.pc, thr.hid.srecStall := if taken = true ∧ v = 0 then stall else 0 } ∧
        ∀ r, r < 32 → rx u r =
          let base := if r = n.toNat ∧ n ≠ 0 then xr s n - s.thr.sr.vlvalid else rx s r
          if 20 ≤ r ∧ r < 24 ∧ m.toNat.testBit (r - 20) = true then base + w64 (step (r - 20)) else base)

/-- R111: `vloop` of a loaded stream register with nothing left jumps over its body; otherwise it begins the first pass: it records the body
and the count and makes the grant of the count under the VTYPE in force with the stream's format and block length, and the thread goes on
at the body. A register never loaded traps REG_ILLEGAL, and a `vloop` while a loop is active ILLEGAL_INSTR, which ends the loop where it
stands in the body. R111: the body's last word ends a pass: with nothing left the loop is over and the thread goes on behind it; otherwise
the count falls by VLVALID, the grant is made anew under the stream's format and block length, and the thread goes on at the body's start.
Shown for a `nop` as the last word. Choices and readings of the model's own that it rests on: log 14. -/
def Obligations.LoopPasses : Prop :=
  (
  ∀ (s : State) (n : BitVec 3) (l : BitVec 4), Calm s → fmtN s ≠ 0 →
    let st := streamOf s n.toNat
    let count := dCount st.desc.toNat - st.t
    let stop := s.thr.pc + 4 + 4 * w64 (l.toNat + 1)
    (st.loaded = false → exec (.vloop n l) s = .next (takeTrap (encode (.vloop n l)) 0x04 s.thr.pc ((encode (.vloop n l)).setWidth 64) 0 s)) ∧
    (st.loaded = true → count = 0 → exec (.vloop n l) s = .next (retired (encode (.vloop n l)) stop s)) ∧
    (st.loaded = true → 0 < count →
      ∃ u req, exec (.vloop n l) s = .next (retired (encode (.vloop n l)) (s.thr.pc + 4) u) ∧ LoopType s.thr.sr.vtype st.desc.toNat req ∧
        Granted { s with
          thr.hid.active := true, thr.hid.lstart := s.thr.pc + 4, thr.hid.lend := stop, thr.hid.lcount := count, thr.hid.lstream := n.toNat } req count u) ∧
    ∀ t : State, t.thr.hid.active = true → queuedAhead t = 0 →
      exec (.vloop n l) t = .next (takeTrap (encode (.vloop n l)) 0x01 t.thr.pc ((encode (.vloop n l)).setWidth 64) 0
        (if inBody t then { t with thr.hid.active := false } else t))) ∧
  (
  ∀ s, s.slot.chain = none → (dbgOf s).sstep = false → s.thr.hid.damaged = [] → s.thr.hid.active = true → s.thr.sr.tstat.getLsbD 0 = false →
    s.thr.pc + 4 = s.thr.hid.lend →
    let left := s.thr.hid.lcount - vvN s
    let st := SMap.get Stream.empty s.thr.s s.thr.hid.lstream
    (left = 0 → exec .nop s = .next { retired (encode .nop) (s.thr.pc + 4) s with thr.hid.active := false, thr.hid.lcount := 0 }) ∧
    (0 < left → ∃ u req, exec .nop s = .next { u with thr.pc := s.thr.hid.lstart } ∧ LoopType s.thr.sr.vtype st.desc.toNat req ∧
      Granted { retired (encode .nop) (s.thr.pc + 4) s with thr.hid.lcount := left } req left u))

/-- R10, R130: `vbr` pushes what the join needs and takes the true path when it is not empty; `vjoin` turns to the false path once, then
pops; `vbany` and `vball` only branch. Here act are the indices below VLVALID that EXM selects. R131: a push onto 8 fragments on chip
stores the oldest in the sync class first, a `vjoin` with none on chip reads the newest spilled one back, and an access that its checks turn
away traps STACK_SPILL with the byte that failed and changes nothing. -/
def Obligations.Divergence : Prop :=
  ∀ s, Calm s → fmtN s ≠ 0 → ∀ (a : BitVec 3) (o : BitVec 16),
    let act := s.thr.hid.exm.toNat % 2 ^ vvN s
    let cond := if a = 0 then 2 ^ 32768 - 1 else (rk s a.toNat).toNat
    let tgt := s.thr.pc + 4 * o.signExtend 64
    let frag : Frag := ⟨s.thr.hid.exm, BitVec.ofNat 32768 (act - (act &&& cond)), s.thr.pc + 4,
      decide (act &&& cond ≠ 0) && decide (act - (act &&& cond) ≠ 0)⟩
    let goes := fun (u : State) => if act &&& cond = 0 then retired (encode (.vbr a o)) (s.thr.pc + 4) u
      else retired (encode (.vbr a o)) tgt { u with thr.hid.exm := BitVec.ofNat 32768 (act &&& cond) }
    (s.thr.hid.frags.length < 8 → exec (.vbr a o) s = .next (goes { s with thr.hid.frags := s.thr.hid.frags ++ [frag] })) ∧
    (∀ old rest, s.thr.hid.frags = old :: rest → rest.length = 7 →
      let base := s.thr.hid.fsbase.toNat + 8208 * s.thr.hid.fspilled
      (∀ c b, xlateRange (xlateAcc s true false base 8208) base 8208 = .error (c, b) →
        exec (.vbr a o) s = .next (takeTrap (encode (.vbr a o)) 0x0E s.thr.pc (w64 b) 0 s)) ∧
      (∀ locs, xlateRange (xlateAcc s true false base 8208) base 8208 = .ok locs →
        exec (.vbr a o) s = .next (goes { pushStore 15 base (wholeBytes (locs.map (·.key)) (fragBytes old)) s with
          thr.hid.fspilled := s.thr.hid.fspilled + 1, thr.hid.frags := rest ++ [frag] }))) ∧
    (∀ l e, s.thr.hid.frags = l ++ [e] → exec (.vjoin o) s = .next
      (if e.pend then retired (encode (.vjoin o)) e.pc { s with thr.hid.frags := l ++ [{ e with pend := false }], thr.hid.exm := e.fls }
       else retired (encode (.vjoin o)) tgt { s with thr.hid.frags := l, thr.hid.exm := e.outer })) ∧
    (s.thr.hid.frags = [] → s.thr.hid.fspilled = 0 → exec (.vjoin o) s = .next (retired (encode (.vjoin o)) tgt s)) ∧
    (s.thr.hid.frags = [] → ∀ n, s.thr.hid.fspilled = n + 1 →
      let base := s.thr.hid.fsbase.toNat + 8208 * n
      (∀ c b, xlateRange (xlateAcc s false false base 8208) base 8208 = .error (c, b) →
        exec (.vjoin o) s = .next (takeTrap (encode (.vjoin o)) 0x0E s.thr.pc (w64 b) 0 s)) ∧
      ∀ locs bs, xlateRange (xlateAcc s false false base 8208) base 8208 = .ok locs → loadChecked s 15 base locs = .ok bs locs →
        let u := afterLoad 15 locs { s with thr.hid.fspilled := n }
        exec (.vjoin o) s = .next
          (if (leNat bs).testBit 0 then retired (encode (.vjoin o)) (w64 (leNat bs / 4 % 2 ^ 62 * 4)) { u with
              thr.hid.frags := [⟨BitVec.ofNat 32768 (leNat bs / 2 ^ 128), BitVec.ofNat 32768 (leNat bs / 2 ^ 32896), w64 (leNat bs / 4 % 2 ^ 62 * 4), false⟩]
              thr.hid.exm := BitVec.ofNat 32768 (leNat bs / 2 ^ 32896) }
           else retired (encode (.vjoin o)) tgt { u with thr.hid.frags := [], thr.hid.exm := BitVec.ofNat 32768 (leNat bs / 2 ^ 128) })) ∧
    exec (.vbany a o) s = .next (retired (encode (.vbany a o)) (if act &&& cond = 0 then s.thr.pc + 4 else tgt) s) ∧
    exec (.vball a o) s = .next (retired (encode (.vball a o)) (if act &&& cond = act then tgt else s.thr.pc + 4) s)

/-- R94: `nop` has the word 0xF800F000, retires and changes nothing but the pc; with another field nonzero its word is no instruction and
traps ILLEGAL_INSTR with the word as TVAL. -/
def Obligations.NopOnlyAdvances : Prop :=
  encode .nop = 0xF800F000 ∧ (∀ s, Calm s → exec .nop s = .next (retired 0xF800F000 (s.thr.pc + 4) s)) ∧
    ∀ x : BitVec 32, x &&& 0xFC00F000 = 0xF800F000 → x ≠ 0xF800F000 → decode x = .error .unassigned ∧
      ∀ s, canRun s = true → queuedAhead s = 0 → fetchWord s = .ok x → exec .illegalInstr s = .next (takeTrap x 0x01 s.thr.pc (x.setWidth 64) 0 s)

/-- R58: a word of a reserved major is no instruction and traps ILLEGAL_INSTR, a cause that stops its slot (the dissolved
chain's, if it is in one), with the word's address as TPC and the word as TVAL. -/
def Obligations.ReservedMajorsTrap : Prop :=
  ∀ x : BitVec 32, x.toNat / 2 ^ 26 ∈ [0x00, 0x0D, 0x0E, 0x0F, 0x17, 0x1F, 0x2F, 0x3F] → decode x = .error .reservedMajor ∧
    ∀ s, canRun s = true → queuedAhead s = 0 → fetchWord s = .ok x → ∃ t, exec .illegalInstr s = .next t ∧
      t = takeTrap x 0x01 s.thr.pc (x.setWidth 64) 0 s ∧
      (s.slot.chain = none → ∃ r, t.slot.held = some r ∧ t.slot.st = .stopped ∧ r.cause = 0x01 ∧ r.tpc = s.thr.pc ∧ r.tval = x.setWidth 64)

/-- R327: `yield` changes nothing but the pc, retires, and makes the role not ready for the 16 cycles that follow. Choices and readings of the
model's own that it rests on: log 79. -/
def Obligations.YieldMakesNotReady : Prop :=
  ∀ s, Calm s → ∃ t, exec .yield s = .next t ∧
    t = retired (encode .yield) (s.thr.pc + 4) { s with thr.pnd.readyAt := cycNow s + 16 } ∧
    ∀ k, k < 16 → ∀ b, ready b (cycNow s + k) t.thr = false

/-- R25, R325: with a handler set and not already in one, `sys` enters it: the pc is at TVEC and the five trap registers hold SYSCALL,
the address after the `sys`, the code, 0 and TASKID; TSTAT shows a handler entered from a scalar word. Nothing else changes but
WSTAT.SKIP.
R25, R325: `brk` enters the handler in the same way, with TPC at itself and its word as TVAL, unless BKSTOP is set.
R25, R318, R320: a trap that no handler takes (another cause, no handler set, a handler already running, or a `brk` under BKSTOP)
stops the slot of an ungrafted thread: STALLED for the four causes that a resume can cure, otherwise STOPPED; the pc is at TPC, and the
record to post holds cause, role, TPC, TVAL, TVAL2, TASKID, VSTART, DEVTIME and account. The trap registers keep their values. -/
def Obligations.TrapWords : Prop :=
  (
  ∀ (s : State) (c : BitVec 12), Calm s → s.thr.sr.tvec ≠ 0 → s.thr.sr.tstat.getLsbD 0 = false →
    exec (.sys c) s = .next { s with
      thr.pc := s.thr.sr.tvec
      thr.sr.tcause := 0x1C
      thr.sr.tpc := s.thr.pc + 4
      thr.sr.tval := c.setWidth 64
      thr.sr.tval2 := 0
      thr.sr.torigin := s.thr.sr.taskid
      thr.sr.tstat := 1
      thr.sr.wstat := s.thr.sr.wstat &&& ~~~0x10 }) ∧
  (
  ∀ (s : State) (c : BitVec 12), Calm s → s.thr.sr.tvec ≠ 0 → s.thr.sr.tstat.getLsbD 0 = false → (dbgOf s).bkstop = false →
    exec (.brk c) s = .next { s with
      thr.pc := s.thr.sr.tvec
      thr.sr.tcause := 0x18
      thr.sr.tpc := s.thr.pc
      thr.sr.tval := (encode (.brk c)).setWidth 64
      thr.sr.tval2 := 0
      thr.sr.torigin := s.thr.sr.taskid
      thr.sr.tstat := 1
      thr.sr.wstat := s.thr.sr.wstat &&& ~~~0x10 }) ∧
  (
  ∀ (s : State) (w : BitVec 32) (c : Nat) (tpc v v2 : Word), s.slot.chain = none → c ≠ 0x30 → c ≠ 0x31 →
    (programCause c = false ∨ s.thr.sr.tvec = 0 ∨ s.thr.sr.tstat.getLsbD 0 = true ∨ (c = 0x18 ∧ (dbgOf s).bkstop = true)) →
    ∃ r : FaultRec, takeTrap w c tpc v v2 s = { s with
        thr.pc := tpc
        thr.sr.wstat := s.thr.sr.wstat &&& ~~~0x10
        slot.st := if c = 0x08 ∨ c = 0x0A ∨ c = 0x0B ∨ c = 0x0E then .stalled else .stopped
        slot.held := some r
        slot.posted := false } ∧
      r.cause = c ∧ r.role = s.cur.2 ∧ r.tpc = tpc ∧ r.tval = v ∧ r.tval2 = v2 ∧ r.torigin = s.thr.sr.taskid ∧
      r.vstart = s.thr.sr.vstart ∧ r.devtime = s.dev.devtime ∧ r.acct = s.slot.acct)

/-- R326: `eret` outside a handler traps ILLEGAL_INSTR with its word; with TPC not aligned it traps ALIGNMENT with TPC as TVAL and INH
stays 1; otherwise it goes on at TPC with INH 0, and VSTART, TSTAT.VEC and every other register keep their values. -/
def Obligations.EretReturns : Prop :=
  ∀ s, Calm s →
    exec .eret s = .next
      (if s.thr.sr.tstat.getLsbD 0 = false then takeTrap (encode .eret) 0x01 s.thr.pc ((encode .eret).setWidth 64) 0 s
       else if s.thr.sr.tpc.toNat % 4 ≠ 0 then takeTrap (encode .eret) 0x0C s.thr.pc s.thr.sr.tpc 0 s
       else retired (encode .eret) s.thr.sr.tpc { s with thr.sr.tstat := s.thr.sr.tstat &&& ~~~1 })

/-- R87, R88: jumps, calls and returns whose return stack needs no memory. A `call` pushes lk and sets it to the next address; `callr`
and `jr` do so, or only jump, to a register's address; `ret` jumps to lk and takes the newest entry, or 0 when there is none, as the
new lk.
R88: a register jump, call or return to an address that is not aligned traps ALIGNMENT with the address as TVAL; a call with 16
entries on chip whose spill its checks turn away traps STACK_SPILL with the spill's address; otherwise the oldest entry is stored to
rsbase + 8 × nspilled in the sync class and the call goes on. A `ret` with nothing on chip and entries spilled reads the newest back, a
load of the sync class, traps STACK_SPILL with its address where its checks turn it away, and waits where the load must wait. -/
def Obligations.CallsAndReturns : Prop :=
  (
  ∀ s, Calm s →
    (∀ o, exec (.jmp o) s = .next (retired (encode (.jmp o)) (s.thr.pc + 4 * o.signExtend 64) s)) ∧
    (∀ o, s.thr.hid.rstack.length < 16 → exec (.call o) s = .next (retired (encode (.call o)) (s.thr.pc + 4 * o.signExtend 64)
      (wx 1 (s.thr.pc + 4) { s with thr.hid.rstack := s.thr.hid.rstack ++ [rx s 1] }))) ∧
    (∀ a, NoPort s [a.toNat] → (xr s a).toNat % 4 = 0 → exec (.jr a) s = .next (retired (encode (.jr a)) (xr s a) s)) ∧
    (∀ a, NoPort s [a.toNat] → (xr s a).toNat % 4 = 0 → s.thr.hid.rstack.length < 16 →
      exec (.callr a) s = .next (retired (encode (.callr a)) (xr s a)
        (wx 1 (s.thr.pc + 4) { s with thr.hid.rstack := s.thr.hid.rstack ++ [rx s 1] }))) ∧
    ((rx s 1).toNat % 4 = 0 → ∀ l e, s.thr.hid.rstack = l ++ [e] →
      exec .ret s = .next (retired (encode .ret) (rx s 1) (wx 1 e { s with thr.hid.rstack := l }))) ∧
    ((rx s 1).toNat % 4 = 0 → s.thr.hid.rstack = [] → s.thr.hid.nspilled = 0 →
      exec .ret s = .next (retired (encode .ret) (rx s 1) (wx 1 0 s)))) ∧
  (
  ∀ s, Calm s →
    (∀ a, NoPort s [a.toNat] → (xr s a).toNat % 4 ≠ 0 → exec (.jr a) s = .next (takeTrap (encode (.jr a)) 0x0C s.thr.pc (xr s a) 0 s)) ∧
    (∀ a, NoPort s [a.toNat] → (xr s a).toNat % 4 ≠ 0 → exec (.callr a) s = .next (takeTrap (encode (.callr a)) 0x0C s.thr.pc (xr s a) 0 s)) ∧
    ((rx s 1).toNat % 4 ≠ 0 → exec .ret s = .next (takeTrap (encode .ret) 0x0C s.thr.pc (rx s 1) 0 s)) ∧
    (∀ o old rest, s.thr.hid.rstack = old :: rest → rest.length = 15 →
      let base := s.thr.hid.rsbase.toNat + 8 * s.thr.hid.nspilled
      (∀ c a, xlateRange (xlateAcc s true false base 8) base 8 = .error (c, a) →
        exec (.call o) s = .next (takeTrap (encode (.call o)) 0x0E s.thr.pc (w64 base) 0 s)) ∧
      (∀ locs, xlateRange (xlateAcc s true false base 8) base 8 = .ok locs →
        exec (.call o) s = .next (retired (encode (.call o)) (s.thr.pc + 4 * o.signExtend 64)
          (wx 1 (s.thr.pc + 4) { pushStore 15 base (wholeBytes (locs.map (·.key)) (leBytes 8 old.toNat)) s with
            thr.hid.nspilled := s.thr.hid.nspilled + 1
            thr.hid.rstack := rest ++ [rx s 1] })))) ∧
    ((rx s 1).toNat % 4 = 0 → s.thr.hid.rstack = [] → ∀ n, s.thr.hid.nspilled = n + 1 →
      let base := s.thr.hid.rsbase.toNat + 8 * n
      (∀ c a, xlateRange (xlateAcc s false false base 8) base 8 = .error (c, a) →
        exec .ret s = .next (takeTrap (encode .ret) 0x0E s.thr.pc (w64 base) 0 s)) ∧
      (∀ locs, xlateRange (xlateAcc s false false base 8) base 8 = .ok locs →
        (∀ bs, loadChecked s 15 base locs = .ok bs locs →
          exec .ret s = .next (retired (encode .ret) (rx s 1) (wx 1 (w64 (leNat bs)) (afterLoad 15 locs { s with thr.hid.nspilled := n })))) ∧
        (∀ q, loadChecked s 15 base locs = .wait q → exec .ret s = .next (waitHere (askFor q s))) ∧
        ∀ v v2 h, loadChecked s 15 base locs = .trap 0x30 v v2 h →
          exec .ret s = .next (takeTrap (encode .ret) 0x30 s.thr.pc (w64 v) (w64 (v2.getD 0)) s))))

/-- R12, R13: `mfs` of a listed register writes its value to xD; FPFLAGS, MFLAGS, VSTART and WSTAT wait while a matrix entry of the thread is
left. A SEL that R11 does not list traps ILLEGAL_INSTR. R12: `mts` to a writable register writes it; to MAXVL, CHKMODE or LPART it traps
PRIVILEGED, and to any other number ILLEGAL_INSTR, both with the word as TVAL. R6, R12, R14, R15, R40, R41, R149 to R151, R328, R329: what
a register reads after `mts` has written v to a writable one: its own fields by their access codes, and every other register as before.
Choices and readings of the model's own that it rests on: log 2, 3. -/
def Obligations.StateRegisters : Prop :=
  (
  ∀ (s : State) (d : BitVec 5) (sel : BitVec 12),
    (∀ v, readSreg s sel.toNat = some v → Calm s → NoPort s [d.toNat] →
      (sregWaits sel.toNat = false ∨ matrixBusy s = false) →
      exec (.mfs d sel) s = .next (retired (encode (.mfs d sel)) (s.thr.pc + 4) (wx d.toNat v s))) ∧
    (readSreg s sel.toNat = none → queuedAhead s = 0 →
      exec (.mfs d sel) s = .next (takeTrap (encode (.mfs d sel)) 0x01 s.thr.pc ((encode (.mfs d sel)).setWidth 64) 0 s))) ∧
  (
  ∀ (s : State) (a : BitVec 5) (sel : BitVec 12),
    (sregWritable sel.toNat = true → Calm s → NoPort s [a.toNat] → matrixBusy s = false →
      exec (.mts a sel) s = .next (retired (encode (.mts a sel)) (s.thr.pc + 4) (writeSreg sel.toNat (xr s a) s))) ∧
    (sel = 0x005 ∨ sel = 0x040 ∨ sel = 0x041 → queuedAhead s = 0 →
      exec (.mts a sel) s = .next (takeTrap (encode (.mts a sel)) 0x05 s.thr.pc ((encode (.mts a sel)).setWidth 64) 0 s)) ∧
    (sregWritable sel.toNat = false → sel ≠ 0x005 → sel ≠ 0x040 → sel ≠ 0x041 → queuedAhead s = 0 →
      exec (.mts a sel) s = .next (takeTrap (encode (.mts a sel)) 0x01 s.thr.pc ((encode (.mts a sel)).setWidth 64) 0 s))) ∧
  (
  ∀ (s : State) (sel : Nat) (v : Word), sregWritable sel = true →
    readSreg (writeSreg sel v s) sel = some
      (if sel = 0x10 then v &&& 0x1F07 else if sel = 0x11 then v &&& 0x1F else if sel = 0x18 then v &&& 7
       else if sel = 0x19 then v &&& 0xFFFFFFFF else if sel = 0x1A then v &&& 7 else if sel = 0x20 then v &&& 0xFF
       else if sel = 0x25 then v &&& 0xFFFFFFFFFFFFC else if sel = 0x26 then (s.thr.sr.tstat &&& ~~~1) ||| (v &&& 1)
       else if 0x48 ≤ sel ∧ sel ≤ 0x4B then v &&& 0xFC0FFFFFFFFFFFFF
       else if sel = 0x4C then (s.thr.sr.wstat &&& 0xF &&& ~~~v) ||| (v &&& 0x10) else v) ∧
    ∀ other, other ≠ sel → readSreg (writeSreg sel v s) other = readSreg s other)

/-- R24, R46, R98, R113 to R126: an elementwise word none of whose raised flags FPCTL enables gives every element that it writes its code,
leaves every other element of its destination and every other register as it was, raises the flags of the elements written, and sets
VSTART to 0; every other piece of state but the share charge and the replay queue keeps its value. R24, R46, R47: the first element
written that raises an enabled flag traps FP_EXCEPTION: VSTART names it, the elements before it are written and their flags merged, it and
the later ones are not. Choices and readings of the model's own that it rests on: log 2, 8, 16, 19, 60. -/
def Obligations.ElementwiseWords : Prop :=
  (
  ∀ (s : State) (i : Instr) (F : VecForm), vecForm s i = some F → VecReady s F →
    (∀ j, written s F.k j → enabledFlags s (F.val j).2 = 0) →
    ∃ t, exec i s = .next (retired (encode i) (s.thr.pc + 4) t) ∧ OnlyVectors (encode i) (raised s F) s t ∧
      (∀ j, j < groupLen s F.ew F.g →
        (written s F.k j → elemV t F.d.toNat F.ew j = (F.val j).1 % 2 ^ F.ew) ∧
        (¬ written s F.k j → elemV t F.d.toNat F.ew j = elemV s F.d.toNat F.ew j)) ∧
      ∀ r, r < F.d.toNat ∨ F.d.toNat + F.g ≤ r → rv t r = rv s r) ∧
  (
  ∀ (s : State) (i : Instr) (F : VecForm) (e : Nat), vecForm s i = some F → VecReady s F → written s F.k e →
    enabledFlags s (F.val e).2 ≠ 0 → (∀ j, j < e → written s F.k j → enabledFlags s (F.val j).2 = 0) →
    ∃ t, exec i s = .next (takeTrap (encode i) 0x10 s.thr.pc (w64 (enabledFlags s (F.val e).2)) 0 t) ∧ vsN t = e ∧
      t.thr.sr.fpflags = s.thr.sr.fpflags |||
        w64 ((upFrom (vsN s) (e - vsN s)).foldl (fun m j => if activeAt s F.k.toNat j then m ||| (F.val j).2 else m) 0 % 32) ∧
      (∀ j, j < groupLen s F.ew F.g →
        (written s F.k j ∧ j < e → elemV t F.d.toNat F.ew j = (F.val j).1 % 2 ^ F.ew) ∧
        (¬ (written s F.k j ∧ j < e) → elemV t F.d.toNat F.ew j = elemV s F.d.toNat F.ew j)) ∧
      ∀ r, r < F.d.toNat ∨ F.d.toNat + F.g ≤ r → rv t r = rv s r)

/-- R24, R98, R115, R119, R121: a compare, a mask-logic word or `vuniq` none of whose raised flags FPCTL enables writes its mask register from
VSTART up to vl: an active index gets its bit, one that the mask or EXM leaves out keeps it, and one from VLVALID on gets 0 (for `vuniq`
an index that is not active gets 0); higher bits and every other mask register keep theirs, and a write to k0 is discarded. Choices and
readings of the model's own that it rests on: log 2, 15, 16, 60. -/
def Obligations.MaskWords : Prop :=
  ∀ (s : State) (i : Instr) (F : MaskForm), maskForm s i = some F → MaskReady s F →
    (∀ j b, vsN s ≤ j → j < vlN s → F.val j = some b → enabledFlags s b.2 = 0) →
    ∃ t, exec i s = .next (retired (encode i) (s.thr.pc + 4) t) ∧
      OnlyMasks (encode i) ((upFrom (vsN s) (vlN s - vsN s)).foldl (fun m j => m ||| ((F.val j).getD (false, 0)).2) 0) s t ∧
      (∀ j, (rk t F.d.toNat).toNat.testBit j =
        if F.d ≠ 0 ∧ vsN s ≤ j ∧ j < vlN s then ((F.val j).map Prod.fst).getD ((rk s F.d.toNat).toNat.testBit j)
        else (rk s F.d.toNat).toNat.testBit j) ∧
      ∀ r, r ≠ F.d.toNat → rk t r = rk s r

/-- R24, R47, R49, R122, R233: a reduction started at or above vl only sets VSTART to 0; otherwise, with none of its flags enabled, it merges
them and puts its result into xD, or into the low bits of element 0 of vD and leaves all else of the vector registers; with an enabled
flag it traps FP_EXCEPTION, writes nothing, and VSTART is 0. Choices and readings of the model's own that it rests on: log 2, 16, 87. -/
def Obligations.Reductions : Prop :=
  ∀ (s : State) (i : Instr) (F : RedForm), redForm s i = some F → VectorOk s → fmtN s ≠ 0 → F.ok = true → GroupOk s (F.a.toNat, grpN s) →
    NoPort s [F.d.toNat] →
    let base := { chargeReduction s with thr.sr.vstart := 0 }
    (vlN s ≤ vsN s → exec i s = .next (retired (encode i) (s.thr.pc + 4) (capture (encode i) { s with thr.sr.vstart := 0 }))) ∧
    (vsN s < vlN s → enabledFlags s F.fl ≠ 0 →
      exec i s = .next (takeTrap (encode i) 0x10 s.thr.pc (w64 (enabledFlags s F.fl)) 0 base)) ∧
    (vsN s < vlN s → enabledFlags s F.fl = 0 →
      ∃ u, exec i s = .next (retired (encode i) (s.thr.pc + 4) (capture (encode i) u)) ∧
        (F.t = 1 → u = wx F.d.toNat F.val (mergeFlags F.fl base)) ∧
        (F.t = 0 → u = { mergeFlags F.fl base with thr.v := u.thr.v, thr.hid.units := u.thr.hid.units } ∧
          (rv u F.d.toNat).toNat % 2 ^ F.ew = F.val.toNat % 2 ^ F.ew ∧
          (rv u F.d.toNat).toNat / 2 ^ F.ew = (rv s F.d.toNat).toNat / 2 ^ F.ew ∧ ∀ r, r ≠ F.d.toNat → rv u r = rv s r))

/-- R24, R119, R120, R128: `kcount` and `klowest` count from VSTART and write xD; `vget` writes xD unless VSTART is above 0 and its element
lies below VSTART or VSTART is at or above vl. All set VSTART to 0. Choices and readings of the model's own that it rests on: log 2, 15,
16, 86. -/
def Obligations.CountsAndElements : Prop :=
  ∀ (s : State) (i : Instr) (F : XForm), xForm s i = some F → VectorOk s → fmtN s ≠ 0 → (∀ r ∈ F.vr, GroupOk s (r.toNat, grpN s)) →
    NoPort s ((F.d :: F.xs).map BitVec.toNat) →
    exec i s = .next (retired (encode i) (s.thr.pc + 4) (capture (encode i)
      (match F.val with
      | some v => wx F.d.toNat v { chargeWord (ewN s) s with thr.sr.vstart := 0 }
      | none => { chargeWord (ewN s) s with thr.sr.vstart := 0 })))

/-- R24, R120: `vput` writes the element that x[B] names where it is active and at or above VSTART; `vpack` writes the active elements of its
source side by side from position VSTART up. Every other element and register keeps its value, and VSTART is 0. Choices and readings of
the model's own that it rests on: log 2, 16. -/
def Obligations.PlacingWords : Prop :=
  ∀ (s : State) (i : Instr) (F : PlaceForm), placeForm s i = some F → VectorOk s → fmtN s ≠ 0 → F.own = true →
    (∀ r ∈ F.vr, GroupOk s (r.toNat, grpN s)) → GroupOk s (F.d.toNat, grpN s) → NoPort s (F.xs.map BitVec.toNat) →
    vvN s ≤ groupLen s (ewN s) (grpN s) →
    ∃ t, exec i s = .next (retired (encode i) (s.thr.pc + 4) t) ∧ OnlyVectors (encode i) 0 s t ∧
      (∀ j, j < groupLen s (ewN s) (grpN s) → elemV t F.d.toNat (ewN s) j =
        match F.val j with
        | some c => c % 2 ^ ewN s
        | none => elemV s F.d.toNat (ewN s) j) ∧
      ∀ r, r < F.d.toNat ∨ F.d.toNat + grpN s ≤ r → rv t r = rv s r

/-- R24, R102, R104, R112, R204, R261: a scatter-add whose checks pass up to index e adds, at each distinct address of the active elements
below e, the sum of their elements in ascending order to the memory there, in the format of VTYPE; every other byte keeps its value. With
e equal to vl it goes on with VSTART 0; with the check of an active index e failing it traps with that check's cause, TVAL and HIT bits
and with e as TVAL2, and VSTART is e. No register changes. No frame is retired, no watch is set and no other device is named here. Choices
and readings of the model's own that it rests on: log 2, 4, 18. -/
def Obligations.ScatterAdds : Prop :=
  ∀ (s : State) (i : Instr) (d a b : BitVec 5) (k : BitVec 3) (c : BitVec 4) (e : Nat) (locs : Nat → List Loc),
    scatForm i = some (d, a, b, k, c) → VectorOk s → scatFmt (fmtN s) = true → storeRole s = true →
    GroupOk s (d.toNat, grpN s) → GroupOk s (b.toNat, grpN s) → NoPort s [a.toNat] → vlN s ≤ groupLen s (ewN s) (grpN s) →
    s.dev.retire = [] → s.dev.mwatch = [] → atomicWaits s c.toNat = false → vsN s ≤ e → e ≤ vlN s →
    let n := ewN s / 8
    let va := fun j => wrap ((xr s a).toNat + elemV s b.toNat (ewN s) j * n)
    let hit := fun j => written s k j ∧ j < e
    (∀ j, hit j → checkAccess s true n (va j) n = .ok (locs j) ∧ ((locs j).map (·.key)).Nodup ∧ (∀ l ∈ locs j, l.kind ≠ .remote) ∧
      overlapsPending s ((locs j).map (·.key)) = false) →
    (∀ j m, hit j → hit m → va j ≠ va m → ∀ x ∈ locs j, ∀ y ∈ locs m, x.key ≠ y.key) →
    let sum := fun j => match (upFrom (vsN s) (e - vsN s)).filter (fun m => activeAt s k.toNat m && va m = va j) with
      | [] => 0
      | x :: r => r.foldl (fun acc m => scatAdd (fmtN s) acc (elemV s d.toNat (ewN s) m)) (elemV s d.toNat (ewN s) x)
    let old := fun (t : State) (j : Nat) => leNat ((locs j).map (fun l => readByte t.dev l.key))
    let Done := fun (t : State) =>
      (∀ j, hit j → old t j = scatAdd (fmtN s) (old s j) (sum j) % 2 ^ ewN s) ∧
      (∀ key, (∀ j, hit j → ∀ l ∈ locs j, l.key ≠ key) → readByte t.dev key = readByte s.dev key) ∧
      t = { s with
        thr.sr.vstart := t.thr.sr.vstart, thr.pnd.l1dMin := t.thr.pnd.l1dMin, thr.pnd.replay := t.thr.pnd.replay, dev.mem := t.dev.mem
        dev.poison := t.dev.poison, dev.acnt := t.dev.acnt, dev.queues := t.dev.queues, dev.ser := t.dev.ser, dev.l1d := t.dev.l1d }
    (e = vlN s → ∃ t, exec i s = .next (retired (encode i) (s.thr.pc + 4) t) ∧ Done t ∧ vsN t = 0 ∧
      t.thr.pnd.replay = s.thr.pnd.replay ++ [captured (encode i) s]) ∧
    (∀ cause v h, written s k e → checkAccess s true n (va e) n = .trap cause v h →
      ∃ t, exec i s = .next (takeTrap (encode i) cause s.thr.pc (w64 v) (w64 e) (setHits h t)) ∧ Done t ∧ vsN t = e ∧
        t.thr.pnd.replay = s.thr.pnd.replay)

/-- R24, R39, R46, R127: `vcvtmx` with no enabled flag gives every element that it writes the code of its block's scale, and every block that
holds an element from VSTART up its scale byte in the register behind the destination; the scale and the flags of a block are those of all
its active elements. The other elements, bytes and registers keep their values. At or above vl it only sets VSTART to 0. The first block
that raises an enabled flag traps FP_EXCEPTION with VSTART at its first element. Choices and readings of the model's own that it rests on:
log 2, 16, 22. -/
def Obligations.BlockConversions : Prop :=
  ∀ (s : State) (d a : BitVec 5) (sf : BitVec 1) (k : BitVec 3) (h : BitVec 2) (f : BitVec 3) (e : Nat),
    let i : Instr := .vcvtmx d a sf k h f
    let dst := mxFormat f.toNat
    let ew := fmtEw dst
    let g := convFactor (grpN s) ew (ewN s)
    let n := if sf = 1 then 16 else 32
    let act := fun j => (upFrom (j * n) (min n (vlN s - j * n))).filter (fun x => activeAt s k.toNat x)
    let scale := fun j => mxScale dst ((act j).map (convSource s a))
    let code := fun x => mxCode dst (scale (x / n)) (rmN s) (convSource s a x)
    let flags := fun (lo hi : Nat) => ((upFrom lo (hi - lo)).flatMap act).foldl (fun m x => m ||| (code x).2) 0
    let first := vsN s / n
    let blocks := ceilDiv (vlN s) n
    let Written := fun (t : State) (hi : Nat) =>
      (∀ x, x < groupLen s ew g → elemV t d.toNat ew x = if written s k x ∧ x < hi * n then (code x).1 % 2 ^ ew else elemV s d.toNat ew x) ∧
      (∀ j, j < perReg (vmN s) 8 → elemV t (d.toNat + g) 8 j = if first ≤ j ∧ j < hi then scale j else elemV s (d.toNat + g) 8 j) ∧
      ∀ r, r < d.toNat ∨ d.toNat + g < r → rv t r = rv s r
    VectorOk s → floatOk s = true → convRegs s (d.toNat, g) (a.toNat, grpN s) [] [(d.toNat + g, 1)] = true →
    GroupOk s (d.toNat, g) → GroupOk s (a.toNat, grpN s) → vlN s ≤ groupLen s ew g → blocks ≤ perReg (vmN s) 8 →
    (vlN s ≤ vsN s → exec i s = .next (retired (encode i) (s.thr.pc + 4) (capture (encode i) { s with thr.sr.vstart := 0 }))) ∧
    (vsN s < vlN s → (∀ j, first ≤ j → j < blocks → enabledFlags s (flags j (j + 1)) = 0) →
      ∃ t, exec i s = .next (retired (encode i) (s.thr.pc + 4) t) ∧ OnlyVectors (encode i) (flags first blocks) s t ∧ Written t blocks) ∧
    (vsN s < vlN s → first ≤ e → e < blocks → (∀ j, first ≤ j → j < e → enabledFlags s (flags j (j + 1)) = 0) →
      enabledFlags s (flags e (e + 1)) ≠ 0 →
      ∃ t, exec i s = .next (takeTrap (encode i) 0x10 s.thr.pc (w64 (enabledFlags s (flags e (e + 1)))) 0 t) ∧ vsN t = e * n ∧ Written t e ∧
        t.thr.sr.fpflags = s.thr.sr.fpflags ||| w64 (flags first e % 32))

/-- R24, R35, R46, R138, R142, R345, R360: `zmv` gives every element from VSTART up to vl the tile element at row R and column 32 × W + its
index, rounded to VTYPE's format, or 0 where VLVALID or the columns end; from a tile that is poisoned, or that a latent error poisons now,
it traps DATA_LOSS. `zmvt` writes those tile elements from the group as FP32 codes and marks the tile; nothing else of the tiles changes.
Both wait for earlier matrix words on the tile. Choices and readings of the model's own that it rests on: log 2, 16, 98. -/
def Obligations.TileMoves : Prop :=
  ∀ (s : State) (z : BitVec 4) (a : BitVec 5) (w : BitVec 2) (r : BitVec 3), VectorOk s → s.cur.2 = 1 → floatOk s = true → tileOk s z.toNat = true →
    GroupOk s (a.toNat, grpN s) → vlN s ≤ groupLen s (ewN s) (grpN s) →
    let n := colsN s
    let i : Instr := .zmv z a w r
    let j : Instr := .zmvt z a w r
    let at' := fun x => r.toNat * n + 32 * w.toNat + x
    let inside := fun x => x < vvN s ∧ 32 * w.toNat + x < n
    let v := fun x => foperand 9 (ftzN s) (elemOf (tileOf s z.toNat).toNat 32 (at' x))
    let code := fun x => if inside x then roundTo (fmtN s) (rmN s) (satN s) (ftzN s) (v x) else (0, 0)
    let fl := fun x => if inside x then (code x).2 ||| sigNV [v x] else 0
    (s.slot.mxq.any (touchesTile z.toNat) = true → exec i s = .next (waitHere s) ∧ exec j s = .next (waitHere s)) ∧
    (s.slot.mxq.any (touchesTile z.toNat) = false →
      (∀ l, (∀ e ∈ l, e.cls = 0 ∨ e.cls = 8) → let hurt := { s with thr.hid.damaged := l }
        latent hurt 0 z.toNat = true →
        exec i hurt = .next (takeTrap (encode i) 0x30 s.thr.pc (w64 z.toNat) (w64 (2 ^ 63 + r.toNat * n + 32 * w.toNat + vsN s)) (meetTile z.toNat 0 hurt))) ∧
      (latent s 0 z.toNat = false → tilePoisoned s z.toNat = true →
        exec i s = .next (takeTrap (encode i) 0x30 s.thr.pc (w64 z.toNat) (w64 (2 ^ 63 + r.toNat * n + 32 * w.toNat + vsN s)) s)) ∧
      (latent s 0 z.toNat = false → tilePoisoned s z.toNat = false → (∀ x, vsN s ≤ x → x < vlN s → enabledFlags s (fl x) = 0) →
        ∃ t, exec i s = .next (retired (encode i) (s.thr.pc + 4) t) ∧
          OnlyVectors (encode i) ((upFrom (vsN s) (vlN s - vsN s)).foldl (fun m x => m ||| fl x) 0) s t ∧
          (∀ x, x < groupLen s (ewN s) (grpN s) →
            elemV t a.toNat (ewN s) x = if vsN s ≤ x ∧ x < vlN s then (code x).1 % 2 ^ ewN s else elemV s a.toNat (ewN s) x) ∧
          ∀ q, q < a.toNat ∨ a.toNat + grpN s ≤ q → rv t q = rv s q) ∧
      (∃ t, exec j s = .next (retired (encode j) (s.thr.pc + 4) t) ∧
        t = { chargeWord (ewN s) s with slot.z := t.slot.z, slot.zdirty := t.slot.zdirty, thr.sr.vstart := 0 } ∧
        (∀ x, vsN s ≤ x → x < vlN s → inside x →
          elemOf (tileOf t z.toNat).toNat 32 (at' x) = widenExact s (elemV s a.toNat (ewN s) x) % 2 ^ 32) ∧
        (∀ q, (∀ x, vsN s ≤ x → x < vlN s → inside x → q ≠ at' x) → elemOf (tileOf t z.toNat).toNat 32 q = elemOf (tileOf s z.toNat).toNat 32 q) ∧
        (∀ q, q ≠ z.toNat → tileOf t q = tileOf s q) ∧
        t.slot.zdirty = if (upFrom (vsN s) (vlN s - vsN s)).any (fun x => decide (inside x)) then
          s.slot.zdirty ||| BitVec.ofNat 16 (2 ^ z.toNat) else s.slot.zdirty))

/-- R24, R147 to R149, R151, R153 to R159, R161: a word over pairs of FP32 values gives every pair that it writes the mean and variance of its
rule, leaves every other pair and register as it was, raises FPFLAGS and MFLAGS of the pairs written, and sets VSTART to 0. The first
written pair that raises an enabled flag traps FP_EXCEPTION, one whose variance is negative under NEG = FAULT traps NEG_VARIANCE with the
variance as TVAL and its index as TVAL2; VSTART names it, and only the pairs before it are written. R24, R46, R148, R160: a collapsing
word with no enabled flag gives every element that it writes its FP32 code: the mean, the variance, the standard deviation, or the mean
plus or minus a multiple of it; everything else is as after an elementwise word. Choices and readings of the model's own that it rests on:
log 2, 8, 16, 21, 88. -/
def Obligations.MomentWords : Prop :=
  (
  ∀ (s : State) (i : Instr) (F : MomentForm) (e : Nat), momentForm s i = some F → MomentReady s (F.d :: F.mr) F.vr F.xs →
    (∀ j, j < e → written s F.k j → enabledFlags s (F.val j).fl = 0 ∧ (F.val j).neg = none) →
    let Done := fun (t : State) (replay : List Replay) =>
      t = { chargeWord 64 s with
        thr.m := t.thr.m
        thr.hid.units := t.thr.hid.units
        thr.sr.vstart := t.thr.sr.vstart
        thr.sr.fpflags := s.thr.sr.fpflags ||| w64 (gathered s F.k e (fun j => (F.val j).fl) % 32)
        thr.sr.mflags := s.thr.sr.mflags ||| w64 (gathered s F.k e (fun j => (F.val j).mfl) % 8)
        thr.pnd.replay := replay } ∧
      (∀ j, j < pairsLen s → pairM t F.d.toNat j =
        if written s F.k j ∧ j < e then ((F.val j).mu % 2 ^ 32, (F.val j).v % 2 ^ 32) else pairM s F.d.toNat j) ∧
      ∀ r, r < F.d.toNat ∨ F.d.toNat + grpN s ≤ r → rm t r = rm s r
    (e = max (vlN s) (vsN s) → ∃ t, exec i s = .next (retired (encode i) (s.thr.pc + 4) t) ∧
      Done t (s.thr.pnd.replay ++ [captured (encode i) s]) ∧ t.thr.sr.vstart = 0) ∧
    (written s F.k e → enabledFlags s (F.val e).fl ≠ 0 →
      ∃ t, exec i s = .next (takeTrap (encode i) 0x10 s.thr.pc (w64 (enabledFlags s (F.val e).fl)) 0 t) ∧ Done t s.thr.pnd.replay ∧ vsN t = e) ∧
    (∀ v, written s F.k e → enabledFlags s (F.val e).fl = 0 → (F.val e).neg = some v →
      ∃ t, exec i s = .next (takeTrap (encode i) 0x12 s.thr.pc (w64 v) (w64 e) t) ∧ Done t s.thr.pnd.replay ∧ vsN t = e)) ∧
  (
  ∀ (s : State) (i : Instr) (F : CollapseForm), collapseForm s i = some F → MomentReady s [F.a] (F.d :: F.vr) F.xs → F.own = true →
    (∀ j, written s F.k j → enabledFlags s (F.val j).2 = 0) →
    ∃ t, exec i s = .next (retired (encode i) (s.thr.pc + 4) t) ∧
      t = { chargeWord 64 s with
        thr.v := t.thr.v
        thr.hid.units := t.thr.hid.units
        thr.sr.vstart := 0
        thr.sr.fpflags := s.thr.sr.fpflags ||| w64 (gathered s F.k (vlN s) (fun j => (F.val j).2) % 32)
        thr.pnd.replay := s.thr.pnd.replay ++ [captured (encode i) s] } ∧
      (∀ j, j < pairsLen s → elemV t F.d.toNat 32 j = if written s F.k j then (F.val j).1 % 2 ^ 32 else elemV s F.d.toNat 32 j) ∧
      ∀ r, r < F.d.toNat ∨ F.d.toNat + grpN s ≤ r → rv t r = rv s r)

/-- R24, R104, R162: `mold` reads a pair of 8 bytes at x[A] + 8 × its index for every active index, brings it in by the rules of R153 and
R154, and gives an index from VLVALID up to vl the pair (0, 0); `most` puts one store of the 8 bytes of each active pair behind the
thread's earlier stores. A base that is no multiple of 8 traps ALIGNMENT at the first active index. Choices and readings of the model's
own that it rests on: log 2, 4, 6. -/
def Obligations.PairMemory : Prop :=
  ∀ (s : State) (d : BitVec 3) (a : BitVec 5) (c : BitVec 4) (k : BitVec 3) (h : BitVec 2), MomentReady s [d] [] [a] →
    let i : Instr := .mold d a c k h
    let o : Instr := .most d a c k h
    let va := fun j => ((xr s a).toNat + 8 * j) % 2 ^ 64
    (∀ e, (xr s a).toNat % 8 ≠ 0 → written s k e → (∀ j, j < e → ¬ written s k j) → loadWaits s c.toNat = false →
      (∃ t, exec i s = .next (takeTrap (encode i) 0x0C s.thr.pc (xr s a) (w64 e) t) ∧ vsN t = e ∧ ∀ r, rm t r = rm s r) ∧
      (∃ t, exec o s = .next (takeTrap (encode o) 0x0C s.thr.pc (xr s a) (w64 e) t) ∧ vsN t = e ∧ t.thr.pnd.stores = s.thr.pnd.stores)) ∧
    (∀ (bs : Nat → List Byte) (locs : Nat → List Loc), (xr s a).toNat % 8 = 0 → loadWaits s c.toNat = false →
      (c = 15 → ∀ e ∈ s.slot.mxq, e.op ≠ .zld ∧ e.op ≠ .zst) →
      let val := fun j => intoPair (negFault s) (leNat (bs j) % 2 ^ 32) (leNat (bs j) / 2 ^ 32 % 2 ^ 32)
      (∀ j, written s k j → loadBytes s c.toNat 8 (va j) 8 = .ok (bs j) (locs j) ∧ enabledFlags s (val j).fl = 0 ∧ (val j).neg = none) →
      ∃ t, exec i s = .next (retired (encode i) (s.thr.pc + 4) t) ∧
        t = { s with
          thr.m := t.thr.m, thr.hid.units := t.thr.hid.units, thr.sr.vstart := 0, thr.pnd.l1dMin := t.thr.pnd.l1dMin
          thr.sr.fpflags := s.thr.sr.fpflags ||| w64 (gathered s k (vlN s) (fun j => (val j).fl) % 32)
          thr.sr.mflags := s.thr.sr.mflags ||| w64 (gathered s k (vlN s) (fun j => (val j).mfl) % 8)
          thr.pnd.replay := s.thr.pnd.replay ++ [captured (encode i) s], dev.acnt := t.dev.acnt, dev.queues := t.dev.queues, dev.ser := t.dev.ser
          dev.fab := (allAnswered s).dev.fab } ∧
        (∀ j, j < pairsLen s → pairM t d.toNat j =
          if written s k j then ((val j).mu % 2 ^ 32, (val j).v % 2 ^ 32)
          else if vvN s ≤ j ∧ vsN s ≤ j ∧ j < vlN s then (0, 0) else pairM s d.toNat j) ∧
        ∀ r, r < d.toNat ∨ d.toNat + grpN s ≤ r → rm t r = rm s r) ∧
    (∀ locs : Nat → List Loc, (xr s a).toNat % 8 = 0 → (∀ j, written s k j → checkAccess s true 8 (va j) 8 = .ok (locs j)) →
      let u := { s with
          thr.sr.vstart := 0
          thr.pnd.stores := s.thr.pnd.stores ++ ((upFrom (vsN s) (vlN s - vsN s)).filter (activeAt s k.toNat)).map (fun j =>
            ⟨s.dev.ser + 1, c.toNat, 0, 0, 0, spanBytes (locs j) (2 ^ 64 - 1) ((pairAt s d j).1 + (pairAt s d j).2 * 2 ^ 32),
              s.thr.sr.taskid, va j, none⟩)
          thr.pnd.replay := s.thr.pnd.replay ++ [captured (encode o) s]
          dev.ser := s.dev.ser + 1 }
      exec o s = .next (retired (encode o) (s.thr.pc + 4) { noteWhole u with
        dev.acnt := (chargeWord 64 s).dev.acnt, dev.queues := (chargeWord 64 s).dev.queues }))

/-- R24, R98, R103 to R107, R110: a vector load whose accesses all pass gives every index that it touches the bits read there, every padding
index (from VLVALID on, or past the end of its stream) 0, and with blocks every block touched its scale byte in the companion register;
every other element, scale byte and register keeps its value. VSTART is 0, a stream register is stepped, and no memory changes. R24, R104,
R107, R317, R382: a vector load stops at the first touched index one of whose accesses traps, the element's or at the first access of a
block the scale byte's: it traps with the cause, TVAL and HIT bits of that access and as TVAL2 the index or the device that is lost, and
VSTART names the index; the elements and scale bytes before it are loaded, it and the later ones are as they were. Choices and readings of
the model's own that it rests on: log 2, 4, 16, 23, 85. -/
def Obligations.VectorLoads : Prop :=
  (
  ∀ (s : State) (i : Instr) (F : MemWord) (bs sb : Nat → List Byte) (locs sl : Nat → List Loc), vecLoad s i = some F → MemReady s F →
    loadWaits s F.cls.toNat = false → (F.cls = 15 → ∀ e ∈ s.slot.mxq, e.op ≠ .zld ∧ e.op ≠ .zst) → (F.blk ≠ 0 → s.dev.poison = []) →
    (∀ j, accesses s F j = true →
      let b := bitSpan (F.bitAt j) (ewN s)
      (8 ≤ ewN s → b.2.2 = 0) ∧ loadBytes s F.cls.toNat (elemAlign s) b.1 b.2.1 = .ok (bs j) (locs j) ∧
      (F.blk ≠ 0 → loadBytes s F.cls.toNat 1 (F.scaleAt (j / F.blk)) 1 = .ok (sb (j / F.blk)) (sl (j / F.blk)))) →
    ∃ t, exec i s = .next (retired (encode i) (s.thr.pc + 4) t) ∧
      t = { s with
        thr.v := t.thr.v, thr.hid.units := t.thr.hid.units, thr.s := streamsAfter s F, thr.sr.vstart := 0, thr.pnd.l1dMin := t.thr.pnd.l1dMin
        thr.pnd.replay := s.thr.pnd.replay ++ [captured (encode i) s], dev.acnt := t.dev.acnt, dev.queues := t.dev.queues, dev.ser := t.dev.ser
        dev.fab := (allAnswered s).dev.fab } ∧
      (∀ j, j < groupLen s (ewN s) (grpN s) → elemV t F.d.toNat (ewN s) j =
        if accesses s F j = true then bits (leNat (bs j)) (bitSpan (F.bitAt j) (ewN s)).2.2 (ewN s)
        else if vsN s ≤ j ∧ j < vlN s ∧ F.isElem j = false then 0
        else elemV s F.d.toNat (ewN s) j) ∧
      (∀ j, F.blk ≠ 0 → accesses s F j = true → elemV t (F.d.toNat + grpN s) 8 (j / F.blk) = leNat (sb (j / F.blk)) % 256) ∧
      (∀ q, F.blk ≠ 0 → q < perReg (vmN s) 8 → (∀ j, accesses s F j = true → j / F.blk ≠ q) →
        elemV t (F.d.toNat + grpN s) 8 q = elemV s (F.d.toNat + grpN s) 8 q) ∧
      ∀ r, r < F.d.toNat ∨ F.d.toNat + grpN s + (if F.blk = 0 then 0 else 1) ≤ r → rv t r = rv s r) ∧
  (
  ∀ (s : State) (i : Instr) (F : MemWord) (e c v h : Nat) (v2 : Option Nat) (bs sb : Nat → List Byte) (locs sl : Nat → List Loc),
    vecLoad s i = some F → MemReady s F →
    loadWaits s F.cls.toNat = false → (F.cls = 15 → ∀ x ∈ s.slot.mxq, x.op ≠ .zld ∧ x.op ≠ .zst) → (F.blk ≠ 0 → s.dev.poison = []) →
    accesses s F e = true →
    let b := fun j => bitSpan (F.bitAt j) (ewN s)
    (∀ j, j < e → accesses s F j = true →
      (8 ≤ ewN s → (b j).2.2 = 0) ∧ loadBytes s F.cls.toNat (elemAlign s) (b j).1 (b j).2.1 = .ok (bs j) (locs j) ∧
      (F.blk ≠ 0 → loadBytes s F.cls.toNat 1 (F.scaleAt (j / F.blk)) 1 = .ok (sb (j / F.blk)) (sl (j / F.blk)))) →
    indexTrap s F (loadBytes s F.cls.toNat) e = some (c, v, v2, h) →
    ∃ t, exec i s = .next (takeTrap (encode i) c s.thr.pc (w64 v) (w64 (v2.getD (trapIndex s F e))) (setHits h t)) ∧
      vsN t = e ∧ t.thr.s = s.thr.s ∧ t.dev.mem = s.dev.mem ∧
      (∀ j, j < groupLen s (ewN s) (grpN s) → elemV t F.d.toNat (ewN s) j =
        if accesses s F j = true ∧ j < e then bits (leNat (bs j)) (b j).2.2 (ewN s)
        else if vsN s ≤ j ∧ j < e ∧ F.isElem j = false then 0
        else elemV s F.d.toNat (ewN s) j) ∧
      (∀ j, F.blk ≠ 0 → accesses s F j = true → j < e → elemV t (F.d.toNat + grpN s) 8 (j / F.blk) = leNat (sb (j / F.blk)) % 256) ∧
      (∀ q, F.blk ≠ 0 → q < perReg (vmN s) 8 → (∀ j, accesses s F j = true → j < e → j / F.blk ≠ q) →
        elemV t (F.d.toNat + grpN s) 8 q = elemV s (F.d.toNat + grpN s) 8 q) ∧
      ∀ r, r < F.d.toNat ∨ F.d.toNat + grpN s + (if F.blk = 0 then 0 else 1) ≤ r → rv t r = rv s r)

/-- R24, R35, R98, R103 to R107, R110, R250: a vector store whose accesses all pass puts one store for each index that it accesses, and one
for each block's scale byte, behind the thread's earlier stores, with the bits that the element covers; no byte of memory changes until
they are performed, and the poisoned units that it writes whole are noted (R363). VSTART is 0, a stream register is stepped, and no
register changes. R24, R104, R107, R317: a vector store stops at the first index one of whose accesses its checks turn away, as a load
does; the stores of the indices before it stay, their scale bytes' included. Choices and readings of the model's own that it rests on: log
2, 6, 16, 23. -/
def Obligations.VectorStores : Prop :=
  (
  ∀ (s : State) (i : Instr) (F : MemWord) (locs sl : Nat → List Loc), vecStore s i = some F → MemReady s F →
    (∀ j, accesses s F j = true →
      let b := bitSpan (F.bitAt j) (ewN s)
      (8 ≤ ewN s → b.2.2 = 0) ∧ checkAccess s true (elemAlign s) b.1 b.2.1 = .ok (locs j) ∧
      (F.blk ≠ 0 → checkAccess s true 1 (F.scaleAt (j / F.blk)) 1 = .ok (sl (j / F.blk)))) →
    let u := { s with
      thr.s := streamsAfter s F, thr.sr.vstart := 0, thr.pnd.stores := s.thr.pnd.stores ++ vecStores s F locs sl (vlN s)
      thr.pnd.replay := s.thr.pnd.replay ++ [captured (encode i) s], dev.ser := s.dev.ser + 1 }
    exec i s = .next (retired (encode i) (s.thr.pc + 4) { noteWhole u with
      dev.acnt := (chargeWord (ewN s) s).dev.acnt, dev.queues := (chargeWord (ewN s) s).dev.queues })) ∧
  (
  ∀ (s : State) (i : Instr) (F : MemWord) (e c v h : Nat) (v2 : Option Nat) (locs sl : Nat → List Loc), vecStore s i = some F → MemReady s F →
    accesses s F e = true →
    let b := fun j => bitSpan (F.bitAt j) (ewN s)
    (∀ j, j < e → accesses s F j = true →
      (8 ≤ ewN s → (b j).2.2 = 0) ∧ checkAccess s true (elemAlign s) (b j).1 (b j).2.1 = .ok (locs j) ∧
      (F.blk ≠ 0 → checkAccess s true 1 (F.scaleAt (j / F.blk)) 1 = .ok (sl (j / F.blk)))) →
    indexTrap s F (fun al va n => asGot (checkAccess s true al va n)) e = some (c, v, v2, h) →
    ∃ t, exec i s = .next (takeTrap (encode i) c s.thr.pc (w64 v) (w64 (trapIndex s F e)) (setHits h t)) ∧ vsN t = e ∧
      t.thr.pnd.stores = s.thr.pnd.stores ++ vecStores s F locs sl e ∧ t.thr.s = s.thr.s ∧ t.dev.mem = s.dev.mem ∧
      (∀ r, rv t r = rv s r) ∧ ∀ r, rx t r = rx s r)

/-- R136 to R138, R142, R143, R204, R266: a word of MXQ whose checks pass waits while the queue is full or an earlier access orders it, and
otherwise puts an entry with the operands it captured behind the others and goes on at once; no tile changes. A tile address that is not a
multiple of a tile row block traps ALIGNMENT, one of 2^52 or more traps as a translation that fails. R139, R140: `wbld` reads a descriptor
of 32 bytes in the sync class and puts a fill of slot W into MXQ with the descriptor, N and, for a codebook form, the codebook as they are
now; the slot counts as issued and OUT of the barrier rises. A descriptor that R139 does not allow traps VTYPE_ILLEGAL with the
descriptor's address. Choices and readings of the model's own that it rests on: log 3, 4, 92. -/
def Obligations.MatrixCommands : Prop :=
  (
  ∀ (s : State) (i : Instr) (F : MatrixForm), matrixForm s i = some F → Calm s → s.cur.2 = 1 → fmtN s ≠ 0 → F.ok = true → F.own = true →
    (∀ r ∈ F.vr, GroupOk s (r.toNat, grpN s)) → (∀ r ∈ F.mr, MGroupOk s (r.toNat, grpN s)) → NoPort s (F.xs.map BitVec.toNat) →
    (F.reach = true → queueFull s 3 = true ∨ F.waits = true → exec i s = .next (waitHere s)) ∧
    (F.reach = true → queueFull s 3 = false → F.waits = false →
      exec i s = .next (retired (encode i) (s.thr.pc + 4) (enterQueue 3 F.e F.counts s))) ∧
    (∀ z a c, (i = .zld z a c ∨ i = .zst z a c) → (xr s a).toNat % (32 * colsN s) ≠ 0 →
      exec i s = .next (takeTrap (encode i) 0x0C s.thr.pc (xr s a) 0 { s with thr.sr.vstart := 0 })) ∧
    (∀ z a c, (xr s a).toNat % (32 * colsN s) = 0 → 2 ^ 52 ≤ (xr s a).toNat →
      (i = .zld z a c → exec i s = .next (takeTrap (encode i) 0x0A s.thr.pc (xr s a) 0 { s with thr.sr.vstart := 0 })) ∧
      (i = .zst z a c → exec i s = .next (takeTrap (encode i) 0x0B s.thr.pc (xr s a) 0 { s with thr.sr.vstart := 0 })))) ∧
  (
  ∀ (s : State) (a : BitVec 5) (w : BitVec 2) (bs : List Byte) (locs : List Loc), Calm s → s.cur.2 = 1 → fmtN s ≠ 0 → NoPort s [a.toNat] →
    loadBytes { s with thr.sr.watch := [] } 15 32 (xr s a).toNat 32 = .ok bs locs →
    let i : Instr := .wbld a w
    let d := leNat bs
    let bar := wBar d
    let book := if wKind d = 2 then SMap.get 0 s.thr.cb (wBook d) else 0
    let e := { newEntry s .wbfill 3 with wb := w.toNat, bar := bar - scrBase, vl := colsN s, block := BitVec.ofNat 1024 (d + book.toNat * 2 ^ 256) }
    (wLegal d = false → exec i s = .next (takeTrap (encode i) 0x03 s.thr.pc (xr s a) 0 { s with thr.sr.vstart := 0 })) ∧
    (wLegal d = true → wBase d % 64 = 0 → (wUsesSide d = true → wSide d % 64 = 0) → bar % 16 = 0 → scrBase ≤ bar → bar < scrBase + scru s * 65536 →
      (queueFull s 3 = true ∨ engineWaits s (some (bar - scrBase)) = true → exec i s = .next (waitHere s)) ∧
      (queueFull s 3 = false → engineWaits s (some (bar - scrBase)) = false → ∃ t, exec i s = .next (retired (encode i) (s.thr.pc + 4) t) ∧
        t = enterQueue 3 e true (setWb w.toNat { wbOf s w.toNat with issued := true } (afterLoad 15 locs s)) ∧
        (∀ z, tileOf t z = tileOf s z) ∧ outOf t (bar - scrBase) = outOf s (bar - scrBase) + 1)))

/-- R267 to R271, R305: an engine command reads its block in the sync class, checks it and puts an entry with the block into its queue; OUT of
its barrier rises and nothing else of its operation happens yet. A block that is not aligned, a barrier that is not one, and an illegal
block trap; a full queue or an earlier fence holds the word back. `coll` does the same and numbers the collectives of its group. R257:
`fence.q` puts a marker into every queue that its mask names, numbered with the fences before it, and goes on at once; where the named
queues are empty, nothing is left of it. Choices and readings of the model's own that it rests on: log 3, 4. -/
def Obligations.EngineCommands : Prop :=
  (
  (∀ (s : State) (i : Instr) (F : CommandForm), commandForm i = some F → Calm s → NoPort s [F.a.toNat, F.b.toNat] →
    ((xr s F.a).toNat % 64 ≠ 0 → exec i s = .next (takeTrap (encode i) 0x0C s.thr.pc (xr s F.a) 0 s)) ∧
    (∀ c, (xr s F.a).toNat % 64 = 0 → barCheck s (xr s F.b).toNat = .error c →
      exec i s = .next (takeTrap (encode i) c s.thr.pc (xr s F.b) 0 s)) ∧
    (∀ off bs locs, (xr s F.a).toNat % 64 = 0 → barCheck s (xr s F.b).toNat = .ok off →
      loadBytes { s with thr.sr.watch := [] } 15 1 (xr s F.a).toNat F.len = .ok bs locs →
      (F.legal (leNat bs) = false → exec i s = .next (takeTrap (encode i) 0x03 s.thr.pc (xr s F.a) 0 s)) ∧
      (F.legal (leNat bs) = true → (∀ x ∈ F.aligned (leNat bs), x.2 = true) →
        (queueFull s F.q = true ∨ engineWaits s (some off) = true → exec i s = .next (waitHere s)) ∧
        (queueFull s F.q = false → engineWaits s (some off) = false →
          let t := afterLoad 15 locs s
          exec i s = .next (retired (encode i) (s.thr.pc + 4) (enterQueue F.q { newEntry t F.op F.q with
            bar := off, nr := F.nr = 1, block := BitVec.ofNat 1024 (leNat bs) } true t)))))) ∧
  (∀ (s : State) (a b : BitVec 5) (n : BitVec 1) (off : Nat) (bs : List Byte) (locs : List Loc) (l : Launch), Calm s → NoPort s [a.toNat, b.toNat] →
    (xr s a).toNat % 64 = 0 → barCheck s (xr s b).toNat = .ok off →
    loadBytes { s with thr.sr.watch := [] } 15 1 (xr s a).toNat 64 = .ok bs locs →
    SMap.find s.dev.launches s.slot.launch = some l → (∀ x ∈ s.slot.clq, x.op ≠ .marker) →
    let blk := leNat bs
    collLegal blk = true → kKind blk = 0 → (kOp blk = 3 → kRoot blk < (memberSlots s (kGroup blk)).length) → isMember s (kGroup blk) = true →
    (∀ x ∈ collAligned blk, x.2 = true) → queueFull s 2 = false → engineWaits s (some off) = false →
    let i : Instr := .coll a b n
    let t := afterLoad 15 locs s
    ∃ u, exec i s = .next u ∧ collCount u (kGroup blk) = collCount s (kGroup blk) + 1 ∧
      u = { retired (encode i) (s.thr.pc + 4) (enterQueue 2 { newEntry t .coll 2 with
        bar := off, nr := n = 1, block := BitVec.ofNat 1024 blk, koff := collCount s (kGroup blk) } true t) with
        dev.launches := u.dev.launches })) ∧
  (
  ∀ (s : State) (q : BitVec 5), Calm s →
    let m := { newEntry s .marker 8 with koff := q.toNat }
    let put := ((upFrom 0 5).filter (fun k => q.toNat.testBit k)).foldl (fun t k => setQueue k (queueOf t.slot k ++ [m]) t) s
    exec (.fenceQ q) s = .next (retired (encode (.fenceQ q)) (s.thr.pc + 4)
      (settleAll { put with slot.seqs := SMap.set 0 s.slot.seqs 8 (nextSeq s 8 + 1) })) ∧
    ((∀ k, k < 5 → queueOf s.slot k = []) →
      settleAll { put with slot.seqs := SMap.set 0 s.slot.seqs 8 (nextSeq s 8 + 1) } =
        { s with slot.seqs := SMap.set 0 s.slot.seqs 8 (nextSeq s 8 + 1) }))

/-- R268, R280, R281, R283: a barrier word at an address that is not a multiple of 16 traps ALIGNMENT and at one outside the scratchpad
ACCESS_RIGHTS. `binit` makes a barrier of a count from 1 to 65535 and traps on any other; `bexpect` adds to EXP at once; `barrive` and
`bexparr` arrive at once when no earlier store or update of the thread is on its way and otherwise wait with their count; `bwait` waits
for the phase and `btest` does not, and both write the status word. Choices and readings of the model's own that it rests on: log 3, 78,
89. -/
def Obligations.BarrierWords : Prop :=
  ∀ (s : State) (d a b : BitVec 5), Calm s → NoPort s [d.toNat, a.toNat, b.toNat] →
    (∀ c, barCheck s (xr s a).toNat = .error c →
      c = (if (xr s a).toNat % 16 ≠ 0 then 0x0C else 0x0D) ∧
      ∀ i : Instr, i ∈ [Instr.binit a b, .bexpect a b, .barrive a, .bexparr a b, .bwait d a b, .btest d a b] →
        exec i s = .next (takeTrap (encode i) c s.thr.pc (xr s a) 0 s)) ∧
    (∀ off, barCheck s (xr s a).toNat = .ok off →
      let n := (xr s b).toNat
      let key := barKey s off
      let quiet := s.thr.pnd.stores.all (fun p => p.fence != 0 || decide (s.dev.ser < p.ser)) = true
      let arrive := fun (x : BitVec 32) (i : Instr) =>
        (s.thr.pnd.barArrs = [] → quiet → exec i s = .next (retired (encode i) (s.thr.pc + 4) (updateBar off (fun y => barArrive (barExpect x y)) s))) ∧
        (s.thr.pnd.barArrs ≠ [] ∨ ¬ quiet → exec i s = .next (retired (encode i) (s.thr.pc + 4)
          { s with thr.pnd.barArrs := s.thr.pnd.barArrs ++ [⟨off, x, s.dev.ser⟩] }))
      (n = 0 ∨ 65536 ≤ n → exec (.binit a b) s = .next (takeTrap (encode (.binit a b)) 0x01 s.thr.pc ((encode (.binit a b)).setWidth 64) (xr s b) s)) ∧
      (0 < n → n < 65536 → s.thr.pnd.barArrs = [] →
        exec (.binit a b) s = .next (retired (encode (.binit a b)) (s.thr.pc + 4)
          (writeBar off ⟨0, n, n, false, false, false, 0, 0, 0, 0, 0⟩ { s with dev := clearPoison s.dev (upFrom key 16) }))) ∧
      (s.thr.pnd.barArrs = [] → exec (.bexpect a b) s = .next (retired (encode (.bexpect a b)) (s.thr.pc + 4)
        (updateBar off (barExpect ((xr s b).setWidth 32)) s))) ∧
      (s.thr.pnd.barArrs ≠ [] → (0 < n → n < 65536 → exec (.binit a b) s = .next (waitHere s)) ∧ exec (.bexpect a b) s = .next (waitHere s)) ∧
      arrive 0 (.barrive a) ∧ arrive ((xr s b).setWidth 32) (.bexparr a b) ∧
      let x := readBar s off
      let done := x.ph != (xr s b).getLsbD 0
      (done = true ∨ barHurt s off = true → exec (.bwait d a b) s = .next (retired (encode (.bwait d a b)) (s.thr.pc + 4)
        (wx d.toNat (barStatus x true) { s with thr.pnd.l1dMin := s.dev.ser + 1, dev.ser := s.dev.ser + 1 }))) ∧
      (done = false → barHurt s off = false → exec (.bwait d a b) s = .next (waitHere s)) ∧
      exec (.btest d a b) s = .next (retired (encode (.btest d a b)) (s.thr.pc + 4) (wx d.toNat (barStatus x done)
        (if done then { s with thr.pnd.l1dMin := s.dev.ser + 1, dev.ser := s.dev.ser + 1 } else s))))

/-- R278, R279, R281, R282: a barrier written reads back; a decided one is undecided no more: INIT is 0, arrivals are still expected, or
bytes are still expected that commands may yet deliver. A phase whose arrivals and bytes have come completes: PH turns and INIT arrivals,
less the held ones, are expected anew. Bytes still expected with no command left, or more delivered than expected, complete it with E and
M and the cause. -/
def Obligations.BarrierPhases : Prop :=
  (∀ (s : State) (off : Nat) (b : Bar), s.dev.retire = [] → s.dev.poison = [] → BarFits b → readBar (writeBar off b s) off = b) ∧
  ∀ (out : Nat) (b : Bar), BarFits b →
    let r := barDecide out 34 b
    (r.init = 0 ∨ r.pend ≠ 0 ∨ (r.exp ≠ 0 ∧ 0 ≤ r.exp.toInt ∧ out ≠ 0)) ∧ r.init = b.init ∧
    (b.init = 0 ∨ b.pend ≠ 0 ∨ (b.exp ≠ 0 ∧ 0 ≤ b.exp.toInt ∧ out ≠ 0) → r = b) ∧
    (b.init ≠ 0 → b.pend = 0 → b.held < b.init →
      (b.exp = 0 → r = { b with ph := !b.ph, pend := b.init - b.held, held := 0 }) ∧
      (b.exp.toInt < 0 → r = { barErr 0 0x41 0 0 b with m := true, ph := !b.ph, exp := 0, pend := b.init - b.held, held := 0 }) ∧
      (0 < b.exp.toInt → out = 0 → r = { barErr 0 0x40 0 0 b with m := true, ph := !b.ph, exp := 0, pend := b.init - b.held, held := 0 }))

/-- R209, R211: `rstat` writes the committed slots of a ring or the entries of a queue port; only the writer or reader of it in a TRIO slot
may ask, and any other thread traps REG_ILLEGAL. R212 to R215, R253: a thread that is no member of a group traps REG_ILLEGAL. `fence.arr`
waits until the phase of the thread's last arrival has completed, then counts an arrival that takes effect once its earlier stores are
performed; `gwait` waits until as many phases have completed as the thread has arrived at; `gtest` writes whether they have. A thread that
has seen a phase complete reads no older cached line. Choices and readings of the model's own that it rests on: log 3, 58, 95. -/
def Obligations.GroupWords : Prop :=
  (
  ∀ (s : State) (d : BitVec 5) (t : BitVec 1) (p : BitVec 2), Calm s →
    let i : Instr := .rstat d t p
    let mine := isTrio s = true ∧
      (if t = 0 then ringWriter p.toNat = s.cur.2 ∨ ringReader p.toNat = s.cur.2 else qWriter p.toNat = s.cur.2 ∨ qReader p.toNat = s.cur.2)
    (mine → NoPort s [d.toNat] → exec i s = .next (retired (encode i) (s.thr.pc + 4)
      (wx d.toNat (w64 (if t = 0 then min 4 ((ring s p.toNat).filter (·.committed)).length else (qport s p.toNat).length)) s))) ∧
    (¬ mine → exec i s = .next (takeTrap (encode i) 0x04 s.thr.pc ((encode i).setWidth 64) 0 s))) ∧
  (
  ∀ (s : State) (d : BitVec 5) (sc : BitVec 4) (g : BitVec 8), Calm s → NoPort s [d.toNat] →
    let a := arrivals s g.toNat
    let p := phaseOf s g.toNat
    let seen := { s with thr.pnd.l1dMin := s.dev.ser + 1, dev.ser := s.dev.ser + 1 }
    (isMember s g.toNat = false → ∀ i : Instr, i ∈ [Instr.fenceArr sc g, .gwait g, .gtest d g] →
      exec i s = .next (takeTrap (encode i) 0x04 s.thr.pc ((encode i).setWidth 64) 0 s)) ∧
    (isMember s g.toNat = true →
      (a ≠ p → exec (.fenceArr sc g) s = .next (waitHere s)) ∧
      (a = p → ∃ t, exec (.fenceArr sc g) s = .next (retired (encode (.fenceArr sc g)) (s.thr.pc + 4) t) ∧
        arrivals t g.toNat = a + 1 ∧ SMap.get 0 t.thr.hid.arr (512 + g.toNat) = sc.toNat ∧
        t = { s with thr.hid.arr := t.thr.hid.arr, thr.pnd.groupArrs := s.thr.pnd.groupArrs ++ [⟨g.toNat, s.dev.ser⟩] }) ∧
      (a ≤ p → exec (.gwait g) s = .next (retired (encode (.gwait g)) (s.thr.pc + 4) seen)) ∧
      (p < a → exec (.gwait g) s = .next (waitHere s)) ∧
      exec (.gtest d g) s = .next (retired (encode (.gtest d g)) (s.thr.pc + 4)
        (if a ≤ p then wx d.toNat 1 seen else wx d.toNat 0 s))))

/-- R225, R227, R228, R245, R285: a `tget` with a task held traps ILLEGAL_INSTR; with none that may still come it writes all ones and TASKID
is 0; with one that may still come it waits; and with one to take it holds it: x20 to x23 are its arguments, xD its count, TASKID its
launch slot and number, the core holds no cached line, and the stream registers of its map are loaded. `tdone.c` gives the task back, to
finish once the earlier stores and commands are done, and goes on; `tdone` does so and its thread retires no more. R225, R228, R233, R338,
R339: the oldest `tdone.c` or `tdone` of a thread whose earlier stores and commands are done takes effect: the thread has finished its
part of the task, and with `tdone`, unless it is the last of its slot under a cutting, it leaves its launch. A task that every thread of
its slots has finished is DONE. Choices and readings of the model's own that it rests on: log 3, 35, 49. -/
def Obligations.TaskWords : Prop :=
  (
  ∀ (s : State) (d : BitVec 5), Calm s → NoPort s [d.toNat] →
    let i : Instr := .tget d
    (s.thr.hid.task ≠ none → exec i s = .next (takeTrap (encode i) 0x01 s.thr.pc ((encode i).setWidth 64) 0 s)) ∧
    (s.thr.hid.task = none →
      (nextTask s = .wait → exec i s = .next (waitHere s)) ∧
      (nextTask s = .never → ∃ t, exec i s = .next (retired (encode i) (s.thr.pc + 4) (wx d.toNat (BitVec.allOnes 64) t)) ∧
        t = { s with slot.taken := t.slot.taken, thr.hid.tpos := s.thr.hid.tpos + 1, thr.sr.taskid := 0 }) ∧
      (∀ id k, nextTask s = .task id → SMap.find s.dev.tasks id = some k → isTrio s = false ∨ s.cur.2 = 0 →
        let j := match boundTo s with | some (_, j) => j | none => 0
        let u := takeTask d id s
        (k.mapnote = 0 → exec i s = .next (retired (encode i) (s.thr.pc + 4) u)) ∧
        (∀ bs locs, k.mapnote ≠ 0 → readMap s k.mapnote = .ok bs locs →
          exec i s = .next (retired (encode i) (s.thr.pc + 4) (loadStreams id k.args bs (takeTask d id (afterLoad 15 locs s))))) ∧
        (∀ n, n < 4 → d.toNat ≠ 20 + n → rx u (20 + n) = k.args.getD n 0) ∧ (d ≠ 0 → rx u d.toNat = k.count) ∧
        (∀ r, r ≠ d.toNat → r < 20 ∨ 23 < r → rx u r = rx s r) ∧
        u.thr.hid.task = some id ∧ u.thr.sr.taskid = w64 (j * 2 ^ 48 + id % 2 ^ 48) ∧ (∀ x ∈ u.dev.l1d, x.core ≠ coreOf s) ∧
        u.slot.taken = s.slot.taken ++ [id] ∧ (SMap.find u.dev.tasks id).map (fun x => (x.st, x.took)) = some (3, k.took ++ [j]))) ∧
    (∀ leave, let w : Instr := if leave then .tdone else .tdoneC
      exec w s = .next (retired (encode w) (s.thr.pc + 4) { s with
        thr.pnd.finishes := s.thr.pnd.finishes ++ [⟨s.thr.hid.task, leave, s.dev.ser, s.thr.pc⟩], thr.hid.task := none
        thr.live := s.thr.live && !leave }))) ∧
  (
  (∀ s : State, let u := focus s s.dev.arg.slot s.dev.arg.role
    ∀ f r, u.thr.pnd.finishes = f :: r → (∀ p ∈ u.thr.pnd.stores, p.fence = 0 → f.upto < p.ser) →
      (∀ q, q < 5 → ∀ e ∈ queueOf u.slot q, e.op = .marker ∨ e.role ≠ u.cur.2 ∨ f.upto ≤ e.since) →
      let v := finishPart f { u with thr.pnd.finishes := r }
      (f.leave = false → exec .taskFinish s = .next (focus (onDevice (checkBoth (ownLaunch u)) v) s.cur.1 s.cur.2)) ∧
      (f.leave = true → lastOfSlot { u with thr.pnd.finishes := r } = false → ∀ l, SMap.find v.dev.launches (ownLaunch v) = some l →
        exec .taskFinish s = .next (focus (onDevice (checkBoth (ownLaunch v))
          { v with dev.launches := SMap.put v.dev.launches (ownLaunch v) (leaveGroups (ownKey v) l) }) s.cur.1 s.cur.2) ∧
        (leaveGroups (ownKey v) l).gone.contains (ownKey v) = true)) ∧
  ∀ (id cfg j key : Nat) (d : Device) (t : Task) (l : Launch), SMap.find d.tasks id = some t → SMap.find d.launches t.launch = some l →
    t.st = 3 → j ∉ t.fin →
    let thrs := if t.finThr.contains key then t.finThr else t.finThr ++ [key]
    (¬ (∀ k ∈ slotKeys cfg j, k ∈ thrs) → finishTask id cfg j key d = { d with tasks := SMap.put d.tasks id { t with finThr := thrs } }) ∧
    ((∀ k ∈ slotKeys cfg j, k ∈ thrs) → l.tasks.length ≠ 1 ∨ (∀ m, m < l.nslot → m ∈ t.fin ++ [j]) →
      (SMap.find (finishTask id cfg j key d).tasks id).map (·.st) = some 4))

/-- R230, R231: `tlaunch` and `tlaunch.w` read the task control block behind its PRED in the sync class. A block that is not aligned to 128
bytes traps ALIGNMENT. With room in the pool, and no earlier store of the thread on its way, they offer a launch of the thread's context
and queue with the captured block to the dispatcher and write 0; with the pool full `tlaunch` writes 1 and `tlaunch.w` has its slot saved,
as soon as a frame is free and no word stands behind a full ring, to execute again. Choices and readings of the model's own that it rests
on: log 3, 4. -/
def Obligations.LaunchWords : Prop :=
  ∀ (s : State) (d a : BitVec 5), Calm s → NoPort s [d.toNat, a.toNat] →
    let i : Instr := .tlaunch d a
    let j : Instr := .tlaunchW d a
    let ea := (xr s a).toNat
    (ea % 128 ≠ 0 → ∀ w : Instr, w = i ∨ w = j → exec w s = .next (takeTrap (encode w) 0x0C s.thr.pc (xr s a) 0 s)) ∧
    (∀ bs locs, ea % 128 = 0 → loadBytes { s with thr.sr.watch := [] } 15 1 (ea + 4) 124 = .ok bs locs →
      (poolFull s.dev = true →
        exec i s = .next (retired (encode i) (s.thr.pc + 4) (wx d.toNat 1 s)) ∧
        exec j s = .next (if saveReady s s.slot then { s with slot.st := .saving, slot.save := some .waiter, slot.wdog := 0 } else waitHere s)) ∧
      (poolFull s.dev = false → ∀ w : Instr, w = i ∨ w = j →
        ((∃ p ∈ s.thr.pnd.stores, p.fence = 0) → exec w s = .next (waitHere s)) ∧
        ((∀ p ∈ s.thr.pnd.stores, p.fence ≠ 0) →
          ∃ t l, exec w s = .next (retired (encode w) (s.thr.pc + 4) (wx d.toNat 0 t)) ∧
            t = { afterLoad 15 locs s with
              dev.launches := SMap.put s.dev.launches s.dev.nextId l, dev.nextId := s.dev.nextId + 1, dev.ser := t.dev.ser } ∧
            l.phase = 0 ∧ l.fromPool = true ∧ l.ctx = s.slot.ctx ∧ l.queue = ownQueue s ∧ l.acct = acctOf s ∧ l.tcbs = [ea] ∧
            l.block = BitVec.ofNat 1024 (leNat bs * 2 ^ 32))))

/-- R337, R338, R341, R347 to R349: `susp` at an address that is a multiple of 256, for a group its thread is a member of and a legal segment
mask, stops its thread at itself and counts it; misaligned it traps ALIGNMENT, for another group REG_ILLEGAL, with an illegal mask
ILLEGAL_INSTR. `resm` claims a sealed cutting that passes the checks of R347: STATE becomes CLAIMED and a launch of its members is offered
to the pool, or with the pool full nothing but xD = 1, its grant list read where the header names one; a cutting that fails them traps
with the cause they give. `cdisc` writes the STATE it found to xD and makes an INCOMPLETE or SEALED cutting DISCARDED. Choices and
readings of the model's own that it rests on: log 4, 38, 51. -/
def Obligations.CuttingWords : Prop :=
  ∀ (s : State) (d a b : BitVec 5) (g : BitVec 8), Calm s → NoPort s [d.toNat, a.toNat, b.toNat] →
    let i : Instr := .susp d a b g
    let r : Instr := .resm d a b
    let c : Instr := .cdisc d a
    let ea := (xr s a).toNat
    let grants := fun (hb : List Byte) => leNat hb / 2 ^ 192 % 2 ^ 64
    let reached := fun (locs : List Loc) => (∀ x ∈ locs, x.kind ≠ .remote) ∨ farAccess s 15 false false locs = .ready
    (ea % 256 ≠ 0 → ∀ w : Instr, w = i ∨ w = r ∨ w = c → exec w s = .next (takeTrap (encode w) 0x0C s.thr.pc (xr s a) 0 s)) ∧
    (ea % 256 = 0 → isMember s g.toNat = false → exec i s = .next (takeTrap (encode i) 0x04 s.thr.pc ((encode i).setWidth 64) 0 s)) ∧
    (ea % 256 = 0 → isMember s g.toNat = true → (xr s b).toNat / 2 ^ 48 % 2 ^ 15 ≠ 0 →
      exec i s = .next (takeTrap (encode i) 0x01 s.thr.pc ((encode i).setWidth 64) (xr s b) s)) ∧
    (ea % 256 = 0 → isMember s g.toNat = true → (xr s b).toNat / 2 ^ 48 % 2 ^ 15 = 0 →
      ∃ t, exec i s = .next t ∧
        t = { s with thr.pnd.susp := some ⟨ea, xr s b, g.toNat, d.toNat, s.thr.pc⟩, thr.pnd.blocked := false, dev.launches := t.dev.launches } ∧
        ∀ l, SMap.find s.dev.launches s.slot.launch = some l →
          ∃ m, SMap.find t.dev.launches s.slot.launch = some m ∧ suspCount m g.toNat (ownKey s) = suspCount l g.toNat (ownKey s) + 1) ∧
    (∀ hb bs l1 l2 granted l3, ea % 256 = 0 → cutLoad s ea 256 = .ok hb l1 →
      ((grants hb = 0 ∧ granted = [] ∧ l3 = []) ∨
        (grants hb ≠ 0 ∧ ∃ cs lc gs lg, cutLoad s (grants hb) 8 = .ok cs lc ∧
          cutLoad s (grants hb + 8) (2 * min 4096 (leNat (cs.take 4))) = .ok gs lg ∧ granted = listDevs gs ∧ l3 = lc ++ lg)) →
      cutLoad s ea (leNat hb / 2 ^ 384 % 2 ^ 64) = .ok bs l2 →
      let h := leNat hb
      (∀ cause v2, checkCut s h granted = some (cause, v2) → exec r s = .next (takeTrap (encode r) cause s.thr.pc (xr s a) (w64 v2) s)) ∧
      (checkCut s h granted = none → crc32c (crcBytes bs) ≠ h / 2 ^ 352 % 2 ^ 32 → exec r s = .next (takeTrap (encode r) 0x24 s.thr.pc (xr s a) 0 s)) ∧
      (checkCut s h granted = none → crc32c (crcBytes bs) = h / 2 ^ 352 % 2 ^ 32 → poolFull s.dev = true →
        exec r s = .next (retired (encode r) (s.thr.pc + 4) (wx d.toNat 1 (afterLoad 15 (l1 ++ l3 ++ l2) s)))) ∧
      (∀ locs, checkCut s h granted = none → crc32c (crcBytes bs) = h / 2 ^ 352 % 2 ^ 32 → poolFull s.dev = false →
        checkAccess { s with thr.sr.watch := [] } true 8 (ea + 8) 8 = .ok locs → reached locs →
        ∃ t l, exec r s = .next (retired (encode r) (s.thr.pc + 4) (wx d.toNat 0 t)) ∧
          SMap.find t.dev.launches s.dev.nextId = some l ∧ l.phase = 1 ∧ l.nslot = h / 2 ^ 176 % 2 ^ 16 ∧ l.cutting = some ea ∧
          l.sig = (xr s b).toNat ∧ l.ctx = s.slot.ctx ∧
          (s.dev.retire = [] → s.dev.mwatch = [] → (locs.map (·.key)).Nodup → locs.map (fun x => readByte t.dev x.key) = leBytes 8 3))) ∧
    (∀ hb l1, ea % 256 = 0 → cutLoad s ea 256 = .ok hb l1 →
      let st := leNat hb / 2 ^ 64 % 2 ^ 64
      (st ≠ 1 → st ≠ 2 → exec c s = .next (retired (encode c) (s.thr.pc + 4) (wx d.toNat (w64 st) (afterLoad 15 l1 s)))) ∧
      (∀ locs, st = 1 ∨ st = 2 → checkAccess { s with thr.sr.watch := [] } true 8 (ea + 8) 8 = .ok locs → reached locs →
        ∃ t, exec c s = .next (retired (encode c) (s.thr.pc + 4) (wx d.toNat (w64 st) t)) ∧
          (s.dev.retire = [] → s.dev.mwatch = [] → (locs.map (·.key)).Nodup → locs.map (fun x => readByte t.dev x.key) = leBytes 8 4)))

/-- R58, R61, R214, R215, R225, R228, R248, R256, R281, R111, R327, R356 to R359, R377, R378: what befalls a thread without a word of its own.
The wait of a `yield` ends; a sleeping `wpoll` reads again and, after 2^20 cycles or a change, writes what it read; an arrival at a group
or a barrier takes effect once every earlier store of its thread is performed; the oldest vector word leaves the replay queue, and a
replay is counted or, at a second error, traps; a word that is none, which ends a loop whose body may not hold it, and a fetch that fails
trap; a store that its home acknowledges is performed, and its request with the reads that it passed is gone. Choices and readings of the
model's own that it rests on: log 2, 13, 62, 78, 79, 85, 95. -/
def Obligations.ThreadEvents : Prop :=
  ∀ s : State, let u := focus s s.dev.arg.slot s.dev.arg.role
    let back := fun t => focus t s.cur.1 s.cur.2
    (u.thr.pnd.readyAt ≤ cycNow u → exec .yieldWaitEnd s = .next (back { u with thr.pnd.readyAt := 0 })) ∧
    (∀ d a sc since bs locs, canRun u = true → Calm u → NoPort u [a.toNat, d.toNat] → u.thr.pnd.wpollSince = some since →
      fetchWord u = .ok (encode (.wpoll d a sc)) → loadBytes u 15 8 (xr u a).toNat 8 = .ok bs locs →
      let Woken := fun (t : State) => t.thr.pc = u.thr.pc + 4 ∧ t.thr.pnd.wpollSince = none ∧ (d ≠ 0 → rx t d.toNat = w64 (leNat bs)) ∧
        ∀ r, r ≠ d.toNat → rx t r = rx u r
      (2 ^ 20 ≤ cycNow u - since → ∃ t, exec .wpollTimeout s = .next (back t) ∧ Woken t) ∧
      (w64 (leNat bs) ≠ xr u d → ∃ t, exec .wpollRemoteReread s = .next (back t) ∧ Woken t)) ∧
    (∀ x r l, u.thr.pnd.groupArrs = x :: r → (∀ p ∈ u.thr.pnd.stores, p.fence = 0 → x.upto < p.ser) →
      tileAccess u 0xFFFF (x.upto + 1) = false → SMap.find u.dev.launches (ownLaunch u) = some l →
      let came := { l with arrived := SMap.set [] l.arrived x.group (SMap.get [] l.arrived x.group ++ [ownKey u]) }
      let all := (groupMembers l x.group).all (slotArrived came x.group)
      ∃ m, exec .fenceArrArrival s = .next (back { u with
          thr.pnd.groupArrs := r, dev.launches := SMap.put u.dev.launches (ownLaunch u) m }) ∧
        SMap.get 0 m.done x.group = SMap.get 0 l.done x.group + (if all then 1 else 0) ∧
        SMap.get [] m.arrived x.group = (if all then [] else SMap.get [] l.arrived x.group ++ [ownKey u])) ∧
    (∀ x r, u.thr.pnd.barArrs = x :: r → (∀ p ∈ u.thr.pnd.stores, p.fence = 0 → x.upto < p.ser) →
      exec .barriveEffect s = .next (back (updateBar x.bar (fun b => barArrive (barExpect x.exp b)) { u with thr.pnd.barArrs := r }))) ∧
    (∀ x r, u.thr.pnd.replay = x :: r → exec .vectorWordComplete s = .next (back { u with
      thr.pnd.replay := r
      dev := if x.chk = true ∧ checkedWord x.word = true ∧ min u.dev.arg.num (laneSlots x) ≠ 0 then
        addRas (coreOf u) 0 (min u.dev.arg.num (laneSlots x)) u.dev else u.dev })) ∧
    (u.dev.arg.ok2 = false → exec .vectorReplay s = .next (back { u with dev := addRas (coreOf u) 3 1 u.dev })) ∧
    (∀ w, u.dev.arg.ok2 = true → canRun u = true → fetchWord u = .ok w → pipeWord w = true →
      exec .vectorReplay s = .next (back (takeTrap w 0x31 u.thr.pc (w.setWidth 64) (w64 u.dev.arg.num)
        { u with thr.pnd.replay := [], dev := addRas (coreOf u) 3 1 u.dev }))) ∧
    (∀ w, canRun s = true → queuedAhead s = 0 → fetchWord s = .ok w → isInstr w = false →
      exec .illegalInstr s = .next (takeTrap w 0x01 s.thr.pc (w.setWidth 64) 0
        (if inBody s = true ∧ bodyBans w = true then { s with thr.hid.active := false } else s))) ∧
    (∀ c, canRun s = true → queuedAhead s = 0 → fetchWord s = .error c → exec .fetchFault s = .next (takeTrap 0 c s.thr.pc s.thr.pc 0 s)) ∧
    (∀ i p q, u.thr.pnd.stores.findIdx? (fun p => decide (p.sent = some (u.dev.arg.num, u.dev.arg.idx))) = some i → u.thr.pnd.stores[i]? = some p →
      eligible u i = true → unreachable u.dev u.dev.arg.num = false →
      u.dev.fab.reqs.find? (fun r => decide (r.own = 0 ∧ r.dst = u.dev.arg.num ∧ r.seq = u.dev.arg.idx)) = some q → q.held = false →
      (∀ r ∈ aheadOf q u.dev, r.own ≠ 0) → p.fence = 0 → p.upd = 0 → (p.bytes.map (·.1)).Nodup → u.dev.retire = [] → u.dev.mwatch = [] →
      ∃ t, exec .remoteAckReceive s = .next (back t) ∧ t.thr.pnd.stores = u.thr.pnd.stores.eraseIdx i ∧
        q ∉ t.dev.fab.reqs ∧ (∀ r ∈ u.dev.fab.reqs, r ≠ q → r ∉ aheadOf q u.dev → r ∈ t.dev.fab.reqs) ∧
        ∀ b ∈ p.bytes, readByte t.dev b.1 = (readByte u.dev b.1 &&& ~~~b.2.1) ||| (b.2.2 &&& b.2.1))

/-- R50, R51, R136 to R140, R143 to R145, R345, R360: what performing the head of MXQ does, when it is the slot's turn. A multiply over a slot
that is not poisoned adds the products chunk by chunk to each element of its rows, and gathers the flags; soft errors that make no
mismatch stay in the sums, and where exactly one row and one column mismatch their element is recomputed and counted; from a poisoned
slot, or where the mismatches are any other pattern, the tile becomes poisoned and the event is kept for the next `mcommit`. A clear
zeroes its tile and takes off its marks. A tile load and store move 32 × N bytes, and a fault is kept. A fill leaves the block and its
bytes in the slot. The arrival of `mcommit` reports what is kept and forgets it. Choices and readings of the model's own that it rests on:
log 13, 27, 33, 59, 90, 97, 98. -/
def Obligations.MatrixEvents : Prop :=
  ∀ (s : State) (e : Entry), let u := focus s s.dev.arg.slot 1
    let slot := s.dev.arg.slot
    let back := fun (t : State) => focus { t with dev.served := SMap.set 0 t.dev.served (8 * (slot / 2) + 3) (slot + 1) } s.cur.1 s.cur.2
    let n := colsN u
    let rows := e.rows.length
    let head := fun op => (headEntry u 3 (fun x => x = op)).map (fun x => { x with idle := false }) = some e ∧ matesTurn u slot 3 = false
    let Done := fun (t : State) (fl : Nat) => t.slot.mxq = { e with done := some ⟨fl, 0, 0⟩ } :: u.slot.mxq.tail
    let kept := fun c o => u.slot.mxerr.or (some ⟨c, o, e.seq⟩)
    let Tile := fun (t : State) z (x : Nat → Nat → Nat × Nat) => ∀ i, i < 1024 → elemOf (tileOf t z).toNat 32 i =
      if i < rows * n then (x (i / n) (i % n)).1 % 2 ^ 32 else elemOf (tileOf u z).toNat 32 i
    let raises := fun (x : Nat → Nat → Nat × Nat) (b : Nat) => ∃ r c, r < rows ∧ c < n ∧ (x r c).2.testBit b = true
    let us := fun k => upsetsOf k u.dev.arg.parts
    let mean := accumAt u e e.z (momentVal e false) id (us 0)
    let var := accumAt u e (e.z + 1) (momentVal e true) squared (us 1)
    let x := accumAt u e e.z (mmaVal e) id
    let mended := fun i j => (us 0).filter (fun p => !(p.row = i && p.col = j))
    let OnlyTiles := fun (t : State) => t = { u with
      slot.z := t.slot.z, slot.zdirty := t.slot.zdirty, slot.mxq := t.slot.mxq, dev.acnt := t.dev.acnt, dev.ras := t.dev.ras }
    let errors := fun k aval f => mismatches ⟨e, blockOf (wbOf u e.wb), n, aval, f⟩ (us k)
    let none' := (([], []) : List Nat × List Nat)
    let clear := fun z => (wbOf u e.wb).poison = false ∧ latent u 8 e.wb = false ∧ latent u 0 z = false ∧ rows * n ≤ 1024
    (head .mma → clear e.z → ∀ l, (errors 0 (mmaVal e) id = none' ∧ l = us 0 ∨ ∃ i j, errors 0 (mmaVal e) id = ([i], [j]) ∧ l = mended i j) →
      ∃ t fl, exec .mmaExecute s = .next (back t) ∧ OnlyTiles t ∧ Done t fl ∧ Tile t e.z (x l) ∧
      (∀ z, z ≠ e.z → tileOf t z = tileOf u z) ∧ (∀ b, fl.testBit b = true ↔ raises (x l) b) ∧
      t.dev.ras = (if errors 0 (mmaVal e) id = none' then u.dev else addRas (coreOf u) 1 1 u.dev).ras) ∧
    (head .mmamo → clear e.z → clear (e.z + 1) → errors 0 (momentVal e false) id = none' → errors 1 (momentVal e true) squared = none' →
      ∃ t fl, exec .mmamoExecute s = .next (back t) ∧ OnlyTiles t ∧ Done t fl ∧ Tile t e.z mean ∧ Tile t (e.z + 1) var ∧
        (∀ z, z ≠ e.z → z ≠ e.z + 1 → tileOf t z = tileOf u z) ∧ ∀ b, fl.testBit b = true ↔ raises mean b ∨ raises var b) ∧
    (head .mma → (wbOf u e.wb).poison = true → e.z < 16 → ∃ t, exec .mmaExecute s = .next (back t) ∧ Done t 0 ∧
      tilePoisoned t e.z = true ∧ t.slot.mxerr = kept 0x30 (0x100 + e.wb)) ∧
    (head .mmamo → (wbOf u e.wb).poison = true → e.z < 15 → ∃ t, exec .mmamoExecute s = .next (back t) ∧ Done t 0 ∧
      tilePoisoned t e.z = true ∧ tilePoisoned t (e.z + 1) = true ∧ t.slot.mxerr = kept 0x30 (0x100 + e.wb)) ∧
    (head .mma → clear e.z → e.z < 16 → errors 0 (mmaVal e) id ≠ none' → (∀ i j, errors 0 (mmaVal e) id ≠ ([i], [j])) → ∃ t fl, exec .mmaExecute s = .next (back t) ∧ Done t fl ∧
      tilePoisoned t e.z = true ∧ t.slot.mxerr = kept 0x42 e.z) ∧
    (head .zclr → ∃ t, exec .zclrExecute s = .next (back t) ∧ Done t 0 ∧ tileOf t e.z = 0 ∧ (∀ z, z ≠ e.z → tileOf t z = tileOf u z) ∧
      ∀ z, tilePoisoned t z = (tilePoisoned u z && decide (z ≠ e.z)) ∧ bit t.slot.zdirty.toNat z = (bit u.slot.zdirty.toNat z && decide (z ≠ e.z))) ∧
    (head .zld → (∀ bs v, engRead e e.block.toNat (32 * n) u = .ok bs v → ∃ t, exec .zldExecute s = .next (back t) ∧ Done t 0 ∧
        tileOf t e.z = BitVec.ofNat 32768 (leNat bs) ∧ (∀ z, z ≠ e.z → tileOf t z = tileOf u z) ∧ tilePoisoned t e.z = false) ∧
      (∀ c o, engRead e e.block.toNat (32 * n) u = .err c o → e.z < 16 → ∃ t, exec .zldExecute s = .next (back t) ∧ Done t 0 ∧
        t.slot.z = u.slot.z ∧ tilePoisoned t e.z = true ∧ t.slot.mxerr = kept c (mxOrigin c o e.z))) ∧
    (head .zst → latent u 0 e.z = true → e.z < 16 → ∃ t, exec .zstExecute s = .next (back t) ∧ Done t 0 ∧ tilePoisoned t e.z = true ∧
      t.slot.mxerr = kept 0x30 e.z) ∧
    (head .zst → latent u 0 e.z = false →
      (tilePoisoned u e.z = true → ∃ t, exec .zstExecute s = .next (back t) ∧ Done t 0 ∧ t.dev = u.dev ∧ t.slot.mxerr = kept 0x30 e.z) ∧
      (tilePoisoned u e.z = false →
        (∀ v, engWrite e e.block.toNat (leBytes (32 * n) (tileOf u e.z).toNat) u = .ok () v → ∃ t, exec .zstExecute s = .next (back t) ∧
          Done t 0 ∧ t.dev = (engAnswered e v).dev ∧ t.slot.z = u.slot.z ∧ t.slot.mxerr = u.slot.mxerr) ∧
        (∀ c o, engWrite e e.block.toNat (leBytes (32 * n) (tileOf u e.z).toNat) u = .err c o → ∃ t, exec .zstExecute s = .next (back t) ∧
          Done t 0 ∧ t.dev = (engAnswered e u).dev ∧ t.slot.mxerr = kept c (mxOrigin c o e.z)))) ∧
    (head .wbfill → let d := bits e.block.toNat 0 256
      let book := BitVec.ofNat 256 (bits e.block.toNat 256 256)
      (∀ bs side v w, engRead e (wBase d) (wElemBytes d e.vl) u = .ok bs v → engRead e (wSide d) (wSideBytes d e.vl) v = .ok side w →
        ∃ t, exec .wbFill s = .next (back t) ∧ wbOf t e.wb = ⟨true, BitVec.ofNat 256 d, book, e.vl, bs, side, false⟩ ∧
          (∀ k, k ≠ e.wb → wbOf t k = wbOf u k) ∧ t.slot.mxq = { e with done := some ⟨bs.length + side.length, 0, 0⟩ } :: u.slot.mxq.tail) ∧
      (∀ c o, engRead e (wBase d) (wElemBytes d e.vl) u = .err c o → ∃ t, exec .wbFill s = .next (back t) ∧ (wbOf t e.wb).poison = true ∧
        t.slot.mxerr = kept c (mxOrigin c o (0x100 + e.wb)) ∧
        t.slot.mxq = { e with done := some ⟨goodPrefix e (wBase d) (wElemBytes d e.vl) u, c, mxOrigin c o (0x100 + e.wb)⟩ } :: u.slot.mxq.tail) ∧
      (∀ bs v c o, engRead e (wBase d) (wElemBytes d e.vl) u = .ok bs v → engRead e (wSide d) (wSideBytes d e.vl) v = .err c o →
        ∃ t, exec .wbFill s = .next (back t) ∧ (wbOf t e.wb).poison = true ∧ t.slot.mxerr = kept c (mxOrigin c o (0x100 + e.wb)) ∧
        t.slot.mxq = { e with done := some ⟨bs.length + goodPrefix e (wSide d) (wSideBytes d e.vl) v, c, mxOrigin c o (0x100 + e.wb)⟩ } ::
          u.slot.mxq.tail)) ∧
    (head .mcommit → exec .mcommitArrival s = .next (back (settleAll (updateBar e.bar
      (fun b => barArrive (match u.slot.mxerr with | some r => barErr 4 r.cause r.origin r.seq b | none => b))
      { u with slot.mxq := u.slot.mxq.tail, slot.mxerr := none, slot.out := SMap.set 0 u.slot.out e.bar (outOf u e.bar - 1) }))))

/-- R48, R269, R270, R272 to R277, R307 to R311: one turn of the copy, gather, scatter, collective and prefix engines, when it is the slot's.
A copy carries its elements out one after the other and on to the end of a line of its destination; at a fault it stops with those below
written. A gather reads each listed element and writes it; one that fails is passed over and the first cause kept, and a read of another
device leaves in one turn and is answered in a later one. A scatter translates and reads everything before it sends anything, and then
sends each device its elements in order, in segments of at most 4 KiB; to its own device it writes at once and then adds the count. A
collective of slots gives each member's DST the reduction over all members' SRC in their order, or none where their parameters differ. A
hash step leaves its chain value and key; a key step of a table command is counted, and the command's end writes RESULT. A command whose
peer is silent for 2^28 cycles ends with REMOTE_TIMEOUT and the device waited for. A performed head completes on its barrier: its bytes,
its error, its arrival. Choices and readings of the model's own that it rests on: log 13, 26, 27, 31, 85, 90, 91. -/
def Obligations.EngineEvents : Prop :=
  (∀ (s : State) (e : Entry), let u := focus s s.dev.arg.slot 1
    let b := e.block.toNat
    let home := fun (t : State) => focus t s.cur.1 s.cur.2
    let back := fun q (t : State) => home { t with dev.served := SMap.set 0 t.dev.served (8 * (s.dev.arg.slot / 2) + q) (s.dev.arg.slot + 1) }
    let head := fun q op => (headEntry u q (fun x => x = op)).map (fun x => { x with idle := false }) = some e ∧ matesTurn u s.dev.arg.slot q = false
    let p := e.prog
    let one := u.dev.arg.num = 1
    let own := u.dev.boot.devnum
    (head 0 .cpy → ∀ m x v, copySpan e m p u = .ok x v → p + m ≤ dCount (cSrc b) →
      (u.dev.arg.num = m ∧ 0 < m ∨ u.dev.arg.num = 0 ∧ p + m = dCount (cSrc b) →
        (p + m = dCount (cSrc b) → exec .cpyExecute s = .next (back 0 (finishHead 0 { e with prog := p + m } (copyBytes b (p + m)) 0 0 (copyPut e x.1 x.2 v)))) ∧
        (p + m < dCount (cSrc b) → newCopyLine { e with prog := p + m } = true →
          exec .cpyExecute s = .next (back 0 (setHead 0 { e with prog := p + m } (copyPut e x.1 x.2 v))))) ∧
      (∀ c o, u.dev.arg.num = 0 ∨ m < u.dev.arg.num → p + m < dCount (cSrc b) → copyStep e (p + m) v = .err c o →
        exec .cpyExecute s = .next (back 0 (finishHead 0 { e with prog := p + m } (copyBytes b (p + m)) c o (copyPut e x.1 x.2 v))))) ∧
    (head 1 .rgath → one → p < gCount b →
      let went := fun (e' : Entry) v => exec .rgathExecute s = .next (back 1 (if p + 1 = gCount b then finishHead 1 e' e'.acc e'.cls e'.z v else setHead 1 e' v))
      let failed := fun c o => went (if e.cls = 0 then { e with prog := p + 1, cls := c, z := o } else { e with prog := p + 1 }) (engAnswered e u)
      (∀ c o, engRead e (wrap (gList b + 8 * p)) 8 u = .err c o → failed c o) ∧
      (∀ ab v1, engRead e (wrap (gList b + 8 * p)) 8 u = .ok ab v1 →
        (leNat ab % gSize b ≠ 0 → failed 0x0C 0) ∧
        (leNat ab % gSize b = 0 → (∀ c o, engRead e (leNat ab) (gSize b) v1 = .err c o → failed c o) ∧
          ∀ bs v2, engRead e (leNat ab) (gSize b) v1 = .ok bs v2 →
            (∀ c o, engWrite e (wrap (gLocal b + p * gSize b)) bs v2 = .err c o → failed c o) ∧
            ∀ v3, engWrite e (wrap (gLocal b + p * gSize b)) bs v2 = .ok () v3 →
              went { e with prog := p + 1, acc := e.acc + gSize b } (engAnswered e v3))) ∧
      (∀ dn o k n, gatherStep e p u = .wait dn (some (o, k, n)) →
        exec .rgathExecute s = .next (back 1 { setHead 1 e u with dev := sendReq o k n (setHead 1 e u).dev })) ∧
      (∀ dn, gatherStep e p u = .wait dn none → exec .rgathExecute s = .next (home (setHead 1 { e with idle := true } u)))) ∧
    (head 1 .rscat → u.dev.arg.num = 0 → e.plan = [] → p = 0 →
      (∀ c o, scatterPlan e (gCount b) 0 u = .err c o → exec .rscatExecute s = .next (back 1 (finishHead 1 e 0 c o (engAnswered e u)))) ∧
      (∀ xs v, scatterPlan e (gCount b) 0 u = .ok xs v →
        (∀ c, tailAddr e v = .error c → exec .rscatExecute s = .next (back 1 (finishHead 1 e 0 c 0 (engAnswered e u)))) ∧
        ∀ tail, tailAddr e v = .ok tail → xs ≠ [] → (∀ x ∈ xs, sentDev own x = own) → gSize b ≤ 64 →
          let e' : Entry := { e with plan := trainsOf own e tail xs }
          let n := xs.length * gSize b
          exec .rscatExecute s = .next (back 1 (finishHead 1 { e' with prog := e'.plan.length, acc := e.acc + n } (e.acc + n) 0 0
            (e'.plan.foldl (fun t g => engAnswered e (applySeg e' g t)) (engAnswered e v)))))) ∧
    (head 1 .rscat → one → ∀ g, e.plan[p]? = some g →
      (g.train ≠ own → unreachable u.dev g.train = true →
        exec .rscatExecute s = .next (back 1 (finishHead 1 e e.acc 0x43 g.train (engAnswered e u)))) ∧
      ((g.train ≠ own → unreachable u.dev g.train = false) →
        (∀ dn o w k n, segWait e g u = some (dn, some (o, w, k, n)) →
          exec .rscatExecute s = .next (back 1 { setHead 1 e u with dev := sendReqBy o w k n (setHead 1 e u).dev })) ∧
        (segWait e g u = none → ∀ e', e' = { e with prog := p + 1, acc := e.acc + (if g.last then trainLength e g * gSize b else 0) } →
          exec .rscatExecute s = .next (back 1 (if p + 1 < e.plan.length then setHead 1 e' (engAnswered e (applySeg e g u))
            else finishHead 1 e' e'.acc 0 0 (engAnswered e (applySeg e g u))))))) ∧
    (head 2 .coll → kKind b = 0 → ∀ es : List Entry, let slots := memberSlots u (kGroup b)
      let n := slots.length
      let ms := slots.zip es
      let srcs := fun (l : List (Nat × List Byte)) => l.map Prod.snd
      es.length = n → (∀ m ∈ ms, collHead u m.1 (kGroup b) e.koff = some m.2) →
      ((∃ x ∈ es, collKey x ≠ collKey e) → ∀ t, Through (fun _ m a c => c = finishHead 2 m.2 0 0x44 0 (focus a m.1 1)) 0 ms u t →
        exec .collExecute s = .next (back 2 (focus t u.cur.1 u.cur.2))) ∧
      ((∀ x ∈ es, collKey x = collKey e) → ∀ (l : List (Nat × List Byte)) v t, l.map Prod.fst = slots →
        Through (fun i m a c => engRead m.2 (kSrc m.2.block.toNat) (collSrcBytes m.2.block.toNat i n) (focus a m.1.1 1) = .ok m.1.2 c) 0
          (l.zip es) u v →
        (∀ m ∈ ms, ∃ locs w, collReach m.1 n m.2 v = .ok locs w) →
        Through (fun i m a c => ∃ w, engWrite m.2 (kDst m.2.block.toNat) (collResult b i n (srcs l)) (focus a m.1 1) = .ok () w ∧
          c = finishHead 2 m.2 (collResult b i n (srcs l)).length 0 0 (engAnswered m.2 w)) 0 ms v t →
        exec .collExecute s = .next (back 2 (focus t u.cur.1 u.cur.2)))) ∧
    (head 2 .coll → kKind b = 1 → (u.dev.arg.ok = false → exec .collExecute s = .next (back 2 (finishHead 2 e 0 0x44 0 u))) ∧
      (u.dev.arg.ok = true → let dns := listDevs e.list
        let i := dns.idxOf own
        ∀ srcs : List (List Byte), srcs.length = dns.length → (∀ j < dns.length, j ≠ i → (u.dev.arg.parts.find? (fun x => x.1 = j)).map Prod.snd = srcs[j]?) →
        i < dns.length → 1 < dns.length → ∀ mine v w, srcs[i]? = some mine → engRead e (kSrc b) (collSrcBytes b i dns.length) u = .ok mine v →
          engWrite e (kDst b) (collResult b i dns.length srcs) { v with dev := addAcnt e.acct 4 (collSrcBytes b i dns.length) v.dev } = .ok () w →
          exec .collExecute s = .next (back 2 (finishHead 2 e (collResult b i dns.length srcs).length 0 0 (engAnswered e w))))) ∧
    (head 4 .pfxh → one → p < pN b → ∀ c toks v1 v2 v3 v4 l1 l2, chainBefore e u = .ok c v1 →
      engRead e (wrap (pAux b + 4 * pBlen b * p)) (4 * pBlen b) v1 = .ok toks v2 → let h := sha256 (c ++ toks)
      let keys := wrap (pKeys b + 8 * p)
      let out := wrap (pOut b + 32 * p)
      engReach e true keys 8 v2 = .ok l1 v2 → (pOut b ≠ 0 → engReach e true out 32 v2 = .ok l2 v2) → engWrite e keys (h.take 8) v2 = .ok () v3 →
      (if pOut b = 0 then v4 = v3 else engWrite e out h v3 = .ok () v4) →
      exec .pfxhExecute s = .next (back 4 (if p + 1 = pN b then finishHead 4 { e with prog := p + 1, list := h } (hashBytes b (p + 1)) 0 0 (engAnswered e v4)
        else setHead 4 { e with prog := p + 1, list := h } (engAnswered e v4)))) ∧
    (head 4 .pfxh → one → p < pN b → ∀ c o, hashStep e u = .err c o →
      exec .pfxhExecute s = .next (back 4 (finishHead 4 e (hashBytes b p) c o (engAnswered e u)))) ∧
    (∀ i op, (i, op) ∈ [(Instr.pfxlkExecute, EngOp.pfxlk), (.pfxinsExecute, .pfxins), (.pfxunpinExecute, .pfxunpin)] → head 4 op → one →
      let reg := tableReg u (pTable b)
      let ends := fun (e' : Entry) count status n c o v => ∀ w, engWrite e (pOut b) (leBytes 8 (count + status * 2 ^ 32)) v = .ok () w →
        exec i s = .next (back 4 (finishHead 4 e' n c o (engAnswered e w)))
      (e.vl ≠ 1 → (∀ c, engXlate true (pOut b) 8 u = .error c → exec i s = .next (back 4 (finishHead 4 e 0 c 0 u))) ∧
        ∀ l, engXlate true (pOut b) 8 u = .ok l → bit reg 0 = false ∨ 20 < bits reg 1 5 → ends e 0 3 8 0x0D 0 u) ∧
      ∀ d : Entry, (e.vl = 1 ∧ d = e ∨ e.vl ≠ 1 ∧ (∃ l, engXlate true (pOut b) 8 u = .ok l) ∧ bit reg 0 = true ∧ bits reg 1 5 ≤ 20 ∧
          d = { e with vl := 1, vlvalid := reg }) → p < pN b →
        (∀ step, (op, step) ∈ [(EngOp.pfxlk, lookStep), (.pfxins, insertStep)] →
          (∀ v, step d u = .ok .on v → let d' : Entry := { d with prog := p + 1 }
            (p + 1 = pN b → ends d' (p + 1) 0 (4 * (p + 1) + 8) 0 0 (engAnswered e v)) ∧
            (p + 1 < pN b → exec i s = .next (back 4 (setHead 4 d' (engAnswered e v))))) ∧
          (∀ v st, step d u = .ok (.off st) v → ends d p st (4 * p + 8) 0 0 v) ∧
          (∀ c o, c ≠ 0 → step d u = .err c o → ends d p 3 (4 * p + 8) c o u)) ∧
        (op = .pfxunpin →
          (∀ taken v, unpinStep d u = .ok taken v → let d' : Entry := { d with prog := p + 1, acc := if taken then e.acc + 1 else e.acc }
            (p + 1 = pN b → ends d' d'.acc 0 8 0 0 (engAnswered e v)) ∧
            (p + 1 < pN b → exec i s = .next (back 4 (setHead 4 d' (engAnswered e v))))) ∧
          (∀ c o, c ≠ 0 → unpinStep d u = .err c o → ends d p 3 8 c o u))) ∧
    (∀ q op dn, (q, op) ∈ [(1, EngOp.rgath), (1, .rscat), (2, .coll)] → headEntry u q (fun x => x = op) = some e → u.dev.arg.idx = q →
      2 ^ 28 ≤ cycNow u - e.start.getD (cycNow u) → waitsFor e u.dev.arg.num u = some dn → let t := engAnswered e u
      exec .remoteTimeout s = .next (home (if op = .coll then finishHead 2 e 0 0x43 dn (collPartial e u.dev.arg.nats u.dev.arg.parts t)
        else finishHead 1 e e.acc 0x43 dn (if op = .rscat then trainPartial e u.dev.arg.nats u.dev.arg.ok t else t)))) ∧
    (∀ q x, u.dev.arg.idx = q → (queueOf u.slot q).head? = some e → e.done = some x →
      let popped := setQueue q (queueOf u.slot q).tail u
      (e.op ∈ [.cpy, .rgath, .rscat, .coll, .pfxh, .pfxlk, .pfxins, .pfxunpin, .wbfill] →
        exec .engineEntryComplete s = .next (home (settleAll (updateBar e.bar (fun b =>
            let b := barExpect (-(BitVec.ofNat 32 x.n)) (if x.cause = 0 then b else barErr (q + 1) x.cause x.origin e.seq b)
            if e.nr then b else barArrive b)
          { popped with slot.out := SMap.set 0 u.slot.out e.bar (outOf u e.bar - 1) })))) ∧
      (e.op = .mma ∨ e.op = .mmamo → ∃ t, exec .engineEntryComplete s = .next (home t) ∧ t.dev = u.dev ∧
        (threadAt t e.role).sr.fpflags = (threadAt u e.role).sr.fpflags ||| w64 (x.n % 32)))) ∧
  (∀ (e : Entry) (t n : Nat) (u v w : State) (bs : List Byte) (locs : List Loc), let b := e.block.toNat
    dBlk (cSrc b) = 0 → fmtEw (dFmt (cSrc b)) = 8 * n → 0 < n → (bitSpan (dBit (cSrc b) t) (8 * n)).2 = (n, 0) → (bitSpan (dBit (cDst b) t) (8 * n)).2 = (n, 0) →
    engRead e (bitSpan (dBit (cSrc b) t) (8 * n)).1 n u = .ok bs v → engReach e true (bitSpan (dBit (cDst b) t) (8 * n)).1 n u = .ok locs w →
    (locs.map (·.key)).Nodup → u.dev.retire = [] → u.dev.mwatch = [] →
    ∃ x, copyStep e t u = .ok x u ∧ let z := copyPut e x.1 x.2 u
      locs.map (fun l => readByte z.dev l.key) = bs ∧ ∀ key, key ∉ locs.map (·.key) → readByte z.dev key = readByte u.dev key) ∧
  (∀ own e tail xs dn, gSize e.block.toNat ≤ 64 → let l := (trainsOf own e tail xs).filter (fun g => g.train = dn)
    l.flatMap (·.elems) = xs.filter (fun x => sentDev own x = dn) ∧ (∀ g ∈ l, g.elems.length * gSize e.block.toNat ≤ 4096 ∧ g.tail = tail) ∧
    ∀ i g, l[i]? = some g → (g.last = true ↔ i + 1 = l.length)) ∧
  (∀ (b i n : Nat) (srcs : List (List Byte)), let w := fmtEw (kFmt b)
    5 ≤ kFmt b ∧ kFmt b ≤ 11 → let at' := fun (x : List Byte) k => elemOf (leNat x) w k
    (kOp b = 0 ∨ kOp b = 2 → ∀ k < kCount b, at' (collResult b i n srcs) k =
      reduceElem (kRop b) (kFmt b) (srcs.map (fun x => at' x ((if kOp b = 2 then i * kCount b else 0) + k))) % 2 ^ w) ∧
    (kOp b = 1 → srcs.length = n → (∀ x ∈ srcs, x.length = kCount b * (w / 8)) → collResult b i n srcs = srcs.flatten)) ∧
  (∀ f l, fmtInt f = true → l ≠ [] → (∀ x ∈ l, x < 2 ^ fmtEw f) → reduceElem 0 f l = l.sum % 2 ^ fmtEw f ∧
    (∀ x ∈ l, intElem f (reduceElem 1 f l) ≤ intElem f x ∧ intElem f x ≤ intElem f (reduceElem 2 f l)) ∧ reduceElem 1 f l ∈ l ∧ reduceElem 2 f l ∈ l) ∧
  (∀ f ∈ [9, 10, 11], ∀ x y, let v := fun c => fval (ffmt 9) (toAcc f c)
    reduceElem 0 f [x, y] = (roundTo f .rne false false (fval (ffmt 9) (roundTo 9 .rne false false (fvAdd .rne (v x) (v y)).1).1)).1)

/-- R217 to R224, R225, R232, R234, R289: the dispatcher. A write of QCFG sets the registers of a queue, and enabling it starts it afresh; a
write of the notify index counts only forward and within the ring. A packet that keeps R218 is copied, its VALID cleared and QRD raised;
one that does not stops its queue. A KERNEL packet offers one launch, a GRAPH packet one for each TCB. A BARRIER completes when what it
waits for holds; a SIGNAL subtracts ARG1 from the signal. A launch whose checks pass is admitted, its tasks READY where PRED is 0. A
placed launch has each thread of its slots at its entry. A missed deadline is counted once. Choices and readings of the model's own that
it rests on: log 13, 29, 30, 34, 48, 52. -/
def Obligations.QueueEvents : Prop :=
  ∀ s : State, let d := park s
    let q := d.arg.idx
    let u := queueAt d q
    let v := d.arg.val
    let after := fun d' => (Host.Outcome.next (unpark d' s.cur.1 s.cur.2) : Host.Outcome State Fault Refusal)
    (q < 1024 → queueOn u = true → exec .qcfgWrite s = after (setQueueRegs q { u with qcfg := (u.qcfg &&& ~~~0x40) ||| (v &&& 0x40) } d)) ∧
    (q < 1024 → queueOn u = false → let size := v.toNat % 32
      (6 ≤ size → size ≤ 16 → v.toNat.testBit 6 = true → ∃ u', exec .qcfgWrite s = after (setQueueRegs q u' d) ∧ queueOn u' = true ∧
        u'.qcfg = v &&& 0xFFFFFFF7F ∧ u'.qrd = 0 ∧ u'.qstat = 0 ∧ u'.qnotify = 0 ∧ u'.qbase = u.qbase ∧ u'.qchg = u.qchg) ∧
      (size < 6 ∨ 16 < size → exec .qcfgWrite s = after (setQueueRegs q { u with qcfg := v &&& 0xFFFFFFF3F } d))) ∧
    (q < 1024 → exec .qnotifyWrite s = after (setQueueRegs q
      (if u.qnotify.toNat ≤ v.toNat ∧ v.toNat ≤ u.qrd.toNat + ringSize u then { u with qnotify := v, wait := false } else u) d)) ∧
    (∀ b0, q < 1024 → queueOn u = true → u.qstat = 0 → u.wait = false → u.qrd.toNat < u.qnotify.toNat →
      let c := queueCtx u
      let va := packetAddr u
      ctxRead d c va 1 = .ok b0 →
      ((leNat b0).testBit 0 = false → exec .packetConsume s = after (setQueueRegs q { u with wait := true } d)) ∧
      (∀ bs, (leNat b0).testBit 0 = true → ctxRead d c va 64 = .ok bs →
        (packetBad u (leNat bs) = true → exec .packetConsume s = after (postDisp c (u.qcfg.toNat / 2 ^ 28 % 2 ^ 8) va 1 q
          (setQueueRegs q { u with qstat := 1 } d))) ∧
        (∀ d', packetBad u (leNat bs) = false → listMiss d c (leNat bs) = none → ctxWrite 0 c va [0] d = .ok d' →
          exec .packetConsume s = after (setQueueRegs q { u with qrd := u.qrd + 1 }
            { d' with packets := SMap.put d'.packets d.nextId (packetOf q u (leNat bs)), nextId := d.nextId + 1 })))) ∧
    (∀ pk, SMap.find d.packets q = some pk → mayStart d q pk = true → pk.typ < 2 →
      let lists := if pk.typ = 0 then [pk.tcbs] else pk.tcbs.map (fun t => [t])
      ∃ d', exec .packetStart s = after d' ∧ d'.nextId = d.nextId + lists.length ∧
        SMap.find d'.packets q = some { pk with phase := 1, launches := upFrom d.nextId lists.length } ∧
        ∀ i tcbs, lists[i]? = some tcbs → SMap.find d'.launches (d.nextId + i) = some
          { Launch.offered (queueCtx (queueAt d pk.queue)) pk.queue (d.ser + i) pk.acct with
            packet := some q, dead := pk.flags.testBit 0, abort := pk.flags.testBit 1, deadline := pk.deadline, tcbs := tcbs }) ∧
    (∀ pk, SMap.find d.packets q = some pk → pk.typ = 2 → pk.phase = 0 → (∀ x ∈ earlier d q pk, x.phase = 2) →
      (pk.arg0 = 0 → exec .barrierPacketComplete s = after (completePacket q d)) ∧
      (∀ bs, pk.arg0 ≠ 0 → ctxRead d (queueCtx (queueAt d pk.queue)) pk.arg0 8 = .ok bs →
        exec .barrierPacketComplete s = after (if (w64 (leNat bs)).toInt ≤ pk.arg1.toInt then completePacket q d else d))) ∧
    (∀ pk bs d', SMap.find d.packets q = some pk → pk.typ = 3 → mayStart d q pk = true →
      ctxRead d (queueCtx (queueAt d pk.queue)) pk.arg0 8 = .ok bs →
      ctxWrite 1 (queueCtx (queueAt d pk.queue)) pk.arg0 (leBytes 8 (w64 (leNat bs) - pk.arg1).toNat) d = .ok d' →
      exec .signalPacket s = after (completePacket q d')) ∧
    (∀ l, SMap.find d.launches q = some l → l.phase = 0 →
      let a := d.arg
      let l' := { l with translated := a.ok, mode1 := a.ok2, minvl := a.num, maxvl := a.len, scrmin := a.val.toNat }
      let d0 := setLaunch q l' d
      (∀ v, tcbBlocks d0 l' = .error v → exec .launchAdmit s = after (rejectLaunch q 4 v (knownSignal d0 l') l' d0)) ∧
      ∀ bs, tcbBlocks d0 l' = .ok bs →
        (∀ c v, checkLaunchTcbs d0 l' bs = .error (c, v) → exec .launchAdmit s = after (rejectLaunch q c v (bfield (bs.headD 0) 104 8) l' d0)) ∧
        ∀ m, checkLaunchTcbs d0 l' bs = .ok m → m.tcbs.length = bs.length → ∃ d', exec .launchAdmit s = after d' ∧
          SMap.find d'.launches q = some { m with
            phase := 1, admitted := d.ser + 1, tasks := upFrom d.nextId bs.length, sig := bfield (bs.headD 0) 104 8 } ∧
          ∀ i b tcb, bs[i]? = some b → m.tcbs[i]? = some tcb → SMap.find d'.tasks (d.nextId + i) =
            some { taskOf q tcb i b with st := if b % 2 ^ 32 = 0 then 2 else 1 }) ∧
    (∀ l, SMap.find d.launches q = some l → l.cutting = none → waitsForSlots d l = true → isNext d l = true → slotsFit d l d.arg.nats = true →
      d.arg.pairs = [] → ∃ d', exec .placeLaunch s = after d' ∧ SMap.find d'.launches q = some { l with phase := 2, slots := d.arg.nats } ∧
        ∀ j n e, d.arg.nats[j]? = some n → e ∈ entriesOf l.cfg →
          let sl := slotOf d' n
          let t := SMap.get Thread.absent sl.ths e.1
          let k := l.kdesc.toNat
          sl.st = .running ∧ sl.launch = q ∧ sl.lslot = j ∧ sl.ctx = l.ctx ∧ sl.acct = l.acct ∧
          t.live = true ∧ t.pc = w64 (bfield k e.2 8) ∧ SMap.get 0 t.x 2 = w64 (bfield k 24 8) + w64 ((3 * j + e.1 + 1) * bfield k 32 4) ∧
          SMap.get 0 t.x 3 = l.argp ∧ (∀ r, r ≠ 2 → r ≠ 3 → SMap.get 0 t.x r = 0) ∧ t.sr.tvec = w64 (bfield k 56 8) &&& 0x000FFFFFFFFFFFFC ∧ t.sr.vtype = 0) ∧
    (∀ l, SMap.find d.launches q = some l → (l.phase = 1 ∨ l.phase = 2) → l.dead = true →
      (d.devtime.toNat < l.deadline.toNat → exec .deadlineMiss s = after d) ∧
      (l.deadline.toNat ≤ d.devtime.toNat → l.missed = false → l.abort = false →
        exec .deadlineMiss s = after (addAcnt l.acct 7 1 (setLaunch q { l with missed := true, dead := false } d))))

/-- R201, R318 to R322, R333 to R338, R351 to R354, R394: the host's hold on slots. LPART changes only while its core holds no thread; MAXVL
is masked. RESUME runs a stopped slot whose record is posted, PREEMPT and the watchdog begin to save it once a frame is free, END stops
its launch. A drained slot is saved in a free frame, which the device chooses; a save that faults, or that the watchdog gives up, ends its
launch with cause 0x38 and the next instruction's address. A system cutting goes back on a slot, and a suspended slot's section is written
and the slot left. A held record is posted to its context's fault queue. The debug window halts a thread, and reads and writes what it
selects while it is open; closed, it reads 0 and sets ERR. Choices and readings of the model's own that it rests on: log 13, 43, 44, 45,
46, 56, 82. -/
def Obligations.SlotEvents : Prop :=
  ∀ s : State, let d := park s
    let a := d.arg
    let n := a.slot
    let r := a.role
    let sl := slotOf d n
    let u := focus s n r
    let after := fun d' => (Host.Outcome.next (unpark d' s.cur.1 s.cur.2) : Host.Outcome State Fault Refusal)
    let back := fun t => (Host.Outcome.next (focus t s.cur.1 s.cur.2) : Host.Outcome State Fault Refusal)
    (a.idx < 256 → exec .lpartWrite s = after (if a.val.toNat % 4 ≠ 3 ∧ (slotOf d (2 * a.idx)).st = .free ∧ (slotOf d (2 * a.idx + 1)).st = .free
      then { d with lpart := SMap.set 0 d.lpart a.idx (a.val.toNat % 4) } else d)) ∧
    (a.idx < 512 → exec .maxvlWrite s = after { d with maxvl := SMap.set 16384 d.maxvl a.idx (a.val &&& 0x1FFFF) }) ∧
    (sl.posted = false ∨ (sl.st ≠ .stopped ∧ sl.st ≠ .stalled) → exec .slotResume s = after d) ∧
    (sl.posted = true → sl.st = .stopped ∨ sl.st = .stalled → ∃ d', exec .slotResume s = after d' ∧ (slotOf d' n).st = .running ∧
      (slotOf d' n).held = none ∧ (slotOf d' n).posted = false ∧
      ∀ k t, k < 3 → SMap.find sl.ths k = some t → t.hid.active = false →
        SMap.get Thread.absent (slotOf d' n).ths k = { t with halted := (dbgAt d n k).halt }) ∧
    (∀ e, e = focus s n 1 →
      (e.slot.st = .running ∨ e.slot.st = .stopped ∨ e.slot.st = .stalled) → e.slot.chain = none →
      exec .slotPreempt s = back (if saveReady e e.slot then { e with slot.st := .saving, slot.save := some .preempt, slot.wdog := 0 }
        else { e with slot.save := some .preempt })) ∧
    (∀ l, SMap.find d.slots n = some sl → sl.st ≠ .free → sl.chain = none → SMap.find d.launches sl.launch = some l → l.phase ≠ 3 →
      l.ending = false → l.cause = 0 → (∃ p ∈ sl.ths, p.2.pnd.stores ≠ []) →
      ∃ d', exec .slotEnd s = after d' ∧ SMap.find d'.launches sl.launch = some { l with ending := true, status := l.status ||| 4 } ∧
        (slotOf d' n).st = .saving ∧ (slotOf d' n).ths = sl.ths) ∧
    (let s' := within n 1 unsuspend s
      let d := park s'
      let sl := slotOf d n
      let addr := fun f => (ctxOf d sl.ctx).savebase.toNat + f * ((ctxOf d sl.ctx).savecfg.toNat / 2 ^ 16 % 2 ^ 24 * 4096)
      ∀ f d1, (slotAt s n).save.isSome = true → (slotAt s n).st = .saving → (slotAt s n).ctx = sl.ctx → saveDrained (slotAt s n) = true →
        pickFrame (park s) sl.ctx a.idx = some f → sl.chain = none →
        let cs := match SMap.find d.launches sl.launch with | some l => l.cscope | none => 0
        let bound := sl.bound.getD (sl.launch, sl.lslot)
        (writeSystemCut (savedSlot d n (2 ^ 48 - 1) sl) cs bound.1 bound.2 (addr f) d = (d1, false) →
          exec .preemptSave s = .next (unpark (abandonSave n sl.launch (addr f) d1) s'.cur.1 s'.cur.2)) ∧
        (writeSystemCut (savedSlot d n (2 ^ 48 - 1) sl) cs bound.1 bound.2 (addr f) d = (d1, true) → ∃ d2 cut, exec .preemptSave s = .next (unpark d2 s'.cur.1 s'.cur.2) ∧ (slotOf d2 n).st = .free ∧
          SMap.find d2.sysCuts d.nextId = some cut ∧ cut.launch = sl.launch ∧ cut.lslot = sl.lslot ∧ cut.frame = f ∧ cut.addr = addr f ∧
          cut.ctx = sl.ctx ∧ f ∈ (ctxOf d2 sl.ctx).frames)) ∧
    (watchExpired d n = true → sl.st = .saving → sl.save.isSome = true → sl.chain = none → ∃ d', (slotOf d' n).st = .free ∧
      (slotOf d' n).held.map (fun r => (r.cause, r.tpc)) = some (0x38, (SMap.get Thread.absent sl.ths (chiefRole sl)).pc) ∧ exec .saveAbandon s = after (tryEnd sl.launch (beginEnd sl.launch 1 0x38 d'))) ∧
    (∀ c l hb d', SMap.find d.sysCuts a.idx = some c → SMap.find d.launches c.launch = some l → ctxRead d c.ctx c.addr 256 = .ok hb →
      let h := leNat hb
      (bfield h 8 8 ≠ 2 → exec .systemCuttingResume s = after d) ∧
      (bfield h 8 8 = 2 → cutWaits d a.idx c = true → (∀ x, cutLaunch d c = some x → isNext d x = true) → slotFree d n = true →
        slotFits d (bfield h 37 1) (bfield h 40 4) (bit (bfield h 16 4) 0) (bfield h 32 4) (bfield h 76 2) n = true →
        placeSystemCut a.idx n c l d = .ok d' →
        exec .systemCuttingResume s = after d' ∧ SMap.find d'.sysCuts a.idx = none ∧ c.frame ∉ (ctxOf d' c.ctx).frames)) ∧
    (∀ e, e = focus s n (chiefRole sl) →
      ∀ w l k c t c', suspReady sl = true → e.thr.pnd.susp = some w → SMap.find e.dev.launches e.slot.launch = some l →
        cutOf e l w.group = some (k, c) → writeMember w l k c e = .ok (t, c') →
        exec .suspSectionWrite s = back (onDevice (fun d => leaveSlot n (cutAnswered n d)) t) ∧ c'.left = c.left.filter (· != e.slot.lslot) ∧
          c'.written.length = c.written.length + 1) ∧
    (∀ e, e = focus s n (chiefRole sl) →
      sl.st = .running → (∃ p ∈ sl.ths, p.2.live = true) → watchExpired d n = true → sl.chain = none → sl.save = none →
      ∃ fr, exec .watchdogExpire s = back { e with
        slot.st := if saveReady e sl then .saving else .running, slot.save := some .watchdog, slot.wdog := 0, slot.held := some fr, slot.posted := false } ∧
        fr.cause = 0x38 ∧ fr.role = chiefRole sl ∧ fr.tpc = e.thr.pc) ∧
    (∀ fr d1, sl.held = some fr → sl.posted = false → sl.postFault = false → sl.st ≠ .free →
      postRecord d sl.ctx (recordBytes n sl fr) = .posted d1 →
      ∃ d', exec .faultRecordPost s = after d' ∧ (slotOf d' n).posted = true ∧ (slotOf d' n).st = sl.st ∧ d'.mem = d1.mem ∧ d'.ctxs = d1.ctxs) ∧
    (a.idx < 4096 → let b := ctxOf d a.idx
      ∃ b' sls, exec .fqcfgWrite s = after { setCtx d a.idx b' with slots := sls } ∧
        b'.fqcfg.toNat % 2 ^ 5 = (if 4 ≤ a.val.toNat % 2 ^ 4 ∧ a.val.toNat % 2 ^ 4 ≤ 12 then a.val.toNat % 2 ^ 5 else a.val.toNat % 2 ^ 4) ∧
        (b'.fqcfg.toNat.testBit 4 = true → b.fqcfg.toNat.testBit 4 = false → b'.fqwr = 0 ∧ b'.fqrd = 0)) ∧
    (n < 512 → r < 3 → let x := dbgAt u.dev n r
      exec .dbgHaltWrite s = back { u with
        thr.halted := a.val.toNat.testBit 0 && (u.thr.halted || (decide (u.slot.st = .running) && u.thr.live))
        dev.dbg := SMap.set DbgBlk.reset u.dev.dbg (3 * n + r) { x with
          halt := a.val.toNat.testBit 0, sstep := a.val.toNat.testBit 1, bkstop := a.val.toNat.testBit 2, halted := x.halted && a.val.toNat.testBit 0 } }) ∧
    (u.thr.halted = true → (∀ e ∈ u.slot.mxq, e.op = .marker ∨ e.role ≠ r) → exec .threadHalted s = back { u with
      dev.dbg := SMap.set DbgBlk.reset u.dev.dbg (3 * n + r) { dbgAt u.dev n r with halted := true } }) ∧
    (n < 512 → r < 3 → let ok := windowOpen u && selOk u
      ∃ t, exec .dbgdataRead s = back t ∧ t.dev.hostData = leBytes 8 (if ok then dbgRead u else 0).toNat ∧ t.thr = u.thr ∧ t.slot = u.slot ∧
        (dbgAt t.dev n r).err = ((dbgAt u.dev n r).err || !ok)) ∧
    (n < 512 → r < 3 → (windowOpen u && selWritable u) = false → exec .dbgdataWrite s = back { u with
      dev.dbg := SMap.set DbgBlk.reset u.dev.dbg (3 * n + r) { dbgAt u.dev n r with err := true } }) ∧
    (n < 512 → r < 3 → windowOpen u = true → selWritable u = true → ∃ t, exec .dbgdataWrite s = back t ∧
      ((dbgSel u).1 = 0 → t = { u with thr.pc := a.val &&& ~~~3 }) ∧
      ((dbgSel u).1 = 1 → (dbgSel u).2.1 ≠ 0 → t = { u with thr.x := SMap.set 0 u.thr.x (dbgSel u).2.1 a.val }) ∧
      ((dbgSel u).1 = 3 → 64 * (dbgSel u).2.2 + 64 ≤ 16384 → (SMap.get 0 t.thr.v (dbgSel u).2.1).toNat / 2 ^ (64 * (dbgSel u).2.2) % 2 ^ 64 = a.val.toNat))

/-- R246, R249, R332, R360, R363 to R367, R390 to R393, R397: what the host and errors do. A TLBI command starts where none is under way and
its acknowledgement leaves no translation that it covers; an extend hashes its register with the latched digest. An access of the window
that is no aligned doubleword does nothing but set BADACC; a write of MAXVL or of a counter sets it. The host reads and writes bytes of
device memory and of host-window lines. An error on a single bit is counted; a wider one poisons its granule with contents that nothing
constrains. A scrub pass counts what it corrects and poisons each tile that holds damage. A waiting frame takes a spare; its lines are
copied byte for byte, and once the switch is done every access goes to the spare. Choices and readings of the model's own that it rests
on: log 13, 32, 53, 61, 67, 68, 74. -/
def Obligations.HostEvents : Prop :=
  ∀ s : State, let d := park s
    let a := s.dev.arg
    let after := fun d' => (Host.Outcome.next (unpark d' s.cur.1 s.cur.2) : Host.Outcome State Fault Refusal)
    let dev := fun d' => (Host.Outcome.next { s with dev := d' } : Host.Outcome State Fault Refusal)
    (∀ i k, (i, k) ∈ [(Instr.tlbiPage, 0), (.tlbiDataCtx, 1), (.tlbiInstrCtx, 2), (.tlbiAll, 3)] →
      (d.tlbiBusy = true → exec i s = after d) ∧
      (d.tlbiBusy = false → exec i s = after { d with tlbiBusy := true, tlbiKind := k, tlbiFor := (d.tlbiVa.toNat, d.tlbiCtx.toNat) })) ∧
    (d.tlbiBusy = true → tlbiQuiet d = true → ∃ d', exec .tlbiAck s = after d' ∧ d'.tlbiBusy = false ∧ d'.tlbiDone = true ∧
      (∀ e, e ∈ d'.tlb ↔ e ∈ d.tlb ∧ tlbiHits d e = false) ∧ d'.mem = d.mem ∧ d'.slots = d.slots) ∧
    (s.dev.boot.mextBusy = true → exec .mextGo s = dev { s.dev with
      boot.mreg := SMap.set 0 s.dev.boot.mreg s.dev.boot.mextTo
        (BitVec.ofNat 256 (leNat (sha256 (leBytes 32 (SMap.get 0 s.dev.boot.mreg s.dev.boot.mextTo).toNat ++ leBytes 32 s.dev.boot.mextLatch.toNat))))
      boot.mextBusy := false }) ∧
    (let h := serviced a.nats s
    (h = { s with dev.msix := h.dev.msix } ∧ ∀ v, SMap.get false h.dev.msix v = (SMap.get false s.dev.msix v && !a.nats.contains v)) ∧
    (a.num < 2 ^ 32 → a.len ≠ 8 ∨ a.num % 8 ≠ 0 → exec .registerWrite s = .next { h with
      dev.boot.badacc := true, dev.hostData := if a.ok2 then List.replicate (min a.len 8) 0 else s.dev.hostData }) ∧
    (a.ok2 = false → a.len = 8 → a.num % 8 = 0 →
      (0x20000 ≤ a.num → a.num < 0x24000 → exec .registerWrite s = .next { h with dev.acnt := SMap.set 0 s.dev.acnt ((a.num - 0x20000) / 8) a.val }) ∧
      (0xC0000 ≤ a.num → a.num < 0xC4000 → a.num % 32 = 0 → exec .registerWrite s =
        .next (unpark { park h with maxvl := SMap.set 16384 d.maxvl ((a.num - 0xC0000) / 32) (a.val &&& 0x1FFFF) } s.cur.1 s.cur.2))) ∧
    (a.ok2 = true → a.len = 8 → a.num % 8 = 0 → 0x20000 ≤ a.num → a.num < 0x24000 →
      exec .registerWrite s = .next { h with dev.hostData := leBytes 8 (SMap.get 0 s.dev.acnt ((a.num - 0x20000) / 8)).toNat })) ∧
    (let key := s.dev.boot.devnum * 2 ^ 48 + a.val.toNat
    let Wrote := fun (i : Instr) => ∃ d', exec i s = dev d' ∧
      (s.dev.retire = [] → s.dev.mwatch = [] → (∀ j b, a.bytes[j]? = some b → readByte d' (key + j) = b) ∧
        ∀ k, (k < key ∨ key + a.bytes.length ≤ k) → readByte d' k = readByte s.dev k)
    (a.val.toNat + a.len ≤ 2 ^ 40 → exec .cxlMemRead s = dev { s.dev with hostData := (upFrom key a.len).map (readByte s.dev) }) ∧
    (a.val.toNat + a.bytes.length ≤ 2 ^ 40 → Wrote .cxlMemWrite) ∧
    (0x800000000000 ≤ a.val.toNat → a.val.toNat + a.bytes.length ≤ 0xC00000000000 → Wrote .cxlCacheSnoop)) ∧
    (a.ok = true → a.len ≤ 13 → let core := if a.len ≤ 10 then a.slot / 2 else a.slot
      exec .softError s = dev { s.dev with ras := SMap.set 0 s.dev.ras (8 * core + 2) (satAdd (SMap.get 0 s.dev.ras (8 * core + 2)) 1) }) ∧
    (a.ok = false → a.len = 14 → a.num < 16 → a.val.toNat < 2 ^ 63 → isLocalDev s.dev a.val.toNat = true → ∃ d', exec .softError s = dev d' ∧
      (s.dev.retire = [] → SMap.get false d'.poison (a.val.toNat / 64) = true ∧ (retireAt d' a.num).ue = 1 ∧
        ∀ k, k / 64 ≠ a.val.toNat / 64 → SMap.get 0 d'.mem k = SMap.get 0 s.dev.mem k)) ∧
    (a.idx < 256 → let v := within (2 * a.idx + 1) 1 scrubSlot (within (2 * a.idx) 1 scrubSlot s)
      exec .scrubPass s = .next (if a.num = 0 then v
        else { v with dev.ras := SMap.set 0 v.dev.ras (8 * a.idx + 2) (satAdd (SMap.get 0 v.dev.ras (8 * a.idx + 2)) a.num) })) ∧
    (chainOf s = none →
      ((∀ z < 16, latent s 0 z = false) → (∀ k < 4, latent s 8 k = false) → scrubSlot s = s) ∧
      (∀ z < 16, latent s 0 z = true → tilePoisoned (scrubSlot s) z = true ∧ latent (scrubSlot s) 0 z = false) ∧
      (∀ k < 4, latent s 8 k = true → (wbOf (scrubSlot s) k).poison = true) ∧
      ∀ z, tileOf (scrubSlot s) z = tileOf s z) ∧
    (a.idx < 16 → let r := retireAt s.dev a.idx
      (∀ f rest, r.waiting = f :: rest → r.st = 0 →
        (r.used < (spareOf r).2 → exec .frameRetireStart s = dev (raiseVector 0 { s.dev with
          retire := SMap.set Retire.reset s.dev.retire a.idx { r with waiting := rest, used := r.used + 1, st := 1, frame := f, marked := [], passes := 0 } })) ∧
        ((spareOf r).2 ≤ r.used → exec .frameRetireStart s = dev (raiseVector 0 { s.dev with
          retire := SMap.set Retire.reset s.dev.retire a.idx { r with waiting := rest, nospare := true } }))) ∧
      let from' := homeKey s.dev (localKey s.dev (65536 * r.frame))
      let to' := localKey s.dev (65536 * ((spareOf r).1 + r.used - 1))
      let Copied := fun (lines : List Nat) (d' : Device) => (∀ ln ∈ lines, ln < 512) → (from' + 65536 ≤ to' ∨ to' + 65536 ≤ from') →
        let byte := fun (d : Device) k => SMap.get Config.unlistedByte d.mem k
        (∀ ln ∈ lines, ∀ i < 128, byte d' (to' + 128 * ln + i) = byte s.dev (from' + 128 * ln + i)) ∧
        ∀ k, k / 128 ∉ lines.map (fun ln => to' / 128 + ln) → byte d' k = byte s.dev k
      (r.st = 1 → ∃ d', exec .copyPassEnd s = dev d' ∧ Copied (if r.passes = 0 then upFrom 0 512 else r.marked) d' ∧
        let left := r.marked.filter a.nats.contains
        retireAt d' a.idx = { r with marked := left, passes := r.passes + 1, st := if left.length ≤ 8 ∨ 16 ≤ r.passes + 1 then 2 else 1 }) ∧
      (r.st = 2 → ∃ d', exec .retireSwitchDone s = dev d' ∧ Copied r.marked d' ∧
        retireAt d' a.idx = { r with st := 0, marked := [], retired := r.retired ++ [(from', to')] }))

/-- R273, R374, R375, R378 to R388: the fabric. A flit whose CRC fails is resent and counted, and after eight failed resends its port goes
down; a port that trains comes up. A request of another device is applied once: a store writes its bytes, a load reads, an atomic or a
scatter-add answers the old value, kept for its copies; a copy is answered from what is kept, and a home without room answers BUSY. A
train's segments are applied in order, each element written in its turn, and after the last one its elements are added to the counter at
TAIL. An answer kept for 64 ms and acknowledged is dropped. A request without an answer is sent again, then its plane is suspect; the
probe gives the verdict. A quiesce of the next generation holds the requests on the dead planes; a device is drained when none is left
that is not held; the survivors take the entries of the map, and a release sends what was held. A device that has not drained in 12 ms is
dead. Choices and readings of the model's own that it rests on: log 13, 62, 63, 64, 65, 66, 75. -/
def Obligations.FabricEvents : Prop :=
  ∀ s : State, let d := s.dev
    let a := d.arg
    let f := d.fab
    let dev := fun d' => (Host.Outcome.next { s with dev := d' } : Host.Outcome State Fault Refusal)
    let fab := fun f' => dev { d with fab := f' }
    (a.idx < 32 → (portReg f a.idx).testBit 0 = true →
      (a.ok = true → exec .flitReceive s = fab { f with crcFails := SMap.set 0 f.crcFails a.idx 0 }) ∧
      (a.ok = false → SMap.get 0 f.crcFails a.idx < 8 → ∃ f', exec .flitReceive s = fab f' ∧ SMap.get 0 f'.crcFails a.idx = SMap.get 0 f.crcFails a.idx + 1 ∧
        (portReg f' a.idx).testBit 0 = true ∧ portReg f' a.idx / 2 ^ 16 % 2 ^ 32 = min (portReg f a.idx / 2 ^ 16 % 2 ^ 32 + 1) (2 ^ 32 - 1)) ∧
      (a.ok = false → 8 ≤ SMap.get 0 f.crcFails a.idx → ∃ d', exec .flitReceive s = dev d' ∧ (portReg d'.fab a.idx).testBit 0 = false ∧
        SMap.get false d'.msix 1 = true)) ∧
    (a.idx < 32 → (portReg f a.idx).testBit 0 = false → ∃ d', exec .portUp s = dev d' ∧ (portReg d'.fab a.idx).testBit 0 = true ∧
      SMap.get false d'.msix 1 = true) ∧
    (applied a.idx (windowOf d a.num) = false →
      (a.ok = true → exec .remoteRequestReceive s = fab { f with reply := [0xFF] }) ∧
      (a.ok = false → 4096 ≤ beyond a.idx (windowOf d a.num) → exec .remoteRequestReceive s = fab { f with reply := [0xFF] }) ∧
      (a.ok = false → beyond a.idx (windowOf d a.num) < 4096 → a.len = 1 → (∀ k ∈ upFrom a.val.toNat a.slot, isLocalDev d k = true) →
        exec .remoteRequestReceive s = fab { f with
          windows := SMap.set Window.empty f.windows a.num (markSeq a.idx (windowOf d a.num))
          reply := if (upFrom a.val.toNat a.slot).any (poisoned d) then [0x30] else 0 :: readBytes d a.val.toNat a.slot }) ∧
      (a.ok = false → beyond a.idx (windowOf d a.num) < 4096 → a.len = 0 → (∀ k ∈ upFrom a.val.toNat a.bytes.length, isLocalDev d k = true) →
        a.nats = [] → d.retire = [] → d.mwatch = [] → ∃ d', exec .remoteRequestReceive s = dev d' ∧ d'.fab.reply = [0] ∧
          (∀ j b, a.bytes[j]? = some b → readByte d' (a.val.toNat + j) = b) ∧
          ∀ k, (k < a.val.toNat ∨ a.val.toNat + a.bytes.length ≤ k) → readByte d' k = readByte d k) ∧
      (a.ok = false → beyond a.idx (windowOf d a.num) < 4096 → a.len = 4 → a.slot ≤ 8 → d.retire = [] → d.mwatch = [] →
        (∀ k ∈ upFrom a.val.toNat a.slot, isLocalDev d k = true) → let old := readNat d a.val.toNat a.slot
        ∃ d', exec .remoteRequestReceive s = dev d' ∧ d'.fab.reply = 0 :: leBytes a.slot old ∧
          readNat d' a.val.toNat a.slot = scatAdd a.role old (a.val2.toNat % 2 ^ fmtEw a.role) % 2 ^ (8 * a.slot)) ∧
      (a.ok = false → beyond a.idx (windowOf d a.num) < 4096 → a.len = 2 → a.role = 0 → a.slot = 8 → d.poison = [] → d.retire = [] → d.mwatch = [] →
        (∀ k ∈ upFrom a.val.toNat 8, isLocalDev d k = true) → let old := readNat d a.val.toNat 8
        ∃ d', exec .remoteRequestReceive s = dev d' ∧ d'.fab.reply = 0 :: leBytes 8 old ∧ readNat d' a.val.toNat 8 = (old + a.val2.toNat) % 2 ^ 64 ∧
          (SMap.find (windowOf d' a.num).cache a.idx).map Prod.fst = some (w64 old))) ∧
    (∀ c, applied a.idx (windowOf d a.num) = true → SMap.find (windowOf d a.num).cache a.idx = some c →
      exec .remoteRequestReceive s = fab { f with reply := 0 :: leBytes a.slot c.1.toNat }) ∧
    (a.parts.all (fun x => (upFrom x.1 x.2.length).all (isLocalDev d)) = true → (a.parts.map (fun x => x.2.length)).sum ≤ 4096 → let w := windowOf d a.num
      let next := (SMap.get (0, 0) w.segs a.idx).1
      (a.len < next → exec .trainSegmentReceive s = fab { f with reply := [0] }) ∧
      (next < a.len → (∀ g ∈ w.early, ¬ (g.train = a.idx ∧ g.num = a.len)) → exec .trainSegmentReceive s = fab { f with
        windows := SMap.set Window.empty f.windows a.num { w with
          early := w.early ++ [⟨a.idx, a.len, a.parts, a.ok, if a.ok2 then some a.val.toNat else none⟩] } }) ∧
      let total := (SMap.get (0, 0) w.segs a.idx).2 + a.parts.length
      let elems := a.parts.flatMap (fun x => (upFrom x.1 x.2.length).zip x.2)
      let at' := localKey d a.val.toNat
      let adds := a.ok = true ∧ a.ok2 = true
      (a.len = next → w.early = [] → d.retire = [] → d.mwatch = [] → ∃ d', exec .trainSegmentReceive s = dev d' ∧ d'.fab.reply = [0] ∧
        SMap.get (0, 0) (windowOf d' a.num).segs a.idx = (next + 1, total) ∧
        (∀ k, (adds → k < at' ∨ at' + 8 ≤ k) → readByte d' k = ((elems.reverse.find? (fun x => x.1 = k)).map Prod.snd).getD (readByte d k)) ∧
        (adds → (∀ x ∈ elems, x.1 < at' ∨ at' + 8 ≤ x.1) → readNat d' at' 8 = (readNat d at' 8 + total) % 2 ^ 64))) ∧
    (∀ c, let m := (windowOf d a.num).cache
      (SMap.find m a.idx).or (SMap.find m (2 ^ 32 + a.idx)) = some c → exec .responseCacheExpire s =
      if a.ok = true ∧ c.2 + 64000000 ≤ d.devtime.toNat then fab { f with
        windows := SMap.set Window.empty f.windows a.num { windowOf d a.num with cache := SMap.erase (SMap.erase m a.idx) (2 ^ 32 + a.idx) } } else dev d) ∧
    (∀ r, f.reqs = [r] → r.dst = a.num → r.seq = a.idx → r.held = false → r.sentAt + f.rto.toNat % 2 ^ 16 * 1000 ≤ d.devtime.toNat →
      exec .remoteRetryTimeout s = fab (if a.ok = true then { f with reqs := [{ r with sentAt := d.devtime.toNat, port := portAgain f r }] }
        else if r.tries < f.rto.toNat / 2 ^ 16 % 2 ^ 4 then { f with reqs := [{ r with sentAt := d.devtime.toNat, port := portAgain f r, tries := r.tries + 1 }] }
        else { f with reqs := [{ r with held := true }], suspects := (r.plane, r.dst) :: f.suspects })) ∧
    let dead := fun pod p (f : Fabric) => { f with
      declared := if f.declared.contains (pod, p) then f.declared else (pod, p) :: f.declared
      reqs := if (SMap.find f.rehash pod).any (fun r => !r.installed) then
          f.reqs.map (fun x => if covered d pod x && x.plane == p then { x with held := true } else x) else f.reqs }
    (a.nats ≠ [] → a.ok = false → exec .planeProbeResult s = if actingManager f = d.boot.devnum then fab (dead (podOf d a.num) a.idx f) else dev d) ∧
    (a.nats = [] → f.suspects.contains (a.idx, a.num) = true → let f0 : Fabric := { f with suspects := f.suspects.filter (· != (a.idx, a.num)) }
      (a.ok = false → exec .planeProbeResult s = fab (dead (podOf d a.num) a.idx f0)) ∧
      (a.ok = true → a.ok2 = false → a.num ≠ d.boot.devnum → a.num ∉ f.deadDevs → exec .planeProbeResult s = fab { f0 with
        deadDevs := a.num :: f.deadDevs, reqs := f.reqs.filter (fun r => r.dst != a.num) }) ∧
      (a.ok = true → a.ok2 = true → ∃ f', exec .planeProbeResult s = fab f' ∧ f'.suspects = f0.suspects ∧
        ∀ r ∈ f'.reqs, r.dst = a.num → r.plane = a.idx → r.held = false ∧ r.tries = 0)) ∧
    (exec .switchFatalError s = if a.idx < 8 then fab (dead a.num a.idx f) else dev d) ∧
    (let held := f.reqs.map (fun x => if covered d a.idx x && a.nats.contains x.plane then { x with held := true } else x)
    (SMap.find f.rehash a.idx = none → a.num ≠ SMap.get 0 f.gens a.idx + 1 → exec .quiesce s = dev d) ∧
    (SMap.find f.rehash a.idx = none → a.num = SMap.get 0 f.gens a.idx + 1 → ∃ d', exec .quiesce s = dev d' ∧
      d'.fab = { f with rehash := SMap.put f.rehash a.idx ⟨a.nats, a.num, d.devtime.toNat, [], false⟩, reqs := held }) ∧
    ∀ r, SMap.find f.rehash a.idx = some r → exec .quiesce s = if r.gen = a.num ∧ r.installed = false then
      fab { f with rehash := SMap.put f.rehash a.idx { r with planes := (r.planes ++ a.nats).eraseDups }, reqs := held } else dev d) ∧
    (∀ r, SMap.find f.rehash a.idx = some r → exec .drained s =
      if a.num = d.boot.devnum ∧ (∃ x ∈ f.reqs, covered d a.idx x = true ∧ x.held = false) then dev d
      else fab { f with rehash := SMap.put f.rehash a.idx (if r.drained.contains a.num then r else { r with drained := r.drained ++ [a.num] }) }) ∧
    (∀ r, SMap.find f.rehash a.idx = some r → r.gen = a.num → d.boot.devnum ∈ r.drained → r.installed = false →
      let dead := (r.planes ++ (f.declared.filter (fun x => x.1 = a.idx)).map (·.2)).eraseDups
      let m := mapOf d a.idx
      (survivors dead m = [] → ∃ d', exec .pmapInstall s = dev d' ∧ d'.fab.deadPods = a.idx :: f.deadPods ∧ mapOf d' a.idx = m) ∧
      (survivors dead m ≠ [] → ∃ d', exec .pmapInstall s = dev d' ∧ SMap.get 0 d'.fab.gens a.idx = a.num ∧
        (∀ x ∈ d'.fab.reqs, x.held = true → podOf d x.dst = a.idx → x.plane = planeOf d' x.pa ∧ x.gen = a.num) ∧
        ∀ i, i < 64 → mapEntry (mapOf d' a.idx) i = if mapEntry m i ∈ dead then
          (survivors dead m).getD (((upFrom 0 i).filter (fun j => decide (mapEntry m j ∈ dead))).length % (survivors dead m).length) 0 else mapEntry m i)) ∧
    (∀ r, SMap.find f.rehash a.idx = some r → r.gen ≠ a.num ∨ r.installed = false → exec .release s = dev d) ∧
    (∀ r, SMap.find f.rehash a.idx = some r → r.gen = a.num → r.installed = true → ∃ d', exec .release s = dev d' ∧
      SMap.find d'.fab.rehash a.idx = none ∧
      ∀ x ∈ d'.fab.reqs, covered d a.idx x = true → (∀ p ∈ d'.fab.rehash, covered d p.1 x = false) → x.held = false) ∧
    (∀ r, SMap.find f.rehash a.idx = some r → a.num ∈ r.drained ∨ d.devtime.toNat < r.since + 12000000 → exec .rehashDrainTimeout s = dev d) ∧
    (∀ r, SMap.find f.rehash a.idx = some r → a.num ∉ r.drained → r.since + 12000000 ≤ d.devtime.toNat → a.num ≠ d.boot.devnum → a.num ∉ f.deadDevs →
      exec .rehashDrainTimeout s = fab { f with deadDevs := a.num :: f.deadDevs, reqs := f.reqs.filter (fun r => r.dst != a.num) }) ∧
    exec .fmStandbyTakeover s = fab { f with standby := true }

/-- R374, R389, R393, R396 to R401: starts, clocks and the management responder. A start whose checks pass leaves the device READY with FAILS
0 and each of measurement registers 0 to 5 extended from zero; a start that fails or does not become READY in time resets the device and
raises FAILS to at most 4. A trip and a throttle lower clocks and report; a clock outside the steps of its range is refused. The responder
answers a request in its turn, and one out of turn with an error: algorithms, digests, certificates and measurement blocks. PRESUMED (log
36), from the protocols' own specifications: the version byte, the lengths and layouts of the answers, which error, and the commands of
MCTP. Choices and readings of the model's own that it rests on: log 13, 36, 69, 70, 71, 72, 80. -/
def Obligations.BootEvents : Prop :=
  ∀ s : State, let d := s.dev
    let a := d.arg
    let dev := fun d' => (Host.Outcome.next { s with dev := d' } : Host.Outcome State Fault Refusal)
    let p := a.idx
    let st := SMap.get 0 d.mgmt.state p
    let works := p = 1 ∨ (p = 0 ∧ d.linkMods ≠ 0 ∧ d.boot.ready = true)
    (exec .linkModuleFail s = dev { d with linkMods := d.linkMods - 1 }) ∧
    (a.ok = true → d.boot.rollback.toNat ≤ a.num → ∃ t, exec .deviceStart s = .next t ∧ t.dev.boot.ready = true ∧ t.dev.boot.fails = 0 ∧
      t.dev.boot.badacc = false ∧ t.dev.devtime = 0 ∧ t.dev.fab.live = 0xFF ∧ t.dev.slots = [] ∧ t.thr = Thread.absent ∧
      SMap.get false t.dev.msix 2 = true ∧
      ∀ i, i < 16 → SMap.get 0 t.dev.boot.mreg i = if i < 6 then extend 0 (Config.digest i (d.boot.starts + 1)) else 0) ∧
    ((a.ok = false ∨ a.num < d.boot.rollback.toNat) → ∃ t, exec .deviceStart s = .next t ∧ t.dev.boot.ready = false ∧
      t.dev.boot.fails = min (d.boot.fails + 1) 4 ∧ t.dev.boot.mreg = []) ∧
    (d.boot.ready = false → ∃ t, exec .startTimeout s = .next t ∧ t.dev.boot.ready = false ∧ t.dev.boot.fails = min (d.boot.fails + 1) 4) ∧
    (d.boot.ready = true → exec .startTimeout s = .next s) ∧
    (∃ d', exec .currentTrip s = dev d' ∧ SMap.get false d'.msix 3 = true ∧
      ((∀ i, i < 128 → 1200 ≤ clockOf d i ∧ clockOf d i % 100 = 0) → ∀ i, i < 128 → clockOf d' i = min 1500 (clockOf d i))) ∧
    (p < 128 → 1200 ≤ a.num → a.num % 100 = 0 → a.num ≤ 3000 →
      let set := { d with islands := SMap.set Island.reset d.islands p ⟨a.num, tickCount d p, nowPs d⟩ }
      (a.num ≤ clockOf d p → exec .thermalThrottle s = dev (raiseVector 3 set)) ∧ (clockOf d p < a.num → exec .thermalThrottle s = dev (raiseVector 3 d)) ∧
      exec .islandClockChange s = dev set) ∧
    ((128 ≤ p ∨ a.num < 1200 ∨ 3000 < a.num ∨ a.num % 100 ≠ 0) → exec .islandClockChange s = dev d) ∧
    (∃ t, exec .thermalShutdown s = .next t ∧ t.dev.boot.powered = false ∧ (s.dev.launches = [] → SMap.get false t.dev.msix 3 = true)) ∧
    (works → let say := fun bs n => dev { d with mgmt.answer := bs, mgmt.state := SMap.set 0 d.mgmt.state p n, fresh := d.fresh + 1 }
      let refuse := dev { d with mgmt.answer := [0x7F] }
      let open' := fun n => leBytes n (Config.answer d.fresh)
      exec .getVersion s = say [0x13] 1 ∧
      exec .getCapabilities s = (if st < 1 then refuse else say (open' 4) 2) ∧
      exec .negotiateAlgorithms s = (if st < 2 then refuse else say (leBytes 2 40 ++ [1, 0] ++ leBytes 4 2 ++ leBytes 4 0 ++ leBytes 4 1 ++ zeros 12 ++ [1, 0] ++ zeros 2 ++ open' 4) 3) ∧
      exec .getDigests s = (if st < 3 then refuse else say (sha256 Config.certificates) 3) ∧
      exec .getCertificate s = (if st < 3 then refuse else say ((Config.certificates.drop a.num).take a.len) 3) ∧
      exec .challenge s = (if st < 3 then refuse else say (open' 7856) 3) ∧
      (st < 3 → exec .getMeasurements s = refuse) ∧
      let block := fun k => leBytes 1 k ++ [1] ++ leBytes 2 35 ++ leBytes 1 (valueType (k - 1)) ++ leBytes 2 32 ++ leBytes 32 (SMap.get 0 d.boot.mreg (k - 1)).toNat
      (3 ≤ st → 1 ≤ a.num → a.num ≤ 16 → exec .getMeasurements s = say (block a.num ++ open' 7856) 3) ∧
      (3 ≤ st → a.num = 255 → exec .getMeasurements s = say ((upFrom 1 16).flatMap block ++ open' 7856) 3)) ∧
    (a.num = 1 → exec .mctpControl s = dev { d with
      mgmt.eid := SMap.set 0 d.mgmt.eid 1 (a.idx % 256), mgmt.answer := [BitVec.ofNat 8 (a.idx % 256)] }) ∧
    (a.num = 2 → exec .mctpControl s = dev { d with mgmt.answer := leBytes 1 (SMap.get 0 d.mgmt.eid 1) }) ∧
    (∃ d', exec .vendorStatusRead s = dev d' ∧ d'.mgmt.answer.take 8 = leBytes 8 (identRead d.boot 8) ∧ d'.fresh = d.fresh + 1)
end

