-- ==== Sys2Proof/Laws/Decode.lean ====
section
/-! SUPPORT. Laws of the decoder and the encoder: fields put into a word and taken out again, words that fit a pattern fit no other
of their list, and the two readings of a word's kind. -/

namespace Sys2Proof

set_option Elab.async false

theorem fld_or (a b : BitVec 32) (lo n : Nat) : fld (a ||| b) lo n = fld a lo n ||| fld b lo n := by
  simp [fld, BitVec.extractLsb'_or]

theorem fld_and (a b : BitVec 32) (lo n : Nat) : fld (a &&& b) lo n = fld a lo n &&& fld b lo n := by
  simp [fld, BitVec.extractLsb'_and]

theorem fld_put_same {n : Nat} (x : BitVec n) (lo : Nat) (h : lo + n ≤ 32) : fld (put x lo) lo n = x := by
  apply BitVec.eq_of_getLsbD_eq
  intro i hi
  have h1 : lo + i < 32 := by omega
  simp [fld, put, hi, h1]

theorem fld_put_apart {n : Nat} (x : BitVec n) (lo l k : Nat) (h : lo + n ≤ l ∨ l + k ≤ lo) : fld (put x lo) l k = 0#k := by
  apply BitVec.eq_of_getLsbD_eq
  intro i hi
  simp only [fld, put, BitVec.getLsbD_extractLsb', hi, decide_true, Bool.true_and, BitVec.getLsbD_shiftLeft, BitVec.getLsbD_setWidth,
    BitVec.getLsbD_zero]
  by_cases h1 : l + i < lo
  · simp [h1]
  · have : n ≤ l + i - lo := by omega
    simp [BitVec.getLsbD_of_ge x _ this]

theorem fld_const_or {n : Nat} (c : BitVec 32) (lo : Nat) (x : BitVec n) (h : fld c lo n = 0#n) : fld c lo n ||| x = x := by
  rw [h, BitVec.zero_or]

theorem put_and_apart {n : Nat} (x : BitVec n) (lo : Nat) (m : BitVec 32) (h : put (BitVec.allOnes n) lo &&& m = 0#32) : put x lo &&& m = 0#32 := by
  apply BitVec.eq_of_getLsbD_eq
  intro i hi
  have hm := congrArg (fun v => v.getLsbD i) h
  simp only [put, BitVec.getLsbD_and, BitVec.getLsbD_shiftLeft, BitVec.getLsbD_setWidth, BitVec.getLsbD_allOnes, BitVec.getLsbD_zero, hi,
    decide_true, Bool.true_and] at hm ⊢
  by_cases h1 : i < lo
  · simp [h1]
  · by_cases h3 : i - lo < n
    · simp_all
    · simp [BitVec.getLsbD_of_ge x (i - lo) (by omega)]

/-- A field of the bits of one word is what the mask of its place selects. -/
theorem put_fld (w : BitVec 32) (lo n : Nat) (h : lo + n ≤ 32) : put (fld w lo n) lo = w &&& put (BitVec.allOnes n) lo := by
  apply BitVec.eq_of_getLsbD_eq
  intro i hi
  simp only [fld, put, BitVec.getLsbD_and, BitVec.getLsbD_shiftLeft, BitVec.getLsbD_setWidth, BitVec.getLsbD_allOnes,
    BitVec.getLsbD_extractLsb', hi, decide_true, Bool.true_and]
  by_cases h1 : i < lo
  · simp [h1]
  · have h2 : lo + (i - lo) = i := by omega
    have h4 : i - lo < 32 := by omega
    simp [h1, h2, h4, Bool.and_comm]

theorem fits_iff (w m p : BitVec 32) : fits w m p = true ↔ w &&& m = p := by simp [fits]

/-- A word that fits a pattern does not fit one that differs in a bit both fix. -/
theorem fits_other {w M P : BitVec 32} (h : fits w M P = true) (m p : BitVec 32) (hd : P &&& m ≠ p &&& M) : ¬ fits w m p = true := by
  rw [fits_iff] at h ⊢
  intro h2
  apply hd
  rw [← h, ← h2, BitVec.and_assoc, BitVec.and_assoc, BitVec.and_comm M m]

/-- The major of a word that fits a pattern. -/
theorem major_of_fits {w M P : BitVec 32} (h : fits w M P = true) (hM : fld M 26 6 = 63#6) : fld w 26 6 = fld P 26 6 := by
  rw [fits_iff] at h
  rw [← h, fld_and, hM, show (63#6 : BitVec 6) = BitVec.allOnes 6 from rfl, BitVec.and_allOnes]

theorem decode_of_raw {w : BitVec 32} {i : Instr} (h : decodeRaw w = .ok i) (hw : i.wf = true) : decode w = .ok i := by
  simp [decode, h, hw]

/-! Majors and their lists. -/

theorem raw01 {w : BitVec 32} {i : Instr} (hm : (fld w 26 6).toNat = 1) (h : decode01 w = some i) : decodeRaw w = .ok i := by simp only [decodeRaw, decodeBy, hm, h]

theorem raw02 {w : BitVec 32} {i : Instr} (hm : (fld w 26 6).toNat = 2) (h : decode02 w = some i) : decodeRaw w = .ok i := by simp only [decodeRaw, decodeBy, hm, h]

theorem raw03 {w : BitVec 32} {i : Instr} (hm : (fld w 26 6).toNat = 3) (h : decode03 w = some i) : decodeRaw w = .ok i := by simp only [decodeRaw, decodeBy, hm, h]

theorem raw04 {w : BitVec 32} {i : Instr} (hm : (fld w 26 6).toNat = 4) (h : decode04 w = some i) : decodeRaw w = .ok i := by simp only [decodeRaw, decodeBy, hm, h]

theorem raw05 {w : BitVec 32} {i : Instr} (hm : (fld w 26 6).toNat = 5) (h : decode05 w = some i) : decodeRaw w = .ok i := by simp only [decodeRaw, decodeBy, hm, h]

theorem raw06 {w : BitVec 32} {i : Instr} (hm : (fld w 26 6).toNat = 6) (h : decode06 w = some i) : decodeRaw w = .ok i := by simp only [decodeRaw, decodeBy, hm, h]

theorem raw07 {w : BitVec 32} {i : Instr} (hm : (fld w 26 6).toNat = 7) (h : decode07 w = some i) : decodeRaw w = .ok i := by simp only [decodeRaw, decodeBy, hm, h]

theorem raw08 {w : BitVec 32} {i : Instr} (hm : (fld w 26 6).toNat = 8) (h : decode08 w = some i) : decodeRaw w = .ok i := by simp only [decodeRaw, decodeBy, hm, h]

theorem raw09 {w : BitVec 32} {i : Instr} (hm : (fld w 26 6).toNat = 9) (h : decode09 w = some i) : decodeRaw w = .ok i := by simp only [decodeRaw, decodeBy, hm, h]

theorem raw0A {w : BitVec 32} {i : Instr} (hm : (fld w 26 6).toNat = 10) (h : decode0A w = some i) : decodeRaw w = .ok i := by simp only [decodeRaw, decodeBy, hm, h]

theorem raw0B {w : BitVec 32} {i : Instr} (hm : (fld w 26 6).toNat = 11) (h : decode0B w = some i) : decodeRaw w = .ok i := by simp only [decodeRaw, decodeBy, hm, h]

theorem raw0C {w : BitVec 32} {i : Instr} (hm : (fld w 26 6).toNat = 12) (h : decode0C w = some i) : decodeRaw w = .ok i := by simp only [decodeRaw, decodeBy, hm, h]

theorem raw10 {w : BitVec 32} {i : Instr} (hm : (fld w 26 6).toNat = 16) (h : decode10 w = some i) : decodeRaw w = .ok i := by simp only [decodeRaw, decodeBy, hm, h]

theorem raw11 {w : BitVec 32} {i : Instr} (hm : (fld w 26 6).toNat = 17) (h : decode11 w = some i) : decodeRaw w = .ok i := by simp only [decodeRaw, decodeBy, hm, h]

theorem raw12 {w : BitVec 32} {i : Instr} (hm : (fld w 26 6).toNat = 18) (h : decode12 w = some i) : decodeRaw w = .ok i := by simp only [decodeRaw, decodeBy, hm, h]

theorem raw13 {w : BitVec 32} {i : Instr} (hm : (fld w 26 6).toNat = 19) (h : decode13 w = some i) : decodeRaw w = .ok i := by simp only [decodeRaw, decodeBy, hm, h]

theorem raw14 {w : BitVec 32} {i : Instr} (hm : (fld w 26 6).toNat = 20) (h : decode14 w = some i) : decodeRaw w = .ok i := by simp only [decodeRaw, decodeBy, hm, h]

theorem raw15 {w : BitVec 32} {i : Instr} (hm : (fld w 26 6).toNat = 21) (h : decode15 w = some i) : decodeRaw w = .ok i := by simp only [decodeRaw, decodeBy, hm, h]

theorem raw16 {w : BitVec 32} {i : Instr} (hm : (fld w 26 6).toNat = 22) (h : decode16 w = some i) : decodeRaw w = .ok i := by simp only [decodeRaw, decodeBy, hm, h]

theorem raw18 {w : BitVec 32} {i : Instr} (hm : (fld w 26 6).toNat = 24) (h : decode18 w = some i) : decodeRaw w = .ok i := by simp only [decodeRaw, decodeBy, hm, h]

theorem raw19 {w : BitVec 32} {i : Instr} (hm : (fld w 26 6).toNat = 25) (h : decode19 w = some i) : decodeRaw w = .ok i := by simp only [decodeRaw, decodeBy, hm, h]

theorem raw1A {w : BitVec 32} {i : Instr} (hm : (fld w 26 6).toNat = 26) (h : decode1A w = some i) : decodeRaw w = .ok i := by simp only [decodeRaw, decodeBy, hm, h]

theorem raw1B {w : BitVec 32} {i : Instr} (hm : (fld w 26 6).toNat = 27) (h : decode1B w = some i) : decodeRaw w = .ok i := by simp only [decodeRaw, decodeBy, hm, h]

theorem raw1C {w : BitVec 32} {i : Instr} (hm : (fld w 26 6).toNat = 28) (h : decode1C w = some i) : decodeRaw w = .ok i := by simp only [decodeRaw, decodeBy, hm, h]

theorem raw1D {w : BitVec 32} {i : Instr} (hm : (fld w 26 6).toNat = 29) (h : decode1D w = some i) : decodeRaw w = .ok i := by simp only [decodeRaw, decodeBy, hm, h]

theorem raw1E {w : BitVec 32} {i : Instr} (hm : (fld w 26 6).toNat = 30) (h : decode1E w = some i) : decodeRaw w = .ok i := by simp only [decodeRaw, decodeBy, hm, h]

theorem raw20 {w : BitVec 32} {i : Instr} (hm : (fld w 26 6).toNat = 32) (h : decode20 w = some i) : decodeRaw w = .ok i := by simp only [decodeRaw, decodeBy, hm, h]

theorem raw21 {w : BitVec 32} {i : Instr} (hm : (fld w 26 6).toNat = 33) (h : decode21 w = some i) : decodeRaw w = .ok i := by simp only [decodeRaw, decodeBy, hm, h]

theorem raw22 {w : BitVec 32} {i : Instr} (hm : (fld w 26 6).toNat = 34) (h : decode22 w = some i) : decodeRaw w = .ok i := by simp only [decodeRaw, decodeBy, hm, h]

theorem raw23 {w : BitVec 32} {i : Instr} (hm : (fld w 26 6).toNat = 35) (h : decode23 w = some i) : decodeRaw w = .ok i := by simp only [decodeRaw, decodeBy, hm, h]

theorem raw24 {w : BitVec 32} {i : Instr} (hm : (fld w 26 6).toNat = 36) (h : decode24 w = some i) : decodeRaw w = .ok i := by simp only [decodeRaw, decodeBy, hm, h]

theorem raw25 {w : BitVec 32} {i : Instr} (hm : (fld w 26 6).toNat = 37) (h : decode25 w = some i) : decodeRaw w = .ok i := by simp only [decodeRaw, decodeBy, hm, h]

theorem raw26 {w : BitVec 32} {i : Instr} (hm : (fld w 26 6).toNat = 38) (h : decode26 w = some i) : decodeRaw w = .ok i := by simp only [decodeRaw, decodeBy, hm, h]

theorem raw27 {w : BitVec 32} {i : Instr} (hm : (fld w 26 6).toNat = 39) (h : decode27 w = some i) : decodeRaw w = .ok i := by simp only [decodeRaw, decodeBy, hm, h]

theorem raw28 {w : BitVec 32} {i : Instr} (hm : (fld w 26 6).toNat = 40) (h : decode28 w = some i) : decodeRaw w = .ok i := by simp only [decodeRaw, decodeBy, hm, h]

theorem raw29 {w : BitVec 32} {i : Instr} (hm : (fld w 26 6).toNat = 41) (h : decode29 w = some i) : decodeRaw w = .ok i := by simp only [decodeRaw, decodeBy, hm, h]

theorem raw2A {w : BitVec 32} {i : Instr} (hm : (fld w 26 6).toNat = 42) (h : decode2A w = some i) : decodeRaw w = .ok i := by simp only [decodeRaw, decodeBy, hm, h]

theorem raw2B {w : BitVec 32} {i : Instr} (hm : (fld w 26 6).toNat = 43) (h : decode2B w = some i) : decodeRaw w = .ok i := by simp only [decodeRaw, decodeBy, hm, h]

theorem raw2C {w : BitVec 32} {i : Instr} (hm : (fld w 26 6).toNat = 44) (h : decode2C w = some i) : decodeRaw w = .ok i := by simp only [decodeRaw, decodeBy, hm, h]

theorem raw2D {w : BitVec 32} {i : Instr} (hm : (fld w 26 6).toNat = 45) (h : decode2D w = some i) : decodeRaw w = .ok i := by simp only [decodeRaw, decodeBy, hm, h]

theorem raw2E {w : BitVec 32} {i : Instr} (hm : (fld w 26 6).toNat = 46) (h : decode2E w = some i) : decodeRaw w = .ok i := by simp only [decodeRaw, decodeBy, hm, h]

theorem raw30 {w : BitVec 32} {i : Instr} (hm : (fld w 26 6).toNat = 48) (h : decode30 w = some i) : decodeRaw w = .ok i := by simp only [decodeRaw, decodeBy, hm, h]

theorem raw31 {w : BitVec 32} {i : Instr} (hm : (fld w 26 6).toNat = 49) (h : decode30 w = some i) : decodeRaw w = .ok i := by simp only [decodeRaw, decodeBy, hm, h]

theorem raw32 {w : BitVec 32} {i : Instr} (hm : (fld w 26 6).toNat = 50) (h : decode32 w = some i) : decodeRaw w = .ok i := by simp only [decodeRaw, decodeBy, hm, h]

theorem raw33 {w : BitVec 32} {i : Instr} (hm : (fld w 26 6).toNat = 51) (h : decode32 w = some i) : decodeRaw w = .ok i := by simp only [decodeRaw, decodeBy, hm, h]

theorem raw34 {w : BitVec 32} {i : Instr} (hm : (fld w 26 6).toNat = 52) (h : decode34 w = some i) : decodeRaw w = .ok i := by simp only [decodeRaw, decodeBy, hm, h]

theorem raw35 {w : BitVec 32} {i : Instr} (hm : (fld w 26 6).toNat = 53) (h : decode35 w = some i) : decodeRaw w = .ok i := by simp only [decodeRaw, decodeBy, hm, h]

theorem raw36 {w : BitVec 32} {i : Instr} (hm : (fld w 26 6).toNat = 54) (h : decode36 w = some i) : decodeRaw w = .ok i := by simp only [decodeRaw, decodeBy, hm, h]

theorem raw37 {w : BitVec 32} {i : Instr} (hm : (fld w 26 6).toNat = 55) (h : decode37 w = some i) : decodeRaw w = .ok i := by simp only [decodeRaw, decodeBy, hm, h]

theorem raw38 {w : BitVec 32} {i : Instr} (hm : (fld w 26 6).toNat = 56) (h : decode38 w = some i) : decodeRaw w = .ok i := by simp only [decodeRaw, decodeBy, hm, h]

theorem raw39 {w : BitVec 32} {i : Instr} (hm : (fld w 26 6).toNat = 57) (h : decode39 w = some i) : decodeRaw w = .ok i := by simp only [decodeRaw, decodeBy, hm, h]

theorem raw3A {w : BitVec 32} {i : Instr} (hm : (fld w 26 6).toNat = 58) (h : decode3A w = some i) : decodeRaw w = .ok i := by simp only [decodeRaw, decodeBy, hm, h]

theorem raw3B {w : BitVec 32} {i : Instr} (hm : (fld w 26 6).toNat = 59) (h : decode3B w = some i) : decodeRaw w = .ok i := by simp only [decodeRaw, decodeBy, hm, h]

theorem raw3C {w : BitVec 32} {i : Instr} (hm : (fld w 26 6).toNat = 60) (h : decode3C w = some i) : decodeRaw w = .ok i := by simp only [decodeRaw, decodeBy, hm, h]

theorem raw3D {w : BitVec 32} {i : Instr} (hm : (fld w 26 6).toNat = 61) (h : decode3D w = some i) : decodeRaw w = .ok i := by simp only [decodeRaw, decodeBy, hm, h]

theorem raw3E {w : BitVec 32} {i : Instr} (hm : (fld w 26 6).toNat = 62) (h : decode3E w = some i) : decodeRaw w = .ok i := by simp only [decodeRaw, decodeBy, hm, h]

theorem bit_cases (x : BitVec 1) : x = 0#1 ∨ x = 1#1 := by
  have h := x.isLt
  rcases Nat.lt_or_ge x.toNat 1 with h1 | h1
  · left; apply BitVec.eq_of_toNat_eq; simp; omega
  · right; apply BitVec.eq_of_toNat_eq; simp; omega

end Sys2Proof
end

