-- ==== Sys2Proof/Laws/DecodeSound.lean ====
section
/-! SUPPORT. What the decoder answers: the instruction of a word has that word as its encoding. -/

namespace Sys2Proof

set_option Elab.async false
set_option linter.unusedSimpArgs false

/-- The instruction has a word and it is this one. -/
def IsWordOf (w : BitVec 32) (i : Instr) : Prop := i.hasWord = true ∧ encode i = w

theorem IsWordOf.chain {w : BitVec 32} {c : Bool} {a i : Instr} {o : Option Instr} (h : (if c = true then some a else o) = some i)
    (h1 : c = true → IsWordOf w a) (h2 : o = some i → IsWordOf w i) : IsWordOf w i := by
  by_cases hc : c = true
  · rw [if_pos hc] at h; exact Option.some.inj h ▸ h1 hc
  · rw [if_neg hc] at h; exact h2 h

/-- The bits a pattern fixes and the fields around them make up the word. -/
theorem word_whole {w m : BitVec 32} (h : m = BitVec.allOnes 32) : w &&& m = w := by rw [h, BitVec.and_allOnes]

theorem decode01_word {w : BitVec 32} {i : Instr} (h : decode01 w = some i) : IsWordOf w i := by
  unfold decode01 at h
  refine IsWordOf.chain h (fun f => ⟨rfl, ?_⟩) (fun h => ?_)
  · simp (disch := decide) only [encode, put_fld, ← (fits_iff w _ _).mp f, ← BitVec.and_or_distrib_left]; exact word_whole (by decide)
  refine IsWordOf.chain h (fun f => ⟨rfl, ?_⟩) (fun h => ?_)
  · simp (disch := decide) only [encode, put_fld, ← (fits_iff w _ _).mp f, ← BitVec.and_or_distrib_left]; exact word_whole (by decide)
  refine IsWordOf.chain h (fun f => ⟨rfl, ?_⟩) (fun h => ?_)
  · simp (disch := decide) only [encode, put_fld, ← (fits_iff w _ _).mp f, ← BitVec.and_or_distrib_left]; exact word_whole (by decide)
  refine IsWordOf.chain h (fun f => ⟨rfl, ?_⟩) (fun h => ?_)
  · simp (disch := decide) only [encode, put_fld, ← (fits_iff w _ _).mp f, ← BitVec.and_or_distrib_left]; exact word_whole (by decide)
  refine IsWordOf.chain h (fun f => ⟨rfl, ?_⟩) (fun h => ?_)
  · simp (disch := decide) only [encode, put_fld, ← (fits_iff w _ _).mp f, ← BitVec.and_or_distrib_left]; exact word_whole (by decide)
  refine IsWordOf.chain h (fun f => ⟨rfl, ?_⟩) (fun h => ?_)
  · simp (disch := decide) only [encode, put_fld, ← (fits_iff w _ _).mp f, ← BitVec.and_or_distrib_left]; exact word_whole (by decide)
  refine IsWordOf.chain h (fun f => ⟨rfl, ?_⟩) (fun h => ?_)
  · simp (disch := decide) only [encode, put_fld, ← (fits_iff w _ _).mp f, ← BitVec.and_or_distrib_left]; exact word_whole (by decide)
  refine IsWordOf.chain h (fun f => ⟨rfl, ?_⟩) (fun h => ?_)
  · simp (disch := decide) only [encode, put_fld, ← (fits_iff w _ _).mp f, ← BitVec.and_or_distrib_left]; exact word_whole (by decide)
  refine IsWordOf.chain h (fun f => ⟨rfl, ?_⟩) (fun h => ?_)
  · simp (disch := decide) only [encode, put_fld, ← (fits_iff w _ _).mp f, ← BitVec.and_or_distrib_left]; exact word_whole (by decide)
  refine IsWordOf.chain h (fun f => ⟨rfl, ?_⟩) (fun h => ?_)
  · simp (disch := decide) only [encode, put_fld, ← (fits_iff w _ _).mp f, ← BitVec.and_or_distrib_left]; exact word_whole (by decide)
  refine IsWordOf.chain h (fun f => ⟨rfl, ?_⟩) (fun h => ?_)
  · simp (disch := decide) only [encode, put_fld, ← (fits_iff w _ _).mp f, ← BitVec.and_or_distrib_left]; exact word_whole (by decide)
  refine IsWordOf.chain h (fun f => ⟨rfl, ?_⟩) (fun h => ?_)
  · simp (disch := decide) only [encode, put_fld, ← (fits_iff w _ _).mp f, ← BitVec.and_or_distrib_left]; exact word_whole (by decide)
  refine IsWordOf.chain h (fun f => ⟨rfl, ?_⟩) (fun h => ?_)
  · simp (disch := decide) only [encode, put_fld, ← (fits_iff w _ _).mp f, ← BitVec.and_or_distrib_left]; exact word_whole (by decide)
  refine IsWordOf.chain h (fun f => ⟨rfl, ?_⟩) (fun h => ?_)
  · simp (disch := decide) only [encode, put_fld, ← (fits_iff w _ _).mp f, ← BitVec.and_or_distrib_left]; exact word_whole (by decide)
  refine IsWordOf.chain h (fun f => ⟨rfl, ?_⟩) (fun h => ?_)
  · simp (disch := decide) only [encode, put_fld, ← (fits_iff w _ _).mp f, ← BitVec.and_or_distrib_left]; exact word_whole (by decide)
  refine IsWordOf.chain h (fun f => ⟨rfl, ?_⟩) (fun h => ?_)
  · simp (disch := decide) only [encode, put_fld, ← (fits_iff w _ _).mp f, ← BitVec.and_or_distrib_left]; exact word_whole (by decide)
  refine IsWordOf.chain h (fun f => ⟨rfl, ?_⟩) (fun h => ?_)
  · simp (disch := decide) only [encode, put_fld, ← (fits_iff w _ _).mp f, ← BitVec.and_or_distrib_left]; exact word_whole (by decide)
  refine IsWordOf.chain h (fun f => ⟨rfl, ?_⟩) (fun h => ?_)
  · simp (disch := decide) only [encode, put_fld, ← (fits_iff w _ _).mp f, ← BitVec.and_or_distrib_left]; exact word_whole (by decide)
  refine IsWordOf.chain h (fun f => ⟨rfl, ?_⟩) (fun h => ?_)
  · simp (disch := decide) only [encode, put_fld, ← (fits_iff w _ _).mp f, ← BitVec.and_or_distrib_left]; exact word_whole (by decide)
  refine IsWordOf.chain h (fun f => ⟨rfl, ?_⟩) (fun h => ?_)
  · simp (disch := decide) only [encode, put_fld, ← (fits_iff w _ _).mp f, ← BitVec.and_or_distrib_left]; exact word_whole (by decide)
  cases h

theorem decode02_word {w : BitVec 32} {i : Instr} (h : decode02 w = some i) : IsWordOf w i := by
  unfold decode02 at h
  refine IsWordOf.chain h (fun f => ⟨rfl, ?_⟩) (fun h => ?_)
  · simp (disch := decide) only [encode, put_fld, ← (fits_iff w _ _).mp f, ← BitVec.and_or_distrib_left]; exact word_whole (by decide)
  refine IsWordOf.chain h (fun f => ⟨rfl, ?_⟩) (fun h => ?_)
  · simp (disch := decide) only [encode, put_fld, ← (fits_iff w _ _).mp f, ← BitVec.and_or_distrib_left]; exact word_whole (by decide)
  refine IsWordOf.chain h (fun f => ⟨rfl, ?_⟩) (fun h => ?_)
  · simp (disch := decide) only [encode, put_fld, ← (fits_iff w _ _).mp f, ← BitVec.and_or_distrib_left]; exact word_whole (by decide)
  refine IsWordOf.chain h (fun f => ⟨rfl, ?_⟩) (fun h => ?_)
  · simp (disch := decide) only [encode, put_fld, ← (fits_iff w _ _).mp f, ← BitVec.and_or_distrib_left]; exact word_whole (by decide)
  refine IsWordOf.chain h (fun f => ⟨rfl, ?_⟩) (fun h => ?_)
  · simp (disch := decide) only [encode, put_fld, ← (fits_iff w _ _).mp f, ← BitVec.and_or_distrib_left]; exact word_whole (by decide)
  refine IsWordOf.chain h (fun f => ⟨rfl, ?_⟩) (fun h => ?_)
  · simp (disch := decide) only [encode, put_fld, ← (fits_iff w _ _).mp f, ← BitVec.and_or_distrib_left]; exact word_whole (by decide)
  refine IsWordOf.chain h (fun f => ⟨rfl, ?_⟩) (fun h => ?_)
  · simp (disch := decide) only [encode, put_fld, ← (fits_iff w _ _).mp f, ← BitVec.and_or_distrib_left]; exact word_whole (by decide)
  refine IsWordOf.chain h (fun f => ⟨rfl, ?_⟩) (fun h => ?_)
  · simp (disch := decide) only [encode, put_fld, ← (fits_iff w _ _).mp f, ← BitVec.and_or_distrib_left]; exact word_whole (by decide)
  cases h

theorem decode03_word {w : BitVec 32} {i : Instr} (h : decode03 w = some i) : IsWordOf w i := by
  unfold decode03 at h
  refine IsWordOf.chain h (fun f => ⟨rfl, ?_⟩) (fun h => ?_)
  · simp (disch := decide) only [encode, put_fld, ← (fits_iff w _ _).mp f, ← BitVec.and_or_distrib_left]; exact word_whole (by decide)
  refine IsWordOf.chain h (fun f => ⟨rfl, ?_⟩) (fun h => ?_)
  · simp (disch := decide) only [encode, put_fld, ← (fits_iff w _ _).mp f, ← BitVec.and_or_distrib_left]; exact word_whole (by decide)
  refine IsWordOf.chain h (fun f => ⟨rfl, ?_⟩) (fun h => ?_)
  · simp (disch := decide) only [encode, put_fld, ← (fits_iff w _ _).mp f, ← BitVec.and_or_distrib_left]; exact word_whole (by decide)
  refine IsWordOf.chain h (fun f => ⟨rfl, ?_⟩) (fun h => ?_)
  · simp (disch := decide) only [encode, put_fld, ← (fits_iff w _ _).mp f, ← BitVec.and_or_distrib_left]; exact word_whole (by decide)
  refine IsWordOf.chain h (fun f => ⟨rfl, ?_⟩) (fun h => ?_)
  · simp (disch := decide) only [encode, put_fld, ← (fits_iff w _ _).mp f, ← BitVec.and_or_distrib_left]; exact word_whole (by decide)
  refine IsWordOf.chain h (fun f => ⟨rfl, ?_⟩) (fun h => ?_)
  · simp (disch := decide) only [encode, put_fld, ← (fits_iff w _ _).mp f, ← BitVec.and_or_distrib_left]; exact word_whole (by decide)
  refine IsWordOf.chain h (fun f => ⟨rfl, ?_⟩) (fun h => ?_)
  · simp (disch := decide) only [encode, put_fld, ← (fits_iff w _ _).mp f, ← BitVec.and_or_distrib_left]; exact word_whole (by decide)
  refine IsWordOf.chain h (fun f => ⟨rfl, ?_⟩) (fun h => ?_)
  · simp (disch := decide) only [encode, put_fld, ← (fits_iff w _ _).mp f, ← BitVec.and_or_distrib_left]; exact word_whole (by decide)
  refine IsWordOf.chain h (fun f => ⟨rfl, ?_⟩) (fun h => ?_)
  · simp (disch := decide) only [encode, put_fld, ← (fits_iff w _ _).mp f, ← BitVec.and_or_distrib_left]; exact word_whole (by decide)
  refine IsWordOf.chain h (fun f => ⟨rfl, ?_⟩) (fun h => ?_)
  · simp (disch := decide) only [encode, put_fld, ← (fits_iff w _ _).mp f, ← BitVec.and_or_distrib_left]; exact word_whole (by decide)
  refine IsWordOf.chain h (fun f => ⟨rfl, ?_⟩) (fun h => ?_)
  · simp (disch := decide) only [encode, put_fld, ← (fits_iff w _ _).mp f, ← BitVec.and_or_distrib_left]; exact word_whole (by decide)
  refine IsWordOf.chain h (fun f => ⟨rfl, ?_⟩) (fun h => ?_)
  · simp (disch := decide) only [encode, put_fld, ← (fits_iff w _ _).mp f, ← BitVec.and_or_distrib_left]; exact word_whole (by decide)
  refine IsWordOf.chain h (fun f => ⟨rfl, ?_⟩) (fun h => ?_)
  · simp (disch := decide) only [encode, put_fld, ← (fits_iff w _ _).mp f, ← BitVec.and_or_distrib_left]; exact word_whole (by decide)
  refine IsWordOf.chain h (fun f => ⟨rfl, ?_⟩) (fun h => ?_)
  · simp (disch := decide) only [encode, put_fld, ← (fits_iff w _ _).mp f, ← BitVec.and_or_distrib_left]; exact word_whole (by decide)
  refine IsWordOf.chain h (fun f => ⟨rfl, ?_⟩) (fun h => ?_)
  · simp (disch := decide) only [encode, put_fld, ← (fits_iff w _ _).mp f, ← BitVec.and_or_distrib_left]; exact word_whole (by decide)
  refine IsWordOf.chain h (fun f => ⟨rfl, ?_⟩) (fun h => ?_)
  · simp (disch := decide) only [encode, put_fld, ← (fits_iff w _ _).mp f, ← BitVec.and_or_distrib_left]; exact word_whole (by decide)
  refine IsWordOf.chain h (fun f => ⟨rfl, ?_⟩) (fun h => ?_)
  · simp (disch := decide) only [encode, put_fld, ← (fits_iff w _ _).mp f, ← BitVec.and_or_distrib_left]; exact word_whole (by decide)
  cases h

theorem decode04_word {w : BitVec 32} {i : Instr} (h : decode04 w = some i) : IsWordOf w i := by
  unfold decode04 at h
  refine IsWordOf.chain h (fun f => ⟨rfl, ?_⟩) (fun h => ?_)
  · simp (disch := decide) only [encode, put_fld, ← (fits_iff w _ _).mp f, ← BitVec.and_or_distrib_left]; exact word_whole (by decide)
  cases h

theorem decode05_word {w : BitVec 32} {i : Instr} (h : decode05 w = some i) : IsWordOf w i := by
  unfold decode05 at h
  refine IsWordOf.chain h (fun f => ⟨rfl, ?_⟩) (fun h => ?_)
  · simp (disch := decide) only [encode, put_fld, ← (fits_iff w _ _).mp f, ← BitVec.and_or_distrib_left]; exact word_whole (by decide)
  cases h

theorem decode06_word {w : BitVec 32} {i : Instr} (h : decode06 w = some i) : IsWordOf w i := by
  unfold decode06 at h
  refine IsWordOf.chain h (fun f => ⟨rfl, ?_⟩) (fun h => ?_)
  · simp (disch := decide) only [encode, put_fld, ← (fits_iff w _ _).mp f, ← BitVec.and_or_distrib_left]; exact word_whole (by decide)
  cases h

theorem decode07_word {w : BitVec 32} {i : Instr} (h : decode07 w = some i) : IsWordOf w i := by
  unfold decode07 at h
  refine IsWordOf.chain h (fun f => ⟨rfl, ?_⟩) (fun h => ?_)
  · simp (disch := decide) only [encode, put_fld, ← (fits_iff w _ _).mp f, ← BitVec.and_or_distrib_left]; exact word_whole (by decide)
  cases h

theorem decode08_word {w : BitVec 32} {i : Instr} (h : decode08 w = some i) : IsWordOf w i := by
  unfold decode08 at h
  refine IsWordOf.chain h (fun f => ⟨rfl, ?_⟩) (fun h => ?_)
  · simp (disch := decide) only [encode, put_fld, ← (fits_iff w _ _).mp f, ← BitVec.and_or_distrib_left]; exact word_whole (by decide)
  cases h

theorem decode09_word {w : BitVec 32} {i : Instr} (h : decode09 w = some i) : IsWordOf w i := by
  unfold decode09 at h
  refine IsWordOf.chain h (fun f => ⟨rfl, ?_⟩) (fun h => ?_)
  · simp (disch := decide) only [encode, put_fld, ← (fits_iff w _ _).mp f, ← BitVec.and_or_distrib_left]; exact word_whole (by decide)
  cases h

theorem decode0A_word {w : BitVec 32} {i : Instr} (h : decode0A w = some i) : IsWordOf w i := by
  unfold decode0A at h
  refine IsWordOf.chain h (fun f => ⟨rfl, ?_⟩) (fun h => ?_)
  · simp (disch := decide) only [encode, put_fld, ← (fits_iff w _ _).mp f, ← BitVec.and_or_distrib_left]; exact word_whole (by decide)
  cases h

theorem decode0B_word {w : BitVec 32} {i : Instr} (h : decode0B w = some i) : IsWordOf w i := by
  unfold decode0B at h
  refine IsWordOf.chain h (fun f => ⟨rfl, ?_⟩) (fun h => ?_)
  · simp (disch := decide) only [encode, put_fld, ← (fits_iff w _ _).mp f, ← BitVec.and_or_distrib_left]; exact word_whole (by decide)
  cases h

theorem decode0C_word {w : BitVec 32} {i : Instr} (h : decode0C w = some i) : IsWordOf w i := by
  unfold decode0C at h
  refine IsWordOf.chain h (fun f => ⟨rfl, ?_⟩) (fun h => ?_)
  · simp (disch := decide) only [encode, put_fld, ← (fits_iff w _ _).mp f, ← BitVec.and_or_distrib_left]; exact word_whole (by decide)
  refine IsWordOf.chain h (fun f => ⟨rfl, ?_⟩) (fun h => ?_)
  · simp (disch := decide) only [encode, put_fld, ← (fits_iff w _ _).mp f, ← BitVec.and_or_distrib_left]; exact word_whole (by decide)
  refine IsWordOf.chain h (fun f => ⟨rfl, ?_⟩) (fun h => ?_)
  · simp (disch := decide) only [encode, put_fld, ← (fits_iff w _ _).mp f, ← BitVec.and_or_distrib_left]; exact word_whole (by decide)
  refine IsWordOf.chain h (fun f => ⟨rfl, ?_⟩) (fun h => ?_)
  · simp (disch := decide) only [encode, put_fld, ← (fits_iff w _ _).mp f, ← BitVec.and_or_distrib_left]; exact word_whole (by decide)
  cases h

theorem decode10_word {w : BitVec 32} {i : Instr} (h : decode10 w = some i) : IsWordOf w i := by
  unfold decode10 at h
  refine IsWordOf.chain h (fun f => ⟨rfl, ?_⟩) (fun h => ?_)
  · simp (disch := decide) only [encode, put_fld, ← (fits_iff w _ _).mp f, ← BitVec.and_or_distrib_left]; exact word_whole (by decide)
  cases h

theorem decode11_word {w : BitVec 32} {i : Instr} (h : decode11 w = some i) : IsWordOf w i := by
  unfold decode11 at h
  refine IsWordOf.chain h (fun f => ⟨rfl, ?_⟩) (fun h => ?_)
  · simp (disch := decide) only [encode, put_fld, ← (fits_iff w _ _).mp f, ← BitVec.and_or_distrib_left]; exact word_whole (by decide)
  cases h

theorem decode12_word {w : BitVec 32} {i : Instr} (h : decode12 w = some i) : IsWordOf w i := by
  unfold decode12 at h
  refine IsWordOf.chain h (fun f => ⟨rfl, ?_⟩) (fun h => ?_)
  · simp (disch := decide) only [encode, put_fld, ← (fits_iff w _ _).mp f, ← BitVec.and_or_distrib_left]; exact word_whole (by decide)
  cases h

theorem decode13_word {w : BitVec 32} {i : Instr} (h : decode13 w = some i) : IsWordOf w i := by
  unfold decode13 at h
  refine IsWordOf.chain h (fun f => ⟨rfl, ?_⟩) (fun h => ?_)
  · simp (disch := decide) only [encode, put_fld, ← (fits_iff w _ _).mp f, ← BitVec.and_or_distrib_left]; exact word_whole (by decide)
  cases h

theorem decode14_word {w : BitVec 32} {i : Instr} (h : decode14 w = some i) : IsWordOf w i := by
  unfold decode14 at h
  refine IsWordOf.chain h (fun f => ⟨rfl, ?_⟩) (fun h => ?_)
  · simp (disch := decide) only [encode, put_fld, ← (fits_iff w _ _).mp f, ← BitVec.and_or_distrib_left]; exact word_whole (by decide)
  cases h

theorem decode15_word {w : BitVec 32} {i : Instr} (h : decode15 w = some i) : IsWordOf w i := by
  unfold decode15 at h
  refine IsWordOf.chain h (fun f => ⟨rfl, ?_⟩) (fun h => ?_)
  · simp (disch := decide) only [encode, put_fld, ← (fits_iff w _ _).mp f, ← BitVec.and_or_distrib_left]; exact word_whole (by decide)
  cases h

theorem decode16_word {w : BitVec 32} {i : Instr} (h : decode16 w = some i) : IsWordOf w i := by
  unfold decode16 at h
  refine IsWordOf.chain h (fun f => ⟨rfl, ?_⟩) (fun h => ?_)
  · simp (disch := decide) only [encode, put_fld, ← (fits_iff w _ _).mp f, ← BitVec.and_or_distrib_left]; exact word_whole (by decide)
  cases h

theorem decode18_word {w : BitVec 32} {i : Instr} (h : decode18 w = some i) : IsWordOf w i := by
  unfold decode18 at h
  refine IsWordOf.chain h (fun f => ⟨rfl, ?_⟩) (fun h => ?_)
  · simp (disch := decide) only [encode, put_fld, ← (fits_iff w _ _).mp f, ← BitVec.and_or_distrib_left]; exact word_whole (by decide)
  cases h

theorem decode19_word {w : BitVec 32} {i : Instr} (h : decode19 w = some i) : IsWordOf w i := by
  unfold decode19 at h
  refine IsWordOf.chain h (fun f => ⟨rfl, ?_⟩) (fun h => ?_)
  · simp (disch := decide) only [encode, put_fld, ← (fits_iff w _ _).mp f, ← BitVec.and_or_distrib_left]; exact word_whole (by decide)
  cases h

theorem decode1A_word {w : BitVec 32} {i : Instr} (h : decode1A w = some i) : IsWordOf w i := by
  unfold decode1A at h
  refine IsWordOf.chain h (fun f => ⟨rfl, ?_⟩) (fun h => ?_)
  · simp (disch := decide) only [encode, put_fld, ← (fits_iff w _ _).mp f, ← BitVec.and_or_distrib_left]; exact word_whole (by decide)
  cases h

theorem decode1B_word {w : BitVec 32} {i : Instr} (h : decode1B w = some i) : IsWordOf w i := by
  unfold decode1B at h
  refine IsWordOf.chain h (fun f => ⟨rfl, ?_⟩) (fun h => ?_)
  · simp (disch := decide) only [encode, put_fld, ← (fits_iff w _ _).mp f, ← BitVec.and_or_distrib_left]; exact word_whole (by decide)
  cases h

theorem decode1C_word {w : BitVec 32} {i : Instr} (h : decode1C w = some i) : IsWordOf w i := by
  unfold decode1C at h
  refine IsWordOf.chain h (fun f => ⟨rfl, ?_⟩) (fun h => ?_)
  · simp (disch := decide) only [encode, put_fld, ← (fits_iff w _ _).mp f, ← BitVec.and_or_distrib_left]; exact word_whole (by decide)
  refine IsWordOf.chain h (fun f => ⟨rfl, ?_⟩) (fun h => ?_)
  · simp (disch := decide) only [encode, put_fld, ← (fits_iff w _ _).mp f, ← BitVec.and_or_distrib_left]; exact word_whole (by decide)
  refine IsWordOf.chain h (fun f => ⟨rfl, ?_⟩) (fun h => ?_)
  · simp (disch := decide) only [encode, put_fld, ← (fits_iff w _ _).mp f, ← BitVec.and_or_distrib_left]; exact word_whole (by decide)
  refine IsWordOf.chain h (fun f => ⟨rfl, ?_⟩) (fun h => ?_)
  · simp (disch := decide) only [encode, put_fld, ← (fits_iff w _ _).mp f, ← BitVec.and_or_distrib_left]; exact word_whole (by decide)
  refine IsWordOf.chain h (fun f => ⟨rfl, ?_⟩) (fun h => ?_)
  · simp (disch := decide) only [encode, put_fld, ← (fits_iff w _ _).mp f, ← BitVec.and_or_distrib_left]; exact word_whole (by decide)
  refine IsWordOf.chain h (fun f => ⟨rfl, ?_⟩) (fun h => ?_)
  · simp (disch := decide) only [encode, put_fld, ← (fits_iff w _ _).mp f, ← BitVec.and_or_distrib_left]; exact word_whole (by decide)
  refine IsWordOf.chain h (fun f => ⟨rfl, ?_⟩) (fun h => ?_)
  · simp (disch := decide) only [encode, put_fld, ← (fits_iff w _ _).mp f, ← BitVec.and_or_distrib_left]; exact word_whole (by decide)
  refine IsWordOf.chain h (fun f => ⟨rfl, ?_⟩) (fun h => ?_)
  · simp (disch := decide) only [encode, put_fld, ← (fits_iff w _ _).mp f, ← BitVec.and_or_distrib_left]; exact word_whole (by decide)
  cases h

theorem decode1D_word {w : BitVec 32} {i : Instr} (h : decode1D w = some i) : IsWordOf w i := by
  unfold decode1D at h
  refine IsWordOf.chain h (fun f => ⟨rfl, ?_⟩) (fun h => ?_)
  · simp (disch := decide) only [encode, put_fld, ← (fits_iff w _ _).mp f, ← BitVec.and_or_distrib_left]; exact word_whole (by decide)
  cases h

theorem decode1E_word {w : BitVec 32} {i : Instr} (h : decode1E w = some i) : IsWordOf w i := by
  unfold decode1E at h
  refine IsWordOf.chain h (fun f => ⟨rfl, ?_⟩) (fun h => ?_)
  · simp (disch := decide) only [encode, put_fld, ← (fits_iff w _ _).mp f, ← BitVec.and_or_distrib_left]; exact word_whole (by decide)
  refine IsWordOf.chain h (fun f => ⟨rfl, ?_⟩) (fun h => ?_)
  · simp (disch := decide) only [encode, put_fld, ← (fits_iff w _ _).mp f, ← BitVec.and_or_distrib_left]; exact word_whole (by decide)
  refine IsWordOf.chain h (fun f => ⟨rfl, ?_⟩) (fun h => ?_)
  · simp (disch := decide) only [encode, put_fld, ← (fits_iff w _ _).mp f, ← BitVec.and_or_distrib_left]; exact word_whole (by decide)
  refine IsWordOf.chain h (fun f => ⟨rfl, ?_⟩) (fun h => ?_)
  · simp (disch := decide) only [encode, put_fld, ← (fits_iff w _ _).mp f, ← BitVec.and_or_distrib_left]; exact word_whole (by decide)
  refine IsWordOf.chain h (fun f => ⟨rfl, ?_⟩) (fun h => ?_)
  · simp (disch := decide) only [encode, put_fld, ← (fits_iff w _ _).mp f, ← BitVec.and_or_distrib_left]; exact word_whole (by decide)
  refine IsWordOf.chain h (fun f => ⟨rfl, ?_⟩) (fun h => ?_)
  · simp (disch := decide) only [encode, put_fld, ← (fits_iff w _ _).mp f, ← BitVec.and_or_distrib_left]; exact word_whole (by decide)
  cases h

theorem decode20_word {w : BitVec 32} {i : Instr} (h : decode20 w = some i) : IsWordOf w i := by
  unfold decode20 at h
  refine IsWordOf.chain h (fun f => ⟨rfl, ?_⟩) (fun h => ?_)
  · simp (disch := decide) only [encode, put_fld, ← (fits_iff w _ _).mp f, ← BitVec.and_or_distrib_left]; exact word_whole (by decide)
  cases h

theorem decode21_word {w : BitVec 32} {i : Instr} (h : decode21 w = some i) : IsWordOf w i := by
  unfold decode21 at h
  refine IsWordOf.chain h (fun f => ⟨rfl, ?_⟩) (fun h => ?_)
  · simp (disch := decide) only [encode, put_fld, ← (fits_iff w _ _).mp f, ← BitVec.and_or_distrib_left]; exact word_whole (by decide)
  cases h

theorem decode22_word {w : BitVec 32} {i : Instr} (h : decode22 w = some i) : IsWordOf w i := by
  unfold decode22 at h
  refine IsWordOf.chain h (fun f => ⟨rfl, ?_⟩) (fun h => ?_)
  · simp (disch := decide) only [encode, put_fld, ← (fits_iff w _ _).mp f, ← BitVec.and_or_distrib_left]; exact word_whole (by decide)
  cases h

theorem decode23_word {w : BitVec 32} {i : Instr} (h : decode23 w = some i) : IsWordOf w i := by
  unfold decode23 at h
  refine IsWordOf.chain h (fun f => ⟨rfl, ?_⟩) (fun h => ?_)
  · simp (disch := decide) only [encode, put_fld, ← (fits_iff w _ _).mp f, ← BitVec.and_or_distrib_left]; exact word_whole (by decide)
  cases h

theorem decode24_word {w : BitVec 32} {i : Instr} (h : decode24 w = some i) : IsWordOf w i := by
  unfold decode24 at h
  refine IsWordOf.chain h (fun f => ⟨rfl, ?_⟩) (fun h => ?_)
  · simp (disch := decide) only [encode, put_fld, ← (fits_iff w _ _).mp f, ← BitVec.and_or_distrib_left]; exact word_whole (by decide)
  cases h

theorem decode25_word {w : BitVec 32} {i : Instr} (h : decode25 w = some i) : IsWordOf w i := by
  unfold decode25 at h
  refine IsWordOf.chain h (fun f => ⟨rfl, ?_⟩) (fun h => ?_)
  · simp (disch := decide) only [encode, put_fld, ← (fits_iff w _ _).mp f, ← BitVec.and_or_distrib_left]; exact word_whole (by decide)
  cases h

theorem decode26_word {w : BitVec 32} {i : Instr} (h : decode26 w = some i) : IsWordOf w i := by
  unfold decode26 at h
  refine IsWordOf.chain h (fun f => ⟨rfl, ?_⟩) (fun h => ?_)
  · simp (disch := decide) only [encode, put_fld, ← (fits_iff w _ _).mp f, ← BitVec.and_or_distrib_left]; exact word_whole (by decide)
  cases h

theorem decode27_word {w : BitVec 32} {i : Instr} (h : decode27 w = some i) : IsWordOf w i := by
  unfold decode27 at h
  refine IsWordOf.chain h (fun f => ⟨rfl, ?_⟩) (fun h => ?_)
  · simp (disch := decide) only [encode, put_fld, ← (fits_iff w _ _).mp f, ← BitVec.and_or_distrib_left]; exact word_whole (by decide)
  cases h

theorem decode28_word {w : BitVec 32} {i : Instr} (h : decode28 w = some i) : IsWordOf w i := by
  unfold decode28 at h
  refine IsWordOf.chain h (fun f => ⟨rfl, ?_⟩) (fun h => ?_)
  · simp (disch := decide) only [encode, put_fld, ← (fits_iff w _ _).mp f, ← BitVec.and_or_distrib_left]; exact word_whole (by decide)
  refine IsWordOf.chain h (fun f => ⟨rfl, ?_⟩) (fun h => ?_)
  · simp (disch := decide) only [encode, put_fld, ← (fits_iff w _ _).mp f, ← BitVec.and_or_distrib_left]; exact word_whole (by decide)
  refine IsWordOf.chain h (fun f => ⟨rfl, ?_⟩) (fun h => ?_)
  · exact ((fits_iff w _ _).mp f).symm.trans (word_whole (by decide))
  cases h

theorem decode29_word {w : BitVec 32} {i : Instr} (h : decode29 w = some i) : IsWordOf w i := by
  unfold decode29 at h
  refine IsWordOf.chain h (fun f => ⟨rfl, ?_⟩) (fun h => ?_)
  · simp (disch := decide) only [encode, put_fld, ← (fits_iff w _ _).mp f, ← BitVec.and_or_distrib_left]; exact word_whole (by decide)
  cases h

theorem decode2A_word {w : BitVec 32} {i : Instr} (h : decode2A w = some i) : IsWordOf w i := by
  unfold decode2A at h
  refine IsWordOf.chain h (fun f => ⟨rfl, ?_⟩) (fun h => ?_)
  · simp (disch := decide) only [encode, put_fld, ← (fits_iff w _ _).mp f, ← BitVec.and_or_distrib_left]; exact word_whole (by decide)
  refine IsWordOf.chain h (fun f => ⟨rfl, ?_⟩) (fun h => ?_)
  · simp (disch := decide) only [encode, put_fld, ← (fits_iff w _ _).mp f, ← BitVec.and_or_distrib_left]; exact word_whole (by decide)
  refine IsWordOf.chain h (fun f => ⟨rfl, ?_⟩) (fun h => ?_)
  · simp (disch := decide) only [encode, put_fld, ← (fits_iff w _ _).mp f, ← BitVec.and_or_distrib_left]; exact word_whole (by decide)
  refine IsWordOf.chain h (fun f => ⟨rfl, ?_⟩) (fun h => ?_)
  · simp (disch := decide) only [encode, put_fld, ← (fits_iff w _ _).mp f, ← BitVec.and_or_distrib_left]; exact word_whole (by decide)
  cases h

theorem decode2B_word {w : BitVec 32} {i : Instr} (h : decode2B w = some i) : IsWordOf w i := by
  unfold decode2B at h
  refine IsWordOf.chain h (fun f => ⟨rfl, ?_⟩) (fun h => ?_)
  · simp (disch := decide) only [encode, put_fld, ← (fits_iff w _ _).mp f, ← BitVec.and_or_distrib_left]; exact word_whole (by decide)
  cases h

theorem decode2C_word {w : BitVec 32} {i : Instr} (h : decode2C w = some i) : IsWordOf w i := by
  unfold decode2C at h
  refine IsWordOf.chain h (fun f => ⟨rfl, ?_⟩) (fun h => ?_)
  · simp (disch := decide) only [encode, put_fld, ← (fits_iff w _ _).mp f, ← BitVec.and_or_distrib_left]; exact word_whole (by decide)
  refine IsWordOf.chain h (fun f => ⟨rfl, ?_⟩) (fun h => ?_)
  · simp (disch := decide) only [encode, put_fld, ← (fits_iff w _ _).mp f, ← BitVec.and_or_distrib_left]; exact word_whole (by decide)
  refine IsWordOf.chain h (fun f => ⟨rfl, ?_⟩) (fun h => ?_)
  · simp (disch := decide) only [encode, put_fld, ← (fits_iff w _ _).mp f, ← BitVec.and_or_distrib_left]; exact word_whole (by decide)
  cases h

theorem decode2D_word {w : BitVec 32} {i : Instr} (h : decode2D w = some i) : IsWordOf w i := by
  unfold decode2D at h
  refine IsWordOf.chain h (fun f => ⟨rfl, ?_⟩) (fun h => ?_)
  · simp (disch := decide) only [encode, put_fld, ← (fits_iff w _ _).mp f, ← BitVec.and_or_distrib_left]; exact word_whole (by decide)
  refine IsWordOf.chain h (fun f => ⟨rfl, ?_⟩) (fun h => ?_)
  · simp (disch := decide) only [encode, put_fld, ← (fits_iff w _ _).mp f, ← BitVec.and_or_distrib_left]; exact word_whole (by decide)
  refine IsWordOf.chain h (fun f => ⟨rfl, ?_⟩) (fun h => ?_)
  · simp (disch := decide) only [encode, put_fld, ← (fits_iff w _ _).mp f, ← BitVec.and_or_distrib_left]; exact word_whole (by decide)
  refine IsWordOf.chain h (fun f => ⟨rfl, ?_⟩) (fun h => ?_)
  · simp (disch := decide) only [encode, put_fld, ← (fits_iff w _ _).mp f, ← BitVec.and_or_distrib_left]; exact word_whole (by decide)
  refine IsWordOf.chain h (fun f => ⟨rfl, ?_⟩) (fun h => ?_)
  · simp (disch := decide) only [encode, put_fld, ← (fits_iff w _ _).mp f, ← BitVec.and_or_distrib_left]; exact word_whole (by decide)
  refine IsWordOf.chain h (fun f => ⟨rfl, ?_⟩) (fun h => ?_)
  · simp (disch := decide) only [encode, put_fld, ← (fits_iff w _ _).mp f, ← BitVec.and_or_distrib_left]; exact word_whole (by decide)
  cases h

theorem decode2E_word {w : BitVec 32} {i : Instr} (h : decode2E w = some i) : IsWordOf w i := by
  unfold decode2E at h
  refine IsWordOf.chain h (fun f => ⟨rfl, ?_⟩) (fun h => ?_)
  · simp (disch := decide) only [encode, put_fld, ← (fits_iff w _ _).mp f, ← BitVec.and_or_distrib_left]; exact word_whole (by decide)
  refine IsWordOf.chain h (fun f => ⟨rfl, ?_⟩) (fun h => ?_)
  · simp (disch := decide) only [encode, put_fld, ← (fits_iff w _ _).mp f, ← BitVec.and_or_distrib_left]; exact word_whole (by decide)
  refine IsWordOf.chain h (fun f => ⟨rfl, ?_⟩) (fun h => ?_)
  · simp (disch := decide) only [encode, put_fld, ← (fits_iff w _ _).mp f, ← BitVec.and_or_distrib_left]; exact word_whole (by decide)
  refine IsWordOf.chain h (fun f => ⟨rfl, ?_⟩) (fun h => ?_)
  · simp (disch := decide) only [encode, put_fld, ← (fits_iff w _ _).mp f, ← BitVec.and_or_distrib_left]; exact word_whole (by decide)
  refine IsWordOf.chain h (fun f => ⟨rfl, ?_⟩) (fun h => ?_)
  · simp (disch := decide) only [encode, put_fld, ← (fits_iff w _ _).mp f, ← BitVec.and_or_distrib_left]; exact word_whole (by decide)
  refine IsWordOf.chain h (fun f => ⟨rfl, ?_⟩) (fun h => ?_)
  · simp (disch := decide) only [encode, put_fld, ← (fits_iff w _ _).mp f, ← BitVec.and_or_distrib_left]; exact word_whole (by decide)
  refine IsWordOf.chain h (fun f => ⟨rfl, ?_⟩) (fun h => ?_)
  · simp (disch := decide) only [encode, put_fld, ← (fits_iff w _ _).mp f, ← BitVec.and_or_distrib_left]; exact word_whole (by decide)
  refine IsWordOf.chain h (fun f => ⟨rfl, ?_⟩) (fun h => ?_)
  · simp (disch := decide) only [encode, put_fld, ← (fits_iff w _ _).mp f, ← BitVec.and_or_distrib_left]; exact word_whole (by decide)
  cases h

theorem decode30_word {w : BitVec 32} {i : Instr} (h : decode30 w = some i) : IsWordOf w i := by
  unfold decode30 at h
  refine IsWordOf.chain h (fun f => ⟨rfl, ?_⟩) (fun h => ?_)
  · simp (disch := decide) only [encode, put_fld, ← (fits_iff w _ _).mp f, ← BitVec.and_or_distrib_left]; exact word_whole (by decide)
  refine IsWordOf.chain h (fun f => ⟨rfl, ?_⟩) (fun h => ?_)
  · simp (disch := decide) only [encode, put_fld, ← (fits_iff w _ _).mp f, ← BitVec.and_or_distrib_left]; exact word_whole (by decide)
  refine IsWordOf.chain h (fun f => ⟨rfl, ?_⟩) (fun h => ?_)
  · simp (disch := decide) only [encode, put_fld, ← (fits_iff w _ _).mp f, ← BitVec.and_or_distrib_left]; exact word_whole (by decide)
  refine IsWordOf.chain h (fun f => ⟨rfl, ?_⟩) (fun h => ?_)
  · simp (disch := decide) only [encode, put_fld, ← (fits_iff w _ _).mp f, ← BitVec.and_or_distrib_left]; exact word_whole (by decide)
  refine IsWordOf.chain h (fun f => ⟨rfl, ?_⟩) (fun h => ?_)
  · simp (disch := decide) only [encode, put_fld, ← (fits_iff w _ _).mp f, ← BitVec.and_or_distrib_left]; exact word_whole (by decide)
  refine IsWordOf.chain h (fun f => ⟨rfl, ?_⟩) (fun h => ?_)
  · simp (disch := decide) only [encode, put_fld, ← (fits_iff w _ _).mp f, ← BitVec.and_or_distrib_left]; exact word_whole (by decide)
  refine IsWordOf.chain h (fun f => ⟨rfl, ?_⟩) (fun h => ?_)
  · simp (disch := decide) only [encode, put_fld, ← (fits_iff w _ _).mp f, ← BitVec.and_or_distrib_left]; exact word_whole (by decide)
  refine IsWordOf.chain h (fun f => ⟨rfl, ?_⟩) (fun h => ?_)
  · simp (disch := decide) only [encode, put_fld, ← (fits_iff w _ _).mp f, ← BitVec.and_or_distrib_left]; exact word_whole (by decide)
  refine IsWordOf.chain h (fun f => ⟨rfl, ?_⟩) (fun h => ?_)
  · simp (disch := decide) only [encode, put_fld, ← (fits_iff w _ _).mp f, ← BitVec.and_or_distrib_left]; exact word_whole (by decide)
  refine IsWordOf.chain h (fun f => ⟨rfl, ?_⟩) (fun h => ?_)
  · simp (disch := decide) only [encode, put_fld, ← (fits_iff w _ _).mp f, ← BitVec.and_or_distrib_left]; exact word_whole (by decide)
  refine IsWordOf.chain h (fun f => ⟨rfl, ?_⟩) (fun h => ?_)
  · simp (disch := decide) only [encode, put_fld, ← (fits_iff w _ _).mp f, ← BitVec.and_or_distrib_left]; exact word_whole (by decide)
  refine IsWordOf.chain h (fun f => ⟨rfl, ?_⟩) (fun h => ?_)
  · simp (disch := decide) only [encode, put_fld, ← (fits_iff w _ _).mp f, ← BitVec.and_or_distrib_left]; exact word_whole (by decide)
  refine IsWordOf.chain h (fun f => ⟨rfl, ?_⟩) (fun h => ?_)
  · simp (disch := decide) only [encode, put_fld, ← (fits_iff w _ _).mp f, ← BitVec.and_or_distrib_left]; exact word_whole (by decide)
  refine IsWordOf.chain h (fun f => ⟨rfl, ?_⟩) (fun h => ?_)
  · simp (disch := decide) only [encode, put_fld, ← (fits_iff w _ _).mp f, ← BitVec.and_or_distrib_left]; exact word_whole (by decide)
  refine IsWordOf.chain h (fun f => ⟨rfl, ?_⟩) (fun h => ?_)
  · simp (disch := decide) only [encode, put_fld, ← (fits_iff w _ _).mp f, ← BitVec.and_or_distrib_left]; exact word_whole (by decide)
  refine IsWordOf.chain h (fun f => ⟨rfl, ?_⟩) (fun h => ?_)
  · simp (disch := decide) only [encode, put_fld, ← (fits_iff w _ _).mp f, ← BitVec.and_or_distrib_left]; exact word_whole (by decide)
  refine IsWordOf.chain h (fun f => ⟨rfl, ?_⟩) (fun h => ?_)
  · simp (disch := decide) only [encode, put_fld, ← (fits_iff w _ _).mp f, ← BitVec.and_or_distrib_left]; exact word_whole (by decide)
  refine IsWordOf.chain h (fun f => ⟨rfl, ?_⟩) (fun h => ?_)
  · simp (disch := decide) only [encode, put_fld, ← (fits_iff w _ _).mp f, ← BitVec.and_or_distrib_left]; exact word_whole (by decide)
  cases h

theorem decode32_word {w : BitVec 32} {i : Instr} (h : decode32 w = some i) : IsWordOf w i := by
  unfold decode32 at h
  refine IsWordOf.chain h (fun f => ⟨rfl, ?_⟩) (fun h => ?_)
  · simp (disch := decide) only [encode, put_fld, ← (fits_iff w _ _).mp f, ← BitVec.and_or_distrib_left]; exact word_whole (by decide)
  refine IsWordOf.chain h (fun f => ⟨rfl, ?_⟩) (fun h => ?_)
  · simp (disch := decide) only [encode, put_fld, ← (fits_iff w _ _).mp f, ← BitVec.and_or_distrib_left]; exact word_whole (by decide)
  refine IsWordOf.chain h (fun f => ⟨rfl, ?_⟩) (fun h => ?_)
  · simp (disch := decide) only [encode, put_fld, ← (fits_iff w _ _).mp f, ← BitVec.and_or_distrib_left]; exact word_whole (by decide)
  refine IsWordOf.chain h (fun f => ⟨rfl, ?_⟩) (fun h => ?_)
  · simp (disch := decide) only [encode, put_fld, ← (fits_iff w _ _).mp f, ← BitVec.and_or_distrib_left]; exact word_whole (by decide)
  refine IsWordOf.chain h (fun f => ⟨rfl, ?_⟩) (fun h => ?_)
  · simp (disch := decide) only [encode, put_fld, ← (fits_iff w _ _).mp f, ← BitVec.and_or_distrib_left]; exact word_whole (by decide)
  refine IsWordOf.chain h (fun f => ⟨rfl, ?_⟩) (fun h => ?_)
  · simp (disch := decide) only [encode, put_fld, ← (fits_iff w _ _).mp f, ← BitVec.and_or_distrib_left]; exact word_whole (by decide)
  refine IsWordOf.chain h (fun f => ⟨rfl, ?_⟩) (fun h => ?_)
  · simp (disch := decide) only [encode, put_fld, ← (fits_iff w _ _).mp f, ← BitVec.and_or_distrib_left]; exact word_whole (by decide)
  refine IsWordOf.chain h (fun f => ⟨rfl, ?_⟩) (fun h => ?_)
  · simp (disch := decide) only [encode, put_fld, ← (fits_iff w _ _).mp f, ← BitVec.and_or_distrib_left]; exact word_whole (by decide)
  refine IsWordOf.chain h (fun f => ⟨rfl, ?_⟩) (fun h => ?_)
  · simp (disch := decide) only [encode, put_fld, ← (fits_iff w _ _).mp f, ← BitVec.and_or_distrib_left]; exact word_whole (by decide)
  refine IsWordOf.chain h (fun f => ⟨rfl, ?_⟩) (fun h => ?_)
  · simp (disch := decide) only [encode, put_fld, ← (fits_iff w _ _).mp f, ← BitVec.and_or_distrib_left]; exact word_whole (by decide)
  refine IsWordOf.chain h (fun f => ⟨rfl, ?_⟩) (fun h => ?_)
  · simp (disch := decide) only [encode, put_fld, ← (fits_iff w _ _).mp f, ← BitVec.and_or_distrib_left]; exact word_whole (by decide)
  refine IsWordOf.chain h (fun f => ⟨rfl, ?_⟩) (fun h => ?_)
  · simp (disch := decide) only [encode, put_fld, ← (fits_iff w _ _).mp f, ← BitVec.and_or_distrib_left]; exact word_whole (by decide)
  refine IsWordOf.chain h (fun f => ⟨rfl, ?_⟩) (fun h => ?_)
  · simp (disch := decide) only [encode, put_fld, ← (fits_iff w _ _).mp f, ← BitVec.and_or_distrib_left]; exact word_whole (by decide)
  refine IsWordOf.chain h (fun f => ⟨rfl, ?_⟩) (fun h => ?_)
  · simp (disch := decide) only [encode, put_fld, ← (fits_iff w _ _).mp f, ← BitVec.and_or_distrib_left]; exact word_whole (by decide)
  cases h

theorem decode34_word {w : BitVec 32} {i : Instr} (h : decode34 w = some i) : IsWordOf w i := by
  unfold decode34 at h
  refine IsWordOf.chain h (fun f => ⟨rfl, ?_⟩) (fun h => ?_)
  · simp (disch := decide) only [encode, put_fld, ← (fits_iff w _ _).mp f, ← BitVec.and_or_distrib_left]; exact word_whole (by decide)
  refine IsWordOf.chain h (fun f => ⟨rfl, ?_⟩) (fun h => ?_)
  · simp (disch := decide) only [encode, put_fld, ← (fits_iff w _ _).mp f, ← BitVec.and_or_distrib_left]; exact word_whole (by decide)
  refine IsWordOf.chain h (fun f => ⟨rfl, ?_⟩) (fun h => ?_)
  · simp (disch := decide) only [encode, put_fld, ← (fits_iff w _ _).mp f, ← BitVec.and_or_distrib_left]; exact word_whole (by decide)
  refine IsWordOf.chain h (fun f => ⟨rfl, ?_⟩) (fun h => ?_)
  · simp (disch := decide) only [encode, put_fld, ← (fits_iff w _ _).mp f, ← BitVec.and_or_distrib_left]; exact word_whole (by decide)
  refine IsWordOf.chain h (fun f => ⟨rfl, ?_⟩) (fun h => ?_)
  · simp (disch := decide) only [encode, put_fld, ← (fits_iff w _ _).mp f, ← BitVec.and_or_distrib_left]; exact word_whole (by decide)
  refine IsWordOf.chain h (fun f => ⟨rfl, ?_⟩) (fun h => ?_)
  · simp (disch := decide) only [encode, put_fld, ← (fits_iff w _ _).mp f, ← BitVec.and_or_distrib_left]; exact word_whole (by decide)
  refine IsWordOf.chain h (fun f => ⟨rfl, ?_⟩) (fun h => ?_)
  · simp (disch := decide) only [encode, put_fld, ← (fits_iff w _ _).mp f, ← BitVec.and_or_distrib_left]; exact word_whole (by decide)
  refine IsWordOf.chain h (fun f => ⟨rfl, ?_⟩) (fun h => ?_)
  · simp (disch := decide) only [encode, put_fld, ← (fits_iff w _ _).mp f, ← BitVec.and_or_distrib_left]; exact word_whole (by decide)
  refine IsWordOf.chain h (fun f => ⟨rfl, ?_⟩) (fun h => ?_)
  · simp (disch := decide) only [encode, put_fld, ← (fits_iff w _ _).mp f, ← BitVec.and_or_distrib_left]; exact word_whole (by decide)
  refine IsWordOf.chain h (fun f => ⟨rfl, ?_⟩) (fun h => ?_)
  · simp (disch := decide) only [encode, put_fld, ← (fits_iff w _ _).mp f, ← BitVec.and_or_distrib_left]; exact word_whole (by decide)
  refine IsWordOf.chain h (fun f => ⟨rfl, ?_⟩) (fun h => ?_)
  · simp (disch := decide) only [encode, put_fld, ← (fits_iff w _ _).mp f, ← BitVec.and_or_distrib_left]; exact word_whole (by decide)
  refine IsWordOf.chain h (fun f => ⟨rfl, ?_⟩) (fun h => ?_)
  · simp (disch := decide) only [encode, put_fld, ← (fits_iff w _ _).mp f, ← BitVec.and_or_distrib_left]; exact word_whole (by decide)
  refine IsWordOf.chain h (fun f => ⟨rfl, ?_⟩) (fun h => ?_)
  · simp (disch := decide) only [encode, put_fld, ← (fits_iff w _ _).mp f, ← BitVec.and_or_distrib_left]; exact word_whole (by decide)
  refine IsWordOf.chain h (fun f => ⟨rfl, ?_⟩) (fun h => ?_)
  · simp (disch := decide) only [encode, put_fld, ← (fits_iff w _ _).mp f, ← BitVec.and_or_distrib_left]; exact word_whole (by decide)
  cases h

theorem decode35_word {w : BitVec 32} {i : Instr} (h : decode35 w = some i) : IsWordOf w i := by
  unfold decode35 at h
  refine IsWordOf.chain h (fun f => ⟨rfl, ?_⟩) (fun h => ?_)
  · simp (disch := decide) only [encode, put_fld, ← (fits_iff w _ _).mp f, ← BitVec.and_or_distrib_left]; exact word_whole (by decide)
  refine IsWordOf.chain h (fun f => ⟨rfl, ?_⟩) (fun h => ?_)
  · simp (disch := decide) only [encode, put_fld, ← (fits_iff w _ _).mp f, ← BitVec.and_or_distrib_left]; exact word_whole (by decide)
  refine IsWordOf.chain h (fun f => ⟨rfl, ?_⟩) (fun h => ?_)
  · simp (disch := decide) only [encode, put_fld, ← (fits_iff w _ _).mp f, ← BitVec.and_or_distrib_left]; exact word_whole (by decide)
  refine IsWordOf.chain h (fun f => ⟨rfl, ?_⟩) (fun h => ?_)
  · simp (disch := decide) only [encode, put_fld, ← (fits_iff w _ _).mp f, ← BitVec.and_or_distrib_left]; exact word_whole (by decide)
  refine IsWordOf.chain h (fun f => ⟨rfl, ?_⟩) (fun h => ?_)
  · simp (disch := decide) only [encode, put_fld, ← (fits_iff w _ _).mp f, ← BitVec.and_or_distrib_left]; exact word_whole (by decide)
  refine IsWordOf.chain h (fun f => ⟨rfl, ?_⟩) (fun h => ?_)
  · simp (disch := decide) only [encode, put_fld, ← (fits_iff w _ _).mp f, ← BitVec.and_or_distrib_left]; exact word_whole (by decide)
  refine IsWordOf.chain h (fun f => ⟨rfl, ?_⟩) (fun h => ?_)
  · simp (disch := decide) only [encode, put_fld, ← (fits_iff w _ _).mp f, ← BitVec.and_or_distrib_left]; exact word_whole (by decide)
  refine IsWordOf.chain h (fun f => ⟨rfl, ?_⟩) (fun h => ?_)
  · simp (disch := decide) only [encode, put_fld, ← (fits_iff w _ _).mp f, ← BitVec.and_or_distrib_left]; exact word_whole (by decide)
  refine IsWordOf.chain h (fun f => ⟨rfl, ?_⟩) (fun h => ?_)
  · simp (disch := decide) only [encode, put_fld, ← (fits_iff w _ _).mp f, ← BitVec.and_or_distrib_left]; exact word_whole (by decide)
  cases h

theorem decode36_word {w : BitVec 32} {i : Instr} (h : decode36 w = some i) : IsWordOf w i := by
  unfold decode36 at h
  refine IsWordOf.chain h (fun f => ⟨rfl, ?_⟩) (fun h => ?_)
  · simp (disch := decide) only [encode, put_fld, ← (fits_iff w _ _).mp f, ← BitVec.and_or_distrib_left]; exact word_whole (by decide)
  refine IsWordOf.chain h (fun f => ⟨rfl, ?_⟩) (fun h => ?_)
  · simp (disch := decide) only [encode, put_fld, ← (fits_iff w _ _).mp f, ← BitVec.and_or_distrib_left]; exact word_whole (by decide)
  refine IsWordOf.chain h (fun f => ⟨rfl, ?_⟩) (fun h => ?_)
  · simp (disch := decide) only [encode, put_fld, ← (fits_iff w _ _).mp f, ← BitVec.and_or_distrib_left]; exact word_whole (by decide)
  refine IsWordOf.chain h (fun f => ⟨rfl, ?_⟩) (fun h => ?_)
  · simp (disch := decide) only [encode, put_fld, ← (fits_iff w _ _).mp f, ← BitVec.and_or_distrib_left]; exact word_whole (by decide)
  refine IsWordOf.chain h (fun f => ⟨rfl, ?_⟩) (fun h => ?_)
  · simp (disch := decide) only [encode, put_fld, ← (fits_iff w _ _).mp f, ← BitVec.and_or_distrib_left]; exact word_whole (by decide)
  refine IsWordOf.chain h (fun f => ⟨rfl, ?_⟩) (fun h => ?_)
  · simp (disch := decide) only [encode, put_fld, ← (fits_iff w _ _).mp f, ← BitVec.and_or_distrib_left]; exact word_whole (by decide)
  refine IsWordOf.chain h (fun f => ⟨rfl, ?_⟩) (fun h => ?_)
  · simp (disch := decide) only [encode, put_fld, ← (fits_iff w _ _).mp f, ← BitVec.and_or_distrib_left]; exact word_whole (by decide)
  refine IsWordOf.chain h (fun f => ⟨rfl, ?_⟩) (fun h => ?_)
  · simp (disch := decide) only [encode, put_fld, ← (fits_iff w _ _).mp f, ← BitVec.and_or_distrib_left]; exact word_whole (by decide)
  refine IsWordOf.chain h (fun f => ⟨rfl, ?_⟩) (fun h => ?_)
  · simp (disch := decide) only [encode, put_fld, ← (fits_iff w _ _).mp f, ← BitVec.and_or_distrib_left]; exact word_whole (by decide)
  refine IsWordOf.chain h (fun f => ⟨rfl, ?_⟩) (fun h => ?_)
  · simp (disch := decide) only [encode, put_fld, ← (fits_iff w _ _).mp f, ← BitVec.and_or_distrib_left]; exact word_whole (by decide)
  cases h

theorem decode37_word {w : BitVec 32} {i : Instr} (h : decode37 w = some i) : IsWordOf w i := by
  unfold decode37 at h
  refine IsWordOf.chain h (fun f => ⟨rfl, ?_⟩) (fun h => ?_)
  · simp (disch := decide) only [encode, put_fld, ← (fits_iff w _ _).mp f, ← BitVec.and_or_distrib_left]; exact word_whole (by decide)
  refine IsWordOf.chain h (fun f => ⟨rfl, ?_⟩) (fun h => ?_)
  · simp (disch := decide) only [encode, put_fld, ← (fits_iff w _ _).mp f, ← BitVec.and_or_distrib_left]; exact word_whole (by decide)
  refine IsWordOf.chain h (fun f => ⟨rfl, ?_⟩) (fun h => ?_)
  · simp (disch := decide) only [encode, put_fld, ← (fits_iff w _ _).mp f, ← BitVec.and_or_distrib_left]; exact word_whole (by decide)
  refine IsWordOf.chain h (fun f => ⟨rfl, ?_⟩) (fun h => ?_)
  · simp (disch := decide) only [encode, put_fld, ← (fits_iff w _ _).mp f, ← BitVec.and_or_distrib_left]; exact word_whole (by decide)
  refine IsWordOf.chain h (fun f => ⟨rfl, ?_⟩) (fun h => ?_)
  · simp (disch := decide) only [encode, put_fld, ← (fits_iff w _ _).mp f, ← BitVec.and_or_distrib_left]; exact word_whole (by decide)
  refine IsWordOf.chain h (fun f => ⟨rfl, ?_⟩) (fun h => ?_)
  · simp (disch := decide) only [encode, put_fld, ← (fits_iff w _ _).mp f, ← BitVec.and_or_distrib_left]; exact word_whole (by decide)
  refine IsWordOf.chain h (fun f => ⟨rfl, ?_⟩) (fun h => ?_)
  · simp (disch := decide) only [encode, put_fld, ← (fits_iff w _ _).mp f, ← BitVec.and_or_distrib_left]; exact word_whole (by decide)
  refine IsWordOf.chain h (fun f => ⟨rfl, ?_⟩) (fun h => ?_)
  · simp (disch := decide) only [encode, put_fld, ← (fits_iff w _ _).mp f, ← BitVec.and_or_distrib_left]; exact word_whole (by decide)
  refine IsWordOf.chain h (fun f => ⟨rfl, ?_⟩) (fun h => ?_)
  · simp (disch := decide) only [encode, put_fld, ← (fits_iff w _ _).mp f, ← BitVec.and_or_distrib_left]; exact word_whole (by decide)
  cases h

theorem decode38_word {w : BitVec 32} {i : Instr} (h : decode38 w = some i) : IsWordOf w i := by
  unfold decode38 at h
  refine IsWordOf.chain h (fun f => ⟨rfl, ?_⟩) (fun h => ?_)
  · simp (disch := decide) only [encode, put_fld, ← (fits_iff w _ _).mp f, ← BitVec.and_or_distrib_left]; exact word_whole (by decide)
  refine IsWordOf.chain h (fun f => ⟨rfl, ?_⟩) (fun h => ?_)
  · simp (disch := decide) only [encode, put_fld, ← (fits_iff w _ _).mp f, ← BitVec.and_or_distrib_left]; exact word_whole (by decide)
  refine IsWordOf.chain h (fun f => ⟨rfl, ?_⟩) (fun h => ?_)
  · simp (disch := decide) only [encode, put_fld, ← (fits_iff w _ _).mp f, ← BitVec.and_or_distrib_left]; exact word_whole (by decide)
  refine IsWordOf.chain h (fun f => ⟨rfl, ?_⟩) (fun h => ?_)
  · simp (disch := decide) only [encode, put_fld, ← (fits_iff w _ _).mp f, ← BitVec.and_or_distrib_left]; exact word_whole (by decide)
  refine IsWordOf.chain h (fun f => ⟨rfl, ?_⟩) (fun h => ?_)
  · simp (disch := decide) only [encode, put_fld, ← (fits_iff w _ _).mp f, ← BitVec.and_or_distrib_left]; exact word_whole (by decide)
  refine IsWordOf.chain h (fun f => ⟨rfl, ?_⟩) (fun h => ?_)
  · simp (disch := decide) only [encode, put_fld, ← (fits_iff w _ _).mp f, ← BitVec.and_or_distrib_left]; exact word_whole (by decide)
  refine IsWordOf.chain h (fun f => ⟨rfl, ?_⟩) (fun h => ?_)
  · simp (disch := decide) only [encode, put_fld, ← (fits_iff w _ _).mp f, ← BitVec.and_or_distrib_left]; exact word_whole (by decide)
  refine IsWordOf.chain h (fun f => ⟨rfl, ?_⟩) (fun h => ?_)
  · simp (disch := decide) only [encode, put_fld, ← (fits_iff w _ _).mp f, ← BitVec.and_or_distrib_left]; exact word_whole (by decide)
  refine IsWordOf.chain h (fun f => ⟨rfl, ?_⟩) (fun h => ?_)
  · simp (disch := decide) only [encode, put_fld, ← (fits_iff w _ _).mp f, ← BitVec.and_or_distrib_left]; exact word_whole (by decide)
  cases h

theorem decode39_word {w : BitVec 32} {i : Instr} (h : decode39 w = some i) : IsWordOf w i := by
  unfold decode39 at h
  refine IsWordOf.chain h (fun f => ⟨rfl, ?_⟩) (fun h => ?_)
  · simp (disch := decide) only [encode, put_fld, ← (fits_iff w _ _).mp f, ← BitVec.and_or_distrib_left]; exact word_whole (by decide)
  refine IsWordOf.chain h (fun f => ⟨rfl, ?_⟩) (fun h => ?_)
  · simp (disch := decide) only [encode, put_fld, ← (fits_iff w _ _).mp f, ← BitVec.and_or_distrib_left]; exact word_whole (by decide)
  refine IsWordOf.chain h (fun f => ⟨rfl, ?_⟩) (fun h => ?_)
  · simp (disch := decide) only [encode, put_fld, ← (fits_iff w _ _).mp f, ← BitVec.and_or_distrib_left]; exact word_whole (by decide)
  refine IsWordOf.chain h (fun f => ⟨rfl, ?_⟩) (fun h => ?_)
  · simp (disch := decide) only [encode, put_fld, ← (fits_iff w _ _).mp f, ← BitVec.and_or_distrib_left]; exact word_whole (by decide)
  refine IsWordOf.chain h (fun f => ⟨rfl, ?_⟩) (fun h => ?_)
  · simp (disch := decide) only [encode, put_fld, ← (fits_iff w _ _).mp f, ← BitVec.and_or_distrib_left]; exact word_whole (by decide)
  refine IsWordOf.chain h (fun f => ⟨rfl, ?_⟩) (fun h => ?_)
  · simp (disch := decide) only [encode, put_fld, ← (fits_iff w _ _).mp f, ← BitVec.and_or_distrib_left]; exact word_whole (by decide)
  refine IsWordOf.chain h (fun f => ⟨rfl, ?_⟩) (fun h => ?_)
  · simp (disch := decide) only [encode, put_fld, ← (fits_iff w _ _).mp f, ← BitVec.and_or_distrib_left]; exact word_whole (by decide)
  refine IsWordOf.chain h (fun f => ⟨rfl, ?_⟩) (fun h => ?_)
  · simp (disch := decide) only [encode, put_fld, ← (fits_iff w _ _).mp f, ← BitVec.and_or_distrib_left]; exact word_whole (by decide)
  refine IsWordOf.chain h (fun f => ⟨rfl, ?_⟩) (fun h => ?_)
  · simp (disch := decide) only [encode, put_fld, ← (fits_iff w _ _).mp f, ← BitVec.and_or_distrib_left]; exact word_whole (by decide)
  refine IsWordOf.chain h (fun f => ⟨rfl, ?_⟩) (fun h => ?_)
  · simp (disch := decide) only [encode, put_fld, ← (fits_iff w _ _).mp f, ← BitVec.and_or_distrib_left]; exact word_whole (by decide)
  refine IsWordOf.chain h (fun f => ⟨rfl, ?_⟩) (fun h => ?_)
  · simp (disch := decide) only [encode, put_fld, ← (fits_iff w _ _).mp f, ← BitVec.and_or_distrib_left]; exact word_whole (by decide)
  refine IsWordOf.chain h (fun f => ⟨rfl, ?_⟩) (fun h => ?_)
  · simp (disch := decide) only [encode, put_fld, ← (fits_iff w _ _).mp f, ← BitVec.and_or_distrib_left]; exact word_whole (by decide)
  refine IsWordOf.chain h (fun f => ⟨rfl, ?_⟩) (fun h => ?_)
  · simp (disch := decide) only [encode, put_fld, ← (fits_iff w _ _).mp f, ← BitVec.and_or_distrib_left]; exact word_whole (by decide)
  refine IsWordOf.chain h (fun f => ⟨rfl, ?_⟩) (fun h => ?_)
  · simp (disch := decide) only [encode, put_fld, ← (fits_iff w _ _).mp f, ← BitVec.and_or_distrib_left]; exact word_whole (by decide)
  refine IsWordOf.chain h (fun f => ⟨rfl, ?_⟩) (fun h => ?_)
  · simp (disch := decide) only [encode, put_fld, ← (fits_iff w _ _).mp f, ← BitVec.and_or_distrib_left]; exact word_whole (by decide)
  refine IsWordOf.chain h (fun f => ⟨rfl, ?_⟩) (fun h => ?_)
  · simp (disch := decide) only [encode, put_fld, ← (fits_iff w _ _).mp f, ← BitVec.and_or_distrib_left]; exact word_whole (by decide)
  refine IsWordOf.chain h (fun f => ⟨rfl, ?_⟩) (fun h => ?_)
  · simp (disch := decide) only [encode, put_fld, ← (fits_iff w _ _).mp f, ← BitVec.and_or_distrib_left]; exact word_whole (by decide)
  refine IsWordOf.chain h (fun f => ⟨rfl, ?_⟩) (fun h => ?_)
  · simp (disch := decide) only [encode, put_fld, ← (fits_iff w _ _).mp f, ← BitVec.and_or_distrib_left]; exact word_whole (by decide)
  refine IsWordOf.chain h (fun f => ⟨rfl, ?_⟩) (fun h => ?_)
  · simp (disch := decide) only [encode, put_fld, ← (fits_iff w _ _).mp f, ← BitVec.and_or_distrib_left]; exact word_whole (by decide)
  refine IsWordOf.chain h (fun f => ⟨rfl, ?_⟩) (fun h => ?_)
  · simp (disch := decide) only [encode, put_fld, ← (fits_iff w _ _).mp f, ← BitVec.and_or_distrib_left]; exact word_whole (by decide)
  cases h

theorem decode3A_word {w : BitVec 32} {i : Instr} (h : decode3A w = some i) : IsWordOf w i := by
  unfold decode3A at h
  refine IsWordOf.chain h (fun f => ⟨rfl, ?_⟩) (fun h => ?_)
  · simp (disch := decide) only [encode, put_fld, ← (fits_iff w _ _).mp f, ← BitVec.and_or_distrib_left]; exact word_whole (by decide)
  refine IsWordOf.chain h (fun f => ⟨rfl, ?_⟩) (fun h => ?_)
  · simp (disch := decide) only [encode, put_fld, ← (fits_iff w _ _).mp f, ← BitVec.and_or_distrib_left]; exact word_whole (by decide)
  refine IsWordOf.chain h (fun f => ⟨rfl, ?_⟩) (fun h => ?_)
  · simp (disch := decide) only [encode, put_fld, ← (fits_iff w _ _).mp f, ← BitVec.and_or_distrib_left]; exact word_whole (by decide)
  refine IsWordOf.chain h (fun f => ⟨rfl, ?_⟩) (fun h => ?_)
  · simp (disch := decide) only [encode, put_fld, ← (fits_iff w _ _).mp f, ← BitVec.and_or_distrib_left]; exact word_whole (by decide)
  refine IsWordOf.chain h (fun f => ⟨rfl, ?_⟩) (fun h => ?_)
  · simp (disch := decide) only [encode, put_fld, ← (fits_iff w _ _).mp f, ← BitVec.and_or_distrib_left]; exact word_whole (by decide)
  refine IsWordOf.chain h (fun f => ⟨rfl, ?_⟩) (fun h => ?_)
  · simp (disch := decide) only [encode, put_fld, ← (fits_iff w _ _).mp f, ← BitVec.and_or_distrib_left]; exact word_whole (by decide)
  refine IsWordOf.chain h (fun f => ⟨rfl, ?_⟩) (fun h => ?_)
  · exact ((fits_iff w _ _).mp f).symm.trans (word_whole (by decide))
  refine IsWordOf.chain h (fun f => ⟨rfl, ?_⟩) (fun h => ?_)
  · exact ((fits_iff w _ _).mp f).symm.trans (word_whole (by decide))
  cases h

theorem decode3B_word {w : BitVec 32} {i : Instr} (h : decode3B w = some i) : IsWordOf w i := by
  unfold decode3B at h
  refine IsWordOf.chain h (fun f => ⟨rfl, ?_⟩) (fun h => ?_)
  · simp (disch := decide) only [encode, put_fld, ← (fits_iff w _ _).mp f, ← BitVec.and_or_distrib_left]; exact word_whole (by decide)
  refine IsWordOf.chain h (fun f => ⟨rfl, ?_⟩) (fun h => ?_)
  · simp (disch := decide) only [encode, put_fld, ← (fits_iff w _ _).mp f, ← BitVec.and_or_distrib_left]; exact word_whole (by decide)
  refine IsWordOf.chain h (fun f => ⟨rfl, ?_⟩) (fun h => ?_)
  · simp (disch := decide) only [encode, put_fld, ← (fits_iff w _ _).mp f, ← BitVec.and_or_distrib_left]; exact word_whole (by decide)
  refine IsWordOf.chain h (fun f => ⟨rfl, ?_⟩) (fun h => ?_)
  · simp (disch := decide) only [encode, put_fld, ← (fits_iff w _ _).mp f, ← BitVec.and_or_distrib_left]; exact word_whole (by decide)
  refine IsWordOf.chain h (fun f => ⟨rfl, ?_⟩) (fun h => ?_)
  · simp (disch := decide) only [encode, put_fld, ← (fits_iff w _ _).mp f, ← BitVec.and_or_distrib_left]; exact word_whole (by decide)
  refine IsWordOf.chain h (fun f => ⟨rfl, ?_⟩) (fun h => ?_)
  · simp (disch := decide) only [encode, put_fld, ← (fits_iff w _ _).mp f, ← BitVec.and_or_distrib_left]; exact word_whole (by decide)
  refine IsWordOf.chain h (fun f => ⟨rfl, ?_⟩) (fun h => ?_)
  · simp (disch := decide) only [encode, put_fld, ← (fits_iff w _ _).mp f, ← BitVec.and_or_distrib_left]; exact word_whole (by decide)
  refine IsWordOf.chain h (fun f => ⟨rfl, ?_⟩) (fun h => ?_)
  · simp (disch := decide) only [encode, put_fld, ← (fits_iff w _ _).mp f, ← BitVec.and_or_distrib_left]; exact word_whole (by decide)
  cases h

theorem decode3C_word {w : BitVec 32} {i : Instr} (h : decode3C w = some i) : IsWordOf w i := by
  unfold decode3C at h
  refine IsWordOf.chain h (fun f => ⟨rfl, ?_⟩) (fun h => ?_)
  · simp (disch := decide) only [encode, put_fld, ← (fits_iff w _ _).mp f, ← BitVec.and_or_distrib_left]; exact word_whole (by decide)
  refine IsWordOf.chain h (fun f => ⟨rfl, ?_⟩) (fun h => ?_)
  · simp (disch := decide) only [encode, put_fld, ← (fits_iff w _ _).mp f, ← BitVec.and_or_distrib_left]; exact word_whole (by decide)
  refine IsWordOf.chain h (fun f => ⟨rfl, ?_⟩) (fun h => ?_)
  · simp (disch := decide) only [encode, put_fld, ← (fits_iff w _ _).mp f, ← BitVec.and_or_distrib_left]; exact word_whole (by decide)
  refine IsWordOf.chain h (fun f => ⟨rfl, ?_⟩) (fun h => ?_)
  · simp (disch := decide) only [encode, put_fld, ← (fits_iff w _ _).mp f, ← BitVec.and_or_distrib_left]; exact word_whole (by decide)
  refine IsWordOf.chain h (fun f => ⟨rfl, ?_⟩) (fun h => ?_)
  · simp (disch := decide) only [encode, put_fld, ← (fits_iff w _ _).mp f, ← BitVec.and_or_distrib_left]; exact word_whole (by decide)
  refine IsWordOf.chain h (fun f => ⟨rfl, ?_⟩) (fun h => ?_)
  · simp (disch := decide) only [encode, put_fld, ← (fits_iff w _ _).mp f, ← BitVec.and_or_distrib_left]; exact word_whole (by decide)
  cases h

theorem decode3D_word {w : BitVec 32} {i : Instr} (h : decode3D w = some i) : IsWordOf w i := by
  unfold decode3D at h
  refine IsWordOf.chain h (fun f => ⟨rfl, ?_⟩) (fun h => ?_)
  · simp (disch := decide) only [encode, put_fld, ← (fits_iff w _ _).mp f, ← BitVec.and_or_distrib_left]; exact word_whole (by decide)
  refine IsWordOf.chain h (fun f => ⟨rfl, ?_⟩) (fun h => ?_)
  · simp (disch := decide) only [encode, encodeResm, put_fld, ← (fits_iff w _ _).mp f, ← BitVec.and_or_distrib_left]; exact word_whole (by decide)
  refine IsWordOf.chain h (fun f => ⟨rfl, ?_⟩) (fun h => ?_)
  · simp (disch := decide) only [encode, encodeCdisc, put_fld, ← (fits_iff w _ _).mp f, ← BitVec.and_or_distrib_left]; exact word_whole (by decide)
  cases h

theorem decode3E_word {w : BitVec 32} {i : Instr} (h : decode3E w = some i) : IsWordOf w i := by
  unfold decode3E at h
  refine IsWordOf.chain h (fun f => ⟨rfl, ?_⟩) (fun h => ?_)
  · simp (disch := decide) only [encode, put_fld, ← (fits_iff w _ _).mp f, ← BitVec.and_or_distrib_left]; exact word_whole (by decide)
  refine IsWordOf.chain h (fun f => ⟨rfl, ?_⟩) (fun h => ?_)
  · simp (disch := decide) only [encode, put_fld, ← (fits_iff w _ _).mp f, ← BitVec.and_or_distrib_left]; exact word_whole (by decide)
  refine IsWordOf.chain h (fun f => ⟨rfl, ?_⟩) (fun h => ?_)
  · simp (disch := decide) only [encode, put_fld, ← (fits_iff w _ _).mp f, ← BitVec.and_or_distrib_left]; exact word_whole (by decide)
  refine IsWordOf.chain h (fun f => ⟨rfl, ?_⟩) (fun h => ?_)
  · simp (disch := decide) only [encode, put_fld, ← (fits_iff w _ _).mp f, ← BitVec.and_or_distrib_left]; exact word_whole (by decide)
  refine IsWordOf.chain h (fun f => ⟨rfl, ?_⟩) (fun h => ?_)
  · exact ((fits_iff w _ _).mp f).symm.trans (word_whole (by decide))
  refine IsWordOf.chain h (fun f => ⟨rfl, ?_⟩) (fun h => ?_)
  · exact ((fits_iff w _ _).mp f).symm.trans (word_whole (by decide))
  refine IsWordOf.chain h (fun f => ⟨rfl, ?_⟩) (fun h => ?_)
  · exact ((fits_iff w _ _).mp f).symm.trans (word_whole (by decide))
  cases h

theorem pick_some {o : Option Instr} {i : Instr} (h : (match o with | some i => Except.ok i | none => .error Reject.unassigned) = Except.ok i) :
    o = some i := by
  cases o with
  | none => cases h
  | some j => cases h; rfl

theorem decodeRaw_word {w : BitVec 32} {i : Instr} (h : decodeRaw w = .ok i) : IsWordOf w i := by
  unfold decodeRaw decodeBy at h
  split at h
  · exact decode01_word (pick_some h)
  · exact decode02_word (pick_some h)
  · exact decode03_word (pick_some h)
  · exact decode04_word (pick_some h)
  · exact decode05_word (pick_some h)
  · exact decode06_word (pick_some h)
  · exact decode07_word (pick_some h)
  · exact decode08_word (pick_some h)
  · exact decode09_word (pick_some h)
  · exact decode0A_word (pick_some h)
  · exact decode0B_word (pick_some h)
  · exact decode0C_word (pick_some h)
  · exact decode10_word (pick_some h)
  · exact decode11_word (pick_some h)
  · exact decode12_word (pick_some h)
  · exact decode13_word (pick_some h)
  · exact decode14_word (pick_some h)
  · exact decode15_word (pick_some h)
  · exact decode16_word (pick_some h)
  · exact decode18_word (pick_some h)
  · exact decode19_word (pick_some h)
  · exact decode1A_word (pick_some h)
  · exact decode1B_word (pick_some h)
  · exact decode1C_word (pick_some h)
  · exact decode1D_word (pick_some h)
  · exact decode1E_word (pick_some h)
  · exact decode20_word (pick_some h)
  · exact decode21_word (pick_some h)
  · exact decode22_word (pick_some h)
  · exact decode23_word (pick_some h)
  · exact decode24_word (pick_some h)
  · exact decode25_word (pick_some h)
  · exact decode26_word (pick_some h)
  · exact decode27_word (pick_some h)
  · exact decode28_word (pick_some h)
  · exact decode29_word (pick_some h)
  · exact decode2A_word (pick_some h)
  · exact decode2B_word (pick_some h)
  · exact decode2C_word (pick_some h)
  · exact decode2D_word (pick_some h)
  · exact decode2E_word (pick_some h)
  · exact decode30_word (pick_some h)
  · exact decode30_word (pick_some h)
  · exact decode32_word (pick_some h)
  · exact decode32_word (pick_some h)
  · exact decode34_word (pick_some h)
  · exact decode35_word (pick_some h)
  · exact decode36_word (pick_some h)
  · exact decode37_word (pick_some h)
  · exact decode38_word (pick_some h)
  · exact decode39_word (pick_some h)
  · exact decode3A_word (pick_some h)
  · exact decode3B_word (pick_some h)
  · exact decode3C_word (pick_some h)
  · exact decode3D_word (pick_some h)
  · exact decode3E_word (pick_some h)
  · cases h

/-- What `decode` answers is well-formed, has a word, and that word is the one decoded. -/
theorem decode_word {w : BitVec 32} {i : Instr} (h : decode w = .ok i) : i.wf = true ∧ IsWordOf w i := by
  unfold decode at h
  split at h
  · rename_i j hj
    by_cases hw : j.wf = true
    · rw [if_pos hw] at h
      cases h
      exact ⟨hw, decodeRaw_word hj⟩
    · rw [if_neg hw] at h; cases h
  · cases h

theorem decodeBy_other {w : BitVec 32} {f g : BitVec 32 → Option Instr} (h : (fld w 26 6).toNat ≠ 61) : decodeBy f w = decodeBy g w := by
  unfold decodeBy
  generalize (fld w 26 6).toNat = n at h ⊢
  split <;> first | rfl | exact absurd rfl h

theorem decodeBy_susp {w : BitVec 32} {f : BitVec 32 → Option Instr} (h : (fld w 26 6).toNat = 61) :
    decodeBy f w = match f w with | some i => .ok i | none => .error .unassigned := by
  simp only [decodeBy, h] <;> rfl

/-- `isInstr` says whether `decode` answers an instruction. -/
theorem isInstr_iff (w : BitVec 32) : isInstr w = true ↔ ∃ i, decode w = .ok i := by
  unfold isInstr isResmOrCdisc decode decodeRaw
  by_cases h1 : fits w 0xFC0007FF 0xF4000001 = true
  · have hm : (fld w 26 6).toNat = 61 := by rw [major_of_fits h1 (by decide)]; rfl
    have hd : decode3D w = some (.resm (fld w 21 5) (fld w 16 5) (fld w 11 5)) := by
      unfold decode3D; rw [if_neg (fits_other h1 _ _ (by decide)), if_pos h1]
    rw [decodeBy_susp (f := decode3D) hm, hd, h1]
    exact ⟨fun _ => ⟨_, rfl⟩, fun _ => rfl⟩
  · by_cases h2 : fits w 0xFC00FFFF 0xF4000002 = true
    · have hm : (fld w 26 6).toNat = 61 := by rw [major_of_fits h2 (by decide)]; rfl
      have hd : decode3D w = some (.cdisc (fld w 21 5) (fld w 16 5)) := by
        unfold decode3D; rw [if_neg (fits_other h2 _ _ (by decide)), if_neg h1, if_pos h2]
      rw [decodeBy_susp (f := decode3D) hm, hd, h2]
      exact ⟨fun _ => ⟨_, rfl⟩, fun _ => Bool.or_eq_true_iff.mpr (.inl (Bool.or_true _))⟩
    · have hsame : decodeBy decodeSusp w = decodeBy decode3D w := by
        by_cases hm : (fld w 26 6).toNat = 61
        · rw [decodeBy_susp hm, decodeBy_susp hm]
          simp only [decodeSusp, decode3D, h1, h2]
          rfl
        · exact decodeBy_other hm
      rw [hsame, Bool.eq_false_iff.mpr h1, Bool.eq_false_iff.mpr h2]
      cases decodeBy decode3D w with
      | error e => simp
      | ok i => cases hi : i.wf <;> simp [hi]

end Sys2Proof
end

