-- ==== Sys2Proof/Laws/SMap.lean ====
section
/-! SUPPORT. Laws of sparse tables: what reading answers after a write, and that every operation keeps the canonical form. -/

namespace Sys2Proof

variable {α : Type}

/-- Every listed key is above a bound. -/
def SMap.above (k : Nat) (m : SMap α) : Prop := ∀ p ∈ m, k < p.1

theorem SMap.rising_cons (p : Nat × α) (m : SMap α) : SMap.rising (p :: m) = true ↔ SMap.above p.1 m ∧ SMap.rising m = true := by
  induction m generalizing p with
  | nil => simp [SMap.rising, SMap.above]
  | cons q r ih =>
    rw [SMap.rising, Bool.and_eq_true, ih q, decide_eq_true_eq]
    constructor
    · rintro ⟨h, h1, h2⟩
      refine ⟨?_, h1, h2⟩
      intro x hx
      rcases List.mem_cons.mp hx with rfl | hx
      · exact h
      · exact lt_trans h (h1 x hx)
    · rintro ⟨h, h1, h2⟩
      exact ⟨h q List.mem_cons_self, h1, h2⟩

theorem SMap.get_erase (d : α) (m : SMap α) (k j : Nat) : SMap.get d (SMap.erase m k) j = if j = k then d else SMap.get d m j := by
  induction m with
  | nil => simp [SMap.erase, SMap.get]
  | cons p r ih =>
    obtain ⟨i, v⟩ := p
    simp only [SMap.erase, SMap.get]
    split_ifs <;> simp_all [SMap.get]

theorem SMap.get_insert (d : α) (m : SMap α) (k j : Nat) (v : α) (h : k ∉ m.map Prod.fst) :
    SMap.get d (SMap.insert m k v) j = if j = k then v else SMap.get d m j := by
  induction m with
  | nil =>
    by_cases hj : j = k
    · simp [SMap.insert, SMap.get, hj]
    · simp [SMap.insert, SMap.get, hj, Ne.symm hj]
  | cons p r ih =>
    obtain ⟨i, u⟩ := p
    simp only [List.map_cons, List.mem_cons, not_or] at h
    have ih := ih h.2
    have hki : ¬ i = k := fun e => h.1 e.symm
    by_cases hlt : k < i
    · simp only [SMap.insert, if_pos hlt, SMap.get, eq_comm (a := k)]
    · simp only [SMap.insert, if_neg hlt, SMap.get, ih]
      by_cases hi : i = j
      · subst hi; simp only [if_true, if_neg hki]
      · simp only [if_neg hi]

theorem SMap.not_mem_erase (m : SMap α) (k : Nat) : k ∉ (SMap.erase m k).map Prod.fst := by
  induction m with
  | nil => simp [SMap.erase]
  | cons p r ih =>
    obtain ⟨i, v⟩ := p
    simp only [SMap.erase]
    split_ifs with h
    · exact ih
    · simp only [List.map_cons, List.mem_cons, not_or]; exact ⟨fun h' => h h'.symm, ih⟩

/-- Reading after a write: the written key answers the value, every other key what it answered before. -/
theorem SMap.get_set [DecidableEq α] (d : α) (m : SMap α) (k j : Nat) (v : α) :
    SMap.get d (SMap.set d m k v) j = if j = k then v else SMap.get d m j := by
  unfold SMap.set
  by_cases h1 : v = d
  · rw [if_pos h1, SMap.get_erase, h1]
  · rw [if_neg h1, SMap.get_insert _ _ _ _ _ (SMap.not_mem_erase m k)]
    by_cases h2 : j = k
    · rw [if_pos h2, if_pos h2]
    · rw [if_neg h2, if_neg h2, SMap.get_erase, if_neg h2]

@[simp] theorem SMap.get_set_self [DecidableEq α] (d : α) (m : SMap α) (k : Nat) (v : α) : SMap.get d (SMap.set d m k v) k = v := by
  rw [SMap.get_set, if_pos rfl]

theorem SMap.get_set_ne [DecidableEq α] (d : α) (m : SMap α) (k j : Nat) (v : α) (h : j ≠ k) :
    SMap.get d (SMap.set d m k v) j = SMap.get d m j := by rw [SMap.get_set, if_neg h]

theorem SMap.erase_sub (m : SMap α) (k : Nat) : ∀ p ∈ SMap.erase m k, p ∈ m ∧ p.1 ≠ k := by
  induction m with
  | nil => simp [SMap.erase]
  | cons p r ih =>
    obtain ⟨i, v⟩ := p
    simp only [SMap.erase]
    split_ifs with h
    · intro p hp; exact ⟨List.mem_cons_of_mem _ (ih p hp).1, (ih p hp).2⟩
    · intro p hp
      rcases List.mem_cons.mp hp with rfl | hp
      · exact ⟨List.mem_cons_self, h⟩
      · exact ⟨List.mem_cons_of_mem _ (ih p hp).1, (ih p hp).2⟩

theorem SMap.rising_erase (m : SMap α) (k : Nat) (h : SMap.rising m = true) : SMap.rising (SMap.erase m k) = true := by
  induction m with
  | nil => simp [SMap.erase, SMap.rising]
  | cons p r ih =>
    obtain ⟨i, v⟩ := p
    rw [SMap.rising_cons] at h
    simp only [SMap.erase]
    split_ifs
    · exact ih h.2
    · rw [SMap.rising_cons]
      exact ⟨fun p hp => h.1 p (SMap.erase_sub r k p hp).1, ih h.2⟩

theorem SMap.mem_insert (m : SMap α) (k : Nat) (v : α) : ∀ p ∈ SMap.insert m k v, p = (k, v) ∨ p ∈ m := by
  induction m with
  | nil => simp [SMap.insert]
  | cons p r ih =>
    obtain ⟨i, u⟩ := p
    simp only [SMap.insert]
    split_ifs
    · intro p hp
      rcases List.mem_cons.mp hp with rfl | hp
      · exact .inl rfl
      · exact .inr hp
    · intro p hp
      rcases List.mem_cons.mp hp with rfl | hp
      · exact .inr List.mem_cons_self
      · rcases ih p hp with h | h
        · exact .inl h
        · exact .inr (List.mem_cons_of_mem _ h)

theorem SMap.rising_insert (m : SMap α) (k : Nat) (v : α) (h : SMap.rising m = true) (hk : ∀ p ∈ m, p.1 ≠ k) :
    SMap.rising (SMap.insert m k v) = true := by
  induction m with
  | nil => rfl
  | cons p r ih =>
    obtain ⟨i, u⟩ := p
    have hs := h
    rw [SMap.rising_cons] at h
    simp only [SMap.insert]
    split_ifs with hlt
    · rw [SMap.rising_cons]
      refine ⟨?_, hs⟩
      intro p hp
      rcases List.mem_cons.mp hp with rfl | hp
      · exact hlt
      · exact lt_trans hlt (h.1 p hp)
    · rw [SMap.rising_cons]
      refine ⟨?_, ih h.2 (fun p hp => hk p (List.mem_cons_of_mem _ hp))⟩
      intro p hp
      rcases SMap.mem_insert r k v p hp with rfl | hp
      · have := hk (i, u) List.mem_cons_self
        show i < k
        have : i ≠ k := this
        omega
      · exact h.1 p hp

theorem SMap.wf_iff [DecidableEq α] (d : α) (m : SMap α) : SMap.wf d m = true ↔ SMap.rising m = true ∧ ∀ p ∈ m, p.2 ≠ d := by
  simp [SMap.wf]

/-- A write keeps the canonical form. -/
theorem SMap.wf_set [DecidableEq α] (d : α) (m : SMap α) (k : Nat) (v : α) (h : SMap.wf d m = true) : SMap.wf d (SMap.set d m k v) = true := by
  rw [SMap.wf_iff] at h ⊢
  unfold SMap.set
  split_ifs with hv
  · exact ⟨SMap.rising_erase m k h.1, fun p hp => h.2 p (SMap.erase_sub m k p hp).1⟩
  · refine ⟨SMap.rising_insert _ _ _ (SMap.rising_erase m k h.1) (fun p hp => (SMap.erase_sub m k p hp).2), ?_⟩
    intro p hp
    rcases SMap.mem_insert _ _ _ p hp with rfl | hp
    · exact hv
    · exact h.2 p (SMap.erase_sub m k p hp).1

/-- Two canonical tables that answer alike are the same data. -/
theorem SMap.ext_of_wf [DecidableEq α] (d : α) (m n : SMap α) (hm : SMap.wf d m = true) (hn : SMap.wf d n = true)
    (h : ∀ k, SMap.get d m k = SMap.get d n k) : m = n := by
  rw [SMap.wf_iff] at hm hn
  have miss : ∀ (r : SMap α) (k : Nat), SMap.above k r → ∀ j, j ≤ k → SMap.get d r j = d := by
    intro r k hr j hj
    induction r with
    | nil => rfl
    | cons p r ih =>
      obtain ⟨i, v⟩ := p
      have hi : k < i := hr (i, v) List.mem_cons_self
      rw [SMap.get, if_neg (by omega)]
      exact ih (fun p hp => hr p (List.mem_cons_of_mem _ hp))
  induction m generalizing n with
  | nil =>
    cases n with
    | nil => rfl
    | cons q r =>
      have := h q.1
      rw [SMap.get, SMap.get, if_pos rfl] at this
      exact absurd this.symm (hn.2 q List.mem_cons_self)
  | cons p r ih =>
    obtain ⟨i, v⟩ := p
    cases n with
    | nil =>
      have := h i
      rw [SMap.get, SMap.get, if_pos rfl] at this
      exact absurd this (hm.2 (i, v) List.mem_cons_self)
    | cons q t =>
      obtain ⟨j, u⟩ := q
      obtain ⟨hm1, hm2⟩ := hm
      obtain ⟨hn1, hn2⟩ := hn
      rw [SMap.rising_cons] at hm1 hn1
      have hij : i = j := by
        rcases lt_trichotomy i j with hlt | heq | hgt
        · have := h i
          rw [SMap.get, if_pos rfl, SMap.get, if_neg (by omega), miss t j hn1.1 i (by omega)] at this
          exact absurd this (hm2 (i, v) List.mem_cons_self)
        · exact heq
        · have := h j
          rw [SMap.get, if_neg (by omega), miss r i hm1.1 j (by omega), SMap.get, if_pos rfl] at this
          exact absurd this.symm (hn2 (j, u) List.mem_cons_self)
      subst hij
      have hv : v = u := by have := h i; rw [SMap.get, if_pos rfl, SMap.get, if_pos rfl] at this; exact this
      subst hv
      have hrest : r = t := by
        apply ih t ⟨hm1.2, fun p hp => hm2 p (List.mem_cons_of_mem _ hp)⟩ ⟨hn1.2, fun p hp => hn2 p (List.mem_cons_of_mem _ hp)⟩
        intro k
        by_cases hk : k ≤ i
        · rw [miss r i hm1.1 k hk, miss t i hn1.1 k hk]
        · have := h k
          rwa [SMap.get, if_neg (by omega), SMap.get, if_neg (by omega)] at this
      rw [hrest]

end Sys2Proof
end

