-- ==== Sys2Proof/Laws/Run.lean ====
section
/-! SUPPORT. Laws of the frame every instruction word runs in: the checks pass in a calm state that meets them, the ports are left
alone where none is named, and retiring leaves `retired`. -/

namespace Sys2Proof.Machine

set_option Elab.async false

theorem portsOf_none {s : State} {l : List Nat} (h : NoPort s l) : portsOf s l = [] := by
  unfold portsOf
  rcases h with h | h
  · simp [h]
  · have : l.filter (28 ≤ ·) = [] := by
      rw [List.filter_eq_nil_iff]; intro r hr; have := h r hr; simp; omega
    simp [this]

theorem NoPort.left {s : State} {l m : List Nat} (h : NoPort s (l ++ m)) : NoPort s l :=
  h.imp id (fun h r hr => h r (List.mem_append_left _ hr))

theorem NoPort.right {s : State} {l m : List Nat} (h : NoPort s (l ++ m)) : NoPort s m :=
  h.imp id (fun h r hr => h r (List.mem_append_right _ hr))

theorem noPort_groups {s : State} {l : List (Nat × Nat)} (h : ∀ g ∈ l, 0 < g.2 ∧ GroupOk s g) : NoPort s (l.map Prod.fst) := by
  by_cases ht : isTrio s = true
  · right
    intro r hr
    obtain ⟨g, hg, rfl⟩ := List.mem_map.mp hr
    have h1 := (h g hg).1
    have := (h g hg).2.2
    rw [if_pos ht] at this
    omega
  · left; simpa using ht

theorem noPort_same {s t : State} {l : List Nat} (h : NoPort s l) (hc : t.slot.cfg = s.slot.cfg) : NoPort t l := by
  unfold NoPort isTrio at *; rwa [hc]

theorem settle_none {s : State} {n : Need} (hx : NoPort s n.xr) (hv : NoPort s (n.vr.map Prod.fst)) (hw : NoPort s (n.vw.map Prod.fst)) :
    settle n s = s := by
  simp [settle, portsOf_none hx, portsOf_none hv, portsOf_none hw]

theorem reserve_none {s : State} {n : Need} (hw : NoPort s (n.vw.map Prod.fst)) : reserve s n = s := by
  simp [reserve, portsOf_none hw]

theorem inBody_calm {s : State} (h : Calm s) : inBody s = false := by simp [inBody, h.idle]

theorem groupBad_ok {s : State} {b : Bool} {g : Nat × Nat} (h : GroupOk s g) : groupBad s b g = false := by
  obtain ⟨h1, h2⟩ := h
  unfold groupBad
  by_cases ht : isTrio s = true
  · rw [if_pos ht] at h2
    have h3 : ¬ 28 < g.1 + g.2 := by omega
    have h4 : ¬ 32 < g.1 + g.2 := by omega
    simp [h1, h3, h4]
  · rw [if_neg ht] at h2
    have h4 : ¬ 32 < g.1 + g.2 := by omega
    simp [h1, h4, ht]

theorem mGroupBad_ok {s : State} {g : Nat × Nat} (h : MGroupOk s g) : mGroupBad s g = false := by
  obtain ⟨h0, h1, h2⟩ := h
  have h4 : ¬ 8 < g.1 + g.2 := by omega
  simp [mGroupBad, h0, h1, h4]

theorem xPortBad_none {s : State} {n : Need} (h : NoPort s (n.xr ++ n.xw)) : xPortBad s n = false := by
  unfold xPortBad
  rcases h with h | h
  · simp [h]
  · have hr : ∀ r ∈ n.xr, r < 28 := fun r hr => h r (List.mem_append_left _ hr)
    have hw : ∀ r ∈ n.xw, r < 28 := fun r hr => h r (List.mem_append_right _ hr)
    have h1 : n.xr.any (fun r => 28 ≤ r && qReader (r - 28) != s.cur.2) = false := by
      rw [List.any_eq_false]; intro r hm; have := hr r hm; simp; omega
    have h2 : n.xw.any (fun r => 28 ≤ r && qWriter (r - 28) != s.cur.2) = false := by
      rw [List.any_eq_false]; intro r hm; have := hw r hm; simp; omega
    have h3 : n.xw.any (fun r => 28 ≤ r && n.xr.contains r) = false := by
      rw [List.any_eq_false]; intro r hm; have := hw r hm; simp; omega
    rw [h1, h2, h3]; simp

theorem regsBad_ready {s : State} {n : Need} (h : Ready n s) : regsBad s n = false := by
  have hv : ∀ b, n.vr.any (groupBad s b) = false := fun b => by
    rw [List.any_eq_false]; intro g hg; rw [groupBad_ok (h.vs g (List.mem_append_left _ hg)).2]; simp
  have hw : ∀ b, n.vw.any (groupBad s b) = false := fun b => by
    rw [List.any_eq_false]; intro g hg; rw [groupBad_ok (h.vs g (List.mem_append_right _ hg)).2]; simp
  have hmr : n.mr.any (mGroupBad s) = false := by
    rw [List.any_eq_false]; intro g hg; rw [mGroupBad_ok (h.ms g (List.mem_append_left _ hg))]; simp
  have hmw : n.mw.any (mGroupBad s) = false := by
    rw [List.any_eq_false]; intro g hg; rw [mGroupBad_ok (h.ms g (List.mem_append_right _ hg))]; simp
  have hp : (isTrio s && n.vr.any (fun g => 28 ≤ g.1 && n.vw.any (fun h => h.1 = g.1))) = false := by
    by_cases ht : isTrio s = true
    · have : n.vr.any (fun g => 28 ≤ g.1 && n.vw.any (fun h => h.1 = g.1)) = false := by
        rw [List.any_eq_false]; intro g hg
        have h0 := (h.vs g (List.mem_append_left _ hg)).1
        have h1 := (h.vs g (List.mem_append_left _ hg)).2.2
        rw [if_pos ht] at h1
        simp; omega
      rw [this]; simp
    · simp [ht]
  unfold regsBad
  rw [h.own, xPortBad_none h.xs, hv, hw, hmr, hmw, hp]
  rfl

theorem mustWait_ready {s : State} {n : Need} (hc : Calm s) (h : Ready n s) : mustWait s n = false := by
  have hg := noPort_groups h.vs
  rw [List.map_append] at hg
  have hq : (n.queued && decide (128 ≤ s.thr.pnd.replay.length)) = false := by
    cases hq : n.queued with
    | false => rfl
    | true => have := h.room hq; simp; omega
  unfold mustWait
  rw [portsOf_none h.xs.left, portsOf_none h.xs.right, portsOf_none hg.left, portsOf_none hg.right, hq, hc.ahead]
  simp

/-- In a calm state that meets an instruction's needs, the checks pass and change nothing. -/
theorem gate_ready {s : State} {n : Need} (hc : Calm s) (h : Ready n s) : gate n s = .ok s := by
  have hg := noPort_groups h.vs
  rw [List.map_append] at hg
  have hgb : graftBreak s n = false := by simp [graftBreak, hc.chain]
  have hsb : shapeBad s n = none := by simp [shapeBad, portsOf_none hg.left]
  have hvt : (n.vt && decide (fmtN s = 0)) = false := by
    cases hv : n.vt with
    | false => rfl
    | true => simp [h.vt hv]
  unfold gate
  simp only [inBody_calm hc, hgb, h.role, h.fmt, hvt, regsBad_ready h, mustWait_ready hc h, hsb, reserve_none hg.right,
    hc.idle, Bool.false_and, Bool.and_false, Bool.not_true, Bool.false_eq_true, if_false]

theorem retire_calm {t : State} {w : BitVec 32} {npc : Word} (ha : t.thr.hid.active = false) (hd : (dbgOf t).sstep = false) :
    retire w npc t = retired w npc t := by
  have hd' : (SMap.get DbgBlk.reset t.dev.dbg (3 * t.cur.1 + t.cur.2)).sstep = false := hd
  unfold retire
  cases hw : writesWstat w <;> simp [closePass, clearSkip, ha, dbgOf, hd', retired, hw]

theorem SameCourse.refl (s : State) : SameCourse s s := ⟨rfl, rfl, rfl, rfl, rfl⟩

theorem SameCourse.trans {s t u : State} (h : SameCourse s t) (k : SameCourse t u) : SameCourse s u :=
  ⟨k.cur.trans h.cur, k.cfg.trans h.cfg, k.active.trans h.active, k.pc.trans h.pc, k.dbg.trans h.dbg⟩

theorem dbgOf_same {s t : State} (h : SameCourse s t) : dbgOf t = dbgOf s := by unfold dbgOf; rw [h.dbg, h.cur]

theorem settle_same {s t : State} {n : Need} (h : Ready n s) (k : SameCourse s t) : settle n t = t := by
  have hg := noPort_groups h.vs
  rw [List.map_append] at hg
  exact settle_none (noPort_same h.xs.left k.cfg) (noPort_same hg.left k.cfg) (noPort_same hg.right k.cfg)

theorem enqueueReplay_same (n : Need) (t : State) : SameCourse t (enqueueReplay n t) := by
  unfold enqueueReplay
  split <;> exact ⟨rfl, rfl, rfl, rfl, rfl⟩

theorem enqueueReplay_off {n : Need} (h : n.queued = false) (t : State) : enqueueReplay n t = t := by simp [enqueueReplay, h]

theorem retire_same {s t : State} {w : BitVec 32} {npc : Word} (hc : Calm s) (k : SameCourse s t) : retire w npc t = retired w npc t :=
  retire_calm (k.active.trans hc.idle) ((congrArg DbgBlk.sstep (dbgOf_same k)).trans hc.nostep)

theorem damageRead_calm {s : State} (h : Calm s) (n : Need) : damageRead s n = none := by simp [damageRead, h.whole]

theorem behindQueue_calm {s : State} (h : Calm s) (t : State) (r : Res) : behindQueue t s r = r := by simp [behindQueue, h.ahead]

theorem inOrder_calm {s : State} (h : Calm s) (t : State) : inOrder s t = t := by simp [inOrder, h.ahead]

/-- A word in a calm state that meets its needs is its body and its end. -/
theorem run_ready {s : State} {n : Need} {body : State → Res} (hc : Calm s) (h : Ready n s) : run n s body = finish n (body s) := by
  unfold run
  rw [gate_ready hc h]
  dsimp only
  rw [damageRead_calm hc]
  dsimp only
  rw [behindQueue_calm hc]

/-- An instruction that retires and goes on at the next word. -/
theorem run_done {s t : State} {n : Need} {body : State → Res} (hc : Calm s) (h : Ready n s) (hb : body s = .done t) (k : SameCourse s t) :
    run n s body = retired n.word (s.thr.pc + 4) (enqueueReplay n t) := by
  rw [run_ready hc h, hb]
  unfold finish
  dsimp only
  rw [settle_same h k, k.pc, retire_same hc (k.trans (enqueueReplay_same n t))]

/-- An instruction that retires and goes on at an address. -/
theorem run_jump {s t : State} {n : Need} {body : State → Res} {p : Word} (hc : Calm s) (h : Ready n s) (hb : body s = .jump p t)
    (k : SameCourse s t) : run n s body = retired n.word p (enqueueReplay n t) := by
  rw [run_ready hc h, hb]
  unfold finish
  dsimp only
  rw [settle_same h k, retire_same hc (k.trans (enqueueReplay_same n t))]

/-- An instruction that traps at itself. -/
theorem run_trap {s t : State} {n : Need} {body : State → Res} {c : Nat} {v v2 : Word} (hc : Calm s) (h : Ready n s)
    (hb : body s = .trap c v v2 t) : run n s body = trapWord n c v v2 t := by
  rw [run_ready hc h, hb]
  rfl

/-- An instruction that traps with another TPC. -/
theorem run_trapAt {s t : State} {n : Need} {body : State → Res} {c : Nat} {p v v2 : Word} (hc : Calm s) (h : Ready n s)
    (hb : body s = .trapAt c p v v2 t) : run n s body = takeTrap n.word c p v v2 t := by
  rw [run_ready hc h, hb]
  rfl

/-- An instruction that finds it must wait. -/
theorem run_wait {s t : State} {n : Need} {body : State → Res} (hc : Calm s) (h : Ready n s) (hb : body s = .wait t) :
    run n s body = waitHere t := by
  rw [run_ready hc h, hb]
  rfl

end Sys2Proof.Machine
end

