-- ==== Sys2Proof/Laws/Scalar.lean ====
section
/-! SUPPORT. Laws of the scalar instructions' shared forms: what each leaves in a calm state, and what register writes leave alone. -/

namespace Sys2Proof.Machine

set_option Elab.async false

/-! ## Register writes -/

theorem wx_same {n : Nat} {v : Word} {s : State} (h : NoPort s [n]) : SameCourse s (wx n v s) := by
  unfold wx
  split
  · exact .refl s
  · split
    · rename_i h1 h2
      simp only [Bool.and_eq_true, decide_eq_true_eq] at h2
      rcases h with h | h
      · rw [h] at h2; cases h2.1
      · have := h n (List.mem_singleton.mpr rfl); omega
    · exact ⟨rfl, rfl, rfl, rfl, rfl⟩

/-- A register write that is no port, in a state without damaged places: one entry of the register file. -/
theorem wx_plain {n : Nat} {v : Word} {s : State} (h : NoPort s [n]) (hd : s.thr.hid.damaged = []) (hn : n ≠ 0) :
    wx n v s = { s with thr.x := SMap.set 0 s.thr.x n v } := by
  unfold wx
  rw [if_neg hn]
  have : (isTrio s && decide (28 ≤ n)) = false := by
    rcases h with h | h
    · simp [h]
    · have := h n (List.mem_singleton.mpr rfl); simp; omega
  have hf : s.thr.hid.damaged.filter (fun d => !(d.cls = 6 && d.num = n)) = s.thr.hid.damaged := by rw [hd]; rfl
  rw [this, hf]
  rfl

theorem wx_zero (v : Word) (s : State) : wx 0 v s = s := rfl

/-- Reading a register after a write. -/
theorem rx_wx {n m : Nat} {v : Word} {s : State} (hn : NoPort s [n]) (hm : NoPort s [m]) :
    rx (wx n v s) m = if m = 0 then 0 else if m = n then v else rx s m := by
  have np : ∀ {k : Nat}, NoPort s [k] → (isTrio s && decide (28 ≤ k)) = false := by
    intro k h
    rcases h with h | h
    · simp [h]
    · have := h k (List.mem_singleton.mpr rfl); simp; omega
  unfold rx wx
  by_cases h0 : m = 0
  · simp [h0]
  · by_cases hn0 : n = 0
    · simp [h0, hn0]
    · rw [if_neg hn0, np hn]
      simp only [h0, if_false, Bool.false_eq_true]
      rw [show isTrio { s with thr.x := SMap.set 0 s.thr.x n v, thr.hid.damaged := s.thr.hid.damaged.filter (fun d => !(d.cls = 6 && d.num = n)) }
        = isTrio s from rfl, np hm]
      simp only [Bool.false_eq_true, if_false, SMap.get_set]

/-- Reading any register, a port too, after a write that is no port, in a state without damaged places. -/
theorem rx_wx_any {n : Nat} {v : Word} {s : State} (hn : NoPort s [n]) (hd : s.thr.hid.damaged = []) (m : Nat) :
    rx (wx n v s) m = if m = 0 then 0 else if m = n then v else rx s m := by
  by_cases hm : NoPort s [m]
  · exact rx_wx hn hm
  · have h1 : isTrio s = true ∧ 28 ≤ m := by
      unfold NoPort at hm
      simp at hm
      exact ⟨hm.1, hm.2⟩
    have h2 : n < 28 := by
      rcases hn with h | h
      · simp [h1.1] at h
      · exact h n (List.mem_singleton.mpr rfl)
    by_cases h0 : n = 0
    · subst h0
      rw [wx_zero]
      by_cases hm0 : m = 0
      · simp [hm0, rx]
      · simp [hm0]
    · rw [wx_plain hn hd h0]
      have h3 : m ≠ 0 := by omega
      have h4 : m ≠ n := by omega
      rw [if_neg h3, if_neg h4]
      unfold rx
      rw [if_neg h3, if_neg h3]
      have e1 : isTrio { s with thr.x := SMap.set 0 s.thr.x n v } = isTrio s := rfl
      rw [e1, h1.1]
      simp only [Bool.true_and, h1.2, decide_true, if_true]
      rfl

theorem mergeFlags_same (fl : Nat) (s : State) : SameCourse s (mergeFlags fl s) := ⟨rfl, rfl, rfl, rfl, rfl⟩

/-! ## The shared forms -/

theorem ready_scalar {w : BitVec 32} {l m : List Nat} {s : State} (h : NoPort s (l ++ m)) : Ready { word := w, xr := l, xw := m } s := by
  refine ⟨rfl, ?_, rfl, rfl, h, ?_, ?_, ?_⟩ <;> simp

theorem NoPort.of_mem {s : State} {l m : List Nat} (h : NoPort s l) (hs : ∀ r ∈ m, r ∈ l) : NoPort s m :=
  h.imp id (fun h r hr => h r (hs r hr))

/-- A word that computes one register. -/
theorem scalar_calm {s : State} {w : BitVec 32} {l : List Nat} {d : Nat} {f : State → State} (hc : Calm s) (h : NoPort s (l ++ [d]))
    (hf : SameCourse s (f s)) : scalar w l [d] s f = retired w (s.thr.pc + 4) (f s) := by
  unfold scalar
  rw [run_done (t := f s) hc (ready_scalar h) rfl hf, enqueueReplay_off rfl]

theorem scalar_none {s : State} {w : BitVec 32} {f : State → State} (hc : Calm s) (hf : SameCourse s (f s)) :
    scalar w [] [] s f = retired w (s.thr.pc + 4) (f s) := by
  unfold scalar
  rw [run_done (t := f s) hc (ready_scalar (.inr (fun r hr => by cases hr))) rfl hf, enqueueReplay_off rfl]

theorem aluXR_calm {s : State} {w : BitVec 32} {d a b : BitVec 5} {f : Word → Word → Word} (hc : Calm s)
    (h : NoPort s [d.toNat, a.toNat, b.toNat]) : aluXR w d a b f s = retired w (s.thr.pc + 4) (wx d.toNat (f (xr s a) (xr s b)) s) := by
  unfold aluXR
  exact scalar_calm (l := [a.toNat, b.toNat]) hc (h.of_mem (by simp)) (wx_same (h.of_mem (by simp)))

theorem aluX_calm {s : State} {w : BitVec 32} {d a : BitVec 5} {f : Word → Word} (hc : Calm s)
    (h : NoPort s [d.toNat, a.toNat]) : aluX w d a f s = retired w (s.thr.pc + 4) (wx d.toNat (f (xr s a)) s) := by
  unfold aluX
  exact scalar_calm (l := [a.toNat]) hc (h.of_mem (by simp)) (wx_same (h.of_mem (by simp)))

/-- The end of a scalar float word: it retires with its flags merged, or traps FP_EXCEPTION with nothing written (R86). -/
theorem run_float {s : State} {n : Need} {body : State → Res} {d : Nat} {v : Word} {fl : Nat} (hc : Calm s) (h : Ready n s)
    (hq : n.queued = false) (hd : NoPort s [d]) (hb : body s = finishScalarFloat d v fl s) :
    run n s body = if enabledFlags s fl = 0 then retired n.word (s.thr.pc + 4) (wx d v (mergeFlags fl s))
      else trapWord n 0x10 (w64 (enabledFlags s fl)) 0 s := by
  unfold finishScalarFloat at hb
  by_cases he : enabledFlags s fl = 0
  · rw [if_pos he]
    rw [if_neg (by simp [he])] at hb
    rw [run_done hc h hb ((mergeFlags_same fl s).trans (wx_same (noPort_same hd rfl))), enqueueReplay_off hq]
  · rw [if_neg he]
    rw [if_pos (by simp [he])] at hb
    exact run_trap hc h hb

theorem branch_calm {s : State} {w : BitVec 32} {a b : BitVec 5} {o : BitVec 16} {p : Word → Word → Bool} (hc : Calm s)
    (h : NoPort s [a.toNat, b.toNat]) :
    branch w a b o p s = retired w (if p (xr s a) (xr s b) then target s.thr.pc o else s.thr.pc + 4) s := by
  unfold branch
  have hr : Ready { word := w, xr := [a.toNat, b.toNat] } s := ready_scalar (m := []) (by simpa using h)
  by_cases hp : p (xr s a) (xr s b) = true
  · rw [run_jump (t := s) (p := target s.thr.pc o) hc hr (by simp [hp]) (.refl s), enqueueReplay_off rfl, if_pos hp]
  · rw [run_done (t := s) hc hr (by simp [hp]) (.refl s), enqueueReplay_off rfl, if_neg hp]

/-! ## Values -/

theorem nat_of_bits6 (x : Word) : bits x.toNat 0 6 = x.toNat % 64 := by simp [bits]
theorem sext_bits (x : Word) (n : Nat) : sextWord n (bits x.toNat 0 n) = (x.setWidth n).signExtend 64 := by
  unfold sextWord
  rw [BitVec.signExtend]
  congr 1
  rw [BitVec.toInt_eq_toNat_cond]
  simp [toSigned, bits]

theorem ofInt_toInt_min (a b : Word) : (if a.toInt < b.toInt then a else b) = BitVec.ofInt 64 (min a.toInt b.toInt) := by
  by_cases h : a.toInt < b.toInt
  · rw [if_pos h, min_eq_left h.le, BitVec.ofInt_toInt]
  · rw [if_neg h, min_eq_right (not_lt.mp h), BitVec.ofInt_toInt]
theorem ofInt_toInt_max (a b : Word) : (if a.toInt < b.toInt then b else a) = BitVec.ofInt 64 (max a.toInt b.toInt) := by
  by_cases h : a.toInt < b.toInt
  · rw [if_pos h, max_eq_right h.le, BitVec.ofInt_toInt]
  · rw [if_neg h, max_eq_left (not_lt.mp h), BitVec.ofInt_toInt]
theorem ofNat_min (a b : Word) : (if a.toNat < b.toNat then a else b) = BitVec.ofNat 64 (min a.toNat b.toNat) := by
  by_cases h : a.toNat < b.toNat
  · rw [if_pos h, min_eq_left h.le, BitVec.ofNat_toNat, BitVec.setWidth_eq]
  · rw [if_neg h, min_eq_right (not_lt.mp h), BitVec.ofNat_toNat, BitVec.setWidth_eq]
theorem ofNat_max (a b : Word) : (if a.toNat < b.toNat then b else a) = BitVec.ofNat 64 (max a.toNat b.toNat) := by
  by_cases h : a.toNat < b.toNat
  · rw [if_pos h, max_eq_right h.le, BitVec.ofNat_toNat, BitVec.setWidth_eq]
  · rw [if_neg h, max_eq_left (not_lt.mp h), BitVec.ofNat_toNat, BitVec.setWidth_eq]
theorem boolWord_decide (p : Prop) [Decidable p] : boolWord (decide p) = if p then 1 else 0 := by by_cases h : p <;> simp [boolWord, h]
theorem mulHigh_nat (a b : Nat) : mulHigh a b = BitVec.ofNat 64 (a * b / 2 ^ 64) := by
  unfold mulHigh; rw [← BitVec.ofInt_natCast]; congr 1
theorem div_eq (a b : Word) : divS a b = if b = 0 then (if a.toInt < 0 then BitVec.intMin 64 else BitVec.intMax 64)
      else if a.toInt = -2 ^ 63 ∧ b.toInt = -1 then BitVec.intMax 64
      else BitVec.ofInt 64 (a.toInt.tdiv b.toInt) := by
  unfold divS
  have h1 : (a = w64 (2 ^ 63)) ↔ a.toInt = -2 ^ 63 := by
    rw [← BitVec.toInt_inj]; exact Iff.rfl
  have h2 : (b = w64 (2 ^ 64 - 1)) ↔ b.toInt = -1 := by
    rw [← BitVec.toInt_inj]; exact Iff.rfl
  simp only [h1, h2]
  rfl
theorem ror_eq (x : Word) (n : BitVec 6) : x.rotateRight n.toNat = (x >>> n.toNat) ||| (x <<< ((64 - n.toNat) % 64)) := by
  have := n.isLt
  rw [BitVec.rotateRight_def, Nat.mod_eq_of_lt (by omega)]
  by_cases h : n.toNat = 0
  · rw [h]; simp
  · rw [Nat.mod_eq_of_lt (a := 64 - n.toNat) (by omega)]

theorem pushStore_same (cls va : Nat) (bs : List (Nat × Byte × Byte)) (s : State) : SameCourse s (pushStore cls va bs s) :=
  ⟨rfl, rfl, rfl, rfl, rfl⟩

theorem pushStore_mem (cls va : Nat) (bs : List (Nat × Byte × Byte)) (s : State) : (pushStore cls va bs s).dev.mem = s.dev.mem := rfl

end Sys2Proof.Machine
end

