-- ==== Sys2Proof/Laws/Memory.lean ====
section
/-! SUPPORT. Laws of memory: reading a byte after writes, what performing a store changes, and that every memory operation keeps the
canonical form. -/

namespace Sys2Proof.Machine

set_option Elab.async false

@[simp] theorem homeKey_writeByte_none (d : Device) (k : Nat) (b : Byte) (h : d.retire = []) (j : Nat) :
    homeKey (writeByte d k b) j = j := by simp [homeKey, writeByte, h]

theorem homeKey_none {d : Device} (h : d.retire = []) (k : Nat) : homeKey d k = k := by simp [homeKey, h]

theorem writeByte_retire_none {d : Device} (h : d.retire = []) (k : Nat) (b : Byte) : (writeByte d k b).retire = [] := by
  simp [writeByte, h]

/-- A byte read after a write, where no frame is retired. -/
theorem readByte_writeByte {d : Device} (h : d.retire = []) (k j : Nat) (b : Byte) :
    readByte (writeByte d k b) j = if j = k then b else readByte d j := by
  unfold readByte
  rw [homeKey_writeByte_none d k b h j, homeKey_none h j]
  unfold writeByte
  simp only [homeKey_none h k, SMap.get_set]

/-- A write keeps the canonical form of memory. -/
theorem wf_writeByte (d : Device) (k : Nat) (b : Byte) (h : Memory.wf d.mem = true) : Memory.wf (writeByte d k b).mem = true :=
  SMap.wf_set _ _ _ _ h

theorem wf_writeBytes (d : Device) (k : Nat) (l : List Byte) (h : Memory.wf d.mem = true) : Memory.wf (writeBytes d k l).mem = true := by
  induction l generalizing d k with
  | nil => exact h
  | cons b r ih => exact ih _ _ (wf_writeByte d k b h)

theorem wf_applyBytes (d : Device) (l : List (Nat × Byte × Byte)) (h : Memory.wf d.mem = true) : Memory.wf (applyBytes d l).mem = true := by
  unfold applyBytes
  induction l generalizing d with
  | nil => exact h
  | cons p r ih => exact ih _ (wf_writeByte d _ _ h)

/-- What a list of masked bytes with distinct locations leaves. -/
theorem readByte_applyBytes {l : List (Nat × Byte × Byte)} (hn : (l.map (·.1)).Nodup) {d : Device} (h : d.retire = []) :
    (applyBytes d l).retire = [] ∧
    (∀ b ∈ l, readByte (applyBytes d l) b.1 = (readByte d b.1 &&& ~~~b.2.1) ||| (b.2.2 &&& b.2.1)) ∧
    (∀ k, k ∉ l.map (·.1) → readByte (applyBytes d l) k = readByte d k) := by
  unfold applyBytes
  induction l generalizing d with
  | nil => exact ⟨h, (fun b hb => by cases hb), fun k _ => rfl⟩
  | cons p r ih =>
    simp only [List.map_cons, List.nodup_cons] at hn
    rw [List.foldl_cons]
    obtain ⟨h1, h2, h3⟩ := ih hn.2 (writeByte_retire_none h p.1 ((readByte d p.1 &&& ~~~p.2.1) ||| (p.2.2 &&& p.2.1)))
    refine ⟨h1, ?_, ?_⟩
    · intro b hb
      rcases List.mem_cons.mp hb with rfl | hb
      · rw [h3 _ hn.1, readByte_writeByte h, if_pos rfl]
      · have hne : b.1 ≠ p.1 := fun e => hn.1 (e ▸ List.mem_map_of_mem hb)
        rw [h2 b hb, readByte_writeByte h, if_neg hne]
    · intro k hk
      simp only [List.map_cons, List.mem_cons, not_or] at hk
      rw [h3 k hk.2, readByte_writeByte h, if_neg hk.1]

theorem clearPoison_mem (d : Device) (l : List Nat) : (clearPoison d l).mem = d.mem ∧ (clearPoison d l).retire = d.retire
    ∧ (clearPoison d l).mwatch = d.mwatch ∧ (clearPoison d l).dbg = d.dbg := by
  unfold clearPoison
  split
  · exact ⟨rfl, rfl, rfl, rfl⟩
  · generalize hc : (fun (d : Device) (k : Nat) => if k % poisonSize k = 0 ∧ (upFrom k (poisonSize k)).all (fun j => l.contains j) then
      { d with poison := SMap.set false d.poison (poisonUnit d k) false } else d) = f
    have hf : ∀ d k, (f d k).mem = d.mem ∧ (f d k).retire = d.retire ∧ (f d k).mwatch = d.mwatch ∧ (f d k).dbg = d.dbg := by
      intro d k; rw [← hc]; dsimp only; split <;> exact ⟨rfl, rfl, rfl, rfl⟩
    clear hc
    rename_i hp
    clear hp
    generalize l = l'
    induction l' generalizing d with
    | nil => exact ⟨rfl, rfl, rfl, rfl⟩
    | cons k r ih =>
      rw [List.foldl_cons]
      obtain ⟨h1, h2, h3, h4⟩ := ih (f d k)
      obtain ⟨g1, g2, g3, g4⟩ := hf d k
      exact ⟨h1.trans g1, h2.trans g2, h3.trans g3, h4.trans g4⟩

theorem readByte_clearPoison (d : Device) (l : List Nat) (k : Nat) : readByte (clearPoison d l) k = readByte d k := by
  obtain ⟨h1, h2, _⟩ := clearPoison_mem d l
  simp [readByte, homeKey, h1, h2]

theorem postWatches_nil (n : Nat) (d : Device) : postWatches n [] d = d := by cases n <;> rfl

/-- Without memory watches a write at the homes is its bytes and the marks it clears. -/
theorem performHome_quiet {wr : Writer} {op : Nat} {bs : List (Nat × Byte × Byte)} {d : Device}
    (h : (applyBytes (clearPoison d ((bs.filter (fun p => p.2.1 = 0xFF)).map (·.1))) bs).mwatch = []) :
    performHome wr op bs d = applyBytes (clearPoison d ((bs.filter (fun p => p.2.1 = 0xFF)).map (·.1))) bs := by
  have e : performLines wr op bs d = (applyBytes (clearPoison d ((bs.filter (fun p => p.2.1 = 0xFF)).map (·.1))) bs, []) := by
    unfold performLines
    dsimp only
    rw [h]
    rfl
  unfold performHome
  rw [e]
  exact postWatches_nil _ _

/-- What performing masked bytes with distinct locations leaves, where no frame is retired and no memory watch is set. -/
theorem readByte_performBytes {wr : Writer} {acct op : Nat} {l : List (Nat × Byte × Byte)} (hn : (l.map (·.1)).Nodup) {d : Device}
    (h : d.retire = []) (hw : d.mwatch = []) :
    (∀ b ∈ l, readByte (performBytes wr acct op l d) b.1 = (readByte d b.1 &&& ~~~b.2.1) ||| (b.2.2 &&& b.2.1)) ∧
    (∀ k, k ∉ l.map (·.1) → readByte (performBytes wr acct op l d) k = readByte d k) := by
  have key : ∀ e : Device, e.retire = [] → e.mwatch = [] → (∀ k, readByte e k = readByte d k) →
      (∀ b ∈ l, readByte (performHome wr op l e) b.1 = (readByte d b.1 &&& ~~~b.2.1) ||| (b.2.2 &&& b.2.1)) ∧
      (∀ k, k ∉ l.map (·.1) → readByte (performHome wr op l e) k = readByte d k) := by
    intro e he hwe hr
    generalize hk : (l.filter (fun p => p.2.1 = 0xFF)).map (·.1) = keys
    have hc := clearPoison_mem e keys
    have ha := readByte_applyBytes hn (d := clearPoison e keys) (hc.2.1.trans he)
    have hm : (applyBytes (clearPoison e keys) l).mwatch = [] := by
      rw [← hwe, ← hc.2.2.1]
      unfold applyBytes
      generalize clearPoison e keys = g
      clear ha hc hk hn hr
      induction l generalizing g with
      | nil => rfl
      | cons p r ih => rw [List.foldl_cons, ih]; rfl
    have hq : performHome wr op l e = applyBytes (clearPoison e keys) l := by
      subst hk
      exact performHome_quiet hm
    rw [hq]
    exact ⟨fun b hb => by rw [ha.2.1 b hb, readByte_clearPoison, hr], fun k hk => by rw [ha.2.2 k hk, readByte_clearPoison, hr]⟩
  unfold performBytes
  apply key
  · split <;> (try split) <;> exact h
  · split <;> (try split) <;> exact hw
  · intro k; split <;> (try split) <;> rfl

end Sys2Proof.Machine
end

