-- ==== Sys2Proof/Laws/Vector.lean ====
section
/-! SUPPORT. Laws of vector words: bits of a register read after a write, elements of a group read after a write, and a sweep that no
element ends. -/

namespace Sys2Proof.Machine

set_option Elab.async false

/-! ## Bits -/

theorem bits_lt (n lo len : Nat) : bits n lo len < 2 ^ len := Nat.mod_lt _ (by positivity)

theorem testBit_bits (n lo len i : Nat) : (bits n lo len).testBit i = (decide (i < len) && n.testBit (lo + i)) := by
  simp [bits, Nat.testBit_mod_two_pow, Nat.testBit_shiftRight]

/-- A number as what lies below, in and above a field. -/
theorem split_field (n lo len : Nat) : n = n % 2 ^ lo + 2 ^ lo * bits n lo len + 2 ^ (lo + len) * (n / 2 ^ (lo + len)) := by
  have h1 := Nat.mod_add_div n (2 ^ lo)
  have h2 := Nat.mod_add_div (n / 2 ^ lo) (2 ^ len)
  have h3 : n / 2 ^ lo / 2 ^ len = n / 2 ^ (lo + len) := by rw [Nat.div_div_eq_div_mul, pow_add]
  have h4 : bits n lo len = n / 2 ^ lo % 2 ^ len := by rw [bits, Nat.shiftRight_eq_div_pow]
  rw [h4]
  calc n = n % 2 ^ lo + 2 ^ lo * (n / 2 ^ lo) := h1.symm
    _ = n % 2 ^ lo + 2 ^ lo * (n / 2 ^ lo % 2 ^ len + 2 ^ len * (n / 2 ^ lo / 2 ^ len)) := by rw [h2]
    _ = _ := by rw [h3, pow_add]; ring

theorem setBits_eq (n lo len v : Nat) : setBits n lo len v = n % 2 ^ lo + 2 ^ lo * (v % 2 ^ len) + 2 ^ (lo + len) * (n / 2 ^ (lo + len)) := by
  have h := split_field n lo len
  have e1 : bits n lo len <<< lo = 2 ^ lo * bits n lo len := by rw [Nat.shiftLeft_eq, Nat.mul_comm]
  have e2 : (v % 2 ^ len) <<< lo = 2 ^ lo * (v % 2 ^ len) := by rw [Nat.shiftLeft_eq, Nat.mul_comm]
  unfold setBits
  rw [e1, e2]
  generalize 2 ^ lo * bits n lo len = x at *
  generalize 2 ^ lo * (v % 2 ^ len) = y at *
  omega

theorem setBits_lt {n lo len v w : Nat} (hn : n < 2 ^ w) (h : lo + len ≤ w) : setBits n lo len v < 2 ^ w := by
  rw [setBits_eq]
  have h1 : n % 2 ^ lo < 2 ^ lo := Nat.mod_lt _ (by positivity)
  have h2 : v % 2 ^ len < 2 ^ len := Nat.mod_lt _ (by positivity)
  have h3 : n / 2 ^ (lo + len) < 2 ^ (w - (lo + len)) := by
    rw [Nat.div_lt_iff_lt_mul (by positivity), ← pow_add]
    rwa [Nat.sub_add_cancel h]
  have h4 : n % 2 ^ lo + 2 ^ lo * (v % 2 ^ len) < 2 ^ (lo + len) := by
    rw [pow_add]
    calc n % 2 ^ lo + 2 ^ lo * (v % 2 ^ len) < 2 ^ lo + 2 ^ lo * (v % 2 ^ len) := by omega
      _ = 2 ^ lo * (v % 2 ^ len + 1) := by ring
      _ ≤ 2 ^ lo * 2 ^ len := Nat.mul_le_mul_left _ h2
  have h5 : 2 ^ w = 2 ^ (lo + len) * 2 ^ (w - (lo + len)) := by rw [← pow_add, Nat.add_sub_cancel' h]
  rw [h5]
  calc _ < 2 ^ (lo + len) + 2 ^ (lo + len) * (n / 2 ^ (lo + len)) := by omega
    _ = 2 ^ (lo + len) * (n / 2 ^ (lo + len) + 1) := by ring
    _ ≤ _ := Nat.mul_le_mul_left _ h3

theorem setBits_div (n lo len v : Nat) : setBits n lo len v / 2 ^ lo = v % 2 ^ len + 2 ^ len * (n / 2 ^ (lo + len)) := by
  rw [setBits_eq, show n % 2 ^ lo + 2 ^ lo * (v % 2 ^ len) + 2 ^ (lo + len) * (n / 2 ^ (lo + len))
    = n % 2 ^ lo + 2 ^ lo * (v % 2 ^ len + 2 ^ len * (n / 2 ^ (lo + len))) by rw [pow_add]; ring]
  rw [Nat.add_mul_div_left _ _ (by positivity), Nat.div_eq_of_lt (Nat.mod_lt _ (by positivity)), Nat.zero_add]

/-- The field written. -/
theorem bits_setBits_same (n lo len v : Nat) : bits (setBits n lo len v) lo len = v % 2 ^ len := by
  rw [bits, Nat.shiftRight_eq_div_pow, setBits_div, Nat.add_mul_mod_self_left, Nat.mod_mod]

/-- A field beside the one written. -/
theorem bits_setBits_apart (n lo len v l k : Nat) (h : l + k ≤ lo ∨ lo + len ≤ l) : bits (setBits n lo len v) l k = bits n l k := by
  rw [bits, bits, Nat.shiftRight_eq_div_pow, Nat.shiftRight_eq_div_pow]
  rcases h with h | h
  · have e : setBits n lo len v % 2 ^ lo = n % 2 ^ lo := by
      rw [setBits_eq, show n % 2 ^ lo + 2 ^ lo * (v % 2 ^ len) + 2 ^ (lo + len) * (n / 2 ^ (lo + len))
        = n % 2 ^ lo + 2 ^ lo * (v % 2 ^ len + 2 ^ len * (n / 2 ^ (lo + len))) by rw [pow_add]; ring,
        Nat.add_mul_mod_self_left, Nat.mod_mod]
    have g : ∀ x : Nat, x / 2 ^ l % 2 ^ k = x % 2 ^ lo / 2 ^ l % 2 ^ k := by
      intro x
      apply Nat.eq_of_testBit_eq
      intro i
      simp only [Nat.testBit_mod_two_pow, Nat.testBit_div_two_pow]
      by_cases hi : i < k
      · have : i + l < lo := by omega
        simp [hi, this]
      · simp [hi]
    rw [g, e, ← g]
  · have e : setBits n lo len v / 2 ^ l = n / 2 ^ l := by
      obtain ⟨q, rfl⟩ := Nat.exists_eq_add_of_le h
      have cut : ∀ x : Nat, x / 2 ^ (lo + len + q) = x / 2 ^ lo / 2 ^ len / 2 ^ q := by
        intro x; rw [Nat.div_div_eq_div_mul, Nat.div_div_eq_div_mul, ← pow_add, ← pow_add, ← add_assoc]
      rw [cut, cut, setBits_div, Nat.add_mul_div_left _ _ (by positivity), Nat.div_eq_of_lt (Nat.mod_lt _ (by positivity)), Nat.zero_add,
        pow_add, ← Nat.div_div_eq_div_mul]
    rw [e]

theorem elemOf_setBits_same (r ew i v : Nat) : elemOf (setBits r (ew * i) ew v) ew i = v % 2 ^ ew := bits_setBits_same _ _ _ _

theorem elemOf_setBits_ne (r ew i j v : Nat) (h : j ≠ i) : elemOf (setBits r (ew * i) ew v) ew j = elemOf r ew j := by
  apply bits_setBits_apart
  rcases lt_or_gt_of_ne h with h | h
  · left
    calc ew * j + ew = ew * (j + 1) := by ring
      _ ≤ ew * i := Nat.mul_le_mul_left _ h
  · right
    calc ew * i + ew = ew * (i + 1) := by ring
      _ ≤ ew * j := Nat.mul_le_mul_left _ h

/-! ## Registers and elements -/

theorem mendBits_whole {s : State} (h : s.thr.hid.damaged = []) (c n lo len : Nat) : mendBits c n lo len s = s := by
  simp [mendBits, h]

theorem noPortV {s : State} {n : Nat} (h : NoPort s [n]) : (isTrio s && decide (28 ≤ n)) = false := by
  rcases h with h | h
  · simp [h]
  · have := h n (List.mem_singleton.mpr rfl); simp; omega

theorem rv_plain {s : State} {n : Nat} (h : NoPort s [n]) : rv s n = SMap.get 0 s.thr.v n := by
  unfold rv; rw [noPortV h]; simp

theorem wv_plain {s : State} {n : Nat} {v : VReg} {top : Nat} (h : NoPort s [n]) :
    wv n v top s = raiseUnits n top { s with thr.v := SMap.set 0 s.thr.v n v } := by
  unfold wv; rw [noPortV h]; simp

/-- Only vector registers and their tags differ. -/
def VFrame (s t : State) : Prop := t = { s with thr.v := t.thr.v, thr.hid.units := t.thr.hid.units }

theorem VFrame.refl (s : State) : VFrame s s := rfl

theorem VFrame.trans {s t u : State} (h : VFrame s t) (k : VFrame t u) : VFrame s u := by
  unfold VFrame at *
  rw [k, h]

/-- The write of an element, where no place is damaged and no port is named. -/
theorem setElemV_plain {s : State} {base ew i val : Nat} (hd : s.thr.hid.damaged = []) (h0 : perReg (vmN s) ew ≠ 0)
    (hp : NoPort s [base + i / perReg (vmN s) ew]) :
    setElemV base ew i val s = raiseUnits (base + i / perReg (vmN s) ew) (ceilDiv (ew * (i % perReg (vmN s) ew + 1)) 8)
      { s with thr.v := (SMap.set 0 s.thr.v (base + i / perReg (vmN s) ew)
        (BitVec.ofNat 16384 (setBits (rv s (base + i / perReg (vmN s) ew)).toNat (ew * (i % perReg (vmN s) ew)) ew val))) } := by
  unfold setElemV
  dsimp only
  rw [if_neg h0, wv_plain hp]
  exact mendBits_whole (by exact hd) _ _ _ _

theorem setElemV_none {s : State} {base ew i val : Nat} (h0 : perReg (vmN s) ew = 0) : setElemV base ew i val s = s := by
  unfold setElemV; dsimp only; rw [if_pos h0]

theorem setElemV_frame {s : State} {base ew i val : Nat} (hd : s.thr.hid.damaged = [])
    (hp : NoPort s [base + i / perReg (vmN s) ew]) : VFrame s (setElemV base ew i val s) := by
  by_cases h0 : perReg (vmN s) ew = 0
  · rw [setElemV_none h0]; rfl
  · rw [setElemV_plain hd h0 hp]; rfl

theorem rv_setElemV_ne {s : State} {base ew i val r : Nat} (hd : s.thr.hid.damaged = [])
    (hp : NoPort s [base + i / perReg (vmN s) ew]) (hr : r ≠ base + i / perReg (vmN s) ew) :
    rv (setElemV base ew i val s) r = rv s r := by
  by_cases h0 : perReg (vmN s) ew = 0
  · rw [setElemV_none h0]
  · rw [setElemV_plain hd h0 hp]
    unfold rv raiseUnits isTrio ring
    simp only [SMap.get_set_ne _ _ _ _ _ hr]

theorem rv_setElemV_same {s : State} {base ew i val : Nat} (hd : s.thr.hid.damaged = []) (h0 : perReg (vmN s) ew ≠ 0)
    (hp : NoPort s [base + i / perReg (vmN s) ew]) :
    rv (setElemV base ew i val s) (base + i / perReg (vmN s) ew)
      = BitVec.ofNat 16384 (setBits (rv s (base + i / perReg (vmN s) ew)).toNat (ew * (i % perReg (vmN s) ew)) ew val) := by
  rw [setElemV_plain hd h0 hp]
  have hp' : NoPort (raiseUnits (base + i / perReg (vmN s) ew) (ceilDiv (ew * (i % perReg (vmN s) ew + 1)) 8)
      { s with thr.v := SMap.set 0 s.thr.v (base + i / perReg (vmN s) ew) (BitVec.ofNat 16384 (setBits (rv s (base + i / perReg (vmN s) ew)).toNat (ew * (i % perReg (vmN s) ew)) ew val)) })
      [base + i / perReg (vmN s) ew] := noPort_same hp rfl
  rw [rv_plain hp']
  exact SMap.get_set_self _ _ _ _

/-- An element read after an element of the same group has been written. -/
theorem elemV_setElemV {s : State} {base ew i j val : Nat} (hd : s.thr.hid.damaged = []) (hv : vmN s ≤ 16384)
    (h0 : perReg (vmN s) ew ≠ 0) (hp : NoPort s [base + i / perReg (vmN s) ew]) :
    elemV (setElemV base ew i val s) base ew j = if j = i then val % 2 ^ ew else elemV s base ew j := by
  have hf := setElemV_frame (val := val) hd hp
  have hvm : vmN (setElemV base ew i val s) = vmN s := by unfold vmN; rw [hf]
  have hpos : 0 < perReg (vmN s) ew := Nat.pos_of_ne_zero h0
  unfold elemV
  simp only [hvm, if_neg h0]
  by_cases hq : j / perReg (vmN s) ew = i / perReg (vmN s) ew
  · rw [hq, rv_setElemV_same hd h0 hp]
    have hew : ew ≠ 0 := by intro h; apply h0; simp [perReg, h]
    have hlt : (rv s (base + i / perReg (vmN s) ew)).toNat < 2 ^ 16384 := (rv s _).isLt
    have hin : ew * (i % perReg (vmN s) ew) + ew ≤ 16384 := by
      have h1 : i % perReg (vmN s) ew + 1 ≤ perReg (vmN s) ew := Nat.mod_lt _ hpos
      have h2 : ew * perReg (vmN s) ew ≤ vmN s := by simp only [perReg, if_neg hew]; exact Nat.mul_div_le _ _
      calc ew * (i % perReg (vmN s) ew) + ew = ew * (i % perReg (vmN s) ew + 1) := by ring
        _ ≤ ew * perReg (vmN s) ew := Nat.mul_le_mul_left _ h1
        _ ≤ 16384 := h2.trans hv
    rw [BitVec.toNat_ofNat, Nat.mod_eq_of_lt (setBits_lt hlt hin)]
    by_cases hji : j = i
    · rw [if_pos hji, hji, elemOf_setBits_same]
    · rw [if_neg hji]
      apply elemOf_setBits_ne
      intro hm
      apply hji
      rw [← Nat.div_add_mod j (perReg (vmN s) ew), ← Nat.div_add_mod i (perReg (vmN s) ew), hq, hm]
  · have hji : j ≠ i := fun h => hq (by rw [h])
    rw [if_neg hji, rv_setElemV_ne hd hp (by omega)]

/-! ## Sweeps -/

theorem hurtMark_whole {s : State} (h : s.thr.hid.damaged = []) : hurtMark s = none := by unfold hurtMark; rw [h]

theorem hurtAt_whole {s : State} (h : s.thr.hid.damaged = []) (i : Nat) : hurtAt s i = none := by unfold hurtAt; rw [hurtMark_whole h]

theorem clearHurt_whole {s : State} (h : s.thr.hid.damaged = []) : clearHurt s = s := by
  have e : s.thr.hid.damaged.filter (fun d => d.cls != 9) = s.thr.hid.damaged := by rw [h]; rfl
  unfold clearHurt
  rw [e]

/-- One element of a sweep where no place is damaged. -/
theorem sweep_ok {f : Nat → State → El} {n i : Nat} {s t : State} (h : s.thr.hid.damaged = []) (hf : f i s = .ok t) :
    sweep f (n + 1) i s = sweep f n (i + 1) t := by
  rw [sweep, hurtAt_whole h, hf]

/-- The element that traps, where no place is damaged. -/
theorem sweep_trap {f : Nat → State → El} {n i c v g : Nat} {v2 : Option Nat} {s : State} (h : s.thr.hid.damaged = [])
    (hf : f i s = .trap c v v2 g) : sweep f (n + 1) i s = .stop i c v v2 g s := by
  rw [sweep, hurtAt_whole h, hf]
  dsimp only
  rw [clearHurt_whole h]

/-- A sweep that no element ends keeps what every element keeps. -/
theorem sweep_all {f : Nat → State → El} (P : Nat → State → Prop) (hd : ∀ i t, P i t → t.thr.hid.damaged = []) (n lo : Nat) (s : State) (h0 : P lo s)
    (h : ∀ i t, lo ≤ i → i < lo + n → P i t → ∃ u, f i t = .ok u ∧ P (i + 1) u) : ∃ u, sweep f n lo s = .all u ∧ P (lo + n) u := by
  induction n generalizing lo s with
  | zero => exact ⟨s, rfl, h0⟩
  | succ n ih =>
    obtain ⟨u, hu, hp⟩ := h lo s (le_refl _) (by omega) h0
    obtain ⟨t, ht, hq⟩ := ih (lo + 1) u hp (fun i t h1 h2 hpi => h i t (by omega) (by omega) hpi)
    refine ⟨t, ?_, ?_⟩
    · rw [sweep_ok (hd _ _ h0) hu]; exact ht
    · rwa [show lo + (n + 1) = lo + 1 + n by omega]

theorem chargeBeats_frame (n : Nat) (s : State) : (chargeBeats n s).thr = s.thr ∧ (chargeBeats n s).slot = s.slot ∧ (chargeBeats n s).cur = s.cur
    ∧ (chargeBeats n s).dev.dbg = s.dev.dbg ∧ (chargeBeats n s).dev.chk = s.dev.chk ∧ (chargeBeats n s).dev.mem = s.dev.mem := by
  unfold chargeBeats
  dsimp only
  split <;> exact ⟨rfl, rfl, rfl, rfl, rfl, rfl⟩

theorem chargeWord_frame (ew : Nat) (s : State) : (chargeWord ew s).thr = s.thr ∧ (chargeWord ew s).slot = s.slot ∧ (chargeWord ew s).cur = s.cur
    ∧ (chargeWord ew s).dev.dbg = s.dev.dbg ∧ (chargeWord ew s).dev.chk = s.dev.chk ∧ (chargeWord ew s).dev.mem = s.dev.mem := by
  unfold chargeWord
  dsimp only
  split
  · exact ⟨rfl, rfl, rfl, rfl, rfl, rfl⟩
  · exact chargeBeats_frame _ _

theorem course_of {s t : State} (h : t.thr = s.thr) (hs : t.slot = s.slot) (hc : t.cur = s.cur) (hd : t.dev.dbg = s.dev.dbg) : SameCourse s t :=
  ⟨hc, by rw [hs], by rw [h], by rw [h], hd⟩

/-- Charging a word does not change how it ends. -/
theorem chargeWord_course (ew : Nat) (s : State) : SameCourse s (chargeWord ew s) :=
  let h := chargeWord_frame ew s
  course_of h.1 h.2.1 h.2.2.1 h.2.2.2.1

/-! ## Elementwise words -/

theorem w64_or (a b : Nat) : w64 ((a ||| b) % 32) = w64 (a % 32) ||| w64 (b % 32) := by
  apply BitVec.eq_of_toNat_eq
  have h : ∀ x : Nat, x % 32 % 2 ^ 64 = x % 32 := fun x => Nat.mod_eq_of_lt (by omega)
  rw [w64, w64, w64, BitVec.toNat_or, BitVec.toNat_ofNat, BitVec.toNat_ofNat, BitVec.toNat_ofNat, h, h, h]
  exact Nat.or_mod_two_pow (n := 5)

/-- The state of a strip word after its elements below i: those of the group that it writes hold their codes, the rest of the
vector registers is as it was, and the flags are merged. -/
structure Strip (s : State) (F : VecForm) (i : Nat) (t : State) : Prop where
  frame : t = { chargeWord (ewN s) s with
    thr.v := t.thr.v
    thr.hid.units := t.thr.hid.units
    thr.sr.fpflags := s.thr.sr.fpflags ||| w64 (((upFrom (vsN s) (i - vsN s)).foldl (fun m j => if activeAt s F.k.toNat j then m ||| (F.val j).2 else m) 0) % 32) }
  elems : ∀ j, j < groupLen s F.ew F.g →
    (vsN s ≤ j ∧ j < i ∧ activeAt s F.k.toNat j = true → elemV t F.d.toNat F.ew j = (F.val j).1 % 2 ^ F.ew) ∧
    (¬ (vsN s ≤ j ∧ j < i ∧ activeAt s F.k.toNat j = true) → elemV t F.d.toNat F.ew j = elemV s F.d.toNat F.ew j)
  rest : ∀ r, r < F.d.toNat ∨ F.d.toNat + F.g ≤ r → rv t r = rv s r

theorem upFrom_succ (lo n : Nat) : upFrom lo (n + 1) = upFrom lo n ++ [lo + n] := by
  induction n generalizing lo with
  | zero => rfl
  | succ n ih =>
    rw [upFrom, ih (lo + 1), upFrom, List.cons_append, show lo + 1 + n = lo + (n + 1) by omega]

theorem mem_upFrom {lo n i : Nat} : i ∈ upFrom lo n ↔ lo ≤ i ∧ i < lo + n := by
  induction n generalizing lo with
  | zero => simp [upFrom]
  | succ n ih => rw [upFrom, List.mem_cons, ih]; omega

theorem foldl_upFrom {α : Type} (f : α → Nat → α) (a : α) (lo n : Nat) :
    (upFrom lo (n + 1)).foldl f a = f ((upFrom lo n).foldl f a) (lo + n) := by
  rw [upFrom_succ, List.foldl_append]; rfl

theorem rv_frame {s t : State} (hv : t.thr.v = s.thr.v) (hc : t.slot = s.slot) (hr : t.cur = s.cur) (n : Nat) : rv t n = rv s n := by
  unfold rv isTrio ring; rw [hv, hc, hr]

theorem elemV_frame {s t : State} (hv : t.thr.v = s.thr.v) (hc : t.slot = s.slot) (hr : t.cur = s.cur) (hm : vmN t = vmN s) (b ew i : Nat) :
    elemV t b ew i = elemV s b ew i := by
  unfold elemV; simp only [hm, rv_frame hv hc hr]

theorem perReg_pos {s : State} {ew g j : Nat} (h : j < groupLen s ew g) : perReg (vmN s) ew ≠ 0 := by
  intro h0; simp [groupLen, h0] at h

theorem div_lt_group {s : State} {ew g j : Nat} (h : j < groupLen s ew g) : j / perReg (vmN s) ew < g := by
  rw [Nat.div_lt_iff_lt_mul (Nat.pos_of_ne_zero (perReg_pos h)), Nat.mul_comm]; exact h

theorem noPort_group {s : State} {d g q : Nat} (h : GroupOk s (d, g)) (hq : q < g) : NoPort s [d + q] := by
  by_cases ht : isTrio s = true
  · right
    have := h.2
    rw [if_pos ht] at this
    intro r hr
    rw [List.mem_singleton] at hr
    simp only at this
    omega
  · left; simpa using ht

theorem strip_step {s t : State} {F : VecForm} {i : Nat} (h : VectorOk s) (hfit : vlN s ≤ groupLen s F.ew F.g)
    (hg : GroupOk s (F.d.toNat, F.g)) (hlo : vsN s ≤ i) (hhi : i < vlN s) (ht : Strip s F i t) :
    Strip s F (i + 1) (if activeAt s F.k.toNat i then setElemV F.d.toNat F.ew i (F.val i).1 (mergeFlags (F.val i).2 t) else t) := by
  obtain ⟨d, g, ew, k, vr, xs, ok, own, val⟩ := F
  simp only at *
  have hlen : i < groupLen s ew g := lt_of_lt_of_le hhi hfit
  have hfold : ∀ f : Nat → Nat → Nat, (upFrom (vsN s) (i + 1 - vsN s)).foldl f 0 = f ((upFrom (vsN s) (i - vsN s)).foldl f 0) i := by
    intro f
    rw [show i + 1 - vsN s = (i - vsN s) + 1 by omega, foldl_upFrom, show vsN s + (i - vsN s) = i by omega]
  obtain ⟨hch, hcs, hcc, _⟩ := chargeWord_frame (ewN s) s
  have tvm : vmN t = vmN s := by unfold vmN; rw [ht.frame]; simp [hch]
  have tdm : t.thr.hid.damaged = [] := by rw [ht.frame]; simp [hch, h.calm.whole]
  have tsl : t.slot = s.slot := by rw [ht.frame]; exact hcs
  by_cases ha : activeAt s k.toNat i = true
  · rw [if_pos ha]
    let u := mergeFlags (val i).2 t
    have uvm : vmN u = vmN s := tvm
    have udm : u.thr.hid.damaged = [] := tdm
    have hpu : NoPort u [d.toNat + i / perReg (vmN u) ew] := by
      rw [uvm]; exact noPort_same (noPort_group hg (div_lt_group hlen)) (by show t.slot.cfg = _; rw [tsl])
    have hf := setElemV_frame (val := (val i).1) udm hpu
    refine ⟨?_, ?_, ?_⟩
    · rw [hf]
      simp only [hfold, if_pos ha, w64_or, ← BitVec.or_assoc]
      generalize (setElemV d.toNat ew i (val i).1 u).thr.v = V
      generalize (setElemV d.toNat ew i (val i).1 u).thr.hid.units = U
      exact congrArg (fun q : State => ({ mergeFlags (val i).2 q with thr.v := V, thr.hid.units := U } : State)) ht.frame
    · intro j hj
      have he := elemV_setElemV (j := j) (val := (val i).1) udm (uvm ▸ h.vmax) (by rw [uvm]; exact perReg_pos hlen) hpu
      rw [he]
      have hu : elemV u d.toNat ew j = elemV t d.toNat ew j := rfl
      by_cases hji : j = i
      · subst hji
        refine ⟨fun _ => by rw [if_pos rfl], fun hn => absurd ⟨hlo, by omega, ha⟩ hn⟩
      · rw [if_neg hji, hu]
        refine ⟨fun hw => (ht.elems j hj).1 ⟨hw.1, by omega, hw.2.2⟩, fun hn => (ht.elems j hj).2 (fun hw => hn ⟨hw.1, by omega, hw.2.2⟩)⟩
    · intro r hr
      have hq : i / perReg (vmN u) ew < g := by rw [uvm]; exact div_lt_group hlen
      have hne : r ≠ d.toNat + i / perReg (vmN u) ew := by
        intro e; rw [e] at hr; rcases hr with hr | hr
        · exact absurd hr (by simp)
        · exact absurd hq (by simpa using hr)
      rw [rv_setElemV_ne udm hpu hne]
      exact ht.rest r hr
  · rw [if_neg ha]
    refine ⟨?_, ?_, ht.rest⟩
    · simp only [hfold, if_neg ha]; exact ht.frame
    · intro j hj
      refine ⟨fun hw => (ht.elems j hj).1 ⟨hw.1, ?_, hw.2.2⟩, fun hn => (ht.elems j hj).2 (fun hw => hn ⟨hw.1, by omega, hw.2.2⟩)⟩
      rcases Nat.lt_or_ge j i with hji | hji
      · exact hji
      · have : j = i := by omega
        subst this; exact absurd hw.2.2 ha

theorem strip_whole {s t : State} {F : VecForm} {i : Nat} (h : VectorOk s) (ht : Strip s F i t) : t.thr.hid.damaged = [] := by
  rw [ht.frame]; simp [(chargeWord_frame (ewN s) s).1, h.calm.whole]

theorem strip_start (s : State) (F : VecForm) : Strip s F (vsN s) (chargeWord (ewN s) s) := by
  obtain ⟨hch, hcs, hcc, _⟩ := chargeWord_frame (ewN s) s
  refine ⟨?_, ?_, ?_⟩
  · simp only [Nat.sub_self, upFrom, List.foldl_nil, Nat.zero_mod]
    have : s.thr.sr.fpflags ||| w64 0 = (chargeWord (ewN s) s).thr.sr.fpflags := by rw [hch]; simp [w64]
    rw [this]
  · intro j _
    refine ⟨fun h => by omega, fun _ => elemV_frame (congrArg Thread.v hch) hcs hcc (congrArg (fun t => t.sr.vlmax.toNat) hch) _ _ _⟩
  · intro r _
    exact rv_frame (congrArg Thread.v hch) hcs hcc r

/-- A strip word whose elements all go through: its end state and what it holds. -/
theorem strip_done {s : State} {F : VecForm} {f : Nat → State → El} (h : VectorOk s) (hfit : vlN s ≤ groupLen s F.ew F.g)
    (hg : GroupOk s (F.d.toNat, F.g))
    (hf : ∀ i t, vsN s ≤ i → i < vlN s → Strip s F i t →
      f i t = .ok (if activeAt s F.k.toNat i then setElemV F.d.toNat F.ew i (F.val i).1 (mergeFlags (F.val i).2 t) else t)) :
    ∃ t, stripWord (ewN s) f s = .done { t with thr.sr.vstart := 0 } ∧ Strip s F (max (vsN s) (vlN s)) t := by
  obtain ⟨t, ht, hp⟩ := sweep_all (f := f) (Strip s F) (fun _ _ => strip_whole h) (vlN s - vsN s) (vsN s) (chargeWord (ewN s) s) (strip_start s F)
    (fun i t h1 h2 hi => ⟨_, hf i t h1 (by omega) hi, strip_step h hfit hg h1 (by omega) hi⟩)
  refine ⟨t, ?_, ?_⟩
  · unfold stripWord; rw [ht]; rfl
  · rwa [show max (vsN s) (vlN s) = vsN s + (vlN s - vsN s) by omega]

/-- A strip word stopped by a trap of one of its elements: the elements before it went through. -/
theorem strip_stop {s : State} {F : VecForm} {f : Nat → State → El} {e c v h : Nat} {v2 : Option Nat} (hv : VectorOk s)
    (hfit : vlN s ≤ groupLen s F.ew F.g) (hg : GroupOk s (F.d.toNat, F.g)) (hlo : vsN s ≤ e) (hhi : e < vlN s)
    (hf : ∀ i t, vsN s ≤ i → i < e → Strip s F i t →
      f i t = .ok (if activeAt s F.k.toNat i then setElemV F.d.toNat F.ew i (F.val i).1 (mergeFlags (F.val i).2 t) else t))
    (he : ∀ t, Strip s F e t → f e t = .trap c v v2 h) :
    ∃ t, stripWord (ewN s) f s = .trap c (w64 v) (w64 (v2.getD e)) (setHits h { t with thr.sr.vstart := w64 e }) ∧ Strip s F e t := by
  obtain ⟨t, ht, hp⟩ := sweep_all (f := f) (Strip s F) (fun _ _ => strip_whole hv) (e - vsN s) (vsN s) (chargeWord (ewN s) s) (strip_start s F)
    (fun i t h1 h2 hi => ⟨_, hf i t h1 (by omega) hi, strip_step hv hfit hg h1 (by omega) hi⟩)
  rw [show vsN s + (e - vsN s) = e by omega] at hp
  refine ⟨t, ?_, hp⟩
  have cut : ∀ (n m lo : Nat) (a b : State), sweep f n lo a = .all b → sweep f (n + m) lo a = sweep f m (lo + n) b := by
    intro n
    induction n with
    | zero => intro m lo a b h; simp only [sweep, Swept.all.injEq] at h; rw [Nat.zero_add, h]; rfl
    | succ n ih =>
      intro m lo a b h
      rw [show n + 1 + m = (n + m) + 1 by omega]
      simp only [sweep] at h ⊢
      cases hh : hurtAt a lo with
      | none =>
        cases hfl : f lo a with
        | ok u => rw [hh, hfl] at h; simp only at h ⊢; rw [ih m (lo + 1) u b h, show lo + 1 + n = lo + (n + 1) by omega]
        | wait => rw [hh, hfl] at h; cases h
        | trap => rw [hh, hfl] at h; cases h
      | some p =>
        cases hfl : f lo a with
        | ok u => rw [hh, hfl] at h; cases h
        | wait => rw [hh, hfl] at h; cases h
        | trap => rw [hh, hfl] at h; simp only at h; split at h <;> cases h
  unfold stripWord
  rw [show vlN s - vsN s = (e - vsN s) + (vlN s - e) by omega, cut _ _ _ _ _ ht, show vsN s + (e - vsN s) = e by omega,
    show vlN s - e = (vlN s - e - 1) + 1 by omega, sweep_trap (strip_whole hv hp) (he t hp)]
  rfl

/-! ## Mask words -/

theorem rk_setMaskBit_ne {s : State} {n i r : Nat} {b : Bool} (h : r ≠ n) : rk (setMaskBit n i b s) r = rk s r := by
  unfold setMaskBit wk
  split
  · rfl
  · unfold rk raiseUnits mendBits
    split <;> exact SMap.get_set_ne _ _ _ _ _ h

theorem rk_setMaskBit_same {s : State} {n i : Nat} {b : Bool} (hi : i < 32768) (hn : n ≠ 0) (j : Nat) :
    (rk (setMaskBit n i b s) n).toNat.testBit j = if j = i then b else (rk s n).toNat.testBit j := by
  have e : rk (setMaskBit n i b s) n = BitVec.ofNat 32768 (setBits (rk s n).toNat i 1 (if b then 1 else 0)) := by
    unfold setMaskBit wk
    rw [if_neg hn]
    unfold rk raiseUnits mendBits
    split <;> exact SMap.get_set_self _ _ _ _
  rw [e, BitVec.toNat_ofNat, Nat.mod_eq_of_lt (setBits_lt (rk s n).isLt (by omega))]
  have one : ∀ m l : Nat, m.testBit l = decide (bits m l 1 = 1) := by
    intro m l
    rw [Nat.testBit_eq_decide_div_mod_eq, bits, Nat.shiftRight_eq_div_pow]
    norm_num
  by_cases hj : j = i
  · subst hj
    rw [if_pos rfl, one, bits_setBits_same]
    cases b <;> rfl
  · rw [if_neg hj, one, one (rk s n).toNat, bits_setBits_apart _ _ _ _ _ _ (by omega)]

/-- Only mask registers and their tags differ. -/
def KFrame (s t : State) : Prop := t = { s with thr.k := t.thr.k, thr.hid.units := t.thr.hid.units }

theorem setMaskBit_frame {s : State} {n i : Nat} {b : Bool} (hd : s.thr.hid.damaged = []) : KFrame s (setMaskBit n i b s) := by
  unfold KFrame setMaskBit wk
  split
  · rfl
  · rw [mendBits_whole hd]; rfl

/-- The state of a mask word after its indices below i. -/
structure Mask (s : State) (F : MaskForm) (i : Nat) (t : State) : Prop where
  frame : t = { chargeWord (ewN s) s with
    thr.k := t.thr.k
    thr.hid.units := t.thr.hid.units
    thr.sr.fpflags := s.thr.sr.fpflags ||| w64 (((upFrom (vsN s) (i - vsN s)).foldl (fun m j => m ||| ((F.val j).getD (false, 0)).2) 0) % 32) }
  bits : ∀ j, (rk t F.d.toNat).toNat.testBit j =
    if F.d ≠ 0 ∧ vsN s ≤ j ∧ j < i then ((F.val j).map Prod.fst).getD ((rk s F.d.toNat).toNat.testBit j)
    else (rk s F.d.toNat).toNat.testBit j
  rest : ∀ r, r ≠ F.d.toNat → rk t r = rk s r

theorem mask_step {s t : State} {F : MaskForm} {i : Nat} (h : VectorOk s) (hi : i < 32768) (hlo : vsN s ≤ i) (ht : Mask s F i t) :
    Mask s F (i + 1) (match F.val i with | none => t | some b => setMaskBit F.d.toNat i b.1 (mergeFlags b.2 t)) := by
  obtain ⟨hch, hcs, hcc, _⟩ := chargeWord_frame (ewN s) s
  have tdm : t.thr.hid.damaged = [] := by rw [ht.frame]; simp [hch, h.calm.whole]
  have hfold : ∀ f : Nat → Nat → Nat, (upFrom (vsN s) (i + 1 - vsN s)).foldl f 0 = f ((upFrom (vsN s) (i - vsN s)).foldl f 0) i := by
    intro f
    rw [show i + 1 - vsN s = (i - vsN s) + 1 by omega, foldl_upFrom, show vsN s + (i - vsN s) = i by omega]
  cases hv : F.val i with
  | none =>
    refine ⟨?_, ?_, ht.rest⟩
    · simp only [hfold, hv, Option.getD_none, Nat.or_zero]; exact ht.frame
    · intro j
      rw [ht.bits j]
      by_cases hji : j = i
      · subst hji; simp [hv]
      · have : (F.d ≠ 0 ∧ vsN s ≤ j ∧ j < i + 1) = (F.d ≠ 0 ∧ vsN s ≤ j ∧ j < i) := by simp only [eq_iff_iff]; constructor <;> (rintro ⟨a, b, c⟩; exact ⟨a, b, by omega⟩)
        simp only [this]
  | some b =>
    simp only
    let u := mergeFlags b.2 t
    have udm : u.thr.hid.damaged = [] := tdm
    refine ⟨?_, ?_, ?_⟩
    · have hf := setMaskBit_frame (n := F.d.toNat) (i := i) (b := b.1) udm
      rw [hf]
      simp only [hfold, hv, Option.getD_some, w64_or, ← BitVec.or_assoc]
      generalize (setMaskBit F.d.toNat i b.1 u).thr.k = K
      generalize (setMaskBit F.d.toNat i b.1 u).thr.hid.units = U
      exact congrArg (fun q : State => ({ mergeFlags b.2 q with thr.k := K, thr.hid.units := U } : State)) ht.frame
    · intro j
      by_cases hd0 : F.d = 0
      · have : setMaskBit F.d.toNat i b.1 u = u := by unfold setMaskBit wk; rw [if_pos (by rw [hd0]; rfl)]
        show (rk (setMaskBit F.d.toNat i b.1 u) F.d.toNat).toNat.testBit j = _
        rw [this]
        show (rk t F.d.toNat).toNat.testBit j = _
        rw [ht.bits j]; simp [hd0]
      · have hn : F.d.toNat ≠ 0 := fun e => hd0 (BitVec.eq_of_toNat_eq e)
        show (rk (setMaskBit F.d.toNat i b.1 u) F.d.toNat).toNat.testBit j = _
        rw [rk_setMaskBit_same hi hn]
        by_cases hji : j = i
        · subst hji
          rw [if_pos rfl, if_pos ⟨hd0, hlo, Nat.lt_succ_self _⟩, hv]; rfl
        · rw [if_neg hji]
          show (rk t F.d.toNat).toNat.testBit j = _
          rw [ht.bits j]
          have : (F.d ≠ 0 ∧ vsN s ≤ j ∧ j < i + 1) = (F.d ≠ 0 ∧ vsN s ≤ j ∧ j < i) := by simp only [eq_iff_iff]; constructor <;> (rintro ⟨a, b, c⟩; exact ⟨a, b, by omega⟩)
          simp only [this]
    · intro r hr
      show rk (setMaskBit F.d.toNat i b.1 u) r = _
      rw [rk_setMaskBit_ne hr]
      exact ht.rest r hr

theorem mask_done {s : State} {F : MaskForm} {f : Nat → State → El} (h : VectorOk s) (hl : vlN s ≤ 32768)
    (hf : ∀ i t, vsN s ≤ i → i < vlN s → Mask s F i t →
      f i t = .ok (match F.val i with | none => t | some b => setMaskBit F.d.toNat i b.1 (mergeFlags b.2 t))) :
    ∃ t, stripWord (ewN s) f s = .done { t with thr.sr.vstart := 0 } ∧ Mask s F (max (vsN s) (vlN s)) t := by
  obtain ⟨hch, hcs, hcc, _⟩ := chargeWord_frame (ewN s) s
  have h0 : Mask s F (vsN s) (chargeWord (ewN s) s) := by
    refine ⟨?_, ?_, ?_⟩
    · simp only [Nat.sub_self, upFrom, List.foldl_nil, Nat.zero_mod]
      have : s.thr.sr.fpflags ||| w64 0 = (chargeWord (ewN s) s).thr.sr.fpflags := by rw [hch]; simp [w64]
      rw [this]
    · intro j
      rw [if_neg (by omega)]; unfold rk; rw [hch]
    · intro r _; unfold rk; rw [hch]
  obtain ⟨t, ht, hp⟩ := sweep_all (f := f) (Mask s F) (fun _ _ ht => by rw [ht.frame]; simp [hch, h.calm.whole]) (vlN s - vsN s) (vsN s) (chargeWord (ewN s) s) h0
    (fun i t h1 h2 hi => ⟨_, hf i t h1 (by omega) hi, mask_step h (by omega) h1 hi⟩)
  refine ⟨t, ?_, ?_⟩
  · unfold stripWord; rw [ht]; rfl
  · rwa [show max (vsN s) (vlN s) = vsN s + (vlN s - vsN s) by omega]

/-! ## Reductions and words that place elements -/

theorem chargeReduction_frame (s : State) : (chargeReduction s).thr = s.thr ∧ (chargeReduction s).slot = s.slot ∧ (chargeReduction s).cur = s.cur
    ∧ (chargeReduction s).dev.dbg = s.dev.dbg ∧ (chargeReduction s).dev.chk = s.dev.chk ∧ (chargeReduction s).dev.mem = s.dev.mem := by
  unfold chargeReduction
  dsimp only
  split
  · exact ⟨rfl, rfl, rfl, rfl, rfl, rfl⟩
  · exact chargeBeats_frame _ _

theorem chargeReduction_course (s : State) : SameCourse s (chargeReduction s) :=
  let h := chargeReduction_frame s
  course_of h.1 h.2.1 h.2.2.1 h.2.2.2.1

/-- A word in the replay queue. -/
theorem enqueue_capture {n : Need} {s : State} (h : n.queued = true) : enqueueReplay n s = capture n.word s := by
  unfold enqueueReplay; rw [if_pos h]; rfl

/-- The low bits of a register written. -/
theorem wv_low {s : State} {n ew v top : Nat} (hp : NoPort s [n]) (hw : ew ≤ 16384) :
    let u := wv n (BitVec.ofNat 16384 (setBits (rv s n).toNat 0 ew v)) top s
    u = { s with thr.v := u.thr.v, thr.hid.units := u.thr.hid.units } ∧ (rv u n).toNat % 2 ^ ew = v % 2 ^ ew ∧
      (rv u n).toNat / 2 ^ ew = (rv s n).toNat / 2 ^ ew ∧ ∀ r, r ≠ n → rv u r = rv s r := by
  dsimp only
  rw [wv_plain hp]
  have hsame : rv (raiseUnits n top { s with thr.v := SMap.set 0 s.thr.v n (BitVec.ofNat 16384 (setBits (rv s n).toNat 0 ew v)) }) n
      = BitVec.ofNat 16384 (setBits (rv s n).toNat 0 ew v) := by
    have hp' : NoPort (raiseUnits n top { s with thr.v := SMap.set 0 s.thr.v n (BitVec.ofNat 16384 (setBits (rv s n).toNat 0 ew v)) }) [n] :=
      noPort_same hp rfl
    rw [rv_plain hp']
    exact SMap.get_set_self _ _ _ _
  have hlt : setBits (rv s n).toNat 0 ew v < 2 ^ 16384 := setBits_lt (rv s n).isLt (by omega)
  have heq : setBits (rv s n).toNat 0 ew v = v % 2 ^ ew + 2 ^ ew * ((rv s n).toNat / 2 ^ ew) := by
    rw [setBits_eq]; simp [Nat.mod_one]
  refine ⟨rfl, ?_, ?_, ?_⟩
  · rw [hsame, BitVec.toNat_ofNat, Nat.mod_eq_of_lt hlt, heq, Nat.add_mul_mod_self_left, Nat.mod_mod]
  · rw [hsame, BitVec.toNat_ofNat, Nat.mod_eq_of_lt hlt, heq, Nat.add_mul_div_left _ _ (by positivity),
      Nat.div_eq_of_lt (Nat.mod_lt _ (by positivity)), Nat.zero_add]
  · intro r hr
    unfold rv raiseUnits isTrio ring
    simp only [SMap.get_set_ne _ _ _ _ _ hr]

/-- Elements of one group placed one by one: what the group holds after it. -/
structure Placed (s : State) (d g ew : Nat) (val : Nat → Option Nat) (t : State) : Prop where
  frame : VFrame s t
  elems : ∀ j, j < groupLen s ew g → elemV t d ew j = match val j with | some c => c % 2 ^ ew | none => elemV s d ew j
  rest : ∀ r, r < d ∨ d + g ≤ r → rv t r = rv s r

theorem placed_none (s : State) (d g ew : Nat) : Placed s d g ew (fun _ => none) s := ⟨rfl, fun _ _ => rfl, fun _ _ => rfl⟩

theorem placed_set {s t : State} {d g ew i c : Nat} {val : Nat → Option Nat} (hd : s.thr.hid.damaged = []) (hv : vmN s ≤ 16384)
    (hg : GroupOk s (d, g)) (hi : i < groupLen s ew g) (ht : Placed s d g ew val t) :
    Placed s d g ew (fun j => if j = i then some c else val j) (setElemV d ew i c t) := by
  have tvm : vmN t = vmN s := by unfold vmN; rw [ht.frame]
  have tdm : t.thr.hid.damaged = [] := by rw [ht.frame]; exact hd
  have hp : NoPort t [d + i / perReg (vmN t) ew] := by
    rw [tvm]; exact noPort_same (noPort_group hg (div_lt_group hi)) (by rw [ht.frame])
  refine ⟨ht.frame.trans (setElemV_frame tdm hp), ?_, ?_⟩
  · intro j hj
    rw [elemV_setElemV tdm (tvm ▸ hv) (by rw [tvm]; exact perReg_pos hi) hp]
    by_cases hji : j = i
    · simp [hji]
    · rw [if_neg hji, ht.elems j hj]; simp [hji]
  · intro r hr
    have hq : i / perReg (vmN t) ew < g := by rw [tvm]; exact div_lt_group hi
    have hne : r ≠ d + i / perReg (vmN t) ew := by
      intro e; rw [e] at hr; rcases hr with hr | hr
      · exact absurd hr (by simp)
      · exact absurd hq (by simpa using hr)
    rw [rv_setElemV_ne tdm hp hne]
    exact ht.rest r hr

theorem placed_congr {s t : State} {d g ew : Nat} {val val' : Nat → Option Nat} (h : ∀ j, j < groupLen s ew g → val j = val' j)
    (ht : Placed s d g ew val t) : Placed s d g ew val' t :=
  ⟨ht.frame, fun j hj => by rw [ht.elems j hj, h j hj], ht.rest⟩

/-- A list of codes placed from a position up, those below the first position left out. -/
theorem placed_from {s : State} {d g ew first : Nat} (hd : s.thr.hid.damaged = []) (hv : vmN s ≤ 16384) (hg : GroupOk s (d, g))
    (l : List Nat) (at0 : Nat) (t : State) (val : Nat → Option Nat) (hl : at0 + l.length ≤ groupLen s ew g) (ht : Placed s d g ew val t) :
    Placed s d g ew (fun j => if at0 ≤ j ∧ j < at0 + l.length ∧ first ≤ j then l[j - at0]? else val j) (placeFrom d ew first at0 l t) := by
  induction l generalizing at0 t val with
  | nil => exact placed_congr (fun j _ => by rw [if_neg]; rintro ⟨a, b, _⟩; simp at b; omega) ht
  | cons c r ih =>
    rw [List.length_cons] at hl
    unfold placeFrom
    by_cases hf : first ≤ at0
    · rw [if_pos hf]
      refine placed_congr ?_ (ih (at0 + 1) _ _ (by omega) (placed_set (i := at0) (c := c) hd hv hg (by omega) ht))
      intro j _
      simp only [List.length_cons]
      by_cases h1 : j = at0
      · subst h1
        rw [if_neg (by omega), if_pos rfl, if_pos (by omega)]; simp
      · by_cases h2 : at0 + 1 ≤ j ∧ j < at0 + 1 + r.length ∧ first ≤ j
        · rw [if_pos h2, if_pos (by omega), show j - at0 = (j - (at0 + 1)) + 1 by omega, List.getElem?_cons_succ]
        · rw [if_neg h2, if_neg h1, if_neg (by omega)]
    · rw [if_neg hf]
      refine placed_congr ?_ (ih (at0 + 1) _ _ (by omega) ht)
      intro j _
      simp only [List.length_cons]
      by_cases h2 : at0 + 1 ≤ j ∧ j < at0 + 1 + r.length ∧ first ≤ j
      · rw [if_pos h2, if_pos (by omega), show j - at0 = (j - (at0 + 1)) + 1 by omega, List.getElem?_cons_succ]
      · rw [if_neg h2, if_neg (by omega)]

end Sys2Proof.Machine
end

