-- ==== Sys2Proof/Laws/Grant.lean ====
section
/-! SUPPORT. Laws of loads that a word performs at once, of the grant of a length (R17, R18, R97), and of a jump's target. -/

namespace Sys2Proof.Machine

set_option Elab.async false

/-- An acknowledged read changes the list of requests only. -/
theorem answered_frame (l : List Loc) (s : State) :
    answered l s = { s with dev.fab.reqs := (answered l s).dev.fab.reqs } := by
  unfold answered allAnswered ackReads
  (repeat' split) <;> rfl

/-- An access to this device alone leaves every request. -/
theorem answered_local {l : List Loc} (h : ∀ x ∈ l, x.kind ≠ .remote) (s : State) : answered l s = s := by
  have : l.any (fun x => decide (x.kind = .remote)) = false := by simpa using h
  simp [answered, this]

/-- What a load leaves in the counters keeps the thread's course. -/
theorem afterLoad_same (c : Nat) (l : List Loc) (s : State) : SameCourse s (afterLoad c l s) := by
  rw [afterLoad, answered_frame]
  unfold countLoad
  dsimp only
  (repeat' split) <;> exact ⟨rfl, rfl, rfl, rfl, rfl⟩

theorem target_eq {n : Nat} (pc : Word) (o : BitVec n) : target pc o = pc + 4 * o.signExtend 64 := by
  unfold target simm; rw [BitVec.mul_comm]

theorem noPort_nil (s : State) : NoPort s [] := by right; intro r hr; cases hr

/-- A word that names scalar registers alone is ready where it names no port. -/
theorem plain_ready {s : State} {n : Need} (hr : n.roleOk = true) (hv : n.vt = true → fmtN s ≠ 0) (hf : n.fmtOk = true) (ho : n.regOk = true)
    (hx : NoPort s (n.xr ++ n.xw)) (h1 : n.vr = []) (h2 : n.vw = []) (h3 : n.mr = []) (h4 : n.mw = []) (h5 : n.queued = false) : Ready n s := by
  refine ⟨hr, hv, hf, ho, hx, ?_, ?_, ?_⟩
  · rw [h1, h2]; intro g hg; cases hg
  · rw [h3, h4]; intro g hg; cases hg
  · rw [h5]; intro h; cases h

theorem partVlen_le (p : Nat) : partVlen p ≤ 65536 := by
  have : bits p 0 3 < 2 ^ 3 := bits_lt _ _ _
  have h : 2 ^ bits p 0 3 ≤ 2 ^ 7 := Nat.pow_le_pow_right (by omega) (by omega)
  unfold partVlen; omega

theorem slotVlmax_le (d : Device) (n p : Nat) : slotVlmax d n p ≤ 16384 := by
  unfold slotVlmax hwMaxVl
  have : (if isPruned d (n / 2) = true then 8192 else 16384) ≤ 16384 := by split <;> omega
  omega

theorem roundUp_eq (n b : Nat) (h : 0 < b) : roundUp n b = (n + b - 1) / b * b := by
  unfold roundUp
  rw [if_neg (by omega)]

theorem perReg_fmt (vm f : Nat) : perReg vm (fmtEw f) * g = longestVl vm f g := by
  unfold perReg longestVl
  split <;> simp

/-- R97's length is what the grant takes. -/
theorem grantVl_eq (vm req avl : Nat) :
    grantVl vm req avl = grantedVl vm (vtFmt (BitVec.ofNat 16 req)) (vtGrp (BitVec.ofNat 16 req)) (vtBlk (BitVec.ofNat 16 req)) avl := by
  have e : ∀ lo len, lo + len ≤ 16 → bits (BitVec.ofNat 16 req).toNat lo len = bits req lo len := by
    intro lo len h
    apply Nat.eq_of_testBit_eq; intro i
    rw [testBit_bits, testBit_bits, BitVec.toNat_ofNat, Nat.testBit_mod_two_pow]
    by_cases hi : i < len
    · have : lo + i < 16 := by omega
      simp [this]
    · simp [hi]
  have e7 := e 7 2 (by omega)
  have hr : ∀ b, 0 < b → roundUp avl b = (avl + b - 1) / b * b := fun b h => roundUp_eq _ _ h
  unfold grantVl grantedVl vtFmt vtGrp vtBlk
  rw [e7, e 0 5 (by omega), e 5 2 (by omega)]
  dsimp only
  rw [perReg_fmt]
  have h4 : bits req 7 2 < 2 ^ 2 := bits_lt _ _ _
  have hc : bits req 7 2 = 0 ∨ bits req 7 2 = 1 ∨ bits req 7 2 = 2 ∨ bits req 7 2 = 3 := by omega
  rcases hc with h | h | h | h <;> rw [h] <;> simp only [hr 16 (by omega), hr 32 (by omega), if_true]

theorem grantedVl_le (vm f g b avl : Nat) : grantedVl vm f g b avl ≤ longestVl vm f g := by
  have h1 : longestVl vm f g / b * b ≤ longestVl vm f g := Nat.div_mul_le_self _ _
  unfold grantedVl
  dsimp only
  split
  · split
    · omega
    · split <;> omega
  · split
    · omega
    · split <;> omega

theorem longestVl_lt {vm f : Nat} (h : vm ≤ 16384) (t : BitVec 16) : longestVl vm f (vtGrp t) < 2 ^ 64 := by
  have h1 : bits t.toNat 5 2 < 2 ^ 2 := bits_lt _ _ _
  have h2 : vtGrp t ≤ 2 ^ 3 := Nat.pow_le_pow_right (by omega) (by omega)
  unfold longestVl
  split
  · omega
  · have : vm / fmtEw f ≤ 16384 := le_trans (Nat.div_le_self _ _) h
    calc vm / fmtEw f * vtGrp t ≤ 16384 * 8 := Nat.mul_le_mul this h2
      _ < 2 ^ 64 := by norm_num

theorem w64_toNat {n : Nat} (h : n < 2 ^ 64) : (w64 n).toNat = n := by
  unfold w64; rw [BitVec.toNat_ofNat]; omega

theorem get_absent {n : Nat} (m : SMap (BitVec n)) (r : Nat) (h : ∀ q ∈ m, q.1 ≠ r) : SMap.get 0 m r = 0 := by
  induction m with
  | nil => rfl
  | cons q m ih =>
    rw [SMap.get, if_neg (h q List.mem_cons_self)]
    exact ih (fun q' hq => h q' (List.mem_cons_of_mem _ hq))

theorem get_filter_and {n : Nat} (m : SMap (BitVec n)) (hm : SMap.rising m = true) (c : BitVec n) (r : Nat) :
    SMap.get 0 ((m.map (fun p => (p.1, p.2 &&& c))).filter (fun p => p.2 != 0)) r = SMap.get 0 m r &&& c := by
  induction m with
  | nil => simp [SMap.get]
  | cons p m ih =>
    have hm' := (SMap.rising_cons p m).mp hm
    have ih := ih hm'.2
    simp only [List.map_cons, List.filter_cons]
    by_cases hr : p.1 = r
    · subst hr
      by_cases hz : p.2 &&& c = 0
      · simp only [hz]
        rw [if_neg (by simp), ih]
        have hno : SMap.get 0 m p.1 = 0 := by
          have : ∀ q ∈ m, q.1 ≠ p.1 := fun q hq => by have := hm'.1 q hq; omega
          exact get_absent m p.1 this
        rw [hno, SMap.get, if_pos rfl, hz]; simp
      · rw [if_pos (by simpa using hz), SMap.get, if_pos rfl, SMap.get, if_pos rfl]
    · have e : SMap.get 0 (p :: m) r = SMap.get 0 m r := by rw [SMap.get, if_neg hr]
      rw [e, ← ih]
      split
      · rw [SMap.get, if_neg hr]
      · rfl

/-- The bits of a register below a place kept. -/
theorem get_cut {n k : Nat} (m : SMap (BitVec n)) (hm : SMap.rising m = true) (h : k ≤ n) (r : Nat) :
    (SMap.get 0 ((m.map (fun p => (p.1, p.2 &&& BitVec.ofNat n (2 ^ k - 1)))).filter (fun p => p.2 != 0)) r).toNat
      = (SMap.get 0 m r).toNat % 2 ^ k := by
  rw [get_filter_and _ hm, BitVec.toNat_and, BitVec.toNat_ofNat]
  have : (2 ^ k - 1) % 2 ^ n = 2 ^ k - 1 := by
    apply Nat.mod_eq_of_lt
    have h1 : 2 ^ k ≤ 2 ^ n := Nat.pow_le_pow_right (by decide) h
    exact lt_of_lt_of_le (Nat.sub_lt (Nat.two_pow_pos _) (by decide)) h1
  rw [this, Nat.and_two_pow_sub_one_eq_mod]

/-- One lemma of the grant: everything it can do (R17, R18, R97). -/
theorem grant_granted {s : State} (req avl : Nat) (hd : s.thr.hid.damaged = []) :
    Granted s (BitVec.ofNat 16 req) avl (grant req avl s) := by
  have hle := slotVlmax_le s.dev s.cur.1 s.slot.part.toNat
  have hvm : (w64 (slotVlmax s.dev s.cur.1 s.slot.part.toNat)).toNat = slotVlmax s.dev s.cur.1 s.slot.part.toNat := w64_toNat (by omega)
  have hlen : grantVl (slotVlmax s.dev s.cur.1 s.slot.part.toNat) req avl < 2 ^ 64 := by
    rw [grantVl_eq]; exact lt_of_le_of_lt (grantedVl_le _ _ _ _ _) (longestVl_lt hle _)
  have hmin : ∀ n, n < 2 ^ 64 → min avl n < 2 ^ 64 := fun n h => lt_of_le_of_lt (min_le_right _ _) h
  have hf : fmtN (refreshVlmax s) = fmtN s := by unfold refreshVlmax raiseVlmax; dsimp only [fmtN]; split <;> rfl
  have hm : vmN (refreshVlmax s) = slotVlmax s.dev s.cur.1 s.slot.part.toNat := hvm
  have hz : ∀ t : State, vmN (zeroRegs t) = vmN t := fun t => by unfold zeroRegs; dsimp only; split <;> rfl
  by_cases h0 : fmtN s = 0
  · have e : grant req avl s = { zeroRegs (refreshVlmax s) with
        thr.sr.vl := w64 (grantVl (slotVlmax s.dev s.cur.1 s.slot.part.toNat) req avl), thr.sr.vtype := BitVec.ofNat 16 req
        thr.sr.vlvalid := w64 (min avl (grantVl (slotVlmax s.dev s.cur.1 s.slot.part.toNat) req avl)) } := by
      unfold grant
      simp only [hf, h0, if_true, hz, hm]
    rw [e]
    refine ⟨?_, ?_, ?_, ?_, ?_, fun h => absurd h0 h, fun h => absurd h0 h⟩
    · unfold zeroRegs refreshVlmax raiseVlmax
      by_cases hr : s.cur.2 = 1
      · simp only [hr, if_true]; split <;> simp [hd]
      · simp only [hr, if_false]; split <;> simp [hd]
    · show (w64 (grantVl _ req avl)).toNat = _
      rw [w64_toNat hlen, grantVl_eq]
      exact congrArg (fun v => grantedVl v _ _ _ _) ((hz _).trans hm).symm
    · show (w64 (min avl _)).toNat = min avl (w64 _).toNat
      rw [w64_toNat (hmin _ hlen), w64_toNat hlen]
    · intro _
      refine ⟨fun r => ?_, fun hr => ?_⟩
      · unfold zeroRegs; dsimp only; split <;> exact ⟨rfl, rfl, rfl⟩
      · have : (refreshVlmax s).cur.2 = 1 := hr
        unfold zeroRegs; dsimp only; rw [if_pos this]; exact ⟨fun r => rfl, rfl⟩
    · intro h
      have hr : (refreshVlmax s).cur.2 ≠ 1 := h.resolve_left (fun h => h h0)
      unfold zeroRegs; dsimp only; rw [if_neg hr]; exact ⟨rfl, rfl⟩
  · have e : grant req avl s = { refreshVlmax s with
        thr.sr.vl := w64 (grantVl (slotVlmax s.dev s.cur.1 s.slot.part.toNat) req avl), thr.sr.vtype := BitVec.ofNat 16 req
        thr.sr.vlvalid := w64 (min avl (grantVl (slotVlmax s.dev s.cur.1 s.slot.part.toNat) req avl)) } := by
      unfold grant
      simp only [hf, h0, if_false, hm]
    have hvmu : vmN (grant req avl s) = slotVlmax s.dev s.cur.1 s.slot.part.toNat := by rw [e]; exact hvm
    rw [e] at hvmu ⊢
    refine ⟨?_, ?_, ?_, fun h => absurd h h0, fun _ => ⟨rfl, rfl⟩, ?_, ?_⟩
    · unfold refreshVlmax raiseVlmax
      dsimp only
      split <;> rfl
    · show (w64 (grantVl _ req avl)).toNat = _
      rw [w64_toNat hlen, grantVl_eq]
      exact congrArg (fun v => grantedVl v _ _ _ _) hvmu.symm
    · show (w64 (min avl _)).toNat = min avl (w64 _).toNat
      rw [w64_toNat (hmin _ hlen), w64_toNat hlen]
    · intro _ hle2
      rw [hvmu] at hle2
      unfold refreshVlmax raiseVlmax
      dsimp only
      rw [if_pos hle2]
      exact ⟨rfl, rfl, rfl, rfl⟩
    · intro _ hlt
      rw [hvmu] at hlt
      unfold refreshVlmax raiseVlmax
      dsimp only
      rw [if_neg (by omega)]
      exact ⟨fun h r => get_cut _ h (by omega) r, fun h r => get_cut _ h (by omega) r,
        fun h r => get_cut _ h (by omega) r⟩

/-- A grant keeps the thread's course. -/
theorem granted_course {s u : State} {r : BitVec 16} {a : Nat} (h : Granted s r a u) : SameCourse s u := by
  rw [h.frame]; exact ⟨rfl, rfl, rfl, rfl, rfl⟩

/-- A word's outcome depends on its body at the state it starts in alone. -/
theorem run_body {s : State} {n : Need} {f g : State → Res} (hc : Calm s) (h : Ready n s) (e : f s = g s) : run n s f = run n s g := by
  rw [run_ready hc h, run_ready hc h, e]

theorem ofNat16_bits (req lo len : Nat) (h : lo + len ≤ 16) : bits (BitVec.ofNat 16 req).toNat lo len = bits req lo len := by
    apply Nat.eq_of_testBit_eq; intro i
    rw [testBit_bits, testBit_bits, BitVec.toNat_ofNat, Nat.testBit_mod_two_pow]
    by_cases hi : i < len
    · have : lo + i < 16 := by omega
      simp [this]
    · simp [hi]

/-- The VTYPE of a `vloop` pass: the stream's format, the factor in force (R111). -/
theorem loop_fields (s : State) (st : Stream) : vtFmt (BitVec.ofNat 16 (loopVtype s st)) = dFmt st.desc.toNat % 32 ∧
    vtGrp (BitVec.ofNat 16 (loopVtype s st)) = vtGrp s.thr.sr.vtype := by
  unfold vtFmt vtGrp
  rw [ofNat16_bits _ 0 5 (by omega), ofNat16_bits _ 5 2 (by omega)]
  unfold loopVtype
  dsimp only
  rw [bits_setBits_apart _ 7 2 _ 0 5 (by omega), bits_setBits_same, bits_setBits_apart _ 7 2 _ 5 2 (by omega), bits_setBits_apart _ 0 5 _ 5 2 (by omega)]
  refine ⟨?_, rfl⟩
  simp [bits, dFmt, bfield]

/-- The length a grant gives, against the slot's VLMAX (R97). -/
theorem granted_len {s u : State} {r : BitVec 16} {avl : Nat} (h : Granted s r avl u) :
    vlN u = grantedVl (slotVlmax s.dev s.cur.1 s.slot.part.toNat) (vtFmt u.thr.sr.vtype) (vtGrp u.thr.sr.vtype) (vtBlk u.thr.sr.vtype) avl := by
  have h1 : u.thr.sr.vtype = r := by rw [h.frame]
  have h2 : vmN u = slotVlmax s.dev s.cur.1 s.slot.part.toNat := by
    have := slotVlmax_le s.dev s.cur.1 s.slot.part.toNat
    rw [h.frame]; exact w64_toNat (by omega)
  rw [h1, ← h2]; exact h.vl

/-! ## The strip-mine branch (R100) -/

/-- Only the scalar registers written. -/
def XFrame (s t : State) : Prop := t = { s with thr.x := t.thr.x }

theorem bits_pair (n i : Nat) : bits n (2 * i) 2 = n / 4 ^ i % 4 := by
  unfold bits; rw [Nat.shiftRight_eq_div_pow, pow_mul]; rfl

theorem sbrStep_code (s : State) (k : Nat) (h : k < 4) : sbrStep s k = w64 (if k = 0 then vlN s * ewN s / 8 else vlN s * 2 ^ (k - 1)) := by
  unfold sbrStep
  interval_cases k <;> simp <;> congr 1 <;> omega

/-- The address registers that `sbr` selects, stepped (R100). -/
theorem sbrAdvance_spec (m : BitVec 4) (sc : BitVec 8) (s t0 : State) (h0 : XFrame s t0) (hd : s.thr.hid.damaged = []) (i : Nat) (hi : i ≤ 4) :
    let f := fun t i => if bit m.toNat i then wx (20 + i) (rx t (20 + i) + sbrStep t0 (bits sc.toNat (2 * i) 2)) t else t
    XFrame s ((upFrom 0 i).foldl f t0) ∧ ∀ r, r < 32 → rx ((upFrom 0 i).foldl f t0) r =
      if 20 ≤ r ∧ r < 20 + i ∧ m.toNat.testBit (r - 20) = true then rx t0 r + sbrStep t0 (bits sc.toNat (2 * (r - 20)) 2) else rx t0 r := by
  intro f
  induction i with
  | zero => exact ⟨h0, fun r _ => by rw [if_neg (by omega)]; rfl⟩
  | succ i ih =>
    obtain ⟨h1, h2⟩ := ih (by omega)
    rw [foldl_upFrom, Nat.zero_add]
    generalize ht : (upFrom 0 i).foldl f t0 = t at h1 h2
    by_cases hb : bit m.toNat i = true
    · have hf : f t i = wx (20 + i) (rx t (20 + i) + sbrStep t0 (bits sc.toNat (2 * i) 2)) t := by simp only [f]; rw [if_pos hb]
      have hp : NoPort t [20 + i] := by right; intro r hr; rw [List.mem_singleton] at hr; omega
      have hd' : t.thr.hid.damaged = [] := by rw [h1]; exact hd
      rw [hf]
      refine ⟨?_, fun r hr => ?_⟩
      · rw [wx_plain hp hd' (by omega)]
        unfold XFrame at *
        rw [h1]
      · rw [rx_wx_any hp hd']
        by_cases hr1 : r = 20 + i
        · subst hr1
          have hb' : m.toNat.testBit i = true := hb
          rw [if_neg (by omega), if_pos rfl, if_pos ⟨by omega, by omega, by simpa using hb'⟩, h2 _ hr, if_neg (by omega)]
          simp
        · rw [if_neg hr1]
          by_cases hr0 : r = 0
          · subst hr0; rw [if_pos rfl, if_neg (by omega)]; rfl
          · rw [if_neg hr0, h2 r hr]
            by_cases hc : 20 ≤ r ∧ r < 20 + i ∧ m.toNat.testBit (r - 20) = true
            · rw [if_pos hc, if_pos ⟨hc.1, by omega, hc.2.2⟩]
            · rw [if_neg hc, if_neg (fun h => hc ⟨h.1, by omega, h.2.2⟩)]
    · have hf : f t i = t := by simp only [f]; rw [if_neg hb]
      rw [hf]
      refine ⟨h1, fun r hr => ?_⟩
      rw [h2 r hr]
      by_cases hc : 20 ≤ r ∧ r < 20 + i ∧ m.toNat.testBit (r - 20) = true
      · rw [if_pos hc, if_pos ⟨hc.1, by omega, hc.2.2⟩]
      · rw [if_neg hc, if_neg]
        intro h
        by_cases hr1 : r = 20 + i
        · subst hr1; apply hb; have := h.2.2; simp at this; exact this
        · exact hc ⟨h.1, by omega, h.2.2⟩

end Sys2Proof.Machine
end

