-- ==== Sys2Proof/Laws/PerInstr.lean ====
section
/-! SUPPORT. Per instruction: decoding the word of a well-formed instruction gives the instruction back. -/

namespace Sys2Proof.Laws.RoundTrip

/-- The word of the instruction, if it has one and is well-formed, decodes to the instruction. -/
def Statement (i : Instr) : Prop := i.hasWord = true → i.wf = true → decode (encode i) = .ok i

set_option Elab.async false
set_option linter.unusedSimpArgs false

theorem add (d : BitVec 5) (a : BitVec 5) (b : BitVec 5) : Statement (.add d a b) := by
  intro _ hw
  have hf : fits (encode (.add d a b)) 0xFC0007FF 0x04000000 = true := (fits_iff _ _ _).mpr (by
    simp (disch := decide) only [encode, BitVec.and_or_distrib_right, put_and_apart, BitVec.or_zero]; rfl)
  have hr : decode01 (encode (.add d a b)) = some (.add d a b) := by
    unfold decode01
    rw [if_pos hf]
    simp (disch := decide) only [encode, fld_or, fld_put_same, fld_put_apart, BitVec.or_zero, fld_const_or]
  have hm : (fld (encode (.add d a b)) 26 6).toNat = 1 := by rw [major_of_fits hf (by decide)]; rfl
  exact decode_of_raw (raw01 hm hr) hw

theorem sub (d : BitVec 5) (a : BitVec 5) (b : BitVec 5) : Statement (.sub d a b) := by
  intro _ hw
  have hf : fits (encode (.sub d a b)) 0xFC0007FF 0x04000001 = true := (fits_iff _ _ _).mpr (by
    simp (disch := decide) only [encode, BitVec.and_or_distrib_right, put_and_apart, BitVec.or_zero]; rfl)
  have hr : decode01 (encode (.sub d a b)) = some (.sub d a b) := by
    unfold decode01
    iterate 1 rw [if_neg (fits_other hf _ _ (by decide))]
    rw [if_pos hf]
    simp (disch := decide) only [encode, fld_or, fld_put_same, fld_put_apart, BitVec.or_zero, fld_const_or]
  have hm : (fld (encode (.sub d a b)) 26 6).toNat = 1 := by rw [major_of_fits hf (by decide)]; rfl
  exact decode_of_raw (raw01 hm hr) hw

theorem and (d : BitVec 5) (a : BitVec 5) (b : BitVec 5) : Statement (.and d a b) := by
  intro _ hw
  have hf : fits (encode (.and d a b)) 0xFC0007FF 0x04000002 = true := (fits_iff _ _ _).mpr (by
    simp (disch := decide) only [encode, BitVec.and_or_distrib_right, put_and_apart, BitVec.or_zero]; rfl)
  have hr : decode01 (encode (.and d a b)) = some (.and d a b) := by
    unfold decode01
    iterate 2 rw [if_neg (fits_other hf _ _ (by decide))]
    rw [if_pos hf]
    simp (disch := decide) only [encode, fld_or, fld_put_same, fld_put_apart, BitVec.or_zero, fld_const_or]
  have hm : (fld (encode (.and d a b)) 26 6).toNat = 1 := by rw [major_of_fits hf (by decide)]; rfl
  exact decode_of_raw (raw01 hm hr) hw

theorem or (d : BitVec 5) (a : BitVec 5) (b : BitVec 5) : Statement (.or d a b) := by
  intro _ hw
  have hf : fits (encode (.or d a b)) 0xFC0007FF 0x04000003 = true := (fits_iff _ _ _).mpr (by
    simp (disch := decide) only [encode, BitVec.and_or_distrib_right, put_and_apart, BitVec.or_zero]; rfl)
  have hr : decode01 (encode (.or d a b)) = some (.or d a b) := by
    unfold decode01
    iterate 3 rw [if_neg (fits_other hf _ _ (by decide))]
    rw [if_pos hf]
    simp (disch := decide) only [encode, fld_or, fld_put_same, fld_put_apart, BitVec.or_zero, fld_const_or]
  have hm : (fld (encode (.or d a b)) 26 6).toNat = 1 := by rw [major_of_fits hf (by decide)]; rfl
  exact decode_of_raw (raw01 hm hr) hw

theorem xor (d : BitVec 5) (a : BitVec 5) (b : BitVec 5) : Statement (.xor d a b) := by
  intro _ hw
  have hf : fits (encode (.xor d a b)) 0xFC0007FF 0x04000004 = true := (fits_iff _ _ _).mpr (by
    simp (disch := decide) only [encode, BitVec.and_or_distrib_right, put_and_apart, BitVec.or_zero]; rfl)
  have hr : decode01 (encode (.xor d a b)) = some (.xor d a b) := by
    unfold decode01
    iterate 4 rw [if_neg (fits_other hf _ _ (by decide))]
    rw [if_pos hf]
    simp (disch := decide) only [encode, fld_or, fld_put_same, fld_put_apart, BitVec.or_zero, fld_const_or]
  have hm : (fld (encode (.xor d a b)) 26 6).toNat = 1 := by rw [major_of_fits hf (by decide)]; rfl
  exact decode_of_raw (raw01 hm hr) hw

theorem sll (d : BitVec 5) (a : BitVec 5) (b : BitVec 5) : Statement (.sll d a b) := by
  intro _ hw
  have hf : fits (encode (.sll d a b)) 0xFC0007FF 0x04000005 = true := (fits_iff _ _ _).mpr (by
    simp (disch := decide) only [encode, BitVec.and_or_distrib_right, put_and_apart, BitVec.or_zero]; rfl)
  have hr : decode01 (encode (.sll d a b)) = some (.sll d a b) := by
    unfold decode01
    iterate 5 rw [if_neg (fits_other hf _ _ (by decide))]
    rw [if_pos hf]
    simp (disch := decide) only [encode, fld_or, fld_put_same, fld_put_apart, BitVec.or_zero, fld_const_or]
  have hm : (fld (encode (.sll d a b)) 26 6).toNat = 1 := by rw [major_of_fits hf (by decide)]; rfl
  exact decode_of_raw (raw01 hm hr) hw

theorem srl (d : BitVec 5) (a : BitVec 5) (b : BitVec 5) : Statement (.srl d a b) := by
  intro _ hw
  have hf : fits (encode (.srl d a b)) 0xFC0007FF 0x04000006 = true := (fits_iff _ _ _).mpr (by
    simp (disch := decide) only [encode, BitVec.and_or_distrib_right, put_and_apart, BitVec.or_zero]; rfl)
  have hr : decode01 (encode (.srl d a b)) = some (.srl d a b) := by
    unfold decode01
    iterate 6 rw [if_neg (fits_other hf _ _ (by decide))]
    rw [if_pos hf]
    simp (disch := decide) only [encode, fld_or, fld_put_same, fld_put_apart, BitVec.or_zero, fld_const_or]
  have hm : (fld (encode (.srl d a b)) 26 6).toNat = 1 := by rw [major_of_fits hf (by decide)]; rfl
  exact decode_of_raw (raw01 hm hr) hw

theorem sra (d : BitVec 5) (a : BitVec 5) (b : BitVec 5) : Statement (.sra d a b) := by
  intro _ hw
  have hf : fits (encode (.sra d a b)) 0xFC0007FF 0x04000007 = true := (fits_iff _ _ _).mpr (by
    simp (disch := decide) only [encode, BitVec.and_or_distrib_right, put_and_apart, BitVec.or_zero]; rfl)
  have hr : decode01 (encode (.sra d a b)) = some (.sra d a b) := by
    unfold decode01
    iterate 7 rw [if_neg (fits_other hf _ _ (by decide))]
    rw [if_pos hf]
    simp (disch := decide) only [encode, fld_or, fld_put_same, fld_put_apart, BitVec.or_zero, fld_const_or]
  have hm : (fld (encode (.sra d a b)) 26 6).toNat = 1 := by rw [major_of_fits hf (by decide)]; rfl
  exact decode_of_raw (raw01 hm hr) hw

theorem slt (d : BitVec 5) (a : BitVec 5) (b : BitVec 5) : Statement (.slt d a b) := by
  intro _ hw
  have hf : fits (encode (.slt d a b)) 0xFC0007FF 0x04000008 = true := (fits_iff _ _ _).mpr (by
    simp (disch := decide) only [encode, BitVec.and_or_distrib_right, put_and_apart, BitVec.or_zero]; rfl)
  have hr : decode01 (encode (.slt d a b)) = some (.slt d a b) := by
    unfold decode01
    iterate 8 rw [if_neg (fits_other hf _ _ (by decide))]
    rw [if_pos hf]
    simp (disch := decide) only [encode, fld_or, fld_put_same, fld_put_apart, BitVec.or_zero, fld_const_or]
  have hm : (fld (encode (.slt d a b)) 26 6).toNat = 1 := by rw [major_of_fits hf (by decide)]; rfl
  exact decode_of_raw (raw01 hm hr) hw

theorem sltu (d : BitVec 5) (a : BitVec 5) (b : BitVec 5) : Statement (.sltu d a b) := by
  intro _ hw
  have hf : fits (encode (.sltu d a b)) 0xFC0007FF 0x04000009 = true := (fits_iff _ _ _).mpr (by
    simp (disch := decide) only [encode, BitVec.and_or_distrib_right, put_and_apart, BitVec.or_zero]; rfl)
  have hr : decode01 (encode (.sltu d a b)) = some (.sltu d a b) := by
    unfold decode01
    iterate 9 rw [if_neg (fits_other hf _ _ (by decide))]
    rw [if_pos hf]
    simp (disch := decide) only [encode, fld_or, fld_put_same, fld_put_apart, BitVec.or_zero, fld_const_or]
  have hm : (fld (encode (.sltu d a b)) 26 6).toNat = 1 := by rw [major_of_fits hf (by decide)]; rfl
  exact decode_of_raw (raw01 hm hr) hw

theorem min (d : BitVec 5) (a : BitVec 5) (b : BitVec 5) : Statement (.min d a b) := by
  intro _ hw
  have hf : fits (encode (.min d a b)) 0xFC0007FF 0x0400000A = true := (fits_iff _ _ _).mpr (by
    simp (disch := decide) only [encode, BitVec.and_or_distrib_right, put_and_apart, BitVec.or_zero]; rfl)
  have hr : decode01 (encode (.min d a b)) = some (.min d a b) := by
    unfold decode01
    iterate 10 rw [if_neg (fits_other hf _ _ (by decide))]
    rw [if_pos hf]
    simp (disch := decide) only [encode, fld_or, fld_put_same, fld_put_apart, BitVec.or_zero, fld_const_or]
  have hm : (fld (encode (.min d a b)) 26 6).toNat = 1 := by rw [major_of_fits hf (by decide)]; rfl
  exact decode_of_raw (raw01 hm hr) hw

theorem max (d : BitVec 5) (a : BitVec 5) (b : BitVec 5) : Statement (.max d a b) := by
  intro _ hw
  have hf : fits (encode (.max d a b)) 0xFC0007FF 0x0400000B = true := (fits_iff _ _ _).mpr (by
    simp (disch := decide) only [encode, BitVec.and_or_distrib_right, put_and_apart, BitVec.or_zero]; rfl)
  have hr : decode01 (encode (.max d a b)) = some (.max d a b) := by
    unfold decode01
    iterate 11 rw [if_neg (fits_other hf _ _ (by decide))]
    rw [if_pos hf]
    simp (disch := decide) only [encode, fld_or, fld_put_same, fld_put_apart, BitVec.or_zero, fld_const_or]
  have hm : (fld (encode (.max d a b)) 26 6).toNat = 1 := by rw [major_of_fits hf (by decide)]; rfl
  exact decode_of_raw (raw01 hm hr) hw

theorem minu (d : BitVec 5) (a : BitVec 5) (b : BitVec 5) : Statement (.minu d a b) := by
  intro _ hw
  have hf : fits (encode (.minu d a b)) 0xFC0007FF 0x0400000C = true := (fits_iff _ _ _).mpr (by
    simp (disch := decide) only [encode, BitVec.and_or_distrib_right, put_and_apart, BitVec.or_zero]; rfl)
  have hr : decode01 (encode (.minu d a b)) = some (.minu d a b) := by
    unfold decode01
    iterate 12 rw [if_neg (fits_other hf _ _ (by decide))]
    rw [if_pos hf]
    simp (disch := decide) only [encode, fld_or, fld_put_same, fld_put_apart, BitVec.or_zero, fld_const_or]
  have hm : (fld (encode (.minu d a b)) 26 6).toNat = 1 := by rw [major_of_fits hf (by decide)]; rfl
  exact decode_of_raw (raw01 hm hr) hw

theorem maxu (d : BitVec 5) (a : BitVec 5) (b : BitVec 5) : Statement (.maxu d a b) := by
  intro _ hw
  have hf : fits (encode (.maxu d a b)) 0xFC0007FF 0x0400000D = true := (fits_iff _ _ _).mpr (by
    simp (disch := decide) only [encode, BitVec.and_or_distrib_right, put_and_apart, BitVec.or_zero]; rfl)
  have hr : decode01 (encode (.maxu d a b)) = some (.maxu d a b) := by
    unfold decode01
    iterate 13 rw [if_neg (fits_other hf _ _ (by decide))]
    rw [if_pos hf]
    simp (disch := decide) only [encode, fld_or, fld_put_same, fld_put_apart, BitVec.or_zero, fld_const_or]
  have hm : (fld (encode (.maxu d a b)) 26 6).toNat = 1 := by rw [major_of_fits hf (by decide)]; rfl
  exact decode_of_raw (raw01 hm hr) hw

theorem clz (d : BitVec 5) (a : BitVec 5) : Statement (.clz d a) := by
  intro _ hw
  have hf : fits (encode (.clz d a)) 0xFC00FFFF 0x0400000E = true := (fits_iff _ _ _).mpr (by
    simp (disch := decide) only [encode, BitVec.and_or_distrib_right, put_and_apart, BitVec.or_zero]; rfl)
  have hr : decode01 (encode (.clz d a)) = some (.clz d a) := by
    unfold decode01
    iterate 14 rw [if_neg (fits_other hf _ _ (by decide))]
    rw [if_pos hf]
    simp (disch := decide) only [encode, fld_or, fld_put_same, fld_put_apart, BitVec.or_zero, fld_const_or]
  have hm : (fld (encode (.clz d a)) 26 6).toNat = 1 := by rw [major_of_fits hf (by decide)]; rfl
  exact decode_of_raw (raw01 hm hr) hw

theorem ctz (d : BitVec 5) (a : BitVec 5) : Statement (.ctz d a) := by
  intro _ hw
  have hf : fits (encode (.ctz d a)) 0xFC00FFFF 0x0400000F = true := (fits_iff _ _ _).mpr (by
    simp (disch := decide) only [encode, BitVec.and_or_distrib_right, put_and_apart, BitVec.or_zero]; rfl)
  have hr : decode01 (encode (.ctz d a)) = some (.ctz d a) := by
    unfold decode01
    iterate 15 rw [if_neg (fits_other hf _ _ (by decide))]
    rw [if_pos hf]
    simp (disch := decide) only [encode, fld_or, fld_put_same, fld_put_apart, BitVec.or_zero, fld_const_or]
  have hm : (fld (encode (.ctz d a)) 26 6).toNat = 1 := by rw [major_of_fits hf (by decide)]; rfl
  exact decode_of_raw (raw01 hm hr) hw

theorem popc (d : BitVec 5) (a : BitVec 5) : Statement (.popc d a) := by
  intro _ hw
  have hf : fits (encode (.popc d a)) 0xFC00FFFF 0x04000010 = true := (fits_iff _ _ _).mpr (by
    simp (disch := decide) only [encode, BitVec.and_or_distrib_right, put_and_apart, BitVec.or_zero]; rfl)
  have hr : decode01 (encode (.popc d a)) = some (.popc d a) := by
    unfold decode01
    iterate 16 rw [if_neg (fits_other hf _ _ (by decide))]
    rw [if_pos hf]
    simp (disch := decide) only [encode, fld_or, fld_put_same, fld_put_apart, BitVec.or_zero, fld_const_or]
  have hm : (fld (encode (.popc d a)) 26 6).toNat = 1 := by rw [major_of_fits hf (by decide)]; rfl
  exact decode_of_raw (raw01 hm hr) hw

theorem sextb (d : BitVec 5) (a : BitVec 5) : Statement (.sextb d a) := by
  intro _ hw
  have hf : fits (encode (.sextb d a)) 0xFC00FFFF 0x04000011 = true := (fits_iff _ _ _).mpr (by
    simp (disch := decide) only [encode, BitVec.and_or_distrib_right, put_and_apart, BitVec.or_zero]; rfl)
  have hr : decode01 (encode (.sextb d a)) = some (.sextb d a) := by
    unfold decode01
    iterate 17 rw [if_neg (fits_other hf _ _ (by decide))]
    rw [if_pos hf]
    simp (disch := decide) only [encode, fld_or, fld_put_same, fld_put_apart, BitVec.or_zero, fld_const_or]
  have hm : (fld (encode (.sextb d a)) 26 6).toNat = 1 := by rw [major_of_fits hf (by decide)]; rfl
  exact decode_of_raw (raw01 hm hr) hw

theorem sexth (d : BitVec 5) (a : BitVec 5) : Statement (.sexth d a) := by
  intro _ hw
  have hf : fits (encode (.sexth d a)) 0xFC00FFFF 0x04000012 = true := (fits_iff _ _ _).mpr (by
    simp (disch := decide) only [encode, BitVec.and_or_distrib_right, put_and_apart, BitVec.or_zero]; rfl)
  have hr : decode01 (encode (.sexth d a)) = some (.sexth d a) := by
    unfold decode01
    iterate 18 rw [if_neg (fits_other hf _ _ (by decide))]
    rw [if_pos hf]
    simp (disch := decide) only [encode, fld_or, fld_put_same, fld_put_apart, BitVec.or_zero, fld_const_or]
  have hm : (fld (encode (.sexth d a)) 26 6).toNat = 1 := by rw [major_of_fits hf (by decide)]; rfl
  exact decode_of_raw (raw01 hm hr) hw

theorem sextw (d : BitVec 5) (a : BitVec 5) : Statement (.sextw d a) := by
  intro _ hw
  have hf : fits (encode (.sextw d a)) 0xFC00FFFF 0x04000013 = true := (fits_iff _ _ _).mpr (by
    simp (disch := decide) only [encode, BitVec.and_or_distrib_right, put_and_apart, BitVec.or_zero]; rfl)
  have hr : decode01 (encode (.sextw d a)) = some (.sextw d a) := by
    unfold decode01
    iterate 19 rw [if_neg (fits_other hf _ _ (by decide))]
    rw [if_pos hf]
    simp (disch := decide) only [encode, fld_or, fld_put_same, fld_put_apart, BitVec.or_zero, fld_const_or]
  have hm : (fld (encode (.sextw d a)) 26 6).toNat = 1 := by rw [major_of_fits hf (by decide)]; rfl
  exact decode_of_raw (raw01 hm hr) hw

theorem mul (d : BitVec 5) (a : BitVec 5) (b : BitVec 5) : Statement (.mul d a b) := by
  intro _ hw
  have hf : fits (encode (.mul d a b)) 0xFC0007FF 0x08000000 = true := (fits_iff _ _ _).mpr (by
    simp (disch := decide) only [encode, BitVec.and_or_distrib_right, put_and_apart, BitVec.or_zero]; rfl)
  have hr : decode02 (encode (.mul d a b)) = some (.mul d a b) := by
    unfold decode02
    rw [if_pos hf]
    simp (disch := decide) only [encode, fld_or, fld_put_same, fld_put_apart, BitVec.or_zero, fld_const_or]
  have hm : (fld (encode (.mul d a b)) 26 6).toNat = 2 := by rw [major_of_fits hf (by decide)]; rfl
  exact decode_of_raw (raw02 hm hr) hw

theorem mulhs (d : BitVec 5) (a : BitVec 5) (b : BitVec 5) : Statement (.mulhs d a b) := by
  intro _ hw
  have hf : fits (encode (.mulhs d a b)) 0xFC0007FF 0x08000001 = true := (fits_iff _ _ _).mpr (by
    simp (disch := decide) only [encode, BitVec.and_or_distrib_right, put_and_apart, BitVec.or_zero]; rfl)
  have hr : decode02 (encode (.mulhs d a b)) = some (.mulhs d a b) := by
    unfold decode02
    iterate 1 rw [if_neg (fits_other hf _ _ (by decide))]
    rw [if_pos hf]
    simp (disch := decide) only [encode, fld_or, fld_put_same, fld_put_apart, BitVec.or_zero, fld_const_or]
  have hm : (fld (encode (.mulhs d a b)) 26 6).toNat = 2 := by rw [major_of_fits hf (by decide)]; rfl
  exact decode_of_raw (raw02 hm hr) hw

theorem mulhu (d : BitVec 5) (a : BitVec 5) (b : BitVec 5) : Statement (.mulhu d a b) := by
  intro _ hw
  have hf : fits (encode (.mulhu d a b)) 0xFC0007FF 0x08000002 = true := (fits_iff _ _ _).mpr (by
    simp (disch := decide) only [encode, BitVec.and_or_distrib_right, put_and_apart, BitVec.or_zero]; rfl)
  have hr : decode02 (encode (.mulhu d a b)) = some (.mulhu d a b) := by
    unfold decode02
    iterate 2 rw [if_neg (fits_other hf _ _ (by decide))]
    rw [if_pos hf]
    simp (disch := decide) only [encode, fld_or, fld_put_same, fld_put_apart, BitVec.or_zero, fld_const_or]
  have hm : (fld (encode (.mulhu d a b)) 26 6).toNat = 2 := by rw [major_of_fits hf (by decide)]; rfl
  exact decode_of_raw (raw02 hm hr) hw

theorem mulhx (d : BitVec 5) (a : BitVec 5) (b : BitVec 5) : Statement (.mulhx d a b) := by
  intro _ hw
  have hf : fits (encode (.mulhx d a b)) 0xFC0007FF 0x08000003 = true := (fits_iff _ _ _).mpr (by
    simp (disch := decide) only [encode, BitVec.and_or_distrib_right, put_and_apart, BitVec.or_zero]; rfl)
  have hr : decode02 (encode (.mulhx d a b)) = some (.mulhx d a b) := by
    unfold decode02
    iterate 3 rw [if_neg (fits_other hf _ _ (by decide))]
    rw [if_pos hf]
    simp (disch := decide) only [encode, fld_or, fld_put_same, fld_put_apart, BitVec.or_zero, fld_const_or]
  have hm : (fld (encode (.mulhx d a b)) 26 6).toNat = 2 := by rw [major_of_fits hf (by decide)]; rfl
  exact decode_of_raw (raw02 hm hr) hw

theorem div (d : BitVec 5) (a : BitVec 5) (b : BitVec 5) : Statement (.div d a b) := by
  intro _ hw
  have hf : fits (encode (.div d a b)) 0xFC0007FF 0x08000004 = true := (fits_iff _ _ _).mpr (by
    simp (disch := decide) only [encode, BitVec.and_or_distrib_right, put_and_apart, BitVec.or_zero]; rfl)
  have hr : decode02 (encode (.div d a b)) = some (.div d a b) := by
    unfold decode02
    iterate 4 rw [if_neg (fits_other hf _ _ (by decide))]
    rw [if_pos hf]
    simp (disch := decide) only [encode, fld_or, fld_put_same, fld_put_apart, BitVec.or_zero, fld_const_or]
  have hm : (fld (encode (.div d a b)) 26 6).toNat = 2 := by rw [major_of_fits hf (by decide)]; rfl
  exact decode_of_raw (raw02 hm hr) hw

theorem divu (d : BitVec 5) (a : BitVec 5) (b : BitVec 5) : Statement (.divu d a b) := by
  intro _ hw
  have hf : fits (encode (.divu d a b)) 0xFC0007FF 0x08000005 = true := (fits_iff _ _ _).mpr (by
    simp (disch := decide) only [encode, BitVec.and_or_distrib_right, put_and_apart, BitVec.or_zero]; rfl)
  have hr : decode02 (encode (.divu d a b)) = some (.divu d a b) := by
    unfold decode02
    iterate 5 rw [if_neg (fits_other hf _ _ (by decide))]
    rw [if_pos hf]
    simp (disch := decide) only [encode, fld_or, fld_put_same, fld_put_apart, BitVec.or_zero, fld_const_or]
  have hm : (fld (encode (.divu d a b)) 26 6).toNat = 2 := by rw [major_of_fits hf (by decide)]; rfl
  exact decode_of_raw (raw02 hm hr) hw

theorem rem (d : BitVec 5) (a : BitVec 5) (b : BitVec 5) : Statement (.rem d a b) := by
  intro _ hw
  have hf : fits (encode (.rem d a b)) 0xFC0007FF 0x08000006 = true := (fits_iff _ _ _).mpr (by
    simp (disch := decide) only [encode, BitVec.and_or_distrib_right, put_and_apart, BitVec.or_zero]; rfl)
  have hr : decode02 (encode (.rem d a b)) = some (.rem d a b) := by
    unfold decode02
    iterate 6 rw [if_neg (fits_other hf _ _ (by decide))]
    rw [if_pos hf]
    simp (disch := decide) only [encode, fld_or, fld_put_same, fld_put_apart, BitVec.or_zero, fld_const_or]
  have hm : (fld (encode (.rem d a b)) 26 6).toNat = 2 := by rw [major_of_fits hf (by decide)]; rfl
  exact decode_of_raw (raw02 hm hr) hw

theorem remu (d : BitVec 5) (a : BitVec 5) (b : BitVec 5) : Statement (.remu d a b) := by
  intro _ hw
  have hf : fits (encode (.remu d a b)) 0xFC0007FF 0x08000007 = true := (fits_iff _ _ _).mpr (by
    simp (disch := decide) only [encode, BitVec.and_or_distrib_right, put_and_apart, BitVec.or_zero]; rfl)
  have hr : decode02 (encode (.remu d a b)) = some (.remu d a b) := by
    unfold decode02
    iterate 7 rw [if_neg (fits_other hf _ _ (by decide))]
    rw [if_pos hf]
    simp (disch := decide) only [encode, fld_or, fld_put_same, fld_put_apart, BitVec.or_zero, fld_const_or]
  have hm : (fld (encode (.remu d a b)) 26 6).toNat = 2 := by rw [major_of_fits hf (by decide)]; rfl
  exact decode_of_raw (raw02 hm hr) hw

theorem fadd (d : BitVec 5) (a : BitVec 5) (b : BitVec 5) (f : BitVec 2) : Statement (.fadd d a b f) := by
  intro _ hw
  have hf : fits (encode (.fadd d a b f)) 0xFC0007CF 0x0C000000 = true := (fits_iff _ _ _).mpr (by
    simp (disch := decide) only [encode, BitVec.and_or_distrib_right, put_and_apart, BitVec.or_zero]; rfl)
  have hr : decode03 (encode (.fadd d a b f)) = some (.fadd d a b f) := by
    unfold decode03
    rw [if_pos hf]
    simp (disch := decide) only [encode, fld_or, fld_put_same, fld_put_apart, BitVec.or_zero, fld_const_or]
  have hm : (fld (encode (.fadd d a b f)) 26 6).toNat = 3 := by rw [major_of_fits hf (by decide)]; rfl
  exact decode_of_raw (raw03 hm hr) hw

theorem fsub (d : BitVec 5) (a : BitVec 5) (b : BitVec 5) (f : BitVec 2) : Statement (.fsub d a b f) := by
  intro _ hw
  have hf : fits (encode (.fsub d a b f)) 0xFC0007CF 0x0C000001 = true := (fits_iff _ _ _).mpr (by
    simp (disch := decide) only [encode, BitVec.and_or_distrib_right, put_and_apart, BitVec.or_zero]; rfl)
  have hr : decode03 (encode (.fsub d a b f)) = some (.fsub d a b f) := by
    unfold decode03
    iterate 1 rw [if_neg (fits_other hf _ _ (by decide))]
    rw [if_pos hf]
    simp (disch := decide) only [encode, fld_or, fld_put_same, fld_put_apart, BitVec.or_zero, fld_const_or]
  have hm : (fld (encode (.fsub d a b f)) 26 6).toNat = 3 := by rw [major_of_fits hf (by decide)]; rfl
  exact decode_of_raw (raw03 hm hr) hw

theorem fmul (d : BitVec 5) (a : BitVec 5) (b : BitVec 5) (f : BitVec 2) : Statement (.fmul d a b f) := by
  intro _ hw
  have hf : fits (encode (.fmul d a b f)) 0xFC0007CF 0x0C000002 = true := (fits_iff _ _ _).mpr (by
    simp (disch := decide) only [encode, BitVec.and_or_distrib_right, put_and_apart, BitVec.or_zero]; rfl)
  have hr : decode03 (encode (.fmul d a b f)) = some (.fmul d a b f) := by
    unfold decode03
    iterate 2 rw [if_neg (fits_other hf _ _ (by decide))]
    rw [if_pos hf]
    simp (disch := decide) only [encode, fld_or, fld_put_same, fld_put_apart, BitVec.or_zero, fld_const_or]
  have hm : (fld (encode (.fmul d a b f)) 26 6).toNat = 3 := by rw [major_of_fits hf (by decide)]; rfl
  exact decode_of_raw (raw03 hm hr) hw

theorem fdiv (d : BitVec 5) (a : BitVec 5) (b : BitVec 5) (f : BitVec 2) : Statement (.fdiv d a b f) := by
  intro _ hw
  have hf : fits (encode (.fdiv d a b f)) 0xFC0007CF 0x0C000003 = true := (fits_iff _ _ _).mpr (by
    simp (disch := decide) only [encode, BitVec.and_or_distrib_right, put_and_apart, BitVec.or_zero]; rfl)
  have hr : decode03 (encode (.fdiv d a b f)) = some (.fdiv d a b f) := by
    unfold decode03
    iterate 3 rw [if_neg (fits_other hf _ _ (by decide))]
    rw [if_pos hf]
    simp (disch := decide) only [encode, fld_or, fld_put_same, fld_put_apart, BitVec.or_zero, fld_const_or]
  have hm : (fld (encode (.fdiv d a b f)) 26 6).toNat = 3 := by rw [major_of_fits hf (by decide)]; rfl
  exact decode_of_raw (raw03 hm hr) hw

theorem fsqrt (d : BitVec 5) (a : BitVec 5) (f : BitVec 2) : Statement (.fsqrt d a f) := by
  intro _ hw
  have hf : fits (encode (.fsqrt d a f)) 0xFC00FFCF 0x0C000004 = true := (fits_iff _ _ _).mpr (by
    simp (disch := decide) only [encode, BitVec.and_or_distrib_right, put_and_apart, BitVec.or_zero]; rfl)
  have hr : decode03 (encode (.fsqrt d a f)) = some (.fsqrt d a f) := by
    unfold decode03
    iterate 4 rw [if_neg (fits_other hf _ _ (by decide))]
    rw [if_pos hf]
    simp (disch := decide) only [encode, fld_or, fld_put_same, fld_put_apart, BitVec.or_zero, fld_const_or]
  have hm : (fld (encode (.fsqrt d a f)) 26 6).toNat = 3 := by rw [major_of_fits hf (by decide)]; rfl
  exact decode_of_raw (raw03 hm hr) hw

theorem fmad (d : BitVec 5) (a : BitVec 5) (b : BitVec 5) (f : BitVec 2) : Statement (.fmad d a b f) := by
  intro _ hw
  have hf : fits (encode (.fmad d a b f)) 0xFC0007CF 0x0C000005 = true := (fits_iff _ _ _).mpr (by
    simp (disch := decide) only [encode, BitVec.and_or_distrib_right, put_and_apart, BitVec.or_zero]; rfl)
  have hr : decode03 (encode (.fmad d a b f)) = some (.fmad d a b f) := by
    unfold decode03
    iterate 5 rw [if_neg (fits_other hf _ _ (by decide))]
    rw [if_pos hf]
    simp (disch := decide) only [encode, fld_or, fld_put_same, fld_put_apart, BitVec.or_zero, fld_const_or]
  have hm : (fld (encode (.fmad d a b f)) 26 6).toNat = 3 := by rw [major_of_fits hf (by decide)]; rfl
  exact decode_of_raw (raw03 hm hr) hw

theorem feq (d : BitVec 5) (a : BitVec 5) (b : BitVec 5) (f : BitVec 2) : Statement (.feq d a b f) := by
  intro _ hw
  have hf : fits (encode (.feq d a b f)) 0xFC0007CF 0x0C000006 = true := (fits_iff _ _ _).mpr (by
    simp (disch := decide) only [encode, BitVec.and_or_distrib_right, put_and_apart, BitVec.or_zero]; rfl)
  have hr : decode03 (encode (.feq d a b f)) = some (.feq d a b f) := by
    unfold decode03
    iterate 6 rw [if_neg (fits_other hf _ _ (by decide))]
    rw [if_pos hf]
    simp (disch := decide) only [encode, fld_or, fld_put_same, fld_put_apart, BitVec.or_zero, fld_const_or]
  have hm : (fld (encode (.feq d a b f)) 26 6).toNat = 3 := by rw [major_of_fits hf (by decide)]; rfl
  exact decode_of_raw (raw03 hm hr) hw

theorem flt (d : BitVec 5) (a : BitVec 5) (b : BitVec 5) (f : BitVec 2) : Statement (.flt d a b f) := by
  intro _ hw
  have hf : fits (encode (.flt d a b f)) 0xFC0007CF 0x0C000046 = true := (fits_iff _ _ _).mpr (by
    simp (disch := decide) only [encode, BitVec.and_or_distrib_right, put_and_apart, BitVec.or_zero]; rfl)
  have hr : decode03 (encode (.flt d a b f)) = some (.flt d a b f) := by
    unfold decode03
    iterate 7 rw [if_neg (fits_other hf _ _ (by decide))]
    rw [if_pos hf]
    simp (disch := decide) only [encode, fld_or, fld_put_same, fld_put_apart, BitVec.or_zero, fld_const_or]
  have hm : (fld (encode (.flt d a b f)) 26 6).toNat = 3 := by rw [major_of_fits hf (by decide)]; rfl
  exact decode_of_raw (raw03 hm hr) hw

theorem fle (d : BitVec 5) (a : BitVec 5) (b : BitVec 5) (f : BitVec 2) : Statement (.fle d a b f) := by
  intro _ hw
  have hf : fits (encode (.fle d a b f)) 0xFC0007CF 0x0C000086 = true := (fits_iff _ _ _).mpr (by
    simp (disch := decide) only [encode, BitVec.and_or_distrib_right, put_and_apart, BitVec.or_zero]; rfl)
  have hr : decode03 (encode (.fle d a b f)) = some (.fle d a b f) := by
    unfold decode03
    iterate 8 rw [if_neg (fits_other hf _ _ (by decide))]
    rw [if_pos hf]
    simp (disch := decide) only [encode, fld_or, fld_put_same, fld_put_apart, BitVec.or_zero, fld_const_or]
  have hm : (fld (encode (.fle d a b f)) 26 6).toNat = 3 := by rw [major_of_fits hf (by decide)]; rfl
  exact decode_of_raw (raw03 hm hr) hw

theorem funo (d : BitVec 5) (a : BitVec 5) (b : BitVec 5) (f : BitVec 2) : Statement (.funo d a b f) := by
  intro _ hw
  have hf : fits (encode (.funo d a b f)) 0xFC0007CF 0x0C0000C6 = true := (fits_iff _ _ _).mpr (by
    simp (disch := decide) only [encode, BitVec.and_or_distrib_right, put_and_apart, BitVec.or_zero]; rfl)
  have hr : decode03 (encode (.funo d a b f)) = some (.funo d a b f) := by
    unfold decode03
    iterate 9 rw [if_neg (fits_other hf _ _ (by decide))]
    rw [if_pos hf]
    simp (disch := decide) only [encode, fld_or, fld_put_same, fld_put_apart, BitVec.or_zero, fld_const_or]
  have hm : (fld (encode (.funo d a b f)) 26 6).toNat = 3 := by rw [major_of_fits hf (by decide)]; rfl
  exact decode_of_raw (raw03 hm hr) hw

theorem ftoi (d : BitVec 5) (a : BitVec 5) (f : BitVec 2) : Statement (.ftoi d a f) := by
  intro _ hw
  have hf : fits (encode (.ftoi d a f)) 0xFC00FFCF 0x0C000007 = true := (fits_iff _ _ _).mpr (by
    simp (disch := decide) only [encode, BitVec.and_or_distrib_right, put_and_apart, BitVec.or_zero]; rfl)
  have hr : decode03 (encode (.ftoi d a f)) = some (.ftoi d a f) := by
    unfold decode03
    iterate 10 rw [if_neg (fits_other hf _ _ (by decide))]
    rw [if_pos hf]
    simp (disch := decide) only [encode, fld_or, fld_put_same, fld_put_apart, BitVec.or_zero, fld_const_or]
  have hm : (fld (encode (.ftoi d a f)) 26 6).toNat = 3 := by rw [major_of_fits hf (by decide)]; rfl
  exact decode_of_raw (raw03 hm hr) hw

theorem ftou (d : BitVec 5) (a : BitVec 5) (f : BitVec 2) : Statement (.ftou d a f) := by
  intro _ hw
  have hf : fits (encode (.ftou d a f)) 0xFC00FFCF 0x0C000047 = true := (fits_iff _ _ _).mpr (by
    simp (disch := decide) only [encode, BitVec.and_or_distrib_right, put_and_apart, BitVec.or_zero]; rfl)
  have hr : decode03 (encode (.ftou d a f)) = some (.ftou d a f) := by
    unfold decode03
    iterate 11 rw [if_neg (fits_other hf _ _ (by decide))]
    rw [if_pos hf]
    simp (disch := decide) only [encode, fld_or, fld_put_same, fld_put_apart, BitVec.or_zero, fld_const_or]
  have hm : (fld (encode (.ftou d a f)) 26 6).toNat = 3 := by rw [major_of_fits hf (by decide)]; rfl
  exact decode_of_raw (raw03 hm hr) hw

theorem itof (d : BitVec 5) (a : BitVec 5) (f : BitVec 2) : Statement (.itof d a f) := by
  intro _ hw
  have hf : fits (encode (.itof d a f)) 0xFC00FFCF 0x0C000087 = true := (fits_iff _ _ _).mpr (by
    simp (disch := decide) only [encode, BitVec.and_or_distrib_right, put_and_apart, BitVec.or_zero]; rfl)
  have hr : decode03 (encode (.itof d a f)) = some (.itof d a f) := by
    unfold decode03
    iterate 12 rw [if_neg (fits_other hf _ _ (by decide))]
    rw [if_pos hf]
    simp (disch := decide) only [encode, fld_or, fld_put_same, fld_put_apart, BitVec.or_zero, fld_const_or]
  have hm : (fld (encode (.itof d a f)) 26 6).toNat = 3 := by rw [major_of_fits hf (by decide)]; rfl
  exact decode_of_raw (raw03 hm hr) hw

theorem utof (d : BitVec 5) (a : BitVec 5) (f : BitVec 2) : Statement (.utof d a f) := by
  intro _ hw
  have hf : fits (encode (.utof d a f)) 0xFC00FFCF 0x0C0000C7 = true := (fits_iff _ _ _).mpr (by
    simp (disch := decide) only [encode, BitVec.and_or_distrib_right, put_and_apart, BitVec.or_zero]; rfl)
  have hr : decode03 (encode (.utof d a f)) = some (.utof d a f) := by
    unfold decode03
    iterate 13 rw [if_neg (fits_other hf _ _ (by decide))]
    rw [if_pos hf]
    simp (disch := decide) only [encode, fld_or, fld_put_same, fld_put_apart, BitVec.or_zero, fld_const_or]
  have hm : (fld (encode (.utof d a f)) 26 6).toNat = 3 := by rw [major_of_fits hf (by decide)]; rfl
  exact decode_of_raw (raw03 hm hr) hw

theorem fcvs (d : BitVec 5) (a : BitVec 5) (f : BitVec 2) : Statement (.fcvs d a f) := by
  intro _ hw
  have hf : fits (encode (.fcvs d a f)) 0xFC00FFCF 0x0C000107 = true := (fits_iff _ _ _).mpr (by
    simp (disch := decide) only [encode, BitVec.and_or_distrib_right, put_and_apart, BitVec.or_zero]; rfl)
  have hr : decode03 (encode (.fcvs d a f)) = some (.fcvs d a f) := by
    unfold decode03
    iterate 14 rw [if_neg (fits_other hf _ _ (by decide))]
    rw [if_pos hf]
    simp (disch := decide) only [encode, fld_or, fld_put_same, fld_put_apart, BitVec.or_zero, fld_const_or]
  have hm : (fld (encode (.fcvs d a f)) 26 6).toNat = 3 := by rw [major_of_fits hf (by decide)]; rfl
  exact decode_of_raw (raw03 hm hr) hw

theorem fcvh (d : BitVec 5) (a : BitVec 5) (f : BitVec 2) : Statement (.fcvh d a f) := by
  intro _ hw
  have hf : fits (encode (.fcvh d a f)) 0xFC00FFCF 0x0C000147 = true := (fits_iff _ _ _).mpr (by
    simp (disch := decide) only [encode, BitVec.and_or_distrib_right, put_and_apart, BitVec.or_zero]; rfl)
  have hr : decode03 (encode (.fcvh d a f)) = some (.fcvh d a f) := by
    unfold decode03
    iterate 15 rw [if_neg (fits_other hf _ _ (by decide))]
    rw [if_pos hf]
    simp (disch := decide) only [encode, fld_or, fld_put_same, fld_put_apart, BitVec.or_zero, fld_const_or]
  have hm : (fld (encode (.fcvh d a f)) 26 6).toNat = 3 := by rw [major_of_fits hf (by decide)]; rfl
  exact decode_of_raw (raw03 hm hr) hw

theorem fcvb (d : BitVec 5) (a : BitVec 5) (f : BitVec 2) : Statement (.fcvb d a f) := by
  intro _ hw
  have hf : fits (encode (.fcvb d a f)) 0xFC00FFCF 0x0C000187 = true := (fits_iff _ _ _).mpr (by
    simp (disch := decide) only [encode, BitVec.and_or_distrib_right, put_and_apart, BitVec.or_zero]; rfl)
  have hr : decode03 (encode (.fcvb d a f)) = some (.fcvb d a f) := by
    unfold decode03
    iterate 16 rw [if_neg (fits_other hf _ _ (by decide))]
    rw [if_pos hf]
    simp (disch := decide) only [encode, fld_or, fld_put_same, fld_put_apart, BitVec.or_zero, fld_const_or]
  have hm : (fld (encode (.fcvb d a f)) 26 6).toNat = 3 := by rw [major_of_fits hf (by decide)]; rfl
  exact decode_of_raw (raw03 hm hr) hw

theorem addi (d : BitVec 5) (a : BitVec 5) (i : BitVec 16) : Statement (.addi d a i) := by
  intro _ hw
  have hf : fits (encode (.addi d a i)) 0xFC000000 0x10000000 = true := (fits_iff _ _ _).mpr (by
    simp (disch := decide) only [encode, BitVec.and_or_distrib_right, put_and_apart, BitVec.or_zero]; rfl)
  have hr : decode04 (encode (.addi d a i)) = some (.addi d a i) := by
    unfold decode04
    rw [if_pos hf]
    simp (disch := decide) only [encode, fld_or, fld_put_same, fld_put_apart, BitVec.or_zero, fld_const_or]
  have hm : (fld (encode (.addi d a i)) 26 6).toNat = 4 := by rw [major_of_fits hf (by decide)]; rfl
  exact decode_of_raw (raw04 hm hr) hw

theorem andi (d : BitVec 5) (a : BitVec 5) (i : BitVec 16) : Statement (.andi d a i) := by
  intro _ hw
  have hf : fits (encode (.andi d a i)) 0xFC000000 0x14000000 = true := (fits_iff _ _ _).mpr (by
    simp (disch := decide) only [encode, BitVec.and_or_distrib_right, put_and_apart, BitVec.or_zero]; rfl)
  have hr : decode05 (encode (.andi d a i)) = some (.andi d a i) := by
    unfold decode05
    rw [if_pos hf]
    simp (disch := decide) only [encode, fld_or, fld_put_same, fld_put_apart, BitVec.or_zero, fld_const_or]
  have hm : (fld (encode (.andi d a i)) 26 6).toNat = 5 := by rw [major_of_fits hf (by decide)]; rfl
  exact decode_of_raw (raw05 hm hr) hw

theorem ori (d : BitVec 5) (a : BitVec 5) (i : BitVec 16) : Statement (.ori d a i) := by
  intro _ hw
  have hf : fits (encode (.ori d a i)) 0xFC000000 0x18000000 = true := (fits_iff _ _ _).mpr (by
    simp (disch := decide) only [encode, BitVec.and_or_distrib_right, put_and_apart, BitVec.or_zero]; rfl)
  have hr : decode06 (encode (.ori d a i)) = some (.ori d a i) := by
    unfold decode06
    rw [if_pos hf]
    simp (disch := decide) only [encode, fld_or, fld_put_same, fld_put_apart, BitVec.or_zero, fld_const_or]
  have hm : (fld (encode (.ori d a i)) 26 6).toNat = 6 := by rw [major_of_fits hf (by decide)]; rfl
  exact decode_of_raw (raw06 hm hr) hw

theorem xori (d : BitVec 5) (a : BitVec 5) (i : BitVec 16) : Statement (.xori d a i) := by
  intro _ hw
  have hf : fits (encode (.xori d a i)) 0xFC000000 0x1C000000 = true := (fits_iff _ _ _).mpr (by
    simp (disch := decide) only [encode, BitVec.and_or_distrib_right, put_and_apart, BitVec.or_zero]; rfl)
  have hr : decode07 (encode (.xori d a i)) = some (.xori d a i) := by
    unfold decode07
    rw [if_pos hf]
    simp (disch := decide) only [encode, fld_or, fld_put_same, fld_put_apart, BitVec.or_zero, fld_const_or]
  have hm : (fld (encode (.xori d a i)) 26 6).toNat = 7 := by rw [major_of_fits hf (by decide)]; rfl
  exact decode_of_raw (raw07 hm hr) hw

theorem slti (d : BitVec 5) (a : BitVec 5) (i : BitVec 16) : Statement (.slti d a i) := by
  intro _ hw
  have hf : fits (encode (.slti d a i)) 0xFC000000 0x20000000 = true := (fits_iff _ _ _).mpr (by
    simp (disch := decide) only [encode, BitVec.and_or_distrib_right, put_and_apart, BitVec.or_zero]; rfl)
  have hr : decode08 (encode (.slti d a i)) = some (.slti d a i) := by
    unfold decode08
    rw [if_pos hf]
    simp (disch := decide) only [encode, fld_or, fld_put_same, fld_put_apart, BitVec.or_zero, fld_const_or]
  have hm : (fld (encode (.slti d a i)) 26 6).toNat = 8 := by rw [major_of_fits hf (by decide)]; rfl
  exact decode_of_raw (raw08 hm hr) hw

theorem sltiu (d : BitVec 5) (a : BitVec 5) (i : BitVec 16) : Statement (.sltiu d a i) := by
  intro _ hw
  have hf : fits (encode (.sltiu d a i)) 0xFC000000 0x24000000 = true := (fits_iff _ _ _).mpr (by
    simp (disch := decide) only [encode, BitVec.and_or_distrib_right, put_and_apart, BitVec.or_zero]; rfl)
  have hr : decode09 (encode (.sltiu d a i)) = some (.sltiu d a i) := by
    unfold decode09
    rw [if_pos hf]
    simp (disch := decide) only [encode, fld_or, fld_put_same, fld_put_apart, BitVec.or_zero, fld_const_or]
  have hm : (fld (encode (.sltiu d a i)) 26 6).toNat = 9 := by rw [major_of_fits hf (by decide)]; rfl
  exact decode_of_raw (raw09 hm hr) hw

theorem lim (d : BitVec 5) (c : BitVec 2) (i : BitVec 16) : Statement (.lim d c i) := by
  intro _ hw
  have hf : fits (encode (.lim d c i)) 0xFC1C0000 0x28000000 = true := (fits_iff _ _ _).mpr (by
    simp (disch := decide) only [encode, BitVec.and_or_distrib_right, put_and_apart, BitVec.or_zero]; rfl)
  have hr : decode0A (encode (.lim d c i)) = some (.lim d c i) := by
    unfold decode0A
    rw [if_pos hf]
    simp (disch := decide) only [encode, fld_or, fld_put_same, fld_put_apart, BitVec.or_zero, fld_const_or]
  have hm : (fld (encode (.lim d c i)) 26 6).toNat = 10 := by rw [major_of_fits hf (by decide)]; rfl
  exact decode_of_raw (raw0A hm hr) hw

theorem pcadd (d : BitVec 5) (i : BitVec 16) : Statement (.pcadd d i) := by
  intro _ hw
  have hf : fits (encode (.pcadd d i)) 0xFC1F0000 0x2C000000 = true := (fits_iff _ _ _).mpr (by
    simp (disch := decide) only [encode, BitVec.and_or_distrib_right, put_and_apart, BitVec.or_zero]; rfl)
  have hr : decode0B (encode (.pcadd d i)) = some (.pcadd d i) := by
    unfold decode0B
    rw [if_pos hf]
    simp (disch := decide) only [encode, fld_or, fld_put_same, fld_put_apart, BitVec.or_zero, fld_const_or]
  have hm : (fld (encode (.pcadd d i)) 26 6).toNat = 11 := by rw [major_of_fits hf (by decide)]; rfl
  exact decode_of_raw (raw0B hm hr) hw

theorem slli (d : BitVec 5) (a : BitVec 5) (s : BitVec 6) : Statement (.slli d a s) := by
  intro _ hw
  have hf : fits (encode (.slli d a s)) 0xFC00FFC0 0x30000000 = true := (fits_iff _ _ _).mpr (by
    simp (disch := decide) only [encode, BitVec.and_or_distrib_right, put_and_apart, BitVec.or_zero]; rfl)
  have hr : decode0C (encode (.slli d a s)) = some (.slli d a s) := by
    unfold decode0C
    rw [if_pos hf]
    simp (disch := decide) only [encode, fld_or, fld_put_same, fld_put_apart, BitVec.or_zero, fld_const_or]
  have hm : (fld (encode (.slli d a s)) 26 6).toNat = 12 := by rw [major_of_fits hf (by decide)]; rfl
  exact decode_of_raw (raw0C hm hr) hw

theorem srli (d : BitVec 5) (a : BitVec 5) (s : BitVec 6) : Statement (.srli d a s) := by
  intro _ hw
  have hf : fits (encode (.srli d a s)) 0xFC00FFC0 0x30000100 = true := (fits_iff _ _ _).mpr (by
    simp (disch := decide) only [encode, BitVec.and_or_distrib_right, put_and_apart, BitVec.or_zero]; rfl)
  have hr : decode0C (encode (.srli d a s)) = some (.srli d a s) := by
    unfold decode0C
    iterate 1 rw [if_neg (fits_other hf _ _ (by decide))]
    rw [if_pos hf]
    simp (disch := decide) only [encode, fld_or, fld_put_same, fld_put_apart, BitVec.or_zero, fld_const_or]
  have hm : (fld (encode (.srli d a s)) 26 6).toNat = 12 := by rw [major_of_fits hf (by decide)]; rfl
  exact decode_of_raw (raw0C hm hr) hw

theorem srai (d : BitVec 5) (a : BitVec 5) (s : BitVec 6) : Statement (.srai d a s) := by
  intro _ hw
  have hf : fits (encode (.srai d a s)) 0xFC00FFC0 0x30000200 = true := (fits_iff _ _ _).mpr (by
    simp (disch := decide) only [encode, BitVec.and_or_distrib_right, put_and_apart, BitVec.or_zero]; rfl)
  have hr : decode0C (encode (.srai d a s)) = some (.srai d a s) := by
    unfold decode0C
    iterate 2 rw [if_neg (fits_other hf _ _ (by decide))]
    rw [if_pos hf]
    simp (disch := decide) only [encode, fld_or, fld_put_same, fld_put_apart, BitVec.or_zero, fld_const_or]
  have hm : (fld (encode (.srai d a s)) 26 6).toNat = 12 := by rw [major_of_fits hf (by decide)]; rfl
  exact decode_of_raw (raw0C hm hr) hw

theorem rori (d : BitVec 5) (a : BitVec 5) (s : BitVec 6) : Statement (.rori d a s) := by
  intro _ hw
  have hf : fits (encode (.rori d a s)) 0xFC00FFC0 0x30000300 = true := (fits_iff _ _ _).mpr (by
    simp (disch := decide) only [encode, BitVec.and_or_distrib_right, put_and_apart, BitVec.or_zero]; rfl)
  have hr : decode0C (encode (.rori d a s)) = some (.rori d a s) := by
    unfold decode0C
    iterate 3 rw [if_neg (fits_other hf _ _ (by decide))]
    rw [if_pos hf]
    simp (disch := decide) only [encode, fld_or, fld_put_same, fld_put_apart, BitVec.or_zero, fld_const_or]
  have hm : (fld (encode (.rori d a s)) 26 6).toNat = 12 := by rw [major_of_fits hf (by decide)]; rfl
  exact decode_of_raw (raw0C hm hr) hw

theorem ldb (d : BitVec 5) (a : BitVec 5) (c : BitVec 4) (o : BitVec 12) : Statement (.ldb d a c o) := by
  intro _ hw
  have hf : fits (encode (.ldb d a c o)) 0xFC000000 0x40000000 = true := (fits_iff _ _ _).mpr (by
    simp (disch := decide) only [encode, BitVec.and_or_distrib_right, put_and_apart, BitVec.or_zero]; rfl)
  have hr : decode10 (encode (.ldb d a c o)) = some (.ldb d a c o) := by
    unfold decode10
    rw [if_pos hf]
    simp (disch := decide) only [encode, fld_or, fld_put_same, fld_put_apart, BitVec.or_zero, fld_const_or]
  have hm : (fld (encode (.ldb d a c o)) 26 6).toNat = 16 := by rw [major_of_fits hf (by decide)]; rfl
  exact decode_of_raw (raw10 hm hr) hw

theorem ldbu (d : BitVec 5) (a : BitVec 5) (c : BitVec 4) (o : BitVec 12) : Statement (.ldbu d a c o) := by
  intro _ hw
  have hf : fits (encode (.ldbu d a c o)) 0xFC000000 0x44000000 = true := (fits_iff _ _ _).mpr (by
    simp (disch := decide) only [encode, BitVec.and_or_distrib_right, put_and_apart, BitVec.or_zero]; rfl)
  have hr : decode11 (encode (.ldbu d a c o)) = some (.ldbu d a c o) := by
    unfold decode11
    rw [if_pos hf]
    simp (disch := decide) only [encode, fld_or, fld_put_same, fld_put_apart, BitVec.or_zero, fld_const_or]
  have hm : (fld (encode (.ldbu d a c o)) 26 6).toNat = 17 := by rw [major_of_fits hf (by decide)]; rfl
  exact decode_of_raw (raw11 hm hr) hw

theorem ldh (d : BitVec 5) (a : BitVec 5) (c : BitVec 4) (o : BitVec 12) : Statement (.ldh d a c o) := by
  intro _ hw
  have hf : fits (encode (.ldh d a c o)) 0xFC000000 0x48000000 = true := (fits_iff _ _ _).mpr (by
    simp (disch := decide) only [encode, BitVec.and_or_distrib_right, put_and_apart, BitVec.or_zero]; rfl)
  have hr : decode12 (encode (.ldh d a c o)) = some (.ldh d a c o) := by
    unfold decode12
    rw [if_pos hf]
    simp (disch := decide) only [encode, fld_or, fld_put_same, fld_put_apart, BitVec.or_zero, fld_const_or]
  have hm : (fld (encode (.ldh d a c o)) 26 6).toNat = 18 := by rw [major_of_fits hf (by decide)]; rfl
  exact decode_of_raw (raw12 hm hr) hw

theorem ldhu (d : BitVec 5) (a : BitVec 5) (c : BitVec 4) (o : BitVec 12) : Statement (.ldhu d a c o) := by
  intro _ hw
  have hf : fits (encode (.ldhu d a c o)) 0xFC000000 0x4C000000 = true := (fits_iff _ _ _).mpr (by
    simp (disch := decide) only [encode, BitVec.and_or_distrib_right, put_and_apart, BitVec.or_zero]; rfl)
  have hr : decode13 (encode (.ldhu d a c o)) = some (.ldhu d a c o) := by
    unfold decode13
    rw [if_pos hf]
    simp (disch := decide) only [encode, fld_or, fld_put_same, fld_put_apart, BitVec.or_zero, fld_const_or]
  have hm : (fld (encode (.ldhu d a c o)) 26 6).toNat = 19 := by rw [major_of_fits hf (by decide)]; rfl
  exact decode_of_raw (raw13 hm hr) hw

theorem ldw (d : BitVec 5) (a : BitVec 5) (c : BitVec 4) (o : BitVec 12) : Statement (.ldw d a c o) := by
  intro _ hw
  have hf : fits (encode (.ldw d a c o)) 0xFC000000 0x50000000 = true := (fits_iff _ _ _).mpr (by
    simp (disch := decide) only [encode, BitVec.and_or_distrib_right, put_and_apart, BitVec.or_zero]; rfl)
  have hr : decode14 (encode (.ldw d a c o)) = some (.ldw d a c o) := by
    unfold decode14
    rw [if_pos hf]
    simp (disch := decide) only [encode, fld_or, fld_put_same, fld_put_apart, BitVec.or_zero, fld_const_or]
  have hm : (fld (encode (.ldw d a c o)) 26 6).toNat = 20 := by rw [major_of_fits hf (by decide)]; rfl
  exact decode_of_raw (raw14 hm hr) hw

theorem ldwu (d : BitVec 5) (a : BitVec 5) (c : BitVec 4) (o : BitVec 12) : Statement (.ldwu d a c o) := by
  intro _ hw
  have hf : fits (encode (.ldwu d a c o)) 0xFC000000 0x54000000 = true := (fits_iff _ _ _).mpr (by
    simp (disch := decide) only [encode, BitVec.and_or_distrib_right, put_and_apart, BitVec.or_zero]; rfl)
  have hr : decode15 (encode (.ldwu d a c o)) = some (.ldwu d a c o) := by
    unfold decode15
    rw [if_pos hf]
    simp (disch := decide) only [encode, fld_or, fld_put_same, fld_put_apart, BitVec.or_zero, fld_const_or]
  have hm : (fld (encode (.ldwu d a c o)) 26 6).toNat = 21 := by rw [major_of_fits hf (by decide)]; rfl
  exact decode_of_raw (raw15 hm hr) hw

theorem ldd (d : BitVec 5) (a : BitVec 5) (c : BitVec 4) (o : BitVec 12) : Statement (.ldd d a c o) := by
  intro _ hw
  have hf : fits (encode (.ldd d a c o)) 0xFC000000 0x58000000 = true := (fits_iff _ _ _).mpr (by
    simp (disch := decide) only [encode, BitVec.and_or_distrib_right, put_and_apart, BitVec.or_zero]; rfl)
  have hr : decode16 (encode (.ldd d a c o)) = some (.ldd d a c o) := by
    unfold decode16
    rw [if_pos hf]
    simp (disch := decide) only [encode, fld_or, fld_put_same, fld_put_apart, BitVec.or_zero, fld_const_or]
  have hm : (fld (encode (.ldd d a c o)) 26 6).toNat = 22 := by rw [major_of_fits hf (by decide)]; rfl
  exact decode_of_raw (raw16 hm hr) hw

theorem stb (d : BitVec 5) (a : BitVec 5) (c : BitVec 4) (o : BitVec 12) : Statement (.stb d a c o) := by
  intro _ hw
  have hf : fits (encode (.stb d a c o)) 0xFC000000 0x60000000 = true := (fits_iff _ _ _).mpr (by
    simp (disch := decide) only [encode, BitVec.and_or_distrib_right, put_and_apart, BitVec.or_zero]; rfl)
  have hr : decode18 (encode (.stb d a c o)) = some (.stb d a c o) := by
    unfold decode18
    rw [if_pos hf]
    simp (disch := decide) only [encode, fld_or, fld_put_same, fld_put_apart, BitVec.or_zero, fld_const_or]
  have hm : (fld (encode (.stb d a c o)) 26 6).toNat = 24 := by rw [major_of_fits hf (by decide)]; rfl
  exact decode_of_raw (raw18 hm hr) hw

theorem sth (d : BitVec 5) (a : BitVec 5) (c : BitVec 4) (o : BitVec 12) : Statement (.sth d a c o) := by
  intro _ hw
  have hf : fits (encode (.sth d a c o)) 0xFC000000 0x64000000 = true := (fits_iff _ _ _).mpr (by
    simp (disch := decide) only [encode, BitVec.and_or_distrib_right, put_and_apart, BitVec.or_zero]; rfl)
  have hr : decode19 (encode (.sth d a c o)) = some (.sth d a c o) := by
    unfold decode19
    rw [if_pos hf]
    simp (disch := decide) only [encode, fld_or, fld_put_same, fld_put_apart, BitVec.or_zero, fld_const_or]
  have hm : (fld (encode (.sth d a c o)) 26 6).toNat = 25 := by rw [major_of_fits hf (by decide)]; rfl
  exact decode_of_raw (raw19 hm hr) hw

theorem stw (d : BitVec 5) (a : BitVec 5) (c : BitVec 4) (o : BitVec 12) : Statement (.stw d a c o) := by
  intro _ hw
  have hf : fits (encode (.stw d a c o)) 0xFC000000 0x68000000 = true := (fits_iff _ _ _).mpr (by
    simp (disch := decide) only [encode, BitVec.and_or_distrib_right, put_and_apart, BitVec.or_zero]; rfl)
  have hr : decode1A (encode (.stw d a c o)) = some (.stw d a c o) := by
    unfold decode1A
    rw [if_pos hf]
    simp (disch := decide) only [encode, fld_or, fld_put_same, fld_put_apart, BitVec.or_zero, fld_const_or]
  have hm : (fld (encode (.stw d a c o)) 26 6).toNat = 26 := by rw [major_of_fits hf (by decide)]; rfl
  exact decode_of_raw (raw1A hm hr) hw

theorem std (d : BitVec 5) (a : BitVec 5) (c : BitVec 4) (o : BitVec 12) : Statement (.std d a c o) := by
  intro _ hw
  have hf : fits (encode (.std d a c o)) 0xFC000000 0x6C000000 = true := (fits_iff _ _ _).mpr (by
    simp (disch := decide) only [encode, BitVec.and_or_distrib_right, put_and_apart, BitVec.or_zero]; rfl)
  have hr : decode1B (encode (.std d a c o)) = some (.std d a c o) := by
    unfold decode1B
    rw [if_pos hf]
    simp (disch := decide) only [encode, fld_or, fld_put_same, fld_put_apart, BitVec.or_zero, fld_const_or]
  have hm : (fld (encode (.std d a c o)) 26 6).toNat = 27 := by rw [major_of_fits hf (by decide)]; rfl
  exact decode_of_raw (raw1B hm hr) hw

theorem aadd (d : BitVec 5) (a : BitVec 5) (b : BitVec 5) (s : BitVec 3) (c : BitVec 4) (w : BitVec 1) : Statement (.aadd d a b s c w) := by
  intro _ hw
  have hf : fits (encode (.aadd d a b s c w)) 0xFC000007 0x70000000 = true := (fits_iff _ _ _).mpr (by
    simp (disch := decide) only [encode, BitVec.and_or_distrib_right, put_and_apart, BitVec.or_zero]; rfl)
  have hr : decode1C (encode (.aadd d a b s c w)) = some (.aadd d a b s c w) := by
    unfold decode1C
    rw [if_pos hf]
    simp (disch := decide) only [encode, fld_or, fld_put_same, fld_put_apart, BitVec.or_zero, fld_const_or]
  have hm : (fld (encode (.aadd d a b s c w)) 26 6).toNat = 28 := by rw [major_of_fits hf (by decide)]; rfl
  exact decode_of_raw (raw1C hm hr) hw

theorem amin (d : BitVec 5) (a : BitVec 5) (b : BitVec 5) (s : BitVec 3) (c : BitVec 4) (w : BitVec 1) : Statement (.amin d a b s c w) := by
  intro _ hw
  have hf : fits (encode (.amin d a b s c w)) 0xFC000007 0x70000001 = true := (fits_iff _ _ _).mpr (by
    simp (disch := decide) only [encode, BitVec.and_or_distrib_right, put_and_apart, BitVec.or_zero]; rfl)
  have hr : decode1C (encode (.amin d a b s c w)) = some (.amin d a b s c w) := by
    unfold decode1C
    iterate 1 rw [if_neg (fits_other hf _ _ (by decide))]
    rw [if_pos hf]
    simp (disch := decide) only [encode, fld_or, fld_put_same, fld_put_apart, BitVec.or_zero, fld_const_or]
  have hm : (fld (encode (.amin d a b s c w)) 26 6).toNat = 28 := by rw [major_of_fits hf (by decide)]; rfl
  exact decode_of_raw (raw1C hm hr) hw

theorem amax (d : BitVec 5) (a : BitVec 5) (b : BitVec 5) (s : BitVec 3) (c : BitVec 4) (w : BitVec 1) : Statement (.amax d a b s c w) := by
  intro _ hw
  have hf : fits (encode (.amax d a b s c w)) 0xFC000007 0x70000002 = true := (fits_iff _ _ _).mpr (by
    simp (disch := decide) only [encode, BitVec.and_or_distrib_right, put_and_apart, BitVec.or_zero]; rfl)
  have hr : decode1C (encode (.amax d a b s c w)) = some (.amax d a b s c w) := by
    unfold decode1C
    iterate 2 rw [if_neg (fits_other hf _ _ (by decide))]
    rw [if_pos hf]
    simp (disch := decide) only [encode, fld_or, fld_put_same, fld_put_apart, BitVec.or_zero, fld_const_or]
  have hm : (fld (encode (.amax d a b s c w)) 26 6).toNat = 28 := by rw [major_of_fits hf (by decide)]; rfl
  exact decode_of_raw (raw1C hm hr) hw

theorem aand (d : BitVec 5) (a : BitVec 5) (b : BitVec 5) (s : BitVec 3) (c : BitVec 4) (w : BitVec 1) : Statement (.aand d a b s c w) := by
  intro _ hw
  have hf : fits (encode (.aand d a b s c w)) 0xFC000007 0x70000003 = true := (fits_iff _ _ _).mpr (by
    simp (disch := decide) only [encode, BitVec.and_or_distrib_right, put_and_apart, BitVec.or_zero]; rfl)
  have hr : decode1C (encode (.aand d a b s c w)) = some (.aand d a b s c w) := by
    unfold decode1C
    iterate 3 rw [if_neg (fits_other hf _ _ (by decide))]
    rw [if_pos hf]
    simp (disch := decide) only [encode, fld_or, fld_put_same, fld_put_apart, BitVec.or_zero, fld_const_or]
  have hm : (fld (encode (.aand d a b s c w)) 26 6).toNat = 28 := by rw [major_of_fits hf (by decide)]; rfl
  exact decode_of_raw (raw1C hm hr) hw

theorem aor (d : BitVec 5) (a : BitVec 5) (b : BitVec 5) (s : BitVec 3) (c : BitVec 4) (w : BitVec 1) : Statement (.aor d a b s c w) := by
  intro _ hw
  have hf : fits (encode (.aor d a b s c w)) 0xFC000007 0x70000004 = true := (fits_iff _ _ _).mpr (by
    simp (disch := decide) only [encode, BitVec.and_or_distrib_right, put_and_apart, BitVec.or_zero]; rfl)
  have hr : decode1C (encode (.aor d a b s c w)) = some (.aor d a b s c w) := by
    unfold decode1C
    iterate 4 rw [if_neg (fits_other hf _ _ (by decide))]
    rw [if_pos hf]
    simp (disch := decide) only [encode, fld_or, fld_put_same, fld_put_apart, BitVec.or_zero, fld_const_or]
  have hm : (fld (encode (.aor d a b s c w)) 26 6).toNat = 28 := by rw [major_of_fits hf (by decide)]; rfl
  exact decode_of_raw (raw1C hm hr) hw

theorem axor (d : BitVec 5) (a : BitVec 5) (b : BitVec 5) (s : BitVec 3) (c : BitVec 4) (w : BitVec 1) : Statement (.axor d a b s c w) := by
  intro _ hw
  have hf : fits (encode (.axor d a b s c w)) 0xFC000007 0x70000005 = true := (fits_iff _ _ _).mpr (by
    simp (disch := decide) only [encode, BitVec.and_or_distrib_right, put_and_apart, BitVec.or_zero]; rfl)
  have hr : decode1C (encode (.axor d a b s c w)) = some (.axor d a b s c w) := by
    unfold decode1C
    iterate 5 rw [if_neg (fits_other hf _ _ (by decide))]
    rw [if_pos hf]
    simp (disch := decide) only [encode, fld_or, fld_put_same, fld_put_apart, BitVec.or_zero, fld_const_or]
  have hm : (fld (encode (.axor d a b s c w)) 26 6).toNat = 28 := by rw [major_of_fits hf (by decide)]; rfl
  exact decode_of_raw (raw1C hm hr) hw

theorem aswap (d : BitVec 5) (a : BitVec 5) (b : BitVec 5) (s : BitVec 3) (c : BitVec 4) (w : BitVec 1) : Statement (.aswap d a b s c w) := by
  intro _ hw
  have hf : fits (encode (.aswap d a b s c w)) 0xFC000007 0x70000006 = true := (fits_iff _ _ _).mpr (by
    simp (disch := decide) only [encode, BitVec.and_or_distrib_right, put_and_apart, BitVec.or_zero]; rfl)
  have hr : decode1C (encode (.aswap d a b s c w)) = some (.aswap d a b s c w) := by
    unfold decode1C
    iterate 6 rw [if_neg (fits_other hf _ _ (by decide))]
    rw [if_pos hf]
    simp (disch := decide) only [encode, fld_or, fld_put_same, fld_put_apart, BitVec.or_zero, fld_const_or]
  have hm : (fld (encode (.aswap d a b s c w)) 26 6).toNat = 28 := by rw [major_of_fits hf (by decide)]; rfl
  exact decode_of_raw (raw1C hm hr) hw

theorem acas (d : BitVec 5) (a : BitVec 5) (b : BitVec 5) (s : BitVec 3) (c : BitVec 4) (w : BitVec 1) : Statement (.acas d a b s c w) := by
  intro _ hw
  have hf : fits (encode (.acas d a b s c w)) 0xFC000007 0x70000007 = true := (fits_iff _ _ _).mpr (by
    simp (disch := decide) only [encode, BitVec.and_or_distrib_right, put_and_apart, BitVec.or_zero]; rfl)
  have hr : decode1C (encode (.acas d a b s c w)) = some (.acas d a b s c w) := by
    unfold decode1C
    iterate 7 rw [if_neg (fits_other hf _ _ (by decide))]
    rw [if_pos hf]
    simp (disch := decide) only [encode, fld_or, fld_put_same, fld_put_apart, BitVec.or_zero, fld_const_or]
  have hm : (fld (encode (.acas d a b s c w)) 26 6).toNat = 28 := by rw [major_of_fits hf (by decide)]; rfl
  exact decode_of_raw (raw1C hm hr) hw

theorem afadd (d : BitVec 5) (a : BitVec 5) (b : BitVec 5) (s : BitVec 3) (c : BitVec 4) (f : BitVec 1) : Statement (.afadd d a b s c f) := by
  intro _ hw
  have hf : fits (encode (.afadd d a b s c f)) 0xFC00000E 0x74000000 = true := (fits_iff _ _ _).mpr (by
    simp (disch := decide) only [encode, BitVec.and_or_distrib_right, put_and_apart, BitVec.or_zero]; rfl)
  have hr : decode1D (encode (.afadd d a b s c f)) = some (.afadd d a b s c f) := by
    unfold decode1D
    rw [if_pos hf]
    simp (disch := decide) only [encode, fld_or, fld_put_same, fld_put_apart, BitVec.or_zero, fld_const_or]
  have hm : (fld (encode (.afadd d a b s c f)) 26 6).toNat = 29 := by rw [major_of_fits hf (by decide)]; rfl
  exact decode_of_raw (raw1D hm hr) hw

theorem fence (m : BitVec 8) (s : BitVec 4) (n : BitVec 8) : Statement (.fence m s n) := by
  intro _ hw
  have hf : fits (encode (.fence m s n)) 0xFF00F000 0x78000000 = true := (fits_iff _ _ _).mpr (by
    simp (disch := decide) only [encode, BitVec.and_or_distrib_right, put_and_apart, BitVec.or_zero]; rfl)
  have hr : decode1E (encode (.fence m s n)) = some (.fence m s n) := by
    unfold decode1E
    rw [if_pos hf]
    simp (disch := decide) only [encode, fld_or, fld_put_same, fld_put_apart, BitVec.or_zero, fld_const_or]
  have hm : (fld (encode (.fence m s n)) 26 6).toNat = 30 := by rw [major_of_fits hf (by decide)]; rfl
  exact decode_of_raw (raw1E hm hr) hw

theorem fenceQ (q : BitVec 5) : Statement (.fenceQ q) := by
  intro _ hw
  have hf : fits (encode (.fenceQ q)) 0xFFFFFFE0 0x78001000 = true := (fits_iff _ _ _).mpr (by
    simp (disch := decide) only [encode, BitVec.and_or_distrib_right, put_and_apart, BitVec.or_zero]; rfl)
  have hr : decode1E (encode (.fenceQ q)) = some (.fenceQ q) := by
    unfold decode1E
    iterate 1 rw [if_neg (fits_other hf _ _ (by decide))]
    rw [if_pos hf]
    simp (disch := decide) only [encode, fld_or, fld_put_same, fld_put_apart, BitVec.or_zero, fld_const_or]
  have hm : (fld (encode (.fenceQ q)) 26 6).toNat = 30 := by rw [major_of_fits hf (by decide)]; rfl
  exact decode_of_raw (raw1E hm hr) hw

theorem fenceArr (s : BitVec 4) (g : BitVec 8) : Statement (.fenceArr s g) := by
  intro _ hw
  have hf : fits (encode (.fenceArr s g)) 0xFFFFF000 0x78002000 = true := (fits_iff _ _ _).mpr (by
    simp (disch := decide) only [encode, BitVec.and_or_distrib_right, put_and_apart, BitVec.or_zero]; rfl)
  have hr : decode1E (encode (.fenceArr s g)) = some (.fenceArr s g) := by
    unfold decode1E
    iterate 2 rw [if_neg (fits_other hf _ _ (by decide))]
    rw [if_pos hf]
    simp (disch := decide) only [encode, fld_or, fld_put_same, fld_put_apart, BitVec.or_zero, fld_const_or]
  have hm : (fld (encode (.fenceArr s g)) 26 6).toNat = 30 := by rw [major_of_fits hf (by decide)]; rfl
  exact decode_of_raw (raw1E hm hr) hw

theorem wpoll (d : BitVec 5) (a : BitVec 5) (s : BitVec 4) : Statement (.wpoll d a s) := by
  intro _ hw
  have hf : fits (encode (.wpoll d a s)) 0xFC00F0FF 0x78003000 = true := (fits_iff _ _ _).mpr (by
    simp (disch := decide) only [encode, BitVec.and_or_distrib_right, put_and_apart, BitVec.or_zero]; rfl)
  have hr : decode1E (encode (.wpoll d a s)) = some (.wpoll d a s) := by
    unfold decode1E
    iterate 3 rw [if_neg (fits_other hf _ _ (by decide))]
    rw [if_pos hf]
    simp (disch := decide) only [encode, fld_or, fld_put_same, fld_put_apart, BitVec.or_zero, fld_const_or]
  have hm : (fld (encode (.wpoll d a s)) 26 6).toNat = 30 := by rw [major_of_fits hf (by decide)]; rfl
  exact decode_of_raw (raw1E hm hr) hw

theorem fenceAcq (m : BitVec 8) (s : BitVec 4) (n : BitVec 8) : Statement (.fenceAcq m s n) := by
  intro _ hw
  have hf : fits (encode (.fenceAcq m s n)) 0xFF00F000 0x78004000 = true := (fits_iff _ _ _).mpr (by
    simp (disch := decide) only [encode, BitVec.and_or_distrib_right, put_and_apart, BitVec.or_zero]; rfl)
  have hr : decode1E (encode (.fenceAcq m s n)) = some (.fenceAcq m s n) := by
    unfold decode1E
    iterate 4 rw [if_neg (fits_other hf _ _ (by decide))]
    rw [if_pos hf]
    simp (disch := decide) only [encode, fld_or, fld_put_same, fld_put_apart, BitVec.or_zero, fld_const_or]
  have hm : (fld (encode (.fenceAcq m s n)) 26 6).toNat = 30 := by rw [major_of_fits hf (by decide)]; rfl
  exact decode_of_raw (raw1E hm hr) hw

theorem fenceRel (m : BitVec 8) (s : BitVec 4) (n : BitVec 8) : Statement (.fenceRel m s n) := by
  intro _ hw
  have hf : fits (encode (.fenceRel m s n)) 0xFF00F000 0x78005000 = true := (fits_iff _ _ _).mpr (by
    simp (disch := decide) only [encode, BitVec.and_or_distrib_right, put_and_apart, BitVec.or_zero]; rfl)
  have hr : decode1E (encode (.fenceRel m s n)) = some (.fenceRel m s n) := by
    unfold decode1E
    iterate 5 rw [if_neg (fits_other hf _ _ (by decide))]
    rw [if_pos hf]
    simp (disch := decide) only [encode, fld_or, fld_put_same, fld_put_apart, BitVec.or_zero, fld_const_or]
  have hm : (fld (encode (.fenceRel m s n)) 26 6).toNat = 30 := by rw [major_of_fits hf (by decide)]; rfl
  exact decode_of_raw (raw1E hm hr) hw

theorem beq (a : BitVec 5) (b : BitVec 5) (o : BitVec 16) : Statement (.beq a b o) := by
  intro _ hw
  have hf : fits (encode (.beq a b o)) 0xFC000000 0x80000000 = true := (fits_iff _ _ _).mpr (by
    simp (disch := decide) only [encode, BitVec.and_or_distrib_right, put_and_apart, BitVec.or_zero]; rfl)
  have hr : decode20 (encode (.beq a b o)) = some (.beq a b o) := by
    unfold decode20
    rw [if_pos hf]
    simp (disch := decide) only [encode, fld_or, fld_put_same, fld_put_apart, BitVec.or_zero, fld_const_or]
  have hm : (fld (encode (.beq a b o)) 26 6).toNat = 32 := by rw [major_of_fits hf (by decide)]; rfl
  exact decode_of_raw (raw20 hm hr) hw

theorem bne (a : BitVec 5) (b : BitVec 5) (o : BitVec 16) : Statement (.bne a b o) := by
  intro _ hw
  have hf : fits (encode (.bne a b o)) 0xFC000000 0x84000000 = true := (fits_iff _ _ _).mpr (by
    simp (disch := decide) only [encode, BitVec.and_or_distrib_right, put_and_apart, BitVec.or_zero]; rfl)
  have hr : decode21 (encode (.bne a b o)) = some (.bne a b o) := by
    unfold decode21
    rw [if_pos hf]
    simp (disch := decide) only [encode, fld_or, fld_put_same, fld_put_apart, BitVec.or_zero, fld_const_or]
  have hm : (fld (encode (.bne a b o)) 26 6).toNat = 33 := by rw [major_of_fits hf (by decide)]; rfl
  exact decode_of_raw (raw21 hm hr) hw

theorem blt (a : BitVec 5) (b : BitVec 5) (o : BitVec 16) : Statement (.blt a b o) := by
  intro _ hw
  have hf : fits (encode (.blt a b o)) 0xFC000000 0x88000000 = true := (fits_iff _ _ _).mpr (by
    simp (disch := decide) only [encode, BitVec.and_or_distrib_right, put_and_apart, BitVec.or_zero]; rfl)
  have hr : decode22 (encode (.blt a b o)) = some (.blt a b o) := by
    unfold decode22
    rw [if_pos hf]
    simp (disch := decide) only [encode, fld_or, fld_put_same, fld_put_apart, BitVec.or_zero, fld_const_or]
  have hm : (fld (encode (.blt a b o)) 26 6).toNat = 34 := by rw [major_of_fits hf (by decide)]; rfl
  exact decode_of_raw (raw22 hm hr) hw

theorem bge (a : BitVec 5) (b : BitVec 5) (o : BitVec 16) : Statement (.bge a b o) := by
  intro _ hw
  have hf : fits (encode (.bge a b o)) 0xFC000000 0x8C000000 = true := (fits_iff _ _ _).mpr (by
    simp (disch := decide) only [encode, BitVec.and_or_distrib_right, put_and_apart, BitVec.or_zero]; rfl)
  have hr : decode23 (encode (.bge a b o)) = some (.bge a b o) := by
    unfold decode23
    rw [if_pos hf]
    simp (disch := decide) only [encode, fld_or, fld_put_same, fld_put_apart, BitVec.or_zero, fld_const_or]
  have hm : (fld (encode (.bge a b o)) 26 6).toNat = 35 := by rw [major_of_fits hf (by decide)]; rfl
  exact decode_of_raw (raw23 hm hr) hw

theorem bltu (a : BitVec 5) (b : BitVec 5) (o : BitVec 16) : Statement (.bltu a b o) := by
  intro _ hw
  have hf : fits (encode (.bltu a b o)) 0xFC000000 0x90000000 = true := (fits_iff _ _ _).mpr (by
    simp (disch := decide) only [encode, BitVec.and_or_distrib_right, put_and_apart, BitVec.or_zero]; rfl)
  have hr : decode24 (encode (.bltu a b o)) = some (.bltu a b o) := by
    unfold decode24
    rw [if_pos hf]
    simp (disch := decide) only [encode, fld_or, fld_put_same, fld_put_apart, BitVec.or_zero, fld_const_or]
  have hm : (fld (encode (.bltu a b o)) 26 6).toNat = 36 := by rw [major_of_fits hf (by decide)]; rfl
  exact decode_of_raw (raw24 hm hr) hw

theorem bgeu (a : BitVec 5) (b : BitVec 5) (o : BitVec 16) : Statement (.bgeu a b o) := by
  intro _ hw
  have hf : fits (encode (.bgeu a b o)) 0xFC000000 0x94000000 = true := (fits_iff _ _ _).mpr (by
    simp (disch := decide) only [encode, BitVec.and_or_distrib_right, put_and_apart, BitVec.or_zero]; rfl)
  have hr : decode25 (encode (.bgeu a b o)) = some (.bgeu a b o) := by
    unfold decode25
    rw [if_pos hf]
    simp (disch := decide) only [encode, fld_or, fld_put_same, fld_put_apart, BitVec.or_zero, fld_const_or]
  have hm : (fld (encode (.bgeu a b o)) 26 6).toNat = 37 := by rw [major_of_fits hf (by decide)]; rfl
  exact decode_of_raw (raw25 hm hr) hw

theorem jmp (o : BitVec 26) : Statement (.jmp o) := by
  intro _ hw
  have hf : fits (encode (.jmp o)) 0xFC000000 0x98000000 = true := (fits_iff _ _ _).mpr (by
    simp (disch := decide) only [encode, BitVec.and_or_distrib_right, put_and_apart, BitVec.or_zero]; rfl)
  have hr : decode26 (encode (.jmp o)) = some (.jmp o) := by
    unfold decode26
    rw [if_pos hf]
    simp (disch := decide) only [encode, fld_or, fld_put_same, fld_put_apart, BitVec.or_zero, fld_const_or]
  have hm : (fld (encode (.jmp o)) 26 6).toNat = 38 := by rw [major_of_fits hf (by decide)]; rfl
  exact decode_of_raw (raw26 hm hr) hw

theorem call (o : BitVec 26) : Statement (.call o) := by
  intro _ hw
  have hf : fits (encode (.call o)) 0xFC000000 0x9C000000 = true := (fits_iff _ _ _).mpr (by
    simp (disch := decide) only [encode, BitVec.and_or_distrib_right, put_and_apart, BitVec.or_zero]; rfl)
  have hr : decode27 (encode (.call o)) = some (.call o) := by
    unfold decode27
    rw [if_pos hf]
    simp (disch := decide) only [encode, fld_or, fld_put_same, fld_put_apart, BitVec.or_zero, fld_const_or]
  have hm : (fld (encode (.call o)) 26 6).toNat = 39 := by rw [major_of_fits hf (by decide)]; rfl
  exact decode_of_raw (raw27 hm hr) hw

theorem jr (a : BitVec 5) : Statement (.jr a) := by
  intro _ hw
  have hf : fits (encode (.jr a)) 0xFFE0FFFF 0xA0000000 = true := (fits_iff _ _ _).mpr (by
    simp (disch := decide) only [encode, BitVec.and_or_distrib_right, put_and_apart, BitVec.or_zero]; rfl)
  have hr : decode28 (encode (.jr a)) = some (.jr a) := by
    unfold decode28
    rw [if_pos hf]
    simp (disch := decide) only [encode, fld_or, fld_put_same, fld_put_apart, BitVec.or_zero, fld_const_or]
  have hm : (fld (encode (.jr a)) 26 6).toNat = 40 := by rw [major_of_fits hf (by decide)]; rfl
  exact decode_of_raw (raw28 hm hr) hw

theorem callr (a : BitVec 5) : Statement (.callr a) := by
  intro _ hw
  have hf : fits (encode (.callr a)) 0xFFE0FFFF 0xA0000001 = true := (fits_iff _ _ _).mpr (by
    simp (disch := decide) only [encode, BitVec.and_or_distrib_right, put_and_apart, BitVec.or_zero]; rfl)
  have hr : decode28 (encode (.callr a)) = some (.callr a) := by
    unfold decode28
    iterate 1 rw [if_neg (fits_other hf _ _ (by decide))]
    rw [if_pos hf]
    simp (disch := decide) only [encode, fld_or, fld_put_same, fld_put_apart, BitVec.or_zero, fld_const_or]
  have hm : (fld (encode (.callr a)) 26 6).toNat = 40 := by rw [major_of_fits hf (by decide)]; rfl
  exact decode_of_raw (raw28 hm hr) hw

theorem sbr (n : BitVec 5) (m : BitVec 4) (s : BitVec 8) (o : BitVec 9) : Statement (.sbr n m s o) := by
  intro _ hw
  have hf : fits (encode (.sbr n m s o)) 0xFC000000 0xA4000000 = true := (fits_iff _ _ _).mpr (by
    simp (disch := decide) only [encode, BitVec.and_or_distrib_right, put_and_apart, BitVec.or_zero]; rfl)
  have hr : decode29 (encode (.sbr n m s o)) = some (.sbr n m s o) := by
    unfold decode29
    rw [if_pos hf]
    simp (disch := decide) only [encode, fld_or, fld_put_same, fld_put_apart, BitVec.or_zero, fld_const_or]
  have hm : (fld (encode (.sbr n m s o)) 26 6).toNat = 41 := by rw [major_of_fits hf (by decide)]; rfl
  exact decode_of_raw (raw29 hm hr) hw

theorem vbr (a : BitVec 3) (o : BitVec 16) : Statement (.vbr a o) := by
  intro _ hw
  have hf : fits (encode (.vbr a o)) 0xFF1F0000 0xA8000000 = true := (fits_iff _ _ _).mpr (by
    simp (disch := decide) only [encode, BitVec.and_or_distrib_right, put_and_apart, BitVec.or_zero]; rfl)
  have hr : decode2A (encode (.vbr a o)) = some (.vbr a o) := by
    unfold decode2A
    rw [if_pos hf]
    simp (disch := decide) only [encode, fld_or, fld_put_same, fld_put_apart, BitVec.or_zero, fld_const_or]
  have hm : (fld (encode (.vbr a o)) 26 6).toNat = 42 := by rw [major_of_fits hf (by decide)]; rfl
  exact decode_of_raw (raw2A hm hr) hw

theorem vjoin (o : BitVec 16) : Statement (.vjoin o) := by
  intro _ hw
  have hf : fits (encode (.vjoin o)) 0xFFFF0000 0xA8010000 = true := (fits_iff _ _ _).mpr (by
    simp (disch := decide) only [encode, BitVec.and_or_distrib_right, put_and_apart, BitVec.or_zero]; rfl)
  have hr : decode2A (encode (.vjoin o)) = some (.vjoin o) := by
    unfold decode2A
    iterate 1 rw [if_neg (fits_other hf _ _ (by decide))]
    rw [if_pos hf]
    simp (disch := decide) only [encode, fld_or, fld_put_same, fld_put_apart, BitVec.or_zero, fld_const_or]
  have hm : (fld (encode (.vjoin o)) 26 6).toNat = 42 := by rw [major_of_fits hf (by decide)]; rfl
  exact decode_of_raw (raw2A hm hr) hw

theorem vbany (a : BitVec 3) (o : BitVec 16) : Statement (.vbany a o) := by
  intro _ hw
  have hf : fits (encode (.vbany a o)) 0xFF1F0000 0xA8020000 = true := (fits_iff _ _ _).mpr (by
    simp (disch := decide) only [encode, BitVec.and_or_distrib_right, put_and_apart, BitVec.or_zero]; rfl)
  have hr : decode2A (encode (.vbany a o)) = some (.vbany a o) := by
    unfold decode2A
    iterate 2 rw [if_neg (fits_other hf _ _ (by decide))]
    rw [if_pos hf]
    simp (disch := decide) only [encode, fld_or, fld_put_same, fld_put_apart, BitVec.or_zero, fld_const_or]
  have hm : (fld (encode (.vbany a o)) 26 6).toNat = 42 := by rw [major_of_fits hf (by decide)]; rfl
  exact decode_of_raw (raw2A hm hr) hw

theorem vball (a : BitVec 3) (o : BitVec 16) : Statement (.vball a o) := by
  intro _ hw
  have hf : fits (encode (.vball a o)) 0xFF1F0000 0xA8030000 = true := (fits_iff _ _ _).mpr (by
    simp (disch := decide) only [encode, BitVec.and_or_distrib_right, put_and_apart, BitVec.or_zero]; rfl)
  have hr : decode2A (encode (.vball a o)) = some (.vball a o) := by
    unfold decode2A
    iterate 3 rw [if_neg (fits_other hf _ _ (by decide))]
    rw [if_pos hf]
    simp (disch := decide) only [encode, fld_or, fld_put_same, fld_put_apart, BitVec.or_zero, fld_const_or]
  have hm : (fld (encode (.vball a o)) 26 6).toNat = 42 := by rw [major_of_fits hf (by decide)]; rfl
  exact decode_of_raw (raw2A hm hr) hw

theorem vloop (s : BitVec 3) (l : BitVec 4) : Statement (.vloop s l) := by
  intro _ hw
  have hf : fits (encode (.vloop s l)) 0xFFF8FFF0 0xAC000000 = true := (fits_iff _ _ _).mpr (by
    simp (disch := decide) only [encode, BitVec.and_or_distrib_right, put_and_apart, BitVec.or_zero]; rfl)
  have hr : decode2B (encode (.vloop s l)) = some (.vloop s l) := by
    unfold decode2B
    rw [if_pos hf]
    simp (disch := decide) only [encode, fld_or, fld_put_same, fld_put_apart, BitVec.or_zero, fld_const_or]
  have hm : (fld (encode (.vloop s l)) 26 6).toNat = 43 := by rw [major_of_fits hf (by decide)]; rfl
  exact decode_of_raw (raw2B hm hr) hw

theorem setvl (d : BitVec 5) (a : BitVec 5) (t : BitVec 12) : Statement (.setvl d a t) := by
  intro _ hw
  have hf : fits (encode (.setvl d a t)) 0xFC00F000 0xB0000000 = true := (fits_iff _ _ _).mpr (by
    simp (disch := decide) only [encode, BitVec.and_or_distrib_right, put_and_apart, BitVec.or_zero]; rfl)
  have hr : decode2C (encode (.setvl d a t)) = some (.setvl d a t) := by
    unfold decode2C
    rw [if_pos hf]
    simp (disch := decide) only [encode, fld_or, fld_put_same, fld_put_apart, BitVec.or_zero, fld_const_or]
  have hm : (fld (encode (.setvl d a t)) 26 6).toNat = 44 := by rw [major_of_fits hf (by decide)]; rfl
  exact decode_of_raw (raw2C hm hr) hw

theorem setvlr (d : BitVec 5) (a : BitVec 5) (b : BitVec 5) : Statement (.setvlr d a b) := by
  intro _ hw
  have hf : fits (encode (.setvlr d a b)) 0xFC00FFE0 0xB0001000 = true := (fits_iff _ _ _).mpr (by
    simp (disch := decide) only [encode, BitVec.and_or_distrib_right, put_and_apart, BitVec.or_zero]; rfl)
  have hr : decode2C (encode (.setvlr d a b)) = some (.setvlr d a b) := by
    unfold decode2C
    iterate 1 rw [if_neg (fits_other hf _ _ (by decide))]
    rw [if_pos hf]
    simp (disch := decide) only [encode, fld_or, fld_put_same, fld_put_apart, BitVec.or_zero, fld_const_or]
  have hm : (fld (encode (.setvlr d a b)) 26 6).toNat = 44 := by rw [major_of_fits hf (by decide)]; rfl
  exact decode_of_raw (raw2C hm hr) hw

theorem cbld (a : BitVec 5) (c : BitVec 4) (n : BitVec 2) : Statement (.cbld a c n) := by
  intro _ hw
  have hf : fits (encode (.cbld a c n)) 0xFFE0F0FC 0xB0002000 = true := (fits_iff _ _ _).mpr (by
    simp (disch := decide) only [encode, BitVec.and_or_distrib_right, put_and_apart, BitVec.or_zero]; rfl)
  have hr : decode2C (encode (.cbld a c n)) = some (.cbld a c n) := by
    unfold decode2C
    iterate 2 rw [if_neg (fits_other hf _ _ (by decide))]
    rw [if_pos hf]
    simp (disch := decide) only [encode, fld_or, fld_put_same, fld_put_apart, BitVec.or_zero, fld_const_or]
  have hm : (fld (encode (.cbld a c n)) 26 6).toNat = 44 := by rw [major_of_fits hf (by decide)]; rfl
  exact decode_of_raw (raw2C hm hr) hw

theorem vld (d : BitVec 5) (a : BitVec 5) (b : BitVec 5) (k : BitVec 3) (c : BitVec 4) : Statement (.vld d a b k c) := by
  intro _ hw
  have hf : fits (encode (.vld d a b k c)) 0xFC00000F 0xB4000000 = true := (fits_iff _ _ _).mpr (by
    simp (disch := decide) only [encode, BitVec.and_or_distrib_right, put_and_apart, BitVec.or_zero]; rfl)
  have hr : decode2D (encode (.vld d a b k c)) = some (.vld d a b k c) := by
    unfold decode2D
    rw [if_pos hf]
    simp (disch := decide) only [encode, fld_or, fld_put_same, fld_put_apart, BitVec.or_zero, fld_const_or]
  have hm : (fld (encode (.vld d a b k c)) 26 6).toNat = 45 := by rw [major_of_fits hf (by decide)]; rfl
  exact decode_of_raw (raw2D hm hr) hw

theorem vlds (d : BitVec 5) (a : BitVec 5) (b : BitVec 5) (k : BitVec 3) (c : BitVec 4) : Statement (.vlds d a b k c) := by
  intro _ hw
  have hf : fits (encode (.vlds d a b k c)) 0xFC00000F 0xB4000002 = true := (fits_iff _ _ _).mpr (by
    simp (disch := decide) only [encode, BitVec.and_or_distrib_right, put_and_apart, BitVec.or_zero]; rfl)
  have hr : decode2D (encode (.vlds d a b k c)) = some (.vlds d a b k c) := by
    unfold decode2D
    iterate 1 rw [if_neg (fits_other hf _ _ (by decide))]
    rw [if_pos hf]
    simp (disch := decide) only [encode, fld_or, fld_put_same, fld_put_apart, BitVec.or_zero, fld_const_or]
  have hm : (fld (encode (.vlds d a b k c)) 26 6).toNat = 45 := by rw [major_of_fits hf (by decide)]; rfl
  exact decode_of_raw (raw2D hm hr) hw

theorem vldx (d : BitVec 5) (a : BitVec 5) (b : BitVec 5) (k : BitVec 3) (c : BitVec 4) : Statement (.vldx d a b k c) := by
  intro _ hw
  have hf : fits (encode (.vldx d a b k c)) 0xFC00000F 0xB4000004 = true := (fits_iff _ _ _).mpr (by
    simp (disch := decide) only [encode, BitVec.and_or_distrib_right, put_and_apart, BitVec.or_zero]; rfl)
  have hr : decode2D (encode (.vldx d a b k c)) = some (.vldx d a b k c) := by
    unfold decode2D
    iterate 2 rw [if_neg (fits_other hf _ _ (by decide))]
    rw [if_pos hf]
    simp (disch := decide) only [encode, fld_or, fld_put_same, fld_put_apart, BitVec.or_zero, fld_const_or]
  have hm : (fld (encode (.vldx d a b k c)) 26 6).toNat = 45 := by rw [major_of_fits hf (by decide)]; rfl
  exact decode_of_raw (raw2D hm hr) hw

theorem vldmx (d : BitVec 5) (a : BitVec 5) (b : BitVec 5) (k : BitVec 3) (c : BitVec 4) : Statement (.vldmx d a b k c) := by
  intro _ hw
  have hf : fits (encode (.vldmx d a b k c)) 0xFC00000F 0xB4000006 = true := (fits_iff _ _ _).mpr (by
    simp (disch := decide) only [encode, BitVec.and_or_distrib_right, put_and_apart, BitVec.or_zero]; rfl)
  have hr : decode2D (encode (.vldmx d a b k c)) = some (.vldmx d a b k c) := by
    unfold decode2D
    iterate 3 rw [if_neg (fits_other hf _ _ (by decide))]
    rw [if_pos hf]
    simp (disch := decide) only [encode, fld_or, fld_put_same, fld_put_apart, BitVec.or_zero, fld_const_or]
  have hm : (fld (encode (.vldmx d a b k c)) 26 6).toNat = 45 := by rw [major_of_fits hf (by decide)]; rfl
  exact decode_of_raw (raw2D hm hr) hw

theorem vsld (d : BitVec 5) (s : BitVec 3) (k : BitVec 3) (c : BitVec 4) : Statement (.vsld d s k c) := by
  intro _ hw
  have hf : fits (encode (.vsld d s k c)) 0xFC18F80F 0xB4000008 = true := (fits_iff _ _ _).mpr (by
    simp (disch := decide) only [encode, BitVec.and_or_distrib_right, put_and_apart, BitVec.or_zero]; rfl)
  have hr : decode2D (encode (.vsld d s k c)) = some (.vsld d s k c) := by
    unfold decode2D
    iterate 4 rw [if_neg (fits_other hf _ _ (by decide))]
    rw [if_pos hf]
    simp (disch := decide) only [encode, fld_or, fld_put_same, fld_put_apart, BitVec.or_zero, fld_const_or]
  have hm : (fld (encode (.vsld d s k c)) 26 6).toNat = 45 := by rw [major_of_fits hf (by decide)]; rfl
  exact decode_of_raw (raw2D hm hr) hw

theorem sdld (s : BitVec 3) (a : BitVec 5) : Statement (.sdld s a) := by
  intro _ hw
  have hf : fits (encode (.sdld s a)) 0xFF00FFFF 0xB400000A = true := (fits_iff _ _ _).mpr (by
    simp (disch := decide) only [encode, BitVec.and_or_distrib_right, put_and_apart, BitVec.or_zero]; rfl)
  have hr : decode2D (encode (.sdld s a)) = some (.sdld s a) := by
    unfold decode2D
    iterate 5 rw [if_neg (fits_other hf _ _ (by decide))]
    rw [if_pos hf]
    simp (disch := decide) only [encode, fld_or, fld_put_same, fld_put_apart, BitVec.or_zero, fld_const_or]
  have hm : (fld (encode (.sdld s a)) 26 6).toNat = 45 := by rw [major_of_fits hf (by decide)]; rfl
  exact decode_of_raw (raw2D hm hr) hw

theorem vst (d : BitVec 5) (a : BitVec 5) (b : BitVec 5) (k : BitVec 3) (c : BitVec 4) : Statement (.vst d a b k c) := by
  intro _ hw
  have hf : fits (encode (.vst d a b k c)) 0xFC00000F 0xB8000000 = true := (fits_iff _ _ _).mpr (by
    simp (disch := decide) only [encode, BitVec.and_or_distrib_right, put_and_apart, BitVec.or_zero]; rfl)
  have hr : decode2E (encode (.vst d a b k c)) = some (.vst d a b k c) := by
    unfold decode2E
    rw [if_pos hf]
    simp (disch := decide) only [encode, fld_or, fld_put_same, fld_put_apart, BitVec.or_zero, fld_const_or]
  have hm : (fld (encode (.vst d a b k c)) 26 6).toNat = 46 := by rw [major_of_fits hf (by decide)]; rfl
  exact decode_of_raw (raw2E hm hr) hw

theorem vsts (d : BitVec 5) (a : BitVec 5) (b : BitVec 5) (k : BitVec 3) (c : BitVec 4) : Statement (.vsts d a b k c) := by
  intro _ hw
  have hf : fits (encode (.vsts d a b k c)) 0xFC00000F 0xB8000002 = true := (fits_iff _ _ _).mpr (by
    simp (disch := decide) only [encode, BitVec.and_or_distrib_right, put_and_apart, BitVec.or_zero]; rfl)
  have hr : decode2E (encode (.vsts d a b k c)) = some (.vsts d a b k c) := by
    unfold decode2E
    iterate 1 rw [if_neg (fits_other hf _ _ (by decide))]
    rw [if_pos hf]
    simp (disch := decide) only [encode, fld_or, fld_put_same, fld_put_apart, BitVec.or_zero, fld_const_or]
  have hm : (fld (encode (.vsts d a b k c)) 26 6).toNat = 46 := by rw [major_of_fits hf (by decide)]; rfl
  exact decode_of_raw (raw2E hm hr) hw

theorem vstx (d : BitVec 5) (a : BitVec 5) (b : BitVec 5) (k : BitVec 3) (c : BitVec 4) : Statement (.vstx d a b k c) := by
  intro _ hw
  have hf : fits (encode (.vstx d a b k c)) 0xFC00000F 0xB8000004 = true := (fits_iff _ _ _).mpr (by
    simp (disch := decide) only [encode, BitVec.and_or_distrib_right, put_and_apart, BitVec.or_zero]; rfl)
  have hr : decode2E (encode (.vstx d a b k c)) = some (.vstx d a b k c) := by
    unfold decode2E
    iterate 2 rw [if_neg (fits_other hf _ _ (by decide))]
    rw [if_pos hf]
    simp (disch := decide) only [encode, fld_or, fld_put_same, fld_put_apart, BitVec.or_zero, fld_const_or]
  have hm : (fld (encode (.vstx d a b k c)) 26 6).toNat = 46 := by rw [major_of_fits hf (by decide)]; rfl
  exact decode_of_raw (raw2E hm hr) hw

theorem vstmx (d : BitVec 5) (a : BitVec 5) (b : BitVec 5) (k : BitVec 3) (c : BitVec 4) : Statement (.vstmx d a b k c) := by
  intro _ hw
  have hf : fits (encode (.vstmx d a b k c)) 0xFC00000F 0xB8000006 = true := (fits_iff _ _ _).mpr (by
    simp (disch := decide) only [encode, BitVec.and_or_distrib_right, put_and_apart, BitVec.or_zero]; rfl)
  have hr : decode2E (encode (.vstmx d a b k c)) = some (.vstmx d a b k c) := by
    unfold decode2E
    iterate 3 rw [if_neg (fits_other hf _ _ (by decide))]
    rw [if_pos hf]
    simp (disch := decide) only [encode, fld_or, fld_put_same, fld_put_apart, BitVec.or_zero, fld_const_or]
  have hm : (fld (encode (.vstmx d a b k c)) 26 6).toNat = 46 := by rw [major_of_fits hf (by decide)]; rfl
  exact decode_of_raw (raw2E hm hr) hw

theorem vsst (d : BitVec 5) (s : BitVec 3) (k : BitVec 3) (c : BitVec 4) : Statement (.vsst d s k c) := by
  intro _ hw
  have hf : fits (encode (.vsst d s k c)) 0xFC18F80F 0xB8000008 = true := (fits_iff _ _ _).mpr (by
    simp (disch := decide) only [encode, BitVec.and_or_distrib_right, put_and_apart, BitVec.or_zero]; rfl)
  have hr : decode2E (encode (.vsst d s k c)) = some (.vsst d s k c) := by
    unfold decode2E
    iterate 4 rw [if_neg (fits_other hf _ _ (by decide))]
    rw [if_pos hf]
    simp (disch := decide) only [encode, fld_or, fld_put_same, fld_put_apart, BitVec.or_zero, fld_const_or]
  have hm : (fld (encode (.vsst d s k c)) 26 6).toNat = 46 := by rw [major_of_fits hf (by decide)]; rfl
  exact decode_of_raw (raw2E hm hr) hw

theorem vscataddDev (d : BitVec 5) (a : BitVec 5) (b : BitVec 5) (k : BitVec 3) (c : BitVec 4) : Statement (.vscataddDev d a b k c) := by
  intro _ hw
  have hf : fits (encode (.vscataddDev d a b k c)) 0xFC00000F 0xB800000A = true := (fits_iff _ _ _).mpr (by
    simp (disch := decide) only [encode, BitVec.and_or_distrib_right, put_and_apart, BitVec.or_zero]; rfl)
  have hr : decode2E (encode (.vscataddDev d a b k c)) = some (.vscataddDev d a b k c) := by
    unfold decode2E
    iterate 5 rw [if_neg (fits_other hf _ _ (by decide))]
    rw [if_pos hf]
    simp (disch := decide) only [encode, fld_or, fld_put_same, fld_put_apart, BitVec.or_zero, fld_const_or]
  have hm : (fld (encode (.vscataddDev d a b k c)) 26 6).toNat = 46 := by rw [major_of_fits hf (by decide)]; rfl
  exact decode_of_raw (raw2E hm hr) hw

theorem vscataddHost (d : BitVec 5) (a : BitVec 5) (b : BitVec 5) (k : BitVec 3) (c : BitVec 4) : Statement (.vscataddHost d a b k c) := by
  intro _ hw
  have hf : fits (encode (.vscataddHost d a b k c)) 0xFC00000F 0xB800000C = true := (fits_iff _ _ _).mpr (by
    simp (disch := decide) only [encode, BitVec.and_or_distrib_right, put_and_apart, BitVec.or_zero]; rfl)
  have hr : decode2E (encode (.vscataddHost d a b k c)) = some (.vscataddHost d a b k c) := by
    unfold decode2E
    iterate 6 rw [if_neg (fits_other hf _ _ (by decide))]
    rw [if_pos hf]
    simp (disch := decide) only [encode, fld_or, fld_put_same, fld_put_apart, BitVec.or_zero, fld_const_or]
  have hm : (fld (encode (.vscataddHost d a b k c)) 26 6).toNat = 46 := by rw [major_of_fits hf (by decide)]; rfl
  exact decode_of_raw (raw2E hm hr) hw

theorem vscataddSys (d : BitVec 5) (a : BitVec 5) (b : BitVec 5) (k : BitVec 3) (c : BitVec 4) : Statement (.vscataddSys d a b k c) := by
  intro _ hw
  have hf : fits (encode (.vscataddSys d a b k c)) 0xFC00000F 0xB800000E = true := (fits_iff _ _ _).mpr (by
    simp (disch := decide) only [encode, BitVec.and_or_distrib_right, put_and_apart, BitVec.or_zero]; rfl)
  have hr : decode2E (encode (.vscataddSys d a b k c)) = some (.vscataddSys d a b k c) := by
    unfold decode2E
    iterate 7 rw [if_neg (fits_other hf _ _ (by decide))]
    rw [if_pos hf]
    simp (disch := decide) only [encode, fld_or, fld_put_same, fld_put_apart, BitVec.or_zero, fld_const_or]
  have hm : (fld (encode (.vscataddSys d a b k c)) 26 6).toNat = 46 := by rw [major_of_fits hf (by decide)]; rfl
  exact decode_of_raw (raw2E hm hr) hw

theorem vadd (x : BitVec 1) (d : BitVec 5) (a : BitVec 5) (b : BitVec 5) (k : BitVec 3) (h : BitVec 2) : Statement (.vadd x d a b k h) := by
  intro _ hw
  rcases bit_cases x with rfl | rfl
  · have hf : fits (encode (.vadd 0#1 d a b k h)) 0xFC00003F 0xC0000000 = true := (fits_iff _ _ _).mpr (by
      simp (disch := decide) only [encode, BitVec.and_or_distrib_right, put_and_apart, BitVec.or_zero]; rfl)
    have hr : decode30 (encode (.vadd 0#1 d a b k h)) = some (.vadd 0#1 d a b k h) := by
      unfold decode30
      rw [if_pos ((fits_iff _ _ _).mpr (by simp (disch := decide) only [encode, BitVec.and_or_distrib_right, put_and_apart, BitVec.or_zero]; rfl))]
      simp (disch := decide) only [encode, fld_or, fld_put_same, fld_put_apart, BitVec.or_zero, fld_const_or]
      rfl
    have hm : (fld (encode (.vadd 0#1 d a b k h)) 26 6).toNat = 48 := by rw [major_of_fits hf (by decide)]; rfl
    exact decode_of_raw (raw30 hm hr) hw
  · have hf : fits (encode (.vadd 1#1 d a b k h)) 0xFC00003F 0xC4000000 = true := (fits_iff _ _ _).mpr (by
      simp (disch := decide) only [encode, BitVec.and_or_distrib_right, put_and_apart, BitVec.or_zero]; rfl)
    have hr : decode30 (encode (.vadd 1#1 d a b k h)) = some (.vadd 1#1 d a b k h) := by
      unfold decode30
      rw [if_pos ((fits_iff _ _ _).mpr (by simp (disch := decide) only [encode, BitVec.and_or_distrib_right, put_and_apart, BitVec.or_zero]; rfl))]
      simp (disch := decide) only [encode, fld_or, fld_put_same, fld_put_apart, BitVec.or_zero, fld_const_or]
    have hm : (fld (encode (.vadd 1#1 d a b k h)) 26 6).toNat = 49 := by rw [major_of_fits hf (by decide)]; rfl
    exact decode_of_raw (raw31 hm hr) hw

theorem vsub (x : BitVec 1) (d : BitVec 5) (a : BitVec 5) (b : BitVec 5) (k : BitVec 3) (h : BitVec 2) : Statement (.vsub x d a b k h) := by
  intro _ hw
  rcases bit_cases x with rfl | rfl
  · have hf : fits (encode (.vsub 0#1 d a b k h)) 0xFC00003F 0xC0000001 = true := (fits_iff _ _ _).mpr (by
      simp (disch := decide) only [encode, BitVec.and_or_distrib_right, put_and_apart, BitVec.or_zero]; rfl)
    have hr : decode30 (encode (.vsub 0#1 d a b k h)) = some (.vsub 0#1 d a b k h) := by
      unfold decode30
      iterate 1 rw [if_neg (fits_other hf _ _ (by decide))]
      rw [if_pos ((fits_iff _ _ _).mpr (by simp (disch := decide) only [encode, BitVec.and_or_distrib_right, put_and_apart, BitVec.or_zero]; rfl))]
      simp (disch := decide) only [encode, fld_or, fld_put_same, fld_put_apart, BitVec.or_zero, fld_const_or]
      rfl
    have hm : (fld (encode (.vsub 0#1 d a b k h)) 26 6).toNat = 48 := by rw [major_of_fits hf (by decide)]; rfl
    exact decode_of_raw (raw30 hm hr) hw
  · have hf : fits (encode (.vsub 1#1 d a b k h)) 0xFC00003F 0xC4000001 = true := (fits_iff _ _ _).mpr (by
      simp (disch := decide) only [encode, BitVec.and_or_distrib_right, put_and_apart, BitVec.or_zero]; rfl)
    have hr : decode30 (encode (.vsub 1#1 d a b k h)) = some (.vsub 1#1 d a b k h) := by
      unfold decode30
      iterate 1 rw [if_neg (fits_other hf _ _ (by decide))]
      rw [if_pos ((fits_iff _ _ _).mpr (by simp (disch := decide) only [encode, BitVec.and_or_distrib_right, put_and_apart, BitVec.or_zero]; rfl))]
      simp (disch := decide) only [encode, fld_or, fld_put_same, fld_put_apart, BitVec.or_zero, fld_const_or]
    have hm : (fld (encode (.vsub 1#1 d a b k h)) 26 6).toNat = 49 := by rw [major_of_fits hf (by decide)]; rfl
    exact decode_of_raw (raw31 hm hr) hw

theorem vsubr (x : BitVec 1) (d : BitVec 5) (a : BitVec 5) (b : BitVec 5) (k : BitVec 3) (h : BitVec 2) : Statement (.vsubr x d a b k h) := by
  intro _ hw
  rcases bit_cases x with rfl | rfl
  · have hf : fits (encode (.vsubr 0#1 d a b k h)) 0xFC00003F 0xC0000002 = true := (fits_iff _ _ _).mpr (by
      simp (disch := decide) only [encode, BitVec.and_or_distrib_right, put_and_apart, BitVec.or_zero]; rfl)
    have hr : decode30 (encode (.vsubr 0#1 d a b k h)) = some (.vsubr 0#1 d a b k h) := by
      unfold decode30
      iterate 2 rw [if_neg (fits_other hf _ _ (by decide))]
      rw [if_pos ((fits_iff _ _ _).mpr (by simp (disch := decide) only [encode, BitVec.and_or_distrib_right, put_and_apart, BitVec.or_zero]; rfl))]
      simp (disch := decide) only [encode, fld_or, fld_put_same, fld_put_apart, BitVec.or_zero, fld_const_or]
      rfl
    have hm : (fld (encode (.vsubr 0#1 d a b k h)) 26 6).toNat = 48 := by rw [major_of_fits hf (by decide)]; rfl
    exact decode_of_raw (raw30 hm hr) hw
  · have hf : fits (encode (.vsubr 1#1 d a b k h)) 0xFC00003F 0xC4000002 = true := (fits_iff _ _ _).mpr (by
      simp (disch := decide) only [encode, BitVec.and_or_distrib_right, put_and_apart, BitVec.or_zero]; rfl)
    have hr : decode30 (encode (.vsubr 1#1 d a b k h)) = some (.vsubr 1#1 d a b k h) := by
      unfold decode30
      iterate 2 rw [if_neg (fits_other hf _ _ (by decide))]
      rw [if_pos ((fits_iff _ _ _).mpr (by simp (disch := decide) only [encode, BitVec.and_or_distrib_right, put_and_apart, BitVec.or_zero]; rfl))]
      simp (disch := decide) only [encode, fld_or, fld_put_same, fld_put_apart, BitVec.or_zero, fld_const_or]
    have hm : (fld (encode (.vsubr 1#1 d a b k h)) 26 6).toNat = 49 := by rw [major_of_fits hf (by decide)]; rfl
    exact decode_of_raw (raw31 hm hr) hw

theorem vmul (x : BitVec 1) (d : BitVec 5) (a : BitVec 5) (b : BitVec 5) (k : BitVec 3) (h : BitVec 2) : Statement (.vmul x d a b k h) := by
  intro _ hw
  rcases bit_cases x with rfl | rfl
  · have hf : fits (encode (.vmul 0#1 d a b k h)) 0xFC00003F 0xC0000003 = true := (fits_iff _ _ _).mpr (by
      simp (disch := decide) only [encode, BitVec.and_or_distrib_right, put_and_apart, BitVec.or_zero]; rfl)
    have hr : decode30 (encode (.vmul 0#1 d a b k h)) = some (.vmul 0#1 d a b k h) := by
      unfold decode30
      iterate 3 rw [if_neg (fits_other hf _ _ (by decide))]
      rw [if_pos ((fits_iff _ _ _).mpr (by simp (disch := decide) only [encode, BitVec.and_or_distrib_right, put_and_apart, BitVec.or_zero]; rfl))]
      simp (disch := decide) only [encode, fld_or, fld_put_same, fld_put_apart, BitVec.or_zero, fld_const_or]
      rfl
    have hm : (fld (encode (.vmul 0#1 d a b k h)) 26 6).toNat = 48 := by rw [major_of_fits hf (by decide)]; rfl
    exact decode_of_raw (raw30 hm hr) hw
  · have hf : fits (encode (.vmul 1#1 d a b k h)) 0xFC00003F 0xC4000003 = true := (fits_iff _ _ _).mpr (by
      simp (disch := decide) only [encode, BitVec.and_or_distrib_right, put_and_apart, BitVec.or_zero]; rfl)
    have hr : decode30 (encode (.vmul 1#1 d a b k h)) = some (.vmul 1#1 d a b k h) := by
      unfold decode30
      iterate 3 rw [if_neg (fits_other hf _ _ (by decide))]
      rw [if_pos ((fits_iff _ _ _).mpr (by simp (disch := decide) only [encode, BitVec.and_or_distrib_right, put_and_apart, BitVec.or_zero]; rfl))]
      simp (disch := decide) only [encode, fld_or, fld_put_same, fld_put_apart, BitVec.or_zero, fld_const_or]
    have hm : (fld (encode (.vmul 1#1 d a b k h)) 26 6).toNat = 49 := by rw [major_of_fits hf (by decide)]; rfl
    exact decode_of_raw (raw31 hm hr) hw

theorem vmulhi (x : BitVec 1) (d : BitVec 5) (a : BitVec 5) (b : BitVec 5) (k : BitVec 3) (h : BitVec 2) : Statement (.vmulhi x d a b k h) := by
  intro _ hw
  rcases bit_cases x with rfl | rfl
  · have hf : fits (encode (.vmulhi 0#1 d a b k h)) 0xFC00003F 0xC0000004 = true := (fits_iff _ _ _).mpr (by
      simp (disch := decide) only [encode, BitVec.and_or_distrib_right, put_and_apart, BitVec.or_zero]; rfl)
    have hr : decode30 (encode (.vmulhi 0#1 d a b k h)) = some (.vmulhi 0#1 d a b k h) := by
      unfold decode30
      iterate 4 rw [if_neg (fits_other hf _ _ (by decide))]
      rw [if_pos ((fits_iff _ _ _).mpr (by simp (disch := decide) only [encode, BitVec.and_or_distrib_right, put_and_apart, BitVec.or_zero]; rfl))]
      simp (disch := decide) only [encode, fld_or, fld_put_same, fld_put_apart, BitVec.or_zero, fld_const_or]
      rfl
    have hm : (fld (encode (.vmulhi 0#1 d a b k h)) 26 6).toNat = 48 := by rw [major_of_fits hf (by decide)]; rfl
    exact decode_of_raw (raw30 hm hr) hw
  · have hf : fits (encode (.vmulhi 1#1 d a b k h)) 0xFC00003F 0xC4000004 = true := (fits_iff _ _ _).mpr (by
      simp (disch := decide) only [encode, BitVec.and_or_distrib_right, put_and_apart, BitVec.or_zero]; rfl)
    have hr : decode30 (encode (.vmulhi 1#1 d a b k h)) = some (.vmulhi 1#1 d a b k h) := by
      unfold decode30
      iterate 4 rw [if_neg (fits_other hf _ _ (by decide))]
      rw [if_pos ((fits_iff _ _ _).mpr (by simp (disch := decide) only [encode, BitVec.and_or_distrib_right, put_and_apart, BitVec.or_zero]; rfl))]
      simp (disch := decide) only [encode, fld_or, fld_put_same, fld_put_apart, BitVec.or_zero, fld_const_or]
    have hm : (fld (encode (.vmulhi 1#1 d a b k h)) 26 6).toNat = 49 := by rw [major_of_fits hf (by decide)]; rfl
    exact decode_of_raw (raw31 hm hr) hw

theorem vdiv (x : BitVec 1) (d : BitVec 5) (a : BitVec 5) (b : BitVec 5) (k : BitVec 3) (h : BitVec 2) : Statement (.vdiv x d a b k h) := by
  intro _ hw
  rcases bit_cases x with rfl | rfl
  · have hf : fits (encode (.vdiv 0#1 d a b k h)) 0xFC00003F 0xC0000005 = true := (fits_iff _ _ _).mpr (by
      simp (disch := decide) only [encode, BitVec.and_or_distrib_right, put_and_apart, BitVec.or_zero]; rfl)
    have hr : decode30 (encode (.vdiv 0#1 d a b k h)) = some (.vdiv 0#1 d a b k h) := by
      unfold decode30
      iterate 5 rw [if_neg (fits_other hf _ _ (by decide))]
      rw [if_pos ((fits_iff _ _ _).mpr (by simp (disch := decide) only [encode, BitVec.and_or_distrib_right, put_and_apart, BitVec.or_zero]; rfl))]
      simp (disch := decide) only [encode, fld_or, fld_put_same, fld_put_apart, BitVec.or_zero, fld_const_or]
      rfl
    have hm : (fld (encode (.vdiv 0#1 d a b k h)) 26 6).toNat = 48 := by rw [major_of_fits hf (by decide)]; rfl
    exact decode_of_raw (raw30 hm hr) hw
  · have hf : fits (encode (.vdiv 1#1 d a b k h)) 0xFC00003F 0xC4000005 = true := (fits_iff _ _ _).mpr (by
      simp (disch := decide) only [encode, BitVec.and_or_distrib_right, put_and_apart, BitVec.or_zero]; rfl)
    have hr : decode30 (encode (.vdiv 1#1 d a b k h)) = some (.vdiv 1#1 d a b k h) := by
      unfold decode30
      iterate 5 rw [if_neg (fits_other hf _ _ (by decide))]
      rw [if_pos ((fits_iff _ _ _).mpr (by simp (disch := decide) only [encode, BitVec.and_or_distrib_right, put_and_apart, BitVec.or_zero]; rfl))]
      simp (disch := decide) only [encode, fld_or, fld_put_same, fld_put_apart, BitVec.or_zero, fld_const_or]
    have hm : (fld (encode (.vdiv 1#1 d a b k h)) 26 6).toNat = 49 := by rw [major_of_fits hf (by decide)]; rfl
    exact decode_of_raw (raw31 hm hr) hw

theorem vrem (x : BitVec 1) (d : BitVec 5) (a : BitVec 5) (b : BitVec 5) (k : BitVec 3) (h : BitVec 2) : Statement (.vrem x d a b k h) := by
  intro _ hw
  rcases bit_cases x with rfl | rfl
  · have hf : fits (encode (.vrem 0#1 d a b k h)) 0xFC00003F 0xC0000006 = true := (fits_iff _ _ _).mpr (by
      simp (disch := decide) only [encode, BitVec.and_or_distrib_right, put_and_apart, BitVec.or_zero]; rfl)
    have hr : decode30 (encode (.vrem 0#1 d a b k h)) = some (.vrem 0#1 d a b k h) := by
      unfold decode30
      iterate 6 rw [if_neg (fits_other hf _ _ (by decide))]
      rw [if_pos ((fits_iff _ _ _).mpr (by simp (disch := decide) only [encode, BitVec.and_or_distrib_right, put_and_apart, BitVec.or_zero]; rfl))]
      simp (disch := decide) only [encode, fld_or, fld_put_same, fld_put_apart, BitVec.or_zero, fld_const_or]
      rfl
    have hm : (fld (encode (.vrem 0#1 d a b k h)) 26 6).toNat = 48 := by rw [major_of_fits hf (by decide)]; rfl
    exact decode_of_raw (raw30 hm hr) hw
  · have hf : fits (encode (.vrem 1#1 d a b k h)) 0xFC00003F 0xC4000006 = true := (fits_iff _ _ _).mpr (by
      simp (disch := decide) only [encode, BitVec.and_or_distrib_right, put_and_apart, BitVec.or_zero]; rfl)
    have hr : decode30 (encode (.vrem 1#1 d a b k h)) = some (.vrem 1#1 d a b k h) := by
      unfold decode30
      iterate 6 rw [if_neg (fits_other hf _ _ (by decide))]
      rw [if_pos ((fits_iff _ _ _).mpr (by simp (disch := decide) only [encode, BitVec.and_or_distrib_right, put_and_apart, BitVec.or_zero]; rfl))]
      simp (disch := decide) only [encode, fld_or, fld_put_same, fld_put_apart, BitVec.or_zero, fld_const_or]
    have hm : (fld (encode (.vrem 1#1 d a b k h)) 26 6).toNat = 49 := by rw [major_of_fits hf (by decide)]; rfl
    exact decode_of_raw (raw31 hm hr) hw

theorem vmin (x : BitVec 1) (d : BitVec 5) (a : BitVec 5) (b : BitVec 5) (k : BitVec 3) (h : BitVec 2) : Statement (.vmin x d a b k h) := by
  intro _ hw
  rcases bit_cases x with rfl | rfl
  · have hf : fits (encode (.vmin 0#1 d a b k h)) 0xFC00003F 0xC0000007 = true := (fits_iff _ _ _).mpr (by
      simp (disch := decide) only [encode, BitVec.and_or_distrib_right, put_and_apart, BitVec.or_zero]; rfl)
    have hr : decode30 (encode (.vmin 0#1 d a b k h)) = some (.vmin 0#1 d a b k h) := by
      unfold decode30
      iterate 7 rw [if_neg (fits_other hf _ _ (by decide))]
      rw [if_pos ((fits_iff _ _ _).mpr (by simp (disch := decide) only [encode, BitVec.and_or_distrib_right, put_and_apart, BitVec.or_zero]; rfl))]
      simp (disch := decide) only [encode, fld_or, fld_put_same, fld_put_apart, BitVec.or_zero, fld_const_or]
      rfl
    have hm : (fld (encode (.vmin 0#1 d a b k h)) 26 6).toNat = 48 := by rw [major_of_fits hf (by decide)]; rfl
    exact decode_of_raw (raw30 hm hr) hw
  · have hf : fits (encode (.vmin 1#1 d a b k h)) 0xFC00003F 0xC4000007 = true := (fits_iff _ _ _).mpr (by
      simp (disch := decide) only [encode, BitVec.and_or_distrib_right, put_and_apart, BitVec.or_zero]; rfl)
    have hr : decode30 (encode (.vmin 1#1 d a b k h)) = some (.vmin 1#1 d a b k h) := by
      unfold decode30
      iterate 7 rw [if_neg (fits_other hf _ _ (by decide))]
      rw [if_pos ((fits_iff _ _ _).mpr (by simp (disch := decide) only [encode, BitVec.and_or_distrib_right, put_and_apart, BitVec.or_zero]; rfl))]
      simp (disch := decide) only [encode, fld_or, fld_put_same, fld_put_apart, BitVec.or_zero, fld_const_or]
    have hm : (fld (encode (.vmin 1#1 d a b k h)) 26 6).toNat = 49 := by rw [major_of_fits hf (by decide)]; rfl
    exact decode_of_raw (raw31 hm hr) hw

theorem vmax (x : BitVec 1) (d : BitVec 5) (a : BitVec 5) (b : BitVec 5) (k : BitVec 3) (h : BitVec 2) : Statement (.vmax x d a b k h) := by
  intro _ hw
  rcases bit_cases x with rfl | rfl
  · have hf : fits (encode (.vmax 0#1 d a b k h)) 0xFC00003F 0xC0000008 = true := (fits_iff _ _ _).mpr (by
      simp (disch := decide) only [encode, BitVec.and_or_distrib_right, put_and_apart, BitVec.or_zero]; rfl)
    have hr : decode30 (encode (.vmax 0#1 d a b k h)) = some (.vmax 0#1 d a b k h) := by
      unfold decode30
      iterate 8 rw [if_neg (fits_other hf _ _ (by decide))]
      rw [if_pos ((fits_iff _ _ _).mpr (by simp (disch := decide) only [encode, BitVec.and_or_distrib_right, put_and_apart, BitVec.or_zero]; rfl))]
      simp (disch := decide) only [encode, fld_or, fld_put_same, fld_put_apart, BitVec.or_zero, fld_const_or]
      rfl
    have hm : (fld (encode (.vmax 0#1 d a b k h)) 26 6).toNat = 48 := by rw [major_of_fits hf (by decide)]; rfl
    exact decode_of_raw (raw30 hm hr) hw
  · have hf : fits (encode (.vmax 1#1 d a b k h)) 0xFC00003F 0xC4000008 = true := (fits_iff _ _ _).mpr (by
      simp (disch := decide) only [encode, BitVec.and_or_distrib_right, put_and_apart, BitVec.or_zero]; rfl)
    have hr : decode30 (encode (.vmax 1#1 d a b k h)) = some (.vmax 1#1 d a b k h) := by
      unfold decode30
      iterate 8 rw [if_neg (fits_other hf _ _ (by decide))]
      rw [if_pos ((fits_iff _ _ _).mpr (by simp (disch := decide) only [encode, BitVec.and_or_distrib_right, put_and_apart, BitVec.or_zero]; rfl))]
      simp (disch := decide) only [encode, fld_or, fld_put_same, fld_put_apart, BitVec.or_zero, fld_const_or]
    have hm : (fld (encode (.vmax 1#1 d a b k h)) 26 6).toNat = 49 := by rw [major_of_fits hf (by decide)]; rfl
    exact decode_of_raw (raw31 hm hr) hw

theorem vand (x : BitVec 1) (d : BitVec 5) (a : BitVec 5) (b : BitVec 5) (k : BitVec 3) (h : BitVec 2) : Statement (.vand x d a b k h) := by
  intro _ hw
  rcases bit_cases x with rfl | rfl
  · have hf : fits (encode (.vand 0#1 d a b k h)) 0xFC00003F 0xC0000009 = true := (fits_iff _ _ _).mpr (by
      simp (disch := decide) only [encode, BitVec.and_or_distrib_right, put_and_apart, BitVec.or_zero]; rfl)
    have hr : decode30 (encode (.vand 0#1 d a b k h)) = some (.vand 0#1 d a b k h) := by
      unfold decode30
      iterate 9 rw [if_neg (fits_other hf _ _ (by decide))]
      rw [if_pos ((fits_iff _ _ _).mpr (by simp (disch := decide) only [encode, BitVec.and_or_distrib_right, put_and_apart, BitVec.or_zero]; rfl))]
      simp (disch := decide) only [encode, fld_or, fld_put_same, fld_put_apart, BitVec.or_zero, fld_const_or]
      rfl
    have hm : (fld (encode (.vand 0#1 d a b k h)) 26 6).toNat = 48 := by rw [major_of_fits hf (by decide)]; rfl
    exact decode_of_raw (raw30 hm hr) hw
  · have hf : fits (encode (.vand 1#1 d a b k h)) 0xFC00003F 0xC4000009 = true := (fits_iff _ _ _).mpr (by
      simp (disch := decide) only [encode, BitVec.and_or_distrib_right, put_and_apart, BitVec.or_zero]; rfl)
    have hr : decode30 (encode (.vand 1#1 d a b k h)) = some (.vand 1#1 d a b k h) := by
      unfold decode30
      iterate 9 rw [if_neg (fits_other hf _ _ (by decide))]
      rw [if_pos ((fits_iff _ _ _).mpr (by simp (disch := decide) only [encode, BitVec.and_or_distrib_right, put_and_apart, BitVec.or_zero]; rfl))]
      simp (disch := decide) only [encode, fld_or, fld_put_same, fld_put_apart, BitVec.or_zero, fld_const_or]
    have hm : (fld (encode (.vand 1#1 d a b k h)) 26 6).toNat = 49 := by rw [major_of_fits hf (by decide)]; rfl
    exact decode_of_raw (raw31 hm hr) hw

theorem vor (x : BitVec 1) (d : BitVec 5) (a : BitVec 5) (b : BitVec 5) (k : BitVec 3) (h : BitVec 2) : Statement (.vor x d a b k h) := by
  intro _ hw
  rcases bit_cases x with rfl | rfl
  · have hf : fits (encode (.vor 0#1 d a b k h)) 0xFC00003F 0xC000000A = true := (fits_iff _ _ _).mpr (by
      simp (disch := decide) only [encode, BitVec.and_or_distrib_right, put_and_apart, BitVec.or_zero]; rfl)
    have hr : decode30 (encode (.vor 0#1 d a b k h)) = some (.vor 0#1 d a b k h) := by
      unfold decode30
      iterate 10 rw [if_neg (fits_other hf _ _ (by decide))]
      rw [if_pos ((fits_iff _ _ _).mpr (by simp (disch := decide) only [encode, BitVec.and_or_distrib_right, put_and_apart, BitVec.or_zero]; rfl))]
      simp (disch := decide) only [encode, fld_or, fld_put_same, fld_put_apart, BitVec.or_zero, fld_const_or]
      rfl
    have hm : (fld (encode (.vor 0#1 d a b k h)) 26 6).toNat = 48 := by rw [major_of_fits hf (by decide)]; rfl
    exact decode_of_raw (raw30 hm hr) hw
  · have hf : fits (encode (.vor 1#1 d a b k h)) 0xFC00003F 0xC400000A = true := (fits_iff _ _ _).mpr (by
      simp (disch := decide) only [encode, BitVec.and_or_distrib_right, put_and_apart, BitVec.or_zero]; rfl)
    have hr : decode30 (encode (.vor 1#1 d a b k h)) = some (.vor 1#1 d a b k h) := by
      unfold decode30
      iterate 10 rw [if_neg (fits_other hf _ _ (by decide))]
      rw [if_pos ((fits_iff _ _ _).mpr (by simp (disch := decide) only [encode, BitVec.and_or_distrib_right, put_and_apart, BitVec.or_zero]; rfl))]
      simp (disch := decide) only [encode, fld_or, fld_put_same, fld_put_apart, BitVec.or_zero, fld_const_or]
    have hm : (fld (encode (.vor 1#1 d a b k h)) 26 6).toNat = 49 := by rw [major_of_fits hf (by decide)]; rfl
    exact decode_of_raw (raw31 hm hr) hw

theorem vxor (x : BitVec 1) (d : BitVec 5) (a : BitVec 5) (b : BitVec 5) (k : BitVec 3) (h : BitVec 2) : Statement (.vxor x d a b k h) := by
  intro _ hw
  rcases bit_cases x with rfl | rfl
  · have hf : fits (encode (.vxor 0#1 d a b k h)) 0xFC00003F 0xC000000B = true := (fits_iff _ _ _).mpr (by
      simp (disch := decide) only [encode, BitVec.and_or_distrib_right, put_and_apart, BitVec.or_zero]; rfl)
    have hr : decode30 (encode (.vxor 0#1 d a b k h)) = some (.vxor 0#1 d a b k h) := by
      unfold decode30
      iterate 11 rw [if_neg (fits_other hf _ _ (by decide))]
      rw [if_pos ((fits_iff _ _ _).mpr (by simp (disch := decide) only [encode, BitVec.and_or_distrib_right, put_and_apart, BitVec.or_zero]; rfl))]
      simp (disch := decide) only [encode, fld_or, fld_put_same, fld_put_apart, BitVec.or_zero, fld_const_or]
      rfl
    have hm : (fld (encode (.vxor 0#1 d a b k h)) 26 6).toNat = 48 := by rw [major_of_fits hf (by decide)]; rfl
    exact decode_of_raw (raw30 hm hr) hw
  · have hf : fits (encode (.vxor 1#1 d a b k h)) 0xFC00003F 0xC400000B = true := (fits_iff _ _ _).mpr (by
      simp (disch := decide) only [encode, BitVec.and_or_distrib_right, put_and_apart, BitVec.or_zero]; rfl)
    have hr : decode30 (encode (.vxor 1#1 d a b k h)) = some (.vxor 1#1 d a b k h) := by
      unfold decode30
      iterate 11 rw [if_neg (fits_other hf _ _ (by decide))]
      rw [if_pos ((fits_iff _ _ _).mpr (by simp (disch := decide) only [encode, BitVec.and_or_distrib_right, put_and_apart, BitVec.or_zero]; rfl))]
      simp (disch := decide) only [encode, fld_or, fld_put_same, fld_put_apart, BitVec.or_zero, fld_const_or]
    have hm : (fld (encode (.vxor 1#1 d a b k h)) 26 6).toNat = 49 := by rw [major_of_fits hf (by decide)]; rfl
    exact decode_of_raw (raw31 hm hr) hw

theorem vshl (x : BitVec 1) (d : BitVec 5) (a : BitVec 5) (b : BitVec 5) (k : BitVec 3) (h : BitVec 2) : Statement (.vshl x d a b k h) := by
  intro _ hw
  rcases bit_cases x with rfl | rfl
  · have hf : fits (encode (.vshl 0#1 d a b k h)) 0xFC00003F 0xC000000C = true := (fits_iff _ _ _).mpr (by
      simp (disch := decide) only [encode, BitVec.and_or_distrib_right, put_and_apart, BitVec.or_zero]; rfl)
    have hr : decode30 (encode (.vshl 0#1 d a b k h)) = some (.vshl 0#1 d a b k h) := by
      unfold decode30
      iterate 12 rw [if_neg (fits_other hf _ _ (by decide))]
      rw [if_pos ((fits_iff _ _ _).mpr (by simp (disch := decide) only [encode, BitVec.and_or_distrib_right, put_and_apart, BitVec.or_zero]; rfl))]
      simp (disch := decide) only [encode, fld_or, fld_put_same, fld_put_apart, BitVec.or_zero, fld_const_or]
      rfl
    have hm : (fld (encode (.vshl 0#1 d a b k h)) 26 6).toNat = 48 := by rw [major_of_fits hf (by decide)]; rfl
    exact decode_of_raw (raw30 hm hr) hw
  · have hf : fits (encode (.vshl 1#1 d a b k h)) 0xFC00003F 0xC400000C = true := (fits_iff _ _ _).mpr (by
      simp (disch := decide) only [encode, BitVec.and_or_distrib_right, put_and_apart, BitVec.or_zero]; rfl)
    have hr : decode30 (encode (.vshl 1#1 d a b k h)) = some (.vshl 1#1 d a b k h) := by
      unfold decode30
      iterate 12 rw [if_neg (fits_other hf _ _ (by decide))]
      rw [if_pos ((fits_iff _ _ _).mpr (by simp (disch := decide) only [encode, BitVec.and_or_distrib_right, put_and_apart, BitVec.or_zero]; rfl))]
      simp (disch := decide) only [encode, fld_or, fld_put_same, fld_put_apart, BitVec.or_zero, fld_const_or]
    have hm : (fld (encode (.vshl 1#1 d a b k h)) 26 6).toNat = 49 := by rw [major_of_fits hf (by decide)]; rfl
    exact decode_of_raw (raw31 hm hr) hw

theorem vshr (x : BitVec 1) (d : BitVec 5) (a : BitVec 5) (b : BitVec 5) (k : BitVec 3) (h : BitVec 2) : Statement (.vshr x d a b k h) := by
  intro _ hw
  rcases bit_cases x with rfl | rfl
  · have hf : fits (encode (.vshr 0#1 d a b k h)) 0xFC00003F 0xC000000D = true := (fits_iff _ _ _).mpr (by
      simp (disch := decide) only [encode, BitVec.and_or_distrib_right, put_and_apart, BitVec.or_zero]; rfl)
    have hr : decode30 (encode (.vshr 0#1 d a b k h)) = some (.vshr 0#1 d a b k h) := by
      unfold decode30
      iterate 13 rw [if_neg (fits_other hf _ _ (by decide))]
      rw [if_pos ((fits_iff _ _ _).mpr (by simp (disch := decide) only [encode, BitVec.and_or_distrib_right, put_and_apart, BitVec.or_zero]; rfl))]
      simp (disch := decide) only [encode, fld_or, fld_put_same, fld_put_apart, BitVec.or_zero, fld_const_or]
      rfl
    have hm : (fld (encode (.vshr 0#1 d a b k h)) 26 6).toNat = 48 := by rw [major_of_fits hf (by decide)]; rfl
    exact decode_of_raw (raw30 hm hr) hw
  · have hf : fits (encode (.vshr 1#1 d a b k h)) 0xFC00003F 0xC400000D = true := (fits_iff _ _ _).mpr (by
      simp (disch := decide) only [encode, BitVec.and_or_distrib_right, put_and_apart, BitVec.or_zero]; rfl)
    have hr : decode30 (encode (.vshr 1#1 d a b k h)) = some (.vshr 1#1 d a b k h) := by
      unfold decode30
      iterate 13 rw [if_neg (fits_other hf _ _ (by decide))]
      rw [if_pos ((fits_iff _ _ _).mpr (by simp (disch := decide) only [encode, BitVec.and_or_distrib_right, put_and_apart, BitVec.or_zero]; rfl))]
      simp (disch := decide) only [encode, fld_or, fld_put_same, fld_put_apart, BitVec.or_zero, fld_const_or]
    have hm : (fld (encode (.vshr 1#1 d a b k h)) 26 6).toNat = 49 := by rw [major_of_fits hf (by decide)]; rfl
    exact decode_of_raw (raw31 hm hr) hw

theorem vaddsat (x : BitVec 1) (d : BitVec 5) (a : BitVec 5) (b : BitVec 5) (k : BitVec 3) (h : BitVec 2) : Statement (.vaddsat x d a b k h) := by
  intro _ hw
  rcases bit_cases x with rfl | rfl
  · have hf : fits (encode (.vaddsat 0#1 d a b k h)) 0xFC00003F 0xC000000E = true := (fits_iff _ _ _).mpr (by
      simp (disch := decide) only [encode, BitVec.and_or_distrib_right, put_and_apart, BitVec.or_zero]; rfl)
    have hr : decode30 (encode (.vaddsat 0#1 d a b k h)) = some (.vaddsat 0#1 d a b k h) := by
      unfold decode30
      iterate 14 rw [if_neg (fits_other hf _ _ (by decide))]
      rw [if_pos ((fits_iff _ _ _).mpr (by simp (disch := decide) only [encode, BitVec.and_or_distrib_right, put_and_apart, BitVec.or_zero]; rfl))]
      simp (disch := decide) only [encode, fld_or, fld_put_same, fld_put_apart, BitVec.or_zero, fld_const_or]
      rfl
    have hm : (fld (encode (.vaddsat 0#1 d a b k h)) 26 6).toNat = 48 := by rw [major_of_fits hf (by decide)]; rfl
    exact decode_of_raw (raw30 hm hr) hw
  · have hf : fits (encode (.vaddsat 1#1 d a b k h)) 0xFC00003F 0xC400000E = true := (fits_iff _ _ _).mpr (by
      simp (disch := decide) only [encode, BitVec.and_or_distrib_right, put_and_apart, BitVec.or_zero]; rfl)
    have hr : decode30 (encode (.vaddsat 1#1 d a b k h)) = some (.vaddsat 1#1 d a b k h) := by
      unfold decode30
      iterate 14 rw [if_neg (fits_other hf _ _ (by decide))]
      rw [if_pos ((fits_iff _ _ _).mpr (by simp (disch := decide) only [encode, BitVec.and_or_distrib_right, put_and_apart, BitVec.or_zero]; rfl))]
      simp (disch := decide) only [encode, fld_or, fld_put_same, fld_put_apart, BitVec.or_zero, fld_const_or]
    have hm : (fld (encode (.vaddsat 1#1 d a b k h)) 26 6).toNat = 49 := by rw [major_of_fits hf (by decide)]; rfl
    exact decode_of_raw (raw31 hm hr) hw

theorem vsubsat (x : BitVec 1) (d : BitVec 5) (a : BitVec 5) (b : BitVec 5) (k : BitVec 3) (h : BitVec 2) : Statement (.vsubsat x d a b k h) := by
  intro _ hw
  rcases bit_cases x with rfl | rfl
  · have hf : fits (encode (.vsubsat 0#1 d a b k h)) 0xFC00003F 0xC000000F = true := (fits_iff _ _ _).mpr (by
      simp (disch := decide) only [encode, BitVec.and_or_distrib_right, put_and_apart, BitVec.or_zero]; rfl)
    have hr : decode30 (encode (.vsubsat 0#1 d a b k h)) = some (.vsubsat 0#1 d a b k h) := by
      unfold decode30
      iterate 15 rw [if_neg (fits_other hf _ _ (by decide))]
      rw [if_pos ((fits_iff _ _ _).mpr (by simp (disch := decide) only [encode, BitVec.and_or_distrib_right, put_and_apart, BitVec.or_zero]; rfl))]
      simp (disch := decide) only [encode, fld_or, fld_put_same, fld_put_apart, BitVec.or_zero, fld_const_or]
      rfl
    have hm : (fld (encode (.vsubsat 0#1 d a b k h)) 26 6).toNat = 48 := by rw [major_of_fits hf (by decide)]; rfl
    exact decode_of_raw (raw30 hm hr) hw
  · have hf : fits (encode (.vsubsat 1#1 d a b k h)) 0xFC00003F 0xC400000F = true := (fits_iff _ _ _).mpr (by
      simp (disch := decide) only [encode, BitVec.and_or_distrib_right, put_and_apart, BitVec.or_zero]; rfl)
    have hr : decode30 (encode (.vsubsat 1#1 d a b k h)) = some (.vsubsat 1#1 d a b k h) := by
      unfold decode30
      iterate 15 rw [if_neg (fits_other hf _ _ (by decide))]
      rw [if_pos ((fits_iff _ _ _).mpr (by simp (disch := decide) only [encode, BitVec.and_or_distrib_right, put_and_apart, BitVec.or_zero]; rfl))]
      simp (disch := decide) only [encode, fld_or, fld_put_same, fld_put_apart, BitVec.or_zero, fld_const_or]
    have hm : (fld (encode (.vsubsat 1#1 d a b k h)) 26 6).toNat = 49 := by rw [major_of_fits hf (by decide)]; rfl
    exact decode_of_raw (raw31 hm hr) hw

theorem vmad (x : BitVec 1) (d : BitVec 5) (a : BitVec 5) (b : BitVec 5) (k : BitVec 3) (h : BitVec 2) : Statement (.vmad x d a b k h) := by
  intro _ hw
  rcases bit_cases x with rfl | rfl
  · have hf : fits (encode (.vmad 0#1 d a b k h)) 0xFC00003F 0xC0000010 = true := (fits_iff _ _ _).mpr (by
      simp (disch := decide) only [encode, BitVec.and_or_distrib_right, put_and_apart, BitVec.or_zero]; rfl)
    have hr : decode30 (encode (.vmad 0#1 d a b k h)) = some (.vmad 0#1 d a b k h) := by
      unfold decode30
      iterate 16 rw [if_neg (fits_other hf _ _ (by decide))]
      rw [if_pos ((fits_iff _ _ _).mpr (by simp (disch := decide) only [encode, BitVec.and_or_distrib_right, put_and_apart, BitVec.or_zero]; rfl))]
      simp (disch := decide) only [encode, fld_or, fld_put_same, fld_put_apart, BitVec.or_zero, fld_const_or]
      rfl
    have hm : (fld (encode (.vmad 0#1 d a b k h)) 26 6).toNat = 48 := by rw [major_of_fits hf (by decide)]; rfl
    exact decode_of_raw (raw30 hm hr) hw
  · have hf : fits (encode (.vmad 1#1 d a b k h)) 0xFC00003F 0xC4000010 = true := (fits_iff _ _ _).mpr (by
      simp (disch := decide) only [encode, BitVec.and_or_distrib_right, put_and_apart, BitVec.or_zero]; rfl)
    have hr : decode30 (encode (.vmad 1#1 d a b k h)) = some (.vmad 1#1 d a b k h) := by
      unfold decode30
      iterate 16 rw [if_neg (fits_other hf _ _ (by decide))]
      rw [if_pos ((fits_iff _ _ _).mpr (by simp (disch := decide) only [encode, BitVec.and_or_distrib_right, put_and_apart, BitVec.or_zero]; rfl))]
      simp (disch := decide) only [encode, fld_or, fld_put_same, fld_put_apart, BitVec.or_zero, fld_const_or]
    have hm : (fld (encode (.vmad 1#1 d a b k h)) 26 6).toNat = 49 := by rw [major_of_fits hf (by decide)]; rfl
    exact decode_of_raw (raw31 hm hr) hw

theorem vcopy (x : BitVec 1) (d : BitVec 5) (b : BitVec 5) (k : BitVec 3) (h : BitVec 2) : Statement (.vcopy x d b k h) := by
  intro _ hw
  rcases bit_cases x with rfl | rfl
  · have hf : fits (encode (.vcopy 0#1 d b k h)) 0xFC1F003F 0xC0000011 = true := (fits_iff _ _ _).mpr (by
      simp (disch := decide) only [encode, BitVec.and_or_distrib_right, put_and_apart, BitVec.or_zero]; rfl)
    have hr : decode30 (encode (.vcopy 0#1 d b k h)) = some (.vcopy 0#1 d b k h) := by
      unfold decode30
      iterate 17 rw [if_neg (fits_other hf _ _ (by decide))]
      rw [if_pos ((fits_iff _ _ _).mpr (by simp (disch := decide) only [encode, BitVec.and_or_distrib_right, put_and_apart, BitVec.or_zero]; rfl))]
      simp (disch := decide) only [encode, fld_or, fld_put_same, fld_put_apart, BitVec.or_zero, fld_const_or]
      rfl
    have hm : (fld (encode (.vcopy 0#1 d b k h)) 26 6).toNat = 48 := by rw [major_of_fits hf (by decide)]; rfl
    exact decode_of_raw (raw30 hm hr) hw
  · have hf : fits (encode (.vcopy 1#1 d b k h)) 0xFC1F003F 0xC4000011 = true := (fits_iff _ _ _).mpr (by
      simp (disch := decide) only [encode, BitVec.and_or_distrib_right, put_and_apart, BitVec.or_zero]; rfl)
    have hr : decode30 (encode (.vcopy 1#1 d b k h)) = some (.vcopy 1#1 d b k h) := by
      unfold decode30
      iterate 17 rw [if_neg (fits_other hf _ _ (by decide))]
      rw [if_pos ((fits_iff _ _ _).mpr (by simp (disch := decide) only [encode, BitVec.and_or_distrib_right, put_and_apart, BitVec.or_zero]; rfl))]
      simp (disch := decide) only [encode, fld_or, fld_put_same, fld_put_apart, BitVec.or_zero, fld_const_or]
    have hm : (fld (encode (.vcopy 1#1 d b k h)) 26 6).toNat = 49 := by rw [major_of_fits hf (by decide)]; rfl
    exact decode_of_raw (raw31 hm hr) hw

theorem vfadd (x : BitVec 1) (d : BitVec 5) (a : BitVec 5) (b : BitVec 5) (k : BitVec 3) (h : BitVec 2) : Statement (.vfadd x d a b k h) := by
  intro _ hw
  rcases bit_cases x with rfl | rfl
  · have hf : fits (encode (.vfadd 0#1 d a b k h)) 0xFC00003F 0xC8000000 = true := (fits_iff _ _ _).mpr (by
      simp (disch := decide) only [encode, BitVec.and_or_distrib_right, put_and_apart, BitVec.or_zero]; rfl)
    have hr : decode32 (encode (.vfadd 0#1 d a b k h)) = some (.vfadd 0#1 d a b k h) := by
      unfold decode32
      rw [if_pos ((fits_iff _ _ _).mpr (by simp (disch := decide) only [encode, BitVec.and_or_distrib_right, put_and_apart, BitVec.or_zero]; rfl))]
      simp (disch := decide) only [encode, fld_or, fld_put_same, fld_put_apart, BitVec.or_zero, fld_const_or]
      rfl
    have hm : (fld (encode (.vfadd 0#1 d a b k h)) 26 6).toNat = 50 := by rw [major_of_fits hf (by decide)]; rfl
    exact decode_of_raw (raw32 hm hr) hw
  · have hf : fits (encode (.vfadd 1#1 d a b k h)) 0xFC00003F 0xCC000000 = true := (fits_iff _ _ _).mpr (by
      simp (disch := decide) only [encode, BitVec.and_or_distrib_right, put_and_apart, BitVec.or_zero]; rfl)
    have hr : decode32 (encode (.vfadd 1#1 d a b k h)) = some (.vfadd 1#1 d a b k h) := by
      unfold decode32
      rw [if_pos ((fits_iff _ _ _).mpr (by simp (disch := decide) only [encode, BitVec.and_or_distrib_right, put_and_apart, BitVec.or_zero]; rfl))]
      simp (disch := decide) only [encode, fld_or, fld_put_same, fld_put_apart, BitVec.or_zero, fld_const_or]
    have hm : (fld (encode (.vfadd 1#1 d a b k h)) 26 6).toNat = 51 := by rw [major_of_fits hf (by decide)]; rfl
    exact decode_of_raw (raw33 hm hr) hw

theorem vfsub (x : BitVec 1) (d : BitVec 5) (a : BitVec 5) (b : BitVec 5) (k : BitVec 3) (h : BitVec 2) : Statement (.vfsub x d a b k h) := by
  intro _ hw
  rcases bit_cases x with rfl | rfl
  · have hf : fits (encode (.vfsub 0#1 d a b k h)) 0xFC00003F 0xC8000001 = true := (fits_iff _ _ _).mpr (by
      simp (disch := decide) only [encode, BitVec.and_or_distrib_right, put_and_apart, BitVec.or_zero]; rfl)
    have hr : decode32 (encode (.vfsub 0#1 d a b k h)) = some (.vfsub 0#1 d a b k h) := by
      unfold decode32
      iterate 1 rw [if_neg (fits_other hf _ _ (by decide))]
      rw [if_pos ((fits_iff _ _ _).mpr (by simp (disch := decide) only [encode, BitVec.and_or_distrib_right, put_and_apart, BitVec.or_zero]; rfl))]
      simp (disch := decide) only [encode, fld_or, fld_put_same, fld_put_apart, BitVec.or_zero, fld_const_or]
      rfl
    have hm : (fld (encode (.vfsub 0#1 d a b k h)) 26 6).toNat = 50 := by rw [major_of_fits hf (by decide)]; rfl
    exact decode_of_raw (raw32 hm hr) hw
  · have hf : fits (encode (.vfsub 1#1 d a b k h)) 0xFC00003F 0xCC000001 = true := (fits_iff _ _ _).mpr (by
      simp (disch := decide) only [encode, BitVec.and_or_distrib_right, put_and_apart, BitVec.or_zero]; rfl)
    have hr : decode32 (encode (.vfsub 1#1 d a b k h)) = some (.vfsub 1#1 d a b k h) := by
      unfold decode32
      iterate 1 rw [if_neg (fits_other hf _ _ (by decide))]
      rw [if_pos ((fits_iff _ _ _).mpr (by simp (disch := decide) only [encode, BitVec.and_or_distrib_right, put_and_apart, BitVec.or_zero]; rfl))]
      simp (disch := decide) only [encode, fld_or, fld_put_same, fld_put_apart, BitVec.or_zero, fld_const_or]
    have hm : (fld (encode (.vfsub 1#1 d a b k h)) 26 6).toNat = 51 := by rw [major_of_fits hf (by decide)]; rfl
    exact decode_of_raw (raw33 hm hr) hw

theorem vfsubr (x : BitVec 1) (d : BitVec 5) (a : BitVec 5) (b : BitVec 5) (k : BitVec 3) (h : BitVec 2) : Statement (.vfsubr x d a b k h) := by
  intro _ hw
  rcases bit_cases x with rfl | rfl
  · have hf : fits (encode (.vfsubr 0#1 d a b k h)) 0xFC00003F 0xC8000002 = true := (fits_iff _ _ _).mpr (by
      simp (disch := decide) only [encode, BitVec.and_or_distrib_right, put_and_apart, BitVec.or_zero]; rfl)
    have hr : decode32 (encode (.vfsubr 0#1 d a b k h)) = some (.vfsubr 0#1 d a b k h) := by
      unfold decode32
      iterate 2 rw [if_neg (fits_other hf _ _ (by decide))]
      rw [if_pos ((fits_iff _ _ _).mpr (by simp (disch := decide) only [encode, BitVec.and_or_distrib_right, put_and_apart, BitVec.or_zero]; rfl))]
      simp (disch := decide) only [encode, fld_or, fld_put_same, fld_put_apart, BitVec.or_zero, fld_const_or]
      rfl
    have hm : (fld (encode (.vfsubr 0#1 d a b k h)) 26 6).toNat = 50 := by rw [major_of_fits hf (by decide)]; rfl
    exact decode_of_raw (raw32 hm hr) hw
  · have hf : fits (encode (.vfsubr 1#1 d a b k h)) 0xFC00003F 0xCC000002 = true := (fits_iff _ _ _).mpr (by
      simp (disch := decide) only [encode, BitVec.and_or_distrib_right, put_and_apart, BitVec.or_zero]; rfl)
    have hr : decode32 (encode (.vfsubr 1#1 d a b k h)) = some (.vfsubr 1#1 d a b k h) := by
      unfold decode32
      iterate 2 rw [if_neg (fits_other hf _ _ (by decide))]
      rw [if_pos ((fits_iff _ _ _).mpr (by simp (disch := decide) only [encode, BitVec.and_or_distrib_right, put_and_apart, BitVec.or_zero]; rfl))]
      simp (disch := decide) only [encode, fld_or, fld_put_same, fld_put_apart, BitVec.or_zero, fld_const_or]
    have hm : (fld (encode (.vfsubr 1#1 d a b k h)) 26 6).toNat = 51 := by rw [major_of_fits hf (by decide)]; rfl
    exact decode_of_raw (raw33 hm hr) hw

theorem vfmul (x : BitVec 1) (d : BitVec 5) (a : BitVec 5) (b : BitVec 5) (k : BitVec 3) (h : BitVec 2) : Statement (.vfmul x d a b k h) := by
  intro _ hw
  rcases bit_cases x with rfl | rfl
  · have hf : fits (encode (.vfmul 0#1 d a b k h)) 0xFC00003F 0xC8000003 = true := (fits_iff _ _ _).mpr (by
      simp (disch := decide) only [encode, BitVec.and_or_distrib_right, put_and_apart, BitVec.or_zero]; rfl)
    have hr : decode32 (encode (.vfmul 0#1 d a b k h)) = some (.vfmul 0#1 d a b k h) := by
      unfold decode32
      iterate 3 rw [if_neg (fits_other hf _ _ (by decide))]
      rw [if_pos ((fits_iff _ _ _).mpr (by simp (disch := decide) only [encode, BitVec.and_or_distrib_right, put_and_apart, BitVec.or_zero]; rfl))]
      simp (disch := decide) only [encode, fld_or, fld_put_same, fld_put_apart, BitVec.or_zero, fld_const_or]
      rfl
    have hm : (fld (encode (.vfmul 0#1 d a b k h)) 26 6).toNat = 50 := by rw [major_of_fits hf (by decide)]; rfl
    exact decode_of_raw (raw32 hm hr) hw
  · have hf : fits (encode (.vfmul 1#1 d a b k h)) 0xFC00003F 0xCC000003 = true := (fits_iff _ _ _).mpr (by
      simp (disch := decide) only [encode, BitVec.and_or_distrib_right, put_and_apart, BitVec.or_zero]; rfl)
    have hr : decode32 (encode (.vfmul 1#1 d a b k h)) = some (.vfmul 1#1 d a b k h) := by
      unfold decode32
      iterate 3 rw [if_neg (fits_other hf _ _ (by decide))]
      rw [if_pos ((fits_iff _ _ _).mpr (by simp (disch := decide) only [encode, BitVec.and_or_distrib_right, put_and_apart, BitVec.or_zero]; rfl))]
      simp (disch := decide) only [encode, fld_or, fld_put_same, fld_put_apart, BitVec.or_zero, fld_const_or]
    have hm : (fld (encode (.vfmul 1#1 d a b k h)) 26 6).toNat = 51 := by rw [major_of_fits hf (by decide)]; rfl
    exact decode_of_raw (raw33 hm hr) hw

theorem vfdiv (x : BitVec 1) (d : BitVec 5) (a : BitVec 5) (b : BitVec 5) (k : BitVec 3) (h : BitVec 2) : Statement (.vfdiv x d a b k h) := by
  intro _ hw
  rcases bit_cases x with rfl | rfl
  · have hf : fits (encode (.vfdiv 0#1 d a b k h)) 0xFC00003F 0xC8000004 = true := (fits_iff _ _ _).mpr (by
      simp (disch := decide) only [encode, BitVec.and_or_distrib_right, put_and_apart, BitVec.or_zero]; rfl)
    have hr : decode32 (encode (.vfdiv 0#1 d a b k h)) = some (.vfdiv 0#1 d a b k h) := by
      unfold decode32
      iterate 4 rw [if_neg (fits_other hf _ _ (by decide))]
      rw [if_pos ((fits_iff _ _ _).mpr (by simp (disch := decide) only [encode, BitVec.and_or_distrib_right, put_and_apart, BitVec.or_zero]; rfl))]
      simp (disch := decide) only [encode, fld_or, fld_put_same, fld_put_apart, BitVec.or_zero, fld_const_or]
      rfl
    have hm : (fld (encode (.vfdiv 0#1 d a b k h)) 26 6).toNat = 50 := by rw [major_of_fits hf (by decide)]; rfl
    exact decode_of_raw (raw32 hm hr) hw
  · have hf : fits (encode (.vfdiv 1#1 d a b k h)) 0xFC00003F 0xCC000004 = true := (fits_iff _ _ _).mpr (by
      simp (disch := decide) only [encode, BitVec.and_or_distrib_right, put_and_apart, BitVec.or_zero]; rfl)
    have hr : decode32 (encode (.vfdiv 1#1 d a b k h)) = some (.vfdiv 1#1 d a b k h) := by
      unfold decode32
      iterate 4 rw [if_neg (fits_other hf _ _ (by decide))]
      rw [if_pos ((fits_iff _ _ _).mpr (by simp (disch := decide) only [encode, BitVec.and_or_distrib_right, put_and_apart, BitVec.or_zero]; rfl))]
      simp (disch := decide) only [encode, fld_or, fld_put_same, fld_put_apart, BitVec.or_zero, fld_const_or]
    have hm : (fld (encode (.vfdiv 1#1 d a b k h)) 26 6).toNat = 51 := by rw [major_of_fits hf (by decide)]; rfl
    exact decode_of_raw (raw33 hm hr) hw

theorem vfsqrt (d : BitVec 5) (a : BitVec 5) (k : BitVec 3) (h : BitVec 2) : Statement (.vfsqrt d a k h) := by
  intro _ hw
  have hf : fits (encode (.vfsqrt d a k h)) 0xFC00F83F 0xC8000005 = true := (fits_iff _ _ _).mpr (by
    simp (disch := decide) only [encode, BitVec.and_or_distrib_right, put_and_apart, BitVec.or_zero]; rfl)
  have hr : decode32 (encode (.vfsqrt d a k h)) = some (.vfsqrt d a k h) := by
    unfold decode32
    iterate 5 rw [if_neg (fits_other hf _ _ (by decide))]
    rw [if_pos hf]
    simp (disch := decide) only [encode, fld_or, fld_put_same, fld_put_apart, BitVec.or_zero, fld_const_or]
  have hm : (fld (encode (.vfsqrt d a k h)) 26 6).toNat = 50 := by rw [major_of_fits hf (by decide)]; rfl
  exact decode_of_raw (raw32 hm hr) hw

theorem vfmin (x : BitVec 1) (d : BitVec 5) (a : BitVec 5) (b : BitVec 5) (k : BitVec 3) (h : BitVec 2) : Statement (.vfmin x d a b k h) := by
  intro _ hw
  rcases bit_cases x with rfl | rfl
  · have hf : fits (encode (.vfmin 0#1 d a b k h)) 0xFC00003F 0xC8000006 = true := (fits_iff _ _ _).mpr (by
      simp (disch := decide) only [encode, BitVec.and_or_distrib_right, put_and_apart, BitVec.or_zero]; rfl)
    have hr : decode32 (encode (.vfmin 0#1 d a b k h)) = some (.vfmin 0#1 d a b k h) := by
      unfold decode32
      iterate 6 rw [if_neg (fits_other hf _ _ (by decide))]
      rw [if_pos ((fits_iff _ _ _).mpr (by simp (disch := decide) only [encode, BitVec.and_or_distrib_right, put_and_apart, BitVec.or_zero]; rfl))]
      simp (disch := decide) only [encode, fld_or, fld_put_same, fld_put_apart, BitVec.or_zero, fld_const_or]
      rfl
    have hm : (fld (encode (.vfmin 0#1 d a b k h)) 26 6).toNat = 50 := by rw [major_of_fits hf (by decide)]; rfl
    exact decode_of_raw (raw32 hm hr) hw
  · have hf : fits (encode (.vfmin 1#1 d a b k h)) 0xFC00003F 0xCC000006 = true := (fits_iff _ _ _).mpr (by
      simp (disch := decide) only [encode, BitVec.and_or_distrib_right, put_and_apart, BitVec.or_zero]; rfl)
    have hr : decode32 (encode (.vfmin 1#1 d a b k h)) = some (.vfmin 1#1 d a b k h) := by
      unfold decode32
      iterate 6 rw [if_neg (fits_other hf _ _ (by decide))]
      rw [if_pos ((fits_iff _ _ _).mpr (by simp (disch := decide) only [encode, BitVec.and_or_distrib_right, put_and_apart, BitVec.or_zero]; rfl))]
      simp (disch := decide) only [encode, fld_or, fld_put_same, fld_put_apart, BitVec.or_zero, fld_const_or]
    have hm : (fld (encode (.vfmin 1#1 d a b k h)) 26 6).toNat = 51 := by rw [major_of_fits hf (by decide)]; rfl
    exact decode_of_raw (raw33 hm hr) hw

theorem vfmax (x : BitVec 1) (d : BitVec 5) (a : BitVec 5) (b : BitVec 5) (k : BitVec 3) (h : BitVec 2) : Statement (.vfmax x d a b k h) := by
  intro _ hw
  rcases bit_cases x with rfl | rfl
  · have hf : fits (encode (.vfmax 0#1 d a b k h)) 0xFC00003F 0xC8000007 = true := (fits_iff _ _ _).mpr (by
      simp (disch := decide) only [encode, BitVec.and_or_distrib_right, put_and_apart, BitVec.or_zero]; rfl)
    have hr : decode32 (encode (.vfmax 0#1 d a b k h)) = some (.vfmax 0#1 d a b k h) := by
      unfold decode32
      iterate 7 rw [if_neg (fits_other hf _ _ (by decide))]
      rw [if_pos ((fits_iff _ _ _).mpr (by simp (disch := decide) only [encode, BitVec.and_or_distrib_right, put_and_apart, BitVec.or_zero]; rfl))]
      simp (disch := decide) only [encode, fld_or, fld_put_same, fld_put_apart, BitVec.or_zero, fld_const_or]
      rfl
    have hm : (fld (encode (.vfmax 0#1 d a b k h)) 26 6).toNat = 50 := by rw [major_of_fits hf (by decide)]; rfl
    exact decode_of_raw (raw32 hm hr) hw
  · have hf : fits (encode (.vfmax 1#1 d a b k h)) 0xFC00003F 0xCC000007 = true := (fits_iff _ _ _).mpr (by
      simp (disch := decide) only [encode, BitVec.and_or_distrib_right, put_and_apart, BitVec.or_zero]; rfl)
    have hr : decode32 (encode (.vfmax 1#1 d a b k h)) = some (.vfmax 1#1 d a b k h) := by
      unfold decode32
      iterate 7 rw [if_neg (fits_other hf _ _ (by decide))]
      rw [if_pos ((fits_iff _ _ _).mpr (by simp (disch := decide) only [encode, BitVec.and_or_distrib_right, put_and_apart, BitVec.or_zero]; rfl))]
      simp (disch := decide) only [encode, fld_or, fld_put_same, fld_put_apart, BitVec.or_zero, fld_const_or]
    have hm : (fld (encode (.vfmax 1#1 d a b k h)) 26 6).toNat = 51 := by rw [major_of_fits hf (by decide)]; rfl
    exact decode_of_raw (raw33 hm hr) hw

theorem vfmad (x : BitVec 1) (d : BitVec 5) (a : BitVec 5) (b : BitVec 5) (k : BitVec 3) (h : BitVec 2) : Statement (.vfmad x d a b k h) := by
  intro _ hw
  rcases bit_cases x with rfl | rfl
  · have hf : fits (encode (.vfmad 0#1 d a b k h)) 0xFC00003F 0xC8000008 = true := (fits_iff _ _ _).mpr (by
      simp (disch := decide) only [encode, BitVec.and_or_distrib_right, put_and_apart, BitVec.or_zero]; rfl)
    have hr : decode32 (encode (.vfmad 0#1 d a b k h)) = some (.vfmad 0#1 d a b k h) := by
      unfold decode32
      iterate 8 rw [if_neg (fits_other hf _ _ (by decide))]
      rw [if_pos ((fits_iff _ _ _).mpr (by simp (disch := decide) only [encode, BitVec.and_or_distrib_right, put_and_apart, BitVec.or_zero]; rfl))]
      simp (disch := decide) only [encode, fld_or, fld_put_same, fld_put_apart, BitVec.or_zero, fld_const_or]
      rfl
    have hm : (fld (encode (.vfmad 0#1 d a b k h)) 26 6).toNat = 50 := by rw [major_of_fits hf (by decide)]; rfl
    exact decode_of_raw (raw32 hm hr) hw
  · have hf : fits (encode (.vfmad 1#1 d a b k h)) 0xFC00003F 0xCC000008 = true := (fits_iff _ _ _).mpr (by
      simp (disch := decide) only [encode, BitVec.and_or_distrib_right, put_and_apart, BitVec.or_zero]; rfl)
    have hr : decode32 (encode (.vfmad 1#1 d a b k h)) = some (.vfmad 1#1 d a b k h) := by
      unfold decode32
      iterate 8 rw [if_neg (fits_other hf _ _ (by decide))]
      rw [if_pos ((fits_iff _ _ _).mpr (by simp (disch := decide) only [encode, BitVec.and_or_distrib_right, put_and_apart, BitVec.or_zero]; rfl))]
      simp (disch := decide) only [encode, fld_or, fld_put_same, fld_put_apart, BitVec.or_zero, fld_const_or]
    have hm : (fld (encode (.vfmad 1#1 d a b k h)) 26 6).toNat = 51 := by rw [major_of_fits hf (by decide)]; rfl
    exact decode_of_raw (raw33 hm hr) hw

theorem vfmsb (x : BitVec 1) (d : BitVec 5) (a : BitVec 5) (b : BitVec 5) (k : BitVec 3) (h : BitVec 2) : Statement (.vfmsb x d a b k h) := by
  intro _ hw
  rcases bit_cases x with rfl | rfl
  · have hf : fits (encode (.vfmsb 0#1 d a b k h)) 0xFC00003F 0xC8000009 = true := (fits_iff _ _ _).mpr (by
      simp (disch := decide) only [encode, BitVec.and_or_distrib_right, put_and_apart, BitVec.or_zero]; rfl)
    have hr : decode32 (encode (.vfmsb 0#1 d a b k h)) = some (.vfmsb 0#1 d a b k h) := by
      unfold decode32
      iterate 9 rw [if_neg (fits_other hf _ _ (by decide))]
      rw [if_pos ((fits_iff _ _ _).mpr (by simp (disch := decide) only [encode, BitVec.and_or_distrib_right, put_and_apart, BitVec.or_zero]; rfl))]
      simp (disch := decide) only [encode, fld_or, fld_put_same, fld_put_apart, BitVec.or_zero, fld_const_or]
      rfl
    have hm : (fld (encode (.vfmsb 0#1 d a b k h)) 26 6).toNat = 50 := by rw [major_of_fits hf (by decide)]; rfl
    exact decode_of_raw (raw32 hm hr) hw
  · have hf : fits (encode (.vfmsb 1#1 d a b k h)) 0xFC00003F 0xCC000009 = true := (fits_iff _ _ _).mpr (by
      simp (disch := decide) only [encode, BitVec.and_or_distrib_right, put_and_apart, BitVec.or_zero]; rfl)
    have hr : decode32 (encode (.vfmsb 1#1 d a b k h)) = some (.vfmsb 1#1 d a b k h) := by
      unfold decode32
      iterate 9 rw [if_neg (fits_other hf _ _ (by decide))]
      rw [if_pos ((fits_iff _ _ _).mpr (by simp (disch := decide) only [encode, BitVec.and_or_distrib_right, put_and_apart, BitVec.or_zero]; rfl))]
      simp (disch := decide) only [encode, fld_or, fld_put_same, fld_put_apart, BitVec.or_zero, fld_const_or]
    have hm : (fld (encode (.vfmsb 1#1 d a b k h)) 26 6).toNat = 51 := by rw [major_of_fits hf (by decide)]; rfl
    exact decode_of_raw (raw33 hm hr) hw

theorem vfabs (d : BitVec 5) (a : BitVec 5) (k : BitVec 3) (h : BitVec 2) : Statement (.vfabs d a k h) := by
  intro _ hw
  have hf : fits (encode (.vfabs d a k h)) 0xFC00F83F 0xC800000A = true := (fits_iff _ _ _).mpr (by
    simp (disch := decide) only [encode, BitVec.and_or_distrib_right, put_and_apart, BitVec.or_zero]; rfl)
  have hr : decode32 (encode (.vfabs d a k h)) = some (.vfabs d a k h) := by
    unfold decode32
    iterate 10 rw [if_neg (fits_other hf _ _ (by decide))]
    rw [if_pos hf]
    simp (disch := decide) only [encode, fld_or, fld_put_same, fld_put_apart, BitVec.or_zero, fld_const_or]
  have hm : (fld (encode (.vfabs d a k h)) 26 6).toNat = 50 := by rw [major_of_fits hf (by decide)]; rfl
  exact decode_of_raw (raw32 hm hr) hw

theorem vfneg (d : BitVec 5) (a : BitVec 5) (k : BitVec 3) (h : BitVec 2) : Statement (.vfneg d a k h) := by
  intro _ hw
  have hf : fits (encode (.vfneg d a k h)) 0xFC00F83F 0xC800000B = true := (fits_iff _ _ _).mpr (by
    simp (disch := decide) only [encode, BitVec.and_or_distrib_right, put_and_apart, BitVec.or_zero]; rfl)
  have hr : decode32 (encode (.vfneg d a k h)) = some (.vfneg d a k h) := by
    unfold decode32
    iterate 11 rw [if_neg (fits_other hf _ _ (by decide))]
    rw [if_pos hf]
    simp (disch := decide) only [encode, fld_or, fld_put_same, fld_put_apart, BitVec.or_zero, fld_const_or]
  have hm : (fld (encode (.vfneg d a k h)) 26 6).toNat = 50 := by rw [major_of_fits hf (by decide)]; rfl
  exact decode_of_raw (raw32 hm hr) hw

theorem vfcsgn (x : BitVec 1) (d : BitVec 5) (a : BitVec 5) (b : BitVec 5) (k : BitVec 3) (h : BitVec 2) : Statement (.vfcsgn x d a b k h) := by
  intro _ hw
  rcases bit_cases x with rfl | rfl
  · have hf : fits (encode (.vfcsgn 0#1 d a b k h)) 0xFC00003F 0xC800000C = true := (fits_iff _ _ _).mpr (by
      simp (disch := decide) only [encode, BitVec.and_or_distrib_right, put_and_apart, BitVec.or_zero]; rfl)
    have hr : decode32 (encode (.vfcsgn 0#1 d a b k h)) = some (.vfcsgn 0#1 d a b k h) := by
      unfold decode32
      iterate 12 rw [if_neg (fits_other hf _ _ (by decide))]
      rw [if_pos ((fits_iff _ _ _).mpr (by simp (disch := decide) only [encode, BitVec.and_or_distrib_right, put_and_apart, BitVec.or_zero]; rfl))]
      simp (disch := decide) only [encode, fld_or, fld_put_same, fld_put_apart, BitVec.or_zero, fld_const_or]
      rfl
    have hm : (fld (encode (.vfcsgn 0#1 d a b k h)) 26 6).toNat = 50 := by rw [major_of_fits hf (by decide)]; rfl
    exact decode_of_raw (raw32 hm hr) hw
  · have hf : fits (encode (.vfcsgn 1#1 d a b k h)) 0xFC00003F 0xCC00000C = true := (fits_iff _ _ _).mpr (by
      simp (disch := decide) only [encode, BitVec.and_or_distrib_right, put_and_apart, BitVec.or_zero]; rfl)
    have hr : decode32 (encode (.vfcsgn 1#1 d a b k h)) = some (.vfcsgn 1#1 d a b k h) := by
      unfold decode32
      iterate 12 rw [if_neg (fits_other hf _ _ (by decide))]
      rw [if_pos ((fits_iff _ _ _).mpr (by simp (disch := decide) only [encode, BitVec.and_or_distrib_right, put_and_apart, BitVec.or_zero]; rfl))]
      simp (disch := decide) only [encode, fld_or, fld_put_same, fld_put_apart, BitVec.or_zero, fld_const_or]
    have hm : (fld (encode (.vfcsgn 1#1 d a b k h)) 26 6).toNat = 51 := by rw [major_of_fits hf (by decide)]; rfl
    exact decode_of_raw (raw33 hm hr) hw

theorem vfcopy (x : BitVec 1) (d : BitVec 5) (b : BitVec 5) (k : BitVec 3) (h : BitVec 2) : Statement (.vfcopy x d b k h) := by
  intro _ hw
  rcases bit_cases x with rfl | rfl
  · have hf : fits (encode (.vfcopy 0#1 d b k h)) 0xFC1F003F 0xC800000D = true := (fits_iff _ _ _).mpr (by
      simp (disch := decide) only [encode, BitVec.and_or_distrib_right, put_and_apart, BitVec.or_zero]; rfl)
    have hr : decode32 (encode (.vfcopy 0#1 d b k h)) = some (.vfcopy 0#1 d b k h) := by
      unfold decode32
      iterate 13 rw [if_neg (fits_other hf _ _ (by decide))]
      rw [if_pos ((fits_iff _ _ _).mpr (by simp (disch := decide) only [encode, BitVec.and_or_distrib_right, put_and_apart, BitVec.or_zero]; rfl))]
      simp (disch := decide) only [encode, fld_or, fld_put_same, fld_put_apart, BitVec.or_zero, fld_const_or]
      rfl
    have hm : (fld (encode (.vfcopy 0#1 d b k h)) 26 6).toNat = 50 := by rw [major_of_fits hf (by decide)]; rfl
    exact decode_of_raw (raw32 hm hr) hw
  · have hf : fits (encode (.vfcopy 1#1 d b k h)) 0xFC1F003F 0xCC00000D = true := (fits_iff _ _ _).mpr (by
      simp (disch := decide) only [encode, BitVec.and_or_distrib_right, put_and_apart, BitVec.or_zero]; rfl)
    have hr : decode32 (encode (.vfcopy 1#1 d b k h)) = some (.vfcopy 1#1 d b k h) := by
      unfold decode32
      iterate 13 rw [if_neg (fits_other hf _ _ (by decide))]
      rw [if_pos ((fits_iff _ _ _).mpr (by simp (disch := decide) only [encode, BitVec.and_or_distrib_right, put_and_apart, BitVec.or_zero]; rfl))]
      simp (disch := decide) only [encode, fld_or, fld_put_same, fld_put_apart, BitVec.or_zero, fld_const_or]
    have hm : (fld (encode (.vfcopy 1#1 d b k h)) 26 6).toNat = 51 := by rw [major_of_fits hf (by decide)]; rfl
    exact decode_of_raw (raw33 hm hr) hw

theorem vcmpeq (d : BitVec 3) (a : BitVec 5) (b : BitVec 5) (k : BitVec 3) (h : BitVec 2) (x : BitVec 1) : Statement (.vcmpeq d a b k h x) := by
  intro _ hw
  have hf : fits (encode (.vcmpeq d a b k h x)) 0xFF000037 0xD0000000 = true := (fits_iff _ _ _).mpr (by
    simp (disch := decide) only [encode, BitVec.and_or_distrib_right, put_and_apart, BitVec.or_zero]; rfl)
  have hr : decode34 (encode (.vcmpeq d a b k h x)) = some (.vcmpeq d a b k h x) := by
    unfold decode34
    rw [if_pos hf]
    simp (disch := decide) only [encode, fld_or, fld_put_same, fld_put_apart, BitVec.or_zero, fld_const_or]
  have hm : (fld (encode (.vcmpeq d a b k h x)) 26 6).toNat = 52 := by rw [major_of_fits hf (by decide)]; rfl
  exact decode_of_raw (raw34 hm hr) hw

theorem vcmpne (d : BitVec 3) (a : BitVec 5) (b : BitVec 5) (k : BitVec 3) (h : BitVec 2) (x : BitVec 1) : Statement (.vcmpne d a b k h x) := by
  intro _ hw
  have hf : fits (encode (.vcmpne d a b k h x)) 0xFF000037 0xD0000001 = true := (fits_iff _ _ _).mpr (by
    simp (disch := decide) only [encode, BitVec.and_or_distrib_right, put_and_apart, BitVec.or_zero]; rfl)
  have hr : decode34 (encode (.vcmpne d a b k h x)) = some (.vcmpne d a b k h x) := by
    unfold decode34
    iterate 1 rw [if_neg (fits_other hf _ _ (by decide))]
    rw [if_pos hf]
    simp (disch := decide) only [encode, fld_or, fld_put_same, fld_put_apart, BitVec.or_zero, fld_const_or]
  have hm : (fld (encode (.vcmpne d a b k h x)) 26 6).toNat = 52 := by rw [major_of_fits hf (by decide)]; rfl
  exact decode_of_raw (raw34 hm hr) hw

theorem vcmplt (d : BitVec 3) (a : BitVec 5) (b : BitVec 5) (k : BitVec 3) (h : BitVec 2) (x : BitVec 1) : Statement (.vcmplt d a b k h x) := by
  intro _ hw
  have hf : fits (encode (.vcmplt d a b k h x)) 0xFF000037 0xD0000002 = true := (fits_iff _ _ _).mpr (by
    simp (disch := decide) only [encode, BitVec.and_or_distrib_right, put_and_apart, BitVec.or_zero]; rfl)
  have hr : decode34 (encode (.vcmplt d a b k h x)) = some (.vcmplt d a b k h x) := by
    unfold decode34
    iterate 2 rw [if_neg (fits_other hf _ _ (by decide))]
    rw [if_pos hf]
    simp (disch := decide) only [encode, fld_or, fld_put_same, fld_put_apart, BitVec.or_zero, fld_const_or]
  have hm : (fld (encode (.vcmplt d a b k h x)) 26 6).toNat = 52 := by rw [major_of_fits hf (by decide)]; rfl
  exact decode_of_raw (raw34 hm hr) hw

theorem vcmple (d : BitVec 3) (a : BitVec 5) (b : BitVec 5) (k : BitVec 3) (h : BitVec 2) (x : BitVec 1) : Statement (.vcmple d a b k h x) := by
  intro _ hw
  have hf : fits (encode (.vcmple d a b k h x)) 0xFF000037 0xD0000003 = true := (fits_iff _ _ _).mpr (by
    simp (disch := decide) only [encode, BitVec.and_or_distrib_right, put_and_apart, BitVec.or_zero]; rfl)
  have hr : decode34 (encode (.vcmple d a b k h x)) = some (.vcmple d a b k h x) := by
    unfold decode34
    iterate 3 rw [if_neg (fits_other hf _ _ (by decide))]
    rw [if_pos hf]
    simp (disch := decide) only [encode, fld_or, fld_put_same, fld_put_apart, BitVec.or_zero, fld_const_or]
  have hm : (fld (encode (.vcmple d a b k h x)) 26 6).toNat = 52 := by rw [major_of_fits hf (by decide)]; rfl
  exact decode_of_raw (raw34 hm hr) hw

theorem vcmpgt (d : BitVec 3) (a : BitVec 5) (b : BitVec 5) (k : BitVec 3) (h : BitVec 2) (x : BitVec 1) : Statement (.vcmpgt d a b k h x) := by
  intro _ hw
  have hf : fits (encode (.vcmpgt d a b k h x)) 0xFF000037 0xD0000004 = true := (fits_iff _ _ _).mpr (by
    simp (disch := decide) only [encode, BitVec.and_or_distrib_right, put_and_apart, BitVec.or_zero]; rfl)
  have hr : decode34 (encode (.vcmpgt d a b k h x)) = some (.vcmpgt d a b k h x) := by
    unfold decode34
    iterate 4 rw [if_neg (fits_other hf _ _ (by decide))]
    rw [if_pos hf]
    simp (disch := decide) only [encode, fld_or, fld_put_same, fld_put_apart, BitVec.or_zero, fld_const_or]
  have hm : (fld (encode (.vcmpgt d a b k h x)) 26 6).toNat = 52 := by rw [major_of_fits hf (by decide)]; rfl
  exact decode_of_raw (raw34 hm hr) hw

theorem vcmpge (d : BitVec 3) (a : BitVec 5) (b : BitVec 5) (k : BitVec 3) (h : BitVec 2) (x : BitVec 1) : Statement (.vcmpge d a b k h x) := by
  intro _ hw
  have hf : fits (encode (.vcmpge d a b k h x)) 0xFF000037 0xD0000005 = true := (fits_iff _ _ _).mpr (by
    simp (disch := decide) only [encode, BitVec.and_or_distrib_right, put_and_apart, BitVec.or_zero]; rfl)
  have hr : decode34 (encode (.vcmpge d a b k h x)) = some (.vcmpge d a b k h x) := by
    unfold decode34
    iterate 5 rw [if_neg (fits_other hf _ _ (by decide))]
    rw [if_pos hf]
    simp (disch := decide) only [encode, fld_or, fld_put_same, fld_put_apart, BitVec.or_zero, fld_const_or]
  have hm : (fld (encode (.vcmpge d a b k h x)) 26 6).toNat = 52 := by rw [major_of_fits hf (by decide)]; rfl
  exact decode_of_raw (raw34 hm hr) hw

theorem kboth (d : BitVec 3) (a : BitVec 3) (b : BitVec 3) (h : BitVec 2) : Statement (.kboth d a b h) := by
  intro _ hw
  have hf : fits (encode (.kboth d a b h)) 0xFF18C73F 0xD0000010 = true := (fits_iff _ _ _).mpr (by
    simp (disch := decide) only [encode, BitVec.and_or_distrib_right, put_and_apart, BitVec.or_zero]; rfl)
  have hr : decode34 (encode (.kboth d a b h)) = some (.kboth d a b h) := by
    unfold decode34
    iterate 6 rw [if_neg (fits_other hf _ _ (by decide))]
    rw [if_pos hf]
    simp (disch := decide) only [encode, fld_or, fld_put_same, fld_put_apart, BitVec.or_zero, fld_const_or]
  have hm : (fld (encode (.kboth d a b h)) 26 6).toNat = 52 := by rw [major_of_fits hf (by decide)]; rfl
  exact decode_of_raw (raw34 hm hr) hw

theorem keither (d : BitVec 3) (a : BitVec 3) (b : BitVec 3) (h : BitVec 2) : Statement (.keither d a b h) := by
  intro _ hw
  have hf : fits (encode (.keither d a b h)) 0xFF18C73F 0xD0000011 = true := (fits_iff _ _ _).mpr (by
    simp (disch := decide) only [encode, BitVec.and_or_distrib_right, put_and_apart, BitVec.or_zero]; rfl)
  have hr : decode34 (encode (.keither d a b h)) = some (.keither d a b h) := by
    unfold decode34
    iterate 7 rw [if_neg (fits_other hf _ _ (by decide))]
    rw [if_pos hf]
    simp (disch := decide) only [encode, fld_or, fld_put_same, fld_put_apart, BitVec.or_zero, fld_const_or]
  have hm : (fld (encode (.keither d a b h)) 26 6).toNat = 52 := by rw [major_of_fits hf (by decide)]; rfl
  exact decode_of_raw (raw34 hm hr) hw

theorem kdiffer (d : BitVec 3) (a : BitVec 3) (b : BitVec 3) (h : BitVec 2) : Statement (.kdiffer d a b h) := by
  intro _ hw
  have hf : fits (encode (.kdiffer d a b h)) 0xFF18C73F 0xD0000012 = true := (fits_iff _ _ _).mpr (by
    simp (disch := decide) only [encode, BitVec.and_or_distrib_right, put_and_apart, BitVec.or_zero]; rfl)
  have hr : decode34 (encode (.kdiffer d a b h)) = some (.kdiffer d a b h) := by
    unfold decode34
    iterate 8 rw [if_neg (fits_other hf _ _ (by decide))]
    rw [if_pos hf]
    simp (disch := decide) only [encode, fld_or, fld_put_same, fld_put_apart, BitVec.or_zero, fld_const_or]
  have hm : (fld (encode (.kdiffer d a b h)) 26 6).toNat = 52 := by rw [major_of_fits hf (by decide)]; rfl
  exact decode_of_raw (raw34 hm hr) hw

theorem kbut (d : BitVec 3) (a : BitVec 3) (b : BitVec 3) (h : BitVec 2) : Statement (.kbut d a b h) := by
  intro _ hw
  have hf : fits (encode (.kbut d a b h)) 0xFF18C73F 0xD0000013 = true := (fits_iff _ _ _).mpr (by
    simp (disch := decide) only [encode, BitVec.and_or_distrib_right, put_and_apart, BitVec.or_zero]; rfl)
  have hr : decode34 (encode (.kbut d a b h)) = some (.kbut d a b h) := by
    unfold decode34
    iterate 9 rw [if_neg (fits_other hf _ _ (by decide))]
    rw [if_pos hf]
    simp (disch := decide) only [encode, fld_or, fld_put_same, fld_put_apart, BitVec.or_zero, fld_const_or]
  have hm : (fld (encode (.kbut d a b h)) 26 6).toNat = 52 := by rw [major_of_fits hf (by decide)]; rfl
  exact decode_of_raw (raw34 hm hr) hw

theorem kflip (d : BitVec 3) (a : BitVec 3) (h : BitVec 2) : Statement (.kflip d a h) := by
  intro _ hw
  have hf : fits (encode (.kflip d a h)) 0xFF18FF3F 0xD0000014 = true := (fits_iff _ _ _).mpr (by
    simp (disch := decide) only [encode, BitVec.and_or_distrib_right, put_and_apart, BitVec.or_zero]; rfl)
  have hr : decode34 (encode (.kflip d a h)) = some (.kflip d a h) := by
    unfold decode34
    iterate 10 rw [if_neg (fits_other hf _ _ (by decide))]
    rw [if_pos hf]
    simp (disch := decide) only [encode, fld_or, fld_put_same, fld_put_apart, BitVec.or_zero, fld_const_or]
  have hm : (fld (encode (.kflip d a h)) 26 6).toNat = 52 := by rw [major_of_fits hf (by decide)]; rfl
  exact decode_of_raw (raw34 hm hr) hw

theorem kfill (d : BitVec 3) (h : BitVec 2) : Statement (.kfill d h) := by
  intro _ hw
  have hf : fits (encode (.kfill d h)) 0xFF1FFF3F 0xD0000015 = true := (fits_iff _ _ _).mpr (by
    simp (disch := decide) only [encode, BitVec.and_or_distrib_right, put_and_apart, BitVec.or_zero]; rfl)
  have hr : decode34 (encode (.kfill d h)) = some (.kfill d h) := by
    unfold decode34
    iterate 11 rw [if_neg (fits_other hf _ _ (by decide))]
    rw [if_pos hf]
    simp (disch := decide) only [encode, fld_or, fld_put_same, fld_put_apart, BitVec.or_zero, fld_const_or]
  have hm : (fld (encode (.kfill d h)) 26 6).toNat = 52 := by rw [major_of_fits hf (by decide)]; rfl
  exact decode_of_raw (raw34 hm hr) hw

theorem kcount (d : BitVec 5) (a : BitVec 3) (k : BitVec 3) (h : BitVec 2) : Statement (.kcount d a k h) := by
  intro _ hw
  have hf : fits (encode (.kcount d a k h)) 0xFC18F83F 0xD0000018 = true := (fits_iff _ _ _).mpr (by
    simp (disch := decide) only [encode, BitVec.and_or_distrib_right, put_and_apart, BitVec.or_zero]; rfl)
  have hr : decode34 (encode (.kcount d a k h)) = some (.kcount d a k h) := by
    unfold decode34
    iterate 12 rw [if_neg (fits_other hf _ _ (by decide))]
    rw [if_pos hf]
    simp (disch := decide) only [encode, fld_or, fld_put_same, fld_put_apart, BitVec.or_zero, fld_const_or]
  have hm : (fld (encode (.kcount d a k h)) 26 6).toNat = 52 := by rw [major_of_fits hf (by decide)]; rfl
  exact decode_of_raw (raw34 hm hr) hw

theorem klowest (d : BitVec 5) (a : BitVec 3) (k : BitVec 3) (h : BitVec 2) : Statement (.klowest d a k h) := by
  intro _ hw
  have hf : fits (encode (.klowest d a k h)) 0xFC18F83F 0xD0000019 = true := (fits_iff _ _ _).mpr (by
    simp (disch := decide) only [encode, BitVec.and_or_distrib_right, put_and_apart, BitVec.or_zero]; rfl)
  have hr : decode34 (encode (.klowest d a k h)) = some (.klowest d a k h) := by
    unfold decode34
    iterate 13 rw [if_neg (fits_other hf _ _ (by decide))]
    rw [if_pos hf]
    simp (disch := decide) only [encode, fld_or, fld_put_same, fld_put_apart, BitVec.or_zero, fld_const_or]
  have hm : (fld (encode (.klowest d a k h)) 26 6).toNat = 52 := by rw [major_of_fits hf (by decide)]; rfl
  exact decode_of_raw (raw34 hm hr) hw

theorem vsel (d : BitVec 5) (a : BitVec 5) (b : BitVec 5) (k : BitVec 3) (h : BitVec 2) : Statement (.vsel d a b k h) := by
  intro _ hw
  have hf : fits (encode (.vsel d a b k h)) 0xFC00003F 0xD4000000 = true := (fits_iff _ _ _).mpr (by
    simp (disch := decide) only [encode, BitVec.and_or_distrib_right, put_and_apart, BitVec.or_zero]; rfl)
  have hr : decode35 (encode (.vsel d a b k h)) = some (.vsel d a b k h) := by
    unfold decode35
    rw [if_pos hf]
    simp (disch := decide) only [encode, fld_or, fld_put_same, fld_put_apart, BitVec.or_zero, fld_const_or]
  have hm : (fld (encode (.vsel d a b k h)) 26 6).toNat = 53 := by rw [major_of_fits hf (by decide)]; rfl
  exact decode_of_raw (raw35 hm hr) hw

theorem vindex (d : BitVec 5) (k : BitVec 3) (h : BitVec 2) : Statement (.vindex d k h) := by
  intro _ hw
  have hf : fits (encode (.vindex d k h)) 0xFC1FF83F 0xD4000001 = true := (fits_iff _ _ _).mpr (by
    simp (disch := decide) only [encode, BitVec.and_or_distrib_right, put_and_apart, BitVec.or_zero]; rfl)
  have hr : decode35 (encode (.vindex d k h)) = some (.vindex d k h) := by
    unfold decode35
    iterate 1 rw [if_neg (fits_other hf _ _ (by decide))]
    rw [if_pos hf]
    simp (disch := decide) only [encode, fld_or, fld_put_same, fld_put_apart, BitVec.or_zero, fld_const_or]
  have hm : (fld (encode (.vindex d k h)) 26 6).toNat = 53 := by rw [major_of_fits hf (by decide)]; rfl
  exact decode_of_raw (raw35 hm hr) hw

theorem vshup (d : BitVec 5) (a : BitVec 5) (b : BitVec 5) (k : BitVec 3) (h : BitVec 2) : Statement (.vshup d a b k h) := by
  intro _ hw
  have hf : fits (encode (.vshup d a b k h)) 0xFC00003F 0xD4000002 = true := (fits_iff _ _ _).mpr (by
    simp (disch := decide) only [encode, BitVec.and_or_distrib_right, put_and_apart, BitVec.or_zero]; rfl)
  have hr : decode35 (encode (.vshup d a b k h)) = some (.vshup d a b k h) := by
    unfold decode35
    iterate 2 rw [if_neg (fits_other hf _ _ (by decide))]
    rw [if_pos hf]
    simp (disch := decide) only [encode, fld_or, fld_put_same, fld_put_apart, BitVec.or_zero, fld_const_or]
  have hm : (fld (encode (.vshup d a b k h)) 26 6).toNat = 53 := by rw [major_of_fits hf (by decide)]; rfl
  exact decode_of_raw (raw35 hm hr) hw

theorem vshdn (d : BitVec 5) (a : BitVec 5) (b : BitVec 5) (k : BitVec 3) (h : BitVec 2) : Statement (.vshdn d a b k h) := by
  intro _ hw
  have hf : fits (encode (.vshdn d a b k h)) 0xFC00003F 0xD4000003 = true := (fits_iff _ _ _).mpr (by
    simp (disch := decide) only [encode, BitVec.and_or_distrib_right, put_and_apart, BitVec.or_zero]; rfl)
  have hr : decode35 (encode (.vshdn d a b k h)) = some (.vshdn d a b k h) := by
    unfold decode35
    iterate 3 rw [if_neg (fits_other hf _ _ (by decide))]
    rw [if_pos hf]
    simp (disch := decide) only [encode, fld_or, fld_put_same, fld_put_apart, BitVec.or_zero, fld_const_or]
  have hm : (fld (encode (.vshdn d a b k h)) 26 6).toNat = 53 := by rw [major_of_fits hf (by decide)]; rfl
  exact decode_of_raw (raw35 hm hr) hw

theorem vperm (d : BitVec 5) (a : BitVec 5) (b : BitVec 5) (k : BitVec 3) (h : BitVec 2) : Statement (.vperm d a b k h) := by
  intro _ hw
  have hf : fits (encode (.vperm d a b k h)) 0xFC00003F 0xD4000004 = true := (fits_iff _ _ _).mpr (by
    simp (disch := decide) only [encode, BitVec.and_or_distrib_right, put_and_apart, BitVec.or_zero]; rfl)
  have hr : decode35 (encode (.vperm d a b k h)) = some (.vperm d a b k h) := by
    unfold decode35
    iterate 4 rw [if_neg (fits_other hf _ _ (by decide))]
    rw [if_pos hf]
    simp (disch := decide) only [encode, fld_or, fld_put_same, fld_put_apart, BitVec.or_zero, fld_const_or]
  have hm : (fld (encode (.vperm d a b k h)) 26 6).toNat = 53 := by rw [major_of_fits hf (by decide)]; rfl
  exact decode_of_raw (raw35 hm hr) hw

theorem vpack (d : BitVec 5) (a : BitVec 5) (k : BitVec 3) (h : BitVec 2) : Statement (.vpack d a k h) := by
  intro _ hw
  have hf : fits (encode (.vpack d a k h)) 0xFC00F83F 0xD4000005 = true := (fits_iff _ _ _).mpr (by
    simp (disch := decide) only [encode, BitVec.and_or_distrib_right, put_and_apart, BitVec.or_zero]; rfl)
  have hr : decode35 (encode (.vpack d a k h)) = some (.vpack d a k h) := by
    unfold decode35
    iterate 5 rw [if_neg (fits_other hf _ _ (by decide))]
    rw [if_pos hf]
    simp (disch := decide) only [encode, fld_or, fld_put_same, fld_put_apart, BitVec.or_zero, fld_const_or]
  have hm : (fld (encode (.vpack d a k h)) 26 6).toNat = 53 := by rw [major_of_fits hf (by decide)]; rfl
  exact decode_of_raw (raw35 hm hr) hw

theorem vuniq (d : BitVec 3) (a : BitVec 5) (k : BitVec 3) (h : BitVec 2) : Statement (.vuniq d a k h) := by
  intro _ hw
  have hf : fits (encode (.vuniq d a k h)) 0xFF00F83F 0xD4000006 = true := (fits_iff _ _ _).mpr (by
    simp (disch := decide) only [encode, BitVec.and_or_distrib_right, put_and_apart, BitVec.or_zero]; rfl)
  have hr : decode35 (encode (.vuniq d a k h)) = some (.vuniq d a k h) := by
    unfold decode35
    iterate 6 rw [if_neg (fits_other hf _ _ (by decide))]
    rw [if_pos hf]
    simp (disch := decide) only [encode, fld_or, fld_put_same, fld_put_apart, BitVec.or_zero, fld_const_or]
  have hm : (fld (encode (.vuniq d a k h)) 26 6).toNat = 53 := by rw [major_of_fits hf (by decide)]; rfl
  exact decode_of_raw (raw35 hm hr) hw

theorem vget (d : BitVec 5) (a : BitVec 5) (b : BitVec 5) (h : BitVec 2) : Statement (.vget d a b h) := by
  intro _ hw
  have hf : fits (encode (.vget d a b h)) 0xFC00073F 0xD4000007 = true := (fits_iff _ _ _).mpr (by
    simp (disch := decide) only [encode, BitVec.and_or_distrib_right, put_and_apart, BitVec.or_zero]; rfl)
  have hr : decode35 (encode (.vget d a b h)) = some (.vget d a b h) := by
    unfold decode35
    iterate 7 rw [if_neg (fits_other hf _ _ (by decide))]
    rw [if_pos hf]
    simp (disch := decide) only [encode, fld_or, fld_put_same, fld_put_apart, BitVec.or_zero, fld_const_or]
  have hm : (fld (encode (.vget d a b h)) 26 6).toNat = 53 := by rw [major_of_fits hf (by decide)]; rfl
  exact decode_of_raw (raw35 hm hr) hw

theorem vput (d : BitVec 5) (a : BitVec 5) (b : BitVec 5) (h : BitVec 2) : Statement (.vput d a b h) := by
  intro _ hw
  have hf : fits (encode (.vput d a b h)) 0xFC00073F 0xD4000008 = true := (fits_iff _ _ _).mpr (by
    simp (disch := decide) only [encode, BitVec.and_or_distrib_right, put_and_apart, BitVec.or_zero]; rfl)
  have hr : decode35 (encode (.vput d a b h)) = some (.vput d a b h) := by
    unfold decode35
    iterate 8 rw [if_neg (fits_other hf _ _ (by decide))]
    rw [if_pos hf]
    simp (disch := decide) only [encode, fld_or, fld_put_same, fld_put_apart, BitVec.or_zero, fld_const_or]
  have hm : (fld (encode (.vput d a b h)) 26 6).toNat = 53 := by rw [major_of_fits hf (by decide)]; rfl
  exact decode_of_raw (raw35 hm hr) hw

theorem vredsum (d : BitVec 5) (a : BitVec 5) (k : BitVec 3) (h : BitVec 2) (t : BitVec 1) : Statement (.vredsum d a k h t) := by
  intro _ hw
  have hf : fits (encode (.vredsum d a k h t)) 0xFC00F81F 0xD8000000 = true := (fits_iff _ _ _).mpr (by
    simp (disch := decide) only [encode, BitVec.and_or_distrib_right, put_and_apart, BitVec.or_zero]; rfl)
  have hr : decode36 (encode (.vredsum d a k h t)) = some (.vredsum d a k h t) := by
    unfold decode36
    rw [if_pos hf]
    simp (disch := decide) only [encode, fld_or, fld_put_same, fld_put_apart, BitVec.or_zero, fld_const_or]
  have hm : (fld (encode (.vredsum d a k h t)) 26 6).toNat = 54 := by rw [major_of_fits hf (by decide)]; rfl
  exact decode_of_raw (raw36 hm hr) hw

theorem vredmin (d : BitVec 5) (a : BitVec 5) (k : BitVec 3) (h : BitVec 2) (t : BitVec 1) : Statement (.vredmin d a k h t) := by
  intro _ hw
  have hf : fits (encode (.vredmin d a k h t)) 0xFC00F81F 0xD8000001 = true := (fits_iff _ _ _).mpr (by
    simp (disch := decide) only [encode, BitVec.and_or_distrib_right, put_and_apart, BitVec.or_zero]; rfl)
  have hr : decode36 (encode (.vredmin d a k h t)) = some (.vredmin d a k h t) := by
    unfold decode36
    iterate 1 rw [if_neg (fits_other hf _ _ (by decide))]
    rw [if_pos hf]
    simp (disch := decide) only [encode, fld_or, fld_put_same, fld_put_apart, BitVec.or_zero, fld_const_or]
  have hm : (fld (encode (.vredmin d a k h t)) 26 6).toNat = 54 := by rw [major_of_fits hf (by decide)]; rfl
  exact decode_of_raw (raw36 hm hr) hw

theorem vredmax (d : BitVec 5) (a : BitVec 5) (k : BitVec 3) (h : BitVec 2) (t : BitVec 1) : Statement (.vredmax d a k h t) := by
  intro _ hw
  have hf : fits (encode (.vredmax d a k h t)) 0xFC00F81F 0xD8000002 = true := (fits_iff _ _ _).mpr (by
    simp (disch := decide) only [encode, BitVec.and_or_distrib_right, put_and_apart, BitVec.or_zero]; rfl)
  have hr : decode36 (encode (.vredmax d a k h t)) = some (.vredmax d a k h t) := by
    unfold decode36
    iterate 2 rw [if_neg (fits_other hf _ _ (by decide))]
    rw [if_pos hf]
    simp (disch := decide) only [encode, fld_or, fld_put_same, fld_put_apart, BitVec.or_zero, fld_const_or]
  have hm : (fld (encode (.vredmax d a k h t)) 26 6).toNat = 54 := by rw [major_of_fits hf (by decide)]; rfl
  exact decode_of_raw (raw36 hm hr) hw

theorem vredand (d : BitVec 5) (a : BitVec 5) (k : BitVec 3) (h : BitVec 2) (t : BitVec 1) : Statement (.vredand d a k h t) := by
  intro _ hw
  have hf : fits (encode (.vredand d a k h t)) 0xFC00F81F 0xD8000003 = true := (fits_iff _ _ _).mpr (by
    simp (disch := decide) only [encode, BitVec.and_or_distrib_right, put_and_apart, BitVec.or_zero]; rfl)
  have hr : decode36 (encode (.vredand d a k h t)) = some (.vredand d a k h t) := by
    unfold decode36
    iterate 3 rw [if_neg (fits_other hf _ _ (by decide))]
    rw [if_pos hf]
    simp (disch := decide) only [encode, fld_or, fld_put_same, fld_put_apart, BitVec.or_zero, fld_const_or]
  have hm : (fld (encode (.vredand d a k h t)) 26 6).toNat = 54 := by rw [major_of_fits hf (by decide)]; rfl
  exact decode_of_raw (raw36 hm hr) hw

theorem vredor (d : BitVec 5) (a : BitVec 5) (k : BitVec 3) (h : BitVec 2) (t : BitVec 1) : Statement (.vredor d a k h t) := by
  intro _ hw
  have hf : fits (encode (.vredor d a k h t)) 0xFC00F81F 0xD8000004 = true := (fits_iff _ _ _).mpr (by
    simp (disch := decide) only [encode, BitVec.and_or_distrib_right, put_and_apart, BitVec.or_zero]; rfl)
  have hr : decode36 (encode (.vredor d a k h t)) = some (.vredor d a k h t) := by
    unfold decode36
    iterate 4 rw [if_neg (fits_other hf _ _ (by decide))]
    rw [if_pos hf]
    simp (disch := decide) only [encode, fld_or, fld_put_same, fld_put_apart, BitVec.or_zero, fld_const_or]
  have hm : (fld (encode (.vredor d a k h t)) 26 6).toNat = 54 := by rw [major_of_fits hf (by decide)]; rfl
  exact decode_of_raw (raw36 hm hr) hw

theorem vredxor (d : BitVec 5) (a : BitVec 5) (k : BitVec 3) (h : BitVec 2) (t : BitVec 1) : Statement (.vredxor d a k h t) := by
  intro _ hw
  have hf : fits (encode (.vredxor d a k h t)) 0xFC00F81F 0xD8000005 = true := (fits_iff _ _ _).mpr (by
    simp (disch := decide) only [encode, BitVec.and_or_distrib_right, put_and_apart, BitVec.or_zero]; rfl)
  have hr : decode36 (encode (.vredxor d a k h t)) = some (.vredxor d a k h t) := by
    unfold decode36
    iterate 5 rw [if_neg (fits_other hf _ _ (by decide))]
    rw [if_pos hf]
    simp (disch := decide) only [encode, fld_or, fld_put_same, fld_put_apart, BitVec.or_zero, fld_const_or]
  have hm : (fld (encode (.vredxor d a k h t)) 26 6).toNat = 54 := by rw [major_of_fits hf (by decide)]; rfl
  exact decode_of_raw (raw36 hm hr) hw

theorem vfredsum (d : BitVec 5) (a : BitVec 5) (k : BitVec 3) (h : BitVec 2) (t : BitVec 1) : Statement (.vfredsum d a k h t) := by
  intro _ hw
  have hf : fits (encode (.vfredsum d a k h t)) 0xFC00F81F 0xD8000008 = true := (fits_iff _ _ _).mpr (by
    simp (disch := decide) only [encode, BitVec.and_or_distrib_right, put_and_apart, BitVec.or_zero]; rfl)
  have hr : decode36 (encode (.vfredsum d a k h t)) = some (.vfredsum d a k h t) := by
    unfold decode36
    iterate 6 rw [if_neg (fits_other hf _ _ (by decide))]
    rw [if_pos hf]
    simp (disch := decide) only [encode, fld_or, fld_put_same, fld_put_apart, BitVec.or_zero, fld_const_or]
  have hm : (fld (encode (.vfredsum d a k h t)) 26 6).toNat = 54 := by rw [major_of_fits hf (by decide)]; rfl
  exact decode_of_raw (raw36 hm hr) hw

theorem vfredsumw (d : BitVec 5) (a : BitVec 5) (k : BitVec 3) (h : BitVec 2) (t : BitVec 1) : Statement (.vfredsumw d a k h t) := by
  intro _ hw
  have hf : fits (encode (.vfredsumw d a k h t)) 0xFC00F81F 0xD8000009 = true := (fits_iff _ _ _).mpr (by
    simp (disch := decide) only [encode, BitVec.and_or_distrib_right, put_and_apart, BitVec.or_zero]; rfl)
  have hr : decode36 (encode (.vfredsumw d a k h t)) = some (.vfredsumw d a k h t) := by
    unfold decode36
    iterate 7 rw [if_neg (fits_other hf _ _ (by decide))]
    rw [if_pos hf]
    simp (disch := decide) only [encode, fld_or, fld_put_same, fld_put_apart, BitVec.or_zero, fld_const_or]
  have hm : (fld (encode (.vfredsumw d a k h t)) 26 6).toNat = 54 := by rw [major_of_fits hf (by decide)]; rfl
  exact decode_of_raw (raw36 hm hr) hw

theorem vfredmin (d : BitVec 5) (a : BitVec 5) (k : BitVec 3) (h : BitVec 2) (t : BitVec 1) : Statement (.vfredmin d a k h t) := by
  intro _ hw
  have hf : fits (encode (.vfredmin d a k h t)) 0xFC00F81F 0xD800000A = true := (fits_iff _ _ _).mpr (by
    simp (disch := decide) only [encode, BitVec.and_or_distrib_right, put_and_apart, BitVec.or_zero]; rfl)
  have hr : decode36 (encode (.vfredmin d a k h t)) = some (.vfredmin d a k h t) := by
    unfold decode36
    iterate 8 rw [if_neg (fits_other hf _ _ (by decide))]
    rw [if_pos hf]
    simp (disch := decide) only [encode, fld_or, fld_put_same, fld_put_apart, BitVec.or_zero, fld_const_or]
  have hm : (fld (encode (.vfredmin d a k h t)) 26 6).toNat = 54 := by rw [major_of_fits hf (by decide)]; rfl
  exact decode_of_raw (raw36 hm hr) hw

theorem vfredmax (d : BitVec 5) (a : BitVec 5) (k : BitVec 3) (h : BitVec 2) (t : BitVec 1) : Statement (.vfredmax d a k h t) := by
  intro _ hw
  have hf : fits (encode (.vfredmax d a k h t)) 0xFC00F81F 0xD800000B = true := (fits_iff _ _ _).mpr (by
    simp (disch := decide) only [encode, BitVec.and_or_distrib_right, put_and_apart, BitVec.or_zero]; rfl)
  have hr : decode36 (encode (.vfredmax d a k h t)) = some (.vfredmax d a k h t) := by
    unfold decode36
    iterate 9 rw [if_neg (fits_other hf _ _ (by decide))]
    rw [if_pos hf]
    simp (disch := decide) only [encode, fld_or, fld_put_same, fld_put_apart, BitVec.or_zero, fld_const_or]
  have hm : (fld (encode (.vfredmax d a k h t)) 26 6).toNat = 54 := by rw [major_of_fits hf (by decide)]; rfl
  exact decode_of_raw (raw36 hm hr) hw

theorem vfexp2 (d : BitVec 5) (a : BitVec 5) (k : BitVec 3) (h : BitVec 2) : Statement (.vfexp2 d a k h) := by
  intro _ hw
  have hf : fits (encode (.vfexp2 d a k h)) 0xFC00F83F 0xDC000000 = true := (fits_iff _ _ _).mpr (by
    simp (disch := decide) only [encode, BitVec.and_or_distrib_right, put_and_apart, BitVec.or_zero]; rfl)
  have hr : decode37 (encode (.vfexp2 d a k h)) = some (.vfexp2 d a k h) := by
    unfold decode37
    rw [if_pos hf]
    simp (disch := decide) only [encode, fld_or, fld_put_same, fld_put_apart, BitVec.or_zero, fld_const_or]
  have hm : (fld (encode (.vfexp2 d a k h)) 26 6).toNat = 55 := by rw [major_of_fits hf (by decide)]; rfl
  exact decode_of_raw (raw37 hm hr) hw

theorem vflog2 (d : BitVec 5) (a : BitVec 5) (k : BitVec 3) (h : BitVec 2) : Statement (.vflog2 d a k h) := by
  intro _ hw
  have hf : fits (encode (.vflog2 d a k h)) 0xFC00F83F 0xDC000001 = true := (fits_iff _ _ _).mpr (by
    simp (disch := decide) only [encode, BitVec.and_or_distrib_right, put_and_apart, BitVec.or_zero]; rfl)
  have hr : decode37 (encode (.vflog2 d a k h)) = some (.vflog2 d a k h) := by
    unfold decode37
    iterate 1 rw [if_neg (fits_other hf _ _ (by decide))]
    rw [if_pos hf]
    simp (disch := decide) only [encode, fld_or, fld_put_same, fld_put_apart, BitVec.or_zero, fld_const_or]
  have hm : (fld (encode (.vflog2 d a k h)) 26 6).toNat = 55 := by rw [major_of_fits hf (by decide)]; rfl
  exact decode_of_raw (raw37 hm hr) hw

theorem vfrecip (d : BitVec 5) (a : BitVec 5) (k : BitVec 3) (h : BitVec 2) : Statement (.vfrecip d a k h) := by
  intro _ hw
  have hf : fits (encode (.vfrecip d a k h)) 0xFC00F83F 0xDC000002 = true := (fits_iff _ _ _).mpr (by
    simp (disch := decide) only [encode, BitVec.and_or_distrib_right, put_and_apart, BitVec.or_zero]; rfl)
  have hr : decode37 (encode (.vfrecip d a k h)) = some (.vfrecip d a k h) := by
    unfold decode37
    iterate 2 rw [if_neg (fits_other hf _ _ (by decide))]
    rw [if_pos hf]
    simp (disch := decide) only [encode, fld_or, fld_put_same, fld_put_apart, BitVec.or_zero, fld_const_or]
  have hm : (fld (encode (.vfrecip d a k h)) 26 6).toNat = 55 := by rw [major_of_fits hf (by decide)]; rfl
  exact decode_of_raw (raw37 hm hr) hw

theorem vfrsqrt (d : BitVec 5) (a : BitVec 5) (k : BitVec 3) (h : BitVec 2) : Statement (.vfrsqrt d a k h) := by
  intro _ hw
  have hf : fits (encode (.vfrsqrt d a k h)) 0xFC00F83F 0xDC000003 = true := (fits_iff _ _ _).mpr (by
    simp (disch := decide) only [encode, BitVec.and_or_distrib_right, put_and_apart, BitVec.or_zero]; rfl)
  have hr : decode37 (encode (.vfrsqrt d a k h)) = some (.vfrsqrt d a k h) := by
    unfold decode37
    iterate 3 rw [if_neg (fits_other hf _ _ (by decide))]
    rw [if_pos hf]
    simp (disch := decide) only [encode, fld_or, fld_put_same, fld_put_apart, BitVec.or_zero, fld_const_or]
  have hm : (fld (encode (.vfrsqrt d a k h)) 26 6).toNat = 55 := by rw [major_of_fits hf (by decide)]; rfl
  exact decode_of_raw (raw37 hm hr) hw

theorem vftanh (d : BitVec 5) (a : BitVec 5) (k : BitVec 3) (h : BitVec 2) : Statement (.vftanh d a k h) := by
  intro _ hw
  have hf : fits (encode (.vftanh d a k h)) 0xFC00F83F 0xDC000004 = true := (fits_iff _ _ _).mpr (by
    simp (disch := decide) only [encode, BitVec.and_or_distrib_right, put_and_apart, BitVec.or_zero]; rfl)
  have hr : decode37 (encode (.vftanh d a k h)) = some (.vftanh d a k h) := by
    unfold decode37
    iterate 4 rw [if_neg (fits_other hf _ _ (by decide))]
    rw [if_pos hf]
    simp (disch := decide) only [encode, fld_or, fld_put_same, fld_put_apart, BitVec.or_zero, fld_const_or]
  have hm : (fld (encode (.vftanh d a k h)) 26 6).toNat = 55 := by rw [major_of_fits hf (by decide)]; rfl
  exact decode_of_raw (raw37 hm hr) hw

theorem vfsig (d : BitVec 5) (a : BitVec 5) (k : BitVec 3) (h : BitVec 2) : Statement (.vfsig d a k h) := by
  intro _ hw
  have hf : fits (encode (.vfsig d a k h)) 0xFC00F83F 0xDC000005 = true := (fits_iff _ _ _).mpr (by
    simp (disch := decide) only [encode, BitVec.and_or_distrib_right, put_and_apart, BitVec.or_zero]; rfl)
  have hr : decode37 (encode (.vfsig d a k h)) = some (.vfsig d a k h) := by
    unfold decode37
    iterate 5 rw [if_neg (fits_other hf _ _ (by decide))]
    rw [if_pos hf]
    simp (disch := decide) only [encode, fld_or, fld_put_same, fld_put_apart, BitVec.or_zero, fld_const_or]
  have hm : (fld (encode (.vfsig d a k h)) 26 6).toNat = 55 := by rw [major_of_fits hf (by decide)]; rfl
  exact decode_of_raw (raw37 hm hr) hw

theorem vcvtsr (d : BitVec 5) (a : BitVec 5) (b : BitVec 5) (k : BitVec 3) (h : BitVec 2) (f : BitVec 3) : Statement (.vcvtsr d a b k h f) := by
  intro _ hw
  have hf : fits (encode (.vcvtsr d a b k h f)) 0xFC000038 0xDC000010 = true := (fits_iff _ _ _).mpr (by
    simp (disch := decide) only [encode, BitVec.and_or_distrib_right, put_and_apart, BitVec.or_zero]; rfl)
  have hr : decode37 (encode (.vcvtsr d a b k h f)) = some (.vcvtsr d a b k h f) := by
    unfold decode37
    iterate 6 rw [if_neg (fits_other hf _ _ (by decide))]
    rw [if_pos hf]
    simp (disch := decide) only [encode, fld_or, fld_put_same, fld_put_apart, BitVec.or_zero, fld_const_or]
  have hm : (fld (encode (.vcvtsr d a b k h f)) 26 6).toNat = 55 := by rw [major_of_fits hf (by decide)]; rfl
  exact decode_of_raw (raw37 hm hr) hw

theorem vcvtmx (d : BitVec 5) (a : BitVec 5) (s : BitVec 1) (k : BitVec 3) (h : BitVec 2) (f : BitVec 3) : Statement (.vcvtmx d a s k h f) := by
  intro _ hw
  have hf : fits (encode (.vcvtmx d a s k h f)) 0xFC00F038 0xDC000018 = true := (fits_iff _ _ _).mpr (by
    simp (disch := decide) only [encode, BitVec.and_or_distrib_right, put_and_apart, BitVec.or_zero]; rfl)
  have hr : decode37 (encode (.vcvtmx d a s k h f)) = some (.vcvtmx d a s k h f) := by
    unfold decode37
    iterate 7 rw [if_neg (fits_other hf _ _ (by decide))]
    rw [if_pos hf]
    simp (disch := decide) only [encode, fld_or, fld_put_same, fld_put_apart, BitVec.or_zero, fld_const_or]
  have hm : (fld (encode (.vcvtmx d a s k h f)) 26 6).toNat = 55 := by rw [major_of_fits hf (by decide)]; rfl
  exact decode_of_raw (raw37 hm hr) hw

theorem vcvt (d : BitVec 5) (a : BitVec 5) (k : BitVec 3) (h : BitVec 2) (f : BitVec 5) : Statement (.vcvt d a k h f) := by
  intro _ hw
  have hf : fits (encode (.vcvt d a k h f)) 0xFC00F820 0xDC000020 = true := (fits_iff _ _ _).mpr (by
    simp (disch := decide) only [encode, BitVec.and_or_distrib_right, put_and_apart, BitVec.or_zero]; rfl)
  have hr : decode37 (encode (.vcvt d a k h f)) = some (.vcvt d a k h f) := by
    unfold decode37
    iterate 8 rw [if_neg (fits_other hf _ _ (by decide))]
    rw [if_pos hf]
    simp (disch := decide) only [encode, fld_or, fld_put_same, fld_put_apart, BitVec.or_zero, fld_const_or]
  have hm : (fld (encode (.vcvt d a k h f)) 26 6).toNat = 55 := by rw [major_of_fits hf (by decide)]; rfl
  exact decode_of_raw (raw37 hm hr) hw

theorem mma (z : BitVec 4) (a : BitVec 5) (w : BitVec 2) (k : BitVec 7) : Statement (.mma z a w k) := by
  intro _ hw
  have hf : fits (encode (.mma z a w k)) 0xFC0000FF 0xE0000000 = true := (fits_iff _ _ _).mpr (by
    simp (disch := decide) only [encode, BitVec.and_or_distrib_right, put_and_apart, BitVec.or_zero]; rfl)
  have hr : decode38 (encode (.mma z a w k)) = some (.mma z a w k) := by
    unfold decode38
    rw [if_pos hf]
    simp (disch := decide) only [encode, fld_or, fld_put_same, fld_put_apart, BitVec.or_zero, fld_const_or]
  have hm : (fld (encode (.mma z a w k)) 26 6).toNat = 56 := by rw [major_of_fits hf (by decide)]; rfl
  exact decode_of_raw (raw38 hm hr) hw

theorem mmamo (z : BitVec 4) (a : BitVec 3) (w : BitVec 2) (k : BitVec 7) : Statement (.mmamo z a w k) := by
  intro _ hw
  have hf : fits (encode (.mmamo z a w k)) 0xFC3000FF 0xE0000001 = true := (fits_iff _ _ _).mpr (by
    simp (disch := decide) only [encode, BitVec.and_or_distrib_right, put_and_apart, BitVec.or_zero]; rfl)
  have hr : decode38 (encode (.mmamo z a w k)) = some (.mmamo z a w k) := by
    unfold decode38
    iterate 1 rw [if_neg (fits_other hf _ _ (by decide))]
    rw [if_pos hf]
    simp (disch := decide) only [encode, fld_or, fld_put_same, fld_put_apart, BitVec.or_zero, fld_const_or]
  have hm : (fld (encode (.mmamo z a w k)) 26 6).toNat = 56 := by rw [major_of_fits hf (by decide)]; rfl
  exact decode_of_raw (raw38 hm hr) hw

theorem zclr (z : BitVec 4) : Statement (.zclr z) := by
  intro _ hw
  have hf : fits (encode (.zclr z)) 0xFC3FFFFF 0xE0000008 = true := (fits_iff _ _ _).mpr (by
    simp (disch := decide) only [encode, BitVec.and_or_distrib_right, put_and_apart, BitVec.or_zero]; rfl)
  have hr : decode38 (encode (.zclr z)) = some (.zclr z) := by
    unfold decode38
    iterate 2 rw [if_neg (fits_other hf _ _ (by decide))]
    rw [if_pos hf]
    simp (disch := decide) only [encode, fld_or, fld_put_same, fld_put_apart, BitVec.or_zero, fld_const_or]
  have hm : (fld (encode (.zclr z)) 26 6).toNat = 56 := by rw [major_of_fits hf (by decide)]; rfl
  exact decode_of_raw (raw38 hm hr) hw

theorem zld (z : BitVec 4) (a : BitVec 5) (c : BitVec 4) : Statement (.zld z a c) := by
  intro _ hw
  have hf : fits (encode (.zld z a c)) 0xFC01F0FF 0xE0000009 = true := (fits_iff _ _ _).mpr (by
    simp (disch := decide) only [encode, BitVec.and_or_distrib_right, put_and_apart, BitVec.or_zero]; rfl)
  have hr : decode38 (encode (.zld z a c)) = some (.zld z a c) := by
    unfold decode38
    iterate 3 rw [if_neg (fits_other hf _ _ (by decide))]
    rw [if_pos hf]
    simp (disch := decide) only [encode, fld_or, fld_put_same, fld_put_apart, BitVec.or_zero, fld_const_or]
  have hm : (fld (encode (.zld z a c)) 26 6).toNat = 56 := by rw [major_of_fits hf (by decide)]; rfl
  exact decode_of_raw (raw38 hm hr) hw

theorem zst (z : BitVec 4) (a : BitVec 5) (c : BitVec 4) : Statement (.zst z a c) := by
  intro _ hw
  have hf : fits (encode (.zst z a c)) 0xFC01F0FF 0xE000000A = true := (fits_iff _ _ _).mpr (by
    simp (disch := decide) only [encode, BitVec.and_or_distrib_right, put_and_apart, BitVec.or_zero]; rfl)
  have hr : decode38 (encode (.zst z a c)) = some (.zst z a c) := by
    unfold decode38
    iterate 4 rw [if_neg (fits_other hf _ _ (by decide))]
    rw [if_pos hf]
    simp (disch := decide) only [encode, fld_or, fld_put_same, fld_put_apart, BitVec.or_zero, fld_const_or]
  have hm : (fld (encode (.zst z a c)) 26 6).toNat = 56 := by rw [major_of_fits hf (by decide)]; rfl
  exact decode_of_raw (raw38 hm hr) hw

theorem zmv (z : BitVec 4) (a : BitVec 5) (w : BitVec 2) (r : BitVec 3) : Statement (.zmv z a w r) := by
  intro _ hw
  have hf : fits (encode (.zmv z a w r)) 0xFC0078FF 0xE000000B = true := (fits_iff _ _ _).mpr (by
    simp (disch := decide) only [encode, BitVec.and_or_distrib_right, put_and_apart, BitVec.or_zero]; rfl)
  have hr : decode38 (encode (.zmv z a w r)) = some (.zmv z a w r) := by
    unfold decode38
    iterate 5 rw [if_neg (fits_other hf _ _ (by decide))]
    rw [if_pos hf]
    simp (disch := decide) only [encode, fld_or, fld_put_same, fld_put_apart, BitVec.or_zero, fld_const_or]
  have hm : (fld (encode (.zmv z a w r)) 26 6).toNat = 56 := by rw [major_of_fits hf (by decide)]; rfl
  exact decode_of_raw (raw38 hm hr) hw

theorem zmvt (z : BitVec 4) (a : BitVec 5) (w : BitVec 2) (r : BitVec 3) : Statement (.zmvt z a w r) := by
  intro _ hw
  have hf : fits (encode (.zmvt z a w r)) 0xFC0078FF 0xE000000C = true := (fits_iff _ _ _).mpr (by
    simp (disch := decide) only [encode, BitVec.and_or_distrib_right, put_and_apart, BitVec.or_zero]; rfl)
  have hr : decode38 (encode (.zmvt z a w r)) = some (.zmvt z a w r) := by
    unfold decode38
    iterate 6 rw [if_neg (fits_other hf _ _ (by decide))]
    rw [if_pos hf]
    simp (disch := decide) only [encode, fld_or, fld_put_same, fld_put_apart, BitVec.or_zero, fld_const_or]
  have hm : (fld (encode (.zmvt z a w r)) 26 6).toNat = 56 := by rw [major_of_fits hf (by decide)]; rfl
  exact decode_of_raw (raw38 hm hr) hw

theorem wbld (a : BitVec 5) (w : BitVec 2) : Statement (.wbld a w) := by
  intro _ hw
  have hf : fits (encode (.wbld a w)) 0xFFC07FFF 0xE0000010 = true := (fits_iff _ _ _).mpr (by
    simp (disch := decide) only [encode, BitVec.and_or_distrib_right, put_and_apart, BitVec.or_zero]; rfl)
  have hr : decode38 (encode (.wbld a w)) = some (.wbld a w) := by
    unfold decode38
    iterate 7 rw [if_neg (fits_other hf _ _ (by decide))]
    rw [if_pos hf]
    simp (disch := decide) only [encode, fld_or, fld_put_same, fld_put_apart, BitVec.or_zero, fld_const_or]
  have hm : (fld (encode (.wbld a w)) 26 6).toNat = 56 := by rw [major_of_fits hf (by decide)]; rfl
  exact decode_of_raw (raw38 hm hr) hw

theorem mcommit (a : BitVec 5) : Statement (.mcommit a) := by
  intro _ hw
  have hf : fits (encode (.mcommit a)) 0xFFC1FFFF 0xE0000018 = true := (fits_iff _ _ _).mpr (by
    simp (disch := decide) only [encode, BitVec.and_or_distrib_right, put_and_apart, BitVec.or_zero]; rfl)
  have hr : decode38 (encode (.mcommit a)) = some (.mcommit a) := by
    unfold decode38
    iterate 8 rw [if_neg (fits_other hf _ _ (by decide))]
    rw [if_pos hf]
    simp (disch := decide) only [encode, fld_or, fld_put_same, fld_put_apart, BitVec.or_zero, fld_const_or]
  have hm : (fld (encode (.mcommit a)) 26 6).toNat = 56 := by rw [major_of_fits hf (by decide)]; rfl
  exact decode_of_raw (raw38 hm hr) hw

theorem moadd (d : BitVec 3) (a : BitVec 3) (b : BitVec 3) (k : BitVec 3) (h : BitVec 2) : Statement (.moadd d a b k h) := by
  intro _ hw
  have hf : fits (encode (.moadd d a b k h)) 0xFF18C03F 0xE4000000 = true := (fits_iff _ _ _).mpr (by
    simp (disch := decide) only [encode, BitVec.and_or_distrib_right, put_and_apart, BitVec.or_zero]; rfl)
  have hr : decode39 (encode (.moadd d a b k h)) = some (.moadd d a b k h) := by
    unfold decode39
    rw [if_pos hf]
    simp (disch := decide) only [encode, fld_or, fld_put_same, fld_put_apart, BitVec.or_zero, fld_const_or]
  have hm : (fld (encode (.moadd d a b k h)) 26 6).toNat = 57 := by rw [major_of_fits hf (by decide)]; rfl
  exact decode_of_raw (raw39 hm hr) hw

theorem mosub (d : BitVec 3) (a : BitVec 3) (b : BitVec 3) (k : BitVec 3) (h : BitVec 2) : Statement (.mosub d a b k h) := by
  intro _ hw
  have hf : fits (encode (.mosub d a b k h)) 0xFF18C03F 0xE4000001 = true := (fits_iff _ _ _).mpr (by
    simp (disch := decide) only [encode, BitVec.and_or_distrib_right, put_and_apart, BitVec.or_zero]; rfl)
  have hr : decode39 (encode (.mosub d a b k h)) = some (.mosub d a b k h) := by
    unfold decode39
    iterate 1 rw [if_neg (fits_other hf _ _ (by decide))]
    rw [if_pos hf]
    simp (disch := decide) only [encode, fld_or, fld_put_same, fld_put_apart, BitVec.or_zero, fld_const_or]
  have hm : (fld (encode (.mosub d a b k h)) 26 6).toNat = 57 := by rw [major_of_fits hf (by decide)]; rfl
  exact decode_of_raw (raw39 hm hr) hw

theorem momul (d : BitVec 3) (a : BitVec 3) (b : BitVec 3) (k : BitVec 3) (h : BitVec 2) : Statement (.momul d a b k h) := by
  intro _ hw
  have hf : fits (encode (.momul d a b k h)) 0xFF18C03F 0xE4000002 = true := (fits_iff _ _ _).mpr (by
    simp (disch := decide) only [encode, BitVec.and_or_distrib_right, put_and_apart, BitVec.or_zero]; rfl)
  have hr : decode39 (encode (.momul d a b k h)) = some (.momul d a b k h) := by
    unfold decode39
    iterate 2 rw [if_neg (fits_other hf _ _ (by decide))]
    rw [if_pos hf]
    simp (disch := decide) only [encode, fld_or, fld_put_same, fld_put_apart, BitVec.or_zero, fld_const_or]
  have hm : (fld (encode (.momul d a b k h)) 26 6).toNat = 57 := by rw [major_of_fits hf (by decide)]; rfl
  exact decode_of_raw (raw39 hm hr) hw

theorem mofma (d : BitVec 3) (a : BitVec 3) (b : BitVec 3) (k : BitVec 3) (h : BitVec 2) : Statement (.mofma d a b k h) := by
  intro _ hw
  have hf : fits (encode (.mofma d a b k h)) 0xFF18C03F 0xE4000003 = true := (fits_iff _ _ _).mpr (by
    simp (disch := decide) only [encode, BitVec.and_or_distrib_right, put_and_apart, BitVec.or_zero]; rfl)
  have hr : decode39 (encode (.mofma d a b k h)) = some (.mofma d a b k h) := by
    unfold decode39
    iterate 3 rw [if_neg (fits_other hf _ _ (by decide))]
    rw [if_pos hf]
    simp (disch := decide) only [encode, fld_or, fld_put_same, fld_put_apart, BitVec.or_zero, fld_const_or]
  have hm : (fld (encode (.mofma d a b k h)) 26 6).toNat = 57 := by rw [major_of_fits hf (by decide)]; rfl
  exact decode_of_raw (raw39 hm hr) hw

theorem mosc (d : BitVec 3) (a : BitVec 3) (b : BitVec 5) (k : BitVec 3) (h : BitVec 2) : Statement (.mosc d a b k h) := by
  intro _ hw
  have hf : fits (encode (.mosc d a b k h)) 0xFF18003F 0xE4000004 = true := (fits_iff _ _ _).mpr (by
    simp (disch := decide) only [encode, BitVec.and_or_distrib_right, put_and_apart, BitVec.or_zero]; rfl)
  have hr : decode39 (encode (.mosc d a b k h)) = some (.mosc d a b k h) := by
    unfold decode39
    iterate 4 rw [if_neg (fits_other hf _ _ (by decide))]
    rw [if_pos hf]
    simp (disch := decide) only [encode, fld_or, fld_put_same, fld_put_apart, BitVec.or_zero, fld_const_or]
  have hm : (fld (encode (.mosc d a b k h)) 26 6).toNat = 57 := by rw [major_of_fits hf (by decide)]; rfl
  exact decode_of_raw (raw39 hm hr) hw

theorem moscX (d : BitVec 3) (a : BitVec 3) (b : BitVec 5) (k : BitVec 3) (h : BitVec 2) : Statement (.moscX d a b k h) := by
  intro _ hw
  have hf : fits (encode (.moscX d a b k h)) 0xFF18003F 0xE4000005 = true := (fits_iff _ _ _).mpr (by
    simp (disch := decide) only [encode, BitVec.and_or_distrib_right, put_and_apart, BitVec.or_zero]; rfl)
  have hr : decode39 (encode (.moscX d a b k h)) = some (.moscX d a b k h) := by
    unfold decode39
    iterate 5 rw [if_neg (fits_other hf _ _ (by decide))]
    rw [if_pos hf]
    simp (disch := decide) only [encode, fld_or, fld_put_same, fld_put_apart, BitVec.or_zero, fld_const_or]
  have hm : (fld (encode (.moscX d a b k h)) 26 6).toNat = 57 := by rw [major_of_fits hf (by decide)]; rfl
  exact decode_of_raw (raw39 hm hr) hw

theorem moexp (d : BitVec 3) (a : BitVec 3) (k : BitVec 3) (h : BitVec 2) : Statement (.moexp d a k h) := by
  intro _ hw
  have hf : fits (encode (.moexp d a k h)) 0xFF18F83F 0xE4000008 = true := (fits_iff _ _ _).mpr (by
    simp (disch := decide) only [encode, BitVec.and_or_distrib_right, put_and_apart, BitVec.or_zero]; rfl)
  have hr : decode39 (encode (.moexp d a k h)) = some (.moexp d a k h) := by
    unfold decode39
    iterate 6 rw [if_neg (fits_other hf _ _ (by decide))]
    rw [if_pos hf]
    simp (disch := decide) only [encode, fld_or, fld_put_same, fld_put_apart, BitVec.or_zero, fld_const_or]
  have hm : (fld (encode (.moexp d a k h)) 26 6).toNat = 57 := by rw [major_of_fits hf (by decide)]; rfl
  exact decode_of_raw (raw39 hm hr) hw

theorem morelu (d : BitVec 3) (a : BitVec 3) (k : BitVec 3) (h : BitVec 2) : Statement (.morelu d a k h) := by
  intro _ hw
  have hf : fits (encode (.morelu d a k h)) 0xFF18F83F 0xE4000009 = true := (fits_iff _ _ _).mpr (by
    simp (disch := decide) only [encode, BitVec.and_or_distrib_right, put_and_apart, BitVec.or_zero]; rfl)
  have hr : decode39 (encode (.morelu d a k h)) = some (.morelu d a k h) := by
    unfold decode39
    iterate 7 rw [if_neg (fits_other hf _ _ (by decide))]
    rw [if_pos hf]
    simp (disch := decide) only [encode, fld_or, fld_put_same, fld_put_apart, BitVec.or_zero, fld_const_or]
  have hm : (fld (encode (.morelu d a k h)) 26 6).toNat = 57 := by rw [major_of_fits hf (by decide)]; rfl
  exact decode_of_raw (raw39 hm hr) hw

theorem mosig (d : BitVec 3) (a : BitVec 3) (k : BitVec 3) (h : BitVec 2) : Statement (.mosig d a k h) := by
  intro _ hw
  have hf : fits (encode (.mosig d a k h)) 0xFF18F83F 0xE400000A = true := (fits_iff _ _ _).mpr (by
    simp (disch := decide) only [encode, BitVec.and_or_distrib_right, put_and_apart, BitVec.or_zero]; rfl)
  have hr : decode39 (encode (.mosig d a k h)) = some (.mosig d a k h) := by
    unfold decode39
    iterate 8 rw [if_neg (fits_other hf _ _ (by decide))]
    rw [if_pos hf]
    simp (disch := decide) only [encode, fld_or, fld_put_same, fld_put_apart, BitVec.or_zero, fld_const_or]
  have hm : (fld (encode (.mosig d a k h)) 26 6).toNat = 57 := by rw [major_of_fits hf (by decide)]; rfl
  exact decode_of_raw (raw39 hm hr) hw

theorem motanh (d : BitVec 3) (a : BitVec 3) (k : BitVec 3) (h : BitVec 2) : Statement (.motanh d a k h) := by
  intro _ hw
  have hf : fits (encode (.motanh d a k h)) 0xFF18F83F 0xE400000B = true := (fits_iff _ _ _).mpr (by
    simp (disch := decide) only [encode, BitVec.and_or_distrib_right, put_and_apart, BitVec.or_zero]; rfl)
  have hr : decode39 (encode (.motanh d a k h)) = some (.motanh d a k h) := by
    unfold decode39
    iterate 9 rw [if_neg (fits_other hf _ _ (by decide))]
    rw [if_pos hf]
    simp (disch := decide) only [encode, fld_or, fld_put_same, fld_put_apart, BitVec.or_zero, fld_const_or]
  have hm : (fld (encode (.motanh d a k h)) 26 6).toNat = 57 := by rw [major_of_fits hf (by decide)]; rfl
  exact decode_of_raw (raw39 hm hr) hw

theorem mofrom (d : BitVec 3) (a : BitVec 5) (b : BitVec 5) (k : BitVec 3) (h : BitVec 2) : Statement (.mofrom d a b k h) := by
  intro _ hw
  have hf : fits (encode (.mofrom d a b k h)) 0xFF00003F 0xE4000010 = true := (fits_iff _ _ _).mpr (by
    simp (disch := decide) only [encode, BitVec.and_or_distrib_right, put_and_apart, BitVec.or_zero]; rfl)
  have hr : decode39 (encode (.mofrom d a b k h)) = some (.mofrom d a b k h) := by
    unfold decode39
    iterate 10 rw [if_neg (fits_other hf _ _ (by decide))]
    rw [if_pos hf]
    simp (disch := decide) only [encode, fld_or, fld_put_same, fld_put_apart, BitVec.or_zero, fld_const_or]
  have hm : (fld (encode (.mofrom d a b k h)) 26 6).toNat = 57 := by rw [major_of_fits hf (by decide)]; rfl
  exact decode_of_raw (raw39 hm hr) hw

theorem mocolMean (d : BitVec 5) (a : BitVec 3) (k : BitVec 3) (h : BitVec 2) : Statement (.mocolMean d a k h) := by
  intro _ hw
  have hf : fits (encode (.mocolMean d a k h)) 0xFC18F83F 0xE4000011 = true := (fits_iff _ _ _).mpr (by
    simp (disch := decide) only [encode, BitVec.and_or_distrib_right, put_and_apart, BitVec.or_zero]; rfl)
  have hr : decode39 (encode (.mocolMean d a k h)) = some (.mocolMean d a k h) := by
    unfold decode39
    iterate 11 rw [if_neg (fits_other hf _ _ (by decide))]
    rw [if_pos hf]
    simp (disch := decide) only [encode, fld_or, fld_put_same, fld_put_apart, BitVec.or_zero, fld_const_or]
  have hm : (fld (encode (.mocolMean d a k h)) 26 6).toNat = 57 := by rw [major_of_fits hf (by decide)]; rfl
  exact decode_of_raw (raw39 hm hr) hw

theorem mocolVar (d : BitVec 5) (a : BitVec 3) (k : BitVec 3) (h : BitVec 2) : Statement (.mocolVar d a k h) := by
  intro _ hw
  have hf : fits (encode (.mocolVar d a k h)) 0xFC18F83F 0xE4000012 = true := (fits_iff _ _ _).mpr (by
    simp (disch := decide) only [encode, BitVec.and_or_distrib_right, put_and_apart, BitVec.or_zero]; rfl)
  have hr : decode39 (encode (.mocolVar d a k h)) = some (.mocolVar d a k h) := by
    unfold decode39
    iterate 12 rw [if_neg (fits_other hf _ _ (by decide))]
    rw [if_pos hf]
    simp (disch := decide) only [encode, fld_or, fld_put_same, fld_put_apart, BitVec.or_zero, fld_const_or]
  have hm : (fld (encode (.mocolVar d a k h)) 26 6).toNat = 57 := by rw [major_of_fits hf (by decide)]; rfl
  exact decode_of_raw (raw39 hm hr) hw

theorem mocolStd (d : BitVec 5) (a : BitVec 3) (k : BitVec 3) (h : BitVec 2) : Statement (.mocolStd d a k h) := by
  intro _ hw
  have hf : fits (encode (.mocolStd d a k h)) 0xFC18F83F 0xE4000013 = true := (fits_iff _ _ _).mpr (by
    simp (disch := decide) only [encode, BitVec.and_or_distrib_right, put_and_apart, BitVec.or_zero]; rfl)
  have hr : decode39 (encode (.mocolStd d a k h)) = some (.mocolStd d a k h) := by
    unfold decode39
    iterate 13 rw [if_neg (fits_other hf _ _ (by decide))]
    rw [if_pos hf]
    simp (disch := decide) only [encode, fld_or, fld_put_same, fld_put_apart, BitVec.or_zero, fld_const_or]
  have hm : (fld (encode (.mocolStd d a k h)) 26 6).toNat = 57 := by rw [major_of_fits hf (by decide)]; rfl
  exact decode_of_raw (raw39 hm hr) hw

theorem mocolUpper (d : BitVec 5) (a : BitVec 3) (b : BitVec 5) (k : BitVec 3) (h : BitVec 2) : Statement (.mocolUpper d a b k h) := by
  intro _ hw
  have hf : fits (encode (.mocolUpper d a b k h)) 0xFC18003F 0xE4000014 = true := (fits_iff _ _ _).mpr (by
    simp (disch := decide) only [encode, BitVec.and_or_distrib_right, put_and_apart, BitVec.or_zero]; rfl)
  have hr : decode39 (encode (.mocolUpper d a b k h)) = some (.mocolUpper d a b k h) := by
    unfold decode39
    iterate 14 rw [if_neg (fits_other hf _ _ (by decide))]
    rw [if_pos hf]
    simp (disch := decide) only [encode, fld_or, fld_put_same, fld_put_apart, BitVec.or_zero, fld_const_or]
  have hm : (fld (encode (.mocolUpper d a b k h)) 26 6).toNat = 57 := by rw [major_of_fits hf (by decide)]; rfl
  exact decode_of_raw (raw39 hm hr) hw

theorem mocolLower (d : BitVec 5) (a : BitVec 3) (b : BitVec 5) (k : BitVec 3) (h : BitVec 2) : Statement (.mocolLower d a b k h) := by
  intro _ hw
  have hf : fits (encode (.mocolLower d a b k h)) 0xFC18003F 0xE4000015 = true := (fits_iff _ _ _).mpr (by
    simp (disch := decide) only [encode, BitVec.and_or_distrib_right, put_and_apart, BitVec.or_zero]; rfl)
  have hr : decode39 (encode (.mocolLower d a b k h)) = some (.mocolLower d a b k h) := by
    unfold decode39
    iterate 15 rw [if_neg (fits_other hf _ _ (by decide))]
    rw [if_pos hf]
    simp (disch := decide) only [encode, fld_or, fld_put_same, fld_put_apart, BitVec.or_zero, fld_const_or]
  have hm : (fld (encode (.mocolLower d a b k h)) 26 6).toNat = 57 := by rw [major_of_fits hf (by decide)]; rfl
  exact decode_of_raw (raw39 hm hr) hw

theorem mocolSample (d : BitVec 5) (a : BitVec 3) (b : BitVec 5) (k : BitVec 3) (h : BitVec 2) : Statement (.mocolSample d a b k h) := by
  intro _ hw
  have hf : fits (encode (.mocolSample d a b k h)) 0xFC18003F 0xE4000016 = true := (fits_iff _ _ _).mpr (by
    simp (disch := decide) only [encode, BitVec.and_or_distrib_right, put_and_apart, BitVec.or_zero]; rfl)
  have hr : decode39 (encode (.mocolSample d a b k h)) = some (.mocolSample d a b k h) := by
    unfold decode39
    iterate 16 rw [if_neg (fits_other hf _ _ (by decide))]
    rw [if_pos hf]
    simp (disch := decide) only [encode, fld_or, fld_put_same, fld_put_apart, BitVec.or_zero, fld_const_or]
  have hm : (fld (encode (.mocolSample d a b k h)) 26 6).toNat = 57 := by rw [major_of_fits hf (by decide)]; rfl
  exact decode_of_raw (raw39 hm hr) hw

theorem momv (d : BitVec 3) (a : BitVec 3) (k : BitVec 3) (h : BitVec 2) : Statement (.momv d a k h) := by
  intro _ hw
  have hf : fits (encode (.momv d a k h)) 0xFF18F83F 0xE4000018 = true := (fits_iff _ _ _).mpr (by
    simp (disch := decide) only [encode, BitVec.and_or_distrib_right, put_and_apart, BitVec.or_zero]; rfl)
  have hr : decode39 (encode (.momv d a k h)) = some (.momv d a k h) := by
    unfold decode39
    iterate 17 rw [if_neg (fits_other hf _ _ (by decide))]
    rw [if_pos hf]
    simp (disch := decide) only [encode, fld_or, fld_put_same, fld_put_apart, BitVec.or_zero, fld_const_or]
  have hm : (fld (encode (.momv d a k h)) 26 6).toNat = 57 := by rw [major_of_fits hf (by decide)]; rfl
  exact decode_of_raw (raw39 hm hr) hw

theorem mold (d : BitVec 3) (a : BitVec 5) (c : BitVec 4) (k : BitVec 3) (h : BitVec 2) : Statement (.mold d a c k h) := by
  intro _ hw
  have hf : fits (encode (.mold d a c k h)) 0xFF00803F 0xE400001C = true := (fits_iff _ _ _).mpr (by
    simp (disch := decide) only [encode, BitVec.and_or_distrib_right, put_and_apart, BitVec.or_zero]; rfl)
  have hr : decode39 (encode (.mold d a c k h)) = some (.mold d a c k h) := by
    unfold decode39
    iterate 18 rw [if_neg (fits_other hf _ _ (by decide))]
    rw [if_pos hf]
    simp (disch := decide) only [encode, fld_or, fld_put_same, fld_put_apart, BitVec.or_zero, fld_const_or]
  have hm : (fld (encode (.mold d a c k h)) 26 6).toNat = 57 := by rw [major_of_fits hf (by decide)]; rfl
  exact decode_of_raw (raw39 hm hr) hw

theorem most (d : BitVec 3) (a : BitVec 5) (c : BitVec 4) (k : BitVec 3) (h : BitVec 2) : Statement (.most d a c k h) := by
  intro _ hw
  have hf : fits (encode (.most d a c k h)) 0xFF00803F 0xE400001D = true := (fits_iff _ _ _).mpr (by
    simp (disch := decide) only [encode, BitVec.and_or_distrib_right, put_and_apart, BitVec.or_zero]; rfl)
  have hr : decode39 (encode (.most d a c k h)) = some (.most d a c k h) := by
    unfold decode39
    iterate 19 rw [if_neg (fits_other hf _ _ (by decide))]
    rw [if_pos hf]
    simp (disch := decide) only [encode, fld_or, fld_put_same, fld_put_apart, BitVec.or_zero, fld_const_or]
  have hm : (fld (encode (.most d a c k h)) 26 6).toNat = 57 := by rw [major_of_fits hf (by decide)]; rfl
  exact decode_of_raw (raw39 hm hr) hw

theorem tget (d : BitVec 5) : Statement (.tget d) := by
  intro _ hw
  have hf : fits (encode (.tget d)) 0xFC1FFFFF 0xE8000000 = true := (fits_iff _ _ _).mpr (by
    simp (disch := decide) only [encode, BitVec.and_or_distrib_right, put_and_apart, BitVec.or_zero]; rfl)
  have hr : decode3A (encode (.tget d)) = some (.tget d) := by
    unfold decode3A
    rw [if_pos hf]
    simp (disch := decide) only [encode, fld_or, fld_put_same, fld_put_apart, BitVec.or_zero, fld_const_or]
  have hm : (fld (encode (.tget d)) 26 6).toNat = 58 := by rw [major_of_fits hf (by decide)]; rfl
  exact decode_of_raw (raw3A hm hr) hw

theorem tlaunch (d : BitVec 5) (a : BitVec 5) : Statement (.tlaunch d a) := by
  intro _ hw
  have hf : fits (encode (.tlaunch d a)) 0xFC00FFFF 0xE8002000 = true := (fits_iff _ _ _).mpr (by
    simp (disch := decide) only [encode, BitVec.and_or_distrib_right, put_and_apart, BitVec.or_zero]; rfl)
  have hr : decode3A (encode (.tlaunch d a)) = some (.tlaunch d a) := by
    unfold decode3A
    iterate 1 rw [if_neg (fits_other hf _ _ (by decide))]
    rw [if_pos hf]
    simp (disch := decide) only [encode, fld_or, fld_put_same, fld_put_apart, BitVec.or_zero, fld_const_or]
  have hm : (fld (encode (.tlaunch d a)) 26 6).toNat = 58 := by rw [major_of_fits hf (by decide)]; rfl
  exact decode_of_raw (raw3A hm hr) hw

theorem tlaunchW (d : BitVec 5) (a : BitVec 5) : Statement (.tlaunchW d a) := by
  intro _ hw
  have hf : fits (encode (.tlaunchW d a)) 0xFC00FFFF 0xE8003000 = true := (fits_iff _ _ _).mpr (by
    simp (disch := decide) only [encode, BitVec.and_or_distrib_right, put_and_apart, BitVec.or_zero]; rfl)
  have hr : decode3A (encode (.tlaunchW d a)) = some (.tlaunchW d a) := by
    unfold decode3A
    iterate 2 rw [if_neg (fits_other hf _ _ (by decide))]
    rw [if_pos hf]
    simp (disch := decide) only [encode, fld_or, fld_put_same, fld_put_apart, BitVec.or_zero, fld_const_or]
  have hm : (fld (encode (.tlaunchW d a)) 26 6).toNat = 58 := by rw [major_of_fits hf (by decide)]; rfl
  exact decode_of_raw (raw3A hm hr) hw

theorem gwait (g : BitVec 8) : Statement (.gwait g) := by
  intro _ hw
  have hf : fits (encode (.gwait g)) 0xFFFFFF00 0xE8008000 = true := (fits_iff _ _ _).mpr (by
    simp (disch := decide) only [encode, BitVec.and_or_distrib_right, put_and_apart, BitVec.or_zero]; rfl)
  have hr : decode3A (encode (.gwait g)) = some (.gwait g) := by
    unfold decode3A
    iterate 3 rw [if_neg (fits_other hf _ _ (by decide))]
    rw [if_pos hf]
    simp (disch := decide) only [encode, fld_or, fld_put_same, fld_put_apart, BitVec.or_zero, fld_const_or]
  have hm : (fld (encode (.gwait g)) 26 6).toNat = 58 := by rw [major_of_fits hf (by decide)]; rfl
  exact decode_of_raw (raw3A hm hr) hw

theorem gtest (d : BitVec 5) (g : BitVec 8) : Statement (.gtest d g) := by
  intro _ hw
  have hf : fits (encode (.gtest d g)) 0xFC1FFF00 0xE8009000 = true := (fits_iff _ _ _).mpr (by
    simp (disch := decide) only [encode, BitVec.and_or_distrib_right, put_and_apart, BitVec.or_zero]; rfl)
  have hr : decode3A (encode (.gtest d g)) = some (.gtest d g) := by
    unfold decode3A
    iterate 4 rw [if_neg (fits_other hf _ _ (by decide))]
    rw [if_pos hf]
    simp (disch := decide) only [encode, fld_or, fld_put_same, fld_put_apart, BitVec.or_zero, fld_const_or]
  have hm : (fld (encode (.gtest d g)) 26 6).toNat = 58 := by rw [major_of_fits hf (by decide)]; rfl
  exact decode_of_raw (raw3A hm hr) hw

theorem rstat (d : BitVec 5) (t : BitVec 1) (p : BitVec 2) : Statement (.rstat d t p) := by
  intro _ hw
  have hf : fits (encode (.rstat d t p)) 0xFC1FFFF8 0xE800A000 = true := (fits_iff _ _ _).mpr (by
    simp (disch := decide) only [encode, BitVec.and_or_distrib_right, put_and_apart, BitVec.or_zero]; rfl)
  have hr : decode3A (encode (.rstat d t p)) = some (.rstat d t p) := by
    unfold decode3A
    iterate 5 rw [if_neg (fits_other hf _ _ (by decide))]
    rw [if_pos hf]
    simp (disch := decide) only [encode, fld_or, fld_put_same, fld_put_apart, BitVec.or_zero, fld_const_or]
  have hm : (fld (encode (.rstat d t p)) 26 6).toNat = 58 := by rw [major_of_fits hf (by decide)]; rfl
  exact decode_of_raw (raw3A hm hr) hw

theorem cpy (a : BitVec 5) (b : BitVec 5) (n : BitVec 1) : Statement (.cpy a b n) := by
  intro _ hw
  have hf : fits (encode (.cpy a b n)) 0xFFE007EF 0xEC000000 = true := (fits_iff _ _ _).mpr (by
    simp (disch := decide) only [encode, BitVec.and_or_distrib_right, put_and_apart, BitVec.or_zero]; rfl)
  have hr : decode3B (encode (.cpy a b n)) = some (.cpy a b n) := by
    unfold decode3B
    rw [if_pos hf]
    simp (disch := decide) only [encode, fld_or, fld_put_same, fld_put_apart, BitVec.or_zero, fld_const_or]
  have hm : (fld (encode (.cpy a b n)) 26 6).toNat = 59 := by rw [major_of_fits hf (by decide)]; rfl
  exact decode_of_raw (raw3B hm hr) hw

theorem rgath (a : BitVec 5) (b : BitVec 5) (n : BitVec 1) : Statement (.rgath a b n) := by
  intro _ hw
  have hf : fits (encode (.rgath a b n)) 0xFFE007EF 0xEC000001 = true := (fits_iff _ _ _).mpr (by
    simp (disch := decide) only [encode, BitVec.and_or_distrib_right, put_and_apart, BitVec.or_zero]; rfl)
  have hr : decode3B (encode (.rgath a b n)) = some (.rgath a b n) := by
    unfold decode3B
    iterate 1 rw [if_neg (fits_other hf _ _ (by decide))]
    rw [if_pos hf]
    simp (disch := decide) only [encode, fld_or, fld_put_same, fld_put_apart, BitVec.or_zero, fld_const_or]
  have hm : (fld (encode (.rgath a b n)) 26 6).toNat = 59 := by rw [major_of_fits hf (by decide)]; rfl
  exact decode_of_raw (raw3B hm hr) hw

theorem rscat (a : BitVec 5) (b : BitVec 5) (n : BitVec 1) : Statement (.rscat a b n) := by
  intro _ hw
  have hf : fits (encode (.rscat a b n)) 0xFFE007EF 0xEC000002 = true := (fits_iff _ _ _).mpr (by
    simp (disch := decide) only [encode, BitVec.and_or_distrib_right, put_and_apart, BitVec.or_zero]; rfl)
  have hr : decode3B (encode (.rscat a b n)) = some (.rscat a b n) := by
    unfold decode3B
    iterate 2 rw [if_neg (fits_other hf _ _ (by decide))]
    rw [if_pos hf]
    simp (disch := decide) only [encode, fld_or, fld_put_same, fld_put_apart, BitVec.or_zero, fld_const_or]
  have hm : (fld (encode (.rscat a b n)) 26 6).toNat = 59 := by rw [major_of_fits hf (by decide)]; rfl
  exact decode_of_raw (raw3B hm hr) hw

theorem coll (a : BitVec 5) (b : BitVec 5) (n : BitVec 1) : Statement (.coll a b n) := by
  intro _ hw
  have hf : fits (encode (.coll a b n)) 0xFFE007EF 0xEC000003 = true := (fits_iff _ _ _).mpr (by
    simp (disch := decide) only [encode, BitVec.and_or_distrib_right, put_and_apart, BitVec.or_zero]; rfl)
  have hr : decode3B (encode (.coll a b n)) = some (.coll a b n) := by
    unfold decode3B
    iterate 3 rw [if_neg (fits_other hf _ _ (by decide))]
    rw [if_pos hf]
    simp (disch := decide) only [encode, fld_or, fld_put_same, fld_put_apart, BitVec.or_zero, fld_const_or]
  have hm : (fld (encode (.coll a b n)) 26 6).toNat = 59 := by rw [major_of_fits hf (by decide)]; rfl
  exact decode_of_raw (raw3B hm hr) hw

theorem pfxh (a : BitVec 5) (b : BitVec 5) (n : BitVec 1) : Statement (.pfxh a b n) := by
  intro _ hw
  have hf : fits (encode (.pfxh a b n)) 0xFFE007EF 0xEC000004 = true := (fits_iff _ _ _).mpr (by
    simp (disch := decide) only [encode, BitVec.and_or_distrib_right, put_and_apart, BitVec.or_zero]; rfl)
  have hr : decode3B (encode (.pfxh a b n)) = some (.pfxh a b n) := by
    unfold decode3B
    iterate 4 rw [if_neg (fits_other hf _ _ (by decide))]
    rw [if_pos hf]
    simp (disch := decide) only [encode, fld_or, fld_put_same, fld_put_apart, BitVec.or_zero, fld_const_or]
  have hm : (fld (encode (.pfxh a b n)) 26 6).toNat = 59 := by rw [major_of_fits hf (by decide)]; rfl
  exact decode_of_raw (raw3B hm hr) hw

theorem pfxlk (a : BitVec 5) (b : BitVec 5) (n : BitVec 1) : Statement (.pfxlk a b n) := by
  intro _ hw
  have hf : fits (encode (.pfxlk a b n)) 0xFFE007EF 0xEC000005 = true := (fits_iff _ _ _).mpr (by
    simp (disch := decide) only [encode, BitVec.and_or_distrib_right, put_and_apart, BitVec.or_zero]; rfl)
  have hr : decode3B (encode (.pfxlk a b n)) = some (.pfxlk a b n) := by
    unfold decode3B
    iterate 5 rw [if_neg (fits_other hf _ _ (by decide))]
    rw [if_pos hf]
    simp (disch := decide) only [encode, fld_or, fld_put_same, fld_put_apart, BitVec.or_zero, fld_const_or]
  have hm : (fld (encode (.pfxlk a b n)) 26 6).toNat = 59 := by rw [major_of_fits hf (by decide)]; rfl
  exact decode_of_raw (raw3B hm hr) hw

theorem pfxins (a : BitVec 5) (b : BitVec 5) (n : BitVec 1) : Statement (.pfxins a b n) := by
  intro _ hw
  have hf : fits (encode (.pfxins a b n)) 0xFFE007EF 0xEC000006 = true := (fits_iff _ _ _).mpr (by
    simp (disch := decide) only [encode, BitVec.and_or_distrib_right, put_and_apart, BitVec.or_zero]; rfl)
  have hr : decode3B (encode (.pfxins a b n)) = some (.pfxins a b n) := by
    unfold decode3B
    iterate 6 rw [if_neg (fits_other hf _ _ (by decide))]
    rw [if_pos hf]
    simp (disch := decide) only [encode, fld_or, fld_put_same, fld_put_apart, BitVec.or_zero, fld_const_or]
  have hm : (fld (encode (.pfxins a b n)) 26 6).toNat = 59 := by rw [major_of_fits hf (by decide)]; rfl
  exact decode_of_raw (raw3B hm hr) hw

theorem pfxunpin (a : BitVec 5) (b : BitVec 5) (n : BitVec 1) : Statement (.pfxunpin a b n) := by
  intro _ hw
  have hf : fits (encode (.pfxunpin a b n)) 0xFFE007EF 0xEC000007 = true := (fits_iff _ _ _).mpr (by
    simp (disch := decide) only [encode, BitVec.and_or_distrib_right, put_and_apart, BitVec.or_zero]; rfl)
  have hr : decode3B (encode (.pfxunpin a b n)) = some (.pfxunpin a b n) := by
    unfold decode3B
    iterate 7 rw [if_neg (fits_other hf _ _ (by decide))]
    rw [if_pos hf]
    simp (disch := decide) only [encode, fld_or, fld_put_same, fld_put_apart, BitVec.or_zero, fld_const_or]
  have hm : (fld (encode (.pfxunpin a b n)) 26 6).toNat = 59 := by rw [major_of_fits hf (by decide)]; rfl
  exact decode_of_raw (raw3B hm hr) hw

theorem binit (a : BitVec 5) (b : BitVec 5) : Statement (.binit a b) := by
  intro _ hw
  have hf : fits (encode (.binit a b)) 0xFFE007FF 0xF0000000 = true := (fits_iff _ _ _).mpr (by
    simp (disch := decide) only [encode, BitVec.and_or_distrib_right, put_and_apart, BitVec.or_zero]; rfl)
  have hr : decode3C (encode (.binit a b)) = some (.binit a b) := by
    unfold decode3C
    rw [if_pos hf]
    simp (disch := decide) only [encode, fld_or, fld_put_same, fld_put_apart, BitVec.or_zero, fld_const_or]
  have hm : (fld (encode (.binit a b)) 26 6).toNat = 60 := by rw [major_of_fits hf (by decide)]; rfl
  exact decode_of_raw (raw3C hm hr) hw

theorem bexpect (a : BitVec 5) (b : BitVec 5) : Statement (.bexpect a b) := by
  intro _ hw
  have hf : fits (encode (.bexpect a b)) 0xFFE007FF 0xF0000001 = true := (fits_iff _ _ _).mpr (by
    simp (disch := decide) only [encode, BitVec.and_or_distrib_right, put_and_apart, BitVec.or_zero]; rfl)
  have hr : decode3C (encode (.bexpect a b)) = some (.bexpect a b) := by
    unfold decode3C
    iterate 1 rw [if_neg (fits_other hf _ _ (by decide))]
    rw [if_pos hf]
    simp (disch := decide) only [encode, fld_or, fld_put_same, fld_put_apart, BitVec.or_zero, fld_const_or]
  have hm : (fld (encode (.bexpect a b)) 26 6).toNat = 60 := by rw [major_of_fits hf (by decide)]; rfl
  exact decode_of_raw (raw3C hm hr) hw

theorem barrive (a : BitVec 5) : Statement (.barrive a) := by
  intro _ hw
  have hf : fits (encode (.barrive a)) 0xFFE0FFFF 0xF0000002 = true := (fits_iff _ _ _).mpr (by
    simp (disch := decide) only [encode, BitVec.and_or_distrib_right, put_and_apart, BitVec.or_zero]; rfl)
  have hr : decode3C (encode (.barrive a)) = some (.barrive a) := by
    unfold decode3C
    iterate 2 rw [if_neg (fits_other hf _ _ (by decide))]
    rw [if_pos hf]
    simp (disch := decide) only [encode, fld_or, fld_put_same, fld_put_apart, BitVec.or_zero, fld_const_or]
  have hm : (fld (encode (.barrive a)) 26 6).toNat = 60 := by rw [major_of_fits hf (by decide)]; rfl
  exact decode_of_raw (raw3C hm hr) hw

theorem bexparr (a : BitVec 5) (b : BitVec 5) : Statement (.bexparr a b) := by
  intro _ hw
  have hf : fits (encode (.bexparr a b)) 0xFFE007FF 0xF0000003 = true := (fits_iff _ _ _).mpr (by
    simp (disch := decide) only [encode, BitVec.and_or_distrib_right, put_and_apart, BitVec.or_zero]; rfl)
  have hr : decode3C (encode (.bexparr a b)) = some (.bexparr a b) := by
    unfold decode3C
    iterate 3 rw [if_neg (fits_other hf _ _ (by decide))]
    rw [if_pos hf]
    simp (disch := decide) only [encode, fld_or, fld_put_same, fld_put_apart, BitVec.or_zero, fld_const_or]
  have hm : (fld (encode (.bexparr a b)) 26 6).toNat = 60 := by rw [major_of_fits hf (by decide)]; rfl
  exact decode_of_raw (raw3C hm hr) hw

theorem bwait (d : BitVec 5) (a : BitVec 5) (b : BitVec 5) : Statement (.bwait d a b) := by
  intro _ hw
  have hf : fits (encode (.bwait d a b)) 0xFC0007FF 0xF0000004 = true := (fits_iff _ _ _).mpr (by
    simp (disch := decide) only [encode, BitVec.and_or_distrib_right, put_and_apart, BitVec.or_zero]; rfl)
  have hr : decode3C (encode (.bwait d a b)) = some (.bwait d a b) := by
    unfold decode3C
    iterate 4 rw [if_neg (fits_other hf _ _ (by decide))]
    rw [if_pos hf]
    simp (disch := decide) only [encode, fld_or, fld_put_same, fld_put_apart, BitVec.or_zero, fld_const_or]
  have hm : (fld (encode (.bwait d a b)) 26 6).toNat = 60 := by rw [major_of_fits hf (by decide)]; rfl
  exact decode_of_raw (raw3C hm hr) hw

theorem btest (d : BitVec 5) (a : BitVec 5) (b : BitVec 5) : Statement (.btest d a b) := by
  intro _ hw
  have hf : fits (encode (.btest d a b)) 0xFC0007FF 0xF0000005 = true := (fits_iff _ _ _).mpr (by
    simp (disch := decide) only [encode, BitVec.and_or_distrib_right, put_and_apart, BitVec.or_zero]; rfl)
  have hr : decode3C (encode (.btest d a b)) = some (.btest d a b) := by
    unfold decode3C
    iterate 5 rw [if_neg (fits_other hf _ _ (by decide))]
    rw [if_pos hf]
    simp (disch := decide) only [encode, fld_or, fld_put_same, fld_put_apart, BitVec.or_zero, fld_const_or]
  have hm : (fld (encode (.btest d a b)) 26 6).toNat = 60 := by rw [major_of_fits hf (by decide)]; rfl
  exact decode_of_raw (raw3C hm hr) hw

theorem susp (d : BitVec 5) (a : BitVec 5) (b : BitVec 5) (g : BitVec 8) : Statement (.susp d a b g) := by
  intro _ hw
  have hf : fits (encode (.susp d a b g)) 0xFC000007 0xF4000000 = true := (fits_iff _ _ _).mpr (by
    simp (disch := decide) only [encode, BitVec.and_or_distrib_right, put_and_apart, BitVec.or_zero]; rfl)
  have hr : decode3D (encode (.susp d a b g)) = some (.susp d a b g) := by
    unfold decode3D
    rw [if_pos hf]
    simp (disch := decide) only [encode, fld_or, fld_put_same, fld_put_apart, BitVec.or_zero, fld_const_or]
  have hm : (fld (encode (.susp d a b g)) 26 6).toNat = 61 := by rw [major_of_fits hf (by decide)]; rfl
  exact decode_of_raw (raw3D hm hr) hw

theorem mfs (d : BitVec 5) (s : BitVec 12) : Statement (.mfs d s) := by
  intro _ hw
  have hf : fits (encode (.mfs d s)) 0xFC1FF000 0xF8000000 = true := (fits_iff _ _ _).mpr (by
    simp (disch := decide) only [encode, BitVec.and_or_distrib_right, put_and_apart, BitVec.or_zero]; rfl)
  have hr : decode3E (encode (.mfs d s)) = some (.mfs d s) := by
    unfold decode3E
    rw [if_pos hf]
    simp (disch := decide) only [encode, fld_or, fld_put_same, fld_put_apart, BitVec.or_zero, fld_const_or]
  have hm : (fld (encode (.mfs d s)) 26 6).toNat = 62 := by rw [major_of_fits hf (by decide)]; rfl
  exact decode_of_raw (raw3E hm hr) hw

theorem mts (a : BitVec 5) (s : BitVec 12) : Statement (.mts a s) := by
  intro _ hw
  have hf : fits (encode (.mts a s)) 0xFFE0F000 0xF8001000 = true := (fits_iff _ _ _).mpr (by
    simp (disch := decide) only [encode, BitVec.and_or_distrib_right, put_and_apart, BitVec.or_zero]; rfl)
  have hr : decode3E (encode (.mts a s)) = some (.mts a s) := by
    unfold decode3E
    iterate 1 rw [if_neg (fits_other hf _ _ (by decide))]
    rw [if_pos hf]
    simp (disch := decide) only [encode, fld_or, fld_put_same, fld_put_apart, BitVec.or_zero, fld_const_or]
  have hm : (fld (encode (.mts a s)) 26 6).toNat = 62 := by rw [major_of_fits hf (by decide)]; rfl
  exact decode_of_raw (raw3E hm hr) hw

theorem sys (c : BitVec 12) : Statement (.sys c) := by
  intro _ hw
  have hf : fits (encode (.sys c)) 0xFFFFF000 0xF8002000 = true := (fits_iff _ _ _).mpr (by
    simp (disch := decide) only [encode, BitVec.and_or_distrib_right, put_and_apart, BitVec.or_zero]; rfl)
  have hr : decode3E (encode (.sys c)) = some (.sys c) := by
    unfold decode3E
    iterate 2 rw [if_neg (fits_other hf _ _ (by decide))]
    rw [if_pos hf]
    simp (disch := decide) only [encode, fld_or, fld_put_same, fld_put_apart, BitVec.or_zero, fld_const_or]
  have hm : (fld (encode (.sys c)) 26 6).toNat = 62 := by rw [major_of_fits hf (by decide)]; rfl
  exact decode_of_raw (raw3E hm hr) hw

theorem brk (c : BitVec 12) : Statement (.brk c) := by
  intro _ hw
  have hf : fits (encode (.brk c)) 0xFFFFF000 0xF8003000 = true := (fits_iff _ _ _).mpr (by
    simp (disch := decide) only [encode, BitVec.and_or_distrib_right, put_and_apart, BitVec.or_zero]; rfl)
  have hr : decode3E (encode (.brk c)) = some (.brk c) := by
    unfold decode3E
    iterate 3 rw [if_neg (fits_other hf _ _ (by decide))]
    rw [if_pos hf]
    simp (disch := decide) only [encode, fld_or, fld_put_same, fld_put_apart, BitVec.or_zero, fld_const_or]
  have hm : (fld (encode (.brk c)) 26 6).toNat = 62 := by rw [major_of_fits hf (by decide)]; rfl
  exact decode_of_raw (raw3E hm hr) hw

theorem resm (d : BitVec 5) (a : BitVec 5) (b : BitVec 5) : Statement (.resm d a b) := by
  intro _ hw
  have hf : fits (encode (.resm d a b)) 0xFC0007FF 0xF4000001 = true := (fits_iff _ _ _).mpr (by
    simp (disch := decide) only [encode, encodeResm, BitVec.and_or_distrib_right, put_and_apart, BitVec.or_zero]; rfl)
  have hr : decode3D (encode (.resm d a b)) = some (.resm d a b) := by
    unfold decode3D
    iterate 1 rw [if_neg (fits_other hf _ _ (by decide))]
    rw [if_pos hf]
    simp (disch := decide) only [encode, encodeResm, fld_or, fld_put_same, fld_put_apart, BitVec.or_zero, fld_const_or]
  have hm : (fld (encode (.resm d a b)) 26 6).toNat = 61 := by rw [major_of_fits hf (by decide)]; rfl
  exact decode_of_raw (raw3D hm hr) hw

theorem cdisc (d : BitVec 5) (a : BitVec 5) : Statement (.cdisc d a) := by
  intro _ hw
  have hf : fits (encode (.cdisc d a)) 0xFC00FFFF 0xF4000002 = true := (fits_iff _ _ _).mpr (by
    simp (disch := decide) only [encode, encodeCdisc, BitVec.and_or_distrib_right, put_and_apart, BitVec.or_zero]; rfl)
  have hr : decode3D (encode (.cdisc d a)) = some (.cdisc d a) := by
    unfold decode3D
    iterate 2 rw [if_neg (fits_other hf _ _ (by decide))]
    rw [if_pos hf]
    simp (disch := decide) only [encode, encodeCdisc, fld_or, fld_put_same, fld_put_apart, BitVec.or_zero, fld_const_or]
  have hm : (fld (encode (.cdisc d a)) 26 6).toNat = 61 := by rw [major_of_fits hf (by decide)]; rfl
  exact decode_of_raw (raw3D hm hr) hw

theorem ret : Statement .ret := by
  intro _ hw
  have hf : fits (encode .ret) 0xFFFFFFFF 0xA0000002 = true := by decide
  have hr : decode28 (encode .ret) = some .ret := by
    unfold decode28
    iterate 2 rw [if_neg (fits_other hf _ _ (by decide))]
    rw [if_pos hf]
  have hm : (fld (encode .ret) 26 6).toNat = 40 := by rw [major_of_fits hf (by decide)]; rfl
  exact decode_of_raw (raw28 hm hr) hw

theorem tdone : Statement .tdone := by
  intro _ hw
  have hf : fits (encode .tdone) 0xFFFFFFFF 0xE8001000 = true := by decide
  have hr : decode3A (encode .tdone) = some .tdone := by
    unfold decode3A
    iterate 6 rw [if_neg (fits_other hf _ _ (by decide))]
    rw [if_pos hf]
  have hm : (fld (encode .tdone) 26 6).toNat = 58 := by rw [major_of_fits hf (by decide)]; rfl
  exact decode_of_raw (raw3A hm hr) hw

theorem tdoneC : Statement .tdoneC := by
  intro _ hw
  have hf : fits (encode .tdoneC) 0xFFFFFFFF 0xE8004000 = true := by decide
  have hr : decode3A (encode .tdoneC) = some .tdoneC := by
    unfold decode3A
    iterate 7 rw [if_neg (fits_other hf _ _ (by decide))]
    rw [if_pos hf]
  have hm : (fld (encode .tdoneC) 26 6).toNat = 58 := by rw [major_of_fits hf (by decide)]; rfl
  exact decode_of_raw (raw3A hm hr) hw

theorem eret : Statement .eret := by
  intro _ hw
  have hf : fits (encode .eret) 0xFFFFFFFF 0xF8004000 = true := by decide
  have hr : decode3E (encode .eret) = some .eret := by
    unfold decode3E
    iterate 4 rw [if_neg (fits_other hf _ _ (by decide))]
    rw [if_pos hf]
  have hm : (fld (encode .eret) 26 6).toNat = 62 := by rw [major_of_fits hf (by decide)]; rfl
  exact decode_of_raw (raw3E hm hr) hw

theorem yield : Statement .yield := by
  intro _ hw
  have hf : fits (encode .yield) 0xFFFFFFFF 0xF8005000 = true := by decide
  have hr : decode3E (encode .yield) = some .yield := by
    unfold decode3E
    iterate 5 rw [if_neg (fits_other hf _ _ (by decide))]
    rw [if_pos hf]
  have hm : (fld (encode .yield) 26 6).toNat = 62 := by rw [major_of_fits hf (by decide)]; rfl
  exact decode_of_raw (raw3E hm hr) hw

theorem nop : Statement .nop := by
  intro _ hw
  have hf : fits (encode .nop) 0xFFFFFFFF 0xF800F000 = true := by decide
  have hr : decode3E (encode .nop) = some .nop := by
    unfold decode3E
    iterate 6 rw [if_neg (fits_other hf _ _ (by decide))]
    rw [if_pos hf]
  have hm : (fld (encode .nop) 26 6).toNat = 62 := by rw [major_of_fits hf (by decide)]; rfl
  exact decode_of_raw (raw3E hm hr) hw

theorem yieldWaitEnd : Statement .yieldWaitEnd := fun h => absurd h (by decide)

theorem storePerform : Statement .storePerform := fun h => absurd h (by decide)

theorem wpollTimeout : Statement .wpollTimeout := fun h => absurd h (by decide)

theorem wpollRemoteReread : Statement .wpollRemoteReread := fun h => absurd h (by decide)

theorem fenceArrArrival : Statement .fenceArrArrival := fun h => absurd h (by decide)

theorem barriveEffect : Statement .barriveEffect := fun h => absurd h (by decide)

theorem mmaExecute : Statement .mmaExecute := fun h => absurd h (by decide)

theorem mmamoExecute : Statement .mmamoExecute := fun h => absurd h (by decide)

theorem zclrExecute : Statement .zclrExecute := fun h => absurd h (by decide)

theorem zldExecute : Statement .zldExecute := fun h => absurd h (by decide)

theorem zstExecute : Statement .zstExecute := fun h => absurd h (by decide)

theorem wbFill : Statement .wbFill := fun h => absurd h (by decide)

theorem mcommitArrival : Statement .mcommitArrival := fun h => absurd h (by decide)

theorem cpyExecute : Statement .cpyExecute := fun h => absurd h (by decide)

theorem rgathExecute : Statement .rgathExecute := fun h => absurd h (by decide)

theorem rscatExecute : Statement .rscatExecute := fun h => absurd h (by decide)

theorem collExecute : Statement .collExecute := fun h => absurd h (by decide)

theorem pfxhExecute : Statement .pfxhExecute := fun h => absurd h (by decide)

theorem pfxlkExecute : Statement .pfxlkExecute := fun h => absurd h (by decide)

theorem pfxinsExecute : Statement .pfxinsExecute := fun h => absurd h (by decide)

theorem pfxunpinExecute : Statement .pfxunpinExecute := fun h => absurd h (by decide)

theorem engineEntryComplete : Statement .engineEntryComplete := fun h => absurd h (by decide)

theorem remoteTimeout : Statement .remoteTimeout := fun h => absurd h (by decide)

theorem vectorReplay : Statement .vectorReplay := fun h => absurd h (by decide)

theorem scrubPass : Statement .scrubPass := fun h => absurd h (by decide)

theorem frameRetireStart : Statement .frameRetireStart := fun h => absurd h (by decide)

theorem copyPassEnd : Statement .copyPassEnd := fun h => absurd h (by decide)

theorem retireSwitchDone : Statement .retireSwitchDone := fun h => absurd h (by decide)

theorem qcfgWrite : Statement .qcfgWrite := fun h => absurd h (by decide)

theorem qnotifyWrite : Statement .qnotifyWrite := fun h => absurd h (by decide)

theorem packetConsume : Statement .packetConsume := fun h => absurd h (by decide)

theorem packetStart : Statement .packetStart := fun h => absurd h (by decide)

theorem barrierPacketComplete : Statement .barrierPacketComplete := fun h => absurd h (by decide)

theorem signalPacket : Statement .signalPacket := fun h => absurd h (by decide)

theorem launchAdmit : Statement .launchAdmit := fun h => absurd h (by decide)

theorem placeLaunch : Statement .placeLaunch := fun h => absurd h (by decide)

theorem taskFinish : Statement .taskFinish := fun h => absurd h (by decide)

theorem deadlineMiss : Statement .deadlineMiss := fun h => absurd h (by decide)

theorem tlbiPage : Statement .tlbiPage := fun h => absurd h (by decide)

theorem tlbiDataCtx : Statement .tlbiDataCtx := fun h => absurd h (by decide)

theorem tlbiInstrCtx : Statement .tlbiInstrCtx := fun h => absurd h (by decide)

theorem tlbiAll : Statement .tlbiAll := fun h => absurd h (by decide)

theorem tlbiAck : Statement .tlbiAck := fun h => absurd h (by decide)

theorem lpartWrite : Statement .lpartWrite := fun h => absurd h (by decide)

theorem maxvlWrite : Statement .maxvlWrite := fun h => absurd h (by decide)

theorem slotResume : Statement .slotResume := fun h => absurd h (by decide)

theorem slotPreempt : Statement .slotPreempt := fun h => absurd h (by decide)

theorem slotEnd : Statement .slotEnd := fun h => absurd h (by decide)

theorem preemptSave : Statement .preemptSave := fun h => absurd h (by decide)

theorem saveAbandon : Statement .saveAbandon := fun h => absurd h (by decide)

theorem systemCuttingResume : Statement .systemCuttingResume := fun h => absurd h (by decide)

theorem suspSectionWrite : Statement .suspSectionWrite := fun h => absurd h (by decide)

theorem watchdogExpire : Statement .watchdogExpire := fun h => absurd h (by decide)

theorem dbgHaltWrite : Statement .dbgHaltWrite := fun h => absurd h (by decide)

theorem threadHalted : Statement .threadHalted := fun h => absurd h (by decide)

theorem dbgdataRead : Statement .dbgdataRead := fun h => absurd h (by decide)

theorem dbgdataWrite : Statement .dbgdataWrite := fun h => absurd h (by decide)

theorem fqcfgWrite : Statement .fqcfgWrite := fun h => absurd h (by decide)

theorem faultRecordPost : Statement .faultRecordPost := fun h => absurd h (by decide)

theorem mextGo : Statement .mextGo := fun h => absurd h (by decide)

theorem registerWrite : Statement .registerWrite := fun h => absurd h (by decide)

theorem cxlMemRead : Statement .cxlMemRead := fun h => absurd h (by decide)

theorem cxlMemWrite : Statement .cxlMemWrite := fun h => absurd h (by decide)

theorem linkModuleFail : Statement .linkModuleFail := fun h => absurd h (by decide)

theorem flitReceive : Statement .flitReceive := fun h => absurd h (by decide)

theorem remoteRequestReceive : Statement .remoteRequestReceive := fun h => absurd h (by decide)

theorem trainSegmentReceive : Statement .trainSegmentReceive := fun h => absurd h (by decide)

theorem remoteAckReceive : Statement .remoteAckReceive := fun h => absurd h (by decide)

theorem remoteRetryTimeout : Statement .remoteRetryTimeout := fun h => absurd h (by decide)

theorem responseCacheExpire : Statement .responseCacheExpire := fun h => absurd h (by decide)

theorem switchFatalError : Statement .switchFatalError := fun h => absurd h (by decide)

theorem planeProbeResult : Statement .planeProbeResult := fun h => absurd h (by decide)

theorem quiesce : Statement .quiesce := fun h => absurd h (by decide)

theorem drained : Statement .drained := fun h => absurd h (by decide)

theorem pmapInstall : Statement .pmapInstall := fun h => absurd h (by decide)

theorem release : Statement .release := fun h => absurd h (by decide)

theorem rehashDrainTimeout : Statement .rehashDrainTimeout := fun h => absurd h (by decide)

theorem fmStandbyTakeover : Statement .fmStandbyTakeover := fun h => absurd h (by decide)

theorem deviceStart : Statement .deviceStart := fun h => absurd h (by decide)

theorem startTimeout : Statement .startTimeout := fun h => absurd h (by decide)

theorem currentTrip : Statement .currentTrip := fun h => absurd h (by decide)

theorem thermalThrottle : Statement .thermalThrottle := fun h => absurd h (by decide)

theorem thermalShutdown : Statement .thermalShutdown := fun h => absurd h (by decide)

theorem getVersion : Statement .getVersion := fun h => absurd h (by decide)

theorem getCapabilities : Statement .getCapabilities := fun h => absurd h (by decide)

theorem negotiateAlgorithms : Statement .negotiateAlgorithms := fun h => absurd h (by decide)

theorem getDigests : Statement .getDigests := fun h => absurd h (by decide)

theorem getCertificate : Statement .getCertificate := fun h => absurd h (by decide)

theorem challenge : Statement .challenge := fun h => absurd h (by decide)

theorem getMeasurements : Statement .getMeasurements := fun h => absurd h (by decide)

theorem mctpControl : Statement .mctpControl := fun h => absurd h (by decide)

theorem vendorStatusRead : Statement .vendorStatusRead := fun h => absurd h (by decide)

theorem vectorWordComplete : Statement .vectorWordComplete := fun h => absurd h (by decide)

theorem illegalInstr : Statement .illegalInstr := fun h => absurd h (by decide)

theorem fetchFault : Statement .fetchFault := fun h => absurd h (by decide)

theorem softError : Statement .softError := fun h => absurd h (by decide)

theorem portUp : Statement .portUp := fun h => absurd h (by decide)

theorem islandClockChange : Statement .islandClockChange := fun h => absurd h (by decide)

theorem cxlCacheSnoop : Statement .cxlCacheSnoop := fun h => absurd h (by decide)

end Sys2Proof.Laws.RoundTrip
end

