-- ==== Sys2Proof/Laws/Ports.lean ====
section
/-! SUPPORT. Laws of the ports of a TRIO slot (R206 to R209): which ports a word names, and what moving them on leaves. -/

namespace Sys2Proof.Machine

set_option Elab.async false

theorem nodup_eraseDups (n : Nat) : ∀ l : List Nat, l.length ≤ n → l.eraseDups.Nodup := by
  induction n with
  | zero => intro l h; cases l with
    | nil => simp
    | cons a l => simp at h
  | succ n ih =>
    intro l h
    cases l with
    | nil => simp
    | cons a l =>
      rw [List.eraseDups_cons, List.nodup_cons]
      refine ⟨?_, ih _ (le_trans (List.length_filter_le _ _) (by simpa using h))⟩
      rw [List.mem_eraseDups]
      simp

theorem nodup_portsOf (s : State) (l : List Nat) : (portsOf s l).Nodup := by
  unfold portsOf
  split
  · exact nodup_eraseDups _ _ le_rfl
  · exact List.nodup_nil

theorem mem_portsOf {s : State} {l : List Nat} {p : Nat} : p ∈ portsOf s l ↔ isTrio s = true ∧ 28 + p ∈ l := by
  unfold portsOf
  by_cases h : isTrio s = true
  · rw [if_pos h, List.mem_eraseDups, List.mem_map]
    constructor
    · rintro ⟨r, hr, rfl⟩
      rw [List.mem_filter] at hr
      have : 28 ≤ r := by simpa using hr.2
      exact ⟨h, by rw [show 28 + (r - 28) = r by omega]; exact hr.1⟩
    · rintro ⟨-, hr⟩
      exact ⟨28 + p, List.mem_filter.mpr ⟨hr, by simp⟩, by omega⟩
  · rw [if_neg h]; simp [h]

theorem popDamage_none {c p : Nat} {s : State} (h : s.thr.hid.damaged = []) : popDamage c p s = s := by simp [popDamage, h]

/-- Queue heads popped, each once, and nothing else of the machine touched. -/
theorem popQueues : ∀ l : List Nat, l.Nodup → ∀ t : State, t.thr.hid.damaged = [] →
    let u := l.foldl (fun t p => popDamage 5 p (setQport p (qport t p).tail t)) t
    u = { t with slot.qports := u.slot.qports } ∧ ∀ p, qport u p = if p ∈ l then (qport t p).tail else qport t p := by
  intro l
  induction l with
  | nil => intro _ t _; exact ⟨rfl, fun p => by simp⟩
  | cons a l ih =>
    intro hn t ht
    rw [List.nodup_cons] at hn
    have h1 : popDamage 5 a (setQport a (qport t a).tail t) = setQport a (qport t a).tail t := popDamage_none ht
    obtain ⟨h2, h3⟩ := ih hn.2 (setQport a (qport t a).tail t) ht
    rw [List.foldl_cons, h1]
    refine ⟨?_, fun p => ?_⟩
    · rw [h2]; rfl
    · rw [h3]
      unfold qport setQport
      dsimp only
      rw [SMap.get_set]
      by_cases hp : p = a
      · subst hp; rw [if_neg hn.1, if_pos rfl, if_pos List.mem_cons_self]
      · by_cases hm : p ∈ l
        · rw [if_pos hm, if_neg hp, if_pos (List.mem_cons_of_mem _ hm)]
        · rw [if_neg hm, if_neg hp, if_neg (by simp [hp, hm])]

/-- A word that names scalar registers alone moves on the queues it reads. -/
theorem settle_queues {s : State} {n : Need} (hv : n.vr = []) (hw : n.vw = []) :
    settle n s = (portsOf s n.xr).foldl (fun t p => popDamage 5 p (setQport p (qport t p).tail t)) s := by
  have e : ∀ u : State, portsOf u [] = [] := fun u => by unfold portsOf; split <;> rfl
  unfold settle
  rw [hv, hw]
  simp only [List.map_nil, e, List.foldl_nil]

/-- A scalar word at the ports: what turns it away, what holds it up, and what it leaves (R209). -/
theorem scalar_ports {s : State} {w : BitVec 32} {rs : List (BitVec 5)} {d : BitVec 5} {v : Word} {body : State → State} (hc : Calm s) (ht : isTrio s = true)
    (hb : body s = wx d.toNat v s) :
    let reads := fun p => ∃ r ∈ rs, isPort r p
    let bad := (∃ p, reads p ∧ (qReader p ≠ s.cur.2 ∨ isPort d p)) ∨ ∃ p, isPort d p ∧ qWriter p ≠ s.cur.2
    let stuck := (∃ p, reads p ∧ qport s p = []) ∨ ∃ p, isPort d p ∧ 8 ≤ (qport s p).length
    (bad → scalar w (rs.map BitVec.toNat) [d.toNat] s body = takeTrap w 0x04 s.thr.pc (w.setWidth 64) 0 s) ∧
    (¬ bad → stuck → scalar w (rs.map BitVec.toNat) [d.toNat] s body = { s with thr.pnd.blocked := true }) ∧
    (¬ bad → ¬ stuck → ∃ t, scalar w (rs.map BitVec.toNat) [d.toNat] s body = retired w (s.thr.pc + 4) t ∧
      t = { s with thr.x := t.thr.x, slot.qports := t.slot.qports } ∧
      (∀ r, r < 28 → rx t r = if r = d.toNat ∧ r ≠ 0 then v else rx s r) ∧
      (∀ p, p < 4 → (isPort d p → qport t p = qport s p ++ [v]) ∧ (reads p → qport t p = (qport s p).tail) ∧
        (¬ isPort d p → ¬ reads p → qport t p = qport s p))) := by
  intro reads bad stuck
  let n : Need := { word := w, xr := rs.map BitVec.toNat, xw := [d.toNat] }
  have hrd : ∀ p, 28 + p ∈ n.xr ↔ reads p := by
    intro p
    show 28 + p ∈ rs.map BitVec.toNat ↔ _
    rw [List.mem_map]; exact Iff.rfl
  have hwd : ∀ p, 28 + p ∈ n.xw ↔ isPort d p := by
    intro p
    show 28 + p ∈ [d.toNat] ↔ _
    rw [List.mem_singleton]; exact eq_comm
  have hpb : xPortBad s n = true ↔ bad := by
    unfold xPortBad
    rw [ht, Bool.true_and]
    simp only [Bool.or_eq_true, List.any_eq_true, Bool.and_eq_true, decide_eq_true_eq, bne_iff_ne, List.contains_iff_mem]
    constructor
    · rintro ((⟨r, hr, h1, h2⟩ | ⟨r, hr, h1, h2⟩) | ⟨r, hr, h1, h2⟩)
      · obtain ⟨p, rfl⟩ : ∃ p, r = 28 + p := ⟨r - 28, by omega⟩
        exact .inl ⟨p, (hrd p).mp hr, .inl (by simpa using h2)⟩
      · obtain ⟨p, rfl⟩ : ∃ p, r = 28 + p := ⟨r - 28, by omega⟩
        exact .inr ⟨p, (hwd p).mp hr, by simpa using h2⟩
      · obtain ⟨p, rfl⟩ : ∃ p, r = 28 + p := ⟨r - 28, by omega⟩
        exact .inl ⟨p, (hrd p).mp h2, .inr ((hwd p).mp hr)⟩
    · rintro (⟨p, h1, h2 | h2⟩ | ⟨p, h1, h2⟩)
      · exact .inl (.inl ⟨28 + p, (hrd p).mpr h1, by omega, by simpa using h2⟩)
      · exact .inr ⟨28 + p, (hwd p).mpr h2, by omega, (hrd p).mpr h1⟩
      · exact .inl (.inr ⟨28 + p, (hwd p).mpr h1, by omega, by simpa using h2⟩)
  have hmw : mustWait s n = true ↔ stuck := by
    unfold mustWait
    have e : portsOf s [] = [] := by unfold portsOf; split <;> rfl
    have e1 : n.vr = [] := rfl
    have e2 : n.vw = [] := rfl
    have e3 : n.queued = false := rfl
    rw [e1, e2, e3, hc.ahead]
    simp only [List.map_nil, e, List.any_nil, Bool.or_false, Bool.false_and, bne_self_eq_false, Bool.and_false, Bool.or_eq_true, List.any_eq_true, mem_portsOf, ht, true_and, List.isEmpty_iff, decide_eq_true_eq, hrd, hwd]
    exact Iff.rfl
  have hgate : gate n s = if xPortBad s n then .error (takeTrap w 0x04 s.thr.pc (w.setWidth 64) 0 s) else if mustWait s n then .error (waitHere s) else .ok s := by
    have hgb : graftBreak s n = false := by simp [graftBreak, hc.chain]
    have hsb : shapeBad s n = none := by simp [shapeBad, portsOf, show n.vr = [] from rfl]
    have hrs : reserve s n = s := by simp [reserve, portsOf, show n.vw = [] from rfl]
    have hrb : regsBad s n = xPortBad s n := by
      unfold regsBad
      simp [show n.regOk = true from rfl, show n.vr = [] from rfl, show n.vw = [] from rfl, show n.mr = [] from rfl, show n.mw = [] from rfl]
    unfold gate
    have r1 : n.roleOk = true := rfl
    have r2 : n.fmtOk = true := rfl
    have r3 : n.vt = false := rfl
    simp only [inBody_calm hc, hgb, hsb, hrs, hrb, r1, r2, r3, hc.idle, Bool.false_and, Bool.and_false, Bool.not_true, Bool.false_eq_true, if_false]
    rfl
  refine ⟨?_, ?_, ?_⟩
  · intro hbad
    show run n s _ = _
    unfold run
    rw [hgate, if_pos (hpb.mpr hbad)]
    exact inOrder_calm hc _
  · intro hbad hst
    show run n s _ = _
    unfold run
    rw [hgate, if_neg (fun h => hbad (hpb.mp h)), if_pos (hmw.mpr hst)]
    exact inOrder_calm hc _
  · intro hbad hst
    let t1 := wx d.toNat v s
    have hd1 : t1.thr.hid.damaged = [] := by
      show (wx d.toNat v s).thr.hid.damaged = []
      unfold wx; split
      · exact hc.whole
      · split
        · exact hc.whole
        · show s.thr.hid.damaged.filter _ = []; rw [hc.whole]; rfl
    have hf1 : t1 = { s with thr.x := t1.thr.x, slot.qports := t1.slot.qports } := by
      show wx d.toNat v s = { s with thr.x := (wx d.toNat v s).thr.x, slot.qports := (wx d.toNat v s).slot.qports }
      unfold wx; split
      · rfl
      · split
        · rfl
        · have e : s.thr.hid.damaged.filter (fun d_1 => !(d_1.cls = 6 && d_1.num = d.toNat)) = s.thr.hid.damaged := by rw [hc.whole]; rfl
          rw [e]
    obtain ⟨hu, hq⟩ := popQueues (portsOf t1 n.xr) (nodup_portsOf _ _) t1 hd1
    rw [← settle_queues rfl rfl] at hu hq
    have hfu : settle n t1 = { s with thr.x := (settle n t1).thr.x, slot.qports := (settle n t1).slot.qports } := by rw [hu, hf1]
    have hsc : SameCourse s (settle n t1) := by rw [hfu]; exact ⟨rfl, rfl, rfl, rfl, rfl⟩
    have ht1 : isTrio t1 = true := by rw [hf1]; exact ht
    refine ⟨settle n t1, ?_, hfu, ?_, ?_⟩
    · show run n s _ = _
      unfold run
      rw [hgate, if_neg (fun h => hbad (hpb.mp h)), if_neg (fun h => hst (hmw.mp h))]
      dsimp only
      rw [damageRead_calm hc]
      dsimp only
      rw [behindQueue_calm hc, hb]
      unfold finish
      dsimp only
      have hpc : (wx d.toNat v s).thr.pc = s.thr.pc := by
        have := congrArg (fun u : State => u.thr.pc) hf1; exact this
      rw [hpc, enqueueReplay_off rfl, retire_same hc hsc]
    · intro r hr
      have hx : (settle n t1).thr.x = t1.thr.x := by rw [hu]
      have e : ∀ u : State, rx u r = if r = 0 then 0 else SMap.get 0 u.thr.x r := by
        intro u; unfold rx
        have : decide (28 ≤ r) = false := by simp; omega
        rw [this, Bool.and_false]; simp
      rw [e, hx, ← e t1]
      by_cases hdp : 28 ≤ d.toNat
      · have h1 : t1 = setQport (d.toNat - 28) (qport s (d.toNat - 28) ++ [v]) s := by
          show wx d.toNat v s = _
          unfold wx; rw [if_neg (by omega), ht]; simp [hdp]
        rw [if_neg (by omega), h1, e, e]; rfl
      · have hp : NoPort s [d.toNat] := by right; intro q hq; rw [List.mem_singleton] at hq; omega
        show rx (wx d.toNat v s) r = _
        rw [rx_wx_any hp hc.whole]
        by_cases h0 : r = 0
        · rw [if_pos h0, if_neg (fun h => h.2 h0), h0]; rfl
        · by_cases h1 : r = d.toNat
          · rw [if_neg h0, if_pos h1, if_pos ⟨h1, h0⟩]
          · rw [if_neg h0, if_neg h1, if_neg (fun h => h1 h.1)]
    · intro p hp4
      have hq0 : qport t1 p = if d.toNat = 28 + p then qport s p ++ [v] else qport s p := by
        show qport (wx d.toNat v s) p = _
        by_cases hdp : 28 ≤ d.toNat
        · have h1 : wx d.toNat v s = setQport (d.toNat - 28) (qport s (d.toNat - 28) ++ [v]) s := by
            unfold wx; rw [if_neg (by omega), ht]; simp [hdp]
          rw [h1]
          unfold setQport qport
          dsimp only
          rw [SMap.get_set]
          by_cases h2 : p = d.toNat - 28
          · rw [if_pos h2, if_pos (by omega), h2]
          · rw [if_neg h2, if_neg (by omega)]
        · rw [if_neg (by omega)]
          have hp : NoPort s [d.toNat] := by right; intro q hq; rw [List.mem_singleton] at hq; omega
          by_cases h0 : d.toNat = 0
          · rw [h0]; rfl
          · rw [wx_plain hp hc.whole h0]; rfl
      have hm : p ∈ portsOf t1 n.xr ↔ reads p := by rw [mem_portsOf, ht1, hrd]; simp
      have hq1 := hq p
      have hnb : reads p → ¬ isPort d p := fun h1 h2 => hbad (.inl ⟨p, h1, .inr h2⟩)
      refine ⟨fun h1 => ?_, fun h1 => ?_, fun h1 h2 => ?_⟩
      · rw [hq1, if_neg (fun h2 => hnb (hm.mp h2) h1), hq0, if_pos (show d.toNat = 28 + p from h1)]
      · rw [hq1, if_pos (hm.mpr h1), hq0, if_neg (show ¬ d.toNat = 28 + p from hnb h1)]
      · rw [hq1, if_neg (fun h3 => h2 (hm.mp h3)), hq0, if_neg (show ¬ d.toNat = 28 + p from h1)]

end Sys2Proof.Machine
end

