-- ==== Sys2Proof/Laws/State.lean ====
section
/-! SUPPORT. What each named update of the state leaves and sets, field by field; focus; the memory at reset. -/

namespace Sys2Proof.Machine

set_option Elab.async false

/-! ## setQport -/
@[simp] theorem setQport_cur (p : Nat) (l : List Word) (s : State) : (setQport p l s).cur = s.cur := rfl
@[simp] theorem setQport_thr (p : Nat) (l : List Word) (s : State) : (setQport p l s).thr = s.thr := rfl
@[simp] theorem setQport_dev (p : Nat) (l : List Word) (s : State) : (setQport p l s).dev = s.dev := rfl
@[simp] theorem setQport_slot_qports (p : Nat) (l : List Word) (s : State) : (setQport p l s).slot.qports = SMap.set [] s.slot.qports p l := rfl

/-! ## setRing -/
@[simp] theorem setRing_cur (p : Nat) (l : List RingSlot) (s : State) : (setRing p l s).cur = s.cur := rfl
@[simp] theorem setRing_thr (p : Nat) (l : List RingSlot) (s : State) : (setRing p l s).thr = s.thr := rfl
@[simp] theorem setRing_dev (p : Nat) (l : List RingSlot) (s : State) : (setRing p l s).dev = s.dev := rfl
@[simp] theorem setRing_slot_rings (p : Nat) (l : List RingSlot) (s : State) : (setRing p l s).slot.rings = SMap.set [] s.slot.rings p l := rfl

/-! ## raiseUnits -/
@[simp] theorem raiseUnits_cur (k n : Nat) (s : State) : (raiseUnits k n s).cur = s.cur := rfl
@[simp] theorem raiseUnits_slot (k n : Nat) (s : State) : (raiseUnits k n s).slot = s.slot := rfl
@[simp] theorem raiseUnits_dev (k n : Nat) (s : State) : (raiseUnits k n s).dev = s.dev := rfl
@[simp] theorem raiseUnits_thr_pc (k n : Nat) (s : State) : (raiseUnits k n s).thr.pc = s.thr.pc := rfl
@[simp] theorem raiseUnits_thr_x (k n : Nat) (s : State) : (raiseUnits k n s).thr.x = s.thr.x := rfl
@[simp] theorem raiseUnits_thr_v (k n : Nat) (s : State) : (raiseUnits k n s).thr.v = s.thr.v := rfl
@[simp] theorem raiseUnits_thr_k (k n : Nat) (s : State) : (raiseUnits k n s).thr.k = s.thr.k := rfl
@[simp] theorem raiseUnits_thr_m (k n : Nat) (s : State) : (raiseUnits k n s).thr.m = s.thr.m := rfl
@[simp] theorem raiseUnits_thr_sr (k n : Nat) (s : State) : (raiseUnits k n s).thr.sr = s.thr.sr := rfl
@[simp] theorem raiseUnits_thr_pnd (k n : Nat) (s : State) : (raiseUnits k n s).thr.pnd = s.thr.pnd := rfl
@[simp] theorem raiseUnits_thr_hid_damaged (k n : Nat) (s : State) : (raiseUnits k n s).thr.hid.damaged = s.thr.hid.damaged := rfl

/-! ## clearSkip -/
@[simp] theorem clearSkip_cur (s : State) : (clearSkip s).cur = s.cur := rfl
@[simp] theorem clearSkip_slot (s : State) : (clearSkip s).slot = s.slot := rfl
@[simp] theorem clearSkip_dev (s : State) : (clearSkip s).dev = s.dev := rfl
@[simp] theorem clearSkip_thr_pc (s : State) : (clearSkip s).thr.pc = s.thr.pc := rfl
@[simp] theorem clearSkip_thr_x (s : State) : (clearSkip s).thr.x = s.thr.x := rfl
@[simp] theorem clearSkip_thr_v (s : State) : (clearSkip s).thr.v = s.thr.v := rfl
@[simp] theorem clearSkip_thr_hid (s : State) : (clearSkip s).thr.hid = s.thr.hid := rfl
@[simp] theorem clearSkip_thr_pnd (s : State) : (clearSkip s).thr.pnd = s.thr.pnd := rfl
@[simp] theorem clearSkip_thr_sr_wstat (s : State) : (clearSkip s).thr.sr.wstat = s.thr.sr.wstat &&& ~~~0x10 := rfl

/-! ## waitHere -/
@[simp] theorem waitHere_cur (s : State) : (waitHere s).cur = s.cur := rfl
@[simp] theorem waitHere_slot (s : State) : (waitHere s).slot = s.slot := rfl
@[simp] theorem waitHere_dev (s : State) : (waitHere s).dev = s.dev := rfl
@[simp] theorem waitHere_thr_pc (s : State) : (waitHere s).thr.pc = s.thr.pc := rfl
@[simp] theorem waitHere_thr_x (s : State) : (waitHere s).thr.x = s.thr.x := rfl
@[simp] theorem waitHere_thr_v (s : State) : (waitHere s).thr.v = s.thr.v := rfl
@[simp] theorem waitHere_thr_sr (s : State) : (waitHere s).thr.sr = s.thr.sr := rfl
@[simp] theorem waitHere_thr_hid (s : State) : (waitHere s).thr.hid = s.thr.hid := rfl
@[simp] theorem waitHere_thr_pnd_stores (s : State) : (waitHere s).thr.pnd.stores = s.thr.pnd.stores := rfl
@[simp] theorem waitHere_thr_pnd_blocked (s : State) : (waitHere s).thr.pnd.blocked = true := rfl

/-! ## setOut -/
@[simp] theorem setOut_cur (o n : Nat) (s : State) : (setOut o n s).cur = s.cur := rfl
@[simp] theorem setOut_thr (o n : Nat) (s : State) : (setOut o n s).thr = s.thr := rfl
@[simp] theorem setOut_dev (o n : Nat) (s : State) : (setOut o n s).dev = s.dev := rfl
@[simp] theorem setOut_slot_out (o n : Nat) (s : State) : (setOut o n s).slot.out = SMap.set 0 s.slot.out o n := rfl
@[simp] theorem setOut_slot_z (o n : Nat) (s : State) : (setOut o n s).slot.z = s.slot.z := rfl

/-! ## setTile -/
@[simp] theorem setTile_cur (z : Nat) (v : KReg) (s : State) : (setTile z v s).cur = s.cur := rfl
@[simp] theorem setTile_thr (z : Nat) (v : KReg) (s : State) : (setTile z v s).thr = s.thr := rfl
@[simp] theorem setTile_dev (z : Nat) (v : KReg) (s : State) : (setTile z v s).dev = s.dev := rfl
@[simp] theorem setTile_slot_z (z : Nat) (v : KReg) (s : State) : (setTile z v s).slot.z = SMap.set 0 s.slot.z z v := rfl
@[simp] theorem setTile_slot_zpoison (z : Nat) (v : KReg) (s : State) : (setTile z v s).slot.zpoison = s.slot.zpoison := rfl
@[simp] theorem setTile_slot_mxq (z : Nat) (v : KReg) (s : State) : (setTile z v s).slot.mxq = s.slot.mxq := rfl

/-! ## setWb -/
@[simp] theorem setWb_cur (n : Nat) (w : WbSlot) (s : State) : (setWb n w s).cur = s.cur := rfl
@[simp] theorem setWb_thr (n : Nat) (w : WbSlot) (s : State) : (setWb n w s).thr = s.thr := rfl
@[simp] theorem setWb_dev (n : Nat) (w : WbSlot) (s : State) : (setWb n w s).dev = s.dev := rfl
@[simp] theorem setWb_slot_wb (n : Nat) (w : WbSlot) (s : State) : (setWb n w s).slot.wb = SMap.set WbSlot.empty s.slot.wb n w := rfl
@[simp] theorem setWb_slot_z (n : Nat) (w : WbSlot) (s : State) : (setWb n w s).slot.z = s.slot.z := rfl
@[simp] theorem setWb_slot_mxq (n : Nat) (w : WbSlot) (s : State) : (setWb n w s).slot.mxq = s.slot.mxq := rfl

/-! ## newSer -/
@[simp] theorem newSer_cur (s : State) : (newSer s).cur = s.cur := rfl
@[simp] theorem newSer_thr (s : State) : (newSer s).thr = s.thr := rfl
@[simp] theorem newSer_slot (s : State) : (newSer s).slot = s.slot := rfl
@[simp] theorem newSer_dev_mem (s : State) : (newSer s).dev.mem = s.dev.mem := rfl
@[simp] theorem newSer_dev_ser (s : State) : (newSer s).dev.ser = s.dev.ser + 1 := rfl

/-! ## setHits -/
@[simp] theorem setHits_cur (h : Nat) (s : State) : (setHits h s).cur = s.cur := rfl
@[simp] theorem setHits_slot (h : Nat) (s : State) : (setHits h s).slot = s.slot := rfl
@[simp] theorem setHits_dev (h : Nat) (s : State) : (setHits h s).dev = s.dev := rfl
@[simp] theorem setHits_thr_pc (h : Nat) (s : State) : (setHits h s).thr.pc = s.thr.pc := rfl
@[simp] theorem setHits_thr_x (h : Nat) (s : State) : (setHits h s).thr.x = s.thr.x := rfl
@[simp] theorem setHits_thr_pnd (h : Nat) (s : State) : (setHits h s).thr.pnd = s.thr.pnd := rfl

/-! ## stopSlot -/
@[simp] theorem stopSlot_cur (r : FaultRec) (s : State) : (stopSlot r s).cur = s.cur := rfl
@[simp] theorem stopSlot_dev (r : FaultRec) (s : State) : (stopSlot r s).dev = s.dev := rfl
@[simp] theorem stopSlot_thr_pc (r : FaultRec) (s : State) : (stopSlot r s).thr.pc = r.tpc := rfl
@[simp] theorem stopSlot_thr_x (r : FaultRec) (s : State) : (stopSlot r s).thr.x = s.thr.x := rfl
@[simp] theorem stopSlot_thr_sr (r : FaultRec) (s : State) : (stopSlot r s).thr.sr = s.thr.sr := rfl
@[simp] theorem stopSlot_slot_held (r : FaultRec) (s : State) : (stopSlot r s).slot.held = some r := rfl
@[simp] theorem stopSlot_slot_posted (r : FaultRec) (s : State) : (stopSlot r s).slot.posted = false := rfl

/-! ## addRas -/
@[simp] theorem addRas_mem (c k n : Nat) (d : Device) : (addRas c k n d).mem = d.mem := rfl
@[simp] theorem addRas_slots (c k n : Nat) (d : Device) : (addRas c k n d).slots = d.slots := rfl
@[simp] theorem addRas_acnt (c k n : Nat) (d : Device) : (addRas c k n d).acnt = d.acnt := rfl
@[simp] theorem addRas_launches (c k n : Nat) (d : Device) : (addRas c k n d).launches = d.launches := rfl
@[simp] theorem addRas_tasks (c k n : Nat) (d : Device) : (addRas c k n d).tasks = d.tasks := rfl

/-! ## raiseVector -/
@[simp] theorem raiseVector_mem (v : Nat) (d : Device) : (raiseVector v d).mem = d.mem := rfl
@[simp] theorem raiseVector_slots (v : Nat) (d : Device) : (raiseVector v d).slots = d.slots := rfl
@[simp] theorem raiseVector_ctxs (v : Nat) (d : Device) : (raiseVector v d).ctxs = d.ctxs := rfl
@[simp] theorem raiseVector_launches (v : Nat) (d : Device) : (raiseVector v d).launches = d.launches := rfl
@[simp] theorem raiseVector_tasks (v : Nat) (d : Device) : (raiseVector v d).tasks = d.tasks := rfl

/-! ## setCtx -/
@[simp] theorem setCtx_mem (d : Device) (c : Nat) (b : CtxBlk) : (setCtx d c b).mem = d.mem := rfl
@[simp] theorem setCtx_slots (d : Device) (c : Nat) (b : CtxBlk) : (setCtx d c b).slots = d.slots := rfl
@[simp] theorem setCtx_msix (d : Device) (c : Nat) (b : CtxBlk) : (setCtx d c b).msix = d.msix := rfl
@[simp] theorem setCtx_launches (d : Device) (c : Nat) (b : CtxBlk) : (setCtx d c b).launches = d.launches := rfl
@[simp] theorem setCtx_tasks (d : Device) (c : Nat) (b : CtxBlk) : (setCtx d c b).tasks = d.tasks := rfl

/-! ## addAcnt -/
@[simp] theorem addAcnt_mem (a k n : Nat) (d : Device) : (addAcnt a k n d).mem = d.mem := rfl
@[simp] theorem addAcnt_slots (a k n : Nat) (d : Device) : (addAcnt a k n d).slots = d.slots := rfl
@[simp] theorem addAcnt_ras (a k n : Nat) (d : Device) : (addAcnt a k n d).ras = d.ras := rfl
@[simp] theorem addAcnt_launches (a k n : Nat) (d : Device) : (addAcnt a k n d).launches = d.launches := rfl
@[simp] theorem addAcnt_tasks (a k n : Nat) (d : Device) : (addAcnt a k n d).tasks = d.tasks := rfl

/-! ## setLaunch -/
@[simp] theorem setLaunch_mem (id : Nat) (l : Launch) (d : Device) : (setLaunch id l d).mem = d.mem := rfl
@[simp] theorem setLaunch_slots (id : Nat) (l : Launch) (d : Device) : (setLaunch id l d).slots = d.slots := rfl
@[simp] theorem setLaunch_packets (id : Nat) (l : Launch) (d : Device) : (setLaunch id l d).packets = d.packets := rfl
@[simp] theorem setLaunch_tasks (id : Nat) (l : Launch) (d : Device) : (setLaunch id l d).tasks = d.tasks := rfl

/-! ## setTask -/
@[simp] theorem setTask_mem (id : Nat) (t : Task) (d : Device) : (setTask id t d).mem = d.mem := rfl
@[simp] theorem setTask_slots (id : Nat) (t : Task) (d : Device) : (setTask id t d).slots = d.slots := rfl
@[simp] theorem setTask_packets (id : Nat) (t : Task) (d : Device) : (setTask id t d).packets = d.packets := rfl
@[simp] theorem setTask_launches (id : Nat) (t : Task) (d : Device) : (setTask id t d).launches = d.launches := rfl

/-! ## setQueueRegs -/
@[simp] theorem setQueueRegs_mem (q : Nat) (u : UQueue) (d : Device) : (setQueueRegs q u d).mem = d.mem := rfl
@[simp] theorem setQueueRegs_slots (q : Nat) (u : UQueue) (d : Device) : (setQueueRegs q u d).slots = d.slots := rfl
@[simp] theorem setQueueRegs_packets (q : Nat) (u : UQueue) (d : Device) : (setQueueRegs q u d).packets = d.packets := rfl
@[simp] theorem setQueueRegs_launches (q : Nat) (u : UQueue) (d : Device) : (setQueueRegs q u d).launches = d.launches := rfl
@[simp] theorem setQueueRegs_tasks (q : Nat) (u : UQueue) (d : Device) : (setQueueRegs q u d).tasks = d.tasks := rfl

/-! ## setRetire -/
@[simp] theorem setRetire_mem (c : Nat) (r : Retire) (d : Device) : (setRetire c r d).mem = d.mem := rfl
@[simp] theorem setRetire_slots (c : Nat) (r : Retire) (d : Device) : (setRetire c r d).slots = d.slots := rfl
@[simp] theorem setRetire_poison (c : Nat) (r : Retire) (d : Device) : (setRetire c r d).poison = d.poison := rfl

/-! ## setWindow -/
@[simp] theorem setWindow_mem (src : Nat) (w : Window) (d : Device) : (setWindow src w d).mem = d.mem := rfl
@[simp] theorem setWindow_slots (src : Nat) (w : Window) (d : Device) : (setWindow src w d).slots = d.slots := rfl

/-! ## mapSlot -/
@[simp] theorem mapSlot_mem (n : Nat) (f : Slot → Slot) (d : Device) : (mapSlot n f d).mem = d.mem := rfl
@[simp] theorem mapSlot_launches (n : Nat) (f : Slot → Slot) (d : Device) : (mapSlot n f d).launches = d.launches := rfl
@[simp] theorem mapSlot_tasks (n : Nat) (f : Slot → Slot) (d : Device) : (mapSlot n f d).tasks = d.tasks := rfl
@[simp] theorem mapSlot_ctxs (n : Nat) (f : Slot → Slot) (d : Device) : (mapSlot n f d).ctxs = d.ctxs := rfl

/-! ## mapDbg -/
@[simp] theorem mapDbg_mem (n r : Nat) (f : DbgBlk → DbgBlk) (d : Device) : (mapDbg n r f d).mem = d.mem := rfl
@[simp] theorem mapDbg_slots (n r : Nat) (f : DbgBlk → DbgBlk) (d : Device) : (mapDbg n r f d).slots = d.slots := rfl
@[simp] theorem mapDbg_launches (n r : Nat) (f : DbgBlk → DbgBlk) (d : Device) : (mapDbg n r f d).launches = d.launches := rfl
@[simp] theorem mapDbg_tasks (n r : Nat) (f : DbgBlk → DbgBlk) (d : Device) : (mapDbg n r f d).tasks = d.tasks := rfl

/-! ## pushStore -/
@[simp] theorem pushStore_cur (cls va : Nat) (bs : List (Nat × Byte × Byte)) (s : State) : (pushStore cls va bs s).cur = s.cur := rfl
@[simp] theorem pushStore_slot (cls va : Nat) (bs : List (Nat × Byte × Byte)) (s : State) : (pushStore cls va bs s).slot = s.slot := rfl
@[simp] theorem pushStore_thr_pc (cls va : Nat) (bs : List (Nat × Byte × Byte)) (s : State) : (pushStore cls va bs s).thr.pc = s.thr.pc := rfl
@[simp] theorem pushStore_thr_x (cls va : Nat) (bs : List (Nat × Byte × Byte)) (s : State) : (pushStore cls va bs s).thr.x = s.thr.x := rfl
@[simp] theorem pushStore_thr_v (cls va : Nat) (bs : List (Nat × Byte × Byte)) (s : State) : (pushStore cls va bs s).thr.v = s.thr.v := rfl
@[simp] theorem pushStore_thr_k (cls va : Nat) (bs : List (Nat × Byte × Byte)) (s : State) : (pushStore cls va bs s).thr.k = s.thr.k := rfl
@[simp] theorem pushStore_thr_m (cls va : Nat) (bs : List (Nat × Byte × Byte)) (s : State) : (pushStore cls va bs s).thr.m = s.thr.m := rfl
@[simp] theorem pushStore_thr_sr (cls va : Nat) (bs : List (Nat × Byte × Byte)) (s : State) : (pushStore cls va bs s).thr.sr = s.thr.sr := rfl
@[simp] theorem pushStore_thr_hid (cls va : Nat) (bs : List (Nat × Byte × Byte)) (s : State) : (pushStore cls va bs s).thr.hid = s.thr.hid := rfl
@[simp] theorem pushStore_dev_mem (cls va : Nat) (bs : List (Nat × Byte × Byte)) (s : State) : (pushStore cls va bs s).dev.mem = s.dev.mem := rfl
@[simp] theorem pushStore_dev_l1d (cls va : Nat) (bs : List (Nat × Byte × Byte)) (s : State) : (pushStore cls va bs s).dev.l1d = s.dev.l1d := rfl
@[simp] theorem pushStore_dev_fab (cls va : Nat) (bs : List (Nat × Byte × Byte)) (s : State) : (pushStore cls va bs s).dev.fab = s.dev.fab := rfl
@[simp] theorem pushStore_thr_pnd_stores (cls va : Nat) (bs : List (Nat × Byte × Byte)) (s : State) : (pushStore cls va bs s).thr.pnd.stores = s.thr.pnd.stores ++ [⟨s.dev.ser + 1, cls, 0, 0, 0, bs, s.thr.sr.taskid, va, none⟩] := rfl

/-! ## pushElem -/
@[simp] theorem pushElem_cur (cls va upd : Nat) (bs : List (Nat × Byte × Byte)) (s : State) : (pushElem cls va upd bs s).cur = s.cur := rfl
@[simp] theorem pushElem_slot (cls va upd : Nat) (bs : List (Nat × Byte × Byte)) (s : State) : (pushElem cls va upd bs s).slot = s.slot := rfl
@[simp] theorem pushElem_thr_pc (cls va upd : Nat) (bs : List (Nat × Byte × Byte)) (s : State) : (pushElem cls va upd bs s).thr.pc = s.thr.pc := rfl
@[simp] theorem pushElem_thr_x (cls va upd : Nat) (bs : List (Nat × Byte × Byte)) (s : State) : (pushElem cls va upd bs s).thr.x = s.thr.x := rfl
@[simp] theorem pushElem_thr_v (cls va upd : Nat) (bs : List (Nat × Byte × Byte)) (s : State) : (pushElem cls va upd bs s).thr.v = s.thr.v := rfl
@[simp] theorem pushElem_thr_k (cls va upd : Nat) (bs : List (Nat × Byte × Byte)) (s : State) : (pushElem cls va upd bs s).thr.k = s.thr.k := rfl
@[simp] theorem pushElem_thr_m (cls va upd : Nat) (bs : List (Nat × Byte × Byte)) (s : State) : (pushElem cls va upd bs s).thr.m = s.thr.m := rfl
@[simp] theorem pushElem_thr_sr (cls va upd : Nat) (bs : List (Nat × Byte × Byte)) (s : State) : (pushElem cls va upd bs s).thr.sr = s.thr.sr := rfl
@[simp] theorem pushElem_thr_hid (cls va upd : Nat) (bs : List (Nat × Byte × Byte)) (s : State) : (pushElem cls va upd bs s).thr.hid = s.thr.hid := rfl
@[simp] theorem pushElem_dev_mem (cls va upd : Nat) (bs : List (Nat × Byte × Byte)) (s : State) : (pushElem cls va upd bs s).dev.mem = s.dev.mem := rfl
@[simp] theorem pushElem_dev_l1d (cls va upd : Nat) (bs : List (Nat × Byte × Byte)) (s : State) : (pushElem cls va upd bs s).dev.l1d = s.dev.l1d := rfl
@[simp] theorem pushElem_dev_fab (cls va upd : Nat) (bs : List (Nat × Byte × Byte)) (s : State) : (pushElem cls va upd bs s).dev.fab = s.dev.fab := rfl
@[simp] theorem pushElem_thr_pnd_stores (cls va upd : Nat) (bs : List (Nat × Byte × Byte)) (s : State) : (pushElem cls va upd bs s).thr.pnd.stores = s.thr.pnd.stores ++ [⟨s.dev.ser, cls, 0, 0, upd, bs, s.thr.sr.taskid, va, none⟩] := rfl

/-! ## newLines -/
@[simp] theorem newLines_cur (s : State) : (newLines s).cur = s.cur := rfl
@[simp] theorem newLines_slot (s : State) : (newLines s).slot = s.slot := rfl
@[simp] theorem newLines_thr_pc (s : State) : (newLines s).thr.pc = s.thr.pc := rfl
@[simp] theorem newLines_thr_x (s : State) : (newLines s).thr.x = s.thr.x := rfl
@[simp] theorem newLines_thr_v (s : State) : (newLines s).thr.v = s.thr.v := rfl
@[simp] theorem newLines_thr_sr (s : State) : (newLines s).thr.sr = s.thr.sr := rfl
@[simp] theorem newLines_thr_hid (s : State) : (newLines s).thr.hid = s.thr.hid := rfl
@[simp] theorem newLines_thr_pnd_stores (s : State) : (newLines s).thr.pnd.stores = s.thr.pnd.stores := rfl
@[simp] theorem newLines_dev_mem (s : State) : (newLines s).dev.mem = s.dev.mem := rfl
@[simp] theorem newLines_dev_l1d (s : State) : (newLines s).dev.l1d = s.dev.l1d := rfl
@[simp] theorem newLines_thr_pnd_l1dMin (s : State) : (newLines s).thr.pnd.l1dMin = s.dev.ser + 1 := rfl
@[simp] theorem newLines_dev_ser (s : State) : (newLines s).dev.ser = s.dev.ser + 1 := rfl

/-! ## markHurt -/
@[simp] theorem markHurt_cur (h : Damage × Nat) (s : State) : (markHurt h s).cur = s.cur := rfl
@[simp] theorem markHurt_slot (h : Damage × Nat) (s : State) : (markHurt h s).slot = s.slot := rfl
@[simp] theorem markHurt_dev (h : Damage × Nat) (s : State) : (markHurt h s).dev = s.dev := rfl
@[simp] theorem markHurt_thr_pc (h : Damage × Nat) (s : State) : (markHurt h s).thr.pc = s.thr.pc := rfl
@[simp] theorem markHurt_thr_x (h : Damage × Nat) (s : State) : (markHurt h s).thr.x = s.thr.x := rfl
@[simp] theorem markHurt_thr_v (h : Damage × Nat) (s : State) : (markHurt h s).thr.v = s.thr.v := rfl
@[simp] theorem markHurt_thr_k (h : Damage × Nat) (s : State) : (markHurt h s).thr.k = s.thr.k := rfl
@[simp] theorem markHurt_thr_m (h : Damage × Nat) (s : State) : (markHurt h s).thr.m = s.thr.m := rfl
@[simp] theorem markHurt_thr_sr (h : Damage × Nat) (s : State) : (markHurt h s).thr.sr = s.thr.sr := rfl
@[simp] theorem markHurt_thr_pnd (h : Damage × Nat) (s : State) : (markHurt h s).thr.pnd = s.thr.pnd := rfl
@[simp] theorem markHurt_thr_hid_damaged (h : Damage × Nat) (s : State) : (markHurt h s).thr.hid.damaged = ⟨9, h.1.cls * 256 + h.1.num, h.2⟩ :: s.thr.hid.damaged := rfl

/-! ## clearHurt -/
@[simp] theorem clearHurt_cur (s : State) : (clearHurt s).cur = s.cur := rfl
@[simp] theorem clearHurt_slot (s : State) : (clearHurt s).slot = s.slot := rfl
@[simp] theorem clearHurt_dev (s : State) : (clearHurt s).dev = s.dev := rfl
@[simp] theorem clearHurt_thr_pc (s : State) : (clearHurt s).thr.pc = s.thr.pc := rfl
@[simp] theorem clearHurt_thr_x (s : State) : (clearHurt s).thr.x = s.thr.x := rfl
@[simp] theorem clearHurt_thr_v (s : State) : (clearHurt s).thr.v = s.thr.v := rfl
@[simp] theorem clearHurt_thr_k (s : State) : (clearHurt s).thr.k = s.thr.k := rfl
@[simp] theorem clearHurt_thr_m (s : State) : (clearHurt s).thr.m = s.thr.m := rfl
@[simp] theorem clearHurt_thr_sr (s : State) : (clearHurt s).thr.sr = s.thr.sr := rfl
@[simp] theorem clearHurt_thr_pnd (s : State) : (clearHurt s).thr.pnd = s.thr.pnd := rfl
@[simp] theorem clearHurt_thr_hid_damaged (s : State) : (clearHurt s).thr.hid.damaged = s.thr.hid.damaged.filter (fun d => d.cls != 9) := rfl

/-! ## cleanTile -/
@[simp] theorem cleanTile_cur (z : Nat) (s : State) : (cleanTile z s).cur = s.cur := rfl
@[simp] theorem cleanTile_thr (z : Nat) (s : State) : (cleanTile z s).thr = s.thr := rfl
@[simp] theorem cleanTile_dev (z : Nat) (s : State) : (cleanTile z s).dev = s.dev := rfl
@[simp] theorem cleanTile_slot_z (z : Nat) (s : State) : (cleanTile z s).slot.z = s.slot.z := rfl
@[simp] theorem cleanTile_slot_zdirty (z : Nat) (s : State) : (cleanTile z s).slot.zdirty = s.slot.zdirty := rfl
@[simp] theorem cleanTile_slot_mxq (z : Nat) (s : State) : (cleanTile z s).slot.mxq = s.slot.mxq := rfl
@[simp] theorem cleanTile_slot_zpoison (z : Nat) (s : State) : (cleanTile z s).slot.zpoison = s.slot.zpoison &&& ~~~(BitVec.ofNat 16 (2 ^ z)) := rfl

/-! ## writeBar -/
@[simp] theorem writeBar_cur (off : Nat) (b : Bar) (s : State) : (writeBar off b s).cur = s.cur := rfl
@[simp] theorem writeBar_thr (off : Nat) (b : Bar) (s : State) : (writeBar off b s).thr = s.thr := rfl
@[simp] theorem writeBar_slot (off : Nat) (b : Bar) (s : State) : (writeBar off b s).slot = s.slot := rfl

/-! ## raiseVlmax -/
@[simp] theorem raiseVlmax_live (old new : Nat) (t : Thread) : (raiseVlmax old new t).live = t.live := by unfold raiseVlmax; split <;> rfl
@[simp] theorem raiseVlmax_halted (old new : Nat) (t : Thread) : (raiseVlmax old new t).halted = t.halted := by unfold raiseVlmax; split <;> rfl
@[simp] theorem raiseVlmax_pc (old new : Nat) (t : Thread) : (raiseVlmax old new t).pc = t.pc := by unfold raiseVlmax; split <;> rfl
@[simp] theorem raiseVlmax_x (old new : Nat) (t : Thread) : (raiseVlmax old new t).x = t.x := by unfold raiseVlmax; split <;> rfl
@[simp] theorem raiseVlmax_cb (old new : Nat) (t : Thread) : (raiseVlmax old new t).cb = t.cb := by unfold raiseVlmax; split <;> rfl
@[simp] theorem raiseVlmax_s (old new : Nat) (t : Thread) : (raiseVlmax old new t).s = t.s := by unfold raiseVlmax; split <;> rfl
@[simp] theorem raiseVlmax_pnd (old new : Nat) (t : Thread) : (raiseVlmax old new t).pnd = t.pnd := by unfold raiseVlmax; split <;> rfl
@[simp] theorem raiseVlmax_sr_vl (old new : Nat) (t : Thread) : (raiseVlmax old new t).sr.vl = t.sr.vl := by unfold raiseVlmax; split <;> rfl
@[simp] theorem raiseVlmax_sr_vtype (old new : Nat) (t : Thread) : (raiseVlmax old new t).sr.vtype = t.sr.vtype := by unfold raiseVlmax; split <;> rfl

/-! ## Requests to other devices -/
@[simp] theorem sendReqBy_mem (own way pa n : Nat) (d : Device) : (sendReqBy own way pa n d).mem = d.mem := rfl
@[simp] theorem sendReqBy_slots (own way pa n : Nat) (d : Device) : (sendReqBy own way pa n d).slots = d.slots := rfl
@[simp] theorem sendReqBy_poison (own way pa n : Nat) (d : Device) : (sendReqBy own way pa n d).poison = d.poison := rfl
@[simp] theorem sendReqBy_launches (own way pa n : Nat) (d : Device) : (sendReqBy own way pa n d).launches = d.launches := rfl
@[simp] theorem sendReqBy_tasks (own way pa n : Nat) (d : Device) : (sendReqBy own way pa n d).tasks = d.tasks := rfl
@[simp] theorem sendReqBy_boot (own way pa n : Nat) (d : Device) : (sendReqBy own way pa n d).boot = d.boot := rfl
@[simp] theorem sendReqBy_fab_pmaps (own way pa n : Nat) (d : Device) : (sendReqBy own way pa n d).fab.pmaps = d.fab.pmaps := rfl
@[simp] theorem sendReqBy_fab_gens (own way pa n : Nat) (d : Device) : (sendReqBy own way pa n d).fab.gens = d.fab.gens := rfl
@[simp] theorem sendReqBy_fab_windows (own way pa n : Nat) (d : Device) : (sendReqBy own way pa n d).fab.windows = d.fab.windows := rfl
@[simp] theorem ackReads_mem (own : Nat) (d : Device) : (ackReads own d).mem = d.mem := rfl
@[simp] theorem ackReads_slots (own : Nat) (d : Device) : (ackReads own d).slots = d.slots := rfl
@[simp] theorem ackReads_poison (own : Nat) (d : Device) : (ackReads own d).poison = d.poison := rfl
@[simp] theorem ackReads_launches (own : Nat) (d : Device) : (ackReads own d).launches = d.launches := rfl
@[simp] theorem ackReads_tasks (own : Nat) (d : Device) : (ackReads own d).tasks = d.tasks := rfl
@[simp] theorem ackReads_boot (own : Nat) (d : Device) : (ackReads own d).boot = d.boot := rfl
@[simp] theorem ackReads_fab_pmaps (own : Nat) (d : Device) : (ackReads own d).fab.pmaps = d.fab.pmaps := rfl
@[simp] theorem ackReads_fab_gens (own : Nat) (d : Device) : (ackReads own d).fab.gens = d.fab.gens := rfl
@[simp] theorem ackReads_fab_windows (own : Nat) (d : Device) : (ackReads own d).fab.windows = d.fab.windows := rfl
@[simp] theorem sendReqBy_fab_nextSeq (own way pa n : Nat) (d : Device) : (sendReqBy own way pa n d).fab.nextSeq =
    SMap.set 0 d.fab.nextSeq (paDev pa) ((reqNumber d (paDev pa) + 1) % 2 ^ 32) := rfl

/-- What a request leaves: one more request, with the next number, not held and not yet sent again (R378). -/
theorem sendReqBy_fab_reqs (own way pa n : Nat) (d : Device) : ∃ r, (sendReqBy own way pa n d).fab.reqs = d.fab.reqs ++ [r] ∧
    r.dst = paDev pa ∧ r.seq = reqNumber d (paDev pa) ∧ r.plane = planeOf d way ∧ r.pa = pa ∧ r.len = n ∧ r.own = own ∧ r.tries = 0 ∧
    r.held = false := ⟨_, rfl, rfl, rfl, rfl, rfl, rfl, rfl, rfl, rfl⟩

@[simp] theorem ackReads_fab_reqs (own : Nat) (d : Device) : (ackReads own d).fab.reqs = d.fab.reqs.filter (fun r => r.own != own) := rfl

/-- Acknowledging an owner's reads a second time changes nothing. -/
theorem ackReads_twice (own : Nat) (d : Device) : ackReads own (ackReads own d) = ackReads own d := by
  simp [ackReads, List.filter_filter]

/-- Once a thread's reads are answered it owns no request (R378). -/
theorem allAnswered_none (s : State) : ∀ r ∈ (allAnswered s).dev.fab.reqs, r.own ≠ readOwner s.cur.1 s.cur.2 := by
  intro r hr
  unfold allAnswered at hr
  split at hr
  · rename_i h
    simp [List.isEmpty_iff.mp h] at hr
  · simp at hr
    exact hr.2

/-! ## Small updates of the device -/
@[simp] theorem countGraft_mem (k n : Nat) (d : Device) : (countGraft k n d).mem = d.mem := rfl
@[simp] theorem countGraft_slots (k n : Nat) (d : Device) : (countGraft k n d).slots = d.slots := rfl
@[simp] theorem countGraft_launches (k n : Nat) (d : Device) : (countGraft k n d).launches = d.launches := rfl
@[simp] theorem countGraft_tasks (k n : Nat) (d : Device) : (countGraft k n d).tasks = d.tasks := rfl
@[simp] theorem countGraft_chains (k n : Nat) (d : Device) : (countGraft k n d).chains = d.chains := rfl
@[simp] theorem reply_mem (bs : List Byte) (d : Device) : (reply bs d).mem = d.mem := rfl
@[simp] theorem reply_slots (bs : List Byte) (d : Device) : (reply bs d).slots = d.slots := rfl
@[simp] theorem reply_fab_windows (bs : List Byte) (d : Device) : (reply bs d).fab.windows = d.fab.windows := rfl
@[simp] theorem reply_fab_reqs (bs : List Byte) (d : Device) : (reply bs d).fab.reqs = d.fab.reqs := rfl
@[simp] theorem reply_fab_reply (bs : List Byte) (d : Device) : (reply bs d).fab.reply = bs := rfl
@[simp] theorem answer_mem (bs : List Byte) (d : Device) : (answer bs d).mem = d.mem := rfl
@[simp] theorem answer_slots (bs : List Byte) (d : Device) : (answer bs d).slots = d.slots := rfl
@[simp] theorem answer_fab (bs : List Byte) (d : Device) : (answer bs d).fab = d.fab := rfl
@[simp] theorem answer_boot (bs : List Byte) (d : Device) : (answer bs d).boot = d.boot := rfl
@[simp] theorem answer_mgmt_answer (bs : List Byte) (d : Device) : (answer bs d).mgmt.answer = bs := rfl
@[simp] theorem answer_mgmt_state (bs : List Byte) (d : Device) : (answer bs d).mgmt.state = d.mgmt.state := rfl
@[simp] theorem unhalt_mem (n : Nat) (k : Slot) (d : Device) : (unhalt n k d).mem = d.mem := rfl
@[simp] theorem unhalt_slots (n : Nat) (k : Slot) (d : Device) : (unhalt n k d).slots = d.slots := rfl
@[simp] theorem unhalt_launches (n : Nat) (k : Slot) (d : Device) : (unhalt n k d).launches = d.launches := rfl
@[simp] theorem unhalt_tasks (n : Nat) (k : Slot) (d : Device) : (unhalt n k d).tasks = d.tasks := rfl

/-! ## Focus -/

/-- Taking the thread that is in focus changes nothing. -/
@[simp] theorem focus_self (s : State) : focus s s.cur.1 s.cur.2 = s := by simp [focus]

/-- The thread asked for is in focus. -/
@[simp] theorem focus_cur (s : State) (n r : Nat) : (focus s n r).cur = (n, r) := by
  unfold focus
  split
  · assumption
  · rfl

/-- A change made elsewhere leaves the focus where it was. -/
@[simp] theorem within_cur (n r : Nat) (f : State → State) (s : State) : (within n r f s).cur = s.cur := by simp [within]

/-- A change of the parked device leaves the focus where it was. -/
@[simp] theorem onDevice_cur (f : Device → Device) (s : State) : (onDevice f s).cur = s.cur := rfl

/-- Memory does not depend on which thread is in focus. -/
@[simp] theorem focus_mem (s : State) (n r : Nat) : (focus s n r).dev.mem = s.dev.mem := by
  unfold focus
  split <;> rfl

/-! ## Reset -/

/-- The memory right after reset is in canonical form. -/
theorem reset_mem_wf : Memory.wf State.reset.dev.mem = true := by decide

end Sys2Proof.Machine
end

