-- ==== Sys2Proof/Tests/Slice0.lean ====
section
/-! SUPPORT. The model's own tests: words written out by the encoding tables, what decoding and well-formedness turn away, single steps
against the worked examples of the spec, and for every statement a state and operands that meet its hypotheses. -/

namespace Sys2Proof.Tests

open Sys2Proof.Machine

set_option Elab.async false

/-! ## Words of every family, written out from the encoding tables -/

/-- Major 0x01: words with every operand in its bits of the row. -/
theorem test_decode_01_0 :
    decode 0x04CB8000 = .ok (.add 6 11 16) ∧
    decode 0x04CB8001 = .ok (.sub 6 11 16) ∧
    decode 0x04CB8002 = .ok (.and 6 11 16) ∧
    decode 0x04AA7803 = .ok (.or 5 10 15) ∧
    decode 0x04CB8004 = .ok (.xor 6 11 16) ∧
    decode 0x04CB8005 = .ok (.sll 6 11 16) ∧
    decode 0x04CB8006 = .ok (.srl 6 11 16) ∧
    decode 0x04CB8007 = .ok (.sra 6 11 16) ∧
    decode 0x04CB8008 = .ok (.slt 6 11 16) ∧
    decode 0x04EC8809 = .ok (.sltu 7 12 17) ∧
    decode 0x04CB800A = .ok (.min 6 11 16) ∧
    decode 0x04CB800B = .ok (.max 6 11 16) := by
  exact ⟨rfl, rfl, rfl, rfl, rfl, rfl, rfl, rfl, rfl, rfl, rfl, rfl⟩

/-- Major 0x01: words with every operand in its bits of the row. -/
theorem test_decode_01_1 :
    decode 0x04EC880C = .ok (.minu 7 12 17) ∧
    decode 0x04EC880D = .ok (.maxu 7 12 17) ∧
    decode 0x04CB000E = .ok (.clz 6 11) ∧
    decode 0x04CB000F = .ok (.ctz 6 11) ∧
    decode 0x04EC0010 = .ok (.popc 7 12) ∧
    decode 0x050D0011 = .ok (.sextb 8 13) ∧
    decode 0x050D0012 = .ok (.sexth 8 13) ∧
    decode 0x050D0013 = .ok (.sextw 8 13) := by
  exact ⟨rfl, rfl, rfl, rfl, rfl, rfl, rfl, rfl⟩

/-- Major 0x02: words with every operand in its bits of the row. -/
theorem test_decode_02 :
    decode 0x08CB8000 = .ok (.mul 6 11 16) ∧
    decode 0x090D9001 = .ok (.mulhs 8 13 18) ∧
    decode 0x090D9002 = .ok (.mulhu 8 13 18) ∧
    decode 0x090D9003 = .ok (.mulhx 8 13 18) ∧
    decode 0x08CB8004 = .ok (.div 6 11 16) ∧
    decode 0x08EC8805 = .ok (.divu 7 12 17) ∧
    decode 0x08CB8006 = .ok (.rem 6 11 16) ∧
    decode 0x08EC8807 = .ok (.remu 7 12 17) := by
  exact ⟨rfl, rfl, rfl, rfl, rfl, rfl, rfl, rfl⟩

/-- Major 0x03: words with every operand in its bits of the row. -/
theorem test_decode_03_0 :
    decode 0x0CEC8820 = .ok (.fadd 7 12 17 2) ∧
    decode 0x0CEC8821 = .ok (.fsub 7 12 17 2) ∧
    decode 0x0CEC8822 = .ok (.fmul 7 12 17 2) ∧
    decode 0x0CEC8823 = .ok (.fdiv 7 12 17 2) ∧
    decode 0x0D0D0024 = .ok (.fsqrt 8 13 2) ∧
    decode 0x0CEC8825 = .ok (.fmad 7 12 17 2) ∧
    decode 0x0CCB8026 = .ok (.feq 6 11 16 2) ∧
    decode 0x0CCB8066 = .ok (.flt 6 11 16 2) ∧
    decode 0x0CCB80A6 = .ok (.fle 6 11 16 2) ∧
    decode 0x0CEC88E6 = .ok (.funo 7 12 17 2) ∧
    decode 0x0CEC0027 = .ok (.ftoi 7 12 2) ∧
    decode 0x0CEC0067 = .ok (.ftou 7 12 2) := by
  exact ⟨rfl, rfl, rfl, rfl, rfl, rfl, rfl, rfl, rfl, rfl, rfl, rfl⟩

/-- Major 0x03: words with every operand in its bits of the row. -/
theorem test_decode_03_1 :
    decode 0x0CEC00A7 = .ok (.itof 7 12 2) ∧
    decode 0x0CEC00E7 = .ok (.utof 7 12 2) ∧
    decode 0x0CEC0127 = .ok (.fcvs 7 12 2) ∧
    decode 0x0CEC0167 = .ok (.fcvh 7 12 2) ∧
    decode 0x0CEC01A7 = .ok (.fcvb 7 12 2) := by
  exact ⟨rfl, rfl, rfl, rfl, rfl⟩

/-- Major 0x04: words with every operand in its bits of the row. -/
theorem test_decode_04 :
    decode 0x10EC0011 = .ok (.addi 7 12 17) := by
  rfl

/-- Major 0x05: words with every operand in its bits of the row. -/
theorem test_decode_05 :
    decode 0x14EC0011 = .ok (.andi 7 12 17) := by
  rfl

/-- Major 0x06: words with every operand in its bits of the row. -/
theorem test_decode_06 :
    decode 0x18CB0010 = .ok (.ori 6 11 16) := by
  rfl

/-- Major 0x07: words with every operand in its bits of the row. -/
theorem test_decode_07 :
    decode 0x1CEC0011 = .ok (.xori 7 12 17) := by
  rfl

/-- Major 0x08: words with every operand in its bits of the row. -/
theorem test_decode_08 :
    decode 0x20EC0011 = .ok (.slti 7 12 17) := by
  rfl

/-- Major 0x09: words with every operand in its bits of the row. -/
theorem test_decode_09 :
    decode 0x250D0012 = .ok (.sltiu 8 13 18) := by
  rfl

/-- Major 0x0A: words with every operand in its bits of the row. -/
theorem test_decode_0a :
    decode 0x28C30010 = .ok (.lim 6 3 16) := by
  rfl

/-- Major 0x0B: words with every operand in its bits of the row. -/
theorem test_decode_0b :
    decode 0x2D00000D = .ok (.pcadd 8 13) := by
  rfl

/-- Major 0x0C: words with every operand in its bits of the row. -/
theorem test_decode_0c :
    decode 0x30EC0005 = .ok (.slli 7 12 5) ∧
    decode 0x30EC0105 = .ok (.srli 7 12 5) ∧
    decode 0x30EC0205 = .ok (.srai 7 12 5) ∧
    decode 0x30EC0305 = .ok (.rori 7 12 5) := by
  exact ⟨rfl, rfl, rfl, rfl⟩

/-- Major 0x10: words with every operand in its bits of the row. -/
theorem test_decode_10 :
    decode 0x40CB1015 = .ok (.ldb 6 11 1 21) := by
  rfl

/-- Major 0x11: words with every operand in its bits of the row. -/
theorem test_decode_11 :
    decode 0x44EC1016 = .ok (.ldbu 7 12 1 22) := by
  rfl

/-- Major 0x12: words with every operand in its bits of the row. -/
theorem test_decode_12 :
    decode 0x48CB1015 = .ok (.ldh 6 11 1 21) := by
  rfl

/-- Major 0x13: words with every operand in its bits of the row. -/
theorem test_decode_13 :
    decode 0x4CEC1016 = .ok (.ldhu 7 12 1 22) := by
  rfl

/-- Major 0x14: words with every operand in its bits of the row. -/
theorem test_decode_14 :
    decode 0x50CB1015 = .ok (.ldw 6 11 1 21) := by
  rfl

/-- Major 0x15: words with every operand in its bits of the row. -/
theorem test_decode_15 :
    decode 0x54EC1016 = .ok (.ldwu 7 12 1 22) := by
  rfl

/-- Major 0x16: words with every operand in its bits of the row. -/
theorem test_decode_16 :
    decode 0x58CB1015 = .ok (.ldd 6 11 1 21) := by
  rfl

/-- Major 0x18: words with every operand in its bits of the row. -/
theorem test_decode_18 :
    decode 0x60CB1015 = .ok (.stb 6 11 1 21) := by
  rfl

/-- Major 0x19: words with every operand in its bits of the row. -/
theorem test_decode_19 :
    decode 0x64CB1015 = .ok (.sth 6 11 1 21) := by
  rfl

/-- Major 0x1A: words with every operand in its bits of the row. -/
theorem test_decode_1a :
    decode 0x68CB1015 = .ok (.stw 6 11 1 21) := by
  rfl

/-- Major 0x1B: words with every operand in its bits of the row. -/
theorem test_decode_1b :
    decode 0x6CCB1015 = .ok (.std 6 11 1 21) := by
  rfl

/-- Major 0x1C: words with every operand in its bits of the row. -/
theorem test_decode_1c :
    decode 0x70EC8DB8 = .ok (.aadd 7 12 17 5 11 1) ∧
    decode 0x70EC8DB9 = .ok (.amin 7 12 17 5 11 1) ∧
    decode 0x70EC8DBA = .ok (.amax 7 12 17 5 11 1) ∧
    decode 0x70EC8DBB = .ok (.aand 7 12 17 5 11 1) ∧
    decode 0x70CB85AC = .ok (.aor 6 11 16 5 10 1) ∧
    decode 0x70EC8DBD = .ok (.axor 7 12 17 5 11 1) ∧
    decode 0x710D95CE = .ok (.aswap 8 13 18 5 12 1) ∧
    decode 0x70EC8DBF = .ok (.acas 7 12 17 5 11 1) := by
  exact ⟨rfl, rfl, rfl, rfl, rfl, rfl, rfl, rfl⟩

/-- Major 0x1D: words with every operand in its bits of the row. -/
theorem test_decode_1d :
    decode 0x750D95C1 = .ok (.afadd 8 13 18 5 12 1) := by
  rfl

/-- Major 0x1E: words with every operand in its bits of the row. -/
theorem test_decode_1e :
    decode 0x78080512 = .ok (.fence 8 5 18) ∧
    decode 0x78001009 = .ok (.fenceQ 9) ∧
    decode 0x78002510 = .ok (.fenceArr 5 16) ∧
    decode 0x790D3200 = .ok (.wpoll 8 13 2) ∧
    decode 0x780B4115 = .ok (.fenceAcq 11 1 21) ∧
    decode 0x780B5115 = .ok (.fenceRel 11 1 21) := by
  exact ⟨rfl, rfl, rfl, rfl, rfl, rfl⟩

/-- Major 0x20: words with every operand in its bits of the row. -/
theorem test_decode_20 :
    decode 0x80CB0010 = .ok (.beq 6 11 16) := by
  rfl

/-- Major 0x21: words with every operand in its bits of the row. -/
theorem test_decode_21 :
    decode 0x84CB0010 = .ok (.bne 6 11 16) := by
  rfl

/-- Major 0x22: words with every operand in its bits of the row. -/
theorem test_decode_22 :
    decode 0x88CB0010 = .ok (.blt 6 11 16) := by
  rfl

/-- Major 0x23: words with every operand in its bits of the row. -/
theorem test_decode_23 :
    decode 0x8CCB0010 = .ok (.bge 6 11 16) := by
  rfl

/-- Major 0x24: words with every operand in its bits of the row. -/
theorem test_decode_24 :
    decode 0x90EC0011 = .ok (.bltu 7 12 17) := by
  rfl

/-- Major 0x25: words with every operand in its bits of the row. -/
theorem test_decode_25 :
    decode 0x94EC0011 = .ok (.bgeu 7 12 17) := by
  rfl

/-- Major 0x26: words with every operand in its bits of the row. -/
theorem test_decode_26 :
    decode 0x98000006 = .ok (.jmp 6) := by
  rfl

/-- Major 0x27: words with every operand in its bits of the row. -/
theorem test_decode_27 :
    decode 0x9C000007 = .ok (.call 7) := by
  rfl

/-- Major 0x28: words with every operand in its bits of the row. -/
theorem test_decode_28 :
    decode 0xA0050000 = .ok (.jr 5) ∧
    decode 0xA0080001 = .ok (.callr 8) ∧
    decode 0xA0000002 = .ok .ret := by
  exact ⟨rfl, rfl, rfl⟩

/-- Major 0x29: words with every operand in its bits of the row. -/
theorem test_decode_29 :
    decode 0xA4D60A15 = .ok (.sbr 6 11 5 21) := by
  rfl

/-- Major 0x2A: words with every operand in its bits of the row. -/
theorem test_decode_2a :
    decode 0xA8C0000B = .ok (.vbr 6 11) ∧
    decode 0xA8010008 = .ok (.vjoin 8) ∧
    decode 0xA822000D = .ok (.vbany 1 13) ∧
    decode 0xA823000D = .ok (.vball 1 13) := by
  exact ⟨rfl, rfl, rfl, rfl⟩

/-- Major 0x2B: words with every operand in its bits of the row. -/
theorem test_decode_2b :
    decode 0xAC01000D = .ok (.vloop 1 13) := by
  rfl

/-- Major 0x2C: words with every operand in its bits of the row. -/
theorem test_decode_2c :
    decode 0xB10D0012 = .ok (.setvl 8 13 18) ∧
    decode 0xB12E1013 = .ok (.setvlr 9 14 19) ∧
    decode 0xB0072C01 = .ok (.cbld 7 12 1) := by
  exact ⟨rfl, rfl, rfl⟩

/-- Major 0x2D: words with every operand in its bits of the row. -/
theorem test_decode_2d :
    decode 0xB4CB85A0 = .ok (.vld 6 11 16 5 10) ∧
    decode 0xB4EC8EB2 = .ok (.vlds 7 12 17 6 11) ∧
    decode 0xB4EC8EB4 = .ok (.vldx 7 12 17 6 11) ∧
    decode 0xB50D97C6 = .ok (.vldmx 8 13 18 7 12) ∧
    decode 0xB4E40168 = .ok (.vsld 7 4 1 6) ∧
    decode 0xB4AC000A = .ok (.sdld 5 12) := by
  exact ⟨rfl, rfl, rfl, rfl, rfl, rfl⟩

/-- Major 0x2E: words with every operand in its bits of the row. -/
theorem test_decode_2e :
    decode 0xB8CB85A0 = .ok (.vst 6 11 16 5 10) ∧
    decode 0xB8EC8EB2 = .ok (.vsts 7 12 17 6 11) ∧
    decode 0xB8EC8EB4 = .ok (.vstx 7 12 17 6 11) ∧
    decode 0xB90D97C6 = .ok (.vstmx 8 13 18 7 12) ∧
    decode 0xB8E40168 = .ok (.vsst 7 4 1 6) ∧
    decode 0xB9D3C52A = .ok (.vscataddDev 14 19 24 5 2) ∧
    decode 0xB9F4CE3C = .ok (.vscataddHost 15 20 25 6 3) ∧
    decode 0xB9D3C52E = .ok (.vscataddSys 14 19 24 5 2) := by
  exact ⟨rfl, rfl, rfl, rfl, rfl, rfl, rfl, rfl⟩

/-- Major 0x30: words with every operand in its bits of the row. -/
theorem test_decode_30_0 :
    decode 0xC591B340 = .ok (.vadd 1 12 17 22 3 1) ∧
    decode 0xC591B341 = .ok (.vsub 1 12 17 22 3 1) ∧
    decode 0xC5B2BC42 = .ok (.vsubr 1 13 18 23 4 1) ∧
    decode 0xC591B343 = .ok (.vmul 1 12 17 22 3 1) ∧
    decode 0xC5D3C584 = .ok (.vmulhi 1 14 19 24 5 2) ∧
    decode 0xC591B345 = .ok (.vdiv 1 12 17 22 3 1) ∧
    decode 0xC591B346 = .ok (.vrem 1 12 17 22 3 1) ∧
    decode 0xC591B347 = .ok (.vmin 1 12 17 22 3 1) ∧
    decode 0xC591B348 = .ok (.vmax 1 12 17 22 3 1) ∧
    decode 0xC591B349 = .ok (.vand 1 12 17 22 3 1) ∧
    decode 0xC570AACA = .ok (.vor 1 11 16 21 2 3) ∧
    decode 0xC591B34B = .ok (.vxor 1 12 17 22 3 1) := by
  exact ⟨rfl, rfl, rfl, rfl, rfl, rfl, rfl, rfl, rfl, rfl, rfl, rfl⟩

/-- Major 0x30: words with every operand in its bits of the row. -/
theorem test_decode_30_1 :
    decode 0xC591B34C = .ok (.vshl 1 12 17 22 3 1) ∧
    decode 0xC591B34D = .ok (.vshr 1 12 17 22 3 1) ∧
    decode 0xC5F4CECE = .ok (.vaddsat 1 15 20 25 6 3) ∧
    decode 0xC5F4CECF = .ok (.vsubsat 1 15 20 25 6 3) ∧
    decode 0xC591B350 = .ok (.vmad 1 12 17 22 3 1) ∧
    decode 0xC5A09751 = .ok (.vcopy 1 13 18 7 1) := by
  exact ⟨rfl, rfl, rfl, rfl, rfl, rfl⟩

/-- Major 0x32: words with every operand in its bits of the row. -/
theorem test_decode_32_0 :
    decode 0xCDB2BC40 = .ok (.vfadd 1 13 18 23 4 1) ∧
    decode 0xCDB2BC41 = .ok (.vfsub 1 13 18 23 4 1) ∧
    decode 0xCDD3C582 = .ok (.vfsubr 1 14 19 24 5 2) ∧
    decode 0xCDB2BC43 = .ok (.vfmul 1 13 18 23 4 1) ∧
    decode 0xCDB2BC44 = .ok (.vfdiv 1 13 18 23 4 1) ∧
    decode 0xC92E0345 = .ok (.vfsqrt 9 14 3 1) ∧
    decode 0xCDB2BC46 = .ok (.vfmin 1 13 18 23 4 1) ∧
    decode 0xCDB2BC47 = .ok (.vfmax 1 13 18 23 4 1) ∧
    decode 0xCDB2BC48 = .ok (.vfmad 1 13 18 23 4 1) ∧
    decode 0xCDB2BC49 = .ok (.vfmsb 1 13 18 23 4 1) ∧
    decode 0xC90D02CA = .ok (.vfabs 8 13 2 3) ∧
    decode 0xC90D02CB = .ok (.vfneg 8 13 2 3) := by
  exact ⟨rfl, rfl, rfl, rfl, rfl, rfl, rfl, rfl, rfl, rfl, rfl, rfl⟩

/-- Major 0x32: words with every operand in its bits of the row. -/
theorem test_decode_32_1 :
    decode 0xCDD3C58C = .ok (.vfcsgn 1 14 19 24 5 2) ∧
    decode 0xCDC0994D = .ok (.vfcopy 1 14 19 1 1) := by
  exact ⟨rfl, rfl⟩

/-- Major 0x34: words with every operand in its bits of the row. -/
theorem test_decode_34_0 :
    decode 0xD02E9948 = .ok (.vcmpeq 1 14 19 1 1 1) ∧
    decode 0xD02E9949 = .ok (.vcmpne 1 14 19 1 1 1) ∧
    decode 0xD02E994A = .ok (.vcmplt 1 14 19 1 1 1) ∧
    decode 0xD02E994B = .ok (.vcmple 1 14 19 1 1 1) ∧
    decode 0xD02E994C = .ok (.vcmpgt 1 14 19 1 1 1) ∧
    decode 0xD02E994D = .ok (.vcmpge 1 14 19 1 1 1) ∧
    decode 0xD02510D0 = .ok (.kboth 1 5 2 3) ∧
    decode 0xD0472051 = .ok (.keither 2 7 4 1) ∧
    decode 0xD0472052 = .ok (.kdiffer 2 7 4 1) ∧
    decode 0xD0E40893 = .ok (.kbut 7 4 1 2) ∧
    decode 0xD0250094 = .ok (.kflip 1 5 2) ∧
    decode 0xD0200055 = .ok (.kfill 1 1) := by
  exact ⟨rfl, rfl, rfl, rfl, rfl, rfl, rfl, rfl, rfl, rfl, rfl, rfl⟩

/-- Major 0x34: words with every operand in its bits of the row. -/
theorem test_decode_34_1 :
    decode 0xD1260358 = .ok (.kcount 9 6 3 1) ∧
    decode 0xD1470459 = .ok (.klowest 10 7 4 1) := by
  exact ⟨rfl, rfl⟩

/-- Major 0x35: words with every operand in its bits of the row. -/
theorem test_decode_35 :
    decode 0xD4EC8EC0 = .ok (.vsel 7 12 17 6 3) ∧
    decode 0xD52006C1 = .ok (.vindex 9 6 3) ∧
    decode 0xD50D9742 = .ok (.vshup 8 13 18 7 1) ∧
    decode 0xD50D9743 = .ok (.vshdn 8 13 18 7 1) ∧
    decode 0xD50D9744 = .ok (.vperm 8 13 18 7 1) ∧
    decode 0xD50D02C5 = .ok (.vpack 8 13 2 3) ∧
    decode 0xD42D02C6 = .ok (.vuniq 1 13 2 3) ∧
    decode 0xD4EC8887 = .ok (.vget 7 12 17 2) ∧
    decode 0xD4EC8888 = .ok (.vput 7 12 17 2) := by
  exact ⟨rfl, rfl, rfl, rfl, rfl, rfl, rfl, rfl, rfl⟩

/-- Major 0x36: words with every operand in its bits of the row. -/
theorem test_decode_36 :
    decode 0xD94F0460 = .ok (.vredsum 10 15 4 1 1) ∧
    decode 0xD94F0461 = .ok (.vredmin 10 15 4 1 1) ∧
    decode 0xD94F0462 = .ok (.vredmax 10 15 4 1 1) ∧
    decode 0xD94F0463 = .ok (.vredand 10 15 4 1 1) ∧
    decode 0xD92E0364 = .ok (.vredor 9 14 3 1 1) ∧
    decode 0xD94F0465 = .ok (.vredxor 10 15 4 1 1) ∧
    decode 0xD97005A8 = .ok (.vfredsum 11 16 5 2 1) ∧
    decode 0xD99106E9 = .ok (.vfredsumw 12 17 6 3 1) ∧
    decode 0xD97005AA = .ok (.vfredmin 11 16 5 2 1) ∧
    decode 0xD97005AB = .ok (.vfredmax 11 16 5 2 1) := by
  exact ⟨rfl, rfl, rfl, rfl, rfl, rfl, rfl, rfl, rfl, rfl⟩

/-- Major 0x37: words with every operand in its bits of the row. -/
theorem test_decode_37 :
    decode 0xDD2E0340 = .ok (.vfexp2 9 14 3 1) ∧
    decode 0xDD2E0341 = .ok (.vflog2 9 14 3 1) ∧
    decode 0xDD4F0442 = .ok (.vfrecip 10 15 4 1) ∧
    decode 0xDD4F0443 = .ok (.vfrsqrt 10 15 4 1) ∧
    decode 0xDD2E0344 = .ok (.vftanh 9 14 3 1) ∧
    decode 0xDD0D02C5 = .ok (.vfsig 8 13 2 3) ∧
    decode 0xDD2E9954 = .ok (.vcvtsr 9 14 19 1 1 4) ∧
    decode 0xDD2E095C = .ok (.vcvtmx 9 14 1 1 1 4) ∧
    decode 0xDCEC01AD = .ok (.vcvt 7 12 1 2 13) := by
  exact ⟨rfl, rfl, rfl, rfl, rfl, rfl, rfl, rfl, rfl⟩

/-- Major 0x38: words with every operand in its bits of the row. -/
theorem test_decode_38 :
    decode 0xE1969500 = .ok (.mma 6 11 1 21) ∧
    decode 0xE20B1701 = .ok (.mmamo 8 5 2 23) ∧
    decode 0xE1C00008 = .ok (.zclr 7) ∧
    decode 0xE1960109 = .ok (.zld 6 11 1) ∧
    decode 0xE196010A = .ok (.zst 6 11 1) ∧
    decode 0xE196850B = .ok (.zmv 6 11 1 5) ∧
    decode 0xE1D8860C = .ok (.zmvt 7 12 1 6) ∧
    decode 0xE00E8010 = .ok (.wbld 7 1) ∧
    decode 0xE0140018 = .ok (.mcommit 10) := by
  exact ⟨rfl, rfl, rfl, rfl, rfl, rfl, rfl, rfl, rfl⟩

/-- Major 0x39: words with every operand in its bits of the row. -/
theorem test_decode_39_0 :
    decode 0xE4251740 = .ok (.moadd 1 5 2 7 1) ∧
    decode 0xE4251741 = .ok (.mosub 1 5 2 7 1) ∧
    decode 0xE4251742 = .ok (.momul 1 5 2 7 1) ∧
    decode 0xE4251743 = .ok (.mofma 1 5 2 7 1) ∧
    decode 0xE4E48EC4 = .ok (.mosc 7 4 17 6 3) ∧
    decode 0xE4259745 = .ok (.moscX 1 5 18 7 1) ∧
    decode 0xE42502C8 = .ok (.moexp 1 5 2 3) ∧
    decode 0xE4260349 = .ok (.morelu 1 6 3 1) ∧
    decode 0xE42502CA = .ok (.mosig 1 5 2 3) ∧
    decode 0xE426034B = .ok (.motanh 1 6 3 1) ∧
    decode 0xE42E9950 = .ok (.mofrom 1 14 19 1 1) ∧
    decode 0xE58106D1 = .ok (.mocolMean 12 1 6 3) := by
  exact ⟨rfl, rfl, rfl, rfl, rfl, rfl, rfl, rfl, rfl, rfl, rfl, rfl⟩

/-- Major 0x39: words with every operand in its bits of the row. -/
theorem test_decode_39_1 :
    decode 0xE5610592 = .ok (.mocolVar 11 1 5 2) ∧
    decode 0xE5610593 = .ok (.mocolStd 11 1 5 2) ∧
    decode 0xE5A2BC54 = .ok (.mocolUpper 13 2 23 4 1) ∧
    decode 0xE5A2BC55 = .ok (.mocolLower 13 2 23 4 1) ∧
    decode 0xE5C3C596 = .ok (.mocolSample 14 3 24 5 2) ∧
    decode 0xE4E40198 = .ok (.momv 7 4 1 2) ∧
    decode 0xE4EC0EDC = .ok (.mold 7 12 1 6 3) ∧
    decode 0xE4EC0EDD = .ok (.most 7 12 1 6 3) := by
  exact ⟨rfl, rfl, rfl, rfl, rfl, rfl, rfl, rfl⟩

/-- Major 0x3A: words with every operand in its bits of the row. -/
theorem test_decode_3a :
    decode 0xE8E00000 = .ok (.tget 7) ∧
    decode 0xE94F2000 = .ok (.tlaunch 10 15) ∧
    decode 0xE9703000 = .ok (.tlaunchW 11 16) ∧
    decode 0xE8008008 = .ok (.gwait 8) ∧
    decode 0xE900900D = .ok (.gtest 8 13) ∧
    decode 0xE900A006 = .ok (.rstat 8 1 2) ∧
    decode 0xE8001000 = .ok .tdone ∧
    decode 0xE8004000 = .ok .tdoneC := by
  exact ⟨rfl, rfl, rfl, rfl, rfl, rfl, rfl, rfl⟩

/-- Major 0x3B: words with every operand in its bits of the row. -/
theorem test_decode_3b :
    decode 0xEC065810 = .ok (.cpy 6 11 1) ∧
    decode 0xEC086811 = .ok (.rgath 8 13 1) ∧
    decode 0xEC086812 = .ok (.rscat 8 13 1) ∧
    decode 0xEC076013 = .ok (.coll 7 12 1) ∧
    decode 0xEC076014 = .ok (.pfxh 7 12 1) ∧
    decode 0xEC086815 = .ok (.pfxlk 8 13 1) ∧
    decode 0xEC097016 = .ok (.pfxins 9 14 1) ∧
    decode 0xEC0B8017 = .ok (.pfxunpin 11 16 1) := by
  exact ⟨rfl, rfl, rfl, rfl, rfl, rfl, rfl, rfl⟩

/-- Major 0x3C: words with every operand in its bits of the row. -/
theorem test_decode_3c :
    decode 0xF0086800 = .ok (.binit 8 13) ∧
    decode 0xF00A7801 = .ok (.bexpect 10 15) ∧
    decode 0xF00A0002 = .ok (.barrive 10) ∧
    decode 0xF00A7803 = .ok (.bexparr 10 15) ∧
    decode 0xF10D9004 = .ok (.bwait 8 13 18) ∧
    decode 0xF10D9005 = .ok (.btest 8 13 18) := by
  exact ⟨rfl, rfl, rfl, rfl, rfl, rfl⟩

/-- Major 0x3D: words with every operand in its bits of the row. -/
theorem test_decode_3d :
    decode 0xF4EC88B0 = .ok (.susp 7 12 17 22) ∧
    decode 0xF4EC8801 = .ok (.resm 7 12 17) ∧
    decode 0xF50D0002 = .ok (.cdisc 8 13) := by
  exact ⟨rfl, rfl, rfl⟩

/-- Major 0x3E: words with every operand in its bits of the row. -/
theorem test_decode_3e :
    decode 0xF8C00005 = .ok (.mfs 6 5) ∧
    decode 0xF8061005 = .ok (.mts 6 5) ∧
    decode 0xF8002006 = .ok (.sys 6) ∧
    decode 0xF8003006 = .ok (.brk 6) ∧
    decode 0xF8004000 = .ok .eret ∧
    decode 0xF8005000 = .ok .yield ∧
    decode 0xF800F000 = .ok .nop := by
  exact ⟨rfl, rfl, rfl, rfl, rfl, rfl, rfl⟩

/-! ## What is no instruction -/

/-- The format field of a scalar floating-point word has three values (R82). -/
theorem test_wf_formats : ∀ i ∈ [Instr.fadd 1 2 3 3, .fsub 1 2 3 3, .fmul 1 2 3 3, .fdiv 1 2 3 3, .fsqrt 1 2 3, .fmad 1 2 3 3, .feq 1 2 3 3, .flt 1 2 3 3,
    .fle 1 2 3 3, .funo 1 2 3 3, .ftoi 1 2 3, .ftou 1 2 3, .itof 1 2 3, .utof 1 2 3, .fcvs 1 2 3, .fcvh 1 2 3, .fcvb 1 2 3], i.wf = false := by
  decide

/-- No atomic has arrival scope 7 (R254). -/
theorem test_wf_atomics : ∀ i ∈ [Instr.aadd 1 2 3 7 0 0, .amin 1 2 3 7 0 0, .amax 1 2 3 7 0 0, .aand 1 2 3 7 0 0, .aor 1 2 3 7 0 0, .axor 1 2 3 7 0 0,
    .aswap 1 2 3 7 0 0, .acas 1 2 3 7 0 0, .afadd 1 2 3 7 0 0], i.wf = false := by
  decide

/-- No fence names a scope past its last, and `fence.q` names a queue (R258). -/
theorem test_wf_fences : ∀ i ∈ [Instr.fence 0 10 0, .fenceAcq 0 10 0, .fenceRel 0 10 0, .fenceQ 0, .fenceArr 9 0, .wpoll 1 2 9], i.wf = false := by
  decide

/-- Conversions name a format that they have (R123). -/
theorem test_wf_conversions : Instr.wf (.vcvtsr 1 2 3 0 0 7) = false ∧ Instr.wf (.vcvtmx 1 2 3 0 0 6) = false ∧ Instr.wf (.vcvt 1 2 0 0 0) = false ∧
    Instr.wf (.vcvt 1 2 0 0 20) = false := by
  decide

/-- Reserved majors are refused by name (R58). -/
theorem test_reserved_majors : ∀ m ∈ [0x00, 0x0D, 0x0E, 0x0F, 0x17, 0x1F, 0x2F, 0x3F], decode (BitVec.ofNat 32 (m * 2 ^ 26)) = .error .reservedMajor := by
  decide +kernel

/-- A function that is not assigned, a reserved bit that is 1, an operand value that is not assigned, and too few bytes (R59). -/
theorem test_unassigned : decode 0x0400007F = .error .unassigned ∧ decode 0xF800F001 = .error .unassigned ∧
    decode (encode (.fadd 1 2 3 3)) = .error .badOperand ∧ (decodeBytes [0, 0xF0, 0]).toOption = none := by
  decide +kernel

/-! ## Worked values of the spec -/

/-- The example of R373: the exclusive or of the nine fields of an address is 0x25. -/
theorem test_plane_hash : planeHash 0x0009012345678900 = 37 := by decide +kernel

/-- The check value of CRC-32C: that of the digits 1 to 9. -/
theorem test_crc : crc32c [0x31, 0x32, 0x33, 0x34, 0x35, 0x36, 0x37, 0x38, 0x39] = 0xE3069283 := by decide +kernel

/-- The worked encodings of `srai x5, x6, 3` and `vadd.x v2, v2, x7`. -/
theorem test_worked_words : decode 0x30A60203 = .ok (.srai 5 6 3) ∧ decode 0xC4423800 = .ok (.vadd 1 2 2 7 0 0) := by
  exact ⟨rfl, rfl⟩

/-! ## States that tests use -/

/-- A SOLO thread of slot 0 that runs, with the partition word of the example of R237 (VLEN 16384, 16 tiles, 39 units of
scratchpad); x5 holds the scratchpad's first address. -/
def solo : State :=
  { State.reset with
    thr := { Thread.absent with live := true, pc := 0x100, x := [(1, 0x200), (5, w64 scrBase), (6, 7)] }
    slot := { Slot.free with st := .running, part := 0x00270075, launch := 1, ctx := 3 } }

/-- A role of a TRIO slot that runs. -/
def trio (r : Nat) : State := { solo with cur := (0, r), slot.cfg := 1 }

/-- `solo` under a VTYPE, with vl and VLVALID elements. -/
def vec (t : BitVec 16) (vl vv : Word) : State :=
  { solo with thr.sr.vtype := t, thr.sr.vl := vl, thr.sr.vlvalid := vv, thr.sr.vlmax := 16384 }

/-- Operands of an event in place. -/
def arg (a : EvArg) (s : State) : State := { s with dev.arg := a }

/-- The load answers bytes for which p holds. -/
def gotIs (p : List Byte → List Loc → Bool) : Got → Bool
  | .ok bs locs => p bs locs
  | _ => false

/-- A checked load has its bytes. -/
theorem got_ok {g : Got} {p : List Byte → List Loc → Bool} (h : gotIs p g = true) : ∃ bs locs, g = .ok bs locs ∧ p bs locs = true := by
  cases g with
  | ok bs locs => exact ⟨bs, locs, rfl, h⟩
  | wait q => cases h
  | trap c v v2 x => cases h

/-- The access passes with locations for which p holds. -/
def chkIs (p : List Loc → Bool) : Chk → Bool
  | .ok locs => p locs
  | _ => false

/-- A checked access has its locations. -/
theorem chk_ok {g : Chk} {p : List Loc → Bool} (h : chkIs p g = true) : ∃ locs, g = .ok locs ∧ p locs = true := by
  cases g with
  | ok locs => exact ⟨locs, rfl, h⟩
  | trap c v x => cases h

/-- The load ends in a trap of a cause. -/
def gotTraps (c : Nat) : Got → Bool
  | .trap x _ _ _ => x = c
  | _ => false

/-- A load that ends in a trap has its operands. -/
theorem got_trap {g : Got} {c : Nat} (h : gotTraps c g = true) : ∃ v v2 x, g = .trap c v v2 x := by
  cases g with
  | ok bs locs => cases h
  | wait q => cases h
  | trap c' v v2 x => exact ⟨v, v2, x, by simp_all [gotTraps]⟩

/-- The load waits and asks nobody. -/
def gotWaits : Got → Bool
  | .wait none => true
  | _ => false

/-- A load that waits. -/
theorem got_wait {g : Got} (h : gotWaits g = true) : g = .wait none := by
  unfold gotWaits at h
  split at h <;> first | rfl | cases h

/-- The access ends in a trap of a cause. -/
def chkTraps (c : Nat) : Chk → Bool
  | .trap x _ _ => x = c
  | _ => false

/-- An access that ends in a trap has its operands. -/
theorem chk_trap {g : Chk} {c : Nat} (h : chkTraps c g = true) : ∃ v x, g = .trap c v x := by
  cases g with
  | ok locs => cases h
  | trap c' v x => exact ⟨v, x, by simp_all [chkTraps]⟩

/-- No location is another device's. -/
def noneRemote (locs : List Loc) : Bool := locs.all (fun l => l.kind != .remote)

theorem calm_solo : Calm solo := ⟨rfl, rfl, rfl, rfl, rfl⟩

/-- What a load read. -/
def bytesGot : Got → List Byte × List Loc
  | .ok bs locs => (bs, locs)
  | _ => ([], [])

theorem got_eq {g : Got} {p : List Byte → List Loc → Bool} (h : gotIs p g = true) : g = .ok (bytesGot g).1 (bytesGot g).2 := by
  cases g <;> first | rfl | cases h

/-- Where an access goes. -/
def locsOf : Chk → List Loc
  | .ok locs => locs
  | _ => []

theorem chk_eq {g : Chk} {p : List Loc → Bool} (h : chkIs p g = true) : g = .ok (locsOf g) := by
  cases g <;> first | rfl | cases h

/-- The value of a result that is one. -/
def okOf {ε α : Type} (y : α) : Except ε α → α
  | .ok x => x
  | .error _ => y

/-- A result that is one. -/
theorem ok_eq {ε α : Type} {y : α} {r : Except ε α} (h : r.isOk = true) : r = .ok (okOf y r) := by
  cases r with
  | ok x => rfl
  | error e => cases h

/-- `solo` with translations in its core: 0x10000 to this device's memory, 0x20000 to device 1, to which all ports are
up; 0x30000 has none. -/
def mapped : State :=
  { solo with
    dev.boot.maxdev := 1
    dev.tlb := [⟨0, 3, false, 0x10000, 65536, 0x50000, true, false⟩, ⟨0, 3, false, 0x20000, 65536, 2 ^ 48 + 0x50000, true, false⟩]
    dev.fab.ports := (upFrom 0 32).map (fun p => (p, 1))
    thr.x := [(5, 0x10000), (6, 0x20000), (7, 0x30000), (8, w64 scrBase)] }

/-- `mapped` in role 1, with the request for n bytes of device 1 that stands at 0x20000 already out. -/
def asked (n : Nat) : State := askFor (some (2 ^ 48 + 0x50000, n)) mapped

/-- The load waits and asks for n bytes of another device. -/
def gotAsks (n : Nat) : Got → Bool
  | .wait (some q) => q.2 = n
  | _ => false

/-- A load that waits and asks. -/
theorem got_asks {g : Got} {n : Nat} (h : gotAsks n g = true) : ∃ q, g = .wait (some q) := by
  unfold gotAsks at h
  split at h
  · exact ⟨_, rfl⟩
  · cases h

/-- A moment at which 2^20 cycles of every clock have passed since reset, and the moment before. -/
def late (s : State) : State := { s with dev.devtime := 349525, dev.psec := 334 }
/-- The moment before. -/
def early (s : State) : State := { s with dev.devtime := 349525, dev.psec := 333 }

/-- Every number below n has a property. -/
theorem below {n : Nat} {p : Nat → Bool} (h : (List.range n).all p = true) : ∀ j, j < n → p j = true := by
  intro j hj
  exact List.all_eq_true.mp h j (List.mem_range.mpr hj)

/-- Groups that a word may name. -/
theorem groups {s : State} {l : List (Nat × Nat)}
    (h : l.all (fun g => decide (0 < g.2) && decide (g.1 % g.2 = 0) && decide (g.1 + g.2 ≤ (if isTrio s then 28 else 32))) = true) :
    ∀ g ∈ l, 0 < g.2 ∧ GroupOk s g := by
  intro g hg
  have := List.all_eq_true.mp h g hg
  simp only [Bool.and_eq_true, decide_eq_true_eq] at this
  exact ⟨this.1.1, this.1.2, this.2⟩

/-- An undisturbed vector thread. -/
theorem vector_ok {s : State} (c : s.slot.chain = none) (a : s.thr.hid.active = false) (d : s.thr.hid.damaged = []) (n : (dbgOf s).sstep = false)
    (v : decide (vmN s ≤ 16384) = true) (r : decide (s.thr.pnd.replay.length < 128) = true) (q : queuedAhead s = 0 := by rfl) : VectorOk s :=
  ⟨⟨c, a, d, n, q⟩, of_decide_eq_true v, of_decide_eq_true r⟩

/-! ## Single steps -/

/-- What a register holds after an instruction, and the entries of port 0. -/
def after (i : Instr) (s : State) (r : Nat) : Option (Nat × List Word) :=
  match exec i s with
  | .next t => some ((SMap.get 0 t.thr.x r).toNat, SMap.get [] t.slot.qports 0)
  | _ => none

/-- `add x5, q0, q0` in the execute role pops one entry v and writes 2v (R209). -/
theorem test_port_pops_once : after (.add 5 28 28) { trio 1 with slot.qports := [(0, [21, 4])] } 5 = some (42, [4]) := by decide +kernel

/-- A destination that is also a source is read before it is written, and sums wrap (R74). -/
theorem test_add_wraps : after (.add 6 6 6) { solo with thr.x := [(6, 0x8000000000000003)] } 6 = some (6, []) := by decide +kernel

/-- Division by zero has a result and no trap (R81). -/
theorem test_div_by_zero : after (.div 7 6 0) solo 7 = some (2 ^ 63 - 1, []) := by decide +kernel

/-! ## A state and operands that meet the hypotheses of each statement -/

/-! ## The hypotheses of the statements can be met -/

theorem wit_RoundTrip : (Instr.vcvt 31 31 7 3 19).hasWord = true ∧ (Instr.vcvt 31 31 7 3 19).wf = true := ⟨rfl, rfl⟩

theorem wit_EveryBitCounts : decode 0xF800F000 = .ok .nop ∧ decode 0 = .error .reservedMajor ∧
    Instr.nop.hasWord = true ∧ Instr.nop.wf = true ∧ encode .nop = 0xF800F000 := ⟨rfl, rfl, rfl, rfl, rfl⟩

theorem wit_WorkedEncodings : (0xFFFFFFFF : BitVec 32).toNat / 2 ^ 26 = 0x3F ∧ (0x03FFFFFF : BitVec 32).toNat / 2 ^ 26 = 0x00 := by decide +kernel

/-- The machine after reset with a word placed for its thread. -/
def placed (w : Nat) : State := State.reset.withFetchWord 32 w

/-- Two threads of one core in SHARED mode at a vector word, of a task each; the launch of the second one has a deadline. -/
def sharing : State :=
  let s := placed 0xC0000000
  let l := Launch.offered 0 0 0 0
  let k : Task := ⟨1, 0, 0, 0, 0, [], 0, 0, 3, [], [], [], false⟩
  { s with
    thr.sr.taskid := 1
    dev.lpart := [(0, 2)], dev.tasks := [(1, k), (2, { k with launch := 2 })], dev.launches := [(1, l), (2, { l with dead := true })]
    dev.slots := [(1, { s.slot with ths := [(1, { s.thr with sr.taskid := 2 })] })] }

theorem wit_StepRunsInstruction :
    (let t := focus { sharing with dev.sched := [] } 0 1
     sharing.dev.sched = [.thread 0 1] ∧ sequenced t = true) ∧
    (let t := focus { placed 0xF800F000 with dev.sched := [] } 0 1
     (placed 0xF800F000).dev.sched = [.thread 0 1] ∧ laneMode t.dev 0 ≠ 2 ∧ canRun t = true ∧ sequenced t = false ∧
       (fetchWord t).toOption = some 0xF800F000) ∧
    decode 0xF800F000 = .ok .nop ∧
    (let t := focus { placed 0xFFFFFFFF with dev.sched := [] } 0 1
     (placed 0xFFFFFFFF).dev.sched = [.thread 0 1] ∧ canRun t = true ∧ sequenced t = false ∧ (fetchWord t).toOption = some 0xFFFFFFFF) ∧
    decode 0xFFFFFFFF = .error .reservedMajor ∧
    (let t := { placed 0xB3FFFFFF with thr.hid.active := true, thr.hid.lend := 8 }
     canRun t = true ∧ (fetchWord t).toOption = some 0xB3FFFFFF ∧ inBody t = true ∧ bodyBans 0xB3FFFFFF = true) ∧
    decode 0xB3FFFFFF = .error .unassigned ∧
    (canRun solo = true ∧ (fetchWord solo).toOption = none) ∧
    canRun { State.reset with dev.sched := [] } = false ∧ Instr.fmStandbyTakeover.hasWord = false ∧
    (State.reset.dev.sched = [] ∧ defaultTurn { solo with dev.sched := [] } = .thread 0 1) := by
  refine ⟨?_, ?_, rfl, ?_, rfl, ?_, rfl, ?_, ?_, rfl, ?_⟩ <;> decide +kernel

theorem wit_ResetState : readReg (0x10000 + 64 * 1023 + 8) Device.reset = 0x100 ∧ readReg (0xE8000 + 64 * 15) Device.reset = 16 ∧
    readReg (0xC0000 + 32 * 511) Device.reset = 16384 ∧ bits (mapOf Device.reset 255).toNat (4 * 63) 4 = 7 := by decide +kernel

theorem wit_StepKeepsInvariant : Inv State.reset ∧ ∃ t, step State.reset = .next t := by
  refine ⟨⟨rfl, by decide, by decide⟩, ?_⟩
  have h : defaultTurn State.reset = .elapse 1000000 := by decide +kernel
  exact ⟨_, by simp only [step, show State.reset.dev.sched = [] from rfl, h, doTurn]; rfl⟩

theorem wit_MemoryReadsBack : Device.reset.retire = [] ∧ Memory.wf Device.reset.mem = true ∧ Memory.wf [(0, 1), (2 ^ 63 + 5, 0xFF)] = true ∧
    Memory.wf [(0, 0)] = false ∧ Memory.wf [(1, 1), (0, 1)] = false := by decide +kernel

theorem wit_DivisionEdges : Calm solo ∧ NoPort solo [1, 5, 6] ∧
    (let s := { solo with thr.x := [(5, 0x8000000000000000), (6, BitVec.allOnes 64)] }
     Calm s ∧ (xr s 5).toInt = -2 ^ 63 ∧ (xr s 6).toInt = -1 ∧ xr s 7 = 0 ∧ (xr s 5).toInt < 0 ∧ 0 ≤ (xr s 7).toInt) ∧
    xr solo 6 ≠ 0 := by
  refine ⟨calm_solo, Or.inl rfl, ⟨⟨rfl, rfl, rfl, rfl, rfl⟩, ?_⟩, ?_⟩ <;> decide +kernel

theorem wit_ScalarFrame : Calm solo ∧ (scalarResult solo (.add 31 5 0)).isSome = true ∧ NoPort solo [31, 5, 0] ∧
    (scalarFloat solo (.fadd 31 5 6 0)).isSome = true ∧ (scalarFloat solo (.fadd 1 0 0 0)).map (fun p => enabledFlags solo p.2.2) = some 0 ∧
    branchTaken solo (.beq 0 0 0xFFFF) = some (true, 0xFFFF) := by
  refine ⟨calm_solo, rfl, Or.inl rfl, rfl, ?_, ?_⟩ <;> decide +kernel

/-- The execute role with one entry in queue port 0, which it reads, and port 1, which it writes, full. -/
def ported : State := { trio 1 with slot.qports := [(0, [42]), (1, List.replicate 8 9)] }

theorem wit_ScalarPorts : (scalarResult ported (.add 3 28 4)).isSome = true ∧ Calm ported ∧ isTrio ported = true ∧
    isPort 28 0 ∧ qReader 0 = ported.cur.2 ∧ qport ported 0 = [42] ∧
    (isPort 29 1 ∧ qWriter 1 = ported.cur.2 ∧ 8 ≤ (qport ported 1).length) ∧ (isPort 30 2 ∧ qReader 2 ≠ ported.cur.2) ∧
    (let s := { ported with slot.qports := [(1, List.replicate 7 9)] }
     Calm s ∧ qport s 0 = [] ∧ (qport s 1).length = 7) := by
  refine ⟨rfl, ⟨rfl, rfl, rfl, rfl, rfl⟩, rfl, rfl, rfl, rfl, ⟨rfl, rfl, ?_⟩, ⟨rfl, ?_⟩, ⟨rfl, rfl, rfl, rfl, rfl⟩, ?_⟩ <;> decide +kernel

/-- A role of a TRIO slot under INT32 with two elements, and a head of two elements in ring 0. -/
def ringed (r : Nat) (l : List RingSlot) : State :=
  { vec 5 2 2 with cur := (0, r), slot.cfg := 1, slot.rings := [(0, l)] }

/-- What every case of a ring word asks of the state. -/
abbrev RingOk (s : State) : Prop :=
  (s.slot.chain = none ∧ s.thr.hid.active = false ∧ s.thr.hid.damaged = [] ∧ (dbgOf s).sstep = false ∧ vmN s ≤ 16384 ∧ s.thr.pnd.replay.length < 128) ∧
  isTrio s = true ∧ fmtN s ≠ 0 ∧ intOk s = true ∧ (4 % grpN s = 0 ∧ 4 + grpN s ≤ 28) ∧ vlN s ≤ groupLen s (ewN s) (grpN s)

/-- A slot of a ring. -/
def full5 (n : Nat) : List RingSlot := List.replicate n ⟨7, 2, 5, 1, true⟩

theorem wit_RingTraffic :
    isPort 28 0 ∧ isPort 30 2 ∧
    (let s := ringed 1 [⟨7, 2, 5, 1, true⟩]
     RingOk s ∧ ringReader 0 = s.cur.2 ∧ (headSlot s 0).map (·.vl) = some (vlN s) ∧ vsN s = 0 ∧ ringReader 2 ≠ s.cur.2) ∧
    (let s := ringed 1 []
     RingOk s ∧ headSlot s 0 = none) ∧
    (let s := ringed 1 [⟨7, 3, 5, 1, true⟩]
     RingOk s ∧ (headSlot s 0).map (·.vl) ≠ some (vlN s)) ∧
    (let s := ringed 0 []
     RingOk s ∧ ringWriter 0 = s.cur.2 ∧ openSlot (ring s 0) = none ∧ (ring s 0).length < 4) ∧
    (let s := ringed 0 (full5 4)
     RingOk s ∧ openSlot (ring s 0) = none ∧ queuedAhead s = 0) ∧
    (let s := ringed 0 (full5 67)
     RingOk s ∧ openSlot (ring s 0) = none ∧ 4 ≤ (ring s 0).length ∧ queuedAhead s = 63) ∧
    (let s := ringed 0 (full5 68)
     RingOk s ∧ openSlot (ring s 0) = none ∧ 4 ≤ (ring s 0).length ∧ queuedAhead s = 64) := by
  refine ⟨rfl, rfl, ?_, ?_, ?_, ?_, ?_, ?_, ?_⟩ <;> decide +kernel

/-- `solo` with a store of class 1 on its way, which class 1 must wait for in class 15. -/
def storing1 : State := { solo with thr.pnd.stores := [⟨1, 1, 0, 0, 0, [], 0, 0, none⟩] }

theorem wit_ScalarLoads : loadForm (.ldd 7 5 0 0xFF8) = some (7, 5, 0, 0xFF8, 8, false) ∧ Calm solo ∧ NoPort solo [5, 7] ∧
    (∃ bs locs, loadBytes solo 0 8 scrBase 8 = .ok bs locs) ∧ (∃ v v2 h, loadBytes solo 0 8 (scrBase + 1) 8 = .trap 0x0C v v2 h) ∧
    loadBytes storing1 15 8 scrBase 8 = .wait none ∧ (∃ q, loadBytes mapped 0 8 0x20000 8 = .wait (some q)) ∧
    (Calm (asked 8) ∧ ∃ bs locs, loadBytes (asked 8) 0 8 0x20000 8 = .ok bs locs) := by
  refine ⟨rfl, calm_solo, Or.inl rfl, ?_, got_trap (by decide +kernel), got_wait (by decide +kernel), got_asks (n := 8) (by decide +kernel),
    ⟨rfl, rfl, rfl, rfl, rfl⟩, ?_⟩
  · exact ⟨_, _, got_eq (p := fun _ _ => true) (by decide +kernel)⟩
  · exact ⟨_, _, got_eq (p := fun _ _ => true) (by decide +kernel)⟩

theorem wit_AccessChecks : (∃ locs, xlateRange (xlateThr solo false) scrBase 8 = .ok locs) ∧
    (let l := okOf [] (xlateRange (xlateThr solo false) scrBase 8)
     noneRemote l = true ∧ l.all (fun l => l.kind != .mmio) = true) ∧ scrBase % 8 = 0 ∧
    solo.thr.sr.watch = [] ∧ loadWaits solo 0 = false ∧ solo.dev.poison = [] ∧ solo.thr.pnd.stores = [] ∧ solo.dev.l1d = [] ∧
    ((2 ^ 52 : Nat) % 8 = 0 ∧ (2 ^ 64 - 8) % 8 = 0 ∧ (1 : Nat) % 8 ≠ 0) := by
  refine ⟨⟨_, ok_eq (y := []) (by decide +kernel)⟩, ?_⟩
  decide +kernel

/-- `solo` with one store of a byte to its scratchpad on the way. -/
def storing : State :=
  arg { EvArg.zero with slot := 0, role := 1, idx := 0 } { solo with thr.pnd.stores := [⟨1, 0, 0, 0, 0, [(2 ^ 63, 0xFF, 9)], 0, scrBase, none⟩] }

theorem wit_ScalarStores : storeForm (.std 7 5 0 0) = some (7, 5, 0, 0, 8) ∧ Calm solo ∧ NoPort solo [7, 5] ∧
    (∃ locs, checkAccess solo true 8 scrBase 8 = .ok locs) ∧ (∃ v h, checkAccess solo true 8 (scrBase + 4) 8 = .trap 0x0C v h) ∧
    (let u := focus storing storing.dev.arg.slot storing.dev.arg.role
     eligible u 0 = true ∧ u.thr.pnd.stores[0]?.map (fun p => (p.fence, p.bytes)) = some (0, [(2 ^ 63, 0xFF, 9)]) ∧
     storing.dev.retire = [] ∧ storing.dev.mwatch = [] ∧ isScratch (2 ^ 63) = true) := by
  refine ⟨rfl, calm_solo, Or.inl rfl, ?_, chk_trap (by decide +kernel), ?_⟩
  · have ⟨locs, h, _⟩ := chk_ok (g := checkAccess solo true 8 scrBase 8) (p := fun _ => true) (by decide +kernel)
    exact ⟨locs, h⟩
  · decide +kernel

theorem wit_Atomics : (∃ f, atomicForm solo (.aadd 7 5 6 0 0 0) = some f ∧ f.n = 8 ∧ f.a = 5) ∧ Calm solo ∧ NoPort solo [7, 5, 6] ∧
    (∃ locs, checkAtomic solo (xr solo 5).toNat 8 = .ok locs ∧ noneRemote locs = true ∧ overlapsPending solo (locs.map (·.key)) = false) ∧
    atomicWaits solo 0 = false ∧ solo.dev.poison = [] := by
  refine ⟨⟨_, rfl, rfl, rfl⟩, calm_solo, Or.inl rfl, ?_, rfl, rfl⟩
  have ⟨locs, h, p⟩ := chk_ok (g := checkAtomic solo (xr solo 5).toNat 8)
    (p := fun l => noneRemote l && !overlapsPending solo (l.map (·.key))) (by decide +kernel)
  exact ⟨locs, h, by simpa using p⟩

theorem wit_Fences : Calm solo := calm_solo

/-- `solo` whose x7 differs from the doubleword at x5, and one where it does not; a doubleword in another device; an address that traps. -/
theorem wit_WpollWaitsForChange : Calm solo ∧ NoPort solo [5, 7] ∧ (∃ bs locs, loadBytes solo 15 8 (xr solo 5).toNat 8 = .ok bs locs ∧
      w64 (leNat bs) = xr solo 7 ∧ w64 (leNat bs) ≠ xr solo 6) ∧
    cycNow solo - solo.thr.pnd.wpollSince.getD (cycNow solo) < 2 ^ 20 ∧
    (let s := { mapped with thr.pnd.wpollSince := some 0 }
     (Calm (early s) ∧ (∃ q, loadBytes (early s) 15 8 (xr s 6).toNat 8 = .wait (some q)) ∧ cycNow (early s) - 0 < 2 ^ 20) ∧
     (Calm (late s) ∧ (∃ q, loadBytes (late s) 15 8 (xr s 6).toNat 8 = .wait (some q)) ∧ 2 ^ 20 ≤ cycNow (late s) - 0)) ∧
    (∃ v v2 h, loadBytes mapped 15 8 (xr mapped 7).toNat 8 = .trap 0x0A v v2 h) := by
  refine ⟨calm_solo, Or.inl rfl, ?_, ?_, ⟨⟨⟨rfl, rfl, rfl, rfl, rfl⟩, got_asks (n := 8) (by decide +kernel), ?_⟩,
    ⟨rfl, rfl, rfl, rfl, rfl⟩, got_asks (n := 8) (by decide +kernel), ?_⟩, got_trap (by decide +kernel)⟩
  · have ⟨bs, locs, h, p⟩ := got_ok (g := loadBytes solo 15 8 (xr solo 5).toNat 8)
      (p := fun bs _ => decide (w64 (leNat bs) = xr solo 7 ∧ w64 (leNat bs) ≠ xr solo 6)) (by decide +kernel)
    exact ⟨bs, locs, h, by simpa using p⟩
  all_goals decide +kernel

theorem wit_ScalarIntegerResult : (scalarResult solo (.rori 31 6 63)).isSome = true ∧ (scalarResult solo (.lim 0 3 0xFFFF)).isSome = true ∧
    Calm solo ∧ NoPort solo [31, 6] := ⟨rfl, rfl, calm_solo, Or.inl rfl⟩

/-- 0 ÷ 0 with NV enabled, and without. -/
theorem wit_ScalarFloatResult : Calm solo ∧ NoPort solo [1, 0, 0] ∧
    (scalarFloat solo (.fdiv 1 0 0 0)).map (fun p => enabledFlags solo p.2.2) = some 0 ∧
    (let s := { solo with thr.sr.fpctl := 0x1F00 }
     Calm s ∧ (scalarFloat s (.fdiv 1 0 0 0)).map (fun p => decide (enabledFlags s p.2.2 = 0)) = some false) := by
  refine ⟨calm_solo, Or.inl rfl, ?_, ⟨rfl, rfl, rfl, rfl, rfl⟩, ?_⟩ <;> decide +kernel

theorem wit_BranchTargets : Calm solo ∧ NoPort solo [5, 6] ∧ branchTaken solo (.bltu 6 5 0x8000) = some (true, 0x8000) ∧
    branchTaken solo (.beq 5 6 0x7FFF) = some (false, 0x7FFF) := ⟨calm_solo, Or.inl rfl, by decide +kernel, by decide +kernel⟩

theorem wit_VectorLengths : Calm solo ∧ NoPort solo [5, 7] ∧ NoPort solo [7] ∧ vtLegal 0 = false ∧ vtLegal 31 = false ∧ vtLegal 4096 = false ∧
    vtLegal 0x0A9 = false ∧ vtLegal 5 = true ∧ vtLegal 0x10D = true ∧ vtLegal 0xE13 = true ∧
    vtLegal (xr solo 6).toNat = true ∧ vtLegal (xr solo 7).toNat = false := by
  refine ⟨calm_solo, Or.inl rfl, Or.inl rfl, ?_⟩
  decide +kernel

/-- A legal descriptor of four FP32 elements in `mapped`'s memory at 0x10000, loadable, in one dimension. -/
def described : State :=
  { mapped with dev.mem := [(0x50000 + 8, 9), (0x50000 + 10, 1), (0x50000 + 11, 3), (0x50000 + 16, 4), (0x50000 + 20, 1)] }

/-- What a load of n bytes at x5 to x8 of a state answers for `cbld` or `sdld`. -/
def near (s : State) (c al r n : Nat) : Got := loadAs s true c al (xr s r).toNat n

theorem wit_RegisterLoads : Calm mapped ∧ NoPort mapped [5] ∧
    (∃ bs locs, near mapped 0 32 5 32 = .ok bs locs) ∧
    ((xr mapped 6).toNat % 32 = 0 ∧ (xr mapped 6).toNat / 65536 = ((xr mapped 6).toNat + 63) / 65536 ∧
      ∃ l, xlateThr mapped false (xr mapped 6).toNat = .ok l ∧ l.kind = .remote) ∧
    (∃ v v2 h, near mapped 0 32 7 32 = .trap 0x0A v v2 h) ∧ (∃ v v2 h, near mapped 0 8 7 64 = .trap 0x0A v v2 h) ∧
    (∃ bs locs, near described 0 8 5 64 = .ok bs locs ∧ streamLegal (leNat bs)) ∧
    (∃ bs locs, near mapped 0 8 5 64 = .ok bs locs ∧ ¬ streamLegal (leNat bs)) ∧
    (let s := { mapped with thr.pnd.stores := [⟨1, 0, 1, 0, 0, [], 0, 0, none⟩] }
     Calm s ∧ (∃ q, near s 0 32 5 32 = .wait q) ∧ ∃ q, near s 0 8 5 64 = .wait q) := by
  refine ⟨⟨rfl, rfl, rfl, rfl, rfl⟩, Or.inl rfl, ⟨_, _, got_eq (p := fun _ _ => true) (by decide +kernel)⟩, ⟨by decide +kernel, by decide +kernel, _,
    ok_eq (y := ⟨0, .devMem, false⟩) (by decide +kernel), by decide +kernel⟩, got_trap (by decide +kernel), got_trap (by decide +kernel),
    ⟨_, _, got_eq (p := fun _ _ => true) (by decide +kernel), ?_⟩, ⟨_, _, got_eq (p := fun _ _ => true) (by decide +kernel), ?_⟩, ⟨rfl, rfl, rfl, rfl, rfl⟩,
    ⟨_, got_wait (by decide +kernel)⟩, ⟨_, got_wait (by decide +kernel)⟩⟩ <;> unfold streamLegal <;> decide +kernel

/-- `vec` with VLVALID 0 at the second execution of its strip branch. -/
theorem wit_StripBranch : (let s := { vec 5 4 0 with thr.hid.srecAddr := some 0x100, thr.hid.srecStall := 1 }
     Calm s ∧ fmtN s ≠ 0 ∧ NoPort s [6] ∧ (vvN s : Int) < (xr s 6).toInt ∧ vvN s = 0 ∧ s.thr.hid.srecAddr = some s.thr.pc ∧ s.thr.hid.srecStall + 1 = 2) ∧
    (let s := vec 5 4 4
     Calm s ∧ fmtN s ≠ 0 ∧ NoPort s [6] ∧ (vvN s : Int) < (xr s 6).toInt ∧ vvN s ≠ 0) := by
  refine ⟨⟨⟨rfl, rfl, rfl, rfl, rfl⟩, ?_⟩, ⟨rfl, rfl, rfl, rfl, rfl⟩, ?_⟩
  · exact ⟨by decide +kernel, Or.inl rfl, by decide +kernel⟩
  · exact ⟨by decide +kernel, Or.inl rfl, by decide +kernel⟩

/-- A descriptor of four FP32 elements in one dimension that may be loaded and stored, as a number. -/
def fourFp32 : BitVec 512 := BitVec.ofNat 512 (9 * 2 ^ 64 + 1 * 2 ^ 80 + 3 * 2 ^ 88 + 4 * 2 ^ 128 + 1 * 2 ^ 160 + scrBase)

/-- A thread with that descriptor in stream register 1. -/
def streaming : State := { vec 9 4 4 with thr.s := [(1, ⟨true, fourFp32, 0, 0⟩)] }

/-- A thread at the last word of a body of `vloop` with one pass behind it. -/
def looping : State :=
  { streaming with thr.hid.active := true, thr.hid.lend := 0x104, thr.hid.lstart := 0xF0, thr.hid.lcount := 6, thr.hid.lstream := 1 }

theorem wit_LoopPasses : Calm streaming ∧ fmtN streaming ≠ 0 ∧ (streamOf streaming 0).loaded = false ∧ (streamOf streaming 1).loaded = true ∧
    0 < dCount (streamOf streaming 1).desc.toNat - (streamOf streaming 1).t ∧
    (let s := { streaming with thr.s := [(1, ⟨true, fourFp32, 4, 0⟩)] }
     Calm s ∧ (streamOf s 1).loaded = true ∧ dCount (streamOf s 1).desc.toNat - (streamOf s 1).t = 0) ∧
    (looping.slot.chain = none ∧ (dbgOf looping).sstep = false ∧ looping.thr.hid.damaged = [] ∧ looping.thr.hid.active = true ∧
     looping.thr.sr.tstat.getLsbD 0 = false ∧ looping.thr.pc + 4 = looping.thr.hid.lend ∧ 0 < looping.thr.hid.lcount - vvN looping) ∧
    (let s := { looping with thr.hid.lcount := 4 }
     s.thr.hid.lcount - vvN s = 0) ∧
    (looping.thr.hid.active = true ∧ queuedAhead looping = 0 ∧ inBody looping = true ∧ inBody { looping with thr.pc := 0x104 } = false) := by
  refine ⟨⟨rfl, rfl, rfl, rfl, rfl⟩, ?_, rfl, rfl, ?_, ⟨⟨rfl, rfl, rfl, rfl, rfl⟩, rfl, ?_⟩, ?_, ?_, ?_⟩ <;> decide +kernel

/-- A thread of four elements with fragments on chip, some spilled, and the spill area at an address. -/
def divided (l : List Frag) (n : Nat) (base : Word) : State :=
  { vec 5 4 4 with thr.hid.frags := l, thr.hid.fspilled := n, thr.hid.fsbase := base }

theorem wit_Divergence : Calm (vec 5 4 4) ∧ fmtN (vec 5 4 4) ≠ 0 ∧ (vec 5 4 4).thr.hid.frags.length < 8 ∧
    (vec 5 4 4).thr.hid.frags = [] ∧ (vec 5 4 4).thr.hid.fspilled = 0 ∧
    (let s := { vec 5 4 4 with thr.hid.frags := [⟨15, 3, 0x140, true⟩] }
     Calm s ∧ fmtN s ≠ 0 ∧ s.thr.hid.frags = [] ++ [⟨15, 3, 0x140, true⟩]) ∧
    (∀ b ∈ [scrBase, 0x30000], let s := divided (List.replicate 8 ⟨15, 3, 0x140, true⟩) 1 (w64 b)
     Calm s ∧ s.thr.hid.frags = ⟨15, 3, 0x140, true⟩ :: List.replicate 7 ⟨15, 3, 0x140, true⟩ ∧
      (let base := s.thr.hid.fsbase.toNat + 8208 * s.thr.hid.fspilled
       (xlateRange (xlateAcc s true false base 8208) base 8208).isOk = decide (b ≠ 0x30000))) ∧
    (∀ b ∈ [scrBase, 0x30000], let s := divided [] 2 (w64 b)
     Calm s ∧ s.thr.hid.frags = [] ∧ s.thr.hid.fspilled = 1 + 1 ∧
      (let base := s.thr.hid.fsbase.toNat + 8208 * 1
       (xlateRange (xlateAcc s false false base 8208) base 8208).isOk = decide (b ≠ 0x30000))) ∧
    (let s := divided [] 2 (w64 scrBase)
     let base := scrBase + 8208
     gotIs (fun _ l => l == okOf [] (xlateRange (xlateAcc s false false base 8208) base 8208))
       (loadChecked s 15 base (okOf [] (xlateRange (xlateAcc s false false base 8208) base 8208))) = true) := by
  refine ⟨⟨rfl, rfl, rfl, rfl, rfl⟩, ?_, ?_, rfl, rfl, ⟨⟨rfl, rfl, rfl, rfl, rfl⟩, ?_, rfl⟩, ?_, ?_, ?_⟩
  · decide +kernel
  · decide +kernel
  · decide +kernel
  · intro b hb
    exact ⟨⟨rfl, rfl, rfl, rfl, rfl⟩, rfl, by revert b; decide +kernel⟩
  · intro b hb
    exact ⟨⟨rfl, rfl, rfl, rfl, rfl⟩, rfl, rfl, by revert b; decide +kernel⟩
  · decide +kernel

theorem wit_NopOnlyAdvances : Calm solo ∧ (0xF800F001 : BitVec 32) &&& 0xFC00F000 = 0xF800F000 ∧ (0xF800F001 : BitVec 32) ≠ 0xF800F000 ∧
    (let s := placed 0xF800F001
     canRun s = true ∧ (fetchWord s).toOption = some 0xF800F001) :=
  ⟨calm_solo, by decide, by decide, by decide +kernel⟩

theorem wit_ReservedMajorsTrap : ((0x34000001 : BitVec 32).toNat / 2 ^ 26 ∈ [0x00, 0x0D, 0x0E, 0x0F, 0x17, 0x1F, 0x2F, 0x3F]) ∧
    (let s := placed 0x34000001
     canRun s = true ∧ (fetchWord s).toOption = some 0x34000001 ∧ s.slot.chain = none) :=
  ⟨by decide, by decide +kernel⟩

theorem wit_YieldMakesNotReady : Calm solo ∧ 15 < 16 := ⟨calm_solo, by decide⟩

/-- `solo` with a handler. -/
def handling : State := { solo with thr.sr.tvec := 0x800 }

theorem wit_TrapWords : Calm handling ∧ handling.thr.sr.tvec ≠ 0 ∧ handling.thr.sr.tstat.getLsbD 0 = false ∧ (dbgOf handling).bkstop = false ∧
    solo.slot.chain = none ∧ programCause 0x01 = false ∧ solo.thr.sr.tvec = 0 ∧ (0x08 : Nat) ≠ 0x30 ∧ (0x08 : Nat) ≠ 0x31 := by
  refine ⟨⟨rfl, rfl, rfl, rfl, rfl⟩, ?_⟩
  decide +kernel

theorem wit_EretReturns : Calm solo ∧ solo.thr.sr.tstat.getLsbD 0 = false ∧
    (let s := { solo with thr.sr.tstat := 1, thr.sr.tpc := 0x102 }
     Calm s ∧ s.thr.sr.tstat.getLsbD 0 = true ∧ s.thr.sr.tpc.toNat % 4 ≠ 0) ∧
    (let s := { solo with thr.sr.tstat := 1, thr.sr.tpc := 0x104 }
     Calm s ∧ s.thr.sr.tpc.toNat % 4 = 0) := by
  refine ⟨calm_solo, rfl, ⟨⟨rfl, rfl, rfl, rfl, rfl⟩, ?_⟩, ⟨rfl, rfl, rfl, rfl, rfl⟩, ?_⟩ <;> decide +kernel

/-- `solo` with 16 entries in its return stack, which spill to an address. -/
def deep (base : Word) : State := { mapped with thr.hid.rstack := List.replicate 16 0x40, thr.hid.rsbase := base }

/-- `mapped` with nothing in its return stack and one entry spilled to an address. -/
def spilt (base : Word) : State := { mapped with thr.hid.rsbase := base, thr.hid.nspilled := 1 }

/-- Where that entry lies. -/
def back8 (s : State) : Except (Nat × Nat) (List Loc) := xlateRange (xlateAcc s false false s.thr.hid.rsbase.toNat 8) s.thr.hid.rsbase.toNat 8

theorem wit_CallsAndReturns : Calm solo ∧ solo.thr.hid.rstack.length < 16 ∧ NoPort solo [1] ∧ (xr solo 1).toNat % 4 = 0 ∧ (rx solo 1).toNat % 4 = 0 ∧
    solo.thr.hid.rstack = [] ∧ solo.thr.hid.nspilled = 0 ∧ (xr solo 6).toNat % 4 ≠ 0 ∧
    (let s := { solo with thr.hid.rstack := [0x40], thr.x := [(1, 0x200)] }
     Calm s ∧ (rx s 1).toNat % 4 = 0 ∧ s.thr.hid.rstack = [] ++ [0x40]) ∧
    (let s := { solo with thr.x := [(1, 0x202)] }
     Calm s ∧ (rx s 1).toNat % 4 ≠ 0) ∧
    (Calm (deep 0x10000) ∧ (deep 0x10000).thr.hid.rstack = 0x40 :: List.replicate 15 0x40 ∧ (xlateRange (xlateAcc (deep 0x10000) true false 0x10000 8) 0x10000 8).isOk = true) ∧
    (Calm (deep 0x30000) ∧ (xlateRange (xlateAcc (deep 0x30000) true false 0x30000 8) 0x30000 8).isOk = false) ∧
    (∀ b ∈ [0x10000, 0x20000, 0x30000], let s := spilt (w64 b)
     Calm s ∧ s.thr.hid.rstack = [] ∧ s.thr.hid.nspilled = 0 + 1 ∧ (rx s 1).toNat % 4 = 0 ∧ (back8 s).isOk = decide (b ≠ 0x30000)) ∧
    gotIs (fun _ l => l == okOf [] (back8 (spilt 0x10000))) (loadChecked (spilt 0x10000) 15 0x10000 (okOf [] (back8 (spilt 0x10000)))) = true ∧
    (∃ q, loadChecked (spilt 0x20000) 15 0x20000 (okOf [] (back8 (spilt 0x20000))) = .wait (some q)) ∧
    (let s := { spilt 0x10000 with dev.poison := [(0x50000 / 64, true)] }
     Calm s ∧ (back8 s).isOk = true ∧ ∃ v v2 h, loadChecked s 15 0x10000 (okOf [] (back8 s)) = .trap 0x30 v v2 h) := by
  refine ⟨calm_solo, ?_, Or.inl rfl, ?_, ?_, rfl, rfl, ?_, ⟨⟨rfl, rfl, rfl, rfl, rfl⟩, ?_, rfl⟩, ⟨⟨rfl, rfl, rfl, rfl, rfl⟩, ?_⟩, ⟨⟨rfl, rfl, rfl, rfl, rfl⟩, rfl, ?_⟩,
    ⟨⟨rfl, rfl, rfl, rfl, rfl⟩, ?_⟩, ?_, ?_, got_asks (n := 8) (by decide +kernel), ⟨rfl, rfl, rfl, rfl, rfl⟩, ?_, got_trap (by decide +kernel)⟩
  case refine_9 => exact fun b hb => ⟨⟨rfl, rfl, rfl, rfl, rfl⟩, rfl, rfl, rfl, by revert b; decide +kernel⟩
  all_goals decide +kernel

theorem wit_StateRegisters : Calm solo ∧ NoPort solo [7] ∧ (readSreg solo 0x11).isSome = true ∧ readSreg solo 0xFFF = none ∧
    sregWaits 0x11 = true ∧ matrixBusy solo = false ∧ sregWritable 0x26 = true ∧ sregWritable 0x4C = true ∧ sregWritable 0x48 = true ∧
    sregWritable 0x4B = true ∧ sregWritable 0x005 = false ∧ sregWritable 0xFFF = false := by
  refine ⟨calm_solo, Or.inl rfl, ?_⟩
  decide +kernel

/-- FP32 elements 1, 3, and for the flags: a signalling NaN and 1 + 2⁻²³, in v8; indices 0 and 1 in v12. -/
def lanes (t : BitVec 16) (n : Word) : State :=
  { vec t n n with thr.v := [(8, 0x3F800001_7F800001_40400000_3F800000), (12, 0x00000001_00000000)] }

/-- The same under FPCTL with every flag enabled. -/
def strict (t : BitVec 16) (n : Word) : State := { lanes t n with thr.sr.fpctl := 0x1F00 }

theorem wit_ElementwiseWords :
    (∃ F, vecForm (lanes 5 2) (.vadd 0 4 8 12 0 0) = some F ∧ VecReady (lanes 5 2) F ∧
      ∀ j, written (lanes 5 2) F.k j → enabledFlags (lanes 5 2) (F.val j).2 = 0) ∧
    (∃ F, vecForm (strict 9 3) (.vfadd 0 4 8 8 0 0) = some F ∧ VecReady (strict 9 3) F ∧ written (strict 9 3) F.k 2 ∧
      enabledFlags (strict 9 3) (F.val 2).2 ≠ 0 ∧ ∀ j, j < 2 → written (strict 9 3) F.k j → enabledFlags (strict 9 3) (F.val j).2 = 0) := by
  refine ⟨⟨_, rfl, ⟨vector_ok rfl rfl rfl rfl (by decide +kernel) rfl, by decide +kernel, rfl, rfl, by decide +kernel, by decide +kernel, ?_, ?_, Or.inl rfl⟩, ?_⟩,
    ⟨_, rfl, ⟨vector_ok rfl rfl rfl rfl (by decide +kernel) rfl, by decide +kernel, rfl, rfl, by decide +kernel, by decide +kernel, ?_, ?_, Or.inl rfl⟩, ?_, ?_, ?_⟩⟩
  · exact (groups (l := [(4, 1)]) (by decide +kernel) _ (List.mem_singleton.mpr rfl)).2
  · exact groups (by decide +kernel)
  · intro j _; exact Nat.zero_and _
  · exact (groups (l := [(4, 1)]) (by decide +kernel) _ (List.mem_singleton.mpr rfl)).2
  · exact groups (by decide +kernel)
  · decide +kernel
  · decide +kernel
  · decide +kernel

theorem wit_MaskWords : ∃ F, maskForm (lanes 5 2) (.vcmplt 3 8 12 0 0 0) = some F ∧ MaskReady (lanes 5 2) F ∧
    ∀ j b, vsN (lanes 5 2) ≤ j → j < vlN (lanes 5 2) → F.val j = some b → enabledFlags (lanes 5 2) b.2 = 0 := by
  refine ⟨_, rfl, ⟨vector_ok rfl rfl rfl rfl (by decide +kernel) rfl, by decide +kernel, rfl, by decide +kernel, ?_, Or.inl rfl⟩, ?_⟩
  · intro r hr
    exact (groups (l := [(8, 1), (12, 1)]) (by decide +kernel) (r.toNat, 1) (by revert r; decide)).2
  · intro j b _ _ h
    simp only [compareForm, byClass] at h
    split at h
    · split at h
      · rw [if_pos (by decide +kernel)] at h; cases h; exact Nat.zero_and _
      · cases h
    · cases h; exact Nat.zero_and _

/-- `strict` with +∞ and -∞ in v8. -/
def opposite : State := { strict 9 2 with thr.v := [(8, 0xFF800000_7F800000)] }

theorem wit_Reductions :
    (∃ F, redForm (lanes 5 0) (.vredsum 7 8 0 0 1) = some F ∧ VectorOk (lanes 5 0) ∧ fmtN (lanes 5 0) ≠ 0 ∧ F.ok = true ∧
      GroupOk (lanes 5 0) (F.a.toNat, grpN (lanes 5 0)) ∧ NoPort (lanes 5 0) [F.d.toNat] ∧ vlN (lanes 5 0) ≤ vsN (lanes 5 0)) ∧
    (∃ F, redForm (lanes 5 2) (.vredsum 7 8 0 0 1) = some F ∧ VectorOk (lanes 5 2) ∧ F.ok = true ∧ F.t = 1 ∧
      vsN (lanes 5 2) < vlN (lanes 5 2) ∧ enabledFlags (lanes 5 2) F.fl = 0) ∧
    (∃ F, redForm (lanes 5 2) (.vredsum 7 8 0 0 0) = some F ∧ VectorOk (lanes 5 2) ∧ F.ok = true ∧ F.t = 0 ∧
      vsN (lanes 5 2) < vlN (lanes 5 2) ∧ enabledFlags (lanes 5 2) F.fl = 0) ∧
    (∃ F, redForm opposite (.vfredsum 7 8 0 0 1) = some F ∧ VectorOk opposite ∧ fmtN opposite ≠ 0 ∧ F.ok = true ∧
      vsN opposite < vlN opposite ∧ enabledFlags opposite F.fl ≠ 0) := by
  have v0 : VectorOk (lanes 5 0) := vector_ok rfl rfl rfl rfl (by decide +kernel) rfl
  have v2 : VectorOk (lanes 5 2) := vector_ok rfl rfl rfl rfl (by decide +kernel) rfl
  refine ⟨⟨_, rfl, v0, by decide +kernel, rfl, ?_, Or.inl rfl, by decide +kernel⟩, ⟨_, rfl, v2, rfl, rfl, by decide +kernel, Nat.zero_and _⟩,
    ⟨_, rfl, v2, rfl, rfl, by decide +kernel, Nat.zero_and _⟩,
    ⟨_, rfl, vector_ok rfl rfl rfl rfl (by decide +kernel) rfl, by decide +kernel, rfl, by decide +kernel, by decide +kernel⟩⟩
  exact (groups (l := [(8, 1)]) (by decide +kernel) _ (List.mem_singleton.mpr rfl)).2

theorem wit_CountsAndElements : ∃ F, xForm (lanes 5 2) (.vget 7 8 5 0) = some F ∧ VectorOk (lanes 5 2) ∧ fmtN (lanes 5 2) ≠ 0 ∧
    (∀ r ∈ F.vr, GroupOk (lanes 5 2) (r.toNat, grpN (lanes 5 2))) ∧ NoPort (lanes 5 2) ((F.d :: F.xs).map BitVec.toNat) := by
  refine ⟨_, rfl, vector_ok rfl rfl rfl rfl (by decide +kernel) rfl, by decide +kernel, ?_, Or.inl rfl⟩
  intro r hr
  exact (groups (l := [(8, 1)]) (by decide +kernel) (r.toNat, 1) (by revert r; decide)).2

theorem wit_PlacingWords : ∃ F, placeForm (lanes 5 2) (.vpack 4 8 0 0) = some F ∧ VectorOk (lanes 5 2) ∧ fmtN (lanes 5 2) ≠ 0 ∧ F.own = true ∧
    (∀ r ∈ F.vr, GroupOk (lanes 5 2) (r.toNat, grpN (lanes 5 2))) ∧ GroupOk (lanes 5 2) (F.d.toNat, grpN (lanes 5 2)) ∧
    NoPort (lanes 5 2) (F.xs.map BitVec.toNat) ∧ vvN (lanes 5 2) ≤ groupLen (lanes 5 2) (ewN (lanes 5 2)) (grpN (lanes 5 2)) := by
  refine ⟨_, rfl, vector_ok rfl rfl rfl rfl (by decide +kernel) rfl, by decide +kernel, rfl, ?_, ?_, Or.inl rfl, by decide +kernel⟩
  · intro r hr
    exact (groups (l := [(8, 1)]) (by decide +kernel) (r.toNat, 1) (by revert r; decide)).2
  · exact (groups (l := [(4, 1)]) (by decide +kernel) _ (List.mem_singleton.mpr rfl)).2

/-- `lanes` whose second index, in v16, lies outside the scratchpad. -/
def outside : State := { lanes 5 2 with thr.v := [(8, 0x00000004_00000003), (12, 0x00000001_00000000), (16, 0x00100000_00000000)] }

/-- The places of the elements of a scatter-add at x5 by an index group. -/
def scattered (s : State) (b : Nat) (j : Nat) : List Loc := locsOf (checkAccess s true 4 (wrap ((xr s 5).toNat + elemV s b 32 j * 4)) 4)

theorem wit_ScatterAdds :
    (scatForm (.vscataddDev 8 5 12 0 0) = some (8, 5, 12, 0, 0) ∧ VectorOk outside ∧ scatFmt (fmtN outside) = true ∧ storeRole outside = true ∧
      NoPort outside [5] ∧ vlN outside ≤ groupLen outside (ewN outside) (grpN outside) ∧ outside.dev.retire = [] ∧ outside.dev.mwatch = [] ∧
      atomicWaits outside 0 = false ∧ vsN outside ≤ 2 ∧ vlN outside = 2) ∧
    (∀ g ∈ [(8, grpN outside), (12, grpN outside), (16, grpN outside)], 0 < g.2 ∧ GroupOk outside g) ∧
    (∀ j, j < 2 → checkAccess outside true 4 (wrap ((xr outside 5).toNat + elemV outside 12 32 j * 4)) 4 = .ok (scattered outside 12 j)) ∧
    (∀ j, j < 2 → ((scattered outside 12 j).map (·.key)).Nodup ∧ (∀ l ∈ scattered outside 12 j, l.kind ≠ .remote) ∧
      overlapsPending outside ((scattered outside 12 j).map (·.key)) = false) ∧
    (∀ j, j < 2 → ∀ m, m < 2 → j ≠ m → ∀ x ∈ scattered outside 12 j, ∀ y ∈ scattered outside 12 m, x.key ≠ y.key) ∧
    (written outside 0 1 ∧ (∃ v h, checkAccess outside true 4 (wrap ((xr outside 5).toNat + elemV outside 16 32 1 * 4)) 4 = .trap 0x0D v h) ∧
      checkAccess outside true 4 (wrap ((xr outside 5).toNat + elemV outside 16 32 0 * 4)) 4 = .ok (scattered outside 16 0)) := by
  refine ⟨⟨rfl, vector_ok rfl rfl rfl rfl (by decide +kernel) rfl, ?_, ?_, Or.inl rfl, ?_⟩, groups (by decide +kernel), ?_, ?_, ?_, ?_, chk_trap (by decide +kernel), ?_⟩
  · decide +kernel
  · decide +kernel
  · decide +kernel
  · intro j hj
    have h := below (n := 2) (p := fun j => chkIs (fun _ => true) (checkAccess outside true 4 (wrap ((xr outside 5).toNat + elemV outside 12 32 j * 4)) 4))
      (by decide +kernel) j hj
    exact chk_eq h
  · decide +kernel
  · decide +kernel
  · decide +kernel
  · exact chk_eq (p := fun _ => true) (by decide +kernel)

theorem wit_BlockConversions :
    (VectorOk (strict 9 4) ∧ floatOk (strict 9 4) = true ∧ (let g := convFactor (grpN (strict 9 4)) (fmtEw (mxFormat 0)) (ewN (strict 9 4))
      convRegs (strict 9 4) (4, g) (8, grpN (strict 9 4)) [] [(4 + g, 1)] = true ∧ g = 1 ∧ vlN (strict 9 4) ≤ groupLen (strict 9 4) 8 g) ∧
      ceilDiv (vlN (strict 9 4)) 32 ≤ perReg (vmN (strict 9 4)) 8) ∧
    (∀ g ∈ [(4, 1), (8, grpN (strict 9 4))], 0 < g.2 ∧ GroupOk (strict 9 4) g) ∧
    vlN (lanes 9 0) ≤ vsN (lanes 9 0) ∧ vsN (lanes 9 4) < vlN (lanes 9 4) ∧
    (∀ fl, fl < 32 → enabledFlags (lanes 9 4) fl = 0) ∧
    (mxCode (mxFormat 0) (mxScale (mxFormat 0) [convSource (strict 9 4) 8 2]) (rmN (strict 9 4)) (convSource (strict 9 4) 8 2)).2 &&& 0x1F ≠ 0 := by
  refine ⟨⟨vector_ok rfl rfl rfl rfl (by decide +kernel) rfl, ?_, ?_, ?_⟩, groups (by decide +kernel), ?_, ?_, ?_, ?_⟩ <;> decide +kernel

/-- `lanes` under FP32 with a matrix word on tile 15 in MXQ, and with tile 14 poisoned. -/
def tiled : State := { lanes 9 4 with slot.mxq := [{ newEntry solo .zclr 3 with z := 15 }], slot.zpoison := 0x4000 }

theorem wit_TileMoves : VectorOk tiled ∧ tiled.cur.2 = 1 ∧ floatOk tiled = true ∧ tileOk tiled 15 = true ∧ GroupOk tiled (8, grpN tiled) ∧
    vlN tiled ≤ groupLen tiled (ewN tiled) (grpN tiled) ∧ tiled.slot.mxq.any (touchesTile 15) = true ∧
    (tiled.slot.mxq.any (touchesTile 14) = false ∧ latent tiled 0 14 = false ∧ tilePoisoned tiled 14 = true) ∧
    (tiled.slot.mxq.any (touchesTile 0) = false ∧ latent tiled 0 0 = false ∧ tilePoisoned tiled 0 = false) ∧ (∀ fl, fl < 32 → enabledFlags tiled fl = 0) ∧
    (let l : List Damage := [⟨0, 0, 0⟩, ⟨8, 1, 0⟩]
     (∀ e ∈ l, e.cls = 0 ∨ e.cls = 8) ∧ latent { tiled with thr.hid.damaged := l } 0 0 = true) := by
  refine ⟨vector_ok rfl rfl rfl rfl (by decide +kernel) rfl, rfl, ?_, ?_, (groups (l := [(8, 1)]) (by decide +kernel) _ (List.mem_singleton.mpr rfl)).2, ?_⟩ <;>
    decide +kernel

/-- `lanes` with pairs in m2 and a choice of MCTL and FPCTL. -/
def paired (mctl fpctl : Word) (v : VReg) : State :=
  { lanes 9 2 with thr.m := [(2, 0x00000000_7F800001_3F800000_3F800000)], thr.sr.mctl := mctl, thr.sr.fpctl := fpctl, thr.v := [(8, 0x3F800000_3F800000), (12, v)] }

theorem moment_ready (mctl fpctl : Word) (v : VReg) (ms : List (BitVec 3)) (vs xs : List (BitVec 5)) :
    MomentReady (paired mctl fpctl v) ms vs xs := by
  have g : grpN (paired mctl fpctl v) = 1 := (by decide +kernel : vtGrp 9 = 1)
  refine ⟨⟨⟨rfl, rfl, rfl, rfl, rfl⟩, (by decide +kernel : (16384 : Word).toNat ≤ 16384), (by decide : 0 < 128)⟩, rfl, (by decide +kernel : vtFmt 9 = 9),
    (by decide +kernel : vtBlk 9 = 0), (by decide +kernel : (2 : Word).toNat ≤ (16384 : Word).toNat / 32 * vtGrp 9), fun r _ => ?_, fun r _ => ?_, Or.inl rfl⟩
  · have := r.isLt
    exact ⟨rfl, by rw [g]; exact Nat.mod_one _, by rw [g]; show r.toNat + 1 ≤ 8; omega⟩
  · have := r.isLt
    exact ⟨by rw [g]; exact Nat.mod_one _, by rw [g]; show r.toNat + 1 ≤ 32; omega⟩

theorem wit_MomentWords :
    (let s := paired 0 0 0
     ∃ F, momentForm s (.momv 3 2 0 0) = some F ∧ MomentReady s (F.d :: F.mr) F.vr F.xs ∧ max (vlN s) (vsN s) = 2 ∧
      ∀ j, j < 2 → written s F.k j → enabledFlags s (F.val j).fl = 0 ∧ (F.val j).neg = none) ∧
    (let s := paired 0 0x1F00 0
     ∃ F, momentForm s (.moadd 3 2 2 0 0) = some F ∧ MomentReady s (F.d :: F.mr) F.vr F.xs ∧ written s F.k 1 ∧ enabledFlags s (F.val 1).fl ≠ 0 ∧
      ∀ j, j < 1 → written s F.k j → enabledFlags s (F.val j).fl = 0 ∧ (F.val j).neg = none) ∧
    (let s := paired 4 0 0xBF800000
     ∃ F, momentForm s (.mofrom 3 8 12 0 0) = some F ∧ MomentReady s (F.d :: F.mr) F.vr F.xs ∧ written s F.k 0 ∧ enabledFlags s (F.val 0).fl = 0 ∧
      (F.val 0).neg.isSome = true) ∧
    (let s := paired 0 0 0
     ∃ F, collapseForm s (.mocolMean 4 2 0 0) = some F ∧ MomentReady s [F.a] (F.d :: F.vr) F.xs ∧ F.own = true ∧
      ∀ j, written s F.k j → enabledFlags s (F.val j).2 = 0) := by
  refine ⟨⟨_, rfl, moment_ready .., ?_, ?_⟩, ⟨_, rfl, moment_ready .., ?_, ?_, ?_⟩, ⟨_, rfl, moment_ready .., ?_, ?_, ?_⟩,
    ⟨_, rfl, moment_ready .., rfl, fun _ _ => Nat.zero_and _⟩⟩ <;> decide +kernel

/-- The bytes of pair j at x5. -/
def pairGot (s : State) (j : Nat) : Got := loadBytes s 0 8 (((xr s 5).toNat + 8 * j) % 2 ^ 64) 8

theorem wit_PairMemory : (let s := paired 0 0 0
     MomentReady s [3] [] [5] ∧ loadWaits s 0 = false ∧ written s 0 0 ∧ (xr s 6).toNat % 8 ≠ 0 ∧ (xr s 5).toNat % 8 = 0 ∧
      (∀ j, j < 2 → pairGot s j = .ok (bytesGot (pairGot s j)).1 (bytesGot (pairGot s j)).2) ∧
      (let val := fun j => intoPair (negFault s) (leNat (bytesGot (pairGot s j)).1 % 2 ^ 32) (leNat (bytesGot (pairGot s j)).1 / 2 ^ 32 % 2 ^ 32)
       ∀ j, j < 2 → enabledFlags s (val j).fl = 0 ∧ (val j).neg = none) ∧
      ∀ j, j < 2 → (checkAccess s true 8 (((xr s 5).toNat + 8 * j) % 2 ^ 64) 8 =
        .ok (locsOf (checkAccess s true 8 (((xr s 5).toNat + 8 * j) % 2 ^ 64) 8)))) := by
  refine ⟨moment_ready .., ?_, ?_, ?_, ?_, ?_, ?_, ?_⟩
  · decide +kernel
  · decide +kernel
  · decide +kernel
  · decide +kernel
  · intro j hj
    exact got_eq (p := fun _ _ => true) (below (n := 2) (p := fun j => gotIs (fun _ _ => true) (pairGot (paired 0 0 0) j)) (by decide +kernel) j hj)
  · decide +kernel
  · intro j hj
    exact chk_eq (p := fun _ => true) (below (n := 2) (p := fun j => chkIs (fun _ => true)
      (checkAccess (paired 0 0 0) true 8 (((xr (paired 0 0 0) 5).toNat + 8 * j) % 2 ^ 64) 8)) (by decide +kernel) j hj)

/-- Two FP32 elements at x5, or from x9, whose second one lies behind the scratchpad. -/
def memory : State := { lanes 9 2 with thr.x := [(5, w64 scrBase), (9, w64 (scrBase + 39 * 65536 - 4))] }

/-- What an element of a unit-stride word at an address register reads, and where it stores. -/
def elemGot (F : MemWord) (j : Nat) : Got := let b := bitSpan (F.bitAt j) (ewN memory); loadBytes memory F.cls.toNat (elemAlign memory) b.1 b.2.1
/-- Where it stores. -/
def elemChk (F : MemWord) (j : Nat) : Chk := let b := bitSpan (F.bitAt j) (ewN memory); checkAccess memory true (elemAlign memory) b.1 b.2.1

theorem memory_ready (F : MemWord) (d : F.d = 4) (r : F.role = true) (f : F.ok = true) (o : F.own = true) (u : F.unit = true) (b : F.blk = 0)
    (v : F.vr = []) : MemReady memory F :=
  ⟨vector_ok rfl rfl rfl rfl (by decide +kernel) rfl, by decide +kernel, r, f, o, u, by decide +kernel, fun h => absurd b h,
    d ▸ (groups (l := [(4, 1)]) (by decide +kernel) _ (List.mem_singleton.mpr rfl)).2, v ▸ (fun _ h => absurd h List.not_mem_nil), Or.inl rfl⟩

/-- Two blocks of 16 INT8 codes at x5, their scale bytes at x7, and an address in x9 that nothing is at. -/
def blocky : State := { lanes 129 18 with thr.x := [(5, w64 scrBase), (7, w64 (scrBase + 64)), (9, 0x30000)] }

/-- What an index of a block word at x5 with its scale bytes at x7 or x9 reads. -/
def blockGot (b : BitVec 5) (j : Nat) : Got × Got :=
  let F := blockWord blocky 4 5 b 0 0 true
  let a := bitSpan (F.bitAt j) (ewN blocky)
  (loadBytes blocky 0 (elemAlign blocky) a.1 a.2.1, loadBytes blocky 0 1 (F.scaleAt (j / F.blk)) 1)
/-- Where it stores. -/
def blockChk (b : BitVec 5) (j : Nat) : Chk × Chk :=
  let F := blockWord blocky 4 5 b 0 0 true
  let a := bitSpan (F.bitAt j) (ewN blocky)
  (checkAccess blocky true (elemAlign blocky) a.1 a.2.1, checkAccess blocky true 1 (F.scaleAt (j / F.blk)) 1)

theorem block_ready (b : BitVec 5) : MemReady blocky (blockWord blocky 4 5 b 0 0 true) :=
  ⟨vector_ok rfl rfl rfl rfl (by decide +kernel) rfl, by decide +kernel, rfl, (by decide +kernel : decide (vtBlk 129 ≠ 0) = true),
    (by decide +kernel : companionOk blocky 4 = true), rfl, by decide +kernel, fun _ => (by decide +kernel : vlN blocky ≤ vtBlk 129 * perReg (vmN blocky) 8),
     (groups (l := [(4, 1)]) (by decide +kernel) _ (List.mem_singleton.mpr rfl)).2, fun _ h => absurd h List.not_mem_nil, Or.inl rfl⟩

theorem wit_VectorBlocks :
    (vecLoad blocky (.vldmx 4 5 7 0 0) = some (blockWord blocky 4 5 7 0 0 true) ∧ MemReady blocky (blockWord blocky 4 5 7 0 0 true) ∧
      (blockWord blocky 4 5 7 0 0 true).blk = 16 ∧ blocky.dev.poison = [] ∧
      ∀ j, j < 18 → blockGot 7 j = (.ok (bytesGot (blockGot 7 j).1).1 (bytesGot (blockGot 7 j).1).2, .ok (bytesGot (blockGot 7 j).2).1 (bytesGot (blockGot 7 j).2).2)) ∧
    (vecLoad blocky (.vldmx 4 5 9 0 0) = some (blockWord blocky 4 5 9 0 0 true) ∧ MemReady blocky (blockWord blocky 4 5 9 0 0 true) ∧
      accesses blocky (blockWord blocky 4 5 9 0 0 true) 0 = true ∧
      (indexTrap blocky (blockWord blocky 4 5 9 0 0 true) (loadBytes blocky 0) 0).map Prod.fst = some 0x0A) ∧
    (vecStore blocky (.vstmx 4 5 7 0 0) = some (blockWord blocky 4 5 7 0 0 true) ∧
      ∀ j, j < 18 → blockChk 7 j = (.ok (locsOf (blockChk 7 j).1), .ok (locsOf (blockChk 7 j).2))) ∧
    (vecStore blocky (.vstmx 4 5 9 0 0) = some (blockWord blocky 4 5 9 0 0 true) ∧
      (indexTrap blocky (blockWord blocky 4 5 9 0 0 true) (fun al va n => asGot (checkAccess blocky true al va n)) 0).map Prod.fst = some 0x0B) := by
  refine ⟨⟨rfl, block_ready 7, by decide +kernel, rfl, ?_⟩, ⟨rfl, block_ready 9, by decide +kernel, by decide +kernel⟩, ⟨rfl, ?_⟩, rfl, by decide +kernel⟩
  · intro j hj
    have h := below (n := 18) (p := fun j => gotIs (fun _ _ => true) (blockGot 7 j).1 && gotIs (fun _ _ => true) (blockGot 7 j).2) (by decide +kernel) j hj
    simp only [Bool.and_eq_true] at h
    exact Prod.ext (got_eq h.1) (got_eq h.2)
  · intro j hj
    have h := below (n := 18) (p := fun j => chkIs (fun _ => true) (blockChk 7 j).1 && chkIs (fun _ => true) (blockChk 7 j).2) (by decide +kernel) j hj
    simp only [Bool.and_eq_true] at h
    exact Prod.ext (chk_eq h.1) (chk_eq h.2)

theorem wit_VectorLoads :
    (∃ F, vecLoad memory (.vld 4 5 0 0 0) = some F ∧ MemReady memory F ∧ loadWaits memory F.cls.toNat = false ∧ F.blk = 0 ∧
      (∀ j, j < 2 → accesses memory F j = true ∧ (bitSpan (F.bitAt j) (ewN memory)).2.2 = 0) ∧
      ∀ j, j < 2 → elemGot F j = .ok (bytesGot (elemGot F j)).1 (bytesGot (elemGot F j)).2) ∧
    (∃ F, vecLoad memory (.vld 4 9 0 0 0) = some F ∧ MemReady memory F ∧ loadWaits memory F.cls.toNat = false ∧ accesses memory F 1 = true ∧
      (elemGot F 0 = .ok (bytesGot (elemGot F 0)).1 (bytesGot (elemGot F 0)).2) ∧ ∃ v v2 h, elemGot F 1 = .trap 0x0D v v2 h) := by
  refine ⟨⟨unitWord memory 4 5 0 0 0 true, rfl, memory_ready _ rfl rfl rfl rfl rfl rfl rfl, ?_, rfl, ?_, ?_⟩,
    ⟨unitWord memory 4 9 0 0 0 true, rfl, memory_ready _ rfl rfl rfl rfl rfl rfl rfl, ?_, ?_, ?_, got_trap (by decide +kernel)⟩⟩
  · decide +kernel
  · decide +kernel
  · intro j hj
    exact got_eq (p := fun _ _ => true) (below (n := 2) (p := fun j => gotIs (fun _ _ => true) (elemGot (unitWord memory 4 5 0 0 0 true) j)) (by decide +kernel) j hj)
  · decide +kernel
  · decide +kernel
  · exact got_eq (p := fun _ _ => true) (by decide +kernel)

theorem wit_VectorStores :
    (∃ F, vecStore memory (.vst 4 5 0 0 0) = some F ∧ MemReady memory F ∧
      (∀ j, j < 2 → accesses memory F j = true ∧ (bitSpan (F.bitAt j) (ewN memory)).2.2 = 0) ∧
      ∀ j, j < 2 → elemChk F j = .ok (locsOf (elemChk F j))) ∧
    (∃ F, vecStore memory (.vst 4 9 0 0 0) = some F ∧ MemReady memory F ∧ F.blk = 0 ∧ accesses memory F 1 = true ∧
      elemChk F 0 = .ok (locsOf (elemChk F 0)) ∧ ∃ v h, elemChk F 1 = .trap 0x0D v h) := by
  refine ⟨⟨unitWord memory 4 5 0 0 0 true, rfl, memory_ready _ rfl rfl rfl rfl rfl rfl rfl, ?_, ?_⟩,
    ⟨unitWord memory 4 9 0 0 0 true, rfl, memory_ready _ rfl rfl rfl rfl rfl rfl rfl, rfl, ?_, ?_, chk_trap (by decide +kernel)⟩⟩
  · decide +kernel
  · intro j hj
    exact chk_eq (p := fun _ => true) (below (n := 2) (p := fun j => chkIs (fun _ => true) (elemChk (unitWord memory 4 5 0 0 0 true) j)) (by decide +kernel) j hj)
  · decide +kernel
  · exact chk_eq (p := fun _ => true) (by decide +kernel)

/-- The bytes of a number at scratchpad offset 0 of slot 0, as memory cells. -/
def cells (bs : List (Nat × Byte)) : List Host.Cell := bs.map (fun p => (2 ^ 63 + p.1, p.2))

/-- A weight descriptor of 4 rows of INT8 with a barrier at offset 32 of the scratchpad. -/
def weighing : State :=
  { vec 5 2 2 with dev.mem := cells [(16, 1), (20, 4), (24, 32), (28, 0), (29, 0xF0), (30, 0x0F)] }

theorem wit_MatrixCommands :
    (let s := { vec 5 2 2 with thr.x := [(5, w64 scrBase), (6, 7), (7, 2 ^ 52)] }
     Calm s ∧ s.cur.2 = 1 ∧ fmtN s ≠ 0 ∧ queueFull s 3 = false ∧
      (∃ F, matrixForm s (.zclr 15) = some F ∧ F.ok = true ∧ F.own = true ∧ F.reach = true ∧ F.waits = false) ∧
      (∃ F, matrixForm s (.zld 1 6 0) = some F ∧ F.own = true ∧ (xr s 6).toNat % (32 * colsN s) ≠ 0) ∧
      (∃ F, matrixForm s (.zst 1 7 0) = some F ∧ F.own = true ∧ (xr s 7).toNat % (32 * colsN s) = 0 ∧ 2 ^ 52 ≤ (xr s 7).toNat) ∧
      queueFull { s with slot.mxq := List.replicate 32 (newEntry solo .zclr 3) } 3 = true) ∧
    (Calm weighing ∧ weighing.cur.2 = 1 ∧ fmtN weighing ≠ 0 ∧ ∃ bs locs, loadBytes { weighing with thr.sr.watch := [] } 15 32 (xr weighing 5).toNat 32 = .ok bs locs ∧
      wLegal (leNat bs) = true ∧ wBase (leNat bs) % 64 = 0 ∧ wUsesSide (leNat bs) = false ∧ wBar (leNat bs) = scrBase + 32 ∧
      engineWaits weighing (some 32) = false) ∧
    (∃ bs locs, loadBytes { vec 5 2 2 with thr.sr.watch := [] } 15 32 (xr solo 5).toNat 32 = .ok bs locs ∧ wLegal (leNat bs) = false) := by
  refine ⟨⟨⟨rfl, rfl, rfl, rfl, rfl⟩, rfl, by decide +kernel, by decide +kernel, ⟨_, rfl, ?_⟩, ⟨_, rfl, ?_⟩, ⟨_, rfl, ?_⟩, ?_⟩, ⟨⟨rfl, rfl, rfl, rfl, rfl⟩, rfl, ?_, ?_⟩, ?_⟩
  · decide +kernel
  · decide +kernel
  · decide +kernel
  · decide +kernel
  · decide +kernel
  · have ⟨bs, locs, h, p⟩ := got_ok (g := loadBytes { weighing with thr.sr.watch := [] } 15 32 (xr weighing 5).toNat 32)
      (p := fun b _ => wLegal (leNat b) && decide (wBase (leNat b) % 64 = 0) && !wUsesSide (leNat b) && decide (wBar (leNat b) = scrBase + 32)
        && !engineWaits weighing (some 32)) (by decide +kernel)
    exact ⟨bs, locs, h, by simpa [and_assoc] using p⟩
  · have ⟨bs, locs, h, p⟩ := got_ok (g := loadBytes { vec 5 2 2 with thr.sr.watch := [] } 15 32 (xr solo 5).toNat 32)
      (p := fun b _ => !wLegal (leNat b)) (by decide +kernel)
    exact ⟨bs, locs, h, by simpa using p⟩

/-- A launch of one slot that is placed on slot 0 with one task, and group 1 of that slot. -/
def ours : Launch := { Launch.offered 3 7 0 2 with phase := 2, slots := [0], tasks := [9], gtab := [(1, [0])] }

/-- `solo` in that launch, with a gather block at x5 and a barrier at x6. -/
def commanding : State :=
  { solo with slot.groups := [1], slot.bound := some (1, 0), dev.launches := [(1, ours)]
              thr.x := [(5, w64 scrBase), (6, w64 (scrBase + 256)), (7, w64 (scrBase + 8)), (8, 16)], dev.mem := cells [(16, 2), (20, 3)] }

/-- The same memory as a block of a reduction of two INT32 elements. -/
def collecting : State := { commanding with dev.mem := cells [(16, 2), (20, 5)] }

theorem wit_EngineCommands :
    (∃ F, commandForm (.rgath 5 6 1) = some F ∧ Calm commanding ∧ NoPort commanding [5, 6] ∧ (xr commanding 7).toNat % 64 ≠ 0 ∧
      barCheck commanding (xr commanding 7).toNat = .error 0x0C ∧ barCheck commanding (xr commanding 8).toNat = .error 0x0D ∧
      (xr commanding 5).toNat % 64 = 0 ∧ barCheck commanding (xr commanding 6).toNat = .ok 256 ∧ queueFull commanding F.q = false ∧
      engineWaits commanding (some 256) = false ∧
      ∃ bs locs, loadBytes { commanding with thr.sr.watch := [] } 15 1 (xr commanding F.a).toNat F.len = .ok bs locs ∧ F.legal (leNat bs) = true ∧
        (F.aligned (leNat bs)).all (·.2) = true) ∧
    (∃ F, commandForm (.pfxh 5 6 0) = some F ∧
      ∃ bs locs, loadBytes { commanding with thr.sr.watch := [] } 15 1 (xr commanding F.a).toNat F.len = .ok bs locs ∧ F.legal (leNat bs) = false) ∧
    (Calm collecting ∧ SMap.find collecting.dev.launches collecting.slot.launch = some ours ∧ collecting.slot.clq = [] ∧ isMember collecting 0 = true ∧
      queueFull collecting 2 = false ∧
      ∃ bs locs, loadBytes { collecting with thr.sr.watch := [] } 15 1 (xr collecting 5).toNat 64 = .ok bs locs ∧ collLegal (leNat bs) = true ∧
        kKind (leNat bs) = 0 ∧ kOp (leNat bs) = 0 ∧ (collAligned (leNat bs)).all (·.2) = true) ∧
    ∀ k, k < 5 → queueOf commanding.slot k = [] := by
  refine ⟨⟨_, rfl, ⟨rfl, rfl, rfl, rfl, rfl⟩, Or.inl rfl, by decide +kernel, rfl, rfl, by decide +kernel, rfl, by decide +kernel, by decide +kernel, ?_⟩, ⟨_, rfl, ?_⟩,
    ⟨⟨rfl, rfl, rfl, rfl, rfl⟩, rfl, rfl, rfl, by decide +kernel, ?_⟩, by decide +kernel⟩
  · have ⟨bs, locs, h, p⟩ := got_ok (g := loadBytes { commanding with thr.sr.watch := [] } 15 1 (xr commanding 5).toNat 64)
      (p := fun b _ => gatherLegal false (leNat b) && (gatherAligned (leNat b)).all (·.2)) (by decide +kernel)
    simp only [Bool.and_eq_true] at p
    exact ⟨bs, locs, h, p⟩
  · have ⟨bs, locs, h, p⟩ := got_ok (g := loadBytes { commanding with thr.sr.watch := [] } 15 1 (xr commanding 5).toNat 64)
      (p := fun b _ => !pfxhLegal (leNat b)) (by decide +kernel)
    exact ⟨bs, locs, h, by simpa using p⟩
  · have ⟨bs, locs, h, p⟩ := got_ok (g := loadBytes { collecting with thr.sr.watch := [] } 15 1 (xr collecting 5).toNat 64)
      (p := fun b _ => collLegal (leNat b) && decide (kKind (leNat b) = 0) && decide (kOp (leNat b) = 0) && (collAligned (leNat b)).all (·.2)) (by decide +kernel)
    simp only [Bool.and_eq_true, decide_eq_true_eq, and_assoc] at p
    exact ⟨bs, locs, h, p⟩

/-- A barrier at x5, with its count in x6. -/
theorem wit_BarrierWords : Calm solo ∧ NoPort solo [7, 5, 6] ∧ barCheck solo (xr solo 5).toNat = .ok 0 ∧
    barCheck solo (xr solo 6).toNat = .error 0x0C ∧ 0 < (xr solo 6).toNat ∧ (xr solo 6).toNat < 65536 ∧ (xr solo 0).toNat = 0 ∧
    solo.thr.pnd.barArrs = [] ∧ solo.thr.pnd.stores.all (fun p => p.fence != 0 || decide (solo.dev.ser < p.ser)) = true ∧ barHurt solo 0 = false ∧
    (readBar solo 0).ph ≠ (xr solo 6).getLsbD 0 ∧ (readBar solo 0).ph = (xr solo 0).getLsbD 0 ∧
    (let s := { solo with thr.pnd.barArrs := [⟨0, 0, 0⟩] }
     Calm s ∧ s.thr.pnd.barArrs ≠ []) ∧
    (let s := { solo with dev.poison := [(2 ^ 63 / 8, true)] }
     Calm s ∧ barHurt s 0 = true) := by
  refine ⟨calm_solo, Or.inl rfl, rfl, rfl, ?_, ?_, ?_, rfl, rfl, ?_, ?_, ?_, ⟨⟨rfl, rfl, rfl, rfl, rfl⟩, ?_⟩, ⟨rfl, rfl, rfl, rfl, rfl⟩, ?_⟩ <;> decide +kernel

theorem wit_BarrierPhases : solo.dev.retire = [] ∧ solo.dev.poison = [] ∧
    (∀ b ∈ [(⟨0, 65535, 65535, false, false, false, 31, 0, 0, 0, 0⟩ : Bar), ⟨0, 0, 2, true, false, false, 1, 5, 0x40, 0, 0⟩, ⟨0xFFFFFFFF, 0, 2, false, true, true, 1, 255, 255, 65535, 2 ^ 24 - 1⟩,
      ⟨5, 0, 2, false, false, false, 1, 0, 0, 0, 0⟩], BarFits b) ∧
    (1 : Nat) < 2 ∧ (0xFFFFFFFF : BitVec 32).toInt < 0 ∧ 0 < (5 : BitVec 32).toInt := by
  refine ⟨rfl, rfl, ?_, by decide, by decide, by decide⟩
  intro b hb
  simp only [List.mem_cons, List.not_mem_nil, or_false] at hb
  rcases hb with rfl | rfl | rfl | rfl <;> exact ⟨by decide, by decide, by decide, by decide, by decide, by decide, by decide⟩

theorem wit_GroupWords :
    (Calm (trio 1) ∧ isTrio (trio 1) = true ∧ ringReader 0 = (trio 1).cur.2 ∧ NoPort (trio 1) [27] ∧ ringReader 2 = 2 ∧ ringWriter 2 = (trio 1).cur.2 ∧
      isTrio solo = false) ∧
    (Calm commanding ∧ isMember commanding 1 = true ∧ isMember commanding 2 = false ∧ arrivals commanding 1 = phaseOf commanding 1) ∧
    (let s := { commanding with thr.hid.arr := [(1, 1)] }
     Calm s ∧ phaseOf s 1 < arrivals s 1) := by
  refine ⟨⟨⟨rfl, rfl, rfl, rfl, rfl⟩, rfl, rfl, Or.inr ?_, rfl, rfl, rfl⟩, ⟨⟨rfl, rfl, rfl, rfl, rfl⟩, ?_, ?_, ?_⟩, ⟨rfl, rfl, rfl, rfl, rfl⟩, ?_⟩ <;> decide +kernel

/-- A task of `ours`, READY, with or without a MAP. -/
def ready9 (map : Nat) : Task :=
  { launch := 1, tcb := 0x1000, idx := 0, nsucc := 0, succ := 0, args := [1, 2, 3, 4], count := 5, mapnote := map, st := 2, took := [], fin := [], finThr := [], counted := false }

/-- `commanding` with that task. -/
def tasked (map : Nat) : State := { commanding with dev.tasks := [(9, ready9 map)] }

/-- The same once the thread has taken it, given it back, and its finish waits to take effect. -/
def finishing (leave : Bool) : State :=
  arg { EvArg.zero with slot := 0, role := 1 }
    { commanding with dev.tasks := [(9, { ready9 0 with st := 3, took := [0] })], thr.pnd.finishes := [⟨some 9, leave, 0, 0⟩], thr.live := !leave }

/-- What the next task is: to wait (0), none any more (1), or a task (2). -/
def nextCode (s : State) : Nat × Nat :=
  match nextTask s with
  | .wait => (0, 0)
  | .never => (1, 0)
  | .task n => (2, n)

theorem wit_TaskWords :
    (Calm (tasked 0) ∧ NoPort (tasked 0) [7] ∧ (tasked 0).thr.hid.task = none ∧ isTrio (tasked 0) = false ∧
      SMap.find (tasked 0).dev.tasks 9 = some (ready9 0) ∧ nextCode (tasked 0) = (2, 9)) ∧
    (∃ bs locs, readMap (tasked scrBase) (ready9 scrBase).mapnote = .ok bs locs) ∧
    nextCode { commanding with slot.bound := none } = (1, 0) ∧
    nextCode { commanding with dev.tasks := [(9, { ready9 0 with st := 1 })] } = (0, 0) ∧
    ({ tasked 0 with thr.hid.task := some 9 } : State).thr.hid.task ≠ none ∧
    (let s := finishing true
     let u := focus s s.dev.arg.slot s.dev.arg.role
     u.thr.pnd.finishes = [⟨some 9, true, 0, 0⟩] ∧ u.thr.pnd.stores = [] ∧ (∀ q, q < 5 → queueOf u.slot q = []) ∧ lastOfSlot u = true ∧
      (SMap.find (finishPart ⟨some 9, true, 0, 0⟩ u).dev.launches (ownLaunch u)).isSome = true) ∧
    (let s := finishing false
     let u := focus s s.dev.arg.slot s.dev.arg.role
     u.thr.pnd.finishes = [⟨some 9, false, 0, 0⟩]) ∧
    (let d := (finishing true).dev
     SMap.find d.tasks 9 = some { ready9 0 with st := 3, took := [0] } ∧ SMap.find d.launches 1 = some ours ∧ (∀ k ∈ slotKeys 0 0, k ∈ [1]) ∧
      (∀ m, m < ours.nslot → m ∈ [0]) ∧ ¬ (∀ k ∈ slotKeys 1 0, k ∈ [1])) := by
  refine ⟨⟨⟨rfl, rfl, rfl, rfl, rfl⟩, Or.inl rfl, rfl, rfl, rfl, ?_⟩, ?_, ?_, ?_, ?_, ?_, ?_, ?_⟩
  · decide +kernel
  · have ⟨bs, locs, h, _⟩ := got_ok (g := readMap (tasked scrBase) (ready9 scrBase).mapnote) (p := fun _ _ => true) (by decide +kernel)
    exact ⟨bs, locs, h⟩
  all_goals decide +kernel

/-- A full pool of pending launches. -/
def crowded : State :=
  { commanding with dev.launches := (upFrom 1 4096).map (fun k => (k, { Launch.offered 3 0 0 0 with fromPool := true })) }

theorem wit_LaunchWords : Calm commanding ∧ NoPort commanding [9, 5] ∧ (xr commanding 5).toNat % 128 = 0 ∧ (xr commanding 7).toNat % 128 ≠ 0 ∧
    poolFull commanding.dev = false ∧ commanding.thr.pnd.stores = [] ∧
    (∃ bs locs, loadBytes { commanding with thr.sr.watch := [] } 15 1 ((xr commanding 5).toNat + 4) 124 = .ok bs locs) ∧
    (Calm crowded ∧ poolFull crowded.dev = true ∧ ∃ bs locs, loadBytes { crowded with thr.sr.watch := [] } 15 1 ((xr crowded 5).toNat + 4) 124 = .ok bs locs) := by
  refine ⟨⟨rfl, rfl, rfl, rfl, rfl⟩, Or.inl rfl, by decide +kernel, by decide +kernel, by decide +kernel, rfl, ?_, ⟨rfl, rfl, rfl, rfl, rfl⟩, by decide +kernel, ?_⟩
  · have ⟨bs, locs, h, _⟩ := got_ok (g := loadBytes { commanding with thr.sr.watch := [] } 15 1 ((xr commanding 5).toNat + 4) 124)
      (p := fun _ _ => true) (by decide +kernel)
    exact ⟨bs, locs, h⟩
  · have ⟨bs, locs, h, _⟩ := got_ok (g := loadBytes { crowded with thr.sr.watch := [] } 15 1 ((xr crowded 5).toNat + 4) 124)
      (p := fun _ _ => true) (by decide +kernel)
    exact ⟨bs, locs, h⟩

/-- A sealed cutting of one slot of context 3 under `commanding`'s partition word, a header whose TOTAL is 48, with the CRC of these. -/
def cutHeader : Nat := 0x47545543 + 2 ^ 32 + 2 * 2 ^ 64 + 3 * 2 ^ 160 + 2 ^ 176 + 0x75 * 2 ^ 320 + 3607636128 * 2 ^ 352 + 48 * 2 ^ 384

/-- `commanding` with the bytes of a number at x5. -/
def holding (bytes : Nat) : State :=
  { commanding with dev.mem := (cells ((upFrom 0 64).map (fun i => (i, BitVec.ofNat 8 (bits bytes (8 * i) 8))))).filter (fun c => c.2 != 0) }

/-- What a cutting's address reads. -/
def cutGot (s : State) : Got := cutLoad s (xr s 5).toNat 256

theorem wit_CuttingWords :
    (Calm commanding ∧ NoPort commanding [9, 5, 7] ∧ (xr commanding 7).toNat % 256 ≠ 0 ∧ (xr commanding 5).toNat % 256 = 0 ∧ isMember commanding 1 = true ∧
      isMember commanding 2 = false ∧ (xr commanding 0).toNat / 2 ^ 48 % 2 ^ 15 = 0 ∧ (xr commanding 5).toNat / 2 ^ 48 % 2 ^ 15 ≠ 0) ∧
    (let s := holding cutHeader
     Calm s ∧ cutGot s = .ok (bytesGot (cutGot s)).1 (bytesGot (cutGot s)).2 ∧
      (let h := leNat (bytesGot (cutGot s)).1
       h / 2 ^ 192 % 2 ^ 64 = 0 ∧ h / 2 ^ 384 % 2 ^ 64 = 48 ∧ checkCut s h [] = none ∧
        gotIs (fun bs _ => decide (crc32c (crcBytes bs) = h / 2 ^ 352 % 2 ^ 32)) (cutLoad s (xr s 5).toNat 48) = true ∧ h / 2 ^ 64 % 2 ^ 64 = 2) ∧ poolFull s.dev = false ∧
      chkIs (fun l => decide ((l.map (·.key)).Nodup) && noneRemote l) (checkAccess { s with thr.sr.watch := [] } true 8 ((xr s 5).toNat + 8) 8) = true) ∧
    (let s := holding (cutHeader + (scrBase + 512) * 2 ^ 192)
     gotIs (fun hb _ => decide (leNat hb / 2 ^ 192 % 2 ^ 64 ≠ 0 ∧ leNat hb / 2 ^ 192 % 2 ^ 64 = scrBase + 512)) (cutGot s) = true ∧
      gotIs (fun cs _ => decide (leNat (cs.take 4) = 0)) (cutLoad s (scrBase + 512) 8) = true ∧ gotIs (fun gs _ => gs.isEmpty) (cutLoad s (scrBase + 520) 0) = true ∧
      checkCut s (cutHeader + (scrBase + 512) * 2 ^ 192) [] = none) ∧
    (checkCut (holding 0) 0 [] = some (0x24, 0) ∧ checkCut (holding 0) (cutHeader + 2 ^ 64) [] = some (0x21, 0)) ∧
    (let s := { holding cutHeader with dev.launches := crowded.dev.launches }
     Calm s ∧ poolFull s.dev = true ∧ checkCut s cutHeader [] = none) := by
  refine ⟨⟨⟨rfl, rfl, rfl, rfl, rfl⟩, Or.inl rfl, ?_⟩, ⟨⟨rfl, rfl, rfl, rfl, rfl⟩, got_eq (p := fun _ _ => true) (by decide +kernel), ?_⟩, ?_, ?_, ⟨rfl, rfl, rfl, rfl, rfl⟩, ?_⟩
  all_goals decide +kernel

/-- `solo` asleep in a `wpoll` of x5 since cycle 0, at an address that holds the word. -/
def sleeping : State :=
  { placed 0x78E53000 with
    dev.sched := [], dev.arg := EvArg.zero, thr.pnd.wpollSince := some 0, thr.x := [(5, w64 scrBase), (7, 9)]
    slot.part := 0x00270075 }

/-- `commanding` with an arrival at group 1 and one at barrier 0 on their way, a word in the replay queue, and request 5 to device 2 out. -/
def pending : State :=
  { commanding with
    dev.arg := { EvArg.zero with role := 1, num := 2, idx := 5 }
    thr.pnd.groupArrs := [⟨1, 0⟩], thr.pnd.barArrs := [⟨0, 0, 0⟩], thr.pnd.replay := [captured 0 solo]
    thr.pnd.stores := [⟨1, 0, 0, 0, 0, [(2 * 2 ^ 48, 0xFF, 9)], 0, 0x20000, some (2, 5)⟩]
    dev.fab.reqs := [⟨2, 5, 0, 0, 2 * 2 ^ 48, 1, 0, 0, 0, false, 0⟩] }

theorem wit_ThreadEvents :
    (focus (arg { EvArg.zero with role := 1 } solo) 0 1).thr.pnd.readyAt ≤ cycNow solo ∧
    (let u := late sleeping
     canRun u = true ∧ Calm u ∧ NoPort u [5, 7] ∧ u.thr.pnd.wpollSince = some 0 ∧ (fetchWord u).toOption = some (encode (.wpoll 7 5 0)) ∧
      gotIs (fun bs _ => decide (w64 (leNat bs) ≠ xr u 7)) (loadBytes u 15 8 (xr u 5).toNat 8) = true ∧ 2 ^ 20 ≤ cycNow u - 0) ∧
    (pending.thr.pnd.groupArrs = [⟨1, 0⟩] ∧ (∀ p ∈ pending.thr.pnd.stores, p.fence = 0 → 0 < p.ser) ∧ tileAccess pending 0xFFFF (0 + 1) = false ∧
      SMap.find pending.dev.launches (ownLaunch pending) = some ours ∧ pending.thr.pnd.barArrs = [⟨0, 0, 0⟩] ∧ pending.thr.pnd.replay = [captured 0 solo]) ∧
    (let x := { captured 0xC4442001 (lanes 5 2) with chk := true }
     checkedWord x.word = true ∧ min 5 (laneSlots x) ≠ 0) ∧
    (let u := arg { EvArg.zero with role := 1, ok2 := true } { placed 0xC0000000 with dev.sched := [] }
     canRun u = true ∧ (fetchWord u).toOption = some 0xC0000000 ∧ pipeWord 0xC0000000 = true) ∧
    (let u := { placed 0xFFFFFFFF with dev.sched := [] }
     canRun u = true ∧ queuedAhead u = 0 ∧ (fetchWord u).toOption = some 0xFFFFFFFF ∧ isInstr 0xFFFFFFFF = false ∧ inBody u = false) ∧
    (let u := { placed 0xB3FFFFFF with thr.hid.active := true, thr.hid.lend := 8 }
     canRun u = true ∧ queuedAhead u = 0 ∧ (fetchWord u).toOption = some 0xB3FFFFFF ∧ isInstr 0xB3FFFFFF = false ∧ inBody u = true ∧ bodyBans 0xB3FFFFFF = true) ∧
    (canRun solo = true ∧ queuedAhead solo = 0 ∧ (fetchWord solo).toOption = none) ∧
    (let q : RemReq := ⟨2, 5, 0, 0, 2 * 2 ^ 48, 1, 0, 0, 0, false, 0⟩
     pending.thr.pnd.stores.findIdx? (fun p => decide (p.sent = some (pending.dev.arg.num, pending.dev.arg.idx))) = some 0 ∧ eligible pending 0 = true ∧
      unreachable pending.dev 2 = false ∧
      pending.dev.fab.reqs.find? (fun r => decide (r.own = 0 ∧ r.dst = pending.dev.arg.num ∧ r.seq = pending.dev.arg.idx)) = some q ∧
      aheadOf q pending.dev = [] ∧ pending.thr.pnd.stores.all (fun p => decide (p.fence = 0 ∧ p.upd = 0 ∧ (p.bytes.map (·.1)).Nodup)) = true ∧
      pending.dev.retire = [] ∧ pending.dev.mwatch = []) := by
  refine ⟨by decide +kernel, ⟨by decide +kernel, ⟨by decide +kernel, by decide +kernel, by decide +kernel, by decide +kernel, by decide +kernel⟩, Or.inl rfl, ?_⟩, ?_⟩
  all_goals decide +kernel

/-- The access of an engine succeeds. -/
def engOk {α : Type} : Eng α → Bool
  | .ok _ _ => true
  | _ => false

/-- The access of an engine fails with a cause. -/
def engErr {α : Type} (c : Nat) : Eng α → Bool
  | .err x _ => x = c
  | _ => false

/-- An entry of `commanding`'s MXQ: one row, tile 1, slot 2 of the weight buffer, a weight descriptor and an address in its block. -/
def mxEntry (op : EngOp) (block : Nat) : Entry :=
  { newEntry solo op 3 with z := 1, wb := 2, fmt := 1, vl := 128, vlvalid := 1, rows := [5], bar := 32, block := BitVec.ofNat 1024 block }

/-- That entry at the head. -/
def mxHead (op : EngOp) (block : Nat) : State := arg { EvArg.zero with num := 1, len := 1 } { commanding with slot.mxq := [mxEntry op block] }

/-- The entry is the head of MXQ. -/
def atHead (op : EngOp) (block : Nat) : Bool := headEntry (mxHead op block) 3 (fun x => x = op) == some (mxEntry op block)

/-- A soft error of one at chunk 0 of a row and column of the first tile. -/
def upset (r c : Nat) : Nat × List Byte := (256 * r + c, leBytes 10 1)

/-- The multiply at the head, under soft errors. -/
def upsetting (l : List (Nat × List Byte)) : State := { mxHead .mma 0 with dev.arg := { EvArg.zero with parts := l } }

/-- Its mismatches. -/
def offLines (l : List (Nat × List Byte)) : List Nat × List Nat :=
  let u := upsetting l
  let e := mxEntry .mma 0
  mismatches ⟨e, blockOf (wbOf u e.wb), colsN u, mmaVal e, id⟩ (upsetsOf 0 u.dev.arg.parts)

theorem wit_MatrixEvents :
    (∀ op ∈ [EngOp.mma, .mmamo, .zclr, .zld, .zst, .wbfill, .mcommit], atHead op scrBase = true ∧ matesTurn (mxHead op scrBase) 0 3 = false) ∧
    (let u := mxHead .mma 0
     focus u 0 1 = u ∧ (wbOf u 2).poison = false ∧ latent u 8 2 = false ∧ latent u 0 1 = false ∧ latent u 0 2 = false ∧ 1 * colsN u ≤ 1024 ∧
      tilePoisoned u 1 = false) ∧
    (offLines [] = ([], []) ∧ offLines [upset 0 127] = ([0], [127]) ∧ offLines [upset 0 0, upset 0 5] = ([0], [0, 5])) ∧
    (let u := { mxHead .mma 0 with slot.wb := [(2, { WbSlot.empty with poison := true })], slot.zpoison := 2 }
     (wbOf u 2).poison = true ∧ tilePoisoned u 1 = true) ∧
    latent { mxHead .zst 0 with thr.hid.damaged := [⟨0, 1, 0⟩] } 0 1 = true ∧
    (engOk (engRead (mxEntry .zld scrBase) scrBase (32 * 128) (mxHead .zld scrBase)) = true ∧
      engErr 0x0A (engRead (mxEntry .zld (2 ^ 40)) (2 ^ 40) (32 * 128) (mxHead .zld (2 ^ 40))) = true ∧
      engOk (engWrite (mxEntry .zst scrBase) scrBase (leBytes (32 * 128) 0) (mxHead .zst scrBase)) = true ∧
      engErr 0x0B (engWrite (mxEntry .zst (2 ^ 40)) (2 ^ 40) (leBytes (32 * 128) 0) (mxHead .zst (2 ^ 40))) = true) ∧
    (let d := scrBase + 2 ^ 128 + 4 * 2 ^ 160
     wElemBytes d 128 = 512 ∧ wSideBytes d 128 = 0 ∧ engOk (engRead (mxEntry .wbfill d) (wBase d) 512 (mxHead .wbfill d)) = true ∧
      engOk (engRead (mxEntry .wbfill d) (wSide d) 0 (mxHead .wbfill d)) = true) ∧
    (let d := 2 ^ 40 + 2 ^ 128 + 4 * 2 ^ 160
     engErr 0x0A (engRead (mxEntry .wbfill d) (wBase d) 512 (mxHead .wbfill d)) = true) ∧
    (let d := scrBase + 2 ^ 40 * 2 ^ 64 + 2 ^ 128 + 2 ^ 136 + 32 * 2 ^ 160
     wLegal (d + scrBase * 2 ^ 192) = true ∧ wElemBytes d 128 = 4096 ∧ wSideBytes d 128 = 128 ∧
      engOk (engRead (mxEntry .wbfill d) (wBase d) 4096 (mxHead .wbfill d)) = true ∧
      engErr 0x0A (engRead (mxEntry .wbfill d) (wSide d) 128 (mxHead .wbfill d)) = true) := by
  refine ⟨?_, ?_, ?_, ?_, ?_, ?_, ?_, ?_, ?_⟩ <;> decide +kernel

/-- An entry of queue q of `commanding` with a block. -/
def engEntry (q : Nat) (op : EngOp) (block vl : Nat) : Entry := { newEntry solo op q with bar := 256, vl := vl, block := BitVec.ofNat 1024 block }

/-- That entry at the head of its queue, for a turn of n elements. -/
def engHead (n q : Nat) (e : Entry) (mem : List (Nat × Byte)) : State :=
  arg { EvArg.zero with num := n, idx := q } (setQueue q [e] { commanding with dev.mem := cells mem })

/-- A prefix block of one key at the scratchpad's first bytes, with AUX and OUT behind it. -/
def prefixBlock : Nat := scrBase + (scrBase + 64) * 2 ^ 128 + (scrBase + 128) * 2 ^ 192 + 2 ^ 256 + 2 ^ 288

/-- A state in which the core reaches `mapped`'s memory and device 1. -/
def reaching (u : State) : State :=
  { u with dev.boot.maxdev := 1, dev.tlb := mapped.dev.tlb, dev.fab.ports := mapped.dev.fab.ports }

/-- A descriptor of n FP32 elements side by side at an address. -/
def sideBySide (n base : Nat) : Nat := 9 * 2 ^ 64 + 2 ^ 80 + 3 * 2 ^ 88 + n * 2 ^ 128 + 2 ^ 160 + base

/-- A copy of n elements from the scratchpad's first bytes to an address. -/
def copying (n dst : Nat) : Entry := engEntry 0 .cpy (sideBySide n scrBase + sideBySide n dst * 2 ^ 512) 0

/-- A gather or scatter of one element of 8 bytes, its list at the scratchpad's first bytes, its data behind, and the tail counter's address. -/
def listing (op : EngOp) (tail : Nat) : Entry := engEntry 1 op (scrBase + (scrBase + 64) * 2 ^ 64 + 2 ^ 128 + 3 * 2 ^ 160 + tail * 2 ^ 192) 0

/-- The value of an engine's access that succeeds, and the state it leaves. -/
def engVal {α : Type} (y : α) : Eng α → α
  | .ok x _ => x
  | _ => y
/-- The state it leaves. -/
def engSt {α : Type} (s : State) : Eng α → State
  | .ok _ t => t
  | _ => s

theorem eng_eq {α : Type} {r : Eng α} (y : α) (s : State) (h : engOk r = true) : r = .ok (engVal y r) (engSt s r) := by
  cases r <;> first | rfl | cases h

/-- The engine waits and asks a device, or only waits. -/
def engAsks {α : Type} (asks : Bool) (dn : Nat) : Eng α → Bool
  | .wait n (some _) => asks && decide (n = dn)
  | .wait n none => !asks && decide (n = dn)
  | _ => false

/-- A scatter whose trains stand in its plan: one to this device and one to device 1. -/
def planned (p : Nat) : Entry :=
  { listing .rscat 0 with plan := [⟨0, 0, [(2 ^ 63 + 8, [1])], true, none⟩, ⟨1, 0, [(2 ^ 48 + 0x50000, [1])], true, none⟩], prog := p }

/-- A reduction of n INT32 elements from the scratchpad's first bytes to those at 64. -/
def reducing (n : Nat) : Entry := engEntry 2 .coll (scrBase + (scrBase + 64) * 2 ^ 64 + n * 2 ^ 128 + 5 * 2 ^ 160) 0

/-- Slots 0 and 2 of one launch, each with an entry of a collective at the head of CLQ. -/
def together (e x : Entry) : State :=
  let u := engHead 1 2 e []
  { u with
    dev.launches := [(1, { ours with nslot := 2, slots := [0, 2] })]
    dev.slots := [(2, { u.slot with lslot := 1, clq := [x] })] }

/-- What the member on slot n reads after those before it. -/
def srcRead (i n : Nat) (a : State) : Eng (List Byte) :=
  engRead (reducing 2) (kSrc (reducing 2).block.toNat) (collSrcBytes (reducing 2).block.toNat i 2) (focus a n 1)
/-- The state after the first read. -/
def afterOne : State := engSt solo (srcRead 0 0 (together (reducing 2) (reducing 2)))
/-- The state after both. -/
def afterBoth : State := engSt solo (srcRead 1 2 afterOne)
/-- What both read. -/
def gatheredSrc : List (Nat × List Byte) := [(0, engVal [] (srcRead 0 0 (together (reducing 2) (reducing 2)))), (2, engVal [] (srcRead 1 2 afterOne))]
/-- What a member writes. -/
def dstWrite (i n : Nat) (a : State) : Eng Unit :=
  engWrite (reducing 2) (kDst (reducing 2).block.toNat) (collResult (reducing 2).block.toNat i 2 (gatheredSrc.map Prod.snd)) (focus a n 1)
/-- A member done. -/
def dstDone (i n : Nat) (a : State) : State :=
  finishHead 2 (reducing 2) (collResult (reducing 2).block.toNat i 2 (gatheredSrc.map Prod.snd)).length 0 0 (engAnswered (reducing 2) (engSt solo (dstWrite i n a)))

/-- A collective of devices 0 and 1. -/
def abroad : Entry := { engEntry 2 .coll (scrBase + (scrBase + 64) * 2 ^ 64 + 2 * 2 ^ 128 + 5 * 2 ^ 160 + 2 ^ 184 + 2 * 2 ^ 224) 0 with list := [0, 0, 1, 0] }

/-- A table command of n keys under BLEN 1 whose RESULT is at an address; begun, or not. -/
def tabling (op : EngOp) (n out : Nat) (begun : Bool) : Entry :=
  let e := engEntry 4 op (scrBase + (scrBase + 64) * 2 ^ 64 + (scrBase + 256) * 2 ^ 128 + out * 2 ^ 192 + n * 2 ^ 256 + 2 ^ 288) 0
  if begun then { e with vl := 1, vlvalid := 0x10001 } else e

/-- It at the head, with a table of one entry at `mapped`'s memory. -/
def tableAt (e : Entry) (entry : Nat) : State :=
  { reaching (engHead 1 4 e []) with
    dev.ctxs := [(3, { CtxBlk.reset with pfx := [(0, 0x10001)] })]
    dev.mem := ((upFrom 0 32).map (fun i => (0x50000 + i, BitVec.ofNat 8 (bits entry (8 * i) 8)))).filter (fun c => c.2 != 0) }

/-- A step that succeeds in a way. -/
def stepIs {α : Type} [DecidableEq α] (x : α) : Eng α → Bool
  | .ok y _ => x = y
  | _ => false

theorem one_read : srcRead 0 0 (together (reducing 2) (reducing 2)) = .ok (engVal [] (srcRead 0 0 (together (reducing 2) (reducing 2)))) afterOne := by
  unfold afterOne
  exact eng_eq [] solo (by decide +kernel)

theorem two_read : srcRead 1 2 afterOne = .ok (engVal [] (srcRead 1 2 afterOne)) afterBoth := by
  unfold afterBoth
  exact eng_eq [] solo (by decide +kernel)

theorem both_read : Through (fun i (m : Nat × List Byte) a c => srcRead i m.1 a = .ok m.2 c) 0 gatheredSrc (together (reducing 2) (reducing 2)) afterBoth := by
  unfold gatheredSrc
  simp only [Through]
  exact ⟨afterOne, one_read, afterBoth, two_read, rfl⟩

theorem both_written : Through (fun i m a c => engOk (dstWrite i m a) = true ∧ c = dstDone i m a) 0 [0, 2] afterBoth (dstDone 1 2 (dstDone 0 0 afterBoth)) := by
  simp only [Through]
  exact ⟨_, ⟨by decide +kernel, rfl⟩, _, ⟨by decide +kernel, rfl⟩, rfl⟩

theorem wit_EngineEvents :
    (let e := copying 4 (scrBase + 1024)
     let u := engHead 0 0 e []
     headEntry u 0 (fun x => x = .cpy) = some e ∧ matesTurn u 0 0 = false ∧ focus u 0 1 = u ∧ dCount (cSrc e.block.toNat) = 4 ∧ engOk (copySpan e 4 0 u) = true) ∧
    (let e := copying 64 (scrBase + 1024)
     let u := engHead 32 0 e []
     headEntry u 0 (fun x => x = .cpy) = some e ∧ u.dev.arg.num = 32 ∧ 0 + 32 < dCount (cSrc e.block.toNat) ∧ engOk (copySpan e 32 0 u) = true ∧
      newCopyLine { e with prog := 0 + 32 } = true) ∧
    (let e := copying 4 (2 ^ 24 + scrBase)
     engOk (copySpan e 0 0 (engHead 1 0 e [])) = true ∧ engErr 0x0B (copyStep e (0 + 0) (engHead 1 0 e [])) = true) ∧
    (let e := listing .rgath 0
     let u := engHead 1 1 e [(5, 0xF0), (6, 0x0F)]
     headEntry u 1 (fun x => x = .rgath) = some e ∧ e.prog < gCount e.block.toNat ∧ engOk (engRead e (wrap (gList e.block.toNat + 8 * 0)) 8 u) = true ∧
      engOk (gatherStep e 0 u) = true ∧ engErr 0x0C (gatherStep e 0 (engHead 1 1 e [(0, 4)])) = true ∧ engErr 0x0A (gatherStep e 0 (engHead 1 1 e [])) = true ∧
      (let far := reaching (engHead 1 1 e [(2, 2)])
       engAsks true 1 (gatherStep e 0 far) = true ∧ engAsks false 1 (gatherStep e 0 { far with dev.fab.rehash := [(0, ⟨[], 1, 0, [], false⟩)] }) = true)) ∧
    (let e := listing .rscat 0
     let u := engHead 0 1 e [(5, 0xF0), (6, 0x0F)]
     headEntry u 1 (fun x => x = .rscat) = some e ∧ e.plan = [] ∧ e.prog = 0 ∧ engOk (scatterPlan e 1 0 u) = true ∧
      engErr 0x0C (scatterPlan e 1 0 (engHead 0 1 e [(0, 4)])) = true ∧ (tailAddr e (engSt u (scatterPlan e 1 0 u))).isOk = true ∧
      (tailAddr (listing .rscat scrBase) u).isOk = false ∧ (engVal [] (scatterPlan e 1 0 u)).all (fun x => decide (sentDev 0 x = 0)) = true ∧
      (engVal [] (scatterPlan e 1 0 u)).isEmpty = false ∧ gSize e.block.toNat ≤ 64) ∧
    (let u := fun p => reaching (engHead 1 1 (planned p) [])
     (planned 0).plan[0]?.map (·.train) = some 0 ∧ (planned 1).plan[1]?.map (·.train) = some 1 ∧ unreachable (u 1).dev 1 = false ∧
      unreachable { (u 1).dev with fab.deadDevs := [1] } 1 = true ∧
      (planned 0).plan[0]?.all (fun g => (segWait (planned 0) g (u 0)).isNone) = true ∧
      (planned 1).plan[1]?.all (fun g => ((segWait (planned 1) g (u 1)).bind Prod.snd).isSome) = true) ∧
    (let e := reducing 2
     let u := together e e
     headEntry u 2 (fun x => x = .coll) = some e ∧ matesTurn u 0 2 = false ∧ kKind e.block.toNat = 0 ∧ memberSlots u (kGroup e.block.toNat) = [0, 2] ∧
      (∀ m ∈ [0, 2], collHead u m (kGroup e.block.toNat) e.koff = some e) ∧ gatheredSrc.map Prod.fst = [0, 2] ∧
      Through (fun i (m : Nat × List Byte) a c => srcRead i m.1 a = .ok m.2 c) 0 gatheredSrc u afterBoth ∧
      (∀ m ∈ [0, 2], ∃ locs w, collReach m 2 e afterBoth = .ok locs w) ∧
      Through (fun i m a c => engOk (dstWrite i m a) = true ∧ c = dstDone i m a) 0 [0, 2] afterBoth (dstDone 1 2 (dstDone 0 0 afterBoth))) ∧
    (let u := together (reducing 2) (reducing 3)
     collHead u 2 0 0 = some (reducing 3) ∧ (collKey (reducing 3) != collKey (reducing 2)) = true) ∧
    (let u := { engHead 1 2 abroad [] with dev.arg := { EvArg.zero with ok := true, parts := [(1, leBytes 8 7)] } }
     headEntry u 2 (fun x => x = .coll) = some abroad ∧ kKind abroad.block.toNat = 1 ∧ listDevs abroad.list = [0, 1] ∧ (listDevs abroad.list).idxOf u.dev.boot.devnum = 0 ∧
      (u.dev.arg.parts.find? (fun x => x.1 = 1)).map Prod.snd = some (leBytes 8 7) ∧
      (let r := engRead abroad (kSrc abroad.block.toNat) (collSrcBytes abroad.block.toNat 0 2) u
       let v := engSt solo r
       engOk r = true ∧ engOk (engWrite abroad (kDst abroad.block.toNat) (collResult abroad.block.toNat 0 2 [engVal [] r, leBytes 8 7])
        { v with dev := addAcnt abroad.acct 4 (collSrcBytes abroad.block.toNat 0 2) v.dev }) = true) ∧
      (engHead 1 2 abroad []).dev.arg.ok = false) ∧
    (let e := engEntry 4 .pfxh prefixBlock 0
     let u := engHead 1 4 e []
     headEntry u 4 (fun x => x = .pfxh) = some e ∧ e.prog < pN e.block.toNat ∧ engOk (chainBefore e u) = true ∧ engOk (hashStep e u) = true ∧
      engErr 0x0A (hashStep (engEntry 4 .pfxh (prefixBlock + 2 ^ 168) 0) u) = true) ∧
    (∀ op ∈ [EngOp.pfxlk, .pfxins, .pfxunpin], let out := scrBase + 512
      headEntry (tableAt (tabling op 1 out false) 0) 4 (fun x => x = op) = some (tabling op 1 out false) ∧ (tabling op 1 out false).vl ≠ 1 ∧
      (engXlate true (pOut (tabling op 1 out false).block.toNat) 8 (tableAt (tabling op 1 out false) 0)).isOk = true ∧
      tableReg (tableAt (tabling op 1 out false) 0) (pTable (tabling op 1 out false).block.toNat) = 0x10001 ∧
      tableReg (engHead 1 4 (tabling op 1 out false) []) 0 = 0 ∧
      (engXlate true (pOut (tabling op 1 (2 ^ 40) false).block.toNat) 8 (tableAt (tabling op 1 (2 ^ 40) false) 0)).isOk = false ∧
      (tabling op 1 out true).vl = 1 ∧ (tabling op 1 out true).prog + 1 = pN (tabling op 1 out true).block.toNat ∧
      (tabling op 2 out true).prog + 1 < pN (tabling op 2 out true).block.toNat ∧
      engOk (engWrite (tabling op 1 out true) (pOut (tabling op 1 out true).block.toNat) (leBytes 8 1) (tableAt (tabling op 1 out true) 0)) = true) ∧
    (let look := tabling .pfxlk 1 (scrBase + 512) true
     let ins := tabling .pfxins 1 (scrBase + 512) true
     let unp := tabling .pfxunpin 1 (scrBase + 512) true
     let hit := 2 ^ 112 + 2 ^ 192
     let pinned := 9 + 2 ^ 96 + 2 ^ 192
     let none' := { look with vlvalid := 0xFFF0001 }
     stepIs .on (lookStep look (tableAt look hit)) = true ∧ stepIs (.off 0) (lookStep look (tableAt look 0)) = true ∧
     stepIs .on (insertStep ins (tableAt ins 0)) = true ∧ stepIs (.off 1) (insertStep ins (tableAt ins pinned)) = true ∧
     engErr 0x0B (lookStep none' (tableAt none' 0)) = true ∧ stepIs true (unpinStep unp (tableAt unp (2 ^ 96 + 2 ^ 192))) = true ∧
     stepIs false (unpinStep unp (tableAt unp 0)) = true ∧ engErr 0x0B (unpinStep none' (tableAt none' 0)) = true) ∧
    (∀ x ∈ [(1, { listing .rgath 0 with start := some 0 }), (1, { planned 1 with start := some 0 }), (2, { abroad with start := some 0 }), (2, { reducing 2 with start := some 0 })],
      let u := { reaching (engHead 1 x.1 x.2 [(2, 2)]) with dev.devtime := 89478486 }
      headEntry u x.1 (fun y => y = x.2.op) = some x.2 ∧ u.dev.arg.idx = x.1 ∧ 2 ^ 28 ≤ cycNow u - x.2.start.getD (cycNow u) ∧
      (waitsFor x.2 u.dev.arg.num u).isSome = true) ∧
    (let e := { copying 4 (scrBase + 1024) with done := some ⟨4, 0, 0⟩ }
     (queueOf (engHead 0 0 e []).slot 0).head? = some e) ∧
    (let e := { mxEntry .mma 0 with done := some ⟨4, 0, 0⟩ }
     (queueOf (engHead 0 3 e []).slot 3).head? = some e ∧ (engHead 0 3 e []).dev.arg.idx = 3) ∧
    (let b := (copying 4 (scrBase + 1024)).block.toNat
     let u := engHead 0 0 (copying 4 (scrBase + 1024)) []
     dBlk (cSrc b) = 0 ∧ fmtEw (dFmt (cSrc b)) = 8 * 4 ∧ (bitSpan (dBit (cSrc b) 3) 32).2 = (4, 0) ∧ (bitSpan (dBit (cDst b) 3) 32).2 = (4, 0) ∧
      (match engReach (copying 4 (scrBase + 1024)) true (bitSpan (dBit (cDst b) 3) 32).1 4 u with
       | .ok locs _ => decide (locs.map (·.key)).Nodup
       | _ => false) = true ∧ u.dev.retire = [] ∧ u.dev.mwatch = []) ∧
    (fmtInt 5 = true ∧ ∀ x ∈ [1, 2 ^ 32 - 1], x < 2 ^ fmtEw 5) := by
  refine ⟨?_, ?_, ?_, ?_, ?_, ?_, ⟨?_, ?_, ?_, ?_, ?_, ?_, both_read, ?_, both_written⟩, ?_, ?_, ?_, ?_, ?_, ?_, ?_, ?_, ?_, ?_⟩
  case refine_13 =>
    intro m hm
    have h : engOk (collReach m 2 (reducing 2) afterBoth) = true := by revert m; decide +kernel
    exact ⟨_, _, eng_eq [] solo h⟩
  all_goals decide +kernel

/-- The bytes of a number at physical address 0x50000. -/
def image (n : Nat) : List Host.Cell :=
  ((upFrom 0 512).map (fun i => (0x50000 + i, BitVec.ofNat 8 (bits n (8 * i) 8)))).filter (fun c => c.2 != 0)

/-- A packet of type t for one TCB or with arguments, a TCB of a SOLO kernel with PRED 0, and its descriptor. -/
def packetImage (t : Nat) : Nat :=
  1 + t * 2 ^ 8 + (if t < 2 then 2 ^ 32 + 0x10080 * 2 ^ 192 else 0x10180 * 2 ^ 256)
    + (0x10100 * 2 ^ 128 + 0x75 * 2 ^ 512 + 2 ^ 544 + 5 * 2 ^ 560) * 2 ^ 1024

/-- The device with context 3 on, its page at 0x10000 held for the dispatcher, queue 7 with a packet to consume and memory in place. -/
def hosting (n : Nat) : State :=
  { State.reset with
    dev.tlb := [⟨512, 3, false, 0x10000, 65536, 0x50000, true, false⟩], dev.mem := image n
    dev.ctxs := [(3, { CtxBlk.reset with droot := 1, savecfg := 0xFFFFFF0001 })]
    dev.queues := [(7, { UQueue.reset with qbase := 0x10000, qcfg := 0x30146, qnotify := 1 })]
    dev.arg := { EvArg.zero with idx := 7 } }

/-- A packet of type t consumed from queue 7, as packet 7. -/
def consumed (t : Nat) : Packet := packetOf 7 (queueAt (hosting 0).dev 7) (packetImage t)

/-- A launch of queue 7 in a phase, with a TCB and a task. -/
def offered (p : Nat) : Launch := { Launch.offered 3 7 0 0 with phase := p, tcbs := [0x10080], nslot := 1, part := 0x75, tasks := [9] }

/-- Launch 7 waits for a slot with a READY task, and the turn gives it slot 4. -/
def offering : State :=
  { hosting (packetImage 0) with
    dev.launches := [(7, offered 1)], dev.tasks := [(9, { taskOf 7 0x10080 0 0 with st := 2 })]
    dev.arg := { EvArg.zero with idx := 7, nats := [4] } }

/-- The words that a turn gives an event stand on a parked device. -/
def withPackets (t : Nat) : State := { hosting (packetImage t) with dev.packets := [(7, consumed t)] }

/-- A launch offered, and the turn that admits it, whose note says how much scratchpad its kernel asks for. -/
def admitting (scrmin : Word) (l : Launch) : State :=
  { hosting (packetImage 0) with
    dev.launches := [(7, l)], dev.arg := { EvArg.zero with idx := 7, num := 512, len := 16384, val := scrmin } }

/-- The launch with what that turn's notes say. -/
def noted (d : Device) (l : Launch) : Launch :=
  { l with translated := d.arg.ok, mode1 := d.arg.ok2, minvl := d.arg.num, maxvl := d.arg.len, scrmin := d.arg.val.toNat }

theorem wit_QueueEvents :
    (let d := park (hosting (packetImage 0))
     let u := queueAt d 7
     d.arg.idx = 7 ∧ queueOn u = true ∧ queueOn (queueAt d 8) = false ∧ u.qstat = 0 ∧ u.wait = false ∧ u.qrd.toNat < u.qnotify.toNat ∧
      ctxRead d (queueCtx u) (packetAddr u) 1 = .ok (okOf [] (ctxRead d (queueCtx u) (packetAddr u) 1)) ∧
      ctxRead d (queueCtx u) (packetAddr u) 64 = .ok (okOf [] (ctxRead d (queueCtx u) (packetAddr u) 64)) ∧
      (let bs := okOf [] (ctxRead d (queueCtx u) (packetAddr u) 64)
       (leNat bs).testBit 0 = true ∧ packetBad u (leNat bs) = false ∧ listMiss d (queueCtx u) (leNat bs) = none) ∧
      ctxWrite 0 (queueCtx u) (packetAddr u) [0] d = .ok (okOf d (ctxWrite 0 (queueCtx u) (packetAddr u) [0] d))) ∧
    ((6 : Nat) ≤ (0x46 : Word).toNat % 32 ∧ (0x50 : Word).toNat % 32 ≤ 16 ∧ (0x46 : Word).toNat.testBit 6 = true ∧ (0x45 : Word).toNat % 32 < 6) ∧
    packetBad (queueAt (hosting 0).dev 7) (packetImage 9) = true ∧ (leNat [(0 : Byte)]).testBit 0 = false ∧
    (∀ t ∈ [0, 1, 2, 3], let d := park (withPackets t)
      SMap.find d.packets 7 = some (consumed t) ∧ (consumed t).typ = t ∧ (consumed t).phase = 0 ∧ mayStart d 7 (consumed t) = true ∧ earlier d 7 (consumed t) = []) ∧
    (let d := park (withPackets 2)
     (consumed 2).arg0 ≠ 0 ∧ ctxRead d 3 (consumed 2).arg0 8 = .ok (okOf [] (ctxRead d 3 (consumed 2).arg0 8)) ∧ queueCtx (queueAt d 7) = 3 ∧
      ctxWrite 1 3 (consumed 3).arg0 (leBytes 8 0) d = .ok (okOf d (ctxWrite 1 3 (consumed 3).arg0 (leBytes 8 0) d))) ∧
    (let d := park (admitting 0 (offered 0))
     let l := noted d (offered 0)
     let d0 := setLaunch 7 l d
     let bs := okOf [] (tcbBlocks d0 l)
     SMap.find d.launches 7 = some (offered 0) ∧ (offered 0).phase = 0 ∧ d.arg.idx = 7 ∧ tcbBlocks d0 l = .ok bs ∧
      checkLaunchTcbs d0 l bs = .ok (okOf l (checkLaunchTcbs d0 l bs)) ∧ (okOf l (checkLaunchTcbs d0 l bs)).tcbs.length = bs.length) ∧
    (let d := park (admitting 0 { offered 0 with tcbs := [2 ^ 40] })
     let l := noted d { offered 0 with tcbs := [2 ^ 40] }
     (tcbBlocks (setLaunch 7 l d) l).isOk = false) ∧
    (let d := park (admitting (2 ^ 32) (offered 0))
     let l := noted d (offered 0)
     let d0 := setLaunch 7 l d
     (tcbBlocks d0 l).isOk = true ∧ (checkLaunchTcbs d0 l (okOf [] (tcbBlocks d0 l))).isOk = false) ∧
    (let d := park offering
     SMap.find d.launches d.arg.idx = some (offered 1) ∧ (offered 1).cutting = none ∧ waitsForSlots d (offered 1) = true ∧ isNext d (offered 1) = true ∧
      slotsFit d (offered 1) d.arg.nats = true ∧ d.arg.pairs = [] ∧ d.arg.nats[0]? = some 4 ∧ (1, 8) ∈ entriesOf (offered 1).cfg) ∧
    (let l := { offered 2 with dead := true, deadline := 5 }
     (l.phase = 1 ∨ l.phase = 2) ∧ l.dead = true ∧ l.missed = false ∧ l.abort = false ∧ (4 : Word).toNat < l.deadline.toNat ∧ l.deadline.toNat ≤ (5 : Word).toNat) := by
  refine ⟨⟨?_, ?_, ?_, ?_, ?_, ?_, ok_eq ?_, ok_eq ?_, ?_, ok_eq ?_⟩, ?_, ?_, rfl, ?_, ⟨?_, ok_eq ?_, ?_, ok_eq ?_⟩, ⟨rfl, rfl, ?_, ok_eq ?_, ok_eq ?_, ?_⟩, ?_, ?_, ?_, ?_⟩
  all_goals decide +kernel

/-- `commanding` with its slot changed and a turn's operands: its context is on and has a fault queue of 16 records and one save frame, both
in a page held for the dispatcher. -/
def watched (a : EvArg) (f : Slot → Slot) : State :=
  { commanding with
    slot := f { commanding.slot with part := 0x75 }, dev.arg := a
    dev.tlb := [⟨512, 3, false, 0x10000, 65536, 0x50000, true, false⟩]
    dev.ctxs := [(3, { CtxBlk.reset with droot := 1, fqbase := 0x10000, fqcfg := 0x14, savebase := 0x11000, savecfg := 0x10001 })] }

/-- A record to be posted. -/
def recordOf (c : Nat) : FaultRec := ⟨c, 0, 1, 0, 0, 0, 0, 0, 0, 0, 0⟩

/-- A system cutting of launch 1 in the device's only frame. -/
def sealedCut : SysCut := ⟨1, 0, 3, 0, 0x11000, .preempt, 0, [], none, { Slot.free with cfg := 0, part := 0x75 }⟩

/-- `watched` with slot 0 free, its launch in a system cutting, and the turn that places it on slot 2. -/
def returning : State :=
  { watched { EvArg.zero with idx := 9, slot := 2 } (fun _ => Slot.free) with
    thr := Thread.absent, dev.sysCuts := [(9, sealedCut)], dev.launches := [(1, { ours with slots := [1024] })]
    dev.mem := (image (2 * 2 ^ 64 + 0x100 * 2 ^ 448 + 0x75 * 2 ^ 320 + 16384 * 2 ^ 256)).map (fun c => (c.1 + 0x1000, c.2)) }

/-- `commanding` at a `susp` for group 1 at the scratchpad's first bytes: another slot is still out and a section has been written. -/
def leaving : State :=
  { commanding with
    thr.pnd.susp := some ⟨scrBase, 0, 1, 9, 0x100⟩
    dev.launches := [(1, { ours with suspN := [(2048 + 1, 1)], cuts := [(1, ⟨scrBase, 1, [0, 1], [0, 1], [(2, 320, 64, 0)], 384, false, false⟩)] })] }

theorem wit_SlotEvents :
    (let d := park (hosting 0)
     (3 : Nat) < 256 ∧ (slotOf d 6).st = .free ∧ (slotOf d 7).st = .free ∧ (1 : Word).toNat % 4 ≠ 3) ∧
    (let d := park (watched EvArg.zero (fun sl => { sl with st := .stopped, posted := true, held := some (recordOf 4) }))
     (slotOf d 0).posted = true ∧ (slotOf d 0).st = .stopped ∧ (SMap.find (slotOf d 0).ths 1).isSome = true ∧
      (SMap.get Thread.absent (slotOf d 0).ths 1).hid.active = false ∧ (slotOf d 3).posted = false) ∧
    (let e := focus (watched EvArg.zero id) 0 1
     e.slot.st = .running ∧ e.slot.chain = none ∧ saveReady e e.slot = true) ∧
    (let s := { watched EvArg.zero id with thr.pnd.stores := [⟨1, 0, 0, 0, 0, [(5, 0xFF, 9)], 0, 0, none⟩] }
     let d := park s
     let sl := slotOf d 0
     SMap.find d.slots 0 = some sl ∧ sl.st ≠ .free ∧ sl.chain = none ∧ SMap.find d.launches sl.launch = some ours ∧ ours.phase ≠ 3 ∧ ours.ending = false ∧
      ours.cause = 0 ∧ ∃ p ∈ sl.ths, p.2.pnd.stores ≠ []) ∧
    (let s := { watched EvArg.zero (fun sl => { sl with st := .saving, save := some .preempt }) with thr.live := false }
     let d := park (within 0 1 unsuspend s)
     let sl := slotOf d 0
     (slotAt s 0).save.isSome = true ∧ (slotAt s 0).st = .saving ∧ (slotAt s 0).ctx = sl.ctx ∧ saveDrained (slotAt s 0) = true ∧
      pickFrame (park s) sl.ctx 0 = some 0 ∧ sl.chain = none ∧
      (writeSystemCut (savedSlot d 0 (2 ^ 48 - 1) sl) 2 1 0 0x11000 d).2 = true ∧
      (let d := { d with ctxs := [(3, { ctxOf d 3 with savebase := 2 ^ 40 })] }
       pickFrame d 3 0 = some 0 ∧ (writeSystemCut (savedSlot d 0 (2 ^ 48 - 1) sl) 2 1 0 (2 ^ 40) d).2 = false)) ∧
    (let d := park (watched EvArg.zero (fun sl => { sl with st := .saving, save := some .preempt, wdog := 2 ^ 24 }))
     let sl := slotOf d 0
     watchExpired d 0 = true ∧ sl.st = .saving ∧ sl.save.isSome = true ∧ sl.chain = none) ∧
    (let d := park returning
     let l := { ours with slots := [1024] }
     let hb := okOf [] (ctxRead d 3 0x11000 256)
     SMap.find d.sysCuts 9 = some sealedCut ∧ SMap.find d.launches 1 = some l ∧ ctxRead d 3 0x11000 256 = .ok hb ∧ bfield (leNat hb) 8 8 = 2 ∧
      cutWaits d 9 sealedCut = true ∧ (∀ x, cutLaunch d sealedCut = some x → isNext d x = true) ∧ slotFree d 2 = true ∧
      (let e := { d with mem := [] }
       (ctxRead e 3 0x11000 256).isOk = true ∧ bfield (leNat (okOf [] (ctxRead e 3 0x11000 256))) 8 8 ≠ 2) ∧
      slotFits d (bfield (leNat hb) 37 1) (bfield (leNat hb) 40 4) (bit (bfield (leNat hb) 16 4) 0) (bfield (leNat hb) 32 4) (bfield (leNat hb) 76 2) 2 = true ∧
      (placeSystemCut 9 2 sealedCut l d).isOk = true) ∧
    (let sl := slotOf (park leaving) 0
     let e := focus leaving 0 (chiefRole sl)
     suspReady sl = true ∧ e.thr.pnd.susp = some ⟨scrBase, 0, 1, 9, 0x100⟩ ∧ ∃ l k c, SMap.find e.dev.launches e.slot.launch = some l ∧
      cutOf e l 1 = some (k, c) ∧ (writeMember ⟨scrBase, 0, 1, 9, 0x100⟩ l k c e).isOk = true) ∧
    (let s := watched EvArg.zero (fun sl => { sl with wdog := 2 ^ 24 })
     let sl := slotOf (park s) 0
     sl.st = .running ∧ (∃ p ∈ sl.ths, p.2.live = true) ∧ watchExpired (park s) 0 = true ∧ sl.chain = none ∧ sl.save = none ∧ saveReady (focus s 0 1) sl = true) ∧
    (let d := park (watched EvArg.zero (fun sl => { sl with st := .stopped, held := some (recordOf 4) }))
     let sl := slotOf d 0
     sl.held = some (recordOf 4) ∧ sl.posted = false ∧ sl.postFault = false ∧ sl.st ≠ .free ∧
      (∃ d1, postRecord d sl.ctx (recordBytes 0 sl (recordOf 4)) = .posted d1)) ∧
    (let u := focus { commanding with thr.halted := true } 0 1
     u.thr.halted = true ∧ ∀ e ∈ u.slot.mxq, e.op = .marker ∨ e.role ≠ 1) ∧
    (let u := fun (sel : Nat) => focus { watched EvArg.zero (fun sl => { sl with st := .stopped }) with thr.sr.vlmax := 16384, dev.dbg := [(1, { DbgBlk.reset with sel := w64 sel })] } 0 1
     (∀ x ∈ [0, 0x51, 255 * 2 ^ 16 + 3], windowOpen (u x) = true ∧ selWritable (u x) = true ∧ (dbgSel (u x)).1 = x % 16) ∧
      selWritable (u 9) = false ∧ windowOpen (focus commanding 0 1) = false) := by
  refine ⟨?_, ?_, ?_, ?_, ?_, ?_, ⟨?_, ?_, ok_eq ?_, ?_⟩, ⟨?_, ?_, _, _, _, rfl, rfl, ?_⟩, ?_, ⟨?_, ?_, ?_, ?_, _, rfl⟩, ?_, ?_⟩
  all_goals decide +kernel

/-- A device with a TLBI command under way, an extend under way and a retirement block in a state, with a turn's operands. -/
def tended (a : EvArg) (r : Retire) : State :=
  { State.reset with dev.arg := a, dev.tlbiBusy := true, dev.boot.mextBusy := true, dev.retire := [(3, r)] }

theorem wit_HostEvents :
    ((park State.reset).tlbiBusy = false ∧ (park (tended EvArg.zero Retire.reset)).tlbiBusy = true ∧ tlbiQuiet (park (tended EvArg.zero Retire.reset)) = true ∧
      (tended EvArg.zero Retire.reset).dev.boot.mextBusy = true) ∧
    ((0x20FFF : Nat) < 2 ^ 32 ∧ ((0x20FFF : Nat) % 8 ≠ 0 ∨ (4 : Nat) ≠ 8)) ∧
    ((0x20000 : Nat) % 8 = 0 ∧ (0x23FF8 : Nat) % 8 = 0 ∧ (0x23FF8 : Nat) < 0x24000 ∧ (0xC3FE0 : Nat) < 0xC4000 ∧ (0xC3FE0 : Nat) % 32 = 0) ∧
    ((2 ^ 40 - 4 : Word).toNat + [(1 : Byte), 2, 3, 4].length ≤ 2 ^ 40 ∧ State.reset.dev.retire = [] ∧ State.reset.dev.mwatch = [] ∧
      0x800000000000 ≤ (0xBFFFFFFFFFFC : Word).toNat ∧ (0xBFFFFFFFFFFC : Word).toNat + [(1 : Byte), 2, 3, 4].length ≤ 0xC00000000000) ∧
    ((10 : Nat) ≤ 13 ∧ (13 : Nat) ≤ 13) ∧
    ((15 : Nat) < 16 ∧ (0x50000 : Word).toNat < 2 ^ 63 ∧ isLocalDev State.reset.dev (0x50000 : Word).toNat = true) ∧
    (let waits := { Retire.reset with waiting := [7], spare := 0x0002000000500000 }
     let full := { waits with used := 2 }
     (retireAt (tended EvArg.zero waits).dev 3).waiting = 7 :: [] ∧ waits.st = 0 ∧ waits.used < (spareOf waits).2 ∧ (spareOf full).2 ≤ full.used ∧ full.st = 0) ∧
    (∀ st ∈ [1, 2], let r := { Retire.reset with st := st, frame := 5, used := 1, spare := 0x0002000000500000, marked := [3, 511] }
     let d := (tended { EvArg.zero with idx := 3 } r).dev
     (retireAt d 3) = r ∧ (∀ ln ∈ r.marked, ln < 512) ∧
      (homeKey d (localKey d (65536 * r.frame)) + 65536 ≤ localKey d (65536 * ((spareOf r).1 + r.used - 1)) ∨
        localKey d (65536 * ((spareOf r).1 + r.used - 1)) + 65536 ≤ homeKey d (localKey d (65536 * r.frame)))) ∧
    (chainOf solo = none ∧ latent solo 0 3 = false ∧ latent { solo with thr.hid.damaged := [⟨0, 3, 0⟩, ⟨8, 2, 0⟩] } 0 3 = true ∧
      latent { solo with thr.hid.damaged := [⟨0, 3, 0⟩, ⟨8, 2, 0⟩] } 8 2 = true) := by
  refine ⟨?_, ?_, ?_, ?_, ?_, ?_, ?_, ?_, ?_⟩ <;> decide +kernel

/-- A device whose fabric block is changed, under the operands of a turn. -/
def linked (a : EvArg) (g : Fabric → Fabric) : State := { State.reset with dev.arg := a, dev.fab := g State.reset.dev.fab, dev.boot.maxdev := 3 }

/-- A request of this device to device 2 that has waited for 16 µs. -/
def request2 : RemReq := ⟨2, 5, 1, 0, 2 * 2 ^ 48, 8, 0, 0, 0, false, 0⟩

/-- A quiesce of pod 0 on plane 1, of generation 4, with the devices that have drained and whether the new map stands. -/
def rehashing (drained : List Nat) (installed : Bool) : SMap Rehash := [(0, ⟨[1], 4, 1000, drained, installed⟩)]

theorem wit_FabricEvents :
    (let on := linked { EvArg.zero with idx := 31 } (fun f => { f with ports := [(31, 1)], crcFails := [(31, 8)] })
     (portReg on.dev.fab 31).testBit 0 = true ∧ (portReg on.dev.fab 30).testBit 0 = false ∧ 8 ≤ SMap.get 0 on.dev.fab.crcFails 31 ∧
      SMap.get 0 on.dev.fab.crcFails 30 < 8) ∧
    (let s := linked { EvArg.zero with num := 2, idx := 4095, val := 0x50000, bytes := [7, 8], slot := 8 } id
     let d := s.dev
     applied d.arg.idx (windowOf d d.arg.num) = false ∧ beyond d.arg.idx (windowOf d d.arg.num) < 4096 ∧ 4096 ≤ beyond 4096 (windowOf d d.arg.num) ∧
      (∀ k ∈ upFrom d.arg.val.toNat d.arg.bytes.length, isLocalDev d k = true) ∧ (∀ k ∈ upFrom d.arg.val.toNat 8, isLocalDev d k = true) ∧
      d.arg.nats = [] ∧ d.arg.slot ≤ 8 ∧ d.poison = [] ∧ d.retire = [] ∧ d.mwatch = []) ∧
    (let w := { Window.empty with low := 6, cache := [(5, (9, 0))] }
     let s := linked { EvArg.zero with num := 2, idx := 5, ok := true } (fun f => { f with windows := [(2, w)] })
     applied 5 (windowOf s.dev 2) = true ∧ SMap.find (windowOf s.dev 2).cache 5 = some (9, 0) ∧
      (SMap.find (windowOf s.dev 2).cache 5).or (SMap.find (windowOf s.dev 2).cache (2 ^ 32 + 5)) = some (9, 0) ∧ 0 + 64000000 ≤ (64000000 : Word).toNat) ∧
    (let s := fun (k : Nat) => linked { EvArg.zero with num := 2, idx := 5, len := k, ok := true, ok2 := true, val := 0x50100, parts := [(0x50000, [7, 8])] }
        (fun f => { f with windows := [(2, { Window.empty with segs := [(5, (1, 4))] })] })
     ∀ k ∈ [0, 1, 2], let d := (s k).dev
      let w := windowOf d d.arg.num
      d.arg.parts.all (fun x => (upFrom x.1 x.2.length).all (isLocalDev d)) = true ∧ (d.arg.parts.map (fun x => x.2.length)).sum ≤ 4096 ∧
      (SMap.get (0, 0) w.segs d.arg.idx).1 = 1 ∧ w.early = [] ∧ d.arg.len = k ∧ d.retire = [] ∧ d.mwatch = [] ∧
      (∀ x ∈ d.arg.parts.flatMap (fun x => (upFrom x.1 x.2.length).zip x.2), x.1 < localKey d d.arg.val.toNat)) ∧
    (let s := { linked { EvArg.zero with num := 2, idx := 5 } (fun f => { f with reqs := [request2] }) with dev.devtime := 16000 }
     s.dev.fab.reqs = [request2] ∧ request2.dst = s.dev.arg.num ∧ request2.seq = s.dev.arg.idx ∧ request2.held = false ∧
      request2.sentAt + s.dev.fab.rto.toNat % 2 ^ 16 * 1000 ≤ s.dev.devtime.toNat ∧ request2.tries < s.dev.fab.rto.toNat / 2 ^ 16 % 2 ^ 4 ∧
      ¬ (3 < s.dev.fab.rto.toNat / 2 ^ 16 % 2 ^ 4)) ∧
    (let s := fun (l : List Nat) (k : Nat) => linked { EvArg.zero with num := 2, idx := 1, nats := l } (fun f => { f with suspects := [(1, 2)], manager := k })
     actingManager (s [2] 0).dev.fab = (s [2] 0).dev.boot.devnum ∧ actingManager (s [2] 1).dev.fab ≠ (s [2] 1).dev.boot.devnum ∧ (s [] 0).dev.arg.nats = [] ∧
      (s [] 0).dev.fab.suspects.contains (1, 2) = true ∧ 2 ≠ (s [] 0).dev.boot.devnum ∧ 2 ∉ (s [] 0).dev.fab.deadDevs) ∧
    (let none' := linked { EvArg.zero with num := 1 } id
     let some' := linked { EvArg.zero with num := 4 } (fun f => { f with reqs := [request2], rehash := rehashing [] false })
     SMap.find none'.dev.fab.rehash 0 = none ∧ 1 = SMap.get 0 none'.dev.fab.gens 0 + 1 ∧ 2 ≠ SMap.get 0 none'.dev.fab.gens 0 + 1 ∧
      SMap.find some'.dev.fab.rehash 0 = some ⟨[1], 4, 1000, [], false⟩ ∧ covered some'.dev 0 request2 = true ∧ request2.held = false) ∧
    (let s := linked { EvArg.zero with num := 4 } (fun f => { f with rehash := rehashing [0] false })
     let dead := ([(1 : Nat)] ++ (s.dev.fab.declared.filter (fun (x : Nat × Nat) => x.1 = 0)).map (·.2)).eraseDups
     SMap.find s.dev.fab.rehash 0 = some ⟨[1], 4, 1000, [0], false⟩ ∧ s.dev.boot.devnum ∈ [0] ∧ survivors dead (mapOf s.dev 0) ≠ [] ∧
      survivors (upFrom 0 8) (mapOf s.dev 0) = []) ∧
    (let s := linked { EvArg.zero with num := 4 } (fun f => { f with rehash := rehashing [0] true })
     SMap.find s.dev.fab.rehash 0 = some ⟨[1], 4, 1000, [0], true⟩) ∧
    (let s := fun (t : Word) => { linked { EvArg.zero with num := 2 } (fun f => { f with rehash := rehashing [0] false }) with dev.devtime := t }
     2 ∉ [0] ∧ (s 12000999).dev.devtime.toNat < 1000 + 12000000 ∧ 1000 + 12000000 ≤ (s 12001000).dev.devtime.toNat ∧ 2 ≠ (s 0).dev.boot.devnum ∧
      2 ∉ (s 0).dev.fab.deadDevs) := by
  refine ⟨?_, ?_, ?_, ?_, ?_, ?_, ?_, ?_, ?_, ?_⟩ <;> decide +kernel

theorem wit_BootEvents :
    (State.reset.dev.boot.ready = false ∧ (0 : Word).toNat ≤ 0 ∧ (0 : Nat) < (1 : Word).toNat ∧ ({ State.reset.dev.boot with ready := true } : Boot).ready = true) ∧
    ((∀ i, i < 128 → 1200 ≤ clockOf State.reset.dev i ∧ clockOf State.reset.dev i % 100 = 0) ∧ (1200 : Nat) ≤ clockOf State.reset.dev 127 ∧
      (3000 : Nat) ≤ clockOf State.reset.dev 0 ∧ (1250 : Nat) % 100 ≠ 0 ∧ (1100 : Nat) < 1200 ∧ (3000 : Nat) < 3100) ∧
    State.reset.dev.launches = [] ∧
    (State.reset.dev.linkMods ≠ 0 ∧ SMap.get 0 State.reset.dev.mgmt.state 1 < 1 ∧ 3 ≤ SMap.get 0 ([(1, 3)] : SMap Nat) 1) := by
  refine ⟨by decide, ⟨?_, ?_⟩, rfl, by decide +kernel⟩
  · intro i _
    exact ⟨show 1200 ≤ 3000 by decide, show 3000 % 100 = 0 by decide⟩
  · decide

end Sys2Proof.Tests
end

section
/-! PROOFS. Words of the reserved majors (R58): what the major of a word says of the decoder and of `vloop` bodies, the turn of an
illegal word, and a trap whose cause is no program cause. -/

namespace Sys2Proof

/-- The majors that R58 reserves. -/
def reservedMajors : List Nat := [0x00, 0x0D, 0x0E, 0x0F, 0x17, 0x1F, 0x2F, 0x3F]

/-- The decoder's major field is the word's upper six bits (R54). -/
theorem fld_major_toNat (w : BitVec 32) : (fld w 26 6).toNat = w.toNat / 2 ^ 26 := by
  have hlt : w.toNat / 2 ^ 26 < 2 ^ 6 := by have := w.isLt; omega
  rw [fld, BitVec.extractLsb'_toNat, Nat.shiftRight_eq_div_pow, Nat.mod_eq_of_lt hlt]

/-- None of the decoder's lists is that of a reserved major. -/
theorem decodeBy_of_reserved {w : BitVec 32} (f : BitVec 32 → Option Instr) (h : (fld w 26 6).toNat ∈ reservedMajors) :
    decodeBy f w = .error .reservedMajor := by
  unfold decodeBy
  generalize (fld w 26 6).toNat = m at h ⊢
  simp only [reservedMajors, List.mem_cons, List.not_mem_nil, or_false] at h
  rcases h with rfl | rfl | rfl | rfl | rfl | rfl | rfl | rfl <;> rfl

theorem decode_of_reserved {w : BitVec 32} (h : (fld w 26 6).toNat ∈ reservedMajors) : decode w = .error .reservedMajor := by
  rw [decode, decodeRaw, decodeBy_of_reserved decode3D h]

/-- A word that `decode` turns away is no instruction's. -/
theorem isInstr_eq_false_of_error {w : BitVec 32} {e : Reject} (h : decode w = .error e) : isInstr w = false := by
  rw [Bool.eq_false_iff, ne_eq, isInstr_iff, h]
  rintro ⟨i, hi⟩
  cases hi

namespace Machine

theorem majorOf_eq_fld (w : BitVec 32) : majorOf w = (fld w 26 6).toNat := by
  rw [majorOf, bits, fld, BitVec.extractLsb'_toNat]

/-- No reserved major is among those that a `vloop` body bans (R111). -/
theorem bodyBans_of_reserved {w : BitVec 32} (h : majorOf w ∈ reservedMajors) : bodyBans w = false := by
  unfold bodyBans
  generalize majorOf w = m at h ⊢
  revert m
  decide

/-- The turn of an illegal word that ends no loop: with no word before it in the vector queue, it is the trap alone (R23, R58, R59). -/
theorem exec_illegalInstr_of_word {s : State} {w : BitVec 32} (hrun : canRun s = true) (hq : queuedAhead s = 0)
    (hw : fetchWord s = .ok w) (hi : isInstr w = false) (hb : bodyBans w = false) :
    exec .illegalInstr s = .next (takeTrap w 0x01 s.thr.pc (w.setWidth 64) 0 s) := by
  have hexec : exec .illegalInstr s = execIllegalInstr s := rfl
  rw [hexec, execIllegalInstr, hrun, hw]
  simp [hi, hb, inOrder, hq]

@[simp] theorem countLoss_slot (cause : Nat) (s : State) : (countLoss cause s).slot = s.slot := by
  unfold countLoss
  split <;> rfl

/-- A cause that is no program cause stops an ungrafted slot, whatever handler there is (R25, R318). -/
theorem takeTrap_of_not_programCause {w : BitVec 32} {cause : Nat} {tpc val val2 : Word} {s : State} (hp : programCause cause = false)
    (hc : s.slot.chain = none) :
    takeTrap w cause tpc val val2 s =
      stopSlot (faultRec (countLoss cause (clearSkip s)) w cause tpc val val2) (countLoss cause (clearSkip s)) := by
  simp [takeTrap, deliver, hp, hc]

/-- A slot that stops with no cause a resume could cure is STOPPED (R318). -/
theorem stopSlot_slot_st {r : FaultRec} (h : stallCause r.cause = false) (s : State) : (stopSlot r s).slot.st = .stopped := by
  simp [stopSlot, h]

/-- Settles O27: a reserved major is in no list of the decoder and is not banned from loop bodies, so its word only traps; the cause is
neither a program cause nor one that stalls. -/
theorem reservedMajorsTrap : Obligations.ReservedMajorsTrap := by
  intro x hx
  have hf : (fld x 26 6).toNat ∈ reservedMajors := by rw [fld_major_toNat]; exact hx
  have hb : bodyBans x = false := bodyBans_of_reserved (by rw [majorOf_eq_fld]; exact hf)
  refine ⟨decode_of_reserved hf, fun s hrun hq hw => ⟨_, ?_, rfl, fun hc => ?_⟩⟩
  · exact exec_illegalInstr_of_word hrun hq hw (isInstr_eq_false_of_error (decode_of_reserved hf)) hb
  · rw [takeTrap_of_not_programCause (by decide) hc]
    exact ⟨_, stopSlot_slot_held _ _, stopSlot_slot_st (show stallCause 0x01 = false by decide) _, rfl, rfl, rfl⟩

end Machine
end Sys2Proof
end

section
/-! PROOFS. Division (R81): the model's signed and unsigned results against those of bit vectors, and what they are as integers. -/

namespace Sys2Proof.Machine

/-! ## Results of the four forms -/

theorem divS_zero_of_nonneg {a : Word} (h : 0 ≤ a.toInt) : divS a 0 = BitVec.intMax 64 := by
  rw [div_eq, if_pos rfl, if_neg h.not_gt]

theorem divS_zero_of_neg {a : Word} (h : a.toInt < 0) : divS a 0 = BitVec.intMin 64 := by
  rw [div_eq, if_pos rfl, if_pos h]

theorem divS_of_overflow {a b : Word} (ha : a.toInt = -2 ^ 63) (hb : b.toInt = -1) : divS a b = BitVec.intMax 64 := by
  have hb0 : b ≠ 0 := by rintro rfl; exact absurd hb (by decide)
  rw [div_eq, if_neg hb0, if_pos ⟨ha, hb⟩]

/-- A quotient that a word can represent is the exact one, truncated toward zero. -/
theorem toInt_divS {a b : Word} (hb : b ≠ 0) (ho : ¬ (a.toInt = -2 ^ 63 ∧ b.toInt = -1)) :
    (divS a b).toInt = a.toInt.tdiv b.toInt := by
  have hne : a ≠ BitVec.intMin 64 ∨ b ≠ -1#64 := by
    rw [← not_and_or]
    rintro ⟨rfl, rfl⟩
    exact ho ⟨by decide, by decide⟩
  rw [div_eq, if_neg hb, if_neg ho, BitVec.toInt_ofInt, ← BitVec.toInt_sdiv, BitVec.toInt_sdiv_of_ne_or_ne a b hne]

/-- A zero divisor is no case of its own: the remainder by zero is the dividend either way. -/
theorem remS_eq_srem (a b : Word) : remS a b = a.srem b := by
  unfold remS
  split
  case isTrue hb => rw [hb]; exact BitVec.srem_zero.symm
  case isFalse => rw [← BitVec.toInt_srem, BitVec.ofInt_toInt]

theorem toInt_remS (a b : Word) : (remS a b).toInt = a.toInt.tmod b.toInt := by rw [remS_eq_srem, BitVec.toInt_srem]

theorem remS_zero (a : Word) : remS a 0 = a := if_pos rfl

theorem remS_of_toInt_neg_one {a b : Word} (hb : b.toInt = -1) : remS a b = 0 := by
  rw [← BitVec.toInt_inj, toInt_remS, hb, Int.tmod_neg, Int.tmod_one]
  rfl

theorem divU_zero (a : Word) : divU a 0 = BitVec.allOnes 64 := if_pos rfl

theorem toNat_divU {a b : Word} (hb : b ≠ 0) : (divU a b).toNat = a.toNat / b.toNat := by
  rw [divU, if_neg hb, ← BitVec.toNat_udiv, w64, BitVec.ofNat_toNat, BitVec.setWidth_eq]

theorem remU_zero (a : Word) : remU a 0 = a := if_pos rfl

theorem toNat_remU {a b : Word} (hb : b ≠ 0) : (remU a b).toNat = a.toNat % b.toNat := by
  rw [remU, if_neg hb, ← BitVec.toNat_umod, w64, BitVec.ofNat_toNat, BitVec.setWidth_eq]

/-! ## Quotient and remainder together -/

theorem divS_mul_add_remS {a b : Word} (hb : b ≠ 0) (ho : ¬ (a.toInt = -2 ^ 63 ∧ b.toInt = -1)) :
    a.toInt = (divS a b).toInt * b.toInt + (remS a b).toInt := by
  rw [toInt_divS hb ho, toInt_remS, Int.tdiv_mul_add_tmod]

theorem natAbs_remS_lt {a b : Word} (hb : b ≠ 0) : (remS a b).toInt.natAbs < b.toInt.natAbs := by
  have hb0 : b.toInt ≠ 0 := BitVec.toInt_ne.mpr hb
  rw [toInt_remS, Int.natAbs_tmod]
  exact Nat.mod_lt _ (Int.natAbs_pos.mpr hb0)

/-- A remainder that is not 0 has the dividend's sign. -/
theorem remS_neg_iff (a b : Word) : (remS a b).toInt = 0 ∨ ((remS a b).toInt < 0 ↔ a.toInt < 0) := by
  rw [toInt_remS]
  by_cases hd : b.toInt ∣ a.toInt
  · exact .inl (Int.tmod_eq_zero_of_dvd hd)
  · have hs : (a.toInt.tmod b.toInt).sign = a.toInt.sign := by rw [Int.sign_tmod, if_neg hd]
    exact .inr (by rw [← Int.sign_eq_neg_one_iff_neg, hs, Int.sign_eq_neg_one_iff_neg])

theorem divU_mul_add_remU {a b : Word} (hb : b ≠ 0) : a.toNat = (divU a b).toNat * b.toNat + (remU a b).toNat := by
  rw [toNat_divU hb, toNat_remU hb, Nat.div_add_mod']

theorem toNat_remU_lt {a b : Word} (hb : b ≠ 0) : (remU a b).toNat < b.toNat := by
  have hb0 : b.toNat ≠ 0 := fun h => hb (BitVec.eq_of_toNat_eq h)
  rw [toNat_remU hb]
  exact Nat.mod_lt _ (Nat.pos_of_ne_zero hb0)

/-! ## The words -/

/-- Writing an x register, a port too, leaves the state registers. -/
@[simp] theorem wx_thr_sr (n : Nat) (v : Word) (s : State) : (wx n v s).thr.sr = s.thr.sr := by
  unfold wx
  split
  case isTrue => rfl
  case isFalse => split <;> rfl

@[simp] theorem retired_fpflags (w : BitVec 32) (npc : Word) (s : State) : (retired w npc s).thr.sr.fpflags = s.thr.sr.fpflags := rfl

/-- Settles O8: each form is a word that computes one register from two, so it completes; its value is the integer quotient or remainder,
truncated toward zero, outside the table of R81. -/
theorem divisionEdges : Obligations.DivisionEdges := by
  intro s d a b hc hp
  refine ⟨divS (xr s a) (xr s b), remS (xr s a) (xr s b), divU (xr s a) (xr s b), remU (xr s a) (xr s b),
    congrArg _ (aluXR_calm hc hp), congrArg _ (aluXR_calm hc hp), congrArg _ (aluXR_calm hc hp), congrArg _ (aluXR_calm hc hp),
    ?flags, ?zeroNonneg, ?zeroNeg, ?zero, ?overflow, ?signed, ?unsigned⟩
  case flags => intro w v; rw [retired_fpflags, wx_thr_sr]
  case zeroNonneg => intro hb ha; rw [hb, divS_zero_of_nonneg ha]; decide
  case zeroNeg => intro hb ha; rw [hb, divS_zero_of_neg ha]; decide
  case zero => intro hb; rw [hb, divU_zero]; exact ⟨BitVec.toNat_allOnes, remS_zero _, remU_zero _⟩
  case overflow => intro ha hb; rw [divS_of_overflow ha hb]; exact ⟨by decide, remS_of_toInt_neg_one hb⟩
  case signed => exact fun hb ho => ⟨divS_mul_add_remS hb ho, natAbs_remS_lt hb, remS_neg_iff _ _⟩
  case unsigned => exact fun hb => ⟨divU_mul_add_remU hb, toNat_remU_lt hb⟩

end Sys2Proof.Machine
end

section
/-! PROOFS. `nop` and the words beside it (R94): the words with the major and SEL of `nop`, and what the decoder answers for them. -/

namespace Sys2Proof

/-- The word has the major and the SEL field of `nop`, whatever its other fields (R94). -/
def NopForm (x : BitVec 32) : Prop := fits x 0xFC00F000 0xF800F000 = true

theorem NopForm.major {x : BitVec 32} (h : NopForm x) : (fld x 26 6).toNat = 62 := by
  rw [major_of_fits h (by decide)]
  rfl

/-- Another SEL fits none of the six patterns before `nop`, and `nop` itself fixes every bit. -/
theorem NopForm.decode3E_eq_none {x : BitVec 32} (h : NopForm x) (hne : x ≠ 0xF800F000) : decode3E x = none := by
  have hnop : ¬ fits x 0xFFFFFFFF 0xF800F000 = true := by
    rw [fits_iff, word_whole (by decide)]
    exact hne
  unfold decode3E
  iterate 6 rw [if_neg (fits_other h _ _ (by decide))]
  rw [if_neg hnop]

theorem NopForm.decode_eq_error {x : BitVec 32} (h : NopForm x) (hne : x ≠ 0xF800F000) : decode x = .error .unassigned := by
  have hraw : decodeRaw x = .error .unassigned := by simp only [decodeRaw, decodeBy, h.major, h.decode3E_eq_none hne]
  simp only [decode, hraw]

namespace Machine

/-- The major of `nop` is none that a `vloop` body bans (R111). -/
theorem bodyBans_of_nopForm {x : BitVec 32} (h : NopForm x) : bodyBans x = false := by
  rw [bodyBans, majorOf_eq_fld, h.major]
  decide

/-- Settles O26: `nop` is a word that names no register and computes nothing; a word of its form with another field nonzero decodes to
nothing, and its turn is the trap alone. -/
theorem nopOnlyAdvances : Obligations.NopOnlyAdvances := by
  refine ⟨rfl, fun s hc => congrArg _ (scalar_none hc (.refl s)), fun x hx hne => ?_⟩
  have hform : NopForm x := (fits_iff _ _ _).mpr hx
  have hdec : decode x = .error .unassigned := hform.decode_eq_error hne
  exact ⟨hdec, fun s hrun hq hw =>
    exec_illegalInstr_of_word hrun hq hw (isInstr_eq_false_of_error hdec) (bodyBans_of_nopForm hform)⟩

end Machine
end Sys2Proof
end

section
/-! PROOFS. What a write at the homes can change of a device: memory, which keeps its canonical form, and what a home does besides, its
poison marks, retirement marks, memory watches with the records they post, and accounting (R235, R250, R321, R331, R332, R363, R367). -/

namespace Sys2Proof.Machine

/-- The second device differs from the first by writes at the homes and what follows them alone. -/
structure Homes (d e : Device) : Prop where
  frame : e = { d with
    mem := e.mem, poison := e.poison, retire := e.retire, mwatch := e.mwatch, ctxs := e.ctxs, msix := e.msix, acnt := e.acnt }
  wf : Memory.wf d.mem = true → Memory.wf e.mem = true

theorem Homes.refl (d : Device) : Homes d d := ⟨rfl, id⟩

theorem Homes.trans {d e f : Device} (h : Homes d e) (k : Homes e f) : Homes d f := by
  obtain ⟨h1, h2⟩ := h
  obtain ⟨k1, k2⟩ := k
  refine ⟨?_, fun hw => k2 (h2 hw)⟩
  rw [k1, h1]

theorem Homes.foldl {α : Type} {f : Device → α → Device} (h : ∀ d a, Homes d (f d a)) (l : List α) (d : Device) : Homes d (l.foldl f d) := by
  induction l generalizing d with
  | nil => exact .refl d
  | cons a r ih => exact (h d a).trans (ih _)

theorem homes_writeByte (d : Device) (k : Nat) (b : Byte) : Homes d (writeByte d k b) := ⟨rfl, wf_writeByte d k b⟩

theorem homes_writeBytes (bs : List Byte) (d : Device) (k : Nat) : Homes d (writeBytes d k bs) := by
  induction bs generalizing d k with
  | nil => exact .refl d
  | cons b r ih => exact (homes_writeByte d k b).trans (ih _ _)

theorem homes_applyBytes (d : Device) (bs : List (Nat × Byte × Byte)) : Homes d (applyBytes d bs) :=
  Homes.foldl (fun d _ => homes_writeByte d _ _) bs d

theorem homes_clearPoison (d : Device) (l : List Nat) : Homes d (clearPoison d l) := by
  unfold clearPoison
  split
  · exact .refl d
  · refine Homes.foldl (fun d k => ?_) l d
    split
    · exact ⟨rfl, id⟩
    · exact .refl d

theorem homes_addAcnt (a k n : Nat) (d : Device) : Homes d (addAcnt a k n d) := ⟨rfl, id⟩

theorem homes_setCtx (d : Device) (c : Nat) (b : CtxBlk) : Homes d (setCtx d c b) := ⟨rfl, id⟩

theorem homes_raiseVector (v : Nat) (d : Device) : Homes d (raiseVector v d) := ⟨rfl, id⟩

theorem homes_countHits (wr : Writer) (op pa len : Nat) (d : Device) : Homes d (countHits wr op pa len d).1 := by
  unfold countHits
  refine Homes.foldl (fun d p => ?_) _ _
  exact ⟨rfl, id⟩

theorem homes_performLines (wr : Writer) (op : Nat) (bs : List (Nat × Byte × Byte)) (d : Device) : Homes d (performLines wr op bs d).1 := by
  have h := (homes_clearPoison d ((bs.filter (fun p => p.2.1 = 0xFF)).map (·.1))).trans (homes_applyBytes _ bs)
  unfold performLines
  dsimp only
  split
  · exact h
  · generalize linesWritten bs = lines
    generalize applyBytes _ bs = e at h
    suffices hs : ∀ r : Device × List (Nat × List Byte), Homes d r.1 →
        Homes d (lines.foldl (fun r l => ((countHits wr op l.1 l.2 r.1).1, r.2 ++ (countHits wr op l.1 l.2 r.1).2)) r).1 from hs (e, []) h
    induction lines with
    | nil => exact fun _ hr => hr
    | cons l rest ih => exact fun r hr => ih _ (hr.trans (homes_countHits wr op l.1 l.2 r.1))

/-- The device a post leaves. -/
def Posted.dev (d : Device) : Posted → Device
  | .posted e => e
  | .noSpace => d
  | .faulted e => e

theorem homes_postQuiet (d : Device) (c : Nat) (rec : List Byte) : Homes d ((postQuiet d c rec).1.dev d) := by
  unfold postQuiet
  dsimp only
  split
  · exact .refl d
  · split
    · split
      · exact (homes_performLines _ _ _ d).trans ((homes_setCtx _ _ _).trans (homes_raiseVector _ _))
      · exact (homes_setCtx _ _ _).trans (homes_raiseVector _ _)
    · exact (homes_setCtx _ _ _).trans (homes_raiseVector _ _)

theorem homes_dropQuiet (d : Device) (c : Nat) (lost : Word) (rec : List Byte) : Homes d (dropQuiet d c lost rec).1 := by
  have h := homes_postQuiet d c rec
  unfold dropQuiet
  split
  · next e r hq => rw [hq] at h; exact h
  · exact homes_setCtx _ _ _
  · next e r hq => rw [hq] at h; exact h.trans (homes_setCtx _ _ _)

theorem homes_postWatches (n : Nat) (l : List (Nat × List Byte)) (d : Device) : Homes d (postWatches n l d) := by
  induction n generalizing l d with
  | zero => exact .refl d
  | succ n ih =>
    cases l with
    | nil => exact .refl d
    | cons p r => exact (homes_dropQuiet d p.1 0x20 p.2).trans (ih _ _)

theorem homes_postRecord (d : Device) (c : Nat) (rec : List Byte) : Homes d ((postRecord d c rec).dev d) := by
  have h := homes_postQuiet d c rec
  unfold postRecord
  split
  · next e r hq => rw [hq] at h; exact h.trans (homes_postWatches _ _ _)
  · exact .refl d
  · next e r hq => rw [hq] at h; exact h

theorem homes_postOrDrop (d : Device) (c : Nat) (lost : Word) (rec : List Byte) : Homes d (postOrDrop d c lost rec) :=
  (homes_dropQuiet d c lost rec).trans (homes_postWatches _ _ _)

theorem homes_memoryWatch (wr : Writer) (op pa len : Nat) (d : Device) : Homes d (memoryWatch wr op pa len d) :=
  (homes_countHits wr op pa len d).trans (homes_postWatches _ _ _)

theorem homes_performHome (wr : Writer) (op : Nat) (bs : List (Nat × Byte × Byte)) (d : Device) : Homes d (performHome wr op bs d) :=
  (homes_performLines wr op bs d).trans (homes_postWatches _ _ _)

theorem homes_performBytes (wr : Writer) (acct op : Nat) (bs : List (Nat × Byte × Byte)) (d : Device) :
    Homes d (performBytes wr acct op bs d) := by
  have h : ∀ (c : Prop) [Decidable c] (k n : Nat) (e : Device), Homes e (if c then e else addAcnt acct k n e) := by
    intro c _ k n e
    split
    · exact .refl e
    · exact homes_addAcnt _ _ _ _
  exact (h _ 3 _ d).trans ((h _ 4 _ _).trans (homes_performHome _ _ _ _))

end Sys2Proof.Machine
end

section
/-! PROOFS. Encoding and decoding (R54, R55, R57, R59): every well-formed instruction decodes back, so a word that decodes is the word of
one instruction alone, and the bytes of a word say what the word says. -/

namespace Sys2Proof

namespace Laws.RoundTrip

/-- The laws of the single instructions together. -/
theorem statement_of_instr : ∀ i : Instr, Statement i
  | .add d a b => add d a b
  | .sub d a b => sub d a b
  | .and d a b => and d a b
  | .or d a b => or d a b
  | .xor d a b => xor d a b
  | .sll d a b => sll d a b
  | .srl d a b => srl d a b
  | .sra d a b => sra d a b
  | .slt d a b => slt d a b
  | .sltu d a b => sltu d a b
  | .min d a b => min d a b
  | .max d a b => max d a b
  | .minu d a b => minu d a b
  | .maxu d a b => maxu d a b
  | .clz d a => clz d a
  | .ctz d a => ctz d a
  | .popc d a => popc d a
  | .sextb d a => sextb d a
  | .sexth d a => sexth d a
  | .sextw d a => sextw d a
  | .mul d a b => mul d a b
  | .mulhs d a b => mulhs d a b
  | .mulhu d a b => mulhu d a b
  | .mulhx d a b => mulhx d a b
  | .div d a b => div d a b
  | .divu d a b => divu d a b
  | .rem d a b => rem d a b
  | .remu d a b => remu d a b
  | .fadd d a b f => fadd d a b f
  | .fsub d a b f => fsub d a b f
  | .fmul d a b f => fmul d a b f
  | .fdiv d a b f => fdiv d a b f
  | .fsqrt d a f => fsqrt d a f
  | .fmad d a b f => fmad d a b f
  | .feq d a b f => feq d a b f
  | .flt d a b f => flt d a b f
  | .fle d a b f => fle d a b f
  | .funo d a b f => funo d a b f
  | .ftoi d a f => ftoi d a f
  | .ftou d a f => ftou d a f
  | .itof d a f => itof d a f
  | .utof d a f => utof d a f
  | .fcvs d a f => fcvs d a f
  | .fcvh d a f => fcvh d a f
  | .fcvb d a f => fcvb d a f
  | .addi d a i => addi d a i
  | .andi d a i => andi d a i
  | .ori d a i => ori d a i
  | .xori d a i => xori d a i
  | .slti d a i => slti d a i
  | .sltiu d a i => sltiu d a i
  | .lim d c i => lim d c i
  | .pcadd d i => pcadd d i
  | .slli d a s => slli d a s
  | .srli d a s => srli d a s
  | .srai d a s => srai d a s
  | .rori d a s => rori d a s
  | .ldb d a c o => ldb d a c o
  | .ldbu d a c o => ldbu d a c o
  | .ldh d a c o => ldh d a c o
  | .ldhu d a c o => ldhu d a c o
  | .ldw d a c o => ldw d a c o
  | .ldwu d a c o => ldwu d a c o
  | .ldd d a c o => ldd d a c o
  | .stb d a c o => stb d a c o
  | .sth d a c o => sth d a c o
  | .stw d a c o => stw d a c o
  | .std d a c o => std d a c o
  | .aadd d a b s c w => aadd d a b s c w
  | .amin d a b s c w => amin d a b s c w
  | .amax d a b s c w => amax d a b s c w
  | .aand d a b s c w => aand d a b s c w
  | .aor d a b s c w => aor d a b s c w
  | .axor d a b s c w => axor d a b s c w
  | .aswap d a b s c w => aswap d a b s c w
  | .acas d a b s c w => acas d a b s c w
  | .afadd d a b s c f => afadd d a b s c f
  | .fence m s n => fence m s n
  | .fenceQ q => fenceQ q
  | .fenceArr s g => fenceArr s g
  | .wpoll d a s => wpoll d a s
  | .fenceAcq m s n => fenceAcq m s n
  | .fenceRel m s n => fenceRel m s n
  | .beq a b o => beq a b o
  | .bne a b o => bne a b o
  | .blt a b o => blt a b o
  | .bge a b o => bge a b o
  | .bltu a b o => bltu a b o
  | .bgeu a b o => bgeu a b o
  | .jmp o => jmp o
  | .call o => call o
  | .jr a => jr a
  | .callr a => callr a
  | .sbr n m s o => sbr n m s o
  | .vbr a o => vbr a o
  | .vjoin o => vjoin o
  | .vbany a o => vbany a o
  | .vball a o => vball a o
  | .vloop s l => vloop s l
  | .setvl d a t => setvl d a t
  | .setvlr d a b => setvlr d a b
  | .cbld a c n => cbld a c n
  | .vld d a b k c => vld d a b k c
  | .vlds d a b k c => vlds d a b k c
  | .vldx d a b k c => vldx d a b k c
  | .vldmx d a b k c => vldmx d a b k c
  | .vsld d s k c => vsld d s k c
  | .sdld s a => sdld s a
  | .vst d a b k c => vst d a b k c
  | .vsts d a b k c => vsts d a b k c
  | .vstx d a b k c => vstx d a b k c
  | .vstmx d a b k c => vstmx d a b k c
  | .vsst d s k c => vsst d s k c
  | .vscataddDev d a b k c => vscataddDev d a b k c
  | .vscataddHost d a b k c => vscataddHost d a b k c
  | .vscataddSys d a b k c => vscataddSys d a b k c
  | .vadd x d a b k h => vadd x d a b k h
  | .vsub x d a b k h => vsub x d a b k h
  | .vsubr x d a b k h => vsubr x d a b k h
  | .vmul x d a b k h => vmul x d a b k h
  | .vmulhi x d a b k h => vmulhi x d a b k h
  | .vdiv x d a b k h => vdiv x d a b k h
  | .vrem x d a b k h => vrem x d a b k h
  | .vmin x d a b k h => vmin x d a b k h
  | .vmax x d a b k h => vmax x d a b k h
  | .vand x d a b k h => vand x d a b k h
  | .vor x d a b k h => vor x d a b k h
  | .vxor x d a b k h => vxor x d a b k h
  | .vshl x d a b k h => vshl x d a b k h
  | .vshr x d a b k h => vshr x d a b k h
  | .vaddsat x d a b k h => vaddsat x d a b k h
  | .vsubsat x d a b k h => vsubsat x d a b k h
  | .vmad x d a b k h => vmad x d a b k h
  | .vcopy x d b k h => vcopy x d b k h
  | .vfadd x d a b k h => vfadd x d a b k h
  | .vfsub x d a b k h => vfsub x d a b k h
  | .vfsubr x d a b k h => vfsubr x d a b k h
  | .vfmul x d a b k h => vfmul x d a b k h
  | .vfdiv x d a b k h => vfdiv x d a b k h
  | .vfsqrt d a k h => vfsqrt d a k h
  | .vfmin x d a b k h => vfmin x d a b k h
  | .vfmax x d a b k h => vfmax x d a b k h
  | .vfmad x d a b k h => vfmad x d a b k h
  | .vfmsb x d a b k h => vfmsb x d a b k h
  | .vfabs d a k h => vfabs d a k h
  | .vfneg d a k h => vfneg d a k h
  | .vfcsgn x d a b k h => vfcsgn x d a b k h
  | .vfcopy x d b k h => vfcopy x d b k h
  | .vcmpeq d a b k h x => vcmpeq d a b k h x
  | .vcmpne d a b k h x => vcmpne d a b k h x
  | .vcmplt d a b k h x => vcmplt d a b k h x
  | .vcmple d a b k h x => vcmple d a b k h x
  | .vcmpgt d a b k h x => vcmpgt d a b k h x
  | .vcmpge d a b k h x => vcmpge d a b k h x
  | .kboth d a b h => kboth d a b h
  | .keither d a b h => keither d a b h
  | .kdiffer d a b h => kdiffer d a b h
  | .kbut d a b h => kbut d a b h
  | .kflip d a h => kflip d a h
  | .kfill d h => kfill d h
  | .kcount d a k h => kcount d a k h
  | .klowest d a k h => klowest d a k h
  | .vsel d a b k h => vsel d a b k h
  | .vindex d k h => vindex d k h
  | .vshup d a b k h => vshup d a b k h
  | .vshdn d a b k h => vshdn d a b k h
  | .vperm d a b k h => vperm d a b k h
  | .vpack d a k h => vpack d a k h
  | .vuniq d a k h => vuniq d a k h
  | .vget d a b h => vget d a b h
  | .vput d a b h => vput d a b h
  | .vredsum d a k h t => vredsum d a k h t
  | .vredmin d a k h t => vredmin d a k h t
  | .vredmax d a k h t => vredmax d a k h t
  | .vredand d a k h t => vredand d a k h t
  | .vredor d a k h t => vredor d a k h t
  | .vredxor d a k h t => vredxor d a k h t
  | .vfredsum d a k h t => vfredsum d a k h t
  | .vfredsumw d a k h t => vfredsumw d a k h t
  | .vfredmin d a k h t => vfredmin d a k h t
  | .vfredmax d a k h t => vfredmax d a k h t
  | .vfexp2 d a k h => vfexp2 d a k h
  | .vflog2 d a k h => vflog2 d a k h
  | .vfrecip d a k h => vfrecip d a k h
  | .vfrsqrt d a k h => vfrsqrt d a k h
  | .vftanh d a k h => vftanh d a k h
  | .vfsig d a k h => vfsig d a k h
  | .vcvtsr d a b k h f => vcvtsr d a b k h f
  | .vcvtmx d a s k h f => vcvtmx d a s k h f
  | .vcvt d a k h f => vcvt d a k h f
  | .mma z a w k => mma z a w k
  | .mmamo z a w k => mmamo z a w k
  | .zclr z => zclr z
  | .zld z a c => zld z a c
  | .zst z a c => zst z a c
  | .zmv z a w r => zmv z a w r
  | .zmvt z a w r => zmvt z a w r
  | .wbld a w => wbld a w
  | .mcommit a => mcommit a
  | .moadd d a b k h => moadd d a b k h
  | .mosub d a b k h => mosub d a b k h
  | .momul d a b k h => momul d a b k h
  | .mofma d a b k h => mofma d a b k h
  | .mosc d a b k h => mosc d a b k h
  | .moscX d a b k h => moscX d a b k h
  | .moexp d a k h => moexp d a k h
  | .morelu d a k h => morelu d a k h
  | .mosig d a k h => mosig d a k h
  | .motanh d a k h => motanh d a k h
  | .mofrom d a b k h => mofrom d a b k h
  | .mocolMean d a k h => mocolMean d a k h
  | .mocolVar d a k h => mocolVar d a k h
  | .mocolStd d a k h => mocolStd d a k h
  | .mocolUpper d a b k h => mocolUpper d a b k h
  | .mocolLower d a b k h => mocolLower d a b k h
  | .mocolSample d a b k h => mocolSample d a b k h
  | .momv d a k h => momv d a k h
  | .mold d a c k h => mold d a c k h
  | .most d a c k h => most d a c k h
  | .tget d => tget d
  | .tlaunch d a => tlaunch d a
  | .tlaunchW d a => tlaunchW d a
  | .gwait g => gwait g
  | .gtest d g => gtest d g
  | .rstat d t p => rstat d t p
  | .cpy a b n => cpy a b n
  | .rgath a b n => rgath a b n
  | .rscat a b n => rscat a b n
  | .coll a b n => coll a b n
  | .pfxh a b n => pfxh a b n
  | .pfxlk a b n => pfxlk a b n
  | .pfxins a b n => pfxins a b n
  | .pfxunpin a b n => pfxunpin a b n
  | .binit a b => binit a b
  | .bexpect a b => bexpect a b
  | .barrive a => barrive a
  | .bexparr a b => bexparr a b
  | .bwait d a b => bwait d a b
  | .btest d a b => btest d a b
  | .susp d a b g => susp d a b g
  | .mfs d s => mfs d s
  | .mts a s => mts a s
  | .sys c => sys c
  | .brk c => brk c
  | .resm d a b => resm d a b
  | .cdisc d a => cdisc d a
  | .ret => ret
  | .tdone => tdone
  | .tdoneC => tdoneC
  | .eret => eret
  | .yield => yield
  | .nop => nop
  | .yieldWaitEnd => yieldWaitEnd
  | .storePerform => storePerform
  | .wpollTimeout => wpollTimeout
  | .wpollRemoteReread => wpollRemoteReread
  | .fenceArrArrival => fenceArrArrival
  | .barriveEffect => barriveEffect
  | .mmaExecute => mmaExecute
  | .mmamoExecute => mmamoExecute
  | .zclrExecute => zclrExecute
  | .zldExecute => zldExecute
  | .zstExecute => zstExecute
  | .wbFill => wbFill
  | .mcommitArrival => mcommitArrival
  | .cpyExecute => cpyExecute
  | .rgathExecute => rgathExecute
  | .rscatExecute => rscatExecute
  | .collExecute => collExecute
  | .pfxhExecute => pfxhExecute
  | .pfxlkExecute => pfxlkExecute
  | .pfxinsExecute => pfxinsExecute
  | .pfxunpinExecute => pfxunpinExecute
  | .engineEntryComplete => engineEntryComplete
  | .remoteTimeout => remoteTimeout
  | .vectorReplay => vectorReplay
  | .scrubPass => scrubPass
  | .frameRetireStart => frameRetireStart
  | .copyPassEnd => copyPassEnd
  | .retireSwitchDone => retireSwitchDone
  | .qcfgWrite => qcfgWrite
  | .qnotifyWrite => qnotifyWrite
  | .packetConsume => packetConsume
  | .packetStart => packetStart
  | .barrierPacketComplete => barrierPacketComplete
  | .signalPacket => signalPacket
  | .launchAdmit => launchAdmit
  | .placeLaunch => placeLaunch
  | .taskFinish => taskFinish
  | .deadlineMiss => deadlineMiss
  | .tlbiPage => tlbiPage
  | .tlbiDataCtx => tlbiDataCtx
  | .tlbiInstrCtx => tlbiInstrCtx
  | .tlbiAll => tlbiAll
  | .tlbiAck => tlbiAck
  | .lpartWrite => lpartWrite
  | .maxvlWrite => maxvlWrite
  | .slotResume => slotResume
  | .slotPreempt => slotPreempt
  | .slotEnd => slotEnd
  | .preemptSave => preemptSave
  | .saveAbandon => saveAbandon
  | .systemCuttingResume => systemCuttingResume
  | .suspSectionWrite => suspSectionWrite
  | .watchdogExpire => watchdogExpire
  | .dbgHaltWrite => dbgHaltWrite
  | .threadHalted => threadHalted
  | .dbgdataRead => dbgdataRead
  | .dbgdataWrite => dbgdataWrite
  | .fqcfgWrite => fqcfgWrite
  | .faultRecordPost => faultRecordPost
  | .mextGo => mextGo
  | .registerWrite => registerWrite
  | .cxlMemRead => cxlMemRead
  | .cxlMemWrite => cxlMemWrite
  | .linkModuleFail => linkModuleFail
  | .flitReceive => flitReceive
  | .remoteRequestReceive => remoteRequestReceive
  | .trainSegmentReceive => trainSegmentReceive
  | .remoteAckReceive => remoteAckReceive
  | .remoteRetryTimeout => remoteRetryTimeout
  | .responseCacheExpire => responseCacheExpire
  | .switchFatalError => switchFatalError
  | .planeProbeResult => planeProbeResult
  | .quiesce => quiesce
  | .drained => drained
  | .pmapInstall => pmapInstall
  | .release => release
  | .rehashDrainTimeout => rehashDrainTimeout
  | .fmStandbyTakeover => fmStandbyTakeover
  | .deviceStart => deviceStart
  | .startTimeout => startTimeout
  | .currentTrip => currentTrip
  | .thermalThrottle => thermalThrottle
  | .thermalShutdown => thermalShutdown
  | .getVersion => getVersion
  | .getCapabilities => getCapabilities
  | .negotiateAlgorithms => negotiateAlgorithms
  | .getDigests => getDigests
  | .getCertificate => getCertificate
  | .challenge => challenge
  | .getMeasurements => getMeasurements
  | .mctpControl => mctpControl
  | .vendorStatusRead => vendorStatusRead
  | .vectorWordComplete => vectorWordComplete
  | .illegalInstr => illegalInstr
  | .fetchFault => fetchFault
  | .softError => softError
  | .portUp => portUp
  | .islandClockChange => islandClockChange
  | .cxlCacheSnoop => cxlCacheSnoop

end Laws.RoundTrip

/-- Settles O1: the law of each instruction says it. -/
theorem roundTrip : Obligations.RoundTrip := Laws.RoundTrip.statement_of_instr

/-- The four bytes of a word, joined again, are the word (R54). -/
theorem wordOfBytes_fld (w : BitVec 32) : wordOfBytes (fld w 0 8) (fld w 8 8) (fld w 16 8) (fld w 24 8) = w := by
  unfold wordOfBytes fld
  rw [BitVec.extractLsb'_append_extractLsb'_eq_extractLsb' (by decide), BitVec.extractLsb'_append_extractLsb'_eq_extractLsb' (by decide),
    BitVec.extractLsb'_append_extractLsb'_eq_extractLsb' (by decide)]
  exact BitVec.extractLsb'_eq_self

theorem decodeBytes_bytesOfWord (w : BitVec 32) (rest : List (BitVec 8)) :
    decodeBytes (bytesOfWord w ++ rest) = (decode w).map (fun i => (i, rest)) := by
  simp only [bytesOfWord, List.cons_append, List.nil_append, decodeBytes, wordOfBytes_fld]
  cases decode w <;> rfl

/-- Settles O2: a decoded word is the word of its instruction, and another well-formed instruction with that word would decode from it. -/
theorem everyBitCounts : Obligations.EveryBitCounts := by
  refine fun w => ⟨?_, decodeBytes_bytesOfWord w⟩
  cases h : decode w with
  | ok i =>
    obtain ⟨hwf, hhas, henc⟩ := decode_word h
    refine ⟨hhas, hwf, henc, fun j hj hjw hje => ?_⟩
    have hback : decode w = .ok j := hje ▸ roundTrip j hj hjw
    exact Except.ok.inj (hback.symm.trans h)
  | error e =>
    intro j hj hjw hje
    have hback : decode w = .ok j := hje ▸ roundTrip j hj hjw
    rw [h] at hback
    cases hback

end Sys2Proof
end

section
/-! PROOFS. Scalar words that compute (R75 to R87): which body of the shared forms each instruction of the integer, float and branch
tables has, what it leaves of the machine, and what it does at the queue ports of a TRIO slot (R209). -/

namespace Sys2Proof.Machine

/-! ## Integer words -/

/-- The instruction is a word of the shared scalar form that reads the registers of its table and writes `v` to `d`. -/
def Computes (s : State) (i : Instr) (d : BitVec 5) (v : Word) : Prop :=
  ∃ body : State → State, exec i s = .next (scalar (encode i) ((scalarReads i).map BitVec.toNat) [d.toNat] s body) ∧
    body s = wx d.toNat v s

theorem Computes.ofXR {s : State} {i : Instr} {d a b : BitVec 5} {v : Word} {f : Word → Word → Word}
    (he : exec i s = .next (aluXR (encode i) d a b f s)) (hr : scalarReads i = [a, b]) (hv : f (xr s a) (xr s b) = v) :
    Computes s i d v :=
  ⟨fun s => wx d.toNat (f (xr s a) (xr s b)) s, by rw [he, hr]; rfl, by rw [← hv]⟩

theorem Computes.ofX {s : State} {i : Instr} {d a : BitVec 5} {v : Word} {f : Word → Word}
    (he : exec i s = .next (aluX (encode i) d a f s)) (hr : scalarReads i = [a]) (hv : f (xr s a) = v) : Computes s i d v :=
  ⟨fun s => wx d.toNat (f (xr s a)) s, by rw [he, hr]; rfl, by rw [← hv]⟩

theorem toInt_simm {n : Nat} (i : BitVec n) (h : n ≤ 64) : (simm i).toInt = i.toInt := BitVec.toInt_signExtend_of_le h

/-- Each instruction of the integer table computes the value of the table. -/
theorem computes_of_scalarResult {s : State} {i : Instr} {d : BitVec 5} {v : Word} (h : scalarResult s i = some (d, v)) :
    Computes s i d v := by
  unfold scalarResult at h
  split at h <;> cases h
  case h_1 => exact .ofXR rfl rfl rfl
  case h_2 => exact .ofXR rfl rfl rfl
  case h_3 => exact .ofXR rfl rfl rfl
  case h_4 => exact .ofXR rfl rfl rfl
  case h_5 => exact .ofXR rfl rfl rfl
  case h_6 => exact .ofXR rfl rfl (by rw [nat_of_bits6])
  case h_7 => exact .ofXR rfl rfl (by rw [nat_of_bits6])
  case h_8 => exact .ofXR rfl rfl (by rw [nat_of_bits6])
  case h_9 => exact .ofXR rfl rfl (boolWord_decide _)
  case h_10 => exact .ofXR rfl rfl (boolWord_decide _)
  case h_11 => exact .ofXR rfl rfl (ofInt_toInt_min _ _)
  case h_12 => exact .ofXR rfl rfl (ofInt_toInt_max _ _)
  case h_13 => exact .ofXR rfl rfl (ofNat_min _ _)
  case h_14 => exact .ofXR rfl rfl (ofNat_max _ _)
  case h_15 => exact .ofX rfl rfl rfl
  case h_16 => exact .ofX rfl rfl rfl
  case h_17 => exact .ofX rfl rfl rfl
  case h_18 => exact .ofX rfl rfl (sext_bits _ _)
  case h_19 => exact .ofX rfl rfl (sext_bits _ _)
  case h_20 => exact .ofX rfl rfl (sext_bits _ _)
  case h_21 => exact .ofXR rfl rfl rfl
  case h_22 => exact .ofXR rfl rfl rfl
  case h_23 => exact .ofXR rfl rfl (mulHigh_nat _ _)
  case h_24 => exact .ofXR rfl rfl rfl
  case h_25 => exact .ofXR rfl rfl (div_eq _ _)
  case h_26 => exact .ofXR rfl rfl rfl
  case h_27 => exact .ofXR rfl rfl rfl
  case h_28 => exact .ofXR rfl rfl rfl
  case h_29 => exact .ofX rfl rfl rfl
  case h_30 => exact .ofX rfl rfl rfl
  case h_31 => exact .ofX rfl rfl rfl
  case h_32 => exact .ofX rfl rfl rfl
  case h_33 => exact .ofX rfl rfl (by rw [boolWord_decide, toInt_simm _ (by decide)])
  case h_34 => exact .ofX rfl rfl (boolWord_decide _)
  case h_35 => exact .ofX rfl rfl rfl
  case h_36 => exact ⟨_, rfl, rfl⟩
  case h_37 => exact .ofX rfl rfl rfl
  case h_38 => exact .ofX rfl rfl rfl
  case h_39 => exact .ofX rfl rfl rfl
  case h_40 => exact .ofX rfl rfl (ror_eq _ _)

/-- The registers of an instruction of the integer table are those it reads and the one it writes. -/
theorem mem_scalarRegs {s : State} {i : Instr} {d : BitVec 5} {v : Word} (h : scalarResult s i = some (d, v)) :
    ∀ r ∈ scalarReads i ++ [d], r ∈ scalarRegs i := by
  unfold scalarResult at h
  split at h <;> cases h <;> simp [scalarReads, scalarRegs]

theorem noPort_of_scalarRegs {s : State} {i : Instr} {d : BitVec 5} {v : Word} (h : scalarResult s i = some (d, v))
    (hp : NoPort s ((scalarRegs i).map BitVec.toNat)) : NoPort s ((scalarReads i).map BitVec.toNat ++ [d.toNat]) := by
  refine hp.of_mem fun r hr => ?_
  rw [show [d.toNat] = [d].map BitVec.toNat from rfl, ← List.map_append] at hr
  obtain ⟨x, hx, rfl⟩ := List.mem_map.mp hr
  exact List.mem_map_of_mem (mem_scalarRegs h x hx)

/-- Settles O18: a calm state's word of the scalar form is its body and `retired`. -/
theorem scalarIntegerResult : Obligations.ScalarIntegerResult := by
  intro s i d v h hc hp
  obtain ⟨body, he, hb⟩ := computes_of_scalarResult h
  have hn := noPort_of_scalarRegs h hp
  rw [he, scalar_calm hc hn (hb ▸ wx_same hn.right), hb]

/-- Settles O10: what a word of the scalar form does at the ports is said once of the form (`scalar_ports`). -/
theorem scalarPorts : Obligations.ScalarPorts := by
  intro s i d v h hc ht reads bad stuck
  obtain ⟨body, he, hb⟩ := computes_of_scalarResult h
  obtain ⟨h1, h2, h3⟩ := scalar_ports (w := encode i) (rs := scalarReads i) hc ht hb
  rw [he]
  refine ⟨fun hbad => congrArg _ (h1 hbad), fun hbad hst => congrArg _ (h2 hbad hst), fun hbad hst => ?_⟩
  obtain ⟨t, h4, h5⟩ := h3 hbad hst
  exact ⟨t, congrArg _ h4, h5⟩

/-! ## Float words -/

/-- The x registers a scalar float instruction reads: `fmad` reads its own destination too (R83). -/
def scalarFloatReads : Instr → List (BitVec 5)
  | .fmad d a b _ => [d, a, b]
  | .fadd _ a b _ | .fsub _ a b _ | .fmul _ a b _ | .fdiv _ a b _ | .feq _ a b _ | .flt _ a b _ | .fle _ a b _ | .funo _ a b _ => [a, b]
  | .fsqrt _ a _ | .ftoi _ a _ | .ftou _ a _ | .itof _ a _ | .utof _ a _ | .fcvs _ a _ | .fcvh _ a _ | .fcvb _ a _ => [a]
  | _ => []

/-- What a scalar float instruction needs: its x registers. -/
def scalarFloatNeed (i : Instr) (d : BitVec 5) : Need :=
  { word := encode i, xr := (scalarFloatReads i).map BitVec.toNat, xw := [d.toNat] }

/-- The instruction ends as a scalar float word does, with the value and the flags given (R86). -/
def ComputesFloat (s : State) (i : Instr) (d : BitVec 5) (v : Word) (fl : Nat) : Prop :=
  ∃ body : State → Res, exec i s = .next (run (scalarFloatNeed i d) s body) ∧ body s = finishScalarFloat d.toNat v fl s

/-- Each instruction of the float table ends so with the value and the flags of the table. -/
theorem computesFloat_of_scalarFloat {s : State} {i : Instr} {d : BitVec 5} {v : Word} {fl : Nat} (h : scalarFloat s i = some (d, v, fl)) :
    ComputesFloat s i d v fl := by
  unfold scalarFloat at h
  split at h <;> cases h <;> exact ⟨_, rfl, rfl⟩

theorem mem_scalarFloatRegs {s : State} {i : Instr} {d : BitVec 5} {v : Word} {fl : Nat} (h : scalarFloat s i = some (d, v, fl)) :
    ∀ r ∈ scalarFloatReads i ++ [d], r ∈ scalarFloatRegs i := by
  unfold scalarFloat at h
  split at h <;> cases h <;> simp [scalarFloatReads, scalarFloatRegs]

theorem noPort_of_scalarFloatRegs {s : State} {i : Instr} {d : BitVec 5} {v : Word} {fl : Nat} (h : scalarFloat s i = some (d, v, fl))
    (hp : NoPort s ((scalarFloatRegs i).map BitVec.toNat)) : NoPort s ((scalarFloatReads i).map BitVec.toNat ++ [d.toNat]) := by
  refine hp.of_mem fun r hr => ?_
  rw [show [d.toNat] = [d].map BitVec.toNat from rfl, ← List.map_append] at hr
  obtain ⟨x, hx, rfl⟩ := List.mem_map.mp hr
  exact List.mem_map_of_mem (mem_scalarFloatRegs h x hx)

/-- Settles O19: the end of every scalar float word is `finishScalarFloat`, which merges the flags or traps with the enabled ones. -/
theorem scalarFloatResult : Obligations.ScalarFloatResult := by
  intro s i d v fl h hc hp
  obtain ⟨body, he, hb⟩ := computesFloat_of_scalarFloat h
  have hn := noPort_of_scalarFloatRegs h hp
  exact he.trans (congrArg _ (run_float hc (ready_scalar hn) rfl hn.right hb))

/-! ## Branches -/

/-- Each branch of the table is a compare-branch on its condition. -/
theorem exec_branch {s : State} {i : Instr} {taken : Bool} {o : BitVec 16} (h : branchTaken s i = some (taken, o)) :
    ∃ (a b : BitVec 5) (p : Word → Word → Bool), exec i s = .next (branch (encode i) a b o p s) ∧ branchRegs i = [a, b] ∧
      p (xr s a) (xr s b) = taken := by
  unfold branchTaken at h
  split at h <;> cases h
  case h_1 a b => exact ⟨a, b, _, rfl, rfl, rfl⟩
  case h_2 a b => exact ⟨a, b, _, rfl, rfl, by simp [bne, BEq.beq]⟩
  case h_3 a b => exact ⟨a, b, _, rfl, rfl, rfl⟩
  case h_4 a b => exact ⟨a, b, _, rfl, rfl, rfl⟩
  case h_5 a b => exact ⟨a, b, _, rfl, rfl, rfl⟩
  case h_6 a b => exact ⟨a, b, _, rfl, rfl, rfl⟩

/-- Settles O20: a compare-branch in a calm state goes to its target or on, and retires. -/
theorem branchTargets : Obligations.BranchTargets := by
  intro s i taken o h hc hp
  obtain ⟨a, b, p, he, hr, ht⟩ := exec_branch h
  rw [hr] at hp
  rw [he, branch_calm hc hp, ht, target_eq]

/-! ## The frame -/

/-- A word whose major is not that of the state moves is no `mts` to WSTAT (R329). -/
theorem writesWstat_of_major {w : BitVec 32} (h : fld w 26 6 ≠ 0x3E#6) : writesWstat w = false := by
  have hm : majorOf w ≠ 0x3E := by rw [majorOf_eq_fld]; exact fun e => h (BitVec.eq_of_toNat_eq e)
  simp [writesWstat, hm]

theorem writesWstat_of_scalarResult {s : State} {i : Instr} {d : BitVec 5} {v : Word} (h : scalarResult s i = some (d, v)) :
    writesWstat (encode i) = false := by
  refine writesWstat_of_major ?_
  unfold scalarResult at h
  split at h <;> cases h <;> simp (disch := decide) only [encode, fld_or, fld_put_apart, BitVec.or_zero] <;> decide

theorem writesWstat_of_scalarFloat {s : State} {i : Instr} {d : BitVec 5} {v : Word} {fl : Nat} (h : scalarFloat s i = some (d, v, fl)) :
    writesWstat (encode i) = false := by
  refine writesWstat_of_major ?_
  unfold scalarFloat at h
  split at h <;> cases h <;> simp (disch := decide) only [encode, fld_or, fld_put_apart, BitVec.or_zero] <;> decide

theorem writesWstat_of_branchTaken {s : State} {i : Instr} {taken : Bool} {o : BitVec 16} (h : branchTaken s i = some (taken, o)) :
    writesWstat (encode i) = false := by
  refine writesWstat_of_major ?_
  unfold branchTaken at h
  split at h <;> cases h <;> simp (disch := decide) only [encode, fld_or, fld_put_apart, BitVec.or_zero] <;> decide

/-- Reading a register after a write to another that is no port, or to the same. -/
theorem rx_wx_of_noPort {s : State} {d : BitVec 5} {v : Word} (hd : s.thr.hid.damaged = []) (hn : NoPort s [d.toNat]) :
    (∀ r, r ≠ d.toNat → rx (wx d.toNat v s) r = rx s r) ∧ rx (wx d.toNat v s) d.toNat = if d = 0 then 0 else v := by
  constructor
  · intro r hr
    rw [rx_wx_any hn hd, if_neg hr, rx]
    split <;> rfl
  · have h0 : d.toNat = 0 ↔ d = 0 := ⟨fun h => BitVec.eq_of_toNat_eq h, fun h => h ▸ rfl⟩
    rw [rx_wx_any hn hd, if_pos rfl]
    simp only [h0]

/-- A register write that is no port leaves everything but the x registers and the marks of damaged ones. -/
theorem wx_frame {n : Nat} {v : Word} {s : State} (hn : NoPort s [n]) (hd : s.thr.hid.damaged = []) :
    wx n v s = { s with thr.x := (wx n v s).thr.x } := by
  by_cases h0 : n = 0
  · subst h0; rfl
  · rw [wx_plain hn hd h0]

@[simp] theorem rx_retired (w : BitVec 32) (npc : Word) (s : State) (r : Nat) : rx (retired w npc s) r = rx s r := rfl

@[simp] theorem rx_mergeFlags (fl : Nat) (s : State) (r : Nat) : rx (mergeFlags fl s) r = rx s r := rfl

/-- Bit b of FPFLAGS after flags are merged (R86). -/
theorem testBit_mergeFlags (s : State) (fl b : Nat) (hb : b < 5) :
    (mergeFlags fl s).thr.sr.fpflags.getLsbD b = (s.thr.sr.fpflags.getLsbD b || fl.testBit b) := by
  have h32 : (fl % 32).testBit b = fl.testBit b := by
    rw [show (32 : Nat) = 2 ^ 5 from rfl, Nat.testBit_mod_two_pow]
    simp [hb]
  have h64 : b < 64 := by omega
  simp only [mergeFlags, w64, BitVec.getLsbD_or, BitVec.getLsbD_ofNat, h64, decide_true, Bool.true_and, h32]

/-- Settles O9: what the words leave is that of `wx`, `mergeFlags` and `retired` after O18, O19 and O20. -/
theorem scalarFrame : Obligations.ScalarFrame := by
  intro s i hc
  refine ⟨fun d v h hp => ?_, fun d v fl h he hp => ?_, fun taken o h hp => ?_⟩
  · have hn := (noPort_of_scalarRegs h hp).right
    obtain ⟨hother, hsame⟩ := rx_wx_of_noPort (v := v) hc.whole hn
    have hf := wx_frame (v := v) hn hc.whole
    refine ⟨_, scalarIntegerResult s i d v h hc hp, rfl, fun r _ hr => hother r hr, hsame, fun k => ?_, ?_, ?_, ?_, ?_, ?_⟩ <;> rw [hf]
    · rfl
    · simp [retired, writesWstat_of_scalarResult h]
    all_goals rfl
  · have hn : NoPort (mergeFlags fl s) [d.toNat] := noPort_same (noPort_of_scalarFloatRegs h hp).right rfl
    obtain ⟨hother, hsame⟩ := rx_wx_of_noPort (s := mergeFlags fl s) (v := v) hc.whole hn
    have hf := wx_frame (v := v) hn hc.whole
    have hx := scalarFloatResult s i d v fl h hc hp
    rw [if_pos he] at hx
    refine ⟨_, hx, rfl, fun r _ hr => hother r hr, hsame, fun k => ?_, ?_, fun b hb => ?_, ?_, ?_, ?_, ?_⟩ <;> rw [hf]
    · rfl
    · simp [retired, writesWstat_of_scalarFloat h, mergeFlags]
    · exact testBit_mergeFlags s fl b hb
    all_goals rfl
  · refine ⟨_, branchTargets s i taken o h hc hp, fun r _ => rfl, fun k => rfl, ?_, rfl, rfl, rfl, rfl⟩
    simp [retired, writesWstat_of_branchTaken h]

end Sys2Proof.Machine
end

section
/-! PROOFS. Data accesses of scalar words (R19, R20, R90 to R92, R250 to R263): the places and bytes of an access, loads, stores and their
performing, atomics, fences and `wpoll`. -/

namespace Sys2Proof.Machine

/-! ## The places of an access -/

theorem xlateAll_length {f : Nat → Except Nat Loc} {n va : Nat} {locs : List Loc} (h : xlateAll f va n = .ok locs) : locs.length = n := by
  induction n generalizing va locs with
  | zero => cases h; rfl
  | succ n ih =>
    unfold xlateAll at h
    split at h
    · cases h
    · split at h
      · cases h
      · next hr => cases h; rw [List.length_cons, ih hr]

theorem xlateBytes_ok {f : Nat → Except Nat Loc} {va n : Nat} {locs : List Loc} (h : xlateBytes f va n = .ok locs) :
    xlateAll f va n = .ok locs := by
  unfold xlateBytes at h
  split at h
  · next hl => cases h; exact hl
  · cases h

theorem length_upFrom (lo n : Nat) : (upFrom lo n).length = n := by
  induction n generalizing lo with
  | zero => rfl
  | succ n ih => rw [upFrom, List.length_cons, ih]

/-- A range that translates has one place for each byte. -/
theorem xlateRange_length {f : Nat → Except Nat Loc} {va n : Nat} {locs : List Loc} (h : xlateRange f va n = .ok locs) :
    locs.length = n := by
  unfold xlateRange at h
  split at h
  · next hn => cases h; exact hn.symm
  · split at h
    · split at h
      · cases h
      · cases h; rw [List.length_map, length_upFrom]
    · exact xlateAll_length (xlateBytes_ok h)

theorem xlateAll_mono {f g : Nat → Except Nat Loc} {n va : Nat} {locs : List Loc} (h : xlateAll f va n = .ok locs)
    (hg : ∀ a l, l ∈ locs → f a = .ok l → g a = .ok l) : xlateAll g va n = .ok locs := by
  induction n generalizing va locs with
  | zero => exact h
  | succ n ih =>
    unfold xlateAll at h
    split at h
    · cases h
    · next l hl =>
      split at h
      · cases h
      · next r hr =>
        cases h
        unfold xlateAll
        rw [hg _ _ List.mem_cons_self hl, ih hr fun a l hm => hg a l (List.mem_cons_of_mem _ hm)]

/-- A range whose places a stricter translation gives too has the same places under it. A range within one page takes its kind from
its first byte. -/
theorem xlateRange_mono {f g : Nat → Except Nat Loc} {va n : Nat} {locs : List Loc} (h : xlateRange f va n = .ok locs)
    (hg : ∀ a l, (∃ m ∈ locs, m.kind = l.kind) → f a = .ok l → g a = .ok l) : xlateRange g va n = .ok locs := by
  unfold xlateRange at h ⊢
  split
  · next hn => rw [if_pos hn] at h; exact h
  · next hn =>
    rw [if_neg hn] at h
    split
    · next hp =>
      rw [if_pos hp] at h
      split at h
      · cases h
      · next l hl =>
        cases h
        have hk : ∃ m ∈ (upFrom 0 n).map (fun i => ({ l with key := l.key + i } : Loc)), m.kind = l.kind :=
          ⟨_, List.mem_map_of_mem (mem_upFrom.mpr ⟨le_refl 0, by omega⟩), rfl⟩
        rw [hg _ _ hk hl]
    · next hp =>
      rw [if_neg hp] at h
      have ha := xlateAll_mono (g := g) (xlateBytes_ok h) fun a l hm => hg a l ⟨l, hm, rfl⟩
      rw [xlateBytes, ha]

theorem checkAs_ok {s : State} {store near : Bool} {align va n : Nat} {locs : List Loc} (h : checkAs s store near align va n = .ok locs) :
    va % align = 0 ∧ xlateRange (xlateAcc s store near va n) va n = .ok locs := by
  unfold checkAs checkRange at h
  by_cases ha : va % align = 0
  · simp only [ha, ne_eq, not_true_eq_false, if_false] at h
    split at h
    · cases h
    · next hl =>
      split at h
      · cases h
      · cases h; exact ⟨ha, hl⟩
  · simp only [ne_eq, ha, not_false_eq_true, if_true] at h
    cases h

/-! ## The bytes of a load -/

theorem takeBytes_ok {s : State} {plain : Bool} {va : Nat} {l : List Loc} {bs : List Byte} {locs : List Loc}
    (h : takeBytes s plain va l = .ok bs locs) : locs = l ∧ bs = l.map (viewByte s plain) := by
  unfold takeBytes at h
  split at h
  · cases h
  · cases h; exact ⟨rfl, rfl⟩

theorem loadChecked_ok {s : State} {cls va : Nat} {l : List Loc} {bs : List Byte} {locs : List Loc}
    (h : loadChecked s cls va l = .ok bs locs) : locs = l ∧ bs = l.map (viewByte s (cls != 15)) := by
  unfold loadChecked at h
  split at h
  · split at h
    · cases h
    · cases h
    · exact takeBytes_ok h
  · split at h
    · cases h
    · exact takeBytes_ok h

theorem loadAs_ok {s : State} {near : Bool} {cls align va n : Nat} {bs : List Byte} {locs : List Loc}
    (h : loadAs s near cls align va n = .ok bs locs) :
    checkAs s false near align va n = .ok locs ∧ bs = locs.map (viewByte s (cls != 15)) := by
  unfold loadAs at h
  split at h
  · cases h
  · next hl =>
    obtain ⟨rfl, hb⟩ := loadChecked_ok h
    exact ⟨hl, hb⟩

/-- A load answers as many bytes as it asks for. -/
theorem loadAs_length {s : State} {near : Bool} {cls align va n : Nat} {bs : List Byte} {locs : List Loc}
    (h : loadAs s near cls align va n = .ok bs locs) : bs.length = n := by
  obtain ⟨hc, rfl⟩ := loadAs_ok h
  rw [List.length_map, xlateRange_length (checkAs_ok hc).2]

theorem leNat_lt (bs : List Byte) : leNat bs < 2 ^ (8 * bs.length) := by
  induction bs with
  | nil => decide
  | cons b r ih =>
    have hb := b.isLt
    have hp : 2 ^ (8 * (b :: r).length) = 256 * 2 ^ (8 * r.length) := by rw [List.length_cons, Nat.mul_succ, Nat.pow_add]; omega
    rw [leNat, hp]
    omega

/-- The bytes of a number, read back, are the number's low bytes. -/
theorem leNat_leBytes (n v : Nat) : leNat (leBytes n v) = v % 2 ^ (8 * n) := by
  induction n generalizing v with
  | zero => rw [leBytes, leNat, Nat.mul_zero, Nat.pow_zero, Nat.mod_one]
  | succ n ih =>
    have hp : 2 ^ (8 * (n + 1)) = 256 * 2 ^ (8 * n) := by rw [Nat.mul_succ, Nat.pow_add]; omega
    rw [leBytes, leNat, ih, hp, Nat.mod_mul, BitVec.toNat_ofNat]

theorem length_leBytes (n v : Nat) : (leBytes n v).length = n := by
  induction n generalizing v with
  | zero => rfl
  | succ n ih => rw [leBytes, List.length_cons, ih]

/-- Byte j of the bytes of a number. -/
theorem getElem?_leBytes {n v j : Nat} (h : j < n) : (leBytes n v)[j]? = some (BitVec.ofNat 8 (v / 256 ^ j)) := by
  induction n generalizing v j with
  | zero => omega
  | succ n ih =>
    cases j with
    | zero => rw [leBytes, List.getElem?_cons_zero, Nat.pow_zero, Nat.div_one]
    | succ j => rw [leBytes, List.getElem?_cons_succ, ih (by omega), Nat.div_div_eq_div_mul, Nat.pow_succ']

/-- Sign extension of a number that fits its width. -/
theorem sextWord_of_lt {w x : Nat} (h : x < 2 ^ w) : sextWord w x = (BitVec.ofNat w x).signExtend 64 := by
  rw [sextWord, BitVec.signExtend, BitVec.toInt_eq_toNat_cond, BitVec.toNat_ofNat, Nat.mod_eq_of_lt h]
  congr 1

/-! ## Loads -/

theorem loadTrap_eq (c v : Nat) (v2 : Option Nat) (h e : Nat) (s : State) :
    loadTrap c v v2 h e s = .trap c (w64 v) (w64 (v2.getD e)) (setHits h s) := by cases v2 <;> rfl

/-- A scalar load in a calm state, by the outcome of its access. -/
theorem scalarLoad_calm {s : State} {w : BitVec 32} {d a : BitVec 5} {c : BitVec 4} {o : BitVec 12} {n : Nat} {ext : Nat → Word}
    (hc : Calm s) (hp : NoPort s [a.toNat, d.toNat]) :
    scalarLoad w d a c o n ext s = match loadBytes s c.toNat n (effAddr s a o).toNat n with
      | .ok bs locs => retired w (s.thr.pc + 4) (wx d.toNat (ext (leNat bs)) (afterLoad c.toNat locs s))
      | .trap cause v v2 h => takeTrap w cause s.thr.pc (w64 v) (w64 (v2.getD 0)) (setHits h s)
      | .wait q => waitHere (askFor q s) := by
  have hr : Ready { word := w, xr := [a.toNat], xw := [d.toNat] } s := ready_scalar hp
  unfold scalarLoad
  split
  case h_1 bs locs hl =>
    have hs : SameCourse s (wx d.toNat (ext (leNat bs)) (afterLoad c.toNat locs s)) :=
      (afterLoad_same _ _ _).trans (wx_same (noPort_same (hp.of_mem (by simp)) (afterLoad_same _ _ _).cfg))
    rw [run_done hc hr (by rw [hl]) hs, enqueueReplay_off rfl]
  case h_2 cause v v2 h hl =>
    rw [run_trap (c := cause) (v := w64 v) (v2 := w64 (v2.getD 0)) (t := setHits h s) hc hr
      (by rw [hl]; exact loadTrap_eq _ _ _ _ _ _)]
    rfl
  case h_3 q hl => rw [run_wait hc hr (by rw [hl])]

/-- Each instruction of the table of loads is a scalar load that extends as its row says. -/
theorem exec_loadForm {s : State} {i : Instr} {d a : BitVec 5} {c : BitVec 4} {o : BitVec 12} {n : Nat} {sg : Bool}
    (h : loadForm i = some (d, a, c, o, n, sg)) :
    exec i s = .next (scalarLoad (encode i) d a c o n (if sg then sextWord (8 * n) else w64) s) := by
  unfold loadForm at h
  split at h <;> cases h <;> rfl

/-- Settles O12: the word is a scalar load, whose bytes fit its width. -/
theorem scalarLoads : Obligations.ScalarLoads := by
  intro s i d a c o n sg h hc hp ea
  have he := (exec_loadForm (s := s) h).trans (congrArg _ (scalarLoad_calm hc hp))
  refine ⟨fun bs locs hl => ?_, fun cause v v2 k hl => ?_, fun q hl => ?_⟩ <;>
    rw [show loadBytes s c.toNat n (effAddr s a o).toNat n = _ from hl] at he <;> rw [he]
  have hlt : leNat bs < 2 ^ (8 * n) := by rw [← loadAs_length hl]; exact leNat_lt bs
  cases sg
  · rfl
  · dsimp only
    rw [if_pos rfl, if_pos rfl, sextWord_of_lt hlt]

/-! ## Checks -/

theorem xlateAcc_of_permitted {s : State} {store : Bool} {va n a : Nat} {l : Loc} (h : xlateThr s store a = .ok l)
    (hm : l.kind = .mmio → (n = 1 ∨ n = 2 ∨ n = 4 ∨ n = 8) ∧ va % n = 0) : xlateAcc s store false va n a = .ok l := by
  have hp : permitted false va n l = true := by
    by_cases hk : l.kind = .mmio
    · obtain ⟨hn, ha⟩ := hm hk
      rcases hn with rfl | rfl | rfl | rfl <;> simp [permitted, ha]
    · simp [permitted, hk]
  rw [xlateAcc, h]
  simp only [hp, if_true]

theorem watchHit_none {s : State} {store : Bool} {va n : Nat} (h : s.thr.sr.watch = []) : watchHit s store va n = none := by
  simp [watchHit, h]

theorem poisonAt_none {s : State} {plain : Bool} {locs : List Loc} (h : s.dev.poison = []) : poisonAt s plain locs = none := by
  simp [poisonAt, h]

/-- A load that meets no other device, nothing to wait for and no poison takes the bytes its thread sees (R20, R91). -/
theorem loadChecked_near {s : State} {cls va : Nat} {locs : List Loc} (hw : loadWaits s cls = false) (hr : ∀ l ∈ locs, l.kind ≠ .remote)
    (hp : s.dev.poison = []) : loadChecked s cls va locs = .ok (locs.map (viewByte s (cls != 15))) locs := by
  have hf : locs.find? (fun l => l.kind = .remote) = none := by
    rw [List.find?_eq_none]
    intro l hl
    simpa using hr l hl
  rw [loadChecked, hf]
  simp only [hw, Bool.false_eq_true, if_false, takeBytes, poisonAt_none hp]

/-- With no store of its own on its way and no cached line, a thread sees a byte as its home holds it. -/
theorem viewByte_home {s : State} {plain : Bool} {l : Loc} (hs : s.thr.pnd.stores = []) (hc : s.dev.l1d = []) (hk : l.kind ≠ .mmio) :
    viewByte s plain l = readByte s.dev l.key := by
  have hl : l1dFind s.dev (coreOf s) l.key s.thr.pnd.l1dMin = none := by rw [l1dFind, hc]; rfl
  simp [viewByte, hs, hk, hl]

/-- An aligned access of 1, 2, 4 or 8 bytes lies in one page. -/
theorem same_page {va n : Nat} (hn : n = 1 ∨ n = 2 ∨ n = 4 ∨ n = 8) (ha : va % n = 0) : va / 65536 = (va + n - 1) / 65536 := by
  rcases hn with rfl | rfl | rfl | rfl <;> omega

theorem xlateThr_high {s : State} {store : Bool} {va : Nat} (h : 2 ^ 52 ≤ va) :
    xlateThr s store va = .error (if store then cStore else cLoad) := by
  rw [xlateThr, xlate, if_pos h]

/-- Settles O13: translation with the rights of R91 gives the places that translation alone gives, where the identity area is met as R392
asks; the two address checks come first. -/
theorem accessChecks : Obligations.AccessChecks := by
  constructor
  · intro s cls n va locs ha hx hm hw hl hr hp
    have hacc : xlateRange (xlateAcc s false false va n) va n = .ok locs :=
      xlateRange_mono hx fun a l ⟨m, hmem, hk⟩ hok => xlateAcc_of_permitted hok fun hmm => ⟨hm ⟨m, hmem, hk.trans hmm⟩, ha⟩
    have hchk : checkAs s false false n va n = .ok locs := by
      rw [checkAs, checkRange, if_neg (by simpa using ha), hacc]
      simp only [watchHit_none hw]
    have hload : loadBytes s cls n va n = .ok (locs.map (viewByte s (cls != 15))) locs := by
      rw [loadBytes, loadAs, hchk]
      exact loadChecked_near hl hr hp
    refine ⟨hload, fun hs hc hk => ?_⟩
    rw [hload, List.map_congr_left fun l hl => viewByte_home hs hc (hk l hl)]
  · intro s store n va hn0 hn8 hva
    refine ⟨fun ha => ?_, fun ha hhi hn => ?_⟩
    · rw [checkAccess, checkAs, checkRange, if_pos ha]
    · have hx : xlateRange (xlateAcc s store false va n) va n = .error (if store then cStore else cLoad, va) := by
        rw [xlateRange, if_neg (by omega), if_pos (same_page hn ha), xlateAcc, xlateThr_high hhi]
      rw [checkAccess, checkAs, checkRange, if_neg (by simpa using ha), hx]

/-! ## Bytes written whole -/

theorem map_fst_wholeBytes {keys : List Nat} {bs : List Byte} (h : bs.length = keys.length) : (wholeBytes keys bs).map (·.1) = keys := by
  rw [wholeBytes, List.map_map]
  exact List.map_fst_zip (Nat.le_of_eq h.symm)

theorem mem_wholeBytes {keys : List Nat} {bs : List Byte} {j k : Nat} {b : Byte} (hk : keys[j]? = some k) (hb : bs[j]? = some b) :
    (k, (0xFF : Byte), b) ∈ wholeBytes keys bs := by
  rw [wholeBytes, List.mem_map]
  exact ⟨(k, b), List.mem_of_getElem? (List.getElem?_zip_eq_some.mpr ⟨hk, hb⟩), rfl⟩

/-- A byte under a whole mask is the byte written. -/
theorem byte_whole (old b : Byte) : (old &&& ~~~(0xFF : Byte)) ||| (b &&& 0xFF) = b := by
  rw [show (0xFF : Byte) = BitVec.allOnes 8 from rfl, BitVec.not_allOnes, BitVec.and_zero, BitVec.and_allOnes, BitVec.zero_or]

/-- Whole bytes performed at distinct places read back, and no other byte differs, where no frame is retired and none is watched. -/
theorem readByte_performWhole {wr : Writer} {acct op : Nat} {keys : List Nat} {bs : List Byte} {d : Device} (hl : bs.length = keys.length)
    (hn : keys.Nodup) (hr : d.retire = []) (hw : d.mwatch = []) :
    (∀ (j k : Nat) (b : Byte), keys[j]? = some k → bs[j]? = some b → readByte (performBytes wr acct op (wholeBytes keys bs) d) k = b) ∧
    ∀ k, k ∉ keys → readByte (performBytes wr acct op (wholeBytes keys bs) d) k = readByte d k := by
  have hm := map_fst_wholeBytes hl
  obtain ⟨h1, h2⟩ := readByte_performBytes (wr := wr) (acct := acct) (op := op) (l := wholeBytes keys bs) (by rwa [hm]) hr hw
  rw [hm] at h2
  refine ⟨fun j k b hk hb => ?_, h2⟩
  rw [h1 _ (mem_wholeBytes hk hb)]
  exact byte_whole _ _

theorem updateLines_eq (core : Nat) (bs : List (Nat × Byte × Byte)) (d : Device) :
    updateLines core bs d = { d with l1d := (updateLines core bs d).l1d } := by
  unfold updateLines
  split
  · rfl
  · next h =>
    clear h
    induction bs generalizing d with
    | nil => rfl
    | cons p r ih => rw [List.foldl_cons, ih]; rfl

@[simp] theorem readByte_updateLines (core : Nat) (bs : List (Nat × Byte × Byte)) (d : Device) (k : Nat) :
    readByte (updateLines core bs d) k = readByte d k := by
  rw [updateLines_eq]
  rfl

@[simp] theorem readByte_addAcnt (a k n : Nat) (d : Device) (j : Nat) : readByte (addAcnt a k n d) j = readByte d j := rfl

/-! ## Stores -/

/-- A scalar store in a calm state, by the outcome of its checks. -/
theorem scalarStore_calm {s : State} {w : BitVec 32} {d a : BitVec 5} {c : BitVec 4} {o : BitVec 12} {n : Nat}
    (hc : Calm s) (hp : NoPort s [d.toNat, a.toNat]) :
    scalarStore w d a c o n s = match checkAccess s true n (effAddr s a o).toNat n with
      | .ok locs => retired w (s.thr.pc + 4)
          (pushStore c.toNat (effAddr s a o).toNat (wholeBytes (locs.map (·.key)) (leBytes n (xr s d).toNat)) s)
      | .trap cause v h => takeTrap w cause s.thr.pc (w64 v) 0 (setHits h s) := by
  have hr : Ready { word := w, xr := [d.toNat, a.toNat] } s := ready_scalar (m := []) (by simpa using hp)
  unfold scalarStore
  split
  case h_1 locs hl => rw [run_done hc hr (by rw [hl]) (pushStore_same _ _ _ _), enqueueReplay_off rfl]
  case h_2 cause v h hl =>
    rw [run_trap (c := cause) (v := w64 v) (v2 := 0) (t := setHits h s) hc hr (by rw [hl])]
    rfl

theorem exec_storeForm {s : State} {i : Instr} {d a : BitVec 5} {c : BitVec 4} {o : BitVec 12} {n : Nat}
    (h : storeForm i = some (d, a, c, o, n)) : exec i s = .next (scalarStore (encode i) d a c o n s) := by
  unfold storeForm at h
  split at h <;> cases h <;> rfl

/-- Another thread in focus: the device differs in where its slots stand alone. -/
theorem focus_dev (s : State) (n r : Nat) : (focus s n r).dev = { s.dev with slots := (focus s n r).dev.slots } := by
  unfold focus
  split <;> rfl

@[simp] theorem readByte_focus (s : State) (n r k : Nat) : readByte (focus s n r).dev k = readByte s.dev k := by
  rw [focus_dev]
  rfl

theorem clearWhole_eq (p : PStore) (s : State) :
    clearWhole p s = { s with thr.pnd.whole := (clearWhole p s).thr.pnd.whole, dev := (clearWhole p s).dev } := by
  unfold clearWhole
  split <;> rfl

@[simp] theorem readByte_clearWhole (p : PStore) (s : State) (k : Nat) : readByte (clearWhole p s).dev k = readByte s.dev k := by
  unfold clearWhole
  split
  · rfl
  · dsimp only
    generalize s.thr.pnd.whole.filter _ = now
    generalize s.dev = d
    induction now generalizing d with
    | nil => rfl
    | cons x r ih => rw [List.foldl_cons, ih, readByte_clearPoison]

/-- What a store of masked bytes with distinct places leaves when it is performed: it is off the list, its bytes are at their homes, and
nothing else of memory or of the x registers differs (R250). -/
theorem performAt_store {s : State} {i : Nat} {p : PStore} (hp : s.thr.pnd.stores[i]? = some p) (hf : p.fence = 0) (hu : p.upd = 0)
    (hn : (p.bytes.map (·.1)).Nodup) (hr : s.dev.retire = []) (hw : s.dev.mwatch = []) :
    (performAt i s).thr.pnd.stores = s.thr.pnd.stores.eraseIdx i ∧
    (∀ b ∈ p.bytes, readByte (performAt i s).dev b.1 = (readByte s.dev b.1 &&& ~~~b.2.1) ||| (b.2.2 &&& b.2.1)) ∧
    (∀ k, k ∉ p.bytes.map (·.1) → readByte (performAt i s).dev k = readByte s.dev k) ∧
    (∀ r, rx (performAt i s) r = rx s r) ∧ (performAt i s).cur = s.cur := by
  let s1 : State := { s with thr.pnd.stores := s.thr.pnd.stores.eraseIdx i }
  let wr := writerOf s1 0 p.task
  let s2 : State := if p.bytes.isEmpty then s1
    else { s1 with dev := updateLines (coreOf s1) p.bytes (performBytes wr s1.slot.acct 0 p.bytes s1.dev) }
  have hend : performAt i s = if p.cls = 15 && p.bytes.any (fun b => !isScratch b.1) then newLines (clearWhole p s2) else clearWhole p s2 := by
    simp only [performAt, performWith, hp, hf, hu, homeBytes, bne_self_eq_false, Bool.false_eq_true, if_false, decide_true, Bool.true_or,
      if_true]
    rfl
  obtain ⟨h1, h2⟩ := readByte_performBytes (wr := wr) (acct := s1.slot.acct) (op := 0) hn hr hw
  have hs2 : s2 = { s1 with dev := s2.dev } := by
    simp only [s2]
    split <;> rfl
  have hdev : ∀ k, readByte s2.dev k = readByte (performBytes wr s1.slot.acct 0 p.bytes s.dev) k := by
    intro k
    simp only [s2]
    split
    · next he => rw [h2 k (by simp [List.isEmpty_iff.mp he])]
    · exact readByte_updateLines _ _ _ _
  have hread : ∀ k, readByte (performAt i s).dev k = readByte (performBytes wr s1.slot.acct 0 p.bytes s.dev) k := by
    intro k
    rw [hend, ← hdev, ← readByte_clearWhole p s2]
    split <;> rfl
  have hframe : performAt i s = { s1 with
      thr.pnd.whole := (performAt i s).thr.pnd.whole, thr.pnd.l1dMin := (performAt i s).thr.pnd.l1dMin, dev := (performAt i s).dev } := by
    rw [hend, clearWhole_eq, hs2]
    split <;> rfl
  refine ⟨by rw [hframe], fun b hb => by rw [hread, h1 b hb], fun k hk => by rw [hread, h2 k hk], fun r => by rw [hframe]; rfl, by rw [hframe]⟩

/-- A store whose first byte lies in a scratchpad or this device's memory goes to no other device. -/
theorem storeDest_near {d : Device} {p : PStore} (h : ∀ b ∈ p.bytes, isScratch b.1 = true ∨ isLocalDev d b.1 = true) :
    storeDest d p = none := by
  have hloc : ∀ pa, isLocalDev d pa = true → paDev pa = d.boot.devnum := by
    intro pa hpa
    simp only [isLocalDev, paKind] at hpa
    by_contra hne
    simp only [hne, if_false, ne_eq, not_false_eq_true, if_true] at hpa
    split at hpa
    · cases hpa
    · split at hpa <;> cases hpa
  unfold storeDest
  split
  · rfl
  · next b _ hb =>
    rcases h b (hb ▸ List.mem_cons_self) with hs | hd
    · simp [hs]
    · simp [hloc _ hd]

/-- Settles O14: a store's effect at its issue is `pushStore`; performed from its thread's list it is that of `performAt_store`. -/
theorem scalarStores : Obligations.ScalarStores := by
  constructor
  · intro s i d a c o n h hc hp ea
    have he := (exec_storeForm (s := s) h).trans (congrArg _ (scalarStore_calm hc hp))
    refine ⟨fun locs hl => ⟨_, ?_, rfl, rfl, fun _ => rfl, fun _ => rfl⟩, fun cause v k hl => ?_⟩
    · rw [he, show checkAccess s true n (effAddr s a o).toNat n = _ from hl]
      rfl
    · rw [he, show checkAccess s true n (effAddr s a o).toNat n = _ from hl]
  · intro s p u hel hp hf hu hn hr hw hloc
    have hdev : u.dev = { s.dev with slots := u.dev.slots } := focus_dev _ _ _
    have hur : u.dev.retire = [] := by rw [hdev]; exact hr
    have huw : u.dev.mwatch = [] := by rw [hdev]; exact hw
    have hd : storeDest u.dev p = none := storeDest_near fun b hb => by rw [hdev]; exact hloc b hb
    obtain ⟨h1, h2, h3, h4, -⟩ := performAt_store hp hf hu hn hur huw
    have hpf : performStore s.dev.arg.idx u = performAt s.dev.arg.idx u := by
      rw [performStore, hp]
      simp only [hd, hel, if_true]
    have hread : ∀ k, readByte u.dev k = readByte s.dev k := readByte_focus _ _ _
    refine ⟨performAt s.dev.arg.idx u, ?_, h1, fun b hb => by rw [h2 b hb, hread], fun k hk => by rw [h3 k hk, hread], h4⟩
    rw [← hpf]
    rfl

/-! ## Atomics -/

theorem checkAtomic_ok {s : State} {ea n : Nat} {locs : List Loc} (h : checkAtomic s ea n = .ok locs) : locs.length = n := by
  unfold checkAtomic checkRange at h
  split at h
  · cases h
  · next l hl =>
    have hlen : locs = l := by
      split at h
      · exact (Chk.ok.inj h).symm
      all_goals cases h
    subst hlen
    split at hl
    · cases hl
    · exact xlateRange_length hl

theorem leNat_bytes_lt {d : Device} {locs : List Loc} {n : Nat} (h : locs.length = n) :
    leNat (locs.map (fun l => readByte d l.key)) < 2 ^ (8 * n) := by
  have := leNat_lt (locs.map (fun l => readByte d l.key))
  rwa [List.length_map, h] at this

/-- An atomic at places of this device: it answers what the home holds, its memory is that home with the new value where one is made, and
nothing but the device differs. -/
theorem atomicAt_near {locs : List Loc} {f : Nat → Option Nat} {s : State} (op : Nat) (hr : ∀ l ∈ locs, l.kind ≠ .remote) :
    let old := leNat (locs.map (fun l => readByte s.dev l.key))
    let u := (atomicAt locs op f s).2
    (atomicAt locs op f s).1 = old ∧ u = { s with dev := u.dev } ∧ u.dev.dbg = s.dev.dbg ∧
    (f old = none → ∀ k, readByte u.dev k = readByte s.dev k) ∧
    ∀ v, f old = some v → s.dev.retire = [] → s.dev.mwatch = [] → (locs.map (·.key)).Nodup →
      (∀ j l, locs[j]? = some l → readByte u.dev l.key = BitVec.ofNat 8 (v / 256 ^ j)) ∧
      ∀ k, k ∉ locs.map (·.key) → readByte u.dev k = readByte s.dev k := by
  intro old u
  let out := locs.filter (fun l => !isScratch l.key)
  let s1 : State := if out.isEmpty then s else { s with dev := addAcnt s.slot.acct 2 out.length s.dev }
  have hs1 : s1 = { s with dev := s1.dev } := by simp only [s1]; split <;> rfl
  have hdev : s1.dev = { s.dev with acnt := s1.dev.acnt } := by simp only [s1]; split <;> rfl
  have hold : leNat ((locs.map (·.key)).map (readByte s.dev)) = old := by rw [List.map_map]; rfl
  let bytes := fun new => wholeBytes (locs.map (·.key)) (leBytes locs.length new)
  let wr := writerOf s1 0 s1.thr.sr.taskid
  have hat : atomicAt locs op f s = match f old with
      | none => (old, s1)
      | some new => (old, { s1 with dev := updateLines (coreOf s1) (bytes new) (performBytes wr s1.slot.acct op (bytes new) s1.dev) }) := by
    simp only [atomicAt, answered_local hr, hold, List.length_map]
    rfl
  have hread : ∀ k, readByte s1.dev k = readByte s.dev k := fun k => by rw [hdev]; rfl
  have hret : s1.dev.retire = s.dev.retire := by rw [hdev]
  have hwat : s1.dev.mwatch = s.dev.mwatch := by rw [hdev]
  have hdbg : s1.dev.dbg = s.dev.dbg := by rw [hdev]
  cases hf : f old with
  | none =>
    rw [hf] at hat
    have hu : u = s1 := congrArg Prod.snd hat
    exact ⟨congrArg Prod.fst hat, hu ▸ hs1, hu ▸ hdbg, fun _ k => hu ▸ hread k, nofun⟩
  | some new =>
    rw [hf] at hat
    have hu : u = _ := congrArg Prod.snd hat
    refine ⟨congrArg Prod.fst hat, ?_, ?_, nofun, fun v hv hr0 hw0 hn => ?_⟩
    · rw [hu, hs1]
    · rw [hu, ← hdbg]
      dsimp only
      rw [updateLines_eq, (homes_performBytes _ _ _ _ _).frame]
    · cases hv
      obtain ⟨h1, h2⟩ := readByte_performWhole (wr := wr) (acct := s1.slot.acct) (op := op)
        (bs := leBytes locs.length new) (by rw [length_leBytes, List.length_map]) hn (hret.trans hr0) (hwat.trans hw0)
      rw [hu]
      dsimp only
      refine ⟨fun j l hl => ?_, fun k hk => ?_⟩ <;> rw [readByte_updateLines]
      · have hj : j < locs.length := (List.getElem?_eq_some_iff.mp hl).1
        exact h1 j _ _ (by rw [List.getElem?_map, hl]; rfl) (getElem?_leBytes hj)
      · rw [h2 k hk, hread]

/-- The instruction is an atomic of the form's registers, whose new value and result are the form's for every old value that fits its
width. -/
def IsAtomic (s : State) (i : Instr) (f : AtomicForm) : Prop :=
  ∃ (g : State → Nat → Option Nat) (ext : Nat → Word),
    exec i s = .next (atomic (encode i) (f.reads.map BitVec.toNat) f.d f.a f.sc f.c f.n g ext s) ∧
    ∀ old, old < 2 ^ (8 * f.n) → g s old = f.new old ∧ ext old = f.ext old

theorem wBytes_eq (w : BitVec 1) : wBytes w = if w = 0 then 8 else 4 := rfl

theorem lowBytes_eq (x : Word) (n : Nat) : lowBytes x n = x.toNat % 2 ^ (8 * n) := by rw [lowBytes, bits, Nat.shiftRight_zero]

theorem wExt_of_lt {w : BitVec 1} {v : Nat} (h : v < 2 ^ (8 * wBytes w)) :
    wExt w v = if w = 0 then w64 v else (BitVec.ofNat 32 v).signExtend 64 := by
  by_cases hw : w = 0
  · rw [wExt, if_pos hw, if_pos hw]
  · rw [wBytes_eq, if_neg hw] at h
    rw [wExt, if_neg hw, if_neg hw, sextWord_of_lt h]

theorem toSigned_of_lt {w n : Nat} (h : n < 2 ^ w) : toSigned w n = signedLow w n := by
  rw [toSigned, signedLow, BitVec.toInt_eq_toNat_cond, BitVec.toNat_ofNat, Nat.mod_eq_of_lt h]
  rfl

/-- An integer atomic on xB, from its function on old values that fit. -/
theorem isAtomic_int {s : State} {i : Instr} {d a b : BitVec 5} {sc : BitVec 3} {c : BitVec 4} {w : BitVec 1} {f g : Nat → Nat → Nat → Nat}
    (he : exec i s = .next (intAtomic (encode i) d a b sc c w g s))
    (hf : ∀ n old x, old < 2 ^ n → x < 2 ^ n → g n old x = f n old x) :
    IsAtomic s i (atomicForm.int s d a b sc c w [a, b] (fun n old x => some (f n old x))) := by
  refine ⟨_, _, he, fun old h => ⟨?_, wExt_of_lt h⟩⟩
  have hx : lowBytes (xr s b) (wBytes w) < 2 ^ (8 * wBytes w) := by rw [lowBytes_eq]; exact Nat.mod_lt _ (Nat.two_pow_pos _)
  have hfx := hf (8 * wBytes w) old _ h hx
  rw [lowBytes_eq] at hfx
  rw [lowBytes_eq, hfx]
  rfl

theorem isAtomic_of_atomicForm {s : State} {i : Instr} {f : AtomicForm} (h : atomicForm s i = some f) : IsAtomic s i f := by
  unfold atomicForm at h
  split at h <;> cases h
  case h_1 => exact isAtomic_int rfl fun _ _ _ _ _ => rfl
  case h_2 => exact isAtomic_int rfl fun n old x ho hx => by rw [toSigned_of_lt ho, toSigned_of_lt hx]
  case h_3 => exact isAtomic_int rfl fun n old x ho hx => by rw [toSigned_of_lt ho, toSigned_of_lt hx]
  case h_4 => exact isAtomic_int rfl fun _ _ _ _ _ => rfl
  case h_5 => exact isAtomic_int rfl fun _ _ _ _ _ => rfl
  case h_6 => exact isAtomic_int rfl fun _ _ _ _ _ => rfl
  case h_7 => exact isAtomic_int rfl fun _ _ _ _ _ => rfl
  case h_8 => exact ⟨_, _, rfl, fun old h => ⟨by rw [lowBytes_eq, lowBytes_eq]; rfl, wExt_of_lt h⟩⟩
  case h_9 => exact ⟨_, _, rfl, fun old h => ⟨by rw [lowBytes_eq], rfl⟩⟩

theorem atomicAt_congr {locs : List Loc} {op : Nat} {f g : Nat → Option Nat} {s : State}
    (h : f (leNat (locs.map (fun l => readByte s.dev l.key))) = g (leNat (locs.map (fun l => readByte s.dev l.key)))) :
    atomicAt locs op f s = atomicAt locs op g s := by
  unfold atomicAt
  dsimp only
  rw [List.map_map, show f (leNat (locs.map (readByte s.dev ∘ fun x => x.key))) = g _ from h]
  rfl

/-- Settles O15: an atomic that nothing holds back is `atomicAt` at the places of its checks, and the write of the old value. -/
theorem atomics : Obligations.Atomics := by
  intro s i f locs h hc hp hchk hwait hover hrem hpois old
  obtain ⟨g, ext, he, hval⟩ := isAtomic_of_atomicForm h
  have hlt : old < 2 ^ (8 * f.n) := leNat_bytes_lt (checkAtomic_ok hchk)
  obtain ⟨hnew, hext⟩ := hval old hlt
  have hcongr : atomicAt locs 1 (g s) s = atomicAt locs 1 f.new s := atomicAt_congr hnew
  obtain ⟨hold, hframe, hdbg, hnone, hsome⟩ := atomicAt_near (s := s) (f := f.new) 1 hrem
  have hready : Ready { word := encode i, xr := f.reads.map BitVec.toNat, xw := [f.d.toNat] } s := ready_scalar (hp.of_mem (by simp [or_comm]))
  have hd : NoPort s [f.d.toNat] := hp.of_mem (by simp)
  have hsame : SameCourse s (syncAcquire f.c.toNat (ascWide f.sc) (atomicAt locs 1 f.new s).2) := by
    rw [hframe]
    unfold syncAcquire
    split <;> exact ⟨rfl, rfl, rfl, rfl, hdbg⟩
  have hany : locs.any (fun l => l.kind = .remote) = false := by simpa using hrem
  refine ⟨(atomicAt locs 1 f.new s).2, hframe, ?_, rfl, hnone, hsome⟩
  rw [he]
  unfold atomic
  rw [run_done hc hready (t := wx f.d.toNat (f.ext old) (syncAcquire f.c.toNat (ascWide f.sc) (atomicAt locs 1 f.new s).2))
    (by simp only [hchk, hany, hwait, hover, poisonAt_none hpois, hcongr, hold, ← hext]; rfl)
    (hsame.trans (wx_same (noPort_same hd hsame.cfg))), enqueueReplay_off rfl]
  congr 3
  unfold syncAcquire ascWide
  have h15 : f.c.toNat = 15 ↔ f.c = 15 := ⟨fun h => BitVec.eq_of_toNat_eq h, fun h => h ▸ rfl⟩
  simp only [Bool.and_eq_true, decide_eq_true_eq, h15, bne_iff_ne, ne_eq]
  rfl

/-! ## Fences and polling -/

theorem newLines_same (s : State) : SameCourse s (newLines s) := ⟨rfl, rfl, rfl, rfl, rfl⟩

theorem pushFence_same (m : BitVec 16) (k : Nat) (s : State) : SameCourse s (pushFence m k s) := by
  unfold pushFence
  split
  · exact .refl s
  · exact ⟨rfl, rfl, rfl, rfl, rfl⟩

theorem dropOldLines_same (w : Bool) (s : State) : SameCourse s (dropOldLines w s) := by
  unfold dropOldLines
  split
  · exact newLines_same s
  · exact .refl s

/-- Settles O16: each fence is a scalar word that names no register, and puts its fence among the stores. -/
theorem fences : Obligations.Fences := by
  intro s m n sc hc w put drop
  have hput : ∀ k, w ≠ 0 → pushFence (cmask m n) k s = put k := fun k h => if_neg h
  have hdrop : ∀ t, dropOldLines (scopeWide sc) t = drop t := by
    intro t
    simp only [dropOldLines, scopeWide, decide_eq_true_eq]
    rfl
  have hwide : ∀ k, SameCourse s (dropOldLines (scopeWide sc) (pushFence (cmask m n) k s)) :=
    fun k => (pushFence_same _ _ _).trans (dropOldLines_same _ _)
  have hacq : ∀ k x, scalar x [] [] s (fun s => if cmask m n = 0 then s else dropOldLines (scopeWide sc) (pushFence (cmask m n) k s)) =
      retired x (s.thr.pc + 4) (if w = 0 then s else drop (put k)) := by
    intro k x
    by_cases hw : w = 0
    · rw [scalar_none hc] <;> simp only [show cmask m n = 0 from hw, hw, if_true]
      exact .refl s
    · rw [scalar_none hc] <;> simp only [show ¬ cmask m n = 0 from hw, hw, if_false]
      · rw [hput k hw, hdrop]
      · exact hwide k
  have hrel : ∀ x, scalar x [] [] s (pushFence (cmask m n) 1) = retired x (s.thr.pc + 4) (if w = 0 then s else put 1) := by
    intro x
    rw [scalar_none hc (pushFence_same _ _ _)]
    rfl
  exact ⟨congrArg _ (hacq 0 _), congrArg _ (hacq 2 _), congrArg _ (hrel _)⟩

/-- What a load leaves: the device's accounting, serial numbers and requests, and the oldest line its thread may use. -/
theorem afterLoad_frame (c : Nat) (l : List Loc) (s : State) :
    afterLoad c l s = { s with dev := (afterLoad c l s).dev, thr.pnd.l1dMin := (afterLoad c l s).thr.pnd.l1dMin } := by
  have h1 : countLoad c l s = { s with dev := (countLoad c l s).dev, thr.pnd.l1dMin := (countLoad c l s).thr.pnd.l1dMin } := by
    unfold countLoad
    dsimp only
    split <;> split <;> rfl
  unfold afterLoad
  rw [answered_frame, h1]

theorem dropOldLines_frame (b : Bool) (s : State) :
    dropOldLines b s = { s with dev := (dropOldLines b s).dev, thr.pnd.l1dMin := (dropOldLines b s).thr.pnd.l1dMin } := by
  unfold dropOldLines
  split <;> rfl

/-- The body of `wpoll`: what it does with the outcome of its read (R256). -/
def pollBody (d a : BitVec 5) (sc : BitVec 4) (s : State) : Res :=
  let since := s.thr.pnd.wpollSince.getD (cycNow s)
  let asleep : State := { s with thr.pnd.wpollSince := some since }
  match loadBytes s 15 8 (xr s a).toNat 8 with
  | .trap cause v v2 h => .trap cause (w64 v) (w64 (v2.getD 0)) (setHits h s)
  | .wait q => if 2 ^ 20 ≤ cycNow s - since then .done (wx d.toNat (xr s d) s) else .wait (askFor q asleep)
  | .ok bs locs =>
    if w64 (leNat bs) ≠ xr s d ∨ 2 ^ 20 ≤ cycNow s - since then
      .done (wx d.toNat (w64 (leNat bs)) (dropOldLines (scopeWide sc) (afterLoad 0 (locs.map (fun l => { l with cached := false })) s)))
    else .wait (answered locs asleep)

theorem pollWord_eq (d a : BitVec 5) (sc : BitVec 4) (s : State) :
    pollWord d a sc s = run { word := encode (.wpoll d a sc), xr := [a.toNat, d.toNat], xw := [d.toNat] } s (pollBody d a sc) := by
  unfold pollWord
  congr 1
  funext t
  simp only [pollBody, loadTrap_eq, decide_eq_true_eq, Bool.or_eq_true, bne_iff_ne]
  cases t.thr.pnd.wpollSince <;> rfl

/-- Settles O17: the outcome of the read decides, together with the limit. -/
theorem wpollWaitsForChange : Obligations.WpollWaitsForChange := by
  intro s d a sc bs locs hc hp since
  have hready : Ready { word := encode (.wpoll d a sc), xr := [a.toNat, d.toNat], xw := [d.toNat] } s := ready_scalar (hp.of_mem (by simp))
  have hd : NoPort s [d.toNat] := hp.of_mem (by simp)
  have hexec : exec (.wpoll d a sc) s = .next (pollWord d a sc s) := rfl
  refine ⟨fun hl hx => ?_, fun hl hx hlate => ?_, fun q hl => ⟨fun hlate => ?_, fun hlate => ?_⟩, fun cause v v2 h hl => ?_⟩ <;>
    rw [hexec, pollWord_eq]
  · let u := dropOldLines (scopeWide sc) (afterLoad 0 (locs.map (fun l => { l with cached := false })) s)
    have hu : u = { s with dev := u.dev, thr.pnd.l1dMin := u.thr.pnd.l1dMin } := by
      simp only [u]
      rw [dropOldLines_frame, afterLoad_frame]
    have hus : SameCourse s u := (afterLoad_same _ _ _).trans (dropOldLines_same _ _)
    have hdam : u.thr.hid.damaged = [] := by rw [hu]; exact hc.whole
    obtain ⟨hother, hsame⟩ := rx_wx_of_noPort (v := w64 (leNat bs)) hdam (noPort_same hd hus.cfg)
    rw [run_done (t := wx d.toNat (w64 (leNat bs)) u) hc hready (by simp only [pollBody, hl]; exact if_pos hx)
      (hus.trans (wx_same (noPort_same hd hus.cfg))), enqueueReplay_off rfl]
    refine ⟨_, rfl, rfl, rfl, fun h0 => ?_, fun r hr => ?_⟩
    · rw [rx_retired, hsame, if_neg h0]
    · rw [rx_retired, hother r hr, hu]
      rfl
  · rw [run_wait hc hready (by simp only [pollBody, hl]; exact if_neg (by simpa using ⟨hx, hlate⟩))]
  · rw [run_wait hc hready (by simp only [pollBody, hl]; exact if_neg (by simpa using hlate))]
  · rw [run_done hc hready (by simp only [pollBody, hl]; exact if_pos hlate) (wx_same hd), enqueueReplay_off rfl]
  · rw [run_trap hc hready (by simp only [pollBody, hl]; rfl)]
    rfl

end Sys2Proof.Machine
end

section
/-! PROOFS. Memory: what writes leave to be read where frames may be retired, whole strings of bytes read back, and the one canonical form
(O7). -/

namespace Sys2Proof.Machine

/-- The remaps of a mark are those of the mark it was (R367). -/
theorem markLine_retired (base key : Nat) (r : Retire) : (markLine base key r).retired = r.retired := by
  unfold markLine
  dsimp only
  split <;> rfl

/-- A write moves no location to another home. -/
theorem homeKey_writeByte (d : Device) (k : Nat) (b : Byte) (j : Nat) : homeKey (writeByte d k b) j = homeKey d j := by
  unfold homeKey writeByte
  rw [List.foldl_map]
  simp only [markLine_retired]

theorem readByte_writeByte_home (d : Device) (k j : Nat) (b : Byte) :
    readByte (writeByte d k b) j = if homeKey d j = homeKey d k then b else readByte d j := by
  have h : readByte (writeByte d k b) j = SMap.get Config.unlistedByte (writeByte d k b).mem (homeKey d j) := by
    unfold readByte
    rw [homeKey_writeByte]
  rw [h]
  unfold writeByte readByte
  rw [SMap.get_set]

/-- What is read outside a string of bytes that was written. -/
theorem readByte_writeBytes_outside {d : Device} (h : d.retire = []) (bs : List Byte) (k j : Nat) (hj : j < k ∨ k + bs.length ≤ j) :
    readByte (writeBytes d k bs) j = readByte d j := by
  induction bs generalizing d k with
  | nil => rfl
  | cons b r ih =>
    have hlen : (b :: r).length = r.length + 1 := rfl
    rw [writeBytes, ih (writeByte_retire_none h k b) (k + 1) (by omega), readByte_writeByte h, if_neg (by omega)]

/-- A string of bytes reads back whole (R4). -/
theorem readBytes_writeBytes {d : Device} (h : d.retire = []) (bs : List Byte) (k : Nat) : readBytes (writeBytes d k bs) k bs.length = bs := by
  induction bs generalizing d k with
  | nil => rfl
  | cons b r ih =>
    have hfirst : readByte (writeBytes (writeByte d k b) (k + 1) r) k = b := by
      rw [readByte_writeBytes_outside (writeByte_retire_none h k b) r (k + 1) k (by omega), readByte_writeByte h, if_pos rfl]
    have hrest := ih (writeByte_retire_none h k b) (k + 1)
    unfold readBytes at hrest ⊢
    rw [List.length_cons, upFrom, List.map_cons, writeBytes, hfirst, hrest]

/-- Settles O7: a write changes one entry of the map, at the home of its byte, and moves no home. -/
theorem memoryReadsBack : Obligations.MemoryReadsBack :=
  ⟨readByte_writeByte_home,
   fun _ k bs h => ⟨readBytes_writeBytes h bs k, fun j hj => readByte_writeBytes_outside h bs k j hj⟩,
   wf_writeBytes,
   SMap.ext_of_wf Config.unlistedByte⟩

end Sys2Proof.Machine
end

section
/-! PROOFS. Words that move the thread: `yield`, the trap words and `eret`, and jumps, calls and returns with the return stack (O28, O29,
O30, O31). -/

namespace Sys2Proof.Machine

theorem ready_plain (w : BitVec 32) (s : State) : Ready { word := w } s := ready_scalar (l := []) (m := []) (noPort_nil s)

theorem ready_reads {w : BitVec 32} {l : List Nat} {s : State} (h : NoPort s l) : Ready { word := w, xr := l } s :=
  ready_scalar (l := l) (m := []) (by rwa [List.append_nil])

/-- A word outside the vector queue that retires and goes on at the next word. -/
theorem run_done_unqueued {s t : State} {n : Need} {body : State → Res} (hc : Calm s) (h : Ready n s) (hq : n.queued = false)
    (hb : body s = .done t) (k : SameCourse s t) : run n s body = retired n.word (s.thr.pc + 4) t := by
  rw [run_done hc h hb k, enqueueReplay_off hq]

/-- A word outside the vector queue that retires and goes on at an address. -/
theorem run_jump_unqueued {s t : State} {n : Need} {body : State → Res} {p : Word} (hc : Calm s) (h : Ready n s) (hq : n.queued = false)
    (hb : body s = .jump p t) (k : SameCourse s t) : run n s body = retired n.word p t := by
  rw [run_jump hc h hb k, enqueueReplay_off hq]

/-- Settles O28: its readiness names the moment 16 cycles on, which no earlier one reaches. -/
theorem yieldMakesNotReady : Obligations.YieldMakesNotReady := by
  intro s hc
  have hexec : exec .yield s = .next (scalar (encode .yield) [] [] s (fun s => { s with thr.pnd.readyAt := cycNow s + 16 })) := rfl
  refine ⟨_, ?_, rfl, fun k hk b => ?_⟩
  · rw [hexec, scalar_none hc ⟨rfl, rfl, rfl, rfl, rfl⟩]
  · have hlate : ¬ cycNow s + 16 ≤ cycNow s + k := by omega
    simp [ready, retired, hlate]

/-! ## Traps and the return from them (R25, R325, R326) -/

/-- A word of no vector major, and none of the moments' traps, sets no VEC (R14). -/
theorem vecWord_system {w : BitVec 32} (h : fld w 26 6 = 0x3E#6) : vecWord w = false := by
  have hm : majorOf w = 0x3E := by rw [majorOf_eq_fld, h]; rfl
  simp [vecWord, hm]

theorem bit_zero_eq (w : Word) : bit w.toNat 0 = w.getLsbD 0 := rfl

/-- A trap whose cause is a program cause enters the handler of an ungrafted thread that has one and is not in it (R25). -/
theorem takeTrap_enters {w : BitVec 32} {c : Nat} {tpc v v2 : Word} {s : State} (hchain : s.slot.chain = none) (hp : programCause c = true)
    (hstep : (dbgOf s).sstep = false) (htvec : s.thr.sr.tvec ≠ 0) (hinh : s.thr.sr.tstat.getLsbD 0 = false)
    (hbk : c = 0x18 → (dbgOf s).bkstop = false) : takeTrap w c tpc v v2 s = enterHandler w c tpc v v2 (clearSkip s) := by
  have hloss : countLoss c (clearSkip s) = clearSkip s := by
    unfold countLoss
    rw [if_neg]
    rintro (rfl | rfl) <;> exact absurd hp (by decide)
  have hd : dbgOf (clearSkip s) = dbgOf s := rfl
  have hstop : (decide (c = 0x18) && (dbgOf s).bkstop) = false := by
    by_cases h : c = 0x18
    · simp [h, hbk h]
    · simp [h]
  have henters : (programCause c && (clearSkip s).thr.sr.tvec != 0 && !bit (clearSkip s).thr.sr.tstat.toNat 0 &&
      !(decide (c = 0x18) && (dbgOf s).bkstop)) = true := by
    have hv : ((clearSkip s).thr.sr.tvec != 0) = true := bne_iff_ne.mpr htvec
    have hi : bit (clearSkip s).thr.sr.tstat.toNat 0 = false := hinh
    simp only [hp, hi, hstop, hv, Bool.not_false, Bool.and_self]
  have hgraft : ¬ (clearSkip s).slot.chain.isSome = true := by simp [hchain]
  unfold takeTrap deliver
  dsimp only
  rw [hloss, hd, if_neg hgraft, if_pos henters, hstep]
  rfl

/-- A trap that no handler takes stops the slot (R25, R318). -/
theorem takeTrap_stops {w : BitVec 32} {c : Nat} {tpc v v2 : Word} {s : State} (hchain : s.slot.chain = none) (h30 : c ≠ 0x30) (h31 : c ≠ 0x31)
    (hno : programCause c = false ∨ s.thr.sr.tvec = 0 ∨ s.thr.sr.tstat.getLsbD 0 = true ∨ (c = 0x18 ∧ (dbgOf s).bkstop = true)) :
    takeTrap w c tpc v v2 s = stopSlot (faultRec (clearSkip s) w c tpc v v2) (clearSkip s) := by
  have hloss : countLoss c (clearSkip s) = clearSkip s := by
    unfold countLoss
    rw [if_neg (by simp [h30, h31])]
  have hd : dbgOf (clearSkip s) = dbgOf s := rfl
  unfold takeTrap deliver
  rw [hloss, hd]
  rcases hno with h | h | h | ⟨h, hb⟩
  · simp [hchain, clearSkip, h]
  · simp [hchain, clearSkip, h]
  · simp [hchain, clearSkip, bit_zero_eq, h]
  · simp [hchain, clearSkip, h, hb]

/-- Settles O29: `sys` and `brk` raise program causes, which enter the handler; the other traps stop the slot. -/
theorem trapWords : Obligations.TrapWords := by
  refine ⟨fun s c hc htvec hinh => ?_, fun s c hc htvec hinh hbk => ?_, fun s w c tpc v v2 hchain h30 h31 hno => ?_⟩
  · have hexec : exec (.sys c) s = .next (run { word := encode (.sys c) } s (fun s => .trapAt 0x1C (s.thr.pc + 4) (zimm c) 0 s)) := rfl
    have hvec : vecWord (encode (.sys c)) = false :=
      vecWord_system (by simp (disch := decide) only [encode, fld_or, fld_put_apart, BitVec.or_zero]; decide)
    rw [hexec, run_trapAt hc (ready_plain _ s) (by rfl), takeTrap_enters hc.chain rfl hc.nostep htvec hinh (fun h => absurd h (by decide))]
    simp [enterHandler, hvec, clearSkip, zimm, w64]
  · have hexec : exec (.brk c) s = .next (run { word := encode (.brk c) } s (fun s => .trap 0x18 ((encode (.brk c)).setWidth 64) 0 s)) := rfl
    have hvec : vecWord (encode (.brk c)) = false :=
      vecWord_system (by simp (disch := decide) only [encode, fld_or, fld_put_apart, BitVec.or_zero]; decide)
    rw [hexec, run_trap hc (ready_plain _ s) (by rfl), trapWord, if_neg (by simp),
      takeTrap_enters hc.chain rfl hc.nostep htvec hinh (fun _ => hbk)]
    simp [enterHandler, hvec, clearSkip, w64]
  · refine ⟨faultRec (clearSkip s) w c tpc v v2, ?_, rfl, rfl, rfl, rfl, rfl, rfl, rfl, rfl, rfl⟩
    rw [takeTrap_stops hchain h30 h31 hno]
    simp [stopSlot, faultRec, clearSkip, stallCause, or_assoc]

theorem bits_low_two (n : Nat) : bits n 0 2 = n % 4 := by simp [bits]

/-- Settles O30: the three branches of the return. -/
theorem eretReturns : Obligations.EretReturns := by
  intro s hc
  have hexec : exec .eret s = .next (run { word := encode .eret } s (returnFromTrap (encode .eret))) := rfl
  rw [hexec]
  by_cases hinh : s.thr.sr.tstat.getLsbD 0 = false
  · have hb : bit s.thr.sr.tstat.toNat 0 = false := hinh
    rw [if_pos hinh, run_trap hc (ready_plain _ s) (c := 0x01) (v := (encode .eret).setWidth 64) (v2 := 0) (t := s)
      (by simp [returnFromTrap, hb])]
    rfl
  · have hb : bit s.thr.sr.tstat.toNat 0 = true := by rw [bit_zero_eq]; simpa using hinh
    rw [if_neg hinh]
    by_cases hal : s.thr.sr.tpc.toNat % 4 = 0
    · rw [if_neg (not_not.mpr hal), run_jump hc (ready_plain _ s) (p := s.thr.sr.tpc) (t := { s with thr.sr.tstat := s.thr.sr.tstat &&& ~~~1 })
        (by simp [returnFromTrap, hb, bits_low_two, hal]) ⟨rfl, rfl, rfl, rfl, rfl⟩]
      rfl
    · rw [if_pos hal, run_trap hc (ready_plain _ s) (c := cAlign) (v := s.thr.sr.tpc) (v2 := 0) (t := s)
        (by simp [returnFromTrap, hb, bits_low_two, hal])]
      rfl

/-! ## Jumps, calls and returns (R87, R88) -/

/-- The link register is no port: lk is what a word that names x1 reads. -/
theorem rx_one (s : State) : rx s 1 = SMap.get 0 s.thr.x 1 := by simp [rx]

theorem noPort_one (s : State) : NoPort s [1] := .inr (by simp)

theorem NoPort.with_one {s : State} {l : List Nat} (h : NoPort s l) : NoPort s (l ++ [1]) :=
  h.imp id (fun h r hr => by rcases List.mem_append.mp hr with hr | hr; exacts [h r hr, by simp at hr; omega])

theorem pushLk_room {s : State} (h : s.thr.hid.rstack.length < 16) :
    pushLk s = .ok { s with thr.hid.rstack := s.thr.hid.rstack ++ [rx s 1] } := by simp [pushLk, h, rx_one]

/-- With 16 entries on chip the oldest is spilled first (R88). -/
theorem pushLk_full {s : State} {old : Word} {rest : List Word} (h : s.thr.hid.rstack = old :: rest) (hl : rest.length = 15) :
    (∀ a, spillWrite (s.thr.hid.rsbase.toNat + 8 * s.thr.hid.nspilled) (leBytes 8 old.toNat) s = .error a →
      pushLk s = .error (s.thr.hid.rsbase.toNat + 8 * s.thr.hid.nspilled)) ∧
    ∀ t, spillWrite (s.thr.hid.rsbase.toNat + 8 * s.thr.hid.nspilled) (leBytes 8 old.toNat) s = .ok t →
      pushLk s = .ok { t with thr.hid.nspilled := s.thr.hid.nspilled + 1, thr.hid.rstack := rest ++ [rx s 1] } := by
  constructor <;> intro r hr <;> simp [pushLk, h, hl, hr, rx_one]

theorem spillWrite_fails {addr : Nat} {bs : List Byte} {s : State} {c a : Nat}
    (h : xlateRange (xlateAcc s true false addr bs.length) addr bs.length = .error (c, a)) : spillWrite addr bs s = .error a := by
  simp [spillWrite, h]

theorem spillWrite_passes {addr : Nat} {bs : List Byte} {s : State} {locs : List Loc}
    (h : xlateRange (xlateAcc s true false addr bs.length) addr bs.length = .ok locs) :
    spillWrite addr bs s = .ok (pushStore 15 addr (wholeBytes (locs.map (·.key)) bs) s) := by simp [spillWrite, h]

theorem spillRead_fails {addr n : Nat} {s : State} {c a : Nat} (h : xlateRange (xlateAcc s false false addr n) addr n = .error (c, a)) :
    spillRead addr n s = .trap 0x0E a none 0 := by simp [spillRead, h]

theorem spillRead_passes {addr n : Nat} {s : State} {locs : List Loc} (h : xlateRange (xlateAcc s false false addr n) addr n = .ok locs) :
    spillRead addr n s = loadChecked s 15 addr locs := by simp [spillRead, h]

theorem callTo_ok {t : Word} {s u : State} (h : pushLk s = .ok u) : callTo t s = .jump t (wx 1 (s.thr.pc + 4) u) := by simp [callTo, h]

theorem callTo_error {t : Word} {s : State} {a : Nat} (h : pushLk s = .error a) : callTo t s = .trap 0x0E (w64 a) 0 s := by simp [callTo, h]

theorem checked_aligned {t : Word} {s : State} {k : Res} (h : t.toNat % 4 = 0) : checked t s k = k := by simp [checked, bits_low_two, h]

theorem checked_misaligned {t : Word} {s : State} {k : Res} (h : t.toNat % 4 ≠ 0) : checked t s k = .trap cAlign t 0 s := by
  simp [checked, bits_low_two, h]

theorem retTo_top {s : State} {l : List Word} {e : Word} (h : s.thr.hid.rstack = l ++ [e]) :
    retTo s = .jump (rx s 1) (wx 1 e { s with thr.hid.rstack := l }) := by simp [retTo, rx_one, h]

theorem retTo_empty {s : State} (h : s.thr.hid.rstack = []) (h0 : s.thr.hid.nspilled = 0) : retTo s = .jump (rx s 1) (wx 1 0 s) := by
  simp [retTo, rx_one, h, h0]

/-- What a return with nothing on chip does with the outcome of the read of the newest spilled entry (R88). -/
theorem retTo_refill {s : State} {n : Nat} (h : s.thr.hid.rstack = []) (hn : s.thr.hid.nspilled = n + 1) :
    (∀ bs locs, spillRead (s.thr.hid.rsbase.toNat + 8 * n) 8 s = .ok bs locs →
      retTo s = .jump (rx s 1) (wx 1 (w64 (leNat bs)) (afterLoad 15 locs { s with thr.hid.nspilled := n }))) ∧
    (∀ q, spillRead (s.thr.hid.rsbase.toNat + 8 * n) 8 s = .wait q → retTo s = .wait (askFor q s)) ∧
    ∀ c v v2 m, spillRead (s.thr.hid.rsbase.toNat + 8 * n) 8 s = .trap c v v2 m →
      retTo s = .trap c (w64 (if c = 0x0E then s.thr.hid.rsbase.toNat + 8 * n else v)) (w64 (v2.getD 0)) s := by
  refine ⟨fun bs locs hr => ?_, fun q hr => ?_, fun c v v2 m hr => ?_⟩ <;> simp [retTo, rx_one, h, hn, hr]

/-- Settles O31, form by form. -/
theorem callsAndReturns : Obligations.CallsAndReturns := by
  have hjmp : ∀ o s, exec (.jmp o) s = .next (run { word := encode (.jmp o) } s (fun s => .jump (s.thr.pc + 4 * o.signExtend 64) s)) :=
    fun o s => by simp only [← target_eq]; rfl
  have hcall : ∀ o s, exec (.call o) s = .next (run { word := encode (.call o), xr := [1] } s (fun s => callTo (s.thr.pc + 4 * o.signExtend 64) s)) :=
    fun o s => by simp only [← target_eq]; rfl
  have hjr : ∀ a s, exec (.jr a) s =
      .next (run { word := encode (.jr a), xr := [a.toNat] } s (fun s => checked (xr s a) s (.jump (xr s a) s))) := fun _ _ => rfl
  have hcallr : ∀ a s, exec (.callr a) s =
      .next (run { word := encode (.callr a), xr := [a.toNat, 1] } s (fun s => checked (xr s a) s (callTo (xr s a) s))) := fun _ _ => rfl
  have hret : ∀ s, exec .ret s = .next (run { word := encode .ret, xr := [1] } s (fun s => checked (rx s 1) s (retTo s))) :=
    fun s => by simp only [rx_one]; rfl
  have hlink : ∀ {s t : State} {v : Word}, SameCourse s t → SameCourse s (wx 1 v t) := fun {s t v} k => k.trans (wx_same (noPort_one t))
  refine ⟨fun s hc => ⟨fun o => ?_, fun o hroom => ?_, fun a hp hal => ?_, fun a hp hal hroom => ?_, fun hal l e hl => ?_, fun hal h0 hn => ?_⟩,
    fun s hc => ⟨fun a hp hal => ?_, fun a hp hal => ?_, fun hal => ?_, fun o old rest hst hlen => ⟨fun c a hx => ?_, fun locs hx => ?_⟩,
      fun hal h0 n hn => ⟨fun c a hx => ?_, fun locs hx => ⟨fun bs hl => ?_, fun q hl => ?_, fun v v2 h hl => ?_⟩⟩⟩⟩
  · rw [hjmp]
    exact congrArg _ (run_jump_unqueued hc (ready_plain _ s) rfl rfl (.refl s))
  · rw [hcall]
    exact congrArg _ (run_jump_unqueued hc (ready_reads (noPort_one s)) rfl (callTo_ok (pushLk_room hroom)) (hlink ⟨rfl, rfl, rfl, rfl, rfl⟩))
  · rw [hjr]
    exact congrArg _ (run_jump_unqueued hc (ready_reads hp) rfl (checked_aligned hal) (.refl s))
  · rw [hcallr]
    exact congrArg _ (run_jump_unqueued hc (ready_reads hp.with_one) rfl ((checked_aligned hal).trans (callTo_ok (pushLk_room hroom)))
      (hlink ⟨rfl, rfl, rfl, rfl, rfl⟩))
  · rw [hret]
    exact congrArg _ (run_jump_unqueued hc (ready_reads (noPort_one s)) rfl ((checked_aligned hal).trans (retTo_top hl))
      (hlink ⟨rfl, rfl, rfl, rfl, rfl⟩))
  · rw [hret]
    exact congrArg _ (run_jump_unqueued hc (ready_reads (noPort_one s)) rfl ((checked_aligned hal).trans (retTo_empty h0 hn)) (hlink (.refl s)))
  · exact congrArg _ (run_trap hc (ready_reads hp) (checked_misaligned hal))
  · exact congrArg _ (run_trap hc (ready_reads hp.with_one) (checked_misaligned hal))
  · rw [hret]
    exact congrArg _ (run_trap hc (ready_reads (noPort_one s)) (checked_misaligned hal))
  · have hw := spillWrite_fails (bs := leBytes 8 old.toNat) hx
    rw [hcall]
    exact congrArg _ (run_trap hc (ready_reads (noPort_one s)) (callTo_error ((pushLk_full hst hlen).1 _ hw)))
  · have hw := spillWrite_passes (bs := leBytes 8 old.toNat) hx
    rw [hcall]
    exact congrArg _ (run_jump_unqueued hc (ready_reads (noPort_one s)) rfl (callTo_ok ((pushLk_full hst hlen).2 _ hw))
      (hlink ⟨rfl, rfl, rfl, rfl, rfl⟩))
  · obtain ⟨-, -, htrap⟩ := retTo_refill h0 hn
    rw [hret]
    exact congrArg _ (run_trap hc (ready_reads (noPort_one s)) ((checked_aligned hal).trans (htrap _ _ _ _ (spillRead_fails hx))))
  · obtain ⟨hok, -, -⟩ := retTo_refill h0 hn
    have hsame : SameCourse s { s with thr.hid.nspilled := n } := ⟨rfl, rfl, rfl, rfl, rfl⟩
    rw [hret]
    exact congrArg _ (run_jump_unqueued hc (ready_reads (noPort_one s)) rfl ((checked_aligned hal).trans (hok _ _ ((spillRead_passes hx).trans hl)))
      (hlink (hsame.trans (afterLoad_same _ _ _))))
  · obtain ⟨-, hwait, -⟩ := retTo_refill h0 hn
    rw [hret]
    exact congrArg _ (run_wait hc (ready_reads (noPort_one s)) ((checked_aligned hal).trans (hwait _ ((spillRead_passes hx).trans hl))))
  · obtain ⟨-, -, htrap⟩ := retTo_refill h0 hn
    rw [hret]
    exact congrArg _ (run_trap hc (ready_reads (noPort_one s)) ((checked_aligned hal).trans (htrap _ _ _ _ ((spillRead_passes hx).trans hl))))

end Sys2Proof.Machine
end

section
/-! PROOFS. Lengths and strips: `setvl` and `setvlr`, the loads of codebooks and stream registers, the strip branch and the passes of a loop
(O21, O22, O23, O24). -/

namespace Sys2Proof.Machine

/-! ## What the checks turn away in a calm state (R61) -/

theorem run_error {s t : State} {n : Need} {body : State → Res} (hq : queuedAhead s = 0) (h : gate n s = .error t) : run n s body = t := by
  unfold run
  rw [h]
  simp [inOrder, hq]

theorem graftBreak_calm {s : State} (h : s.slot.chain = none) (n : Need) : graftBreak s n = false := by simp [graftBreak, h]

/-- A word whose format is refused traps VTYPE_ILLEGAL. -/
theorem gate_format {s : State} {n : Need} (hc : Calm s) (hr : n.roleOk = true) (hv : n.vt = true → fmtN s ≠ 0) (hf : n.fmtOk = false) :
    gate n s = .error (trapWord n 0x03 (n.word.setWidth 64) n.fmtVal2 s) := by
  have hvt : (n.vt && decide (fmtN s = 0)) = false := by
    cases h : n.vt with
    | false => rfl
    | true => simp [hv h]
  unfold gate
  simp only [inBody_calm hc, hc.idle, graftBreak_calm hc.chain, hr, hvt, hf, Bool.false_and, Bool.and_false, Bool.not_true, Bool.not_false,
    Bool.false_eq_true, if_false, if_true]

/-- A word that breaks a register rule traps REG_ILLEGAL. -/
theorem gate_register {s : State} {n : Need} (hc : Calm s) (hr : n.roleOk = true) (hv : n.vt = true → fmtN s ≠ 0) (hf : n.fmtOk = true)
    (hb : regsBad s n = true) : gate n s = .error (trapWord n 0x04 (n.word.setWidth 64) 0 s) := by
  have hvt : (n.vt && decide (fmtN s = 0)) = false := by
    cases h : n.vt with
    | false => rfl
    | true => simp [hv h]
  unfold gate
  simp only [inBody_calm hc, hc.idle, graftBreak_calm hc.chain, hr, hvt, hf, hb, Bool.false_and, Bool.and_false, Bool.not_true,
    Bool.false_eq_true, if_false, if_true]

theorem regsBad_own {s : State} {n : Need} (h : n.regOk = false) : regsBad s n = true := by simp [regsBad, h]

/-! ## Grants (R95 to R97) -/

theorem vtLegal_iff (n : Nat) : vtLegal n = true ↔ (1 ≤ n % 32 ∧ n % 32 ≤ 19 ∧ n < 4096 ∧ (n / 128 % 4 = 0 ∨ ((n / 128 % 4 = 1 ∨ n / 128 % 4 = 2) ∧
    (n % 32 = 1 ∨ n % 32 = 12 ∨ n % 32 = 13 ∨ n % 32 = 14 ∨ n % 32 = 15 ∨ n % 32 = 16)))) := by
  have h0 : bits n 0 5 = n % 32 := by simp [bits]
  have h7 : bits n 7 2 = n / 128 % 4 := by simp [bits, Nat.shiftRight_eq_div_pow]
  simp only [vtLegal, blkFmt, h0, h7, Bool.and_eq_true, Bool.or_eq_true, decide_eq_true_eq]
  omega

theorem w64_of_toNat (x : Word) : w64 x.toNat = x := by simp [w64]

/-- The words a grant writes xD from: its length. -/
theorem grantWord_eq {d a : BitVec 5} {req : Nat} {s : State} :
    grantWord d a req s = .done (wx d.toNat (w64 (vlN (grant req (if a = 0 then
        longestVl (slotVlmax s.dev s.cur.1 s.slot.part.toNat) (vtFmt (BitVec.ofNat 16 req)) (vtGrp (BitVec.ofNat 16 req)) else (xr s a).toNat) s)))
      (grant req (if a = 0 then
        longestVl (slotVlmax s.dev s.cur.1 s.slot.part.toNat) (vtFmt (BitVec.ofNat 16 req)) (vtGrp (BitVec.ofNat 16 req)) else (xr s a).toNat) s)) := by
  have hmost : perReg (slotVlmax s.dev s.cur.1 s.slot.part.toNat) (fmtEw (bits req 0 5)) * 2 ^ bits req 5 2 =
      longestVl (slotVlmax s.dev s.cur.1 s.slot.part.toNat) (vtFmt (BitVec.ofNat 16 req)) (vtGrp (BitVec.ofNat 16 req)) := by
    rw [perReg_fmt, vtFmt, vtGrp, ofNat16_bits _ 0 5 (by omega), ofNat16_bits _ 5 2 (by omega)]
  unfold grantWord
  dsimp only
  rw [hmost, vlN, w64_of_toNat]

/-- A grant of a legal request that a word carries out (R97). -/
theorem run_grant {s : State} {n : Need} {d a : BitVec 5} {req : Nat} (hc : Calm s) (h : Ready n s) (hq : n.queued = false) (hd : NoPort s [d.toNat]) :
    ∃ u, run n s (grantWord d a req) = retired n.word (s.thr.pc + 4) (wx d.toNat (w64 (vlN u)) u) ∧ Granted s (BitVec.ofNat 16 req) (if a = 0 then
        longestVl (slotVlmax s.dev s.cur.1 s.slot.part.toNat) (vtFmt (BitVec.ofNat 16 req)) (vtGrp (BitVec.ofNat 16 req)) else (xr s a).toNat) u := by
  have hg := grant_granted (s := s) req (if a = 0 then
        longestVl (slotVlmax s.dev s.cur.1 s.slot.part.toNat) (vtFmt (BitVec.ofNat 16 req)) (vtGrp (BitVec.ofNat 16 req)) else (xr s a).toNat) hc.whole
  have hcourse := granted_course hg
  exact ⟨_, run_done_unqueued hc h hq grantWord_eq (hcourse.trans (wx_same (noPort_same hd hcourse.cfg))), hg⟩

theorem requestOk_plain {s : State} {b : BitVec 5} (h : NoPort s [b.toNat]) : requestOk s b = vtLegal (xr s b).toNat := by
  unfold requestOk
  have hp : (isTrio s && decide (28 ≤ b.toNat)) = false := by
    rcases h with h | h
    · simp [h]
    · have := h _ List.mem_cons_self
      simp; omega
  rw [hp, Bool.false_and, Bool.false_or]

/-- Settles O21: the request's legality decides before the body, which is one grant. -/
theorem vectorLengths : Obligations.VectorLengths := by
  have hsetvl : ∀ (d a : BitVec 5) (t : BitVec 12) (s : State), exec (.setvl d a t) s = .next (run { word := encode (.setvl d a t), xr := if a = 0 then [] else [a.toNat], xw := [d.toNat], fmtOk := vtLegal t.toNat, fmtVal2 := zimm t } s (grantWord d a t.toNat)) := fun _ _ _ _ => rfl
  have hsetvlr : ∀ (d a b : BitVec 5) (s : State), exec (.setvlr d a b) s = .next (run { word := encode (.setvlr d a b), xr := if a = 0 then [b.toNat] else [a.toNat, b.toNat], xw := [d.toNat], fmtOk := requestOk s b, fmtVal2 := xr s b } s (fun s => grantWord d a (xr s b).toNat s)) := fun _ _ _ _ => rfl
  refine ⟨fun s hc d a => ⟨fun t _ hl => ?_, fun b hp hl => ?_, vtLegal_iff⟩, fun s hc d a => ⟨fun t hp hl => ?_, fun b hp hl => ?_⟩⟩
  · rw [hsetvl]
    exact congrArg _ (run_error hc.ahead (gate_format hc rfl nofun hl))
  · have hb : NoPort s [b.toNat] := hp.of_mem (by split <;> simp)
    rw [hsetvlr]
    exact congrArg _ (run_error hc.ahead (gate_format hc rfl nofun ((requestOk_plain hb).trans hl)))
  · have hd : NoPort s [d.toNat] := hp.of_mem (by split <;> simp)
    have hx : NoPort s ((if a = 0 then [] else [a.toNat]) ++ [d.toNat]) := hp.of_mem (by split <;> simp)
    have hreq : BitVec.ofNat 16 t.toNat = t.setWidth 16 := BitVec.eq_of_toNat_eq (by simp)
    obtain ⟨u, hrun, hg⟩ := run_grant (n := { word := encode (.setvl d a t), xr := if a = 0 then [] else [a.toNat], xw := [d.toNat], fmtOk := vtLegal t.toNat, fmtVal2 := zimm t })
      (a := a) (req := t.toNat) hc (plain_ready rfl nofun hl rfl hx rfl rfl rfl rfl rfl) rfl hd
    exact ⟨u, (hsetvl d a t s).trans (congrArg _ hrun), hreq ▸ hg⟩
  · have hd : NoPort s [d.toNat] := hp.of_mem (by split <;> simp)
    have hb : NoPort s [b.toNat] := hp.of_mem (by split <;> simp)
    have hx : NoPort s ((if a = 0 then [b.toNat] else [a.toNat, b.toNat]) ++ [d.toNat]) := hp.of_mem (by split <;> simp)
    have hready : Ready { word := encode (.setvlr d a b), xr := if a = 0 then [b.toNat] else [a.toNat, b.toNat], xw := [d.toNat], fmtOk := requestOk s b, fmtVal2 := xr s b } s :=
      plain_ready rfl nofun ((requestOk_plain hb).trans hl) rfl hx rfl rfl rfl rfl rfl
    obtain ⟨u, hrun, hg⟩ := run_grant (a := a) (req := (xr s b).toNat) hc hready rfl hd
    refine ⟨u, ?_, hg⟩
    rw [hsetvlr, run_body (f := fun s => grantWord d a (xr s b).toNat s) (g := grantWord d a (xr s b).toNat) hc hready rfl, hrun]

/-! ## Codebooks and stream registers (R99, R108, R109) -/

/-- A near load of bytes on one page whose first byte is another device's has no right to them (R377). -/
theorem loadAs_far {s : State} {cls align va n : Nat} {l : Loc} (hal : va % align = 0) (hn : 0 < n) (hpage : va / 65536 = (va + n - 1) / 65536)
    (hx : xlateThr s false va = .ok l) (hk : l.kind = .remote) : loadAs s true cls align va n = .trap cRights va none 0 := by
  have hacc : xlateAcc s false true va n va = .error cRights := by simp [xlateAcc, hx, permitted, hk]
  have hrange : checkRange s false true align va n = .error (cRights, va) := by
    unfold checkRange xlateRange
    rw [if_neg (not_not.mpr hal), if_neg (by omega), if_pos hpage, hacc]
  simp [loadAs, checkAs, hrange]

theorem setHits_zero (s : State) : setHits 0 s = s := by
  have h : s.thr.sr.wstat ||| w64 0 = s.thr.sr.wstat := BitVec.or_zero
  simp [setHits, h]

theorem dLegal_iff (d : Nat) : dLegal d = true ↔ streamLegal d := by
  simp [dLegal, streamLegal, bit, and_assoc]

theorem setStream_whole {s : State} {m : SMap Stream} (hd : s.thr.hid.damaged = []) (hm : s.thr.s = m) (n : Nat) (st : Stream) :
    setStream n st s = { s with thr.s := SMap.set Stream.empty m n st } := by
  unfold setStream
  rw [mendBits_whole hd, hm]

theorem afterLoad_damaged (c : Nat) (l : List Loc) (s : State) : (afterLoad c l s).thr.hid.damaged = s.thr.hid.damaged := by
  rw [afterLoad_frame]

theorem ready_vs0 {w : BitVec 32} {a : BitVec 5} {s : State} (h : NoPort s [a.toNat]) : Ready { word := w, xr := [a.toNat], vs0 := true } s :=
  plain_ready rfl nofun rfl rfl (by simpa using h) rfl rfl rfl rfl rfl

/-- The body of `cbld` (R99). -/
def cbldBody (a : BitVec 5) (c : BitVec 4) (n : BitVec 2) (s : State) : Res :=
  match loadAs s true c.toNat 32 (xr s a).toNat 32 with
  | .wait _ => .wait s
  | .trap cause v v2 h => .trap cause (w64 v) (w64 (v2.getD 0)) (setHits h s)
  | .ok bs locs =>
    .done (afterLoad c.toNat locs { mendBits 7 (8 + n.toNat) 0 256 s with thr.cb := SMap.set 0 s.thr.cb n.toNat (BitVec.ofNat 256 (leNat bs)) })

theorem exec_cbld (a : BitVec 5) (c : BitVec 4) (n : BitVec 2) (s : State) :
    exec (.cbld a c n) s = .next (run { word := encode (.cbld a c n), xr := [a.toNat], vs0 := true } s (cbldBody a c n)) := by
  have hexec : exec (.cbld a c n) s = execCbld a c n s := rfl
  rw [hexec, execCbld]
  simp only [loadTrap_eq] <;> rfl

/-- The body of `sdld` in a thread that is in no chain (R109). -/
def sdldBody (n : BitVec 3) (a : BitVec 5) (s : State) : Res :=
  match loadAs s true 0 8 (xr s a).toNat 64 with
  | .wait _ => .wait s
  | .trap cause v v2 h => .trap cause (w64 v) (w64 (v2.getD 0)) (setHits h s)
  | .ok bs locs =>
    if !dLegal (leNat bs) then .trap 0x03 (xr s a) 0 s
    else .done (setStream n.toNat ⟨true, BitVec.ofNat 512 (leNat bs), 0, 0⟩ { afterLoad 0 locs s with thr.sr.vstart := 0 })

theorem exec_sdld {n : BitVec 3} {a : BitVec 5} {s : State} (hc : Calm s) (hp : NoPort s [a.toNat]) :
    exec (.sdld n a) s = .next (run { word := encode (.sdld n a), xr := [a.toNat], vs0 := true } s (sdldBody n a)) := by
  have hexec : exec (.sdld n a) s = execSdld n a s := rfl
  rw [hexec, execSdld]
  refine congrArg _ (run_body hc (ready_vs0 hp) ?_)
  simp only [sdldBody, hc.chain, loadTrap_eq, Option.isSome_none, Bool.false_and, Bool.false_eq_true, if_false] <;> rfl

/-- Settles O22: the outcome of the load decides, and a load of another device's bytes has but one. -/
theorem registerLoads : Obligations.RegisterLoads := by
  refine ⟨fun s a c n hc hp => ⟨fun bs locs hl => ?_, fun l hal hx hk => ?_, fun cause v v2 h hl => ?_, fun q hl => ?_⟩,
    fun s n a hc hp => ⟨fun bs locs hl => ⟨fun hlegal => ?_, fun hlegal => ?_⟩, fun l hal hpage hx hk => ?_, fun cause v v2 h hl => ?_, fun q hl => ?_⟩⟩
  · rw [exec_cbld]
    refine congrArg _ (run_done_unqueued hc (ready_vs0 hp) rfl (by simp only [cbldBody, hl, mendBits_whole hc.whole]) ?_)
    exact SameCourse.trans (t := { s with thr.cb := SMap.set 0 s.thr.cb n.toNat (BitVec.ofNat 256 (leNat bs)) }) ⟨rfl, rfl, rfl, rfl, rfl⟩
      (afterLoad_same _ _ _)
  · have hl := loadAs_far (cls := c.toNat) (n := 32) hal (by omega) (by omega) hx hk
    rw [exec_cbld]
    refine congrArg _ ((run_trap hc (ready_vs0 hp) (c := cRights) (v := xr s a) (v2 := 0) (t := s) ?_).trans rfl)
    simp only [cbldBody, hl, setHits_zero, w64_of_toNat, Option.getD_none]
    rfl
  · rw [exec_cbld]
    exact congrArg _ ((run_trap hc (ready_vs0 hp) (by simp only [cbldBody, hl])).trans rfl)
  · rw [exec_cbld]
    exact congrArg _ (run_wait hc (ready_vs0 hp) (by simp only [cbldBody, hl]))
  · rw [exec_sdld hc hp]
    have hs : (afterLoad 0 locs s).thr.s = s.thr.s := by rw [afterLoad_frame]
    refine congrArg _ (run_done_unqueued hc (ready_vs0 hp) rfl ?_ ?_)
    · simp only [sdldBody, hl, (dLegal_iff _).mpr hlegal, Bool.not_true, Bool.false_eq_true, if_false]
      refine congrArg Res.done (setStream_whole ?_ ?_ _ _)
      · exact (afterLoad_damaged 0 locs s).trans hc.whole
      · exact hs
    · exact (afterLoad_same _ _ _).trans ⟨rfl, rfl, rfl, rfl, rfl⟩
  · have hd : dLegal (leNat bs) = false := by rw [← Bool.not_eq_true, dLegal_iff]; exact hlegal
    rw [exec_sdld hc hp]
    exact congrArg _ ((run_trap hc (ready_vs0 hp) (by simp only [sdldBody, hl, hd, Bool.not_false, if_true])).trans rfl)
  · have hl := loadAs_far (cls := 0) (n := 64) hal (by omega) (by omega) hx hk
    rw [exec_sdld hc hp]
    refine congrArg _ ((run_trap hc (ready_vs0 hp) (c := cRights) (v := xr s a) (v2 := 0) (t := s) ?_).trans rfl)
    simp only [sdldBody, hl, setHits_zero, w64_of_toNat, Option.getD_none]
    rfl
  · rw [exec_sdld hc hp]
    exact congrArg _ ((run_trap hc (ready_vs0 hp) (by simp only [sdldBody, hl])).trans rfl)
  · rw [exec_sdld hc hp]
    exact congrArg _ (run_wait hc (ready_vs0 hp) (by simp only [sdldBody, hl]))

/-! ## The strip-mine branch (R100) -/

theorem mem_sbrRegs {m : BitVec 4} {r : Nat} (h : r ∈ sbrRegs m) : r < 28 := by
  obtain ⟨i, hi, rfl⟩ := List.mem_map.mp h
  have hlt := mem_upFrom.mp (List.mem_filter.mp hi).1
  omega

theorem ready_sbr {s : State} {n : BitVec 5} {m : BitVec 4} {w : BitVec 32} (hf : fmtN s ≠ 0) (hp : NoPort s [n.toNat]) :
    Ready { word := w, xr := n.toNat :: sbrRegs m, xw := [n.toNat], vt := true } s := by
  refine plain_ready rfl (fun _ => hf) rfl rfl (hp.imp id (fun h r hr => ?_)) rfl rfl rfl rfl rfl
  have hn := h n.toNat List.mem_cons_self
  rcases List.mem_cons.mp hr with rfl | hr
  · exact hn
  · rcases List.mem_append.mp hr with hr | hr
    · exact mem_sbrRegs hr
    · rwa [List.mem_singleton.mp hr]

/-- The byte step of a code names no register that `sbr` writes. -/
theorem sbrStep_congr {s t : State} (h : t.thr.sr = s.thr.sr) (k : Nat) : sbrStep t k = sbrStep s k := by
  unfold sbrStep ewN fmtN vlN
  rw [h]

/-- What `sbr` leaves in the registers when it makes progress (R100). -/
theorem sbr_registers {s t : State} {n : BitVec 5} {m : BitVec 4} {sc : BitVec 8} {left : Word} (ht : t = { s with thr.hid := t.thr.hid })
    (hd : t.thr.hid.damaged = []) (hp : NoPort s [n.toNat]) :
    XFrame t (sbrAdvance m sc (wx n.toNat left t)) ∧ ∀ r, r < 32 → rx (sbrAdvance m sc (wx n.toNat left t)) r =
      let base := if r = n.toNat ∧ n ≠ 0 then left else rx s r
      if 20 ≤ r ∧ r < 24 ∧ m.toNat.testBit (r - 20) = true then base + sbrStep s (sc.toNat / 4 ^ (r - 20) % 4) else base := by
  have hpt : NoPort t [n.toNat] := noPort_same hp (by rw [ht])
  have hx0 : XFrame t (wx n.toNat left t) := by
    by_cases h0 : n.toNat = 0
    · rw [h0]; rfl
    · rw [wx_plain hpt hd h0]; rfl
  have hsr : (wx n.toNat left t).thr.sr = s.thr.sr := by
    unfold XFrame at hx0
    rw [hx0, ht]
  have hrx : ∀ r, rx t r = rx s r := fun r => by rw [ht]; rfl
  have hbase : ∀ r, rx (wx n.toNat left t) r = if r = n.toNat ∧ n ≠ 0 then left else rx s r := by
    have hz : n.toNat = 0 ↔ n = 0 := ⟨fun h => BitVec.eq_of_toNat_eq h, fun h => h ▸ rfl⟩
    intro r
    rw [rx_wx_any hpt hd, hrx]
    by_cases hr0 : r = 0
    · have hx : rx s r = 0 := by rw [hr0, rx, if_pos rfl]
      rw [if_pos hr0, hx, if_neg (fun h => h.2 (hz.mp (h.1.symm.trans hr0)))]
    · rw [if_neg hr0]
      refine if_congr ⟨fun h => ⟨h, fun hn => hr0 (h.trans (hz.mpr hn))⟩, And.left⟩ rfl rfl
  obtain ⟨hframe, hread⟩ := sbrAdvance_spec m sc t (wx n.toNat left t) hx0 hd 4 (by omega)
  refine ⟨hframe, fun r hr => ?_⟩
  refine (hread r hr).trans ?_
  rw [hbase r, sbrStep_congr hsr, bits_pair]

/-- Settles O23: a branch that makes no progress for the second time traps before anything is written; any other one writes the count and
the selected address registers. -/
theorem stripBranch : Obligations.StripBranch := by
  intro s n m sc o hc hf hp v taken stall step
  have hready : Ready { word := encode (.sbr n m sc o), xr := n.toNat :: sbrRegs m, xw := [n.toNat], vt := true } s := ready_sbr hf hp
  have htaken : (n != 0 && decide ((vvN s : Int) < (xr s n).toInt)) = taken := by
    simp only [taken, v, bne, Bool.beq_eq_decide_eq, decide_not]
  have hexec : exec (.sbr n m sc o) s = execSbr n m sc o s := rfl
  rw [hexec, execSbr]
  refine ⟨fun ht hv hs => ?_, fun hgo => ?_⟩
  · refine congrArg _ (run_trap hc hready ?_)
    dsimp only
    rw [htaken, if_pos]
    simp only [ht, Bool.true_and, Bool.and_eq_true, decide_eq_true_eq]
    exact ⟨hv, hs⟩
  · have hno : ¬ ((taken && decide (vvN s = 0)) && decide (stall = 2)) = true := by simpa [v, and_assoc] using hgo
    obtain ⟨t, ht⟩ : ∃ t : State, t = { s with
        thr.hid.srecAddr := some s.thr.pc, thr.hid.srecStall := if (taken && decide (vvN s = 0)) = true then stall else 0 } := ⟨_, rfl⟩
    obtain ⟨hframe, hregs⟩ := sbr_registers (m := m) (sc := sc) (left := xr s n - s.thr.sr.vlvalid) (t := t) (by rw [ht]) (by rw [ht]; exact hc.whole) hp
    refine ⟨sbrAdvance m sc (wx n.toNat (xr s n - s.thr.sr.vlvalid) t), ?_, ?_, fun r hr => ?_⟩
    · have hsame : SameCourse s (sbrAdvance m sc (wx n.toNat (xr s n - s.thr.sr.vlvalid) t)) := by
        unfold XFrame at hframe
        rw [hframe, ht]
        exact ⟨rfl, rfl, rfl, rfl, rfl⟩
      cases hk : taken with
      | true =>
        have hpc : s.thr.pc + 4 * o.signExtend 64 = target (sbrAdvance m sc (wx n.toNat (xr s n - s.thr.sr.vlvalid) t)).thr.pc o := by
          rw [hsame.pc, target_eq]
        refine congrArg _ (run_jump_unqueued hc hready rfl ?_ hsame)
        rw [if_pos rfl, hpc, ht]
        dsimp only
        rw [htaken, if_neg hno, if_pos hk]
      | false =>
        refine congrArg _ (run_done_unqueued hc hready rfl ?_ hsame)
        dsimp only
        rw [htaken, if_neg hno, if_neg (by simp [hk]), ht]
    · unfold XFrame at hframe
      rw [hframe, ht]
      simp [v]
    · rw [hregs r hr, sbrStep_code _ _ (Nat.mod_lt _ (by omega))]

/-! ## Zero-overhead loops (R111) -/

/-- The VTYPE of a pass, field by field (R111). -/
theorem loopType_loopVtype (s : State) (st : Stream) : LoopType s.thr.sr.vtype st.desc.toNat (BitVec.ofNat 16 (loopVtype s st)) := by
  obtain ⟨hfmt, hgrp⟩ := loop_fields s st
  have hvt : loopVtype s st = setBits (setBits s.thr.sr.vtype.toNat 0 5 (bits st.desc.toNat 64 5)) 7 2
      (if dBlk st.desc.toNat = 16 then 1 else if dBlk st.desc.toNat = 32 then 2 else 0) := by
    unfold loopVtype dBlk
    dsimp only
    congr 1
    split <;> simp_all
  refine ⟨hfmt, ?_, hgrp, ?_, ?_⟩
  · have hb : bits (BitVec.ofNat 16 (loopVtype s st)).toNat 7 2 = if dBlk st.desc.toNat = 16 then 1 else if dBlk st.desc.toNat = 32 then 2 else 0 := by
      rw [ofNat16_bits _ 7 2 (by omega), hvt, bits_setBits_same]
      (repeat' split) <;> rfl
    unfold vtBlk
    rw [hb]
    (repeat' split) <;> simp_all
  · unfold vtCb
    rw [ofNat16_bits _ 9 2 (by omega), hvt, bits_setBits_apart _ 7 2 _ 9 2 (by omega), bits_setBits_apart _ 0 5 _ 9 2 (by omega)]
  · have hbit : ∀ n : Nat, n.testBit 11 = (bits n 11 1).testBit 0 := fun n => by rw [testBit_bits]; simp
    unfold vtSat bit
    rw [hbit, hbit, ofNat16_bits _ 11 1 (by omega), hvt, bits_setBits_apart _ 7 2 _ 11 1 (by omega), bits_setBits_apart _ 0 5 _ 11 1 (by omega)]

/-- A word that ends outside the end of an active body closes no pass. -/
theorem retire_open {t : State} {w : BitVec 32} {npc : Word} (hend : npc ≠ t.thr.hid.lend) (hd : (dbgOf t).sstep = false) :
    retire w npc t = retired w npc t := by
  have hd' : (SMap.get DbgBlk.reset t.dev.dbg (3 * t.cur.1 + t.cur.2)).sstep = false := hd
  unfold retire
  cases hw : writesWstat w <;> simp [closePass, clearSkip, dbgOf, hd', retired, hw, hend]

/-- A word outside the vector queue that retires with a loop active whose body does not end behind it. -/
theorem run_done_open {s t : State} {n : Need} {body : State → Res} (hc : Calm s) (h : Ready n s) (hq : n.queued = false) (hb : body s = .done t)
    (hcfg : t.slot.cfg = s.slot.cfg) (hpc : t.thr.pc = s.thr.pc) (hdbg : dbgOf t = dbgOf s) (hend : s.thr.pc + 4 ≠ t.thr.hid.lend) :
    run n s body = retired n.word (s.thr.pc + 4) t := by
  have hg := noPort_groups h.vs
  rw [List.map_append] at hg
  rw [run_ready hc h, hb]
  unfold finish
  dsimp only
  rw [settle_none (noPort_same h.xs.left hcfg) (noPort_same hg.left hcfg) (noPort_same hg.right hcfg), enqueueReplay_off hq, hpc,
    retire_open hend (hdbg ▸ hc.nostep)]

theorem bodyBans_vloop (n : BitVec 3) (l : BitVec 4) : bodyBans (encode (.vloop n l)) = true := by
  have hm : majorOf (encode (.vloop n l)) = 0x2B := by
    rw [majorOf_eq_fld]
    simp (disch := decide) only [encode, fld_or, fld_put_apart, BitVec.or_zero]
    decide
  simp [bodyBans, hm]

/-- The pass a `vloop` begins ends behind its own first word. -/
theorem lend_ne (pc : Word) (l : BitVec 4) : pc + 4 ≠ pc + 4 + 4 * w64 (l.toNat + 1) := by
  intro h
  have h0 : (4 : Word) * w64 (l.toNat + 1) = 0 := by simpa using h
  have hl := l.isLt
  have hn := congrArg BitVec.toNat h0
  simp [w64, BitVec.toNat_mul] at hn
  omega

/-- A `vloop` while a loop is active traps, and ends the loop where it stands in the body (R111). -/
theorem gate_nested {s : State} {n : Need} (hban : bodyBans n.word = true) (hn : n.nested = true) (ha : s.thr.hid.active = true) :
    gate n s = .error (trapWord n 0x01 (n.word.setWidth 64) 0 (if inBody s then { s with thr.hid.active := false } else s)) := by
  unfold gate
  cases hb : inBody s with
  | true => simp [hban]
  | false => simp [hn, ha]

theorem grant_lstart (req avl : Nat) (s : State) (hd : s.thr.hid.damaged = []) : (grant req avl s).thr.hid.lstart = s.thr.hid.lstart := by
  rw [(grant_granted req avl hd).frame]

theorem grant_dbgOf (req avl : Nat) (s : State) (hd : s.thr.hid.damaged = []) : dbgOf (grant req avl s) = dbgOf s := by
  rw [(grant_granted req avl hd).frame]
  rfl

theorem bodyBans_nop : bodyBans (encode .nop) = false := by decide

theorem writesWstat_nop : writesWstat (encode .nop) = false := by decide

/-- The checks let a `nop` pass in a loop body. -/
theorem gate_nop {s : State} (hc : s.slot.chain = none) : gate { word := encode .nop } s = .ok s := by
  have hr : regsBad s { word := encode .nop } = false := by simp [regsBad, xPortBad]
  have hw : mustWait s { word := encode .nop } = false := by simp [mustWait, portsOf_none (noPort_nil s)]
  have hs : shapeBad s { word := encode .nop } = none := by simp [shapeBad, portsOf_none (noPort_nil s)]
  unfold gate
  simp only [bodyBans_nop, graftBreak_calm hc, hr, hw, hs, reserve_none (n := { word := encode .nop }) (noPort_nil s), Bool.and_false, Bool.false_and,
    Bool.not_true, Bool.false_eq_true, if_false]

/-- A `nop` in a loop body retires. -/
theorem exec_nop {s : State} (hc : s.slot.chain = none) (hd : s.thr.hid.damaged = []) :
    exec .nop s = .next (retire (encode .nop) (s.thr.pc + 4) s) := by
  have hexec : exec .nop s = .next (run { word := encode .nop } s (fun t => .done t)) := rfl
  have hr : damageRead s { word := encode .nop } = none := by simp [damageRead, hd]
  have hq : ∀ t : State, behindQueue t s (.done s) = .done s := fun t => by simp [behindQueue]
  rw [hexec, run, gate_nop hc]
  dsimp only
  rw [hr]
  dsimp only
  rw [hq]
  unfold finish
  dsimp only
  rw [settle_none (n := { word := encode .nop }) (noPort_nil s) (noPort_nil s) (noPort_nil s), enqueueReplay_off rfl]

theorem retire_closing {s u : State} {w : BitVec 32} {npc : Word} (hw : writesWstat w = false) (hclose : closePass (retired w npc s) = u)
    (hstep : (dbgOf u).sstep = false) : retire w npc s = u := by
  have hr : retired w npc s = clearSkip { s with
      thr.pc := npc, thr.sr.instret := s.thr.sr.instret + 1, slot.wdog := 0, slot.lastRole := s.cur.2, thr.pnd.blocked := false
      thr.pnd.wpollSince := none } := by simp [retired, hw, clearSkip]
  rw [hr] at hclose
  unfold retire
  simp only [hw, Bool.false_eq_true, if_false, hclose, hstep, Bool.false_and]

/-- The last word of a body ends its pass (R111). -/
theorem closePass_retired {s : State} (w : BitVec 32) (ha : s.thr.hid.active = true) (hinh : s.thr.sr.tstat.getLsbD 0 = false)
    (hend : s.thr.pc + 4 = s.thr.hid.lend) : closePass (retired w (s.thr.pc + 4) s) = endPass (retired w (s.thr.pc + 4) s) := by
  have hb : bit s.thr.sr.tstat.toNat 0 = false := hinh
  have hcond : (s.thr.hid.active && !bit s.thr.sr.tstat.toNat 0 && decide (s.thr.pc + 4 = s.thr.hid.lend)) = true := by
    rw [ha, hb, decide_eq_true hend]
    rfl
  unfold closePass
  exact if_pos hcond

/-- The end of a pass with elements left: a grant of them, at the body's start. -/
theorem endPass_left {s : State} (h : s.thr.hid.lcount - vvN s ≠ 0) (hd : s.thr.hid.damaged = []) :
    endPass s = { grant (loopVtype s (SMap.get Stream.empty s.thr.s s.thr.hid.lstream)) (s.thr.hid.lcount - vvN s)
      { s with thr.hid.lcount := s.thr.hid.lcount - vvN s } with thr.pc := s.thr.hid.lstart } := by
  have hl : ∀ r a, (grant r a { s with thr.hid.lcount := s.thr.hid.lcount - vvN s }).thr.hid.lstart = s.thr.hid.lstart := fun r a => grant_lstart r a _ hd
  unfold endPass
  dsimp only
  rw [if_neg h, hl]

/-- The same at the end of the body's last word. -/
theorem endPass_retired {s : State} (w : BitVec 32) (p : Word) (h : s.thr.hid.lcount - vvN s ≠ 0) (hd : s.thr.hid.damaged = []) :
    endPass (retired w p s) = { grant (loopVtype s (SMap.get Stream.empty s.thr.s s.thr.hid.lstream)) (s.thr.hid.lcount - vvN s)
      { retired w p s with thr.hid.lcount := s.thr.hid.lcount - vvN s } with thr.pc := s.thr.hid.lstart } := by
  have hv : vvN (retired w p s) = vvN s := rfl
  have ht : ∀ st, loopVtype (retired w p s) st = loopVtype s st := fun _ => rfl
  have he := endPass_left (s := retired w p s) h hd
  rwa [hv, ht] at he

theorem endPass_done {s : State} (h : s.thr.hid.lcount - vvN s = 0) : endPass s = { s with thr.hid.active := false, thr.hid.lcount := 0 } := by
  unfold endPass
  exact if_pos h

/-- Settles O24: a `vloop` that begins a pass ends before its body, and the last word of a pass grants anew or ends the loop. -/
theorem loopPasses : Obligations.LoopPasses := by
  have hvloop : ∀ n l s, exec (.vloop n l) s = execVloop n l s := fun _ _ _ => rfl
  constructor
  · intro s n l hc hf st count stop
    refine ⟨fun hl => ?_, fun hl h0 => ?_, fun hl hpos => ?_, fun t ha hq => ?_⟩
    · rw [hvloop]
      exact congrArg _ (run_error hc.ahead (gate_register hc rfl (fun _ => hf) rfl (regsBad_own hl)))
    · have hready : Ready { word := encode (.vloop n l), vt := true, regOk := st.loaded, st := [n.toNat], nested := true } s :=
        plain_ready rfl (fun _ => hf) rfl hl (noPort_nil s) rfl rfl rfl rfl rfl
      rw [hvloop]
      exact congrArg _ (run_jump_unqueued hc hready rfl (if_pos h0) (.refl s))
    · have hready : Ready { word := encode (.vloop n l), vt := true, regOk := st.loaded, st := [n.toNat], nested := true } s :=
        plain_ready rfl (fun _ => hf) rfl hl (noPort_nil s) rfl rfl rfl rfl rfl
      obtain ⟨b, hb⟩ : ∃ b : State, b = { s with
        thr.hid.active := true, thr.hid.lstart := s.thr.pc + 4, thr.hid.lend := stop, thr.hid.lcount := count, thr.hid.lstream := n.toNat } := ⟨_, rfl⟩
      have hg := grant_granted (s := b) (loopVtype s st) count (by rw [hb]; exact hc.whole)
      refine ⟨grant (loopVtype s st) count b, _, ?_, loopType_loopVtype s st, hb ▸ hg⟩
      have hcourse := granted_course hg
      have hcfg : (grant (loopVtype s st) count b).slot.cfg = s.slot.cfg := hcourse.cfg.trans (by rw [hb])
      have hpc : (grant (loopVtype s st) count b).thr.pc = s.thr.pc := hcourse.pc.trans (by rw [hb])
      have hlend : (grant (loopVtype s st) count b).thr.hid.lend = stop := by rw [hg.frame, hb]
      have hdbg : dbgOf (grant (loopVtype s st) count b) = dbgOf s := by
        rw [grant_dbgOf _ _ _ (by rw [hb]; exact hc.whole), hb]
        rfl
      rw [hvloop]
      refine congrArg _ (run_done_open hc hready rfl ?_ hcfg hpc hdbg ?_)
      · rw [hb]
        exact if_neg (Nat.pos_iff_ne_zero.mp hpos)
      · rw [hlend]
        exact lend_ne s.thr.pc l
    · rw [hvloop]
      have hgate := gate_nested (n := { word := encode (.vloop n l), vt := true, regOk := (streamOf t n.toNat).loaded, st := [n.toNat], nested := true })
        (bodyBans_vloop n l) rfl ha
      refine congrArg _ ((run_error hq hgate).trans ?_)
      cases inBody t <;> rfl
  · intro s hchain hstep hd ha hinh hend left st
    have hclose := closePass_retired (encode .nop) ha hinh hend
    refine ⟨fun h0 => ?_, fun hpos => ?_⟩
    · have he := hclose.trans (endPass_done h0)
      exact (exec_nop hchain hd).trans (congrArg _ (retire_closing writesWstat_nop he hstep))
    · obtain ⟨b, hb⟩ : ∃ b : State, b = { retired (encode .nop) (s.thr.pc + 4) s with thr.hid.lcount := left } := ⟨_, rfl⟩
      have hdb : b.thr.hid.damaged = [] := by rw [hb]; exact hd
      have he := hclose.trans (endPass_retired (encode .nop) (s.thr.pc + 4) (Nat.pos_iff_ne_zero.mp hpos) hd)
      rw [← hb] at he
      have hsb : dbgOf b = dbgOf s := by rw [hb]; rfl
      have hdbg : dbgOf (grant (loopVtype s st) left b) = dbgOf s := (grant_dbgOf _ _ _ hdb).trans hsb
      refine ⟨grant (loopVtype s st) left b, _, ?_, loopType_loopVtype s st, hb ▸ grant_granted (loopVtype s st) left hdb⟩
      exact (exec_nop hchain hd).trans (congrArg _ (retire_closing writesWstat_nop he (hdbg ▸ hstep)))

end Sys2Proof.Machine
end

section
/-! PROOFS. Divergence: `vbr`, `vjoin`, `vbany` and `vball`, with the fragments on chip and in the spill area (O25). -/

namespace Sys2Proof.Machine

theorem ready_diverge {s : State} {w : BitVec 32} {l : List Nat} (hf : fmtN s ≠ 0) : Ready { word := w, vt := true, kr := l } s :=
  plain_ready rfl (fun _ => hf) rfl rfl (noPort_nil s) rfl rfl rfl rfl rfl

theorem length_fragBytes (f : Frag) : (fragBytes f).length = 8208 := by simp [fragBytes, length_leBytes]

theorem pushFrag_room {f : Frag} {s : State} (h : s.thr.hid.frags.length < 8) :
    pushFrag f s = .ok { s with thr.hid.frags := s.thr.hid.frags ++ [f] } := by simp [pushFrag, h]

/-- With 8 fragments on chip the oldest is spilled first (R131). -/
theorem pushFrag_full {f old : Frag} {rest : List Frag} {s : State} (h : s.thr.hid.frags = old :: rest) (hl : rest.length = 7) :
    (∀ a, spillWrite (s.thr.hid.fsbase.toNat + 8208 * s.thr.hid.fspilled) (fragBytes old) s = .error a → pushFrag f s = .error a) ∧
    ∀ t, spillWrite (s.thr.hid.fsbase.toNat + 8208 * s.thr.hid.fspilled) (fragBytes old) s = .ok t →
      pushFrag f s = .ok { t with thr.hid.fspilled := s.thr.hid.fspilled + 1, thr.hid.frags := rest ++ [f] } := by
  constructor <;> intro r hr <;> simp [pushFrag, h, hl, hr]

/-- The body of `vbr` (R130). -/
def vbrBody (a : BitVec 3) (o : BitVec 16) (s : State) : Res :=
  let act := actMask s
  let t := act &&& condMask s a
  let f := act - t
  match pushFrag ⟨s.thr.hid.exm, BitVec.ofNat 32768 f, s.thr.pc + 4, t != 0 && f != 0⟩ s with
  | .error addr => .trap 0x0E (w64 addr) 0 s
  | .ok u => if t != 0 then .jump (target s.thr.pc o) { u with thr.hid.exm := BitVec.ofNat 32768 t } else .done u

theorem exec_vbr (a : BitVec 3) (o : BitVec 16) (s : State) :
    exec (.vbr a o) s = .next (run { word := encode (.vbr a o), vt := true, kr := if a = 0 then [] else [a.toNat] } s (vbrBody a o)) := rfl

/-- The fragment that `vbr` pushes. -/
def branchFrag (a : BitVec 3) (s : State) : Frag :=
  ⟨s.thr.hid.exm, BitVec.ofNat 32768 (actMask s - (actMask s &&& condMask s a)), s.thr.pc + 4,
    decide (actMask s &&& condMask s a ≠ 0) && decide (actMask s - (actMask s &&& condMask s a) ≠ 0)⟩

theorem bne_zero_eq (n : Nat) : (n != 0) = decide (n ≠ 0) := by
  by_cases h : n = 0 <;> simp [h]

/-- `vbr` goes on where the true path is, or at the next word, once the fragment is pushed. -/
theorem run_vbr {a : BitVec 3} {o : BitVec 16} {s u : State} (hc : Calm s) (hf : fmtN s ≠ 0) (hp : pushFrag (branchFrag a s) s = .ok u)
    (hk : SameCourse s u) :
    exec (.vbr a o) s = .next (if actMask s &&& condMask s a = 0 then retired (encode (.vbr a o)) (s.thr.pc + 4) u
      else retired (encode (.vbr a o)) (s.thr.pc + 4 * o.signExtend 64) { u with thr.hid.exm := BitVec.ofNat 32768 (actMask s &&& condMask s a) }) := by
  have hbody : vbrBody a o s = if actMask s &&& condMask s a = 0 then .done u
      else .jump (s.thr.pc + 4 * o.signExtend 64) { u with thr.hid.exm := BitVec.ofNat 32768 (actMask s &&& condMask s a) } := by
    unfold branchFrag at hp
    unfold vbrBody
    simp only [bne_zero_eq, hp, target_eq, decide_eq_true_eq, ite_not]
  rw [exec_vbr]
  by_cases ht : actMask s &&& condMask s a = 0
  · rw [if_pos ht] at hbody ⊢
    exact congrArg _ (run_done_unqueued hc (ready_diverge hf) rfl hbody hk)
  · rw [if_neg ht] at hbody ⊢
    exact congrArg _ (run_jump_unqueued hc (ready_diverge hf) rfl hbody (hk.trans ⟨rfl, rfl, rfl, rfl, rfl⟩))

/-- `vbr` traps where the fragment cannot be pushed. -/
theorem trap_vbr {a : BitVec 3} {o : BitVec 16} {s : State} {b : Nat} (hc : Calm s) (hf : fmtN s ≠ 0)
    (hp : pushFrag (branchFrag a s) s = .error b) : exec (.vbr a o) s = .next (takeTrap (encode (.vbr a o)) 0x0E s.thr.pc (w64 b) 0 s) := by
  rw [exec_vbr]
  refine congrArg _ (run_trap hc (ready_diverge hf) ?_)
  unfold branchFrag at hp
  unfold vbrBody
  simp only [bne_zero_eq, hp]

/-! ## The join (R130, R131) -/

/-- The body of `vjoin`. -/
def vjoinBody (o : BitVec 16) (s : State) : Res :=
  let tgt := target s.thr.pc o
  match s.thr.hid.frags.getLast? with
  | some e => joinTop e s.thr.hid.frags.dropLast tgt s
  | none =>
    if s.thr.hid.fspilled = 0 then .jump tgt s
    else match spillRead (s.thr.hid.fsbase.toNat + 8208 * (s.thr.hid.fspilled - 1)) 8208 s with
      | .trap c v v2 _ => .trap c (w64 v) (w64 (v2.getD 0)) s
      | .wait q => .wait (askFor q s)
      | .ok bs locs => joinTop (fragOf (leNat bs)) [] tgt (afterLoad 15 locs { s with thr.hid.fspilled := s.thr.hid.fspilled - 1 })

theorem exec_vjoin (o : BitVec 16) (s : State) :
    exec (.vjoin o) s = .next (run { word := encode (.vjoin o), vt := true } s (vjoinBody o)) := rfl

theorem run_joinTop {o : BitVec 16} {s u : State} {e : Frag} {rest : List Frag} (hc : Calm s) (hf : fmtN s ≠ 0)
    (hb : vjoinBody o s = joinTop e rest (target s.thr.pc o) u) (hk : SameCourse s u) :
    exec (.vjoin o) s = .next (if e.pend then retired (encode (.vjoin o)) e.pc
        { u with thr.hid.frags := rest ++ [{ e with pend := false }], thr.hid.exm := e.fls }
      else retired (encode (.vjoin o)) (s.thr.pc + 4 * o.signExtend 64) { u with thr.hid.frags := rest, thr.hid.exm := e.outer }) := by
  rw [exec_vjoin]
  rw [joinTop, target_eq] at hb
  cases hp : e.pend with
  | true =>
    rw [hp, if_pos rfl] at hb
    exact congrArg _ (run_jump_unqueued hc (ready_diverge hf) rfl hb (hk.trans ⟨rfl, rfl, rfl, rfl, rfl⟩))
  | false =>
    rw [hp, if_neg (by simp)] at hb
    exact congrArg _ (run_jump_unqueued hc (ready_diverge hf) rfl hb (hk.trans ⟨rfl, rfl, rfl, rfl, rfl⟩))

/-- A fragment read back from its bytes (R131). -/
theorem fragOf_eq (n : Nat) : fragOf n =
    ⟨BitVec.ofNat 32768 (n / 2 ^ 128), BitVec.ofNat 32768 (n / 2 ^ 32896), w64 (n / 4 % 2 ^ 62 * 4), n.testBit 0⟩ := by
  have hv : ∀ k, BitVec.ofNat 32768 (bits n k 32768) = BitVec.ofNat 32768 (n / 2 ^ k) := fun k => by
    rw [bits, Nat.shiftRight_eq_div_pow]
    exact BitVec.eq_of_toNat_eq (by rw [BitVec.toNat_ofNat, BitVec.toNat_ofNat, Nat.mod_mod])
  have hp : bits n 2 62 = n / 4 % 2 ^ 62 := by rw [bits, Nat.shiftRight_eq_div_pow]
  rw [fragOf, hv, hv, hp]
  rfl

theorem run_vbany {a : BitVec 3} {o : BitVec 16} {s : State} (hc : Calm s) (hf : fmtN s ≠ 0) :
    exec (.vbany a o) s = .next (retired (encode (.vbany a o))
      (if actMask s &&& condMask s a = 0 then s.thr.pc + 4 else s.thr.pc + 4 * o.signExtend 64) s) := by
  have hexec : exec (.vbany a o) s = execVbany a o s := rfl
  rw [hexec, execVbany]
  by_cases ht : actMask s &&& condMask s a = 0
  · rw [if_pos ht]
    exact congrArg _ (run_done_unqueued hc (ready_diverge hf) rfl (if_neg (by simpa using ht)) (.refl s))
  · rw [if_neg ht, ← target_eq]
    exact congrArg _ (run_jump_unqueued hc (ready_diverge hf) rfl (if_pos (by simpa using ht)) (.refl s))

theorem run_vball {a : BitVec 3} {o : BitVec 16} {s : State} (hc : Calm s) (hf : fmtN s ≠ 0) :
    exec (.vball a o) s = .next (retired (encode (.vball a o))
      (if actMask s &&& condMask s a = actMask s then s.thr.pc + 4 * o.signExtend 64 else s.thr.pc + 4) s) := by
  have hexec : exec (.vball a o) s = execVball a o s := rfl
  rw [hexec, execVball]
  by_cases ht : actMask s &&& condMask s a = actMask s
  · rw [if_pos ht, ← target_eq]
    exact congrArg _ (run_jump_unqueued hc (ready_diverge hf) rfl (if_pos ht) (.refl s))
  · rw [if_neg ht]
    exact congrArg _ (run_done_unqueued hc (ready_diverge hf) rfl (if_neg ht) (.refl s))

/-- Settles O25, word by word. -/
theorem divergence : Obligations.Divergence := by
  intro s hc hf a o act cond tgt frag goes
  refine ⟨fun hroom => ?_, fun old rest hfr hlen => ?_, fun l e hfr => ?_, fun hfr h0 => ?_, fun hfr n hn => ?_, ?_, ?_⟩
  · exact run_vbr hc hf (pushFrag_room hroom) ⟨rfl, rfl, rfl, rfl, rfl⟩
  · intro base
    refine ⟨fun c b hx => ?_, fun locs hx => ?_⟩
    · have hw : spillWrite base (fragBytes old) s = .error b := spillWrite_fails (c := c) (by rw [length_fragBytes]; exact hx)
      exact trap_vbr hc hf ((pushFrag_full hfr hlen).1 _ hw)
    · have hw := spillWrite_passes (addr := base) (bs := fragBytes old) (by rw [length_fragBytes]; exact hx)
      exact run_vbr hc hf ((pushFrag_full hfr hlen).2 _ hw) ⟨rfl, rfl, rfl, rfl, rfl⟩
  · exact run_joinTop hc hf (by simp [vjoinBody, hfr]) (.refl s)
  · rw [exec_vjoin]
    refine congrArg _ (run_jump_unqueued hc (ready_diverge hf) rfl ?_ (.refl s))
    simp [vjoinBody, hfr, h0, target_eq, tgt]
  · intro base
    have hlast : s.thr.hid.frags.getLast? = none := by rw [hfr, List.getLast?_nil]
    refine ⟨fun c b hx => ?_, fun locs bs hx hl => ?_⟩
    · have hr : spillRead (s.thr.hid.fsbase.toNat + 8208 * n) 8208 s = .trap 0x0E b none 0 := spillRead_fails hx
      rw [exec_vjoin]
      refine congrArg _ (run_trap hc (ready_diverge hf) ?_)
      simp only [vjoinBody, hlast, hn, Nat.add_sub_cancel, hr]
      exact if_neg (Nat.succ_ne_zero n)
    · have hr : spillRead (s.thr.hid.fsbase.toNat + 8208 * n) 8208 s = .ok bs locs := (spillRead_passes hx).trans hl
      intro u
      have hk : SameCourse s u := SameCourse.trans (t := { s with thr.hid.fspilled := n }) ⟨rfl, rfl, rfl, rfl, rfl⟩ (afterLoad_same _ _ _)
      have hb : vjoinBody o s = joinTop (fragOf (leNat bs)) [] (target s.thr.pc o) u := by
        simp only [vjoinBody, hlast, hn, Nat.add_sub_cancel, hr]
        exact if_neg (Nat.succ_ne_zero n)
      have h := run_joinTop hc hf hb hk
      rw [fragOf_eq] at h
      exact h
  · exact run_vbany hc hf
  · exact run_vball hc hf

end Sys2Proof.Machine
end

section
/-! PROOFS. The state registers: what `mfs` reads, what `mts` may write, and what a register reads after a write (O32). -/

namespace Sys2Proof.Machine

/-- The registers that device code may write, by number (R11). -/
def writableNumbers : List Nat :=
  [0x02, 0x10, 0x11, 0x18, 0x19, 0x1A, 0x20, 0x21, 0x22, 0x23, 0x24, 0x25, 0x26, 0x48, 0x49, 0x4A, 0x4B, 0x4C]

theorem sregWritable_iff (sel : Nat) : sregWritable sel = true ↔ sel ∈ writableNumbers := by
  simp only [sregWritable, writableNumbers, Bool.or_eq_true, Bool.and_eq_true, decide_eq_true_eq, List.mem_cons, List.not_mem_nil, or_false]
  omega

theorem writeSreg_same (sel : Nat) (v : Word) (s : State) : SameCourse s (writeSreg sel v s) := by
  unfold writeSreg
  split <;> exact ⟨rfl, rfl, rfl, rfl, rfl⟩

/-- A write changes what its own register reads, by the access codes of its fields (R6). -/
theorem readSreg_writeSreg_self {sel : Nat} (h : sregWritable sel = true) (v : Word) (s : State) :
    readSreg (writeSreg sel v s) sel = some
      (if sel = 0x10 then v &&& 0x1F07 else if sel = 0x11 then v &&& 0x1F else if sel = 0x18 then v &&& 7
       else if sel = 0x19 then v &&& 0xFFFFFFFF else if sel = 0x1A then v &&& 7 else if sel = 0x20 then v &&& 0xFF
       else if sel = 0x25 then v &&& 0xFFFFFFFFFFFFC else if sel = 0x26 then (s.thr.sr.tstat &&& ~~~1) ||| (v &&& 1)
       else if 0x48 ≤ sel ∧ sel ≤ 0x4B then v &&& 0xFC0FFFFFFFFFFFFF
       else if sel = 0x4C then (s.thr.sr.wstat &&& 0xF &&& ~~~v) ||| (v &&& 0x10) else v) := by
  rw [sregWritable_iff] at h
  simp only [writableNumbers, List.mem_cons, List.not_mem_nil, or_false] at h
  rcases h with rfl | rfl | rfl | rfl | rfl | rfl | rfl | rfl | rfl | rfl | rfl | rfl | rfl | rfl | rfl | rfl | rfl | rfl <;>
    simp [readSreg, writeSreg]

/-- And no other register's reading. -/
theorem readSreg_writeSreg_other {sel : Nat} (h : sregWritable sel = true) (v : Word) (s : State) {other : Nat} (ho : other ≠ sel) :
    readSreg (writeSreg sel v s) other = readSreg s other := by
  rw [sregWritable_iff] at h
  simp only [writableNumbers, List.mem_cons, List.not_mem_nil, or_false] at h
  rcases h with rfl | rfl | rfl | rfl | rfl | rfl | rfl | rfl | rfl | rfl | rfl | rfl | rfl | rfl | rfl | rfl | rfl | rfl
  all_goals
    unfold readSreg
    split
  any_goals rfl
  all_goals simp_all [writeSreg, SMap.get_set]

theorem sregPrivileged_iff (sel : BitVec 12) : sregPrivileged sel.toNat = true ↔ sel = 0x005 ∨ sel = 0x040 ∨ sel = 0x041 := by
  have h : ∀ c : BitVec 12, sel.toNat = c.toNat ↔ sel = c := fun c => BitVec.toNat_inj
  simp only [sregPrivileged, Bool.or_eq_true, decide_eq_true_eq, ← h, or_assoc]
  rfl

theorem not_sregWritable_of_privileged {sel : BitVec 12} (h : sel = 0x005 ∨ sel = 0x040 ∨ sel = 0x041) : sregWritable sel.toNat = false := by
  rcases h with rfl | rfl | rfl <;> decide

/-- An `mts` that may not write traps with its word (R12). -/
theorem exec_mts_refused {s : State} {a : BitVec 5} {sel : BitVec 12} (hw : sregWritable sel.toNat = false) (hq : queuedAhead s = 0) :
    exec (.mts a sel) s = .next (takeTrap (encode (.mts a sel)) (if sregPrivileged sel.toNat then 0x05 else 0x01) s.thr.pc
      ((encode (.mts a sel)).setWidth 64) 0 s) := by
  have hexec : exec (.mts a sel) s = execMts a sel s := rfl
  rw [hexec, execMts]
  simp only [hw, inOrder, hq, Bool.false_eq_true, if_false, if_true]

/-- Settles O32: `mfs` and `mts` by their guards, and the fields of the registers by their codes. -/
theorem stateRegisters : Obligations.StateRegisters := by
  refine ⟨fun s d sel => ⟨fun v hv hc hp hb => ?_, fun hv hq => ?_⟩, fun s a sel => ⟨fun hw hc hp hb => ?_, fun hs hq => ?_, fun hw h5 h40 h41 hq => ?_⟩,
    fun s sel v hw => ⟨readSreg_writeSreg_self hw v s, fun other ho => readSreg_writeSreg_other hw v s ho⟩⟩
  · have hexec : exec (.mfs d sel) s = .next (run { word := encode (.mfs d sel), xw := [d.toNat], drain := sregWaits sel.toNat } s (fun s =>
        if sregWaits sel.toNat && matrixBusy s then .wait s else .done (wx d.toNat ((readSreg s sel.toNat).getD 0) s))) := by
      have h : exec (.mfs d sel) s = execMfs d sel s := rfl
      rw [h, execMfs, hv]
    have hready : Ready { word := encode (.mfs d sel), xw := [d.toNat], drain := sregWaits sel.toNat } s :=
      plain_ready rfl nofun rfl rfl hp rfl rfl rfl rfl rfl
    rw [hexec]
    refine congrArg _ (run_done_unqueued hc hready rfl ?_ (wx_same hp))
    have hfree : (sregWaits sel.toNat && matrixBusy s) = false := by rcases hb with h | h <;> simp [h]
    rw [hfree, hv]
    rfl
  · have h : exec (.mfs d sel) s = execMfs d sel s := rfl
    rw [h, execMfs, hv]
    simp only [inOrder, hq, if_true]
  · have hready : Ready { word := encode (.mts a sel), xr := [a.toNat], drain := sel = 0x011 || sel = 0x01A } s :=
      plain_ready rfl nofun rfl rfl (by simpa using hp) rfl rfl rfl rfl rfl
    have hexec : exec (.mts a sel) s = execMts a sel s := rfl
    rw [hexec, execMts, hw]
    refine congrArg _ ((run_done_unqueued hc hready rfl ?_ (writeSreg_same _ _ _)))
    rw [hb, Bool.and_false]
    rfl
  · rw [exec_mts_refused (not_sregWritable_of_privileged hs) hq, (sregPrivileged_iff sel).mpr hs]
    rfl
  · have hp : sregPrivileged sel.toNat = false := by
      rw [← Bool.not_eq_true, sregPrivileged_iff]
      rintro (h | h | h)
      exacts [h5 h, h40 h, h41 h]
    rw [exec_mts_refused hw hq, hp]
    rfl

end Sys2Proof.Machine
end

section
/-! PROOFS. Elementwise vector words (O33): each is a sweep that carries out one element of its form after the other, and a sweep either goes
through or stops at the first written element with an enabled flag. -/

namespace Sys2Proof.Machine

/-! ## What an elementwise word is -/

/-- Element i of an elementwise word: its flags decide, then its code is written (R46). -/
def formElement (s : State) (F : VecForm) (i : Nat) (t : State) : El :=
  if activeAt s F.k.toNat i then floatEl (F.val i).2 (setElemV F.d.toNat F.ew i (F.val i).1) t else .ok t

/-- A state is left by a word that its form describes: it needs what the form needs, and sweeps over the form's elements. -/
def RunsForm (w : BitVec 32) (s : State) (F : VecForm) (t : State) : Prop :=
  ∃ (n : Need) (body : State → Res), t = run n s body ∧ n.word = w ∧ n.queued = true ∧ n.vs0 = false ∧ (VecReady s F → Ready n s) ∧
    body s = stripWord (ewN s) (formElement s F) s

theorem ready_form {s : State} {F : VecForm} {n : Need} (h : VecReady s F) (hrole : n.roleOk = true) (hfmt : n.fmtOk = true) (hown : n.regOk = true)
    (hx : ∀ r ∈ n.xr, r ∈ F.xs.map BitVec.toNat) (hxw : n.xw = []) (hvr : ∀ g ∈ n.vr, g ∈ F.vr ∨ g = (F.d.toNat, F.g))
    (hvw : n.vw = [(F.d.toNat, F.g)]) (hmr : n.mr = []) (hmw : n.mw = []) : Ready n s := by
  have hdst : 0 < F.g ∧ GroupOk s (F.d.toNat, F.g) := ⟨h.factor, h.dst⟩
  refine ⟨hrole, fun _ => h.legal, hfmt, hown, ?_, fun g hg => ?_, ?_, fun _ => h.ok.room⟩
  · rw [hxw, List.append_nil]
    exact h.xs.of_mem hx
  · rcases List.mem_append.mp hg with hg | hg
    · rcases hvr g hg with hg | rfl
      · exact h.srcs g hg
      · exact hdst
    · rw [hvw, List.mem_singleton] at hg
      exact hg ▸ hdst
  · rw [hmr, hmw]
    nofun

theorem mergeFlags_none (s : State) : mergeFlags 0 s = s := by
  have h : s.thr.sr.fpflags ||| w64 (0 % 32) = s.thr.sr.fpflags := by simp [w64]
  simp [mergeFlags, h]

theorem enabledFlags_none (s : State) : enabledFlags s 0 = 0 := by simp [enabledFlags]

/-- An element without flags only writes. -/
theorem floatEl_none (put : State → State) (s : State) : floatEl 0 put s = .ok (put s) := by
  simp [floatEl, enabledFlags_none, mergeFlags_none]

theorem floatEl_free {fl : Nat} {put : State → State} {s : State} (h : enabledFlags s fl = 0) : floatEl fl put s = .ok (put (mergeFlags fl s)) := by
  simp [floatEl, h]

theorem floatEl_enabled {fl : Nat} {put : State → State} {s : State} (h : enabledFlags s fl ≠ 0) :
    floatEl fl put s = .trap 0x10 (enabledFlags s fl) (some 0) 0 := by simp [floatEl, h]

theorem activeWord_congr {k : BitVec 3} {f g : Nat → State → El} {s : State} (h : ∀ i t, f i t = g i t) :
    activeWord k f s = stripWord (ewN s) (fun i t => if activeAt s k.toNat i then g i t else .ok t) s := by
  have hfg : f = g := funext fun i => funext fun t => h i t
  rw [activeWord, hfg]

/-! ## The shared forms -/

theorem bElem_eq (s : State) (x : BitVec 1) (b : BitVec 5) (i : Nat) : bElem s x b (ewN s) i = operandB s x b i := by
  unfold bElem operandB xElem
  simp [bits]

theorem mem_bRegs {x : BitVec 1} {b : BitVec 5} {r : Nat} (h : r ∈ bRegs x b) : r ∈ (if x = 1 then [b] else []).map BitVec.toNat := by
  unfold bRegs at h
  split at h <;> simp_all

theorem mem_bGroup {s : State} {x : BitVec 1} {b : BitVec 5} {l : List (BitVec 5)} {g : Nat × Nat} (h : g ∈ bGroup s x b) (hl : x ≠ 1 → b ∈ l) :
    g ∈ l.map (fun r => (r.toNat, grpN s)) := by
  unfold bGroup at h
  split at h
  · cases h
  · rename_i hx
    rw [List.mem_singleton.mp h]
    exact List.mem_map_of_mem (hl hx)

/-- A word that works on codes. -/
theorem codeWord_runs {w : BitVec 32} {fmtOk : State → Bool} {x : BitVec 1} {d a b : BitVec 5} {k : BitVec 3} {useA useB useD : Bool}
    {f : State → Nat → Nat → Nat → Nat} {s : State} {ok : Bool} {srcs xs : List (BitVec 5)} {val : Nat → Nat × Nat} (hok : ok = fmtOk s)
    (ha : useA = true → a ∈ srcs) (hb : useB = true → x ≠ 1 → b ∈ srcs) (hx : useB = true → x = 1 → b ∈ xs)
    (hval : ∀ i, val i = (f s (elemV s a.toNat (ewN s) i) (if useB then operandB s x b i else 0) (elemV s d.toNat (ewN s) i), 0)) :
    RunsForm w s (plainForm s ok d k srcs xs val) (codeWord w fmtOk x d a b k useA useB useD f s) := by
  refine ⟨_, _, rfl, rfl, rfl, rfl, fun hr => ready_form hr rfl (hok ▸ hr.fmt) rfl ?_ rfl ?_ rfl rfl rfl, ?_⟩
  · intro r hr
    cases hB : useB with
    | false => simp [hB] at hr
    | true =>
      simp only [hB, if_true] at hr
      unfold bRegs at hr
      split at hr
      · rename_i h1
        rw [List.mem_singleton.mp hr]
        exact List.mem_map_of_mem (hx hB h1)
      · cases hr
  · intro g hg
    rcases List.mem_append.mp hg with hg | hg
    · rcases List.mem_append.mp hg with hg | hg
      · cases hA : useA with
        | false => simp [hA] at hg
        | true =>
          simp only [hA, if_true, List.mem_singleton] at hg
          exact .inl (hg ▸ List.mem_map_of_mem (f := fun r : BitVec 5 => (r.toNat, grpN s)) (ha hA))
      · cases hB : useB with
        | false => simp [hB] at hg
        | true => exact .inl (mem_bGroup (by simpa [hB] using hg) (hb hB))
    · cases hD : useD with
      | false => simp [hD] at hg
      | true => exact .inr (by simpa [hD, grp, plainForm] using hg)
  · refine activeWord_congr (fun i t => ?_)
    have hv := hval i
    show _ = floatEl (val i).2 (setElemV d.toNat (ewN s) i (val i).1) t
    rw [hv, floatEl_none, bElem_eq]

/-- A word that works on float values. -/
theorem floatWord_runs {w : BitVec 32} {x : BitVec 1} {d a b : BitVec 5} {k : BitVec 3} {useB useD : Bool} {f : RM → FV → FV → FV → FV × Nat}
    {s : State} {srcs xs : List (BitVec 5)} {val : Nat → Nat × Nat} (ha : a ∈ srcs) (hb : useB = true → x ≠ 1 → b ∈ srcs)
    (hx : useB = true → x = 1 → b ∈ xs)
    (hval : ∀ i, val i =
      let r := f (rmN s) (foperand (fmtN s) (ftzN s) (elemV s a.toNat (ewN s) i))
        (if useB then foperand (fmtN s) (ftzN s) (operandB s x b i) else .nan false) (foperand (fmtN s) (ftzN s) (elemV s d.toNat (ewN s) i))
      let c := roundTo (fmtN s) (rmN s) false (ftzN s) r.1
      (c.1, r.2 ||| c.2)) :
    RunsForm w s (plainForm s (floatOk s) d k srcs xs val) (floatWord w x d a b k useB useD f s) := by
  refine ⟨_, _, rfl, rfl, rfl, rfl, fun hr => ready_form hr rfl hr.fmt rfl ?_ rfl ?_ rfl rfl rfl, ?_⟩
  · intro r hr
    cases hB : useB with
    | false => simp [hB] at hr
    | true =>
      simp only [hB, if_true] at hr
      unfold bRegs at hr
      split at hr
      · rename_i h1
        rw [List.mem_singleton.mp hr]
        exact List.mem_map_of_mem (hx hB h1)
      · cases hr
  · intro g hg
    rcases List.mem_cons.mp hg with rfl | hg
    · exact .inl (List.mem_map_of_mem (f := fun r : BitVec 5 => (r.toNat, grpN s)) ha)
    · rcases List.mem_append.mp hg with hg | hg
      · cases hB : useB with
        | false => simp [hB] at hg
        | true => exact .inl (mem_bGroup (by simpa [hB] using hg) (hb hB))
      · cases hD : useD with
        | false => simp [hD] at hg
        | true => exact .inr (by simpa [hD, grp, plainForm] using hg)
  · refine activeWord_congr (fun i t => ?_)
    have hv := hval i
    show _ = floatEl (val i).2 (setElemV d.toNat (ewN s) i (val i).1) t
    rw [hv, ← bElem_eq]

/-- A transcendental. -/
theorem transWord_runs {w : BitVec 32} {f : TFun} {d a : BitVec 5} {k : BitVec 3} {s : State} :
    RunsForm w s (transForm s d a k f) (transWord w f d a k s) := by
  refine ⟨_, _, rfl, rfl, rfl, rfl, fun hr => ready_form hr rfl hr.fmt rfl nofun rfl (fun g hg => ?_) rfl rfl rfl, rfl⟩
  exact .inl hg

theorem mem_sources (x : BitVec 1) (a b : BitVec 5) : a ∈ (if x = 1 then [a] else [a, b]) ∧ (x ≠ 1 → b ∈ (if x = 1 then [a] else [a, b])) := by
  constructor
  · split <;> exact List.mem_cons_self
  · intro h
    rw [if_neg h]
    exact List.mem_cons_of_mem _ List.mem_cons_self

theorem mem_scalar {x : BitVec 1} {b : BitVec 5} (h : x = 1) : b ∈ (if x = 1 then [b] else []) := by
  rw [if_pos h]
  exact List.mem_cons_self

theorem mem_vector {x : BitVec 1} {b : BitVec 5} (h : x ≠ 1) : b ∈ (if x = 1 then [] else [b]) := by
  rw [if_neg h]
  exact List.mem_cons_self

/-- An integer word: its result on the codes is that of its form on the integers they stand for. -/
theorem intWord_runs {w : BitVec 32} {x : BitVec 1} {d a b : BitVec 5} {k : BitVec 3} {useD : Bool} {f : Nat → Nat → Nat → Nat → Nat → Nat}
    {g : Int → Int → Int → Int} {s : State} (hval : ∀ u v z, f (fmtN s) (ewN s) u v z =
      ofSigned (ewN s) (g (intElem (fmtN s) u) (intElem (fmtN s) v) (intElem (fmtN s) z))) :
    RunsForm w s (intForm s x d a b k g) (intWord w x d a b k true useD f s) :=
  codeWord_runs rfl (fun _ => (mem_sources x a b).1) (fun _ => (mem_sources x a b).2) (fun _ => mem_scalar)
    (fun _ => by simp only [if_true, hval])

/-- A word on codes of two operands. -/
theorem codeForm_runs {w : BitVec 32} {fmtOk : State → Bool} {x : BitVec 1} {d a b : BitVec 5} {k : BitVec 3}
    {f : State → Nat → Nat → Nat → Nat} {g : Nat → Nat → Nat} {s : State} (hval : ∀ u v z, f s u v z = g u v) :
    RunsForm w s (codeForm s (fmtOk s) x d a b k g) (codeWord w fmtOk x d a b k true true false f s) :=
  codeWord_runs rfl (fun _ => (mem_sources x a b).1) (fun _ => (mem_sources x a b).2) (fun _ => mem_scalar)
    (fun _ => by simp only [if_true, hval])

/-- A word on the codes of A alone. -/
theorem codeForm_runs_one {w : BitVec 32} {fmtOk : State → Bool} {d a : BitVec 5} {k : BitVec 3}
    {f : State → Nat → Nat → Nat → Nat} {g : Nat → Nat → Nat} {s : State} (hval : ∀ u v z v', f s u v z = g u v') :
    RunsForm w s { codeForm s (fmtOk s) 0 d a a k g with vr := [(a.toNat, grpN s)] } (codeWord w fmtOk 0 d a 0 k true false false f s) :=
  codeWord_runs (srcs := [a]) (xs := []) rfl (fun _ => List.mem_singleton.mpr rfl) nofun nofun (fun _ => congrArg (fun c => (c, 0)) (hval _ _ _ _).symm)

/-- A copy of operand B. -/
theorem copyForm_runs {w : BitVec 32} {fmtOk : State → Bool} {x : BitVec 1} {d b : BitVec 5} {k : BitVec 3}
    {f : State → Nat → Nat → Nat → Nat} {s : State} (hval : ∀ u v z, f s u v z = v) :
    RunsForm w s { codeForm s (fmtOk s) x d b b k (fun _ b => b) with vr := if x = 1 then [] else [(b.toNat, grpN s)] }
      (codeWord w fmtOk x d 0 b k false true false f s) := by
  have hF : ({ codeForm s (fmtOk s) x d b b k (fun _ b => b) with vr := if x = 1 then [] else [(b.toNat, grpN s)] } : VecForm) =
      plainForm s (fmtOk s) d k (if x = 1 then [] else [b]) (if x = 1 then [b] else []) (fun i => (operandB s x b i, 0)) := by
    unfold codeForm plainForm
    split <;> rfl
  rw [hF]
  exact codeWord_runs rfl nofun (fun _ => mem_vector) (fun _ => mem_scalar) (fun _ => by simp only [if_true, hval])

/-- A float word of two or three operands. -/
theorem floatForm_runs {w : BitVec 32} {x : BitVec 1} {d a b : BitVec 5} {k : BitVec 3} {useD : Bool} {f : RM → FV → FV → FV → FV × Nat}
    {g : FV → FV → FV → FV × Nat} {s : State} (hval : ∀ u v z, f (rmN s) u v z = g u v z) :
    RunsForm w s (floatForm s x d a b k g) (floatWord w x d a b k true useD f s) :=
  floatWord_runs (mem_sources x a b).1 (fun _ => (mem_sources x a b).2) (fun _ => mem_scalar) (fun _ => by simp only [if_true, hval])

/-! ## The table (R117 to R126) -/

theorem not_overlap (s : State) (a b : BitVec 5) : (!overlap s a b) = vecForm.apart s a b := by
  unfold overlap vecForm.apart
  rw [Bool.eq_iff_iff]
  simp only [Bool.not_eq_true', Bool.and_eq_false_iff, Bool.or_eq_true, decide_eq_false_iff_not, decide_eq_true_eq]
  omega

theorem srcCompanion_eq (s : State) (a : BitVec 5) :
    srcCompanion s a = if vtBlk s.thr.sr.vtype = 0 then [] else [(a.toNat + grpN s, 1)] := by
  simp [srcCompanion, noBlk]

theorem mem_group {s : State} {a : BitVec 5} {l : List (BitVec 5)} (h : a ∈ l) : (a.toNat, grpN s) ∈ l.map (fun r => (r.toNat, grpN s)) :=
  List.mem_map_of_mem (f := fun r : BitVec 5 => (r.toNat, grpN s)) h

theorem vsel_runs (d a b : BitVec 5) (k : BitVec 3) (h : BitVec 2) (s : State) {F : VecForm} (hF : vecForm s (.vsel d a b k h) = some F) :
    ∃ t, exec (.vsel d a b k h) s = .next t ∧ RunsForm (encode (.vsel d a b k h)) s F t := by
  cases hF
  refine ⟨_, rfl, _, _, rfl, rfl, rfl, rfl, fun hr => ready_form hr rfl rfl rfl nofun rfl (fun g hg => .inl hg) rfl rfl rfl, ?_⟩
  show stripWord _ _ s = stripWord _ _ s
  congr 1
  funext i t
  show _ = (if activeAt s 0 i then floatEl 0 _ t else _)
  rw [floatEl_none]
  have hk : (k = 0 || kBit s k i) = true ↔ (k = 0 ∨ (rk s k.toNat).toNat.testBit i = true) := by simp [kBit, bit]
  have hsel : (if (k = 0 || kBit s k i) = true then elemV s a.toNat (ewN s) i else elemV s b.toNat (ewN s) i) =
      elemV s (if k = 0 ∨ (rk s k.toNat).toNat.testBit i = true then a else b).toNat (ewN s) i := by
    by_cases hc : k = 0 ∨ (rk s k.toNat).toNat.testBit i = true
    · rw [if_pos hc, if_pos (hk.mpr hc)]
    · rw [if_neg hc, if_neg (fun h => hc (hk.mp h))]
  rw [hsel]
  rfl

theorem vindex_runs (d : BitVec 5) (k : BitVec 3) (h : BitVec 2) (s : State) {F : VecForm} (hF : vecForm s (.vindex d k h) = some F) :
    ∃ t, exec (.vindex d k h) s = .next t ∧ RunsForm (encode (.vindex d k h)) s F t := by
  cases hF
  refine ⟨_, rfl, _, _, rfl, rfl, rfl, rfl, fun hr => ready_form hr rfl hr.fmt rfl nofun rfl nofun rfl rfl rfl, ?_⟩
  exact activeWord_congr (fun i t => (floatEl_none _ _).symm)

/-- A shift by x[B] elements (R120). -/
theorem shiftWord_runs {w : BitVec 32} {d a b : BitVec 5} {k : BitVec 3} {src : Nat → Nat → Nat → Option Nat} {s : State} {val : Nat → Nat × Nat}
    (hval : ∀ i, val i = (((src i (xr s b).toNat (vlN s)).map (elemV s a.toNat (ewN s))).getD 0, 0)) :
    RunsForm w s { plainForm s true d k [a] [b] val with own := vecForm.apart s d a } (shiftWord w d a b k src s) := by
  refine ⟨_, _, rfl, rfl, rfl, rfl, fun hr => ready_form hr rfl rfl ((not_overlap s d a).trans hr.own) (fun r hr => hr) rfl (fun g hg => .inl hg) rfl rfl rfl, ?_⟩
  refine activeWord_congr (fun i t => ?_)
  have hv := hval i
  show _ = floatEl (val i).2 (setElemV d.toNat (ewN s) i (val i).1) t
  rw [hv, floatEl_none]
  cases src i (xr s b).toNat (vlN s) <;> rfl

theorem vperm_runs (d a b : BitVec 5) (k : BitVec 3) (h : BitVec 2) (s : State) {F : VecForm} (hF : vecForm s (.vperm d a b k h) = some F) :
    ∃ t, exec (.vperm d a b k h) s = .next t ∧ RunsForm (encode (.vperm d a b k h)) s F t := by
  cases hF
  refine ⟨_, rfl, _, _, rfl, rfl, rfl, rfl, fun hr => ready_form hr rfl rfl ?_ nofun rfl (fun g hg => .inl hg) rfl rfl rfl, ?_⟩
  · show (!overlap s d a && !overlap s d b) = true
    rw [not_overlap, not_overlap]
    exact hr.own
  · exact activeWord_congr (fun i t => (floatEl_none _ _).symm)

theorem vcvt_runs (d a : BitVec 5) (k : BitVec 3) (h : BitVec 2) (f : BitVec 5) (s : State) {F : VecForm} (hF : vecForm s (.vcvt d a k h f) = some F) :
    ∃ t, exec (.vcvt d a k h f) s = .next t ∧ RunsForm (encode (.vcvt d a k h f)) s F t := by
  cases hF
  refine ⟨_, rfl, _, _, rfl, rfl, rfl, rfl, fun hr => ready_form hr rfl ?_ ?_ nofun rfl (fun g hg => .inl ?_) rfl rfl rfl, rfl⟩
  · have hf := of_decide_eq_true hr.fmt
    have h19 : f.toNat ≠ 19 := fun e => hf.1 (BitVec.eq_of_toNat_eq e)
    simp only [Bool.and_eq_true, bne_iff_ne, decide_eq_true_eq]
    exact ⟨h19, hf.2⟩
  · show convRegs s _ (grp s a) [] (srcCompanion s a) = true
    rw [srcCompanion_eq]
    exact hr.own
  · rw [← srcCompanion_eq]
    exact hg

theorem vcvtsr_runs (d a b : BitVec 5) (k : BitVec 3) (h : BitVec 2) (f : BitVec 3) (s : State) {F : VecForm}
    (hF : vecForm s (.vcvtsr d a b k h f) = some F) :
    ∃ t, exec (.vcvtsr d a b k h f) s = .next t ∧ RunsForm (encode (.vcvtsr d a b k h f)) s F t := by
  cases hF
  exact ⟨_, rfl, _, _, rfl, rfl, rfl, rfl, fun hr => ready_form hr rfl hr.fmt hr.own nofun rfl (fun g hg => .inl hg) rfl rfl rfl, rfl⟩

/-- Every instruction of the table is carried out as its form says. -/
theorem exec_vecForm {s : State} {i : Instr} {F : VecForm} (h : vecForm s i = some F) : ∃ t, exec i s = .next t ∧ RunsForm (encode i) s F t := by
  have hF := h
  unfold vecForm at h
  split at h
  case h_39 => exact vsel_runs _ _ _ _ _ s hF
  case h_40 => exact vindex_runs _ _ _ s hF
  case h_43 => exact vperm_runs _ _ _ _ _ s hF
  case h_44 => exact vcvt_runs _ _ _ _ _ s hF
  case h_45 => exact vcvtsr_runs _ _ _ _ _ _ s hF
  case h_46 => cases h
  all_goals
    cases h
    refine ⟨_, rfl, ?_⟩
  case h_13 => exact codeForm_runs (fun u v z => by simp only [Nat.shiftLeft_eq])
  case h_18 => exact copyForm_runs (fun _ _ _ => rfl)
  case h_28 => exact floatWord_runs (srcs := [_]) (xs := []) (List.mem_singleton.mpr rfl) nofun nofun (fun _ => rfl)
  case h_29 => exact codeForm_runs_one (fun _ _ _ _ => rfl)
  case h_30 => exact codeForm_runs_one (fun _ _ _ _ => rfl)
  case h_31 => exact codeForm_runs (fun _ _ _ => rfl)
  case h_32 => exact copyForm_runs (fun _ _ _ => rfl)
  case h_41 => exact shiftWord_runs (fun i => by split <;> rfl)
  case h_42 => exact shiftWord_runs (fun i => by split <;> rfl)
  case h_10 | h_11 | h_12 | h_14 => exact codeForm_runs (fun _ _ _ => rfl)
  case h_33 | h_34 | h_35 | h_36 | h_37 | h_38 => exact transWord_runs
  case h_19 | h_20 | h_21 | h_22 | h_23 | h_24 | h_25 | h_26 | h_27 => exact floatForm_runs (fun _ _ _ => rfl)
  all_goals exact intWord_runs (fun _ _ _ => rfl)

/-! ## The sweep (R24, R46) -/

theorem fpctl_of_strip {s t : State} {F : VecForm} {i : Nat} (h : Strip s F i t) : t.thr.sr.fpctl = s.thr.sr.fpctl := by
  rw [h.frame]
  simp only [(chargeWord_frame (ewN s) s).1]

theorem enabledFlags_strip {s t : State} {F : VecForm} {i fl : Nat} (h : Strip s F i t) : enabledFlags t fl = enabledFlags s fl := by
  unfold enabledFlags
  rw [fpctl_of_strip h]

/-- An element of a sweep whose flags are not enabled, if it is written at all. -/
theorem formElement_free {s t : State} {F : VecForm} {i : Nat} (hs : Strip s F i t) (hfree : activeAt s F.k.toNat i = true → enabledFlags s (F.val i).2 = 0) :
    formElement s F i t = .ok (if activeAt s F.k.toNat i then setElemV F.d.toNat F.ew i (F.val i).1 (mergeFlags (F.val i).2 t) else t) := by
  unfold formElement
  cases ha : activeAt s F.k.toNat i with
  | false => simp
  | true =>
    rw [if_pos rfl, if_pos rfl, floatEl_free]
    rw [enabledFlags_strip hs]
    exact hfree ha

/-- The thread of a strip word's state goes on where the word stands. -/
theorem strip_course {s t : State} {F : VecForm} {i : Nat} (h : Strip s F i t) (v : Word) : SameCourse s { t with thr.sr.vstart := v } := by
  refine (chargeWord_course (ewN s) s).trans ?_
  rw [h.frame]
  exact ⟨rfl, rfl, rfl, rfl, rfl⟩

/-- What a word captures depends on nothing that its sweep changes. -/
theorem captured_strip {s t : State} {F : VecForm} {i : Nat} (h : Strip s F i t) (w : BitVec 32) (v : Word) :
    captured w { t with thr.sr.vstart := v } = captured w s := by
  obtain ⟨hthr, -, hcur, -, hchk, -⟩ := chargeWord_frame (ewN s) s
  rw [h.frame]
  simp only [captured, hthr, hcur, hchk]

theorem written_iff_strip {s : State} {F : VecForm} {j : Nat} :
    (vsN s ≤ j ∧ j < max (vsN s) (vlN s) ∧ activeAt s F.k.toNat j = true) ↔ written s F.k j := by
  unfold written
  constructor <;> rintro ⟨h1, h2, h3⟩ <;> exact ⟨h1, by omega, h3⟩

theorem trapWord_at {n : Need} {c : Nat} {v v2 p : Word} {t : State} (h0 : n.vs0 = false) (hp : t.thr.pc = p) :
    trapWord n c v v2 t = takeTrap n.word c p v v2 t := by
  unfold trapWord
  rw [if_neg (by simp [h0]), hp]

/-- Settles O33: the word is a sweep of its form's elements, and the laws of a sweep say what it leaves. -/
theorem elementwiseWords : Obligations.ElementwiseWords := by
  refine ⟨fun s i F hF hr hfree => ?_, fun s i F e hF hr hwe hen hbefore => ?_⟩ <;>
    obtain ⟨t, hexec, n, body, hrun, hword, hq, hv0, hready, hbody⟩ := exec_vecForm hF
  · obtain ⟨u, hdone, hstrip⟩ := strip_done (f := formElement s F) hr.ok hr.fits hr.dst
      (fun j v hlo hhi hs => formElement_free hs (fun ha => hfree j ⟨hlo, hhi, ha⟩))
    have hcourse := strip_course hstrip 0
    refine ⟨capture (encode i) { u with thr.sr.vstart := 0 }, ?_, ?_, fun j hj => ?_, fun r hr' => hstrip.rest r hr'⟩
    · rw [hexec, hrun, run_done hr.ok.calm (hready hr) (hbody.trans hdone) hcourse, enqueue_capture hq, hword]
    · have hlen : max (vsN s) (vlN s) - vsN s = vlN s - vsN s := by omega
      have hframe := hstrip.frame
      rw [hlen] at hframe
      have hrep : u.thr.pnd.replay = s.thr.pnd.replay := by
        rw [hframe]
        simp only [(chargeWord_frame (ewN s) s).1]
      have hcap := captured_strip hstrip (encode i) 0
      unfold OnlyVectors raised capture
      rw [hcap]
      simp only [hrep]
      rw [hframe]
    · have helems := hstrip.elems j hj
      rw [written_iff_strip] at helems
      exact helems
  · obtain ⟨hlo, hhi, hact⟩ := hwe
    obtain ⟨u, hstop, hstrip⟩ := strip_stop (f := formElement s F) (e := e) (c := 0x10) (v := enabledFlags s (F.val e).2) (h := 0) (v2 := some 0)
      hr.ok hr.fits hr.dst hlo hhi (fun j v hlo' hlt hs => formElement_free hs (fun ha => hbefore j hlt ⟨hlo', by omega, ha⟩))
      (fun v hs => by
        have hfl := enabledFlags_strip (fl := (F.val e).2) hs
        unfold formElement
        rw [if_pos hact, floatEl_enabled (by rw [hfl]; exact hen), hfl])
    have hcourse := strip_course hstrip (w64 e)
    have he : e < 2 ^ 64 := lt_trans hhi s.thr.sr.vl.isLt
    refine ⟨{ u with thr.sr.vstart := w64 e }, ?_, w64_toNat he, ?_, fun j hj => ?_, fun r hr' => hstrip.rest r hr'⟩
    · rw [setHits_zero] at hstop
      rw [hexec, hrun, run_trap hr.ok.calm (hready hr) (hbody.trans hstop), trapWord_at hv0 hcourse.pc, hword]
      rfl
    · rw [hstrip.frame]
    · have helems := hstrip.elems j hj
      refine ⟨fun hw => helems.1 ⟨hw.1.1, hw.2, hw.1.2.2⟩, fun hw => helems.2 (fun h => hw ⟨⟨h.1, by omega, h.2.2⟩, h.2.1⟩)⟩

end Sys2Proof.Machine
end

section
/-! PROOFS. Words that write mask registers (O34): compares, mask logic and `vuniq`, each a sweep over its indices. -/

namespace Sys2Proof.Machine

/-- Index i of a mask word: its bit and flags where it has them. -/
def formBit (F : MaskForm) (i : Nat) (t : State) : El :=
  match F.val i with
  | none => .ok t
  | some b => floatEl b.2 (setMaskBit F.d.toNat i b.1) t

/-- A state is left by a mask word that its form describes. -/
def RunsMask (w : BitVec 32) (s : State) (F : MaskForm) (t : State) : Prop :=
  ∃ (n : Need) (body : State → Res), t = run n s body ∧ n.word = w ∧ n.queued = true ∧ (MaskReady s F → Ready n s) ∧
    body s = stripWord (ewN s) (formBit F) s

theorem grpN_pos (s : State) : 0 < grpN s := Nat.two_pow_pos _

theorem ready_mask {s : State} {F : MaskForm} {n : Need} (h : MaskReady s F) (hrole : n.roleOk = true) (hfmt : n.fmtOk = true) (hown : n.regOk = true)
    (hx : ∀ r ∈ n.xr, r ∈ F.xs.map BitVec.toNat) (hxw : n.xw = []) (hvr : ∀ g ∈ n.vr, g ∈ F.vr.map (fun r => (r.toNat, grpN s)))
    (hvw : n.vw = []) (hmr : n.mr = []) (hmw : n.mw = []) : Ready n s := by
  refine ⟨hrole, fun _ => h.legal, hfmt, hown, ?_, fun g hg => ?_, ?_, fun _ => h.ok.room⟩
  · rw [hxw, List.append_nil]
    exact h.xs.of_mem hx
  · rw [hvw, List.append_nil] at hg
    obtain ⟨r, hr, rfl⟩ := List.mem_map.mp (hvr g hg)
    exact ⟨grpN_pos s, h.srcs r hr⟩
  · rw [hmr, hmw]
    nofun

/-- An index of a mask word by its class (R98). -/
theorem formBit_byClass {s : State} {d k : BitVec 3} {vr xs : List (BitVec 5)} {ok : Bool} {f : Nat → Bool × Nat} (i : Nat) (t : State) :
    formBit ⟨d, vr, xs, ok, byClass s k f⟩ i t = maskClass d.toNat k.toNat i (floatEl (f i).2 (setMaskBit d.toNat i (f i).1)) s t := by
  unfold formBit byClass maskClass
  by_cases hv : i < vvN s
  · cases hb : maskBit s k.toNat i <;> simp [hv, hb]
  · simp [hv, floatEl_none]

/-- A compare: its predicate on integers is the one of its number. -/
theorem compareWord_runs {w : BitVec 32} {pred : Nat} {d : BitVec 3} {a b : BitVec 5} {k : BitVec 3} {x : BitVec 1} {s : State} {p : Int → Int → Bool}
    (hp : intPred pred = p) : RunsMask w s (compareForm s d a b k x p pred) (compareWord w pred d a b k x s) := by
  subst hp
  refine ⟨_, _, rfl, rfl, rfl, fun hr => ready_mask hr rfl hr.fmt rfl (fun r hr => mem_bRegs hr) rfl (fun g hg => ?_) rfl rfl rfl, ?_⟩
  · rcases List.mem_cons.mp hg with rfl | hg
    · exact mem_group (mem_sources x a b).1
    · exact mem_bGroup hg (mem_sources x a b).2
  · show stripWord _ _ s = stripWord _ _ s
    congr 1
    funext i t
    unfold compareForm
    rw [formBit_byClass]
    simp only [bElem_eq]
    congr 1

/-- A mask-logic word (R119). -/
theorem maskWord_runs {w : BitVec 32} {d : BitVec 3} {srcs : List (BitVec 3)} {f : Nat → Bool} {s : State} :
    RunsMask w s (logicForm s d f) (maskWord w d srcs f s) := by
  refine ⟨_, _, rfl, rfl, rfl, fun hr => ready_mask hr rfl rfl rfl nofun rfl nofun rfl rfl rfl, ?_⟩
  show stripWord _ _ s = stripWord _ _ s
  congr 1
  funext i t
  unfold logicForm
  rw [formBit_byClass]
  congr 1
  funext u
  exact (floatEl_none _ _).symm

theorem vuniq_runs (d : BitVec 3) (a : BitVec 5) (k : BitVec 3) (h : BitVec 2) (s : State) {F : MaskForm} (hF : maskForm s (.vuniq d a k h) = some F) :
    ∃ t, exec (.vuniq d a k h) s = .next t ∧ RunsMask (encode (.vuniq d a k h)) s F t := by
  cases hF
  refine ⟨_, rfl, _, _, rfl, rfl, rfl, fun hr => ready_mask hr rfl hr.fmt rfl nofun rfl (fun g hg => hg) rfl rfl rfl, ?_⟩
  show stripWord _ _ s = stripWord _ _ s
  congr 1
  funext i t
  simp only [formBit, floatEl_none, seenBefore, List.not_any_eq_all_not]

/-- Every instruction of the table is carried out as its form says. -/
theorem exec_maskForm {s : State} {i : Instr} {F : MaskForm} (h : maskForm s i = some F) : ∃ t, exec i s = .next t ∧ RunsMask (encode i) s F t := by
  have hF := h
  unfold maskForm at h
  split at h
  case h_13 => exact vuniq_runs _ _ _ _ s hF
  case h_14 => cases h
  all_goals
    cases h
    refine ⟨_, rfl, ?_⟩
  case h_1 | h_2 | h_3 | h_4 | h_5 | h_6 => exact compareWord_runs rfl
  all_goals exact maskWord_runs

/-! ## The sweep (R24, R98) -/

theorem enabledFlags_mask {s t : State} {F : MaskForm} {i fl : Nat} (h : Mask s F i t) : enabledFlags t fl = enabledFlags s fl := by
  unfold enabledFlags
  rw [h.frame]
  simp only [(chargeWord_frame (ewN s) s).1]

theorem mask_course {s t : State} {F : MaskForm} {i : Nat} (h : Mask s F i t) (v : Word) : SameCourse s { t with thr.sr.vstart := v } := by
  refine (chargeWord_course (ewN s) s).trans ?_
  rw [h.frame]
  exact ⟨rfl, rfl, rfl, rfl, rfl⟩

theorem captured_mask {s t : State} {F : MaskForm} {i : Nat} (h : Mask s F i t) (w : BitVec 32) (v : Word) :
    captured w { t with thr.sr.vstart := v } = captured w s := by
  obtain ⟨hthr, -, hcur, -, hchk, -⟩ := chargeWord_frame (ewN s) s
  rw [h.frame]
  simp only [captured, hthr, hcur, hchk]

/-- Settles O34: the word is a sweep of its form's indices, none of which traps. -/
theorem maskWords : Obligations.MaskWords := by
  intro s i F hF hr hfree
  obtain ⟨t, hexec, n, body, hrun, hword, hq, hready, hbody⟩ := exec_maskForm hF
  obtain ⟨u, hdone, hmask⟩ := mask_done (f := formBit F) hr.ok hr.fits (fun j v hlo hhi hs => by
    unfold formBit
    cases hv : F.val j with
    | none => rfl
    | some b => exact floatEl_free (by rw [enabledFlags_mask hs]; exact hfree j b hlo hhi hv))
  have hcourse := mask_course hmask 0
  have hlen : max (vsN s) (vlN s) - vsN s = vlN s - vsN s := by omega
  refine ⟨capture (encode i) { u with thr.sr.vstart := 0 }, ?_, ?_, fun j => ?_, fun r hr' => hmask.rest r hr'⟩
  · rw [hexec, hrun, run_done hr.ok.calm (hready hr) (hbody.trans hdone) hcourse, enqueue_capture hq, hword]
  · have hframe := hmask.frame
    rw [hlen] at hframe
    have hrep : u.thr.pnd.replay = s.thr.pnd.replay := by
      rw [hframe]
      simp only [(chargeWord_frame (ewN s) s).1]
    have hcap := captured_mask hmask (encode i) 0
    unfold OnlyMasks capture
    rw [hcap]
    simp only [hrep]
    rw [hframe]
  · refine (hmask.bits j).trans (if_congr ?_ rfl rfl)
    constructor <;> rintro ⟨h1, h2, h3⟩ <;> exact ⟨h1, h2, by omega⟩

end Sys2Proof.Machine
end

section
/-! PROOFS. Vector words with one result or placed elements: counts and `vget` (O36), `vput` and `vpack` (O37), reductions (O35). -/

namespace Sys2Proof.Machine

/-- A vector word without moment registers is ready where its groups are and its x registers are no ports. -/
theorem ready_vector {s : State} {n : Need} (hok : VectorOk s) (hlegal : fmtN s ≠ 0) (hrole : n.roleOk = true) (hfmt : n.fmtOk = true)
    (hown : n.regOk = true) (hx : NoPort s (n.xr ++ n.xw)) (hv : ∀ g ∈ n.vr ++ n.vw, 0 < g.2 ∧ GroupOk s g) (hm : n.mr ++ n.mw = []) : Ready n s :=
  ⟨hrole, fun _ => hlegal, hfmt, hown, hx, hv, by rw [hm]; nofun, fun _ => hok.room⟩

/-- A queued word that completes retires behind its entry in the replay queue. -/
theorem run_queued {s t : State} {n : Need} {body : State → Res} (hc : Calm s) (h : Ready n s) (hq : n.queued = true)
    (hb : body s = .done t) (k : SameCourse s t) : run n s body = retired n.word (s.thr.pc + 4) (capture n.word t) := by
  rw [run_done hc h hb k, enqueue_capture hq]

/-! ## Counts and single elements (R119, R120) -/

/-- VSTART written and an x register behind it leave the thread's course as it is. -/
theorem wx_course {s t : State} {d : Nat} {v : Word} (h : SameCourse s t) (hp : NoPort s [d]) (hcfg : t.slot.cfg = s.slot.cfg) :
    SameCourse s (wx d v { t with thr.sr.vstart := 0 }) := by
  have hv : SameCourse s { t with thr.sr.vstart := 0 } := h.trans ⟨rfl, rfl, rfl, rfl, rfl⟩
  exact hv.trans (wx_same (noPort_same hp hcfg))

theorem chargedVstart_course (s : State) : SameCourse s { chargeWord (ewN s) s with thr.sr.vstart := 0 } :=
  (chargeWord_course (ewN s) s).trans ⟨rfl, rfl, rfl, rfl, rfl⟩

theorem chargeWord_cfg (s : State) : (chargeWord (ewN s) s).slot.cfg = s.slot.cfg := by rw [(chargeWord_frame (ewN s) s).2.1]

/-- A count over a mask register (R119, R128). -/
theorem maskCount_result {w : BitVec 32} {d : BitVec 5} {a k : BitVec 3} {f : List Nat → Word} {s : State} (hok : VectorOk s) (hlegal : fmtN s ≠ 0)
    (hp : NoPort s [d.toNat]) :
    maskCount w d a k f s = retired w (s.thr.pc + 4) (capture w (wx d.toNat
      (f ((upFrom (vsN s) (vvN s - vsN s)).filter (fun i => activeAt s k.toNat i && (rk s a.toNat).toNat.testBit i)))
      { chargeWord (ewN s) s with thr.sr.vstart := 0 })) :=
  run_queued hok.calm (ready_vector hok hlegal rfl rfl rfl hp nofun rfl) rfl rfl (wx_course (chargeWord_course _ _) hp (chargeWord_cfg s))

/-- An element code extended to a word is its integer under the format (R120, R122). -/
theorem extendElem_eq (fmt c : Nat) : extendElem fmt c = if fmtSigned fmt then BitVec.ofInt 64 (intElem fmt c) else w64 c := by
  unfold extendElem intElem sextWord
  split <;> rfl

/-- `vget` reads one element (R120; log 86). -/
theorem exec_vget {s : State} {d a b : BitVec 5} {h : BitVec 2} (hok : VectorOk s) (hlegal : fmtN s ≠ 0) (hg : GroupOk s (a.toNat, grpN s))
    (hp : NoPort s [d.toNat, b.toNat]) :
    exec (.vget d a b h) s = .next (retired (encode (.vget d a b h)) (s.thr.pc + 4) (capture (encode (.vget d a b h))
      (if vsN s ≠ 0 ∧ (vlN s ≤ vsN s ∨ (xr s b).toNat < vsN s) then { chargeWord (ewN s) s with thr.sr.vstart := 0 }
      else wx d.toNat (if vlN s ≤ (xr s b).toNat then 0 else extendElem (fmtN s) (elemV s a.toNat (ewN s) (xr s b).toNat))
        { chargeWord (ewN s) s with thr.sr.vstart := 0 }))) := by
  have hd : NoPort s [d.toNat] := hp.of_mem (by simp)
  refine congrArg _ (run_queued hok.calm (ready_vector hok hlegal rfl rfl rfl (hp.of_mem (by simp)) (fun g hgm => ?_) rfl) rfl ?_ ?_)
  · cases List.mem_singleton.mp hgm
    exact ⟨grpN_pos s, hg⟩
  · refine congrArg Res.done ?_
    by_cases hskip : vsN s ≠ 0 ∧ (vlN s ≤ vsN s ∨ (xr s b).toNat < vsN s)
    · rw [if_pos hskip, if_neg (by simp; omega)]
    · rw [if_neg hskip, if_pos (by simp; omega)]
      by_cases hin : (xr s b).toNat < vlN s
      · rw [if_pos hin, if_neg (Nat.not_le.mpr hin)]
      · rw [if_neg hin, if_pos (Nat.not_lt.mp hin)]
  · split
    · exact chargedVstart_course s
    · exact wx_course (chargeWord_course _ _) hd (chargeWord_cfg s)

/-- Settles O36: each of the three words is one run whose body is its value's. -/
theorem countsAndElements : Obligations.CountsAndElements := by
  intro s i F hF hok hlegal hsrc hp
  unfold xForm at hF
  split at hF
  case h_1 =>
    cases hF
    rw [List.countP_eq_length_filter]
    exact congrArg _ (maskCount_result hok hlegal hp)
  case h_2 =>
    cases hF
    refine congrArg _ ((maskCount_result hok hlegal hp).trans ?_)
    rw [← List.head?_filter]
    cases (upFrom (vsN s) (vvN s - vsN s)).filter _ <;> rfl
  case h_3 d a b h =>
    cases hF
    rw [exec_vget hok hlegal (hsrc a (by simp)) hp, extendElem_eq]
    split <;> rfl
  case h_4 => cases hF

/-! ## Placed elements (R120) -/

/-- A body that places elements over the charged state and clears VSTART changes vector registers alone. -/
theorem onlyVectors_of_placed {s u : State} {d : Nat} {val : Nat → Option Nat} (w : BitVec 32)
    (hu : Placed (chargeWord (ewN s) s) d (grpN s) (ewN s) val u) : OnlyVectors w 0 s (capture w { u with thr.sr.vstart := 0 }) := by
  obtain ⟨hthr, -, hcur, -, hchk, -⟩ := chargeWord_frame (ewN s) s
  have hzero : s.thr.sr.fpflags ||| w64 (0 % 32) = (chargeWord (ewN s) s).thr.sr.fpflags := by rw [hthr]; simp [w64]
  have hcap : captured w { u with thr.sr.vstart := 0 } = captured w s := by
    rw [hu.frame]
    simp only [captured, hthr, hcur, hchk]
  have hrep : u.thr.pnd.replay = s.thr.pnd.replay := by
    rw [hu.frame]
    simp only [hthr]
  unfold OnlyVectors capture
  rw [hcap, hzero]
  simp only [hrep]
  rw [hu.frame]

theorem placed_course {s u : State} {d : Nat} {val : Nat → Option Nat} (hu : Placed (chargeWord (ewN s) s) d (grpN s) (ewN s) val u) :
    SameCourse s { u with thr.sr.vstart := 0 } := by
  refine (chargeWord_course (ewN s) s).trans ?_
  rw [hu.frame]
  exact ⟨rfl, rfl, rfl, rfl, rfl⟩

/-- What holds of the register contents over the charged state holds over the state. -/
theorem charged_elemV (s : State) (d ew j : Nat) : elemV (chargeWord (ewN s) s) d ew j = elemV s d ew j := by
  obtain ⟨hthr, hslot, hcur, -⟩ := chargeWord_frame (ewN s) s
  exact elemV_frame (by rw [hthr]) hslot hcur (by unfold vmN; rw [hthr]) _ _ _

theorem charged_rv (s : State) (r : Nat) : rv (chargeWord (ewN s) s) r = rv s r := by
  obtain ⟨hthr, hslot, hcur, -⟩ := chargeWord_frame (ewN s) s
  exact rv_frame (by rw [hthr]) hslot hcur r

theorem charged_groupLen (s : State) (ew g : Nat) : groupLen (chargeWord (ewN s) s) ew g = groupLen s ew g := by
  unfold groupLen vmN
  rw [(chargeWord_frame (ewN s) s).1]

theorem charged_groupOk {s : State} {g : Nat × Nat} (h : GroupOk s g) : GroupOk (chargeWord (ewN s) s) g := by
  unfold GroupOk isTrio
  rw [(chargeWord_frame (ewN s) s).2.1]
  exact h

theorem charged_damaged {s : State} (h : VectorOk s) : (chargeWord (ewN s) s).thr.hid.damaged = [] := by
  rw [(chargeWord_frame (ewN s) s).1]
  exact h.calm.whole

theorem charged_vmax {s : State} (h : VectorOk s) : vmN (chargeWord (ewN s) s) ≤ 16384 := by
  unfold vmN
  rw [(chargeWord_frame (ewN s) s).1]
  exact h.vmax

/-- A state is left by a word that places the elements of its form. -/
def RunsPlace (w : BitVec 32) (s : State) (F : PlaceForm) (t : State) : Prop :=
  ∃ (n : Need) (u : State), t = run n s (fun _ => .done { u with thr.sr.vstart := 0 }) ∧ n.word = w ∧ n.queued = true ∧ Ready n s ∧
    Placed (chargeWord (ewN s) s) F.d.toNat (grpN s) (ewN s) F.val u

/-- A word's outcome depends on its body at the state it starts in alone. -/
theorem run_constant {s t : State} {n : Need} {body : State → Res} (hc : Calm s) (h : Ready n s) (hb : body s = .done t) :
    run n s body = run n s (fun _ => .done t) := by
  rw [run_ready hc h, run_ready hc h, hb]

theorem activeAt_lt {s : State} {k j : Nat} (h : activeAt s k j = true) : j < vvN s := by
  unfold activeAt at h
  simp only [Bool.and_eq_true, decide_eq_true_eq] at h
  exact h.1

theorem vput_places (d a b : BitVec 5) (h : BitVec 2) (s : State) {F : PlaceForm} (hF : placeForm s (.vput d a b h) = some F) (hok : VectorOk s)
    (hlegal : fmtN s ≠ 0) (hd : GroupOk s (d.toNat, grpN s)) (hp : NoPort s [a.toNat, b.toNat]) (hfit : vvN s ≤ groupLen s (ewN s) (grpN s)) :
    ∃ t, exec (.vput d a b h) s = .next t ∧ RunsPlace (encode (.vput d a b h)) s F t := by
  cases hF
  have hready : Ready { word := encode (.vput d a b h), xr := [a.toNat, b.toNat], vt := true, vw := [grp s d], queued := true } s :=
    ready_vector hok hlegal rfl rfl rfl hp (fun g hg => by cases List.mem_singleton.mp hg; exact ⟨grpN_pos s, hd⟩) rfl
  refine ⟨_, rfl, _, _, run_constant hok.calm hready rfl, rfl, rfl, hready, ?_⟩
  by_cases hput : vsN s ≤ (xr s b).toNat ∧ activeAt s 0 (xr s b).toNat = true
  · rw [if_pos (by simpa using hput)]
    have hin : (xr s b).toNat < groupLen (chargeWord (ewN s) s) (ewN s) (grpN s) := by
      rw [charged_groupLen]
      exact lt_of_lt_of_le (activeAt_lt hput.2) hfit
    refine placed_congr (fun j _ => ?_)
      (placed_set (charged_damaged hok) (charged_vmax hok) (charged_groupOk hd) hin (placed_none _ _ _ _))
    by_cases hj : j = (xr s b).toNat
    · subst hj
      exact (if_pos rfl).trans (if_pos ⟨rfl, hput⟩).symm
    · exact (if_neg hj).trans (if_neg (fun h => hj h.1)).symm
  · rw [if_neg (by simpa using hput)]
    refine placed_congr (fun j _ => (if_neg ?_).symm) (placed_none _ _ _ _)
    rintro ⟨rfl, hput'⟩
    exact hput hput'

theorem vpack_places (d a : BitVec 5) (k : BitVec 3) (h : BitVec 2) (s : State) {F : PlaceForm} (hF : placeForm s (.vpack d a k h) = some F)
    (hok : VectorOk s) (hlegal : fmtN s ≠ 0) (hown : F.own = true) (ha : GroupOk s (a.toNat, grpN s)) (hd : GroupOk s (d.toNat, grpN s))
    (hfit : vvN s ≤ groupLen s (ewN s) (grpN s)) :
    ∃ t, exec (.vpack d a k h) s = .next t ∧ RunsPlace (encode (.vpack d a k h)) s F t := by
  cases hF
  have hready : Ready {
      word := encode (.vpack d a k h), vt := true, regOk := !overlap s d a, vr := [grp s a], vw := [grp s d]
      kr := kmRead k, queued := true } s :=
    ready_vector hok hlegal rfl rfl ((not_overlap s d a).trans hown) (noPort_nil s) (fun g hg => by
      simp only [List.cons_append, List.nil_append, List.mem_cons, List.not_mem_nil, or_false] at hg
      rcases hg with rfl | rfl
      · exact ⟨grpN_pos s, ha⟩
      · exact ⟨grpN_pos s, hd⟩) rfl
  refine ⟨_, rfl, _, _, run_constant hok.calm hready rfl, rfl, rfl, hready, ?_⟩
  obtain ⟨codes, hcodes⟩ : ∃ l : List Nat, l = ((upFrom 0 (vvN s)).filter (fun i => activeAt s k.toNat i)).map (fun i => elemV s a.toNat (ewN s) i) :=
    ⟨_, rfl⟩
  have hlen : codes.length ≤ vvN s := by
    rw [hcodes, List.length_map]
    exact (List.length_filter_le _ _).trans (le_of_eq (length_upFrom _ _))
  rw [← hcodes]
  refine placed_congr (fun j _ => ?_) (placed_from (first := vsN s) (charged_damaged hok) (charged_vmax hok) (charged_groupOk hd) codes 0
    (chargeWord (ewN s) s) (fun _ => none) (by rw [charged_groupLen]; omega) (placed_none _ _ _ _))
  by_cases hlo : vsN s ≤ j
  · by_cases hj : j < codes.length
    · exact (if_pos ⟨Nat.zero_le _, by omega, hlo⟩).trans (if_pos hlo).symm
    · exact (if_neg (fun h => hj (by omega))).trans ((if_pos hlo).trans (List.getElem?_eq_none (Nat.not_lt.mp hj))).symm
  · exact (if_neg (fun h => hlo h.2.2)).trans (if_neg hlo).symm

/-- Settles O37: both words place their form's elements over the charged state. -/
theorem placingWords : Obligations.PlacingWords := by
  intro s i F hF hok hlegal hown hsrc hd hp hfit
  obtain ⟨t, hexec, n, u, hrun, hword, hq, hready, hu⟩ : ∃ t, exec i s = .next t ∧ RunsPlace (encode i) s F t := by
    have h := hF
    unfold placeForm at h
    split at h
    case h_1 => cases h; exact vput_places _ _ _ _ s hF hok hlegal hd hp hfit
    case h_2 a _ _ => cases h; exact vpack_places _ _ _ _ s hF hok hlegal hown (hsrc a (by simp)) hd hfit
    case h_3 => cases h
  refine ⟨capture (encode i) { u with thr.sr.vstart := 0 }, ?_, onlyVectors_of_placed _ hu, fun j hj => ?_, fun r hr => ?_⟩
  · rw [hexec, hrun, run_queued (t := { u with thr.sr.vstart := 0 }) hok.calm hready hq rfl (placed_course hu), hword]
  · have helem := hu.elems j (by rwa [charged_groupLen])
    rw [charged_elemV] at helem
    exact helem
  · have hrest := hu.rest r hr
    rw [charged_rv] at hrest
    exact hrest

/-! ## Reductions (R49, R122) -/

/-- The body of a reduction that its form describes. -/
def reductionBody (F : RedForm) (s : State) : Res :=
  if vlN s ≤ vsN s then .done { s with thr.sr.vstart := 0 }
  else if enabledFlags s F.fl ≠ 0 then .trap 0x10 (w64 (enabledFlags s F.fl)) 0 { chargeReduction s with thr.sr.vstart := 0 }
  else .done (putReduction F.t F.d F.ew F.val (mergeFlags F.fl { chargeReduction s with thr.sr.vstart := 0 }))

/-- A state is left by a reduction that its form describes. -/
def RunsReduction (w : BitVec 32) (s : State) (F : RedForm) (t : State) : Prop :=
  ∃ (k : BitVec 3) (body : State → Res), t = run (redNeed s w F.ok F.d F.a k F.t) s body ∧ body s = reductionBody F s

theorem reductionBody_int {F : RedForm} (h : F.fl = 0) (s : State) :
    reductionBody F s = if vlN s ≤ vsN s then .done { s with thr.sr.vstart := 0 }
      else .done (putReduction F.t F.d F.ew F.val { chargeReduction s with thr.sr.vstart := 0 }) := by
  unfold reductionBody
  rw [h, if_neg (not_not.mpr (enabledFlags_none s)), mergeFlags_none]

theorem intRed_runs {w : BitVec 32} {d a : BitVec 5} {k : BitVec 3} {t : BitVec 1} {f : Nat → List Int → Word} {s : State} :
    RunsReduction w s (intRed s d a k t (f (fmtN s))) (intReduction w d a k t f s) :=
  ⟨k, _, rfl, (reductionBody_int (F := intRed s d a k t (f (fmtN s))) rfl s).symm⟩

theorem floatRed_runs {w : BitVec 32} {ok : State → Bool} {acc : Nat → Nat} {widen : State → Nat → Nat} {d a : BitVec 5} {k : BitVec 3} {t : BitVec 1}
    {f : RM → FV → FV → FV × Nat} {s : State} :
    RunsReduction w s (floatRed s d a k t (ok s) (acc (fmtN s)) (widen s) (f (rmN s))) (floatReduction w ok acc widen d a k t f s) := by
  refine ⟨k, _, rfl, ?_⟩
  unfold reductionBody
  simp only [bne_iff_ne]
  rfl

theorem exec_redForm {s : State} {i : Instr} {F : RedForm} (h : redForm s i = some F) :
    ∃ t, exec i s = .next t ∧ RunsReduction (encode i) s F t := by
  unfold redForm at h
  split at h
  case h_11 => cases h
  all_goals
    cases h
    refine ⟨_, rfl, ?_⟩
  case h_1 d a k _ t =>
    simp only [List.sum_eq_foldl]
    exact intRed_runs (f := fun _ l => BitVec.ofInt 64 (l.foldl (· + ·) 0))
  case h_2 => exact intRed_runs (f := fun fmt l => extendInt fmt (l.foldl min (intRange fmt).2))
  case h_3 => exact intRed_runs (f := fun fmt l => extendInt fmt (l.foldl max (intRange fmt).1))
  case h_4 | h_5 | h_6 => exact intRed_runs
  case h_7 => exact floatRed_runs (ok := floatOk) (acc := id) (widen := fun _ c => c) (f := fvAdd)
  case h_8 =>
    simp only [Bool.decide_or]
    exact floatRed_runs (ok := halfOk) (acc := fun _ => 9) (widen := widenHalf) (f := fvAdd)
  case h_9 => exact floatRed_runs (ok := floatOk) (acc := id) (widen := fun _ c => c) (f := fun _ => fvMinMax false)
  case h_10 => exact floatRed_runs (ok := floatOk) (acc := id) (widen := fun _ c => c) (f := fun _ => fvMinMax true)

theorem fmtEw_le (f : Nat) : fmtEw f ≤ 64 := by
  unfold fmtEw
  split_ifs <;> omega

theorem redForm_ew {s : State} {i : Instr} {F : RedForm} (h : redForm s i = some F) : F.ew ≤ 64 := by
  unfold redForm at h
  split at h
  case h_11 => cases h
  all_goals cases h
  case h_8 => exact fmtEw_le 9
  all_goals exact fmtEw_le (fmtN s)

theorem ready_reduction {s : State} {w : BitVec 32} {F : RedForm} {k : BitVec 3} (hok : VectorOk s) (hlegal : fmtN s ≠ 0) (hfmt : F.ok = true)
    (ha : GroupOk s (F.a.toNat, grpN s)) (hp : NoPort s [F.d.toNat]) : Ready (redNeed s w F.ok F.d F.a k F.t) s := by
  have hone : GroupOk s (F.d.toNat, 1) := by
    have hd := F.d.isLt
    refine ⟨Nat.mod_one _, ?_⟩
    rcases hp with hp | hp
    · rw [if_neg (by simp [hp])]
      show F.d.toNat + 1 ≤ 32
      omega
    · have := hp _ (List.mem_singleton.mpr rfl)
      show F.d.toNat + 1 ≤ _
      split <;> omega
  refine ready_vector hok hlegal rfl hfmt rfl ?_ (fun g hg => ?_) rfl
  · show NoPort s (if F.t = 1 then [F.d.toNat] else [])
    split
    · exact hp
    · exact noPort_nil s
  · rcases List.mem_cons.mp hg with rfl | hg
    · exact ⟨grpN_pos s, ha⟩
    · change g ∈ (if F.t = 1 then [] else [(F.d.toNat, 1)]) at hg
      split at hg
      · cases hg
      · cases List.mem_singleton.mp hg
        exact ⟨Nat.one_pos, hone⟩

/-- A result put in place leaves the thread's course as it is. -/
theorem putReduction_course {s : State} {t : BitVec 1} {d : BitVec 5} {ew : Nat} {v : Word} (hp : NoPort s [d.toNat]) (hew : ew ≤ 64) :
    SameCourse s (putReduction t d ew v s) := by
  unfold putReduction
  split
  · exact wx_same hp
  · rw [(wv_low (v := v.toNat) (top := ceilDiv ew 8) hp (by omega : ew ≤ 16384)).1]
    exact ⟨rfl, rfl, rfl, rfl, rfl⟩

/-- Settles O35: the three outcomes are the branches of the reduction's body. -/
theorem reductions : Obligations.Reductions := by
  intro s i F hF hok hlegal hfmt ha hp base
  obtain ⟨t, hexec, k, body, hrun, hbody⟩ := exec_redForm hF
  have hready : Ready (redNeed s (encode i) F.ok F.d F.a k F.t) s := ready_reduction hok hlegal hfmt ha hp
  have hbase : SameCourse s base := (chargeReduction_course s).trans ⟨rfl, rfl, rfl, rfl, rfl⟩
  have hpbase : NoPort (mergeFlags F.fl base) [F.d.toNat] := noPort_same hp (by
    show (chargeReduction s).slot.cfg = _
    rw [(chargeReduction_frame s).2.1])
  have hbodies := hbody
  unfold reductionBody at hbodies
  rw [hexec, hrun]
  refine ⟨fun hlo => ?_, fun hlo hen => ?_, fun hlo hen => ?_⟩
  · rw [if_pos hlo] at hbodies
    rw [run_queued hok.calm hready rfl hbodies ⟨rfl, rfl, rfl, rfl, rfl⟩]
    rfl
  · rw [if_neg (Nat.not_le.mpr hlo), if_pos hen] at hbodies
    rw [run_trap hok.calm hready hbodies, trapWord_at rfl hbase.pc]
    rfl
  · rw [if_neg (Nat.not_le.mpr hlo), if_neg (not_not.mpr hen)] at hbodies
    have hmerged : SameCourse s (mergeFlags F.fl base) := hbase.trans ⟨rfl, rfl, rfl, rfl, rfl⟩
    have hcourse := hmerged.trans (putReduction_course (t := F.t) (v := F.val) hpbase (redForm_ew hF))
    refine ⟨_, congrArg _ (run_queued hok.calm hready rfl hbodies hcourse), fun h1 => if_pos h1, fun h0 => ?_⟩
    obtain ⟨hframe, hlow, hhigh, hrest⟩ := wv_low (v := F.val.toNat) (top := ceilDiv F.ew 8) hpbase (by have := redForm_ew hF; omega : F.ew ≤ 16384)
    have hput : putReduction F.t F.d F.ew F.val (mergeFlags F.fl base) =
        wv F.d.toNat (BitVec.ofNat 16384 (setBits (rv (mergeFlags F.fl base) F.d.toNat).toNat 0 F.ew F.val.toNat)) (ceilDiv F.ew 8)
          (mergeFlags F.fl base) := if_neg (by rw [h0]; decide)
    obtain ⟨hthr, hslot, hcur, -⟩ := chargeReduction_frame s
    have hrv : ∀ r, rv (mergeFlags F.fl base) r = rv s r := rv_frame (by show (chargeReduction s).thr.v = _; rw [hthr]) hslot hcur
    rw [hput]
    exact ⟨hframe, hlow, hhigh.trans (by rw [hrv]), fun r hr => (hrest r hr).trans (hrv r)⟩

end Sys2Proof.Machine
end

section
/-! PROOFS. Sweeps that an element ends, and `vcvtmx` (O39): a sweep over blocks, each with its scale byte and its codes. -/

namespace Sys2Proof.Machine

/-! ## Sweeps -/

/-- A sweep that one of its elements ends by a trap: the elements before it went through. -/
theorem sweep_stopped {f : Nat → State → El} (P : Nat → State → Prop) (hd : ∀ i t, P i t → t.thr.hid.damaged = []) {n lo e c v h : Nat}
    {v2 : Option Nat} {s : State} (h0 : P lo s) (hlo : lo ≤ e) (hhi : e < lo + n)
    (hstep : ∀ i t, lo ≤ i → i < e → P i t → ∃ u, f i t = .ok u ∧ P (i + 1) u) (he : ∀ t, P e t → f e t = .trap c v v2 h) :
    ∃ u, sweep f n lo s = .stop e c v v2 h u ∧ P e u := by
  induction n generalizing lo s with
  | zero => exact absurd (lt_of_le_of_lt hlo hhi) (lt_irrefl _)
  | succ n ih =>
    rcases Nat.eq_or_lt_of_le hlo with rfl | hlt
    · exact ⟨s, sweep_trap (hd _ _ h0) (he s h0), h0⟩
    · obtain ⟨u, hu, hp⟩ := hstep lo s (le_refl _) hlt h0
      rw [sweep_ok (hd _ _ h0) hu]
      exact ih hp hlt (by omega) (fun i t h1 h2 hi => hstep i t (by omega) h2 hi)

/-- An element read after an element in another register has been written. -/
theorem elemV_setElemV_apart {s : State} {base ew i val base' ew' j : Nat} (hd : s.thr.hid.damaged = [])
    (hp : NoPort s [base + i / perReg (vmN s) ew]) (hne : base' + j / perReg (vmN s) ew' ≠ base + i / perReg (vmN s) ew) :
    elemV (setElemV base ew i val s) base' ew' j = elemV s base' ew' j := by
  have hf := setElemV_frame (val := val) hd hp
  have hvm : vmN (setElemV base ew i val s) = vmN s := by unfold vmN; rw [hf]
  unfold elemV
  simp only [hvm, rv_setElemV_ne hd hp hne]

/-- Codes placed at the indices of a list. -/
theorem placed_fold {s : State} {d g ew : Nat} {c : Nat → Nat} (hd : s.thr.hid.damaged = []) (hv : vmN s ≤ 16384) (hg : GroupOk s (d, g))
    (l : List Nat) (t : State) (val : Nat → Option Nat) (hl : ∀ i ∈ l, i < groupLen s ew g) (ht : Placed s d g ew val t) :
    Placed s d g ew (fun j => if j ∈ l then some (c j) else val j) (l.foldl (fun t i => setElemV d ew i (c i) t) t) := by
  induction l generalizing t val with
  | nil => exact placed_congr (fun j _ => (if_neg List.not_mem_nil).symm) ht
  | cons i r ih =>
    refine placed_congr (fun j _ => ?_)
      (ih _ _ (fun k hk => hl k (List.mem_cons_of_mem _ hk)) (placed_set (i := i) (c := c i) hd hv hg (hl i List.mem_cons_self) ht))
    by_cases hr : j ∈ r
    · rw [if_pos hr, if_pos (List.mem_cons_of_mem _ hr)]
    · rw [if_neg hr]
      by_cases hj : j = i
      · subst hj
        rw [if_pos rfl, if_pos List.mem_cons_self]
      · rw [if_neg hj, if_neg (fun h => (List.mem_cons.mp h).elim hj hr)]

/-! ## The blocks of `vcvtmx` (R39, R127) -/

/-- The operands of a `vcvtmx`: source, destination group and its factor, mask, destination format and block length. -/
structure MxWord where
  a : BitVec 5
  d : BitVec 5
  g : Nat
  k : BitVec 3
  dst : Nat
  n : Nat

/-- The active elements of block j. -/
def mxActive (s : State) (M : MxWord) (j : Nat) : List Nat :=
  (upFrom (j * M.n) (min M.n (vlN s - j * M.n))).filter (fun x => activeAt s M.k.toNat x)

/-- The scale byte of block j. -/
def blockScale (s : State) (M : MxWord) (j : Nat) : Nat := mxScale M.dst ((mxActive s M j).map (convSource s M.a))

/-- Code and flags of element x. -/
def blockCode (s : State) (M : MxWord) (x : Nat) : Nat × Nat := mxCode M.dst (blockScale s M (x / M.n)) (rmN s) (convSource s M.a x)

/-- The flags of the blocks from lo up to hi. -/
def blockFlags (s : State) (M : MxWord) (lo hi : Nat) : Nat :=
  ((upFrom lo (hi - lo)).flatMap (mxActive s M)).foldl (fun m x => m ||| (blockCode s M x).2) 0

theorem foldl_or_init (f : Nat → Nat) (l : List Nat) (m : Nat) : l.foldl (fun m x => m ||| f x) m = m ||| l.foldl (fun m x => m ||| f x) 0 := by
  induction l generalizing m with
  | nil => exact (Nat.or_zero m).symm
  | cons x r ih => rw [List.foldl_cons, List.foldl_cons, ih (m ||| f x), ih (0 ||| f x), Nat.zero_or, Nat.or_assoc]

theorem blockFlags_self (s : State) (M : MxWord) (j : Nat) : blockFlags s M j j = 0 := by
  unfold blockFlags
  rw [Nat.sub_self]
  rfl

theorem blockFlags_one (s : State) (M : MxWord) (j : Nat) : blockFlags s M j (j + 1) = (mxActive s M j).foldl (fun m x => m ||| (blockCode s M x).2) 0 := by
  unfold blockFlags
  rw [Nat.add_sub_cancel_left]
  simp only [upFrom, List.flatMap_cons, List.flatMap_nil, List.append_nil]

theorem blockFlags_succ {s : State} {M : MxWord} {lo j : Nat} (h : lo ≤ j) :
    blockFlags s M lo (j + 1) = blockFlags s M lo j ||| blockFlags s M j (j + 1) := by
  rw [blockFlags_one]
  unfold blockFlags
  rw [show j + 1 - lo = (j - lo) + 1 by omega, upFrom_succ, List.flatMap_append, List.foldl_append, foldl_or_init, show lo + (j - lo) = j by omega]
  simp only [List.flatMap_cons, List.flatMap_nil, List.append_nil]

theorem mem_mxActive {s : State} {M : MxWord} {j x : Nat} (hn : 0 < M.n) :
    x ∈ mxActive s M j ↔ x / M.n = j ∧ x < vlN s ∧ activeAt s M.k.toNat x = true := by
  unfold mxActive
  rw [List.mem_filter, mem_upFrom]
  have hdiv : x / M.n = j ↔ j * M.n ≤ x ∧ x < (j + 1) * M.n := by
    rw [Nat.div_eq_iff hn]
    have := Nat.add_one_mul j M.n
    omega
  have := Nat.add_one_mul j M.n
  rw [hdiv]
  constructor
  · rintro ⟨⟨h1, h2⟩, h3⟩
    exact ⟨⟨h1, by omega⟩, by omega, h3⟩
  · rintro ⟨⟨h1, h2⟩, h3, h4⟩
    exact ⟨⟨h1, by omega⟩, h4⟩

theorem mxScale_lt (dst : Nat) (l : List FV) : mxScale dst l < 256 := by
  unfold mxScale
  split
  · decide
  · split <;> omega

/-- A block written is its scale byte and the codes of those of its active elements that the word writes. -/
theorem mxBlock_eq {s : State} {M : MxWord} {j : Nat} (hn : 0 < M.n) (t : State) :
    mxBlock s M.dst M.g M.n M.k.toNat M.a M.d j t = floatEl (blockFlags s M j (j + 1)) (fun t =>
      ((mxActive s M j).filter (fun x => vsN s ≤ x)).foldl (fun t x => setElemV M.d.toNat (fmtEw M.dst) x (blockCode s M x).1 t)
        (setElemV (M.d.toNat + M.g) 8 j (blockScale s M j) t)) t := by
  have hcodes : ((mxActive s M j).map (fun i => (i, convSource s M.a i))).map (fun p => (p.1, mxCode M.dst (blockScale s M j) (rmN s) p.2)) =
      (mxActive s M j).map (fun x => (x, blockCode s M x)) := by
    rw [List.map_map]
    refine List.map_congr_left fun x hx => ?_
    show (x, mxCode M.dst (blockScale s M j) (rmN s) (convSource s M.a x)) = (x, blockCode s M x)
    unfold blockCode
    rw [((mem_mxActive hn).mp hx).1]
  have hscale : mxScale M.dst (((mxActive s M j).map (fun i => (i, convSource s M.a i))).map Prod.snd) = blockScale s M j := by
    rw [List.map_map]
    rfl
  unfold mxBlock
  rw [show (upFrom (j * M.n) (min M.n (vlN s - j * M.n))).filter (fun i => activeAt s M.k.toNat i) = mxActive s M j from rfl]
  simp only [hscale, hcodes, blockFlags_one, List.foldl_map, List.filter_map]
  rfl

/-- What a `vcvtmx` needs so that its writes stay in its registers. -/
structure MxReady (s : State) (M : MxWord) : Prop where
  ok : VectorOk s
  length : 0 < M.n
  dst : GroupOk s (M.d.toNat, M.g)
  scale : NoPort s [M.d.toNat + M.g]
  fits : vlN s ≤ groupLen s (fmtEw M.dst) M.g
  blocks : ceilDiv (vlN s) M.n ≤ perReg (vmN s) 8

/-- The state of a `vcvtmx` after its blocks below hi. -/
structure Blocks (s : State) (M : MxWord) (hi : Nat) (t : State) : Prop where
  frame : t = { chargeWord (ewN s) s with
    thr.v := t.thr.v
    thr.hid.units := t.thr.hid.units
    thr.sr.fpflags := s.thr.sr.fpflags ||| w64 (blockFlags s M (vsN s / M.n) hi % 32) }
  elems : ∀ x, x < groupLen s (fmtEw M.dst) M.g → elemV t M.d.toNat (fmtEw M.dst) x =
    if written s M.k x ∧ x < hi * M.n then (blockCode s M x).1 % 2 ^ fmtEw M.dst else elemV s M.d.toNat (fmtEw M.dst) x
  scales : ∀ j, j < perReg (vmN s) 8 → elemV t (M.d.toNat + M.g) 8 j =
    if vsN s / M.n ≤ j ∧ j < hi then blockScale s M j else elemV s (M.d.toNat + M.g) 8 j
  rest : ∀ r, r < M.d.toNat ∨ M.d.toNat + M.g < r → rv t r = rv s r

theorem blocks_whole {s t : State} {M : MxWord} {hi : Nat} (h : VectorOk s) (ht : Blocks s M hi t) : t.thr.hid.damaged = [] := by
  rw [ht.frame]
  exact charged_damaged h

theorem blocks_enabled {s t : State} {M : MxWord} {hi fl : Nat} (ht : Blocks s M hi t) : enabledFlags t fl = enabledFlags s fl := by
  unfold enabledFlags
  rw [ht.frame]
  simp only [(chargeWord_frame (ewN s) s).1]

theorem blocks_start (s : State) (M : MxWord) : Blocks s M (vsN s / M.n) (chargeWord (ewN s) s) := by
  refine ⟨?_, fun x _ => ?_, fun j _ => ?_, fun r _ => charged_rv s r⟩
  · have hzero : s.thr.sr.fpflags ||| w64 (0 % 32) = (chargeWord (ewN s) s).thr.sr.fpflags := by
      rw [(chargeWord_frame (ewN s) s).1]
      simp [w64]
    rw [blockFlags_self, hzero]
  · rw [if_neg, charged_elemV]
    rintro ⟨⟨hlo, -⟩, hx⟩
    exact absurd (lt_of_lt_of_le hx ((Nat.div_mul_le_self _ _).trans hlo)) (lt_irrefl _)
  · rw [if_neg (fun h => absurd (lt_of_le_of_lt h.1 h.2) (lt_irrefl _)), charged_elemV]

/-- An index of block j that the word writes, among those below the next block. -/
theorem written_below {s : State} {M : MxWord} {j x : Nat} (hn : 0 < M.n) :
    (written s M.k x ∧ x < (j + 1) * M.n) ↔ (x ∈ (mxActive s M j).filter (fun x => vsN s ≤ x) ∨ (written s M.k x ∧ x < j * M.n)) := by
  rw [List.mem_filter, mem_mxActive hn, Nat.div_eq_iff hn]
  have := Nat.add_one_mul j M.n
  simp only [written, decide_eq_true_eq]
  constructor
  · rintro ⟨⟨h1, h2, h3⟩, h4⟩
    by_cases hj : x < j * M.n
    · exact .inr ⟨⟨h1, h2, h3⟩, hj⟩
    · exact .inl ⟨⟨by omega, h2, h3⟩, h1⟩
  · rintro (⟨⟨h1, h2, h3⟩, h4⟩ | ⟨h1, h2⟩)
    · exact ⟨⟨h4, h2, h3⟩, by omega⟩
    · exact ⟨h1, by omega⟩

theorem blocks_step {s t : State} {M : MxWord} {j : Nat} (hr : MxReady s M) (hlo : vsN s / M.n ≤ j) (hhi : j < ceilDiv (vlN s) M.n)
    (hfree : enabledFlags s (blockFlags s M j (j + 1)) = 0) (ht : Blocks s M j t) :
    ∃ u, mxBlock s M.dst M.g M.n M.k.toNat M.a M.d j t = .ok u ∧ Blocks s M (j + 1) u := by
  obtain ⟨hthr, hslot, hcur, -⟩ := chargeWord_frame (ewN s) s
  refine ⟨_, (mxBlock_eq hr.length t).trans (floatEl_free (by rw [blocks_enabled ht]; exact hfree)), ?_⟩
  obtain ⟨m, hm⟩ : ∃ m : State, m = mergeFlags (blockFlags s M j (j + 1)) t := ⟨_, rfl⟩
  rw [← hm]
  have hmd : m.thr.hid.damaged = [] := by rw [hm]; exact (blocks_whole hr.ok ht : t.thr.hid.damaged = [])
  have hmv : vmN m = vmN s := by
    rw [hm]
    show vmN t = _
    unfold vmN
    rw [ht.frame]
    simp only [hthr]
  have hms : m.slot.cfg = s.slot.cfg := by
    rw [hm]
    show t.slot.cfg = _
    rw [ht.frame]
    simp only [hslot]
  have hmelem : ∀ b ew x, elemV m b ew x = elemV t b ew x := fun b ew x => by rw [hm]; rfl
  have hmrv : ∀ r, rv m r = rv t r := fun r => by rw [hm]; rfl
  have hj : j < perReg (vmN m) 8 := by rw [hmv]; exact lt_of_lt_of_le hhi hr.blocks
  have hp : NoPort m [M.d.toNat + M.g + j / perReg (vmN m) 8] := by
    rw [Nat.div_eq_of_lt hj]
    exact noPort_same hr.scale hms
  obtain ⟨u, hu⟩ : ∃ u : State, u = setElemV (M.d.toNat + M.g) 8 j (blockScale s M j) m := ⟨_, rfl⟩
  have huf : u = { m with thr.v := u.thr.v, thr.hid.units := u.thr.hid.units } := hu ▸ setElemV_frame hmd hp
  have hud : u.thr.hid.damaged = [] := by rw [huf]; exact hmd
  have huv : vmN u = vmN s := by rw [← hmv]; unfold vmN; rw [huf]
  have hug : GroupOk u (M.d.toNat, M.g) := by
    have hcfg : u.slot.cfg = s.slot.cfg := by rw [huf]; exact hms
    unfold GroupOk isTrio
    rw [hcfg]
    exact hr.dst
  have hulen : ∀ ew g, groupLen u ew g = groupLen s ew g := fun ew g => by unfold groupLen; rw [huv]
  have hw := placed_fold (ew := fmtEw M.dst) (c := fun x => (blockCode s M x).1) hud (huv ▸ hr.ok.vmax) hug ((mxActive s M j).filter (fun x => vsN s ≤ x)) u
    (fun _ => none) (fun x hx => by
      rw [hulen]
      exact lt_of_lt_of_le ((mem_mxActive hr.length).mp (List.mem_of_mem_filter hx)).2.1 hr.fits) (placed_none _ _ _ _)
  rw [← hu]
  refine ⟨?_, fun x hx => ?_, fun j' hj' => ?_, fun r hr' => ?_⟩
  · have hframe := hw.frame
    generalize List.foldl _ u _ = w at hframe ⊢
    calc w = { u with thr.v := w.thr.v, thr.hid.units := w.thr.hid.units } := hframe
      _ = { m with thr.v := w.thr.v, thr.hid.units := w.thr.hid.units } :=
        (congrArg (fun q : State => ({ q with thr.v := w.thr.v, thr.hid.units := w.thr.hid.units } : State)) huf).trans rfl
      _ = { mergeFlags (blockFlags s M j (j + 1)) t with thr.v := w.thr.v, thr.hid.units := w.thr.hid.units } := by rw [hm]
      _ = _ := by
        rw [blockFlags_succ hlo, w64_or, ← BitVec.or_assoc]
        exact congrArg (fun q : State =>
          ({ mergeFlags (blockFlags s M j (j + 1)) q with thr.v := w.thr.v, thr.hid.units := w.thr.hid.units } : State)) ht.frame
  · rw [hw.elems x (by rwa [hulen])]
    by_cases hin : x ∈ (mxActive s M j).filter (fun x => vsN s ≤ x)
    · rw [if_pos hin, if_pos ((written_below hr.length).mpr (.inl hin))]
    · have hq : x / perReg (vmN m) (fmtEw M.dst) < M.g := by rw [hmv]; exact div_lt_group hx
      have hapart : elemV u M.d.toNat (fmtEw M.dst) x = elemV t M.d.toNat (fmtEw M.dst) x := by
        rw [hu, elemV_setElemV_apart hmd hp (by rw [Nat.div_eq_of_lt hj]; omega), hmelem]
      rw [if_neg hin]
      refine hapart.trans ((ht.elems x hx).trans (if_congr ?_ rfl rfl))
      exact ⟨fun h => (written_below hr.length).mpr (.inr h), fun h => ((written_below hr.length).mp h).resolve_left hin⟩
  · have hrest : elemV (List.foldl (fun t x => setElemV M.d.toNat (fmtEw M.dst) x (blockCode s M x).1 t) u
        ((mxActive s M j).filter (fun x => vsN s ≤ x))) (M.d.toNat + M.g) 8 j' = elemV u (M.d.toNat + M.g) 8 j' := by
      have hwv : vmN (List.foldl (fun t x => setElemV M.d.toNat (fmtEw M.dst) x (blockCode s M x).1 t) u
          ((mxActive s M j).filter (fun x => vsN s ≤ x))) = vmN u := by unfold vmN; rw [hw.frame]
      unfold elemV
      simp only [hwv, hw.rest _ (.inr (Nat.le_add_right _ _))]
    rw [hrest, hu, elemV_setElemV hmd (hmv ▸ hr.ok.vmax) (Nat.ne_of_gt (lt_of_le_of_lt (Nat.zero_le _) hj)) hp, hmelem, ht.scales j' hj']
    by_cases hjj : j' = j
    · subst hjj
      rw [if_pos rfl, if_pos ⟨hlo, Nat.lt_succ_self _⟩]
      exact Nat.mod_eq_of_lt (mxScale_lt _ _)
    · rw [if_neg hjj]
      exact if_congr (by omega) rfl rfl
  · rw [hw.rest r (by omega), hu, rv_setElemV_ne hmd hp (by rw [Nat.div_eq_of_lt hj]; omega), hmrv]
    exact ht.rest r hr'

/-! ## The word -/

/-- The operands of a `vcvtmx` in a state. -/
def mxOperands (s : State) (d a : BitVec 5) (sf : BitVec 1) (k : BitVec 3) (f : BitVec 3) : MxWord :=
  { a := a, d := d, g := convFactor (grpN s) (fmtEw (mxFormat f.toNat)) (ewN s), k := k, dst := mxFormat f.toNat, n := if sf = 1 then 16 else 32 }

/-- The sweep of a `vcvtmx` over its blocks. -/
def mxSweep (s : State) (M : MxWord) : Swept :=
  sweep (mxBlock s M.dst M.g M.n M.k.toNat M.a M.d) (ceilDiv (vlN s) M.n - vsN s / M.n) (vsN s / M.n) (chargeWord (ewN s) s)

/-- What a `vcvtmx` does once it may run. -/
def mxBody (M : MxWord) (s : State) : Res :=
  if vlN s ≤ vsN s then .done { s with thr.sr.vstart := 0 }
  else match mxSweep s M with
    | .stop j c v v2 h t => finishSweep s (.stop (j * M.n) c v v2 h t)
    | r => finishSweep s r

/-- What a `vcvtmx` needs. -/
def mxNeed (w : BitVec 32) (s : State) (M : MxWord) : Need :=
  { word := w, vt := true, fmtOk := floatOk s, regOk := convRegs s (M.d.toNat, M.g) (grp s M.a) [] [(M.d.toNat + M.g, 1)]
    vr := [grp s M.a], vw := [(M.d.toNat, M.g)], kr := kmRead M.k, km := M.k.toNat, queued := true }

theorem exec_vcvtmx (d a : BitVec 5) (sf : BitVec 1) (k : BitVec 3) (h : BitVec 2) (f : BitVec 3) (s : State) :
    ∃ body, exec (.vcvtmx d a sf k h f) s = .next (run (mxNeed (encode (.vcvtmx d a sf k h f)) s (mxOperands s d a sf k f)) s body) ∧
      body s = mxBody (mxOperands s d a sf k f) s := by
  refine ⟨_, rfl, ?_⟩
  unfold mxBody
  split
  · rfl
  · show _ = match mxSweep s (mxOperands s d a sf k f) with
      | .stop j c v v2 h t => _
      | r => _
    generalize hsw : mxSweep s (mxOperands s d a sf k f) = r
    unfold mxSweep mxOperands at hsw
    simp only at hsw
    simp only [hsw]
    cases r <;> rfl

theorem blocks_course {s t : State} {M : MxWord} {hi : Nat} (ht : Blocks s M hi t) (v : Word) : SameCourse s { t with thr.sr.vstart := v } := by
  refine (chargeWord_course (ewN s) s).trans ?_
  rw [ht.frame]
  exact ⟨rfl, rfl, rfl, rfl, rfl⟩

theorem blocks_only {s t : State} {M : MxWord} {hi : Nat} (w : BitVec 32) (ht : Blocks s M hi t) :
    OnlyVectors w (blockFlags s M (vsN s / M.n) hi) s (capture w { t with thr.sr.vstart := 0 }) := by
  obtain ⟨hthr, -, hcur, -, hchk, -⟩ := chargeWord_frame (ewN s) s
  have hcap : captured w { t with thr.sr.vstart := 0 } = captured w s := by
    rw [ht.frame]
    simp only [captured, hthr, hcur, hchk]
  have hrep : t.thr.pnd.replay = s.thr.pnd.replay := by
    rw [ht.frame]
    simp only [hthr]
  unfold OnlyVectors capture
  rw [hcap]
  simp only [hrep]
  rw [ht.frame]

theorem pow2AtLeast_pos (n : Nat) : 0 < pow2AtLeast n := by
  unfold pow2AtLeast
  split
  · exact Nat.one_pos
  · exact Nat.two_pow_pos _

theorem floatOk_legal {s : State} (h : floatOk s = true) : fmtN s ≠ 0 := by
  intro h0
  unfold floatOk fmtFloat at h
  rw [h0] at h
  simp at h

theorem mx_ready {s : State} {M : MxWord} {w : BitVec 32} (hr : MxReady s M) (hg : 0 < M.g) (hfmt : floatOk s = true)
    (hregs : convRegs s (M.d.toNat, M.g) (grp s M.a) [] [(M.d.toNat + M.g, 1)] = true) (ha : GroupOk s (M.a.toNat, grpN s)) :
    Ready (mxNeed w s M) s := by
  refine ready_vector hr.ok (floatOk_legal hfmt) rfl hfmt hregs (noPort_nil s) (fun g hg' => ?_) rfl
  simp only [mxNeed, List.cons_append, List.nil_append, List.mem_cons, List.not_mem_nil, or_false] at hg'
  rcases hg' with rfl | rfl
  · exact ⟨grpN_pos s, ha⟩
  · exact ⟨hg, hr.dst⟩

theorem convRegs_companion {s : State} {d a c : Nat × Nat} {others : List (Nat × Nat)} (h : convRegs s d a others [c] = true) :
    c.1 + c.2 ≤ (if isTrio s then 28 else 32) := by
  unfold convRegs at h
  simp only [List.all_cons, List.all_nil, Bool.and_true, Bool.and_eq_true, decide_eq_true_eq] at h
  exact h.2.1

theorem ceilDiv_mul_lt {e n v : Nat} (hn : 0 < n) (h : e < ceilDiv v n) : e * n < v := by
  unfold ceilDiv at h
  rw [if_neg (Nat.ne_of_gt hn), Nat.lt_div_iff_mul_lt hn] at h
  have := Nat.mul_comm e n
  omega

/-- Settles O39: the word is a sweep over its blocks, and a block whose flags are enabled ends it. -/
theorem blockConversions : Obligations.BlockConversions := by
  intro s d a sf k h f e i dst ew g n act scale code flags first blocks Written hok hfmt hregs hd ha hfit hblk
  obtain ⟨M, hM⟩ : ∃ M : MxWord, M = mxOperands s d a sf k f := ⟨_, rfl⟩
  obtain ⟨body, hexec, hbody⟩ := exec_vcvtmx d a sf k h f s
  rw [← hM] at hexec hbody
  have hn : 0 < M.n := by
    rw [hM]
    show 0 < if sf = 1 then 16 else 32
    split <;> decide
  have hscale : NoPort s [M.d.toNat + M.g] := by
    have hc := convRegs_companion hregs
    by_cases ht : isTrio s = true
    · rw [if_pos ht] at hc
      refine .inr fun r hr => ?_
      rw [List.mem_singleton.mp hr, hM]
      exact hc
    · exact .inl (by simpa using ht)
  have hr : MxReady s M := by
    subst hM
    exact ⟨hok, hn, hd, hscale, hfit, hblk⟩
  have hready : Ready (mxNeed (encode i) s M) s := by
    refine mx_ready hr ?_ hfmt ?_ ?_ <;> subst hM
    exacts [pow2AtLeast_pos _, hregs, ha]
  have hflags : ∀ lo hi, flags lo hi = blockFlags s M lo hi := fun lo hi => by subst hM; rfl
  have hwritten : ∀ {t : State} {hi : Nat}, Blocks s M hi t → Written t hi := fun ht => by
    subst hM
    exact ⟨ht.elems, ht.scales, ht.rest⟩
  have hfirst : first = vsN s / M.n := by subst hM; rfl
  have hblocks : blocks = ceilDiv (vlN s) M.n := by subst hM; rfl
  have hlast : vsN s < vlN s → first ≤ blocks := fun hlt => by
    rw [hfirst, hblocks]
    unfold ceilDiv
    rw [if_neg (Nat.ne_of_gt hn)]
    exact Nat.div_le_div_right (by omega)
  have hstart : Blocks s M first (chargeWord (ewN s) s) := by rw [hfirst]; exact blocks_start s M
  have hlenM : M.n = n := by subst hM; rfl
  refine ⟨fun hlo => ?_, fun hlo hfree => ?_, fun hlo he1 he2 hfree hen => ?_⟩
  · have hdone : body s = .done { s with thr.sr.vstart := 0 } := by
      rw [hbody]
      exact if_pos hlo
    rw [hexec, run_queued hok.calm hready rfl hdone ⟨rfl, rfl, rfl, rfl, rfl⟩]
    rfl
  · obtain ⟨u, hall, hu⟩ := sweep_all (f := mxBlock s M.dst M.g M.n M.k.toNat M.a M.d) (Blocks s M) (fun _ _ => blocks_whole hok) (blocks - first) first _
      hstart (fun j t h1 h2 ht => blocks_step hr (hfirst ▸ h1) (by omega) (by rw [← hflags]; exact hfree j h1 (by omega)) ht)
    rw [show first + (blocks - first) = blocks by have := hlast hlo; omega] at hu
    have hsw : mxSweep s M = .all u := by
      unfold mxSweep
      rw [← hfirst, ← hblocks]
      exact hall
    have hdone : body s = .done { u with thr.sr.vstart := 0 } := by
      rw [hbody]
      unfold mxBody
      rw [if_neg (Nat.not_le.mpr hlo), hsw]
      rfl
    refine ⟨capture (encode i) { u with thr.sr.vstart := 0 }, ?_, ?_, ?_⟩
    · rw [hexec, run_queued hok.calm hready rfl hdone (blocks_course hu 0)]
      rfl
    · rw [hflags, hfirst]
      exact blocks_only (encode i) hu
    · have hw := hwritten hu
      exact hw
  · obtain ⟨u, hstop, hu⟩ := sweep_stopped (f := mxBlock s M.dst M.g M.n M.k.toNat M.a M.d) (Blocks s M) (fun _ _ => blocks_whole hok)
      (n := blocks - first) (e := e) hstart he1 (by omega)
      (fun j t h1 h2 ht => blocks_step hr (hfirst ▸ h1) (by omega) (by rw [← hflags]; exact hfree j h1 h2) ht)
      (fun t ht => by
        have hent : enabledFlags t (blockFlags s M e (e + 1)) ≠ 0 := by
          rw [blocks_enabled ht, ← hflags]
          exact hen
        rw [mxBlock_eq hn, floatEl_enabled hent, blocks_enabled ht])
    have hsw : mxSweep s M = .stop e 0x10 (enabledFlags s (blockFlags s M e (e + 1))) (some 0) 0 u := by
      unfold mxSweep
      rw [← hfirst, ← hblocks]
      exact hstop
    have htrap : body s = .trap 0x10 (w64 (enabledFlags s (blockFlags s M e (e + 1)))) 0 { u with thr.sr.vstart := w64 (e * M.n) } := by
      rw [hbody]
      unfold mxBody
      rw [if_neg (Nat.not_le.mpr hlo), hsw]
      simp only [finishSweep, setHits_zero]
      rfl
    have hsmall : e * M.n < 2 ^ 64 := lt_trans (ceilDiv_mul_lt hn (hblocks ▸ he2)) s.thr.sr.vl.isLt
    refine ⟨{ u with thr.sr.vstart := w64 (e * M.n) }, ?_, ?_, ?_, ?_⟩
    · rw [hexec, run_trap hok.calm hready htrap, trapWord_at rfl (blocks_course hu _).pc, hflags]
      rfl
    · rw [← hlenM]
      exact w64_toNat hsmall
    · have hw := hwritten hu
      exact hw
    · rw [hflags, hfirst, hu.frame]

end Sys2Proof.Machine
end

section
/-! PROOFS. Words over pairs of moment registers (O41): pairs read after a write, pairs placed by a sweep, and collapsed pairs. -/

namespace Sys2Proof.Machine

/-! ## Pairs of moment registers -/

/-- Only moment registers and their tags differ. -/
def MFrame (s t : State) : Prop := t = { s with thr.m := t.thr.m, thr.hid.units := t.thr.hid.units }

theorem setPairM_eq {s : State} {base i : Nat} {p : Nat × Nat} (h0 : vmN s / 32 ≠ 0) :
    setPairM base i p s = mendBits 3 (base + i / (vmN s / 32)) (64 * (i % (vmN s / 32))) 64 (wm (base + i / (vmN s / 32)) (BitVec.ofNat 32768
      (setBits (rm s (base + i / (vmN s / 32))).toNat (64 * (i % (vmN s / 32))) 64 (p.1 % 2 ^ 32 + p.2 * 2 ^ 32))) (8 * (i % (vmN s / 32) + 1)) s) :=
  if_neg h0

theorem mendBits_wm {s : State} {n top a b : Nat} {v : KReg} (hd : s.thr.hid.damaged = []) : mendBits 3 n a b (wm n v top s) = wm n v top s :=
  mendBits_whole (by exact hd) _ _ _ _

theorem setPairM_plain {s : State} {base i : Nat} {p : Nat × Nat} (hd : s.thr.hid.damaged = []) (h0 : vmN s / 32 ≠ 0) :
    setPairM base i p s = wm (base + i / (vmN s / 32)) (BitVec.ofNat 32768
      (setBits (rm s (base + i / (vmN s / 32))).toNat (64 * (i % (vmN s / 32))) 64 (p.1 % 2 ^ 32 + p.2 * 2 ^ 32))) (8 * (i % (vmN s / 32) + 1)) s := by
  rw [setPairM_eq h0, mendBits_wm hd]

theorem wm_frame (n : Nat) (v : KReg) (top : Nat) (s : State) : MFrame s (wm n v top s) := rfl

theorem rm_wm (n r : Nat) (v : KReg) (top : Nat) (s : State) : rm (wm n v top s) r = if r = n then v else rm s r := by
  split
  case isTrue h => subst h; exact SMap.get_set_self _ _ _ _
  case isFalse h => exact SMap.get_set_ne _ _ _ _ _ h

theorem setPairM_frame {s : State} {base i : Nat} {p : Nat × Nat} (hd : s.thr.hid.damaged = []) : MFrame s (setPairM base i p s) := by
  by_cases h0 : vmN s / 32 = 0
  · unfold setPairM
    dsimp only
    rw [if_pos h0]
    rfl
  · rw [setPairM_plain hd h0]
    exact wm_frame _ _ _ _

theorem rm_setPairM_ne {s : State} {base i r : Nat} {p : Nat × Nat} (hd : s.thr.hid.damaged = []) (h0 : vmN s / 32 ≠ 0)
    (hr : r ≠ base + i / (vmN s / 32)) : rm (setPairM base i p s) r = rm s r := by
  rw [setPairM_plain hd h0, rm_wm, if_neg hr]

theorem rm_setPairM_same {s : State} {base i : Nat} {p : Nat × Nat} (hd : s.thr.hid.damaged = []) (h0 : vmN s / 32 ≠ 0) :
    rm (setPairM base i p s) (base + i / (vmN s / 32)) = BitVec.ofNat 32768 (setBits (rm s (base + i / (vmN s / 32))).toNat
      (64 * (i % (vmN s / 32))) 64 (p.1 % 2 ^ 32 + p.2 * 2 ^ 32)) := by
  rw [setPairM_plain hd h0, rm_wm, if_pos rfl]

/-- The two codes of a pair's 64 bits. -/
theorem bits_pairCodes (a b : Nat) : bits ((a % 2 ^ 32 + b * 2 ^ 32) % 2 ^ 64) 0 32 = a % 2 ^ 32 ∧ bits ((a % 2 ^ 32 + b * 2 ^ 32) % 2 ^ 64) 32 32 = b % 2 ^ 32 := by
  simp only [bits, Nat.shiftRight_eq_div_pow]
  omega

/-- A pair read after a pair of the same group has been written. -/
theorem pairM_setPairM {s : State} {base i j : Nat} {p : Nat × Nat} (hd : s.thr.hid.damaged = []) (hv : vmN s ≤ 16384) (h0 : vmN s / 32 ≠ 0) :
    pairM (setPairM base i p s) base j = if j = i then (p.1 % 2 ^ 32, p.2 % 2 ^ 32) else pairM s base j := by
  have hvm : vmN (setPairM base i p s) = vmN s := by unfold vmN; rw [setPairM_frame (p := p) hd]
  unfold pairM
  simp only [hvm, if_neg h0]
  by_cases hq : j / (vmN s / 32) = i / (vmN s / 32)
  · have hin : 64 * (i % (vmN s / 32)) + 64 ≤ 32768 := by
      have := Nat.mod_lt i (Nat.pos_of_ne_zero h0)
      omega
    rw [hq, rm_setPairM_same hd h0, BitVec.toNat_ofNat, Nat.mod_eq_of_lt (setBits_lt (rm s _).isLt hin)]
    by_cases hji : j = i
    · obtain ⟨hmu, hva⟩ := bits_pairCodes p.1 p.2
      rw [if_pos hji, hji, elemOf_setBits_same, hmu, hva]
    · rw [if_neg hji, elemOf_setBits_ne]
      intro hm
      apply hji
      rw [← Nat.div_add_mod j (vmN s / 32), ← Nat.div_add_mod i (vmN s / 32), hq, hm]
  · have hji : j ≠ i := fun h => hq (by rw [h])
    rw [if_neg hji, rm_setPairM_ne hd h0 (by omega)]

/-- Pairs of one group placed one by one: what the group holds after it. -/
structure PlacedPairs (s : State) (d g : Nat) (val : Nat → Option (Nat × Nat)) (t : State) : Prop where
  frame : MFrame s t
  pairs : ∀ j, j < vmN s / 32 * g → pairM t d j = match val j with | some p => (p.1 % 2 ^ 32, p.2 % 2 ^ 32) | none => pairM s d j
  rest : ∀ r, r < d ∨ d + g ≤ r → rm t r = rm s r

theorem placedPairs_none (s : State) (d g : Nat) : PlacedPairs s d g (fun _ => none) s := ⟨rfl, fun _ _ => rfl, fun _ _ => rfl⟩

theorem placedPairs_congr {s t : State} {d g : Nat} {val val' : Nat → Option (Nat × Nat)} (h : ∀ j, j < vmN s / 32 * g → val j = val' j)
    (ht : PlacedPairs s d g val t) : PlacedPairs s d g val' t :=
  ⟨ht.frame, fun j hj => by rw [ht.pairs j hj, h j hj], ht.rest⟩

theorem placedPairs_set {s t : State} {d g i : Nat} {p : Nat × Nat} {val : Nat → Option (Nat × Nat)} (hd : s.thr.hid.damaged = [])
    (hv : vmN s ≤ 16384) (hi : i < vmN s / 32 * g) (ht : PlacedPairs s d g val t) :
    PlacedPairs s d g (fun j => if j = i then some p else val j) (setPairM d i p t) := by
  have htf : t = { s with thr.m := t.thr.m, thr.hid.units := t.thr.hid.units } := ht.frame
  have tvm : vmN t = vmN s := by unfold vmN; rw [htf]
  have tdm : t.thr.hid.damaged = [] := by rw [htf]; exact hd
  have h0 : vmN s / 32 ≠ 0 := fun h => by rw [h, Nat.zero_mul] at hi; exact absurd hi (Nat.not_lt_zero _)
  refine ⟨?_, fun j hj => ?_, fun r hr => ?_⟩
  · have hf : setPairM d i p t = { t with thr.m := (setPairM d i p t).thr.m, thr.hid.units := (setPairM d i p t).thr.hid.units } := setPairM_frame tdm
    generalize setPairM d i p t = w at hf ⊢
    exact hf.trans ((congrArg (fun q : State => ({ q with thr.m := w.thr.m, thr.hid.units := w.thr.hid.units } : State)) htf).trans rfl)
  · rw [pairM_setPairM tdm (tvm ▸ hv) (tvm ▸ h0)]
    by_cases hji : j = i
    · simp [hji]
    · rw [if_neg hji, ht.pairs j hj]
      simp [hji]
  · have hq : i / (vmN t / 32) < g := by
      rw [tvm, Nat.div_lt_iff_lt_mul (Nat.pos_of_ne_zero h0), Nat.mul_comm]
      exact hi
    have hne : r ≠ d + i / (vmN t / 32) := fun e => hr.elim (fun h => absurd (e ▸ h) (Nat.not_lt.mpr (Nat.le_add_right _ _)))
      (fun h => absurd (e ▸ h) (Nat.not_le.mpr (Nat.add_lt_add_left hq d)))
    rw [rm_setPairM_ne tdm (tvm ▸ h0) hne]
    exact ht.rest r hr

theorem placedPairs_merge {s t : State} {d g : Nat} {val : Nat → Option (Nat × Nat)} (fl mfl : Nat) (ht : PlacedPairs s d g val t) :
    PlacedPairs (mergeMflags mfl (mergeFlags fl s)) d g val (mergeMflags mfl (mergeFlags fl t)) := by
  have htf : t = { s with thr.m := t.thr.m, thr.hid.units := t.thr.hid.units } := ht.frame
  refine ⟨?_, ht.pairs, ht.rest⟩
  exact (congrArg (fun q : State => mergeMflags mfl (mergeFlags fl q)) htf).trans rfl

theorem placed_merge {s t : State} {d g ew : Nat} {val : Nat → Option Nat} (fl : Nat) (ht : Placed s d g ew val t) :
    Placed (mergeFlags fl s) d g ew val (mergeFlags fl t) := by
  have htf : t = { s with thr.v := t.thr.v, thr.hid.units := t.thr.hid.units } := ht.frame
  refine ⟨?_, ht.elems, ht.rest⟩
  exact (congrArg (mergeFlags fl) htf).trans rfl

/-! ## Flags gathered by a sweep -/

theorem gathered_start (s : State) (k : BitVec 3) (f : Nat → Nat) : gathered s k (vsN s) f = 0 := by
  unfold gathered
  rw [Nat.sub_self]
  rfl

theorem gathered_succ {s : State} {k : BitVec 3} {i : Nat} {f : Nat → Nat} (h : vsN s ≤ i) :
    gathered s k (i + 1) f = if activeAt s k.toNat i then gathered s k i f ||| f i else gathered s k i f := by
  unfold gathered
  rw [show i + 1 - vsN s = (i - vsN s) + 1 by omega, foldl_upFrom, show vsN s + (i - vsN s) = i by omega]

theorem w64_or8 (a b : Nat) : w64 ((a ||| b) % 8) = w64 (a % 8) ||| w64 (b % 8) := by
  apply BitVec.eq_of_toNat_eq
  have h : ∀ x : Nat, x % 8 % 2 ^ 64 = x % 8 := fun x => Nat.mod_eq_of_lt (by omega)
  rw [w64, w64, w64, BitVec.toNat_or, BitVec.toNat_ofNat, BitVec.toNat_ofNat, BitVec.toNat_ofNat, h, h, h]
  exact Nat.or_mod_two_pow (n := 3)

/-- The charged state with the flags that the elements below i raise. -/
def flagged (s : State) (k : BitVec 3) (fl mfl : Nat → Nat) (i : Nat) : State :=
  { chargeWord 64 s with
    thr.sr.fpflags := s.thr.sr.fpflags ||| w64 (gathered s k i fl % 32), thr.sr.mflags := s.thr.sr.mflags ||| w64 (gathered s k i mfl % 8) }

theorem flagged_start (s : State) (k : BitVec 3) (fl mfl : Nat → Nat) : flagged s k fl mfl (vsN s) = chargeWord 64 s := by
  have h : (chargeWord 64 s).thr = s.thr := (chargeWord_frame 64 s).1
  unfold flagged
  rw [gathered_start, gathered_start, ← h]
  simp [w64]

theorem flagged_succ {s : State} {k : BitVec 3} {fl mfl : Nat → Nat} {i : Nat} (h : vsN s ≤ i) :
    flagged s k fl mfl (i + 1) =
      if activeAt s k.toNat i then mergeMflags (mfl i) (mergeFlags (fl i) (flagged s k fl mfl i)) else flagged s k fl mfl i := by
  unfold flagged
  rw [gathered_succ h, gathered_succ h]
  split
  · rw [w64_or, w64_or8, ← BitVec.or_assoc, ← BitVec.or_assoc]
    rfl
  · rfl

theorem flagged_damaged {s : State} (h : VectorOk s) (k : BitVec 3) (fl mfl : Nat → Nat) (i : Nat) : (flagged s k fl mfl i).thr.hid.damaged = [] := by
  show (chargeWord 64 s).thr.hid.damaged = []
  rw [(chargeWord_frame 64 s).1]
  exact h.calm.whole

theorem flagged_vmN (s : State) (k : BitVec 3) (fl mfl : Nat → Nat) (i : Nat) : vmN (flagged s k fl mfl i) = vmN s := by
  show (chargeWord 64 s).thr.sr.vlmax.toNat = _
  rw [(chargeWord_frame 64 s).1]
  rfl

theorem flagged_pairM (s : State) (k : BitVec 3) (fl mfl : Nat → Nat) (i d j : Nat) : pairM (flagged s k fl mfl i) d j = pairM s d j := by
  have hm : ∀ r, rm (flagged s k fl mfl i) r = rm s r := fun r => by
    show SMap.get 0 (chargeWord 64 s).thr.m r = _
    rw [(chargeWord_frame 64 s).1]
    rfl
  unfold pairM
  simp only [flagged_vmN, hm]

theorem flagged_slot (s : State) (k : BitVec 3) (fl mfl : Nat → Nat) (i : Nat) : (flagged s k fl mfl i).slot = s.slot := (chargeWord_frame 64 s).2.1

theorem flagged_rv (s : State) (k : BitVec 3) (fl mfl : Nat → Nat) (i r : Nat) : rv (flagged s k fl mfl i) r = rv s r := by
  refine rv_frame ?_ (flagged_slot s k fl mfl i) (chargeWord_frame 64 s).2.2.1 r
  show (chargeWord 64 s).thr.v = _
  rw [(chargeWord_frame 64 s).1]

theorem flagged_elemV (s : State) (k : BitVec 3) (fl mfl : Nat → Nat) (i d ew j : Nat) : elemV (flagged s k fl mfl i) d ew j = elemV s d ew j := by
  refine elemV_frame ?_ (flagged_slot s k fl mfl i) (chargeWord_frame 64 s).2.2.1 (flagged_vmN s k fl mfl i) _ _ _
  show (chargeWord 64 s).thr.v = _
  rw [(chargeWord_frame 64 s).1]

theorem flagged_enabled (s : State) (k : BitVec 3) (fl mfl : Nat → Nat) (i f : Nat) : enabledFlags (flagged s k fl mfl i) f = enabledFlags s f := by
  unfold enabledFlags
  show f &&& bits (chargeWord 64 s).thr.sr.fpctl.toNat 8 5 = _
  rw [(chargeWord_frame 64 s).1]

/-! ## Words over pairs (R153 to R159, R161) -/

/-- Element i of a word over pairs, by its form. -/
def formPair (s : State) (F : MomentForm) (i : Nat) (t : State) : El :=
  if activeAt s F.k.toNat i then moEl (F.val i) (setPairM F.d.toNat i ((F.val i).mu, (F.val i).v)) t else .ok t

/-- The pairs below i placed over the flags of the elements below i. -/
def Pairs (s : State) (F : MomentForm) (i : Nat) (t : State) : Prop :=
  PlacedPairs (flagged s F.k (fun j => (F.val j).fl) (fun j => (F.val j).mfl) i) F.d.toNat (grpN s)
    (fun j => if written s F.k j ∧ j < i then some ((F.val j).mu, (F.val j).v) else none) t

theorem pairs_frame {s t : State} {F : MomentForm} {i : Nat} (h : Pairs s F i t) :
    t = { flagged s F.k (fun j => (F.val j).fl) (fun j => (F.val j).mfl) i with thr.m := t.thr.m, thr.hid.units := t.thr.hid.units } := h.frame

theorem pairs_whole {s t : State} {F : MomentForm} {i : Nat} (hok : VectorOk s) (h : Pairs s F i t) : t.thr.hid.damaged = [] := by
  rw [pairs_frame h]
  exact flagged_damaged hok _ _ _ _

theorem pairs_enabled {s t : State} {F : MomentForm} {i fl : Nat} (h : Pairs s F i t) : enabledFlags t fl = enabledFlags s fl := by
  rw [pairs_frame h]
  exact flagged_enabled s _ _ _ _ _

theorem pairs_start (s : State) (F : MomentForm) : Pairs s F (vsN s) (chargeWord 64 s) := by
  unfold Pairs
  rw [flagged_start]
  refine placedPairs_congr (fun j _ => (if_neg ?_).symm) (placedPairs_none _ _ _)
  rintro ⟨⟨hlo, -⟩, hlt⟩
  exact absurd (lt_of_le_of_lt hlo hlt) (lt_irrefl _)

/-- A pair without an enabled flag and without a negative variance that traps. -/
theorem moEl_free {r : MoOut} {put : State → State} {t : State} (hfl : enabledFlags t r.fl = 0) (hneg : r.neg = none) :
    moEl r put t = .ok (put (mergeMflags r.mfl (mergeFlags r.fl t))) := by
  unfold moEl
  rw [if_neg (by simp [hfl]), hneg]

theorem moEl_enabled {r : MoOut} {put : State → State} {t : State} (h : enabledFlags t r.fl ≠ 0) :
    moEl r put t = .trap 0x10 (enabledFlags t r.fl) (some 0) 0 := by
  unfold moEl
  rw [if_pos (by simpa using h)]

theorem moEl_negative {r : MoOut} {put : State → State} {t : State} {v : Nat} (hfl : enabledFlags t r.fl = 0) (hneg : r.neg = some v) :
    moEl r put t = .trap 0x12 v none 0 := by
  unfold moEl
  rw [if_neg (by simp [hfl]), hneg]

theorem written_below_succ {s : State} {k : BitVec 3} {i j : Nat} (hji : j ≠ i) : (written s k j ∧ j < i + 1) ↔ (written s k j ∧ j < i) :=
  ⟨fun h => ⟨h.1, by omega⟩, fun h => ⟨h.1, by omega⟩⟩

theorem pairs_step {s t : State} {F : MomentForm} {i : Nat} (hok : VectorOk s) (hfits : vlN s ≤ pairsLen s) (hlo : vsN s ≤ i) (hhi : i < vlN s)
    (hfree : written s F.k i → enabledFlags s (F.val i).fl = 0 ∧ (F.val i).neg = none) (h : Pairs s F i t) :
    ∃ u, formPair s F i t = .ok u ∧ Pairs s F (i + 1) u := by
  unfold formPair
  by_cases ha : activeAt s F.k.toNat i = true
  · obtain ⟨hfl, hneg⟩ := hfree ⟨hlo, hhi, ha⟩
    refine ⟨_, (if_pos ha).trans (moEl_free (by rw [pairs_enabled h]; exact hfl) hneg), ?_⟩
    unfold Pairs
    rw [flagged_succ hlo, if_pos ha]
    obtain ⟨b, hb⟩ : ∃ b : State, b = flagged s F.k (fun j => (F.val j).fl) (fun j => (F.val j).mfl) i := ⟨_, rfl⟩
    have hmerged := placedPairs_merge (F.val i).fl (F.val i).mfl h
    rw [← hb] at hmerged ⊢
    have hdamaged : b.thr.hid.damaged = [] := by rw [hb]; exact flagged_damaged hok _ _ _ _
    have hvm : vmN b = vmN s := by rw [hb]; exact flagged_vmN s _ _ _ _
    have hin : i < vmN b / 32 * grpN s := by rw [hvm]; exact lt_of_lt_of_le hhi hfits
    refine placedPairs_congr (fun j _ => ?_) (placedPairs_set (i := i) (p := ((F.val i).mu, (F.val i).v)) hdamaged (hvm ▸ hok.vmax) hin hmerged)
    by_cases hji : j = i
    · subst hji
      exact (if_pos rfl).trans (if_pos ⟨⟨hlo, hhi, ha⟩, Nat.lt_succ_self _⟩).symm
    · exact (if_neg hji).trans (if_congr (written_below_succ hji) rfl rfl).symm
  · refine ⟨t, if_neg ha, ?_⟩
    unfold Pairs
    rw [flagged_succ hlo, if_neg ha]
    refine placedPairs_congr (fun j _ => ?_) h
    by_cases hji : j = i
    · subst hji
      exact (if_neg (fun hw => ha hw.1.2.2)).trans (if_neg (fun hw => ha hw.1.2.2)).symm
    · exact (if_congr (written_below_succ hji) rfl rfl).symm

/-- A state is left by a word over pairs that its form describes. -/
def RunsPairs (w : BitVec 32) (s : State) (F : MomentForm) (t : State) : Prop :=
  ∃ (n : Need) (body : State → Res), t = run n s body ∧ n.word = w ∧ n.queued = true ∧ n.vs0 = false ∧
    (MomentReady s (F.d :: F.mr) F.vr F.xs → Ready n s) ∧ body s = stripWord 64 (formPair s F) s

theorem moFmt_ready {s : State} {ms : List (BitVec 3)} {vs xs : List (BitVec 5)} (h : MomentReady s ms vs xs) : moFmt s = true := by
  unfold moFmt noBlk
  simp [h.single, h.noBlocks]

theorem moPorts_ready {s : State} {n : Need} (h : ∀ g ∈ n.vr ++ n.vw, GroupOk s g) : moPorts s n = true := by
  unfold moPorts
  by_cases ht : isTrio s = true
  · simp only [ht, Bool.not_true, Bool.false_or, List.all_eq_true, decide_eq_true_eq]
    intro g hg
    have hle := (h g hg).2
    rwa [if_pos ht] at hle
  · simp [ht]

theorem ready_moment {s : State} {n : Need} {ms : List (BitVec 3)} {vs xs : List (BitVec 5)} (h : MomentReady s ms vs xs) (hrole : n.roleOk = true)
    (hfmt : n.fmtOk = moFmt s) (hown : n.regOk = true) (hx : n.xr ++ n.xw = xs.map BitVec.toNat)
    (hv : ∀ g ∈ n.vr ++ n.vw, g ∈ vs.map (fun r => (r.toNat, grpN s))) (hm : ∀ g ∈ n.mr ++ n.mw, g ∈ ms.map (fun r => (r.toNat, grpN s))) :
    Ready n s := by
  refine ⟨hrole, fun _ => by rw [h.single]; decide, hfmt.trans (moFmt_ready h), hown, hx ▸ h.noPorts, fun g hg => ?_, fun g hg => ?_, fun _ => h.ok.room⟩
  · obtain ⟨r, hr, rfl⟩ := List.mem_map.mp (hv g hg)
    exact ⟨grpN_pos s, h.groups r hr⟩
  · obtain ⟨r, hr, rfl⟩ := List.mem_map.mp (hm g hg)
    exact h.pairs r hr

theorem momentWord_runs {s : State} {n : Need} {d k : BitVec 3} {mr : List (BitVec 3)} {vr xs : List (BitVec 5)} {f : State → Nat → MoOut}
    (hn : n = { word := n.word, mr := mr.map (mgrp s), vr := vr.map (grp s), xr := xs.map BitVec.toNat }) :
    RunsPairs n.word s ⟨d, k, mr, vr, xs, f s⟩ (momentWord n d k f s) := by
  refine ⟨_, _, rfl, rfl, rfl, by rw [hn], fun h => ?_, rfl⟩
  have hgroups : ∀ g ∈ n.vr ++ n.vw, g ∈ vr.map (fun r => (r.toNat, grpN s)) := fun g hg => by
    rw [hn, List.append_nil] at hg
    exact hg
  refine ready_moment h (by rw [hn]) rfl ?_ ?_ hgroups ?_
  · exact moPorts_ready fun g hg => by
      obtain ⟨r, hr, rfl⟩ := List.mem_map.mp (hgroups g hg)
      exact h.groups r hr
  · rw [hn]
    exact List.append_nil _
  · rw [hn]
    intro g hg
    rcases List.mem_append.mp hg with hg | hg
    · exact List.mem_cons_of_mem _ hg
    · rw [List.mem_singleton.mp hg]
      exact List.mem_cons_self

theorem xElem_eq (s : State) (b : BitVec 5) (ew : Nat) : xElem s b ew = (xr s b).toNat % 2 ^ ew := rfl

theorem exec_momentForm {s : State} {i : Instr} {F : MomentForm} (h : momentForm s i = some F) :
    ∃ t, exec i s = .next t ∧ RunsPairs (encode i) s F t := by
  unfold momentForm at h
  split at h
  case h_13 => cases h
  all_goals
    cases h
    refine ⟨_, rfl, ?_⟩
    exact momentWord_runs rfl

theorem pairs_course {s t : State} {F : MomentForm} {i : Nat} (h : Pairs s F i t) (v : Word) : SameCourse s { t with thr.sr.vstart := v } := by
  refine (chargeWord_course 64 s).trans ?_
  rw [pairs_frame h]
  exact ⟨rfl, rfl, rfl, rfl, rfl⟩

/-- What the elements below e leave, as the claim about words over pairs says it. -/
structure PairsDone (s : State) (F : MomentForm) (e : Nat) (t : State) (replay : List Replay) : Prop where
  frame : t = { chargeWord 64 s with
    thr.m := t.thr.m
    thr.hid.units := t.thr.hid.units
    thr.sr.vstart := t.thr.sr.vstart
    thr.sr.fpflags := s.thr.sr.fpflags ||| w64 (gathered s F.k e (fun j => (F.val j).fl) % 32)
    thr.sr.mflags := s.thr.sr.mflags ||| w64 (gathered s F.k e (fun j => (F.val j).mfl) % 8)
    thr.pnd.replay := replay }
  pairs : ∀ j, j < pairsLen s → pairM t F.d.toNat j =
    if written s F.k j ∧ j < e then ((F.val j).mu % 2 ^ 32, (F.val j).v % 2 ^ 32) else pairM s F.d.toNat j
  rest : ∀ r, r < F.d.toNat ∨ F.d.toNat + grpN s ≤ r → rm t r = rm s r

theorem pairs_elements {s t : State} {F : MomentForm} {e : Nat} (h : Pairs s F e t) :
    (∀ j, j < pairsLen s → pairM t F.d.toNat j =
      if written s F.k j ∧ j < e then ((F.val j).mu % 2 ^ 32, (F.val j).v % 2 ^ 32) else pairM s F.d.toNat j) ∧
    ∀ r, r < F.d.toNat ∨ F.d.toNat + grpN s ≤ r → rm t r = rm s r := by
  refine ⟨fun j hj => ?_, fun r hr => (h.rest r hr).trans ?_⟩
  · refine (h.pairs j (by rw [flagged_vmN]; exact hj)).trans ?_
    by_cases hw : written s F.k j ∧ j < e
    · simp only [if_pos hw]
    · simp only [if_neg hw, flagged_pairM]
  · show SMap.get 0 (chargeWord 64 s).thr.m r = _
    rw [(chargeWord_frame 64 s).1]
    rfl

/-- The state after the elements below e, with VSTART set and nothing yet in the replay queue. -/
theorem pairs_stopped {s t : State} {F : MomentForm} {e : Nat} (h : Pairs s F e t) (v : Word) :
    PairsDone s F e { t with thr.sr.vstart := v } s.thr.pnd.replay := by
  obtain ⟨hpairs, hrest⟩ := pairs_elements h
  refine ⟨?_, hpairs, hrest⟩
  have hrep : (chargeWord 64 s).thr.pnd.replay = s.thr.pnd.replay := by rw [(chargeWord_frame 64 s).1]
  rw [← hrep]
  exact (congrArg (fun q : State => ({ q with thr.sr.vstart := v } : State)) (pairs_frame h)).trans rfl

/-- The state after a whole word, behind its entry in the replay queue. -/
theorem pairs_captured {s t : State} {F : MomentForm} {e : Nat} (w : BitVec 32) (h : Pairs s F e t) :
    PairsDone s F e (capture w { t with thr.sr.vstart := 0 }) (s.thr.pnd.replay ++ [captured w s]) := by
  obtain ⟨hpairs, hrest⟩ := pairs_elements h
  refine ⟨?_, hpairs, hrest⟩
  obtain ⟨hthr, -, hcur, -, hchk, -⟩ := chargeWord_frame 64 s
  have hcap : captured w { t with thr.sr.vstart := 0 } = captured w s := by
    rw [pairs_frame h]
    simp only [captured, flagged, hthr, hcur, hchk]
  have hrep : t.thr.pnd.replay = s.thr.pnd.replay := by
    rw [pairs_frame h]
    simp only [flagged, hthr]
  unfold capture
  rw [hcap, ← hrep]
  exact (congrArg (fun q : State => ({ q with thr.sr.vstart := 0, thr.pnd.replay := t.thr.pnd.replay ++ [captured w s] } : State))
    (pairs_frame h)).trans rfl

/-- A word over pairs stopped at element e by a trap. -/
theorem pairs_trap {s : State} {i : Instr} {F : MomentForm} {e c v : Nat} {v2 : Option Nat} {n : Need} {body : State → Res}
    (hr : MomentReady s (F.d :: F.mr) F.vr F.xs) (hready : Ready n s) (hword : n.word = encode i) (h0 : n.vs0 = false)
    (hbody : body s = stripWord 64 (formPair s F) s) (hfree : ∀ j, j < e → written s F.k j → enabledFlags s (F.val j).fl = 0 ∧ (F.val j).neg = none)
    (hw : written s F.k e) (he : ∀ t, Pairs s F e t → formPair s F e t = .trap c v v2 0) :
    ∃ t, run n s body = takeTrap (encode i) c s.thr.pc (w64 v) (w64 (v2.getD e)) t ∧ PairsDone s F e t s.thr.pnd.replay ∧ vsN t = e := by
  obtain ⟨hlo, hhi, hact⟩ := hw
  obtain ⟨u, hstop, hu⟩ := sweep_stopped (f := formPair s F) (Pairs s F) (fun _ _ => pairs_whole hr.ok) (n := vlN s - vsN s) (e := e)
    (pairs_start s F) hlo (by omega) (fun j t h1 h2 ht => pairs_step hr.ok hr.fits h1 (by omega) (fun hw => hfree j h2 hw) ht) he
  have hsmall : e < 2 ^ 64 := lt_trans hhi s.thr.sr.vl.isLt
  have htrap : body s = .trap c (w64 v) (w64 (v2.getD e)) { u with thr.sr.vstart := w64 e } := by
    rw [hbody]
    unfold stripWord
    rw [hstop]
    simp only [finishSweep, setHits_zero]
  refine ⟨{ u with thr.sr.vstart := w64 e }, ?_, pairs_stopped hu _, w64_toNat hsmall⟩
  rw [run_trap hr.ok.calm hready htrap, trapWord_at h0 (pairs_course hu _).pc, hword]

/-! ## Collapsed pairs (R148, R160) -/

/-- Element i of a collapsing word, by its form. -/
def formCollapse (s : State) (F : CollapseForm) (i : Nat) (t : State) : El :=
  if activeAt s F.k.toNat i then floatEl (F.val i).2 (setElemV F.d.toNat 32 i (F.val i).1) t else .ok t

/-- The elements below i placed over the flags of the elements below i. -/
def Collapsed (s : State) (F : CollapseForm) (i : Nat) (t : State) : Prop :=
  Placed (flagged s F.k (fun j => (F.val j).2) (fun _ => 0) i) F.d.toNat (grpN s) 32
    (fun j => if written s F.k j ∧ j < i then some (F.val j).1 else none) t

theorem collapsed_frame {s t : State} {F : CollapseForm} {i : Nat} (h : Collapsed s F i t) :
    t = { flagged s F.k (fun j => (F.val j).2) (fun _ => 0) i with thr.v := t.thr.v, thr.hid.units := t.thr.hid.units } := h.frame

theorem collapsed_whole {s t : State} {F : CollapseForm} {i : Nat} (hok : VectorOk s) (h : Collapsed s F i t) : t.thr.hid.damaged = [] := by
  rw [collapsed_frame h]
  exact flagged_damaged hok _ _ _ _

theorem collapsed_enabled {s t : State} {F : CollapseForm} {i fl : Nat} (h : Collapsed s F i t) : enabledFlags t fl = enabledFlags s fl := by
  rw [collapsed_frame h]
  exact flagged_enabled s _ _ _ _ _

theorem collapsed_start (s : State) (F : CollapseForm) : Collapsed s F (vsN s) (chargeWord 64 s) := by
  unfold Collapsed
  rw [flagged_start]
  refine placed_congr (fun j _ => (if_neg ?_).symm) (placed_none _ _ _ _)
  rintro ⟨⟨hlo, -⟩, hlt⟩
  exact absurd (lt_of_le_of_lt hlo hlt) (lt_irrefl _)

theorem gathered_zero (s : State) (k : BitVec 3) (e : Nat) : gathered s k e (fun _ => 0) = 0 := by
  unfold gathered
  simp only [Nat.or_zero, ite_self]
  induction upFrom (vsN s) (e - vsN s) with
  | nil => rfl
  | cons _ _ ih => exact ih

/-- Merging no moment flag changes nothing. -/
theorem mergeMflags_none (s : State) : mergeMflags 0 s = s := by
  unfold mergeMflags
  simp [w64]

/-- The elements of a group of FP32 codes are the pairs of a moment group of the same factor. -/
theorem groupLen_single (s : State) (g : Nat) : groupLen s 32 g = vmN s / 32 * g := rfl

theorem collapsed_step {s t : State} {F : CollapseForm} {i : Nat} (hok : VectorOk s) (hfits : vlN s ≤ pairsLen s)
    (hd : GroupOk s (F.d.toNat, grpN s)) (hlo : vsN s ≤ i) (hhi : i < vlN s) (hfree : written s F.k i → enabledFlags s (F.val i).2 = 0)
    (h : Collapsed s F i t) : ∃ u, formCollapse s F i t = .ok u ∧ Collapsed s F (i + 1) u := by
  unfold formCollapse
  by_cases ha : activeAt s F.k.toNat i = true
  · refine ⟨_, (if_pos ha).trans (floatEl_free (by rw [collapsed_enabled h]; exact hfree ⟨hlo, hhi, ha⟩)), ?_⟩
    unfold Collapsed
    rw [flagged_succ hlo, if_pos ha, mergeMflags_none]
    have hmerged := placed_merge (F.val i).2 h
    obtain ⟨b, hb⟩ : ∃ b : State, b = flagged s F.k (fun j => (F.val j).2) (fun _ => 0) i := ⟨_, rfl⟩
    rw [← hb] at hmerged ⊢
    have hdamaged : b.thr.hid.damaged = [] := by rw [hb]; exact flagged_damaged hok _ _ _ _
    have hvm : vmN b = vmN s := by rw [hb]; exact flagged_vmN s _ _ _ _
    have hgroup : GroupOk b (F.d.toNat, grpN s) := by
      have hslot : b.slot = s.slot := by rw [hb]; exact flagged_slot s _ _ _ _
      unfold GroupOk isTrio
      rw [hslot]
      exact hd
    have hin : i < groupLen (mergeFlags (F.val i).2 b) 32 (grpN s) := by
      show i < vmN b / 32 * grpN s
      rw [hvm]
      exact lt_of_lt_of_le hhi hfits
    have hplaced := placed_set (s := mergeFlags (F.val i).2 b) (i := i) (c := (F.val i).1) hdamaged (le_of_eq_of_le hvm hok.vmax) hgroup hin hmerged
    refine placed_congr (fun j _ => ?_) hplaced
    by_cases hji : j = i
    · subst hji
      exact (if_pos rfl).trans (if_pos ⟨⟨hlo, hhi, ha⟩, Nat.lt_succ_self _⟩).symm
    · exact (if_neg hji).trans (if_congr (written_below_succ hji) rfl rfl).symm
  · refine ⟨t, if_neg ha, ?_⟩
    unfold Collapsed
    rw [flagged_succ hlo, if_neg ha]
    refine placed_congr (fun j _ => ?_) h
    by_cases hji : j = i
    · subst hji
      exact (if_neg (fun hw => ha hw.1.2.2)).trans (if_neg (fun hw => ha hw.1.2.2)).symm
    · exact (if_congr (written_below_succ hji) rfl rfl).symm

/-- A state is left by a collapsing word that its form describes. -/
def RunsCollapse (w : BitVec 32) (s : State) (F : CollapseForm) (t : State) : Prop :=
  ∃ (n : Need) (body : State → Res), t = run n s body ∧ n.word = w ∧ n.queued = true ∧
    (MomentReady s [F.a] (F.d :: F.vr) F.xs → F.own = true → Ready n s) ∧ body s = stripWord 64 (formCollapse s F) s

theorem collapseWord_runs {s : State} {n : Need} {d : BitVec 5} {a k : BitVec 3} {vr xs : List (BitVec 5)} {own : Bool}
    {f : State → Nat → Nat × Nat → Nat × Nat} (hn : n = { word := n.word, vr := vr.map (grp s), xr := xs.map BitVec.toNat, regOk := own }) :
    RunsCollapse n.word s ⟨d, k, a, vr, xs, own, fun i => f s i (pairAt s a i)⟩ (collapseWord n d a k f s) := by
  refine ⟨_, _, rfl, rfl, rfl, fun h hown => ?_, rfl⟩
  have hgroups : ∀ g ∈ n.vr ++ [grp s d], g ∈ (d :: vr).map (fun r => (r.toNat, grpN s)) := fun g hg => by
    rw [hn] at hg
    rcases List.mem_append.mp hg with hg | hg
    · exact List.mem_cons_of_mem _ hg
    · rw [List.mem_singleton.mp hg]
      exact List.mem_cons_self
  refine ready_moment h (by rw [hn]) rfl ?_ ?_ hgroups ?_
  · show (n.regOk && moPorts s { n with vw := [grp s d] }) = true
    rw [moPorts_ready (fun g hg => by
      obtain ⟨r, hr, rfl⟩ := List.mem_map.mp (hgroups g hg)
      exact h.groups r hr), Bool.and_true, hn]
    exact hown
  · rw [hn]
    exact List.append_nil _
  · rw [hn]
    intro g hg
    exact hg

/-- The register rule of `mocol.sample` (R160). -/
theorem sample_own (s : State) (b d : BitVec 5) : (b = d || !meets (grp s b) (grp s d)) = (b = d || vecForm.apart s b d) := by
  have h : (!meets (grp s b) (grp s d)) = vecForm.apart s b d := (congrArg _ rfl).trans (not_overlap s b d)
  rw [h]

theorem exec_collapseForm {s : State} {i : Instr} {F : CollapseForm} (h : collapseForm s i = some F) :
    ∃ t, exec i s = .next t ∧ RunsCollapse (encode i) s F t := by
  unfold collapseForm at h
  split at h
  case h_7 => cases h
  all_goals
    cases h
    refine ⟨_, rfl, ?_⟩
  case h_1 | h_2 | h_4 | h_5 => exact collapseWord_runs rfl
  case h_3 d a k _ => exact collapseWord_runs (f := fun s _ p => if pairNan p then (nan32, sig32 [p.1, p.2]) else sigma (ftzN s) (constS p.2)) rfl
  case h_6 =>
    rw [← sample_own]
    exact collapseWord_runs rfl

theorem collapsed_course {s t : State} {F : CollapseForm} {i : Nat} (h : Collapsed s F i t) (v : Word) :
    SameCourse s { t with thr.sr.vstart := v } := by
  refine (chargeWord_course 64 s).trans ?_
  rw [collapsed_frame h]
  exact ⟨rfl, rfl, rfl, rfl, rfl⟩

theorem collapsed_captured {s t : State} {F : CollapseForm} {e : Nat} (w : BitVec 32) (h : Collapsed s F e t) :
    capture w { t with thr.sr.vstart := 0 } = { chargeWord 64 s with
      thr.v := t.thr.v
      thr.hid.units := t.thr.hid.units
      thr.sr.vstart := 0
      thr.sr.fpflags := s.thr.sr.fpflags ||| w64 (gathered s F.k e (fun j => (F.val j).2) % 32)
      thr.pnd.replay := s.thr.pnd.replay ++ [captured w s] } := by
  obtain ⟨hthr, -, hcur, -, hchk, -⟩ := chargeWord_frame 64 s
  have hcap : captured w { t with thr.sr.vstart := 0 } = captured w s := by
    rw [collapsed_frame h]
    simp only [captured, flagged, hthr, hcur, hchk]
  have hrep : t.thr.pnd.replay = s.thr.pnd.replay := by
    rw [collapsed_frame h]
    simp only [flagged, hthr]
  have hm : (flagged s F.k (fun j => (F.val j).2) (fun _ => 0) e).thr.sr.mflags = (chargeWord 64 s).thr.sr.mflags := by
    unfold flagged
    rw [gathered_zero, hthr]
    simp [w64]
  have hflagged : flagged s F.k (fun j => (F.val j).2) (fun _ => 0) e =
      { chargeWord 64 s with thr.sr.fpflags := s.thr.sr.fpflags ||| w64 (gathered s F.k e (fun j => (F.val j).2) % 32) } := by
    have hself : flagged s F.k (fun j => (F.val j).2) (fun _ => 0) e =
        { flagged s F.k (fun j => (F.val j).2) (fun _ => 0) e with thr.sr.mflags := (chargeWord 64 s).thr.sr.mflags } := by
      rw [← hm]
    exact hself
  unfold capture
  rw [hcap, ← hrep]
  have hframe := collapsed_frame h
  rw [hflagged] at hframe
  exact (congrArg (fun q : State => ({ q with thr.sr.vstart := 0, thr.pnd.replay := t.thr.pnd.replay ++ [captured w s] } : State)) hframe).trans rfl

/-- Settles O41: both kinds of word are sweeps that place their form's results over the flags raised so far. -/
theorem momentWords : Obligations.MomentWords := by
  refine ⟨fun s i F e hF hr hfree => ?_, fun s i F hF hr hown hfree => ?_⟩
  · obtain ⟨t, hexec, n, body, hrun, hword, hq, h0, hready, hbody⟩ := exec_momentForm hF
    refine ⟨fun he => ?_, fun hw hen => ?_, fun v hw hfl hneg => ?_⟩
    · obtain ⟨u, hall, hu⟩ := sweep_all (f := formPair s F) (Pairs s F) (fun _ _ => pairs_whole hr.ok) (vlN s - vsN s) (vsN s) _ (pairs_start s F)
        (fun j t h1 h2 ht => pairs_step hr.ok hr.fits h1 (by omega) (fun hw => hfree j (by omega) hw) ht)
      rw [show vsN s + (vlN s - vsN s) = e by omega] at hu
      have hdone : body s = .done { u with thr.sr.vstart := 0 } := by
        rw [hbody]
        unfold stripWord
        rw [hall]
        rfl
      have hend := pairs_captured (encode i) hu
      refine ⟨capture (encode i) { u with thr.sr.vstart := 0 }, ?_, ⟨hend.frame, hend.pairs, hend.rest⟩, rfl⟩
      rw [hexec, hrun, run_queued hr.ok.calm (hready hr) hq hdone (pairs_course hu 0), hword]
    · obtain ⟨t', hrun', hend, hvs⟩ := pairs_trap hr (hready hr) hword h0 hbody hfree hw (fun t ht => by
        unfold formPair
        rw [if_pos hw.2.2, moEl_enabled (by rw [pairs_enabled ht]; exact hen), pairs_enabled ht])
      exact ⟨t', by rw [hexec, hrun, hrun']; rfl, ⟨hend.frame, hend.pairs, hend.rest⟩, hvs⟩
    · obtain ⟨t', hrun', hend, hvs⟩ := pairs_trap hr (hready hr) hword h0 hbody hfree hw (fun t ht => by
        unfold formPair
        rw [if_pos hw.2.2, moEl_negative (by rw [pairs_enabled ht]; exact hfl) hneg])
      exact ⟨t', by rw [hexec, hrun, hrun']; rfl, ⟨hend.frame, hend.pairs, hend.rest⟩, hvs⟩
  · obtain ⟨t, hexec, n, body, hrun, hword, hq, hready, hbody⟩ := exec_collapseForm hF
    have hd : GroupOk s (F.d.toNat, grpN s) := hr.groups F.d List.mem_cons_self
    obtain ⟨u, hall, hu⟩ := sweep_all (f := formCollapse s F) (Collapsed s F) (fun _ _ => collapsed_whole hr.ok) (vlN s - vsN s) (vsN s) _
      (collapsed_start s F) (fun j t h1 h2 ht => collapsed_step hr.ok hr.fits hd h1 (by omega) (fun hw => hfree j hw) ht)
    have hgath : gathered s F.k (vsN s + (vlN s - vsN s)) (fun j => (F.val j).2) = gathered s F.k (vlN s) (fun j => (F.val j).2) := by
      unfold gathered
      rw [Nat.add_sub_cancel_left]
    have hdone : body s = .done { u with thr.sr.vstart := 0 } := by
      rw [hbody]
      unfold stripWord
      rw [hall]
      rfl
    refine ⟨capture (encode i) { u with thr.sr.vstart := 0 }, ?_, ?_, fun j hj => ?_, fun r hr' => ?_⟩
    · rw [hexec, hrun, run_queued hr.ok.calm (hready hr hown) hq hdone (collapsed_course hu 0), hword]
    · have hend := collapsed_captured (encode i) hu
      rw [hgath] at hend
      exact hend
    · refine (hu.elems j (by rw [groupLen_single, flagged_vmN]; exact hj)).trans ?_
      by_cases hw : written s F.k j
      · simp only [if_pos hw, if_pos (⟨hw, by have := hw.2.1; omega⟩ : written s F.k j ∧ j < vsN s + (vlN s - vsN s))]
      · simp only [if_neg hw, if_neg (fun h => hw h.1 : ¬ (written s F.k j ∧ j < vsN s + (vlN s - vsN s))), flagged_elemV]
    · exact (hu.rest r hr').trans (flagged_rv s _ _ _ _ r)

end Sys2Proof.Machine
end

section
/-! PROOFS. `zmv` and `zmvt` (O40): sweeps that place elements by their index alone, and a word of a thread with latent errors. -/

namespace Sys2Proof.Machine

/-! ## A sweep over all indices -/

/-- A state with the flags of the indices from lo up to i merged. -/
def mergedFrom (c : State) (fl : Nat → Nat) (lo i : Nat) : State := mergeFlags ((upFrom lo (i - lo)).foldl (fun m j => m ||| fl j) 0) c

theorem mergedFrom_start (c : State) (fl : Nat → Nat) (lo : Nat) : mergedFrom c fl lo lo = c := by
  unfold mergedFrom
  rw [Nat.sub_self]
  exact mergeFlags_none c

theorem mergeFlags_or (a b : Nat) (c : State) : mergeFlags (a ||| b) c = mergeFlags b (mergeFlags a c) := by
  unfold mergeFlags
  rw [w64_or, ← BitVec.or_assoc]

theorem mergedFrom_succ {c : State} {fl : Nat → Nat} {lo i : Nat} (h : lo ≤ i) :
    mergedFrom c fl lo (i + 1) = mergeFlags (fl i) (mergedFrom c fl lo i) := by
  unfold mergedFrom
  rw [show i + 1 - lo = (i - lo) + 1 by omega, foldl_upFrom, show lo + (i - lo) = i by omega, mergeFlags_or]

/-- The codes of the indices from lo up to i, placed over the merged flags. -/
def PlacedUpTo (c : State) (d g ew lo : Nat) (val : Nat → Nat × Nat) (i : Nat) (t : State) : Prop :=
  Placed (mergedFrom c (fun j => (val j).2) lo i) d g ew (fun j => if lo ≤ j ∧ j < i then some (val j).1 else none) t

theorem placedUpTo_frame {c t : State} {d g ew lo i : Nat} {val : Nat → Nat × Nat} (h : PlacedUpTo c d g ew lo val i t) :
    t = { mergedFrom c (fun j => (val j).2) lo i with thr.v := t.thr.v, thr.hid.units := t.thr.hid.units } := h.frame

theorem placedUpTo_whole {c t : State} {d g ew lo i : Nat} {val : Nat → Nat × Nat} (hd : c.thr.hid.damaged = []) (h : PlacedUpTo c d g ew lo val i t) :
    t.thr.hid.damaged = [] := by
  rw [placedUpTo_frame h]
  exact hd

theorem placedUpTo_enabled {c t : State} {d g ew lo i fl : Nat} {val : Nat → Nat × Nat} (h : PlacedUpTo c d g ew lo val i t) :
    enabledFlags t fl = enabledFlags c fl := by
  rw [placedUpTo_frame h]
  rfl

/-- A sweep whose every index puts its code and raises no enabled flag. -/
theorem sweep_placed {c : State} {d g ew lo n : Nat} {val : Nat → Nat × Nat} {f : Nat → State → El} (hd : c.thr.hid.damaged = [])
    (hv : vmN c ≤ 16384) (hg : GroupOk c (d, g)) (hfit : ∀ i, lo ≤ i → i < lo + n → i < groupLen c ew g)
    (hf : ∀ i t, lo ≤ i → i < lo + n → f i t = floatEl (val i).2 (setElemV d ew i (val i).1) t)
    (hfree : ∀ i, lo ≤ i → i < lo + n → enabledFlags c (val i).2 = 0) :
    ∃ u, sweep f n lo c = .all u ∧ PlacedUpTo c d g ew lo val (lo + n) u := by
  refine sweep_all (f := f) (PlacedUpTo c d g ew lo val) (fun i t => placedUpTo_whole hd) n lo c ?_ (fun i t h1 h2 ht => ?_)
  · unfold PlacedUpTo
    rw [mergedFrom_start]
    exact placed_congr (fun j _ => (if_neg (fun h => absurd (lt_of_le_of_lt h.1 h.2) (lt_irrefl _))).symm) (placed_none _ _ _ _)
  · refine ⟨_, (hf i t h1 h2).trans (floatEl_free (by rw [placedUpTo_enabled ht]; exact hfree i h1 h2)), ?_⟩
    unfold PlacedUpTo
    rw [mergedFrom_succ h1]
    have hmerged := placed_merge (val i).2 ht
    obtain ⟨b, hb⟩ : ∃ b : State, b = mergedFrom c (fun j => (val j).2) lo i := ⟨_, rfl⟩
    have hbd : (mergeFlags (val i).2 b).thr.hid.damaged = [] := by rw [hb]; exact hd
    have hbv : vmN (mergeFlags (val i).2 b) ≤ 16384 := by rw [hb]; exact hv
    have hbg : GroupOk (mergeFlags (val i).2 b) (d, g) := by rw [hb]; exact hg
    have hbi : i < groupLen (mergeFlags (val i).2 b) ew g := by rw [hb]; exact hfit i h1 h2
    rw [← hb] at hmerged ⊢
    refine placed_congr (fun j _ => ?_) (placed_set (i := i) (c := (val i).1) hbd hbv hbg hbi hmerged)
    by_cases hji : j = i
    · subst hji
      exact (if_pos rfl).trans (if_pos ⟨h1, Nat.lt_succ_self _⟩).symm
    · exact (if_neg hji).trans (if_congr (by omega) rfl rfl)

/-- A word whose sweep over the charged state places codes at all indices changes vector registers alone. -/
theorem onlyVectors_of_placedUpTo {s u : State} {d g ew i : Nat} {val : Nat → Nat × Nat} (w : BitVec 32)
    (hu : PlacedUpTo (chargeWord (ewN s) s) d g ew (vsN s) val i u) :
    OnlyVectors w ((upFrom (vsN s) (i - vsN s)).foldl (fun m j => m ||| (val j).2) 0) s (capture w { u with thr.sr.vstart := 0 }) := by
  obtain ⟨hthr, -, hcur, -, hchk, -⟩ := chargeWord_frame (ewN s) s
  have hframe := placedUpTo_frame hu
  have hcap : captured w { u with thr.sr.vstart := 0 } = captured w s := by
    rw [hframe]
    simp only [captured, mergedFrom, mergeFlags, hthr, hcur, hchk]
  have hrep : u.thr.pnd.replay = s.thr.pnd.replay := by
    rw [hframe]
    simp only [mergedFrom, mergeFlags, hthr]
  have hfl : s.thr.sr.fpflags = (chargeWord (ewN s) s).thr.sr.fpflags := by rw [hthr]
  unfold OnlyVectors capture
  rw [hcap, ← hrep, hfl]
  exact (congrArg (fun q : State => ({ q with thr.sr.vstart := 0, thr.pnd.replay := u.thr.pnd.replay ++ [captured w s] } : State)) hframe).trans rfl

theorem placedUpTo_course {s u : State} {d g ew i : Nat} {val : Nat → Nat × Nat} (hu : PlacedUpTo (chargeWord (ewN s) s) d g ew (vsN s) val i u)
    (v : Word) : SameCourse s { u with thr.sr.vstart := v } := by
  refine (chargeWord_course (ewN s) s).trans ?_
  rw [placedUpTo_frame hu]
  exact ⟨rfl, rfl, rfl, rfl, rfl⟩

/-! ## A thread with latent errors (R360) -/

/-- The state with damaged places in its thread. -/
def withDamage (l : List Damage) (s : State) : State := { s with thr.hid.damaged := l }

/-- The checks of a word do not look at damage. -/
theorem gate_withDamage {s : State} {n : Need} (l : List Damage) (hc : Calm s) (h : Ready n s) : gate n (withDamage l s) = .ok (withDamage l s) := by
  have hg := noPort_groups h.vs
  rw [List.map_append] at hg
  have hbody : inBody (withDamage l s) = false := (inBody_calm hc : inBody s = false)
  have hgraft : graftBreak (withDamage l s) n = false := (graftBreak_calm hc.chain n : graftBreak s n = false)
  have hregs : regsBad (withDamage l s) n = false := (regsBad_ready h : regsBad s n = false)
  have hwait : mustWait (withDamage l s) n = false := (mustWait_ready hc h : mustWait s n = false)
  have hshape : shapeBad (withDamage l s) n = none := by
    have : shapeBad s n = none := by simp [shapeBad, portsOf_none hg.left]
    exact this
  have hvt : (n.vt && decide (fmtN (withDamage l s) = 0)) = false := by
    cases hv : n.vt with
    | false => rfl
    | true => exact (Bool.true_and _).trans (decide_eq_false (h.vt hv))
  have hidle : (withDamage l s).thr.hid.active = false := hc.idle
  have hreserve : reserve (withDamage l s) n = withDamage l s := reserve_none (noPort_same hg.right rfl)
  unfold gate
  simp only [hbody, hgraft, h.role, h.fmt, hvt, hregs, hwait, hshape, hreserve, hidle, Bool.false_and, Bool.and_false, Bool.not_true,
    Bool.false_eq_true, if_false]

/-- Damaged tiles and words of the weight buffer are read by no word of a thread (R359, R360). -/
theorem damageRead_latent {l : List Damage} (hl : ∀ e ∈ l, e.cls = 0 ∨ e.cls = 8) (s : State) (n : Need) : damageRead (withDamage l s) n = none := by
  have hnone : ∀ d ∈ l, damageElem (withDamage l s) n d = none := fun d hd => by
    rcases hl d hd with h | h <;> simp only [damageElem, h]
  show l.foldl _ none = none
  revert hnone
  generalize damageElem (withDamage l s) n = f
  induction l with
  | nil => exact fun _ => rfl
  | cons d r ih =>
    intro hnone
    rw [List.foldl_cons, hnone d List.mem_cons_self]
    exact ih (fun e he => hl e (List.mem_cons_of_mem _ he)) (fun e he => hnone e (List.mem_cons_of_mem _ he))

theorem run_withDamage {s : State} {n : Need} {body : State → Res} {l : List Damage} (hl : ∀ e ∈ l, e.cls = 0 ∨ e.cls = 8) (hc : Calm s) (h : Ready n s) :
    run n (withDamage l s) body = finish n (body (withDamage l s)) := by
  have hahead : queuedAhead (withDamage l s) = 0 := hc.ahead
  unfold run
  rw [gate_withDamage l hc h]
  dsimp only
  rw [damageRead_latent hl]
  dsimp only
  unfold behindQueue
  rw [if_pos hahead]

/-! ## Tiles -/

theorem meetTile_whole {s : State} {z seq : Nat} (h : latent s 0 z = false) : meetTile z seq s = s := by
  unfold meetTile
  rw [if_neg (by simp [h])]

theorem testBit_or_pow {a : BitVec 16} {z : Nat} (hz : z < 16) : bit (a ||| BitVec.ofNat 16 (2 ^ z)).toNat z = true := by
  have hlt : 2 ^ z < 2 ^ 16 := Nat.pow_lt_pow_right (by decide) hz
  unfold bit
  rw [BitVec.toNat_or, BitVec.toNat_ofNat, Nat.mod_eq_of_lt hlt, Nat.testBit_or, Nat.testBit_two_pow_self, Bool.or_true]

theorem poisonTile_poisoned {s : State} {z : Nat} (hz : z < 16) : tilePoisoned (poisonTile z s) z = true := by
  unfold poisonTile
  by_cases h : tilePoisoned s z = true
  · rw [if_pos h]
    exact h
  · rw [if_neg h]
    exact testBit_or_pow hz

theorem mxFail_poisoned (cause origin seq z : Nat) (s : State) : tilePoisoned (mxFail cause origin seq s) z = tilePoisoned s z := by
  unfold mxFail
  split <;> rfl

theorem meetTile_poisoned {s : State} {z seq : Nat} (hz : z < 16) (h : latent s 0 z = true) : tilePoisoned (meetTile z seq s) z = true := by
  unfold meetTile
  rw [if_pos h, mxFail_poisoned]
  exact poisonTile_poisoned hz

/-- A tile met keeps the thread but for the places it has left damaged. -/
theorem meetTile_thread {s : State} {z seq : Nat} (hrole : s.cur.2 = 1) :
    ∃ l, (meetTile z seq s).thr = { s.thr with hid.damaged := l } ∧ (meetTile z seq s).cur = s.cur := by
  unfold meetTile
  split
  · refine ⟨s.thr.hid.damaged.filter (fun d => !(d.cls = 0 && d.num = z)), ?_⟩
    unfold mxFail poisonTile dropLatent
    dsimp only
    rw [if_pos hrole]
    split <;> split <;> exact ⟨rfl, rfl⟩
  · exact ⟨s.thr.hid.damaged, rfl, rfl⟩

/-- What a `zmv` needs. -/
def zmvNeed (z : BitVec 4) (a : BitVec 5) (w : BitVec 2) (r : BitVec 3) (s : State) : Need :=
  { word := encode (.zmv z a w r), vt := true, roleOk := mayMatrix s, fmtOk := floatOk s, regOk := tileOk s z.toNat, vw := [grp s a], queued := true }

/-- An element that a `zmv` puts: its code and its flags. -/
def zmvElement (s : State) (z : BitVec 4) (w : BitVec 2) (r : BitVec 3) (x : Nat) : Nat × Nat :=
  if x < vvN s ∧ 32 * w.toNat + x < colsN s then
    let v := foperand 9 (ftzN s) (elemOf (tileOf s z.toNat).toNat 32 (r.toNat * colsN s + 32 * w.toNat + x))
    let c := roundTo (fmtN s) (rmN s) (satN s) (ftzN s) v
    (c.1, c.2 ||| sigNV [v])
  else (0, 0)

/-- Element x as a `zmv` carries it out over a state whose tile it has met. -/
def zmvStep (z : BitVec 4) (a : BitVec 5) (w : BitVec 2) (r : BitVec 3) (s : State) (x : Nat) (u : State) : El :=
  floatEl (zmvElement s z w r x).2 (setElemV a.toNat (ewN s) x (zmvElement s z w r x).1) u

/-- What a `zmv` does once it may run: it waits for its tile, loses it, or sweeps over its elements. -/
structure ZmvBody (z : BitVec 4) (a : BitVec 5) (w : BitVec 2) (r : BitVec 3) (body : State → Res) : Prop where
  waits : ∀ s, s.slot.mxq.any (touchesTile z.toNat) = true → body s = .wait s
  lost : ∀ s, s.slot.mxq.any (touchesTile z.toNat) = false → tilePoisoned (meetTile z.toNat 0 s) z.toNat = true → body s =
    .trap cLoss (w64 z.toNat) (w64 (2 ^ 63 + r.toNat * colsN s + 32 * w.toNat + vsN (meetTile z.toNat 0 s))) (meetTile z.toNat 0 s)
  moves : ∀ s, s.slot.mxq.any (touchesTile z.toNat) = false → latent s 0 z.toNat = false → tilePoisoned s z.toNat = false →
    body s = stripWord (ewN s) (zmvStep z a w r s) s

theorem exec_zmv (z : BitVec 4) (a : BitVec 5) (w : BitVec 2) (r : BitVec 3) (s : State) :
    ∃ body, exec (.zmv z a w r) s = .next (run (zmvNeed z a w r s) s body) ∧ ZmvBody z a w r body := by
  refine ⟨_, rfl, fun t ht => if_pos ht, fun t hq hp => ?_, fun t hq hl hp => ?_⟩
  · exact (if_neg (by simp [hq])).trans (if_pos hp)
  · refine (if_neg (by simp [hq])).trans ?_
    rw [meetTile_whole hl]
    refine (if_neg (by simp [hp])).trans ?_
    refine congrArg (fun f => stripWord (ewN t) f t) (funext fun x => funext fun u => ?_)
    unfold zmvStep zmvElement
    by_cases hx : x < vvN t ∧ 32 * w.toNat + x < colsN t
    · rw [if_pos hx, if_neg (by simp; omega)]
      unfold tileElem
      rw [Nat.add_assoc]
    · rw [if_neg hx, if_pos (by simp; omega)]
      exact (floatEl_none _ u).symm

/-! ## Elements written into a tile (R138) -/

/-- What a `zmvt` needs. -/
def zmvtNeed (z : BitVec 4) (a : BitVec 5) (w : BitVec 2) (r : BitVec 3) (s : State) : Need :=
  { word := encode (.zmvt z a w r), vt := true, roleOk := mayMatrix s, fmtOk := floatOk s, regOk := tileOk s z.toNat, vr := [grp s a] }

/-- The columns of its tile that element x of a `zmvt` falls in. -/
abbrev zmvtInside (s : State) (w : BitVec 2) (x : Nat) : Prop := x < vvN s ∧ 32 * w.toNat + x < colsN s

/-- The place of element x in its tile. -/
def zmvtAt (s : State) (w : BitVec 2) (r : BitVec 3) (x : Nat) : Nat := r.toNat * colsN s + 32 * w.toNat + x

/-- The tile z with one element written. -/
def putTile (z at' code : Nat) (u : State) : State := setTile z (BitVec.ofNat 32768 (setBits (tileOf u z).toNat (32 * at') 32 code)) u

/-- Element x as a `zmvt` carries it out. -/
def zmvtStep (z : BitVec 4) (a : BitVec 5) (w : BitVec 2) (r : BitVec 3) (s : State) (x : Nat) (u : State) : El :=
  .ok (if zmvtInside s w x then putTile z.toNat (zmvtAt s w r x) (widenExact s (elemV s a.toNat (ewN s) x)) u else u)

theorem exec_zmvt (z : BitVec 4) (a : BitVec 5) (w : BitVec 2) (r : BitVec 3) (s : State) :
    ∃ body, exec (.zmvt z a w r) s = .next (run (zmvtNeed z a w r s) s body) ∧
      (s.slot.mxq.any (touchesTile z.toNat) = true → body s = .wait s) ∧
      (s.slot.mxq.any (touchesTile z.toNat) = false → body s = stripWord (ewN s) (zmvtStep z a w r s) s) := by
  refine ⟨_, rfl, fun hq => if_pos hq, fun hq => ?_⟩
  refine (if_neg (by simp [hq])).trans ?_
  refine congrArg (fun f => stripWord (ewN s) f s) (funext fun x => funext fun u => ?_)
  unfold zmvtStep
  by_cases hx : zmvtInside s w x
  · rw [if_pos hx]
    exact if_pos (by simpa using hx)
  · rw [if_neg hx]
    exact if_neg (by simpa using hx)

theorem tileOf_putTile (z at' code q : Nat) (u : State) :
    tileOf (putTile z at' code u) q = if q = z then BitVec.ofNat 32768 (setBits (tileOf u z).toNat (32 * at') 32 code) else tileOf u q := by
  split
  case isTrue h => subst h; exact SMap.get_set_self _ _ _ _
  case isFalse h => exact SMap.get_set_ne _ _ _ _ _ h

theorem elemOf_putTile {z at' code q : Nat} {u : State} (h : at' < 1024) :
    elemOf (tileOf (putTile z at' code u) z).toNat 32 q = if q = at' then code % 2 ^ 32 else elemOf (tileOf u z).toNat 32 q := by
  have hlt : setBits (tileOf u z).toNat (32 * at') 32 code < 2 ^ 32768 := setBits_lt (tileOf u z).isLt (by omega)
  rw [tileOf_putTile, if_pos rfl, BitVec.toNat_ofNat, Nat.mod_eq_of_lt hlt]
  by_cases hq : q = at'
  · rw [if_pos hq, hq, elemOf_setBits_same]
  · rw [if_neg hq, elemOf_setBits_ne _ _ _ _ _ hq]

theorem colsN_le (s : State) : colsN s ≤ 128 := by
  unfold colsN columns
  split <;> omega

theorem zmvtAt_lt {s : State} {w : BitVec 2} (r : BitVec 3) {x : Nat} (h : zmvtInside s w x) : zmvtAt s w r x < 1024 := by
  have hc := colsN_le s
  have hr : r.toNat * colsN s ≤ 7 * colsN s := Nat.mul_le_mul_right _ (by have := r.isLt; omega)
  unfold zmvtAt
  omega

/-- The state of a `zmvt` after its elements below i. -/
structure TileMoved (s : State) (z : BitVec 4) (a : BitVec 5) (w : BitVec 2) (r : BitVec 3) (i : Nat) (t : State) : Prop where
  frame : t = { chargeWord (ewN s) s with slot.z := t.slot.z, slot.zdirty := t.slot.zdirty }
  moved : ∀ x, vsN s ≤ x → x < i → zmvtInside s w x →
    elemOf (tileOf t z.toNat).toNat 32 (zmvtAt s w r x) = widenExact s (elemV s a.toNat (ewN s) x) % 2 ^ 32
  kept : ∀ q, (∀ x, vsN s ≤ x → x < i → zmvtInside s w x → q ≠ zmvtAt s w r x) →
    elemOf (tileOf t z.toNat).toNat 32 q = elemOf (tileOf s z.toNat).toNat 32 q
  others : ∀ q, q ≠ z.toNat → tileOf t q = tileOf s q
  dirty : t.slot.zdirty = if (upFrom (vsN s) (i - vsN s)).any (fun x => decide (zmvtInside s w x)) then
    s.slot.zdirty ||| BitVec.ofNat 16 (2 ^ z.toNat) else s.slot.zdirty

theorem tileMoved_start (s : State) (z : BitVec 4) (a : BitVec 5) (w : BitVec 2) (r : BitVec 3) :
    TileMoved s z a w r (vsN s) (chargeWord (ewN s) s) := by
  have hslot : (chargeWord (ewN s) s).slot = s.slot := (chargeWord_frame (ewN s) s).2.1
  refine ⟨rfl, fun x h1 h2 => absurd (lt_of_le_of_lt h1 h2) (lt_irrefl _), fun q _ => ?_, fun q _ => ?_, ?_⟩
  · unfold tileOf
    rw [hslot]
  · unfold tileOf
    rw [hslot]
  · rw [Nat.sub_self, hslot]
    rfl

theorem upFrom_step {lo i : Nat} (h : lo ≤ i) : upFrom lo (i + 1 - lo) = upFrom lo (i - lo) ++ [i] := by
  rw [show i + 1 - lo = (i - lo) + 1 by omega, upFrom_succ, show lo + (i - lo) = i by omega]

theorem tileMoved_step {s t : State} {z : BitVec 4} {a : BitVec 5} {w : BitVec 2} {r : BitVec 3} {i : Nat} (hlo : vsN s ≤ i)
    (ht : TileMoved s z a w r i t) : ∃ u, zmvtStep z a w r s i t = .ok u ∧ TileMoved s z a w r (i + 1) u := by
  refine ⟨_, rfl, ?_⟩
  by_cases hi : zmvtInside s w i
  · rw [if_pos hi]
    have hat := zmvtAt_lt r hi
    refine ⟨?_, fun x h1 h2 hx => ?_, fun q hq => ?_, fun q hq => ?_, ?_⟩
    · have hput : ∀ c : Nat, putTile z.toNat (zmvtAt s w r i) c t = { t with
          slot.z := (putTile z.toNat (zmvtAt s w r i) c t).slot.z, slot.zdirty := (putTile z.toNat (zmvtAt s w r i) c t).slot.zdirty } := fun _ => rfl
      rw [hput]
      generalize putTile z.toNat _ _ t = v
      exact (congrArg (fun q : State => ({ q with slot.z := v.slot.z, slot.zdirty := v.slot.zdirty } : State)) ht.frame).trans rfl
    · rw [elemOf_putTile hat]
      by_cases hxi : x = i
      · rw [hxi, if_pos rfl]
      · rw [if_neg (by unfold zmvtAt; omega)]
        exact ht.moved x h1 (by omega) hx
    · rw [elemOf_putTile hat, if_neg (hq i hlo (Nat.lt_succ_self _) hi)]
      exact ht.kept q (fun x h1 h2 hx => hq x h1 (by omega) hx)
    · rw [tileOf_putTile, if_neg hq]
      exact ht.others q hq
    · show t.slot.zdirty ||| BitVec.ofNat 16 (2 ^ z.toNat) = _
      rw [ht.dirty, upFrom_step hlo, List.any_append]
      simp only [List.any_cons, List.any_nil, decide_eq_true hi, Bool.or_false, Bool.or_true, if_true]
      split
      · rw [BitVec.or_assoc, BitVec.or_self]
      · rfl
  · rw [if_neg hi]
    refine ⟨ht.frame, fun x h1 h2 hx => ?_, fun q hq => ht.kept q (fun x h1 h2 hx => hq x h1 (by omega) hx), ht.others, ?_⟩
    · have hxi : x ≠ i := fun h => hi (h ▸ hx)
      exact ht.moved x h1 (by omega) hx
    · rw [ht.dirty, upFrom_step hlo, List.any_append]
      simp only [List.any_cons, List.any_nil, decide_eq_false hi, Bool.or_false]

/-! ## The two words -/

theorem tileMoved_course {s t : State} {z : BitVec 4} {a : BitVec 5} {w : BitVec 2} {r : BitVec 3} {i : Nat} (h : TileMoved s z a w r i t) (v : Word) :
    SameCourse s { t with thr.sr.vstart := v } := by
  refine (chargeWord_course (ewN s) s).trans ?_
  rw [h.frame]
  exact ⟨rfl, rfl, rfl, rfl, rfl⟩

/-- What both words ask of a state. -/
structure TileReady (s : State) (z : BitVec 4) (a : BitVec 5) : Prop where
  ok : VectorOk s
  execute : s.cur.2 = 1
  fmt : floatOk s = true
  tile : tileOk s z.toNat = true
  group : GroupOk s (a.toNat, grpN s)
  fits : vlN s ≤ groupLen s (ewN s) (grpN s)

theorem zmv_ready {s : State} {z : BitVec 4} {a : BitVec 5} (w : BitVec 2) (r : BitVec 3) (h : TileReady s z a) : Ready (zmvNeed z a w r s) s :=
  ready_vector h.ok (floatOk_legal h.fmt) (decide_eq_true h.execute) h.fmt h.tile (noPort_nil s)
    (fun g hg => by cases List.mem_singleton.mp hg; exact ⟨grpN_pos s, h.group⟩) rfl

theorem zmvt_ready {s : State} {z : BitVec 4} {a : BitVec 5} (w : BitVec 2) (r : BitVec 3) (h : TileReady s z a) : Ready (zmvtNeed z a w r s) s :=
  ready_vector h.ok (floatOk_legal h.fmt) (decide_eq_true h.execute) h.fmt h.tile (noPort_nil s)
    (fun g hg => by cases List.mem_singleton.mp hg; exact ⟨grpN_pos s, h.group⟩) rfl

/-- A `zmv` from a poisoned tile, or one that a latent error poisons now. -/
theorem zmv_lost {s : State} {z : BitVec 4} {a : BitVec 5} {w : BitVec 2} {r : BitVec 3} (hr : TileReady s z a) {l : List Damage}
    (hl : ∀ e ∈ l, e.cls = 0 ∨ e.cls = 8) (hq : s.slot.mxq.any (touchesTile z.toNat) = false)
    (hp : tilePoisoned (meetTile z.toNat 0 (withDamage l s)) z.toNat = true) :
    exec (.zmv z a w r) (withDamage l s) = .next (takeTrap (encode (.zmv z a w r)) 0x30 s.thr.pc (w64 z.toNat)
      (w64 (2 ^ 63 + r.toNat * colsN s + 32 * w.toNat + vsN s)) (meetTile z.toNat 0 (withDamage l s))) := by
  obtain ⟨body, hexec, hbody⟩ := exec_zmv z a w r (withDamage l s)
  have hneed : zmvNeed z a w r (withDamage l s) = zmvNeed z a w r s := rfl
  have hpc : (meetTile z.toNat 0 (withDamage l s)).thr.pc = s.thr.pc ∧ vsN (meetTile z.toNat 0 (withDamage l s)) = vsN s := by
    obtain ⟨l', hthr, -⟩ := meetTile_thread (z := z.toNat) (seq := 0) (s := withDamage l s) hr.execute
    unfold vsN
    rw [hthr]
    exact ⟨rfl, rfl⟩
  rw [hexec, hneed, run_withDamage hl hr.ok.calm (zmv_ready w r hr), hbody.lost (withDamage l s) hq hp]
  show Host.Outcome.next (trapWord _ _ _ _ _) = _
  rw [trapWord_at rfl hpc.1, hpc.2]
  rfl

/-- Settles O40: both words wait for their tile; `zmv` loses a poisoned one or places its elements, and `zmvt` writes into it. -/
theorem tileMoves : Obligations.TileMoves := by
  intro s z a w r hok hrole hfmt htile hgrp hfit n i j at' inside v code fl
  have hr : TileReady s z a := ⟨hok, hrole, hfmt, htile, hgrp, hfit⟩
  obtain ⟨body, hexec, hbody⟩ := exec_zmv z a w r s
  obtain ⟨tbody, htexec, htwait, htmoves⟩ := exec_zmvt z a w r s
  refine ⟨fun hq => ⟨?_, ?_⟩, fun hq => ⟨fun l hl => ?_, fun hlat hp => ?_, fun hlat hp hfree => ?_, ?_⟩⟩
  · rw [hexec, run_wait hok.calm (zmv_ready w r hr) (hbody.waits s hq)]
  · rw [htexec, run_wait hok.calm (zmvt_ready w r hr) (htwait hq)]
  · intro hurt hlat
    exact zmv_lost hr hl hq (meetTile_poisoned z.isLt hlat)
  · have hself : withDamage [] s = s := by
      unfold withDamage
      rw [← hok.calm.whole]
    have hlost := zmv_lost (w := w) (r := r) hr (l := []) (fun e he => absurd he List.not_mem_nil) hq
      (by rw [hself, meetTile_whole hlat]; exact hp)
    rw [hself, meetTile_whole hlat] at hlost
    exact hlost
  · have hval : ∀ x, zmvElement s z w r x = ((code x).1, fl x) := fun x => by
      unfold zmvElement
      by_cases hx : inside x
      · simp only [code, fl, if_pos hx]
        exact if_pos hx
      · simp only [code, fl, if_neg hx]
        exact if_neg hx
    obtain ⟨u, hall, hu⟩ := sweep_placed (c := chargeWord (ewN s) s) (d := a.toNat) (g := grpN s) (ew := ewN s) (lo := vsN s) (n := vlN s - vsN s)
      (val := zmvElement s z w r) (f := zmvStep z a w r s) (charged_damaged hok) (charged_vmax hok) (charged_groupOk hgrp)
      (fun x h1 h2 => by rw [charged_groupLen]; omega) (fun i t _ _ => rfl) (fun x h1 h2 => by
        have hen : enabledFlags (chargeWord (ewN s) s) (zmvElement s z w r x).2 = enabledFlags s (zmvElement s z w r x).2 := by
          unfold enabledFlags
          rw [(chargeWord_frame (ewN s) s).1]
        rw [hen, hval]
        exact hfree x h1 (by omega))
    have hdone : body s = .done { u with thr.sr.vstart := 0 } := by
      rw [hbody.moves s hq hlat hp]
      unfold stripWord
      rw [hall]
      rfl
    refine ⟨capture (encode i) { u with thr.sr.vstart := 0 }, ?_, ?_, fun x hx => ?_, fun q hq' => ?_⟩
    · rw [hexec, run_queued hok.calm (zmv_ready w r hr) rfl hdone (placedUpTo_course hu 0)]
      rfl
    · have hend := onlyVectors_of_placedUpTo (encode i) hu
      rw [Nat.add_sub_cancel_left] at hend
      simp only [hval] at hend
      exact hend
    · have helem := hu.elems x (by show x < groupLen (chargeWord (ewN s) s) _ _; rw [charged_groupLen]; exact hx)
      refine helem.trans ?_
      by_cases hw : vsN s ≤ x ∧ x < vlN s
      · have hw' : vsN s ≤ x ∧ x < vsN s + (vlN s - vsN s) := ⟨hw.1, by omega⟩
        simp only [if_pos hw, if_pos hw', hval]
      · have hw' : ¬ (vsN s ≤ x ∧ x < vsN s + (vlN s - vsN s)) := fun h => hw ⟨h.1, by omega⟩
        simp only [if_neg hw, if_neg hw']
        exact charged_elemV s _ _ _
    · exact (hu.rest q hq').trans (charged_rv s q)
  · obtain ⟨u, hall, hu⟩ := sweep_all (f := zmvtStep z a w r s) (TileMoved s z a w r)
      (fun i t ht => by rw [ht.frame]; exact charged_damaged hok) (vlN s - vsN s) (vsN s) _ (tileMoved_start s z a w r)
      (fun x t h1 _ ht => tileMoved_step h1 ht)
    have hdone : tbody s = .done { u with thr.sr.vstart := 0 } := by
      rw [htmoves hq]
      unfold stripWord
      rw [hall]
      rfl
    refine ⟨{ u with thr.sr.vstart := 0 }, ?_, ?_, fun x h1 h2 hx => hu.moved x h1 (by omega) hx,
      fun q hq' => hu.kept q (fun x h1 h2 hx => hq' x h1 (by omega) hx), hu.others, ?_⟩
    · rw [htexec, run_done_unqueued hok.calm (zmvt_ready w r hr) rfl hdone (tileMoved_course hu 0)]
      rfl
    · exact (congrArg (fun q : State => ({ q with thr.sr.vstart := 0 } : State)) hu.frame).trans rfl
    · refine hu.dirty.trans ?_
      rw [Nat.add_sub_cancel_left]

end Sys2Proof.Machine
end

section
/-! PROOFS. Facts that vector loads and stores share: the causes of an access's checks, what a sweep's counters leave of an access, bit
spans of elements, and the blocks of an index. -/

namespace Sys2Proof.Machine

/-! ## Causes of an access's checks (R91, R242, R317) -/

/-- The causes that translation and rights raise. -/
def CheckCause (c : Nat) : Prop := c = 0x0A ∨ c = 0x0B ∨ c = 0x0C ∨ c = 0x0D

theorem checkPa_cause {d : Device} {who : Who} {store : Bool} {t : Except WalkEnd Trans} {c : Nat} (h : checkPa d who store t = .error c) :
    CheckCause c := by
  unfold checkPa at h
  repeat' split at h
  all_goals cases h
  all_goals simp [CheckCause]

theorem xlate_cause {d : Device} {who : Who} {slot ctx scru va c : Nat} {root : Word} {store : Bool}
    (h : xlate d who slot ctx root scru store va = .error c) : CheckCause c := by
  unfold xlate at h
  split at h
  · cases h
    cases store <;> simp [CheckCause]
  · split at h
    · split at h
      · cases h
      · cases h
        simp [CheckCause]
    · exact checkPa_cause h

theorem xlateAcc_cause {s : State} {store near : Bool} {va n a c : Nat} (h : xlateAcc s store near va n a = .error c) : CheckCause c := by
  unfold xlateAcc at h
  split at h
  next hx =>
    cases h
    exact xlate_cause hx
  next =>
    split at h
    · cases h
    · cases h
      simp [CheckCause]

theorem xlateAll_error {f : Nat → Except Nat Loc} {n va c a : Nat} (h : xlateAll f va n = .error (c, a)) : ∃ b, f b = .error c := by
  induction n generalizing va with
  | zero => cases h
  | succ n ih =>
    unfold xlateAll at h
    split at h
    next hx =>
      cases h
      exact ⟨_, hx⟩
    next =>
      split at h
      next hr =>
        cases h
        exact ih hr
      next => cases h

theorem firstFailure_error {f : Nat → Except Nat Loc} {va n c a : Nat} (h : firstFailure f va n = some (c, a)) : ∃ b, f b = .error c := by
  unfold firstFailure at h
  obtain ⟨k, -, hk⟩ := List.exists_of_findSome?_eq_some h
  obtain ⟨b, -, hb⟩ := List.mem_filterMap.mp (List.mem_of_find?_eq_some hk)
  refine ⟨b, ?_⟩
  split at hb
  next c' hx =>
    cases hb
    exact hx
  next => cases hb

theorem xlateRange_error {f : Nat → Except Nat Loc} {va n c a : Nat} (h : xlateRange f va n = .error (c, a)) : ∃ b, f b = .error c := by
  unfold xlateRange at h
  split at h
  · cases h
  · split at h
    · split at h
      next hx =>
        cases h
        exact ⟨_, hx⟩
      next => cases h
    · unfold xlateBytes at h
      split at h
      next => cases h
      next e he =>
        cases hf : firstFailure f va n with
        | none =>
          rw [hf] at h
          cases h
          exact xlateAll_error he
        | some x =>
          rw [hf] at h
          cases h
          exact firstFailure_error hf

/-- The checks of an access raise a cause of R91 or WATCHPOINT. -/
theorem checkAccess_cause {s : State} {store : Bool} {al va n c v h : Nat} (hc : checkAccess s store al va n = .trap c v h) :
    c = 0x19 ∨ CheckCause c := by
  unfold checkAccess checkAs at hc
  split at hc
  next c' a he =>
    cases hc
    right
    unfold checkRange at he
    split at he
    · cases he
      simp [CheckCause]
    · obtain ⟨b, hb⟩ := xlateRange_error he
      exact xlateAcc_cause hb
  next =>
    split at hc
    · cases hc
      exact .inl rfl
    · cases hc

theorem causeRank_check {c : Nat} (h : CheckCause c) : causeRank c = 0 := by
  rcases h with rfl | rfl | rfl | rfl <;> rfl

/-! ## What a sweep leaves of an access -/

/-- The charge of a word changes counters and queues of the device alone. -/
theorem chargeBeats_eq (n : Nat) (s : State) :
    chargeBeats n s = { s with dev.acnt := (chargeBeats n s).dev.acnt, dev.queues := (chargeBeats n s).dev.queues } := by
  unfold chargeBeats
  dsimp only
  split <;> rfl

theorem chargeWord_eq (ew : Nat) (s : State) :
    chargeWord ew s = { s with dev.acnt := (chargeWord ew s).dev.acnt, dev.queues := (chargeWord ew s).dev.queues } := by
  unfold chargeWord
  dsimp only
  split
  · rfl
  · exact chargeBeats_eq _ _

/-- What a sweep over a load word may have changed: registers and their tags, FPFLAGS and MFLAGS, counters, and in the sync class the
age of the lines that the thread reads. -/
structure LoadFrame (cls : Nat) (s t : State) : Prop where
  eq : t = { s with
    thr.v := t.thr.v, thr.m := t.thr.m, thr.hid.units := t.thr.hid.units, thr.sr.fpflags := t.thr.sr.fpflags, thr.sr.mflags := t.thr.sr.mflags
    thr.pnd.l1dMin := t.thr.pnd.l1dMin, dev.acnt := t.dev.acnt, dev.queues := t.dev.queues, dev.ser := t.dev.ser }
  plain : cls ≠ 15 → t.thr.pnd.l1dMin = s.thr.pnd.l1dMin ∧ t.dev.ser = s.dev.ser

theorem LoadFrame.refl (cls : Nat) (s : State) : LoadFrame cls s s := ⟨rfl, fun _ => ⟨rfl, rfl⟩⟩

theorem LoadFrame.trans {cls : Nat} {s t u : State} (h : LoadFrame cls s t) (k : LoadFrame cls t u) : LoadFrame cls s u := by
  refine ⟨k.eq.trans ?_, fun hc => ⟨(k.plain hc).1.trans (h.plain hc).1, (k.plain hc).2.trans (h.plain hc).2⟩⟩
  exact (congrArg (fun q : State => ({ q with
    thr.v := u.thr.v, thr.m := u.thr.m, thr.hid.units := u.thr.hid.units, thr.sr.fpflags := u.thr.sr.fpflags, thr.sr.mflags := u.thr.sr.mflags
    thr.pnd.l1dMin := u.thr.pnd.l1dMin, dev.acnt := u.dev.acnt, dev.queues := u.dev.queues, dev.ser := u.dev.ser } : State)) h.eq).trans rfl

theorem loadFrame_charge (cls ew : Nat) (s : State) : LoadFrame cls s (chargeWord ew s) := by
  have h := chargeWord_eq ew s
  generalize chargeWord ew s = t at h
  refine ⟨h.trans ?_, fun _ => ?_⟩ <;> rw [h]
  exact ⟨rfl, rfl⟩

theorem loadFrame_count (cls : Nat) (locs : List Loc) (s : State) : LoadFrame cls s (countLoad cls locs s) := by
  unfold countLoad
  dsimp only
  split
  next h =>
    have h15 : cls = 15 := by simp only [Bool.and_eq_true, decide_eq_true_eq] at h; exact h.1
    refine ⟨?_, fun hc => absurd h15 hc⟩
    split <;> rfl
  next => split <;> exact ⟨rfl, fun _ => ⟨rfl, rfl⟩⟩

theorem loadFrame_setElemV {cls : Nat} {s t : State} (h : VFrame s t) : LoadFrame cls s t := by
  have ht : t = { s with thr.v := t.thr.v, thr.hid.units := t.thr.hid.units } := h
  refine ⟨ht.trans ?_, fun _ => ?_⟩ <;> rw [ht]
  exact ⟨rfl, rfl⟩

/-- No tile access of the slot is on its way, so that none orders a sync access. -/
theorem tileAccess_none {s : State} (h : ∀ e ∈ s.slot.mxq, e.op ≠ .zld ∧ e.op ≠ .zst) (mask : BitVec 16) (before : Nat) :
    tileAccess s mask before = false := by
  unfold tileAccess
  rw [List.any_eq_false]
  intro e he
  obtain ⟨h1, h2⟩ := h e he
  simp [h1, h2]

/-- The sync class orders nothing by tile accesses (R252). -/
abbrev SyncFree (cls : Nat) (s : State) : Prop := cls = 15 → ∀ e ∈ s.slot.mxq, e.op ≠ .zld ∧ e.op ≠ .zst

/-- A load comes to the same in a state that a sweep of loads has left. -/
theorem loadBytes_frame {cls : Nat} {s t : State} (h : LoadFrame cls s t) (hsync : SyncFree cls s) (al va n : Nat) :
    loadBytes t cls al va n = loadBytes s cls al va n := by
  obtain ⟨heq, hplain⟩ := h
  by_cases hc : cls = 15
  · subst hc
    generalize t.thr.pnd.l1dMin = l at heq
    generalize t.dev.ser = k at heq
    rw [heq]
    have htile : ∀ mask before, tileAccess s mask before = false := tileAccess_none (hsync rfl)
    have hw : ∀ u : State, u = { s with
        thr.v := t.thr.v, thr.m := t.thr.m, thr.hid.units := t.thr.hid.units, thr.sr.fpflags := t.thr.sr.fpflags, thr.sr.mflags := t.thr.sr.mflags
        thr.pnd.l1dMin := l, dev.acnt := t.dev.acnt, dev.queues := t.dev.queues, dev.ser := k } → loadBytes u 15 al va n = loadBytes s 15 al va n := by
      intro u hu
      have hwait : loadWaits u 15 = loadWaits s 15 := by
        have h1 : tileAccess u 0xFFFF u.dev.ser = false := by
          rw [hu]
          exact htile 0xFFFF k
        unfold loadWaits
        rw [h1, htile, hu]
      have hheld : ∀ pa reads, heldFrom u 15 pa reads = heldFrom s 15 pa reads := fun pa reads => by
        have h1 : tileAccess u 0xFFFF u.dev.ser = false := by
          rw [hu]
          exact htile 0xFFFF k
        unfold heldFrom
        rw [h1, htile, hu]
        rfl
      have hfar : ∀ stay locs, farAccess u 15 true stay locs = farAccess s 15 true stay locs := fun stay locs => by
        unfold farAccess
        simp only [hheld]
        rw [hu]
        cases locs <;> rfl
      unfold loadBytes loadAs loadChecked
      simp only [hwait, hfar]
      rw [hu]
      rfl
    exact hw _ rfl
  · obtain ⟨hl, hk⟩ := hplain hc
    rw [hl, hk] at heq
    rw [heq]
    rfl

/-! ## Registers during a sweep of loads -/

/-- What the group of a memory word and its companion hold, beside what they held before: the codes placed and the scale bytes placed. -/
structure Holds (s : State) (F : MemWord) (val sval : Nat → Option Nat) (t : State) : Prop where
  vmax : vmN t = vmN s
  whole : t.thr.hid.damaged = []
  slot : t.slot = s.slot
  elems : ∀ j, j < groupLen s (ewN s) (grpN s) → elemV t F.d.toNat (ewN s) j =
    match val j with | some c => c % 2 ^ ewN s | none => elemV s F.d.toNat (ewN s) j
  scales : ∀ q, F.blk ≠ 0 → q < perReg (vmN s) 8 → elemV t (F.d.toNat + grpN s) 8 q =
    match sval q with | some c => c % 256 | none => elemV s (F.d.toNat + grpN s) 8 q
  rest : ∀ r, r < F.d.toNat ∨ F.d.toNat + grpN s + (if F.blk = 0 then 0 else 1) ≤ r → rv t r = rv s r

/-- Where a word that places elements and scale bytes may write. -/
structure HoldsReady (s : State) (F : MemWord) : Prop where
  vmax : vmN s ≤ 16384
  dst : GroupOk s (F.d.toNat, grpN s)
  companion : F.blk ≠ 0 → NoPort s [F.d.toNat + grpN s]

theorem holds_start {s : State} (F : MemWord) (hd : s.thr.hid.damaged = []) : Holds s F (fun _ => none) (fun _ => none) s :=
  ⟨rfl, hd, rfl, fun _ _ => rfl, fun _ _ _ => rfl, fun _ _ => rfl⟩

theorem holds_congr {s t : State} {F : MemWord} {val val' sval sval' : Nat → Option Nat} (h : Holds s F val sval t)
    (hv : ∀ j, j < groupLen s (ewN s) (grpN s) → val j = val' j) (hs : ∀ q, F.blk ≠ 0 → q < perReg (vmN s) 8 → sval q = sval' q) :
    Holds s F val' sval' t :=
  ⟨h.vmax, h.whole, h.slot, fun j hj => by rw [h.elems j hj, hv j hj], fun q hb hq => by rw [h.scales q hb hq, hs q hb hq], h.rest⟩

/-- A state with the same registers holds the same. -/
theorem holds_same {s t u : State} {F : MemWord} {val sval : Nat → Option Nat} (h : Holds s F val sval t) (hv : u.thr.v = t.thr.v)
    (hm : vmN u = vmN t) (hd : u.thr.hid.damaged = t.thr.hid.damaged) (hs : u.slot = t.slot) (hc : u.cur = t.cur) : Holds s F val sval u :=
  ⟨hm.trans h.vmax, hd.trans h.whole, hs.trans h.slot, fun j hj => (elemV_frame hv hs hc hm _ _ _).trans (h.elems j hj),
    fun q hb hq => (elemV_frame hv hs hc hm _ _ _).trans (h.scales q hb hq), fun r hr => (rv_frame hv hs hc r).trans (h.rest r hr)⟩

theorem holds_elem {s t : State} {F : MemWord} {val sval : Nat → Option Nat} {i : Nat} (c : Nat) (hr : HoldsReady s F)
    (hi : i < groupLen s (ewN s) (grpN s)) (h : Holds s F val sval t) :
    Holds s F (fun j => if j = i then some c else val j) sval (setElemV F.d.toNat (ewN s) i c t) := by
  have hq : i / perReg (vmN t) (ewN s) < grpN s := by rw [h.vmax]; exact div_lt_group hi
  have h0 : perReg (vmN t) (ewN s) ≠ 0 := by rw [h.vmax]; exact perReg_pos hi
  have hp : NoPort t [F.d.toNat + i / perReg (vmN t) (ewN s)] := noPort_same (noPort_group hr.dst hq) (by rw [h.slot])
  have hf : setElemV F.d.toNat (ewN s) i c t = { t with
      thr.v := (setElemV F.d.toNat (ewN s) i c t).thr.v, thr.hid.units := (setElemV F.d.toNat (ewN s) i c t).thr.hid.units } :=
    setElemV_frame h.whole hp
  refine ⟨?_, ?_, ?_, fun j hj => ?_, fun q hb hq' => ?_, fun r hr' => ?_⟩
  · unfold vmN
    rw [hf]
    exact h.vmax
  · rw [hf]
    exact h.whole
  · rw [hf]
    exact h.slot
  · rw [elemV_setElemV h.whole (h.vmax ▸ hr.vmax) h0 hp]
    by_cases hji : j = i
    · simp only [if_pos hji]
    · simp only [if_neg hji]
      exact h.elems j hj
  · rw [elemV_setElemV_apart h.whole hp (by rw [h.vmax, Nat.div_eq_of_lt hq']; rw [h.vmax] at hq; omega)]
    exact h.scales q hb hq'
  · have hne : r ≠ F.d.toNat + i / perReg (vmN t) (ewN s) := fun e => by
      rw [e] at hr'
      rcases hr' with hr' | hr'
      · exact absurd hr' (Nat.not_lt.mpr (Nat.le_add_right _ _))
      · exact absurd (Nat.lt_of_lt_of_le (Nat.add_lt_add_left hq F.d.toNat) (Nat.le_add_right _ _)) (Nat.not_lt.mpr hr')
    rw [rv_setElemV_ne h.whole hp hne]
    exact h.rest r hr'

theorem holds_scale {s t : State} {F : MemWord} {val sval : Nat → Option Nat} {i : Nat} (c : Nat) (hr : HoldsReady s F) (hb : F.blk ≠ 0)
    (hi : i < perReg (vmN s) 8) (h : Holds s F val sval t) :
    Holds s F val (fun q => if q = i then some c else sval q) (setElemV (F.d.toNat + grpN s) 8 i c t) := by
  have hz : i / perReg (vmN t) 8 = 0 := by rw [h.vmax]; exact Nat.div_eq_of_lt hi
  have h0 : perReg (vmN t) 8 ≠ 0 := by rw [h.vmax]; exact Nat.ne_of_gt (lt_of_le_of_lt (Nat.zero_le _) hi)
  have hp : NoPort t [F.d.toNat + grpN s + i / perReg (vmN t) 8] := by
    rw [hz]
    exact noPort_same (hr.companion hb) (by rw [h.slot])
  have hf : setElemV (F.d.toNat + grpN s) 8 i c t = { t with
      thr.v := (setElemV (F.d.toNat + grpN s) 8 i c t).thr.v, thr.hid.units := (setElemV (F.d.toNat + grpN s) 8 i c t).thr.hid.units } :=
    setElemV_frame h.whole hp
  refine ⟨?_, ?_, ?_, fun j hj => ?_, fun q _ hq => ?_, fun r hr' => ?_⟩
  · unfold vmN
    rw [hf]
    exact h.vmax
  · rw [hf]
    exact h.whole
  · rw [hf]
    exact h.slot
  · have hlt := div_lt_group hj
    rw [elemV_setElemV_apart h.whole hp (by rw [hz, h.vmax]; omega)]
    exact h.elems j hj
  · rw [elemV_setElemV h.whole (h.vmax ▸ hr.vmax) h0 hp]
    by_cases hqi : q = i
    · simp only [if_pos hqi]
      rfl
    · simp only [if_neg hqi]
      exact h.scales q hb hq
  · rw [if_neg hb] at hr'
    have hkeep := h.rest r (by rw [if_neg hb]; exact hr')
    rw [rv_setElemV_ne h.whole hp (by rw [hz]; omega)]
    exact hkeep

/-! ## Spans of bits (R35, R103) -/

theorem fmtEw_whole {f : Nat} (h : 8 ≤ fmtEw f) : 8 * (fmtEw f / 8) = fmtEw f := by
  unfold fmtEw at *
  split_ifs at * <;> omega

theorem ceilDiv_bytes {n : Nat} : ceilDiv (8 * n) 8 = n := by
  unfold ceilDiv
  rw [if_neg (by decide)]
  omega

theorem bitSpan_bytes {z : Int} {ew : Nat} (h : 8 * (ew / 8) = ew) : bitSpan (8 * z) ew = (wrap z, ew / 8, 0) := by
  unfold bitSpan
  have hmod : (8 * z % 8).toNat = 0 := by omega
  have hdiv : 8 * z / 8 = z := by omega
  simp only [hmod, hdiv, Nat.zero_add]
  rw [← h, ceilDiv_bytes]
  simp

/-- An element is written modulo its width. -/
theorem setElemV_mod (b ew i v : Nat) (s : State) : setElemV b ew i (v % 2 ^ ew) s = setElemV b ew i v s := by
  unfold setElemV setBits
  simp only [Nat.mod_mod]

/-! ## Blocks (R107) -/

/-- The lowest active index of a block is found from every active index of it. -/
theorem blockFirst_spec {s : State} {km blk i : Nat} (hb : blk ≠ 0) (hlo : vsN s ≤ i) (ha : activeAt s km i = true) :
    vsN s ≤ blockFirst s km blk i ∧ activeAt s km (blockFirst s km blk i) = true ∧ blockFirst s km blk i ≤ i ∧ blockFirst s km blk i / blk = i / blk := by
  have hblk : 0 < blk := Nat.pos_of_ne_zero hb
  have hin : i / blk * blk ≤ i ∧ i < i / blk * blk + blk := by
    have h1 := Nat.div_mul_le_self i blk
    have h2 := Nat.lt_div_mul_add (a := i) hblk
    exact ⟨h1, h2⟩
  unfold blockFirst
  cases hf : (upFrom (i / blk * blk) blk).find? (fun j => vsN s ≤ j && activeAt s km j) with
  | none =>
    have hnone := List.find?_eq_none.mp hf i (mem_upFrom.mpr hin)
    simp [hlo, ha] at hnone
  | some j =>
    have hsat := List.find?_some hf
    have hmem := mem_upFrom.mp (List.mem_of_find?_eq_some hf)
    simp only [Bool.and_eq_true, decide_eq_true_eq] at hsat
    refine ⟨hsat.1, hsat.2, ?_, ?_⟩
    · by_contra hlt
      obtain ⟨-, as, bs, heq, hbefore⟩ := List.find?_eq_some_iff_append.mp hf
      have hpos : ∀ (lo n : Nat) (as bs : List Nat), upFrom lo n = as ++ j :: bs → ∀ x, lo ≤ x → x < j → x ∈ as := by
        intro lo n
        induction n generalizing lo with
        | zero => intro as bs h; cases as <;> cases h
        | succ n ih =>
          intro as bs h x hx hxj
          cases as with
          | nil =>
            rw [upFrom, List.nil_append, List.cons.injEq] at h
            omega
          | cons a as =>
            rw [upFrom, List.cons_append, List.cons.injEq] at h
            obtain ⟨rfl, h⟩ := h
            rcases Nat.eq_or_lt_of_le hx with rfl | hx
            · exact List.mem_cons_self
            · exact List.mem_cons_of_mem _ (ih _ as bs h x hx hxj)
      have hi := hbefore i (hpos _ _ as bs heq i hin.1 (by simpa using hlt))
      simp [hlo, ha] at hi
    · show j / blk = i / blk
      rw [Nat.div_eq_iff hblk]
      omega

end Sys2Proof.Machine
end

section
/-! PROOFS. Vector loads (O43): each is a sweep of its memory word's elements, over registers that hold what has been loaded. -/

namespace Sys2Proof.Machine

/-! ## One element -/

/-- Index i of a vector load, by its memory word. -/
def loadIndex (s : State) (F : MemWord) (whole : Bool) (i : Nat) (t : State) : El :=
  if F.isElem i then
    if maskBit s F.k.toNat i then
      if F.blk = 0 then loadBitsEl F.cls.toNat (F.bitAt i) (ewN s) (setElemV F.d.toNat (ewN s) i) t
      else loadBlockEl s whole F.d.toNat F.k.toNat F.blk F.cls.toNat i F.bitAt F.scaleAt t
    else .ok t
  else .ok (setElemV F.d.toNat (ewN s) i 0 t)

/-- The end of a memory word's sweep: a stream word steps its register. -/
def endSweep (s : State) (F : MemWord) (r : Swept) : Res :=
  match F.stream with
  | none => finishSweep s r
  | some n => finishStream n.toNat s r

/-- A state is left by a vector load that its memory word describes: over every state that a sweep of loads leaves, its element function
is the word's. -/
def RunsLoad (w : BitVec 32) (s : State) (F : MemWord) (t : State) : Prop :=
  ∃ (n : Need) (body : State → Res) (f : Nat → State → El) (whole : Bool), t = run n s body ∧ n.word = w ∧ n.queued = true ∧ n.vs0 = false ∧
    (MemReady s F → Ready n s) ∧
    (MemReady s F → body s = loadEnd (endSweep s F (sweep f (vlN s - vsN s) (vsN s) (chargeWord (ewN s) s)))) ∧
    (MemReady s F → ∀ i t, LoadFrame F.cls.toNat s t → f i t = loadIndex s F whole i t)

theorem mayLoad_role {s : State} {b : Bool} (h : loadRole s = true) : mayLoad s b = true := by
  unfold loadRole at h
  unfold mayLoad
  rcases of_decide_eq_true h with h | h <;> simp [h]

theorem ready_load {s : State} {F : MemWord} {n : Need} (h : MemReady s F) (hrole : n.roleOk = true) (hfmt : n.fmtOk = true) (hown : n.regOk = true)
    (hx : n.xr ++ n.xw = F.xs.map BitVec.toNat) (hv : n.vr ++ n.vw = F.vr ++ [(F.d.toNat, grpN s)]) (hm : n.mr ++ n.mw = []) : Ready n s := by
  refine ready_vector h.ok h.legal hrole hfmt hown (hx ▸ h.xs) (fun g hg => ?_) hm
  rw [hv] at hg
  rcases List.mem_append.mp hg with hg | hg
  · exact h.srcs g hg
  · rw [List.mem_singleton.mp hg]
    exact ⟨grpN_pos s, h.dst⟩

/-- An element of whole bytes at a byte address (R103). -/
theorem loadBitsEl_bytes {cls ew d i : Nat} {z : Int} (h8 : 8 ≤ ew) (hew : 8 * (ew / 8) = ew) (t : State) :
    loadBitsEl cls (8 * z) ew (setElemV d ew i) t = loadEl cls (ew / 8) (wrap z) (ew / 8) (setElemV d ew i) t := by
  unfold loadBitsEl
  rw [bitSpan_bytes hew]
  simp only [bne_self_eq_false, Bool.and_false, Bool.false_eq_true, if_false, if_neg (Nat.not_lt.mpr h8)]
  congr 1
  funext v u
  exact setElemV_mod d ew i v u

/-- The bit address of a unit-stride element whose pattern is legal (R103). -/
theorem unitBit_legal {s : State} {a b : BitVec 5} (h : (if 8 ≤ ewN s then decide (xr s b = 0) else decide ((xr s b).toNat ≤ 7)) = true) (i : Nat) :
    unitBit s a b (ewN s) i = some (8 * ((xr s a).toNat : Int) + (xr s b).toNat + i * ewN s) := by
  unfold unitBit
  by_cases h8 : 8 ≤ ewN s
  · rw [if_pos h8] at h ⊢
    have hb : xr s b = 0 := of_decide_eq_true h
    have hew : (8 : Int) * ((ewN s / 8 : Nat) : Int) = ewN s := by exact_mod_cast fmtEw_whole h8
    rw [if_pos hb, hb]
    congr 1
    push_cast
    rw [← hew]
    simp
    ring
  · rw [if_neg h8] at h ⊢
    exact if_pos (of_decide_eq_true h)

/-- An index of a pattern that is no stream's: padding from VLVALID on (R98). -/
theorem loadClass_eq {s t : State} {F : MemWord} {access : State → El} {whole : Bool} {i : Nat} (ht : LoadFrame F.cls.toNat s t)
    (his : F.isElem i = decide (i < vvN s))
    (hacc : access t = if F.blk = 0 then loadBitsEl F.cls.toNat (F.bitAt i) (ewN s) (setElemV F.d.toNat (ewN s) i) t
      else loadBlockEl s whole F.d.toNat F.k.toNat F.blk F.cls.toNat i F.bitAt F.scaleAt t) :
    loadClass F.d.toNat F.k.toNat (ewN s) i access t = loadIndex s F whole i t := by
  have hvv : vvN t = vvN s := by unfold vvN; rw [ht.eq]
  have hmask : maskBit t F.k.toNat i = maskBit s F.k.toNat i := by rw [ht.eq]; rfl
  unfold loadClass loadIndex
  rw [his, hacc, hvv, hmask]
  simp only [decide_eq_true_eq]

theorem vld_runs (d a b : BitVec 5) (k : BitVec 3) (c : BitVec 4) (s : State) :
    ∃ t, exec (.vld d a b k c) s = .next t ∧ RunsLoad (encode (.vld d a b k c)) s (unitWord s d a b k c (loadRole s)) t := by
  refine ⟨_, rfl, _, _, _, false, rfl, rfl, rfl, rfl, fun h => ready_load h (mayLoad_role h.role) rfl rfl rfl rfl rfl, fun _ => rfl,
    fun h i t ht => loadClass_eq ht rfl ?_⟩
  rw [unitBit_legal h.unit]
  exact (if_pos rfl).symm

theorem vlds_runs (d a b : BitVec 5) (k : BitVec 3) (c : BitVec 4) (s : State) :
    ∃ t, exec (.vlds d a b k c) s = .next t ∧ RunsLoad (encode (.vlds d a b k c)) s (strideWord s d a b k c (loadRole s)) t := by
  refine ⟨_, rfl, _, _, _, false, rfl, rfl, rfl, rfl, fun h => ready_load h (mayLoad_role h.role) h.fmt rfl rfl rfl rfl, fun _ => rfl,
    fun h i t ht => loadClass_eq ht rfl ?_⟩
  have h8 : 8 ≤ ewN s := of_decide_eq_true h.fmt
  exact (loadBitsEl_bytes h8 (fmtEw_whole h8) t).symm.trans (if_pos rfl).symm

theorem vldx_runs (d a b : BitVec 5) (k : BitVec 3) (c : BitVec 4) (s : State) :
    ∃ t, exec (.vldx d a b k c) s = .next t ∧ RunsLoad (encode (.vldx d a b k c)) s (indexWord s d a b k c (loadRole s)) t := by
  refine ⟨_, rfl, _, _, _, false, rfl, rfl, rfl, rfl, fun h => ready_load h (mayLoad_role h.role) h.fmt rfl rfl rfl rfl, fun _ => rfl,
    fun h i t ht => loadClass_eq ht rfl ?_⟩
  have h8 : 8 ≤ ewN s := of_decide_eq_true h.fmt
  exact (loadBitsEl_bytes h8 (fmtEw_whole h8) t).symm.trans (if_pos rfl).symm

theorem vldmx_runs (d a b : BitVec 5) (k : BitVec 3) (c : BitVec 4) (s : State) :
    ∃ t, exec (.vldmx d a b k c) s = .next t ∧ RunsLoad (encode (.vldmx d a b k c)) s (blockWord s d a b k c (loadRole s)) t := by
  refine ⟨_, rfl, _, _, _, true, rfl, rfl, rfl, rfl,
    fun h => ready_load h (mayLoad_role h.role) (bne_iff_ne.mpr (of_decide_eq_true h.fmt)) h.own rfl rfl rfl, fun _ => rfl,
    fun h i t ht => loadClass_eq ht rfl ?_⟩
  exact (if_neg (of_decide_eq_true h.fmt)).symm

/-- A thread in no chain binds no stream register (R290). -/
theorem bindOf_calm {s : State} (hc : Calm s) (place : Bool) (st : Stream) : bindOf s place st = none := by
  unfold bindOf chainOf
  rw [hc.chain]
  exact ite_self _

theorem vsld_runs (d : BitVec 5) (n : BitVec 3) (k : BitVec 3) (c : BitVec 4) (s : State) :
    ∃ t, exec (.vsld d n k c) s = .next t ∧ RunsLoad (encode (.vsld d n k c)) s (streamWord s d n k c (loadRole s) 0) t := by
  refine ⟨_, rfl, _, _, (fun i t =>
      if inStream s (streamOf s (streamNum n)) i then
        (if !maskBit s k.toNat i then .ok t
         else if vtBlk s.thr.sr.vtype = 0 then
           loadBitsEl c.toNat (dBit (streamOf s (streamNum n)).desc.toNat ((streamOf s (streamNum n)).t + i)) (ewN s) (setElemV d.toNat (ewN s) i) t
         else loadBlockEl s false d.toNat k.toNat (vtBlk s.thr.sr.vtype) c.toNat i
           (fun j => dBit (streamOf s (streamNum n)).desc.toNat ((streamOf s (streamNum n)).t + j))
           (fun j => dScale (streamOf s (streamNum n)).desc.toNat ((streamOf s (streamNum n)).t + j * vtBlk s.thr.sr.vtype)) t)
      else .ok (setElemV d.toNat (ewN s) i 0 t)), false, rfl, rfl, rfl, rfl,
    fun h => ready_load h (mayLoad_role h.role) h.fmt h.own rfl rfl rfl, fun h => ?_, fun h i t ht => ?_⟩
  · show (match bindOf s false (streamOf s (streamNum n)) with | some (bi, _) => _ | none => _) = _
    rw [bindOf_calm h.ok.calm]
    rfl
  · unfold loadIndex
    show (if inStream s (streamOf s (streamNum n)) i then _ else _) = if inStream s (streamOf s (streamNum n)) i then _ else _
    cases inStream s (streamOf s (streamNum n)) i with
    | false => rfl
    | true =>
      cases hm : maskBit s k.toNat i <;> simp only [hm, streamWord, memWord] <;> rfl

theorem exec_vecLoad {s : State} {i : Instr} {F : MemWord} (h : vecLoad s i = some F) : ∃ t, exec i s = .next t ∧ RunsLoad (encode i) s F t := by
  unfold vecLoad at h
  split at h
  case h_1 => cases h; exact vld_runs _ _ _ _ _ s
  case h_2 => cases h; exact vlds_runs _ _ _ _ _ s
  case h_3 => cases h; exact vldx_runs _ _ _ _ _ s
  case h_4 => cases h; exact vldmx_runs _ _ _ _ _ s
  case h_5 => cases h; exact vsld_runs _ _ _ _ s
  case h_6 => cases h

/-! ## The indices of a memory word (R98, R107, R110) -/

/-- The elements of a memory word are the indices below some length, which is at most VLVALID. -/
structure MemShape (s : State) (F : MemWord) : Prop where
  valid : ∀ j, F.isElem j = true → j < vvN s
  down : ∀ i j, i ≤ j → F.isElem j = true → F.isElem i = true

theorem memShape_plain {s : State} {F : MemWord} (h : F.isElem = fun i => decide (i < vvN s)) : MemShape s F := by
  refine ⟨fun j hj => ?_, fun i j hij hj => ?_⟩
  · rw [h] at hj
    exact of_decide_eq_true hj
  · rw [h] at hj ⊢
    exact decide_eq_true (lt_of_le_of_lt hij (of_decide_eq_true hj))

theorem memShape_stream (s : State) (d : BitVec 5) (n k : BitVec 3) (c : BitVec 4) (role : Bool) (flag : Nat) :
    MemShape s (streamWord s d n k c role flag) := by
  have hiff : ∀ j, (streamWord s d n k c role flag).isElem j = true ↔
      j < vvN s ∧ (streamOf s n.toNat).t + j < dCount (streamOf s n.toNat).desc.toNat := fun j => by
    show (decide _ && decide _) = true ↔ _
    rw [Bool.and_eq_true, decide_eq_true_eq, decide_eq_true_eq]
  refine ⟨fun j hj => ((hiff j).mp hj).1, fun i j hij hj => ?_⟩
  obtain ⟨h1, h2⟩ := (hiff j).mp hj
  exact (hiff i).mpr ⟨by omega, by omega⟩

theorem vecLoad_shape {s : State} {i : Instr} {F : MemWord} (h : vecLoad s i = some F) : MemShape s F := by
  unfold vecLoad at h
  split at h
  case h_5 => cases h; exact memShape_stream s _ _ _ _ _ _
  case h_6 => cases h
  all_goals
    cases h
    exact memShape_plain rfl

theorem companion_noPort {s : State} {d : Nat} (h : companionOk s d = true) : NoPort s [d + grpN s] := by
  unfold companionOk companion at h
  have hle := of_decide_eq_true h
  by_cases ht : isTrio s = true
  · rw [if_pos ht] at hle
    refine .inr fun r hr => ?_
    rw [List.mem_singleton.mp hr]
    omega
  · exact .inl (by simpa using ht)

theorem blockWord_companion {s : State} {d a b : BitVec 5} {k : BitVec 3} {c : BitVec 4} {role : Bool}
    (h : MemReady s (blockWord s d a b k c role)) : NoPort s [d.toNat + grpN s] := companion_noPort h.own

theorem streamWord_companion {s : State} {d : BitVec 5} {n k : BitVec 3} {c : BitVec 4} {role : Bool} {flag : Nat}
    (h : MemReady s (streamWord s d n k c role flag)) (hb : (streamWord s d n k c role flag).blk ≠ 0) : NoPort s [d.toNat + grpN s] := by
  have hown := h.own
  change (_ && _ && (decide (vtBlk s.thr.sr.vtype = 0) || companionOk s d.toNat)) = true at hown
  change vtBlk s.thr.sr.vtype ≠ 0 at hb
  rw [Bool.and_eq_true, decide_eq_false hb, Bool.false_or] at hown
  exact companion_noPort hown.2

theorem vecLoad_companion {s : State} {i : Instr} {F : MemWord} (h : vecLoad s i = some F) (hr : MemReady s F) (hb : F.blk ≠ 0) :
    NoPort s [F.d.toNat + grpN s] := by
  unfold vecLoad at h
  split at h
  case h_4 => cases h; exact blockWord_companion hr
  case h_5 => cases h; exact streamWord_companion hr hb
  case h_6 => cases h
  all_goals
    cases h
    exact absurd rfl hb

theorem accesses_iff {s : State} {F : MemWord} {j : Nat} :
    accesses s F j = true ↔ vsN s ≤ j ∧ j < vlN s ∧ F.isElem j = true ∧ maskBit s F.k.toNat j = true := by
  unfold accesses
  simp only [Bool.and_eq_true, decide_eq_true_eq, and_assoc]

/-- The first active index of an accessed index's block is accessed. -/
theorem blockFirst_accessed {s : State} {F : MemWord} {i : Nat} (hsh : MemShape s F) (hb : F.blk ≠ 0) (h : accesses s F i = true) :
    accesses s F (blockFirst s F.k.toNat F.blk i) = true ∧ blockFirst s F.k.toNat F.blk i ≤ i ∧ blockFirst s F.k.toNat F.blk i / F.blk = i / F.blk := by
  obtain ⟨hlo, hhi, hel, hm⟩ := accesses_iff.mp h
  have hact : activeAt s F.k.toNat i = true := by
    unfold activeAt
    rw [Bool.and_eq_true]
    exact ⟨decide_eq_true (hsh.valid i hel), hm⟩
  obtain ⟨h1, h2, h3, h4⟩ := blockFirst_spec hb hlo hact
  unfold activeAt at h2
  rw [Bool.and_eq_true] at h2
  exact ⟨accesses_iff.mpr ⟨h1, by omega, hsh.down _ _ h3 hel, h2.2⟩, h3, h4⟩

/-! ## What has been loaded -/

/-- The code that index j loads. -/
def loadedCode (s : State) (F : MemWord) (bs : Nat → List Byte) (j : Nat) : Nat := bits (leNat (bs j)) (bitSpan (F.bitAt j) (ewN s)).2.2 (ewN s)

/-- The codes placed by the indices below i: what was read, and 0 for padding. -/
def codesBelow (s : State) (F : MemWord) (bs : Nat → List Byte) (i j : Nat) : Option Nat :=
  if accesses s F j = true ∧ j < i then some (loadedCode s F bs j)
  else if vsN s ≤ j ∧ j < i ∧ F.isElem j = false then some 0 else none

/-- The scale bytes placed by the indices below i. -/
def scalesBelow (s : State) (F : MemWord) (sb : Nat → List Byte) (i q : Nat) : Option Nat :=
  if ∃ j, j < i ∧ accesses s F j = true ∧ j / F.blk = q then some (leNat (sb q)) else none

/-- The state of a vector load after its indices below i. -/
structure Loaded (s : State) (F : MemWord) (bs sb : Nat → List Byte) (i : Nat) (t : State) : Prop where
  frame : LoadFrame F.cls.toNat s t
  moments : t.thr.m = s.thr.m
  flags : t.thr.sr.fpflags = s.thr.sr.fpflags
  mflags : t.thr.sr.mflags = s.thr.sr.mflags
  holds : Holds s F (codesBelow s F bs i) (scalesBelow s F sb i) t

theorem loaded_start {s : State} (F : MemWord) (bs sb : Nat → List Byte) (h : VectorOk s) :
    Loaded s F bs sb (vsN s) (chargeWord (ewN s) s) := by
  have hthr : (chargeWord (ewN s) s).thr = s.thr := (chargeWord_frame (ewN s) s).1
  refine ⟨loadFrame_charge _ _ s, by rw [hthr], by rw [hthr], by rw [hthr], ?_⟩
  have hstart := holds_same (u := chargeWord (ewN s) s) (holds_start F h.calm.whole) (by rw [hthr]) (by unfold vmN; rw [hthr]) (by rw [hthr])
    (chargeWord_frame (ewN s) s).2.1 (chargeWord_frame (ewN s) s).2.2.1
  refine holds_congr hstart (fun j _ => ?_) (fun q _ _ => ?_)
  · unfold codesBelow
    rw [if_neg (fun h => absurd (lt_of_le_of_lt (accesses_iff.mp h.1).1 h.2) (lt_irrefl _)), if_neg (fun h => absurd (lt_of_le_of_lt h.1 h.2.1) (lt_irrefl _))]
  · unfold scalesBelow
    rw [if_neg]
    rintro ⟨j, hj, ha, -⟩
    exact absurd (lt_of_le_of_lt (accesses_iff.mp ha).1 hj) (lt_irrefl _)

theorem codesBelow_succ {s : State} {F : MemWord} {bs : Nat → List Byte} {i j : Nat} (hji : j ≠ i) : codesBelow s F bs (i + 1) j = codesBelow s F bs i j := by
  unfold codesBelow
  have h : j < i + 1 ↔ j < i := by omega
  simp only [h]

theorem codesBelow_accessed {s : State} {F : MemWord} {bs : Nat → List Byte} {i : Nat} (h : accesses s F i = true) (j : Nat) :
    (if j = i then some (loadedCode s F bs i) else codesBelow s F bs i j) = codesBelow s F bs (i + 1) j := by
  by_cases hji : j = i
  · subst hji
    unfold codesBelow
    rw [if_pos rfl, if_pos ⟨h, Nat.lt_succ_self _⟩]
  · rw [if_neg hji, codesBelow_succ hji]

theorem codesBelow_padding {s : State} {F : MemWord} {bs : Nat → List Byte} {i : Nat} (hlo : vsN s ≤ i) (h : F.isElem i = false) (j : Nat) :
    (if j = i then some 0 else codesBelow s F bs i j) = codesBelow s F bs (i + 1) j := by
  by_cases hji : j = i
  · subst hji
    unfold codesBelow
    rw [if_pos rfl, if_neg (fun ha => by rw [(accesses_iff.mp ha.1).2.2.1] at h; cases h), if_pos ⟨hlo, Nat.lt_succ_self _, h⟩]
  · rw [if_neg hji, codesBelow_succ hji]

theorem codesBelow_masked {s : State} {F : MemWord} {bs : Nat → List Byte} {i : Nat} (ha : accesses s F i ≠ true) (h : F.isElem i = true) (j : Nat) :
    codesBelow s F bs i j = codesBelow s F bs (i + 1) j := by
  by_cases hji : j = i
  · subst hji
    unfold codesBelow
    rw [if_neg (fun h => ha h.1), if_neg (fun h => absurd h.2.1 (lt_irrefl _)), if_neg (fun h => ha h.1), if_neg (fun hp => by rw [h] at hp; cases hp.2.2)]
  · rw [codesBelow_succ hji]

theorem scalesBelow_idle {s : State} {F : MemWord} {sb : Nat → List Byte} {i : Nat} (ha : accesses s F i ≠ true) (q : Nat) :
    scalesBelow s F sb i q = scalesBelow s F sb (i + 1) q := by
  unfold scalesBelow
  refine if_congr ⟨?_, ?_⟩ rfl rfl
  · rintro ⟨j, hj, h⟩
    exact ⟨j, by omega, h⟩
  · rintro ⟨j, hj, h⟩
    have hji : j ≠ i := fun e => ha (e ▸ h.1)
    exact ⟨j, by omega, h⟩

/-- The scale byte of an accessed index whose block has been met before is there already. -/
theorem scalesBelow_later {s : State} {F : MemWord} {sb : Nat → List Byte} {i : Nat} (hsh : MemShape s F) (hb : F.blk ≠ 0)
    (ha : accesses s F i = true) (hf : blockFirst s F.k.toNat F.blk i ≠ i) (q : Nat) : scalesBelow s F sb i q = scalesBelow s F sb (i + 1) q := by
  obtain ⟨h1, h2, h3⟩ := blockFirst_accessed hsh hb ha
  unfold scalesBelow
  refine if_congr ⟨?_, ?_⟩ rfl rfl
  · rintro ⟨j, hj, h⟩
    exact ⟨j, by omega, h⟩
  · rintro ⟨j, hj, h⟩
    by_cases hji : j = i
    · subst hji
      exact ⟨_, lt_of_le_of_ne h2 hf, h1, h3.trans h.2⟩
    · exact ⟨j, by omega, h⟩

theorem scalesBelow_first {s : State} {F : MemWord} {sb : Nat → List Byte} {i : Nat} (ha : accesses s F i = true) (q : Nat) :
    (if q = i / F.blk then some (leNat (sb (i / F.blk))) else scalesBelow s F sb i q) = scalesBelow s F sb (i + 1) q := by
  unfold scalesBelow
  by_cases hq : q = i / F.blk
  · rw [if_pos hq, if_pos ⟨i, Nat.lt_succ_self _, ha, hq.symm⟩, hq]
  · rw [if_neg hq]
    refine if_congr ⟨?_, ?_⟩ rfl rfl
    · rintro ⟨j, hj, h⟩
      exact ⟨j, by omega, h⟩
    · rintro ⟨j, hj, h⟩
      have hji : j ≠ i := fun e => hq (e ▸ h.2.symm)
      exact ⟨j, by omega, h⟩

/-! ## Loads of one index -/

/-- What the access of index e's own element comes to (R104). -/
def ownGot (s : State) (F : MemWord) (e : Nat) : Got :=
  if 8 ≤ ewN s ∧ (bitSpan (F.bitAt e) (ewN s)).2.2 ≠ 0 then .trap 0x0C (bitSpan (F.bitAt e) (ewN s)).1 none 0
  else loadBytes s F.cls.toNat (elemAlign s) (bitSpan (F.bitAt e) (ewN s)).1 (bitSpan (F.bitAt e) (ewN s)).2.1

/-- How an element ends by what its access comes to. -/
def gotEl (g : Got) (put : List Byte → List Loc → State) : El :=
  match g with
  | .trap c v v2 h => .trap c v v2 h
  | .wait q => .wait q
  | .ok bs locs => .ok (put bs locs)

theorem loadEl_got (cls al va n : Nat) (put : Nat → State → State) (t : State) :
    loadEl cls al va n put t = gotEl (loadBytes t cls al va n) (fun bs locs => put (leNat bs) (countLoad cls locs t)) := by
  unfold loadEl gotEl
  cases loadBytes t cls al va n <;> rfl

theorem loadBitsEl_got {s t : State} {F : MemWord} (ht : LoadFrame F.cls.toNat s t) (hsync : SyncFree F.cls.toNat s) (e : Nat) (put : Nat → State → State) :
    loadBitsEl F.cls.toNat (F.bitAt e) (ewN s) put t = gotEl (ownGot s F e) (fun bs locs =>
      put (bits (leNat bs) (bitSpan (F.bitAt e) (ewN s)).2.2 (ewN s)) (countLoad F.cls.toNat locs t)) := by
  unfold loadBitsEl ownGot
  by_cases h : 8 ≤ ewN s ∧ (bitSpan (F.bitAt e) (ewN s)).2.2 ≠ 0
  · rw [if_pos h, if_pos (by simpa using h)]
    rfl
  · rw [if_neg h, if_neg (by simpa using h), loadEl_got]
    exact congrArg (fun g => gotEl g _) (loadBytes_frame ht hsync _ _ _)

theorem loadWaits_frame {cls : Nat} {s t : State} (h : LoadFrame cls s t) (hsync : SyncFree cls s) : loadWaits t cls = loadWaits s cls := by
  by_cases hc : cls = 15
  · have h1 : tileAccess t 0xFFFF t.dev.ser = false := by
      have := tileAccess_none (hsync hc) 0xFFFF t.dev.ser
      rw [h.eq]
      exact this
    unfold loadWaits
    rw [h1, tileAccess_none (hsync hc), h.eq]
  · unfold loadWaits
    simp only [decide_eq_false hc, Bool.false_and]
    rw [h.eq]

/-- Loads of an index that all pass: what is read, and with blocks the scale byte. -/
structure Passes (s : State) (F : MemWord) (bs sb : Nat → List Byte) (locs sl : Nat → List Loc) (j : Nat) : Prop where
  own : ownGot s F j = .ok (bs j) (locs j)
  scale : F.blk ≠ 0 → loadBytes s F.cls.toNat 1 (F.scaleAt (j / F.blk)) 1 = .ok (sb (j / F.blk)) (sl (j / F.blk))

/-- What all the indices of a load word share. -/
structure LoadReady (s : State) (F : MemWord) : Prop where
  ready : MemReady s F
  shape : MemShape s F
  companion : F.blk ≠ 0 → NoPort s [F.d.toNat + grpN s]
  free : loadWaits s F.cls.toNat = false
  sync : SyncFree F.cls.toNat s
  clean : F.blk ≠ 0 → s.dev.poison = []

theorem LoadReady.holds {s : State} {F : MemWord} (h : LoadReady s F) : HoldsReady s F := ⟨h.ready.ok.vmax, h.ready.dst, h.companion⟩

/-- An access's outcome is its checks' and then, where they pass, its load's. -/
theorem loadBytes_check (s : State) (cls al va n : Nat) : loadBytes s cls al va n =
    match checkAccess s false al va n with
    | .trap c a h => .trap c a none h
    | .ok locs => loadChecked s cls va locs := by
  unfold loadBytes loadAs checkAccess
  cases checkAs s false false al va n <;> rfl

theorem checkAccess_of_loadBytes {s : State} {cls al va n : Nat} {bs : List Byte} {locs : List Loc} (h : loadBytes s cls al va n = .ok bs locs) :
    checkAccess s false al va n = .ok locs := (loadAs_ok h).1

theorem ownGot_check (s : State) (F : MemWord) (e : Nat) : ownGot s F e =
    match checkBits s false (F.bitAt e) (ewN s) with
    | .trap c a h => .trap c a none h
    | .ok locs => loadChecked s F.cls.toNat (bitSpan (F.bitAt e) (ewN s)).1 locs := by
  unfold ownGot checkBits
  by_cases h : 8 ≤ ewN s ∧ (bitSpan (F.bitAt e) (ewN s)).2.2 ≠ 0
  · simp only [if_pos h, if_pos (show (decide (8 ≤ ewN s) && (bitSpan (F.bitAt e) (ewN s)).2.2 != 0) = true by simpa using h)]
  · simp only [if_neg h, if_neg (show ¬ (decide (8 ≤ ewN s) && (bitSpan (F.bitAt e) (ewN s)).2.2 != 0) = true by simpa using h)]
    exact loadBytes_check _ _ _ _ _

/-- A load whose checks have passed raises DATA_LOSS alone. -/
theorem loadChecked_trap {s : State} {cls va c v h : Nat} {v2 : Option Nat} {locs : List Loc} (hl : loadChecked s cls va locs = .trap c v v2 h) :
    c = 0x30 := by
  have htake : ∀ {plain : Bool} {c v h : Nat} {v2 : Option Nat}, takeBytes s plain va locs = .trap c v v2 h → c = 0x30 := by
    intro plain c v h v2 ht
    unfold takeBytes at ht
    split at ht <;> cases ht
    rfl
  unfold loadChecked at hl
  split at hl
  · split at hl
    · cases hl
      rfl
    · cases hl
    · exact htake hl
  · split at hl
    · cases hl
    · exact htake hl

theorem checkBits_frame {s t : State} {cls : Nat} (ht : LoadFrame cls s t) (store : Bool) (z : Int) (ew : Nat) :
    checkBits t store z ew = checkBits s store z ew := by
  rw [ht.eq]
  rfl

theorem checkAccess_frame {s t : State} {cls : Nat} (ht : LoadFrame cls s t) (store : Bool) (al va n : Nat) :
    checkAccess t store al va n = checkAccess s store al va n := by
  rw [ht.eq]
  rfl

theorem blockPoison_clean {s : State} (h : s.dev.poison = []) (km blk i cls : Nat) (bitOf : Nat → Int) (scaleVa : Nat) :
    blockPoison s km blk i cls bitOf scaleVa = none := by
  unfold blockPoison
  rw [h]
  rfl

/-- The first access of a block, whose checks pass and which need not wait: its element, then its scale byte. -/
theorem loadBlockEl_first {s t : State} {F : MemWord} {e : Nat} {whole : Bool} (hr : LoadReady s F) (hb : F.blk ≠ 0) (ht : LoadFrame F.cls.toNat s t)
    (hf : blockFirst s F.k.toNat F.blk e = e) :
    loadBlockEl s whole F.d.toNat F.k.toNat F.blk F.cls.toNat e F.bitAt F.scaleAt t =
      match firstTrap (checkBits s false (F.bitAt e) (ewN s)) (checkAccess s false 1 (F.scaleAt (e / F.blk)) 1) with
      | some (c, v, h) => .trap c v none h
      | none => match loadBitsEl F.cls.toNat (F.bitAt e) (ewN s) (setElemV F.d.toNat (ewN s) e) t with
        | .ok u => loadEl F.cls.toNat 1 (F.scaleAt (e / F.blk)) 1 (setElemV (F.d.toNat + grpN s) 8 (e / F.blk)) u
        | x => x := by
  have hwait : loadWaits t F.cls.toNat = false := (loadWaits_frame ht hr.sync).trans hr.free
  have hpoison : (if whole then blockPoison s F.k.toNat F.blk e F.cls.toNat F.bitAt (F.scaleAt (e / F.blk)) else none) = none := by
    rw [blockPoison_clean (hr.clean hb)]
    exact ite_self _
  unfold loadBlockEl
  simp only [if_pos hf, checkBits_frame ht, checkAccess_frame ht, hwait, hpoison, Bool.false_eq_true, if_false]
  rfl

theorem loadBlockEl_later {s t : State} {F : MemWord} {e : Nat} {whole : Bool} (hf : blockFirst s F.k.toNat F.blk e ≠ e) :
    loadBlockEl s whole F.d.toNat F.k.toNat F.blk F.cls.toNat e F.bitAt F.scaleAt t =
      loadBitsEl F.cls.toNat (F.bitAt e) (ewN s) (setElemV F.d.toNat (ewN s) e) t := if_neg hf

theorem loadIndex_accessed {s t : State} {F : MemWord} {whole : Bool} {i : Nat} (ha : accesses s F i = true) :
    loadIndex s F whole i t = if F.blk = 0 then loadBitsEl F.cls.toNat (F.bitAt i) (ewN s) (setElemV F.d.toNat (ewN s) i) t
      else loadBlockEl s whole F.d.toNat F.k.toNat F.blk F.cls.toNat i F.bitAt F.scaleAt t := by
  obtain ⟨-, -, hel, hm⟩ := accesses_iff.mp ha
  unfold loadIndex
  rw [if_pos hel, if_pos hm]

/-- A register written by an element keeps everything else that a load keeps. -/
theorem loadFrame_elem {s t u : State} {F : MemWord} {val sval : Nat → Option Nat} {b ew i c : Nat} (hh : Holds s F val sval u)
    (hp : NoPort u [b + i / perReg (vmN u) ew]) (ht : LoadFrame F.cls.toNat s t) (hu : LoadFrame F.cls.toNat t u) :
    LoadFrame F.cls.toNat s (setElemV b ew i c u) :=
  (ht.trans hu).trans (loadFrame_setElemV (setElemV_frame hh.whole hp))

/-- What one more step of registers alone leaves. -/
theorem loaded_put {s t : State} {F : MemWord} {bs sb : Nat → List Byte} {i b ew n c : Nat} {val sval : Nat → Option Nat}
    (hf : LoadFrame F.cls.toNat s t) (hm : t.thr.m = s.thr.m) (hfl : t.thr.sr.fpflags = s.thr.sr.fpflags) (hmf : t.thr.sr.mflags = s.thr.sr.mflags)
    (hd : t.thr.hid.damaged = []) (hp : NoPort t [b + n / perReg (vmN t) ew]) (hh : Holds s F val sval (setElemV b ew n c t))
    (hv : ∀ j, val j = codesBelow s F bs i j) (hs : ∀ q, F.blk ≠ 0 → sval q = scalesBelow s F sb i q) :
    Loaded s F bs sb i (setElemV b ew n c t) := by
  have hframe : setElemV b ew n c t = { t with thr.v := (setElemV b ew n c t).thr.v, thr.hid.units := (setElemV b ew n c t).thr.hid.units } :=
    setElemV_frame hd hp
  refine ⟨hf.trans (loadFrame_setElemV (setElemV_frame hd hp)), ?_, ?_, ?_, holds_congr hh (fun j _ => hv j) (fun q hb _ => hs q hb)⟩ <;> rw [hframe]
  exacts [hm, hfl, hmf]

theorem elem_noPort {s t : State} {F : MemWord} {val sval : Nat → Option Nat} {i : Nat} (hr : HoldsReady s F) (hi : i < groupLen s (ewN s) (grpN s))
    (h : Holds s F val sval t) : NoPort t [F.d.toNat + i / perReg (vmN t) (ewN s)] :=
  noPort_same (noPort_group hr.dst (by rw [h.vmax]; exact div_lt_group hi)) (by rw [h.slot])

theorem countLoad_same (cls : Nat) (locs : List Loc) (s : State) : (countLoad cls locs s).thr = { s.thr with pnd.l1dMin := (countLoad cls locs s).thr.pnd.l1dMin } ∧
    (countLoad cls locs s).slot = s.slot ∧ (countLoad cls locs s).cur = s.cur := by
  unfold countLoad
  dsimp only
  split <;> split <;> exact ⟨rfl, rfl, rfl⟩

theorem holds_count {s t : State} {F : MemWord} {val sval : Nat → Option Nat} (cls : Nat) (locs : List Loc) (h : Holds s F val sval t) :
    Holds s F val sval (countLoad cls locs t) := by
  obtain ⟨hthr, hslot, hcur⟩ := countLoad_same cls locs t
  exact holds_same h (by rw [hthr]) (by unfold vmN; rw [hthr]) (by rw [hthr]) hslot hcur

/-- An index below vl of a load whose accesses pass. -/
theorem loaded_step {s t : State} {F : MemWord} {bs sb : Nat → List Byte} {locs sl : Nat → List Loc} {whole : Bool} {i : Nat} (hr : LoadReady s F)
    (hlo : vsN s ≤ i) (hhi : i < vlN s) (hpass : accesses s F i = true → Passes s F bs sb locs sl i) (ht : Loaded s F bs sb i t) :
    ∃ u, loadIndex s F whole i t = .ok u ∧ Loaded s F bs sb (i + 1) u := by
  have hin : i < groupLen s (ewN s) (grpN s) := lt_of_lt_of_le hhi hr.ready.fits
  by_cases ha : accesses s F i = true
  · obtain ⟨hown, hscale⟩ := hpass ha
    obtain ⟨c, hc⟩ : ∃ c : State, c = countLoad F.cls.toNat (locs i) t := ⟨_, rfl⟩
    obtain ⟨hcthr, -, -⟩ := countLoad_same F.cls.toNat (locs i) t
    rw [← hc] at hcthr
    have hch : Holds s F (codesBelow s F bs i) (scalesBelow s F sb i) c := hc ▸ holds_count _ _ ht.holds
    have hcf : LoadFrame F.cls.toNat s c := hc ▸ ht.frame.trans (loadFrame_count _ _ t)
    have hbits : loadBitsEl F.cls.toNat (F.bitAt i) (ewN s) (setElemV F.d.toNat (ewN s) i) t = .ok (setElemV F.d.toNat (ewN s) i (loadedCode s F bs i) c) := by
      rw [loadBitsEl_got ht.frame hr.sync, hown, hc]
      rfl
    have hel := holds_elem (loadedCode s F bs i) hr.holds hin hch
    have hput : (∀ q, F.blk ≠ 0 → scalesBelow s F sb i q = scalesBelow s F sb (i + 1) q) →
        Loaded s F bs sb (i + 1) (setElemV F.d.toNat (ewN s) i (loadedCode s F bs i) c) := fun hs =>
      loaded_put hcf (by rw [hcthr]; exact ht.moments) (by rw [hcthr]; exact ht.flags) (by rw [hcthr]; exact ht.mflags) hch.whole
        (elem_noPort hr.holds hin hch) hel (codesBelow_accessed ha) hs
    rw [loadIndex_accessed ha]
    by_cases hb : F.blk = 0
    · rw [if_pos hb, hbits]
      exact ⟨_, rfl, hput (fun _ h => absurd hb h)⟩
    · rw [if_neg hb]
      by_cases hf : blockFirst s F.k.toNat F.blk i = i
      · have hchecks : firstTrap (checkBits s false (F.bitAt i) (ewN s)) (checkAccess s false 1 (F.scaleAt (i / F.blk)) 1) = none := by
          rw [checkAccess_of_loadBytes (hscale hb)]
          have h := ownGot_check s F i
          rw [hown] at h
          cases hcb : checkBits s false (F.bitAt i) (ewN s) with
          | trap c v h' => rw [hcb] at h; cases h
          | ok l => rfl
        rw [loadBlockEl_first hr hb ht.frame hf, hchecks, hbits]
        obtain ⟨w, hw⟩ : ∃ w : State, w = setElemV F.d.toNat (ewN s) i (loadedCode s F bs i) c := ⟨_, rfl⟩
        have hwf : LoadFrame F.cls.toNat s w := hw ▸ hcf.trans (loadFrame_setElemV (setElemV_frame hch.whole (elem_noPort hr.holds hin hch)))
        have hwthr : w.thr = { c.thr with v := w.thr.v, hid.units := w.thr.hid.units } := by
          have hframe := setElemV_frame (val := loadedCode s F bs i) hch.whole (elem_noPort hr.holds hin hch)
          rw [← hw] at hframe
          exact congrArg State.thr hframe
        obtain ⟨x, hx⟩ : ∃ x : State, x = countLoad F.cls.toNat (sl (i / F.blk)) w := ⟨_, rfl⟩
        obtain ⟨hxthr, -, -⟩ := countLoad_same F.cls.toNat (sl (i / F.blk)) w
        rw [← hx] at hxthr
        have hxh : Holds s F (fun j => if j = i then some (loadedCode s F bs i) else codesBelow s F bs i j) (scalesBelow s F sb i) x := by
          rw [hx, hw]
          exact holds_count _ _ hel
        have hq : i / F.blk < perReg (vmN s) 8 := by
          rw [Nat.div_lt_iff_lt_mul (Nat.pos_of_ne_zero hb), Nat.mul_comm]
          exact lt_of_lt_of_le hhi (hr.ready.blocks hb)
        refine ⟨setElemV (F.d.toNat + grpN s) 8 (i / F.blk) (leNat (sb (i / F.blk))) x, ?_, ?_⟩
        · show loadEl _ _ _ _ _ (setElemV F.d.toNat (ewN s) i (loadedCode s F bs i) c) = _
          rw [← hw, loadEl_got, loadBytes_frame hwf hr.sync, hscale hb, hx]
          rfl
        · refine loaded_put (hx ▸ hwf.trans (loadFrame_count _ _ w)) ?_ ?_ ?_ hxh.whole ?_ (holds_scale _ hr.holds hb hq hxh) (codesBelow_accessed ha)
            (fun q _ => scalesBelow_first ha q)
          · rw [hxthr, hwthr, hcthr]
            exact ht.moments
          · rw [hxthr, hwthr, hcthr]
            exact ht.flags
          · rw [hxthr, hwthr, hcthr]
            exact ht.mflags
          · rw [hxh.vmax, Nat.div_eq_of_lt hq]
            exact noPort_same (hr.companion hb) (by rw [hxh.slot])
      · rw [loadBlockEl_later hf, hbits]
        exact ⟨_, rfl, hput (fun q _ => scalesBelow_later hr.shape hb ha hf q)⟩
  · have hidle : ∀ q, scalesBelow s F sb i q = scalesBelow s F sb (i + 1) q := scalesBelow_idle ha
    unfold loadIndex
    by_cases hel : F.isElem i = true
    · have hmask : ¬ maskBit s F.k.toNat i = true := fun hm => ha (accesses_iff.mpr ⟨hlo, hhi, hel, hm⟩)
      rw [if_pos hel, if_neg hmask]
      exact ⟨t, rfl, ht.frame, ht.moments, ht.flags, ht.mflags,
        holds_congr ht.holds (fun j _ => codesBelow_masked ha hel j) (fun q _ _ => hidle q)⟩
    · rw [if_neg hel]
      refine ⟨_, rfl, loaded_put ht.frame ht.moments ht.flags ht.mflags ht.holds.whole (elem_noPort hr.holds hin ht.holds)
        (holds_elem 0 hr.holds hin ht.holds) (codesBelow_padding hlo (by simpa using hel)) (fun q _ => hidle q)⟩

/-- A trap of the first access's checks, unless it is a watchpoint and the second's trap too. -/
theorem firstTrap_first {c v h : Nat} {b : Chk} (hc : c ≠ 0x19 ∨ ∃ l, b = .ok l) : firstTrap (.trap c v h) b = some (c, v, h) := by
  unfold firstTrap
  split <;> simp_all

/-- Of two accesses whose checks are made first, the trap that ranks first is the one that the claims name (R317). -/
theorem firstOf_checks {a b : Chk} {ga gb : Got} (ha : ∀ c v h, a = .trap c v h → (c = 0x19 ∨ CheckCause c) ∧ ga = .trap c v none h)
    (hb : ∀ c v h, b = .trap c v h → (c = 0x19 ∨ CheckCause c) ∧ gb = .trap c v none h)
    (hga : ∀ l, a = .ok l → ∀ c v v2 h, ga = .trap c v v2 h → c = 0x30) (hgb : ∀ l, b = .ok l → ∀ c v v2 h, gb = .trap c v v2 h → c = 0x30)
    {x : Nat × Nat × Option Nat × Nat} (h : firstOf ga gb = some x) :
    (∃ c v h, firstTrap a b = some (c, v, h) ∧ x = (c, v, none, h)) ∨
    (firstTrap a b = none ∧ ((∃ c v v2 h, ga = .trap c v v2 h ∧ x = (c, v, v2, h)) ∨
      (∃ bs locs c v v2 h, ga = .ok bs locs ∧ gb = .trap c v v2 h ∧ x = (c, v, v2, h)))) := by
  cases a with
  | trap c v hit =>
    obtain ⟨hc, rfl⟩ := ha c v hit rfl
    have hrank : causeRank c = if c = 0x19 then 1 else 0 := by
      rcases hc with rfl | hc
      · rfl
      · rw [causeRank_check hc]
        rcases hc with rfl | rfl | rfl | rfl <;> rfl
    left
    cases b with
    | trap c' v' hit' =>
      obtain ⟨hc', rfl⟩ := hb c' v' hit' rfl
      have hrank' : causeRank c' = if c' = 0x19 then 1 else 0 := by
        rcases hc' with rfl | hc'
        · rfl
        · rw [causeRank_check hc']
          rcases hc' with rfl | rfl | rfl | rfl <;> rfl
      have hx : x = if causeRank c ≤ causeRank c' then (c, v, none, hit) else (c', v', none, hit') := (Option.some.inj h).symm
      by_cases h19 : c = 0x19
      · subst h19
        by_cases h19' : c' = 0x19
        · subst h19'
          exact ⟨0x19, v, hit, rfl, hx⟩
        · refine ⟨c', v', hit', ?_, ?_⟩
          · show some (if c' = 0x19 then _ else _) = _
            rw [if_neg h19']
          · rw [hx, hrank, hrank', if_pos rfl, if_neg h19', if_neg (by decide)]
      · refine ⟨c, v, hit, ?_, ?_⟩
        · exact firstTrap_first (.inl h19)
        · rw [hx, hrank, if_neg h19, if_pos (Nat.zero_le _)]
    | ok l =>
      refine ⟨c, v, hit, ?_, ?_⟩
      · exact firstTrap_first (.inr ⟨l, rfl⟩)
      · cases gb with
        | ok bs locs => exact (Option.some.inj h).symm
        | wait q => exact (Option.some.inj h).symm
        | trap c' v' v2' h' =>
          have hc' : c' = 0x30 := hgb l rfl _ _ _ _ rfl
          have hle : causeRank c ≤ causeRank c' := by
            rw [hrank, hc']
            show _ ≤ 2
            split <;> omega
          have hx := (Option.some.inj h).symm
          rw [if_pos hle] at hx
          exact hx
  | ok l =>
    cases b with
    | trap c' v' hit' =>
      obtain ⟨hc', rfl⟩ := hb c' v' hit' rfl
      left
      refine ⟨c', v', hit', rfl, ?_⟩
      cases ga with
      | ok bs locs => exact (Option.some.inj h).symm
      | wait q => cases h
      | trap c v v2 hit =>
        have hc : c = 0x30 := hga l rfl _ _ _ _ rfl
        have hlt : ¬ causeRank c ≤ causeRank c' := by
          rw [hc]
          rcases hc' with rfl | hc'
          · decide
          · rw [causeRank_check hc']
            decide
        have hx := (Option.some.inj h).symm
        rw [if_neg hlt] at hx
        exact hx
    | ok l' =>
      right
      refine ⟨rfl, ?_⟩
      cases ga with
      | ok bs locs =>
        cases gb with
        | ok bs' locs' => cases h
        | wait q => cases h
        | trap c' v' v2' h' => exact .inr ⟨bs, locs, c', v', v2', h', rfl, rfl, (Option.some.inj h).symm⟩
      | wait q => cases gb <;> cases h
      | trap c v v2 hit =>
        refine .inl ⟨c, v, v2, hit, rfl, ?_⟩
        cases gb with
        | ok bs' locs' => exact (Option.some.inj h).symm
        | wait q => exact (Option.some.inj h).symm
        | trap c' v' v2' h' =>
          have hc : c = 0x30 := hga l rfl _ _ _ _ rfl
          have hc' : c' = 0x30 := hgb l' rfl _ _ _ _ rfl
          have hx := (Option.some.inj h).symm
          rw [hc, hc', if_pos (le_refl _)] at hx
          rw [hx, hc]

theorem checkBits_cause {s : State} {store : Bool} {z : Int} {ew c v h : Nat} (hc : checkBits s store z ew = .trap c v h) : c = 0x19 ∨ CheckCause c := by
  unfold checkBits at hc
  dsimp only at hc
  split at hc
  · cases hc
    simp [CheckCause]
  · exact checkAccess_cause hc

theorem firstOf_wait {g : Got} {q : Option (Nat × Nat)} {c v h : Nat} {v2 : Option Nat} (hf : firstOf g (.wait q) = some (c, v, v2, h)) :
    g = .trap c v v2 h := by
  cases g with
  | ok bs locs => cases hf
  | wait q => cases hf
  | trap c' v' v2' h' => cases hf; rfl

/-- The access of index e that traps ends its element so (R104, R107, R317). -/
theorem loadIndex_trap {s t : State} {F : MemWord} {bs sb : Nat → List Byte} {whole : Bool} {e c v h : Nat} {v2 : Option Nat} (hr : LoadReady s F)
    (ha : accesses s F e = true) (ht : Loaded s F bs sb e t)
    (htrap : indexTrap s F (loadBytes s F.cls.toNat) e = some (c, v, v2, h)) : loadIndex s F whole e t = .trap c v v2 h := by
  have hown : ∀ {g : Got}, ownGot s F e = g → ∀ c v v2 h, g = .trap c v v2 h →
      loadBitsEl F.cls.toNat (F.bitAt e) (ewN s) (setElemV F.d.toNat (ewN s) e) t = .trap c v v2 h := fun hg c v v2 h heq => by
    rw [loadBitsEl_got ht.frame hr.sync, hg, heq]
    rfl
  have hpad : firstOf (ownGot s F e) (.wait none) = some (c, v, v2, h) →
      loadBitsEl F.cls.toNat (F.bitAt e) (ewN s) (setElemV F.d.toNat (ewN s) e) t = .trap c v v2 h := fun hf =>
    hown rfl c v v2 h (firstOf_wait hf)
  rw [loadIndex_accessed ha]
  unfold indexTrap at htrap
  by_cases hb : F.blk = 0
  · rw [if_pos hb]
    rw [if_neg (fun h => h.1 hb)] at htrap
    exact hpad htrap
  · rw [if_neg hb]
    by_cases hf : blockFirst s F.k.toNat F.blk e = e
    · rw [if_pos ⟨hb, hf⟩] at htrap
      have hfirst := firstOf_checks (a := checkBits s false (F.bitAt e) (ewN s)) (b := checkAccess s false 1 (F.scaleAt (e / F.blk)) 1)
        (ga := ownGot s F e) (gb := loadBytes s F.cls.toNat 1 (F.scaleAt (e / F.blk)) 1)
        (fun c v h hc => ⟨checkBits_cause hc, by rw [ownGot_check, hc]⟩) (fun c v h hc => ⟨checkAccess_cause hc, by rw [loadBytes_check, hc]⟩)
        (fun l hl c v v2 h hg => by
          rw [ownGot_check, hl] at hg
          exact loadChecked_trap hg)
        (fun l hl c v v2 h hg => by
          rw [loadBytes_check, hl] at hg
          exact loadChecked_trap hg) htrap
      rw [loadBlockEl_first hr hb ht.frame hf]
      rcases hfirst with ⟨c', v', h', hft, hx⟩ | ⟨hft, ⟨c', v', v2', h', hg, hx⟩ | ⟨bs', locs', c', v', v2', h', hga, hgb, hx⟩⟩
      · rw [hft]
        cases hx
        rfl
      · rw [hft, hown hg c' v' v2' h' rfl]
        cases hx
        rfl
      · have hin : e < groupLen s (ewN s) (grpN s) := lt_of_lt_of_le (accesses_iff.mp ha).2.1 hr.ready.fits
        have hcount := holds_count F.cls.toNat locs' ht.holds
        rw [hft, loadBitsEl_got ht.frame hr.sync, hga]
        show loadEl _ _ _ _ _ (setElemV _ _ _ _ (countLoad _ _ _)) = _
        rw [loadEl_got, loadBytes_frame ((ht.frame.trans (loadFrame_count _ _ t)).trans
          (loadFrame_setElemV (setElemV_frame hcount.whole (elem_noPort hr.holds hin hcount)))) hr.sync, hgb]
        cases hx
        rfl
    · rw [if_neg (fun h => hf h.2)] at htrap
      rw [loadBlockEl_later hf]
      exact hpad htrap

/-! ## The end of a load -/

/-- The answers to a thread's reads change the fabric's requests alone. -/
theorem allAnswered_eq (s : State) : allAnswered s = { s with dev.fab := (allAnswered s).dev.fab } := by
  unfold allAnswered ackReads
  split <;> rfl

theorem allAnswered_fab {s t : State} (hc : t.cur = s.cur) (hf : t.dev.fab = s.dev.fab) : (allAnswered t).dev.fab = (allAnswered s).dev.fab := by
  unfold allAnswered ackReads
  rw [hc, hf]
  split
  · exact hf
  · rw [← hf]

theorem allAnswered_of {s t : State} (hc : t.cur = s.cur) (hf : t.dev.fab = s.dev.fab) : allAnswered t = { t with dev.fab := (allAnswered s).dev.fab } := by
  rw [allAnswered_eq, allAnswered_fab hc hf]

/-- The stream registers and VSTART as a completed memory word leaves them. -/
def memEnd (s : State) (F : MemWord) (t : State) : State := { t with thr.s := streamsAfter s F, thr.sr.vstart := 0 }

theorem endSweep_all {s t : State} {F : MemWord} (hd : t.thr.hid.damaged = []) (hs : t.thr.s = s.thr.s) (hvv : vvN t = vvN s) :
    endSweep s F (.all t) = .done (memEnd s F t) := by
  unfold endSweep memEnd streamsAfter
  cases F.stream with
  | none =>
    show Res.done _ = _
    rw [← hs]
  | some n =>
    show Res.done (stepStream n.toNat { t with thr.sr.vstart := 0 }) = _
    have hst : streamOf { t with thr.sr.vstart := 0 } n.toNat = streamOf s n.toNat := by
      unfold streamOf
      rw [← hs]
    have hv : vvN { t with thr.sr.vstart := 0 } = vvN s := hvv
    unfold stepStream
    dsimp only
    rw [hst, hv]
    rw [setStream_whole (s := { t with thr.sr.vstart := 0 }) (m := s.thr.s) hd hs]

theorem endSweep_stop {s t : State} {F : MemWord} {e c v h : Nat} {v2 : Option Nat} (hc : s.slot.chain = none) :
    endSweep s F (.stop e c v v2 h t) = .trap c (w64 v) (w64 (v2.getD (trapIndex s F e))) (setHits h { t with thr.sr.vstart := w64 e }) := by
  unfold endSweep trapIndex
  cases F.stream with
  | none => rfl
  | some n =>
    show Res.trap _ _ (w64 (v2.getD (if s.slot.chain.isSome || isTranslated s then _ else _))) _ = _
    rw [hc]
    rfl

/-- What a load keeps to its end. -/
theorem loaded_end {s t : State} {F : MemWord} {bs sb : Nat → List Byte} {i : Nat} (h : Loaded s F bs sb i t) : t = { s with
    thr.v := t.thr.v, thr.hid.units := t.thr.hid.units, thr.pnd.l1dMin := t.thr.pnd.l1dMin, dev.acnt := t.dev.acnt, dev.queues := t.dev.queues
    dev.ser := t.dev.ser } := by
  have heq := h.frame.eq
  rw [h.moments, h.flags, h.mflags] at heq
  exact heq

theorem codesBelow_code {s : State} {F : MemWord} {bs : Nat → List Byte} {i j : Nat} {x : Nat}
    (hx : x = match codesBelow s F bs i j with | some c => c % 2 ^ ewN s | none => elemV s F.d.toNat (ewN s) j) :
    x = if accesses s F j = true ∧ j < i then loadedCode s F bs j
      else if vsN s ≤ j ∧ j < i ∧ F.isElem j = false then 0 else elemV s F.d.toNat (ewN s) j := by
  rw [hx]
  unfold codesBelow
  by_cases h1 : accesses s F j = true ∧ j < i
  · simp only [if_pos h1]
    exact Nat.mod_eq_of_lt (bits_lt _ _ _)
  · by_cases h2 : vsN s ≤ j ∧ j < i ∧ F.isElem j = false
    · simp only [if_neg h1, if_pos h2, Nat.zero_mod]
    · simp only [if_neg h1, if_neg h2]

/-- The registers after the indices below i, as the claims about vector loads say them. -/
structure LoadedRegs (s : State) (F : MemWord) (bs sb : Nat → List Byte) (i : Nat) (t : State) : Prop where
  elems : ∀ j, j < groupLen s (ewN s) (grpN s) → elemV t F.d.toNat (ewN s) j =
    if accesses s F j = true ∧ j < i then loadedCode s F bs j
    else if vsN s ≤ j ∧ j < i ∧ F.isElem j = false then 0 else elemV s F.d.toNat (ewN s) j
  scaled : ∀ j, F.blk ≠ 0 → accesses s F j = true → j < i → elemV t (F.d.toNat + grpN s) 8 (j / F.blk) = leNat (sb (j / F.blk)) % 256
  kept : ∀ q, F.blk ≠ 0 → q < perReg (vmN s) 8 → (∀ j, accesses s F j = true → j < i → j / F.blk ≠ q) →
    elemV t (F.d.toNat + grpN s) 8 q = elemV s (F.d.toNat + grpN s) 8 q
  rest : ∀ r, r < F.d.toNat ∨ F.d.toNat + grpN s + (if F.blk = 0 then 0 else 1) ≤ r → rv t r = rv s r

theorem loadedRegs_of {s t u : State} {F : MemWord} {bs sb : Nat → List Byte} {i : Nat} (hr : MemReady s F) (h : Loaded s F bs sb i t)
    (hv : u.thr.v = t.thr.v) (hm : vmN u = vmN t) (hd : u.thr.hid.damaged = t.thr.hid.damaged) (hs : u.slot = t.slot) (hc : u.cur = t.cur) :
    LoadedRegs s F bs sb i u := by
  have hh := holds_same h.holds hv hm hd hs hc
  refine ⟨fun j hj => codesBelow_code (hh.elems j hj), fun j hb ha hj => ?_, fun q hb hq hno => ?_, hh.rest⟩
  · have hq : j / F.blk < perReg (vmN s) 8 := by
      rw [Nat.div_lt_iff_lt_mul (Nat.pos_of_ne_zero hb), Nat.mul_comm]
      exact lt_of_lt_of_le (accesses_iff.mp ha).2.1 (hr.blocks hb)
    refine (hh.scales _ hb hq).trans ?_
    unfold scalesBelow
    rw [if_pos ⟨j, hj, ha, rfl⟩]
  · refine (hh.scales q hb hq).trans ?_
    unfold scalesBelow
    rw [if_neg (fun hex => by obtain ⟨j, hj, ha, he⟩ := hex; exact hno j ha hj he)]

theorem loaded_course {s t : State} {F : MemWord} {bs sb : Nat → List Byte} {i : Nat} (h : Loaded s F bs sb i t) : SameCourse s t := by
  rw [loaded_end h]
  exact ⟨rfl, rfl, rfl, rfl, rfl⟩

/-- The claims' hypotheses on an index's accesses. -/
theorem passes_of {s : State} {F : MemWord} {bs sb : Nat → List Byte} {locs sl : Nat → List Loc} {j : Nat}
    (h : (8 ≤ ewN s → (bitSpan (F.bitAt j) (ewN s)).2.2 = 0) ∧
      loadBytes s F.cls.toNat (elemAlign s) (bitSpan (F.bitAt j) (ewN s)).1 (bitSpan (F.bitAt j) (ewN s)).2.1 = .ok (bs j) (locs j) ∧
      (F.blk ≠ 0 → loadBytes s F.cls.toNat 1 (F.scaleAt (j / F.blk)) 1 = .ok (sb (j / F.blk)) (sl (j / F.blk)))) :
    Passes s F bs sb locs sl j := by
  obtain ⟨halign, hload, hscale⟩ := h
  exact ⟨(if_neg (fun h => h.2 (halign h.1))).trans hload, hscale⟩

theorem loadReady_of {s : State} {i : Instr} {F : MemWord} (hF : vecLoad s i = some F) (hr : MemReady s F) (hw : loadWaits s F.cls.toNat = false)
    (hsync : F.cls = 15 → ∀ e ∈ s.slot.mxq, e.op ≠ .zld ∧ e.op ≠ .zst) (hclean : F.blk ≠ 0 → s.dev.poison = []) : LoadReady s F :=
  ⟨hr, vecLoad_shape hF, vecLoad_companion hF hr, hw, fun h => hsync (BitVec.eq_of_toNat_eq h), hclean⟩

/-- Settles O43: the word is a sweep over its indices, and the first access that traps ends it. -/
theorem vectorLoads : Obligations.VectorLoads := by
  refine ⟨fun s i F bs sb locs sl hF hr hw hsync hclean hpass => ?_, fun s i F e c v h v2 bs sb locs sl hF hr hw hsync hclean ha => ?_⟩ <;>
    obtain ⟨t, hexec, n, body, f, whole, hrun, hword, hq, h0, hready, hbody, hf⟩ := exec_vecLoad hF <;>
    have hlr := loadReady_of hF hr hw hsync hclean <;>
    have hwhole : ∀ i t, Loaded s F bs sb i t → t.thr.hid.damaged = [] := fun _ _ h => h.holds.whole
  · obtain ⟨u, hall, hu⟩ := sweep_all (f := f) (Loaded s F bs sb) hwhole (vlN s - vsN s) (vsN s) _ (loaded_start F bs sb hr.ok)
      (fun j t h1 h2 ht => by
        rw [hf hr j t ht.frame]
        exact loaded_step hlr h1 (by omega) (fun ha => passes_of (hpass j ha)) ht)
    have hend := loaded_end hu
    have hdone : body s = .done { memEnd s F u with dev.fab := (allAnswered s).dev.fab } := by
      rw [hbody hr, hall, endSweep_all hu.holds.whole (by rw [hend]) (by rw [hend]; rfl)]
      show Res.done (allAnswered (memEnd s F u)) = _
      rw [allAnswered_of (s := s) (by show u.cur = _; rw [hend]) (by show u.dev.fab = _; rw [hend])]
    have hcourse : SameCourse s { memEnd s F u with dev.fab := (allAnswered s).dev.fab } := (loaded_course hu).trans ⟨rfl, rfl, rfl, rfl, rfl⟩
    have hregs := loadedRegs_of (u := capture (encode i) { memEnd s F u with dev.fab := (allAnswered s).dev.fab }) hr hu rfl rfl rfl rfl rfl
    have hlast : ∀ j, accesses s F j = true → j < vsN s + (vlN s - vsN s) := fun j ha => by
      obtain ⟨h1, h2, -, -⟩ := accesses_iff.mp ha
      omega
    refine ⟨capture (encode i) { memEnd s F u with dev.fab := (allAnswered s).dev.fab }, ?_, ?_, fun j hj => ?_,
      fun j hb ha => hregs.scaled j hb ha (hlast j ha), fun q hb hq hno => hregs.kept q hb hq (fun j ha _ => hno j ha), hregs.rest⟩
    · rw [hexec, hrun, run_queued hr.ok.calm (hready hr) hq hdone hcourse, hword]
    · have hcap : captured (encode i) { memEnd s F u with dev.fab := (allAnswered s).dev.fab } = captured (encode i) s := by
        rw [hend]
        rfl
      have hrep : u.thr.pnd.replay = s.thr.pnd.replay := by rw [hend]
      have hcaptured : capture (encode i) { memEnd s F u with dev.fab := (allAnswered s).dev.fab } =
          { memEnd s F u with dev.fab := (allAnswered s).dev.fab, thr.pnd.replay := s.thr.pnd.replay ++ [captured (encode i) s] } := by
        unfold capture
        rw [hcap, ← hrep]
        rfl
      rw [hcaptured]
      exact (congrArg (fun q : State => ({ memEnd s F q with
        dev.fab := (allAnswered s).dev.fab, thr.pnd.replay := s.thr.pnd.replay ++ [captured (encode i) s] } : State)) hend).trans rfl
    · refine (hregs.elems j hj).trans ?_
      by_cases ha : accesses s F j = true
      · rw [if_pos ⟨ha, hlast j ha⟩, if_pos ha]
        rfl
      · rw [if_neg (fun h => ha h.1), if_neg ha]
        exact if_congr ⟨fun h => ⟨h.1, by omega, h.2.2⟩, fun h => ⟨h.1, by omega, h.2.2⟩⟩ rfl rfl
  · intro b hpass htrap
    obtain ⟨hlo, hhi, -, -⟩ := accesses_iff.mp ha
    obtain ⟨u, hstop, hu⟩ := sweep_stopped (f := f) (Loaded s F bs sb) hwhole (n := vlN s - vsN s) (e := e) (loaded_start F bs sb hr.ok) hlo (by omega)
      (fun j t h1 h2 ht => by
        rw [hf hr j t ht.frame]
        exact loaded_step hlr h1 (by omega) (fun ha => passes_of (hpass j h2 ha)) ht)
      (fun t ht => by
        rw [hf hr e t ht.frame]
        exact loadIndex_trap hlr ha ht htrap)
    have hend := loaded_end hu
    have hans : allAnswered (setHits h { u with thr.sr.vstart := w64 e }) =
        setHits h { u with thr.sr.vstart := w64 e, dev.fab := (allAnswered s).dev.fab } := by
      rw [allAnswered_of (s := s) (by show u.cur = _; rw [hend]) (by show u.dev.fab = _; rw [hend])]
      rfl
    have hbodyTrap : body s = .trap c (w64 v) (w64 (v2.getD (trapIndex s F e)))
        (setHits h { u with thr.sr.vstart := w64 e, dev.fab := (allAnswered s).dev.fab }) := by
      rw [hbody hr, hstop, endSweep_stop hr.ok.calm.chain]
      show Res.trap _ _ _ (allAnswered _) = _
      rw [hans]
    have hregs := loadedRegs_of (u := { u with thr.sr.vstart := w64 e, dev.fab := (allAnswered s).dev.fab }) hr hu rfl rfl rfl rfl rfl
    refine ⟨{ u with thr.sr.vstart := w64 e, dev.fab := (allAnswered s).dev.fab }, ?_, w64_toNat (lt_trans hhi s.thr.sr.vl.isLt), ?_, ?_,
      hregs.elems, hregs.scaled, hregs.kept, hregs.rest⟩
    · rw [hexec, hrun, run_trap hr.ok.calm (hready hr) hbodyTrap, trapWord_at (p := s.thr.pc) h0 (by exact (loaded_course hu).pc), hword]
    · show u.thr.s = _
      rw [hend]
    · show u.dev.mem = _
      rw [hend]

end Sys2Proof.Machine
end

section
/-! PROOFS. Vector stores (O44): each is a sweep that puts its memory word's stores behind the thread's earlier ones. -/

namespace Sys2Proof.Machine

/-! ## One element -/

/-- Index i of a vector store, by its memory word. -/
def storeIndex (s : State) (F : MemWord) (i : Nat) (t : State) : El :=
  if F.isElem i && maskBit s F.k.toNat i then
    if F.blk = 0 then storeBitsEl F.cls.toNat (F.bitAt i) (ewN s) (elemV s F.d.toNat (ewN s) i) t
    else storeBlockEl s F.d.toNat F.k.toNat F.blk F.cls.toNat i F.bitAt F.scaleAt t
  else .ok t

/-- The state of a store word of element width w before its first index, with l stores put. -/
def putStores (w : Nat) (s : State) (l : List PStore) : State :=
  { s with
    thr.pnd.stores := s.thr.pnd.stores ++ l, dev.acnt := (chargeWord w s).dev.acnt, dev.queues := (chargeWord w s).dev.queues
    dev.ser := s.dev.ser + 1 }

/-- A state is left by a vector store that its memory word describes: over every state that has put stores, its element function is the
word's. -/
def RunsStore (w : BitVec 32) (s : State) (F : MemWord) (t : State) : Prop :=
  ∃ (n : Need) (body : State → Res) (f : Nat → State → El), t = run n s body ∧ n.word = w ∧ n.queued = true ∧ n.vs0 = false ∧
    (MemReady s F → Ready n s) ∧
    (MemReady s F → ∃ b, (b = s ∨ b = newSer s) ∧ body s = storeEnd (endSweep b F (sweep f (vlN s - vsN s) (vsN s) (chargeWord (ewN s) (newSer s))))) ∧
    (MemReady s F → ∀ i l, f i (putStores (ewN s) s l) = storeIndex s F i (putStores (ewN s) s l))

/-- The charge of a word does not look at serial numbers. -/
theorem chargeWord_newSer (w : Nat) (s : State) : chargeWord w (newSer s) = putStores w s [] := by
  have h := chargeWord_eq w (newSer s)
  have hcount : (chargeWord w (newSer s)).dev.acnt = (chargeWord w s).dev.acnt ∧
      (chargeWord w (newSer s)).dev.queues = (chargeWord w s).dev.queues := by
    unfold chargeWord chargeBeats
    dsimp only
    have hn : grpN (newSer s) * ceilDiv ((vlN (newSer s) - vsN (newSer s)) * w) 64 = grpN s * ceilDiv ((vlN s - vsN s) * w) 64 := rfl
    rw [hn]
    split
    · exact ⟨rfl, rfl⟩
    · have hl : launchOf (newSer s) = launchOf s := rfl
      rw [hl]
      cases launchOf s <;> exact ⟨rfl, rfl⟩
  rw [hcount.1, hcount.2] at h
  refine h.trans ?_
  unfold putStores
  rw [List.append_nil]
  rfl

theorem mayStore_role {s : State} {b : Bool} (h : storeRole s = true) : mayStore s b = true := by
  unfold storeRole at h
  unfold mayStore
  rcases of_decide_eq_true h with h | h <;> simp [h]

theorem ready_store {s : State} {F : MemWord} {n : Need} (h : MemReady s F) (hrole : n.roleOk = true) (hfmt : n.fmtOk = true) (hown : n.regOk = true)
    (hx : n.xr ++ n.xw = F.xs.map BitVec.toNat)
    (hv : ∀ g ∈ n.vr ++ n.vw, g = (F.d.toNat, grpN s) ∨ g ∈ F.vr ∨ (g = (F.d.toNat + grpN s, 1) ∧ companionOk s F.d.toNat = true))
    (hm : n.mr ++ n.mw = []) : Ready n s := by
  refine ready_vector h.ok h.legal hrole hfmt hown (hx ▸ h.xs) (fun g hg => ?_) hm
  rcases hv g hg with rfl | hg | ⟨rfl, hc⟩
  · exact ⟨grpN_pos s, h.dst⟩
  · exact h.srcs g hg
  · refine ⟨Nat.one_pos, Nat.mod_one _, ?_⟩
    unfold companionOk companion at hc
    have hle := of_decide_eq_true hc
    show F.d.toNat + grpN s + 1 ≤ _
    split at hle
    next ht => rw [if_pos ht]; omega
    next ht => rw [if_neg ht]; omega

theorem elemOf_lt (r ew i : Nat) : elemOf r ew i < 2 ^ ew := bits_lt _ _ _

theorem elemV_lt (s : State) (b ew i : Nat) : elemV s b ew i < 2 ^ ew := by
  unfold elemV
  dsimp only
  split
  · exact Nat.two_pow_pos _
  · exact elemOf_lt _ _ _

/-- An element of whole bytes stored at a byte address (R103). -/
theorem storeBitsEl_bytes {cls ew v : Nat} {z : Int} (h8 : 8 ≤ ew) (hew : 8 * (ew / 8) = ew) (hv : v < 2 ^ ew) (t : State) :
    storeBitsEl cls (8 * z) ew v t = storeEl cls (ew / 8) (wrap z) (ew / 8) (2 ^ ew - 1) v t := by
  unfold storeBitsEl
  rw [bitSpan_bytes hew]
  simp only [bne_self_eq_false, Bool.and_false, Bool.false_eq_true, if_false, if_neg (Nat.not_lt.mpr h8), Nat.pow_zero, Nat.mul_one,
    Nat.mod_eq_of_lt hv]

/-- An index of a pattern that is no stream's (R98). -/
theorem storeClass_eq {s : State} {F : MemWord} {access : State → El} {i : Nat} {l : List PStore} (his : F.isElem i = decide (i < vvN s))
    (hacc : access (putStores (ewN s) s l) = if F.blk = 0 then storeBitsEl F.cls.toNat (F.bitAt i) (ewN s) (elemV s F.d.toNat (ewN s) i) (putStores (ewN s) s l)
      else storeBlockEl s F.d.toNat F.k.toNat F.blk F.cls.toNat i F.bitAt F.scaleAt (putStores (ewN s) s l)) :
    storeClass F.k.toNat i access (putStores (ewN s) s l) = storeIndex s F i (putStores (ewN s) s l) := by
  unfold storeClass storeIndex
  rw [his, hacc]
  rfl

theorem vst_runs (d a b : BitVec 5) (k : BitVec 3) (c : BitVec 4) (s : State) :
    ∃ t, exec (.vst d a b k c) s = .next t ∧ RunsStore (encode (.vst d a b k c)) s (unitWord s d a b k c (storeRole s)) t := by
  refine ⟨_, rfl, _, _, _, rfl, rfl, rfl, rfl, fun h => ready_store h (mayStore_role h.role) rfl rfl rfl (fun g hg => ?_) rfl,
    fun _ => ⟨_, .inr rfl, rfl⟩, fun h i l => storeClass_eq (F := unitWord s d a b k c (storeRole s)) rfl ?_⟩
  · exact .inl (List.mem_singleton.mp hg)
  · rw [unitBit_legal h.unit]
    exact (if_pos rfl).symm

theorem vsts_runs (d a b : BitVec 5) (k : BitVec 3) (c : BitVec 4) (s : State) :
    ∃ t, exec (.vsts d a b k c) s = .next t ∧ RunsStore (encode (.vsts d a b k c)) s (strideWord s d a b k c (storeRole s)) t := by
  refine ⟨_, rfl, _, _, _, rfl, rfl, rfl, rfl, fun h => ready_store h (mayStore_role h.role) h.fmt rfl rfl (fun g hg => ?_) rfl,
    fun _ => ⟨_, .inr rfl, rfl⟩, fun h i l => storeClass_eq (F := strideWord s d a b k c (storeRole s)) rfl ?_⟩
  · exact .inl (List.mem_singleton.mp hg)
  · have h8 : 8 ≤ ewN s := of_decide_eq_true h.fmt
    exact (storeBitsEl_bytes h8 (fmtEw_whole h8) (elemV_lt _ _ _ _) _).symm.trans (if_pos rfl).symm

theorem vstx_runs (d a b : BitVec 5) (k : BitVec 3) (c : BitVec 4) (s : State) :
    ∃ t, exec (.vstx d a b k c) s = .next t ∧ RunsStore (encode (.vstx d a b k c)) s (indexWord s d a b k c (storeRole s)) t := by
  refine ⟨_, rfl, _, _, _, rfl, rfl, rfl, rfl, fun h => ready_store h (mayStore_role h.role) h.fmt rfl rfl (fun g hg => ?_) rfl,
    fun _ => ⟨_, .inr rfl, rfl⟩, fun h i l => storeClass_eq (F := indexWord s d a b k c (storeRole s)) rfl ?_⟩
  · rcases List.mem_cons.mp hg with rfl | hg
    · exact .inl rfl
    · exact .inr (.inl hg)
  · have h8 : 8 ≤ ewN s := of_decide_eq_true h.fmt
    exact (storeBitsEl_bytes h8 (fmtEw_whole h8) (elemV_lt _ _ _ _) _).symm.trans (if_pos rfl).symm

theorem mem_companion {s : State} {d : Nat} {c : Bool} {g : Nat × Nat} (h : g ∈ (if c && companionOk s d then [(companion s d, 1)] else []) ++ []) :
    g = (d + grpN s, 1) ∧ companionOk s d = true := by
  rw [List.append_nil] at h
  split at h
  next hc =>
    rw [Bool.and_eq_true] at hc
    exact ⟨List.mem_singleton.mp h, hc.2⟩
  next => cases h

theorem vstmx_runs (d a b : BitVec 5) (k : BitVec 3) (c : BitVec 4) (s : State) :
    ∃ t, exec (.vstmx d a b k c) s = .next t ∧ RunsStore (encode (.vstmx d a b k c)) s (blockWord s d a b k c (storeRole s)) t := by
  refine ⟨_, rfl, _, _, _, rfl, rfl, rfl, rfl,
    fun h => ready_store h (mayStore_role h.role) (bne_iff_ne.mpr (of_decide_eq_true h.fmt)) h.own rfl (fun g hg => ?_) rfl,
    fun _ => ⟨_, .inr rfl, rfl⟩, fun h i l => storeClass_eq (F := blockWord s d a b k c (storeRole s)) rfl (if_neg (of_decide_eq_true h.fmt)).symm⟩
  rcases List.mem_cons.mp hg with rfl | hg
  · exact .inl rfl
  · exact .inr (.inr (mem_companion (c := true) hg))

theorem vsst_runs (d : BitVec 5) (n : BitVec 3) (k : BitVec 3) (c : BitVec 4) (s : State) :
    ∃ t, exec (.vsst d n k c) s = .next t ∧ RunsStore (encode (.vsst d n k c)) s (streamWord s d n k c (storeRole s) 1) t := by
  refine ⟨_, rfl, _, _, (fun i t =>
      if inStream s (streamOf s (streamNum n)) i && maskBit s k.toNat i then
        (if vtBlk s.thr.sr.vtype = 0 then
          storeBitsEl c.toNat (dBit (streamOf s (streamNum n)).desc.toNat ((streamOf s (streamNum n)).t + i)) (ewN s) (elemV s d.toNat (ewN s) i) t
         else storeBlockEl s d.toNat k.toNat (vtBlk s.thr.sr.vtype) c.toNat i
           (fun j => dBit (streamOf s (streamNum n)).desc.toNat ((streamOf s (streamNum n)).t + j))
           (fun j => dScale (streamOf s (streamNum n)).desc.toNat ((streamOf s (streamNum n)).t + j * vtBlk s.thr.sr.vtype)) t)
      else .ok t), rfl, rfl, rfl, rfl,
    fun h => ready_store h (mayStore_role h.role) h.fmt h.own rfl (fun g hg => ?_) rfl, fun h => ⟨s, .inl rfl, ?_⟩, fun h i l => rfl⟩
  · rcases List.mem_cons.mp hg with rfl | hg
    · exact .inl rfl
    · exact .inr (.inr (mem_companion hg))
  · show storeEnd (match bindOf s true (streamOf s (streamNum n)) with | some (bi, _) => _ | none => _) = _
    rw [bindOf_calm h.ok.calm]
    rfl

theorem exec_vecStore {s : State} {i : Instr} {F : MemWord} (h : vecStore s i = some F) : ∃ t, exec i s = .next t ∧ RunsStore (encode i) s F t := by
  unfold vecStore at h
  split at h
  case h_1 => cases h; exact vst_runs _ _ _ _ _ s
  case h_2 => cases h; exact vsts_runs _ _ _ _ _ s
  case h_3 => cases h; exact vstx_runs _ _ _ _ _ s
  case h_4 => cases h; exact vstmx_runs _ _ _ _ _ s
  case h_5 => cases h; exact vsst_runs _ _ _ _ s
  case h_6 => cases h

/-! ## Stores of one index -/

theorem vecStores_start (s : State) (F : MemWord) (locs sl : Nat → List Loc) : vecStores s F locs sl (vsN s) = [] := by
  unfold vecStores
  rw [Nat.sub_self]
  rfl

theorem vecStores_succ {s : State} {F : MemWord} {locs sl : Nat → List Loc} {i : Nat} (h : vsN s ≤ i) :
    vecStores s F locs sl (i + 1) = vecStores s F locs sl i ++ if accesses s F i = true then elemStores s F locs sl i else [] := by
  unfold vecStores
  rw [upFrom_step h, List.filter_append, List.flatMap_append]
  congr 1
  by_cases ha : accesses s F i = true
  · rw [if_pos ha, List.filter_cons_of_pos ha, List.filter_nil, List.flatMap_cons, List.flatMap_nil, List.append_nil]
  · rw [if_neg ha, List.filter_cons_of_neg ha, List.filter_nil, List.flatMap_nil]

theorem checkAccess_length {s : State} {store : Bool} {al va n : Nat} {locs : List Loc} (h : checkAccess s store al va n = .ok locs) : locs.length = n := by
  unfold checkAccess at h
  exact xlateRange_length (checkAs_ok h).2

/-- A store whose checks pass puts one store. -/
theorem storeEl_ok {s : State} {w cls al va n mask v : Nat} {l : List PStore} {locs : List Loc} (h : checkAccess s true al va n = .ok locs) :
    storeEl cls al va n mask v (putStores w s l) =
      .ok (putStores w s (l ++ [⟨s.dev.ser + 1, cls, 0, 0, 0, spanBytes locs mask v, s.thr.sr.taskid, va, none⟩])) := by
  have hc : checkAccess (putStores w s l) true al va n = .ok locs := h
  unfold storeEl
  rw [hc, ← checkAccess_length h]
  show El.ok (pushElem _ _ _ _ _) = _
  unfold pushElem putStores
  simp only [List.append_assoc]
  rfl


/-- An element of a vector store is stored when its checks pass, and ends by their trap. -/
theorem storeBitsEl_checks {s : State} {w cls ew v : Nat} {z : Int} {l : List PStore} :
    storeBitsEl cls z ew v (putStores w s l) = match checkBits s true z ew with
      | .trap c a h => .trap c a none h
      | .ok locs => .ok (putStores w s (l ++ [⟨s.dev.ser + 1, cls, 0, 0, 0, spanBytes locs ((2 ^ ew - 1) * 2 ^ (bitSpan z ew).2.2)
          (v % 2 ^ ew * 2 ^ (bitSpan z ew).2.2), s.thr.sr.taskid, (bitSpan z ew).1, none⟩])) := by
  unfold storeBitsEl checkBits
  dsimp only
  split
  · rfl
  · cases hc : checkAccess s true (if ew < 8 then 1 else ew / 8) (bitSpan z ew).1 (bitSpan z ew).2.1 with
    | ok locs => exact storeEl_ok hc
    | trap c a h =>
      have hc' : checkAccess (putStores w s l) true (if ew < 8 then 1 else ew / 8) (bitSpan z ew).1 (bitSpan z ew).2.1 = .trap c a h := hc
      unfold storeEl
      rw [hc']

/-- The checks of an index's accesses pass. -/
structure StorePasses (s : State) (F : MemWord) (locs sl : Nat → List Loc) (j : Nat) : Prop where
  own : checkBits s true (F.bitAt j) (ewN s) = .ok (locs j)
  scale : F.blk ≠ 0 → checkAccess s true 1 (F.scaleAt (j / F.blk)) 1 = .ok (sl (j / F.blk))

theorem storePasses_of {s : State} {F : MemWord} {locs sl : Nat → List Loc} {j : Nat}
    (h : (8 ≤ ewN s → (bitSpan (F.bitAt j) (ewN s)).2.2 = 0) ∧
      checkAccess s true (elemAlign s) (bitSpan (F.bitAt j) (ewN s)).1 (bitSpan (F.bitAt j) (ewN s)).2.1 = .ok (locs j) ∧
      (F.blk ≠ 0 → checkAccess s true 1 (F.scaleAt (j / F.blk)) 1 = .ok (sl (j / F.blk)))) : StorePasses s F locs sl j := by
  obtain ⟨halign, hown, hscale⟩ := h
  refine ⟨?_, hscale⟩
  unfold checkBits
  refine (if_neg fun h => ?_).trans hown
  rw [Bool.and_eq_true, decide_eq_true_eq, bne_iff_ne] at h
  exact h.2 (halign h.1)

/-- An accessed index of a vector store. -/
theorem storeIndex_accessed {s t : State} {F : MemWord} {i : Nat} (ha : accesses s F i = true) :
    storeIndex s F i t = if F.blk = 0 then storeBitsEl F.cls.toNat (F.bitAt i) (ewN s) (elemV s F.d.toNat (ewN s) i) t
      else storeBlockEl s F.d.toNat F.k.toNat F.blk F.cls.toNat i F.bitAt F.scaleAt t := by
  obtain ⟨-, -, hel, hm⟩ := accesses_iff.mp ha
  unfold storeIndex
  rw [hel, hm]
  rfl

theorem storeIndex_idle {s t : State} {F : MemWord} {i : Nat} (hlo : vsN s ≤ i) (hhi : i < vlN s) (ha : accesses s F i ≠ true) :
    storeIndex s F i t = .ok t := by
  unfold storeIndex
  refine if_neg fun h => ha ?_
  rw [Bool.and_eq_true] at h
  exact accesses_iff.mpr ⟨hlo, hhi, h.1, h.2⟩

/-- The first access of a block, by its checks (R107, R317). -/
theorem storeBlockEl_first {s t : State} {F : MemWord} {e : Nat} (hf : blockFirst s F.k.toNat F.blk e = e) :
    storeBlockEl s F.d.toNat F.k.toNat F.blk F.cls.toNat e F.bitAt F.scaleAt t =
      match firstTrap (checkBits t true (F.bitAt e) (ewN s)) (checkAccess t true 1 (F.scaleAt (e / F.blk)) 1) with
      | some (c, v, h) => .trap c v none h
      | none => match storeBitsEl F.cls.toNat (F.bitAt e) (ewN s) (elemV s F.d.toNat (ewN s) e) t with
        | .ok u => storeEl F.cls.toNat 1 (F.scaleAt (e / F.blk)) 1 0xFF (elemV s (F.d.toNat + grpN s) 8 (e / F.blk)) u
        | x => x := by
  unfold storeBlockEl
  simp only [hf, if_true]
  rfl

/-- A later access of a block stores its element alone. -/
theorem storeBlockEl_later {s t : State} {F : MemWord} {e : Nat} (hf : blockFirst s F.k.toNat F.blk e ≠ e) :
    storeBlockEl s F.d.toNat F.k.toNat F.blk F.cls.toNat e F.bitAt F.scaleAt t =
      storeBitsEl F.cls.toNat (F.bitAt e) (ewN s) (elemV s F.d.toNat (ewN s) e) t := by
  unfold storeBlockEl
  simp only [hf, if_false]
  split <;> simp_all

theorem firstTrap_none (l m : List Loc) : firstTrap (.ok l) (.ok m) = none := rfl

/-- An index whose checks pass puts its stores behind those of the indices below. -/
theorem storeIndex_step {s : State} {F : MemWord} {locs sl : Nat → List Loc} {i : Nat} (hlo : vsN s ≤ i) (hhi : i < vlN s)
    (hp : accesses s F i = true → StorePasses s F locs sl i) :
    storeIndex s F i (putStores (ewN s) s (vecStores s F locs sl i)) = .ok (putStores (ewN s) s (vecStores s F locs sl (i + 1))) := by
  rw [vecStores_succ hlo]
  by_cases ha : accesses s F i = true
  · obtain ⟨hown, hscale⟩ := hp ha
    rw [if_pos ha, storeIndex_accessed ha]
    have hel := storeBitsEl_checks (s := s) (w := ewN s) (cls := F.cls.toNat) (ew := ewN s) (v := elemV s F.d.toNat (ewN s) i) (z := F.bitAt i)
      (l := vecStores s F locs sl i)
    rw [hown] at hel
    unfold elemStores
    dsimp only
    by_cases hb : F.blk = 0
    · rw [if_pos hb, if_neg (fun h => h.1 hb), hel]
    · rw [if_neg hb]
      by_cases hf : blockFirst s F.k.toNat F.blk i = i
      · have hc : checkBits (putStores (ewN s) s (vecStores s F locs sl i)) true (F.bitAt i) (ewN s) = .ok (locs i) := hown
        have hs : checkAccess (putStores (ewN s) s (vecStores s F locs sl i)) true 1 (F.scaleAt (i / F.blk)) 1 = .ok (sl (i / F.blk)) := hscale hb
        rw [storeBlockEl_first hf, hc, hs, firstTrap_none, hel, if_pos ⟨hb, hf⟩]
        refine (storeEl_ok (hscale hb)).trans ?_
        rw [List.append_assoc]
        rfl
      · rw [storeBlockEl_later hf, if_neg (fun h => hf h.2), hel]
  · rw [if_neg ha, storeIndex_idle hlo hhi ha, List.append_nil]

/-- What an index's own access comes to. -/
theorem asGot_checkBits (s : State) (F : MemWord) (e : Nat) : asGot (checkBits s true (F.bitAt e) (ewN s)) =
    if 8 ≤ ewN s ∧ (bitSpan (F.bitAt e) (ewN s)).2.2 ≠ 0 then .trap 0x0C (bitSpan (F.bitAt e) (ewN s)).1 none 0
    else asGot (checkAccess s true (elemAlign s) (bitSpan (F.bitAt e) (ewN s)).1 (bitSpan (F.bitAt e) (ewN s)).2.1) := by
  have hiff : (8 ≤ ewN s && (bitSpan (F.bitAt e) (ewN s)).2.2 != 0) = true ↔ 8 ≤ ewN s ∧ (bitSpan (F.bitAt e) (ewN s)).2.2 ≠ 0 := by
    rw [Bool.and_eq_true, decide_eq_true_eq, bne_iff_ne]
  unfold checkBits
  by_cases h : 8 ≤ ewN s ∧ (bitSpan (F.bitAt e) (ewN s)).2.2 ≠ 0
  · rw [if_pos h]
    dsimp only
    rw [if_pos (hiff.mpr h)]
    rfl
  · rw [if_neg h]
    dsimp only
    rw [if_neg (fun hc => h (hiff.mp hc))]
    rfl

theorem asGot_trap {a : Chk} {c v h : Nat} {v2 : Option Nat} (hg : asGot a = .trap c v v2 h) : a = .trap c v h ∧ v2 = none := by
  cases a with
  | ok l => cases hg
  | trap c' v' h' => cases hg; exact ⟨rfl, rfl⟩

theorem firstTrap_isSome {a b : Chk} {c v h : Nat} (hb : a = .trap c v h ∨ b = .trap c v h) : firstTrap a b ≠ none := by
  unfold firstTrap
  split <;> simp_all

/-- The index whose checks turn it away ends its element so (R104, R107, R317). -/
theorem storeIndex_trap {s : State} {F : MemWord} {l : List PStore} {e c v h : Nat} {v2 : Option Nat} (ha : accesses s F e = true)
    (htrap : indexTrap s F (fun al va n => asGot (checkAccess s true al va n)) e = some (c, v, v2, h)) :
    storeIndex s F e (putStores (ewN s) s l) = .trap c v none h ∧ v2 = none := by
  have hown : ∀ {c v h : Nat} {v2 : Option Nat}, asGot (checkBits s true (F.bitAt e) (ewN s)) = .trap c v v2 h →
      storeBitsEl F.cls.toNat (F.bitAt e) (ewN s) (elemV s F.d.toNat (ewN s) e) (putStores (ewN s) s l) = .trap c v none h ∧ v2 = none := fun hg => by
    obtain ⟨hc, rfl⟩ := asGot_trap hg
    rw [storeBitsEl_checks, hc]
    exact ⟨rfl, rfl⟩
  rw [storeIndex_accessed ha]
  unfold indexTrap at htrap
  dsimp only at htrap
  rw [← asGot_checkBits] at htrap
  by_cases hb : F.blk = 0
  · rw [if_pos hb]
    rw [if_neg (fun h => h.1 hb)] at htrap
    exact hown (firstOf_wait htrap)
  · rw [if_neg hb]
    by_cases hf : blockFirst s F.k.toNat F.blk e = e
    · rw [if_pos ⟨hb, hf⟩] at htrap
      have hok : ∀ {a : Chk} {l : List Loc}, a = .ok l → ∀ c v v2 h, asGot a = .trap c v v2 h → c = 0x30 := fun ha c v v2 h hg => by
        rw [(asGot_trap hg).1] at ha
        cases ha
      rcases firstOf_checks (a := checkBits s true (F.bitAt e) (ewN s)) (b := checkAccess s true 1 (F.scaleAt (e / F.blk)) 1)
        (fun c v h hc => ⟨checkBits_cause hc, by rw [hc]; rfl⟩) (fun c v h hc => ⟨checkAccess_cause hc, by rw [hc]; rfl⟩)
        (fun l hl => hok hl) (fun l hl => hok hl) htrap with ⟨c', v', h', hft, hx⟩ | ⟨hft, ⟨c', v', v2', h', hg, -⟩ | ⟨bs, ls, c', v', v2', h', hga, hgb, -⟩⟩
      · cases hx
        rw [storeBlockEl_first hf]
        have hft' : firstTrap (checkBits (putStores (ewN s) s l) true (F.bitAt e) (ewN s)) (checkAccess (putStores (ewN s) s l) true 1 (F.scaleAt (e / F.blk)) 1) =
            some (c, v, h) := hft
        rw [hft']
        exact ⟨rfl, rfl⟩
      · exact absurd hft (firstTrap_isSome (.inl (asGot_trap hg).1))
      · exact absurd hft (firstTrap_isSome (.inr (asGot_trap hgb).1))
    · rw [if_neg (fun h => hf h.2)] at htrap
      rw [storeBlockEl_later hf]
      exact hown (firstOf_wait htrap)

/-! ## The end of a store -/

/-- The notes on poisoned units that a store writes whole change nothing else. -/
theorem noteWhole_eq (s : State) : noteWhole s = { s with thr.pnd.whole := (noteWhole s).thr.pnd.whole } := by
  unfold noteWhole
  split <;> rfl

/-- The notes look at the marks, the stores on their way and the number of their word. -/
theorem noteWhole_congr {s t : State} (hp : t.dev.poison = s.dev.poison) (hst : t.thr.pnd.stores = s.thr.pnd.stores) (hser : t.dev.ser = s.dev.ser)
    (hw : t.thr.pnd.whole = s.thr.pnd.whole) : (noteWhole t).thr.pnd.whole = (noteWhole s).thr.pnd.whole := by
  unfold noteWhole
  rw [hp, hst, hser, hw]
  split
  · exact hw
  · rfl

/-- A completed store's word behind the others in the replay queue. -/
theorem capture_stored (word : BitVec 32) (w : Nat) (s : State) (F : MemWord) (l : List PStore) : capture word (noteWhole (memEnd s F (putStores w s l))) =
    { noteWhole { s with
        thr.s := streamsAfter s F, thr.sr.vstart := 0, thr.pnd.stores := s.thr.pnd.stores ++ l
        thr.pnd.replay := s.thr.pnd.replay ++ [captured word s], dev.ser := s.dev.ser + 1 } with
      dev.acnt := (chargeWord w s).dev.acnt, dev.queues := (chargeWord w s).dev.queues } := by
  rw [noteWhole_eq (memEnd s F (putStores w s l)), noteWhole_eq { s with
        thr.s := streamsAfter s F, thr.sr.vstart := 0, thr.pnd.stores := s.thr.pnd.stores ++ l
        thr.pnd.replay := s.thr.pnd.replay ++ [captured word s], dev.ser := s.dev.ser + 1 },
    noteWhole_congr (s := { s with
        thr.s := streamsAfter s F, thr.sr.vstart := 0, thr.pnd.stores := s.thr.pnd.stores ++ l
        thr.pnd.replay := s.thr.pnd.replay ++ [captured word s], dev.ser := s.dev.ser + 1 }) (t := memEnd s F (putStores w s l)) rfl rfl rfl rfl]
  rfl

theorem noteWhole_setHits (h : Nat) (s : State) : noteWhole (setHits h s) = setHits h (noteWhole s) := by
  rw [noteWhole_eq s, noteWhole_eq (setHits h s), noteWhole_congr (s := s) (t := setHits h s) rfl rfl rfl rfl]
  rfl

theorem endSweep_newSer (s : State) (F : MemWord) (t : State) (hd : t.thr.hid.damaged = []) (hs : t.thr.s = s.thr.s) (hvv : vvN t = vvN s) :
    endSweep (newSer s) F (.all t) = .done (memEnd s F t) := endSweep_all (s := newSer s) hd hs hvv

/-- Settles O44: the word is a sweep that puts the stores of its indices, and the first index turned away ends it. -/
theorem vectorStores : Obligations.VectorStores := by
  refine ⟨fun s i F locs sl hF hr hpass => ?_, fun s i F e c v h v2 locs sl hF hr ha => ?_⟩ <;>
    obtain ⟨t, hexec, n, body, f, hrun, hword, hq, h0, hready, hbody, hf⟩ := exec_vecStore hF <;>
    obtain ⟨b, hbs, hbody⟩ := hbody hr <;>
    have hstart : chargeWord (ewN s) (newSer s) = putStores (ewN s) s (vecStores s F locs sl (vsN s)) :=
      (chargeWord_newSer _ s).trans (congrArg _ (vecStores_start s F locs sl).symm)
  · intro u
    obtain ⟨x, hall, hx⟩ := sweep_all (f := f) (fun i t => t = putStores (ewN s) s (vecStores s F locs sl i))
      (fun i t ht => by rw [ht]; exact hr.ok.calm.whole) (vlN s - vsN s) (vsN s) _ hstart
      (fun j t h1 h2 ht => by
        rw [ht, hf hr]
        exact ⟨_, storeIndex_step h1 (by omega) (fun ha => storePasses_of (hpass j ha)), rfl⟩)
    have hlast : vecStores s F locs sl (vsN s + (vlN s - vsN s)) = vecStores s F locs sl (vlN s) := by
      rcases Nat.le_total (vsN s) (vlN s) with hle | hle
      · rw [Nat.add_sub_cancel' hle]
      · rw [Nat.sub_eq_zero_of_le hle, Nat.add_zero]
        unfold vecStores
        rw [Nat.sub_self, Nat.sub_eq_zero_of_le hle]
    have hdone : body s = .done (noteWhole (memEnd s F (putStores (ewN s) s (vecStores s F locs sl (vlN s))))) := by
      rw [hbody, hall, hx, hlast]
      rcases hbs with rfl | rfl
      · rw [endSweep_all (s := b) (t := putStores (ewN b) b (vecStores b F locs sl (vlN b))) hr.ok.calm.whole rfl rfl]
        rfl
      · rw [endSweep_newSer s F (putStores (ewN s) s (vecStores s F locs sl (vlN s))) hr.ok.calm.whole rfl rfl]
        rfl
    have hcourse : SameCourse s (noteWhole (memEnd s F (putStores (ewN s) s (vecStores s F locs sl (vlN s))))) := by
      rw [noteWhole_eq]
      exact ⟨rfl, rfl, rfl, rfl, rfl⟩
    rw [hexec, hrun, run_queued hr.ok.calm (hready hr) hq hdone hcourse, hword, capture_stored]
  · intro b' hpass htrap
    obtain ⟨hlo, hhi, -, -⟩ := accesses_iff.mp ha
    have hv2 : v2 = none := (storeIndex_trap (l := []) ha htrap).2
    obtain ⟨x, hstop, hx⟩ := sweep_stopped (f := f) (fun i t => t = putStores (ewN s) s (vecStores s F locs sl i))
      (fun i t ht => by rw [ht]; exact hr.ok.calm.whole) (n := vlN s - vsN s) (e := e) (c := c) (v := v) (h := h) (v2 := none) hstart hlo (by omega)
      (fun j t h1 h2 ht => by
        rw [ht, hf hr]
        exact ⟨_, storeIndex_step h1 (by omega) (fun ha => storePasses_of (hpass j h2 ha)), rfl⟩)
      (fun t ht => by
        rw [ht, hf hr]
        exact (storeIndex_trap ha htrap).1)
    subst hx
    have hbodyTrap : body s = .trap c (w64 v) (w64 (trapIndex s F e))
        (setHits h (noteWhole { putStores (ewN s) s (vecStores s F locs sl e) with thr.sr.vstart := w64 e })) := by
      rw [hbody, hstop, ← noteWhole_setHits]
      rcases hbs with rfl | rfl
      · rw [endSweep_stop hr.ok.calm.chain]
        rfl
      · rw [endSweep_stop (s := newSer s) hr.ok.calm.chain]
        rfl
    have hnote := noteWhole_eq { putStores (ewN s) s (vecStores s F locs sl e) with thr.sr.vstart := w64 e }
    refine ⟨noteWhole { putStores (ewN s) s (vecStores s F locs sl e) with thr.sr.vstart := w64 e }, ?_, ?_, ?_, ?_, ?_, fun r => ?_, fun r => ?_⟩
    · rw [hexec, hrun, run_trap hr.ok.calm (hready hr) hbodyTrap, trapWord_at (p := s.thr.pc) h0 (by rw [hnote]; rfl), hword]
    · rw [hnote]
      exact w64_toNat (lt_trans hhi s.thr.sr.vl.isLt)
    all_goals
      rw [hnote]
      rfl

end Sys2Proof.Machine
end

section
/-! PROOFS. Pairs in memory (O42): `mold` places what it reads over the flags raised so far, and `most` is a store word of 8-byte elements. -/

namespace Sys2Proof.Machine

/-! ## The words -/

theorem pairAddr_eq (s : State) (a : BitVec 5) (i : Nat) :
    pairAddr s a i = if (xr s a).toNat % 8 = 0 then some (((xr s a).toNat + 8 * i) % 2 ^ 64) else none := by
  unfold pairAddr wrap
  rfl

/-- Index i of `mold`. -/
def moldIndex (s : State) (d : BitVec 3) (a : BitVec 5) (c : BitVec 4) (k : BitVec 3) (i : Nat) (t : State) : El :=
  if i < vvN s then (if maskBit s k.toNat i then moldEl s c.toNat d a i t else .ok t) else .ok (setPairM d.toNat i (0, 0) t)

/-- Index i of `most`. -/
def mostIndex (s : State) (d : BitVec 3) (a : BitVec 5) (c : BitVec 4) (k : BitVec 3) (i : Nat) (t : State) : El :=
  storeClass k.toNat i (fun t => match pairAddr s a i with
    | none => .trap cAlign (xr s a).toNat none 0
    | some va => storeEl c.toNat 8 va 8 (2 ^ 64 - 1) ((pairAt s d i).1 + (pairAt s d i).2 * 2 ^ 32) t) t

/-- A state is left by a queued word that a body over a ready state carries out. -/
def RunsBody (w : BitVec 32) (s : State) (r : Res) (t : State) : Prop :=
  ∃ (n : Need) (body : State → Res), t = run n s body ∧ n.word = w ∧ n.queued = true ∧ n.vs0 = false ∧ Ready n s ∧ body s = r

theorem exec_mold {s : State} {d : BitVec 3} {a : BitVec 5} {c : BitVec 4} {k : BitVec 3} {h : BitVec 2} (hr : MomentReady s [d] [] [a]) :
    ∃ t, exec (.mold d a c k h) s = .next t ∧ RunsBody (encode (.mold d a c k h)) s (loadStrip 64 (moldIndex s d a c k) s) t :=
  ⟨_, rfl, _, _, rfl, rfl, rfl, rfl, ready_moment hr rfl rfl rfl rfl (fun _ hg => hg) (fun _ hg => hg), rfl⟩

theorem exec_most {s : State} {d : BitVec 3} {a : BitVec 5} {c : BitVec 4} {k : BitVec 3} {h : BitVec 2} (hr : MomentReady s [d] [] [a]) :
    ∃ t, exec (.most d a c k h) s = .next t ∧ RunsBody (encode (.most d a c k h)) s (storeStrip 64 (mostIndex s d a c k) s) t :=
  ⟨_, rfl, _, _, rfl, rfl, rfl, rfl, ready_moment hr rfl rfl rfl rfl (fun _ hg => hg) (fun _ hg => hg), rfl⟩

/-! ## A misaligned base -/

theorem chargeWord_whole {s : State} (h : VectorOk s) (w : Nat) : (chargeWord w s).thr.hid.damaged = [] := by
  rw [(chargeWord_frame w s).1]
  exact h.calm.whole

/-- An index below the first active one is left as it is. -/
theorem inactive_below {s : State} {k : BitVec 3} {e j : Nat} (hw : written s k e) (hno : ∀ j, j < e → ¬ written s k j) (hlo : vsN s ≤ j) (hj : j < e) :
    j < vvN s ∧ activeAt s k.toNat j ≠ true ∧ maskBit s k.toNat j ≠ true := by
  obtain ⟨hlo', hhi, hact⟩ := hw
  have hv : e < vvN s := by
    unfold activeAt at hact
    rw [Bool.and_eq_true] at hact
    exact of_decide_eq_true hact.1
  have hoff : activeAt s k.toNat j ≠ true := fun h => hno j hj ⟨hlo, lt_trans hj hhi, h⟩
  refine ⟨lt_trans hj hv, hoff, fun hm => hoff ?_⟩
  unfold activeAt
  rw [Bool.and_eq_true]
  exact ⟨decide_eq_true (lt_trans hj hv), hm⟩

theorem activeAt_iff {s : State} {km j : Nat} : activeAt s km j = true ↔ j < vvN s ∧ maskBit s km j = true := by
  unfold activeAt
  rw [Bool.and_eq_true, decide_eq_true_eq]

theorem moldIndex_misaligned {s t : State} {d : BitVec 3} {a : BitVec 5} {c : BitVec 4} {k : BitVec 3} {e : Nat} (hmis : (xr s a).toNat % 8 ≠ 0)
    (hact : activeAt s k.toNat e = true) : moldIndex s d a c k e t = .trap 0x0C (xr s a).toNat none 0 := by
  obtain ⟨hv, hm⟩ := activeAt_iff.mp hact
  unfold moldIndex moldEl
  rw [if_pos hv, if_pos hm, pairAddr_eq, if_neg hmis]

theorem mostIndex_misaligned {s t : State} {d : BitVec 3} {a : BitVec 5} {c : BitVec 4} {k : BitVec 3} {e : Nat} (hmis : (xr s a).toNat % 8 ≠ 0)
    (hact : activeAt t k.toNat e = true) : mostIndex s d a c k e t = .trap 0x0C (xr s a).toNat none 0 := by
  unfold mostIndex storeClass
  rw [if_pos hact, pairAddr_eq, if_neg hmis]

/-- A strip whose first active element traps with nothing done. -/
theorem sweep_untouched {f : Nat → State → El} {s t0 : State} {k : BitVec 3} {e c v : Nat} (hd : t0.thr.hid.damaged = []) (hw : written s k e)
    (hskip : ∀ j, vsN s ≤ j → j < e → f j t0 = .ok t0) (he : f e t0 = .trap c v none 0) :
    sweep f (vlN s - vsN s) (vsN s) t0 = .stop e c v none 0 t0 := by
  obtain ⟨hlo, hhi, -⟩ := hw
  obtain ⟨u, hstop, hu⟩ := sweep_stopped (f := f) (fun _ t => t = t0) (fun i t ht => by rw [ht]; exact hd) (n := vlN s - vsN s) (e := e) (c := c)
    (v := v) (h := 0) (v2 := none) rfl hlo (by omega) (fun j t h1 h2 ht => ⟨t0, by rw [ht]; exact hskip j h1 h2, rfl⟩) (fun t ht => by rw [ht]; exact he)
  rw [hstop, hu]

/-- A misaligned base in `mold`. -/
theorem mold_misaligned {s : State} {d : BitVec 3} {a : BitVec 5} {c : BitVec 4} {k : BitVec 3} {h : BitVec 2} {e : Nat}
    (hr : MomentReady s [d] [] [a]) (hmis : (xr s a).toNat % 8 ≠ 0) (hw : written s k e) (hno : ∀ j, j < e → ¬ written s k j) :
    ∃ t, exec (.mold d a c k h) s = .next (takeTrap (encode (.mold d a c k h)) 0x0C s.thr.pc (xr s a) (w64 e) t) ∧ vsN t = e ∧ ∀ r, rm t r = rm s r := by
  obtain ⟨t, hexec, n, body, hrun, hword, -, h0, hready, hbody⟩ := exec_mold (c := c) (k := k) (h := h) hr
  have hstop := sweep_untouched (f := moldIndex s d a c k) (chargeWord_whole hr.ok 64) hw
    (fun j h1 h2 => by
      obtain ⟨hv, -, hm⟩ := inactive_below hw hno h1 h2
      unfold moldIndex
      rw [if_pos hv, if_neg hm])
    (moldIndex_misaligned hmis hw.2.2)
  have hfr := loadFrame_charge 0 64 s
  have htrap : body s = .trap 0x0C (xr s a) (w64 e) (allAnswered { chargeWord 64 s with thr.sr.vstart := w64 e }) := by
    rw [hbody]
    unfold loadStrip stripWord
    rw [hstop]
    simp only [finishSweep, setHits_zero, loadEnd, Option.getD_none]
    congr 1
    exact w64_of_toNat _
  have hthr : (allAnswered { chargeWord 64 s with thr.sr.vstart := w64 e }).thr = { s.thr with sr.vstart := w64 e } := by
    rw [allAnswered_eq, ← (chargeWord_frame 64 s).1]
  refine ⟨allAnswered { chargeWord 64 s with thr.sr.vstart := w64 e }, ?_, ?_, fun r => ?_⟩
  · rw [hexec, hrun, run_trap hr.ok.calm hready htrap, trapWord_at h0 (by rw [hthr]), hword]
  · unfold vsN
    rw [hthr]
    exact w64_toNat (lt_trans hw.2.1 s.thr.sr.vl.isLt)
  · unfold rm
    rw [hthr]

/-- A misaligned base in `most`. -/
theorem most_misaligned {s : State} {d : BitVec 3} {a : BitVec 5} {c : BitVec 4} {k : BitVec 3} {h : BitVec 2} {e : Nat}
    (hr : MomentReady s [d] [] [a]) (hmis : (xr s a).toNat % 8 ≠ 0) (hw : written s k e) (hno : ∀ j, j < e → ¬ written s k j) :
    ∃ t, exec (.most d a c k h) s = .next (takeTrap (encode (.most d a c k h)) 0x0C s.thr.pc (xr s a) (w64 e) t) ∧ vsN t = e ∧
      t.thr.pnd.stores = s.thr.pnd.stores := by
  obtain ⟨t, hexec, n, body, hrun, hword, -, h0, hready, hbody⟩ := exec_most (c := c) (k := k) (h := h) hr
  have hstop := sweep_untouched (f := mostIndex s d a c k) (t0 := putStores 64 s []) hr.ok.calm.whole hw
    (fun j h1 h2 => by
      obtain ⟨-, hoff, -⟩ := inactive_below hw hno h1 h2
      exact if_neg hoff)
    (mostIndex_misaligned hmis hw.2.2)
  have htrap : body s = .trap 0x0C (xr s a) (w64 e) (noteWhole { putStores 64 s [] with thr.sr.vstart := w64 e }) := by
    rw [hbody]
    unfold storeStrip stripWord
    rw [chargeWord_newSer, show vlN (newSer s) = vlN s from rfl, show vsN (newSer s) = vsN s from rfl, hstop]
    simp only [finishSweep, setHits_zero, storeEnd, Option.getD_none]
    congr 1
    exact w64_of_toNat _
  have hnote := noteWhole_eq { putStores 64 s [] with thr.sr.vstart := w64 e }
  refine ⟨noteWhole { putStores 64 s [] with thr.sr.vstart := w64 e }, ?_, ?_, ?_⟩
  · rw [hexec, hrun, run_trap hr.ok.calm hready htrap, trapWord_at (p := s.thr.pc) h0 (by rw [hnote]; rfl), hword]
  · rw [hnote]
    exact w64_toNat (lt_trans hw.2.1 s.thr.sr.vl.isLt)
  · rw [hnote]
    exact List.append_nil _

/-! ## Stores of pairs -/

/-- The stores of the active pairs below e. -/
def pairStores (s : State) (d : BitVec 3) (a : BitVec 5) (c : BitVec 4) (k : BitVec 3) (locs : Nat → List Loc) (e : Nat) : List PStore :=
  ((upFrom (vsN s) (e - vsN s)).filter (activeAt s k.toNat)).map (fun j =>
    ⟨s.dev.ser + 1, c.toNat, 0, 0, 0, spanBytes (locs j) (2 ^ 64 - 1) ((pairAt s d j).1 + (pairAt s d j).2 * 2 ^ 32),
      s.thr.sr.taskid, ((xr s a).toNat + 8 * j) % 2 ^ 64, none⟩)

theorem pairStores_start (s : State) (d : BitVec 3) (a : BitVec 5) (c : BitVec 4) (k : BitVec 3) (locs : Nat → List Loc) :
    pairStores s d a c k locs (vsN s) = [] := by
  unfold pairStores
  rw [Nat.sub_self]
  rfl

theorem pairStores_succ {s : State} {d : BitVec 3} {a : BitVec 5} {c : BitVec 4} {k : BitVec 3} {locs : Nat → List Loc} {i : Nat} (h : vsN s ≤ i) :
    pairStores s d a c k locs (i + 1) = pairStores s d a c k locs i ++ if activeAt s k.toNat i then
      [⟨s.dev.ser + 1, c.toNat, 0, 0, 0, spanBytes (locs i) (2 ^ 64 - 1) ((pairAt s d i).1 + (pairAt s d i).2 * 2 ^ 32),
        s.thr.sr.taskid, ((xr s a).toNat + 8 * i) % 2 ^ 64, none⟩] else [] := by
  unfold pairStores
  rw [upFrom_step h, List.filter_append, List.map_append]
  congr 1
  by_cases ha : activeAt s k.toNat i = true
  · rw [if_pos ha, List.filter_cons_of_pos ha, List.filter_nil]
    rfl
  · rw [if_neg ha, List.filter_cons_of_neg ha, List.filter_nil]
    rfl

theorem mostIndex_step {s : State} {d : BitVec 3} {a : BitVec 5} {c : BitVec 4} {k : BitVec 3} {locs : Nat → List Loc} {i : Nat}
    (hal : (xr s a).toNat % 8 = 0) (hlo : vsN s ≤ i)
    (hp : activeAt s k.toNat i = true → checkAccess s true 8 (((xr s a).toNat + 8 * i) % 2 ^ 64) 8 = .ok (locs i)) :
    mostIndex s d a c k i (putStores 64 s (pairStores s d a c k locs i)) = .ok (putStores 64 s (pairStores s d a c k locs (i + 1))) := by
  rw [pairStores_succ hlo]
  unfold mostIndex storeClass
  by_cases ha : activeAt s k.toNat i = true
  · have ha' : activeAt (putStores 64 s (pairStores s d a c k locs i)) k.toNat i = true := ha
    rw [if_pos ha, if_pos ha', pairAddr_eq, if_pos hal]
    exact storeEl_ok (hp ha)
  · have ha' : ¬ activeAt (putStores 64 s (pairStores s d a c k locs i)) k.toNat i = true := ha
    rw [if_neg ha, if_neg ha', List.append_nil]

/-- `most` whose checks pass. -/
theorem most_stores {s : State} {d : BitVec 3} {a : BitVec 5} {c : BitVec 4} {k : BitVec 3} {h : BitVec 2} {locs : Nat → List Loc}
    (hr : MomentReady s [d] [] [a]) (hal : (xr s a).toNat % 8 = 0)
    (hp : ∀ j, written s k j → checkAccess s true 8 (((xr s a).toNat + 8 * j) % 2 ^ 64) 8 = .ok (locs j)) :
    exec (.most d a c k h) s = .next (retired (encode (.most d a c k h)) (s.thr.pc + 4) { noteWhole { s with
        thr.sr.vstart := 0, thr.pnd.stores := s.thr.pnd.stores ++ pairStores s d a c k locs (vsN s + (vlN s - vsN s))
        thr.pnd.replay := s.thr.pnd.replay ++ [captured (encode (.most d a c k h)) s], dev.ser := s.dev.ser + 1 } with
      dev.acnt := (chargeWord 64 s).dev.acnt, dev.queues := (chargeWord 64 s).dev.queues }) := by
  obtain ⟨t, hexec, n, body, hrun, hword, hq, h0, hready, hbody⟩ := exec_most (c := c) (k := k) (h := h) hr
  obtain ⟨x, hall, hx⟩ := sweep_all (f := mostIndex s d a c k) (fun i t => t = putStores 64 s (pairStores s d a c k locs i))
    (fun i t ht => by rw [ht]; exact hr.ok.calm.whole) (vlN s - vsN s) (vsN s) (putStores 64 s []) (by rw [pairStores_start])
    (fun j t h1 h2 ht => ⟨_, by rw [ht]; exact mostIndex_step hal h1 (fun ha => hp j ⟨h1, by omega, ha⟩), rfl⟩)
  subst hx
  obtain ⟨l, hl⟩ : ∃ l, l = pairStores s d a c k locs (vsN s + (vlN s - vsN s)) := ⟨_, rfl⟩
  rw [← hl] at hall ⊢
  have hdone : body s = .done (noteWhole { putStores 64 s l with thr.sr.vstart := 0 }) := by
    rw [hbody]
    unfold storeStrip stripWord
    rw [chargeWord_newSer, show vlN (newSer s) = vlN s from rfl, show vsN (newSer s) = vsN s from rfl, hall]
    rfl
  have hcourse : SameCourse s (noteWhole { putStores 64 s l with thr.sr.vstart := 0 }) := by
    rw [noteWhole_eq]
    exact ⟨rfl, rfl, rfl, rfl, rfl⟩
  rw [hexec, hrun, run_queued hr.ok.calm hready hq hdone hcourse, hword]
  congr 2
  rw [noteWhole_eq { putStores 64 s l with thr.sr.vstart := 0 }, noteWhole_eq { s with
        thr.sr.vstart := 0, thr.pnd.stores := s.thr.pnd.stores ++ l
        thr.pnd.replay := s.thr.pnd.replay ++ [captured (encode (.most d a c k h)) s], dev.ser := s.dev.ser + 1 },
    noteWhole_congr (s := { s with
        thr.sr.vstart := 0, thr.pnd.stores := s.thr.pnd.stores ++ l
        thr.pnd.replay := s.thr.pnd.replay ++ [captured (encode (.most d a c k h)) s], dev.ser := s.dev.ser + 1 })
      (t := { putStores 64 s l with thr.sr.vstart := 0 }) rfl rfl rfl rfl]
  rfl

/-! ## Pairs loaded -/

/-- What the indices below i place: the pair read, and the pair (0, 0) from VLVALID on. -/
def moldBelow (s : State) (k : BitVec 3) (val : Nat → MoOut) (i j : Nat) : Option (Nat × Nat) :=
  if written s k j ∧ j < i then some ((val j).mu, (val j).v) else if vvN s ≤ j ∧ vsN s ≤ j ∧ j < i then some (0, 0) else none

/-- The state of `mold` after its indices below i: pairs placed over a base that has counted the reads and raised the flags. -/
structure Molded (s : State) (d : BitVec 3) (c : BitVec 4) (k : BitVec 3) (val : Nat → MoOut) (i : Nat) (b t : State) : Prop where
  frame : LoadFrame c.toNat s b
  vectors : b.thr.v = s.thr.v
  moments : b.thr.m = s.thr.m
  flags : b.thr.sr.fpflags = s.thr.sr.fpflags ||| w64 (gathered s k i (fun j => (val j).fl) % 32)
  mflags : b.thr.sr.mflags = s.thr.sr.mflags ||| w64 (gathered s k i (fun j => (val j).mfl) % 8)
  pairs : PlacedPairs b d.toNat (grpN s) (moldBelow s k val i) t

theorem moldBelow_later {s : State} {k : BitVec 3} {val : Nat → MoOut} {i j : Nat} (hji : j ≠ i) :
    moldBelow s k val (i + 1) j = moldBelow s k val i j := by
  have h : j < i + 1 ↔ j < i := by omega
  unfold moldBelow
  simp only [h]

theorem molded_start {s : State} {d : BitVec 3} {c : BitVec 4} {k : BitVec 3} {val : Nat → MoOut} :
    Molded s d c k val (vsN s) (chargeWord 64 s) (chargeWord 64 s) := by
  have hthr : (chargeWord 64 s).thr = s.thr := (chargeWord_frame 64 s).1
  refine ⟨loadFrame_charge _ _ s, by rw [hthr], by rw [hthr], ?_, ?_, placedPairs_congr (fun j _ => ?_) (placedPairs_none _ _ _)⟩
  · rw [hthr, gathered_start]
    simp [w64]
  · rw [hthr, gathered_start]
    simp [w64]
  · unfold moldBelow
    rw [if_neg (fun h => absurd (lt_of_le_of_lt h.1.1 h.2) (lt_irrefl _)), if_neg (fun h => absurd (lt_of_le_of_lt h.2.1 h.2.2) (lt_irrefl _))]

theorem loadFrame_pairs {cls : Nat} {s t : State} (h : MFrame s t) : LoadFrame cls s t := by
  have ht : t = { s with thr.m := t.thr.m, thr.hid.units := t.thr.hid.units } := h
  refine ⟨ht.trans ?_, fun _ => ?_⟩ <;> rw [ht]
  exact ⟨rfl, rfl⟩

theorem molded_frame {s b t : State} {d : BitVec 3} {c : BitVec 4} {k : BitVec 3} {val : Nat → MoOut} {i : Nat} (h : Molded s d c k val i b t) :
    LoadFrame c.toNat s t := h.frame.trans (loadFrame_pairs h.pairs.frame)

theorem loadFrame_whole {cls : Nat} {s t : State} (h : LoadFrame cls s t) : t.thr.hid.damaged = s.thr.hid.damaged := by rw [h.eq]

theorem loadFrame_vmN {cls : Nat} {s t : State} (h : LoadFrame cls s t) : vmN t = vmN s := by
  unfold vmN
  rw [h.eq]

/-- A read's counts are the same over pairs placed. -/
theorem placedPairs_count {s t : State} {d g : Nat} {val : Nat → Option (Nat × Nat)} (cls : Nat) (locs : List Loc) (ht : PlacedPairs s d g val t) :
    PlacedPairs (countLoad cls locs s) d g val (countLoad cls locs t) := by
  obtain ⟨hs, -, -⟩ := countLoad_same cls locs s
  obtain ⟨hthr, -, -⟩ := countLoad_same cls locs t
  have hvs : vmN (countLoad cls locs s) = vmN s := by unfold vmN; rw [hs]
  have hvt : vmN (countLoad cls locs t) = vmN t := by unfold vmN; rw [hthr]
  have hms : ∀ r, rm (countLoad cls locs s) r = rm s r := fun r => by unfold rm; rw [hs]
  have hmt : ∀ r, rm (countLoad cls locs t) r = rm t r := fun r => by unfold rm; rw [hthr]
  have hps : ∀ j, pairM (countLoad cls locs s) d j = pairM s d j := fun j => by unfold pairM; simp only [hvs, hms]
  have hpt : ∀ j, pairM (countLoad cls locs t) d j = pairM t d j := fun j => by unfold pairM; simp only [hvt, hmt]
  refine ⟨?_, fun j hj => ?_, fun r hr => ?_⟩
  · have htf : t = { s with thr.m := t.thr.m, thr.hid.units := t.thr.hid.units } := ht.frame
    generalize t.thr.m = m at htf
    generalize t.thr.hid.units = u at htf
    rw [htf]
    unfold countLoad
    dsimp only
    by_cases h1 : (locs.filter (fun l => !isScratch l.key && l.kind != .mmio && !fromLine s (cls != 15) l)).isEmpty = true
    all_goals by_cases h2 : (cls = 15 && locs.any (fun l => !isScratch l.key)) = true
    all_goals
      have h1' : (locs.filter (fun l => !isScratch l.key && l.kind != .mmio &&
        !fromLine { s with thr.m := m, thr.hid.units := u } (cls != 15) l)).isEmpty = _ := (rfl : _ = (locs.filter (fun l => !isScratch l.key && l.kind != .mmio && !fromLine s (cls != 15) l)).isEmpty)
      simp only [h1, h1', h2]
      rfl
  · rw [hpt, ht.pairs j (hvs ▸ hj), hps]
  · rw [hmt, hms]
    exact ht.rest r hr

theorem placedPairs_base {s t : State} {d g : Nat} {val : Nat → Option (Nat × Nat)} {cls : Nat} {locs : List Loc} (fl mfl : Nat)
    (ht : PlacedPairs s d g val t) :
    PlacedPairs (mergeMflags mfl (mergeFlags fl (countLoad cls locs s))) d g val (mergeMflags mfl (mergeFlags fl (countLoad cls locs t))) :=
  placedPairs_merge fl mfl (placedPairs_count cls locs ht)

/-- A pair placed at the next index. -/
theorem molded_place {s b t : State} {d : BitVec 3} {k : BitVec 3} {val : Nat → MoOut} {i cls : Nat} {p : Nat × Nat} (hok : VectorOk s)
    (hfits : vlN s ≤ pairsLen s) (hhi : i < vlN s) (hb : LoadFrame cls s b) (hnew : moldBelow s k val (i + 1) i = some p)
    (h : PlacedPairs b d.toNat (grpN s) (moldBelow s k val i) t) :
    PlacedPairs b d.toNat (grpN s) (moldBelow s k val (i + 1)) (setPairM d.toNat i p t) := by
  have hvm := loadFrame_vmN hb
  have hin : i < vmN b / 32 * grpN s := by rw [hvm]; exact lt_of_lt_of_le hhi hfits
  refine placedPairs_congr (fun j _ => ?_) (placedPairs_set (i := i) (p := p) ((loadFrame_whole hb).trans hok.calm.whole) (hvm ▸ hok.vmax) hin h)
  by_cases hji : j = i
  · rw [if_pos hji, hji, hnew]
  · rw [if_neg hji, moldBelow_later hji]

/-- An active pair whose access and rule pass is counted, merges its flags and is placed. -/
theorem moldEl_ok {s t : State} {d : BitVec 3} {a : BitVec 5} {c : BitVec 4} {i : Nat} {bs : List Byte} {locs : List Loc} {r : MoOut}
    (ht : LoadFrame c.toNat s t) (hsync : SyncFree c.toNat s) (hal : (xr s a).toNat % 8 = 0)
    (hload : loadBytes s c.toNat 8 (((xr s a).toNat + 8 * i) % 2 ^ 64) 8 = .ok bs locs)
    (hr : r = intoPair (negFault s) (leNat bs % 2 ^ 32) (leNat bs / 2 ^ 32 % 2 ^ 32)) (hfl : enabledFlags s r.fl = 0) (hneg : r.neg = none) :
    moldEl s c.toNat d a i t = .ok (setPairM d.toNat i (r.mu, r.v) (mergeMflags r.mfl (mergeFlags r.fl (countLoad c.toNat locs t)))) := by
  have hbits : bits (leNat bs) 0 32 = leNat bs % 2 ^ 32 ∧ bits (leNat bs) 32 32 = leNat bs / 2 ^ 32 % 2 ^ 32 := by
    simp only [bits, Nat.shiftRight_eq_div_pow, Nat.pow_zero, Nat.div_one, and_self]
  have hen : enabledFlags (countLoad c.toNat locs t) r.fl = 0 := by
    unfold enabledFlags
    rw [(ht.trans (loadFrame_count c.toNat locs t)).eq]
    exact hfl
  unfold moldEl
  rw [pairAddr_eq, if_pos hal]
  dsimp only
  rw [loadBytes_frame ht hsync, hload]
  dsimp only
  rw [hbits.1, hbits.2, ← hr]
  exact moEl_free hen hneg

theorem loadFrame_merge {cls fl mfl : Nat} (s : State) : LoadFrame cls s (mergeMflags mfl (mergeFlags fl s)) := ⟨rfl, fun _ => ⟨rfl, rfl⟩⟩

theorem molded_step {s b t : State} {d : BitVec 3} {a : BitVec 5} {c : BitVec 4} {k : BitVec 3} {bs : Nat → List Byte} {locs : Nat → List Loc}
    {val : Nat → MoOut} {i : Nat} (hr : MomentReady s [d] [] [a]) (hsync : SyncFree c.toNat s) (hal : (xr s a).toNat % 8 = 0)
    (hval : ∀ j, val j = intoPair (negFault s) (leNat (bs j) % 2 ^ 32) (leNat (bs j) / 2 ^ 32 % 2 ^ 32))
    (hlo : vsN s ≤ i) (hhi : i < vlN s)
    (hpass : written s k i → loadBytes s c.toNat 8 (((xr s a).toNat + 8 * i) % 2 ^ 64) 8 = .ok (bs i) (locs i) ∧ enabledFlags s (val i).fl = 0 ∧
      (val i).neg = none) (h : Molded s d c k val i b t) :
    ∃ b' u, moldIndex s d a c k i t = .ok u ∧ Molded s d c k val (i + 1) b' u := by
  unfold moldIndex
  by_cases hact : activeAt s k.toNat i = true
  · obtain ⟨hv, hm⟩ := activeAt_iff.mp hact
    obtain ⟨hload, hfl, hneg⟩ := hpass ⟨hlo, hhi, hact⟩
    rw [if_pos hv, if_pos hm, moldEl_ok (molded_frame h) hsync hal hload (hval i) hfl hneg]
    have hframe : LoadFrame c.toNat s (mergeMflags (val i).mfl (mergeFlags (val i).fl (countLoad c.toNat (locs i) b))) :=
      (h.frame.trans (loadFrame_count _ _ _)).trans (loadFrame_merge _)
    obtain ⟨hthr, -, -⟩ := countLoad_same c.toNat (locs i) b
    refine ⟨_, _, rfl, hframe, ?_, ?_, ?_, ?_, molded_place hr.ok hr.fits hhi hframe ?_ (placedPairs_base _ _ h.pairs)⟩
    · show (countLoad c.toNat (locs i) b).thr.v = _
      rw [hthr]
      exact h.vectors
    · show (countLoad c.toNat (locs i) b).thr.m = _
      rw [hthr]
      exact h.moments
    · show (countLoad c.toNat (locs i) b).thr.sr.fpflags ||| w64 ((val i).fl % 32) = _
      rw [hthr, gathered_succ hlo, if_pos hact, w64_or, ← BitVec.or_assoc, ← h.flags]
    · show (countLoad c.toNat (locs i) b).thr.sr.mflags ||| w64 ((val i).mfl % 8) = _
      rw [hthr, gathered_succ hlo, if_pos hact, w64_or8, ← BitVec.or_assoc, ← h.mflags]
    · exact if_pos ⟨⟨hlo, hhi, hact⟩, Nat.lt_succ_self _⟩
  · have hflags : b.thr.sr.fpflags = s.thr.sr.fpflags ||| w64 (gathered s k (i + 1) (fun j => (val j).fl) % 32) ∧
        b.thr.sr.mflags = s.thr.sr.mflags ||| w64 (gathered s k (i + 1) (fun j => (val j).mfl) % 8) := by
      rw [gathered_succ hlo, gathered_succ hlo, if_neg hact, if_neg hact]
      exact ⟨h.flags, h.mflags⟩
    by_cases hv : i < vvN s
    · have hm : ¬ maskBit s k.toNat i = true := fun hm => hact (activeAt_iff.mpr ⟨hv, hm⟩)
      rw [if_pos hv, if_neg hm]
      refine ⟨b, t, rfl, h.frame, h.vectors, h.moments, hflags.1, hflags.2, placedPairs_congr (fun j _ => ?_) h.pairs⟩
      by_cases hji : j = i
      · subst hji
        unfold moldBelow
        rw [if_neg (fun hw => hact hw.1.2.2), if_neg (fun hw => absurd hv (Nat.not_lt.mpr hw.1)), if_neg (fun hw => hact hw.1.2.2),
          if_neg (fun hw => absurd hv (Nat.not_lt.mpr hw.1))]
      · exact (moldBelow_later hji).symm
    · rw [if_neg hv]
      refine ⟨b, _, rfl, h.frame, h.vectors, h.moments, hflags.1, hflags.2, molded_place hr.ok hr.fits hhi h.frame ?_ h.pairs⟩
      unfold moldBelow
      rw [if_neg (fun hw => hact hw.1.2.2), if_pos ⟨Nat.not_lt.mp hv, hlo, Nat.lt_succ_self _⟩]

theorem molded_pairs {s b t : State} {d : BitVec 3} {c : BitVec 4} {k : BitVec 3} {val : Nat → MoOut} {i : Nat} (h : Molded s d c k val i b t) :
    (∀ j, j < pairsLen s → pairM t d.toNat j = if written s k j ∧ j < i then ((val j).mu % 2 ^ 32, (val j).v % 2 ^ 32)
      else if vvN s ≤ j ∧ vsN s ≤ j ∧ j < i then (0, 0) else pairM s d.toNat j) ∧
    ∀ r, r < d.toNat ∨ d.toNat + grpN s ≤ r → rm t r = rm s r := by
  have hvm := loadFrame_vmN h.frame
  have hm : ∀ r, rm b r = rm s r := fun r => by unfold rm; rw [h.moments]
  have hp : ∀ j, pairM b d.toNat j = pairM s d.toNat j := fun j => by unfold pairM; simp only [hvm, hm]
  refine ⟨fun j hj => ?_, fun r hr => (h.pairs.rest r hr).trans (hm r)⟩
  refine (h.pairs.pairs j (by rw [hvm]; exact hj)).trans ?_
  unfold moldBelow
  by_cases h1 : written s k j ∧ j < i
  · simp only [if_pos h1]
  · by_cases h2 : vvN s ≤ j ∧ vsN s ≤ j ∧ j < i
    · simp only [if_neg h1, if_pos h2, Nat.zero_mod]
    · simp only [if_neg h1, if_neg h2, hp]

/-- `mold` whose accesses and rules pass. -/
theorem mold_loads {s : State} {d : BitVec 3} {a : BitVec 5} {c : BitVec 4} {k : BitVec 3} {h : BitVec 2} {bs : Nat → List Byte}
    {locs : Nat → List Loc} {val : Nat → MoOut} (hr : MomentReady s [d] [] [a]) (hsync : SyncFree c.toNat s) (hal : (xr s a).toNat % 8 = 0)
    (hval : ∀ j, val j = intoPair (negFault s) (leNat (bs j) % 2 ^ 32) (leNat (bs j) / 2 ^ 32 % 2 ^ 32))
    (hpass : ∀ i, written s k i → loadBytes s c.toNat 8 (((xr s a).toNat + 8 * i) % 2 ^ 64) 8 = .ok (bs i) (locs i) ∧
      enabledFlags s (val i).fl = 0 ∧ (val i).neg = none) :
    ∃ b u, Molded s d c k val (vsN s + (vlN s - vsN s)) b u ∧ exec (.mold d a c k h) s = .next (retired (encode (.mold d a c k h)) (s.thr.pc + 4)
      (capture (encode (.mold d a c k h)) { u with thr.sr.vstart := 0, dev.fab := (allAnswered s).dev.fab })) := by
  obtain ⟨t, hexec, n, body, hrun, hword, hq, h0, hready, hbody⟩ := exec_mold (c := c) (k := k) (h := h) hr
  obtain ⟨u, hall, b, hu⟩ := sweep_all (f := moldIndex s d a c k) (fun i t => ∃ b, Molded s d c k val i b t)
    (fun i t ht => by
      obtain ⟨b, hb⟩ := ht
      exact (loadFrame_whole (molded_frame hb)).trans hr.ok.calm.whole) (vlN s - vsN s) (vsN s) _ ⟨_, molded_start⟩
    (fun j t h1 h2 ht => by
      obtain ⟨b, hb⟩ := ht
      obtain ⟨b', u, hstep, hu⟩ := molded_step hr hsync hal hval h1 (by omega) (hpass j) hb
      exact ⟨u, hstep, b', hu⟩)
  have hend := (molded_frame hu).eq
  refine ⟨b, u, hu, ?_⟩
  have hdone : body s = .done { u with thr.sr.vstart := 0, dev.fab := (allAnswered s).dev.fab } := by
    rw [hbody]
    unfold loadStrip stripWord
    rw [hall]
    show Res.done (allAnswered { u with thr.sr.vstart := 0 }) = _
    rw [allAnswered_of (s := s) (by show u.cur = _; rw [hend]) (by show u.dev.fab = _; rw [hend])]
  have hcourse : SameCourse s { u with thr.sr.vstart := 0, dev.fab := (allAnswered s).dev.fab } := by
    rw [hend]
    exact ⟨rfl, rfl, rfl, rfl, rfl⟩
  rw [hexec, hrun, run_queued hr.ok.calm hready hq hdone hcourse, hword]

theorem molded_captured {s b u : State} {d : BitVec 3} {c : BitVec 4} {k : BitVec 3} {val : Nat → MoOut} {i : Nat} (w : BitVec 32)
    (h : Molded s d c k val i b u) : capture w { u with thr.sr.vstart := 0, dev.fab := (allAnswered s).dev.fab } = { s with
      thr.m := u.thr.m, thr.hid.units := u.thr.hid.units, thr.sr.vstart := 0, thr.pnd.l1dMin := u.thr.pnd.l1dMin
      thr.sr.fpflags := s.thr.sr.fpflags ||| w64 (gathered s k i (fun j => (val j).fl) % 32)
      thr.sr.mflags := s.thr.sr.mflags ||| w64 (gathered s k i (fun j => (val j).mfl) % 8)
      thr.pnd.replay := s.thr.pnd.replay ++ [captured w s], dev.acnt := u.dev.acnt, dev.queues := u.dev.queues, dev.ser := u.dev.ser
      dev.fab := (allAnswered s).dev.fab } := by
  have hu : u = { b with thr.m := u.thr.m, thr.hid.units := u.thr.hid.units } := h.pairs.frame
  have hv : u.thr.v = s.thr.v := by rw [hu]; exact h.vectors
  have hf := h.flags
  have hmf := h.mflags
  have hend := (molded_frame h).eq
  have hfl : u.thr.sr.fpflags = b.thr.sr.fpflags := by rw [hu]
  have hmfl : u.thr.sr.mflags = b.thr.sr.mflags := by rw [hu]
  rw [hv, hfl, hmfl, hf, hmf] at hend
  generalize u.thr.m = m, u.thr.hid.units = un, u.thr.pnd.l1dMin = l, u.dev.acnt = ac, u.dev.queues = qu, u.dev.ser = se at hend ⊢
  rw [hend]
  rfl

/-- Settles O42: a misaligned base traps at the first active index, `mold` places what it reads, and `most` puts its stores. -/
theorem pairMemory : Obligations.PairMemory := by
  intro s d a c k h hr i o va
  refine ⟨fun e hmis hw hno _ => ⟨mold_misaligned hr hmis hw hno, most_misaligned hr hmis hw hno⟩, ?_, ?_⟩
  · intro bs locs hal _ hsync val hpass
    obtain ⟨b, u, hu, hexec⟩ := mold_loads (h := h) (val := val) hr (fun h => hsync (BitVec.eq_of_toNat_eq h)) hal (fun _ => rfl) hpass
    have hgath : ∀ f, gathered s k (vsN s + (vlN s - vsN s)) f = gathered s k (vlN s) f := fun f => by
      unfold gathered
      rw [Nat.add_sub_cancel_left]
    have hcap := molded_captured (encode i) hu
    rw [hgath, hgath] at hcap
    obtain ⟨hpairs, hrest⟩ := molded_pairs hu
    refine ⟨_, hexec, hcap, fun j hj => (hpairs j hj).trans ?_, hrest⟩
    have hlast : ∀ {j}, vsN s ≤ j → j < vlN s → j < vsN s + (vlN s - vsN s) := fun h1 h2 => by omega
    by_cases hw : written s k j
    · rw [if_pos ⟨hw, hlast hw.1 hw.2.1⟩, if_pos hw]
    · rw [if_neg (fun h => hw h.1), if_neg hw]
      exact if_congr ⟨fun h => ⟨h.1, h.2.1, by omega⟩, fun h => ⟨h.1, h.2.1, by omega⟩⟩ rfl rfl
  · intro locs hal hp
    have hstores := most_stores (c := c) (h := h) hr hal hp
    unfold pairStores at hstores
    rw [Nat.add_sub_cancel_left] at hstores
    exact hstores

end Sys2Proof.Machine
end

section
/-! PROOFS. Scatter-adds (O38): the elements that pass their checks, and the sums added address by address at their homes. -/

namespace Sys2Proof.Machine

/-! ## Writes where no frame is retired and no watch is set -/

/-- Only bytes, poison marks, accounting and cached lines differ. -/
def QuietDev (d e : Device) : Prop := e = { d with mem := e.mem, poison := e.poison, acnt := e.acnt, l1d := e.l1d }

theorem QuietDev.trans {d e f : Device} (h : QuietDev d e) (k : QuietDev e f) : QuietDev d f := by
  have h' : e = { d with mem := e.mem, poison := e.poison, acnt := e.acnt, l1d := e.l1d } := h
  have k' : f = { e with mem := f.mem, poison := f.poison, acnt := f.acnt, l1d := f.l1d } := k
  exact k'.trans ((congrArg (fun q : Device => ({ q with mem := f.mem, poison := f.poison, acnt := f.acnt, l1d := f.l1d } : Device)) h').trans rfl)

theorem quietDev_writeByte (k : Nat) (b : Byte) {d : Device} (h : d.retire = []) : QuietDev d (writeByte d k b) :=
  (congrArg (fun r => ({ writeByte d k b with retire := r } : Device)) ((writeByte_retire_none h k b).trans h.symm)).trans rfl

theorem quietDev_applyBytes (bs : List (Nat × Byte × Byte)) {d : Device} (h : d.retire = []) : QuietDev d (applyBytes d bs) := by
  unfold applyBytes
  induction bs generalizing d with
  | nil => rfl
  | cons p r ih =>
    exact QuietDev.trans (quietDev_writeByte _ _ h) (ih (writeByte_retire_none h _ _))

theorem quietDev_clearPoison (d : Device) (l : List Nat) : QuietDev d (clearPoison d l) := by
  unfold clearPoison
  split
  · rfl
  · next hp =>
    clear hp
    generalize hk : (fun (d : Device) (k : Nat) => if k % poisonSize k = 0 ∧ (upFrom k (poisonSize k)).all (fun j => l.contains j) then
      { d with poison := SMap.set false d.poison (poisonUnit d k) false } else d) = f
    have hf : ∀ d k, QuietDev d (f d k) := fun d k => by
      rw [← hk]
      dsimp only
      split <;> rfl
    clear hk
    induction l generalizing d with
    | nil => rfl
    | cons k r ih => exact (hf d k).trans (ih _)

/-- A write at the homes, where no frame is retired and no watch is set, is its bytes, the marks it clears and its accounting. -/
theorem quietDev_performBytes (wr : Writer) (acct op : Nat) (bs : List (Nat × Byte × Byte)) {d : Device} (hr : d.retire = []) (hw : d.mwatch = []) :
    QuietDev d (performBytes wr acct op bs d) := by
  have hhome : ∀ e : Device, e.retire = [] → e.mwatch = [] → QuietDev e (performHome wr op bs e) := fun e her hew => by
    have hc := clearPoison_mem e ((bs.filter (fun p => p.2.1 = 0xFF)).map (·.1))
    have hq := quietDev_applyBytes bs (hc.2.1.trans her)
    have hm : (applyBytes (clearPoison e ((bs.filter (fun p => p.2.1 = 0xFF)).map (·.1))) bs).mwatch = [] := by
      rw [hq]
      exact hc.2.2.1.trans hew
    rw [performHome_quiet hm]
    exact (quietDev_clearPoison _ _).trans hq
  have hcount : ∀ (c : Prop) [Decidable c] (k n : Nat) (e : Device), QuietDev e (if c then e else addAcnt acct k n e) := fun c _ k n e => by
    split <;> rfl
  have h1 := hcount ((bs.filter (fun p => !isScratch p.1)).isEmpty = true) 3 (bs.filter (fun p => !isScratch p.1)).length d
  have h2 := hcount (((bs.filter (fun p => !isScratch p.1)).filter (fun p => paDev p.1 ≠
    (if (bs.filter (fun p => !isScratch p.1)).isEmpty = true then d else addAcnt acct 3 (bs.filter (fun p => !isScratch p.1)).length d).boot.devnum)).isEmpty = true)
    4 ((bs.filter (fun p => !isScratch p.1)).filter (fun p => paDev p.1 ≠
    (if (bs.filter (fun p => !isScratch p.1)).isEmpty = true then d else addAcnt acct 3 (bs.filter (fun p => !isScratch p.1)).length d).boot.devnum)).length
    (if (bs.filter (fun p => !isScratch p.1)).isEmpty = true then d else addAcnt acct 3 (bs.filter (fun p => !isScratch p.1)).length d)
  have h12 := h1.trans h2
  refine h12.trans (hhome _ ?_ ?_)
  · rw [h12]
    exact hr
  · rw [h12]
    exact hw

theorem quietDev_lines (core : Nat) (bs : List (Nat × Byte × Byte)) (d : Device) : QuietDev d (updateLines core bs d) := by
  unfold QuietDev
  rw [updateLines_eq]

/-- An update at places of this device changes bytes, poison marks, accounting and cached lines alone. -/
theorem quietDev_atomicAt {locs : List Loc} {op : Nat} {f : Nat → Option Nat} {s : State} (hr : ∀ l ∈ locs, l.kind ≠ .remote)
    (hret : s.dev.retire = []) (hw : s.dev.mwatch = []) : QuietDev s.dev (atomicAt locs op f s).2.dev := by
  obtain ⟨s1, hs1, hq1⟩ : ∃ s1, s1 = (if (locs.filter (fun l => !isScratch l.key)).isEmpty then s
      else { s with dev := addAcnt s.slot.acct 2 (locs.filter (fun l => !isScratch l.key)).length s.dev }) ∧ QuietDev s.dev s1.dev := by
    refine ⟨_, rfl, ?_⟩
    split <;> rfl
  have h1r : s1.dev.retire = [] := by rw [hq1]; exact hret
  have h1w : s1.dev.mwatch = [] := by rw [hq1]; exact hw
  unfold atomicAt
  dsimp only
  rw [answered_local hr, ← hs1]
  split
  · exact hq1
  · exact (hq1.trans (quietDev_performBytes _ _ _ _ h1r h1w)).trans (quietDev_lines _ _ _)

/-! ## Sums added at their addresses -/

/-- What a location list holds. -/
def heldAt (d : Device) (locs : List Loc) : Nat := leNat (locs.map (fun l => readByte d l.key))

/-- The sum of the elements of an address, in ascending order. -/
def sumAt (fmt : Nat) (l : List Scat) (va : Nat) : Nat :=
  match l.filter (fun x => x.va = va) with
  | [] => 0
  | x :: r => r.foldl (fun acc y => scatAdd fmt acc y.code) x.code

/-- Elements that address this device, each place once, and no place by two addresses. -/
structure Scattered (l : List Scat) : Prop where
  near : ∀ x ∈ l, ∀ p ∈ x.locs, p.kind ≠ .remote
  once : ∀ x ∈ l, (x.locs.map (·.key)).Nodup
  same : ∀ x ∈ l, ∀ y ∈ l, x.va = y.va → x.locs = y.locs
  apart : ∀ x ∈ l, ∀ y ∈ l, x.va ≠ y.va → ∀ p ∈ x.locs, ∀ q ∈ y.locs, p.key ≠ q.key

theorem Scattered.sub {l m : List Scat} (h : Scattered l) (hm : ∀ x ∈ m, x ∈ l) : Scattered m :=
  ⟨fun x hx => h.near x (hm x hx), fun x hx => h.once x (hm x hx), fun x hx y hy => h.same x (hm x hx) y (hm y hy),
    fun x hx y hy => h.apart x (hm x hx) y (hm y hy)⟩

theorem heldAt_congr {d e : Device} {locs : List Loc} (h : ∀ l ∈ locs, readByte e l.key = readByte d l.key) : heldAt e locs = heldAt d locs := by
  unfold heldAt
  rw [List.map_congr_left h]

/-- The bytes of a number written at a list of places, read back. -/
theorem map_readByte_written {d : Device} {locs : List Loc} {v : Nat}
    (h : ∀ j l, locs[j]? = some l → readByte d l.key = BitVec.ofNat 8 (v / 256 ^ j)) :
    locs.map (fun l => readByte d l.key) = leBytes locs.length v := by
  refine List.ext_getElem? fun j => ?_
  rw [List.getElem?_map]
  cases hl : locs[j]? with
  | none =>
    have hj : locs.length ≤ j := List.getElem?_eq_none_iff.mp hl
    exact (List.getElem?_eq_none (by rw [length_leBytes]; exact hj)).symm
  | some l =>
    have hj : j < locs.length := (List.getElem?_eq_some_iff.mp hl).1
    rw [getElem?_leBytes hj, Option.map_some, h j l hl]

theorem heldAt_written {d : Device} {locs : List Loc} {v : Nat}
    (h : ∀ j l, locs[j]? = some l → readByte d l.key = BitVec.ofNat 8 (v / 256 ^ j)) : heldAt d locs = v % 2 ^ (8 * locs.length) := by
  unfold heldAt
  rw [map_readByte_written h, leNat_leBytes]

/-- What a scatter-add of elements that all address this device leaves. -/
structure ScatterDone (fmt : Nat) (l : List Scat) (s t : State) : Prop where
  state : t = { s with dev := t.dev }
  quiet : QuietDev s.dev t.dev
  sums : ∀ x ∈ l, heldAt t.dev x.locs = scatAdd fmt (heldAt s.dev x.locs) (sumAt fmt l x.va) % 2 ^ (8 * x.locs.length)
  rest : ∀ key, (∀ x ∈ l, ∀ p ∈ x.locs, p.key ≠ key) → readByte t.dev key = readByte s.dev key

theorem near_far {l : List Scat} (h : Scattered l) : ∀ x ∈ l, x.far = false := fun x hx => by
  unfold Scat.far
  rw [List.any_eq_false]
  intro p hp
  simpa using h.near x hx p hp

theorem sumAt_head (fmt : Nat) (x : Scat) (r : List Scat) :
    sumAt fmt (x :: r) x.va = (r.filter (fun y => y.va = x.va)).foldl (fun acc y => scatAdd fmt acc y.code) x.code := by
  unfold sumAt
  rw [List.filter_cons_of_pos (by simp)]

theorem sumAt_rest (fmt : Nat) (x : Scat) (r : List Scat) {va : Nat} (h : va ≠ x.va) :
    sumAt fmt (r.filter (fun y => y.va ≠ x.va)) va = sumAt fmt (x :: r) va := by
  unfold sumAt
  rw [List.filter_cons_of_neg (by simpa using Ne.symm h), List.filter_filter]
  congr 1
  refine List.filter_congr fun y _ => ?_
  by_cases hy : y.va = va
  · simp [hy, h]
  · simp [hy]

/-- Each distinct address receives the sum of its elements (R112, R261). -/
theorem scatApply_done {fmt cls n : Nat} {l : List Scat} {s : State} (hn : l.length ≤ n) (h : Scattered l) (hr : s.dev.retire = [])
    (hw : s.dev.mwatch = []) : ScatterDone fmt l s (scatApply fmt cls n l s) := by
  induction n generalizing l s with
  | zero =>
    rw [List.length_eq_zero_iff.mp (Nat.le_zero.mp hn)]
    exact ⟨rfl, rfl, nofun, fun _ _ => rfl⟩
  | succ n ih =>
    cases l with
    | nil => exact ⟨rfl, rfl, nofun, fun _ _ => rfl⟩
    | cons x r =>
      have hx : x ∈ x :: r := List.mem_cons_self
      have hrest : ∀ y ∈ r.filter (fun y => y.va ≠ x.va), y ∈ x :: r ∧ y.va ≠ x.va := fun y hy => by
        obtain ⟨h1, h2⟩ := List.mem_filter.mp hy
        exact ⟨List.mem_cons_of_mem _ h1, of_decide_eq_true h2⟩
      obtain ⟨u, hu⟩ : ∃ u, u = (atomicAt x.locs 2 (fun old => some (scatAdd fmt old (sumAt fmt (x :: r) x.va))) s).2 := ⟨_, rfl⟩
      have hstep : scatApply fmt cls (n + 1) (x :: r) s = scatApply fmt cls n (r.filter (fun y => y.va ≠ x.va)) u := by
        rw [hu, sumAt_head, scatApply, near_far h x hx]
        rfl
      obtain ⟨-, hframe, -, -, hbytes⟩ := atomicAt_near (s := s) (f := fun old => some (scatAdd fmt old (sumAt fmt (x :: r) x.va))) 2 (h.near x hx)
      rw [← hu] at hframe hbytes
      obtain ⟨hput, hkeep⟩ := hbytes _ rfl hr hw (h.once x hx)
      have hq : QuietDev s.dev u.dev := by rw [hu]; exact quietDev_atomicAt (h.near x hx) hr hw
      have hi := ih (l := r.filter (fun y => y.va ≠ x.va)) (s := u)
        (by have := List.length_filter_le (fun y : Scat => y.va ≠ x.va) r; simp only [List.length_cons] at hn; omega)
        (h.sub fun y hy => (hrest y hy).1) (by rw [hq]; exact hr) (by rw [hq]; exact hw)
      rw [hstep]
      refine ⟨?_, hq.trans hi.quiet, fun y hy => ?_, fun key hkey => ?_⟩
      · have ht := hi.state
        generalize scatApply fmt cls n (r.filter (fun y => y.va ≠ x.va)) u = t at ht
        exact ht.trans ((congrArg (fun q : State => ({ q with dev := t.dev } : State)) hframe).trans rfl)
      · by_cases hva : y.va = x.va
        · have hlocs : y.locs = x.locs := h.same y hy x hx hva
          have hheld : heldAt (scatApply fmt cls n (r.filter (fun y => y.va ≠ x.va)) u).dev x.locs = heldAt u.dev x.locs :=
            heldAt_congr fun p hp => hi.rest p.key fun z hz q hq' => h.apart z (hrest z hz).1 x hx (hrest z hz).2 q hq' p hp
          rw [hlocs, hva, hheld]
          exact heldAt_written hput
        · have hy' : y ∈ r.filter (fun y => y.va ≠ x.va) := by
            rcases List.mem_cons.mp hy with rfl | hy
            · exact absurd rfl hva
            · exact List.mem_filter.mpr ⟨hy, decide_eq_true hva⟩
          have hheld : heldAt u.dev y.locs = heldAt s.dev y.locs := heldAt_congr fun p hp => hkeep p.key fun hmem => by
            obtain ⟨q, hq', hqk⟩ := List.mem_map.mp hmem
            exact h.apart y hy x hx hva p hp q hq' hqk.symm
          rw [hi.sums y hy', hheld, sumAt_rest fmt x r hva]
      · rw [hi.rest key (fun y hy => hkey y (hrest y hy).1)]
        refine hkeep key fun hmem => ?_
        obtain ⟨q, hq', hqk⟩ := List.mem_map.mp hmem
        exact hkey x hx q hq' hqk

/-! ## The elements that pass their checks -/

/-- Element j of a scatter-add, at its places. -/
def scatOf (s : State) (d a b : BitVec 5) (locs : Nat → List Loc) (j : Nat) : Scat := ⟨indexAddr s a b (ewN s) j, locs j, elemV s d.toNat (ewN s) j⟩

/-- The scan goes through the elements whose checks pass. -/
theorem scatScan_pass {s : State} {d a b : BitVec 5} {km : Nat} {locs : Nat → List Loc} (q m i : Nat)
    (h : ∀ j, i ≤ j → j < i + q → activeAt s km j = true → checkAccess s true (ewN s / 8) (indexAddr s a b (ewN s) j) (ewN s / 8) = .ok (locs j)) :
    scatScan s d a b km (ewN s) (q + m) i =
      (((upFrom i q).filter (activeAt s km)).map (scatOf s d a b locs) ++ (scatScan s d a b km (ewN s) m (i + q)).1,
        (scatScan s d a b km (ewN s) m (i + q)).2) := by
  induction q generalizing i with
  | zero => rw [Nat.zero_add]; rfl
  | succ q ih =>
    have hrec := ih (i + 1) (fun j h1 h2 => h j (by omega) (by omega))
    rw [show i + 1 + q = i + (q + 1) by omega] at hrec
    rw [show q + 1 + m = (q + m) + 1 by omega, upFrom]
    rw [scatScan]
    by_cases ha : activeAt s km i = true
    · rw [if_pos ha, h i (le_refl _) (by omega) ha, List.filter_cons_of_pos ha, hrec]
      rfl
    · rw [if_neg ha, List.filter_cons_of_neg ha, hrec]

theorem scatScan_end (s : State) (d a b : BitVec 5) (km ew i : Nat) : scatScan s d a b km ew 0 i = ([], none) := rfl

theorem scatScan_trap {s : State} {d a b : BitVec 5} {km m i c v h : Nat} (ha : activeAt s km i = true)
    (hc : checkAccess s true (ewN s / 8) (indexAddr s a b (ewN s) i) (ewN s / 8) = .trap c v h) :
    scatScan s d a b km (ewN s) (m + 1) i = ([], some (i, c, v, h)) := by
  rw [scatScan, if_pos ha, hc]

/-- The elements below index e. -/
def scatBelow (s : State) (d a b : BitVec 5) (k : BitVec 3) (locs : Nat → List Loc) (e : Nat) : List Scat :=
  ((upFrom (vsN s) (e - vsN s)).filter (activeAt s k.toNat)).map (scatOf s d a b locs)

theorem mem_scatBelow {s : State} {d a b : BitVec 5} {k : BitVec 3} {locs : Nat → List Loc} {e : Nat} {x : Scat} (hlo : vsN s ≤ e) (hhi : e ≤ vlN s) :
    x ∈ scatBelow s d a b k locs e ↔ ∃ j, (written s k j ∧ j < e) ∧ x = scatOf s d a b locs j := by
  unfold scatBelow
  rw [List.mem_map]
  refine exists_congr fun j => ?_
  rw [List.mem_filter, mem_upFrom]
  constructor
  · rintro ⟨⟨⟨h1, h2⟩, h3⟩, rfl⟩
    exact ⟨⟨⟨h1, by omega, h3⟩, by omega⟩, rfl⟩
  · rintro ⟨⟨⟨h1, -, h3⟩, h4⟩, rfl⟩
    exact ⟨⟨⟨h1, by omega⟩, h3⟩, rfl⟩

/-- The sum of an address over the indices, as the claim says it. -/
theorem sumAt_scatBelow (s : State) (d a b : BitVec 5) (k : BitVec 3) (locs : Nat → List Loc) (e va : Nat) :
    sumAt (fmtN s) (scatBelow s d a b k locs e) va =
      match (upFrom (vsN s) (e - vsN s)).filter (fun m => activeAt s k.toNat m && indexAddr s a b (ewN s) m = va) with
      | [] => 0
      | x :: r => r.foldl (fun acc m => scatAdd (fmtN s) acc (elemV s d.toNat (ewN s) m)) (elemV s d.toNat (ewN s) x) := by
  have hfilter : (scatBelow s d a b k locs e).filter (fun x => x.va = va) =
      ((upFrom (vsN s) (e - vsN s)).filter (fun m => activeAt s k.toNat m && indexAddr s a b (ewN s) m = va)).map (scatOf s d a b locs) := by
    unfold scatBelow
    rw [List.filter_map, List.filter_filter]
    congr 1
    exact List.filter_congr fun m _ => Bool.and_comm _ _
  unfold sumAt
  rw [hfilter]
  cases (upFrom (vsN s) (e - vsN s)).filter (fun m => activeAt s k.toNat m && indexAddr s a b (ewN s) m = va) with
  | nil => rfl
  | cons x r =>
    rw [List.map_cons]
    dsimp only
    rw [List.foldl_map]
    rfl

/-! ## The word -/

/-- The state of a scatter-add after its sums. -/
def scatDone (s : State) (c : BitVec 4) (l : List Scat) : State :=
  syncAcquire c.toNat true (scatApply (fmtN s) c.toNat (vlN s) l (chargeWord (ewN s) (newSer s)))

/-- A scatter-add that nothing holds back: its sums, and the first check that fails. -/
def scatRes (s : State) (c : BitVec 4) (l : List Scat) (o : Option (Nat × Nat × Nat × Nat)) : Res :=
  match o with
  | some (i, cause, v, h) => .trap cause (w64 v) (w64 i) (setHits h { scatDone s c l with thr.sr.vstart := w64 i })
  | none => .done { scatDone s c l with thr.sr.vstart := 0 }

theorem exec_scatForm {s : State} {i : Instr} {d a b : BitVec 5} {k : BitVec 3} {c : BitVec 4} (h : scatForm i = some (d, a, b, k, c)) :
    exec i s = .next (scatterAdd (encode i) d a b k c s) := by
  unfold scatForm at h
  split at h
  case h_4 => cases h
  all_goals
    cases h
    rfl

/-- A scatter-add whose state meets its needs is a queued word of its sums and the first check that fails. -/
theorem scatterAdd_runs {s : State} {w : BitVec 32} {d a b : BitVec 5} {k : BitVec 3} {c : BitVec 4} {l : List Scat} {o : Option (Nat × Nat × Nat × Nat)}
    (hok : VectorOk s) (hfmt : scatFmt (fmtN s) = true) (hrole : storeRole s = true) (hd : GroupOk s (d.toNat, grpN s))
    (hb : GroupOk s (b.toNat, grpN s)) (hx : NoPort s [a.toNat]) (hwait : atomicWaits s c.toNat = false) (hl : Scattered l)
    (hover : ∀ x ∈ l, overlapsPending s (x.locs.map (·.key)) = false)
    (hscan : scatScan s d a b k.toNat (ewN s) (vlN s - vsN s) (vsN s) = (l, o)) : RunsBody w s (scatRes s c l o) (scatterAdd w d a b k c s) := by
  have hlegal : fmtN s ≠ 0 := fun h => by rw [h] at hfmt; exact absurd hfmt (by decide)
  refine ⟨_, _, rfl, rfl, rfl, rfl, ready_vector hok hlegal (mayStore_role hrole) hfmt rfl hx (fun g hg => ?_) rfl, ?_⟩
  · rcases List.mem_cons.mp hg with rfl | hg
    · exact ⟨grpN_pos s, hd⟩
    · rw [List.mem_singleton.mp hg]
      exact ⟨grpN_pos s, hb⟩
  · have hhere : l.filter (fun e => !e.far) = l := List.filter_eq_self.mpr fun x hx => by rw [near_far hl x hx]; rfl
    have hany : l.any (fun e => overlapsPending s (e.locs.map (·.key))) = false := by
      rw [List.any_eq_false]
      intro x hx
      rw [hover x hx]
      decide
    dsimp only
    rw [hscan]
    dsimp only
    rw [hhere, hwait, hany, Bool.and_false, Bool.false_or, if_neg Bool.false_ne_true]
    cases o <;> rfl

/-- What the sums change: bytes, poison marks, cached lines, accounting, serial numbers and the age of the lines that the thread reads. -/
theorem scatDone_frame {s : State} {c : BitVec 4} {l : List Scat} (hlen : l.length ≤ vlN s) (hl : Scattered l) (hr : s.dev.retire = [])
    (hw : s.dev.mwatch = []) : scatDone s c l = { s with
      thr.pnd.l1dMin := (scatDone s c l).thr.pnd.l1dMin, dev.mem := (scatDone s c l).dev.mem, dev.poison := (scatDone s c l).dev.poison
      dev.acnt := (scatDone s c l).dev.acnt, dev.queues := (scatDone s c l).dev.queues, dev.ser := (scatDone s c l).dev.ser
      dev.l1d := (scatDone s c l).dev.l1d } ∧
    (∀ x ∈ l, heldAt (scatDone s c l).dev x.locs = scatAdd (fmtN s) (heldAt s.dev x.locs) (sumAt (fmtN s) l x.va) % 2 ^ (8 * x.locs.length)) ∧
    (∀ key, (∀ x ∈ l, ∀ p ∈ x.locs, p.key ≠ key) → readByte (scatDone s c l).dev key = readByte s.dev key) := by
  have hdone := scatApply_done (fmt := fmtN s) (cls := c.toNat) (s := putStores (ewN s) s []) hlen hl hr hw
  obtain ⟨u, hu⟩ : ∃ u, u = scatApply (fmtN s) c.toNat (vlN s) l (putStores (ewN s) s []) := ⟨_, rfl⟩
  rw [← hu] at hdone
  have hscat : scatDone s c l = syncAcquire c.toNat true u := by
    unfold scatDone
    rw [chargeWord_newSer, hu]
  have hread : ∀ key, readByte (syncAcquire c.toNat true u).dev key = readByte u.dev key := fun key => by
    unfold syncAcquire
    split <;> rfl
  rw [hscat]
  refine ⟨?_, fun x hx => ?_, fun key hkey => (hread key).trans (hdone.rest key hkey)⟩
  · have hst : u = { putStores (ewN s) s [] with dev := u.dev } := hdone.state
    have hdev : u.dev = { (putStores (ewN s) s []).dev with mem := u.dev.mem, poison := u.dev.poison, acnt := u.dev.acnt, l1d := u.dev.l1d } := hdone.quiet
    have hsame : putStores (ewN s) s [] = { s with
        dev.acnt := (chargeWord (ewN s) s).dev.acnt, dev.queues := (chargeWord (ewN s) s).dev.queues, dev.ser := s.dev.ser + 1 } := by
      unfold putStores
      rw [List.append_nil]
    rw [hsame] at hst hdev
    generalize u.dev.mem = m, u.dev.poison = p, u.dev.acnt = ac, u.dev.l1d = li at hdev
    rw [hdev] at hst
    rw [hst]
    unfold syncAcquire
    split <;> rfl
  · exact (heldAt_congr fun p _ => hread p.key).trans (hdone.sums x hx)

/-- Settles O38: the scan finds the elements below the first check that fails, and their sums are added at their homes. -/
theorem scatterAdds : Obligations.ScatterAdds := by
  intro s i d a b k c e locs hF hok hfmt hrole hd hb hx _ hret hwatch hwait hlo hhi n va hit hpass hapart sum old Done
  have hmem : ∀ {x}, x ∈ scatBelow s d a b k locs e ↔ ∃ j, hit j ∧ x = scatOf s d a b locs j := mem_scatBelow hlo hhi
  have hl : Scattered (scatBelow s d a b k locs e) := by
    refine ⟨fun x h => ?_, fun x h => ?_, fun x h y h' hva => ?_, fun x h y h' hva => ?_⟩ <;> obtain ⟨j, hj, rfl⟩ := hmem.mp h
    · exact (hpass j hj).2.2.1
    · exact (hpass j hj).2.1
    · obtain ⟨m, hm, rfl⟩ := hmem.mp h'
      have h1 := (hpass j hj).1
      have h2 := (hpass m hm).1
      rw [show va j = va m from hva, h2] at h1
      exact (Chk.ok.inj h1).symm
    · obtain ⟨m, hm, rfl⟩ := hmem.mp h'
      exact hapart j m hj hm hva
  have hover : ∀ x ∈ scatBelow s d a b k locs e, overlapsPending s (x.locs.map (·.key)) = false := fun x h => by
    obtain ⟨j, hj, rfl⟩ := hmem.mp h
    exact (hpass j hj).2.2.2
  have hlen : (scatBelow s d a b k locs e).length ≤ vlN s := by
    unfold scatBelow
    rw [List.length_map]
    exact (List.length_filter_le _ _).trans (by rw [length_upFrom]; omega)
  obtain ⟨hframe, hsums, hrest⟩ := scatDone_frame (c := c) hlen hl hret hwatch
  have hew : 8 * n = ewN s := by
    have h : ∀ f, scatFmt f = true → 8 * (fmtEw f / 8) = fmtEw f := fun f hf => by
      unfold scatFmt at hf
      rw [Bool.and_eq_true, decide_eq_true_eq, decide_eq_true_eq] at hf
      obtain ⟨h1, h2⟩ := hf
      interval_cases f <;> rfl
    exact h (fmtN s) hfmt
  have hdone : ∀ t : State, t = { scatDone s c (scatBelow s d a b k locs e) with thr.sr.vstart := t.thr.sr.vstart, thr.pnd.replay := t.thr.pnd.replay } →
      Done t := fun t ht => by
    obtain ⟨u, hu⟩ : ∃ u, u = scatDone s c (scatBelow s d a b k locs e) := ⟨_, rfl⟩
    rw [← hu] at ht hframe hsums hrest
    have hdev : t.dev = u.dev := by rw [ht]
    refine ⟨fun j hj => ?_, fun key hkey => ?_, ?_⟩
    · have hs := hsums (scatOf s d a b locs j) (hmem.mpr ⟨j, hj, rfl⟩)
      have hll : (scatOf s d a b locs j).locs.length = n := checkAccess_length (hpass j hj).1
      rw [hll, hew, sumAt_scatBelow] at hs
      show heldAt t.dev (locs j) = _
      rw [hdev]
      exact hs
    · rw [hdev]
      refine hrest key fun x hx' => ?_
      obtain ⟨j, hj, rfl⟩ := hmem.mp hx'
      exact hkey j hj
    · have hl1 : t.thr.pnd.l1dMin = u.thr.pnd.l1dMin := by rw [ht]
      rw [hdev, hl1]
      exact ht.trans ((congrArg (fun q : State => ({ q with thr.sr.vstart := t.thr.sr.vstart, thr.pnd.replay := t.thr.pnd.replay } : State)) hframe).trans rfl)
  have hcourse : ∀ v : Word, SameCourse s { scatDone s c (scatBelow s d a b k locs e) with thr.sr.vstart := v } := fun v => by
    rw [hframe]
    exact ⟨rfl, rfl, rfl, rfl, rfl⟩
  have hreplay : (scatDone s c (scatBelow s d a b k locs e)).thr.pnd.replay = s.thr.pnd.replay := by rw [hframe]
  have hscan := scatScan_pass (s := s) (d := d) (a := a) (b := b) (km := k.toNat) (locs := locs) (e - vsN s) (vlN s - e) (vsN s)
    (fun j h1 h2 h3 => (hpass j ⟨⟨h1, by omega, h3⟩, by omega⟩).1)
  rw [show e - vsN s + (vlN s - e) = vlN s - vsN s by omega, show vsN s + (e - vsN s) = e by omega] at hscan
  refine ⟨fun he => ?_, fun cause v h hw hc => ?_⟩
  · rw [show vlN s - e = 0 by omega, scatScan_end, List.append_nil] at hscan
    obtain ⟨nd, body, hrun, hword, hq, h0, hready, hbody⟩ := scatterAdd_runs (w := encode i) hok hfmt hrole hd hb hx hwait hl hover hscan
    refine ⟨capture (encode i) { scatDone s c (scatBelow s d a b k locs e) with thr.sr.vstart := 0 }, ?_, hdone _ rfl, rfl, ?_⟩
    · rw [exec_scatForm hF, hrun, run_queued hok.calm hready hq hbody (hcourse 0), hword]
    · show (scatDone s c (scatBelow s d a b k locs e)).thr.pnd.replay ++ [captured (encode i) _] = _
      rw [hreplay, hframe]
      rfl
  · have hlt : e < vlN s := hw.2.1
    rw [show vlN s - e = (vlN s - e - 1) + 1 by omega, scatScan_trap hw.2.2 hc, List.append_nil] at hscan
    obtain ⟨nd, body, hrun, hword, hq, h0, hready, hbody⟩ := scatterAdd_runs (w := encode i) hok hfmt hrole hd hb hx hwait hl hover hscan
    refine ⟨{ scatDone s c (scatBelow s d a b k locs e) with thr.sr.vstart := w64 e }, ?_, hdone _ rfl, w64_toNat (lt_trans hlt s.thr.sr.vl.isLt), hreplay⟩
    rw [exec_scatForm hF, hrun, run_trap hok.calm hready hbody, trapWord_at (p := s.thr.pc) h0 (by exact (hcourse (w64 e)).pc), hword]

end Sys2Proof.Machine
end

section
/-! PROOFS. Barrier phases (O48): the bytes of a barrier read back, and a decision that ends where nothing more completes. -/

namespace Sys2Proof.Machine

/-! ## The decision (R282) -/

/-- A barrier that no phase completes now. -/
def BarSettled (out : Nat) (b : Bar) : Prop := b.init = 0 ∨ b.pend ≠ 0 ∨ (b.exp ≠ 0 ∧ 0 ≤ b.exp.toInt ∧ out ≠ 0)

theorem barDecide_settled {out n : Nat} {b : Bar} (h : BarSettled out b) : barDecide out n b = b := by
  cases n with
  | zero => rfl
  | succ n =>
    rw [barDecide]
    by_cases h1 : b.init = 0 ∨ b.pend ≠ 0
    · rw [if_pos h1]
    · obtain ⟨h2, h3, h4⟩ := (or_assoc.mpr h).resolve_left h1
      rw [if_neg h1, if_neg h2, if_neg (by omega), if_pos h4]

/-- The barrier whose phase completes next: an error marks a phase with bytes missing or too many. -/
def barRound (b : Bar) : Bar :=
  if b.exp = 0 then b
  else if b.exp.toInt < 0 then { barErr 0 0x41 0 0 b with m := true } else { barErr 0 0x40 0 0 b with m := true }

theorem barDecide_round {out n : Nat} {b : Bar} (h : ¬ BarSettled out b) : barDecide out (n + 1) b = barDecide out n (barComplete (barRound b)) := by
  have hx : b.exp ≠ 0 → ¬ b.exp.toInt < 0 → out = 0 := fun h2 h3 => by
    by_contra h4
    exact h (.inr (.inr ⟨h2, by omega, h4⟩))
  rw [barDecide, if_neg (fun h1 => h (or_assoc.mp (.inl h1)))]
  unfold barRound
  by_cases h2 : b.exp = 0
  · rw [if_pos h2, if_pos h2]
  · rw [if_neg h2, if_neg h2]
    by_cases h3 : b.exp.toInt < 0
    · rw [if_pos h3, if_pos h3]
    · rw [if_neg h3, if_neg h3, if_neg (by rw [hx h2 h3]; decide)]

theorem barErr_counts (eng cause origin seq : Nat) (b : Bar) :
    (barErr eng cause origin seq b).init = b.init ∧ (barErr eng cause origin seq b).held = b.held ∧ (barErr eng cause origin seq b).ph = b.ph := by
  unfold barErr
  split <;> exact ⟨rfl, rfl, rfl⟩

theorem barRound_counts (b : Bar) : (barRound b).init = b.init ∧ (barRound b).held = b.held := by
  unfold barRound
  split
  · exact ⟨rfl, rfl⟩
  · split
    · exact ⟨(barErr_counts 0 0x41 0 0 b).1, (barErr_counts 0 0x41 0 0 b).2.1⟩
    · exact ⟨(barErr_counts 0 0x40 0 0 b).1, (barErr_counts 0 0x40 0 0 b).2.1⟩

/-- A round with fewer arrivals held than INIT is the last: arrivals are expected anew. -/
theorem barComplete_settles {out : Nat} {b : Bar} (h : b.held < b.init) : BarSettled out (barComplete b) := by
  refine .inr (.inl ?_)
  show b.init - min b.held b.init ≠ 0
  omega

/-- The decision leaves a settled barrier of the same INIT. -/
theorem barDecide_settles {out n : Nat} {b : Bar} (h : b.held < n) : BarSettled out (barDecide out n b) ∧ (barDecide out n b).init = b.init := by
  induction n generalizing b with
  | zero => exact absurd h (Nat.not_lt_zero _)
  | succ n ih =>
    by_cases hs : BarSettled out b
    · rw [barDecide_settled hs]
      exact ⟨hs, rfl⟩
    · rw [barDecide_round hs]
      obtain ⟨hinit, hheld⟩ := barRound_counts b
      by_cases hlast : b.held < b.init
      · have hnext : BarSettled out (barComplete (barRound b)) := barComplete_settles (by rw [hinit, hheld]; exact hlast)
        rw [barDecide_settled hnext]
        exact ⟨hnext, hinit⟩
      · have h0 : b.init ≠ 0 := fun h0 => hs (.inl h0)
        have hless : (barComplete (barRound b)).held < n := by
          show (barRound b).held - min (barRound b).held (barRound b).init < n
          rw [hinit, hheld]
          omega
        obtain ⟨h1, h2⟩ := ih hless
        exact ⟨h1, h2.trans hinit⟩

/-- A phase that completes with fewer arrivals held than INIT. -/
theorem barDecide_once {out n : Nat} {b : Bar} (h0 : b.init ≠ 0) (hp : b.pend = 0) (hh : b.held < b.init)
    (hx : b.exp = 0 ∨ b.exp.toInt < 0 ∨ out = 0) : barDecide out (n + 1) b = barComplete (barRound b) := by
  have hs : ¬ BarSettled out b := by
    rintro (h | h | ⟨h1, h2, h3⟩)
    · exact h0 h
    · exact h hp
    · rcases hx with h | h | h
      · exact h1 h
      · omega
      · exact h3 h
  obtain ⟨hinit, hheld⟩ := barRound_counts b
  rw [barDecide_round hs, barDecide_settled (barComplete_settles (by rw [hinit, hheld]; exact hh))]

theorem barComplete_eq {b : Bar} (hh : b.held < b.init) : barComplete b = { b with ph := !b.ph, exp := 0, pend := b.init - b.held, held := 0 } := by
  have hmin : min b.held b.init = b.held := Nat.min_eq_left (Nat.le_of_lt hh)
  simp only [barComplete, hmin, Nat.sub_self]

/-! ## The bytes (R278) -/

theorem leNat_append (a b : List Byte) : leNat (a ++ b) = leNat a + 2 ^ (8 * a.length) * leNat b := by
  induction a with
  | nil => simp [leNat]
  | cons x r ih =>
    rw [List.cons_append, leNat, leNat, ih, List.length_cons, show 8 * (r.length + 1) = 8 + 8 * r.length by omega, Nat.pow_add]
    ring

/-- A barrier's 16 bytes as a number. -/
def barNat (b : Bar) : Nat :=
  b.exp.toNat + 2 ^ 32 * b.pend + 2 ^ 48 * b.init + 2 ^ 64 * (bitNat b.ph + 2 * bitNat b.e + 4 * bitNat b.m + 8 * b.held) + 2 ^ 72 * b.eng +
    2 ^ 80 * b.cause + 2 ^ 88 * b.origin + 2 ^ 104 * b.seq

theorem bitNat_le (b : Bool) : bitNat b ≤ 1 := by cases b <;> decide

theorem length_barBytes (b : Bar) : (barBytes b).length = 16 := by
  unfold barBytes
  simp only [List.length_append, length_leBytes]

theorem leNat_barBytes {b : Bar} (h : BarFits b) : leNat (barBytes b) = barNat b := by
  obtain ⟨hpend, hinit, hheld, heng, hcause, horigin, hseq⟩ := h
  have hph := bitNat_le b.ph
  have he := bitNat_le b.e
  have hm := bitNat_le b.m
  have hexp := b.exp.isLt
  unfold barBytes barNat
  simp only [leNat_append, leNat_leBytes, length_leBytes, List.length_append]
  omega

theorem decide_bitNat (b : Bool) : decide (bitNat b = 1) = b := by cases b <;> rfl

theorem bits_div (n lo len : Nat) : bits n lo len = n / 2 ^ lo % 2 ^ len := by
  unfold bits
  rw [Nat.shiftRight_eq_div_pow]

theorem bit_div (n i : Nat) : bit n i = decide (n / 2 ^ i % 2 = 1) := Nat.testBit_eq_decide_div_mod_eq

theorem barOf_barNat {b : Bar} (h : BarFits b) : barOf (barNat b) = b := by
  obtain ⟨hpend, hinit, hheld, heng, hcause, horigin, hseq⟩ := h
  have hph := bitNat_le b.ph
  have he := bitNat_le b.e
  have hm := bitNat_le b.m
  have hlt := b.exp.isLt
  have hexp : BitVec.ofNat 32 (barNat b) = b.exp := by
    apply BitVec.eq_of_toNat_eq
    rw [BitVec.toNat_ofNat]
    unfold barNat
    omega
  have hfields : bits (barNat b) 32 16 = b.pend ∧ bits (barNat b) 48 16 = b.init ∧ bits (barNat b) 67 5 = b.held ∧ bits (barNat b) 72 8 = b.eng ∧
      bits (barNat b) 80 8 = b.cause ∧ bits (barNat b) 88 16 = b.origin ∧ bits (barNat b) 104 24 = b.seq := by
    simp only [bits_div]
    unfold barNat
    omega
  have hflags : barNat b / 2 ^ 64 % 2 = bitNat b.ph ∧ barNat b / 2 ^ 65 % 2 = bitNat b.e ∧ barNat b / 2 ^ 66 % 2 = bitNat b.m := by
    unfold barNat
    omega
  obtain ⟨h1, h2, h3, h4, h5, h6, h7⟩ := hfields
  obtain ⟨f1, f2, f3⟩ := hflags
  unfold barOf
  rw [hexp, h1, h2, h3, h4, h5, h6, h7, bit_div, bit_div, bit_div, f1, f2, f3, decide_bitNat, decide_bitNat, decide_bitNat]

theorem readBar_writeBar {s : State} {off : Nat} {b : Bar} (hr : s.dev.retire = []) (hp : s.dev.poison = []) (h : BarFits b) :
    readBar (writeBar off b s) off = b := by
  have hpoison : (writeBar off b s).dev.poison = [] := by
    show (writeBytes s.dev (barKey s off) (barBytes b)).poison = []
    rw [← hp]
    generalize barKey s off = k
    generalize s.dev = d
    induction barBytes b generalizing d k with
    | nil => rfl
    | cons x r ih => exact ih _ _
  have hclean : ∀ k, poisoned (writeBar off b s).dev k = false := fun k => by
    unfold poisoned
    rw [hpoison]
    rfl
  have hread : readNat (writeBar off b s).dev (barKey (writeBar off b s) off) 16 = barNat b := by
    rw [← leNat_barBytes h, ← length_barBytes b]
    exact congrArg leNat (readBytes_writeBytes hr (barBytes b) (barKey s off))
  unfold readBar
  rw [hread, hclean, hclean, barOf_barNat h]
  rfl

/-- Settles O48: a barrier's fields fill its bytes, and every round of the decision with arrivals still held takes some. -/
theorem barrierPhases : Obligations.BarrierPhases := by
  refine ⟨fun s off b hr hp h => readBar_writeBar hr hp h, fun out b hfit => ?_⟩
  intro r
  obtain ⟨hpend, -, hheld, -⟩ := hfit
  obtain ⟨hsettled, hinit⟩ := barDecide_settles (out := out) (n := 34) (b := b) (by omega)
  refine ⟨hsettled, hinit, fun h => barDecide_settled h, fun h0 hp hh => ⟨fun hx => ?_, fun hx => ?_, fun hx hout => ?_⟩⟩
  · refine (barDecide_once h0 hp hh (.inl hx)).trans ?_
    unfold barRound
    rw [if_pos hx, barComplete_eq hh, ← hx]
  · have hne : b.exp ≠ 0 := fun h => by rw [h] at hx; exact absurd hx (by decide)
    obtain ⟨hi, hhe, hph⟩ := barErr_counts 0 0x41 0 0 b
    refine (barDecide_once h0 hp hh (.inr (.inl hx))).trans ?_
    unfold barRound
    rw [if_neg hne, if_pos hx, barComplete_eq (by show (barErr 0 0x41 0 0 b).held < (barErr 0 0x41 0 0 b).init; rw [hi, hhe]; exact hh)]
    simp only [hi, hhe, hph]
  · have hne : b.exp ≠ 0 := fun h => by rw [h] at hx; exact absurd hx (by decide)
    obtain ⟨hi, hhe, hph⟩ := barErr_counts 0 0x40 0 0 b
    refine (barDecide_once h0 hp hh (.inr (.inr hout))).trans ?_
    unfold barRound
    rw [if_neg hne, if_neg (by omega), barComplete_eq (by show (barErr 0 0x40 0 0 b).held < (barErr 0 0x40 0 0 b).init; rw [hi, hhe]; exact hh)]
    simp only [hi, hhe, hph]

end Sys2Proof.Machine
end

section
/-! PROOFS. Barrier words (O47): the address check comes first, and each word is one update of the barrier or one look at it. -/

namespace Sys2Proof.Machine

/-! ## The shape of a barrier word -/

theorem barWord_error {s : State} {n : Need} {a : BitVec 5} {body : Nat → State → Res} {c : Nat} (hc : Calm s) (h : Ready n s) (h0 : n.vs0 = false)
    (hb : barCheck s (xr s a).toNat = .error c) : barWord n a body s = takeTrap n.word c s.thr.pc (xr s a) 0 s := by
  unfold barWord
  rw [run_trap (t := s) (c := c) (v := xr s a) (v2 := 0) hc h (by rw [hb]), trapWord_at h0 rfl]

theorem barWord_trap {s : State} {n : Need} {a : BitVec 5} {body : Nat → State → Res} {off c : Nat} {v v2 : Word} (hc : Calm s) (h : Ready n s)
    (h0 : n.vs0 = false) (hb : barCheck s (xr s a).toNat = .ok off) (hbody : body off s = .trap c v v2 s) :
    barWord n a body s = takeTrap n.word c s.thr.pc v v2 s := by
  unfold barWord
  rw [run_trap (t := s) (c := c) (v := v) (v2 := v2) hc h (by rw [hb]; exact hbody), trapWord_at h0 rfl]

theorem barWord_done {s t : State} {n : Need} {a : BitVec 5} {body : Nat → State → Res} {off : Nat} (hc : Calm s) (h : Ready n s)
    (hq : n.queued = false) (hb : barCheck s (xr s a).toNat = .ok off) (hbody : body off s = .done t) (k : SameCourse s t) :
    barWord n a body s = retired n.word (s.thr.pc + 4) t := by
  unfold barWord
  rw [run_done_unqueued (t := t) hc h hq (by rw [hb]; exact hbody) k]

theorem barWord_wait {s : State} {n : Need} {a : BitVec 5} {body : Nat → State → Res} {off : Nat} (hc : Calm s) (h : Ready n s)
    (hb : barCheck s (xr s a).toNat = .ok off) (hbody : body off s = .wait s) : barWord n a body s = waitHere s := by
  unfold barWord
  rw [run_wait (t := s) hc h (by rw [hb]; exact hbody)]

theorem barCheck_error {s : State} {n c : Nat} (h : barCheck s n = .error c) : c = if n % 16 ≠ 0 then 0x0C else 0x0D := by
  unfold barCheck at h
  split at h
  next hm => rw [if_pos hm]; exact (Except.error.inj h).symm
  next hm =>
    rw [if_neg hm]
    split at h
    · cases h
    · exact (Except.error.inj h).symm

/-! ## Updates -/

theorem writeBytes_dbg (d : Device) (k : Nat) (bs : List Byte) : (writeBytes d k bs).dbg = d.dbg := by
  rw [(homes_writeBytes bs d k).frame]

theorem writeBar_course (off : Nat) (b : Bar) (s : State) : SameCourse s (writeBar off b s) :=
  ⟨rfl, rfl, rfl, rfl, writeBytes_dbg s.dev (barKey s off) (barBytes b)⟩

theorem updateBar_course (off : Nat) (f : Bar → Bar) (s : State) : SameCourse s (updateBar off f s) := writeBar_course off _ s

/-- The thread's own stores are all issued after this moment, or are fences: no earlier store is on its way. -/
theorem pushArrival_quiet {s : State} {off : Nat} {n : BitVec 32} (h0 : s.thr.pnd.barArrs = [])
    (hq : s.thr.pnd.stores.all (fun p => p.fence != 0 || decide (s.dev.ser < p.ser)) = true) :
    pushArrival off n s = updateBar off (fun y => barArrive (barExpect n y)) s := by
  have hany : s.thr.pnd.stores.any (fun p => p.fence = 0 && p.ser ≤ s.dev.ser) = false := by
    rw [List.any_eq_false]
    intro p hp
    have hp' := List.all_eq_true.mp hq p hp
    simp only [Bool.or_eq_true, bne_iff_ne, decide_eq_true_eq] at hp'
    simp only [Bool.and_eq_true, decide_eq_true_eq, not_and, Nat.not_le]
    exact fun hf => hp'.resolve_left (fun h => h hf)
  have hs : { s with thr.pnd.barArrs := [] } = s := by rw [← h0]
  unfold pushArrival updatesPending
  dsimp only
  rw [h0]
  unfold takeArrival
  dsimp only [List.isEmpty_nil, Bool.not_true, List.nil_append]
  rw [hany, hs]
  rfl

theorem pushArrival_late {s : State} {off : Nat} {n : BitVec 32}
    (h : s.thr.pnd.barArrs ≠ [] ∨ ¬ s.thr.pnd.stores.all (fun p => p.fence != 0 || decide (s.dev.ser < p.ser)) = true) :
    pushArrival off n s = { s with thr.pnd.barArrs := s.thr.pnd.barArrs ++ [⟨off, n, s.dev.ser⟩] } := by
  unfold pushArrival updatesPending
  dsimp only
  by_cases h0 : s.thr.pnd.barArrs = []
  · have hany : s.thr.pnd.stores.any (fun p => p.fence = 0 && p.ser ≤ s.dev.ser) = true := by
      have hn := h.resolve_left (fun hne => hne h0)
      rw [List.all_eq_true] at hn
      push Not at hn
      obtain ⟨p, hp, hbad⟩ := hn
      rw [List.any_eq_true]
      refine ⟨p, hp, ?_⟩
      simp only [ne_eq, Bool.or_eq_true, bne_iff_ne, decide_eq_true_eq, not_or, Decidable.not_not] at hbad
      simp only [Bool.and_eq_true, decide_eq_true_eq]
      exact ⟨hbad.1, Nat.not_lt.mp hbad.2⟩
    rw [h0]
    unfold takeArrival
    dsimp only [List.isEmpty_nil, Bool.not_true, List.nil_append]
    rw [hany]
    rfl
  · have he : s.thr.pnd.barArrs.isEmpty = false := by simpa using h0
    rw [he]
    rfl

theorem pushArrival_course (off : Nat) (n : BitVec 32) (s : State) : SameCourse s (pushArrival off n s) := by
  by_cases h0 : s.thr.pnd.barArrs = []
  · by_cases hq : s.thr.pnd.stores.all (fun p => p.fence != 0 || decide (s.dev.ser < p.ser)) = true
    · rw [pushArrival_quiet h0 hq]
      exact updateBar_course _ _ s
    · rw [pushArrival_late (.inr hq)]
      exact ⟨rfl, rfl, rfl, rfl, rfl⟩
  · rw [pushArrival_late (.inl h0)]
    exact ⟨rfl, rfl, rfl, rfl, rfl⟩

theorem barDone_eq (s : State) (off : Nat) (p : Word) : barDone s off p = ((readBar s off).ph != p.getLsbD 0) := rfl

/-- Settles O47: the check of the address, then the word's one update or look. -/
theorem barrierWords : Obligations.BarrierWords := by
  intro s d a b hc hp
  have ra : ∀ w, Ready { word := w, xr := [a.toNat] } s := fun w => ready_scalar (hp.of_mem (by simp))
  have rab : ∀ w, Ready { word := w, xr := [a.toNat, b.toNat] } s := fun w => ready_scalar (hp.of_mem (by simp))
  have rabd : ∀ w, Ready { word := w, xr := [a.toNat, b.toNat], xw := [d.toNat] } s := fun w => ready_scalar (hp.of_mem (by simp [or_comm]))
  have hd : NoPort s [d.toNat] := hp.of_mem (by simp)
  refine ⟨fun c hbad => ⟨barCheck_error hbad, fun i hi => ?_⟩, fun off hok => ?_⟩
  · simp only [List.mem_cons, List.not_mem_nil, or_false] at hi
    rcases hi with rfl | rfl | rfl | rfl | rfl | rfl
    · exact congrArg _ (barWord_error hc (rab _) rfl hbad)
    · exact congrArg _ (barWord_error hc (rab _) rfl hbad)
    · exact congrArg _ (barWord_error hc (ra _) rfl hbad)
    · exact congrArg _ (barWord_error hc (rab _) rfl hbad)
    · exact congrArg _ (barWord_error hc (rabd _) rfl hbad)
    · exact congrArg _ (barWord_error hc (rabd _) rfl hbad)
  · intro n key quiet arrive
    have hpend0 : s.thr.pnd.barArrs = [] → updatesPending s = false := fun h => by unfold updatesPending; rw [h]; rfl
    have hpend1 : s.thr.pnd.barArrs ≠ [] → updatesPending s = true := fun h => by unfold updatesPending; simpa using h
    have hcount : (xr s b).toNat / 65536 ≠ 0 ∨ (xr s b).toNat % 65536 = 0 ↔ n = 0 ∨ 65536 ≤ n := by
      show _ ↔ (xr s b).toNat = 0 ∨ 65536 ≤ (xr s b).toNat
      omega
    have harrive : ∀ (x : BitVec 32) (i : Instr) (need : Need) (body : Nat → State → Res), need.word = encode i → need.queued = false → Ready need s →
        body off s = .done (pushArrival off x s) → exec i s = .next (barWord need a body s) → arrive x i := fun x i need body hw hq hr hbody he => by
      have hdone := barWord_done hc hr hq hok hbody (pushArrival_course off x s)
      refine ⟨fun h0 hquiet => ?_, fun h => ?_⟩
      · rw [he, hdone, hw, pushArrival_quiet h0 hquiet]
      · rw [he, hdone, hw, pushArrival_late h]
    refine ⟨fun hn => ?_, fun hn1 hn2 h0 => ?_, fun h0 => ?_, fun h0 => ⟨fun hn1 hn2 => ?_, ?_⟩, harrive _ _ _ _ rfl rfl (ra _) rfl rfl,
      harrive _ _ _ _ rfl rfl (rab _) rfl rfl, ?_⟩
    · exact congrArg _ (barWord_trap hc (rab _) rfl hok (if_pos (hcount.mpr hn)))
    · refine congrArg _ (barWord_done hc (rab _) rfl hok ?_ ?_)
      · rw [if_neg (fun h => by have := hcount.mp h; omega), if_neg (by rw [hpend0 h0]; decide)]
      · have hcl : SameCourse s { s with dev := clearPoison s.dev (upFrom (barKey s off) 16) } :=
          ⟨rfl, rfl, rfl, rfl, (clearPoison_mem _ _).2.2.2⟩
        exact hcl.trans (writeBar_course off _ _)
    · refine congrArg _ (barWord_done hc (rab _) rfl hok ?_ (updateBar_course off _ s))
      rw [if_neg (by rw [hpend0 h0]; decide)]
    · refine congrArg _ (barWord_wait hc (rab _) hok ?_)
      rw [if_neg (fun h => by have := hcount.mp h; omega), if_pos (hpend1 h0)]
    · exact congrArg _ (barWord_wait hc (rab _) hok (if_pos (hpend1 h0)))
    · intro x done
      refine ⟨fun h => ?_, fun h1 h2 => ?_, ?_⟩
      · have hcond : (barDone s off (xr s b) || barHurt s off) = true := by
          rw [Bool.or_eq_true]
          exact h
        exact congrArg _ (barWord_done hc (rabd _) rfl hok (if_pos hcond) ((dropOldLines_same true s).trans (wx_same (noPort_same hd rfl))))
      · have hcond : ¬ (barDone s off (xr s b) || barHurt s off) = true := by
          rw [show barDone s off (xr s b) = false from h1, h2]
          decide
        exact congrArg _ (barWord_wait hc (rabd _) hok (if_neg hcond))
      · exact congrArg _ (barWord_done hc (rabd _) rfl hok rfl ((dropOldLines_same _ s).trans (wx_same (noPort_same hd (dropOldLines_same _ s).cfg))))

end Sys2Proof.Machine
end

section
/-! PROOFS. `rstat`, `fence.arr`, `gwait` and `gtest` (O49): the register rule decides who may ask, and the counts decide the rest. -/

namespace Sys2Proof.Machine

/-- A word whose own register rule fails, and that asks for nothing else, traps REG_ILLEGAL. -/
theorem run_ownRule {s : State} {n : Need} {body : State → Res} (hc : Calm s) (hr : n.roleOk = true) (hv : n.vt = false) (hf : n.fmtOk = true)
    (h0 : n.vs0 = false) (ho : n.regOk = false) : run n s body = takeTrap n.word 0x04 s.thr.pc (n.word.setWidth 64) 0 s := by
  unfold run
  rw [gate_register hc hr (fun h => by rw [hv] at h; cases h) hf (regsBad_own ho)]
  show inOrder s (trapWord n 0x04 (n.word.setWidth 64) 0 s) = _
  rw [trapWord_at h0 rfl]
  exact if_pos hc.ahead

theorem ready_own {w : BitVec 32} {l : List Nat} {o : Bool} {s : State} (h : NoPort s l) (ho : o = true) :
    Ready { word := w, xw := l, regOk := o } s := by
  refine ⟨rfl, ?_, rfl, ho, h, ?_, ?_, ?_⟩ <;> simp

/-- Who may ask about a ring or a port. -/
theorem rstat_own {s : State} (hc : Calm s) (t : BitVec 1) (p : Nat) :
    (isTrio s && s.slot.chain.isNone && (if t = 0 then ringWriter p = s.cur.2 || ringReader p = s.cur.2 else qWriter p = s.cur.2 || qReader p = s.cur.2)) = true ↔
      isTrio s = true ∧ (if t = 0 then ringWriter p = s.cur.2 ∨ ringReader p = s.cur.2 else qWriter p = s.cur.2 ∨ qReader p = s.cur.2) := by
  rw [hc.chain, Bool.and_eq_true, Bool.and_eq_true]
  by_cases ht : t = 0
  · simp [ht]
  · simp

theorem rstatOwn {s : State} {d : BitVec 5} {t : BitVec 1} {p : BitVec 2} (hc : Calm s) (hd : NoPort s [d.toNat])
    (hm : isTrio s = true ∧ (if t = 0 then ringWriter p.toNat = s.cur.2 ∨ ringReader p.toNat = s.cur.2 else qWriter p.toNat = s.cur.2 ∨ qReader p.toNat = s.cur.2)) :
    exec (.rstat d t p) s = .next (retired (encode (.rstat d t p)) (s.thr.pc + 4)
      (wx d.toNat (w64 (if t = 0 then min 4 ((ring s p.toNat).filter (·.committed)).length else (qport s p.toNat).length)) s)) :=
  congrArg _ (run_done_unqueued (t := wx d.toNat _ s) hc (ready_own hd ((rstat_own hc t p.toNat).mpr hm)) rfl rfl (wx_same hd))

theorem rstatOther {s : State} {d : BitVec 5} {t : BitVec 1} {p : BitVec 2} (hc : Calm s)
    (hm : ¬ (isTrio s = true ∧ (if t = 0 then ringWriter p.toNat = s.cur.2 ∨ ringReader p.toNat = s.cur.2 else qWriter p.toNat = s.cur.2 ∨ qReader p.toNat = s.cur.2))) :
    exec (.rstat d t p) s = .next (takeTrap (encode (.rstat d t p)) 0x04 s.thr.pc ((encode (.rstat d t p)).setWidth 64) 0 s) :=
  congrArg _ (run_ownRule hc rfl rfl rfl rfl (Bool.eq_false_iff.mpr (fun h => hm ((rstat_own hc t p.toNat).mp h))))

/-- The arrival that `fence.arr` counts. -/
theorem fenceArr_counts {s : State} {sc : BitVec 4} {g : BitVec 8} (hc : Calm s) (hm : isMember s g.toNat = true) (h : arrivals s g.toNat = phaseOf s g.toNat) :
    ∃ t, exec (.fenceArr sc g) s = .next (retired (encode (.fenceArr sc g)) (s.thr.pc + 4) t) ∧
      arrivals t g.toNat = arrivals s g.toNat + 1 ∧ SMap.get 0 t.thr.hid.arr (512 + g.toNat) = sc.toNat ∧
      t = { s with thr.hid.arr := t.thr.hid.arr, thr.pnd.groupArrs := s.thr.pnd.groupArrs ++ [⟨g.toNat, s.dev.ser⟩] } := by
  have hne : ¬ (arrivals s g.toNat != phaseOf s g.toNat) = true := by simp [h]
  have hg : g.toNat ≠ 512 + g.toNat := by omega
  obtain ⟨t, ht⟩ : ∃ t : State, t = { s with
    thr.hid.arr := SMap.set 0 (SMap.set 0 s.thr.hid.arr g.toNat (arrivals s g.toNat + 1)) (512 + g.toNat) sc.toNat
    thr.pnd.groupArrs := s.thr.pnd.groupArrs ++ [⟨g.toNat, s.dev.ser⟩] } := ⟨_, rfl⟩
  refine ⟨t, ?_, ?_, ?_, by rw [ht]⟩
  · refine congrArg _ (run_done_unqueued hc (ready_own (noPort_nil s) hm) rfl ((if_neg hne).trans ?_) ?_) <;> rw [ht]
    exact ⟨rfl, rfl, rfl, rfl, rfl⟩
  · unfold arrivals
    rw [ht]
    dsimp only
    rw [SMap.get_set_ne _ _ _ _ _ hg, SMap.get_set_self]
    rfl
  · rw [ht]
    exact SMap.get_set_self _ _ _ _

/-- Settles O49: each word is a look at counts of its slot or launch, and `fence.arr` adds to one. -/
theorem groupWords : Obligations.GroupWords := by
  refine ⟨fun s d t p hc => ⟨fun hm hd => rstatOwn hc hd hm, fun hm => rstatOther hc hm⟩, fun s d sc g hc hd => ?_⟩
  intro a p seen
  have hnew : SameCourse s (newLines s) := newLines_same s
  refine ⟨fun hm i hi => ?_, fun hm => ⟨fun h => ?_, fun h => fenceArr_counts hc hm h, fun h => ?_, fun h => ?_, ?_⟩⟩
  · simp only [List.mem_cons, List.not_mem_nil, or_false] at hi
    rcases hi with rfl | rfl | rfl <;> exact congrArg _ (run_ownRule hc rfl rfl rfl rfl hm)
  · exact congrArg _ (run_wait hc (ready_own (noPort_nil s) hm) (if_pos (bne_iff_ne.mpr h)))
  · exact congrArg _ (run_done_unqueued hc (ready_own (noPort_nil s) hm) rfl (if_pos h) hnew)
  · exact congrArg _ (run_wait hc (ready_own (noPort_nil s) hm) (if_neg (Nat.not_le.mpr h)))
  · by_cases h : a ≤ p
    · rw [if_pos h]
      exact congrArg _ (run_done_unqueued hc (ready_own hd hm) rfl (if_pos h) (hnew.trans (wx_same (noPort_same hd hnew.cfg))))
    · rw [if_neg h]
      exact congrArg _ (run_done_unqueued hc (ready_own hd hm) rfl (if_neg h) (wx_same hd))

end Sys2Proof.Machine
end

section
/-! PROOFS. Tasks and the pool (O50, O51): what `tget` takes, what `tdone` leaves behind, when a finish takes effect, and the offer of a
launch. -/

namespace Sys2Proof.Machine

/-! ## Tables looked up without a default -/

theorem SMap.find_erase {α : Type} (m : SMap α) (k j : Nat) : SMap.find (SMap.erase m k) j = if j = k then none else SMap.find m j := by
  induction m with
  | nil => simp [SMap.erase, SMap.find]
  | cons p r ih =>
    obtain ⟨i, v⟩ := p
    simp only [SMap.erase, SMap.find]
    split_ifs <;> simp_all [SMap.find]

theorem SMap.find_insert {α : Type} (m : SMap α) (k j : Nat) (v : α) (h : k ∉ m.map Prod.fst) :
    SMap.find (SMap.insert m k v) j = if j = k then some v else SMap.find m j := by
  induction m with
  | nil =>
    by_cases hj : j = k
    · simp [SMap.insert, SMap.find, hj]
    · simp [SMap.insert, SMap.find, hj, Ne.symm hj]
  | cons p r ih =>
    obtain ⟨i, u⟩ := p
    simp only [List.map_cons, List.mem_cons, not_or] at h
    have ih := ih h.2
    have hki : ¬ i = k := fun e => h.1 e.symm
    by_cases hlt : k < i
    · simp only [SMap.insert, if_pos hlt, SMap.find, eq_comm (a := k)]
    · simp only [SMap.insert, if_neg hlt, SMap.find, ih]
      by_cases hi : i = j
      · subst hi; simp only [if_true, if_neg hki]
      · simp only [if_neg hi]

/-- Looking up after a key is put. -/
theorem SMap.find_put {α : Type} (m : SMap α) (k j : Nat) (v : α) : SMap.find (SMap.put m k v) j = if j = k then some v else SMap.find m j := by
  unfold SMap.put
  rw [SMap.find_insert _ _ _ _ (SMap.not_mem_erase m k), SMap.find_erase]
  by_cases hj : j = k
  · rw [if_pos hj, if_pos hj]
  · rw [if_neg hj, if_neg hj, if_neg hj]

/-! ## The dispatcher's writes -/

theorem homes_ctxWriteOr (op c va : Nat) (bs : List Byte) (d : Device) : Homes d (ctxWriteOr op c va bs d) := by
  unfold ctxWriteOr ctxWrite
  cases ctxReach d c true va bs.length with
  | error a => exact .refl d
  | ok locs => exact homes_performHome _ _ _ d

/-- A task's STATE set in the dispatcher, before its write to the TCB. -/
theorem homes_setTaskState {id st : Nat} {d : Device} {t : Task} (h : SMap.find d.tasks id = some t) :
    Homes (setTask id { t with st := st } d) (setTaskState id st d) := by
  unfold setTaskState
  rw [h]
  exact homes_ctxWriteOr _ _ _ _ _

theorem find_setTaskState {id st : Nat} {d : Device} {t : Task} (h : SMap.find d.tasks id = some t) (j : Nat) :
    SMap.find (setTaskState id st d).tasks j = if j = id then some { t with st := st } else SMap.find d.tasks j := by
  rw [(homes_setTaskState (st := st) h).frame]
  exact SMap.find_put _ _ _ _

/-! ## Registers written -/

/-- The four arguments of a task in x20 to x23 (R227). -/
def putArgs (args : List Word) (s : State) : State := (upFrom 0 4).foldl (fun s i => wx (20 + i) (args.getD i 0) s) s

theorem noPort_below {s : State} {n : Nat} (h : n < 28) : NoPort s [n] := .inr fun r hr => by rw [List.mem_singleton.mp hr]; exact h

theorem putArgs_spec (args : List Word) {s : State} (hd : s.thr.hid.damaged = []) : putArgs args s = { s with thr.x := (putArgs args s).thr.x } ∧
    (∀ n, n < 4 → rx (putArgs args s) (20 + n) = args.getD n 0) ∧ ∀ r, r < 20 ∨ 23 < r → rx (putArgs args s) r = rx s r := by
  obtain ⟨t0, h0⟩ : ∃ t, t = wx 20 (args.getD 0 0) s := ⟨_, rfl⟩
  obtain ⟨t1, h1⟩ : ∃ t, t = wx 21 (args.getD 1 0) t0 := ⟨_, rfl⟩
  obtain ⟨t2, h2⟩ : ∃ t, t = wx 22 (args.getD 2 0) t1 := ⟨_, rfl⟩
  have hput : putArgs args s = wx 23 (args.getD 3 0) t2 := by rw [h2, h1, h0]; rfl
  have f0 := wx_frame (n := 20) (v := args.getD 0 0) (noPort_below (s := s) (by decide)) hd
  rw [← h0] at f0
  have d0 : t0.thr.hid.damaged = [] := by rw [f0]; exact hd
  have f1 := wx_frame (n := 21) (v := args.getD 1 0) (noPort_below (s := t0) (by decide)) d0
  rw [← h1] at f1
  have d1 : t1.thr.hid.damaged = [] := by rw [f1]; exact d0
  have f2 := wx_frame (n := 22) (v := args.getD 2 0) (noPort_below (s := t1) (by decide)) d1
  rw [← h2] at f2
  have d2 : t2.thr.hid.damaged = [] := by rw [f2]; exact d1
  have f3 := wx_frame (n := 23) (v := args.getD 3 0) (noPort_below (s := t2) (by decide)) d2
  rw [← hput] at f3
  have hread : ∀ r, rx (putArgs args s) r = if r = 0 then 0 else if r = 23 then args.getD 3 0 else if r = 22 then args.getD 2 0
      else if r = 21 then args.getD 1 0 else if r = 20 then args.getD 0 0 else rx s r := fun r => by
    rw [hput, rx_wx_any (noPort_below (by decide)) d2, h2, rx_wx_any (noPort_below (by decide)) d1, h1, rx_wx_any (noPort_below (by decide)) d0, h0,
      rx_wx_any (noPort_below (by decide)) hd]
    split_ifs <;> rfl
  refine ⟨?_, fun n hn => ?_, fun r hr => ?_⟩
  · generalize putArgs args s = u at f3
    refine f3.trans ?_
    rw [f2, f1, f0]
  · rw [hread]
    interval_cases n <;> rfl
  · rw [hread]
    by_cases hz : r = 0
    · rw [if_pos hz, hz]
      rfl
    · rw [if_neg hz, if_neg (by omega), if_neg (by omega), if_neg (by omega), if_neg (by omega)]

/-! ## `tget` (R227, R245, R285) -/

/-- The device as `tget` leaves it: the task is taken by launch slot j and RUNNING, and the core holds no cached line. -/
def takenDev (id j : Nat) (k : Task) (s : State) : Device :=
  l1dDropAll (setTaskState id 3 (setTask id { k with took := k.took ++ [j] } s.dev)) (coreOf s)

/-- The state of a `tget` that takes task id, before its registers: w is its TASKID. -/
def takenState (dev : Device) (id : Nat) (w : Word) (s : State) : State :=
  { s with dev := dev, slot.taken := s.slot.taken ++ [id], thr.hid.task := some id, thr.hid.tpos := s.thr.hid.tpos + 1, thr.sr.taskid := w }

theorem rx_takenState (dev : Device) (id : Nat) (w : Word) (s : State) (r : Nat) : rx (takenState dev id w s) r = rx s r := rfl

theorem takenState_course {dev : Device} {s : State} (h : dev.dbg = s.dev.dbg) (id : Nat) (w : Word) : SameCourse s (takenState dev id w s) :=
  ⟨rfl, rfl, rfl, rfl, h⟩

theorem takenState_keeps (dev : Device) (id : Nat) (w : Word) (s : State) : (takenState dev id w s).slot.cfg = s.slot.cfg ∧
    (takenState dev id w s).thr.hid.damaged = s.thr.hid.damaged := ⟨rfl, rfl⟩

/-- The state of a `tget` that takes task id for launch slot j, before its registers. -/
def takenBase (id j : Nat) (k : Task) (s : State) : State := takenState (takenDev id j k s) id (w64 (j * 2 ^ 48 + id % 2 ^ 48)) s

/-- The launch slot to which a thread's tasks are bound. -/
def boundSlot (s : State) : Nat := match boundTo s with | some (_, j) => j | none => 0

theorem takeTask_eq {s : State} {d : BitVec 5} {id : Nat} {k : Task} (hf : SMap.find s.dev.tasks id = some k)
    (hm : isTrio s = false ∨ s.cur.2 = 0) : takeTask d id s = wx d.toNat k.count (putArgs k.args (takenBase id (boundSlot s) k s)) := by
  have hfirst : (!(isTrio s && s.slot.chain.isNone && s.cur.2 != 0)) = true := by
    rcases hm with h | h <;> simp [h]
  unfold takeTask
  rw [hf]
  dsimp only
  rw [hfirst]
  rfl

theorem takenDev_spec (id j : Nat) (k : Task) (s : State) : (takenDev id j k s).dbg = s.dev.dbg ∧
    SMap.find (takenDev id j k s).tasks id = some { k with took := k.took ++ [j], st := 3 } ∧ ∀ x ∈ (takenDev id j k s).l1d, x.core ≠ coreOf s := by
  have hf : SMap.find (setTask id { k with took := k.took ++ [j] } s.dev).tasks id = some { k with took := k.took ++ [j] } := by
    show SMap.find (SMap.put s.dev.tasks id _) id = _
    rw [SMap.find_put, if_pos rfl]
  have hfind := find_setTaskState (st := 3) hf id
  have hframe := (homes_setTaskState (st := 3) hf).frame
  refine ⟨?_, hfind.trans (if_pos rfl), fun x hx => ?_⟩
  · show (setTaskState id 3 (setTask id { k with took := k.took ++ [j] } s.dev)).dbg = _
    rw [hframe]
    rfl
  · exact of_decide_eq_true (List.mem_filter.mp hx).2

/-- The registers of a taken task over any state. -/
theorem putTask_spec {t0 : State} {d : BitVec 5} {n : Word} {args : List Word} (hd : t0.thr.hid.damaged = []) (hp : NoPort t0 [d.toNat]) :
    wx d.toNat n (putArgs args t0) = { t0 with thr.x := (wx d.toNat n (putArgs args t0)).thr.x } ∧
    (∀ i, i < 4 → d.toNat ≠ 20 + i → rx (wx d.toNat n (putArgs args t0)) (20 + i) = args.getD i 0) ∧
    (d ≠ 0 → rx (wx d.toNat n (putArgs args t0)) d.toNat = n) ∧
    (∀ r, r ≠ d.toNat → r < 20 ∨ 23 < r → rx (wx d.toNat n (putArgs args t0)) r = rx t0 r) := by
  obtain ⟨hframe, hargs, hother⟩ := putArgs_spec args hd
  generalize putArgs args t0 = t at hframe hargs hother ⊢
  have hdt : t.thr.hid.damaged = [] := by rw [hframe]; exact hd
  have hpt : NoPort t [d.toNat] := noPort_same hp (by rw [hframe])
  obtain ⟨hne, heq⟩ := rx_wx_of_noPort (v := n) hdt hpt
  refine ⟨?_, fun i hi hd' => ?_, fun h0 => ?_, fun r hr hr' => ?_⟩
  · have hw := wx_frame (v := n) hpt hdt
    generalize wx d.toNat n t = u at hw
    exact hw.trans ((congrArg (fun q : State => ({ q with thr.x := u.thr.x } : State)) hframe).trans rfl)
  · rw [hne _ (Ne.symm hd'), hargs i hi]
  · rw [heq, if_neg h0]
  · rw [hne r hr, hother r hr']

/-- What a `tget` that takes a task leaves (R227, R245). -/
theorem takeTask_spec {s : State} {d : BitVec 5} {id : Nat} {k : Task} (hd : s.thr.hid.damaged = []) (hp : NoPort s [d.toNat])
    (hf : SMap.find s.dev.tasks id = some k) (hm : isTrio s = false ∨ s.cur.2 = 0) :
    takeTask d id s = { takenBase id (boundSlot s) k s with thr.x := (takeTask d id s).thr.x } ∧
    (∀ n, n < 4 → d.toNat ≠ 20 + n → rx (takeTask d id s) (20 + n) = k.args.getD n 0) ∧ (d ≠ 0 → rx (takeTask d id s) d.toNat = k.count) ∧
    (∀ r, r ≠ d.toNat → r < 20 ∨ 23 < r → rx (takeTask d id s) r = rx s r) := by
  have h := putTask_spec (t0 := takenBase id (boundSlot s) k s) (d := d) (n := k.count) (args := k.args)
    ((takenState_keeps _ _ _ _).2.trans hd) (noPort_same hp (takenState_keeps _ _ _ _).1)
  rw [← takeTask_eq hf hm] at h
  obtain ⟨hframe, hargs, hcount, hother⟩ := h
  exact ⟨hframe, hargs, hcount, fun r hr hr' => (hother r hr hr').trans (rx_takenState _ _ _ _ _)⟩

theorem takenBase_course (id j : Nat) (k : Task) (s : State) : SameCourse s (takenBase id j k s) := by
  unfold takenBase
  exact takenState_course (takenDev_spec id j k s).1 _ _

theorem takenBase_keeps (id j : Nat) (k : Task) (s : State) : (takenBase id j k s).thr.hid.damaged = s.thr.hid.damaged := by
  unfold takenBase
  exact (takenState_keeps _ _ _ _).2

theorem xFrame_keeps {s b u : State} (hb : SameCourse s b) (hd : b.thr.hid.damaged = []) (h : u = { b with thr.x := u.thr.x }) :
    SameCourse s u ∧ u.thr.hid.damaged = [] := by
  rw [h]
  exact ⟨hb.trans ⟨rfl, rfl, rfl, rfl, rfl⟩, hd⟩

theorem takeTask_course {s : State} {d : BitVec 5} {id : Nat} {k : Task} (hd : s.thr.hid.damaged = []) (hp : NoPort s [d.toNat])
    (hf : SMap.find s.dev.tasks id = some k) (hm : isTrio s = false ∨ s.cur.2 = 0) :
    SameCourse s (takeTask d id s) ∧ (takeTask d id s).thr.hid.damaged = [] :=
  xFrame_keeps (takenBase_course _ _ _ _) ((takenBase_keeps id (boundSlot s) k s).trans hd) (takeTask_spec hd hp hf hm).1

theorem setStream_course {s t : State} (h : SameCourse s t) (hd : t.thr.hid.damaged = []) (n : Nat) (st : Stream) :
    SameCourse s (setStream n st t) ∧ (setStream n st t).thr.hid.damaged = [] := by
  rw [setStream_whole hd rfl]
  exact ⟨h.trans ⟨rfl, rfl, rfl, rfl, rfl⟩, hd⟩

theorem loadStreams_course {s t : State} {id : Nat} {args : List Word} {bs : List Byte} (h : SameCourse s t) (hd : t.thr.hid.damaged = []) :
    SameCourse s (loadStreams id args bs t) := by
  unfold loadStreams
  dsimp only
  generalize mapEntries (bs.length / 72) (leNat bs) = l
  generalize (if t.slot.chain.isSome = true then 1 else t.cur.2) = role
  induction l generalizing t with
  | nil => exact h
  | cons e r ih =>
    rw [List.foldl_cons]
    by_cases hr : (e.role != role) = true
    · rw [if_pos hr]
      exact ih h hd
    · rw [if_neg hr]
      obtain ⟨h1, h2⟩ := setStream_course h hd e.sreg (if dLegal (mapDesc args e) then ⟨true, BitVec.ofNat 512 (mapDesc args e), 0, bindingOf t id e.sreg⟩ else Stream.empty)
      exact ih h1 h2

/-- The body of `tget` (R227). -/
theorem exec_tget {s : State} {d : BitVec 5} {r : Res} (hp : NoPort s [d.toNat])
    (hr : (if s.thr.hid.task.isSome then Res.trap 0x01 ((encode (.tget d)).setWidth 64) 0 s
      else match nextTask s with
        | .wait => .wait s
        | .never => .done (wx d.toNat (BitVec.allOnes 64) { s with
            slot.taken := if !(isTrio s && s.slot.chain.isNone && s.cur.2 != 0) then s.slot.taken ++ [0] else s.slot.taken
            thr.hid.tpos := s.thr.hid.tpos + 1, thr.sr.taskid := 0 })
        | .task id => match SMap.find s.dev.tasks id with
          | none => .wait s
          | some t =>
            if t.mapnote = 0 then .done (takeTask d id s)
            else match readMap s t.mapnote with
              | .trap c v v2 _ => .trap c (w64 v) (w64 (v2.getD 0)) s
              | .wait q => .wait (askFor q s)
              | .ok bs locs => .done (loadStreams id t.args bs (takeTask d id (afterLoad 15 locs s)))) = r) :
    ∃ n body, exec (.tget d) s = .next (run n s body) ∧ n.word = encode (.tget d) ∧ n.queued = false ∧ n.vs0 = false ∧ Ready n s ∧ body s = r := by
  refine ⟨_, _, rfl, rfl, rfl, rfl, ?_, hr⟩
  refine ⟨rfl, ?_, rfl, rfl, hp, ?_, ?_, ?_⟩ <;> simp

theorem afterLoad_tasks (c : Nat) (l : List Loc) (s : State) : (afterLoad c l s).dev = { s.dev with
    acnt := (afterLoad c l s).dev.acnt, ser := (afterLoad c l s).dev.ser, fab := (afterLoad c l s).dev.fab } := by
  have h1 : (countLoad c l s).dev = { s.dev with acnt := (countLoad c l s).dev.acnt, ser := (countLoad c l s).dev.ser } := by
    unfold countLoad
    dsimp only
    split <;> split <;> rfl
  unfold afterLoad
  rw [answered_frame]
  generalize (answered l (countLoad c l s)).dev.fab.reqs = q
  dsimp only
  rw [h1]

/-- `tget` (R227, R245, R285). -/
theorem tget_spec {s : State} {d : BitVec 5} (hc : Calm s) (hp : NoPort s [d.toNat]) :
    (s.thr.hid.task ≠ none → exec (.tget d) s = .next (takeTrap (encode (.tget d)) 0x01 s.thr.pc ((encode (.tget d)).setWidth 64) 0 s)) ∧
    (s.thr.hid.task = none →
      (nextTask s = .wait → exec (.tget d) s = .next (waitHere s)) ∧
      (nextTask s = .never → ∃ t, exec (.tget d) s = .next (retired (encode (.tget d)) (s.thr.pc + 4) (wx d.toNat (BitVec.allOnes 64) t)) ∧
        t = { s with slot.taken := t.slot.taken, thr.hid.tpos := s.thr.hid.tpos + 1, thr.sr.taskid := 0 }) ∧
      (∀ id k, nextTask s = .task id → SMap.find s.dev.tasks id = some k → isTrio s = false ∨ s.cur.2 = 0 →
        (k.mapnote = 0 → exec (.tget d) s = .next (retired (encode (.tget d)) (s.thr.pc + 4) (takeTask d id s))) ∧
        (∀ bs locs, k.mapnote ≠ 0 → readMap s k.mapnote = .ok bs locs →
          exec (.tget d) s = .next (retired (encode (.tget d)) (s.thr.pc + 4) (loadStreams id k.args bs (takeTask d id (afterLoad 15 locs s))))))) := by
  refine ⟨fun h => ?_, fun h => ⟨fun hw => ?_, fun hn => ?_, fun id k ht hf hm => ⟨fun h0 => ?_, fun bs locs h0 hread => ?_⟩⟩⟩
  · obtain ⟨n, body, he, hw, -, hv, hready, hb⟩ := exec_tget hp (if_pos (Option.isSome_iff_ne_none.mpr h))
    rw [he, run_trap hc hready hb, trapWord_at hv rfl, hw]
  all_goals have hnone : ¬ s.thr.hid.task.isSome = true := by rw [h]; decide
  · obtain ⟨n, body, he, -, -, -, hready, hb⟩ := exec_tget (r := .wait s) hp (by rw [if_neg hnone, hw])
    rw [he, run_wait hc hready hb]
  · obtain ⟨n, body, he, hw, hq, -, hready, hb⟩ := exec_tget hp ((if_neg hnone).trans (by rw [hn]))
    refine ⟨{ s with
      slot.taken := if !(isTrio s && s.slot.chain.isNone && s.cur.2 != 0) then s.slot.taken ++ [0] else s.slot.taken
      thr.hid.tpos := s.thr.hid.tpos + 1, thr.sr.taskid := 0 }, ?_, rfl⟩
    have hsame : SameCourse s { s with
      slot.taken := if !(isTrio s && s.slot.chain.isNone && s.cur.2 != 0) then s.slot.taken ++ [0] else s.slot.taken
      thr.hid.tpos := s.thr.hid.tpos + 1, thr.sr.taskid := 0 } := ⟨rfl, rfl, rfl, rfl, rfl⟩
    rw [he, run_done_unqueued hc hready hq hb (hsame.trans (wx_same (noPort_same hp rfl))), hw]
  · obtain ⟨n, body, he, hw, hq, -, hready, hb⟩ := exec_tget (r := .done (takeTask d id s)) hp (by rw [if_neg hnone, ht]; dsimp only; rw [hf]; exact if_pos h0)
    rw [he, run_done_unqueued hc hready hq hb (takeTask_course hc.whole hp hf hm).1, hw]
  · obtain ⟨n, body, he, hw, hq, -, hready, hb⟩ := exec_tget (r := .done (loadStreams id k.args bs (takeTask d id (afterLoad 15 locs s)))) hp
      (by rw [if_neg hnone, ht]; dsimp only; rw [hf]; dsimp only; rw [if_neg h0, hread])
    have hsame : SameCourse s (afterLoad 15 locs s) := afterLoad_same _ _ _
    have hfa : SMap.find (afterLoad 15 locs s).dev.tasks id = some k := by rw [afterLoad_tasks]; exact hf
    have hda : (afterLoad 15 locs s).thr.hid.damaged = [] := (afterLoad_damaged _ _ _).trans hc.whole
    have hma : isTrio (afterLoad 15 locs s) = false ∨ (afterLoad 15 locs s).cur.2 = 0 := by
      rw [show isTrio (afterLoad 15 locs s) = isTrio s by unfold isTrio; rw [hsame.cfg], hsame.cur]
      exact hm
    have hpa : NoPort (afterLoad 15 locs s) [d.toNat] := noPort_same hp hsame.cfg
    obtain ⟨hcourse, hwhole⟩ := takeTask_course hda hpa hfa hma
    rw [he, run_done_unqueued hc hready hq hb (loadStreams_course (hsame.trans hcourse) hwhole), hw]

theorem takenState_fields (dev : Device) (id : Nat) (w : Word) (s : State) : (takenState dev id w s).thr.hid.task = some id ∧
    (takenState dev id w s).thr.sr.taskid = w ∧ (takenState dev id w s).dev = dev ∧ (takenState dev id w s).slot.taken = s.slot.taken ++ [id] :=
  ⟨rfl, rfl, rfl, rfl⟩

theorem xFrame_fields {b u : State} (h : u = { b with thr.x := u.thr.x }) : u.thr.hid.task = b.thr.hid.task ∧ u.thr.sr.taskid = b.thr.sr.taskid ∧
    u.dev = b.dev ∧ u.slot = b.slot := by
  rw [h]
  exact ⟨rfl, rfl, rfl, rfl⟩

theorem takenBase_fields (id j : Nat) (k : Task) (s : State) : (takenBase id j k s).thr.hid.task = some id ∧
    (takenBase id j k s).thr.sr.taskid = w64 (j * 2 ^ 48 + id % 2 ^ 48) ∧ (takenBase id j k s).dev = takenDev id j k s ∧
    (takenBase id j k s).slot.taken = s.slot.taken ++ [id] := by
  unfold takenBase
  exact takenState_fields _ _ _ _

/-- What the thread and the device hold of a taken task. -/
theorem takeTask_fields {s : State} {d : BitVec 5} {id : Nat} {k : Task} (hd : s.thr.hid.damaged = []) (hp : NoPort s [d.toNat])
    (hf : SMap.find s.dev.tasks id = some k) (hm : isTrio s = false ∨ s.cur.2 = 0) : (takeTask d id s).thr.hid.task = some id ∧
    (takeTask d id s).thr.sr.taskid = w64 (boundSlot s * 2 ^ 48 + id % 2 ^ 48) ∧ (∀ x ∈ (takeTask d id s).dev.l1d, x.core ≠ coreOf s) ∧
    (takeTask d id s).slot.taken = s.slot.taken ++ [id] ∧
    (SMap.find (takeTask d id s).dev.tasks id).map (fun x => (x.st, x.took)) = some (3, k.took ++ [boundSlot s]) := by
  obtain ⟨f1, f2, f3, f4⟩ := xFrame_fields (takeTask_spec hd hp hf hm).1
  obtain ⟨h1, h2, h3, h4⟩ := takenBase_fields id (boundSlot s) k s
  obtain ⟨-, htask, hlines⟩ := takenDev_spec id (boundSlot s) k s
  rw [f1, f2, f3, f4, h1, h2, h3, h4, htask]
  exact ⟨rfl, rfl, hlines, rfl, rfl⟩

/-! ## `tdone` and `tdone.c` (R228) -/

theorem exec_tdone {s : State} (hc : Calm s) (leave : Bool) :
    exec (if leave then .tdone else .tdoneC) s = .next (retired (encode (if leave then .tdone else .tdoneC)) (s.thr.pc + 4) { s with
      thr.pnd.finishes := s.thr.pnd.finishes ++ [⟨s.thr.hid.task, leave, s.dev.ser, s.thr.pc⟩], thr.hid.task := none
      thr.live := s.thr.live && !leave }) := by
  have hready : ∀ w, Ready { word := w, drain := true } s := fun w => by
    refine ⟨rfl, ?_, rfl, rfl, noPort_nil s, ?_, ?_, ?_⟩ <;> simp
  cases leave
  · exact congrArg _ (run_done_unqueued (t := pushFinish false s) hc (hready _) rfl rfl ⟨rfl, rfl, rfl, rfl, rfl⟩)
  · exact congrArg _ (run_done_unqueued (t := pushFinish true s) hc (hready _) rfl rfl ⟨rfl, rfl, rfl, rfl, rfl⟩)

/-! ## A finish takes effect (R225, R228, R338, R339) -/

theorem finishReady_of {s : State} {f : Finish} (hs : ∀ p ∈ s.thr.pnd.stores, p.fence = 0 → f.upto < p.ser)
    (hq : ∀ q, q < 5 → ∀ e ∈ queueOf s.slot q, e.op = .marker ∨ e.role ≠ s.cur.2 ∨ f.upto ≤ e.since) : finishReady s f = true := by
  unfold finishReady
  rw [Bool.and_eq_true]
  constructor
  · rw [Bool.not_eq_true', List.any_eq_false]
    intro p hp
    simp only [Bool.and_eq_true, decide_eq_true_eq, not_and, Nat.not_le]
    exact hs p hp
  · rw [List.all_eq_true]
    intro q hmem
    rw [Bool.not_eq_true', List.any_eq_false]
    intro e he
    simp only [Bool.and_eq_true, bne_iff_ne, decide_eq_true_eq]
    rintro ⟨⟨h1, h2⟩, h3⟩
    rcases hq q (by have := mem_upFrom.mp hmem; omega) e he with h | h | h
    · exact h1 h
    · exact h h2
    · omega

theorem finishPart_keeps (f : Finish) (s : State) : (finishPart f s).thr = s.thr ∧ (finishPart f s).slot = s.slot ∧ (finishPart f s).cur = s.cur := by
  unfold finishPart
  split <;> exact ⟨rfl, rfl, rfl⟩

theorem settleGroup_gone (g : Nat) (l : Launch) : (settleGroup g l).gone = l.gone := by
  unfold settleGroup
  split <;> rfl

/-- A thread that leaves its launch is gone from it. -/
theorem leaveGroups_gone (key : Nat) (l : Launch) : (leaveGroups key l).gone.contains key = true := by
  have hkeep : ∀ (gs : List Nat) (l : Launch), (gs.foldl (fun l g => settleGroup g l) l).gone = l.gone := fun gs => by
    induction gs with
    | nil => exact fun _ => rfl
    | cons g r ih => exact fun l => (ih _).trans (settleGroup_gone g l)
  unfold leaveGroups
  dsimp only
  rw [hkeep]
  by_cases h : l.gone.contains key = true
  · rw [if_pos h, h]
  · rw [if_neg h]
    simp

theorem takeFinish_stays {s : State} {f : Finish} {r : List Finish} (h : s.thr.pnd.finishes = f :: r) (hready : finishReady s f = true)
    (hl : f.leave = false) : takeFinish s = onDevice (checkBoth (ownLaunch s)) (finishPart f { s with thr.pnd.finishes := r }) := by
  unfold takeFinish
  rw [h]
  dsimp only
  rw [hready, hl]
  rfl

theorem takeFinish_leaves {s : State} {f : Finish} {r : List Finish} {l : Launch} (h : s.thr.pnd.finishes = f :: r) (hready : finishReady s f = true)
    (hl : f.leave = true) (hlast : lastOfSlot { s with thr.pnd.finishes := r } = false)
    (hf : SMap.find (finishPart f { s with thr.pnd.finishes := r }).dev.launches (ownLaunch (finishPart f { s with thr.pnd.finishes := r })) = some l) :
    takeFinish s = onDevice (checkBoth (ownLaunch (finishPart f { s with thr.pnd.finishes := r }))) { finishPart f { s with thr.pnd.finishes := r } with
      dev.launches := SMap.put (finishPart f { s with thr.pnd.finishes := r }).dev.launches (ownLaunch (finishPart f { s with thr.pnd.finishes := r }))
        (leaveGroups (ownKey (finishPart f { s with thr.pnd.finishes := r })) l) } := by
  obtain ⟨hthr, hslot, hcur⟩ := finishPart_keeps f { s with thr.pnd.finishes := r }
  have htake : takeFinish s = leaveLaunch (finishPart f { s with thr.pnd.finishes := r }) := by
    unfold takeFinish
    rw [h]
    dsimp only
    rw [hready, hl, hlast]
    rfl
  rw [htake]
  have hlast' : lastOfSlot (finishPart f { s with thr.pnd.finishes := r }) = false := by
    unfold lastOfSlot
    rw [hslot, hcur]
    exact hlast
  generalize finishPart f { s with thr.pnd.finishes := r } = v at hf hlast' ⊢
  unfold leaveLaunch mapLaunch
  dsimp only
  rw [hlast', hf]
  rfl

/-! ## A finished task is DONE (R225) -/

/-- The task is DONE. -/
def TaskDone (id : Nat) (d : Device) : Prop := ∃ t, SMap.find d.tasks id = some t ∧ t.st = 4

theorem taskDone_homes {id : Nat} {d e : Device} (h : Homes d e) (ht : TaskDone id d) : TaskDone id e := by
  unfold TaskDone at *
  rw [h.frame]
  exact ht

theorem taskDone_release {id : Nat} {d : Device} (ht : TaskDone id d) : TaskDone id (releaseAll d) := by
  unfold releaseAll
  generalize d.tasks = l
  induction l generalizing d with
  | nil => exact ht
  | cons p r ih =>
    rw [List.foldl_cons]
    refine ih ?_
    cases hf : SMap.find d.tasks p.1 with
    | none => exact ht
    | some t =>
      dsimp only
      by_cases hc : (t.st = 1 && predZero d t) = true
      · rw [if_pos hc]
        obtain ⟨k, hk, hst⟩ := ht
        have hne : id ≠ p.1 := fun e => by
          rw [e, hf] at hk
          rw [Bool.and_eq_true, decide_eq_true_eq, Option.some.inj hk, hst] at hc
          exact absurd hc.1 (by decide)
        exact ⟨k, by rw [find_setTaskState hf, if_neg hne]; exact hk, hst⟩
      · rw [if_neg hc]
        exact ht

theorem taskDone_decrement {id c tcb : Nat} {d : Device} (ht : TaskDone id d) : TaskDone id (decrementPred c tcb d) := by
  unfold decrementPred
  split
  · exact ht
  · exact taskDone_release (taskDone_homes (homes_ctxWriteOr _ _ _ _ _) ht)

theorem completeTask_done {id : Nat} {d : Device} {t : Task} (hf : SMap.find d.tasks id = some t) : TaskDone id (completeTask id d) := by
  have hstart : TaskDone id (setTaskState id 4 d) := ⟨{ t with st := 4 }, by rw [find_setTaskState hf, if_pos rfl], rfl⟩
  unfold completeTask
  rw [hf]
  dsimp only
  split
  · exact hstart
  · generalize upFrom 0 t.nsucc = l
    generalize setTaskState id 4 d = e at hstart
    induction l generalizing e with
    | nil => exact hstart
    | cons i r ih =>
      rw [List.foldl_cons]
      refine ih _ ?_
      split
      · exact taskDone_decrement hstart
      · exact hstart

/-- A thread's part of a task finished (R225, R339). -/
theorem finishTask_spec {id cfg j key : Nat} {d : Device} {t : Task} {l : Launch} (hf : SMap.find d.tasks id = some t)
    (hl : SMap.find d.launches t.launch = some l) (hst : t.st = 3) (hj : j ∉ t.fin) {thrs : List Nat}
    (hthrs : thrs = if t.finThr.contains key then t.finThr else t.finThr ++ [key]) :
    (¬ (∀ k ∈ slotKeys cfg j, k ∈ thrs) → finishTask id cfg j key d = { d with tasks := SMap.put d.tasks id { t with finThr := thrs } }) ∧
    ((∀ k ∈ slotKeys cfg j, k ∈ thrs) → l.tasks.length ≠ 1 ∨ (∀ m, m < l.nslot → m ∈ t.fin ++ [j]) →
      (SMap.find (finishTask id cfg j key d).tasks id).map (·.st) = some 4) := by
  have hguard : (t.st != 3 || t.fin.contains j) = false := by simp [hst, hj]
  have hall : (slotKeys cfg j).all thrs.contains = true ↔ ∀ k ∈ slotKeys cfg j, k ∈ thrs := by simp [List.all_eq_true]
  unfold finishTask
  rw [hf]
  dsimp only
  rw [hguard, ← hthrs]
  refine ⟨fun h => ?_, fun h hwhole => ?_⟩
  · have hn : (slotKeys cfg j).all thrs.contains = false := by rw [← Bool.not_eq_true]; exact fun hc => h (hall.mp hc)
    rw [hn]
    rfl
  · rw [hall.mpr h]
    have hcond : (l.tasks.length != 1 || (upFrom 0 l.nslot).all (t.fin ++ [j]).contains) = true := by
      rw [Bool.or_eq_true, bne_iff_ne, List.all_eq_true]
      refine hwhole.imp_right (fun h m hm => ?_)
      rw [List.contains_iff_mem]
      exact h m (by have := mem_upFrom.mp hm; omega)
    have hl' : SMap.find (setTask id { t with finThr := thrs, fin := t.fin ++ [j] } d).launches t.launch = some l := hl
    rw [if_neg Bool.false_ne_true, Bool.not_true, if_neg Bool.false_ne_true, hl']
    dsimp only
    rw [if_pos hcond]
    obtain ⟨x, hx, hxs⟩ := completeTask_done (id := id) (d := setTask id { t with finThr := thrs, fin := t.fin ++ [j] } d)
      (t := { t with finThr := thrs, fin := t.fin ++ [j] }) (by
        show SMap.find (SMap.put d.tasks id _) id = _
        rw [SMap.find_put, if_pos rfl])
    rw [hx]
    exact congrArg some hxs

/-- Settles O50: the words follow the task that comes next, and a finish takes effect when what it waits for is done. -/
theorem taskWords : Obligations.TaskWords := by
  refine ⟨fun s d hc hp => ?_, fun s => ?_, fun id cfg j key d t l hf hl hst hj => ?_⟩
  · obtain ⟨hheld, hfree⟩ := tget_spec hc hp
    refine ⟨hheld, fun h0 => ?_, fun leave => exec_tdone hc leave⟩
    obtain ⟨hwait, hnever, htake⟩ := hfree h0
    refine ⟨hwait, hnever, fun id k hn hf hm => ?_⟩
    obtain ⟨hplain, hmap⟩ := htake id k hn hf hm
    obtain ⟨-, hargs, hcount, hother⟩ := takeTask_spec hc.whole hp hf hm
    intro j u
    have hj : j = boundSlot s := rfl
    rw [hj]
    exact ⟨hplain, hmap, hargs, hcount, hother, takeTask_fields hc.whole hp hf hm⟩
  · intro u f r hfin hs hq v
    have hready := finishReady_of hs hq
    refine ⟨fun hl => ?_, fun hl hlast l hfl => ⟨?_, leaveGroups_gone _ l⟩⟩
    · exact congrArg (fun t : State => Host.Outcome.next (focus t s.cur.1 s.cur.2)) (takeFinish_stays hfin hready hl)
    · exact congrArg (fun t : State => Host.Outcome.next (focus t s.cur.1 s.cur.2)) (takeFinish_leaves hfin hready hl hlast hfl)
  · intro thrs
    exact finishTask_spec hf hl hst hj rfl

end Sys2Proof.Machine
end

section
/-! PROOFS. `tlaunch` and `tlaunch.w` (O51): up to a full pool the two are one word, and what they offer is a launch of the thread's queue. -/

namespace Sys2Proof.Machine

/-- The body of both words (R230). -/
def launchBody (d a : BitVec 5) (full : State → Res) (s : State) : Res :=
  let ea := (xr s a).toNat
  if ea % 128 ≠ 0 then .trap cAlign (xr s a) 0 s
  else match loadBytes { s with thr.sr.watch := [] } 15 1 (ea + 4) 124 with
    | .trap c v v2 _ => .trap c (w64 v) (w64 (v2.getD 0)) s
    | .wait q => .wait (askFor q s)
    | .ok bs locs =>
      if poolFull s.dev then full s
      else if s.thr.pnd.stores.any (fun p => p.fence = 0) then .wait s
      else .done (wx d.toNat 0 (offerTcb ea bs (afterLoad 15 locs s)))

/-- A word is one of the two, with what it does when the pool is full. -/
def IsLaunch (d a : BitVec 5) (w : Instr) (full : State → Res) : Prop :=
  ∀ s, exec w s = .next (run { word := encode w, xr := [a.toNat], xw := [d.toNat] } s (launchBody d a full))

theorem isLaunch_tlaunch (d a : BitVec 5) : IsLaunch d a (.tlaunch d a) (fun s => .done (wx d.toNat 1 s)) := fun _ => rfl

theorem isLaunch_tlaunchW (d a : BitVec 5) :
    IsLaunch d a (.tlaunchW d a) (fun s => if saveReady s s.slot then .final (beginSave .waiter s) else .wait s) := fun _ => rfl

theorem isLaunch_of {d a : BitVec 5} {w : Instr} (h : w = .tlaunch d a ∨ w = .tlaunchW d a) : ∃ full, IsLaunch d a w full := by
  rcases h with rfl | rfl
  · exact ⟨_, isLaunch_tlaunch d a⟩
  · exact ⟨_, isLaunch_tlaunchW d a⟩

/-- The words that end where they stand: nothing retires and the state is the body's. -/
theorem run_final {s t : State} {n : Need} {body : State → Res} (hc : Calm s) (h : Ready n s) (hb : body s = .final t) : run n s body = t := by
  rw [run_ready hc h, hb]
  rfl

theorem launchBody_passed {s : State} {d a : BitVec 5} {full : State → Res} {bs : List Byte} {locs : List Loc} (hal : (xr s a).toNat % 128 = 0)
    (hl : loadBytes { s with thr.sr.watch := [] } 15 1 ((xr s a).toNat + 4) 124 = .ok bs locs) : launchBody d a full s =
      if poolFull s.dev then full s else if s.thr.pnd.stores.any (fun p => p.fence = 0) then .wait s
      else .done (wx d.toNat 0 (offerTcb (xr s a).toNat bs (afterLoad 15 locs s))) := by
  unfold launchBody
  dsimp only
  rw [if_neg (by rw [hal]; decide), hl]

/-- What the thread offers: the launch is its context's and its queue's, and its block is what was captured behind PRED. -/
theorem offerTcb_spec {s u : State} {ea : Nat} {bs : List Byte} (hthr : u.thr.sr.taskid = s.thr.sr.taskid) (hslot : u.slot = s.slot) (hcur : u.cur = s.cur)
    (hdev : u.dev = { s.dev with acnt := u.dev.acnt, ser := u.dev.ser, fab := u.dev.fab }) :
    ∃ l, offerTcb ea bs u = { u with
        dev.launches := SMap.put s.dev.launches s.dev.nextId l, dev.nextId := s.dev.nextId + 1, dev.ser := (offerTcb ea bs u).dev.ser } ∧
      l.phase = 0 ∧ l.fromPool = true ∧ l.ctx = s.slot.ctx ∧ l.queue = ownQueue s ∧ l.acct = acctOf s ∧ l.tcbs = [ea] ∧
      l.block = BitVec.ofNat 1024 (leNat bs * 2 ^ 32) := by
  have hla : u.dev.launches = s.dev.launches := by rw [hdev]
  have hni : u.dev.nextId = s.dev.nextId := by rw [hdev]
  have hta : u.dev.tasks = s.dev.tasks := by rw [hdev]
  have hch : u.dev.chains = s.dev.chains := by rw [hdev]
  have hchain : chainOf u = chainOf s := by
    unfold chainOf
    rw [hslot, hch]
  have hown : ownLaunch u = ownLaunch s := by
    unfold ownLaunch
    rw [hchain, hslot, hcur]
  have hqueue : ownQueue u = ownQueue s := by
    unfold ownQueue
    rw [hown, hla]
  have hacct : acctOf u = acctOf s := by
    unfold acctOf launchOf
    rw [hslot, hta, hla, hthr]
  refine ⟨{ Launch.offered u.slot.ctx (ownQueue u) u.dev.ser (acctOf u) with
    fromPool := true, tcbs := [ea], block := BitVec.ofNat 1024 (leNat bs * 2 ^ 32) }, ?_, rfl, rfl, by rw [← hslot]; rfl, hqueue, hacct, rfl, rfl⟩
  rw [← hla, ← hni]
  rfl

theorem offerTcb_course {s : State} {ea : Nat} {bs : List Byte} : SameCourse s (offerTcb ea bs s) := ⟨rfl, rfl, rfl, rfl, rfl⟩

/-- Settles O51: the address, the read, the pool and the earlier stores decide in this order. -/
theorem launchWords : Obligations.LaunchWords := by
  intro s d a hc hp i j ea
  have hready : ∀ w, Ready { word := w, xr := [a.toNat], xw := [d.toNat] } s := fun w => ready_scalar (hp.of_mem (by simp [or_comm]))
  have hd : NoPort s [d.toNat] := hp.of_mem (by simp)
  refine ⟨fun hal w hw => ?_, fun bs locs hal hl => ⟨fun hfull => ⟨?_, ?_⟩, fun hroom w hw => ⟨fun hst => ?_, fun hst => ?_⟩⟩⟩
  · obtain ⟨full, hex⟩ := isLaunch_of hw
    rw [hex, run_trap (t := s) (c := 0x0C) (v := xr s a) (v2 := 0) hc (hready _) (if_pos hal), trapWord_at rfl rfl]
  · rw [isLaunch_tlaunch d a s, run_done_unqueued (t := wx d.toNat 1 s) hc (hready _) rfl ?_ (wx_same hd)]
    rw [launchBody_passed hal hl, if_pos hfull]
  · rw [isLaunch_tlaunchW d a s]
    have hbody := launchBody_passed (d := d) (full := fun s => if saveReady s s.slot then .final (beginSave .waiter s) else .wait s) hal hl
    rw [if_pos hfull] at hbody
    have hsave : beginSave .waiter s = { s with slot.st := .saving, slot.save := some .waiter, slot.wdog := 0 } := by
      unfold beginSave
      rw [hc.chain]
      rfl
    by_cases hs : saveReady s s.slot = true
    · rw [if_pos hs] at hbody ⊢
      rw [run_final hc (hready _) hbody, hsave]
    · rw [if_neg hs] at hbody ⊢
      rw [run_wait hc (hready _) hbody]
  · obtain ⟨full, hex⟩ := isLaunch_of hw
    have hany : s.thr.pnd.stores.any (fun p => p.fence = 0) = true := by
      obtain ⟨p, hp, hf⟩ := hst
      exact List.any_eq_true.mpr ⟨p, hp, decide_eq_true hf⟩
    rw [hex, run_wait (t := s) hc (hready _) (by rw [launchBody_passed hal hl, hroom, hany]; rfl)]
  · obtain ⟨full, hex⟩ := isLaunch_of hw
    have hany : s.thr.pnd.stores.any (fun p => p.fence = 0) = false := by
      rw [List.any_eq_false]
      intro p hp
      simpa using hst p hp
    have hsame : SameCourse s (afterLoad 15 locs s) := afterLoad_same _ _ _
    have hframe := afterLoad_frame 15 locs s
    obtain ⟨l, ho, hfields⟩ := offerTcb_spec (s := s) (u := afterLoad 15 locs s) (ea := ea) (bs := bs) (by rw [hframe]) (by rw [hframe])
      (by rw [hframe]) (afterLoad_tasks 15 locs s)
    refine ⟨offerTcb ea bs (afterLoad 15 locs s), l, ?_, ho, hfields⟩
    have hcourse := hsame.trans (offerTcb_course (s := afterLoad 15 locs s) (ea := ea) (bs := bs))
    rw [hex, run_done_unqueued hc (hready _) rfl (by rw [launchBody_passed hal hl, hroom, hany]; rfl) (hcourse.trans (wx_same (noPort_same hd hcourse.cfg)))]

end Sys2Proof.Machine
end

section
/-! PROOFS. `susp`, `resm` and `cdisc` (O52): what each does with the reads it has made, and the one store with which a cutting changes its STATE. -/

namespace Sys2Proof.Machine

/-! ## SUSP -/

/-- The word with what it asks for and does. -/
def suspNeed (w : BitVec 32) (d a b : BitVec 5) (s : State) : Need :=
  { word := w, xr := [a.toNat, b.toNat], regOk := !(isTrio s && 28 ≤ d.toNat), drain := true }

theorem ready_susp {s : State} {w : BitVec 32} {d a b : BitVec 5} (h : NoPort s [d.toNat, a.toNat, b.toNat]) : Ready (suspNeed w d a b s) s := by
  have hd : (!(isTrio s && decide (28 ≤ d.toNat))) = true := by
    rcases h with h | h
    · rw [h]
      rfl
    · have := h d.toNat (by simp)
      rw [decide_eq_false (by omega), Bool.and_false]
      rfl
  refine ⟨rfl, ?_, rfl, hd, h.of_mem (by simp [suspNeed]), ?_, ?_, ?_⟩ <;> simp [suspNeed]

theorem mapLaunch_frame (id : Nat) (f : Launch → Launch) (d : Device) : mapLaunch id f d = { d with launches := (mapLaunch id f d).launches } := by
  unfold mapLaunch
  split <;> rfl

theorem find_mapLaunch {id : Nat} {f : Launch → Launch} {d : Device} {l : Launch} (h : SMap.find d.launches id = some l) (j : Nat) :
    SMap.find (mapLaunch id f d).launches j = if j = id then some (f l) else SMap.find d.launches j := by
  unfold mapLaunch
  rw [h]
  exact SMap.find_put _ _ _ _

/-- A `susp` counts its thread once more. -/
theorem suspCount_countSusp (g key ea : Nat) (l : Launch) : suspCount (countSusp g key ea l) g key = suspCount l g key + 1 := by
  have h : (countSusp g key ea l).suspN = SMap.set 0 l.suspN (2048 * g + key) (suspCount l g key + 1) := by
    unfold countSusp
    dsimp only
    split <;> rfl
  unfold suspCount at h ⊢
  rw [h, SMap.get_set_self]

/-- The state in which a thread has reached its `susp`. -/
def suspended (d a b : BitVec 5) (g : BitVec 8) (s : State) : State := { s with
  thr.pnd.susp := some ⟨(xr s a).toNat, xr s b, g.toNat, d.toNat, s.thr.pc⟩
  thr.pnd.blocked := false
  dev := mapLaunch s.slot.launch (countSusp g.toNat (ownKey s) (xr s a).toNat) s.dev }

theorem suspended_frame (d a b : BitVec 5) (g : BitVec 8) (s : State) : suspended d a b g s = { s with
    thr.pnd.susp := some ⟨(xr s a).toNat, xr s b, g.toNat, d.toNat, s.thr.pc⟩, thr.pnd.blocked := false,
    dev.launches := (suspended d a b g s).dev.launches } := by
  have h := mapLaunch_frame s.slot.launch (countSusp g.toNat (ownKey s) (xr s a).toNat) s.dev
  exact congrArg (fun e : Device => ({ s with
    thr.pnd.susp := some ⟨(xr s a).toNat, xr s b, g.toNat, d.toNat, s.thr.pc⟩, thr.pnd.blocked := false, dev := e } : State)) h

theorem exec_susp (d a b : BitVec 5) (g : BitVec 8) (s : State) :
    ∃ body, exec (.susp d a b g) s = .next (run (suspNeed (encode (.susp d a b g)) d a b s) s body) ∧
      body s = if (xr s a).toNat % 256 ≠ 0 then .trap 0x0C (xr s a) 0 s
        else if !isMember s g.toNat then .trap 0x04 ((encode (.susp d a b g)).setWidth 64) 0 s
        else if (xr s b).toNat / 2 ^ 48 % 2 ^ 15 ≠ 0 then .trap 0x01 ((encode (.susp d a b g)).setWidth 64) (xr s b) s
        else .final (suspended d a b g s) := by
  refine ⟨_, rfl, ?_⟩
  rw [← bits_div]
  rfl

/-! ## STATE of a cutting -/

/-- The state once STATE of the cutting is stored. -/
def cutStored (locs : List Loc) (st : Nat) (s : State) : State := answered locs
  { s with dev := performBytes (writerOf s 0 s.thr.sr.taskid) s.slot.acct 1 (wholeBytes (locs.map (·.key)) (leBytes 8 st)) s.dev }

theorem setCutState_ok {s : State} {ea st : Nat} {locs : List Loc} {f : State → Res}
    (hc : checkAccess { s with thr.sr.watch := [] } true 8 (ea + 8) 8 = .ok locs)
    (hr : (∀ x ∈ locs, x.kind ≠ .remote) ∨ farAccess s 15 false false locs = .ready) : setCutState ea st s f = f (cutStored locs st s) := by
  unfold setCutState
  rw [hc]
  show (if _ then _ else _) = _
  by_cases hany : (locs.any fun l => decide (l.kind = .remote)) = true
  · rw [if_pos hany]
    rcases hr with hr | hr
    · obtain ⟨x, hx, hk⟩ := List.any_eq_true.mp hany
      exact absurd (of_decide_eq_true hk) (hr x hx)
    · rw [hr]
      rfl
  · rw [if_neg hany]
    rfl

/-- The store of STATE changes what a write at the homes changes, and the requests that it has had answered. -/
theorem cutStored_frame (locs : List Loc) (st : Nat) (s : State) : ∃ e q, Homes s.dev e ∧ cutStored locs st s = { s with
    dev := { e with fab.reqs := q } } :=
  ⟨_, _, homes_performBytes _ _ _ _ _, answered_frame _ _⟩

/-- What reads after the store leave alone. -/
def afterCut (l : List Loc) (locs : List Loc) (st : Nat) (s : State) : State := afterLoad 15 l (cutStored locs st s)

theorem afterCut_course (l locs : List Loc) (st : Nat) (s : State) : SameCourse s (afterCut l locs st s) := by
  obtain ⟨e, q, he, hf⟩ := cutStored_frame locs st s
  have h : SameCourse s (cutStored locs st s) := by
    rw [hf]
    refine ⟨rfl, rfl, rfl, rfl, ?_⟩
    show e.dbg = _
    rw [he.frame]
  exact h.trans (afterLoad_same _ _ _)

/-- The bytes of STATE read back. -/
theorem afterCut_reads {l locs : List Loc} {st : Nat} {s : State} (hlen : locs.length = 8) (hr : s.dev.retire = []) (hw : s.dev.mwatch = [])
    (hn : (locs.map (·.key)).Nodup) : locs.map (fun x => readByte (afterCut l locs st s).dev x.key) = leBytes 8 st := by
  have hl : (leBytes 8 st).length = (locs.map (·.key)).length := by rw [length_leBytes, List.length_map, hlen]
  have h := (readByte_performWhole (wr := writerOf s 0 s.thr.sr.taskid) (acct := s.slot.acct) (op := 1) hl hn hr hw).1
  have hread : ∀ k, readByte (afterCut l locs st s).dev k =
      readByte (performBytes (writerOf s 0 s.thr.sr.taskid) s.slot.acct 1 (wholeBytes (locs.map (·.key)) (leBytes 8 st)) s.dev) k := fun k => by
    unfold afterCut
    rw [afterLoad_tasks]
    show readByte (cutStored locs st s).dev k = _
    unfold cutStored
    rw [answered_frame]
    rfl
  have hmap := map_readByte_written (d := (afterCut l locs st s).dev) (locs := locs) (v := st) fun j x hx => by
    have hj : j < 8 := hlen ▸ (List.getElem?_eq_some_iff.mp hx).1
    rw [hread]
    exact h j x.key _ (by rw [List.getElem?_map, hx]; rfl) (getElem?_leBytes hj)
  rw [hmap, hlen]

/-! ## RESM and CDISC -/

/-- What `resm` does once its reads are made: the checks of R347, and the claim. -/
def resmEnd (d a b : BitVec 5) (s : State) (hb : List Byte) (granted : List Nat) (bs : List Byte) (l : List Loc) : Res :=
  match checkCut s (leNat hb) granted with
  | some (c, v2) => .trap c (xr s a) (w64 v2) s
  | none =>
    if crc32c (crcBytes bs) ≠ bfield (leNat hb) 44 4 then .trap 0x24 (xr s a) 0 s
    else if poolFull s.dev then .done (wx d.toNat 1 (afterLoad 15 l s))
    else setCutState (xr s a).toNat 3 s (fun t => .done (wx d.toNat 0 (admitResumed (xr s a).toNat (leNat hb) (xr s b).toNat (afterLoad 15 l t))))

theorem gotRes_ok (bs : List Byte) (l : List Loc) (s : State) (f : List Byte → List Loc → Res) : gotRes (.ok bs l) s f = f bs l := rfl

/-- The grant list that a header leads to. -/
theorem grantList_ok {s : State} {h : Nat} {granted : List Nat} {l : List Loc} {f : List Nat → List Loc → Res}
    (hg : (h / 2 ^ 192 % 2 ^ 64 = 0 ∧ granted = [] ∧ l = []) ∨ (h / 2 ^ 192 % 2 ^ 64 ≠ 0 ∧ ∃ cs lc gs lg, cutLoad s (h / 2 ^ 192 % 2 ^ 64) 8 = .ok cs lc ∧
      cutLoad s (h / 2 ^ 192 % 2 ^ 64 + 8) (2 * min 4096 (leNat (cs.take 4))) = .ok gs lg ∧ granted = listDevs gs ∧ l = lc ++ lg)) :
    grantList s h f = f granted l := by
  have ha : bfield h 24 8 = h / 2 ^ 192 % 2 ^ 64 := bits_div _ _ _
  unfold grantList
  rw [ha]
  rcases hg with ⟨h0, rfl, rfl⟩ | ⟨h0, cs, lc, gs, lg, h1, h2, rfl, rfl⟩
  · exact if_pos h0
  · dsimp only
    rw [if_neg h0, h1]
    show gotRes (cutLoad s _ _) s _ = _
    rw [h2]
    rfl

/-- The launch that a claimed cutting leads to is in the pool. -/
theorem admitResumed_spec (ea h sig : Nat) (s : State) : ∃ l, SMap.find (admitResumed ea h sig s).dev.launches s.dev.nextId = some l ∧
    l.phase = 1 ∧ l.nslot = h / 2 ^ 176 % 2 ^ 16 ∧ l.cutting = some ea ∧ l.sig = sig ∧ l.ctx = s.slot.ctx := by
  have hn : bfield h 22 2 = h / 2 ^ 176 % 2 ^ 16 := bits_div _ _ _
  obtain ⟨r, hr⟩ : ∃ r, r = resumedLaunch s ea h sig := ⟨_, rfl⟩
  have hfields : r.phase = 1 ∧ r.nslot = h / 2 ^ 176 % 2 ^ 16 ∧ r.cutting = some ea ∧ r.sig = sig ∧ r.ctx = s.slot.ctx := by
    rw [hr]
    exact ⟨rfl, hn, rfl, rfl, rfl⟩
  have hput : SMap.find (setLaunch s.dev.nextId r s.dev).launches s.dev.nextId = some r := (SMap.find_put _ _ _ _).trans (if_pos rfl)
  have hdev : (admitResumed ea h sig s).dev.launches = (match r.orig with
      | some o => mapLaunch o (fun x => { x with children := x.children ++ [s.dev.nextId] }) (setLaunch s.dev.nextId r s.dev)
      | none => setLaunch s.dev.nextId r s.dev).launches := by
    rw [hr]
    rfl
  rw [hdev]
  cases ho : r.orig with
  | none => exact ⟨r, hput, hfields⟩
  | some o =>
    show ∃ l, SMap.find (mapLaunch o (fun x => { x with children := x.children ++ [s.dev.nextId] }) (setLaunch s.dev.nextId r s.dev)).launches s.dev.nextId = some l ∧ _
    cases hl : SMap.find (setLaunch s.dev.nextId r s.dev).launches o with
    | none =>
      refine ⟨r, ?_, hfields⟩
      unfold mapLaunch
      rw [hl]
      exact hput
    | some q =>
      rw [find_mapLaunch hl]
      by_cases he : s.dev.nextId = o
      · rw [if_pos he]
        rw [← he, hput] at hl
        cases hl
        exact ⟨_, rfl, hfields⟩
      · rw [if_neg he]
        exact ⟨r, hput, hfields⟩

theorem admitResumed_course (ea h sig : Nat) (s : State) : SameCourse s (admitResumed ea h sig s) := by
  refine ⟨rfl, rfl, rfl, rfl, ?_⟩
  unfold admitResumed
  dsimp only
  split
  · rw [mapLaunch_frame]
    rfl
  · rfl

theorem admitResumed_reads (ea h sig : Nat) (s : State) (k : Nat) : readByte (admitResumed ea h sig s).dev k = readByte s.dev k := by
  unfold admitResumed
  dsimp only
  split
  · rw [mapLaunch_frame]
    rfl
  · rfl

/-- The words with a readable header. -/
theorem exec_resm_read {s : State} {d a b : BitVec 5} {hb bs : List Byte} {l1 l2 l3 : List Loc} {granted : List Nat}
    (hal : (xr s a).toNat % 256 = 0) (h1 : cutLoad s (xr s a).toNat 256 = .ok hb l1)
    (hg : (leNat hb / 2 ^ 192 % 2 ^ 64 = 0 ∧ granted = [] ∧ l3 = []) ∨ (leNat hb / 2 ^ 192 % 2 ^ 64 ≠ 0 ∧ ∃ cs lc gs lg,
      cutLoad s (leNat hb / 2 ^ 192 % 2 ^ 64) 8 = .ok cs lc ∧
      cutLoad s (leNat hb / 2 ^ 192 % 2 ^ 64 + 8) (2 * min 4096 (leNat (cs.take 4))) = .ok gs lg ∧ granted = listDevs gs ∧ l3 = lc ++ lg))
    (h2 : cutLoad s (xr s a).toNat (leNat hb / 2 ^ 384 % 2 ^ 64) = .ok bs l2) :
    ∃ body, exec (.resm d a b) s = .next (run { word := encode (.resm d a b), xr := [a.toNat, b.toNat], xw := [d.toNat] } s body) ∧
      body s = resmEnd d a b s hb granted bs (l1 ++ l3 ++ l2) := by
  refine ⟨_, rfl, ?_⟩
  rw [if_neg (by rw [hal]; decide), h1]
  rw [gotRes_ok]
  dsimp only
  rw [grantList_ok hg, show bfield (leNat hb) 48 8 = leNat hb / 2 ^ 384 % 2 ^ 64 from bits_div _ _ _, h2]
  rfl

theorem exec_cdisc_read {s : State} {d a : BitVec 5} {hb : List Byte} {l1 : List Loc}
    (hal : (xr s a).toNat % 256 = 0) (h1 : cutLoad s (xr s a).toNat 256 = .ok hb l1) :
    ∃ body, exec (.cdisc d a) s = .next (run { word := encode (.cdisc d a), xr := [a.toNat], xw := [d.toNat] } s body) ∧
      body s = if leNat hb / 2 ^ 64 % 2 ^ 64 = 1 ∨ leNat hb / 2 ^ 64 % 2 ^ 64 = 2 then
          setCutState (xr s a).toNat 4 s (fun t => .done (wx d.toNat (w64 (leNat hb / 2 ^ 64 % 2 ^ 64)) (afterLoad 15 l1 t)))
        else .done (wx d.toNat (w64 (leNat hb / 2 ^ 64 % 2 ^ 64)) (afterLoad 15 l1 s)) := by
  refine ⟨_, rfl, ?_⟩
  rw [if_neg (by rw [hal]; decide), h1]
  show (if bfield (leNat hb) 8 8 = 1 ∨ bfield (leNat hb) 8 8 = 2 then _ else _) = _
  rw [show bfield (leNat hb) 8 8 = leNat hb / 2 ^ 64 % 2 ^ 64 from bits_div _ _ _]

/-- The three words at an address that is no multiple of 256. -/
theorem cutting_misaligned {s : State} {d a b : BitVec 5} {g : BitVec 8} (hc : Calm s) (hp : NoPort s [d.toNat, a.toNat, b.toNat])
    (hal : (xr s a).toNat % 256 ≠ 0) {w : Instr} (hw : w = .susp d a b g ∨ w = .resm d a b ∨ w = .cdisc d a) :
    exec w s = .next (takeTrap (encode w) 0x0C s.thr.pc (xr s a) 0 s) := by
  have hbody : ∃ n body, exec w s = .next (run n s body) ∧ Ready n s ∧ n.word = encode w ∧ n.vs0 = false ∧ body s = .trap 0x0C (xr s a) 0 s := by
    rcases hw with rfl | rfl | rfl
    · exact ⟨suspNeed _ d a b s, _, rfl, ready_susp hp, rfl, rfl, if_pos hal⟩
    · exact ⟨_, _, rfl, ready_scalar (hp.of_mem (by simp [or_comm, or_left_comm])), rfl, rfl, if_pos hal⟩
    · exact ⟨_, _, rfl, ready_scalar (hp.of_mem (by simp +contextual [or_comm])), rfl, rfl, if_pos hal⟩
  obtain ⟨n, body, hex, hr, hn, h0, hb⟩ := hbody
  rw [hex, run_trap (t := s) hc hr hb, trapWord_at h0 rfl, hn]

/-- Settles O52: the address, the reads and the checks decide in this order; one store changes STATE. -/
theorem cuttingWords : Obligations.CuttingWords := by
  intro s d a b g hc hp i r c ea grants reached
  have hd : NoPort s [d.toNat] := hp.of_mem (by simp)
  have hsusp : Ready (suspNeed (encode i) d a b s) s := ready_susp hp
  have hresm : Ready { word := encode r, xr := [a.toNat, b.toNat], xw := [d.toNat] } s := ready_scalar (hp.of_mem (by simp [or_comm, or_left_comm]))
  have hcdisc : Ready { word := encode c, xr := [a.toNat], xw := [d.toNat] } s := ready_scalar (hp.of_mem (by simp +contextual [or_comm]))
  have hend : ∀ (t : State) (v : Word), SameCourse s t → SameCourse s (wx d.toNat v t) := fun t v h => h.trans (wx_same (noPort_same hd h.cfg))
  obtain ⟨body, hex, hbody⟩ := exec_susp d a b g s
  refine ⟨fun hal w hw => cutting_misaligned hc hp hal hw, fun hal hm => ?_, fun hal hm hk => ?_, fun hal hm hk => ?_,
    fun hb bs l1 l2 granted l3 hal h1 hg h2 => ?_, fun hb l1 hal h1 => ?_⟩
  · rw [if_neg (not_not.mpr hal), hm] at hbody
    rw [hex, run_trap (t := s) hc hsusp hbody, trapWord_at rfl rfl]
    rfl
  · rw [if_neg (not_not.mpr hal), hm, if_neg (by decide), if_pos hk] at hbody
    rw [hex, run_trap (t := s) hc hsusp hbody, trapWord_at rfl rfl]
    rfl
  · rw [if_neg (not_not.mpr hal), hm, if_neg (by decide), if_neg (not_not.mpr hk)] at hbody
    refine ⟨suspended d a b g s, by rw [hex, run_final hc hsusp hbody], suspended_frame d a b g s, fun l hl => ?_⟩
    exact ⟨_, (find_mapLaunch hl _).trans (if_pos rfl), suspCount_countSusp _ _ _ l⟩
  · intro h
    obtain ⟨body, hex, hbody⟩ := exec_resm_read (d := d) (b := b) hal h1 hg h2
    have hcrc : bfield h 44 4 = h / 2 ^ 352 % 2 ^ 32 := bits_div _ _ _
    unfold resmEnd at hbody
    refine ⟨fun cause v2 hk => ?_, fun hk hne => ?_, fun hk heq hfull => ?_, fun locs hk heq hroom hca hreach => ?_⟩
    · rw [hk] at hbody
      rw [hex, run_trap hc hresm hbody, trapWord_at rfl rfl]
    · rw [hk] at hbody
      rw [hex, run_trap hc hresm (hbody.trans (if_pos (by rw [hcrc]; exact hne))), trapWord_at rfl rfl]
    · rw [hk] at hbody
      rw [hex, run_done_unqueued hc hresm rfl (hbody.trans ((if_neg (by rw [hcrc]; exact not_not.mpr heq)).trans (if_pos hfull)))
        (hend _ _ (afterLoad_same _ _ _))]
    · rw [hk] at hbody
      have hdone := hbody.trans ((if_neg (by rw [hcrc]; exact not_not.mpr heq)).trans ((if_neg (by rw [hroom]; decide)).trans (setCutState_ok hca hreach)))
      obtain ⟨u, hu⟩ : ∃ u, u = afterCut (l1 ++ l3 ++ l2) locs 3 s := ⟨_, rfl⟩
      have hcourse : SameCourse s u := hu ▸ afterCut_course _ _ _ _
      obtain ⟨l, hl, h1, h2, h3, h4, h5⟩ := admitResumed_spec ea h (xr s b).toNat u
      have hnext : u.dev.nextId = s.dev.nextId := by
        obtain ⟨e, q, he, hf⟩ := cutStored_frame locs 3 s
        rw [hu]
        unfold afterCut
        rw [afterLoad_tasks]
        show (cutStored locs 3 s).dev.nextId = _
        rw [hf]
        show e.nextId = _
        rw [he.frame]
      have hctx : u.slot.ctx = s.slot.ctx := by
        obtain ⟨e, q, -, hf⟩ := cutStored_frame locs 3 s
        rw [hu]
        unfold afterCut
        rw [afterLoad_frame]
        show (cutStored locs 3 s).slot.ctx = _
        rw [hf]
      refine ⟨admitResumed ea h (xr s b).toNat u, l, ?_, hnext ▸ hl, h1, h2, h3, h4, h5.trans hctx, fun hr hw hn => ?_⟩
      · rw [hex, run_done_unqueued hc hresm rfl (hdone.trans (by rw [hu]; rfl)) (hend _ _ (hcourse.trans (admitResumed_course _ _ _ _)))]
      · simp only [admitResumed_reads]
        rw [hu]
        exact afterCut_reads (checkAccess_length hca) hr hw hn
  · intro st
    obtain ⟨body, hex, hbody⟩ := exec_cdisc_read (d := d) hal h1
    refine ⟨fun h1 h2 => ?_, fun locs hst hca hreach => ⟨afterCut l1 locs 4 s, ?_, fun hr hw hn => ?_⟩⟩
    · rw [hex, run_done_unqueued hc hcdisc rfl (hbody.trans (if_neg (by rintro (h | h); exacts [h1 h, h2 h]))) (hend _ _ (afterLoad_same _ _ _))]
    · rw [hex, run_done_unqueued hc hcdisc rfl (hbody.trans ((if_pos hst).trans (setCutState_ok hca hreach))) (hend _ _ (afterCut_course l1 locs 4 s))]
      rfl
    · exact afterCut_reads (checkAccess_length hca) hr hw hn

end Sys2Proof.Machine
end

section
/-! PROOFS. The engine queues of a slot (R257, R266): an entry that enters one, and the order they are put in afterwards, change the queues
alone; where they hold nothing but markers of one `fence.q`, nothing is left of them. -/

namespace Sys2Proof.Machine

/-! ## What the queues are -/

/-- The second state differs from the first in its engine queues alone. -/
def QueuesOnly (s t : State) : Prop :=
  t = { s with slot.cpq := t.slot.cpq, slot.gsq := t.slot.gsq, slot.clq := t.slot.clq, slot.mxq := t.slot.mxq, slot.pxq := t.slot.pxq }

theorem QueuesOnly.refl (s : State) : QueuesOnly s s := rfl

theorem QueuesOnly.trans {s t u : State} (h : QueuesOnly s t) (k : QueuesOnly t u) : QueuesOnly s u := by
  unfold QueuesOnly at *
  rw [k, h]

theorem QueuesOnly.foldl {α : Type} {f : State → α → State} (h : ∀ s a, QueuesOnly s (f s a)) (l : List α) (s : State) : QueuesOnly s (l.foldl f s) := by
  induction l generalizing s with
  | nil => exact .refl s
  | cons a r ih => exact (h s a).trans (ih _)

theorem QueuesOnly.seqs {s t : State} (h : QueuesOnly s t) : t.slot.seqs = s.slot.seqs := by rw [h]
theorem QueuesOnly.out {s t : State} (h : QueuesOnly s t) : t.slot.out = s.slot.out := by rw [h]
theorem QueuesOnly.z {s t : State} (h : QueuesOnly s t) : t.slot.z = s.slot.z := by rw [h]
theorem QueuesOnly.dev {s t : State} (h : QueuesOnly s t) : t.dev = s.dev := by rw [h]
theorem QueuesOnly.launch {s t : State} (h : QueuesOnly s t) : t.slot.launch = s.slot.launch := by rw [h]
theorem QueuesOnly.lslot {s t : State} (h : QueuesOnly s t) : t.slot.lslot = s.slot.lslot := by rw [h]

theorem QueuesOnly.course {s t : State} (h : QueuesOnly s t) : SameCourse s t := by
  rw [h]
  exact ⟨rfl, rfl, rfl, rfl, rfl⟩

theorem queuesOnly_setQueue (q : Nat) (l : List Entry) (s : State) : QueuesOnly s (setQueue q l s) := by
  unfold setQueue
  split <;> rfl

/-- The numbers of the queues. -/
theorem queue_cases {q : Nat} (h : q < 5) : q = 0 ∨ q = 1 ∨ q = 2 ∨ q = 3 ∨ q = 4 := by omega

theorem queueOf_setQueue {q k : Nat} (l : List Entry) (s : State) (hq : q < 5) (hk : k < 5) :
    queueOf (setQueue q l s).slot k = if k = q then l else queueOf s.slot k := by
  rcases queue_cases hq with rfl | rfl | rfl | rfl | rfl <;> rcases queue_cases hk with rfl | rfl | rfl | rfl | rfl <;> rfl

/-- States that differ in their queues alone, and in none of them, are the same. -/
theorem QueuesOnly.eq {s t : State} (h : QueuesOnly s t) (hq : ∀ k, k < 5 → queueOf t.slot k = queueOf s.slot k) : t = s := by
  have h0 : t.slot.cpq = s.slot.cpq := hq 0 (by decide)
  have h1 : t.slot.gsq = s.slot.gsq := hq 1 (by decide)
  have h2 : t.slot.clq = s.slot.clq := hq 2 (by decide)
  have h3 : t.slot.mxq = s.slot.mxq := hq 3 (by decide)
  have h4 : t.slot.pxq = s.slot.pxq := hq 4 (by decide)
  rw [h, h0, h1, h2, h3, h4]

/-! ## Putting them in order -/

/-- The step that marks a queue's head as begun. -/
def startHead (s : State) (q : Nat) : State :=
  match queueOf s.slot q with
  | e :: r => if e.start.isNone then setQueue q ({ e with start := some (cycNow s) } :: r) s else s
  | [] => s

theorem settleQueues_zero (s : State) : settleQueues 0 s = (upFrom 0 5).foldl startHead s := rfl

theorem queuesOnly_startHead (s : State) (q : Nat) : QueuesOnly s (startHead s q) := by
  unfold startHead
  split
  · split
    · exact queuesOnly_setQueue _ _ _
    · exact .refl s
  · exact .refl s

theorem queuesOnly_dropMarker (s : State) (q : Nat) : QueuesOnly s (dropMarker s q) := by
  unfold dropMarker
  split
  · dsimp only
    split
    · exact .foldl (fun s k => queuesOnly_setQueue k _ s) _ s
    · exact .refl s
  · exact .refl s

theorem queuesOnly_settleQueues (n : Nat) (s : State) : QueuesOnly s (settleQueues n s) := by
  induction n generalizing s with
  | zero => exact .foldl queuesOnly_startHead _ s
  | succ n ih => exact (QueuesOnly.foldl queuesOnly_dropMarker _ s).trans (ih _)

theorem queuesOnly_settleAll (s : State) : QueuesOnly s (settleAll s) := queuesOnly_settleQueues _ s

/-! ## Entering -/

/-- What an entry that enters a queue changes beside the queues. -/
theorem enterQueue_frame (q : Nat) (e : Entry) (counts : Bool) (s : State) : QueuesOnly { s with
    dev.ser := s.dev.ser + 1
    slot.seqs := SMap.set 0 s.slot.seqs q (nextSeq s q + 1)
    slot.out := if counts then SMap.set 0 s.slot.out e.bar (outOf s e.bar + 1) else s.slot.out } (enterQueue q e counts s) := by
  obtain ⟨c, g, l, m, p, hq⟩ : ∃ c g l m p, setQueue q (queueOf s.slot q ++ [e]) s =
    { s with slot.cpq := c, slot.gsq := g, slot.clq := l, slot.mxq := m, slot.pxq := p } := ⟨_, _, _, _, _, queuesOnly_setQueue _ _ _⟩
  unfold enterQueue
  refine QueuesOnly.trans ?_ (queuesOnly_settleAll _)
  rw [hq]
  cases counts <;> rfl

theorem enterQueue_course (q : Nat) (e : Entry) (counts : Bool) (s : State) : SameCourse s (enterQueue q e counts s) :=
  SameCourse.trans (t := { s with
    dev.ser := s.dev.ser + 1
    slot.seqs := SMap.set 0 s.slot.seqs q (nextSeq s q + 1)
    slot.out := if counts then SMap.set 0 s.slot.out e.bar (outOf s e.bar + 1) else s.slot.out }) ⟨rfl, rfl, rfl, rfl, rfl⟩ (enterQueue_frame q e counts s).course

theorem tileOf_enterQueue (q : Nat) (e : Entry) (counts : Bool) (s : State) (z : Nat) : tileOf (enterQueue q e counts s) z = tileOf s z := by
  unfold tileOf
  rw [(enterQueue_frame q e counts s).z]

theorem outOf_enterQueue (q : Nat) (e : Entry) (s : State) : outOf (enterQueue q e true s) e.bar = outOf s e.bar + 1 := by
  exact (congrArg (fun m => SMap.get 0 m e.bar) (enterQueue_frame q e true s).out).trans (SMap.get_set_self 0 s.slot.out e.bar (outOf s e.bar + 1))

/-! ## Markers -/

/-- Every queue is empty. -/
def NoEntries (s : State) : Prop := ∀ k, k < 5 → queueOf s.slot k = []

theorem dropMarker_none {s : State} {q : Nat} (h : queueOf s.slot q = []) : dropMarker s q = s := by
  unfold dropMarker
  rw [h]

theorem startHead_none {s : State} {q : Nat} (h : queueOf s.slot q = []) : startHead s q = s := by
  unfold startHead
  rw [h]

theorem mem_upFrom_zero {k n : Nat} : k ∈ upFrom 0 n ↔ k < n := by rw [mem_upFrom]; omega

theorem foldl_fixed {α β : Type} {f : β → α → β} {b : β} {l : List α} (h : ∀ a ∈ l, f b a = b) : l.foldl f b = b := by
  induction l with
  | nil => rfl
  | cons a r ih =>
    rw [List.foldl_cons, h a (by simp)]
    exact ih (fun x hx => h x (by simp [hx]))

theorem settleQueues_none (n : Nat) {s : State} (h : NoEntries s) : settleQueues n s = s := by
  induction n with
  | zero => exact foldl_fixed (fun q hq => startHead_none (h q (mem_upFrom_zero.mp hq)))
  | succ n ih =>
    show settleQueues n ((upFrom 0 5).foldl dropMarker s) = s
    rw [foldl_fixed (fun q hq => dropMarker_none (h q (mem_upFrom_zero.mp hq))), ih]

/-- One marker in every queue that its mask names, and nothing else. -/
def OnlyMarker (m : Entry) (s : State) : Prop := ∀ k, k < 5 → queueOf s.slot k = if m.koff.testBit k then [m] else []

/-- Queues replaced one after the other, each by what it held. -/
theorem queueOf_foldl_setQueue (h : List Entry → List Entry) {l : List Nat} {k : Nat} (hl : ∀ q ∈ l, q < 5) (hk : k < 5) (hn : l.Nodup) (s : State) :
    queueOf (l.foldl (fun t q => setQueue q (h (queueOf t.slot q)) t) s).slot k = if k ∈ l then h (queueOf s.slot k) else queueOf s.slot k := by
  induction l generalizing s with
  | nil => rfl
  | cons q r ih =>
    obtain ⟨hq, hr⟩ := List.nodup_cons.mp hn
    rw [List.foldl_cons, ih (fun x hx => hl x (by simp [hx])) hr, queueOf_setQueue _ _ (hl q (by simp)) hk]
    by_cases h1 : k = q
    · subst h1
      rw [if_neg hq, if_pos rfl, if_pos (by simp)]
    · rw [if_neg h1]
      exact if_congr (by simp [h1]) rfl rfl

/-- The queues that a mask names. -/
def named (q : Nat) : List Nat := (upFrom 0 5).filter (fun k => bit q k)

theorem mem_named {q k : Nat} : k ∈ named q ↔ k < 5 ∧ q.testBit k = true := by
  unfold named
  rw [List.mem_filter, mem_upFrom_zero]
  rfl

theorem named_nodup (q : Nat) : (named q).Nodup := List.Nodup.filter _ (by decide)

/-- A marker that stands at the head of each of its queues leaves them all. -/
theorem dropMarker_only {m : Entry} {s : State} (hm : m.op = .marker) (h : OnlyMarker m s) {q : Nat} (hq : q < 5) :
    if m.koff.testBit q then NoEntries (dropMarker s q) else dropMarker s q = s := by
  split
  next hb =>
    have hhead : queueOf s.slot q = [m] := by rw [h q hq, if_pos hb]
    have hall : (named m.koff).all (fun k => match (queueOf s.slot k).head? with | some x => decide (x.op = .marker) && decide (x.seq = m.seq) | none => false) = true := by
      rw [List.all_eq_true]
      intro k hk
      obtain ⟨h5, hkb⟩ := mem_named.mp hk
      rw [h k h5, if_pos hkb]
      show (decide (m.op = .marker) && decide (m.seq = m.seq)) = true
      rw [hm]
      simp
    have hdrop : dropMarker s q = (named m.koff).foldl (fun t k => setQueue k (queueOf t.slot k).tail t) s := by
      unfold dropMarker
      rw [hhead]
      refine if_pos ?_
      rw [Bool.and_eq_true]
      exact ⟨decide_eq_true hm, hall⟩
    intro k hk
    rw [hdrop, queueOf_foldl_setQueue List.tail (fun x hx => (mem_named.mp hx).1) hk (named_nodup _), h k hk]
    by_cases hkb : m.koff.testBit k = true
    · rw [if_pos (mem_named.mpr ⟨hk, hkb⟩), if_pos hkb]
      rfl
    · rw [if_neg (fun hmem => hkb (mem_named.mp hmem).2), if_neg hkb]
  next hb => exact dropMarker_none (by rw [h q hq, if_neg hb])

theorem dropMarkers_only {m : Entry} {l : List Nat} {s : State} (hm : m.op = .marker) (h : OnlyMarker m s) (hl : ∀ q ∈ l, q < 5)
    (hb : ∃ q ∈ l, m.koff.testBit q = true) : NoEntries (l.foldl dropMarker s) := by
  induction l with
  | nil => obtain ⟨q, hq, -⟩ := hb; cases hq
  | cons q r ih =>
    have hd := dropMarker_only hm h (hl q (by simp))
    rw [List.foldl_cons]
    by_cases hq : m.koff.testBit q = true
    · rw [if_pos hq] at hd
      rwa [foldl_fixed (fun k hk => dropMarker_none (hd k (hl k (by simp [hk]))))]
    · rw [if_neg hq] at hd
      rw [hd]
      refine ih (fun x hx => hl x (by simp [hx])) ?_
      obtain ⟨x, hx, hxb⟩ := hb
      rcases List.mem_cons.mp hx with rfl | hx
      · exact absurd hxb hq
      · exact ⟨x, hx, hxb⟩

theorem le_markerCount {s : State} {q : Nat} (hq : q < 5) : (queueOf s.slot q).length ≤ markerCount s.slot :=
  List.single_le_sum (by simp) _ (List.mem_map.mpr ⟨q, mem_upFrom_zero.mpr hq, rfl⟩)

/-- Where the queues hold one marker and nothing else, nothing is left of it. -/
theorem settleAll_only {m : Entry} {s : State} (hm : m.op = .marker) (h : OnlyMarker m s) : NoEntries (settleAll s) := by
  by_cases hb : ∃ q ∈ upFrom 0 5, m.koff.testBit q = true
  · obtain ⟨q, hq, hqb⟩ := hb
    have hlen : 0 < markerCount s.slot := by
      have := le_markerCount (s := s) (mem_upFrom_zero.mp hq)
      rw [h q (mem_upFrom_zero.mp hq), if_pos hqb] at this
      exact this
    obtain ⟨n, hn⟩ : ∃ n, markerCount s.slot = n + 1 := ⟨markerCount s.slot - 1, by omega⟩
    have hnone := dropMarkers_only hm h (fun x hx => mem_upFrom_zero.mp hx) ⟨q, hq, hqb⟩
    unfold settleAll
    rw [hn]
    show NoEntries (settleQueues n _)
    rwa [settleQueues_none n hnone]
  · have hnone : NoEntries s := fun k hk => by
      rw [h k hk]
      exact if_neg (fun hkb => hb ⟨k, mem_upFrom_zero.mpr hk, hkb⟩)
    unfold settleAll
    rwa [settleQueues_none _ hnone]

/-! ## A collective's queue -/

/-- What a collective's entry is counted by. -/
def collMark (e : Entry) : BitVec 1024 × Nat := (e.block, e.koff)

theorem clq_dropMarker {s : State} (h : ∀ x ∈ s.slot.clq, x.op ≠ .marker) (q : Nat) : (dropMarker s q).slot.clq = s.slot.clq := by
  unfold dropMarker
  split
  next e r hq =>
    dsimp only
    split
    next hif =>
      obtain ⟨-, hall⟩ := Bool.and_eq_true _ _ ▸ hif
      have h2 : 2 ∉ named e.koff := fun hmem => by
        have hhead := List.all_eq_true.mp hall 2 hmem
        cases hc : s.slot.clq with
        | nil =>
          rw [show queueOf s.slot 2 = [] from hc] at hhead
          cases hhead
        | cons x l =>
          rw [show queueOf s.slot 2 = x :: l from hc] at hhead
          exact h x (by rw [hc]; simp) (of_decide_eq_true (Bool.and_eq_true _ _ ▸ hhead).1)
      have := queueOf_foldl_setQueue List.tail (l := named e.koff) (k := 2) (fun x hx => (mem_named.mp hx).1) (by decide) (named_nodup _) s
      rw [if_neg h2] at this
      exact this
    next => rfl
  next => rfl

theorem clq_startHead (s : State) (q : Nat) (hq : q < 5) : (startHead s q).slot.clq.map collMark = s.slot.clq.map collMark := by
  unfold startHead
  split
  next e r he =>
    split
    · have := queueOf_setQueue ({ e with start := some (cycNow s) } :: r) s hq (k := 2) (by decide)
      show (queueOf _ 2).map collMark = (queueOf s.slot 2).map collMark
      rw [this]
      by_cases h2 : 2 = q
      · rw [if_pos h2, h2, he]
        rfl
      · rw [if_neg h2]
    · rfl
  next => rfl

/-- A collective queue without markers keeps its entries, but for when its head began. -/
theorem clq_settleQueues (n : Nat) {s : State} (h : ∀ x ∈ s.slot.clq, x.op ≠ .marker) : (settleQueues n s).slot.clq.map collMark = s.slot.clq.map collMark := by
  induction n generalizing s with
  | zero =>
    rw [settleQueues_zero]
    have hall : ∀ (l : List Nat), (∀ q ∈ l, q < 5) → ∀ t : State, (l.foldl startHead t).slot.clq.map collMark = t.slot.clq.map collMark := fun l => by
      induction l with
      | nil => exact fun _ _ => rfl
      | cons q r ih => exact fun hl t => (ih (fun x hx => hl x (by simp [hx])) _).trans (clq_startHead t q (hl q (by simp)))
    exact hall _ (fun q hq => mem_upFrom_zero.mp hq) s
  | succ n ih =>
    have hclq : ∀ (l : List Nat) (t : State), (∀ x ∈ t.slot.clq, x.op ≠ .marker) → (l.foldl dropMarker t).slot.clq = t.slot.clq := fun l => by
      induction l with
      | nil => exact fun _ _ => rfl
      | cons q r ih =>
        intro t ht
        have hd := clq_dropMarker ht q
        exact (ih (dropMarker t q) (by rw [hd]; exact ht)).trans hd
    have hd := hclq (upFrom 0 5) s h
    show (settleQueues n ((upFrom 0 5).foldl dropMarker s)).slot.clq.map collMark = _
    rw [ih (by rw [hd]; exact h), hd]

end Sys2Proof.Machine
end

section
/-! PROOFS. Words that put an entry into an engine queue: the words of MXQ and `wbld` (O45), the engine commands and `fence.q` (O46). -/

namespace Sys2Proof.Machine

/-! ## Words of MXQ -/

/-- What every word of MXQ asks for beside its own (R61). -/
def asMatrix (n : Need) (s : State) : Need := { n with vt := true, roleOk := mayMatrix s, vs0 := true }

theorem ready_matrix {s : State} {n : Need} (hrole : s.cur.2 = 1) (hfmt : fmtN s ≠ 0) (hf : n.fmtOk = true) (ho : n.regOk = true)
    (hx : NoPort s (n.xr ++ n.xw)) (hv : ∀ g ∈ n.vr ++ n.vw, 0 < g.2 ∧ GroupOk s g) (hm : ∀ g ∈ n.mr ++ n.mw, MGroupOk s g) (hq : n.queued = false) :
    Ready (asMatrix n s) s :=
  ⟨decide_eq_true hrole, fun _ => hfmt, hf, ho, hx, hv, hm, fun h => absurd (show n.queued = true from h) (by rw [hq]; decide)⟩

/-- A word of MXQ runs with an entry that it makes where it need not wait. -/
def EntersMxq (s : State) (i : Instr) (F : MatrixForm) : Prop :=
  ∃ n body, exec i s = .next (run (asMatrix n s) s body) ∧ Ready (asMatrix n s) s ∧ n.word = encode i ∧ n.queued = false ∧
    (F.reach = true → body s = if queueFull s 3 || F.waits then .wait s else .done (enterQueue 3 F.e F.counts s))

/-- What the statement of O45 asks of a word of MXQ. -/
structure MatrixReady (s : State) (F : MatrixForm) : Prop where
  role : s.cur.2 = 1
  legal : fmtN s ≠ 0
  ok : F.ok = true
  own : F.own = true
  vs : ∀ r ∈ F.vr, GroupOk s (r.toNat, grpN s)
  ms : ∀ r ∈ F.mr, MGroupOk s (r.toNat, grpN s)
  xs : NoPort s (F.xs.map BitVec.toNat)

theorem groupRows_eq (read : Nat → Nat) (val : Nat → KReg) (h : ∀ r, BitVec.ofNat 32768 (read r) = val r) (base g : Nat) :
    groupRows read base g = (upFrom base g).map val := by
  unfold groupRows
  rw [funext h]

/-- A group that holds no ring port ends below them. -/
theorem groupOk_ports {s : State} {a g : Nat} (h : GroupOk s (a, g)) : (!isTrio s || decide (a + g ≤ 28)) = true := by
  have h2 := h.2
  cases ht : isTrio s with
  | false => rfl
  | true =>
    rw [if_pos ht] at h2
    exact decide_eq_true h2

theorem entersMxq_mma {s : State} {z : BitVec 4} {a : BitVec 5} {w : BitVec 2} {k : BitVec 7} {F : MatrixForm}
    (hF : matrixForm s (.mma z a w k) = some F) (hr : MatrixReady s F) : EntersMxq s (.mma z a w k) F := by
  cases hF
  obtain ⟨hrole, hlegal, hok, hown, hvs, -, -⟩ := hr
  have hg := hvs a (by simp)
  obtain ⟨h1, h2, h3⟩ := of_decide_eq_true hok
  refine ⟨_, _, rfl, ready_matrix hrole hlegal ?_ ?_ (noPort_nil s) ?_ nofun rfl, rfl, rfl, fun _ => ?_⟩
  · simp [h1, h2, h3]
  · exact congrArg₂ (· && ·) hown (groupOk_ports hg)
  · exact fun g hgm => by cases List.mem_singleton.mp hgm; exact ⟨grpN_pos s, hg⟩
  · rw [groupRows_eq _ (fun r => (rv s r).setWidth 32768) (fun r => BitVec.ofNat_toNat _ _)]
    rfl

theorem entersMxq_mmamo {s : State} {z : BitVec 4} {a : BitVec 3} {w : BitVec 2} {k : BitVec 7} {F : MatrixForm}
    (hF : matrixForm s (.mmamo z a w k) = some F) (hr : MatrixReady s F) : EntersMxq s (.mmamo z a w k) F := by
  cases hF
  obtain ⟨hrole, hlegal, hok, hown, -, hms, -⟩ := hr
  have hg := hms a (by simp)
  obtain ⟨h1, h2, h3, h4, h5⟩ := of_decide_eq_true hok
  refine ⟨_, _, rfl, ready_matrix hrole hlegal ?_ hown (noPort_nil s) nofun ?_ rfl, rfl, rfl, fun _ => ?_⟩
  · simp [h1, h2, h3, h4, h5]
  · exact fun g hgm => by cases List.mem_singleton.mp hgm; exact hg
  · rw [groupRows_eq _ (fun r => rm s r) (fun r => BitVec.ofNat_toNat 32768 (rm s r))]
    rfl

theorem entersMxq_zclr {s : State} {z : BitVec 4} {F : MatrixForm} (hF : matrixForm s (.zclr z) = some F) (hr : MatrixReady s F) :
    EntersMxq s (.zclr z) F := by
  cases hF
  exact ⟨_, _, rfl, ready_matrix hr.role hr.legal rfl hr.own (noPort_nil s) nofun nofun rfl, rfl, rfl, fun _ => rfl⟩

/-- `zld` and `zst` are one word but for the access and its cause. -/
def IsTileWord (i : Instr) (op : EngOp) (z : BitVec 4) (a : BitVec 5) (c : BitVec 4) (cause : Nat) : Prop :=
  ∀ s, exec i s = .next (tileWord (encode i) op z a c cause s) ∧ matrixForm s i = some (matrixForm.tile s op z a c)

theorem isTileWord_zld (z : BitVec 4) (a : BitVec 5) (c : BitVec 4) : IsTileWord (.zld z a c) .zld z a c 0x0A := fun _ => ⟨rfl, rfl⟩
theorem isTileWord_zst (z : BitVec 4) (a : BitVec 5) (c : BitVec 4) : IsTileWord (.zst z a c) .zst z a c 0x0B := fun _ => ⟨rfl, rfl⟩

/-- A tile load or store once its checks have passed. -/
def tileBody (op : EngOp) (z : BitVec 4) (a : BitVec 5) (c : BitVec 4) (cause : Nat) (s : State) : Res :=
  if (xr s a).toNat % (32 * colsN s) ≠ 0 then .trap 0x0C (xr s a) 0 s
  else if 2 ^ 52 ≤ (xr s a).toNat then .trap cause (xr s a) 0 s
  else if queueFull s 3 || engineWaits s none || s.thr.pnd.stores.any (fun p => c = 15 || p.cls = 15) then .wait s
  else .done (enterQueue 3 { newEntry s op 3 with z := z.toNat, block := (xr s a).setWidth 1024, cls := c.toNat } false s)

theorem ready_tile {s : State} {i : Instr} {op : EngOp} {z : BitVec 4} {a : BitVec 5} {c : BitVec 4} {cause : Nat} {F : MatrixForm}
    (hi : IsTileWord i op z a c cause) (hF : matrixForm s i = some F) (hr : MatrixReady s F) :
    exec i s = .next (run (asMatrix { word := encode i, xr := [a.toNat], regOk := tileOk s z.toNat } s) s (tileBody op z a c cause)) ∧
      Ready (asMatrix { word := encode i, xr := [a.toNat], regOk := tileOk s z.toNat } s) s := by
  obtain ⟨hex, hform⟩ := hi s
  cases Option.some.inj (hF.symm.trans hform)
  exact ⟨hex, ready_matrix hr.role hr.legal rfl hr.own hr.xs nofun nofun rfl⟩

theorem entersMxq_tile {s : State} {i : Instr} {op : EngOp} {z : BitVec 4} {a : BitVec 5} {c : BitVec 4} {cause : Nat} {F : MatrixForm}
    (hi : IsTileWord i op z a c cause) (hF : matrixForm s i = some F) (hr : MatrixReady s F) : EntersMxq s i F := by
  obtain ⟨hex, hready⟩ := ready_tile hi hF hr
  refine ⟨_, _, hex, hready, rfl, rfl, fun hreach => ?_⟩
  cases Option.some.inj (hF.symm.trans (hi s).2)
  obtain ⟨hal, hlow⟩ := of_decide_eq_true hreach
  refine (if_neg (not_not.mpr hal)).trans ((if_neg (by omega)).trans ?_)
  rw [Bool.or_assoc]
  rfl

theorem barCheck_ok {s : State} {bar : Nat} (hal : bar % 16 = 0) (hlo : scrBase ≤ bar) (hhi : bar < scrBase + scru s * 65536) :
    barCheck s bar = .ok (bar - scrBase) := by
  unfold barCheck
  rw [if_neg (not_not.mpr hal), if_pos ⟨hlo, hhi⟩]

theorem entersMxq_mcommit {s : State} {a : BitVec 5} {F : MatrixForm} (hF : matrixForm s (.mcommit a) = some F) (hr : MatrixReady s F) :
    EntersMxq s (.mcommit a) F := by
  cases hF
  refine ⟨_, _, rfl, ready_matrix hr.role hr.legal rfl rfl hr.xs nofun nofun rfl, rfl, rfl, fun hreach => ?_⟩
  obtain ⟨hal, hlo, hhi⟩ := of_decide_eq_true hreach
  rw [barCheck_ok hal hlo hhi]

theorem entersMxq_of {s : State} {i : Instr} {F : MatrixForm} (hF : matrixForm s i = some F) (hr : MatrixReady s F) : EntersMxq s i F := by
  cases i
  case mma => exact entersMxq_mma hF hr
  case mmamo => exact entersMxq_mmamo hF hr
  case zclr => exact entersMxq_zclr hF hr
  case zld => exact entersMxq_tile (isTileWord_zld _ _ _) hF hr
  case zst => exact entersMxq_tile (isTileWord_zst _ _ _) hF hr
  case mcommit => exact entersMxq_mcommit hF hr
  all_goals cases hF

/-- A word of MXQ that traps leaves VSTART 0. -/
theorem matrix_trap {s : State} {n : Need} {body : State → Res} {c : Nat} {v v2 : Word} (hc : Calm s) (h : Ready (asMatrix n s) s)
    (hb : body s = .trap c v v2 s) : run (asMatrix n s) s body = takeTrap n.word c s.thr.pc v v2 { s with thr.sr.vstart := 0 } :=
  (run_trap hc h hb).trans rfl

/-! ## WBLD -/

/-- What `wbld` puts into MXQ, from its descriptor. -/
def fillEntry (s : State) (w : BitVec 2) (d : Nat) : Entry := { newEntry s .wbfill 3 with
  wb := w.toNat, bar := wBar d - scrBase, vl := colsN s
  block := BitVec.ofNat 1024 (d + (if wKind d = 2 then SMap.get 0 s.thr.cb (wBook d) else 0).toNat * 2 ^ 256) }

/-- The state that `wbld` leaves. -/
def filled (s : State) (w : BitVec 2) (d : Nat) (locs : List Loc) : State :=
  enterQueue 3 (fillEntry s w d) true (setWb w.toNat { wbOf s w.toNat with issued := true } (afterLoad 15 locs s))

theorem exec_wbld_read {s : State} {a : BitVec 5} {w : BitVec 2} {bs : List Byte} {locs : List Loc} (hc : Calm s)
    (hl : loadBytes { s with thr.sr.watch := [] } 15 32 (xr s a).toNat 32 = .ok bs locs) :
    ∃ body, exec (.wbld a w) s = .next (run (asMatrix { word := encode (.wbld a w), xr := [a.toNat] } s) s body) ∧
      (wLegal (leNat bs) = false → body s = .trap 0x03 (xr s a) 0 s) ∧
      (wLegal (leNat bs) = true → wBase (leNat bs) % 64 = 0 → (wUsesSide (leNat bs) = true → wSide (leNat bs) % 64 = 0) →
        barCheck s (wBar (leNat bs)) = .ok (wBar (leNat bs) - scrBase) →
        body s = if queueFull s 3 || engineWaits s (some (wBar (leNat bs) - scrBase)) then .wait s else .done (filled s w (leNat bs) locs)) := by
  refine ⟨_, rfl, fun hw => ?_, fun hw hb hs hbar => ?_⟩
  · rw [hl]
    exact if_pos (by rw [hw]; rfl)
  · have hside : ¬ (wUsesSide (leNat bs) && wSide (leNat bs) % 64 != 0) = true := by
      cases hu : wUsesSide (leNat bs) with
      | false => simp
      | true => simp [hs hu]
    have hwhole : ¬ (decide (wKind (leNat bs) = 2) && s.thr.hid.damaged.any (fun x => x.cls = 7 && x.num = 8 + wBook (leNat bs))) = true := by
      rw [hc.whole, List.any_nil, Bool.and_false]
      decide
    rw [hl]
    refine (if_neg (by rw [hw]; decide)).trans ((if_neg (not_not.mpr hb)).trans ((if_neg hside).trans ?_))
    rw [hbar]
    exact if_neg hwhole

theorem setWb_course (n : Nat) (w : WbSlot) (s : State) : SameCourse s (setWb n w s) := ⟨rfl, rfl, rfl, rfl, rfl⟩

theorem filled_spec (s : State) (w : BitVec 2) (d : Nat) (locs : List Loc) : SameCourse s (filled s w d locs) ∧
    (∀ z, tileOf (filled s w d locs) z = tileOf s z) ∧ outOf (filled s w d locs) (wBar d - scrBase) = outOf s (wBar d - scrBase) + 1 := by
  have hslot : (afterLoad 15 locs s).slot = s.slot := by rw [afterLoad_frame]
  refine ⟨((afterLoad_same 15 locs s).trans (setWb_course _ _ _)).trans (enterQueue_course _ _ _ _), fun z => ?_, ?_⟩
  · unfold filled
    rw [tileOf_enterQueue]
    show SMap.get 0 (afterLoad 15 locs s).slot.z z = _
    rw [hslot]
    rfl
  · refine (outOf_enterQueue 3 (fillEntry s w d) _).trans ?_
    show SMap.get 0 (afterLoad 15 locs s).slot.out (wBar d - scrBase) + 1 = _
    rw [hslot]
    rfl

/-- Settles O45: every word of MXQ makes its entry, and `wbld` makes its own from the descriptor it reads. -/
theorem matrixCommands : Obligations.MatrixCommands := by
  refine ⟨fun s i F hF hc hrole hlegal hok hown hvs hms hxs => ?_, fun s a w bs locs hc hrole hlegal hp hl => ?_⟩
  · have hr : MatrixReady s F := ⟨hrole, hlegal, hok, hown, hvs, hms, hxs⟩
    obtain ⟨n, body, hex, hready, hword, hq, hbody⟩ := entersMxq_of hF hr
    refine ⟨fun hreach hwait => ?_, fun hreach hroom hgo => ?_, fun z a c hi hal => ?_, fun z a c hal hhigh => ⟨fun hi => ?_, fun hi => ?_⟩⟩
    · rw [hex, run_wait hc hready ((hbody hreach).trans (if_pos (by simpa using hwait)))]
    · rw [hex, run_done_unqueued hc hready hq ((hbody hreach).trans (if_neg (by rw [hroom, hgo]; decide))) (enterQueue_course _ _ _ _)]
      rw [← hword]
      rfl
    · have htile : ∃ op cause, IsTileWord i op z a c cause := by
        rcases hi with rfl | rfl
        · exact ⟨_, _, isTileWord_zld z a c⟩
        · exact ⟨_, _, isTileWord_zst z a c⟩
      obtain ⟨op, cause, htile⟩ := htile
      obtain ⟨hx, hready⟩ := ready_tile htile hF hr
      rw [hx, matrix_trap hc hready (if_pos hal)]
    · subst hi
      obtain ⟨hx, hready⟩ := ready_tile (isTileWord_zld z a c) hF hr
      rw [hx, matrix_trap hc hready ((if_neg (not_not.mpr hal)).trans (if_pos hhigh))]
    · subst hi
      obtain ⟨hx, hready⟩ := ready_tile (isTileWord_zst z a c) hF hr
      rw [hx, matrix_trap hc hready ((if_neg (not_not.mpr hal)).trans (if_pos hhigh))]
  · intro i d bar book e
    obtain ⟨body, hex, hbad, hgood⟩ := exec_wbld_read (w := w) hc hl
    have hready : Ready (asMatrix { word := encode i, xr := [a.toNat] } s) s := ready_matrix hrole hlegal rfl rfl hp nofun nofun rfl
    refine ⟨fun hw => by rw [hex, matrix_trap hc hready (hbad hw)], fun hw hb hs hal hlo hhi => ⟨fun hwait => ?_, fun hroom hgo => ?_⟩⟩
    · have hbody := hgood hw hb hs (barCheck_ok hal hlo hhi)
      rw [hex, run_wait hc hready (hbody.trans (if_pos (by simpa using hwait)))]
    · have hbody := hgood hw hb hs (barCheck_ok hal hlo hhi)
      obtain ⟨hcourse, htiles, hout⟩ := filled_spec s w d locs
      refine ⟨filled s w d locs, ?_, rfl, htiles, hout⟩
      rw [hex, run_done_unqueued hc hready rfl (hbody.trans (if_neg (by rw [hroom, hgo]; decide))) hcourse]
      rfl

/-! ## Engine commands -/

theorem firstMisaligned_none {l : List (Nat × Bool)} (h : ∀ x ∈ l, x.2 = true) : firstMisaligned l = none := by
  unfold firstMisaligned
  rw [List.find?_eq_none.mpr (fun x hx => by rw [h x hx]; decide)]
  rfl

section
variable {s : State} {w : BitVec 32} {op : EngOp} {q len : Nat} {nr : BitVec 1} {a b : BitVec 5} {table : Nat → State → BlkCheck}
  {aligned : Nat → List (Nat × Bool)} {off c : Nat} {bs list : List Byte} {locs : List Loc} {k : Nat} {t : State} {v v2 : Word}

theorem ready_engine (hp : NoPort s [a.toNat, b.toNat]) : Ready { word := w, xr := [a.toNat, b.toNat] } s := ready_reads hp

theorem engineWord_misaligned (hc : Calm s) (hp : NoPort s [a.toNat, b.toNat]) (hal : (xr s a).toNat % 64 ≠ 0) :
    engineWord w op q len nr a b table aligned s = takeTrap w 0x0C s.thr.pc (xr s a) 0 s :=
  (run_trap (t := s) hc (ready_engine hp) (if_pos hal)).trans (trapWord_at rfl rfl)

theorem engineWord_noBarrier (hc : Calm s) (hp : NoPort s [a.toNat, b.toNat]) (hal : (xr s a).toNat % 64 = 0)
    (hb : barCheck s (xr s b).toNat = .error c) : engineWord w op q len nr a b table aligned s = takeTrap w c s.thr.pc (xr s b) 0 s := by
  refine (run_trap (t := s) (c := c) (v := xr s b) (v2 := 0) hc (ready_engine hp) ((if_neg (not_not.mpr hal)).trans ?_)).trans (trapWord_at rfl rfl)
  rw [hb]

/-- The words whose block has been read. -/
theorem engineWord_read (hal : (xr s a).toNat % 64 = 0) (hb : barCheck s (xr s b).toNat = .ok off)
    (hl : loadBytes { s with thr.sr.watch := [] } 15 1 (xr s a).toNat len = .ok bs locs) :
    ∃ body, engineWord w op q len nr a b table aligned s = run { word := w, xr := [a.toNat, b.toNat] } s body ∧
      body s = match table (leNat bs) (afterLoad 15 locs s) with
        | .trap c v v2 => .trap c v v2 s
        | .wait r => .wait (askFor r s)
        | .ok list k t => match firstMisaligned (aligned (leNat bs)) with
          | some x => .trap 0x0C (w64 x) 0 s
          | none => if queueFull s q || engineWaits s (some off) then .wait s
            else .done (enterQueue q { newEntry t op q with
              bar := off, nr := nr = 1, block := BitVec.ofNat 1024 (leNat bs), list := list, koff := k } true t) := by
  refine ⟨_, rfl, ?_⟩
  rw [if_neg (not_not.mpr hal), hb]
  dsimp only
  rw [hl] <;> rfl

theorem engineWord_illegal (hc : Calm s) (hp : NoPort s [a.toNat, b.toNat]) (hal : (xr s a).toNat % 64 = 0) (hb : barCheck s (xr s b).toNat = .ok off)
    (hl : loadBytes { s with thr.sr.watch := [] } 15 1 (xr s a).toNat len = .ok bs locs)
    (ht : table (leNat bs) (afterLoad 15 locs s) = .trap c v v2) : engineWord w op q len nr a b table aligned s = takeTrap w c s.thr.pc v v2 s := by
  obtain ⟨body, hex, hbody⟩ := engineWord_read (w := w) (op := op) (q := q) (nr := nr) (table := table) (aligned := aligned) hal hb hl
  rw [ht] at hbody
  rw [hex, run_trap hc (ready_engine hp) hbody, trapWord_at rfl rfl]

theorem engineWord_waits (hc : Calm s) (hp : NoPort s [a.toNat, b.toNat]) (hal : (xr s a).toNat % 64 = 0) (hb : barCheck s (xr s b).toNat = .ok off)
    (hl : loadBytes { s with thr.sr.watch := [] } 15 1 (xr s a).toNat len = .ok bs locs)
    (ht : table (leNat bs) (afterLoad 15 locs s) = .ok list k t) (hg : ∀ x ∈ aligned (leNat bs), x.2 = true)
    (hw : queueFull s q = true ∨ engineWaits s (some off) = true) : engineWord w op q len nr a b table aligned s = waitHere s := by
  obtain ⟨body, hex, hbody⟩ := engineWord_read (w := w) (op := op) (q := q) (nr := nr) (table := table) (aligned := aligned) hal hb hl
  rw [ht, firstMisaligned_none hg] at hbody
  rw [hex, run_wait hc (ready_engine hp) (hbody.trans (if_pos (by simpa using hw)))]

theorem engineWord_enters (hc : Calm s) (hp : NoPort s [a.toNat, b.toNat]) (hal : (xr s a).toNat % 64 = 0) (hb : barCheck s (xr s b).toNat = .ok off)
    (hl : loadBytes { s with thr.sr.watch := [] } 15 1 (xr s a).toNat len = .ok bs locs)
    (ht : table (leNat bs) (afterLoad 15 locs s) = .ok list k t) (hst : SameCourse s t) (hg : ∀ x ∈ aligned (leNat bs), x.2 = true)
    (hroom : queueFull s q = false) (hgo : engineWaits s (some off) = false) :
    engineWord w op q len nr a b table aligned s = retired w (s.thr.pc + 4) (enterQueue q { newEntry t op q with
      bar := off, nr := nr = 1, block := BitVec.ofNat 1024 (leNat bs), list := list, koff := k } true t) := by
  obtain ⟨body, hex, hbody⟩ := engineWord_read (w := w) (op := op) (q := q) (nr := nr) (table := table) (aligned := aligned) hal hb hl
  rw [ht, firstMisaligned_none hg] at hbody
  rw [hex, run_done_unqueued hc (ready_engine hp) rfl (hbody.trans (if_neg (by rw [hroom, hgo]; decide))) (hst.trans (enterQueue_course _ _ _ _))]

end

/-- The commands but `coll` are one word with a plain table. -/
theorem exec_commandForm {i : Instr} {F : CommandForm} (h : commandForm i = some F) (s : State) :
    exec i s = .next (engineWord (encode i) F.op F.q F.len F.nr F.a F.b (plainTable F.a F.legal) F.aligned s) := by
  cases i
  case cpy | rgath | rscat | pfxh | pfxlk | pfxins | pfxunpin => cases h; rfl
  all_goals cases h

theorem plainTable_illegal {a : BitVec 5} {legal : Nat → Bool} {b : Nat} {s t : State} (h : legal b = false) (hx : xr t a = xr s a) :
    plainTable a legal b t = .trap 0x03 (xr s a) 0 := by
  unfold plainTable
  rw [h, hx]
  rfl

theorem plainTable_legal {a : BitVec 5} {legal : Nat → Bool} {b : Nat} {s : State} (h : legal b = true) : plainTable a legal b s = .ok [] 0 s := by
  unfold plainTable
  rw [h]
  rfl

/-! ## COLL -/

theorem collTable_ok {s : State} {w : BitVec 32} {a : BitVec 5} {b : Nat} (h1 : collLegal b = true) (h2 : kKind b = 0)
    (h3 : kOp b = 3 → kRoot b < (memberSlots s (kGroup b)).length) (h4 : isMember s (kGroup b) = true) :
    collTable w a b s = .ok [] (collCount s (kGroup b)) s := by
  have hroot : ¬ (decide (kOp b = 3) && decide ((memberSlots s (kGroup b)).length ≤ kRoot b)) = true := by
    rw [Bool.and_eq_true]
    rintro ⟨ha, hb⟩
    exact absurd (h3 (of_decide_eq_true ha)) (Nat.not_lt.mpr (of_decide_eq_true hb))
  unfold collTable
  dsimp only
  rw [if_neg (by rw [h1]; decide), if_pos h2, if_neg hroot, if_neg (by rw [h4]; decide)]

/-- The collective queue after an entry, as far as collectives are counted by it. -/
theorem clq_enterQueue (e : Entry) {s : State} (h : ∀ x ∈ s.slot.clq, x.op ≠ .marker) (he : e.op ≠ .marker) :
    (enterQueue 2 e true s).slot.clq.map collMark = (s.slot.clq ++ [e]).map collMark := by
  obtain ⟨t, ht, hclq⟩ : ∃ t, enterQueue 2 e true s = settleAll t ∧ t.slot.clq = s.slot.clq ++ [e] := ⟨_, rfl, rfl⟩
  rw [ht, ← hclq]
  refine clq_settleQueues _ fun x hx => ?_
  rw [hclq] at hx
  rcases List.mem_append.mp hx with hx | hx
  · exact h x hx
  · rw [List.mem_singleton.mp hx]
    exact he

/-- A collective of slots that has entered the queue is counted in its launch. -/
theorem countColl_entered {s t : State} {q : List Entry} {blk n : Nat} {l : Launch} (hq : t.slot.clq.map collMark = q.map collMark ++ [(BitVec.ofNat 1024 blk, n)])
    (hs : s.slot.clq.length = q.length) (hb : blk < 2 ^ 1024) (hk : kKind blk = 0) (hl : SMap.find t.dev.launches t.slot.launch = some l) :
    countColl s t = { t with dev.launches := (countColl s t).dev.launches } ∧ collCount (countColl s t) (kGroup blk) = n + 1 := by
  have hlen : t.slot.clq.length = q.length + 1 := by
    have := congrArg List.length hq
    simpa using this
  obtain ⟨e, he, hmark⟩ : ∃ e, t.slot.clq.getLast? = some e ∧ collMark e = (BitVec.ofNat 1024 blk, n) := by
    have h := congrArg List.getLast? hq
    rw [List.getLast?_map, List.getLast?_append] at h
    cases hc : t.slot.clq.getLast? with
    | none => rw [hc] at h; cases h
    | some e => rw [hc] at h; exact ⟨e, rfl, Option.some.inj h⟩
  obtain ⟨hblock, hkoff⟩ := Prod.mk.inj hmark
  have hnat : e.block.toNat = blk := by rw [hblock, BitVec.toNat_ofNat, Nat.mod_eq_of_lt hb]
  obtain ⟨m, hm⟩ : ∃ m : Launch, m = { l with collN := SMap.set 0 l.collN (t.slot.lslot * 256 + kGroup blk) (n + 1) } := ⟨_, rfl⟩
  have hcount : countColl s t = { t with dev.launches := SMap.put t.dev.launches t.slot.launch m } := by
    unfold countColl
    rw [if_neg (by omega), he]
    dsimp only
    rw [hnat, if_pos hk, hl, hkoff, hm]
  rw [hcount]
  refine ⟨rfl, ?_⟩
  unfold collCount
  dsimp only
  rw [SMap.find_put, if_pos rfl, hm]
  exact SMap.get_set_self 0 l.collN (t.slot.lslot * 256 + kGroup blk) (n + 1)

/-- The entry of a collective of slots. -/
def collEntry (t : State) (off : Nat) (n : BitVec 1) (blk k : Nat) : Entry :=
  { newEntry t .coll 2 with bar := off, nr := n = 1, block := BitVec.ofNat 1024 blk, koff := k }

theorem retired_clq (w : BitVec 32) (p : Word) (s : State) : (retired w p s).slot.clq = s.slot.clq := rfl

theorem coll_enters {s : State} {a b : BitVec 5} {n : BitVec 1} {off : Nat} {bs : List Byte} {locs : List Loc} {l : Launch} (hc : Calm s)
    (hp : NoPort s [a.toNat, b.toNat]) (hal : (xr s a).toNat % 64 = 0) (hb : barCheck s (xr s b).toNat = .ok off)
    (hl : loadBytes { s with thr.sr.watch := [] } 15 1 (xr s a).toNat 64 = .ok bs locs) (hfind : SMap.find s.dev.launches s.slot.launch = some l)
    (hm : ∀ x ∈ s.slot.clq, x.op ≠ .marker) (h1 : collLegal (leNat bs) = true) (h2 : kKind (leNat bs) = 0)
    (h3 : kOp (leNat bs) = 3 → kRoot (leNat bs) < (memberSlots s (kGroup (leNat bs))).length) (h4 : isMember s (kGroup (leNat bs)) = true)
    (hg : ∀ x ∈ collAligned (leNat bs), x.2 = true) (hroom : queueFull s 2 = false) (hgo : engineWaits s (some off) = false) :
    ∃ u, exec (.coll a b n) s = .next u ∧ collCount u (kGroup (leNat bs)) = collCount s (kGroup (leNat bs)) + 1 ∧
      u = { retired (encode (.coll a b n)) (s.thr.pc + 4) (enterQueue 2
        (collEntry (afterLoad 15 locs s) off n (leNat bs) (collCount s (kGroup (leNat bs)))) true (afterLoad 15 locs s)) with
        dev.launches := u.dev.launches } := by
  obtain ⟨t, ht⟩ : ∃ t, t = afterLoad 15 locs s := ⟨_, rfl⟩
  have hslot : t.slot = s.slot := by rw [ht, afterLoad_frame]
  have hcur : t.cur = s.cur := by rw [ht, afterLoad_frame]
  have hla : t.dev.launches = s.dev.launches := by rw [ht, afterLoad_tasks]
  have hmem : memberSlots t (kGroup (leNat bs)) = memberSlots s (kGroup (leNat bs)) := by unfold memberSlots; rw [hslot, hla, hcur]
  have hismem : isMember t (kGroup (leNat bs)) = isMember s (kGroup (leNat bs)) := by unfold isMember; rw [hslot]
  have hcount : collCount t (kGroup (leNat bs)) = collCount s (kGroup (leNat bs)) := by unfold collCount; rw [hslot, hla]
  have htable := collTable_ok (s := t) (w := encode (.coll a b n)) (a := a) h1 h2 (by rw [hmem]; exact h3) (by rw [hismem]; exact h4)
  rw [hcount] at htable
  have hword := engineWord_enters (w := encode (.coll a b n)) (op := .coll) (q := 2) (nr := n) (table := collTable (encode (.coll a b n)) a)
    (aligned := collAligned) hc hp hal hb hl (ht ▸ htable) (ht ▸ afterLoad_same 15 locs s) hg hroom hgo
  rw [← ht]
  obtain ⟨e, he⟩ : ∃ e, e = collEntry t off n (leNat bs) (collCount s (kGroup (leNat bs))) := ⟨_, rfl⟩
  have hgone : engineWord (encode (.coll a b n)) .coll 2 64 n a b (collTable (encode (.coll a b n)) a) collAligned s =
      retired (encode (.coll a b n)) (s.thr.pc + 4) (enterQueue 2 e true t) := by
    rw [hword, he, ht]
    rfl
  have hexec : exec (.coll a b n) s = .next (countColl s (engineWord (encode (.coll a b n)) .coll 2 64 n a b
    (collTable (encode (.coll a b n)) a) collAligned s)) := rfl
  rw [hgone] at hexec
  rw [← he]
  have hclq := clq_enterQueue e (s := t) (by rw [hslot]; exact hm) (by rw [he]; exact fun h => nomatch h)
  have hmark : collMark e = (BitVec.ofNat 1024 (leNat bs), collCount s (kGroup (leNat bs))) := by rw [he]; rfl
  have hframe := enterQueue_frame 2 e true t
  have hlt : leNat bs < 2 ^ 1024 := by
    refine Nat.lt_of_lt_of_le (leNat_lt bs) (Nat.pow_le_pow_right (by decide) ?_)
    rw [loadAs_length hl]
    decide
  have hfind' : SMap.find (retired (encode (.coll a b n)) (s.thr.pc + 4) (enterQueue 2 e true t)).dev.launches
      (retired (encode (.coll a b n)) (s.thr.pc + 4) (enterQueue 2 e true t)).slot.launch = some l := by
    show SMap.find (enterQueue 2 e true t).dev.launches (enterQueue 2 e true t).slot.launch = _
    rw [hframe.dev, hframe.launch]
    show SMap.find t.dev.launches t.slot.launch = _
    rw [hla, hslot, hfind]
  have hmap : (retired (encode (.coll a b n)) (s.thr.pc + 4) (enterQueue 2 e true t)).slot.clq.map collMark =
      t.slot.clq.map collMark ++ [(BitVec.ofNat 1024 (leNat bs), collCount s (kGroup (leNat bs)))] := by
    rw [retired_clq, hclq, List.map_append, List.map_singleton, hmark]
  have hsame : s.slot.clq.length = t.slot.clq.length := by rw [hslot]
  obtain ⟨hu, hn⟩ := countColl_entered hmap hsame hlt h2 hfind'
  exact ⟨_, hexec, hn, hu⟩

/-! ## FENCE.Q -/

/-- The marker of a `fence.q` in every queue that it names. -/
def marked (q : BitVec 5) (s : State) : State :=
  (named q.toNat).foldl (fun t k => setQueue k (queueOf t.slot k ++ [{ newEntry s .marker 8 with koff := q.toNat }]) t) s

theorem queuesOnly_marked (q : BitVec 5) (s : State) : QueuesOnly s (marked q s) := .foldl (fun t k => queuesOnly_setQueue k _ t) _ s

theorem fenceQ_seqs (q : BitVec 5) (s : State) :
    ({ marked q s with slot.seqs := SMap.set 0 (marked q s).slot.seqs 8 (nextSeq (marked q s) 8 + 1) } : State) =
      { marked q s with slot.seqs := SMap.set 0 s.slot.seqs 8 (nextSeq s 8 + 1) } := by
  unfold nextSeq
  rw [(queuesOnly_marked q s).seqs]

theorem fenceQ_goes {s : State} (hc : Calm s) (q : BitVec 5) : exec (.fenceQ q) s = .next (retired (encode (.fenceQ q)) (s.thr.pc + 4)
    (settleAll { marked q s with slot.seqs := SMap.set 0 s.slot.seqs 8 (nextSeq s 8 + 1) })) := by
  have hcourse : SameCourse s (settleAll { marked q s with slot.seqs := SMap.set 0 s.slot.seqs 8 (nextSeq s 8 + 1) }) :=
    ((queuesOnly_marked q s).course.trans (t := marked q s) (u := { marked q s with slot.seqs := SMap.set 0 s.slot.seqs 8 (nextSeq s 8 + 1) })
      ⟨rfl, rfl, rfl, rfl, rfl⟩).trans (queuesOnly_settleAll _).course
  have hbody := congrArg (fun t => Res.done (settleAll t)) (fenceQ_seqs q s)
  exact congrArg _ (run_done_unqueued (n := { word := encode (.fenceQ q), xr := [], xw := [] })
    (body := fun t => .done (settleAll { marked q t with slot.seqs := SMap.set 0 (marked q t).slot.seqs 8 (nextSeq (marked q t) 8 + 1) }))
    hc (ready_plain _ s) rfl hbody hcourse)

/-- Where the queues are empty, nothing is left of the markers. -/
theorem fenceQ_leaves {s : State} (q : BitVec 5) (h : NoEntries s) : settleAll { marked q s with slot.seqs := SMap.set 0 s.slot.seqs 8 (nextSeq s 8 + 1) } =
    { s with slot.seqs := SMap.set 0 s.slot.seqs 8 (nextSeq s 8 + 1) } := by
  obtain ⟨m, hm⟩ : ∃ m, m = { newEntry s .marker 8 with koff := q.toNat } := ⟨_, rfl⟩
  have honly : OnlyMarker m (marked q s) := fun k hk => by
    have := queueOf_foldl_setQueue (· ++ [m]) (l := named q.toNat) (fun x hx => (mem_named.mp hx).1) hk (named_nodup _) s
    rw [h k hk] at this
    unfold marked
    rw [← hm, this]
    exact if_congr (by rw [mem_named, hm]; exact ⟨fun x => x.2, fun x => ⟨hk, x⟩⟩) rfl rfl
  have hnone := settleAll_only (s := { marked q s with slot.seqs := SMap.set 0 s.slot.seqs 8 (nextSeq s 8 + 1) }) (m := m) (by rw [hm]; rfl) honly
  have hframe : QueuesOnly { s with slot.seqs := SMap.set 0 s.slot.seqs 8 (nextSeq s 8 + 1) }
      { marked q s with slot.seqs := SMap.set 0 s.slot.seqs 8 (nextSeq s 8 + 1) } := by
    have := queuesOnly_marked q s
    unfold QueuesOnly at this ⊢
    rw [this]
  exact (hframe.trans (queuesOnly_settleAll _)).eq (fun k hk => (hnone k hk).trans (h k hk).symm)

/-- Settles O46: the checks of an engine command decide in the order of R268, and what enters a queue is the entry with its block. -/
theorem engineCommands : Obligations.EngineCommands := by
  refine ⟨⟨fun s i F hF hc hp => ⟨fun hal => ?_, fun c hal hb => ?_, fun off bs locs hal hb hl => ⟨fun hbad => ?_, fun hgood hg => ⟨fun hw => ?_, fun hroom hgo => ?_⟩⟩⟩,
    fun s a b n off bs locs l hc hp hal hb hl hfind hm h1 h2 h3 h4 hg hroom hgo => coll_enters hc hp hal hb hl hfind hm h1 h2 h3 h4 hg hroom hgo⟩,
    fun s q hc => ⟨fenceQ_goes hc q, fun h => fenceQ_leaves q h⟩⟩
  · rw [exec_commandForm hF, engineWord_misaligned hc hp hal]
  · rw [exec_commandForm hF, engineWord_noBarrier hc hp hal hb]
  · rw [exec_commandForm hF, engineWord_illegal (c := 0x03) (v := xr s F.a) (v2 := 0) hc hp hal hb hl (plainTable_illegal hbad (by rw [afterLoad_frame]; rfl))]
  · rw [exec_commandForm hF, engineWord_waits hc hp hal hb hl (plainTable_legal hgood) hg hw]
  · intro t
    rw [exec_commandForm hF, engineWord_enters hc hp hal hb hl (plainTable_legal hgood) (afterLoad_same 15 locs s) hg hroom hgo]
    rfl

end Sys2Proof.Machine
end

section
/-! PROOFS. The machine right after reset (O5), and what a step is (O4): the turn's own effect, and the program placed from outside. -/

namespace Sys2Proof.Machine

/-! ## The register window after reset -/

/-- An offset outside an area of the window, and inside one. -/
theorem not_area {lo hi off : Nat} (h : off < lo ∨ hi ≤ off) : ¬ (decide (lo ≤ off) && decide (off < hi)) = true := by
  rw [Bool.and_eq_true, decide_eq_true_eq, decide_eq_true_eq]
  omega

theorem in_area {lo hi off : Nat} (h : lo ≤ off ∧ off < hi) : (decide (lo ≤ off) && decide (off < hi)) = true := by
  rw [Bool.and_eq_true, decide_eq_true_eq, decide_eq_true_eq]
  exact h

theorem readReg_queue {q r : Nat} (hq : q < 1024) (hr : r < 64) : readReg (0x10000 + 64 * q + r) Device.reset = readQueue r UQueue.reset := by
  have hoff : (0x10000 + 64 * q + r) % 64 = r := by omega
  unfold readReg
  rw [if_neg (by omega), if_pos (by omega), hoff]
  rfl

theorem readReg_account {k : Nat} (hk : k < 2048) : readReg (0x20000 + 8 * k) Device.reset = 0 := by
  unfold readReg
  rw [if_neg (by omega), if_neg (by omega), if_pos (by omega)]
  rfl

/-- From 0xB0000 on the areas are told apart by their bounds. -/
theorem readReg_high {off : Nat} (h : 0xB0000 ≤ off) (d : Device) : readReg off d =
    if 0xB0000 ≤ off && off < 0xB2000 then
      (if off % 16 = 0 then w64 (stateCode (slotOf d ((off - 0xB0000) / 16)).st * 2 ^ 8) else w64 (watchLog d ((off - 0xB0000) / 16)))
    else if 0xC0000 ≤ off && off < 0xC4000 then
      (match off % 32 with
       | 0 => SMap.get 16384 d.maxvl ((off - 0xC0000) / 32)
       | 8 => w64 (bitNat (SMap.get false d.chk ((off - 0xC0000) / 32)))
       | _ => 0)
    else if 0xC4000 ≤ off && off < 0xC4800 then w64 (laneMode d ((off - 0xC4000) / 8))
    else if 0xD0000 ≤ off && off < 0xDC000 then readDebug ((off - 0xD0000) / 32) (off % 32) d
    else if 0xE0000 ≤ off && off < 0xE0400 then
      (match off % 32 with
       | 0 => (SMap.get MemWatch.reset d.mwatch ((off - 0xE0000) / 32)).addr
       | 8 => (SMap.get MemWatch.reset d.mwatch ((off - 0xE0000) / 32)).cfg
       | 0x10 => (SMap.get MemWatch.reset d.mwatch ((off - 0xE0000) / 32)).hits
       | _ => 0)
    else if 0xE1000 ≤ off && off < 0xE5000 then (if off % 64 < 0x28 then SMap.get 0 d.ras ((off - 0xE1000) / 8) else 0)
    else if 0xE8000 ≤ off && off < 0xE8400 then readRetire (off % 64) (SMap.get Retire.reset d.retire ((off - 0xE8000) / 64))
    else if 0xF0000 ≤ off && off < 0x100000 then readFabric (off - 0xF0000) d
    else 0 := by
  rw [readReg]
  iterate 12 rw [if_neg (by omega)]
  rw [if_neg (by simp only [Bool.and_eq_true, decide_eq_true_eq]; omega)] <;> rfl

theorem readReg_retire {c k : Nat} (hc : c < 16) (hk : k < 8) : readReg (0xE8000 + 64 * c + 8 * k) Device.reset = readRetire (8 * k) Retire.reset := by
  have hoff : (0xE8000 + 64 * c + 8 * k) % 64 = 8 * k := by omega
  rw [readReg_high (by omega)]
  iterate 6 rw [if_neg (not_area (by omega))]
  rw [if_pos (in_area (by omega)), hoff]
  rfl

theorem readReg_maxvl {n : Nat} (hn : n < 512) :
    readReg (0xC0000 + 32 * n) Device.reset = 16384 ∧ readReg (0xC0000 + 32 * n + 8) Device.reset = 0 := by
  have h0 : (0xC0000 + 32 * n) % 32 = 0 := by omega
  have h8 : (0xC0000 + 32 * n + 8) % 32 = 8 := by omega
  refine ⟨?_, ?_⟩
  · rw [readReg_high (by omega), if_neg (not_area (by omega)), if_pos (in_area (by omega)), h0]
    rfl
  · rw [readReg_high (by omega), if_neg (not_area (by omega)), if_pos (in_area (by omega)), h8]
    rfl

theorem readReg_lanes {c : Nat} (hc : c < 256) : readReg (0xC4000 + 8 * c) Device.reset = 0 := by
  rw [readReg_high (by omega), if_neg (not_area (by omega)), if_neg (not_area (by omega)), if_pos (in_area (by omega))]
  rfl

theorem slotAt_reset (n : Nat) : (slotAt State.reset n).st = .free := by
  unfold slotAt park
  rw [SMap.get_set]
  split <;> rfl

theorem threadAt_reset (r : Nat) : threadAt State.reset r = Thread.absent := by
  unfold threadAt
  split <;> rfl

theorem readByte_reset (k : Nat) : readByte State.reset.dev k = Config.unlistedByte := rfl

/-- Settles O5: nothing is listed in any map of the device, and the rest is its reset constants. -/
theorem resetStateMeets : Obligations.ResetState := by
  refine ⟨⟨rfl, by decide, by decide⟩, fun n r => ⟨slotAt_reset n, by rw [threadAt_reset]; rfl⟩, readByte_reset, fun q hq r hr => ?_,
    fun k hk => readReg_account hk, by decide +kernel, fun c hc k hk => ?_, fun n hn => readReg_maxvl hn, fun c hc => readReg_lanes hc, by decide +kernel,
    fun p hp => ?_⟩
  · have hsmall : ∀ r ∈ [0x00, 0x08, 0x10, 0x20, 0x28], r < 64 ∧ readQueue r UQueue.reset = if r = 8 then 0x100 else 0 := by decide
    rw [readReg_queue hq (hsmall r hr).1, (hsmall r hr).2]
  · have hsmall : ∀ k, k < 8 → readRetire (8 * k) Retire.reset = if k = 0 then 16 else 0 := by decide
    rw [readReg_retire hc hk, hsmall k hk]
  · have hmap : ∀ i, i < 64 → bits defaultMap.toNat (4 * i) 4 = i % 8 := by decide +kernel
    exact hmap

/-! ## Turns -/

/-- A thread that could not take its turn asks for no pipe. -/
theorem wantsPipe_stopped {s : State} (h : canRun s = false) : wantsPipe s = none := by
  unfold wantsPipe
  rw [h]
  rfl

theorem wantsPipe_unfetched {s : State} {c : Nat} (h : fetchWord s = .error c) : wantsPipe s = none := by
  unfold wantsPipe
  rw [h]
  split <;> rfl

theorem sequenced_of_none {s : State} (h : wantsPipe { s with thr.pnd.blocked := false } = none) : sequenced s = false := by
  unfold sequenced
  rw [h, Bool.and_false]

theorem sequenced_mode {s : State} (h : laneMode s.dev (coreOf s) ≠ 2) : sequenced s = false := by
  unfold sequenced
  rw [decide_eq_false h, Bool.false_and]

theorem threadTurn_of {n r : Nat} (hn : n < 512) (hr : r < 3) (s : State) : threadTurn n r s =
    if sequenced (focus s n r) then .next (waitHere (focus s n r))
    else if canRun (focus s n r) then after wakeMates (runWord (focus s n r)) else .next (focus s n r) := by
  unfold threadTurn
  rw [if_neg]
  rw [Bool.or_eq_true, decide_eq_true_eq, decide_eq_true_eq]
  omega

theorem runWord_ok {s : State} {w : BitVec 32} {i : Instr} (hf : fetchWord s = .ok w) (hd : decode w = .ok i) : runWord s = exec i s := by
  unfold runWord
  rw [hf]
  dsimp only
  rw [hd]

theorem runWord_illegal {s : State} {w : BitVec 32} {e : Reject} (hrun : canRun s = true) (hf : fetchWord s = .ok w) (hd : decode w = .error e) :
    runWord s = .next (inOrder s (takeTrap w 0x01 s.thr.pc (w.setWidth 64) 0 (if inBody s && bodyBans w then { s with thr.hid.active := false } else s))) := by
  have hno := isInstr_eq_false_of_error hd
  have hexec : execIllegalInstr s = .next (inOrder s (takeTrap w 0x01 s.thr.pc (w.setWidth 64) 0
      (if inBody s && bodyBans w then { s with thr.hid.active := false } else s))) := by
    unfold execIllegalInstr
    rw [hrun, hf]
    dsimp only
    rw [hno]
    rfl
  unfold runWord
  rw [hf]
  dsimp only
  rw [hd]
  exact hexec

theorem runWord_unfetched {s : State} {c : Nat} (hrun : canRun s = true) (hf : fetchWord s = .error c) :
    runWord s = .next (inOrder s (takeTrap 0 c s.thr.pc s.thr.pc 0 s)) := by
  have hexec : execFetchFault s = .next (inOrder s (takeTrap 0 c s.thr.pc s.thr.pc 0 s)) := by
    unfold execFetchFault
    rw [hrun, hf]
    rfl
  unfold runWord
  rw [hf]
  exact hexec

/-- One turn of the tape. -/
theorem step_turn {s : State} {t : Turn} {r : List Turn} (h : s.dev.sched = t :: r) : step s = doTurn t { s with dev.sched := r } := by
  unfold step
  rw [h]

theorem step_untaped {s : State} (h : s.dev.sched = []) : step s = doTurn (defaultTurn s) s := by
  unfold step
  rw [h]

theorem sched_empty {s : State} (h : s.dev.sched = []) : ({ s with dev.sched := [] } : State) = s := by rw [← h]

/-! ## The program placed from outside -/

/-- The machine after reset with a thread that can run, before its word is stored. -/
def bareThread : State := placeThread State.reset

/-- A state with a word stored at its frame. -/
def wordAt (s : State) (pa : Nat) (w : BitVec 32) : State := { s with dev := writeBytes s.dev pa (bytesOfWord w) }

theorem placeWord_at {s : State} {pa : Nat} (w : BitVec 32) (h : fetchAddr s s.thr.pc.toNat = .ok pa) (hl : s.dev.l1i = []) :
    placeWord w s = wordAt s pa w := by
  have hf : s.dev.l1i.filter (fun l => l.line != pa / 64) = s.dev.l1i := by rw [hl]; rfl
  have hd := congrArg (fun l => ({ s with dev := writeBytes { s.dev with l1i := l } pa (bytesOfWord w) } : State)) hf
  unfold placeWord
  rw [h]
  exact hd

theorem wordAt_frame (s : State) (pa : Nat) (w : BitVec 32) : Homes s.dev (wordAt s pa w).dev := homes_writeBytes _ _ _

theorem writeBytes_poison (d : Device) (k : Nat) (bs : List Byte) : (writeBytes d k bs).poison = d.poison := by
  induction bs generalizing d k with
  | nil => rfl
  | cons b r ih =>
    rw [writeBytes, ih]
    rfl

theorem readNat_outside {d : Device} (h : d.retire = []) {bs : List Byte} {k ea n : Nat} (hk : ea + n ≤ k) :
    readNat (writeBytes d k bs) ea n = readNat d ea n := by
  unfold readNat readBytes
  refine congrArg leNat (List.map_congr_left fun j hj => ?_)
  exact readByte_writeBytes_outside h bs k j (.inl (by have := mem_upFrom.mp hj; omega))

/-- A walk whose tables all lie below a place. -/
def TablesBelow (d : Device) (va k : Nat) : Nat → Nat → Prop
  | 0, table => table + 4096 ≤ k
  | n + 1, table => table + 4096 ≤ k ∧ (bit (readNat d (table + 8 * bits va (16 + 9 * (n + 1)) 9) 8) 1 = false →
      TablesBelow d va k n (bits (readNat d (table + 8 * bits va (16 + 9 * (n + 1)) 9) 8) 12 51 * 4096))

/-- A write above every table of a walk changes nothing of it. -/
theorem walkFrom_outside {d : Device} {va k : Nat} {bs : List Byte} (hr : d.retire = []) (hp : d.poison = []) {level table : Nat}
    (h : TablesBelow d va k level table) : walkFrom (writeBytes d k bs) va level table = walkFrom d va level table := by
  have hboot : (writeBytes d k bs).boot = d.boot := by rw [(homes_writeBytes bs d k).frame]
  have hlocal : ∀ a, isLocalDev (writeBytes d k bs) a = isLocalDev d a := fun a => by unfold isLocalDev paKind; rw [hboot]
  have hclean : ∀ a, poisoned (writeBytes d k bs) a = poisoned d a := fun a => by
    unfold poisoned
    rw [writeBytes_poison, hp]
    rfl
  have hindex : ∀ n, bits va (16 + 9 * n) 9 < 2 ^ 9 := fun n => Nat.mod_lt _ (by decide)
  induction level generalizing table with
  | zero =>
    have hread := readNat_outside hr (bs := bs) (k := k) (ea := table + 8 * bits va (16 + 9 * 0) 9) (n := 8) (by
      have h : table + 4096 ≤ k := h
      have := hindex 0
      omega)
    rw [walkFrom, walkFrom, hlocal, hclean, hread]
  | succ n ih =>
    obtain ⟨hk, hrest⟩ := h
    have hread := readNat_outside hr (bs := bs) (k := k) (ea := table + 8 * bits va (16 + 9 * (n + 1)) 9) (n := 8) (by
      have := hindex (n + 1)
      omega)
    rw [walkFrom, walkFrom, hlocal, hclean, hread]
    cases hb : bit (readNat d (table + 8 * bits va (16 + 9 * (n + 1)) 9) 8) 1 with
    | true => simp only [if_true]
    | false => rw [ih (hrest hb)]

theorem fetchAddr_wordAt {s : State} {pa va : Nat} (w : BitVec 32) (hr : s.dev.retire = []) (hp : s.dev.poison = [])
    (h : TablesBelow s.dev va pa 3 (bits s.slot.iroot.toNat 12 51 * 4096)) : fetchAddr (wordAt s pa w) va = fetchAddr s va := by
  have hframe := (wordAt_frame s pa w).frame
  have htlb : tlbFind (wordAt s pa w).dev (coreOf s) s.slot.ctx true va = tlbFind s.dev (coreOf s) s.slot.ctx true va := by rw [hframe]; rfl
  have hlocal : ∀ a, isLocalDev (wordAt s pa w).dev a = isLocalDev s.dev a := fun a => by rw [hframe]; rfl
  have hwalk : walkInstr (wordAt s pa w).dev s.slot.iroot va = walkInstr s.dev s.slot.iroot va := by
    unfold walkInstr
    simp only [hlocal]
    rw [show walkFrom (wordAt s pa w).dev va 3 _ = _ from walkFrom_outside hr hp h]
  unfold fetchAddr
  rw [show tlbFind (wordAt s pa w).dev (coreOf (wordAt s pa w)) (wordAt s pa w).slot.ctx true va = _ from htlb,
    show walkInstr (wordAt s pa w).dev (wordAt s pa w).slot.iroot va = _ from hwalk]
  rfl

/-- A word stored where the thread fetches is fetched. -/
theorem fetchWord_wordAt {s : State} {pa : Nat} (w : BitVec 32) (hr : s.dev.retire = []) (hp : s.dev.poison = []) (hl : s.dev.l1i = [])
    (ha : fetchAddr s s.thr.pc.toNat = .ok pa) (h : TablesBelow s.dev s.thr.pc.toNat pa 3 (bits s.slot.iroot.toNat 12 51 * 4096)) :
    fetchWord (wordAt s pa w) = .ok w := by
  have hl1i : (wordAt s pa w).dev.l1i = [] := by rw [(wordAt_frame s pa w).frame]; exact hl
  have hclean : poisoned (wordAt s pa w).dev pa = false := by
    unfold poisoned
    rw [show (wordAt s pa w).dev.poison = [] from (writeBytes_poison _ _ _).trans hp]
    rfl
  have hbyte : ∀ k, fetchByte (wordAt s pa w) k = readByte (wordAt s pa w).dev k := fun k => by
    unfold fetchByte l1iFind
    rw [hl1i]
    rfl
  have hbytes : [readByte (wordAt s pa w).dev pa, readByte (wordAt s pa w).dev (pa + 1), readByte (wordAt s pa w).dev (pa + 2),
    readByte (wordAt s pa w).dev (pa + 3)] = bytesOfWord w := readBytes_writeBytes hr (bytesOfWord w) pa
  injection hbytes with h0 hbytes
  injection hbytes with h1 hbytes
  injection hbytes with h2 hbytes
  injection hbytes with h3 _
  unfold fetchWord
  rw [show fetchAddr (wordAt s pa w) (wordAt s pa w).thr.pc.toNat = .ok pa from (fetchAddr_wordAt w hr hp h).trans ha]
  dsimp only
  rw [hclean, Bool.and_false, hbyte, hbyte, hbyte, hbyte, h0, h1, h2, h3, wordOfBytes_fld]
  rfl

theorem bareThread_fetches : fetchAddr bareThread bareThread.thr.pc.toNat = .ok 0x2000000 := by decide +kernel

theorem bareThread_tables : TablesBelow bareThread.dev bareThread.thr.pc.toNat 0x2000000 3 (bits bareThread.slot.iroot.toNat 12 51 * 4096) := by
  refine ⟨?_, fun _ => ⟨?_, fun _ => ⟨?_, fun h => absurd h ?_⟩⟩⟩ <;> decide +kernel

/-- Settles O4: a turn is its own effect, and the placed word is the one that the next step fetches. -/
theorem stepRunsInstruction : Obligations.StepRunsInstruction := by
  refine ⟨fun s n r rest hn hr => ⟨fun hs => ?_, fun i a hs hi => ?_, fun hs hd => ?_⟩, fun w i hd => ?_⟩
  · intro t
    have hstep : step s = threadTurn n r { s with dev.sched := rest } := step_turn hs
    rw [threadTurn_of hn hr] at hstep
    have hcur : coreOf t = n / 2 := congrArg (fun c : Nat × Nat => c.1 / 2) (focus_cur _ n r)
    refine ⟨fun hq => ?_, fun hm => sequenced_mode (by rw [hcur]; exact hm), fun hrun hq w i hf hd => ?_, fun hrun hq w e hf hd => ?_,
      fun hrun c hf => ?_, fun hrun => ?_⟩
    · rw [hstep, if_pos hq]
      rfl
    · rw [hstep, if_neg (by rw [hq]; decide), if_pos hrun, runWord_ok hf hd]
    · rw [hstep, if_neg (by rw [hq]; decide), if_pos hrun, runWord_illegal hrun hf hd]
      rfl
    · have hq : sequenced t = false := sequenced_of_none (wantsPipe_unfetched (s := { t with thr.pnd.blocked := false }) hf)
      rw [hstep, if_neg (by rw [hq]; decide), if_pos hrun, runWord_unfetched hrun hf]
      rfl
    · have hq : sequenced t = false := sequenced_of_none (wantsPipe_stopped (s := { t with thr.pnd.blocked := false }) hrun)
      rw [hstep, if_neg (by rw [hq]; decide), if_neg (by rw [hrun]; decide)]
  · rw [step_turn hs]
    show (if i.hasWord = true then _ else _) = _
    rw [if_neg (by rw [hi]; decide)]
  · have htape := step_turn (s := { s with dev.sched := [.thread n r] }) (t := .thread n r) (r := []) rfl
    rw [step_untaped hs, hd, htape]
    exact congrArg _ (sched_empty hs).symm
  · have hplace : placeWord w bareThread = wordAt bareThread 0x2000000 w := placeWord_at w bareThread_fetches (by decide +kernel)
    have hfetch : fetchWord (wordAt bareThread 0x2000000 w) = .ok w :=
      fetchWord_wordAt w (by decide +kernel) (by decide +kernel) (by decide +kernel) bareThread_fetches bareThread_tables
    obtain ⟨t, ht⟩ : ∃ t, t = wordAt bareThread 0x2000000 w := ⟨_, rfl⟩
    have hthr : t.thr = bareThread.thr := by rw [ht]; rfl
    have hslot : t.slot = bareThread.slot := by rw [ht]; rfl
    have hrun : canRun t = true := by
      unfold canRun
      rw [hthr, hslot]
      decide +kernel
    have hlanes : laneMode t.dev (coreOf t) ≠ 2 := by
      have hlpart : t.dev.lpart = [] := by rw [ht, (wordAt_frame bareThread 0x2000000 w).frame]; rfl
      unfold laneMode
      rw [hlpart]
      exact Nat.zero_ne_add_one 1
    have hcur : t.cur = (0, 1) := by rw [ht]; rfl
    have hsched : t.dev.sched = [] := by rw [ht, (wordAt_frame bareThread 0x2000000 w).frame]; rfl
    have hstart : State.reset.withFetchWord 32 w.toNat = { t with dev.sched := [.thread 0 1] } := by
      have hw : placedWord 32 w.toNat = w := by
        unfold placedWord
        rw [Nat.mod_eq_of_lt w.isLt, BitVec.ofNat_toNat, BitVec.setWidth_eq]
      unfold State.withFetchWord
      rw [hw, show placeThread State.reset = bareThread from rfl, hplace, ← ht]
      dsimp only
      rw [hcur, hsched]
    refine ⟨t, by rw [hthr]; decide +kernel, by rw [hthr]; decide +kernel, hrun, ht ▸ hfetch, ?_⟩
    rw [hstart, step_turn (s := { t with dev.sched := [.thread 0 1] }) (t := .thread 0 1) (r := []) rfl]
    rw [show ({ ({ t with dev.sched := [.thread 0 1] } : State) with dev.sched := [] } : State) = t from sched_empty hsched]
    have hfocus : focus t 0 1 = t := by
      unfold focus
      rw [if_pos hcur]
    show threadTurn 0 1 t = _
    rw [threadTurn_of (by decide) (by decide), hfocus, if_neg (by rw [sequenced_mode hlanes]; decide), if_pos hrun, runWord_ok (ht ▸ hfetch) hd]

end Sys2Proof.Machine
end

section
/-! PROOFS. What befalls a thread without a word of its own (O53): each event brings its thread into focus, does one thing there and returns. -/

namespace Sys2Proof.Machine

/-! ## WPOLL -/

theorem fits_wpoll (d a : BitVec 5) (sc : BitVec 4) : fits (encode (.wpoll d a sc)) 0xFC00F0FF 0x78003000 = true := (fits_iff _ _ _).mpr (by
  simp (disch := decide) only [encode, BitVec.and_or_distrib_right, put_and_apart, BitVec.or_zero]
  rfl)

theorem fld_wpoll (d a : BitVec 5) (sc : BitVec 4) : fld (encode (.wpoll d a sc)) 21 5 = d ∧ fld (encode (.wpoll d a sc)) 16 5 = a ∧
    fld (encode (.wpoll d a sc)) 8 4 = sc := by
  refine ⟨?_, ?_, ?_⟩ <;>
    simp (disch := decide) only [encode, fld_or, fld_put_same, fld_put_apart, BitVec.or_zero, fld_const_or]

/-- The `wpoll` that sleeps is carried out again. -/
theorem pollAgain_eq {u : State} {d a : BitVec 5} {sc : BitVec 4} {since : Nat} (hrun : canRun u = true) (hs : u.thr.pnd.wpollSince = some since)
    (hf : fetchWord u = .ok (encode (.wpoll d a sc))) : pollAgain u = pollWord d a sc u := by
  obtain ⟨h1, h2, h3⟩ := fld_wpoll d a sc
  unfold pollAgain
  rw [hrun, hs, hf]
  dsimp only
  rw [fits_wpoll, h1, h2, h3]
  rfl

/-- A `wpoll` read again that ends its wait. -/
theorem pollAgain_ends {u : State} {d a : BitVec 5} {sc : BitVec 4} {since : Nat} {bs : List Byte} {locs : List Loc} (hrun : canRun u = true)
    (hc : Calm u) (hp : NoPort u [a.toNat, d.toNat]) (hs : u.thr.pnd.wpollSince = some since) (hf : fetchWord u = .ok (encode (.wpoll d a sc)))
    (hl : loadBytes u 15 8 (xr u a).toNat 8 = .ok bs locs) (hend : w64 (leNat bs) ≠ xr u d ∨ 2 ^ 20 ≤ cycNow u - since) :
    (pollAgain u).thr.pc = u.thr.pc + 4 ∧ (pollAgain u).thr.pnd.wpollSince = none ∧ (d ≠ 0 → rx (pollAgain u) d.toNat = w64 (leNat bs)) ∧
      ∀ r, r ≠ d.toNat → rx (pollAgain u) r = rx u r := by
  obtain ⟨hgo, -⟩ := wpollWaitsForChange u d a sc bs locs hc hp
  rw [hs] at hgo
  obtain ⟨t, hex, ht⟩ := hgo hl hend
  have hword : pollWord d a sc u = t := Host.Outcome.next.inj ((show exec (.wpoll d a sc) u = .next (pollWord d a sc u) from rfl).symm.trans hex)
  rw [pollAgain_eq hrun hs hf, hword]
  exact ht

/-! ## Arrivals -/

/-- What an arrival at a group makes of its launch (R213). -/
theorem arriveGroup_spec (g key : Nat) (l : Launch) :
    let came := { l with arrived := SMap.set [] l.arrived g (SMap.get [] l.arrived g ++ [key]) }
    let all := (groupMembers l g).all (slotArrived came g)
    SMap.get 0 (arriveGroup g key l).done g = SMap.get 0 l.done g + (if all then 1 else 0) ∧
      SMap.get [] (arriveGroup g key l).arrived g = (if all then [] else SMap.get [] l.arrived g ++ [key]) := by
  intro came all
  have hcame : SMap.get [] came.arrived g = SMap.get [] l.arrived g ++ [key] := SMap.get_set_self _ _ _ _
  have hsome : (SMap.get [] came.arrived g).isEmpty = false := by
    rw [hcame]
    cases SMap.get [] l.arrived g <;> rfl
  have harrive : arriveGroup g key l = if all then
      { came with done := SMap.set 0 came.done g (SMap.get 0 came.done g + 1), arrived := SMap.set [] came.arrived g [] } else came := by
    show settleGroup g came = _
    unfold settleGroup
    rw [hsome]
    rfl
  rw [harrive]
  cases all with
  | true => exact ⟨SMap.get_set_self 0 came.done g (SMap.get 0 came.done g + 1), SMap.get_set_self [] came.arrived g []⟩
  | false => exact ⟨rfl, hcame⟩

/-- No store stands before a moment. -/
theorem no_earlier_store {l : List PStore} {n : Nat} (h : ∀ p ∈ l, p.fence = 0 → n < p.ser) : l.any (fun p => p.fence = 0 && p.ser ≤ n) = false := by
  rw [List.any_eq_false]
  intro p hp
  rw [Bool.and_eq_true, decide_eq_true_eq, decide_eq_true_eq]
  rintro ⟨hf, hle⟩
  exact absurd (h p hp hf) (by omega)

/-- An event of a thread is a change made with that thread in focus. -/
def IsThreadEvent (i : Instr) (f : State → State) : Prop := ∀ s, exec i s = .next (within s.dev.arg.slot s.dev.arg.role f s)

theorem threadEvent_exec {i : Instr} {f : State → State} {s t : State} (h : IsThreadEvent i f) (ht : f (focus s s.dev.arg.slot s.dev.arg.role) = t) :
    exec i s = .next (focus t s.cur.1 s.cur.2) := by
  rw [h s, ← ht]
  rfl

theorem fenceArrArrival_event : ∃ f, IsThreadEvent .fenceArrArrival f ∧ ∀ (u : State) (x : GroupArr) (r : List GroupArr), u.thr.pnd.groupArrs = x :: r →
    (∀ p ∈ u.thr.pnd.stores, p.fence = 0 → x.upto < p.ser) → tileAccess u 0xFFFF (x.upto + 1) = false →
    f u = { u with thr.pnd.groupArrs := r, dev := mapLaunch (ownLaunch u) (arriveGroup x.group (ownKey u)) u.dev } := by
  refine ⟨_, fun _ => rfl, fun u x r hq hst ht => ?_⟩
  dsimp only
  rw [hq]
  dsimp only
  rw [no_earlier_store hst, ht]
  rfl

theorem takeArrival_effect {u : State} {x : BarArr} {r : List BarArr} (hq : u.thr.pnd.barArrs = x :: r)
    (hst : ∀ p ∈ u.thr.pnd.stores, p.fence = 0 → x.upto < p.ser) :
    takeArrival u = updateBar x.bar (fun b => barArrive (barExpect x.exp b)) { u with thr.pnd.barArrs := r } := by
  unfold takeArrival
  rw [hq]
  dsimp only
  rw [no_earlier_store hst]
  rfl

/-! ## The vector unit -/

theorem vectorWordComplete_event : ∃ f, IsThreadEvent .vectorWordComplete f ∧ ∀ (u : State) (x : Replay) (r : List Replay), u.thr.pnd.replay = x :: r →
    f u = { u with
      thr.pnd.replay := r
      dev := if x.chk = true ∧ checkedWord x.word = true ∧ min u.dev.arg.num (laneSlots x) ≠ 0 then
        addRas (coreOf u) 0 (min u.dev.arg.num (laneSlots x)) u.dev else u.dev } := by
  refine ⟨_, fun _ => rfl, fun u x r hq => ?_⟩
  dsimp only
  rw [hq]
  dsimp only
  by_cases h : x.chk = true ∧ checkedWord x.word = true ∧ min u.dev.arg.num (laneSlots x) ≠ 0
  · rw [if_pos h, if_pos (by simpa [and_assoc] using h)]
    rfl
  · rw [if_neg h, if_neg (by simpa [and_assoc] using h)]

theorem fetchWord_ras (u : State) (c k n : Nat) : fetchWord { u with dev := addRas c k n u.dev } = fetchWord u := rfl

theorem replayOnce_once (u : State) (n : Nat) : replayOnce false n u = { u with dev := addRas (coreOf u) 3 1 u.dev } := rfl

/-- A word reissued that meets a second error traps at itself (R359). -/
theorem replayOnce_again {u : State} {w : BitVec 32} (n : Nat) (hrun : canRun u = true) (hf : fetchWord u = .ok w) (hp : pipeWord w = true) :
    replayOnce true n u = takeTrap w 0x31 u.thr.pc (w.setWidth 64) (w64 n) { u with thr.pnd.replay := [], dev := addRas (coreOf u) 3 1 u.dev } := by
  have hrun' : canRun { u with dev := addRas (coreOf u) 3 1 u.dev } = true := hrun
  unfold replayOnce
  dsimp only
  rw [hrun', fetchWord_ras, hf]
  dsimp only
  rw [hp]
  rfl

/-! ## Acknowledged stores -/

theorem clearPoison_fab (d : Device) (l : List Nat) : (clearPoison d l).fab = d.fab := by rw [(homes_clearPoison d l).frame]

theorem clearWhole_fab (p : PStore) (s : State) : (clearWhole p s).dev.fab = s.dev.fab := by
  unfold clearWhole
  split
  · rfl
  · dsimp only
    generalize s.thr.pnd.whole.filter _ = now
    generalize s.dev = d
    induction now generalizing d with
    | nil => rfl
    | cons x r ih => rw [List.foldl_cons, ih, clearPoison_fab]

/-- Performing a store leaves the fabric as it was. -/
theorem performAt_fab {s : State} {i : Nat} {p : PStore} (hp : s.thr.pnd.stores[i]? = some p) : (performAt i s).dev.fab = s.dev.fab := by
  have hbytes : ∀ (w : Writer) (acct core op : Nat) (bs : List (Nat × Byte × Byte)) (d : Device),
      (updateLines core bs (performBytes w acct op bs d)).fab = d.fab := fun w acct core op bs d => by
    rw [updateLines_eq, (homes_performBytes w acct op bs d).frame]
  have hlines : ∀ (c : Prop) [Decidable c] (t : State), (if c then newLines t else t).dev.fab = t.dev.fab := fun c _ t => by split <;> rfl
  unfold performAt performWith
  rw [hp]
  dsimp only
  split
  · split <;> rfl
  · rw [hlines, clearWhole_fab]
    generalize homeBytes scatAdd _ p = bs
    cases hb : bs.isEmpty with
    | true => simp only [Bool.or_true, if_true]
    | false =>
      simp only [Bool.or_false, Bool.false_eq_true, if_false]
      split
      · exact hbytes _ _ _ _ _ _
      · exact hbytes _ _ _ _ _ _

/-- The store that its home acknowledges is performed; its request and the reads that it passed are gone (R376, R378). -/
theorem ackStore_performs {u : State} {dn n i : Nat} {q : RemReq}
    (hi : u.thr.pnd.stores.findIdx? (fun p => decide (p.sent = some (dn, n))) = some i)
    (hq : u.dev.fab.reqs.find? (fun r => decide (r.own = 0 ∧ r.dst = dn ∧ r.seq = n)) = some q) (he : eligible u i = true)
    (hun : unreachable u.dev dn = false) (hheld : q.held = false) (hown : ∀ r ∈ aheadOf q u.dev, r.own ≠ 0) :
    ackStore dn n u = performAt i { u with dev.fab.reqs := u.dev.fab.reqs.filter (fun e => e != q && !(aheadOf q u.dev).contains e) } := by
  have hstore : (fun r : RemReq => r.isStore dn n) = fun r => decide (r.own = 0 ∧ r.dst = dn ∧ r.seq = n) := by
    funext r
    unfold RemReq.isStore
    rw [Bool.and_assoc, ← Bool.decide_and, ← Bool.decide_and]
  have hfirst : (aheadOf q u.dev).all (fun e => e.own != 0) = true := List.all_eq_true.mpr (fun r hr => bne_iff_ne.mpr (hown r hr))
  unfold ackStore
  rw [hi, hstore, hq]
  dsimp only
  rw [he, hheld, hun, hfirst]
  rfl

/-- Settles O53: each event is what its function does with the thread in focus. -/
theorem threadEvents : Obligations.ThreadEvents := by
  intro s u back
  have hevent : ∀ {i : Instr} {f : State → State} {t : State}, IsThreadEvent i f → f u = t → exec i s = .next (back t) := fun h ht => threadEvent_exec h ht
  have harg : u.dev.arg = s.dev.arg := by
    show (focus s _ _).dev.arg = _
    rw [focus_dev]
  refine ⟨fun h => ?_, fun d a sc since bs locs hrun hc hp hs hf hl => ⟨fun hlate => ?_, fun hx => ?_⟩, fun x r l hq hst ht hl => ?_, fun x r hq hst => ?_,
    fun x r hq => ?_, fun ho => ?_, fun w ho hrun hf hp => ?_, fun w hrun ha hf hi => ?_, fun c hrun ha hf => ?_,
    fun i p q hi hp he hun hq hheld hown hfence hupd hn hret hwatch => ?_⟩
  · exact hevent (f := fun s => if s.thr.pnd.readyAt ≤ cycNow s then { s with thr.pnd.readyAt := 0 } else s) (fun _ => rfl) (if_pos h)
  · refine ⟨pollAgain u, ?_, pollAgain_ends hrun hc hp hs hf hl (.inr hlate)⟩
    obtain ⟨f, hex, hf'⟩ : ∃ f, IsThreadEvent .wpollTimeout f ∧ f u = pollAgain u := by
      refine ⟨_, fun _ => rfl, ?_⟩
      rw [hs]
      exact if_pos hlate
    exact hevent hex hf'
  · exact ⟨pollAgain u, hevent (f := pollAgain) (fun _ => rfl) rfl, pollAgain_ends hrun hc hp hs hf hl (.inl hx)⟩
  · intro came all
    obtain ⟨f, hex, hf⟩ := fenceArrArrival_event
    have hmap : mapLaunch (ownLaunch u) (arriveGroup x.group (ownKey u)) u.dev =
        { u.dev with launches := SMap.put u.dev.launches (ownLaunch u) (arriveGroup x.group (ownKey u) l) } := by
      unfold mapLaunch
      rw [hl]
      rfl
    refine ⟨arriveGroup x.group (ownKey u) l, hevent hex ((hf u x r hq hst ht).trans (by rw [hmap])), arriveGroup_spec x.group (ownKey u) l⟩
  · exact hevent (f := takeArrival) (fun _ => rfl) (takeArrival_effect hq hst)
  · obtain ⟨f, hex, hf⟩ := vectorWordComplete_event
    exact hevent hex (hf u x r hq)
  · refine hevent (f := fun s => replayOnce s.dev.arg.ok2 s.dev.arg.num s) (fun _ => rfl) ?_
    show replayOnce u.dev.arg.ok2 _ u = _
    rw [ho, replayOnce_once]
  · refine hevent (f := fun s => replayOnce s.dev.arg.ok2 s.dev.arg.num s) (fun _ => rfl) ?_
    show replayOnce u.dev.arg.ok2 _ u = _
    rw [ho, replayOnce_again _ hrun hf hp]
  · show execIllegalInstr s = _
    unfold execIllegalInstr
    rw [hrun, hf]
    dsimp only
    rw [hi]
    refine congrArg Host.Outcome.next ((if_neg (by decide)).trans ((if_neg (by decide)).trans ((if_pos ha).trans ?_)))
    exact congrArg _ (if_congr (Bool.and_eq_true _ _ ▸ Iff.rfl) rfl rfl)
  · show execFetchFault s = _
    unfold execFetchFault
    rw [hrun, hf]
    exact congrArg Host.Outcome.next (if_pos ha)
  · have hack := ackStore_performs hi hq he hun hheld hown
    obtain ⟨v, hv⟩ : ∃ v : State, v = { u with dev.fab.reqs := u.dev.fab.reqs.filter (fun e => e != q && !(aheadOf q u.dev).contains e) } := ⟨_, rfl⟩
    rw [← hv] at hack
    have hvp : v.thr.pnd.stores[i]? = some p := by rw [hv]; exact hp
    obtain ⟨h1, h2, -, -, -⟩ := performAt_store hvp hfence hupd hn (by rw [hv]; exact hret) (by rw [hv]; exact hwatch)
    have hreqs : (performAt i v).dev.fab.reqs = u.dev.fab.reqs.filter (fun e => e != q && !(aheadOf q u.dev).contains e) := by
      rw [performAt_fab hvp, hv]
    refine ⟨performAt i v, ?_, ?_, ?_, fun r hr hne hno => ?_, fun b hb => ?_⟩
    · rw [harg] at hack
      exact congrArg (fun t => Host.Outcome.next (back t)) hack
    · rw [h1, hv]
    · rw [hreqs]
      simp
    · rw [hreqs, List.mem_filter]
      refine ⟨hr, ?_⟩
      simp [hne, hno]
    · rw [h2 b hb, hv]
      rfl

end Sys2Proof.Machine
end

section

/-! PROOFS. What the operations that instructions share leave alone: the thread in focus and memory, or at least the canonical form of
memory (for O6). A lemma `f_kept` says that f keeps both, `f_safe` that it keeps the focus and the canonical form, `f_wf` the form alone. -/

namespace Sys2Proof.Machine

/-- The state that an answer of a meaning holds. -/
def Res.last : Res → State
  | .done s => s
  | .jump _ s => s
  | .trap _ _ _ s => s
  | .trapAt _ _ _ _ s => s
  | .wait s => s
  | .final s => s

@[simp] theorem Res.last_done (s : State) : (Res.done s).last = s := rfl

@[simp] theorem Res.last_jump (p : Word) (s : State) : (Res.jump p s).last = s := rfl

@[simp] theorem Res.last_trap (c : Nat) (v w : Word) (s : State) : (Res.trap c v w s).last = s := rfl

@[simp] theorem Res.last_trapAt (c : Nat) (p v w : Word) (s : State) : (Res.trapAt c p v w s).last = s := rfl

@[simp] theorem Res.last_wait (s : State) : (Res.wait s).last = s := rfl

@[simp] theorem Res.last_final (s : State) : (Res.final s).last = s := rfl

section

variable (c : Prop) [Decidable c]

@[simp] theorem cur_ite (s t : State) : (if c then s else t).cur = if c then s.cur else t.cur :=
  apply_ite State.cur c s t

@[simp] theorem dev_ite (s t : State) : (if c then s else t).dev = if c then s.dev else t.dev :=
  apply_ite State.dev c s t

@[simp] theorem mem_ite (d e : Device) : (if c then d else e).mem = if c then d.mem else e.mem :=
  apply_ite Device.mem c d e

@[simp] theorem last_ite (r q : Res) : (if c then r else q).last = if c then r.last else q.last :=
  apply_ite Res.last c r q

end

section

variable {α : Type}

@[simp] theorem foldl_cur (g : State → α → State) (h : ∀ s a, (g s a).cur = s.cur) (l : List α) (s : State) :
    (l.foldl g s).cur = s.cur := by
  induction l generalizing s with
  | nil => rfl
  | cons a l ih => rw [List.foldl_cons, ih, h]

@[simp] theorem foldl_mem (g : State → α → State) (h : ∀ s a, (g s a).dev.mem = s.dev.mem) (l : List α) (s : State) :
    (l.foldl g s).dev.mem = s.dev.mem := by
  induction l generalizing s with
  | nil => rfl
  | cons a l ih => rw [List.foldl_cons, ih, h]

@[simp] theorem foldl_device_mem (g : Device → α → Device) (h : ∀ d a, (g d a).mem = d.mem) (l : List α) (d : Device) :
    (l.foldl g d).mem = d.mem := by
  induction l generalizing d with
  | nil => rfl
  | cons a l ih => rw [List.foldl_cons, ih, h]

@[simp] theorem foldl_wf (g : State → α → State) (h : ∀ s a, Memory.wf s.dev.mem = true → Memory.wf (g s a).dev.mem = true) (l : List α) (s : State)
    (hs : Memory.wf s.dev.mem = true) : Memory.wf (l.foldl g s).dev.mem = true := by
  induction l generalizing s with
  | nil => exact hs
  | cons a l ih => exact ih _ (h s a hs)

@[simp] theorem foldl_device_wf (g : Device → α → Device) (h : ∀ d a, Memory.wf d.mem = true → Memory.wf (g d a).mem = true) (l : List α) (d : Device)
    (hd : Memory.wf d.mem = true) : Memory.wf (l.foldl g d).mem = true := by
  induction l generalizing d with
  | nil => exact hd
  | cons a l ih => exact ih _ (h d a hd)

end

@[simp] theorem park_mem (s : State) : (park s).mem = s.dev.mem := rfl

@[simp] theorem unpark_mem (d : Device) (n r : Nat) : (unpark d n r).dev.mem = d.mem := rfl

@[simp] theorem unpark_cur (d : Device) (n r : Nat) : (unpark d n r).cur = (n, r) := rfl

@[simp] theorem within_mem (n r : Nat) (f : State → State) (s : State) (h : ∀ t, (f t).dev.mem = t.dev.mem) :
    (within n r f s).dev.mem = s.dev.mem := by simp [within, h]

@[simp] theorem within_wf (n r : Nat) (f : State → State) (s : State) (h : ∀ t, Memory.wf t.dev.mem = true → Memory.wf (f t).dev.mem = true)
    (hs : Memory.wf s.dev.mem = true) : Memory.wf (within n r f s).dev.mem = true := by
  simpa [within] using h _ (by simpa using hs)

@[simp] theorem writeByte_wf (d : Device) (k : Nat) (b : Byte) (h : Memory.wf d.mem = true) :
    Memory.wf (writeByte d k b).mem = true :=
  wf_writeByte d k b h

/-! ## Bytes at their homes -/

@[simp] theorem clearPoison_kept (d : Device) (keys : List Nat) : (clearPoison d keys).mem = d.mem := by
  simp [clearPoison]

/-! ## L1 data cache (R245) -/

@[simp] theorem l1dUpdate_kept (d : Device) (core key : Nat) (mask data : Byte) :
    (l1dUpdate d core key mask data).mem = d.mem := by simp [l1dUpdate]

@[simp] theorem l1dDropAll_kept (d : Device) (core : Nat) : (l1dDropAll d core).mem = d.mem := by
  simp [l1dDropAll]

/-! ## Scalar registers (R8, R74, R209) -/

@[simp] theorem wx_kept (n : Nat) (v : Word) (s : State) :
    (wx n v s).cur = s.cur ∧ (wx n v s).dev.mem = s.dev.mem := by simp [wx]

/-! ## Vector, mask and moment registers (R7, R34, R206, R345) -/

@[simp] theorem wv_kept (n : Nat) (v : VReg) (top : Nat) (s : State) :
    (wv n v top s).cur = s.cur ∧ (wv n v top s).dev.mem = s.dev.mem := by
  unfold wv
  dsimp only
  (repeat' split) <;> simp

@[simp] theorem mendBits_kept (cls num lo len : Nat) (s : State) :
    (mendBits cls num lo len s).cur = s.cur ∧ (mendBits cls num lo len s).dev.mem = s.dev.mem := by simp [mendBits]

@[simp] theorem wk_kept (n : Nat) (v : KReg) (topBits : Nat) (s : State) :
    (wk n v topBits s).cur = s.cur ∧ (wk n v topBits s).dev.mem = s.dev.mem := by
  simp [wk]

@[simp] theorem wm_kept (n : Nat) (v : KReg) (top : Nat) (s : State) :
    (wm n v top s).cur = s.cur ∧ (wm n v top s).dev.mem = s.dev.mem := by simp [wm]

@[simp] theorem setElemV_kept (base ew i val : Nat) (s : State) :
    (setElemV base ew i val s).cur = s.cur ∧ (setElemV base ew i val s).dev.mem = s.dev.mem := by simp [setElemV]

@[simp] theorem setPairM_kept (base i : Nat) (pr : Nat × Nat) (s : State) :
    (setPairM base i pr s).cur = s.cur ∧ (setPairM base i pr s).dev.mem = s.dev.mem := by simp [setPairM]

/-! ## Ungrafting (R293) -/

@[simp] theorem ungraft_kept (trap : Option FaultRec) (s : State) :
    (ungraft trap s).cur = s.cur ∧ (ungraft trap s).dev.mem = s.dev.mem := by
  unfold ungraft
  split <;> simp

/-! ## Traps (R14, R23 to R26, R318, R325) -/

@[simp] theorem enterHandler_kept (w : BitVec 32) (cause : Nat) (tpc val val2 : Word) (s : State) :
    (enterHandler w cause tpc val val2 s).cur = s.cur ∧ (enterHandler w cause tpc val val2 s).dev.mem = s.dev.mem := by simp [enterHandler]

@[simp] theorem deliver_kept (w : BitVec 32) (cause : Nat) (tpc val val2 : Word) (s : State) :
    (deliver w cause tpc val val2 s).cur = s.cur ∧ (deliver w cause tpc val val2 s).dev.mem = s.dev.mem := by simp [deliver]

@[simp] theorem countLoss_kept (cause : Nat) (s : State) :
    (countLoss cause s).cur = s.cur ∧ (countLoss cause s).dev.mem = s.dev.mem := by
  simp [countLoss]

@[simp] theorem takeTrap_kept (w : BitVec 32) (cause : Nat) (tpc val val2 : Word) (s : State) :
    (takeTrap w cause tpc val val2 s).cur = s.cur ∧ (takeTrap w cause tpc val val2 s).dev.mem = s.dev.mem := by simp [takeTrap]

/-! ## Retiring (R26, R74, R111, R209, R329, R335, R336) -/

@[simp] theorem refreshVlmax_kept (s : State) :
    (refreshVlmax s).cur = s.cur ∧ (refreshVlmax s).dev.mem = s.dev.mem := by simp [refreshVlmax]

@[simp] theorem zeroRegs_kept (s : State) : (zeroRegs s).cur = s.cur ∧ (zeroRegs s).dev.mem = s.dev.mem := by
  simp [zeroRegs]

@[simp] theorem grant_kept (req avl : Nat) (s : State) :
    (grant req avl s).cur = s.cur ∧ (grant req avl s).dev.mem = s.dev.mem := by simp [grant]

@[simp] theorem endPass_kept (s : State) : (endPass s).cur = s.cur ∧ (endPass s).dev.mem = s.dev.mem := by
  simp [endPass]

@[simp] theorem closePass_kept (s : State) : (closePass s).cur = s.cur ∧ (closePass s).dev.mem = s.dev.mem := by
  simp [closePass]

@[simp] theorem retire_kept (w : BitVec 32) (npc : Word) (s : State) :
    (retire w npc s).cur = s.cur ∧ (retire w npc s).dev.mem = s.dev.mem := by
  simp [retire]

/-! ## The checks on every word (R58 to R61, R204, R317) -/

@[simp] theorem reserve_kept (s : State) (n : Need) :
    (reserve s n).cur = s.cur ∧ (reserve s n).dev.mem = s.dev.mem := by simp [reserve]

@[simp] theorem enqueueReplay_kept (n : Need) (s : State) :
    (enqueueReplay n s).cur = s.cur ∧ (enqueueReplay n s).dev.mem = s.dev.mem := by
  simp [enqueueReplay]

@[simp] theorem trapWord_kept (n : Need) (cause : Nat) (val val2 : Word) (s : State) :
    (trapWord n cause val val2 s).cur = s.cur ∧ (trapWord n cause val val2 s).dev.mem = s.dev.mem := by simp [trapWord]

theorem gate_error_kept {n : Need} {s t : State} (h : gate n s = .error t) :
    t.cur = s.cur ∧ t.dev.mem = s.dev.mem := by
  unfold gate at h
  dsimp only at h
  (repeat' split at h) <;> cases h <;> simp

theorem gate_ok_kept {n : Need} {s t : State} (h : gate n s = .ok t) :
    t.cur = s.cur ∧ t.dev.mem = s.dev.mem := by
  unfold gate at h
  dsimp only at h
  (repeat' split at h) <;> cases h <;> simp

@[simp] theorem popDamage_kept (cls p : Nat) (s : State) :
    (popDamage cls p s).cur = s.cur ∧ (popDamage cls p s).dev.mem = s.dev.mem := by
  simp [popDamage]

@[simp] theorem settle_kept (n : Need) (s : State) :
    (settle n s).cur = s.cur ∧ (settle n s).dev.mem = s.dev.mem := by
  unfold settle
  exact ⟨(foldl_cur _ (fun t p => by split <;> simp) _ _).trans (by simp), (foldl_mem _ (fun t p => by split <;> simp) _ _).trans (by simp)⟩

@[simp] theorem finish_kept (n : Need) (r : Res) :
    (finish n r).cur = r.last.cur ∧ (finish n r).dev.mem = r.last.dev.mem := by
  cases r <;> simp [finish]

/-- A word that met damage leaves a state it would have left, or the one it started in. -/
theorem hurtEnd_cases (P : State → Prop) (hclear : ∀ t, P t → P (clearHurt t)) (h : Damage × Nat) (s : State) (r : Res) (hs : P s) (hr : P r.last) :
    P (hurtEnd h s r).last := by
  cases r with
  | wait t => exact hclear t hr
  | trap c v w t =>
    dsimp only [hurtEnd]
    split
    · exact hs
    · exact hclear t hr
  | _ => exact hs

theorem behindQueue_cases (P : State → Prop) (s t : State) (r : Res) (hs : P s) (hr : P r.last) :
    P (behindQueue s t r).last := by
  unfold behindQueue
  split
  · exact hr
  · cases r <;> assumption

theorem inOrder_cases (P : State → Prop) (s t : State) (hw : P (waitHere s)) (ht : P t) :
    P (inOrder s t) := by
  unfold inOrder
  split <;> assumption

/-- A property of states that a word's start, its body and its end keep is kept by the word. -/
theorem run_cases (P : State → Prop) (hP : ∀ s t : State, t.cur = s.cur → t.dev.mem = s.dev.mem → P s → P t) (n : Need) (s : State) (body : State → Res)
    (hbody : ∀ t, P t → P (body t).last) (hs : P s) : P (run n s body) := by
  unfold run
  split
  next t h =>
    refine inOrder_cases P s t (hP s _ (by simp) (by simp) hs) ?_
    exact hP s t (gate_error_kept h).1 (gate_error_kept h).2 hs
  next t h =>
    have ht : P t := hP s t (gate_ok_kept h).1 (gate_ok_kept h).2 hs
    split
    · exact hP _ _ (finish_kept n _).1 (finish_kept n _).2 (behindQueue_cases P s t _ hs (hbody t ht))
    next hm _ =>
      refine hP _ _ (finish_kept n _).1 (finish_kept n _).2 (behindQueue_cases P s t _ hs ?_)
      refine hurtEnd_cases P (fun t => hP t _ (by simp) (by simp)) hm t _ ht (hbody _ ?_)
      exact hP t _ (by simp) (by simp) ht

@[simp] theorem run_cur (n : Need) (s : State) (body : State → Res) (h : ∀ t, (body t).last.cur = t.cur) :
    (run n s body).cur = s.cur :=
  run_cases (fun t => t.cur = s.cur) (fun _ _ hc _ ht => hc.trans ht) n s body (fun t ht => (h t).trans ht) rfl

@[simp] theorem run_mem (n : Need) (s : State) (body : State → Res)
    (h : ∀ t, (body t).last.dev.mem = t.dev.mem) :
    (run n s body).dev.mem = s.dev.mem :=
  run_cases (fun t => t.dev.mem = s.dev.mem) (fun _ _ _ hm ht => hm.trans ht) n s body (fun t ht => (h t).trans ht) rfl

@[simp] theorem run_wf (n : Need) (s : State) (body : State → Res) (h : ∀ t, Memory.wf t.dev.mem = true → Memory.wf (body t).last.dev.mem = true)
    (hs : Memory.wf s.dev.mem = true) : Memory.wf (run n s body).dev.mem = true :=
  run_cases (fun t => Memory.wf t.dev.mem = true) (fun _ _ _ hm ht => by rw [hm]; exact ht) n s body h hs

/-- A word whose body keeps the focus and memory keeps them. -/
theorem run_kept (n : Need) (s : State) (body : State → Res) (h : ∀ t, (body t).last.cur = t.cur ∧ (body t).last.dev.mem = t.dev.mem) :
    (run n s body).cur = s.cur ∧ (run n s body).dev.mem = s.dev.mem :=
  ⟨run_cur n s body fun t => (h t).1, run_mem n s body fun t => (h t).2⟩

theorem run_safe (n : Need) (s : State) (body : State → Res)
    (h : ∀ t, (body t).last.cur = t.cur ∧ (Memory.wf t.dev.mem = true → Memory.wf (body t).last.dev.mem = true)) :
    (run n s body).cur = s.cur ∧ (Memory.wf s.dev.mem = true → Memory.wf (run n s body).dev.mem = true) :=
  ⟨run_cur n s body fun t => (h t).1, run_wf n s body fun t => (h t).2⟩

@[simp] theorem scalar_cur (w : BitVec 32) (xr xw : List Nat) (s : State) (body : State → State) (h : ∀ t, (body t).cur = t.cur) :
    (scalar w xr xw s body).cur = s.cur := run_cur _ s _ h

@[simp] theorem scalar_mem (w : BitVec 32) (xr xw : List Nat) (s : State) (body : State → State) (h : ∀ t, (body t).dev.mem = t.dev.mem) :
    (scalar w xr xw s body).dev.mem = s.dev.mem := run_mem _ s _ h

/-! ## Requests (R378, R379) -/

@[simp] theorem sendReq_kept (own pa n : Nat) (d : Device) : (sendReq own pa n d).mem = d.mem := by
  simp [sendReq]

/-! ## Posting records (R321, R332) -/

@[simp] theorem postOrDrop_wf (d : Device) (c : Nat) (lost : Word) (rec : List Byte) :
    Memory.wf d.mem = true → Memory.wf (postOrDrop d c lost rec).mem = true :=
  (homes_postOrDrop d c lost rec).wf

@[simp] theorem memoryWatch_wf (wr : Writer) (op pa len : Nat) (d : Device) :
    Memory.wf d.mem = true → Memory.wf (memoryWatch wr op pa len d).mem = true :=
  (homes_memoryWatch wr op pa len d).wf

@[simp] theorem performHome_wf (wr : Writer) (op : Nat) (bs : List (Nat × Byte × Byte)) (d : Device) :
    Memory.wf d.mem = true → Memory.wf (performHome wr op bs d).mem = true :=
  (homes_performHome wr op bs d).wf

@[simp] theorem performBytes_wf (wr : Writer) (acct op : Nat) (bs : List (Nat × Byte × Byte)) (d : Device) :
    Memory.wf d.mem = true → Memory.wf (performBytes wr acct op bs d).mem = true :=
  (homes_performBytes wr acct op bs d).wf

/-! ## Checks of one access (R91, R104, R317) -/

/-- One state follows another with the same focus, and with its memory in canonical form where the other's was. -/
def Safe (s t : State) : Prop := t.cur = s.cur ∧ (Memory.wf s.dev.mem = true → Memory.wf t.dev.mem = true)

theorem Safe.refl (s : State) : Safe s s := ⟨rfl, id⟩

theorem Safe.trans {s t u : State} (h : Safe s t) (k : Safe t u) : Safe s u :=
  ⟨k.1.trans h.1, fun hs => k.2 (h.2 hs)⟩

theorem Safe.foldl {α : Type} {g : State → α → State} (h : ∀ s a, Safe s (g s a)) (l : List α) (s : State) :
    Safe s (l.foldl g s) := by
  induction l generalizing s with
  | nil => exact .refl s
  | cons a l ih => exact (h s a).trans (ih _)

theorem Safe.foldl_fst {α β : Type} {g : State × β → α → State × β} (h : ∀ x a, Safe x.1 (g x a).1) (l : List α) (x : State × β) :
    Safe x.1 (l.foldl g x).1 := by
  induction l generalizing x with
  | nil => exact .refl _
  | cons a l ih => exact (h x a).trans (ih _)

/-! ## Reads and atomics of other devices (R262, R376 to R379, R382) -/

@[simp] theorem askFor_kept (q : Option (Nat × Nat)) (s : State) :
    (askFor q s).cur = s.cur ∧ (askFor q s).dev.mem = s.dev.mem := by
  unfold askFor
  split <;> simp

@[simp] theorem allAnswered_kept (s : State) :
    (allAnswered s).cur = s.cur ∧ (allAnswered s).dev.mem = s.dev.mem := by simp [allAnswered]

@[simp] theorem answered_kept (locs : List Loc) (s : State) :
    (answered locs s).cur = s.cur ∧ (answered locs s).dev.mem = s.dev.mem := by
  simp [answered]

/-! ## Loads -/

@[simp] theorem countLoad_kept (cls : Nat) (locs : List Loc) (s : State) :
    (countLoad cls locs s).cur = s.cur ∧ (countLoad cls locs s).dev.mem = s.dev.mem := by simp [countLoad]

@[simp] theorem afterLoad_kept (cls : Nat) (locs : List Loc) (s : State) :
    (afterLoad cls locs s).cur = s.cur ∧ (afterLoad cls locs s).dev.mem = s.dev.mem := by simp [afterLoad]

/-! ## Stores -/

@[simp] theorem pushFence_kept (mask : BitVec 16) (kind : Nat) (s : State) :
    (pushFence mask kind s).cur = s.cur ∧ (pushFence mask kind s).dev.mem = s.dev.mem := by simp [pushFence]

@[simp] theorem noteWhole_kept (s : State) : (noteWhole s).cur = s.cur ∧ (noteWhole s).dev.mem = s.dev.mem := by
  simp [noteWhole]

@[simp] theorem clearWhole_kept (p : PStore) (s : State) :
    (clearWhole p s).cur = s.cur ∧ (clearWhole p s).dev.mem = s.dev.mem := by simp [clearWhole]

@[simp] theorem updateLines_kept (core : Nat) (bs : List (Nat × Byte × Byte)) (d : Device) :
    (updateLines core bs d).mem = d.mem := by
  simp [updateLines]

@[simp] theorem performWith_safe (add : Nat → Nat → Nat → Nat) (i : Nat) (s : State) :
    (performWith add i s).cur = s.cur ∧ (Memory.wf s.dev.mem = true → Memory.wf (performWith add i s).dev.mem = true) := by
  unfold performWith
  dsimp only
  (repeat' split) <;> simp +contextual

@[simp] theorem atomicAt_safe (locs : List Loc) (op : Nat) (f : Nat → Option Nat) (s : State) :
    (atomicAt locs op f s).2.cur = s.cur ∧
    (Memory.wf s.dev.mem = true → Memory.wf (atomicAt locs op f s).2.dev.mem = true) := by
  unfold atomicAt
  dsimp only
  split <;> split_ifs <;> simp +contextual

/-! ## FPCTL, FPFLAGS and the traps (R40, R41, R47, R86) -/

@[simp] theorem mergeFlags_kept (fl : Nat) (s : State) :
    (mergeFlags fl s).cur = s.cur ∧ (mergeFlags fl s).dev.mem = s.dev.mem := by simp [mergeFlags]

@[simp] theorem mergeMflags_kept (fl : Nat) (s : State) :
    (mergeMflags fl s).cur = s.cur ∧ (mergeMflags fl s).dev.mem = s.dev.mem := by
  simp [mergeMflags]

@[simp] theorem finishScalarFloat_kept (d : Nat) (val : Word) (fl : Nat) (s : State) :
    (finishScalarFloat d val fl s).last.cur = s.cur ∧ (finishScalarFloat d val fl s).last.dev.mem = s.dev.mem := by simp [finishScalarFloat]

/-! ## Loads and stores (R90 to R92) -/

@[simp] theorem loadTrap_kept (c v : Nat) (v2 : Option Nat) (h : Nat) (elem : Nat) (s : State) :
    (loadTrap c v v2 h elem s).last.cur = s.cur ∧ (loadTrap c v v2 h elem s).last.dev.mem = s.dev.mem := by simp [loadTrap]

@[simp] theorem scalarLoad_kept (w : BitVec 32) (d a : BitVec 5) (c : BitVec 4) (o : BitVec 12) (n : Nat) (ext : Nat → Word) (s : State) :
    (scalarLoad w d a c o n ext s).cur = s.cur ∧ (scalarLoad w d a c o n ext s).dev.mem = s.dev.mem := by
  unfold scalarLoad
  refine run_kept _ _ _ fun t => ?_
  (repeat' split) <;> simp

@[simp] theorem scalarStore_kept (w : BitVec 32) (d a : BitVec 5) (c : BitVec 4) (o : BitVec 12) (n : Nat) (s : State) :
    (scalarStore w d a c o n s).cur = s.cur ∧ (scalarStore w d a c o n s).dev.mem = s.dev.mem := by
  unfold scalarStore
  refine run_kept _ _ _ fun t => ?_
  (repeat' split) <;> simp

/-! ## Atomics (R258 to R260) -/

@[simp] theorem syncAcquire_kept (cls : Nat) (wide : Bool) (s : State) :
    (syncAcquire cls wide s).cur = s.cur ∧ (syncAcquire cls wide s).dev.mem = s.dev.mem := by simp [syncAcquire]

@[simp] theorem atomic_safe (w : BitVec 32) (reads : List Nat) (d a : BitVec 5) (sc : BitVec 3) (c : BitVec 4) (n : Nat) (f : State → Nat → Option Nat) (ext : Nat → Word) (s : State) :
    (atomic w reads d a sc c n f ext s).cur = s.cur ∧ (Memory.wf s.dev.mem = true → Memory.wf (atomic w reads d a sc c n f ext s).dev.mem = true) := by
  unfold atomic
  refine run_safe _ _ _ fun t => ?_
  dsimp only
  (repeat' split) <;> simp +contextual

@[simp] theorem intAtomic_safe (word : BitVec 32) (d a b : BitVec 5) (sc : BitVec 3) (c : BitVec 4) (w : BitVec 1) (f : Nat → Nat → Nat → Nat) (s : State) :
    (intAtomic word d a b sc c w f s).cur = s.cur ∧ (Memory.wf s.dev.mem = true → Memory.wf (intAtomic word d a b sc c w f s).dev.mem = true) := by
  simp +contextual [intAtomic]

@[simp] theorem performAt_safe (i : Nat) (s : State) :
    (performAt i s).cur = s.cur ∧ (Memory.wf s.dev.mem = true → Memory.wf (performAt i s).dev.mem = true) := by simp +contextual [performAt]

/-! ## Fences and polling (R254 to R257) -/

@[simp] theorem dropOldLines_kept (wide : Bool) (s : State) :
    (dropOldLines wide s).cur = s.cur ∧ (dropOldLines wide s).dev.mem = s.dev.mem := by
  simp [dropOldLines]

@[simp] theorem pollWord_kept (d a : BitVec 5) (sc : BitVec 4) (s : State) :
    (pollWord d a sc s).cur = s.cur ∧ (pollWord d a sc s).dev.mem = s.dev.mem := by
  unfold pollWord
  refine run_kept _ _ _ fun t => ?_
  dsimp only
  (repeat' split) <;> simp

end Sys2Proof.Machine

end

section

/-! PROOFS. What element words, register words and the control words leave alone (for O6). -/

namespace Sys2Proof.Machine

/-! ## Fences and polling (R254 to R257) -/

/-- The state that an element's answer holds, given the one before it. -/
def El.last (s : State) : El → State
  | .ok t => t
  | _ => s

/-- The state that a sweep's answer holds. -/
def Swept.last : Swept → State
  | .all t => t
  | .wait _ t => t
  | .stop _ _ _ _ _ t => t

@[simp] theorem El.last_ok (s t : State) : (El.ok t).last s = t := rfl

@[simp] theorem El.last_wait (s : State) (q : Option (Nat × Nat)) : (El.wait q).last s = s := rfl

@[simp] theorem El.last_trap (s : State) (c v : Nat) (w : Option Nat) (h : Nat) :
    (El.trap c v w h).last s = s := rfl

/-- The element's access keeps the focus and memory. -/
def ElKept (s : State) (e : El) : Prop := (e.last s).cur = s.cur ∧ (e.last s).dev.mem = s.dev.mem

@[simp] theorem elKept_ok (s t : State) : ElKept s (.ok t) ↔ t.cur = s.cur ∧ t.dev.mem = s.dev.mem := Iff.rfl

@[simp] theorem elKept_wait (s : State) (q : Option (Nat × Nat)) : ElKept s (.wait q) := ⟨rfl, rfl⟩

@[simp] theorem elKept_trap (s : State) (c v : Nat) (w : Option Nat) (h : Nat) : ElKept s (.trap c v w h) :=
  ⟨rfl, rfl⟩

theorem ElKept.trans {s t : State} {e : El} (h : t.cur = s.cur ∧ t.dev.mem = s.dev.mem) (k : ElKept t e) :
    ElKept s e := by
  cases e with
  | ok u => exact ⟨k.1.trans h.1, k.2.trans h.2⟩
  | _ => simp

/-- A sweep whose elements keep the focus and memory keeps them. -/
theorem sweep_kept (f : Nat → State → El) (h : ∀ i s, ElKept s (f i s)) (n i : Nat) (s : State) :
    (sweep f n i s).last.cur = s.cur ∧ (sweep f n i s).last.dev.mem = s.dev.mem := by
  induction n generalizing i s with
  | zero => exact ⟨rfl, rfl⟩
  | succ n ih =>
    unfold sweep
    split
    next t _ hf =>
      have hi := h i s
      rw [hf] at hi
      simp only [elKept_ok] at hi
      exact ⟨(ih (i + 1) t).1.trans hi.1, (ih (i + 1) t).2.trans hi.2⟩
    · exact ⟨by simp [Swept.last], by simp [Swept.last]⟩
    · exact ⟨rfl, rfl⟩
    · exact ⟨by simp [Swept.last], by simp [Swept.last]⟩
    · split <;> exact ⟨by simp [Swept.last], by simp [Swept.last]⟩

@[simp] theorem finishSweep_kept (b : State) (r : Swept) (hc : b.cur = r.last.cur) (hm : b.dev.mem = r.last.dev.mem) :
    (finishSweep b r).last.cur = r.last.cur ∧ (finishSweep b r).last.dev.mem = r.last.dev.mem := by
  cases r <;> simp_all [finishSweep, Swept.last]

/-! ## Share charge (R229, R233) -/

@[simp] theorem chargeBeats_kept (n : Nat) (s : State) :
    (chargeBeats n s).cur = s.cur ∧ (chargeBeats n s).dev.mem = s.dev.mem := by
  unfold chargeBeats
  split <;> simp

@[simp] theorem chargeWord_kept (ew : Nat) (s : State) :
    (chargeWord ew s).cur = s.cur ∧ (chargeWord ew s).dev.mem = s.dev.mem := by simp [chargeWord]

theorem stripWord_kept (ew : Nat) (f : Nat → State → El) (h : ∀ i s, ElKept s (f i s)) (s : State) :
    (stripWord ew f s).last.cur = s.cur ∧ (stripWord ew f s).last.dev.mem = s.dev.mem := by
  obtain ⟨hc, hm⟩ := sweep_kept f h (vlN s - vsN s) (vsN s) (chargeWord ew s)
  rw [(chargeWord_kept ew s).1] at hc
  rw [(chargeWord_kept ew s).2] at hm
  obtain ⟨kc, km⟩ := finishSweep_kept s _ hc.symm hm.symm
  exact ⟨kc.trans hc, km.trans hm⟩

@[simp] theorem loadEnd_kept (r : Res) :
    (loadEnd r).last.cur = r.last.cur ∧ (loadEnd r).last.dev.mem = r.last.dev.mem := by
  cases r <;> simp [loadEnd]

theorem loadStrip_kept (ew : Nat) (f : Nat → State → El) (h : ∀ i s, ElKept s (f i s)) (s : State) :
    (loadStrip ew f s).last.cur = s.cur ∧ (loadStrip ew f s).last.dev.mem = s.dev.mem := by
  simpa [loadStrip] using stripWord_kept ew f h s

@[simp] theorem storeEnd_kept (r : Res) :
    (storeEnd r).last.cur = r.last.cur ∧ (storeEnd r).last.dev.mem = r.last.dev.mem := by
  cases r <;> simp [storeEnd]

theorem storeStrip_kept (ew : Nat) (f : Nat → State → El) (h : ∀ i s, ElKept s (f i s)) (s : State) :
    (storeStrip ew f s).last.cur = s.cur ∧ (storeStrip ew f s).last.dev.mem = s.dev.mem := by
  simpa [storeStrip] using stripWord_kept ew f h (newSer s)

/-! ## Elements that compute (R46, R47) -/

@[simp] theorem elKept_floatEl (fl : Nat) (put : State → State) (s : State) (h : ∀ t, (put t).cur = t.cur ∧ (put t).dev.mem = t.dev.mem) :
    ElKept s (floatEl fl put s) := by
  unfold floatEl
  split <;> simp [h]

/-! ## The instructions' functions (R52, R53, R156 to R158) -/

@[simp] theorem transWord_kept (w : BitVec 32) (f : TFun) (d a : BitVec 5) (k : BitVec 3) (s : State) :
    (transWord w f d a k s).cur = s.cur ∧ (transWord w f d a k s).dev.mem = s.dev.mem := by
  refine run_kept _ _ _ fun t => stripWord_kept _ _ (fun i u => ?_) t
  split <;> simp

/-! ## Shared forms -/

theorem activeWord_kept (km : BitVec 3) (f : Nat → State → El) (h : ∀ i s, ElKept s (f i s)) (s : State) :
    (activeWord km f s).last.cur = s.cur ∧ (activeWord km f s).last.dev.mem = s.dev.mem := by
  refine stripWord_kept _ _ (fun i t => ?_) s
  split
  · exact h i t
  · simp

@[simp] theorem codeWord_kept (w : BitVec 32) (fmtOk : State → Bool) (x : BitVec 1) (d a b : BitVec 5) (k : BitVec 3) (useA useB useD : Bool) (f : State → Nat → Nat → Nat → Nat) (s : State) :
    (codeWord w fmtOk x d a b k useA useB useD f s).cur = s.cur ∧ (codeWord w fmtOk x d a b k useA useB useD f s).dev.mem = s.dev.mem := by
  unfold codeWord
  refine run_kept _ _ _ fun t => stripWord_kept _ _ (fun i u => ?_) t
  (repeat' split) <;> simp

@[simp] theorem intWord_kept (w : BitVec 32) (x : BitVec 1) (d a b : BitVec 5) (k : BitVec 3) (useA useD : Bool) (f : Nat → Nat → Nat → Nat → Nat → Nat) (s : State) :
    (intWord w x d a b k useA useD f s).cur = s.cur ∧ (intWord w x d a b k useA useD f s).dev.mem = s.dev.mem := by simp [intWord]

@[simp] theorem floatWord_kept (w : BitVec 32) (x : BitVec 1) (d a b : BitVec 5) (k : BitVec 3) (useB useD : Bool) (f : RM → FV → FV → FV → FV × Nat) (s : State) :
    (floatWord w x d a b k useB useD f s).cur = s.cur ∧ (floatWord w x d a b k useB useD f s).dev.mem = s.dev.mem := by
  unfold floatWord
  refine run_kept _ _ _ fun t => stripWord_kept _ _ (fun i u => ?_) t
  (repeat' split) <;> simp

@[simp] theorem setMaskBit_kept (n i : Nat) (v : Bool) (s : State) :
    (setMaskBit n i v s).cur = s.cur ∧ (setMaskBit n i v s).dev.mem = s.dev.mem := by
  simp [setMaskBit]

@[simp] theorem elKept_maskClass (d km i : Nat) (f : State → El) (s0 s : State) (h : ∀ t, ElKept t (f t)) :
    ElKept s (maskClass d km i f s0 s) := by
  unfold maskClass
  split_ifs <;> simp [h]

/-! ## Compares and masks, major 0x34 (R119) -/

@[simp] theorem compareWord_kept (w : BitVec 32) (pred : Nat) (d : BitVec 3) (a b : BitVec 5) (k : BitVec 3) (x : BitVec 1) (s : State) :
    (compareWord w pred d a b k x s).cur = s.cur ∧ (compareWord w pred d a b k x s).dev.mem = s.dev.mem :=
  run_kept _ _ _ fun t => stripWord_kept _ _ (fun i u => elKept_maskClass _ _ _ _ _ _ fun v => elKept_floatEl _ _ _ (by simp)) t

@[simp] theorem maskWord_kept (w : BitVec 32) (d : BitVec 3) (srcs : List (BitVec 3)) (f : Nat → Bool) (s : State) :
    (maskWord w d srcs f s).cur = s.cur ∧ (maskWord w d srcs f s).dev.mem = s.dev.mem :=
  run_kept _ _ _ fun t => stripWord_kept _ _ (fun i u => elKept_maskClass _ _ _ _ _ _ (by simp)) t

@[simp] theorem maskCount_kept (w : BitVec 32) (d : BitVec 5) (a k : BitVec 3) (f : List Nat → Word) (s : State) :
    (maskCount w d a k f s).cur = s.cur ∧ (maskCount w d a k f s).dev.mem = s.dev.mem := by simp [maskCount]

/-! ## Permutes, major 0x35 (R120, R121) -/

@[simp] theorem shiftWord_kept (w : BitVec 32) (d a b : BitVec 5) (k : BitVec 3) (src : Nat → Nat → Nat → Option Nat) (s : State) :
    (shiftWord w d a b k src s).cur = s.cur ∧ (shiftWord w d a b k src s).dev.mem = s.dev.mem := by
  unfold shiftWord
  refine run_kept _ _ _ fun t => stripWord_kept _ _ (fun i u => ?_) t
  (repeat' split) <;> simp

@[simp] theorem placeFrom_kept (d ew first j : Nat) (l : List Nat) (s : State) :
    (placeFrom d ew first j l s).cur = s.cur ∧ (placeFrom d ew first j l s).dev.mem = s.dev.mem := by
  induction l generalizing j s with
  | nil => exact ⟨rfl, rfl⟩
  | cons c l ih =>
    unfold placeFrom
    rw [(ih _ _).1, (ih _ _).2]
    split <;> simp

/-! ## Reductions, major 0x36 (R49, R122) -/

@[simp] theorem putReduction_kept (t : BitVec 1) (d : BitVec 5) (ew : Nat) (v : Word) (s : State) :
    (putReduction t d ew v s).cur = s.cur ∧ (putReduction t d ew v s).dev.mem = s.dev.mem := by simp [putReduction]

@[simp] theorem chargeReduction_kept (s : State) :
    (chargeReduction s).cur = s.cur ∧ (chargeReduction s).dev.mem = s.dev.mem := by
  simp [chargeReduction]

@[simp] theorem intReduction_kept (w : BitVec 32) (d a : BitVec 5) (k : BitVec 3) (t : BitVec 1) (f : Nat → List Int → Word) (s : State) :
    (intReduction w d a k t f s).cur = s.cur ∧ (intReduction w d a k t f s).dev.mem = s.dev.mem := by simp [intReduction]

@[simp] theorem floatReduction_kept (w : BitVec 32) (ok : State → Bool) (acc : Nat → Nat) (widen : State → Nat → Nat) (d a : BitVec 5) (k : BitVec 3) (t : BitVec 1) (f : RM → FV → FV → FV × Nat) (s : State) :
    (floatReduction w ok acc widen d a k t f s).cur = s.cur ∧ (floatReduction w ok acc widen d a k t f s).dev.mem = s.dev.mem := by
  simp [floatReduction]

/-! ## Shared forms -/

@[simp] theorem aluXR_kept (w : BitVec 32) (d a b : BitVec 5) (f : Word → Word → Word) (s : State) :
    (aluXR w d a b f s).cur = s.cur ∧ (aluXR w d a b f s).dev.mem = s.dev.mem := by simp [aluXR]

@[simp] theorem aluX_kept (w : BitVec 32) (d a : BitVec 5) (f : Word → Word) (s : State) :
    (aluX w d a f s).cur = s.cur ∧ (aluX w d a f s).dev.mem = s.dev.mem := by simp [aluX]

/-! ## Scalar floating point, major 0x03 (R82 to R86) -/

@[simp] theorem sfRound_kept (f : BitVec 2) (d : BitVec 5) (r : FV × Nat) (s : State) :
    (sfRound f d r s).last.cur = s.cur ∧ (sfRound f d r s).last.dev.mem = s.dev.mem := by simp [sfRound]

@[simp] theorem sfBin_kept (w : BitVec 32) (d a b : BitVec 5) (f : BitVec 2) (op : RM → FV → FV → FV × Nat) (s : State) :
    (sfBin w d a b f op s).cur = s.cur ∧ (sfBin w d a b f op s).dev.mem = s.dev.mem := by simp [sfBin]

@[simp] theorem sfCmp_kept (w : BitVec 32) (d a b : BitVec 5) (f : BitVec 2) (p : FV → FV → Bool × Nat) (s : State) :
    (sfCmp w d a b f p s).cur = s.cur ∧ (sfCmp w d a b f p s).dev.mem = s.dev.mem := by simp [sfCmp]

@[simp] theorem sfToInt_kept (w : BitVec 32) (d a : BitVec 5) (f : BitVec 2) (lo hi : Int) (s : State) :
    (sfToInt w d a f lo hi s).cur = s.cur ∧ (sfToInt w d a f lo hi s).dev.mem = s.dev.mem := by simp [sfToInt]

@[simp] theorem sfFromInt_kept (w : BitVec 32) (d a : BitVec 5) (f : BitVec 2) (val : Word → Int) (s : State) :
    (sfFromInt w d a f val s).cur = s.cur ∧ (sfFromInt w d a f val s).dev.mem = s.dev.mem := by simp [sfFromInt]

@[simp] theorem sfConvert_kept (w : BitVec 32) (d a : BitVec 5) (f : BitVec 2) (dest : BitVec 2) (s : State) :
    (sfConvert w d a f dest s).cur = s.cur ∧ (sfConvert w d a f dest s).dev.mem = s.dev.mem := by simp [sfConvert]

/-! ## Branches, jumps, calls and returns (R87 to R89) -/

@[simp] theorem branch_kept (w : BitVec 32) (a b : BitVec 5) (o : BitVec 16) (p : Word → Word → Bool) (s : State) :
    (branch w a b o p s).cur = s.cur ∧ (branch w a b o p s).dev.mem = s.dev.mem := by simp [branch]

theorem spillWrite_kept {addr : Nat} {bs : List Byte} {s t : State} (h : spillWrite addr bs s = .ok t) :
    t.cur = s.cur ∧ t.dev.mem = s.dev.mem := by
  unfold spillWrite at h
  split at h
  · cases h
  · cases h
    simp

theorem pushLk_kept {s t : State} (h : pushLk s = .ok t) : t.cur = s.cur ∧ t.dev.mem = s.dev.mem := by
  unfold pushLk at h
  dsimp only at h
  split at h
  · cases h
    exact ⟨rfl, rfl⟩
  · split at h
    · cases h
    next u hu =>
      cases h
      exact (spillWrite_kept hu :)

@[simp] theorem callTo_kept (t : Word) (s : State) :
    (callTo t s).last.cur = s.cur ∧ (callTo t s).last.dev.mem = s.dev.mem := by
  unfold callTo
  split
  · exact ⟨rfl, rfl⟩
  next u hu => simpa using pushLk_kept hu

@[simp] theorem checked_kept (t : Word) (s : State) (k : Res) (h : k.last.cur = s.cur ∧ k.last.dev.mem = s.dev.mem) :
    (checked t s k).last.cur = s.cur ∧ (checked t s k).last.dev.mem = s.dev.mem := by
  unfold checked
  split
  · exact ⟨rfl, rfl⟩
  · exact h

@[simp] theorem retTo_kept (s : State) : (retTo s).last.cur = s.cur ∧ (retTo s).last.dev.mem = s.dev.mem := by
  unfold retTo
  dsimp only
  (repeat' split) <;> simp

@[simp] theorem writeSreg_kept (sel : Nat) (v : Word) (s : State) :
    (writeSreg sel v s).cur = s.cur ∧ (writeSreg sel v s).dev.mem = s.dev.mem := by
  unfold writeSreg
  split <;> simp

@[simp] theorem returnFromTrap_kept (w : BitVec 32) (s : State) :
    (returnFromTrap w s).last.cur = s.cur ∧ (returnFromTrap w s).last.dev.mem = s.dev.mem := by simp [returnFromTrap]

/-! ## Grants (R95 to R97) -/

@[simp] theorem grantWord_kept (d a : BitVec 5) (req : Nat) (s : State) :
    (grantWord d a req s).last.cur = s.cur ∧ (grantWord d a req s).last.dev.mem = s.dev.mem := by simp [grantWord]

/-! ## Codebooks and stream registers (R99, R108, R109) -/

@[simp] theorem setStream_kept (n : Nat) (st : Stream) (s : State) :
    (setStream n st s).cur = s.cur ∧ (setStream n st s).dev.mem = s.dev.mem := by
  simp [setStream]

/-! ## The strip-mine branch (R100) -/

@[simp] theorem sbrAdvance_kept (m : BitVec 4) (sc : BitVec 8) (s : State) :
    (sbrAdvance m sc s).cur = s.cur ∧ (sbrAdvance m sc s).dev.mem = s.dev.mem := by simp [sbrAdvance]

/-! ## Divergence (R128 to R131) -/

theorem pushFrag_kept {f : Frag} {s t : State} (h : pushFrag f s = .ok t) :
    t.cur = s.cur ∧ t.dev.mem = s.dev.mem := by
  unfold pushFrag at h
  split at h
  · cases h
    exact ⟨rfl, rfl⟩
  · split at h
    · cases h
      exact ⟨rfl, rfl⟩
    · split at h
      · cases h
      next u hu =>
        cases h
        exact (spillWrite_kept hu :)

@[simp] theorem joinTop_kept (e : Frag) (rest : List Frag) (tgt : Word) (s : State) :
    (joinTop e rest tgt s).last.cur = s.cur ∧ (joinTop e rest tgt s).last.dev.mem = s.dev.mem := by simp [joinTop]

/-! ## One element -/

@[simp] theorem elKept_loadEl (cls align va n : Nat) (put : Nat → State → State) (s : State)
    (h : ∀ v t, (put v t).cur = t.cur ∧ (put v t).dev.mem = t.dev.mem) : ElKept s (loadEl cls align va n put s) := by
  unfold loadEl
  split <;> simp [h]

@[simp] theorem elKept_storeEl (cls align va n mask val : Nat) (s : State) :
    ElKept s (storeEl cls align va n mask val s) := by
  unfold storeEl
  split <;> simp

@[simp] theorem elKept_loadBitsEl (cls : Nat) (a : Int) (ew : Nat) (put : Nat → State → State) (s : State)
    (h : ∀ v t, (put v t).cur = t.cur ∧ (put v t).dev.mem = t.dev.mem) : ElKept s (loadBitsEl cls a ew put s) := by
  unfold loadBitsEl
  dsimp only
  split <;> simp [h]

@[simp] theorem elKept_storeBitsEl (cls : Nat) (a : Int) (ew val : Nat) (s : State) :
    ElKept s (storeBitsEl cls a ew val s) := by
  unfold storeBitsEl
  dsimp only
  split <;> simp

@[simp] theorem elKept_loadClass (d km ew i : Nat) (access : State → El) (s : State) (h : ElKept s (access s)) :
    ElKept s (loadClass d km ew i access s) := by
  unfold loadClass
  split_ifs <;> simp [h]

@[simp] theorem elKept_storeClass (km i : Nat) (access : State → El) (s : State) (h : ElKept s (access s)) :
    ElKept s (storeClass km i access s) := by
  unfold storeClass
  split <;> simp [h]

/-! ## Blocks (R106, R107, R363) -/

theorem elKept_loadBlockEl (s0 : State) (whole : Bool) (d km blk cls i : Nat) (bitOf : Nat → Int) (scaleOf : Nat → Nat) (s : State) :
    ElKept s (loadBlockEl s0 whole d km blk cls i bitOf scaleOf s) := by
  have hbits : ElKept s (loadBitsEl cls (bitOf i) (ewN s0) (setElemV d (ewN s0) i) s) := by simp
  unfold loadBlockEl
  dsimp only
  split
  · split
    · simp
    · split
      · simp
      · split
        · simp
        · split
          next t ht =>
            rw [ht] at hbits
            exact ElKept.trans hbits (by simp)
          · exact hbits
  · exact hbits

theorem elKept_storeBlockEl (s0 : State) (d km blk cls i : Nat) (bitOf : Nat → Int) (scaleOf : Nat → Nat) (s : State) :
    ElKept s (storeBlockEl s0 d km blk cls i bitOf scaleOf s) := by
  have hbits : ElKept s (storeBitsEl cls (bitOf i) (ewN s0) (elemV s0 d (ewN s0) i) s) := by simp
  unfold storeBlockEl
  dsimp only
  split
  · simp
  · split
    next t ht =>
      rw [ht] at hbits
      refine ElKept.trans hbits ?_
      split <;> simp
    · exact hbits

/-! ## Streams (R110) -/

@[simp] theorem stepStream_kept (n : Nat) (s : State) :
    (stepStream n s).cur = s.cur ∧ (stepStream n s).dev.mem = s.dev.mem := by simp [stepStream]

@[simp] theorem finishStream_kept (n : Nat) (b : State) (r : Swept) (h : r.last.cur = b.cur ∧ r.last.dev.mem = b.dev.mem) :
    (finishStream n b r).last.cur = b.cur ∧ (finishStream n b r).last.dev.mem = b.dev.mem := by
  cases r <;> simp_all [finishStream, Swept.last]

@[simp] theorem setBind_kept (i : Nat) (b : Binding) (s : State) :
    (setBind i b s).cur = s.cur ∧ (setBind i b s).dev.mem = s.dev.mem := by
  unfold setBind
  split <;> simp

theorem elKept_placeEl (cls km i d : Nat) (st : Stream) (bi : Nat) (s0 s : State) :
    ElKept s (placeEl cls km i d st bi s0 s) := by
  unfold placeEl
  dsimp only
  split
  · simp
  · split_ifs
    · simp
    · simp
    · simp
    · simp
    · have hbits := elKept_storeBitsEl cls (dBit st.desc.toNat (st.t + i)) (ewN s0) (elemV s0 d (ewN s0) i) s
      split
      next t ht =>
        rw [ht] at hbits
        refine ElKept.trans hbits ?_
        simp only [elKept_ok]
        split <;> simp
      · exact hbits
    · split
      next t ht =>
        have hbits : ElKept s (.ok t) := ht ▸ elKept_loadBitsEl cls _ _ _ s fun v u => by split <;> simp
        simpa using hbits
      next e _ he =>
        exact elKept_loadBitsEl cls _ _ _ s fun v u => by split <;> simp

theorem elKept_takeEl (km i d : Nat) (st : Stream) (bi : Nat) (s0 s : State) :
    ElKept s (takeEl km i d st bi s0 s) := by
  unfold takeEl
  dsimp only
  split
  · simp
  · split_ifs
    · simp
    · simp
    · simp
    · split <;> simp
    · split <;> simp

@[simp] theorem finishBound_kept (n : Nat) (b : State) (r : Swept) (h : r.last.cur = b.cur ∧ r.last.dev.mem = b.dev.mem) :
    (finishBound n b r).last.cur = b.cur ∧ (finishBound n b r).last.dev.mem = b.dev.mem := by
  unfold finishBound
  split
  · simpa [Swept.last] using h
  · split
    · simp
    · exact finishStream_kept n b _ h
  · exact finishStream_kept n b _ h

theorem boundWord_kept (n : Nat) (place : Bool) (f : Nat → State → El) (h : ∀ i s, ElKept s (f i s))
    (s : State) : (boundWord n place f s).last.cur = s.cur ∧ (boundWord n place f s).last.dev.mem = s.dev.mem := by
  unfold boundWord
  have hr := sweep_kept f h (vlN s - vsN s) (vsN s) s
  refine finishBound_kept _ _ _ ?_
  generalize sweep f (vlN s - vsN s) (vsN s) s = r at hr ⊢
  cases r <;> dsimp only [Swept.last] at hr ⊢ <;> split <;> simpa using hr

/-! ## Combining scatter-add (R112, R261) -/

@[simp] theorem scatApply_safe (fmt cls n : Nat) (l : List Scat) (s : State) :
    (scatApply fmt cls n l s).cur = s.cur ∧
    (Memory.wf s.dev.mem = true → Memory.wf (scatApply fmt cls n l s).dev.mem = true) := by
  induction n generalizing l s with
  | zero => exact ⟨by simp [scatApply], by simp [scatApply]⟩
  | succ n ih =>
    cases l with
    | nil => exact ⟨rfl, id⟩
    | cons e l =>
      unfold scatApply
      obtain ⟨hc, hm⟩ := ih (l.filter (fun x => x.va ≠ e.va)) (if e.far then pushElem cls e.va fmt (wholeBytes (e.locs.map (·.key))
        (leBytes e.locs.length ((l.filter (fun x => x.va = e.va)).foldl (fun acc x => scatAdd fmt acc x.code) e.code))) s
        else (atomicAt e.locs 2 (fun old => some (scatAdd fmt old ((l.filter (fun x => x.va = e.va)).foldl (fun acc x => scatAdd fmt acc x.code) e.code))) s).2)
      refine ⟨hc.trans ?_, fun h => hm ?_⟩
      · split <;> simp
      · split <;> simp [h]

@[simp] theorem scatterAdd_safe (w : BitVec 32) (d a b : BitVec 5) (k : BitVec 3) (c : BitVec 4) (s : State) :
    (scatterAdd w d a b k c s).cur = s.cur ∧
    (Memory.wf s.dev.mem = true → Memory.wf (scatterAdd w d a b k c s).dev.mem = true) := by
  refine run_safe _ _ _ fun t => ?_
  dsimp only
  split
  · simp
  · split <;> simp +contextual

/-! ## Words -/

@[simp] theorem elKept_moEl (r : MoOut) (put : State → State) (s : State) (h : ∀ t, (put t).cur = t.cur ∧ (put t).dev.mem = t.dev.mem) :
    ElKept s (moEl r put s) := by
  unfold moEl
  split
  · simp
  · split <;> simp [h]

@[simp] theorem momentWord_kept (n : Need) (d : BitVec 3) (k : BitVec 3) (f : State → Nat → MoOut) (s : State) :
    (momentWord n d k f s).cur = s.cur ∧ (momentWord n d k f s).dev.mem = s.dev.mem := by
  refine run_kept _ _ _ fun t => stripWord_kept _ _ (fun i u => ?_) t
  split <;> simp

@[simp] theorem collapseWord_kept (n : Need) (d : BitVec 5) (a k : BitVec 3) (f : State → Nat → Nat × Nat → Nat × Nat) (s : State) :
    (collapseWord n d a k f s).cur = s.cur ∧ (collapseWord n d a k f s).dev.mem = s.dev.mem := by
  refine run_kept _ _ _ fun t => stripWord_kept _ _ (fun i u => ?_) t
  split <;> simp

theorem elKept_moldEl (s0 : State) (cls : Nat) (d : BitVec 3) (a : BitVec 5) (i : Nat) (s : State) :
    ElKept s (moldEl s0 cls d a i s) := by
  unfold moldEl
  split
  · simp
  · split
    · simp
    · simp
    next bs locs _ =>
      refine ElKept.trans (t := countLoad cls locs s) (by simp) ?_
      simp

end Sys2Proof.Machine

end

section

/-! PROOFS. What barriers, queues, the matrix unit and the engines leave alone (for O6). -/

namespace Sys2Proof.Machine

/-! ## The barrier object (R278, R279) -/

@[simp] theorem writeBytes_wf (d : Device) (k : Nat) (l : List Byte) (h : Memory.wf d.mem = true) :
    Memory.wf (writeBytes d k l).mem = true := wf_writeBytes d k l h

@[simp] theorem writeBar_wf (off : Nat) (b : Bar) (s : State) (h : Memory.wf s.dev.mem = true) :
    Memory.wf (writeBar off b s).dev.mem = true :=
  wf_writeBytes _ _ _ h

@[simp] theorem updateBar_safe (off : Nat) (f : Bar → Bar) (s : State) :
    (updateBar off f s).cur = s.cur ∧ (Memory.wf s.dev.mem = true → Memory.wf (updateBar off f s).dev.mem = true) := by simp +contextual [updateBar]

/-! ## Barrier words (R280 to R283) -/

theorem barWord_safe (n : Need) (a : BitVec 5) (body : Nat → State → Res) (s : State)
    (h : ∀ off t, (body off t).last.cur = t.cur ∧ (Memory.wf t.dev.mem = true → Memory.wf (body off t).last.dev.mem = true)) :
    (barWord n a body s).cur = s.cur ∧ (Memory.wf s.dev.mem = true → Memory.wf (barWord n a body s).dev.mem = true) := by
  refine run_safe _ _ _ fun t => ?_
  split
  · simp
  · exact h _ t

@[simp] theorem takeArrival_safe (s : State) :
    (takeArrival s).cur = s.cur ∧ (Memory.wf s.dev.mem = true → Memory.wf (takeArrival s).dev.mem = true) := by
  unfold takeArrival
  (repeat' split) <;> simp +contextual

@[simp] theorem pushArrival_safe (off : Nat) (n : BitVec 32) (s : State) :
    (pushArrival off n s).cur = s.cur ∧ (Memory.wf s.dev.mem = true → Memory.wf (pushArrival off n s).dev.mem = true) := by
  unfold pushArrival
  split <;> simp +contextual

/-! ## Engine queues (R257, R266) -/

@[simp] theorem setQueue_kept (q : Nat) (l : List Entry) (s : State) :
    (setQueue q l s).cur = s.cur ∧ (setQueue q l s).dev.mem = s.dev.mem := by
  unfold setQueue
  split <;> simp

@[simp] theorem dropMarker_kept (s : State) (q : Nat) :
    (dropMarker s q).cur = s.cur ∧ (dropMarker s q).dev.mem = s.dev.mem := by
  unfold dropMarker
  dsimp only
  (repeat' split) <;> simp

@[simp] theorem settleQueues_kept (n : Nat) (s : State) :
    (settleQueues n s).cur = s.cur ∧ (settleQueues n s).dev.mem = s.dev.mem := by
  induction n generalizing s with
  | zero => exact ⟨foldl_cur _ (fun t q => by split <;> [split; skip] <;> simp) _ _, foldl_mem _ (fun t q => by split <;> [split; skip] <;> simp) _ _⟩
  | succ n ih =>
    unfold settleQueues
    rw [(ih _).1, (ih _).2]
    simp

@[simp] theorem settleAll_kept (s : State) : (settleAll s).cur = s.cur ∧ (settleAll s).dev.mem = s.dev.mem :=
  settleQueues_kept _ s

@[simp] theorem enterQueue_kept (q : Nat) (e : Entry) (counts : Bool) (s : State) :
    (enterQueue q e counts s).cur = s.cur ∧ (enterQueue q e counts s).dev.mem = s.dev.mem := by simp [enterQueue]

/-! ## An engine's accesses (R269, R363, R382, R386) -/

/-- Where an engine's access goes on, it goes on from a state that follows safely. -/
structure EngSafe {α : Type} (s : State) (x : Eng α) : Prop where
  safe : ∀ a t, x = .ok a t → Safe s t

section

variable {α β : Type}

theorem EngSafe.ok {s t : State} {a : α} (h : Safe s t) : EngSafe s (.ok a t) := by
  refine ⟨fun b u hu => ?_⟩
  cases hu
  exact h

theorem EngSafe.err (s : State) (c o : Nat) : EngSafe s (.err c o : Eng α) := ⟨fun _ _ h => by cases h⟩

theorem EngSafe.wait (s : State) (dn : Nat) (q : Option (Nat × Nat × Nat)) : EngSafe s (.wait dn q : Eng α) :=
  ⟨fun _ _ h => by cases h⟩

theorem EngSafe.ite {s : State} {c : Prop} [Decidable c] {x y : Eng α} (hx : EngSafe s x) (hy : EngSafe s y) : EngSafe s (if c then x else y) := by
  split
  · exact hx
  · exact hy

theorem EngSafe.bind {s : State} {x : Eng α} {f : α → State → Eng β} (hx : EngSafe s x)
    (hf : ∀ a t, EngSafe t (f a t)) :
    EngSafe s (x.bind f) := by
  cases x with
  | ok a t => exact ⟨fun b u hu => (hx.safe a t rfl).trans ((hf a t).safe b u hu)⟩
  | err c o => exact .err s c o
  | wait dn q => exact .wait s dn q

end

/-- Where a step of an engine answers a state, it follows safely. -/
structure OptSafe (s : State) (o : Option State) : Prop where
  safe : ∀ t, o = some t → Safe s t

theorem OptSafe.some {s t : State} (h : Safe s t) : OptSafe s (some t) := by
  refine ⟨fun u hu => ?_⟩
  cases hu
  exact h

theorem OptSafe.none (s : State) : OptSafe s none := ⟨fun _ h => by cases h⟩

theorem OptSafe.trans {s t : State} {o : Option State} (h : Safe s t) (k : OptSafe t o) : OptSafe s o :=
  ⟨fun u hu => h.trans (k.safe u hu)⟩

theorem engSafe_engReach (e : Entry) (store : Bool) (va n : Nat) (s : State) :
    EngSafe s (engReach e store va n s) := by
  unfold engReach
  dsimp only
  split
  · exact .err ..
  · split
    · exact .ok (.refl s)
    · refine .ite (.err ..) ?_
      split
      · exact .ite (.wait ..) (.ok (.refl s))
      · exact .ite (.wait ..) (.ite (.ok (.refl s)) (.wait ..))

@[simp] theorem engAnswered_kept (e : Entry) (s : State) :
    (engAnswered e s).cur = s.cur ∧ (engAnswered e s).dev.mem = s.dev.mem := by
  simp [engAnswered]

theorem engSafe_engPlaces (e : Entry) (va n : Nat) (s : State) : EngSafe s (engPlaces e va n s) := by
  refine (engSafe_engReach e false va n s).bind fun locs t => ?_
  split
  · exact .err ..
  · exact .ok (.refl t)

@[simp] theorem countRead_kept (e : Entry) (keys : List Nat) (s : State) :
    (countRead e keys s).cur = s.cur ∧ (countRead e keys s).dev.mem = s.dev.mem := by simp [countRead]

theorem engSafe_engRead (e : Entry) (va n : Nat) (s : State) : EngSafe s (engRead e va n s) :=
  (engSafe_engPlaces e va n s).bind fun _ _ => .ok (by simp [Safe])

@[simp] theorem engPut_safe (e : Entry) (op : Nat) (bs : List (Nat × Byte × Byte)) (s : State) :
    (engPut e op bs s).cur = s.cur ∧ (Memory.wf s.dev.mem = true → Memory.wf (engPut e op bs s).dev.mem = true) := by
  unfold engPut
  split <;> simp +contextual

theorem engSafe_engWriteMasked (e : Entry) (va : Nat) (bs : List (Byte × Byte)) (s : State) :
    EngSafe s (engWriteMasked e va bs s) :=
  (engSafe_engReach e true va bs.length s).bind fun _ _ => .ok (by simp +contextual [Safe])

theorem engSafe_engWrite (e : Entry) (va : Nat) (bs : List Byte) (s : State) :
    EngSafe s (engWrite e va bs s) := engSafe_engWriteMasked e va _ s

/-! ## The end of an entry (R13, R48, R143, R269) -/

@[simp] theorem setHead_kept (q : Nat) (e : Entry) (s : State) :
    (setHead q e s).cur = s.cur ∧ (setHead q e s).dev.mem = s.dev.mem := by
  simp [setHead]

theorem engineStep_safe (q : Nat) (p : EngOp → Bool) (g : Entry → State → Option State) (s : State) (h : ∀ e t, OptSafe t (g e t)) :
    Safe s (engineStep q p g s) := by
  refine ⟨within_cur _ _ _ s, within_wf _ _ _ s fun t ht => ?_⟩
  dsimp only
  split
  · exact ht
  · split
    · exact ht
    · split
      · simpa using ht
      next u hu => exact ((h _ t).safe u hu).2 ht

theorem optSafe_engineStop (q p : Nat) (e : Entry) (ask : Option (Nat × Nat × Nat)) (s : State) :
    OptSafe s (engineStop q p e ask s) := by
  unfold engineStop
  split
  · exact .some (by simp [Safe])
  · split
    · exact .some (by simp [Safe])
    · exact .none s

@[simp] theorem finishHead_kept (q : Nat) (e : Entry) (n cause origin : Nat) (s : State) :
    (finishHead q e n cause origin s).cur = s.cur ∧ (finishHead q e n cause origin s).dev.mem = s.dev.mem := by simp [finishHead]

@[simp] theorem mergeInto_kept (role fl : Nat) (s : State) :
    (mergeInto role fl s).cur = s.cur ∧ (mergeInto role fl s).dev.mem = s.dev.mem := by
  simp [mergeInto]

@[simp] theorem completeOn_safe (q : Nat) (e : Entry) (x : EntryDone) (s : State) :
    (completeOn q e x s).cur = s.cur ∧ (Memory.wf s.dev.mem = true → Memory.wf (completeOn q e x s).dev.mem = true) := by
  simp +contextual [completeOn]

@[simp] theorem completeHead_safe (q : Nat) (s : State) :
    (completeHead q s).cur = s.cur ∧ (Memory.wf s.dev.mem = true → Memory.wf (completeHead q s).dev.mem = true) := by
  unfold completeHead
  (repeat' split) <;> simp +contextual

/-! ## Turns (R205) -/

@[simp] theorem wakeAll_kept (s : State) : (wakeAll s).cur = s.cur ∧ (wakeAll s).dev.mem = s.dev.mem := by
  simp [wakeAll]

@[simp] theorem wakeMates_kept (s : State) : (wakeMates s).cur = s.cur ∧ (wakeMates s).dev.mem = s.dev.mem := by
  simp [wakeMates]

/-! ## Translation buffers and caches (R243 to R247) -/

@[simp] theorem tlbFillTurn_kept (n : Nat) (instr : Bool) (va : Nat) (s : State) :
    (tlbFillTurn n instr va s).cur = s.cur ∧ (tlbFillTurn n instr va s).dev.mem = s.dev.mem := by
  unfold tlbFillTurn
  dsimp only
  (repeat' split) <;> simp

@[simp] theorem tlbDropTurn_kept (i : Nat) (s : State) :
    (tlbDropTurn i s).cur = s.cur ∧ (tlbDropTurn i s).dev.mem = s.dev.mem := by
  simp [tlbDropTurn]

@[simp] theorem l1dFillTurn_kept (core line : Nat) (s : State) :
    (l1dFillTurn core line s).cur = s.cur ∧ (l1dFillTurn core line s).dev.mem = s.dev.mem := by simp [l1dFillTurn]

@[simp] theorem l1dDropTurn_kept (core line : Nat) (s : State) :
    (l1dDropTurn core line s).cur = s.cur ∧ (l1dDropTurn core line s).dev.mem = s.dev.mem := by simp [l1dDropTurn]

@[simp] theorem l1iFillTurn_kept (core ctx line : Nat) (s : State) :
    (l1iFillTurn core ctx line s).cur = s.cur ∧ (l1iFillTurn core ctx line s).dev.mem = s.dev.mem := by simp [l1iFillTurn]

@[simp] theorem l1iDropTurn_kept (core ctx line : Nat) (s : State) :
    (l1iDropTurn core ctx line s).cur = s.cur ∧ (l1iDropTurn core ctx line s).dev.mem = s.dev.mem := by simp [l1iDropTurn]

@[simp] theorem chargeEnergy_kept (s : State) :
    (chargeEnergy s).cur = s.cur ∧ (chargeEnergy s).dev.mem = s.dev.mem :=
  ⟨rfl, foldl_device_mem (fun d a => addAcnt a 6 (Config.energy a s.dev.fresh) d) (fun d a => rfl) _ _⟩

@[simp] theorem passTime_kept (ps : Nat) (d : Device) : (passTime ps d).mem = d.mem := by simp [passTime]

@[simp] theorem elapseTurn_kept (ps : Nat) (s : State) :
    (elapseTurn ps s).cur = s.cur ∧ (elapseTurn ps s).dev.mem = s.dev.mem := by simp [elapseTurn]

/-! ## Poison and errors (R138, R143, R145, R360, R362, R365) -/

@[simp] theorem poisonTile_kept (z : Nat) (s : State) :
    (poisonTile z s).cur = s.cur ∧ (poisonTile z s).dev.mem = s.dev.mem := by simp [poisonTile]

@[simp] theorem mxFail_kept (cause origin seq : Nat) (s : State) :
    (mxFail cause origin seq s).cur = s.cur ∧ (mxFail cause origin seq s).dev.mem = s.dev.mem := by simp [mxFail]

@[simp] theorem poisonWb_kept (n : Nat) (s : State) :
    (poisonWb n s).cur = s.cur ∧ (poisonWb n s).dev.mem = s.dev.mem := by simp [poisonWb]

@[simp] theorem dropLatent_kept (cls n : Nat) (s : State) :
    (dropLatent cls n s).cur = s.cur ∧ (dropLatent cls n s).dev.mem = s.dev.mem := by
  simp [dropLatent]

@[simp] theorem meetTile_kept (z seq : Nat) (s : State) :
    (meetTile z seq s).cur = s.cur ∧ (meetTile z seq s).dev.mem = s.dev.mem := by
  simp [meetTile]

@[simp] theorem spoilTile_kept (z : Nat) (s : State) :
    (spoilTile z s).cur = s.cur ∧ (spoilTile z s).dev.mem = s.dev.mem := by simp [spoilTile]

/-! ## Issue (R136 to R140, R142, R143) -/

theorem mxWord_kept (n : Need) (s : State) (body : State → Res) (h : ∀ t, (body t).last.cur = t.cur ∧ (body t).last.dev.mem = t.dev.mem) :
    (mxWord n s body).cur = s.cur ∧ (mxWord n s body).dev.mem = s.dev.mem := run_kept _ s body h

@[simp] theorem tileWord_kept (w : BitVec 32) (op : EngOp) (z : BitVec 4) (a : BitVec 5) (c : BitVec 4) (cause : Nat) (s : State) :
    (tileWord w op z a c cause s).cur = s.cur ∧ (tileWord w op z a c cause s).dev.mem = s.dev.mem := by
  refine mxWord_kept _ _ _ fun t => ?_
  dsimp only
  split_ifs <;> simp

/-! ## Performing (R136 to R145) -/

@[simp] theorem multiplyTile_kept (p : Product) (us : List Upset) (z : Nat) (s : State) :
    (multiplyTile p us z s).1.cur = s.cur ∧ (multiplyTile p us z s).1.dev.mem = s.dev.mem := by
  unfold multiplyTile
  dsimp only
  split <;> simp

@[simp] theorem meetWb_kept (n : Nat) (s : State) :
    (meetWb n s).cur = s.cur ∧ (meetWb n s).dev.mem = s.dev.mem := by simp [meetWb]

@[simp] theorem multiply_kept (e : Entry) (z : Nat) (us : List Upset) (aval : Nat → Nat → FV) (f : FV → FV) (s : State) :
    (multiply e z us aval f s).1.cur = s.cur ∧ (multiply e z us aval f s).1.dev.mem = s.dev.mem := by simp [multiply]

theorem safe_finishHead {s t : State} (h : Safe s t) (q : Nat) (e : Entry) (n c o : Nat) :
    Safe s (finishHead q e n c o t) := by simpa [Safe] using h

theorem safe_performMultiply (parts : List (Nat × List Byte)) (e : Entry) (ps : List ((Nat → Nat → FV) × (FV → FV))) (s : State) :
    Safe s (performMultiply parts e ps s) := by
  unfold performMultiply
  dsimp only
  split
  · simp [Safe]
  · refine safe_finishHead (Safe.trans ?_ (Safe.foldl_fst (fun x i => ?_) _ _)) _ _ _ _ _
    · simp [Safe]
    · split <;> simp [Safe]

/-! ## Issue (R267, R268) -/

/-- Where the check of an engine's block passes, it keeps the focus and memory. -/
def TableKept (table : Nat → State → BlkCheck) : Prop := ∀ b s l k t, table b s = .ok l k t → t.cur = s.cur ∧ t.dev.mem = s.dev.mem

theorem engineWord_kept (w : BitVec 32) (op : EngOp) (q len : Nat) (nr : BitVec 1) (a b : BitVec 5) (table : Nat → State → BlkCheck)
    (aligned : Nat → List (Nat × Bool)) (s : State) (h : TableKept table) :
    (engineWord w op q len nr a b table aligned s).cur = s.cur ∧ (engineWord w op q len nr a b table aligned s).dev.mem = s.dev.mem := by
  refine run_kept _ _ _ fun t => ?_
  dsimp only
  split
  · simp
  · split
    · simp
    · split
      · simp
      · simp
      · split
        · simp
        · simp
        next u hu =>
          obtain ⟨hc, hm⟩ := h _ _ _ _ _ hu
          simp at hc hm
          split
          · simp
          · split
            · simp
            · simpa using ⟨hc, hm⟩

theorem plainTable_kept (a : BitVec 5) (legal : Nat → Bool) : TableKept (plainTable a legal) := by
  intro b s l k t h
  unfold plainTable at h
  split at h
  · cases h
    exact ⟨rfl, rfl⟩
  · cases h

/-! ## Copies (R270) -/

theorem engSafe_copyStep (e : Entry) (t : Nat) (s : State) : EngSafe s (copyStep e t s) := by
  unfold copyStep
  refine EngSafe.bind ?_ fun _ u => (engSafe_engPlaces e _ _ u).bind fun _ v => (engSafe_engReach e true _ _ v).bind fun _ w => .ok (.refl w)
  split
  · exact (engSafe_engPlaces e _ _ s).bind fun _ v => (engSafe_engReach e true _ _ v).bind fun _ w => .ok (.refl w)
  · exact .ok (.refl s)

@[simp] theorem copyPut_safe (e : Entry) (keys : List Nat) (bs : List (Nat × Byte × Byte)) (s : State) :
    (copyPut e keys bs s).cur = s.cur ∧ (Memory.wf s.dev.mem = true → Memory.wf (copyPut e keys bs s).dev.mem = true) := by simp +contextual [copyPut]

theorem optSafe_copyRun (p n left : Nat) (e : Entry) (acc : List Nat × List (Nat × Byte × Byte)) (s : State) :
    OptSafe s (copyRun p n left e acc s) := by
  induction n generalizing left e acc s with
  | zero =>
    unfold copyRun
    dsimp only
    split <;> exact .some (by simp +contextual [Safe])
  | succ n ih =>
    unfold copyRun
    dsimp only
    split
    · exact .some (by simp +contextual [Safe])
    · split
      · exact .some (by simp +contextual [Safe])
      · split
        · refine .trans ?_ (optSafe_engineStop ..)
          split
          · simp +contextual [Safe]
          · exact .refl s
        · exact .some (by simp +contextual [Safe])
        next x t h => exact .trans ((engSafe_copyStep e e.prog s).safe x t h) (ih ..)

/-! ## Gathers and scatters (R271 to R274) -/

theorem engSafe_listed (e : Entry) (k : Nat) (s : State) : EngSafe s (listed e k s) := by
  refine (engSafe_engRead ..).bind fun bs t => ?_
  split
  · exact .err ..
  · exact .ok (.refl t)

theorem engSafe_gatherStep (e : Entry) (k : Nat) (s : State) : EngSafe s (gatherStep e k s) :=
  (engSafe_listed ..).bind fun _ _ => (engSafe_engRead ..).bind fun _ _ => engSafe_engWrite ..

theorem optSafe_gatherRun (p n : Nat) (e : Entry) (s : State) : OptSafe s (gatherRun p n e s) := by
  induction n generalizing e s with
  | zero =>
    unfold gatherRun
    split <;> exact .some (by simp [Safe])
  | succ n ih =>
    unfold gatherRun
    dsimp only
    split
    · exact .some (by simp [Safe])
    · split
      · exact optSafe_engineStop ..
      · exact .trans (by simp [Safe]) (ih ..)
      next t h => exact .trans (((engSafe_gatherStep _ _ s).safe _ t h).trans (by simp [Safe])) (ih ..)

theorem engSafe_scatterPlan (e : Entry) (n k : Nat) (s : State) : EngSafe s (scatterPlan e n k s) := by
  induction n generalizing k s with
  | zero => exact .ok (.refl s)
  | succ n ih =>
    refine (engSafe_listed ..).bind fun va t => ?_
    split
    · exact .err ..
    · exact (engSafe_engRead ..).bind fun _ _ => (ih ..).bind fun _ v => .ok (.refl v)

@[simp] theorem applyElems_safe (e : Entry) (xs : List Sent) (s : State) :
    (applyElems e xs s).cur = s.cur ∧ (Memory.wf s.dev.mem = true → Memory.wf (applyElems e xs s).dev.mem = true) := by simp +contextual [applyElems]

@[simp] theorem addTail_safe (e : Entry) (g : Segment) (s : State) :
    (addTail e g s).cur = s.cur ∧ (Memory.wf s.dev.mem = true → Memory.wf (addTail e g s).dev.mem = true) := by
  unfold addTail
  split <;> simp +contextual

@[simp] theorem applySeg_safe (e : Entry) (g : Segment) (s : State) :
    (applySeg e g s).cur = s.cur ∧ (Memory.wf s.dev.mem = true → Memory.wf (applySeg e g s).dev.mem = true) := by
  unfold applySeg
  split <;> simp +contextual

theorem optSafe_trainsRun (p n : Nat) (e : Entry) (s : State) : OptSafe s (trainsRun p n e s) := by
  induction n generalizing e s with
  | zero =>
    unfold trainsRun
    split <;> exact .some (by simp [Safe])
  | succ n ih =>
    unfold trainsRun
    split
    · exact .some (by simp [Safe])
    · dsimp only
      split
      · exact .some (by simp [Safe])
      · split
        · exact .some (by simp [Safe])
        · exact optSafe_engineStop ..
        · exact .trans (by simp +contextual [Safe]) (ih ..)

theorem scatterBegin_ok {e e' : Entry} {s t : State} (h : scatterBegin e s = .ok (e', t)) : Safe s t := by
  unfold scatterBegin at h
  split at h
  · cases h
    exact .refl s
  · split at h
    · cases h
    · cases h
    next xs u hu =>
      split at h
      · cases h
      · cases h
        exact ((engSafe_scatterPlan _ _ _ s).safe xs u hu).trans (by simp [Safe])

theorem scatterBegin_error {e : Entry} {s : State} {o : Option State} (h : scatterBegin e s = .error o) :
    OptSafe s o := by
  unfold scatterBegin at h
  split at h
  · cases h
  · split at h
    · cases h
      exact optSafe_engineStop ..
    · cases h
      exact .some (by simp [Safe])
    next xs u hu =>
      split at h
      · cases h
        exact .some (by simp [Safe])
      · cases h

/-! ## Collectives (R275 to R277) -/

theorem collTable_kept (w : BitVec 32) (a : BitVec 5) : TableKept (collTable w a) := by
  intro b s l k t h
  unfold collTable at h
  dsimp only at h
  (repeat' split at h) <;> cases h <;> simp

@[simp] theorem countColl_kept (b s : State) :
    (countColl b s).cur = s.cur ∧ (countColl b s).dev.mem = s.dev.mem := by
  unfold countColl
  dsimp only
  (repeat' split) <;> simp

theorem safe_collRead (slot idx nmem : Nat) (e : Entry) (s : State) :
    (collRead slot idx nmem e s).1.cur = (slot, 1) ∧
    (Memory.wf s.dev.mem = true → Memory.wf (collRead slot idx nmem e s).1.dev.mem = true) := by
  unfold collRead
  dsimp only
  split
  next bs u h =>
    obtain ⟨hc, hm⟩ := (engSafe_engRead ..).safe _ _ h
    exact ⟨by simpa using hc, fun hs => hm (by simpa using hs)⟩
  · simp

theorem collWrite_wf (slot : Nat) (e : Entry) (bs : List Byte) (s : State) (h : Memory.wf s.dev.mem = true) :
    Memory.wf (collWrite slot e bs s).dev.mem = true := by
  unfold collWrite
  dsimp only
  split
  next u hu =>
    have := ((engSafe_engWrite ..).safe _ _ hu).2 (by simpa using h)
    simpa using this
  · simpa using h
  · simpa using h

theorem optSafe_sendAsk (q : Option (Nat × Nat × Nat)) (s : State) : OptSafe s (sendAsk q s) := by
  cases q with
  | none => exact .none s
  | some r => exact .some (by simp [Safe])

/-- Back at its focus, a machine whose memory stayed in canonical form has followed safely. -/
theorem safe_refocus {s t : State} (h : Memory.wf s.dev.mem = true → Memory.wf t.dev.mem = true) :
    Safe s (focus t s.cur.1 s.cur.2) :=
  ⟨by simp, by simpa using h⟩

theorem foldl_fst_wf {α β : Type} {g : State × β → α → State × β} (h : ∀ x a, Memory.wf x.1.dev.mem = true → Memory.wf (g x a).1.dev.mem = true)
    (l : List α) (x : State × β) (hx : Memory.wf x.1.dev.mem = true) : Memory.wf (l.foldl g x).1.dev.mem = true := by
  induction l generalizing x with
  | nil => exact hx
  | cons a l ih => exact ih _ (h x a hx)

theorem optSafe_collGroup (e : Entry) (s : State) : OptSafe s (collGroup e s) := by
  unfold collGroup
  dsimp only
  split
  · exact .none s
  · split
    · exact .some (safe_refocus fun h => foldl_wf _ (fun t p ht => by simpa using ht) _ _ h)
    · have hreads : ∀ l : List (Nat × Nat × Entry), Memory.wf s.dev.mem = true → Memory.wf (l.foldl (fun (x : State × List (Nat × Eng (List Byte))) m =>
          ((collRead m.2.1 m.1 (memberSlots s (kGroup e.block.toNat)).length m.2.2 x.1).1,
            x.2 ++ [(m.1, (collRead m.2.1 m.1 (memberSlots s (kGroup e.block.toNat)).length m.2.2 x.1).2)])) (s, [])).1.dev.mem = true :=
        fun l h => by refine foldl_fst_wf (fun x m hx => ?_) l _ h; exact (safe_collRead ..).2 hx
      split
      · exact optSafe_sendAsk ..
      · split
        · refine .some (safe_refocus fun h => foldl_wf _ (fun t p ht => ?_) _ _ h)
          split
          · simpa using ht
          · exact ht
        · split
          · exact optSafe_sendAsk ..
          · exact .some (safe_refocus fun h => foldl_wf _ (fun t p ht => collWrite_wf _ _ _ t ht) _ _ (hreads _ h))

theorem optSafe_collDevices (e : Entry) (ok : Bool) (parts : List (Nat × List Byte)) (s : State) :
    OptSafe s (collDevices e ok parts s) := by
  unfold collDevices
  dsimp only
  split
  · exact .some (by simp [Safe])
  · split
    · exact .none s
    · split
      · exact optSafe_engineStop ..
      · exact .some (by simp [Safe])
      next mine t h =>
        have hr := (engSafe_engRead ..).safe _ _ h
        split
        · exact optSafe_engineStop ..
        · exact .some (by simp [Safe])
        next u hu =>
          have hw := (engSafe_engWrite ..).safe _ _ hu
          refine .some (Safe.trans hr (Safe.trans ?_ (Safe.trans hw (by simp [Safe]))))
          split <;> simp [Safe]

/-! ## Time limit (R274) -/

theorem safe_collPartial (e : Entry) (l : List Nat) (parts : List (Nat × List Byte)) (s : State) :
    Safe s (collPartial e l parts s) := by
  unfold collPartial
  dsimp only
  split
  · exact .refl s
  · split
    next t h => exact (engSafe_engWriteMasked ..).safe _ _ h
    · exact .refl s

@[simp] theorem trainPartial_safe (e : Entry) (at' : List Nat) (add : Bool) (s : State) :
    (trainPartial e at' add s).cur = s.cur ∧ (Memory.wf s.dev.mem = true → Memory.wf (trainPartial e at' add s).dev.mem = true) := by
  unfold trainPartial
  dsimp only
  (repeat' split) <;> simp +contextual

/-! ## Hashing (R304, R308) -/

theorem engSafe_chainBefore (e : Entry) (s : State) : EngSafe s (chainBefore e s) := by
  unfold chainBefore
  split_ifs
  · exact .ok (.refl s)
  · exact .ok (.refl s)
  · exact engSafe_engRead ..

theorem engSafe_hashStep (e : Entry) (s : State) : EngSafe s (hashStep e s) := by
  refine (engSafe_chainBefore ..).bind fun c t => (engSafe_engRead ..).bind fun toks u => (engSafe_engReach ..).bind fun _ v => EngSafe.bind ?_ fun _ w =>
    (engSafe_engWrite ..).bind fun _ y => ?_
  · split
    · exact .ok (.refl v)
    · exact engSafe_engReach ..
  · split
    · exact .ok (.refl y)
    · exact (engSafe_engWrite ..).bind fun _ z => .ok (.refl z)

theorem optSafe_hashRun (p n : Nat) (e : Entry) (s : State) : OptSafe s (hashRun p n e s) := by
  induction n generalizing e s with
  | zero =>
    unfold hashRun
    dsimp only
    split <;> exact .some (by simp [Safe])
  | succ n ih =>
    unfold hashRun
    dsimp only
    split
    · exact .some (by simp [Safe])
    · split
      · exact optSafe_engineStop ..
      · exact .some (by simp [Safe])
      next c t h => exact .trans (((engSafe_hashStep ..).safe c t h).trans (by simp [Safe])) (ih ..)

/-! ## Tables (R302, R303) -/

theorem engSafe_reachEntry (e : Entry) (va : Nat) (s : State) : EngSafe s (reachEntry e va s) := by
  unfold reachEntry
  split
  · exact .err ..
  · split_ifs
    · exact .err ..
    · exact .err ..
    · exact .ok (by simp [Safe])

theorem engSafe_probeAll (e : Entry) (l : List Nat) (s : State) : EngSafe s (probeAll e l s) := by
  induction l generalizing s with
  | nil => exact .ok (.refl s)
  | cons va l ih => exact (engSafe_reachEntry ..).bind fun _ _ => (ih ..).bind fun _ u => .ok (.refl u)

theorem engSafe_keyAt (e : Entry) (k : Nat) (s : State) : EngSafe s (keyAt e k s) :=
  (engSafe_engRead ..).bind fun _ t => .ok (.refl t)

theorem engSafe_lookStep (e : Entry) (s : State) : EngSafe s (lookStep e s) := by
  refine (engSafe_keyAt ..).bind fun key t => (engSafe_engReach ..).bind fun _ u => (engSafe_probeAll ..).bind fun xs v => ?_
  split
  · exact .ok (.refl v)
  · split
    · exact .ok (.refl v)
    · exact (engSafe_engWrite ..).bind fun _ _ => (engSafe_engWrite ..).bind fun _ _ => (engSafe_engWrite ..).bind fun _ w => .ok (.refl w)

theorem engSafe_insertStep (e : Entry) (s : State) : EngSafe s (insertStep e s) := by
  refine (engSafe_keyAt ..).bind fun key t => (engSafe_engRead ..).bind fun pg u => (engSafe_engReach ..).bind fun _ v => (engSafe_probeAll ..).bind fun xs w => ?_
  dsimp only
  split
  · exact (engSafe_engWrite ..).bind fun _ y => .ok (.refl y)
  · split
    · exact .ok (.refl w)
    · exact (engSafe_engWrite ..).bind fun _ _ => (engSafe_engWrite ..).bind fun _ y => .ok (.refl y)

theorem engSafe_unpinStep (e : Entry) (s : State) : EngSafe s (unpinStep e s) := by
  refine (engSafe_keyAt ..).bind fun key t => (engSafe_probeAll ..).bind fun xs u => ?_
  split
  · exact .ok (.refl u)
  · exact (engSafe_engWrite ..).bind fun _ v => .ok (.refl v)

theorem optSafe_pfxEnd (p : Nat) (e : Entry) (count status n c o : Nat) (s : State) :
    OptSafe s (pfxEnd p e count status n c o s) := by
  unfold pfxEnd
  split
  · exact optSafe_engineStop ..
  · exact .some (by simp [Safe])
  next t h => exact .some (((engSafe_engWrite ..).safe _ t h).trans (by simp [Safe]))

theorem pfxBegin_error {e : Entry} {s : State} {o : Option State} (h : pfxBegin e s = .error o) :
    OptSafe s o := by
  unfold pfxBegin at h
  split at h
  · cases h
  · split at h
    · cases h
      exact .some (by simp [Safe])
    · dsimp only at h
      split at h
      · cases h
      · cases h
        exact optSafe_pfxEnd ..

theorem optSafe_keyRun (step : Entry → State → Eng KeyStep) (hstep : ∀ e s, EngSafe s (step e s)) (p n : Nat) (e : Entry) (s : State) :
    OptSafe s (keyRun step p n e s) := by
  induction n generalizing e s with
  | zero =>
    unfold keyRun
    dsimp only
    split
    · exact optSafe_pfxEnd ..
    · exact .some (by simp [Safe])
  | succ n ih =>
    unfold keyRun
    dsimp only
    split
    · exact optSafe_pfxEnd ..
    · split
      · exact optSafe_engineStop ..
      · exact optSafe_pfxEnd ..
      next st t h => exact .trans ((hstep e s).safe _ t h) (optSafe_pfxEnd ..)
      next t h => exact .trans (((hstep e s).safe _ t h).trans (by simp [Safe])) (ih ..)

theorem optSafe_unpinRun (p n : Nat) (e : Entry) (s : State) : OptSafe s (unpinRun p n e s) := by
  induction n generalizing e s with
  | zero =>
    unfold unpinRun
    dsimp only
    split
    · exact optSafe_pfxEnd ..
    · exact .some (by simp [Safe])
  | succ n ih =>
    unfold unpinRun
    dsimp only
    split
    · exact optSafe_pfxEnd ..
    · split
      · exact optSafe_engineStop ..
      · exact optSafe_pfxEnd ..
      next d t h => exact .trans (((engSafe_unpinStep ..).safe d t h).trans (by simp [Safe])) (ih ..)

theorem safe_pfxTurn (op : EngOp) (go : Nat → Nat → Entry → State → Option State) (hgo : ∀ p n e t, OptSafe t (go p n e t)) (s : State) :
    Safe s (pfxTurn op go s) := by
  refine engineStep_safe _ _ _ s fun e t => ?_
  split
  next u h => exact pfxBegin_error h
  · exact hgo ..

end Sys2Proof.Machine

end

section

/-! PROOFS. What the dispatcher, tasks, cuttings and placement leave alone (for O6). -/

namespace Sys2Proof.Machine

/-! ## The dispatcher's memory accesses -/

@[simp] theorem onDevice_mem (f : Device → Device) (s : State) : (onDevice f s).dev.mem = (f (park s)).mem :=
  rfl

theorem ctxWrite_wf {op c va : Nat} {bs : List Byte} {d e : Device} (h : ctxWrite op c va bs d = .ok e) (hd : Memory.wf d.mem = true) :
    Memory.wf e.mem = true := by
  unfold ctxWrite at h
  split at h
  · cases h
  · cases h
    exact performHome_wf _ _ _ _ hd

@[simp] theorem ctxWriteOr_wf (op c va : Nat) (bs : List Byte) (d : Device) (hd : Memory.wf d.mem = true) :
    Memory.wf (ctxWriteOr op c va bs d).mem = true := by
  unfold ctxWriteOr
  split
  next e h => exact ctxWrite_wf h hd
  · exact hd

/-! ## Signals and packets (R219, R221) -/

@[simp] theorem reportSignal_wf (c addr status code : Nat) (d : Device) :
    Memory.wf d.mem = true → Memory.wf (reportSignal c addr status code d).mem = true := by
  unfold reportSignal
  dsimp only
  (repeat' split) <;> simp +contextual

@[simp] theorem completePacket_wf (p : Nat) (d : Device) :
    Memory.wf d.mem = true → Memory.wf (completePacket p d).mem = true := by
  unfold completePacket
  (repeat' split) <;> simp +contextual

@[simp] theorem notePacket_wf (l : Launch) (status code : Nat) (d : Device) :
    Memory.wf d.mem = true → Memory.wf (notePacket l status code d).mem = true := by
  unfold notePacket
  dsimp only
  (repeat' split) <;> simp +contextual

/-! ## Tasks (R222, R225) -/

@[simp] theorem mapLaunch_kept (id : Nat) (f : Launch → Launch) (d : Device) :
    (mapLaunch id f d).mem = d.mem := by
  unfold mapLaunch
  split <;> simp

@[simp] theorem setTaskState_wf (id st : Nat) (d : Device) :
    Memory.wf d.mem = true → Memory.wf (setTaskState id st d).mem = true := by
  unfold setTaskState
  split <;> simp +contextual

@[simp] theorem releaseAll_wf (d : Device) (hd : Memory.wf d.mem = true) :
    Memory.wf (releaseAll d).mem = true := by
  refine foldl_device_wf _ (fun e p he => ?_) _ d hd
  split
  · split <;> simp [he]
  · exact he

@[simp] theorem decrementPred_wf (c tcb : Nat) (d : Device) :
    Memory.wf d.mem = true → Memory.wf (decrementPred c tcb d).mem = true := by
  unfold decrementPred
  split <;> simp +contextual

@[simp] theorem completeTask_wf (id : Nat) (d : Device) (hd : Memory.wf d.mem = true) :
    Memory.wf (completeTask id d).mem = true := by
  unfold completeTask
  split
  · exact hd
  · dsimp only
    split
    · simp [hd]
    · refine foldl_device_wf _ (fun e i he => ?_) _ _ (by simp [hd])
      split <;> simp [he]

@[simp] theorem finishTask_wf (id cfg j key : Nat) (d : Device) :
    Memory.wf d.mem = true → Memory.wf (finishTask id cfg j key d).mem = true := by
  unfold finishTask
  dsimp only
  (repeat' split) <;> simp +contextual

/-! ## Completing a launch (R221, R225, R235, R294, R339) -/

@[simp] theorem freeSlots_kept (id : Nat) (d : Device) : (freeSlots id d).mem = d.mem := by simp [freeSlots]

@[simp] theorem freeFrame_kept (c f : Nat) (d : Device) : (freeFrame c f d).mem = d.mem := by simp [freeFrame]

@[simp] theorem dropCuts_kept (id : Nat) (d : Device) : (dropCuts id d).mem = d.mem := by simp [dropCuts]

@[simp] theorem markMissed_kept (id : Nat) (d : Device) : (markMissed id d).mem = d.mem := by
  unfold markMissed
  (repeat' split) <;> simp

@[simp] theorem endLaunch_wf (id status code : Nat) (d : Device) :
    Memory.wf d.mem = true → Memory.wf (endLaunch id status code d).mem = true := by
  unfold endLaunch
  dsimp only
  (repeat' split) <;> simp +contextual

@[simp] theorem checkLaunch_wf (id : Nat) (d : Device) :
    Memory.wf d.mem = true → Memory.wf (checkLaunch id d).mem = true := by
  unfold checkLaunch
  (repeat' split) <;> simp +contextual

@[simp] theorem checkBoth_wf (id : Nat) (d : Device) :
    Memory.wf d.mem = true → Memory.wf (checkBoth id d).mem = true := by
  unfold checkBoth
  dsimp only
  split <;> simp +contextual

/-! ## TGET (R227, R285) -/

@[simp] theorem loadStreams_kept (id : Nat) (args : List Word) (bs : List Byte) (s : State) :
    (loadStreams id args bs s).cur = s.cur ∧ (loadStreams id args bs s).dev.mem = s.dev.mem := by simp [loadStreams]

@[simp] theorem takeTask_safe (d : BitVec 5) (id : Nat) (s : State) :
    (takeTask d id s).cur = s.cur ∧ (Memory.wf s.dev.mem = true → Memory.wf (takeTask d id s).dev.mem = true) := by
  unfold takeTask
  dsimp only
  (repeat' split) <;> simp +contextual

/-! ## TDONE, TDONE.C (R228) -/

@[simp] theorem pushFinish_kept (leave : Bool) (s : State) :
    (pushFinish leave s).cur = s.cur ∧ (pushFinish leave s).dev.mem = s.dev.mem := by
  simp [pushFinish]

/-! ## TLAUNCH, TLAUNCH.W (R230, R231) -/

@[simp] theorem offerTcb_kept (ea : Nat) (bs : List Byte) (s : State) :
    (offerTcb ea bs s).cur = s.cur ∧ (offerTcb ea bs s).dev.mem = s.dev.mem := by
  simp [offerTcb]

theorem launchWord_kept (w : BitVec 32) (d a : BitVec 5) (full : State → Res) (s : State)
    (h : ∀ t, (full t).last.cur = t.cur ∧ (full t).last.dev.mem = t.dev.mem) :
    (launchWord w d a full s).cur = s.cur ∧ (launchWord w d a full s).dev.mem = s.dev.mem := by
  refine run_kept _ _ _ fun t => ?_
  dsimp only
  (repeat' split) <;> simp [h]

@[simp] theorem beginSave_kept (k : SaveKind) (s : State) :
    (beginSave k s).cur = s.cur ∧ (beginSave k s).dev.mem = s.dev.mem := by simp [beginSave]

/-! ## A thread and a slot from a section (R345, R346, R348) -/

/-- Entries left out of a sparse table leave its canonical form. -/
theorem SMap.wf_filter {α : Type} [DecidableEq α] (d : α) (p : Nat × α → Bool) (m : SMap α)
    (h : SMap.wf d m = true) :
    SMap.wf d (m.filter p) = true := by
  rw [SMap.wf_iff] at h ⊢
  refine ⟨?_, fun q hq => h.2 q (List.mem_of_mem_filter hq)⟩
  obtain ⟨h, -⟩ := h
  induction m with
  | nil => rfl
  | cons q m ih =>
    rw [SMap.rising_cons] at h
    rw [List.filter_cons]
    split
    · rw [SMap.rising_cons]
      exact ⟨fun r hr => h.1 r (List.mem_of_mem_filter hr), ih h.2⟩
    · exact ih h.2

@[simp] theorem zeroScratch_wf (slot : Nat) (d : Device) (hd : Memory.wf d.mem = true) :
    Memory.wf (zeroScratch slot d).mem = true :=
  SMap.wf_filter _ _ _ hd

@[simp] theorem scratchFrom_wf (sec slot scru : Nat) (d : Device) (hd : Memory.wf d.mem = true) :
    Memory.wf (scratchFrom sec slot scru d).mem = true := by
  have h : ∀ (l : List Nat) (x : Nat × Device), Memory.wf x.2.mem = true → Memory.wf (l.foldl (fun (x : Nat × Device) u =>
      (x.1 + 65536, if u < scru then writeBytes x.2 (scratchKey slot (65536 * u)) (leBytes 65536 (bfield sec x.1 65536)) else x.2)) x).2.mem = true := by
    intro l
    induction l with
    | nil => exact fun x hx => hx
    | cons u l ih =>
      refine fun x hx => ih _ ?_
      dsimp only
      split <;> simp [hx]
  exact h _ _ hd

/-! ## Writing at a cutting's address -/

@[simp] theorem askCut_kept (m : Miss) (s : State) :
    (askCut m s).cur = s.cur ∧ (askCut m s).dev.mem = s.dev.mem := by
  unfold askCut
  split <;> simp

@[simp] theorem cutAnswered_kept (slot : Nat) (d : Device) : (cutAnswered slot d).mem = d.mem := by
  simp [cutAnswered]

/-- Where a step of a cutting goes on, it goes on from a state that follows safely; `p` finds it in what the step answers. -/
structure MissSafe {α : Type} (p : α → State) (s : State) (x : Except Miss α) : Prop where
  safe : ∀ a, x = .ok a → Safe s (p a)

section

variable {α β : Type} {p : α → State} {s : State}

theorem MissSafe.ok {a : α} (h : Safe s (p a)) : MissSafe p s (.ok a) := by
  refine ⟨fun u hu => ?_⟩
  cases hu
  exact h

theorem MissSafe.error (m : Miss) : MissSafe p s (.error m) := ⟨fun _ h => by cases h⟩

theorem MissSafe.bind {x : Except Miss State} {f : State → Except Miss α} (hx : MissSafe id s x)
    (hf : ∀ t, MissSafe p t (f t)) :
    MissSafe p s (x >>= f) := by
  cases x with
  | error m => exact .error m
  | ok t => exact ⟨fun u hu => (hx.safe t rfl).trans ((hf t).safe u hu)⟩

theorem MissSafe.bind_value (x : Except Miss β) {f : β → Except Miss α} (hf : ∀ a, MissSafe p s (f a)) :
    MissSafe p s (x >>= f) := by
  cases x with
  | error m => exact .error m
  | ok a => exact hf a

end

theorem missSafe_cutWrite (op va : Nat) (bs : List Byte) (s : State) :
    MissSafe id s (cutWrite op va bs s) := by
  unfold cutWrite
  split
  · exact .error _
  · exact .ok (by simp +contextual [Safe])

theorem missSafe_sealCut (c : Cut) (owner : Nat) (s : State) : MissSafe id s (sealCut c owner s) := by
  refine (missSafe_cutWrite ..).bind fun _ => (missSafe_cutWrite ..).bind fun _ => (missSafe_cutWrite ..).bind fun _ => (missSafe_cutWrite ..).bind fun _ =>
    .bind_value _ fun _ => (missSafe_cutWrite ..).bind fun t => .bind_value _ fun _ => ?_
  split
  · exact missSafe_cutWrite ..
  · exact .ok (.refl t)

/-! ## SUSP (R338) -/

@[simp] theorem chargeSlot_kept (sl : Slot) (d : Device) : (chargeSlot sl d).mem = d.mem := by
  simp [chargeSlot]

@[simp] theorem dropSlot_kept (n : Nat) (d : Device) : (dropSlot n d).mem = d.mem := by simp [dropSlot]

@[simp] theorem keepPlace_kept (sl : Slot) (d : Device) : (keepPlace sl d).mem = d.mem := by
  unfold keepPlace
  split <;> simp

@[simp] theorem leaveSlot_wf (n : Nat) (d : Device) :
    Memory.wf d.mem = true → Memory.wf (leaveSlot n d).mem = true := by simp +contextual [leaveSlot]

theorem missSafe_writeMember (u : Suspend) (l : Launch) (k : Nat) (c : Cut) (s : State) :
    MissSafe Prod.fst s (writeMember u l k c s) := by
  have hend : ∀ (n : Nat) (f : Launch → Launch) (c' : Cut) (t : State),
      MissSafe Prod.fst t (pure ({ t with dev := mapLaunch n f t.dev }, c') : Except Miss (State × Cut)) := fun n f c' t => .ok (by simp [Safe])
  unfold writeMember
  dsimp only
  split
  · refine (missSafe_cutWrite ..).bind fun v => (missSafe_cutWrite ..).bind fun w => ?_
    split
    · exact (missSafe_sealCut ..).bind fun z => hend ..
    · exact hend ..
  · refine (missSafe_cutWrite ..).bind fun w => ?_
    split
    · exact (missSafe_sealCut ..).bind fun z => hend ..
    · exact hend ..

@[simp] theorem unsuspend_kept (s : State) :
    (unsuspend s).cur = s.cur ∧ (unsuspend s).dev.mem = s.dev.mem := by
  unfold unsuspend
  refine ⟨foldl_cur _ (fun t p => within_cur _ _ _ t) _ s, foldl_mem _ (fun t p => within_mem _ _ _ t fun u => ?_) _ s⟩
  dsimp only
  split <;> simp

theorem safe_suspendSlot (s : State) : Safe s (suspendSlot s) := by
  unfold suspendSlot
  split
  · split
    · exact .refl s
    · split
      next t c h => exact ((missSafe_writeMember ..).safe _ h).trans (by simp +contextual [Safe, onDevice])
      · dsimp only
        split
        · simp [Safe]
        · simp [Safe]
  · exact .refl s

/-! ## RESM (R347, R348) -/

@[simp] theorem admitResumed_kept (ea h sig : Nat) (s : State) :
    (admitResumed ea h sig s).cur = s.cur ∧ (admitResumed ea h sig s).dev.mem = s.dev.mem := by
  unfold admitResumed
  dsimp only
  split <;> simp

theorem gotRes_safe (g : Got) (s : State) (f : List Byte → List Loc → Res)
    (h : ∀ bs locs, Safe s (f bs locs).last) :
    Safe s (gotRes g s f).last := by
  cases g with
  | ok bs locs => exact h bs locs
  | wait q => simp [gotRes, Safe]
  | trap c v w n => exact .refl s

theorem setCutState_safe (ea st : Nat) (s : State) (f : State → Res) (h : ∀ t, Safe t (f t).last) :
    Safe s (setCutState ea st s f).last := by
  unfold setCutState
  have hput : ∀ locs : List Loc, Safe s (f (answered locs { s with
      dev := performBytes (writerOf s 0 s.thr.sr.taskid) s.slot.acct 1 (wholeBytes (locs.map (·.key)) (leBytes 8 st)) s.dev })).last :=
    fun locs => Safe.trans (by simp +contextual [Safe]) (h _)
  split
  · exact .refl s
  · dsimp only
    split
    · split
      · exact .refl s
      · simp [Safe]
      · exact hput _
    · exact hput _

theorem grantList_safe (s : State) (h : Nat) (f : List Nat → List Loc → Res)
    (hf : ∀ l m, Safe s (f l m).last) :
    Safe s (grantList s h f).last := by
  unfold grantList
  dsimp only
  split
  · exact hf ..
  · exact gotRes_safe _ s _ fun bs locs => gotRes_safe _ s _ fun cs more => hf ..

/-! ## Dispatcher records (R402) -/

@[simp] theorem postDisp_wf (c acct tval tval2 origin : Nat) (d : Device) (h : Memory.wf d.mem = true) :
    Memory.wf (postDisp c acct tval tval2 origin d).mem = true := postOrDrop_wf _ _ _ _ h

/-! ## Queue registers (R217, R220) -/

@[simp] theorem mapQueue_kept (q : Nat) (f : UQueue → UQueue) (d : Device) : (mapQueue q f d).mem = d.mem := by
  simp [mapQueue]

/-! ## Consuming a packet (R218, R220) -/

@[simp] theorem stopQueue_wf (q err tval : Nat) (d : Device) :
    Memory.wf d.mem = true → Memory.wf (stopQueue q err tval d).mem = true := by
  simp +contextual [stopQueue]

@[simp] theorem consumePacket_wf (q : Nat) (d : Device) (h : Memory.wf d.mem = true) :
    Memory.wf (consumePacket q d).mem = true := by
  have hstop : ∀ err tval, Memory.wf (stopQueue q err tval d).mem = true := fun err tval => stopQueue_wf q err tval d h
  unfold consumePacket
  dsimp only
  split
  · exact h
  · split
    · exact hstop ..
    · split
      · simp [h]
      · split
        · exact hstop ..
        · split
          · exact hstop ..
          · split
            · exact hstop ..
            · split
              · exact hstop ..
              · next e he => simp [ctxWrite_wf he h]

/-! ## Starting and completing packets (R219) -/

@[simp] theorem offerAll_kept (p : Nat) (pk : Packet) (lists : List (List Nat)) (d : Device) :
    (offerAll p pk lists d).mem = d.mem := by
  simp [offerAll]

@[simp] theorem startPacket_kept (p : Nat) (d : Device) : (startPacket p d).mem = d.mem := by
  unfold startPacket
  (repeat' split) <;> simp

@[simp] theorem failPacket_wf (p : Nat) (pk : Packet) (tval : Nat) (d : Device) :
    Memory.wf d.mem = true → Memory.wf (failPacket p pk tval d).mem = true := by simp +contextual [failPacket]

@[simp] theorem passBarrier_wf (p : Nat) (d : Device) :
    Memory.wf d.mem = true → Memory.wf (passBarrier p d).mem = true := by
  unfold passBarrier
  (repeat' split) <;> simp +contextual

@[simp] theorem signalPacket_wf (p : Nat) (d : Device) (h : Memory.wf d.mem = true) :
    Memory.wf (signalPacket p d).mem = true := by
  unfold signalPacket
  split
  · exact h
  · dsimp only
    split
    · split
      · simp [h]
      · split
        · simp [h]
        next e he => simp [ctxWrite_wf he h]
    · exact h

/-! ## Admission (R212, R222 to R224, R352) -/

@[simp] theorem rejectLaunch_wf (id code tval sig : Nat) (l : Launch) (d : Device) (h : Memory.wf d.mem = true) :
    Memory.wf (rejectLaunch id code tval sig l d).mem = true := by
  have hf := foldl_device_wf (fun d t => ctxWriteOr 0 l.ctx (t + 112) (leBytes 8 5) d) (fun e t he => by simp [he]) l.tcbs d h
  simp [rejectLaunch, hf]

@[simp] theorem chainTcb_wf (c tcb : Nat) (d : Device) :
    Memory.wf d.mem = true → Memory.wf (chainTcb c tcb d).mem = true := by
  simp +contextual [chainTcb]

@[simp] theorem admitTask_wf (id t idx tcb b : Nat) (l : Launch) (d : Device) :
    Memory.wf d.mem = true → Memory.wf (admitTask id t idx tcb b l d).mem = true := by
  unfold admitTask
  split <;> simp +contextual

@[simp] theorem admitLaunch_wf (id : Nat) (l : Launch) (bs : List Nat) (d : Device) :
    Memory.wf d.mem = true → Memory.wf (admitLaunch id l bs d).mem = true := by simp +contextual [admitLaunch]

@[simp] theorem decideLaunch_wf (id : Nat) (d : Device) :
    Memory.wf d.mem = true → Memory.wf (decideLaunch id d).mem = true := by
  unfold decideLaunch
  (repeat' split) <;> simp +contextual

/-! ## The graft window (R286) -/

theorem pullIn_wf {q n : Nat} {d e : Device} {l : List Nat} (h : pullIn q n d = some (l, e))
    (hd : Memory.wf d.mem = true) :
    Memory.wf e.mem = true := by
  induction n generalizing d l with
  | zero =>
    cases h
    exact hd
  | succ n ih =>
    have hc : Memory.wf (if (unstarted d q).isEmpty then consumePacket q d else d).mem = true := by split <;> simp [hd]
    unfold pullIn at h
    dsimp only at h
    generalize (if (unstarted d q).isEmpty then consumePacket q d else d) = f at h hc
    split at h
    · cases h
    · split at h
      · split at h
        · rw [Option.map_eq_some_iff] at h
          obtain ⟨⟨m, f⟩, hm, hf⟩ := h
          cases hf
          exact ih hm (by simp [hc])
        · cases h
      · cases h

theorem joinKern_wf {p j : Nat} {notes : List Byte} {d e : Device} {k : Nat × Nat} (h : joinKern p j notes d = some (k, e)) (hd : Memory.wf d.mem = true) :
    Memory.wf e.mem = true := by
  unfold joinKern at h
  split at h
  · cases h
  · split at h
    · cases h
    · dsimp only at h
      rw [Option.bind_eq_some_iff] at h
      obtain ⟨l, -, hl⟩ := h
      rw [Option.map_eq_some_iff] at hl
      obtain ⟨t, -, ht⟩ := hl
      cases ht
      simp [hd]

theorem joinKerns_wf {win : List Nat} {notes : List (List Byte)} {i : Nat} {l : List (Nat × Nat)} {d e : Device} {ks : List (Nat × Nat)}
    (h : joinKerns win notes i l d = some (ks, e)) (hd : Memory.wf d.mem = true) : Memory.wf e.mem = true := by
  induction l generalizing i d ks with
  | nil =>
    cases h
    exact hd
  | cons x l ih =>
    unfold joinKerns at h
    split at h
    · cases h
    next k f hk =>
      rw [Option.bind_eq_some_iff] at hk
      obtain ⟨p, -, hp⟩ := hk
      rw [Option.map_eq_some_iff] at h
      obtain ⟨⟨m, g⟩, hm, hg⟩ := h
      cases hg
      exact ih hm (joinKern_wf hp hd)

theorem formChain_wf {id task : Nat} {pairs : List (Nat × Nat)} {notes : List (List Byte)} {d e : Device} {ks : List Kern} {bs : List Binding}
    (h : formChain id task pairs notes d = some (ks, bs, e)) (hd : Memory.wf d.mem = true) : Memory.wf e.mem = true := by
  unfold formChain at h
  simp only [Option.bind_eq_bind, Option.bind_eq_some_iff] at h
  obtain ⟨l, -, p, -, h⟩ := h
  split at h
  · cases h
  · simp only [Option.bind_eq_some_iff] at h
    obtain ⟨⟨win, f⟩, hf, ⟨ids, g⟩, hg, ks', -, bs', -, hk⟩ := h
    cases hk
    exact joinKerns_wf hg (pullIn_wf hf hd)

/-! ## The order of placement (R232) -/

@[simp] theorem inSlot_mem (n r : Nat) (f : State → State) (d : Device) :
    (inSlot n r f d).mem = (f (unpark d n r)).dev.mem := rfl

/-! ## A slot and its threads at the start (R16, R223, R237, R239, R245, R248) -/

@[simp] theorem heldBack_mem (n : Nat) (sl : Slot) (d : Device) : (heldBack n sl d).2.mem = d.mem := rfl

@[simp] theorem dropAsks_kept (n : Nat) (d : Device) : (dropAsks n d).mem = d.mem := by simp [dropAsks]

@[simp] theorem installSlot_wf (n : Nat) (sl : Slot) (d : Device) :
    Memory.wf d.mem = true → Memory.wf (installSlot n sl d).mem = true := by
  simp +contextual [installSlot]

@[simp] theorem placeSlot_wf (id : Nat) (l : Launch) (j n : Nat) (d : Device) :
    Memory.wf d.mem = true → Memory.wf (placeSlot id l j n d).mem = true := by simp +contextual [placeSlot]

@[simp] theorem startQueue_kept (q : Nat) (d : Device) : (startQueue q d).mem = d.mem := by
  unfold startQueue
  (repeat' split) <;> simp

/-! ## A launch resumed from a cutting (R345 to R348) -/

theorem engSafe_refillRead (e : Entry) (va n : Nat) (s : State) : EngSafe s (refillRead e va n s) := by
  unfold refillRead
  split
  · exact .err ..
  · split
    · exact .err ..
    · exact .err ..
    · exact .ok (by simp [Safe])

theorem safe_refillOne (i : Nat) (s : State) : Safe s (refillOne i s) := by
  unfold refillOne
  dsimp only
  split
  · exact .refl s
  · split
    next x t h =>
      have hr : Safe s t := (EngSafe.bind (engSafe_refillRead ..) fun _ _ => (engSafe_refillRead ..).bind fun _ v => .ok (.refl v)).safe _ _ h
      exact hr.trans (by simp [Safe])
    · simp [Safe]
    · simp [Safe]

theorem safe_refillAll (s : State) : Safe s (refillAll s) := .foldl (fun t i => safe_refillOne i t) _ s

@[simp] theorem refillAll_cur (s : State) : (refillAll s).cur = s.cur := (safe_refillAll s).1

@[simp] theorem refillAll_wf (s : State) (h : Memory.wf s.dev.mem = true) :
    Memory.wf (refillAll s).dev.mem = true := (safe_refillAll s).2 h

@[simp] theorem pastSusp_kept (status : Nat) (s : State) :
    (pastSusp status s).cur = s.cur ∧ (pastSusp status s).dev.mem = s.dev.mem := by
  simp [pastSusp]

@[simp] theorem resumeMember_wf (id : Nat) (l : Launch) (m n ent sec : Nat) (d : Device) (hd : Memory.wf d.mem = true) :
    Memory.wf (resumeMember id l m n ent sec d).mem = true := by
  unfold resumeMember
  dsimp only
  rw [inSlot_mem]
  refine refillAll_wf _ (foldl_device_wf _ (fun e p he => ?_) _ _ ?_)
  · simp [he]
  · simp [hd]

@[simp] theorem placeCutting_wf (id : Nat) (l : Launch) (ea : Nat) (ns : List Nat) (d : Device) :
    Memory.wf d.mem = true → Memory.wf (placeCutting id l ea ns d).mem = true := by
  unfold placeCutting
  split <;> simp +contextual

/-! ## Chains (R289, R298) -/

@[simp] theorem placeChain_wf (ks : List Kern) (binds : List Binding) (n : Nat) (d : Device) :
    Memory.wf d.mem = true → Memory.wf (placeChain ks binds n d).mem = true := by
  unfold placeChain
  simp +contextual

/-! ## PLACE_LAUNCH -/

@[simp] theorem placeAlone_wf (id : Nat) (l : Launch) (ns : List Nat) (d : Device) :
    Memory.wf d.mem = true → Memory.wf (placeAlone id l ns d).mem = true := by
  unfold placeAlone
  simp +contextual

@[simp] theorem placeLaunch_wf (id : Nat) (ns : List Nat) (num : Nat) (pairs : List (Nat × Nat)) (notes : List (List Byte)) (d : Device)
    (hd : Memory.wf d.mem = true) : Memory.wf (placeLaunch id ns num pairs notes d).mem = true := by
  unfold placeLaunch
  split
  · exact hd
  · split
    · exact hd
    · split
      · simp [hd]
      · split
        · simp [hd]
        next ks bs e he =>
          have h : Memory.wf e.mem = true := by
            split at he
            · cases he
            · rw [Option.bind_eq_some_iff] at he
              obtain ⟨t, -, ht⟩ := he
              exact formChain_wf ht hd
          split <;> simp [h, hd]

/-! ## TASK_FINISH (R225, R228, R296, R338, R339) -/

@[simp] theorem finishPart_safe (f : Finish) (s : State) : (finishPart f s).cur = s.cur ∧
    (Memory.wf s.dev.mem = true → Memory.wf (finishPart f s).dev.mem = true) := by
  unfold finishPart
  split <;> simp +contextual

theorem missSafe_foldlM {α : Type} {g : State → α → Except Miss State} (h : ∀ s a, MissSafe id s (g s a)) (l : List α) (s : State) :
    MissSafe id s (l.foldlM g s) := by
  induction l generalizing s with
  | nil => exact .ok (.refl s)
  | cons a l ih =>
    rw [List.foldlM_cons]
    exact (h s a).bind fun t => ih t

theorem missSafe_dropOut (s : State) : MissSafe id s (dropOut s) := by
  unfold dropOut
  split
  · exact .ok (.refl s)
  · refine missSafe_foldlM (fun t p => ?_) _ s
    dsimp only
    split
    · exact (missSafe_sealCut ..).bind fun u => .ok (by simp [Safe])
    · exact .ok (by simp [Safe])

@[simp] theorem stallAt_kept (f : Finish) (m : Miss) (s : State) :
    (stallAt f m s).cur = s.cur ∧ (stallAt f m s).dev.mem = s.dev.mem := by
  simp [stallAt]

@[simp] theorem leaveLaunch_safe (s : State) :
    (leaveLaunch s).cur = s.cur ∧ (Memory.wf s.dev.mem = true → Memory.wf (leaveLaunch s).dev.mem = true) := by
  unfold leaveLaunch
  dsimp only
  split <;> simp +contextual

@[simp] theorem takeFinish_safe (s : State) :
    (takeFinish s).cur = s.cur ∧ (Memory.wf s.dev.mem = true → Memory.wf (takeFinish s).dev.mem = true) := by
  unfold takeFinish
  split
  · exact ⟨rfl, id⟩
  · split
    · exact ⟨rfl, id⟩
    · dsimp only
      split
      · simp +contextual
      · split
        · simp +contextual
        · split
          next u hu =>
            obtain ⟨hc, hm⟩ : Safe _ u := (missSafe_dropOut _).safe _ hu
            exact ⟨by simpa using hc, fun h => by simp [hm h]⟩
          · split <;> simp +contextual

/-! ## The end of a launch before its time (R234, R294, R322, R401) -/

@[simp] theorem beginEnd_kept (id status code : Nat) (d : Device) :
    (beginEnd id status code d).mem = d.mem := by
  unfold beginEnd
  (repeat' split) <;> simp

@[simp] theorem failTasks_wf (l : Launch) (d : Device) (hd : Memory.wf d.mem = true) :
    Memory.wf (failTasks l d).mem = true := by
  refine foldl_device_wf _ (fun e t he => ?_) _ d hd
  split
  · split <;> simp [he]
  · exact he

@[simp] theorem chargeHeld_kept (id : Nat) (d : Device) : (chargeHeld id d).mem = d.mem := by
  simp [chargeHeld]

@[simp] theorem failWaiting_wf (id cause : Nat) (d : Device) (hd : Memory.wf d.mem = true) :
    Memory.wf (failWaiting id cause d).mem = true := by
  refine foldl_device_wf _ (fun e p he => ?_) _ d hd
  split
  · exact he
  · simp [he]

@[simp] theorem tryEnd_wf (id : Nat) (d : Device) (hd : Memory.wf d.mem = true) :
    Memory.wf (tryEnd id d).mem = true := by
  unfold tryEnd
  split
  · exact hd
  · split
    next l _ _ =>
      have hw : Memory.wf (failWaiting id l.cause (mapLaunch id (fun l => { l with gone := (upFrom 0 l.nslot).flatMap (slotKeys l.cfg) })
          (chargeHeld id (failTasks l d)))).mem = true := by simp [hd]
      dsimp only
      split <;> simp [hw]
    · exact hd

@[simp] theorem endByHost_wf (id : Nat) (d : Device) :
    Memory.wf d.mem = true → Memory.wf (endByHost id d).mem = true := by
  unfold endByHost
  split <;> simp +contextual

@[simp] theorem endSlot_wf (n : Nat) (d : Device) :
    Memory.wf d.mem = true → Memory.wf (endSlot n d).mem = true := by simp +contextual [endSlot]

@[simp] theorem missDeadline_wf (id : Nat) (d : Device) :
    Memory.wf d.mem = true → Memory.wf (missDeadline id d).mem = true := by
  unfold missDeadline
  (repeat' split) <;> simp +contextual

@[simp] theorem meetDeadlines_safe (s : State) : (meetDeadlines s).cur = s.cur ∧
    (Memory.wf s.dev.mem = true → Memory.wf (meetDeadlines s).dev.mem = true) := by
  unfold meetDeadlines
  split
  · exact ⟨rfl, fun h => foldl_device_wf _ (fun e p he => by simp [he]) _ _ h⟩
  · exact ⟨rfl, id⟩

end Sys2Proof.Machine

end

section

/-! PROOFS. What the host, the save sequencer, the fabric, errors and starts leave alone (for O6). -/

namespace Sys2Proof.Machine

/-! ## Lane mode and MAXVL (R201, R394) -/

@[simp] theorem writeLpart_kept (c : Nat) (v : Word) (d : Device) : (writeLpart c v d).mem = d.mem := by
  simp [writeLpart]

@[simp] theorem writeMaxvl_kept (n : Nat) (v : Word) (d : Device) : (writeMaxvl n v d).mem = d.mem := by
  simp [writeMaxvl]

/-! ## RESUME (R322) -/

@[simp] theorem resumeSlot_kept (n : Nat) (d : Device) : (resumeSlot n d).mem = d.mem := by simp [resumeSlot]

/-! ## Fault records (R320, R321) -/

/-- A record posted leaves memory in canonical form. -/
theorem postRecord_wf (d : Device) (c : Nat) (rec : List Byte) (hd : Memory.wf d.mem = true) :
    Memory.wf ((postRecord d c rec).dev d).mem = true :=
  (homes_postRecord d c rec).wf hd

@[simp] theorem postHeld_wf (n : Nat) (d : Device) (hd : Memory.wf d.mem = true) :
    Memory.wf (postHeld n d).mem = true := by
  unfold postHeld
  dsimp only
  split
  · exact hd
  · split
    · exact hd
    next r _ _ =>
      have hr := postRecord_wf d (slotOf d n).ctx (recordBytes n (slotOf d n) r) hd
      split
      · exact hd
      next e he =>
        rw [he] at hr
        exact hr
      next e he =>
        rw [he] at hr
        replace hr : Memory.wf e.mem = true := hr
        split <;> simp [hr]

@[simp] theorem writeFq_kept (c : Nat) (f : CtxBlk → CtxBlk) (d : Device) : (writeFq c f d).mem = d.mem := by
  simp [writeFq]

/-! ## PREEMPT and the system cutting (R351, R352) -/

@[simp] theorem preemptSlot_kept (n : Nat) (s : State) :
    (preemptSlot n s).cur = s.cur ∧ (preemptSlot n s).dev.mem = s.dev.mem := by
  simp [preemptSlot]

theorem writeUntil_wf (c : Nat) (l : List (Nat × List Byte)) (d : Device) (hd : Memory.wf d.mem = true) :
    Memory.wf (writeUntil c l d).1.mem = true := by
  induction l generalizing d with
  | nil => exact hd
  | cons x l ih =>
    unfold writeUntil
    split
    · exact hd
    next e he => exact ih e (ctxWrite_wf he hd)

/-- What a chain of steps that may fail goes through where it succeeds. -/
theorem bind_ok {ε α β : Type} {x : Except ε α} {f : α → Except ε β} {b : β} (h : (x >>= f) = .ok b) :
    ∃ a, x = .ok a ∧ f a = .ok b := by
  cases x with
  | error e => cases h
  | ok a => exact ⟨a, rfl, h⟩

theorem writeSystemCut_wf {v : Saved} {cscope launch j addr : Nat} {d e : Device} {b : Bool} (h : writeSystemCut v cscope launch j addr d = (e, b))
    (hd : Memory.wf d.mem = true) : Memory.wf e.mem = true := by
  unfold writeSystemCut at h
  extract_lets c sec inf off src hdr x at h
  have hx : Memory.wf x.1.mem = true := by
    simp only [x]
    exact writeUntil_wf _ _ _ hd
  clear_value x
  split at h
  · rw [h] at hx
    exact hx
  · split at h
    next f hf =>
      obtain ⟨bs, -, hf⟩ := bind_ok hf
      obtain ⟨g, hg, hf⟩ := bind_ok hf
      obtain ⟨rfl, -⟩ := Prod.mk.inj h
      exact ctxWrite_wf hf (ctxWrite_wf hg hx)
    · obtain ⟨rfl, -⟩ := Prod.mk.inj h
      exact hx

@[simp] theorem releaseSlot_kept (n : Nat) (d : Device) : (releaseSlot n d).mem = d.mem := by
  simp [releaseSlot]

@[simp] theorem abandonSave_wf (n id addr : Nat) (d : Device) :
    Memory.wf d.mem = true → Memory.wf (abandonSave n id addr d).mem = true := by
  simp +contextual [abandonSave]

@[simp] theorem saveInto_wf (n f id lslot : Nat) (v : Saved) (waits : List Nat) (d : Device) (hd : Memory.wf d.mem = true) :
    Memory.wf (saveInto n f id lslot v waits d).mem = true := by
  unfold saveInto
  dsimp only
  split
  next e he => exact abandonSave_wf _ _ _ _ (writeSystemCut_wf he hd)
  next e he =>
    rw [mapLaunch_kept]
    simpa using writeSystemCut_wf he hd

/-! ## Ungrafting (R294 to R296, R361) -/

@[simp] theorem rerunTask_wf (own t : Nat) (d : Device) :
    Memory.wf d.mem = true → Memory.wf (rerunTask own t d).mem = true := by
  unfold rerunTask
  (repeat' split) <;> simp +contextual

@[simp] theorem rerun_wf (id own : Nat) (prev : Option Nat) (d : Device) :
    Memory.wf d.mem = true → Memory.wf (rerun id own prev d).mem = true := by
  unfold rerun
  split <;> simp +contextual

@[simp] theorem rerunAll_wf (p : Option Nat) (l : List (Nat × Nat)) (d : Device)
    (hd : Memory.wf d.mem = true) :
    Memory.wf (rerunAll p l d).mem = true := by
  induction l generalizing p d with
  | nil => exact hd
  | cons x l ih => exact ih _ _ (by simp [hd])

@[simp] theorem dissolve_wf (n f c : Nat) (ch : Chain) (d : Device) (hd : Memory.wf d.mem = true) :
    Memory.wf (dissolve n f c ch d).mem = true := by
  unfold dissolve
  dsimp only
  split <;> simp [hd]

/-! ## PREEMPT_SAVE, SAVE_ABANDON (R351, R354) -/

theorem saveStep_safe (n want : Nat) (s : State) : Safe s (saveStep n want s) := by
  unfold saveStep
  dsimp only
  split
  · exact .refl s
  · split
    · split
      · exact ⟨within_cur _ _ _ s, within_wf _ _ _ s fun t ht => by simpa using ht⟩
      · exact .refl s
    · split
      · exact .refl s
      · split
        · exact .refl s
        · refine ⟨by simp, fun h => ?_⟩
          have hs : Memory.wf (park (within n 1 unsuspend s)).mem = true := by simpa using h
          rw [onDevice_mem]
          split
          · split
            · exact dissolve_wf _ _ _ _ _ hs
            · exact hs
          · exact saveInto_wf _ _ _ _ _ _ _ hs

@[simp] theorem abandonStalled_wf (n f : Nat) (d : Device) (hd : Memory.wf d.mem = true) :
    Memory.wf (abandonStalled n f d).mem = true := by
  unfold abandonStalled
  dsimp only
  split
  · exact hd
  · split
    · refine abandonSave_wf _ _ _ _ ?_
      split <;> simp [hd]
    · split
      · split <;> simp [hd]
      · exact hd

/-! ## WATCHDOG_EXPIRE (R336) -/

@[simp] theorem expireWatch_kept (n : Nat) (s : State) :
    (expireWatch n s).cur = s.cur ∧ (expireWatch n s).dev.mem = s.dev.mem := by
  simp [expireWatch]

/-! ## SYSTEM_CUTTING_RESUME (R353) -/

@[simp] theorem requeue_kept (xs : List (Nat × Entry)) (s : State) :
    (requeue xs s).cur = s.cur ∧ (requeue xs s).dev.mem = s.dev.mem := by
  simp [requeue]

@[simp] theorem pendingTrap_kept (r : Option FaultRec) (s : State) :
    (pendingTrap r s).cur = s.cur ∧ (pendingTrap r s).dev.mem = s.dev.mem := by
  unfold pendingTrap
  split <;> simp

theorem placeSystemCut_wf {key n : Nat} {c : SysCut} {l : Launch} {d e : Device} (h : placeSystemCut key n c l d = .ok e) (hd : Memory.wf d.mem = true) :
    Memory.wf e.mem = true := by
  unfold placeSystemCut at h
  obtain ⟨b, -, h⟩ := bind_ok h
  obtain ⟨m, -, h⟩ := bind_ok h
  obtain ⟨inf, -, h⟩ := bind_ok h
  obtain ⟨f, hf, h⟩ := bind_ok h
  have hm := ctxWrite_wf hf hd
  obtain rfl := Except.ok.inj h
  rw [freeFrame_kept, mapLaunch_kept, inSlot_mem, (pendingTrap_kept _ _).2, (requeue_kept _ _).2]
  exact refillAll_wf _ (by simp [hm])

@[simp] theorem resumeCut_wf (key n : Nat) (d : Device) (hd : Memory.wf d.mem = true) :
    Memory.wf (resumeCut key n d).mem = true := by
  unfold resumeCut
  split
  · exact hd
  · split
    · split
      · split
        next e he => exact placeSystemCut_wf he hd
        · exact hd
      · exact hd
    · exact hd

/-! ## Debug (R333 to R335) -/

@[simp] theorem writeDbgctl_kept (n r : Nat) (w : Word) (s : State) :
    (writeDbgctl n r w s).cur = s.cur ∧ (writeDbgctl n r w s).dev.mem = s.dev.mem := by
  unfold writeDbgctl
  dsimp only
  split
  · simp
  · exact ⟨within_cur _ _ _ s, within_mem _ _ _ s fun t => rfl⟩

@[simp] theorem setX_kept (n : Nat) (v : Word) (s : State) :
    (setX n v s).cur = s.cur ∧ (setX n v s).dev.mem = s.dev.mem := by simp [setX]

@[simp] theorem dbgWrite_kept (v : Word) (s : State) :
    (dbgWrite v s).cur = s.cur ∧ (dbgWrite v s).dev.mem = s.dev.mem := by
  unfold dbgWrite
  dsimp only
  split <;> simp

@[simp] theorem readDbgdata_kept (n r : Nat) (s : State) :
    (readDbgdata n r s).cur = s.cur ∧ (readDbgdata n r s).dev.mem = s.dev.mem := by
  simp [readDbgdata]

@[simp] theorem writeDbgdata_kept (n r : Nat) (v : Word) (s : State) :
    (writeDbgdata n r v s).cur = s.cur ∧ (writeDbgdata n r v s).dev.mem = s.dev.mem := by simp [writeDbgdata]

/-! ## Invalidation (R249) -/

@[simp] theorem startTlbi_kept (kind : Nat) (d : Device) : (startTlbi kind d).mem = d.mem := by
  simp [startTlbi]

@[simp] theorem ackTlbi_kept (d : Device) : (ackTlbi d).mem = d.mem := by simp [ackTlbi]

/-! ## Areas of the window (R391) -/

@[simp] theorem writeQueue_kept (q r : Nat) (v : Word) (d : Device) : (writeQueue q r v d).mem = d.mem := by
  unfold writeQueue
  split <;> simp

@[simp] theorem writeTlbi_kept (r : Nat) (v : Word) (d : Device) : (writeTlbi r v d).mem = d.mem := by
  unfold writeTlbi
  split <;> simp

@[simp] theorem writeGraft_kept (r : Nat) (v : Word) (d : Device) : (writeGraft r v d).mem = d.mem := by
  simp [writeGraft]

@[simp] theorem writeSwdog_kept (n : Nat) (v : Word) (d : Device) : (writeSwdog n v d).mem = d.mem := by
  simp [writeSwdog]

@[simp] theorem writeSctl_safe (n : Nat) (v : Word) (s : State) :
    (writeSctl n v s).cur = s.cur ∧ (Memory.wf s.dev.mem = true → Memory.wf (writeSctl n v s).dev.mem = true) := by
  unfold writeSctl
  split <;> simp +contextual

@[simp] theorem writePriv_kept (off : Nat) (v : Word) (d : Device) : (writePriv off v d).mem = d.mem := by
  unfold writePriv
  (repeat' split) <;> simp

@[simp] theorem writeDebug_kept (k r : Nat) (v : Word) (s : State) :
    (writeDebug k r v s).cur = s.cur ∧ (writeDebug k r v s).dev.mem = s.dev.mem := by
  unfold writeDebug
  split <;> simp

theorem Safe.ite {s t u : State} {c : Prop} [Decidable c] (ht : Safe s t) (hu : Safe s u) :
    Safe s (if c then t else u) := by
  split <;> assumption

theorem safe_onDevice {f : Device → Device} (h : ∀ d, Memory.wf d.mem = true → Memory.wf (f d).mem = true)
    (s : State) :
    Safe s (onDevice f s) :=
  ⟨rfl, h (park s)⟩

theorem safe_onDevice_kept {f : Device → Device} (h : ∀ d, (f d).mem = d.mem) (s : State) :
    Safe s (onDevice f s) :=
  safe_onDevice (fun d hd => by rw [h]; exact hd) s

theorem Safe.of_eq {s t : State} (hc : t.cur = s.cur) (hm : t.dev.mem = s.dev.mem) : Safe s t :=
  ⟨hc, fun h => by rw [hm]; exact h⟩

section

variable (s : State)

theorem safe_boot (b : Boot) : Safe s { s with dev.boot := b } := .of_eq rfl rfl

theorem safe_acnt (m : SMap Word) : Safe s { s with dev.acnt := m } := .of_eq rfl rfl

theorem safe_mwatch (m : SMap MemWatch) : Safe s { s with dev.mwatch := m } := .of_eq rfl rfl

theorem safe_ras (m : SMap Word) : Safe s { s with dev.ras := m } := .of_eq rfl rfl

theorem safe_retire (m : SMap Retire) : Safe s { s with dev.retire := m } := .of_eq rfl rfl

theorem safe_fab (f : Fabric) : Safe s { s with dev.fab := f } := .of_eq rfl rfl

end

theorem safe_writeReg (off : Nat) (v : Word) (s : State) : Safe s (writeReg off v s) := by
  have hctx : ∀ (c : Nat) (f : CtxBlk → CtxBlk), Safe s (onDevice (fun d => setCtx d c (f (ctxOf d c))) s) :=
    fun c f => safe_onDevice_kept (fun d => rfl) s
  unfold writeReg
  dsimp only
  refine .ite (safe_boot _ _) <| .ite (safe_onDevice_kept (fun d => ?_) s) <| .ite (safe_acnt _ _) <| .ite (.refl s) <| .ite (hctx _ _) <|
    .ite (hctx _ _) <| .ite (safe_onDevice_kept (fun d => ?_) s) <| .ite (hctx _ _) <| .ite (safe_onDevice_kept (fun d => ?_) s) <|
    .ite (safe_onDevice_kept (fun d => ?_) s) <| .ite (.ite ?_ (safe_onDevice_kept (fun d => ?_) s)) <| .ite (safe_onDevice_kept (fun d => ?_) s) <|
    .ite ?_ <| .ite (safe_mwatch _ _) <| .ite (.ite (safe_ras _ _) (.refl s)) <| .ite (safe_retire _ _) <| .ite (safe_fab _ _) (.refl s)
  · exact writeQueue_kept ..
  · exact writeFq_kept ..
  · exact writeTlbi_kept ..
  · exact writeGraft_kept ..
  · exact writeSctl_safe ..
  · exact writeSwdog_kept ..
  · exact writePriv_kept ..
  · exact .of_eq (writeDebug_kept ..).1 (writeDebug_kept ..).2

@[simp] theorem writeReg_cur (off : Nat) (v : Word) (s : State) : (writeReg off v s).cur = s.cur :=
  (safe_writeReg off v s).1

@[simp] theorem writeReg_wf (off : Nat) (v : Word) (s : State) (hs : Memory.wf s.dev.mem = true) :
    Memory.wf (writeReg off v s).dev.mem = true :=
  (safe_writeReg off v s).2 hs

/-! ## Reads -/

@[simp] theorem hostRead_kept (off : Nat) (s : State) :
    (hostRead off s).cur = s.cur ∧ (hostRead off s).dev.mem = s.dev.mem := by simp [hostRead]

@[simp] theorem hostAccess_safe (read : Bool) (off len : Nat) (v : Word) (s : State) :
    (hostAccess read off len v s).cur = s.cur ∧ (Memory.wf s.dev.mem = true → Memory.wf (hostAccess read off len v s).dev.mem = true) := by
  unfold hostAccess
  (repeat' split) <;> simp +contextual

@[simp] theorem serviced_kept (vs : List Nat) (s : State) :
    (serviced vs s).cur = s.cur ∧ (serviced vs s).dev.mem = s.dev.mem := by simp [serviced]

/-! ## CXL.mem and CXL.cache (R246, R332, R390) -/

@[simp] theorem hostWrite_wf (l : Nat) (bs : List Byte) (d : Device) :
    Memory.wf d.mem = true → Memory.wf (hostWrite l bs d).mem = true := by
  simp +contextual [hostWrite]

@[simp] theorem fabricInterrupt_kept (d : Device) : (fabricInterrupt d).mem = d.mem := by
  simp [fabricInterrupt]

/-! ## Stores on their way (R250, R262, R263, R378, R382) -/

@[simp] theorem sendStore_kept (i dn : Nat) (p : PStore) (s : State) :
    (sendStore i dn p s).cur = s.cur ∧ (sendStore i dn p s).dev.mem = s.dev.mem := by
  simp [sendStore]

@[simp] theorem loseStore_kept (i dn : Nat) (p : PStore) (s : State) :
    (loseStore i dn p s).cur = s.cur ∧ (loseStore i dn p s).dev.mem = s.dev.mem := by
  simp [loseStore]

@[simp] theorem performStore_safe (i : Nat) (s : State) :
    (performStore i s).cur = s.cur ∧ (Memory.wf s.dev.mem = true → Memory.wf (performStore i s).dev.mem = true) := by
  unfold performStore
  (repeat' split) <;> simp +contextual

@[simp] theorem ackStore_safe (dn q : Nat) (s : State) :
    (ackStore dn q s).cur = s.cur ∧ (Memory.wf s.dev.mem = true → Memory.wf (ackStore dn q s).dev.mem = true) := by
  unfold ackStore
  dsimp only
  (repeat' split) <;> simp +contextual

/-! ## Retries and suspects (R379, R380, R385) -/

@[simp] theorem killDevice_kept (dn : Nat) (d : Device) : (killDevice dn d).mem = d.mem := by
  simp [killDevice]

@[simp] theorem holdOn_kept (pod : Nat) (planes : List Nat) (d : Device) :
    (holdOn pod planes d).mem = d.mem := by simp [holdOn]

@[simp] theorem declarePlane_kept (pod p : Nat) (d : Device) : (declarePlane pod p d).mem = d.mem := by
  unfold declarePlane
  dsimp only
  (repeat' split) <;> simp

@[simp] theorem probeResult_kept (own : Bool) (p dn : Nat) (good answers : Bool) (d : Device) :
    (probeResult own p dn good answers d).mem = d.mem := by
  simp [probeResult]

/-! ## A home and the requests of other devices (R380) -/

@[simp] theorem refuseAtomic_kept (a : EvArg) (code : Nat) (w : Window) (d : Device) :
    (refuseAtomic a code w d).mem = d.mem := by simp [refuseAtomic]

@[simp] theorem applyRequest_wf (a : EvArg) (d : Device) :
    Memory.wf d.mem = true → Memory.wf (applyRequest a d).mem = true := by
  unfold applyRequest
  dsimp only
  (repeat' split) <;> simp +contextual

@[simp] theorem repeatRequest_kept (a : EvArg) (d : Device) : (repeatRequest a d).mem = d.mem := by
  unfold repeatRequest
  (repeat' split) <;> simp

/-- What becomes of a request: it is answered again, turned away, or applied. -/
theorem receiveRequest_cases (P : Device → Prop) (a : EvArg) (d : Device) (hrep : P (repeatRequest a d)) (hbusy : P (reply [0xFF] d))
    (happ : P (applyRequest a d)) : P (receiveRequest a d) := by
  unfold receiveRequest
  dsimp only
  split
  · exact hrep
  · split
    · exact hbusy
    · exact happ

@[simp] theorem receiveRequest_wf (a : EvArg) (d : Device) (hd : Memory.wf d.mem = true) :
    Memory.wf (receiveRequest a d).mem = true :=
  receiveRequest_cases (fun e => Memory.wf e.mem = true) a d (by simp [hd]) (by simp [hd]) (applyRequest_wf a d hd)

@[simp] theorem applySegment_wf (src : Nat) (g : Segment) (d : Device) (hd : Memory.wf d.mem = true) :
    Memory.wf (applySegment src g d).mem = true := by
  have hf : Memory.wf (g.elems.foldl (fun d x => performHome (otherDevice src) 0 (wholeBytes (upFrom x.1 x.2.length) x.2) d) d).mem = true :=
    foldl_device_wf _ (fun e x he => by simp [he]) _ d hd
  unfold applySegment
  dsimp only
  split <;> simp [hf]

@[simp] theorem applyEarly_wf (src train n : Nat) (d : Device) (hd : Memory.wf d.mem = true) :
    Memory.wf (applyEarly src train n d).mem = true := by
  induction n generalizing d with
  | zero => exact hd
  | succ n ih =>
    unfold applyEarly
    dsimp only
    split
    · exact hd
    · exact ih _ (by simp [hd])

@[simp] theorem receiveSegment_wf (src : Nat) (g : Segment) (d : Device) (hd : Memory.wf d.mem = true) :
    Memory.wf (receiveSegment src g d).mem = true := by
  unfold receiveSegment
  dsimp only
  split_ifs <;> simp [hd]

/-! ## Ports (R375, R384, R385) -/

@[simp] theorem portDown_kept (k : Nat) (d : Device) : (portDown k d).mem = d.mem := by simp [portDown]

@[simp] theorem receiveFlit_kept (k : Nat) (good : Bool) (d : Device) : (receiveFlit k good d).mem = d.mem := by
  simp [receiveFlit]

/-! ## The rehash (R386 to R388) -/

@[simp] theorem quiescePod_kept (pod gen : Nat) (planes : List Nat) (d : Device) :
    (quiescePod pod gen planes d).mem = d.mem := by
  unfold quiescePod
  (repeat' split) <;> simp

@[simp] theorem mapRehash_kept (pod : Nat) (g : Rehash → Rehash) (d : Device) :
    (mapRehash pod g d).mem = d.mem := by
  unfold mapRehash
  split <;> simp

@[simp] theorem drainAgent_kept (pod dn : Nat) (d : Device) : (drainAgent pod dn d).mem = d.mem := by
  simp [drainAgent]

@[simp] theorem replan_kept (pod : Nat) (d : Device) : (replan pod d).mem = d.mem := by simp [replan]

@[simp] theorem installMap_kept (pod gen : Nat) (d : Device) : (installMap pod gen d).mem = d.mem := by
  unfold installMap
  dsimp only
  (repeat' split) <;> simp

@[simp] theorem releasePod_kept (pod gen : Nat) (d : Device) : (releasePod pod gen d).mem = d.mem := by
  unfold releasePod
  dsimp only
  (repeat' split) <;> simp

/-! ## The ends of waits (R256, R327, R377) -/

@[simp] theorem pollAgain_kept (s : State) :
    (pollAgain s).cur = s.cur ∧ (pollAgain s).dev.mem = s.dev.mem := by
  unfold pollAgain
  (repeat' split) <;> simp

/-! ## The vector unit (R132, R356 to R359) -/

@[simp] theorem replayOnce_kept (again : Bool) (elem : Nat) (s : State) :
    (replayOnce again elem s).cur = s.cur ∧ (replayOnce again elem s).dev.mem = s.dev.mem := by
  unfold replayOnce
  dsimp only
  (repeat' split) <;> simp

/-! ## Soft errors (R359 to R364) -/

@[simp] theorem spoilBytes_wf (key n : Nat) (d : Device) :
    Memory.wf d.mem = true → Memory.wf (spoilBytes key n d).mem = true := by
  simp +contextual [spoilBytes]

@[simp] theorem poisonAtKey_wf (key : Nat) (d : Device) :
    Memory.wf d.mem = true → Memory.wf (poisonAtKey key d).mem = true := by
  simp +contextual [poisonAtKey]

@[simp] theorem damageUnit_kept (cls num unit : Nat) (s : State) :
    (damageUnit cls num unit s).cur = s.cur ∧ (damageUnit cls num unit s).dev.mem = s.dev.mem := by simp [damageUnit]

@[simp] theorem countSram_kept (core n : Nat) (d : Device) : (countSram core n d).mem = d.mem := by
  simp [countSram]

@[simp] theorem damageBinding_kept (num place : Nat) (s : State) :
    (damageBinding num place s).cur = s.cur ∧ (damageBinding num place s).dev.mem = s.dev.mem := by
  unfold damageBinding
  (repeat' split) <;> simp

@[simp] theorem softInSlot_safe (place num unit : Nat) (s : State) :
    (softInSlot place num unit s).cur = s.cur ∧ (Memory.wf s.dev.mem = true → Memory.wf (softInSlot place num unit s).dev.mem = true) := by
  unfold softInSlot
  (repeat' split) <;> simp +contextual

@[simp] theorem softInMemory_wf (place core ctrl key : Nat) (d : Device) :
    Memory.wf d.mem = true → Memory.wf (softInMemory place core ctrl key d).mem = true := by
  unfold softInMemory
  split <;> simp +contextual

@[simp] theorem scrubSlot_kept (s : State) :
    (scrubSlot s).cur = s.cur ∧ (scrubSlot s).dev.mem = s.dev.mem := by
  unfold scrubSlot
  dsimp only
  (repeat' split) <;> simp

/-! ## Page retirement (R366, R367) -/

@[simp] theorem rasInterrupt_kept (d : Device) : (rasInterrupt d).mem = d.mem := by simp [rasInterrupt]

@[simp] theorem startRetire_kept (c : Nat) (d : Device) : (startRetire c d).mem = d.mem := by
  unfold startRetire
  dsimp only
  (repeat' split) <;> simp

theorem copyBytes_wf (a b : Nat) (l : List Nat) (d : Device) (hd : Memory.wf d.mem = true) :
    Memory.wf (l.foldl (fun (d : Device) i =>
    { d with mem := SMap.set Config.unlistedByte d.mem (b + i) (SMap.get Config.unlistedByte d.mem (a + i)) }) d).mem = true :=
  foldl_device_wf _ (fun _ _ he => SMap.wf_set _ _ _ _ he) l d hd

@[simp] theorem copyLine_wf (r : Retire) (ln : Nat) (d : Device) (hd : Memory.wf d.mem = true) :
    Memory.wf (copyLine r ln d).mem = true := by
  unfold copyLine
  dsimp only
  generalize upFrom 0 128 = l
  exact copyBytes_wf _ _ l d hd

@[simp] theorem endCopyPass_wf (c : Nat) (again : List Nat) (d : Device) (hd : Memory.wf d.mem = true) :
    Memory.wf (endCopyPass c again d).mem = true := by
  unfold endCopyPass
  dsimp only
  split
  · exact hd
  · exact foldl_device_wf _ (fun e ln he => copyLine_wf _ _ e he) _ d hd

@[simp] theorem finishRetire_wf (c : Nat) (d : Device) (hd : Memory.wf d.mem = true) :
    Memory.wf (finishRetire c d).mem = true := by
  unfold finishRetire
  dsimp only
  split
  · exact hd
  · exact foldl_device_wf _ (fun e ln he => copyLine_wf _ _ e he) _ d hd

/-! ## Starts (R374, R396 to R398) -/

/-- A listed value put into a sparse table leaves its canonical form. -/
theorem SMap.wf_put {α : Type} [DecidableEq α] (d : α) (m : SMap α) (k : Nat) (v : α) (hv : v ≠ d)
    (h : SMap.wf d m = true) :
    SMap.wf d (SMap.put m k v) = true := by
  have := SMap.wf_set d m k v h
  rwa [SMap.set, if_neg hv] at this

theorem rehome_wf (old new : Nat) (m : List Host.Cell) (h : Memory.wf m = true) :
    Memory.wf (rehome old new m) = true := by
  have hf : ∀ (l r : List Host.Cell), (∀ c ∈ l, c.2 ≠ Config.unlistedByte) → Memory.wf r = true → Memory.wf (l.foldl (fun m c =>
      SMap.put m (if paDev c.1 = old && 2 ^ 47 ≤ c.1 % 2 ^ 48 then new * 2 ^ 48 + c.1 % 2 ^ 48 else c.1) c.2) r) = true := by
    intro l
    induction l with
    | nil => exact fun r _ hr => hr
    | cons c l ih =>
      intro r hl hr
      exact ih _ (fun x hx => hl x (List.mem_cons_of_mem _ hx)) (SMap.wf_put _ _ _ _ (hl c List.mem_cons_self) hr)
  unfold rehome
  split
  · exact h
  · exact hf m [] ((SMap.wf_iff _ m).mp h).2 rfl

@[simp] theorem resetDevice_wf (warm : Bool) (d : Device) (hd : Memory.wf d.mem = true) :
    Memory.wf (resetDevice warm d).mem = true :=
  rehome_wf _ _ _ (SMap.wf_filter _ _ _ hd)

@[simp] theorem resetState_wf (warm : Bool) (s : State) (hs : Memory.wf s.dev.mem = true) :
    Memory.wf (resetState warm s).dev.mem = true :=
  resetDevice_wf _ _ hs

@[simp] theorem failStart_wf (warm : Bool) (s : State) (hs : Memory.wf s.dev.mem = true) :
    Memory.wf (failStart warm s).dev.mem = true :=
  resetState_wf warm s hs

@[simp] theorem configure_wf (ids : List Nat) (b : Boot) (d : Device) (hd : Memory.wf d.mem = true) :
    Memory.wf (configure ids b d).mem = true :=
  rehome_wf _ _ _ hd

/-- A start leaves role 1 of slot 0 in focus. -/
theorem startDevice_cur (a : EvArg) (s : State) : (startDevice a s).cur = (0, 1) := by
  unfold startDevice
  dsimp only
  split <;> rfl

theorem startDevice_wf (a : EvArg) (s : State) (hs : Memory.wf s.dev.mem = true) :
    Memory.wf (startDevice a s).dev.mem = true := by
  unfold startDevice
  dsimp only
  split
  · exact failStart_wf _ _ hs
  · exact configure_wf a.nats _ _ (resetState_wf _ _ hs)

/-! ## Clocks and power (R401) -/

@[simp] theorem setClock_kept (i mhz : Nat) (d : Device) : (setClock i mhz d).mem = d.mem := by
  simp [setClock]

@[simp] theorem endEverything_wf (d : Device) (hd : Memory.wf d.mem = true) :
    Memory.wf (endEverything d).mem = true := by
  refine foldl_device_wf _ (fun e p he => ?_) _ _ hd
  split <;> simp [he]

/-! ## The management responder (R399, R400) -/

@[simp] theorem negotiate_kept (need next : Nat) (bs : Device → List Byte) (s : State) :
    (negotiate need next bs s).cur = s.cur ∧ (negotiate need next bs s).dev.mem = s.dev.mem := by simp [negotiate]

@[simp] theorem request_kept (bs : Device → List Byte) (s : State) :
    (request bs s).cur = s.cur ∧ (request bs s).dev.mem = s.dev.mem := by
  simp [request]

end Sys2Proof.Machine

end

section

/-! PROOFS. Every step keeps the invariant (O6): what each instruction and each step of another agent answers, and the turns. -/

namespace Sys2Proof.Machine

/-- What an instruction or a step of another agent answers follows safely, or starts the device afresh. -/
structure ExecSafe (s : State) (o : Host.Outcome State Fault Refusal) : Prop where
  next : ∀ t, o = .next t → (t.cur = s.cur ∨ t.cur = (0, 1)) ∧ (Memory.wf s.dev.mem = true → Memory.wf t.dev.mem = true)

theorem ExecSafe.safe {s t : State} (h : Safe s t) : ExecSafe s (.next t) := by
  refine ⟨fun u hu => ?_⟩
  cases hu
  exact ⟨.inl h.1, h.2⟩

theorem ExecSafe.kept {s t : State} (h : t.cur = s.cur ∧ t.dev.mem = s.dev.mem) : ExecSafe s (.next t) :=
  .safe (.of_eq h.1 h.2)

theorem safe_within (n r : Nat) {f : State → State} (h : ∀ t, Safe t (f t)) (s : State) :
    Safe s (within n r f s) :=
  ⟨within_cur n r f s, within_wf n r f s fun t => (h t).2⟩

theorem elKept_mxBlock (s : State) (dst gd blk km : Nat) (a d : BitVec 5) (j : Nat) (t : State) :
    ElKept t (mxBlock s dst gd blk km a d j t) := by
  unfold mxBlock
  exact elKept_floatEl _ _ t fun u => by simp

theorem safe_inOrder {s t : State} (h : Safe s t) : Safe s (inOrder s t) :=
  inOrder_cases (Safe s) s t (.of_eq rfl rfl) h

/-! ## Fences and polling (R254 to R257) -/

theorem execFence_answers (m : BitVec 8) (sc : BitVec 4) (n : BitVec 8) (s : State) :
    ExecSafe s (execFence m sc n s) := by
  unfold execFence
  refine .kept (run_kept _ _ _ fun t => ?_)
  (repeat' split) <;> simp

theorem execFenceAcq_answers (m : BitVec 8) (sc : BitVec 4) (n : BitVec 8) (s : State) :
    ExecSafe s (execFenceAcq m sc n s) := by
  unfold execFenceAcq
  refine .kept (run_kept _ _ _ fun t => ?_)
  (repeat' split) <;> simp

theorem execFenceRel_answers (m : BitVec 8) (sc : BitVec 4) (n : BitVec 8) (s : State) :
    ExecSafe s (execFenceRel m sc n s) := by
  unfold execFenceRel
  refine .kept (run_kept _ _ _ fun t => ?_)
  simp

/-! ## Permutes, major 0x35 (R120, R121) -/

theorem execVsel_answers (d a b : BitVec 5) (k : BitVec 3) (h : BitVec 2) (s : State) :
    ExecSafe s (execVsel d a b k h s) := by
  unfold execVsel
  refine .kept (run_kept _ _ _ fun t => stripWord_kept _ _ (fun i u => ?_) t)
  (repeat' split) <;> simp

theorem execVindex_answers (d : BitVec 5) (k : BitVec 3) (h : BitVec 2) (s : State) :
    ExecSafe s (execVindex d k h s) := by
  unfold execVindex
  refine .kept (run_kept _ _ _ fun t => stripWord_kept _ _ (fun i u => ?_) t)
  (repeat' split) <;> simp

theorem execVperm_answers (d a b : BitVec 5) (k : BitVec 3) (h : BitVec 2) (s : State) :
    ExecSafe s (execVperm d a b k h s) := by
  unfold execVperm
  refine .kept (run_kept _ _ _ fun t => stripWord_kept _ _ (fun i u => ?_) t)
  (repeat' split) <;> simp

theorem execVpack_answers (d a : BitVec 5) (k : BitVec 3) (h : BitVec 2) (s : State) :
    ExecSafe s (execVpack d a k h s) := by
  unfold execVpack
  refine .kept (run_kept _ _ _ fun t => ?_)
  simp

theorem execVuniq_answers (d : BitVec 3) (a : BitVec 5) (k : BitVec 3) (h : BitVec 2) (s : State) :
    ExecSafe s (execVuniq d a k h s) := by
  unfold execVuniq
  refine .kept (run_kept _ _ _ fun t => stripWord_kept _ _ (fun i u => ?_) t)
  simp

theorem execVget_answers (d a b : BitVec 5) (h : BitVec 2) (s : State) : ExecSafe s (execVget d a b h s) := by
  unfold execVget
  refine .kept (run_kept _ _ _ fun t => ?_)
  dsimp only
  (repeat' split) <;> simp

theorem execVput_answers (d a b : BitVec 5) (h : BitVec 2) (s : State) : ExecSafe s (execVput d a b h s) := by
  unfold execVput
  refine .kept (run_kept _ _ _ fun t => ?_)
  dsimp only
  (repeat' split) <;> simp

/-! ## Reductions, major 0x36 (R49, R122) -/

theorem execVcvt_answers (d a : BitVec 5) (k : BitVec 3) (h : BitVec 2) (f : BitVec 5) (s : State) :
    ExecSafe s (execVcvt d a k h f s) := by
  unfold execVcvt
  refine .kept (run_kept _ _ _ fun t => stripWord_kept _ _ (fun i u => ?_) t)
  (repeat' split) <;> simp

theorem execVcvtsr_answers (d a b : BitVec 5) (k : BitVec 3) (h : BitVec 2) (f : BitVec 3) (s : State) :
    ExecSafe s (execVcvtsr d a b k h f s) := by
  unfold execVcvtsr
  refine .kept (run_kept _ _ _ fun t => stripWord_kept _ _ (fun i u => ?_) t)
  (repeat' split) <;> simp

/-! ## MX blocks (R39, R127) -/

theorem execVcvtmx_answers (d a : BitVec 5) (sf : BitVec 1) (k : BitVec 3) (h : BitVec 2) (f : BitVec 3) (s : State) :
    ExecSafe s (execVcvtmx d a sf k h f s) := by
  refine .kept (run_kept _ _ _ fun t => ?_)
  split
  · simp
  · have hs := sweep_kept (mxBlock t (mxFormat f.toNat) (convFactor (grpN s) (fmtEw (mxFormat f.toNat)) (ewN s)) (if sf = 1 then 16 else 32) k.toNat a d)
      (elKept_mxBlock _ _ _ _ _ _ _) (ceilDiv (vlN t) (if sf = 1 then 16 else 32) - vsN t / (if sf = 1 then 16 else 32))
      (vsN t / (if sf = 1 then 16 else 32)) (chargeWord (ewN t) t)
    rw [(chargeWord_kept _ t).1, (chargeWord_kept _ t).2] at hs
    obtain ⟨hc, hm⟩ := hs
    dsimp only
    split
    next j c v v2 n u hu =>
      rw [hu] at hc hm
      exact ⟨(finishSweep_kept t _ hc.symm hm.symm).1.trans hc, (finishSweep_kept t _ hc.symm hm.symm).2.trans hm⟩
    · exact ⟨(finishSweep_kept t _ hc.symm hm.symm).1.trans hc, (finishSweep_kept t _ hc.symm hm.symm).2.trans hm⟩

/-! ## Immediate forms, majors 0x04 to 0x0C (R76 to R79) -/

theorem execPcadd_answers (d : BitVec 5) (i : BitVec 16) (s : State) : ExecSafe s (execPcadd d i s) := by
  unfold execPcadd
  refine .kept (run_kept _ _ _ fun t => ?_)
  simp

/-! ## Scalar floating point, major 0x03 (R82 to R86) -/

theorem execFmad_answers (d a b : BitVec 5) (f : BitVec 2) (s : State) : ExecSafe s (execFmad d a b f s) := by
  unfold execFmad
  refine .kept (run_kept _ _ _ fun t => ?_)
  simp

theorem execFsqrt_answers (d a : BitVec 5) (f : BitVec 2) (s : State) : ExecSafe s (execFsqrt d a f s) := by
  unfold execFsqrt
  refine .kept (run_kept _ _ _ fun t => ?_)
  simp

/-! ## Branches, jumps, calls and returns (R87 to R89) -/

theorem execJmp_answers (o : BitVec 26) (s : State) : ExecSafe s (execJmp o s) := by
  unfold execJmp
  refine .kept (run_kept _ _ _ fun t => ?_)
  simp

theorem execCall_answers (o : BitVec 26) (s : State) : ExecSafe s (execCall o s) := by
  unfold execCall
  refine .kept (run_kept _ _ _ fun t => ?_)
  simp

theorem execJr_answers (a : BitVec 5) (s : State) : ExecSafe s (execJr a s) := by
  unfold execJr
  refine .kept (run_kept _ _ _ fun t => ?_)
  simp

theorem execCallr_answers (a : BitVec 5) (s : State) : ExecSafe s (execCallr a s) := by
  unfold execCallr
  refine .kept (run_kept _ _ _ fun t => ?_)
  simp

theorem execRet_answers (s : State) : ExecSafe s (execRet s) := by
  unfold execRet
  refine .kept (run_kept _ _ _ fun t => ?_)
  simp

theorem execNop_answers (s : State) : ExecSafe s (execNop s) := by
  unfold execNop
  refine .kept (run_kept _ _ _ fun t => ?_)
  simp

theorem execMfs_answers (d : BitVec 5) (sel : BitVec 12) (s : State) : ExecSafe s (execMfs d sel s) := by
  unfold execMfs
  split
  · exact .safe (safe_inOrder (by simp [Safe]))
  · refine .kept (run_kept _ _ _ fun t => ?_)
    split <;> simp

theorem execMts_answers (a : BitVec 5) (sel : BitVec 12) (s : State) : ExecSafe s (execMts a sel s) := by
  unfold execMts
  dsimp only
  split
  · refine .kept (run_kept _ _ _ fun t => ?_)
    split <;> simp
  · exact .safe (safe_inOrder (by simp [Safe]))

theorem execSys_answers (c : BitVec 12) (s : State) : ExecSafe s (execSys c s) := by
  unfold execSys
  refine .kept (run_kept _ _ _ fun t => ?_)
  simp

theorem execBrk_answers (c : BitVec 12) (s : State) : ExecSafe s (execBrk c s) := by
  unfold execBrk
  refine .kept (run_kept _ _ _ fun t => ?_)
  simp

theorem execEret_answers (s : State) : ExecSafe s (execEret s) := by
  unfold execEret
  refine .kept (run_kept _ _ _ fun t => ?_)
  simp

theorem execYield_answers (s : State) : ExecSafe s (execYield s) := by
  unfold execYield
  refine .kept (run_kept _ _ _ fun t => ?_)
  simp

/-! ## Grants (R95 to R97) -/

theorem execSetvl_answers (d a : BitVec 5) (t : BitVec 12) (s : State) : ExecSafe s (execSetvl d a t s) := by
  unfold execSetvl
  refine .kept (run_kept _ _ _ fun t => ?_)
  simp

theorem execSetvlr_answers (d a b : BitVec 5) (s : State) : ExecSafe s (execSetvlr d a b s) := by
  unfold execSetvlr
  refine .kept (run_kept _ _ _ fun t => ?_)
  simp

/-! ## Codebooks and stream registers (R99, R108, R109) -/

theorem execCbld_answers (a : BitVec 5) (c : BitVec 4) (n : BitVec 2) (s : State) :
    ExecSafe s (execCbld a c n s) := by
  unfold execCbld
  refine .kept (run_kept _ _ _ fun t => ?_)
  (repeat' split) <;> simp

theorem execSdld_answers (sd : BitVec 3) (a : BitVec 5) (s : State) : ExecSafe s (execSdld sd a s) := by
  unfold execSdld
  refine .kept (run_kept _ _ _ fun t => ?_)
  (repeat' split) <;> simp

/-! ## The strip-mine branch (R100) -/

theorem execSbr_answers (n : BitVec 5) (m : BitVec 4) (sc : BitVec 8) (o : BitVec 9) (s : State) :
    ExecSafe s (execSbr n m sc o s) := by
  unfold execSbr
  refine .kept (run_kept _ _ _ fun t => ?_)
  dsimp only
  (repeat' split) <;> simp

/-! ## Zero-overhead loops (R111) -/

theorem execVloop_answers (sa : BitVec 3) (l : BitVec 4) (s : State) : ExecSafe s (execVloop sa l s) := by
  unfold execVloop
  refine .kept (run_kept _ _ _ fun t => ?_)
  dsimp only
  (repeat' split) <;> simp

/-! ## Divergence (R128 to R131) -/

theorem execVbr_answers (a : BitVec 3) (o : BitVec 16) (s : State) : ExecSafe s (execVbr a o s) := by
  refine .kept (run_kept _ _ _ fun t => ?_)
  dsimp only
  split
  · simp
  next u hu =>
    obtain ⟨hc, hm⟩ := pushFrag_kept hu
    split <;> simp [hc, hm]

theorem execVjoin_answers (o : BitVec 16) (s : State) : ExecSafe s (execVjoin o s) := by
  unfold execVjoin
  refine .kept (run_kept _ _ _ fun t => ?_)
  (repeat' split) <;> simp

theorem execVbany_answers (a : BitVec 3) (o : BitVec 16) (s : State) : ExecSafe s (execVbany a o s) := by
  unfold execVbany
  refine .kept (run_kept _ _ _ fun t => ?_)
  (repeat' split) <;> simp

theorem execVball_answers (a : BitVec 3) (o : BitVec 16) (s : State) : ExecSafe s (execVball a o s) := by
  unfold execVball
  refine .kept (run_kept _ _ _ fun t => ?_)
  (repeat' split) <;> simp

/-! ## Words -/

theorem execVld_answers (d a b : BitVec 5) (k : BitVec 3) (c : BitVec 4) (s : State) :
    ExecSafe s (execVld d a b k c s) := by
  unfold execVld
  refine .kept (run_kept _ _ _ fun t => loadStrip_kept _ _ (fun i u => ?_) t)
  (repeat' split) <;> simp

theorem execVlds_answers (d a b : BitVec 5) (k : BitVec 3) (c : BitVec 4) (s : State) :
    ExecSafe s (execVlds d a b k c s) := by
  unfold execVlds
  refine .kept (run_kept _ _ _ fun t => loadStrip_kept _ _ (fun i u => ?_) t)
  simp

theorem execVldx_answers (d a b : BitVec 5) (k : BitVec 3) (c : BitVec 4) (s : State) :
    ExecSafe s (execVldx d a b k c s) := by
  unfold execVldx
  refine .kept (run_kept _ _ _ fun t => loadStrip_kept _ _ (fun i u => ?_) t)
  simp

theorem execVst_answers (d a b : BitVec 5) (k : BitVec 3) (c : BitVec 4) (s : State) :
    ExecSafe s (execVst d a b k c s) := by
  unfold execVst
  refine .kept (run_kept _ _ _ fun t => storeStrip_kept _ _ (fun i u => ?_) t)
  (repeat' split) <;> simp

theorem execVsts_answers (d a b : BitVec 5) (k : BitVec 3) (c : BitVec 4) (s : State) :
    ExecSafe s (execVsts d a b k c s) := by
  unfold execVsts
  refine .kept (run_kept _ _ _ fun t => storeStrip_kept _ _ (fun i u => ?_) t)
  simp

theorem execVstx_answers (d a b : BitVec 5) (k : BitVec 3) (c : BitVec 4) (s : State) :
    ExecSafe s (execVstx d a b k c s) := by
  unfold execVstx
  refine .kept (run_kept _ _ _ fun t => storeStrip_kept _ _ (fun i u => ?_) t)
  simp

/-! ## Blocks (R106, R107, R363) -/

theorem execVldmx_answers (d a b : BitVec 5) (k : BitVec 3) (c : BitVec 4) (s : State) :
    ExecSafe s (execVldmx d a b k c s) :=
  .kept (run_kept _ _ _ fun t => loadStrip_kept _ _ (fun _ _ => elKept_loadClass _ _ _ _ _ _ (elKept_loadBlockEl ..)) t)

theorem execVstmx_answers (d a b : BitVec 5) (k : BitVec 3) (c : BitVec 4) (s : State) :
    ExecSafe s (execVstmx d a b k c s) :=
  .kept (run_kept _ _ _ fun t => storeStrip_kept _ _ (fun _ _ => elKept_storeClass _ _ _ _ (elKept_storeBlockEl ..)) t)

/-! ## Streams (R110) -/

theorem execVsld_answers (d : BitVec 5) (sf : BitVec 3) (k : BitVec 3) (c : BitVec 4) (s : State) :
    ExecSafe s (execVsld d sf k c s) := by
  refine .kept (run_kept _ _ _ fun t => ?_)
  split
  · exact boundWord_kept _ _ _ (fun i u => elKept_takeEl ..) t
  · rw [(loadEnd_kept _).1, (loadEnd_kept _).2]
    refine finishStream_kept _ t _ ?_
    have hc := chargeWord_kept (ewN t) t
    refine ⟨(sweep_kept _ (fun i u => ?_) _ _ _).1.trans hc.1, (sweep_kept _ (fun i u => ?_) _ _ _).2.trans hc.2⟩ <;>
    · split
      · split
        · simp
        · split
          · simp
          · exact elKept_loadBlockEl ..
      · simp

theorem execVsst_answers (d : BitVec 5) (sf : BitVec 3) (k : BitVec 3) (c : BitVec 4) (s : State) :
    ExecSafe s (execVsst d sf k c s) := by
  refine .kept (run_kept _ _ _ fun t => ?_)
  rw [(storeEnd_kept _).1, (storeEnd_kept _).2]
  split
  · rw [(loadEnd_kept _).1, (loadEnd_kept _).2]
    exact boundWord_kept _ _ _ (fun i u => elKept_placeEl ..) (newSer t)
  · refine finishStream_kept _ t _ ?_
    have hc := chargeWord_kept (ewN t) (newSer t)
    refine ⟨(sweep_kept _ (fun i u => ?_) _ _ _).1.trans hc.1, (sweep_kept _ (fun i u => ?_) _ _ _).2.trans hc.2⟩ <;>
    · split
      · split
        · simp
        · exact elKept_storeBlockEl ..
      · simp

/-! ## Words -/

theorem execMold_answers (d : BitVec 3) (a : BitVec 5) (c : BitVec 4) (k : BitVec 3) (h : BitVec 2)
    (s : State) :
    ExecSafe s (execMold d a c k h s) := by
  refine .kept (run_kept _ _ _ fun t => loadStrip_kept _ _ (fun i u => ?_) t)
  split
  · split
    · exact elKept_moldEl ..
    · simp
  · simp

theorem execMost_answers (d : BitVec 3) (a : BitVec 5) (c : BitVec 4) (k : BitVec 3) (h : BitVec 2)
    (s : State) :
    ExecSafe s (execMost d a c k h s) := by
  unfold execMost
  refine .kept (run_kept _ _ _ fun t => storeStrip_kept _ _ (fun i u => ?_) t)
  (repeat' split) <;> simp

/-! ## Barrier words (R280 to R283) -/

theorem execBinit_answers (a b : BitVec 5) (s : State) : ExecSafe s (execBinit a b s) := by
  refine .safe (barWord_safe _ _ _ s fun off t => ?_)
  dsimp only
  split
  · simp
  · split <;> simp +contextual

theorem execBexpect_answers (a b : BitVec 5) (s : State) : ExecSafe s (execBexpect a b s) := by
  refine .safe (barWord_safe _ _ _ s fun off t => ?_)
  split <;> simp +contextual

theorem execBarrive_answers (a : BitVec 5) (s : State) : ExecSafe s (execBarrive a s) :=
  .safe (barWord_safe _ _ _ s fun off t => by simp +contextual)

theorem execBexparr_answers (a b : BitVec 5) (s : State) : ExecSafe s (execBexparr a b s) :=
  .safe (barWord_safe _ _ _ s fun off t => by simp +contextual)

theorem execBwait_answers (d a b : BitVec 5) (s : State) : ExecSafe s (execBwait d a b s) := by
  refine .safe (barWord_safe _ _ _ s fun off t => ?_)
  split <;> simp +contextual

theorem execBtest_answers (d a b : BitVec 5) (s : State) : ExecSafe s (execBtest d a b s) :=
  .safe (barWord_safe _ _ _ s fun off t => by simp +contextual)

/-! ## Engine queues (R257, R266) -/

theorem execFenceQ_answers (q : BitVec 5) (s : State) : ExecSafe s (execFenceQ q s) := by
  unfold execFenceQ
  refine .kept (run_kept _ _ _ fun t => ?_)
  simp

/-! ## Issue (R136 to R140, R142, R143) -/

theorem execMma_answers (z : BitVec 4) (a : BitVec 5) (w : BitVec 2) (k : BitVec 7) (s : State) :
    ExecSafe s (execMma z a w k s) := by
  unfold execMma
  refine .kept (mxWord_kept _ _ _ fun t => ?_)
  (repeat' split) <;> simp

theorem execMmamo_answers (z : BitVec 4) (a : BitVec 3) (w : BitVec 2) (k : BitVec 7) (s : State) :
    ExecSafe s (execMmamo z a w k s) := by
  unfold execMmamo
  refine .kept (mxWord_kept _ _ _ fun t => ?_)
  (repeat' split) <;> simp

theorem execZclr_answers (z : BitVec 4) (s : State) : ExecSafe s (execZclr z s) := by
  unfold execZclr
  refine .kept (mxWord_kept _ _ _ fun t => ?_)
  (repeat' split) <;> simp

theorem execZmv_answers (z : BitVec 4) (a : BitVec 5) (w : BitVec 2) (r : BitVec 3) (s : State) :
    ExecSafe s (execZmv z a w r s) := by
  refine .kept (run_kept _ _ _ fun t => ?_)
  dsimp only
  split
  · simp
  · split
    · simp
    · obtain ⟨hc, hm⟩ := meetTile_kept z.toNat 0 t
      refine ⟨(stripWord_kept _ _ (fun i u => ?_) _).1.trans hc, (stripWord_kept _ _ (fun i u => ?_) _).2.trans hm⟩ <;> split <;> simp

theorem execZmvt_answers (z : BitVec 4) (a : BitVec 5) (w : BitVec 2) (r : BitVec 3) (s : State) :
    ExecSafe s (execZmvt z a w r s) := by
  refine .kept (run_kept _ _ _ fun t => ?_)
  dsimp only
  split
  · simp
  · refine stripWord_kept _ _ (fun i u => ?_) t
    split <;> simp

theorem execWbld_answers (a : BitVec 5) (w : BitVec 2) (s : State) : ExecSafe s (execWbld a w s) := by
  unfold execWbld
  refine .kept (mxWord_kept _ _ _ fun t => ?_)
  dsimp only
  (repeat' split) <;> simp

theorem execMcommit_answers (a : BitVec 5) (s : State) : ExecSafe s (execMcommit a s) := by
  unfold execMcommit
  refine .kept (mxWord_kept _ _ _ fun t => ?_)
  (repeat' split) <;> simp

/-! ## Performing (R136 to R145) -/

theorem execMmaExecute_answers (s : State) : ExecSafe s (execMmaExecute s) :=
  .safe (engineStep_safe _ _ _ s fun e t => .some (safe_performMultiply ..))

theorem execMmamoExecute_answers (s : State) : ExecSafe s (execMmamoExecute s) :=
  .safe (engineStep_safe _ _ _ s fun e t => .some (safe_performMultiply ..))

theorem execZclrExecute_answers (s : State) : ExecSafe s (execZclrExecute s) :=
  .safe (engineStep_safe _ _ _ s fun e t => .some (by simp [Safe]))

theorem execZldExecute_answers (s : State) : ExecSafe s (execZldExecute s) := by
  refine .safe (engineStep_safe _ _ _ s fun e t => ?_)
  split
  · exact optSafe_engineStop ..
  · exact .some (by simp [Safe])
  next bs u hu => exact .some (((engSafe_engRead ..).safe _ _ hu).trans (by simp [Safe]))

theorem execZstExecute_answers (s : State) : ExecSafe s (execZstExecute s) := by
  refine .safe (engineStep_safe _ _ _ s fun e t => ?_)
  dsimp only
  split
  · exact .some (by simp [Safe])
  · split
    · exact optSafe_engineStop ..
    · exact .some (by simp [Safe])
    next u hu => exact .some (((engSafe_engWrite ..).safe _ _ hu).trans (by simp [Safe]))

theorem execWbFill_answers (s : State) : ExecSafe s (execWbFill s) := by
  refine .safe (engineStep_safe _ _ _ s fun e t => ?_)
  dsimp only
  split
  · exact optSafe_engineStop ..
  · exact .some (by simp [Safe])
  next bs u hu =>
    split
    · exact optSafe_engineStop ..
    · exact .some (by simp [Safe])
    next side v hv =>
      exact .some (((engSafe_engRead ..).safe _ _ hu).trans (((engSafe_engRead ..).safe _ _ hv).trans (by simp [Safe])))

theorem execMcommitArrival_answers (s : State) : ExecSafe s (execMcommitArrival s) :=
  .safe (engineStep_safe _ _ _ s fun e t => .some (by simp +contextual [Safe]))

/-! ## Copies (R270) -/

theorem execCpy_answers (a b : BitVec 5) (n : BitVec 1) (s : State) : ExecSafe s (execCpy a b n s) :=
  .kept (engineWord_kept _ _ _ _ _ _ _ _ _ s (plainTable_kept _ _))

theorem execCpyExecute_answers (s : State) : ExecSafe s (execCpyExecute s) :=
  .safe (engineStep_safe _ _ _ s fun e t => optSafe_copyRun ..)

/-! ## Gathers and scatters (R271 to R274) -/

theorem execRgath_answers (a b : BitVec 5) (n : BitVec 1) (s : State) : ExecSafe s (execRgath a b n s) :=
  .kept (engineWord_kept _ _ _ _ _ _ _ _ _ s (plainTable_kept _ _))

theorem execRscat_answers (a b : BitVec 5) (n : BitVec 1) (s : State) : ExecSafe s (execRscat a b n s) :=
  .kept (engineWord_kept _ _ _ _ _ _ _ _ _ s (plainTable_kept _ _))

theorem execRgathExecute_answers (s : State) : ExecSafe s (execRgathExecute s) :=
  .safe (engineStep_safe _ _ _ s fun e t => optSafe_gatherRun ..)

theorem execRscatExecute_answers (s : State) : ExecSafe s (execRscatExecute s) := by
  refine .safe (engineStep_safe _ _ _ s fun e t => ?_)
  split
  next o ho => exact scatterBegin_error ho
  next e' u hu => exact .trans (scatterBegin_ok hu) (optSafe_trainsRun ..)

/-! ## Collectives (R275 to R277) -/

theorem execColl_answers (a b : BitVec 5) (n : BitVec 1) (s : State) : ExecSafe s (execColl a b n s) := by
  refine .kept ?_
  rw [(countColl_kept _ _).1, (countColl_kept _ _).2]
  exact engineWord_kept _ _ _ _ _ _ _ _ _ s (collTable_kept _ _)

theorem execCollExecute_answers (s : State) : ExecSafe s (execCollExecute s) := by
  refine .safe (engineStep_safe _ _ _ s fun e t => ?_)
  split
  · exact optSafe_collGroup ..
  · exact optSafe_collDevices ..

/-! ## Time limit (R274) -/

theorem execRemoteTimeout_answers (s : State) : ExecSafe s (execRemoteTimeout s) := by
  refine .safe (safe_within _ _ (fun t => ?_) s)
  dsimp only
  split
  · exact .refl t
  next e _ =>
    split
    · exact .refl t
    · split
      · exact .refl t
      next dn _ =>
        have ha : Safe t (engAnswered e t) := by simp [Safe]
        split
        · exact safe_finishHead (ha.trans (safe_collPartial ..)) ..
        · exact safe_finishHead ha ..
        · exact safe_finishHead (ha.trans (trainPartial_safe ..)) ..

/-! ## Command blocks (R305, R306) -/

theorem execPfxh_answers (a b : BitVec 5) (n : BitVec 1) (s : State) : ExecSafe s (execPfxh a b n s) :=
  .kept (engineWord_kept _ _ _ _ _ _ _ _ _ s (plainTable_kept _ _))

theorem execPfxlk_answers (a b : BitVec 5) (n : BitVec 1) (s : State) : ExecSafe s (execPfxlk a b n s) :=
  .kept (engineWord_kept _ _ _ _ _ _ _ _ _ s (plainTable_kept _ _))

theorem execPfxins_answers (a b : BitVec 5) (n : BitVec 1) (s : State) : ExecSafe s (execPfxins a b n s) :=
  .kept (engineWord_kept _ _ _ _ _ _ _ _ _ s (plainTable_kept _ _))

theorem execPfxunpin_answers (a b : BitVec 5) (n : BitVec 1) (s : State) :
    ExecSafe s (execPfxunpin a b n s) :=
  .kept (engineWord_kept _ _ _ _ _ _ _ _ _ s (plainTable_kept _ _))

/-! ## Hashing (R304, R308) -/

theorem execPfxhExecute_answers (s : State) : ExecSafe s (execPfxhExecute s) :=
  .safe (engineStep_safe _ _ _ s fun e t => optSafe_hashRun ..)

/-! ## Tables (R302, R303) -/

theorem execPfxlkExecute_answers (s : State) : ExecSafe s (execPfxlkExecute s) :=
  .safe (safe_pfxTurn _ _ (fun _ _ _ _ => optSafe_keyRun _ engSafe_lookStep ..) s)

theorem execPfxinsExecute_answers (s : State) : ExecSafe s (execPfxinsExecute s) :=
  .safe (safe_pfxTurn _ _ (fun _ _ _ _ => optSafe_keyRun _ engSafe_insertStep ..) s)

theorem execPfxunpinExecute_answers (s : State) : ExecSafe s (execPfxunpinExecute s) :=
  .safe (safe_pfxTurn _ _ (fun _ _ _ _ => optSafe_unpinRun ..) s)

/-! ## Port status and groups (R209 to R215) -/

theorem execRstat_answers (d : BitVec 5) (t : BitVec 1) (p : BitVec 2) (s : State) :
    ExecSafe s (execRstat d t p s) := by
  unfold execRstat
  refine .kept (run_kept _ _ _ fun t => ?_)
  (repeat' split) <;> simp

theorem execFenceArr_answers (sc : BitVec 4) (g : BitVec 8) (s : State) :
    ExecSafe s (execFenceArr sc g s) := by
  unfold execFenceArr
  refine .kept (run_kept _ _ _ fun t => ?_)
  (repeat' split) <;> simp

theorem execGwait_answers (g : BitVec 8) (s : State) : ExecSafe s (execGwait g s) := by
  unfold execGwait
  refine .kept (run_kept _ _ _ fun t => ?_)
  (repeat' split) <;> simp

theorem execGtest_answers (d : BitVec 5) (g : BitVec 8) (s : State) : ExecSafe s (execGtest d g s) := by
  unfold execGtest
  refine .kept (run_kept _ _ _ fun t => ?_)
  (repeat' split) <;> simp

theorem execFenceArrArrival_answers (s : State) : ExecSafe s (execFenceArrArrival s) := by
  refine .safe (safe_within _ _ (fun t => ?_) s)
  split
  · exact .refl t
  · split <;> simp [Safe]

/-! ## TGET (R227, R285) -/

theorem execTget_answers (d : BitVec 5) (s : State) : ExecSafe s (execTget d s) := by
  unfold execTget
  refine .safe (run_safe _ _ _ fun t => ?_)
  dsimp only
  (repeat' split) <;> simp +contextual

/-! ## TDONE, TDONE.C (R228) -/

theorem execTdone_answers (s : State) : ExecSafe s (execTdone s) := by
  unfold execTdone
  refine .kept (run_kept _ _ _ fun t => ?_)
  simp

theorem execTdoneC_answers (s : State) : ExecSafe s (execTdoneC s) := by
  unfold execTdoneC
  refine .kept (run_kept _ _ _ fun t => ?_)
  simp

/-! ## TLAUNCH, TLAUNCH.W (R230, R231) -/

theorem execTlaunch_answers (d a : BitVec 5) (s : State) : ExecSafe s (execTlaunch d a s) :=
  .kept (launchWord_kept _ _ _ _ s (by simp))

theorem execTlaunchW_answers (d a : BitVec 5) (s : State) : ExecSafe s (execTlaunchW d a s) := by
  refine .kept (launchWord_kept _ _ _ _ s fun t => ?_)
  split <;> simp

/-! ## SUSP (R338) -/

theorem execSusp_answers (d a b : BitVec 5) (g : BitVec 8) (s : State) : ExecSafe s (execSusp d a b g s) := by
  unfold execSusp
  refine .kept (run_kept _ _ _ fun t => ?_)
  dsimp only
  (repeat' split) <;> simp

theorem execSuspSectionWrite_answers (s : State) : ExecSafe s (execSuspSectionWrite s) := by
  unfold execSuspSectionWrite
  dsimp only
  split
  · exact .safe (safe_within _ _ safe_suspendSlot s)
  · exact .safe (.refl s)

/-! ## RESM (R347, R348) -/

theorem execResm_answers (d a b : BitVec 5) (s : State) : ExecSafe s (execResm d a b s) := by
  refine .safe (run_safe _ _ _ fun t => ?_)
  dsimp only
  split
  · exact ⟨rfl, id⟩
  · refine gotRes_safe _ t _ fun hb l1 => grantList_safe t _ _ fun granted l2 => gotRes_safe _ t _ fun bs l3 => ?_
    split
    · exact .refl t
    · split
      · exact .refl t
      · split
        · simp [Safe]
        · exact setCutState_safe _ _ t _ fun u => by simp [Safe]

/-! ## CDISC (R349) -/

theorem execCdisc_answers (d a : BitVec 5) (s : State) : ExecSafe s (execCdisc d a s) := by
  refine .safe (run_safe _ _ _ fun t => ?_)
  dsimp only
  split
  · exact ⟨rfl, id⟩
  · refine gotRes_safe _ t _ fun hb locs => ?_
    split
    · exact setCutState_safe _ _ t _ fun u => by simp [Safe]
    · simp [Safe]

/-! ## Consuming a packet (R218, R220) -/

theorem execPacketConsume_answers (s : State) : ExecSafe s (execPacketConsume s) := by
  refine .safe (safe_onDevice (fun d hd => ?_) s)
  split <;> simp [hd]

/-! ## Debug (R333 to R335) -/

theorem execThreadHalted_answers (s : State) : ExecSafe s (execThreadHalted s) := by
  refine .safe (safe_within _ _ (fun t => ?_) s)
  split <;> simp [Safe]

/-! ## Measurement registers (R393, R397) -/

theorem execMextGo_answers (s : State) : ExecSafe s (execMextGo s) := by
  unfold execMextGo
  split
  · exact .safe (safe_boot s _)
  · exact .safe (.refl s)

/-! ## CXL.mem and CXL.cache (R246, R332, R390) -/

theorem execCxlMemRead_answers (s : State) : ExecSafe s (execCxlMemRead s) := by
  unfold execCxlMemRead
  dsimp only
  refine .kept ?_
  (repeat' split) <;> simp

theorem execCxlMemWrite_answers (s : State) : ExecSafe s (execCxlMemWrite s) := by
  unfold execCxlMemWrite
  dsimp only
  refine .safe ?_
  (repeat' split) <;> simp +contextual [Safe]

theorem execCxlCacheSnoop_answers (s : State) : ExecSafe s (execCxlCacheSnoop s) := by
  unfold execCxlCacheSnoop
  dsimp only
  refine .safe ?_
  (repeat' split) <;> simp +contextual [Safe]

/-! ## Retries and suspects (R379, R380, R385) -/

theorem execSwitchFatalError_answers (s : State) : ExecSafe s (execSwitchFatalError s) := by
  unfold execSwitchFatalError
  split
  · exact .safe (.refl s)
  · exact .kept ⟨rfl, declarePlane_kept ..⟩

/-! ## A home and the requests of other devices (R380) -/

theorem execTrainSegmentReceive_answers (s : State) : ExecSafe s (execTrainSegmentReceive s) := by
  unfold execTrainSegmentReceive
  dsimp only
  refine .safe ?_
  (repeat' split) <;> simp +contextual [Safe]

theorem execResponseCacheExpire_answers (s : State) : ExecSafe s (execResponseCacheExpire s) := by
  unfold execResponseCacheExpire
  dsimp only
  refine .kept ?_
  (repeat' split) <;> simp

/-! ## Ports (R375, R384, R385) -/

theorem execPortUp_answers (s : State) : ExecSafe s (execPortUp s) := by
  unfold execPortUp
  dsimp only
  refine .kept ?_
  (repeat' split) <;> simp

/-! ## The rehash (R386 to R388) -/

theorem execRehashDrainTimeout_answers (s : State) : ExecSafe s (execRehashDrainTimeout s) := by
  unfold execRehashDrainTimeout
  split
  · split
    · exact .kept ⟨rfl, killDevice_kept ..⟩
    · exact .safe (.refl s)
  · exact .safe (.refl s)

/-! ## Fetch and decode (R26, R58, R61, R248) -/

theorem execFetchFault_answers (s : State) : ExecSafe s (execFetchFault s) := by
  unfold execFetchFault
  split
  · exact .safe (.refl s)
  · split
    · exact .safe (safe_inOrder (by simp [Safe]))
    · exact .safe (.refl s)

theorem execIllegalInstr_answers (s : State) : ExecSafe s (execIllegalInstr s) := by
  unfold execIllegalInstr
  split
  · exact .safe (.refl s)
  · split
    · exact .safe (.refl s)
    · split
      · exact .safe (.refl s)
      · refine .safe (safe_inOrder ?_)
        split <;> simp [Safe]

/-! ## The ends of waits (R256, R327, R377) -/

theorem execYieldWaitEnd_answers (s : State) : ExecSafe s (execYieldWaitEnd s) := by
  refine .safe (safe_within _ _ (fun t => ?_) s)
  split <;> simp [Safe]

theorem execWpollTimeout_answers (s : State) : ExecSafe s (execWpollTimeout s) := by
  refine .safe (safe_within _ _ (fun t => ?_) s)
  split
  · split <;> simp [Safe]
  · exact .refl t

/-! ## The vector unit (R132, R356 to R359) -/

theorem execVectorWordComplete_answers (s : State) : ExecSafe s (execVectorWordComplete s) := by
  refine .safe (safe_within _ _ (fun t => ?_) s)
  split
  · exact .refl t
  · dsimp only
    split <;> simp [Safe]

/-! ## Soft errors (R359 to R364) -/

theorem execSoftError_answers (s : State) : ExecSafe s (execSoftError s) := by
  unfold execSoftError
  dsimp only
  refine .safe ?_
  (repeat' split) <;> simp +contextual [Safe]

theorem execScrubPass_answers (s : State) : ExecSafe s (execScrubPass s) := by
  unfold execScrubPass
  dsimp only
  refine .kept ?_
  (repeat' split) <;> simp

/-! ## Page retirement (R366, R367) -/

theorem execFrameRetireStart_answers (s : State) : ExecSafe s (execFrameRetireStart s) := by
  unfold execFrameRetireStart
  split
  · exact .safe (.refl s)
  · exact .kept ⟨rfl, startRetire_kept ..⟩

theorem execCopyPassEnd_answers (s : State) : ExecSafe s (execCopyPassEnd s) := by
  unfold execCopyPassEnd
  split
  · exact .safe (.refl s)
  · exact .safe ⟨rfl, endCopyPass_wf _ _ _⟩

theorem execRetireSwitchDone_answers (s : State) : ExecSafe s (execRetireSwitchDone s) := by
  unfold execRetireSwitchDone
  split
  · exact .safe (.refl s)
  · exact .safe ⟨rfl, finishRetire_wf _ _⟩

/-! ## Starts (R374, R396 to R398) -/

theorem execDeviceStart_answers (s : State) : ExecSafe s (execDeviceStart s) := by
  refine ⟨fun t ht => ?_⟩
  cases ht
  exact ⟨.inr (startDevice_cur ..), startDevice_wf _ _⟩

theorem execStartTimeout_answers (s : State) : ExecSafe s (execStartTimeout s) := by
  unfold execStartTimeout
  split
  · exact .safe (.refl s)
  · refine ⟨fun t ht => ?_⟩
    cases ht
    exact ⟨.inr rfl, failStart_wf _ _⟩

/-! ## Clocks and power (R401) -/

theorem execThermalThrottle_answers (s : State) : ExecSafe s (execThermalThrottle s) := by
  unfold execThermalThrottle
  dsimp only
  refine .kept ?_
  (repeat' split) <;> simp

/-! ## The management responder (R399, R400) -/

theorem execMctpControl_answers (s : State) : ExecSafe s (execMctpControl s) := by
  unfold execMctpControl
  dsimp only
  refine .kept ?_
  (repeat' split) <;> simp

/-! ## All of them -/

/-- Every instruction and every step of another agent answers a state that follows safely, or starts the device afresh. The cases are grouped by the
operation that carries them out. -/
theorem exec_answers (i : Instr) (s : State) : ExecSafe s (exec i s) := by
  cases i
  case add | sub | and | or | xor | sll | srl | sra | slt | sltu | min | max | minu | maxu | mul | mulhs | mulhu | mulhx | div | divu |
    rem | remu => exact .kept (aluXR_kept ..)
  case vadd | vsub | vsubr | vmul | vmulhi | vdiv | vrem | vmin | vmax | vand | vor | vxor | vshl |
      vshr | vaddsat | vsubsat | vmad | vcopy =>
    exact .kept (intWord_kept ..)
  case clz | ctz | popc | sextb | sexth | sextw | addi | andi | ori | xori | slti | sltiu | lim | slli |
      srli | srai | rori =>
    exact .kept (aluX_kept ..)
  case moadd | mosub | momul | mofma | mosc | moscX | moexp | morelu | mosig | motanh | mofrom | momv =>
    exact .kept (momentWord_kept ..)
  case qcfgWrite | qnotifyWrite | packetStart | lpartWrite | maxvlWrite | slotResume | fqcfgWrite | tlbiPage | tlbiDataCtx | tlbiInstrCtx |
    tlbiAll | tlbiAck => exact .safe (safe_onDevice_kept (fun d => by simp) s)
  case remoteRetryTimeout | planeProbeResult | flitReceive | quiesce | drained | pmapInstall | release | fmStandbyTakeover |
    linkModuleFail | currentTrip | islandClockChange | vendorStatusRead => exact .kept (by simp)
  case vfadd | vfsub | vfsubr | vfmul | vfdiv | vfmin | vfmax | vfmad | vfmsb | vfsqrt =>
    exact .kept (floatWord_kept ..)
  case barrierPacketComplete | signalPacket | launchAdmit | placeLaunch | slotEnd | deadlineMiss | faultRecordPost | saveAbandon |
    systemCuttingResume | thermalShutdown => exact .safe (safe_onDevice (fun d hd => by simp [hd]) s)
  case ldb | ldbu | ldh | ldhu | ldw | ldwu | ldd => exact .kept (scalarLoad_kept ..)
  case aadd | amin | amax | aand | aor | axor | aswap => exact .safe (intAtomic_safe ..)
  case barriveEffect | engineEntryComplete | taskFinish | storePerform | remoteAckReceive |
      wpollRemoteReread | vectorReplay =>
    exact .safe ⟨within_cur _ _ _ s, within_wf _ _ _ s fun t ht => by simp [ht]⟩
  case vfexp2 | vflog2 | vfrecip | vfrsqrt | vftanh | vfsig => exact .kept (transWord_kept ..)
  case vcmpeq | vcmpne | vcmplt | vcmple | vcmpgt | vcmpge => exact .kept (compareWord_kept ..)
  case kboth | keither | kdiffer | kbut | kflip | kfill => exact .kept (maskWord_kept ..)
  case vredsum | vredmin | vredmax | vredand | vredor | vredxor => exact .kept (intReduction_kept ..)
  case beq | bne | blt | bge | bltu | bgeu => exact .kept (branch_kept ..)
  case mocolMean | mocolVar | mocolStd | mocolUpper | mocolLower | mocolSample =>
    exact .kept (collapseWord_kept ..)
  case stb | sth | stw | std => exact .kept (scalarStore_kept ..)
  case vfabs | vfneg | vfcsgn | vfcopy => exact .kept (codeWord_kept ..)
  case vfredsum | vfredsumw | vfredmin | vfredmax => exact .kept (floatReduction_kept ..)
  case fadd | fsub | fmul | fdiv => exact .kept (sfBin_kept ..)
  case feq | flt | fle | funo => exact .kept (sfCmp_kept ..)
  case getDigests | getCertificate | challenge | getMeasurements => exact .kept (request_kept ..)
  case fcvs | fcvh | fcvb => exact .kept (sfConvert_kept ..)
  case vscataddDev | vscataddHost | vscataddSys => exact .safe (scatterAdd_safe ..)
  case getVersion | getCapabilities | negotiateAlgorithms => exact .kept (negotiate_kept ..)
  case acas | afadd => exact .safe (atomic_safe ..)
  case kcount | klowest => exact .kept (maskCount_kept ..)
  case vshup | vshdn => exact .kept (shiftWord_kept ..)
  case ftoi | ftou => exact .kept (sfToInt_kept ..)
  case itof | utof => exact .kept (sfFromInt_kept ..)
  case zld | zst => exact .kept (tileWord_kept ..)
  case registerWrite | remoteRequestReceive => exact .safe (by simp +contextual [Safe])
  case wpoll => exact .kept (pollWord_kept ..)
  case slotPreempt => exact .kept (preemptSlot_kept ..)
  case preemptSave => exact .safe (saveStep_safe ..)
  case watchdogExpire => exact .kept (expireWatch_kept ..)
  case dbgHaltWrite => exact .kept (writeDbgctl_kept ..)
  case dbgdataRead => exact .kept (readDbgdata_kept ..)
  case dbgdataWrite => exact .kept (writeDbgdata_kept ..)
  case fence => exact execFence_answers ..
  case fenceAcq => exact execFenceAcq_answers ..
  case fenceRel => exact execFenceRel_answers ..
  case vsel => exact execVsel_answers ..
  case vindex => exact execVindex_answers ..
  case vperm => exact execVperm_answers ..
  case vpack => exact execVpack_answers ..
  case vuniq => exact execVuniq_answers ..
  case vget => exact execVget_answers ..
  case vput => exact execVput_answers ..
  case vcvt => exact execVcvt_answers ..
  case vcvtsr => exact execVcvtsr_answers ..
  case vcvtmx => exact execVcvtmx_answers ..
  case pcadd => exact execPcadd_answers ..
  case fmad => exact execFmad_answers ..
  case fsqrt => exact execFsqrt_answers ..
  case jmp => exact execJmp_answers ..
  case call => exact execCall_answers ..
  case jr => exact execJr_answers ..
  case callr => exact execCallr_answers ..
  case ret => exact execRet_answers ..
  case nop => exact execNop_answers ..
  case mfs => exact execMfs_answers ..
  case mts => exact execMts_answers ..
  case sys => exact execSys_answers ..
  case brk => exact execBrk_answers ..
  case eret => exact execEret_answers ..
  case yield => exact execYield_answers ..
  case setvl => exact execSetvl_answers ..
  case setvlr => exact execSetvlr_answers ..
  case cbld => exact execCbld_answers ..
  case sdld => exact execSdld_answers ..
  case sbr => exact execSbr_answers ..
  case vloop => exact execVloop_answers ..
  case vbr => exact execVbr_answers ..
  case vjoin => exact execVjoin_answers ..
  case vbany => exact execVbany_answers ..
  case vball => exact execVball_answers ..
  case vld => exact execVld_answers ..
  case vlds => exact execVlds_answers ..
  case vldx => exact execVldx_answers ..
  case vst => exact execVst_answers ..
  case vsts => exact execVsts_answers ..
  case vstx => exact execVstx_answers ..
  case vldmx => exact execVldmx_answers ..
  case vstmx => exact execVstmx_answers ..
  case vsld => exact execVsld_answers ..
  case vsst => exact execVsst_answers ..
  case mold => exact execMold_answers ..
  case most => exact execMost_answers ..
  case binit => exact execBinit_answers ..
  case bexpect => exact execBexpect_answers ..
  case barrive => exact execBarrive_answers ..
  case bexparr => exact execBexparr_answers ..
  case bwait => exact execBwait_answers ..
  case btest => exact execBtest_answers ..
  case fenceQ => exact execFenceQ_answers ..
  case mma => exact execMma_answers ..
  case mmamo => exact execMmamo_answers ..
  case zclr => exact execZclr_answers ..
  case zmv => exact execZmv_answers ..
  case zmvt => exact execZmvt_answers ..
  case wbld => exact execWbld_answers ..
  case mcommit => exact execMcommit_answers ..
  case mmaExecute => exact execMmaExecute_answers ..
  case mmamoExecute => exact execMmamoExecute_answers ..
  case zclrExecute => exact execZclrExecute_answers ..
  case zldExecute => exact execZldExecute_answers ..
  case zstExecute => exact execZstExecute_answers ..
  case wbFill => exact execWbFill_answers ..
  case mcommitArrival => exact execMcommitArrival_answers ..
  case cpy => exact execCpy_answers ..
  case cpyExecute => exact execCpyExecute_answers ..
  case rgath => exact execRgath_answers ..
  case rscat => exact execRscat_answers ..
  case rgathExecute => exact execRgathExecute_answers ..
  case rscatExecute => exact execRscatExecute_answers ..
  case coll => exact execColl_answers ..
  case collExecute => exact execCollExecute_answers ..
  case remoteTimeout => exact execRemoteTimeout_answers ..
  case pfxh => exact execPfxh_answers ..
  case pfxlk => exact execPfxlk_answers ..
  case pfxins => exact execPfxins_answers ..
  case pfxunpin => exact execPfxunpin_answers ..
  case pfxhExecute => exact execPfxhExecute_answers ..
  case pfxlkExecute => exact execPfxlkExecute_answers ..
  case pfxinsExecute => exact execPfxinsExecute_answers ..
  case pfxunpinExecute => exact execPfxunpinExecute_answers ..
  case rstat => exact execRstat_answers ..
  case fenceArr => exact execFenceArr_answers ..
  case gwait => exact execGwait_answers ..
  case gtest => exact execGtest_answers ..
  case fenceArrArrival => exact execFenceArrArrival_answers ..
  case tget => exact execTget_answers ..
  case tdone => exact execTdone_answers ..
  case tdoneC => exact execTdoneC_answers ..
  case tlaunch => exact execTlaunch_answers ..
  case tlaunchW => exact execTlaunchW_answers ..
  case susp => exact execSusp_answers ..
  case suspSectionWrite => exact execSuspSectionWrite_answers ..
  case resm => exact execResm_answers ..
  case cdisc => exact execCdisc_answers ..
  case packetConsume => exact execPacketConsume_answers ..
  case threadHalted => exact execThreadHalted_answers ..
  case mextGo => exact execMextGo_answers ..
  case cxlMemRead => exact execCxlMemRead_answers ..
  case cxlMemWrite => exact execCxlMemWrite_answers ..
  case cxlCacheSnoop => exact execCxlCacheSnoop_answers ..
  case switchFatalError => exact execSwitchFatalError_answers ..
  case trainSegmentReceive => exact execTrainSegmentReceive_answers ..
  case responseCacheExpire => exact execResponseCacheExpire_answers ..
  case portUp => exact execPortUp_answers ..
  case rehashDrainTimeout => exact execRehashDrainTimeout_answers ..
  case fetchFault => exact execFetchFault_answers ..
  case illegalInstr => exact execIllegalInstr_answers ..
  case yieldWaitEnd => exact execYieldWaitEnd_answers ..
  case wpollTimeout => exact execWpollTimeout_answers ..
  case vectorWordComplete => exact execVectorWordComplete_answers ..
  case softError => exact execSoftError_answers ..
  case scrubPass => exact execScrubPass_answers ..
  case frameRetireStart => exact execFrameRetireStart_answers ..
  case copyPassEnd => exact execCopyPassEnd_answers ..
  case retireSwitchDone => exact execRetireSwitchDone_answers ..
  case deviceStart => exact execDeviceStart_answers ..
  case startTimeout => exact execStartTimeout_answers ..
  case thermalThrottle => exact execThermalThrottle_answers ..
  case mctpControl => exact execMctpControl_answers ..

/-! ## Turns -/

theorem ExecSafe.after {s : State} {o : Host.Outcome State Fault Refusal} {f : State → State} (h : ExecSafe s o) (hf : ∀ t, Safe t (f t)) :
    ExecSafe s (after f o) := by
  cases o with
  | next t =>
    refine ⟨fun u hu => ?_⟩
    cases hu
    obtain ⟨hc, hm⟩ := h.next t rfl
    exact ⟨by rwa [(hf t).1], fun hs => (hf t).2 (hm hs)⟩
  | fault e => exact ⟨fun u hu => by cases hu⟩
  | refused e => exact ⟨fun u hu => by cases hu⟩

theorem runWord_answers (s : State) : ExecSafe s (runWord s) := by
  unfold runWord
  split
  · exact exec_answers ..
  · split <;> exact exec_answers ..

/-- A turn of another agent keeps the focus, or starts the device afresh. -/
theorem event_answers (i : Instr) (a : EvArg) (s : State) : ExecSafe s (doTurn (.event i a) s) := by
  unfold doTurn
  dsimp only
  split
  · exact ⟨fun u hu => by cases hu⟩
  · have h : ExecSafe s (exec i { s with dev.arg := a }) := ⟨(exec_answers i { s with dev.arg := a }).next⟩
    exact h.after fun t => by simp +contextual [Safe]

/-- What follows safely on a state that meets the invariant meets it too. -/
theorem inv_of_answers {s t : State} {o : Host.Outcome State Fault Refusal} (h : ExecSafe s o)
    (hs : Inv s) (ho : o = .next t) :
    Inv t := by
  obtain ⟨hmem, hslot, hrole⟩ := hs
  obtain ⟨hc, hm⟩ := h.next t ho
  refine ⟨hm hmem, ?_, ?_⟩ <;>
  · rcases hc with hc | hc <;> rw [hc]
    · assumption
    · decide

theorem inv_focus {s : State} {n r : Nat} (hs : Inv s) (hn : n < 512) (hr : r < 3) : Inv (focus s n r) :=
  ⟨by simpa using hs.mem, by simpa using hn, by simpa using hr⟩

theorem threadTurn_inv {n r : Nat} {s t : State} (hs : Inv s) (h : threadTurn n r s = .next t) : Inv t := by
  unfold threadTurn at h
  split at h
  · cases h
  next hin =>
    simp only [Bool.or_eq_true, decide_eq_true_eq, not_or, not_le] at hin
    have hf := inv_focus hs hin.1 hin.2
    split at h
    · exact inv_of_answers (.kept (s := focus s n r) (t := waitHere (focus s n r)) ⟨rfl, rfl⟩) hf h
    · split at h
      · exact inv_of_answers ((runWord_answers _).after fun u => by simp [Safe]) hf h
      · exact inv_of_answers (.safe (.refl _)) hf h

theorem doTurn_inv {turn : Turn} {s t : State} (hs : Inv s) (h : doTurn turn s = .next t) : Inv t := by
  cases turn with
  | thread n r => exact threadTurn_inv hs h
  | event i a => exact inv_of_answers (event_answers i a s) hs h
  | tlbFill n i va => exact inv_of_answers (.kept (tlbFillTurn_kept ..)) hs h
  | tlbDrop i => exact inv_of_answers (.kept (tlbDropTurn_kept ..)) hs h
  | l1dFill c l => exact inv_of_answers (.kept (l1dFillTurn_kept ..)) hs h
  | l1dDrop c l => exact inv_of_answers (.kept (l1dDropTurn_kept ..)) hs h
  | l1iFill c x l => exact inv_of_answers (.kept (l1iFillTurn_kept ..)) hs h
  | l1iDrop c x l => exact inv_of_answers (.kept (l1iDropTurn_kept ..)) hs h
  | elapse ps => exact inv_of_answers (.safe (by simp +contextual [Safe])) hs h

/-- Settles O6: memory is written only byte by byte, by leaving bytes out, or under new addresses at a start, all of which keep the canonical form;
and the focus moves only in a thread's turn, which checks its slot and role, and at a start. -/
theorem stepKeepsInvariant : Obligations.StepKeepsInvariant := by
  unfold Obligations.StepKeepsInvariant
  intro s t hs h
  unfold step at h
  split at h
  · exact doTurn_inv hs h
  next r _ =>
    obtain ⟨hmem, hslot, hrole⟩ := hs
    have hs' : Inv { s with dev.sched := r } := ⟨hmem, hslot, hrole⟩
    exact doTurn_inv hs' h

end Sys2Proof.Machine

end

section
/-! PROOFS. What performing the head of MXQ does (O54): one lemma for the turn of an engine, one for what a multiply makes of a tile, and for
each operation on tiles and weight slots what it changes. -/

namespace Sys2Proof.Machine

/-! ## The turn of an engine (R266) -/

/-- The slot that an engine's event names, in focus. -/
abbrev eventSlot (s : State) : State := focus s s.dev.arg.slot 1

/-- An engine's step done: the slot was served last, and the focus returns. -/
abbrev served (s : State) (q : Nat) (t : State) : State :=
  focus { t with dev.served := SMap.set 0 t.dev.served (8 * (s.dev.arg.slot / 2) + q) (s.dev.arg.slot + 1) } s.cur.1 s.cur.2

/-- Entry e, no longer idle, is the head of queue q, not done and of kind op, and it is the slot's turn. -/
structure AtHead (s : State) (q : Nat) (op : EngOp) (e : Entry) : Prop where
  head : (headEntry (eventSlot s) q (fun x => x = op)).map (fun x => { x with idle := false }) = some e
  turn : matesTurn (eventSlot s) s.dev.arg.slot q = false

/-- The head of a queue that is of a kind, when it is the slot's turn, is performed. -/
theorem engineStep_runs {q : Nat} {op : EngOp} {g : Entry → State → Option State} {s t : State} {e : Entry} (h : AtHead s q op e)
    (hg : g e (eventSlot s) = some t) : engineStep q (fun x => x = op) g s = served s q t := by
  obtain ⟨e', he', rfl⟩ := Option.map_eq_some_iff.mp h.head
  unfold engineStep within
  dsimp only
  rw [he']
  dsimp only
  rw [if_neg (by simp [h.turn]), hg]

/-- An entry that can only wait stands idle at the head. -/
theorem engineStep_idle {q : Nat} {op : EngOp} {g : Entry → State → Option State} {s : State} {e : Entry} (h : AtHead s q op e)
    (hg : g e (eventSlot s) = none) :
    engineStep q (fun x => x = op) g s = focus (setHead q { e with idle := true } (eventSlot s)) s.cur.1 s.cur.2 := by
  obtain ⟨e', he', rfl⟩ := Option.map_eq_some_iff.mp h.head
  unfold engineStep within
  dsimp only
  rw [he']
  dsimp only
  rw [if_neg (by simp [h.turn]), hg]

theorem eventSlot_role (s : State) : (eventSlot s).cur.2 = 1 := congrArg Prod.snd (focus_cur s _ 1)

theorem eventSlot_arg (s : State) : (eventSlot s).dev.arg = s.dev.arg := by rw [focus_dev]

/-! ## What an engine's access leaves alone (R269) -/

theorem Eng.bind_eq_ok {α β : Type} {x : Eng α} {f : α → State → Eng β} {b : β} {t : State} (h : x.bind f = .ok b t) :
    ∃ a u, x = .ok a u ∧ f a u = .ok b t := by
  cases x with
  | ok a u => exact ⟨a, u, rfl, h⟩
  | err c o => cases h
  | wait d q => cases h

theorem engReach_state {e : Entry} {store : Bool} {va n : Nat} {s t : State} {locs : List Loc} (h : engReach e store va n s = .ok locs t) :
    t = s := by
  unfold engReach at h
  dsimp only at h
  (repeat' split at h) <;> cases h <;> rfl

theorem countRead_frame (e : Entry) (keys : List Nat) (s : State) :
    countRead e keys s = { s with dev.acnt := (countRead e keys s).dev.acnt } := by
  unfold countRead
  dsimp only
  split <;> rfl

/-- A read of an engine changes nothing but what it counts. -/
theorem engRead_frame {e : Entry} {va n : Nat} {s t : State} {bs : List Byte} (h : engRead e va n s = .ok bs t) :
    t = { s with dev.acnt := t.dev.acnt } := by
  obtain ⟨keys, u, hplaces, hcount⟩ := Eng.bind_eq_ok h
  obtain ⟨locs, v, hreach, hpoison⟩ := Eng.bind_eq_ok hplaces
  cases engReach_state hreach
  split at hpoison
  · cases hpoison
  · cases hpoison
    cases hcount
    exact countRead_frame e _ _

theorem engPut_frame (e : Entry) (op : Nat) (bs : List (Nat × Byte × Byte)) (s : State) :
    engPut e op bs s = { s with dev := (engPut e op bs s).dev } := by
  unfold engPut
  split <;> rfl

/-- A write of an engine changes the device alone. -/
theorem engWrite_frame {e : Entry} {va : Nat} {s t : State} {bs : List Byte} (h : engWrite e va bs s = .ok () t) :
    t = { s with dev := t.dev } := by
  obtain ⟨locs, u, hreach, hput⟩ := Eng.bind_eq_ok h
  cases engReach_state hreach
  cases hput
  exact engPut_frame ..

theorem engAnswered_frame (e : Entry) (s : State) : engAnswered e s = { s with dev := (engAnswered e s).dev } := by
  unfold engAnswered
  split <;> rfl

@[simp] theorem engAnswered_slot (e : Entry) (s : State) : (engAnswered e s).slot = s.slot := by rw [engAnswered_frame]

@[simp] theorem engAnswered_cur (e : Entry) (s : State) : (engAnswered e s).cur = s.cur := by rw [engAnswered_frame]

/-! ## Tiles, weight slots and what is kept for `mcommit` -/

theorem dropLatent_frame (cls n : Nat) {s : State} (h : s.cur.2 = 1) :
    dropLatent cls n s = { s with thr := (dropLatent cls n s).thr } := by
  unfold dropLatent
  dsimp only
  rw [if_pos h]

theorem dropLatent_slot (cls n : Nat) {s : State} (h : s.cur.2 = 1) : (dropLatent cls n s).slot = s.slot := by rw [dropLatent_frame _ _ h]

theorem dropLatent_dev (cls n : Nat) {s : State} (h : s.cur.2 = 1) : (dropLatent cls n s).dev = s.dev := by rw [dropLatent_frame _ _ h]

@[simp] theorem mxFail_dev (c o n : Nat) (s : State) : (mxFail c o n s).dev = s.dev := by
  unfold mxFail
  split <;> rfl

/-- The first event is kept (R143). -/
@[simp] theorem mxFail_slot (c o n : Nat) (s : State) :
    (mxFail c o n s).slot = { s.slot with mxerr := s.slot.mxerr.or (some ⟨c, o, n⟩) } := by
  unfold mxFail
  cases h : s.slot.mxerr with
  | none => rfl
  | some r =>
    rw [if_pos (show (some r).isSome = true from rfl)]
    show s.slot = { s.slot with mxerr := some r }
    rw [← h]

theorem or_ofNat_of_bit {a : BitVec 16} {z : Nat} (h : bit a.toNat z = true) : a ||| BitVec.ofNat 16 (2 ^ z) = a := by
  refine BitVec.eq_of_getLsbD_eq fun i hi => ?_
  rw [BitVec.getLsbD_or, BitVec.getLsbD_ofNat, Nat.testBit_two_pow]
  by_cases hz : z = i
  · subst hz
    rw [show a.getLsbD z = true from h, Bool.true_or]
  · simp [hz]

@[simp] theorem poisonTile_slot (z : Nat) (s : State) :
    (poisonTile z s).slot = { s.slot with zpoison := s.slot.zpoison ||| BitVec.ofNat 16 (2 ^ z) } := by
  unfold poisonTile
  by_cases h : tilePoisoned s z = true
  · rw [if_pos h, or_ofNat_of_bit h]
  · rw [if_neg h]

theorem wbOf_setWb_self (n : Nat) (w : WbSlot) (s : State) : wbOf (setWb n w s) n = w := SMap.get_set_self WbSlot.empty s.slot.wb n w

theorem wbOf_setWb_ne {n k : Nat} (h : k ≠ n) (w : WbSlot) (s : State) : wbOf (setWb n w s) k = wbOf s k :=
  SMap.get_set_ne WbSlot.empty s.slot.wb n k w h

theorem poisonWb_slot (n : Nat) (s : State) :
    (poisonWb n s).slot = { s.slot with wb := (poisonWb n s).slot.wb } ∧ (wbOf (poisonWb n s) n).poison = true := by
  unfold poisonWb
  by_cases h : (wbOf s n).poison = true
  · rw [if_pos h]
    exact ⟨rfl, h⟩
  · rw [if_neg h]
    refine ⟨rfl, ?_⟩
    exact congrArg WbSlot.poison (wbOf_setWb_self ..)

theorem tileOf_setTile_self (z : Nat) (v : KReg) (s : State) : tileOf (setTile z v s) z = v := SMap.get_set_self _ _ _ _

theorem tileOf_setTile_ne {z k : Nat} (h : k ≠ z) (v : KReg) (s : State) : tileOf (setTile z v s) k = tileOf s k := SMap.get_set_ne _ _ _ _ _ h

/-- A bit of a mask with bit z taken off. -/
theorem bit_and_not_ofNat (a : BitVec 16) (z k : Nat) :
    bit (a &&& ~~~(BitVec.ofNat 16 (2 ^ z))).toNat k = (bit a.toNat k && decide (k ≠ z)) := by
  show BitVec.getLsbD _ k = (BitVec.getLsbD a k && _)
  rw [BitVec.getLsbD_and, BitVec.getLsbD_not, BitVec.getLsbD_ofNat, Nat.testBit_two_pow]
  by_cases hk : k < 16
  · by_cases hz : z = k
    · simp [hk, hz]
    · simp [hk, hz, Ne.symm hz]
  · rw [BitVec.getLsbD_of_ge a k (by omega), Bool.false_and, Bool.false_and]

/-! ## A tile accumulated (R136) -/

/-- A tile filled cell by cell, with the flags of the cells gathered. -/
def fillCells (x : Nat → Nat × Nat) (m tile : Nat) : Nat × Nat :=
  (upFrom 0 m).foldl (fun acc i => (setBits acc.1 (32 * i) 32 (x i).1, acc.2 ||| (x i).2)) (tile, 0)

theorem fillCells_succ (x : Nat → Nat × Nat) (m tile : Nat) :
    fillCells x (m + 1) tile = (setBits (fillCells x m tile).1 (32 * m) 32 (x m).1, (fillCells x m tile).2 ||| (x m).2) := by
  unfold fillCells
  rw [foldl_upFrom, Nat.zero_add]

theorem fillCells_lt (x : Nat → Nat × Nat) {m tile w : Nat} (hm : 32 * m ≤ w) (ht : tile < 2 ^ w) : (fillCells x m tile).1 < 2 ^ w := by
  induction m with
  | zero => exact ht
  | succ m ih =>
    rw [fillCells_succ]
    exact setBits_lt (ih (by omega)) (by omega)

theorem elemOf_fillCells (x : Nat → Nat × Nat) (m tile i : Nat) :
    elemOf (fillCells x m tile).1 32 i = if i < m then (x i).1 % 2 ^ 32 else elemOf tile 32 i := by
  induction m with
  | zero => rw [if_neg (Nat.not_lt_zero i)]; rfl
  | succ m ih =>
    rw [fillCells_succ]
    by_cases hi : i = m
    · rw [hi, elemOf_setBits_same, if_pos (Nat.lt_succ_self m)]
    · rw [elemOf_setBits_ne _ _ _ _ _ hi, ih]
      exact if_congr (by omega) rfl rfl

theorem testBit_fillCells (x : Nat → Nat × Nat) (m tile b : Nat) :
    (fillCells x m tile).2.testBit b = true ↔ ∃ i, i < m ∧ (x i).2.testBit b = true := by
  induction m with
  | zero => simp [fillCells, upFrom]
  | succ m ih =>
    rw [fillCells_succ, Nat.testBit_or, Bool.or_eq_true, ih]
    constructor
    · rintro (⟨i, hi, hb⟩ | hb)
      · exact ⟨i, by omega, hb⟩
      · exact ⟨m, by omega, hb⟩
    · rintro ⟨i, hi, hb⟩
      by_cases him : i = m
      · exact .inr (him ▸ hb)
      · exact .inl ⟨i, by omega, hb⟩

/-- The product of an entry over the slot that it names. -/
def productOf (u : State) (e : Entry) (aval : Nat → Nat → FV) (f : FV → FV) : Product := ⟨e, blockOf (wbOf u e.wb), colsN u, aval, f⟩

theorem accumulate_eq (u : State) (e : Entry) (z : Nat) (aval : Nat → Nat → FV) (f : FV → FV) (us : List Upset) :
    accumulate (productOf u e aval f) (hurtOf us) (tileOf u z).toNat =
      fillCells (fun i => accumAt u e z aval f us (i / colsN u) (i % colsN u)) (e.rows.length * colsN u) (tileOf u z).toNat := rfl

/-- Row and column pairs stand for the cells of a tile. -/
theorem exists_cell_iff (n rows : Nat) (P : Nat → Nat → Prop) :
    (∃ i, i < rows * n ∧ P (i / n) (i % n)) ↔ ∃ r c, r < rows ∧ c < n ∧ P r c := by
  constructor
  · rintro ⟨i, hi, hp⟩
    have hn : 0 < n := Nat.pos_of_ne_zero fun h => by rw [h, Nat.mul_zero] at hi; omega
    exact ⟨i / n, i % n, Nat.div_lt_of_lt_mul (by rwa [Nat.mul_comm] at hi), Nat.mod_lt i hn, hp⟩
  · rintro ⟨r, c, hr, hc, hp⟩
    have hn : 0 < n := by omega
    refine ⟨n * r + c, ?_, ?_⟩
    · calc n * r + c < n * (r + 1) := by rw [Nat.mul_succ]; omega
        _ ≤ n * rows := Nat.mul_le_mul_left n hr
        _ = rows * n := Nat.mul_comm n rows
    · rwa [Nat.mul_add_div hn, Nat.div_eq_of_lt hc, Nat.add_zero, Nat.mul_add_mod, Nat.mod_eq_of_lt hc]

/-- What a multiply makes of tile z: its cells are x, and fl gathers their flags. -/
structure Multiplied (u : State) (e : Entry) (z : Nat) (x : Nat → Nat → Nat × Nat) (t : State) (fl : Nat) : Prop where
  frame : t = { u with slot.z := t.slot.z, slot.zdirty := t.slot.zdirty, dev.ras := t.dev.ras }
  cells : ∀ i, i < 1024 → elemOf (tileOf t z).toNat 32 i =
    if i < e.rows.length * colsN u then (x (i / colsN u) (i % colsN u)).1 % 2 ^ 32 else elemOf (tileOf u z).toNat 32 i
  others : ∀ k, k ≠ z → tileOf t k = tileOf u k
  flags : ∀ b, fl.testBit b = true ↔ ∃ r c, r < e.rows.length ∧ c < colsN u ∧ (x r c).2.testBit b = true

theorem multiplied_accumulate (u : State) (e : Entry) (z : Nat) (aval : Nat → Nat → FV) (f : FV → FV) (us : List Upset)
    (hsize : e.rows.length * colsN u ≤ 1024) :
    let r := accumulate (productOf u e aval f) (hurtOf us) (tileOf u z).toNat
    Multiplied u e z (accumAt u e z aval f us) (setTile z (BitVec.ofNat 32768 r.1) u) r.2 := by
  intro r
  refine ⟨rfl, fun i _ => ?_, fun k hk => tileOf_setTile_ne hk _ _, fun b => ?_⟩
  · have hlt : r.1 < 2 ^ (32 * 1024) := fillCells_lt _ (Nat.mul_le_mul_left 32 hsize) (tileOf u z).isLt
    rw [tileOf_setTile_self, BitVec.toNat_ofNat, Nat.mod_eq_of_lt hlt]
    exact elemOf_fillCells _ _ _ i
  · exact (testBit_fillCells _ _ _ b).trans (exists_cell_iff (colsN u) e.rows.length fun r c => (accumAt u e z aval f us r c).2.testBit b = true)

/-- The error counters do not matter to a multiply. -/
theorem Multiplied.withRas {u t : State} {e : Entry} {z fl : Nat} {x : Nat → Nat → Nat × Nat} (h : Multiplied u e z x t fl) (m : SMap Word) :
    Multiplied u e z x { t with dev := { u.dev with ras := m } } fl := by
  refine ⟨?_, h.cells, h.others, h.flags⟩
  rw [h.frame]

/-! ## A multiply with its checks (R144, R145) -/

theorem multiply_clean {u : State} {e : Entry} {z : Nat} {us : List Upset} {aval : Nat → Nat → FV} {f : FV → FV}
    (hl : latent u 0 z = false) (h : mismatches (productOf u e aval f) us = ([], [])) :
    let r := accumulate (productOf u e aval f) (hurtOf us) (tileOf u z).toNat
    multiply e z us aval f u = (setTile z (BitVec.ofNat 32768 r.1) u, r.2) := by
  unfold multiply
  rw [meetTile_whole hl]
  unfold multiplyTile
  rw [show mismatches ⟨e, blockOf (wbOf u e.wb), colsN u, aval, f⟩ us = ([], []) from h]
  rfl

theorem multiply_mended {u : State} {e : Entry} {z i j : Nat} {us : List Upset} {aval : Nat → Nat → FV} {f : FV → FV}
    (hl : latent u 0 z = false) (h : mismatches (productOf u e aval f) us = ([i], [j])) :
    let r := accumulate (productOf u e aval f) (hurtOf (us.filter (fun p => !(p.row = i && p.col = j)))) (tileOf u z).toNat
    multiply e z us aval f u = ({ setTile z (BitVec.ofNat 32768 r.1) u with dev := addRas (coreOf u) 1 1 u.dev }, r.2) := by
  unfold multiply
  rw [meetTile_whole hl]
  unfold multiplyTile
  rw [show mismatches ⟨e, blockOf (wbOf u e.wb), colsN u, aval, f⟩ us = ([i], [j]) from h]
  rfl

theorem multiply_spoilt {u : State} {e : Entry} {z : Nat} {us : List Upset} {aval : Nat → Nat → FV} {f : FV → FV}
    (hl : latent u 0 z = false) (h : mismatches (productOf u e aval f) us ≠ ([], []))
    (h1 : ∀ i j, mismatches (productOf u e aval f) us ≠ ([i], [j])) :
    let r := accumulate (productOf u e aval f) (hurtOf us) (tileOf u z).toNat
    multiply e z us aval f u = (mxFail 0x42 z e.seq (poisonTile z (setTile z (BitVec.ofNat 32768 r.1) u)), r.2) := by
  unfold multiply
  rw [meetTile_whole hl]
  unfold multiplyTile
  split
  next hx => exact absurd hx h
  next i j hx => exact absurd hx (h1 i j)
  next => rfl


/-! ## A multiply performed -/

/-- The tiles of a multiply, one after the other, with the flags gathered. -/
def multiplyAll (parts : List (Nat × List Byte)) (e : Entry) (ps : List ((Nat → Nat → FV) × (FV → FV))) (s : State) : State × Nat :=
  (upFrom 0 ps.length).foldl (fun (x : State × Nat) i =>
    match ps[i]? with
    | none => x
    | some p => let y := multiply e (e.z + i) (upsetsOf i parts) p.1 p.2 x.1; (y.1, x.2 ||| y.2)) (s, 0)

theorem multiplyAll_one (parts : List (Nat × List Byte)) (e : Entry) (p : (Nat → Nat → FV) × (FV → FV)) (s : State) :
    multiplyAll parts e [p] s = multiply e e.z (upsetsOf 0 parts) p.1 p.2 s := Prod.ext rfl (Nat.zero_or _)

/-- The multiplications counted on the entry's account (R235). -/
def counted (e : Entry) (k : Nat) (s : State) : State :=
  { s with dev := addAcnt e.acct 1 (k * e.rows.length * colsN s * e.vl) s.dev }

theorem meetWb_whole {n : Nat} {s : State} (h : latent s 8 n = false) : meetWb n s = s := by
  unfold meetWb
  rw [if_neg (by simp [h])]

theorem performMultiply_whole {parts : List (Nat × List Byte)} {e : Entry} {ps : List ((Nat → Nat → FV) × (FV → FV))} {s : State}
    (hp : (wbOf s e.wb).poison = false) (hl : latent s 8 e.wb = false) :
    performMultiply parts e ps s = finishHead 3 e (multiplyAll parts e ps (counted e ps.length s)).2 0 0
      (multiplyAll parts e ps (counted e ps.length s)).1 := by
  unfold performMultiply
  rw [meetWb_whole hl]
  refine if_neg ?_
  rw [show wbOf { s with dev := addAcnt e.acct 1 (ps.length * e.rows.length * colsN s * e.vl) s.dev } e.wb = wbOf s e.wb from rfl, hp]
  exact Bool.false_ne_true

/-- The slot of a multiply, poisoned. -/
theorem performMultiply_poisoned {parts : List (Nat × List Byte)} {e : Entry} {ps : List ((Nat → Nat → FV) × (FV → FV))} {s : State}
    (hrole : s.cur.2 = 1) (hp : (wbOf s e.wb).poison = true) :
    ∃ t, performMultiply parts e ps s =
        finishHead 3 e 0 0 0 ((upFrom e.z ps.length).foldl (fun s z => spoilTile z s) (mxFail cLoss (0x100 + e.wb) e.seq t)) ∧
      t.slot = s.slot := by
  have hmeet : (meetWb e.wb s).slot = s.slot := by
    unfold meetWb
    split
    · unfold poisonWb
      have hw : (wbOf (dropLatent 8 e.wb s) e.wb).poison = true := by
        unfold wbOf
        rw [dropLatent_slot _ _ hrole]
        exact hp
      rw [if_pos hw, dropLatent_slot _ _ hrole]
    · rfl
  refine ⟨counted e ps.length (meetWb e.wb s), ?_, hmeet⟩
  unfold performMultiply
  dsimp only
  refine if_pos ?_
  unfold wbOf
  exact (congrArg (fun sl : Slot => (SMap.get WbSlot.empty sl.wb e.wb).poison) hmeet).trans hp

/-- A tile spoilt: its poison, and what it leaves. -/
theorem spoilTile_slot (z : Nat) (s : State) :
    (spoilTile z s).slot.mxq = s.slot.mxq ∧ (spoilTile z s).slot.mxerr = s.slot.mxerr ∧
      (spoilTile z s).slot.zpoison = s.slot.zpoison ||| BitVec.ofNat 16 (2 ^ z) := by
  unfold spoilTile
  dsimp only
  rw [poisonTile_slot]
  exact ⟨rfl, rfl, rfl⟩

/-- Poison stays where more is added. -/
theorem bit_or_of_bit {a b : BitVec 16} {z : Nat} (h : bit a.toNat z = true) : bit (a ||| b).toNat z = true := by
  show BitVec.getLsbD _ z = true
  rw [BitVec.getLsbD_or, show a.getLsbD z = true from h, Bool.true_or]

@[simp] theorem finishHead_eq (e : Entry) (n c o : Nat) (s : State) :
    finishHead 3 e n c o s = { s with slot.mxq := { e with done := some ⟨n, c, o⟩ } :: s.slot.mxq.tail } := rfl

theorem tileOf_finishHead (e : Entry) (n c o : Nat) (s : State) (z : Nat) : tileOf (finishHead 3 e n c o s) z = tileOf s z := rfl

theorem wbOf_finishHead (e : Entry) (n c o : Nat) (s : State) (k : Nat) : wbOf (finishHead 3 e n c o s) k = wbOf s k := rfl

theorem accumAt_congr {s t : State} {e : Entry} {z : Nat} (hwb : wbOf t e.wb = wbOf s e.wb) (hcols : colsN t = colsN s) (htile : tileOf t z = tileOf s z)
    (aval : Nat → Nat → FV) (f : FV → FV) (us : List Upset) : accumAt t e z aval f us = accumAt s e z aval f us := by
  funext r c
  unfold accumAt
  rw [hwb, hcols, htile]


/-! ## Each operation at the head -/

/-- What a performed head of MXQ leaves, of a multiply that meets nothing (R136). -/
theorem multiplied_counted {u t : State} {e : Entry} {k z fl : Nat} {x : Nat → Nat → Nat × Nat} (h : Multiplied (counted e k u) e z x t fl) :
    t = { u with slot.z := t.slot.z, slot.zdirty := t.slot.zdirty, dev.acnt := t.dev.acnt, dev.ras := t.dev.ras } := by
  rw [h.frame]
  rfl

theorem performMultiply_mma {u : State} {e : Entry} {parts : List (Nat × List Byte)} {l : List Upset}
    (hp : (wbOf u e.wb).poison = false) (hw : latent u 8 e.wb = false) (hz : latent u 0 e.z = false) (hsize : e.rows.length * colsN u ≤ 1024)
    (herr : mismatches (productOf u e (mmaVal e) id) (upsetsOf 0 parts) = ([], []) ∧ l = upsetsOf 0 parts ∨
      ∃ i j, mismatches (productOf u e (mmaVal e) id) (upsetsOf 0 parts) = ([i], [j]) ∧
        l = (upsetsOf 0 parts).filter (fun p => !(p.row = i && p.col = j))) :
    ∃ t fl, performMultiply parts e [(mmaVal e, id)] u = finishHead 3 e fl 0 0 t ∧
      Multiplied (counted e 1 u) e e.z (accumAt u e e.z (mmaVal e) id l) t fl ∧
      t.dev.ras = (if mismatches (productOf u e (mmaVal e) id) (upsetsOf 0 parts) = ([], []) then u.dev else addRas (coreOf u) 1 1 u.dev).ras := by
  rw [performMultiply_whole hp hw]
  rw [multiplyAll_one, show counted e [(mmaVal e, (id : FV → FV))].length u = counted e 1 u from rfl]
  have hacc := fun us => multiplied_accumulate (counted e 1 u) e e.z (mmaVal e) id us hsize
  obtain ⟨h, rfl⟩ | ⟨i, j, h, rfl⟩ := herr
  · rw [multiply_clean (u := counted e 1 u) hz h, if_pos h]
    exact ⟨_, _, rfl, hacc _, rfl⟩
  · rw [multiply_mended (u := counted e 1 u) hz h, if_neg (by rw [h]; simp)]
    exact ⟨_, _, rfl, (hacc _).withRas _, rfl⟩

theorem performMultiply_spoilt {u : State} {e : Entry} {parts : List (Nat × List Byte)}
    (hp : (wbOf u e.wb).poison = false) (hw : latent u 8 e.wb = false) (hz : latent u 0 e.z = false)
    (h : mismatches (productOf u e (mmaVal e) id) (upsetsOf 0 parts) ≠ ([], []))
    (h1 : ∀ i j, mismatches (productOf u e (mmaVal e) id) (upsetsOf 0 parts) ≠ ([i], [j])) :
    ∃ v fl, performMultiply parts e [(mmaVal e, id)] u =
      finishHead 3 e fl 0 0 (mxFail 0x42 e.z e.seq (poisonTile e.z (setTile e.z v (counted e 1 u)))) := by
  rw [performMultiply_whole hp hw, multiplyAll_one, show counted e [(mmaVal e, (id : FV → FV))].length u = counted e 1 u from rfl,
    multiply_spoilt (u := counted e 1 u) hz h h1]
  exact ⟨_, _, rfl⟩

theorem performMultiply_mmamo {u : State} {e : Entry} {parts : List (Nat × List Byte)}
    (hp : (wbOf u e.wb).poison = false) (hw : latent u 8 e.wb = false) (hz : latent u 0 e.z = false) (hz1 : latent u 0 (e.z + 1) = false)
    (hsize : e.rows.length * colsN u ≤ 1024)
    (herr0 : mismatches (productOf u e (momentVal e false) id) (upsetsOf 0 parts) = ([], []))
    (herr1 : mismatches (productOf u e (momentVal e true) squared) (upsetsOf 1 parts) = ([], [])) :
    ∃ v t fl fl', performMultiply parts e [(momentVal e false, id), (momentVal e true, squared)] u = finishHead 3 e (fl ||| fl') 0 0 t ∧
      Multiplied (counted e 2 u) e e.z (accumAt u e e.z (momentVal e false) id (upsetsOf 0 parts)) v fl ∧
      Multiplied v e (e.z + 1) (accumAt u e (e.z + 1) (momentVal e true) squared (upsetsOf 1 parts)) t fl' := by
  rw [performMultiply_whole hp hw]
  obtain ⟨v, fl, hv, hmul⟩ : ∃ v fl, multiply e e.z (upsetsOf 0 parts) (momentVal e false) id (counted e 2 u) = (v, fl) ∧
      Multiplied (counted e 2 u) e e.z (accumAt u e e.z (momentVal e false) id (upsetsOf 0 parts)) v fl :=
    ⟨_, _, multiply_clean (u := counted e 2 u) hz herr0, multiplied_accumulate (counted e 2 u) e e.z _ _ _ hsize⟩
  have hall : multiplyAll parts e [(momentVal e false, id), (momentVal e true, squared)] (counted e 2 u) =
      (fun y : State × Nat => fun y' : State × Nat => (y'.1, (0 ||| y.2) ||| y'.2))
        (multiply e e.z (upsetsOf 0 parts) (momentVal e false) id (counted e 2 u))
        (multiply e (e.z + 1) (upsetsOf 1 parts) (momentVal e true) squared
          (multiply e e.z (upsetsOf 0 parts) (momentVal e false) id (counted e 2 u)).1) := rfl
  have hfr := hmul.frame
  have hcols : colsN v = colsN u := by rw [hfr]; rfl
  have hwb : wbOf v e.wb = wbOf u e.wb := by rw [hfr]; rfl
  have htile : tileOf v (e.z + 1) = tileOf u (e.z + 1) := hmul.others _ (by omega)
  have hlat : latent v 0 (e.z + 1) = false := by rw [hfr]; exact hz1
  have hprod : productOf v e (momentVal e true) squared = productOf u e (momentVal e true) squared := by
    unfold productOf
    rw [hcols, hwb]
  have hsecond := multiplied_accumulate v e (e.z + 1) (momentVal e true) squared (upsetsOf 1 parts) (by rwa [hcols])
  rw [accumAt_congr hwb hcols htile] at hsecond
  rw [show counted e [(momentVal e false, id), (momentVal e true, squared)].length u = counted e 2 u from rfl, hall, hv]
  dsimp only
  rw [multiply_clean hlat (by rwa [hprod]), Nat.zero_or]
  exact ⟨v, _, fl, _, rfl, hmul, hsecond⟩


/-! ## The events at the head of MXQ (R136 to R145) -/

/-- The head of MXQ stands done. -/
abbrev MxDone (u : State) (e : Entry) (x : EntryDone) (t : State) : Prop := t.slot.mxq = { e with done := some x } :: u.slot.mxq.tail

/-- What is kept for the next `mcommit` after an event (R143). -/
abbrev mxKept (u : State) (e : Entry) (c o : Nat) : Option MxErr := u.slot.mxerr.or (some ⟨c, o, e.seq⟩)

theorem mxDone_of_slot {u d t : State} {e : Entry} {x : EntryDone} (hd : d.slot = u.slot)
    (h : t.slot.mxq = { e with done := some x } :: d.slot.mxq.tail) : MxDone u e x t := by
  rw [MxDone, h, hd]

theorem tile_of_slot {u d : State} (hd : d.slot = u.slot) (z : Nat) : SMap.get 0 d.slot.z z = tileOf u z := by
  rw [hd]
  rfl

section

variable {s : State} {e : Entry}

theorem exec_mmaExecute {t : State} (h : AtHead s 3 .mma e)
    (ht : performMultiply (eventSlot s).dev.arg.parts e [(mmaVal e, id)] (eventSlot s) = t) :
    exec .mmaExecute s = .next (served s 3 t) := by
  rw [eventSlot_arg] at ht
  exact congrArg _ (engineStep_runs h (congrArg some ht))

theorem exec_mmamoExecute {t : State} (h : AtHead s 3 .mmamo e)
    (ht : performMultiply (eventSlot s).dev.arg.parts e [(momentVal e false, id), (momentVal e true, squared)] (eventSlot s) = t) :
    exec .mmamoExecute s = .next (served s 3 t) := by
  rw [eventSlot_arg] at ht
  exact congrArg _ (engineStep_runs h (congrArg some ht))

theorem mmaExecute_poisoned (h : AtHead s 3 .mma e) (hp : (wbOf (eventSlot s) e.wb).poison = true) (hz : e.z < 16) :
    ∃ t, exec .mmaExecute s = .next (served s 3 t) ∧ MxDone (eventSlot s) e ⟨0, 0, 0⟩ t ∧ tilePoisoned t e.z = true ∧
      t.slot.mxerr = mxKept (eventSlot s) e 0x30 (0x100 + e.wb) := by
  obtain ⟨t, hex, hslot⟩ := performMultiply_poisoned (ps := [(mmaVal e, id)]) (eventSlot_role s) hp
  obtain ⟨hq, he, hz'⟩ := spoilTile_slot e.z (mxFail cLoss (0x100 + e.wb) e.seq t)
  rw [mxFail_slot, hslot] at hq he
  refine ⟨_, exec_mmaExecute h hex, congrArg (fun l => _ :: List.tail l) hq, ?_, he⟩
  exact (congrArg (fun p : BitVec 16 => bit p.toNat e.z) hz').trans (testBit_or_pow hz)

theorem mmamoExecute_poisoned (h : AtHead s 3 .mmamo e) (hp : (wbOf (eventSlot s) e.wb).poison = true) (hz : e.z < 15) :
    ∃ t, exec .mmamoExecute s = .next (served s 3 t) ∧ MxDone (eventSlot s) e ⟨0, 0, 0⟩ t ∧ tilePoisoned t e.z = true ∧
      tilePoisoned t (e.z + 1) = true ∧ t.slot.mxerr = mxKept (eventSlot s) e 0x30 (0x100 + e.wb) := by
  obtain ⟨t, hex, hslot⟩ := performMultiply_poisoned (ps := [(momentVal e false, id), (momentVal e true, squared)]) (eventSlot_role s) hp
  obtain ⟨hq, he, hz'⟩ := spoilTile_slot e.z (mxFail cLoss (0x100 + e.wb) e.seq t)
  obtain ⟨hq1, he1, hz1⟩ := spoilTile_slot (e.z + 1) (spoilTile e.z (mxFail cLoss (0x100 + e.wb) e.seq t))
  rw [mxFail_slot, hslot] at hq he
  refine ⟨_, exec_mmamoExecute h hex, congrArg (fun l => _ :: List.tail l) (hq1.trans hq), ?_, ?_, he1.trans he⟩
  · refine (congrArg (fun p : BitVec 16 => bit p.toNat e.z) hz1).trans (bit_or_of_bit ?_)
    exact (congrArg (fun p : BitVec 16 => bit p.toNat e.z) hz').trans (testBit_or_pow (by omega))
  · exact (congrArg (fun p : BitVec 16 => bit p.toNat (e.z + 1)) hz1).trans (testBit_or_pow (by omega))

theorem mmaExecute_spoilt (h : AtHead s 3 .mma e) (hp : (wbOf (eventSlot s) e.wb).poison = false) (hw : latent (eventSlot s) 8 e.wb = false)
    (hz : latent (eventSlot s) 0 e.z = false) (hz16 : e.z < 16)
    (hany : mismatches (productOf (eventSlot s) e (mmaVal e) id) (upsetsOf 0 (eventSlot s).dev.arg.parts) ≠ ([], []))
    (hone : ∀ i j, mismatches (productOf (eventSlot s) e (mmaVal e) id) (upsetsOf 0 (eventSlot s).dev.arg.parts) ≠ ([i], [j])) :
    ∃ t fl, exec .mmaExecute s = .next (served s 3 t) ∧ MxDone (eventSlot s) e ⟨fl, 0, 0⟩ t ∧ tilePoisoned t e.z = true ∧
      t.slot.mxerr = mxKept (eventSlot s) e 0x42 e.z := by
  obtain ⟨v, fl, hex⟩ := performMultiply_spoilt hp hw hz hany hone
  refine ⟨_, fl, exec_mmaExecute h hex, ?_, (mxFail_poisoned ..).trans (poisonTile_poisoned hz16), ?_⟩
  · rw [MxDone, finishHead_eq, mxFail_slot, poisonTile_slot]
    rfl
  · rw [finishHead_eq, mxFail_slot, poisonTile_slot]
    rfl

/-- Tile z zeroed and its marks taken off. -/
def zeroTile (z : Nat) (s : State) : State :=
  { cleanTile z s with slot.z := SMap.set 0 s.slot.z z 0, slot.zdirty := s.slot.zdirty &&& ~~~(BitVec.ofNat 16 (2 ^ z)) }

theorem zeroTile_z (z : Nat) (s : State) : (zeroTile z s).slot.z = SMap.set 0 s.slot.z z 0 := by
  unfold zeroTile
  dsimp only

theorem zeroTile_mxq (z : Nat) (s : State) : (zeroTile z s).slot.mxq = s.slot.mxq := by
  unfold zeroTile
  dsimp only
  rfl

theorem tileOf_zeroTile_self (z : Nat) (s : State) : tileOf (zeroTile z s) z = 0 := by
  rw [tileOf, zeroTile_z, SMap.get_set_self]

theorem tileOf_zeroTile_ne {z k : Nat} (h : k ≠ z) (s : State) : tileOf (zeroTile z s) k = tileOf s k := by
  rw [tileOf, zeroTile_z, SMap.get_set_ne _ _ _ _ _ h, tileOf]

/-- A tile cleared (R138, R345). -/
theorem exec_zclrExecute (h : AtHead s 3 .zclr e) :
    ∃ d, d.slot = (eventSlot s).slot ∧ exec .zclrExecute s = .next (served s 3 (finishHead 3 e 0 0 0 (zeroTile e.z d))) :=
  ⟨dropLatent 0 e.z (eventSlot s), dropLatent_slot _ _ (eventSlot_role s), congrArg _ (engineStep_runs (op := .zclr) h rfl)⟩

theorem zclrExecute_spec (h : AtHead s 3 .zclr e) :
    ∃ t, exec .zclrExecute s = .next (served s 3 t) ∧ MxDone (eventSlot s) e ⟨0, 0, 0⟩ t ∧ tileOf t e.z = 0 ∧
      (∀ z, z ≠ e.z → tileOf t z = tileOf (eventSlot s) z) ∧
      ∀ z, tilePoisoned t z = (tilePoisoned (eventSlot s) z && decide (z ≠ e.z)) ∧
        bit t.slot.zdirty.toNat z = (bit (eventSlot s).slot.zdirty.toNat z && decide (z ≠ e.z)) := by
  obtain ⟨d, hd, hex⟩ := exec_zclrExecute h
  refine ⟨_, hex, mxDone_of_slot hd (by rw [finishHead_eq, zeroTile_mxq]), (tileOf_finishHead ..).trans (tileOf_zeroTile_self ..), fun z hz => ?_, fun z => ⟨?_, ?_⟩⟩
  · exact (tileOf_finishHead ..).trans ((tileOf_zeroTile_ne hz _).trans (tile_of_slot hd z))
  · refine (bit_and_not_ofNat _ e.z z).trans ?_
    rw [hd]
    rfl
  · refine (bit_and_not_ofNat _ e.z z).trans ?_
    rw [hd]

/-- A tile load (R138). -/
theorem exec_zldExecute (h : AtHead s 3 .zld e) :
    (∀ bs v, engRead e e.block.toNat (32 * colsN (eventSlot s)) (eventSlot s) = .ok bs v →
      exec .zldExecute s = .next (served s 3 (finishHead 3 e 0 0 0
        (setTile e.z (BitVec.ofNat 32768 (leNat bs)) (cleanTile e.z (dropLatent 0 e.z (engAnswered e v))))))) ∧
    (∀ c o, engRead e e.block.toNat (32 * colsN (eventSlot s)) (eventSlot s) = .err c o →
      exec .zldExecute s = .next (served s 3 (finishHead 3 e 0 0 0
        (poisonTile e.z (mxFail c (mxOrigin c o e.z) e.seq (engAnswered e (eventSlot s))))))) := by
  refine ⟨fun bs v hr => congrArg _ (engineStep_runs (op := .zld) h ?_), fun c o hr => congrArg _ (engineStep_runs (op := .zld) h ?_)⟩ <;>
    simp only [hr]

theorem zldExecute_ok (h : AtHead s 3 .zld e) {bs : List Byte} {v : State}
    (hr : engRead e e.block.toNat (32 * colsN (eventSlot s)) (eventSlot s) = .ok bs v) :
    ∃ t, exec .zldExecute s = .next (served s 3 t) ∧ MxDone (eventSlot s) e ⟨0, 0, 0⟩ t ∧ tileOf t e.z = BitVec.ofNat 32768 (leNat bs) ∧
      (∀ z, z ≠ e.z → tileOf t z = tileOf (eventSlot s) z) ∧ tilePoisoned t e.z = false := by
  have hv := engRead_frame hr
  have hrole : (engAnswered e v).cur.2 = 1 := by rw [engAnswered_cur, hv]; exact eventSlot_role s
  have hd : (dropLatent 0 e.z (engAnswered e v)).slot = (eventSlot s).slot := by rw [dropLatent_slot _ _ hrole, engAnswered_slot, hv]
  refine ⟨_, (exec_zldExecute h).1 bs v hr, mxDone_of_slot hd rfl, tileOf_setTile_self .., fun z hz => ?_, ?_⟩
  · exact (tileOf_setTile_ne hz _ _).trans (tile_of_slot hd z)
  · exact (bit_and_not_ofNat _ e.z e.z).trans (by simp)

theorem zldExecute_err (h : AtHead s 3 .zld e) {c o : Nat} (hz : e.z < 16)
    (hr : engRead e e.block.toNat (32 * colsN (eventSlot s)) (eventSlot s) = .err c o) :
    ∃ t, exec .zldExecute s = .next (served s 3 t) ∧ MxDone (eventSlot s) e ⟨0, 0, 0⟩ t ∧ t.slot.z = (eventSlot s).slot.z ∧
      tilePoisoned t e.z = true ∧ t.slot.mxerr = mxKept (eventSlot s) e c (mxOrigin c o e.z) := by
  refine ⟨_, (exec_zldExecute h).2 c o hr, ?_, ?_, poisonTile_poisoned hz, ?_⟩ <;>
    simp only [MxDone, finishHead_eq, poisonTile_slot, mxFail_slot, engAnswered_slot]

/-- A tile store (R138). -/
theorem exec_zstExecute (h : AtHead s 3 .zst e) :
    (tilePoisoned (meetTile e.z e.seq (eventSlot s)) e.z = true → exec .zstExecute s =
      .next (served s 3 (finishHead 3 e 0 0 0 (mxFail cLoss e.z e.seq (meetTile e.z e.seq (eventSlot s)))))) ∧
    (tilePoisoned (meetTile e.z e.seq (eventSlot s)) e.z = false →
      (∀ v, engWrite e e.block.toNat (leBytes (32 * colsN (eventSlot s)) (tileOf (eventSlot s) e.z).toNat) (eventSlot s) = .ok () v →
        exec .zstExecute s = .next (served s 3 (finishHead 3 e 0 0 0 (engAnswered e v)))) ∧
      (∀ c o, engWrite e e.block.toNat (leBytes (32 * colsN (eventSlot s)) (tileOf (eventSlot s) e.z).toNat) (eventSlot s) = .err c o →
        exec .zstExecute s = .next (served s 3 (finishHead 3 e 0 0 0 (mxFail c (mxOrigin c o e.z) e.seq (engAnswered e (eventSlot s))))))) := by
  refine ⟨fun hp => congrArg _ (engineStep_runs (op := .zst) h ?_), fun hp => ⟨fun v hw => congrArg _ (engineStep_runs (op := .zst) h ?_),
    fun c o hw => congrArg _ (engineStep_runs (op := .zst) h ?_)⟩⟩
  · simp only [hp, if_true]
  · simp only [hp, hw, Bool.false_eq_true, if_false]
  · simp only [hp, hw, Bool.false_eq_true, if_false]

theorem zstExecute_latent (h : AtHead s 3 .zst e) (hl : latent (eventSlot s) 0 e.z = true) (hz : e.z < 16) :
    ∃ t, exec .zstExecute s = .next (served s 3 t) ∧ MxDone (eventSlot s) e ⟨0, 0, 0⟩ t ∧ tilePoisoned t e.z = true ∧
      t.slot.mxerr = mxKept (eventSlot s) e 0x30 e.z := by
  have hm : meetTile e.z e.seq (eventSlot s) = mxFail cLoss e.z e.seq (poisonTile e.z (dropLatent 0 e.z (eventSlot s))) := if_pos hl
  have hp : tilePoisoned (meetTile e.z e.seq (eventSlot s)) e.z = true := meetTile_poisoned hz hl
  refine ⟨_, (exec_zstExecute h).1 hp, ?_, (mxFail_poisoned ..).trans hp, ?_⟩ <;>
    rw [hm] <;> simp only [MxDone, finishHead_eq, poisonTile_slot, mxFail_slot, dropLatent_slot _ _ (eventSlot_role s)]
  unfold mxKept
  cases (eventSlot s).slot.mxerr <;> rfl

theorem zstExecute_poisoned (h : AtHead s 3 .zst e) (hl : latent (eventSlot s) 0 e.z = false) (hp : tilePoisoned (eventSlot s) e.z = true) :
    ∃ t, exec .zstExecute s = .next (served s 3 t) ∧ MxDone (eventSlot s) e ⟨0, 0, 0⟩ t ∧ t.dev = (eventSlot s).dev ∧
      t.slot.mxerr = mxKept (eventSlot s) e 0x30 e.z := by
  have hex := (exec_zstExecute h).1
  rw [meetTile_whole hl] at hex
  refine ⟨_, hex hp, ?_, mxFail_dev .., ?_⟩ <;> simp only [MxDone, finishHead_eq, mxFail_slot, cLoss]

theorem zstExecute_ok (h : AtHead s 3 .zst e) (hl : latent (eventSlot s) 0 e.z = false) (hp : tilePoisoned (eventSlot s) e.z = false) {v : State}
    (hw : engWrite e e.block.toNat (leBytes (32 * colsN (eventSlot s)) (tileOf (eventSlot s) e.z).toNat) (eventSlot s) = .ok () v) :
    ∃ t, exec .zstExecute s = .next (served s 3 t) ∧ MxDone (eventSlot s) e ⟨0, 0, 0⟩ t ∧ t.dev = (engAnswered e v).dev ∧
      t.slot.z = (eventSlot s).slot.z ∧ t.slot.mxerr = (eventSlot s).slot.mxerr := by
  have hex := (exec_zstExecute h).2
  rw [meetTile_whole hl] at hex
  have hv : v.slot = (eventSlot s).slot := by rw [engWrite_frame hw]
  refine ⟨_, (hex hp).1 v hw, ?_, rfl, ?_, ?_⟩ <;> simp only [MxDone, finishHead_eq, engAnswered_slot, hv]

theorem zstExecute_err (h : AtHead s 3 .zst e) (hl : latent (eventSlot s) 0 e.z = false) (hp : tilePoisoned (eventSlot s) e.z = false) {c o : Nat}
    (hw : engWrite e e.block.toNat (leBytes (32 * colsN (eventSlot s)) (tileOf (eventSlot s) e.z).toNat) (eventSlot s) = .err c o) :
    ∃ t, exec .zstExecute s = .next (served s 3 t) ∧ MxDone (eventSlot s) e ⟨0, 0, 0⟩ t ∧ t.dev = (engAnswered e (eventSlot s)).dev ∧
      t.slot.mxerr = mxKept (eventSlot s) e c (mxOrigin c o e.z) := by
  have hex := (exec_zstExecute h).2
  rw [meetTile_whole hl] at hex
  refine ⟨_, (hex hp).2 c o hw, ?_, mxFail_dev .., ?_⟩ <;> simp only [MxDone, finishHead_eq, mxFail_slot, engAnswered_slot]

/-- A barrier told what is kept. -/
def toldBar (x : Option MxErr) (b : Bar) : Bar :=
  match x with
  | some r => barErr 4 r.cause r.origin r.seq b
  | none => b

/-- The barrier of the head of MXQ told what is kept (R143). -/
theorem exec_mcommitArrival (h : AtHead s 3 .mcommit e) {t : State}
    (ht : t = settleAll (updateBar e.bar (fun b => barArrive (toldBar (eventSlot s).slot.mxerr b)) { eventSlot s with
      slot.mxq := (eventSlot s).slot.mxq.tail, slot.mxerr := none,
      slot.out := SMap.set 0 (eventSlot s).slot.out e.bar (outOf (eventSlot s) e.bar - 1) })) :
    exec .mcommitArrival s = .next (served s 3 t) := by
  subst ht
  exact congrArg _ (engineStep_runs (op := .mcommit) h rfl)

/-- The descriptor of a fill. -/
abbrev fillDesc (e : Entry) : Nat := bits e.block.toNat 0 256

/-- The slot of a fill, with what a failed fill keeps of the block. -/
def fillKept (e : Entry) (s : State) : State :=
  setWb e.wb { wbOf s e.wb with
    desc := BitVec.ofNat 256 (bits e.block.toNat 0 256), book := BitVec.ofNat 256 (bits e.block.toNat 256 256), n := e.vl } s

/-- A fill that fails with a cause after `got` bytes (R140). -/
def fillFailed (e : Entry) (c o got : Nat) (s : State) : State :=
  let at' := mxOrigin c o (0x100 + e.wb)
  finishHead 3 e got c at' (poisonWb e.wb (fillKept e (mxFail c at' e.seq (engAnswered e s))))

/-- A weight fill (R140). -/
theorem exec_wbFill (h : AtHead s 3 .wbfill e) :
    (∀ bs side v w, engRead e (wBase (fillDesc e)) (wElemBytes (fillDesc e) e.vl) (eventSlot s) = .ok bs v → engRead e (wSide (fillDesc e)) (wSideBytes (fillDesc e) e.vl) v = .ok side w →
      exec .wbFill s = .next (served s 3 (finishHead 3 e (bs.length + side.length) 0 0 (setWb e.wb
        ⟨true, BitVec.ofNat 256 (fillDesc e), BitVec.ofNat 256 (bits e.block.toNat 256 256), e.vl, bs, side, false⟩
        (dropLatent 8 e.wb (engAnswered e w)))))) ∧
    (∀ c o, engRead e (wBase (fillDesc e)) (wElemBytes (fillDesc e) e.vl) (eventSlot s) = .err c o →
      exec .wbFill s = .next (served s 3 (fillFailed e c o (goodPrefix e (wBase (fillDesc e)) (wElemBytes (fillDesc e) e.vl) (eventSlot s)) (eventSlot s)))) ∧
    (∀ bs v c o, engRead e (wBase (fillDesc e)) (wElemBytes (fillDesc e) e.vl) (eventSlot s) = .ok bs v → engRead e (wSide (fillDesc e)) (wSideBytes (fillDesc e) e.vl) v = .err c o →
      exec .wbFill s = .next (served s 3
        (fillFailed e c o (bs.length + goodPrefix e (wSide (fillDesc e)) (wSideBytes (fillDesc e) e.vl) v) (eventSlot s)))) := by
  refine ⟨fun bs side v w hr hr' => congrArg _ (engineStep_runs (op := .wbfill) h ?_),
    fun c o hr => congrArg _ (engineStep_runs (op := .wbfill) h ?_), fun bs v c o hr hr' => congrArg _ (engineStep_runs (op := .wbfill) h ?_)⟩
  · simp only [fillDesc] at hr hr'
    simp only [hr, hr']
  · simp only [fillDesc] at hr
    simp only [hr]
    rfl
  · simp only [fillDesc] at hr hr'
    simp only [hr, hr']
    rfl

theorem fillFailed_spec (e : Entry) (c o got : Nat) (u : State) :
    (wbOf (fillFailed e c o got u) e.wb).poison = true ∧ (fillFailed e c o got u).slot.mxerr = mxKept u e c (mxOrigin c o (0x100 + e.wb)) ∧
      MxDone u e ⟨got, c, mxOrigin c o (0x100 + e.wb)⟩ (fillFailed e c o got u) := by
  obtain ⟨hslot, hp⟩ := poisonWb_slot e.wb (fillKept e (mxFail c (mxOrigin c o (0x100 + e.wb)) e.seq (engAnswered e u)))
  refine ⟨hp, ?_, ?_⟩
  · unfold fillFailed
    dsimp only
    rw [finishHead_eq, hslot]
    simp only [fillKept, setWb, mxFail_slot, engAnswered_slot]
  · unfold fillFailed
    dsimp only
    rw [MxDone, finishHead_eq, hslot]
    simp only [fillKept, setWb, mxFail_slot, engAnswered_slot]

theorem wbFill_ok (h : AtHead s 3 .wbfill e) {bs side : List Byte} {v w : State}
    (hr : engRead e (wBase (fillDesc e)) (wElemBytes (fillDesc e) e.vl) (eventSlot s) = .ok bs v)
    (hr' : engRead e (wSide (fillDesc e)) (wSideBytes (fillDesc e) e.vl) v = .ok side w) :
    ∃ t, exec .wbFill s = .next (served s 3 t) ∧
      wbOf t e.wb = ⟨true, BitVec.ofNat 256 (fillDesc e), BitVec.ofNat 256 (bits e.block.toNat 256 256), e.vl, bs, side, false⟩ ∧
      (∀ k, k ≠ e.wb → wbOf t k = wbOf (eventSlot s) k) ∧ MxDone (eventSlot s) e ⟨bs.length + side.length, 0, 0⟩ t := by
  have hw : w.slot = (eventSlot s).slot ∧ w.cur = (eventSlot s).cur := by
    rw [engRead_frame hr', engRead_frame hr]
    exact ⟨rfl, rfl⟩
  have hrole : (engAnswered e w).cur.2 = 1 := by rw [engAnswered_cur, hw.2]; exact eventSlot_role s
  have hd : (dropLatent 8 e.wb (engAnswered e w)).slot = (eventSlot s).slot := by rw [dropLatent_slot _ _ hrole, engAnswered_slot, hw.1]
  refine ⟨_, (exec_wbFill h).1 bs side v w hr hr', (wbOf_finishHead ..).trans (wbOf_setWb_self ..), fun k hk => ?_, mxDone_of_slot hd rfl⟩
  refine (wbOf_finishHead ..).trans ((wbOf_setWb_ne hk _ _).trans ?_)
  unfold wbOf
  rw [hd]

/-- A multiply that meets nothing (R136, R144, R145). -/
theorem mmaExecute_ok (h : AtHead s 3 .mma e) {l : List Upset}
    (hp : (wbOf (eventSlot s) e.wb).poison = false) (hw : latent (eventSlot s) 8 e.wb = false) (hz : latent (eventSlot s) 0 e.z = false)
    (hsize : e.rows.length * colsN (eventSlot s) ≤ 1024)
    (herr : mismatches (productOf (eventSlot s) e (mmaVal e) id) (upsetsOf 0 (eventSlot s).dev.arg.parts) = ([], []) ∧
        l = upsetsOf 0 (eventSlot s).dev.arg.parts ∨
      ∃ i j, mismatches (productOf (eventSlot s) e (mmaVal e) id) (upsetsOf 0 (eventSlot s).dev.arg.parts) = ([i], [j]) ∧
        l = (upsetsOf 0 (eventSlot s).dev.arg.parts).filter (fun p => !(p.row = i && p.col = j))) :
    ∃ t fl, exec .mmaExecute s = .next (served s 3 (finishHead 3 e fl 0 0 t)) ∧
      Multiplied (counted e 1 (eventSlot s)) e e.z (accumAt (eventSlot s) e e.z (mmaVal e) id l) t fl ∧
      t.dev.ras = (if mismatches (productOf (eventSlot s) e (mmaVal e) id) (upsetsOf 0 (eventSlot s).dev.arg.parts) = ([], []) then (eventSlot s).dev
        else addRas (coreOf (eventSlot s)) 1 1 (eventSlot s).dev).ras := by
  obtain ⟨t, fl, hex, hmul, hras⟩ := performMultiply_mma hp hw hz hsize herr
  exact ⟨t, fl, exec_mmaExecute h hex, hmul, hras⟩

end

/-- Settles O54: at the slot's turn each operation is one function of the head and the state in focus, whose changes the lemmas above say. -/
theorem matrixEvents : Obligations.MatrixEvents := by
  unfold Obligations.MatrixEvents
  intro s e u slot back n rows head Done kept Tile raises us mean var x mended OnlyTiles errors none' clear
  have hat : ∀ {op}, head op → AtHead s 3 op e := fun h => ⟨h.1, h.2⟩
  refine ⟨?mma, ?mmamo, fun hh => mmaExecute_poisoned (hat hh), fun hh => mmamoExecute_poisoned (hat hh), ?mmaSpoilt,
    fun hh => zclrExecute_spec (hat hh), fun hh => ⟨fun bs v => zldExecute_ok (hat hh), fun c o hr hz => zldExecute_err (hat hh) hz hr⟩,
    fun hh => zstExecute_latent (hat hh), ?zst, ?wbfill, ?mcommit⟩
  case mma =>
    rintro hh ⟨hp, hw, hz, hsize⟩ l hl
    obtain ⟨t, fl, hex, hmul, hras⟩ := mmaExecute_ok (hat hh) hp hw hz hsize hl
    have hfr := multiplied_counted hmul
    refine ⟨_, fl, hex, ?_, ?_, hmul.cells, hmul.others, hmul.flags, hras⟩
    · rw [hfr]
      rfl
    · rw [hfr]
      rfl
  case mmamo =>
    rintro hh ⟨hp, hw, hz, hsize⟩ ⟨-, -, hz1, -⟩ h0 h1
    obtain ⟨v, t, fl, fl', hex, hmean, hvar⟩ := performMultiply_mmamo hp hw hz hz1 hsize h0 h1
    have hcols : colsN v = colsN u := by rw [hmean.frame]; rfl
    have hfr := hvar.frame
    rw [multiplied_counted hmean] at hfr
    refine ⟨_, fl ||| fl', exec_mmamoExecute (hat hh) hex, ?_, ?_, fun i hi => ?_, fun i hi => ?_, ?_, fun b => ?_⟩
    · rw [hfr]
      rfl
    · rw [hfr]
      rfl
    · exact (congrArg (fun b : KReg => elemOf b.toNat 32 i) (hvar.others e.z (by omega))).trans (hmean.cells i hi)
    · have h := hvar.cells i hi
      rw [hcols, hmean.others (e.z + 1) (by omega)] at h
      exact h
    · exact fun z hz hz' => (hvar.others z hz').trans (hmean.others z hz)
    · have h := hvar.flags b
      rw [hcols] at h
      rw [Nat.testBit_or, Bool.or_eq_true]
      exact or_congr (hmean.flags b) h
  case mmaSpoilt =>
    rintro hh ⟨hp, hw, hz, -⟩ hz16 hany hone
    exact mmaExecute_spoilt (hat hh) hp hw hz hz16 hany hone
  case zst =>
    exact fun hh hl => ⟨zstExecute_poisoned (hat hh) hl, fun hp => ⟨fun v => zstExecute_ok (hat hh) hl hp, fun c o => zstExecute_err (hat hh) hl hp⟩⟩
  case mcommit =>
    intro hh
    refine exec_mcommitArrival (hat hh) ?_
    rfl
  case wbfill =>
    intro hh d book
    refine ⟨fun bs side v w => wbFill_ok (hat hh), fun c o hr => ?_, fun bs v c o hr hr' => ?_⟩
    · exact ⟨_, (exec_wbFill (hat hh)).2.1 c o hr, fillFailed_spec ..⟩
    · exact ⟨_, (exec_wbFill (hat hh)).2.2 bs v c o hr hr', fillFailed_spec ..⟩

end Sys2Proof.Machine
end

section
/-! PROOFS. One turn of the copy, gather, scatter and collective engines (for O55). -/

namespace Sys2Proof.Machine

/-! ## Copies (R270) -/

/-- The elements of a copy carried out in one turn are those of its span. -/
theorem copyRun_span (q : Nat) (e : Entry) {m p fuel left : Nat} {acc x : List Nat × List (Nat × Byte × Byte)} {s v : State}
    (h : copySpan e m p s = .ok x v) (hend : p + m ≤ dCount (cSrc e.block.toNat)) (hfuel : m ≤ fuel) (hleft : m ≤ left) :
    copyRun q fuel left { e with prog := p } acc s =
      copyRun q (fuel - m) (left - m) { e with prog := p + m } (acc.1 ++ x.1, acc.2 ++ x.2) v := by
  induction m generalizing p fuel left acc x s with
  | zero =>
    cases h
    simp
  | succ m ih =>
    obtain ⟨y, w, hy, h⟩ := Eng.bind_eq_ok h
    obtain ⟨z, w', hz, h⟩ := Eng.bind_eq_ok h
    cases h
    obtain ⟨fuel, rfl⟩ : ∃ n, fuel = n + 1 := ⟨fuel - 1, by omega⟩
    have hstep : copyStep { e with prog := p } p s = .ok y w := hy
    rw [copyRun]
    dsimp only
    rw [if_neg (by omega), if_neg (by simp; omega), hstep]
    dsimp only
    rw [ih hz (by omega) (by omega) (by omega), Nat.add_sub_add_right, Nat.sub_sub, Nat.add_comm 1 m, List.append_assoc, List.append_assoc,
      Nat.add_assoc, Nat.add_comm 1 m]

variable {s : State} {e : Entry}

theorem exec_cpyExecute {t : State} (h : AtHead s 0 .cpy e)
    (ht : copyRun (e.prog + 1) (dCount (cSrc e.block.toNat) + 1) (turnCount (eventSlot s).dev.arg.num (dCount (cSrc e.block.toNat) + 1)) e ([], [])
      (eventSlot s) = some t) : exec .cpyExecute s = .next (served s 0 t) := by
  rw [eventSlot_arg] at ht
  exact congrArg _ (engineStep_runs h ht)

/-- A turn of a copy that reaches what its `num` asks for (R270). -/
theorem cpyExecute_span (h : AtHead s 0 .cpy e) {m : Nat} {x : List Nat × List (Nat × Byte × Byte)} {v : State}
    (hspan : copySpan e m e.prog (eventSlot s) = .ok x v) (hend : e.prog + m ≤ dCount (cSrc e.block.toNat))
    (hnum : (eventSlot s).dev.arg.num = 0 ∨ m ≤ (eventSlot s).dev.arg.num) {t : State}
    (ht : copyRun (e.prog + 1) (dCount (cSrc e.block.toNat) + 1 - m) (turnCount (eventSlot s).dev.arg.num (dCount (cSrc e.block.toNat) + 1) - m)
      { e with prog := e.prog + m } x v = some t) : exec .cpyExecute s = .next (served s 0 t) := by
  refine exec_cpyExecute h ?_
  have hleft : m ≤ turnCount (eventSlot s).dev.arg.num (dCount (cSrc e.block.toNat) + 1) := by
    unfold turnCount
    split <;> omega
  exact (copyRun_span _ e hspan hend (by omega) hleft).trans ht

theorem copyRun_done (q n left : Nat) {e : Entry} {acc : List Nat × List (Nat × Byte × Byte)} {s : State}
    (h : dCount (cSrc e.block.toNat) ≤ e.prog) :
    copyRun q n left e acc s = some (finishHead 0 e (copyBytes e.block.toNat (dCount (cSrc e.block.toNat))) 0 0 (copyPut e acc.1 acc.2 s)) := by
  rw [copyRun.eq_def]
  exact if_pos h

theorem copyRun_line (q n : Nat) {e : Entry} {acc : List Nat × List (Nat × Byte × Byte)} {s : State}
    (h : e.prog < dCount (cSrc e.block.toNat)) (hl : newCopyLine e = true) :
    copyRun q n 0 e acc s = some (setHead 0 e (copyPut e acc.1 acc.2 s)) := by
  rw [copyRun.eq_def]
  dsimp only
  rw [if_neg (by omega)]
  cases n with
  | zero => rfl
  | succ n => exact if_pos (by simp [hl])

theorem copyRun_fault (q n left : Nat) {e : Entry} {acc : List Nat × List (Nat × Byte × Byte)} {s : State} {c o : Nat}
    (h : e.prog < dCount (cSrc e.block.toNat)) (herr : copyStep e e.prog s = .err c o) :
    copyRun q (n + 1) (left + 1) e acc s = some (finishHead 0 e (copyBytes e.block.toNat e.prog) c o (copyPut e acc.1 acc.2 s)) := by
  rw [copyRun, if_neg (by omega), if_neg (by simp), herr]

/-- Copies, as O55 states them. -/
theorem cpyExecute_spec (h : AtHead s 0 .cpy e) {m : Nat} {x : List Nat × List (Nat × Byte × Byte)} {v : State}
    (hspan : copySpan e m e.prog (eventSlot s) = .ok x v) (hend : e.prog + m ≤ dCount (cSrc e.block.toNat)) :
    ((eventSlot s).dev.arg.num = m ∧ 0 < m ∨ (eventSlot s).dev.arg.num = 0 ∧ e.prog + m = dCount (cSrc e.block.toNat) →
      (e.prog + m = dCount (cSrc e.block.toNat) → exec .cpyExecute s =
        .next (served s 0 (finishHead 0 { e with prog := e.prog + m } (copyBytes e.block.toNat (e.prog + m)) 0 0 (copyPut e x.1 x.2 v)))) ∧
      (e.prog + m < dCount (cSrc e.block.toNat) → newCopyLine { e with prog := e.prog + m } = true →
        exec .cpyExecute s = .next (served s 0 (setHead 0 { e with prog := e.prog + m } (copyPut e x.1 x.2 v))))) ∧
    (∀ c o, (eventSlot s).dev.arg.num = 0 ∨ m < (eventSlot s).dev.arg.num → e.prog + m < dCount (cSrc e.block.toNat) →
      copyStep e (e.prog + m) v = .err c o → exec .cpyExecute s =
        .next (served s 0 (finishHead 0 { e with prog := e.prog + m } (copyBytes e.block.toNat (e.prog + m)) c o (copyPut e x.1 x.2 v)))) := by
  refine ⟨fun hnum => ⟨fun hall => ?_, fun hmore hl => ?_⟩, fun c o hnum hmore herr => ?_⟩
  · refine cpyExecute_span h hspan hend (by omega) ((copyRun_done _ _ _ (by exact hall.ge)).trans ?_)
    rw [← hall]
    rfl
  · refine cpyExecute_span h hspan hend (by omega) ?_
    rw [show turnCount (eventSlot s).dev.arg.num (dCount (cSrc e.block.toNat) + 1) - m = 0 by unfold turnCount; split <;> omega]
    exact copyRun_line _ _ hmore hl
  · refine cpyExecute_span h hspan hend (by omega) ?_
    obtain ⟨n, hn⟩ : ∃ n, dCount (cSrc e.block.toNat) + 1 - m = n + 1 := ⟨dCount (cSrc e.block.toNat) - m, by omega⟩
    obtain ⟨k, hk⟩ : ∃ k, turnCount (eventSlot s).dev.arg.num (dCount (cSrc e.block.toNat) + 1) - m = k + 1 := by
      refine ⟨turnCount (eventSlot s).dev.arg.num (dCount (cSrc e.block.toNat) + 1) - m - 1, ?_⟩
      unfold turnCount
      split <;> omega
    rw [hn, hk]
    exact copyRun_fault _ _ _ hmore herr

/-! ## Gathers (R272) -/

/-- A gather after its last element of a turn. -/
def gatherLeft (e : Entry) (v : State) : State := if e.prog = gCount e.block.toNat then finishHead 1 e e.acc e.cls e.z v else setHead 1 e v

theorem gatherRun_zero (q : Nat) {e : Entry} {v : State} (h : e.prog ≤ gCount e.block.toNat) : gatherRun q 0 e v = some (gatherLeft e v) := by
  rw [gatherRun.eq_def]
  unfold gatherLeft
  dsimp only
  by_cases hp : e.prog = gCount e.block.toNat
  · rw [if_pos hp.ge, if_pos hp]
  · rw [if_neg (by omega), if_neg hp]

/-- The entry after an element that failed: the first cause is kept. -/
def gatherFailed (e : Entry) (c o : Nat) : Entry := if e.cls = 0 then { e with prog := e.prog + 1, cls := c, z := o } else { e with prog := e.prog + 1 }

theorem gatherFailed_left (e : Entry) (c o : Nat) (v : State) : gatherLeft (gatherFailed e c o) v =
    if e.prog + 1 = gCount e.block.toNat then
      finishHead 1 (gatherFailed e c o) (gatherFailed e c o).acc (gatherFailed e c o).cls (gatherFailed e c o).z v
    else setHead 1 (gatherFailed e c o) v := by
  unfold gatherFailed
  split <;> rfl

theorem exec_rgathExecute {t : State} (h : AtHead s 1 .rgath e) (hone : (eventSlot s).dev.arg.num = 1)
    (ht : gatherRun (e.prog + 1) 1 e (eventSlot s) = some t) : exec .rgathExecute s = .next (served s 1 t) := by
  rw [eventSlot_arg] at hone
  refine congrArg _ (engineStep_runs h ?_)
  rw [hone]
  exact ht

section

variable (h : AtHead s 1 .rgath e) (hone : (eventSlot s).dev.arg.num = 1) (hp : e.prog < gCount e.block.toNat)

include h hone hp

theorem rgathExecute_err {c o : Nat} (herr : gatherStep e e.prog (eventSlot s) = .err c o) :
    exec .rgathExecute s = .next (served s 1 (gatherLeft (gatherFailed e c o) (engAnswered e (eventSlot s)))) := by
  refine exec_rgathExecute h hone ?_
  rw [gatherRun]
  rw [if_neg (by omega), herr]
  refine gatherRun_zero (e := gatherFailed e c o) _ ?_
  unfold gatherFailed
  split <;> exact hp

theorem rgathExecute_ok {v : State} (hok : gatherStep e e.prog (eventSlot s) = .ok () v) :
    exec .rgathExecute s =
      .next (served s 1 (gatherLeft { e with prog := e.prog + 1, acc := e.acc + gSize e.block.toNat } (engAnswered e v))) := by
  refine exec_rgathExecute h hone ?_
  rw [gatherRun]
  rw [if_neg (by omega), hok]
  exact gatherRun_zero _ hp

theorem rgathExecute_asks {dn o k n : Nat} (hw : gatherStep e e.prog (eventSlot s) = .wait dn (some (o, k, n))) :
    exec .rgathExecute s = .next (served s 1 { setHead 1 e (eventSlot s) with dev := sendReq o k n (setHead 1 e (eventSlot s)).dev }) := by
  refine exec_rgathExecute h hone ?_
  rw [gatherRun]
  dsimp only
  rw [if_neg (by omega), hw]
  rfl

theorem rgathExecute_waits {dn : Nat} (hw : gatherStep e e.prog (eventSlot s) = .wait dn none) :
    exec .rgathExecute s = .next (focus (setHead 1 { e with idle := true } (eventSlot s)) s.cur.1 s.cur.2) := by
  rw [eventSlot_arg] at hone
  refine congrArg _ (engineStep_idle h ?_)
  rw [hone, show turnCount 1 (gCount e.block.toNat + 1) = 1 from rfl, gatherRun]
  rw [if_neg (by omega), hw]
  exact if_neg (by omega)

end

theorem gatherStep_list {k c o : Nat} {u : State} (hr : engRead e (wrap (gList e.block.toNat + 8 * k)) 8 u = .err c o) :
    gatherStep e k u = .err c o := by
  unfold gatherStep listed
  rw [hr]
  rfl

theorem gatherStep_misaligned {k : Nat} {u v : State} {ab : List Byte} (hr : engRead e (wrap (gList e.block.toNat + 8 * k)) 8 u = .ok ab v)
    (ha : leNat ab % gSize e.block.toNat ≠ 0) : gatherStep e k u = .err 0x0C 0 := by
  unfold gatherStep listed
  rw [hr]
  dsimp only [Eng.bind]
  rw [if_pos ha]

/-- An aligned address listed: the element is read there and written. -/
theorem gatherStep_listed {k : Nat} {u v : State} {ab : List Byte} (hr : engRead e (wrap (gList e.block.toNat + 8 * k)) 8 u = .ok ab v)
    (ha : leNat ab % gSize e.block.toNat = 0) : gatherStep e k u = (engRead e (leNat ab) (gSize e.block.toNat) v).bind
      (fun bs w => engWrite e (wrap (gLocal e.block.toNat + k * gSize e.block.toNat)) bs w) := by
  unfold gatherStep listed
  rw [hr]
  dsimp only [Eng.bind]
  rw [if_neg (by simpa using ha)]

/-! ## Trains of a scatter (R273) -/

/-- A list cut into pieces: they make it up, each of at most n, and are numbered in turn. -/
theorem cutInto_spec {n : Nat} (hn : 0 < n) : ∀ (fuel i : Nat) (l : List Sent), l.length ≤ fuel →
    (cutInto n fuel i l).flatMap Prod.snd = l ∧ (∀ p ∈ cutInto n fuel i l, p.2.length ≤ n) ∧
      ∀ k p, (cutInto n fuel i l)[k]? = some p → p.1 = i + k
  | 0, i, l, h => by
    cases List.length_eq_zero_iff.mp (Nat.le_zero.mp h)
    simp [cutInto]
  | fuel + 1, i, l, h => by
    unfold cutInto
    by_cases hl : l.length ≤ n
    · rw [if_pos hl]
      refine ⟨by simp, by simpa using hl, fun k p hk => ?_⟩
      obtain ⟨rfl, rfl⟩ : k = 0 ∧ p = (i, l) := by
        cases k with
        | zero => simpa [eq_comm] using hk
        | succ k => simp at hk
      rfl
    · rw [if_neg hl]
      obtain ⟨hall, hlen, hnum⟩ := cutInto_spec hn fuel (i + 1) (l.drop n) (by rw [List.length_drop]; omega)
      refine ⟨?_, ?_, fun k p hk => ?_⟩
      · rw [List.flatMap_cons, hall, List.take_append_drop]
      · rintro p (_ | ⟨_, hp⟩)
        · exact List.length_take_le n l
        · exact hlen p hp
      · cases k with
        | zero =>
          cases hk
          rfl
        | succ k => rw [hnum k p (by simpa using hk), Nat.add_assoc, Nat.add_comm 1]

/-- The train of one device: its elements in order, in segments of at most 4 KiB, the last one marked. -/
theorem trainOf_spec (own : Nat) {z : Nat} (hz : 0 < z) (hz64 : z ≤ 64) (tail : Option Nat) (dn : Nat) (xs : List Sent) :
    let l := trainOf own z tail dn xs
    (∀ g ∈ l, g.train = dn ∧ g.tail = tail ∧ g.elems.length * z ≤ 4096) ∧ l.flatMap (·.elems) = xs.filter (fun x => sentDev own x = dn) ∧
      ∀ i g, l[i]? = some g → (g.last = true ↔ i + 1 = l.length) := by
  intro l
  have hn : 0 < 4096 / z := Nat.div_pos (by omega) hz
  obtain ⟨hall, hlen, hnum⟩ := cutInto_spec hn _ 0 (xs.filter (fun x => sentDev own x = dn)) le_rfl
  refine ⟨fun g hg => ?_, ?_, fun i g hg => ?_⟩
  · obtain ⟨p, hp, rfl⟩ := List.mem_map.mp hg
    exact ⟨rfl, rfl, (Nat.mul_le_mul_right z (hlen p hp)).trans (Nat.div_mul_le_self 4096 z)⟩
  · show ((cutInto _ _ _ _).map _).flatMap _ = _
    rw [List.flatMap_map]
    exact hall
  · obtain ⟨p, hp, rfl⟩ := Option.map_eq_some_iff.mp ((List.getElem?_map (f := _)).symm.trans hg)
    rw [show l.length = (cutInto (4096 / z) (xs.filter (fun x => sentDev own x = dn)).length 0 (xs.filter (fun x => sentDev own x = dn))).length from
      List.length_map ..]
    simp only [hnum i p hp, Nat.zero_add, decide_eq_true_eq]

theorem gSize_pos (b : Nat) : 0 < gSize b := Nat.two_pow_pos _

/-- Segments made for each of some devices, of which those of one are its own. -/
theorem filter_flatMap_train {f : Nat → List Segment} (hf : ∀ d, ∀ g ∈ f d, g.train = d) (dn : Nat) :
    ∀ l : List Nat, l.Nodup → (l.flatMap f).filter (fun g => g.train = dn) = if dn ∈ l then f dn else []
  | [], _ => rfl
  | d :: l, h => by
    obtain ⟨hd, hl⟩ := List.nodup_cons.mp h
    rw [List.flatMap_cons, List.filter_append, filter_flatMap_train hf dn l hl]
    by_cases hdn : d = dn
    · subst hdn
      rw [List.filter_eq_self.mpr (fun g hg => by simpa using hf d g hg), if_neg hd, if_pos List.mem_cons_self, List.append_nil]
    · rw [List.filter_eq_nil_iff.mpr (fun g hg => by simpa [hf d g hg] using hdn), List.nil_append]
      exact if_congr (by simp [Ne.symm hdn]) rfl rfl

/-- The segments of one device among those of a scatter. -/
theorem trainsOf_filter (own : Nat) {e : Entry} (he : gSize e.block.toNat ≤ 64) (tail : Option Nat) (xs : List Sent) (dn : Nat) :
    (trainsOf own e tail xs).filter (fun g => g.train = dn) =
      if dn ∈ xs.map (sentDev own) then trainOf own (gSize e.block.toNat) tail dn xs else [] := by
  unfold trainsOf
  rw [filter_flatMap_train (fun d g hg => ((trainOf_spec own (gSize_pos _) he tail d xs).1 g hg).1) dn _ (nodup_eraseDups _ _ le_rfl)]
  exact if_congr List.mem_eraseDups rfl rfl

/-- What the segments of a device carry (R273, R380). -/
theorem trainsOf_spec (own : Nat) {e : Entry} (he : gSize e.block.toNat ≤ 64) (tail : Option Nat) (xs : List Sent) (dn : Nat) :
    let l := (trainsOf own e tail xs).filter (fun g => g.train = dn)
    l.flatMap (·.elems) = xs.filter (fun x => sentDev own x = dn) ∧ (∀ g ∈ l, g.elems.length * gSize e.block.toNat ≤ 4096 ∧ g.tail = tail) ∧
      ∀ i g, l[i]? = some g → (g.last = true ↔ i + 1 = l.length) := by
  intro l
  obtain ⟨hseg, hall, hlast⟩ := trainOf_spec own (gSize_pos e.block.toNat) he tail dn xs
  have hl : l = if dn ∈ xs.map (sentDev own) then trainOf own (gSize e.block.toNat) tail dn xs else [] := trainsOf_filter own he tail xs dn
  rw [hl]
  by_cases hdn : dn ∈ xs.map (sentDev own)
  · rw [if_pos hdn]
    exact ⟨hall, fun g hg => ⟨(hseg g hg).2.2, (hseg g hg).2.1⟩, hlast⟩
  · rw [if_neg hdn]
    refine ⟨(List.filter_eq_nil_iff.mpr fun x hx => ?_).symm, by simp, by simp⟩
    simpa using fun h => hdn (List.mem_map.mpr ⟨x, hx, h⟩)

/-! ## What a scatter leaves of the device's own number -/

theorem engPut_boot (e : Entry) (op : Nat) (bs : List (Nat × Byte × Byte)) (s : State) : (engPut e op bs s).dev.boot = s.dev.boot := by
  unfold engPut
  split
  · rfl
  · dsimp only
    rw [(homes_performBytes ..).frame]

theorem engAnswered_boot (e : Entry) (s : State) : (engAnswered e s).dev.boot = s.dev.boot := by
  unfold engAnswered
  split <;> rfl

theorem applySeg_boot (e : Entry) (g : Segment) (s : State) : (applySeg e g s).dev.boot = s.dev.boot := by
  have helems : ∀ (xs : List Sent) (s : State), (applyElems e xs s).dev.boot = s.dev.boot := by
    intro xs
    induction xs with
    | nil => exact fun _ => rfl
    | cons x xs ih => exact fun s => (ih _).trans (engPut_boot ..)
  unfold applySeg
  dsimp only
  split
  · unfold addTail
    split
    · exact helems ..
    · exact (engPut_boot ..).trans (helems ..)
  · exact helems ..

theorem scatterPlan_frame {e : Entry} : ∀ {n k : Nat} {s t : State} {xs : List Sent}, scatterPlan e n k s = .ok xs t →
    t = { s with dev.acnt := t.dev.acnt }
  | 0, _, _, _, _, h => by
    cases h
    rfl
  | n + 1, k, s, t, xs, h => by
    obtain ⟨va, v, hva, h⟩ := Eng.bind_eq_ok h
    obtain ⟨bs, w, hbs, hva⟩ := Eng.bind_eq_ok hva
    have hv : v = w := by
      split at hva
      · cases hva
      · cases hva
        rfl
    subst hv
    split at h
    · cases h
    · obtain ⟨bs', v', hbs', h⟩ := Eng.bind_eq_ok h
      obtain ⟨r, w', hr, h⟩ := Eng.bind_eq_ok h
      cases h
      rw [scatterPlan_frame hr, engRead_frame hbs', engRead_frame hbs]

/-! ## Scatters (R273, R380) -/

/-- The bytes a segment adds to the count of its scatter: those of its train, with the last one. -/
def segBytes (e : Entry) (g : Segment) : Nat := if g.last then trainLength e g * gSize e.block.toNat else 0

/-- Segments of the device's own train are applied one after the other. -/
theorem trainsRun_own (q : Nat) (e : Entry) : ∀ {done rest : List Segment} {fuel a : Nat} {v : State}, e.plan = done ++ rest →
    (∀ g ∈ rest, g.train = v.dev.boot.devnum) → rest.length ≤ fuel →
    trainsRun q fuel { e with prog := done.length, acc := a } v =
      some (finishHead 1 { e with prog := e.plan.length, acc := a + (rest.map (segBytes e)).sum } (a + (rest.map (segBytes e)).sum) 0 0
        (rest.foldl (fun t g => engAnswered e (applySeg e g t)) v))
  | done, [], fuel, a, v, hplan, _, _ => by
    rw [trainsRun.eq_def]
    dsimp only
    rw [List.getElem?_eq_none (by rw [hplan]; simp)]
    dsimp only
    rw [hplan, List.append_nil]
    rfl
  | done, g :: rest, 0, _, _, _, _, h => absurd h (by simp)
  | done, g :: rest, fuel + 1, a, v, hplan, hown, hfuel => by
    have hg : g.train = v.dev.boot.devnum := hown g List.mem_cons_self
    have hwait : segWait { e with prog := done.length, acc := a } g v = none := by
      unfold segWait
      split
      · rfl
      · exact if_pos hg
    have hnext : (engAnswered e (applySeg e g v)).dev.boot = v.dev.boot := (engAnswered_boot ..).trans (applySeg_boot ..)
    have ih := trainsRun_own q e (done := done ++ [g]) (rest := rest) (fuel := fuel) (a := a + segBytes e g)
      (v := engAnswered e (applySeg e g v)) (by simp [hplan]) (fun x hx => by rw [hnext]; exact hown x (List.mem_cons_of_mem _ hx))
      (by simpa using hfuel)
    rw [trainsRun.eq_def]
    dsimp only
    rw [show e.plan[done.length]? = some g by simp [hplan]]
    dsimp only
    rw [if_neg (by simp [hg]), hwait]
    dsimp only
    rw [List.length_append] at ih
    rw [List.map_cons, List.sum_cons, ← Nat.add_assoc]
    exact ih

/-- The bytes of a whole train are counted once, with its last segment. -/
theorem sum_segBytes {e : Entry} {dn : Nat} (hne : e.plan ≠ []) (htrain : ∀ g ∈ e.plan, g.train = dn)
    (hlast : ∀ i g, e.plan[i]? = some g → (g.last = true ↔ i + 1 = e.plan.length)) :
    (e.plan.map (segBytes e)).sum = (e.plan.flatMap (·.elems)).length * gSize e.block.toNat := by
  obtain ⟨init, g, hplan⟩ : ∃ init g, e.plan = init ++ [g] := ⟨_, _, (List.dropLast_append_getLast hne).symm⟩
  have hg : g.last = true := (hlast init.length g (by simp [hplan])).mpr (by simp [hplan])
  have hinit : ∀ x ∈ init, segBytes e x = 0 := by
    intro x hx
    obtain ⟨i, hi⟩ := List.mem_iff_getElem?.mp hx
    have hlt : i < init.length := (List.getElem?_eq_some_iff.mp hi).1
    have hno : ¬x.last = true := by
      rw [hlast i x (by rw [hplan, List.getElem?_append_left hlt, hi])]
      simp [hplan]
      omega
    exact if_neg hno
  have hlen : trainLength e g = (e.plan.flatMap (·.elems)).length := by
    unfold trainLength
    rw [List.filter_eq_self.mpr (fun x hx => by simp [htrain x hx, htrain g (by simp [hplan])]), List.length_flatMap]
  rw [show e.plan.map (segBytes e) = init.map (segBytes e) ++ [segBytes e g] by rw [hplan]; simp, List.sum_append,
    List.sum_eq_zero (by simpa using hinit), Nat.zero_add, List.sum_singleton, ← hlen]
  exact if_pos hg

section

variable (h : AtHead s 1 .rscat e)

include h

theorem exec_rscatExecute {t : State} (ht : (match scatterBegin e (eventSlot s) with
      | .error u => u
      | .ok (e', u) => trainsRun (if e.plan.isEmpty then 0 else e.prog + 1) (turnCount (eventSlot s).dev.arg.num (e'.plan.length + 1)) e' u) =
        some t) : exec .rscatExecute s = .next (served s 1 t) := by
  rw [eventSlot_arg] at ht
  exact congrArg _ (engineStep_runs h ht)

theorem rscatExecute_planErr (hplan : e.plan = []) {c o : Nat} (herr : scatterPlan e (gCount e.block.toNat) 0 (eventSlot s) = .err c o) :
    exec .rscatExecute s = .next (served s 1 (finishHead 1 e 0 c o (engAnswered e (eventSlot s)))) := by
  refine exec_rscatExecute h ?_
  unfold scatterBegin
  rw [if_neg (by simp [hplan]), herr]

theorem rscatExecute_tailErr (hplan : e.plan = []) {xs : List Sent} {v : State} {c : Nat}
    (hok : scatterPlan e (gCount e.block.toNat) 0 (eventSlot s) = .ok xs v) (herr : tailAddr e v = .error c) :
    exec .rscatExecute s = .next (served s 1 (finishHead 1 e 0 c 0 (engAnswered e (eventSlot s)))) := by
  refine exec_rscatExecute h ?_
  unfold scatterBegin
  rw [if_neg (by simp [hplan]), hok]
  dsimp only
  rw [herr]

/-- A scatter to the device itself, carried out in one turn. -/
theorem rscatExecute_own (hnum : (eventSlot s).dev.arg.num = 0) (hplan : e.plan = []) (hprog : e.prog = 0) {xs : List Sent} {v : State}
    (hok : scatterPlan e (gCount e.block.toNat) 0 (eventSlot s) = .ok xs v) {tail : Option Nat} (htail : tailAddr e v = .ok tail) (hne : xs ≠ [])
    (hown : ∀ x ∈ xs, sentDev (eventSlot s).dev.boot.devnum x = (eventSlot s).dev.boot.devnum) (hz : gSize e.block.toNat ≤ 64) :
    let e' : Entry := { e with plan := trainsOf (eventSlot s).dev.boot.devnum e tail xs }
    exec .rscatExecute s = .next (served s 1 (finishHead 1
      { e' with prog := e'.plan.length, acc := e.acc + xs.length * gSize e.block.toNat } (e.acc + xs.length * gSize e.block.toNat) 0 0
      (e'.plan.foldl (fun t g => engAnswered e (applySeg e' g t)) (engAnswered e v)))) := by
  intro e'
  have hmem : ∀ g ∈ e'.plan, g.train = (eventSlot s).dev.boot.devnum := by
    intro g hg
    obtain ⟨dn, hdn, hg⟩ := List.mem_flatMap.mp hg
    rw [((trainOf_spec _ (gSize_pos _) hz tail dn xs).1 g hg).1]
    obtain ⟨x, hx, rfl⟩ := List.mem_map.mp (List.mem_eraseDups.mp hdn)
    exact hown x hx
  have hself : e'.plan.filter (fun g => g.train = (eventSlot s).dev.boot.devnum) = e'.plan :=
    List.filter_eq_self.mpr fun g hg => by simpa using hmem g hg
  obtain ⟨hall, -, hlast⟩ := trainsOf_spec (eventSlot s).dev.boot.devnum hz tail xs (eventSlot s).dev.boot.devnum
  rw [show (trainsOf (eventSlot s).dev.boot.devnum e tail xs).filter _ = e'.plan from hself] at hall hlast
  rw [List.filter_eq_self.mpr (fun x hx => by simpa using hown x hx)] at hall
  have hne' : e'.plan ≠ [] := fun hnil => hne (by rw [← hall, hnil]; rfl)
  have hsum : (e'.plan.map (segBytes e')).sum = xs.length * gSize e.block.toNat := (sum_segBytes hne' hmem hlast).trans (by rw [hall])
  have hboot : (engAnswered e v).dev.boot = (eventSlot s).dev.boot := (engAnswered_boot ..).trans (by rw [scatterPlan_frame hok])
  refine exec_rscatExecute h ?_
  unfold scatterBegin
  rw [if_neg (by simp [hplan]), hok]
  dsimp only
  rw [htail, hnum]
  dsimp only
  have hrun := trainsRun_own 0 e' (done := []) (rest := e'.plan) (fuel := e'.plan.length + 1) (a := e.acc) (v := engAnswered e v) rfl
    (fun g hg => by rw [hboot]; exact hmem g hg) (Nat.le_succ _)
  rw [hsum] at hrun
  rw [show e.plan.isEmpty = true by simp [hplan]]
  refine Eq.trans ?_ hrun
  rw [show ({ e' with prog := ([] : List Segment).length, acc := e.acc } : Entry) = e' by
    show ({ e' with prog := 0 } : Entry) = e'
    rw [← hprog]]
  rfl

/-- One segment of a scatter begun before. -/
theorem rscatExecute_segment (hone : (eventSlot s).dev.arg.num = 1) {g : Segment} (hg : e.plan[e.prog]? = some g) :
    (g.train ≠ (eventSlot s).dev.boot.devnum → unreachable (eventSlot s).dev g.train = true →
      exec .rscatExecute s = .next (served s 1 (finishHead 1 e e.acc 0x43 g.train (engAnswered e (eventSlot s))))) ∧
    ((g.train ≠ (eventSlot s).dev.boot.devnum → unreachable (eventSlot s).dev g.train = false) →
      (∀ dn o w k n, segWait e g (eventSlot s) = some (dn, some (o, w, k, n)) →
        exec .rscatExecute s = .next (served s 1 { setHead 1 e (eventSlot s) with dev := sendReqBy o w k n (setHead 1 e (eventSlot s)).dev })) ∧
      (segWait e g (eventSlot s) = none → ∀ e', e' = { e with prog := e.prog + 1, acc := e.acc + segBytes e g } →
        exec .rscatExecute s = .next (served s 1 (if e.prog + 1 < e.plan.length then setHead 1 e' (engAnswered e (applySeg e g (eventSlot s)))
          else finishHead 1 e' e'.acc 0 0 (engAnswered e (applySeg e g (eventSlot s))))))) := by
  have hplan : e.plan ≠ [] := by
    rintro hnil
    rw [hnil] at hg
    cases hg
  have hrun : ∀ {t}, trainsRun (e.prog + 1) 1 e (eventSlot s) = some t → exec .rscatExecute s = .next (served s 1 t) := by
    intro t ht
    refine exec_rscatExecute h ?_
    unfold scatterBegin
    rw [if_pos (by simp [hplan]), hone, if_neg (by simp [hplan])]
    exact ht
  refine ⟨fun hother hun => hrun ?_, fun hreach => ⟨fun dn o w k n hw => hrun ?_, fun hw e' he' => hrun ?_⟩⟩
  · rw [trainsRun.eq_def]
    dsimp only
    rw [hg]
    exact if_pos (by simp [hother, hun])
  · rw [trainsRun.eq_def]
    dsimp only
    rw [hg]
    dsimp only
    rw [if_neg (by simpa using hreach), hw]
  · rw [trainsRun.eq_def]
    dsimp only
    rw [hg]
    dsimp only
    rw [if_neg (by simpa using hreach), hw]
    dsimp only
    rw [he', trainsRun.eq_def]
    by_cases hmore : e.prog + 1 < e.plan.length
    · rw [if_pos hmore]
      dsimp only
      rw [List.getElem?_eq_getElem hmore]
      rfl
    · rw [if_neg hmore]
      dsimp only
      rw [List.getElem?_eq_none (by omega)]
      rfl

end

end Sys2Proof.Machine
end

section
/-! PROOFS. One turn of a collective, and what its results are (for O55). -/

namespace Sys2Proof.Machine

/-! ## States that follow one another -/

theorem Through.mono {α : Type} {R R' : Nat → α → State → State → Prop} (h : ∀ i a s t, R i a s t → R' i a s t) :
    ∀ {l : List α} {i : Nat} {s t : State}, Through R i l s t → Through R' i l s t
  | [], _, _, _, ht => ht
  | _ :: _, _, _, _, ⟨u, hu, ht⟩ => ⟨u, h _ _ _ _ hu, Through.mono h ht⟩

/-- States led to by functions are those of a fold. -/
theorem through_foldl {α : Type} (F : α → State → State) {l : List α} {i : Nat} {s t : State}
    (h : Through (fun _ a s t => t = F a s) i l s t) : l.foldl (fun s a => F a s) s = t := by
  induction l generalizing i s with
  | nil => exact h.symm
  | cons a l ih =>
    obtain ⟨_, rfl, h⟩ := h
    exact ih h

theorem through_foldl_upFrom {α : Type} (F : Nat → α → State → State) {l : List α} {i : Nat} {s t : State}
    (h : Through (fun i a s t => t = F i a s) i l s t) : ((upFrom i l.length).zip l).foldl (fun s m => F m.1 m.2 s) s = t := by
  induction l generalizing i s with
  | nil => exact h.symm
  | cons a l ih =>
    obtain ⟨_, rfl, h⟩ := h
    exact ih h

theorem firstWait_none {α : Type} {l : List (Eng α)} (h : ∀ x ∈ l, ∃ a s, x = .ok a s) : firstWait l = none := by
  unfold firstWait
  rw [List.filterMap_eq_nil_iff.mpr]
  · rfl
  · intro x hx
    obtain ⟨a, s, rfl⟩ := h x hx
    rfl

/-! ## A collective of slots (R276, R277) -/

/-- The entries at the heads are those of the members. -/
theorem heads_eq {u : State} {g k : Nat} {slots : List Nat} {es : List Entry} (hlen : es.length = slots.length)
    (h : ∀ m ∈ slots.zip es, collHead u m.1 g k = some m.2) : slots.map (fun n => collHead u n g k) = es.map some := by
  induction slots generalizing es with
  | nil => rw [List.length_eq_zero_iff.mp hlen]; rfl
  | cons n slots ih =>
    obtain _ | ⟨e, es⟩ := es
    · cases hlen
    · rw [List.map_cons, List.map_cons, h (n, e) List.mem_cons_self, ih (by simpa using hlen) (fun m hm => h m (List.mem_cons_of_mem _ hm))]

/-- The members' reads, one after the other. -/
def collReads (n : Nat) (ms : List (Nat × Nat × Entry)) (x : State × List (Nat × Eng (List Byte))) : State × List (Nat × Eng (List Byte)) :=
  ms.foldl (fun x m => ((collRead m.2.1 m.1 n m.2.2 x.1).1, x.2 ++ [(m.1, (collRead m.2.1 m.1 n m.2.2 x.1).2)])) x

/-- A member's read that came: its index, its bytes and the state after it. -/
def readCame (x : Nat × List Byte × State) : Nat × Eng (List Byte) := (x.1, .ok x.2.1 x.2.2)

/-- A collective whose reads all come is that of their bytes. -/
theorem collReads_ok (n : Nat) : ∀ {l : List (Nat × List Byte)} {es : List Entry} {i : Nat} {u v : State} {acc : List (Nat × Eng (List Byte))},
    es.length = l.length →
    Through (fun i m a c => engRead m.2 (kSrc m.2.block.toNat) (collSrcBytes m.2.block.toNat i n) (focus a m.1.1 1) = .ok m.1.2 c) i (l.zip es) u v →
    ∃ came : List (Nat × List Byte × State), collReads n ((upFrom i l.length).zip ((l.map Prod.fst).zip es)) (u, acc) = (v, acc ++ came.map readCame) ∧
      came.map (fun x => x.2.1) = l.map Prod.snd
  | [], _, _, _, _, acc, _, ht => by
    cases ht
    exact ⟨[], by simp [collReads, upFrom], rfl⟩
  | a :: l, [], _, _, _, _, hlen, _ => absurd hlen (by simp)
  | a :: l, e :: es, i, u, v, acc, hlen, ht => by
    obtain ⟨w, hw, ht⟩ := ht
    have hread : collRead a.1 i n e u = (w, .ok a.2 w) := by
      unfold collRead
      dsimp only
      rw [show engRead e (kSrc e.block.toNat) (collSrcBytes e.block.toNat i n) (focus u a.1 1) = .ok a.2 w from hw]
    obtain ⟨came, hfold, hbytes⟩ := collReads_ok n (acc := acc ++ [(i, .ok a.2 w)]) (by simpa using hlen) ht
    refine ⟨(i, a.2, w) :: came, ?_, by rw [List.map_cons, List.map_cons, hbytes]⟩
    rw [List.map_cons (f := readCame), List.append_cons, show readCame (i, a.2, w) = (i, .ok a.2 w) from rfl, ← hfold]
    show collReads n ((upFrom (i + 1) l.length).zip ((l.map Prod.fst).zip es)) ((collRead a.1 i n e u).1, acc ++ [(i, (collRead a.1 i n e u).2)]) = _
    rw [hread]

variable {s : State} {e : Entry}

section

variable {u : State} {slots : List Nat} {es : List Entry} (hslots : memberSlots u (kGroup e.block.toNat) = slots) (hlen : es.length = slots.length)
  (hheads : ∀ m ∈ slots.zip es, collHead u m.1 (kGroup e.block.toNat) e.koff = some m.2)

include hslots hlen hheads

/-- Members whose parameters differ all end with cause 0x44. -/
theorem collGroup_differ (h : ∃ x ∈ es, collKey x ≠ collKey e) {t : State}
    (ht : Through (fun _ m a c => c = finishHead 2 m.2 0 0x44 0 (focus a m.1 1)) 0 (slots.zip es) u t) :
    collGroup e u = some (focus t u.cur.1 u.cur.2) := by
  have hfold := through_foldl (fun (m : Nat × Entry) a => finishHead 2 m.2 0 0x44 0 (focus a m.1 1)) ht
  unfold collGroup
  dsimp only
  rw [hslots, heads_eq hlen hheads, if_neg (by simp), show (es.map some).filterMap id = es by simp, if_pos (by simpa using h)]
  exact congrArg (fun t => some (focus t u.cur.1 u.cur.2)) hfold

/-- Members that agree reduce their bytes, each to its own DST. -/
theorem collGroup_agree (h : ∀ x ∈ es, collKey x = collKey e) {l : List (Nat × List Byte)} {v t : State}
    (hl : l.map Prod.fst = slots)
    (hread : Through (fun i m a c => engRead m.2 (kSrc m.2.block.toNat)
      (collSrcBytes m.2.block.toNat i slots.length) (focus a m.1.1 1) = .ok m.1.2 c) 0 (l.zip es) u v)
    (hreach : ∀ m ∈ slots.zip es,
      ∃ locs w, collReach m.1 slots.length m.2 v = .ok locs w)
    (hwrite : Through (fun i m a c => ∃ w, engWrite m.2 (kDst m.2.block.toNat)
      (collResult e.block.toNat i slots.length (l.map Prod.snd)) (focus a m.1 1) = .ok () w ∧
      c = finishHead 2 m.2 (collResult e.block.toNat i slots.length (l.map Prod.snd)).length 0 0 (engAnswered m.2 w))
      0 (slots.zip es) v t) :
    collGroup e u = some (focus t u.cur.1 u.cur.2) := by
  have hll : l.length = slots.length := by rw [← hl, List.length_map]
  obtain ⟨came, hreads, hbytes⟩ := collReads_ok _ (acc := []) (by rw [hlen, hll]) hread
  rw [hl, hll, List.nil_append] at hreads
  have hms : (slots.zip es).length = slots.length := by
    rw [List.length_zip, hlen, Nat.min_self]
  have hfold := through_foldl_upFrom (fun i (m : Nat × Entry) a => collWrite m.1 m.2
    (collResult e.block.toNat i slots.length (l.map Prod.snd)) a) (hwrite.mono fun i m a c hc => by
      obtain ⟨w, hw, rfl⟩ := hc
      unfold collWrite
      dsimp only
      rw [hw])
  rw [hms] at hfold
  unfold collGroup
  dsimp only
  rw [hslots, heads_eq hlen hheads, if_neg (by simp), show (es.map some).filterMap id = es by simp,
    if_neg (by simpa using fun x hx => h x hx)]
  unfold collReads at hreads
  rw [hreads]
  dsimp only
  rw [firstWait_none ?came]
  case came =>
    intro x hx
    obtain ⟨_, hy, rfl⟩ := List.mem_map.mp hx
    obtain ⟨z, -, rfl⟩ := List.mem_map.mp hy
    exact ⟨_, _, rfl⟩
  dsimp only
  rw [if_neg ?nobad, firstWait_none ?reach]
  case nobad =>
    rw [List.filterMap_eq_nil_iff.mpr]
    · decide
    · intro p hp
      obtain ⟨z, -, rfl⟩ := List.mem_map.mp hp
      rfl
  case reach =>
    intro x hx
    obtain ⟨m, hm, rfl⟩ := List.mem_map.mp hx
    obtain ⟨locs, w, hw⟩ := hreach m.2 (List.of_mem_zip hm).2
    exact ⟨locs, w, hw⟩
  simp only [List.map_map, Function.comp_def, readCame, hbytes, hfold]

end

/-! ## A collective of devices (R277) -/

theorem getElem?_upFrom : ∀ {n k : Nat} (lo : Nat), k < n → (upFrom lo n)[k]? = some (lo + k)
  | n + 1, 0, lo, _ => rfl
  | n + 1, k + 1, lo, h => by
    rw [upFrom, List.getElem?_cons_succ, getElem?_upFrom (lo + 1) (by omega), Nat.add_assoc, Nat.add_comm 1]

/-- The bytes that every member sends: this device's, and the others' as the turn brings them. -/
theorem collSources {srcs : List (List Byte)} {parts : List (Nat × List Byte)} {n i : Nat} {mine : List Byte} (hlen : srcs.length = n)
    (hparts : ∀ j < n, j ≠ i → (parts.find? (fun x => x.1 = j)).map Prod.snd = srcs[j]?) (hmine : srcs[i]? = some mine) :
    (upFrom 0 n).map (fun j => if j = i then mine else ((parts.find? (fun p => p.1 = j)).map Prod.snd).getD []) = srcs := by
  subst hlen
  have hup : ∀ k < srcs.length, (upFrom 0 srcs.length)[k]? = some k := fun k hk => by rw [getElem?_upFrom 0 hk, Nat.zero_add]
  refine List.ext_getElem? fun k => ?_
  by_cases hk : k < srcs.length
  · rw [List.getElem?_map, hup k hk, Option.map_some]
    by_cases hki : k = i
    · rw [if_pos hki, hki, hmine]
    · rw [if_neg hki, hparts k hk hki, List.getElem?_eq_getElem hk]
      rfl
  · rw [List.getElem?_eq_none (by rw [List.length_map, length_upFrom]; omega), List.getElem?_eq_none (by omega)]

theorem collDevices_disagree (parts : List (Nat × List Byte)) (u : State) : collDevices e false parts u = some (finishHead 2 e 0 0x44 0 u) := rfl

theorem collDevices_agree {u v w : State} {parts : List (Nat × List Byte)} {srcs : List (List Byte)} {mine : List Byte} {i n : Nat}
    (hi : (listDevs e.list).idxOf u.dev.boot.devnum = i) (hn : (listDevs e.list).length = n)
    (hlen : srcs.length = n)
    (hparts : ∀ j < n, j ≠ i →
      (parts.find? (fun x => x.1 = j)).map Prod.snd = srcs[j]?)
    (hmine : srcs[i]? = some mine) (hmany : 1 < n)
    (hread : engRead e (kSrc e.block.toNat) (collSrcBytes e.block.toNat i n) u =
      .ok mine v)
    (hwrite : engWrite e (kDst e.block.toNat)
      (collResult e.block.toNat i n srcs)
      { v with dev := addAcnt e.acct 4 (collSrcBytes e.block.toNat i n) v.dev } = .ok () w) :
    collDevices e true parts u = some (finishHead 2 e
      (collResult e.block.toNat i n srcs).length 0 0 (engAnswered e w)) := by
  have hall : ¬(upFrom 0 n).any
      (fun j => j != i && !(parts.any (fun p => p.1 = j))) = true := by
    rw [Bool.not_eq_true, List.any_eq_false]
    intro j hj
    have hj : j < n := mem_upFrom_zero.mp hj
    by_cases hii : j = i
    · simp [hii]
    · have hp := hparts j hj hii
      rw [List.getElem?_eq_getElem (by omega)] at hp
      obtain ⟨x, hx, -⟩ := Option.map_eq_some_iff.mp hp
      have hany : parts.any (fun p => p.1 = j) = true := 
        List.any_eq_true.mpr ⟨x, List.mem_of_find?_eq_some hx, by simpa using List.find?_some hx⟩
      simp [hany]
  unfold collDevices
  dsimp only
  rw [hi, hn, if_neg (by simp), if_neg hall, hread]
  dsimp only
  rw [collSources hlen hparts hmine, if_neg (by omega), hwrite]

section

variable (h : AtHead s 2 .coll e)

include h

theorem exec_collExecute_group (hk : kKind e.block.toNat = 0) {t : State} (ht : collGroup e (eventSlot s) = some t) :
    exec .collExecute s = .next (served s 2 t) := congrArg _ (engineStep_runs h ((if_pos hk).trans ht))

theorem exec_collExecute_devices (hk : kKind e.block.toNat = 1) {t : State}
    (ht : collDevices e (eventSlot s).dev.arg.ok (eventSlot s).dev.arg.parts (eventSlot s) = some t) :
    exec .collExecute s = .next (served s 2 t) := by
  rw [eventSlot_arg] at ht
  exact congrArg _ (engineStep_runs h ((if_neg (by omega)).trans ht))

end

/-! ## Results (R277) -/

theorem elemOf_leNat_zero {w : Nat} {bs : List Byte} (hw : 8 * bs.length = w) (rest : List Byte) : elemOf (leNat (bs ++ rest)) w 0 = leNat bs := by
  have hlt : leNat bs < 2 ^ w := hw ▸ leNat_lt bs
  rw [leNat_append, hw]
  unfold elemOf bits
  rw [Nat.mul_zero, Nat.shiftRight_zero, Nat.add_mul_mod_self_left, Nat.mod_eq_of_lt hlt]

theorem elemOf_leNat_succ {w : Nat} {bs : List Byte} (hw : 8 * bs.length = w) (rest : List Byte) (k : Nat) :
    elemOf (leNat (bs ++ rest)) w (k + 1) = elemOf (leNat rest) w k := by
  have hlt : leNat bs < 2 ^ w := hw ▸ leNat_lt bs
  rw [leNat_append, hw]
  unfold elemOf bits
  rw [Nat.mul_succ, Nat.add_comm (w * k) w, Nat.shiftRight_add, Nat.shiftRight_eq_div_pow _ w, Nat.add_mul_div_left _ _ (Nat.two_pow_pos w),
    Nat.div_eq_of_lt hlt, Nat.zero_add]

/-- Element k of elements laid out one after the other. -/
theorem elemOf_layout (w : Nat) (x : Nat → Nat) : ∀ {n k : Nat} (lo : Nat), k < n →
    elemOf (leNat ((upFrom lo n).flatMap (fun i => leBytes w (x i)))) (8 * w) k = x (lo + k) % 2 ^ (8 * w)
  | n + 1, 0, lo, _ => by
    rw [upFrom, List.flatMap_cons, elemOf_leNat_zero (by rw [length_leBytes]), leNat_leBytes, Nat.add_zero]
  | n + 1, k + 1, lo, h => by
    rw [upFrom, List.flatMap_cons, elemOf_leNat_succ (by rw [length_leBytes]), elemOf_layout w x (lo + 1) (by omega), Nat.add_assoc, Nat.add_comm 1]

/-- Pieces of a list taken whole, one after the other. -/
theorem flatMap_take_whole {len : Nat} : ∀ {srcs : List (List Byte)}, (∀ x ∈ srcs, x.length = len) →
    (upFrom 0 srcs.length).flatMap (fun m => ((srcs[m]?).getD []).take len) = srcs.flatten := by
  intro srcs h
  have hmap : (upFrom 0 srcs.length).map (fun m => ((srcs[m]?).getD []).take len) = srcs := by
    refine List.ext_getElem? fun k => ?_
    by_cases hk : k < srcs.length
    · rw [List.getElem?_map, getElem?_upFrom 0 hk, Nat.zero_add, Option.map_some, List.getElem?_eq_getElem hk, Option.getD_some,
        List.take_of_length_le (h _ (List.getElem_mem hk)).le]
    · rw [List.getElem?_eq_none (by rw [List.length_map, length_upFrom]; omega), List.getElem?_eq_none (by omega)]
  rw [List.flatMap_def, hmap]

/-- The formats that a collective reduces fill whole bytes. -/
theorem fmtEw_reduced {f : Nat} (h : 5 ≤ f ∧ f ≤ 11) : 8 * (fmtEw f / 8) = fmtEw f := by
  obtain ⟨h5, h11⟩ := h
  interval_cases f <;> rfl

theorem collResult_reduce {b i n : Nat} {srcs : List (List Byte)} (hf : 5 ≤ kFmt b ∧ kFmt b ≤ 11) (hop : kOp b = 0 ∨ kOp b = 2) {k : Nat}
    (hk : k < kCount b) : elemOf (leNat (collResult b i n srcs)) (fmtEw (kFmt b)) k =
      reduceElem (kRop b) (kFmt b) (srcs.map (fun x => elemOf (leNat x) (fmtEw (kFmt b)) ((if kOp b = 2 then i * kCount b else 0) + k))) %
        2 ^ fmtEw (kFmt b) := by
  have hres : collResult b i n srcs = (upFrom (if kOp b = 2 then i * kCount b else 0) (kCount b)).flatMap (fun j =>
      leBytes (fmtEw (kFmt b) / 8) (reduceElem (kRop b) (kFmt b) ((srcs.map leNat).map (fun x => elemOf x (fmtEw (kFmt b)) j)))) := by
    unfold collResult
    obtain hop | hop := hop <;> rw [hop] <;> rfl
  have h := elemOf_layout (fmtEw (kFmt b) / 8)
    (fun j => reduceElem (kRop b) (kFmt b) ((srcs.map leNat).map (fun x => elemOf x (fmtEw (kFmt b)) j)))
    (if kOp b = 2 then i * kCount b else 0) hk
  rw [fmtEw_reduced hf] at h
  rw [hres, h, List.map_map]
  rfl

theorem collResult_gather {b i : Nat} {srcs : List (List Byte)} (hop : kOp b = 1)
    (hlen : ∀ x ∈ srcs, x.length = kCount b * (fmtEw (kFmt b) / 8)) : collResult b i srcs.length srcs = srcs.flatten := by
  unfold collResult
  rw [hop]
  exact flatMap_take_whole hlen

/-! ## Reductions (R277) -/

theorem accFmt_int {f : Nat} (h : fmtInt f = true) : accFmt f = f := by
  unfold accFmt
  refine if_neg fun h' => ?_
  obtain rfl | rfl := h' <;> exact absurd h (by decide)

theorem toAcc_int {f : Nat} (h : fmtInt f = true) (c : Nat) : toAcc f c = c := if_pos (accFmt_int h)

theorem reduceElem_int {rop f x : Nat} {r : List Nat} (h : fmtInt f = true) :
    reduceElem rop f (x :: r) = r.foldl (fun acc y => reduceCode rop f acc y) x := by
  unfold reduceElem
  dsimp only
  rw [if_pos h, accFmt_int h, toAcc_int h]
  exact congrArg (fun g => r.foldl g x) (funext fun acc => funext fun y => by rw [toAcc_int h])

theorem reduceCode_int {rop f x y : Nat} (h : fmtInt f = true) : reduceCode rop f x y =
    if rop = 0 then (x + y) % 2 ^ fmtEw f
    else if rop = 1 then (if intElem f x ≤ intElem f y then x else y) else (if intElem f x ≤ intElem f y then y else x) := by
  unfold reduceCode
  rw [if_pos h]
  obtain _ | _ | rop := rop <;> rfl

theorem foldl_sum_mod {m x : Nat} (hx : x < m) (r : List Nat) : r.foldl (fun acc y => (acc + y) % m) x = (x + r.sum) % m := by
  induction r generalizing x with
  | nil => simpa using (Nat.mod_eq_of_lt hx).symm
  | cons y r ih =>
    rw [List.foldl_cons, ih (Nat.mod_lt _ (by omega)), List.sum_cons, Nat.mod_add_mod, Nat.add_assoc]

/-- A fold that keeps the better of two keeps one of the list, as good as any, for an order given by a key. -/
theorem foldl_best {key : Nat → Int} (pick : Nat → Nat → Nat) (hpick : ∀ a b, pick a b = a ∧ key a ≤ key b ∨ pick a b = b ∧ key b ≤ key a)
    (x : Nat) (r : List Nat) : r.foldl pick x ∈ x :: r ∧ ∀ y ∈ x :: r, key (r.foldl pick x) ≤ key y := by
  induction r generalizing x with
  | nil => simp
  | cons y r ih =>
    obtain ⟨hmem, hle⟩ := ih (pick x y)
    have hhead := hle (pick x y) List.mem_cons_self
    rw [List.foldl_cons]
    refine ⟨?_, fun z hz => ?_⟩
    · obtain hm | hm := List.mem_cons.mp hmem
      · rw [hm]
        obtain ⟨h, -⟩ | ⟨h, -⟩ := hpick x y <;> simp [h]
      · exact List.mem_cons_of_mem _ (List.mem_cons_of_mem _ hm)
    · obtain rfl | hz := List.mem_cons.mp hz
      · obtain ⟨h, -⟩ | ⟨h, hk⟩ := hpick z y <;> rw [h] at hhead ⊢ <;> omega
      · obtain rfl | hz := List.mem_cons.mp hz
        · obtain ⟨h, hk⟩ | ⟨h, -⟩ := hpick x z <;> rw [h] at hhead ⊢ <;> omega
        · exact hle z (List.mem_cons_of_mem _ hz)

theorem reduceElem_sum {f : Nat} {l : List Nat} (hf : fmtInt f = true) (hl : l ≠ []) (hlt : ∀ x ∈ l, x < 2 ^ fmtEw f) :
    reduceElem 0 f l = l.sum % 2 ^ fmtEw f := by
  obtain ⟨x, r, rfl⟩ := List.exists_cons_of_ne_nil hl
  rw [reduceElem_int hf, List.sum_cons, ← foldl_sum_mod (hlt x List.mem_cons_self) r]
  exact congrArg (fun g => r.foldl g x) (funext fun acc => funext fun y => reduceCode_int hf)

theorem reduceElem_min {f : Nat} {l : List Nat} (hf : fmtInt f = true) (hl : l ≠ []) :
    reduceElem 1 f l ∈ l ∧ ∀ x ∈ l, intElem f (reduceElem 1 f l) ≤ intElem f x := by
  obtain ⟨x, r, rfl⟩ := List.exists_cons_of_ne_nil hl
  rw [reduceElem_int hf]
  refine foldl_best (key := intElem f) (fun acc y => reduceCode 1 f acc y) (fun a b => ?_) x r
  rw [reduceCode_int hf, if_neg (by decide), if_pos rfl]
  by_cases h : intElem f a ≤ intElem f b
  · exact .inl ⟨if_pos h, h⟩
  · exact .inr ⟨if_neg h, by omega⟩

theorem reduceElem_max {f : Nat} {l : List Nat} (hf : fmtInt f = true) (hl : l ≠ []) :
    reduceElem 2 f l ∈ l ∧ ∀ x ∈ l, intElem f x ≤ intElem f (reduceElem 2 f l) := by
  obtain ⟨x, r, rfl⟩ := List.exists_cons_of_ne_nil hl
  rw [reduceElem_int hf]
  have hbest := foldl_best (key := fun c => -intElem f c) (fun acc y => reduceCode 2 f acc y) (fun a b => by
    rw [reduceCode_int hf, if_neg (by decide), if_neg (by decide)]
    by_cases h : intElem f a ≤ intElem f b
    · exact .inr ⟨if_pos h, by omega⟩
    · exact .inl ⟨if_neg h, by omega⟩) x r
  exact ⟨hbest.1, fun y hy => by have := hbest.2 y hy; omega⟩

/-- Two floats added by a collective (R277). -/
theorem reduceElem_two {f : Nat} (hf : f ∈ [9, 10, 11]) (x y : Nat) :
    reduceElem 0 f [x, y] = (roundTo f .rne false false
      (fval (ffmt 9) (roundTo 9 .rne false false (fvAdd .rne (fval (ffmt 9) (toAcc f x)) (fval (ffmt 9) (toAcc f y))).1).1)).1 := by
  have hint : fmtInt f = false ∧ accFmt f = 9 := by
    fin_cases hf <;> exact ⟨rfl, rfl⟩
  unfold reduceElem reduceCode
  dsimp only [List.foldl_cons, List.foldl_nil]
  rw [if_neg (by simp [hint.1]), hint.2]
  rfl

end Sys2Proof.Machine
end

section
/-! PROOFS. Hash and key steps, time limits, the end of an entry and the bytes of a copy; and what the engines do (O55). -/

namespace Sys2Proof.Machine

/-- The state that an engine's step leaves, given by an equation. -/
theorem served_of_eq {i : Instr} {s T t : State} {q : Nat} (h : exec i s = .next (served s q T)) (ht : t = T) :
    exec i s = .next (served s q t) := ht ▸ h

variable {s : State} {e : Entry}

/-! ## Hashing (R307, R308) -/

theorem hashRun_zero (q : Nat) {e : Entry} {v : State} (h : e.prog ≤ pN e.block.toNat) : hashRun q 0 e v =
    some (if e.prog = pN e.block.toNat then finishHead 4 e (hashBytes e.block.toNat e.prog) 0 0 v else setHead 4 e v) := by
  rw [hashRun.eq_def]
  dsimp only
  by_cases hp : e.prog = pN e.block.toNat
  · rw [if_pos hp.ge, if_pos hp, hp]
  · rw [if_neg (by omega), if_neg hp]

section

variable (h : AtHead s 4 .pfxh e) (hone : (eventSlot s).dev.arg.num = 1) (hp : e.prog < pN e.block.toNat)

include h hone

theorem exec_pfxhExecute {t : State} (ht : hashRun (e.prog + 1) 1 e (eventSlot s) = some t) : exec .pfxhExecute s = .next (served s 4 t) := by
  rw [eventSlot_arg] at hone
  refine congrArg _ (engineStep_runs h ?_)
  rw [hone]
  exact ht

include hp

theorem pfxhExecute_ok {c : List Byte} {v : State} (hok : hashStep e (eventSlot s) = .ok c v) :
    exec .pfxhExecute s = .next (served s 4 (if e.prog + 1 = pN e.block.toNat then
      finishHead 4 { e with prog := e.prog + 1, list := c } (hashBytes e.block.toNat (e.prog + 1)) 0 0 (engAnswered e v)
      else setHead 4 { e with prog := e.prog + 1, list := c } (engAnswered e v))) := by
  refine exec_pfxhExecute h hone ?_
  rw [hashRun.eq_def]
  dsimp only
  rw [if_neg (by omega), hok]
  exact hashRun_zero _ (e := { e with prog := e.prog + 1, list := c }) hp

theorem pfxhExecute_err {c o : Nat} (herr : hashStep e (eventSlot s) = .err c o) :
    exec .pfxhExecute s = .next (served s 4 (finishHead 4 e (hashBytes e.block.toNat e.prog) c o (engAnswered e (eventSlot s)))) := by
  refine exec_pfxhExecute h hone ?_
  rw [hashRun.eq_def]
  dsimp only
  rw [if_neg (by omega), herr]

end

/-- A block hashed: its chain value left, with its key (R308). -/
theorem hashStep_ok {u v1 v2 v3 v4 : State} {c toks : List Byte} {l1 l2 : List Loc} (hchain : chainBefore e u = .ok c v1)
    (htoks : engRead e (wrap (pAux e.block.toNat + 4 * pBlen e.block.toNat * e.prog)) (4 * pBlen e.block.toNat) v1 = .ok toks v2)
    (hkeys : engReach e true (wrap (pKeys e.block.toNat + 8 * e.prog)) 8 v2 = .ok l1 v2)
    (hout : pOut e.block.toNat ≠ 0 → engReach e true (wrap (pOut e.block.toNat + 32 * e.prog)) 32 v2 = .ok l2 v2)
    (hkey : engWrite e (wrap (pKeys e.block.toNat + 8 * e.prog)) ((sha256 (c ++ toks)).take 8) v2 = .ok () v3)
    (hval : if pOut e.block.toNat = 0 then v4 = v3
      else engWrite e (wrap (pOut e.block.toNat + 32 * e.prog)) (sha256 (c ++ toks)) v3 = .ok () v4) :
    hashStep e u = .ok (sha256 (c ++ toks)) v4 := by
  unfold hashStep
  dsimp only
  rw [hchain]
  dsimp only [Eng.bind]
  rw [htoks]
  dsimp only
  rw [hkeys]
  dsimp only
  by_cases h0 : pOut e.block.toNat = 0
  · rw [if_pos h0] at hval
    rw [if_pos h0]
    dsimp only
    rw [hkey]
    dsimp only
    rw [if_pos h0, hval]
  · rw [if_neg h0] at hval
    rw [if_neg h0, hout h0]
    dsimp only
    rw [hkey]
    dsimp only
    rw [if_neg h0, hval]

/-! ## Table commands (R302, R307, R309 to R311) -/

theorem pfxEnd_ok {q count status n c o : Nat} {v w : State} (h : engWrite e (pOut e.block.toNat) (leBytes 8 (count + status * 2 ^ 32)) v = .ok () w) :
    pfxEnd q e count status n c o v = some (finishHead 4 e n c o (engAnswered e w)) := by
  unfold pfxEnd
  rw [h]

theorem keyRun_zero {step : Entry → State → Eng KeyStep} (q : Nat) {v : State} :
    (e.prog = pN e.block.toNat → keyRun step q 0 e v = pfxEnd q e e.prog 0 (4 * e.prog + 8) 0 0 v) ∧
      (e.prog < pN e.block.toNat → keyRun step q 0 e v = some (setHead 4 e v)) := by
  rw [keyRun.eq_def]
  dsimp only
  exact ⟨fun h => if_pos h.ge, fun h => if_neg (by omega)⟩

theorem keyRun_one {step : Entry → State → Eng KeyStep} (q : Nat) {u : State} (hp : e.prog < pN e.block.toNat) :
    (∀ v, step e u = .ok .on v → keyRun step q 1 e u = keyRun step q 0 { e with prog := e.prog + 1 } (engAnswered e v)) ∧
      (∀ v st, step e u = .ok (.off st) v → keyRun step q 1 e u = pfxEnd q e e.prog st (4 * e.prog + 8) 0 0 v) ∧
      ∀ c o, step e u = .err c o → keyRun step q 1 e u = pfxEnd q e e.prog 3 (4 * e.prog + 8) c o u := by
  have hno : ¬pN e.block.toNat ≤ e.prog := by omega
  refine ⟨fun v h => ?_, fun v st h => ?_, fun c o h => ?_⟩ <;>
  · rw [keyRun.eq_def]
    dsimp only
    rw [if_neg hno, h]

theorem unpinRun_zero (q : Nat) {v : State} :
    (e.prog = pN e.block.toNat → unpinRun q 0 e v = pfxEnd q e e.acc 0 8 0 0 v) ∧
      (e.prog < pN e.block.toNat → unpinRun q 0 e v = some (setHead 4 e v)) := by
  rw [unpinRun.eq_def]
  dsimp only
  exact ⟨fun h => if_pos h.ge, fun h => if_neg (by omega)⟩

theorem unpinRun_one (q : Nat) {u : State} (hp : e.prog < pN e.block.toNat) :
    (∀ taken v, unpinStep e u = .ok taken v →
        unpinRun q 1 e u = unpinRun q 0 { e with prog := e.prog + 1, acc := if taken then e.acc + 1 else e.acc } (engAnswered e v)) ∧
      ∀ c o, unpinStep e u = .err c o → unpinRun q 1 e u = pfxEnd q e e.prog 3 8 c o u := by
  have hno : ¬pN e.block.toNat ≤ e.prog := by omega
  refine ⟨fun taken v h => ?_, fun c o h => ?_⟩ <;>
  · rw [unpinRun.eq_def]
    dsimp only
    rw [if_neg hno, h]

section

variable {op : EngOp} {go : Nat → Nat → Entry → State → Option State} {i : Instr} (hi : exec i s = .next (pfxTurn op go s)) (h : AtHead s 4 op e)

include hi h

/-- A table command that ends where it begins (R302). -/
theorem tableTurn_ends {t : State} (hb : pfxBegin e (eventSlot s) = .error (some t)) : exec i s = .next (served s 4 t) := by
  rw [hi]
  refine congrArg _ (engineStep_runs h ?_)
  rw [hb]

/-- A turn of a table command that has begun. -/
theorem tableTurn_goes (hone : (eventSlot s).dev.arg.num = 1) {d : Entry} (hb : pfxBegin e (eventSlot s) = .ok d) {t : State}
    (ht : go (if e.vl = 1 then e.prog + 1 else 0) 1 d (eventSlot s) = some t) : exec i s = .next (served s 4 t) := by
  rw [eventSlot_arg] at hone
  rw [hi]
  refine congrArg _ (engineStep_runs h ?_)
  rw [hb, hone]
  exact ht

end

theorem pfxBegin_fault {u : State} {c : Nat} (hv : e.vl ≠ 1) (h : engXlate true (pOut e.block.toNat) 8 u = .error c) :
    pfxBegin e u = .error (some (finishHead 4 e 0 c 0 u)) := by
  unfold pfxBegin
  rw [if_neg hv, h]

theorem pfxBegin_disabled {u w : State} {l : List Loc} (hv : e.vl ≠ 1) (h : engXlate true (pOut e.block.toNat) 8 u = .ok l)
    (hreg : bit (tableReg u (pTable e.block.toNat)) 0 = false ∨ 20 < bits (tableReg u (pTable e.block.toNat)) 1 5)
    (hw : engWrite e (pOut e.block.toNat) (leBytes 8 (0 + 3 * 2 ^ 32)) u = .ok () w) :
    pfxBegin e u = .error (some (finishHead 4 e 8 0x0D 0 (engAnswered e w))) := by
  unfold pfxBegin
  rw [if_neg hv, h]
  dsimp only
  rw [if_neg (by simpa using fun hb => by rcases hreg with h0 | h20 <;> simp_all), pfxEnd_ok hw]

theorem pfxBegin_ok {u : State} {d : Entry} (h : e.vl = 1 ∧ d = e ∨ e.vl ≠ 1 ∧ (∃ l, engXlate true (pOut e.block.toNat) 8 u = .ok l) ∧
      bit (tableReg u (pTable e.block.toNat)) 0 = true ∧ bits (tableReg u (pTable e.block.toNat)) 1 5 ≤ 20 ∧
      d = { e with vl := 1, vlvalid := tableReg u (pTable e.block.toNat) }) : pfxBegin e u = .ok d := by
  unfold pfxBegin
  rcases h with ⟨hv, rfl⟩ | ⟨hv, ⟨l, hl⟩, hen, hlog, rfl⟩
  · exact if_pos hv
  · rw [if_neg hv, hl]
    exact if_pos (by simp [hen, hlog])

/-! ## The time limit (R274) -/

/-- The head of a queue of one kind is a head of every kind that takes that one in. -/
theorem headEntry_wider {u : State} {q : Nat} {op : EngOp} (h : headEntry u q (fun x => x = op) = some e) {p : EngOp → Bool} (hp : p op = true) :
    e.op = op ∧ headEntry u q p = some e := by
  unfold headEntry at h ⊢
  cases hq : (queueOf u.slot q).head? with
  | none =>
    rw [hq] at h
    cases h
  | some x =>
    rw [hq] at h
    dsimp only at h ⊢
    split at h
    next hx =>
      cases h
      simp only [Bool.and_eq_true, decide_eq_true_eq] at hx
      exact ⟨hx.1, if_pos (by rw [hx.1, hp, hx.2]; rfl)⟩
    next => cases h

/-- A head that has waited 2^28 cycles ends with the device it waits for. -/
def timedOut (e : Entry) (dn : Nat) (u : State) : State :=
  match e.op with
  | .coll => finishHead 2 e 0 0x43 dn (collPartial e u.dev.arg.nats u.dev.arg.parts (engAnswered e u))
  | .rgath => finishHead 1 e e.acc 0x43 dn (engAnswered e u)
  | _ => finishHead 1 e e.acc 0x43 dn (trainPartial e u.dev.arg.nats u.dev.arg.ok (engAnswered e u))

theorem exec_remoteTimeout {q dn : Nat} {op : EngOp} (hq : (q, op) ∈ [(1, EngOp.rgath), (1, .rscat), (2, .coll)])
    (hhead : headEntry (eventSlot s) q (fun x => x = op) = some e) (hidx : (eventSlot s).dev.arg.idx = q)
    (hlong : 2 ^ 28 ≤ cycNow (eventSlot s) - e.start.getD (cycNow (eventSlot s))) (hwait : waitsFor e (eventSlot s).dev.arg.num (eventSlot s) = some dn) :
    exec .remoteTimeout s = .next (focus (timedOut e dn (eventSlot s)) s.cur.1 s.cur.2) := by
  obtain ⟨hop, hany⟩ := headEntry_wider hhead (p := fun x => x = .rgath || x = .rscat || x = .coll) (by fin_cases hq <;> rfl)
  have hq' : (if (eventSlot s).dev.arg.idx = 2 then 2 else 1) = q := by
    rw [hidx]
    fin_cases hq <;> rfl
  refine congrArg _ (congrArg (fun t => focus t s.cur.1 s.cur.2) ?_)
  dsimp only
  rw [hq', hany]
  dsimp only
  rw [if_neg (Nat.not_lt.mpr hlong), hwait]
  unfold timedOut
  rw [hop]
  fin_cases hq <;> rfl

/-! ## The end of an entry (R269, R48) -/

theorem exec_engineEntryComplete {q : Nat} {x : EntryDone} (hidx : (eventSlot s).dev.arg.idx = q)
    (hhead : (queueOf (eventSlot s).slot q).head? = some e) (hdone : e.done = some x) :
    exec .engineEntryComplete s = .next (focus (settleAll (match e.op with
      | .mma | .mmamo => mergeInto e.role x.n (setQueue q (queueOf (eventSlot s).slot q).tail (eventSlot s))
      | .zclr | .zld | .zst | .mcommit | .marker => setQueue q (queueOf (eventSlot s).slot q).tail (eventSlot s)
      | _ => completeOn q e x (setQueue q (queueOf (eventSlot s).slot q).tail (eventSlot s)))) s.cur.1 s.cur.2) := by
  rw [eventSlot_arg] at hidx
  refine congrArg _ (congrArg (fun t => focus t s.cur.1 s.cur.2) ?_)
  rw [hidx]
  unfold completeHead
  rw [hhead]
  dsimp only
  rw [hdone] <;> rfl

theorem setQueue_out (q : Nat) (l : List Entry) (u : State) : (setQueue q l u).slot.out = u.slot.out := by
  unfold setQueue
  split <;> rfl

/-- The kinds of entries that complete on a barrier. -/
theorem engineEntryComplete_bar {q : Nat} {x : EntryDone} (hidx : (eventSlot s).dev.arg.idx = q)
    (hhead : (queueOf (eventSlot s).slot q).head? = some e) (hdone : e.done = some x)
    (hop : e.op ∈ [.cpy, .rgath, .rscat, .coll, .pfxh, .pfxlk, .pfxins, .pfxunpin, .wbfill]) {t : State}
    (ht : t = settleAll (completeOn q e x (setQueue q (queueOf (eventSlot s).slot q).tail (eventSlot s)))) :
    exec .engineEntryComplete s = .next (focus t s.cur.1 s.cur.2) := by
  subst ht
  rw [exec_engineEntryComplete hidx hhead hdone]
  generalize e.op = op at hop
  fin_cases hop <;> rfl

/-- A multiply's flags reach the thread of its role. -/
theorem threadAt_mergeInto (role fl : Nat) (u : State) :
    (mergeInto role fl u).dev = u.dev ∧ (mergeInto role fl u).cur = u.cur ∧
      (threadAt (mergeInto role fl u) role).sr.fpflags = (threadAt u role).sr.fpflags ||| w64 (fl % 32) := by
  unfold mergeInto
  by_cases h0 : fl = 0
  · rw [if_pos h0, h0]
    exact ⟨rfl, rfl, (BitVec.or_zero ..).symm⟩
  · rw [if_neg h0]
    by_cases hr : role = u.cur.2
    · rw [if_pos hr]
      refine ⟨rfl, rfl, ?_⟩
      unfold threadAt
      rw [if_pos hr, show (mergeFlags fl u).cur.2 = u.cur.2 from rfl, if_pos hr]
      rfl
    · rw [if_neg hr]
      refine ⟨rfl, rfl, ?_⟩
      unfold threadAt
      dsimp only
      rw [if_neg hr, if_neg hr, SMap.get_set_self]

theorem threadAt_settleAll (u : State) (role : Nat) : threadAt (settleAll u) role = threadAt u role ∧ (settleAll u).dev = u.dev := by
  rw [queuesOnly_settleAll u]
  exact ⟨rfl, rfl⟩

theorem threadAt_setQueue (q : Nat) (l : List Entry) (u : State) (role : Nat) :
    threadAt (setQueue q l u) role = threadAt u role ∧ (setQueue q l u).dev = u.dev := by
  unfold setQueue
  split <;> exact ⟨rfl, rfl⟩

theorem engineEntryComplete_flags {q : Nat} {x : EntryDone} (hidx : (eventSlot s).dev.arg.idx = q)
    (hhead : (queueOf (eventSlot s).slot q).head? = some e) (hdone : e.done = some x) (hop : e.op = .mma ∨ e.op = .mmamo) :
    ∃ t, exec .engineEntryComplete s = .next (focus t s.cur.1 s.cur.2) ∧ t.dev = (eventSlot s).dev ∧
      (threadAt t e.role).sr.fpflags = (threadAt (eventSlot s) e.role).sr.fpflags ||| w64 (x.n % 32) := by
  have hex : exec .engineEntryComplete s = .next (focus (settleAll (mergeInto e.role x.n
      (setQueue q (queueOf (eventSlot s).slot q).tail (eventSlot s)))) s.cur.1 s.cur.2) := by
    rw [exec_engineEntryComplete hidx hhead hdone]
    rcases hop with hop | hop <;> rw [hop]
  obtain ⟨hth, hdev⟩ := threadAt_settleAll (mergeInto e.role x.n (setQueue q (queueOf (eventSlot s).slot q).tail (eventSlot s))) e.role
  obtain ⟨hmdev, -, hflags⟩ := threadAt_mergeInto e.role x.n (setQueue q (queueOf (eventSlot s).slot q).tail (eventSlot s))
  obtain ⟨hqth, hqdev⟩ := threadAt_setQueue q (queueOf (eventSlot s).slot q).tail (eventSlot s) e.role
  exact ⟨_, hex, hdev.trans (hmdev.trans hqdev), by rw [hth, hflags, hqth]⟩

/-! ## The bytes of a copy (R270) -/

theorem SMap.mem_of_get_ne {α : Type} {d : α} : ∀ {m : SMap α} {k : Nat}, SMap.get d m k ≠ d → (k, SMap.get d m k) ∈ m
  | [], _, h => absurd rfl h
  | (j, v) :: m, k, h => by
    unfold SMap.get at h ⊢
    by_cases hj : j = k
    · rw [if_pos hj, hj]
      exact List.mem_cons_self
    · rw [if_neg hj] at h ⊢
      exact List.mem_cons_of_mem _ (SMap.mem_of_get_ne h)

theorem SMap.nodup_of_rising {α : Type} : ∀ {m : SMap α}, SMap.rising m = true → (m.map Prod.fst).Nodup
  | [], _ => List.nodup_nil
  | p :: m, h => by
    obtain ⟨habove, hrest⟩ := (SMap.rising_cons p m).mp h
    refine List.nodup_cons.mpr ⟨fun hp => ?_, SMap.nodup_of_rising hrest⟩
    obtain ⟨x, hx, hxp⟩ := List.mem_map.mp hp
    have := habove x hx
    omega

theorem SMap.get_of_mem {α : Type} (d : α) : ∀ {m : SMap α} {p : Nat × α}, (m.map Prod.fst).Nodup → p ∈ m → SMap.get d m p.1 = p.2
  | (j, v) :: m, p, hn, hp => by
    obtain ⟨hj, hn⟩ := List.nodup_cons.mp hn
    unfold SMap.get
    obtain rfl | hp := List.mem_cons.mp hp
    · exact if_pos rfl
    · rw [if_neg (fun hjp => hj (List.mem_map.mpr ⟨p, hp, hjp.symm⟩)), SMap.get_of_mem d hn hp]

/-- Whole bytes with distinct places, merged over a map that has none of them. -/
theorem get_mergeBytes (l : List (Nat × Byte × Byte)) (hwhole : ∀ p ∈ l, p.2.1 = 0xFF) (hn : (l.map Prod.fst).Nodup) :
    ∀ m : SMap (Byte × Byte), (∀ p ∈ l, SMap.get (0, 0) m p.1 = (0, 0)) → SMap.wf (0, 0) m = true →
      let r := l.foldl (fun (m : SMap (Byte × Byte)) p =>
        let o := SMap.get (0, 0) m p.1
        SMap.set (0, 0) m p.1 (o.1 ||| p.2.1, (o.2 &&& ~~~p.2.1) ||| (p.2.2 &&& p.2.1))) m
      SMap.wf (0, 0) r = true ∧ (∀ p ∈ l, SMap.get (0, 0) r p.1 = p.2) ∧ ∀ k, k ∉ l.map Prod.fst → SMap.get (0, 0) r k = SMap.get (0, 0) m k := by
  induction l with
  | nil => exact fun m _ hwf => ⟨hwf, by simp, fun _ _ => rfl⟩
  | cons p l ih =>
    intro m hm hwf
    obtain ⟨hp, hn⟩ := List.nodup_cons.mp hn
    have hval : (((0 : Byte) ||| p.2.1, ((0 : Byte) &&& ~~~p.2.1) ||| (p.2.2 &&& p.2.1)) : Byte × Byte) = p.2 := by
      rw [hwhole p List.mem_cons_self, byte_whole, show (0 : Byte) ||| 0xFF = 0xFF by decide, ← hwhole p List.mem_cons_self]
    have hmiss : ∀ q ∈ l, q.1 ≠ p.1 := fun q hq hqp => hp (List.mem_map.mpr ⟨q, hq, hqp⟩)
    obtain ⟨hwf', hget, hkeep⟩ := ih (fun q hq => hwhole q (List.mem_cons_of_mem _ hq)) hn (SMap.set (0, 0) m p.1 p.2)
      (fun q hq => by rw [SMap.get_set_ne _ _ _ _ _ (hmiss q hq), hm q (List.mem_cons_of_mem _ hq)]) (SMap.wf_set _ _ _ _ hwf)
    intro r
    have hr : r = l.foldl (fun (m : SMap (Byte × Byte)) p =>
        let o := SMap.get (0, 0) m p.1
        SMap.set (0, 0) m p.1 (o.1 ||| p.2.1, (o.2 &&& ~~~p.2.1) ||| (p.2.2 &&& p.2.1))) (SMap.set (0, 0) m p.1 p.2) := by
      show List.foldl _ _ _ = _
      rw [List.foldl_cons]
      dsimp only
      rw [hm p List.mem_cons_self, hval]
    rw [hr]
    refine ⟨hwf', fun q hq => ?_, fun k hk => ?_⟩
    · obtain rfl | hq := List.mem_cons.mp hq
      · rw [hkeep _ hp, SMap.get_set_self]
      · exact hget q hq
    · rw [List.map_cons, List.mem_cons, not_or] at hk
      rw [hkeep k hk.2, SMap.get_set_ne _ _ _ _ _ hk.1]

/-- Whole bytes that an engine puts at distinct places read back, and no other byte differs, where no frame is retired and none is watched. -/
theorem readByte_engPut_merged {l : List (Nat × Byte × Byte)} (hwhole : ∀ p ∈ l, p.2.1 = 0xFF) (hn : (l.map Prod.fst).Nodup) {u : State}
    (hr : u.dev.retire = []) (hw : u.dev.mwatch = []) :
    (∀ p ∈ l, readByte (engPut e 0 (mergeBytes l) u).dev p.1 = p.2.2) ∧
      ∀ k, k ∉ l.map Prod.fst → readByte (engPut e 0 (mergeBytes l) u).dev k = readByte u.dev k := by
  obtain ⟨hwf, hget, hkeep⟩ := get_mergeBytes l hwhole hn [] (fun _ _ => rfl) rfl
  change SMap.wf (0, 0) (mergeBytes l) = true at hwf
  change ∀ p ∈ l, SMap.get (0, 0) (mergeBytes l) p.1 = p.2 at hget
  change ∀ k, k ∉ l.map Prod.fst → SMap.get (0, 0) (mergeBytes l) k = (0, 0) at hkeep
  obtain ⟨hrise, hdef⟩ := (SMap.wf_iff _ _).mp hwf
  have hnodup := SMap.nodup_of_rising hrise
  have hmem : ∀ p ∈ l, p ∈ mergeBytes l := by
    intro p hp
    have hne : SMap.get (0, 0) (mergeBytes l) p.1 ≠ (0, 0) := by
      rw [hget p hp]
      intro h0
      exact absurd ((hwhole p hp).symm.trans (congrArg Prod.fst h0)) (by decide)
    have := SMap.mem_of_get_ne hne
    rwa [hget p hp] at this
  have hkeys : ∀ k, k ∉ l.map Prod.fst → k ∉ (mergeBytes l).map Prod.fst := by
    intro k hk hk'
    obtain ⟨p, hp, rfl⟩ := List.mem_map.mp hk'
    exact hdef p hp ((SMap.get_of_mem (0, 0) hnodup hp).symm.trans (hkeep p.1 hk))
  unfold engPut
  by_cases hempty : (mergeBytes l).isEmpty = true
  · have hl : l = [] := by
      cases l with
      | nil => rfl
      | cons p l =>
        have := hmem p List.mem_cons_self
        rw [List.isEmpty_iff.mp hempty] at this
        cases this
    subst hl
    exact ⟨by simp, fun k _ => rfl⟩
  · rw [if_neg hempty]
    obtain ⟨h1, h2⟩ := readByte_performBytes (wr := { writerOf u (engNum e.op.queue) e.task with role := 0xFF }) (acct := e.acct) (op := 0)
      hnodup hr hw
    refine ⟨fun p hp => ?_, fun k hk => h2 k (hkeys k hk)⟩
    rw [h1 p (hmem p hp), hwhole p hp, byte_whole]

theorem engReach_length {store : Bool} {va n : Nat} {u v : State} {locs : List Loc} (h : engReach e store va n u = .ok locs v) : locs.length = n := by
  unfold engReach engXlate at h
  split at h
  · cases h
  next l hl =>
    have hlen : l.length = n := by
      split at hl
      · cases hl
      next l' hl' =>
        cases hl
        exact xlateRange_length hl'
    dsimp only at h
    (repeat' split at h) <;> cases h <;> exact hlen

theorem engPlaces_length {va n : Nat} {u v : State} {keys : List Nat} (h : engPlaces e va n u = .ok keys v) : keys.length = n := by
  obtain ⟨locs, w, hreach, h⟩ := Eng.bind_eq_ok h
  have hlen := engReach_length hreach
  split at h
  · cases h
  · cases h
    rw [List.length_map, hlen]

theorem leBytes_leNat : ∀ bs : List Byte, leBytes bs.length (leNat bs) = bs
  | [] => rfl
  | b :: bs => by
    have hb := b.isLt
    rw [List.length_cons, leBytes, leNat, show (b.toNat + 256 * leNat bs) / 256 = leNat bs by omega, leBytes_leNat bs]
    congr 1
    refine BitVec.eq_of_toNat_eq ?_
    rw [BitVec.toNat_ofNat]
    omega

/-- The masks and bytes of an element of whole bytes. -/
theorem copyBytes_whole (bs : List Byte) : (upFrom 0 bs.length).map (fun i =>
    (BitVec.ofNat 8 (bits ((2 ^ (8 * bs.length) - 1) * 2 ^ 0) (8 * i) 8),
      BitVec.ofNat 8 (bits (bits (leNat bs) 0 (8 * bs.length) * 2 ^ 0) (8 * i) 8))) = bs.map (fun b => ((0xFF : Byte), b)) := by
  refine List.ext_getElem? fun i => ?_
  by_cases hi : i < bs.length
  · have hmask : BitVec.ofNat 8 (bits ((2 ^ (8 * bs.length) - 1) * 2 ^ 0) (8 * i) 8) = 0xFF := by
      refine BitVec.eq_of_getLsbD_eq fun j hj => ?_
      rw [Nat.pow_zero, Nat.mul_one, bits, BitVec.getLsbD_ofNat, Nat.testBit_mod_two_pow, Nat.testBit_shiftRight, Nat.testBit_two_pow_sub_one]
      have : ∀ k < 8, (0xFF : Byte).getLsbD k = true := by decide
      rw [this j hj]
      simp
      omega
    have hbyte : BitVec.ofNat 8 (bits (bits (leNat bs) 0 (8 * bs.length) * 2 ^ 0) (8 * i) 8) = bs[i] := by
      have hget := getElem?_leBytes (v := leNat bs) hi
      rw [leBytes_leNat, List.getElem?_eq_getElem hi, Option.some_inj] at hget
      rw [hget, Nat.pow_zero, Nat.mul_one, show bits (leNat bs) 0 (8 * bs.length) = leNat bs by
        rw [bits, Nat.shiftRight_zero, Nat.mod_eq_of_lt (leNat_lt bs)], bits, Nat.shiftRight_eq_div_pow, Nat.pow_mul]
      refine BitVec.eq_of_toNat_eq ?_
      rw [BitVec.toNat_ofNat, BitVec.toNat_ofNat, Nat.mod_mod]
    rw [List.getElem?_map, List.getElem?_map, getElem?_upFrom 0 hi, Option.map_some, Nat.zero_add, hmask, hbyte, List.getElem?_eq_getElem hi]
    rfl
  · rw [List.getElem?_eq_none (by rw [List.length_map, length_upFrom]; omega), List.getElem?_eq_none (by rw [List.length_map]; omega)]

theorem placed_whole (locs : List Loc) (bs : List Byte) :
    placed locs (bs.map (fun b => ((0xFF : Byte), b))) = wholeBytes (locs.map (·.key)) bs := by
  unfold placed wholeBytes
  rw [List.zip_map_left, List.zip_map_right, List.map_map, List.map_map]
  rfl

/-- An element of whole bytes without a block scale: its bytes go to their places. -/
theorem copyStep_whole {t n : Nat} {u v w : State} {bs : List Byte} {locs : List Loc} (hblk : dBlk (cSrc e.block.toNat) = 0)
    (hew : fmtEw (dFmt (cSrc e.block.toNat)) = 8 * n) (hsrc : (bitSpan (dBit (cSrc e.block.toNat) t) (8 * n)).2 = (n, 0))
    (hdst : (bitSpan (dBit (cDst e.block.toNat) t) (8 * n)).2 = (n, 0))
    (hread : engRead e (bitSpan (dBit (cSrc e.block.toNat) t) (8 * n)).1 n u = .ok bs v)
    (hreach : engReach e true (bitSpan (dBit (cDst e.block.toNat) t) (8 * n)).1 n u = .ok locs w) :
    ∃ keys, copyStep e t u = .ok (keys, wholeBytes (locs.map (·.key)) bs) u ∧ bs.length = n ∧ locs.length = n := by
  obtain ⟨keys, u', hplaces, hcount⟩ := Eng.bind_eq_ok hread
  have hu' : u' = u := by
    obtain ⟨l, u1, hr, hp⟩ := Eng.bind_eq_ok hplaces
    cases engReach_state hr
    split at hp
    · cases hp
    · cases hp
      rfl
  have hw : w = u := engReach_state hreach
  have hlen := engPlaces_length hplaces
  subst hu' hw
  cases hcount
  have hbs : (keys.map (readByte w.dev)).length = n := by rw [List.length_map, hlen]
  have hwhole := copyBytes_whole (keys.map (readByte w.dev))
  rw [hbs] at hwhole
  refine ⟨keys, ?_, hbs, engReach_length hreach⟩
  unfold copyStep
  dsimp only
  rw [if_neg (by simp [hblk]), hew]
  dsimp only [Eng.bind]
  rw [hsrc, hdst]
  dsimp only
  rw [hplaces]
  dsimp only
  rw [hreach]
  dsimp only
  rw [hwhole, placed_whole, List.nil_append, List.nil_append]

/-- The bytes of such an element, put. -/
theorem copyPut_whole {u : State} {keys : List Nat} {locs : List Loc} {bs : List Byte} (hlen : bs.length = locs.length)
    (hn : (locs.map (·.key)).Nodup) (hr : u.dev.retire = []) (hw : u.dev.mwatch = []) :
    locs.map (fun l => readByte (copyPut e keys (wholeBytes (locs.map (·.key)) bs) u).dev l.key) = bs ∧
      ∀ key, key ∉ locs.map (·.key) → readByte (copyPut e keys (wholeBytes (locs.map (·.key)) bs) u).dev key = readByte u.dev key := by
  have hfst := map_fst_wholeBytes (keys := locs.map (·.key)) (bs := bs) (by rw [List.length_map, hlen])
  have hcount := countRead_frame e keys.eraseDups u
  have hdev : ∀ k, readByte (copyPut e keys (wholeBytes (locs.map (·.key)) bs) u).dev k =
      readByte (engPut e 0 (mergeBytes (wholeBytes (locs.map (·.key)) bs)) (countRead e keys.eraseDups u)).dev k := by
    intro k
    unfold copyPut engAnswered
    split <;> rfl
  obtain ⟨h1, h2⟩ := readByte_engPut_merged (e := e) (l := wholeBytes (locs.map (·.key)) bs) (u := countRead e keys.eraseDups u)
    (fun p hp => by obtain ⟨_, -, rfl⟩ := List.mem_map.mp hp; rfl) (by rw [hfst]; exact hn) (by rw [hcount]; exact hr) (by rw [hcount]; exact hw)
  refine ⟨List.ext_getElem? fun j => ?_, fun key hkey => ?_⟩
  · rw [List.getElem?_map]
    by_cases hj : j < locs.length
    · have hb : bs[j]? = some bs[j] := List.getElem?_eq_getElem (by omega)
      rw [List.getElem?_eq_getElem hj, Option.map_some, hb, hdev,
        h1 _ (mem_wholeBytes (k := locs[j].key) (by rw [List.getElem?_map, List.getElem?_eq_getElem hj]; rfl) hb)]
    · rw [List.getElem?_eq_none (by omega), List.getElem?_eq_none (by omega)]
      rfl
  · rw [hdev, h2 key (by rw [hfst]; exact hkey), hcount]
    rfl

/-! ## The table commands by name -/

/-- How each table command is performed. -/
theorem exec_table {i : Instr} {op : EngOp} (h : (i, op) ∈ [(Instr.pfxlkExecute, EngOp.pfxlk), (.pfxinsExecute, .pfxins), (.pfxunpinExecute, .pfxunpin)]) :
    ∃ go, (∀ s, exec i s = .next (pfxTurn op go s)) ∧
      (∀ step, (op, step) ∈ [(EngOp.pfxlk, lookStep), (.pfxins, insertStep)] → go = keyRun step) ∧ (op = .pfxunpin → go = unpinRun) := by
  simp only [List.mem_cons, List.not_mem_nil, or_false, Prod.mk.injEq] at h
  rcases h with ⟨rfl, rfl⟩ | ⟨rfl, rfl⟩ | ⟨rfl, rfl⟩
  · exact ⟨keyRun lookStep, fun _ => rfl, fun step hs => by simp at hs; rw [hs], fun h => by cases h⟩
  · exact ⟨keyRun insertStep, fun _ => rfl, fun step hs => by simp at hs; rw [hs], fun h => by cases h⟩
  · exact ⟨unpinRun, fun _ => rfl, fun step hs => by simp at hs, fun _ => rfl⟩

section

variable {op : EngOp} {i : Instr} {d : Entry} (h : AtHead s 4 op e) (hone : (eventSlot s).dev.arg.num = 1)
  (hb : pfxBegin e (eventSlot s) = .ok d) (hp : d.prog < pN d.block.toNat)

include h hone hb hp

/-- A key step of `pfxlk` or `pfxins` (R309, R310). -/
theorem keyTurn_spec {step : Entry → State → Eng KeyStep} (hi : exec i s = .next (pfxTurn op (keyRun step) s)) :
    (∀ v, step d (eventSlot s) = .ok .on v →
      (d.prog + 1 = pN d.block.toNat → ∀ w t,
        engWrite d (pOut d.block.toNat) (leBytes 8 (d.prog + 1 + 0 * 2 ^ 32)) (engAnswered d v) = .ok () w →
        t = finishHead 4 { d with prog := d.prog + 1 } (4 * (d.prog + 1) + 8) 0 0 (engAnswered d w) → exec i s = .next (served s 4 t)) ∧
      (d.prog + 1 < pN d.block.toNat → ∀ t, t = setHead 4 { d with prog := d.prog + 1 } (engAnswered d v) → exec i s = .next (served s 4 t))) ∧
    (∀ v st w t, step d (eventSlot s) = .ok (.off st) v → engWrite d (pOut d.block.toNat) (leBytes 8 (d.prog + st * 2 ^ 32)) v = .ok () w →
      t = finishHead 4 d (4 * d.prog + 8) 0 0 (engAnswered d w) → exec i s = .next (served s 4 t)) ∧
    (∀ c o w t, step d (eventSlot s) = .err c o → engWrite d (pOut d.block.toNat) (leBytes 8 (d.prog + 3 * 2 ^ 32)) (eventSlot s) = .ok () w →
      t = finishHead 4 d (4 * d.prog + 8) c o (engAnswered d w) → exec i s = .next (served s 4 t)) := by
  obtain ⟨hon, hoff, herr⟩ := keyRun_one (step := step) (if e.vl = 1 then e.prog + 1 else 0) (u := eventSlot s) hp
  have hzero := fun v => keyRun_zero (e := { d with prog := d.prog + 1 }) (step := step) (if e.vl = 1 then e.prog + 1 else 0) (v := engAnswered d v)
  refine ⟨fun v hv => ⟨fun hall w t hw ht => ?_, fun hmore t ht => ?_⟩, fun v st w t hv hw ht => ?_, fun c o w t hv hw ht => ?_⟩ <;> subst ht
  · exact tableTurn_goes hi h hone hb ((hon v hv).trans (((hzero v).1 hall).trans (pfxEnd_ok (e := { d with prog := d.prog + 1 }) hw)))
  · exact tableTurn_goes hi h hone hb ((hon v hv).trans ((hzero v).2 hmore))
  · exact tableTurn_goes hi h hone hb ((hoff v st hv).trans (pfxEnd_ok hw))
  · exact tableTurn_goes hi h hone hb ((herr c o hv).trans (pfxEnd_ok hw))

/-- A key step of `pfxunpin` (R311). -/
theorem unpinTurn_spec (hi : exec i s = .next (pfxTurn op unpinRun s)) :
    (∀ taken v, unpinStep d (eventSlot s) = .ok taken v → ∀ d', d' = { d with prog := d.prog + 1, acc := if taken then d.acc + 1 else d.acc } →
      (d.prog + 1 = pN d.block.toNat → ∀ w t, engWrite d (pOut d.block.toNat) (leBytes 8 (d'.acc + 0 * 2 ^ 32)) (engAnswered d v) = .ok () w →
        t = finishHead 4 d' 8 0 0 (engAnswered d w) → exec i s = .next (served s 4 t)) ∧
      (d.prog + 1 < pN d.block.toNat → ∀ t, t = setHead 4 d' (engAnswered d v) → exec i s = .next (served s 4 t))) ∧
    (∀ c o w t, unpinStep d (eventSlot s) = .err c o → engWrite d (pOut d.block.toNat) (leBytes 8 (d.prog + 3 * 2 ^ 32)) (eventSlot s) = .ok () w →
      t = finishHead 4 d 8 c o (engAnswered d w) → exec i s = .next (served s 4 t)) := by
  obtain ⟨hok, herr⟩ := unpinRun_one (if e.vl = 1 then e.prog + 1 else 0) (u := eventSlot s) hp
  refine ⟨fun taken v hv d' hd' => ?_, fun c o w t hv hw ht => ?_⟩
  · have hzero := unpinRun_zero (e := d') (if e.vl = 1 then e.prog + 1 else 0) (v := engAnswered d v)
    have hrun := hok taken v hv
    rw [← hd'] at hrun
    refine ⟨fun hall w t hw ht => ?_, fun hmore t ht => ?_⟩ <;> subst ht
    · have hend : pfxEnd (if e.vl = 1 then e.prog + 1 else 0) d' d'.acc 0 8 0 0 (engAnswered d v) = some (finishHead 4 d' 8 0 0 (engAnswered d w)) := by
        subst hd'
        exact pfxEnd_ok (e := { d with prog := d.prog + 1, acc := if taken then d.acc + 1 else d.acc }) hw
      exact tableTurn_goes hi h hone hb (hrun.trans ((hzero.1 (by rw [hd']; exact hall)).trans hend))
    · exact tableTurn_goes hi h hone hb (hrun.trans (hzero.2 (by rw [hd']; exact hmore)))
  · subst ht
    exact tableTurn_goes hi h hone hb ((herr c o hv).trans (pfxEnd_ok hw))

end

end Sys2Proof.Machine
end

section
/-! PROOFS. One turn of each engine, together (O55). -/

namespace Sys2Proof.Machine

/-- Settles O55: each engine's turn is its run from the head, which the lemmas above give step by step; the bytes of a copy, the trains of a
scatter and the results of a collective are read off the lists that make them up. -/
theorem engineEvents : Obligations.EngineEvents := by
  unfold Obligations.EngineEvents
  refine ⟨?events, ?copy, fun own e tail xs dn hz => trainsOf_spec own hz tail xs dn, ?results, ?ints, fun f hf x y => reduceElem_two hf x y⟩
  case copy =>
    intro e t n u v w bs locs b hblk hew hn hsrc hdst hread hreach hnodup hr hw
    obtain ⟨keys, hstep, hbs, hlocs⟩ := copyStep_whole hblk hew hsrc hdst hread hreach
    exact ⟨_, hstep, copyPut_whole (hbs.trans hlocs.symm) hnodup hr hw⟩
  case results =>
    intro b i n srcs w hf at'
    exact ⟨fun hop k hk => collResult_reduce hf hop hk, fun hop hn hlen => by subst hn; exact collResult_gather hop hlen⟩
  case ints =>
    intro f l hf hl hlt
    obtain ⟨hmin, hminle⟩ := reduceElem_min hf hl
    obtain ⟨hmax, hmaxle⟩ := reduceElem_max hf hl
    exact ⟨reduceElem_sum hf hl hlt, fun x hx => ⟨hminle x hx, hmaxle x hx⟩, hmin, hmax⟩
  case events =>
    intro s e u b home back head p one own
    have hat : ∀ {q op}, head q op → AtHead s q op e := fun h => ⟨h.1, h.2⟩
    refine ⟨?cpy, ?rgath, ?rscat, ?segment, ?group, ?devices, ?hash, ?hashErr, ?table, ?timeout, ?complete⟩
    case cpy =>
      intro hh m x v hspan hend
      obtain ⟨hrun, herr⟩ := cpyExecute_spec (hat hh) hspan hend
      refine ⟨fun hnum => ⟨fun hall => served_of_eq ((hrun hnum).1 hall) rfl, fun hmore hl => served_of_eq ((hrun hnum).2 hmore hl) rfl⟩,
        fun c o hnum hmore h => served_of_eq (herr c o hnum hmore h) rfl⟩
    case rgath =>
      intro hh hone hp went failed
      have hfail : ∀ {c o}, gatherStep e e.prog u = .err c o → failed c o := by
        intro c o h
        exact served_of_eq (rgathExecute_err (hat hh) hone hp h) (gatherFailed_left e c o (engAnswered e u)).symm
      refine ⟨fun c o hr => hfail (gatherStep_list hr), fun ab v1 hr => ⟨fun ha => hfail (gatherStep_misaligned hr ha), fun ha => ?_⟩, ?asks, ?waits⟩
      case asks => exact fun dn o k n hw => served_of_eq (rgathExecute_asks (hat hh) hone hp hw) rfl
      case waits => exact fun dn hw => rgathExecute_waits (hat hh) hone hp hw
      have hstep := gatherStep_listed hr ha
      refine ⟨fun c o h => hfail (hstep.trans (by rw [h]; rfl)), fun bs v2 h => ⟨fun c o hw => hfail (hstep.trans (by rw [h]; exact hw)),
        fun v3 hw => ?_⟩⟩
      exact served_of_eq (rgathExecute_ok (hat hh) hone hp (hstep.trans (by rw [h]; exact hw))) rfl
    case rscat =>
      intro hh hnum hplan hprog
      refine ⟨fun c o h => served_of_eq (rscatExecute_planErr (hat hh) hplan h) rfl, fun xs v hok =>
        ⟨fun c h => served_of_eq (rscatExecute_tailErr (hat hh) hplan hok h) rfl, fun tail htail hne hown hz => ?_⟩⟩
      intro e' n
      exact served_of_eq (rscatExecute_own (hat hh) hnum hplan hprog hok htail hne hown hz) rfl
    case segment =>
      intro hh hone g hg
      obtain ⟨hgone, hgo⟩ := rscatExecute_segment (hat hh) hone hg
      refine ⟨fun hother hun => served_of_eq (hgone hother hun) rfl, fun hreach => ⟨fun dn o w k n hw => served_of_eq ((hgo hreach).1 dn o w k n hw) rfl,
        fun hw e' he' => served_of_eq ((hgo hreach).2 hw e' he') rfl⟩⟩
    case group =>
      intro hh hk es slots n ms srcs hlen hheads
      refine ⟨fun hdiff t ht => served_of_eq (exec_collExecute_group (hat hh) hk (collGroup_differ rfl hlen hheads hdiff ht)) rfl,
        fun hsame l v t hl hread hreach hwrite =>
          served_of_eq (exec_collExecute_group (hat hh) hk (collGroup_agree rfl hlen hheads hsame hl hread hreach hwrite)) rfl⟩
    case devices =>
      intro hh hk
      refine ⟨fun hok => ?_, fun hok => ?_⟩
      · refine served_of_eq (exec_collExecute_devices (hat hh) hk (t := finishHead 2 e 0 0x44 0 u) ?_) rfl
        rw [show (eventSlot s).dev.arg.ok = false from hok]
        rfl
      · intro dns i srcs hlen hparts hi hmany mine v w hmine hread hwrite
        refine served_of_eq (exec_collExecute_devices (hat hh) hk
          (t := finishHead 2 e (collResult b i dns.length srcs).length 0 0 (engAnswered e w)) ?_) rfl
        rw [show (eventSlot s).dev.arg.ok = true from hok]
        exact collDevices_agree rfl rfl hlen hparts hmine hmany hread hwrite
    case hash =>
      intro hh hone hp c toks v1 v2 v3 v4 l1 l2 hchain htoks h keys out hkeys hout hkey hval
      exact served_of_eq (pfxhExecute_ok (hat hh) hone hp (hashStep_ok hchain htoks hkeys hout hkey hval)) rfl
    case hashErr =>
      intro hh hone hp c o herr
      exact served_of_eq (pfxhExecute_err (hat hh) hone hp herr) rfl
    case table =>
      intro i op hi hh hone reg ends
      obtain ⟨go, hgo, hkeys, hunpin⟩ := exec_table hi
      refine ⟨fun hv => ⟨fun c h => served_of_eq (tableTurn_ends (hgo s) (hat hh) (pfxBegin_fault hv h)) rfl, fun l h hreg w hw =>
        served_of_eq (tableTurn_ends (hgo s) (hat hh) (pfxBegin_disabled hv h hreg hw)) rfl⟩, fun d hd hp => ?_⟩
      have hb := pfxBegin_ok hd
      obtain ⟨x, y, hxy⟩ : ∃ x y, d = { e with vl := x, vlvalid := y } := by
        rcases hd with ⟨-, hde⟩ | ⟨-, -, -, -, hde⟩
        · exact ⟨e.vl, e.vlvalid, hde⟩
        · exact ⟨_, _, hde⟩
      subst hxy
      refine ⟨fun step hs => ?_, fun hop => ?_⟩
      · obtain ⟨hon, hoff, herr⟩ := keyTurn_spec (hat hh) hone hb hp (hkeys step hs ▸ hgo s)
        exact ⟨fun v hv => ⟨fun hall w hw => (hon v hv).1 hall w _ hw rfl, fun hmore => (hon v hv).2 hmore _ rfl⟩,
          fun v st hv w hw => hoff v st w _ hv hw rfl, fun c o _ hv w hw => herr c o w _ hv hw rfl⟩
      · obtain ⟨hok, herr⟩ := unpinTurn_spec (hat hh) hone hb hp (hunpin hop ▸ hgo s)
        exact ⟨fun taken v hv => ⟨fun hall w hw => (hok taken v hv _ rfl).1 hall w _ hw rfl, fun hmore => (hok taken v hv _ rfl).2 hmore _ rfl⟩,
          fun c o _ hv w hw => herr c o w _ hv hw rfl⟩
    case timeout =>
      intro q op dn hq hhead hidx hlong hwait t
      rw [exec_remoteTimeout hq hhead hidx hlong hwait]
      obtain ⟨hop, -⟩ := headEntry_wider hhead (p := fun x => x = op) (by simp)
      unfold timedOut
      rw [hop]
      fin_cases hq <;> rfl
    case complete =>
      intro q x hidx hhead hdone popped
      refine ⟨fun hop => engineEntryComplete_bar hidx hhead hdone hop ?_, fun hop => engineEntryComplete_flags hidx hhead hdone hop⟩
      unfold completeOn setOut outOf
      rw [setQueue_out]
      rfl

end Sys2Proof.Machine
end

section
/-! PROOFS. The dispatcher (O56): the registers of a queue, a packet consumed, started and completed, a launch admitted, placed and late. -/

namespace Sys2Proof.Machine

/-! ## The registers of a queue (R217, R220) -/

theorem mapQueue_in {q : Nat} (h : q < 1024) (f : UQueue → UQueue) (d : Device) : mapQueue q f d = setQueueRegs q (f (queueAt d q)) d :=
  if_neg (by omega)

theorem writeQcfg_on {v : Word} {next : Nat} {u : UQueue} (h : queueOn u = true) :
    writeQcfg v next u = { u with qcfg := (u.qcfg &&& ~~~0x40) ||| (v &&& 0x40) } := if_pos h

theorem bit6_and (v : Word) (m : Word) : bit (v &&& m).toNat 6 = (v.toNat.testBit 6 && m.toNat.testBit 6) := by
  unfold bit
  rw [BitVec.toNat_and, Nat.testBit_and]

/-- A queue enabled starts afresh. -/
theorem writeQcfg_enable {v : Word} {next : Nat} {u : UQueue} (h : queueOn u = false) (h6 : 6 ≤ v.toNat % 32) (h16 : v.toNat % 32 ≤ 16)
    (hv : v.toNat.testBit 6 = true) :
    writeQcfg v next u = { u with qcfg := v &&& 0xFFFFFFF7F, qrd := 0, qstat := 0, qnotify := 0, wait := false, first := next } := by
  unfold writeQcfg
  rw [if_neg (by simp [h])]
  dsimp only
  rw [show bits v.toNat 0 5 = v.toNat % 32 from by rw [bits, Nat.shiftRight_zero]; rfl, if_pos (show (decide (6 ≤ v.toNat % 32) && decide (v.toNat % 32 ≤ 16)) = true by simp [h6, h16])]
  exact if_pos (by rw [bit6_and, hv]; decide)

/-- A queue of another size is not enabled. -/
theorem writeQcfg_size {v : Word} {next : Nat} {u : UQueue} (h : queueOn u = false) (hsize : v.toNat % 32 < 6 ∨ 16 < v.toNat % 32) :
    writeQcfg v next u = { u with qcfg := v &&& 0xFFFFFFF3F } := by
  unfold writeQcfg
  rw [if_neg (by simp [h])]
  dsimp only
  rw [show bits v.toNat 0 5 = v.toNat % 32 from by rw [bits, Nat.shiftRight_zero]; rfl, if_neg (show ¬(decide (6 ≤ v.toNat % 32) && decide (v.toNat % 32 ≤ 16)) = true by simp; omega)]
  exact if_neg (by rw [bit6_and, show (0xFFFFFFF3F : Word).toNat.testBit 6 = false from by decide, Bool.and_false]; exact Bool.false_ne_true)

/-! ## A packet consumed (R218, R220) -/

section

variable {q : Nat} {d : Device} {b0 : List Byte} (hon : queueOn (queueAt d q) = true) (hstat : (queueAt d q).qstat = 0)
  (hwait : (queueAt d q).wait = false) (hrd : (queueAt d q).qrd.toNat < (queueAt d q).qnotify.toNat)
  (h0 : ctxRead d (queueCtx (queueAt d q)) (packetAddr (queueAt d q)) 1 = .ok b0)

include hon hstat hwait hrd h0

theorem consumePacket_invalid (hv : (leNat b0).testBit 0 = false) : consumePacket q d = setQueueRegs q { queueAt d q with wait := true } d := by
  unfold consumePacket
  dsimp only
  rw [if_neg (by simp [hon, hstat, hwait]; omega), h0]
  exact if_pos (by simp [bit, hv])

theorem consumePacket_bad (hv : (leNat b0).testBit 0 = true) {bs : List Byte}
    (hb : ctxRead d (queueCtx (queueAt d q)) (packetAddr (queueAt d q)) 64 = .ok bs) (hbad : packetBad (queueAt d q) (leNat bs) = true) :
    consumePacket q d = stopQueue q 1 (packetAddr (queueAt d q)) d := by
  unfold consumePacket
  dsimp only
  rw [if_neg (by simp [hon, hstat, hwait]; omega), h0]
  dsimp only
  rw [if_neg (by simp [bit, hv]), hb]
  exact if_pos hbad

theorem consumePacket_good (hv : (leNat b0).testBit 0 = true) {bs : List Byte} {d' : Device}
    (hb : ctxRead d (queueCtx (queueAt d q)) (packetAddr (queueAt d q)) 64 = .ok bs) (hgood : packetBad (queueAt d q) (leNat bs) = false)
    (hlist : listMiss d (queueCtx (queueAt d q)) (leNat bs) = none)
    (hw : ctxWrite 0 (queueCtx (queueAt d q)) (packetAddr (queueAt d q)) [0] d = .ok d') :
    consumePacket q d = setQueueRegs q { queueAt d q with qrd := (queueAt d q).qrd + 1 }
      { d' with packets := SMap.put d'.packets d'.nextId (packetOf q (queueAt d q) (leNat bs)), nextId := d'.nextId + 1 } := by
  unfold consumePacket
  dsimp only
  rw [if_neg (by simp [hon, hstat, hwait]; omega), h0]
  dsimp only
  rw [if_neg (by simp [bit, hv]), hb]
  dsimp only
  rw [if_neg (by simp [hgood]), hlist]
  dsimp only
  rw [hw]

end

theorem homes_ctxWrite {op c va : Nat} {bs : List Byte} {d d' : Device} (h : ctxWrite op c va bs d = .ok d') : Homes d d' := by
  unfold ctxWrite at h
  split at h
  · cases h
  · cases h
    exact homes_performHome ..

theorem ctxWrite_nextId {op c va : Nat} {bs : List Byte} {d d' : Device} (h : ctxWrite op c va bs d = .ok d') : d'.nextId = d.nextId := by
  rw [(homes_ctxWrite h).frame]

/-! ## A packet started (R219) -/

/-- The launch that a packet offers for a list of TCBs. -/
def offeredFor (p : Nat) (pk : Packet) (c order : Nat) (tcbs : List Nat) : Launch :=
  { Launch.offered c pk.queue order pk.acct with
    packet := some p, dead := bit pk.flags 0, abort := bit pk.flags 1, deadline := pk.deadline, tcbs := tcbs }

/-- Launches offered one after the other. -/
def offerLists (p : Nat) (pk : Packet) (c : Nat) (lists : List (List Nat)) (d : Device) : Device :=
  lists.foldl (fun d tcbs => { setLaunch d.nextId (offeredFor p pk c d.ser tcbs) d with nextId := d.nextId + 1, ser := d.ser + 1 }) d

theorem offerLists_spec (p : Nat) (pk : Packet) (c : Nat) (lists : List (List Nat)) (d : Device) :
    (offerLists p pk c lists d).nextId = d.nextId + lists.length ∧ (offerLists p pk c lists d).packets = d.packets ∧
      (∀ i tcbs, lists[i]? = some tcbs → SMap.find (offerLists p pk c lists d).launches (d.nextId + i) = some (offeredFor p pk c (d.ser + i) tcbs)) ∧
      ∀ k, k < d.nextId → SMap.find (offerLists p pk c lists d).launches k = SMap.find d.launches k := by
  induction lists generalizing d with
  | nil => exact ⟨rfl, rfl, by simp, fun _ _ => rfl⟩
  | cons t lists ih =>
    obtain ⟨hnext, hpk, hnew, hold⟩ := ih { setLaunch d.nextId (offeredFor p pk c d.ser t) d with nextId := d.nextId + 1, ser := d.ser + 1 }
    refine ⟨hnext.trans ?_, hpk, fun i tcbs hi => ?_, fun k hk => ?_⟩
    · rw [List.length_cons]
      show d.nextId + 1 + lists.length = _
      omega
    · cases i with
      | zero =>
        cases hi
        refine (hold d.nextId (Nat.lt_succ_self _)).trans ?_
        exact (SMap.find_put ..).trans (if_pos rfl)
      | succ i =>
        have := hnew i tcbs hi
        rwa [show ({ setLaunch d.nextId (offeredFor p pk c d.ser t) d with nextId := d.nextId + 1, ser := d.ser + 1 } : Device).nextId + i =
          d.nextId + (i + 1) by show d.nextId + 1 + i = _; omega,
          show ({ setLaunch d.nextId (offeredFor p pk c d.ser t) d with nextId := d.nextId + 1, ser := d.ser + 1 } : Device).ser + i =
          d.ser + (i + 1) by show d.ser + 1 + i = _; omega] at this
    · refine (hold k (Nat.lt_succ_of_lt hk)).trans ?_
      exact (SMap.find_put ..).trans (if_neg (by omega))

theorem startPacket_offers {p : Nat} {d : Device} {pk : Packet} (hpk : SMap.find d.packets p = some pk) (hmay : mayStart d p pk = true)
    (htyp : pk.typ < 2) :
    let lists := if pk.typ = 0 then [pk.tcbs] else pk.tcbs.map (fun t => [t])
    let c := queueCtx (queueAt d pk.queue)
    let e := offerLists p pk c lists { d with packets := SMap.put d.packets p { pk with phase := 1 } }
    startPacket p d = { e with packets := SMap.put e.packets p { pk with phase := 1, launches := upFrom (e.nextId - lists.length) lists.length } } := by
  intro lists c e
  unfold startPacket
  rw [hpk]
  exact if_pos (by simp [htyp, hmay])

/-! ## BARRIER and SIGNAL packets (R219) -/

theorem passBarrier_ready {p : Nat} {d : Device} {pk : Packet} (hpk : SMap.find d.packets p = some pk) (htyp : pk.typ = 2) (hphase : pk.phase = 0)
    (hear : ∀ x ∈ earlier d p pk, x.phase = 2) :
    (pk.arg0 = 0 → passBarrier p d = completePacket p d) ∧
      ∀ bs, pk.arg0 ≠ 0 → ctxRead d (queueCtx (queueAt d pk.queue)) pk.arg0 8 = .ok bs →
        passBarrier p d = if (w64 (leNat bs)).toInt ≤ pk.arg1.toInt then completePacket p d else d := by
  have hall : (pk.typ = 2 && pk.phase = 0 && (earlier d p pk).all (fun x => x.phase = 2)) = true := by
    simp [htyp, hphase]
    exact hear
  refine ⟨fun h0 => ?_, fun bs h0 hb => ?_⟩ <;> unfold passBarrier <;> rw [hpk] <;> dsimp only <;> rw [if_pos hall]
  · exact if_pos h0
  · rw [if_neg h0, hb]

theorem signalPacket_done {p : Nat} {d d' : Device} {pk : Packet} {bs : List Byte} (hpk : SMap.find d.packets p = some pk) (htyp : pk.typ = 3)
    (hmay : mayStart d p pk = true) (hb : ctxRead d (queueCtx (queueAt d pk.queue)) pk.arg0 8 = .ok bs)
    (hw : ctxWrite 1 (queueCtx (queueAt d pk.queue)) pk.arg0 (leBytes 8 (w64 (leNat bs) - pk.arg1).toNat) d = .ok d') :
    signalPacket p d = completePacket p d' := by
  unfold signalPacket
  rw [hpk]
  dsimp only
  rw [if_pos (by simp [htyp, hmay]), hb]
  dsimp only
  rw [hw]

/-! ## Admission (R221 to R223) -/

theorem mapLaunch_found {id : Nat} {f : Launch → Launch} {d : Device} {l : Launch} (h : SMap.find d.launches id = some l) :
    mapLaunch id f d = setLaunch id (f l) d := by
  unfold mapLaunch
  rw [h]

theorem find_setLaunch (id : Nat) (l : Launch) (d : Device) (j : Nat) :
    SMap.find (setLaunch id l d).launches j = if j = id then some l else SMap.find d.launches j := SMap.find_put ..

theorem find_setTask (id : Nat) (t : Task) (d : Device) (j : Nat) :
    SMap.find (setTask id t d).tasks j = if j = id then some t else SMap.find d.tasks j := SMap.find_put ..

/-- A task as it is admitted: READY where PRED is 0, WAITING otherwise. -/
def admittedTask (id tcb idx b : Nat) : Task := { taskOf id tcb idx b with st := if bfield b 0 4 = 0 then 2 else 1 }

theorem setTaskState_launches {id st : Nat} {d : Device} {t : Task} (h : SMap.find d.tasks id = some t) :
    (setTaskState id st d).launches = d.launches := by
  rw [(homes_setTaskState h).frame]
  rfl

theorem chainTcb_tables (c tcb : Nat) (d : Device) : (chainTcb c tcb d).tasks = d.tasks ∧ (chainTcb c tcb d).launches = d.launches := by
  unfold chainTcb
  rw [(homes_ctxWriteOr ..).frame]
  exact ⟨rfl, rfl⟩

theorem admitTask_tables (id t idx tcb b : Nat) (l : Launch) (d : Device) :
    (admitTask id t idx tcb b l d).launches = d.launches ∧
      ∀ j, SMap.find (admitTask id t idx tcb b l d).tasks j = if j = t then some (admittedTask id tcb idx b) else SMap.find d.tasks j := by
  have hset : SMap.find (setTask t (taskOf id tcb idx b) d).tasks t = some (taskOf id tcb idx b) := (find_setTask ..).trans (if_pos rfl)
  unfold admitTask
  dsimp only
  by_cases hb : bfield b 0 4 = 0
  · rw [if_pos hb]
    refine ⟨setTaskState_launches hset, fun j => (find_setTaskState hset j).trans ?_⟩
    rw [find_setTask, admittedTask, if_pos hb]
    split_ifs <;> rfl
  · rw [if_neg hb, (chainTcb_tables ..).1, (chainTcb_tables ..).2]
    refine ⟨setTaskState_launches hset, fun j => (find_setTaskState hset j).trans ?_⟩
    rw [find_setTask, admittedTask, if_neg hb]
    split_ifs <;> rfl

/-- The tasks of a launch admitted one after the other, the first at index `k`. -/
def admitFrom (id base k : Nat) (l : Launch) (tcbs bs : List Nat) (d : Device) : Device :=
  ((upFrom k bs.length).zip (tcbs.zip bs)).foldl (fun d x => admitTask id (base + x.1) x.1 x.2.1 x.2.2 l d) d

theorem admitFrom_cons (id base k : Nat) (l : Launch) (t b : Nat) (tcbs bs : List Nat) (d : Device) :
    admitFrom id base k l (t :: tcbs) (b :: bs) d = admitFrom id base (k + 1) l tcbs bs (admitTask id (base + k) k t b l d) := rfl

theorem admitFrom_spec (id base : Nat) (l : Launch) (bs : List Nat) : ∀ (k : Nat) (tcbs : List Nat) (d : Device), tcbs.length = bs.length →
    (admitFrom id base k l tcbs bs d).launches = d.launches ∧
      (∀ j, j < base + k → SMap.find (admitFrom id base k l tcbs bs d).tasks j = SMap.find d.tasks j) ∧
      ∀ i b tcb, bs[i]? = some b → tcbs[i]? = some tcb →
        SMap.find (admitFrom id base k l tcbs bs d).tasks (base + (k + i)) = some (admittedTask id tcb (k + i) b) := by
  induction bs with
  | nil => exact fun k tcbs d h => ⟨rfl, fun _ _ => rfl, by simp⟩
  | cons b bs ih =>
    intro k tcbs d hlen
    obtain _ | ⟨t, tcbs⟩ := tcbs
    · simp at hlen
    rw [admitFrom_cons]
    obtain ⟨hl, hold, hnew⟩ := ih (k + 1) tcbs (admitTask id (base + k) k t b l d) (by simpa using hlen)
    obtain ⟨hl1, hfind⟩ := admitTask_tables id (base + k) k t b l d
    refine ⟨hl.trans hl1, fun j hj => ?_, fun i b' tcb hb ht => ?_⟩
    · rw [hold j (by omega), hfind, if_neg (by omega)]
    · cases i with
      | zero =>
        cases hb
        cases ht
        rw [hold _ (by omega), hfind]
        exact if_pos rfl
      | succ i =>
        have := hnew i b' tcb hb ht
        rwa [show k + 1 + i = k + (i + 1) by omega] at this

/-- The launch and its tasks once its blocks have passed. -/
theorem admitLaunch_spec {id : Nat} {m : Launch} {bs : List Nat} {d : Device} (hlen : m.tcbs.length = bs.length) :
    SMap.find (admitLaunch id m bs d).launches id =
        some { m with phase := 1, admitted := d.ser + 1, tasks := upFrom d.nextId bs.length, sig := bfield (bs.headD 0) 104 8 } ∧
      ∀ i b tcb, bs[i]? = some b → m.tcbs[i]? = some tcb →
        SMap.find (admitLaunch id m bs d).tasks (d.nextId + i) = some (admittedTask id tcb i b) := by
  have hfold : admitLaunch id m bs d = admitFrom id d.nextId 0 m m.tcbs bs
      (setLaunch id { m with phase := 1, admitted := d.ser + 1, tasks := upFrom d.nextId bs.length, sig := bfield (bs.headD 0) 104 8 }
        { d with nextId := d.nextId + bs.length, ser := d.ser + 1 }) := by
    unfold admitLaunch admitFrom
    dsimp only
    refine List.foldl_ext _ _ _ fun e x hx => ?_
    have hlt : x.1 < bs.length := mem_upFrom_zero.mp (List.of_mem_zip hx).1
    rw [List.getD_eq_getElem?_getD, getElem?_upFrom _ hlt]
    rfl
  rw [hfold]
  obtain ⟨hl, -, hnew⟩ := admitFrom_spec id d.nextId m bs 0 m.tcbs
    (setLaunch id { m with phase := 1, admitted := d.ser + 1, tasks := upFrom d.nextId bs.length, sig := bfield (bs.headD 0) 104 8 }
      { d with nextId := d.nextId + bs.length, ser := d.ser + 1 }) hlen
  refine ⟨?_, fun i b tcb hb ht => ?_⟩
  · rw [hl, find_setLaunch, if_pos rfl]
  · have := hnew i b tcb hb ht
    rwa [Nat.zero_add] at this

section

variable {id : Nat} {d : Device} {l : Launch} (hl : SMap.find d.launches id = some l) (hphase : l.phase = 0)

include hl hphase

theorem decideLaunch_blocks {v : Nat} (h : tcbBlocks d l = .error v) : decideLaunch id d = rejectLaunch id 4 v (knownSignal d l) l d := by
  unfold decideLaunch
  rw [hl]
  dsimp only
  rw [if_neg (by simp [hphase]), h]

theorem decideLaunch_refused {bs : List Nat} {c v : Nat} (h : tcbBlocks d l = .ok bs) (hc : checkLaunchTcbs d l bs = .error (c, v)) :
    decideLaunch id d = rejectLaunch id c v (bfield (bs.headD 0) 104 8) l d := by
  unfold decideLaunch
  rw [hl]
  dsimp only
  rw [if_neg (by simp [hphase]), h]
  dsimp only
  rw [hc]

theorem decideLaunch_admits {bs : List Nat} {m : Launch} (h : tcbBlocks d l = .ok bs) (hc : checkLaunchTcbs d l bs = .ok m) :
    decideLaunch id d = admitLaunch id m bs d := by
  unfold decideLaunch
  rw [hl]
  dsimp only
  rw [if_neg (by simp [hphase]), h]
  dsimp only
  rw [hc]

end

/-! ## Placement (R224, R225) -/

theorem mem_ascending {a : Nat} {r : List Nat} (h : ascending (a :: r) = true) : ∀ b ∈ r, a < b := by
  induction r generalizing a with
  | nil => simp
  | cons c r ih =>
    rw [ascending, Bool.and_eq_true, decide_eq_true_eq] at h
    intro b hb
    obtain rfl | hb := List.mem_cons.mp hb
    · exact h.1
    · exact Nat.lt_trans h.1 (ih h.2 b hb)

theorem ascending_tail {a : Nat} {r : List Nat} (h : ascending (a :: r) = true) : ascending r = true := by
  cases r with
  | nil => rfl
  | cons b r =>
    rw [ascending, Bool.and_eq_true] at h
    exact h.2

/-- A slot as a launch is placed on it, its threads at their entries. -/
structure PlacedSlot (id j : Nat) (l : Launch) (sl : Slot) : Prop where
  st : sl.st = .running
  launch : sl.launch = id
  lslot : sl.lslot = j
  ctx : sl.ctx = l.ctx
  acct : sl.acct = l.acct
  ths : ∀ e ∈ entriesOf l.cfg, ∃ (d : Device) (n : Nat) (sl0 : Slot) (h : Bool),
    SMap.get Thread.absent sl.ths e.1 = { startThread d n sl0 l e.2 (3 * j + e.1) with halted := h }

theorem placeSlot_launches (id : Nat) (l : Launch) (j n : Nat) (d : Device) : (placeSlot id l j n d).launches = d.launches := by
  unfold placeSlot installSlot heldBack l1dDropAll zeroScratch dropAsks
  dsimp only
  split_ifs <;> rfl

theorem placeSlot_other (id : Nat) (l : Launch) (j n : Nat) (d : Device) {k : Nat} (h : k ≠ n) :
    slotOf (placeSlot id l j n d) k = slotOf d k := by
  unfold placeSlot installSlot heldBack l1dDropAll zeroScratch dropAsks slotOf
  dsimp only
  rw [SMap.get_set_ne _ _ _ _ _ h]
  split_ifs <;> rfl

theorem placeSlot_placed (id : Nat) (l : Launch) (j n : Nat) (d : Device) : PlacedSlot id j l (slotOf (placeSlot id l j n d) n) := by
  have hslot : slotOf (placeSlot id l j n d) n = (heldBack n { emptySlot d n j id l with
      ths := (entriesOf l.cfg).map (fun e => (e.1, startThread d n (emptySlot d n j id l) l e.2 (3 * j + e.1))) } (dropAsks n d)).1 :=
    by
      unfold placeSlot installSlot slotOf
      dsimp only
      rw [SMap.get_set_self]
  rw [hslot]
  refine ⟨rfl, rfl, rfl, rfl, rfl, fun e he => ⟨d, n, emptySlot d n j id l, (SMap.get DbgBlk.reset (dropAsks n d).dbg (3 * n + e.1)).halt, ?_⟩⟩
  unfold entriesOf at he
  unfold heldBack entriesOf
  split_ifs at he ⊢
  · obtain rfl | rfl | rfl := by simpa using he
    all_goals rfl
  · obtain rfl := by simpa using he
    rfl

/-- The slots of a launch placed one after the other, the first as its slot `k`. -/
def placeSlots (id : Nat) (l : Launch) (k : Nat) (ns : List Nat) (d : Device) : Device :=
  ((upFrom k ns.length).zip ns).foldl (fun d p => placeSlot id l p.1 p.2 d) d

theorem placeSlots_cons (id : Nat) (l : Launch) (k n : Nat) (ns : List Nat) (d : Device) :
    placeSlots id l k (n :: ns) d = placeSlots id l (k + 1) ns (placeSlot id l k n d) := rfl

theorem placeSlots_spec (id : Nat) (l : Launch) (ns : List Nat) : ∀ (k : Nat) (d : Device), ascending ns = true →
    (placeSlots id l k ns d).launches = d.launches ∧ (∀ n, n ∉ ns → slotOf (placeSlots id l k ns d) n = slotOf d n) ∧
      ∀ j n, ns[j]? = some n → PlacedSlot id (k + j) l (slotOf (placeSlots id l k ns d) n) := by
  induction ns with
  | nil => exact fun k d _ => ⟨rfl, fun _ _ => rfl, by simp⟩
  | cons n ns ih =>
    intro k d hasc
    rw [placeSlots_cons]
    obtain ⟨hl, hold, hnew⟩ := ih (k + 1) (placeSlot id l k n d) (ascending_tail hasc)
    refine ⟨hl.trans (placeSlot_launches ..), fun m hm => ?_, fun j m hj => ?_⟩
    · rw [List.mem_cons, not_or] at hm
      rw [hold m hm.2, placeSlot_other _ _ _ _ _ hm.1]
    · cases j with
      | zero =>
        cases hj
        rw [hold n fun hmem => Nat.lt_irrefl n (mem_ascending hasc n hmem)]
        exact placeSlot_placed id l k n d
      | succ j =>
        have := hnew j m hj
        rwa [show k + 1 + j = k + (j + 1) by omega] at this

theorem startQueue_launches (q : Nat) (d : Device) : (startQueue q d).launches = d.launches := by
  unfold startQueue
  split_ifs
  · rfl
  · split <;> rfl

theorem placeLaunch_alone {id : Nat} {ns : List Nat} {num : Nat} {notes : List (List Byte)} {d : Device} {l : Launch}
    (hl : SMap.find d.launches id = some l) (hcut : l.cutting = none) (hw : waitsForSlots d l = true) (hn : isNext d l = true)
    (hf : slotsFit d l ns = true) : placeLaunch id ns num [] notes d = placeAlone id l ns d := by
  unfold placeLaunch
  rw [hl]
  dsimp only
  rw [if_neg (by simp [hw, hn, hf]), hcut]
  rfl

theorem placeAlone_spec {id : Nat} {l : Launch} {ns : List Nat} {d : Device} (hf : slotsFit d l ns = true) :
    SMap.find (placeAlone id l ns d).launches id = some { l with phase := 2, slots := ns } ∧
      ∀ j n, ns[j]? = some n → PlacedSlot id j l (slotOf (placeAlone id l ns d) n) := by
  have hasc : ascending ns = true := by
    rw [slotsFit, Bool.and_eq_true, Bool.and_eq_true] at hf
    exact hf.1.2
  obtain ⟨hl, -, hnew⟩ := placeSlots_spec id l ns 0 (setLaunch id { l with phase := 2, slots := ns } (startQueue l.queue d)) hasc
  refine ⟨?_, fun j n hj => ?_⟩
  · exact (congrArg (SMap.find · id) hl).trans ((find_setLaunch ..).trans (if_pos rfl))
  · have := hnew j n hj
    rwa [Nat.zero_add] at this

/-- What a started thread of a launch shows. -/
theorem startThread_regs (d : Device) (n : Nat) (sl : Slot) (l : Launch) (entry i : Nat) :
    let t := startThread d n sl l entry i
    let k := l.kdesc.toNat
    t.live = true ∧ t.pc = w64 (bfield k entry 8) ∧ SMap.get 0 t.x 2 = w64 (bfield k 24 8) + w64 ((i + 1) * bfield k 32 4) ∧
      SMap.get 0 t.x 3 = l.argp ∧ (∀ r, r ≠ 2 → r ≠ 3 → SMap.get 0 t.x r = 0) ∧ t.sr.tvec = w64 (bfield k 56 8) &&& 0x000FFFFFFFFFFFFC ∧ t.sr.vtype = 0 := by
  refine ⟨rfl, rfl, ?_, SMap.get_set_self .., fun r h2 h3 => ?_, rfl, rfl⟩
  · exact (SMap.get_set_ne _ _ _ _ _ (by decide)).trans (SMap.get_set_self ..)
  · exact (SMap.get_set_ne _ _ _ _ _ h3).trans (SMap.get_set_ne _ _ _ _ _ h2)

/-! ## Deadlines (R234) -/

theorem missDeadline_early {id : Nat} {d : Device} {l : Launch} (hl : SMap.find d.launches id = some l) (h : d.devtime.toNat < l.deadline.toNat) :
    missDeadline id d = d := by
  unfold missDeadline
  rw [hl]
  exact if_pos (by simp [isDue]; omega)

theorem missDeadline_late {id : Nat} {d : Device} {l : Launch} (hl : SMap.find d.launches id = some l) (hphase : l.phase = 1 ∨ l.phase = 2)
    (hdead : l.dead = true) (hlate : l.deadline.toNat ≤ d.devtime.toNat) (hm : l.missed = false) (ha : l.abort = false) :
    missDeadline id d = addAcnt l.acct 7 1 (setLaunch id { l with missed := true, dead := false } d) := by
  have hdue : isDue d l = true := by
    obtain hp | hp := hphase <;> simp [isDue, hp, hdead, hm, hlate]
  unfold missDeadline
  rw [hl]
  dsimp only
  rw [if_neg (by simp [hdue]), markMissed, hl]
  dsimp only
  rw [if_pos hdue, ha]
  rfl

/-! ## The obligation -/

/-- Settles O56: the dispatcher's events one by one. A packet's launches and a launch's tasks have numbers of their own, and the slots of a
placed launch are distinct, so each keeps what its own turn of the loop wrote. -/
theorem queueEvents : Obligations.QueueEvents := by
  intro s d q u v after
  have hdev : ∀ f : Device → Device, (Host.Outcome.next (onDevice f s) : Host.Outcome State Fault Refusal) = after (f d) := fun _ => rfl
  refine ⟨fun hq hon => ?_, fun hq hon => ⟨fun h6 h16 hv => ?_, fun hsz => ?_⟩, fun hq => ?_, fun b0 hq hon hstat hwait hrd => ?_,
    fun pk hpk hmay htyp => ?_, fun pk hpk htyp hphase hear => ?_, fun pk bs d' hpk htyp hmay hb hw => ?_, fun l hl hphase => ?_,
    fun l hl hcut hw hn hf hpairs => ?_, fun l hl hphase hdead => ⟨fun h => ?_, fun hlate hm ha => ?_⟩⟩
  · refine (hdev _).trans (congrArg after ?_)
    rw [mapQueue_in hq, writeQcfg_on hon]
  · refine ⟨_, (hdev _).trans (congrArg after ((mapQueue_in hq ..).trans
      (congrArg (setQueueRegs q · d) (writeQcfg_enable hon h6 h16 hv)))), ?_, rfl, rfl, rfl, rfl, rfl, rfl⟩
    show bit (v &&& 0xFFFFFFF7F).toNat 6 = true
    rw [bit6_and, hv]
    decide
  · refine (hdev _).trans (congrArg after ?_)
    rw [mapQueue_in hq, writeQcfg_size hon hsz]
  · refine (hdev _).trans (congrArg after ((mapQueue_in hq ..).trans ?_))
    exact congrArg (setQueueRegs q · d) (if_congr (by simp only [Bool.and_eq_true, decide_eq_true_eq]; rfl) rfl rfl)
  · intro c va h0
    have hrun : ∀ e, consumePacket q d = e → exec .packetConsume s = after e := fun e he =>
      (hdev _).trans (congrArg after ((if_pos hq).trans he))
    refine ⟨fun hv => hrun _ (consumePacket_invalid hon hstat hwait hrd h0 hv), fun bs hv hb => ⟨fun hbad => ?_, fun d' hgood hlist hw => ?_⟩⟩
    · refine hrun _ ((consumePacket_bad hon hstat hwait hrd h0 hv hb hbad).trans ?_)
      rw [stopQueue, bits, Nat.shiftRight_eq_div_pow]
      rfl
    · refine hrun _ ((consumePacket_good hon hstat hwait hrd h0 hv hb hgood hlist hw).trans ?_)
      rw [ctxWrite_nextId hw]
  · intro lists
    refine ⟨_, (hdev _).trans (congrArg after (startPacket_offers hpk hmay htyp)), ?_⟩
    obtain ⟨hnext, -, hnew, -⟩ := offerLists_spec q pk (queueCtx (queueAt d pk.queue)) lists { d with packets := SMap.put d.packets q { pk with phase := 1 } }
    refine ⟨hnext, ?_, fun i tcbs hi => hnew i tcbs hi⟩
    refine (SMap.find_put ..).trans ((if_pos rfl).trans ?_)
    rw [hnext, Nat.add_sub_cancel]
  · obtain ⟨h0, h1⟩ := passBarrier_ready hpk htyp hphase hear
    exact ⟨fun h => (hdev _).trans (congrArg after (h0 h)), fun bs h hb => (hdev _).trans (congrArg after (h1 bs h hb))⟩
  · exact (hdev _).trans (congrArg after (signalPacket_done hpk htyp hmay hb hw))
  · intro a l' d0
    have hnote : noteLaunch d.arg l = l' := if_pos hphase
    have hd0 : mapLaunch q (noteLaunch d.arg) d = d0 := by rw [mapLaunch_found hl, hnote]
    have hfind : SMap.find d0.launches q = some l' := (find_setLaunch ..).trans (if_pos rfl)
    have hrun : ∀ e, decideLaunch q d0 = e → exec .launchAdmit s = after e := fun e he =>
      (hdev _).trans (congrArg after (by rw [hd0, he]))
    refine ⟨fun v hv => hrun _ (decideLaunch_blocks hfind hphase hv), fun bs hbs => ⟨fun c v hc => hrun _ (decideLaunch_refused hfind hphase hbs hc),
      fun m hm hlen => ⟨_, hrun _ (decideLaunch_admits hfind hphase hbs hm), ?_⟩⟩⟩
    exact admitLaunch_spec hlen
  · have hplace : exec .placeLaunch s = after (placeAlone q l d.arg.nats d) :=
      (hdev _).trans (congrArg after (by rw [hpairs]; exact placeLaunch_alone hl hcut hw hn hf))
    obtain ⟨hlaunch, hslots⟩ := placeAlone_spec (id := q) hf
    refine ⟨_, hplace, hlaunch, fun j n e hj he => ?_⟩
    obtain ⟨hst, hla, hls, hctx, hacct, hths⟩ := hslots j n hj
    obtain ⟨d1, n1, sl0, h, ht⟩ := hths e he
    refine ⟨hst, hla, hls, hctx, hacct, ?_⟩
    rw [ht]
    exact startThread_regs d1 n1 sl0 l e.2 (3 * j + e.1)
  · exact (hdev _).trans (congrArg after (missDeadline_early hl h))
  · exact (hdev _).trans (congrArg after (missDeadline_late hl hphase hdead hlate hm ha))

end Sys2Proof.Machine
end

section
/-! PROOFS. Slots as the host and the save sequencer see them (O57): a slot and its threads through park and focus, RESUME, PREEMPT, END
and the save of a slot. -/

namespace Sys2Proof.Machine

/-! ## A slot and the thread in focus -/

/-- The thread in focus is the one its slot holds. -/
theorem focus_thr (s : State) (n r : Nat) : (focus s n r).thr = SMap.get Thread.absent (slotOf (park s) n).ths r := by
  unfold focus
  split
  next h =>
    have hn : s.cur.1 = n := congrArg Prod.fst h
    have hr : s.cur.2 = r := congrArg Prod.snd h
    unfold slotOf park
    dsimp only
    rw [hn, hr, SMap.get_set_self]
    dsimp only
    rw [SMap.get_set_self]
  next => rfl

/-- The slot in focus is the one the device holds, but for the thread in focus. -/
theorem focus_slot (s : State) (n r : Nat) : (focus s n r).slot = { slotOf (park s) n with ths := (focus s n r).slot.ths } := by
  unfold focus
  split
  next h =>
    have hn : s.cur.1 = n := congrArg Prod.fst h
    unfold slotOf park
    dsimp only
    rw [hn, SMap.get_set_self]
  next => rfl

theorem slotOf_park_self (s : State) : slotOf (park s) s.cur.1 = { s.slot with ths := SMap.set Thread.absent s.slot.ths s.cur.2 s.thr } := by
  unfold slotOf park
  dsimp only
  rw [SMap.get_set_self]

theorem slotOf_park_other {s : State} {n : Nat} (h : n ≠ s.cur.1) : slotOf (park s) n = SMap.get Slot.free s.dev.slots n :=
  SMap.get_set_ne _ _ _ _ _ h

/-- Two states whose slots differ in their threads alone. -/
def SlotsKept (s t : State) : Prop := ∀ n, { slotOf (park t) n with ths := [] } = { slotOf (park s) n with ths := [] }

theorem SlotsKept.refl (s : State) : SlotsKept s s := fun _ => rfl

theorem SlotsKept.trans {s t u : State} (h : SlotsKept s t) (k : SlotsKept t u) : SlotsKept s u := fun n => (k n).trans (h n)

theorem slotsKept_unpark (d : Device) (s : State) (hd : park s = d) (n r : Nat) : SlotsKept s (unpark d n r) := by
  intro m
  rw [hd]
  by_cases h : m = n
  · subst h
    exact congrArg (fun sl : Slot => { sl with ths := [] }) (slotOf_park_self (unpark d m r))
  · rw [slotOf_park_other (s := unpark d n r) h]
    exact congrArg (fun sl : Slot => { sl with ths := [] }) ((SMap.get_erase ..).trans (if_neg h))

theorem slotsKept_focus (s : State) (n r : Nat) : SlotsKept s (focus s n r) := by
  unfold focus
  split
  · exact .refl s
  · exact slotsKept_unpark _ s rfl n r

theorem slotsKept_within {f : State → State} (hf : ∀ s, SlotsKept s (f s)) (n r : Nat) (s : State) : SlotsKept s (within n r f s) :=
  ((slotsKept_focus s n r).trans (hf _)).trans (slotsKept_focus _ _ _)

theorem slotsKept_thread {s t : State} (hcur : t.cur = s.cur) (hslot : t.slot = s.slot) (hdev : t.dev.slots = s.dev.slots) : SlotsKept s t := by
  intro n
  by_cases h : n = s.cur.1
  · subst h
    rw [slotOf_park_self, ← hcur, slotOf_park_self, hslot]
  · rw [slotOf_park_other h, slotOf_park_other (hcur ▸ h), hdev]

theorem mapLaunch_slots (id : Nat) (f : Launch → Launch) (d : Device) : (mapLaunch id f d).slots = d.slots := by
  unfold mapLaunch
  split <;> rfl

theorem slotsKept_foldl {α : Type} (f : State → α → State) (hf : ∀ s a, SlotsKept s (f s a)) (l : List α) (s : State) :
    SlotsKept s (l.foldl f s) := by
  induction l generalizing s with
  | nil => exact .refl s
  | cons a l ih => exact (hf s a).trans (ih _)

theorem slotsKept_unsuspend (s : State) : SlotsKept s (unsuspend s) := by
  refine slotsKept_foldl _ (fun t p => slotsKept_within (fun u => ?_) _ _ t) _ s
  dsimp only
  split
  · exact .refl u
  · exact slotsKept_thread rfl rfl (mapLaunch_slots ..)

/-! ## RESUME (R322) -/

/-- The end of a pass changes the thread, and with it at most the tiles of the slot. -/
theorem closePass_frame (s : State) : closePass s = { s with
    thr := (closePass s).thr, slot.z := (closePass s).slot.z, slot.zdirty := (closePass s).slot.zdirty } := by
  unfold closePass endPass grant refreshVlmax zeroRegs
  dsimp only
  split_ifs <;> rfl

theorem closePass_idle {s : State} (h : s.thr.hid.active = false) : closePass s = s := if_neg (by simp [h])

/-- A thread's pass ended in its slot: the slot keeps its state and record, and every thread in no loop stays as it is. -/
theorem inSlot_closePass (n r : Nat) (d : Device) :
    let sl := slotOf d n
    let sl' := slotOf (inSlot n r closePass d) n
    sl'.st = sl.st ∧ sl'.held = sl.held ∧ sl'.posted = sl.posted ∧
      ∀ k, (SMap.get Thread.absent sl.ths k).hid.active = false → SMap.get Thread.absent sl'.ths k = SMap.get Thread.absent sl.ths k := by
  have hcl := closePass_frame (unpark d n r)
  have hsl : slotOf (inSlot n r closePass d) n = { (closePass (unpark d n r)).slot with
      ths := SMap.set Thread.absent (closePass (unpark d n r)).slot.ths r (closePass (unpark d n r)).thr } := by
    unfold inSlot
    have h := slotOf_park_self (closePass (unpark d n r))
    rwa [show (closePass (unpark d n r)).cur = (n, r) by rw [hcl]; rfl] at h
  intro sl sl'
  have hths : (closePass (unpark d n r)).slot.ths = SMap.erase sl.ths r := by rw [hcl]; rfl
  refine ⟨?_, ?_, ?_, fun k hk => ?_⟩
  · exact (congrArg Slot.st hsl).trans (by rw [hcl]; rfl)
  · exact (congrArg Slot.held hsl).trans (by rw [hcl]; rfl)
  · exact (congrArg Slot.posted hsl).trans (by rw [hcl]; rfl)
  · refine (congrArg (fun s : Slot => SMap.get Thread.absent s.ths k) hsl).trans ?_
    dsimp only
    by_cases hkr : k = r
    · subst hkr
      rw [SMap.get_set_self, closePass_idle (s := unpark d n k) hk]
      rfl
    · rw [SMap.get_set_ne _ _ _ _ _ hkr, hths, SMap.get_erase, if_neg hkr]

theorem closePasses (n : Nat) (rs : List Nat) (d : Device) :
    let sl := slotOf d n
    let sl' := slotOf (rs.foldl (fun d r => inSlot n r closePass d) d) n
    sl'.st = sl.st ∧ sl'.held = sl.held ∧ sl'.posted = sl.posted ∧
      ∀ k, (SMap.get Thread.absent sl.ths k).hid.active = false → SMap.get Thread.absent sl'.ths k = SMap.get Thread.absent sl.ths k := by
  induction rs generalizing d with
  | nil => exact ⟨rfl, rfl, rfl, fun _ _ => rfl⟩
  | cons r rs ih =>
    obtain ⟨hst, hheld, hpost, hths⟩ := inSlot_closePass n r d
    obtain ⟨hst', hheld', hpost', hths'⟩ := ih (inSlot n r closePass d)
    refine ⟨hst'.trans hst, hheld'.trans hheld, hpost'.trans hpost, fun k hk => ?_⟩
    exact (hths' k (by rw [hths k hk]; exact hk)).trans (hths k hk)

theorem SMap.get_of_find {α : Type} {dflt v : α} {m : SMap α} {k : Nat} (h : SMap.find m k = some v) : SMap.get dflt m k = v := by
  induction m with
  | nil => cases h
  | cons p m ih =>
    obtain ⟨j, w⟩ := p
    unfold SMap.find at h
    unfold SMap.get
    split_ifs at h ⊢
    · exact Option.some.inj h
    · exact ih h

theorem SMap.find_map {α β : Type} (f : Nat → α → β) (m : SMap α) (k : Nat) :
    SMap.find (m.map (fun p => (p.1, f p.1 p.2))) k = (SMap.find m k).map (f k) := by
  induction m with
  | nil => rfl
  | cons p m ih =>
    obtain ⟨j, w⟩ := p
    rw [List.map_cons, SMap.find, SMap.find]
    split_ifs with h
    · rw [h]; rfl
    · exact ih

theorem resumeSlot_held {n : Nat} {d : Device} (h : (slotOf d n).posted = false ∨ ((slotOf d n).st ≠ .stopped ∧ (slotOf d n).st ≠ .stalled)) :
    resumeSlot n d = d := by
  unfold resumeSlot
  refine if_neg ?_
  obtain h | ⟨h1, h2⟩ := h
  · simp [h]
  · simp [h1, h2]

/-- The device with a slot running again, before the passes that ended in it are closed. -/
def resumed (n : Nat) (d : Device) : Device :=
  let x := heldBack n { slotOf d n with st := .running, held := none, posted := false, wdog := 0 } d
  { x.2 with slots := SMap.set Slot.free x.2.slots n x.1 }

theorem slotOf_resumed (n : Nat) (d : Device) :
    slotOf (resumed n d) n = (heldBack n { slotOf d n with st := .running, held := none, posted := false, wdog := 0 } d).1 := by
  unfold slotOf resumed
  dsimp only
  rw [SMap.get_set_self]
  rfl

theorem resumeSlot_eq {n : Nat} {d : Device} (hp : (slotOf d n).posted = true) (hst : (slotOf d n).st = .stopped ∨ (slotOf d n).st = .stalled) :
    resumeSlot n d = (upFrom 0 3).foldl (fun d r => inSlot n r closePass d) (resumed n d) := by
  unfold resumeSlot
  refine if_pos ?_
  obtain h | h := hst <;> simp [h, hp]

theorem resumeSlot_runs {n : Nat} {d : Device} (hp : (slotOf d n).posted = true) (hst : (slotOf d n).st = .stopped ∨ (slotOf d n).st = .stalled) :
    let sl := slotOf d n
    let sl' := slotOf (resumeSlot n d) n
    sl'.st = .running ∧ sl'.held = none ∧ sl'.posted = false ∧
      ∀ k t, SMap.find sl.ths k = some t → t.hid.active = false → SMap.get Thread.absent sl'.ths k = { t with halted := (dbgAt d n k).halt } := by
  intro sl sl'
  obtain ⟨h1, h2, h3, hths⟩ := closePasses n (upFrom 0 3) (resumed n d)
  rw [← resumeSlot_eq hp hst, slotOf_resumed] at h1 h2 h3 hths
  refine ⟨h1, h2, h3, fun k t hk ha => ?_⟩
  have hget : SMap.get Thread.absent (heldBack n { slotOf d n with st := .running, held := none, posted := false, wdog := 0 } d).1.ths k =
      { t with halted := (dbgAt d n k).halt } := by
    have hmap := SMap.find_map (fun j t => ({ t with halted := (dbgAt d n j).halt } : Thread)) (slotOf d n).ths k
    rw [hk] at hmap
    exact SMap.get_of_find hmap
  exact (hths k (by rw [hget]; exact ha)).trans hget

/-! ## PREEMPT, END and the watchdog (R322, R336, R351) -/

theorem saveReady_of_slot (s : State) {sl sl' : Slot} (h : sl = { sl' with ths := sl.ths }) : saveReady s sl = saveReady s sl' := by
  rw [h]
  rfl

theorem beginSave_unchained {k : SaveKind} {s : State} (h : s.slot.chain = none) :
    beginSave k s = { s with slot.st := .saving, slot.save := some k, slot.wdog := 0 } := by
  unfold beginSave
  rw [h]
  rfl

theorem preemptSlot_run {n : Nat} {s e : State} (he : e = focus s n 1) (hst : e.slot.st = .running ∨ e.slot.st = .stopped ∨ e.slot.st = .stalled)
    (hch : e.slot.chain = none) :
    preemptSlot n s = focus (if saveReady e e.slot then { e with slot.st := .saving, slot.save := some .preempt, slot.wdog := 0 }
        else { e with slot.save := some .preempt }) s.cur.1 s.cur.2 := by
  subst he
  unfold preemptSlot within
  refine congrArg (focus · s.cur.1 s.cur.2) ((if_pos ?_).trans ?_)
  · obtain h | h | h := hst <;> simp [h]
  · rw [beginSave_unchained hch]

theorem SMap.get_map {α : Type} {dflt v : α} {m : SMap α} {k : Nat} (f : α → α) (h : SMap.find m k = some v) :
    SMap.get dflt (m.map (fun p => (p.1, f p.2))) k = f v :=
  SMap.get_of_find ((SMap.find_map (fun _ => f) m k).trans (by rw [h]; rfl))

theorem SMap.mem_of_find {α : Type} {v : α} {m : SMap α} {k : Nat} (h : SMap.find m k = some v) : (k, v) ∈ m := by
  induction m with
  | nil => cases h
  | cons p m ih =>
    obtain ⟨j, w⟩ := p
    unfold SMap.find at h
    split_ifs at h with hj
    · rw [hj, Option.some.inj h]
      exact List.mem_cons_self
    · exact List.mem_cons_of_mem _ (ih h)

/-- The slots that hold a launch cut short. -/
def cutShortAll (id : Nat) (d : Device) : Device :=
  { d with slots := d.slots.map (fun p => (p.1, if holdsLaunch d id p.2 then cutShort p.2 else p.2)) }

theorem find_cutShortAll {id n : Nat} {d : Device} {sl : Slot} (hsl : SMap.find d.slots n = some sl) (hh : holdsLaunch d id sl = true) :
    SMap.find (cutShortAll id d).slots n = some (cutShort sl) := by
  refine (SMap.find_map (fun _ sl => if holdsLaunch d id sl then cutShort sl else sl) d.slots n).trans ?_
  rw [hsl]
  exact congrArg some (if_pos hh)

theorem beginEnd_first {id status : Nat} {d : Device} {l : Launch} (hl : SMap.find d.launches id = some l) (hphase : l.phase ≠ 3)
    (hend : l.ending = false) : beginEnd id status 0 d = cutShortAll id (setLaunch id { l with ending := true, status := l.status ||| status } d) := by
  unfold beginEnd
  rw [hl]
  dsimp only
  rw [if_neg (by simp [hphase, hend]), show (if l.code = 0 then 0 else l.code) = l.code by split_ifs with h <;> simp [h]]
  rfl

theorem holdsLaunch_own {d : Device} {sl : Slot} (hst : sl.st ≠ .free) (hch : sl.chain = none) : holdsLaunch d sl.launch sl = true := by
  unfold holdsLaunch
  rw [hch]
  simp [hst]

/-- A launch one of whose slots has stores on their way does not end yet. -/
theorem tryEnd_undrained {id n : Nat} {d : Device} {sl : Slot} (hsl : SMap.find d.slots n = some sl) (hh : holdsLaunch d id sl = true)
    (hstores : ∃ p ∈ sl.ths, p.2.pnd.stores ≠ []) : tryEnd id d = d := by
  unfold tryEnd
  split
  · rfl
  refine if_neg fun hall => ?_
  rw [Bool.and_eq_true, List.all_eq_true] at hall
  have hdr := hall.2 (n, sl) (List.mem_filter.mpr ⟨SMap.mem_of_find hsl, hh⟩)
  obtain ⟨p, hp, hne⟩ := hstores
  simp only [slotDrained, Bool.and_eq_true, List.all_eq_true] at hdr
  exact hne (List.isEmpty_iff.mp (hdr.1.1.1.1.1 p hp))

/-- A launch ended by the host whose slot is not yet drained. -/
theorem endSlot_undrained {n : Nat} {d : Device} {sl : Slot} {l : Launch} (hfind : SMap.find d.slots n = some sl) (hst : sl.st ≠ .free)
    (hch : sl.chain = none) (hl : SMap.find d.launches sl.launch = some l) (hphase : l.phase ≠ 3) (hend : l.ending = false)
    (hcause : l.cause = 0) (hstores : ∃ p ∈ sl.ths, p.2.pnd.stores ≠ []) :
    endSlot n d = cutShortAll sl.launch (setLaunch sl.launch { l with ending := true, status := l.status ||| 4 } d) := by
  have hcut := find_cutShortAll (d := setLaunch sl.launch { l with ending := true, status := l.status ||| 4 } d) hfind (holdsLaunch_own hst hch)
  have hholds : holdsLaunch (cutShortAll sl.launch (setLaunch sl.launch { l with ending := true, status := l.status ||| 4 } d)) sl.launch
      (cutShort sl) = true := holdsLaunch_own (sl := cutShort sl) (fun h => by cases h) hch
  unfold endSlot launchesOf
  rw [SMap.get_of_find hfind, if_neg hst, hch]
  show endByHost sl.launch d = _
  unfold endByHost
  rw [hl]
  dsimp only
  rw [show (if l.cause = 0 then stAborted else stFault) = 4 from if_pos hcause,
    show beginEnd sl.launch 4 l.cause d = _ from (congrArg (beginEnd sl.launch 4 · d) hcause).trans (beginEnd_first hl hphase hend)]
  exact tryEnd_undrained hcut hholds hstores

theorem expireWatch_run {n : Nat} {s e : State} (he : e = focus s n (chiefRole (slotOf (park s) n))) (hst : (slotOf (park s) n).st = .running)
    (hlive : ∃ p ∈ (slotOf (park s) n).ths, p.2.live = true) (hw : watchExpired (park s) n = true) (hch : (slotOf (park s) n).chain = none)
    (hsave : (slotOf (park s) n).save = none) :
    ∃ fr, expireWatch n s = focus { e with
        slot.st := if saveReady e (slotOf (park s) n) then .saving else .running, slot.save := some .watchdog, slot.wdog := 0, slot.held := some fr
        slot.posted := false } s.cur.1 s.cur.2 ∧
      fr.cause = 0x38 ∧ fr.role = chiefRole (slotOf (park s) n) ∧ fr.tpc = e.thr.pc := by
  have hslot : e.slot = { slotOf (park s) n with ths := e.slot.ths } := by
    rw [he]
    exact focus_slot ..
  have hcur : e.cur = (n, chiefRole (slotOf (park s) n)) := by rw [he, focus_cur]
  refine ⟨{ faultRec e 0 0x38 e.thr.pc 0 0 with acct := acctOf e }, ?_, rfl, congrArg Prod.snd hcur, rfl⟩
  have hany : (slotOf (park s) n).ths.any (fun p => p.2.live) = true := List.any_eq_true.mpr hlive
  unfold expireWatch
  dsimp only
  rw [if_pos (by simp [hst, hany, hw, hsave])]
  unfold within
  rw [← he]
  refine congrArg (focus · s.cur.1 s.cur.2) ?_
  dsimp only
  have hch' : e.slot.chain = none := by rw [hslot]; exact hch
  have hst' : e.slot.st = .running := by rw [hslot]; exact hst
  rw [saveReady_of_slot e hslot]
  split_ifs
  · rw [beginSave_unchained hch']
  · rw [← hst']

/-! ## The save of a slot (R351, R354) -/

theorem writeUntil_homes (c : Nat) (l : List (Nat × List Byte)) (d : Device) : Homes d (writeUntil c l d).1 := by
  induction l generalizing d with
  | nil => exact .refl d
  | cons p l ih =>
    unfold writeUntil
    split
    · exact .refl d
    next d' h => exact (homes_ctxWrite h).trans (ih d')

theorem writeSystemCut_homes (v : Saved) (cs launch j addr : Nat) (d : Device) : Homes d (writeSystemCut v cs launch j addr d).1 := by
  unfold writeSystemCut
  extract_lets c sec inf off h y x
  have hx : Homes d x.1 := writeUntil_homes ..
  clear_value x h off inf sec
  split
  · exact hx
  split
  next e' he =>
    obtain ⟨bs, -, he⟩ := bind_ok he
    obtain ⟨e, hw, hs⟩ := bind_ok he
    exact hx.trans ((homes_ctxWrite hw).trans (homes_ctxWrite hs))
  next => exact hx

/-- A slot released is FREE. -/
theorem releaseSlot_free (n : Nat) (d : Device) : (slotOf (releaseSlot n d) n).st = .free := by
  unfold releaseSlot
  dsimp only
  split_ifs
  · unfold slotOf
    dsimp only
    rw [SMap.get_set_self]
    rfl
  · refine (congrArg Slot.st ((SMap.get_erase Slot.free d.slots n n).trans (if_pos rfl))).trans rfl

theorem releaseSlot_frame (n : Nat) (d : Device) :
    (releaseSlot n d).ctxs = d.ctxs ∧ (releaseSlot n d).sysCuts = d.sysCuts ∧ (releaseSlot n d).nextId = d.nextId := by
  unfold releaseSlot
  dsimp only
  split_ifs <;> exact ⟨rfl, rfl, rfl⟩

theorem abandonSave_slot (n id addr : Nat) (d : Device) : ∃ d', (slotOf d' n).st = .free ∧
    (slotOf d' n).held.map (fun r => (r.cause, r.tpc)) = some (0x38, (SMap.get Thread.absent (slotOf d n).ths (chiefRole (slotOf d n))).pc) ∧
      abandonSave n id addr d = tryEnd id (beginEnd id stFault 0x38 d') := by
  refine ⟨_, ?_, ?_, rfl⟩ <;> unfold slotOf <;> dsimp only <;> rw [SMap.get_set_self] <;> rfl

theorem abandonStalled_save {n f : Nat} {d : Device} (hw : watchExpired d n = true) (hst : (slotOf d n).st = .saving)
    (hsave : (slotOf d n).save.isSome = true) (hch : (slotOf d n).chain = none) :
    abandonStalled n f d = abandonSave n (slotOf d n).launch (frameAddr d (slotOf d n).ctx f) d := by
  unfold abandonStalled savedLaunch
  dsimp only
  rw [if_neg (by simp [hw]), if_pos (by simp [hst, hsave]), hch]
  rfl

/-- What a drained slot's save does on the device, its frame chosen. -/
theorem saveStep_runs {n want f : Nat} {s : State} {sl : Slot} (hsl : slotOf (park s) n = sl) (hsave : sl.save.isSome = true) (hst : sl.st = .saving)
    (hdr : saveDrained sl = true) (hpick : pickFrame (park s) sl.ctx want = some f) (hch : sl.chain = none) :
    saveStep n want s = onDevice (fun d => saveInto n f sl.launch sl.lslot (savedSlot d n (2 ^ 48 - 1) (slotOf d n)) [] d) (within n 1 unsuspend s) := by
  unfold saveStep
  dsimp only
  rw [hsl, if_neg (by simp [Option.isSome_iff_ne_none.mp hsave]), if_neg (by simp [hst]), if_neg (by simp [hdr]), hpick, hch]

end Sys2Proof.Machine
end

section
/-! PROOFS. The host's hold on slots (O57): saved and resumed cuttings, fault records, the debug window. -/

namespace Sys2Proof.Machine

theorem writeLpart_eq {c : Nat} (hc : c < 256) (v : Word) (d : Device) : writeLpart c v d =
    if v.toNat % 4 ≠ 3 ∧ (slotOf d (2 * c)).st = .free ∧ (slotOf d (2 * c + 1)).st = .free then { d with lpart := SMap.set 0 d.lpart c (v.toNat % 4) }
    else d := by
  have hm : bits v.toNat 0 2 = v.toNat % 4 := by
    rw [bits, Nat.shiftRight_zero]
    rfl
  unfold writeLpart
  dsimp only
  rw [hm]
  by_cases h : v.toNat % 4 ≠ 3 ∧ (slotOf d (2 * c)).st = .free ∧ (slotOf d (2 * c + 1)).st = .free
  · rw [if_pos h, if_neg (by simp [h]; omega)]
  · rw [if_neg h, if_pos (by simp only [Bool.or_eq_true, decide_eq_true_eq, bne_iff_ne]; tauto)]

/-! ## Saved into a frame (R351, R352) -/

theorem frameAddr_eq (d : Device) (c f : Nat) :
    frameAddr d c f = (ctxOf d c).savebase.toNat + f * ((ctxOf d c).savecfg.toNat / 2 ^ 16 % 2 ^ 24 * 4096) := by
  unfold frameAddr bits
  dsimp only
  rw [Nat.shiftRight_eq_div_pow, Nat.mul_assoc]

/-- The writes of a slot's system cutting. -/
def savedAs (d : Device) (n f : Nat) : Device × Bool :=
  let sl := slotOf d n
  let bound := sl.bound.getD (sl.launch, sl.lslot)
  writeSystemCut (savedSlot d n (2 ^ 48 - 1) sl) (match SMap.find d.launches sl.launch with | some l => l.cscope | none => 0) bound.1 bound.2
    (frameAddr d sl.ctx f) d

theorem savedSlot_sl (d : Device) (n mask : Nat) (sl : Slot) : (savedSlot d n mask sl).sl = sl := rfl

theorem savedAs_eq {d : Device} {n f cs : Nat} (hsome : ∀ l, SMap.find d.launches (slotOf d n).launch = some l → cs = l.cscope)
    (hnone : SMap.find d.launches (slotOf d n).launch = none → cs = 0) :
    savedAs d n f = writeSystemCut (savedSlot d n (2 ^ 48 - 1) (slotOf d n)) cs ((slotOf d n).bound.getD ((slotOf d n).launch, (slotOf d n).lslot)).1
      ((slotOf d n).bound.getD ((slotOf d n).launch, (slotOf d n).lslot)).2 (frameAddr d (slotOf d n).ctx f) d := by
  unfold savedAs
  dsimp only
  cases h : SMap.find d.launches (slotOf d n).launch with
  | none => rw [hnone h]
  | some l => rw [hsome l h]

theorem homes_savedAs (d : Device) (n f : Nat) : Homes d (savedAs d n f).1 := by
  unfold savedAs
  exact writeSystemCut_homes ..

theorem saveInto_faults {n f : Nat} {d d1 : Device} (h : savedAs d n f = (d1, false)) :
    saveInto n f (slotOf d n).launch (slotOf d n).lslot (savedSlot d n (2 ^ 48 - 1) (slotOf d n)) [] d =
      abandonSave n (slotOf d n).launch (frameAddr d (slotOf d n).ctx f) d1 := by
  revert h
  unfold savedAs saveInto
  generalize writeSystemCut = W
  intro h
  dsimp only at h ⊢
  rw [savedSlot_sl]
  cases hl : SMap.find d.launches (slotOf d n).launch <;> rw [hl] at h <;> dsimp only at h ⊢ <;> rw [h]

theorem ctxOf_setCtx (d : Device) (c : Nat) (b : CtxBlk) : ctxOf (setCtx d c b) c = b := by
  unfold ctxOf setCtx
  dsimp only
  rw [SMap.get_set_self]

/-- The note of a system cutting in a frame. -/
def savedCut (d : Device) (n f order : Nat) : SysCut :=
  let sl := slotOf d n
  ⟨sl.launch, sl.lslot, sl.ctx, f, frameAddr d sl.ctx f, sl.save.getD .preempt, order, [], sl.pending, keptSlot sl⟩

theorem savedCut_fields (d : Device) (n f order : Nat) :
    let cut := savedCut d n f order
    cut.launch = (slotOf d n).launch ∧ cut.lslot = (slotOf d n).lslot ∧ cut.frame = f ∧ cut.addr = frameAddr d (slotOf d n).ctx f ∧
      cut.ctx = (slotOf d n).ctx := ⟨rfl, rfl, rfl, rfl, rfl⟩

/-- The slot released, its frame taken. -/
def frameTaken (d d1 : Device) (n f : Nat) : Device :=
  releaseSlot n (setCtx d1 (slotOf d n).ctx { ctxOf d1 (slotOf d n).ctx with frames := f :: (ctxOf d1 (slotOf d n).ctx).frames })

/-- The device once a system cutting is sealed. -/
def afterSave (d d1 : Device) (n f : Nat) : Device :=
  let d3 := frameTaken d d1 n f
  mapLaunch (slotOf d n).launch (leaveList (slotOf d n).lslot)
    { d3 with sysCuts := SMap.put d3.sysCuts d3.nextId (savedCut d n f d1.ser), nextId := d3.nextId + 1, ser := d3.ser + 1 }

theorem saveInto_saves {n f : Nat} {d d1 : Device} (h : savedAs d n f = (d1, true)) :
    saveInto n f (slotOf d n).launch (slotOf d n).lslot (savedSlot d n (2 ^ 48 - 1) (slotOf d n)) [] d = afterSave d d1 n f := by
  revert h
  unfold savedAs saveInto
  generalize writeSystemCut = W
  intro h
  dsimp only at h ⊢
  rw [savedSlot_sl]
  cases hl : SMap.find d.launches (slotOf d n).launch <;> rw [hl] at h <;> dsimp only at h ⊢ <;> rw [h] <;> rfl

theorem afterSave_spec {n f : Nat} {d d1 : Device} (hd1 : Homes d d1) :
    (slotOf (afterSave d d1 n f) n).st = .free ∧ SMap.find (afterSave d d1 n f).sysCuts d.nextId = some (savedCut d n f d1.ser) ∧
      f ∈ (ctxOf (afterSave d d1 n f) (slotOf d n).ctx).frames := by
  have hnext : (frameTaken d d1 n f).nextId = d.nextId := (releaseSlot_frame ..).2.2.trans (by rw [hd1.frame]; rfl)
  unfold afterSave
  rw [mapLaunch_frame]
  refine ⟨releaseSlot_free .., ?_, ?_⟩
  · dsimp only
    rw [hnext]
    exact (SMap.find_put ..).trans (if_pos rfl)
  · have hctx : ctxOf (frameTaken d d1 n f) (slotOf d n).ctx =
        { ctxOf d1 (slotOf d n).ctx with frames := f :: (ctxOf d1 (slotOf d n).ctx).frames } :=
      (congrArg (fun m => SMap.get CtxBlk.reset m (slotOf d n).ctx) (releaseSlot_frame ..).1).trans (ctxOf_setCtx ..)
    exact (congrArg (fun b : CtxBlk => f ∈ b.frames) hctx).mpr List.mem_cons_self

/-- A drained slot saved into the frame chosen: its save given up at the first write that faults, or its cutting sealed and the slot free. -/
theorem saveStep_outcome {n want f : Nat} {s s' : State} {d1 : Device} (hs : s' = within n 1 unsuspend s) (hsave : (slotAt s n).save.isSome = true)
    (hst : (slotAt s n).st = .saving) (hctx : (slotAt s n).ctx = (slotOf (park s') n).ctx) (hdr : saveDrained (slotAt s n) = true)
    (hpick : pickFrame (park s) (slotOf (park s') n).ctx want = some f) (hch : (slotOf (park s') n).chain = none) :
    (savedAs (park s') n f = (d1, false) → saveStep n want s = unpark (abandonSave n (slotOf (park s') n).launch
      (frameAddr (park s') (slotOf (park s') n).ctx f) d1) s'.cur.1 s'.cur.2) ∧
    (savedAs (park s') n f = (d1, true) → saveStep n want s = unpark (afterSave (park s') d1 n f) s'.cur.1 s'.cur.2 ∧
      (slotOf (afterSave (park s') d1 n f) n).st = .free ∧
      SMap.find (afterSave (park s') d1 n f).sysCuts (park s').nextId = some (savedCut (park s') n f d1.ser) ∧
      f ∈ (ctxOf (afterSave (park s') d1 n f) (slotOf (park s') n).ctx).frames) := by
  have hkept : { slotOf (park s') n with ths := [] } = { slotOf (park s) n with ths := [] } := by
    rw [hs]
    exact slotsKept_within slotsKept_unsuspend n 1 s n
  have hchain := congrArg (fun sl : Slot => sl.chain) hkept
  have hlaunch := congrArg (fun sl : Slot => sl.launch) hkept
  have hlslot := congrArg (fun sl : Slot => sl.lslot) hkept
  dsimp only at hchain hlaunch hlslot
  have hrun := saveStep_runs (n := n) (want := want) rfl hsave hst hdr (hctx ▸ hpick) (hchain.symm.trans hch)
  rw [← hlaunch, ← hlslot, ← hs] at hrun
  refine ⟨fun h => ?_, fun h => ?_⟩
  · rw [hrun]
    unfold onDevice
    dsimp only
    rw [saveInto_faults h]
  · have hd1 : Homes (park s') d1 := by
      have := homes_savedAs (park s') n f
      rwa [h] at this
    refine ⟨?_, afterSave_spec hd1⟩
    rw [hrun]
    unfold onDevice
    dsimp only
    rw [saveInto_saves h]

/-! ## A system cutting placed again (R353) -/

/-- The launch as a sealed cutting with header `h` claims its slot. -/
def relaunched (l : Launch) (c : SysCut) (h : Nat) : Launch :=
  { l with
    nslot := 1
    cutting := some c.addr
    part := BitVec.ofNat 32 (bfield h 40 4)
    lmode := bfield h 37 1
    vldep := bit (bfield h 16 4) 0
    vlen := bfield h 32 4
    ncol := bfield h 76 2 }

section

variable {key n : Nat} {d : Device} {c : SysCut} {l : Launch} {hb : List Byte} (hc : SMap.find d.sysCuts key = some c)
  (hl : SMap.find d.launches c.launch = some l) (hb0 : ctxRead d c.ctx c.addr 256 = .ok hb)

include hc hl hb0

theorem resumeCut_unsealed (h : bfield (leNat hb) 8 8 ≠ 2) : resumeCut key n d = d := by
  unfold resumeCut
  rw [hc]
  dsimp only
  rw [hl, show cutLaunch d c = none by unfold cutLaunch; rw [hl, hb0]; exact if_neg h]

theorem resumeCut_places (h : bfield (leNat hb) 8 8 = 2) (hw : cutWaits d key c = true) (hnext : ∀ x, cutLaunch d c = some x → isNext d x = true)
    (hfree : slotFree d n = true)
    (hfit : slotFits d (bfield (leNat hb) 37 1) (bfield (leNat hb) 40 4) (bit (bfield (leNat hb) 16 4) 0) (bfield (leNat hb) 32 4)
      (bfield (leNat hb) 76 2) n = true) {d' : Device} (hp : placeSystemCut key n c l d = .ok d') : resumeCut key n d = d' := by
  have hlaunch : cutLaunch d c = some (relaunched l c (leNat hb)) := by
    unfold cutLaunch
    rw [hl, hb0]
    exact if_pos h
  have hpart : (relaunched l c (leNat hb)).part.toNat = bfield (leNat hb) 40 4 := (BitVec.toNat_ofNat ..).trans (Nat.mod_eq_of_lt (bits_lt ..))
  have hfits : fitsOn d (relaunched l c (leNat hb)) n = true := by
    unfold fitsOn
    rw [hfree, Bool.true_and, hpart]
    exact hfit
  unfold resumeCut
  rw [hc]
  dsimp only
  rw [hl, hlaunch]
  dsimp only
  rw [if_pos (by rw [hw, hnext _ hlaunch, hfits]; rfl), hp]

end

theorem placeSystemCut_frees {key n : Nat} {d d' : Device} {c : SysCut} {l : Launch} (h : placeSystemCut key n c l d = .ok d') :
    SMap.find d'.sysCuts key = none ∧ c.frame ∉ (ctxOf d' c.ctx).frames := by
  unfold placeSystemCut at h
  obtain ⟨b, -, h⟩ := bind_ok h
  obtain ⟨m, -, h⟩ := bind_ok h
  obtain ⟨inf, -, h⟩ := bind_ok h
  obtain ⟨f, -, h⟩ := bind_ok h
  obtain rfl := Except.ok.inj h
  unfold freeFrame
  dsimp only
  rw [ctxOf_setCtx]
  exact ⟨(SMap.find_erase ..).trans (if_pos rfl), by simp⟩

/-! ## A section written under `susp` (R341, R342) -/

/-- Every value that a step gives meets `P`. -/
def Gives {α : Type} (P : α → Prop) (x : Except Miss α) : Prop := ∀ a, x = .ok a → P a

theorem Gives.bind {α β : Type} {P : β → Prop} {x : Except Miss α} {f : α → Except Miss β} (h : ∀ a, Gives P (f a)) : Gives P (x >>= f) := by
  intro b hb
  obtain ⟨a, -, hb⟩ := bind_ok hb
  exact h a b hb

/-- The cut as one more section leaves it: its slot is waited for no more, and one more section is written. -/
theorem writeMember_cut {w : Suspend} {l : Launch} {k : Nat} {c : Cut} {e : State} :
    Gives (fun x => x.2.left = c.left.filter (· != e.slot.lslot) ∧ x.2.written.length = c.written.length + 1) (writeMember w l k c e) := by
  have hls : (slotAt e e.cur.1).lslot = e.slot.lslot := by
    change (slotOf (park e) e.cur.1).lslot = _
    rw [slotOf_park_self]
  have hend : ∀ (c' : Cut) (t : State), c'.left = c.left.filter (· != (slotAt e e.cur.1).lslot) → c'.written.length = c.written.length + 1 →
      Gives (fun x => x.2.left = c.left.filter (· != e.slot.lslot) ∧ x.2.written.length = c.written.length + 1) (pure (t, c')) := by
    rintro c' t hleft hlen a ⟨⟩
    exact ⟨hls ▸ hleft, hlen⟩
  have hlen : ∀ x : Nat × Nat × Nat × Nat, (c.written ++ [x]).length = c.written.length + 1 := fun x => by simp
  unfold writeMember
  dsimp only
  split
  · refine .bind fun _ => .bind fun _ => ?_
    split
    · exact .bind fun _ => hend _ _ rfl (hlen _)
    · exact hend _ _ rfl (hlen _)
  · refine .bind fun _ => .bind fun _ => ?_
    split
    · exact .bind fun _ => hend _ _ rfl (hlen _)
    · exact hend _ _ rfl (hlen _)

theorem suspendSlot_written {w : Suspend} {l : Launch} {k : Nat} {c c' : Cut} {e t : State} (hs : e.thr.pnd.susp = some w)
    (hl : SMap.find e.dev.launches e.slot.launch = some l) (hc : cutOf e l w.group = some (k, c)) (hw : writeMember w l k c e = .ok (t, c')) :
    suspendSlot e = onDevice (fun d => leaveSlot e.cur.1 (cutAnswered e.cur.1 d)) t := by
  unfold suspendSlot
  rw [hs, hl]
  dsimp only
  rw [hc]
  dsimp only
  rw [hw]

/-! ## Fault records (R319 to R321) -/

theorem postHeld_posts {n : Nat} {d d1 : Device} {fr : FaultRec} (hheld : (slotOf d n).held = some fr) (hp : (slotOf d n).posted = false)
    (hpf : (slotOf d n).postFault = false) (hst : (slotOf d n).st ≠ .free)
    (h : postRecord d (slotOf d n).ctx (recordBytes n (slotOf d n) fr) = .posted d1) :
    (slotOf (postHeld n d) n).posted = true ∧ (slotOf (postHeld n d) n).st = (slotOf d n).st ∧ (postHeld n d).mem = d1.mem ∧
      (postHeld n d).ctxs = d1.ctxs := by
  have hd1 : Homes d d1 := by
    have := homes_postRecord d (slotOf d n).ctx (recordBytes n (slotOf d n) fr)
    rwa [h] at this
  let d2 := mapLaunch (slotOf d n).launch (fun l => if l.cause = 0 then { l with cause := fr.cause } else l) d1
  have hd2 : d2.slots = d.slots ∧ d2.mem = d1.mem ∧ d2.ctxs = d1.ctxs := by
    refine ⟨(mapLaunch_slots ..).trans (by rw [hd1.frame]), ?_, ?_⟩ <;> simp only [d2, mapLaunch] <;> split <;> rfl
  have hrun : postHeld n d = mapSlot n (fun sl => { sl with posted := true, postFault := false }) d2 := by
    unfold postHeld
    dsimp only
    rw [hheld]
    dsimp only
    rw [if_neg (by simp [hp, hpf]), h]
    exact if_neg hst
  have hslot : slotOf (postHeld n d) n = { slotOf d2 n with posted := true, postFault := false } := by
    rw [hrun]
    unfold slotOf mapSlot
    dsimp only
    rw [SMap.get_set_self]
    rfl
  rw [hslot]
  exact ⟨rfl, congrArg (fun m => (SMap.get Slot.free m n).st) hd2.1, by rw [hrun]; exact hd2.2.1, by rw [hrun]; exact hd2.2.2⟩

theorem fqcfg_low {v b m : Word} :
    ((v &&& m) ||| (b &&& 0xE0 &&& ~~~v)).toNat % 2 ^ 5 = (v &&& m).toNat % 2 ^ 5 := by
  rw [← BitVec.toNat_setWidth, ← BitVec.toNat_setWidth, BitVec.setWidth_or, BitVec.setWidth_and (x := b &&& 0xE0), BitVec.setWidth_and (x := b),
    show BitVec.setWidth 5 (0xE0 : Word) = 0#5 from by decide, BitVec.and_zero, BitVec.zero_and, BitVec.or_zero]

/-- The register that a write of FQCFG leaves. -/
def newFqcfg (v : Word) (b : CtxBlk) : Word :=
  (v &&& (if 4 ≤ v.toNat % 2 ^ 4 ∧ v.toNat % 2 ^ 4 ≤ 12 then 0x1F else 0xF)) ||| (b.fqcfg &&& 0xE0 &&& ~~~v)

theorem writeFqcfg_eq (v : Word) (b : CtxBlk) : writeFqcfg v b =
    if (newFqcfg v b).toNat.testBit 4 = true ∧ b.fqcfg.toNat.testBit 4 = false then { b with fqcfg := newFqcfg v b, fqwr := 0, fqrd := 0 }
    else { b with fqcfg := newFqcfg v b } := by
  have hcfg : (v &&& (if 4 ≤ bits v.toNat 0 4 && bits v.toNat 0 4 ≤ 12 then 0x1F else 0xF)) ||| (b.fqcfg &&& 0xE0 &&& ~~~v) = newFqcfg v b := by
    unfold newFqcfg
    have hsize : bits v.toNat 0 4 = v.toNat % 2 ^ 4 := by rw [bits, Nat.shiftRight_zero]
    rw [hsize]
    by_cases h : 4 ≤ v.toNat % 2 ^ 4 ∧ v.toNat % 2 ^ 4 ≤ 12
    · rw [if_pos h, if_pos (by rw [Bool.and_eq_true, decide_eq_true_eq, decide_eq_true_eq]; exact h)]
    · rw [if_neg h, if_neg (by rw [Bool.and_eq_true, decide_eq_true_eq, decide_eq_true_eq]; exact h)]
  unfold writeFqcfg
  dsimp only
  rw [hcfg]
  exact if_congr (by simp [bit]) rfl rfl

theorem writeFqcfg_low (v : Word) (b : CtxBlk) : (writeFqcfg v b).fqcfg.toNat % 2 ^ 5 =
    if 4 ≤ v.toNat % 2 ^ 4 ∧ v.toNat % 2 ^ 4 ≤ 12 then v.toNat % 2 ^ 5 else v.toNat % 2 ^ 4 := by
  have hcfg : (writeFqcfg v b).fqcfg = newFqcfg v b := by
    rw [writeFqcfg_eq]
    split_ifs <;> rfl
  rw [hcfg, newFqcfg, fqcfg_low, BitVec.toNat_and]
  split_ifs
  · rw [show (0x1F : Word).toNat = 2 ^ 5 - 1 from rfl, Nat.and_two_pow_sub_one_eq_mod, Nat.mod_mod]
  · rw [show (0xF : Word).toNat = 2 ^ 4 - 1 from rfl, Nat.and_two_pow_sub_one_eq_mod]
    omega

theorem writeFqcfg_enables {v : Word} {b : CtxBlk} (h : (writeFqcfg v b).fqcfg.toNat.testBit 4 = true) (hb : b.fqcfg.toNat.testBit 4 = false) :
    (writeFqcfg v b).fqwr = 0 ∧ (writeFqcfg v b).fqrd = 0 := by
  rw [writeFqcfg_eq] at h ⊢
  split at h
  next hc => rw [if_pos hc]; exact ⟨rfl, rfl⟩
  next hc => exact absurd ⟨h, hb⟩ hc

/-! ## The debug window (R333 to R335) -/

theorem within_eq {n r : Nat} {f : State → State} {s t : State} (h : f (focus s n r) = t) : within n r f s = focus t s.cur.1 s.cur.2 :=
  congrArg (focus · s.cur.1 s.cur.2) h

/-- The window of a thread that is one. -/
theorem out_of_range {n r : Nat} (hn : n < 512) (hr : r < 3) : ¬(512 ≤ n || 3 ≤ r) = true := by
  rw [Bool.or_eq_true, decide_eq_true_eq, decide_eq_true_eq]
  omega

section

variable {n r : Nat} {v : Word} {s u : State} (hu : focus s n r = u) (hn : n < 512) (hr : r < 3)

include hu hn hr

theorem writeDbgctl_run : writeDbgctl n r v s = focus { u with
    thr.halted := v.toNat.testBit 0 && (u.thr.halted || (decide (u.slot.st = .running) && u.thr.live))
    dev.dbg := SMap.set DbgBlk.reset u.dev.dbg (3 * n + r) { dbgAt u.dev n r with
      halt := v.toNat.testBit 0, sstep := v.toNat.testBit 1, bkstop := v.toNat.testBit 2
      halted := (dbgAt u.dev n r).halted && v.toNat.testBit 0 } } s.cur.1 s.cur.2 := by
  unfold writeDbgctl
  dsimp only
  rw [if_neg (out_of_range hn hr)]
  subst hu
  rfl

theorem readDbgdata_run : ∃ t, readDbgdata n r s = focus t s.cur.1 s.cur.2 ∧
    t.dev.hostData = leBytes 8 (if windowOpen u && selOk u then dbgRead u else 0).toNat ∧ t.thr = u.thr ∧ t.slot = u.slot ∧
      (dbgAt t.dev n r).err = ((dbgAt u.dev n r).err || !(windowOpen u && selOk u)) := by
  unfold readDbgdata
  rw [if_neg (out_of_range hn hr)]
  subst hu
  refine ⟨_, within_eq rfl, rfl, rfl, rfl, ?_⟩
  unfold dbgAt mapDbg
  dsimp only
  rw [SMap.get_set_self]
  rfl

theorem writeDbgdata_closed (h : (windowOpen u && selWritable u) = false) : writeDbgdata n r v s = focus { u with
    dev.dbg := SMap.set DbgBlk.reset u.dev.dbg (3 * n + r) { dbgAt u.dev n r with err := true } } s.cur.1 s.cur.2 := by
  unfold writeDbgdata
  rw [if_neg (out_of_range hn hr)]
  subst hu
  exact within_eq (if_neg (by rw [h]; exact Bool.false_ne_true))

theorem writeDbgdata_open (ho : windowOpen u = true) (hsel : selWritable u = true) :
    writeDbgdata n r v s = focus (dbgWrite v u) s.cur.1 s.cur.2 := by
  unfold writeDbgdata
  rw [if_neg (out_of_range hn hr)]
  subst hu
  exact within_eq (if_pos (by rw [ho, hsel]; rfl))

end

theorem dbgWrite_pc {u : State} {v : Word} (hcls : (dbgSel u).1 = 0) : dbgWrite v u = { u with thr.pc := v &&& ~~~3 } := by
  unfold dbgWrite
  dsimp only
  rw [hcls]
  rfl

theorem dbgWrite_scalar {u : State} {v : Word} (hcls : (dbgSel u).1 = 1) (hne : (dbgSel u).2.1 ≠ 0) :
    dbgWrite v u = { u with thr.x := SMap.set 0 u.thr.x (dbgSel u).2.1 v } := by
  unfold dbgWrite
  dsimp only
  rw [hcls]
  exact if_neg hne

/-- The host writes the thread `u` through its window. -/
theorem dbgWrite_vector {u : State} {v : Word} (hcls : (dbgSel u).1 = 3) (hi : 64 * (dbgSel u).2.2 + 64 ≤ 16384) :
    (SMap.get 0 (dbgWrite v u).thr.v (dbgSel u).2.1).toNat / 2 ^ (64 * (dbgSel u).2.2) % 2 ^ 64 = v.toNat := by
  have hw : (dbgWrite v u).thr.v = SMap.set 0 u.thr.v (dbgSel u).2.1
      (BitVec.ofNat 16384 (setBits (SMap.get 0 u.thr.v (dbgSel u).2.1).toNat (64 * (dbgSel u).2.2) 64 v.toNat)) := by
    unfold dbgWrite
    dsimp only
    rw [hcls]
    rfl
  rw [hw, SMap.get_set_self, BitVec.toNat_ofNat, Nat.mod_eq_of_lt (setBits_lt (BitVec.isLt _) hi), ← Nat.shiftRight_eq_div_pow]
  exact (bits_setBits_same ..).trans (Nat.mod_eq_of_lt v.isLt)

/-! ## The obligation -/

/-- Settles O57: the host's and the save sequencer's events on a slot, each by the rule of its own operation; a slot in focus and the slot the
device holds differ in their threads alone. -/
theorem slotEvents : Obligations.SlotEvents := by
  intro s d a n r sl u after back
  have hdev : ∀ f : Device → Device, (Host.Outcome.next (onDevice f s) : Host.Outcome State Fault Refusal) = after (f d) := fun _ => rfl
  have hback : ∀ t t' : State, t = focus t' s.cur.1 s.cur.2 → (Host.Outcome.next t : Host.Outcome State Fault Refusal) = back t' := fun _ _ h =>
    congrArg _ h
  refine ⟨fun hc => ?_, fun hc => ?_, fun h => ?_, fun hp hst => ?_, fun e he hst hch => ?_,
    fun l hfind hst hch hl hphase hend hcause hstores => ?_, ?_, fun hw hst hsave hch => ?_, fun c l hb d' hc hl hb0 => ⟨fun h => ?_, fun h hw hnext hfree hfit hp => ?_⟩,
    fun e he w l k c t c' hready hs hl hc hw => ?_, fun e he hst hlive hw hch hsave => ?_, fun fr d1 hheld hp hpf hst h => ?_,
    fun hc => ?_, fun hn hr => ?_, fun hh hq => ?_, fun hn hr => ?_, fun hn hr h => ?_, fun hn hr ho hsel => ?_⟩
  · exact (hdev _).trans (congrArg after (writeLpart_eq hc ..))
  · exact (hdev _).trans (congrArg after (if_neg (Nat.not_le.mpr hc)))
  · exact (hdev _).trans (congrArg after (resumeSlot_held h))
  · obtain ⟨h1, h2, h3, h4⟩ := resumeSlot_runs hp hst
    exact ⟨_, hdev _, h1, h2, h3, fun k t _ => h4 k t⟩
  · exact congrArg _ (preemptSlot_run he hst hch)
  · have hrun := endSlot_undrained hfind hst hch hl hphase hend hcause hstores
    have hcut := find_cutShortAll (d := setLaunch sl.launch { l with ending := true, status := l.status ||| 4 } d) hfind (holdsLaunch_own hst hch)
    have hslot := SMap.get_of_find (dflt := Slot.free) hcut
    exact ⟨_, (hdev _).trans (congrArg after hrun), (find_setLaunch ..).trans (if_pos rfl), congrArg (fun sl : Slot => sl.st) hslot,
      (congrArg (fun sl : Slot => sl.ths) hslot).trans rfl⟩
  · intro s' d' sl' addr f d1 hsave hst hctx hdr hpick hch cs bound
    obtain ⟨hfault, hseal⟩ := saveStep_outcome (d1 := d1) rfl hsave hst hctx hdr hpick hch
    have haddr : frameAddr d' sl'.ctx f = addr f := frameAddr_eq ..
    have hsaved : savedAs d' n f = writeSystemCut (savedSlot d' n (2 ^ 48 - 1) sl') cs bound.1 bound.2 (addr f) d' := by
      refine (savedAs_eq (cs := cs) (fun l h => ?_) (fun h => ?_)).trans (by rw [haddr]) <;> simp only [cs] <;> rw [show SMap.find d'.launches sl'.launch = _ from h]
    rw [← hsaved]
    refine ⟨fun h => ?_, fun h => ?_⟩
    · rw [← haddr]
      exact congrArg Host.Outcome.next (hfault h)
    · obtain ⟨hrun, hfree, hcut, hframe⟩ := hseal h
      obtain ⟨hf1, hf2, hf3, hf4, hf5⟩ := savedCut_fields d' n f d1.ser
      exact ⟨afterSave d' d1 n f, savedCut d' n f d1.ser, congrArg Host.Outcome.next hrun, hfree, hcut, hf1, hf2, hf3, hf4.trans haddr, hf5,
        hframe⟩
  · obtain ⟨d', hst', hheld, hrun⟩ := abandonSave_slot n sl.launch (frameAddr d sl.ctx a.idx) d
    exact ⟨d', hst', hheld, (hdev _).trans (congrArg after ((abandonStalled_save hw hst hsave hch).trans hrun))⟩
  · exact (hdev _).trans (congrArg after (resumeCut_unsealed hc hl hb0 h))
  · exact ⟨(hdev _).trans (congrArg after (resumeCut_places hc hl hb0 h hw hnext hfree hfit hp)), placeSystemCut_frees hp⟩
  · refine ⟨?_, writeMember_cut _ hw⟩
    have hcur : e.cur.1 = n := by rw [he, focus_cur]
    refine (congrArg _ (if_pos hready)).trans (congrArg _ (within_eq ((congrArg suspendSlot he.symm).trans ?_)))
    rw [suspendSlot_written hs hl hc hw, hcur]
  · obtain ⟨fr, hrun, hcause, hrole, hpc⟩ := expireWatch_run he hst hlive hw hch hsave
    exact ⟨fr, congrArg _ hrun, hcause, hrole, hpc⟩
  · obtain ⟨h1, h2, h3, h4⟩ := postHeld_posts hheld hp hpf hst h
    exact ⟨_, hdev _, h1, h2, h3, h4⟩
  · exact ⟨_, _, (hdev _).trans (congrArg after (if_neg (Nat.not_le.mpr hc))), writeFqcfg_low .., writeFqcfg_enables⟩
  · exact congrArg _ (writeDbgctl_run rfl hn hr)
  · refine congrArg _ (within_eq ((if_pos ?_).trans rfl))
    rw [Bool.and_eq_true, Bool.not_eq_true', List.any_eq_false]
    refine ⟨hh, fun e he => ?_⟩
    obtain h | h := hq e he
    · simp [h]
    · simp [show e.role ≠ s.dev.arg.role from h]
  · obtain ⟨t, hrun, hrest⟩ := readDbgdata_run (s := s) rfl hn hr
    exact ⟨t, congrArg _ hrun, hrest⟩
  · exact congrArg _ (writeDbgdata_closed rfl hn hr h)
  · exact ⟨_, congrArg _ (writeDbgdata_open rfl hn hr ho hsel), dbgWrite_pc, dbgWrite_scalar, dbgWrite_vector⟩

end Sys2Proof.Machine
end

section
/-! PROOFS. The host's bytes, damaged granules, the scrubber and page retirement (O58): what each leaves in memory and in a slot. -/

namespace Sys2Proof.Machine

/-! ## Bytes of the host (R246, R390) -/

theorem performHome_applied {wr : Writer} {op : Nat} {bs : List (Nat × Byte × Byte)} {d : Device} (hr : d.retire = []) (hw : d.mwatch = []) :
    performHome wr op bs d = applyBytes (clearPoison d ((bs.filter (fun p => p.2.1 = 0xFF)).map (·.1))) bs := by
  have hc := clearPoison_mem d ((bs.filter (fun p => p.2.1 = 0xFF)).map (·.1))
  refine performHome_quiet ?_
  rw [quietDev_applyBytes bs (hc.2.1.trans hr)]
  exact hc.2.2.1.trans hw

theorem upFrom_nodup (lo n : Nat) : (upFrom lo n).Nodup := by
  induction n generalizing lo with
  | zero => exact List.nodup_nil
  | succ n ih => exact List.nodup_cons.mpr ⟨fun h => by rw [mem_upFrom] at h; omega, ih _⟩

/-- Bytes performed from a place up read back, and no other byte differs, where no frame is retired and none is watched. -/
theorem readByte_performHome {wr : Writer} {op at' : Nat} {bs : List Byte} {d : Device} (hr : d.retire = []) (hw : d.mwatch = []) :
    (∀ j b, bs[j]? = some b → readByte (performHome wr op (wholeBytes (upFrom at' bs.length) bs) d) (at' + j) = b) ∧
      ∀ k, (k < at' ∨ at' + bs.length ≤ k) → readByte (performHome wr op (wholeBytes (upFrom at' bs.length) bs) d) k = readByte d k := by
  have hkeys : (wholeBytes (upFrom at' bs.length) bs).map (·.1) = upFrom at' bs.length := map_fst_wholeBytes (length_upFrom ..).symm
  have hc := clearPoison_mem d (((wholeBytes (upFrom at' bs.length) bs).filter (fun p => p.2.1 = 0xFF)).map (·.1))
  obtain ⟨-, hin, hout⟩ := readByte_applyBytes (l := wholeBytes (upFrom at' bs.length) bs) (by rw [hkeys]; exact upFrom_nodup _ _) (hc.2.1.trans hr)
  rw [hkeys] at hout
  rw [performHome_applied hr hw]
  refine ⟨fun j b hj => ?_, fun k hk => ?_⟩
  · have hlt : j < bs.length := (List.getElem?_eq_some_iff.mp hj).1
    rw [hin _ (mem_wholeBytes (getElem?_upFrom _ hlt) hj)]
    exact byte_whole _ _
  · rw [hout k (by rw [mem_upFrom]; omega), readByte_clearPoison]

/-- The host's bytes read back, and no other byte differs, where no frame is retired and none is watched. -/
theorem readByte_hostWrite {l : Nat} {bs : List Byte} {d : Device} (hr : d.retire = []) (hw : d.mwatch = []) :
    (∀ j b, bs[j]? = some b → readByte (hostWrite l bs d) (localKey d l + j) = b) ∧
      ∀ k, (k < localKey d l ∨ localKey d l + bs.length ≤ k) → readByte (hostWrite l bs d) k = readByte d k :=
  readByte_performHome hr hw

/-! ## A damaged granule (R363) -/

theorem SMap.get_set_apart {α : Type} [DecidableEq α] (d d' : α) (m : SMap α) {k j : Nat} (v : α) (h : j ≠ k) :
    SMap.get d (SMap.set d' m k v) j = SMap.get d m j := by
  have hget : ∀ m : SMap α, SMap.get d m j = (SMap.find m j).getD d := fun m => by
    induction m with
    | nil => rfl
    | cons p m ih =>
      obtain ⟨i, w⟩ := p
      unfold SMap.get SMap.find
      split_ifs
      · rfl
      · exact ih
  unfold SMap.set
  split_ifs
  · rw [hget, hget, SMap.find_erase, if_neg h]
  · rw [hget, hget, SMap.find_insert _ _ _ _ (SMap.not_mem_erase m k), if_neg h, SMap.find_erase, if_neg h]

/-- No frame has been retired. -/
def NoneRetired (d : Device) : Prop := ∀ p ∈ d.retire, p.2.retired = []

theorem NoneRetired.homeKey {d : Device} (h : NoneRetired d) (k : Nat) : homeKey d k = k := by
  unfold Machine.homeKey
  unfold NoneRetired at h
  generalize d.retire = l at h
  induction l with
  | nil => rfl
  | cons p l ih =>
    rw [List.foldl_cons, h p List.mem_cons_self]
    exact ih fun q hq => h q (List.mem_cons_of_mem _ hq)

theorem markLine_keeps (base key : Nat) (r : Retire) : (markLine base key r).retired = r.retired ∧ (markLine base key r).ue = r.ue := by
  unfold markLine
  dsimp only
  split_ifs <;> exact ⟨rfl, rfl⟩

theorem NoneRetired.writeByte {d : Device} (h : NoneRetired d) (k : Nat) (b : Byte) : NoneRetired (writeByte d k b) := by
  intro p hp
  obtain ⟨q, hq, rfl⟩ := List.mem_map.mp hp
  exact (markLine_keeps _ _ _).1.trans (h q hq)

theorem retireAt_writeByte (d : Device) (k : Nat) (b : Byte) (c : Nat) : (retireAt (writeByte d k b) c).ue = (retireAt d c).ue := by
  unfold retireAt writeByte
  dsimp only
  generalize d.retire = l
  induction l with
  | nil => rfl
  | cons p l ih =>
    obtain ⟨j, r⟩ := p
    rw [List.map_cons]
    unfold SMap.get
    split_ifs
    · exact (markLine_keeps _ _ _).2
    · exact ih

/-- Bytes written one after the other where none is retired: the others, the error counts and the marks stay. -/
theorem writeBytes_keeps (bs : List Byte) : ∀ (d : Device) (key : Nat), NoneRetired d →
    NoneRetired (writeBytes d key bs) ∧ (∀ c, (retireAt (writeBytes d key bs) c).ue = (retireAt d c).ue) ∧
      (writeBytes d key bs).poison = d.poison ∧
      ∀ k, (k < key ∨ key + bs.length ≤ k) → SMap.get 0 (writeBytes d key bs).mem k = SMap.get 0 d.mem k := by
  induction bs with
  | nil => exact fun d key h => ⟨h, fun _ => rfl, rfl, fun _ _ => rfl⟩
  | cons b bs ih =>
    intro d key h
    obtain ⟨h1, h2, h3, h4⟩ := ih (writeByte d key b) (key + 1) (h.writeByte key b)
    refine ⟨h1, fun c => (h2 c).trans (retireAt_writeByte ..), h3, fun k hk => ?_⟩
    rw [List.length_cons] at hk
    rw [writeBytes, h4 k (by omega)]
    unfold Machine.writeByte
    dsimp only
    rw [h.homeKey]
    exact SMap.get_set_apart _ _ _ _ (by omega)

theorem setRetire_first {c : Nat} {r : Retire} {d : Device} (hret : d.retire = []) (hr : r.retired = []) : NoneRetired (setRetire c r d) := by
  unfold setRetire NoneRetired SMap.set
  dsimp only
  rw [hret]
  intro p hp
  split_ifs at hp
  · cases hp
  · obtain rfl := List.mem_singleton.mp hp
    exact hr

theorem retireAt_setRetire (c : Nat) (r : Retire) (d : Device) : retireAt (setRetire c r d) c = r := SMap.get_set_self ..

theorem spoilBytes_keeps {d : Device} (h : NoneRetired d) (lo n : Nat) :
    NoneRetired (spoilBytes lo n d) ∧ (∀ c, (retireAt (spoilBytes lo n d) c).ue = (retireAt d c).ue) ∧
      ∀ k, (k < lo ∨ lo + n ≤ k) → SMap.get 0 (spoilBytes lo n d).mem k = SMap.get 0 d.mem k := by
  have hlen : (leBytes n (Config.damaged d.fresh)).length = n := length_leBytes ..
  unfold spoilBytes
  generalize leBytes n (Config.damaged d.fresh) = bs at hlen
  subst hlen
  obtain ⟨h1, h2, -, h4⟩ := writeBytes_keeps bs d lo h
  exact ⟨h1, h2, h4⟩

/-- A granule of device memory damaged past every correction. -/
theorem poisonAtKey_granule {key : Nat} {d : Device} (hkey : key < 2 ^ 63) (h : NoneRetired d) :
    SMap.get false (poisonAtKey key d).poison (key / 64) = true ∧ (∀ c, (retireAt (poisonAtKey key d) c).ue = (retireAt d c).ue) ∧
      ∀ k, k / 64 ≠ key / 64 → SMap.get 0 (poisonAtKey key d).mem k = SMap.get 0 d.mem k := by
  have hsize : ∀ k, k < 2 ^ 63 → poisonSize k = 64 := fun k hk => if_neg (by unfold isScratch; rw [decide_eq_true_eq]; omega)
  obtain ⟨h1, h2, h3⟩ := spoilBytes_keeps h (key / 64 * 64) 64
  have hunit : poisonUnit (spoilBytes (key / 64 * 64) 64 d) (key / 64 * 64) = key / 64 := by
    unfold poisonUnit
    rw [h1.homeKey, hsize _ (by omega)]
    omega
  unfold poisonAtKey
  rw [hsize key hkey]
  dsimp only
  rw [hunit]
  generalize spoilBytes (key / 64 * 64) 64 d = e at h2 h3
  rw [SMap.get_set_self]
  exact ⟨rfl, h2, fun k hk => h3 k (by omega)⟩

theorem softInMemory_poisons {core ctrl key : Nat} {d : Device} (hkey : key < 2 ^ 63) (hret : d.retire = []) :
    let d' := softInMemory 14 core ctrl key d
    SMap.get false d'.poison (key / 64) = true ∧ (retireAt d' ctrl).ue = 1 ∧ ∀ k, k / 64 ≠ key / 64 → SMap.get 0 d'.mem k = SMap.get 0 d.mem k := by
  have hr0 : retireAt d ctrl = Retire.reset := by
    unfold retireAt
    rw [hret]
    rfl
  obtain ⟨h1, h2, h3⟩ := poisonAtKey_granule (d := setRetire ctrl { retireAt d ctrl with ue := satAdd (retireAt d ctrl).ue 1 } d) hkey
    (setRetire_first hret (by rw [hr0]; rfl))
  refine ⟨h1, (h2 ctrl).trans ?_, h3⟩
  rw [retireAt_setRetire, hr0]
  rfl

/-! ## The scrubber (R360) -/

/-- What is kept where latent errors of class `c` and number `n` are met. -/
structure Scrubbed (c : Nat) (ns : List Nat) (s t : State) : Prop where
  chain : chainOf t = chainOf s
  tiles : ∀ z, tileOf t z = tileOf s z
  poisoned : ∀ z, tilePoisoned s z = true → tilePoisoned t z = true
  spoilt : ∀ k, (wbOf s k).poison = true → (wbOf t k).poison = true
  marks : ∀ c' n', latent t c' n' = (latent s c' n' && !(decide (c' = c) && ns.contains n'))

theorem Scrubbed.nil (c : Nat) (s : State) : Scrubbed c [] s s := ⟨rfl, fun _ => rfl, fun _ => id, fun _ => id, fun _ _ => by simp⟩

theorem Scrubbed.cons {c n : Nat} {ns : List Nat} {s t u : State} (h : Scrubbed c [n] s t) (k : Scrubbed c ns t u) : Scrubbed c (n :: ns) s u := by
  refine ⟨k.chain.trans h.chain, fun z => (k.tiles z).trans (h.tiles z), fun z hz => k.poisoned z (h.poisoned z hz),
    fun m hm => k.spoilt m (h.spoilt m hm), fun c' n' => ?_⟩
  rw [k.marks, h.marks, List.contains_cons, List.contains_cons]
  cases latent s c' n' <;> cases decide (c' = c) <;> cases (n' == n) <;> cases ns.contains n' <;> rfl

/-- Latent errors met one number after the other. -/
theorem scrubbed_foldl {c : Nat} {g : Nat → State → State} (hg : ∀ n s, Scrubbed c [n] s (g n s)) (ns : List Nat) (s : State) :
    Scrubbed c ns s (ns.foldl (fun s n => g n s) s) := by
  induction ns generalizing s with
  | nil => exact .nil c s
  | cons n ns ih => exact (hg n s).cons (ih _)

/-- What is met at a number, and stays, is found after all the numbers. -/
theorem found_foldl {c : Nat} {g : Nat → State → State} (hg : ∀ n s, Scrubbed c [n] s (g n s)) {P : Nat → State → Prop}
    (hmeet : ∀ n s, latent s c n = true → P n (g n s)) (hkeep : ∀ n m s, P n s → P n (g m s)) {ns : List Nat} {s : State} {n : Nat} (hn : n ∈ ns)
    (hl : latent s c n = true) : P n (ns.foldl (fun s n => g n s) s) := by
  have hstay : ∀ (ms : List Nat) (u : State), P n u → P n (ms.foldl (fun s n => g n s) u) := fun ms => by
    induction ms with
    | nil => exact fun u h => h
    | cons m ms ih => exact fun u h => ih _ (hkeep n m u h)
  induction ns generalizing s with
  | nil => cases hn
  | cons m ns ih =>
    by_cases hm : m = n
    · subst hm
      exact hstay ns _ (hmeet _ _ hl)
    · refine ih ((List.mem_cons.mp hn).resolve_left (Ne.symm hm)) ?_
      rw [(hg m s).marks, hl]
      simp [Ne.symm hm]

theorem latent_dropLatent (c n : Nat) (s : State) (c' n' : Nat) :
    latent (dropLatent c n s) c' n' = (latent s c' n' && !(decide (c' = c) && [n].contains n')) := by
  have hd : (threadAt (dropLatent c n s) 1).hid.damaged = (threadAt s 1).hid.damaged.filter (fun d => !(d.cls = c && d.num = n)) := by
    unfold dropLatent threadAt
    dsimp only
    by_cases h : s.cur.2 = 1
    · simp [h]
    · simp [h, Ne.symm h]
  unfold latent
  rw [hd, List.any_filter]
  generalize (threadAt s 1).hid.damaged = l
  induction l with
  | nil => rfl
  | cons e l ih =>
    rw [List.any_cons, List.any_cons, ih]
    by_cases hc : e.cls = c' <;> by_cases hn : e.num = n' <;> by_cases hc' : c' = c <;> by_cases hn' : n' = n <;> simp_all


theorem tilePoisoned_or {s : State} {p : BitVec 16} {z : Nat} (h : tilePoisoned s z = true) : bit (s.slot.zpoison ||| p).toNat z = true :=
  bit_or_of_bit h

theorem dropLatent_slotParts (c n : Nat) (s : State) : dropLatent c n s = { s with
    thr := (dropLatent c n s).thr, slot.ths := (dropLatent c n s).slot.ths } := by
  unfold dropLatent
  dsimp only
  split_ifs <;> rfl

theorem latent_of_threads {s t : State} (hcur : t.cur = s.cur) (hthr : t.thr = s.thr) (hths : t.slot.ths = s.slot.ths) (c n : Nat) :
    latent t c n = latent s c n := by
  unfold latent threadAt
  rw [hcur, hthr, hths]

theorem scrubbed_none {c n : Nat} {s : State} (h : ¬latent s c n = true) : Scrubbed c [n] s s := by
  refine ⟨rfl, fun _ => rfl, fun _ => id, fun _ => id, fun c' n' => ?_⟩
  by_cases hcn : c' = c ∧ n' = n
  · obtain ⟨rfl, rfl⟩ := hcn
    simp [h]
  · have : (decide (c' = c) && [n].contains n') = false := by simpa using fun hc hn => hcn ⟨hc, hn⟩
    rw [this, Bool.not_false, Bool.and_true]

theorem mxFail_threads (c o n : Nat) (s : State) : (mxFail c o n s).cur = s.cur ∧ (mxFail c o n s).thr = s.thr := by
  unfold mxFail
  split <;> exact ⟨rfl, rfl⟩

theorem poisonTile_rest (z : Nat) (s : State) :
    (poisonTile z s).cur = s.cur ∧ (poisonTile z s).thr = s.thr ∧ (poisonTile z s).dev.chains = s.dev.chains := by
  unfold poisonTile
  split <;> exact ⟨rfl, rfl, rfl⟩

/-- A tile met (R360). -/
theorem scrubbed_meetTile (z : Nat) (s : State) : Scrubbed 0 [z] s (meetTile z 0 s) := by
  unfold meetTile
  by_cases h : latent s 0 z = true
  · rw [if_pos h]
    have hparts := dropLatent_slotParts 0 z s
    have hmarks := latent_dropLatent 0 z s
    generalize dropLatent 0 z s = t at hparts hmarks
    have hslot : (mxFail cLoss z 0 (poisonTile z t)).slot = { s.slot with
        ths := t.slot.ths, zpoison := s.slot.zpoison ||| BitVec.ofNat 16 (2 ^ z), mxerr := s.slot.mxerr.or (some ⟨cLoss, z, 0⟩) } := by
      rw [mxFail_slot, poisonTile_slot, hparts]
    have hchains : (mxFail cLoss z 0 (poisonTile z t)).dev.chains = s.dev.chains := by
      rw [mxFail_dev, (poisonTile_rest z t).2.2, hparts]
    have hlat := latent_of_threads ((mxFail_threads cLoss z 0 (poisonTile z t)).1.trans (poisonTile_rest z t).1)
      ((mxFail_threads cLoss z 0 (poisonTile z t)).2.trans (poisonTile_rest z t).2.1) (by rw [hslot])
    refine ⟨?_, fun z' => ?_, fun z' hz' => ?_, fun k hk => ?_, fun c' n' => (hlat c' n').trans (hmarks c' n')⟩
    · unfold chainOf
      rw [hslot, hchains]
    · unfold tileOf
      rw [hslot]
    · unfold tilePoisoned
      rw [hslot]
      exact tilePoisoned_or hz'
    · unfold wbOf
      rw [hslot]
      exact hk
  · rw [if_neg h]
    exact scrubbed_none h

theorem poisonWb_spec (n : Nat) (s : State) : ∃ wb ras, poisonWb n s = { s with slot.wb := wb, dev.ras := ras } ∧
    (SMap.get WbSlot.empty wb n).poison = true ∧ ∀ k, (wbOf s k).poison = true → (SMap.get WbSlot.empty wb k).poison = true := by
  unfold poisonWb
  split
  next h => exact ⟨s.slot.wb, s.dev.ras, rfl, h, fun _ hk => hk⟩
  next h =>
    refine ⟨_, _, rfl, by rw [SMap.get_set_self], fun k hk => ?_⟩
    by_cases hkn : k = n
    · subst hkn
      rw [SMap.get_set_self]
    · rw [SMap.get_set_ne _ _ _ _ _ hkn]
      exact hk

/-- A weight-buffer slot met (R360). -/
theorem scrubbed_meetWb (n : Nat) (s : State) : Scrubbed 8 [n] s (meetWb n s) := by
  unfold meetWb
  by_cases h : latent s 8 n = true
  · rw [if_pos h]
    have hparts := dropLatent_slotParts 8 n s
    have hmarks := latent_dropLatent 8 n s
    generalize dropLatent 8 n s = t at hparts hmarks
    obtain ⟨wb, ras, hrun, -, hwb⟩ := poisonWb_spec n t
    rw [hrun]
    refine ⟨?_, fun z => ?_, fun z hz => ?_, fun k hk => hwb k ?_, fun c' n' => ?_⟩
    · rw [hparts]
      rfl
    · rw [hparts]
      rfl
    · rw [hparts]
      exact hz
    · rw [hparts]
      exact hk
    · exact (latent_of_threads rfl rfl rfl c' n').trans (hmarks c' n')
  · rw [if_neg h]
    exact scrubbed_none h

theorem meetWb_spoilt (n : Nat) (s : State) (h : latent s 8 n = true) : (wbOf (meetWb n s) n).poison = true := by
  unfold meetWb
  rw [if_pos h]
  obtain ⟨wb, ras, hrun, hn, -⟩ := poisonWb_spec n (dropLatent 8 n s)
  rw [hrun]
  exact hn

/-- The tiles met, then the weight-buffer slots. -/
def scrubTiles (s : State) : State := (upFrom 0 16).foldl (fun s z => meetTile z 0 s) s

theorem scrubSlot_eq {s : State} (h : chainOf s = none) : scrubSlot s = (upFrom 0 4).foldl (fun s n => meetWb n s) (scrubTiles s) := by
  have h1 : Scrubbed 0 (upFrom 0 16) s (scrubTiles s) := scrubbed_foldl (g := fun z s => meetTile z 0 s) scrubbed_meetTile (upFrom 0 16) s
  have h2 := scrubbed_foldl (g := meetWb) scrubbed_meetWb (upFrom 0 4) (scrubTiles s)
  unfold scrubSlot
  dsimp only
  rw [show chainOf ((upFrom 0 4).foldl (fun s n => meetWb n s) ((upFrom 0 16).foldl (fun s z => meetTile z 0 s) s)) = none from
    h2.chain.trans (h1.chain.trans h)]
  rfl

theorem scrubSlot_spec {s : State} (hchain : chainOf s = none) :
    ((∀ z < 16, latent s 0 z = false) → (∀ k < 4, latent s 8 k = false) → scrubSlot s = s) ∧
    (∀ z < 16, latent s 0 z = true → tilePoisoned (scrubSlot s) z = true ∧ latent (scrubSlot s) 0 z = false) ∧
    (∀ k < 4, latent s 8 k = true → (wbOf (scrubSlot s) k).poison = true) ∧ ∀ z, tileOf (scrubSlot s) z = tileOf s z := by
  have h1 : Scrubbed 0 (upFrom 0 16) s (scrubTiles s) := scrubbed_foldl (g := fun z s => meetTile z 0 s) scrubbed_meetTile (upFrom 0 16) s
  have h2 := scrubbed_foldl (g := meetWb) scrubbed_meetWb (upFrom 0 4) (scrubTiles s)
  rw [scrubSlot_eq hchain]
  refine ⟨fun ht hw => ?_, fun z hz hl => ⟨h2.poisoned z ?_, ?_⟩, fun k hk hl => ?_, fun z => (h2.tiles z).trans (h1.tiles z)⟩
  · have h3 : scrubTiles s = s := foldl_fixed fun z hz => meetTile_whole (ht z (mem_upFrom_zero.mp hz))
    rw [h3]
    exact foldl_fixed fun k hk => meetWb_whole (hw k (mem_upFrom_zero.mp hk))
  · exact found_foldl (g := fun z s => meetTile z 0 s) (P := fun z t => z < 16 → tilePoisoned t z = true) scrubbed_meetTile
      (fun n t hn hlt => meetTile_poisoned hlt hn) (fun n m t hn hlt => (scrubbed_meetTile m t).poisoned n (hn hlt)) (mem_upFrom_zero.mpr hz) hl hz
  · rw [h2.marks, h1.marks]
    simp [mem_upFrom_zero.mpr hz]
  · refine found_foldl (g := meetWb) (P := fun k t => (wbOf t k).poison = true) scrubbed_meetWb meetWb_spoilt
      (fun n m t hn => (scrubbed_meetWb m t).spoilt n hn) (mem_upFrom_zero.mpr hk) ?_
    rw [h1.marks, hl]
    rfl

/-! ## Lines copied to a spare (R367) -/

/-- Bytes moved one after the other, each to its destination from its source. -/
def moved (l : List (Nat × Nat)) (m : SMap Byte) : SMap Byte :=
  l.foldl (fun m p => SMap.set Config.unlistedByte m p.1 (SMap.get Config.unlistedByte m p.2)) m

theorem moved_cons (p : Nat × Nat) (l : List (Nat × Nat)) (m : SMap Byte) :
    moved (p :: l) m = moved l (SMap.set Config.unlistedByte m p.1 (SMap.get Config.unlistedByte m p.2)) := rfl

theorem moved_append (l l' : List (Nat × Nat)) (m : SMap Byte) : moved (l ++ l') m = moved l' (moved l m) := List.foldl_append

/-- Where no destination is a source and each has one source, every destination takes its source's byte, and no other byte differs. -/
theorem moved_spec {l : List (Nat × Nat)} (hapart : ∀ p ∈ l, ∀ q ∈ l, p.1 ≠ q.2) (hone : ∀ p ∈ l, ∀ q ∈ l, p.1 = q.1 → p.2 = q.2) (m : SMap Byte) :
    (∀ p ∈ l, SMap.get Config.unlistedByte (moved l m) p.1 = SMap.get Config.unlistedByte m p.2) ∧
      ∀ k, k ∉ l.map Prod.fst → SMap.get Config.unlistedByte (moved l m) k = SMap.get Config.unlistedByte m k := by
  induction l generalizing m with
  | nil => exact ⟨by simp, fun _ _ => rfl⟩
  | cons q l ih =>
    obtain ⟨hin, hout⟩ := ih (fun p hp r hr => hapart p (.tail _ hp) r (.tail _ hr)) (fun p hp r hr => hone p (.tail _ hp) r (.tail _ hr))
      (SMap.set Config.unlistedByte m q.1 (SMap.get Config.unlistedByte m q.2))
    have htail : ∀ p ∈ l, SMap.get Config.unlistedByte (moved (q :: l) m) p.1 = SMap.get Config.unlistedByte m p.2 := fun p hp => by
      rw [moved_cons, hin p hp, SMap.get_set_ne _ _ _ _ _ (hapart q List.mem_cons_self p (.tail _ hp)).symm]
    refine ⟨fun p hp => ?_, fun k hk => ?_⟩
    · obtain rfl | hp := List.mem_cons.mp hp
      · by_cases hmem : p.1 ∈ l.map Prod.fst
        · obtain ⟨r, hr, hrp⟩ := List.mem_map.mp hmem
          rw [← hrp, htail r hr, hone r (.tail _ hr) p List.mem_cons_self hrp]
        · rw [moved_cons, hout _ hmem, SMap.get_set_self]
      · exact htail p hp
    · rw [List.map_cons, List.mem_cons, not_or] at hk
      rw [moved_cons, hout k hk.2, SMap.get_set_ne _ _ _ _ _ hk.1]

/-- The bytes of a line, each with its source. -/
def lineMoves (to' from' ln : Nat) : List (Nat × Nat) := (upFrom 0 128).map (fun i => (to' + 128 * ln + i, from' + 128 * ln + i))

theorem mem_lineMoves {to' from' ln : Nat} {p : Nat × Nat} :
    p ∈ lineMoves to' from' ln ↔ ∃ i < 128, p = (to' + 128 * ln + i, from' + 128 * ln + i) := by
  simp only [lineMoves, List.mem_map, mem_upFrom_zero, eq_comm]

/-- Where a line comes from and goes to. -/
def copyFrom (d : Device) (r : Retire) : Nat := homeKey d (localKey d (65536 * r.frame))

def copyTo (d : Device) (r : Retire) : Nat := localKey d (65536 * spareFrame r)

/-- Bytes copied one after the other from `a` to `b`. -/
def carryBytes (b a : Nat) (l : List Nat) (d : Device) : Device :=
  l.foldl (fun d i => { d with mem := SMap.set Config.unlistedByte d.mem (b + i) (SMap.get Config.unlistedByte d.mem (a + i)) }) d

theorem carryBytes_eq (b a : Nat) (l : List Nat) (d : Device) :
    carryBytes b a l d = { d with mem := moved (l.map (fun i => (b + i, a + i))) d.mem } := by
  unfold carryBytes
  induction l generalizing d with
  | nil => rfl
  | cons i l ih => rw [List.foldl_cons, ih]; rfl

theorem copyLine_eq (r : Retire) (ln : Nat) (d : Device) : copyLine r ln d = { d with
    mem := moved (lineMoves (copyTo d r) (copyFrom d r) ln) d.mem, poison := (copyLine r ln d).poison } := by
  have h : copyLine r ln d = { carryBytes (copyTo d r + 128 * ln) (copyFrom d r + 128 * ln) (upFrom 0 128) d with
      poison := (copyLine r ln d).poison } := rfl
  rw [carryBytes_eq] at h
  unfold lineMoves
  dsimp only at h ⊢
  generalize moved _ d.mem = m at h ⊢
  exact h

theorem copyLine_places (r : Retire) (ln : Nat) (d : Device) :
    copyTo (copyLine r ln d) r = copyTo d r ∧ copyFrom (copyLine r ln d) r = copyFrom d r ∧
      (copyLine r ln d).mem = moved (lineMoves (copyTo d r) (copyFrom d r) ln) d.mem := by
  have h := copyLine_eq r ln d
  generalize moved (lineMoves (copyTo d r) (copyFrom d r) ln) d.mem = m at h
  rw [h]
  exact ⟨rfl, rfl, rfl⟩

theorem copyLines_eq (r : Retire) (lines : List Nat) (d : Device) : ∃ poison, lines.foldl (fun d ln => copyLine r ln d) d = { d with
    mem := moved (lines.flatMap (lineMoves (copyTo d r) (copyFrom d r))) d.mem, poison := poison } := by
  induction lines generalizing d with
  | nil => exact ⟨d.poison, rfl⟩
  | cons ln lines ih =>
    obtain ⟨poison, hrest⟩ := ih (copyLine r ln d)
    obtain ⟨hto, hfrom, hmem⟩ := copyLine_places r ln d
    rw [List.foldl_cons, hrest, List.flatMap_cons, moved_append, hto, hfrom, hmem]
    generalize moved _ (moved _ d.mem) = m
    refine ⟨poison, ?_⟩
    rw [copyLine_eq]

/-- Lines of a frame copied byte for byte to a spare apart from it. -/
theorem copied_lines {to' from' : Nat} {lines : List Nat} (hlines : ∀ ln ∈ lines, ln < 512) (hal : to' % 128 = 0)
    (hapart : from' + 65536 ≤ to' ∨ to' + 65536 ≤ from') (m : SMap Byte) :
    (∀ ln ∈ lines, ∀ i < 128, SMap.get Config.unlistedByte (moved (lines.flatMap (lineMoves to' from')) m) (to' + 128 * ln + i) =
        SMap.get Config.unlistedByte m (from' + 128 * ln + i)) ∧
      ∀ k, k / 128 ∉ lines.map (fun ln => to' / 128 + ln) →
        SMap.get Config.unlistedByte (moved (lines.flatMap (lineMoves to' from')) m) k = SMap.get Config.unlistedByte m k := by
  have hmem : ∀ p ∈ lines.flatMap (lineMoves to' from'), ∃ ln ∈ lines, ∃ i < 128, p = (to' + 128 * ln + i, from' + 128 * ln + i) := fun p hp => by
    obtain ⟨ln, hln, hp⟩ := List.mem_flatMap.mp hp
    exact ⟨ln, hln, mem_lineMoves.mp hp⟩
  obtain ⟨hin, hout⟩ := moved_spec (l := lines.flatMap (lineMoves to' from'))
    (fun p hp q hq => by
      obtain ⟨a, ha, i, hi, rfl⟩ := hmem p hp
      obtain ⟨b, hb, j, hj, rfl⟩ := hmem q hq
      have := hlines a ha
      have := hlines b hb
      show to' + 128 * a + i ≠ from' + 128 * b + j
      omega)
    (fun p hp q hq h => by
      obtain ⟨a, -, i, -, rfl⟩ := hmem p hp
      obtain ⟨b, -, j, -, rfl⟩ := hmem q hq
      dsimp only at h ⊢
      omega) m
  refine ⟨fun ln hln i hi => hin _ (List.mem_flatMap.mpr ⟨ln, hln, mem_lineMoves.mpr ⟨i, hi, rfl⟩⟩), fun k hk => hout k fun hk' => hk ?_⟩
  obtain ⟨p, hp, rfl⟩ := List.mem_map.mp hk'
  obtain ⟨ln, hln, i, hi, rfl⟩ := hmem p hp
  refine List.mem_map.mpr ⟨ln, hln, ?_⟩
  dsimp only
  omega

end Sys2Proof.Machine
end

section
/-! PROOFS. What the host and errors do (O58): invalidation, the register window, host memory, soft errors, scrubbing, page retirement. -/

namespace Sys2Proof.Machine

/-! ## Invalidation (R249) -/

theorem startTlbi_busy {k : Nat} {d : Device} (h : d.tlbiBusy = true) : startTlbi k d = d := if_pos h

theorem startTlbi_starts {k : Nat} {d : Device} (h : d.tlbiBusy = false) :
    startTlbi k d = { d with tlbiBusy := true, tlbiKind := k % 4, tlbiFor := (d.tlbiVa.toNat, d.tlbiCtx.toNat) } := if_neg (by simp [h])

theorem ackTlbi_done {d : Device} (hb : d.tlbiBusy = true) (hq : tlbiQuiet d = true) :
    (ackTlbi d).tlbiBusy = false ∧ (ackTlbi d).tlbiDone = true ∧ (∀ e, e ∈ (ackTlbi d).tlb ↔ e ∈ d.tlb ∧ tlbiHits d e = false) ∧
      (ackTlbi d).mem = d.mem ∧ (ackTlbi d).slots = d.slots := by
  unfold ackTlbi
  rw [if_neg (by simp [hb, hq])]
  refine ⟨rfl, rfl, fun e => ?_, rfl, rfl⟩
  rw [List.mem_filter, Bool.not_eq_true']

/-! ## Measurement registers (R393) -/

theorem extend_eq (m digest : BitVec 256) :
    extend m digest = BitVec.ofNat 256 (leNat (sha256 (leBytes 32 m.toNat ++ leBytes 32 digest.toNat))) := by
  unfold extend bytes32
  rfl

theorem extendReg_eq (i : Nat) (digest : BitVec 256) (b : Boot) :
    extendReg i digest b = { b with mreg := SMap.set 0 b.mreg i (extend (SMap.get 0 b.mreg i) digest) } := rfl

theorem execMextGo_extends {s : State} (h : s.dev.boot.mextBusy = true) : execMextGo s = .next { s with
    dev.boot.mreg := SMap.set 0 s.dev.boot.mreg s.dev.boot.mextTo (BitVec.ofNat 256
      (leNat (sha256 (leBytes 32 (SMap.get 0 s.dev.boot.mreg s.dev.boot.mextTo).toNat ++ leBytes 32 s.dev.boot.mextLatch.toNat))))
    dev.boot.mextBusy := false } := by
  unfold execMextGo
  rw [if_pos h, extendReg_eq, extend_eq]

/-! ## The register window (R391, R395) -/

theorem foldl_cleared (vs : List Nat) (m : SMap Bool) (v : Nat) :
    SMap.get false (vs.foldl (fun m v => SMap.set false m v false) m) v = (SMap.get false m v && !vs.contains v) := by
  induction vs generalizing m with
  | nil => simp
  | cons w vs ih =>
    rw [List.foldl_cons, ih, SMap.get_set, List.contains_cons]
    by_cases h : v = w
    · simp [h]
    · rw [if_neg h, show (v == w) = false by simpa using h, Bool.false_or]

theorem serviced_frame (vs : List Nat) (s : State) : serviced vs s = { s with dev.msix := (serviced vs s).dev.msix } := by
  unfold serviced
  split_ifs <;> rfl

theorem serviced_msix (vs : List Nat) (s : State) (v : Nat) :
    SMap.get false (serviced vs s).dev.msix v = (SMap.get false s.dev.msix v && !vs.contains v) := by
  unfold serviced
  split_ifs with h
  · rw [List.isEmpty_iff.mp h]
    simp
  · exact foldl_cleared ..

section

variable {read : Bool} {off len : Nat} {v : Word} {s : State}

theorem zeros_eq (n : Nat) : zeros n = List.replicate n 0 := rfl

theorem hostAccess_bad (hoff : off < 2 ^ 32) (h : len ≠ 8 ∨ off % 8 ≠ 0) : hostAccess read off len v s =
    { s with dev.boot.badacc := true, dev.hostData := if read then List.replicate (min len 8) 0 else s.dev.hostData } := by
  unfold hostAccess
  rw [if_neg (Nat.not_le.mpr hoff), if_pos (by simpa using h), zeros_eq]

theorem hostAccess_doubleword (hoff : off < 2 ^ 32) (hlen : len = 8) (hal : off % 8 = 0) :
    hostAccess read off len v s = if read then hostRead off s else writeReg off v s := by
  unfold hostAccess
  rw [if_neg (Nat.not_le.mpr hoff), if_neg (by simp [hlen, hal])]

theorem writeReg_account (h1 : 0x20000 ≤ off) (h2 : off < 0x24000) :
    writeReg off v s = { s with dev.acnt := SMap.set 0 s.dev.acnt ((off - 0x20000) / 8) v } := by
  unfold writeReg
  dsimp only
  rw [if_neg (by omega), if_neg (by omega), if_pos h2]

theorem writePriv_maxvl {o : Nat} {d : Device} (ho : o < 0x4000) (hal : o % 32 = 0) :
    writePriv o v d = { d with maxvl := SMap.set 16384 d.maxvl (o / 32) (v &&& 0x1FFFF) } := by
  have h1 : ¬0x4800 ≤ o := by omega
  have h2 : ¬0x4000 ≤ o := by omega
  have h3 : ¬512 ≤ o / 32 := by omega
  unfold writePriv
  rw [if_neg h1, if_neg h2, hal]
  unfold writeMaxvl
  exact if_neg h3

theorem writeReg_priv (h1 : 0xC0000 ≤ off) (h2 : off < 0xC4000) : writeReg off v s = onDevice (writePriv (off - 0xC0000) v) s := by
  unfold writeReg
  dsimp only
  rw [if_neg (by omega), if_neg (by omega), if_neg (by omega), if_neg (by omega), if_neg (by omega), if_neg (by omega), if_neg (by omega),
    if_neg (by omega), if_neg (by omega), if_neg (by simp; omega), if_neg (by simp; omega), if_pos (by simp; omega)]

theorem hostRead_account (h1 : 0x20000 ≤ off) (h2 : off < 0x24000) :
    hostRead off s = { s with dev.hostData := leBytes 8 (SMap.get 0 s.dev.acnt ((off - 0x20000) / 8)).toNat } := by
  have hreg : ∀ d, readReg off d = SMap.get 0 d.acnt ((off - 0x20000) / 8) := fun d => by
    unfold readReg
    dsimp only
    rw [if_neg (by omega), if_neg (by omega), if_pos h2]
  unfold hostRead
  rw [if_neg (by simp [isDbgdata]; omega), hreg]
  rfl

end

/-! ## Page retirement (R366, R367) -/

theorem startRetire_takes {c f : Nat} {rest : List Nat} {d : Device} (hw : (retireAt d c).waiting = f :: rest) (hst : (retireAt d c).st = 0) :
    ((retireAt d c).used < (spareOf (retireAt d c)).2 → startRetire c d = raiseVector 0 (setRetire c { retireAt d c with
      waiting := rest, used := (retireAt d c).used + 1, st := 1, frame := f, marked := [], passes := 0 } d)) ∧
    ((spareOf (retireAt d c)).2 ≤ (retireAt d c).used →
      startRetire c d = raiseVector 0 (setRetire c { retireAt d c with waiting := rest, nospare := true } d)) := by
  refine ⟨fun h => ?_, fun h => ?_⟩ <;> unfold startRetire <;> dsimp only <;> rw [hw] <;> dsimp only <;> rw [if_neg (by simp [hst])]
  · exact if_pos h
  · exact if_neg (Nat.not_lt.mpr h)

theorem copyTo_aligned (d : Device) (r : Retire) : copyTo d r % 128 = 0 := by
  unfold copyTo localKey
  omega

/-- What copies of a frame's lines leave in memory (R367). -/
def LinesCopied (from' to' : Nat) (lines : List Nat) (d d' : Device) : Prop :=
  (∀ ln ∈ lines, ln < 512) → (from' + 65536 ≤ to' ∨ to' + 65536 ≤ from') →
    (∀ ln ∈ lines, ∀ i < 128, SMap.get Config.unlistedByte d'.mem (to' + 128 * ln + i) = SMap.get Config.unlistedByte d.mem (from' + 128 * ln + i)) ∧
      ∀ k, k / 128 ∉ lines.map (fun ln => to' / 128 + ln) → SMap.get Config.unlistedByte d'.mem k = SMap.get Config.unlistedByte d.mem k

theorem endCopyPass_spec {c : Nat} {again : List Nat} {d : Device} (hst : (retireAt d c).st = 1) :
    let r := retireAt d c
    let left := r.marked.filter again.contains
    LinesCopied (copyFrom d r) (copyTo d r) (if r.passes = 0 then upFrom 0 512 else r.marked) d (endCopyPass c again d) ∧
      retireAt (endCopyPass c again d) c =
        { r with marked := left, passes := r.passes + 1, st := if left.length ≤ 8 ∨ 16 ≤ r.passes + 1 then 2 else 1 } := by
  intro r left
  obtain ⟨poison, hcopy⟩ := copyLines_eq r (if r.passes = 0 then upFrom 0 512 else r.marked) d
  have hrun : endCopyPass c again d = setRetire c { r with
      marked := left, passes := r.passes + 1, st := if left.length ≤ 8 ∨ 16 ≤ r.passes + 1 then 2 else 1 }
      ((if r.passes = 0 then upFrom 0 512 else r.marked).foldl (fun d ln => copyLine r ln d) d) := by
    unfold endCopyPass
    dsimp only
    rw [if_neg (by simp [hst])]
    simp only [Bool.or_eq_true, decide_eq_true_eq]
    rfl
  rw [hrun]
  refine ⟨fun hl hapart => ?_, retireAt_setRetire ..⟩
  have h := copied_lines hl (copyTo_aligned d r) hapart d.mem
  rw [hcopy]
  exact h

theorem finishRetire_spec {c : Nat} {d : Device} (hst : (retireAt d c).st = 2) :
    let r := retireAt d c
    LinesCopied (copyFrom d r) (copyTo d r) r.marked d (finishRetire c d) ∧
      retireAt (finishRetire c d) c = { r with st := 0, marked := [], retired := r.retired ++ [(copyFrom d r, copyTo d r)] } := by
  intro r
  obtain ⟨poison, hcopy⟩ := copyLines_eq r r.marked d
  have hrun : finishRetire c d = setRetire c { r with st := 0, marked := [], retired := r.retired ++ [(copyFrom d r, copyTo d r)] }
      (r.marked.foldl (fun d ln => copyLine r ln d) d) := by
    have hplaces : copyFrom (r.marked.foldl (fun d ln => copyLine r ln d) d) r = copyFrom d r ∧
        copyTo (r.marked.foldl (fun d ln => copyLine r ln d) d) r = copyTo d r := by
      generalize moved (r.marked.flatMap (lineMoves (copyTo d r) (copyFrom d r))) d.mem = m at hcopy
      rw [hcopy]
      exact ⟨rfl, rfl⟩
    rw [← hplaces.1, ← hplaces.2]
    unfold finishRetire
    dsimp only
    rw [if_neg (by simp [hst])]
    rfl
  rw [hrun]
  refine ⟨fun hl hapart => ?_, retireAt_setRetire ..⟩
  have h := copied_lines hl (copyTo_aligned d r) hapart d.mem
  rw [hcopy]
  exact h

theorem execScrubPass_runs {s v : State} (hv : v = within (2 * s.dev.arg.idx + 1) 1 scrubSlot (within (2 * s.dev.arg.idx) 1 scrubSlot s))
    (h : s.dev.arg.idx < 256) : execScrubPass s = .next (if s.dev.arg.num = 0 then v else { v with
      dev.ras := SMap.set 0 v.dev.ras (8 * s.dev.arg.idx + 2) (satAdd (SMap.get 0 v.dev.ras (8 * s.dev.arg.idx + 2)) s.dev.arg.num) }) := by
  unfold execScrubPass
  dsimp only
  rw [if_neg (Nat.not_le.mpr h), ← hv]
  rfl

/-! ## The obligation -/

/-- Settles O58: the host's and the errors' events one by one; the bytes of a copied line are moved apart from their sources, and a scrub meets
every number once and takes nothing back. -/
theorem hostEvents : Obligations.HostEvents := by
  intro s d a after dev
  refine ⟨fun i k hik => ?_, fun hb hq => ?_, fun hb => ?_, ⟨⟨serviced_frame .., fun v => serviced_msix ..⟩, fun hoff hbad => ?_, fun hr hlen hal => ⟨fun h1 h2 => ?_, fun h1 h2 h3 => ?_⟩,
    fun hr hlen hal h1 h2 => ?_⟩, ⟨fun h => ?_, fun h => ?_, fun h1 h2 => ?_⟩, fun hok hlen => ?_, fun hok hlen hnum hval hloc => ?_, fun hidx => ?_,
    fun hchain => scrubSlot_spec hchain, fun hidx => ⟨fun f rest hw hst => ⟨fun h => ?_, fun h => ?_⟩, fun hst => ?_, fun hst => ?_⟩⟩
  · have hstart : exec i s = after (startTlbi k d) ∧ k % 4 = k := by
      simp only [List.mem_cons, Prod.mk.injEq, List.mem_nil_iff, or_false] at hik
      obtain ⟨rfl, rfl⟩ | ⟨rfl, rfl⟩ | ⟨rfl, rfl⟩ | ⟨rfl, rfl⟩ := hik <;> exact ⟨rfl, rfl⟩
    refine ⟨fun hb => hstart.1.trans (congrArg after (startTlbi_busy hb)), fun hb => hstart.1.trans (congrArg after ?_)⟩
    rw [startTlbi_starts hb, hstart.2]
  · exact ⟨_, rfl, ackTlbi_done hb hq⟩
  · exact execMextGo_extends hb
  · rw [show s.dev.hostData = (serviced a.nats s).dev.hostData by rw [serviced_frame]]
    exact congrArg Host.Outcome.next (hostAccess_bad hoff hbad)
  · refine congrArg Host.Outcome.next ((hostAccess_doubleword (by omega) hlen hal).trans ?_)
    rw [if_neg (by rw [hr]; exact Bool.false_ne_true), writeReg_account h1 h2,
      show (serviced a.nats s).dev.acnt = s.dev.acnt by rw [serviced_frame]]
  · refine congrArg Host.Outcome.next ((hostAccess_doubleword (by omega) hlen hal).trans ?_)
    rw [if_neg (by rw [hr]; exact Bool.false_ne_true), writeReg_priv h1 h2]
    unfold onDevice
    rw [writePriv_maxvl (by omega) (by omega), show (park (serviced a.nats s)).maxvl = d.maxvl by rw [serviced_frame]; rfl,
      show (serviced a.nats s).cur = s.cur by rw [serviced_frame]]
  · refine congrArg Host.Outcome.next ((hostAccess_doubleword (by omega) hlen hal).trans ?_)
    rw [if_pos hr, hostRead_account h1 h2, show (serviced a.nats s).dev.acnt = s.dev.acnt by rw [serviced_frame]]
  · exact congrArg Host.Outcome.next (if_pos h)
  · exact ⟨_, congrArg Host.Outcome.next (if_pos h), fun hr hw => readByte_hostWrite hr hw⟩
  · exact ⟨_, congrArg Host.Outcome.next (if_pos (by rw [Bool.and_eq_true, decide_eq_true_eq, decide_eq_true_eq]; exact ⟨h1, h2⟩)), fun hr hw => readByte_hostWrite hr hw⟩
  · exact congrArg Host.Outcome.next (if_pos (by rw [hok]; simpa using hlen))
  · refine ⟨_, congrArg Host.Outcome.next ((if_neg ?_).trans ((if_neg ?_).trans (if_pos ?_))), fun hret => ?_⟩
    · rw [hok]
      exact Bool.false_ne_true
    · rw [hlen]
      decide
    · rw [hloc]
      simpa using hnum
    · rw [hlen]
      exact softInMemory_poisons hval hret
  · intro v
    exact execScrubPass_runs (v := v) rfl hidx
  · exact congrArg Host.Outcome.next ((if_neg (Nat.not_le.mpr hidx)).trans (congrArg (fun e => { s with dev := e }) ((startRetire_takes hw hst).1 h)))
  · exact congrArg Host.Outcome.next ((if_neg (Nat.not_le.mpr hidx)).trans (congrArg (fun e => { s with dev := e }) ((startRetire_takes hw hst).2 h)))
  · exact ⟨_, congrArg Host.Outcome.next (if_neg (Nat.not_le.mpr hidx)), endCopyPass_spec hst⟩
  · exact ⟨_, congrArg Host.Outcome.next (if_neg (Nat.not_le.mpr hidx)), finishRetire_spec hst⟩

end Sys2Proof.Machine
end

section
/-! PROOFS. Starts, clocks and the management responder (O60). -/

namespace Sys2Proof.Machine

/-! ## The identity of the device through the dispatcher (R401) -/

theorem boot_foldl {α : Type} {f : Device → α → Device} (hf : ∀ d a, (f d a).boot = d.boot) (l : List α) (d : Device) : (l.foldl f d).boot = d.boot := by
  induction l generalizing d with
  | nil => rfl
  | cons a l ih => exact (ih _).trans (hf d a)

theorem Homes.boot {d e : Device} (h : Homes d e) : e.boot = d.boot := by rw [h.frame]

theorem ctxWriteOr_boot (op c va : Nat) (bs : List Byte) (d : Device) : (ctxWriteOr op c va bs d).boot = d.boot := (homes_ctxWriteOr ..).boot

theorem reportSignal_boot (c addr status code : Nat) (d : Device) : (reportSignal c addr status code d).boot = d.boot := by
  unfold reportSignal
  split
  · rfl
  extract_lets e
  have he : e.boot = d.boot := by
    simp only [e]
    split
    · split
      · rfl
      · exact ctxWriteOr_boot ..
    · rfl
  clear_value e
  split
  · exact (ctxWriteOr_boot ..).trans he
  · exact he

theorem completePacket_boot (p : Nat) (d : Device) : (completePacket p d).boot = d.boot := by
  unfold completePacket
  split
  · rfl
  · split_ifs
    · rfl
    · exact reportSignal_boot ..

theorem notePacket_boot (l : Launch) (status code : Nat) (d : Device) : (notePacket l status code d).boot = d.boot := by
  unfold notePacket
  split
  · rfl
  split
  · rfl
  dsimp only
  split
  · exact completePacket_boot ..
  · rfl

theorem mapLaunch_boot (id : Nat) (f : Launch → Launch) (d : Device) : (mapLaunch id f d).boot = d.boot := by
  rw [mapLaunch_frame]

theorem setTaskState_boot (id st : Nat) (d : Device) : (setTaskState id st d).boot = d.boot := by
  unfold setTaskState
  split
  · rfl
  · exact ctxWriteOr_boot ..

theorem markMissed_boot (id : Nat) (d : Device) : (markMissed id d).boot = d.boot := by
  unfold markMissed
  split
  · rfl
  · split_ifs <;> rfl

theorem dropCuts_boot (id : Nat) (d : Device) : (dropCuts id d).boot = d.boot := by
  unfold dropCuts
  refine boot_foldl (fun e p => ?_) _ d
  split_ifs <;> rfl

theorem endLaunch_boot (id status code : Nat) (d : Device) : (endLaunch id status code d).boot = d.boot := by
  unfold endLaunch
  dsimp only
  split
  · exact markMissed_boot ..
  · split
    · exact (dropCuts_boot ..).trans (markMissed_boot ..)
    · exact (notePacket_boot ..).trans ((reportSignal_boot ..).trans ((dropCuts_boot ..).trans (markMissed_boot ..)))

theorem checkLaunch_boot (id : Nat) (d : Device) : (checkLaunch id d).boot = d.boot := by
  unfold checkLaunch
  split
  · rfl
  · split_ifs
    · exact endLaunch_boot ..
    · rfl

theorem failTasks_boot (l : Launch) (d : Device) : (failTasks l d).boot = d.boot := by
  refine boot_foldl (fun e t => ?_) _ d
  split
  · split_ifs
    · rfl
    · exact setTaskState_boot ..
  · rfl

theorem chargeHeld_boot (id : Nat) (d : Device) : (chargeHeld id d).boot = d.boot := by
  refine boot_foldl (fun e p => ?_) _ d
  split_ifs <;> rfl

theorem failWaiting_boot (id cause : Nat) (d : Device) : (failWaiting id cause d).boot = d.boot := by
  refine boot_foldl (fun e p => ?_) _ d
  split
  · rfl
  · exact (endLaunch_boot ..).trans (failTasks_boot ..)

theorem tryEnd_boot (id : Nat) (d : Device) : (tryEnd id d).boot = d.boot := by
  unfold tryEnd
  split
  · rfl
  next l _ =>
    split_ifs
    · have h : ∀ f : Launch → Launch, (endLaunch id 0 0 (failWaiting id l.cause (mapLaunch id f (chargeHeld id (failTasks l d))))).boot = d.boot := fun f =>
        (endLaunch_boot ..).trans ((failWaiting_boot ..).trans ((mapLaunch_boot ..).trans ((chargeHeld_boot ..).trans (failTasks_boot ..))))
      dsimp only
      split
      · exact (checkLaunch_boot ..).trans (h _)
      · exact h _
    · rfl

theorem beginEnd_boot (id status code : Nat) (d : Device) : (beginEnd id status code d).boot = d.boot := by
  unfold beginEnd
  split
  · rfl
  · split_ifs <;> rfl

theorem endEverything_boot (d : Device) : (endEverything d).boot = d.boot := by
  refine boot_foldl (fun e p => ?_) _ _
  split_ifs
  · rfl
  all_goals exact (tryEnd_boot ..).trans (beginEnd_boot ..)

/-! ## Clocks (R401) -/

theorem raised_vector (v : Nat) (d : Device) : SMap.get false (raiseVector v d).msix v = true := by
  unfold raiseVector
  exact SMap.get_set_self false d.msix v true


/-- A clock that an island may take: 1.2 GHz to 3.0 GHz, in steps of 100 MHz. -/
def LegalClock (mhz : Nat) : Prop := 1200 ≤ mhz ∧ mhz ≤ 3000 ∧ mhz % 100 = 0

theorem setClock_legal {i mhz : Nat} (d : Device) (hi : i < 128) (h : LegalClock mhz) :
    setClock i mhz d = { d with islands := SMap.set Island.reset d.islands i ⟨mhz, tickCount d i, nowPs d⟩ } := by
  obtain ⟨h1, h2, h3⟩ := h
  exact if_pos (by simp [hi, h1, h2, h3])

theorem setClock_illegal {i mhz : Nat} (d : Device) (h : 128 ≤ i ∨ mhz < 1200 ∨ 3000 < mhz ∨ mhz % 100 ≠ 0) : setClock i mhz d = d := by
  refine if_neg fun hc => ?_
  simp only [Bool.and_eq_true, decide_eq_true_eq] at hc
  omega

theorem clockOf_setClock {i mhz : Nat} (d : Device) (hi : i < 128) (h : LegalClock mhz) (j : Nat) :
    clockOf (setClock i mhz d) j = if j = i then mhz else clockOf d j := by
  rw [setClock_legal d hi h]
  unfold clockOf islandAt
  dsimp only
  rw [SMap.get_set]
  split_ifs <;> rfl

/-- Every island of a list of distinct ones slowed to 1.5 GHz. -/
theorem clockOf_slowed {l : List Nat} (hl : ∀ i ∈ l, i < 128) (hn : l.Nodup) {d : Device} (h : ∀ i < 128, 1200 ≤ clockOf d i ∧ clockOf d i % 100 = 0)
    (j : Nat) : clockOf (l.foldl (fun d i => setClock i (min 1500 (clockOf d i)) d) d) j = if j ∈ l then min 1500 (clockOf d j) else clockOf d j := by
  induction l generalizing d with
  | nil => simp
  | cons i l ih =>
    have hi := hl i List.mem_cons_self
    obtain ⟨hmin, hstep⟩ := h i hi
    have hlegal : LegalClock (min 1500 (clockOf d i)) := by
      unfold LegalClock
      omega
    have hset := clockOf_setClock d hi hlegal
    obtain ⟨hil, hnl⟩ := List.nodup_cons.mp hn
    rw [List.foldl_cons, ih (fun k hk => hl k (.tail _ hk)) hnl (fun k hk => ?_), hset]
    · by_cases hji : j = i
      · subst hji
        rw [if_neg hil, if_pos rfl, if_pos List.mem_cons_self]
      · rw [if_neg hji]
        simp [hji]
    · rw [hset]
      split_ifs
      · exact ⟨hlegal.1, hlegal.2.2⟩
      · exact h k hk

/-! ## Starts (R374, R396 to R398) -/

theorem failStart_spec (warm : Bool) (s : State) : (failStart warm s).dev.boot.ready = false ∧
    (failStart warm s).dev.boot.fails = min (s.dev.boot.fails + 1) 4 ∧ (failStart warm s).dev.boot.mreg = [] := ⟨rfl, rfl, rfl⟩

/-- A start whose checks fail. -/
theorem startDevice_fails {a : EvArg} {s : State} (h : a.ok = false ∨ a.num < s.dev.boot.rollback.toNat) : ∃ warm,
    startDevice a s = failStart warm { s with dev.boot := { s.dev.boot with starts := s.dev.boot.starts + 1, powered := true } } := by
  refine ⟨_, if_pos ?_⟩
  obtain h | h := h <;> simp [h]

/-- The registers of a start measured one after the other. -/
theorem mreg_measured {l : List Nat} (hn : l.Nodup) (n : Nat) {b : Boot} (hb : ∀ i ∈ l, SMap.get 0 b.mreg i = 0) (j : Nat) :
    SMap.get 0 (l.foldl (fun b i => extendReg i (Config.digest i n) b) b).mreg j = if j ∈ l then extend 0 (Config.digest j n) else SMap.get 0 b.mreg j := by
  induction l generalizing b with
  | nil => simp
  | cons i l ih =>
    obtain ⟨hil, hnl⟩ := List.nodup_cons.mp hn
    have hreg : ∀ k, SMap.get 0 (extendReg i (Config.digest i n) b).mreg k = if k = i then extend 0 (Config.digest i n) else SMap.get 0 b.mreg k := fun k => by
      rw [extendReg_eq]
      dsimp only
      rw [SMap.get_set, hb i List.mem_cons_self]
    rw [List.foldl_cons, ih hnl (fun k hk => ?_), hreg]
    · by_cases hji : j = i
      · subst hji
        rw [if_neg hil, if_pos rfl, if_pos List.mem_cons_self]
      · rw [if_neg hji]
        simp [hji]
    · rw [hreg, if_neg (fun hki => hil (by rwa [← hki])), hb k (.tail _ hk)]

theorem measureAll_frame (n : Nat) (b : Boot) : measureAll n b = { b with mreg := (measureAll n b).mreg } := by
  have h : ∀ (l : List Nat) (b : Boot), l.foldl (fun b i => extendReg i (Config.digest i n) b) b =
      { b with mreg := (l.foldl (fun b i => extendReg i (Config.digest i n) b) b).mreg } := fun l => by
    induction l with
    | nil => exact fun b => rfl
    | cons i l ih =>
      intro b
      rw [List.foldl_cons, ih, extendReg_eq]
  exact h _ b

/-- The measurement registers of a start that begins with none extended. -/
theorem measureAll_mreg {b : Boot} (hb : b.mreg = []) (n i : Nat) :
    SMap.get 0 (measureAll n b).mreg i = if i < 6 then extend 0 (Config.digest i n) else 0 := by
  have hzero : ∀ j, SMap.get 0 b.mreg j = 0 := fun j => by rw [hb]; rfl
  unfold measureAll
  rw [mreg_measured (upFrom_nodup 0 6) n (fun j _ => hzero j), hzero]
  exact if_congr mem_upFrom_zero rfl rfl

/-- The state of a start whose checks pass, with what is measured. -/
def started (kind : Nat) (a : EvArg) (b : Boot) (s : State) : State :=
  let t := resetState (kind = 1) s
  { t with dev := raiseVector 2 (configure a.nats b t.dev) }

theorem startDevice_passes {a : EvArg} {s : State} (hok : a.ok = true) (hroll : s.dev.boot.rollback.toNat ≤ a.num) : ∃ kind b0,
    startDevice a s = started kind a (measureAll (s.dev.boot.starts + 1) b0)
      { s with dev.boot := { s.dev.boot with starts := s.dev.boot.starts + 1, powered := true } } ∧
      b0.ready = true ∧ b0.fails = 0 ∧ b0.badacc = false ∧ b0.mreg = [] := by
  refine ⟨_, _, (if_neg ?_).trans rfl, rfl, rfl, rfl, rfl⟩
  simp [hok, hroll]

/-- A start whose checks pass (R397). -/
theorem startDevice_starts {a : EvArg} {s : State} (hok : a.ok = true) (hroll : s.dev.boot.rollback.toNat ≤ a.num) :
    let t := startDevice a s
    t.dev.boot.ready = true ∧ t.dev.boot.fails = 0 ∧ t.dev.boot.badacc = false ∧ t.dev.devtime = 0 ∧ t.dev.fab.live = 0xFF ∧ t.dev.slots = [] ∧
      t.thr = Thread.absent ∧ SMap.get false t.dev.msix 2 = true ∧
      ∀ i, i < 16 → SMap.get 0 t.dev.boot.mreg i = if i < 6 then extend 0 (Config.digest i (s.dev.boot.starts + 1)) else 0 := by
  obtain ⟨kind, b0, hrun, hready, hfails, hbad, hmreg⟩ := startDevice_passes hok hroll
  intro t
  have hregs := measureAll_mreg hmreg (s.dev.boot.starts + 1)
  have hframe := measureAll_frame (s.dev.boot.starts + 1) b0
  generalize measureAll (s.dev.boot.starts + 1) b0 = b at hrun hregs hframe
  rw [show t = _ from hrun]
  refine ⟨?_, ?_, ?_, rfl, rfl, rfl, rfl, raised_vector .., fun i _ => hregs i⟩
  · show b.ready = true
    rw [hframe, hready]
  · show b.fails = 0
    rw [hframe, hfails]
  · show b.badacc = false
    rw [hframe, hbad]

/-! ## The management responder (R399, R400) -/

/-- A negotiation step's answer noted, with the state it leads to. -/
def spdmAnswered (bs : List Byte) (next : Nat) (s : State) : State :=
  { s with dev := { answer bs s.dev with mgmt.state := SMap.set 0 s.dev.mgmt.state s.dev.arg.idx next, fresh := s.dev.fresh + 1 } }

theorem negotiate_early {need next : Nat} {bs : Device → List Byte} {s : State} (hw : portWorks s.dev s.dev.arg.idx = true)
    (h : SMap.get 0 s.dev.mgmt.state s.dev.arg.idx < need) : negotiate need next bs s = { s with dev := answer [0x7F] s.dev } := by
  unfold negotiate
  dsimp only
  rw [if_neg (by simp [hw])]
  exact if_pos h

theorem negotiate_answers {need next : Nat} {bs : Device → List Byte} {s : State} (hw : portWorks s.dev s.dev.arg.idx = true)
    (h : need ≤ SMap.get 0 s.dev.mgmt.state s.dev.arg.idx) : negotiate need next bs s = spdmAnswered (bs s.dev) next s := by
  unfold negotiate
  dsimp only
  rw [if_neg (by simp [hw])]
  exact if_neg (Nat.not_lt.mpr h)

/-- A negotiation step: an error out of turn, an answer in its turn. -/
theorem negotiate_run {need next : Nat} {bs : Device → List Byte} {s : State} (hw : portWorks s.dev s.dev.arg.idx = true) :
    (Host.Outcome.next (negotiate need next bs s) : Host.Outcome State Fault Refusal) =
      if SMap.get 0 s.dev.mgmt.state s.dev.arg.idx < need then .next { s with dev := answer [0x7F] s.dev } else .next (spdmAnswered (bs s.dev) next s) := by
  split
  next h => rw [negotiate_early hw h]
  next h => rw [negotiate_answers hw (Nat.not_lt.mp h)]

theorem measurementBlock_eq (k : Nat) (d : Device) : measurementBlock k d = leBytes 1 k ++ [1] ++ leBytes 2 35 ++ leBytes 1 (valueType (k - 1)) ++
    leBytes 2 32 ++ leBytes 32 (SMap.get 0 d.boot.mreg (k - 1)).toNat := by
  unfold measurementBlock bytes32
  rfl

/-- Index 1 to 16 asks for one block. -/
theorem measurementBlocks_one {i : Nat} (h1 : 1 ≤ i) (h16 : i ≤ 16) (d : Device) : measurementBlocks i d = measurementBlock i d := by
  have hone : ∀ k < 17, 1 ≤ k → (upFrom 1 16).filter (fun j => j = k || k = 255) = [k] := by decide
  unfold measurementBlocks
  rw [hone i (by omega) h1, List.flatMap_singleton]

theorem measurementBlocks_all (d : Device) : measurementBlocks 255 d = (upFrom 1 16).flatMap (fun k => measurementBlock k d) := by
  unfold measurementBlocks
  rw [show (upFrom 1 16).filter (fun k => k = 255 || 255 = 255) = upFrom 1 16 by decide]

theorem raised_clock (v : Nat) (d : Device) (i : Nat) : clockOf (raiseVector v d) i = clockOf d i := rfl

theorem execCurrentTrip_spec (s : State) : ∃ d', execCurrentTrip s = .next { s with dev := d' } ∧ SMap.get false d'.msix 3 = true ∧
    ((∀ i, i < 128 → 1200 ≤ clockOf s.dev i ∧ clockOf s.dev i % 100 = 0) → ∀ i, i < 128 → clockOf d' i = min 1500 (clockOf s.dev i)) := by
  refine ⟨_, rfl, raised_vector .., fun h i hi => ?_⟩
  rw [raised_clock, clockOf_slowed (fun i hi => mem_upFrom_zero.mp hi) (upFrom_nodup _ _) h i, if_pos (mem_upFrom_zero.mpr hi)]

theorem execThermalShutdown_spec (s : State) : ∃ t, execThermalShutdown s = .next t ∧ t.dev.boot.powered = false ∧
    (s.dev.launches = [] → SMap.get false t.dev.msix 3 = true) := by
  let d := raiseVector 3 { park s with boot.powered := false }
  refine ⟨unpark (endEverything d) s.cur.1 s.cur.2, rfl, ?_, fun hl => ?_⟩
  · exact congrArg Boot.powered (endEverything_boot d)
  · have hend : (endEverything d).msix = d.msix := by
      unfold endEverything
      rw [show ({ d with sysCuts := d.sysCuts.map (fun p => (p.1, { p.2 with waits := [], pending := none })) } : Device).launches = [] from hl]
      rfl
    exact (congrArg (SMap.get false · 3) hend).trans (raised_vector ..)

theorem execMctpControl_sets {s : State} (h : s.dev.arg.num = 1) : execMctpControl s = .next { s with
    dev.mgmt.eid := SMap.set 0 s.dev.mgmt.eid 1 (s.dev.arg.idx % 256), dev.mgmt.answer := [BitVec.ofNat 8 (s.dev.arg.idx % 256)] } := by
  unfold execMctpControl
  dsimp only
  rw [if_pos h, if_pos (by simp [h]), SMap.get_set_self]
  rfl

theorem execMctpControl_asks {s : State} (h : s.dev.arg.num = 2) :
    execMctpControl s = .next { s with dev.mgmt.answer := leBytes 1 (SMap.get 0 s.dev.mgmt.eid 1) } := by
  have h1 : ¬s.dev.arg.num = 1 := by omega
  have h2 : (decide (s.dev.arg.num = 1) || decide (s.dev.arg.num = 2)) = true := by simp [h]
  unfold execMctpControl
  simp only [if_neg h1, if_pos h2]
  rfl

theorem execVendorStatusRead_spec (s : State) : ∃ d', execVendorStatusRead s = .next { s with dev := d' } ∧
    d'.mgmt.answer.take 8 = leBytes 8 (identRead s.dev.boot 8) ∧ d'.fresh = s.dev.fresh + 1 := by
  refine ⟨_, rfl, ?_, rfl⟩
  exact List.take_left' (length_leBytes ..)

/-! ## The obligation -/

/-- Settles O60: starts, clocks, power and the responder, each by its own rule; every island and every measurement register is reached once. -/
theorem bootEvents : Obligations.BootEvents := by
  intro s d a dev p st works
  have hworks : works → portWorks s.dev s.dev.arg.idx = true := fun h => by
    unfold portWorks
    obtain h | ⟨h0, hl, hr⟩ := h
    · simp [show s.dev.arg.idx = 1 from h]
    · simp [show s.dev.arg.idx = 0 from h0, show s.dev.linkMods ≠ 0 from hl, show s.dev.boot.ready = true from hr]
  refine ⟨rfl, fun hok hroll => ⟨_, rfl, startDevice_starts hok hroll⟩, fun h => ?_, fun h => ?_, fun h => congrArg _ (if_pos h), execCurrentTrip_spec s,
    fun hp h1 hal h2 => ?_, fun h => ?_, execThermalShutdown_spec s, fun hw => ?_, fun h => ?_, fun h => ?_, ?_⟩
  · obtain ⟨warm, hrun⟩ := startDevice_fails h
    exact ⟨_, congrArg Host.Outcome.next hrun, failStart_spec warm _⟩
  · obtain ⟨h1, h2, -⟩ := failStart_spec a.ok2 s
    exact ⟨_, congrArg Host.Outcome.next (if_neg (by simp [show s.dev.boot.ready = false from h])), h1, h2⟩
  · intro set
    have hset : setClock s.dev.arg.idx s.dev.arg.num s.dev = set := setClock_legal _ hp ⟨h1, h2, hal⟩
    refine ⟨fun hle => ?_, fun hlt => ?_, ?_⟩
    · rw [← hset]
      exact congrArg (fun e => Host.Outcome.next ({ s with dev := raiseVector 3 e } : State)) (if_pos hle)
    · exact congrArg (fun e => Host.Outcome.next ({ s with dev := raiseVector 3 e } : State)) (if_neg (Nat.not_le.mpr hlt))
    · rw [← hset]
      rfl
  · exact congrArg (fun e => Host.Outcome.next ({ s with dev := e } : State)) (setClock_illegal s.dev h)
  · have hport := hworks hw
    intro say refuse open'
    refine ⟨?_, ?_, ?_, ?_, ?_, ?_, fun hst => ?_, ?_⟩
    · exact (negotiate_run hport).trans (if_neg (Nat.not_lt_zero _))
    · exact negotiate_run hport
    · exact negotiate_run hport
    · exact negotiate_run hport
    · exact negotiate_run hport
    · exact negotiate_run hport
    · exact (negotiate_run hport).trans (if_pos hst)
    · intro block
      have hblock : ∀ k, measurementBlock k d = block k := fun k => measurementBlock_eq k d
      refine ⟨fun hst h1 h16 => ?_, fun hst h => ?_⟩
      · refine (negotiate_run hport).trans ((if_neg (Nat.not_lt.mpr hst)).trans (congrArg (fun bs => say (bs ++ open' 7856) 3) ?_))
        exact (measurementBlocks_one h1 h16 d).trans (hblock _)
      · refine (negotiate_run hport).trans ((if_neg (Nat.not_lt.mpr hst)).trans (congrArg (fun bs => say (bs ++ open' 7856) 3) ?_))
        rw [show s.dev.arg.num = 255 from h, measurementBlocks_all]
        exact congrArg (upFrom 1 16).flatMap (funext hblock)
  · exact execMctpControl_sets h
  · exact execMctpControl_asks h
  · exact execVendorStatusRead_spec s

end Sys2Proof.Machine
end

section
/-! PROOFS. Ports, the requests of other devices and the segments of their trains (O59): what each leaves in the fabric and in memory. -/

namespace Sys2Proof.Machine

/-! ## Ports (R375, R384) -/

theorem portReg_lt (f : Fabric) (k : Nat) : portReg f k < 2 ^ 64 := (SMap.get 0 f.ports k).isLt

theorem portReg_setPort {k v : Nat} (f : Fabric) (hv : v < 2 ^ 64) : portReg (setPort k v f) k = v := by
  unfold portReg setPort
  rw [SMap.get_set_self]
  exact (BitVec.toNat_ofNat ..).trans (Nat.mod_eq_of_lt hv)

theorem testBit_setBits_zero {lo : Nat} (n len v : Nat) (hlo : 1 ≤ lo) : (setBits n lo len v).testBit 0 = n.testBit 0 := by
  have h := bits_setBits_apart n lo len v 0 1 (.inl hlo)
  rw [bits_div, bits_div, Nat.pow_zero, Nat.div_one, Nat.div_one, Nat.pow_one] at h
  rw [Nat.testBit_zero, Nat.testBit_zero, h]

theorem testBit_cleared (n : Nat) : (setBits n 0 1 0).testBit 0 = false := by
  have h := bits_setBits_same n 0 1 0
  rw [bits_div, Nat.pow_zero, Nat.div_one, Nat.pow_one] at h
  rw [Nat.testBit_zero, h]
  rfl

theorem bumpField_lt {v lo n : Nat} (hv : v < 2 ^ 64) (h : lo + n ≤ 64) : bumpField v lo n < 2 ^ 64 := setBits_lt hv h

/-- A field raised by one reads one more, up to its largest value. -/
theorem bits_bumpField (v lo n : Nat) : bumpField v lo n / 2 ^ lo % 2 ^ n = min (v / 2 ^ lo % 2 ^ n + 1) (2 ^ n - 1) := by
  have hpos : 0 < 2 ^ n := by positivity
  have h := bits_setBits_same v lo n (min (bits v lo n + 1) (2 ^ n - 1))
  rw [bits_div, Nat.mod_eq_of_lt (by omega : min (bits v lo n + 1) (2 ^ n - 1) < 2 ^ n), bits_div] at h
  unfold bumpField
  rw [bits_div v]
  exact h

theorem receiveFlit_up {k : Nat} {d : Device} (hk : k < 32) (hup : (portReg d.fab k).testBit 0 = true) (good : Bool) :
    receiveFlit k good d = if good then { d with fab.crcFails := SMap.set 0 d.fab.crcFails k 0 }
      else if 8 ≤ SMap.get 0 d.fab.crcFails k then portDown k d
      else { d with
        fab := setPort k (bumpField (portReg d.fab k) 16 32) { d.fab with crcFails := SMap.set 0 d.fab.crcFails k (SMap.get 0 d.fab.crcFails k + 1) } } := by
  have hno : ¬ (decide (32 ≤ k) || !bit (portReg d.fab k) 0) = true := by
    rw [show bit (portReg d.fab k) 0 = true from hup, decide_eq_false (by omega)]
    exact Bool.false_ne_true
  unfold receiveFlit
  rw [if_neg hno]

/-- A plane declared dead leaves every port as it was. -/
theorem declarePlane_ports (pod p : Nat) (d : Device) : (declarePlane pod p d).fab.ports = d.fab.ports := by
  have hdecl : ∀ c : Bool, (if c then d else { d with fab.declared := (pod, p) :: d.fab.declared }).fab.ports = d.fab.ports := fun c => by
    cases c <;> rfl
  rw [← hdecl (d.fab.declared.contains (pod, p))]
  unfold declarePlane
  dsimp only
  split
  · split
    · rfl
    · rfl
  · rfl

theorem portDown_down (k : Nat) (d : Device) :
    (portReg (portDown k d).fab k).testBit 0 = false ∧ SMap.get false (portDown k d).msix 1 = true := by
  have hport : ∀ (c : Bool) (e : Device), portReg (if c then declarePlane d.boot.pod (k / 4) e else e).fab k = portReg e.fab k := fun c e => by
    cases c
    · rfl
    · exact congrArg (fun m => (SMap.get 0 m k).toNat) (declarePlane_ports ..)
  refine ⟨?_, raised_vector ..⟩
  refine (congrArg (fun n => Nat.testBit n 0) ((hport _ _).trans (portReg_setPort _ ?_))).trans (testBit_cleared _)
  exact setBits_lt (bumpField_lt (portReg_lt ..) (by omega)) (by omega)

theorem portUp_up {k : Nat} {s : State} (hdown : (portReg s.dev.fab k).testBit 0 = false) :
    (portReg (setPort k (portReg s.dev.fab k + 1) s.dev.fab) k).testBit 0 = true := by
  have heven : portReg s.dev.fab k % 2 = 0 := by
    rw [Nat.testBit_zero] at hdown
    have := of_decide_eq_false hdown
    omega
  have hlt := portReg_lt s.dev.fab k
  rw [portReg_setPort _ (by omega), Nat.testBit_zero]
  exact decide_eq_true (by omega)

/-! ## Bytes performed for another device -/

theorem quietDev_performHome (wr : Writer) (op : Nat) (bs : List (Nat × Byte × Byte)) {d : Device} (hr : d.retire = []) (hw : d.mwatch = []) :
    QuietDev d (performHome wr op bs d) := by
  rw [performHome_applied hr hw]
  exact (quietDev_clearPoison _ _).trans (quietDev_applyBytes bs ((clearPoison_mem _ _).2.1.trans hr))

/-- Bytes performed from a place up are the number read there. -/
theorem readNat_performHome {wr : Writer} {op at' : Nat} {bs : List Byte} {d : Device} (hr : d.retire = []) (hw : d.mwatch = []) :
    readNat (performHome wr op (wholeBytes (upFrom at' bs.length) bs) d) at' bs.length = leNat bs := by
  have hin := (readByte_performHome (wr := wr) (op := op) (at' := at') (bs := bs) hr hw).1
  refine congrArg leNat (List.ext_getElem? fun j => ?_)
  unfold readBytes
  rw [List.getElem?_map]
  by_cases hj : j < bs.length
  · rw [getElem?_upFrom _ hj, List.getElem?_eq_getElem hj]
    exact congrArg some (hin j _ (List.getElem?_eq_getElem hj))
  · rw [List.getElem?_eq_none (Nat.not_lt.mp hj), List.getElem?_eq_none (by rw [length_upFrom]; exact Nat.not_lt.mp hj)]
    rfl

theorem readNat_performNat {wr : Writer} {op at' n v : Nat} {d : Device} (hr : d.retire = []) (hw : d.mwatch = []) :
    readNat (performHome wr op (wholeBytes (upFrom at' n) (leBytes n v)) d) at' n = v % 2 ^ (8 * n) := by
  have h := readNat_performHome (wr := wr) (op := op) (at' := at') (bs := leBytes n v) hr hw
  rwa [length_leBytes, leNat_leBytes] at h

/-- Bytes under no mask of their own are whole bytes. -/
theorem unmasked_whole (pa n : Nat) (bs : List Byte) :
    ((upFrom 0 n).zip bs).map (fun p => (pa + p.1, BitVec.ofNat 8 (([] : List Nat).getD p.1 0xFF), p.2)) = wholeBytes (upFrom pa n) bs := by
  refine List.ext_getElem? fun j => ?_
  unfold wholeBytes
  rw [List.getElem?_map, List.getElem?_map]
  by_cases hj : j < n ∧ j < bs.length
  · obtain ⟨hn, hb⟩ := hj
    have hzip : ∀ lo, ((upFrom lo n).zip bs)[j]? = some (lo + j, bs[j]) := fun lo =>
      List.getElem?_zip_eq_some.mpr ⟨getElem?_upFrom lo hn, List.getElem?_eq_getElem hb⟩
    rw [hzip, hzip, Nat.zero_add]
    rfl
  · have hnone : ∀ lo, ((upFrom lo n).zip bs)[j]? = none := fun lo =>
      List.getElem?_eq_none (by rw [List.length_zip, length_upFrom]; omega)
    rw [hnone, hnone]
    rfl

/-! ## The requests of other devices (R380) -/

theorem receiveRequest_first {a : EvArg} {d : Device} (h : applied a.idx (windowOf d a.num) = false) :
    receiveRequest a d = if a.ok = true ∨ 4096 ≤ beyond a.idx (windowOf d a.num) then reply [0xFF] d else applyRequest a d := by
  unfold receiveRequest
  dsimp only
  rw [h, if_neg Bool.false_ne_true]
  refine if_congr ?_ rfl rfl
  rw [Bool.or_eq_true, decide_eq_true_iff]

theorem receiveRequest_applies {a : EvArg} {d : Device} (h : applied a.idx (windowOf d a.num) = false) (hok : a.ok = false)
    (hb : beyond a.idx (windowOf d a.num) < 4096) : receiveRequest a d = applyRequest a d := by
  rw [receiveRequest_first h, if_neg]
  rintro (h | h)
  · exact absurd h (hok ▸ Bool.false_ne_true)
  · omega

theorem receiveRequest_copy {a : EvArg} {d : Device} {c : Word × Nat} (h : applied a.idx (windowOf d a.num) = true)
    (hc : SMap.find (windowOf d a.num).cache a.idx = some c) : receiveRequest a d = reply (0 :: leBytes a.slot c.1.toNat) d := by
  unfold receiveRequest repeatRequest
  dsimp only
  rw [h, if_pos rfl, hc]

theorem windowOf_setWindow (src : Nat) (w : Window) (d : Device) : windowOf (setWindow src w d) src = w := SMap.get_set_self Window.empty d.fab.windows src w

/-- An answer and a window leave every byte as it is. -/
theorem readByte_reply (bs : List Byte) (src : Nat) (w : Window) (d : Device) (k : Nat) : readByte (reply bs (setWindow src w d)) k = readByte d k := rfl

theorem readNat_reply (bs : List Byte) (src : Nat) (w : Window) (d : Device) (k n : Nat) : readNat (reply bs (setWindow src w d)) k n = readNat d k n := rfl

section
variable {a : EvArg} {d : Device}

theorem requestNew_scatter (hl : a.len = 4) (old : Nat) : requestNew a old = some (scatAdd a.role old (a.val2.toNat % 2 ^ fmtEw a.role)) := by
  unfold requestNew
  rw [hl]
  rfl

theorem requestNew_add (hl : a.len = 2) (hrole : a.role = 0) (hslot : a.slot = 8) (old : Nat) :
    requestNew a old = some ((old + a.val2.toNat) % 2 ^ 64) := by
  have hx : a.val2.toNat % 2 ^ (8 * 8) = a.val2.toNat := Nat.mod_eq_of_lt a.val2.isLt
  unfold requestNew atomicOp
  rw [hl, hrole, hslot]
  show some ((old + a.val2.toNat % 2 ^ (8 * 8)) % 2 ^ (8 * 8)) = _
  rw [hx]

theorem applyRequest_load (hl : a.len = 1) (hloc : ∀ k ∈ upFrom a.val.toNat a.slot, isLocalDev d k = true) :
    applyRequest a d = reply (if (upFrom a.val.toNat a.slot).any (poisoned d) then [0x30] else 0 :: readBytes d a.val.toNat a.slot)
      (setWindow a.num (markSeq a.idx (windowOf d a.num)) d) := by
  unfold applyRequest
  simp only [hl, Nat.one_ne_zero, if_false, List.all_eq_true.mpr hloc, Bool.not_true, Bool.false_eq_true]
  split <;> rfl

theorem applyRequest_store (hl : a.len = 0) (hloc : ∀ k ∈ upFrom a.val.toNat a.bytes.length, isLocalDev d k = true) (hm : a.nats = []) :
    applyRequest a d = reply [0] (setWindow a.num (markSeq a.idx (windowOf d a.num))
      (performHome (otherDevice a.num) 0 (wholeBytes (upFrom a.val.toNat a.bytes.length) a.bytes) d)) := by
  unfold applyRequest
  simp only [hl, if_true, List.all_eq_true.mpr hloc, Bool.not_true, Bool.false_eq_true, if_false]
  rw [hm, unmasked_whole]

/-- An update that may be made: its answer is the old value, kept for the request's copies. -/
theorem applyRequest_update {v : Nat} (hl : 2 ≤ a.len) (hloc : ∀ k ∈ upFrom a.val.toNat a.slot, isLocalDev d k = true)
    (hp : a.len ≠ 4 → ∀ k, poisoned d k = false) (hnew : requestNew a (readNat d a.val.toNat a.slot) = some v) :
    applyRequest a d = reply (0 :: leBytes a.slot (readNat d a.val.toNat a.slot)) (setWindow a.num
      (keepAnswer a.idx (w64 (readNat d a.val.toNat a.slot)) d.devtime.toNat (markSeq a.idx (windowOf d a.num)))
      (performHome (otherDevice a.num) (if a.len = 4 then 2 else 1) (wholeBytes (upFrom a.val.toNat a.slot) (leBytes a.slot v)) d)) := by
  have hpass : ¬ (a.len != 4 && (upFrom a.val.toNat a.slot).any (poisoned d)) = true := by
    rw [Bool.and_eq_true, bne_iff_ne, List.any_eq_true]
    rintro ⟨h4, k, -, hk⟩
    exact absurd hk (hp h4 k ▸ Bool.false_ne_true)
  unfold applyRequest
  have h0 : a.len ≠ 0 := by omega
  have h1 : a.len ≠ 1 := by omega
  simp only [h0, if_false, List.all_eq_true.mpr hloc, Bool.not_true, Bool.false_eq_true]
  split
  · next h => exact absurd h hpass
  · rw [hnew]

end

/-- The answer to an update is kept under its number. -/
theorem find_keepAnswer (bs : List Byte) (src q now : Nat) (v : Word) (w : Window) (d : Device) :
    SMap.find (windowOf (reply bs (setWindow src (keepAnswer q v now w) d)) src).cache q = some (v, now) := by
  rw [show windowOf (reply bs (setWindow src (keepAnswer q v now w) d)) src = _ from windowOf_setWindow src (keepAnswer q v now w) d]
  exact (SMap.find_put ..).trans (if_pos rfl)

/-! ## The segments of trains (R273) -/

/-- The elements of a segment performed one after the other. -/
def carryElems (src : Nat) (l : List (Nat × List Byte)) (d : Device) : Device :=
  l.foldl (fun d x => performHome (otherDevice src) 0 (wholeBytes (upFrom x.1 x.2.length) x.2) d) d

/-- The source's window after a segment of a train: one more segment and its elements counted. -/
def countSegment (src : Nat) (g : Segment) (d : Device) : Window :=
  let was := SMap.get (0, 0) (windowOf d src).segs g.train
  { windowOf d src with segs := SMap.set (0, 0) (windowOf d src).segs g.train (was.1 + 1, was.2 + g.elems.length) }

/-- The byte that the elements leave at a place: the last one written there, or the one that stood there. -/
def lastOf (l : List (Nat × List Byte)) (k : Nat) (b : Byte) : Byte :=
  (((l.flatMap (fun x => (upFrom x.1 x.2.length).zip x.2)).reverse.find? (fun x => x.1 = k)).map Prod.snd).getD b

theorem lastOf_cons (x : Nat × List Byte) (l : List (Nat × List Byte)) (k : Nat) (b : Byte) :
    lastOf (x :: l) k b = lastOf l k (lastOf [x] k b) := by
  unfold lastOf
  rw [List.flatMap_cons, List.reverse_append, List.find?_append, List.flatMap_singleton]
  cases (l.flatMap (fun x => (upFrom x.1 x.2.length).zip x.2)).reverse.find? (fun x => x.1 = k) <;> rfl

theorem lastOf_outside {l : List (Nat × List Byte)} {k : Nat} (b : Byte)
    (h : ∀ x ∈ l.flatMap (fun x => (upFrom x.1 x.2.length).zip x.2), x.1 ≠ k) : lastOf l k b = b := by
  unfold lastOf
  rw [List.find?_eq_none.mpr fun x hx => by simpa using h x (List.mem_reverse.mp hx)]
  rfl

/-- An element performed leaves its bytes. -/
theorem readByte_performElem {wr : Writer} {op : Nat} {x : Nat × List Byte} {d : Device} (hr : d.retire = []) (hw : d.mwatch = []) (k : Nat) :
    readByte (performHome wr op (wholeBytes (upFrom x.1 x.2.length) x.2) d) k = lastOf [x] k (readByte d k) := by
  obtain ⟨hin, hout⟩ := readByte_performHome (wr := wr) (op := op) (at' := x.1) (bs := x.2) hr hw
  unfold lastOf
  rw [List.flatMap_singleton]
  cases hf : ((upFrom x.1 x.2.length).zip x.2).reverse.find? (fun y => y.1 = k) with
  | some y =>
    have hk : y.1 = k := by simpa using List.find?_some hf
    obtain ⟨j, hj⟩ := List.getElem?_of_mem (List.mem_reverse.mp (List.mem_of_find?_eq_some hf))
    obtain ⟨hup, hb⟩ := List.getElem?_zip_eq_some.mp hj
    have hlt : j < x.2.length := (List.getElem?_eq_some_iff.mp hb).1
    rw [getElem?_upFrom _ hlt] at hup
    rw [← hk, ← Option.some.inj hup]
    exact hin j y.2 hb
  | none =>
    refine hout k ?_
    by_contra hrange
    have hlt : k - x.1 < x.2.length := by omega
    have hmem : (k, x.2[k - x.1]) ∈ (upFrom x.1 x.2.length).zip x.2 := by
      refine List.mem_of_getElem? (i := k - x.1) (List.getElem?_zip_eq_some.mpr ⟨?_, List.getElem?_eq_getElem hlt⟩)
      rw [getElem?_upFrom _ hlt]
      exact congrArg some (by omega)
    exact absurd (List.find?_eq_none.mp hf _ (List.mem_reverse.mpr hmem)) (by simp)

theorem carryElems_spec (src : Nat) (l : List (Nat × List Byte)) {d : Device} (hr : d.retire = []) (hw : d.mwatch = []) :
    QuietDev d (carryElems src l d) ∧ ∀ k, readByte (carryElems src l d) k = lastOf l k (readByte d k) := by
  induction l generalizing d with
  | nil => exact ⟨rfl, fun _ => rfl⟩
  | cons x l ih =>
    have hq := quietDev_performHome (otherDevice src) 0 (wholeBytes (upFrom x.1 x.2.length) x.2) hr hw
    obtain ⟨hquiet, hread⟩ := ih ((congrArg Device.retire hq).trans hr) ((congrArg Device.mwatch hq).trans hw)
    refine ⟨hq.trans hquiet, fun k => ?_⟩
    rw [lastOf_cons, ← readByte_performElem (wr := otherDevice src) (op := 0) hr hw]
    exact hread k

section
variable {src : Nat} {g : Segment} {d : Device}

theorem applySegment_plain (h : ∀ l, ¬ (g.last = true ∧ g.tail = some l)) :
    applySegment src g d = setWindow src (countSegment src g d) (carryElems src g.elems d) := by
  unfold applySegment
  dsimp only
  split
  · next l hl ht => exact absurd ⟨hl, ht⟩ (h l)
  · rfl

theorem applySegment_tail {l : Nat} (hl : g.last = true) (ht : g.tail = some l) :
    applySegment src g d = setWindow src (countSegment src g d) (performHome (otherDevice src) 1
      (wholeBytes (upFrom (localKey (carryElems src g.elems d) l) 8) (leBytes 8 (readNat (carryElems src g.elems d) (localKey (carryElems src g.elems d) l) 8
        + ((SMap.get (0, 0) (windowOf d src).segs g.train).2 + g.elems.length)))) (carryElems src g.elems d)) := by
  unfold applySegment
  dsimp only
  rw [hl, ht]
  rfl

theorem segs_applySegment : SMap.get (0, 0) (windowOf (applySegment src g d) src).segs g.train =
    ((SMap.get (0, 0) (windowOf d src).segs g.train).1 + 1, (SMap.get (0, 0) (windowOf d src).segs g.train).2 + g.elems.length) := by
  have hset : ∀ e, SMap.get (0, 0) (windowOf (setWindow src (countSegment src g d) e) src).segs g.train =
      ((SMap.get (0, 0) (windowOf d src).segs g.train).1 + 1, (SMap.get (0, 0) (windowOf d src).segs g.train).2 + g.elems.length) := fun e => by
    rw [windowOf_setWindow]
    unfold countSegment
    dsimp only
    rw [SMap.get_set_self]
  exact hset _

/-- A segment that is not the last of a train with a TAIL leaves its elements. -/
theorem readByte_applySegment (h : ∀ l, ¬ (g.last = true ∧ g.tail = some l)) (hr : d.retire = []) (hw : d.mwatch = []) (k : Nat) :
    readByte (applySegment src g d) k = lastOf g.elems k (readByte d k) := by
  rw [applySegment_plain h]
  exact (carryElems_spec src g.elems hr hw).2 k

/-- The last segment of a train with a TAIL leaves its elements and adds to the counter. -/
theorem applySegment_counted {l : Nat} (hl : g.last = true) (ht : g.tail = some l) (hr : d.retire = []) (hw : d.mwatch = []) :
    (∀ k, (k < localKey d l ∨ localKey d l + 8 ≤ k) → readByte (applySegment src g d) k = lastOf g.elems k (readByte d k)) ∧
    ((∀ x ∈ g.elems.flatMap (fun x => (upFrom x.1 x.2.length).zip x.2), x.1 < localKey d l ∨ localKey d l + 8 ≤ x.1) →
      readNat (applySegment src g d) (localKey d l) 8 =
        (readNat d (localKey d l) 8 + ((SMap.get (0, 0) (windowOf d src).segs g.train).2 + g.elems.length)) % 2 ^ 64) := by
  obtain ⟨hquiet, hread⟩ := carryElems_spec src g.elems hr hw
  have hboot : (carryElems src g.elems d).boot = d.boot := (congrArg Device.boot hquiet).trans rfl
  have hkey : localKey (carryElems src g.elems d) l = localKey d l := congrArg (fun b : Boot => b.devnum * 2 ^ 48 + l) hboot
  have hr' : (carryElems src g.elems d).retire = [] := (congrArg Device.retire hquiet).trans hr
  have hw' : (carryElems src g.elems d).mwatch = [] := (congrArg Device.mwatch hquiet).trans hw
  rw [applySegment_tail hl ht, hkey]
  refine ⟨fun k hk => ?_, fun hapart => ?_⟩
  · have hout := (readByte_performHome (wr := otherDevice src) (op := 1) (at' := localKey d l) (bs := leBytes 8 (readNat (carryElems src g.elems d) (localKey d l) 8
        + ((SMap.get (0, 0) (windowOf d src).segs g.train).2 + g.elems.length))) hr' hw').2 k (by rwa [length_leBytes])
    rw [length_leBytes] at hout
    exact hout.trans (hread k)
  · have hold : readNat (carryElems src g.elems d) (localKey d l) 8 = readNat d (localKey d l) 8 := by
      refine congrArg leNat (List.map_congr_left fun k hk => (hread k).trans (lastOf_outside _ fun x hx hxk => ?_))
      have hrange := mem_upFrom.mp hk
      have := hapart x hx
      omega
    rw [hold]
    exact readNat_performNat hr' hw'

theorem receiveSegment_past (h : g.num < (SMap.get (0, 0) (windowOf d src).segs g.train).1) : receiveSegment src g d = reply [0] d := by
  unfold receiveSegment
  exact if_pos h

theorem receiveSegment_early (h : (SMap.get (0, 0) (windowOf d src).segs g.train).1 < g.num)
    (hnew : ∀ x ∈ (windowOf d src).early, ¬ (x.train = g.train ∧ x.num = g.num)) :
    receiveSegment src g d = setWindow src { windowOf d src with early := (windowOf d src).early ++ [g] } d := by
  unfold receiveSegment
  dsimp only
  rw [if_neg (Nat.not_lt.mpr h.le), if_pos h, if_neg]
  rw [List.any_eq_true]
  rintro ⟨x, hx, hsame⟩
  exact hnew x hx (by simpa using hsame)

theorem receiveSegment_next (h : g.num = (SMap.get (0, 0) (windowOf d src).segs g.train).1) (hearly : (windowOf d src).early = []) :
    receiveSegment src g d = reply [0] (applySegment src g d) := by
  unfold receiveSegment
  dsimp only
  rw [if_neg (by omega), if_neg (by omega), hearly]
  rfl

end

end Sys2Proof.Machine
end

section
/-! PROOFS. The fabric (O59): retries, suspects, the rehash of a pod, and the events of ports and requests put together. -/

namespace Sys2Proof.Machine

/-! ## Retries and suspects (R379, R380, R385) -/

theorem retryReq_only {f : Fabric} {r : RemReq} {dn q now : Nat} (hr : f.reqs = [r]) (hdst : r.dst = dn) (hseq : r.seq = q) (hh : r.held = false)
    (hold : r.sentAt + f.rto.toNat % 2 ^ 16 * 1000 ≤ now) (busy : Bool) :
    retryReq dn q busy now f = if busy = true then { f with reqs := [{ r with sentAt := now, port := portAgain f r }] }
      else if r.tries < f.rto.toNat / 2 ^ 16 % 2 ^ 4 then { f with reqs := [{ r with sentAt := now, port := portAgain f r, tries := r.tries + 1 }] }
      else { f with reqs := [{ r with held := true }], suspects := (r.plane, r.dst) :: f.suspects } := by
  subst hdst hseq
  have hself : (decide (r.dst = r.dst) && decide (r.seq = r.seq)) = true := by simp
  have hfind : f.reqs.find? (fun x => decide (x.dst = r.dst) && decide (x.seq = r.seq)) = some r := by
    rw [hr]
    exact List.find?_cons_of_pos hself
  have hmap : ∀ g, mapReq r.dst r.seq g f = { f with reqs := [g r] } := fun g => by
    unfold mapReq
    rw [hr, List.map_singleton, if_pos hself]
  have hdue : ¬ (r.held || decide (now < r.sentAt + rtoNs f)) = true := by
    unfold rtoNs
    rw [hh, bits_div, Nat.pow_zero, Nat.div_one, decide_eq_false (Nat.not_lt.mpr hold)]
    exact Bool.false_ne_true
  unfold retryReq
  rw [hfind]
  dsimp only
  rw [if_neg hdue, hmap, hmap, hmap]
  unfold rtoTries
  rw [bits_div]

theorem killDevice_other {dn : Nat} {d : Device} (hown : dn ≠ d.boot.devnum) (hlive : dn ∉ d.fab.deadDevs) :
    killDevice dn d = { d with fab := { d.fab with deadDevs := dn :: d.fab.deadDevs, reqs := d.fab.reqs.filter (fun r => r.dst != dn) } } := by
  unfold killDevice
  refine if_neg ?_
  rw [Bool.or_eq_true, decide_eq_true_iff, List.contains_iff_mem]
  exact fun h => h.elim hown hlive

/-- The fabric after a plane is declared dead for a pod. -/
def deadPlane (d : Device) (pod p : Nat) (f : Fabric) : Fabric :=
  { f with
    declared := if f.declared.contains (pod, p) then f.declared else (pod, p) :: f.declared
    reqs := if (SMap.find f.rehash pod).any (fun r => !r.installed) then
        f.reqs.map (fun x => if covered d pod x && x.plane == p then { x with held := true } else x) else f.reqs }

theorem holdOn_one (pod p : Nat) (d : Device) : holdOn pod [p] d =
    { d with fab := { d.fab with reqs := d.fab.reqs.map (fun x => if covered d pod x && x.plane == p then { x with held := true } else x) } } := by
  have hone : ∀ q : Nat, [p].contains q = (q == p) := fun q => by simp [beq_eq_decide]
  unfold holdOn
  simp only [hone]

theorem declarePlane_eq (pod p : Nat) (d : Device) : declarePlane pod p d = { d with fab := deadPlane d pod p d.fab } := by
  have hdecl : (if d.fab.declared.contains (pod, p) then d else { d with fab.declared := (pod, p) :: d.fab.declared }) =
      { d with fab.declared := if d.fab.declared.contains (pod, p) then d.fab.declared else (pod, p) :: d.fab.declared } := by
    split <;> rfl
  unfold declarePlane deadPlane
  rw [hdecl]
  dsimp only
  cases hfind : SMap.find d.fab.rehash pod with
  | none => rfl
  | some r =>
    cases hi : r.installed with
    | true => simp only [Option.any_some, hi, Bool.not_true, Bool.false_eq_true, if_false, if_true]
    | false =>
      simp only [Option.any_some, hi, Bool.not_false, Bool.false_eq_true, if_false, if_true, holdOn_one]
      rfl

theorem probeResult_reported {p dn : Nat} {answers : Bool} {d : Device} : probeResult false p dn false answers d =
    if actingManager d.fab = d.boot.devnum then { d with fab := deadPlane d (podOf d dn) p d.fab } else d := by
  unfold probeResult
  by_cases h : actingManager d.fab = d.boot.devnum
  · rw [if_pos h, ← declarePlane_eq]
    simp [h]
  · rw [if_neg h]
    simp [h]

/-- The fabric without a suspect path. -/
def clearSuspect (p dn : Nat) (f : Fabric) : Fabric := { f with suspects := f.suspects.filter (· != (p, dn)) }

theorem probeResult_own {p dn : Nat} {d : Device} (h : d.fab.suspects.contains (p, dn) = true) (good answers : Bool) :
    probeResult true p dn good answers d = if !good then declarePlane (podOf d dn) p { d with fab := clearSuspect p dn d.fab }
      else if !answers then killDevice dn { d with fab := clearSuspect p dn d.fab }
      else { d with fab := { clearSuspect p dn d.fab with reqs := d.fab.reqs.map (fun r =>
        if true && decide (r.dst = dn) && decide (r.plane = p) then { r with held := false, tries := 0, sentAt := d.devtime.toNat } else r) } } := by
  unfold probeResult
  rw [h]
  rfl

theorem probeResult_dead {p dn : Nat} {d : Device} (h : d.fab.suspects.contains (p, dn) = true) (answers : Bool) :
    probeResult true p dn false answers d = { d with fab := deadPlane d (podOf d dn) p (clearSuspect p dn d.fab) } :=
  (probeResult_own h false answers).trans (declarePlane_eq ..)

theorem probeResult_lost {p dn : Nat} {d : Device} (h : d.fab.suspects.contains (p, dn) = true) (hown : dn ≠ d.boot.devnum) (hlive : dn ∉ d.fab.deadDevs) :
    probeResult true p dn true false d = { d with
      fab := { clearSuspect p dn d.fab with deadDevs := dn :: d.fab.deadDevs, reqs := d.fab.reqs.filter (fun r => r.dst != dn) } } :=
  (probeResult_own h true false).trans (killDevice_other (d := { d with fab := clearSuspect p dn d.fab }) hown hlive)

theorem planeProbeResult_eq {s : State} {own good answers : Bool} (hown : s.dev.arg.nats.isEmpty = own) (hok : s.dev.arg.ok = good)
    (hok2 : s.dev.arg.ok2 = answers) : execPlaneProbeResult s = .next { s with dev := probeResult own s.dev.arg.idx s.dev.arg.num good answers s.dev } := by
  subst hown hok hok2
  rfl

/-- After a probe that succeeds the path's requests leave again. -/
theorem probeResult_well {p dn : Nat} {d : Device} (h : d.fab.suspects.contains (p, dn) = true) :
    (probeResult true p dn true true d).fab.suspects = (clearSuspect p dn d.fab).suspects ∧
    (probeResult true p dn true true d) = { d with fab := (probeResult true p dn true true d).fab } ∧
    ∀ r ∈ (probeResult true p dn true true d).fab.reqs, r.dst = dn → r.plane = p → r.held = false ∧ r.tries = 0 := by
  rw [probeResult_own h true true]
  refine ⟨rfl, rfl, fun r hr hdst hplane => ?_⟩
  obtain ⟨y, -, rfl⟩ := List.mem_map.mp hr
  by_cases hy : (true && decide (y.dst = dn) && decide (y.plane = p)) = true
  · rw [if_pos hy]
    exact ⟨rfl, rfl⟩
  · rw [if_neg hy] at hdst hplane
    exact absurd (by simp [hdst, hplane]) hy

theorem responseCacheExpire_known {s : State} {c : Word × Nat}
    (hc : (SMap.find (windowOf s.dev s.dev.arg.num).cache s.dev.arg.idx).or (SMap.find (windowOf s.dev s.dev.arg.num).cache (2 ^ 32 + s.dev.arg.idx)) = some c) :
    execResponseCacheExpire s = .next (if s.dev.arg.ok && c.2 + 64000000 ≤ s.dev.devtime.toNat then
      { s with dev := setWindow s.dev.arg.num { windowOf s.dev s.dev.arg.num with
        cache := SMap.erase (SMap.erase (windowOf s.dev s.dev.arg.num).cache s.dev.arg.idx) (2 ^ 32 + s.dev.arg.idx) } s.dev } else s) := by
  unfold execResponseCacheExpire
  dsimp only
  rw [hc]

theorem rehashDrainTimeout_known {s : State} {r : Rehash} (h : SMap.find s.dev.fab.rehash s.dev.arg.idx = some r) :
    execRehashDrainTimeout s = .next (if !r.drained.contains s.dev.arg.num && r.since + 12000000 ≤ s.dev.devtime.toNat then
      { s with dev := killDevice s.dev.arg.num s.dev } else s) := by
  unfold execRehashDrainTimeout
  rw [h]

/-! ## The rehash (R386 to R388) -/

/-- The requests with those that a quiesce of a pod covers, on the planes that it names, held. -/
def heldOn (d : Device) (pod : Nat) (planes : List Nat) : List RemReq :=
  d.fab.reqs.map (fun x => if covered d pod x && planes.contains x.plane then { x with held := true } else x)

section
variable {pod gen : Nat} {planes : List Nat} {d : Device} {r : Rehash}

theorem quiescePod_refused (h : SMap.find d.fab.rehash pod = none) (hg : gen ≠ SMap.get 0 d.fab.gens pod + 1) : quiescePod pod gen planes d = d := by
  unfold quiescePod
  rw [h]
  exact if_pos (bne_iff_ne.mpr hg)

theorem quiescePod_begins (h : SMap.find d.fab.rehash pod = none) (hg : gen = SMap.get 0 d.fab.gens pod + 1) :
    (quiescePod pod gen planes d).fab =
      { d.fab with rehash := SMap.put d.fab.rehash pod ⟨planes, gen, d.devtime.toNat, [], false⟩, reqs := heldOn d pod planes } := by
  have hfab : ∀ (c : Bool) (e : Device), (if c then fabricInterrupt e else e).fab = e.fab := fun c e => by cases c <;> rfl
  unfold quiescePod
  rw [h]
  dsimp only
  rw [if_neg (by rw [bne_iff_ne]; exact not_not_intro hg), hfab]
  rfl

theorem quiescePod_joins (h : SMap.find d.fab.rehash pod = some r) : quiescePod pod gen planes d =
    if r.gen = gen ∧ r.installed = false then
      { d with fab := { d.fab with
        rehash := SMap.put d.fab.rehash pod { r with planes := (r.planes ++ planes).eraseDups }, reqs := heldOn d pod planes } }
    else d := by
  unfold quiescePod
  rw [h]
  by_cases hg : r.gen = gen ∧ r.installed = false
  · rw [if_pos hg]
    exact if_neg (by simp [hg.1, hg.2])
  · rw [if_neg hg]
    refine if_pos ?_
    by_contra hno
    exact hg (by simpa using hno)

theorem drainAgent_known {dn : Nat} (h : SMap.find d.fab.rehash pod = some r) : drainAgent pod dn d =
    if dn = d.boot.devnum ∧ (∃ x ∈ d.fab.reqs, covered d pod x = true ∧ x.held = false) then d
    else { d with fab := { d.fab with
      rehash := SMap.put d.fab.rehash pod (if r.drained.contains dn then r else { r with drained := r.drained ++ [dn] }) } } := by
  unfold drainAgent mapRehash
  rw [h]
  refine if_congr ?_ rfl rfl
  simp

/-- The map after one entry is given to a plane. -/
theorem mapEntry_given (m : PlaneMap) {i j v : Nat} (hi : i < 64) (hv : v < 8) :
    mapEntry (BitVec.ofNat 256 (setBits m.toNat (4 * i) 4 v)) j = if j = i then v else mapEntry m j := by
  have hto : (BitVec.ofNat 256 (setBits m.toNat (4 * i) 4 v)).toNat = setBits m.toNat (4 * i) 4 v :=
    (BitVec.toNat_ofNat ..).trans (Nat.mod_eq_of_lt (setBits_lt m.isLt (by omega)))
  unfold mapEntry
  rw [hto]
  split
  · next h =>
    have hsame := bits_setBits_same m.toNat (4 * i) 4 v
    rw [h]
    rw [bits_div] at hsame ⊢
    omega
  · next h => exact bits_setBits_apart _ _ _ _ _ _ (by omega)

/-- How many entries from i on, before j, name a dead plane. -/
def deadBefore (dead : List Nat) (m : PlaneMap) (i j : Nat) : Nat :=
  ((upFrom i (j - i)).filter (fun k => decide (mapEntry m k ∈ dead))).length

theorem deadBefore_step {dead : List Nat} {m m' : PlaneMap} {i j : Nat} (hij : i < j) (hm : ∀ k, i < k → k < j → mapEntry m' k = mapEntry m k) :
    deadBefore dead m i j = (if mapEntry m i ∈ dead then 1 else 0) + deadBefore dead m' (i + 1) j := by
  have hrest : (upFrom (i + 1) (j - (i + 1))).filter (fun k => decide (mapEntry m' k ∈ dead)) =
      (upFrom (i + 1) (j - (i + 1))).filter (fun k => decide (mapEntry m k ∈ dead)) := by
    refine List.filter_congr fun k hk => ?_
    have := mem_upFrom.mp hk
    rw [hm k (by omega) (by omega)]
  unfold deadBefore
  rw [hrest, show j - i = (j - (i + 1)) + 1 by omega, upFrom, List.filter_cons]
  by_cases h : mapEntry m i ∈ dead
  · simp [h, Nat.add_comm]
  · simp [h]

theorem rehashFrom_dead {dead live : List Nat} {n i k : Nat} {m : PlaneMap} (h : mapEntry m i ∈ dead) : rehashFrom dead live (n + 1) i k m =
    rehashFrom dead live n (i + 1) (k + 1) (BitVec.ofNat 256 (setBits m.toNat (4 * i) 4 (live.getD (k % live.length) 0))) :=
  if_pos (List.contains_iff_mem.mpr h)

theorem rehashFrom_alive {dead live : List Nat} {n i k : Nat} {m : PlaneMap} (h : mapEntry m i ∉ dead) :
    rehashFrom dead live (n + 1) i k m = rehashFrom dead live n (i + 1) k m :=
  if_neg fun hc => h (List.contains_iff_mem.mp hc)

theorem mapEntry_rehashFrom_below {dead live : List Nat} (hlive : ∀ q, live.getD q 0 < 8) : ∀ (n i k : Nat) (m : PlaneMap) {j : Nat}, i + n = 64 → j < i →
    mapEntry (rehashFrom dead live n i k m) j = mapEntry m j
  | 0, _, _, _, _, _, _ => rfl
  | n + 1, i, k, m, j, hn, hj => by
    by_cases hdead : mapEntry m i ∈ dead
    · rw [rehashFrom_dead hdead, mapEntry_rehashFrom_below hlive n (i + 1) (k + 1) _ (by omega) (by omega),
        mapEntry_given m (by omega) (hlive _), if_neg (by omega)]
    · rw [rehashFrom_alive hdead]
      exact mapEntry_rehashFrom_below hlive n (i + 1) k m (by omega) (by omega)

/-- Each entry of a dead plane goes to the survivor whose turn it is. -/
theorem mapEntry_rehashFrom {dead live : List Nat} (hlive : ∀ q, live.getD q 0 < 8) : ∀ (n i k : Nat) (m : PlaneMap) {j : Nat}, i + n = 64 → i ≤ j → j < 64 →
    mapEntry (rehashFrom dead live n i k m) j =
      if mapEntry m j ∈ dead then live.getD ((k + deadBefore dead m i j) % live.length) 0 else mapEntry m j
  | 0, i, _, _, j, hn, hij, hj => absurd hij (by omega)
  | n + 1, i, k, m, j, hn, hij, hj => by
    rcases Nat.eq_or_lt_of_le hij with rfl | hlt
    · have hzero : deadBefore dead m i i = 0 := by
        unfold deadBefore
        rw [Nat.sub_self]
        rfl
      rw [hzero]
      by_cases hdead : mapEntry m i ∈ dead
      · rw [rehashFrom_dead hdead, if_pos hdead, mapEntry_rehashFrom_below hlive n (i + 1) _ _ (by omega) (by omega),
          mapEntry_given m (by omega) (hlive _), if_pos rfl, Nat.add_zero]
      · rw [rehashFrom_alive hdead, if_neg hdead, mapEntry_rehashFrom_below hlive n (i + 1) _ _ (by omega) (by omega)]
    · by_cases hdead : mapEntry m i ∈ dead
      · have hsame : ∀ q, i < q → q < 64 → mapEntry (BitVec.ofNat 256 (setBits m.toNat (4 * i) 4 (live.getD (k % live.length) 0))) q = mapEntry m q :=
          fun q hiq hq => by rw [mapEntry_given m (by omega) (hlive _), if_neg (by omega)]
        rw [rehashFrom_dead hdead, mapEntry_rehashFrom hlive n (i + 1) (k + 1) _ (by omega) hlt hj, hsame j hlt hj,
          deadBefore_step hlt (fun q hiq hq => hsame q hiq (by omega)), if_pos hdead, Nat.add_assoc k]
      · rw [rehashFrom_alive hdead, mapEntry_rehashFrom hlive n (i + 1) k m (by omega) hlt hj, deadBefore_step hlt (fun _ _ _ => rfl), if_neg hdead, Nat.zero_add]

theorem survivors_getD_lt (dead : List Nat) (m : PlaneMap) (q : Nat) : (survivors dead m).getD q 0 < 8 := by
  rw [List.getD_eq_getElem?_getD]
  cases h : (survivors dead m)[q]? with
  | none => exact Nat.zero_lt_succ 7
  | some p => exact mem_upFrom_zero.mp (List.mem_filter.mp (List.mem_of_getElem? h)).1

/-- The planes that a new map of a pod leaves out. -/
def deadPlanes (d : Device) (pod : Nat) (r : Rehash) : List Nat := (r.planes ++ (d.fab.declared.filter (fun x => x.1 = pod)).map (·.2)).eraseDups

/-- The device with the new map of a pod in force. -/
def mapInstalled (pod gen : Nat) (r : Rehash) (d : Device) : Device :=
  let live := survivors (deadPlanes d pod r) (mapOf d pod)
  replan pod { holdOn pod (deadPlanes d pod r) d with
    fab.pmaps := if live.isEmpty then d.fab.pmaps else SMap.set defaultMap d.fab.pmaps pod (rehashFrom (deadPlanes d pod r) live 64 0 0 (mapOf d pod))
    fab.gens := SMap.set 0 d.fab.gens pod gen
    fab.rehash := SMap.put d.fab.rehash pod { r with installed := true }
    fab.declared := d.fab.declared.filter (fun x => x.1 != pod)
    fab.deadPods := if live.isEmpty then pod :: d.fab.deadPods else d.fab.deadPods }

/-- A map is installed with its effect on the planes in use. -/
theorem installMap_drained (h : SMap.find d.fab.rehash pod = some r) (hg : r.gen = gen) (hd : d.boot.devnum ∈ r.drained) (hi : r.installed = false) :
    ∃ l m, installMap pod gen d = { mapInstalled pod gen r d with fab := { (mapInstalled pod gen r d).fab with live := l }, msix := m } := by
  have hlive : ∀ (c c' : Prop) [Decidable c] [Decidable c'] (L : BitVec 8) (e : Device), ∃ l m,
      (if c then (if c' then e else fabricInterrupt { e with fab := { e.fab with live := L } }) else e) = { e with fab := { e.fab with live := l }, msix := m } :=
    fun c c' _ _ L e => by
      split
      · split
        · exact ⟨e.fab.live, e.msix, rfl⟩
        · exact ⟨L, _, rfl⟩
      · exact ⟨e.fab.live, e.msix, rfl⟩
  unfold installMap
  rw [h]
  dsimp only
  rw [if_neg (by simp [hg, hd, hi])]
  exact hlive _ _ _ (mapInstalled pod gen r d)

theorem mapOf_installed (live : List Nat) (m : PlaneMap) (hl : live ≠ []) :
    SMap.get defaultMap (if live.isEmpty then d.fab.pmaps else SMap.set defaultMap d.fab.pmaps pod m) pod = m := by
  rw [if_neg (by rwa [List.isEmpty_iff])]
  exact SMap.get_set_self defaultMap d.fab.pmaps pod m

/-- A request that stays held takes its way under the new map and the new generation. -/
theorem replan_held {x : RemReq} {e : Device} (hx : x ∈ (replan pod e).fab.reqs) (hh : x.held = true) (hp : podOf e x.dst = pod) :
    x.plane = planeOf e x.pa ∧ x.gen = SMap.get 0 e.fab.gens pod := by
  obtain ⟨y, -, rfl⟩ := List.mem_map.mp hx
  by_cases hy : (y.held && decide (podOf e y.dst = pod)) = true
  · rw [if_pos hy]
    exact ⟨rfl, rfl⟩
  · rw [if_neg hy] at hh hp
    exact absurd (by simp [hh, hp]) hy

/-- With no plane left the pod is dead and its map stays. -/
theorem mapInstalled_none (h : survivors (deadPlanes d pod r) (mapOf d pod) = []) :
    (mapInstalled pod gen r d).fab.deadPods = pod :: d.fab.deadPods ∧ mapOf (mapInstalled pod gen r d) pod = mapOf d pod := by
  unfold mapInstalled
  rw [h]
  exact ⟨rfl, rfl⟩

/-- With planes left the map gives them the entries of the dead ones, and held requests follow it. -/
theorem mapInstalled_some (h : survivors (deadPlanes d pod r) (mapOf d pod) ≠ []) :
    SMap.get 0 (mapInstalled pod gen r d).fab.gens pod = gen ∧
    (∀ x ∈ (mapInstalled pod gen r d).fab.reqs, x.held = true → podOf d x.dst = pod → x.plane = planeOf (mapInstalled pod gen r d) x.pa ∧ x.gen = gen) ∧
    ∀ i, i < 64 → mapEntry (mapOf (mapInstalled pod gen r d) pod) i = if mapEntry (mapOf d pod) i ∈ deadPlanes d pod r then
      (survivors (deadPlanes d pod r) (mapOf d pod)).getD
        (((upFrom 0 i).filter (fun j => decide (mapEntry (mapOf d pod) j ∈ deadPlanes d pod r))).length % (survivors (deadPlanes d pod r) (mapOf d pod)).length) 0
      else mapEntry (mapOf d pod) i := by
  have hgen : SMap.get 0 (SMap.set 0 d.fab.gens pod gen) pod = gen := SMap.get_set_self 0 d.fab.gens pod gen
  refine ⟨hgen, fun x hx hh hp => ?_, fun i hi => ?_⟩
  · obtain ⟨hplane, hxgen⟩ := replan_held hx hh hp
    exact ⟨hplane, hxgen.trans hgen⟩
  · have hmap : mapOf (mapInstalled pod gen r d) pod = rehashFrom (deadPlanes d pod r) (survivors (deadPlanes d pod r) (mapOf d pod)) 64 0 0 (mapOf d pod) :=
      mapOf_installed _ _ h
    rw [hmap, mapEntry_rehashFrom (survivors_getD_lt _ _) 64 0 0 _ rfl (Nat.zero_le i) hi, Nat.zero_add]
    rfl

/-- The planes in use change neither a map nor the way of an address. -/
theorem planeOf_live (l : BitVec 8) (m : SMap Bool) (e : Device) (pa : Nat) :
    planeOf { e with fab := { e.fab with live := l }, msix := m } pa = planeOf e pa := rfl

theorem mapOf_live (l : BitVec 8) (m : SMap Bool) (e : Device) (pod : Nat) :
    mapOf { e with fab := { e.fab with live := l }, msix := m } pod = mapOf e pod := rfl

theorem installMap_none (h : SMap.find d.fab.rehash pod = some r) (hg : r.gen = gen) (hd : d.boot.devnum ∈ r.drained) (hi : r.installed = false)
    (hlive : survivors (deadPlanes d pod r) (mapOf d pod) = []) :
    (installMap pod gen d).fab.deadPods = pod :: d.fab.deadPods ∧ mapOf (installMap pod gen d) pod = mapOf d pod := by
  obtain ⟨l, m, hmap⟩ := installMap_drained h hg hd hi
  obtain ⟨hpods, hsame⟩ := mapInstalled_none (gen := gen) hlive
  rw [hmap, mapOf_live]
  exact ⟨hpods, hsame⟩

theorem installMap_some (h : SMap.find d.fab.rehash pod = some r) (hg : r.gen = gen) (hd : d.boot.devnum ∈ r.drained) (hi : r.installed = false)
    (hlive : survivors (deadPlanes d pod r) (mapOf d pod) ≠ []) :
    SMap.get 0 (installMap pod gen d).fab.gens pod = gen ∧
    (∀ x ∈ (installMap pod gen d).fab.reqs, x.held = true → podOf d x.dst = pod → x.plane = planeOf (installMap pod gen d) x.pa ∧ x.gen = gen) ∧
    ∀ i, i < 64 → mapEntry (mapOf (installMap pod gen d) pod) i = if mapEntry (mapOf d pod) i ∈ deadPlanes d pod r then
      (survivors (deadPlanes d pod r) (mapOf d pod)).getD
        (((upFrom 0 i).filter (fun j => decide (mapEntry (mapOf d pod) j ∈ deadPlanes d pod r))).length % (survivors (deadPlanes d pod r) (mapOf d pod)).length) 0
      else mapEntry (mapOf d pod) i := by
  obtain ⟨l, m, hmap⟩ := installMap_drained h hg hd hi
  obtain ⟨hgens, hreqs, hentries⟩ := mapInstalled_some (gen := gen) hlive
  rw [hmap, mapOf_live]
  refine ⟨hgens, fun x hx hh hp => ?_, hentries⟩
  rw [planeOf_live]
  exact hreqs x hx hh hp

theorem releasePod_waits (h : SMap.find d.fab.rehash pod = some r) (hno : r.gen ≠ gen ∨ r.installed = false) : releasePod pod gen d = d := by
  unfold releasePod
  rw [h]
  exact if_pos (by simpa using hno)

/-- The fabric after a release: what no other quiesce covers is sent again. -/
def releasedFabric (d : Device) (pod : Nat) : Fabric :=
  { d.fab with
    rehash := SMap.erase d.fab.rehash pod
    reqs := d.fab.reqs.map (fun x => if covered d pod x && x.held && !(SMap.erase d.fab.rehash pod).any (fun p => covered d p.1 x) then
      { x with held := false, tries := 0, sentAt := d.devtime.toNat } else x) }

theorem releasePod_released (h : SMap.find d.fab.rehash pod = some r) (hg : r.gen = gen) (hi : r.installed = true) :
    (releasePod pod gen d).fab = releasedFabric d pod := by
  have hfab : ∀ (c : Bool) (e : Device), (if c then fabricInterrupt e else e).fab = e.fab := fun c e => by cases c <;> rfl
  unfold releasePod
  rw [h]
  dsimp only
  rw [if_neg (by simp [hg, hi]), hfab]
  rfl

theorem releasedFabric_sent {x : RemReq} (hx : x ∈ (releasedFabric d pod).reqs) (hc : covered d pod x = true)
    (hothers : ∀ p ∈ SMap.erase d.fab.rehash pod, covered d p.1 x = false) : x.held = false := by
  obtain ⟨y, -, rfl⟩ := List.mem_map.mp hx
  by_cases hy : (covered d pod y && y.held && !(SMap.erase d.fab.rehash pod).any (fun p => covered d p.1 y)) = true
  · rw [if_pos hy]
  · rw [if_neg hy] at hc hothers ⊢
    have hany : (SMap.erase d.fab.rehash pod).any (fun p => covered d p.1 y) = false :=
      List.any_eq_false.mpr fun p hp => by rw [hothers p hp]; exact Bool.false_ne_true
    simpa [hc, hany] using hy

end

/-! ## The events together -/

/-- The segment that a TRAIN_SEGMENT_RECEIVE brings. -/
def segmentOf (a : EvArg) : Segment := ⟨a.idx, a.len, a.parts, a.ok, if a.ok2 then some a.val.toNat else none⟩

theorem segmentOf_plain {a : EvArg} (h : ¬ (a.ok = true ∧ a.ok2 = true)) (l : Nat) : ¬ ((segmentOf a).last = true ∧ (segmentOf a).tail = some l) := by
  rintro ⟨hok, htail⟩
  cases hok2 : a.ok2 with
  | true => exact h ⟨hok, hok2⟩
  | false => exact absurd ((show (segmentOf a).tail = none by unfold segmentOf; rw [hok2]; rfl).symm.trans htail) (by simp)

theorem segmentOf_tail {a : EvArg} (h : a.ok2 = true) : (segmentOf a).tail = some a.val.toNat := by
  unfold segmentOf
  rw [h]
  rfl

/-- Settles O59: the fabric, event by event. -/
theorem fabricEvents : Obligations.FabricEvents := by
  unfold Obligations.FabricEvents
  intro s
  have hnext : ∀ {e e' : Device}, e = e' → (Host.Outcome.next { s with dev := e } : Host.Outcome State Fault Refusal) = .next { s with dev := e' } :=
    fun h => congrArg (fun e => Host.Outcome.next { s with dev := e }) h
  have hcase : ∀ {c : Prop} [Decidable c] {e e₁ e₂ : Device}, e = (if c then e₁ else e₂) →
      (Host.Outcome.next { s with dev := e } : Host.Outcome State Fault Refusal) = if c then .next { s with dev := e₁ } else .next { s with dev := e₂ } :=
    fun h => by
      rw [h]
      split <;> rfl
  have hpass : (s.dev.arg.parts.all (fun x => (upFrom x.1 x.2.length).all (isLocalDev s.dev)) = true) → (s.dev.arg.parts.map (fun x => x.2.length)).sum ≤ 4096 →
      (decide ((s.dev.arg.parts.map (fun x => x.2.length)).sum ≤ 4096) && s.dev.arg.parts.all (fun x => (upFrom x.1 x.2.length).all (isLocalDev s.dev))) = true :=
    fun hloc hsum => by rw [hloc, decide_eq_true hsum]; rfl
  refine ⟨fun hk hup => ⟨fun hok => ?_, fun hok hn => ?_, fun hok hn => ?_⟩, fun hk hdown => ?_,
    fun hnew => ⟨fun hok => ?_, fun hok hb => ?_, fun hok hb hl hloc => ?_, fun hok hb hl hloc hm hr hw => ?_, fun hok hb hl hsl hr hw hloc => ?_,
      fun hok hb hl hrole hslot hp hr hw hloc => ?_⟩, fun c hap hc => ?_, fun hloc hsum => ⟨fun hlt => ?_, fun hlt hearly => ?_, fun heq hearly hr hw => ?_⟩,
    fun c hc => ?_, fun r hr hdst hseq hheld hold => ?_, fun hnats hok => ?_, fun hnats hsus => ⟨fun hok => ?_, fun hok hok2 hown hdead => ?_, fun hok hok2 => ?_⟩,
    ?_, ⟨fun hnone hg => ?_, fun hnone hg => ?_, fun r hr => ?_⟩, fun r hr => ?_, fun r hr hg hd hi => ⟨fun hlive => ?_, fun hlive => ?_⟩,
    fun r hr hno => ?_, fun r hr hg hi => ?_, fun r hr hno => ?_, fun r hr hnd hold hown hdead => ?_, rfl⟩
  · exact hnext (by rw [hok, receiveFlit_up hk hup]; rfl)
  · refine ⟨_, hnext (e := receiveFlit s.dev.arg.idx s.dev.arg.ok s.dev) (by
      rw [hok, receiveFlit_up hk hup, if_neg Bool.false_ne_true, if_neg (Nat.not_le.mpr hn)]),
      SMap.get_set_self 0 s.dev.fab.crcFails s.dev.arg.idx (SMap.get 0 s.dev.fab.crcFails s.dev.arg.idx + 1), ?_, ?_⟩
    · rw [portReg_setPort _ (bumpField_lt (portReg_lt ..) (by omega)), bumpField, testBit_setBits_zero _ _ _ (by omega)]
      exact hup
    · rw [portReg_setPort _ (bumpField_lt (portReg_lt ..) (by omega))]
      exact bits_bumpField ..
  · exact ⟨_, hnext (by rw [hok, receiveFlit_up hk hup, if_neg Bool.false_ne_true, if_pos hn]), portDown_down _ _⟩
  · refine ⟨_, congrArg Host.Outcome.next (if_neg ?_), portUp_up hdown, raised_vector ..⟩
    rw [show bit (portReg s.dev.fab s.dev.arg.idx) 0 = false from hdown, decide_eq_false (Nat.not_le.mpr hk)]
    exact Bool.false_ne_true
  · exact hnext ((receiveRequest_first hnew).trans (if_pos (.inl hok)))
  · exact hnext ((receiveRequest_first hnew).trans (if_pos (.inr hb)))
  · exact hnext ((receiveRequest_applies hnew hok hb).trans (applyRequest_load hl hloc))
  · refine ⟨_, hnext ((receiveRequest_applies hnew hok hb).trans (applyRequest_store hl hloc hm)), rfl, ?_⟩
    obtain ⟨hin, hout⟩ := readByte_performHome (wr := otherDevice s.dev.arg.num) (op := 0) (at' := s.dev.arg.val.toNat) (bs := s.dev.arg.bytes) hr hw
    exact ⟨fun j b hj => (readByte_reply ..).trans (hin j b hj), fun k hk => (readByte_reply ..).trans (hout k hk)⟩
  · refine ⟨_, hnext ((receiveRequest_applies hnew hok hb).trans (applyRequest_update (by omega) hloc (fun h => absurd hl h)
      (requestNew_scatter hl _))), rfl, (readNat_reply ..).trans (readNat_performNat hr hw)⟩
  · have hsound : s.dev.arg.len ≠ 4 → ∀ k, poisoned s.dev k = false := fun _ k => by
      unfold poisoned
      rw [hp]
      rfl
    have hloc' : ∀ k ∈ upFrom s.dev.arg.val.toNat s.dev.arg.slot, isLocalDev s.dev k = true := by
      rw [hslot]
      exact hloc
    have happly := applyRequest_update (by omega) hloc' hsound (requestNew_add hl hrole hslot _)
    rw [hslot, if_neg (by omega)] at happly
    refine ⟨_, hnext ((receiveRequest_applies hnew hok hb).trans happly), rfl, ?_, ?_⟩
    · refine (readNat_reply ..).trans ((readNat_performNat hr hw).trans ?_)
      exact Nat.mod_mod _ _
    · exact congrArg (Option.map Prod.fst) (find_keepAnswer ..)
  · exact hnext (receiveRequest_copy hap hc)
  · exact (congrArg Host.Outcome.next (if_pos (hpass hloc hsum))).trans (hnext (receiveSegment_past hlt))
  · exact (congrArg Host.Outcome.next (if_pos (hpass hloc hsum))).trans (hnext (receiveSegment_early hlt hearly))
  · refine ⟨_, (congrArg Host.Outcome.next (if_pos (hpass hloc hsum))).trans (hnext (receiveSegment_next (g := segmentOf s.dev.arg) heq hearly)), rfl,
      segs_applySegment (g := segmentOf s.dev.arg), fun k hk => ?_, fun ⟨hok, hok2⟩ hapart => ?_⟩
    · by_cases hadds : s.dev.arg.ok = true ∧ s.dev.arg.ok2 = true
      · exact (applySegment_counted (g := segmentOf s.dev.arg) hadds.1 (segmentOf_tail hadds.2) hr hw).1 k (hk hadds)
      · exact readByte_applySegment (g := segmentOf s.dev.arg) (segmentOf_plain hadds) hr hw k
    · exact (applySegment_counted (g := segmentOf s.dev.arg) hok (segmentOf_tail hok2) hr hw).2 hapart
  · refine (responseCacheExpire_known hc).trans ?_
    by_cases h : s.dev.arg.ok = true ∧ c.2 + 64000000 ≤ s.dev.devtime.toNat
    · rw [if_pos h, if_pos (by rw [h.1, decide_eq_true h.2]; rfl)]
      rfl
    · rw [if_neg h, if_neg (by rwa [Bool.and_eq_true, decide_eq_true_iff])]
  · exact hnext (congrArg (fun f => { s.dev with fab := f }) (retryReq_only hr hdst hseq hheld hold _))
  · exact (planeProbeResult_eq (List.isEmpty_eq_false_iff.mpr hnats) hok rfl).trans (hcase probeResult_reported)
  · exact (planeProbeResult_eq (List.isEmpty_iff.mpr hnats) hok rfl).trans (hnext (probeResult_dead hsus _))
  · exact (planeProbeResult_eq (List.isEmpty_iff.mpr hnats) hok hok2).trans (hnext (probeResult_lost hsus hown hdead))
  · obtain ⟨hsuspects, hframe, hreqs⟩ := probeResult_well hsus
    exact ⟨_, (planeProbeResult_eq (List.isEmpty_iff.mpr hnats) hok hok2).trans (hnext hframe), hsuspects, hreqs⟩
  · by_cases h : s.dev.arg.idx < 8
    · rw [if_pos h]
      exact (congrArg Host.Outcome.next (if_neg (Nat.not_le.mpr h))).trans (hnext (declarePlane_eq ..))
    · rw [if_neg h]
      exact congrArg Host.Outcome.next (if_pos (Nat.not_lt.mp h))
  · exact hnext (quiescePod_refused hnone hg)
  · exact ⟨_, rfl, quiescePod_begins hnone hg⟩
  · exact hcase (quiescePod_joins hr)
  · exact hcase (drainAgent_known hr)
  · exact ⟨_, rfl, installMap_none hr hg hd hi hlive⟩
  · exact ⟨_, rfl, installMap_some hr hg hd hi hlive⟩
  · exact hnext (releasePod_waits hr hno)
  · have hfab := releasePod_released hr hg hi
    refine ⟨_, rfl, ?_, fun x hx hc hothers => ?_⟩
    · exact (congrArg (fun f : Fabric => SMap.find f.rehash s.dev.arg.idx) hfab).trans ((SMap.find_erase ..).trans (if_pos rfl))
    · rw [show (releasePod s.dev.arg.idx s.dev.arg.num s.dev).fab = _ from hfab] at hx hothers
      exact releasedFabric_sent hx hc hothers
  · refine (rehashDrainTimeout_known hr).trans (congrArg Host.Outcome.next (if_neg ?_))
    simpa using fun h => hno.resolve_left h
  · refine (rehashDrainTimeout_known hr).trans ((congrArg Host.Outcome.next (if_pos ?_)).trans (hnext (killDevice_other hown hdead)))
    simp [hnd, hold]
end Sys2Proof.Machine
end

section
/-! PROOFS. The rings of a TRIO slot (R206 to R208): what their reading, opening and committing leave, and a sum into a group of registers
or into the open slot of a ring. -/

namespace Sys2Proof.Machine

/-! ## Slots of a ring -/

theorem ring_setRing_same (p : Nat) (l : List RingSlot) (s : State) : ring (setRing p l s) p = l := SMap.get_set_self [] s.slot.rings p l

theorem ring_setRing_ne {p q : Nat} (h : q ≠ p) (l : List RingSlot) (s : State) : ring (setRing p l s) q = ring s q :=
  SMap.get_set_ne [] s.slot.rings p q l h

theorem openSlot_append {r : RingSlot} (l : List RingSlot) (h : r.committed = false) : openSlot (l ++ [r]) = some r := by
  unfold openSlot
  rw [List.getLast?_concat]
  dsimp only
  rw [h]
  rfl

/-- The rings of a slot taken out: everything else of a state. -/
def OnlyRings (s t : State) : Prop := t = { s with slot.rings := t.slot.rings }

theorem OnlyRings.refl (s : State) : OnlyRings s s := rfl

theorem OnlyRings.trans {s t u : State} (h : OnlyRings s t) (k : OnlyRings t u) : OnlyRings s u := by
  have h' : t = { s with slot.rings := t.slot.rings } := h
  have k' : u = { t with slot.rings := u.slot.rings } := k
  exact k'.trans ((congrArg (fun q : State => ({ q with slot.rings := u.slot.rings } : State)) h').trans rfl)

theorem onlyRings_setRing (p : Nat) (l : List RingSlot) (s : State) : OnlyRings s (setRing p l s) := rfl

theorem portsOf_cfg {s t : State} (h : t.slot.cfg = s.slot.cfg) (l : List Nat) : portsOf t l = portsOf s l := by
  unfold portsOf isTrio
  rw [h]

/-- The one port that a register names, if it names one. -/
theorem portsOf_one {s : State} (ht : isTrio s = true) (d : Nat) : portsOf s [d] = if 28 ≤ d then [d - 28] else [] := by
  unfold portsOf
  rw [if_pos ht]
  by_cases h : 28 ≤ d
  · simp [h, List.eraseDups_cons]
  · simp [h]

/-! ## Opening, popping and committing (R207, R208) -/

/-- The slot that a word opens in a ring. -/
def freshSlot (s : State) : RingSlot := ⟨0, vlN s, s.thr.sr.vtype, 0, false⟩

/-- A word from VSTART 0 that writes a ring has an empty slot of its own at the ring's end, in place of one left open. -/
theorem reserve_port {s : State} {n : Need} {p : Nat} (hw : portsOf s (n.vw.map Prod.fst) = [p]) (hvs : vsN s = 0) :
    reserve s n = setRing p ((if (openSlot (ring s p)).isSome then (ring s p).dropLast else ring s p) ++ [freshSlot s]) s := by
  unfold reserve
  rw [hw]
  show (if (openSlot (ring s p)).isSome then (if vsN s = 0 then _ else s) else _) = _
  rw [if_pos hvs]
  split <;> rfl

theorem reserve_no_port {s : State} {n : Need} (hw : portsOf s (n.vw.map Prod.fst) = []) : reserve s n = s := by
  unfold reserve
  rw [hw]
  rfl

/-- Ring heads popped, each once, and nothing else of the machine touched. -/
theorem popRings : ∀ (l : List Nat) {t : State}, l.Nodup → t.thr.hid.damaged = [] →
    OnlyRings t (l.foldl (fun t p => popDamage 4 p (setRing p (ring t p).tail t)) t) ∧
    ∀ p, ring (l.foldl (fun t p => popDamage 4 p (setRing p (ring t p).tail t)) t) p = if p ∈ l then (ring t p).tail else ring t p
  | [], t, _, _ => ⟨OnlyRings.refl t, fun p => (if_neg List.not_mem_nil).symm⟩
  | a :: l, t, hn, hd => by
    obtain ⟨ha, hl⟩ := List.nodup_cons.mp hn
    have hpop : popDamage 4 a (setRing a (ring t a).tail t) = setRing a (ring t a).tail t := popDamage_none hd
    obtain ⟨honly, hring⟩ := popRings l (t := setRing a (ring t a).tail t) hl hd
    rw [List.foldl_cons, hpop]
    refine ⟨(onlyRings_setRing ..).trans honly, fun p => ?_⟩
    rw [hring]
    by_cases hp : p = a
    · rw [hp, if_neg ha, if_pos List.mem_cons_self, ring_setRing_same]
    · rw [ring_setRing_ne hp]
      exact if_congr (by rw [List.mem_cons, or_iff_right hp]) rfl rfl

/-- What retiring does to the rings of a word that names no scalar port. -/
theorem settle_rings {t : State} {n : Need} (hx : portsOf t n.xr = []) (hd : t.thr.hid.damaged = []) (hone : (portsOf t (n.vw.map Prod.fst)).length ≤ 1)
    (hapart : ∀ p ∈ portsOf t (n.vw.map Prod.fst), p ∉ portsOf t (n.vr.map Prod.fst)) :
    OnlyRings t (settle n t) ∧ ∀ p,
      (p ∈ portsOf t (n.vr.map Prod.fst) → ring (settle n t) p = (ring t p).tail) ∧
      (p ∉ portsOf t (n.vr.map Prod.fst) → p ∉ portsOf t (n.vw.map Prod.fst) → ring (settle n t) p = ring t p) ∧
      (p ∈ portsOf t (n.vw.map Prod.fst) → ∀ l r, ring t p = l ++ [r] → r.committed = false → ring (settle n t) p = l ++ [{ r with committed := true }]) := by
  obtain ⟨honly, hring⟩ := popRings (portsOf t (n.vr.map Prod.fst)) (t := t) (nodup_portsOf ..) hd
  have hcfg := (congrArg (fun u : State => u.slot.cfg) honly).trans rfl
  unfold settle
  rw [hx, List.foldl_nil]
  dsimp only
  rw [portsOf_cfg hcfg]
  generalize (portsOf t (n.vr.map Prod.fst)).foldl (fun t p => popDamage 4 p (setRing p (ring t p).tail t)) t = u at honly hring
  match hports : portsOf t (n.vw.map Prod.fst) with
  | [] => exact ⟨honly, fun p => ⟨fun hr => (hring p).trans (if_pos hr), fun hr _ => (hring p).trans (if_neg hr), nofun⟩⟩
  | a :: b :: l => rw [hports] at hone; exact absurd hone (by simp)
  | [a] =>
    have ha : a ∉ portsOf t (n.vr.map Prod.fst) := hapart a (hports ▸ List.mem_cons_self)
    rw [List.foldl_cons, List.foldl_nil]
    refine ⟨?_, fun p => ?_⟩
    · split
      · exact honly.trans (onlyRings_setRing ..)
      · exact honly
    · have hsame : p ≠ a → ring (match openSlot (ring u a) with
          | some r => setRing a ((ring u a).dropLast ++ [{ r with committed := true }]) u
          | none => u) p = ring u p := fun hp => by
        split
        · exact ring_setRing_ne hp _ _
        · rfl
      refine ⟨fun hr => (hsame fun e => ha (e ▸ hr)).trans ((hring p).trans (if_pos hr)),
        fun hr hw => (hsame fun e => hw (e ▸ List.mem_singleton_self a)).trans ((hring p).trans (if_neg hr)), fun hp l r hl hopen => ?_⟩
      cases List.mem_singleton.mp hp
      have hu : ring u a = l ++ [r] := ((hring a).trans (if_neg ha)).trans hl
      rw [hu, openSlot_append l hopen, List.dropLast_concat]
      exact ring_setRing_same ..

/-! ## Elements of a register and of an open slot -/

/-- An element of a group that lies within the registers depends on those alone. -/
theorem rv_low {s t : State} (hv : t.thr.v = s.thr.v) {n : Nat} (h : n < 28) : rv t n = rv s n := by
  have hno : ∀ u : State, ¬ (isTrio u && decide (28 ≤ n)) = true := fun u => by simp; omega
  unfold rv
  rw [if_neg (hno t), if_neg (hno s), hv]

/-- The reader of a ring reads its head slot. -/
theorem rv_reader {s : State} {p : Nat} (ht : isTrio s = true) (hr : ringReader p = s.cur.2) :
    rv s (28 + p) = ((ring s p).head?.map RingSlot.data).getD 0 := by
  have hw : ringWriter p ≠ s.cur.2 := by
    rw [← hr]
    unfold ringWriter ringReader
    split <;> simp
  unfold rv
  rw [if_pos (by simp [ht]), Nat.add_sub_cancel_left, if_neg hw]
  cases (ring s p).head? <;> rfl

/-- The writer of a ring reads its open slot. -/
theorem rv_writer {s : State} {p : Nat} {l : List RingSlot} {r : RingSlot} (ht : isTrio s = true) (hw : ringWriter p = s.cur.2)
    (hl : ring s p = l ++ [r]) (hopen : r.committed = false) : rv s (28 + p) = r.data := by
  unfold rv
  rw [if_pos (by simp [ht]), Nat.add_sub_cancel_left, if_pos hw, hl, openSlot_append l hopen]

/-- The slot with an element written. -/
def putSlot (ew i v : Nat) (r : RingSlot) : RingSlot :=
  { r with data := BitVec.ofNat 16384 (setBits r.data.toNat (ew * i) ew v), units := max r.units (ceilDiv (ceilDiv (ew * (i + 1)) 8) 64) }

/-- An element written to a ring goes to its open slot. -/
theorem setElemV_port {t : State} {p ew i v : Nat} {l : List RingSlot} {r : RingSlot} (hd : t.thr.hid.damaged = []) (hi : i < perReg (vmN t) ew)
    (ht : isTrio t = true) (hw : ringWriter p = t.cur.2) (hl : ring t p = l ++ [r]) (hopen : r.committed = false) :
    setElemV (28 + p) ew i v t = setRing p (l ++ [putSlot ew i v r]) t := by
  unfold setElemV
  dsimp only
  rw [if_neg (by omega), Nat.div_eq_of_lt hi, Nat.mod_eq_of_lt hi, Nat.add_zero, rv_writer ht hw hl hopen]
  unfold wv
  rw [if_pos (by simp [ht]), Nat.add_sub_cancel_left, hl]
  dsimp only
  rw [openSlot_append l hopen, List.dropLast_concat]
  exact mendBits_whole (s := setRing p _ t) hd _ _ _ _

/-- An element of a slot after one of its elements has been written. -/
theorem elemOf_putSlot {ew i j v vm : Nat} (r : RingSlot) (hvm : vm ≤ 16384) (hi : i < perReg vm ew) :
    elemOf (putSlot ew i v r).data.toNat ew j = if j = i then v % 2 ^ ew else elemOf r.data.toNat ew j := by
  have hew : ew ≠ 0 := fun h => by simp [perReg, h] at hi
  have hin : ew * i + ew ≤ 16384 := calc
    ew * i + ew = ew * (i + 1) := by ring
    _ ≤ ew * perReg vm ew := Nat.mul_le_mul_left _ hi
    _ ≤ vm := by simp only [perReg, if_neg hew]; exact Nat.mul_div_le _ _
    _ ≤ 16384 := hvm
  have hdata : (putSlot ew i v r).data.toNat = setBits r.data.toNat (ew * i) ew v :=
    (BitVec.toNat_ofNat ..).trans (Nat.mod_eq_of_lt (setBits_lt r.data.isLt hin))
  rw [hdata]
  split
  · next h => rw [h, elemOf_setBits_same]
  · next h => exact elemOf_setBits_ne _ _ _ _ _ h

theorem elemV_writer {s : State} {p ew j : Nat} {l : List RingSlot} {r : RingSlot} (ht : isTrio s = true) (hw : ringWriter p = s.cur.2)
    (hl : ring s p = l ++ [r]) (hopen : r.committed = false) (hj : j < perReg (vmN s) ew) : elemV s (28 + p) ew j = elemOf r.data.toNat ew j := by
  unfold elemV
  dsimp only
  rw [if_neg (by omega), Nat.div_eq_of_lt hj, Nat.mod_eq_of_lt hj, Nat.add_zero, rv_writer ht hw hl hopen]

/-! ## A sweep that writes codes -/

/-- An element of a sweep that writes codes without flags. -/
def putElement (s : State) (k : BitVec 3) (d : Nat) (val : Nat → Nat) (i : Nat) (t : State) : El :=
  if activeAt s k.toNat i then .ok (setElemV d (ewN s) i (val i) t) else .ok t

/-- The elements below i of a group hold their codes where the word writes them, and the rest of the group is as it was. -/
def Filled (s : State) (k : BitVec 3) (len : Nat) (val : Nat → Nat) (i : Nat) (was now : Nat → Nat) : Prop :=
  ∀ j, j < len → now j = if vsN s ≤ j ∧ j < i ∧ activeAt s k.toNat j = true then val j % 2 ^ ewN s else was j

theorem Filled.start (s : State) (k : BitVec 3) (len : Nat) (val was : Nat → Nat) : Filled s k len val (vsN s) was was :=
  fun _ _ => (if_neg fun h => absurd h.2.1 (Nat.not_lt.mpr h.1)).symm

theorem Filled.skip {s : State} {k : BitVec 3} {len i : Nat} {val was now : Nat → Nat} (h : Filled s k len val i was now)
    (hno : activeAt s k.toNat i ≠ true) : Filled s k len val (i + 1) was now := fun j hj => by
  rw [h j hj]
  refine if_congr ⟨fun ⟨hlo, hhi, ha⟩ => ⟨hlo, by omega, ha⟩, fun ⟨hlo, hhi, ha⟩ => ⟨hlo, ?_, ha⟩⟩ rfl rfl
  rcases Nat.lt_succ_iff_lt_or_eq.mp hhi with h | rfl
  · exact h
  · exact absurd ha hno

theorem Filled.put {s : State} {k : BitVec 3} {len i : Nat} {val was now now' : Nat → Nat} (h : Filled s k len val i was now) (hlo : vsN s ≤ i)
    (ha : activeAt s k.toNat i = true) (hput : ∀ j, j < len → now' j = if j = i then val i % 2 ^ ewN s else now j) :
    Filled s k len val (i + 1) was now' := fun j hj => by
  rw [hput j hj]
  split
  · next e =>
    subst e
    exact (if_pos ⟨hlo, Nat.lt_succ_self j, ha⟩).symm
  · next e =>
    rw [h j hj]
    exact if_congr ⟨fun ⟨h1, h2, h3⟩ => ⟨h1, by omega, h3⟩, fun ⟨h1, h2, h3⟩ => ⟨h1, by omega, h3⟩⟩ rfl rfl

/-- The state of a sweep into registers before element i. -/
structure RegSum (s : State) (k : BitVec 3) (d g : Nat) (val : Nat → Nat) (i : Nat) (t : State) : Prop where
  frame : VFrame (chargeWord (ewN s) s) t
  elems : Filled s k (groupLen s (ewN s) g) val i (elemV s d (ewN s)) (elemV t d (ewN s))
  rest : ∀ r, r < d ∨ d + g ≤ r → rv t r = rv s r

/-- The state of a sweep into the open slot of a ring before element i. -/
structure RingSum (s : State) (k : BitVec 3) (p : Nat) (val : Nat → Nat) (i : Nat) (t : State) : Prop where
  frame : OnlyRings (chargeWord (ewN s) s) t
  others : ∀ q, q ≠ p → ring t q = ring s q
  slot : ∃ r, ring t p = (ring s p).dropLast ++ [r] ∧ r.committed = false ∧ r.vl = vlN s ∧ r.vtype = s.thr.sr.vtype ∧
    Filled s k (groupLen s (ewN s) 1) val i (fun _ => 0) (elemOf r.data.toNat (ewN s))

theorem chargeWord_vmN (s : State) : vmN (chargeWord (ewN s) s) = vmN s := congrArg (fun t : Thread => t.sr.vlmax.toNat) (chargeWord_frame (ewN s) s).1

theorem RegSum.start (s : State) (k : BitVec 3) (d g : Nat) (val : Nat → Nat) : RegSum s k d g val (vsN s) (chargeWord (ewN s) s) := by
  obtain ⟨hthr, hslot, hcur, -⟩ := chargeWord_frame (ewN s) s
  have hv : (chargeWord (ewN s) s).thr.v = s.thr.v := congrArg Thread.v hthr
  refine ⟨VFrame.refl _, fun j hj => ?_, fun r _ => rv_frame hv hslot hcur r⟩
  rw [elemV_frame hv hslot hcur (chargeWord_vmN s)]
  exact Filled.start s k _ val _ j hj

theorem RegSum.whole {s t : State} {k : BitVec 3} {d g i : Nat} {val : Nat → Nat} (h : RegSum s k d g val i t) (hd : s.thr.hid.damaged = []) :
    t.thr.hid.damaged = [] := by
  rw [h.frame]
  show (chargeWord (ewN s) s).thr.hid.damaged = []
  rw [(chargeWord_frame (ewN s) s).1]
  exact hd

theorem RegSum.step {s t : State} {k : BitVec 3} {d g i : Nat} {val : Nat → Nat} (hd : s.thr.hid.damaged = []) (hv : vmN s ≤ 16384)
    (hg : GroupOk s (d, g)) (hlen : i < groupLen s (ewN s) g) (hlo : vsN s ≤ i) (h : RegSum s k d g val i t) :
    ∃ u, putElement s k d val i t = .ok u ∧ RegSum s k d g val (i + 1) u := by
  have hwhole := h.whole hd
  unfold putElement
  by_cases ha : activeAt s k.toNat i = true
  · have hvm : vmN t = vmN s := by
      rw [h.frame]
      exact chargeWord_vmN s
    have hcfg : t.slot.cfg = s.slot.cfg := by
      rw [h.frame]
      exact congrArg Slot.cfg (chargeWord_frame (ewN s) s).2.1
    have hq := div_lt_group hlen
    have hport : NoPort t [d + i / perReg (vmN t) (ewN s)] := by
      rw [hvm]
      exact noPort_same (noPort_group hg hq) hcfg
    rw [if_pos ha]
    refine ⟨_, rfl, h.frame.trans (setElemV_frame hwhole hport), h.elems.put hlo ha fun j _ => ?_, fun r hr => ?_⟩
    · exact elemV_setElemV hwhole (hvm ▸ hv) (hvm ▸ perReg_pos hlen) hport
    · refine (rv_setElemV_ne hwhole hport ?_).trans (h.rest r hr)
      rw [hvm]
      generalize i / perReg (vmN s) (ewN s) = q at hq
      omega
  · rw [if_neg ha]
    exact ⟨t, rfl, h.frame, h.elems.skip ha, h.rest⟩

theorem RingSum.whole {s t : State} {k : BitVec 3} {p i : Nat} {val : Nat → Nat} (h : RingSum s k p val i t) (hd : s.thr.hid.damaged = []) :
    t.thr.hid.damaged = [] := by
  rw [h.frame]
  show (chargeWord (ewN s) s).thr.hid.damaged = []
  rw [(chargeWord_frame (ewN s) s).1]
  exact hd

theorem RingSum.start {s : State} (k : BitVec 3) {p : Nat} (val : Nat → Nat) {l : List RingSlot} (hring : ring s p = l ++ [freshSlot s]) :
    RingSum s k p val (vsN s) (chargeWord (ewN s) s) := by
  obtain ⟨-, hslot, -⟩ := chargeWord_frame (ewN s) s
  have hsame : ∀ q, ring (chargeWord (ewN s) s) q = ring s q := fun q => congrArg (fun sl : Slot => SMap.get [] sl.rings q) hslot
  refine ⟨OnlyRings.refl _, fun q _ => hsame q, freshSlot s, ?_, rfl, rfl, rfl, ?_⟩
  · rw [hsame, hring, List.dropLast_concat]
  · intro j hj
    rw [show elemOf (freshSlot s).data.toNat (ewN s) j = 0 by simp [freshSlot, elemOf, bits]]
    exact Filled.start s k _ val (fun _ => 0) j hj

theorem RingSum.step {s t : State} {k : BitVec 3} {p i : Nat} {val : Nat → Nat} (hd : s.thr.hid.damaged = []) (hv : vmN s ≤ 16384)
    (ht : isTrio s = true) (hw : ringWriter p = s.cur.2) (hlen : i < groupLen s (ewN s) 1) (hlo : vsN s ≤ i) (h : RingSum s k p val i t) :
    ∃ u, putElement s k (28 + p) val i t = .ok u ∧ RingSum s k p val (i + 1) u := by
  have hwhole := h.whole hd
  obtain ⟨r, hring, hopen, hvl, hvt, hfill⟩ := h.slot
  unfold putElement
  by_cases ha : activeAt s k.toNat i = true
  · obtain ⟨-, hslot, hcur, -⟩ := chargeWord_frame (ewN s) s
    have hi : i < perReg (vmN s) (ewN s) := by
      unfold groupLen at hlen
      omega
    have hvm : vmN t = vmN s := by
      rw [h.frame]
      exact chargeWord_vmN s
    have htrio : isTrio t = true := by
      rw [h.frame]
      exact (congrArg (fun sl : Slot => decide (sl.cfg = 1)) hslot).trans ht
    have hwt : ringWriter p = t.cur.2 := by
      rw [h.frame]
      exact hw.trans (congrArg Prod.snd hcur.symm)
    rw [if_pos ha, setElemV_port hwhole (hvm ▸ hi) htrio hwt hring hopen]
    refine ⟨_, rfl, h.frame.trans (onlyRings_setRing ..), fun q hq => (ring_setRing_ne hq _ _).trans (h.others q hq),
      putSlot (ewN s) i (val i) r, ring_setRing_same .., hopen, hvl, hvt, hfill.put hlo ha fun j _ => ?_⟩
    exact elemOf_putSlot r hv hi
  · rw [if_neg ha]
    exact ⟨t, rfl, h.frame, h.others, r, hring, hopen, hvl, hvt, hfill.skip ha⟩

end Sys2Proof.Machine
end

section
/-! PROOFS. `vadd` at the rings of a TRIO slot (O11): what turns it away, what holds it up, and what it leaves when it runs. -/

namespace Sys2Proof.Machine

/-! ## The sum (R117) -/

theorem intElem_emod (fmt u : Nat) : intElem fmt u % (2 ^ fmtEw fmt : Int) = (u : Int) % 2 ^ fmtEw fmt := by
  unfold intElem toSigned
  split
  · split
    · rfl
    · exact Int.sub_emod_right ..
  · rfl

theorem onInts_add (fmt u v : Nat) : onInts (fun a b => a + b) fmt (fmtEw fmt) u v = (u + v) % 2 ^ fmtEw fmt := by
  unfold onInts ofSigned
  rw [Int.add_emod, intElem_emod, intElem_emod, ← Int.add_emod]
  exact_mod_cast Int.toNat_natCast ((u + v) % 2 ^ fmtEw fmt)

/-- The code of element j of the word. -/
def addAt (s : State) (x : BitVec 1) (a b : BitVec 5) (j : Nat) : Nat :=
  onInts (fun a b => a + b) (fmtN s) (ewN s) (elemV s a.toNat (ewN s) j) (bElem s x b (ewN s) j)

theorem addAt_eq (s : State) (x : BitVec 1) (a b : BitVec 5) (j : Nat) :
    addAt s x a b j = (elemV s a.toNat (ewN s) j + operandB s x b j) % 2 ^ ewN s := by
  unfold addAt
  rw [bElem_eq]
  exact onInts_add ..

/-! ## The word and its checks -/

/-- What the word needs. -/
def sumNeed (w : BitVec 32) (x : BitVec 1) (d a b : BitVec 5) (k : BitVec 3) (s : State) : Need :=
  { word := w, xr := bRegs x b, vt := true, fmtOk := intOk s, vr := [grp s a] ++ bGroup s x b ++ [], vw := [grp s d], kr := kmRead k,
    km := k.toNat, queued := true }

/-- The word's body at a state in which it starts. -/
def sumBody (x : BitVec 1) (d a b : BitVec 5) (k : BitVec 3) (t : State) : Res := stripWord (ewN t) (putElement t k d.toNat (addAt t x a b)) t

theorem exec_vadd (x : BitVec 1) (d a b : BitVec 5) (k : BitVec 3) (h : BitVec 2) (s : State) :
    exec (.vadd x d a b k h) s = .next (run (sumNeed (encode (.vadd x d a b k h)) x d a b k s) s (sumBody x d a b k)) := rfl

theorem majorOf_vadd (x : BitVec 1) (d a b : BitVec 5) (k : BitVec 3) (h : BitVec 2) :
    0x30 ≤ majorOf (encode (.vadd x d a b k h)) ∧ majorOf (encode (.vadd x d a b k h)) ≤ 0x37 := by
  rw [majorOf_eq_fld]
  simp (disch := decide) only [encode, fld_or, fld_put_apart, BitVec.or_zero]
  revert x
  decide

/-- Where the claim about ring traffic begins: the thread undisturbed but for what stands behind a full ring, an integer format, and groups
that keep R9 where they are no ports. -/
structure RingReady (s : State) (x : BitVec 1) (d a b : BitVec 5) : Prop where
  chain : s.slot.chain = none
  idle : s.thr.hid.active = false
  whole : s.thr.hid.damaged = []
  nostep : (dbgOf s).sstep = false
  vmax : vmN s ≤ 16384
  room : s.thr.pnd.replay.length < 128
  trio : isTrio s = true
  vt : fmtN s ≠ 0
  int : intOk s = true
  scalar : x = 1 → NoPort s [b.toNat]
  dst : d.toNat < 28 → GroupOk s (d.toNat, grpN s)
  srcA : a.toNat < 28 → GroupOk s (a.toNat, grpN s)
  srcB : x ≠ 1 → b.toNat < 28 → GroupOk s (b.toNat, grpN s)
  fits : vlN s ≤ groupLen s (ewN s) (grpN s)

/-- The word reads the ring at port p. -/
def readsPort (x : BitVec 1) (a b : BitVec 5) (p : Nat) : Prop := isPort a p ∨ (x ≠ 1 ∧ isPort b p)

/-- The word names a ring against R206. -/
def ringsBad (s : State) (x : BitVec 1) (d a b : BitVec 5) : Prop :=
  (∃ p, readsPort x a b p ∧ (ringReader p ≠ s.cur.2 ∨ grpN s ≠ 1 ∨ isPort d p)) ∨ ∃ p, isPort d p ∧ (ringWriter p ≠ s.cur.2 ∨ grpN s ≠ 1)

/-- The word may stand behind a full ring (R200). -/
def ringQueues (s : State) (x : BitVec 1) (a b : BitVec 5) : Prop := (∀ p, ¬ readsPort x a b p) ∧ queuedAhead s < 64

/-- A ring or the words before it hold the word up (R207). -/
def ringStuck (s : State) (x : BitVec 1) (d a b : BitVec 5) : Prop :=
  (∃ p, readsPort x a b p ∧ headSlot s p = none) ∨
    (∃ p, isPort d p ∧ openSlot (ring s p) = none ∧ 4 ≤ (ring s p).length ∧ ¬ ringQueues s x a b) ∨ (queuedAhead s ≠ 0 ∧ ¬ ringQueues s x a b)

/-- A group is named against R9 or R206 only at a ring. -/
theorem groupBad_iff {s : State} {r : BitVec 5} (ht : isTrio s = true) (hr : r.toNat < 28 → GroupOk s (r.toNat, grpN s)) (write : Bool) :
    groupBad s write (grp s r) = true ↔ ∃ p, isPort r p ∧ ((if write then ringWriter p else ringReader p) ≠ s.cur.2 ∨ grpN s ≠ 1) := by
  rcases Nat.lt_or_ge r.toNat 28 with hlow | hport
  · rw [show groupBad s write (grp s r) = false from groupBad_ok (hr hlow)]
    refine ⟨nofun, ?_⟩
    rintro ⟨p, hp, -⟩
    unfold isPort at hp
    omega
  · have hone : ∀ P : Nat → Prop, (∃ p, isPort r p ∧ P p) ↔ P (r.toNat - 28) := fun P => by
      refine ⟨?_, fun h => ⟨_, (Nat.add_sub_cancel' hport).symm, h⟩⟩
      rintro ⟨p, hp, h⟩
      rwa [show r.toNat - 28 = p by unfold isPort at hp; omega]
    have hpos := grpN_pos s
    have hlt := r.isLt
    rw [hone]
    unfold groupBad grp
    by_cases hg : grpN s = 1
    · have hend : ¬ 32 < r.toNat + 1 := by omega
      have hin : 28 < r.toNat + 1 := by omega
      simp [hg, ht, hend, hin, Nat.not_lt.mpr hport, Nat.mod_one]
    · have hin : 28 < r.toNat + grpN s := by omega
      simp [hg, ht, hin]

section
variable {s : State} {x : BitVec 1} {d a b : BitVec 5} {w : BitVec 32} {k : BitVec 3}

theorem vr_eq : (sumNeed w x d a b k s).vr = grp s a :: if x = 1 then [] else [grp s b] := by
  unfold sumNeed bGroup
  split <;> rfl

/-- Something holds of a source if it holds of A, or of B in a word with no scalar operand. -/
theorem any_vr (f : Nat × Nat → Bool) : (sumNeed w x d a b k s).vr.any f = true ↔ f (grp s a) = true ∨ (x ≠ 1 ∧ f (grp s b) = true) := by
  rw [vr_eq, List.any_cons, Bool.or_eq_true]
  by_cases hx : x = 1
  · rw [if_pos hx]
    exact or_congr_right ⟨nofun, fun h => absurd hx h.1⟩
  · rw [if_neg hx, List.any_cons, List.any_nil, Bool.or_false]
    exact or_congr_right ⟨fun h => ⟨hx, h⟩, fun h => h.2⟩

theorem mem_reads (ht : isTrio s = true) {p : Nat} :
    p ∈ portsOf s ((sumNeed w x d a b k s).vr.map Prod.fst) ↔ readsPort x a b p := by
  have h := any_vr (s := s) (w := w) (x := x) (d := d) (a := a) (b := b) (k := k) (fun g => decide (g.1 = 28 + p))
  simp only [decide_eq_true_eq] at h
  rw [mem_portsOf, and_iff_right ht, List.mem_map]
  refine Iff.trans ?_ h
  rw [List.any_eq_true]
  simp only [decide_eq_true_eq]

theorem mem_writes (ht : isTrio s = true) {p : Nat} : p ∈ portsOf s ((sumNeed w x d a b k s).vw.map Prod.fst) ↔ isPort d p := by
  unfold sumNeed grp isPort
  rw [mem_portsOf]
  simp [ht, eq_comm]

theorem noPort_scalar (h : RingReady s x d a b) : NoPort s ((sumNeed w x d a b k s).xr ++ (sumNeed w x d a b k s).xw) := by
  show NoPort s (bRegs x b ++ [])
  unfold bRegs
  split
  · next hx => exact h.scalar hx
  · exact noPort_nil s

theorem regsBad_iff (h : RingReady s x d a b) : regsBad s (sumNeed w x d a b k s) = true ↔ ringsBad s x d a b := by
  have hA := groupBad_iff (r := a) h.trio h.srcA false
  have hD := groupBad_iff (r := d) h.trio h.dst true
  have hB := fun hx : x ≠ 1 => groupBad_iff (r := b) h.trio (h.srcB hx) false
  have hsame : (sumNeed w x d a b k s).vr.any (fun g => 28 ≤ g.1 && (sumNeed w x d a b k s).vw.any (fun h => h.1 = g.1)) = true ↔
      ∃ p, readsPort x a b p ∧ isPort d p := by
    have hone : ∀ r : BitVec 5, (decide (28 ≤ (grp s r).1) && (sumNeed w x d a b k s).vw.any (fun h => h.1 = (grp s r).1)) = true ↔
        ∃ p, isPort r p ∧ isPort d p := fun r => by
      have hd : (sumNeed w x d a b k s).vw.any (fun h => h.1 = (grp s r).1) = decide (d.toNat = r.toNat) := Bool.or_false _
      rw [hd, Bool.and_eq_true, decide_eq_true_iff, decide_eq_true_iff]
      unfold isPort
      exact ⟨fun ⟨hp, hd⟩ => ⟨_, (Nat.add_sub_cancel' hp).symm, hd.trans (Nat.add_sub_cancel' hp).symm⟩,
        fun ⟨p, hr, hd⟩ => ⟨(Nat.le_add_right 28 p).trans (Nat.le_of_eq hr.symm), hd.trans hr.symm⟩⟩
    rw [any_vr, hone, hone]
    exact ⟨fun h => h.elim (fun ⟨p, hp, hd⟩ => ⟨p, .inl hp, hd⟩) fun ⟨hx, p, hp, hd⟩ => ⟨p, .inr ⟨hx, hp⟩, hd⟩,
      fun ⟨p, hp, hd⟩ => hp.elim (fun hp => .inl ⟨p, hp, hd⟩) fun hp => .inr ⟨hp.1, p, hp.2, hd⟩⟩
  have hsrc : (sumNeed w x d a b k s).vr.any (groupBad s false) = true ↔ ∃ p, readsPort x a b p ∧ (ringReader p ≠ s.cur.2 ∨ grpN s ≠ 1) := by
    rw [any_vr, hA]
    constructor
    · rintro (⟨p, hp, hbad⟩ | ⟨hx, hb⟩)
      · exact ⟨p, .inl hp, hbad⟩
      · obtain ⟨p, hp, hbad⟩ := (hB hx).mp hb
        exact ⟨p, .inr ⟨hx, hp⟩, hbad⟩
    · rintro ⟨p, hp | ⟨hx, hp⟩, hbad⟩
      · exact .inl ⟨p, hp, hbad⟩
      · exact .inr ⟨hx, (hB hx).mpr ⟨p, hp, hbad⟩⟩
  have hdst : (sumNeed w x d a b k s).vw.any (groupBad s true) = true ↔ ∃ p, isPort d p ∧ (ringWriter p ≠ s.cur.2 ∨ grpN s ≠ 1) := by
    exact (Bool.eq_iff_iff.mp (Bool.or_false (groupBad s true (grp s d)))).trans hD
  have hnone : (!(sumNeed w x d a b k s).regOk) = false ∧ (sumNeed w x d a b k s).mr.any (mGroupBad s) = false ∧
      (sumNeed w x d a b k s).mw.any (mGroupBad s) = false := ⟨rfl, rfl, rfl⟩
  unfold regsBad ringsBad
  rw [xPortBad_none (noPort_scalar h), hnone.1, hnone.2.1, hnone.2.2, h.trio]
  simp only [Bool.false_or, Bool.or_false, Bool.true_and, Bool.or_eq_true, hsrc, hdst, hsame]
  constructor
  · rintro ((⟨p, hp, hbad⟩ | hbad) | ⟨p, hp, hd⟩)
    · exact .inl ⟨p, hp, or_assoc.mp (.inl hbad)⟩
    · exact .inr hbad
    · exact .inl ⟨p, hp, .inr (.inr hd)⟩
  · rintro (⟨p, hp, hbad | hbad | hd⟩ | hbad)
    · exact .inl (.inl ⟨p, hp, .inl hbad⟩)
    · exact .inl (.inl ⟨p, hp, .inr hbad⟩)
    · exact .inr ⟨p, hp, hd⟩
    · exact .inl (.inr hbad)

theorem mayQueue_iff (h : RingReady s x d a b) (hw : 0x30 ≤ majorOf w ∧ majorOf w ≤ 0x37) :
    mayQueue s (sumNeed w x d a b k s) = true ↔ ringQueues s x a b := by
  unfold mayQueue ringQueues
  have hports : (portsOf s ((sumNeed w x d a b k s).vr.map Prod.fst)).isEmpty = true ↔ ∀ p, ¬ readsPort x a b p := by
    rw [List.isEmpty_iff, List.eq_nil_iff_forall_not_mem]
    exact forall_congr' fun p => not_congr (mem_reads h.trio)
  simp only [Bool.and_eq_true, hports, decide_eq_true_eq, h.nostep]
  simp [sumNeed, hw.1, hw.2]

theorem mustWait_iff (h : RingReady s x d a b) (hw : 0x30 ≤ majorOf w ∧ majorOf w ≤ 0x37) :
    mustWait s (sumNeed w x d a b k s) = true ↔ ringStuck s x d a b := by
  have hx := noPort_scalar (w := w) (k := k) h
  have hroom : ((sumNeed w x d a b k s).queued && decide (128 ≤ s.thr.pnd.replay.length)) = false := by
    rw [decide_eq_false (by have := h.room; omega), Bool.and_false]
  have hq := mayQueue_iff (k := k) h hw
  have hhead : ∀ p, (match (ring s p).head? with | some r => !r.committed | none => true) = true ↔ headSlot s p = none := fun p => by
    unfold headSlot
    cases ring s p with
    | nil => exact ⟨fun _ => rfl, fun _ => rfl⟩
    | cons r l => cases hr : r.committed <;> simp [hr]
  unfold mustWait ringStuck
  rw [portsOf_none hx.left, portsOf_none hx.right, hroom]
  have hqueued : (sumNeed w x d a b k s).queued = true := rfl
  simp only [Bool.or_eq_true, Bool.and_eq_true, List.any_eq_true, mem_reads h.trio, mem_writes h.trio, List.any_nil, Bool.false_or,
    decide_eq_true_eq, Option.isNone_iff_eq_none, Bool.not_eq_true', ← Bool.not_eq_true, hq, hqueued, Bool.false_eq_true, or_false, bne_iff_ne,
    and_assoc, or_assoc, true_or, true_and]
  exact or_congr_left (exists_congr fun p => and_congr_right fun _ => hhead p)

/-- The shape that a ring's head breaks, if it does. -/
def shapeAt (s : State) (p : Nat) : Option (Nat × Nat) := (ring s p).head?.bind fun r => if r.vl = vlN s then none else some (r.vl, p)

theorem shapeAt_head {p : Nat} {r : RingSlot} (h : headSlot s p = some r) : shapeAt s p = if r.vl = vlN s then none else some (r.vl, p) := by
  unfold headSlot at h
  unfold shapeAt
  split at h
  · cases h
  · next q l hl =>
    split at h
    · cases h
      rw [hl]
      rfl
    · cases h

/-- A search of the ports that two registers name. -/
theorem findSome_portsOf_two {α : Type} (ht : isTrio s = true) (f : Nat → Option α) (m n : Nat) :
    (portsOf s [m, n]).findSome? f = (if 28 ≤ m then f (m - 28) else none).or (if 28 ≤ n then f (n - 28) else none) := by
  unfold portsOf
  rw [if_pos ht]
  by_cases hm : 28 ≤ m <;> by_cases hn : 28 ≤ n
  · by_cases he : n - 28 = m - 28
    · simp [hm, hn, he, List.eraseDups_cons]
    · simp [hm, hn, he, List.eraseDups_cons, List.findSome?_cons]
      cases f (m - 28) <;> cases f (n - 28) <;> rfl
  · simp [hm, hn, List.eraseDups_cons]
  · simp [hm, hn, List.eraseDups_cons]
  · simp [hm, hn]

/-- Operand A's ring is looked at before operand B's. -/
theorem shapeBad_eq (ht : isTrio s = true) : shapeBad s (sumNeed w x d a b k s) =
    (if 28 ≤ a.toNat then shapeAt s (a.toNat - 28) else none).or (if x ≠ 1 ∧ 28 ≤ b.toNat then shapeAt s (b.toNat - 28) else none) := by
  have hshape : shapeBad s (sumNeed w x d a b k s) = (portsOf s ((sumNeed w x d a b k s).vr.map Prod.fst)).findSome? (shapeAt s) := by
    unfold shapeBad
    refine congrArg (fun f => List.findSome? f _) (funext fun p => ?_)
    unfold shapeAt
    cases (ring s p).head? <;> rfl
  rw [hshape, vr_eq]
  by_cases hx : x = 1
  · have hb : (if x ≠ 1 ∧ 28 ≤ b.toNat then shapeAt s (b.toNat - 28) else none) = none := if_neg fun h => h.1 hx
    rw [if_pos hx, hb, Option.or_none]
    refine (congrArg (fun l => l.findSome? (shapeAt s)) (portsOf_one ht a.toNat)).trans ?_
    split
    · exact List.findSome?_singleton
    · rfl
  · have hb : (if x ≠ 1 ∧ 28 ≤ b.toNat then shapeAt s (b.toNat - 28) else none) = if 28 ≤ b.toNat then shapeAt s (b.toNat - 28) else none :=
      if_congr (and_iff_right hx) rfl rfl
    rw [if_neg hx, hb]
    exact findSome_portsOf_two ht (shapeAt s) a.toNat b.toNat

/-! ## The gate -/

theorem gate_sum (h : RingReady s x d a b) : gate (sumNeed w x d a b k s) s =
    if regsBad s (sumNeed w x d a b k s) then .error (takeTrap w 0x04 s.thr.pc (w.setWidth 64) 0 s)
    else if mustWait s (sumNeed w x d a b k s) then .error (waitHere s)
    else match shapeBad s (sumNeed w x d a b k s) with
      | some y => .error (takeTrap w 0x06 s.thr.pc (w64 y.1) (w64 y.2) { s with thr.sr.vstart := 0 })
      | none => .ok (reserve s (sumNeed w x d a b k s)) := by
  have hbody : inBody s = false := by simp [inBody, h.idle]
  have hgraft : graftBreak s (sumNeed w x d a b k s) = false := by simp [graftBreak, h.chain]
  have hvt : ((sumNeed w x d a b k s).vt && decide (fmtN s = 0)) = false := by rw [decide_eq_false h.vt, Bool.and_false]
  have hfmt : (sumNeed w x d a b k s).fmtOk = true := h.int
  have hrole : (sumNeed w x d a b k s).roleOk = true := rfl
  unfold gate
  simp only [hbody, hgraft, hrole, hfmt, hvt, h.idle, Bool.false_and, Bool.and_false, Bool.not_true, Bool.false_eq_true, if_false]
  refine if_congr Iff.rfl rfl (if_congr Iff.rfl rfl ?_)
  cases shapeBad s (sumNeed w x d a b k s) <;> rfl

/-- The word turned away or held up by its checks, once the words before it have completed. -/
theorem run_sum_error {t : State} {body : State → Res} (hg : gate (sumNeed w x d a b k s) s = .error t) :
    run (sumNeed w x d a b k s) s body = if queuedAhead s = 0 then t else waitHere s := by
  unfold run
  rw [hg]
  rfl

theorem run_sum_bad {body : State → Res} (h : RingReady s x d a b) (hbad : ringsBad s x d a b) : run (sumNeed w x d a b k s) s body =
    if queuedAhead s = 0 then takeTrap w 0x04 s.thr.pc (w.setWidth 64) 0 s else { s with thr.pnd.blocked := true } :=
  run_sum_error ((gate_sum h).trans (if_pos ((regsBad_iff h).mpr hbad)))

theorem run_sum_stuck {body : State → Res} (h : RingReady s x d a b) (hw : 0x30 ≤ majorOf w ∧ majorOf w ≤ 0x37) (hbad : ¬ ringsBad s x d a b)
    (hstuck : ringStuck s x d a b) : run (sumNeed w x d a b k s) s body = { s with thr.pnd.blocked := true } := by
  have hgate : gate (sumNeed w x d a b k s) s = .error (waitHere s) :=
    (gate_sum h).trans ((if_neg fun hr => hbad ((regsBad_iff h).mp hr)).trans (if_pos ((mustWait_iff h hw).mpr hstuck)))
  rw [run_sum_error hgate]
  exact ite_self _

/-- Past the checks of the registers and the rings' filling, the heads' shape decides. -/
theorem gate_sum_free (h : RingReady s x d a b) (hw : 0x30 ≤ majorOf w ∧ majorOf w ≤ 0x37) (hbad : ¬ ringsBad s x d a b) (hfree : ¬ ringStuck s x d a b) :
    gate (sumNeed w x d a b k s) s = match shapeBad s (sumNeed w x d a b k s) with
      | some y => .error (takeTrap w 0x06 s.thr.pc (w64 y.1) (w64 y.2) { s with thr.sr.vstart := 0 })
      | none => .ok (reserve s (sumNeed w x d a b k s)) :=
  (gate_sum h).trans ((if_neg fun hr => hbad ((regsBad_iff h).mp hr)).trans (if_neg fun hm => hfree ((mustWait_iff h hw).mp hm)))

/-- The head of a ring that the word reads carries another length than vl (R208). -/
def oddRing (s : State) (x : BitVec 1) (a b : BitVec 5) (p : Nat) : Prop := readsPort x a b p ∧ ∃ r, headSlot s p = some r ∧ r.vl ≠ vlN s

/-- A ring that the word reads shows its shape. -/
theorem shapeAt_read (hfree : ¬ ringStuck s x d a b) {p : Nat} (hp : readsPort x a b p) (hodd : ¬ oddRing s x a b p) : shapeAt s p = none := by
  cases hr : headSlot s p with
  | none => exact absurd (.inl ⟨p, hp, hr⟩) hfree
  | some r =>
    rw [shapeAt_head hr]
    by_contra hne
    exact hodd ⟨hp, r, hr, fun hvl => hne (if_pos hvl)⟩

theorem shapeAt_odd {p : Nat} {r : RingSlot} (hodd : oddRing s x a b p) (hr : headSlot s p = some r) : shapeAt s p = some (r.vl, p) := by
  obtain ⟨-, r', hr', hvl⟩ := hodd
  cases hr'.symm.trans hr
  rw [shapeAt_head hr, if_neg hvl]

theorem shapeBad_none (ht : isTrio s = true) (hfree : ¬ ringStuck s x d a b) (hodd : ∀ p, ¬ oddRing s x a b p) :
    shapeBad s (sumNeed w x d a b k s) = none := by
  have hA : (if 28 ≤ a.toNat then shapeAt s (a.toNat - 28) else none) = none := by
    split
    · next h => exact shapeAt_read hfree (.inl (Nat.add_sub_cancel' h).symm) (hodd _)
    · rfl
  have hB : (if x ≠ 1 ∧ 28 ≤ b.toNat then shapeAt s (b.toNat - 28) else none) = none := by
    split
    · next h => exact shapeAt_read hfree (.inr ⟨h.1, (Nat.add_sub_cancel' h.2).symm⟩) (hodd _)
    · rfl
  rw [shapeBad_eq ht, hA, hB]
  rfl

theorem shapeBad_some (ht : isTrio s = true) (hfree : ¬ ringStuck s x d a b) {p : Nat} {r : RingSlot} (hodd : oddRing s x a b p)
    (hr : headSlot s p = some r) (hfirst : isPort b p → x ≠ 1 → ∀ q, isPort a q → ¬ oddRing s x a b q ∨ q = p) :
    shapeBad s (sumNeed w x d a b k s) = some (r.vl, p) := by
  have hat := shapeAt_odd hodd hr
  have hfrom : ∀ c : BitVec 5, isPort c p → 28 ≤ c.toNat ∧ c.toNat - 28 = p := fun c hc => by
    unfold isPort at hc
    omega
  rw [shapeBad_eq ht]
  rcases hodd.1 with ha | ⟨hx, hb⟩
  · rw [if_pos (hfrom a ha).1, (hfrom a ha).2, hat]
    rfl
  · have hB : (if x ≠ 1 ∧ 28 ≤ b.toNat then shapeAt s (b.toNat - 28) else none) = some (r.vl, p) :=
      (if_pos ⟨hx, (hfrom b hb).1⟩).trans ((congrArg (shapeAt s) (hfrom b hb).2).trans hat)
    rw [hB]
    split
    · next h =>
      rcases hfirst hb hx (a.toNat - 28) (Nat.add_sub_cancel' h).symm with hno | heq
      · rw [shapeAt_read hfree (.inl (Nat.add_sub_cancel' h).symm) hno]
        rfl
      · rw [heq, hat]
        rfl
    · rfl

/-- A word that reads a ring runs only with no word of its thread behind a full ring. -/
theorem ahead_zero (hfree : ¬ ringStuck s x d a b) {p : Nat} (hp : readsPort x a b p) : queuedAhead s = 0 := by
  by_contra hne
  exact hfree (.inr (.inr ⟨hne, fun hq => hq.1 p hp⟩))

theorem run_sum_odd {body : State → Res} (h : RingReady s x d a b) (hw : 0x30 ≤ majorOf w ∧ majorOf w ≤ 0x37) (hbad : ¬ ringsBad s x d a b)
    (hfree : ¬ ringStuck s x d a b) {p : Nat} {r : RingSlot} (hodd : oddRing s x a b p)
    (hr : headSlot s p = some r) (hfirst : isPort b p → x ≠ 1 → ∀ q, isPort a q → ¬ oddRing s x a b q ∨ q = p) :
    run (sumNeed w x d a b k s) s body = takeTrap w 0x06 s.thr.pc (w64 r.vl) (w64 p) { s with thr.sr.vstart := 0 } := by
  have hgate : gate (sumNeed w x d a b k s) s = .error (takeTrap w 0x06 s.thr.pc (w64 r.vl) (w64 p) { s with thr.sr.vstart := 0 }) := by
    rw [gate_sum_free h hw hbad hfree, shapeBad_some h.trio hfree hodd hr hfirst]
  rw [run_sum_error hgate]
  exact if_pos (ahead_zero hfree hodd.1)

/-! ## What the word leaves when it runs -/

/-- A strip word whose elements all go through. -/
theorem stripWord_all {f : Nat → State → El} (P : Nat → State → Prop) {t : State} (hd : ∀ i u, P i u → u.thr.hid.damaged = [])
    (h0 : P (vsN t) (chargeWord (ewN t) t)) (h : ∀ i u, vsN t ≤ i → i < vlN t → P i u → ∃ v, f i u = .ok v ∧ P (i + 1) v) :
    ∃ u, stripWord (ewN t) f t = .done { u with thr.sr.vstart := 0 } ∧ P (max (vsN t) (vlN t)) u := by
  obtain ⟨u, hu, hp⟩ := sweep_all P hd (vlN t - vsN t) (vsN t) (chargeWord (ewN t) t) h0 fun i v hlo hhi hi => h i v hlo (by omega) hi
  refine ⟨u, ?_, (show max (vsN t) (vlN t) = vsN t + (vlN t - vsN t) by omega) ▸ hp⟩
  unfold stripWord
  rw [hu]
  rfl

/-- Nothing of a state differs from the word's start but its share charge, vector registers, their tags and rings. -/
def SumFrame (s u : State) : Prop :=
  u = { chargeWord (ewN s) s with thr.v := u.thr.v, thr.hid.units := u.thr.hid.units, slot.rings := u.slot.rings }

/-- The word's end: its rings moved on and its place in the replay queue. -/
def sumEnd (n : Need) (u : State) : State := capture n.word (settle n { u with thr.sr.vstart := 0 })

theorem captured_sum {u y : State} (hu : SumFrame s u) (hy : OnlyRings { u with thr.sr.vstart := 0 } y) : captured w y = captured w s := by
  obtain ⟨hthr, -, hcur, -, hchk, -⟩ := chargeWord_frame (ewN s) s
  rw [hy, hu]
  simp only [captured, hthr, hcur, hchk]

theorem frame_sum {u y : State} (hu : SumFrame s u) (hy : OnlyRings { u with thr.sr.vstart := 0 } y) :
    capture w y = { chargeWord (ewN s) s with
      thr.v := y.thr.v, thr.hid.units := y.thr.hid.units, thr.sr.vstart := 0, thr.pnd.replay := s.thr.pnd.replay ++ [captured w s]
      slot.rings := y.slot.rings } := by
  have hrep : u.thr.pnd.replay = s.thr.pnd.replay := by
    rw [hu]
    show (chargeWord (ewN s) s).thr.pnd.replay = _
    rw [(chargeWord_frame (ewN s) s).1]
  unfold capture
  rw [captured_sum hu hy]
  have hyrep : y.thr.pnd.replay = s.thr.pnd.replay := by
    rw [hy]
    exact hrep
  rw [hyrep]
  generalize captured w s = c
  rw [hy]
  generalize y.slot.rings = R
  rw [hu]

theorem run_sum_done {s₀ u : State} {body : State → Res} (h : RingReady s x d a b) (hgate : gate (sumNeed w x d a b k s) s = .ok s₀)
    (hwhole : s₀.thr.hid.damaged = []) (hb : body s₀ = .done { u with thr.sr.vstart := 0 }) (hu : SumFrame s u)
    (hrings : OnlyRings { u with thr.sr.vstart := 0 } (settle (sumNeed w x d a b k s) { u with thr.sr.vstart := 0 })) :
    run (sumNeed w x d a b k s) s body = retired w (s.thr.pc + 4) (sumEnd (sumNeed w x d a b k s) u) := by
  obtain ⟨hthr, -, hcur, hdbg, -⟩ := chargeWord_frame (ewN s) s
  have hframe := frame_sum (w := w) hu hrings
  have hend : sumEnd (sumNeed w x d a b k s) u = capture w (settle (sumNeed w x d a b k s) { u with thr.sr.vstart := 0 }) := rfl
  have hidle : (sumEnd (sumNeed w x d a b k s) u).thr.hid.active = false := by
    rw [hend, hframe]
    show (chargeWord (ewN s) s).thr.hid.active = false
    rw [hthr]
    exact h.idle
  have hstep : (dbgOf (sumEnd (sumNeed w x d a b k s) u)).sstep = false := by
    rw [hend, hframe]
    show (SMap.get DbgBlk.reset (chargeWord (ewN s) s).dev.dbg (3 * (chargeWord (ewN s) s).cur.1 + (chargeWord (ewN s) s).cur.2)).sstep = false
    rw [hdbg, hcur]
    exact h.nostep
  have hpc : u.thr.pc = s.thr.pc := by
    rw [hu]
    show (chargeWord (ewN s) s).thr.pc = _
    rw [hthr]
  have hdamage : damageRead s₀ (sumNeed w x d a b k s) = none := by simp [damageRead, hwhole]
  have hqueue : ∀ t, behindQueue s s₀ (.done t) = .done t := fun t => by
    unfold behindQueue
    split <;> rfl
  unfold run
  rw [hgate]
  dsimp only
  rw [hdamage]
  dsimp only
  rw [hb, hqueue]
  unfold finish
  dsimp only
  rw [enqueue_capture rfl]
  exact (congrArg (fun p => retire w (p + 4) (sumEnd (sumNeed w x d a b k s) u)) hpc).trans (retire_calm hidle hstep)

/-- Opening a slot changes nothing of the share charge. -/
theorem chargeWord_setRing (p : Nat) (l : List RingSlot) : chargeWord (ewN s) (setRing p l s) = setRing p l (chargeWord (ewN s) s) := by
  have hbeats : ∀ n, chargeBeats n (setRing p l s) = setRing p l (chargeBeats n s) := fun n => by
    unfold chargeBeats
    dsimp only
    rw [show launchOf (setRing p l s) = launchOf s from rfl]
    cases launchOf s <;> rfl
  unfold chargeWord
  dsimp only
  rw [hbeats]
  exact (apply_ite (setRing p l) _ _ _).symm

/-- Opening a slot changes no element that the word reads. -/
theorem elemV_setRing {c : BitVec 5} {p j : Nat} (l : List RingSlot) (ht : isTrio s = true) (hlow : c.toNat < 28 → GroupOk s (c.toNat, grpN s))
    (hport : ∀ q, isPort c q → ringReader q = s.cur.2 ∧ grpN s = 1 ∧ q ≠ p) (hj : j < groupLen s (ewN s) (grpN s)) :
    elemV (setRing p l s) c.toNat (ewN s) j = elemV s c.toNat (ewN s) j := by
  have hq := div_lt_group hj
  have hrv : rv (setRing p l s) (c.toNat + j / perReg (vmN s) (ewN s)) = rv s (c.toNat + j / perReg (vmN s) (ewN s)) := by
    generalize j / perReg (vmN s) (ewN s) = q at hq
    rcases Nat.lt_or_ge c.toNat 28 with h | h
    · have hend := (hlow h).2
      rw [if_pos ht] at hend
      exact rv_low (s := s) (t := setRing p l s) rfl (by simp only at hend; omega)
    · obtain ⟨hr, hg, hne⟩ := hport (c.toNat - 28) (Nat.add_sub_cancel' h).symm
      rw [show c.toNat + q = 28 + (c.toNat - 28) by omega, rv_reader ht hr, rv_reader (s := setRing p l s) ht hr, ring_setRing_ne hne]
  unfold elemV
  show (if perReg (vmN s) (ewN s) = 0 then 0 else _) = _
  exact if_congr Iff.rfl rfl (congrArg (fun v : VReg => elemOf v.toNat (ewN s) (j % perReg (vmN s) (ewN s))) hrv)

/-- A ring that the word may read is its reader's, and not the one it writes. -/
theorem read_port {c : BitVec 5} {p : Nat} (hbad : ¬ ringsBad s x d a b) (hd : isPort d p) (hc : ∀ q, isPort c q → readsPort x a b q) :
    ∀ q, isPort c q → ringReader q = s.cur.2 ∧ grpN s = 1 ∧ q ≠ p := fun q hq => by
  refine ⟨?_, ?_, fun h => hbad (.inl ⟨q, hc q hq, .inr (.inr (h ▸ hd))⟩)⟩
  · by_contra hno
    exact hbad (.inl ⟨q, hc q hq, .inl hno⟩)
  · by_contra hno
    exact hbad (.inl ⟨q, hc q hq, .inr (.inl hno)⟩)

theorem addAt_setRing {p j : Nat} (l : List RingSlot) (h : RingReady s x d a b) (hbad : ¬ ringsBad s x d a b) (hd : isPort d p) (hj : j < vlN s) :
    addAt (setRing p l s) x a b j = addAt s x a b j := by
  have hlen : j < groupLen s (ewN s) (grpN s) := hj.trans_le h.fits
  have hA : elemV (setRing p l s) a.toNat (ewN s) j = elemV s a.toNat (ewN s) j :=
    elemV_setRing l h.trio h.srcA (read_port hbad hd fun q hq => .inl hq) hlen
  have hB : bElem (setRing p l s) x b (ewN s) j = bElem s x b (ewN s) j := by
    unfold bElem
    by_cases hx : x = 1
    · rw [if_pos hx, if_pos hx]
      rfl
    · rw [if_neg hx, if_neg hx]
      exact elemV_setRing l h.trio (h.srcB hx) (read_port hbad hd fun q hq => .inr ⟨hx, hq⟩) hlen
  unfold addAt
  exact congrArg₂ (onInts (fun a b => a + b) (fmtN s) (ewN s)) hA hB

/-- The word runs into registers. -/
theorem run_sum_registers (h : RingReady s x d a b) (hw : 0x30 ≤ majorOf w ∧ majorOf w ≤ 0x37) (hbad : ¬ ringsBad s x d a b) (hfree : ¬ ringStuck s x d a b)
    (hodd : ∀ p, ¬ oddRing s x a b p) (hd : d.toNat < 28) :
    ∃ u, gate (sumNeed w x d a b k s) s = .ok s ∧ sumBody x d a b k s = .done { u with thr.sr.vstart := 0 } ∧
      RegSum s k d.toNat (grpN s) (addAt s x a b) (max (vsN s) (vlN s)) u := by
  have hnone : portsOf s ((sumNeed w x d a b k s).vw.map Prod.fst) = [] := (portsOf_one h.trio d.toNat).trans (if_neg (Nat.not_le.mpr hd))
  obtain ⟨u, hdone, hsum⟩ := stripWord_all (RegSum s k d.toNat (grpN s) (addAt s x a b)) (fun _ _ hi => hi.whole h.whole) (RegSum.start ..)
    fun i u hlo hhi hi => RegSum.step h.whole h.vmax (h.dst hd) (hhi.trans_le h.fits) hlo hi
  refine ⟨u, ?_, hdone, hsum⟩
  rw [gate_sum_free h hw hbad hfree, shapeBad_none h.trio hfree hodd, reserve_no_port hnone]

/-- The ring with the slot that the word opens. -/
def openedRing (s : State) (p : Nat) : List RingSlot := (if (openSlot (ring s p)).isSome then (ring s p).dropLast else ring s p) ++ [freshSlot s]

/-- The word runs into a ring. -/
theorem run_sum_ring {p : Nat} (h : RingReady s x d a b) (hw : 0x30 ≤ majorOf w ∧ majorOf w ≤ 0x37) (hbad : ¬ ringsBad s x d a b)
    (hfree : ¬ ringStuck s x d a b) (hodd : ∀ p, ¬ oddRing s x a b p) (hd : isPort d p) (hvs : vsN s = 0) :
    ∃ u, gate (sumNeed w x d a b k s) s = .ok (setRing p (openedRing s p) s) ∧
      sumBody x d a b k (setRing p (openedRing s p) s) = .done { u with thr.sr.vstart := 0 } ∧
      RingSum (setRing p (openedRing s p) s) k p (addAt (setRing p (openedRing s p) s) x a b) (max (vsN s) (vlN s)) u := by
  have hport : 28 ≤ d.toNat ∧ d.toNat - 28 = p := by
    unfold isPort at hd
    omega
  have hone : portsOf s ((sumNeed w x d a b k s).vw.map Prod.fst) = [p] :=
    (portsOf_one h.trio d.toNat).trans ((if_pos hport.1).trans (congrArg (fun q => [q]) hport.2))
  have hwrite : ringWriter p = s.cur.2 := by
    by_contra hno
    exact hbad (.inr ⟨p, hd, .inl hno⟩)
  have hgrp : grpN s = 1 := by
    by_contra hno
    exact hbad (.inr ⟨p, hd, .inr hno⟩)
  have hfits : vlN s ≤ groupLen s (ewN s) 1 := hgrp ▸ h.fits
  obtain ⟨u, hdone, hsum⟩ := stripWord_all (t := setRing p (openedRing s p) s)
    (f := putElement (setRing p (openedRing s p) s) k (28 + p) (addAt (setRing p (openedRing s p) s) x a b))
    (RingSum (setRing p (openedRing s p) s) k p (addAt (setRing p (openedRing s p) s) x a b)) (fun _ _ hi => hi.whole h.whole)
    (RingSum.start k _ (ring_setRing_same ..))
    fun i u hlo hhi hi => RingSum.step (s := setRing p (openedRing s p) s) h.whole h.vmax h.trio hwrite (hhi.trans_le hfits) hlo hi
  refine ⟨u, ?_, ?_, hsum⟩
  · rw [gate_sum_free h hw hbad hfree, shapeBad_none h.trio hfree hodd, reserve_port hone hvs]
    rfl
  · unfold sumBody
    rw [show d.toNat = 28 + p from hd]
    exact hdone

theorem RegSum.sumFrame {g i : Nat} {val : Nat → Nat} {d : Nat} {u : State} (hu : RegSum s k d g val i u) : SumFrame s u := by
  have h : u = { chargeWord (ewN s) s with thr.v := u.thr.v, thr.hid.units := u.thr.hid.units } := hu.frame
  have hslot : u.slot = (chargeWord (ewN s) s).slot := (congrArg State.slot h).trans rfl
  unfold SumFrame
  rw [hslot]
  exact h

theorem RingSum.sumFrame {p i : Nat} {l : List RingSlot} {val : Nat → Nat} {u : State} (hu : RingSum (setRing p l s) k p val i u) : SumFrame s u := by
  have h : u = { chargeWord (ewN s) (setRing p l s) with slot.rings := u.slot.rings } := hu.frame
  rw [chargeWord_setRing] at h
  have hv : u.thr = (chargeWord (ewN s) s).thr := (congrArg State.thr h).trans rfl
  unfold SumFrame
  rw [hv]
  exact h

/-- What retiring does to the rings of the word. -/
theorem settle_sum {u : State} (h : RingReady s x d a b) (hbad : ¬ ringsBad s x d a b) (hu : SumFrame s u) :
    OnlyRings { u with thr.sr.vstart := 0 } (settle (sumNeed w x d a b k s) { u with thr.sr.vstart := 0 }) ∧ ∀ p,
      (readsPort x a b p → ring (settle (sumNeed w x d a b k s) { u with thr.sr.vstart := 0 }) p = (ring u p).tail) ∧
      (¬ readsPort x a b p → ¬ isPort d p → ring (settle (sumNeed w x d a b k s) { u with thr.sr.vstart := 0 }) p = ring u p) ∧
      (isPort d p → ∀ l r, ring u p = l ++ [r] → r.committed = false →
        ring (settle (sumNeed w x d a b k s) { u with thr.sr.vstart := 0 }) p = l ++ [{ r with committed := true }]) := by
  have hcfg : u.slot.cfg = s.slot.cfg := by
    rw [hu]
    show (chargeWord (ewN s) s).slot.cfg = _
    rw [(chargeWord_frame (ewN s) s).2.1]
  have hports : ∀ l, portsOf { u with thr.sr.vstart := 0 } l = portsOf s l := portsOf_cfg (t := { u with thr.sr.vstart := 0 }) hcfg
  have hwhole : u.thr.hid.damaged = [] := by
    rw [hu]
    show (chargeWord (ewN s) s).thr.hid.damaged = []
    rw [(chargeWord_frame (ewN s) s).1]
    exact h.whole
  have hsettle := settle_rings (t := { u with thr.sr.vstart := 0 }) (n := sumNeed w x d a b k s)
    (by rw [hports]; exact portsOf_none (noPort_scalar (w := w) (k := k) h).left) hwhole
    (by
      rw [hports, show (sumNeed w x d a b k s).vw.map Prod.fst = [d.toNat] from rfl, portsOf_one h.trio]
      split <;> simp)
    (fun p hp => by
      rw [hports, mem_writes h.trio] at hp
      rw [hports, mem_reads h.trio]
      exact fun hr => hbad (.inl ⟨p, hr, .inr (.inr hp)⟩))
  rw [hports, hports] at hsettle
  refine ⟨hsettle.1, fun p => ?_⟩
  have hp := hsettle.2 p
  rw [mem_reads h.trio, mem_writes h.trio] at hp
  exact hp

/-- An element of a group below the ports depends on the registers alone. -/
theorem elemV_low {t u : State} {g j : Nat} (ht : isTrio s = true) (hg : GroupOk s (d.toNat, g)) (hj : j < groupLen s (ewN s) g)
    (hu : vmN u = vmN s) (hm : vmN t = vmN u) (hv : t.thr.v = u.thr.v) : elemV t d.toNat (ewN s) j = elemV u d.toNat (ewN s) j := by
  have hq := div_lt_group hj
  have hend := hg.2
  rw [if_pos ht] at hend
  unfold elemV
  rw [hm, hu]
  refine if_congr Iff.rfl rfl (congrArg (fun v : VReg => elemOf v.toNat (ewN s) (j % perReg (vmN s) (ewN s))) (rv_low hv ?_))
  generalize j / perReg (vmN s) (ewN s) = q at hq
  simp only at hend
  omega

theorem thr_onlyRings {v y : State} (h : OnlyRings v y) : y.thr = v.thr := (congrArg State.thr h).trans rfl

theorem sumEnd_keeps {n : Need} {u : State} (h : OnlyRings { u with thr.sr.vstart := 0 } (settle n { u with thr.sr.vstart := 0 })) :
    (sumEnd n u).thr.v = u.thr.v ∧ vmN (sumEnd n u) = vmN u := by
  have hthr := thr_onlyRings h
  unfold sumEnd
  generalize settle n { u with thr.sr.vstart := 0 } = y at hthr
  unfold capture vmN
  dsimp only
  rw [hthr]
  exact ⟨rfl, rfl⟩

theorem ring_sumEnd (n : Need) (u : State) (p : Nat) : ring (sumEnd n u) p = ring (settle n { u with thr.sr.vstart := 0 }) p := by
  unfold sumEnd
  generalize settle n { u with thr.sr.vstart := 0 } = y
  rfl

theorem vmN_sumFrame {u : State} (hu : SumFrame s u) : vmN u = vmN s := by
  rw [hu]
  exact chargeWord_vmN s

theorem ring_registers {g i q : Nat} {val : Nat → Nat} {u : State} (hu : RegSum s k q g val i u) (p : Nat) : ring u p = ring s p := by
  have h : u = { chargeWord (ewN s) s with thr.v := u.thr.v, thr.hid.units := u.thr.hid.units } := hu.frame
  have hslot : u.slot = (chargeWord (ewN s) s).slot := (congrArg State.slot h).trans rfl
  exact congrArg (fun sl : Slot => SMap.get [] sl.rings p) (hslot.trans (chargeWord_frame (ewN s) s).2.1)

theorem thr_ring {i p : Nat} {l : List RingSlot} {val : Nat → Nat} {u : State} (hu : RingSum (setRing p l s) k p val i u) : u.thr.v = s.thr.v := by
  have h : u = { chargeWord (ewN s) (setRing p l s) with slot.rings := u.slot.rings } := hu.frame
  have hthr : u.thr = (chargeWord (ewN s) (setRing p l s)).thr := (congrArg State.thr h).trans rfl
  exact congrArg Thread.v (hthr.trans (chargeWord_frame (ewN s) (setRing p l s)).1)

theorem sumEnd_frame {u : State} (hu : SumFrame s u)
    (h : OnlyRings { u with thr.sr.vstart := 0 } (settle (sumNeed w x d a b k s) { u with thr.sr.vstart := 0 })) :
    sumEnd (sumNeed w x d a b k s) u = { chargeWord (ewN s) s with
      thr.v := (sumEnd (sumNeed w x d a b k s) u).thr.v, thr.hid.units := (sumEnd (sumNeed w x d a b k s) u).thr.hid.units, thr.sr.vstart := 0
      thr.pnd.replay := s.thr.pnd.replay ++ [captured w s], slot.rings := (sumEnd (sumNeed w x d a b k s) u).slot.rings } := by
  unfold sumEnd
  generalize settle (sumNeed w x d a b k s) { u with thr.sr.vstart := 0 } = y at h
  exact frame_sum hu h

/-- A ring without an open slot gets the word's slot behind its own. -/
theorem openedRing_none {p : Nat} (h : openSlot (ring s p) = none) : openedRing s p = ring s p ++ [freshSlot s] := by
  unfold openedRing
  rw [h]
  rfl

/-- An element of the word counts as written up to vl. -/
theorem written_iff_swept {j : Nat} (hvs : vsN s = 0) :
    (vsN s ≤ j ∧ j < max (vsN s) (vlN s) ∧ activeAt s k.toNat j = true) ↔ written s k j := by
  unfold written
  rw [hvs, Nat.zero_max]

end

/-- Settles O11: the checks of a `vadd` in a TRIO slot turn on its rings, and its sweep fills a group of registers or the slot that it opened. -/
theorem ringTraffic : Obligations.RingTraffic := by
  intro s x d a b k h hchain hidle hwhole hstep hvm hroom ht hvt hint hx hd ha hb hfits w reads bad ahead queues stuck odd
  have hr : RingReady s x d a b := ⟨hchain, hidle, hwhole, hstep, hvm, hroom, ht, hvt, hint, hx, hd, ha, hb, hfits⟩
  have hw := majorOf_vadd x d a b k h
  refine ⟨fun hbad => ?_, fun hbad hst => ?_, fun hbad hst p r hodd hhead hfirst => ?_, fun hbad hst hodd hvs => ?_⟩
  · refine (exec_vadd ..).trans ((congrArg Host.Outcome.next (run_sum_bad hr hbad)).trans ?_)
    rfl
  · exact (exec_vadd ..).trans (congrArg Host.Outcome.next (run_sum_stuck hr hw hbad hst))
  · exact (exec_vadd ..).trans (congrArg Host.Outcome.next (run_sum_odd hr hw hbad hst hodd hhead hfirst))
  · have hsum : ∀ j, addAt s x a b j % 2 ^ ewN s = (elemV s a.toNat (ewN s) j + operandB s x b j) % 2 ^ ewN s := fun j => by
      rw [addAt_eq, Nat.mod_mod]
    rcases Nat.lt_or_ge d.toNat 28 with hlow | hport
    · obtain ⟨u, hgate, hbody, hu⟩ := run_sum_registers (w := w) (k := k) hr hw hbad hst hodd hlow
      obtain ⟨honly, hrings⟩ := settle_sum (w := w) (k := k) hr hbad hu.sumFrame
      obtain ⟨hv, hvm'⟩ := sumEnd_keeps honly
      have hrun := run_sum_done hr hgate hwhole hbody hu.sumFrame honly
      refine ⟨_, (exec_vadd ..).trans (congrArg Host.Outcome.next hrun),
        sumEnd_frame hu.sumFrame honly, fun r hlt => ?_, fun p _ => ⟨fun hp => ?_, fun hp hw => ?_, fun hp => ?_⟩, fun _ j hj => ?_⟩
      · by_cases hin : d.toNat ≤ r ∧ r < d.toNat + grpN s
        · exact .inl hin
        · exact .inr ((rv_low hv hlt).trans (hu.rest r (by omega)))
      · rw [ring_sumEnd, (hrings p).1 hp, ring_registers hu]
      · rw [ring_sumEnd, (hrings p).2.1 hp hw, ring_registers hu]
      · have : d.toNat = 28 + p := hp
        omega
      · have helem := hu.elems j hj
        rw [← elemV_low ht (hd hlow) hj (vmN_sumFrame hu.sumFrame) hvm' hv] at helem
        exact ⟨fun hwr => helem.trans ((if_pos ((written_iff_swept hvs).mpr hwr)).trans (hsum j)),
          fun hwr => helem.trans (if_neg fun h => hwr ((written_iff_swept hvs).mp h))⟩
    · have hdp : isPort d (d.toNat - 28) := (Nat.add_sub_cancel' hport).symm
      obtain ⟨u, hgate, hbody, hu⟩ := run_sum_ring (w := w) (k := k) hr hw hbad hst hodd hdp hvs
      obtain ⟨honly, hrings⟩ := settle_sum (w := w) (k := k) hr hbad hu.sumFrame
      obtain ⟨hv, -⟩ := sumEnd_keeps honly
      have hothers : ∀ q, ¬ isPort d q → ring u q = ring s q := fun q hq => by
        have hne : q ≠ d.toNat - 28 := fun h => hq (h ▸ hdp)
        exact (hu.others q hne).trans (ring_setRing_ne hne _ _)
      have hrun := run_sum_done hr hgate hwhole hbody hu.sumFrame honly
      refine ⟨_, (exec_vadd ..).trans (congrArg Host.Outcome.next hrun),
        sumEnd_frame hu.sumFrame honly, fun r hlt => .inr ?_,
        fun p _ => ⟨fun hp => ?_, fun hp hw => ?_, fun hp hnone => ?_⟩, fun hlt => absurd hlt (Nat.not_lt.mpr hport)⟩
      · have hlow : rv u r = rv s r := rv_low (thr_ring hu) hlt
        exact (rv_low hv hlt).trans hlow
      · rw [ring_sumEnd, (hrings p).1 hp, hothers p fun hq => hbad (.inl ⟨p, hp, .inr (.inr hq)⟩)]
      · rw [ring_sumEnd, (hrings p).2.1 hp hw, hothers p hw]
      · have hpe : d.toNat - 28 = p := by
          have : d.toNat = 28 + p := hp
          omega
        rw [hpe] at hu
        obtain ⟨r, hring, hopen, hvl, hvt', hfill⟩ := hu.slot
        rw [ring_setRing_same, openedRing_none hnone, List.dropLast_concat] at hring
        refine ⟨_, (ring_sumEnd ..).trans ((hrings p).2.2 hp _ r hring hopen), rfl, hvl, hvt', fun j hj => ?_⟩
        have helem := hfill j hj
        refine ⟨fun hwr => helem.trans ((if_pos ((written_iff_swept hvs).mpr hwr)).trans ?_),
          fun hwr => helem.trans (if_neg fun h => hwr ((written_iff_swept hvs).mp h))⟩
        rw [addAt_setRing _ hr hbad hp hwr.2.1]
        exact hsum j

end Sys2Proof.Machine
end
